-- ==== Sys2Proof/Word.lean ====
section
/-! DEFINITION. The words of the part: bytes, floating-point codes, the 128-bit Tvedkor word (R190) and the sparse table
type in which State keeps everything the part holds many of. -/

namespace Sys2Proof

/-- One byte (R10). -/
abbrev Byte := BitVec 8

/-- An FP16 code (R115). -/
abbrev F16 := BitVec 16

/-- An FP32 code (R115). -/
abbrev F32 := BitVec 32

/-- An FP64 code (R145). -/
abbrev F64 := BitVec 64

/-- One Tvedkor word (R190). -/
abbrev TvWord := BitVec 128

/-- A table from a number to a value. Its one canonical form: keys strictly rising, no entry equal to what an unlisted
key reads as. -/
abbrev Tbl (α : Type) := List (Nat × α)

end Sys2Proof
end

