-- ==== Sys2Proof/Syntax.lean ====
section
/-! DEFINITION. The commands of the part: one constructor of `Instr` for each row of spec/opcode_table.json, with what the
row takes from outside as operands. The first operand of every command, `dt`, is the Kelig time in ps since the previous
command (log entry 1). -/

namespace Sys2Proof

/-- The road by which a dictionary request reaches the server (R382): CoE, or the BAR0 window of a host port. -/
inductive Road
  | coe
  | host (p : Fin 2)
  deriving DecidableEq, Repr, Inhabited

/-- The path of a stream-table access (R536): a host's stream window, an RDMA request of a master, or the dictionary. -/
inductive StreamPath
  | window (p : Fin 2)
  | rdma (master : Nat)
  | entry (road : Road)
  deriving DecidableEq, Repr, Inhabited

/-- The request that opens a segmented SDO transfer (R373): an entry, or from a sub-index on with complete access, to be written or
read. -/
structure SdoStart where
  index : BitVec 16 := 0
  sub : BitVec 8 := 0
  complete : Bool := false
  write : Bool := false
  deriving DecidableEq, Repr, Inhabited

/-- The paths by which a launch record arrives (R286), launch frames apart. -/
inductive LaunchPath
  | ring
  | firmware (record : List Byte)
  | twin (record : List Byte)
  | send (master : Nat) (record : List Byte)
  deriving DecidableEq, Repr, Inhabited

/-- The time sources of R276 in their order of priority. -/
inductive TimeSrc
  | ptp | dc | pps
  deriving DecidableEq, Repr, Inhabited

/-- The kinds of unit that a unit reference names (R385). -/
inductive UnitKind
  | core | engine | drain | skim | tensor | vector | coproc | dacGroup | adc | port | stack | cartridge | hostPort
  deriving DecidableEq, Repr, Inhabited

/-- A unit reference: KIND, A and B of R385. -/
structure UnitRef where
  kind : UnitKind := .core
  a : Nat := 0
  b : Nat := 0
  deriving DecidableEq, Repr, Inhabited

/-- What an Ethernet frame carries, as far as the switch tells frames apart (R304, R314). -/
inductive EthKind
  | ipv4 | ipv6 | arp | ptp | esmc | pause | lldp | other
  deriving DecidableEq, Repr, Inhabited

/-- The 802.1Q tag of a frame: none, a priority tag (VID 0), or any other (R304). -/
inductive VlanTag
  | none | priority | other
  deriving DecidableEq, Repr, Inhabited

/-- A received or queued packet. Addresses are IPv6 or IPv4-mapped IPv6 (R254). -/
structure Packet where
  kind : EthKind := .ipv6
  tag : VlanTag := .none
  fcsOk : Bool := true
  multicast : Bool := false
  src : BitVec 128 := 0
  dst : BitVec 128 := 0
  proto : BitVec 8 := 0
  sport : BitVec 16 := 0
  dport : BitVec 16 := 0
  dscp : BitVec 6 := 0
  ecn : BitVec 2 := 0
  ttl : BitVec 8 := 64
  bytes : Nat := 64
  ownQp : Option Nat := none
  body : List Byte := []
  deriving DecidableEq, Repr, Inhabited

/-- A twin control frame: the header of R332, and what a HELLO or its answer appends. -/
structure TwinFrame where
  magic : BitVec 32 := 0x5457494E
  type : BitVec 8 := 1
  twinState : BitVec 8 := 0
  runState : BitVec 8 := 0
  port : BitVec 8 := 0xFF
  sequence : BitVec 64 := 0
  sendTime : BitVec 96 := 0
  freeContexts : BitVec 32 := 0
  logAcked : BitVec 64 := 0
  keyPrefix : BitVec 64 := 0
  pairId : BitVec 64 := 0
  holder : BitVec 64 := 0
  tail : List Byte := []
  deriving DecidableEq, Repr, Inhabited

/-- A request on a stream as the token log carries it (R339), and a sampled token. -/
inductive LogItem
  | token (value : BitVec 32)
  | opened
  | extended (tokens : List (BitVec 32)) (budget : Nat)
  | paused
  | resumed
  | closed
  deriving DecidableEq, Repr, Inhabited

/-- A token log entry of one stream (R339): its log sequence, the sender's stream number and the position it stands at. -/
structure LogEntry where
  seq : Nat := 0
  stream : Nat := 0
  position : Nat := 0
  item : LogItem := .opened
  deriving DecidableEq, Repr, Inhabited

/-- The owner a checkpoint records (R346): a fabric address, or host A, host B or the EtherCAT master. -/
inductive OwnerClass
  | fabric (addr : BitVec 128)
  | hostA | hostB | ethercat
  deriving DecidableEq, Repr, Inhabited

/-- One page a checkpoint carries whole (R340): its KV layer, its block and its bytes. -/
structure CkptPage where
  layer : Nat := 0
  block : Nat := 0
  data : List Byte := []
  deriving DecidableEq, Repr, Inhabited

/-- A checkpoint of a partner's stream (R340). -/
structure Checkpoint where
  stream : Nat := 0
  seq : Nat := 0
  state : Nat := 0
  priority : Nat := 0
  position : Nat := 0
  budget : Nat := 0
  user : Nat := 0
  owner : OwnerClass := .hostA
  jobCode : BitVec 64 := 0
  pages : List CkptPage := []
  deriving DecidableEq, Repr, Inhabited

/-- A column-sum record of the twin (R342): image check code, layer tag, the code of b and the 256 responses F_j. -/
structure CrossCheck where
  check : BitVec 64 := 0
  tag : Nat := 0
  bits : Nat := 0
  sums : List Int := []
  deriving DecidableEq, Repr, Inhabited

/-- What one calibration at one b measured (R72): gains in 2^-16, offsets in 1/16 LSB per step and column, and F_j. -/
structure Measured where
  gains : List Nat := []
  offsets : List (List Int) := []
  sums : List Int := []
  deriving DecidableEq, Repr, Inhabited

/-- Why an access to the interlock or a driver failed (R429). -/
inductive DriverFault
  | openLoad | overcurrent
  deriving DecidableEq, Repr, Inhabited

/-- The kinds of converter reading a sensor delivers at a sample (R450, R455): a temperature in 0.1 degC, or a failed
self-check. -/
inductive SensorRead
  | value (deciC : Int)
  | selfCheckFailed
  | missing
  deriving DecidableEq, Repr, Inhabited

/-- Why a port lost its signal (R309). -/
inductive LosCause
  | rxPower (centiDbm : Int)
  | fecAlignment
  deriving DecidableEq, Repr, Inhabited

/-- The commands: one constructor per row of the opcode table, its docstring naming the row and its rule. -/
inductive Instr
  /-- GOVERNOR_LEVER_APPLY (R24). -/
  | governorLeverApply (dt : Nat) (draw : Nat) (amount : Nat)
  /-- GOVERNOR_LEVER_RELEASE (R24). -/
  | governorLeverRelease (dt : Nat) (draw : Nat) (amount : Nat)
  /-- POWER_CAP_UNMET (R27). -/
  | powerCapUnmet (dt : Nat) (draw : Nat)
  /-- POWER_CAP_WRITE (R28). -/
  | powerCapWrite (dt : Nat) (road : Road) (watts : BitVec 16)
  /-- ALIGNER_VECTOR (R49). -/
  | alignerVector (dt : Nat) (core : Fin 16)
  /-- WINDOW_OPEN (R57). -/
  | windowOpen (dt : Nat) (core : Fin 16) (eng : Fin 34)
  /-- WINDOW_DECISION (R69). -/
  | windowDecision (dt : Nat) (core : Fin 16) (eng : Fin 34) (charges : List Int) (gaps : List Nat)
  /-- VAT_UPDATE (R140). -/
  | vatUpdate (dt : Nat) (core : Fin 16) (eng : Fin 34)
  /-- CHURN_WRITE (R147). -/
  | churnWrite (dt : Nat) (core : Fin 16) (eng : Fin 34)
  /-- ENGINE_FAULT_STOP (R36). -/
  | engineFaultStop (dt : Nat) (core : Fin 16) (eng : Fin 34)
  /-- PULSE_REF_LOCK_LOSS (R39). -/
  | pulseRefLockLoss (dt : Nat) (core : Fin 16)
  /-- PULSE_REF_RELOCK (R39). -/
  | pulseRefRelock (dt : Nat) (core : Fin 16)
  /-- PULSE_REF_UNLOCK (R39). -/
  | pulseRefUnlock (dt : Nat) (core : Fin 16)
  /-- CALIBRATION_WINDOW (R72). -/
  | calibrationWindow (dt : Nat) (core : Fin 16) (eng : Fin 34)
  /-- CALIBRATION_COMPLETE (R72). -/
  | calibrationComplete (dt : Nat) (core : Fin 16) (eng : Fin 34) (measured : Measured)
  /-- COEFFICIENTS_TAKE_EFFECT (R73). -/
  | coefficientsTakeEffect (dt : Nat) (core : Fin 16) (eng : Fin 34)
  /-- CAL_STALE (R75). -/
  | calStale (dt : Nat) (core : Fin 16) (eng : Fin 34)
  /-- HEADROOM_POLICY_EVAL (R85). -/
  | headroomPolicyEval (dt : Nat) (job : Fin 8) (tag : BitVec 14)
  /-- BANK_WRITE (R198). -/
  | bankWrite (dt : Nat) (core : Fin 16) (queue : Fin 66)
  /-- BANK_WRITE_RESET (R103). -/
  | bankWriteReset (dt : Nat) (core : Fin 16) (eng : Fin 34)
  /-- BANK_RESET_SURVEY (R94). -/
  | bankResetSurvey (dt : Nat) (core : Fin 16) (eng : Fin 34) (highest : Nat)
  /-- BANK_COLUMN_VERIFY (R95). -/
  | bankColumnVerify (dt : Nat) (core : Fin 16) (eng : Fin 34) (levels : List Nat)
  /-- BANK_WRITE_FAULT (R100). -/
  | bankWriteFault (dt : Nat) (core : Fin 16) (eng : Fin 34)
  /-- BANK_SWAP (R199). -/
  | bankSwap (dt : Nat) (core : Fin 16) (queue : Fin 66)
  /-- BANK_SWAP_APPLY (R104). -/
  | bankSwapApply (dt : Nat) (core : Fin 16) (eng : Fin 34)
  /-- DRIFT_REFRESH_DUE (R107). -/
  | driftRefreshDue (dt : Nat) (core : Fin 16) (eng : Fin 34) (plane : Fin 2)
  /-- REFRESH_CHUNK_START (R107). -/
  | refreshChunkStart (dt : Nat) (core : Fin 16) (eng : Fin 34) (plane : Fin 2)
  /-- REFRESH_CHUNK_END (R107). -/
  | refreshChunkEnd (dt : Nat) (core : Fin 16) (eng : Fin 34) (plane : Fin 2) (averages : List (List Nat)) (finals : List (List Nat))
  /-- INSTRUCTION_DECODE (R170). -/
  | instructionDecode (dt : Nat) (core : Fin 16)
  /-- INSTRUCTION_DISPATCH (R220). -/
  | instructionDispatch (dt : Nat) (core : Fin 16) (op : Nat)
  /-- INSTRUCTION_COMPLETE (R222). -/
  | instructionComplete (dt : Nat) (core : Fin 16) (op : Nat)
  /-- NOP (R191). -/
  | nop (dt : Nat) (core : Fin 16)
  /-- PATH_SEL (R217). -/
  | pathSel (dt : Nat) (core : Fin 16)
  /-- END (R218). -/
  | endStep (dt : Nat) (core : Fin 16)
  /-- LAUNCH_AT (R216). -/
  | launchAt (dt : Nat) (core : Fin 16)
  /-- LAUNCH_AT_TIME (R293). -/
  | launchAtTime (dt : Nat) (core : Fin 16)
  /-- SIGNAL (R213). -/
  | signal (dt : Nat) (core : Fin 16)
  /-- WAIT (R214). -/
  | wait (dt : Nat) (core : Fin 16)
  /-- WAIT_TIMEOUT (R214). -/
  | waitTimeout (dt : Nat) (core : Fin 16)
  /-- FENCE (R215). -/
  | fence (dt : Nat) (core : Fin 16)
  /-- PASS (R201). -/
  | pass (dt : Nat) (core : Fin 16) (queue : Fin 66)
  /-- SPILL (R149). -/
  | spill (dt : Nat) (core : Fin 16) (queue : Fin 66)
  /-- RESUME (R150). -/
  | resume (dt : Nat) (core : Fin 16) (queue : Fin 66)
  /-- DRAIN (R154). -/
  | drain (dt : Nat) (core : Fin 16)
  /-- DRAIN_ROW_READ (R156). -/
  | drainRowRead (dt : Nat) (core : Fin 16)
  /-- DRAIN_ROW_WRITE (R156). -/
  | drainRowWrite (dt : Nat) (core : Fin 16)
  /-- SKIM_VAT (R158). -/
  | skimVat (dt : Nat) (core : Fin 16)
  /-- SKIM_STORE (R158). -/
  | skimStore (dt : Nat) (core : Fin 16)
  /-- SKIM_LISTS (R158). -/
  | skimLists (dt : Nat) (core : Fin 16)
  /-- TENS (R205). -/
  | tens (dt : Nat) (core : Fin 16)
  /-- CONVERT (R207). -/
  | convert (dt : Nat) (core : Fin 16)
  /-- ADD (R207). -/
  | add (dt : Nat) (core : Fin 16)
  /-- MUL (R207). -/
  | mul (dt : Nat) (core : Fin 16)
  /-- FMA (R207). -/
  | fma (dt : Nat) (core : Fin 16)
  /-- SCALE (R207). -/
  | scale (dt : Nat) (core : Fin 16)
  /-- MAX (R207). -/
  | max (dt : Nat) (core : Fin 16)
  /-- RELU (R207). -/
  | relu (dt : Nat) (core : Fin 16)
  /-- SILU (R207). -/
  | silu (dt : Nat) (core : Fin 16)
  /-- GELU (R207). -/
  | gelu (dt : Nat) (core : Fin 16)
  /-- EXP (R207). -/
  | exp (dt : Nat) (core : Fin 16)
  /-- RECIP (R207). -/
  | recip (dt : Nat) (core : Fin 16)
  /-- RSQRT (R207). -/
  | rsqrt (dt : Nat) (core : Fin 16)
  /-- SOFTMAX (R207). -/
  | softmax (dt : Nat) (core : Fin 16)
  /-- RMSNORM (R207). -/
  | rmsnorm (dt : Nat) (core : Fin 16)
  /-- LAYERNORM (R207). -/
  | layernorm (dt : Nat) (core : Fin 16)
  /-- ROWMAX (R207). -/
  | rowmax (dt : Nat) (core : Fin 16)
  /-- ROWSUM (R207). -/
  | rowsum (dt : Nat) (core : Fin 16)
  /-- SAMPLE (R208). -/
  | sample (dt : Nat) (core : Fin 16)
  /-- MOVE_LOCAL (R209). -/
  | moveLocal (dt : Nat) (core : Fin 16)
  /-- MOVE_FABRIC_WRITE (R209). -/
  | moveFabricWrite (dt : Nat) (core : Fin 16)
  /-- MOVE_FABRIC_READ (R209). -/
  | moveFabricRead (dt : Nat) (core : Fin 16)
  /-- MOVE_TO_HOST (R209). -/
  | moveToHost (dt : Nat) (core : Fin 16)
  /-- MOVE_FROM_HOST (R209). -/
  | moveFromHost (dt : Nat) (core : Fin 16) (data : List Byte)
  /-- STAGGER_RELEASE (R504). -/
  | staggerRelease (dt : Nat) (core : Fin 16) (op : Nat)
  /-- KV_APPEND (R211). -/
  | kvAppend (dt : Nat) (core : Fin 16)
  /-- KV_GATHER (R211). -/
  | kvGather (dt : Nat) (core : Fin 16)
  /-- DMA_TRANSACTION_ISSUE (R173). -/
  | dmaTransactionIssue (dt : Nat) (core : Fin 16) (op : Nat)
  /-- DMA_TRANSACTION_COMPLETE (R249). -/
  | dmaTransactionComplete (dt : Nat) (core : Fin 16) (op : Nat) (doubleBit : Option Nat)
  /-- PACE_MEASURE (R180). -/
  | paceMeasure (dt : Nat) (core : Fin 16) (monitors : List Nat)
  /-- VOLTAGE_STEP (R181). -/
  | voltageStep (dt : Nat) (core : Fin 16) (paceAtNext : List Nat)
  /-- TAGGED_DATA_ARRIVAL (R290). -/
  | taggedDataArrival (dt : Nat) (core : Fin 16) (job : Fin 8) (tag : BitVec 32) (addr : BitVec 64) (data : List Byte)
  /-- ORPHAN_LIMIT (R284). -/
  | orphanLimit (dt : Nat) (core : Fin 16)
  /-- LOAD (R233). -/
  | load (dt : Nat)
  /-- LOAD_COMPLETE (R233). -/
  | loadComplete (dt : Nat) (slot : Fin 8)
  /-- UNLOAD (R235). -/
  | unload (dt : Nat)
  /-- UNLOAD_COMPLETE (R235). -/
  | unloadComplete (dt : Nat) (slot : Fin 8)
  /-- HOLD (R235). -/
  | hold (dt : Nat)
  /-- RELEASE (R235). -/
  | release (dt : Nat)
  /-- FIRMWARE (R267). -/
  | firmware (dt : Nat)
  /-- ATTEST (R271). -/
  | attest (dt : Nat)
  /-- QP (R319). -/
  | qp (dt : Nat)
  /-- OPEN (R242). -/
  | openStream (dt : Nat)
  /-- EXTEND (R242). -/
  | extend (dt : Nat) (hostData : List Byte)
  /-- RESUME_STREAM (R242). -/
  | resumeStream (dt : Nat)
  /-- PAUSE (R242). -/
  | pause (dt : Nat)
  /-- CLOSE (R242). -/
  | close (dt : Nat)
  /-- STREAM_FREED (R241). -/
  | streamFreed (dt : Nat) (stream : BitVec 16)
  /-- STREAM_USER_WRITE (R536). -/
  | streamUserWrite (dt : Nat) (path : StreamPath) (stream : BitVec 16) (offset : Nat) (data : List Byte)
  /-- BUSY_SHARE_INTERVAL (R248). -/
  | busyShareInterval (dt : Nat) (shares : List Nat)
  /-- STEP_FORM (R247). -/
  | stepForm (dt : Nat) (entry : Nat) (tag : BitVec 32)
  /-- STEP_START (R289). -/
  | stepStart (dt : Nat) (job : Fin 8)
  /-- STEP_END (R237). -/
  | stepEnd (dt : Nat) (job : Fin 8) (sampled : List (Nat × BitVec 32)) (pauseShare : Nat)
  /-- JOB_SAVE_DONE (R164). -/
  | jobSaveDone (dt : Nat)
  /-- JOB_RESTORE_DONE (R165). -/
  | jobRestoreDone (dt : Nat) (slot : Fin 8)
  /-- PREEMPTION (R236). -/
  | preemption (dt : Nat) (slot : Fin 8)
  /-- STEP_REISSUE (R472). -/
  | stepReissue (dt : Nat) (job : Fin 8) (tag : BitVec 32)
  /-- LAUNCH_STEP (R288). -/
  | launchStep (dt : Nat) (path : LaunchPath)
  /-- LAUNCH_CANCEL (R291). -/
  | launchCancel (dt : Nat) (path : LaunchPath)
  /-- LAUNCH_FRAME (R292). -/
  | launchFrame (dt : Nat) (port : Fin 128) (src : BitVec 128) (dport : BitVec 16) (data : List Byte)
  /-- LAUNCH_LATE (R289). -/
  | launchLate (dt : Nat) (job : Fin 8) (tag : BitVec 32)
  /-- STEP_DEADLINE (R294). -/
  | stepDeadline (dt : Nat) (job : Fin 8)
  /-- SOURCE_UPDATE (R276). -/
  | sourceUpdate (dt : Nat) (src : TimeSrc) (offset : Int) (clockClass : BitVec 8) (utcOffset : Option (BitVec 16))
  /-- SOURCE_QUALIFIED (R276). -/
  | sourceQualified (dt : Nat) (src : TimeSrc)
  /-- SOURCE_LOST (R276). -/
  | sourceLost (dt : Nat) (src : TimeSrc)
  /-- WAIT_TO_RESTORE (R277). -/
  | waitToRestore (dt : Nat)
  /-- TIME_LOCKED (R278). -/
  | timeLocked (dt : Nat)
  /-- TIME_FREE_RUN (R278). -/
  | timeFreeRun (dt : Nat)
  /-- PPS_EDGE (R280). -/
  | ppsEdge (dt : Nat)
  /-- TIME_OF_DAY (R280). -/
  | timeOfDay (dt : Nat) (road : Road) (seconds : BitVec 64)
  /-- TWIN_TIME_OFFSET (R283). -/
  | twinTimeOffset (dt : Nat)
  /-- EPOCH_STAGE_WRITE (R295). -/
  | epochStageWrite (dt : Nat) (road : Road) (index : BitVec 16) (sub : BitVec 8) (data : List Byte)
  /-- EPOCH_OPEN (R296). -/
  | epochOpen (dt : Nat) (road : Road)
  /-- EPOCH_COMMIT (R296). -/
  | epochCommit (dt : Nat) (road : Road)
  /-- EPOCH_ABORT (R296). -/
  | epochAbort (dt : Nat) (road : Road)
  /-- EPOCH_RECOMMIT (R299). -/
  | epochRecommit (dt : Nat) (road : Road)
  /-- EPOCH_REVERT (R299). -/
  | epochRevert (dt : Nat) (road : Road)
  /-- EPOCH_COMMIT_TIME (R297). -/
  | epochCommitTime (dt : Nat)
  /-- EPOCH_APPLY (R297). -/
  | epochApply (dt : Nat) (unit : UnitRef)
  /-- EPOCH_MIXED (R298). -/
  | epochMixed (dt : Nat)
  /-- PORT_ENABLE (R306). -/
  | portEnable (dt : Nat) (road : Road) (word : BitVec 32)
  /-- PORT_DISABLE (R306). -/
  | portDisable (dt : Nat) (road : Road) (word : BitVec 32)
  /-- PORT_RETRAIN (R306). -/
  | portRetrain (dt : Nat) (road : Road) (word : BitVec 32)
  /-- PORT_REMAP (R306). -/
  | portRemap (dt : Nat) (road : Road) (word : BitVec 32)
  /-- PORT_RETIRE (R306). -/
  | portRetire (dt : Nat) (road : Road) (word : BitVec 32)
  /-- PORT_UNRETIRE (R306). -/
  | portUnretire (dt : Nat) (road : Road) (word : BitVec 32)
  /-- PORT_EGRESS_DRAIN_END (R306). -/
  | portEgressDrainEnd (dt : Nat) (port : Fin 128)
  /-- PORT_LINK_UP (R305). -/
  | portLinkUp (dt : Nat) (port : Fin 128) (speed : Fin 2)
  /-- NEIGHBOUR_SOLICIT (R308). -/
  | neighbourSolicit (dt : Nat) (port : Fin 128)
  /-- NEIGHBOUR_ANSWER (R308). -/
  | neighbourAnswer (dt : Nat) (port : Fin 128) (mac : BitVec 48)
  /-- PORT_TRAINING_TIMEOUT (R305). -/
  | portTrainingTimeout (dt : Nat) (port : Fin 128)
  /-- PORT_FLAP_HOLD (R305). -/
  | portFlapHold (dt : Nat) (port : Fin 128)
  /-- PORT_LOS (R309). -/
  | portLos (dt : Nat) (port : Fin 128) (cause : LosCause)
  /-- PORT_DEGRADED (R309). -/
  | portDegraded (dt : Nat) (port : Fin 128) (ber : BitVec 32)
  /-- PORT_LIGHT_RETURN (R305). -/
  | portLightReturn (dt : Nat) (port : Fin 128)
  /-- PACKET_RECEIVED (R311). -/
  | packetReceived (dt : Nat) (port : Fin 128) (pkt : Packet)
  /-- PACKET_EGRESS (R314). -/
  | packetEgress (dt : Nat) (port : Fin 128) (draw : BitVec 16)
  /-- PFC_PAUSE_REFRESH (R316). -/
  | pfcPauseRefresh (dt : Nat) (port : Fin 128) (cls : Fin 8)
  /-- PFC_PAUSE_RECEIVED (R316). -/
  | pfcPauseReceived (dt : Nat) (port : Fin 128) (cls : Fin 8) (quanta : BitVec 16)
  /-- PFC_PAUSE_EXPIRY (R316). -/
  | pfcPauseExpiry (dt : Nat) (port : Fin 128) (cls : Fin 8)
  /-- PFC_STORM (R316). -/
  | pfcStorm (dt : Nat) (port : Fin 128) (cls : Fin 8)
  /-- PFC_WATCHDOG_RECOVER (R316). -/
  | pfcWatchdogRecover (dt : Nat) (port : Fin 128) (cls : Fin 8)
  /-- ROUTE_TABLE_WRITE (R311). -/
  | routeTableWrite (dt : Nat) (road : Road) (data : List Byte)
  /-- ECMP_GROUPS_WRITE (R311). -/
  | ecmpGroupsWrite (dt : Nat) (road : Road) (data : List Byte)
  /-- RDMA_WRITE_RECEIVED (R320). -/
  | rdmaWriteReceived (dt : Nat) (qp : BitVec 16) (src : BitVec 128) (psn : BitVec 24) (rkey : BitVec 32) (addr : BitVec 64) (data : List Byte)
  /-- RDMA_READ_RECEIVED (R320). -/
  | rdmaReadReceived (dt : Nat) (qp : BitVec 16) (src : BitVec 128) (psn : BitVec 24) (rkey : BitVec 32) (addr : BitVec 64) (len : Nat)
  /-- SEND_RECEIVED (R320). -/
  | sendReceived (dt : Nat) (qp : BitVec 16) (src : BitVec 128) (psn : BitVec 24) (entry : List Byte)
  /-- ATOMIC_RECEIVED (R318). -/
  | atomicReceived (dt : Nat) (qp : BitVec 16) (psn : BitVec 24)
  /-- RDMA_READ_RESPONSE (R321). -/
  | rdmaReadResponse (dt : Nat) (qp : BitVec 16) (psn : BitVec 24) (data : List Byte)
  /-- ACK_RECEIVED (R321). -/
  | ackReceived (dt : Nat) (qp : BitVec 16) (psn : BitVec 24)
  /-- SEQUENCE_NAK (R321). -/
  | sequenceNak (dt : Nat) (qp : BitVec 16) (psn : BitVec 24)
  /-- FATAL_NAK (R321). -/
  | fatalNak (dt : Nat) (qp : BitVec 16) (syndrome : BitVec 8)
  /-- RETRANSMIT_TIMEOUT (R321). -/
  | retransmitTimeout (dt : Nat) (qp : BitVec 16)
  /-- CNP_RECEIVED (R322). -/
  | cnpReceived (dt : Nat) (qp : BitVec 16)
  /-- RATE_RECOVERY_TIMER (R322). -/
  | rateRecoveryTimer (dt : Nat) (qp : BitVec 16)
  /-- PAIR_ENABLE (R327). -/
  | pairEnable (dt : Nat) (road : Road) (value : BitVec 8)
  /-- HELLO (R328). -/
  | hello (dt : Nat) (port : Fin 8) (frame : TwinFrame)
  /-- HELLO_ANSWER (R328). -/
  | helloAnswer (dt : Nat) (port : Fin 8) (frame : TwinFrame) (certificate : List Byte) (geometry : List Nat)
  /-- FORMATION_TIMEOUT (R328). -/
  | formationTimeout (dt : Nat)
  /-- ASYMMETRY_MEASURED (R329). -/
  | asymmetryMeasured (dt : Nat) (asymmetry : List Int)
  /-- HEARTBEAT_INTERVAL (R333). -/
  | heartbeatInterval (dt : Nat)
  /-- HEARTBEAT (R333). -/
  | heartbeat (dt : Nat) (port : Fin 8) (frame : TwinFrame)
  /-- HEARTBEAT_MISS (R333). -/
  | heartbeatMiss (dt : Nat)
  /-- TWIN_SUSPECT (R331). -/
  | twinSuspect (dt : Nat)
  /-- PROBE_INTERVAL (R334). -/
  | probeInterval (dt : Nat)
  /-- PROBE (R334). -/
  | probe (dt : Nat) (src : BitVec 128) (frame : TwinFrame)
  /-- PROBE_REPLY (R335). -/
  | probeReply (dt : Nat) (src : BitVec 128) (frame : TwinFrame)
  /-- WITNESS_CLAIM (R334). -/
  | witnessClaim (dt : Nat)
  /-- WITNESS_GRANT (R336). -/
  | witnessGrant (dt : Nat) (src : BitVec 128) (frame : TwinFrame)
  /-- WITNESS_DENY (R336). -/
  | witnessDeny (dt : Nat) (src : BitVec 128) (frame : TwinFrame)
  /-- WITNESS_RELEASE (R336). -/
  | witnessRelease (dt : Nat)
  /-- PARTNER_STATUS (R334). -/
  | partnerStatus (dt : Nat) (road : Road) (value : BitVec 32)
  /-- CONFIRM_WINDOW (R335). -/
  | confirmWindow (dt : Nat)
  /-- FENCE_GUARD (R337). -/
  | fenceGuard (dt : Nat)
  /-- GOODBYE (R347). -/
  | goodbye (dt : Nat) (port : Fin 8) (frame : TwinFrame)
  /-- UNPAIR_RECEIVED (R349). -/
  | unpairReceived (dt : Nat) (port : Fin 8) (frame : TwinFrame)
  /-- LINK_DOWN_RECOVERY (R331). -/
  | linkDownRecovery (dt : Nat)
  /-- TOKEN_LOG_ENTRY (R339). -/
  | tokenLogEntry (dt : Nat) (entry : LogEntry)
  /-- TOKEN_LOG_ACK (R339). -/
  | tokenLogAck (dt : Nat) (seq : Nat)
  /-- CHECKPOINT_RECEIVED (R341). -/
  | checkpointReceived (dt : Nat) (ckpt : Checkpoint)
  /-- CHECKPOINT_ACK (R340). -/
  | checkpointAck (dt : Nat) (stream : BitVec 16)
  /-- CROSS_CHECK_RECORD (R342). -/
  | crossCheckRecord (dt : Nat) (record : CrossCheck)
  /-- CROSS_CHECK_TIMEOUT (R342). -/
  | crossCheckTimeout (dt : Nat)
  /-- ADOPTION_FROM_BACKLOG (R345). -/
  | adoptionFromBacklog (dt : Nat)
  /-- HANDOVER (R347). -/
  | handover (dt : Nat) (road : Road)
  /-- UNPAIR (R349). -/
  | unpair (dt : Nat) (road : Road)
  /-- RING_ENABLE (R362). -/
  | ringEnable (dt : Nat) (port : Fin 2) (ring : Fin 16) (word : BitVec 32)
  /-- RING_DISABLE (R362). -/
  | ringDisable (dt : Nat) (port : Fin 2) (ring : Fin 16) (word : BitVec 32)
  /-- RING_CONFIGURE (R362). -/
  | ringConfigure (dt : Nat) (port : Fin 2) (ring : Fin 16) (word : BitVec 32)
  /-- REQUEST_DOORBELL (R363). -/
  | requestDoorbell (dt : Nat) (port : Fin 2) (ring : Fin 8) (entries : List (List Byte)) (word : BitVec 32)
  /-- COMPLETION_DOORBELL (R363). -/
  | completionDoorbell (dt : Nat) (port : Fin 2) (ring : Fin 8) (word : BitVec 32)
  /-- COMPLETION_POST (R366). -/
  | completionPost (dt : Nat) (port : Fin 2) (ring : Fin 8)
  /-- MSIX_MESSAGE (R365). -/
  | msixMessage (dt : Nat) (port : Fin 2) (vector : BitVec 11)
  /-- MSIX_UNMASK (R365). -/
  | msixUnmask (dt : Nat) (port : Fin 2) (vector : BitVec 11)
  /-- PERST (R367). -/
  | perst (dt : Nat) (port : Fin 2)
  /-- FLR (R367). -/
  | flr (dt : Nat) (port : Fin 2)
  /-- D3HOT_TO_D0 (R367). -/
  | d3hotToD0 (dt : Nat) (port : Fin 2)
  /-- HOST_LINK_DOWN (R367). -/
  | hostLinkDown (dt : Nat) (port : Fin 2)
  /-- HOST_LINK_UP (R368). -/
  | hostLinkUp (dt : Nat) (port : Fin 2) (speed : Fin 5) (width : Fin 5)
  /-- BUS_MASTER_ENABLE (R368). -/
  | busMasterEnable (dt : Nat) (port : Fin 2)
  /-- BAR4_READ (R369). -/
  | bar4Read (dt : Nat) (port : Fin 2) (offset : Nat) (len : Nat)
  /-- BAR4_WRITE (R369). -/
  | bar4Write (dt : Nat) (port : Fin 2) (offset : Nat) (data : List Byte)
  /-- BAR4_RESIZE (R369). -/
  | bar4Resize (dt : Nat) (port : Fin 2) (log2GiB : Fin 10)
  /-- HBM_APERTURE_BASE_WRITE (R369). -/
  | hbmApertureBaseWrite (dt : Nat) (road : Road) (port : Fin 2) (base : BitVec 64)
  /-- LOW_HALF_READ (R370). -/
  | lowHalfRead (dt : Nat) (port : Fin 2) (offset : BitVec 26)
  /-- HIGH_HALF_READ (R370). -/
  | highHalfRead (dt : Nat) (port : Fin 2) (offset : BitVec 26)
  /-- LOW_HALF_WRITE (R370). -/
  | lowHalfWrite (dt : Nat) (port : Fin 2) (offset : BitVec 26) (value : BitVec 32)
  /-- HIGH_HALF_WRITE (R370). -/
  | highHalfWrite (dt : Nat) (port : Fin 2) (offset : BitVec 26) (value : BitVec 32)
  /-- ENTRY_WRITE (R382). -/
  | entryWrite (dt : Nat) (road : Road) (index : BitVec 16) (sub : BitVec 8) (data : List Byte)
  /-- RC_ENTRY_READ (R380). -/
  | rcEntryRead (dt : Nat) (road : Road) (index : BitVec 16) (sub : BitVec 8)
  /-- SDO_SEGMENT (R381). -/
  | sdoSegment (dt : Nat) (start : Option SdoStart) (toggle : Bool) (last : Bool) (data : List Byte)
  /-- SDO_SEGMENT_TIMEOUT (R381). -/
  | sdoSegmentTimeout (dt : Nat)
  /-- SDO_INFORMATION (R373). -/
  | sdoInformation (dt : Nat) (request : Fin 3) (index : BitVec 16) (sub : BitVec 8)
  /-- FOE_WRITE (R376). -/
  | foeWrite (dt : Nat) (name : List Byte) (image : List Byte) (interrupted : Bool)
  /-- ACCESS_BLOCK_READ (R390). -/
  | accessBlockRead (dt : Nat) (port : Fin 2) (index : BitVec 16) (sub : BitVec 8) (reserved : BitVec 6)
  /-- ACCESS_BLOCK_WRITE (R390). -/
  | accessBlockWrite (dt : Nat) (port : Fin 2) (index : BitVec 16) (sub : BitVec 8) (reserved : BitVec 6) (data : List Byte)
  /-- ACCESS_BLOCK_COMPLETE_READ (R390). -/
  | accessBlockCompleteRead (dt : Nat) (port : Fin 2) (index : BitVec 16) (sub : BitVec 8) (reserved : BitVec 6)
  /-- ACCESS_BLOCK_COMPLETE_WRITE (R390). -/
  | accessBlockCompleteWrite (dt : Nat) (port : Fin 2) (index : BitVec 16) (sub : BitVec 8) (reserved : BitVec 6) (data : List Byte)
  /-- EMERGENCY_MAILBOX_READ (R489). -/
  | emergencyMailboxRead (dt : Nat)
  /-- TXPDO_SAMPLE (R378). -/
  | txpdoSample (dt : Nat)
  /-- AL_STATE_CHANGE (R373). -/
  | alStateChange (dt : Nat) (al : Fin 4)
  /-- RESYNCHRONISE (R396). -/
  | resynchronise (dt : Nat) (road : Road) (token : BitVec 32)
  /-- SUMMARY_SNAPSHOT (R396). -/
  | summarySnapshot (dt : Nat) (master : Fin 3)
  /-- SUMMARY_READY (R396). -/
  | summaryReady (dt : Nat) (master : Fin 3)
  /-- PIN_TABLE_WRITE (R395). -/
  | pinTableWrite (dt : Nat) (road : Road) (data : List Byte)
  /-- START (R393). -/
  | start (dt : Nat) (road : Road)
  /-- STOP (R393). -/
  | stop (dt : Nat) (road : Road)
  /-- SAFE (R393). -/
  | safe (dt : Nat) (road : Road)
  /-- CLEAR (R393). -/
  | clear (dt : Nat) (road : Road)
  /-- SHUTDOWN (R393). -/
  | shutdown (dt : Nat) (road : Road)
  /-- COLD_RESET (R514). -/
  | coldReset (dt : Nat) (road : Road)
  /-- GRANT_WRITE (R261). -/
  | grantWrite (dt : Nat) (road : Road) (index : BitVec 16) (sub : BitVec 8) (value : BitVec 32)
  /-- REGION_WRITE (R256). -/
  | regionWrite (dt : Nat) (road : Road) (index : BitVec 16) (sub : BitVec 8) (value : BitVec 64)
  /-- PEER_ENTRY_WRITE (R254). -/
  | peerEntryWrite (dt : Nat) (road : Road) (index : BitVec 16) (sub : BitVec 8) (data : List Byte)
  /-- COMMISSIONING_LOCK (R262). -/
  | commissioningLock (dt : Nat) (road : Road) (value : BitVec 8)
  /-- FIRMWARE_VERIFIED (R264). -/
  | firmwareVerified (dt : Nat)
  /-- TRIAL_CONFIRM (R265). -/
  | trialConfirm (dt : Nat) (road : Road) (value : BitVec 8)
  /-- TRIAL_TIMEOUT (R265). -/
  | trialTimeout (dt : Nat)
  /-- COMMIT_SECURITY_VERSION (R266). -/
  | commitSecurityVersion (dt : Nat) (road : Road) (value : BitVec 8)
  /-- MICROCODE_UPDATE_CORE (R268). -/
  | microcodeUpdateCore (dt : Nat) (road : Road) (value : BitVec 8)
  /-- MICROCODE_UPDATE_DONE (R268). -/
  | microcodeUpdateDone (dt : Nat) (core : Fin 16) (passed : Bool)
  /-- ATTESTATION_NONCE (R271). -/
  | attestationNonce (dt : Nat) (road : Road) (nonce : List Byte)
  /-- LOOP_FRAME (R401). -/
  | loopFrame (dt : Nat) (core : Fin 16) (supply : BitVec 16) (fast : Nat) (time : Nat) (offsets : List Int)
  /-- OUTPUT_STROBE (R401). -/
  | outputStrobe (dt : Nat) (core : Fin 16)
  /-- LOOP_OFF (R418). -/
  | loopOff (dt : Nat) (road : Road) (core : Fin 16) (word : BitVec 32)
  /-- LOOP_MANUAL (R418). -/
  | loopManual (dt : Nat) (road : Road) (core : Fin 16) (word : BitVec 32)
  /-- LOOP_ACQUIRE (R418). -/
  | loopAcquire (dt : Nat) (road : Road) (core : Fin 16) (word : BitVec 32)
  /-- LOOP_TRACK (R418). -/
  | loopTrack (dt : Nat) (road : Road) (core : Fin 16) (word : BitVec 32)
  /-- LOOP_RESTART (R418). -/
  | loopRestart (dt : Nat) (road : Road) (core : Fin 16) (word : BitVec 32)
  /-- LOOP_LOCKED (R408). -/
  | loopLocked (dt : Nat) (core : Fin 16) (slot : Fin 1152)
  /-- LOOP_UNLOCKED (R408). -/
  | loopUnlocked (dt : Nat) (core : Fin 16) (slot : Fin 1152)
  /-- LOOP_ACQUIRE_FAIL (R408). -/
  | loopAcquireFail (dt : Nat) (core : Fin 16) (slot : Fin 1152)
  /-- LOOP_PLAUSIBILITY (R411). -/
  | loopPlausibility (dt : Nat) (core : Fin 16) (slot : Fin 1152)
  /-- LOOP_DEADLINE (R412). -/
  | loopDeadline (dt : Nat) (core : Fin 16) (slot : Fin 1152)
  /-- LOOP_CONFIG_WRITE (R419). -/
  | loopConfigWrite (dt : Nat) (road : Road) (core : Fin 16) (data : List Byte)
  /-- COEFFICIENT_WRITE (R414). -/
  | coefficientWrite (dt : Nat) (road : Road) (core : Fin 16) (data : List Byte)
  /-- INJECT_STEP (R415). -/
  | injectStep (dt : Nat) (road : Road) (core : Fin 16) (data : List Byte)
  /-- INJECT_PRBS (R415). -/
  | injectPrbs (dt : Nat) (road : Road) (core : Fin 16) (data : List Byte)
  /-- INJECT_SINE (R415). -/
  | injectSine (dt : Nat) (road : Road) (core : Fin 16) (data : List Byte)
  /-- INJECT_STOP (R415). -/
  | injectStop (dt : Nat) (road : Road) (core : Fin 16) (data : List Byte)
  /-- INJECTION_END (R415). -/
  | injectionEnd (dt : Nat) (core : Fin 16)
  /-- CONVERTER_TICK (R422). -/
  | converterTick (dt : Nat) (core : Fin 16) (volts : List Int) (references : List Int)
  /-- ADC_REFERENCE (R442). -/
  | adcReference (dt : Nat) (core : Fin 16) (adc : Fin 68)
  /-- SLEW_MOVE (R432). -/
  | slewMove (dt : Nat) (core : Fin 16) (channel : Fin 1120)
  /-- QUEUE_TICK (R431). -/
  | queueTick (dt : Nat) (core : Fin 16) (group : Fin 35)
  /-- SPAN_CHANGE_END (R436). -/
  | spanChangeEnd (dt : Nat) (core : Fin 16) (channel : Fin 1120)
  /-- DAC_DRIVER_FAULT (R429). -/
  | dacDriverFault (dt : Nat) (core : Fin 16) (channel : Fin 1120) (cause : DriverFault)
  /-- ARM (R427). -/
  | arm (dt : Nat) (road : Road) (core : Fin 16) (word : BitVec 32)
  /-- DISARM (R427). -/
  | disarm (dt : Nat) (road : Road) (core : Fin 16) (word : BitVec 32)
  /-- CHANNEL_WRITE (R430). -/
  | channelWrite (dt : Nat) (road : Road) (core : Fin 16) (data : List Byte)
  /-- GROUP_STROBE (R430). -/
  | groupStrobe (dt : Nat) (road : Road) (core : Fin 16) (groups : BitVec 64)
  /-- QUEUE_WRITE (R431). -/
  | queueWrite (dt : Nat) (road : Road) (core : Fin 16) (data : List Byte)
  /-- CHANNEL_CONFIG_WRITE (R445). -/
  | channelConfigWrite (dt : Nat) (road : Road) (core : Fin 16) (data : List Byte)
  /-- GENERATOR_WRITE (R434). -/
  | generatorWrite (dt : Nat) (road : Road) (core : Fin 16) (data : List Byte)
  /-- WHEEL_RUN (R443). -/
  | wheelRun (dt : Nat) (road : Road) (core : Fin 16) (value : BitVec 8)
  /-- SENSOR_SAMPLE (R450). -/
  | sensorSample (dt : Nat) (readings : List SensorRead)
  /-- HBM_REPORT_TIMEOUT (R455). -/
  | hbmReportTimeout (dt : Nat) (stack : Fin 20)
  /-- SENSOR_DEVIATION_TIMEOUT (R455). -/
  | sensorDeviationTimeout (dt : Nat) (sensor : Fin 238)
  /-- THROTTLE_EVALUATION (R454). -/
  | throttleEvaluation (dt : Nat) (zone : Fin 62)
  /-- SENSOR_REINSTATE (R456). -/
  | sensorReinstate (dt : Nat) (road : Road) (sensor : BitVec 16) (selfCheckPassed : Bool)
  /-- CORE_ORDERLY_STOP (R460). -/
  | coreOrderlyStop (dt : Nat) (core : Fin 16)
  /-- STACK_POWER_DOWN (R460). -/
  | stackPowerDown (dt : Nat) (stack : Fin 20)
  /-- SHUTDOWN_HANDOVER_LIMIT (R517). -/
  | shutdownHandoverLimit (dt : Nat)
  /-- THERMAL_HARD_TRIP (R462). -/
  | thermalHardTrip (dt : Nat) (zone : Fin 62) (supervisorPowered : Bool)
  /-- FEED_RANGE (R463). -/
  | feedRange (dt : Nat) (feed : Fin 2) (millivolts : Int)
  /-- FEED_RETURN (R463). -/
  | feedReturn (dt : Nat) (feed : Fin 2) (millivolts : Int)
  /-- FEED_LOST (R463). -/
  | feedLost (dt : Nat) (feed : Fin 2) (millivolts : Int)
  /-- BOTH_FEEDS_LOST (R464). -/
  | bothFeedsLost (dt : Nat) (millivoltsA : Int) (millivoltsB : Int)
  /-- FEED_QUALIFIED (R507). -/
  | feedQualified (dt : Nat) (feed : Fin 2)
  /-- STANDBY_REACHED (R507). -/
  | standbyReached (dt : Nat) (failed : List UnitRef)
  /-- CORE_WARMING_STEP (R510). -/
  | coreWarmingStep (dt : Nat) (core : Fin 16)
  /-- WARMING_LIMIT (R511). -/
  | warmingLimit (dt : Nat)
  /-- RESET_LOOP_ASSERT (R531). -/
  | resetLoopAssert (dt : Nat)
  /-- RESET_LOOP_RELEASE (R531). -/
  | resetLoopRelease (dt : Nat)
  /-- RECALIBRATION_DUE (R468). -/
  | recalibrationDue (dt : Nat) (core : Fin 16) (eng : Fin 34) (plane : Fin 2)
  /-- STORE_SCRUB (R470). -/
  | storeScrub (dt : Nat) (core : Fin 16) (singles : List Nat) (doubles : List Nat)
  /-- HBM_SCRUB (R470). -/
  | hbmScrub (dt : Nat) (stack : Fin 20) (singles : List Nat) (doubles : List Nat)
  /-- TELEMETRY_SNAPSHOT (R494). -/
  | telemetrySnapshot (dt : Nat) (energy : Nat)
  /-- REPAIR_FENCE (R471). -/
  | repairFence (dt : Nat) (road : Road) (data : List Byte)
  /-- REPAIR_TEST (R471). -/
  | repairTest (dt : Nat) (road : Road) (data : List Byte)
  /-- REPAIR_RETIRE (R471). -/
  | repairRetire (dt : Nat) (road : Road) (data : List Byte)
  /-- REPAIR_UNRETIRE (R471). -/
  | repairUnretire (dt : Nat) (road : Road) (data : List Byte)
  /-- REPAIR_TEST_DONE (R471). -/
  | repairTestDone (dt : Nat) (unit : UnitRef) (passed : Bool)
  /-- CARTRIDGE_UNLATCH (R477). -/
  | cartridgeUnlatch (dt : Nat) (cartridge : Fin 8)
  /-- LASER_INTERLOCK_CUT (R477). -/
  | laserInterlockCut (dt : Nat) (cartridge : Fin 8)
  /-- CARTRIDGE_LATCH (R478). -/
  | cartridgeLatch (dt : Nat) (cartridge : Fin 8) (serial : BitVec 96) (hours : BitVec 32)
  /-- EXPORT_DATAGRAM (R489). -/
  | exportDatagram (dt : Nat)
  /-- STORM_PERIOD_END (R490). -/
  | stormPeriodEnd (dt : Nat) (sink : Fin 3)
  /-- EVENT_FETCH (R489). -/
  | eventFetch (dt : Nat) (road : Road) (sub : BitVec 8)
  /-- CURSOR_WRITE (R489). -/
  | cursorWrite (dt : Nat) (road : Road) (sub : BitVec 8) (value : BitVec 64)
  /-- ALARM_ACKNOWLEDGE (R491). -/
  | alarmAcknowledge (dt : Nat) (road : Road) (entry : BitVec 32)
  /-- SYNC_AND_ANNOUNCE_SEND (R282). -/
  | syncAndAnnounceSend (dt : Nat)
  /-- PERST_DEASSERTION (R368). -/
  | perstDeassertion (dt : Nat) (port : Fin 2)
  /-- LOCAL_OR_REMOTE_FAULT (R305). -/
  | localOrRemoteFault (dt : Nat) (port : Fin 128)
  /-- CARTRIDGE_REMOVED (R481). -/
  | cartridgeRemoved (dt : Nat) (cartridge : Fin 8)
  /-- SIGNATURE_INTERVAL_END (R328). -/
  | signatureIntervalEnd (dt : Nat)
  deriving DecidableEq, Repr

end Sys2Proof
end

