-- ==== Sys2Proof/Decode.lean ====
section
/-! DEFINITION. The decoder over the opcode table's bits. The part has no instruction words of its own at this level: no row
of spec/opcode_table.json has bits, so no word spells a command (R190's words are read in Machine/Sequencer.lean). -/

namespace Sys2Proof

/-- The command that a word spells by the opcode table's bits: none, since no row has bits. -/
def decodeTableWord (_nbits _w : Nat) : Option Instr := none

end Sys2Proof
end

