-- ==== Sys2Proof/Config.lean ====
section
/-! DEFINITION. What one part has and another has not, and the values the spec leaves open. Each is a constant without a
body: nothing in a proof can rest on its value (log entry 4). -/

namespace Sys2Proof.Config

/-- The XMSS signature, 2,820 bytes long in the device (R263, R269), of a message under the device's key at a leaf. -/
opaque xmssSign : List Byte → Nat → List Byte

/-- Whether a signature verifies under a public key (R264, R328). -/
opaque xmssVerify : List Byte → List Byte → List Byte → Bool

/-- The device's public key of 68 bytes (R269). -/
opaque publicKey : List Byte

/-- The 256-bit root hash in OTP, 32 bytes (R264). -/
opaque rootHash : List Byte

/-- The vendor certificate (R269). -/
opaque certificate : List Byte

/-- A fresh nonce of 32 bytes for a HELLO (R328), by the count of free values taken. -/
opaque nonce : Nat → List Byte

/-- The engine number in the key of a stand-in slot's random bits (R143, R474), by core and slot. -/
opaque standInKey : Nat → Nat → Nat

/-- The position SAMPLE draws when rounding leaves every cumulative weight below u (R208), by the count of free values. -/
opaque samplePosition : Nat → BitVec 32

/-- The sign of MAX of +0 and -0 (R207), by the count of free values. -/
opaque maxOfZeros : Nat → Bool

/-- A number the spec leaves open, by the count of free values taken. -/
opaque freeNat : Nat → Nat

end Sys2Proof.Config
end

