-- ==== Sys2Proof/Machine/Dictionary.lean ====
section
/-! DEFINITION. The object dictionary's entries (R379 to R384 and the entry tables of every chapter): one row for each
sub-index with its CiA 301 type, its size, its access class, its value after cold reset, its range and its marks. The
regions, grants and peer table (R254, R256) follow rules instead of rows and stand at the end. -/

namespace Sys2Proof.Machine

/-- A row of an entry table. -/
structure OdRow where
  sub : Nat
  /-- CiA 301 type code (R379). -/
  ty : Nat
  /-- Size in bytes, 0 for an entry of variable size. -/
  bytes : Nat
  /-- Access class: 0 ro, 1 rw, 2 wo, 3 rs, 4 rc (R380). -/
  acc : Nat
  /-- Value after cold reset, 0 for a dash (log entry 3). -/
  dflt : Nat
  /-- Least and greatest value that a write may carry. -/
  lo : Int
  hi : Int
  /-- [0] non-volatile, [1] EPOCH, [2] PROG (R380). -/
  marks : Nat
  deriving DecidableEq, Repr

/-- Object 0x1000: Device Type. -/
def od1000 : List OdRow := [
  ⟨0x00, 7, 4, 0, 0, 0, 4294967295, 0⟩]

/-- Object 0x1001: Error Register. -/
def od1001 : List OdRow := [
  ⟨0x00, 5, 1, 0, 0, 0, 255, 0⟩]

/-- Object 0x1008: Device Name. -/
def od1008 : List OdRow := [
  ⟨0x00, 9, 16, 0, 0x303236392d564c50, 0, 340282366920938463463374607431768211455, 0⟩]

/-- Object 0x1009: Hardware Version. -/
def od1009 : List OdRow := [
  ⟨0x00, 9, 16, 0, 0, 0, 340282366920938463463374607431768211455, 0⟩]

/-- Object 0x100A: Software Version. -/
def od100A : List OdRow := [
  ⟨0x00, 9, 16, 0, 0, 0, 340282366920938463463374607431768211455, 0⟩]

/-- Object 0x1018: Vendor ID, Product Code, Revision, Serial Number, Full Serial. -/
def od1018 : List OdRow := [
  ⟨0x00, 5, 1, 0, 5, 0, 255, 0⟩,
  ⟨0x01, 7, 4, 0, 0, 0, 4294967295, 0⟩,
  ⟨0x02, 7, 4, 0, 0x9620, 0, 4294967295, 0⟩,
  ⟨0x03, 7, 4, 0, 0, 0, 4294967295, 0⟩,
  ⟨0x04, 7, 4, 0, 0, 0, 4294967295, 0⟩,
  ⟨0x05, 10, 12, 0, 0, 0, 79228162514264337593543950335, 0⟩]

/-- Object 0x2000: Run State, Run Command, Run State Changes, Time In Run State, Open Alarms, Safe Cause. -/
def od2000 : List OdRow := [
  ⟨0x00, 5, 1, 0, 6, 0, 255, 0⟩,
  ⟨0x01, 5, 1, 0, 0, 0, 255, 0⟩,
  ⟨0x02, 5, 1, 2, 0, 0, 255, 0⟩,
  ⟨0x03, 27, 8, 0, 0, 0, 18446744073709551615, 0⟩,
  ⟨0x04, 7, 4, 3, 0, 0, 4294967295, 0⟩,
  ⟨0x05, 6, 2, 3, 0, 0, 65535, 0⟩,
  ⟨0x06, 5, 1, 0, 0, 0, 255, 0⟩]

/-- Object 0x2001: Highest Sub-index, Cores, Engines In Service Per Core, Spare Engines Per Core, Banks Per Engine, Rows Per Bank, Logical Columns Per Bank, Spare Column Pairs Per Bank, Cell Level Bits, Vat Rows Per Engine, Core Store Per Core, HBM Stacks, HBM Stack Capacity, Switch Buffer, Fabric Ports, First Twin Port, Twin Ports, Laser Cartridges, Cores Per Cartridge, Ports Per Cartridge, Stream Contexts, KV Page. -/
def od2001 : List OdRow := [
  ⟨0x00, 5, 1, 0, 0x17, 0, 255, 0⟩,
  ⟨0x01, 5, 1, 0, 0x10, 0, 255, 0⟩,
  ⟨0x02, 5, 1, 0, 0x20, 0, 255, 0⟩,
  ⟨0x03, 5, 1, 0, 2, 0, 255, 0⟩,
  ⟨0x04, 5, 1, 0, 2, 0, 255, 0⟩,
  ⟨0x05, 6, 2, 0, 0x200, 0, 65535, 0⟩,
  ⟨0x06, 6, 2, 0, 0x100, 0, 65535, 0⟩,
  ⟨0x07, 5, 1, 0, 4, 0, 255, 0⟩,
  ⟨0x08, 5, 1, 0, 6, 0, 255, 0⟩,
  ⟨0x09, 6, 2, 0, 0x1000, 0, 65535, 0⟩,
  ⟨0x0A, 7, 4, 0, 0x700, 0, 4294967295, 0⟩,
  ⟨0x0B, 5, 1, 0, 0x14, 0, 255, 0⟩,
  ⟨0x0C, 6, 2, 0, 0x18, 0, 65535, 0⟩,
  ⟨0x0D, 6, 2, 0, 0x100, 0, 65535, 0⟩,
  ⟨0x0E, 5, 1, 0, 0x80, 0, 255, 0⟩,
  ⟨0x0F, 5, 1, 0, 0x78, 0, 255, 0⟩,
  ⟨0x10, 5, 1, 0, 8, 0, 255, 0⟩,
  ⟨0x11, 5, 1, 0, 8, 0, 255, 0⟩,
  ⟨0x12, 5, 1, 0, 2, 0, 255, 0⟩,
  ⟨0x13, 5, 1, 0, 0x10, 0, 255, 0⟩,
  ⟨0x14, 7, 4, 0, 0x10000, 0, 4294967295, 0⟩,
  ⟨0x15, 6, 2, 0, 0x40, 0, 65535, 0⟩,
  ⟨0x16, 5, 1, 0, 8, 0, 255, 0⟩,
  ⟨0x17, 5, 1, 0, 2, 0, 255, 0⟩]

/-- Object 0x2002: Current Epoch, Staged Entries, Commit Time, Commit Window, Epoch Command. -/
def od2002 : List OdRow := [
  ⟨0x00, 5, 1, 0, 5, 0, 255, 0⟩,
  ⟨0x01, 6, 2, 0, 1, 0, 65535, 0⟩,
  ⟨0x02, 6, 2, 0, 0, 0, 65535, 0⟩,
  ⟨0x03, 10, 12, 1, 0, 0, 79228162514264337593543950335, 0⟩,
  ⟨0x04, 7, 4, 1, 0x64, 10, 10000, 0⟩,
  ⟨0x05, 5, 1, 2, 0, 0, 255, 0⟩]

/-- Object 0x2003: Epoch State, Mixed Units, Mixed Unit List, Epoch Commits, Epochs Mixed. -/
def od2003 : List OdRow := [
  ⟨0x00, 5, 1, 0, 5, 0, 255, 0⟩,
  ⟨0x01, 5, 1, 0, 0, 0, 255, 0⟩,
  ⟨0x02, 6, 2, 0, 0, 0, 65535, 0⟩,
  ⟨0x03, 15, 0, 0, 0, 0, 0, 0⟩,
  ⟨0x04, 27, 8, 0, 0, 0, 18446744073709551615, 0⟩,
  ⟨0x05, 27, 8, 0, 0, 0, 18446744073709551615, 0⟩]

/-- Object 0x2010: Resynchronise, Ready Token EtherCAT Master, Ready Token Host A, Ready Token Host B. -/
def od2010 : List OdRow := [
  ⟨0x00, 5, 1, 0, 4, 0, 255, 0⟩,
  ⟨0x01, 7, 4, 2, 0, 0, 4294967295, 0⟩,
  ⟨0x02, 7, 4, 0, 0, 0, 4294967295, 0⟩,
  ⟨0x03, 7, 4, 0, 0, 0, 4294967295, 0⟩,
  ⟨0x04, 7, 4, 0, 0, 0, 4294967295, 0⟩]

/-- Object 0x2011: Summary EtherCAT Master, Summary Host A, Summary Host B. -/
def od2011 : List OdRow := [
  ⟨0x00, 5, 1, 0, 3, 0, 255, 0⟩,
  ⟨0x01, 15, 0, 0, 0, 0, 0, 0⟩,
  ⟨0x02, 15, 0, 0, 0, 0, 0, 0⟩,
  ⟨0x03, 15, 0, 0, 0, 0, 0, 0⟩]

/-- Object 0x2012: Stream Select, Stream Context, Stream User. -/
def od2012 : List OdRow := [
  ⟨0x00, 5, 1, 0, 3, 0, 255, 0⟩,
  ⟨0x01, 7, 4, 1, 0, 0, 65535, 0⟩,
  ⟨0x02, 10, 64, 0, 0, 0, 13407807929942597099574024998205846127479365820592393377723561443721764030073546976801874298166903427690031858186486050853753882811946569946433649006084095, 0⟩,
  ⟨0x03, 27, 8, 1, 0, 0, 18446744073709551615, 0⟩]

/-- Object 0x2020: Pin Table, Pins In Force. -/
def od2020 : List OdRow := [
  ⟨0x00, 5, 1, 0, 2, 0, 255, 0⟩,
  ⟨0x01, 15, 0, 1, 0, 0, 0, 0⟩,
  ⟨0x02, 6, 2, 3, 0, 0, 65535, 0⟩]

/-- Object 0x2100: Lock State, Followed Source, Kelig Time, Source Offset, Holdover Elapsed, Lock State Changes, UTC Offset, Time Steps, Twin Offset. -/
def od2100 : List OdRow := [
  ⟨0x00, 5, 1, 0, 9, 0, 255, 0⟩,
  ⟨0x01, 5, 1, 0, 0, 0, 255, 0⟩,
  ⟨0x02, 5, 1, 0, 0, 0, 255, 0⟩,
  ⟨0x03, 10, 12, 3, 0, 0, 79228162514264337593543950335, 0⟩,
  ⟨0x04, 4, 4, 3, 0, (-2147483648), 2147483647, 0⟩,
  ⟨0x05, 7, 4, 3, 0, 0, 4294967295, 0⟩,
  ⟨0x06, 27, 8, 0, 0, 0, 18446744073709551615, 0⟩,
  ⟨0x07, 3, 2, 1, 0x25, (-32768), 32767, 0⟩,
  ⟨0x08, 27, 8, 0, 0, 0, 18446744073709551615, 0⟩,
  ⟨0x09, 4, 4, 3, 0, (-2147483648), 2147483647, 0⟩]

/-- Object 0x2101: PTP Enable, DC Enable, 1PPS Enable, Wait To Restore, Lock Threshold, Holdover Limit, Step Threshold, Step Permit. -/
def od2101 : List OdRow := [
  ⟨0x00, 5, 1, 0, 8, 0, 255, 0⟩,
  ⟨0x01, 1, 1, 1, 1, 0, 1, 0⟩,
  ⟨0x02, 1, 1, 1, 1, 0, 1, 0⟩,
  ⟨0x03, 1, 1, 1, 0, 0, 1, 0⟩,
  ⟨0x04, 6, 2, 1, 0xa, 0, 600, 0⟩,
  ⟨0x05, 6, 2, 1, 0x64, 10, 1000, 0⟩,
  ⟨0x06, 7, 4, 1, 0x3840, 60, 86400, 0⟩,
  ⟨0x07, 7, 4, 1, 0x2710, 1000, 1000000000, 0⟩,
  ⟨0x08, 1, 1, 1, 0, 0, 1, 0⟩]

/-- Object 0x2102: PTP Domain, Local Priority, Clock Identity, Boundary Clock Enable, Multicast Address Map, Not Slave Map. -/
def od2102 : List OdRow := [
  ⟨0x00, 5, 1, 0, 6, 0, 255, 0⟩,
  ⟨0x01, 5, 1, 1, 0x18, 24, 43, 0⟩,
  ⟨0x02, 5, 1, 1, 0x80, 1, 255, 0⟩,
  ⟨0x03, 10, 8, 0, 0, 0, 18446744073709551615, 0⟩,
  ⟨0x04, 1, 1, 1, 1, 0, 1, 0⟩,
  ⟨0x05, 10, 16, 1, 0, 0, 340282366920938463463374607431768211455, 0⟩,
  ⟨0x06, 10, 16, 1, 0, 0, 340282366920938463463374607431768211455, 0⟩]

/-- Object 0x2103: SyncE Enable, SyncE Port, SyncE QL. -/
def od2103 : List OdRow := [
  ⟨0x00, 5, 1, 0, 3, 0, 255, 0⟩,
  ⟨0x01, 1, 1, 1, 1, 0, 1, 0⟩,
  ⟨0x02, 5, 1, 0, 0xff, 0, 255, 0⟩,
  ⟨0x03, 5, 1, 0, 0xf, 0, 255, 0⟩]

/-- Object 0x2104: DC Epoch. -/
def od2104 : List OdRow := [
  ⟨0x00, 5, 1, 0, 1, 0, 255, 0⟩,
  ⟨0x01, 27, 8, 1, 0x386d43a0, 0, 18446744073709551615, 0⟩]

/-- Object 0x2105: Cable Delay, Time Of Day Known, Time Of Day. -/
def od2105 : List OdRow := [
  ⟨0x00, 5, 1, 0, 3, 0, 255, 0⟩,
  ⟨0x01, 4, 4, 1, 0, (-100000), 100000, 0⟩,
  ⟨0x02, 1, 1, 0, 0, 0, 1, 0⟩,
  ⟨0x03, 27, 8, 2, 0, 0, 18446744073709551615, 0⟩]

/-- Object 0x2106: Launch UDP Port, Launch Frames Enable, Orphan Limit. -/
def od2106 : List OdRow := [
  ⟨0x00, 5, 1, 0, 3, 0, 255, 0⟩,
  ⟨0x01, 6, 2, 1, 0xb9f0, 1024, 65535, 0⟩,
  ⟨0x02, 1, 1, 1, 0, 0, 1, 0⟩,
  ⟨0x03, 7, 4, 1, 0x3e8, 10, 100000, 0⟩]

/-- Object 0x2107: Launches Accepted, Launches Refused, Launches Pending, Late Starts, Stretched Starts, Steps Abandoned Late, Late Tagged Data, Orphans Discarded, Stretch Factor C0 to C15. -/
def od2107 : List OdRow := [
  ⟨0x00, 5, 1, 0, 9, 0, 255, 0⟩,
  ⟨0x01, 27, 8, 0, 0, 0, 18446744073709551615, 0⟩,
  ⟨0x02, 27, 8, 0, 0, 0, 18446744073709551615, 0⟩,
  ⟨0x03, 6, 2, 3, 0, 0, 65535, 0⟩,
  ⟨0x04, 27, 8, 0, 0, 0, 18446744073709551615, 0⟩,
  ⟨0x05, 27, 8, 0, 0, 0, 18446744073709551615, 0⟩,
  ⟨0x06, 27, 8, 0, 0, 0, 18446744073709551615, 0⟩,
  ⟨0x07, 27, 8, 0, 0, 0, 18446744073709551615, 0⟩,
  ⟨0x08, 27, 8, 0, 0, 0, 18446744073709551615, 0⟩,
  ⟨0x09, 10, 32, 3, 0, 0, 115792089237316195423570985008687907853269984665640564039457584007913129639935, 0⟩]

/-- Object 0x2200: Pair Enable, Partner Key Hash, Partner Fabric Address, Witness Address, Probe UDP Port, EtherCAT Relay Enable, Heartbeat Interval, Confirm Window, Fence Guard, Checkpoint Tokens, Checkpoint Interval, Mirror Share, Cross-check Tolerance, Default Adoption Owner, Miss Limit. -/
def od2200 : List OdRow := [
  ⟨0x00, 5, 1, 0, 0xf, 0, 255, 0⟩,
  ⟨0x01, 1, 1, 1, 0, 0, 1, 0⟩,
  ⟨0x02, 10, 32, 1, 0, 0, 115792089237316195423570985008687907853269984665640564039457584007913129639935, 0⟩,
  ⟨0x03, 10, 16, 1, 0, 0, 340282366920938463463374607431768211455, 0⟩,
  ⟨0x04, 10, 16, 1, 0, 0, 340282366920938463463374607431768211455, 0⟩,
  ⟨0x05, 6, 2, 1, 0xb9f1, 1024, 65535, 0⟩,
  ⟨0x06, 1, 1, 1, 0, 0, 1, 0⟩,
  ⟨0x07, 6, 2, 1, 0x32, 20, 1000, 0⟩,
  ⟨0x08, 7, 4, 1, 0x7d0, 500, 100000, 0⟩,
  ⟨0x09, 7, 4, 1, 0x1f4, 100, 100000, 0⟩,
  ⟨0x0A, 6, 2, 1, 0x40, 1, 4096, 0⟩,
  ⟨0x0B, 7, 4, 1, 0x32, 1, 10000, 0⟩,
  ⟨0x0C, 6, 2, 1, 0x1f4, 0, 1000, 0⟩,
  ⟨0x0D, 7, 4, 1, 0xf42, 100, 100000, 0⟩,
  ⟨0x0E, 6, 2, 1, 2, 1, 4095, 0⟩,
  ⟨0x0F, 5, 1, 1, 4, 2, 16, 0⟩]

/-- Object 0x2201: Twin State, Partner Serial, Twin Ports Usable, Port Asymmetry, Heartbeats Missed, Link Down Events, Takeovers, Self Fences, Streams Mirrored, Streams Unprotected, Checkpoints Sent, Checkpoints Refused, Adoption Backlog, Cross-checks Passed, Cross-check Mismatches, Cross-checks Unmatched, Last Takeover Time, Miscabled Ports, Formation Failures, Control Frames Discarded, Witness Denials. -/
def od2201 : List OdRow := [
  ⟨0x00, 5, 1, 0, 0x15, 0, 255, 0⟩,
  ⟨0x01, 5, 1, 0, 0, 0, 255, 0⟩,
  ⟨0x02, 10, 12, 0, 0, 0, 79228162514264337593543950335, 0⟩,
  ⟨0x03, 5, 1, 3, 0, 0, 255, 0⟩,
  ⟨0x04, 10, 16, 0, 0, 0, 340282366920938463463374607431768211455, 0⟩,
  ⟨0x05, 27, 8, 0, 0, 0, 18446744073709551615, 0⟩,
  ⟨0x06, 27, 8, 0, 0, 0, 18446744073709551615, 0⟩,
  ⟨0x07, 27, 8, 0, 0, 0, 18446744073709551615, 0⟩,
  ⟨0x08, 27, 8, 0, 0, 0, 18446744073709551615, 0⟩,
  ⟨0x09, 7, 4, 3, 0, 0, 4294967295, 0⟩,
  ⟨0x0A, 7, 4, 3, 0, 0, 4294967295, 0⟩,
  ⟨0x0B, 27, 8, 0, 0, 0, 18446744073709551615, 0⟩,
  ⟨0x0C, 27, 8, 0, 0, 0, 18446744073709551615, 0⟩,
  ⟨0x0D, 7, 4, 3, 0, 0, 4294967295, 0⟩,
  ⟨0x0E, 27, 8, 0, 0, 0, 18446744073709551615, 0⟩,
  ⟨0x0F, 27, 8, 0, 0, 0, 18446744073709551615, 0⟩,
  ⟨0x10, 27, 8, 0, 0, 0, 18446744073709551615, 0⟩,
  ⟨0x11, 10, 12, 0, 0, 0, 79228162514264337593543950335, 0⟩,
  ⟨0x12, 5, 1, 0, 0, 0, 255, 0⟩,
  ⟨0x13, 27, 8, 0, 0, 0, 18446744073709551615, 0⟩,
  ⟨0x14, 27, 8, 0, 0, 0, 18446744073709551615, 0⟩,
  ⟨0x15, 27, 8, 0, 0, 0, 18446744073709551615, 0⟩]

/-- Object 0x2202: Twin Command, Heartbeat Counter, Partner Status. -/
def od2202 : List OdRow := [
  ⟨0x00, 5, 1, 0, 3, 0, 255, 0⟩,
  ⟨0x01, 5, 1, 2, 0, 0, 255, 0⟩,
  ⟨0x02, 7, 4, 0, 0, 0, 4294967295, 0⟩,
  ⟨0x03, 7, 4, 1, 0, 0, 4294967295, 0⟩]

/-- Object 0x2300: Device MAC Base, Device IPv6 Address, Device IPv4 Address, Route Table, ECMP Groups, DSCP Map, Lossless TC Map, ECN TC Map, DWRR Weights, Max Frame, Dynamic Threshold, ECN Kmin, ECN Kmax, ECN Pmax, PFC Watchdog, CNP Interval, Rate Recovery Timer, Additive Increase, Minimum QP Rate, Flap Hold, Degrade Threshold, Port Command, Buffer Reserved, Buffer In Use, Buffer Peak, No Route Drops, Reroutes, He. -/
def od2300 : List OdRow := [
  ⟨0x00, 5, 1, 0, 0x20, 0, 255, 0⟩,
  ⟨0x01, 10, 6, 0, 0, 0, 281474976710655, 0⟩,
  ⟨0x02, 10, 16, 1, 0, 0, 340282366920938463463374607431768211455, 0⟩,
  ⟨0x03, 7, 4, 1, 0, 0, 4294967295, 0⟩,
  ⟨0x04, 15, 0, 1, 0, 0, 0, 0⟩,
  ⟨0x05, 15, 0, 1, 0, 0, 0, 0⟩,
  ⟨0x06, 10, 64, 1, 0x6000600000000000000000000000000000000000000030000000000000000000000000000000000000000000000000000, 0, 13407807929942597099574024998205846127479365820592393377723561443721764030073546976801874298166903427690031858186486050853753882811946569946433649006084095, 0⟩,
  ⟨0x07, 5, 1, 1, 8, 0, 63, 0⟩,
  ⟨0x08, 5, 1, 1, 8, 0, 255, 0⟩,
  ⟨0x09, 10, 6, 1, 0x10104010101, 0, 281474976710655, 0⟩,
  ⟨0x0A, 6, 2, 1, 0x2400, 1518, 9216, 0⟩,
  ⟨0x0B, 5, 1, 1, 0x10, 1, 64, 0⟩,
  ⟨0x0C, 7, 4, 1, 0x80, 1, 65535, 0⟩,
  ⟨0x0D, 7, 4, 1, 0x400, 2, 65536, 0⟩,
  ⟨0x0E, 6, 2, 1, 0xc8, 1, 1000, 0⟩,
  ⟨0x0F, 6, 2, 1, 0x64, 10, 10000, 0⟩,
  ⟨0x10, 6, 2, 1, 0x32, 1, 1000, 0⟩,
  ⟨0x11, 6, 2, 1, 0x37, 10, 10000, 0⟩,
  ⟨0x12, 7, 4, 1, 0x1388, 10, 100000, 0⟩,
  ⟨0x13, 7, 4, 1, 0x64, 10, 10000, 0⟩,
  ⟨0x14, 7, 4, 1, 0x64, 0, 60000, 0⟩,
  ⟨0x15, 6, 2, 1, 0xc8, 1, 2000, 0⟩,
  ⟨0x16, 7, 4, 2, 0, 0, 4294967295, 0⟩,
  ⟨0x17, 7, 4, 0, 0, 0, 4294967295, 0⟩,
  ⟨0x18, 7, 4, 3, 0, 0, 4294967295, 0⟩,
  ⟨0x19, 7, 4, 4, 0, 0, 4294967295, 0⟩,
  ⟨0x1A, 27, 8, 0, 0, 0, 18446744073709551615, 0⟩,
  ⟨0x1B, 27, 8, 0, 0, 0, 18446744073709551615, 0⟩,
  ⟨0x1C, 27, 8, 0, 0, 0, 18446744073709551615, 0⟩,
  ⟨0x1D, 7, 4, 3, 0, 0, 4294967295, 0⟩,
  ⟨0x1E, 27, 8, 0, 0, 0, 18446744073709551615, 0⟩,
  ⟨0x1F, 27, 8, 0, 0, 0, 18446744073709551615, 0⟩,
  ⟨0x20, 27, 8, 0, 0, 0, 18446744073709551615, 0⟩]

/-- Object 0x2400 and its like: Port State, Speed Setting, Speed In Use, Cable Length, PFC Headroom, Rx Power, Tx Power, Pre-FEC BER, FEC Corrected Codewords, FEC Uncorrectable Codewords, LOS Events, Training Failures, Neighbour MAC, Frames Received, Frames Sent, Bytes Received, Bytes Sent, Drops, Receive Errors, PFC Pauses Sent, PFC Pauses Received, ECN Marked, Watchdog Trips, Up Time. -/
def od2400 : List OdRow := [
  ⟨0x00, 5, 1, 0, 0x18, 0, 255, 0⟩,
  ⟨0x01, 5, 1, 0, 0, 0, 255, 0⟩,
  ⟨0x02, 5, 1, 1, 0, 0, 2, 0⟩,
  ⟨0x03, 5, 1, 0, 0, 0, 255, 0⟩,
  ⟨0x04, 6, 2, 1, 0x64, 1, 2000, 0⟩,
  ⟨0x05, 7, 4, 0, 0x3a360, 0, 4294967295, 0⟩,
  ⟨0x06, 10, 8, 3, 0, 0, 18446744073709551615, 0⟩,
  ⟨0x07, 10, 8, 3, 0, 0, 18446744073709551615, 0⟩,
  ⟨0x08, 7, 4, 3, 0, 0, 4294967295, 0⟩,
  ⟨0x09, 27, 8, 0, 0, 0, 18446744073709551615, 0⟩,
  ⟨0x0A, 27, 8, 0, 0, 0, 18446744073709551615, 0⟩,
  ⟨0x0B, 27, 8, 0, 0, 0, 18446744073709551615, 0⟩,
  ⟨0x0C, 27, 8, 0, 0, 0, 18446744073709551615, 0⟩,
  ⟨0x0D, 10, 6, 0, 0, 0, 281474976710655, 0⟩,
  ⟨0x0E, 27, 8, 0, 0, 0, 18446744073709551615, 0⟩,
  ⟨0x0F, 27, 8, 0, 0, 0, 18446744073709551615, 0⟩,
  ⟨0x10, 27, 8, 0, 0, 0, 18446744073709551615, 0⟩,
  ⟨0x11, 27, 8, 0, 0, 0, 18446744073709551615, 0⟩,
  ⟨0x12, 27, 8, 0, 0, 0, 18446744073709551615, 0⟩,
  ⟨0x13, 27, 8, 0, 0, 0, 18446744073709551615, 0⟩,
  ⟨0x14, 27, 8, 0, 0, 0, 18446744073709551615, 0⟩,
  ⟨0x15, 27, 8, 0, 0, 0, 18446744073709551615, 0⟩,
  ⟨0x16, 27, 8, 0, 0, 0, 18446744073709551615, 0⟩,
  ⟨0x17, 7, 4, 0, 0, 0, 4294967295, 0⟩,
  ⟨0x18, 7, 4, 3, 0, 0, 4294967295, 0⟩]

/-- Object 0x2500 and its like: Port State, Link Speed, Link Width, Vendor ID, Device ID, HBM Aperture Base, HBM Aperture Size, Interrupt Moderation, Completions Waiting, Requests Served, Doorbell Errors, Resets, Surprise Downs, Write Shadow Discards, AER Correctable, AER Uncorrectable. -/
def od2500 : List OdRow := [
  ⟨0x00, 5, 1, 0, 0x10, 0, 255, 0⟩,
  ⟨0x01, 5, 1, 0, 0, 0, 255, 0⟩,
  ⟨0x02, 5, 1, 0, 0, 0, 255, 0⟩,
  ⟨0x03, 5, 1, 0, 0, 0, 255, 0⟩,
  ⟨0x04, 6, 2, 0, 0, 0, 65535, 0⟩,
  ⟨0x05, 6, 2, 0, 0, 0, 65535, 0⟩,
  ⟨0x06, 27, 8, 1, 0, 0, 18446744073709551615, 0⟩,
  ⟨0x07, 6, 2, 0, 0x200, 0, 65535, 0⟩,
  ⟨0x08, 6, 2, 1, 0xa, 0, 1000, 0⟩,
  ⟨0x09, 7, 4, 3, 0, 0, 4294967295, 0⟩,
  ⟨0x0A, 27, 8, 0, 0, 0, 18446744073709551615, 0⟩,
  ⟨0x0B, 27, 8, 0, 0, 0, 18446744073709551615, 0⟩,
  ⟨0x0C, 27, 8, 0, 0, 0, 18446744073709551615, 0⟩,
  ⟨0x0D, 27, 8, 0, 0, 0, 18446744073709551615, 0⟩,
  ⟨0x0E, 27, 8, 0, 0, 0, 18446744073709551615, 0⟩,
  ⟨0x0F, 27, 8, 0, 0, 0, 18446744073709551615, 0⟩,
  ⟨0x10, 27, 8, 0, 0, 0, 18446744073709551615, 0⟩]

/-- Object 0x3000: Access Violations, Last Violation Master, Last Violation Address, Access Table Hash, Unknown Fabric Sources. -/
def od3000 : List OdRow := [
  ⟨0x00, 5, 1, 0, 5, 0, 255, 0⟩,
  ⟨0x01, 27, 8, 0, 0, 0, 18446744073709551615, 0⟩,
  ⟨0x02, 6, 2, 0, 0xffff, 0, 65535, 0⟩,
  ⟨0x03, 27, 8, 0, 0, 0, 18446744073709551615, 0⟩,
  ⟨0x04, 10, 32, 0, 0, 0, 115792089237316195423570985008687907853269984665640564039457584007913129639935, 0⟩,
  ⟨0x05, 27, 8, 0, 0, 0, 18446744073709551615, 0⟩]

/-- Object 0x3100: Booted Slot, Slot A State, Slot B State, Slot A Version, Slot B Version, Security Version Counter, Next Boot Slot, Trial Confirm, Trial Timeout, Commit Security Version, Boot Failures, Microcode Update Core. -/
def od3100 : List OdRow := [
  ⟨0x00, 5, 1, 0, 0xc, 0, 255, 0⟩,
  ⟨0x01, 5, 1, 0, 0, 0, 255, 0⟩,
  ⟨0x02, 5, 1, 0, 0, 0, 255, 0⟩,
  ⟨0x03, 5, 1, 0, 0, 0, 255, 0⟩,
  ⟨0x04, 7, 4, 0, 0, 0, 4294967295, 0⟩,
  ⟨0x05, 7, 4, 0, 0, 0, 4294967295, 0⟩,
  ⟨0x06, 5, 1, 0, 0, 0, 255, 0⟩,
  ⟨0x07, 5, 1, 1, 0, 0, 1, 1⟩,
  ⟨0x08, 5, 1, 2, 0, 0, 255, 0⟩,
  ⟨0x09, 6, 2, 1, 0x258, 60, 3600, 1⟩,
  ⟨0x0A, 5, 1, 2, 0, 0, 255, 0⟩,
  ⟨0x0B, 7, 4, 0, 0, 0, 4294967295, 0⟩,
  ⟨0x0C, 5, 1, 2, 0, 0, 255, 0⟩]

/-- Object 0x3110: Identity Public Key, Identity Certificate, Leaf Index, Signature Interval. -/
def od3110 : List OdRow := [
  ⟨0x00, 5, 1, 0, 4, 0, 255, 0⟩,
  ⟨0x01, 15, 0, 0, 0, 0, 0, 0⟩,
  ⟨0x02, 15, 0, 0, 0, 0, 0, 0⟩,
  ⟨0x03, 7, 4, 0, 0, 0, 4294967295, 0⟩,
  ⟨0x04, 7, 4, 1, 0x258, 1, 86400, 1⟩]

/-- Object 0x3111: Attestation Nonce, Attestation Report, Attestation Status. -/
def od3111 : List OdRow := [
  ⟨0x00, 5, 1, 0, 3, 0, 255, 0⟩,
  ⟨0x01, 15, 0, 2, 0, 0, 0, 0⟩,
  ⟨0x02, 15, 0, 0, 0, 0, 0, 0⟩,
  ⟨0x03, 7, 4, 0, 0, 0, 4294967295, 0⟩]

/-- Object 0x3120: Commissioning Lock, Lock Time. -/
def od3120 : List OdRow := [
  ⟨0x00, 5, 1, 0, 2, 0, 255, 0⟩,
  ⟨0x01, 1, 1, 1, 0, 0, 1, 0⟩,
  ⟨0x02, 27, 8, 0, 0, 0, 18446744073709551615, 0⟩]

/-- Object 0x4000: Power Cap, Input Power, Input Power Peak, Governor Levers, Cap Unmet Time. -/
def od4000 : List OdRow := [
  ⟨0x00, 5, 1, 0, 5, 0, 255, 0⟩,
  ⟨0x01, 6, 2, 1, 0x708, 900, 1800, 0⟩,
  ⟨0x02, 6, 2, 3, 0, 0, 65535, 0⟩,
  ⟨0x03, 6, 2, 4, 0, 0, 65535, 0⟩,
  ⟨0x04, 5, 1, 3, 0, 0, 255, 0⟩,
  ⟨0x05, 27, 8, 0, 0, 0, 18446744073709551615, 0⟩]

/-- Object 0x4001: Feed A Voltage, Feed B Voltage, Feed A Current, Feed B Current, Feed States, Feed Losses. -/
def od4001 : List OdRow := [
  ⟨0x00, 5, 1, 0, 6, 0, 255, 0⟩,
  ⟨0x01, 4, 4, 3, 0, (-2147483648), 2147483647, 0⟩,
  ⟨0x02, 4, 4, 3, 0, (-2147483648), 2147483647, 0⟩,
  ⟨0x03, 7, 4, 3, 0, 0, 4294967295, 0⟩,
  ⟨0x04, 7, 4, 3, 0, 0, 4294967295, 0⟩,
  ⟨0x05, 5, 1, 3, 0, 0, 255, 0⟩,
  ⟨0x06, 27, 8, 0, 0, 0, 18446744073709551615, 0⟩]

/-- Object 0x4002: Pace Target, Voltage Step Interval, Pail Size. -/
def od4002 : List OdRow := [
  ⟨0x00, 5, 1, 0, 3, 0, 255, 0⟩,
  ⟨0x01, 6, 2, 1, 0x3e8, 600, 1000, 0⟩,
  ⟨0x02, 6, 2, 1, 0x64, 50, 1000, 0⟩,
  ⟨0x03, 6, 2, 1, 0x20, 4, 256, 0⟩]

/-- Object 0x4003: Recalibration Period, Store Scrub Period, HBM Scrub Period, Calibration Gap Enable, Telemetry Interval, Engine Retire Limit, Stack Retire Limit. -/
def od4003 : List OdRow := [
  ⟨0x00, 5, 1, 0, 7, 0, 255, 0⟩,
  ⟨0x01, 6, 2, 1, 0x3c, 10, 3600, 0⟩,
  ⟨0x02, 7, 4, 1, 0x258, 60, 86400, 0⟩,
  ⟨0x03, 7, 4, 1, 0x15180, 3600, 604800, 0⟩,
  ⟨0x04, 1, 1, 1, 1, 0, 1, 0⟩,
  ⟨0x05, 6, 2, 1, 0x3e8, 100, 60000, 0⟩,
  ⟨0x06, 5, 1, 1, 3, 1, 16, 0⟩,
  ⟨0x07, 6, 2, 1, 8, 1, 1000, 0⟩]

/-- Object 0x4004: Repair Command, Repair In Progress, Repairs Completed, Repairs Failed, Stand-in Slots. -/
def od4004 : List OdRow := [
  ⟨0x00, 5, 1, 0, 5, 0, 255, 0⟩,
  ⟨0x01, 10, 8, 2, 0, 0, 18446744073709551615, 0⟩,
  ⟨0x02, 7, 4, 3, 0, 0, 4294967295, 0⟩,
  ⟨0x03, 27, 8, 0, 0, 0, 18446744073709551615, 0⟩,
  ⟨0x04, 27, 8, 0, 0, 0, 18446744073709551615, 0⟩,
  ⟨0x05, 10, 64, 3, 0, 0, 13407807929942597099574024998205846127479365820592393377723561443721764030073546976801874298166903427690031858186486050853753882811946569946433649006084095, 0⟩]

/-- Object 0x4005: Stagger Enable, Stagger Lanes, Stagger Limit, Pause Trigger, Stagger Step In Force. -/
def od4005 : List OdRow := [
  ⟨0x00, 5, 1, 0, 5, 0, 255, 0⟩,
  ⟨0x01, 1, 1, 1, 1, 0, 1, 0⟩,
  ⟨0x02, 5, 1, 1, 8, 1, 64, 0⟩,
  ⟨0x03, 6, 2, 1, 0x14, 1, 1000, 0⟩,
  ⟨0x04, 6, 2, 1, 0x32, 2, 1000, 0⟩,
  ⟨0x05, 6, 2, 3, 0, 0, 65535, 0⟩]

/-- Object 0x4006: Rotating Threshold, Placement Policy Enable, Placement Hold. -/
def od4006 : List OdRow := [
  ⟨0x00, 5, 1, 0, 3, 0, 255, 0⟩,
  ⟨0x01, 7, 4, 1, 0x61a80, 1, 16777216, 0⟩,
  ⟨0x02, 1, 1, 1, 1, 0, 1, 0⟩,
  ⟨0x03, 6, 2, 1, 0x10, 1, 1024, 0⟩]

/-- Object 0x4007: Weak Cell Limit, Drift Refresh Period, Refresh Chunk Spacing, Wear Rotation Margin, Wear Warning, Drift Rewrite Threshold. -/
def od4007 : List OdRow := [
  ⟨0x00, 5, 1, 0, 6, 0, 255, 0⟩,
  ⟨0x01, 5, 1, 1, 2, 0, 32, 0⟩,
  ⟨0x02, 7, 4, 1, 0x258, 60, 86400, 0⟩,
  ⟨0x03, 7, 4, 1, 0x3e8, 100, 100000, 0⟩,
  ⟨0x04, 7, 4, 1, 0x100000, 0, 4294967295, 0⟩,
  ⟨0x05, 5, 1, 1, 0x5a, 50, 100, 0⟩,
  ⟨0x06, 5, 1, 1, 8, 4, 32, 0⟩]

/-- Object 0x4008: Split Rate Upper, Split Rate Lower, Evaluation Windows, Raise Intervals, Initial k, Policy Enable. -/
def od4008 : List OdRow := [
  ⟨0x00, 5, 1, 0, 6, 0, 255, 0⟩,
  ⟨0x01, 7, 4, 1, 0x3e8, 1, 100000, 0⟩,
  ⟨0x02, 7, 4, 1, 0xa, 0, 99999, 0⟩,
  ⟨0x03, 7, 4, 1, 0x100000, 65536, 268435456, 0⟩,
  ⟨0x04, 5, 1, 1, 4, 1, 64, 0⟩,
  ⟨0x05, 5, 1, 1, 2, 0, 3, 0⟩,
  ⟨0x06, 1, 1, 1, 1, 0, 1, 0⟩]

/-- Object 0x4009: Confidence Threshold, Repeat Budget, Budget Interval. -/
def od4009 : List OdRow := [
  ⟨0x00, 5, 1, 0, 3, 0, 255, 0⟩,
  ⟨0x01, 6, 2, 1, 0x10, 4, 64, 0⟩,
  ⟨0x02, 6, 2, 1, 0x32, 0, 500, 0⟩,
  ⟨0x03, 7, 4, 1, 0x3e8, 100, 100000, 0⟩]

/-- Object 0x400A: Auto Start, Warming Limit, Shutdown Handover Limit, Last Reset Cause, Last Bring-up Time, Last Power-down. -/
def od400A : List OdRow := [
  ⟨0x00, 5, 1, 0, 6, 0, 255, 0⟩,
  ⟨0x01, 1, 1, 1, 0, 0, 1, 1⟩,
  ⟨0x02, 6, 2, 1, 0x2710, 1000, 60000, 0⟩,
  ⟨0x03, 6, 2, 1, 0x1f4, 10, 10000, 0⟩,
  ⟨0x04, 5, 1, 0, 0, 0, 255, 0⟩,
  ⟨0x05, 7, 4, 0, 0, 0, 4294967295, 0⟩,
  ⟨0x06, 5, 1, 0, 0, 0, 255, 1⟩]

/-- Object 0x4010: Admission Enable, HBM Slow Threshold, HBM Stop Threshold, Admissions Per Step When Slowed, Frame Reserve, Queue Limit, HBM Measure Interval. -/
def od4010 : List OdRow := [
  ⟨0x00, 5, 1, 0, 7, 0, 255, 0⟩,
  ⟨0x01, 1, 1, 1, 1, 0, 1, 0⟩,
  ⟨0x02, 6, 2, 1, 0x352, 100, 999, 0⟩,
  ⟨0x03, 6, 2, 1, 0x3b6, 101, 1000, 0⟩,
  ⟨0x04, 6, 2, 1, 4, 1, 1024, 0⟩,
  ⟨0x05, 6, 2, 1, 0x14, 0, 500, 0⟩,
  ⟨0x06, 7, 4, 1, 0x4000, 1, 65536, 0⟩,
  ⟨0x07, 7, 4, 1, 0x3e8, 100, 100000, 0⟩]

/-- Object 0x4011: Batch Streams, Prefill Chunk, Step Vectors Target, Gather Limit. -/
def od4011 : List OdRow := [
  ⟨0x00, 5, 1, 0, 4, 0, 255, 0⟩,
  ⟨0x01, 7, 4, 1, 0x1000, 1, 65536, 0⟩,
  ⟨0x02, 7, 4, 1, 0x800, 1, 65536, 0⟩,
  ⟨0x03, 7, 4, 1, 0x800, 1, 65536, 0⟩,
  ⟨0x04, 7, 4, 1, 0xc8, 0, 100000, 0⟩]

/-- Object 0x4012: Job State 0 to 7, Job State 0 to 7, Job State 0 to 7, Job State 0 to 7, Job State 0 to 7, Job State 0 to 7, Job State 0 to 7, Job State 0 to 7, Preemption Limit, Running Job, Job Switches, Streams In Use, Streams Queued, KV Frames Free. -/
def od4012 : List OdRow := [
  ⟨0x00, 5, 1, 0, 0xe, 0, 255, 0⟩,
  ⟨0x01, 5, 1, 0, 0, 0, 255, 0⟩,
  ⟨0x02, 5, 1, 0, 0, 0, 255, 0⟩,
  ⟨0x03, 5, 1, 0, 0, 0, 255, 0⟩,
  ⟨0x04, 5, 1, 0, 0, 0, 255, 0⟩,
  ⟨0x05, 5, 1, 0, 0, 0, 255, 0⟩,
  ⟨0x06, 5, 1, 0, 0, 0, 255, 0⟩,
  ⟨0x07, 5, 1, 0, 0, 0, 255, 0⟩,
  ⟨0x08, 5, 1, 0, 0, 0, 255, 0⟩,
  ⟨0x09, 7, 4, 1, 0x7d0, 100, 1000000, 0⟩,
  ⟨0x0A, 5, 1, 0, 0xff, 0, 255, 0⟩,
  ⟨0x0B, 27, 8, 0, 0, 0, 18446744073709551615, 0⟩,
  ⟨0x0C, 7, 4, 3, 0, 0, 4294967295, 0⟩,
  ⟨0x0D, 7, 4, 3, 0, 0, 4294967295, 0⟩,
  ⟨0x0E, 7, 4, 3, 0, 0, 4294967295, 0⟩]

/-- Object 0x4013: HBM Pool In Use, HBM Pool Peak, Fabric Pool In Use, Fabric Pool Peak, Host Pool In Use, Host Pool Peak, Pool Wait Time. -/
def od4013 : List OdRow := [
  ⟨0x00, 5, 1, 0, 7, 0, 255, 0⟩,
  ⟨0x01, 6, 2, 3, 0, 0, 65535, 0⟩,
  ⟨0x02, 6, 2, 4, 0, 0, 65535, 0⟩,
  ⟨0x03, 6, 2, 3, 0, 0, 65535, 0⟩,
  ⟨0x04, 6, 2, 4, 0, 0, 65535, 0⟩,
  ⟨0x05, 6, 2, 3, 0, 0, 65535, 0⟩,
  ⟨0x06, 6, 2, 4, 0, 0, 65535, 0⟩,
  ⟨0x07, 27, 8, 0, 0, 0, 18446744073709551615, 0⟩]

/-- Object 0x5000 and its like: Core State, Drain State, Skim State, Tensor State, Vector State, Operations In Flight, Operations Peak, Instructions Decoded, Tracking Full Time, Store Corrected Errors, Store Uncorrectable Errors, Near-Array Recovery Drains, Engine Slot Map, Last Fault Status, Last Fault Address, Instructions Failed, Signal Counter 1 to 15, Signal Counter 1 to 15, Signal Counter 1 to 15, Signal Counter 1 to 15, S. -/
def od5000 : List OdRow := [
  ⟨0x00, 5, 1, 0, 0x58, 0, 255, 0⟩,
  ⟨0x01, 5, 1, 0, 0, 0, 255, 0⟩,
  ⟨0x02, 5, 1, 0, 0, 0, 255, 0⟩,
  ⟨0x03, 5, 1, 0, 0, 0, 255, 0⟩,
  ⟨0x04, 5, 1, 0, 0, 0, 255, 0⟩,
  ⟨0x05, 5, 1, 0, 0, 0, 255, 0⟩,
  ⟨0x06, 6, 2, 3, 0, 0, 65535, 0⟩,
  ⟨0x07, 6, 2, 4, 0, 0, 65535, 0⟩,
  ⟨0x08, 27, 8, 0, 0, 0, 18446744073709551615, 0⟩,
  ⟨0x09, 27, 8, 0, 0, 0, 18446744073709551615, 0⟩,
  ⟨0x0A, 27, 8, 0, 0, 0, 18446744073709551615, 0⟩,
  ⟨0x0B, 7, 4, 0, 0, 0, 4294967295, 0⟩,
  ⟨0x0C, 27, 8, 0, 0, 0, 18446744073709551615, 0⟩,
  ⟨0x0D, 15, 0, 0, 0, 0, 0, 0⟩,
  ⟨0x0E, 5, 1, 0, 0, 0, 255, 0⟩,
  ⟨0x0F, 27, 8, 0, 0, 0, 18446744073709551615, 0⟩,
  ⟨0x10, 27, 8, 0, 0, 0, 18446744073709551615, 0⟩,
  ⟨0x11, 7, 4, 3, 0, 0, 4294967295, 0⟩,
  ⟨0x12, 7, 4, 3, 0, 0, 4294967295, 0⟩,
  ⟨0x13, 7, 4, 3, 0, 0, 4294967295, 0⟩,
  ⟨0x14, 7, 4, 3, 0, 0, 4294967295, 0⟩,
  ⟨0x15, 7, 4, 3, 0, 0, 4294967295, 0⟩,
  ⟨0x16, 7, 4, 3, 0, 0, 4294967295, 0⟩,
  ⟨0x17, 7, 4, 3, 0, 0, 4294967295, 0⟩,
  ⟨0x18, 7, 4, 3, 0, 0, 4294967295, 0⟩,
  ⟨0x19, 7, 4, 3, 0, 0, 4294967295, 0⟩,
  ⟨0x1A, 7, 4, 3, 0, 0, 4294967295, 0⟩,
  ⟨0x1B, 7, 4, 3, 0, 0, 4294967295, 0⟩,
  ⟨0x1C, 7, 4, 3, 0, 0, 4294967295, 0⟩,
  ⟨0x1D, 7, 4, 3, 0, 0, 4294967295, 0⟩,
  ⟨0x1E, 7, 4, 3, 0, 0, 4294967295, 0⟩,
  ⟨0x1F, 7, 4, 3, 0, 0, 4294967295, 0⟩,
  ⟨0x20, 5, 1, 0, 0, 0, 255, 0⟩,
  ⟨0x21, 7, 4, 0, 0, 0, 4294967295, 0⟩,
  ⟨0x22, 3, 2, 0, 0, (-32768), 32767, 0⟩,
  ⟨0x23, 6, 2, 1, 0x64, 10, 1000, 0⟩,
  ⟨0x24, 6, 2, 0, 0x7d, 0, 65535, 0⟩,
  ⟨0x25, 6, 2, 0, 0x50, 0, 65535, 0⟩,
  ⟨0x26, 6, 2, 0, 0x4b, 0, 65535, 0⟩,
  ⟨0x27, 5, 1, 0, 0, 0, 255, 0⟩,
  ⟨0x28, 6, 2, 1, 0xb4, 70, 3600, 0⟩,
  ⟨0x30, 27, 8, 0, 0, 0, 18446744073709551615, 0⟩,
  ⟨0x31, 27, 8, 0, 0, 0, 18446744073709551615, 0⟩,
  ⟨0x32, 27, 8, 0, 0, 0, 18446744073709551615, 0⟩,
  ⟨0x33, 27, 8, 0, 0, 0, 18446744073709551615, 0⟩,
  ⟨0x34, 27, 8, 0, 0, 0, 18446744073709551615, 0⟩,
  ⟨0x35, 27, 8, 0, 0, 0, 18446744073709551615, 0⟩,
  ⟨0x36, 27, 8, 0, 0, 0, 18446744073709551615, 0⟩,
  ⟨0x37, 27, 8, 0, 0, 0, 18446744073709551615, 0⟩,
  ⟨0x38, 27, 8, 0, 0, 0, 18446744073709551615, 0⟩,
  ⟨0x39, 27, 8, 0, 0, 0, 18446744073709551615, 0⟩,
  ⟨0x40, 27, 8, 0, 0, 0, 18446744073709551615, 0⟩,
  ⟨0x41, 27, 8, 0, 0, 0, 18446744073709551615, 0⟩,
  ⟨0x42, 27, 8, 0, 0, 0, 18446744073709551615, 0⟩,
  ⟨0x43, 27, 8, 0, 0, 0, 18446744073709551615, 0⟩,
  ⟨0x44, 27, 8, 0, 0, 0, 18446744073709551615, 0⟩,
  ⟨0x45, 27, 8, 0, 0, 0, 18446744073709551615, 0⟩,
  ⟨0x46, 27, 8, 3, 0, 0, 18446744073709551615, 0⟩,
  ⟨0x47, 7, 4, 0, 0, 0, 4294967295, 0⟩,
  ⟨0x50, 6, 2, 3, 0, 0, 65535, 0⟩,
  ⟨0x51, 6, 2, 3, 0, 0, 65535, 0⟩,
  ⟨0x52, 6, 2, 3, 0x3e8, 0, 65535, 0⟩,
  ⟨0x53, 27, 8, 0, 0, 0, 18446744073709551615, 0⟩,
  ⟨0x54, 6, 2, 3, 0, 0, 65535, 0⟩,
  ⟨0x55, 27, 8, 0, 0, 0, 18446744073709551615, 0⟩,
  ⟨0x56, 7, 4, 3, 0, 0, 4294967295, 0⟩,
  ⟨0x57, 27, 8, 0, 0, 0, 18446744073709551615, 0⟩,
  ⟨0x58, 27, 8, 0, 0, 0, 18446744073709551615, 0⟩]

/-- Object 0x5100 and its like: Highest Sub-index, Engine State, Windows Issued, Windows All-Dark, Windows At Step 0, Windows At Step 1, Windows At Step 2, Windows At Step 3, Alignment Clamps, Negative Clamps, Expansion Saturations, Expansion Underflows, Windows Discarded, Starved Slots, Last Window Exponent, Row Interleave Multiplier, Saturation Events, Split Halves, Rescue Windows, Confidence Repeats, Low-Confidence Windows, R. -/
def od5100 : List OdRow := [
  ⟨0x00, 5, 1, 0, 0x36, 0, 255, 0⟩,
  ⟨0x01, 5, 1, 0, 0, 0, 255, 0⟩,
  ⟨0x02, 27, 8, 0, 0, 0, 18446744073709551615, 0⟩,
  ⟨0x03, 27, 8, 0, 0, 0, 18446744073709551615, 0⟩,
  ⟨0x04, 27, 8, 0, 0, 0, 18446744073709551615, 0⟩,
  ⟨0x05, 27, 8, 0, 0, 0, 18446744073709551615, 0⟩,
  ⟨0x06, 27, 8, 0, 0, 0, 18446744073709551615, 0⟩,
  ⟨0x07, 27, 8, 0, 0, 0, 18446744073709551615, 0⟩,
  ⟨0x08, 27, 8, 0, 0, 0, 18446744073709551615, 0⟩,
  ⟨0x09, 27, 8, 0, 0, 0, 18446744073709551615, 0⟩,
  ⟨0x0A, 27, 8, 0, 0, 0, 18446744073709551615, 0⟩,
  ⟨0x0B, 27, 8, 0, 0, 0, 18446744073709551615, 0⟩,
  ⟨0x0C, 27, 8, 0, 0, 0, 18446744073709551615, 0⟩,
  ⟨0x0D, 27, 8, 0, 0, 0, 18446744073709551615, 0⟩,
  ⟨0x0E, 3, 2, 0, 0, (-32768), 32767, 0⟩,
  ⟨0x0F, 5, 1, 0, 5, 0, 255, 0⟩,
  ⟨0x10, 27, 8, 0, 0, 0, 18446744073709551615, 0⟩,
  ⟨0x11, 27, 8, 0, 0, 0, 18446744073709551615, 0⟩,
  ⟨0x12, 27, 8, 0, 0, 0, 18446744073709551615, 0⟩,
  ⟨0x13, 27, 8, 0, 0, 0, 18446744073709551615, 0⟩,
  ⟨0x14, 27, 8, 0, 0, 0, 18446744073709551615, 0⟩,
  ⟨0x15, 27, 8, 0, 0, 0, 18446744073709551615, 0⟩,
  ⟨0x16, 27, 8, 0, 0, 0, 18446744073709551615, 0⟩,
  ⟨0x17, 27, 8, 0, 0, 0, 18446744073709551615, 0⟩,
  ⟨0x18, 5, 1, 0, 4, 0, 255, 0⟩,
  ⟨0x19, 5, 1, 0, 0, 0, 255, 0⟩,
  ⟨0x1A, 7, 4, 3, 0, 0, 4294967295, 0⟩,
  ⟨0x1B, 15, 0, 0, 0, 0, 0, 0⟩,
  ⟨0x1C, 15, 0, 0, 0, 0, 0, 0⟩,
  ⟨0x1D, 6, 2, 4, 0, 0, 65535, 0⟩,
  ⟨0x1E, 27, 8, 0, 0, 0, 18446744073709551615, 0⟩,
  ⟨0x1F, 7, 4, 0, 0, 0, 4294967295, 0⟩,
  ⟨0x20, 5, 1, 0, 0, 0, 255, 0⟩,
  ⟨0x21, 5, 1, 0, 0, 0, 255, 0⟩,
  ⟨0x22, 5, 1, 0, 0, 0, 255, 0⟩,
  ⟨0x23, 27, 8, 0, 0, 0, 18446744073709551615, 0⟩,
  ⟨0x24, 27, 8, 0, 0, 0, 18446744073709551615, 0⟩,
  ⟨0x25, 15, 0, 0, 0, 0, 0, 0⟩,
  ⟨0x26, 15, 0, 0, 0, 0, 0, 0⟩,
  ⟨0x27, 7, 4, 0, 0, 0, 4294967295, 0⟩,
  ⟨0x28, 7, 4, 0, 0, 0, 4294967295, 0⟩,
  ⟨0x29, 5, 1, 0, 0x44, 0, 255, 0⟩,
  ⟨0x2A, 7, 4, 0, 0, 0, 4294967295, 0⟩,
  ⟨0x2B, 27, 8, 0, 0, 0, 18446744073709551615, 0⟩,
  ⟨0x2C, 27, 8, 0, 0, 0, 18446744073709551615, 0⟩,
  ⟨0x2D, 7, 4, 3, 0, 0, 4294967295, 0⟩,
  ⟨0x2E, 7, 4, 3, 0, 0, 4294967295, 0⟩,
  ⟨0x2F, 7, 4, 0, 0, 0, 4294967295, 0⟩,
  ⟨0x30, 27, 8, 0, 0, 0, 18446744073709551615, 0⟩,
  ⟨0x31, 27, 8, 0, 0, 0, 18446744073709551615, 0⟩,
  ⟨0x32, 27, 8, 0, 0, 0, 18446744073709551615, 0⟩,
  ⟨0x33, 27, 8, 0, 0, 0, 18446744073709551615, 0⟩,
  ⟨0x34, 27, 8, 0, 0, 0, 18446744073709551615, 0⟩,
  ⟨0x35, 27, 8, 3, 0, 0, 18446744073709551615, 0⟩,
  ⟨0x36, 6, 2, 3, 0, 0, 65535, 0⟩]

/-- Object 0x5800 and its like: Cartridge State, Latch State, Cartridge Serial, Laser Hours, Hosting Core, Line Drives, Insertions, Interlock Openings, Worst Disarm Time. -/
def od5800 : List OdRow := [
  ⟨0x00, 5, 1, 0, 9, 0, 255, 0⟩,
  ⟨0x01, 5, 1, 0, 0, 0, 255, 0⟩,
  ⟨0x02, 5, 1, 0, 0, 0, 255, 0⟩,
  ⟨0x03, 10, 12, 0, 0, 0, 79228162514264337593543950335, 0⟩,
  ⟨0x04, 7, 4, 0, 0, 0, 4294967295, 0⟩,
  ⟨0x05, 5, 1, 0, 0xff, 0, 255, 0⟩,
  ⟨0x06, 10, 32, 3, 0, 0, 115792089237316195423570985008687907853269984665640564039457584007913129639935, 0⟩,
  ⟨0x07, 7, 4, 0, 0, 0, 4294967295, 0⟩,
  ⟨0x08, 27, 8, 0, 0, 0, 18446744073709551615, 0⟩,
  ⟨0x09, 6, 2, 4, 0, 0, 65535, 0⟩]

/-- Object 0x5900 and its like: Stack State, Corrected Errors, Uncorrectable Errors, Scrub Passes, Scrub Position, Retirement Time, Busy Share, Frames In Use. -/
def od5900 : List OdRow := [
  ⟨0x00, 5, 1, 0, 8, 0, 255, 0⟩,
  ⟨0x01, 5, 1, 0, 0, 0, 255, 0⟩,
  ⟨0x02, 27, 8, 0, 0, 0, 18446744073709551615, 0⟩,
  ⟨0x03, 7, 4, 0, 0, 0, 4294967295, 0⟩,
  ⟨0x04, 27, 8, 0, 0, 0, 18446744073709551615, 0⟩,
  ⟨0x05, 7, 4, 3, 0, 0, 4294967295, 0⟩,
  ⟨0x06, 27, 8, 0, 0, 0, 18446744073709551615, 1⟩,
  ⟨0x07, 6, 2, 3, 0, 0, 65535, 0⟩,
  ⟨0x08, 7, 4, 3, 0, 0, 4294967295, 0⟩]

/-- Object 0x6000: Zone States, Throttle Levels, Zone Readings. -/
def od6000 : List OdRow := [
  ⟨0x00, 5, 1, 0, 3, 0, 255, 0⟩,
  ⟨0x01, 10, 62, 3, 0, 0, 204586912993508866875824356051724947013540127877691549342705710506008362275292159680204380770369009821930417757972504438076078534117837065833032974335, 0⟩,
  ⟨0x02, 10, 62, 3, 0, 0, 204586912993508866875824356051724947013540127877691549342705710506008362275292159680204380770369009821930417757972504438076078534117837065833032974335, 0⟩,
  ⟨0x03, 10, 124, 3, 0, 0, 41855804968213567224547853478906320725054875457247406540771499545716837934567817284890561672488119458109166910841919797858872862722356017328064756151166307827869405370407152286801072676024887272960758524035337792904616958075776435777990406039363527010043736240963055342423554029893064011082834640895, 0⟩]

/-- Object 0x6001: Sensor Table. -/
def od6001 : List OdRow := [
  ⟨0x00, 5, 1, 0, 1, 0, 255, 0⟩,
  ⟨0x01, 15, 0, 3, 0, 0, 0, 0⟩]

/-- Object 0x6002: Throttle Interval, Sensor Reinstate, Throttle Entries, Throttle Time, Sensors Broken, Shutdowns, Hard Trips. -/
def od6002 : List OdRow := [
  ⟨0x00, 5, 1, 0, 7, 0, 255, 0⟩,
  ⟨0x01, 6, 2, 1, 0xa, 1, 100, 0⟩,
  ⟨0x02, 6, 2, 2, 0, 0, 65535, 4⟩,
  ⟨0x03, 27, 8, 0, 0, 0, 18446744073709551615, 0⟩,
  ⟨0x04, 27, 8, 0, 0, 0, 18446744073709551615, 0⟩,
  ⟨0x05, 27, 8, 0, 0, 0, 18446744073709551615, 0⟩,
  ⟨0x06, 27, 8, 0, 0, 0, 18446744073709551615, 0⟩,
  ⟨0x07, 7, 4, 0, 0, 0, 4294967295, 1⟩]

/-- Object 0x6100 and its like: Co-processor State, Loop Command, Loop Config Table, Loop Config Write, Coefficient Bank A, Coefficient Bank B, Coefficient Write, Bank Select Map, Loop Status, Laser Current Limit, Acquisition Limit, Injection Control, Capture Wheel, Capture Position, Worst Frame Time, Deadline Misses, Plausibility Faults, Loop Faults, Acquisitions, Loops Locked, Heater Supply, Cartridge Loops Hosted. -/
def od6100 : List OdRow := [
  ⟨0x00, 5, 1, 0, 0x16, 0, 255, 0⟩,
  ⟨0x01, 5, 1, 0, 0, 0, 255, 0⟩,
  ⟨0x02, 7, 4, 2, 0, 0, 4294967295, 4⟩,
  ⟨0x03, 15, 0, 0, 0, 0, 0, 0⟩,
  ⟨0x04, 10, 68, 2, 0, 0, 57586096570152913699974892898380567793532123114264532903689671329431521032595044740083720782129802971518987656109067457577065805510327036019308994315074097345724415, 4⟩,
  ⟨0x05, 15, 0, 0, 0, 0, 0, 0⟩,
  ⟨0x06, 15, 0, 0, 0, 0, 0, 0⟩,
  ⟨0x07, 10, 36, 2, 0, 0, 497323236409786642155382248146820840100456150797347717440463976893159497012533375533055, 4⟩,
  ⟨0x08, 10, 144, 1, 0, 0, 61172327492847069472032393719205726809135813743440799050195397570919697796091958321786863938157971792315844506873509046544459008355036150650333616890210625686064472971480622053109783197015954399612052812141827922088117778074833698589048132156300022844899841969874763871624802603515651998113045708569927237462546233168834543264678118409417047146495, 6⟩,
  ⟨0x09, 15, 0, 3, 0, 0, 0, 0⟩,
  ⟨0x0A, 6, 2, 1, 0xcb20, 0, 65535, 4⟩,
  ⟨0x0B, 6, 2, 1, 0x32, 5, 1000, 0⟩,
  ⟨0x0C, 10, 16, 2, 0, 0, 340282366920938463463374607431768211455, 4⟩,
  ⟨0x0D, 15, 0, 3, 0, 0, 0, 0⟩,
  ⟨0x0E, 7, 4, 3, 0, 0, 4294967295, 0⟩,
  ⟨0x0F, 6, 2, 4, 0, 0, 65535, 0⟩,
  ⟨0x10, 27, 8, 0, 0, 0, 18446744073709551615, 0⟩,
  ⟨0x11, 27, 8, 0, 0, 0, 18446744073709551615, 0⟩,
  ⟨0x12, 27, 8, 0, 0, 0, 18446744073709551615, 0⟩,
  ⟨0x13, 27, 8, 0, 0, 0, 18446744073709551615, 0⟩,
  ⟨0x14, 6, 2, 3, 0, 0, 65535, 0⟩,
  ⟨0x15, 6, 2, 3, 0, 0, 65535, 0⟩,
  ⟨0x16, 5, 1, 0, 0, 0, 255, 0⟩]

/-- Object 0x6200 and its like: Group States, Channel Config Table, Channel Config Write, Channel Status, Channel Write, Arm Command, Group Mode Table, Group Strobe, Queue Write, Queue Fill, Queue Underruns, Driver Faults, Pilot Clips, Range Changes. -/
def od6200 : List OdRow := [
  ⟨0x00, 5, 1, 0, 0xe, 0, 255, 0⟩,
  ⟨0x01, 10, 35, 3, 0, 0, 1942668892225729070919461906823518906642406839052139521251812409738904285205208498175, 0⟩,
  ⟨0x02, 15, 0, 0, 0, 0, 0, 0⟩,
  ⟨0x03, 10, 20, 2, 0, 0, 1461501637330902918203684832716283019655932542975, 4⟩,
  ⟨0x04, 15, 0, 3, 0, 0, 0, 0⟩,
  ⟨0x05, 10, 4, 2, 0, 0, 4294967295, 4⟩,
  ⟨0x06, 7, 4, 2, 0, 0, 4294967295, 4⟩,
  ⟨0x07, 10, 140, 1, 0, 0, 14242792383964888162918480513432465216409371640403009729971037612045113415478719007639881209041451055630074000655093473974722206675223109929434400259100512062680086347153555148539548552831624261944567042435944993535084132588196941322891072406503377213352323037077384970994853089450777507879083442634420291861180736024127002634265953304575, 6⟩,
  ⟨0x08, 10, 8, 2, 0, 0, 18446744073709551615, 4⟩,
  ⟨0x09, 15, 0, 2, 0, 0, 0, 4⟩,
  ⟨0x0A, 10, 70, 3, 0, 0, 3773962424821541352241554580988268890916921220416440428376206300245624162392148852086126725177658767541468375030763844899770584629924792632561434251432696043649395326975, 0⟩,
  ⟨0x0B, 27, 8, 0, 0, 0, 18446744073709551615, 0⟩,
  ⟨0x0C, 27, 8, 0, 0, 0, 18446744073709551615, 0⟩,
  ⟨0x0D, 27, 8, 0, 0, 0, 18446744073709551615, 0⟩,
  ⟨0x0E, 27, 8, 0, 0, 0, 18446744073709551615, 0⟩]

/-- Object 0x6300 and its like: Converter States, Latest Codes, Overrange Map, Overrange Conversions, Recovery Conversions, Wheel Select, Wheel Control, Wheel, Wheel Position, Wheel Stopped, Scan Number. -/
def od6300 : List OdRow := [
  ⟨0x00, 5, 1, 0, 0xb, 0, 255, 0⟩,
  ⟨0x01, 10, 68, 3, 0, 0, 57586096570152913699974892898380567793532123114264532903689671329431521032595044740083720782129802971518987656109067457577065805510327036019308994315074097345724415, 0⟩,
  ⟨0x02, 15, 0, 3, 0, 0, 0, 0⟩,
  ⟨0x03, 10, 70, 4, 0, 0, 3773962424821541352241554580988268890916921220416440428376206300245624162392148852086126725177658767541468375030763844899770584629924792632561434251432696043649395326975, 0⟩,
  ⟨0x04, 27, 8, 0, 0, 0, 18446744073709551615, 0⟩,
  ⟨0x05, 27, 8, 0, 0, 0, 18446744073709551615, 0⟩,
  ⟨0x06, 10, 32, 1, 0xffffffffffffffffffffffffffffffffffffffffffffffffffffffffffffffff, 0, 115792089237316195423570985008687907853269984665640564039457584007913129639935, 0⟩,
  ⟨0x07, 5, 1, 1, 0, 0, 3, 0⟩,
  ⟨0x08, 15, 0, 3, 0, 0, 0, 0⟩,
  ⟨0x09, 7, 4, 3, 0, 0, 4294967295, 0⟩,
  ⟨0x0A, 1, 1, 0, 0, 0, 1, 0⟩,
  ⟨0x0B, 7, 4, 3, 0, 0, 4294967295, 0⟩]

/-- Object 0x6400 and its like: Generator Table, Generator Write, Sine Table. -/
def od6400 : List OdRow := [
  ⟨0x00, 5, 1, 0, 3, 0, 255, 0⟩,
  ⟨0x01, 15, 0, 0, 0, 0, 0, 0⟩,
  ⟨0x02, 10, 20, 2, 0, 0, 1461501637330902918203684832716283019655932542975, 4⟩,
  ⟨0x03, 15, 0, 0, 0, 0, 0, 0⟩]

/-- Object 0x7000: Next Sequence, Emergency Filter, Export Filter, Export Address, Export UDP Port, Export DSCP, Wheel Filter. -/
def od7000 : List OdRow := [
  ⟨0x00, 5, 1, 0, 7, 0, 255, 0⟩,
  ⟨0x01, 27, 8, 3, 1, 0, 18446744073709551615, 0⟩,
  ⟨0x02, 5, 1, 1, 2, 0, 4, 0⟩,
  ⟨0x03, 5, 1, 1, 2, 0, 4, 0⟩,
  ⟨0x04, 10, 16, 1, 0, 0, 340282366920938463463374607431768211455, 0⟩,
  ⟨0x05, 6, 2, 1, 0xb9f2, 1024, 65535, 0⟩,
  ⟨0x06, 5, 1, 1, 0x2e, 0, 63, 0⟩,
  ⟨0x07, 5, 1, 1, 3, 0, 4, 0⟩]

/-- Object 0x7001: Alarm Table, Alarm Acknowledge. -/
def od7001 : List OdRow := [
  ⟨0x00, 5, 1, 0, 2, 0, 255, 0⟩,
  ⟨0x01, 15, 0, 3, 0, 0, 0, 0⟩,
  ⟨0x02, 7, 4, 2, 0, 0, 4294967295, 0⟩]

/-- Object 0x7002: Drops, Drops, Drops, Drops, Drops, Drops, Drops, Drops, Drops, Drops, Drops, Drops. -/
def od7002 : List OdRow := [
  ⟨0x00, 5, 1, 0, 0xc, 0, 255, 0⟩,
  ⟨0x01, 27, 8, 0, 0, 0, 18446744073709551615, 0⟩,
  ⟨0x02, 27, 8, 0, 0, 0, 18446744073709551615, 0⟩,
  ⟨0x03, 27, 8, 0, 0, 0, 18446744073709551615, 0⟩,
  ⟨0x04, 27, 8, 0, 0, 0, 18446744073709551615, 0⟩,
  ⟨0x05, 27, 8, 0, 0, 0, 18446744073709551615, 0⟩,
  ⟨0x06, 27, 8, 0, 0, 0, 18446744073709551615, 0⟩,
  ⟨0x07, 27, 8, 0, 0, 0, 18446744073709551615, 0⟩,
  ⟨0x08, 27, 8, 0, 0, 0, 18446744073709551615, 0⟩,
  ⟨0x09, 27, 8, 0, 0, 0, 18446744073709551615, 0⟩,
  ⟨0x0A, 27, 8, 0, 0, 0, 18446744073709551615, 0⟩,
  ⟨0x0B, 27, 8, 0, 0, 0, 18446744073709551615, 0⟩,
  ⟨0x0C, 27, 8, 0, 0, 0, 18446744073709551615, 0⟩]

/-- Object 0x7003: Event Fetch, EtherCAT master, host A, host B, Event Fetch, EtherCAT master, host A, host B, Event Fetch, EtherCAT master, host A, host B, Cursor, same order, Cursor, same order, Cursor, same order. -/
def od7003 : List OdRow := [
  ⟨0x00, 5, 1, 0, 6, 0, 255, 0⟩,
  ⟨0x01, 15, 0, 4, 0, 0, 0, 0⟩,
  ⟨0x02, 15, 0, 4, 0, 0, 0, 0⟩,
  ⟨0x03, 15, 0, 4, 0, 0, 0, 0⟩,
  ⟨0x04, 27, 8, 1, 0xffffffffffffffff, 0, 18446744073709551615, 0⟩,
  ⟨0x05, 27, 8, 1, 0xffffffffffffffff, 0, 18446744073709551615, 0⟩,
  ⟨0x06, 27, 8, 1, 0xffffffffffffffff, 0, 18446744073709551615, 0⟩]

/-- Object 0x7004: Event Vector A, B, Event Vector A, B. -/
def od7004 : List OdRow := [
  ⟨0x00, 5, 1, 0, 2, 0, 255, 0⟩,
  ⟨0x01, 6, 2, 1, 0xffff, 0, 65535, 0⟩,
  ⟨0x02, 6, 2, 1, 0xffff, 0, 65535, 0⟩]

/-- Object 0x7005: Storm State, Storms. -/
def od7005 : List OdRow := [
  ⟨0x00, 5, 1, 0, 2, 0, 255, 0⟩,
  ⟨0x01, 5, 1, 3, 0, 0, 255, 0⟩,
  ⟨0x02, 27, 8, 0, 0, 0, 18446744073709551615, 0⟩]

/-- Object 0x7010: Statistics Snapshot. -/
def od7010 : List OdRow := [
  ⟨0x00, 5, 1, 0, 1, 0, 255, 0⟩,
  ⟨0x01, 15, 0, 3, 0, 0, 0, 0⟩]

/-- The rows of an object, none for an index that is reserved or follows a rule of R254 or R256. -/
def odRows (index : Nat) : List OdRow :=
  if index < 0x2000 then (
    if index = 0x1000 then od1000 else
    if index = 0x1001 then od1001 else
    if index = 0x1008 then od1008 else
    if index = 0x1009 then od1009 else
    if index = 0x100A then od100A else
    if index = 0x1018 then od1018 else
    [])
  else
  if index < 0x3000 then (
    if index = 0x2000 then od2000 else
    if index = 0x2001 then od2001 else
    if index = 0x2002 then od2002 else
    if index = 0x2003 then od2003 else
    if index = 0x2010 then od2010 else
    if index = 0x2011 then od2011 else
    if index = 0x2012 then od2012 else
    if index = 0x2020 then od2020 else
    if index = 0x2100 then od2100 else
    if index = 0x2101 then od2101 else
    if index = 0x2102 then od2102 else
    if index = 0x2103 then od2103 else
    if index = 0x2104 then od2104 else
    if index = 0x2105 then od2105 else
    if index = 0x2106 then od2106 else
    if index = 0x2107 then od2107 else
    if index = 0x2200 then od2200 else
    if index = 0x2201 then od2201 else
    if index = 0x2202 then od2202 else
    if index = 0x2300 then od2300 else
    if 0x2400 ≤ index ∧ index < 0x2480 then od2400 else
    if 0x2500 ≤ index ∧ index < 0x2502 then od2500 else
    [])
  else
  if index < 0x4000 then (
    if index = 0x3000 then od3000 else
    if index = 0x3100 then od3100 else
    if index = 0x3110 then od3110 else
    if index = 0x3111 then od3111 else
    if index = 0x3120 then od3120 else
    [])
  else
  if index < 0x5000 then (
    if index = 0x4000 then od4000 else
    if index = 0x4001 then od4001 else
    if index = 0x4002 then od4002 else
    if index = 0x4003 then od4003 else
    if index = 0x4004 then od4004 else
    if index = 0x4005 then od4005 else
    if index = 0x4006 then od4006 else
    if index = 0x4007 then od4007 else
    if index = 0x4008 then od4008 else
    if index = 0x4009 then od4009 else
    if index = 0x400A then od400A else
    if index = 0x4010 then od4010 else
    if index = 0x4011 then od4011 else
    if index = 0x4012 then od4012 else
    if index = 0x4013 then od4013 else
    [])
  else
  if index < 0x6000 then (
    if 0x5000 ≤ index ∧ index < 0x5010 then od5000 else
    if 0x5100 ≤ index ∧ index < 0x5500 ∧ (index - 0x5100) % 0x40 < 34 then od5100 else
    if 0x5800 ≤ index ∧ index < 0x5808 then od5800 else
    if 0x5900 ≤ index ∧ index < 0x5914 then od5900 else
    [])
  else
  if index = 0x6000 then od6000 else
  if index = 0x6001 then od6001 else
  if index = 0x6002 then od6002 else
  if 0x6100 ≤ index ∧ index < 0x6110 then od6100 else
  if 0x6200 ≤ index ∧ index < 0x6210 then od6200 else
  if 0x6300 ≤ index ∧ index < 0x6310 then od6300 else
  if 0x6400 ≤ index ∧ index < 0x6410 then od6400 else
  if index = 0x7000 then od7000 else
  if index = 0x7001 then od7001 else
  if index = 0x7002 then od7002 else
  if index = 0x7003 then od7003 else
  if index = 0x7004 then od7004 else
  if index = 0x7005 then od7005 else
  if index = 0x7010 then od7010 else
  []

/-- A region entry, a grant or a peer entry as a row (R254, R256, R257); none if the object or sub-index has none. -/
def accessRow (index sub : Nat) : Option OdRow :=
  let grant (first : Bool) : OdRow := ⟨sub, 7, 4, 1, if first then 0x10003001 else 0xFFF, 0, 0xFFFFFFFF, 0⟩
  let top (n : Nat) : OdRow := ⟨0, 5, 1, 0, n, 0, 255, 0⟩
  if 0x3010 ≤ index ∧ index < 0x3020 then
    if sub = 0 then some (top 0xFF) else if sub < 256 then some ⟨sub, 10, 20, 1, 0, 0, 0, 0⟩ else none
  else if 0x3020 ≤ index ∧ index < 0x3060 then
    if sub = 0 then some (top 10)
    else if sub ≤ 2 then some ⟨sub, 0x1B, 8, 1, 0, 0, 0x7800000000, 0⟩
    else if sub ≤ 10 then some (grant (sub = 3)) else none
  else if 0x3060 ≤ index ∧ index < 0x3070 then
    if sub = 0 then some (top 96)
    else if 96 < sub then none
    else if (sub - 1) % 6 < 2 then some ⟨sub, 7, 4, 1, 0, 0, 0x70000000, 0⟩
    else some (grant ((sub - 1) % 6 = 2))
  else if index = 0x3070 ∨ index = 0x3071 then
    if sub = 0 then some (top 64) else if sub ≤ 64 then some (grant ((sub - 1) % 4 = 0)) else none
  else if index = 0x3072 then
    if sub = 0 then some (top 8) else if sub ≤ 8 then some (grant (sub = 1)) else none
  else if index = 0x3073 then
    if sub = 0 then some (top 28)
    else if 28 < sub then none
    else if sub = 2 then some ⟨sub, 7, 4, 1, 0x01004001, 0, 0xFFFFFFFF, 0⟩
    else some (grant ((sub - 1) % 4 = 0))
  else none

/-- The row of an entry, none where the map has none (R384). -/
def odRow (index sub : Nat) : Option OdRow :=
  match (odRows index).find? (fun r => r.sub == sub) with
  | some r => some r
  | none => accessRow index sub

/-- The index exists (R384). -/
def odIndexExists (index : Nat) : Bool := !(odRows index).isEmpty || (accessRow index 0).isSome

/-- Class of an index: 0 IDENTITY, 1 CONTROL, 2 NETWORK, 3 UNITS, 4 EVENTS, 5 ACCESS, 6 SECURITY (R258, R384). -/
def odClass (index : Nat) : Nat :=
  if index < 0x2000 ∨ index = 0x2001 then 0
  else if index < 0x2100 then 1
  else if index < 0x3000 then 2
  else if index < 0x3100 then 5
  else if index < 0x4000 then 6
  else if index < 0x5000 then 1
  else if index < 0x7000 then 3
  else 4

end Sys2Proof.Machine
end

