-- ==== Sys2Proof/Machine/State.lean ====
section
/-! DEFINITION. The state of the part, as plain data: one structure for each mechanism the spec describes, and `State` over
them. Each field's docstring gives its width or shape, the rule of spec/ that names it and its value at cold reset. Where
the spec gives no reset value the field holds zero (log entry 3). -/

namespace Sys2Proof.Machine

/-- The memory of the device map (R225): the listed bytes, at strictly rising addresses, none of them 0. -/
abbrev Mem := List Host.Cell

/-- Unit states, codes 0 to 6 in this order (R385). -/
inductive UnitSt
  | offline | starting | ready | serving | fenced | repair | retired
  deriving DecidableEq, Repr, Inhabited

/-- Run states, codes 0 to 8 in this order (R392). -/
inductive RunSt
  | off | boot | standby | warming | ready | serving | draining | safe | shutdown
  deriving DecidableEq, Repr, Inhabited

/-- Lock states, codes 0 to 2 (R278). -/
inductive LockSt
  | freeRun | holdover | locked
  deriving DecidableEq, Repr, Inhabited

/-- Twin states, codes 0 to 8 in this order (R330). -/
inductive TwinSt
  | solo | forming | syncing | paired | suspect | linkDown | takingOver | degraded | selfFenced
  deriving DecidableEq, Repr, Inhabited

/-- Epoch states, codes 0 to 3 (R301). -/
inductive EpochSt
  | stable | pending | committing | mixed
  deriving DecidableEq, Repr, Inhabited

/-- Job slot states, codes 0 to 6 (R234). -/
inductive JobSt
  | free | loading | ready | running | held | faulted | unloading
  deriving DecidableEq, Repr, Inhabited

/-- Stream states, codes 0 to 6 (R240). -/
inductive StreamSt
  | free | queued | active | idle | restoring | closing | failed
  deriving DecidableEq, Repr, Inhabited

/-- Bank states, codes 0 to 4 (R99). -/
inductive BankSt
  | empty | writing | verified | live | refreshing
  deriving DecidableEq, Repr, Inhabited

/-- Pulse reference states, codes 0 to 2 (R39, R64). -/
inductive PulseSt
  | unlocked | acquiring | locked
  deriving DecidableEq, Repr, Inhabited

/-- Loop states, codes 0 to 5 (R407). -/
inductive LoopSt
  | off | manual | acquire | track | hold | fault
  deriving DecidableEq, Repr, Inhabited

/-- Thermal zone states, codes 0 to 5 (R452). -/
inductive ZoneSt
  | normal | warning | throttle | shutdown | tripped | outOfService
  deriving DecidableEq, Repr, Inhabited

/-- Firmware slot states, codes 0 to 3 (R265). -/
inductive SlotSt
  | empty | valid | trial | invalid
  deriving DecidableEq, Repr, Inhabited

/-- The placements of a layer (R105). -/
inductive Place
  | digital | rotating | resident
  deriving DecidableEq, Repr, Inhabited

/-- What the part puts out, in the order in which it does. -/
inductive Output
  /-- An SDO response with its value (R380, R382). -/
  | sdo (index : Nat) (sub : Nat) (data : List Byte)
  /-- An SDO abort (R381). -/
  | sdoAbort (code : Nat)
  /-- A FoE acknowledgement or error, 0 for success (R376). -/
  | foe (code : Nat)
  /-- A CoE Emergency of 8 bytes (R377). -/
  | emergency (data : List Byte)
  /-- A TxPDO of 16 bytes (R378). -/
  | txpdo (data : List Byte)
  /-- The completion of a PCIe memory read (R260, R370). -/
  | busRead (port : Nat) (data : List Byte)
  /-- An MSI-X message: the vector, and the address and data of its table entry (R365). -/
  | msix (port : Nat) (vector : Nat) (addr : Nat) (data : Nat)
  /-- A DMA write to a host (R209). -/
  | hostWrite (port : Nat) (addr : Nat) (data : List Byte)
  /-- An RDMA WRITE segment sent, with its launch tag (R209). -/
  | rdmaWrite (qp : Nat) (psn : Nat) (addr : Nat) (tag : Nat) (data : List Byte)
  /-- An RDMA READ request sent (R209). -/
  | rdmaRead (qp : Nat) (psn : Nat) (addr : Nat) (len : Nat)
  /-- A SEND carrying a completion (R320). -/
  | send (qp : Nat) (data : List Byte)
  /-- A transport acknowledgement of a request received. -/
  | ack (qp : Nat) (psn : Nat)
  /-- The answer to an RDMA READ received. -/
  | readResponse (qp : Nat) (psn : Nat) (data : List Byte)
  /-- A NAK: true for Remote Access Error (R320), false for Invalid Request (R318). -/
  | nak (qp : Nat) (psn : Nat) (access : Bool)
  /-- A sequence NAK with the PSN expected. -/
  | sequenceNak (qp : Nat) (psn : Nat)
  /-- An RNR NAK at a timer of 0.64 ms (R320). -/
  | rnrNak (qp : Nat) (psn : Nat)
  /-- A resend from a PSN (R321). -/
  | resend (qp : Nat) (psn : Nat)
  /-- A CNP to the sender of a CE-marked packet (R322). -/
  | cnp (qp : Nat)
  /-- A frame sent on a fabric port (R314). -/
  | frame (port : Nat) (pkt : Packet)
  /-- A PFC pause sent (R316). -/
  | pause (port : Nat) (cls : Nat) (quanta : Nat)
  /-- A neighbour solicitation or ARP request (R308). -/
  | solicit (port : Nat) (ipv6 : Bool)
  /-- The PTP Sync and Announce messages with the class sent (R282). -/
  | announce (port : Nat) (clockClass : Nat)
  /-- A twin control frame on a twin port, 0 to 7 (R332). -/
  | twin (port : Nat) (frame : TwinFrame)
  /-- A HELLO with certificate and nonce, or its answer with a report (R328). -/
  | hello (port : Nat) (frame : TwinFrame) (body : List Byte)
  /-- A control frame to an address over the non-twin ports (R334, R336). -/
  | control (addr : Nat) (frame : TwinFrame)
  /-- A token log entry to the twin, and the acknowledgement of one received (R339). -/
  | logEntry (entry : LogEntry)
  | logAck (seq : Nat)
  /-- A checkpoint to the twin, and the answer to one received: true when it is acknowledged (R340, R341). -/
  | checkpoint (ckpt : Checkpoint)
  | checkpointAck (stream : Nat) (accepted : Bool)
  /-- A column-sum record to the twin (R342). -/
  | crossCheck (record : CrossCheck)
  /-- A datagram of event records (R489). -/
  | datagram (data : List Byte)
  deriving DecidableEq, Repr

/-- The time base (R274, R275). -/
structure Clock where
  /-- Kelig time in ps since 0 s TAI (48-bit s, 32-bit ns, 16-bit fraction; R274); 0 (R275). -/
  now : Nat := 0
  /-- ps since power-up, run at the tick's own rate and never stepped: durations of hardware; 0. -/
  up : Nat := 0
  /-- ps of time correction still to be slewed (R275, R279); 0. -/
  slewLeft : Int := 0
  /-- Remainder of the slew in units of 10^-6 ps, below 10^6 (R275: at most 2 ppm); 0. -/
  slewAcc : Nat := 0
  deriving DecidableEq, Repr, Inhabited

/-- One time source of R276. -/
structure TimeSource where
  /-- Up time, ps, since which the source has been present, if it is (R276); none. -/
  present : Option Nat := none
  /-- Up time, ps, of the last update (R276); 0. -/
  lastAt : Nat := 0
  /-- Last offset estimate, device minus source, ps (R276); 0. -/
  offset : Int := 0
  /-- Consecutive updates within 1 us, saturating at 16 (R276); 0. -/
  inBand : Nat := 0
  /-- Consecutive updates beyond 1 us, saturating at 16 (R276); 0. -/
  outBand : Nat := 0
  /-- Qualified (R276); false. -/
  qualified : Bool := false
  /-- Up time, ps, at which it qualified, for Wait To Restore (R277); 0. -/
  qualifiedAt : Nat := 0
  /-- PTP clock class of the source (R282), 8 bits; 0. -/
  clockClass : Nat := 0
  deriving DecidableEq, Repr, Inhabited

/-- Time lock (R276 to R283). -/
structure TimeState where
  /-- Lock State, `0x2100:01` (R278); FREE-RUN. -/
  lock : LockSt := .freeRun
  /-- Followed Source, `0x2100:02`: 0 oscillator, 1 PTP, 2 DC, 3 1PPS (R277); 0. -/
  followed : Nat := 0
  /-- The three sources (R276); all absent. -/
  ptp : TimeSource := {}
  dc : TimeSource := {}
  pps : TimeSource := {}
  /-- Up time, ps, at which the lock state was entered (R278); 0. -/
  since : Nat := 0
  /-- Up time, ps, since which the followed source's offset has stayed within the Lock Threshold (R278); none. -/
  withinSince : Option Nat := none
  /-- Time Of Day Known, `0x2105:02`; TAI s of the next 1PPS edge, where `0x2105:03` has given it (R280); FALSE, none. -/
  dayKnown : Bool := false
  nextEdge : Option Nat := none
  /-- Class of the grandmaster last followed while LOCKED (R282); 0. -/
  grandmaster : Nat := 0
  /-- Up time, ps, since which the Twin Offset has lain beyond 5 ns, and whether the warning has been raised (R283); none. -/
  twinBeyond : Option (Nat × Bool) := none
  deriving DecidableEq, Repr, Inhabited

/-- The run state and power-down machinery (R392 to R394, R507 to R519). -/
structure RunInfo where
  /-- Run State, `0x2000:01` (R392); BOOT after cold reset (R507). -/
  st : RunSt := .boot
  /-- Up time, ps, of entry into the run state (R394); 0. -/
  since : Nat := 0
  /-- Auto Start has had its one chance (R509); false. -/
  autoDone : Bool := false
  /-- Up time, ps, at which the start was qualified (R519 `0x400A:05`); 0. -/
  startAt : Nat := 0
  /-- The power-down in progress is module level and at step 1 to 5 of R461, 0 none; 0. -/
  downStep : Nat := 0
  /-- Up time, ps, at which the handover of a shutdown began (R517); none. -/
  handoverAt : Option Nat := none
  /-- The reset loop is asserted (R531); false. -/
  loopAsserted : Bool := false
  /-- The device is OFF after a power-down with a feed present (R518); false. -/
  offWithFeed : Bool := false
  /-- Warming Limit and Shutdown Handover Limit in force, ms: taken on entry into WARMING and SHUTDOWN (R520); 0. -/
  warmLimit : Nat := 0
  handoverLimit : Nat := 0
  /-- Jobs switch out at their next step boundary for SAFE, DRAINING or self-fencing (R393, R337); false. -/
  stopJobs : Bool := false
  /-- Up times, ps, of the core shutdowns of the last second (R461); none. -/
  coreShutdowns : List Nat := []
  deriving DecidableEq, Repr, Inhabited

/-- One unit's own bookkeeping (R3, R385, R471, R472). -/
structure UnitState where
  /-- Unit State (R385); OFFLINE (R63, R187, R325, R371, R417, R481, R482). -/
  st : UnitSt := .offline
  /-- A Repair or Port Command in progress, 0 none (R307, R471); 0. -/
  command : Nat := 0
  /-- Up times, ps, of faults in the last 24 h (R472, R476); none. -/
  faults : List Nat := []
  /-- The automatic test after a fault has been used (R472); false. -/
  autoTested : Bool := false
  /-- A member of the epoch's mixed list (R298); false. -/
  mixed : Bool := false
  /-- The staged epoch values still to be applied by this unit (R297); false. -/
  applyDue : Bool := false
  /-- Retired, held in non-volatile memory (R305, R471, R515); PRESUMED false at delivery. -/
  retiredNv : Bool := false
  deriving DecidableEq, Repr, Inhabited

/-- One vat row (R136, R137). -/
structure Row where
  /-- 256 FP32 values by column (R136); +0.0. -/
  vals : Tbl F32 := []
  /-- ADD_COUNT, 21 bits (R137); 0. -/
  addCount : Nat := 0
  /-- CHURN_VALID (R137); 0. -/
  churnValid : Bool := false
  /-- RN_IN_SEGMENT (R137); 0. -/
  rnInSegment : Bool := false
  /-- FORCED_SPILL (R137); 0. -/
  forcedSpill : Bool := false
  /-- VAT_SAT (R137); 0. -/
  vatSat : Bool := false
  /-- LOCKED, with the operation that holds the row (R137, R154); 0. -/
  locked : Option Nat := none
  deriving DecidableEq, Repr, Inhabited

/-- An aligned vector in an input buffer (R46, R47, R49). -/
structure AVec where
  /-- The PASS operation. -/
  op : Nat := 0
  /-- The vector index. -/
  v : Nat := 0
  /-- Signed magnitude codes by row (R47); rows not listed are 0. -/
  codes : List Int := []
  /-- WEXP, none for a vector without an exponent (R46). -/
  wexp : Option Int := none
  /-- The coefficient set that serves the vector (R73); taken when its first window opens. -/
  coeff : Measured := {}
  deriving DecidableEq, Repr, Inhabited

/-- What a window is in its vector's sequence (R44, R53, R77, R78). -/
inductive WKind
  | original | lower | upper | rescue (fill : Bool)
  deriving DecidableEq, Repr, Inhabited

/-- One read of a window: 256 signed codes and noise estimates in 1/8 LSB (R69, R80). -/
structure Read where
  codes : List Int := []
  noise : List Nat := []
  deriving DecidableEq, Repr, Inhabited

/-- A window (R44, R52, R53, R69, R77). -/
structure Window where
  /-- The PASS operation and the vector. -/
  op : Nat := 0
  v : Nat := 0
  /-- Second half of a split-sign pair (R44). -/
  neg : Bool := false
  /-- Driven row span, from lo to below hi (R53, R77). -/
  lo : Nat := 0
  hi : Nat := 0
  kind : WKind := .original
  /-- Range step (R51, R53, R77). -/
  step : Nat := 0
  /-- Headroom divisor (R68, R77). -/
  k : Nat := 1
  /-- Active rows (R51). -/
  active : Nat := 0
  /-- The vector has no exponent under offset-binary coding (R46). -/
  unused : Bool := false
  /-- Reads taken so far (R82). -/
  reads : List Read := []
  deriving DecidableEq, Repr, Inhabited

/-- A pass running on an engine (R201). -/
structure PassRun where
  op : Nat := 0
  /-- The plane resolved at the queue head (R201). -/
  plane : Nat := 0
  /-- Vectors of the pass. -/
  total : Nat := 0
  /-- Next vector to open (R54). -/
  next : Nat := 0
  /-- Vectors whose update has been made (R140). -/
  updated : Nat := 0
  /-- k of the pass (R85). -/
  k : Nat := 1
  /-- The k is the policy's, and its windows are counted (R85). -/
  policy : Bool := false
  /-- Confidence Threshold, Repeat Budget and Budget Interval at the start (R89). -/
  threshold : Nat := 16
  budget : Nat := 50
  interval : Nat := 1000
  deriving DecidableEq, Repr, Inhabited

/-- The result of a vector on its way to the vat adder: 256 FP32 terms, none for all +0.0 (R61, R140). -/
structure VecResult where
  op : Nat := 0
  v : Nat := 0
  terms : List F32 := []
  deriving DecidableEq, Repr, Inhabited

/-- A captured row in the spill buffer (R147). -/
structure SpillRow where
  row : Nat := 0
  vals : Tbl F32 := []
  /-- Address of the churn entry (R145). -/
  addr : Nat := 0
  deriving DecidableEq, Repr, Inhabited

/-- The record a bank keeps of the BANK.WRITE that filled it (R93, R101, R166). -/
structure BankRecord where
  job : Nat := 0
  tag : Nat := 0
  image : Nat := 0
  calB : Nat := 0
  check : Nat := 0
  deriving DecidableEq, Repr, Inhabited

/-- A drift refresh in progress (R107). -/
structure Refresh where
  /-- Next or active chunk, 0 to 31. -/
  chunk : Nat := 0
  active : Bool := false
  /-- A cell has been rewritten (R108). -/
  rewrote : Bool := false
  /-- Up time, ps, at which the last chunk ended (R103). -/
  endedAt : Nat := 0
  /-- Weak Cell Limit and Drift Rewrite Threshold in force for it (R114); weak cells found so far. -/
  limit : Nat := 2
  threshold : Nat := 8
  weak : Nat := 0
  deriving DecidableEq, Repr, Inhabited

/-- One plane of an engine (R90, R91). -/
structure Plane where
  /-- Bank state (R99); EMPTY (R91). -/
  st : BankSt := .empty
  /-- Pair map, the physical pair of each remapped logical column (R33, R91); identity, non-volatile. -/
  map : List (Nat × Nat) := []
  /-- Retired pairs (R91, R96); none, non-volatile. -/
  retired : List Nat := []
  /-- Rewrite counter, 64 bits (R91); PRESUMED 0 at delivery, non-volatile. -/
  rewrites : Nat := 0
  /-- The record (R101); none. -/
  record : Option BankRecord := none
  /-- Column scales, 256 FP16 (R92); none written. -/
  scales : List F16 := []
  /-- The signed level of each cell pair, 131,072 INT8 in the image's order (R32, R92); none written. -/
  weights : List Byte := []
  /-- Column flags, [0] CONST, [1] CAL_FAIL, [2] WEAK (R87, R112); 0. -/
  flags : Tbl Nat := []
  /-- Coefficients in force by BITS code (R71, R73); none. -/
  coeffs : Tbl (Option Measured) := []
  /-- Coefficients measured and waiting for the vector boundary (R73); none. -/
  fresh : Tbl (Option Measured) := []
  /-- BITS codes calibrated since the write (R72, R100); none. -/
  calibrated : List Nat := []
  /-- BITS codes due for calibration, with class (1 VERIFIED, 2 remaining or exchange, 3 patrol) and the up time at which
  each fell due (R72); none. -/
  calDue : List (Nat × Nat × Nat) := []
  /-- Up time, ps, of the last successful recalibration (R75); 0. -/
  calAt : Nat := 0
  /-- Up time, ps, at which the refresh age started (R107); 0. -/
  refreshedAt : Nat := 0
  /-- Up time, ps, of a refresh that was not started because of its image (R109); 0. -/
  refreshTry : Nat := 0
  /-- The drift refresh in progress (R107); none. -/
  refresh : Option Refresh := none
  /-- Due for a rewrite at restore (R166), or found changed: its next PASS completes BANK_IMAGE (R166); false. -/
  imageChanged : Bool := false
  deriving DecidableEq, Repr, Inhabited

/-- What a bank write does next (R94, R95). -/
inductive WritePhase
  | waiting | reset | columns (logical : Nat) (negative : Bool) (iteration : Nat) | spares (iteration : Nat) (negative : Bool)
  deriving DecidableEq, Repr, Inhabited

/-- A write held by the write controller of an engine (R198). -/
structure WriteRun where
  /-- The BANK.WRITE operation, none for a remap or for a rewrite that completes no instruction (R166). -/
  op : Option Nat := none
  /-- A restore rewrite (R166). -/
  restore : Bool := false
  plane : Nat := 0
  record : BankRecord := {}
  phase : WritePhase := .waiting
  /-- Resets done (R94). -/
  resets : Nat := 0
  /-- Weak Cell Limit in force for the write (R114). -/
  limit : Nat := 2
  /-- Weak cells of the pair so far, and of the plane (R95, R98). -/
  weakPair : Nat := 0
  weak : Nat := 0
  /-- Rows of the present column still failing, and columns waiting for their spare pair (R94, R96). -/
  failing : List Nat := []
  remaps : List Nat := []
  /-- Pairs remapped (R98). -/
  remapped : Nat := 0
  /-- Up time, ps, at which the reset began (R98). -/
  startAt : Nat := 0
  /-- The spare pair being written for a column alone, after a refresh or a calibration (R100); none for a whole write. -/
  spare : Option Nat := none
  deriving DecidableEq, Repr, Inhabited

/-- A calibration in progress (R72). -/
structure CalRun where
  plane : Nat := 0
  bits : Nat := 0
  /-- Class 1 to 3 of R72. -/
  cls : Nat := 1
  /-- Windows done, of 4,096. -/
  done : Nat := 0
  deriving DecidableEq, Repr, Inhabited

/-- One engine (R31). -/
structure Engine where
  /-- Plane behind B0, `0x5100:20` (R90); 0. -/
  b0 : Nat := 0
  plane0 : Plane := {}
  plane1 : Plane := {}
  /-- The vat: 4,096 rows (R136); +0.0 and metadata 0. -/
  vat : Tbl Row := []
  /-- SR counter (R144), 64 bits; 0. -/
  srCtr : Nat := 0
  /-- Input buffer, at most 16 vectors (R49); empty. -/
  inbuf : List AVec := []
  /-- A PASS that reached the queue head when its bank was EMPTY without a record: its tag check waits (R201); none. -/
  waitEmpty : Option Nat := none
  /-- Passes that have reached the queue head and run (R201); none. -/
  passes : List PassRun := []
  /-- The vector whose windows are being issued, and its windows still to open, first first (R54, R79); none. -/
  vec : Option AVec := none
  todo : List Window := []
  /-- The vector of the windows already opened, when the issue has moved on to the next (R79); none. -/
  prev : Option AVec := none
  /-- The window that integrates, and the one that converts (R57); none. -/
  integrating : Option Window := none
  converting : Option Window := none
  /-- Estimate of the vector so far, by column, as numerator and denominator (R71); none. -/
  partialSum : List (Int × Nat) := []
  /-- Results on their way to the vat adder (R61); none. -/
  results : List VecResult := []
  /-- Spill buffer, at most 16 captured rows (R147); empty. -/
  spills : List SpillRow := []
  /-- Window number, for the rotation of the three integrators (R57); 0. -/
  windowNo : Nat := 0
  /-- Bank, BITS, CODING and plane of the last window (R59); none. -/
  last : Option (Nat × Nat × Nat × Nat) := none
  /-- Up time, ps, of the window boundary at which the input buffer was found empty (R60); none. -/
  starvedAt : Option Nat := none
  /-- Up time, ps, at which the present window slot ends, its idle interval included (R56, R59, R62); 0. -/
  slotEnd : Nat := 0
  /-- Slot within the group of 8, slots used in it, and the rate limit applied to it (R62); 0, 0, 8. -/
  slot : Nat := 0
  used : Nat := 0
  rate : Nat := 8
  /-- Up time, ps, of the repeats granted within the Budget Interval (R84); none. -/
  repeats : List Nat := []
  /-- Write controller: the running and the waiting write (R198); none. -/
  writing : Option WriteRun := none
  writeWait : Option WriteRun := none
  /-- Remaps that wait for the write controller (R75, R100). -/
  remapWait : List WriteRun := []
  /-- The calibration in progress (R72); none. -/
  cal : Option CalRun := none
  /-- Up times, ps, of the patrol's calibration windows of the last 10 ms, and whether its budget was found spent (R185). -/
  patrolAt : List Nat := []
  deferred : Bool := false
  /-- A comb-line or modulator-bias loop has faulted: the engine stops at the next window boundary (R36); false. -/
  stopping : Bool := false
  /-- The calibration state FAILED or STALE flags of `0x5100:19` beyond what the planes tell (R75, R87); false. -/
  stale : Bool := false
  calFailed : Bool := false
  /-- Recalibration required before it serves again after a cartridge exchange (R478); false. -/
  exchange : Bool := false
  /-- Treated as failed at the next placement (R75, R96); false. -/
  failNext : Bool := false
  deriving DecidableEq, Repr, Inhabited

/-- A tensor descriptor as read (R193). -/
structure Desc where
  base : Nat := 0
  rows : Nat := 0
  cols : Nat := 0
  rowStride : Nat := 0
  slabStride : Nat := 0
  fmt : Nat := 0
  reserved : Nat := 0
  panelScale : F32 := 0
  deriving DecidableEq, Repr, Inhabited

/-- A transaction of a DMA instruction (R173, R249). -/
structure Txn where
  /-- Pool: 0 HBM, 1 fabric, 2 host, 3 none. -/
  pool : Nat := 3
  src : Nat := 0
  dst : Nat := 0
  len : Nat := 0
  /-- Offset in the operation's buffer, for data that came from outside. -/
  off : Nat := 0
  issued : Bool := false
  /-- PSN of a fabric transaction (R321). -/
  psn : Nat := 0
  deriving DecidableEq, Repr, Inhabited

/-- Where an operation stands (R170, R171). -/
inductive OpStage
  | decoded | queued | running | complete (status : Nat)
  deriving DecidableEq, Repr, Inhabited

/-- An entry of a core's operation table (R170). -/
structure Op where
  word : TvWord := 0
  /-- Address of the word in the core store. -/
  addr : Nat := 0
  stage : OpStage := .decoded
  /-- Descriptors read at dispatch, by index (R195). -/
  descs : List (Nat × Desc) := []
  /-- Bytes read and written: pieces of a first address, a length, a count and the distance to the next (R172, R220). -/
  reads : List (Nat × Nat × Nat × Nat) := []
  writes : List (Nat × Nat × Nat × Nat) := []
  /-- The word decoded just before this one (R139). -/
  prev : TvWord := 0
  /-- Engine queues that have not finished their part (R171). -/
  left : List Nat := []
  /-- The first status other than OK found so far (R211, R222); 0. -/
  status : Nat := 0
  /-- Finished reading its operands (R220). -/
  readDone : Bool := false
  /-- Next vector to align (R49). -/
  aligned : Nat := 0
  /-- Transactions still to complete (R173). -/
  txns : List Txn := []
  /-- Data that came from a host or a peer (R209). -/
  buffer : List Byte := []
  /-- Kelig ns at which it was dispatched: WAIT timeouts and stalls (R214); and the time a LAUNCH.AT waits for, in ns. -/
  since : Nat := 0
  until_ : Nat := 0
  /-- What a PASS started with on its first engine: k and the settings of R89 (R85); none before that. -/
  run : Option PassRun := none
  /-- A LAUNCH.AT or WAIT that has reached the head of the control queue and holds (R214, R216). -/
  holding : Bool := false
  /-- Held for launch staggering (R504). -/
  staggered : Bool := false
  deriving DecidableEq, Repr, Inhabited

/-- The run of a DRAIN in the drain unit (R154). -/
structure DrainRun where
  op : Nat := 0
  /-- Next output row to read. -/
  next : Nat := 0
  /-- Rows read and not yet written: rank, row and 256 values (R156). -/
  ready : List (Nat × Nat × List F32) := []
  /-- A fault was found: no further row is read (R157). -/
  faulted : Bool := false
  /-- Carried out by the near-array blocks (R184). -/
  nearArray : Bool := false
  deriving DecidableEq, Repr, Inhabited

/-- An early arrival in a pail (R186, R290). -/
structure PailItem where
  job : Nat := 0
  tag : Nat := 0
  addr : Nat := 0
  data : List Byte := []
  /-- Kelig ns of arrival (R284). -/
  at_ : Nat := 0
  /-- No matching record was known (R290). -/
  orphan : Bool := false
  deriving DecidableEq, Repr, Inhabited

/-- The part of a step that runs on a core (R190, R217). -/
structure CoreStep where
  job : Nat := 0
  logical : Nat := 0
  /-- Word address of the next instruction (R190). -/
  pc : Nat := 0
  /-- Launch time, ns, and the completion of the last LAUNCH.AT (R216). -/
  launch : Nat := 0
  lastAt : Option Nat := none
  /-- The word decoded last (R139). -/
  prev : TvWord := 0
  /-- A selected span in progress: its end and the word after the other span (R217). -/
  span : Option (Nat × Nat) := none
  /-- Decoding has stopped: END decoded, or the step is stopped or abandoned (R218, R223). -/
  decodeDone : Bool := false
  /-- END has completed (R218). -/
  ended : Bool := false
  /-- Further logical cores of the step that a doubled core has still to run (R475). -/
  rest : List Nat := []
  /-- Largest stretch factor of the step, as numerator and denominator (R294). -/
  sigmaMax : Nat × Nat := (1, 1)
  deriving DecidableEq, Repr, Inhabited

/-- What a save keeps of one slot: its vat, its counter, and where its passes stand (R164). -/
structure SavedSlot where
  vat : Tbl Row := []
  ctr : Nat := 0
  passes : List PassRun := []
  inbuf : List AVec := []
  waitEmpty : Option Nat := none
  /-- Next vector of a stand-in's PASS (R474). -/
  next : Nat := 0
  deriving DecidableEq, Repr, Inhabited

/-- The saved record of a slot's bank (R166): due for rewriting or not, and the BANK.WRITE that this rewrite completes. -/
structure SavedBank where
  slot : Nat := 0
  bank : Nat := 0
  record : BankRecord := {}
  due : Bool := false
  op : Option Nat := none
  deriving DecidableEq, Repr, Inhabited

/-- The saved part of a job on one logical core (R164, R166, R475). -/
structure SavedCore where
  logical : Nat := 0
  slots : List (Nat × SavedSlot) := []
  drainCtr : Nat := 0
  vecCtr : Nat := 0
  signals : Tbl Nat := []
  step : Option CoreStep := none
  ops : List (Nat × Op) := []
  queues : List (Nat × List Nat) := []
  /-- The queue of each slot when it was saved (R196). -/
  slotQueues : List (Nat × Nat) := []
  banks : List SavedBank := []
  /-- The REGION lies in the save area (R236). -/
  region : Bool := false
  deriving DecidableEq, Repr, Inhabited

/-- One core (R169). -/
structure Core where
  /-- Pulse Reference State, `0x5000:20` (R39, R64); UNLOCKED. -/
  pulse : PulseSt := .unlocked
  /-- Kelig ns of the loss of lock and the relock limit then in force, us (R39, R65); none. -/
  pulseLost : Option (Nat × Nat) := none
  /-- Engine of each slot, where it differs from the identity (R196); identity; 0xFF none. -/
  slotMap : List (Nat × Nat) := []
  /-- Stand-in slots (R474), `0x4004:05`; none. -/
  standIns : List Nat := []
  /-- Records and vat rows of the stand-in slots' two banks (R474); none. -/
  standRecords : List (Nat × BankRecord) := []
  standVats : List (Nat × Tbl Row) := []
  standCtrs : Tbl Nat := []
  /-- Next vector of the PASS at the head of each stand-in slot's queue (R474); 0. -/
  standNext : Tbl Nat := []
  /-- The job and logical core whose vats, counters and signals the core holds (R164); none. -/
  loaded : Option (Nat × Nat) := none
  /-- The step in progress on the core (R190); none. -/
  step : Option CoreStep := none
  /-- Operation table, at most 4,096 entries, by operation number (R170); empty. -/
  ops : List (Nat × Op) := []
  nextOp : Nat := 1
  /-- Unit queues by number: 0 to 33 engines, 34 to 65 stand-in slots, 66 drain, 67 skim, 68 tensor, 69 vector, 70 DMA,
  71 control (R171); empty. -/
  queues : List (Nat × List Nat) := []
  /-- The DRAIN being carried out (R154); none. -/
  drain : Option DrainRun := none
  /-- The vat SKIM being carried out: the operation and its next list (R162); none. -/
  skim : Option (Nat × Nat) := none
  /-- Signal counters 1 to 15, 32 bits (R212); 0. -/
  signals : Tbl Nat := []
  /-- Drain and vector-unit counters (R144, R208), 64 bits; 0. -/
  drainCtr : Nat := 0
  vecCtr : Nat := 0
  /-- The pail's contents, oldest first, and its size in force, MiB (R186, R189); empty, 0. -/
  pail : List PailItem := []
  pailMiB : Nat := 0
  /-- Pace monitor readings, 16 per mille values (R180); none read. -/
  monitors : List Nat := []
  /-- Logic supply, mV (R181, R507); 0. -/
  supply : Nat := 0
  /-- Effective pace target, per mille (R181); 1000. -/
  target : Nat := 1000
  /-- Bring-up step of R510 reached, 0 to 6 (R510); 0. -/
  warmStep : Nat := 0
  /-- Logic supply removed by a shutdown or trip (R460, R462); false. -/
  supplyCut : Bool := false
  /-- DIGEST of the microcode that the core runs (R268, R271), 32 bytes as a number; 0 before the first start. -/
  microcode : Nat := 0
  /-- Scrub position, bytes (R470); 0. -/
  scrub : Nat := 0
  /-- Row modulators may open: the engines that have reported lock (R37); none. -/
  lit : List Nat := []
  deriving DecidableEq, Repr, Inhabited

/-- A layer of a job: the layer table's row and what the firmware keeps for it (R85, R106, R232). -/
structure Layer where
  tag : Nat := 0
  /-- A tag that the layer table does not hold: kept for the k of its passes alone (R85). -/
  extra : Bool := false
  pin : Nat := 0
  bits : Nat := 0
  rank : Nat := 0
  banks : Nat := 1
  w : Nat := 1
  /-- Placement of the current step, and steps since its last change (R106); digital (DESIGN CHOICE), 0. -/
  place : Place := .digital
  held : Nat := 0
  /-- Banks granted on each core at job residency (R106); none. -/
  grants : List (Nat × Nat) := []
  /-- The policy's k, none until created (R85); windows and split windows counted, and low intervals in a row; 0. -/
  k : Option Nat := none
  windows : Nat := 0
  splits : Nat := 0
  lowRuns : Nat := 0
  deriving DecidableEq, Repr, Inhabited

/-- A CORE entry of a job record (R231). -/
structure CoreEntry where
  codeSrc : Nat := 0
  codeBytes : Nat := 0
  codeDst : Nat := 0
  descDst : Nat := 0
  churnDst : Nat := 0
  descSrc : Nat := 0
  regionBase : Nat := 0
  regionBytes : Nat := 0
  /-- The core the firmware bound to this logical core (R259, R475), none for an unused entry. -/
  bound : Option Nat := none
  deriving DecidableEq, Repr, Inhabited

/-- A KV area of a job on one stack (R230, R243). -/
structure KvArea where
  pageBase : Nat := 0
  pageBytes : Nat := 0
  nodeBase : Nat := 0
  nodeBytes : Nat := 0
  deriving DecidableEq, Repr, Inhabited

/-- A step that runs (R237, R289). -/
structure RunStep where
  tag : Nat := 0
  /-- Launch time, ns, STEP_DEADLINE in 100 us units, ENTRY in words (R287, R294). -/
  launch : Nat := 0
  deadline : Nat := 0
  entry : Nat := 0
  /-- Logical cores of the step (R287). -/
  cores : List Nat := []
  /-- Streams of the step with the vectors each gives (R247). -/
  streams : List (Nat × Nat) := []
  /-- Worst instruction status so far and the first failing instruction's address (R237, R488). -/
  worst : Nat := 0
  failAddr : Nat := 0
  /-- Abandoned with this status class: 0 no, 1 Program, 2 Unit, 3 Timing (R223). -/
  stopped : Nat := 0
  /-- Up time, ps, at which it started (R504). -/
  startAt : Nat := 0
  /-- Streams failed by a Stream-class status, with it (R223). -/
  failed : List (Nat × Nat) := []
  deriving DecidableEq, Repr, Inhabited

/-- One job slot (R230 to R236). -/
structure Job where
  /-- Job State, `0x4012:01` to `:08` (R234); FREE. -/
  st : JobSt := .free
  /-- Owner master (R259), and the port and ring that loaded it (R358), none for a fabric or twin owner. -/
  owner : Nat := 0
  ring : Option (Nat × Nat) := none
  tagOfLoad : Nat := 0
  /-- HBM address of the job record and the record's fields (R230). -/
  record : Nat := 0
  seed : Nat := 0
  mask : Nat := 0
  priority : Nat := 0
  kvFmt : Nat := 0
  kvLayers : Nat := 0
  kBytes : Nat := 0
  vBytes : Nat := 0
  saveBase : Nat := 0
  layerTable : Nat := 0
  stopTokens : List Nat := []
  cores : List CoreEntry := []
  kv : List KvArea := []
  layers : List Layer := []
  /-- Job Code (R341). -/
  code : Nat := 0
  /-- Step number of the last step started (R237). -/
  stepNo : Nat := 0
  step : Option RunStep := none
  /-- Up time, ps, of the last step's end (R247), and since which the job waits for the cores (R236). -/
  lastEnd : Nat := 0
  waitSince : Nat := 0
  /-- Frames taken: addresses of pages and of nodes (R243, R245). -/
  pages : List Nat := []
  nodes : List Nat := []
  /-- Saved state (R164). -/
  saved : List SavedCore := []
  hasSave : Bool := false
  /-- A change waits for the step's end: 1 HOLD, 2 UNLOAD, 3 switch out (R235). -/
  after : Nat := 0
  /-- Reissue due after a Unit-class stop (R472): the step abandoned. -/
  reissue : Option RunStep := none
  deriving DecidableEq, Repr, Inhabited

/-- A pending launch record (R286, R287). -/
structure Launch where
  time : Nat := 0
  tag : Nat := 0
  job : Nat := 0
  /-- Cross-device: arrived by frame or twin, or COORDINATED (R287). -/
  cross : Bool := false
  cores : Nat := 0
  epoch : Nat := 0
  entry : Nat := 0
  lateLimit : Nat := 0
  deadline : Nat := 0
  /-- Streams and vectors, for the firmware's own records (R247). -/
  streams : List (Nat × Nat) := []
  /-- Its lateness does not count: Kelig time stepped while it was pending (R279). -/
  excused : Bool := false
  /-- It waited for a step that throttling stretched (R294). -/
  stretched : Bool := false
  deriving DecidableEq, Repr, Inhabited

/-- One stream context (R239) and what the firmware keeps beside it. -/
structure Stream where
  st : StreamSt := .free
  job : Nat := 0
  priority : Nat := 0
  depth : Nat := 0
  owner : Nat := 0
  reason : Nat := 0
  position : Nat := 0
  root : Nat := 0
  ckptSeq : Nat := 0
  ckptPosition : Nat := 0
  frames : Nat := 0
  budget : Nat := 0
  lastStep : Nat := 0
  user : Nat := 0
  /-- Port and completion ring of its tokens (R358), none for a fabric owner. -/
  ring : Option (Nat × Nat) := none
  /-- Prompt tokens outstanding (R247), and forced tokens still to recompute (R343). -/
  prompt : List (BitVec 32) := []
  forced : List (BitVec 32) := []
  /-- Tokens generated so far (R237). -/
  generated : Nat := 0
  /-- Order of arrival in the queue and of admission (R247, R248). -/
  arrival : Nat := 0
  /-- A change waits for the step's end: 0 none, 1 PAUSE, 2 CLOSE (R241). -/
  after : Nat := 0
  /-- The next completion carries ADOPTED (R364). -/
  adopted : Bool := false
  /-- Adopted tokens are held until this Kelig ns (R337, R343). -/
  heldUntil : Nat := 0
  /-- Up time, ps, of the last checkpoint; layer and block of the pages written since; what the last one said, without pages;
  the position of one that awaits its answer; one has been acknowledged (R340). -/
  ckptAt : Nat := 0
  dirty : List (Nat × Nat) := []
  ckptLast : Option Checkpoint := none
  ckptWait : Option Nat := none
  ckptAcked : Bool := false
  /-- Something of it was delivered without an acknowledgement (R339). -/
  bare : Bool := false
  deriving DecidableEq, Repr, Inhabited

/-- The scheduler and the device-wide queues (R173, R236, R248, R249, R504). -/
structure Sched where
  /-- Running Job, `0x4012:0A` (R236); none. -/
  running : Option Nat := none
  /-- A switch in progress: the job being saved and the job to restore (R164). -/
  saving : Option Nat := none
  restoring : Option Nat := none
  /-- The job that left the cores last, for its regions (R236); none. -/
  lastOut : Option Nat := none
  /-- Pending launch records, oldest first, at most 4,096 (R286). -/
  launches : List Launch := []
  /-- Records ended, refused or cancelled, by job and tag, for tagged data (R290). -/
  closedTags : List (Nat × Nat) := []
  /-- Pool entries in use: HBM, fabric, host, and per core (R173, R249); 0. -/
  pools : Tbl Nat := []
  /-- HBM busy share, per mille, of the last interval, and of each stack (R248); 0. -/
  busy : Nat := 0
  /-- Arrivals counted for queue order (R248); 0. -/
  arrivals : Nat := 0
  /-- Stagger Lanes in force (R506); 8. -/
  lanes : Nat := 8
  /-- Tokens delivered, steps completed and bytes moved, for the statistics (R494); 0. -/
  tokens : Nat := 0
  steps : Nat := 0
  hbmBytes : Nat := 0
  deriving DecidableEq, Repr, Inhabited

/-- Epoch machinery (R295 to R299). -/
structure Epoch where
  /-- Epoch State, `0x2003:01`; STABLE. -/
  st : EpochSt := .stable
  /-- Staged values: entry key and value (R295); none. -/
  staged : List (Nat × Nat) := []
  /-- Values before the epoch, for REVERT (R299); none. -/
  before : List (Nat × Nat) := []
  /-- Commit time in force, ns (R296); and whether the commit is a REVERT or a RECOMMIT. -/
  commitAt : Nat := 0
  /-- 0 COMMIT, 1 RECOMMIT, 2 REVERT. -/
  kind : Nat := 0
  /-- The commit time has passed and values are being applied (R297). -/
  applying : Bool := false
  /-- The last number issued, not issued again after a REVERT, and the number before it was in force (R299); 1, 1. -/
  lastIssued : Nat := 1
  previous : Nat := 1
  /-- Values committed that a unit takes when it next starts (R297): unit reference and entries. -/
  later : List (Nat × List (Nat × Nat)) := []
  deriving DecidableEq, Repr, Inhabited

/-- A packet in an egress queue, with the port and class whose buffer space it holds (R315); none for the device's own. -/
structure Queued where
  pkt : Packet := {}
  from_ : Option (Nat × Nat) := none
  deriving DecidableEq, Repr, Inhabited

/-- One fabric port (R305 to R317). -/
structure Port where
  /-- Speed In Use: 0 none, 1 800 Gb/s, 2 400 Gb/s (R325); 0. -/
  speed : Nat := 0
  /-- Neighbour MAC (R308); 0. -/
  neighbour : Nat := 0
  /-- Link and neighbour are up separately (R305); false. -/
  link : Bool := false
  resolved : Bool := false
  /-- Up time, ps, of entry into the state (R305). -/
  since : Nat := 0
  /-- Transmit light available (R303, R305); false. -/
  light : Bool := false
  /-- Egress queues by class, oldest first (R314); empty. -/
  egress : List (Nat × List Queued) := []
  /-- Deficits of classes 0 to 5 (R314) and the class whose turn it is; 0. -/
  deficits : Tbl Nat := []
  turn : Nat := 0
  /-- Ingress bytes held by class, and those in headroom (R315, R316); 0. -/
  ingress : Tbl Nat := []
  headroom : Tbl Nat := []
  /-- Classes for which this port has sent a pause that stands (R316). -/
  pausing : List Nat := []
  /-- Received pauses: class, up time, ps, at which the pause ends, and since which the class has been paused (R316). -/
  paused : List (Nat × Nat × Nat) := []
  /-- Classes the watchdog holds, with the up time, ps, of the last pause (R316). -/
  storm : List (Nat × Nat) := []
  /-- Member of groups withdrawn by a command in progress: DISABLE, RETRAIN or RETIRE drains (R306). -/
  draining : Nat := 0
  /-- Up time, ps, at which the drain began (R306), and of the last solicitation (R308). -/
  drainAt : Nat := 0
  solicitAt : Option Nat := none
  /-- IEEE 802.3 PAUSE frames received (R304). -/
  plainPauses : Nat := 0
  deriving DecidableEq, Repr, Inhabited

/-- One queue pair (R319 to R322). -/
structure Qp where
  /-- The 64-byte context as written (R319), a little-endian number; 0. -/
  context : Nat := 0
  /-- STATE: 0 RESET, 1 INIT, 2 RTR, 3 RTS, 4 ERROR (R319); 0. -/
  st : Nat := 0
  /-- Next PSN to send, oldest unacknowledged and next expected (R321), 24 bits; 0. -/
  sendPsn : Nat := 0
  oldest : Nat := 0
  expect : Nat := 0
  /-- Retries used (R321); 0. -/
  retries : Nat := 0
  /-- Current and target rate, Mb/s, alpha in 2^-16, recovery rounds (R322). -/
  current : Nat := 0
  target : Nat := 0
  alpha : Nat := 0
  rounds : Nat := 0
  /-- A CNP arrived since the last timer event (R322); false. -/
  cnpSeen : Bool := false
  /-- Up time, ps, of the last CNP sent (R322). -/
  cnpAt : Option Nat := none
  deriving DecidableEq, Repr, Inhabited

/-- The fabric's tables (R311 to R324). -/
structure Fabric where
  /-- Route Table and ECMP Groups, as written (R311); empty. -/
  routes : List Byte := []
  groups : List Byte := []
  /-- Members of a group in the order of its base fill, where REMAP has put one in another's slots (R306, R312); ascending. -/
  order : Tbl (List Nat) := []
  deriving DecidableEq, Repr, Inhabited

/-- A mirrored stream of the partner (R340, R341, R345). -/
structure Mirror where
  ckpt : Checkpoint := {}
  /-- A checkpoint has been taken over: its pages hang in a page tree of their own, under the context numbered 65,536 above
  the partner's stream, which is no stream of this device (R341). -/
  have_ : Bool := false
  /-- Slot of the job with the same Job Code whose frames hold the mirror. -/
  job : Nat := 0
  /-- Log entries beyond the checkpoint, oldest first (R339). -/
  log : List LogEntry := []
  /-- In the adoption backlog (R345). -/
  backlog : Bool := false
  deriving DecidableEq, Repr, Inhabited

/-- A completion or token that waits for a log acknowledgement (R339). -/
structure Held where
  log : LogEntry := {}
  /-- The entry has been sent to the twin. -/
  sent : Bool := false
  /-- Master, and port and ring, of the completion. -/
  owner : Nat := 0
  ring : Option (Nat × Nat) := none
  entry : List Byte := []
  deriving DecidableEq, Repr, Inhabited

/-- Twin pairing (R327 to R354). -/
structure Twin where
  /-- Twin State, `0x2201:01` (R330); SOLO. -/
  st : TwinSt := .solo
  /-- The state before SUSPECT (R331). -/
  before : TwinSt := .solo
  /-- Kelig ns of entry into SUSPECT and of the last takeover (R334, R337). -/
  suspectAt : Nat := 0
  takeoverAt : Nat := 0
  /-- Up time, ps, at which the present attempt at formation started (R328). -/
  formAt : Nat := 0
  /-- Nonce sent in our HELLO; the partner's nonce, the twin port that its HELLO came by, and whether it has been answered
  (R328). -/
  nonce : List Byte := []
  partnerNonce : List Byte := []
  helloPort : Nat := 0
  answered : Bool := false
  /-- The partner accepted (R328): its public key and its serial. -/
  partnerKey : List Byte := []
  /-- Usable and mis-cabled twin ports, 0 to 7 (R328). -/
  usable : List Nat := []
  miscabled : List Nat := []
  /-- One-way delay of each usable port, ps, as measured at formation (R329). -/
  delays : Tbl Nat := []
  /-- SEQUENCE of the next frame sent (R332), 64 bits; 0. -/
  sequence : Nat := 0
  /-- Kelig ns of the latest heartbeat arrival and of the next deadline; misses in a row (R333). -/
  lastBeat : Nat := 0
  deadline : Nat := 0
  misses : Nat := 0
  /-- Kelig ns of the first PROBE; of the first heartbeat without a miss in LINK_DOWN (R331, R334). -/
  probeAt : Option Nat := none
  goodSince : Option Nat := none
  /-- Claims and releases sent and not answered: sequence, and true for a claim (R336). -/
  asked : List (Nat × Bool) := []
  /-- The witness's grant is held; a release awaits its answer (R336). -/
  grant : Bool := false
  releasing : Bool := false
  /-- Last relay counter (R335). -/
  relayCounter : Option Nat := none
  /-- Token log: last sequence issued, highest acknowledged by the twin, highest acknowledged to it (R332, R339). -/
  logSeq : Nat := 0
  logAcked : Nat := 0
  partnerAcked : Nat := 0
  /-- Completions held for the log (R339), and adopted tokens held for the fence time (R337). -/
  held : List Held := []
  fenceHeld : List Held := []
  /-- Mirrored streams of the partner (R340); none. -/
  mirrors : List Mirror := []
  /-- Cross-check records waiting for a bank, with the Kelig ns of arrival (R342). -/
  records : List (CrossCheck × Nat) := []
  /-- A handover in progress: 0 none, 1 stopping, 2 checkpoints sent; and whether a shutdown asked for it (R347). -/
  handover : Nat := 0
  handoverDown : Bool := false
  /-- FREE_CONTEXTS of the partner's last heartbeat since SYNCING was entered (R331, R332). -/
  partnerFree : Option Nat := none
  deriving DecidableEq, Repr, Inhabited

/-- One ring (R358 to R366). -/
structure Ring where
  /-- HEAD and TAIL, 12 bits each (R362); 0. -/
  head : Nat := 0
  tail : Nat := 0
  /-- CONTROL: SIZE_LOG2, VECTOR, IRQ_EN; ENABLE (R362); 0. -/
  sizeLog2 : Nat := 0
  enabled : Bool := false
  vector : Nat := 0
  irq : Bool := false
  /-- PHASE of the next entry (R362, R364); 0 while disabled. -/
  phase : Bool := false
  /-- Completions that wait, oldest first (R366). -/
  waiting : List (List Byte) := []
  deriving DecidableEq, Repr, Inhabited

/-- One host port (R355 to R372, R386 to R390). -/
structure HostPort where
  rings : List (Nat × Ring) := []
  /-- Link speed 0 to 5 and width code (R371); 0. -/
  speed : Nat := 0
  width : Nat := 0
  linkUp : Bool := false
  /-- Configuration space answers (R368), Bus Master Enable; false. -/
  configured : Bool := false
  busMaster : Bool := false
  /-- PERST# asserted (R367); true until its deassertion (PRESUMED). -/
  perst : Bool := true
  /-- log2 of BAR4's size in GiB (R356); 9. -/
  bar4Log2 : Nat := 9
  /-- MSI-X table: address in bits 63:0 and data in bits 95:64 of each entry (R357); 0 (log entry 3). -/
  msixTable : Tbl Nat := []
  /-- MSI-X: unmasked vectors, pending vectors (R365, R513); all masked, none pending. -/
  unmasked : List Nat := []
  msixPending : List Nat := []
  /-- Messages due: vector and the Kelig ns from which it may be sent; and the last message of each vector (R365). -/
  msixDue : List (Nat × Nat) := []
  msixLast : Tbl Nat := []
  /-- Read shadow: BAR0 offset of the value and high half (R370); none. -/
  readShadow : Option (Nat × Nat) := none
  /-- Write shadow: BAR0 offset and low half (R370); none. -/
  writeShadow : Option (Nat × Nat) := none
  /-- Access block: LENGTH, ERROR, ABORT, REFUSAL_ABORT, REFUSAL_ENTRY, REFUSED_WRITES, DATA (R389); 0. -/
  length : Nat := 0
  error : Bool := false
  abort : Nat := 0
  refusalAbort : Nat := 0
  refusalEntry : Nat := 0
  refusedWrites : Nat := 0
  data : List Byte := []
  deriving DecidableEq, Repr, Inhabited

/-- Firmware and attestation (R263 to R273). -/
structure Security where
  /-- The slots' states and images (R263, R265); PRESUMED slot A VALID, slot B EMPTY at delivery, non-volatile. -/
  slotA : SlotSt := .valid
  slotB : SlotSt := .empty
  imageA : List Byte := []
  imageB : List Byte := []
  /-- The booted slot (R264), 0 A and 1 B; and whether its firmware runs (R507). -/
  booted : Nat := 0
  running : Bool := false
  /-- Up time, ps, at which a TRIAL slot booted (R265); none. -/
  trialAt : Option Nat := none
  /-- The image that booted (R271); taken at the start. -/
  bootedImage : List Byte := []
  /-- Attestation: the report held, the up time, ps, of the last signature (R270, R271); none. -/
  report : List Byte := []
  lastSignature : Option Nat := none
  /-- The core in microcode update, with the DIGEST it takes (R268); none. -/
  updating : Option (Nat × Nat) := none
  /-- IDENTITY_LEAVES_LOW has been raised since the start (R270); false. -/
  leavesWarned : Bool := false
  deriving DecidableEq, Repr, Inhabited

/-- One loop (R403, R407, R419, R420). -/
structure Loop where
  /-- STATE (R407); OFF. -/
  st : LoopSt := .off
  /-- The configuration record of 64 bytes (R419), a little-endian number; 0 but for TYPE. -/
  config : Nat := 0
  /-- Coefficient banks A and B, 32 bytes each (R414); 0. -/
  bankA : Nat := 0
  bankB : Nat := 0
  /-- r, i_acc, d and y_prev of R403; +0.0. -/
  r : F32 := 0
  iAcc : F32 := 0
  d : F32 := 0
  yPrev : F32 := 0
  /-- u of the last computation and its i_cand (R403, R405); the computed output awaiting the strobe. -/
  u : F32 := 0
  iCand : F32 := 0
  due : Bool := false
  computed : Bool := false
  /-- Feedback y and error e of the last computation (R420). -/
  y : F32 := 0
  e : F32 := 0
  /-- The next computation is a hand-over (R409); and it is the first in TRACK, at which the plant model is seeded (R411). -/
  handOver : Bool := false
  seed : Bool := false
  /-- Sweeping: the sweep's present output (R410). -/
  sweep : Option F32 := none
  /-- Samples in a row within, and beyond, LOCK_BAND (R408). -/
  inBand : Nat := 0
  outBand : Nat := 0
  locked : Bool := false
  selected : Bool := false
  missed : Bool := false
  plaus : Bool := false
  clamped : Bool := false
  missRun : Nat := 0
  plausRun : Nat := 0
  /-- Plant model and the u_applied of the previous sample (R411). -/
  yHat : F32 := 0
  uLast : F32 := 0
  /-- Kelig ns of entry into ACQUIRE and the Acquisition Limit then in force, ms (R410, R421). -/
  acquireAt : Nat := 0
  acquireLimit : Nat := 50
  /-- MANUAL VALUE (R407). -/
  value : Nat := 0
  /-- The trim register that the loop writes (R399, R403). -/
  trim : Nat := 0
  deriving DecidableEq, Repr, Inhabited

/-- A test injection (R415). -/
structure Injection where
  loop : Nat := 0
  kind : Nat := 0
  atSetpoint : Bool := false
  amplitude : F32 := 0
  left : Nat := 0
  gen : Nat := 0
  stopWhenFull : Bool := false
  prbs : Nat := 0x7F
  /-- The value injected at the last sample (R416). -/
  last : F32 := 0
  deriving DecidableEq, Repr, Inhabited

/-- A loop command or configuration write that waits for the frame start (R401). -/
inductive LoopWrite
  | command (slot : Nat) (cmd : Nat) (value : Nat)
  | config (slot : Nat) (record : Nat)
  deriving DecidableEq, Repr, Inhabited

/-- One loop co-processor (R399 to R421). -/
structure LoopCore where
  loops : List (Nat × Loop) := []
  /-- Loop commands and configuration writes received since the last frame start (R401). -/
  waiting : List LoopWrite := []
  /-- A frame is open: its output strobe is still to come (R401); false. -/
  open_ : Bool := false
  /-- The injection in progress; the capture wheel, oldest first, and its position (R415, R416). -/
  injection : Option Injection := none
  capture : List (List Byte) := []
  captured : Nat := 0
  /-- This core hosts its cartridge's loops (R400); false. -/
  hosting : Bool := false
  deriving DecidableEq, Repr, Inhabited

/-- One DAC channel (R424 to R436). -/
structure Channel where
  /-- TARGET and OUTPUT, codes (R426); 0x8000 (R428). -/
  target : Nat := 0x8000
  output : Nat := 0x8000
  /-- The configuration record of 16 bytes (R445); SPAN of R424, no generator, LOW_LIMIT 0, HIGH_LIMIT 0xFFFF (log entry 3). -/
  config : Option Nat := none
  armed : Bool := false
  clipped : Bool := false
  driverFault : Bool := false
  faultValue : Bool := false
  /-- Up time, ps, of the span change in progress (R436). -/
  spanAt : Option Nat := none
  /-- Ticks until the next slew move, 0 for the next tick (R432). -/
  wait : Nat := 0
  /-- A Channel Write held for the next delivery (R430). -/
  held : Option Nat := none
  /-- The code that the converter received at the last tick (R426). -/
  code : Nat := 0x8000
  /-- What applies at the next tick: arming or disarming (R427), a configuration (R445), the fault value (R429). -/
  armNext : Option Bool := none
  configNext : Option Nat := none
  faultNext : Bool := false
  deriving DecidableEq, Repr, Inhabited

/-- One DAC group (R424, R430, R431). -/
structure DacGroup where
  /-- MODE and QUEUE_PERIOD in force (R430); STROBE. -/
  queueMode : Bool := false
  period : Nat := 0
  /-- Ticks counted since the mode was applied; the queue; in a run of underruns (R431). -/
  ticks : Nat := 0
  queue : List (List Nat) := []
  underrun : Bool := false
  /-- A Group Strobe waits for the tick (R430). -/
  strobe : Bool := false
  deriving DecidableEq, Repr, Inhabited

/-- One sine generator (R434). -/
structure Generator where
  ftw : Nat := 0
  phase : Nat := 0
  enable : Bool := false
  acc : Nat := 0
  /-- A write that waits for the frame start (R434): FTW, PHASE, ENABLE. -/
  next : Option (Nat × Nat × Bool) := none
  deriving DecidableEq, Repr, Inhabited

/-- One monitor ADC (R438 to R442). -/
structure Adc where
  /-- Conversions still to carry RECOVERY (R440); 0. -/
  recovery : Nat := 0
  /-- Reference conversions in a row beyond 64 LSB, and the scans counted (R442); 0. -/
  badRefs : Nat := 0
  deriving DecidableEq, Repr, Inhabited

/-- Sums of a demodulated source over its period (R441). -/
structure Demod where
  n : Nat := 0
  sum : Int := 0
  inPhase : Int := 0
  quadrature : Int := 0
  deriving DecidableEq, Repr, Inhabited

/-- The converters of one core (R422 to R448). -/
structure Converters where
  channels : List (Nat × Channel) := []
  groups : List (Nat × DacGroup) := []
  generators : List (Nat × Generator) := []
  adcs : List (Nat × Adc) := []
  /-- Latest codes of inputs 0 to 559 (R447); 0. -/
  codes : Tbl Nat := []
  /-- Sources being formed, by FB_SRC word, over 100 us and 1 ms (R441). -/
  demods : List (Nat × Demod) := []
  /-- Last value of each source, by FB_SRC word (R441). -/
  sources : Tbl F32 := []
  /-- Wheel: records oldest first, position, running, from the next scan (R443). -/
  wheel : List (List Byte) := []
  wheelPos : Nat := 0
  wheelArmed : Bool := false
  deriving DecidableEq, Repr, Inhabited

/-- One temperature sensor (R450, R455). -/
structure Sensor where
  /-- The last five samples, newest first, 0.1 degC (R450). -/
  samples : List Int := []
  broken : Bool := false
  selfCheckOk : Bool := true
  /-- Up time, ps, since which its reading differs by more than 25 degC, or since which its report is missing (R455). -/
  deviatesSince : Option Nat := none
  missingSince : Option Nat := none
  deriving DecidableEq, Repr, Inhabited

/-- One thermal zone (R452 to R459). -/
structure Zone where
  st : ZoneSt := .normal
  /-- Up time, ps, of entry into the state, and of the next evaluation of the throttle level (R452, R454). -/
  since : Nat := 0
  nextAt : Nat := 0
  /-- Throttle level 0 to 6 (R453); hottest working reading at the previous interval, 0.1 degC (R454). -/
  level : Nat := 0
  hotPrev : Int := 0
  /-- Hottest working readings of the last 5 ms, newest first: up time, ps, and 0.1 degC (R459). -/
  history : List (Nat × Int) := []
  /-- The shutdown is immediate (R459). -/
  immediate : Bool := false
  deriving DecidableEq, Repr, Inhabited

/-- Feeds and the governor (R22 to R28, R463, R464). -/
structure Power where
  /-- Feed states, 0 NORMAL, 1 OUT_OF_RANGE, 2 ABSENT (R463, R465); the feeds are normal when the part starts. -/
  feedA : Nat := 0
  feedB : Nat := 0
  /-- Up time, ps, since which every feed has been absent, and since which each feed is normal (R464, R518). -/
  absentSince : Option Nat := none
  normalA : Option Nat := none
  normalB : Option Nat := none
  /-- Governor levers: pace target per mille, digital issue in 1/24, windows in eighths, transaction rate in 1/24,
  admissions per step (R24); none in force. -/
  pace : Nat := 1000
  issue : Nat := 24
  windows : Nat := 8
  rate : Nat := 24
  admitLimit : Option Nat := none
  /-- Up time, ps, since which every lever is at its limit (R465), since which the draw is above the cap with them there (R27),
  and since which the draw is below 97 % of the cap (R24). -/
  limitSince : Option Nat := none
  overSince : Option Nat := none
  belowSince : Option Nat := none
  capUnmet : Bool := false
  /-- Up time, ps, since which some zone has been in THROTTLE (R466); none. -/
  throttleSince : Option Nat := none
  deriving DecidableEq, Repr, Inhabited

/-- An open alarm table entry (R491). -/
structure Alarm where
  source : Nat := 0
  code : Nat := 0
  /-- 0 FREE, 1 OPEN, 2 CLEARED. -/
  st : Nat := 0
  count : Nat := 0
  first : Nat := 0
  last : Nat := 0
  deriving DecidableEq, Repr, Inhabited

/-- An event record (R485). -/
structure Event where
  seq : Nat := 0
  time : Nat := 0
  code : Nat := 0
  severity : Nat := 0
  flags : Nat := 0
  source : Nat := 0
  detail : Nat := 0
  deriving DecidableEq, Repr, Inhabited

/-- One event sink (R489, R490). -/
structure Sink where
  /-- Waiting records, oldest first. -/
  records : List Event := []
  /-- In a storm, dropped in this period, drops of the period by severity code 4 to 1 (R490). -/
  storm : Bool := false
  period : Tbl Nat := []
  deriving DecidableEq, Repr, Inhabited

/-- Events and alarms (R484 to R494). -/
structure Events where
  /-- Next Sequence, `0x7000:01` (R485); 1. -/
  next : Nat := 1
  /-- Sequence of the last event of each severity (R397); 0. -/
  lastOf : Tbl Nat := []
  wheel : Sink := {}
  emergency : Sink := {}
  export_ : Sink := {}
  /-- The last sequence evicted from the wheel (R489, GAP); 0. -/
  evicted : Nat := 0
  alarms : List (Nat × Alarm) := []
  /-- Number of the next datagram, 32 bits (R489); 0. -/
  datagrams : Nat := 0
  datagramAt : Option Nat := none
  /-- Statistics Snapshot, 64 bytes (R494), and the counts at the last snapshot; 0. -/
  statistics : List Byte := []
  statBase : List Nat := []
  deriving DecidableEq, Repr, Inhabited

/-- A segmented SDO transfer in progress (R373, R381): what has come so far of a write, or is still to be sent of a read. -/
structure Sdo where
  index : Nat := 0
  sub : Nat := 0
  complete : Bool := false
  write : Bool := false
  toggle : Bool := false
  data : List Byte := []
  /-- Up time, ps, of the last segment (R381). -/
  at_ : Nat := 0
  deriving DecidableEq, Repr, Inhabited

/-- One resynchronisation summary (R396). -/
structure Summary where
  /-- Token of the request under way and its snapshot time, ns; none. -/
  request : Option (Nat × Nat) := none
  /-- The record latched at the snapshot time (R396 step 2); none. -/
  latched : Option (List Byte) := none
  /-- The summary held and its token (R396); empty, 0. -/
  held : List Byte := []
  ready : Nat := 0
  deriving DecidableEq, Repr, Inhabited

/-- A firmware, repair or cartridge matter of one cartridge (R477, R478, R481). -/
structure Cartridge where
  /-- Latch State: 0 absent, 1 latched, 2 unlatched (R481); 0. -/
  latch : Nat := 0
  serial : Nat := 0
  hours : Nat := 0
  /-- Up time, ps, of the last unlatching (R477). -/
  openedAt : Nat := 0
  /-- The interlock still has to cut or the disarm is done (R477). -/
  disarmed : Bool := true
  deriving DecidableEq, Repr, Inhabited

/-- The whole part. -/
structure State where
  /-- Commands waiting, first in, first out; empty. -/
  pending : List Instr := []
  /-- What the part has put out, oldest first; nothing. -/
  out : List Output := []
  clock : Clock := {}
  time : TimeState := {}
  run : RunInfo := {}
  /-- Dictionary entries of fixed size that hold a value of their own, by index x 256 + sub (15): the default of each entry
  is that of its chapter's table, R256 and R257. -/
  od : Tbl Nat := []
  /-- Units by unit reference (R385); each OFFLINE. -/
  units : Tbl UnitState := []
  /-- HBM, core stores and ring space (R225); every byte 0 (R507). -/
  mem : Mem := []
  /-- Scrub position of each stack, bytes into the pass (R470, R482); 0. -/
  stackScrub : Tbl Nat := []
  cores : Tbl Core := []
  /-- Engines by 34 x core + engine (R31). -/
  engines : Tbl Engine := []
  jobs : Tbl Job := []
  streams : Tbl Stream := []
  sched : Sched := {}
  /-- Pin Table (R395); empty. -/
  pins : List Nat := []
  epoch : Epoch := {}
  ports : Tbl Port := []
  qps : Tbl Qp := []
  fabric : Fabric := {}
  twin : Twin := {}
  hosts : Tbl HostPort := []
  /-- Next place in the fixed round of request rings, 0 A0, 1 B0, 2 A1, ... 15 B7 (R359); 0. -/
  round : Nat := 0
  security : Security := {}
  loops : Tbl LoopCore := []
  convs : Tbl Converters := []
  sensors : Tbl Sensor := []
  zones : Tbl Zone := []
  cartridges : Tbl Cartridge := []
  power : Power := {}
  events : Events := {}
  /-- EtherCAT AL state: 0 INIT, 1 PREOP, 2 SAFEOP, 3 OP (R373, R507); INIT. -/
  al : Nat := 0
  /-- The segmented transfer in progress (R381); none. -/
  sdo : Option Sdo := none
  /-- SM3 cycle time and sync type, 0x1C33 (R374); 0. -/
  sm3 : Nat := 0
  summaries : Tbl Summary := []
  /-- Stream Select of masters 1, 2 and 3 (R536); 0. -/
  selects : Tbl Nat := []
  /-- The model's own field, not the spec's: how many free values have been taken; DESIGN CHOICE 0 (log entry 4). -/
  free : Nat := 0
  deriving DecidableEq, Repr, Inhabited

/-- The part right after cold reset: every structure at the defaults above, which are the values of R507, R513 and the
chapters' tables; run state BOOT (R507), time 0 s in FREE-RUN (R275). -/
def State.reset : State := {}

/-- Why a step would stop with a fault. The part itself never stops (R484): its errors are statuses, events and counters. -/
inductive Fault
  /-- Raised by no command. It is there because the interface asks for a fault type; safe. -/
  | none
  deriving DecidableEq, Repr

/-- Why a step would be refused. -/
inductive Refusal
  /-- A row of the table without a meaning yet, by its mnemonic; raised by `exec`'s arm alone; safe. -/
  | notModelled (mnemonic : String)
  deriving DecidableEq, Repr

end Sys2Proof.Machine
end

