-- ==== Sys2Proof/Machine/Ops.lean ====
section
/-! DEFINITION. The named operations over the state: tables, bytes and memory, time, units, dictionary values. -/

namespace Sys2Proof.Machine

/-- The outcome of a command. -/
abbrev Result := Host.Outcome State Fault Refusal

-- tables

/-- The value of a key in a table: the listed one, else `d`. -/
def tgetD {α : Type} (d : α) : Tbl α → Nat → α
  | [], _ => d
  | (k, a) :: t, i => if i = k then a else tgetD d t i

/-- Insert or replace a value at its place in a table with rising keys. -/
def tput {α : Type} : Tbl α → Nat → α → Tbl α
  | [], i, a => [(i, a)]
  | (k, b) :: t, i, a =>
    if i < k then (i, a) :: (k, b) :: t else if i = k then (i, a) :: t else (k, b) :: tput t i a

/-- Set the value of a key in a table; nothing is listed that equals `d`. -/
def tsetD {α : Type} [DecidableEq α] (d : α) (t : Tbl α) (i : Nat) (a : α) : Tbl α :=
  if a = d then t.filter (fun x => x.1 ≠ i) else tput t i a

/-- The value of a key, the type's default where nothing is listed. -/
def tget {α : Type} [Inhabited α] (t : Tbl α) (i : Nat) : α := tgetD default t i

/-- Set the value of a key; the type's default is not listed. -/
def tset {α : Type} [Inhabited α] [DecidableEq α] (t : Tbl α) (i : Nat) (a : α) : Tbl α := tsetD default t i a

/-- Change the value of a key. -/
def tmod {α : Type} [Inhabited α] [DecidableEq α] (t : Tbl α) (i : Nat) (f : α → α) : Tbl α := tset t i (f (tget t i))

/-- Remove a key. -/
def tdel {α : Type} : Tbl α → Nat → Tbl α
  | [], _ => []
  | (k, b) :: t, i => if k = i then t else (k, b) :: tdel t i

/-- The value of a key if it is listed. -/
def tfind {α : Type} : Tbl α → Nat → Option α
  | [], _ => none
  | (k, a) :: t, i => if k = i then some a else tfind t i

-- bytes

/-- The `n` bytes of a number, least significant first (R10). -/
def leBytes (n v : Nat) : List Byte :=
  match n with
  | 0 => []
  | n + 1 => BitVec.ofNat 8 v :: leBytes n (v / 256)

/-- The number of a list of bytes, least significant first (R10). -/
def leNat : List Byte → Nat
  | [] => 0
  | b :: t => b.toNat + 256 * leNat t

/-- Bits `hi` down to `lo` of a number. -/
def bitsOf (v hi lo : Nat) : Nat := (v >>> lo) % 2 ^ (hi + 1 - lo)

/-- Bit `i` of a number. -/
def bitOf (v i : Nat) : Bool := (v >>> i) % 2 = 1

/-- A number of `n` bits as a two's complement integer. -/
def signed (n v : Nat) : Int := if v < 2 ^ (n - 1) then (v : Int) else (v : Int) - (2 : Int) ^ n

/-- An integer as `n` bits of two's complement. -/
def unsigned (n : Nat) (i : Int) : Nat := (i % (2 : Int) ^ n).toNat

/-- A little-endian field of `n` bytes at `off` of a list of bytes; bytes beyond the list are 0. -/
def field (bs : List Byte) (off n : Nat) : Nat := leNat ((bs.drop off).take n)

/-- Add to a counter of `bytes` bytes, which wraps (R63). -/
def wrapAdd (bytes a b : Nat) : Nat := (a + b) % 2 ^ (8 * bytes)

/-- The ceiling of a quotient. -/
def ceilDiv (a b : Nat) : Nat := (a + b - 1) / b

/-- A list padded with `d` or cut to `n` places. -/
def padTo {α : Type} (n : Nat) (d : α) (l : List α) : List α := l.take n ++ List.replicate (n - l.length) d

/-- Insert or replace `a` in place `i` of a list. -/
def setAt {α : Type} (l : List α) (i : Nat) (a : α) : List α := l.set i a

-- memory

/-- The byte at an address: an unlisted one is 0 (R507). -/
def Mem.get (m : Mem) (a : Nat) : Byte := tgetD 0 m a

/-- Store one byte; a byte of 0 is not listed. -/
def Mem.put (m : Mem) (a : Nat) (b : Byte) : Mem := tsetD 0 m a b

/-- `n` bytes from an address upward. -/
def Mem.read (m : Mem) (a : Nat) : Nat → List Byte
  | 0 => []
  | n + 1 => m.get a :: Mem.read m (a + 1) n

/-- Store bytes from an address upward. -/
def Mem.write (m : Mem) (a : Nat) : List Byte → Mem
  | [] => m
  | b :: bs => (m.put a b).write (a + 1) bs

/-- A little-endian number of `n` bytes at an address. -/
def Mem.num (m : Mem) (a n : Nat) : Nat := leNat (m.read a n)

/-- Copy bytes from one address to another; all are read before one is written. -/
def Mem.copy (m : Mem) (src dst n : Nat) : Mem := m.write dst (m.read src n)

/-- Set `n` bytes from an address to 0: the entries are dropped. -/
def Mem.clear (m : Mem) (a n : Nat) : Mem := m.filter (fun c => c.1 < a || a + n ≤ c.1)

/-- The listed bytes in a range. -/
def Mem.cells (m : Mem) (a n : Nat) : List Host.Cell := m.filter (fun c => a ≤ c.1 && c.1 < a + n)

/-- Store listed bytes. -/
def Mem.putCells (m : Mem) : List Host.Cell → Mem
  | [] => m
  | c :: cs => (m.put c.1 c.2).putCells cs

/-- Size of HBM, 480 GiB, and of one stack (R225). -/
def hbmSize : Nat := 0x7800000000
def stackSize : Nat := 0x600000000

/-- Base of the core store of a core, and its size (R225). -/
def storeBase (c : Nat) : Nat := 0x100000000000 + c * 0x100000000
def storeSize : Nat := 0x70000000

/-- Base of the ring space (R225). -/
def ringBase : Nat := 0x300100000000

-- time

/-- Kelig time in whole ns (R284). -/
def State.ns (s : State) : Nat := s.clock.now / 1000

/-- Time since power-up in ps. -/
def State.up (s : State) : Nat := s.clock.up

/-- One millisecond, one microsecond and one second in ps. -/
def msPs : Nat := 1000000000
def usPs : Nat := 1000000
def sPs : Nat := 1000000000000

/-- Kelig time moves on by `d` ps of the time base's ticks: a slew in progress adds or takes at most 2 ppm (R275). -/
def Clock.elapse (c : Clock) (d : Nat) : Clock :=
  let acc := c.slewAcc + 2 * d
  let part := min (acc / 1000000) c.slewLeft.natAbs
  if c.slewLeft = 0 then { c with now := c.now + d, up := c.up + d, slewAcc := 0 }
  else if 0 < c.slewLeft then
    { c with now := c.now + d + part, up := c.up + d, slewLeft := c.slewLeft - part, slewAcc := acc % 1000000 }
  else
    { c with now := c.now + d - part, up := c.up + d, slewLeft := c.slewLeft + part, slewAcc := acc % 1000000 }

/-- The state after `d` ps in which nothing else happens. -/
def State.elapse (s : State) (d : Nat) : State := { s with clock := s.clock.elapse d }

/-- A time of R274 as 12 bytes: seconds, ns and 2^-16 ns, from ps. -/
def timeBytes (ps : Nat) : List Byte :=
  leBytes 6 (ps / sPs) ++ leBytes 4 (ps % sPs / 1000) ++ leBytes 2 (ps % 1000 * 65536 / 1000)

/-- A 12-byte time as a number of 96 bits in whole ns (R284), and whether it is valid (R274). -/
def timeNs (v : Nat) : Nat := (v % 2 ^ 48) * 1000000000 + (v >>> 48) % 2 ^ 32
def timeValid (v : Nat) : Bool := (v >>> 48) % 2 ^ 32 ≤ 999999999

/-- A free value is taken (log entry 4). -/
def State.takeFree (s : State) : State := { s with free := s.free + 1 }

-- output

/-- Bytes are stored in the memory. -/
def State.storeBytes (s : State) (a : Nat) (bs : List Byte) : State := { s with mem := s.mem.write a bs }

/-- The part puts something out. -/
def State.emit (s : State) (o : Output) : State := { s with out := s.out ++ [o] }

-- units

/-- A unit reference as its 32-bit code (R385). -/
def UnitRef.code (u : UnitRef) : Nat :=
  let k := match u.kind with
    | .core => 1 | .engine => 2 | .drain => 3 | .skim => 4 | .tensor => 5 | .vector => 6 | .coproc => 7 | .dacGroup => 8
    | .adc => 9 | .port => 0xA | .stack => 0xB | .cartridge => 0xC | .hostPort => 0xD
  k * 0x1000000 + u.a * 256 + u.b

/-- The unit references of the kinds. -/
def coreRef (c : Nat) : Nat := 0x01000000 + c
def engineRef (c e : Nat) : Nat := 0x02000000 + c * 256 + e
def digitalRef (kind c : Nat) : Nat := kind * 0x1000000 + c
def coprocRef (c : Nat) : Nat := 0x07000000 + c
def dacRef (c g : Nat) : Nat := 0x08000000 + c * 256 + g
def adcRef (c v : Nat) : Nat := 0x09000000 + c * 256 + v
def portRef (n : Nat) : Nat := 0x0A000000 + n
def stackRef (m : Nat) : Nat := 0x0B000000 + m
def cartRef (l : Nat) : Nat := 0x0C000000 + l
def hostRef (p : Nat) : Nat := 0x0D000000 + p

/-- Kind code, A and B of a unit reference. -/
def refKind (r : Nat) : Nat := r / 0x1000000
def refA (r : Nat) : Nat := r / 256 % 256
def refB (r : Nat) : Nat := r % 256

/-- The unit exists (R4, R385). -/
def refExists (r : Nat) : Bool :=
  let k := refKind r
  (r / 65536 % 256 = 0) &&
  (if k = 1 ∨ (3 ≤ k ∧ k ≤ 7) then refA r = 0 ∧ refB r < 16
   else if k = 2 then refA r < 16 ∧ refB r < 34
   else if k = 8 then refA r < 16 ∧ refB r < 35
   else if k = 9 then refA r < 16 ∧ refB r < 68
   else if k = 0xA then refA r = 0 ∧ refB r < 128
   else if k = 0xB then refA r = 0 ∧ refB r < 20
   else if k = 0xC then refA r = 0 ∧ refB r < 8
   else if k = 0xD then refA r = 0 ∧ refB r < 2
   else False)

/-- Code of a unit state (R385). -/
def UnitSt.code : UnitSt → Nat
  | .offline => 0 | .starting => 1 | .ready => 2 | .serving => 3 | .fenced => 4 | .repair => 5 | .retired => 6

/-- The state of a unit. -/
def State.unit (s : State) (r : Nat) : UnitSt := (tget s.units r).st

/-- Change the bookkeeping of a unit. -/
def State.modUnit (s : State) (r : Nat) (f : UnitState → UnitState) : State := { s with units := tmod s.units r f }

/-- The unit is READY or SERVING. -/
def UnitSt.works (u : UnitSt) : Bool := u = .ready || u = .serving

/-- The unit is FENCED, REPAIR, RETIRED or OFFLINE (R157). -/
def UnitSt.out (u : UnitSt) : Bool := u = .fenced || u = .repair || u = .retired || u = .offline

/-- Set a unit's state alone. -/
def State.putUnit (s : State) (r : Nat) (st : UnitSt) : State := s.modUnit r (fun u => { u with st := st })

-- parts of the state

def State.core (s : State) (c : Nat) : Core := tget s.cores c
def State.modCore (s : State) (c : Nat) (f : Core → Core) : State := { s with cores := tmod s.cores c f }
def State.eng (s : State) (c e : Nat) : Engine := tget s.engines (34 * c + e)
def State.modEng (s : State) (c e : Nat) (f : Engine → Engine) : State :=
  { s with engines := tmod s.engines (34 * c + e) f }
def State.job (s : State) (j : Nat) : Job := tget s.jobs j
def State.modJob (s : State) (j : Nat) (f : Job → Job) : State := { s with jobs := tmod s.jobs j f }
def State.stream (s : State) (n : Nat) : Stream := tget s.streams n
def State.modStream (s : State) (n : Nat) (f : Stream → Stream) : State := { s with streams := tmod s.streams n f }
def State.port (s : State) (n : Nat) : Port := tget s.ports n
def State.modPort (s : State) (n : Nat) (f : Port → Port) : State := { s with ports := tmod s.ports n f }
def State.qp (s : State) (n : Nat) : Qp := tget s.qps n
def State.modQp (s : State) (n : Nat) (f : Qp → Qp) : State := { s with qps := tmod s.qps n f }
def State.host (s : State) (p : Nat) : HostPort := tget s.hosts p
def State.modHost (s : State) (p : Nat) (f : HostPort → HostPort) : State := { s with hosts := tmod s.hosts p f }
def State.loopCore (s : State) (c : Nat) : LoopCore := tget s.loops c
def State.modLoops (s : State) (c : Nat) (f : LoopCore → LoopCore) : State := { s with loops := tmod s.loops c f }
def State.conv (s : State) (c : Nat) : Converters := tget s.convs c
def State.modConv (s : State) (c : Nat) (f : Converters → Converters) : State := { s with convs := tmod s.convs c f }
def State.zone (s : State) (z : Nat) : Zone := tget s.zones z
def State.modZone (s : State) (z : Nat) (f : Zone → Zone) : State := { s with zones := tmod s.zones z f }
def State.cart (s : State) (l : Nat) : Cartridge := tget s.cartridges l
def State.modCart (s : State) (l : Nat) (f : Cartridge → Cartridge) : State :=
  { s with cartridges := tmod s.cartridges l f }

/-- A plane of an engine. -/
def Engine.plane (e : Engine) (p : Nat) : Plane := if p = 0 then e.plane0 else e.plane1
def Engine.modPlane (e : Engine) (p : Nat) (f : Plane → Plane) : Engine :=
  if p = 0 then { e with plane0 := f e.plane0 } else { e with plane1 := f e.plane1 }

/-- The plane behind a logical bank (R90). -/
def Engine.planeOf (e : Engine) (bank : Nat) : Nat := if bank = 0 then e.b0 else 1 - e.b0

/-- The logical bank of a plane. -/
def Engine.bankOf (e : Engine) (p : Nat) : Nat := if p = e.b0 then 0 else 1

/-- A queue of a core (R171): 0 to 33 engines, 34 to 65 stand-in slots, 66 drain, 67 skim, 68 tensor, 69 vector, 70 DMA,
71 control. -/
def Core.queue (c : Core) (q : Nat) : List Nat := tget c.queues q
def Core.setQueue (c : Core) (q : Nat) (l : List Nat) : Core := { c with queues := tset c.queues q l }

/-- An operation of a core's table (R170). -/
def Core.op (c : Core) (n : Nat) : Option Op := tfind c.ops n
def Core.modOp (c : Core) (n : Nat) (f : Op → Op) : Core :=
  { c with ops := c.ops.map (fun x => if x.1 = n then (x.1, f x.2) else x) }

-- dictionary values

/-- The key of an entry. -/
def odKey (index sub : Nat) : Nat := index * 256 + sub

/-- The value after cold reset of an entry (R380), 0 for none. -/
def odDefault (key : Nat) : Nat :=
  match odRow (key / 256) (key % 256) with
  | some r => r.dflt
  | none => 0

/-- The value that an entry holds. -/
def State.val (s : State) (index sub : Nat) : Nat :=
  match tfind s.od (odKey index sub) with
  | some v => v
  | none => odDefault (odKey index sub)

/-- A signed entry's value. -/
def State.valInt (s : State) (index sub bits : Nat) : Int := signed bits (s.val index sub)

/-- A BOOLEAN entry's value. -/
def State.flag (s : State) (index sub : Nat) : Bool := s.val index sub = 1

/-- Set an entry's value; the value after cold reset is not listed. -/
def State.setVal (s : State) (index sub v : Nat) : State :=
  { s with od := tsetD (odDefault (odKey index sub)) s.od (odKey index sub) v }

/-- Add to a counter, which wraps at its width (R63). -/
def State.bump (s : State) (index sub n : Nat) : State :=
  if n = 0 then s else
  match odRow index sub with
  | some r => s.setVal index sub (wrapAdd r.bytes (s.val index sub) n)
  | none => s

/-- Raise a peak or worst-value entry to a value. -/
def State.raiseTo (s : State) (index sub v : Nat) : State :=
  if s.val index sub < v then s.setVal index sub v else s

/-- Index of the engine object and of the per-core objects (R63, R64). -/
def engIdx (c e : Nat) : Nat := 0x5100 + 0x40 * c + e
def coreIdx (c : Nat) : Nat := 0x5000 + c

/-- Apply a function to each number below `n` in turn. -/
def forRange {α : Type} (n : Nat) (a : α) (f : α → Nat → α) : α := (List.range n).foldl f a

end Sys2Proof.Machine
end

