-- ==== Sys2Proof/Machine/Levers.lean ====
section
/-! DEFINITION. The levers of the governor and of thermal throttling as they combine, and the stretch factor of a core
(R24, R26, R62, R181, R293, R453). -/

namespace Sys2Proof.Machine

/-- The largest throttle level among some zones (R453). -/
def State.throttleOf (s : State) (zones : List Nat) : Nat :=
  zones.foldl (fun m z => if (s.zone z).st = .throttle then max m (s.zone z).level else m) 0

/-- The zones that limit the window rate of a core; its pace and its digital issue (R449, R453). -/
def windowZones (c : Nat) : List Nat := [2 * c, 2 * c + 1, 53 + c / 2, 61]
def paceZones (c : Nat) : List Nat := [2 * c, 2 * c + 1, 61]

/-- The window-rate limit r of a core, in eighths: 8 for none (R26, R62, R453). -/
def State.windowRate (s : State) (c : Nat) : Nat := min s.power.windows (8 - s.throttleOf (windowZones c))

/-- The lowest of the pace target set, the governor's and the thermal one, per mille (R181, R453). -/
def State.paceTarget (s : State) (c : Nat) : Nat :=
  let set := s.val 0x4002 1
  let t := s.throttleOf (paceZones c)
  min set (min s.power.pace (if t = 0 then set else max 600 (set - 60 * t)))

/-- The share of digital issue slots granted, in 1/24 (R24, R453). -/
def State.issueShare (s : State) (c : Nat) : Nat := min s.power.issue (24 - 2 * s.throttleOf (paceZones c))

/-- The transaction rate share of HBM, fabric and host traffic, and of one stack, in 1/24 (R24, R453). -/
def State.rateShare (s : State) : Nat := min s.power.rate (24 - 2 * s.throttleOf [32])
def State.stackShare (s : State) (m : Nat) : Nat := min s.rateShare (24 - 2 * s.throttleOf [33 + m])

/-- The larger of two quotients. -/
def maxRatio (a b : Nat × Nat) : Nat × Nat := if a.1 * b.2 < b.1 * a.2 then b else a

/-- The stretch factor of a core (R293). -/
def State.stretch (s : State) (c : Nat) : Nat × Nat :=
  maxRatio (maxRatio (8, s.windowRate c) (s.val 0x4002 1, (s.core c).target)) (24, s.issueShare c)

/-- A core's step keeps the largest stretch factor that it meets (R294). -/
def State.restretch (s : State) (c : Nat) : State :=
  let r := s.stretch c
  s.modCore c (fun k => { k with step := k.step.map (fun x => { x with sigmaMax := maxRatio x.sigmaMax r }) })

/-- The same on every core, after levers have changed. -/
def State.restretchAll (s : State) : State := forRange 16 s State.restretch

end Sys2Proof.Machine
end

