-- ==== Sys2Proof/Machine/Flags.lean ====
section
/-! DEFINITION. What the part raises: MSI-X vectors, event records with their sinks and storms, the alarm table and the
changes of unit states that clear alarms (R365, R484 to R493). -/

namespace Sys2Proof.Machine

-- MSI-X (R365)

/-- A vector of a port is signalled: a masked one becomes pending; else a message falls due unless one is due already. -/
def State.signalVector (s : State) (p v : Nat) : State :=
  let h := s.host p
  if v ∉ h.unmasked then
    (if v ∈ h.msixPending then s else s.modHost p (fun h => { h with msixPending := h.msixPending ++ [v] }))
  else if (tfind h.msixDue v).isSome then s
  else
    let at_ := match tfind h.msixLast v with
      | some t => max s.ns (t + 1000 * s.val (0x2500 + p) 8)
      | none => s.ns
    s.modHost p (fun h => { h with msixDue := h.msixDue ++ [(v, at_)] })

/-- The vector that events use on a port is signalled, if there is one (R489). -/
def State.signalEvents (s : State) (p : Nat) : State :=
  let v := s.val 0x7004 (p + 1)
  if v = 0xFFFF then s else s.signalVector p v

-- event records (R485, R486)

/-- The severity of an event code: 0 ALARM, 1 FAULT, 2 WARN, 3 INFO (R486). -/
def severityOf (code : Nat) : Nat :=
  if code ∈ [0x0102, 0x0112, 0x0114, 0x0201, 0x0302, 0x0502, 0x0503, 0x0504, 0x0604, 0x0703, 0x0704, 0x0706] then 0
  else if code ∈ [0x0202, 0x0205, 0x0301, 0x0303, 0x0405, 0x0602, 0x0603, 0x0605, 0x0607, 0x0705] then 1
  else if code ∈ [0x0101, 0x0110, 0x0501, 0x0507] then 3
  else 2

/-- An event record as 32 bytes, with GAP where asked (R485). -/
def Event.bytes (e : Event) (gap : Bool) : List Byte :=
  leBytes 8 e.seq ++ leBytes 8 e.time ++ leBytes 2 e.code ++ leBytes 1 e.severity ++
  leBytes 1 (e.flags + if gap then 4 else 0) ++ leBytes 4 e.source ++ leBytes 8 e.detail

/-- The sinks: 0 event wheel, 1 CoE Emergency, 2 fabric export (R489). -/
def Events.sink (e : Events) (k : Nat) : Sink := if k = 0 then e.wheel else if k = 1 then e.emergency else e.export_
def Events.modSink (e : Events) (k : Nat) (f : Sink → Sink) : Events :=
  if k = 0 then { e with wheel := f e.wheel }
  else if k = 1 then { e with emergency := f e.emergency }
  else { e with export_ := f e.export_ }

/-- Capacities and filters of the sinks (R489). -/
def sinkCapacity (k : Nat) : Nat := if k = 0 then 8192 else if k = 1 then 64 else 4096
def State.sinkFilter (s : State) (k : Nat) : Nat := s.val 0x7000 (if k = 0 then 7 else if k = 1 then 2 else 3)

/-- A record is a STORM_SUMMARY. -/
def Event.summary (e : Event) : Bool := e.code = 0x0803

/-- The records of a sink that do not sit in its reserve: no ALARM, no undelivered summary, and of the wheel not its newest
summary (R490; log entry 6). -/
def ordinary (k : Nat) (l : List Event) : List Event :=
  let newest := (l.filter Event.summary).getLast?
  l.filter (fun e => !(e.severity = 0) && !(e.summary && (k != 0 || some e == newest)))

/-- Some attached master's cursor lies before a record (R489, R490). -/
def State.unread (s : State) (seq : Nat) : Bool :=
  [4, 5, 6].any (fun c => let v := s.val 0x7003 c
    v != 0xFFFFFFFFFFFFFFFF && v < seq)

/-- A record is lost from a sink: a drop counts, begins a storm and counts in its period (R490). -/
def State.drop (s : State) (k : Nat) (e : Event) : State :=
  let s := if k = 0 then { s with events := { s.events with evicted := max s.events.evicted e.seq } } else s
  if k = 0 && !s.unread e.seq then s
  else
    let s := s.bump 0x7002 (1 + 4 * k + (4 - e.severity)) 1
    let begins := !(s.events.sink k).storm
    let s := { s with events := s.events.modSink k (fun sk =>
      { sk with storm := true, period := tmod sk.period e.severity (· + 1) }) }
    if begins then (s.bump 0x7005 2 1).setVal 0x7005 1 (s.val 0x7005 1 ||| (1 <<< k)) else s

/-- The highest severity code among records. -/
def worstOf (l : List Event) : Nat := l.foldl (fun m e => max m e.severity) 0

/-- A record without the first that has the severity code and is not in the reserve. -/
def dropOldest (k : Nat) (sev : Nat) (l : List Event) : Option Event × List Event :=
  match (ordinary k l).find? (fun e => e.severity = sev) with
  | none => (none, l)
  | some v => (some v, l.erase v)

/-- The counts of two STORM_SUMMARY details added, each saturating (R490). -/
def addSummaries (a b : Nat) : Nat :=
  let part (lo w : Nat) : Nat := min (bitsOf a (lo + w - 1) lo + bitsOf b (lo + w - 1) lo) (2 ^ w - 1) <<< lo
  part 0 16 + part 16 16 + part 32 16 + part 48 12 + (bitsOf b 63 60 <<< 60)

/-- A record arrives at a sink (R489, R490). -/
def State.offer (s : State) (k : Nat) (e : Event) : State :=
  let l := (s.events.sink k).records
  if e.summary && k != 0 && l.any Event.summary then
    { s with events := s.events.modSink k (fun sk => { sk with records := sk.records.map (fun r =>
        if r.summary then { r with detail := addSummaries r.detail e.detail } else r) }) }
  else
    let all := l ++ [e]
    let full := sinkCapacity k < (ordinary k all).length
    let worst := worstOf (ordinary k all)
    if full && e.severity = worst && e.severity != 0 && !(e.summary) then s.drop k e
    else
      let r := if full then dropOldest k worst all else (none, all)
      let s := { s with events := s.events.modSink k (fun sk => { sk with records := r.2 }) }
      let s := match r.1 with
        | some v => s.drop k v
        | none => s
      if k = 0 then (s.signalEvents 0).signalEvents 1 else s

/-- A record of the next SEQUENCE is made (R485). -/
def State.record (s : State) (code sev source detail : Nat) (clear : Bool) : Event :=
  { seq := s.events.next, time := s.ns, code := code, severity := sev, source := source, detail := detail,
    flags := (if clear then 1 else 0) + (if s.time.lock = .locked then 0 else 2) }

/-- A record is given its SEQUENCE and is offered to the sinks listed (R485, R489). -/
def State.emitRecord (s : State) (code sev source detail : Nat) (clear : Bool) (sinks : List Nat) : State :=
  let e := s.record code sev source detail clear
  let s := { s with events := { s.events with next := e.seq + 1, lastOf := tset s.events.lastOf sev e.seq } }
  sinks.foldl (fun s k => s.offer k e) s

/-- The sinks whose filter admits a severity (R489). -/
def State.admitting (s : State) (sev : Nat) : List Nat := [0, 1, 2].filter (fun k => sev ≤ s.sinkFilter k)

-- alarms (R491)

/-- The number of open alarms, and whether one is open. -/
def State.openAlarms (s : State) : Nat := (s.events.alarms.filter (fun a => a.2.st = 1)).length

/-- An ALARM meets the alarm table: the new table, and whether a record is emitted (R491). -/
def alarmRaise (t : List (Nat × Alarm)) (source code now : Nat) : List (Nat × Alarm) × Bool :=
  match t.find? (fun a => a.2.st = 1 && a.2.source = source && a.2.code = code) with
  | some a => (tset t a.1 { a.2 with count := min (a.2.count + 1) 0xFFFFFFFF, last := now }, false)
  | none =>
    let fresh : Alarm := { source := source, code := code, st := 1, count := 1, first := now, last := now }
    match t.find? (fun a => a.2.st = 2 && a.2.source = source && a.2.code = code) with
    | some a => (tset t a.1 fresh, true)
    | none =>
      match (List.range 1024).find? (fun i => (tget t i).st = 0) with
      | some i => (tset t i fresh, true)
      | none =>
        let o := tget t 1023
        if o.st = 1 && o.source = 0xFFFFFFFF && o.code = 0xFFFF then
          (tset t 1023 { o with count := min (o.count + 1) 0xFFFFFFFF, last := now }, true)
        else (tset t 1023 { fresh with source := 0xFFFFFFFF, code := 0xFFFF }, true)

/-- The alarm table is written. -/
def State.putAlarms (s : State) (t : List (Nat × Alarm)) : State := { s with events := { s.events with alarms := t } }

/-- An event is raised (R484 to R491). -/
def State.raise (s : State) (code source detail : Nat) : State :=
  let sev := severityOf code
  if sev = 0 then
    let r := alarmRaise s.events.alarms source code s.ns
    let s := s.putAlarms r.1
    if r.2 then s.emitRecord code 0 source detail false (s.admitting 0) else s
  else s.emitRecord code sev source detail false (s.admitting sev)

/-- The all-clear Emergency is queued (R377). -/
def State.queueAllClear (s : State) : State :=
  { s with events := s.events.modSink 1 (fun sk =>
    { sk with records := sk.records ++ [{ seq := s.events.next - 1, time := s.ns }] }) }

/-- An entry of the alarm table clears (R491); with the last open one the all-clear Emergency is queued (R377). -/
def State.clearEntry (s : State) (i : Nat) : State :=
  let a := tget s.events.alarms i
  if a.st ≠ 1 then s
  else
    let s := s.putAlarms (tset s.events.alarms i { a with st := 2 })
    let s := s.emitRecord a.code 0 a.source (i + (a.count <<< 32)) true (s.admitting 0)
    if s.openAlarms = 0 then s.queueAllClear else s

/-- Every open alarm of a source clears. -/
def State.clearSource (s : State) (source : Nat) : State :=
  (s.events.alarms.filter (fun a => a.2.source = source && a.2.st = 1)).foldl (fun s a => s.clearEntry a.1) s

/-- An open alarm of a code and source clears: the state that raised it has ended (R491). -/
def State.clearAlarm (s : State) (code source : Nat) : State :=
  (s.events.alarms.filter (fun a => a.2.source = source && a.2.code = code && a.2.st = 1)).foldl
    (fun s a => s.clearEntry a.1) s

-- what an epoch has for a unit (R297)

/-- A field of 32 bits of a number, and the number with the field replaced. -/
def word32 (v i : Nat) : Nat := v >>> (32 * i) % 2 ^ 32
def setWord32 (v i w : Nat) : Nat := v - word32 v i <<< (32 * i) + w <<< (32 * i)

/-- A committed value acts on a unit: a co-processor's Bank Select Map, whose loops change bank bumplessly (R409, R414), or a
group's word of the Group Mode Table, which starts the mode afresh (R430). -/
def State.applyStaged (s : State) (r key v : Nat) : State :=
  let index := key / 256
  let sub := key % 256
  let old := s.val index sub
  if refKind r = 7 then
    (s.setVal index sub v).modLoops (refB r) (fun k => { k with loops := k.loops.map (fun (x : Nat × Loop) =>
      if bitOf old x.1 != bitOf v x.1 && (x.2.st = .acquire || x.2.st = .track) then (x.1, { x.2 with handOver := true }) else x) })
  else
    let g := refB r
    let w := word32 v g
    (s.setVal index sub (setWord32 old g w)).modConv (refA r) (fun k => { k with groups := tmod k.groups g (fun x =>
      { x with queueMode := w % 2 = 1, period := w / 65536, ticks := 0, queue := [], underrun := false }) })

/-- A unit that starts takes what was committed while it was out of service. -/
def State.takeLater (s : State) (r : Nat) : State :=
  match s.epoch.later.find? (fun x => x.1 = r) with
  | none => s
  | some x =>
    x.2.foldl (fun s v => s.applyStaged r v.1 v.2)
      { s with epoch := { s.epoch with later := s.epoch.later.filter (fun y => y.1 != r) } }

-- unit states

/-- A unit enters a state; alarms of a unit that reaches READY or SERVING clear, and it takes committed values (R297, R385,
R491). -/
def State.setUnit (s : State) (r : Nat) (st : UnitSt) : State :=
  let s := s.putUnit r st
  if st.works then (s.clearSource r).takeLater r else s

/-- A unit is FENCED. -/
def State.anyFenced (s : State) : Bool := s.units.any (fun u => u.2.st = .fenced)

/-- The Error Register `0x1001:00` (R391): bit 0 an alarm is open, bit 7 a unit is FENCED. -/
def State.errorRegister (s : State) : Nat :=
  (if s.openAlarms = 0 then 0 else 1) + (if s.anyFenced then 0x80 else 0)

/-- A record as a CoE Emergency (R377). -/
def Event.emergency (e : Event) (register : Nat) : List Byte :=
  leBytes 2 (if e.code = 0 then 0 else 0xFF00) ++ leBytes 1 register ++ leBytes 2 e.code ++ leBytes 1 e.severity ++
  [0] ++ leBytes 1 (e.seq % 256)

/-- Code of a run state (R392). -/
def RunSt.code : RunSt → Nat
  | .off => 0 | .boot => 1 | .standby => 2 | .warming => 3 | .ready => 4 | .serving => 5 | .draining => 6 | .safe => 7
  | .shutdown => 8

/-- The run state changes: counted, timed and reported (R394, R486). -/
def State.runTo (s : State) (st : RunSt) : State :=
  if s.run.st = st then s
  else
    let old := s.run.st
    let s := { s with run := { s.run with st := st, since := s.up } }
    let s := s.setVal 0x2000 1 st.code
    let s := s.bump 0x2000 3 1
    s.raise 0x0101 0 (st.code + old.code * 256)

/-- Code of a twin state (R330). -/
def TwinSt.code : TwinSt → Nat
  | .solo => 0 | .forming => 1 | .syncing => 2 | .paired => 3 | .suspect => 4 | .linkDown => 5 | .takingOver => 6
  | .degraded => 7 | .selfFenced => 8

/-- Codes of lock, epoch, job, stream, bank and zone states. -/
def LockSt.code : LockSt → Nat | .freeRun => 0 | .holdover => 1 | .locked => 2
def EpochSt.code : EpochSt → Nat | .stable => 0 | .pending => 1 | .committing => 2 | .mixed => 3
def JobSt.code : JobSt → Nat
  | .free => 0 | .loading => 1 | .ready => 2 | .running => 3 | .held => 4 | .faulted => 5 | .unloading => 6
def StreamSt.code : StreamSt → Nat
  | .free => 0 | .queued => 1 | .active => 2 | .idle => 3 | .restoring => 4 | .closing => 5 | .failed => 6
def BankSt.code : BankSt → Nat | .empty => 0 | .writing => 1 | .verified => 2 | .live => 3 | .refreshing => 4

end Sys2Proof.Machine
end

