-- ==== Sys2Proof/Machine/Access.lean ====
section
/-! DEFINITION. Masters, rights and the checks of the access tables (R253 to R262, R535, R536), and what the ranges of the
device address map hold (R225). -/

namespace Sys2Proof.Machine

/-- The rights bits (R255). -/
def rightR : Nat := 0
def rightW : Nat := 1
def rightProg : Nat := 2
def rightLaunch : Nat := 3
def rightAdmin : Nat := 4

/-- The rights that a grant gives a master (R255). -/
def grantRights (v m : Nat) : Nat := if v % 4096 ≤ m ∧ m ≤ v / 4096 % 4096 then v / 0x1000000 % 32 else 0

/-- The OR of the rights of the grants `count` sub-indices from `sub` (R255); master 0 holds every right. -/
def State.rightsAt (s : State) (m index sub count : Nat) : Nat :=
  if m = 0 then 31
  else (List.range count).foldl (fun acc i => acc ||| grantRights (s.val index (sub + i)) m) 0

/-- The rights of a master at each kind of target (R256). -/
def State.hbmRights (s : State) (m r : Nat) : Nat := s.rightsAt m (0x3020 + r) 3 8
def State.storeRights (s : State) (m c n : Nat) : Nat := s.rightsAt m (0x3060 + c) (3 + 6 * n) 4
def State.bankRights (s : State) (m c : Nat) : Nat := s.rightsAt m 0x3070 (1 + 4 * c) 4
def State.launchRights (s : State) (m c : Nat) : Nat := s.rightsAt m 0x3071 (1 + 4 * c) 4
def State.streamRights (s : State) (m : Nat) : Nat := s.rightsAt m 0x3072 1 8
def State.classRights (s : State) (m k : Nat) : Nat := s.rightsAt m 0x3073 (1 + 4 * k) 4

/-- A master holds a right of a set. -/
def has (rights bit : Nat) : Bool := bitOf rights bit

/-- The master of a dictionary road (R253). -/
def roadMaster : Road → Nat
  | .coe => 1
  | .host p => 2 + p.val

-- fabric peers

/-- A number of bytes, most significant first. -/
def beNat (bs : List Byte) : Nat := bs.foldl (fun a b => 256 * a + b.toNat) 0

/-- The address and prefix length of a peer entry, if it is valid (R254). -/
def peerOf (v : Nat) : Option (Nat × Nat) :=
  if v / 2 ^ 136 % 2 = 1 then some (beNat (leBytes 16 v), v / 2 ^ 128 % 256) else none

/-- The master ID of a source address: the longest prefix, then the lowest ID (R254). -/
def State.peerMaster (s : State) (addr : BitVec 128) : Option Nat :=
  let hit := s.od.filterMap (fun e =>
    if 0x301000 ≤ e.1 ∧ e.1 < 0x302000 then
      match peerOf e.2 with
      | some (a, len) =>
        if len ≤ 128 ∧ a >>> (128 - len) = addr.toNat >>> (128 - len) then
          some (len, 16 + 255 * (e.1 / 256 - 0x3010) + (e.1 % 256 - 1))
        else none
      | none => none
    else none)
  (hit.foldl (fun (best : Option (Nat × Nat)) h =>
    match best with
    | none => some h
    | some b => if b.1 < h.1 then some h else some b) none).map Prod.snd

-- refusals

/-- A refused request (R260, R487): counted, recorded and raised. `lacking` is the set of rights lacking. -/
def State.deny (s : State) (m : Option Nat) (addr lacking : Nat) : State :=
  let id := m.getD 0xFFFF
  let s := s.bump 0x3000 1 1
  let s := s.setVal 0x3000 2 id
  let s := s.setVal 0x3000 3 addr
  s.raise 0x0801 id (addr % 2 ^ 48 + lacking % 32 * 2 ^ 48)

/-- A request refused at a dictionary entry. -/
def State.denyEntry (s : State) (m : Option Nat) (index sub bit : Nat) : State := s.deny m (odKey index sub) (2 ^ bit)

/-- A request from a source that matches no peer entry (R254). -/
def State.denyUnknown (s : State) (addr : Nat) (bit : Nat) : State := (s.bump 0x3000 5 1).deny none addr (2 ^ bit)

-- the address map

/-- The ranges of R225. -/
inductive Range
  | hbm | store (c : Nat) | vat (c e : Nat) | dictionary | rings | streams | nowhere
  deriving DecidableEq, Repr

/-- The range in which an address lies (R225, R226). -/
def rangeOf (a : Nat) : Range :=
  if a < hbmSize then .hbm
  else if 0x100000000000 ≤ a ∧ a < 0x101000000000 ∧ (a - 0x100000000000) % 0x100000000 < storeSize then
    .store ((a - 0x100000000000) / 0x100000000)
  else if 0x200000000000 ≤ a ∧ a < 0x201000000000 ∧ (a - 0x200000000000) % 0x100000000 / 0x800000 < 34 then
    .vat ((a - 0x200000000000) / 0x100000000) ((a - 0x200000000000) % 0x100000000 / 0x800000)
  else if 0x300000000000 ≤ a ∧ a < 0x300001000000 then .dictionary
  else if 0x300100000000 ≤ a ∧ a < 0x300200000000 then .rings
  else if 0x300200000000 ≤ a ∧ a < 0x300200400000 then .streams
  else .nowhere

/-- Every byte of a span lies in the range of its first byte (an empty span lies anywhere). -/
def rangeSpan (a n : Nat) : Range := if n = 0 ∨ rangeOf a = rangeOf (a + n - 1) then rangeOf a else .nowhere

/-- The stack of an HBM address (R225). -/
def stackOf (a : Nat) : Nat := a / stackSize

/-- A stack shuts down, and it has been powered down (R460). -/
def State.stackStops (s : State) (m : Nat) : Bool := (s.zone (33 + m)).st = .shutdown
def State.stackDown (s : State) (m : Nat) : Bool := s.stackStops m && s.unit (stackRef m) = .fenced

/-- A span touches a stack that is RETIRED or powered down (R227, R460). -/
def State.touchesRetired (s : State) (a n : Nat) : Bool :=
  n != 0 && (List.range (stackOf (a + n - 1) + 1)).any (fun m =>
    stackOf a ≤ m && (s.unit (stackRef m) = .retired || s.stackDown m))

/-- Bytes common to two spans. -/
def overlap (a n b k : Nat) : Nat := min (a + n) (b + k) - max a b

/-- What a check answers. -/
inductive Chk
  | ok
  /-- No range of R225 holds it (R226). -/
  | noTarget
  /-- A byte lies in a RETIRED stack (R227). -/
  | retired
  /-- Refused at an address, with the rights lacking (R259, R260). -/
  | denied (addr lacking : Nat)
  deriving DecidableEq, Repr

/-- A span against a list of regions, each base, size and the master's rights (R259). -/
def checkRegions (m : Nat) (regions : List (Nat × Nat × Nat)) (a n bit : Nat) : Chk :=
  if m = 0 then .ok
  else
    let hit := regions.filter (fun r => 0 < overlap a n r.1 r.2.1)
    if n ≤ (hit.map (fun r => overlap a n r.1 r.2.1)).sum then
      (if hit.all (fun r => has r.2.2 bit) then .ok else .denied a (2 ^ bit))
    else .denied a (2 ^ bit)

/-- The HBM regions in use that a span meets, and the core-store regions, at device addresses. -/
def State.hbmRegions (s : State) (m : Nat) : List (Nat × Nat × Nat) :=
  (List.range 64).filterMap (fun r =>
    let size := s.val (0x3020 + r) 2
    if size = 0 then none else some (s.val (0x3020 + r) 1, size, s.hbmRights m r))
def State.storeRegions (s : State) (m c : Nat) : List (Nat × Nat × Nat) :=
  (List.range 16).filterMap (fun n =>
    let size := s.val (0x3060 + c) (2 + 6 * n)
    if size = 0 then none else some (storeBase c + s.val (0x3060 + c) (1 + 6 * n), size, s.storeRights m c n))

/-- A read or write of HBM or core store by a master (R226, R227, R259). Other ranges answer `noTarget` here. -/
def State.checkMem (s : State) (m a n bit : Nat) : Chk :=
  match rangeSpan a n with
  | .hbm => if s.touchesRetired a n then .retired else checkRegions m (s.hbmRegions m) a n bit
  | .store c => checkRegions m (s.storeRegions m c) a n bit
  | _ => .noTarget

/-- The same for HBM alone, without looking at the stacks. -/
def State.hbmAllowed (s : State) (m a n bit : Nat) : Bool :=
  rangeSpan a n = .hbm && checkRegions m (s.hbmRegions m) a n bit = .ok

-- the stream table

/-- A stream context of 64 bytes (R239). -/
def Stream.bytes (c : Stream) : List Byte :=
  if c.st = .free then List.replicate 64 0
  else
    leBytes 1 c.st.code ++ leBytes 1 c.job ++ leBytes 1 c.priority ++ leBytes 1 c.depth ++ leBytes 2 c.owner ++
    leBytes 1 c.reason ++ [0] ++ leBytes 5 c.position ++ [0, 0, 0] ++ leBytes 8 c.root ++ leBytes 8 c.ckptSeq ++
    leBytes 5 c.ckptPosition ++ [0, 0, 0] ++ leBytes 4 c.frames ++ leBytes 4 c.budget ++ leBytes 8 c.lastStep ++
    leBytes 8 c.user

/-- Whether a master may read, or write USER of, a context (R536). -/
def State.mayReadStream (s : State) (m n : Nat) : Bool :=
  let c := s.stream n
  has (s.streamRights m) (if c.st ≠ .free ∧ c.owner = m then rightR else rightAdmin)
def State.mayWriteStream (s : State) (m n : Nat) : Bool :=
  let c := s.stream n
  has (s.streamRights m) (if c.st ≠ .free ∧ c.owner = m then rightW else rightAdmin)

/-- Bytes of the stream table from an offset. -/
def State.streamBytes (s : State) (off n : Nat) : List Byte :=
  (List.range n).map (fun i => ((s.stream ((off + i) / 64)).bytes.getD ((off + i) % 64) 0))

-- the vat debug window

/-- The metadata word of a row (R137). -/
def Row.meta_ (r : Row) : Nat :=
  r.addCount + (if r.churnValid then 2 ^ 21 else 0) + (if r.rnInSegment then 2 ^ 22 else 0) +
  (if r.forcedSpill then 2 ^ 23 else 0) + (if r.vatSat then 2 ^ 24 else 0) + (if r.locked.isSome then 2 ^ 25 else 0)

/-- One byte of an engine's window (R225, R535). -/
def Engine.windowByte (e : Engine) (off : Nat) : Byte :=
  if off < 0x400000 then
    (leBytes 4 (tget (tget e.vat (off / 1024)).vals (off % 1024 / 4)).toNat).getD (off % 4) 0
  else if off < 0x404000 then (leBytes 4 (tget e.vat ((off - 0x400000) / 4)).meta_).getD (off % 4) 0
  else 0

/-- Bytes of the device map, as a read that has passed its checks returns them. -/
def State.readAt (s : State) (a n : Nat) : List Byte :=
  match rangeOf a with
  | .vat c e =>
    let eng := s.eng c e
    (List.range n).map (fun i => eng.windowByte ((a - 0x200000000000) % 0x800000 + i))
  | .streams => s.streamBytes (a - 0x300200000000) n
  | _ => s.mem.read a n

end Sys2Proof.Machine
end

