-- ==== Sys2Proof/Machine/Float.lean ====
section
/-! DEFINITION. Number formats: exact values, the one rounding of R116, the limits of R117 and R118, arithmetic on FP32, the
exact functions of R207, element grids and block encoding (R119 to R129) and the integer rescale (R133). -/

namespace Sys2Proof.Machine

/-- An exact value: NaN, an infinity, or a sign with the magnitude `n / d`, `d` positive. -/
inductive Fp
  | nan
  | inf (neg : Bool)
  | fin (neg : Bool) (n d : Nat)
  deriving DecidableEq, Repr, Inhabited

/-- +0 and an integer. -/
def Fp.zero : Fp := .fin false 0 1
def Fp.int (i : Int) : Fp := .fin (i < 0) i.natAbs 1

/-- `n / d` times a power of two. -/
def scale2 (n d : Nat) (k : Int) : Nat × Nat := if 0 ≤ k then (n * 2 ^ k.toNat, d) else (n, d * 2 ^ (-k).toNat)

/-- The exponent e with 2^e ≤ n / d < 2^(e+1), n positive. -/
def expOf (n d : Nat) : Int :=
  let e : Int := (Nat.log2 n : Int) - (Nat.log2 d : Int)
  let s := scale2 n d (-e)
  if s.1 < s.2 then e - 1 else e

/-- A quotient to the nearest whole number, ties away from zero (R116). -/
def roundDiv (n d : Nat) : Nat := (2 * n + d) / (2 * d)

/-- A floating-point format: bits of precision with the hidden one, exponent of the least normal number, and the code of
the largest finite magnitude (R117). -/
structure FpFmt where
  p : Nat
  emin : Int
  top : Nat
  deriving DecidableEq, Repr

def fp64 : FpFmt := ⟨53, -1022, 0x7FEFFFFFFFFFFFFF⟩
def fp32 : FpFmt := ⟨24, -126, 0x7F7FFFFF⟩
def bf16 : FpFmt := ⟨8, -126, 0x7F7F⟩
def fp16 : FpFmt := ⟨11, -14, 0x7BFF⟩
def e4m3 : FpFmt := ⟨4, -6, 0x7E⟩
def e5m2 : FpFmt := ⟨3, -14, 0x7B⟩
def e2m1 : FpFmt := ⟨2, 0, 0x7⟩
def e3m2 : FpFmt := ⟨3, -2, 0x1F⟩
def ue5m3 : FpFmt := ⟨4, -14, 0xFF⟩

/-- The code of a magnitude rounded to a format's grid, ties away; the grid goes on beyond the largest value (R116, R117).
A code above `top` is a magnitude at or above the saturation threshold. -/
def FpFmt.round (f : FpFmt) (n d : Nat) : Nat :=
  if n = 0 then 0
  else
    let q : Int := max (expOf n d) f.emin - ((f.p : Int) - 1)
    let s := scale2 n d (-q)
    (q - (f.emin - ((f.p : Int) - 1))).toNat * 2 ^ (f.p - 1) + roundDiv s.1 s.2

/-- The magnitude of a code (R119, R120). -/
def FpFmt.value (f : FpFmt) (code : Nat) : Nat × Nat :=
  let e := code / 2 ^ (f.p - 1)
  let m := code % 2 ^ (f.p - 1)
  let q : Int := f.emin - ((f.p : Int) - 1)
  if e = 0 then scale2 m 1 q else scale2 (2 ^ (f.p - 1) + m) 1 (q + e - 1)

-- exact operations

def Fp.neg : Fp → Fp
  | .nan => .nan
  | .inf g => .inf !g
  | .fin g n d => .fin (!g) n d

/-- The exact sum: an exact zero is +0 unless both terms are -0. -/
def Fp.add : Fp → Fp → Fp
  | .nan, _ => .nan
  | _, .nan => .nan
  | .inf a, .inf b => if a = b then .inf a else .nan
  | .inf a, _ => .inf a
  | _, .inf b => .inf b
  | .fin a n d, .fin b m e =>
    let x : Int := (if a then -1 else 1) * (n * e : Nat) + (if b then -1 else 1) * (m * d : Nat)
    if x = 0 then .fin (a && b) 0 1 else .fin (x < 0) x.natAbs (d * e)

def Fp.sub (a b : Fp) : Fp := a.add b.neg

/-- The exact product. -/
def Fp.mul : Fp → Fp → Fp
  | .nan, _ => .nan
  | _, .nan => .nan
  | .inf a, .inf b => .inf (a != b)
  | .inf a, .fin b n _ => if n = 0 then .nan else .inf (a != b)
  | .fin a n _, .inf b => if n = 0 then .nan else .inf (a != b)
  | .fin a n d, .fin b m e => .fin (a != b) (n * m) (d * e)

/-- The exact quotient. -/
def Fp.div : Fp → Fp → Fp
  | .nan, _ => .nan
  | _, .nan => .nan
  | .inf _, .inf _ => .nan
  | .inf a, .fin b _ _ => .inf (a != b)
  | .fin a _ _, .inf b => .fin (a != b) 0 1
  | .fin a n d, .fin b m e => if m = 0 then (if n = 0 then .nan else .inf (a != b)) else .fin (a != b) (n * e) (d * m)

/-- A comparison of magnitudes with signs; false for a NaN. -/
def Fp.lt : Fp → Fp → Bool
  | .nan, _ => false
  | _, .nan => false
  | .inf a, .inf b => a && !b
  | .inf a, _ => a
  | _, .inf b => !b
  | .fin a n d, .fin b m e =>
    (if a then -1 else 1) * ((n * e : Nat) : Int) < (if b then -1 else 1) * ((m * d : Nat) : Int)

def Fp.isNan (x : Fp) : Bool := x = .nan
def Fp.isZero : Fp → Bool
  | .fin _ n _ => n = 0
  | _ => false

-- codes of the IEEE formats

/-- A value read from an IEEE-like code of `w` bits whose largest exponent field holds infinities and NaN. -/
def ieeeValue (f : FpFmt) (w code : Nat) : Fp :=
  let g := bitOf code (w - 1)
  let mag := code % 2 ^ (w - 1)
  let infinity := f.top + 1
  if mag = infinity then .inf g
  else if infinity < mag then .nan
  else
    let v := f.value mag
    .fin g v.1 v.2

/-- What narrowing counts (R134): NaN encodes, saturations, block clamps, scale underflows, invalid codes, rescale
saturations; and the count of free values taken. -/
structure Tally where
  nan : Nat := 0
  sat : Nat := 0
  clamp : Nat := 0
  under : Nat := 0
  invalid : Nat := 0
  resc : Nat := 0
  free : Nat := 0
  deriving DecidableEq, Repr, Inhabited

/-- A computation of a unit that counts. -/
abbrev Calc := StateM Tally

def countSat : Calc Unit := modify (fun t => { t with sat := t.sat + 1 })
def countNan : Calc Unit := modify (fun t => { t with nan := t.nan + 1 })
def countInvalid : Calc Unit := modify (fun t => { t with invalid := t.invalid + 1 })

/-- A value narrowed to FP32, BF16, FP16 or FP64 of `w` bits (R116 to R118). -/
def toIeee (f : FpFmt) (w : Nat) (x : Fp) : Calc Nat :=
  match x with
  | .nan => pure (f.top + 1 + 2 ^ (f.p - 2))
  | .inf g => pure (f.top + 1 + if g then 2 ^ (w - 1) else 0)
  | .fin g n d =>
    let c := f.round n d
    let sign := if g then 2 ^ (w - 1) else 0
    if f.top < c then do countSat; pure (f.top + sign) else pure (c + sign)

/-- An FP32 code as a value, and the one rounding to FP32. -/
def ofF32 (b : F32) : Fp := ieeeValue fp32 32 b.toNat
def toF32 (x : Fp) : Calc F32 := do pure (BitVec.ofNat 32 (← toIeee fp32 32 x))
def r32 (x : Fp) : Calc Fp := do pure (ieeeValue fp32 32 (← toIeee fp32 32 x))

/-- The FP32 code of a value, counts set aside. -/
def f32Of (x : Fp) : F32 := (toF32 x {}).1

/-- FP32 operations of one rounding each. -/
def addC (a b : Fp) : Calc Fp := r32 (a.add b)
def subC (a b : Fp) : Calc Fp := r32 (a.sub b)
def mulC (a b : Fp) : Calc Fp := r32 (a.mul b)
def divC (a b : Fp) : Calc Fp := r32 (a.div b)
def fmaC (a b c : Fp) : Calc Fp := r32 ((a.mul b).add c)

/-- The maximum: NaN if an operand is; of two zeros of unlike sign a free one (R207; log entry 4). -/
def maxC (a b : Fp) : Calc Fp := do
  if a.isNan || b.isNan then pure .nan
  else if a.isZero && b.isZero && a != b then
    let t ← get
    set { t with free := t.free + 1 }
    pure (.fin (Config.maxOfZeros t.free) 0 1)
  else pure (if a.lt b then b else a)

-- exact functions (R207)

/-- The integer square root by bits from `b` down. -/
def isqrtFrom (n : Nat) : Nat → Nat → Nat
  | 0, r => r
  | b + 1, r => let t := r + 2 ^ b
    isqrtFrom n b (if t * t ≤ n then t else r)
def isqrt (n : Nat) : Nat := isqrtFrom n (Nat.log2 n / 2 + 1) 0

/-- Bits of the fixed point in which the transcendental functions are formed; far beyond what one rounding to FP32 needs. -/
def fixBits : Nat := 256

/-- sqrt(2 / pi) in fixed point. -/
def sqrt2pi : Nat := 0xCC42299EA1B284687E59E2805D5C717FA7053E60A24E0DB1808E369004C73A5D

/-- The exponential series of a small fixed-point number, from term `k` on. -/
def expSeries (y : Nat) : Nat → Nat → Nat → Nat
  | 0, _, _ => 0
  | f + 1, k, term => term + expSeries y f (k + 1) ((term * y) >>> fixBits / k)

/-- Square `m` times. -/
def squareFix : Nat → Nat → Nat
  | 0, x => x
  | m + 1, x => squareFix m ((x * x) >>> fixBits)

/-- e^(n/d) in fixed point, for n / d up to 1,000. -/
def expFix (n d : Nat) : Nat := squareFix 16 (expSeries ((n * 2 ^ fixBits) / (d * 2 ^ 16)) 40 1 (2 ^ fixBits))

/-- A positive result rounded to FP32: overflow is an infinity and underflow a zero of the sign, as IEEE 754-2019 has it for
the exact functions (R207). -/
def exactF32 (g : Bool) (n d : Nat) : Fp :=
  let c := fp32.round n d
  if fp32.top < c then .inf g else let v := fp32.value c
    .fin g v.1 v.2

/-- e^x. -/
def expN : Fp → Fp
  | .nan => .nan
  | .inf g => if g then .zero else .inf false
  | .fin g n d =>
    if n = 0 then .fin false 1 1
    else if 128 * d < n then (if g then .zero else .inf false)
    else if g then exactF32 false (2 ^ fixBits) (expFix n d) else exactF32 false (expFix n d) (2 ^ fixBits)

/-- 1/x. -/
def recipN : Fp → Fp
  | .nan => .nan
  | .inf g => .fin g 0 1
  | .fin g n d => if n = 0 then .inf g else exactF32 g d n

/-- 1/√x. -/
def rsqrtN : Fp → Fp
  | .nan => .nan
  | .inf g => if g then .nan else .zero
  | .fin g n d =>
    if n = 0 then .inf g
    else if g then .nan
    else
      -- sqrt(d / n) with 160 bits behind the point, the last bit sticky
      let m := d * 2 ^ 320
      let q := isqrt (m / n)
      exactF32 false (if q * q * n = m then 2 * q else 2 * q + 1) (2 ^ 161)

/-- `x / (1 + e^(-2z))` for the sign of x, the magnitude of x and that of 2z, both of one sign. -/
def gated (g : Bool) (n d zn zd : Nat) : Fp :=
  if n = 0 then .fin g 0 1
  else if 800 * zd < zn then (if g then .fin true 0 1 else exactF32 false n d)
  else
    let e := expFix zn zd
    if g then exactF32 true (n * 2 ^ fixBits) (d * (2 ^ fixBits + e))
    else exactF32 false (n * e) (d * (2 ^ fixBits + e))

/-- SiLU: x / (1 + e^(-x)). -/
def siluN : Fp → Fp
  | .nan => .nan
  | .inf g => if g then .fin true 0 1 else .inf false
  | .fin g n d => gated g n d n d

/-- GELU in the tanh form: 0.5 x (1 + tanh z) = x / (1 + e^(-2z)), z = √(2/π) (x + 0.044715 x³). -/
def geluN : Fp → Fp
  | .nan => .nan
  | .inf g => if g then .fin true 0 1 else .inf false
  | .fin g n d => gated g n d (2 * sqrt2pi * n * (1000000 * d * d + 44715 * n * n)) (2 ^ fixBits * 1000000 * d * d * d)

/-- ReLU (R152 step 6): +0 at or below zero, NaN unchanged. -/
def reluN (x : Fp) : Fp :=
  match x with
  | .nan => .nan
  | .inf g => if g then .zero else .inf g
  | .fin g n d => if g || n = 0 then .zero else .fin g n d

/-- A sum over the fixed pairwise tree of R207: one level. -/
def pairUp : List Fp → Calc (List Fp)
  | a :: b :: t => do
    let c ← addC a b
    let r ← pairUp t
    pure (c :: r)
  | l => pure l

/-- The tree, with at most `f` levels. -/
def treeSum : Nat → List Fp → Calc Fp
  | 0, l => pure (l.headD .zero)
  | f + 1, l => if l.length ≤ 1 then pure (l.headD .zero) else do treeSum f (← pairUp l)

/-- The sum of a row (R207). -/
def rowSum (l : List Fp) : Calc Fp := treeSum (l.length.log2 + 1) l

/-- The maximum of a row (R207). -/
def rowMax : List Fp → Calc Fp
  | [] => pure .nan
  | a :: t => t.foldlM maxC a

-- memory formats (R115)

/-- Bits of an element (R115). -/
def fmtBits (f : Nat) : Nat := if f = 0 then 32 else if f ≤ 2 then 16 else if f = 5 then 4 else if f = 6 then 6 else 8

/-- The format is a block code. -/
def isBlock (f : Nat) : Bool := 5 ≤ f && f ≤ 9

/-- The value of an element of FMT 0 to 4 (R117, R118). -/
def elemValue (f code : Nat) : Fp :=
  if f = 0 then ieeeValue fp32 32 code
  else if f = 1 then ieeeValue bf16 16 code
  else if f = 2 then ieeeValue fp16 16 code
  else if f = 3 then
    (if code % 128 = 127 then .nan else let v := e4m3.value (code % 128)
      .fin (128 ≤ code) v.1 v.2)
  else ieeeValue e5m2 8 code

/-- A value narrowed to an 8-bit format or an element grid of `w` bits (R118): +max for NaN. -/
def toSmall (f : FpFmt) (w : Nat) (x : Fp) : Calc Nat :=
  match x with
  | .nan => do countNan; pure f.top
  | .inf g => do countSat; pure (f.top + if g then 2 ^ (w - 1) else 0)
  | .fin g n d => do
    let c := f.round n d
    if f.top < c then countSat
    let m := min c f.top
    pure (m + if g && m != 0 then 2 ^ (w - 1) else 0)

/-- A value narrowed to FMT 0 to 4 (R117, R118). -/
def toElem (f : Nat) (x : Fp) : Calc Nat :=
  if f = 0 then toIeee fp32 32 x
  else if f = 1 then toIeee bf16 16 x
  else if f = 2 then toIeee fp16 16 x
  else if f = 3 then toSmall e4m3 8 x
  else toSmall e5m2 8 x

/-- Bytes of the elements of a block (R121). -/
def blockBytes (f : Nat) : Nat := if f = 5 then 16 else if f = 6 then 24 else 32

/-- Element `i` of a block's bytes (R122). -/
def blockCode (f : Nat) (bs : List Byte) (i : Nat) : Nat :=
  if f = 5 then (bs.getD (i / 2) 0).toNat / (if i % 2 = 0 then 1 else 16) % 16
  else if f = 6 then field bs (3 * (i / 4)) 3 / 64 ^ (i % 4) % 64
  else (bs.getD i 0).toNat

/-- The value of an element code of a block, and whether the code is no value (R119, R125). -/
def blockElem (f code : Nat) : Fp × Bool :=
  if f = 5 then
    let v := e2m1.value (code % 8)
    (.fin (8 ≤ code) v.1 v.2, false)
  else if f = 6 then
    let v := e3m2.value (code % 32)
    (.fin (32 ≤ code) v.1 v.2, false)
  else if f = 7 then
    let bad := code % 128 = 127
    let v := e4m3.value (if bad then 126 else code % 128)
    (.fin (128 ≤ code) v.1 v.2, bad)
  else if code = 128 then (.fin true 127 1, true)
  else (.int (signed 8 code), false)

/-- The scale of a code (R120). -/
def scaleValue (c : Nat) : Fp :=
  let v := ue5m3.value c
  .fin false v.1 v.2

/-- The exact element values of a block, its scale applied apart: each a value, the count of codes that are none (R125). -/
def blockElems (f scale : Nat) (bs : List Byte) : List Fp × Nat :=
  if scale = 0 then (List.replicate 32 .zero, 0)
  else
    let l := (List.range 32).map (fun i => blockElem f (blockCode f bs i))
    (l.map Prod.fst, (l.filter Prod.snd).length)

/-- The 32 codes of a block packed (R122). -/
def packBlock (f : Nat) (codes : List Nat) : List Byte :=
  let at_ (i : Nat) : Nat := codes.getD i 0
  if f = 5 then (List.range 16).map (fun i => BitVec.ofNat 8 (at_ (2 * i) + 16 * at_ (2 * i + 1)))
  else if f = 6 then (List.range 8).flatMap (fun g =>
    leBytes 3 (at_ (4 * g) + 64 * at_ (4 * g + 1) + 4096 * at_ (4 * g + 2) + 262144 * at_ (4 * g + 3)))
  else (List.range 32).map (fun i => BitVec.ofNat 8 (at_ i))

/-- E_max of a block code (R127). -/
def emaxOf (f : Nat) : Nat := if f = 5 then 6 else if f = 6 then 28 else if f = 7 then 448 else 127

/-- The code of +E_max, and the sign bit of an element. -/
def emaxCode (f : Nat) : Nat := if f = 5 then 7 else if f = 6 then 0x1F else if f = 7 then 0x7E else 127
def signedCode (f : Nat) (g : Bool) (c : Nat) : Nat :=
  if !g || c = 0 then c
  else if f = 5 then c + 8 else if f = 6 then c + 32 else if f = 7 then c + 128 else 256 - c

/-- A magnitude on the element grid, ties away; above `emaxCode` it clamps (R127). -/
def gridRound (f n d : Nat) : Nat :=
  if f = 5 then e2m1.round n d else if f = 6 then e3m2.round n d else if f = 7 then e4m3.round n d else roundDiv n d

/-- |v| is finite and equal in magnitude and sign for all 32 (R128). -/
def constantBlock (v : List Fp) : Bool :=
  match v with
  | .fin g n d :: t => n != 0 && t.all (fun x => match x with
    | .fin h m e => h = g && n * e = m * d
    | _ => false)
  | _ => false

/-- The larger magnitude of two, NaN left out (R127). -/
def maxMag (a x : Fp) : Fp :=
  match x with
  | .nan => a
  | .inf _ => .inf false
  | .fin _ n d => if a.lt (.fin false n d) then .fin false n d else a

/-- One element of a block under its scale (R127). -/
def blockElemCode (f : Nat) (scale : Fp) (saturated : Bool) (v : Fp) : Calc Nat :=
  match v with
  | .nan => do countNan; pure (emaxCode f)
  | .inf g => do
    (if saturated then countSat else modify (fun t => { t with clamp := t.clamp + 1 }))
    pure (signedCode f g (emaxCode f))
  | .fin g n d =>
    match scale with
    | .fin _ sn sd => do
      let c := gridRound f (n * sd) (d * sn)
      if emaxCode f < c then
        (if saturated then countSat else modify (fun t => { t with clamp := t.clamp + 1 }))
        pure (signedCode f g (emaxCode f))
      else pure (signedCode f g c)
    | _ => pure 0

/-- 32 values encoded as a block under a panel scale: the block scale and the packed elements (R127, R128). -/
def encodeBlock (f : Nat) (panel : Fp) (xs : List Fp) : Calc (Nat × List Byte) := do
  let v := xs.map (fun x => (r32 (x.div panel) {}).1)
  let a := v.foldl maxMag .zero
  match a with
  | .nan => pure (0, packBlock f [])
  | .inf _ => do
    countSat
    let codes ← v.mapM (blockElemCode f (scaleValue 0xFF) true)
    pure (0xFF, packBlock f codes)
  | .fin _ n d =>
    if n = 0 then
      if v.any Fp.isNan then do
        let codes ← v.mapM (blockElemCode f (scaleValue 0x78) false)
        pure (0x78, packBlock f codes)
      else pure (0, packBlock f [])
    else
      let den := d * emaxOf f
      if n * 2 ^ 18 < den then do
        modify (fun t => { t with under := t.under + 1 })
        pure (0, packBlock f [])
      else
        let c := ue5m3.round n den
        let saturated := ue5m3.top < c
        let sc := min c ue5m3.top
        if saturated then do
          countSat
          let codes ← if constantBlock v then
              pure (v.map (fun x => signedCode f (x.lt .zero) (emaxCode f)))
            else v.mapM (blockElemCode f (scaleValue sc) true)
          pure (sc, packBlock f codes)
        else do
          let codes ← if constantBlock v then
              pure (v.map (fun x => signedCode f (x.lt .zero) (emaxCode f)))
            else v.mapM (blockElemCode f (scaleValue sc) false)
          pure (sc, packBlock f codes)

/-- One value of the integer rescale path (R133): the INT8 code. -/
def rescale (mult shift : Nat) (exp : Int) (x : Fp) : Calc Nat :=
  let top : Nat := 2 ^ 31 - 1
  let q : Option (Bool × Nat × Bool) := match x with
    | .nan => none
    | .inf g => some (g, top, true)
    | .fin g n d =>
      let s := scale2 n d (-exp)
      let r := roundDiv s.1 s.2
      some (g, min r top, top < r)
  match q with
  | none => do countNan; pure 127
  | some (g, m, sat) =>
    let m := m * mult
    let m := if 0 < shift then (m + 2 ^ (shift - 1)) / 2 ^ shift else m
    let both := sat || 127 < m
    let y := min m 127
    do
      if both then modify (fun t => { t with resc := t.resc + 1 })
      pure (if g && y != 0 then 256 - y else y)

/-- The code counts as one of the events of R134, its first in the order of R135; a block of rescaled codes (R133). -/
def rescaleBlock (f : Nat) (codes : List Nat) : Nat × List Byte :=
  if codes.all (· = 0) then (0, packBlock f []) else (0x78, packBlock f codes)

end Sys2Proof.Machine
end

