-- ==== Sys2Proof/Machine/Operands.lean ====
section
/-! DEFINITION. Tvedkor words and their fields (R190 to R218), tensor descriptors and layouts (R193 to R195), panels (R121 to
R124), and operands read and written through the checks of R259. -/

namespace Sys2Proof.Machine

-- statuses (R222)

def stOk : Nat := 0x00
def stReserved : Nat := 0x01
def stIllegalOpcode : Nat := 0x02
def stIllegalSequence : Nat := 0x03
def stDescInvalid : Nat := 0x04
def stDescRange : Nat := 0x05
def stTileRange : Nat := 0x06
def stTileOverrun : Nat := 0x07
def stFormatHeader : Nat := 0x08
def stFormatScale : Nat := 0x09
def stBankImage : Nat := 0x0A
def stBankTag : Nat := 0x0B
def stAccess : Nat := 0x0C
def stEngineFault : Nat := 0x10
def stUnitFault : Nat := 0x11
def stMemory : Nat := 0x12
def stFabric : Nat := 0x13
def stHost : Nat := 0x14
def stLate : Nat := 0x18
def stWaitTimeout : Nat := 0x19
def stKvRange : Nat := 0x20
def stKvNoPage : Nat := 0x21
def stStreamState : Nat := 0x22
def stCancelled : Nat := 0x30

/-- Class of a status: 0 none, 1 Program, 2 Unit, 3 Timing, 4 Stream (R222). -/
def statusClass (st : Nat) : Nat :=
  if st = 0 ∨ st = stCancelled then 0
  else if st < 0x10 then 1
  else if st < 0x18 then 2
  else if st < 0x20 then 3
  else 4

-- words (R190, R191)

/-- Bits `hi` down to `lo` of a word. -/
def fld (w : TvWord) (hi lo : Nat) : Nat := bitsOf w.toNat hi lo

def opcodeOf (w : TvWord) : Nat := fld w 127 120
def sigOf (w : TvWord) : Nat := fld w 119 116
def maskOf (w : TvWord) : Nat := fld w 111 80

/-- Opcodes of R191 by name. -/
def opNop : Nat := 0x01
def opPathSel : Nat := 0x04
def opEnd : Nat := 0x05
def opLaunchAt : Nat := 0x08
def opSignal : Nat := 0x09
def opWait : Nat := 0x0A
def opFence : Nat := 0x0B
def opBankWrite : Nat := 0x10
def opBankSwap : Nat := 0x11
def opPass : Nat := 0x12
def opSpill : Nat := 0x13
def opResume : Nat := 0x14
def opDrain : Nat := 0x18
def opSkim : Nat := 0x19
def opTens : Nat := 0x20
def opVec : Nat := 0x21
def opMove : Nat := 0x28
def opKvAppend : Nat := 0x29
def opKvGather : Nat := 0x2A

/-- The opcodes of the table (R191). -/
def opcodes : List Nat :=
  [0x01, 0x04, 0x05, 0x08, 0x09, 0x0A, 0x0B, 0x10, 0x11, 0x12, 0x13, 0x14, 0x18, 0x19, 0x20, 0x21, 0x28, 0x29, 0x2A]

/-- TILE_ROWS, in which 0 encodes 4,096 (R200). -/
def tileRows (v : Nat) : Nat := if v = 0 then 4096 else v

/-- VOPs, and those that use B, C and IMM (R207). -/
def vopListed (v : Nat) : Bool :=
  v ∈ [0x01, 0x02, 0x03, 0x04, 0x05, 0x06, 0x08, 0x09, 0x0A, 0x0B, 0x0C, 0x0D, 0x10, 0x11, 0x12, 0x13, 0x14, 0x18]
def vopUsesB (v : Nat) : Bool := v ∈ [0x02, 0x03, 0x04, 0x06, 0x11, 0x12]
def vopUsesC (v : Nat) : Bool := v ∈ [0x04, 0x12]
def vopUsesImm (v : Nat) : Bool := v ∈ [0x05, 0x10, 0x11, 0x12, 0x18]

/-- No reserved field of a word is nonzero and no field holds a reserved code (R11, R197 to R218). -/
def wordClean (w : TvWord) : Bool :=
  fld w 115 112 = 0 &&
  (let o := opcodeOf w
   if o = opNop ∨ o = opEnd then fld w 111 0 = 0
   else if o = opPathSel then fld w 65 0 = 0
   else if o = opLaunchAt then fld w 46 0 = 0
   else if o = opSignal then fld w 70 0 = 0 && fld w 106 103 != 0
   else if o = opWait then fld w 111 107 = 0 && fld w 70 70 = 0 && fld w 53 0 = 0 && fld w 106 103 != 0
   else if o = opFence then fld w 111 111 = 0 && fld w 103 0 = 0
   else if o = opBankWrite then
     maskOf w != 0 && fld w 69 46 = 0 && fld w 30 29 = 0 && fld w 28 27 != 3 && fld w 25 0 = 0
   else if o = opBankSwap then maskOf w != 0 && fld w 79 0 = 0
   else if o = opPass then
     maskOf w != 0 && fld w 30 29 != 3 && fld w 28 27 != 3 && fld w 24 21 != 0 && fld w 24 21 ≤ 8 && fld w 20 18 ≤ 4 &&
     fld w 17 16 != 3 && fld w 11 7 ≤ 21 && fld w 6 0 = 0
   else if o = opSpill ∨ o = opResume then maskOf w != 0 && fld w 79 70 = 0 && fld w 45 0 = 0
   else if o = opDrain then maskOf w != 0 && fld w 12 10 ≤ 3 && fld w 9 8 != 3 && fld w 7 0 = 0
   else if o = opSkim then
     fld w 109 103 != 0 && fld w 109 103 ≤ 64 &&
     (if fld w 111 110 = 0 then fld w 59 28 != 0 && fld w 3 0 = 0
      else if fld w 111 110 = 1 then fld w 60 60 = 0 && fld w 49 0 = 0
      else if fld w 111 110 = 2 then
        fld w 92 61 = 0 && fld w 60 60 = 0 && 2 ≤ fld w 49 43 && fld w 49 43 ≤ 64 && 1 ≤ fld w 42 36 &&
        fld w 42 36 ≤ 64 && fld w 35 0 = 0
      else false)
   else if o = opTens then fld w 79 68 != 0 && fld w 35 0 = 0
   else if o = opVec then
     let v := fld w 111 104
     vopListed v && fld w 31 0 = 0 && (vopUsesB v || fld w 83 74 = 0) && (vopUsesC v || v = 0x10 || fld w 73 64 = 0) &&
     (vopUsesImm v || fld w 63 32 = 0)
   else if o = opMove then
     let k := fld w 91 88
     k ≤ 6 && (k = 1 || k = 2 || fld w 87 72 = 0) && (k = 1 || fld w 71 40 = 0) && fld w 39 0 = 0
   else fld w 69 0 = 0)

-- descriptors (R193)

/-- A descriptor of 32 bytes. -/
def Desc.ofBytes (bs : List Byte) : Desc :=
  { base := field bs 0 8, rows := field bs 8 4, cols := field bs 12 4, rowStride := field bs 16 4,
    slabStride := field bs 20 4, fmt := field bs 24 1, reserved := field bs 25 3,
    panelScale := BitVec.ofNat 32 (field bs 28 4) }

def Desc.fp (d : Desc) : Nat := d.fmt % 16

/-- Element size in bytes of a format that is no block code. -/
def elemSize (f : Nat) : Nat := fmtBits f / 8

/-- Slabs of a block-coded tensor, blocks of a row in slab `j`, and rows of a full panel there (R194). -/
def Desc.slabs (d : Desc) : Nat := ceilDiv d.cols 256
def Desc.rowBlocks (d : Desc) (j : Nat) : Nat := min 256 (d.cols - 256 * j) / 32
def Desc.panelRows (d : Desc) (j : Nat) : Nat := 4096 / d.rowBlocks j

/-- Bytes of a panel of some blocks, and the distance to the next one (R121). -/
def ceil16 (n : Nat) : Nat := (n + 15) / 16 * 16
def ceil64 (n : Nat) : Nat := (n + 63) / 64 * 64
def panelBytes (f blocks : Nat) : Nat := 16 + ceil16 blocks + blocks * blockBytes f

/-- Blocks of panel `p` of slab `j`, its offset within the slab, and the extent of the slab (R194). -/
def Desc.panelBlocks (d : Desc) (j p : Nat) : Nat := min (d.panelRows j) (d.rows - p * d.panelRows j) * d.rowBlocks j
def Desc.panelPitch (d : Desc) (j : Nat) : Nat := ceil64 (panelBytes d.fp (d.panelRows j * d.rowBlocks j))
def Desc.panels (d : Desc) (j : Nat) : Nat := ceilDiv d.rows (d.panelRows j)
def Desc.slabExtent (d : Desc) (j : Nat) : Nat :=
  let last := d.panels j - 1
  last * d.panelPitch j + panelBytes d.fp (d.panelBlocks j last)

/-- Address of a panel. -/
def Desc.panelAt (d : Desc) (j p : Nat) : Nat := d.base + j * d.slabStride + p * d.panelPitch j

/-- The strides keep the rules of R194. -/
def Desc.stridesOk (d : Desc) : Bool :=
  if isBlock d.fp then
    d.cols % 32 = 0 && d.base % 64 = 0 && d.slabStride % 64 = 0 && d.slabExtent 0 ≤ d.slabStride
  else d.cols * elemSize d.fp ≤ d.rowStride && d.rowStride % elemSize d.fp = 0

/-- The checks of a tensor and of a record descriptor (R195). -/
def Desc.tensorOk (d : Desc) : Bool :=
  d.fmt ≤ 9 && 1 ≤ d.rows && d.rows ≤ 0x1000000 && 1 ≤ d.cols && d.cols ≤ 0x1000000 && d.reserved = 0 && d.stridesOk
def Desc.recordOk (d : Desc) : Bool := 1 ≤ d.rows && d.rows ≤ 0x1000000 && d.reserved = 0

/-- The span of a tensor (R220), and of the first `n` entries of a record, `size` bytes each. -/
def Desc.span (d : Desc) : Nat × Nat :=
  if isBlock d.fp then (d.base, (d.slabs - 1) * d.slabStride + d.slabExtent (d.slabs - 1))
  else (d.base, (d.rows - 1) * d.rowStride + d.cols * elemSize d.fp)
def Desc.recordSpan (d : Desc) (n size : Nat) : Nat × Nat := (d.base, (n - 1) * d.rowStride + size)

/-- A panel scale is positive, finite and normal (R124, R130). -/
def scaleNormal (b : Nat) : Bool := 0x00800000 ≤ b && b < 0x7F800000

-- accesses of a job's instructions

/-- A job's owner, and the cores its running step runs on. -/
def State.jobCores (s : State) (j : Nat) : List Nat := (s.job j).cores.filterMap (fun e => e.bound)

/-- An access of an instruction that is refused. -/
def State.accessDenied (s : State) (m addr lacking : Nat) : Nat × State := (stAccess, s.deny (some m) addr lacking)

/-- Status of an access by an instruction of a job (R226, R227, R259, R535, R536), and the state after it: a refusal is
raised. -/
def State.access (s : State) (j a n bit : Nat) : Nat × State :=
  let m := (s.job j).owner
  if n = 0 then (stOk, s)
  else
    match rangeSpan a n with
    | .hbm =>
      if s.touchesRetired a n then (stUnitFault, s)
      else match checkRegions m (s.hbmRegions m) a n bit with
        | .denied x l => s.accessDenied m x l
        | _ => (stOk, s)
    | .store c =>
      match checkRegions m (s.storeRegions m c) a n bit with
      | .denied x l => s.accessDenied m x l
      | _ => (stOk, s)
    | .vat c _ =>
      if bit != rightR then s.accessDenied m a 0
      else if c ∈ s.jobCores j || has (s.classRights m 3) rightR then (stOk, s)
      else s.accessDenied m a (2 ^ rightR)
    | .streams =>
      if bit != rightR then s.accessDenied m a 0
      else
        let first := (a - 0x300200000000) / 64
        let count := (a - 0x300200000000 + n - 1) / 64 + 1 - first
        if (List.range count).all (fun i => s.mayReadStream m (first + i)) then (stOk, s) else s.accessDenied m a (2 ^ rightR)
    | .dictionary => s.accessDenied m a 0
    | .rings => s.accessDenied m a 0
    | .nowhere => (stDescRange, s)

/-- Accesses one after another, up to the first that fails. -/
def State.accessAll (s : State) (j bit : Nat) : List (Nat × Nat) → Nat × State
  | [] => (stOk, s)
  | r :: t =>
    let x := s.access j r.1 r.2 bit
    if x.1 = stOk then x.2.accessAll j bit t else x

/-- Writes one after another, each checked when it reaches its target; what was written before a refusal stands (R259). -/
def State.writeAll (s : State) (j : Nat) : List (Nat × List Byte) → Nat × State
  | [] => (stOk, s)
  | w :: t =>
    let x := s.access j w.1 w.2.length rightW
    if x.1 = stOk then { x.2 with mem := x.2.mem.write w.1 w.2 }.writeAll j t else x

-- reading tensors

/-- The header of a panel is what R124 asks for. -/
def State.panelOk (s : State) (d : Desc) (j p : Nat) : Bool :=
  let h := s.readAt (d.panelAt j p) 16
  scaleNormal (field h 0 4) && field h 4 2 = d.panelBlocks j p && field h 6 1 = d.fp && field h 7 9 = 0

/-- Every panel that the rows from `r0` on meet has its header in order. -/
def State.headersOk (s : State) (d : Desc) (r0 n : Nat) : Bool :=
  !isBlock d.fp || (List.range d.slabs).all (fun j =>
    (List.range (d.panels j)).all (fun p =>
      let lo := p * d.panelRows j
      let meets := lo < r0 + n && r0 < lo + d.panelRows j
      !meets || s.panelOk d j p))

/-- One row as element values, block scales and the panel scale: for each block (32 values, scale, panel) (R126). -/
def State.blockRow (s : State) (d : Desc) (r : Nat) : Calc (List (List Fp × Fp × Fp)) := do
  let mut out : List (List Fp × Fp × Fp) := []
  for j in List.range d.slabs do
    let n := d.rowBlocks j
    let p := r / d.panelRows j
    let at_ := d.panelAt j p
    let b := r % d.panelRows j * n
    let blocks := d.panelBlocks j p
    let panel := ofF32 (BitVec.ofNat 32 (leNat (s.readAt at_ 4)))
    for k in List.range n do
      let sc := leNat (s.readAt (at_ + 16 + b + k) 1)
      let e := blockElems d.fp sc (s.readAt (at_ + 16 + ceil16 blocks + (b + k) * blockBytes d.fp) (blockBytes d.fp))
      modify (fun t => { t with invalid := t.invalid + e.2 })
      out := out ++ [(e.1, scaleValue sc, panel)]
  pure out

/-- The exact values of a row (R126). -/
def State.tensorRow (s : State) (d : Desc) (r : Nat) : Calc (List Fp) := do
  if isBlock d.fp then
    let bs ← s.blockRow d r
    pure (bs.flatMap (fun b => b.1.map (fun x => (x.mul b.2.1).mul b.2.2)))
  else
    let z := elemSize d.fp
    let bytes := s.readAt (d.base + r * d.rowStride) (d.cols * z)
    pure ((List.range d.cols).map (fun c => elemValue d.fp (field bytes (z * c) z)))

/-- The same rounded to FP32, as the vector unit and the drain take operands (R126). -/
def State.tensorRow32 (s : State) (d : Desc) (r : Nat) : Calc (List Fp) := do (← s.tensorRow d r).mapM r32

/-- The spans that reading one row touches: for a block format the panels' headers, scales and elements (R194). -/
def Desc.rowReads (d : Desc) (r : Nat) : List (Nat × Nat) :=
  if isBlock d.fp then
    (List.range d.slabs).flatMap (fun j =>
      let n := d.rowBlocks j
      let p := r / d.panelRows j
      let at_ := d.panelAt j p
      let b := r % d.panelRows j * n
      [(at_, 16), (at_ + 16 + b, n), (at_ + 16 + ceil16 (d.panelBlocks j p) + b * blockBytes d.fp, n * blockBytes d.fp)])
  else [(d.base + r * d.rowStride, d.cols * elemSize d.fp)]

-- writing tensors

/-- A list in parts of `n`. -/
def chunks {α : Type} (n : Nat) : Nat → List α → List (List α)
  | 0, _ => []
  | f + 1, l => if l.isEmpty then [] else l.take n :: chunks n f (l.drop n)

/-- The header of a panel as an instruction writes it (R121, R123, R194). -/
def Desc.header (d : Desc) (j p : Nat) : List Byte :=
  leBytes 4 d.panelScale.toNat ++ leBytes 2 (d.panelBlocks j p) ++ leBytes 1 (min d.fp 8) ++ List.replicate 9 0

/-- The writes of a row's blocks, each a block scale and its bytes. -/
def Desc.blockWrites (d : Desc) (r : Nat) (blocks : List (Nat × List Byte)) : List (Nat × List Byte) :=
  (List.range d.slabs).flatMap (fun j =>
    let n := d.rowBlocks j
    let p := r / d.panelRows j
    let at_ := d.panelAt j p
    let b := r % d.panelRows j * n
    let count := d.panelBlocks j p
    let mine := (blocks.drop (8 * j)).take n
    let pad := if b + n = count then List.replicate (ceil16 count - count) 0 else []
    [(at_, d.header j p), (at_ + 16 + b, mine.map (fun x => BitVec.ofNat 8 x.1) ++ pad),
     (at_ + 16 + ceil16 count + b * blockBytes d.fp, mine.flatMap Prod.snd)])

/-- The writes of one row of values, narrowed to the descriptor's format (R117, R118, R127, R194). -/
def Desc.rowWrites (d : Desc) (r : Nat) (xs : List Fp) : Calc (List (Nat × List Byte)) := do
  if isBlock d.fp then
    let bs ← (chunks 32 xs.length xs).mapM (encodeBlock d.fp (ofF32 d.panelScale))
    pure (d.blockWrites r bs)
  else
    let codes ← xs.mapM (toElem d.fp)
    pure [(d.base + r * d.rowStride, codes.flatMap (leBytes (elemSize d.fp)))]

/-- A write of more than 4 KiB, or across two stacks, as the transactions it makes (R249). -/
def splitWrite : Nat → Nat × List Byte → List (Nat × List Byte)
  | 0, _ => []
  | f + 1, (a, bs) =>
    if bs.isEmpty then []
    else
      let room := min 4096 (if a < hbmSize then stackSize - a % stackSize else 4096)
      (a, bs.take room) :: splitWrite f (a + room, bs.drop room)

/-- A span as its transactions. -/
def splitSpan : Nat → Nat → Nat → List (Nat × Nat)
  | 0, _, _ => []
  | f + 1, a, n =>
    if n = 0 then []
    else
      let room := min n (min 4096 (if a < hbmSize then stackSize - a % stackSize else 4096))
      (a, room) :: splitSpan f (a + room) (n - room)

/-- Counts of a unit go to its core's counters (R134): `sat` and `nan` are the sub-indices of the unit's own two. -/
def State.countTally (s : State) (c satSub nanSub : Nat) (t : Tally) : State :=
  let i := coreIdx c
  let s := s.bump i satSub t.sat
  let s := s.bump i nanSub t.nan
  let s := s.bump i 0x36 t.clamp
  let s := s.bump i 0x37 t.under
  let s := s.bump i 0x38 t.invalid
  let s := s.bump i 0x39 t.resc
  { s with free := if t.free = 0 then s.free else t.free }

end Sys2Proof.Machine
end

