-- ==== Sys2Proof/Machine/Rings.lean ====
section
/-! DEFINITION. Rings of the host ports: completions written, held and sent (R358, R364 to R366, R320, R339), and the fixed
round in which requests are taken (R359 to R361). -/

namespace Sys2Proof.Machine

-- completion entries (R364)

/-- A completion entry with PHASE 0: TYPE, STATUS, FLAGS, TAG and the body from byte 8. -/
def completion (type status flags tag : Nat) (body : List Byte) : List Byte :=
  padTo 64 0 (leBytes 1 type ++ leBytes 1 status ++ leBytes 1 flags ++ [0] ++ leBytes 4 tag ++ body)

/-- REQUEST_DONE: the request's TYPE and TAG, the status and RESULT. -/
def requestDone (type status result tag : Nat) : List Byte :=
  completion 1 status 0 tag (leBytes 1 type ++ List.replicate 7 0 ++ leBytes 8 result)

/-- A ring of a port, and a change of it. -/
def HostPort.ring (h : HostPort) (r : Nat) : Ring := tget h.rings r
def State.ring (s : State) (p r : Nat) : Ring := (s.host p).ring r
def State.modRing (s : State) (p r : Nat) (f : Ring → Ring) : State :=
  s.modHost p (fun h => { h with rings := tmod h.rings r f })

/-- Entries of a ring (R362), and the address of one in ring space (R360). -/
def Ring.size (r : Ring) : Nat := 2 ^ r.sizeLog2
def ringAt (p r i : Nat) : Nat := ringBase + p * 0x80000000 + r * 0x4000000 + 64 * i

/-- The ring runs and has a free entry. -/
def Ring.room (r : Ring) : Bool := r.enabled && (r.tail + 1) % r.size != r.head

/-- One completion is written at TAIL: the entry with its PHASE, the index, the vector (R364, R365). -/
def State.writeCompletion (s : State) (p r : Nat) (entry : List Byte) : State :=
  let g := s.ring p r
  let bs := entry.set 3 (if g.phase then 1 else 0)
  let s := s.storeBytes (ringAt p r g.tail) bs
  let next := (g.tail + 1) % g.size
  let s := s.modRing p r (fun g => { g with tail := next, phase := if next = 0 then !g.phase else g.phase })
  if g.irq then s.signalVector p g.vector else s

/-- A completion for a ring: written, or held in order behind those that wait (R366). -/
def State.post (s : State) (p r : Nat) (entry : List Byte) : State :=
  let g := s.ring p r
  if g.waiting.isEmpty && g.room then s.writeCompletion p r entry
  else s.modRing p r (fun g => { g with waiting := g.waiting ++ [entry] })

/-- Fields of a queue-pair context (R319). -/
def Qp.byte (q : Qp) (off n : Nat) : Nat := q.context >>> (8 * off) % 2 ^ (8 * n)
def Qp.remote (q : Qp) : BitVec 128 := BitVec.ofNat 128 (beNat (leBytes 16 (q.byte 8 16)))

/-- The lowest-numbered RTS queue pair with REPLY whose address is that of a fabric owner (R320). -/
def State.replyQp (s : State) (owner : Nat) : Option Nat :=
  (s.qps.find? (fun q => q.2.st = 3 && bitOf (q.2.byte 41 1) 0 && s.peerMaster q.2.remote = some owner)).map Prod.fst

/-- A completion for a fabric owner goes out as a SEND, or is dropped and counted (R320). -/
def State.sendTo (s : State) (owner : Nat) (entry : List Byte) : State :=
  match s.replyQp owner with
  | some q => s.emit (.send q entry)
  | none => s.bump 0x2300 0x1E 1

/-- A completion for an owner: its completion ring, or a SEND (R320, R358). -/
def State.postTo (s : State) (owner : Nat) (ring : Option (Nat × Nat)) (entry : List Byte) : State :=
  match ring with
  | some (p, r) => s.post p r entry
  | none => s.sendTo owner entry

/-- The completion of a request: `ring` is the request ring it came by, none for a SEND (R320, R358). -/
def State.done (s : State) (owner : Nat) (ring : Option (Nat × Nat)) (type status result tag : Nat) : State :=
  s.postTo owner (ring.map (fun x => (x.1, x.2 + 8))) (requestDone type status result tag)

/-- A request refused by the access tables completes ACCESS and raises ACCESS_DENIED (R260). -/
def State.doneDenied (s : State) (m : Nat) (ring : Option (Nat × Nat)) (type tag addr lacking : Nat) : State :=
  (s.deny (some m) addr lacking).done m ring type 0x0C 0 tag

-- requests (R361)

/-- Request types of R361. -/
def rqLoad : Nat := 0x01
def rqUnload : Nat := 0x02
def rqHold : Nat := 0x03
def rqRelease : Nat := 0x04
def rqLaunch : Nat := 0x05
def rqFirmware : Nat := 0x06
def rqAttest : Nat := 0x07
def rqQp : Nat := 0x08
def rqOpen : Nat := 0x10
def rqExtend : Nat := 0x11
def rqResume : Nat := 0x12
def rqPause : Nat := 0x13
def rqClose : Nat := 0x14

/-- TYPE, TAG and a field of the body of a request entry. -/
def rqType (e : List Byte) : Nat := field e 0 1
def rqTag (e : List Byte) : Nat := field e 4 4
def rqField (e : List Byte) (off n : Nat) : Nat := field e (8 + off) n

/-- The bytes of the body that a type does not use are 0 and its fields hold values that exist (R11, R361; log entry 8). -/
def requestBodyOk (type : Nat) (e : List Byte) : Bool :=
  let zero (off n : Nat) : Bool := rqField e off n = 0
  if type = rqLoad then zero 8 48
  else if type = rqUnload ∨ type = rqHold ∨ type = rqRelease then rqField e 0 1 < 8 && zero 1 55
  else if type = rqLaunch then zero 32 24
  else if type = rqFirmware then rqField e 12 1 < 2 && zero 13 43
  else if type = rqAttest then rqField e 32 8 % 64 = 0 && zero 40 16
  else if type = rqQp then zero 2 6 && zero 16 40
  else if type = rqOpen then rqField e 0 1 < 8 && rqField e 1 1 < 8 && zero 2 6 && zero 16 40
  else if type = rqExtend then
    rqField e 0 4 < 65536 && rqField e 4 4 ≤ 65536 && zero 12 4 && zero 24 32
  else rqField e 0 4 < 65536 && zero 4 52

/-- The entry is well formed for a request ring (R358, R361). -/
def requestOk (q : Nat) (e : List Byte) : Bool :=
  let t := rqType e
  field e 1 3 = 0 && (if q = 0 then rqLoad ≤ t && t ≤ rqQp else rqOpen ≤ t && t ≤ rqClose) && requestBodyOk t e

/-- The entry at HEAD of a request ring. -/
def State.headEntry (s : State) (p q : Nat) : List Byte := s.mem.read (ringAt p q (s.ring p q).head) 64

/-- Requests are served from STANDBY onward (R508). -/
def State.servesRequests (s : State) : Bool := !(s.run.st = .off || s.run.st = .boot)

/-- A request ring has an entry that the supervisor may take: it runs, is not empty, and no completion of its pair waits
(R359, R366). -/
def State.servable (s : State) (p q : Nat) : Bool :=
  let g := s.ring p q
  g.enabled && g.head != g.tail && (s.ring p (q + 8)).waiting.isEmpty && s.servesRequests

/-- An entry is consumed: HEAD, the place in the round and the count of requests (R359, R362, R371). -/
def State.consume (s : State) (p q : Nat) : State :=
  let s := s.modRing p q (fun g => { g with head := (g.head + 1) % g.size })
  ({ s with round := (2 * q + p + 1) % 16 } : State).bump (0x2500 + p) 0x0A 1

/-- The ring that the round serves next: A0, B0, A1, ... B7, from where it stands (R359). -/
def State.nextRing (s : State) : Option (Nat × Nat) :=
  ((List.range 16).map (fun i => let k := (s.round + i) % 16
    (k % 2, k / 2))).find? (fun r => s.servable r.1 r.2)

/-- Malformed entries that come first in the round complete RESERVED_FIELD (R361); then the next good one, not yet
consumed. -/
def State.nextRequest : Nat → State → State × Option (Nat × Nat × List Byte)
  | 0, s => (s, none)
  | f + 1, s =>
    match s.nextRing with
    | none => (s, none)
    | some (p, q) =>
      let e := s.headEntry p q
      if requestOk q e then (s, some (p, q, e))
      else State.nextRequest f (((s.consume p q).done (2 + p) (some (p, q)) (rqType e) 0x01 0 (rqTag e)))

/-- More entries than the rings of both ports can hold. -/
def roundFuel : Nat := 65536

/-- The next request of the round, if it is of a type: the state with it consumed, its port, ring and entry. Where only malformed
entries wait, the state with them answered; where another type comes first, the state as it was. -/
def State.takeRequest (s : State) (type : Nat) : State × Option (Nat × Nat × List Byte) :=
  match s.nextRequest roundFuel with
  | (s', some (p, q, e)) => if rqType e = type then (s'.consume p q, some (p, q, e)) else (s, none)
  | (s', none) => (s', none)

/-- What a request is served with: its master, the ring it came by, and the entry. -/
structure Rq where
  m : Nat
  ring : Option (Nat × Nat)
  entry : List Byte
  deriving DecidableEq, Repr

/-- A row that serves a request of the rings: `f` acts on the next one of its type; otherwise nothing but time changes. -/
def State.serve (s : State) (type : Nat) (f : Rq → State → State) : State :=
  match s.takeRequest type with
  | (s', none) => s'
  | (s', some (p, q, e)) => f { m := 2 + p, ring := some (p, q), entry := e } s'

/-- The completion of a served request. -/
def State.answer (s : State) (r : Rq) (status result : Nat) : State :=
  s.done r.m r.ring (rqType r.entry) status result (rqTag r.entry)

/-- A served request refused by the access tables. -/
def State.answerDenied (s : State) (r : Rq) (addr lacking : Nat) : State :=
  s.doneDenied r.m r.ring (rqType r.entry) (rqTag r.entry) addr lacking

-- the token log (R339)

/-- Entries wait for an acknowledgement in this twin state (R339). -/
def TwinSt.holds : TwinSt → Bool
  | .syncing => true
  | .paired => true
  | .suspect => true
  | .selfFenced => true
  | _ => false

/-- The position of a log entry: the extent of the stream once what it says is done (R340, R343; DEDUCED). -/
def Stream.logPosition (c : Stream) : LogItem → Nat
  | .token _ => c.position + 1
  | .extended _ _ => c.position + c.prompt.length
  | _ => c.position

/-- A completion is delivered without an acknowledgement: the stream counts as unprotected (R339). -/
def State.deliverBare (s : State) (n owner : Nat) (ring : Option (Nat × Nat)) (entry : List Byte) : State :=
  (s.modStream n (fun c => if c.st = .free then c else { c with bare := true })).postTo owner ring entry

/-- A stream's log entry and the completion that waits on it: sent to the twin and held while the pair logs, else posted at
once (R339). Tokens of an adopted stream wait for the time of R337 first. -/
def State.logged (s : State) (n : Nat) (item : LogItem) (owner : Nat) (ring : Option (Nat × Nat)) (entry : List Byte) :
    State :=
  if s.twin.st.holds then
    let seq := s.twin.logSeq + 1
    let log : LogEntry := { seq := seq, stream := n, position := (s.stream n).logPosition item, item := item }
    let go := s.twin.st = .syncing || s.twin.st = .paired
    let wait : Held := { log := log, sent := go, owner := owner, ring := ring, entry := entry }
    let s := { s with twin := { s.twin with logSeq := seq, held := s.twin.held ++ [wait] } }
    if go then s.emit (.logEntry log) else s
  else if s.ns < (s.stream n).heldUntil && (match item with
      | .token _ => true
      | _ => false) then
    { s with twin := { s.twin with fenceHeld := s.twin.fenceHeld ++
        [{ log := { stream := n }, owner := owner, ring := ring, entry := entry }] } }
  else s.deliverBare n owner ring entry

/-- A stream that closes with its job is logged as closed, without a completion (R238, R339; DEDUCED). -/
def State.logClosed (s : State) (n : Nat) : State :=
  if s.twin.st = .syncing || s.twin.st = .paired then
    let seq := s.twin.logSeq + 1
    ({ s with twin := { s.twin with logSeq := seq } } : State).emit
      (.logEntry { seq := seq, stream := n, position := (s.stream n).position, item := .closed })
  else s

end Sys2Proof.Machine
end

