-- ==== Sys2Proof/Machine/Pages.lean ====
section
/-! DEFINITION. Streams and their key-value pages: frames, page trees, stream states and their completions (R239 to R245,
R364). -/

namespace Sys2Proof.Machine

-- frames (R243)

/-- Bytes of a page (R243), and of a node. -/
def Job.pageBytes (j : Job) : Nat := ceilDiv (64 * (j.kBytes + j.vBytes)) 4096 * 4096
def nodeBytes : Nat := 4096

/-- A kind of frame: pages, or nodes. -/
inductive FrameKind
  | page | node
  deriving DecidableEq, Repr

def Job.frameBytes (j : Job) : FrameKind → Nat
  | .page => j.pageBytes
  | .node => nodeBytes

/-- Base and bytes of an area of a job on stack `m`. -/
def Job.area (j : Job) (k : FrameKind) (m : Nat) : Nat × Nat :=
  let a := j.kv.getD m {}
  match k with
  | .page => (a.pageBase, a.pageBytes)
  | .node => (a.nodeBase, a.nodeBytes)

def Job.taken (j : Job) : FrameKind → List Nat
  | .page => j.pages
  | .node => j.nodes

/-- Frames of a kind on stack `m`, none on a RETIRED one (R246). -/
def State.areaFrames (s : State) (j : Nat) (k : FrameKind) (m : Nat) : Nat :=
  let b := (s.job j).frameBytes k
  if s.unit (stackRef m) = .retired || b = 0 then 0 else ((s.job j).area k m).2 / b

/-- Taken frames of a kind on stack `m`. -/
def State.takenOn (s : State) (j : Nat) (k : FrameKind) (m : Nat) : List Nat :=
  let a := (s.job j).area k m
  ((s.job j).taken k).filter (fun x => a.1 ≤ x && x < a.1 + a.2)

/-- Free frames of a kind on a stack, and in all. -/
def State.freeOn (s : State) (j : Nat) (k : FrameKind) (m : Nat) : Nat := s.areaFrames j k m - (s.takenOn j k m).length
def State.freeFrames (s : State) (j : Nat) (k : FrameKind) : Nat := ((List.range 20).map (s.freeOn j k)).sum
def State.allFrames (s : State) (j : Nat) (k : FrameKind) : Nat := ((List.range 20).map (s.areaFrames j k)).sum

/-- The stack with the most free frames of a kind, the lowest of equals (R245). -/
def State.bestStack (s : State) (j : Nat) (k : FrameKind) : Nat :=
  (List.range 20).foldl (fun b m => if s.freeOn j k b < s.freeOn j k m then m else b) 0

/-- The `i`-th free frame of an area, counted from its base in `n` frames. -/
def freeFrame (base size : Nat) (taken : List Nat) : Nat → Nat → Option Nat
  | 0, _ => none
  | n + 1, i =>
    if base ∈ taken then freeFrame (base + size) size taken n i
    else if i = 0 then some base
    else freeFrame (base + size) size taken n (i - 1)

/-- A frame is taken from the stack with the most free ones (R245). Which of that area's free frames it is the spec leaves
open: a free value chooses (log entry 4). A node's bytes are set to 0, so that its entries are absent (R244). -/
def State.takeFrame (s : State) (j : Nat) (k : FrameKind) : Option (Nat × State) :=
  let m := s.bestStack j k
  let n := s.freeOn j k m
  if n = 0 then none
  else
    let b := (s.job j).frameBytes k
    let i := Config.freeNat s.free % n
    match freeFrame ((s.job j).area k m).1 b ((s.job j).taken k) (s.areaFrames j k m) i with
    | none => none
    | some a =>
      let s := s.takeFree
      let s := s.modJob j (fun x => match k with
        | .page => { x with pages := x.pages ++ [a] }
        | .node => { x with nodes := x.nodes ++ [a] })
      some (a, if k = .node then { s with mem := s.mem.clear a nodeBytes } else s)

-- page trees (R244)

/-- The frame address in a node entry; 0 is absent. -/
def nodeEntry (m : Mem) (node i : Nat) : Nat := m.num (node + 8 * i) 8 % 2 ^ 48

/-- The nodes and pages under a tree of depth `d`. -/
def walkTree (m : Mem) : Nat → Nat → List Nat × List Nat
  | 0, a => ([], if a = 0 then [] else [a])
  | d + 1, a =>
    if a = 0 then ([], [])
    else (List.range 512).foldl (fun acc i =>
      let x := nodeEntry m a i
      if x = 0 then acc else let r := walkTree m d x
        (acc.1 ++ r.1, acc.2 ++ r.2)) ([a], [])

/-- Every node and page of a stream: the layer directory is a node too. -/
def State.framesOf (s : State) (n : Nat) : List Nat × List Nat :=
  let c := s.stream n
  if c.root = 0 then ([], [])
  else (List.range 512).foldl (fun acc l =>
    let r := walkTree s.mem c.depth (nodeEntry s.mem c.root l)
    (acc.1 ++ r.1, acc.2 ++ r.2)) ([c.root], [])

/-- Index of a block at a level of a tree of depth `d` (R244). -/
def levelIndex (block level : Nat) : Nat := block / 512 ^ level % 512

/-- The page of a block, under a node of the given level count; 0 if a node or the page is absent. -/
def findPage (m : Mem) (block : Nat) : Nat → Nat → Nat
  | 0, a => a
  | d + 1, a => if a = 0 then 0 else findPage m block d (nodeEntry m a (levelIndex block d))

/-- The page that holds a position in a layer, 0 if absent. -/
def State.pageOf (s : State) (n layer position : Nat) : Nat :=
  let c := s.stream n
  if c.root = 0 then 0 else findPage s.mem (position / 64) c.depth (nodeEntry s.mem c.root layer)

/-- Make the page of a block exist under an entry at `slot`: missing nodes and the page are taken on the way (R245). -/
def State.makePage (s : State) (j block slot : Nat) : Nat → Option State
  | 0 =>
    if s.mem.num slot 8 % 2 ^ 48 != 0 then some s
    else (s.takeFrame j .page).map (fun r => { r.2 with mem := r.2.mem.write slot (leBytes 8 r.1) })
  | d + 1 =>
    let a := s.mem.num slot 8 % 2 ^ 48
    if a != 0 then s.makePage j block (a + 8 * levelIndex block d) d
    else
      match s.takeFrame j .node with
      | none => none
      | some r =>
        let s := { r.2 with mem := r.2.mem.write slot (leBytes 8 r.1) }
        s.makePage j block (r.1 + 8 * levelIndex block d) d

/-- DEPTH is raised by one for every layer: each layer's tree gets a new root over its old one (R245; log entry 9). -/
def State.raiseDepth (s : State) (j n : Nat) : Option State :=
  let c := s.stream n
  let step (acc : Option State) (l : Nat) : Option State :=
    match acc with
    | none => none
    | some s =>
      let old := nodeEntry s.mem c.root l
      if old = 0 then some s
      else match s.takeFrame j .node with
        | none => none
        | some r => some { r.2 with mem := (r.2.mem.write r.1 (leBytes 8 old)).write (c.root + 8 * l) (leBytes 8 r.1) }
  ((List.range (s.job j).kvLayers).foldl step (some s)).map (fun s =>
    s.modStream n (fun c => { c with depth := c.depth + 1 }))

/-- DEPTH reaches what the highest position needs (R244, R245), in at most `f` raisings. -/
def State.deepen (s : State) (j n top : Nat) : Nat → Option State
  | 0 => some s
  | f + 1 =>
    if top < 64 * 512 ^ (s.stream n).depth then some s
    else match s.raiseDepth j n with
      | none => none
      | some s => s.deepen j n top f

/-- The pages of every block that positions `a` to `b` of a layer lie in exist: none if a frame is missing (R245). -/
def State.makePages (s : State) (j n layer a b : Nat) : Option State :=
  let withRoot : Option State :=
    if (s.stream n).root != 0 then some s
    else (s.takeFrame j .node).map (fun r => r.2.modStream n (fun c => { c with root := r.1 }))
  match withRoot with
  | none => none
  | some s =>
    match s.deepen j n b 4 with
    | none => none
    | some s =>
      (List.range (b / 64 + 1 - a / 64)).foldl (fun acc i => match acc with
        | none => none
        | some s => s.makePage j (a / 64 + i) ((s.stream n).root + 8 * layer) (s.stream n).depth) (some s)

/-- The count of pages and nodes that a stream holds is brought up to date (R239). -/
def State.recountFrames (s : State) (n added : Nat) : State :=
  s.modStream n (fun c => { c with frames := c.frames + added })

-- completions of streams (R364)

/-- A STREAM_EVENT entry of a stream. -/
def Stream.event (c : Stream) (n : Nat) : List Byte :=
  completion 4 0 (if c.adopted then 1 else 0) 0
    (leBytes 4 n ++ leBytes 1 c.st.code ++ leBytes 1 c.reason ++ [0, 0] ++ leBytes 5 c.position ++ [0, 0, 0] ++ leBytes 8 c.user)

/-- A TOKEN entry of a stream: the token, the position it occupies, the generation count, and LAST. -/
def Stream.token (c : Stream) (n : Nat) (t : BitVec 32) (position : Nat) (last : Bool) : List Byte :=
  completion 2 0 ((if c.adopted then 1 else 0) + if last then 2 else 0) 0
    (leBytes 4 n ++ leBytes 4 t.toNat ++ leBytes 5 position ++ [0, 0, 0] ++ leBytes 8 c.generated ++ leBytes 8 c.user)

/-- A stream enters a state with a reason, and its owner is told (R239, R241, R364; log entry 10). -/
def State.streamTo (s : State) (n : Nat) (st : StreamSt) (reason : Nat) : State :=
  let s := s.modStream n (fun c => { c with st := st, reason := reason, after := 0 })
  let c := s.stream n
  let s := s.modStream n (fun c => { c with adopted := false })
  s.postTo c.owner c.ring (c.event n)

/-- The frames of a stream return to its job's areas (R245). -/
def State.freePages (s : State) (n : Nat) : State :=
  let c := s.stream n
  let f := s.framesOf n
  (s.modJob c.job (fun j => { j with
    pages := j.pages.filter (fun x => x ∉ f.2), nodes := j.nodes.filter (fun x => x ∉ f.1) })).modStream n
      (fun c => { c with root := 0, depth := 0, frames := 0 })

/-- A stream becomes FREE: its context reads as zeros (R239). -/
def State.freeStream (s : State) (n : Nat) : State := { s with streams := tset s.streams n {} }

/-- The running step includes the stream (R241). -/
def State.inStep (s : State) (n : Nat) : Bool :=
  match (s.job (s.stream n).job).step with
  | some r => r.streams.any (fun x => x.1 = n)
  | none => false

/-- A stream closes (R241): FAILED becomes FREE at once, any other CLOSING. -/
def State.closeNow (s : State) (n : Nat) : State :=
  if (s.stream n).st = .failed then ((s.freePages n).streamTo n .free (s.stream n).reason).freeStream n
  else s.streamTo n .closing (s.stream n).reason

/-- The streams of a job that are not FREE. -/
def State.streamsOf (s : State) (j : Nat) : List Nat :=
  (s.streams.filter (fun x => x.2.st != .free && x.2.job = j)).map Prod.fst

/-- The lowest FREE context (R242). -/
def lowestFree : Nat → Nat → Tbl Stream → Option Nat
  | 0, _, _ => none
  | f + 1, i, t => if (tget t i).st = .free then some i else lowestFree f (i + 1) t
def State.freeContext (s : State) : Option Nat :=
  match lowestFree (s.streams.length + 1) 0 s.streams with
  | some i => if i < 65536 then some i else none
  | none => none

/-- Streams in a state, and streams in use (R251). -/
def State.countStreams (s : State) (st : StreamSt) : Nat := (s.streams.filter (fun x => x.2.st = st)).length
def State.streamsInUse (s : State) : Nat := (s.streams.filter (fun x => x.2.st != .free)).length

end Sys2Proof.Machine
end

