-- ==== Sys2Proof/Machine/Work.lean ====
section
/-! DEFINITION. Operations of a core's table, from queue to completion, and what a status does to the step and the job
(R170, R171, R222, R223, R237, R238, R393). -/

namespace Sys2Proof.Machine

-- run state and jobs

/-- Some job is RUNNING. -/
def State.anyRunning (s : State) : Bool := s.jobs.any (fun j => j.2.st = .running)

/-- READY and SERVING follow whether a job is RUNNING (R393). -/
def State.followJobs (s : State) : State :=
  if s.run.st = .ready && s.anyRunning then s.runTo .serving
  else if s.run.st = .serving && !s.anyRunning then s.runTo .ready
  else s

/-- The units a running job uses on a core: the core, its drain, skim, tensor and vector units and the engines of its slots
(R169, R196; log entry 11). -/
def State.coreUnits (s : State) (c : Nat) : List Nat :=
  [coreRef c, digitalRef 3 c, digitalRef 4 c, digitalRef 5 c, digitalRef 6 c] ++
  (List.range 32).filterMap (fun slot =>
    let e := (tfind (s.core c).slotMap slot).getD slot
    if e < 34 then some (engineRef c e) else none)

/-- READY units of a job's cores become SERVING when it runs, and READY again when it leaves (log entry 11). -/
def State.serveUnits (s : State) (j : Nat) (on : Bool) : State :=
  ((s.jobCores j).flatMap s.coreUnits).foldl (fun s r =>
    if on && s.unit r = .ready then s.putUnit r .serving
    else if !on && s.unit r = .serving then s.putUnit r .ready
    else s) s

/-- A job takes a state (R234); the running job and the run state follow. -/
def State.jobTo (s : State) (j : Nat) (st : JobSt) : State :=
  let was := (s.job j).st
  let s := s.modJob j (fun x => { x with st := st })
  let s :=
    if st = .running then { s.serveUnits j true with sched := { s.sched with running := some j } }
    else if was = .running then
      let s := s.serveUnits j false
      { s with sched := { s.sched with running := if s.sched.running = some j then none else s.sched.running } }
    else s
  s.followJobs

/-- A job faults: it is to be saved (R164); QUEUED, ACTIVE and RESTORING streams become IDLE with REASON JOB_FAULT; logged
tokens still to be recomputed are discarded (R238). -/
def State.faultJob (s : State) (j : Nat) : State :=
  let s := s.jobTo j .faulted
  let s := { s with sched := { s.sched with saving := some j } }
  (s.streamsOf j).foldl (fun s n =>
    let st := (s.stream n).st
    if st = .queued || st = .active || st = .restoring then
      (s.modStream n (fun c => { c with forced := [] })).streamTo n .idle 5
    else s) s

-- operations

/-- An operation has not started: decoded, or waiting in a queue (R223). -/
def OpStage.unstarted : OpStage → Bool
  | .decoded => true
  | .queued => true
  | _ => false

/-- Remove an operation from every queue of its core. -/
def Core.unqueue (c : Core) (n : Nat) : Core :=
  { c with queues := (c.queues.map (fun q => (q.1, q.2.filter (fun x => x != n)))).filter (fun q => !q.2.isEmpty) }

/-- An operation stands completed with a status and waits for INSTRUCTION_COMPLETE. -/
def Core.finish (c : Core) (n status : Nat) : Core :=
  (c.unqueue n).modOp n (fun o => { o with stage := .complete status, left := [], readDone := true })

def State.finish (s : State) (c n status : Nat) : State := s.modCore c (fun k => k.finish n status)

/-- Queue `q` has finished its part of an operation: the first status other than OK stands, and with the last part the
operation completes (R171, R222). -/
def Core.part (c : Core) (n q status : Nat) : Core :=
  let rest := c.queues.map (fun x => if x.1 = q then (q, x.2.filter (fun y => y != n)) else x)
  let c := { c with queues := rest.filter (fun x => !x.2.isEmpty) }
  match c.op n with
  | none => c
  | some o =>
    let left := o.left.filter (fun x => x != q)
    let st := if o.status = 0 then status else o.status
    if left.isEmpty then c.modOp n (fun o => { o with stage := .complete st, left := [], status := st, readDone := true })
    else c.modOp n (fun o => { o with stage := .running, left := left, status := st })

def State.part (s : State) (c n q status : Nat) : State := s.modCore c (fun k => k.part n q status)

/-- The operation at the head of a queue, if it is of the opcode. -/
def State.head (s : State) (c q opcode : Nat) : Option (Nat × Op) :=
  match ((s.core c).queue q).head? with
  | none => none
  | some n =>
    match (s.core c).op n with
    | some o => if opcodeOf o.word = opcode then some (n, o) else none
    | none => none

/-- The job whose step runs on a core. -/
def State.coreJob (s : State) (c : Nat) : Nat := match (s.core c).step with
  | some st => st.job
  | none => 0

/-- Decoding ends on a core and its unstarted operations complete CANCELLED (R223). -/
def Core.cancelUnstarted (c : Core) : Core :=
  let gone := (c.ops.filter (fun o => o.2.stage.unstarted)).map Prod.fst
  { c with
    step := c.step.map (fun x => { x with decodeDone := true })
    ops := c.ops.filter (fun o => !o.2.stage.unstarted)
    queues := (c.queues.map (fun q => (q.1, q.2.filter (fun x => x ∉ gone)))).filter (fun q => !q.2.isEmpty) }

/-- The cores on which a job's step runs. -/
def State.stepCores (s : State) (j : Nat) : List Nat :=
  (List.range 16).filter (fun c => match (s.core c).step with
    | some st => st.job = j
    | none => false)

/-- A step is stopped or abandoned on every core of its job with a status class (R223). A Program-class or Timing-class stop
is reported once, with the status and the address of the instruction (R488). -/
def State.stopStep (s : State) (j cls status addr : Nat) : State :=
  let was := ((s.job j).step.map (fun r => r.stopped)).getD 0
  let s := s.modJob j (fun x => { x with step := x.step.map (fun r =>
    { r with stopped := if r.stopped = 0 || cls = 1 then cls else r.stopped }) })
  let s := if (cls = 1 || cls = 3) && (was = 0 || (was = 2 && cls = 1)) && (s.job j).step.isSome then
      s.raise 0x0115 0 (j + status * 256 + addr % 2 ^ 48 * 65536) else s
  (s.stepCores j).foldl (fun s c => s.modCore c Core.cancelUnstarted) s

/-- Severity of a class for the worst status of a step: Program, Unit, Timing, Stream (R237; log entry 12). -/
def worse (a b : Nat) : Bool :=
  let rank (st : Nat) : Nat := if statusClass st = 0 then 5 else statusClass st
  rank b < rank a

/-- What a completion with a status other than OK does to the job (R222, R223). -/
def State.classAct (s : State) (j status addr : Nat) : State :=
  match statusClass status with
  | 1 => if (s.job j).st = .running then (s.stopStep j 1 status addr).faultJob j else s.stopStep j 1 status addr
  | 2 => s.stopStep j 2 status addr
  | 3 => s.stopStep j 3 status addr
  | 4 =>
    match (s.job j).step with
    | none => s
    | some r => r.failed.foldl (fun s f =>
        if f.2 = stKvNoPage && (s.stream f.1).st = .active then s.streamTo f.1 .idle 4 else s) s
  | _ => s

/-- An instruction completes: its entry is freed, SIG is added, a failure is counted and recorded, and its class acts
(R190, R222, R223, R224). -/
def State.retire (s : State) (c n status : Nat) : State :=
  match (s.core c).op n with
  | none => s
  | some o =>
    let j := s.coreJob c
    let sig := sigOf o.word
    let s := s.modCore c (fun k => { k.unqueue n with
      ops := tdel k.ops n
      signals := if sig = 0 || status = stCancelled then k.signals else tmod k.signals sig (fun v => (v + 1) % 2 ^ 32)
      -- END ends the core's part of the step (R218)
      step := if opcodeOf o.word = opEnd && status = stOk then k.step.map (fun x => { x with ended := true }) else k.step })
    if status = stOk || status = stCancelled then s
    else
      let s := s.bump (coreIdx c) 0x10 1
      let s := s.setVal (coreIdx c) 0x0E status
      let s := s.setVal (coreIdx c) 0x0F o.addr
      let s := s.modJob j (fun x => { x with step := x.step.map (fun r =>
        { r with failAddr := if r.worst = 0 || worse r.worst status then o.addr else r.failAddr
                 worst := if r.worst = 0 || worse r.worst status then status else r.worst }) })
      s.classAct j status o.addr

/-- The seven queues that are not an engine's (R171). -/
def qDrain : Nat := 66
def qSkim : Nat := 67
def qTensor : Nat := 68
def qVector : Nat := 69
def qDma : Nat := 70
def qControl : Nat := 71

/-- Depth of a queue (R171). -/
def queueDepth (q : Nat) : Nat :=
  if q = qTensor ∨ q = qVector then 32 else if q = qDma then 256 else 64

/-- The engine of a slot, none when the slot is mapped to none (R196). -/
def Core.slotEngine (k : Core) (slot : Nat) : Option Nat :=
  let e := (tfind k.slotMap slot).getD slot
  if e < 34 then some e else none

/-- The queue of a slot: its engine's, or the stand-in's (R196, R474). -/
def Core.slotQueue (k : Core) (slot : Nat) : Option Nat :=
  if slot ∈ k.standIns then some (34 + slot) else k.slotEngine slot

/-- Slots of a mask, lowest first; the rank of a slot is its place (R196). -/
def maskSlots (mask : Nat) : List Nat := (List.range 32).filter (fun i => bitOf mask i)

/-- The slot of an engine in the core's map. -/
def Core.slotOf (k : Core) (e : Nat) : Option Nat := (List.range 32).find? (fun i => i ∉ k.standIns && k.slotEngine i = some e)

/-- The rank of a slot within a mask (R196). -/
def rankOf (mask slot : Nat) : Nat := (maskSlots (mask % 2 ^ slot)).length

/-- The queue of an instruction by its opcode (R191), none for the engine instructions and PATH.SEL. -/
def opQueue (o : Nat) : Option Nat :=
  if o = opDrain then some qDrain else if o = opSkim then some qSkim else if o = opTens then some qTensor
  else if o = opVec then some qVector else if o = opMove ∨ o = opKvAppend ∨ o = opKvGather then some qDma
  else if o = opPathSel ∨ (opBankWrite ≤ o ∧ o ≤ opResume) then none else some qControl

def isEngineOp (o : Nat) : Bool := opBankWrite ≤ o && o ≤ opResume

/-- The core-store address of a job's descriptor table on the core that runs one of its logical cores (R192, R231). -/
def State.descTable (s : State) (c : Nat) : Nat :=
  match (s.core c).step with
  | none => storeBase c
  | some st => storeBase c + ((s.job st.job).cores.getD st.logical {}).descDst

/-- The descriptor of an index (R192, R193). -/
def State.desc (s : State) (c i : Nat) : Desc := Desc.ofBytes (s.mem.read (s.descTable c + 32 * i) 32)

/-- The descriptor an operation read at its dispatch. -/
def Op.desc (o : Op) (i : Nat) : Desc := (tfind o.descs i).getD {}

/-- The digital unit of a core is in service. -/
def State.unitWorks (s : State) (r : Nat) : Bool := (s.unit r).works

/-- The churn region of slot `slot` on a core (R145, R231). -/
def State.churnBase (s : State) (c slot : Nat) : Nat :=
  match (s.core c).step with
  | none => storeBase c
  | some st => storeBase c + ((s.job st.job).cores.getD st.logical {}).churnDst + 0x800000 * slot

end Sys2Proof.Machine
end

