-- ==== Sys2Proof/Machine/Units.lean ====
section
/-! DEFINITION. What a unit that leaves service does to the work on it: passes, bank writes and steps (R36, R100, R157, R222,
R472). -/

namespace Sys2Proof.Machine

/-- An engine is out of service, itself or with its core (R157; log entry 14). -/
def State.engineOut (s : State) (c e : Nat) : Bool := (s.unit (engineRef c e)).out || (s.unit (coreRef c)).out

/-- Nothing waits, opens or converts on an engine any more; results that have left the readout stay on their way. -/
def Engine.clearIssue (g : Engine) : Engine :=
  { g with inbuf := [], passes := [], vec := none, prev := none, todo := [], integrating := none, converting := none,
           partialSum := [], starvedAt := none }

/-- The passes of an engine end with a status (R36). -/
def State.endPasses (s : State) (c e status : Nat) : State :=
  let ops := (s.eng c e).passes.map (fun p => p.op)
  ops.foldl (fun s n => s.part c n e status) (s.modEng c e Engine.clearIssue)

/-- An operation has no further part on an engine: its codes, windows and results are dropped. -/
def Engine.dropOp (g : Engine) (n : Nat) : Engine :=
  let mine (w : Window) : Bool := w.op = n
  { g with inbuf := g.inbuf.filter (fun v => v.op != n), passes := g.passes.filter (fun p => p.op != n),
           vec := g.vec.filter (fun v => v.op != n), prev := g.prev.filter (fun v => v.op != n),
           todo := g.todo.filter (fun w => !mine w), integrating := g.integrating.filter (fun w => !mine w),
           partialSum := if g.converting.any mine then [] else g.partialSum,
           converting := g.converting.filter (fun w => !mine w), results := g.results.filter (fun r => r.op != n) }

/-- A plane becomes EMPTY: its record and all that was measured of it go with its contents (R99, R101). -/
def Plane.emptied (p : Plane) : Plane :=
  { map := p.map, retired := p.retired, rewrites := p.rewrites, calAt := p.calAt }

/-- The writes of an engine are abandoned (R100): the plane being written becomes EMPTY, and the instructions end on this
engine with ENGINE_FAULT. -/
def State.abandonWrite (s : State) (c e : Nat) : State :=
  let g := s.eng c e
  let s := s.modEng c e (fun g => { g with writing := none, writeWait := none, remapWait := [] })
  let s := match g.writing with
    | none => s
    | some w =>
      let s := if w.phase = .waiting || w.spare.isSome then s else s.modEng c e (fun g => g.modPlane w.plane Plane.emptied)
      match w.op with
      | some n => s.part c n e stEngineFault
      | none => s
  match g.writeWait with
  | some w => (match w.op with
    | some n => s.part c n e stEngineFault
    | none => s)
  | none => s

/-- The running step of every job that uses a unit is abandoned as Unit class (R472). -/
def State.abandonUsers (s : State) (r : Nat) : State :=
  let users := (s.jobs.filter (fun j => j.2.step.isSome && ((s.jobCores j.1).any (fun c => r ∈ s.coreUnits c)))).map Prod.fst
  users.foldl (fun s j => s.stopStep j 2 0 0) s

/-- A fault of a unit counts among those of the last 24 h (R472). -/
def dayPs : Nat := 86400 * sPs
def State.countFault (s : State) (r : Nat) : State :=
  s.modUnit r (fun u => { u with faults := u.faults.filter (fun t => s.up < t + dayPs) ++ [s.up] })

/-- A unit takes a state in which it does not serve: its work ends (R100, R157, R472). -/
def State.leave (s : State) (r : Nat) (st : UnitSt) : State :=
  let s := s.abandonUsers r
  let s := s.putUnit r st
  if refKind r = 2 then
    let c := refA r
    let e := refB r
    (((s.endPasses c e stEngineFault).abandonWrite c e).modEng c e (fun g => { g with cal := none, stopping := false }))
  else if refKind r = 1 then
    let c := refB r
    forRange 34 s (fun s e => ((s.endPasses c e stEngineFault).abandonWrite c e).modEng c e (fun g => { g with cal := none }))
  else s

/-- A unit faults and becomes FENCED, to be tested once by itself (R385, R472); an engine or core that has faulted more often than
the Engine Retire Limit in 24 h is RETIRED. -/
def State.fence (s : State) (r : Nat) : State :=
  let s := (s.countFault r).modUnit r (fun u => { u with autoTested := false, command := 0 })
  if (refKind r = 1 || refKind r = 2) && s.val 0x4003 6 < (tget s.units r).faults.length then
    (s.modUnit r (fun u => { u with retiredNv := true })).leave r .retired
  else s.leave r .fenced

/-- The unit whose state holds back an instruction at the head of a queue: the status it completes with (R222), 0 for none. -/
def State.queueFault (s : State) (c q : Nat) : Nat :=
  let out (r : Nat) : Bool := (s.unit r).out
  if out (coreRef c) then stUnitFault
  else if q < 34 then (if out (engineRef c q) then stUnitFault else stOk)
  else if q = qDrain then (if out (digitalRef 3 c) then stUnitFault else stOk)
  else if q = qSkim then (if out (digitalRef 4 c) then stUnitFault else stOk)
  else if q = qVector then (if out (digitalRef 6 c) then stUnitFault else stOk)
  else if q < 66 || q = qTensor then (if out (digitalRef 5 c) then stUnitFault else stOk)
  else stOk

end Sys2Proof.Machine
end

