-- ==== Sys2Proof/Machine/Stacks.lean ====
section
/-! DEFINITION. Uncorrectable errors and the retirement of HBM stacks, with what it does to streams and jobs (R177, R227, R235,
R241, R246, R470, R476). -/

namespace Sys2Proof.Machine

-- HOLD (R235)

/-- A RUNNING job begins to switch out, unless another job is being saved (R164). -/
def State.switchOut (s : State) (j : Nat) : State :=
  if s.sched.saving.isNone then { s with sched := { s.sched with saving := some j } } else s

/-- HOLD of a job: READY becomes HELD; a RUNNING job first switches out at its next step boundary (R235). -/
def State.holdJob (s : State) (j : Nat) : State :=
  match (s.job j).st with
  | .ready => s.jobTo j .held
  | .running =>
    let s := s.modJob j (fun x => { x with after := if x.after = 2 then 2 else 1 })
    if (s.job j).step.isNone then s.switchOut j else s
  | _ => s

-- streams that lose frames (R241, R246)

/-- A frame lies on a stack. -/
def frameOn (m a : Nat) : Bool := stackOf a = m

/-- A frame's replacement in a list of replacements. -/
def movedFrame (ms : List (Nat × Nat)) (a : Nat) : Nat := ((ms.find? (fun x => x.1 = a)).map Prod.snd).getD a

/-- New frames for those lost, with the bytes of the twin's copy: those that the frame held (DEDUCED); none left: `none`. -/
def State.replaceFrames (s : State) (j : Nat) (k : FrameKind) (lost : List Nat) : Option (State × List (Nat × Nat)) :=
  lost.foldl (fun acc a => match acc with
    | none => none
    | some (s, ms) => match s.takeFrame j k with
      | none => none
      | some (b, s) => some ({ s with mem := s.mem.copy a b ((s.job j).frameBytes k) }, ms ++ [(a, b)])) (some (s, []))

/-- A paired device brings back what the stream held on the stack, up to its checkpoint. -/
def State.rebuildFrames (s : State) (n m : Nat) : Option State :=
  let j := (s.stream n).job
  let f := s.framesOf n
  match s.replaceFrames j .node (f.1.filter (frameOn m)) with
  | none => none
  | some (s, ns) =>
    match s.replaceFrames j .page (f.2.filter (frameOn m)) with
    | none => none
    | some (s, ps) =>
      let nodes := f.1.map (movedFrame ns)
      let mem := nodes.foldl (fun mem a => (List.range 512).foldl (fun mem i =>
        let x := nodeEntry mem a i
        let y := movedFrame (ns ++ ps) x
        if x = 0 || y = x then mem else mem.write (a + 8 * i) (leBytes 8 y)) mem) s.mem
      let s := { s with mem := mem }
      let s := s.modJob j (fun x => { x with
        pages := x.pages.filter (fun a => !(ps.any (fun p => p.1 = a))), nodes := x.nodes.filter (fun a => !(ns.any (fun p => p.1 = a))) })
      some (s.modStream n (fun c => { c with root := movedFrame ns c.root, position := min c.position c.ckptPosition }))

/-- A stream that holds a page or node on a stack that is retired (R241). -/
def State.streamLoses (s : State) (n m : Nat) : State :=
  let c := s.stream n
  let f := s.framesOf n
  if !((f.1 ++ f.2).any (frameOn m)) || !(c.st = .active || c.st = .queued || c.st = .idle) then s
  else if s.twin.st = .paired then
    match s.rebuildFrames n m with
    | some s => s.streamTo n .restoring 0
    | none => s.streamTo n .failed 6
  else s.streamTo n .failed 6

-- retirement (R476)

/-- A job keeps something of its own in a stack: its record, layer table, code or descriptor sources or save area. -/
def State.jobKeeps (s : State) (j m : Nat) : Bool :=
  let x := s.job j
  let lo := m * stackSize
  let meets (a n : Nat) : Bool := 0 < overlap a n lo stackSize
  x.st != .free &&
  (meets x.record 1920 || meets x.layerTable (16 * (x.layers.filter (fun l => !l.extra)).length) ||
   x.cores.any (fun e => e.codeBytes != 0 && (meets e.codeSrc e.codeBytes || meets e.descSrc 32768)) ||
   meets x.saveBase ((x.cores.filter (fun e => e.codeBytes != 0)).map (fun e => 0x8200000 + e.regionBytes)).sum)

/-- A stack is retired (R476). -/
def State.retireStack (s : State) (m : Nat) : State :=
  let r := stackRef m
  let s := s.modUnit r (fun u => { u with retiredNv := true })
  let s := s.setUnit r .retired
  let s := s.setVal (0x5900 + m) 6 (s.clock.now / sPs % 2 ^ 64)
  let s := (s.streams.map Prod.fst).foldl (fun s n => s.streamLoses n m) s
  forRange 8 s (fun s j => if s.jobKeeps j m then (s.holdJob j).raise 0x0302 0 j else s)

/-- An uncorrectable error at an address, found by a scrub or not (R177, R470); beyond the limit in 24 h it retires the stack
(R476). -/
def State.uncorrectable (s : State) (a : Nat) (scrub : Bool) : State :=
  let detail := a % 2 ^ 48 + if scrub then 2 ^ 48 else 0
  match rangeOf a with
  | .hbm =>
    let m := stackOf a
    let r := stackRef m
    let s := ((s.bump (0x5900 + m) 3 1).raise 0x0301 r detail).countFault r
    if s.val 0x4003 7 < (tget s.units r).faults.length && s.unit r != .retired then s.retireStack m else s
  | .store c => (s.bump (coreIdx c) 0x0B 1).raise 0x0301 (coreRef c) detail
  | _ => s

end Sys2Proof.Machine
end

