-- ==== Sys2Proof/Machine/Passes.lean ====
section
/-! DEFINITION. The fields of a PASS (R40, R81, R85, R200), input expansion and alignment (R41 to R48), and the windows of a
vector with their pulse codes, range steps and resolutions (R51 to R55, R67, R68, R77). -/

namespace Sys2Proof.Machine

-- fields of a PASS word

def pIn (w : TvWord) : Nat := fld w 79 70
def pTileBase (w : TvWord) : Nat := fld w 69 58
def pTileRows (w : TvWord) : Nat := tileRows (fld w 57 46)
def pTag (w : TvWord) : Nat := fld w 45 32
def pBank (w : TvWord) : Nat := fld w 31 31
def pCoding (w : TvWord) : Nat := fld w 30 29
def pBits (w : TvWord) : Nat := fld w 28 27
def pRowMode (w : TvWord) : Nat := fld w 26 25
def pExtent (w : TvWord) : Nat := fld w 24 21
def pK (w : TvWord) : Nat := fld w 20 18
def pConfMode (w : TvWord) : Nat := fld w 17 16
def pConfCount (w : TvWord) : Nat := 2 ^ fld w 15 14
def pAdd (w : TvWord) : Bool := fld w 13 13 = 1
def pRN (w : TvWord) : Bool := fld w 12 12 = 1
def pSpill (w : TvWord) : Nat := fld w 11 7

/-- Input bits b of a BITS code (R40), and the length of a window in ps (R56, R58). -/
def inputBits (code : Nat) : Nat := 4 + 2 * code
def windowPs (code : Nat) : Nat := (2 ^ inputBits code - 1) * 10 + 450

/-- Magnitude bits n of the aligned code, and the largest code Q (R41). -/
def codeBits (coding code : Nat) : Nat := if coding = 1 then inputBits code - 1 else inputBits code
def maxCode (coding code : Nat) : Nat := 2 ^ codeBits coding code - 1

-- expansion (R45)

/-- The internal 24-bit float: 16 significant bits, exponents -126 to 127. -/
def fp24 : FpFmt := ⟨16, -126, 0x7F7FFF⟩

/-- Counts of one alignment: clamps, negative clamps, expansion saturations and underflows (R63). -/
structure AlignCount where
  clamps : Nat := 0
  negatives : Nat := 0
  sats : Nat := 0
  unders : Nat := 0
  deriving DecidableEq, Repr

/-- An internal value: its sign and its code, 0 for zero. -/
def expand (x : Fp) : (Bool × Nat) × AlignCount :=
  match x with
  | .nan => ((false, fp24.top), { sats := 1 })
  | .inf g => ((g, fp24.top), { sats := 1 })
  | .fin g n d =>
    if n = 0 then ((g, 0), {})
    else if n * 2 ^ 126 < d then ((g, 0), { unders := 1 })
    else
      let c := fp24.round n d
      if fp24.top < c then ((g, fp24.top), { sats := 1 }) else ((g, c), {})

/-- Unbiased exponent of a nonzero internal code, and its significand of 16 bits. -/
def exp24 (c : Nat) : Int := (c / 2 ^ 15 : Nat) - 127
def sig24 (c : Nat) : Nat := 2 ^ 15 + c % 2 ^ 15

-- alignment (R46, R47)

/-- Magnitude code of an internal value at an LSB of 2^wexp: to nearest, ties away from zero. -/
def alignCode (c : Nat) (wexp : Int) : Nat :=
  if c = 0 then 0
  else
    let r := scale2 (sig24 c) 1 (exp24 c - 15 - wexp)
    roundDiv r.1 r.2

/-- The codes of a vector, its window exponent and its counts (R45 to R48). `unsign` drives negative values dark. -/
def alignVector (xs : List Fp) (unsign : Bool) (n : Nat) : List Int × Option Int × AlignCount :=
  let vs := xs.map expand
  let count := vs.foldl (fun (a : AlignCount) v => { a with sats := a.sats + v.2.sats, unders := a.unders + v.2.unders }) {}
  let drives (v : Bool × Nat) : Bool := v.2 != 0 && !(unsign && v.1)
  let negs := if unsign then (vs.filter (fun v => v.1.1 && v.1.2 != 0)).length else 0
  let live := (vs.map Prod.fst).filter drives
  match live with
  | [] => (vs.map (fun _ => 0), none, { count with negatives := negs })
  | v :: t =>
    let emax := t.foldl (fun m x => max m (exp24 x.2)) (exp24 v.2)
    let wexp := emax + 1 - n
    let q := 2 ^ n - 1
    let raw := vs.map (fun v => if drives v.1 then (v.1.1, alignCode v.1.2 wexp) else (false, 0))
    let codes := raw.map (fun r => let m : Int := (min r.2 q : Nat)
      if r.1 then -m else m)
    (codes, some wexp, { count with negatives := negs, clamps := (raw.filter (fun r => q < r.2)).length })

/-- Counts of an alignment go to an engine's counters (R63). -/
def State.countAlign (s : State) (c e : Nat) (a : AlignCount) : State :=
  (((s.bump (engIdx c e) 8 a.clamps).bump (engIdx c e) 9 a.negatives).bump (engIdx c e) 0x0A a.sats).bump
    (engIdx c e) 0x0B a.unders

/-- Row `r` of a PASS's input as exact values: a status, the state after the accesses, and the values (R124 to R126, R259). -/
def State.inputRow (s : State) (c : Nat) (o : Op) (r : Nat) : Nat × State × List Fp :=
  let d := o.desc (pIn o.word)
  let x := s.accessAll (s.coreJob c) rightR (d.rowReads r)
  if x.1 != stOk then (x.1, x.2, [])
  else if !x.2.headersOk d r 1 then (stFormatHeader, x.2, [])
  else
    let y := (x.2.tensorRow d r) {}
    (stOk, x.2.bump (coreIdx c) 0x38 y.2.invalid, y.1)

-- pulse codes (R41, R42, R48, R53, R77)

/-- Rows outside a window's span are driven at half scale (R53, R77). -/
def Window.fill (w : Window) (coding rowMode : Nat) : Bool :=
  coding = 1 && rowMode != 0 && (match w.kind with
    | .original => true
    | .lower => true
    | .upper => false
    | .rescue f => f)

/-- Pulse code of row `i` with aligned code `x` in a window. -/
def Window.pulse (w : Window) (coding b : Nat) (fill : Bool) (i : Nat) (x : Int) : Nat :=
  let within := w.lo ≤ i && i < w.hi
  if coding = 1 then (if within then (x + 2 ^ (b - 1)).toNat else if fill then 2 ^ (b - 1) else 0)
  else if !within then 0
  else if coding = 2 && w.neg then (-x).toNat
  else x.toNat

/-- Number of rows driven with p > 0 (R51). -/
def Window.activeRows (w : Window) (coding rowMode b : Nat) (codes : List Int) : Nat :=
  ((List.range 512).filter (fun i => 0 < w.pulse coding b (w.fill coding rowMode) i (codes.getD i 0))).length

-- range steps and resolution (R51, R53, R67, R68, R77)

/-- Range step of a number of active rows. -/
def rangeStep (active : Nat) : Nat := if active ≤ 64 then 0 else if active ≤ 128 then 1 else if active ≤ 256 then 2 else 3

/-- Range step of an original group window and of its halves, by ROW_MODE. -/
def groupStep (rowMode : Nat) : Nat := rowMode - 1
def halfGroupStep (rowMode : Nat) : Nat := if rowMode = 3 then 1 else 0

/-- Largest magnitude code Y at a step and BITS code (R67). -/
def fullCode (step bits : Nat) : Nat :=
  let cap := if bits = 2 then 12 else if bits = 1 then 11 else 10
  2 ^ (min (9 + step) cap - 1) - 1

/-- LSB value of a conversion as numerator and denominator (R68). -/
def lsbValue (step bits k : Nat) : Nat × Nat := (64 * 2 ^ step * (2 ^ inputBits bits - 1) * 63, k * fullCode step bits)

-- windows of a vector (R44, R52 to R54)

/-- Driven row spans of the original windows of one sign, in order. -/
def passSpans (w : TvWord) : List (Nat × Nat) :=
  let rows := 64 * pExtent w
  if pRowMode w = 0 then [(0, if pCoding w = 1 then 512 else rows)]
  else
    let g := 32 * 2 ^ pRowMode w
    (List.range (ceilDiv rows g)).map (fun i => (g * i, g * i + g))

/-- W, the windows of a vector before splits and repeats (R54). -/
def windowsPerVector (w : TvWord) : Nat := (if pCoding w = 2 then 2 else 1) * (passSpans w).length

/-- Reads planned for each window: N under fixed-N, else 1 (R81, R502). -/
def plannedReads (w : TvWord) : Nat := if pConfMode w = 2 then pConfCount w else 1

/-- A window with its active rows and range step. A vector without an exponent converts at step 3 (R46). -/
def finishWindow (p : TvWord) (v : AVec) (w : Window) (groupS : Nat) : Window :=
  let active := w.activeRows (pCoding p) (pRowMode p) (inputBits (pBits p)) v.codes
  let unused := pCoding p = 1 && v.wexp.isNone
  let step := if unused then 3 else if pRowMode p = 0 then rangeStep active else groupS
  { w with active := active, unused := unused, step := step }

/-- The windows of a vector in the order in which they open, each with its planned reads (R44, R53, R81). -/
def vectorWindows (p : TvWord) (v : AVec) (k : Nat) : List Window :=
  let signs := if pCoding p = 2 then [false, true] else [false]
  let ws := signs.flatMap (fun g => (passSpans p).map (fun sp =>
    let w : Window := { op := v.op, v := v.v, neg := g, lo := sp.1, hi := sp.2, k := k }
    finishWindow p v w (groupStep (pRowMode p))))
  ws.flatMap (fun w => List.replicate (plannedReads p) w)

/-- The two halves of a window, each with its planned reads (R77, R83). -/
def splitHalves (p : TvWord) (v : AVec) (w : Window) : List Window :=
  let mid := (w.lo + w.hi) / 2
  let k := max (w.k / 2) 1
  let half (lo hi : Nat) (kind : WKind) : Window :=
    finishWindow p v { w with lo := lo, hi := hi, kind := kind, k := k, reads := [] } (halfGroupStep (pRowMode p))
  [half w.lo mid .lower, half mid w.hi .upper].flatMap (fun w => List.replicate (plannedReads p) w)

/-- The rescue window of a half (R78). -/
def rescueWindow (p : TvWord) (w : Window) : List Window :=
  List.replicate (plannedReads p)
    { w with kind := .rescue (w.fill (pCoding p) (pRowMode p)), k := 1, reads := [] }

/-- Two windows are reads of the same rows of the same vector. -/
def Window.same (a b : Window) : Bool :=
  a.op = b.op && a.v = b.v && a.neg = b.neg && a.lo = b.lo && a.hi = b.hi && a.kind = b.kind

-- what a window may run on

/-- A plane may be driven at a BITS code: LIVE or REFRESHING between chunks, and calibrated there (R72, R99, R103). -/
def Plane.ready (p : Plane) (bits : Nat) : Bool :=
  (p.st = .live || (p.st = .refreshing && !(p.refresh.any (fun r => r.active)))) && bits ∈ p.calibrated

/-- The job seed (R143). -/
def State.seedOf (s : State) (c : Nat) : Nat := (s.job (s.coreJob c)).seed

/-- The 16 random bits of a key, a counter and a lane (R143). -/
def srBits (key ctr lane : Nat) : Nat :=
  let m := 2 ^ 64
  let x := key ^^^ (ctr * 0xA24BAED4963EE407 % m) ^^^ lane
  let x := (x ^^^ (x >>> 30)) * 0x9FB21C651E98DF25 % m
  let x := (x ^^^ (x >>> 27)) * 0xD6E8FEB86659FD93 % m
  (x ^^^ (x >>> 31)) >>> 16 % 2 ^ 16

/-- Measured coefficients take effect. -/
def Plane.takeFresh (p : Plane) : Plane :=
  { p with coeffs := p.fresh.foldl (fun t x => tset t x.1 x.2) p.coeffs, fresh := [] }

end Sys2Proof.Machine
end

