-- ==== Sys2Proof/Machine/Aligner.lean ====
section
/-! DEFINITION. The input aligner (R45 to R49, R61). -/

namespace Sys2Proof.Machine

/-- The engines that still take part in a PASS. -/
def Op.engines (o : Op) : List Nat := o.left.filter (fun q => q < 34)

/-- The PASSes of a core that still have vectors to align on an engine, in dispatch order (R61). -/
def insertBy (x : Nat × Op) : List (Nat × Op) → List (Nat × Op)
  | [] => [x]
  | y :: t => if x.2.since < y.2.since then x :: y :: t else y :: insertBy x t
def Core.alignable (k : Core) : List (Nat × Op) :=
  (k.ops.filter (fun o => opcodeOf o.2.word = opPass && !o.2.readDone && !o.2.engines.isEmpty &&
    (match o.2.stage with
     | .queued => true
     | .running => true
     | _ => false))).foldl (fun acc x => insertBy x acc) []

/-- The first PASS that is not held: every engine of its mask has room for a vector, and none of them still awaits codes of
an earlier PASS (R49, R61; log entry 13). -/
def State.nextAligned (s : State) (c : Nat) : List (Nat × Op) → List Nat → Option (Nat × Op)
  | [], _ => none
  | x :: t, busy =>
    let es := x.2.engines
    if es.all (fun e => (s.eng c e).inbuf.length < 16 && e ∉ busy) then some x else s.nextAligned c t (busy ++ es)

/-- The aligner expands and aligns the next vector once and delivers its codes to every engine of the mask. -/
def State.alignNext (s : State) (c : Nat) : State :=
  match s.nextAligned c (s.core c).alignable [] with
  | none => s
  | some (n, o) =>
    let row := s.inputRow c o o.aligned
    let s := row.2.1
    if row.1 != stOk then
      (o.engines.foldl (fun s e => s.modEng c e (fun g => g.dropOp n)) s).finish c n row.1
    else
      let p := o.word
      let a := alignVector row.2.2 (pCoding p = 0) (codeBits (pCoding p) (pBits p))
      let v : AVec := { op := n, v := o.aligned, codes := a.1, wexp := a.2.1 }
      let s := o.engines.foldl (fun s e =>
        (s.countAlign c e a.2.2).modEng c e (fun g => { g with inbuf := g.inbuf ++ [v] })) s
      s.modCore c (fun k => k.modOp n (fun o =>
        { o with aligned := o.aligned + 1, readDone := o.aligned + 1 = (o.desc (pIn p)).rows }))

/-- ALIGNER_VECTOR: the core's aligner serves one vector (R49). -/
def execAlignerVector (dt : Nat) (core : Fin 16) (s : State) : Result :=
  let s := s.elapse dt
  .next (if s.unitWorks (coreRef core) then s.alignNext core else s)

end Sys2Proof.Machine
end

