-- ==== Sys2Proof/Machine/Hash.lean ====
section
/-! DEFINITION. SHAKE256 with 256 bits of output, which the spec names and FIPS 202 defines (log entry 7), and the hashes of
the dictionary (R272). -/

namespace Sys2Proof.Machine

/-- Rotate 64 bits left. -/
def rotl64 (x n : Nat) : Nat := ((x <<< n) ||| (x >>> (64 - n))) % 2 ^ 64

/-- Round constants and rotation counts of Keccak-f[1600]. -/
def keccakRounds : List Nat := [
  0x0000000000000001, 0x0000000000008082, 0x800000000000808A, 0x8000000080008000, 0x000000000000808B, 0x0000000080000001,
  0x8000000080008081, 0x8000000000008009, 0x000000000000008A, 0x0000000000000088, 0x0000000080008009, 0x000000008000000A,
  0x000000008000808B, 0x800000000000008B, 0x8000000000008089, 0x8000000000008003, 0x8000000000008002, 0x8000000000000080,
  0x000000000000800A, 0x800000008000000A, 0x8000000080008081, 0x8000000000008080, 0x0000000080000001, 0x8000000080008008]
def keccakRotations : List Nat := [
  0, 1, 62, 28, 27, 36, 44, 6, 55, 20, 3, 10, 43, 25, 39, 41, 45, 15, 21, 8, 18, 2, 61, 56, 14]

/-- One round on 25 lanes, lane x + 5 y. -/
def keccakRound (a : List Nat) (rc : Nat) : List Nat :=
  let at_ (l : List Nat) (i : Nat) : Nat := l.getD i 0
  let c := (List.range 5).map (fun x =>
    at_ a x ^^^ at_ a (x + 5) ^^^ at_ a (x + 10) ^^^ at_ a (x + 15) ^^^ at_ a (x + 20))
  let d := (List.range 5).map (fun x => at_ c ((x + 4) % 5) ^^^ rotl64 (at_ c ((x + 1) % 5)) 1)
  let t := (List.range 25).map (fun i => at_ a i ^^^ at_ d (i % 5))
  let b := (List.range 25).map (fun i =>
    let y := i / 5
    let x := i % 5
    -- lane (x, y) of the result comes from lane (x + 3 y, x)
    let j := (x + 3 * y) % 5 + 5 * x
    rotl64 (at_ t j) (at_ keccakRotations j))
  (List.range 25).map (fun i =>
    let y := 5 * (i / 5)
    let x := i % 5
    let v := at_ b i ^^^ ((2 ^ 64 - 1 - at_ b (y + (x + 1) % 5)) &&& at_ b (y + (x + 2) % 5))
    if i = 0 then v ^^^ rc else v)

/-- The permutation. -/
def keccakF (a : List Nat) : List Nat := keccakRounds.foldl keccakRound a

/-- The 136-byte blocks of a message are absorbed one by one; `n` is how many there are. -/
def absorb (n : Nat) (a : List Nat) (m : List Byte) : List Nat :=
  match n with
  | 0 => a
  | n + 1 => absorb n (keccakF ((List.range 25).map (fun i =>
      if i < 17 then a.getD i 0 ^^^ leNat ((m.drop (8 * i)).take 8) else a.getD i 0))) (m.drop 136)

/-- The first 32 bytes of SHAKE256 of a message. -/
def shake256 (m : List Byte) : List Byte :=
  let n := m.length / 136 + 1
  let gap := 136 * n - m.length
  let tail : List Byte := if gap = 1 then [0x9F] else 0x1F :: (List.replicate (gap - 2) 0 ++ [0x80])
  ((absorb n (List.replicate 25 0) (m ++ tail)).take 4).flatMap (leBytes 8)

end Sys2Proof.Machine
end

