-- ==== Sys2Proof/Machine/Readout.lean ====
section
/-! DEFINITION. Conversion, correction, saturation splits and confidence repeats (R66 to R71, R76 to R85). -/

namespace Sys2Proof.Machine

-- exact sums

/-- A quotient in lowest terms, and the sum of two. -/
def reduceQ (n : Int) (d : Nat) : Int × Nat := let g := Nat.gcd n.natAbs d
  if g ≤ 1 then (n, d) else (n / (g : Int), d / g)
def addQ (a b : Int × Nat) : Int × Nat := reduceQ (a.1 * b.2 + b.1 * a.2) (a.2 * b.2)

-- conversion (R69, R70, R80)

/-- What one column's charge converts to. -/
structure Conversion where
  code : Int := 0
  sat : Bool := false
  clip : Bool := false
  /-- The noise estimate in 1/8 LSB. -/
  noise : Nat := 0
  deriving DecidableEq, Repr, Inhabited

/-- One column: its charge in 2^-16 LSB, and the gap between its two crossings in 2^-16 quanta. -/
def convert1 (y k : Nat) (charge : Int) (gap : Nat) : Conversion :=
  let q := charge.natAbs
  let sign : Int := if charge < 0 then -1 else 1
  if 2 * q < (2 * y + 1) * 65536 then
    { code := sign * (roundDiv q 65536 : Nat), noise := roundDiv (8 * ((gap : Int) - 16 * 65536).natAbs) 65536 }
  else if k = 1 then
    { code := sign * (y : Nat), clip := true, noise := roundDiv (8 * ((gap : Int) - 16 * 65536).natAbs) 65536 }
  else { code := sign * (y : Nat), sat := true }

/-- All 256 columns of a window. -/
def convertAll (w : Window) (bits : Nat) (charges : List Int) (gaps : List Nat) : List Conversion :=
  let y := fullCode w.step bits
  (List.range 256).map (fun j => convert1 y w.k (charges.getD j 0) (gaps.getD j (16 * 65536)))

-- combination (R71)

/-- The corrected estimate of one column of a window: the mean of its corrected reads (R71, R82). -/
def Window.estimate (w : Window) (bits : Nat) (co : Measured) (j : Nat) : Int × Nat :=
  let m := w.reads.length
  let sum := (w.reads.map (fun r => r.codes.getD j 0)).sum
  let lam := lsbValue w.step bits w.k
  let off := (co.offsets.getD w.step []).getD j 0
  let n : Int := (co.gains.getD j 65536 : Nat) * (lam.1 : Int) * (16 * sum - m * off)
  reduceQ (if w.neg then -n else n) (65536 * lam.2 * 16 * m)

/-- The vector that a window belongs to, among those whose codes the engine still holds. -/
def Engine.vectorOf (g : Engine) (w : Window) : Option AVec :=
  let hit (v : AVec) : Bool := v.op = w.op && v.v = w.v
  match g.vec.filter hit with
  | some v => some v
  | none => g.prev.filter hit

/-- The vector has no window left to open, integrate or convert (R61). -/
def Engine.vectorDone (g : Engine) (op v : Nat) : Bool :=
  let mine (w : Window) : Bool := w.op = op && w.v = v
  !(g.todo.any mine) && !(g.integrating.any mine) && !(g.converting.any mine)

/-- The FP32 terms of a vector's estimate (R43, R50, R71, R140); none for all +0.0. -/
def vectorTerms (p : TvWord) (v : AVec) (scales : List F16) (est : List (Int × Nat)) : List F32 :=
  match v.wexp with
  | none => []
  | some wexp =>
    if est.isEmpty then []
    else
      let b := inputBits (pBits p)
      let originals := (passSpans p).length
      (List.range 256).map (fun j =>
        let e := est.getD j (0, 1)
        let off : Int := if pCoding p = 1 then (v.coeff.sums.getD j 0) * (2 ^ (b - 1) * originals : Nat) else 0
        let x := addQ e (-off, 2 ^ b - 1)
        let r := scale2 x.1.natAbs x.2 wexp
        if x.1 = 0 then 0
        else f32Of ((Fp.fin (x.1 < 0) r.1 r.2).mul (ieeeValue fp16 16 (scales.getD j 0).toNat)))

/-- A vector whose windows have all been accepted leaves the readout for the vat adder (R58, R61, R71). -/
def Engine.deliver (g : Engine) (p : TvWord) (v : AVec) (plane : Nat) : Engine :=
  let hit (x : AVec) : Bool := x.op = v.op && x.v = v.v
  { g with
    results := g.results ++ [{ op := v.op, v := v.v, terms := vectorTerms p v (g.plane plane).scales g.partialSum }]
    partialSum := []
    vec := g.vec.filter (fun x => !hit x)
    prev := g.prev.filter (fun x => !hit x) }

/-- A window is accepted with its reads: its estimate joins the vector's (R71). An all-dark window and one of a vector without
an exponent add nothing (R46, R55). -/
def Engine.accept (g : Engine) (p : TvWord) (v : AVec) (plane : Nat) (w : Window) : Engine :=
  let g :=
    if w.active = 0 || w.unused then g
    else
      let est := (List.range 256).map (w.estimate (pBits p) v.coeff)
      { g with partialSum := if g.partialSum.isEmpty then est else List.zipWith addQ g.partialSum est }
  if g.vectorDone w.op w.v then g.deliver p v plane else g

-- the headroom policy's count (R85)

/-- Change the layer of a tag in a list of layers. -/
def modLayer (tag : Nat) (f : Layer → Layer) (l : List Layer) : List Layer := l.map (fun x => if x.tag = tag then f x else x)

/-- A window of a policy-ranged pass is counted, and whether it split. -/
def State.countPolicy (s : State) (c : Nat) (p : TvWord) (r : PassRun) (w : Window) (split : Bool) : State :=
  let first := if w.reads.isEmpty then 1 else 0
  let cut := if split then 1 else 0
  let count (l : Layer) : Layer := { l with windows := l.windows + first, splits := l.splits + cut }
  if r.policy && s.flag 0x4008 6 && w.kind = .original then
    s.modJob (s.coreJob c) (fun j => { j with layers := modLayer (pTag p) count j.layers })
  else s

-- the decision

/-- The windows that a decision inserts open first; the window then integrating is squashed and opens again after them, unless
it was a further read of a window that has been replaced (R79, R83). -/
def Engine.insertWindows (g : Engine) (ins : List Window) (replaced : Option Window) : Engine × Nat :=
  let gone (x : Window) : Bool := replaced.any (fun w => w.same x)
  let squashed := match g.integrating with
    | none => []
    | some x => if gone x then [] else [x]
  ({ g with integrating := none, todo := ins ++ squashed ++ g.todo.filter (fun x => !gone x) },
   if g.integrating.isSome then 1 else 0)

/-- The share of slots for repeats is spent at the moment (R84, R500). -/
def repeatsSpent (g : Engine) (r : PassRun) (bits now : Nat) : Bool :=
  let recent := (g.repeats.filter (fun t => now < t + r.interval * usPs)).length
  r.budget * g.rate * (r.interval * usPs) ≤ recent * windowPs bits * 8000

/-- A window is accepted. -/
def State.acceptWindow (s : State) (c e : Nat) (p : TvWord) (v : AVec) (r : PassRun) (w : Window) : State :=
  s.modEng c e (fun g => g.accept p v r.plane w)

/-- The decision on a window that has converted (R69 to R84). -/
def State.decideRead (s : State) (c e : Nat) (w : Window) (p : TvWord) (v : AVec) (r : PassRun) (cs : List Conversion) : State :=
  let idx := engIdx c e
  let flags := ((s.eng c e).plane r.plane).flags
  let isConst (j : Nat) : Bool := bitOf (tget flags j) 0
  let s := s.bump idx (4 + w.step) 1
  let s := s.bump idx 0x17 (cs.filter (fun x => x.clip)).length
  let s := s.raiseTo idx 0x1D ((cs.filter (fun x => !x.sat)).foldl (fun m x => max m x.noise) 0)
  let s := s.modEng c e (fun g => { g with converting := none })
  if w.unused then (s.countPolicy c p r w false).acceptWindow c e p v r w
  else if cs.any (fun x => x.sat) then
    let counted := (List.range 256).any (fun j => (cs.getD j {}).sat && !isConst j)
    let s := (s.countPolicy c p r w counted).bump idx 0x10 1
    let original := w.kind = .original
    let ins := if original then splitHalves p v w else rescueWindow p w
    let s := if original then s.bump idx 0x11 2 else s.bump idx 0x12 1
    let x := (s.eng c e).insertWindows ins (some w)
    (s.modEng c e (fun _ => x.1)).bump idx 0x16 x.2
  else
    let s := s.countPolicy c p r w false
    let w' := { w with reads := w.reads ++ [{ codes := cs.map (fun x => x.code), noise := cs.map (fun x => x.noise) }] }
    let m := w'.reads.length
    if pConfMode p = 2 then
      -- the reads so far go with the next planned read of the window, if there is one (R81)
      let g := s.eng c e
      if g.integrating.any w.same then
        s.modEng c e (fun g => { g with integrating := g.integrating.map (fun x => { x with reads := w'.reads }) })
      else match g.todo with
        | x :: t => if w.same x then s.modEng c e (fun g => { g with todo := { x with reads := w'.reads } :: t })
                    else s.acceptWindow c e p v r w'
        | [] => s.acceptWindow c e p v r w'
    else if pConfMode p = 1 then
      let fails := (List.range 256).any (fun j => !isConst j &&
        (r.threshold * m) ^ 2 < ((w'.reads.map (fun x => (x.noise.getD j 0) ^ 2)).sum))
      if !fails then s.acceptWindow c e p v r w'
      else if pConfCount p < m then (s.bump idx 0x14 1).acceptWindow c e p v r w'
      else if repeatsSpent (s.eng c e) r (pBits p) s.up then
        ((s.bump idx 0x15 1).bump idx 0x14 1).acceptWindow c e p v r w'
      else
        let now := s.up
        let x := (s.eng c e).insertWindows [w'] none
        ((s.modEng c e (fun _ => { x.1 with
          repeats := x.1.repeats.filter (fun t => now < t + r.interval * usPs) ++ [now] })).bump idx 0x13 1).bump idx 0x16 x.2
    else s.acceptWindow c e p v r w'

/-- WINDOW_DECISION: the window that converts is decided, from the charges (2^-16 LSB) and the crossing gaps (2^-16 quanta) of
its 256 columns (R69). -/
def execWindowDecision (dt : Nat) (core : Fin 16) (eng : Fin 34) (charges : List Int) (gaps : List Nat) (s : State) : Result :=
  let s := s.elapse dt
  let g := s.eng core eng
  .next (match g.converting with
    | none => s
    | some w =>
      match g.passes.find? (fun r => r.op = w.op), (s.core core).op w.op, g.vectorOf w with
      | some r, some o, some v => s.decideRead core eng w o.word v r (convertAll w (pBits o.word) charges gaps)
      | _, _, _ => s.modEng core eng (fun g => { g with converting := none }))

-- the policy (R85)

/-- A layer's evaluation: the split rate of the windows counted halves or doubles k (R85). -/
def evalLayer (upper lower intervals : Nat) (l : Layer) : Layer :=
  let k := l.k.getD 1
  if upper * l.windows < l.splits * 1000000 then { l with k := some (max (k / 2) 1), windows := 0, splits := 0, lowRuns := 0 }
  else if l.splits * 1000000 < lower * l.windows then
    (if intervals ≤ l.lowRuns + 1 then { l with k := some (min (2 * k) 8), windows := 0, splits := 0, lowRuns := 0 }
     else { l with windows := 0, splits := 0, lowRuns := l.lowRuns + 1 })
  else { l with windows := 0, splits := 0, lowRuns := 0 }

/-- HEADROOM_POLICY_EVAL: the policy firmware evaluates a layer of a job once its count of windows is reached (R85). -/
def execHeadroomPolicyEval (dt : Nat) (job : Fin 8) (tag : BitVec 14) (s : State) : Result :=
  let s := s.elapse dt
  let due (l : Layer) : Bool := l.tag = tag.toNat && l.k.isSome && s.val 0x4008 3 ≤ l.windows
  .next (if s.flag 0x4008 6 && (s.job job).layers.any due then
    s.modJob job (fun j => { j with layers := j.layers.map (fun l =>
      if due l then evalLayer (s.val 0x4008 1) (s.val 0x4008 2) (s.val 0x4008 4) l else l) })
  else s)

end Sys2Proof.Machine
end

