-- ==== Sys2Proof/Machine/Windows.lean ====
section
/-! DEFINITION. Window boundaries: the window that integrated goes to conversion, and the next one opens, is skipped, starves
or waits (R46, R49, R54 to R63, R79, R103, R154). -/

namespace Sys2Proof.Machine

/-- A zone of a core, or its cartridge's, shuts down: the core stops (R458, R460). -/
def ZoneSt.stops (z : ZoneSt) : Bool := z = .shutdown || z = .outOfService
def State.coreStops (s : State) (c : Nat) : Bool :=
  (s.zone (2 * c)).st.stops || (s.zone (2 * c + 1)).st.stops || (s.zone (53 + c / 2)).st = .shutdown

/-- Issue stops at the next vector boundary: the job is being saved, or the core shuts down in order (R164, R460). -/
def State.quiescing (s : State) (c : Nat) : Bool := s.sched.saving = some (s.coreJob c) || s.coreStops c

/-- Rows that a streaming reader of a pass has read: all of them when no reader is left (R139, R154, R162). -/
def State.streamRead (s : State) (c op total : Nat) : Nat :=
  let k := s.core c
  match k.ops.find? (fun x => op < x.1) with
  | none => total
  | some (n, o) =>
    if opcodeOf o.word = opDrain then
      (match k.drain with
       | some d => if d.op = n then d.next else 0
       | none => match o.stage with
         | .complete _ => total
         | _ => 0)
    else if opcodeOf o.word = opSkim then
      (match k.skim with
       | some d => if d.1 = n then d.2 else 0
       | none => match o.stage with
         | .complete _ => total
         | _ => 0)
    else total

/-- The vat row of a vector, and whether its windows may open: the row is not LOCKED by an earlier instruction, and a
streaming reader has read the vector that it would replace (R154). -/
def passRow (p : TvWord) (v : Nat) : Nat := pTileBase p + v % pTileRows p
def State.rowOpen (s : State) (c e : Nat) (p : TvWord) (r : PassRun) (v : Nat) : Bool :=
  let row := tget (s.eng c e).vat (passRow p v)
  !(row.locked.any (fun n => n < r.op)) &&
  (v < pTileRows p || v - pTileRows p < s.streamRead c r.op r.total)

/-- What stands ready at a window boundary: a window and the engine without it, or a starved or otherwise idle slot. -/
inductive NextWindow
  | opens (w : Window) (g : Engine) (r : PassRun) (p : TvWord) (first : Option Int)
  | starved
  | none

/-- The next window of an engine (R54, R60, R61): the next of the vector in hand, or the first of the next vector. -/
def State.nextWindow (s : State) (c e : Nat) (g : Engine) : NextWindow :=
  match g.todo with
  | w :: t =>
    match g.passes.find? (fun r => r.op = w.op), (s.core c).op w.op with
    | some r, some o =>
      if (g.plane r.plane).ready (pBits o.word) then .opens w { g with todo := t } r o.word none else .none
    | _, _ => .none
  | [] =>
    match g.passes.find? (fun r => r.next < r.total) with
    | none => .none
    | some r =>
      match (s.core c).op r.op with
      | none => .none
      | some o =>
        let p := o.word
        if s.quiescing c then .none
        else
          match g.inbuf.find? (fun v => v.op = r.op) with
          | none => .starved
          | some v =>
            if !(g.plane r.plane).ready (pBits p) || !s.rowOpen c e p r v.v then .none
            else
              let g := { g with plane0 := g.plane0.takeFresh, plane1 := g.plane1.takeFresh }
              let v := { v with coeff := ((tget (g.plane r.plane).coeffs (pBits p)).getD {}) }
              match vectorWindows p v r.k with
              | [] => .none
              | w :: t =>
                let g := { g with
                  todo := t, prev := g.vec, vec := some v, inbuf := g.inbuf.erase { v with coeff := {} }
                  passes := g.passes.map (fun x => if x.op = r.op then { x with next := x.next + 1 } else x) }
                .opens w g r p v.wexp

/-- The window that integrated goes to conversion; an all-dark one is accepted as exactly 0 (R55, R57). -/
def State.shiftWindow (s : State) (c e : Nat) : State :=
  let g := s.eng c e
  match g.integrating with
  | none => s
  | some w =>
    let s := s.modEng c e (fun g => { g with integrating := none, converting := if w.active = 0 then none else some w })
    if w.active != 0 then s
    else
      match g.passes.find? (fun r => r.op = w.op), (s.core c).op w.op, g.vectorOf w with
      | some r, some o, some v =>
        let s := if g.todo.head?.any w.same then s else s.countPolicy c o.word r w false
        s.acceptWindow c e o.word v r w
      | _, _, _ => s

/-- The slot passes: groups of 8 slots, in which at most r windows open (R62). -/
def Engine.group (g : Engine) (rate : Nat) : Engine := if g.slot = 0 then { g with used := 0, rate := rate } else g
def Engine.pass1 (g : Engine) (opened : Bool) : Engine :=
  { g with slot := (g.slot + 1) % 8, used := g.used + if opened then 1 else 0 }

/-- An engine whose windows may open: in service, with the light of a cartridge that is not fenced, its pulse reference LOCKED, no
loop fault, and room for its results (R36, R39, R147, R413). -/
def State.mayOpen (s : State) (c e : Nat) : Bool :=
  let g := s.eng c e
  !s.engineOut c e && s.unit (cartRef (c / 2)) != .fenced && (s.core c).pulse = .locked && !g.stopping && !(16 ≤ g.spills.length && !g.results.isEmpty)

/-- A window boundary of an engine (R57 to R63). -/
def State.boundary (s : State) (c e : Nat) : State :=
  let s := s.shiftWindow c e
  if !s.mayOpen c e then s
  else
    let g := (s.eng c e).group (s.windowRate c)
    match s.nextWindow c e g with
    | .none => s.modEng c e (fun _ => g.pass1 false)
    | .starved =>
      let at_ := match g.starvedAt with
        | some t => some t
        | none => some s.up
      s.modEng c e (fun _ => { (g.pass1 false) with starvedAt := at_ })
    | .opens w g' r p first =>
      let len := windowPs (pBits p)
      if g.rate ≤ g.used then s.modEng c e (fun _ => { (g.pass1 false) with slotEnd := s.up + len })
      else
        let now := (pBank p, pBits p, pCoding p, r.plane)
        let gap := if g.last.any (fun x => x != now) then 1000 else 0
        let idx := engIdx c e
        let idle := match g.starvedAt with
          | some t => ceilDiv (s.up - t) len
          | none => 0
        let g' := { (g'.pass1 true) with
          integrating := some w, starvedAt := none, windowNo := (g'.windowNo + 1) % 3
          last := some now, slotEnd := s.up + gap + len }
        let s := (((s.modEng c e (fun _ => g')).bump idx 2 1).bump idx 0x0D idle).bump idx 3 (if w.active = 0 then 1 else 0)
        match first with
        | some x => s.setVal idx 0x0E (unsigned 16 x)
        | none => s

/-- WINDOW_OPEN: an engine reaches a window boundary: its slot has ended and the previous window's decision is made (R57,
R62, R79). -/
def execWindowOpen (dt : Nat) (core : Fin 16) (eng : Fin 34) (s : State) : Result :=
  let s := s.elapse dt
  .next (if (s.eng core eng).converting.isSome || s.up < (s.eng core eng).slotEnd then s else s.boundary core eng)

end Sys2Proof.Machine
end

