-- ==== Sys2Proof/Machine/Vat.lean ====
section
/-! DEFINITION. The vat: updates, stochastic rounding, spills and churn, and SPILL and RESUME (R136 to R150, R202). -/

namespace Sys2Proof.Machine

-- sums (R140 to R142)

/-- FP32 max with a sign (R141). -/
def f32Max (g : Bool) : Fp := ieeeValue fp32 32 (fp32.top + if g then 2 ^ 31 else 0)

/-- The exact sum `s` rounded stochastically with 16 random bits (R142): a code of FP32 magnitude, unbounded. -/
def roundSR (n d r : Nat) : Nat :=
  -- floor to FP32: the code whose value is the largest not above n/d
  let near := fp32.round n d
  let v := fp32.value near
  let lo := if n * v.2 < v.1 * d then near - 1 else near
  let a := fp32.value lo
  let b := fp32.value (lo + 1)
  -- the 16 bits below the least significant bit of lo
  let num := (n * a.2 - a.1 * d) * 65536 * b.2
  let step := (b.1 * a.2 - a.1 * b.2) * d
  if step = 0 then lo else if 65536 ≤ num / step + r then lo + 1 else lo

/-- A value plus a term under a rounding: the sum as FP32, and whether it saturated (R140 to R142). -/
def vatAdd (rn : Bool) (value term : F32) (r : Nat) : F32 × Bool :=
  match (ofF32 value).add (ofF32 term) with
  | .fin g n d =>
    if n = 0 then (0, false)
    else
      let c := if rn then fp32.round n d else roundSR n d r
      if fp32.top < c then (BitVec.ofNat 32 (fp32.top + if g then 2 ^ 31 else 0), true)
      else (BitVec.ofNat 32 (c + if g then 2 ^ 31 else 0), false)
  | x => (f32Of x, false)

/-- Key of an engine's random bits (R143). -/
def engineKey (seed c e : Nat) : Nat := seed ^^^ ((34 * c + e) <<< 32)

-- spills (R146, R147)

/-- Spill interval S of a SPILL code, 0 for none; the segment limit L of a row. -/
def spillInterval (code : Nat) : Nat := if code = 0 then 0 else 2 ^ (code - 1)
def Row.limit (r : Row) : Nat := if r.rnInSegment then 65536 else 1048576

/-- A row is captured on its way to churn: its values and its segment begin anew (R147). -/
def Row.captured (r : Row) (forced : Bool) : Row :=
  { r with vals := [], addCount := 0, rnInSegment := false, forcedSpill := r.forcedSpill || forced }

/-- The vat of a queue of a core: an engine's, or a stand-in slot's (R136, R474). -/
def State.vatOf (s : State) (c q : Nat) : Tbl Row := if q < 34 then (s.eng c q).vat else (tfind (s.core c).standVats (q - 34)).getD []
def State.setVat (s : State) (c q : Nat) (v : Tbl Row) : State :=
  if q < 34 then s.modEng c q (fun g => { g with vat := v })
  else s.modCore c (fun k => { k with standVats :=
    if (tfind k.standVats (q - 34)).isSome then k.standVats.map (fun x => if x.1 = q - 34 then (x.1, v) else x)
    else k.standVats ++ [(q - 34, v)] })
def State.modRow (s : State) (c q row : Nat) (f : Row → Row) : State := s.setVat c q (tmod (s.vatOf c q) row f)

/-- The slot behind a queue, for the churn region (R145). -/
def Core.queueSlot (k : Core) (q : Nat) : Nat := if q < 34 then (k.slotOf q).getD 0 else q - 34
def State.churnAt (s : State) (c q row : Nat) : Nat := s.churnBase c ((s.core c).queueSlot q) + 2048 * row

/-- One row's captured values reach its churn entry: written, or added in FP64 (R147). -/
def churnEntry (m : Mem) (addr : Nat) (vals : Tbl F32) (add : Bool) : List Byte :=
  (List.range 256).flatMap (fun j =>
    let x := ofF32 (tget vals j)
    let y := if add then (ieeeValue fp64 64 (m.num (addr + 8 * j) 8)).add x else x
    leBytes 8 (toIeee fp64 64 y {}).1)
def State.landSpill (s : State) (c q row addr : Nat) (vals : Tbl F32) : State :=
  let add := (tget (s.vatOf c q) row).churnValid
  let s := s.storeBytes addr (churnEntry s.mem addr vals add)
  s.modRow c q row (fun r => { r with churnValid := true })

/-- A row spills: captured into an engine's buffer, or landed at once for a stand-in slot, and counted (R146, R147, R474). -/
def State.spillRow (s : State) (c q row : Nat) (forced : Bool) : State :=
  let vals := (tget (s.vatOf c q) row).vals
  let addr := s.churnAt c q row
  let s := s.modRow c q row (fun r => r.captured forced)
  if q < 34 then
    let s := s.modEng c q (fun g => { g with spills := g.spills ++ [{ row := row, vals := vals, addr := addr }] })
    (s.bump (engIdx c q) 0x31 1).bump (engIdx c q) 0x32 (if forced then 1 else 0)
  else s.landSpill c q row addr vals

-- updates (R140, R144)

/-- A vector's update of its row: the new row and the columns that saturated (R140, R141). -/
def updateRow (p : TvWord) (key ctr : Nat) (terms : List F32) (r : Row) : Row × Nat :=
  let term (j : Nat) : F32 := terms.getD j 0
  if !pAdd p then
    ({ vals := (List.range 256).foldl (fun t j => tset t j (term j)) [], addCount := 1, rnInSegment := pRN p,
       locked := r.locked }, 0)
  else
    let sums := (List.range 256).map (fun j => vatAdd (pRN p) (tget r.vals j) (term j) (srBits key ctr j))
    let sat := (sums.filter (fun x => x.2)).length
    ({ r with vals := (List.range 256).foldl (fun t j => tset t j (sums.getD j (0, false)).1) []
              addCount := r.addCount + 1, rnInSegment := r.rnInSegment || pRN p, vatSat := r.vatSat || 0 < sat }, sat)

/-- An ADD under RN arrives at a row of 65,536 terms or more: the row spills first (R146). -/
def spillsFirst (p : TvWord) (r : Row) : Bool := pAdd p && pRN p && 65536 ≤ r.addCount

/-- One update of a queue's vat with the spill that it causes: `ctr` is the counter of R144. -/
def State.updateVat (s : State) (c q : Nat) (p : TvWord) (key ctr v : Nat) (terms : List F32) : State × Nat :=
  let row := passRow p v
  let u := updateRow p key ctr terms (tget (s.vatOf c q) row)
  -- an OVR gives up the old segment and what of it is still on its way to churn (R146)
  let s := if pAdd p then s else s.modEng c q (fun g => if q < 34 then { g with spills := g.spills.filter (fun x => x.row != row) } else g)
  let s := s.modRow c q row (fun _ => u.1)
  let n := spillInterval (pSpill p)
  let limit := u.1.limit
  let s := if n != 0 && n ≤ limit && n ≤ u.1.addCount then s.spillRow c q row false
    else if limit ≤ u.1.addCount then s.spillRow c q row true
    else s
  (s, u.2)

/-- A PASS on an engine is done once every update and every spill that it caused has landed (R201). -/
def State.passEnd (s : State) (c e : Nat) : State :=
  let g := s.eng c e
  (g.passes.filter (fun r => r.updated = r.total && g.spills.isEmpty)).foldl (fun s r =>
    (s.modEng c e (fun g => { g with passes := g.passes.filter (fun x => x.op != r.op) })).part c r.op e stOk) s

/-- VAT_UPDATE: the oldest result of an engine reaches its vat row; while the spill buffer is full it waits (R140, R147). -/
def State.vatStep (s : State) (c e dt : Nat) : State :=
  let g := s.eng c e
  match g.results with
  | [] => s
  | r :: t =>
    if 16 ≤ g.spills.length then s.bump (engIdx c e) 0x34 (dt / 1000)
    else
      match (s.core c).op r.op with
      | none => s.modEng c e (fun g => { g with results := t })
      | some o =>
        let p := o.word
        let row := passRow p r.v
        let first := spillsFirst p (tget g.vat row)
        let s := if first then s.spillRow c e row true else s
        if 16 ≤ (s.eng c e).spills.length then s
        else
          let x := s.updateVat c e p (engineKey (s.seedOf c) c e) (s.eng c e).srCtr r.v r.terms
          let s := (x.1.bump (engIdx c e) 0x30 1).bump (engIdx c e) 0x33 x.2
          let s := s.modEng c e (fun g => { g with
            results := t, srCtr := (g.srCtr + 1) % 2 ^ 64
            passes := g.passes.map (fun y => if y.op = r.op then { y with updated := y.updated + 1 } else y) })
          s.passEnd c e

def execVatUpdate (dt : Nat) (core : Fin 16) (eng : Fin 34) (s : State) : Result :=
  .next ((s.elapse dt).vatStep core eng dt)

/-- CHURN_WRITE: the oldest captured row of an engine reaches core store (R147). -/
def State.churnStep (s : State) (c e : Nat) : State :=
  match (s.eng c e).spills with
  | [] => s
  | x :: t => ((s.modEng c e (fun g => { g with spills := t })).landSpill c e x.row x.addr x.vals).passEnd c e

def execChurnWrite (dt : Nat) (core : Fin 16) (eng : Fin 34) (s : State) : Result :=
  .next ((s.elapse dt).churnStep core eng)

-- SPILL and RESUME (R149, R150, R202)

/-- The rows that a SPILL, a RESUME, a DRAIN or a SKIM of the vat names. -/
def tileRange (base rows : Nat) : List Nat := (List.range rows).map (fun i => base + i)

/-- Every earlier window aimed at some rows of a queue has delivered its update, and no earlier DRAIN or SKIM holds one of
them (R149, R154). -/
def State.rowsFree (s : State) (c q n base rows : Nat) : Bool :=
  let meets (p : TvWord) : Bool := pTileBase p < base + rows && base < pTileBase p + pTileRows p
  (q < 34 && (s.eng c q).passes.all (fun r => r.updated = r.total || n < r.op ||
    (match (s.core c).op r.op with
     | some o => !meets o.word
     | none => true)) || 34 ≤ q) &&
  (s.vatOf c q).all (fun x => x.1 < base || base + rows ≤ x.1 || !(x.2.locked.any (fun d => d < n)))

/-- SPILL at the head of a queue: the rows with terms are captured as the buffer has room; it ends when all have landed. -/
def State.spillOp (s : State) (c q : Nat) : State :=
  match s.head c q opSpill with
  | none => s
  | some (n, o) =>
    let f := s.queueFault c q
    if f != stOk then s.part c n q f
    else
      let base := pTileBase o.word
      let rows := pTileRows o.word
      if !s.rowsFree c q n base rows then s
      else
        let s := s.modCore c (fun k => k.modOp n (fun o => { o with stage := .running }))
        let due := ((s.vatOf c q).filter (fun x => base ≤ x.1 && x.1 < base + rows && 0 < x.2.addCount)).map Prod.fst
        let room := if q < 34 then 16 - (s.eng c q).spills.length else due.length
        let s := (due.take room).foldl (fun s row => s.spillRow c q row false) s
        let left := (s.vatOf c q).any (fun x => base ≤ x.1 && x.1 < base + rows && 0 < x.2.addCount)
        let flying := q < 34 && (s.eng c q).spills.any (fun x => base ≤ x.row && x.row < base + rows)
        if left || flying then s else s.part c n q stOk

def execSpill (dt : Nat) (core : Fin 16) (queue : Fin 66) (s : State) : Result :=
  .next ((s.elapse dt).spillOp core queue)

/-- RESUME at the head of a queue sets CHURN_VALID on its rows. -/
def State.resumeOp (s : State) (c q : Nat) : State :=
  match s.head c q opResume with
  | none => s
  | some (n, o) =>
    let f := s.queueFault c q
    if f != stOk then s.part c n q f
    else
      let base := pTileBase o.word
      let rows := pTileRows o.word
      if !s.rowsFree c q n base rows then s
      else
        let v := (tileRange base rows).foldl (fun t i => tmod t i (fun r => { r with churnValid := true })) (s.vatOf c q)
        (s.setVat c q v).part c n q stOk

def execResume (dt : Nat) (core : Fin 16) (queue : Fin 66) (s : State) : Result :=
  .next ((s.elapse dt).resumeOp core queue)

end Sys2Proof.Machine
end

