-- ==== Sys2Proof/Machine/PulseRef.lean ====
section
/-! DEFINITION. Loop faults of engines and the pulse reference (R36, R39, R64). -/

namespace Sys2Proof.Machine

/-- ENGINE_FAULT_STOP: an engine with a faulted loop reaches its window boundary: the window that integrates is discarded, its
passes end, its write is abandoned and it is FENCED (R36, R100). -/
def execEngineFaultStop (dt : Nat) (core : Fin 16) (eng : Fin 34) (s : State) : Result :=
  let s := s.elapse dt
  let g := s.eng core eng
  .next (if !g.stopping then s
    else (s.bump (engIdx core eng) 0x0C (if g.integrating.isSome then 1 else 0)).fence (engineRef core eng))

/-- The window that integrates on an engine is discarded and stands first in line for its reissue (R39). -/
def State.discardWindow (s : State) (c e : Nat) : State :=
  match (s.eng c e).integrating with
  | none => s
  | some w =>
    (s.modEng c e (fun g => { g with integrating := none, todo := w :: g.todo })).bump (engIdx c e) 0x0C 1

/-- PULSE_REF_LOCK_LOSS: a LOCKED pulse reference loses lock; the relock limit then in force holds (R39, R65). -/
def execPulseRefLockLoss (dt : Nat) (core : Fin 16) (s : State) : Result :=
  let s := s.elapse dt
  .next (if (s.core core).pulse != .locked then s
    else
      let lost := some (s.ns, s.val (coreIdx core) 0x23)
      let s := s.modCore core (fun k => { k with pulse := .acquiring, pulseLost := lost })
      (forRange 34 s (fun s e => s.discardWindow core e)).bump (coreIdx core) 0x21 1)

/-- PULSE_REF_RELOCK: the pulse reference reports LOCKED and issue resumes (R39); at bring-up it locks the same way (R510). -/
def execPulseRefRelock (dt : Nat) (core : Fin 16) (s : State) : Result :=
  let s := s.elapse dt
  .next (if (s.core core).pulse = .acquiring then
    s.modCore core (fun k => { k with pulse := .locked, pulseLost := none }) else s)

/-- PULSE_REF_UNLOCK: the relock limit passes without lock: the core is FENCED and keeps its vats (R39). -/
def execPulseRefUnlock (dt : Nat) (core : Fin 16) (s : State) : Result :=
  let s := s.elapse dt
  .next (match (s.core core).pulseLost with
    | some (t, limit) =>
      if t + 1000 * limit ≤ s.ns then
        ((s.modCore core (fun k => { k with pulse := .unlocked, pulseLost := none })).raise 0x0201 (coreRef core) 0).fence
          (coreRef core)
      else s
    | none => s)

end Sys2Proof.Machine
end

