-- ==== Sys2Proof/Machine/Calibration.lean ====
section
/-! DEFINITION. Calibration of banks and pair remaps that follow from it, with the twin's cross-check of column sums (R72 to
R75, R96, R100, R342). -/

namespace Sys2Proof.Machine

-- pairs (R33, R96)

/-- The physical pair of a logical column, and the next free spare pair. -/
def Plane.pairOf (p : Plane) (j : Nat) : Nat := (tfind p.map j).getD j
def Plane.spares (p : Plane) : List Nat :=
  [256, 257, 258, 259].filter (fun x => x ∉ p.retired && !(p.map.any (fun m => m.2 = x)))
/-- Remaps under way on a plane of an engine, and the spare pairs spoken for. -/
def Engine.remapping (g : Engine) (plane : Nat) : List WriteRun :=
  (g.writing.toList ++ g.remapWait).filter (fun w => w.plane = plane && w.spare.isSome)
def Engine.freeSpare (g : Engine) (plane : Nat) : Option Nat :=
  (g.plane plane).spares.find? (fun x => !(g.remapping plane).any (fun w => w.spare = some x))

/-- A logical column moves to a spare pair, and its pair is retired (R96). -/
def setMap (j x : Nat) : List (Nat × Nat) → List (Nat × Nat)
  | [] => [(j, x)]
  | m :: t => if j < m.1 then (j, x) :: m :: t else if j = m.1 then (j, x) :: t else m :: setMap j x t
def Plane.remap (p : Plane) (j x : Nat) : Plane := { p with map := setMap j x p.map, retired := p.retired ++ [p.pairOf j] }

/-- Set or clear a bit of a column's flags (R87). -/
def Plane.flag (p : Plane) (j bit : Nat) (on : Bool) : Plane :=
  { p with flags := tmod p.flags j (fun v => if bitOf v bit = on then v else if on then v + 2 ^ bit else v - 2 ^ bit) }

/-- The signed level of a cell pair in the plane's contents (R92). -/
def Plane.weight (p : Plane) (j i : Nat) : Int := signed 8 (p.weights.getD (512 * j + i) 0).toNat

/-- The next write of an engine's controller, when the running one is over (R198). -/
def Engine.nextWrite (g : Engine) : Engine :=
  match g.writeWait with
  | some w => { g with writing := some w, writeWait := none }
  | none => match g.remapWait with
    | [] => { g with writing := none }
    | w :: t => { g with writing := some w, remapWait := t }

/-- SPARE_PAIRS_EXHAUSTED: no spare pair is free for a column (R75, R96). -/
def State.sparesGone (s : State) (c e plane j : Nat) : State :=
  (s.modEng c e (fun g => { g with failNext := true })).raise 0x0204 (engineRef c e) (plane + 256 * j)

/-- A column's pair is handed to the remap procedure: its spare pair is written when the controller is free, and the map changes
once that is done; until then the column is flagged (R75, R100). Without a free spare the pair is kept. Answers whether a
remap follows. -/
def State.handToRemap (s : State) (c e plane j bit limit : Nat) : State × Bool :=
  let s := s.modEng c e (fun g => g.modPlane plane (fun p => p.flag j bit true))
  let g := s.eng c e
  if (g.remapping plane).any (fun w => j ∈ w.remaps) then (s, true)
  else
    match g.freeSpare plane with
    | none => (s.sparesGone c e plane j, false)
    | some x =>
      let run : WriteRun := { plane := plane, phase := .spares 0 false, remaps := [j], spare := some x, limit := limit,
                              startAt := s.up }
      (s.modEng c e (fun g =>
        if g.writing.isNone then { g with writing := some run } else { g with remapWait := g.remapWait ++ [run] }), true)

-- what is due (R72)

/-- The order of two due calibrations: class, then when the bank fell due, then the bank now named B0, then 8, 6, 4 bits. -/
def dueBefore (g : Engine) (a b : Nat × Nat × Nat × Nat) : Bool :=
  if a.2.2.1 != b.2.2.1 then a.2.2.1 < b.2.2.1
  else if a.2.2.2 != b.2.2.2 then a.2.2.2 < b.2.2.2
  else if a.1 != b.1 then a.1 = g.b0
  else b.2.1 < a.2.1

/-- The calibration to run next: plane, BITS code, class and the time at which it fell due. -/
def Engine.nextCal (g : Engine) : Option (Nat × Nat × Nat × Nat) :=
  let all : List (Nat × Nat × Nat × Nat) :=
    g.plane0.calDue.map (fun d => (0, d.1, d.2.1, d.2.2)) ++ g.plane1.calDue.map (fun d => (1, d.1, d.2.1, d.2.2))
  (all.filter (fun (x : Nat × Nat × Nat × Nat) =>
    let st := (g.plane x.1).st
    if x.2.2.1 = 1 then st = .verified else st = .live || st = .refreshing)).foldl (fun (best : Option (Nat × Nat × Nat × Nat)) x => match best with
    | none => some x
    | some b => if dueBefore g x b then some x else some b) none

/-- A calibration falls due (R72); one already due stays as it is. -/
def Plane.due (p : Plane) (bits cls now : Nat) : Plane :=
  if p.calDue.any (fun d => d.1 = bits) then p else { p with calDue := p.calDue ++ [(bits, cls, now)] }

/-- The patrol's share of window slots is spent: 0.1 % of them over 10 ms (R185). -/
def Engine.patrolSpent (g : Engine) (now bits : Nat) : Bool :=
  10000000000 ≤ (g.patrolAt.filter (fun t => now < t + 10000000000)).length * windowPs bits * 1000

/-- CALIBRATION_WINDOW: a slot without a ready pass window carries a window of the next calibration (R72, R103, R104). -/
def State.calWindow (s : State) (c e : Nat) : State :=
  let g := (s.eng c e).group (s.windowRate c)
  let ready := match s.nextWindow c e g with
    | .opens .. => true
    | _ => false
  if s.engineOut c e || (s.core c).pulse != .locked || g.stopping || g.integrating.isSome || g.converting.isSome ||
      ready || s.up < g.slotEnd || (s.head c e opBankSwap).isSome || g.rate ≤ g.used then s
  else
    let run := match g.cal with
      | some r => some r
      | none => (g.nextCal).map (fun (x : Nat × Nat × Nat × Nat) => ({ plane := x.1, bits := x.2.1, cls := x.2.2.1 } : CalRun))
    match run with
    | none => s
    | some r =>
      if 4096 ≤ r.done then s
      else if 3 ≤ r.cls && g.patrolSpent s.up r.bits then
        (s.modEng c e (fun g => { g with deferred := true })).bump (coreIdx c) 0x55 (if g.deferred then 0 else 1)
      else
        let now := (g.bankOf r.plane, r.bits, 0, r.plane)
        let gap := if g.last.any (fun x => x != now) then 1000 else 0
        let g := { (g.pass1 true) with
          cal := some { r with done := r.done + 1 }, last := some now, slotEnd := s.up + gap + windowPs r.bits
          windowNo := (g.windowNo + 1) % 3
          deferred := if 3 ≤ r.cls then false else g.deferred
          patrolAt := if 3 ≤ r.cls then g.patrolAt.filter (fun t => s.up < t + 10000000000) ++ [s.up] else g.patrolAt }
        (s.modEng c e (fun _ => g)).bump (engIdx c e) 0x1E 1

def execCalibrationWindow (dt : Nat) (core : Fin 16) (eng : Fin 34) (s : State) : Result :=
  .next ((s.elapse dt).calWindow core eng)

-- coefficients (R73)

/-- COEFFICIENTS_TAKE_EFFECT: at a vector boundary the coefficients measured take effect (R73). -/
def execCoefficientsTakeEffect (dt : Nat) (core : Fin 16) (eng : Fin 34) (s : State) : Result :=
  let s := s.elapse dt
  .next (if (s.eng core eng).todo.isEmpty then
    s.modEng core eng (fun g => { g with plane0 := g.plane0.takeFresh, plane1 := g.plane1.takeFresh }) else s)

-- the cross-check (R342)

/-- The cross-check's tolerance on F_j at a BITS code: `0x2200:0D` is in parts per million of full scale. -/
def State.crossLimit (s : State) (bits : Nat) : Nat := s.val 0x2200 0x0D * (512 * (2 ^ inputBits bits - 1) * 63)

/-- F_j of a plane at a BITS code, and the ideal from its image. -/
def Plane.response (p : Plane) (bits j : Nat) : Int :=
  let m := match tget p.fresh bits with
    | some m => m
    | none => (tget p.coeffs bits).getD {}
  m.sums.getD j 0
def Plane.ideal (p : Plane) (bits j : Nat) : Int :=
  ((2 ^ inputBits bits - 1 : Nat) : Int) * ((List.range 512).map (p.weight j)).sum

/-- A twin's record meets a bank of this device: mismatching columns are counted, a column that deviates from its ideal is
marked CAL_FAIL, and a mismatch that neither explains raises the warning (R75, R342). -/
def State.compareSums (s : State) (c e plane : Nat) (r : CrossCheck) : State :=
  let p := (s.eng c e).plane plane
  let lim := s.crossLimit r.bits
  let far (a b : Int) : Bool := lim < 1000000 * (a - b).natAbs
  let bad := (List.range 256).filter (fun j => far (p.response r.bits j) (r.sums.getD j 0))
  let own := bad.filter (fun j => far (p.response r.bits j) (p.ideal r.bits j))
  let theirs := bad.filter (fun j => far (r.sums.getD j 0) (p.ideal r.bits j))
  let s := (s.bump 0x2201 0x0E (if bad.isEmpty then 1 else 0)).bump 0x2201 0x0F bad.length
  let s := own.foldl (fun s j =>
    ((s.handToRemap c e plane j 1 (s.val 0x4007 1)).1).bump (engIdx c e) 0x1F 1) s
  if bad.any (fun j => j ∉ own && j ∉ theirs) then s.raise 0x0506 (engineRef c e) bad.length else s

/-- The banks that a record may be compared with: LIVE, same image check code, calibrated at the same b. -/
def Plane.matchesRecord (p : Plane) (r : CrossCheck) : Bool :=
  (p.st = .live || p.st = .refreshing) && p.record.any (fun x => x.check = r.check.toNat) && r.bits ∈ p.calibrated

/-- Records of the twin that waited for this bank are compared now (R342). -/
def State.compareWaiting (s : State) (c e plane : Nat) : State :=
  let p := (s.eng c e).plane plane
  let hits := s.twin.records.filter (fun x => p.matchesRecord x.1)
  let s := { s with twin := { s.twin with records := s.twin.records.filter (fun x => !p.matchesRecord x.1) } }
  hits.foldl (fun s x => s.compareSums c e plane x.1) s

/-- The responses of a bank that a BANK.WRITE filled go to the twin (R342). -/
def State.sendSums (s : State) (c e plane bits : Nat) (m : Measured) : State :=
  let p := (s.eng c e).plane plane
  match p.record with
  | some r =>
    if s.twin.st = .paired || s.twin.st = .syncing then
      s.emit (.crossCheck { check := BitVec.ofNat 64 r.check, tag := r.tag, bits := bits, sums := m.sums })
    else s
  | none => s

-- completion (R72, R75, R100)

/-- Gains of CONST columns are 1.0 (R74). -/
def Plane.constGains (p : Plane) (m : Measured) : Measured :=
  { m with gains := (List.range 256).map (fun j => if bitOf (tget p.flags j) 0 then 65536 else m.gains.getD j 65536) }

/-- A calibration at one b of a plane has succeeded: a VERIFIED bank becomes LIVE with the rest of its calibrations due. -/
def Plane.calibratedAt (p : Plane) (bits now : Nat) (m : Measured) : Plane :=
  let p := { p with
    fresh := tset p.fresh bits (some m), calibrated := if bits ∈ p.calibrated then p.calibrated else p.calibrated ++ [bits]
    calDue := p.calDue.filter (fun d => d.1 != bits), calAt := now }
  if p.st = .verified then
    ([2, 1, 0].filter (fun b => b ∉ p.calibrated)).foldl (fun p b => p.due b 2 now) { p with st := .live, refreshedAt := now }
  else p

/-- Columns other than CONST whose gain lies outside 0.75 to 1.33 (R75). -/
def Plane.badGains (p : Plane) (m : Measured) : List Nat :=
  (List.range 256).filter (fun j =>
    let g := m.gains.getD j 65536
    !bitOf (tget p.flags j) 0 && (g < 49152 || 133 * 65536 < 100 * g))

/-- CALIBRATION_COMPLETE: the 4,096 windows of a calibration are done and these are its measurements (R72 to R75). -/
def State.calDone (s : State) (c e : Nat) (measured : Measured) : State :=
  let g := s.eng c e
  match g.cal with
  | none => s
  | some r =>
    if r.done < 4096 then s
    else
      let p := g.plane r.plane
      let m := p.constGains measured
      let s := s.modEng c e (fun g => { g with cal := none })
      let far := (List.range 256).find? (fun j => m.offsets.any (fun l => 512 < (l.getD j 0).natAbs))
      match far with
      | some j =>
        (((s.modEng c e (fun g => { g with calFailed := true })).bump (engIdx c e) 0x1F 1).raise 0x0202 (engineRef c e) j).fence
          (engineRef c e)
      | none =>
        let bad := p.badGains m
        let x := bad.foldl (fun (a : State × Bool) j =>
          let y := a.1.handToRemap c e r.plane j 1 (s.val 0x4007 1)
          (y.1, a.2 || y.2)) (s.bump (engIdx c e) 0x1F bad.length, false)
        if x.2 then x.1.modEng c e (fun g => g.modPlane r.plane (fun p => { p with calDue := [] }))
        else
          let s := x.1.modEng c e (fun g =>
            let g := g.modPlane r.plane (fun p => p.calibratedAt r.bits s.up m)
            { g with stale := false, calFailed := !bad.isEmpty
                     exchange := g.exchange && (g.plane0.calDue ++ g.plane1.calDue).any (fun d => d.2.1 = 2) })
          let s := if r.cls ≤ 2 then s.sendSums c e r.plane r.bits m else s
          s.compareWaiting c e r.plane

def execCalibrationComplete (dt : Nat) (core : Fin 16) (eng : Fin 34) (measured : Measured) (s : State) : Result :=
  .next ((s.elapse dt).calDone core eng measured)

/-- Up time, ps, of an engine's last successful recalibration, 0 for none (R75). -/
def Engine.calibratedLast (g : Engine) : Nat := max g.plane0.calAt g.plane1.calAt

/-- CAL_STALE: an engine's last recalibration is older than the stale limit (R75). -/
def execCalStale (dt : Nat) (core : Fin 16) (eng : Fin 34) (s : State) : Result :=
  let s := s.elapse dt
  let g := s.eng core eng
  let age := s.up - g.calibratedLast
  .next (if g.stale || g.calibratedLast = 0 || age ≤ s.val (coreIdx core) 0x28 * sPs then s
    else (s.modEng core eng (fun g => { g with stale := true })).raise 0x0203 (engineRef core eng) (age / msPs % 2 ^ 32))

/-- Calibration State `0x5100:19` (R87). -/
def Engine.calState (g : Engine) : Nat :=
  if g.cal.isSome then 1 else if g.calFailed then 4 else if g.stale then 3 else if g.calibratedLast = 0 then 0 else 2

end Sys2Proof.Machine
end

