-- ==== Sys2Proof/Machine/Banks.lean ====
section
/-! DEFINITION. Bank writes, swaps, wear rotation and drift refresh (R90 to R111, R197 to R199). -/

namespace Sys2Proof.Machine

-- fields of a BANK.WRITE word (R197)

def wImg (w : TvWord) : Nat := fld w 79 70
def wTag (w : TvWord) : Nat := fld w 45 32
def wBank (w : TvWord) : Nat := fld w 31 31
def wCalB (w : TvWord) : Nat := fld w 28 27
def wSkip (w : TvWord) : Bool := fld w 26 26 = 1

-- images (R92, R93)

def imageBytes : Nat := 131584

/-- Column scales and levels of an image. -/
def imageScales (m : Mem) (a : Nat) : List F16 := (List.range 256).map (fun j => BitVec.ofNat 16 (m.num (a + 2 * j) 2))
def imageLevels (m : Mem) (a : Nat) : List Byte := m.read (a + 512) 131072

/-- Levels lie in -63 to 63 and scales are finite (R93). -/
def imageOk (scales : List F16) (levels : List Byte) : Bool :=
  scales.all (fun x => x.toNat / 1024 % 32 != 31) &&
  levels.all (fun b => (signed 8 b.toNat).natAbs ≤ 63)

/-- The 64-bit image check code (R93; log entry 7). -/
def imageCheck (m : Mem) (a : Nat) : Nat := leNat ((shake256 (m.read a imageBytes)).take 8)

/-- Columns that are CONST: the sum of |w| is at most 15 (R74). -/
def constFlags (levels : List Byte) : Tbl Nat :=
  (List.range 256).foldl (fun t j =>
    let sum := (((levels.drop (512 * j)).take 512).map (fun b => (signed 8 b.toNat).natAbs)).sum
    if sum ≤ 15 then tset t j 1 else t) []

-- BANK.WRITE at the queue head (R110, R198, R474)

/-- Address of the image for a slot of the mask (R92). -/
def Op.imageFor (o : Op) (slot : Nat) : Nat :=
  let d := o.desc (wImg o.word)
  d.base + d.rowStride * rankOf (maskOf o.word) slot

/-- The bank already holds this write's job, tag and image (R197). -/
def Plane.current (p : Plane) (job tag check : Nat) : Bool :=
  (p.st = .live || p.st = .refreshing) && p.record.any (fun r => r.job = job && r.tag = tag && r.check = check)

/-- Wear rotation applies to a write of a bank: the other bank is EMPTY and less worn by more than the margin (R110). -/
def Engine.rotates (g : Engine) (bank margin : Nat) : Bool :=
  let x := g.plane (g.planeOf bank)
  let y := g.plane (1 - g.planeOf bank)
  y.st = .empty && y.rewrites + margin < x.rewrites

/-- A job's owner may program the banks of a core (R259). -/
def State.mayProgram (s : State) (c : Nat) : Bool :=
  let m := (s.job (s.coreJob c)).owner
  m = 0 || has (s.bankRights m c) rightProg

/-- BANK.WRITE or BANK.SWAP without PROG for the core ends on its queue with ACCESS (R259, R260). -/
def State.progDenied (s : State) (c q n : Nat) : State :=
  (s.denyEntry (some (s.job (s.coreJob c)).owner) 0x3070 (1 + 4 * c) rightProg).part c n q stAccess

/-- BANK.WRITE for a stand-in slot: the record alone is kept, and the bank counts as LIVE (R474). -/
def State.standWrite (s : State) (c slot n : Nat) (o : Op) : State :=
  let a := o.imageFor slot
  let x := s.access (s.coreJob c) a imageBytes rightR
  if x.1 != stOk then x.2.part c n (34 + slot) x.1
  else
    let s := x.2
    if !imageOk (imageScales s.mem a) (imageLevels s.mem a) then s.part c n (34 + slot) stBankImage
    else
      let r : BankRecord := { job := s.coreJob c, tag := wTag o.word, image := a, calB := wCalB o.word, check := imageCheck s.mem a }
      let key := 2 * slot + wBank o.word
      (s.modCore c (fun k => { k with
        standRecords := k.standRecords.filter (fun y => y.1 != key) ++ [(key, r)] })).part c n (34 + slot) stOk

/-- BANK.WRITE at the head of an engine queue resolves its plane and passes to the write controller (R198). -/
def State.engineWrite (s : State) (c e n : Nat) (o : Op) : State :=
  let g := s.eng c e
  let a := o.imageFor (((s.core c).slotOf e).getD 0)
  let x := s.access (s.coreJob c) a imageBytes rightR
  let skip := wSkip o.word && x.1 = stOk &&
    (g.plane (g.planeOf (wBank o.word))).current (s.coreJob c) (wTag o.word) (imageCheck s.mem a)
  if wSkip o.word && x.1 != stOk then x.2.part c n e x.1
  else if skip then s.part c n e stOk
  else if g.writing.isSome && g.writeWait.isSome then s
  else
    let g := if g.rotates (wBank o.word) (s.val 0x4007 4) then { g with b0 := 1 - g.b0 } else g
    let run : WriteRun := {
      op := some n, plane := g.planeOf (wBank o.word)
      record := { job := s.coreJob c, tag := wTag o.word, image := a, calB := wCalB o.word } }
    let g := if g.writing.isNone then { g with writing := some run } else { g with writeWait := some run }
    let s := s.modEng c e (fun _ => g)
    s.modCore c (fun k => { (k.setQueue e ((k.queue e).filter (fun y => y != n))) with
      ops := (k.modOp n (fun o => { o with stage := .running })).ops })

def State.bankWriteOp (s : State) (c q : Nat) : State :=
  match s.head c q opBankWrite with
  | none => s
  | some (n, o) =>
    let f := s.queueFault c q
    if f != stOk then s.part c n q f
    else if !s.mayProgram c then s.progDenied c q n
    else if q < 34 then s.engineWrite c q n o
    else s.standWrite c (q - 34) n o

def execBankWrite (dt : Nat) (core : Fin 16) (queue : Fin 66) (s : State) : Result :=
  .next ((s.elapse dt).bankWriteOp core queue)

-- the reset (R93, R94, R103)

/-- The part of a write's instruction on its engine ends. -/
def State.writeEnds (s : State) (c e : Nat) (w : WriteRun) (status : Nat) : State :=
  let s := s.modEng c e Engine.nextWrite
  match w.op with
  | some n => s.part c n e status
  | none => s

/-- Rewrites for which a plane is rated (R111). -/
def ratedRewrites : Nat := 200000000000

/-- Every earlier window on the plane has retired and no refresh chunk is active (R103). -/
def Engine.planeIdle (g : Engine) (plane : Nat) : Bool :=
  !(g.passes.any (fun r => r.plane = plane)) && !((g.plane plane).refresh.any (fun r => r.active))

/-- A restore rewrite finds its image changed: the bank stays EMPTY, and the job's next PASS on it tells (R166). -/
def State.restoreChanged (s : State) (c e : Nat) (w : WriteRun) : State :=
  let s := (s.modEng c e (fun g => g.modPlane w.plane (fun p => { p.emptied with imageChanged := true })))
  (s.raise 0x0206 (engineRef c e) ((s.eng c e).bankOf w.plane)).writeEnds c e w stBankImage

/-- BANK_WRITE_RESET: the image is checked, the record is set and the reset begins (R93, R94, R98, R101, R103). -/
def State.writeReset (s : State) (c e : Nat) : State :=
  let g := s.eng c e
  match g.writing with
  | none => s
  | some w =>
    if w.phase != .waiting || !g.planeIdle w.plane then s
    else
      let s := if g.cal.any (fun r => r.plane = w.plane) then s.modEng c e (fun g => { g with cal := none }) else s
      let x := if w.op.isSome then s.access w.record.job w.record.image imageBytes rightR else (stOk, s)
      let s := x.2
      let check := imageCheck s.mem w.record.image
      let scales := imageScales s.mem w.record.image
      let levels := imageLevels s.mem w.record.image
      if x.1 != stOk then s.writeEnds c e w x.1
      else if (w.op.isNone || w.restore) && check != w.record.check then s.restoreChanged c e w
      else if !imageOk scales levels then s.writeEnds c e w stBankImage
      else
        let run := { w with phase := .reset, resets := 0, startAt := s.up, limit := s.val 0x4007 1
                            record := { w.record with check := check } }
        let before := (g.plane w.plane).rewrites
        let s := s.modEng c e (fun g => { (g.modPlane w.plane (fun p =>
          { p.emptied with st := .writing, rewrites := wrapAdd 8 p.rewrites 1, record := some run.record, scales := scales
                           weights := levels, flags := constFlags levels })) with writing := some run })
        let mark := s.val 0x4007 5 * (ratedRewrites / 100)
        if before ≤ mark && mark < before + 1 then s.raise 0x0207 (engineRef c e) w.plane else s

def execBankWriteReset (dt : Nat) (core : Fin 16) (eng : Fin 34) (s : State) : Result :=
  .next ((s.elapse dt).writeReset core eng)

/-- BANK_RESET_SURVEY: the survey at the end of a reset; `highest` is the highest cell, in 1/1000 level (R94). -/
def State.resetSurvey (s : State) (c e highest : Nat) : State :=
  match (s.eng c e).writing with
  | none => s
  | some w =>
    if w.phase != .reset || s.up < w.startAt + 200 * usPs * (w.resets + 1) then s
    else
      let again := 500 < highest && w.resets = 0
      let next := if again then { w with resets := 1 } else { w with resets := w.resets + 1, phase := .columns 0 false 0 }
      s.modEng c e (fun g => { g with writing := some next })

def execBankResetSurvey (dt : Nat) (core : Fin 16) (eng : Fin 34) (highest : Nat) (s : State) : Result :=
  .next ((s.elapse dt).resetSurvey core eng highest)

-- columns (R94 to R98)

/-- Target level of a cell of a pair (R32). -/
def cellTarget (w : Int) (negative : Bool) : Nat := if negative then (-w).toNat else w.toNat

/-- Rows of a column that have not yet passed at a verify result, in 1/1000 level: within 300 of the target passes (R95). -/
def failingRows (p : Plane) (j : Nat) (negative : Bool) (before : List Nat) (levels : List Nat) : List Nat :=
  before.filter (fun i =>
    300 < ((levels.getD i 0 : Int) - 1000 * (cellTarget (p.weight j i) negative : Nat)).natAbs)

/-- A write has placed its last column: the bank is VERIFIED, its calibration at CAL_B falls due and the completion data are
recorded (R72, R98, R100). A remap alone sets its column's map as well. -/
def State.writeVerified (s : State) (c e : Nat) (w : WriteRun) : State :=
  let now := s.up
  match w.spare with
  | none =>
    let s := s.modEng c e (fun g => g.modPlane w.plane (fun p => { p with
      st := .verified, calDue := [(w.record.calB, 1, now)], refreshedAt := now }))
    let s := (s.setVal (engIdx c e) 0x2A ((now - w.startAt) / usPs % 2 ^ 32)).setVal (engIdx c e) (0x27 + w.plane) w.weak
    s.writeEnds c e w stOk
  | some x =>
    let j := w.remaps.headD 0
    let s := s.modEng c e (fun g => g.modPlane w.plane (fun p =>
      let p := ((p.remap j x).flag j 1 false).flag j 2 false
      if p.st = .empty || p.st = .writing then p
      else { p with st := .verified, refresh := none, calibrated := []
                    calDue := [((p.record.map (fun r => r.calB)).getD 2, 1, now)] }))
    s.writeEnds c e w stOk

/-- A pair has more weak cells than the limit: its column moves to the next free spare pair, or is flagged WEAK (R96). -/
def State.pairDone (s : State) (c e : Nat) (w : WriteRun) (j : Nat) : State × WriteRun :=
  if w.weakPair ≤ w.limit then (s, { w with weak := w.weak + w.weakPair, weakPair := 0 })
  else
    let g := s.eng c e
    match w.spare, g.freeSpare w.plane with
    | none, some x =>
      (s.modEng c e (fun g => g.modPlane w.plane (fun p => p.remap j x)),
       { w with remaps := w.remaps ++ [j], remapped := w.remapped + 1, weakPair := 0 })
    | some x, some y =>
      -- the spare pair itself is given up for the next one
      (s.modEng c e (fun g => g.modPlane w.plane (fun p => { p with retired := p.retired ++ [x] })),
       { w with remaps := w.remaps ++ [j], spare := some y, weakPair := 0 })
    | _, none =>
      let s := s.modEng c e (fun g => g.modPlane w.plane (fun p => p.flag j 2 true))
      (s.sparesGone c e w.plane j, { w with weak := w.weak + w.weakPair, weakPair := 0 })

/-- What a write does after a column has ended. -/
def State.columnEnds (s : State) (c e : Nat) (w : WriteRun) : State :=
  let keep (s : State) (w : WriteRun) : State := s.modEng c e (fun g => { g with writing := some { w with failing := [] } })
  match w.phase with
  | .columns j false _ => keep s { w with phase := .columns j true 0 }
  | .columns j true _ =>
    let x := s.pairDone c e w j
    if j < 255 then keep x.1 { x.2 with phase := .columns (j + 1) false 0 }
    else if x.2.remaps.isEmpty then x.1.writeVerified c e x.2
    else keep x.1 { x.2 with phase := .spares 0 false }
  | .spares _ false => keep s { w with phase := .spares 0 true }
  | .spares _ true =>
    let j := w.remaps.headD 0
    let x := s.pairDone c e { w with remaps := w.remaps.drop 1 } j
    if x.2.remaps.isEmpty then x.1.writeVerified c e (if w.spare.isSome then { x.2 with remaps := [j] } else x.2)
    else keep x.1 { x.2 with phase := .spares 0 false }
  | _ => s

/-- BANK_COLUMN_VERIFY: a verify result of the column being written: its 512 cells in 1/1000 level (R95). -/
def State.columnVerify (s : State) (c e : Nat) (levels : List Nat) : State :=
  let g := s.eng c e
  match g.writing with
  | none => s
  | some w =>
    let at_ := match w.phase with
      | .columns j neg it => some (j, neg, it)
      | .spares it neg => some (w.remaps.headD 0, neg, it)
      | _ => none
    match at_ with
    | none => s
    | some (j, neg, it) =>
      let failing := failingRows (g.plane w.plane) j neg (if it = 0 then List.range 512 else w.failing) levels
      if failing.isEmpty then s.columnEnds c e w
      else if it = 12 then s.columnEnds c e { w with weakPair := w.weakPair + failing.length }
      else
        let next := match w.phase with
          | .columns j neg it => WritePhase.columns j neg (it + 1)
          | .spares it neg => WritePhase.spares (it + 1) neg
          | p => p
        s.modEng c e (fun g => { g with writing := some { w with failing := failing, phase := next } })

def execBankColumnVerify (dt : Nat) (core : Fin 16) (eng : Fin 34) (levels : List Nat) (s : State) : Result :=
  .next ((s.elapse dt).columnVerify core eng levels)

/-- BANK_WRITE_FAULT: a write-driver fault abandons the write and fences the engine (R100). -/
def execBankWriteFault (dt : Nat) (core : Fin 16) (eng : Fin 34) (s : State) : Result :=
  let s := s.elapse dt
  .next (match (s.eng core eng).writing with
    | some w => if w.phase = .waiting then s else (s.raise 0x0205 (engineRef core eng) w.plane).fence (engineRef core eng)
    | none => s)

-- swaps (R104, R199)

/-- BANK_SWAP: BANK.SWAP at a queue head waits there; on a stand-in slot the two records change places at once. -/
def State.bankSwapOp (s : State) (c q : Nat) : State :=
  match s.head c q opBankSwap with
  | none => s
  | some (n, _) =>
    let f := s.queueFault c q
    if f != stOk then s.part c n q f
    else if !s.mayProgram c then s.progDenied c q n
    else if q < 34 then s.modCore c (fun k => k.modOp n (fun o => { o with stage := .running }))
    else
      let swap (k : Nat) : Nat := if k / 2 = q - 34 then 2 * (q - 34) + (1 - k % 2) else k
      (s.modCore c (fun k => { k with standRecords := k.standRecords.map (fun x => (swap x.1, x.2)) })).part c n q stOk

def execBankSwap (dt : Nat) (core : Fin 16) (queue : Fin 66) (s : State) : Result :=
  .next ((s.elapse dt).bankSwapOp core queue)

/-- Every window of the passes that have reached the head of an engine's queue has retired (R61, R104). -/
def Engine.windowsRetired (g : Engine) : Bool :=
  g.todo.isEmpty && g.integrating.isNone && g.converting.isNone && g.passes.all (fun r => r.next = r.total)

/-- BANK_SWAP_APPLY: the planes behind B0 and B1 of an engine are exchanged (R104). -/
def execBankSwapApply (dt : Nat) (core : Fin 16) (eng : Fin 34) (s : State) : Result :=
  let s := s.elapse dt
  .next (match s.head core eng opBankSwap with
    | some (n, _) =>
      if (s.eng core eng).windowsRetired && !s.engineOut core eng && s.mayProgram core then
        (s.modEng core eng (fun g => { g with b0 := 1 - g.b0 })).part core n eng stOk
      else s
    | none => s)

-- drift refresh (R107 to R109)

/-- A LIVE plane's refresh age has reached the period (R107). -/
def State.refreshAge (s : State) (p : Plane) : Bool :=
  p.st = .live && max p.refreshedAt p.refreshTry + s.val 0x4007 2 * sPs ≤ s.up

/-- A write waits or runs on a plane. -/
def Engine.writesTo (g : Engine) (plane : Nat) : Bool :=
  (g.writing.toList ++ g.writeWait.toList).any (fun w => w.plane = plane)

/-- DRIFT_REFRESH_DUE: the oldest due bank of a core starts its refresh, unless its image has changed (R107, R109). -/
def State.refreshDue (s : State) (c e plane : Nat) : State :=
  let g := s.eng c e
  let p := g.plane plane
  let older := s.engines.any (fun x => x.1 / 34 = c &&
    [x.2.plane0, x.2.plane1].any (fun y => s.refreshAge y && y.refreshedAt < p.refreshedAt))
  if !s.refreshAge p || older || g.writesTo plane || s.engineOut c e then s
  else
    match p.record with
    | none => s
    | some r =>
      if s.touchesRetired r.image imageBytes || imageCheck s.mem r.image != r.check then
        let s := s.modEng c e (fun g => g.modPlane plane (fun p => { p with refreshTry := s.up }))
        (s.bump (engIdx c e) 0x2F 1).raise 0x0206 (engineRef c e) (g.bankOf plane)
      else
        let run : Refresh := { limit := s.val 0x4007 1, threshold := s.val 0x4007 6 }
        s.modEng c e (fun g => g.modPlane plane (fun p => { p with st := .refreshing, refresh := some run }))

def execDriftRefreshDue (dt : Nat) (core : Fin 16) (eng : Fin 34) (plane : Fin 2) (s : State) : Result :=
  .next ((s.elapse dt).refreshDue core eng plane)

/-- REFRESH_CHUNK_START: the spacing after the last chunk has passed, and no window is in the light of the plane (R103, R107). -/
def execRefreshChunkStart (dt : Nat) (core : Fin 16) (eng : Fin 34) (plane : Fin 2) (s : State) : Result :=
  let s := s.elapse dt
  let g := s.eng core eng
  let inLight := g.integrating.any (fun w => g.passes.any (fun r => r.op = w.op && r.plane = plane))
  .next (match (g.plane plane).refresh with
    | some r =>
      if r.active || (0 < r.chunk && s.up < r.endedAt + s.val 0x4007 3 * usPs) || !g.todo.isEmpty || inLight ||
          g.writesTo plane || s.engineOut core eng then s
      else s.modEng core eng (fun g => g.modPlane plane (fun p =>
        { p with refresh := p.refresh.map (fun r => { r with active := true }) }))
    | none => s)

/-- What a refresh chunk found in one physical column: cells rewritten, and cells still weak after their pulses (R107, R108). -/
def refreshColumn (p : Plane) (r : Refresh) (j : Nat) (negative : Bool) (averages finals : List Nat) : Nat × Nat :=
  let off (l : List Nat) (i : Nat) : Nat :=
    ((l.getD i 0 : Int) - 1000 * (cellTarget (p.weight j i) negative : Nat)).natAbs
  let rewritten := (List.range 512).filter (fun i => r.threshold * 125 < off averages i)
  (rewritten.length, (rewritten.filter (fun i => 300 < off finals i)).length)

/-- REFRESH_CHUNK_END: the chunk's 16 physical columns have been read and rewritten: their averages and final levels in 1/1000
level, positive before negative for each of the 8 logical columns (R107, R108). -/
def State.chunkEnd (s : State) (c e plane : Nat) (averages finals : List (List Nat)) : State :=
  let p := (s.eng c e).plane plane
  match p.refresh with
  | none => s
  | some r =>
    if !r.active then s
    else
      let cols := (List.range 8).map (fun i =>
        let j := 8 * r.chunk + i
        let a := refreshColumn p r j false (averages.getD (2 * i) []) (finals.getD (2 * i) [])
        let b := refreshColumn p r j true (averages.getD (2 * i + 1) []) (finals.getD (2 * i + 1) [])
        (j, a.1 + b.1, a.2 + b.2))
      let rewritten := (cols.map (fun x => x.2.1)).sum
      let weakCols := cols.filter (fun x => r.limit < x.2.2)
      let kept := ((cols.filter (fun x => x.2.2 ≤ r.limit)).map (fun x => x.2.2)).sum
      let s := s.bump (engIdx c e) 0x2C rewritten
      let next : Refresh := { r with
        chunk := r.chunk + 1, active := false, endedAt := s.up, rewrote := r.rewrote || 0 < rewritten, weak := r.weak + kept }
      let s := s.modEng c e (fun g => g.modPlane plane (fun p => { p with refresh := some next }))
      let s := weakCols.foldl (fun s x =>
        let y := s.handToRemap c e plane x.1 2 r.limit
        -- a column that a remap follows is not WEAK: the flag stays only on a pair that is kept (R96)
        if y.2 then y.1.modEng c e (fun g => g.modPlane plane (fun p => p.flag x.1 2 false)) else y.1) s
      if next.chunk < 32 then s
      else
        let now := s.up
        let s := s.modEng c e (fun g => g.modPlane plane (fun p =>
          let p := { p with st := .live, refresh := none, refreshedAt := now }
          if next.rewrote then p.calibrated.foldl (fun p b => p.due b 3 now) p else p))
        (s.bump (engIdx c e) 0x2B 1).setVal (engIdx c e) (0x27 + plane) next.weak

def execRefreshChunkEnd (dt : Nat) (core : Fin 16) (eng : Fin 34) (plane : Fin 2) (averages : List (List Nat))
    (finals : List (List Nat)) (s : State) : Result :=
  .next ((s.elapse dt).chunkEnd core eng plane averages finals)

end Sys2Proof.Machine
end

