-- ==== Sys2Proof/Machine/PassOps.lean ====
section
/-! DEFINITION. PASS at the head of an engine's queue and on a stand-in slot (R85, R101, R102, R201, R474, R498). -/

namespace Sys2Proof.Machine

-- k (R85)

/-- The pin table's entry for a layer of a job, 0 for none (R395), and its K_PIN and PLACE. -/
def State.pinOf (s : State) (j tag : Nat) : Nat :=
  (s.pins.find? (fun e => e % 16384 = tag && e / 65536 % 8 = j)).getD 0
def kPin (e : Nat) : Nat := e / 0x4000000 % 8
def placePin (e : Nat) : Nat := e / 0x1000000 % 4

/-- The k of a pass that starts, and whether its windows count for the policy. A layer's k is created at its first
policy-ranged pass while the policy is enabled; a tag that the layer table does not hold is kept beside it. -/
def State.passK (s : State) (c : Nat) (p : TvWord) : State × Nat × Bool :=
  if pK p < 4 then (s, 2 ^ pK p, false)
  else if kPin (s.pinOf (s.coreJob c) (pTag p)) != 0 then (s, 2 ^ (kPin (s.pinOf (s.coreJob c) (pTag p)) - 1), false)
  else if !s.flag 0x4008 6 then (s, 2 ^ s.val 0x4008 5, false)
  else
    let fresh := 2 ^ s.val 0x4008 5
    let make (l : Layer) : Layer := { l with k := some (l.k.getD fresh) }
    let j := s.coreJob c
    match (s.job j).layers.find? (fun l => l.tag = pTag p) with
    | some l => (s.modJob j (fun x => { x with layers := modLayer (pTag p) make x.layers }), l.k.getD fresh, true)
    | none => (s.modJob j (fun x => { x with layers := x.layers ++ [{ tag := pTag p, extra := true, k := some fresh }] }),
               fresh, true)

/-- What a pass starts with on its first engine, and keeps on the others (R85, R89). -/
def State.passTemplate (s : State) (c n : Nat) (o : Op) : State × PassRun :=
  match o.run with
  | some r => (s, r)
  | none =>
    let x := s.passK c o.word
    let r : PassRun := {
      op := n, total := (o.desc (pIn o.word)).rows, k := x.2.1, policy := x.2.2
      threshold := x.1.val 0x4009 1, budget := x.1.val 0x4009 2, interval := x.1.val 0x4009 3 }
    (x.1.modCore c (fun k => k.modOp n (fun o => { o with run := some r })), r)

-- engines (R101, R102, R201)

/-- The part of a PASS on an engine ends without windows. -/
def State.refusePass (s : State) (c e n status : Nat) : State :=
  (s.modEng c e (fun g => { g.dropOp n with waitEmpty := none })).part c n e status

/-- The pass starts on an engine: it leaves the queue's head and its vectors issue. -/
def State.startPass (s : State) (c e n plane : Nat) (o : Op) : State :=
  let x := s.passTemplate c n o
  let s := x.1.setVal (engIdx c e) 0x18 x.2.k
  let s := s.modEng c e (fun g => { g with passes := g.passes ++ [{ x.2 with plane := plane }], waitEmpty := none })
  s.modCore c (fun k => (k.setQueue e ((k.queue e).filter (fun y => y != n))).modOp n (fun o => { o with stage := .running }))

/-- PASS at the head of an engine's queue: the bank's plane is resolved, the tag is checked, and the pass starts or stalls. -/
def State.enginePass (s : State) (c e n : Nat) (o : Op) : State :=
  let g := s.eng c e
  let plane := g.planeOf (pBank o.word)
  let p := g.plane plane
  let usable := p.st = .live || p.st = .refreshing
  if p.imageChanged then
    (s.modEng c e (fun g => g.modPlane plane (fun p => { p with imageChanged := false }))).refusePass c e n stBankImage
  else
    match p.record with
    | none => s.modEng c e (fun g => { g with waitEmpty := some n })
    | some r =>
      if g.waitEmpty = some n && !usable then s
      else if r.job != s.coreJob c || r.tag != pTag o.word then s.refusePass c e n stBankTag
      else if !usable || g.writesTo plane then s
      else s.startPass c e n plane o

-- stand-in slots (R474, R498)

/-- Magnitude bits of the codes on a stand-in slot: BITS alone sets them, so every code has b bits and a sign (DEDUCED). -/
def standCodes (xs : List Fp) (p : TvWord) : List Int × Option Int × AlignCount := alignVector xs false (inputBits (pBits p))

/-- The terms of a vector with exact D_j: codes by weights, by 2^WEXP, by the column scale, rounded once (R43, R140, R474). -/
def standTerms (codes : List Int) (wexp : Option Int) (scales : List F16) (levels : List Byte) : List F32 :=
  match wexp with
  | none => []
  | some w =>
    (List.range 256).map (fun j =>
      let d : Int := (List.zipWith (fun (x : Int) (l : Byte) => x * signed 8 l.toNat) codes ((levels.drop (512 * j)).take 512)).sum
      let r := scale2 d.natAbs 1 w
      if d = 0 then 0 else f32Of ((Fp.fin (d < 0) r.1 r.2).mul (ieeeValue fp16 16 (scales.getD j 0).toNat)))

/-- The image behind a stand-in bank as a pass reads it: a status, its scales and levels (R474). A changed image is told by
its check code (DEDUCED). -/
def State.standImage (s : State) (c : Nat) (r : BankRecord) : Nat × State × List F16 × List Byte :=
  let x := s.access (s.coreJob c) r.image imageBytes rightR
  if x.1 != stOk then (x.1, x.2, [], [])
  else if imageCheck x.2.mem r.image != r.check then (stBankImage, x.2, [], [])
  else (stOk, x.2, imageScales x.2.mem r.image, imageLevels x.2.mem r.image)

/-- The vat row of a stand-in slot's vector may be replaced (R154). -/
def State.standRowOpen (s : State) (c q n : Nat) (p : TvWord) (v total : Nat) : Bool :=
  let row := tget (s.vatOf c q) (passRow p v)
  !(row.locked.any (fun d => d < n)) && (v < pTileRows p || v - pTileRows p < s.streamRead c n total)

/-- One vector of a PASS on a stand-in slot, if its row may be replaced; `none` with a status when the pass ends on an error. -/
def State.standVector (s : State) (c q n : Nat) (o : Op) (img : List F16 × List Byte) : State × Nat :=
  let slot := q - 34
  let p := o.word
  let total := (o.desc (pIn p)).rows
  let v := tget (s.core c).standNext slot
  if total ≤ v || s.quiescing c || !s.standRowOpen c q n p v total then (s, stOk)
  else
    let row := s.inputRow c o v
    let s := row.2.1
    if row.1 != stOk then (s, row.1)
    else
      let a := standCodes row.2.2 p
      let terms := standTerms a.1 a.2.1 img.1 img.2
      let s := if spillsFirst p (tget (s.vatOf c q) (passRow p v)) then s.spillRow c q (passRow p v) true else s
      let ctr := tget (s.core c).standCtrs slot
      let x := s.updateVat c q p (s.seedOf c ^^^ (Config.standInKey c slot <<< 32)) ctr v terms
      (x.1.modCore c (fun k => { k with
        standCtrs := tset k.standCtrs slot ((ctr + 1) % 2 ^ 64), standNext := tset k.standNext slot (v + 1) }), stOk)

/-- The pass ends on a stand-in slot. -/
def State.standEnd (s : State) (c q n status : Nat) : State :=
  (s.modCore c (fun k => { k with standNext := tset k.standNext (q - 34) 0 })).part c n q status

/-- PASS on a stand-in slot: as many vectors as may be updated now; it stalls while the slot's bank has no record. -/
def State.standPass (s : State) (c q n : Nat) (o : Op) : State :=
  match tfind (s.core c).standRecords (2 * (q - 34) + pBank o.word) with
  | none => s
  | some r =>
    if r.job != s.coreJob c || r.tag != pTag o.word then s.standEnd c q n stBankTag
    else
      let img := s.standImage c r
      if img.1 != stOk then img.2.1.standEnd c q n img.1
      else
        let total := (o.desc (pIn o.word)).rows
        let s := img.2.1.modCore c (fun k => k.modOp n (fun o => { o with stage := .running }))
        let x := forRange total (s, stOk) (fun x _ => if x.2 != stOk then x else x.1.standVector c q n o img.2.2)
        if x.2 != stOk then x.1.standEnd c q n x.2
        else if total ≤ tget (x.1.core c).standNext (q - 34) then x.1.standEnd c q n stOk
        else x.1

def State.passOp (s : State) (c q : Nat) : State :=
  match s.head c q opPass with
  | none => s
  | some (n, o) =>
    let f := s.queueFault c q
    if f != stOk then (if q < 34 then s.refusePass c q n f else s.standEnd c q n f)
    else if q < 34 then s.enginePass c q n o
    else s.standPass c q n o

def execPass (dt : Nat) (core : Fin 16) (queue : Fin 66) (s : State) : Result :=
  .next ((s.elapse dt).passOp core queue)

end Sys2Proof.Machine
end

