-- ==== Sys2Proof/Machine/Footprint.lean ====
section
/-! DEFINITION. What an instruction names and touches: its descriptors with their checks, and the bytes the scoreboard orders
(R138, R139, R151, R155, R172, R192 to R197, R200 to R210, R220). -/

namespace Sys2Proof.Machine

-- bytes

/-- Bytes in pieces: first address, length, count and the distance to the next piece. -/
abbrev Piece := Nat × Nat × Nat × Nat

/-- Some piece of a set meets the `n` bytes from `a`. -/
def meetsSpan (p : Piece) (a n : Nat) : Bool :=
  if n = 0 || p.2.1 = 0 || p.2.2.1 = 0 || a + n ≤ p.1 then false
  else
    let k := if p.2.2.2 = 0 then 0 else min (p.2.2.1 - 1) ((a + n - 1 - p.1) / p.2.2.2)
    a < p.1 + k * p.2.2.2 + p.2.1

/-- Two sets share a byte. -/
def Piece.meets (p q : Piece) : Bool :=
  (List.range p.2.2.1).any (fun k => meetsSpan q (p.1 + k * p.2.2.2) p.2.1)
def piecesMeet (a b : List Piece) : Bool := a.any (fun p => b.any (fun q => p.meets q))

/-- The bytes of a tensor's elements, panel headers included (R220), and of `count` instances of it (R205). -/
def Desc.pieces (d : Desc) : List Piece :=
  if isBlock d.fp then (List.range d.slabs).map (fun j => (d.base + j * d.slabStride, d.slabExtent j, 1, 0))
  else [(d.base, d.cols * elemSize d.fp, d.rows, d.rowStride)]
def Desc.instance_ (d : Desc) (i : Nat) : Desc := { d with base := d.base + i * d.slabStride }
def Desc.batchPieces (d : Desc) (count : Nat) : List Piece :=
  if count ≤ 1 then d.pieces else (List.range count).flatMap (fun i => (d.instance_ i).pieces)

/-- The last byte of every piece lies where `f` says. -/
def piecesIn (ps : List Piece) (f : Nat → Nat → Bool) : Bool :=
  ps.all (fun p => p.2.1 = 0 || p.2.2.1 = 0 || f p.1 ((p.2.2.1 - 1) * p.2.2.2 + p.2.1))

/-- Every piece of a set lies in some range of the device map (R226), and one touches a RETIRED stack (R227). -/
def piecesMapped (ps : List Piece) : Bool :=
  ps.all (fun p => (List.range p.2.2.1).all (fun k => p.2.1 = 0 || rangeSpan (p.1 + k * p.2.2.2) p.2.1 != .nowhere))
def State.piecesRetired (s : State) (ps : List Piece) : Bool :=
  ps.any (fun p => (List.range p.2.2.1).any (fun k =>
    rangeOf (p.1 + k * p.2.2.2) = .hbm && s.touchesRetired (p.1 + k * p.2.2.2) p.2.1))

-- fields

def dOut (w : TvWord) : Nat := fld w 79 70
def dBias (w : TvWord) : Nat := fld w 45 36
def dEw (w : TvWord) : Nat := fld w 35 26
def dRescale (w : TvWord) : Nat := fld w 25 16
def dReduce (w : TvWord) : Bool := fld w 15 15 = 1
def dStream (w : TvWord) : Bool := fld w 14 14 = 1
def dKeep (w : TvWord) : Bool := fld w 13 13 = 1
def dAct (w : TvWord) : Nat := fld w 12 10
def dEwOp (w : TvWord) : Nat := fld w 9 8
def kSrc (w : TvWord) : Nat := fld w 111 110
def kK (w : TvWord) : Nat := fld w 109 103
def kOut (w : TvWord) : Nat := fld w 102 93
def kPos (w : TvWord) : Nat := fld w 92 61
def kStream (w : TvWord) : Bool := fld w 60 60 = 1
def kMask (w : TvWord) : Nat := fld w 59 28
def kBase (w : TvWord) : Nat := fld w 27 16
def kRows (w : TvWord) : Nat := tileRows (fld w 15 4)
def kIn (w : TvWord) : Nat := fld w 59 50
def kCount (w : TvWord) : Nat := fld w 49 43
def kKin (w : TvWord) : Nat := fld w 42 36
def tA (w : TvWord) : Nat := fld w 111 102
def tB (w : TvWord) : Nat := fld w 101 92
def tC (w : TvWord) : Nat := fld w 91 82
def tTrans (w : TvWord) : Bool := fld w 81 81 = 1
def tAcc (w : TvWord) : Bool := fld w 80 80 = 1
def tBatch (w : TvWord) : Nat := fld w 79 68
def tAlpha (w : TvWord) : F32 := BitVec.ofNat 32 (fld w 67 36)
def vOp (w : TvWord) : Nat := fld w 111 104
def vDst (w : TvWord) : Nat := fld w 103 94
def vA (w : TvWord) : Nat := fld w 93 84
def vB (w : TvWord) : Nat := fld w 83 74
def vC (w : TvWord) : Nat := fld w 73 64
def vImm (w : TvWord) : F32 := BitVec.ofNat 32 (fld w 63 32)
def mSrc (w : TvWord) : Nat := fld w 111 102
def mDst (w : TvWord) : Nat := fld w 101 92
def mKind (w : TvWord) : Nat := fld w 91 88
def mQp (w : TvWord) : Nat := fld w 87 72
def mTag (w : TvWord) : Nat := fld w 71 40
def kvList (w : TvWord) : Nat := fld w 111 102
def kvK (w : TvWord) : Nat := fld w 101 92
def kvV (w : TvWord) : Nat := fld w 91 82
def kvLayer (w : TvWord) : Nat := fld w 81 70

/-- The engine mask of an instruction that has one: R196 to R204. -/
def opMask (w : TvWord) : Nat :=
  let o := opcodeOf w
  if isEngineOp o || o = opDrain then maskOf w else if o = opSkim && kSrc w = 0 then kMask w else 0

/-- The descriptor fields of a word, 0 among them for "no operand" (R192). -/
def descFields (w : TvWord) : List Nat :=
  let o := opcodeOf w
  if o = opBankWrite then [wImg w]
  else if o = opPass then [pIn w]
  else if o = opDrain then [dOut w, dBias w, dEw w, dRescale w]
  else if o = opSkim then (if kSrc w = 0 then [kOut w] else [kOut w, kIn w])
  else if o = opTens then [tA w, tB w, tC w]
  else if o = opVec then [vDst w, vA w, vB w, vC w]
  else if o = opMove then [mSrc w, mDst w]
  else if o = opKvAppend || o = opKvGather then [kvList w, kvK w, kvV w]
  else []

/-- The descriptor entries named, as bytes read (R220). -/
def State.entryPieces (s : State) (c : Nat) (w : TvWord) : List Piece :=
  ((descFields w).filter (fun i => i != 0)).map (fun i => (s.descTable c + 32 * i, 32, 1, 0))

-- rank parts of a drain's output and elementwise operand (R155)

/-- Distance between the ranks' outputs. -/
def Desc.engineStride (d : Desc) : Nat :=
  if !isBlock d.fp && d.slabStride = 0 then 256 * elemSize d.fp else d.slabStride
/-- Rank `n`'s part: 256 columns of its own. -/
def Desc.rank (d : Desc) (n : Nat) : Desc := { d with base := d.base + n * d.engineStride, cols := 256 }
def Desc.drainPieces (d : Desc) (reduce : Bool) (engines : Nat) : List Piece :=
  if reduce then d.pieces else (List.range engines).flatMap (fun n => (d.rank n).pieces)

/-- The checks of R195 with the stride rules of R155. -/
def Desc.drainOk (d : Desc) (reduce : Bool) : Bool :=
  d.fmt ≤ 9 && 1 ≤ d.rows && d.rows ≤ 0x1000000 && 1 ≤ d.cols && d.cols ≤ 0x1000000 && d.reserved = 0 &&
  (if reduce || isBlock d.fp || d.slabStride = 0 then d.stridesOk
   else d.slabStride % elemSize d.fp = 0 && 256 * elemSize d.fp ≤ d.rowStride && d.rowStride % elemSize d.fp = 0)

-- checks

/-- The first status of a list of checks whose condition does not hold. -/
def firstFail : List (Bool × Nat) → Nat
  | [] => stOk
  | (ok, st) :: t => if ok then firstFail t else st

/-- A panel scale with which an instruction may write (R130). -/
def Desc.scaleOk (d : Desc) : Bool := !isBlock d.fp || scaleNormal d.panelScale.toNat

/-- A MOVE's descriptor strides are checked like any other's. A tensor operand must be named (R192). -/
def needTensor (i : Nat) (d : Desc) : Bool := i != 0 && d.tensorOk
def needRecord (i : Nat) (d : Desc) : Bool := i != 0 && d.recordOk

/-- The tile lies within the vat (R138). -/
def tileOk (base rows : Nat) : Bool := base + rows ≤ 4096

/-- A drain's operands lie in the draining core's store or in HBM (R151), its rescale table in its store (R132). -/
def drainPlace (c : Nat) (a n : Nat) : Bool := rangeSpan a n = .hbm || rangeSpan a n = .store c

/-- The instruction that a streaming DRAIN or SKIM follows is the PASS it streams (R139). -/
def streamsOf (prev : TvWord) (passRows mask base rows vectors : Nat) : Bool :=
  opcodeOf prev = opPass && !pAdd prev && maskOf prev = mask && pTileBase prev = base && pTileRows prev = rows &&
  passRows = vectors

/-- The instruction after a PASS with more vectors than tile rows streams it (R139). -/
def streamedBy (pass : TvWord) (vectors : Nat) (next : TvWord) (outRows : Nat) : Bool :=
  !pAdd pass && outRows = vectors &&
  (if opcodeOf next = opDrain then
     dStream next && maskOf next = maskOf pass && pTileBase next = pTileBase pass && pTileRows next = pTileRows pass
   else if opcodeOf next = opSkim then
     kSrc next = 0 && kStream next && kMask next = maskOf pass && kBase next = pTileBase pass && kRows next = pTileRows pass
   else false)

/-- Lists that a SKIM writes (R158, R204). -/
def skimLists (w : TvWord) (d : Nat → Desc) : Nat :=
  if kSrc w = 0 then (if kStream w then (d (kOut w)).rows else kRows w) else (d (kIn w)).rows

/-- B or C of a VOP fits A's shape, a single row standing for every row (R207). -/
def fitsRow (a b : Desc) : Bool := b.cols = a.cols && (b.rows = a.rows || b.rows = 1)

/-- The checks of an instruction's descriptors and shapes, in one order: descriptors, format, shape, tile, panel scale
(R132, R134, R138, R139, R151, R195, R197, R200 to R210; the order is DEDUCED). `prevRows` is the row count of the
preceding PASS's input. -/
def checkDescs (c : Nat) (w prev : TvWord) (prevRows : Nat) (d : Nat → Desc) : Nat :=
  let o := opcodeOf w
  if o = opBankWrite then
    let x := d (wImg w)
    firstFail [(needRecord (wImg w) x && x.rowStride % 64 = 0 && 131584 ≤ x.rowStride, stDescInvalid),
      ((maskSlots (maskOf w)).length ≤ x.rows, stDescRange)]
  else if o = opPass then
    let x := d (pIn w)
    firstFail [(needTensor (pIn w) x, stDescInvalid), (x.fp != 9, stFormatHeader),
      (x.cols = 64 * pExtent w && x.rows ≤ 65536, stDescRange), (tileOk (pTileBase w) (pTileRows w), stTileRange)]
  else if o = opSpill || o = opResume then firstFail [(tileOk (pTileBase w) (pTileRows w), stTileRange)]
  else if o = opDrain then
    let out := d (dOut w)
    let bias := d (dBias w)
    let ew := d (dEw w)
    let tab := d (dRescale w)
    let e := (maskSlots (maskOf w)).length
    let hasB := dBias w != 0
    let hasE := dEw w != 0
    let hasT := dRescale w != 0
    firstFail [
      (dOut w != 0 && out.drainOk (dReduce w) && (!hasB || bias.tensorOk) && (!hasE || ew.drainOk (dReduce w)) &&
        (!hasT || tab.recordOk) && (hasE = (dEwOp w != 0)) && (hasT = (out.fp = 9)), stDescInvalid),
      ((!hasB || bias.fp != 9) && (!hasE || ew.fp != 9), stFormatHeader),
      (out.cols = (if dReduce w then 256 else 256 * e) && out.rows ≤ 65536 && (!hasB || (bias.rows = 1 && bias.cols = 256)) &&
        (!hasE || (ew.rows = out.rows && ew.cols = out.cols)) && (!hasT || 256 ≤ tab.rows), stDescRange),
      (piecesIn (out.drainPieces (dReduce w) e) (drainPlace c) && (!hasB || piecesIn bias.pieces (drainPlace c)) &&
        (!hasE || piecesIn (ew.drainPieces (dReduce w) e) (drainPlace c)) &&
        (!hasT || rangeSpan tab.base 2048 = .store c), stDescRange),
      (tileOk (pTileBase w) (pTileRows w), stTileRange),
      (if dStream w then streamsOf prev prevRows (maskOf w) (pTileBase w) (pTileRows w) out.rows
       else out.rows = pTileRows w, stTileOverrun),
      (out.scaleOk, stFormatScale)]
  else if o = opSkim then
    let out := d (kOut w)
    let x := d (kIn w)
    firstFail [
      (needRecord (kOut w) out &&
        (if kSrc w = 1 then needTensor (kIn w) x else if kSrc w = 2 then needRecord (kIn w) x else true), stDescInvalid),
      (kSrc w != 1 || x.fp != 9, stFormatHeader),
      (skimLists w d ≤ out.rows, stDescRange),
      (kSrc w != 0 || tileOk (kBase w) (kRows w), stTileRange),
      (kSrc w != 0 || !kStream w || streamsOf prev prevRows (kMask w) (kBase w) (kRows w) out.rows, stTileOverrun)]
  else if o = opTens then
    let a := d (tA w)
    let b := d (tB w)
    let x := d (tC w)
    let blocks := isBlock a.fp || isBlock b.fp || isBlock x.fp
    firstFail [
      (needTensor (tA w) a && needTensor (tB w) b && needTensor (tC w) x && !(1 < tBatch w && blocks) &&
        !(tAcc w && x.fp != 0), stDescInvalid),
      (a.fp != 0 && a.fp != 9 && b.fp != 0 && b.fp != 9 && x.fp != 9, stFormatHeader),
      ((if tTrans w then b.cols = a.cols && b.rows = x.cols else b.rows = a.cols && b.cols = x.cols) && a.rows = x.rows,
        stDescRange),
      (x.scaleOk, stFormatScale)]
  else if o = opVec then
    let v := vOp w
    let dst := d (vDst w)
    let a := d (vA w)
    let b := d (vB w)
    let x := d (vC w)
    if v = 0x18 then
      firstFail [(needRecord (vA w) a && needRecord (vDst w) dst, stDescInvalid), (a.rows ≤ dst.rows, stDescRange)]
    else
      let lim := v = 0x10 && vC w != 0
      firstFail [
        (needTensor (vA w) a && needTensor (vDst w) dst && (!vopUsesB v || needTensor (vB w) b) &&
          (!vopUsesC v || needTensor (vC w) x) && (!lim || x.recordOk), stDescInvalid),
        (a.fp != 9 && dst.fp != 9 && (!vopUsesB v || b.fp != 9) && (!vopUsesC v || x.fp != 9), stFormatHeader),
        (dst.rows = a.rows && dst.cols = (if v = 0x13 || v = 0x14 then 1 else a.cols) && (!vopUsesB v || fitsRow a b) &&
          (!vopUsesC v || fitsRow a x) && (!lim || a.rows ≤ x.rows), stDescRange),
        (dst.scaleOk, stFormatScale)]
  else if o = opMove then
    let a := d (mSrc w)
    let b := d (mDst w)
    firstFail [(needTensor (mSrc w) a && needTensor (mDst w) b, stDescInvalid), (a.fmt = b.fmt && a.fp != 9, stFormatHeader),
      (a.rows = b.rows && a.cols = b.cols, stDescRange)]
  else if o = opKvAppend || o = opKvGather then
    firstFail [(needRecord (kvList w) (d (kvList w)) && needTensor (kvK w) (d (kvK w)) && needTensor (kvV w) (d (kvV w)),
        stDescInvalid),
      ((d (kvK w)).fp != 9 && (d (kvV w)).fp != 9, stFormatHeader)]
  else stOk

-- footprints (R220)

/-- The operand bytes that an instruction reads and writes by its descriptors. -/
def operandPieces (w : TvWord) (d : Nat → Desc) : List Piece × List Piece :=
  let o := opcodeOf w
  if o = opBankWrite then
    ([((d (wImg w)).base, 131584, (maskSlots (maskOf w)).length, (d (wImg w)).rowStride)], [])
  else if o = opPass then ((d (pIn w)).pieces, [])
  else if o = opDrain then
    let e := (maskSlots (maskOf w)).length
    ((if dBias w = 0 then [] else (d (dBias w)).pieces) ++
     (if dEw w = 0 then [] else (d (dEw w)).drainPieces (dReduce w) e) ++
     (if dRescale w = 0 then [] else [((d (dRescale w)).base, 2048, 1, 0)]), (d (dOut w)).drainPieces (dReduce w) e)
  else if o = opSkim then
    let n := skimLists w d
    let x := d (kIn w)
    ((if kSrc w = 0 then [] else if kSrc w = 1 then x.pieces else [(x.base, 8 * kCount w * kKin w, x.rows, x.rowStride)]),
     [((d (kOut w)).base, 8 * kK w * n, 1, 0)])
  else if o = opTens then
    let n := tBatch w
    let x := (d (tC w)).batchPieces n
    ((d (tA w)).batchPieces n ++ (d (tB w)).batchPieces n ++ (if tAcc w then x else []), x)
  else if o = opVec then
    let v := vOp w
    let a := d (vA w)
    if v = 0x18 then ([(a.base, 8 * a.cols, a.rows, a.rowStride)], [((d (vDst w)).base, 4, a.rows, (d (vDst w)).rowStride)])
    else
      (a.pieces ++ (if vopUsesB v then (d (vB w)).pieces else []) ++
       (if vopUsesC v then (d (vC w)).pieces
        else if v = 0x10 && vC w != 0 then [((d (vC w)).base, 4, a.rows, (d (vC w)).rowStride)] else []), (d (vDst w)).pieces)
  else if o = opMove then
    let k := mKind w
    ((if k = 2 || k = 4 || k = 6 then [] else (d (mSrc w)).pieces),
     (if k = 1 || k = 3 || k = 5 then [] else (d (mDst w)).pieces))
  else if o = opKvAppend || o = opKvGather then
    let l := d (kvList w)
    let x := (d (kvK w)).pieces ++ (d (kvV w)).pieces
    (([(l.base, 16, l.rows, l.rowStride)] : List Piece) ++ (if o = opKvAppend then x else []), if o = opKvGather then x else [])
  else ([], [])

/-- What stands in the way of a later instruction: the bytes that an earlier one still reads and still writes. -/
structure Footprint where
  reads : List Piece := []
  writes : List Piece := []

/-- The row count of the PASS decoded just before an instruction (R139). -/
def State.prevRows (s : State) (c : Nat) (n : Nat) (prev : TvWord) : Nat :=
  match (s.core c).op (n - 1) with
  | some o => if o.descs.isEmpty then (s.desc c (pIn prev)).rows else (o.desc (pIn prev)).rows
  | none => (s.desc c (pIn prev)).rows

/-- The check and the footprint of an instruction by the descriptors now in store (R195, R220). -/
def State.footprint (s : State) (c n : Nat) (o : Op) : Nat × Footprint :=
  let entries := s.entryPieces c o.word
  let st := checkDescs c o.word o.prev (s.prevRows c n o.prev) (s.desc c)
  if st != stOk then (st, { reads := entries })
  else
    let x := operandPieces o.word (s.desc c)
    (st, { reads := entries ++ x.1, writes := x.2 })

/-- A PASS has finished reading once its last vector is aligned for its engines and its stand-in slots have read theirs; any
other instruction has when it has completed (R220). -/
def Op.reading (o : Op) : Bool := !(o.readDone && !(o.left.any (fun q => 34 ≤ q && q < 66)) && opcodeOf o.word = opPass)

/-- Footprints of the operations before number `n`, in program order; `none` when the descriptors of one may still be
written by an earlier one, so that its footprint is not known (R195). -/
def State.earlier (s : State) (c n : Nat) : List (Nat × Op) → Option (List Footprint)
  | [] => some []
  | x :: t =>
    -- the list is in falling order: what stands before `x` comes first
    if n ≤ x.1 then s.earlier c n t
    else
      match s.earlier c n t with
      | none => none
      | some fs =>
        let entries := s.entryPieces c x.2.word
        let keep (r : List Piece) : List Piece := if x.2.reading then r else []
        match x.2.stage with
        | .decoded =>
          if fs.any (fun f => piecesMeet f.writes entries) then none
          else let y := (s.footprint c x.1 x.2).2
            some (fs ++ [{ reads := keep y.reads, writes := y.writes }])
        | _ => some (fs ++ [{ reads := keep x.2.reads, writes := x.2.writes }])

end Sys2Proof.Machine
end

