-- ==== Sys2Proof/Machine/Switch.lean ====
section
/-! DEFINITION. What a core holds of a job, saved and restored (R144, R164 to R166, R236, R475). -/

namespace Sys2Proof.Machine

-- the state of a logical core (R164)

/-- The job whose step runs on a core is at a point where it can be saved: no window, drain, skim or transfer is under way,
and every running pass stands at a vector boundary (R164). -/
def Engine.atBoundary (g : Engine) : Bool :=
  g.vec.isNone && g.prev.isNone && g.todo.isEmpty && g.integrating.isNone && g.converting.isNone && g.results.isEmpty &&
  g.spills.isEmpty
def Core.opsQuiet (k : Core) : Bool :=
  k.ops.all (fun o => match o.2.stage with
    | .running => opcodeOf o.2.word = opPass || opcodeOf o.2.word = opBankWrite
    | .complete _ => false
    | _ => true)
def State.coreQuiet (s : State) (c : Nat) : Bool :=
  let k := s.core c
  k.drain.isNone && k.skim.isNone && k.opsQuiet && (List.range 34).all (fun e => (s.eng c e).atBoundary)

/-- What a slot holds. -/
def State.saveSlot (s : State) (c slot : Nat) : SavedSlot :=
  let k := s.core c
  if slot ∈ k.standIns then
    { vat := tget k.standVats slot, ctr := tget k.standCtrs slot, next := tget k.standNext slot }
  else
    match k.slotEngine slot with
    | none => {}
    | some e =>
      let g := s.eng c e
      -- a pass keeps the name of its bank, not the plane behind it
      { vat := g.vat, ctr := g.srCtr, inbuf := g.inbuf, waitEmpty := g.waitEmpty
        passes := g.passes.map (fun p => { p with plane := g.bankOf p.plane }) }

/-- A slot takes up what was saved of it, wherever it is mapped now. -/
def State.loadSlot (s : State) (c slot : Nat) (x : SavedSlot) : State :=
  let k := s.core c
  if slot ∈ k.standIns then
    s.modCore c (fun k => { k with standVats := tset k.standVats slot x.vat, standCtrs := tset k.standCtrs slot x.ctr
                                   standNext := tset k.standNext slot x.next })
  else
    match k.slotEngine slot with
    | none => s
    | some e => s.modEng c e (fun g => { g with
        vat := x.vat, srCtr := x.ctr, inbuf := x.inbuf, waitEmpty := x.waitEmpty
        passes := x.passes.map (fun p => { p with plane := g.planeOf p.plane }) })

/-- The vats of a core are cleared with their metadata, and nothing of a job is left on it (R164). -/
def State.clearCore (s : State) (c : Nat) : State :=
  let s := forRange 34 s (fun s e => s.modEng c e (fun g => { g.clearIssue with
    vat := [], srCtr := 0, results := [], spills := [], waitEmpty := none }))
  s.modCore c (fun k => { k with
    standVats := [], standCtrs := [], standNext := [], step := none, ops := [], queues := [], drain := none, skim := none,
    signals := [], drainCtr := 0, vecCtr := 0, loaded := none })

/-- The queue of each slot. -/
def Core.slotQueues (k : Core) : List (Nat × Nat) := (List.range 32).filterMap (fun i => (k.slotQueue i).map (fun q => (i, q)))

/-- The state of the logical core that a core holds goes into its job's save, and the core is cleared (R164). -/
def State.saveCore (s : State) (c : Nat) (banks : List SavedBank) : State :=
  let k := s.core c
  match k.loaded with
  | none => s
  | some (j, l) =>
    let x : SavedCore := {
      logical := l, slots := (List.range 32).map (fun i => (i, s.saveSlot c i)), drainCtr := k.drainCtr, vecCtr := k.vecCtr
      signals := k.signals, step := k.step, ops := k.ops, queues := k.queues, slotQueues := k.slotQueues, banks := banks }
    (s.modJob j (fun y => { y with saved := y.saved.filter (fun z => z.logical != l) ++ [x] })).clearCore c

/-- The queue that takes the place of one that was saved, where its slot is mapped now. -/
def movedQueue (was now : List (Nat × Nat)) (q : Nat) : Nat :=
  match was.find? (fun x => x.2 = q) with
  | some (slot, _) => (tfind now slot).getD q
  | none => q

/-- A core takes up a logical core of a job: what was saved of it, or zeros the first time (R144, R165, R212). -/
def State.loadCore (s : State) (c j l : Nat) : State :=
  let s := s.modCore c (fun k => { k with loaded := some (j, l) })
  match (s.job j).saved.find? (fun x => x.logical = l) with
  | none => s
  | some x =>
    let s := s.modJob j (fun y => { y with saved := y.saved.filter (fun z => z.logical != l) })
    let now := (s.core c).slotQueues
    let move := movedQueue x.slotQueues now
    let s := s.modCore c (fun k => { k with
      drainCtr := x.drainCtr, vecCtr := x.vecCtr, signals := x.signals, step := x.step
      nextOp := max k.nextOp ((x.ops.foldl (fun m o => max m o.1) 0) + 1)
      ops := x.ops.map (fun o => (o.1, { o.2 with left := o.2.left.map move }))
      queues := (x.queues.map (fun q => (move q.1, q.2))).foldl (fun t q => tset t q.1 q.2) [] })
    let s := x.slots.foldl (fun s y => s.loadSlot c y.1 y.2) s
    if ((s.job j).step.any (fun r => r.stopped != 0)) then s.modCore c Core.cancelUnstarted else s

-- banks across a switch (R166)

/-- The write of a bank that has not reached VERIFIED is abandoned, and the bank is due for rewriting from its image. -/
def State.abandonFor (s : State) (c e slot : Nat) (w : WriteRun) : State × SavedBank :=
  let bank := (s.eng c e).bankOf w.plane
  let s := if w.phase = .waiting then s else s.modEng c e (fun g => g.modPlane w.plane Plane.emptied)
  (s, { slot := slot, bank := bank, due := true, op := w.op
        record := { w.record with check := imageCheck s.mem w.record.image } })

/-- The records of a slot's banks that a job has written, and the writes of it that are abandoned. -/
def State.saveBanks (s : State) (c j slot : Nat) : State × List SavedBank :=
  let k := s.core c
  if slot ∈ k.standIns then
    (s, [0, 1].filterMap (fun b => (tfind k.standRecords (2 * slot + b)).bind (fun r =>
      if r.job = j then some { slot := slot, bank := b, record := r } else none)))
  else
    match k.slotEngine slot with
    | none => (s, [])
    | some e =>
      let g := s.eng c e
      let runs := (g.writing.toList ++ g.writeWait.toList).filter (fun w => w.spare.isNone && w.record.job = j)
      let x := runs.foldl (fun (acc : State × List SavedBank) w =>
        let y := acc.1.abandonFor c e slot w
        (y.1, acc.2 ++ [y.2])) (s, [])
      let s := x.1.modEng c e (fun g => { g with
        writing := g.writing.filter (fun w => !(w.spare.isNone && w.record.job = j))
        writeWait := g.writeWait.filter (fun w => !(w.spare.isNone && w.record.job = j)) })
      let s := s.modEng c e (fun g => if g.writing.isNone then { g with writing := g.writeWait, writeWait := none } else g)
      let kept := [0, 1].filterMap (fun b =>
        if x.2.any (fun y => y.bank = b) then none
        else (((s.eng c e).plane ((s.eng c e).planeOf b)).record).bind (fun r =>
          if r.job = j then some ({ slot := slot, bank := b, record := r } : SavedBank) else none))
      (s, x.2 ++ kept)

/-- The same for every slot of a core. -/
def State.saveAllBanks (s : State) (c j : Nat) : State × List SavedBank :=
  (List.range 32).foldl (fun (acc : State × List SavedBank) i =>
    let y := acc.1.saveBanks c j i
    (y.1, acc.2 ++ y.2)) (s, [])

/-- A saved record is compared with the bank as it stands, and the bank is rewritten where it differs, is EMPTY or is due. -/
def State.restoreBank (s : State) (c : Nat) (x : SavedBank) : State :=
  let k := s.core c
  if x.slot ∈ k.standIns then
    let key := 2 * x.slot + x.bank
    if !x.due && tfind k.standRecords key = some x.record then s
    else
      let rest := k.standRecords.filter (fun y => y.1 != key)
      let same := imageCheck s.mem x.record.image = x.record.check
      let s := s.modCore c (fun k => { k with standRecords := if same then rest ++ [(key, x.record)] else rest })
      let s := if same then s else s.raise 0x0206 (coreRef c) x.bank
      match x.op with
      | some n => s.part c n (34 + x.slot) (if same then stOk else stBankImage)
      | none => s
  else
    match k.slotEngine x.slot with
    | none => s
    | some e =>
      let g := s.eng c e
      let p := g.plane (g.planeOf x.bank)
      if !x.due && p.st != .empty && p.record = some x.record then s
      else
        let w : WriteRun := { op := x.op, restore := true, plane := g.planeOf x.bank, record := x.record }
        s.modEng c e (fun g =>
          if g.writing.isNone then { g with writing := some w }
          else if g.writeWait.isNone then { g with writeWait := some w }
          else { g with remapWait := g.remapWait ++ [w] })

-- slots given back at a switch (R473, R474)

/-- An engine is READY or SERVING and holds no slot. -/
def State.spareEngine (s : State) (c e : Nat) : Bool :=
  (s.unit (engineRef c e)).works && ((s.core c).slotOf e).isNone

/-- A slot is mapped to an engine, whose banks start EMPTY. -/
def State.mapSlot (s : State) (c slot e : Nat) : State :=
  let s := s.modCore c (fun k => { k with
    slotMap := (k.slotMap.filter (fun x => x.1 != slot)) ++ (if slot = e then [] else [(slot, e)])
    standIns := k.standIns.filter (fun i => i != slot)
    standRecords := k.standRecords.filter (fun r => r.1 / 2 != slot) })
  s.modEng c e (fun g => { g with plane0 := g.plane0.emptied, plane1 := g.plane1.emptied, failNext := false })

/-- A PASS stands in the middle on a stand-in slot in some job's save: the slot stays a stand-in until it is over. -/
def State.standBusy (s : State) (c slot : Nat) : Bool :=
  s.jobs.any (fun j => j.2.saved.any (fun z => (j.2.cores.getD z.logical {}).bound = some c && ((tfind z.slots slot).getD {}).next != 0))

/-- At a job switch, stand-in slots take READY engines, and slots return to the engines that are theirs. -/
def State.giveBackSlots (s : State) (c : Nat) : State :=
  let s := (s.core c).standIns.foldl (fun s slot =>
    match (if s.standBusy c slot then none else (List.range 34).find? (fun e => s.spareEngine c e)) with
    | some e => s.mapSlot c slot e
    | none => s) s
  forRange 32 s (fun s slot => if (s.core c).slotEngine slot != some slot && slot ∉ (s.core c).standIns && s.spareEngine c slot
    then s.mapSlot c slot slot else s)

-- the save area (R236)

/-- Bytes move from one range to another; only what is listed is touched. -/
def Mem.move (m : Mem) (src dst n : Nat) : Mem :=
  (m.clear dst n).putCells ((m.cells src n).map (fun c => (c.1 - src + dst, c.2)))

/-- The logical cores of a job in order, and where the REGION of each lies in the save area: 130 MiB for each core, then the
regions. -/
def Job.logicals (x : Job) : List Nat := (List.range 16).filter (fun i => (x.cores.getD i {}).bound.isSome)
def Job.regionAt (x : Job) (l : Nat) : Nat :=
  x.saveBase + 0x8200000 * x.logicals.length +
  ((x.logicals.filter (fun i => i < l)).map (fun i => (x.cores.getD i {}).regionBytes)).sum

/-- A logical core's REGION on the core it is bound to: device address and bytes. -/
def Job.region (x : Job) (l : Nat) : Option (Nat × Nat × Nat) :=
  let e := x.cores.getD l {}
  e.bound.map (fun c => (c, storeBase c + e.regionBase, e.regionBytes))

/-- The regions of an outgoing job that an incoming one overlaps are copied into the save area (R236). -/
def State.saveRegions (s : State) (out inc : Nat) : State :=
  let x := s.job out
  let y := s.job inc
  x.logicals.foldl (fun s l =>
    match x.region l with
    | none => s
    | some (_, a, n) =>
      let hit := y.logicals.any (fun k => (y.region k).any (fun r => 0 < overlap a n r.2.1 r.2.2))
      let done := (s.job out).saved.any (fun z => z.logical = l && z.region)
      if !hit || done then s
      else
        ({ s with mem := s.mem.move a (x.regionAt l) n } : State).modJob out (fun j => { j with
          saved := j.saved.map (fun z => if z.logical = l then { z with region := true } else z) })) s

/-- A logical core's REGION comes back from the save area before its vats. -/
def State.restoreRegion (s : State) (j l : Nat) : State :=
  let x := s.job j
  match x.region l, x.saved.find? (fun z => z.logical = l) with
  | some (_, a, n), some z =>
    if z.region then
      ({ s with mem := s.mem.move (x.regionAt l) a n } : State).modJob j (fun y => { y with
        saved := y.saved.map (fun w => if w.logical = l then { w with region := false } else w) })
    else s
  | _, _ => s

-- doubled cores (R475)

/-- A core turns from one logical core of a job to another: vats are saved and restored between them, and the region where
both lie in the same bytes. -/
def State.turnCore (s : State) (c j l : Nat) : State :=
  match (s.core c).loaded with
  | none => (s.restoreRegion j l).loadCore c j l
  | some (_, l') =>
    if l' = l then s
    else
      let s := s.saveCore c []
      let x := s.job j
      let s := match x.region l', x.region l with
        | some (_, a, n), some (_, b, k) =>
          if 0 < overlap a n b k then
            ({ s with mem := s.mem.move a (x.regionAt l') n } : State).modJob j (fun y => { y with
              saved := y.saved.map (fun (z : SavedCore) => if z.logical = l' then { z with region := true } else z) })
          else s
        | _, _ => s
      (s.restoreRegion j l).loadCore c j l

/-- The part of a step that a logical core runs begins at the step's ENTRY (R190, R289). -/
def State.beginCore (s : State) (c j : Nat) (r : RunStep) (sigma : Nat × Nat) : List Nat → State
  | [] => s
  | l :: rest =>
    let s := s.turnCore c j l
    let pc := storeBase c + ((s.job j).cores.getD l {}).codeDst + 16 * r.entry
    s.modCore c (fun k => { k with
      step := some { job := j, logical := l, pc := pc, launch := r.launch, rest := rest, sigmaMax := sigma } })

/-- A doubled core whose program has ended goes on with its next logical core. -/
def State.nextLogical (s : State) (c : Nat) : State :=
  match (s.core c).step with
  | none => s
  | some x =>
    match x.rest, (s.job x.job).step with
    | [], _ => s
    | _, none => s
    | rest, some r =>
      if x.ended && (s.core c).ops.isEmpty && r.stopped = 0 then
        (s.modCore c (fun k => { k with step := none })).beginCore c x.job r x.sigmaMax rest
      else s

-- a whole job (R164 to R166)

/-- The cores that hold a job's state. -/
def State.holders (s : State) (j : Nat) : List Nat :=
  (List.range 16).filter (fun c => (s.core c).loaded.any (fun x => x.1 = j))
def State.coresHeld (s : State) : Bool := (List.range 16).any (fun c => (s.core c).loaded.isSome)

/-- Everything a job holds on the cores is saved (R164, R166). -/
def State.saveJob (s : State) (j : Nat) : State :=
  (s.holders j).foldl (fun s c =>
    let x := s.saveAllBanks c j
    x.1.saveCore c x.2) s

/-- The vats of a job that is unloaded while it holds the cores are cleared without a save (R164). -/
def State.discardJob (s : State) (j : Nat) : State :=
  (s.holders j).foldl (fun s c => (s.saveAllBanks c j).1.clearCore c) s

/-- A job is restored: on each core it is bound to, the lowest of its logical cores there (R165, R166, R475). -/
def State.restoreJob (s : State) (j : Nat) : State :=
  let x := s.job j
  let s := (s.jobCores j).foldl (fun s c => s.giveBackSlots c) s
  x.logicals.foldl (fun s l =>
    match (x.cores.getD l {}).bound with
    | none => s
    | some c =>
      let s := s.restoreRegion j l
      if (s.core c).loaded.isSome then s
      else
        -- of two logical cores on one core, the one whose part of a step was under way comes first
        let here := x.logicals.filter (fun i => (x.cores.getD i {}).bound = some c)
        let first := (here.find? (fun i => x.saved.any (fun z => z.logical = i && z.step.isSome))).getD l
        let banks := ((x.saved.find? (fun z => z.logical = first)).map (fun z => z.banks)).getD []
        banks.foldl (fun s b => s.restoreBank c b) (s.loadCore c j first)) s

end Sys2Proof.Machine
end

