-- ==== Sys2Proof/Machine/Sequencer.lean ====
section
/-! DEFINITION. The core sequencer and its control instructions (R170 to R173, R190, R191, R212 to R223, R293). -/

namespace Sys2Proof.Machine

-- decoding (R170, R190, R191, R217)

/-- A word that fails decoding, with its status (R11, R191, R217); OK for one that passes. -/
def decodeStatus (w : TvWord) (inSpan : Bool) : Nat :=
  if opcodeOf w ∉ opcodes then stIllegalOpcode
  else if !wordClean w then stReserved
  else if opcodeOf w = opEnd && inSpan then stIllegalSequence
  else stOk

/-- Where the sequencer stands after a selected span has been executed to its end (R217). -/
def CoreStep.leaveSpan (x : CoreStep) : CoreStep :=
  match x.span with
  | some (last, after) => if x.pc = last then { x with pc := after, span := none } else x
  | none => x

/-- One word enters the operation table; one that fails completes at once (R170). -/
def State.decodeWord (s : State) (c : Nat) (x : CoreStep) : State :=
  let x := x.leaveSpan
  let w : TvWord := BitVec.ofNat 128 (s.mem.num x.pc 16)
  let n := (s.core c).nextOp
  let st := decodeStatus w x.span.isSome
  let o : Op := { word := w, addr := x.pc, prev := x.prev }
  let x' := { x with pc := x.pc + 16, prev := w, decodeDone := st = stOk && opcodeOf w = opEnd }
  let s := s.modCore c (fun k => { k with nextOp := n + 1, ops := k.ops ++ [(n, o)], step := some x' })
  let s := (s.bump (coreIdx c) 8 1).raiseTo (coreIdx c) 7 (s.core c).ops.length
  if st = stOk then s else s.retire c n st

/-- A PATH.SEL that the sequencer has not executed yet. -/
def Core.pathSel (k : Core) : Option (Nat × Op) := k.ops.find? (fun o => opcodeOf o.2.word = opPathSel && o.2.stage = .decoded)

def State.decodeNext (s : State) (c dt : Nat) : State :=
  match (s.core c).step with
  | none => s
  | some x =>
    if !s.unitWorks (coreRef c) || x.decodeDone || s.quiescing c || (s.core c).pathSel.isSome then s
    else if 4096 ≤ (s.core c).ops.length then s.bump (coreIdx c) 9 (dt / 1000)
    else s.decodeWord c x

def execInstructionDecode (dt : Nat) (core : Fin 16) (s : State) : Result :=
  .next ((s.elapse dt).decodeNext core dt)

-- PATH.SEL (R105, R217)

/-- The placement of a layer for the present step; `none` when the layer table does not hold its tag. -/
def State.placement (s : State) (c tag : Nat) : Option Place :=
  ((s.job (s.coreJob c)).layers.find? (fun l => l.tag = tag && !l.extra)).map (fun l => l.place)

def State.pathSelect (s : State) (c : Nat) : State :=
  match (s.core c).pathSel, (s.core c).step with
  | some (n, o), some x =>
    let tag := fld o.word 111 98
    let a := 16 * fld o.word 97 82
    let b := 16 * fld o.word 81 66
    match s.placement c tag with
    | none => s.retire c n stIllegalSequence
    | some p =>
      if x.span.isSome then s.retire c n stIllegalSequence
      else
        let y := if p = .digital then { x with pc := x.pc + a, span := some (x.pc + a + b, x.pc + a + b) }
          else { x with span := some (x.pc + a, x.pc + a + b) }
        (s.modCore c (fun k => { k with step := some y })).retire c n stOk
  | _, _ => s

/-- PATH_SEL: the sequencer executes PATH.SEL at decode, and it completes there. -/
def execPathSel (dt : Nat) (core : Fin 16) (s : State) : Result :=
  let s := s.elapse dt
  .next (if s.unitWorks (coreRef core) then s.pathSelect core else s)

-- dispatch (R171, R195, R219, R220)

/-- The queues that an instruction enters (R171, R196, R474); `none` when its mask names a slot without an engine. -/
def Core.opQueues (k : Core) (w : TvWord) : Option (List Nat) :=
  match opQueue (opcodeOf w) with
  | some q => if (maskSlots (opMask w)).all (fun i => (k.slotQueue i).isSome) then some [q] else none
  | none => (maskSlots (opMask w)).mapM k.slotQueue

/-- Slots of a mask stand for the queues of engine instructions in the order of dispatch (R219; DEDUCED for other units). -/
def Core.sharesQueue (k : Core) (a b : TvWord) : Bool :=
  match opQueue (opcodeOf a), opQueue (opcodeOf b) with
  | some p, some q => p = q
  | none, none =>
    (match k.opQueues a, k.opQueues b with
     | some x, some y => x.any (fun q => q ∈ y)
     | _, _ => false)
  | _, _ => false

/-- An earlier WAIT, FENCE or LAUNCH.AT holds every later instruction (R214 to R216). -/
def Core.held (k : Core) (n : Nat) : Bool :=
  k.ops.any (fun o => o.1 < n && opcodeOf o.2.word ∈ [opWait, opFence, opLaunchAt])

/-- What R139 says of a PASS with more vectors than tile rows: none while the next word is not decoded, else whether the next
instruction streams it. -/
def State.overrunOk (s : State) (c n : Nat) (o : Op) : Option Bool :=
  let k := s.core c
  let rows := (s.desc c (pIn o.word)).rows
  if rows ≤ pTileRows o.word then some true
  else
    match k.op (n + 1) with
    | some y =>
      let out := s.desc c (if opcodeOf y.word = opSkim then kOut y.word else dOut y.word)
      some (streamedBy o.word rows y.word out.rows)
    | none =>
      if n + 1 < k.nextOp || (k.step.all (fun x => x.decodeDone)) then some false else none

/-- An instruction enters its queues. -/
def State.enqueue (s : State) (c n : Nat) (qs : List Nat) (f : Footprint) : State :=
  let d := (descFields ((((s.core c).op n).getD {}).word)).map (fun i => (i, s.desc c i))
  s.modCore c (fun k =>
    let k := qs.foldl (fun (k : Core) q => k.setQueue q (k.queue q ++ [n])) k
    k.modOp n (fun o => { o with
      stage := .queued, descs := d, reads := f.reads, writes := f.writes, left := qs, since := s.ns }))

/-- INSTRUCTION_DISPATCH: an instruction whose dependencies allow it enters its queues; one whose checks fail completes. -/
def State.dispatch (s : State) (c n : Nat) : State :=
  let k := s.core c
  match k.op n with
  | none => s
  | some o =>
    let w := o.word
    let overtakes := k.ops.any (fun x => x.1 < n && x.2.stage = .decoded && k.sharesQueue x.2.word w)
    if o.stage != .decoded || opcodeOf w = opPathSel || !s.unitWorks (coreRef c) || s.quiescing c || k.held n || overtakes then s
    else
      match k.opQueues w with
      | none => s.finish c n stEngineFault
      | some qs =>
        match s.earlier c n k.ops.reverse with
        | none => s
        | some before =>
          let entries := s.entryPieces c w
          if before.any (fun f => piecesMeet f.writes entries) then s
          else
            let f := s.footprint c n o
            let clash := before.any (fun e =>
              piecesMeet e.writes (f.2.reads ++ f.2.writes) || piecesMeet e.reads f.2.writes)
            let bytes := f.2.reads ++ f.2.writes
            if f.1 != stOk then s.finish c n f.1
            else if !piecesMapped bytes then s.finish c n stDescRange
            else if clash then s
            else if s.piecesRetired bytes then s.finish c n stUnitFault
            else
              match (if opcodeOf w = opPass then s.overrunOk c n o else some true) with
              | none => s
              | some false => s.finish c n stTileOverrun
              | some true => if qs.all (fun q => (k.queue q).length < queueDepth q) then s.enqueue c n qs f.2 else s

def execInstructionDispatch (dt : Nat) (core : Fin 16) (op : Nat) (s : State) : Result :=
  .next ((s.elapse dt).dispatch core op)

/-- INSTRUCTION_COMPLETE: an instruction that stands completed gives its status and frees its entry (R222); with END a doubled
core turns to its next logical core (R475). -/
def execInstructionComplete (dt : Nat) (core : Fin 16) (op : Nat) (s : State) : Result :=
  let s := s.elapse dt
  .next (match (s.core core).op op with
    | some o => (match o.stage with
      | .complete st => (s.retire core op st).nextLogical core
      | _ => s)
    | none => s)

-- the control queue

/-- Every instruction of a core before number `n`, of those that `f` selects, has completed. -/
def Core.allBefore (k : Core) (n : Nat) (f : Nat → Bool) : Bool :=
  !(k.ops.any (fun o => o.1 < n && f (opcodeOf o.2.word)))

/-- NOP at the head of the control queue completes (R191). -/
def execNop (dt : Nat) (core : Fin 16) (s : State) : Result :=
  let s := s.elapse dt
  .next (match s.head core qControl opNop with
    | some (n, _) => s.finish core n stOk
    | none => s)

/-- END completes after every earlier instruction of its core (R218). -/
def execEndStep (dt : Nat) (core : Fin 16) (s : State) : Result :=
  let s := s.elapse dt
  .next (match s.head core qControl opEnd with
    | some (n, _) => if (s.core core).allBefore n (fun _ => true) then s.finish core n stOk else s
    | none => s)

/-- The time of a LAUNCH.AT that reaches the head of the control queue: its base plus its offset stretched (R216, R293). -/
def State.launchTime (s : State) (c : Nat) (w : TvWord) : Nat :=
  let x := ((s.core c).step).getD {}
  let base := if fld w 47 47 = 0 then x.launch else x.lastAt.getD x.launch
  let r := s.stretch c
  base + ceilDiv (fld w 111 64 * r.1) r.2

/-- A LAUNCH.AT completes now (R216). -/
def State.launchDone (s : State) (c n status : Nat) : State :=
  let now := s.ns
  (s.modCore c (fun k => { k with step := k.step.map (fun x => { x with lastAt := some now }) })).finish c n status

/-- LAUNCH_AT: LAUNCH.AT reaches the head of the control queue: its time is formed, and if it has passed it completes at once,
LATE beyond its limit (R216, R284). -/
def State.launchAtHead (s : State) (c : Nat) : State :=
  match s.head c qControl opLaunchAt with
  | none => s
  | some (n, o) =>
    if o.holding then s
    else
      let t := s.launchTime c o.word
      let limit := 1000 * fld o.word 63 48
      if s.ns ≤ t then
        (s.modCore c (fun k => k.modOp n (fun o => { o with holding := true, until_ := t })))
      else
        let late := s.ns - t
        let s := s.bump 0x2107 4 1
        s.launchDone c n (if limit != 0 && limit < late then stLate else stOk)

def execLaunchAt (dt : Nat) (core : Fin 16) (s : State) : Result :=
  .next ((s.elapse dt).launchAtHead core)

/-- LAUNCH_AT_TIME: Kelig time reaches the time of the LAUNCH.AT at the head (R216). -/
def execLaunchAtTime (dt : Nat) (core : Fin 16) (s : State) : Result :=
  let s := s.elapse dt
  .next (match s.head core qControl opLaunchAt with
    | some (n, o) => if o.holding && o.until_ ≤ s.ns then s.launchDone core n stOk else s
    | none => s)

/-- SIGNAL adds to a counter of a core or of all, after every earlier instruction of its core (R213). The cores are the
physical ones (DEDUCED). -/
def State.signalHead (s : State) (c : Nat) : State :=
  match s.head c qControl opSignal with
  | none => s
  | some (n, o) =>
    let w := o.word
    if !(s.core c).allBefore n (fun _ => true) then s
    else
      let add (s : State) (k : Nat) : State := s.modCore k (fun x =>
        { x with signals := tmod x.signals (fld w 106 103) (fun v => (v + fld w 102 71) % 2 ^ 32) })
      (if fld w 107 107 = 1 then forRange 16 s add else add s (fld w 111 108)).finish c n stOk

def execSignal (dt : Nat) (core : Fin 16) (s : State) : Result :=
  .next ((s.elapse dt).signalHead core)

/-- A counter has reached a value (R212). -/
def reached (ctr v : Nat) : Bool := (ctr + 2 ^ 32 - v) % 2 ^ 32 < 2 ^ 31

/-- WAIT at the head of the control queue completes once its counter has reached the value; its timeout runs from there
(R214). -/
def State.waitHead (s : State) (c : Nat) : State :=
  match s.head c qControl opWait with
  | none => s
  | some (n, o) =>
    let w := o.word
    if reached (tget (s.core c).signals (fld w 106 103)) (fld w 102 71) then s.finish c n stOk
    else if !o.holding then
      let limit := s.ns + 1000 * fld w 69 54
      s.modCore c (fun k => k.modOp n (fun o => { o with holding := true, until_ := limit }))
    else s

def execWait (dt : Nat) (core : Fin 16) (s : State) : Result :=
  .next ((s.elapse dt).waitHead core)

/-- WAIT_TIMEOUT: the time of the WAIT at the head runs out (R214). -/
def execWaitTimeout (dt : Nat) (core : Fin 16) (s : State) : Result :=
  let s := s.elapse dt
  .next (match s.head core qControl opWait with
    | some (n, o) =>
      if o.holding && fld o.word 69 54 != 0 && o.until_ < s.ns &&
          !reached (tget (s.core core).signals (fld o.word 106 103)) (fld o.word 102 71) then s.finish core n stWaitTimeout
      else s
    | none => s)

/-- An opcode within a FENCE's scope (R215). -/
def inScope (scope o : Nat) : Bool :=
  scope = 0 || (bitOf scope 0 && isEngineOp o) || (bitOf scope 1 && o = opDrain) || (bitOf scope 2 && o = opSkim) ||
  (bitOf scope 3 && o = opTens) || (bitOf scope 4 && o = opVec) ||
  (bitOf scope 5 && (o = opMove || o = opKvAppend || o = opKvGather)) || (bitOf scope 6 && opQueue o = some qControl)

/-- FENCE at the head of the control queue completes once every earlier instruction in its scope has (R215). -/
def execFence (dt : Nat) (core : Fin 16) (s : State) : Result :=
  let s := s.elapse dt
  .next (match s.head core qControl opFence with
    | some (n, o) => if (s.core core).allBefore n (inScope (fld o.word 111 104)) then s.finish core n stOk else s
    | none => s)

end Sys2Proof.Machine
end

