-- ==== Sys2Proof/Machine/Drain.lean ====
section
/-! DEFINITION. The drain unit and the near-array blocks that stand in for it (R133, R151 to R157, R184). -/

namespace Sys2Proof.Machine

/-- Queues of a mask in rank order, and whether each is in service (R157, R196, R474). -/
def State.maskQueues (s : State) (c mask : Nat) : List Nat := (maskSlots mask).filterMap (s.core c).slotQueue
def State.queueOut (s : State) (c q : Nat) : Bool := q < 34 && s.engineOut c q
def State.maskOut (s : State) (c mask : Nat) : Bool :=
  (maskSlots mask).any (fun i => match (s.core c).slotQueue i with
    | some q => s.queueOut c q
    | none => true)

/-- Set or clear LOCKED of rows of some queues for operation `n` (R154). -/
def State.lockRows (s : State) (c : Nat) (qs : List Nat) (rows : List Nat) (n : Nat) : State :=
  qs.foldl (fun s q => rows.foldl (fun s r => s.modRow c q r (fun x => { x with locked := some n })) s) s
def State.unlockRows (s : State) (c : Nat) (qs : List Nat) (rows : List Nat) (n : Nat) : State :=
  qs.foldl (fun s q => rows.foldl (fun s r =>
    s.modRow c q r (fun x => if x.locked = some n then { x with locked := none } else x)) s) s
def State.unlockAll (s : State) (c : Nat) (qs : List Nat) (n : Nat) : State :=
  qs.foldl (fun s q => s.setVat c q ((s.vatOf c q).foldl (fun t x =>
    tset t x.1 (if x.2.locked = some n then { x.2 with locked := none } else x.2)) [])) s

/-- An earlier DRAIN or SKIM holds one of the rows (R154). -/
def State.lockedBefore (s : State) (c : Nat) (qs : List Nat) (base rows n : Nat) : Bool :=
  qs.any (fun q => (s.vatOf c q).any (fun x => base ≤ x.1 && x.1 < base + rows && x.2.locked.any (fun d => d < n)))

-- when a row may be read (R154)

/-- Vectors of a pass from number `v` on reach a row within a range. -/
def passReaches (p : TvWord) (v total base rows : Nat) : Bool :=
  (List.range (total - v)).any (fun i => let r := passRow p (v + i)
    base ≤ r && r < base + rows)

/-- An earlier instruction of a core still has a window, a spill or a RESUME to make on some rows of a queue. -/
def State.rowsBusy (s : State) (c q n base rows : Nat) : Bool :=
  let slot := (s.core c).queueSlot q
  let meets (w : TvWord) : Bool := pTileBase w < base + rows && base < pTileBase w + pTileRows w
  (s.core c).ops.any (fun x =>
    let o := opcodeOf x.2.word
    x.1 < n && (o = opPass || o = opSpill || o = opResume) && meets x.2.word &&
    (match x.2.stage with
     | .decoded => bitOf (maskOf x.2.word) slot
     | .complete _ => false
     | _ => q ∈ x.2.left &&
        (match (if q < 34 then (s.eng c q).passes.find? (fun r => r.op = x.1) else none) with
         | some r => passReaches x.2.word r.updated r.total base rows
         | none => true)))

/-- A spill of some rows of a queue has not reached churn. -/
def State.spillsFly (s : State) (c q base rows : Nat) : Bool :=
  q < 34 && (s.eng c q).spills.any (fun x => base ≤ x.row && x.row < base + rows)

/-- Vector `v` of the streamed PASS, operation `p`, and its spills have landed on a queue. -/
def State.vectorLanded (s : State) (c q p v row : Nat) : Bool :=
  (match (s.core c).op p with
   | none => true
   | some o => !(q ∈ o.left) || (match o.stage with
      | .decoded => false
      | _ => if q < 34 then (s.eng c q).passes.any (fun r => r.op = p && v < r.updated)
             else o.stage = .running && v < tget (s.core c).standNext (q - 34))) &&
  !s.spillsFly c q row 1

/-- Output row or list `v` of operation `n` over a tile may be read now (R154, R162). -/
def State.mayReadRow (s : State) (c : Nat) (qs : List Nat) (n base rows v : Nat) (stream : Bool) : Bool :=
  if stream then qs.all (fun q => s.vectorLanded c q (n - 1) v (base + v % rows))
  else qs.all (fun q => !s.rowsBusy c q n base rows && !s.spillsFly c q base rows)

-- acceptance (R132, R154, R184)

/-- A rescale table as its 256 entries: MULT, SHIFT and EXP, and whether every reserved field is 0 (R132). -/
def rescaleEntry (m : Mem) (a j : Nat) : Nat × Nat × Int :=
  (m.num (a + 8 * j) 4, m.num (a + 8 * j + 4) 1 % 64, signed 8 (m.num (a + 8 * j + 5) 1))
def rescaleClean (m : Mem) (a : Nat) : Bool :=
  (List.range 256).all (fun j => m.num (a + 8 * j + 4) 1 < 64 && m.num (a + 8 * j + 6) 2 = 0)

/-- The near-array blocks may carry the drain out (R184). -/
def nearSuits (o : Op) : Bool :=
  let w := o.word
  !dReduce w && !dKeep w && (o.desc (dOut w)).fp ≤ 2 && (dBias w = 0 || !isBlock (o.desc (dBias w)).fp) &&
  (dEw w = 0 || !isBlock (o.desc (dEw w)).fp)

/-- The drain unit is out of service in a way in which the near-array blocks serve. -/
def State.nearServes (s : State) (c : Nat) : Bool :=
  let u := s.unit (digitalRef 3 c)
  u = .fenced || u = .repair || u = .retired

/-- DRAIN at the head of the drain queue is accepted: its rows are LOCKED on every engine of its mask. -/
def State.drainHead (s : State) (c : Nat) : State :=
  match s.head c qDrain opDrain, (s.core c).drain with
  | some (n, o), none =>
    let w := o.word
    let f := s.queueFault c qDrain
    let near := s.nearServes c && nearSuits o && !(s.unit (coreRef c)).out
    if f != stOk && !near then s.finish c n f
    else
      let tab := (o.desc (dRescale w)).base
      let x := if dRescale w = 0 then (stOk, s) else s.access (s.coreJob c) tab 2048 rightR
      let s := x.2
      if x.1 != stOk then s.finish c n x.1
      else if dRescale w != 0 && !rescaleClean s.mem tab then s.finish c n stReserved
      else
        let qs := s.maskQueues c (maskOf w)
        if s.lockedBefore c qs (pTileBase w) (pTileRows w) n then s
        else
          let s := s.lockRows c qs (tileRange (pTileBase w) (pTileRows w)) n
          s.modCore c (fun k => { k.modOp n (fun o => { o with stage := .running }) with
            drain := some { op := n, nearArray := f != stOk } })
  | _, _ => s

def execDrain (dt : Nat) (core : Fin 16) (s : State) : Result :=
  .next ((s.elapse dt).drainHead core)

-- one row (R152, R153)

/-- The random bits' key of a core's drain unit (R143). -/
def drainKey (seed c : Nat) : Nat := seed ^^^ ((0x1000 + c) <<< 32)

/-- One level of the tree over the ranks: each node takes one counter value. -/
def srLevel (key lane : Nat) : Nat → List F32 → List (F32 × Bool) → List (F32 × Bool)
  | ctr, a :: b :: t, acc => srLevel key lane (ctr + 1) t (acc ++ [vatAdd false a b (srBits key (ctr % 2 ^ 64) lane)])
  | _, l, acc => acc ++ l.map (fun x => (x, false))
/-- The tree: its value and the saturations. -/
def srTree (key lane : Nat) : Nat → Nat → List F32 → F32 × Nat
  | 0, _, l => (l.headD 0, 0)
  | f + 1, ctr, l =>
    if l.length ≤ 1 then (l.headD 0, 0)
    else
      let r := srLevel key lane ctr l []
      let y := srTree key lane f (ctr + l.length / 2) (r.map Prod.fst)
      (y.1, y.2 + (r.filter (fun x => x.2)).length)

/-- The churn entries of a column in rank order, summed in FP64 from 0 (R152 step 3). -/
def churnSum (m : Mem) (addrs : List Nat) (j : Nat) : Fp :=
  addrs.foldl (fun a x => ieeeValue fp64 64 (toIeee fp64 64 (a.add (ieeeValue fp64 64 (m.num (x + 8 * j) 8))) {}).1) .zero

/-- ACT (R151). -/
def actN (act : Nat) (x : Fp) : Fp := if act = 1 then reluN x else if act = 2 then siluN x else if act = 3 then geluN x else x

/-- Steps 4 to 7 for a column. -/
def drainColumn (w : TvWord) (value : F32) (churn bias ew : Fp) : Calc F32 := do
  let x ← r32 ((ofF32 value).add churn)
  let x ← if dBias w = 0 then pure x else addC x bias
  let x := actN (dAct w) x
  let x ← if dEwOp w = 1 then addC x ew else if dEwOp w = 2 then mulC x ew else pure x
  toF32 x

/-- A row of an operand of the drain: a status, the state after the access, and its values rounded to FP32 (R126, R151). -/
def State.drainOperand (s : State) (c : Nat) (d : Desc) (r : Nat) (t : Tally) : Nat × State × List Fp × Tally :=
  let x := s.accessAll (s.coreJob c) rightR (d.rowReads r)
  if x.1 != stOk then (x.1, x.2, [], t)
  else if !x.2.headersOk d r 1 then (stFormatHeader, x.2, [], t)
  else let y := (x.2.tensorRow32 d r) t
    (stOk, x.2, y.1, y.2)

/-- The outputs of a row before narrowing: one of all engines with REDUCE, else one of each rank (R152 steps 1 to 7). -/
def State.drainOutputs (s : State) (c : Nat) (w : TvWord) (qs : List Nat) (row : Nat) (bias : List Fp) (ews : List (List Fp))
    (t : Tally) : List (List F32) × Tally :=
  let vats := qs.map (fun q => tget (s.vatOf c q) row)
  let addr (i : Nat) : List Nat := if (vats.getD i {}).churnValid then [s.churnAt c (qs.getD i 0) row] else []
  let key := drainKey (s.seedOf c) c
  let ctr := (s.core c).drainCtr
  if dReduce w then
    let all := (List.range qs.length).flatMap addr
    let tree := (List.range 256).map (fun j => srTree key j (qs.length.log2 + 1) ctr (vats.map (fun r => tget r.vals j)))
    let t := { t with sat := t.sat + (tree.map Prod.snd).sum }
    let y := ((List.range 256).mapM (fun j =>
      drainColumn w (tree.getD j (0, 0)).1 (churnSum s.mem all j) (bias.getD j .zero) ((ews.getD 0 []).getD j .zero))) t
    ([y.1], y.2)
  else
    let y := ((List.range qs.length).mapM (fun i => (List.range 256).mapM (fun j =>
      drainColumn w (tget (vats.getD i {}).vals j) (churnSum s.mem (addr i) j) (bias.getD j .zero)
        ((ews.getD i []).getD j .zero)))) t
    (y.1, y.2)

/-- A drain that ends: its locks go, and it stands completed. -/
def State.drainEnd (s : State) (c n status : Nat) (qs : List Nat) (near : Bool) : State :=
  let s := (s.unlockAll c qs n).modCore c (fun k => { k with drain := none })
  let s := if status = stOk then (s.bump (coreIdx c) 0x40 1).bump (coreIdx c) 0x0C (if near then 1 else 0) else s
  s.finish c n status

/-- A drain that reads no further row: what it holds is unlocked; what it has read is still written (R157). -/
def State.drainStops (s : State) (c n status : Nat) (qs : List Nat) (d : DrainRun) : State :=
  let s := if status = stEngineFault then s.bump (coreIdx c) 0x47 1 else s
  if d.ready.isEmpty then s.drainEnd c n status qs d.nearArray
  else (s.unlockAll c qs n).modCore c (fun k => { k.modOp n (fun o => { o with status := status }) with
    drain := some { d with faulted := true } })

/-- A row after it has been read (R153, R154): cleared unless it is kept, and unlocked when the drain is done with it. -/
def drainedRow (clear unlock : Bool) (r : Row) : Row :=
  let held := if unlock then none else r.locked
  if clear then { locked := held } else { r with locked := held }

/-- DRAIN_ROW_READ: the drain reads its next output row when R154 allows. -/
def State.drainRead (s : State) (c dt : Nat) : State :=
  match (s.core c).drain with
  | none => s
  | some d =>
    match (s.core c).op d.op with
    | none => s
    | some o =>
      let w := o.word
      let n := d.op
      let qs := s.maskQueues c (maskOf w)
      let out := o.desc (dOut w)
      let rows := pTileRows w
      let v := d.next
      if d.faulted || out.rows ≤ v then s
      else if s.maskOut c (maskOf w) then s.drainStops c n stEngineFault qs d
      else if !d.nearArray && s.queueFault c qDrain != stOk then s.drainStops c n stUnitFault qs d
      else if !s.mayReadRow c qs n (pTileBase w) rows v (dStream w) then s.bump (coreIdx c) 0x43 (dt / 1000)
      else
        let row := pTileBase w + v % rows
        let b := if dBias w = 0 then (stOk, s, [], ({ free := s.free } : Tally))
          else s.drainOperand c (o.desc (dBias w)) 0 { free := s.free }
        let ewOf (acc : Nat × State × List (List Fp) × Tally) (i : Nat) : Nat × State × List (List Fp) × Tally :=
          if acc.1 != stOk then acc
          else
            let e := o.desc (dEw w)
            let x := acc.2.1.drainOperand c (if dReduce w then e else e.rank i) v acc.2.2.2
            (x.1, x.2.1, acc.2.2.1 ++ [x.2.2.1], x.2.2.2)
        let e := if dEw w = 0 then (b.1, b.2.1, [], b.2.2.2)
          else (List.range (if dReduce w then 1 else qs.length)).foldl ewOf (b.1, b.2.1, [], b.2.2.2)
        let s := e.2.1
        if e.1 != stOk then s.drainStops c n e.1 qs d
        else
          let y := s.drainOutputs c w qs row b.2.2.1 e.2.2.1 e.2.2.2
          let valid := (qs.filter (fun q => (tget (s.vatOf c q) row).churnValid)).length
          let nodes := if dReduce w then qs.length - 1 else 0
          let s := (s.countTally c 0x30 0x31 y.2).bump (coreIdx c) 0x42 valid
          let clear := !dKeep w || dStream w
          let unlock := !dStream w || out.rows ≤ v + rows
          let s := qs.foldl (fun s q => s.modRow c q row (drainedRow clear unlock)) s
          let item := (List.range y.1.length).map (fun i => (i, v, y.1.getD i []))
          s.modCore c (fun k => { k with
            drainCtr := (k.drainCtr + nodes) % 2 ^ 64, drain := some { d with next := v + 1, ready := d.ready ++ item } })

def execDrainRowRead (dt : Nat) (core : Fin 16) (s : State) : Result :=
  .next ((s.elapse dt).drainRead core dt)

-- writing (R133, R155)

/-- The writes of one part of an output row, by the rescale path for FMT 9 (R133, R152 steps 8 and 9). -/
def State.drainWrites (s : State) (w : TvWord) (tab : Nat) (d : Desc) (r : Nat) (vals : List F32) :
    Calc (List (Nat × List Byte)) := do
  if d.fp = 9 then
    let codes ← (List.range 256).mapM (fun j =>
      let e := rescaleEntry s.mem tab j
      rescale e.1 e.2.1 e.2.2 (ofF32 (vals.getD j 0)))
    pure (d.blockWrites r ((chunks 32 256 codes).map (rescaleBlock 8)))
  else d.rowWrites r (vals.map ofF32)

/-- DRAIN_ROW_WRITE: the oldest row read is narrowed and written; the last ends the drain. -/
def State.drainWrite (s : State) (c : Nat) : State :=
  match (s.core c).drain with
  | none => s
  | some d =>
    match (s.core c).op d.op, d.ready with
    | some o, first :: _ =>
      let w := o.word
      let n := d.op
      let qs := s.maskQueues c (maskOf w)
      let out := o.desc (dOut w)
      let r := first.2.1
      let mine := d.ready.filter (fun x => x.2.1 = r)
      let rest := d.ready.filter (fun x => x.2.1 != r)
      let y := (mine.mapM (fun x =>
        s.drainWrites w (o.desc (dRescale w)).base (if dReduce w then out else out.rank x.1) r x.2.2)) { free := s.free }
      let z := (s.countTally c 0x30 0x31 y.2).writeAll (s.coreJob c) (y.1.flatten.flatMap (fun x => splitWrite (x.2.length + 1) x))
      let s := z.2
      if z.1 != stOk then s.drainEnd c n z.1 qs d.nearArray
      else
        let s := s.bump (coreIdx c) 0x41 1
        if rest.isEmpty && d.faulted then s.drainEnd c n o.status qs d.nearArray
        else if rest.isEmpty && out.rows ≤ d.next then s.drainEnd c n stOk qs d.nearArray
        else s.modCore c (fun k => { k with drain := some { d with ready := rest } })
    | _, _ => s

def execDrainRowWrite (dt : Nat) (core : Fin 16) (s : State) : Result :=
  .next ((s.elapse dt).drainWrite core)

end Sys2Proof.Machine
end

