-- ==== Sys2Proof/Machine/Skim.lean ====
section
/-! DEFINITION. The skim unit (R158 to R163, R204). -/

namespace Sys2Proof.Machine

-- candidates (R159, R160)

/-- A candidate: its FP32 code and its position. -/
abbrev Candidate := F32 × BitVec 32

/-- The order of R159: larger values first, NaN last, equal values by lower position. -/
def candBefore (a b : Candidate) : Bool :=
  let x := ofF32 a.1
  let y := ofF32 b.1
  if x.isNan then y.isNan && a.2.toNat < b.2.toNat
  else if y.isNan then true
  else if y.lt x then true
  else if x.lt y then false
  else a.2.toNat < b.2.toNat

def insertCand (c : Candidate) : List Candidate → List Candidate
  | [] => [c]
  | x :: t => if candBefore c x then c :: x :: t else x :: insertCand c t

/-- The first `k` of some candidates in order. -/
def topK (k : Nat) (l : List Candidate) : List Candidate := l.foldl (fun acc c => (insertCand c acc).take k) []

/-- A pad entry (R160). -/
def padEntry : Candidate := (0x7FC00000, 0xFFFFFFFF)
def isPad (c : Candidate) : Bool := c = padEntry

/-- A list of `k` entries as bytes (R160). -/
def listBytes (k : Nat) (l : List Candidate) : List Byte :=
  (padTo k padEntry l).flatMap (fun c => leBytes 4 c.1.toNat ++ leBytes 4 c.2.toNat)

/-- `n` entries of a list at an address. -/
def State.listAt (s : State) (a n : Nat) : List Candidate :=
  (List.range n).map (fun i =>
    (BitVec.ofNat 32 (leNat (s.readAt (a + 8 * i) 4)), BitVec.ofNat 32 (leNat (s.readAt (a + 8 * i + 4) 4))))

/-- A list is written: a status and the state. -/
def State.putList (s : State) (c : Nat) (o : Op) (l : Nat) (cs : List Candidate) : Nat × State :=
  let k := kK o.word
  let a := (o.desc (kOut o.word)).base + 8 * k * l
  s.writeAll (s.coreJob c) (splitWrite (8 * k) (a, listBytes k (topK k cs)))

/-- The skim ends. -/
def State.skimEnd (s : State) (c n status : Nat) : State :=
  let s := s.modCore c (fun k => { k with skim := none })
  (if status = stOk then s.bump (coreIdx c) 0x44 1 else s).finish c n status

-- the vat (R158, R162)

/-- Value of a vat row's column with its churn entry, and the position of it (R158). -/
def State.vatCandidates (s : State) (c : Nat) (w : TvWord) (qs : List Nat) (row : Nat) : List Candidate × Nat :=
  let part (i : Nat) : List Candidate × Nat :=
    let q := qs.getD i 0
    let r := tget (s.vatOf c q) row
    let addr := s.churnAt c q row
    ((List.range 256).map (fun j =>
      let v := tget r.vals j
      (if r.churnValid then f32Of ((ofF32 v).add (ieeeValue fp64 64 (s.mem.num (addr + 8 * j) 8))) else v,
       BitVec.ofNat 32 (kPos w + 256 * i + j))),
     if r.churnValid then 1 else 0)
  let ps := (List.range qs.length).map part
  (ps.flatMap Prod.fst, (ps.map Prod.snd).sum)

/-- One list of a vat skim, when its row may be read. Rows are unlocked as a drain's are, and never cleared. -/
def State.skimRow (s : State) (c n : Nat) (o : Op) : State :=
  match (s.core c).skim with
  | none => s
  | some (_, l) =>
    let w := o.word
    let qs := s.maskQueues c (kMask w)
    let total := skimLists w o.desc
    let rows := kRows w
    if total ≤ l || !s.mayReadRow c qs n (kBase w) rows l (kStream w) then s
    else if s.maskOut c (kMask w) then (s.unlockAll c qs n).skimEnd c n stEngineFault
    else
      let row := kBase w + l % rows
      let x := s.vatCandidates c w qs row
      let y := s.putList c o l x.1
      let s := y.2
      if y.1 != stOk then (s.unlockAll c qs n).skimEnd c n y.1
      else
        let s := (s.bump (coreIdx c) 0x45 x.1.length).bump (coreIdx c) 0x42 x.2
        let s := if !kStream w || total ≤ l + rows then s.unlockRows c qs [row] n else s
        if l + 1 = total then (s.unlockAll c qs n).skimEnd c n stOk
        else s.modCore c (fun k => { k with skim := some (n, l + 1) })

/-- SKIM_VAT: a SKIM of the vat at the head of the skim queue locks its rows and lists those it may read (R162). -/
def State.skimVatHead (s : State) (c : Nat) : State :=
  match s.head c qSkim opSkim with
  | none => s
  | some (n, o) =>
    let w := o.word
    if kSrc w != 0 then s
    else
      let f := s.queueFault c qSkim
      let qs := s.maskQueues c (kMask w)
      if f != stOk then (s.unlockAll c qs n).skimEnd c n f
      else if (s.core c).skim.isNone && s.lockedBefore c qs (kBase w) (kRows w) n then s
      else
        let s := if (s.core c).skim.isSome then s
          else (s.lockRows c qs (tileRange (kBase w) (kRows w)) n).modCore c (fun k =>
            { k.modOp n (fun o => { o with stage := .running }) with skim := some (n, 0) })
        forRange (skimLists w o.desc) s (fun s _ => s.skimRow c n o)

def execSkimVat (dt : Nat) (core : Fin 16) (s : State) : Result :=
  .next ((s.elapse dt).skimVatHead core)

-- store and lists (R158, R161)

/-- Candidates of one vector in memory, decoded to FP32 (R126, R158). -/
def State.storeCandidates (s : State) (c : Nat) (o : Op) (v : Nat) : Nat × State × List Candidate :=
  let w := o.word
  let d := o.desc (kIn w)
  let x := s.accessAll (s.coreJob c) rightR (d.rowReads v)
  if x.1 != stOk then (x.1, x.2, [])
  else if !x.2.headersOk d v 1 then (stFormatHeader, x.2, [])
  else
    let y := ((x.2.tensorRow d v) >>= fun l => l.mapM toF32) ({} : Tally)
    (stOk, x.2.bump (coreIdx c) 0x38 y.2.invalid,
     (List.range y.1.length).map (fun i => (y.1.getD i 0, BitVec.ofNat 32 (kPos w + i))))

/-- Candidates of the lists that merge into list `g`; pad entries are discarded (R160). -/
def State.mergeCandidates (s : State) (c : Nat) (o : Op) (g : Nat) : Nat × State × List Candidate :=
  let w := o.word
  let d := o.desc (kIn w)
  let a := d.base + g * d.rowStride
  let n := kCount w * kKin w
  let x := s.accessAll (s.coreJob c) rightR (splitSpan (8 * n) a (8 * n))
  if x.1 != stOk then (x.1, x.2, []) else (stOk, x.2, (x.2.listAt a n).filter (fun e => !isPad e))

/-- One list of a skim of memory after those before it, up to the first that fails. -/
def State.skimList (c : Nat) (o : Op) (f : State → Nat → Nat × State × List Candidate) (acc : Nat × State) (l : Nat) :
    Nat × State :=
  if acc.1 != stOk then acc
  else
    let x := f acc.2 l
    if x.1 != stOk then (x.1, x.2.1)
    else (x.2.1.bump (coreIdx c) 0x45 x.2.2.length).putList c o l x.2.2

/-- A skim of memory at the head of the skim queue writes its lists and completes. -/
def State.skimMemory (s : State) (c src : Nat) (f : Op → State → Nat → Nat × State × List Candidate) : State :=
  match s.head c qSkim opSkim with
  | none => s
  | some (n, o) =>
    if kSrc o.word != src then s
    else
      let st := s.queueFault c qSkim
      if st != stOk then s.skimEnd c n st
      else
        let x := (List.range (skimLists o.word o.desc)).foldl (State.skimList c o (f o)) (stOk, s)
        x.2.skimEnd c n x.1

/-- SKIM_STORE: a SKIM of vectors in memory (R158). -/
def execSkimStore (dt : Nat) (core : Fin 16) (s : State) : Result :=
  .next ((s.elapse dt).skimMemory core 1 (fun o s l => s.storeCandidates core o l))

/-- SKIM_LISTS: a SKIM that merges lists (R158, R161). -/
def execSkimLists (dt : Nat) (core : Fin 16) (s : State) : Result :=
  .next ((s.elapse dt).skimMemory core 2 (fun o s l => s.mergeCandidates core o l))

end Sys2Proof.Machine
end

