-- ==== Sys2Proof/Machine/Digital.lean ====
section
/-! DEFINITION. The tensor unit and the vector unit (R126, R178, R205 to R208). -/

namespace Sys2Proof.Machine

-- operands

/-- Accesses to rows of a tensor, its headers checked: a status and the state. -/
def State.readable (s : State) (c : Nat) (d : Desc) (rows : List Nat) : Nat × State :=
  let x := s.accessAll (s.coreJob c) rightR (rows.flatMap d.rowReads)
  if x.1 != stOk then x
  else if rows.all (fun r => x.2.headersOk d r 1) then x
  else (stFormatHeader, x.2)

/-- Several such checks, up to the first that fails. -/
def State.allReadable (s : State) (c : Nat) : List (Desc × List Nat) → Nat × State
  | [] => (stOk, s)
  | x :: t =>
    let y := s.readable c x.1 x.2
    if y.1 = stOk then y.2.allReadable c t else y

/-- The writes of rows, each as its transactions. -/
def rowsWrites (d : Desc) (rows : List (Nat × List Fp)) : Calc (List (Nat × List Byte)) := do
  let ws ← rows.mapM (fun r => d.rowWrites r.1 r.2)
  pure (ws.flatten.flatMap (fun x => splitWrite (x.2.length + 1) x))

-- TENS (R126, R205)

/-- An operand row as the tensor unit takes it: block codes expanded to BF16, rounded once (R126). -/
def State.tensRow (s : State) (d : Desc) (r : Nat) : Calc (List Fp) := do
  let xs ← s.tensorRow d r
  if isBlock d.fp then xs.mapM (fun x => do pure (ieeeValue bf16 16 (← toIeee bf16 16 x))) else pure xs

/-- The exact sum of products of two lists. -/
def dot (a b : List Fp) : Fp := (List.zipWith Fp.mul a b).foldl Fp.add .zero

/-- Group sums added in ascending order into an accumulator that starts at +0.0, each addition rounded once (R126). -/
def accumulate (groups : List Fp) : Calc Fp := groups.foldlM addC .zero

/-- An element of the product: groups of 32 indices of K, each summed exactly and rounded once. -/
def tensElement (a b : List Fp) : Calc Fp := do
  let gs ← (List.zip (chunks 32 a.length a) (chunks 32 b.length b)).mapM (fun g => r32 (dot g.1 g.2))
  accumulate gs

/-- The same for two PB8f operands whose blocks both run along K: the group's dot product of element values is rounded, then
multiplied by the exact product of the scales with one further rounding. -/
def tensElementPB8 (a b : List (List Fp × Fp × Fp)) : Calc Fp := do
  let gs ← (List.zip a b).mapM (fun g => do
    let d ← r32 (dot g.1.1 g.2.1)
    r32 (d.mul ((g.1.2.1.mul g.2.2.1).mul (g.1.2.2.mul g.2.2.2))))
  accumulate gs

/-- ALPHA, ACC: the product is multiplied, then added to C (R205). -/
def tensFinish (w : TvWord) (x old : Fp) : Calc Fp := do
  let y ← mulC (ofF32 (tAlpha w)) x
  if tAcc w then addC old y else pure y

/-- Columns of a matrix given by its rows. -/
def columns (n : Nat) (rows : List (List Fp)) : List (List Fp) := (List.range n).map (fun j => rows.map (fun r => r.getD j .zero))

/-- One instance of a TENS: the rows of C. -/
def State.tensInstance (s : State) (w : TvWord) (a b x : Desc) : Calc (List (Nat × List Fp)) := do
  let old ← if tAcc w then (List.range x.rows).mapM (fun r => s.tensorRow x r) else pure []
  let oldAt (i j : Nat) : Fp := (old.getD i []).getD j .zero
  if a.fp = 7 && b.fp = 7 && tTrans w then
    let as ← (List.range a.rows).mapM (fun r => s.blockRow a r)
    let bs ← (List.range b.rows).mapM (fun r => s.blockRow b r)
    (List.range x.rows).mapM (fun i => do
      let row ← (List.range x.cols).mapM (fun j => do
        tensFinish w (← tensElementPB8 (as.getD i []) (bs.getD j [])) (oldAt i j))
      pure (i, row))
  else
    let as ← (List.range a.rows).mapM (fun r => s.tensRow a r)
    let rows ← (List.range b.rows).mapM (fun r => s.tensRow b r)
    let bs := if tTrans w then rows else columns b.cols rows
    (List.range x.rows).mapM (fun i => do
      let row ← (List.range x.cols).mapM (fun j => do
        tensFinish w (← tensElement (as.getD i []) (bs.getD j [])) (oldAt i j))
      pure (i, row))

/-- A pass on a stand-in slot stands before a TENS (R474). -/
def Core.standWaits (k : Core) (n : Nat) : Bool :=
  k.ops.any (fun o => o.1 < n && opcodeOf o.2.word = opPass && o.2.left.any (fun q => 34 ≤ q && q < 66))

/-- TENS at the head of the tensor queue reads its operands, computes and writes C. -/
def State.tensHead (s : State) (c : Nat) : State :=
  match s.head c qTensor opTens with
  | none => s
  | some (n, o) =>
    let f := s.queueFault c qTensor
    if f != stOk then s.finish c n f
    else if (s.core c).standWaits n then s
    else
      let w := o.word
      let a := o.desc (tA w)
      let b := o.desc (tB w)
      let x := o.desc (tC w)
      let is := List.range (tBatch w)
      let reads := is.flatMap (fun i =>
        [(a.instance_ i, List.range a.rows), (b.instance_ i, List.range b.rows)] ++
        (if tAcc w then [(x.instance_ i, List.range x.rows)] else []))
      let y := s.allReadable c reads
      let s := y.2
      if y.1 != stOk then s.finish c n y.1
      else
        let z := (is.mapM (fun i => do
          let rows ← s.tensInstance w (a.instance_ i) (b.instance_ i) (x.instance_ i)
          rowsWrites (x.instance_ i) rows)) { free := s.free }
        let r := (s.countTally c 0x34 0x35 z.2).writeAll (s.coreJob c) z.1.flatten
        r.2.finish c n r.1

def execTens (dt : Nat) (core : Fin 16) (s : State) : Result :=
  .next ((s.elapse dt).tensHead core)

-- VEC (R206, R207)

/-- What a VOP computes for a row from its rows of A, B and C and IMM. -/
abbrev RowFn := List Fp → List Fp → List Fp → Fp → Calc (List Fp)

/-- An operand row, a single row standing for every row (R207). -/
def State.vecRow (s : State) (d : Desc) (r : Nat) : Calc (List Fp) := s.tensorRow32 d (if d.rows = 1 then 0 else r)

/-- Rows of an operand that a VEC reads. -/
def Desc.rowList (d : Desc) : List Nat := List.range d.rows

/-- A VEC of one VOP at the head of the vector queue: its rows are read, computed, narrowed and written. -/
def State.vecHead (s : State) (c vop : Nat) (f : State → Op → Nat → RowFn) : State :=
  match s.head c qVector opVec with
  | none => s
  | some (n, o) =>
    let w := o.word
    if vOp w != vop then s
    else
      let st := s.queueFault c qVector
      if st != stOk then s.finish c n st
      else
        let a := o.desc (vA w)
        let b := o.desc (vB w)
        let x := o.desc (vC w)
        let dst := o.desc (vDst w)
        let limits := if vop = 0x10 && vC w != 0 then (a.rowList.map (fun r => (x.base + r * x.rowStride, 4))) else []
        let y := s.allReadable c ([(a, a.rowList)] ++ (if vopUsesB vop then [(b, b.rowList)] else []) ++
          (if vopUsesC vop then [(x, x.rowList)] else []))
        let z := if y.1 != stOk then y else y.2.accessAll (s.coreJob c) rightR limits
        let s := z.2
        if z.1 != stOk then s.finish c n z.1
        else
          let r := (do
            let rows ← a.rowList.mapM (fun r => do
              let ra ← s.vecRow a r
              let rb ← if vopUsesB vop then s.vecRow b r else pure []
              let rx ← if vopUsesC vop then s.vecRow x r else pure []
              pure (r, ← f s o r ra rb rx (ofF32 (vImm w))))
            rowsWrites dst rows) ({ free := s.free } : Tally)
          let v := (s.countTally c 0x32 0x33 r.2).writeAll (s.coreJob c) r.1
          v.2.finish c n v.1

/-- An elementwise VOP of one, two or three operands. -/
def map1 (f : Fp → Calc Fp) : RowFn := fun a _ _ _ => a.mapM f
def map2 (f : Fp → Fp → Calc Fp) : RowFn := fun a b _ _ => (List.zip a b).mapM (fun x => f x.1 x.2)
def map3 (f : Fp → Fp → Fp → Calc Fp) : RowFn := fun a b c _ => (List.zip a (List.zip b c)).mapM (fun x => f x.1 x.2.1 x.2.2)

def execConvert (dt : Nat) (core : Fin 16) (s : State) : Result :=
  .next ((s.elapse dt).vecHead core 0x01 (fun _ _ _ => map1 pure))
def execAdd (dt : Nat) (core : Fin 16) (s : State) : Result :=
  .next ((s.elapse dt).vecHead core 0x02 (fun _ _ _ => map2 addC))
def execMul (dt : Nat) (core : Fin 16) (s : State) : Result :=
  .next ((s.elapse dt).vecHead core 0x03 (fun _ _ _ => map2 mulC))
def execFma (dt : Nat) (core : Fin 16) (s : State) : Result :=
  .next ((s.elapse dt).vecHead core 0x04 (fun _ _ _ => map3 fmaC))
def execScale (dt : Nat) (core : Fin 16) (s : State) : Result :=
  .next ((s.elapse dt).vecHead core 0x05 (fun _ _ _ a _ _ imm => a.mapM (fun x => mulC x imm)))
def execMax (dt : Nat) (core : Fin 16) (s : State) : Result :=
  .next ((s.elapse dt).vecHead core 0x06 (fun _ _ _ => map2 maxC))
def execRelu (dt : Nat) (core : Fin 16) (s : State) : Result :=
  .next ((s.elapse dt).vecHead core 0x08 (fun _ _ _ => map1 (fun x => pure (reluN x))))
def execSilu (dt : Nat) (core : Fin 16) (s : State) : Result :=
  .next ((s.elapse dt).vecHead core 0x09 (fun _ _ _ => map1 (fun x => pure (siluN x))))
def execGelu (dt : Nat) (core : Fin 16) (s : State) : Result :=
  .next ((s.elapse dt).vecHead core 0x0A (fun _ _ _ => map1 (fun x => pure (geluN x))))
def execExp (dt : Nat) (core : Fin 16) (s : State) : Result :=
  .next ((s.elapse dt).vecHead core 0x0B (fun _ _ _ => map1 (fun x => pure (expN x))))
def execRecip (dt : Nat) (core : Fin 16) (s : State) : Result :=
  .next ((s.elapse dt).vecHead core 0x0C (fun _ _ _ => map1 (fun x => pure (recipN x))))
def execRsqrt (dt : Nat) (core : Fin 16) (s : State) : Result :=
  .next ((s.elapse dt).vecHead core 0x0D (fun _ _ _ => map1 (fun x => pure (rsqrtN x))))

-- rows (R207)

/-- SOFTMAX of the columns below a limit; the others give +0.0. -/
def softmaxRow (limit : Nat) (a : List Fp) (imm : Fp) : Calc (List Fp) := do
  let part := a.take limit
  if part.isEmpty then pure (a.map (fun _ => .zero))
  else
    let m ← rowMax part
    let es ← part.mapM (fun x => do pure (expN (← mulC imm (← subC x m))))
    let sum ← rowSum es
    let out ← es.mapM (fun e => divC e sum)
    pure (out ++ List.replicate (a.length - part.length) .zero)

/-- The limit of a row: the columns below C's entry, or all of them. -/
def State.softmaxLimit (s : State) (o : Op) (r cols : Nat) : Nat :=
  let w := o.word
  if vC w = 0 then cols else leNat (s.readAt ((o.desc (vC w)).base + r * (o.desc (vC w)).rowStride) 4)

def execSoftmax (dt : Nat) (core : Fin 16) (s : State) : Result :=
  .next ((s.elapse dt).vecHead core 0x10 (fun s o r a _ _ imm => softmaxRow (s.softmaxLimit o r a.length) a imm))

/-- The mean of a row. -/
def rowMean (l : List Fp) : Calc Fp := do divC (← rowSum l) (.int l.length)

/-- RMSNORM. -/
def rmsRow : RowFn := fun a b _ imm => do
  let m ← rowMean (← a.mapM (fun x => mulC x x))
  let r := rsqrtN (← addC m imm)
  (List.zip a b).mapM (fun x => do mulC (← mulC x.1 r) x.2)

def execRmsnorm (dt : Nat) (core : Fin 16) (s : State) : Result :=
  .next ((s.elapse dt).vecHead core 0x11 (fun _ _ _ => rmsRow))

/-- LAYERNORM. -/
def layerRow : RowFn := fun a b c imm => do
  let mu ← rowMean a
  let d ← a.mapM (fun x => subC x mu)
  let v ← rowMean (← d.mapM (fun x => mulC x x))
  let r := rsqrtN (← addC v imm)
  (List.zip d (List.zip b c)).mapM (fun x => do addC (← mulC (← mulC x.1 r) x.2.1) x.2.2)

def execLayernorm (dt : Nat) (core : Fin 16) (s : State) : Result :=
  .next ((s.elapse dt).vecHead core 0x12 (fun _ _ _ => layerRow))
def execRowmax (dt : Nat) (core : Fin 16) (s : State) : Result :=
  .next ((s.elapse dt).vecHead core 0x13 (fun _ _ _ a _ _ _ => do pure [← rowMax a]))
def execRowsum (dt : Nat) (core : Fin 16) (s : State) : Result :=
  .next ((s.elapse dt).vecHead core 0x14 (fun _ _ _ a _ _ _ => do pure [← rowSum a]))

-- SAMPLE (R208)

/-- The first entry whose cumulative weight reaches u; the running sum rounds once at each entry (DEDUCED). -/
def pickEntry (u : Fp) : Fp → List (Fp × BitVec 32) → Calc (Option (BitVec 32))
  | _, [] => pure none
  | sum, x :: t => do
    let y ← addC sum x.1
    if u.lt y || (!y.isNan && !y.lt u) then pure (some x.2) else pickEntry u y t

/-- The position that SAMPLE draws from a list, its pad entries left out. -/
def samplePick (imm : Fp) (bits : Nat) (l : List Candidate) : Calc (BitVec 32) := do
  match l with
  | [] => pure 0xFFFFFFFF
  | first :: _ =>
    if imm.isZero then pure first.2
    else
      let xs ← l.mapM (fun c => divC (ofF32 c.1) imm)
      let ws ← softmaxRow xs.length xs (.int 1)
      let r ← pickEntry (.fin false (2 * bits + 1) 131072) .zero (List.zip ws (l.map Prod.snd))
      match r with
      | some p => pure p
      | none => do
        -- rounding has left every cumulative weight below u: the spec names no entry
        let t ← get
        set { t with free := t.free + 1 }
        pure (Config.samplePosition t.free)

/-- SAMPLE at the head of the vector queue. -/
def State.sampleHead (s : State) (c : Nat) : State :=
  match s.head c qVector opVec with
  | none => s
  | some (n, o) =>
    let w := o.word
    if vOp w != 0x18 then s
    else
      let st := s.queueFault c qVector
      if st != stOk then s.finish c n st
      else
        let a := o.desc (vA w)
        let dst := o.desc (vDst w)
        let x := s.accessAll (s.coreJob c) rightR (a.rowList.map (fun r => (a.base + r * a.rowStride, 8 * a.cols)))
        let s := x.2
        if x.1 != stOk then s.finish c n x.1
        else
          let key := s.seedOf c ^^^ ((0x2000 + c) <<< 32)
          let ctr := (s.core c).vecCtr
          let y := (a.rowList.mapM (fun r => do
            let l := (s.listAt (a.base + r * a.rowStride) a.cols).filter (fun e => !isPad e)
            let p ← samplePick (ofF32 (vImm w)) (srBits key ((ctr + r) % 2 ^ 64) 0) l
            pure (dst.base + r * dst.rowStride, leBytes 4 p.toNat))) ({ free := s.free } : Tally)
          let s := s.modCore c (fun k => { k with vecCtr := (k.vecCtr + a.rows) % 2 ^ 64 })
          let z := (s.countTally c 0x32 0x33 y.2).writeAll (s.coreJob c) y.1
          z.2.finish c n z.1

def execSample (dt : Nat) (core : Fin 16) (s : State) : Result :=
  .next ((s.elapse dt).sampleHead core)

end Sys2Proof.Machine
end

