-- ==== Sys2Proof/Machine/Dma.lean ====
section
/-! DEFINITION. The DMA unit: MOVE with its transactions and pools, KV.APPEND and KV.GATHER (R173, R209 to R211, R243 to R245,
R249, R259, R504). -/

namespace Sys2Proof.Machine

-- pools (R173, R249)

/-- Entries a core is guaranteed in a pool, and entries that are shared: 0 HBM, 1 fabric, 2 host. -/
def poolShare (p : Nat) : Nat := if p = 1 then 1024 else 512
def poolShared (p : Nat) : Nat := if p = 1 then 16384 else 8192

/-- Entries that a core holds in a pool, and all that are held. -/
def State.poolUsed (s : State) (p c : Nat) : Nat := tget s.sched.pools (16 * p + c)
def State.poolTotal (s : State) (p : Nat) : Nat := ((List.range 16).map (s.poolUsed p)).sum

/-- An entry is free for a core: of its own share, or of the shared part. -/
def State.poolRoom (s : State) (p c : Nat) : Bool :=
  s.poolUsed p c < poolShare p || ((List.range 16).map (fun k => s.poolUsed p k - poolShare p)).sum < poolShared p

def State.modPool (s : State) (p c : Nat) (f : Nat → Nat) : State :=
  { s with sched := { s.sched with pools := tmod s.sched.pools (16 * p + c) f } }
/-- An entry is taken, with the peak since the last read (R251); one is given back. -/
def State.takePool (s : State) (p c : Nat) : State :=
  if 3 ≤ p then s
  else let s := s.modPool p c (fun n => n + 1)
    s.raiseTo 0x4013 (2 * p + 2) (s.poolTotal p)
def State.givePool (s : State) (p c : Nat) : State := if 3 ≤ p then s else s.modPool p c (fun n => n - 1)

-- MOVE: its parts (R209, R249)

/-- The runs of bytes of a MOVE: source, destination and length. Block codes move panel by panel, headers included. -/
def moveRuns (a b : Desc) : List (Nat × Nat × Nat) :=
  if isBlock a.fp then
    (List.range a.slabs).flatMap (fun j => (List.range (a.panels j)).map (fun p =>
      (a.panelAt j p, b.panelAt j p, panelBytes a.fp (a.panelBlocks j p))))
  else
    let n := a.cols * elemSize a.fp
    if a.rowStride = n && b.rowStride = n then [(a.base, b.base, n * a.rows)]
    else (List.range a.rows).map (fun r => (a.base + r * a.rowStride, b.base + r * b.rowStride, n))

/-- Bytes up to the end of a stack for an address of the device. -/
def stackRoom (inside : Bool) (a : Nat) : Nat := if inside && a < hbmSize then stackSize - a % stackSize else 4096

/-- A run as transactions of at most 4 KiB, each within one stack (R227, R249). -/
def cutRun (pool : Nat) (srcIn dstIn : Bool) : Nat → Nat → Nat × Nat × Nat → List Txn
  | 0, _, _ => []
  | f + 1, off, (a, b, n) =>
    if n = 0 then []
    else
      let len := min n (min 4096 (min (stackRoom srcIn a) (stackRoom dstIn b)))
      let p := if pool != 0 || a < hbmSize || b < hbmSize then pool else 3
      ({ pool := p, src := a, dst := b, len := len, off := off } : Txn) ::
        cutRun pool srcIn dstIn f (off + len) (a + len, b + len, n - len)

/-- The transactions of a MOVE of a kind. -/
def moveTxns (kind : Nat) (a b : Desc) : List Txn :=
  let pool := if kind = 0 then 0 else if kind ≤ 2 then 1 else 2
  let srcIn := kind != 2 && kind != 4 && kind != 6
  let dstIn := kind != 1 && kind != 3 && kind != 5
  ((moveRuns a b).foldl (fun (acc : Nat × List Txn) r =>
    (acc.1 + r.2.2, acc.2 ++ cutRun pool srcIn dstIn (r.2.2 + 1) acc.1 r)) (0, [])).2

/-- The host port of a kind, and whether DMA to that host may run (R355, R371). -/
def hostOfKind (kind : Nat) : Nat := if kind ≤ 4 then 0 else 1
def State.hostWorks (s : State) (p : Nat) : Bool :=
  (s.unit (hostRef p)).works && (s.host p).linkUp && (s.host p).busMaster

/-- What the transport of a MOVE stands in the way with: a status, OK if nothing. -/
def State.transportFault (s : State) (w : TvWord) : Nat :=
  let k := mKind w
  if k = 0 then stOk
  else if k ≤ 2 then (if (s.qp (mQp w)).st = 3 then stOk else stFabric)
  else if s.hostWorks (hostOfKind k) then stOk else stHost

/-- The offset of a fabric MOVE under launch staggering, ns (R504). -/
def State.staggerNs (s : State) (w : TvWord) : Nat :=
  if mKind w = 1 || mKind w = 2 then s.val 0x4005 5 * (mQp w % s.sched.lanes) * 1000 else 0

/-- A MOVE of some kinds at the head of the DMA queue is divided and leaves the head; one that its transport cannot carry
completes at once. -/
def State.moveHead (s : State) (c : Nat) (kinds : List Nat) (data : List Byte) : State :=
  match s.head c qDma opMove with
  | none => s
  | some (n, o) =>
    let w := o.word
    let a := o.desc (mSrc w)
    let b := o.desc (mDst w)
    if mKind w ∉ kinds || o.stage != .queued || (s.unit (coreRef c)).out then s
    else
      let local_ := mKind w != 2 && mKind w != 4 && mKind w != 6
      let f := s.transportFault w
      let x := if f = stOk && local_ && isBlock a.fp then s.readable c a a.rowList else (f, s)
      let s := x.2
      if x.1 != stOk then s.finish c n x.1
      else
        let release := (((s.core c).step).getD {}).launch + s.staggerNs w
        let held := s.staggerNs w != 0 && s.ns < release
        s.modCore c (fun k => (k.unqueue n).modOp n (fun o => { o with
          stage := .running, txns := moveTxns (mKind w) a b, buffer := data, staggered := held, until_ := release }))

def execMoveLocal (dt : Nat) (core : Fin 16) (s : State) : Result :=
  .next ((s.elapse dt).moveHead core [0] [])
def execMoveFabricWrite (dt : Nat) (core : Fin 16) (s : State) : Result :=
  .next ((s.elapse dt).moveHead core [1] [])
def execMoveFabricRead (dt : Nat) (core : Fin 16) (s : State) : Result :=
  .next ((s.elapse dt).moveHead core [2] [])
def execMoveToHost (dt : Nat) (core : Fin 16) (s : State) : Result :=
  .next ((s.elapse dt).moveHead core [3, 5] [])
/-- MOVE_FROM_HOST: `data` is what the host's memory holds at the source, in the order of its runs. -/
def execMoveFromHost (dt : Nat) (core : Fin 16) (data : List Byte) (s : State) : Result :=
  .next ((s.elapse dt).moveHead core [4, 6] data)

/-- STAGGER_RELEASE: the launch time plus the MOVE's offset has come (R504). -/
def execStaggerRelease (dt : Nat) (core : Fin 16) (op : Nat) (s : State) : Result :=
  let s := s.elapse dt
  .next (match (s.core core).op op with
    | some o =>
      if o.staggered && o.until_ ≤ s.ns then s.modCore core (fun k => k.modOp op (fun o => { o with staggered := false })) else s
    | none => s)

-- MOVE: its transactions (R173, R249, R259)

/-- A MOVE with no transaction left completes with the first status found. -/
def State.moveEnds (s : State) (c n : Nat) : State :=
  match (s.core c).op n with
  | some o => if o.stage = .running && o.txns.isEmpty then s.finish c n o.status else s
  | none => s

/-- A MOVE fails: what has not been issued is dropped, and what has completes (R223). -/
def State.moveFails (s : State) (c n status : Nat) : State :=
  (s.modCore c (fun k => k.modOp n (fun o => { o with
    status := if o.status = 0 then status else o.status, txns := o.txns.filter (fun t => t.issued) }))).moveEnds c n

/-- Set the first transaction that has not been issued. -/
def issueFirst (f : Txn → Txn) : List Txn → List Txn
  | [] => []
  | t :: ts => if t.issued then t :: issueFirst f ts else f t :: ts

/-- Packets of a segment at a queue pair's MTU, and its bytes. -/
def Qp.mtu (q : Qp) : Nat := 1024 * 2 ^ (q.byte 1 1 % 4)
def Qp.packets (q : Qp) (len : Nat) : Nat := max 1 (ceilDiv len q.mtu)

/-- READs of a queue pair that await their answer. -/
def State.readsOut (s : State) (q : Nat) : Nat :=
  ((s.cores.map (fun c => (c.2.ops.map (fun o =>
    if opcodeOf o.2.word = opMove && mKind o.2.word = 2 && mQp o.2.word = q then
      (o.2.txns.filter (fun t => t.issued)).length else 0)).sum))).sum

/-- A transaction goes to its target: checked there, and sent if it is for a peer. A status and the state. -/
def State.issueTxn (s : State) (c n : Nat) (o : Op) (t : Txn) : Nat × State :=
  let w := o.word
  let k := mKind w
  let j := s.coreJob c
  let mark (s : State) (psn : Nat) : State :=
    (s.takePool t.pool c).modCore c (fun x => x.modOp n (fun o => { o with
      txns := issueFirst (fun t => { t with issued := true, psn := psn }) o.txns }))
  let f := s.transportFault w
  if f != stOk then (f, s)
  else if k = 0 then
    let x := s.access j t.src t.len rightR
    let y := if x.1 = stOk then x.2.access j t.dst t.len rightW else x
    (y.1, if y.1 = stOk then mark y.2 0 else y.2)
  else if k = 1 then
    let x := s.access j t.src t.len rightR
    if x.1 != stOk then x
    else
      let q := s.qp (mQp w)
      let first := q.sendPsn
      let next := (first + q.packets t.len) % 2 ^ 24
      let s := x.2.modQp (mQp w) (fun q => { q with sendPsn := next })
      (stOk, (mark s ((next + 2 ^ 24 - 1) % 2 ^ 24)).emit (.rdmaWrite (mQp w) first t.dst (mTag w) (s.readAt t.src t.len)))
  else if k = 2 then
    let q := s.qp (mQp w)
    let first := q.sendPsn
    let s := s.modQp (mQp w) (fun q => { q with sendPsn := (first + q.packets t.len) % 2 ^ 24 })
    (stOk, (mark s first).emit (.rdmaRead (mQp w) first t.src t.len))
  else if k = 3 || k = 5 then
    let x := s.access j t.src t.len rightR
    (x.1, if x.1 = stOk then mark x.2 0 else x.2)
  else (stOk, mark s 0)

/-- A new transaction to a stack that shuts down in order is held (R460). -/
def State.txnHeld (s : State) (o : Op) (t : Txn) : Bool :=
  let k := mKind o.word
  let on (a : Nat) : Bool := a < hbmSize && s.stackStops (stackOf a) && !s.stackDown (stackOf a)
  (k != 2 && k != 4 && k != 6 && on t.src) || (k != 1 && k != 3 && k != 5 && on t.dst)

/-- DMA_TRANSACTION_ISSUE: the next transaction of a MOVE takes a pool entry and is issued; without an entry it waits. -/
def State.dmaIssue (s : State) (c n dt : Nat) : State :=
  match (s.core c).op n with
  | none => s
  | some o =>
    match o.txns.find? (fun t => !t.issued) with
    | none => s
    | some t =>
      if o.stage != .running || o.staggered || s.txnHeld o t then s
      else if t.pool < 3 && !s.poolRoom t.pool c then s.bump 0x4013 7 (dt / 1000)
      else if mKind o.word = 2 && (s.qp (mQp o.word)).byte 40 1 ≤ s.readsOut (mQp o.word) then s
      else
        let x := s.issueTxn c n o t
        if x.1 = stOk then x.2 else x.2.moveFails c n x.1

def execDmaTransactionIssue (dt : Nat) (core : Fin 16) (op : Nat) (s : State) : Result :=
  .next ((s.elapse dt).dmaIssue core op dt)

/-- A transaction is over: its entry is given back. -/
def State.dropTxn (s : State) (c n : Nat) (t : Txn) : State :=
  let s := s.givePool t.pool c
  let s := { s with sched := { s.sched with hbmBytes := s.sched.hbmBytes + if t.pool = 0 then t.len else 0 } }
  s.modCore c (fun k => k.modOp n (fun o => { o with txns := o.txns.erase t }))

/-- A transaction within the device or with a host completes, by a kind: a status and the state. -/
def State.landTxn (s : State) (c : Nat) (o : Op) (t : Txn) : Nat × State :=
  let k := mKind o.word
  if k = 0 then (stOk, s.storeBytes t.dst (s.readAt t.src t.len))
  else if k = 3 || k = 5 then (stOk, s.emit (.hostWrite (hostOfKind k) t.dst (s.readAt t.src t.len)))
  else s.writeAll (s.coreJob c) [(t.dst, padTo t.len 0 (o.buffer.drop t.off))]

/-- DMA_TRANSACTION_COMPLETE: the oldest HBM, store or host transaction of a MOVE completes, `doubleBit` the address of an
uncorrectable error in what it read (R177). Fabric transactions complete by acknowledgement or response. -/
def State.dmaComplete (s : State) (c n : Nat) (doubleBit : Option Nat) : State :=
  match (s.core c).op n with
  | none => s
  | some o =>
    match o.txns.find? (fun t => t.issued && t.pool != 1) with
    | none => s
    | some t =>
      let reads := mKind o.word = 0 || mKind o.word = 3 || mKind o.word = 5
      let s := s.dropTxn c n t
      match (if reads then doubleBit else none) with
      | some a => (s.uncorrectable a false).moveFails c n stMemory
      | none =>
        let x := s.landTxn c o t
        if x.1 = stOk then x.2.moveEnds c n else x.2.moveFails c n x.1

def execDmaTransactionComplete (dt : Nat) (core : Fin 16) (op : Nat) (doubleBit : Option Nat) (s : State) : Result :=
  .next ((s.elapse dt).dmaComplete core op doubleBit)

-- transports that fail (R209, R321, R367)

/-- Every MOVE that `f` selects and that is under way ends with a status: its transactions are dropped. -/
def State.failMoves (s : State) (status : Nat) (f : TvWord → Bool) : State :=
  forRange 16 s (fun s c =>
    let mine := (s.core c).ops.filter (fun o => opcodeOf o.2.word = opMove && o.2.stage = .running && f o.2.word)
    mine.foldl (fun s o =>
      let s := o.2.txns.foldl (fun s t => if t.issued then s.givePool t.pool c else s) s
      (s.modCore c (fun k => k.modOp o.1 (fun x => { x with txns := [] }))).moveFails c o.1 status) s)

-- key-value entries (R210, R211, R243 to R245)

/-- An entry of a KV list: stream, tokens, first position, first row. -/
structure KvEntry where
  stream : Nat
  tokens : Nat
  position : Nat
  row : Nat

def State.kvEntry (s : State) (a : Nat) : KvEntry :=
  let b := s.readAt a 16
  { stream := field b 0 4, tokens := field b 4 4, position := field b 8 5, row := field b 13 3 }

/-- The status of an entry before its pages are looked at. An entry whose STREAM or TOKENS lie outside their ranges names no
stream, or no positions (DEDUCED). -/
def State.kvRefused (s : State) (j : Nat) (gather : Bool) (e : KvEntry) : Nat :=
  let c := s.stream e.stream
  if 65536 ≤ e.stream || c.job != j || !(c.st = .active || c.st = .restoring) then stStreamState
  else if e.tokens = 0 || 65536 < e.tokens then stKvRange
  else if gather then (if c.position < e.position + e.tokens then stKvRange else stOk)
  else if c.position < e.position || 2 ^ 40 ≤ e.position + e.tokens then stKvRange
  else stOk

/-- Addresses of a token's key and value in its page (R243). -/
def kvAddr (x : Job) (page t : Nat) : Nat × Nat := (page + t * x.kBytes, page + 64 * x.kBytes + t * x.vBytes)

/-- A copy by the job's rights: a status and the state. -/
def State.kvCopy (s : State) (j src dst n : Nat) : Nat × State :=
  let x := s.access j src n rightR
  if x.1 != stOk then x else x.2.writeAll j [(dst, x.2.readAt src n)]

/-- The tokens of an entry, one after another, up to the first access that is refused. -/
def State.kvTokens (s : State) (j layer : Nat) (gather : Bool) (kd vd : Desc) (e : KvEntry) : Nat × State :=
  (List.range e.tokens).foldl (fun (acc : Nat × State) t =>
    if acc.1 != stOk then acc
    else
      let s := acc.2
      let x := s.job j
      let p := e.position + t
      let a := kvAddr x (s.pageOf e.stream layer p) (p % 64)
      let k := kd.base + (e.row + t) * kd.rowStride
      let v := vd.base + (e.row + t) * vd.rowStride
      let y := if gather then s.kvCopy j a.1 k x.kBytes else s.kvCopy j k a.1 x.kBytes
      if y.1 != stOk then y else if gather then y.2.kvCopy j a.2 v x.vBytes else y.2.kvCopy j v a.2 x.vBytes) (stOk, s)

/-- One entry: its own status, the status of an access refused on the way, and the state. A failed entry has no effect. -/
def State.kvApply (s : State) (j layer : Nat) (gather : Bool) (kd vd : Desc) (e : KvEntry) : Nat × Nat × State :=
  let f := s.kvRefused j gather e
  if f != stOk then (f, stOk, s)
  else if gather then
    if (List.range e.tokens).any (fun t => s.pageOf e.stream layer (e.position + t) = 0) then (stKvRange, stOk, s)
    else let x := s.kvTokens j layer true kd vd e
      (stOk, x.1, x.2)
  else
    let held (s : State) : Nat := (s.job j).pages.length + (s.job j).nodes.length
    match s.makePages j e.stream layer e.position (e.position + e.tokens - 1) with
    | none => (stKvNoPage, stOk, s)
    | some s' =>
      let s' := s'.recountFrames e.stream (held s' - held s)
      let x := s'.kvTokens j layer false kd vd e
      let blocks := (List.range ((e.position + e.tokens - 1) / 64 + 1 - e.position / 64)).map (fun i => (layer, e.position / 64 + i))
      (stOk, x.1, x.2.modStream e.stream (fun c => { c with
        position := max c.position (e.position + e.tokens), dirty := c.dirty ++ blocks.filter (fun b => b ∉ c.dirty) }))

/-- A stream fails in the running step with a status (R223). -/
def State.failStream (s : State) (j n status : Nat) : State :=
  s.modJob j (fun x => { x with step := x.step.map (fun r => { r with failed := r.failed ++ [(n, status)] }) })

/-- A KV instruction at the head of the DMA queue: its entries in order. -/
def State.kvHead (s : State) (c opcode : Nat) (gather : Bool) : State :=
  match s.head c qDma opcode with
  | none => s
  | some (n, o) =>
    let w := o.word
    let j := s.coreJob c
    let x := s.job j
    let l := o.desc (kvList w)
    let kd := o.desc (kvK w)
    let vd := o.desc (kvV w)
    let shapes := kd.cols * elemSize kd.fp = x.kBytes && vd.cols * elemSize vd.fp = x.vBytes
    if (s.unit (coreRef c)).out then s.finish c n stUnitFault
    else if kd.fp != x.kvFmt || vd.fp != x.kvFmt then s.finish c n stFormatHeader
    else if !shapes then s.finish c n stDescRange
    else
      let a := s.accessAll j rightR ((List.range l.rows).map (fun i => (l.base + i * l.rowStride, 16)))
      let s := a.2
      let es := (List.range l.rows).map (fun i => s.kvEntry (l.base + i * l.rowStride))
      if a.1 != stOk then s.finish c n a.1
      else if es.any (fun e => kd.rows < e.row + e.tokens || vd.rows < e.row + e.tokens) then s.finish c n stDescRange
      else if x.kvLayers ≤ kvLayer w then
        (es.foldl (fun s e => s.failStream j e.stream stKvRange) s).finish c n stKvRange
      else
        let r := es.foldl (fun (acc : Nat × Nat × State) e =>
          if acc.2.1 != stOk then acc
          else
            let y := acc.2.2.kvApply j (kvLayer w) gather kd vd e
            let s := if y.1 != stOk then y.2.2.failStream j e.stream y.1 else y.2.2
            (if acc.1 = stOk then y.1 else acc.1, y.2.1, s)) (stOk, stOk, s)
        r.2.2.finish c n (if r.2.1 != stOk then r.2.1 else r.1)

def execKvAppend (dt : Nat) (core : Fin 16) (s : State) : Result :=
  .next ((s.elapse dt).kvHead core opKvAppend false)
def execKvGather (dt : Nat) (core : Fin 16) (s : State) : Result :=
  .next ((s.elapse dt).kvHead core opKvGather true)

end Sys2Proof.Machine
end

