-- ==== Sys2Proof/Machine/Front.lean ====
section
/-! DEFINITION. The front of the dictionary server: what each request on an entry is checked against, in order, and how its
outcome is told on each road (R258, R260, R375, R379 to R390). The order of the checks is the model's (log entry 15). -/

namespace Sys2Proof.Machine

/-- The abort codes (R381). -/
def abIdle : Nat := 0x05040000
def abToggle : Nat := 0x05030000
def abAccess : Nat := 0x06010000
def abReadWo : Nat := 0x06010001
def abReadOnly : Nat := 0x06010002
def abIndex : Nat := 0x06020000
def abLength : Nat := 0x06070010
def abSub : Nat := 0x06090011
def abRange : Nat := 0x06090030
def abStore : Nat := 0x08000020
def abRunState : Nat := 0x08000021
def abState : Nat := 0x08000022

/-- How a request comes: CoE, the direct map of a port's window, or its access block (R382, R387, R389). -/
inductive Via
  | coe
  | direct (p : Nat)
  | block (p : Nat)
  deriving DecidableEq, Repr

/-- The master of a request (R253, R390). -/
def Via.master : Via → Nat
  | .coe => 1
  | .direct p => 2 + p
  | .block p => 2 + p

/-- The way is the direct map. -/
def Via.isDirect : Via → Bool
  | .direct _ => true
  | _ => false

/-- A road and an entry's type give the way: a host writes an entry of a direct-map type through its slot, any other through
its access block (R379, R387). -/
def directType (ty : Nat) : Bool := !(ty = 9 || ty = 10 || ty = 15)
def viaOf (road : Road) (index sub : Nat) : Via :=
  match road with
  | .coe => .coe
  | .host p =>
    match odRow index sub with
    | some r => if directType r.ty then .direct p else .block p
    | none => .direct p

/-- A host port takes memory requests: its link is up, its configuration space has answered, and it is in service (R368). -/
def State.busUp (s : State) (p : Nat) : Bool :=
  s.run.st != .off && (s.host p).linkUp && (s.host p).configured && (s.unit (hostRef p)).works

/-- The device answers on a road: the mailbox outside OFF and AL INIT, a host port that takes requests once the dictionary is
served (R368, R373, R507, R518). -/
def State.hears (s : State) (v : Via) : Bool :=
  match v with
  | .coe => s.run.st != .off && s.al != 0
  | .direct p => s.busUp p && s.run.st != .boot
  | .block p => s.busUp p && s.run.st != .boot

-- values

/-- An entry's value is signed (R379). -/
def OdRow.isSigned (r : OdRow) : Bool := r.ty = 2 || r.ty = 3 || r.ty = 4 || r.ty = 0x15

/-- A value lies in an entry's range; octet strings and domains have none of their own. -/
def OdRow.accepts (r : OdRow) (v : Nat) : Bool :=
  if !directType r.ty then true
  else if r.ty = 1 then v < 2
  else
    let x : Int := if r.isSigned then signed (8 * r.bytes) v else v
    r.lo ≤ x && x ≤ r.hi

/-- The marks of an entry (R380). -/
def OdRow.nonVolatile (r : OdRow) : Bool := bitOf r.marks 0
def OdRow.byEpoch (r : OdRow) : Bool := bitOf r.marks 1
def OdRow.prog (r : OdRow) : Bool := bitOf r.marks 2

-- rights (R258)

/-- Rights that a master lacks for a write: the bits of R255. -/
def State.lackingWrite (s : State) (m index sub : Nat) (r : OdRow) : Nat :=
  let want (rights bit : Nat) : Nat := if has rights bit then 0 else 2 ^ bit
  let k := odClass index
  if k = 5 then
    want (if 0x3020 ≤ index ∧ index < 0x3060 then s.hbmRights m (index - 0x3020)
      else if 0x3060 ≤ index ∧ index < 0x3070 then s.storeRights m (index - 0x3060) ((sub - 1) / 6)
      else if index = 0x3070 then s.bankRights m ((sub - 1) / 4)
      else if index = 0x3071 then s.launchRights m ((sub - 1) / 4)
      else if index = 0x3072 then s.streamRights m
      else s.classRights m 5) rightAdmin
  else if index = 0x2012 ∧ sub = 3 then 0
  else if (index = 0x2010 ∧ sub = 1) ∨ (index = 0x7003 ∧ 4 ≤ sub) then want (s.classRights m k) rightR
  else if r.prog then want (s.classRights m 3) rightProg
  else if (index = 0x3100 ∧ sub = 0xC) ∨ (index = 0x3120 ∧ sub = 1) then
    want (s.classRights m 6) rightW ||| want (s.classRights m 6) rightAdmin
  else if index = 0x3111 then want (s.classRights m 6) rightW ||| want (s.classRights m 6) rightR
  else want (s.classRights m k) rightW

/-- Rights that a master lacks for a read. -/
def State.lackingRead (s : State) (m index sub : Nat) : Nat :=
  if index = 0x2012 ∧ 2 ≤ sub then 0
  else if has (s.classRights m (odClass index)) rightR then 0 else 2 ^ rightR

/-- A cursor or fetch entry of another master (R493). -/
def foreignEntry (m index sub : Nat) : Bool := index = 0x7003 && 1 ≤ sub && m != 0 && m != (sub - 1) % 3 + 1

/-- What only one master or another uses: the summaries' token (R396). -/
def reservedFor (m index sub : Nat) : Bool := index = 0x2010 && sub = 1 && !(1 ≤ m && m ≤ 3)

-- checks

/-- Which CoE requests BOOT allows (R375). -/
def bootAllows (index sub : Nat) (data : Option (List Byte)) : Bool :=
  match data with
  | none => 0x1000 ≤ index && index ≤ 0x1018
  | some d => index = 0x2000 && sub = 2 && d = [6]

/-- A write is checked: BOOT, index, sub-index, rights, access class, length and range, in this order. 0 lets it through. -/
def State.writeGate (s : State) (v : Via) (index sub : Nat) (data : List Byte) : Nat × State :=
  let m := v.master
  if v = .coe ∧ s.run.st = .boot ∧ !bootAllows index sub (some data) then (abRunState, s)
  else if !odIndexExists index then (abIndex, s)
  else
    match odRow index sub with
    | none => (abSub, s)
    | some r =>
      let lack := s.lackingWrite m index sub r
      if lack != 0 then (abAccess, s.deny (some m) (odKey index sub) lack)
      else if foreignEntry m index sub then (abAccess, s.deny (some m) (odKey index sub) 0)
      else if reservedFor m index sub then (abAccess, s.deny (some m) (odKey index sub) 0)
      else if !(r.acc = 1 ∨ r.acc = 2) then (abReadOnly, s)
      else if (v.isDirect && !directType r.ty) || (r.bytes != 0 ∧ data.length != r.bytes) then (abLength, s)
      else if !r.accepts (leNat data) then (abRange, s)
      else (0, s)

/-- A read is checked the same way; a wo entry is not readable over CoE or an access block (R380). -/
def State.readGate (s : State) (v : Via) (index sub : Nat) : Nat × State :=
  let m := v.master
  if v = .coe ∧ s.run.st = .boot ∧ !bootAllows index sub none then (abRunState, s)
  else if !odIndexExists index then (abIndex, s)
  else
    match odRow index sub with
    | none => (abSub, s)
    | some r =>
      let lack := s.lackingRead m index sub
      if lack != 0 then (abAccess, s.deny (some m) (odKey index sub) lack)
      else if foreignEntry m index sub then (abAccess, s.deny (some m) (odKey index sub) 0)
      else if r.acc = 2 ∧ !v.isDirect then (abReadWo, s)
      else (0, s)

-- replies

/-- A refused direct-map write is recorded in the port's access block (R388). -/
def State.refuseDirect (s : State) (p index sub abort : Nat) : State :=
  s.modHost p (fun h => { h with
    refusalAbort := abort, refusalEntry := odKey index sub, refusedWrites := (h.refusedWrites + 1) % 2 ^ 64 })

/-- The outcome of a write is told (R381, R388, R390). -/
def State.reply (s : State) (v : Via) (index sub abort : Nat) : State :=
  match v with
  | .coe => s.emit (if abort = 0 then .sdo index sub [] else .sdoAbort abort)
  | .direct p => if abort = 0 then s else s.refuseDirect p index sub abort
  | .block p => s.modHost p (fun h => { h with error := abort != 0, abort := abort })

/-- A write of an entry: checked, then acted on. `act` answers its own refusal, with the state as it then stands. -/
def State.writeVia (s : State) (v : Via) (index sub : Nat) (data : List Byte) (act : State → Nat × State) : State :=
  if !s.hears v then s
  else
    let g := s.writeGate v index sub data
    if g.1 != 0 then g.2.reply v index sub g.1
    else
      let a := act g.2
      a.2.reply v index sub a.1

/-- The row of a command entry: the write comes by a road (R382). -/
def State.writeRow (s : State) (road : Road) (index sub : Nat) (data : List Byte) (act : State → Nat × State) : State :=
  s.writeVia (viaOf road index sub) index sub data act

/-- What an act answers that is done, and one that refuses. -/
def accept (s : State) : Nat × State := (0, s)
def refuse (abort : Nat) (s : State) : Nat × State := (abort, s)

/-- An entry takes a value. -/
def store (index sub v : Nat) (s : State) : Nat × State := (0, s.setVal index sub v)

end Sys2Proof.Machine
end

