-- ==== Sys2Proof/Machine/Mirror.lean ====
section
/-! DEFINITION. What twins send each other of their streams: checkpoints, mirrors, the token log and adoption (R337, R339 to
R347). -/

namespace Sys2Proof.Machine

-- checkpoints sent (R340, R346)

/-- The owner as a checkpoint records it: a fabric peer by its address, else a class (R346). -/
def State.ownerClass (s : State) (m : Nat) : OwnerClass :=
  if m = 2 then .hostA
  else if m = 3 then .hostB
  else
    match s.od.find? (fun e => 0x301000 ≤ e.1 && e.1 < 0x302000 && 16 + 255 * (e.1 / 256 - 0x3010) + (e.1 % 256 - 1) = m) with
    | some e => (match peerOf e.2 with
      | some (a, _) => .fabric (BitVec.ofNat 128 a)
      | none => .ethercat)
    | none => .ethercat

/-- The checkpoint of a stream as it stands, without pages. -/
def State.checkpointOf (s : State) (n : Nat) : Checkpoint :=
  let c := s.stream n
  { stream := n, seq := c.ckptSeq + 1, state := c.st.code, priority := c.priority, position := c.position, budget := c.budget,
    user := c.user, owner := s.ownerClass c.owner, jobCode := BitVec.ofNat 64 (s.job c.job).code }

/-- A checkpoint of a stream goes to the twin, with every page written since the last one (R340). -/
def State.sendCheckpoint (s : State) (n : Nat) : State :=
  let c := s.stream n
  let k := s.checkpointOf n
  let pages : List CkptPage := c.dirty.map (fun b =>
    { layer := b.1, block := b.2, data := s.mem.read (s.pageOf n b.1 (64 * b.2)) (s.job c.job).pageBytes })
  let s := s.modStream n (fun c => { c with
    ckptAt := s.up, dirty := [], ckptLast := some k, ckptWait := some c.position })
  (s.bump 0x2201 0xB 1).emit (.checkpoint { k with pages := pages })

/-- Checkpoints travel in SYNCING and PAIRED. -/
def TwinSt.logs : TwinSt → Bool
  | .syncing => true
  | .paired => true
  | _ => false

/-- A stream is due for a checkpoint at a step end (R340): far enough on, or changed and the interval over; in SYNCING one that
has none (R331). One at a time is on its way (DEDUCED). -/
def State.checkpointDue (s : State) (n : Nat) : Bool :=
  let c := s.stream n
  let changed := !c.dirty.isEmpty || (match c.ckptLast with
    | some k => { s.checkpointOf n with seq := k.seq } != k
    | none => true)
  c.st != .free && c.st != .closing && (c.ckptWait.isNone || c.ckptAt + s.val 0x2200 0xB * msPs ≤ s.up) &&
  (c.ckptPosition + s.val 0x2200 0xA ≤ c.position || (changed && c.ckptAt + s.val 0x2200 0xB * msPs ≤ s.up) ||
   (s.twin.st = .syncing && !c.ckptAcked))

/-- The checkpoints of a step end (R340). -/
def State.checkpointAll (s : State) : State :=
  if !s.twin.st.logs then s
  else (s.streams.map Prod.fst).foldl (fun s n => if n < 65536 && s.checkpointDue n then s.sendCheckpoint n else s) s

/-- The blocks of every layer that a stream's tree holds. -/
def State.blocksOf (s : State) (n : Nat) : List (Nat × Nat) :=
  let c := s.stream n
  (List.range (s.job c.job).kvLayers).flatMap (fun l =>
    ((List.range (ceilDiv c.position 64)).filter (fun b => s.pageOf n l (64 * b) != 0)).map (fun b => (l, b)))

/-- On entry into SYNCING, every stream is checkpointed whole (R331, R350). -/
def State.checkpointFresh (s : State) : State :=
  (s.streams.map Prod.fst).foldl (fun s n =>
    let c := s.stream n
    if n < 65536 && c.st != .free && c.st != .closing then
      (s.modStream n (fun c => { c with ckptAcked := false, dirty := s.blocksOf n })).sendCheckpoint n
    else s) s

/-- Every stream of this device has an acknowledged checkpoint (R331). -/
def State.allCheckpointed (s : State) : Bool :=
  s.streams.all (fun x => 65536 ≤ x.1 || x.2.st = .free || x.2.st = .closing || x.2.ckptAcked)

-- mirrors (R341)

/-- The context number under which a mirrored stream's tree is kept. -/
def mirrorKey (n : Nat) : Nat := 65536 + n

/-- The resident job with a Job Code (R341). -/
def State.jobWithCode (s : State) (code : Nat) : Option Nat :=
  (List.range 8).find? (fun j =>
    let x := s.job j
    x.code = code && (x.st = .ready || x.st = .running || x.st = .held))

/-- Frames that mirrors hold of a job, and all its frames. -/
def State.mirrorFrames (s : State) (j : Nat) : Nat :=
  ((s.twin.mirrors.filter (fun m => m.have_ && m.job = j)).map (fun m => (s.stream (mirrorKey m.ckpt.stream)).frames)).sum
def State.jobFrames (s : State) (j : Nat) : Nat := s.allFrames j .page + s.allFrames j .node

/-- One page of a checkpoint is stored in a frame of the job; none left: `none`. -/
def State.storePage (s : State) (j key : Nat) (p : CkptPage) : Option State :=
  match s.makePages j key p.layer (64 * p.block) (64 * p.block) with
  | none => none
  | some s => some (s.storeBytes (s.pageOf key p.layer (64 * p.block)) (p.data.take (s.job j).pageBytes))

/-- Change a mirror. -/
def State.modMirror (s : State) (n : Nat) (f : Mirror → Mirror) : State :=
  { s with twin := { s.twin with mirrors := s.twin.mirrors.map (fun m => if m.ckpt.stream = n then f m else m) } }

/-- The mirror of a partner's stream exists, at least for its log. -/
def State.withMirror (s : State) (n : Nat) : State :=
  if s.twin.mirrors.any (fun m => m.ckpt.stream = n) then s
  else { s with twin := { s.twin with mirrors := s.twin.mirrors ++ [{ ckpt := { stream := n } }] } }

/-- A mirror is discarded and its frames return to their job. -/
def State.dropMirror (s : State) (n : Nat) : State :=
  let s := (s.freePages (mirrorKey n)).freeStream (mirrorKey n)
  { s with twin := { s.twin with mirrors := s.twin.mirrors.filter (fun m => m.ckpt.stream != n) } }

/-- A checkpoint is taken over whole: `none` when no job matches, or no frame is left within the share (R341). -/
def State.storeCheckpoint (s : State) (k : Checkpoint) : Option State :=
  match s.jobWithCode k.jobCode.toNat with
  | none => none
  | some j =>
    let key := mirrorKey k.stream
    let held (s : State) : Nat := (s.job j).pages.length + (s.job j).nodes.length
    let s := s.withMirror k.stream
    let start := s.modStream key (fun c => { c with job := j })
    match k.pages.foldl (fun acc p => match acc with
      | none => none
      | some s => s.storePage j key p) (some start) with
    | none => none
    | some s' =>
      let s' := s'.recountFrames key (held s' - held s)
      let s' := s'.modMirror k.stream (fun m => { m with
        ckpt := { k with pages := [] }, have_ := true, job := j, log := m.log.filter (fun e => k.position < e.position) })
      if s'.mirrorFrames j * 1000 ≤ s.val 0x2200 0xC * s.jobFrames j then some s' else none

/-- A checkpoint of a partner's stream arrives: kept and acknowledged, or refused (R340, R341). -/
def State.takeCheckpoint (s : State) (k : Checkpoint) : State :=
  match s.storeCheckpoint k with
  | some s => s.emit (.checkpointAck k.stream true)
  | none => ((s.bump 0x2201 0xC 1).raise 0x0505 0 k.stream).emit (.checkpointAck k.stream false)

-- the log (R339, R344)

/-- An entry of the partner's log: kept with the stream's mirror and acknowledged; a stream that closes is mirrored no more. -/
def State.takeLog (s : State) (e : LogEntry) : State :=
  let s := match e.item with
    | .closed => s.dropMirror e.stream
    | _ => (s.withMirror e.stream).modMirror e.stream (fun m => { m with log := m.log ++ [e] })
  ({ s with twin := { s.twin with partnerAcked := max s.twin.partnerAcked e.seq } } : State).emit (.logAck e.seq)

/-- Entries up to a sequence are acknowledged: what waited for them is delivered, in order. -/
def State.logAcks (s : State) (seq : Nat) : State :=
  let go := s.twin.held.filter (fun h => h.log.seq ≤ seq)
  let s := { s with twin := { s.twin with
    logAcked := max s.twin.logAcked seq, held := s.twin.held.filter (fun h => seq < h.log.seq) } }
  go.foldl (fun s h => s.postTo h.owner h.ring h.entry) s

/-- What is held for the log is delivered without an acknowledgement (R339). -/
def State.releaseLog (s : State) : State :=
  let go := s.twin.held
  go.foldl (fun s h => s.deliverBare h.log.stream h.owner h.ring h.entry) { s with twin := { s.twin with held := [] } }

/-- Entries that were held back go to the twin when the pair logs again (R339). -/
def State.sendLog (s : State) : State :=
  let s := s.twin.held.foldl (fun s h => if h.sent then s else s.emit (.logEntry h.log)) s
  { s with twin := { s.twin with held := s.twin.held.map (fun h => { h with sent := true }) } }

/-- Tokens of adopted streams that waited for the time of R337 are delivered. -/
def State.releaseFence (s : State) : State :=
  let go := s.twin.fenceHeld
  go.foldl (fun s h => s.deliverBare h.log.stream h.owner h.ring h.entry) { s with twin := { s.twin with fenceHeld := [] } }

-- adoption (R343 to R346)

/-- The owner that the survivor takes, and the ring of its completions (R346, R358). -/
def State.adoptOwner (s : State) (o : OwnerClass) : Nat :=
  match o with
  | .fabric a => (s.peerMaster a).getD (s.val 0x2200 0xE)
  | _ => s.val 0x2200 0xE
def adoptRing (owner : Nat) : Option (Nat × Nat) := if owner = 2 then some (0, 9) else if owner = 3 then some (1, 9) else none

/-- What a log says of a stream, applied in order (R343, R344): tokens to recompute, prompt tokens beyond the last of them,
budget, and whether it ends paused. -/
structure Replay where
  forced : List (BitVec 32) := []
  prompt : List (BitVec 32) := []
  budget : Nat := 0
  paused : Bool := false

/-- One log entry: a sampled token makes what came before it part of the recomputation. -/
def Replay.step (position : Nat) (r : Replay) (e : LogEntry) : Replay :=
  match e.item with
  | .token t => { r with forced := r.forced ++ r.prompt ++ [t], prompt := [], budget := r.budget - 1 }
  | .extended ts b => { r with
      prompt := r.prompt ++ ts.drop (position + ts.length - e.position), budget := r.budget + b, paused := false }
  | .paused => { r with paused := true }
  | .resumed => { r with paused := false }
  | .opened => r
  | .closed => r

/-- The mirrors that can be adopted, in the order of R343: by PRIORITY, then lower CHECKPOINT_POSITION. -/
def mirrorBefore (a b : Mirror) : Bool :=
  a.ckpt.priority < b.ckpt.priority || (a.ckpt.priority = b.ckpt.priority && a.ckpt.position < b.ckpt.position)
def insertMirror (m : Mirror) : List Mirror → List Mirror
  | [] => [m]
  | x :: xs => if mirrorBefore m x then m :: x :: xs else x :: insertMirror m xs
def sortMirrors (l : List Mirror) : List Mirror := l.foldl (fun acc m => insertMirror m acc) []

/-- A stream's recomputation is complete: it becomes ACTIVE, and IDLE at once where its log or checkpoint leaves it so. -/
def State.recomputed (s : State) (n : Nat) : State :=
  let idle := (s.stream n).after
  let s := s.streamTo n .active 0
  if idle = 1 then s.streamTo n .idle (if (s.stream n).budget = 0 then 1 else 3) else s

/-- One mirror is adopted into a context and a job; its tokens are held until a time. -/
def State.adopt (s : State) (m : Mirror) (n j hold : Nat) : State :=
  let k := m.ckpt
  let tree := s.stream (mirrorKey k.stream)
  let r := m.log.foldl (Replay.step k.position) { budget := k.budget, paused := k.state = StreamSt.idle.code }
  let owner := s.adoptOwner k.owner
  let s := { s with twin := { s.twin with mirrors := s.twin.mirrors.filter (fun x => x.ckpt.stream != k.stream) } }
  let s := s.freeStream (mirrorKey k.stream)
  let s := { s with sched := { s.sched with arrivals := s.sched.arrivals + 1 } }
  let s := s.modStream n (fun _ => {
    st := .restoring, job := j, priority := k.priority, depth := tree.depth, owner := owner, position := k.position,
    root := tree.root, ckptSeq := k.seq, ckptPosition := k.position, frames := tree.frames, budget := r.budget, user := k.user,
    ring := adoptRing owner, prompt := r.prompt, forced := r.forced, arrival := s.sched.arrivals, adopted := true,
    heldUntil := hold, after := if r.paused then 1 else 0 })
  let s := s.postTo owner (adoptRing owner) ((s.stream n).event n)
  let s := s.modStream n (fun c => { c with adopted := false })
  if r.forced.isEmpty then s.recomputed n else s

/-- Every mirror that finds a context and a job is adopted; the others wait in the backlog (R343, R345). -/
def State.adoptAll (s : State) (hold : Nat) : State :=
  (sortMirrors (s.twin.mirrors.filter (fun m => m.have_))).foldl (fun s m =>
    match s.freeContext, s.jobWithCode m.ckpt.jobCode.toNat with
    | some n, some j => s.adopt m n j hold
    | _, _ => s.modMirror m.ckpt.stream (fun m => { m with backlog := true })) s

/-- Streams in the adoption backlog. -/
def State.backlog (s : State) : Nat := (s.twin.mirrors.filter (fun m => m.backlog)).length

/-- Adoption from the backlog, as contexts or jobs come free, once the device has taken over (R345). -/
def State.adoptBacklog (s : State) : State :=
  if s.twin.st = .takingOver || s.twin.st = .degraded then s.adoptAll s.ns else s

end Sys2Proof.Machine
end

