-- ==== Sys2Proof/Machine/Pace.lean ====
section
/-! DEFINITION. Pace monitors, the voltage controller and the pail of a core (R180, R181, R186, R290). -/

namespace Sys2Proof.Machine

-- pace and supply (R180, R181)

/-- The pace of a core: its lowest monitor reading, 0 while none has been read (R180). -/
def Core.pace (k : Core) : Nat :=
  match k.monitors with
  | [] => 0
  | m :: ms => ms.foldl min m

/-- PACE_MEASURE: the 16 monitors of a powered core are read. -/
def execPaceMeasure (dt : Nat) (core : Fin 16) (monitors : List Nat) (s : State) : Result :=
  let s := s.elapse dt
  .next (if (s.core core).supply = 0 then s else s.modCore core (fun k => { k with monitors := monitors.take 16 }))

/-- The supply after one step of the controller: up 5 mV while the pace lies below the target plus 20 per mille, down 5 mV
while the pace at the lower voltage would still reach it; 550 mV to 750 mV. -/
def nextSupply (supply pace paceBelow target : Nat) : Nat :=
  if pace < target + 20 then min 750 (supply + 5)
  else if target + 20 ≤ paceBelow then max 550 (supply - 5)
  else supply

/-- The controller's step on a core: the effective target is the lowest of the three; a shortfall at 0.75 V is timed. -/
def State.voltageStep (s : State) (c : Nat) (paceAtNext : List Nat) : State :=
  let k := s.core c
  if k.supply = 0 then s
  else
    let t := s.paceTarget c
    let below := ({ monitors := paceAtNext.take 16 } : Core).pace
    let s := if k.supply = 750 && k.pace < t then s.bump (coreIdx c) 0x53 (s.val 0x4002 2) else s
    (s.modCore c (fun k => { k with target := t, supply := nextSupply k.supply k.pace below t })).restretch c

/-- VOLTAGE_STEP: `paceAtNext` is what the monitors would read 5 mV lower. -/
def execVoltageStep (dt : Nat) (core : Fin 16) (paceAtNext : List Nat) (s : State) : Result :=
  .next ((s.elapse dt).voltageStep core paceAtNext)

-- the pail (R186, R290)

/-- Core store that one stand-in slot takes from the pail (R474): its vat and metadata, and its input image. -/
def standInBytes : Nat := 4210688

/-- Bytes that the pail may hold, and bytes that it holds. -/
def Core.pailSize (k : Core) : Nat := k.pailMiB * 2 ^ 20 - standInBytes * k.standIns.length
def Core.pailUsed (k : Core) : Nat := (k.pail.map (fun i => i.data.length)).sum

/-- The pending record of a job with a tag (R287). -/
def State.pendingLaunch (s : State) (j tag : Nat) : Option Launch :=
  s.sched.launches.find? (fun l => l.job = j && l.tag = tag)

/-- Data of a launch is written to its destination, where there is HBM or core store. -/
def State.landTagged (s : State) (addr : Nat) (data : List Byte) : State :=
  match rangeSpan addr data.length with
  | .hbm => if s.touchesRetired addr data.length then s else s.storeBytes addr data
  | .store _ => s.storeBytes addr data
  | _ => s

/-- An early arrival is held, or refused for want of room. -/
def State.intoPail (s : State) (c : Nat) (i : PailItem) : State :=
  let k := s.core c
  if k.pailUsed + i.data.length ≤ k.pailSize then
    s.modCore c (fun k => { k with pail := k.pail ++ [i] })
  else s.bump (coreIdx c) 0x57 1

/-- Tagged data reaches a core: where it goes follows its record (R290). -/
def State.tagged (s : State) (c j tag addr : Nat) (data : List Byte) : State :=
  let item : PailItem := { job := j, tag := tag, addr := addr, data := data, at_ := s.ns }
  if (s.job j).step.any (fun r => r.tag = tag) then s.landTagged addr data
  else
    match s.pendingLaunch j tag with
    | some l => if s.ns < l.time then s.intoPail c item else s.landTagged addr data
    | none =>
      if (j, tag) ∈ s.sched.closedTags then s.bump 0x2107 7 1
      else s.intoPail c { item with orphan := true }

def execTaggedDataArrival (dt : Nat) (core : Fin 16) (job : Fin 8) (tag : BitVec 32) (addr : BitVec 64) (data : List Byte)
    (s : State) : Result :=
  .next ((s.elapse dt).tagged core job tag.toNat addr.toNat data)

/-- ORPHAN_LIMIT: orphans older than the Orphan Limit are discarded (R284, R290). -/
def State.orphansOut (s : State) (c : Nat) : State :=
  let limit := 1000 * s.val 0x2106 3
  let late (i : PailItem) : Bool := i.orphan && i.at_ + limit < s.ns
  let n := ((s.core c).pail.filter late).length
  (s.modCore c (fun k => { k with pail := k.pail.filter (fun i => !late i) })).bump 0x2107 8 n

def execOrphanLimit (dt : Nat) (core : Fin 16) (s : State) : Result := .next ((s.elapse dt).orphansOut core)

/-- A record arrives: orphans of its job and tag belong to it. -/
def State.adoptOrphans (s : State) (j tag : Nat) : State :=
  forRange 16 s (fun s c => s.modCore c (fun k => { k with
    pail := k.pail.map (fun i => if i.job = j && i.tag = tag then { i with orphan := false } else i) }))

/-- What a pail holds of a launch. -/
def Core.pailOf (k : Core) (j tag : Nat) : List PailItem := k.pail.filter (fun i => i.job = j && i.tag = tag)
def Core.pailWithout (k : Core) (j tag : Nat) : Core :=
  { k with pail := k.pail.filter (fun i => !(i.job = j && i.tag = tag)) }

/-- A launch is refused, abandoned or cancelled: its pail data is discarded and counted, and what still comes of it is late. -/
def State.closeLaunch (s : State) (j tag : Nat) : State :=
  let s := forRange 16 s (fun s c =>
    (s.bump (coreIdx c) 0x58 ((s.core c).pailOf j tag).length).modCore c (fun k => k.pailWithout j tag))
  if (j, tag) ∈ s.sched.closedTags then s
  else { s with sched := { s.sched with closedTags := s.sched.closedTags ++ [(j, tag)] } }

/-- A launch starts: its pail data is copied to its destinations, in order of arrival. -/
def State.pailCopy (s : State) (j tag : Nat) : State :=
  forRange 16 s (fun s c =>
    let items := (s.core c).pailOf j tag
    (items.foldl (fun s i => s.landTagged i.addr i.data) s).modCore c (fun k => k.pailWithout j tag))

end Sys2Proof.Machine
end

