-- ==== Sys2Proof/Machine/Placement.lean ====
section
/-! DEFINITION. What the policy firmware places: layers on banks, slots on engines, logical cores on cores (R105, R106, R395,
R472 to R475, R499). -/

namespace Sys2Proof.Machine

-- layers (R105, R106)

/-- Banks of a core that are granted, and that are free of its 64. -/
def State.grantedOn (s : State) (c : Nat) : Nat :=
  (s.jobs.map (fun j => (j.2.layers.map (fun l => ((l.grants.filter (fun g => g.1 = c)).map Prod.snd).sum)).sum)).sum
def State.freeBanks (s : State) (c : Nat) : Nat := 64 - s.grantedOn c

/-- Banks for a layer over the cores of its job, lowest core first. -/
def State.grantOver (s : State) : List Nat → Nat → List (Nat × Nat)
  | [], _ => []
  | c :: cs, need =>
    let n := min need (s.freeBanks c)
    if n = 0 then s.grantOver cs need else (c, n) :: s.grantOver cs (need - n)

/-- Change the layer of a tag. -/
def State.modLayerOf (s : State) (j tag : Nat) (f : Layer → Layer) : State :=
  s.modJob j (fun x => { x with layers := x.layers.map (fun l => if l.tag = tag && !l.extra then f l else l) })

/-- A whole layer becomes resident if enough banks are free. -/
def State.grant (s : State) (j : Nat) (l : Layer) : Option State :=
  let g := s.grantOver (s.jobCores j).eraseDups l.banks
  if (g.map Prod.snd).sum < l.banks then none
  else some (s.modLayerOf j l.tag (fun l => { l with place := .resident, grants := g, held := 0 }))

/-- Candidates in the compiler's order: by RESIDENT_RANK, then as the table lists them. -/
def insertRank (l : Layer) : List Layer → List Layer
  | [] => [l]
  | x :: xs => if l.rank < x.rank then l :: x :: xs else x :: insertRank l xs
def byRank (ls : List Layer) : List Layer := (ls.reverse).foldl (fun acc l => insertRank l acc) []

/-- RESIDENT_GRANT: at job residency banks go to the candidates in order, up to the first whose banks are not all free; a
layer that the table pins has its placement from the start (R105, R106). -/
def State.grantAll (s : State) (j : Nat) : State :=
  let s := s.modJob j (fun x => { x with layers := x.layers.map (fun l =>
    { l with place := if l.pin = 1 then .resident else if l.pin = 2 then .rotating else .digital }) })
  let cands := byRank ((s.job j).layers.filter (fun l => l.rank != 0 && l.pin = 0 && !l.extra))
  (cands.foldl (fun (acc : State × Bool) l =>
    if acc.2 then acc
    else match acc.1.grant j l with
      | some s => (s, false)
      | none => (acc.1, true)) (s, false)).1

/-- The placement that the policy wants for a layer whose loads serve `vectors` vectors each, at the nominal window length
(R106, R499). -/
def State.wants (s : State) (l : Layer) (vectors : Nat) : Place :=
  if s.val 0x4006 1 * 3000 ≤ vectors * l.w * windowPs l.bits then .rotating else .digital

/-- A layer is placed otherwise; unless it stays resident, its banks come free. -/
def Layer.to (l : Layer) (p : Place) : Layer :=
  if l.place = p then { l with held := l.held + 1 } else { l with place := p, held := 0, grants := if p = .resident then l.grants else [] }

/-- One layer at a step boundary. -/
def State.placeLayer (s : State) (j vectors : Nat) (l : Layer) : State :=
  let pin := placePin (s.pinOf j l.tag)
  let put (p : Place) : State := s.modLayerOf j l.tag (fun l => l.to p)
  if l.extra || l.pin != 0 then s
  else if pin = 1 then
    (if l.place = .resident then put .resident else (s.grant j l).getD (put l.place))
  else if pin = 2 then put .rotating
  else if pin = 3 then put .digital
  else if l.place = .resident then put .resident
  else
    let w := s.wants l vectors
    if s.flag 0x4006 2 && w != l.place && s.val 0x4006 3 ≤ l.held + 1 then put w else put l.place

/-- PLACEMENT_DECISION: every layer of a job at a step boundary, after a step of so many vectors. -/
def State.placeLayers (s : State) (j vectors : Nat) : State :=
  (s.job j).layers.foldl (fun s l => s.placeLayer j vectors l) s

-- slots (R473, R474)

/-- The engine of a slot has left service, or counts as failed. -/
def State.slotFailed (s : State) (c slot : Nat) : Bool :=
  slot ∉ (s.core c).standIns &&
  (match (s.core c).slotEngine slot with
   | some e => (s.unit (engineRef c e)).out || (s.eng c e).failNext
   | none => true)

/-- One more stand-in slot leaves the pail its 4 MiB. -/
def Core.standRoom (k : Core) : Bool := standInBytes * (k.standIns.length + 1) + 4 * 2 ^ 20 ≤ k.pailMiB * 2 ^ 20

/-- A slot becomes a stand-in. -/
def State.standIn (s : State) (c slot : Nat) : State :=
  s.modCore c (fun k => { k with
    standIns := k.standIns ++ [slot], slotMap := k.slotMap.filter (fun x => x.1 != slot) ++ [(slot, 0xFF)]
    standRecords := k.standRecords.filter (fun r => r.1 / 2 != slot)
    standVats := tset k.standVats slot [], standCtrs := tset k.standCtrs slot 0, standNext := tset k.standNext slot 0 })

/-- Every slot of a core is served: by its engine, by the lowest READY engine without a slot, or digitally. False when a
slot finds none of them: the core counts as leaving service. -/
def State.fixSlots (s : State) (c : Nat) : State × Bool :=
  (List.range 32).foldl (fun (acc : State × Bool) slot =>
    let s := acc.1
    if !s.slotFailed c slot then acc
    else
      let s := match (s.core c).slotEngine slot with
        | some e => s.modEng c e (fun g => { g with failNext := false })
        | none => s
      match (List.range 34).find? (fun e => s.unit (engineRef c e) = .ready && ((s.core c).slotOf e).isNone &&
          !(s.eng c e).failNext) with
      | some e => (s.mapSlot c slot e, acc.2)
      | none => if (s.core c).standRoom then (s.standIn c slot, acc.2) else (s, false)) (s, true)

-- logical cores (R475)

/-- A core serves a job no longer: it is out itself, or a unit of it is whose work nothing there can carry (R184). -/
def State.coreGone (s : State) (c worst : Nat) : Bool :=
  (s.unit (coreRef c)).out || [4, 5, 6].any (fun k => (s.unit (digitalRef k c)).out) ||
  ((s.unit (digitalRef 3 c)).out && worst = stUnitFault)

/-- Cores a job may be bound to. -/
def State.mayBind (s : State) (j c : Nat) : Bool :=
  !(s.unit (coreRef c)).out && has (s.launchRights (s.job j).owner c) rightLaunch

/-- A logical core's code and descriptor table are copied into the store of the core that it is bound to (R233, R475). -/
def State.copyCode (s : State) (j l : Nat) : State :=
  let e := (s.job j).cores.getD l {}
  match e.bound with
  | none => s
  | some c =>
    { s with mem := (s.mem.move e.codeSrc (storeBase c + e.codeDst) e.codeBytes).move e.descSrc (storeBase c + e.descDst) 32768 }

/-- A logical core is bound to another core. -/
def State.bind (s : State) (j l c : Nat) : State :=
  (s.modJob j (fun x => { x with cores := x.cores.set l { x.cores.getD l {} with bound := some c } })).copyCode j l

/-- The place of a logical core whose core has gone: the lowest free one, else the job's core with the fewest stand-in slots. -/
def State.newCore (s : State) (j : Nat) (gone : List Nat) : Option Nat :=
  let mine := s.jobCores j
  match (List.range 16).find? (fun c => c ∉ mine && c ∉ gone && s.mayBind j c) with
  | some c => some c
  | none =>
    (mine.filter (fun c => c ∉ gone)).foldl (fun (b : Option Nat) c =>
      match b with
      | none => some c
      | some x => if (s.core c).standIns.length < (s.core x).standIns.length ||
          ((s.core c).standIns.length = (s.core x).standIns.length && c < x) then some c else some x) none

/-- What a core holds of a job is lost with it. -/
def State.dropHeld (s : State) (c j : Nat) : State :=
  if (s.core c).loaded.any (fun x => x.1 = j) then s.clearCore c else s

/-- Every logical core of a job on a core that has gone is rebound. -/
def State.rebind (s : State) (j : Nat) (gone : List Nat) : State :=
  (s.job j).logicals.foldl (fun s l =>
    match ((s.job j).cores.getD l {}).bound with
    | none => s
    | some c =>
      if c ∉ gone then s
      else
        match s.newCore j gone with
        | none => s
        | some d => (s.dropHeld c j).bind j l d) s

/-- A doubled logical core takes a core of its own again once one is free (R475, R478; DEDUCED). -/
def State.undouble (s : State) (j : Nat) : State :=
  (s.job j).logicals.foldl (fun s l =>
    let x := s.job j
    match (x.cores.getD l {}).bound with
    | none => s
    | some c =>
      let first := x.logicals.find? (fun i => (x.cores.getD i {}).bound = some c)
      let mine := s.jobCores j
      if first = some l then s
      else
        match (List.range 16).find? (fun d => d ∉ mine && s.mayBind j d && (s.unit (coreRef d)).works) with
        | none => s
        | some d =>
          let s := if (s.core c).loaded = some (j, l) then s.saveCore c [] else s
          s.bind j l d) s

/-- The units of a job are re-placed between steps; `worst` is the status that ended the last one (R472 to R475). -/
def State.replaceUnits (s : State) (j worst : Nat) : State :=
  let x := (s.jobCores j).eraseDups.foldl (fun (acc : State × List Nat) c =>
    if acc.1.coreGone c worst then (acc.1, acc.2 ++ [c])
    else
      let y := acc.1.fixSlots c
      (y.1, if y.2 then acc.2 else acc.2 ++ [c])) (s, [])
  (x.1.rebind j x.2).undouble j

end Sys2Proof.Machine
end

