-- ==== Sys2Proof/Machine/Launches.lean ====
section
/-! DEFINITION. Launch records: their fields, the checks in their order, refusal, cancelling and lateness (R286 to R294). -/

namespace Sys2Proof.Machine

-- records (R287)

/-- Statuses of launch records (R288). -/
def stJobState : Nat := 0x44
def stLaunchUnlocked : Nat := 0x58
def stLaunchMixed : Nat := 0x59
def stLaunchEpoch : Nat := 0x5A
def stLaunchTag : Nat := 0x5B
def stLaunchFull : Nat := 0x5C

/-- Fields of a record of 32 bytes. -/
structure Record where
  time : Nat
  tag : Nat
  kind : Nat
  job : Nat
  flags : Nat
  reserved : Nat
  cores : Nat
  epoch : Nat
  entry : Nat
  lateLimit : Nat
  deadline : Nat

def Record.ofBytes (b : List Byte) : Record :=
  { time := field b 0 12, tag := field b 12 4, kind := field b 16 1, job := field b 17 1, flags := field b 18 1
    reserved := field b 19 1, cores := field b 20 2, epoch := field b 22 2, entry := field b 24 4
    lateLimit := field b 28 2, deadline := field b 30 2 }

/-- How a record came: its master where it has one. -/
inductive LaunchSource
  | firmware | master (m : Nat) | unknown (addr : Nat) | frame (m : Nat)
  deriving DecidableEq, Repr

/-- A record is cross-device (R287). -/
def Record.cross (r : Record) (src : LaunchSource) : Bool :=
  r.flags = 1 || (match src with
    | .frame _ => true
    | .unknown _ => true
    | _ => false)

/-- Logical cores that a record names, and the cores behind them. -/
def Job.coresNamed (x : Job) (cores : Nat) : List Nat := x.logicals.filter (fun i => cores = 0 || bitOf cores i)
def Job.coresBound (x : Job) (cores : Nat) : List Nat :=
  ((x.coresNamed cores).filterMap (fun i => (x.cores.getD i {}).bound)).eraseDups

/-- A slot holds a resident job. -/
def JobSt.resident (st : JobSt) : Bool := st = .ready || st = .running || st = .held || st = .faulted

/-- Check 1: reserved fields, KIND and ranges; ENTRY and CORES against a resident job (R274, R287). -/
def State.recordOk (s : State) (r : Record) : Bool :=
  r.tag != 0 && r.job < 8 &&
  (if r.kind = 2 then r.time = 0 && r.flags = 0 && r.reserved = 0 && r.cores = 0 && r.epoch = 0 && r.entry = 0 &&
      r.lateLimit = 0 && r.deadline = 0
   else r.kind = 1 && r.flags < 2 && r.reserved = 0 && timeValid r.time &&
    (let x := s.job r.job
     !x.st.resident || (r.cores % 2 ^ 16 &&& x.mask = r.cores &&
       (x.coresNamed r.cores).all (fun i => 16 * r.entry < (x.cores.getD i {}).codeBytes))))

/-- The kinds of unit that belong to a core. -/
def onCore (r c : Nat) : Bool :=
  let k := refKind r
  (if k = 2 || k = 8 || k = 9 then refA r = c else k < 10 && refB r = c)

/-- Check 4: a core holds a MIXED unit (R298). -/
def State.mixedOn (s : State) (c : Nat) : Bool := s.units.any (fun u => u.2.mixed && onCore u.1 c)

/-- Check 2: the cores on which the sender lacks LAUNCH (R259). -/
def State.launchLacks (s : State) (src : LaunchSource) (cs : List Nat) : List Nat :=
  match src with
  | .firmware => []
  | .unknown _ => cs
  | .master m => cs.filter (fun c => !has (s.launchRights m c) rightLaunch)
  | .frame m => cs.filter (fun c => !has (s.launchRights m c) rightLaunch)

/-- The checks of R288 from the third on, for a record of cores `cs`. -/
def State.recordRest (s : State) (r : Record) (cross : Bool) (cs : List Nat) : Nat :=
  let x := s.job r.job
  let pending := (s.pendingLaunch r.job r.tag).isSome
  if cross && s.time.lock = .freeRun then stLaunchUnlocked
  else if cs.any s.mixedOn then stLaunchMixed
  else if r.epoch != 0 && r.epoch != s.val 0x2002 1 then stLaunchEpoch
  else if !(s.run.st = .ready || s.run.st = .serving) || s.twin.st = .selfFenced || !(x.st = .ready || x.st = .running) ||
      (r.kind = 2 && !pending) then stJobState
  else if r.kind = 2 then stOk
  else if pending then stLaunchTag
  else if 4096 ≤ s.sched.launches.length then stLaunchFull
  else if r.lateLimit != 0 && timeNs r.time + 1000 * r.lateLimit < s.ns then stLate
  else stOk

/-- A record is refused: counted; what its launch has in the pails is discarded, unless the launch itself still pends. -/
def State.refuseRecord (s : State) (r : Record) : State :=
  let s := s.bump 0x2107 2 1
  if r.kind != 1 || r.tag = 0 || 8 ≤ r.job || (s.pendingLaunch r.job r.tag).isSome ||
      (s.job r.job).step.any (fun x => x.tag = r.tag) then s
  else s.closeLaunch r.job r.tag

/-- An accepted STEP record pends; data that came before it belongs to it. -/
def State.acceptStep (s : State) (r : Record) (cross : Bool) (streams : List (Nat × Nat)) : State :=
  let l : Launch := { time := timeNs r.time, tag := r.tag, job := r.job, cross := cross, cores := r.cores, epoch := r.epoch
                      entry := r.entry, lateLimit := r.lateLimit, deadline := r.deadline, streams := streams }
  let s := { s with sched := { s.sched with
    launches := s.sched.launches ++ [l], closedTags := s.sched.closedTags.filter (fun x => x != (r.job, r.tag)) } }
  (s.adoptOrphans r.job r.tag).bump 0x2107 1 1

/-- A pending record leaves the list. -/
def State.dropLaunch (s : State) (j tag : Nat) : State :=
  { s with sched := { s.sched with launches := s.sched.launches.filter (fun l => !(l.job = j && l.tag = tag)) } }

/-- An accepted CANCEL removes the record of its job and tag, and its pail data (R291). -/
def State.acceptCancel (s : State) (r : Record) : State := ((s.dropLaunch r.job r.tag).closeLaunch r.job r.tag).bump 0x2107 1 1

/-- A record is checked in the order of R288 and accepted or refused: the status and the state. -/
def State.launchRecord (s : State) (r : Record) (src : LaunchSource) (streams : List (Nat × Nat)) : Nat × State :=
  let x := s.job r.job
  let cs := if x.st.resident then x.coresBound r.cores else []
  if src != .firmware && !s.recordOk r then (stReserved, s.refuseRecord r)
  else
    match s.launchLacks src cs with
    | c :: _ =>
      let s := match src with
        | .unknown a => s.denyUnknown a rightLaunch
        | .master m => s.denyEntry (some m) 0x3071 (1 + 4 * c) rightLaunch
        | .frame m => s.denyEntry (some m) 0x3071 (1 + 4 * c) rightLaunch
        | .firmware => s
      (stAccess, s.refuseRecord r)
    | [] =>
      let st := s.recordRest r (r.cross src) cs
      if st != stOk then (st, s.refuseRecord r)
      else if r.kind = 2 then (stOk, s.acceptCancel r)
      else (stOk, s.acceptStep r (r.cross src) streams)

-- arrival (R286)

/-- A LAUNCH request of a ring or a SEND: its record completes with the status of its first failing check. -/
def State.launchRq (r : Rq) (s : State) : State :=
  let x := s.launchRecord (Record.ofBytes ((r.entry.drop 8).take 32)) (.master r.m) []
  x.2.answer r x.1 0

/-- The next request of the rings, if it is a LAUNCH whose record is a CANCEL, or is none. -/
def State.serveLaunch (s : State) (cancel : Bool) : State :=
  match s.takeRequest rqLaunch with
  | (s', none) => s'
  | (s', some (p, q, e)) =>
    if (field e 24 1 = 2) = cancel then State.launchRq { m := 2 + p, ring := some (p, q), entry := e } s' else s

/-- The twin's records are heard while the pair stands (R253, R343, R349). -/
def State.hearsTwin (s : State) : Bool :=
  s.twin.st = .syncing || s.twin.st = .paired || s.twin.st = .suspect || s.twin.st = .linkDown

/-- A record by any path, of one KIND. -/
def State.arriveRecord (s : State) (path : LaunchPath) (cancel : Bool) : State :=
  let mine (b : List Byte) : Bool := (field b 16 1 = 2) = cancel
  match path with
  | .ring => s.serveLaunch cancel
  | .firmware b => if mine b then (s.launchRecord (Record.ofBytes b) .firmware []).2 else s
  | .twin b => if mine b && s.hearsTwin then (s.launchRecord (Record.ofBytes b) (.frame 4) []).2 else s
  | .send m b =>
    if mine b then
      let x := s.launchRecord (Record.ofBytes b) (.master m) []
      x.2.done m none rqLaunch x.1 0 0
    else s

def execLaunchStep (dt : Nat) (path : LaunchPath) (s : State) : Result := .next ((s.elapse dt).arriveRecord path false)
def execLaunchCancel (dt : Nat) (path : LaunchPath) (s : State) : Result := .next ((s.elapse dt).arriveRecord path true)

/-- The header of a launch frame is valid and its length fits (R292). -/
def frameOk (b : List Byte) : Bool :=
  let n := field b 3 1
  field b 0 2 = 0x4C4B && field b 2 1 = 1 && 1 ≤ n && n ≤ 32 && field b 4 4 = 0 && b.length = 8 + 32 * n

/-- From formation until it is SOLO again, the device keeps P120 to P127 for its twin (R323, R328, R349). -/
def State.twinPort (s : State) (n : Nat) : Bool := 120 ≤ n && s.twin.st != .solo

/-- A launch frame on a port in service: dropped whole, or each record checked on its own as the sender's (R254, R292). -/
def State.launchFrame (s : State) (port : Nat) (src : BitVec 128) (dport : Nat) (b : List Byte) : State :=
  let twin := s.twinPort port
  if !(s.unit (portRef port)).works || dport != s.val 0x2106 1 || !s.flag 0x2106 2 || (twin && !s.hearsTwin) then s
  else if !frameOk b then s.bump 0x2107 2 1
  else
    let from_ : LaunchSource := if twin then .frame 4 else
      match s.peerMaster src with
      | some m => .frame m
      | none => .unknown src.toNat
    forRange (field b 3 1) s (fun s i => (s.launchRecord (Record.ofBytes ((b.drop (8 + 32 * i)).take 32)) from_ []).2)

def execLaunchFrame (dt : Nat) (port : Fin 128) (src : BitVec 128) (dport : BitVec 16) (data : List Byte) (s : State) :
    Result :=
  .next ((s.elapse dt).launchFrame port src dport.toNat data)

-- step completions (R237, R364)

/-- A step completion to the job's owner. -/
def State.postStep (s : State) (j status tokens number : Nat) : State :=
  let x := s.job j
  s.postTo x.owner (x.ring.map (fun r => (r.1, r.2 + 8))) (completion 3 status 0 0
    (leBytes 1 j ++ leBytes 1 status ++ [0, 0] ++ leBytes 4 tokens ++ leBytes 8 number))

/-- A record never starts: it leaves the list, its pail data goes, and a step completion without tokens tells (R289). -/
def State.failLaunch (s : State) (l : Launch) (status : Nat) : State :=
  let s := (s.dropLaunch l.job l.tag).closeLaunch l.job l.tag
  let s := s.modJob l.job (fun x => { x with stepNo := x.stepNo + 1 })
  s.postStep l.job status 0 (s.job l.job).stepNo

/-- A step that throttling stretches: σ lies above 1 on a core of it (R294). -/
def State.sigmaMax (s : State) (j : Nat) : Nat × Nat :=
  (s.stepCores j).foldl (fun m c => match (s.core c).step with
    | some x => maxRatio m x.sigmaMax
    | none => m) (1, 1)
def above1 (r : Nat × Nat) : Bool := r.2 < r.1

/-- A record's lateness counts against its limit, unless Kelig time stepped or a stretched step is what it waits for
(R279, R294). -/
def State.lateCounts (s : State) (l : Launch) : Bool :=
  !l.excused && !l.stretched && !((s.job l.job).step.isSome && above1 (s.sigmaMax l.job))

/-- A pending record is beyond its LATE_LIMIT. -/
def State.tooLate (s : State) (l : Launch) : Bool :=
  l.lateLimit != 0 && l.time + 1000 * l.lateLimit < s.ns && s.lateCounts l

/-- LAUNCH_LATE: a waiting record is abandoned with LATE (R289, R488). -/
def State.launchLate (s : State) (j tag : Nat) : State :=
  match s.pendingLaunch j tag with
  | none => s
  | some l =>
    if s.tooLate l then ((s.bump 0x2107 6 1).raise 0x0115 0 (j + stLate * 256)).failLaunch l stLate else s

def execLaunchLate (dt : Nat) (job : Fin 8) (tag : BitVec 32) (s : State) : Result :=
  .next ((s.elapse dt).launchLate job tag.toNat)

/-- STEP_DEADLINE: a step that still runs at its stretched deadline is abandoned with LATE (R294). -/
def State.stepDeadline (s : State) (j : Nat) : State :=
  match (s.job j).step with
  | none => s
  | some r =>
    let m := s.sigmaMax j
    if r.deadline = 0 || r.stopped != 0 || (s.ns - r.launch) * m.2 < r.deadline * 100000 * m.1 then s
    else
      let s := s.modJob j (fun x => { x with step := x.step.map (fun y => { y with
        worst := if y.worst = 0 || worse y.worst stLate then stLate else y.worst }) })
      (s.bump 0x2107 6 1).stopStep j 3 stLate r.failAddr

def execStepDeadline (dt : Nat) (job : Fin 8) (s : State) : Result := .next ((s.elapse dt).stepDeadline job)

/-- On entry into FREE-RUN every pending cross-device record is refused and its pail data discarded (R291). -/
def State.refuseCross (s : State) : State :=
  (s.sched.launches.filter (fun l => l.cross)).foldl (fun s l =>
    (s.bump 0x2107 2 1).failLaunch l stLaunchUnlocked) s

end Sys2Proof.Machine
end

