-- ==== Sys2Proof/Machine/Ports.lean ====
section
/-! DEFINITION. Fabric ports: their states, commands, groups and slots, and the reserved buffer (R303 to R312, R315). -/

namespace Sys2Proof.Machine

/-- The object of a port (R325). -/
def portIdx (n : Nat) : Nat := 0x2400 + n

/-- A cartridge's fabric light is there: it is latched and has not been fenced or taken out (R303, R413, R477). -/
def State.fabricLight (s : State) (n : Nat) : Bool :=
  let l := n / 16
  let u := s.unit (cartRef l)
  (s.cart l).latch = 1 && !(u = .fenced || u = .repair || u = .retired)

/-- A port is a member of its groups in SERVING alone, while no command withdraws it and no twin claims it (R305, R306, R323). -/
def State.inGroups (s : State) (n : Nat) : Bool :=
  s.unit (portRef n) = .serving && (s.port n).draining = 0 && !s.twinPort n

/-- A port that was in its groups leaves them, or one joins them: counted (R310). -/
def State.countReroute (s : State) (was is : Bool) : State := s.bump 0x2300 0x1B (if was = is then 0 else 1)

/-- Frames queued on a port for its egress. -/
def Port.queued (p : Port) : Nat := (p.egress.map (fun q => q.2.length)).sum

/-- What goes with a port that leaves service: queues, pauses, occupancy, link (R310). -/
def Port.cleared (p : Port) (now : Nat) (light : Bool) : Port :=
  { p with
    egress := [], deficits := [], ingress := [], headroom := [], pausing := [], paused := [], storm := [], draining := 0
    link := false, resolved := false, solicitAt := none, speed := 0, since := now, light := light }

/-- A port enters a state in which it does not forward: it leaves its groups and its frames are dropped (R305, R310). -/
def State.portOut (s : State) (n : Nat) (st : UnitSt) : State :=
  let was := s.inGroups n
  let drops := (s.port n).queued
  let light := if st = .offline || st = .retired then false else s.fabricLight n
  let s := (s.bump (portIdx n) 0x12 drops).modPort n (fun p => p.cleared s.up light)
  let s := (s.modUnit (portRef n) (fun u => { u with command := 0 })).setUnit (portRef n) st
  s.countReroute was false

/-- A port enters STARTING (R305). -/
def State.portStart (s : State) (n : Nat) : State :=
  (s.modPort n (fun p => { p with
    link := false, resolved := false, solicitAt := none, since := s.up, light := s.fabricLight n })).putUnit (portRef n) .starting

/-- ENABLE: an OFFLINE port starts. -/
def State.portEnable (s : State) (n : Nat) : State :=
  (s.portStart n).modUnit (portRef n) (fun u => { u with command := 1 })

-- commands (R306, R307)

/-- Fields of Port Command. -/
def pcPort (w : Nat) : Nat := w % 256
def pcCmd (w : Nat) : Nat := w / 256 % 256
def pcTarget (w : Nat) : Nat := w / 65536 % 256

/-- Reserved fields are 0 and the port exists; TARGET is REMAP's alone. -/
def pcClean (w : Nat) : Bool := pcPort w < 128 && w / 0x1000000 = 0 && (pcCmd w = 4 || pcTarget w = 0)

/-- A command may be taken: the word is clean, no command is in progress but for DISABLE, and the port is not the twin's but for
RETRAIN. -/
def State.pcMay (s : State) (w : Nat) : Bool :=
  pcClean w && ((tget s.units (portRef (pcPort w))).command = 0 || pcCmd w = 2) && (!s.twinPort (pcPort w) || pcCmd w = 3)

/-- A drain ends: what remains is dropped, and the port takes the state of its command. -/
def State.portDrained (s : State) (n cmd : Nat) : State :=
  if cmd = 2 then s.portOut n .offline
  else if cmd = 3 then
    (s.portOut n .repair).modUnit (portRef n) (fun u => { u with command := 3 })
  else (s.portOut n .retired).modUnit (portRef n) (fun u => { u with retiredNv := true })

/-- DISABLE, RETRAIN and RETIRE withdraw the port and let its queues drain; with none queued they end at once. -/
def State.portDrain (s : State) (n cmd : Nat) : State :=
  if (s.port n).queued = 0 then s.portDrained n cmd
  else
    let was := s.inGroups n
    let s := s.modPort n (fun p => { p with draining := cmd, drainAt := s.up })
    (s.modUnit (portRef n) (fun u => { u with command := cmd })).countReroute was false

-- groups (R311, R312)

/-- The members of a group as its bitmap lists them, and in the order of its base fill. -/
def Fabric.bitmap (f : Fabric) (g : Nat) : Nat := field f.groups (16 * g) 16
def Fabric.members (f : Fabric) (g : Nat) : List Nat :=
  match tfind f.order g with
  | some l => l
  | none => (List.range 128).filter (fun n => bitOf (f.bitmap g) n)
def Fabric.groupCount (f : Fabric) : Nat := f.groups.length / 16

/-- The member that a slot of a group goes to: its base member, or the next SERVING one in turn; none without any (R312). -/
def State.slotMember (s : State) (g slot : Nat) : Option Nat :=
  let ms := s.fabric.members g
  let live := (List.range 128).filter (fun n => n ∈ ms && s.inGroups n)
  let base (i : Nat) : Nat := ms.getD (i % ms.length) 0
  if live.isEmpty then none
  else if s.inGroups (base slot) then some (base slot)
  else
    let before := ((List.range slot).filter (fun i => !s.inGroups (base i))).length
    live[before % live.length]?

/-- REMAP in one group: Q takes P's place and slots. -/
def Fabric.remap (f : Fabric) (p q g : Nat) : Fabric :=
  if !bitOf (f.bitmap g) p then f
  else
    let v := f.bitmap g - 2 ^ p + 2 ^ q
    { f with
      order := tset f.order g ((f.members g).map (fun n => if n = p then q else n))
      groups := f.groups.take (16 * g) ++ leBytes 16 v ++ f.groups.drop (16 * g + 16) }

/-- Q may take P's place (R306). -/
def State.mayRemap (s : State) (p q : Nat) : Bool :=
  let u := s.unit (portRef q)
  q < 128 && q != p && u != .offline && u != .retired &&
  (List.range s.fabric.groupCount).all (fun g => !(bitOf (s.fabric.bitmap g) p && bitOf (s.fabric.bitmap g) q))

-- the reserved buffer (R315)

/-- PFC headroom in bytes: 10 ns for each metre and 1,200 ns at the port's speed, and two frames. -/
def headroomOf (cable frame speed : Nat) : Nat := (10 * cable + 1200) * (if speed = 2 then 50 else 100) + 2 * frame

/-- The speed that counts for a port's headroom: its setting, else what was detected. -/
def State.headSpeed (s : State) (setting n : Nat) : Nat := if setting != 0 then setting else (s.port n).speed

/-- Bytes that one port reserves. -/
def portReserve (cable frame speed map : Nat) : Nat :=
  8 * frame + ((List.range 8).filter (fun c => bitOf map c)).length * headroomOf cable frame speed

/-- Bytes reserved in all, under values that a write would leave in force: `f` reads them; `more` is a port that would come out
of retirement. -/
def State.reservedWith (s : State) (f : Nat → Nat → Nat) (more : Option Nat) : Nat :=
  ((List.range 128).map (fun n =>
    if s.unit (portRef n) = .retired && more != some n then 0
    else portReserve (f (portIdx n) 4) (f 0x2300 0xA) (s.headSpeed (f (portIdx n) 2) n) (f 0x2300 7))).sum

/-- The limit of the reserved total, 192 MiB. -/
def reserveLimit : Nat := 192 * 2 ^ 20
def State.reserved (s : State) : Nat := s.reservedWith s.val none

-- the acts of Port Command

def State.portEnableAct (w : Nat) (s : State) : Nat × State :=
  if !s.pcMay w || s.unit (portRef (pcPort w)) != .offline then refuse abState s else accept (s.portEnable (pcPort w))
def State.portDisableAct (w : Nat) (s : State) : Nat × State :=
  if !s.pcMay w || s.unit (portRef (pcPort w)) = .retired then refuse abState s else accept (s.portDrain (pcPort w) 2)
def State.portRetrainAct (w : Nat) (s : State) : Nat × State :=
  let u := s.unit (portRef (pcPort w))
  if !s.pcMay w || !(u = .ready || u = .serving || u = .fenced) then refuse abState s else accept (s.portDrain (pcPort w) 3)
def State.portRemapAct (w : Nat) (s : State) : Nat × State :=
  if !s.pcMay w || !s.mayRemap (pcPort w) (pcTarget w) then refuse abState s
  else accept { s with fabric := (List.range s.fabric.groupCount).foldl (fun f g => f.remap (pcPort w) (pcTarget w) g) s.fabric }
def State.portRetireAct (w : Nat) (s : State) : Nat × State :=
  if !s.pcMay w || s.unit (portRef (pcPort w)) = .retired then refuse abState s else accept (s.portDrain (pcPort w) 5)
/-- UNRETIRE: refused where the reserved buffer would pass its limit (R315, R326). -/
def State.portUnretireAct (w : Nat) (s : State) : Nat × State :=
  let n := pcPort w
  if !s.pcMay w || s.unit (portRef n) != .retired then refuse abState s
  else if reserveLimit < s.reservedWith s.val (some n) then refuse abRange s
  else accept ((s.modUnit (portRef n) (fun u => { u with retiredNv := false })).putUnit (portRef n) .offline)

/-- Any Port Command word; a reserved CMD is refused. -/
def State.portCommandAct (w : Nat) (s : State) : Nat × State :=
  match pcCmd w with
  | 1 => s.portEnableAct w
  | 2 => s.portDisableAct w
  | 3 => s.portRetrainAct w
  | 4 => s.portRemapAct w
  | 5 => s.portRetireAct w
  | 6 => s.portUnretireAct w
  | _ => refuse abState s

/-- A Port Command of one CMD. -/
def State.portRow (s : State) (road : Road) (w cmd : Nat) (act : Nat → State → Nat × State) : State :=
  if pcCmd w = cmd then s.writeRow road 0x2300 0x16 (leBytes 4 w) (act w) else s

def execPortEnable (dt : Nat) (road : Road) (word : BitVec 32) (s : State) : Result :=
  .next ((s.elapse dt).portRow road word.toNat 1 State.portEnableAct)
def execPortDisable (dt : Nat) (road : Road) (word : BitVec 32) (s : State) : Result :=
  .next ((s.elapse dt).portRow road word.toNat 2 State.portDisableAct)
def execPortRetrain (dt : Nat) (road : Road) (word : BitVec 32) (s : State) : Result :=
  .next ((s.elapse dt).portRow road word.toNat 3 State.portRetrainAct)
def execPortRemap (dt : Nat) (road : Road) (word : BitVec 32) (s : State) : Result :=
  .next ((s.elapse dt).portRow road word.toNat 4 State.portRemapAct)
def execPortRetire (dt : Nat) (road : Road) (word : BitVec 32) (s : State) : Result :=
  .next ((s.elapse dt).portRow road word.toNat 5 State.portRetireAct)
def execPortUnretire (dt : Nat) (road : Road) (word : BitVec 32) (s : State) : Result :=
  .next ((s.elapse dt).portRow road word.toNat 6 State.portUnretireAct)

/-- PORT_EGRESS_DRAIN_END: the queues are empty, or 100 us have passed. -/
def State.egressDrainEnd (s : State) (n : Nat) : State :=
  let p := s.port n
  if p.draining = 0 || (p.queued != 0 && s.up < p.drainAt + 100 * usPs) then s else s.portDrained n p.draining

def execPortEgressDrainEnd (dt : Nat) (port : Fin 128) (s : State) : Result := .next ((s.elapse dt).egressDrainEnd port)

-- training (R305, R308)

/-- A port trains in STARTING and in REPAIR. -/
def State.training (s : State) (n : Nat) : Bool := s.unit (portRef n) = .starting || s.unit (portRef n) = .repair

/-- Link and neighbour are there: READY. -/
def State.portUp (s : State) (n : Nat) : State :=
  let p := s.port n
  if s.training n && p.link && p.resolved then
    ((s.modPort n (fun p => { p with since := s.up })).modUnit (portRef n) (fun u => { u with command := 0 })).setUnit (portRef n) .ready
  else s

/-- PORT_LINK_UP at 800 (0) or 400 (1) Gb/s: a forced speed meets no other. -/
def State.linkUp (s : State) (n speed : Nat) : State :=
  let set := s.val (portIdx n) 2
  if !s.training n || (set != 0 && set != speed + 1) then s
  else (s.modPort n (fun p => { p with link := true, speed := speed + 1 })).portUp n

def execPortLinkUp (dt : Nat) (port : Fin 128) (speed : Fin 2) (s : State) : Result := .next ((s.elapse dt).linkUp port speed)

/-- NEIGHBOUR_SOLICIT: every 1 ms until the neighbour has answered; by ARP when the device has an IPv4 address alone. -/
def State.solicit (s : State) (n : Nat) : State :=
  let p := s.port n
  let due := match p.solicitAt with
    | none => true
    | some t => t + msPs ≤ s.up
  if !s.training n || p.resolved || !due then s
  else (s.modPort n (fun p => { p with solicitAt := some s.up })).emit
    (.solicit n (!(s.val 0x2300 2 = 0 && s.val 0x2300 3 != 0)))

def execNeighbourSolicit (dt : Nat) (port : Fin 128) (s : State) : Result := .next ((s.elapse dt).solicit port)

/-- NEIGHBOUR_ANSWER: the first answer's MAC is the neighbour's. -/
def State.neighbourIs (s : State) (n mac : Nat) : State :=
  if !s.training n || (s.port n).resolved then s
  else (s.modPort n (fun p => { p with resolved := true, neighbour := mac })).portUp n

def execNeighbourAnswer (dt : Nat) (port : Fin 128) (mac : BitVec 48) (s : State) : Result :=
  .next ((s.elapse dt).neighbourIs port mac.toNat)

/-- PORT_TRAINING_TIMEOUT: 500 ms without a link; training starts again. -/
def State.trainingTimeout (s : State) (n : Nat) : State :=
  if !s.training n || s.up < (s.port n).since + 500 * msPs then s
  else (s.bump (portIdx n) 0xC 1).modPort n (fun p => { p with
    link := false, resolved := false, solicitAt := none, since := s.up })

def execPortTrainingTimeout (dt : Nat) (port : Fin 128) (s : State) : Result := .next ((s.elapse dt).trainingTimeout port)

/-- PORT_FLAP_HOLD: the link has held for Flap Hold; the port serves and rejoins its groups. -/
def State.flapHold (s : State) (n : Nat) : State :=
  if s.unit (portRef n) != .ready || s.up < (s.port n).since + s.val 0x2300 0x14 * msPs then s
  else
    let s := (s.modPort n (fun p => { p with since := s.up })).setUnit (portRef n) .serving
    s.countReroute false (s.inGroups n)

def execPortFlapHold (dt : Nat) (port : Fin 128) (s : State) : Result := .next ((s.elapse dt).flapHold port)

-- loss (R309)

/-- A port is up: READY or SERVING. -/
def State.portWorks (s : State) (n : Nat) : Bool := (s.unit (portRef n)).works

/-- Loss of signal on a port. -/
def State.losOn (s : State) (n : Nat) : State :=
  if !s.portWorks n then s else ((s.bump (portIdx n) 0xB 1).raise 0x0401 (portRef n) 0).portOut n .fenced

/-- PORT_LOS: a wavelength below -10.0 dBm, or FEC alignment lost. -/
def State.portLos (s : State) (n : Nat) (cause : LosCause) : State :=
  match cause with
  | .rxPower d => if d < -1000 then s.losOn n else s
  | .fecAlignment => s.losOn n

def execPortLos (dt : Nat) (port : Fin 128) (cause : LosCause) (s : State) : Result := .next ((s.elapse dt).portLos port cause)

/-- PORT_DEGRADED: the pre-FEC BER, in 10^-9, has stayed above the threshold for 10 ms. -/
def State.portDegraded (s : State) (n ber : Nat) : State :=
  if !s.portWorks n || ber ≤ 1000 * s.val 0x2300 0x15 then s
  else ((s.setVal (portIdx n) 8 ber).raise 0x0402 (portRef n) ber).portOut n .fenced

def execPortDegraded (dt : Nat) (port : Fin 128) (ber : BitVec 32) (s : State) : Result :=
  .next ((s.elapse dt).portDegraded port ber.toNat)

/-- LOCAL_OR_REMOTE_FAULT: the port is FENCED (R305). -/
def execLocalOrRemoteFault (dt : Nat) (port : Fin 128) (s : State) : Result :=
  let s := s.elapse dt
  .next (if s.portWorks port then s.portOut port .fenced else s)

/-- PORT_LIGHT_RETURN: light and signal are back on a FENCED port. -/
def execPortLightReturn (dt : Nat) (port : Fin 128) (s : State) : Result :=
  let s := s.elapse dt
  .next (if s.unit (portRef port) = .fenced && s.fabricLight port then s.portStart port else s)

/-- A cartridge's ports, and their withdrawal when its light is about to go (R309, R477). -/
def cartPorts (l : Nat) : List Nat := (List.range 16).map (fun i => 16 * l + i)
def State.withdrawPorts (s : State) (l : Nat) : State :=
  (cartPorts l).foldl (fun s n => if s.portWorks n || s.training n then s.portOut n .fenced else s) s

/-- The light of a cartridge is lost without warning: each of its ports declares it (R309). -/
def State.lightLost (s : State) (l : Nat) : State :=
  (cartPorts l).foldl (fun s n => (s.losOn n).modPort n (fun p => { p with light := false })) s

end Sys2Proof.Machine
end

