-- ==== Sys2Proof/Machine/Converters.lean ====
section
/-! DEFINITION. DAC channels, their delivery and slewing, the sine generators, and the monitor ADCs (R422 to R448), with what a
loop's slot fixes of the loop (R399, R419). -/

namespace Sys2Proof.Machine

-- what a slot fixes (R399)

/-- Type code of a loop slot. -/
def loopType (slot : Nat) : Nat :=
  if slot < 544 then 1 else if slot < 1088 then 2 else if slot < 1122 then 3 else if slot < 1124 then 4
  else if slot < 1140 then 5 else if slot = 1140 then 6 else if slot < 1145 then 7 else 0

/-- The loop computes every 100 us; the others every 1 ms. -/
def fastLoop (slot : Nat) : Bool := let t := loopType slot
  t = 1 || t = 2 || t = 5

/-- The essential unit of a loop on a core. -/
def essentialUnit (c slot : Nat) : Nat :=
  match loopType slot with
  | 1 => engineRef c (slot / 16)
  | 2 => engineRef c ((slot - 544) / 16)
  | 3 => engineRef c (slot - 1088)
  | 5 => cartRef (c / 2)
  | 6 => cartRef (c / 2)
  | _ => coreRef c

/-- A loop that has not been configured: its type, the output that R399 and R424 give its slot, LOCK_COUNT 1; every other field
0 (DESIGN CHOICE, log entry 3). -/
def loopDefault (slot : Nat) : Nat :=
  let t := loopType slot
  let out := if t = 1 || t = 2 then slot else if t = 3 then 0x1000 + (slot - 1088) else if slot = 1122 then 0x1022
    else if slot = 1123 then 1108 else if t = 5 || t = 6 then 0xFFFF else 1104 + (slot - 1141)
  t + out * 2 ^ 16 + 2 ^ 384

/-- The configuration record in force, and its fields (R419). -/
def Loop.record (l : Loop) (slot : Nat) : Nat := if l.config = 0 then loopDefault slot else l.config
def rec8 (r off n : Nat) : Nat := r >>> (8 * off) % 2 ^ (8 * n)
def lcFlag (r bit : Nat) : Bool := bitOf (rec8 r 1 1) bit
def lcOut (r : Nat) : Nat := rec8 r 2 2
def lcSource (r : Nat) : Nat := rec8 r 4 4
def lcF32 (r off : Nat) : F32 := BitVec.ofNat 32 (rec8 r off 4)
def lcLockCount (r : Nat) : Nat := rec8 r 48 2

/-- KIND, GEN and INDEX of a feedback source (R402). -/
def fbKind (w : Nat) : Nat := w / 2 ^ 28
def fbGen (w : Nat) : Nat := w / 65536 % 4096
def fbIndex (w : Nat) : Nat := w % 65536

/-- The channels that a loop drives (R399, R405, R419). -/
def loopChannels (r slot : Nat) : List Nat :=
  if loopType slot = 5 then [1088 + (slot - 1124)]
  else if loopType slot = 6 then (List.range 16).map (fun k => 1088 + k)
  else if lcOut r / 4096 = 0 then [lcOut r % 4096] else []

/-- A loop of a core. -/
def LoopCore.loop (k : LoopCore) (slot : Nat) : Loop := tget k.loops slot
def LoopCore.modLoop (k : LoopCore) (slot : Nat) (f : Loop → Loop) : LoopCore := { k with loops := tmod k.loops slot f }
def State.loop (s : State) (c slot : Nat) : Loop := (s.loopCore c).loop slot
def State.modLoop (s : State) (c slot : Nat) (f : Loop → Loop) : State := s.modLoops c (fun k => k.modLoop slot f)

/-- The states of the loops of a core that drive a channel, those in OFF apart (an unlisted loop is OFF). -/
def State.channelLoops (s : State) (c ch : Nat) : List (Nat × LoopSt) :=
  (s.loopCore c).loops.filterMap (fun l =>
    if l.2.st != .off && ch ∈ loopChannels (l.2.record l.1) l.1 then some (l.1, l.2.st) else none)

/-- The core that hosts its cartridge's loops: the even one, unless the odd one has taken them (R400). -/
def State.hostsLoops (s : State) (c : Nat) : Bool :=
  if c % 2 = 0 then !(s.loopCore (c + 1)).hosting else (s.loopCore c).hosting

-- channels (R424 to R427)

/-- SPAN at cold reset, whether the channel has a driver, and its group (R424). -/
def resetSpan (ch : Nat) : Nat := if ch < 544 then 1 else if ch < 1088 then 2 else if ch < 1108 then 1 else if ch = 1108 then 0 else 3
def armable (ch : Nat) : Bool := ch < 544 || (1088 ≤ ch && ch < 1108)
def groupOf (ch : Nat) : Nat := ch / 32
def laserChannel (ch : Nat) : Bool := 1088 ≤ ch && ch < 1104

/-- The record of a channel that has not been configured (R428): no generator, no slew limit, no narrower limits. -/
def channelDefault (ch : Nat) : Nat := resetSpan ch + 0xFF * 2 ^ 8 + 2 ^ 48 + 0xFFFF * 2 ^ 80

/-- The record in force, and its fields (R445). -/
def Channel.record (x : Channel) (ch : Nat) : Nat := x.config.getD (channelDefault ch)
def ccSpan (r : Nat) : Nat := r % 4
def ccGen (r : Nat) : Nat := rec8 r 1 1
def ccPilot (r : Nat) : Nat := rec8 r 2 2
def ccStep (r : Nat) : Nat := rec8 r 4 2
def ccPeriod (r : Nat) : Nat := rec8 r 6 2
def ccLow (r : Nat) : Nat := rec8 r 8 2
def ccHigh (r : Nat) : Nat := rec8 r 10 2

/-- The zero-output code of a span (R425). -/
def zeroCode (span : Nat) : Nat := if span < 2 then 0 else 0x8000

/-- A channel of a core, a change of it, and a group. -/
def Converters.channel (k : Converters) (ch : Nat) : Channel := tget k.channels ch
def Converters.modChannel (k : Converters) (ch : Nat) (f : Channel → Channel) : Converters :=
  { k with channels := tmod k.channels ch f }
def Converters.group (k : Converters) (g : Nat) : DacGroup := tget k.groups g
def Converters.modGroup (k : Converters) (g : Nat) (f : DacGroup → DacGroup) : Converters := { k with groups := tmod k.groups g f }
def State.channel (s : State) (c ch : Nat) : Channel := (s.conv c).channel ch
def State.modChannel (s : State) (c ch : Nat) (f : Channel → Channel) : State := s.modConv c (fun k => k.modChannel ch f)

/-- A code is delivered to a channel: TARGET, within its limits (R426). -/
def Channel.deliver (x : Channel) (ch code : Nat) : Channel :=
  let r := x.record ch
  { x with target := max (ccLow r) (min (ccHigh r) code), faultValue := false }

/-- The fault value (R429). -/
def Channel.faulted (x : Channel) (ch : Nat) : Channel :=
  { x with target := 0x8000, output := 0x8000, armed := if armable ch then false else x.armed, faultValue := true, wait := 0
           faultNext := false, armNext := none, held := none }

/-- A group takes no write: it is FENCED or OFFLINE (R448). -/
def State.groupOut (s : State) (c g : Nat) : Bool := let u := s.unit (dacRef c g)
  u = .fenced || u = .offline

/-- A cartridge's channel on the core that stands by (R437). -/
def State.standsBy (s : State) (c ch : Nat) : Bool := laserChannel ch && !s.hostsLoops c

-- generators (R434)

/-- The value of a generator, and a quarter cycle later, in 1/32,767. -/
def Generator.sine (g : Generator) : Int := if g.enable then sineAt (g.acc / 2 ^ 22) else 0
def Generator.cosine (g : Generator) : Int := if g.enable then sineAt (g.acc / 2 ^ 22 + 256) else 0

/-- One tick: a write that waits applies at a frame start; else the accumulator moves on. -/
def Generator.tick (g : Generator) (frameStart : Bool) : Generator :=
  match (if frameStart then g.next else none) with
  | some (f, p, e) => { g with ftw := f, phase := p, enable := e, acc := p, next := none }
  | none => { g with acc := (g.acc + g.ftw) % 2 ^ 32 }

/-- A quotient to the nearest integer, ties away from zero (R116). -/
def roundInt (n : Int) (d : Nat) : Int := if n < 0 then -(roundDiv n.natAbs d : Int) else roundDiv n.natAbs d

/-- What a converter receives: OUTPUT and the pilot term, and whether the sum clipped (R433, R436). -/
def Channel.codeNow (x : Channel) (ch : Nat) (gens : Tbl Generator) : Nat × Bool :=
  let r := x.record ch
  let acts := ccGen r < 64 && x.spanAt.isNone && (!armable ch || x.armed)
  let p : Int := if acts then roundInt (ccPilot r * (tget gens (ccGen r)).sine) 32767 else 0
  let v : Int := x.output + p
  if v < 0 then (0, true) else if 65535 < v then (65535, true) else (v.toNat, false)

/-- What a tick does to a channel before its code goes out: fault value, arming, configuration, a held write at a strobe. -/
def Channel.tick (x : Channel) (ch : Nat) (strobe fenced : Bool) (now : Nat) : Channel :=
  let x := if x.faultNext || fenced then x.faulted ch else x
  let x := match x.armNext with
    | none => x
    | some true =>
      let z := zeroCode (ccSpan (x.record ch))
      { x with target := z, output := z, armed := true, faultValue := false, driverFault := false, armNext := none, wait := 0 }
    | some false => { x with armed := false, armNext := none }
  let x := match x.configNext with
    | none => x
    | some r =>
      if ccSpan r = ccSpan (x.record ch) then { x with config := some r, configNext := none }
      else { x with config := some r, configNext := none, output := 0x8000, spanAt := some now }
  let x := match (if strobe then x.held else none) with
    | some v => { x.deliver ch v with held := none }
    | none => x
  { x with wait := x.wait - 1 }

-- ADCs (R438 to R443)

/-- The code of an input voltage in uV, whether it was clamped, and whether the rail comparator flags it (R440). -/
def adcCode (uv : Int) : Nat × Bool × Bool :=
  let x := uv * 65536 / 2500000
  (if x < 0 then 0 else if 65535 < x then 65535 else x.toNat, uv < 0 || 2500000 ≤ uv, uv < -300000 || 2800000 < uv)

/-- The name of a source while it is formed: its word, and for a 1 ms loop the frame in which its period ends. -/
def demodKey (word slot : Nat) : Nat := word + (if fastLoop slot then 0 else (slot % 10 + 1) * 2 ^ 32)

/-- A conversion takes part in the sources that it belongs to (R441). -/
def Converters.demodulate (k : Converters) (keys : List (Nat × Nat)) (input code : Nat) : Converters :=
  keys.foldl (fun k x =>
    if fbIndex x.2 = input && fbKind x.2 < 3 then
      let g := tget k.generators (fbGen x.2)
      { k with demods := tmod k.demods x.1 (fun d => {
          n := d.n + 1, sum := d.sum + code, inPhase := d.inPhase + code * g.sine, quadrature := d.quadrature + code * g.cosine }) }
    else k) k

/-- The sources that the loops of a core name: key and word. -/
def LoopCore.sources (l : LoopCore) : List (Nat × Nat) :=
  (l.loops.map (fun x => let w := lcSource (x.2.record x.1)
    (demodKey w x.1, w))).eraseDups

/-- The entries of the ADC object of a core. -/
def adcIdx (c : Nat) : Nat := 0x6300 + c
def dacIdx (c : Nat) : Nat := 0x6200 + c
def loopIdx (c : Nat) : Nat := 0x6100 + c

/-- The inputs that the wheel records (R443). -/
def State.wheelInputs (s : State) (c : Nat) : List Nat :=
  (List.range 16).map (fun i => s.val (adcIdx c) 6 / 2 ^ (16 * i) % 65536)

/-- A record is written to the wheel; under MODE 1 the last one stops it. -/
def State.wheelRecord (s : State) (c scan input code : Nat) (ovr recovery : Bool) : State :=
  let ctl := s.val (adcIdx c) 7
  if !bitOf ctl 0 || (s.conv c).wheelArmed || input ∉ s.wheelInputs c then s
  else
    let bs := leBytes 4 scan ++ leBytes 2 (input + (if recovery then 0x4000 else 0) + (if ovr then 0x8000 else 0)) ++ leBytes 2 code
    let w := (s.conv c).wheel ++ [bs]
    let s := s.modConv c (fun k => { k with wheel := w.drop (w.length - 8192), wheelPos := k.wheelPos + 1 })
    if bitOf ctl 1 && (s.conv c).wheelPos = 8192 then (s.setVal (adcIdx c) 7 (ctl - 1)).setVal (adcIdx c) 0xA 1 else s

/-- One conversion: code, flags, recovery, sources and wheel. -/
def State.convert (s : State) (c v slot scan : Nat) (uv : Int) : State :=
  let input := 8 * v + slot
  let r := adcCode uv
  let left := (tget (s.conv c).adcs v).recovery
  let recovery := left != 0
  let s := s.modConv c (fun k =>
    let k := { k with codes := tset k.codes input r.1
                      adcs := tmod k.adcs v (fun a => { a with recovery := if r.2.2 then 3 else left - 1 }) }
    if recovery then k else k.demodulate (s.loopCore c).sources input r.1)
  let s := if r.2.1 then
      (s.setVal (adcIdx c) 3 (s.val (adcIdx c) 3 ||| 2 ^ input)).bump (adcIdx c) 4 1 else s
  let s := if recovery then s.bump (adcIdx c) 5 1 else s
  s.wheelRecord c scan input r.1 r.2.1 recovery

/-- The reference conversion of a scan: how far it lies from its trimmed value, in LSB (R442). -/
def Adc.reference (a : Adc) (dev : Int) : Adc := { a with badRefs := if 64 < dev.natAbs then a.badRefs + 1 else 0 }

/-- CONVERTER_TICK: `volts` are the voltages at the 68 converters and the two of the cartridge, in uV, `references` the errors of
their reference codes. -/
def State.converterTick (s : State) (c : Nat) (volts references : List Int) : State :=
  if (s.core c).supply = 0 || s.ns % 500 != 0 then s
  else
    let slot := s.ns / 500 % 8
    let scan := s.ns / 4000 % 2 ^ 32
    let frameStart := s.ns % 100000 = 0
    let k := s.conv c
    let k := { k with
      generators := k.generators.map (fun (g : Nat × Generator) => (g.1, g.2.tick frameStart))
      wheelArmed := if slot = 0 then false else k.wheelArmed
      channels := k.channels.map (fun (x : Nat × Channel) => (x.1, x.2.tick x.1 ((k.group (groupOf x.1)).strobe) (decide (s.unit (dacRef c (groupOf x.1)) = UnitSt.fenced)) s.up))
      groups := k.groups.map (fun (g : Nat × DacGroup) => (g.1, { g.2 with
        strobe := false, ticks := if g.2.queueMode then g.2.ticks + 1 else 0 })) }
    let clips := (k.channels.filter (fun x => (x.2.codeNow x.1 k.generators).2)).length
    let k := { k with channels := k.channels.map (fun (x : Nat × Channel) =>
      let v := x.2.codeNow x.1 k.generators
      (x.1, { x.2 with code := v.1, clipped := v.2 })) }
    let s := (s.modConv c (fun _ => k)).bump (dacIdx c) 0xD clips
    let s := forRange 70 s (fun s v => if v < 68 && (s.unit (adcRef c v)).out then s else s.convert c v slot scan (volts.getD v 0))
    if slot = 7 then
      s.modConv c (fun k => { k with adcs := (List.range 68).foldl (fun t v =>
        tmod t v (fun a => a.reference (references.getD v 0))) k.adcs })
    else s

def execConverterTick (dt : Nat) (core : Fin 16) (volts references : List Int) (s : State) : Result :=
  .next ((s.elapse dt).converterTick core volts references)

-- slewing, queues, spans (R431, R432, R436)

/-- SLEW_MOVE: OUTPUT moves toward TARGET by up to SLEW_STEP codes; 0 moves it all the way. -/
def Channel.move (x : Channel) (ch : Nat) (gens : Tbl Generator) : Channel :=
  let r := x.record ch
  let gap := if x.output < x.target then x.target - x.output else x.output - x.target
  let d := if ccStep r = 0 then gap else min gap (ccStep r)
  let out := if x.output < x.target then x.output + d else x.output - d
  let x := { x with output := out, wait := if out = x.target then 0 else ccPeriod r }
  { x with code := (x.codeNow ch gens).1 }

def State.slewMove (s : State) (c ch : Nat) : State :=
  let x := s.channel c ch
  if s.ns % 500 != 0 || x.output = x.target || x.spanAt.isSome || x.wait != 0 then s
  else s.modConv c (fun k => k.modChannel ch (fun x => x.move ch k.generators))

def execSlewMove (dt : Nat) (core : Fin 16) (channel : Fin 1120) (s : State) : Result :=
  .next ((s.elapse dt).slewMove core channel)

/-- QUEUE_TICK: the oldest frame of a QUEUE group is delivered, or an underrun counts, and warns once in a run. -/
def State.queueTick (s : State) (c g : Nat) : State :=
  let x := (s.conv c).group g
  if s.ns % 500 != 0 || !x.queueMode || x.ticks < x.period || s.groupOut c g then s
  else
    match x.queue with
    | [] =>
      let s := (s.bump (dacIdx c) 0xB 1).modConv c (fun k => k.modGroup g (fun x => { x with ticks := 0, underrun := true }))
      if x.underrun then s else s.raise 0x0606 (dacRef c g) 0
    | f :: rest => s.modConv c (fun k =>
        (List.range 32).foldl (fun k i => k.modChannel (32 * g + i) (fun y => y.deliver (32 * g + i) (f.getD i 0)))
          (k.modGroup g (fun x => { x with ticks := 0, underrun := false, queue := rest })))

def execQueueTick (dt : Nat) (core : Fin 16) (group : Fin 35) (s : State) : Result := .next ((s.elapse dt).queueTick core group)

/-- SPAN_CHANGE_END: 10 us after the change. -/
def State.spanEnd (s : State) (c ch : Nat) : State :=
  match (s.channel c ch).spanAt with
  | some t => if s.up < t + 10 * usPs then s else s.modChannel c ch (fun x => { x with spanAt := none, wait := 0 })
  | none => s

def execSpanChangeEnd (dt : Nat) (core : Fin 16) (channel : Fin 1120) (s : State) : Result :=
  .next ((s.elapse dt).spanEnd core channel)

-- commands (R427, R430, R431, R434, R443 to R445)

/-- The channels that an Arm Command names. -/
def armTargets (w : Nat) : List Nat :=
  if bitOf w 11 then (if w % 2048 < 35 then (List.range 32).map (fun i => 32 * (w % 2048) + i) else [])
  else if w % 2048 < 1120 then [w % 2048] else []

/-- The laser drivers of a bay that is empty or open are not armed (R477). -/
def State.bayOpen (s : State) (c ch : Nat) : Bool := laserChannel ch && (s.cart (c / 2)).latch != 1

/-- An Arm Command that arms: each channel must have a driver and no loop that runs. -/
def State.armAct (c w : Nat) (s : State) : Nat × State :=
  let l := armTargets w
  if w / 8192 != 0 || l.isEmpty || l.any (fun ch => !armable ch) then refuse abRange s
  else if l.any (fun ch => s.groupOut c (groupOf ch) || s.standsBy c ch || s.bayOpen c ch || !(s.channelLoops c ch).isEmpty) then refuse abState s
  else accept (l.foldl (fun s ch => s.modChannel c ch (fun x => { x with armNext := some true })) s)

/-- An Arm Command that disarms. -/
def State.disarmAct (c w : Nat) (s : State) : Nat × State :=
  let l := armTargets w
  if w / 8192 != 0 || l.isEmpty then refuse abRange s
  else if l.any (fun ch => s.groupOut c (groupOf ch) || s.standsBy c ch) then refuse abState s
  else accept (l.foldl (fun s ch => s.modChannel c ch (fun x => { x with armNext := some false })) s)

def State.armCommandAct (c w : Nat) (s : State) : Nat × State := if bitOf w 12 then s.armAct c w else s.disarmAct c w

def execArm (dt : Nat) (road : Road) (core : Fin 16) (word : BitVec 32) (s : State) : Result :=
  let s := s.elapse dt
  .next (if bitOf word.toNat 12 then s.writeRow road (dacIdx core) 6 (leBytes 4 word.toNat) (State.armAct core word.toNat) else s)
def execDisarm (dt : Nat) (road : Road) (core : Fin 16) (word : BitVec 32) (s : State) : Result :=
  let s := s.elapse dt
  .next (if bitOf word.toNat 12 then s else s.writeRow road (dacIdx core) 6 (leBytes 4 word.toNat) (State.disarmAct core word.toNat))

/-- Channel Write: held until the group's next delivery. A QUEUE group takes its targets from its queue alone. -/
def State.channelWriteAct (c : Nat) (data : List Byte) (s : State) : Nat × State :=
  let ch := field data 0 2
  if 1120 ≤ ch then refuse abRange s
  else if s.groupOut c (groupOf ch) || s.standsBy c ch || !(s.channelLoops c ch).isEmpty ||
      ((s.conv c).group (groupOf ch)).queueMode then refuse abState s
  else accept (s.modChannel c ch (fun x => { x with held := some (field data 2 2) }))

def execChannelWrite (dt : Nat) (road : Road) (core : Fin 16) (data : List Byte) (s : State) : Result :=
  .next ((s.elapse dt).writeRow road (dacIdx core) 5 data (State.channelWriteAct core data))

/-- Group Strobe. -/
def State.groupStrobeAct (c mask : Nat) (s : State) : Nat × State :=
  let l := (List.range 35).filter (fun g => bitOf mask g)
  if mask / 2 ^ 35 != 0 then refuse abRange s
  else if l.any (s.groupOut c) then refuse abState s
  else accept (l.foldl (fun s g => s.modConv c (fun k =>
    k.modGroup g (fun x => if x.queueMode then x else { x with strobe := true }))) s)

def execGroupStrobe (dt : Nat) (road : Road) (core : Fin 16) (groups : BitVec 64) (s : State) : Result :=
  .next ((s.elapse dt).writeRow road (dacIdx core) 8 (leBytes 8 groups.toNat) (State.groupStrobeAct core groups.toNat))

/-- A frame of 64 bytes as 32 codes. -/
def frameCodes (data : List Byte) (i : Nat) : List Nat := (List.range 32).map (fun k => field data (4 + 64 * i + 2 * k) 2)

/-- Queue Write: 1 to 256 frames, appended whole or refused whole. -/
def State.queueWriteAct (c : Nat) (data : List Byte) (s : State) : Nat × State :=
  let g := field data 0 1
  let n := (data.length - 4) / 64
  if data.length < 68 || data.length != 4 + 64 * n || 256 < n then refuse abLength s
  else if field data 1 3 != 0 || 35 ≤ g then refuse abRange s
  else if s.groupOut c g then refuse abState s
  else if 256 < ((s.conv c).group g).queue.length + n then refuse abStore s
  else accept (s.modConv c (fun k => k.modGroup g (fun x => { x with queue := x.queue ++ (List.range n).map (frameCodes data) })))

def execQueueWrite (dt : Nat) (road : Road) (core : Fin 16) (data : List Byte) (s : State) : Result :=
  .next ((s.elapse dt).writeRow road (dacIdx core) 9 data (State.queueWriteAct core data))

/-- A channel record may stand (R445). -/
def channelRecordOk (r : Nat) : Bool :=
  ccLow r ≤ ccHigh r && ccPeriod r != 0 && !(64 ≤ ccGen r && ccGen r ≤ 254) && ccPilot r ≤ 4095 && r % 256 < 4 && r / 2 ^ 96 = 0

/-- Channel Config Write; a new SPAN needs a disarmed driver and a loop in OFF or MANUAL (R436). -/
def State.channelConfigAct (c : Nat) (data : List Byte) (s : State) : Nat × State :=
  let ch := field data 0 2
  let r := field data 4 16
  let x := s.channel c ch
  let span := ccSpan r != ccSpan (x.configNext.getD (x.record ch))
  if 1120 ≤ ch || field data 2 2 != 0 || !channelRecordOk r then refuse abRange s
  else if s.groupOut c (groupOf ch) then refuse abState s
  else if span && ((armable ch && x.armed) || x.spanAt.isSome || (x.configNext.isSome && ccSpan (x.configNext.getD 0) != ccSpan (x.record ch)) ||
      (s.channelLoops c ch).any (fun l => l.2 != .manual)) then refuse abState s
  else accept ((s.modChannel c ch (fun x => { x with configNext := some r })).bump (dacIdx c) 0xE (if span then 1 else 0))

def execChannelConfigWrite (dt : Nat) (road : Road) (core : Fin 16) (data : List Byte) (s : State) : Result :=
  .next ((s.elapse dt).writeRow road (dacIdx core) 3 data (State.channelConfigAct core data))

/-- Generator Write: applies at the next loop frame start. -/
def State.generatorAct (c : Nat) (data : List Byte) (s : State) : Nat × State :=
  let g := field data 0 1
  if 64 ≤ g || field data 1 3 != 0 || 0x40000000 < field data 4 4 || 1 < field data 12 1 || field data 13 7 != 0 then refuse abRange s
  else accept (s.modConv c (fun k => { k with generators := tmod k.generators g (fun x => { x with
    next := some (field data 4 4, field data 8 4, field data 12 1 = 1) }) }))

def execGeneratorWrite (dt : Nat) (road : Road) (core : Fin 16) (data : List Byte) (s : State) : Result :=
  .next ((s.elapse dt).writeRow road (0x6400 + core) 2 data (State.generatorAct core data))

/-- Every converter of a core is FENCED or OFFLINE: its wheel takes no write (R448). -/
def State.convertersOut (s : State) (c : Nat) : Bool :=
  (List.range 68).all (fun v => let u := s.unit (adcRef c v)
    u = .fenced || u = .offline)

/-- Wheel Control: RUN clears the wheel and its position; capture starts at the next scan. -/
def State.wheelAct (c v : Nat) (s : State) : Nat × State :=
  if s.convertersOut c then refuse abState s
  else if bitOf v 0 then
    accept (((s.modConv c (fun k => { k with wheel := [], wheelPos := 0, wheelArmed := true })).setVal (adcIdx c) 7 v).setVal
      (adcIdx c) 0xA 0)
  else accept (s.setVal (adcIdx c) 7 v)

def execWheelRun (dt : Nat) (road : Road) (core : Fin 16) (value : BitVec 8) (s : State) : Result :=
  .next ((s.elapse dt).writeRow road (adcIdx core) 7 (leBytes 1 value.toNat) (State.wheelAct core value.toNat))

/-- Wheel Select: refused while RUN is set (R443); each word names an input or is unused. -/
def State.wheelSelectAct (c v : Nat) (s : State) : Nat × State :=
  let ok (i : Nat) : Bool := let x := v / 2 ^ (16 * i) % 65536
    x < 560 || x = 0xFFFF
  if !(List.range 16).all ok then refuse abRange s
  else if s.convertersOut c || bitOf (s.val (adcIdx c) 7) 0 then refuse abState s
  else store (adcIdx c) 6 v s

/-- Every output of a core goes dark: drivers disarmed, channels at the fault value (R429, R461). -/
def Converters.dark (k : Converters) : Converters := { k with channels := k.channels.map (fun x => (x.1, x.2.faulted x.1)) }

end Sys2Proof.Machine
end

