-- ==== Sys2Proof/Machine/Loops.lean ====
section
/-! DEFINITION. The photonic control loops (R399 to R421): their law, states, frames, injections and faults, with the faults that
converters and drivers bring on (R429, R442). -/

namespace Sys2Proof.Machine

-- FP32 with one rounding each (R403)

def Fp.r (x : Fp) : Fp := (r32 x {}).1
def Fp.addR (a b : Fp) : Fp := (a.add b).r
def Fp.subR (a b : Fp) : Fp := (a.sub b).r
def Fp.mulR (a b : Fp) : Fp := (a.mul b).r
def Fp.divR (a b : Fp) : Fp := (a.div b).r
def Fp.clamp (lo hi x : Fp) : Fp := if x.lt lo then lo else if hi.lt x then hi else x
def Fp.abs : Fp → Fp
  | .fin _ n d => .fin false n d
  | .inf _ => .inf false
  | .nan => .nan
def Fp.le (a b : Fp) : Bool := a.lt b || (!b.lt a && !a.isNan && !b.isNan)
def Fp.nat (n : Nat) : Fp := .fin false n 1

/-- An output rounded once to a code of 16 bits (R403). -/
def codeOf : Fp → Nat
  | .fin false n d => min 65535 (roundDiv n d)
  | .inf false => 65535
  | _ => 0

/-- The period of a loop, s. -/
def loopPeriod (slot : Nat) : Fp := (Fp.fin false 1 (if fastLoop slot then 10000 else 1000)).r

/-- `r` steps toward the setpoint by up to the rate; rate 0 goes there at once. -/
def stepToward (r sp rate : Fp) : Fp :=
  if rate.isZero then sp
  else
    let d := sp.subR r
    if rate.lt d then r.addR rate else if d.lt rate.neg then r.subR rate else sp

-- coefficients and configuration (R414, R419)

/-- The bank that a slot uses, and its coefficients. -/
def State.bankB (s : State) (c slot : Nat) : Bool := bitOf (s.val (loopIdx c) 8) slot
def Loop.coeff (l : Loop) (b : Bool) : Nat := if b then l.bankB else l.bankA

/-- What a computation takes from outside the loop. -/
structure LoopIn where
  y : Fp := .zero
  applied : Fp := .zero
  supply : Fp := .zero
  injOut : Fp := .zero
  injSet : Fp := .zero
  coeff : Nat := 0
  deriving Repr

/-- The loop law (R403); a hand-over starts from a given `r` (R409). -/
def Loop.law (l : Loop) (slot : Nat) (x : LoopIn) (hand : Option Fp) : Loop :=
  let rc := l.record slot
  let neg := lcFlag rc 0
  let sgn (v : Fp) : Fp := if neg then v.neg else v
  let kp := ofF32 (lcF32 x.coeff 0)
  let ki := ofF32 (lcF32 x.coeff 4)
  let kd := ofF32 (lcF32 x.coeff 8)
  let tf := ofF32 (lcF32 x.coeff 12)
  let t := loopPeriod slot
  let outMin := ofF32 (lcF32 rc 12)
  let outMax := ofF32 (lcF32 rc 16)
  let iMin := ofF32 (lcF32 rc 20)
  let iMax := ofF32 (lcF32 rc 24)
  let r := hand.getD (stepToward (ofF32 l.r) (ofF32 (lcF32 rc 8)) (ofF32 (lcF32 rc 52)))
  let e := sgn ((r.addR x.injSet).subR x.y)
  let p := kp.mulR e
  let a := tf.divR (tf.addR t)
  let d := if hand.isSome then .zero
    else (a.mulR (ofF32 l.d)).addR (((Fp.nat 1).subR a).mulR (((sgn kd.neg).mulR (x.y.subR (ofF32 l.yPrev))).divR t))
  let ff := if lcFlag rc 2 then (ofF32 (lcF32 x.coeff 16)).mulR (x.supply.subR (ofF32 (lcF32 x.coeff 20))) else .zero
  let di := (ki.mulR t).mulR e
  let di := if (outMax.le x.applied && Fp.zero.lt di) || (x.applied.le outMin && di.lt Fp.zero) then .zero else di
  let i := if hand.isSome then ((x.applied.subR p).subR ff).clamp iMin iMax else ((ofF32 l.iAcc).addR di).clamp iMin iMax
  let u := ((((p.addR i).addR d).addR ff).addR x.injOut).clamp outMin outMax
  { l with
    r := f32Of r, e := f32Of e, d := f32Of d, yPrev := f32Of x.y, iCand := f32Of i, u := f32Of u
    iAcc := if hand.isSome then f32Of i else l.iAcc
    clamped := !(outMin.lt u && u.lt outMax), handOver := false }

/-- A sample counts toward LOCKED and against it (R408). -/
def Loop.countLock (l : Loop) (slot : Nat) : Loop :=
  let inside := (ofF32 l.e).abs.le (ofF32 (lcF32 (l.record slot) 44))
  { l with inBand := if inside then l.inBand + 1 else 0, outBand := if inside then 0 else l.outBand + 1 }

/-- The plant model of a loop in TRACK (R411). -/
def Loop.plausibility (l : Loop) (slot : Nat) (y : Fp) : Loop :=
  let rc := l.record slot
  if !lcFlag rc 3 then l
  else if l.seed then { l with yHat := f32Of y, seed := false }
  else
    let t := loopPeriod slot
    let beta := t.divR ((ofF32 (lcF32 rc 32)).addR t)
    let h := ofF32 l.yHat
    let x := (((ofF32 (lcF32 rc 28)).mulR (ofF32 l.uLast)).addR (ofF32 (lcF32 rc 36))).subR h
    let h := h.addR (beta.mulR x)
    let far := (ofF32 (lcF32 rc 40)).lt (y.subR h).abs
    { l with yHat := f32Of h, plausRun := if far then min 8 (l.plausRun + 1) else 0, plaus := l.plaus || (far && 7 ≤ l.plausRun) }

/-- One sample of a loop: MANUAL, a sweep (R410), or the law. -/
def Loop.sample (l : Loop) (slot : Nat) (x : LoopIn) : Loop :=
  let rc := l.record slot
  let sp := ofF32 (lcF32 rc 8)
  let l := { l with y := f32Of x.y, computed := true, missRun := 0 }
  let l := match l.st with
    | .manual =>
      let e := (ofF32 l.r).subR x.y
      { l with u := f32Of ((Fp.nat l.value).addR x.injOut), e := f32Of (if lcFlag rc 0 then e.neg else e), clamped := false }
    | .acquire =>
      (match l.sweep with
      | some v =>
        let gap := x.y.subR sp
        if Fp.zero.le (if lcFlag rc 0 then gap.neg else gap) then ({ l with sweep := none }.law slot x (some sp)).countLock slot
        else
          let outMax := ofF32 (lcF32 rc 16)
          let next := (ofF32 v).addR (ofF32 (lcF32 rc 56))
          let next := if outMax.le (ofF32 v) then ofF32 (lcF32 rc 12) else if outMax.lt next then outMax else next
          { l with u := v, sweep := some (f32Of next), clamped := false }
      | none => (l.law slot x (if l.handOver then some x.y else none)).countLock slot)
    | .track => ((l.law slot x (if l.handOver then some sp else none)).countLock slot).plausibility slot x.y
    | _ => l
  { l with uLast := f32Of x.applied }

-- states (R407, R408)

/-- A loop takes a state: what it had of the one before is dropped; ACQUIRE and TRACK are entered bumplessly. -/
def Loop.enter (l : Loop) (slot : Nat) (st : LoopSt) (now limit : Nat) : Loop :=
  let rc := l.record slot
  { l with
    st := st, inBand := 0, outBand := 0, locked := false, handOver := st = .acquire || st = .track, seed := st = .track
    sweep := if st = .acquire && lcFlag rc 1 && loopType slot = 1 then some (lcF32 rc 12) else none
    acquireAt := if st = .acquire then now else l.acquireAt
    acquireLimit := if st = .acquire then limit else l.acquireLimit }

/-- Whether the state is one in which a loop computes. -/
def LoopSt.runs (st : LoopSt) : Bool := st = .manual || st = .acquire || st = .track

/-- The injection of a core ends (R415). -/
def State.endInjection (s : State) (c : Nat) : State := s.modLoops c (fun k => { k with injection := none })
def State.endInjectionOf (s : State) (c slot : Nat) : State :=
  if (s.loopCore c).injection.any (fun i => i.loop = slot) then s.endInjection c else s

/-- A loop enters a state; the entries into TRACK from ACQUIRE count, and the reference trim tells where it is (R66). -/
def State.loopTo (s : State) (c slot : Nat) (st : LoopSt) : State :=
  let old := (s.loop c slot).st
  let s := s.modLoop c slot (fun l => l.enter slot st s.ns (s.val (loopIdx c) 0x0B))
  let s := if st = .hold || st = .fault then s.endInjectionOf c slot else s
  let s := if old = .acquire && st = .track then s.bump (loopIdx c) 0x13 1 else s
  if slot != 1122 then s
  else if st = .acquire then s.setVal (coreIdx c) 0x27 1
  else if st = .fault then s.setVal (coreIdx c) 0x27 3
  else s

/-- The units on which a loop depends: its essential unit first (R399, R413, R442). -/
def State.loopUnits (s : State) (c slot : Nat) : List Nat :=
  let t := loopType slot
  let src := lcSource ((s.loop c slot).record slot)
  essentialUnit c slot :: ((if t = 1 || t = 2 || t = 3 then [coreRef c, cartRef (c / 2)] else []) ++
    (if fbKind src < 3 && fbIndex src < 544 then [adcRef c (fbIndex src / 8)] else []))

/-- A unit has left service so that its loops hold; a unit lets them go on. -/
def UnitSt.holds (u : UnitSt) : Bool := u = .fenced || u = .repair || u = .retired
def UnitSt.allows (u : UnitSt) : Bool := u = .starting || u.works

/-- The core that runs a cartridge's loops, and whether a core runs a slot (R400). -/
def State.hostCore (s : State) (l : Nat) : Nat := if (s.loopCore (2 * l + 1)).hosting then 2 * l + 1 else 2 * l
def cartSlot (slot : Nat) : Bool := 1124 ≤ slot && slot ≤ 1140
def State.runsSlot (s : State) (c slot : Nat) : Bool := !cartSlot slot || s.hostsLoops c

/-- Every loop on which a loop depends is LOCKED (R413). -/
def State.leadersLocked (s : State) (c slot : Nat) : Bool :=
  let t := loopType slot
  let e := (slot - 544) / 16
  (!(t = 1 || t = 2) || (List.range 16).all (fun k => (s.loop (s.hostCore (c / 2)) (1124 + k)).locked)) &&
  (t != 2 || (List.range 16).all (fun k => (s.loop c (16 * e + k)).locked))

/-- What the states of its units do to one loop (R408). -/
def State.holdLoop (s : State) (c slot : Nat) : State :=
  let st := (s.loop c slot).st
  let us := s.loopUnits c slot
  if st.runs && us.any (fun u => (s.unit u).holds) then s.loopTo c slot .hold
  else if st = .hold then
    let own := s.unit (essentialUnit c slot)
    if own = .retired || own = .offline then s.loopTo c slot .off
    else if us.all (fun u => (s.unit u).allows) && s.leadersLocked c slot then s.loopTo c slot .acquire
    else s
  else s

/-- The same for every loop of a core, and of all cores, in slot order. -/
def State.holdLoops (s : State) (c : Nat) : State :=
  ((s.loopCore c).loops.map Prod.fst).foldl (fun s slot => s.holdLoop c slot) s
def State.holdAllLoops (s : State) : State := forRange 16 s State.holdLoops

/-- DAC groups of a core whose loop co-processor is FENCED are FENCED with it (R442). -/
def State.groupsFollow (s : State) (c : Nat) : State :=
  if s.unit (coprocRef c) != .fenced then s
  else forRange 35 s (fun s g => if (s.unit (dacRef c g)).works then s.fence (dacRef c g) else s)

/-- A cartridge is fenced: its compute stops, its fabric light goes, and the loops that need it hold (R413). -/
def State.fenceCart (s : State) (l : Nat) : State :=
  let s := (s.abandonUsers (coreRef (2 * l))).abandonUsers (coreRef (2 * l + 1))
  (((s.fence (cartRef l)).lightLost l).holdLoops (2 * l)).holdLoops (2 * l + 1)

/-- The essential unit of a faulted loop is fenced; an engine that works stops at its next window boundary (R36, R412, R413). -/
def State.fenceEssential (s : State) (c slot : Nat) : State :=
  let r := essentialUnit c slot
  let u := s.unit r
  if refKind r = 2 then
    (if u.works then s.modEng c (refB r) (fun g => { g with stopping := true })
     else if u = .starting then (s.fence r).holdLoops c else s)
  else if !u.allows then s
  else if refKind r = 0xC then s.fenceCart (refB r)
  else ((s.fence r).modConv c (fun k => { k with
    channels := k.channels.map (fun (x : Nat × Channel) => (x.1, { x.2 with faultNext := true })) })).holdLoops c

/-- A loop enters FAULT (R408, R413, R429). -/
def State.faultLoop (s : State) (c slot : Nat) : State :=
  let chans := loopChannels ((s.loop c slot).record slot) slot
  let s := (s.loopTo c slot .fault).bump (loopIdx c) 0x12 1
  let s := chans.foldl (fun s ch => s.modChannel c ch (fun x => { x with faultNext := true })) s
  s.fenceEssential c slot

-- frames (R400 to R405)

/-- What a source yields at the end of its period (R441). -/
def Demod.value (d : Demod) (kind : Nat) : Option Fp :=
  if d.n = 0 then none
  else
    let v : Int := if kind = 0 then d.sum else if kind = 1 then 2 * d.inPhase else 2 * d.quadrature
    some (Fp.fin (v < 0) v.natAbs (d.n * (if kind = 0 then 1 else 32767))).r

/-- The sources whose period ends in frame `f`. -/
def dueKey (f key : Nat) : Bool := key / 2 ^ 32 = 0 || key / 2 ^ 32 = f % 10 + 1

/-- Feedback is latched (R401, R402). -/
def State.latch (s : State) (c f : Nat) : State :=
  ((s.loopCore c).sources.filter (fun x => dueKey f x.1 && fbKind x.2 < 3)).foldl (fun s x =>
    let d := tget (s.conv c).demods x.1
    let s := s.modConv c (fun k => { k with demods := tdel k.demods x.1 })
    match d.value (fbKind x.2) with
    | some v => s.modConv c (fun k => { k with sources := tset k.sources x.1 (f32Of v) })
    | none => s.bump (adcIdx c) 5 1) s

/-- The filtered reading of a sensor, 0.1 degC: the median of its last five samples (R450). -/
def insertInt (a : Int) : List Int → List Int
  | [] => [a]
  | b :: t => if a ≤ b then a :: b :: t else b :: insertInt a t
def Sensor.filtered (x : Sensor) : Int := (x.samples.foldr insertInt []).getD ((x.samples.length - 1) / 2) 0

/-- The feedback of a loop; `offsets` are the engines' offset monitors in 1/16 LSB. -/
def State.feedback (s : State) (c slot : Nat) (offsets : List Int) : Fp :=
  let w := lcSource ((s.loop c slot).record slot)
  let q (v : Int) (d : Nat) : Fp := (Fp.fin (v < 0) v.natAbs d).r
  if fbKind w < 3 then ofF32 (tget (s.conv c).sources (demodKey w slot))
  else if fbKind w = 3 then q (tget s.sensors (fbIndex w)).filtered 10
  else q (offsets.getD (fbIndex w) 0) 16

/-- The `u_applied` of a loop: the TARGET of its channel or line; of the cartridge thermal loop, the highest of its lines
(log entry 16); of a trim, its register (R403, R426). -/
def State.uApplied (s : State) (c slot : Nat) : Nat :=
  let l := s.loop c slot
  match loopChannels (l.record slot) slot with
  | [] => l.trim
  | chs => (chs.map (fun ch => (s.channel c ch).target)).foldl max 0

/-- The bit of PRBS-7 for a sample, and the register after it (R415). -/
def prbsBit (v : Nat) : Bool := bitOf v 6
def prbsNext (v : Nat) : Nat := v % 64 * 2 + (if bitOf v 6 = bitOf v 5 then 0 else 1)

/-- The value that an injection has at a sample. -/
def Injection.value (i : Injection) (gens : Tbl Generator) : Fp :=
  let a := ofF32 i.amplitude
  if i.kind = 1 then a
  else if i.kind = 2 then (if prbsBit i.prbs then a else a.neg)
  else
    let v := (tget gens i.gen).sine
    a.mulR (Fp.fin (v < 0) v.natAbs 32767).r

/-- One loop is computed. -/
def State.compute (s : State) (c slot : Nat) (offsets : List Int) : State :=
  let k := s.loopCore c
  let inj := k.injection.filter (fun i => i.loop = slot && i.left != 0)
  let v := match inj with
    | some i => i.value (s.conv c).generators
    | none => .zero
  let atSet := inj.any (fun i => i.atSetpoint)
  let x : LoopIn := {
    y := s.feedback c slot offsets, applied := Fp.nat (s.uApplied c slot), supply := (Fp.fin false (s.val (loopIdx c) 0x15) 1000).r
    injOut := if atSet then .zero else v, injSet := if atSet then v else .zero
    coeff := (k.loop slot).coeff (s.bankB c slot) }
  let l := (k.loop slot).sample slot x
  let t := loopType slot
  let l := if t = 5 || t = 6 then l else { l with iAcc := if l.st = .manual || l.sweep.isSome then l.iAcc else l.iCand, selected := true }
  s.modLoops c (fun k => { (k.modLoop slot (fun _ => l)) with
    injection := if inj.isSome then k.injection.map (fun i => { i with left := i.left - 1, prbs := prbsNext i.prbs, last := f32Of v })
      else k.injection })

/-- A member of a laser line takes part with its output; the line is written while its own loop runs. -/
def Loop.takesPart (l : Loop) : Bool := l.st.runs || l.st = .hold

/-- The drive of a line and the loop selected in it, none for the current limit (R405). -/
def State.lineDrive (s : State) (c k : Nat) : Nat × Option Nat :=
  let members := [1124 + k, 1140].filter (fun slot => (s.loop c slot).takesPart)
  let limit := s.val (loopIdx c) 0x0A
  let best := members.foldl (fun (b : Option (Fp × Nat)) slot =>
    let u := ofF32 (s.loop c slot).u
    match b with
    | some x => if u.lt x.1 then some (u, slot) else b
    | none => some (u, slot)) none
  match best with
  | some (u, slot) => if (Fp.nat limit).lt u then (limit, none) else (codeOf u, some slot)
  | none => (limit, none)

/-- The loops of the lines that were computed commit where they are selected (R405). -/
def State.selectLines (s : State) (c : Nat) : State :=
  let chosen := (List.range 16).filterMap (fun k => (s.lineDrive c k).2)
  (List.range 17).foldl (fun s k => s.modLoop c (1124 + k) (fun l =>
    if !l.takesPart then l
    else
      let sel := (1124 + k) ∈ chosen
      { l with selected := sel, iAcc := if sel && l.computed && l.st != .manual then l.iCand else l.iAcc })) s

/-- Cartridge loops move from core `a` to core `b` of a pair (R400): with their state and settings, bumplessly. -/
def State.moveLoops (s : State) (a b : Nat) : State :=
  let s := if (s.loopCore a).injection.any (fun i => cartSlot i.loop) then s.endInjection a else s
  let s := (List.range 17).foldl (fun s k =>
    let l := s.loop a (1124 + k)
    s.modLoop b (1124 + k) (fun _ => { l with handOver := l.st = .acquire || l.st = .track })) s
  let odd := if a % 2 = 1 then a else b
  let s := s.modLoops odd (fun k => { k with hosting := b = odd })
  (s.setVal (loopIdx a) 0x16 0).setVal (loopIdx b) 0x16 1

/-- The moves that fall due at the frame start of a core, and what a core that stands by copies (R400, R437). -/
def State.cartMove (s : State) (c : Nat) : State :=
  let even := 2 * (c / 2)
  let evenWorks := (s.unit (coprocRef even)).works
  let oddHosts := (s.loopCore (even + 1)).hosting
  let s := if c % 2 = 1 && !oddHosts && !evenWorks then s.moveLoops even c
    else if c % 2 = 0 && oddHosts && evenWorks then s.moveLoops (even + 1) c
    else s
  let s := s.setVal (loopIdx c) 0x16 (if s.hostsLoops c then 1 else 0)
  if s.hostsLoops c then s
  else
    let other := if c = even then even + 1 else even
    (List.range 16).foldl (fun s k =>
      let x := s.channel other (1088 + k)
      s.modChannel c (1088 + k) (fun y => { y with target := x.target, output := x.output, armed := x.armed })) s

/-- What a Loop Command does to a state (R408). -/
def LoopSt.next (st : LoopSt) (cmd : Nat) : Option LoopSt :=
  if cmd = 1 then (if st.runs || st = .fault then some .off else none)
  else if cmd = 2 then (if st = .off || st = .manual || st = .fault then some .manual else none)
  else if cmd = 3 then (if st = .off || st = .manual then some .acquire else none)
  else if cmd = 4 then (if st = .off || st = .manual || st = .acquire then some .track else none)
  else if st = .fault then some .acquire else none

/-- A write that waited for the frame start takes effect (R401). -/
def State.loopApply (s : State) (c : Nat) : LoopWrite → State
  | .command slot cmd value =>
    match (s.loop c slot).st.next cmd with
    | none => s
    | some st =>
      let s := s.loopTo c slot st
      let s := if cmd = 2 then s.modLoop c slot (fun l => { l with value := value, u := f32Of (Fp.nat value) }) else s
      if cmd = 5 then s.modLoop c slot (fun l => { l with missRun := 0, plausRun := 0, missed := false, plaus := false, clamped := false })
      else s
  | .config slot record => s.modLoop c slot (fun l => { l with config := record })

/-- The loops due in a frame. -/
def State.dueLoops (s : State) (c f : Nat) : List Nat :=
  (s.loopCore c).loops.filterMap (fun x =>
    if x.2.st.runs && (fastLoop x.1 || x.1 % 10 = f % 10) && s.runsSlot c x.1 then some x.1 else none)

/-- LOOP_FRAME: `supply` is the heater supply voltage in mV, `fast` how many of the due loops are computed by the strobe, `time`
how long the frame takes in 0.1 us, `offsets` the engines' offset monitors. -/
def State.loopFrame (s : State) (c supply fast time : Nat) (offsets : List Int) : State :=
  if s.ns % 100000 != 0 || !(s.unit (coprocRef c)).works then s
  else
    let f := s.ns / 100000
    let s := (s.latch c f).setVal (loopIdx c) 0x15 supply
    let waiting := (s.loopCore c).waiting
    let s := waiting.foldl (fun s w => s.loopApply c w) (s.modLoops c (fun k => { k with waiting := [] }))
    let s := ((s.cartMove c).groupsFollow c).holdLoops c
    let due := s.dueLoops c f
    let s := s.modLoops c (fun k => { k with
      open_ := true, loops := k.loops.map (fun (x : Nat × Loop) => (x.1, { x.2 with due := x.1 ∈ due, computed := false })) })
    let s := (due.take fast).foldl (fun s slot => s.compute c slot offsets) s
    let s := if s.hostsLoops c then s.selectLines c else s
    s.raiseTo (loopIdx c) 0x0F time

def execLoopFrame (dt : Nat) (core : Fin 16) (supply : BitVec 16) (fast time : Nat) (offsets : List Int) (s : State) : Result :=
  .next ((s.elapse dt).loopFrame core supply.toNat fast time offsets)

/-- A code is delivered to a channel that takes writes. -/
def State.deliverTo (s : State) (c ch code : Nat) : State :=
  if 1120 ≤ ch || s.groupOut c (groupOf ch) || ((s.conv c).group (groupOf ch)).queueMode then s
  else s.modChannel c ch (fun x => x.deliver ch code)

/-- The output of one computed loop goes to its channel or trim register. -/
def State.strobeLoop (s : State) (c slot : Nat) : State :=
  let l := s.loop c slot
  let rc := l.record slot
  if !l.computed || loopType slot = 5 || loopType slot = 6 then s
  else if lcOut rc / 4096 = 0 then s.deliverTo c (lcOut rc % 4096) (codeOf (ofF32 l.u))
  else s.modLoop c slot (fun l => { l with trim := codeOf (ofF32 l.u) })

/-- The drives of the lines whose loops run. -/
def State.strobeLines (s : State) (c : Nat) : State :=
  (List.range 16).foldl (fun s k =>
    if (s.loop c (1124 + k)).st.runs then s.deliverTo c (1088 + k) (s.lineDrive c k).1 else s) s

/-- Channel Writes that wait in STROBE groups are delivered (R430). -/
def State.strobeHeld (s : State) (c : Nat) : State :=
  s.modConv c (fun k => { k with channels := k.channels.map (fun (x : Nat × Channel) =>
    match x.2.held with
    | some v => if (k.group (groupOf x.1)).queueMode || s.groupOut c (groupOf x.1) then x else (x.1, { x.2.deliver x.1 v with held := none })
    | none => x) })

/-- A due loop that was not computed keeps its output (R412). -/
def State.strobeMiss (s : State) (c slot : Nat) : State :=
  let l := s.loop c slot
  if l.due && !l.computed then
    (s.modLoop c slot (fun l => { l with missed := true, missRun := min 3 (l.missRun + 1) })).bump (loopIdx c) 0x10 1
  else s

/-- The record of an injection's sample (R416). -/
def State.captureSample (s : State) (c : Nat) : State :=
  match (s.loopCore c).injection with
  | none => s
  | some i =>
    let l := s.loop c i.loop
    let k := s.loopCore c
    if !l.computed || (i.stopWhenFull && 4096 ≤ k.captured) then s
    else
      let bs := leBytes 2 (k.captured % 65536) ++ leBytes 2 (s.uApplied c i.loop) ++ leBytes 4 l.r.toNat ++ leBytes 4 l.y.toNat ++
        leBytes 4 i.last.toNat
      let w := k.capture ++ [bs]
      s.modLoops c (fun k => { k with capture := w.drop (w.length - 4096), captured := k.captured + 1 })

/-- OUTPUT_STROBE. -/
def State.outputStrobe (s : State) (c : Nat) : State :=
  if s.ns % 100000 != 90000 || !(s.loopCore c).open_ then s
  else
    let slots := (s.loopCore c).loops.map Prod.fst
    let s := slots.foldl (fun s slot => (s.strobeLoop c slot).strobeMiss c slot) s
    let s := if s.hostsLoops c then s.strobeLines c else s
    let s := (s.strobeHeld c).captureSample c
    s.modLoops c (fun k => { k with
      open_ := false, loops := k.loops.map (fun (x : Nat × Loop) => (x.1, { x.2 with due := false, computed := false })) })

def execOutputStrobe (dt : Nat) (core : Fin 16) (s : State) : Result := .next ((s.elapse dt).outputStrobe core)

-- commands and writes (R418, R419, R421)

/-- The co-processor takes no writes (R421). -/
def State.coprocOut (s : State) (c : Nat) : Bool :=
  let u := s.unit (coprocRef c)
  u = .offline || u = .fenced || u = .repair

/-- State and record of a loop after the writes that wait for it. -/
def State.loopAhead (s : State) (c slot : Nat) : LoopSt × Nat :=
  let l := s.loop c slot
  (s.loopCore c).waiting.foldl (fun x w =>
    match w with
    | .command k cmd _ => if k = slot then ((x.1.next cmd).getD x.1, x.2) else x
    | .config k r => if k = slot then (x.1, r) else x) (l.st, l.record slot)

def cmdLoop (w : Nat) : Nat := w % 2048
def cmdAll (w : Nat) : Bool := bitOf w 11
def cmdCode (w : Nat) : Nat := w / 4096 % 16
def cmdValue (w : Nat) : Nat := w / 65536 % 65536

/-- The slots of a type, in ascending order. -/
def slotsOf (t : Nat) : List Nat := (List.range 1145).filter (fun slot => loopType slot = t)
def cmdSlots (w : Nat) : List Nat :=
  if cmdAll w then (if cmdLoop w < 16 then slotsOf (cmdLoop w) else []) else if cmdLoop w < 1145 then [cmdLoop w] else []

/-- A command takes its loop out of OFF into a channel of a QUEUE group, or to ACQUIRE before its leaders are LOCKED. -/
def State.cmdBarred (s : State) (c cmd slot : Nat) : Bool :=
  let x := s.loopAhead c slot
  match x.1.next cmd with
  | none => true
  | some st =>
    (x.1 = .off && (loopChannels x.2 slot).any (fun ch => ((s.conv c).group (groupOf ch)).queueMode)) ||
    (x.1 = .off && st = .acquire && !s.leadersLocked c slot)

/-- A Loop Command is taken for the next frame start. -/
def State.loopTake (c w : Nat) (s : State) : Nat × State :=
  let l := cmdSlots w
  if l.isEmpty || (cmdCode w != 2 && cmdValue w != 0) then refuse abRange s
  else if s.coprocOut c || l.any (s.cmdBarred c (cmdCode w)) then refuse abState s
  else accept (s.modLoops c (fun k => { k with waiting := k.waiting ++ l.map (fun slot => .command slot (cmdCode w) (cmdValue w)) }))

def State.loopOffAct (c w : Nat) (s : State) : Nat × State := s.loopTake c w
def State.loopManualAct (c w : Nat) (s : State) : Nat × State := s.loopTake c w
def State.loopAcquireAct (c w : Nat) (s : State) : Nat × State := s.loopTake c w
def State.loopTrackAct (c w : Nat) (s : State) : Nat × State := s.loopTake c w
def State.loopRestartAct (c w : Nat) (s : State) : Nat × State := s.loopTake c w

/-- Any word written to Loop Command. -/
def State.loopCommandAct (c w : Nat) (s : State) : Nat × State :=
  match cmdCode w with
  | 1 => s.loopOffAct c w
  | 2 => s.loopManualAct c w
  | 3 => s.loopAcquireAct c w
  | 4 => s.loopTrackAct c w
  | 5 => s.loopRestartAct c w
  | _ => refuse abRange s

/-- The row of one command; a word with another command is another row's. -/
def State.loopRow (s : State) (road : Road) (c w cmd : Nat) (act : Nat → Nat → State → Nat × State) : State :=
  if cmdCode w = cmd then s.writeRow road (loopIdx c) 2 (leBytes 4 w) (act c w) else s

def execLoopOff (dt : Nat) (road : Road) (core : Fin 16) (word : BitVec 32) (s : State) : Result :=
  .next ((s.elapse dt).loopRow road core word.toNat 1 State.loopOffAct)
def execLoopManual (dt : Nat) (road : Road) (core : Fin 16) (word : BitVec 32) (s : State) : Result :=
  .next ((s.elapse dt).loopRow road core word.toNat 2 State.loopManualAct)
def execLoopAcquire (dt : Nat) (road : Road) (core : Fin 16) (word : BitVec 32) (s : State) : Result :=
  .next ((s.elapse dt).loopRow road core word.toNat 3 State.loopAcquireAct)
def execLoopTrack (dt : Nat) (road : Road) (core : Fin 16) (word : BitVec 32) (s : State) : Result :=
  .next ((s.elapse dt).loopRow road core word.toNat 4 State.loopTrackAct)
def execLoopRestart (dt : Nat) (road : Road) (core : Fin 16) (word : BitVec 32) (s : State) : Result :=
  .next ((s.elapse dt).loopRow road core word.toNat 5 State.loopRestartAct)

/-- A configuration record may stand for a slot (R402, R404, R419). -/
def loopRecordOk (slot r : Nat) : Bool :=
  let f (off : Nat) : Fp := ofF32 (lcF32 r off)
  let src := lcSource r
  r % 256 = loopType slot && rec8 r 1 1 < 16 && (!lcFlag r 1 || loopType slot = 1) &&
  (!lcFlag r 2 || loopType slot = 1 || loopType slot = 7) && lcOut r / 4096 < 16 &&
  (if fbKind src = 1 || fbKind src = 2 then fbGen src < 64 else fbKind src < 5 && fbGen src = 0) &&
  (f 12).lt (f 16) && (f 20).lt (f 24) && !(f 32).lt .zero && !(f 52).lt .zero && !(f 56).lt .zero && lcLockCount r != 0 &&
  rec8 r 50 2 = 0 && rec8 r 60 4 = 0

/-- A record with its SETPOINT set to 0. -/
def withoutSetpoint (r : Nat) : Nat := r - rec8 r 8 4 * 2 ^ 64

/-- Loop Config Write (R419). -/
def State.loopConfigAct (c : Nat) (data : List Byte) (s : State) : Nat × State :=
  let slot := field data 0 2
  let r := field data 4 64
  let x := s.loopAhead c slot
  if 1145 ≤ slot || field data 2 2 != 0 || !loopRecordOk slot r then refuse abRange s
  else if s.coprocOut c || ((x.1 = .acquire || x.1 = .track) && withoutSetpoint r != withoutSetpoint x.2) then refuse abState s
  else accept (s.modLoops c (fun k => { k with waiting := k.waiting ++ [.config slot r] }))

def execLoopConfigWrite (dt : Nat) (road : Road) (core : Fin 16) (data : List Byte) (s : State) : Result :=
  .next ((s.elapse dt).writeRow road (loopIdx core) 4 data (State.loopConfigAct core data))

/-- A bank record may stand (R414). -/
def coeffOk (r : Nat) : Bool :=
  let f (i : Nat) : Fp := ofF32 (lcF32 r (4 * i))
  (List.range 6).all (fun i => match f i with
    | .fin _ _ _ => true
    | _ => false) && !(f 3).lt .zero && rec8 r 24 8 = 0

/-- The bank map that a committed epoch will put in force on a core, while the core has still to apply it. -/
def State.mapAhead (s : State) (c : Nat) : Option Nat :=
  if s.epoch.applying && (tget s.units (coprocRef c)).applyDue then
    ((if s.epoch.kind = 2 then s.epoch.before else s.epoch.staged).find? (fun x => x.1 = odKey (loopIdx c) 8)).map Prod.snd
  else none

/-- Coefficient Write (R414): never to the bank in use, or that a committed epoch will select. -/
def State.coefficientAct (c : Nat) (data : List Byte) (s : State) : Nat × State :=
  let slot := field data 0 2
  let b := field data 2 1 = 1
  let r := field data 4 32
  if 1145 ≤ slot || 1 < field data 2 1 || field data 3 1 != 0 || !coeffOk r then refuse abRange s
  else if s.coprocOut c || s.bankB c slot = b || (s.mapAhead c).any (fun m => bitOf m slot = b) then refuse abState s
  else accept (s.modLoop c slot (fun l => if b then { l with bankB := r } else { l with bankA := r }))

def execCoefficientWrite (dt : Nat) (road : Road) (core : Fin 16) (data : List Byte) (s : State) : Result :=
  .next ((s.elapse dt).writeRow road (loopIdx core) 7 data (State.coefficientAct core data))

/-- A plain value of the loop object (R421). -/
def State.loopValueAct (c sub v : Nat) (s : State) : Nat × State :=
  if s.coprocOut c then refuse abState s else store (loopIdx c) sub v s

-- injections (R415)

def injLoop (data : List Byte) : Nat := field data 0 2
def injKind (data : List Byte) : Nat := field data 2 1

/-- An injection may start. -/
def State.injectBarred (s : State) (c : Nat) (data : List Byte) : Bool :=
  let slot := injLoop data
  let st := (s.loop c slot).st
  (s.loopCore c).injection.isSome || !(st = .manual || st = .track) || (field data 3 1 = 1 && st = .manual) ||
  s.unit (essentialUnit c slot) = .serving ||
  (cartSlot slot && (s.unit (coreRef (2 * (c / 2))) = .serving || s.unit (coreRef (2 * (c / 2) + 1)) = .serving))

/-- The fields of an Injection Control write that starts a signal. -/
def injFieldsOk (data : List Byte) : Bool :=
  let n := field data 8 4
  injLoop data < 1145 && field data 3 1 < 2 && 1 ≤ n && n ≤ 65536 &&
  (if injKind data = 3 then field data 12 1 < 64 else field data 12 1 = 0) && field data 13 1 < 2 && field data 14 2 = 0

def State.injectStart (c : Nat) (data : List Byte) (s : State) : Nat × State :=
  if !injFieldsOk data then refuse abRange s
  else if s.coprocOut c || s.injectBarred c data then refuse abState s
  else accept (s.modLoops c (fun k => { k with
    captured := 0, capture := []
    injection := some {
      loop := injLoop data, kind := injKind data, atSetpoint := field data 3 1 = 1, amplitude := BitVec.ofNat 32 (field data 4 4)
      left := field data 8 4, gen := field data 12 1, stopWhenFull := field data 13 1 = 1 } }))

def State.injectStepAct (c : Nat) (data : List Byte) (s : State) : Nat × State := s.injectStart c data
def State.injectPrbsAct (c : Nat) (data : List Byte) (s : State) : Nat × State := s.injectStart c data
def State.injectSineAct (c : Nat) (data : List Byte) (s : State) : Nat × State := s.injectStart c data
def State.injectStopAct (c : Nat) (data : List Byte) (s : State) : Nat × State :=
  if field data 14 2 != 0 then refuse abRange s
  else if s.coprocOut c then refuse abState s
  else accept (s.endInjection c)

/-- Any write of Injection Control. -/
def State.injectionAct (c : Nat) (data : List Byte) (s : State) : Nat × State :=
  match injKind data with
  | 0 => s.injectStopAct c data
  | 1 => s.injectStepAct c data
  | 2 => s.injectPrbsAct c data
  | 3 => s.injectSineAct c data
  | _ => refuse abRange s

def State.injectRow (s : State) (road : Road) (c : Nat) (data : List Byte) (kind : Nat)
    (act : Nat → List Byte → State → Nat × State) : State :=
  if injKind data = kind then s.writeRow road (loopIdx c) 0x0C data (act c data) else s

def execInjectStep (dt : Nat) (road : Road) (core : Fin 16) (data : List Byte) (s : State) : Result :=
  .next ((s.elapse dt).injectRow road core data 1 State.injectStepAct)
def execInjectPrbs (dt : Nat) (road : Road) (core : Fin 16) (data : List Byte) (s : State) : Result :=
  .next ((s.elapse dt).injectRow road core data 2 State.injectPrbsAct)
def execInjectSine (dt : Nat) (road : Road) (core : Fin 16) (data : List Byte) (s : State) : Result :=
  .next ((s.elapse dt).injectRow road core data 3 State.injectSineAct)
def execInjectStop (dt : Nat) (road : Road) (core : Fin 16) (data : List Byte) (s : State) : Result :=
  .next ((s.elapse dt).injectRow road core data 0 State.injectStopAct)

/-- INJECTION_END: after its samples. -/
def execInjectionEnd (dt : Nat) (core : Fin 16) (s : State) : Result :=
  let s := s.elapse dt
  .next (if (s.loopCore core).injection.any (fun i => i.left = 0) then s.endInjection core else s)

-- what loops come to (R408, R411, R412)

/-- The engine loops of a core report lock when all 32 are LOCKED (R37, R408). -/
def State.reportLock (s : State) (c slot : Nat) : State :=
  let t := loopType slot
  let e := if t = 1 then slot / 16 else (slot - 544) / 16
  if !(t = 1 || t = 2) || e ∈ (s.core c).lit then s
  else if (List.range 16).all (fun k => (s.loop c (16 * e + k)).locked && (s.loop c (544 + 16 * e + k)).locked) then
    s.modCore c (fun k => { k with lit := k.lit ++ [e] })
  else s

/-- LOOP_LOCKED. -/
def State.loopLocked (s : State) (c slot : Nat) : State :=
  let l := s.loop c slot
  if !(l.st = .acquire || (l.st = .track && !l.locked)) || l.inBand < lcLockCount (l.record slot) || l.sweep.isSome then s
  else
    let s := if l.st = .acquire then s.loopTo c slot .track else s
    let s := s.modLoop c slot (fun l => { l with locked := true, inBand := 0 })
    let s := if slot = 1122 then s.setVal (coreIdx c) 0x27 2 else s
    (s.reportLock c slot).holdLoops c

def execLoopLocked (dt : Nat) (core : Fin 16) (slot : Fin 1152) (s : State) : Result := .next ((s.elapse dt).loopLocked core slot)

/-- LOOP_UNLOCKED. -/
def State.loopUnlocked (s : State) (c slot : Nat) : State :=
  let l := s.loop c slot
  if !(l.st = .track && l.locked) || l.outBand < lcLockCount (l.record slot) then s
  else (s.modLoop c slot (fun l => { l with locked := false, outBand := 0 })).raise 0x0601 (essentialUnit c slot) slot

def execLoopUnlocked (dt : Nat) (core : Fin 16) (slot : Fin 1152) (s : State) : Result :=
  .next ((s.elapse dt).loopUnlocked core slot)

/-- LOOP_ACQUIRE_FAIL: the Acquisition Limit in force has passed. -/
def State.acquireFail (s : State) (c slot : Nat) : State :=
  let l := s.loop c slot
  if l.st != .acquire || s.ns < l.acquireAt + 1000000 * l.acquireLimit then s
  else (s.raise 0x0602 (essentialUnit c slot) slot).faultLoop c slot

def execLoopAcquireFail (dt : Nat) (core : Fin 16) (slot : Fin 1152) (s : State) : Result :=
  .next ((s.elapse dt).acquireFail core slot)

/-- LOOP_PLAUSIBILITY: PLAUS_RUN has reached 8. -/
def State.loopPlausible (s : State) (c slot : Nat) : State :=
  let l := s.loop c slot
  if !(l.st = .acquire || l.st = .track) || l.plausRun < 8 then s
  else ((s.bump (loopIdx c) 0x11 1).raise 0x0603 (essentialUnit c slot) slot).faultLoop c slot

def execLoopPlausibility (dt : Nat) (core : Fin 16) (slot : Fin 1152) (s : State) : Result :=
  .next ((s.elapse dt).loopPlausible core slot)

/-- LOOP_DEADLINE: the third miss in a row. -/
def State.loopDeadline (s : State) (c slot : Nat) : State :=
  let l := s.loop c slot
  if !l.st.runs || l.missRun < 3 then s
  else (s.raise 0x0604 (essentialUnit c slot) slot).faultLoop c slot

def execLoopDeadline (dt : Nat) (core : Fin 16) (slot : Fin 1152) (s : State) : Result := .next ((s.elapse dt).loopDeadline core slot)

/-- The 16 bytes of a loop's status (R420). -/
def State.loopStatus (s : State) (c slot : Nat) : List Byte :=
  let l := s.loop c slot
  let b (x : Bool) (i : Nat) : Nat := if x then 2 ^ i else 0
  let st := match l.st with
    | .off => 0 | .manual => 1 | .acquire => 2 | .track => 3 | .hold => 4 | .fault => 5
  leBytes 1 st ++
  leBytes 1 (b l.locked 0 + b l.selected 1 + b l.missed 2 + b l.plaus 3 + b l.clamped 4 +
    b ((s.loopCore c).injection.any (fun i => i.loop = slot)) 5 + b (s.bankB c slot) 6) ++
  leBytes 1 l.missRun ++ leBytes 1 l.plausRun ++ leBytes 2 (s.uApplied c slot) ++ [0, 0] ++ leBytes 4 l.y.toNat ++ leBytes 4 l.e.toNat

-- converter and driver faults (R429, R442)

/-- ADC_REFERENCE: eight scans in a row beyond 64 LSB. -/
def State.adcFault (s : State) (c v : Nat) : State :=
  let r := adcRef c v
  if (tget (s.conv c).adcs v).badRefs < 8 || !(s.unit r).works then s
  else ((s.raise 0x0607 r 0).fence r).holdLoops c

def execAdcReference (dt : Nat) (core : Fin 16) (adc : Fin 68) (s : State) : Result := .next ((s.elapse dt).adcFault core adc)

/-- DAC_DRIVER_FAULT: a driver reports an open load or 10 us of overcurrent. The loop of a laser line's channel is its line loop. -/
def State.driverFault (s : State) (c ch : Nat) : State :=
  if !armable ch || s.standsBy c ch || !(s.channel c ch).armed then s
  else
    let loops := (s.channelLoops c ch).filter (fun l => l.1 != 1140 && l.2 != .fault)
    let s := ((s.modChannel c ch (fun x => { x with driverFault := true, faultNext := true })).bump (dacIdx c) 0x0C 1).raise
      0x0605 (dacRef c (groupOf ch)) ch
    loops.foldl (fun s l => s.faultLoop c l.1) s

def execDacDriverFault (dt : Nat) (core : Fin 16) (channel : Fin 1120) (_cause : DriverFault) (s : State) : Result :=
  .next ((s.elapse dt).driverFault core channel)

end Sys2Proof.Machine
end

