-- ==== Sys2Proof/Machine/Jobs.lean ====
section
/-! DEFINITION. Jobs: LOAD with its checks, UNLOAD, HOLD and RELEASE, the scheduler, admission, and switching (R164 to R166,
R230 to R238, R248, R259, R341). -/

namespace Sys2Proof.Machine

-- the job record (R230 to R232)

def stJobFormat : Nat := 0x40
def stJobGeometry : Nat := 0x41
def stJobNoSlot : Nat := 0x42
def stJobMemory : Nat := 0x43

/-- Bits set in a mask of 16. -/
def bits16 (v : Nat) : List Nat := (List.range 16).filter (fun i => bitOf v i)

/-- A CORE entry as read, its reserved bytes apart. -/
def coreEntryOf (b : List Byte) : CoreEntry :=
  { codeSrc := field b 0 8, codeBytes := field b 8 4, codeDst := field b 12 4, descDst := field b 16 4, churnDst := field b 20 4
    descSrc := field b 24 8, regionBase := field b 32 4, regionBytes := field b 36 4 }

/-- A layer table entry as read. -/
def layerOf (b : List Byte) : Layer :=
  { tag := field b 0 2 % 16384, pin := field b 2 1 % 4, bits := field b 3 1 % 4, rank := field b 4 2, banks := field b 6 2
    w := field b 8 4 }

/-- The job that a record of 1,920 bytes describes. -/
def jobOf (m : Mem) (a : Nat) : Job :=
  let b := m.read a 1920
  let table := field b 40 8
  { record := a, seed := field b 8 8, mask := field b 16 2, priority := field b 18 1 % 8, kvFmt := field b 19 1
    kvLayers := field b 20 2, kBytes := field b 24 4, vBytes := field b 28 4, saveBase := field b 32 8, layerTable := table
    stopTokens := ((List.range 8).map (fun i => field b (48 + 4 * i) 4)).filter (fun t => t != 0xFFFFFFFF)
    kv := (List.range 20).map (fun i => { pageBase := field b (256 + 32 * i) 8, pageBytes := field b (264 + 32 * i) 8
                                          nodeBase := field b (272 + 32 * i) 8, nodeBytes := field b (280 + 32 * i) 8 })
    cores := (List.range 16).map (fun i => coreEntryOf ((b.drop (896 + 64 * i)).take 64))
    layers := (List.range (field b 22 2)).map (fun i => layerOf (m.read (table + 16 * i) 16)) }

/-- The entries of the logical cores that the job uses, and where its save area ends (R236). -/
def Job.used (x : Job) : List CoreEntry := (bits16 x.mask).map (fun i => x.cores.getD i {})
def Job.saveBytes (x : Job) : Nat := 0x8200000 * x.used.length + (x.used.map (fun e => e.regionBytes)).sum

-- check 1 (R259)

/-- What a LOAD reads in HBM, and what it may write there: save area and KV areas. -/
def Job.sources (x : Job) : List (Nat × Nat) :=
  (x.record, 1920) :: (x.layerTable, 16 * x.layers.length) ::
    x.used.flatMap (fun e => [(e.codeSrc, e.codeBytes), (e.descSrc, 32768)])
def Job.areas (x : Job) : List (Nat × Nat) :=
  (x.saveBase, x.saveBytes) :: x.kv.flatMap (fun a => [(a.pageBase, a.pageBytes), (a.nodeBase, a.nodeBytes)])

/-- A core is in service (DEDUCED: not FENCED, REPAIR or RETIRED, as requests are served from STANDBY). -/
def State.coreInService (s : State) (c : Nat) : Bool :=
  let u := s.unit (coreRef c)
  !(u = .fenced || u = .repair || u = .retired)

/-- The cores that the firmware binds: the lowest in service on which the master holds LAUNCH (DESIGN CHOICE). -/
def State.bindable (s : State) (m : Nat) : List Nat :=
  (List.range 16).filter (fun c => s.coreInService c && has (s.launchRights m c) rightLaunch)

/-- The first access of a list that the master's rights do not cover. -/
def State.firstDenied (s : State) (m bit : Nat) (l : List (Nat × Nat)) : Option Nat :=
  (l.find? (fun a => a.2 != 0 && checkRegions m (s.hbmRegions m) a.1 a.2 bit != .ok)).map Prod.fst

/-- Check 1: the address or entry refused, and the right lacking. -/
def State.loadDenied (s : State) (m : Nat) (x : Job) : Option (Nat × Nat) :=
  let cs := s.bindable m
  match s.firstDenied m rightR x.sources with
  | some a => some (a, rightR)
  | none =>
    match s.firstDenied m rightW x.areas with
    | some a => some (a, rightW)
    | none =>
      if cs.length < x.used.length then
        some (odKey 0x3071 (1 + 4 * ((List.range 16).find? (fun c => c ∉ cs)).getD 0), rightLaunch)
      else
        ((cs.zip x.used).find? (fun e => checkRegions m (s.storeRegions m e.1) (storeBase e.1 + e.2.regionBase) e.2.regionBytes
          rightW != .ok)).map (fun e => (storeBase e.1 + e.2.regionBase, rightW))

-- checks 2 to 5 (R233)

/-- Check 2 of a CORE entry: alignments, sizes, and its ranges inside its REGION, which ends at or below the pail. -/
def coreEntryOk (e : CoreEntry) (pail : Nat) : Bool :=
  let inside (a n : Nat) : Bool := e.regionBase ≤ a && a + n ≤ e.regionBase + e.regionBytes
  e.codeBytes % 16 = 0 && e.codeBytes ≤ 0x4000000 && e.codeDst % 16 = 0 && e.descDst % 64 = 0 && e.churnDst % 0x100000 = 0 &&
  e.regionBase % 0x100000 = 0 && e.regionBytes % 0x100000 = 0 && e.regionBase + e.regionBytes + pail ≤ storeSize &&
  inside e.codeDst e.codeBytes && inside e.descDst 32768 && inside e.churnDst 0x10000000

/-- Check 2 of a layer table entry (R232). -/
def layerOk (b : List Byte) : Bool :=
  field b 0 2 < 16384 && field b 2 1 < 4 && field b 3 1 < 3 && 1 ≤ field b 6 2 && field b 6 2 ≤ 1024 && 1 ≤ field b 8 4 &&
  field b 8 4 ≤ 65536 && field b 12 4 = 0

/-- No layer tag stands twice in the table (DEDUCED). -/
def tagsOnce (l : List Nat) : Bool := l.eraseDups.length = l.length

/-- Check 2: format, reserved fields and ranges of R230 to R232 and R243. -/
def State.formatOk (s : State) (x : Job) : Bool :=
  let b := s.mem.read x.record 1920
  let zero (off n : Nat) : Bool := field b off n = 0
  let pail := s.val 0x4002 3 * 2 ^ 20
  x.record % 64 = 0 && field b 0 4 = 0x00010000 && field b 4 4 = 1920 && x.mask != 0 && field b 18 1 < 8 && 1 ≤ x.kvFmt &&
  x.kvFmt ≤ 4 && x.kvLayers ≤ 512 && x.layers.length ≤ 4096 && 2 ≤ x.kBytes && x.kBytes ≤ 65536 && 2 ≤ x.vBytes &&
  x.vBytes ≤ 65536 && x.saveBase % 65536 = 0 && x.layerTable % 16 = 0 && zero 80 48 && zero 220 36 &&
  x.kv.all (fun a => a.pageBase % 4096 = 0 && a.nodeBase % 4096 = 0) &&
  (List.range 16).all (fun i =>
    if bitOf x.mask i then coreEntryOk (x.cores.getD i {}) pail && zero (936 + 64 * i) 24 else zero (896 + 64 * i) 64) &&
  (List.range x.layers.length).all (fun i => layerOk (s.mem.read (x.layerTable + 16 * i) 16)) &&
  tagsOnce (x.layers.map (fun l => l.tag))

/-- Check 3: the program's needs against the geometry (R7). -/
def State.geometryOk (s : State) (x : Job) : Bool :=
  let b := s.mem.read x.record 1920
  (List.range 0x17).all (fun i => field b (128 + 4 * i) 4 ≤ s.val 0x2001 (i + 1))

/-- Two spans have a byte in common. -/
def meets (a b : Nat × Nat) : Bool := 0 < overlap a.1 a.2 b.1 b.2
def apart : List (Nat × Nat) → Bool
  | [] => true
  | a :: l => l.all (fun b => !meets a b) && apart l

/-- Check 5: every area lies in mapped memory, a KV area on its own stack, and none overlaps another of the job or an area of
another resident job. -/
def State.memoryOk (s : State) (x : Job) : Bool :=
  let mapped (a : Nat × Nat) : Bool := a.2 = 0 || (a.1 + a.2 ≤ hbmSize && !s.touchesRetired a.1 a.2)
  let home (m base size : Nat) : Bool := size = 0 || (stackOf base = m && stackOf (base + size - 1) = m)
  let others := (s.jobs.filter (fun j => j.2.st != .free)).flatMap (fun j => j.2.areas)
  x.sources.all mapped && x.areas.all mapped && apart x.areas && x.areas.all (fun a => others.all (fun b => !meets a b)) &&
  (List.range 20).all (fun m => let a := x.kv.getD m {}
    home m a.pageBase a.pageBytes && home m a.nodeBase a.nodeBytes)

/-- The Job Code: the first 8 bytes of SHAKE256 over the layer table, the code bytes and the KV fields (R341; the fields as the
record holds them, DEDUCED). -/
def State.jobCode (s : State) (x : Job) : Nat :=
  leNat ((shake256 (s.mem.read x.layerTable (16 * x.layers.length) ++
    x.used.flatMap (fun e => s.mem.read e.codeSrc e.codeBytes) ++
    leBytes 1 x.kvFmt ++ leBytes 2 x.kvLayers ++ leBytes 4 x.kBytes ++ leBytes 4 x.vBytes)).take 8)

/-- A job's logical cores are bound to cores, in order. -/
def Job.boundTo (x : Job) (cs : List Nat) : Job :=
  { x with cores := ((List.range 16).map (fun i =>
      let e := x.cores.getD i {}
      if bitOf x.mask i then { e with bound := cs[((bits16 (x.mask % 2 ^ i)).length)]? } else e)) }

/-- A LOAD request: its checks in order; one that passes them takes the lowest FREE slot (R233). -/
def State.loadRq (r : Rq) (s : State) : State :=
  let x := jobOf s.mem (rqField r.entry 0 8)
  match s.loadDenied r.m x with
  | some (a, bit) => s.answerDenied r a (2 ^ bit)
  | none =>
    if !s.formatOk x then s.answer r stJobFormat 0
    else if !s.geometryOk x then s.answer r stJobGeometry 0
    else
      match (List.range 8).find? (fun j => (s.job j).st = .free) with
      | none => s.answer r stJobNoSlot 0
      | some j =>
        if !s.memoryOk x then s.answer r stJobMemory 0
        else
          let y := { x.boundTo (s.bindable r.m) with
            st := .loading, owner := r.m, ring := r.ring, tagOfLoad := rqTag r.entry, code := s.jobCode x }
          s.modJob j (fun _ => y)

def execLoad (dt : Nat) (s : State) : Result := .next ((s.elapse dt).serve rqLoad State.loadRq)

/-- LOAD_COMPLETE: code and descriptor tables stand in the core stores; banks are granted, the slot is READY, and the LOAD
completes with its number. -/
def State.loadDone (s : State) (j : Nat) : State :=
  let x := s.job j
  if x.st != .loading then s
  else
    let s := x.logicals.foldl (fun s l => s.copyCode j l) s
    let s := (s.grantAll j).modJob j (fun y => { y with waitSince := s.up })
    (s.jobTo j .ready).done x.owner x.ring rqLoad stOk j x.tagOfLoad

def execLoadComplete (dt : Nat) (slot : Fin 8) (s : State) : Result := .next ((s.elapse dt).loadDone slot)

-- UNLOAD, HOLD, RELEASE (R235, R259)

/-- The planes whose record names a job become EMPTY, and its writes end (R100, R235). -/
def State.emptyBanks (s : State) (j : Nat) : State :=
  forRange 16 s (fun s c =>
    let s := forRange 34 s (fun s e => s.modEng c e (fun g =>
      let mine (p : Plane) : Bool := p.record.any (fun r => r.job = j)
      let runs (w : WriteRun) : Bool := w.record.job = j && w.spare.isNone
      let gone (p : Nat) : Bool := mine (g.plane p)
      { g with
        plane0 := if mine g.plane0 then g.plane0.emptied else g.plane0
        plane1 := if mine g.plane1 then g.plane1.emptied else g.plane1
        cal := g.cal.filter (fun x => !gone x.plane)
        writing := if g.writing.any (fun w => runs w || gone w.plane) then none else g.writing
        writeWait := g.writeWait.filter (fun w => !runs w)
        remapWait := g.remapWait.filter (fun w => !gone w.plane) }))
    s.modCore c (fun k => { k with standRecords := k.standRecords.filter (fun r => r.2.job != j) }))

/-- A job leaves: its vats are cleared without a save, its records end, its streams close and its banks are emptied
(R164, R235, R238). -/
def State.unloadNow (s : State) (j : Nat) : State :=
  let s := s.discardJob j
  let s := (s.jobTo j .unloading).modJob j (fun x => { x with
    after := 0, step := none, reissue := none, saved := [], layers := x.layers.map (fun l => { l with grants := [] }) })
  let s := (s.sched.launches.filter (fun l => l.job = j)).foldl (fun s l => s.failLaunch l stJobState) s
  let s := { s with sched := { s.sched with
    saving := s.sched.saving.filter (fun x => x != j), restoring := s.sched.restoring.filter (fun x => x != j)
    lastOut := s.sched.lastOut.filter (fun x => x != j) } }
  ((s.streamsOf j).foldl (fun s n =>
    if (s.stream n).st = .closing || 65536 ≤ n then s else (s.logClosed n).closeNow n) s).emptyBanks j

/-- The rights of a request on a job: its owner, or ADMIN on every core bound to it; the first core lacking (R259). -/
def State.jobDenied (s : State) (m j : Nat) : Option Nat :=
  if m = 0 || (s.job j).owner = m then none
  else (s.jobCores j).find? (fun c => !has (s.launchRights m c) rightAdmin)

/-- A request that names a slot: rights, then the states it is accepted in. -/
def State.jobRq (r : Rq) (ok : JobSt → Bool) (f : Nat → State → State) (s : State) : State :=
  let j := rqField r.entry 0 1 % 8
  if (s.job j).st = .free then s.answer r stJobState 0
  else
    match s.jobDenied r.m j with
    | some c => s.answerDenied r (odKey 0x3071 (1 + 4 * c)) (2 ^ rightAdmin)
    | none => if ok (s.job j).st then (f j s).answer r stOk 0 else s.answer r stJobState 0

/-- UNLOAD: at once, or after the running step of a RUNNING job. -/
def State.unloadRq (r : Rq) (s : State) : State :=
  s.jobRq r (fun st => st = .ready || st = .held || st = .faulted || st = .running) (fun j s =>
    if (s.job j).st = .running && (s.job j).step.isSome then s.modJob j (fun x => { x with after := 2 }) else s.unloadNow j)
def State.holdRq (r : Rq) (s : State) : State :=
  s.jobRq r (fun st => st = .ready || st = .running) (fun j s => s.holdJob j)
def State.releaseRq (r : Rq) (s : State) : State :=
  s.jobRq r (fun st => st = .held) (fun j s => (s.modJob j (fun x => { x with waitSince := s.up })).jobTo j .ready)

def execUnload (dt : Nat) (s : State) : Result := .next ((s.elapse dt).serve rqUnload State.unloadRq)
def execHold (dt : Nat) (s : State) : Result := .next ((s.elapse dt).serve rqHold State.holdRq)
def execRelease (dt : Nat) (s : State) : Result := .next ((s.elapse dt).serve rqRelease State.releaseRq)

/-- No plane and no stand-in bank names a job any more. -/
def State.banksEmpty (s : State) (j : Nat) : Bool :=
  s.engines.all (fun g => !(g.2.plane0.record.any (fun r => r.job = j)) && !(g.2.plane1.record.any (fun r => r.job = j))) &&
  s.cores.all (fun k => k.2.standRecords.all (fun r => r.2.job != j))

/-- UNLOAD_COMPLETE: every stream FREE and every bank EMPTY, the slot is FREE; its pins and the mirrors in its frames go. -/
def State.unloadDone (s : State) (j : Nat) : State :=
  if (s.job j).st != .unloading || !(s.streamsOf j).isEmpty || !s.banksEmpty j then s
  else
    let s := (s.twin.mirrors.filter (fun m => m.have_ && m.job = j)).foldl (fun s m => s.dropMirror m.ckpt.stream) s
    { s with
      jobs := tset s.jobs j {}, pins := s.pins.filter (fun e => e / 65536 % 8 != j)
      sched := { s.sched with closedTags := s.sched.closedTags.filter (fun x => x.1 != j) } }

def execUnloadComplete (dt : Nat) (slot : Fin 8) (s : State) : Result := .next ((s.elapse dt).unloadDone slot)

-- the scheduler (R236)

/-- The device may run jobs. -/
def State.mayRunJobs (s : State) : Bool :=
  (s.run.st = .ready || s.run.st = .serving) && s.twin.st != .selfFenced && s.twin.handover = 0

/-- A job has streams in the batch, or a record whose time has come (DESIGN CHOICE: a job without streams runs for its
records). -/
def State.wantsCores (s : State) (j : Nat) : Bool :=
  (s.streamsOf j).any (fun n => (s.stream n).st = .active || (s.stream n).st = .restoring) ||
  s.sched.launches.any (fun l => l.job = j && l.time ≤ s.ns)
def State.hasQueued (s : State) (j : Nat) : Bool := (s.streamsOf j).any (fun n => (s.stream n).st = .queued)

/-- A job may be chosen: READY or RUNNING, with no HOLD or UNLOAD that waits for a step boundary only. -/
def State.choosable (s : State) (j : Nat) : Bool :=
  let x := s.job j
  (x.st = .ready || x.st = .running) && (x.after = 0 || x.step.isSome)

/-- One job goes before another: PRIORITY, then the longer wait, a RUNNING job last. -/
def State.jobBefore (s : State) (a b : Nat) : Bool :=
  let x := s.job a
  let y := s.job b
  x.priority < y.priority || (x.priority = y.priority &&
    (if x.st = .running then false else if y.st = .running then true else x.waitSince < y.waitSince))

def State.bestJob (s : State) (f : Nat → Bool) : Option Nat :=
  (List.range 8).foldl (fun (b : Option Nat) j =>
    if !(s.choosable j && f j) then b
    else match b with
      | none => some j
      | some k => if s.jobBefore j k then some j else b) none

/-- The job that should run, and the one whose streams are admitted next. -/
def State.chosen (s : State) : Option Nat := if s.mayRunJobs then s.bestJob s.wantsCores else none
def State.nextJob (s : State) : Option Nat := if s.mayRunJobs then s.bestJob (fun j => s.wantsCores j || s.hasQueued j) else none

-- admission (R248)

/-- QUEUED streams of a job in the order of the queue. -/
def State.queuedOf (s : State) (j : Nat) : List Nat :=
  let before (a b : Nat) : Bool :=
    let x := s.stream a
    let y := s.stream b
    x.priority < y.priority || (x.priority = y.priority && x.arrival < y.arrival)
  let rec put (n : Nat) : List Nat → List Nat
    | [] => [n]
    | m :: ms => if before n m then n :: m :: ms else m :: put n ms
  ((s.streamsOf j).filter (fun n => (s.stream n).st = .queued)).foldl (fun acc n => put n acc) []

/-- The number of streams that may be admitted, none for no limit. -/
def State.admitLimit (s : State) : Option Nat :=
  let u := s.sched.busy
  let own : Option Nat :=
    if 4 ≤ s.throttleOf [32] then some 0  -- the fabric die's throttling (R453)
    else if !s.flag 0x4010 1 then none
    else if s.val 0x4010 3 ≤ u then some 0
    else if s.val 0x4010 2 ≤ u then some (s.val 0x4010 4)
    else none
  match own, s.power.admitLimit with
  | none, g => g
  | some a, none => some a
  | some a, some b => some (min a b)

/-- Streams of a job in the batch. -/
def State.batchSize (s : State) (j : Nat) : Nat :=
  ((s.streamsOf j).filter (fun n => (s.stream n).st = .active || (s.stream n).st = .restoring)).length

/-- ADMISSION: QUEUED streams become ACTIVE within the limits; one left in the queue keeps its place. -/
def State.takeQueued (s : State) (j : Nat) : State :=
  let limit := s.admitLimit
  let x := s.job j
  let r := (s.queuedOf j).foldl (fun (acc : State × Nat × Bool) n =>
    let s := acc.1
    let need := ceilDiv (s.stream n).prompt.length 64 * x.kvLayers + x.kvLayers
    if acc.2.2 || some acc.2.1 = limit || (s.flag 0x4010 1 && s.val 0x4011 1 ≤ s.batchSize j) then (s, acc.2.1, true)
    else if s.freeFrames j .page < need + s.val 0x4010 5 * s.allFrames j .page / 1000 then acc
    else
      let k := s.sched.arrivals + 1
      let s := { s with sched := { s.sched with arrivals := k } }
      ((s.modStream n (fun c => { c with arrival := k })).streamTo n .active 0, acc.2.1 + 1, false)) (s, 0, false)
  r.1

/-- Some job's step is in progress on the cores. -/
def State.stepRuns (s : State) : Bool := s.jobs.any (fun j => j.2.st = .running && j.2.step.isSome)

/-- BUSY_SHARE_INTERVAL: `shares` are the stacks' busy shares, per mille; u is their mean over the stacks in service. Between
steps the queue of the next job is looked at again. -/
def State.busyShare (s : State) (shares : List Nat) : State :=
  let live := (List.range 20).filter (fun m => s.unit (stackRef m) != .retired)
  let s := forRange 20 s (fun s m => s.setVal (0x5900 + m) 7 (shares.getD m 0 % 65536))
  let u := ((live.map (fun m => shares.getD m 0)).sum) / live.length
  let s := { s with sched := { s.sched with busy := u } }
  match s.nextJob with
  | some j => if s.stepRuns then s else s.takeQueued j
  | none => s

def execBusyShareInterval (dt : Nat) (shares : List Nat) (s : State) : Result := .next ((s.elapse dt).busyShare shares)

-- switching (R164 to R166, R235, R236)

/-- Banks whose image lay in a stack that has been retired become EMPTY at their job's next switch (R476). -/
def State.emptyLost (s : State) (j : Nat) : State :=
  let lost (p : Plane) : Bool := p.record.any (fun r => r.job = j && s.touchesRetired r.image imageBytes) && p.st != .writing
  { s with engines := s.engines.map (fun g => (g.1, { g.2 with
      plane0 := if lost g.2.plane0 then g.2.plane0.emptied else g.2.plane0
      plane1 := if lost g.2.plane1 then g.2.plane1.emptied else g.2.plane1 })) }

/-- JOB_SAVE_DONE: the outgoing job stands quiet on every core; it is saved and its vats are cleared. A RUNNING job becomes
READY, or HELD where a HOLD waited for the end of its step. -/
def State.saveDone (s : State) : State :=
  match s.sched.saving with
  | none => s
  | some j =>
    let x := s.job j
    if !(s.holders j).all s.coreQuiet || (x.st = .faulted && x.step.isSome) then s
    else
      let s := (s.emptyLost j).saveJob j
      let s := { s with sched := { s.sched with saving := none, lastOut := some j } }
      let s := s.modJob j (fun y => { y with waitSince := s.up, hasSave := true })
      if x.st != .running then s
      else if x.after = 1 && x.step.isNone then (s.modJob j (fun y => { y with after := 0 })).jobTo j .held
      else s.jobTo j .ready

/-- JOB_RESTORE_DONE: the chosen job takes the cores that no other holds: regions, vats, counters and positions come back,
banks that differ are rewritten, and it is RUNNING. -/
def State.restoreDone (s : State) (j : Nat) : State :=
  if (s.job j).st != .ready || s.coresHeld || s.sched.saving.isSome || !s.mayRunJobs ||
      !(s.sched.restoring = some j || s.chosen = some j) then s
  else
    let s := match s.sched.lastOut with
      | some o => if o = j then s else s.saveRegions o j
      | none => s
    let s := (s.restoreJob j).jobTo j .running
    let s := { s with sched := { s.sched with restoring := none } }
    (s.bump 0x4012 0xB 1).takeQueued j

def execJobRestoreDone (dt : Nat) (slot : Fin 8) (s : State) : Result := .next ((s.elapse dt).restoreDone slot)

/-- PREEMPTION: a READY job of higher priority than the RUNNING one has waited longer than the limit. -/
def State.preempt (s : State) (j : Nat) : State :=
  match s.sched.running with
  | none => s
  | some k =>
    let x := s.job j
    if x.st != .ready || !s.mayRunJobs || !s.wantsCores j || !(x.priority < (s.job k).priority) || s.sched.saving.isSome ||
        s.up ≤ x.waitSince + s.val 0x4012 9 * usPs then s
    else { s with sched := { s.sched with saving := some k, restoring := some j } }

def execPreemption (dt : Nat) (slot : Fin 8) (s : State) : Result := .next ((s.elapse dt).preempt slot)

/-- What waits for a step boundary of a job happens: UNLOAD, HOLD, or a switch for SAFE, DRAINING or self-fencing. Otherwise
the queue of the next job is admitted, and a better job takes the cores (R235, R236, R248). -/
def State.boundary_ (s : State) (j : Nat) : State :=
  let x := s.job j
  if x.after = 2 then s.unloadNow j
  else if x.after = 1 || (x.st = .running && (s.run.stopJobs || s.twin.handover != 0)) then s.switchOut j
  else
    let s := match s.nextJob with
      | some k => s.takeQueued k
      | none => s
    match s.chosen with
    | some k =>
      if k != j && x.st = .running && s.sched.saving.isNone then
        { s with sched := { s.sched with saving := some j, restoring := some k } }
      else s
    | none => s

end Sys2Proof.Machine
end

