-- ==== Sys2Proof/Machine/Power.lean ====
section
/-! DEFINITION. The governor with its levers and cap (R22 to R28, R465). -/

namespace Sys2Proof.Machine

/-- Levers of R24 at their limits: 0.55 V, half of issue, 2/8 of windows, half of the transaction rate, admission stopped. -/
def State.leverDone (s : State) (n : Nat) : Bool :=
  let p := s.power
  if n = 1 then s.cores.all (fun k => k.2.supply = 0 || k.2.supply ≤ 550)
  else if n = 2 then p.issue ≤ 12
  else if n = 3 then p.windows ≤ 2
  else if n = 4 then p.rate ≤ 12
  else p.admitLimit = some 0

/-- Levers in force (R465 `0x4000:04`). -/
def State.leverOn (s : State) (n : Nat) : Bool :=
  let p := s.power
  if n = 1 then p.pace < 1000 else if n = 2 then p.issue < 24 else if n = 3 then p.windows < 8 else if n = 4 then p.rate < 24
  else p.admitLimit.isSome

def State.leversInForce (s : State) : Nat := ((List.range 5).map (fun i => if s.leverOn (i + 1) then 2 ^ i else 0)).sum
def State.allDone (s : State) : Bool := (List.range 5).all (fun i => s.leverDone (i + 1))

/-- A lever moves on by an amount, to its limit at most; the admission limit takes the amount as the streams still admitted. -/
def Power.press (p : Power) (n amount : Nat) : Power :=
  if n = 1 then { p with pace := p.pace - amount }
  else if n = 2 then { p with issue := max 12 (p.issue - amount) }
  else if n = 3 then { p with windows := max 2 (p.windows - amount) }
  else if n = 4 then { p with rate := max 12 (p.rate - amount) }
  else { p with admitLimit := some (match p.admitLimit with
    | some k => min k amount
    | none => amount) }

/-- A lever moves back by an amount; the admission limit goes. -/
def Power.ease (p : Power) (n amount : Nat) : Power :=
  if n = 1 then { p with pace := min 1000 (p.pace + amount) }
  else if n = 2 then { p with issue := min 24 (p.issue + amount) }
  else if n = 3 then { p with windows := min 8 (p.windows + amount) }
  else if n = 4 then { p with rate := min 24 (p.rate + amount) }
  else { p with admitLimit := none }

/-- The time since which something holds. -/
def since (old : Option Nat) (now : Nat) (holds : Bool) : Option Nat := if holds then some (old.getD now) else none

/-- Where the levers and the draw stand is noted: how long every lever has been at its limit counts, and the alarm of R27 ends
with its state. -/
def State.noteLevers (s : State) : State :=
  let p := s.power
  let done := s.allDone
  let high := done && s.val 0x4000 1 < s.val 0x4000 2
  let s := match p.limitSince with
    | some t => if done then s else s.bump 0x4000 5 ((s.up - t) / msPs)
    | none => s
  let s := if p.capUnmet && !high then s.clearAlarm 0x0102 0 else s
  { s with power := { s.power with
      limitSince := since p.limitSince s.up done, overSince := since p.overSince s.up high, capUnmet := p.capUnmet && high
      belowSince := since p.belowSince s.up (100 * s.val 0x4000 2 < 97 * s.val 0x4000 1) } }

/-- The draw is measured, W (R465). -/
def State.measure (s : State) (draw : Nat) : State :=
  ((s.setVal 0x4000 2 (min draw 65535)).raiseTo 0x4000 3 (min draw 65535)).noteLevers

/-- GOVERNOR_LEVER_APPLY: with the draw at 97 % of the cap or more, the first lever short of its limit moves. -/
def State.leverApply (s : State) (draw amount : Nat) : State :=
  let s := s.measure draw
  if 100 * draw < 97 * s.val 0x4000 1 then s
  else
    match (List.range 5).find? (fun i => !s.leverDone (i + 1)) with
    | some i => (({ s with power := s.power.press (i + 1) amount } : State).restretchAll).noteLevers
    | none => s

def execGovernorLeverApply (dt : Nat) (draw amount : Nat) (s : State) : Result := .next ((s.elapse dt).leverApply draw amount)

/-- GOVERNOR_LEVER_RELEASE: after 10 ms below 97 % of the cap, the last lever in force moves back. -/
def State.leverRelease (s : State) (draw amount : Nat) : State :=
  let s := s.measure draw
  match s.power.belowSince with
  | none => s
  | some t =>
    if s.up < t + 10 * msPs then s
    else
      match [5, 4, 3, 2, 1].find? s.leverOn with
      | some n => (({ s with power := s.power.ease n amount } : State).restretchAll).noteLevers
      | none => s

def execGovernorLeverRelease (dt : Nat) (draw amount : Nat) (s : State) : Result := .next ((s.elapse dt).leverRelease draw amount)

/-- POWER_CAP_UNMET: the draw has stayed above the cap for 100 ms with every lever at its limit (R27). -/
def State.capUnmet (s : State) (draw : Nat) : State :=
  let s := s.measure draw
  match s.power.overSince with
  | none => s
  | some t =>
    if s.up < t + 100 * msPs || s.power.capUnmet then s
    else ({ s with power := { s.power with capUnmet := true } } : State).raise 0x0102 0 (s.val 0x4000 1)

def execPowerCapUnmet (dt : Nat) (draw : Nat) (s : State) : Result := .next ((s.elapse dt).capUnmet draw)

/-- POWER_CAP_WRITE (R28). -/
def State.powerCapAct (v : Nat) (s : State) : Nat × State := accept (s.setVal 0x4000 1 v).noteLevers

def execPowerCapWrite (dt : Nat) (road : Road) (watts : BitVec 16) (s : State) : Result :=
  .next ((s.elapse dt).writeRow road 0x4000 1 (leBytes 2 watts.toNat) (State.powerCapAct watts.toNat))

end Sys2Proof.Machine
end

