-- ==== Sys2Proof/Machine/TwinFrames.lean ====
section
/-! DEFINITION. Twin control frames as they are sent, and the changes of the twin state (R330 to R337). -/

namespace Sys2Proof.Machine

/-- The first 8 bytes of a hash as a number. -/
def hashHead (h : List Byte) : Nat := leNat (h.take 8)

/-- SHAKE256 of the device's public key, and its key prefix (R269, R332). -/
def ownHash : List Byte := shake256 Config.publicKey
def ownKey : Nat := hashHead ownHash

/-- The configured hash of the partner's key, and its key prefix (R327). -/
def State.partnerHash (s : State) : Nat := s.val 0x2200 2
def State.partnerPrefix (s : State) : Nat := s.partnerHash % 2 ^ 64

/-- FREE contexts of the stream table; the contexts from 65,536 on belong to mirrors. -/
def State.freeContexts (s : State) : Nat := 65536 - (s.streams.filter (fun x => x.1 < 65536 && x.2.st != .free)).length

/-- A control frame as it would be sent now (R332). -/
def State.frameOf (s : State) (type port : Nat) : TwinFrame :=
  { type := BitVec.ofNat 8 type, twinState := BitVec.ofNat 8 s.twin.st.code, runState := BitVec.ofNat 8 s.run.st.code
    port := BitVec.ofNat 8 port, sequence := BitVec.ofNat 64 s.twin.sequence
    sendTime := BitVec.ofNat 96 (leNat (timeBytes s.clock.now)), freeContexts := BitVec.ofNat 32 s.freeContexts
    logAcked := BitVec.ofNat 64 s.twin.partnerAcked, keyPrefix := BitVec.ofNat 64 ownKey }

/-- A frame has been sent: SEQUENCE moves on. -/
def State.nextSequence (s : State) : State := { s with twin := { s.twin with sequence := (s.twin.sequence + 1) % 2 ^ 64 } }

/-- A control frame on every usable twin port in service; sending has stopped in TAKING_OVER (R343). -/
def State.sendTwin (s : State) (type : Nat) : State :=
  if s.twin.st = .takingOver then s
  else s.twin.usable.foldl (fun s i =>
    if (s.unit (portRef (120 + i))).works then (s.emit (.twin i (s.frameOf type (120 + i)))).nextSequence else s) s

/-- A control frame to an address over the other ports (R334, R336). -/
def State.sendControl (s : State) (addr : Nat) (f : TwinFrame) : State := (s.emit (.control addr f)).nextSequence

/-- The PAIR_ID of the pair: both devices compute the same (R336). -/
def State.pairId (s : State) : Nat :=
  let other := leBytes 32 s.partnerHash
  hashHead (shake256 (if beNat ownHash ≤ beNat other then ownHash ++ other else other ++ ownHash))

/-- A frame to the witness (R336), and the note that it awaits its answer. -/
def State.sendWitness (s : State) (type : Nat) : State :=
  let f := { s.frameOf type 0xFF with pairId := BitVec.ofNat 64 s.pairId }
  let s := { s with twin := { s.twin with asked := s.twin.asked ++ [(s.twin.sequence, decide (type = 8))] } }
  s.sendControl (beNat (leBytes 16 (s.val 0x2200 4))) f

/-- A held grant is released (R336). -/
def State.releaseGrant (s : State) : State :=
  if !s.twin.grant then s
  else ({ s with twin := { s.twin with releasing := true } } : State).sendWitness 11

/-- The alarm of a twin state (R331), 0 for none. -/
def twinAlarm : TwinSt → Nat
  | .linkDown => 0x0502
  | .takingOver => 0x0503
  | .selfFenced => 0x0504
  | _ => 0

/-- Partner streams held (R352). -/
def State.mirrored (s : State) : Nat := (s.twin.mirrors.filter (fun m => m.have_)).length

/-- The twin state changes: reported, and its alarm comes or goes (R331). -/
def State.twinSet (s : State) (st : TwinSt) : State :=
  let old := s.twin.st
  if old = st then s
  else
    let s := { s with twin := { s.twin with st := st } }
    let s := s.setVal 0x2201 1 st.code
    let s := if twinAlarm old = 0 then s else s.clearAlarm (twinAlarm old) 0
    let s := s.raise 0x0501 0 (st.code + old.code * 256)
    let s := if st = .linkDown then s.bump 0x2201 6 1 else if st = .takingOver then s.bump 0x2201 7 1
      else if st = .selfFenced then s.bump 0x2201 8 1 else s
    if twinAlarm st = 0 then s else s.raise (twinAlarm st) 0 (if st = .takingOver then s.mirrored else 0)

/-- The heartbeat deadline starts afresh (R333): Heartbeat Interval + 10 us after an arrival. -/
def State.restartDeadline (s : State) : State :=
  { s with twin := { s.twin with misses := 0, lastBeat := s.ns, deadline := s.ns + 1000 * s.val 0x2200 7 + 10000 } }

/-- Entry into SYNCING (R331, R336): every stream is checkpointed whole, the log goes on, a grant is released. -/
def State.enterSyncing (s : State) : State :=
  let s := (s.twinSet .syncing).restartDeadline
  let s := { s with twin := { s.twin with probeAt := none, goodSince := none, partnerFree := none } }
  (s.sendLog.checkpointFresh).releaseGrant

/-- A takeover is over once no adopted stream is still restored and the rest wait in the backlog (R331, R345). -/
def State.settleTakeover (s : State) : State :=
  if s.twin.st = .takingOver && !(s.streams.any (fun x => x.1 < 65536 && x.2.st = .restoring)) then s.twinSet .degraded else s

/-- Entry into TAKING_OVER (R343): what was held for the log goes out, and the mirrors are adopted; their tokens are held until
`hold`. -/
def State.enterTakeover (s : State) (hold : Nat) : State :=
  let s := (s.twinSet .takingOver).releaseLog
  let s := { s with twin := { s.twin with takeoverAt := s.ns } }
  let s := s.setVal 0x2201 0x11 (leNat (timeBytes s.clock.now))
  (s.adoptAll hold).settleTakeover

/-- The time until which adopted tokens are held (R337). -/
def State.fenceTime (s : State) : Nat := s.twin.suspectAt + 1000 * (s.val 0x2200 8 + s.val 0x2200 9)

/-- Entry into LINK_DOWN (R339). -/
def State.enterLinkDown (s : State) : State :=
  let s := (s.twinSet .linkDown).releaseLog
  { s with twin := { s.twin with goodSince := none } }

/-- The probes of SUSPECT (R334): TWIN_QUERY goes to the Emergency sink alone (R486), whatever its filter. -/
def State.twinQuery (s : State) : State := if s.flag 0x2200 6 then s.emitRecord 0x0507 3 0 0 false [1] else s
def State.sendProbe (s : State) : State :=
  let a := s.val 0x2200 3
  if a = 0 then s else s.sendControl (beNat (leBytes 16 a)) (s.frameOf 2 0xFF)

/-- Entry into SUSPECT (R331, R334): probes start. -/
def State.enterSuspect (s : State) : State :=
  let s := { s with twin := { s.twin with before := s.twin.st, suspectAt := s.ns, probeAt := some s.ns, asked := [] } }
  ((s.twinSet .suspect).sendProbe).twinQuery

end Sys2Proof.Machine
end

