-- ==== Sys2Proof/Machine/RunState.lean ====
section
/-! DEFINITION. How the run state ends or starts over: SAFE, draining, handover, orderly and immediate power-down, cold reset, the
reset loop and the feeds (R347, R392, R393, R461 to R464, R507, R514 to R518, R531). -/

namespace Sys2Proof.Machine

-- DRAINING and SAFE (R393)

/-- RUNNING jobs switch out: at once between steps, else at the step's end (R235, R393). -/
def State.stopJobs (s : State) : State :=
  let s := { s with run := { s.run with stopJobs := true } }
  match s.sched.running with
  | some j => if (s.job j).step.isNone then s.switchOut j else s
  | none => s

/-- DRAINING ends once no step runs and no job is RUNNING. -/
def State.settleDrain (s : State) : State :=
  if s.run.st = .draining && !s.anyRunning && !s.stepRuns then
    ({ s with run := { s.run with stopJobs := false } } : State).runTo .ready
  else s

/-- Entry into SAFE with its cause (R394): 1 command, 2 twin self-fence. -/
def State.toSafe (s : State) (cause : Nat) : State :=
  if s.run.st = .warming || s.run.st = .ready || s.run.st = .serving || s.run.st = .draining then
    ((s.runTo .safe).setVal 0x2000 6 cause).stopJobs
  else s

-- off and over (R461, R507, R514 to R516)

/-- Entries that outlive power: those marked non-volatile, and those counted since manufacture or blown for good. -/
def survives (key : Nat) : Bool :=
  key = odKey 0x3100 6 || key = odKey 0x3100 0xB || key = odKey 0x3110 3 || key = odKey 0x6002 7 ||
  (match odRow (key / 256) (key % 256) with
   | some r => r.nonVolatile
   | none => false)

/-- What a plane keeps (R91). -/
def Plane.kept (p : Plane) : Plane := { map := p.map, retired := p.retired, rewrites := p.rewrites }

/-- The part as it starts over: everything as after reset but its non-volatile records, what is plugged into it, its feeds, and
the commands that wait (R515). -/
def State.cold (s : State) : State :=
  { State.reset with
    pending := s.pending, out := s.out, free := s.free
    clock := { up := s.clock.up }
    od := s.od.filter (fun e => survives e.1)
    units := (s.units.filter (fun u => u.2.retiredNv)).map (fun u => (u.1, { st := .retired, retiredNv := true }))
    engines := (s.engines.map (fun g => (g.1, { plane0 := g.2.plane0.kept, plane1 := g.2.plane1.kept }))).filter
      (fun g => g.2 != {})
    cartridges := s.cartridges.map (fun k => (k.1, { k.2 with disarmed := true }))
    hosts := (s.hosts.map (fun h => (h.1, { perst := h.2.perst }))).filter (fun h => h.2 != {})
    power := { feedA := s.power.feedA, feedB := s.power.feedB, absentSince := s.power.absentSince, normalA := s.power.normalA
               normalB := s.power.normalB }
    security := { slotA := s.security.slotA, slotB := s.security.slotB, imageA := s.security.imageA, imageB := s.security.imageB }
    run := { startAt := s.clock.up } }

/-- A feed is present. -/
def State.feedPresent (s : State) : Bool := s.power.feedA != 2 || s.power.feedB != 2

/-- The converters go off (R461): dark, and the run state is OFF. `how` is what Last Power-down tells (R519). -/
def State.powerOff (s : State) (how : Nat) : State :=
  let s := s.setVal 0x400A 6 how
  let c := s.cold
  { c with run := { c.run with st := .off, offWithFeed := s.feedPresent } }

/-- The start at the BOOT row of R507, with the cause that Last Reset Cause tells (R519). -/
def State.boot (s : State) (cause : Nat) : State := s.cold.setVal 0x400A 4 cause

-- handover (R347)

/-- A stream's last acknowledged checkpoint says all there is to say. -/
def State.settled (s : State) (n : Nat) : Bool :=
  let c := s.stream n
  c.ckptWait.isNone && c.ckptAcked && c.dirty.isEmpty && (match c.ckptLast with
    | some k => { s.checkpointOf n with seq := k.seq } = k
    | none => false)

/-- The streams of this device. -/
def State.ownStreams (s : State) : List Nat := (s.streams.filter (fun x => x.1 < 65536 && x.2.st != .free)).map Prod.fst

/-- A stream is handed over: its frames come back and its context is FREE, without a completion. -/
def State.handStream (s : State) (n : Nat) : State := (s.freePages n).freeStream n

/-- A handover begins: jobs stop at their step ends. -/
def State.beginHandover (s : State) (down : Bool) : State :=
  let s := { s with twin := { s.twin with handover := 1, handoverDown := down } }
  match s.sched.running with
  | some j => if (s.job j).step.isNone then s.switchOut j else s
  | none => s

/-- A handover goes on: with every job stopped a final checkpoint of each stream is sent; with all acknowledged the streams go. -/
def State.onHandover (s : State) : State :=
  let s := if s.twin.handover = 1 && !s.anyRunning && !s.stepRuns && s.sched.saving.isNone then
      let s := { s with twin := { s.twin with handover := 2 } }
      s.ownStreams.foldl (fun s n => if (s.stream n).ckptWait.isNone then s.sendCheckpoint n else s) s
    else s
  if s.twin.handover != 2 then s
  else if s.ownStreams.all s.settled then
    let s := s.ownStreams.foldl State.handStream s
    { s with twin := { s.twin with handover := 0 } }
  else s.ownStreams.foldl (fun s n => if !s.settled n && (s.stream n).ckptWait.isNone then s.sendCheckpoint n else s) s

-- orderly power-down (R461, R517)

/-- GOODBYE, and the part goes dark. -/
def State.endShutdown (s : State) : State := (s.sendTwin 4).powerOff 1

/-- An orderly power-down goes on: with job state saved a paired part hands over; with that done it goes dark. -/
def State.onShutdown (s : State) : State :=
  if s.run.st != .shutdown then s
  else if s.run.downStep = 2 then
    if s.anyRunning || s.sched.saving.isSome then s
    else if s.twin.st = .paired then
      let s := { s with run := { s.run with downStep := 3, handoverAt := some s.up } }
      let s := (s.beginHandover true).onHandover
      if s.twin.handover = 0 then s.endShutdown else s
    else s.powerOff 1
  else if s.run.downStep = 3 && s.twin.handover = 0 then s.endShutdown
  else s

/-- What waits for jobs to stop and for checkpoints goes on. -/
def State.advance (s : State) : State := (s.settleDrain.onHandover).onShutdown

/-- An orderly power-down begins (R517): from STANDBY only its last two steps run; else the RUNNING job stops at its vector
boundaries and is saved. -/
def State.beginShutdown (s : State) : State :=
  if s.run.st = .standby then s.powerOff 1
  else
    let s := s.runTo .shutdown
    let s := { s with run := { s.run with downStep := 2, handoverLimit := s.val 0x400A 3 } }
    let s := match s.sched.running with
      | some j => s.switchOut j
      | none => s
    s.onShutdown

/-- A run state from which SHUTDOWN is entered (R393). -/
def RunSt.powered (r : RunSt) : Bool := r != .off && r != .boot && r != .shutdown

/-- A module shutdown (R461), orderly or immediate. -/
def State.moduleShutdown (s : State) (orderly : Bool) : State :=
  if !orderly then (if s.run.st = .off then s else s.powerOff 2)
  else if s.run.st.powered then s.beginShutdown
  else s

/-- JOB_SAVE_DONE: the outgoing job is saved; what waited for it goes on (R164, R347, R461). -/
def execJobSaveDone (dt : Nat) (s : State) : Result := .next ((s.elapse dt).saveDone.advance)

/-- SHUTDOWN_HANDOVER_LIMIT: GOODBYE is sent without the acknowledgements. -/
def State.handoverLimit (s : State) : State :=
  match s.run.handoverAt with
  | some t => if s.run.st = .shutdown && s.run.downStep = 3 && t + s.run.handoverLimit * msPs ≤ s.up then s.endShutdown else s
  | none => s

def execShutdownHandoverLimit (dt : Nat) (s : State) : Result := .next ((s.elapse dt).handoverLimit)

-- run commands that end service

/-- SHUTDOWN: from STANDBY to SAFE. -/
def State.shutdownAct (s : State) : Nat × State := if s.run.st.powered then accept s.beginShutdown else refuse abState s

def execShutdown (dt : Nat) (road : Road) (s : State) : Result :=
  .next ((s.elapse dt).writeRow road 0x2000 2 [5] State.shutdownAct)

/-- COLD_RESET: from any run state but OFF. -/
def State.coldResetAct (s : State) : Nat × State := if s.run.st = .off then refuse abState s else accept (s.boot 1)

def execColdReset (dt : Nat) (road : Road) (s : State) : Result :=
  .next ((s.elapse dt).writeRow road 0x2000 2 [6] State.coldResetAct)

/-- RESET_LOOP_ASSERT: the loop has stayed closed for 10 ms; with a feed present the part goes dark and stays so. -/
def State.loopAssert (s : State) : State :=
  if !s.feedPresent then s
  else
    let s := if s.run.st = .off then s else s.powerOff (s.val 0x400A 6)
    { s with run := { s.run with loopAsserted := true } }

def execResetLoopAssert (dt : Nat) (s : State) : Result := .next ((s.elapse dt).loopAssert)

/-- RESET_LOOP_RELEASE: the part starts at BOOT. -/
def State.loopRelease (s : State) : State :=
  if !s.run.loopAsserted then s
  else if s.feedPresent then s.boot 2
  else { s with run := { s.run with loopAsserted := false } }

def execResetLoopRelease (dt : Nat) (s : State) : Result := .next ((s.elapse dt).loopRelease)

-- feeds (R463, R464, R507, R518)

/-- A feed's voltage in mV: 0 normal, 1 abnormal but tolerated, 2 absent. -/
def feedState (mv : Int) : Nat :=
  if -57000 ≤ mv && mv ≤ -40500 then 0 else if -60000 ≤ mv && mv ≤ -38000 then 1 else 2

def State.feed (s : State) (i : Nat) : Nat := if i = 0 then s.power.feedA else s.power.feedB

/-- A feed takes a state; the times since which it is normal and since which both are absent follow. An absence of every feed for
1 s lets a part that was powered down start again (R518). -/
def State.setFeed (s : State) (i st : Nat) (mv : Int) : State :=
  let p := s.power
  let p := if i = 0 then { p with feedA := st, normalA := if st = 0 then some (p.normalA.getD s.up) else none }
    else { p with feedB := st, normalB := if st = 0 then some (p.normalB.getD s.up) else none }
  let gone := p.feedA = 2 && p.feedB = 2
  let long := match p.absentSince with
    | some t => !gone && t + sPs ≤ s.up
    | none => false
  let p := { p with absentSince := since p.absentSince s.up gone }
  let s := { s with power := p, run := { s.run with offWithFeed := s.run.offWithFeed && !long } }
  s.setVal 0x4001 (1 + i) (unsigned 32 mv)

/-- FEED_RANGE. -/
def State.feedRange (s : State) (i : Nat) (mv : Int) : State :=
  if feedState mv != 1 then s
  else if s.feed i = 1 then s.setFeed i 1 mv
  else
    let s := s.setFeed i 1 mv
    if s.run.st = .off then s else s.raise 0x0103 0 (i + unsigned 32 mv * 2 ^ 32)

def execFeedRange (dt : Nat) (feed : Fin 2) (millivolts : Int) (s : State) : Result :=
  .next ((s.elapse dt).feedRange feed millivolts)

/-- FEED_RETURN. -/
def execFeedReturn (dt : Nat) (feed : Fin 2) (millivolts : Int) (s : State) : Result :=
  let s := s.elapse dt
  .next (if feedState millivolts = 0 then s.setFeed feed 0 millivolts else s)

/-- FEED_LOST: the other feed carries the load; the loss counts. -/
def State.feedLost (s : State) (i : Nat) (mv : Int) : State :=
  if feedState mv != 2 || s.feed i = 2 || s.feed (1 - i) = 2 then s
  else ((s.setFeed i 2 mv).bump 0x4001 6 1).raise 0x0104 0 i

def execFeedLost (dt : Nat) (feed : Fin 2) (millivolts : Int) (s : State) : Result :=
  .next ((s.elapse dt).feedLost feed millivolts)

/-- BOTH_FEEDS_LOST: the immediate path runs on the hold-up. -/
def State.feedsLost (s : State) (a b : Int) : State :=
  if feedState a != 2 || feedState b != 2 then s
  else
    let lost := (if s.feed 0 = 2 then 0 else 1) + (if s.feed 1 = 2 then 0 else 1)
    let s := ((s.setFeed 0 2 a).setFeed 1 2 b).bump 0x4001 6 lost
    if s.run.st = .off then s else s.powerOff 3

def execBothFeedsLost (dt : Nat) (millivoltsA millivoltsB : Int) (s : State) : Result :=
  .next ((s.elapse dt).feedsLost millivoltsA millivoltsB)

/-- FEED_QUALIFIED: from OFF, with 100 ms in the normal range, the part powers up. -/
def State.feedQualified (s : State) (i : Nat) : State :=
  match (if i = 0 then s.power.normalA else s.power.normalB) with
  | none => s
  | some t =>
    if s.run.st != .off || s.run.loopAsserted || s.run.offWithFeed || s.up < t + 100 * msPs then s else s.boot 0

def execFeedQualified (dt : Nat) (feed : Fin 2) (s : State) : Result := .next ((s.elapse dt).feedQualified feed)

end Sys2Proof.Machine
end

