-- ==== Sys2Proof/Machine/Thermal.lean ====
section
/-! DEFINITION. Sensors, thermal zones, throttling, shutdown and hard trips (R449 to R462). Temperatures are in 0.1 degC. -/

namespace Sys2Proof.Machine

-- sensors and zones (R449 to R451)

/-- The zone of a sensor. -/
def zoneOf (i : Nat) : Nat :=
  if i < 192 then 2 * (i / 12) + (if i % 12 < 8 then 0 else 1)
  else if i < 200 then 32
  else if i < 220 then 33 + (i - 200)
  else if i < 236 then 53 + (i - 220) / 2
  else 61

/-- The sensors of a zone. -/
def zoneSensors (z : Nat) : List Nat := (List.range 238).filter (fun i => zoneOf i = z)

/-- Those that count toward its reading: the outlet sensor has no thresholds. -/
def readSensors (z : Nat) : List Nat := (zoneSensors z).filter (fun i => i != 237)

/-- Thresholds of a zone: warning, throttle, shutdown, analog hard trip, hysteresis. -/
structure Limits where
  warning : Int
  throttle : Int
  shutdown : Int
  trip : Option Int
  hysteresis : Int

def limits (z : Nat) : Limits :=
  if z = 32 || (z < 32 && z % 2 = 0) then ⟨950, 1030, 1120, some 1180, 30⟩
  else if z < 32 then ⟨750, 820, 900, some 950, 20⟩
  else if z < 53 then ⟨850, 950, 1050, none, 20⟩
  else if z < 61 then ⟨600, 650, 700, some 750, 20⟩
  else ⟨400, 450, 500, none, 10⟩

/-- The unit that a zone covers, 0 for the fabric die and the module (R486). -/
def zoneUnit (z : Nat) : Nat :=
  if z < 32 then coreRef (z / 2) else if z = 32 then 0 else if z < 53 then stackRef (z - 33) else if z < 61 then cartRef (z - 53)
  else 0

def State.sensor (s : State) (i : Nat) : Sensor := tget s.sensors i
def State.modSensor (s : State) (i : Nat) (f : Sensor → Sensor) : State := { s with sensors := tmod s.sensors i f }

/-- Substitute of a broken sensor (R457). -/
def substitute (z : Nat) : Int := (limits z).throttle + 10

def maxInt (l : List Int) : Option Int := l.foldl (fun m x => match m with
  | none => some x
  | some y => some (max x y)) none

/-- A zone's reading, substitutes included; and its hottest working reading. A sensor that has not reported yet takes no part. -/
def State.zoneReading (s : State) (z : Nat) : Option Int :=
  maxInt ((readSensors z).filterMap (fun i =>
    let x := s.sensor i
    if x.broken then some (substitute z) else if x.samples.isEmpty then none else some x.filtered))
def State.zoneHot (s : State) (z : Nat) : Option Int :=
  maxInt ((readSensors z).filterMap (fun i =>
    let x := s.sensor i
    if x.broken || x.samples.isEmpty then none else some x.filtered))

/-- DETAIL of a thermal event (R486). -/
def State.zoneDetail (s : State) (z : Nat) : Nat := z + unsigned 16 ((s.zoneReading z).getD 0) * 65536

-- throttling (R452 to R454)

/-- How long any zone has throttled counts (R466). -/
def State.noteThrottle (s : State) : State :=
  let on := (List.range 62).any (fun z => (s.zone z).st = .throttle)
  let s := match s.power.throttleSince with
    | some t => if on then s else s.bump 0x6002 4 ((s.up - t) / msPs)
    | none => s
  { s with power := { s.power with throttleSince := since s.power.throttleSince s.up on } }

/-- A zone takes a state. -/
def State.zoneTo (s : State) (z : Nat) (st : ZoneSt) : State :=
  let s := (s.modZone z (fun x => { x with
    st := st, since := s.up, level := if st = .throttle then 1 else 0, immediate := false
    nextAt := if st = .throttle then s.up + s.val 0x6002 1 * msPs else 0 })).noteThrottle
  if st = .warning then s.raise 0x0701 (zoneUnit z) (s.zoneDetail z)
  else if st = .throttle then
    let s := s.modZone z (fun x => { x with hotPrev := (s.zoneHot z).getD 0 })
    ((s.bump 0x6002 3 1).raise 0x0702 (zoneUnit z) (s.zoneDetail z)).restretchAll
  else s.restretchAll

-- shutdown (R458 to R461)

/-- A prediction of at least 5 ms: (trip - T) / slope, the slope over the last 5 ms; a slope of 0 or less is unbounded. -/
def orderly (z : Nat) (history : List (Nat × Int)) : Bool :=
  let l := limits z
  let trip := l.trip.getD (l.shutdown + 60)
  match history.head?, history.getLast? with
  | some (t, x), some (t0, x0) => x ≤ x0 || 5 * msPs * (x - x0) ≤ (trip - x) * ((t - t0 : Nat) : Int)
  | _, _ => true

/-- The lasers of a cartridge are disarmed (R460, R477). -/
def State.lasersOff (s : State) (l : Nat) : State :=
  let off (s : State) (c : Nat) : State := s.modConv c (fun k => { k with channels := k.channels.map (fun (x : Nat × Channel) =>
    if laserChannel x.1 then (x.1, { x.2 with armed := false, armNext := none }) else x) })
  (off (off s (2 * l)) (2 * l + 1)).modCart l (fun k => { k with disarmed := true })

/-- The logic supply of a core goes, its modulators close and its converters take their fault values: the core is FENCED. -/
def State.cutCore (s : State) (c : Nat) (keepVats : Bool) : State :=
  let s := s.fence (coreRef c)
  let s := if keepVats then s else forRange 34 s (fun s e => s.modEng c e (fun g => { g with vat := [], spills := [], results := [] }))
  let s := s.modConv c Converters.dark
  (s.modCore c (fun k => { k with
    supply := 0, supplyCut := true, pulse := .unlocked, pulseLost := none, monitors := [], lit := [] })).holdLoops c

/-- A core begins to shut down; the fourth within 1 s shuts the module down (R461). -/
def State.countCore (s : State) : State :=
  let l := s.run.coreShutdowns.filter (fun t => s.up ≤ t + sPs) ++ [s.up]
  let s := { s with run := { s.run with coreShutdowns := l } }
  if 4 ≤ l.length then s.moduleShutdown true else s

/-- A core is told to stop: its step is abandoned as Unit class; at once it is cut, else it stops at its vector boundary. -/
def State.stopCore (s : State) (c : Nat) (now : Bool) : State :=
  if (s.core c).supplyCut || s.run.st = .off then s
  else
    let s := s.abandonUsers (coreRef c)
    let s := if now then s.cutCore c false else s
    s.countCore

/-- A stack is powered down: its frames go as at a retirement (R246, R460). -/
def State.stackOff (s : State) (m : Nat) : State :=
  if s.stackDown m then s
  else
    let s := (s.fence (stackRef m))
    let s := { s with mem := s.mem.clear (m * stackSize) stackSize }
    (s.streams.map Prod.fst).foldl (fun s n => s.streamLoses n m) s

/-- What a zone's shutdown does, orderly or at once (R460, R461). -/
def State.zoneAct (s : State) (z : Nat) (now : Bool) : State :=
  if z < 32 then s.stopCore (z / 2) now
  else if z = 32 || z = 61 then s.moduleShutdown (!now)
  else if z < 53 then (if now then s.stackOff (z - 33) else s)
  else
    let l := z - 53
    if now then ((s.lasersOff l).fenceCart l)
    else ((s.withdrawPorts l).stopCore (2 * l) false).stopCore (2 * l + 1) false

/-- A zone enters SHUTDOWN. -/
def State.shutZone (s : State) (z : Nat) : State :=
  let now := !orderly z (s.zone z).history
  let s := ((s.zoneTo z .shutdown).modZone z (fun x => { x with immediate := now })).bump 0x6002 6 1
  let s := s.raise 0x0703 (zoneUnit z) (s.zoneDetail z + if now then 256 else 0)
  s.zoneAct z now

/-- A zone follows its readings after a sample (R452, R459). -/
def State.zoneStep (s : State) (z : Nat) : State :=
  let l := limits z
  let read := s.zoneReading z
  let hot := s.zoneHot z
  let s := match hot with
    | some h => s.modZone z (fun x => { x with
        history := (s.up, h) :: x.history.filter (fun e => s.up ≤ e.1 + 5 * msPs) })
    | none => s
  let zn := s.zone z
  let is (lim : Int) (x : Option Int) : Bool := x.any (fun v => lim ≤ v)
  match zn.st with
  | .shutdown => if zn.immediate || orderly z zn.history then s
      else (s.modZone z (fun x => { x with immediate := true })).zoneAct z true
  | .tripped => s
  | .outOfService => s
  | st =>
    if is l.shutdown hot then s.shutZone z
    else if st != .throttle && is l.throttle read then s.zoneTo z .throttle
    else if st = .normal && is l.warning read then s.zoneTo z .warning
    else if st = .warning && !is (l.warning - l.hysteresis) read && zn.since + 20 * msPs ≤ s.up then s.zoneTo z .normal
    else s

/-- A sensor breaks (R455, R457, R458). -/
def State.breakSensor (s : State) (i : Nat) : State :=
  if (s.sensor i).broken then s
  else
    let z := zoneOf i
    let s := (s.modSensor i (fun x => { x with broken := true, deviatesSince := none })).bump 0x6002 5 1
    let s := s.raise 0x0705 (zoneUnit z) (i + z * 256)
    let st := (s.zone z).st
    if !(st = .normal || st = .warning || st = .throttle) then s
    else if 2 ≤ ((zoneSensors z).filter (fun k => (s.sensor k).broken)).length then
      let s := (s.zoneTo z .outOfService).raise 0x0706 (zoneUnit z) z
      if z < 32 then s.stopCore (z / 2) false
      else if z = 32 || z = 61 then s.moduleShutdown true
      else (s.lasersOff (z - 53)).fenceCart (z - 53)
    else if st = .throttle || i = 237 then s
    else s.zoneTo z .throttle

/-- Working sensors of a zone other than one, and their median. -/
def State.othersMedian (s : State) (i : Nat) : Option Int :=
  let w := (zoneSensors (zoneOf i)).filter (fun k => !(s.sensor k).broken && !(s.sensor k).samples.isEmpty)
  let o := (w.filter (fun k => k != i)).map (fun k => (s.sensor k).filtered)
  if w.length < 3 then none else some ((o.foldr insertInt []).getD ((o.length - 1) / 2) 0)

/-- A sensor's filtered reading is held against those of its zone (R455). -/
def State.deviation (s : State) (i : Nat) : State :=
  let x := s.sensor i
  let far := !x.broken && (match s.othersMedian i with
    | some m => 250 < (x.filtered - m).natAbs
    | none => false)
  if far = x.deviatesSince.isSome then s else s.modSensor i (fun x => { x with deviatesSince := since x.deviatesSince s.up far })

/-- One reading of a sensor (R450, R455). -/
def State.readSensor (s : State) (i : Nat) (r : SensorRead) : State :=
  match r with
  | .value v =>
    let s := s.modSensor i (fun x => { x with samples := (v :: x.samples).take 5, selfCheckOk := true, missingSince := none })
    if v < -400 || 2000 < v then s.breakSensor i else s
  | .selfCheckFailed => (s.modSensor i (fun x => { x with selfCheckOk := false })).breakSensor i
  | .missing => s.modSensor i (fun x => { x with missingSince := some (x.missingSince.getD s.up) })

/-- SENSOR_SAMPLE: a reading for each sensor, by index. -/
def State.sensorSample (s : State) (readings : List SensorRead) : State :=
  if s.run.st = .off then s
  else
    let n := min 238 readings.length
    let s := forRange n s (fun s i => s.readSensor i (readings.getD i .missing))
    let s := forRange n s State.deviation
    forRange 62 s State.zoneStep

def execSensorSample (dt : Nat) (readings : List SensorRead) (s : State) : Result := .next ((s.elapse dt).sensorSample readings)

/-- HBM_REPORT_TIMEOUT: a stack's report has been missing for 10 ms. -/
def State.reportTimeout (s : State) (m : Nat) : State :=
  match (s.sensor (200 + m)).missingSince with
  | some t => if t + 10 * msPs ≤ s.up then s.breakSensor (200 + m) else s
  | none => s

def execHbmReportTimeout (dt : Nat) (stack : Fin 20) (s : State) : Result := .next ((s.elapse dt).reportTimeout stack)

/-- SENSOR_DEVIATION_TIMEOUT: more than 25 degC off for 100 ms. -/
def State.deviationTimeout (s : State) (i : Nat) : State :=
  match (s.sensor i).deviatesSince with
  | some t => if t + 100 * msPs ≤ s.up then s.breakSensor i else s
  | none => s

def execSensorDeviationTimeout (dt : Nat) (sensor : Fin 238) (s : State) : Result := .next ((s.elapse dt).deviationTimeout sensor)

/-- THROTTLE_EVALUATION (R454). -/
def State.throttleStep (s : State) (z : Nat) : State :=
  let zn := s.zone z
  let l := limits z
  if zn.st != .throttle || s.up < zn.nextAt then s
  else
    let hot := s.zoneHot z
    let t := if hot.any (fun h => l.throttle ≤ h && zn.hotPrev - 5 < h) then min 6 (zn.level + 1)
      else if (s.zoneReading z).any (fun r => r < l.throttle - l.hysteresis) then zn.level - 1
      else zn.level
    if t = 0 && zn.since + 20 * msPs ≤ s.up then s.zoneTo z .warning
    else (s.modZone z (fun x => { x with
      level := max 1 t, hotPrev := hot.getD x.hotPrev, nextAt := s.up + s.val 0x6002 1 * msPs })).restretchAll

def execThrottleEvaluation (dt : Nat) (zone : Fin 62) (s : State) : Result := .next ((s.elapse dt).throttleStep zone)

/-- SENSOR_REINSTATE (R456): the sensor passes its self-check, and its last raw sample lies in range; any other write, one that names
no sensor included, is refused. -/
def State.reinstateAct (i : Nat) (passed : Bool) (s : State) : Nat × State :=
  let x := s.sensor i
  if 238 ≤ i then refuse abState s
  else if passed && x.samples.head?.all (fun v => -400 ≤ v && v ≤ 2000) then
    accept (s.modSensor i (fun x => { x with broken := false, selfCheckOk := true, deviatesSince := none }))
  else refuse abState s

def execSensorReinstate (dt : Nat) (road : Road) (sensor : BitVec 16) (selfCheckPassed : Bool) (s : State) : Result :=
  .next ((s.elapse dt).writeRow road 0x6002 2 (leBytes 2 sensor.toNat) (State.reinstateAct sensor.toNat selfCheckPassed))

/-- Every vat row of a core with terms goes to churn (R147, R460). -/
def State.spillCore (s : State) (c : Nat) : State :=
  let rows (q : Nat) (s : State) : State :=
    ((s.vatOf c q).filter (fun r => r.2.addCount != 0)).foldl (fun s r =>
      let s := s.landSpill c q r.1 (s.churnAt c q r.1) r.2.vals
      s.modRow c q r.1 (fun r => r.captured false)) s
  let s := forRange 34 s (fun s e => rows e s)
  (s.core c).standIns.foldl (fun s slot => rows (34 + slot) s) s

/-- CORE_ORDERLY_STOP: the core stands at its vector boundary: its vats go to churn and its supply is removed; with both cores of
a cartridge that shuts down stopped, its lasers are disarmed. -/
def State.orderlyStop (s : State) (c : Nat) : State :=
  if !s.coreStops c || (s.core c).supplyCut || (s.core c).supply = 0 || !s.coreQuiet c then s
  else
    let s := (s.spillCore c).cutCore c true
    let l := c / 2
    if (s.zone (53 + l)).st = .shutdown && (s.core (2 * l)).supply = 0 && (s.core (2 * l + 1)).supply = 0 then
      (s.lasersOff l).fenceCart l
    else s

def execCoreOrderlyStop (dt : Nat) (core : Fin 16) (s : State) : Result := .next ((s.elapse dt).orderlyStop core)

/-- STACK_POWER_DOWN: what was in flight to the stack has completed. -/
def State.stackIdle (s : State) (m : Nat) : Bool :=
  s.cores.all (fun k => k.2.ops.all (fun o => o.2.txns.all (fun t =>
    !t.issued || !((t.src < hbmSize && stackOf t.src = m) || (t.dst < hbmSize && stackOf t.dst = m)))))
def State.stackPowerDown (s : State) (m : Nat) : State := if s.stackStops m && s.stackIdle m then s.stackOff m else s

def execStackPowerDown (dt : Nat) (stack : Fin 20) (s : State) : Result := .next ((s.elapse dt).stackPowerDown stack)

/-- THERMAL_HARD_TRIP (R462): it acts without firmware; the alarm needs a supervisor that is still powered. -/
def State.hardTrip (s : State) (z : Nat) (powered : Bool) : State :=
  if (limits z).trip.isNone || (s.zone z).st = .tripped || s.run.st = .off then s
  else
    let s := (s.zoneTo z .tripped).bump 0x6002 7 1
    let s := if powered then s.raise 0x0704 (zoneUnit z) z else s
    if z < 32 then ((s.abandonUsers (coreRef (z / 2))).cutCore (z / 2) false)
    else if z = 32 then s.powerOff 2
    else (s.lasersOff (z - 53)).fenceCart (z - 53)

def execThermalHardTrip (dt : Nat) (zone : Fin 62) (supervisorPowered : Bool) (s : State) : Result :=
  .next ((s.elapse dt).hardTrip zone supervisorPowered)

end Sys2Proof.Machine
end

