-- ==== Sys2Proof/Machine/Values.lean ====
section
/-! DEFINITION. What every entry of the object dictionary reads as: the values that are told from the state as it stands, and the
stored ones (R379, R380 and the entry tables of the chapters). -/

namespace Sys2Proof.Machine

/-- Numbers of a size in bytes, one after the other. -/
def table (size : Nat) (l : List Nat) : List Byte := l.flatMap (leBytes size)

/-- A wheel of `n` places for its newest records, of which `total` have been written in all (R416, R443). -/
def wheelBytes (n size total : Nat) (records : List (List Byte)) : List Byte :=
  let first := total - records.length
  (List.range n).flatMap (fun i =>
    let k := (i + n - first % n) % n
    padTo size 0 (records.getD k []))

/-- Codes of a loop state, a lock state and so on stand beside their types; those of a thermal zone and of a slot. -/
def ZoneSt.code : ZoneSt → Nat
  | .normal => 0 | .warning => 1 | .throttle => 2 | .shutdown => 3 | .tripped => 4 | .outOfService => 5
def SlotSt.code : SlotSt → Nat | .empty => 0 | .valid => 1 | .trial => 2 | .invalid => 3
def PulseSt.code : PulseSt → Nat | .unlocked => 0 | .acquiring => 1 | .locked => 2

/-- The image of a slot, and its state (R263, R265). -/
def Security.image (x : Security) (k : Nat) : List Byte := if k = 0 then x.imageA else x.imageB
def Security.slot (x : Security) (k : Nat) : SlotSt := if k = 0 then x.slotA else x.slotB

/-- The serial number in the certificate, after the public key and the product code (R269; DEDUCED order). -/
def serialOf (certificate : List Byte) : List Byte := padTo 12 0 ((certificate.drop 72).take 12)

/-- VERSION of the booted slot as a decimal string of 16 characters (`0x100A:00`; PRESUMED form). -/
def decimal : Nat → Nat → List Byte
  | 0, _ => []
  | f + 1, v => (if v < 10 then [] else decimal f (v / 10)) ++ [BitVec.ofNat 8 (48 + v % 10)]
def State.softwareVersion (s : State) : List Byte := decimal 10 (field (s.security.image s.security.booted) 8 4)

/-- Milliseconds since a moment, 0 where there has been none. -/
def State.msSince (s : State) (t : Nat) : Nat := if t = 0 then 0 else (s.up - t) / msPs

/-- The engine object (R63, R87, R112, R148). -/
def State.engineEntry (s : State) (c e sub : Nat) : Option (List Byte) :=
  let g := s.eng c e
  let b0 := g.plane g.b0
  let b1 := g.plane (1 - g.b0)
  let flags (p : Plane) := table 1 ((List.range 256).map (tget p.flags))
  let map (p : Plane) := table 2 ((List.range 256).map p.pairOf)
  if sub = 1 then some (leBytes 1 (s.unit (engineRef c e)).code)
  else if sub = 0x19 then some (leBytes 1 g.calState)
  else if sub = 0x1A then some (leBytes 4 (s.msSince g.calibratedLast))
  else if sub = 0x1B then some (flags b0)
  else if sub = 0x1C then some (flags b1)
  else if sub = 0x20 then some (leBytes 1 g.b0)
  else if sub = 0x21 then some (leBytes 1 b0.st.code)
  else if sub = 0x22 then some (leBytes 1 b1.st.code)
  else if sub = 0x23 then some (leBytes 8 g.plane0.rewrites)
  else if sub = 0x24 then some (leBytes 8 g.plane1.rewrites)
  else if sub = 0x25 then some (map g.plane0)
  else if sub = 0x26 then some (map g.plane1)
  else if sub = 0x29 then some (leBytes 1 (g.plane0.spares.length + 16 * g.plane1.spares.length))
  else if sub = 0x2D then some (leBytes 4 (s.msSince b0.refreshedAt))
  else if sub = 0x2E then some (leBytes 4 (s.msSince b1.refreshedAt))
  else if sub = 0x35 then some (leBytes 8 g.srCtr)
  else if sub = 0x36 then some (leBytes 2 (g.vat.filter (fun r => r.2.addCount != 0 || r.2.churnValid)).length)
  else none

/-- The core object (R64, R187, R224). -/
def State.coreEntry (s : State) (c sub : Nat) : Option (List Byte) :=
  let k := s.core c
  if sub = 1 then some (leBytes 1 (s.unit (coreRef c)).code)
  else if 2 ≤ sub && sub ≤ 5 then some (leBytes 1 (s.unit (digitalRef (sub + 1) c)).code)
  else if sub = 6 then some (leBytes 2 k.ops.length)
  else if sub = 0x0D then some (table 1 ((List.range 32).map (fun i => (k.slotEngine i).getD 0xFF)))
  else if 0x11 ≤ sub && sub ≤ 0x1F then some (leBytes 4 (tget k.signals (sub - 0x10)))
  else if sub = 0x20 then some (leBytes 1 k.pulse.code)
  else if sub = 0x46 then some (leBytes 8 k.drainCtr)
  else if sub = 0x50 then some (leBytes 2 k.pace)
  else if sub = 0x51 then some (leBytes 2 k.supply)
  else if sub = 0x52 then some (leBytes 2 k.target)
  else if sub = 0x56 then some (leBytes 4 (k.pailUsed / 1024))
  else none

/-- Cartridges and stacks (R481, R482). -/
def State.cartEntry (s : State) (l sub : Nat) : Option (List Byte) :=
  let k := s.cart l
  let host := if (s.loopCore (2 * l)).hosting then 2 * l else if (s.loopCore (2 * l + 1)).hosting then 2 * l + 1 else 0xFF
  if sub = 1 then some (leBytes 1 (s.unit (cartRef l)).code)
  else if sub = 2 then some (leBytes 1 k.latch)
  else if sub = 3 then some (leBytes 12 k.serial)
  else if sub = 4 then some (leBytes 4 k.hours)
  else if sub = 5 then some (leBytes 1 host)
  else if sub = 6 then some (table 2 ((List.range 16).map (fun i => if host = 0xFF then 0 else (s.channel host (1088 + i)).output)))
  else none
def State.stackEntry (s : State) (m sub : Nat) : Option (List Byte) :=
  if sub = 1 then some (leBytes 1 (s.unit (stackRef m)).code)
  else if sub = 5 then some (leBytes 4 (tget s.stackScrub m / 2 ^ 20))
  else if sub = 8 then some (leBytes 4 ((List.range 8).map (fun j =>
    (s.takenOn j .page m).length + (s.takenOn j .node m).length)).sum)
  else none

/-- Zones and sensors (R466). -/
def State.thermalEntry (s : State) (index sub : Nat) : Option (List Byte) :=
  let zones := List.range 62
  if index = 0x6000 && sub = 1 then some (table 1 (zones.map (fun z => (s.zone z).st.code)))
  else if index = 0x6000 && sub = 2 then some (table 1 (zones.map (fun z => (s.zone z).level)))
  else if index = 0x6000 && sub = 3 then some (table 2 (zones.map (fun z => unsigned 16 ((s.zoneReading z).getD 0))))
  else if index = 0x6001 && sub = 1 then some ((List.range 238).flatMap (fun i =>
    let x := s.sensor i
    leBytes 2 (unsigned 16 (if x.broken then substitute (zoneOf i) else x.filtered)) ++ [if x.broken then 3 else 0, 0]))
  else none

/-- Loops, DACs, ADCs and generators of a core (R417, R444, R447). -/
def State.loopEntry (s : State) (c sub : Nat) : Option (List Byte) :=
  let k := s.loopCore c
  let slots := List.range 1152
  if sub = 1 then some (leBytes 1 (s.unit (coprocRef c)).code)
  else if sub = 3 then some (slots.flatMap (fun i => leBytes 64 ((k.loop i).record i)))
  else if sub = 5 then some (slots.flatMap (fun i => leBytes 32 (k.loop i).bankA))
  else if sub = 6 then some (slots.flatMap (fun i => leBytes 32 (k.loop i).bankB))
  else if sub = 9 then some (slots.flatMap (s.loopStatus c))
  else if sub = 0x0D then some (wheelBytes 4096 16 k.captured k.capture)
  else if sub = 0x0E then some (leBytes 4 k.captured)
  else if sub = 0x14 then some (leBytes 2 (k.loops.filter (fun l => l.2.locked)).length)
  else none

/-- The 8 bytes of a channel's status (R446). -/
def Channel.status (x : Channel) (ch : Nat) : List Byte :=
  let b (y : Bool) (i : Nat) : Nat := if y then 2 ^ i else 0
  leBytes 2 x.target ++ leBytes 2 x.output ++
  leBytes 1 (b x.armed 0 + b (x.output != x.target) 1 + b x.clipped 2 + b x.driverFault 3 + b x.faultValue 4 + b x.spanAt.isSome 5) ++
  leBytes 1 (ccSpan (x.record ch)) ++ [0, 0]

def State.dacEntry (s : State) (c sub : Nat) : Option (List Byte) :=
  let k := s.conv c
  if sub = 1 then some (table 1 ((List.range 35).map (fun g => (s.unit (dacRef c g)).code)))
  else if sub = 2 then some ((List.range 1120).flatMap (fun i => leBytes 16 ((k.channel i).record i)))
  else if sub = 4 then some ((List.range 1120).flatMap (fun i => (k.channel i).status i))
  else if sub = 0x0A then some (table 2 ((List.range 35).map (fun g => (k.group g).queue.length)))
  else none

def State.adcEntry (s : State) (c sub : Nat) : Option (List Byte) :=
  let k := s.conv c
  if sub = 1 then some (table 1 ((List.range 68).map (fun v => (s.unit (adcRef c v)).code)))
  else if sub = 2 then some (table 2 ((List.range 560).map (tget k.codes)))
  else if sub = 8 then some (wheelBytes 8192 8 k.wheelPos k.wheel)
  else if sub = 9 then some (leBytes 4 k.wheelPos)
  else if sub = 0x0B then some (leBytes 4 (s.ns / 4000 % 2 ^ 32))
  else none

def State.sineEntry (s : State) (c sub : Nat) : Option (List Byte) :=
  let k := s.conv c
  if sub = 1 then some ((List.range 64).flatMap (fun i =>
    let g := tget k.generators i
    leBytes 4 g.ftw ++ leBytes 4 g.phase ++ [if g.enable then 1 else 0, 0, 0, 0, 0, 0, 0, 0]))
  else if sub = 3 then some ((List.range 1024).flatMap (fun i => leBytes 2 (unsigned 16 (sineAt i))))
  else none

/-- The units that an epoch left MIXED (R298). -/
def State.mixedUnits (s : State) : List Nat := (s.units.filter (fun u => u.2.mixed)).map Prod.fst

/-- Time, launches and epochs (R302). -/
def State.timeEntry (s : State) (index sub : Nat) : Option (List Byte) :=
  let src := if s.time.followed = 1 then s.time.ptp else if s.time.followed = 2 then s.time.dc else s.time.pps
  if index = 0x2100 && sub = 1 then some (leBytes 1 s.time.lock.code)
  else if index = 0x2100 && sub = 2 then some (leBytes 1 s.time.followed)
  else if index = 0x2100 && sub = 3 then some (timeBytes s.clock.now)
  else if index = 0x2100 && sub = 4 then
    some (leBytes 4 (unsigned 32 (if s.time.followed = 0 then 0 else roundInt src.offset 1000)))
  else if index = 0x2100 && sub = 5 then some (leBytes 4 (if s.time.lock = .holdover then (s.up - s.time.since) / sPs else 0))
  else if index = 0x2105 && sub = 2 then some (leBytes 1 (if s.time.dayKnown then 1 else 0))
  else if index = 0x2107 && sub = 3 then some (leBytes 2 s.sched.launches.length)
  else if index = 0x2107 && sub = 9 then some (table 2 ((List.range 16).map (fun c =>
    let r := s.stretch c
    roundDiv (256 * r.1) r.2)))
  else if index = 0x2003 && sub = 1 then some (leBytes 1 s.epoch.st.code)
  else if index = 0x2003 && sub = 2 then some (leBytes 2 s.mixedUnits.length)
  else if index = 0x2003 && sub = 3 then some ((s.mixedUnits.take 256).flatMap (fun r => leBytes 4 r))
  else none

/-- Fabric and ports (R325). -/
def State.fabricEntry (s : State) (index sub : Nat) : Option (List Byte) :=
  let n := index - 0x2400
  let p := s.port n
  if index = 0x2300 then
    if sub = 4 then some s.fabric.routes
    else if sub = 5 then some s.fabric.groups
    else if sub = 0x17 then some (leBytes 4 (s.reserved / 1024))
    else if sub = 0x18 then some (leBytes 4 ((s.ports.map (fun p => (p.2.ingress.map Prod.snd).sum)).sum / 1024))
    else if sub = 0x1D then some (leBytes 4 (s.qps.filter (fun q => q.2.st != 0)).length)
    else none
  else if sub = 1 then some (leBytes 1 (s.unit (portRef n)).code)
  else if sub = 3 then some (leBytes 1 p.speed)
  else if sub = 5 then
    some (leBytes 4 (headroomOf (s.val index 4) (s.val 0x2300 0x0A) (s.headSpeed (s.val index 2) n)))
  else if sub = 0x0D then some (leBytes 6 p.neighbour).reverse
  else if sub = 0x18 then some (leBytes 4 (if s.unit (portRef n) = .serving then (s.up - p.since) / sPs else 0))
  else none

/-- Twin pairing (R352 to R354). -/
def State.twinEntry (s : State) (sub : Nat) : Option (List Byte) :=
  if sub = 1 then some (leBytes 1 s.twin.st.code)
  else if sub = 3 then some (leBytes 1 s.twin.usable.length)
  else if sub = 9 then some (leBytes 4 s.mirrored)
  else if sub = 0x0A then some (leBytes 4 (s.streams.filter (fun x => x.1 < 65536 && x.2.bare)).length)
  else if sub = 0x0D then some (leBytes 4 s.backlog)
  else none

/-- Host ports (R371). -/
def State.hostEntry (s : State) (p sub : Nat) : Option (List Byte) :=
  let h := s.host p
  if sub = 1 then some (leBytes 1 (s.unit (hostRef p)).code)
  else if sub = 2 then some (leBytes 1 h.speed)
  else if sub = 3 then some (leBytes 1 h.width)
  else if sub = 7 then some (leBytes 2 (2 ^ h.bar4Log2))
  else if sub = 9 then some (leBytes 4 ((h.rings.map (fun r => r.2.waiting.length)).sum))
  else none

/-- Run state, jobs, streams and pools (R234, R249, R251, R380, R394 to R396, R536). -/
def State.controlEntry (s : State) (m index sub : Nat) : Option (List Byte) :=
  let key := index * 256 + sub
  if key = 0x200001 then some (leBytes 1 s.run.st.code)
  else if key = 0x200004 then some (leBytes 4 ((s.up - s.run.since) / msPs))
  else if key = 0x200005 then some (leBytes 2 s.openAlarms)
  else if 0x201002 ≤ key && key ≤ 0x201004 then some (leBytes 4 (tget s.summaries (sub - 2)).ready)
  else if 0x201101 ≤ key && key ≤ 0x201103 then some (tget s.summaries (sub - 1)).held
  else if key = 0x201201 then some (leBytes 4 (tget s.selects m))
  else if key = 0x201202 then some (s.stream (tget s.selects m)).bytes
  else if key = 0x201203 then some (leBytes 8 (s.stream (tget s.selects m)).user)
  else if key = 0x202001 then some (table 4 s.pins)
  else if key = 0x202002 then some (leBytes 2 s.pins.length)
  else if key = 0x400004 then some (leBytes 1 s.leversInForce)
  else if key = 0x400005 then some (leBytes 8 (s.val 0x4000 5 + (match s.power.limitSince with
    | some t => (s.up - t) / msPs
    | none => 0)))
  else if key = 0x400105 then some (leBytes 1 (s.power.feedA + 4 * s.power.feedB))
  else if key = 0x400405 then some (table 4 ((List.range 16).map (fun c => ((s.core c).standIns.map (fun i => 2 ^ i)).sum)))
  else if key = 0x600204 then some (leBytes 8 (s.val 0x6002 4 + (match s.power.throttleSince with
    | some t => (s.up - t) / msPs
    | none => 0)))
  else if 0x401201 ≤ key && key ≤ 0x401208 then some (leBytes 1 (s.job (sub - 1)).st.code)
  else if key = 0x40120A then some (leBytes 1 (s.sched.running.getD 0xFF))
  else if key = 0x40120C then some (leBytes 4 s.streamsInUse)
  else if key = 0x40120D then some (leBytes 4 (s.countStreams .queued))
  else if key = 0x40120E then some (leBytes 4 (match s.sched.running with
    | some j => s.freeFrames j .page
    | none => 0))
  else if key = 0x401301 || key = 0x401303 || key = 0x401305 then some (leBytes 2 (s.poolTotal (sub / 2)))
  else none

/-- Security (R273); the access-table hash is told with the other hashes. -/
def State.securityEntry (s : State) (index sub : Nat) : Option (List Byte) :=
  let x := s.security
  if index = 0x3100 && sub = 1 then some (leBytes 1 x.booted)
  else if index = 0x3100 && sub = 2 then some (leBytes 1 x.slotA.code)
  else if index = 0x3100 && sub = 3 then some (leBytes 1 x.slotB.code)
  else if index = 0x3100 && sub = 4 then some (leBytes 4 (field x.imageA 8 4))
  else if index = 0x3100 && sub = 5 then some (leBytes 4 (field x.imageB 8 4))
  else if index = 0x3110 && sub = 1 then some Config.publicKey
  else if index = 0x3110 && sub = 2 then some Config.certificate
  else if index = 0x3111 && sub = 2 then some x.report
  else none

/-- The alarm table (R491). -/
def State.alarmTable (s : State) : List Byte :=
  (List.range 1024).flatMap (fun i =>
    let a := tget s.events.alarms i
    leBytes 4 a.source ++ leBytes 2 a.code ++ leBytes 1 a.st ++ [0] ++ leBytes 4 a.count ++ [0, 0, 0, 0] ++ leBytes 8 a.first ++
    leBytes 8 a.last)

/-- Events (R493). -/
def State.eventEntry (s : State) (index sub : Nat) : Option (List Byte) :=
  let e := s.events
  if index = 0x7000 && sub = 1 then some (leBytes 8 e.next)
  else if index = 0x7001 && sub = 1 then some s.alarmTable
  else if index = 0x7005 && sub = 1 then
    some (leBytes 1 ((if e.wheel.storm then 1 else 0) + (if e.emergency.storm then 2 else 0) + (if e.export_.storm then 4 else 0)))
  else if index = 0x7010 && sub = 1 then some (padTo 64 0 e.statistics)
  else none

/-- An entry whose value is told from the state as it stands. -/
def State.told (s : State) (m index sub : Nat) : Option (List Byte) :=
  if sub = 0 && !(index < 0x1010) then none
  else if index = 0x1001 then some (leBytes 1 s.errorRegister)
  else if index = 0x100A then some s.softwareVersion
  else if index = 0x1018 then
    (if sub = 4 then some ((serialOf Config.certificate).drop 8) else if sub = 5 then some (serialOf Config.certificate) else none)
  else if index < 0x2000 then none
  else if index = 0x2003 || (0x2100 ≤ index && index < 0x2200) then s.timeEntry index sub
  else if index = 0x2201 then s.twinEntry sub
  else if 0x2300 ≤ index && index < 0x2480 then s.fabricEntry index sub
  else if 0x2500 ≤ index && index < 0x2502 then s.hostEntry (index - 0x2500) sub
  else if 0x3100 ≤ index && index < 0x4000 then s.securityEntry index sub
  else if 0x5000 ≤ index && index < 0x5010 then s.coreEntry (index - 0x5000) sub
  else if 0x5100 ≤ index && index < 0x5500 then s.engineEntry ((index - 0x5100) / 0x40) ((index - 0x5100) % 0x40) sub
  else if 0x5800 ≤ index && index < 0x5808 then s.cartEntry (index - 0x5800) sub
  else if 0x5900 ≤ index && index < 0x5914 then s.stackEntry (index - 0x5900) sub
  else if index = 0x6000 || index = 0x6001 then s.thermalEntry index sub
  else if 0x6100 ≤ index && index < 0x6110 then s.loopEntry (index - 0x6100) sub
  else if 0x6200 ≤ index && index < 0x6210 then s.dacEntry (index - 0x6200) sub
  else if 0x6300 ≤ index && index < 0x6310 then s.adcEntry (index - 0x6300) sub
  else if 0x6400 ≤ index && index < 0x6410 then s.sineEntry (index - 0x6400) sub
  else if 0x7000 ≤ index && index < 0x7011 then s.eventEntry index sub
  else s.controlEntry m index sub

/-- The bytes of an entry but the hash of the access tables. -/
def State.stored (s : State) (m index sub : Nat) : List Byte :=
  match odRow index sub with
  | none => []
  | some r =>
    match s.told m index sub with
    | some bs => if r.bytes = 0 then bs else padTo r.bytes 0 bs
    | none => leBytes r.bytes (s.val index sub)

-- hashes (R272)

/-- A record of a hash: index, sub-index and the entry's value. -/
def State.hashRecord (s : State) (index sub : Nat) : List Byte := leBytes 2 index ++ leBytes 1 sub ++ s.stored 0 index sub

/-- The access-table hash: every entry of 0x3010 to 0x3073. -/
def State.accessHash (s : State) : List Byte :=
  shake256 ((List.range 0x64).flatMap (fun i => (List.range 256).flatMap (fun sub =>
    if (odRow (0x3010 + i) sub).isSome then s.hashRecord (0x3010 + i) sub else [])))

/-- The configuration hash: every rw entry outside classes ACCESS and SECURITY. -/
def State.configHash (s : State) : List Byte :=
  shake256 ((List.range 0x6011).flatMap (fun i =>
    let index := 0x1000 + i
    if 0x3000 ≤ index && index < 0x4000 then []
    else ((odRows index).filter (fun r => r.acc = 1)).flatMap (fun r => s.hashRecord index r.sub)))

/-- The bytes of an entry, as a master reads it (R380). -/
def State.entryBytes (s : State) (m index sub : Nat) : List Byte :=
  if index = 0x3000 && sub = 4 then s.accessHash else s.stored m index sub

end Sys2Proof.Machine
end

