-- ==== Sys2Proof/Machine/Firmware.lean ====
section
/-! DEFINITION. Firmware slots, secure boot, the security version counter and microcode (R263 to R268, R376). -/

namespace Sys2Proof.Machine

-- images (R263, R264)

/-- The component table of an image: TYPE, FLAGS, OFFSET, LENGTH and DIGEST. -/
structure Component where
  type : Nat
  flags : Nat
  off : Nat
  len : Nat
  digest : List Byte

def imageCount (img : List Byte) : Nat := field img 16 4
def imageSvn (img : List Byte) : Nat := field img 12 4
def imageTable (img : List Byte) : List Byte := (img.drop 2920).take (48 * imageCount img)
def imageComponents (img : List Byte) : List Component :=
  (List.range (imageCount img)).map (fun i =>
    let e := (img.drop (2920 + 48 * i)).take 48
    { type := field e 0 4, flags := field e 4 4, off := field e 8 4, len := field e 12 4, digest := e.drop 16 })

/-- OID of XMSS-SHAKE256_20_256 in the key's first four bytes, most significant first (PRESUMED from SP 800-208). -/
def xmssOid : Nat := 0x00000012

/-- The four steps of R264 on an image laid out as R263 says. -/
def imagePasses (img : List Byte) (counter : Nat) : Bool :=
  let n := imageCount img
  let key := (img.drop 32).take 68
  field img 0 4 = 0x504C5646 && field img 4 4 = 0x00010000 && 1 ≤ n && n ≤ 16 && 2920 + 48 * n ≤ img.length && imageSvn img ≤ 128 &&
  shake256 key = Config.rootHash && beNat (key.take 4) = xmssOid &&
  Config.xmssVerify key (img.take 100 ++ imageTable img) ((img.drop 100).take 2820) &&
  counter ≤ imageSvn img &&
  (imageComponents img).all (fun c => c.off + c.len ≤ img.length && shake256 ((img.drop c.off).take c.len) = c.digest)

/-- DIGEST of the core microcode in an image, as a number. -/
def imageMicrocode (img : List Byte) : Nat :=
  match (imageComponents img).find? (fun c => c.type = 2) with
  | some c => leNat c.digest
  | none => 0

-- slots (R265)

/-- A slot takes a state and an image. -/
def State.setSlot (s : State) (k : Nat) (st : SlotSt) (img : List Byte) : State :=
  { s with security := if k = 0 then { s.security with slotA := st, imageA := img } else { s.security with slotB := st, imageB := img } }
def State.slotTo (s : State) (k : Nat) (st : SlotSt) : State := s.setSlot k st (s.security.image k)

/-- A slot holds an image that passes. The image at delivery is the empty list, of which the spec tells nothing: it passes. -/
def State.slotPasses (s : State) (k : Nat) : Bool :=
  let img := s.security.image k
  img.isEmpty || imagePasses img (s.val 0x3100 6)

/-- A slot is tried: it boots, or it fails and counts; one that is EMPTY or INVALID is passed over. -/
def State.trySlot (s : State) (k : Nat) : State × Bool :=
  let st := s.security.slot k
  if st = .empty || st = .invalid then (s, false)
  else if s.slotPasses k then (s, true)
  else ((s.slotTo k .invalid).bump 0x3100 0xB 1, false)

/-- A slot boots: its firmware runs, and every core takes its microcode. -/
def State.bootSlot (s : State) (k : Nat) : State :=
  let img := s.security.image k
  let s := { s with security := { s.security with
    booted := k, running := true, bootedImage := img
    trialAt := if s.security.slot k = .trial then some s.up else none } }
  forRange 16 s (fun s c => s.modCore c (fun x => { x with microcode := imageMicrocode img }))

/-- FIRMWARE_VERIFIED: the slot named by `0x3100:07` first, then the other; with neither the part stays in BOOT. -/
def State.verify (s : State) : State :=
  if s.run.st != .boot || s.security.running then s
  else
    let k := s.val 0x3100 7
    let a := s.trySlot k
    if a.2 then a.1.bootSlot k
    else
      let b := a.1.trySlot (1 - k)
      if b.2 then b.1.bootSlot (1 - k) else b.1

def execFirmwareVerified (dt : Nat) (s : State) : Result := .next ((s.elapse dt).verify)

/-- The slot that is booted. -/
def State.isBooted (s : State) (k : Nat) : Bool := s.security.running && s.security.booted = k

/-- TRIAL_CONFIRM. -/
def State.trialConfirmAct (v : Nat) (s : State) : Nat × State :=
  let k := s.security.booted
  if v != 1 then refuse abRange s
  else if !s.security.running || s.security.slot k != .trial then refuse abState s
  else
    let s := s.slotTo k .valid
    accept { s with security := { s.security with trialAt := none } }

def execTrialConfirm (dt : Nat) (road : Road) (value : BitVec 8) (s : State) : Result :=
  .next ((s.elapse dt).writeRow road 0x3100 8 (leBytes 1 value.toNat) (State.trialConfirmAct value.toNat))

/-- TRIAL_TIMEOUT: not confirmed in time, the slot becomes INVALID and the part resets into the other. -/
def State.trialTimeout (s : State) : State :=
  match s.security.trialAt with
  | some t =>
    if !s.security.running || s.up < t + s.val 0x3100 9 * sPs then s
    else (s.slotTo s.security.booted .invalid).boot 3
  | none => s

def execTrialTimeout (dt : Nat) (s : State) : Result := .next ((s.elapse dt).trialTimeout)

-- writing a slot (R265, R267, R376)

/-- A complete write: an image that passes is on TRIAL and boots next; one that does not leaves the slot EMPTY. -/
def State.writeSlot (s : State) (k : Nat) (img : List Byte) : State × Bool :=
  if imagePasses img (s.val 0x3100 6) then ((s.setSlot k .trial img).setVal 0x3100 7 k, true)
  else (s.setSlot k .empty [], false)

/-- The slot of a file name: `PLV-A` or `PLV-B`. -/
def foeSlot (name : List Byte) : Option Nat :=
  if name = [0x50, 0x4C, 0x56, 0x2D, 0x41] then some 0 else if name = [0x50, 0x4C, 0x56, 0x2D, 0x42] then some 1 else none

/-- FOE_WRITE: in PREOP or higher; one cut short leaves the slot EMPTY. -/
def State.foeWrite (s : State) (name img : List Byte) (interrupted : Bool) : State :=
  if s.al = 0 || s.run.st = .off then s
  else
    match foeSlot name with
    | none => s.emit (.foe 0x8001)
    | some k =>
      if !has (s.classRights 1 6) rightW then (s.denyEntry (some 1) 0x3100 (2 + k) rightW).emit (.foe 0x800A)
      else if s.isBooted k then s.emit (.foe 0x8002)
      else if interrupted then s.setSlot k .empty []
      else
        let w := s.writeSlot k img
        w.1.emit (.foe (if w.2 then 0 else 0x800B))

def execFoeWrite (dt : Nat) (name image : List Byte) (interrupted : Bool) (s : State) : Result :=
  .next ((s.elapse dt).foeWrite name image interrupted)

/-- A status that the spec leaves open, other than OK and within the codes of R492: a free value. -/
def State.freeStatus (s : State) : Nat := 1 + Config.freeNat s.free % 0x5F

/-- FIRMWARE on the job ring: an HBM copy of the image, LENGTH and the slot. -/
def State.firmwareRq (r : Rq) (s : State) : State :=
  let a := rqField r.entry 0 8
  let n := rqField r.entry 8 4
  let k := rqField r.entry 12 1
  if !has (s.classRights r.m 6) rightW then s.answerDenied r (odKey 0x3100 (2 + k)) (2 ^ rightW)
  else if s.isBooted k then s.answer r stAccess 0
  else if rangeSpan a n != .hbm then s.answerDenied r a (2 ^ rightR)
  else
    match s.checkMem r.m a n rightR with
    | .denied addr lacking => s.answerDenied r addr lacking
    | .noTarget => s.answerDenied r a (2 ^ rightR)
    | .retired => s.answer r stUnitFault 0
    | .ok =>
      let w := s.writeSlot k (s.mem.read a n)
      if w.2 then w.1.answer r 0 0 else w.1.takeFree.answer r s.freeStatus 0

def execFirmware (dt : Nat) (s : State) : Result := .next ((s.elapse dt).serve rqFirmware State.firmwareRq)

-- the security version counter (R266)

/-- COMMIT_SECURITY_VERSION. -/
def State.commitAct (v : Nat) (s : State) : Nat × State :=
  let k := s.security.booted
  if 128 < v then refuse abRange s
  else if !s.security.running || s.security.slot k != .valid || imageSvn (s.security.image k) < v then refuse abState s
  else accept (s.raiseTo 0x3100 6 v)

def execCommitSecurityVersion (dt : Nat) (road : Road) (value : BitVec 8) (s : State) : Result :=
  .next ((s.elapse dt).writeRow road 0x3100 0xA (leBytes 1 value.toNat) (State.commitAct value.toNat))

-- microcode (R268)

/-- The DIGEST of a core-microcode component marked IN_SERVICE_OK in a VALID slot: the booted slot first. -/
def State.freshMicrocode (s : State) : Option Nat :=
  let x := s.security
  ([x.booted, 1 - x.booted].filter (fun k => x.slot k = .valid)).findSome? (fun k =>
    ((imageComponents (x.image k)).find? (fun c => c.type = 2 && bitOf c.flags 0)).map (fun c => leNat c.digest))

/-- MICROCODE_UPDATE_CORE: the core goes to REPAIR and its work elsewhere. -/
def State.microcodeAct (c : Nat) (s : State) : Nat × State :=
  if 16 ≤ c then refuse abRange s
  else if s.security.updating.isSome || !s.unitWorks (coreRef c) then refuse abState s
  else
    match s.freshMicrocode with
    | none => refuse abState s
    | some d =>
      let s := s.leave (coreRef c) .repair
      accept { s with security := { s.security with updating := some (c, d) } }

def execMicrocodeUpdateCore (dt : Nat) (road : Road) (value : BitVec 8) (s : State) : Result :=
  .next ((s.elapse dt).writeRow road 0x3100 0xC (leBytes 1 value.toNat) (State.microcodeAct value.toNat))

/-- MICROCODE_UPDATE_DONE: the microcode is loaded, and a core that passes its self-test is READY again. -/
def State.microcodeDone (s : State) (c : Nat) (passed : Bool) : State :=
  match s.security.updating with
  | some (u, d) =>
    if u != c then s
    else
      let s := { s with security := { s.security with updating := none } }
      let s := s.modCore c (fun x => { x with microcode := d })
      if passed && s.unit (coreRef c) = .repair then s.setUnit (coreRef c) .ready else s
  | none => s

def execMicrocodeUpdateDone (dt : Nat) (core : Fin 16) (passed : Bool) (s : State) : Result :=
  .next ((s.elapse dt).microcodeDone core passed)

end Sys2Proof.Machine
end

