-- ==== Sys2Proof/Machine/Attest.lean ====
section
/-! DEFINITION. Signatures of the security block and attestation reports (R269 to R272). -/

namespace Sys2Proof.Machine

/-- Leaves of the tree. -/
def leafCount : Nat := 1048576

/-- The next leaf, `0x3110:03`. -/
def State.leaf (s : State) : Nat := s.val 0x3110 3

/-- Seconds still to wait before the next signature, 0 for none; a part of a second counts as one. -/
def State.signWait (s : State) : Nat :=
  match s.security.lastSignature with
  | some t => ceilDiv (t + s.val 0x3110 4 * sPs - s.up) sPs
  | none => 0

/-- The report of R271 up to its signature. -/
def State.reportHead (s : State) (nonce : List Byte) : List Byte :=
  let img := s.security.bootedImage
  let twin := if s.twin.partnerKey.isEmpty then List.replicate 32 0 else shake256 s.twin.partnerKey
  leBytes 4 0x00010000 ++ leBytes 4 3108 ++ leBytes 8 (s.clock.now / sPs % 2 ^ 48) ++ leBytes 4 (s.clock.now % sPs / 1000) ++
  leBytes 1 s.time.lock.code ++ leBytes 1 s.run.st.code ++ leBytes 1 s.security.booted ++ leBytes 1 (s.val 0x3120 1) ++
  leBytes 4 (s.val 0x3100 6) ++ leBytes 4 s.leaf ++ padTo 32 0 nonce ++ ownHash ++ twin ++
  shake256 (img.take 2920 ++ imageTable img) ++ shake256 ((List.range 16).flatMap (fun c => leBytes 32 (s.core c).microcode)) ++
  s.configHash ++ s.accessHash ++ List.replicate 32 0

/-- A signature: the counter has moved past its leaf before it is released; a warning when fewer than 2^16 leaves remain. -/
def State.signed (s : State) : State :=
  let left := leafCount - (s.leaf + 1)
  let s := s.setVal 0x3110 3 (s.leaf + 1)
  let s := { s with security := { s.security with lastSignature := some s.up } }
  if left < 65536 && !s.security.leavesWarned then
    ({ s with security := { s.security with leavesWarned := true } } : State).raise 0x0802 0 left
  else s

/-- A report on a nonce, if a signature is to be had: the status of R270, the state and the report. -/
def State.report (s : State) (nonce : List Byte) : Nat × State × List Byte :=
  if leafCount ≤ s.leaf then (0x50, s.setVal 0x3111 3 0x50, [])
  else if s.signWait != 0 then (0x51, s.setVal 0x3111 3 (0x51 + 256 * s.signWait), [])
  else
    let head := s.reportHead nonce
    (0, s.signed.setVal 0x3111 3 0, head ++ padTo 2820 0 (Config.xmssSign head s.leaf))

/-- ATTESTATION_NONCE: 32 bytes; the report is read at `0x3111:02`, the outcome at `0x3111:03`. -/
def State.nonceAct (nonce : List Byte) (s : State) : Nat × State :=
  if nonce.length != 32 then refuse abLength s
  else
    let r := s.report nonce
    accept (if r.1 = 0 then { r.2.1 with security := { r.2.1.security with report := r.2.2 } } else r.2.1)

def execAttestationNonce (dt : Nat) (road : Road) (nonce : List Byte) (s : State) : Result :=
  .next ((s.elapse dt).writeRow road 0x3111 1 nonce (State.nonceAct nonce))

/-- ATTEST: the report is written to REPORT_ADDRESS before the completion, which holds the leaf or the seconds to wait. -/
def State.attestRq (r : Rq) (s : State) : State :=
  let nonce := (r.entry.drop 8).take 32
  let a := rqField r.entry 32 8
  if !has (s.classRights r.m 6) rightR then s.answerDenied r (odKey 0x3111 1) (2 ^ rightR)
  else if rangeSpan a 3108 != .hbm then s.answerDenied r a (2 ^ rightW)
  else
    match s.checkMem r.m a 3108 rightW with
    | .denied addr lacking => s.answerDenied r addr lacking
    | .noTarget => s.answerDenied r a (2 ^ rightW)
    | .retired => s.answer r stUnitFault 0
    | .ok =>
      let x := s.report nonce
      if x.1 = 0 then (x.2.1.storeBytes a x.2.2).answer r 0 s.leaf
      else x.2.1.answer r x.1 (if x.1 = 0x51 then s.signWait else 0)

def execAttest (dt : Nat) (s : State) : Result := .next ((s.elapse dt).serve rqAttest State.attestRq)

end Sys2Proof.Machine
end

