-- ==== Sys2Proof/Machine/Bringup.lean ====
section
/-! DEFINITION. Bring-up: STANDBY, WARMING core by core, cartridges that are latched, and the run commands that lead there
(R393, R413, R435, R477, R478, R507 to R512). -/

namespace Sys2Proof.Machine

-- what each step of R510 does on a core

/-- The firmware commands a loop to ACQUIRE, if it may: it waits for the frame start (R401). -/
def State.acquire (s : State) (c slot : Nat) : State :=
  let st := (s.loopAhead c slot).1
  if !(st = .off || st = .manual) || s.cmdBarred c 3 slot then s
  else s.modLoops c (fun k => { k with waiting := k.waiting ++ [.command slot 3 0] })
def State.acquireEach (s : State) (c : Nat) (slots : List Nat) : State := slots.foldl (fun s slot => s.acquire c slot) s

/-- The firmware arms a driver, where Arm Command would be taken (R427). -/
def State.armDriver (s : State) (c ch : Nat) : State :=
  if (s.channel c ch).armed || s.standsBy c ch || s.bayOpen c ch || !(s.channelLoops c ch).isEmpty then s
  else s.modChannel c ch (fun x => { x with armNext := some true })

/-- FTW of a tone: its frequency over 2 MHz in 2^-32, rounded (R434). -/
def toneWord (hz : Nat) : Nat := roundDiv (hz * 2 ^ 32) 2000000

/-- The default pilots (R435): generators 0 to 15, and each modulator-bias channel and loop with the generator of its row group. -/
def State.setPilots (s : State) (c : Nat) : State :=
  let s := (List.range 16).foldl (fun s g => s.modConv c (fun k => { k with generators := tmod k.generators g (fun x => { x with
    next := some (toneWord ((g % 8 + 1) * 10000), if g < 8 then 0 else 0x40000000, true) }) })) s
  (List.range 544).foldl (fun s i =>
    let ch := 544 + i
    let g := i % 16
    let x := s.channel c ch
    let r := x.configNext.getD (x.record ch)
    let r := r - ccGen r * 2 ^ 8 - ccPilot r * 2 ^ 16 + g * 2 ^ 8 + 200 * 2 ^ 16
    let q := (s.loopAhead c ch).2
    let q := q - lcSource q * 2 ^ 32 + (2 ^ 28 + g * 2 ^ 16 + i) * 2 ^ 32
    (s.modChannel c ch (fun x => { x with configNext := some r })).modLoops c (fun k =>
      { k with waiting := k.waiting ++ [.config ch q] })) s

/-- Engines of a core that are being brought up. -/
def State.starting (s : State) (c : Nat) : List Nat := (List.range 34).filter (fun e => s.unit (engineRef c e) = .starting)

/-- The action of a step. The cartridge's loops run on its host core (R400). -/
def State.warmAct (s : State) (c step : Nat) : State :=
  let h := s.hostCore (c / 2)
  let s := s.modCore c (fun k => { k with warmStep := step })
  if step = 1 then
    let s := (List.range 4).foldl (fun s z => s.armDriver c (1104 + z)) s
    let s := (s.acquireEach c [1141, 1142, 1143, 1144]).acquire h 1140
    let s := s.modCore c (fun k => { k with pulse := if k.pulse = .unlocked then .acquiring else k.pulse })
    s.setPilots c
  else if step = 2 then
    let s := (List.range 16).foldl (fun s k => s.armDriver h (1088 + k)) s
    let s := s.modCart (c / 2) (fun k => { k with disarmed := false })
    s.acquireEach h ((List.range 16).map (fun k => 1124 + k))
  else if step = 3 then s.acquireEach c [1122, 1123]
  else if step = 4 then
    let slots := (s.starting c).flatMap (fun e => (List.range 16).map (fun k => 16 * e + k))
    (slots.foldl (fun s ch => s.armDriver c ch) s).acquireEach c slots
  else if step = 5 then
    s.acquireEach c ((s.starting c).flatMap (fun e => (List.range 16).map (fun g => 544 + 16 * e + g)))
  else if step = 6 then s.acquireEach c ((s.starting c).map (fun e => 1088 + e))
  else s

/-- The step that a core is at is done. -/
def State.warmDone (s : State) (c : Nat) : Bool :=
  let k := s.core c
  let h := s.hostCore (c / 2)
  let all (c : Nat) (slots : List Nat) : Bool := slots.all (fun slot => (s.loop c slot).locked)
  let each (base : Nat) : Bool := (s.starting c).all (fun e => all c ((List.range 16).map (fun i => base + 16 * e + i)))
  if k.warmStep = 1 then all c [1141, 1142, 1143, 1144] && all h [1140] && k.pulse = .locked
  else if k.warmStep = 2 then all h ((List.range 16).map (fun i => 1124 + i))
  else if k.warmStep = 3 then s.val (coreIdx c) 0x27 = 2
  else if k.warmStep = 4 then each 0
  else each 0 && each 544

-- WARMING

/-- A core starts: it is OFFLINE or leaves service no longer, its engines with it, and its first step begins. -/
def State.startCore (s : State) (c : Nat) : State :=
  let s := forRange 34 s (fun s e =>
    let u := s.unit (engineRef c e)
    if u = .offline || u.works then s.putUnit (engineRef c e) .starting else s)
  let s := s.putUnit (coreRef c) .starting
  let s := if s.unit (cartRef (c / 2)) = .offline then s.putUnit (cartRef (c / 2)) .starting else s
  s.warmAct c 1

/-- WARMING ends once every core is READY, FENCED, RETIRED, or OFFLINE for lack of a cartridge, and one is READY. -/
def State.checkWarm (s : State) : State :=
  let settled (c : Nat) : Bool :=
    let u := s.unit (coreRef c)
    u.works || u = .fenced || u = .retired || (u = .offline && (s.cart (c / 2)).latch != 1)
  if s.run.st = .warming && (List.range 16).all settled && (List.range 16).any (fun c => (s.unit (coreRef c)).works) then
    let s := if s.val 0x400A 5 = 0 then s.setVal 0x400A 5 ((s.up - s.run.startAt) / msPs) else s
    (s.runTo .ready).followJobs
  else s

/-- Entry into WARMING: the limit in force, and every in-service core with a latched cartridge that is not up yet starts. -/
def State.startWarming (s : State) : State :=
  let s := s.runTo .warming
  let s := { s with run := { s.run with warmLimit := s.val 0x400A 2, stopJobs := false } }
  let s := s.setVal 0x2000 6 0
  let s := forRange 16 s (fun s c =>
    if s.unit (coreRef c) = .offline && (s.cart (c / 2)).latch = 1 then s.startCore c else s)
  s.checkWarm

/-- The last step on a core: each engine whose detector trim has locked, and that owes no recalibration, is READY; with none left
the core is. -/
def State.warmEnds (s : State) (c : Nat) : State :=
  let s := (s.starting c).foldl (fun s e =>
    if (s.loop c (1088 + e)).locked && !(s.eng c e).exchange then s.setUnit (engineRef c e) .ready else s) s
  if !(s.starting c).isEmpty || (s.core c).pulse != .locked || s.val (coreIdx c) 0x27 != 2 then s
  else
    let s := (s.modCore c (fun k => { k with warmStep := 0 })).setUnit (coreRef c) .ready
    s.checkWarm

/-- CORE_WARMING_STEP. -/
def State.warmStep (s : State) (c : Nat) : State :=
  let n := (s.core c).warmStep
  if s.unit (coreRef c) != .starting || n = 0 then s
  else if n = 6 then s.warmEnds c
  else if !s.warmDone c then s
  else
    let s := if n = 2 && s.unit (cartRef (c / 2)) = .starting then s.setUnit (cartRef (c / 2)) .ready else s
    s.warmAct c (n + 1)

def execCoreWarmingStep (dt : Nat) (core : Fin 16) (s : State) : Result := .next ((s.elapse dt).warmStep core)

/-- WARMING_LIMIT: a core that is not READY is FENCED. -/
def State.warmLimit (s : State) : State :=
  if s.run.st != .warming || s.up < s.run.since + s.run.warmLimit * msPs then s
  else
    let s := forRange 16 s (fun s c =>
      let u := s.unit (coreRef c)
      if u.works || u = .fenced || u = .retired || (u = .offline && (s.cart (c / 2)).latch != 1) then s
      else ((s.modCore c (fun k => { k with warmStep := 0 })).fence (coreRef c)).holdLoops c)
    s.checkWarm

def execWarmingLimit (dt : Nat) (s : State) : Result := .next ((s.elapse dt).warmLimit)

-- STANDBY (R507 to R509)

/-- A unit is up after its self-test: READY, or FENCED when it failed; one that is RETIRED stays. -/
def State.selfTested (s : State) (failed : List UnitRef) (r : Nat) : State :=
  if s.unit r = .retired then s
  else if failed.any (fun u => UnitRef.code u = r) then s.fence r
  else s.setUnit r .ready

/-- STANDBY_REACHED: stacks, stores and supplies are up, the pail is reserved, the ports are enabled. -/
def State.standby (s : State) (failed : List UnitRef) : State :=
  if s.run.st != .boot || !s.security.running then s
  else
    let s := forRange 20 s (fun s m => s.selfTested failed (stackRef m))
    let s := forRange 16 s (fun s c =>
      let s := [3, 4, 5, 6].foldl (fun s k => s.selfTested failed (digitalRef k c)) s
      let s := s.selfTested failed (coprocRef c)
      let s := forRange 35 s (fun s g => s.selfTested failed (dacRef c g))
      let s := forRange 68 s (fun s v => s.selfTested failed (adcRef c v))
      let s := if failed.any (fun u => UnitRef.code u = coreRef c) && s.unit (coreRef c) != .retired then s.fence (coreRef c) else s
      s.modCore c (fun k => { k with supply := 650, pailMiB := s.val 0x4002 3 }))
    let s := forRange 128 s (fun s n => if s.unit (portRef n) = .retired then s else s.portEnable n)
    let s := s.runTo .standby
    if s.flag 0x400A 1 && !s.run.autoDone then
      ({ s with run := { s.run with autoDone := true } } : State).startWarming
    else { s with run := { s.run with autoDone := true } }

def execStandbyReached (dt : Nat) (failed : List UnitRef) (s : State) : Result := .next ((s.elapse dt).standby failed)

-- run commands (R393)

/-- START: from STANDBY. -/
def State.startAct (s : State) : Nat × State := if s.run.st = .standby then accept s.startWarming else refuse abState s
def execStart (dt : Nat) (road : Road) (s : State) : Result := .next ((s.elapse dt).writeRow road 0x2000 2 [1] State.startAct)

/-- STOP: from READY or SERVING; DRAINING ends at once where no step runs. -/
def State.stopAct (s : State) : Nat × State :=
  if s.run.st = .ready || s.run.st = .serving then accept ((s.runTo .draining).stopJobs.advance) else refuse abState s
def execStop (dt : Nat) (road : Road) (s : State) : Result := .next ((s.elapse dt).writeRow road 0x2000 2 [2] State.stopAct)

/-- SAFE: from WARMING, READY, SERVING or DRAINING. -/
def State.safeAct (s : State) : Nat × State :=
  let r := s.run.st
  if r = .warming || r = .ready || r = .serving || r = .draining then accept (s.toSafe 1) else refuse abState s
def execSafe (dt : Nat) (road : Road) (s : State) : Result := .next ((s.elapse dt).writeRow road 0x2000 2 [3] State.safeAct)

/-- CLEAR: from SAFE, unless the device is SELF_FENCED. -/
def State.clearAct (s : State) : Nat × State :=
  if s.run.st = .safe && s.twin.st != .selfFenced then accept s.startWarming else refuse abState s
def execClear (dt : Nat) (road : Road) (s : State) : Result := .next ((s.elapse dt).writeRow road 0x2000 2 [4] State.clearAct)

-- cartridges (R477, R478, R481)

/-- An engine that a new cartridge feeds is calibrated at every b for each LIVE bank before it serves (R478). -/
def Plane.exchanged (p : Plane) (now : Nat) : Plane :=
  if p.st = .live || p.st = .refreshing then { p with calibrated := [], calDue := [(0, 2, now), (1, 2, now), (2, 2, now)] } else p
def Engine.exchanged (g : Engine) (now : Nat) : Engine :=
  let live (p : Plane) : Bool := p.st = .live || p.st = .refreshing
  { g with exchange := live g.plane0 || live g.plane1, plane0 := g.plane0.exchanged now, plane1 := g.plane1.exchanged now }

/-- Both cores of a cartridge are brought up on it. Loops that hold go on by themselves, their laser drivers armed (R408, R478). -/
def State.bringUpCart (s : State) (l : Nat) : State :=
  let s := if s.unit (cartRef l) = .retired then s else s.putUnit (cartRef l) .starting
  let h := s.hostCore l
  let s := (List.range 16).foldl (fun s k =>
    if (s.loop h (1124 + k)).st = .hold then s.modChannel h (1088 + k) (fun x => { x with armNext := some true }) else s) s
  let s := s.modCart l (fun k => { k with disarmed := false })
  let s := (cartPorts l).foldl (fun s n =>
    if s.unit (portRef n) = .offline then s
    else if s.unit (portRef n) = .fenced then s.portStart n
    else s.modPort n (fun p => { p with light := s.fabricLight n })) s
  [2 * l, 2 * l + 1].foldl (fun s c =>
    let u := s.unit (coreRef c)
    if u = .offline || u = .fenced then
      let s := forRange 34 s (fun s e => s.modEng c e (fun g => g.exchanged s.up))
      ((s.modCore c (fun k => { k with lit := [] })).startCore c).holdLoops c
    else s) s

/-- CARTRIDGE_LATCH: serial and hours are read; from WARMING on the cartridge is brought up. -/
def State.latchCart (s : State) (l serial hours : Nat) : State :=
  if (s.cart l).latch = 1 then s
  else
    let s := s.modCart l (fun k => { k with latch := 1, serial := serial, hours := hours })
    if s.run.st = .off then s
    else
      let s := s.bump (0x5800 + l) 7 1
      if s.run.st = .boot || s.run.st = .standby || s.run.st = .shutdown then
        (cartPorts l).foldl (fun s n => s.modPort n (fun p => { p with
          light := s.unit (portRef n) != .offline && s.unit (portRef n) != .retired && s.fabricLight n })) s
      else s.bringUpCart l

def execCartridgeLatch (dt : Nat) (cartridge : Fin 8) (serial : BitVec 96) (hours : BitVec 32) (s : State) : Result :=
  .next ((s.elapse dt).latchCart cartridge serial.toNat hours.toNat)

/-- CARTRIDGE_UNLATCH: ports withdrawn, both fed cores FENCED, cartridge loops to HOLD. The lasers are disarmed by the interlock
path (R477). -/
def State.unlatchCart (s : State) (l : Nat) : State :=
  if (s.cart l).latch != 1 then s
  else
    let s := s.modCart l (fun k => { k with latch := 2, openedAt := s.up })
    if s.run.st = .off then s
    else
      let s := (s.bump (0x5800 + l) 8 1).withdrawPorts l
      let cart := s.unit (cartRef l)
      let s := if cart = .starting || cart.works then
          (s.leave (cartRef l) .fenced).modUnit (cartRef l) (fun u => { u with autoTested := true })
        else s
      let s := [2 * l, 2 * l + 1].foldl (fun s c =>
        let u := s.unit (coreRef c)
        if u = .starting || u.works then
          ((s.modCore c (fun k => { k with warmStep := 0 })).leave (coreRef c) .fenced).modUnit (coreRef c) (fun u =>
            { u with autoTested := true })
        else s) s
      let h := s.hostCore l
      let s := (List.range 17).foldl (fun s k => if (s.loop h (1124 + k)).st.runs then s.loopTo h (1124 + k) .hold else s) s
      ((s.holdLoops (2 * l)).holdLoops (2 * l + 1)).checkWarm

def execCartridgeUnlatch (dt : Nat) (cartridge : Fin 8) (s : State) : Result := .next ((s.elapse dt).unlatchCart cartridge)

/-- LASER_INTERLOCK_CUT: the lasers of an opened bay are disarmed within 100 us, or cut by the interlock at 200 us; the time
to dark is kept at its worst (R481). -/
def State.interlockCut (s : State) (l : Nat) : State :=
  let k := s.cart l
  if k.latch = 1 || k.disarmed then s
  else
    let s := s.lasersOff l
    if s.run.st = .off then s else s.raiseTo (0x5800 + l) 9 (min 65535 ((s.up - k.openedAt) / usPs))

def execLaserInterlockCut (dt : Nat) (cartridge : Fin 8) (s : State) : Result := .next ((s.elapse dt).interlockCut cartridge)

/-- CARTRIDGE_REMOVED: the bay of an unlatched cartridge is empty. -/
def execCartridgeRemoved (dt : Nat) (cartridge : Fin 8) (s : State) : Result :=
  let s := s.elapse dt
  .next (if (s.cart cartridge).latch = 2 then s.modCart cartridge (fun k => { k with latch := 0, serial := 0, hours := 0 }) else s)

end Sys2Proof.Machine
end

