-- ==== Sys2Proof/Machine/Epochs.lean ====
section
/-! DEFINITION. Epochs: staging, commands, commit time, apply boundaries and mixed units (R295 to R299, R301, R414, R430). -/

namespace Sys2Proof.Machine

-- staging (R295, R296)

/-- A word of the Group Mode Table is valid: MODE, reserved bits, QUEUE_PERIOD (R430). -/
def groupWordOk (w : Nat) : Bool := w % 65536 < 2 && (w % 65536 = 0 || w / 65536 != 0)

/-- Some loop that is not OFF drives a channel of a group. -/
def State.groupDriven (s : State) (c g : Nat) : Bool :=
  (s.loopCore c).loops.any (fun x => x.2.st != .off && (loopChannels x.2.config x.1).any (fun ch => groupOf ch = g))

/-- What a staged value is checked against: 0 lets it through. -/
def State.stageCheck (s : State) (index v : Nat) : Nat :=
  if 0x6200 ≤ index && index < 0x6210 then
    let c := index - 0x6200
    if !(List.range 35).all (fun g => groupWordOk (word32 v g)) then abRange
    else if (List.range 35).any (fun g => word32 v g % 2 = 1 && s.groupDriven c g) then abState
    else 0
  else if 2 ^ 1145 ≤ v then abRange
  else 0

/-- A write to an EPOCH entry: staged in PENDING alone; a later value for the same entry replaces the earlier. -/
def State.stageAct (index sub v : Nat) (s : State) : Nat × State :=
  if s.epoch.st != .pending then refuse abState s
  else
    let k := s.stageCheck index v
    if k != 0 then refuse k s
    else
      let l := s.epoch.staged.filter (fun x => x.1 != odKey index sub) ++ [(odKey index sub, v)]
      accept (({ s with epoch := { s.epoch with staged := l } } : State).setVal 0x2002 2 l.length)

/-- An entry is marked EPOCH. -/
def isEpochEntry (index sub : Nat) : Bool := (odRow index sub).any OdRow.byEpoch

def execEpochStageWrite (dt : Nat) (road : Road) (index : BitVec 16) (sub : BitVec 8) (data : List Byte) (s : State) : Result :=
  let s := s.elapse dt
  .next (if isEpochEntry index.toNat sub.toNat then
    s.writeRow road index.toNat sub.toNat data (State.stageAct index.toNat sub.toNat (leNat data)) else s)

-- commands (R296)

def State.epochTo (s : State) (st : EpochSt) : State := { s with epoch := { s.epoch with st := st } }

/-- Nothing is staged any more. -/
def State.unstage (s : State) : State := ({ s with epoch := { s.epoch with staged := [] } } : State).setVal 0x2002 2 0

/-- Commit Time lies between 20 us and 3,600 s after now. -/
def State.commitTimeOk (s : State) : Bool :=
  let t := timeNs (s.val 0x2002 3)
  s.ns + 20000 ≤ t && t ≤ s.ns + 3600000000000

/-- A command that waits for the commit time: 0 COMMIT, 1 RECOMMIT, 2 REVERT. -/
def State.commitWith (s : State) (kind : Nat) : State :=
  { s with epoch := { s.epoch with st := .committing, kind := kind, commitAt := timeNs (s.val 0x2002 3), applying := false } }

def State.epochOpenAct (s : State) : Nat × State :=
  if s.epoch.st = .stable then accept (s.unstage.epochTo .pending) else refuse abState s
def State.epochCommitAct (s : State) : Nat × State :=
  if s.epoch.st = .pending && s.commitTimeOk then accept (s.commitWith 0) else refuse abState s
def State.epochAbortAct (s : State) : Nat × State :=
  if s.epoch.st = .pending then accept (s.unstage.epochTo .stable) else refuse abState s
def State.epochRecommitAct (s : State) : Nat × State :=
  if s.epoch.st = .mixed && s.commitTimeOk then accept (s.commitWith 1) else refuse abState s
def State.epochRevertAct (s : State) : Nat × State :=
  if s.epoch.st = .mixed && s.commitTimeOk then accept (s.commitWith 2) else refuse abState s

/-- Epoch Command by its value. -/
def State.epochCommandAct (v : Nat) (s : State) : Nat × State :=
  if v = 1 then State.epochOpenAct s else if v = 2 then State.epochCommitAct s else if v = 3 then State.epochAbortAct s
  else if v = 4 then State.epochRecommitAct s else if v = 5 then State.epochRevertAct s else refuse abRange s

def execEpochOpen (dt : Nat) (road : Road) (s : State) : Result := .next ((s.elapse dt).writeRow road 0x2002 5 [1] State.epochOpenAct)
def execEpochCommit (dt : Nat) (road : Road) (s : State) : Result :=
  .next ((s.elapse dt).writeRow road 0x2002 5 [2] State.epochCommitAct)
def execEpochAbort (dt : Nat) (road : Road) (s : State) : Result :=
  .next ((s.elapse dt).writeRow road 0x2002 5 [3] State.epochAbortAct)
def execEpochRecommit (dt : Nat) (road : Road) (s : State) : Result :=
  .next ((s.elapse dt).writeRow road 0x2002 5 [4] State.epochRecommitAct)
def execEpochRevert (dt : Nat) (road : Road) (s : State) : Result :=
  .next ((s.elapse dt).writeRow road 0x2002 5 [5] State.epochRevertAct)

-- the commit time (R297, R299)

/-- The units on which a value acts otherwise than the one in force: a co-processor, or the groups whose word changes. -/
def State.affected (s : State) (key v : Nat) : List Nat :=
  let index := key / 256
  let old := s.val index (key % 256)
  if 0x6100 ≤ index && index < 0x6110 then (if old = v then [] else [coprocRef (index - 0x6100)])
  else (List.range 35).filterMap (fun g => if word32 old g = word32 v g then none else some (dacRef (index - 0x6200) g))

/-- The value that an entry takes on a unit: to be applied now, or when the unit next starts. -/
def State.oweValue (s : State) (r key v : Nat) : State :=
  if (s.unit r).works then s.modUnit r (fun u => { u with applyDue := true })
  else
    let l := s.epoch.later
    let mine := ((l.find? (fun x => x.1 = r)).map Prod.snd).getD []
    { s with epoch := { s.epoch with
      later := l.filter (fun x => x.1 != r) ++ [(r, mine.filter (fun x => x.1 != key) ++ [(key, v)])] } }

/-- The epoch number after another: 65,535 is followed by 1. -/
def nextEpoch (n : Nat) : Nat := if 65535 ≤ n then 1 else n + 1

def State.applyDueUnits (s : State) : List Nat := (s.units.filter (fun u => u.2.applyDue)).map Prod.fst

/-- Every affected unit has applied: the epoch is STABLE, or MIXED while a unit is. -/
def State.settleEpoch (s : State) : State :=
  if !s.epoch.applying || !s.applyDueUnits.isEmpty then s
  else
    let s := { s with epoch := { s.epoch with applying := false } }
    if s.mixedUnits.isEmpty then (s.unstage.epochTo .stable).clearAlarm 0x0114 0 else s.epochTo .mixed

/-- EPOCH_COMMIT_TIME of a COMMIT: the number advances, and each affected unit is to apply its values. -/
def State.commitEpoch (s : State) : State :=
  let n := nextEpoch s.epoch.lastIssued
  let before := s.epoch.staged.map (fun x => (x.1, s.val (x.1 / 256) (x.1 % 256)))
  let s := { s with epoch := { s.epoch with previous := s.val 0x2002 1, lastIssued := n, before := before } }
  let s := (s.setVal 0x2002 1 n).bump 0x2003 4 1
  s.epoch.staged.foldl (fun s x => (s.affected x.1 x.2).foldl (fun s r => s.oweValue r x.1 x.2) s) s

/-- Of a RECOMMIT: every MIXED unit is to apply them. -/
def State.recommitEpoch (s : State) : State :=
  s.mixedUnits.foldl (fun s r => s.modUnit r (fun u => { u with applyDue := true })) s

/-- A unit is MIXED no longer and goes from FENCED to READY. -/
def State.unmix (s : State) (r : Nat) : State :=
  let s := s.modUnit r (fun u => { u with mixed := false })
  if s.unit r = .fenced then s.setUnit r .ready else s

/-- Of a REVERT: the number goes back, units that applied are to take their old values, MIXED ones return to READY, and what waits
for a unit to start is dropped. -/
def State.revertEpoch (s : State) : State :=
  let s := s.setVal 0x2002 1 s.epoch.previous
  let mixed := s.mixedUnits
  let keys := s.epoch.before.map Prod.fst
  let s := { s with epoch := { s.epoch with later :=
    (s.epoch.later.map (fun x => (x.1, x.2.filter (fun y => y.1 ∉ keys)))).filter (fun x => !x.2.isEmpty) } }
  let s := mixed.foldl State.unmix s
  s.epoch.before.foldl (fun s x => (s.affected x.1 x.2).foldl (fun s r =>
    if r ∈ mixed then s else s.oweValue r x.1 x.2) s) s

def State.commitTime (s : State) : State :=
  if s.epoch.st != .committing || s.epoch.applying || s.ns < s.epoch.commitAt then s
  else
    let s := { s with epoch := { s.epoch with applying := true } }
    (if s.epoch.kind = 0 then s.commitEpoch else if s.epoch.kind = 1 then s.recommitEpoch else s.revertEpoch).settleEpoch

def execEpochCommitTime (dt : Nat) (s : State) : Result := .next (s.elapse dt).commitTime

-- apply boundaries (R297, R298)

/-- EPOCH_APPLY: the values that act on the unit take effect on it. -/
def State.applyEpoch (s : State) (r : Nat) : State :=
  if !s.epoch.applying || !(tget s.units r).applyDue then s
  else
    let l := if s.epoch.kind = 2 then s.epoch.before else s.epoch.staged
    let mine := l.filter (fun x =>
      if refKind r = 7 then x.1 / 256 = 0x6100 + refB r else x.1 / 256 = 0x6200 + refA r)
    let s := mine.foldl (fun s x => s.applyStaged r x.1 x.2) s
    let s := s.modUnit r (fun u => { u with applyDue := false })
    (if (tget s.units r).mixed then s.unmix r else s).settleEpoch

def execEpochApply (dt : Nat) (unit : UnitRef) (s : State) : Result := .next ((s.elapse dt).applyEpoch (Machine.UnitRef.code unit))

/-- A unit that has not applied is fenced, to stay so: no test of its own takes it out of the list (DEDUCED). -/
def State.mix (s : State) (r : Nat) : State :=
  let s := if s.unit r = .fenced then s else s.fence r
  s.modUnit r (fun u => { u with mixed := true, applyDue := false, autoTested := true })

/-- EPOCH_MIXED: the Commit Window has passed with units that have not applied. -/
def State.mixEpoch (s : State) : State :=
  let due := s.applyDueUnits
  if !s.epoch.applying || due.isEmpty || s.ns ≤ s.epoch.commitAt + 1000 * s.val 0x2002 4 then s
  else
    let s := (due.foldl State.mix s).bump 0x2003 5 1
    let s := { s.epochTo .mixed with epoch := { s.epoch with st := .mixed, applying := false } }
    s.raise 0x0114 0 (s.val 0x2002 1 + s.mixedUnits.length * 65536)

def execEpochMixed (dt : Nat) (s : State) : Result := .next (s.elapse dt).mixEpoch

end Sys2Proof.Machine
end

