-- ==== Sys2Proof/Machine/Forward.lean ====
section
/-! DEFINITION. The switch: classes, routes and slots, the shared buffer, PFC, ECN, egress scheduling, and what the endpoint answers by
itself (R304, R311 to R317, R322). -/

namespace Sys2Proof.Machine

-- checksums

/-- CRC-32 of IEEE 802.3 over bytes, least significant bit first. -/
def crcBit (c : Nat) : Nat := if c % 2 = 1 then (c / 2) ^^^ 0xEDB88320 else c / 2
def crcByte (c : Nat) (b : Byte) : Nat := (List.range 8).foldl (fun c _ => crcBit c) (c ^^^ b.toNat)
def crc32 (bs : List Byte) : Nat := bs.foldl crcByte 0xFFFFFFFF ^^^ 0xFFFFFFFF

/-- Bytes of a number, most significant first. -/
def beBytes (n v : Nat) : List Byte := (leBytes n v).reverse

/-- The Internet checksum of bytes: 16-bit words, most significant byte first, in one's complement. -/
def sumWords : List Byte → Nat
  | [] => 0
  | [a] => 256 * a.toNat
  | a :: b :: t => 256 * a.toNat + b.toNat + sumWords t
def foldSum (n : Nat) : Nat := if n < 65536 then n else
  let m := n % 65536 + n / 65536
  m % 65536 + m / 65536
def netSum (bs : List Byte) : Nat := 65535 - foldSum (foldSum (sumWords bs))

-- addresses (R308, R311)

/-- The device's IPv6 address, its IPv4 address as an IPv4-mapped one, and its MAC (`0x2300:01` to `:03`). -/
def State.ownV6 (s : State) : Nat := beNat (leBytes 16 (s.val 0x2300 2))
def mapped (v4 : Nat) : Nat := 0xFFFF * 2 ^ 32 + v4
def State.isOwn (s : State) (a : Nat) : Bool :=
  (s.val 0x2300 2 != 0 && a = s.ownV6) || (s.val 0x2300 3 != 0 && a = mapped (s.val 0x2300 3))

-- routing (R311, R312)

/-- A route table entry. -/
structure Route where
  addr : Nat
  len : Nat
  valid : Bool
  local_ : Bool
  primary : Nat
  backup : Nat

def routeOf (e : List Byte) : Route :=
  { addr := beNat (e.take 16), len := field e 16 1, valid := field e 17 1 % 2 = 1, local_ := field e 17 1 / 2 % 2 = 1
    primary := field e 18 1, backup := field e 19 1 }
def Fabric.routeList (f : Fabric) : List Route :=
  (List.range (f.routes.length / 32)).map (fun i => routeOf ((f.routes.drop (32 * i)).take 32))

/-- The first bits of two addresses agree. -/
def sameHead (len a b : Nat) : Bool := a >>> (128 - len) = b >>> (128 - len)

/-- The valid entry of longest match that matches; the lowest index of equals. -/
def State.route (s : State) (dst : Nat) : Option Route :=
  (s.fabric.routeList.filter (fun r => r.valid && sameHead r.len r.addr dst)).foldl (fun (b : Option Route) r => match b with
    | none => some r
    | some x => if x.len < r.len then some r else some x) none

/-- The slot of a flow: the low byte of the CRC-32 over its addresses, protocol and ports, in network order (DEDUCED). -/
def flowSlot (src dst proto sport dport : Nat) : Nat :=
  crc32 (beBytes 16 src ++ beBytes 16 dst ++ beBytes 1 proto ++ beBytes 2 sport ++ beBytes 2 dport) % 256

/-- The egress port of a flow: by the primary group, else by the backup. -/
def State.egressOf (s : State) (r : Route) (slot : Nat) : Option Nat :=
  let at_ (g : Nat) : Option Nat := if g < s.fabric.groupCount then s.slotMember g slot else none
  match at_ r.primary with
  | some n => some n
  | none => if r.backup = 0xFF then none else at_ r.backup

-- classes and the buffer (R314, R315)

/-- The class of a packet: 7 for PTP and ESMC, by DSCP for IP. -/
def State.classOf (s : State) (p : Packet) : Nat :=
  if p.kind = .ptp || p.kind = .esmc then 7 else field (leBytes 64 (s.val 0x2300 6)) p.dscp.toNat 1 % 8

def State.lossless (s : State) (cls : Nat) : Bool := bitOf (s.val 0x2300 7) cls

/-- The queue of a class at a port's egress, and its bytes. -/
def Port.queueOf (p : Port) (cls : Nat) : List Queued := (tfind p.egress cls).getD []
def queueBytes (q : List Queued) : Nat := (q.map (fun x => x.pkt.bytes)).sum
def Port.setQueue (p : Port) (cls : Nat) (q : List Queued) : Port :=
  { p with egress := (p.egress.filter (fun x => x.1 != cls)) ++ (if q.isEmpty then [] else [(cls, q)]) }

/-- Headroom of a port for a lossless class (R315). -/
def State.headroomAt (s : State) (n : Nat) : Nat :=
  headroomOf (s.val (portIdx n) 4) (s.val 0x2300 0xA) (s.headSpeed (s.val (portIdx n) 2) n)

/-- Shared bytes that a queue holds beyond its reserve and headroom; and the shared space that is free. -/
def State.sharedBy (s : State) (n cls : Nat) : Nat :=
  tget (s.port n).ingress cls - tget (s.port n).headroom cls - s.val 0x2300 0xA
def State.freeShared (s : State) : Nat :=
  256 * 2 ^ 20 - s.reserved - (s.ports.map (fun p => ((List.range 8).map (s.sharedBy p.1)).sum)).sum

/-- The dynamic limit of a queue. -/
def State.sharedLimit (s : State) : Nat := s.freeShared * s.val 0x2300 0xB / 8

/-- A pause frame goes out: counted (R316). -/
def State.sendPause (s : State) (n cls quanta : Nat) : State := (s.bump (portIdx n) 0x14 1).emit (.pause n cls quanta)

/-- Bytes arrive in a port's buffer; headroom is used where the class is paused. -/
def State.hold (s : State) (n cls b : Nat) (head : Bool) : State :=
  let s := s.modPort n (fun p => { p with
    ingress := tmod p.ingress cls (· + b), headroom := if head then tmod p.headroom cls (· + b) else p.headroom })
  s.raiseTo 0x2300 0x19 ((s.ports.map (fun p => (p.2.ingress.map Prod.snd).sum)).sum / 1024)

/-- An arrival is admitted: on a lossless class into the shared space, with a pause once the limit is passed, or into headroom;
on a lossy one up to the limit. False where it is dropped (R315, R316). -/
def State.admitBytes (s : State) (n cls b : Nat) : State × Bool :=
  if s.lossless cls then
    if cls ∈ (s.port n).pausing then
      if tget (s.port n).headroom cls + b ≤ s.headroomAt n then (s.hold n cls b true, true)
      else ((s.bump 0x2300 0x1C 1).raise 0x0403 (portRef n) cls, false)
    else
      let s := s.hold n cls b false
      if s.sharedLimit < s.sharedBy n cls then
        ((s.modPort n (fun p => { p with pausing := p.pausing ++ [cls] })).sendPause n cls 0xFFFF, true)
      else (s, true)
  else
    let s' := s.hold n cls b false
    if s'.sharedLimit < s'.sharedBy n cls then (s.bump (portIdx n) 0x12 1, false) else (s', true)

/-- Bytes leave a port's buffer, headroom first; two frames below the limit the pause ends. -/
def State.releaseBytes (s : State) (n cls b : Nat) : State :=
  let s := s.modPort n (fun p => { p with
    ingress := tmod p.ingress cls (fun v => v - b), headroom := tmod p.headroom cls (fun v => v - b) })
  if cls ∈ (s.port n).pausing && s.sharedBy n cls + 2 * s.val 0x2300 0xA ≤ s.sharedLimit then
    (s.modPort n (fun p => { p with pausing := p.pausing.filter (fun c => c != cls) })).sendPause n cls 0
  else s

/-- A packet joins an egress queue; the watchdog's classes are dropped there (R316). -/
def State.queueFrame (s : State) (out cls : Nat) (q : Queued) : State :=
  if (s.port out).storm.any (fun x => x.1 = cls) then
    let s := s.bump (portIdx out) 0x12 1
    match q.from_ with
    | some f => s.releaseBytes f.1 f.2 q.pkt.bytes
    | none => s
  else s.modPort out (fun p => p.setQueue cls (p.queueOf cls ++ [q]))

-- the endpoint's own answers (R304, R322)

/-- The device's own packet is routed by the same table (R312). -/
def State.sendOwn (s : State) (p : Packet) : State :=
  match s.route p.dst.toNat with
  | none => s.bump 0x2300 0x1A 1
  | some r =>
    match s.egressOf r (flowSlot p.src.toNat p.dst.toNat p.proto.toNat p.sport.toNat p.dport.toNat) with
    | none => s.bump 0x2300 0x1A 1
    | some out => s.queueFrame out (s.classOf p) { pkt := p }

/-- The pseudo-header that an ICMPv6 checksum covers. -/
def pseudo6 (src dst len : Nat) : List Byte := beBytes 16 src ++ beBytes 16 dst ++ beBytes 4 len ++ [0, 0, 0, 58]

/-- The body with its checksum, bytes 2 and 3, set. -/
def withSum (head body : List Byte) : List Byte :=
  let b := body.take 2 ++ [0, 0] ++ body.drop 4
  b.take 2 ++ beBytes 2 (netSum (head ++ b)) ++ b.drop 4

/-- The answer to an echo request to an own address. -/
def echoReply (p : Packet) : Option Packet :=
  let swap (b : List Byte) : Packet := { p with src := p.dst, dst := p.src, ttl := 64, ecn := 0, body := b }
  match p.body with
  | t :: rest =>
    if p.kind = .ipv4 && p.proto.toNat = 1 && t.toNat = 8 then some (swap (withSum [] (0 :: rest)))
    else if p.kind = .ipv6 && p.proto.toNat = 58 && t.toNat = 128 then
      some (swap (withSum (pseudo6 p.dst.toNat p.src.toNat p.body.length) (129 :: rest)))
    else none
  | [] => none

/-- The answer to a Neighbour Solicitation for an own address: solicited and overriding, with the endpoint's MAC. -/
def State.neighbourAdvert (s : State) (p : Packet) : Option Packet :=
  let target := beNat ((p.body.drop 8).take 16)
  if p.kind = .ipv6 && p.proto.toNat = 58 && field p.body 0 1 = 135 && s.val 0x2300 2 != 0 && target = s.ownV6 then
    let b := [136, 0, 0, 0, 0x60, 0, 0, 0] ++ beBytes 16 target ++ [2, 1] ++ (leBytes 6 (s.val 0x2300 1))
    some { p with src := BitVec.ofNat 128 target, dst := p.src, ttl := 255, multicast := false
                  bytes := 90, body := withSum (pseudo6 target p.src.toNat b.length) b }
  else none

/-- The answer to an ARP request for the own IPv4 address. -/
def State.arpReply (s : State) (p : Packet) : Option Packet :=
  let b := p.body
  if p.kind = .arp && beNat ((b.drop 6).take 2) = 1 && s.val 0x2300 3 != 0 && beNat ((b.drop 24).take 4) = s.val 0x2300 3 then
    some { p with multicast := false, body := b.take 6 ++ [0, 2] ++ leBytes 6 (s.val 0x2300 1) ++ (b.drop 24).take 4 ++
      (b.drop 8).take 10 }
  else none

/-- A CE-marked packet for a queue pair: a CNP, at most one in each CNP Interval. -/
def State.sendCnp (s : State) (q : Nat) : State :=
  let x := s.qp q
  let due := match x.cnpAt with
    | some t => t + s.val 0x2300 0x10 * usPs ≤ s.up
    | none => true
  if (x.st = 2 || x.st = 3) && due then
    ((s.modQp q (fun x => { x with cnpAt := some s.up })).bump 0x2300 0x1F 1).emit (.cnp q)
  else s

/-- A packet for the endpoint. What it carries of RDMA, launch frames and twin frames comes by the rows of its own. -/
def State.deliver_ (s : State) (p : Packet) : State :=
  let s := match echoReply p with
    | some r => s.sendOwn r
    | none => s
  match p.ownQp with
  | some q => if p.proto.toNat = 17 && p.dport.toNat = 4791 && p.ecn.toNat = 3 then s.sendCnp q else s
  | none => s

-- reception (R304, R311 to R316)

/-- An IP packet: to the endpoint, or onward through the buffer. -/
def State.forward (s : State) (n : Nat) (p : Packet) : State :=
  let route := s.route p.dst.toNat
  let toUs := s.isOwn p.dst.toNat || (match route with
    | some r => r.local_
    | none => false)
  if toUs then s.deliver_ p
  else if p.ttl.toNat ≤ 1 then s.bump 0x2300 0x1A 1
  else
    match route.bind (fun r => s.egressOf r (flowSlot p.src.toNat p.dst.toNat p.proto.toNat p.sport.toNat p.dport.toNat)) with
    | none => s.bump 0x2300 0x1A 1
    | some out =>
      let cls := s.classOf p
      let x := s.admitBytes n cls p.bytes
      if x.2 then x.1.queueFrame out cls { pkt := { p with ttl := p.ttl - 1 }, from_ := some (n, cls) } else x.1

/-- PACKET_RECEIVED: a port that is FENCED discards it; a bad, oversize or tagged frame is an error; 802.3 PAUSE frames are counted and
nothing more; the twin's ports carry twin traffic alone. -/
def State.packetIn (s : State) (n : Nat) (p : Packet) : State :=
  if s.unit (portRef n) = .fenced then s.bump (portIdx n) 0x13 1
  else if !s.portWorks n then s
  else if !p.fcsOk || s.val 0x2300 0xA < p.bytes || p.tag = .other then s.bump (portIdx n) 0x13 1
  else
    let s := (s.bump (portIdx n) 0xE 1).bump (portIdx n) 0x10 p.bytes
    let answer (r : Option Packet) : State := match r with
      | some r => s.queueFrame n (s.classOf r) { pkt := r }
      | none => s
    match p.kind with
    | .pause => s.modPort n (fun x => { x with plainPauses := x.plainPauses + 1 })
    | .arp => answer (s.arpReply p)
    | .ipv4 => if s.twinPort n || p.multicast then s else s.forward n p
    | .ipv6 =>
      match s.neighbourAdvert p with
      | some r => answer (some r)
      | none => if s.twinPort n || p.multicast then s else s.forward n p
    | _ => s

def execPacketReceived (dt : Nat) (port : Fin 128) (pkt : Packet) (s : State) : Result := .next ((s.elapse dt).packetIn port pkt)

-- egress (R314, R317)

/-- A class of a port is paused by its peer. -/
def State.classPaused (s : State) (n cls : Nat) : Bool :=
  (s.port n).paused.any (fun x => x.1 = cls && s.up < x.2.1)
def State.mayServe (s : State) (n cls : Nat) : Bool := !((s.port n).queueOf cls).isEmpty && !s.classPaused n cls

/-- What a turn adds to a class's deficit: its weight in Max Frames (DESIGN CHOICE). -/
def State.quantum (s : State) (cls : Nat) : Nat := field (leBytes 6 (s.val 0x2300 9)) cls 1 * s.val 0x2300 0xA

/-- Deficit-weighted round robin over classes 0 to 5: the class served, with the deficits and the turn as they then stand. -/
def State.pickClass (s : State) (n : Nat) : Nat → Tbl Nat → Nat → Option (Nat × Tbl Nat × Nat)
  | 0, _, _ => none
  | f + 1, d, turn =>
    let next := (turn + 1) % 6
    let b := match ((s.port n).queueOf turn).head? with
      | some q => q.pkt.bytes
      | none => 0
    if s.mayServe n turn && b ≤ tget d turn then some (turn, tset d turn (tget d turn - b), turn)
    else
      let d := if ((s.port n).queueOf turn).isEmpty then tset d turn 0 else d
      s.pickClass n f (tset d next (tget d next + (if s.mayServe n next then s.quantum next else 0))) next

/-- The class that goes next: 7, then 6, then by turns. -/
def State.nextClass (s : State) (n : Nat) : Option (Nat × Tbl Nat × Nat) :=
  let p := s.port n
  if s.mayServe n 7 then some (7, p.deficits, p.turn)
  else if s.mayServe n 6 then some (6, p.deficits, p.turn)
  else if (List.range 6).any (s.mayServe n) then s.pickClass n 64 p.deficits p.turn
  else none

/-- Marking probability of a queue, in 2^-16 (R317). -/
def State.markChance (s : State) (depth : Nat) : Nat :=
  let lo := s.val 0x2300 0xC * 1024
  let hi := s.val 0x2300 0xD * 1024
  if depth ≤ lo then 0
  else if hi ≤ depth then 65536
  else s.val 0x2300 0xE * (depth - lo) * 65536 / (1000 * (hi - lo))

/-- The packet as it leaves: an ECT packet is marked CE when the draw falls below the queue's probability. -/
def State.marked (s : State) (n cls draw depth : Nat) (p : Packet) : State × Packet :=
  if bitOf (s.val 0x2300 8) cls && (p.ecn.toNat = 1 || p.ecn.toNat = 2) && draw < s.markChance depth then
    (s.bump (portIdx n) 0x16 1, { p with ecn := 3 })
  else (s, p)

/-- PACKET_EGRESS: `draw` is the random draw for the ECN mark. -/
def State.packetOut (s : State) (n draw : Nat) : State :=
  if !s.portWorks n then s
  else
    match s.nextClass n with
    | none => s
    | some (cls, d, turn) =>
      match (s.port n).queueOf cls with
      | [] => s
      | q :: rest =>
        let depth := queueBytes (q :: rest)
        let s := s.modPort n (fun p => { (p.setQueue cls rest) with deficits := d, turn := turn })
        let x := s.marked n cls draw depth q.pkt
        let s := ((x.1.emit (.frame n x.2)).bump (portIdx n) 0xF 1).bump (portIdx n) 0x11 q.pkt.bytes
        match q.from_ with
        | some f => s.releaseBytes f.1 f.2 q.pkt.bytes
        | none => s

def execPacketEgress (dt : Nat) (port : Fin 128) (draw : BitVec 16) (s : State) : Result :=
  .next ((s.elapse dt).packetOut port draw.toNat)

-- pauses (R316)

/-- PFC_PAUSE_REFRESH: the pause is repeated while it stands. -/
def execPfcPauseRefresh (dt : Nat) (port : Fin 128) (cls : Fin 8) (s : State) : Result :=
  let s := s.elapse dt
  .next (if s.portWorks port && cls.val ∈ (s.port port).pausing then s.sendPause port cls 0xFFFF else s)

/-- Pause quanta as ps, each of 512 bit times at the port's speed. -/
def quantaPs (quanta speed : Nat) : Nat := quanta * (if speed = 2 then 1280 else 640)

/-- A received pause: the watchdog's classes ignore it; quanta 0 ends one. -/
def State.pauseIn (s : State) (n cls quanta : Nat) : State :=
  if !s.portWorks n then s
  else
    let s := s.bump (portIdx n) 0x15 1
    if !s.lossless cls then s
    else if (s.port n).storm.any (fun x => x.1 = cls) then
      s.modPort n (fun p => { p with storm := p.storm.map (fun x => if x.1 = cls then (cls, s.up) else x) })
    else
      let since := match (s.port n).paused.find? (fun x => x.1 = cls && s.up ≤ x.2.1) with
        | some x => x.2.2
        | none => s.up
      let rest := (s.port n).paused.filter (fun x => x.1 != cls)
      s.modPort n (fun p => { p with
        paused := if quanta = 0 then rest else rest ++ [(cls, s.up + quantaPs quanta p.speed, since)] })

def execPfcPauseReceived (dt : Nat) (port : Fin 128) (cls : Fin 8) (quanta : BitVec 16) (s : State) : Result :=
  .next ((s.elapse dt).pauseIn port cls quanta.toNat)

/-- PFC_PAUSE_EXPIRY: the quanta have run out. -/
def execPfcPauseExpiry (dt : Nat) (port : Fin 128) (cls : Fin 8) (s : State) : Result :=
  let s := s.elapse dt
  .next (s.modPort port (fun p => { p with paused := p.paused.filter (fun x => !(x.1 = cls.val && x.2.1 ≤ s.up)) }))

def State.watchdogPs (s : State) : Nat := s.val 0x2300 0xF * msPs

/-- Frames of a queue are dropped, and the space they hold comes free. -/
def State.dropQueue (s : State) (n cls : Nat) : State :=
  let q := (s.port n).queueOf cls
  let s := (s.modPort n (fun p => p.setQueue cls [])).bump (portIdx n) 0x12 q.length
  q.foldl (fun s x => match x.from_ with
    | some f => s.releaseBytes f.1 f.2 x.pkt.bytes
    | none => s) s

/-- PFC_STORM: a class paused without a break beyond the watchdog. -/
def State.pfcStorm (s : State) (n cls : Nat) : State :=
  match (s.port n).paused.find? (fun x => x.1 = cls) with
  | none => s
  | some x =>
    if s.up ≤ x.2.2 + s.watchdogPs || x.2.1 < s.up then s
    else
      let s := ((s.bump (portIdx n) 0x17 1).raise 0x0404 (portRef n) cls).dropQueue n cls
      s.modPort n (fun p => { p with paused := p.paused.filter (fun y => y.1 != cls), storm := p.storm ++ [(cls, s.up)] })

def execPfcStorm (dt : Nat) (port : Fin 128) (cls : Fin 8) (s : State) : Result := .next ((s.elapse dt).pfcStorm port cls)

/-- PFC_WATCHDOG_RECOVER: no pause for a further watchdog interval. -/
def execPfcWatchdogRecover (dt : Nat) (port : Fin 128) (cls : Fin 8) (s : State) : Result :=
  let s := s.elapse dt
  .next (s.modPort port (fun p => { p with storm := p.storm.filter (fun x => !(x.1 = cls.val && x.2 + s.watchdogPs ≤ s.up)) }))

-- tables (R311, R324)

/-- An entry of the route table: reserved fields 0, LENGTH in range, and the groups of a valid entry within the group table. -/
def routeOk (groups : Nat) (e : List Byte) : Bool :=
  let r := routeOf e
  field e 17 1 < 4 && r.len ≤ 128 && field e 20 12 = 0 && r.primary < 255 &&
  (!r.valid || r.local_ || (r.primary < groups && (r.backup = 0xFF || r.backup < groups)))

/-- ROUTE_TABLE_WRITE: the whole table at once. -/
def State.routeTableAct (data : List Byte) (s : State) : Nat × State :=
  if data.length % 32 != 0 || 131072 < data.length then refuse abLength s
  else if (List.range (data.length / 32)).all (fun i => routeOk s.fabric.groupCount ((data.drop (32 * i)).take 32)) then
    accept { s with fabric := { s.fabric with routes := data } }
  else refuse abRange s
def execRouteTableWrite (dt : Nat) (road : Road) (data : List Byte) (s : State) : Result :=
  .next ((s.elapse dt).writeRow road 0x2300 4 data (State.routeTableAct data))

/-- ECMP_GROUPS_WRITE: the whole table at once; every base fill is in ascending port order again. -/
def State.ecmpGroupsAct (data : List Byte) (s : State) : Nat × State :=
  if data.length % 16 != 0 || 4080 < data.length then refuse abLength s
  else accept { s with fabric := { s.fabric with groups := data, order := [] } }
def execEcmpGroupsWrite (dt : Nat) (road : Road) (data : List Byte) (s : State) : Result :=
  .next ((s.elapse dt).writeRow road 0x2300 5 data (State.ecmpGroupsAct data))

end Sys2Proof.Machine
end

