-- ==== Sys2Proof/Machine/Hosts.lean ====
section
/-! DEFINITION. The host ports: ring registers and doorbells, completions that wait, MSI-X, resets and readiness, and the HBM
aperture (R355 to R369). -/

namespace Sys2Proof.Machine

-- readiness (R368)

/-- Some ring of a port runs. -/
def HostPort.anyRing (h : HostPort) : Bool := h.rings.any (fun r => r.2.enabled)

/-- READY or SERVING, as Bus Master Enable and the rings say. -/
def State.hostServing (s : State) (p : Nat) : State :=
  let want : UnitSt := if (s.host p).busMaster && (s.host p).anyRing then .serving else .ready
  if (s.unit (hostRef p)).works && s.unit (hostRef p) != want then s.setUnit (hostRef p) want else s

-- shadows (R370)

/-- A BAR0 write other than the matching high half discards a held low half, which counts. -/
def State.dropLow (s : State) (p : Nat) : State :=
  if (s.host p).writeShadow.isNone then s
  else (s.modHost p (fun h => { h with writeShadow := none })).bump (0x2500 + p) 0xE 1

-- ring registers (R360, R362)

/-- Bytes that back a ring: none until it has a valid size. -/
def Ring.space (r : Ring) : Nat := if 4 ≤ r.sizeLog2 then 64 * r.size else 0

/-- The entries of a ring are cleared to 0. -/
def State.clearRing (s : State) (p r : Nat) : State :=
  { s with mem := s.mem.clear (ringAt p r 0) (s.ring p r).space }

/-- CONTROL: SIZE_LOG2. A value outside 4 to 12, or another value while the ring runs, is ignored and counted. -/
def State.putSize (s : State) (p r v : Nat) : State :=
  let g := s.ring p r
  if v < 4 || 12 < v || (g.enabled && v != g.sizeLog2) then s.bump (0x2500 + p) 0xB 1
  else if v = g.sizeLog2 then s
  else (s.clearRing p r).modRing p r (fun g => { g with sizeLog2 := v })

/-- CONTROL: VECTOR and IRQ_EN, of a completion ring. -/
def State.putIrq (s : State) (p r v : Nat) : State :=
  if r < 8 then s else s.modRing p r (fun g => { g with vector := bitsOf v 15 5, irq := bitOf v 16 })

/-- A ring starts: entries 0, HEAD and TAIL 0, PHASE 1 on the first pass. Without a valid size it does not. -/
def State.startRing (s : State) (p r : Nat) : State :=
  if (s.ring p r).sizeLog2 < 4 then s
  else
    ((s.clearRing p r).modRing p r (fun g => { g with enabled := true, head := 0, tail := 0, phase := Decidable.decide (8 ≤ r) })).hostServing p

/-- A ring stops: entries that were not consumed are discarded. -/
def State.stopRing (s : State) (p r : Nat) : State :=
  (s.modRing p r (fun g => { g with enabled := false, head := g.tail, phase := false })).hostServing p

/-- A write of CONTROL. ENABLE acts where it changes. -/
def State.ringControl (s : State) (p r v : Nat) : State :=
  let s := (s.putSize p r (v % 16)).putIrq p r v
  if bitOf v 4 && !(s.ring p r).enabled then s.startRing p r
  else if !bitOf v 4 && (s.ring p r).enabled then s.stopRing p r
  else s

/-- A ring-register write of a row: `on` says what ENABLE must do for the row to be the one that is meant. -/
def State.ringWrite (s : State) (p r v : Nat) (on : Bool → Bool → Bool) : State :=
  if s.busUp p && on (s.ring p r).enabled (bitOf v 4) then (s.dropLow p).ringControl p r v else s

def execRingEnable (dt : Nat) (port : Fin 2) (ring : Fin 16) (word : BitVec 32) (s : State) : Result :=
  .next ((s.elapse dt).ringWrite port ring word.toNat (fun was now => !was && now))
def execRingDisable (dt : Nat) (port : Fin 2) (ring : Fin 16) (word : BitVec 32) (s : State) : Result :=
  .next ((s.elapse dt).ringWrite port ring word.toNat (fun was now => was && !now))
def execRingConfigure (dt : Nat) (port : Fin 2) (ring : Fin 16) (word : BitVec 32) (s : State) : Result :=
  .next ((s.elapse dt).ringWrite port ring word.toNat (fun was now => was == now))

-- doorbells (R363)

/-- A doorbell that is not valid is ignored, counted and raised. -/
def State.badDoorbell (s : State) (p r v : Nat) : State :=
  (s.bump (0x2500 + p) 0xB 1).raise 0x0406 (hostRef p) (r + v % 4096 * 256)

/-- A doorbell of ring `r` takes a word. -/
def State.doorbell (s : State) (p r v : Nat) : State :=
  let g := s.ring p r
  if !g.enabled || 4096 ≤ v || g.size ≤ v then s.badDoorbell p r v
  else if r < 8 then s.modRing p r (fun g => { g with tail := v })
  else if (g.tail + g.size - g.head) % g.size < (v + g.size - g.head) % g.size then s.badDoorbell p r v
  else s.modRing p r (fun g => { g with head := v })

/-- Entries that a host writes into a request ring from TAIL on, before its doorbell. -/
def State.putEntries (s : State) (p r : Nat) (es : List (List Byte)) : State :=
  let g := s.ring p r
  if g.space = 0 then s
  else
    ((List.range es.length).zip es).foldl (fun s x =>
      s.storeBytes (ringAt p r ((g.tail + x.1) % g.size)) (padTo 64 0 x.2)) s

/-- REQUEST_DOORBELL: the entries the host has written through BAR2, then the doorbell. -/
def execRequestDoorbell (dt : Nat) (port : Fin 2) (ring : Fin 8) (entries : List (List Byte)) (word : BitVec 32) (s : State) :
    Result :=
  let s := s.elapse dt
  .next (if s.busUp port then ((s.putEntries port ring entries).dropLow port).doorbell port ring word.toNat else s)

def execCompletionDoorbell (dt : Nat) (port : Fin 2) (ring : Fin 8) (word : BitVec 32) (s : State) : Result :=
  let s := s.elapse dt
  .next (if s.busUp port then (s.dropLow port).doorbell port (ring + 8) word.toNat else s)

-- completions that wait (R366)

/-- COMPLETION_POST: the oldest waiting completion of a ring is written, where there is space. -/
def State.postWaiting (s : State) (p r : Nat) : State :=
  let g := s.ring p r
  match g.waiting with
  | [] => s
  | e :: es =>
    if g.room && s.busUp p then (s.modRing p r (fun g => { g with waiting := es })).writeCompletion p r e else s

def execCompletionPost (dt : Nat) (port : Fin 2) (ring : Fin 8) (s : State) : Result :=
  .next ((s.elapse dt).postWaiting port (ring + 8))

-- MSI-X (R365)

/-- A message goes out with the address and data of its table entry. -/
def State.sendMsix (s : State) (p v : Nat) : State :=
  let e := tget (s.host p).msixTable v
  (s.modHost p (fun h => { h with msixDue := h.msixDue.filter (fun d => d.1 != v), msixLast := tset h.msixLast v s.ns })).emit
    (.msix p v (e % 2 ^ 64) (e / 2 ^ 64))

/-- MSIX_MESSAGE: a message that is due and whose time has come; a vector masked meanwhile is pending instead. -/
def State.msixMessage (s : State) (p v : Nat) : State :=
  match tfind (s.host p).msixDue v with
  | none => s
  | some t =>
    if s.ns < t || !s.busUp p then s
    else if v ∈ (s.host p).unmasked then s.sendMsix p v
    else s.modHost p (fun h => { h with
      msixDue := h.msixDue.filter (fun d => d.1 != v)
      msixPending := if v ∈ h.msixPending then h.msixPending else h.msixPending ++ [v] })

def execMsixMessage (dt : Nat) (port : Fin 2) (vector : BitVec 11) (s : State) : Result :=
  .next ((s.elapse dt).msixMessage port vector.toNat)

/-- A vector's mask bit is written: an unmasked vector that is pending signals. -/
def State.maskVector (s : State) (p v : Nat) (masked : Bool) : State :=
  let h := s.host p
  if masked then s.modHost p (fun h => { h with unmasked := h.unmasked.filter (fun u => u != v) })
  else if v ∈ h.unmasked then s
  else
    let s := s.modHost p (fun h => { h with unmasked := h.unmasked ++ [v], msixPending := h.msixPending.filter (fun u => u != v) })
    if v ∈ h.msixPending then s.signalVector p v else s

/-- MSIX_UNMASK: a BAR0 write of the entry's mask bit. -/
def execMsixUnmask (dt : Nat) (port : Fin 2) (vector : BitVec 11) (s : State) : Result :=
  let s := s.elapse dt
  .next (if s.busUp port then (s.dropLow port).maskVector port vector.toNat false else s)

/-- A 32-bit write within an entry of the MSI-X table: address, data or vector control. -/
def State.msixWrite (s : State) (p off v : Nat) : State :=
  let n := off / 16
  if off % 16 = 12 then s.maskVector p n (v % 2 = 1)
  else s.modHost p (fun h => { h with msixTable := tmod h.msixTable n (fun e => setWord32 e (off % 16 / 4) v) })

/-- Words of the registers and tables of BAR0 outside the dictionary and stream windows (R357, R362, R365). A doorbell reads as
0. -/
def State.regRead (s : State) (p off : Nat) : Nat :=
  let h := s.host p
  if 0x1010000 ≤ off && off < 0x1010100 then
    let g := h.ring ((off - 0x1010000) / 16)
    let cmp := Decidable.decide (8 ≤ (off - 0x1010000) / 16)
    let n (b : Bool) : Nat := if b then 1 else 0
    let w := off % 16 / 4
    if w = 0 then g.head
    else if w = 1 then g.tail
    else if w = 2 then g.sizeLog2 + 16 * n g.enabled + (if cmp then 32 * g.vector + 0x10000 * n g.irq else 0)
    else n g.enabled + (if cmp then 2 * n (!g.waiting.isEmpty) + 4 * n g.phase else 0)
  else if 0x2000000 ≤ off && off < 0x2008000 then
    let v := (off - 0x2000000) / 16
    if off % 16 / 4 = 3 then (if v ∈ h.unmasked then 0 else 1) else word32 (tget h.msixTable v) (off % 16 / 4)
  else if 0x2008000 ≤ off && off < 0x2008100 then
    ((List.range 32).map (fun i => if 8 * (off - 0x2008000) / 32 * 32 + i ∈ h.msixPending then 2 ^ i else 0)).sum
  else 0

/-- A 32-bit write there. -/
def State.regWrite (s : State) (p off v : Nat) : State :=
  if 0x1000000 ≤ off && off < 0x1000040 then s.doorbell p ((off - 0x1000000) / 4) v
  else if 0x1010000 ≤ off && off < 0x1010100 then
    (if off % 16 = 8 then s.ringControl p ((off - 0x1010000) / 16) v else s)
  else if 0x2000000 ≤ off && off < 0x2008000 then s.msixWrite p (off - 0x2000000) v
  else s

-- resets of a port (R367, R368)

/-- Registers, tables and shadows of a port return to their reset values; its rings stop, and what waits for them stays. -/
def HostPort.afterReset (h : HostPort) : HostPort :=
  { h with
    rings := (h.rings.map (fun r => (r.1, ({ waiting := r.2.waiting } : Ring)))).filter (fun r => r.2 != {})
    configured := false, busMaster := false, bar4Log2 := 9, msixTable := [], unmasked := [], msixPending := [], msixDue := []
    msixLast := [], readShadow := none, writeShadow := none }

/-- What every cause of R367 does. -/
def State.hostClear (s : State) (p : Nat) : State :=
  let s := (s.dropLow p).modHost p HostPort.afterReset
  s.failMoves stHost (fun w => 3 ≤ mKind w && hostOfKind (mKind w) = p)

/-- A reset of the function. -/
def State.hostReset (s : State) (p : Nat) : State :=
  ((s.hostClear p).bump (0x2500 + p) 0xC 1).setUnit (hostRef p) .starting

/-- PERST: the link goes with it. -/
def execPerst (dt : Nat) (port : Fin 2) (s : State) : Result :=
  let s := s.elapse dt
  let p := port.val
  .next (if (s.host p).perst then s
    else
      let s := s.modHost p (fun h => { h with perst := true, linkUp := false, speed := 0, width := 0 })
      if s.run.st = .off then s else s.hostReset p)

/-- PERST_DEASSERTION: the port starts. -/
def execPerstDeassertion (dt : Nat) (port : Fin 2) (s : State) : Result :=
  let s := s.elapse dt
  let p := port.val
  .next (if !(s.host p).perst then s
    else
      let s := s.modHost p (fun h => { h with perst := false })
      if s.run.st = .off then s else s.setUnit (hostRef p) .starting)

def execFlr (dt : Nat) (port : Fin 2) (s : State) : Result :=
  let s := s.elapse dt
  .next (if s.busUp port then s.hostReset port else s)
def execD3hotToD0 (dt : Nat) (port : Fin 2) (s : State) : Result :=
  let s := s.elapse dt
  .next (if s.busUp port then s.hostReset port else s)

/-- HOST_LINK_DOWN: the port is FENCED, with a warning. -/
def execHostLinkDown (dt : Nat) (port : Fin 2) (s : State) : Result :=
  let s := s.elapse dt
  let p := port.val
  .next (if !(s.host p).linkUp || s.run.st = .off then s
    else
      let s := (s.hostClear p).modHost p (fun h => { h with linkUp := false, speed := 0, width := 0 })
      ((s.setUnit (hostRef p) .fenced).bump (0x2500 + p) 0xD 1).raise 0x0407 (hostRef p) 0)

/-- HOST_LINK_UP: link and configuration space are there, from the start of the firmware on (R507); the port is READY. -/
def execHostLinkUp (dt : Nat) (port : Fin 2) (speed : Fin 5) (width : Fin 5) (s : State) : Result :=
  let s := s.elapse dt
  let p := port.val
  .next (if (s.host p).perst || s.run.st = .off || !s.security.running then s
    else
      let s := s.modHost p (fun h => { h with
        linkUp := true, configured := true, speed := speed.val + 1, width := 2 ^ width.val })
      if (s.unit (hostRef p)).works then s else s.setUnit (hostRef p) .ready)

/-- BUS_MASTER_ENABLE: a configuration write. -/
def execBusMasterEnable (dt : Nat) (port : Fin 2) (s : State) : Result :=
  let s := s.elapse dt
  .next (if s.busUp port then (s.modHost port (fun h => { h with busMaster := true })).hostServing port else s)

-- the HBM aperture (R369)

/-- Bytes of the aperture. -/
def HostPort.aperture (h : HostPort) : Nat := 2 ^ (30 + h.bar4Log2)

/-- A base and a size go together. -/
def apertureOk (base log2 : Nat) : Bool := base % 2 ^ (30 + log2) = 0 && base + 2 ^ (30 + log2) ≤ 2 ^ 39

/-- An access through the aperture: none where it is allowed, else the state after its refusal. What lies beyond HBM or in a
RETIRED stack lacks the right asked for. -/
def State.apertureRefused (s : State) (p a n bit : Nat) : Option State :=
  let no (addr lacking : Nat) : Option State := some (s.deny (some (2 + p)) addr lacking)
  if rangeSpan a n != .hbm then no a (2 ^ bit)
  else
    match s.checkMem (2 + p) a n bit with
    | .ok => none
    | .denied addr lacking => no addr lacking
    | _ => no a (2 ^ bit)

def execBar4Read (dt : Nat) (port : Fin 2) (offset len : Nat) (s : State) : Result :=
  let s := s.elapse dt
  let p := port.val
  let a := s.val (0x2500 + p) 6 + offset
  .next (if !s.busUp p || (s.host p).aperture < offset + len then s
    else
      match s.apertureRefused p a len rightR with
      | some s => s.emit (.busRead p (List.replicate len 0xFF))
      | none => s.emit (.busRead p (s.mem.read a len)))

def execBar4Write (dt : Nat) (port : Fin 2) (offset : Nat) (data : List Byte) (s : State) : Result :=
  let s := s.elapse dt
  let p := port.val
  let a := s.val (0x2500 + p) 6 + offset
  .next (if !s.busUp p || (s.host p).aperture < offset + data.length then s
    else
      match s.apertureRefused p a data.length rightW with
      | some s => s
      | none => s.storeBytes a data)

/-- BAR4_RESIZE: a size that breaks the rule of the base keeps the previous one. -/
def execBar4Resize (dt : Nat) (port : Fin 2) (log2GiB : Fin 10) (s : State) : Result :=
  let s := s.elapse dt
  let p := port.val
  .next (if s.busUp p && apertureOk (s.val (0x2500 + p) 6) log2GiB then s.modHost p (fun h => { h with bar4Log2 := log2GiB })
    else s)

/-- HBM Aperture Base (R369, R372). -/
def State.apertureAct (p base : Nat) (s : State) : Nat × State :=
  if apertureOk base (s.host p).bar4Log2 then store (0x2500 + p) 6 base s else refuse abRange s

def execHbmApertureBaseWrite (dt : Nat) (road : Road) (port : Fin 2) (base : BitVec 64) (s : State) : Result :=
  .next ((s.elapse dt).writeRow road (0x2500 + port) 6 (leBytes 8 base.toNat) (State.apertureAct port base.toNat))

end Sys2Proof.Machine
end

