-- ==== Sys2Proof/Machine/Repair.lean ====
section
/-! DEFINITION. Background work, the statistics snapshot and repair commands (R468 to R476, R494). -/

namespace Sys2Proof.Machine

-- background work (R468, R470)

/-- RECALIBRATION_DUE: a LIVE bank's period has passed: every b calibrated falls due as patrol work (R72). -/
def State.recalibrate (s : State) (c e plane : Nat) : State :=
  let p := (s.eng c e).plane plane
  if p.st != .live || p.calibrated.isEmpty || s.up < p.calAt + s.val 0x4003 1 * sPs then s
  else s.modEng c e (fun g => g.modPlane plane (fun p => p.calibrated.foldl (fun p b => p.due b 3 s.up) p))

def execRecalibrationDue (dt : Nat) (core : Fin 16) (eng : Fin 34) (plane : Fin 2) (s : State) : Result :=
  .next ((s.elapse dt).recalibrate core eng plane)

/-- The 8-byte words of a line among those named. -/
def lineWords (l : List Nat) : List Nat := l.eraseDups.filter (fun w => w < 8)

/-- STORE_SCRUB: the next 64-byte line of a core store; `singles` and `doubles` are its words with one and with two bits wrong. -/
def State.scrubStore (s : State) (c : Nat) (singles doubles : List Nat) : State :=
  if (s.core c).supply = 0 then s
  else
    let a := (s.core c).scrub
    let s := s.modCore c (fun k => { k with scrub := (a + 64) % storeSize })
    let s := s.bump (coreIdx c) 0x0A (lineWords singles).length
    (lineWords doubles).foldl (fun s w => s.uncorrectable (storeBase c + a + 8 * w) true) s

def execStoreScrub (dt : Nat) (core : Fin 16) (singles doubles : List Nat) (s : State) : Result :=
  .next ((s.elapse dt).scrubStore core singles doubles)

/-- HBM_SCRUB: the next line of a stack that works. -/
def State.scrubStack (s : State) (m : Nat) (singles doubles : List Nat) : State :=
  if !(s.unit (stackRef m)).works then s
  else
    let a := tget s.stackScrub m
    let next := (a + 64) % stackSize
    let s := { s with stackScrub := tset s.stackScrub m next }
    let s := s.bump (0x5900 + m) 4 (if next = 0 then 1 else 0)
    let s := s.bump (0x5900 + m) 2 (lineWords singles).length
    (lineWords doubles).foldl (fun s w => s.uncorrectable (m * stackSize + a + 8 * w) true) s

def execHbmScrub (dt : Nat) (stack : Fin 20) (singles doubles : List Nat) (s : State) : Result :=
  .next ((s.elapse dt).scrubStack stack singles doubles)

-- statistics (R494)

/-- The running counts of the snapshot: tokens, windows, HBM bytes, fabric bytes sent and received, steps. -/
def State.counts (s : State) : List Nat :=
  let windows := (List.range 544).map (fun i => s.val (engIdx (i / 34) (i % 34)) 2)
  let ports (sub : Nat) := ((List.range 128).map (fun n => s.val (0x2400 + n) sub)).sum
  [s.sched.tokens, windows.sum, s.sched.hbmBytes, ports 0x11, ports 0x10, s.sched.steps]

/-- TELEMETRY_SNAPSHOT: the interval since the last one has passed; `energy` is its input energy in mJ. -/
def State.snapshot (s : State) (energy : Nat) : State :=
  if s.run.st = .off || s.run.st = .boot || s.ns < field s.events.statistics 0 8 + 1000000 * s.val 0x4003 5 then s
  else
    let now := s.counts
    let d (i : Nat) : Nat := now.getD i 0 - s.events.statBase.getD i 0
    let bytes := table 8 [s.ns, d 0, d 1, energy, d 2, d 3, d 4, d 5]
    { s with events := { s.events with statistics := bytes, statBase := now } }

def execTelemetrySnapshot (dt : Nat) (energy : Nat) (s : State) : Result := .next ((s.elapse dt).snapshot energy)

-- repair commands (R471)

/-- Unit reference and CMD of a Repair Command, and whether its reserved bytes are 0. -/
def rcUnit (data : List Byte) : Nat := field data 0 4
def rcCmd (data : List Byte) : Nat := field data 4 1

/-- The kinds of unit that a command is for. -/
def rcKind (cmd kind : Nat) : Bool :=
  if cmd = 1 || cmd = 2 then (1 ≤ kind && kind ≤ 9) || kind = 0xB || kind = 0xC
  else (cmd = 3 || cmd = 4) && (kind = 1 || kind = 2 || kind = 0xB)

/-- The unit a core's microcode update holds has a command in progress too (R268). -/
def State.busyUnit (s : State) (r : Nat) : Bool :=
  (tget s.units r).command != 0 || s.security.updating.any (fun x => coreRef x.1 = r)

/-- What stands against a command: 0 nothing. `from_` tells the states it may start from. -/
def State.rcBarred (s : State) (data : List Byte) (from_ : UnitSt → Bool) : Nat :=
  let r := rcUnit data
  if field data 5 3 != 0 || !refExists r then abRange
  else if refKind r = 0xA then abState
  else if !rcKind (rcCmd data) (refKind r) then abRange
  else if s.busyUnit r || !from_ (s.unit r) then abState
  else 0

/-- FENCE: the unit's work leaves it and it is in REPAIR. -/
def State.repairFenceAct (data : List Byte) (s : State) : Nat × State :=
  let bar := s.rcBarred data UnitSt.works
  if bar != 0 then refuse bar s
  else
    let r := rcUnit data
    let s := if refKind r = 0xC then (s.abandonUsers (coreRef (2 * refB r))).abandonUsers (coreRef (2 * refB r + 1)) else s
    let s := s.leave r .repair
    let s := if refKind r = 0xC then s.lightLost (refB r) else s
    accept s.holdAllLoops

/-- TEST: the unit is under test until the test is done. -/
def State.repairTestAct (data : List Byte) (s : State) : Nat × State :=
  let bar := s.rcBarred data (fun u => u = .repair || u = .fenced)
  if bar != 0 then refuse bar s
  else
    let r := rcUnit data
    accept ((s.modUnit r (fun u => { u with command := 2 })).setVal 0x4004 2 r)

/-- RETIRE: held in non-volatile memory. -/
def State.repairRetireAct (data : List Byte) (s : State) : Nat × State :=
  let bar := s.rcBarred data (fun u => u != .retired)
  if bar != 0 then refuse bar s
  else
    let r := rcUnit data
    let s := if refKind r = 0xB then s.retireStack (refB r)
      else (s.modUnit r (fun u => { u with retiredNv := true })).leave r .retired
    accept s.holdAllLoops.checkWarm

/-- UNRETIRE: a stack in STANDBY only. -/
def State.repairUnretireAct (data : List Byte) (s : State) : Nat × State :=
  let bar := s.rcBarred data (fun u => u = .retired)
  if bar != 0 then refuse bar s
  else
    let r := rcUnit data
    if refKind r = 0xB && s.run.st != .standby then refuse abState s
    else accept ((s.modUnit r (fun u => { u with retiredNv := false })).putUnit r .repair)

/-- Any Repair Command. -/
def State.repairCommandAct (data : List Byte) (s : State) : Nat × State :=
  match rcCmd data with
  | 1 => s.repairFenceAct data
  | 2 => s.repairTestAct data
  | 3 => s.repairRetireAct data
  | 4 => s.repairUnretireAct data
  | _ => refuse abRange s

/-- The row of one command; bytes with another command are another row's. -/
def State.repairRow (s : State) (road : Road) (data : List Byte) (cmd : Nat) (act : List Byte → State → Nat × State) : State :=
  if rcCmd data = cmd then s.writeRow road 0x4004 1 data (act data) else s

def execRepairFence (dt : Nat) (road : Road) (data : List Byte) (s : State) : Result :=
  .next ((s.elapse dt).repairRow road data 1 State.repairFenceAct)
def execRepairTest (dt : Nat) (road : Road) (data : List Byte) (s : State) : Result :=
  .next ((s.elapse dt).repairRow road data 2 State.repairTestAct)
def execRepairRetire (dt : Nat) (road : Road) (data : List Byte) (s : State) : Result :=
  .next ((s.elapse dt).repairRow road data 3 State.repairRetireAct)
def execRepairUnretire (dt : Nat) (road : Road) (data : List Byte) (s : State) : Result :=
  .next ((s.elapse dt).repairRow road data 4 State.repairUnretireAct)

-- tests (R471, R472)

/-- A unit FENCED by a fault is tested once by itself, unless it has faulted too often in 24 h. -/
def State.autoTests (s : State) (r : Nat) : Bool :=
  let u := tget s.units r
  u.st = .fenced && !u.autoTested && refKind r != 0xA && u.command = 0 &&
  (u.faults.filter (fun t => s.up < t + dayPs)).length ≤ s.val 0x4003 6

/-- The zones of a unit that passed its test return to NORMAL, where they are cool and their sensors are back (R472). -/
def State.zonesBack (s : State) (r : Nat) : State :=
  forRange 62 s (fun s z =>
    let st := (s.zone z).st
    if zoneUnit z != r || r = 0 || !(st = .shutdown || st = .tripped || st = .outOfService) then s
    else if (s.zoneReading z).any (fun v => (limits z).warning ≤ v) then s
    else if st = .outOfService && (zoneSensors z).any (fun i => (s.sensor i).broken) then s
    else s.zoneTo z .normal)

/-- What a repair leaves to be done: a core has its supply and its pulse reference again, LIVE banks are recalibrated (R468). -/
def State.repaired (s : State) (r : Nat) : State :=
  let due (s : State) (c e : Nat) : State := s.modEng c e (fun g => [0, 1].foldl (fun g p => g.modPlane p (fun x =>
    if x.st = .live then x.calibrated.foldl (fun x b => x.due b 3 s.up) x else x)) g)
  if refKind r = 2 then due s (refA r) (refB r)
  else if refKind r = 1 then
    let c := refB r
    let s := s.modCore c (fun k => { k with
      supply := if k.supplyCut then 650 else k.supply, supplyCut := false, warmStep := 0
      pulse := if k.pulse = .unlocked then .acquiring else k.pulse })
    forRange 34 s (fun s e => due s c e)
  else s

/-- REPAIR_TEST_DONE: of a TEST, or of the automatic test. -/
def State.testDone (s : State) (r : Nat) (passed : Bool) : State :=
  let asked := (tget s.units r).command = 2 && (s.unit r = .repair || s.unit r = .fenced) && refKind r != 0xA
  if !refExists r || !(asked || s.autoTests r) then s
  else
    let s := s.modUnit r (fun u => { u with command := 0, autoTested := true })
    let left := s.units.filter (fun u => u.2.command = 2 && refKind u.1 != 0xA)
    let s := if s.val 0x4004 2 = r then s.setVal 0x4004 2 (match left.getLast? with
      | some u => u.1
      | none => 0) else s
    if passed then
      (((((s.setUnit r .ready).bump 0x4004 3 1).repaired r).zonesBack r).holdAllLoops).checkWarm
    else ((s.putUnit r .repair).bump 0x4004 4 1).raise 0x0303 r 0

def execRepairTestDone (dt : Nat) (unit : UnitRef) (passed : Bool) (s : State) : Result :=
  .next ((s.elapse dt).testDone (UnitRef.code unit) passed)

end Sys2Proof.Machine
end

