-- ==== Sys2Proof/Machine/Reports.lean ====
section
/-! DEFINITION. Delivery of events: export datagrams, storms, Event Fetch, cursors, the CoE mailbox and the acknowledgement of
alarms (R377, R489 to R491, R493). -/

namespace Sys2Proof.Machine

-- fabric export (R489)

/-- Export Address and Device address as addresses of packets: network order, IPv4 as IPv4-mapped (DEDUCED). -/
def State.exportAddress (s : State) : Nat := beNat (leBytes 16 (s.val 0x7000 4))

/-- A datagram may go: an address is set, 32 records wait or the oldest has waited 1 ms, and 100 us have passed since the last. -/
def State.datagramDue (s : State) : Bool :=
  let l := s.events.export_.records
  s.val 0x7000 4 != 0 && s.run.st != .off &&
  (match l with
   | [] => false
   | e :: _ => 32 ≤ l.length || e.time + 1000000 ≤ s.ns) &&
  (match s.events.datagramAt with
   | some t => t + 100 * usPs ≤ s.up
   | none => true)

/-- A datagram: MAGIC, VERSION, COUNT and number, then up to 32 records. -/
def datagramBytes (n : Nat) (l : List Event) : List Byte :=
  leBytes 2 0x4556 ++ [1] ++ leBytes 1 l.length ++ leBytes 4 n ++ l.flatMap (fun e => e.bytes false)

/-- EXPORT_DATAGRAM: the oldest records leave in a UDP packet of the device's own. Its source port is that of Export UDP Port
(DESIGN CHOICE: the spec names none). -/
def State.sendDatagram (s : State) : State :=
  if !s.datagramDue then s
  else
    let l := s.events.export_.records.take 32
    let data := datagramBytes s.events.datagrams l
    let dst := s.exportAddress
    let v4 := dst / 2 ^ 32 == 0xFFFF
    let p : Packet := {
      kind := if v4 then .ipv4 else .ipv6, src := BitVec.ofNat 128 (if v4 then mapped (s.val 0x2300 3) else s.ownV6)
      dst := BitVec.ofNat 128 dst, proto := 17, sport := BitVec.ofNat 16 (s.val 0x7000 5)
      dport := BitVec.ofNat 16 (s.val 0x7000 5), dscp := BitVec.ofNat 6 (s.val 0x7000 6)
      bytes := data.length + (if v4 then 46 else 66), body := data }
    let s := { s with events := { s.events with
      export_ := { s.events.export_ with records := s.events.export_.records.drop 32 }
      datagrams := (s.events.datagrams + 1) % 2 ^ 32, datagramAt := some s.up } }
    (s.emit (.datagram data)).sendOwn p

def execExportDatagram (dt : Nat) (s : State) : Result := .next (s.elapse dt).sendDatagram

-- storms (R490)

/-- DETAIL of a STORM_SUMMARY: the drops of a period by severity, each saturating, and the sink. -/
def stormDetail (k : Nat) (period : Tbl Nat) : Nat :=
  min (tget period 4) 0xFFFF + min (tget period 3) 0xFFFF * 2 ^ 16 + min (tget period 2) 0xFFFF * 2 ^ 32 +
  min (tget period 1) 0xFFF * 2 ^ 48 + k * 2 ^ 60

/-- STORM_PERIOD_END: a period with drops leaves a summary in its sink; a whole period without ends the storm. -/
def State.stormPeriod (s : State) (k : Nat) : State :=
  let sk := s.events.sink k
  if !sk.storm then s
  else if sk.period.isEmpty then
    { s with events := s.events.modSink k (fun sk => { sk with storm := false }) }
  else
    let s := { s with events := s.events.modSink k (fun sk => { sk with period := [] }) }
    s.emitRecord 0x0803 2 0 (stormDetail k sk.period) false [k]

def execStormPeriodEnd (dt : Nat) (sink : Fin 3) (s : State) : Result := .next ((s.elapse dt).stormPeriod sink)

-- the event wheel (R489, R493)

/-- The cursor of a master, 1 to 3. -/
def State.cursor (s : State) (m : Nat) : Nat := s.val 0x7003 (m + 3)

/-- The records that a fetch of a master returns. -/
def State.fetched (s : State) (m : Nat) : List Event :=
  (s.events.wheel.records.filter (fun e => s.cursor m < e.seq)).take 32

/-- What a fetch returns: GAP on the first record if one after the cursor has been evicted. -/
def State.fetchBytes (s : State) (m : Nat) : List Byte :=
  match s.fetched m with
  | [] => []
  | e :: t => e.bytes (s.cursor m < s.events.evicted) ++ t.flatMap (fun e => e.bytes false)

/-- The cursor after it: the last SEQUENCE returned. -/
def State.advanceCursor (s : State) (m : Nat) : State :=
  match (s.fetched m).getLast? with
  | none => s
  | some e => s.setVal 0x7003 (m + 3) e.seq

def execCursorWrite (dt : Nat) (road : Road) (sub : BitVec 8) (value : BitVec 64) (s : State) : Result :=
  let s := s.elapse dt
  .next (if 4 ≤ sub.toNat && sub.toNat ≤ 6 then
    s.writeRow road 0x7003 sub.toNat (leBytes 8 value.toNat) (store 0x7003 sub.toNat value.toNat) else s)

-- the CoE mailbox (R377, R489)

/-- EMERGENCY_MAILBOX_READ: the oldest Emergency is sent. -/
def State.mailboxRead (s : State) : State :=
  if s.al = 0 || s.run.st = .off || s.run.st = .boot then s
  else
    match s.events.emergency.records with
    | [] => s
    | e :: t =>
      ({ s with events := s.events.modSink 1 (fun sk => { sk with records := t }) } : State).emit
        (.emergency (e.emergency s.errorRegister))

def execEmergencyMailboxRead (dt : Nat) (s : State) : Result := .next (s.elapse dt).mailboxRead

-- the alarm table (R491)

/-- Alarm Acknowledge: a CLEARED entry, or every one, is freed. -/
def State.acknowledgeAct (v : Nat) (s : State) : Nat × State :=
  let alarms := s.events.alarms
  if v = 0xFFFFFFFF then
    accept { s with events := { s.events with alarms := alarms.filter (fun a => a.2.st != 2) } }
  else if 1023 < v then refuse abRange s
  else if (tget alarms v).st = 2 then accept { s with events := { s.events with alarms := tdel alarms v } }
  else refuse abState s

def execAlarmAcknowledge (dt : Nat) (road : Road) (entry : BitVec 32) (s : State) : Result :=
  .next ((s.elapse dt).writeRow road 0x7001 2 (leBytes 4 entry.toNat) (State.acknowledgeAct entry.toNat))

end Sys2Proof.Machine
end

