-- ==== Sys2Proof/Machine/Streams.lean ====
section
/-! DEFINITION. Stream requests, the freeing of streams, and writes of USER (R239 to R242, R259, R361, R536). -/

namespace Sys2Proof.Machine

/-- Stream statuses of R242. -/
def stNoContext : Nat := 0x48
def stQueueFull : Nat := 0x49

/-- The device address of a stream's context (R225). -/
def streamAt (n : Nat) : Nat := 0x300200000000 + 64 * n

/-- The next number in the order of arrival. -/
def State.arrive (s : State) : State := { s with sched := { s.sched with arrivals := s.sched.arrivals + 1 } }

/-- A stream joins the queue of its job (R241, R248). -/
def State.toQueue (s : State) (n : Nat) : State :=
  let s := s.arrive
  (s.modStream n (fun c => { c with arrival := s.sched.arrivals })).streamTo n .queued 0

/-- A request on a stream that the device has accepted completes, once the twin has it in its log (R339). -/
def State.acceptOn (s : State) (r : Rq) (n : Nat) (item : LogItem) (result : Nat) : State :=
  s.logged n item r.m (r.ring.map (fun x => (x.1, x.2 + 8))) (requestDone (rqType r.entry) stOk result (rqTag r.entry))

/-- A job slot that streams may be opened on (DEDUCED: a resident job that has not faulted). -/
def State.opensOn (s : State) (j : Nat) : Bool :=
  let st := (s.job j).st
  st = .ready || st = .running || st = .held

/-- OPEN: W on the stream table, a resident job, a FREE context, room in the job's queue (R242, R259). -/
def State.openRq (r : Rq) (s : State) : State :=
  let j := rqField r.entry 0 1 % 8
  if !has (s.streamRights r.m) rightW then s.answerDenied r (streamAt 0) (2 ^ rightW)
  else if !s.opensOn j then s.answer r stJobState 0
  else
    match s.freeContext with
    | none => s.answer r stNoContext 0
    | some n =>
      if s.val 0x4010 6 ≤ (s.queuedOf j).length then s.answer r stQueueFull 0
      else
        let s := s.modStream n (fun _ => {
          st := .queued, job := j, priority := rqField r.entry 1 1 % 8, owner := r.m, user := rqField r.entry 8 8
          ring := r.ring.map (fun x => (x.1, x.2 + 8)) })
        (s.acceptOn r n .opened n).toQueue n

def execOpenStream (dt : Nat) (s : State) : Result := .next ((s.elapse dt).serve rqOpen State.openRq)

/-- The right a request on a stream needs: W on one's own, ADMIN on another's (R242, R259). -/
def State.streamNeeds (s : State) (m n : Nat) : Nat :=
  let c := s.stream n
  if c.st = .free || c.owner = m then rightW else rightAdmin

/-- A request that names a stream: rights, then the states it is allowed in. -/
def State.streamRq (r : Rq) (ok : StreamSt → Bool) (f : Nat → State → State) (s : State) : State :=
  let n := rqField r.entry 0 4 % 65536
  let need := s.streamNeeds r.m n
  if !has (s.streamRights r.m) need then s.answerDenied r (streamAt n) (2 ^ need)
  else if ok (s.stream n).st then f n s
  else s.answer r stStreamState 0

/-- The tokens of a buffer of 4-byte values. -/
def tokensOf (count : Nat) (data : List Byte) : List (BitVec 32) :=
  (List.range count).map (fun i => BitVec.ofNat 32 (field data (4 * i) 4))

/-- BUDGET after an addition; what it holds past 32 bits the spec leaves open (log entry 4). -/
def budgetSum (free a b : Nat) : Nat := if a + b < 2 ^ 32 then a + b else Config.freeNat free % 2 ^ 32

/-- The token buffer of an EXTEND: a status, and its bytes. A ring request's buffer lies in the host, a SEND's in the device,
where its sender needs R (R361). -/
def State.tokenBuffer (s : State) (r : Rq) (hostData : List Byte) : Nat × State × List Byte :=
  let n := 4 * rqField r.entry 4 4
  let a := rqField r.entry 16 8
  if n = 0 then (stOk, s, [])
  else
    match r.ring with
    | some (p, _) => (if s.hostWorks p then stOk else stHost, s, hostData)
    | none =>
      match s.checkMem r.m a n rightR with
      | .ok => (stOk, s, s.readAt a n)
      | .retired => (stUnitFault, s, [])
      | .denied b lacking => (stAccess, s.deny (some r.m) b lacking, [])
      | .noTarget => (stAccess, s.deny (some r.m) a (2 ^ rightR), [])

/-- EXTEND of an IDLE stream: prompt tokens and budget are added and it queues again (R241, R242). -/
def State.extendRq (hostData : List Byte) (r : Rq) (s : State) : State :=
  s.streamRq r (fun st => st = .idle) (fun n s =>
    let b := s.tokenBuffer r hostData
    let s := b.2.1
    if b.1 != stOk then s.answer r b.1 0
    else
      let ts := tokensOf (rqField r.entry 4 4) b.2.2
      let more := rqField r.entry 8 4
      let s := s.modStream n (fun c => { c with prompt := c.prompt ++ ts, budget := budgetSum s.free c.budget more })
      (s.takeFree.acceptOn r n (.extended ts more) 0).toQueue n)

def execExtend (dt : Nat) (hostData : List Byte) (s : State) : Result :=
  .next ((s.elapse dt).serve rqExtend (State.extendRq hostData))

/-- RESUME of an IDLE stream. -/
def State.resumeRq (r : Rq) (s : State) : State :=
  s.streamRq r (fun st => st = .idle) (fun n s => (s.acceptOn r n .resumed 0).toQueue n)

def execResumeStream (dt : Nat) (s : State) : Result := .next ((s.elapse dt).serve rqResume State.resumeRq)

/-- PAUSE: an ACTIVE stream of the running step goes IDLE at its end, any other at once; an IDLE one stays as it is. -/
def State.pauseRq (r : Rq) (s : State) : State :=
  s.streamRq r (fun st => st = .active || st = .queued || st = .idle) (fun n s =>
    let s := s.acceptOn r n .paused 0
    if (s.stream n).st = .idle then s
    else if (s.stream n).st = .active && s.inStep n then
      s.modStream n (fun c => { c with after := if c.after = 2 then 2 else 1 })
    else s.streamTo n .idle 3)

def execPause (dt : Nat) (s : State) : Result := .next ((s.elapse dt).serve rqPause State.pauseRq)

/-- CLOSE: at the step's end for an ACTIVE or RESTORING stream of the running step, else at once. -/
def State.closeRq (r : Rq) (s : State) : State :=
  s.streamRq r (fun st => !(st = .free || st = .closing)) (fun n s =>
    let s := s.acceptOn r n .closed 0
    if ((s.stream n).st = .active || (s.stream n).st = .restoring) && s.inStep n then
      s.modStream n (fun c => { c with after := 2 })
    else s.closeNow n)

def execClose (dt : Nat) (s : State) : Result := .next ((s.elapse dt).serve rqClose State.closeRq)

/-- STREAM_FREED: the pages and nodes of a CLOSING stream return, and its context is FREE (R239, R245). -/
def State.streamFreed (s : State) (n : Nat) : State :=
  if (s.stream n).st != .closing || s.inStep n then s
  else ((s.freePages n).streamTo n .free (s.stream n).reason).freeStream n

def execStreamFreed (dt : Nat) (stream : BitVec 16) (s : State) : Result := .next ((s.elapse dt).streamFreed stream.toNat)

-- USER (R239, R536)

/-- USER of a context in use takes a value; a FREE context reads as zeros whatever is written. -/
def State.putUser (s : State) (n v : Nat) : State := s.modStream n (fun c => if c.st = .free then c else { c with user := v })

/-- The rights that a master lacks to write USER of a context. -/
def State.userLacks (s : State) (m n : Nat) : Nat :=
  let c := s.stream n
  let bit := if c.st ≠ .free ∧ c.owner = m then rightW else rightAdmin
  if has (s.streamRights m) bit then 0 else 2 ^ bit

/-- A write of bytes of a context by a master: true where it is made, false where it is refused. One that touches a byte other
than USER is refused as lacking W (R487 keeps 0 for two other refusals). -/
def State.writeUser (s : State) (m n offset : Nat) (data : List Byte) : State × Bool :=
  if offset != 56 || data.length != 8 then (s.deny (some m) (streamAt n + offset) (2 ^ rightW), false)
  else
    let lack := s.userLacks m n
    if lack != 0 then (s.deny (some m) (streamAt n + offset) lack, false) else (s.putUser n (leNat data), true)

/-- A write of Stream User: the context that the master has selected (R536). -/
def State.writeStreamUser (m v : Nat) (s : State) : Nat × State :=
  let n := tget s.selects m % 65536
  let lack := s.userLacks m n
  if lack != 0 then (abAccess, s.deny (some m) (odKey 0x2012 3) lack) else (0, s.putUser n v)

/-- STREAM_USER_WRITE by one of its paths. -/
def State.streamUserWrite (s : State) (path : StreamPath) (n offset : Nat) (data : List Byte) : State :=
  match path with
  | .window p => if s.hears (.direct p) then (s.writeUser (2 + p) n offset data).1 else s
  | .rdma m => (s.writeUser m n offset data).1
  | .entry road => s.writeRow road 0x2012 3 data (State.writeStreamUser (viaOf road 0x2012 3).master (leNat data))

def execStreamUserWrite (dt : Nat) (path : StreamPath) (stream : BitVec 16) (offset : Nat) (data : List Byte) (s : State) :
    Result :=
  .next ((s.elapse dt).streamUserWrite path stream.toNat offset data)

end Sys2Proof.Machine
end

