-- ==== Sys2Proof/Machine/Roce.lean ====
section
/-! DEFINITION. The RoCE endpoint: queue pairs, requests received, the device's own requests, retransmission and congestion
control (R318 to R322, R226, R259, R260, R361, R535, R536). -/

namespace Sys2Proof.Machine

-- sequence numbers

/-- Steps from one packet sequence number to another, modulo 2^24. -/
def psnGap (a b : Nat) : Nat := (b + 2 ^ 24 - a) % 2 ^ 24

-- contexts (R319)

/-- Bytes of a context that hold only named bits and values that exist. -/
def qpContextOk (b : List Byte) : Bool :=
  field b 0 1 ≤ 4 && field b 1 1 ≤ 2 && field b 2 1 < 8 && field b 3 1 / 8 ≤ 20 && field b 7 1 = 0 && field b 27 1 = 0 &&
  field b 31 1 = 0 && 1 ≤ field b 40 1 && field b 40 1 ≤ 16 && field b 41 1 < 16 && field b 44 20 = 0

/-- Reserved parts of a context alone: what a write of STATE RESET is held to. -/
def qpReservedOk (b : List Byte) : Bool :=
  field b 1 1 < 4 && field b 2 1 < 8 && field b 7 1 = 0 && field b 27 1 = 0 && field b 31 1 = 0 && field b 41 1 < 16 &&
  field b 44 20 = 0

/-- The UDP source port of a queue pair: its own, or the low 16 bits of the CRC-32 of its index in network order. -/
def Qp.sport (q : Qp) (n : Nat) : Nat := if q.byte 42 2 = 0 then crc32 (beBytes 2 n) % 65536 else q.byte 42 2

/-- Line rate of a queue pair, Mb/s: the speed of the port that its flow leaves by; 800 Gb/s where no port carries it. -/
def State.lineRate (s : State) (n : Nat) : Nat :=
  let q := s.qp n
  let dst := q.remote.toNat
  let src := if dst / 2 ^ 32 = 0xFFFF then mapped (s.val 0x2300 3) else s.ownV6
  match s.route dst with
  | none => 800000
  | some r =>
    match s.egressOf r (flowSlot src dst 17 (q.sport n) 4791) with
    | none => 800000
    | some p => if (s.port p).speed = 2 then 400000 else 800000

/-- A context as written; the sequence numbers, retries and rates start from it. -/
def State.putQp (s : State) (n : Nat) (b : List Byte) : State :=
  let st := field b 0 1
  let s := s.modQp n (fun _ => {
    context := leNat b, st := st, sendPsn := field b 24 3, oldest := field b 24 3, expect := field b 28 3, alpha := 65536 })
  let line := s.lineRate n
  s.modQp n (fun q => { q with current := line, target := line })

/-- A QP request: the context is read as the requester, checked and written whole. A queue pair that leaves RTS ends its
MOVEs with FABRIC_ERROR. -/
def State.qpRq (r : Rq) (s : State) : State :=
  let n := rqField r.entry 0 2
  let a := rqField r.entry 8 8
  if rangeSpan a 64 != .hbm then s.answerDenied r a (2 ^ rightR)
  else
    match s.checkMem r.m a 64 rightR with
    | .denied addr lacking => s.answerDenied r addr lacking
    | .noTarget => s.answerDenied r a (2 ^ rightR)
    | .retired => s.answer r stUnitFault 0
    | .ok =>
      let b := s.mem.read a 64
      let st := field b 0 1
      if !(if st = 0 then qpReservedOk b else qpContextOk b) then s.answer r stReserved 0
      else if (s.qp n).st = 4 && st != 0 then s.answer r stReserved 0
      else
        let s := if (s.qp n).st = 3 && st != 3 then
          s.failMoves stFabric (fun w => (mKind w = 1 || mKind w = 2) && mQp w = n) else s
        (s.putQp n b).answer r stOk 0

def execQp (dt : Nat) (s : State) : Result := .next ((s.elapse dt).serve rqQp State.qpRq)

-- errors of a queue pair (R321)

/-- A queue pair goes to ERROR: a fault and a count, and its transfers in flight end with FABRIC_ERROR. -/
def State.qpError (s : State) (n syndrome : Nat) : State :=
  let s := s.modQp n (fun q => { q with st := 4, context := q.context / 256 * 256 + 4 })
  let s := (s.bump 0x2300 0x1E 1).raise 0x0405 0 (n + syndrome * 2 ^ 16)
  s.failMoves stFabric (fun w => (mKind w = 1 || mKind w = 2) && mQp w = n)

-- requests received (R318, R320)

/-- What a request received meets before it is looked at: it is for this place in sequence. -/
inductive Arrival
  /-- Not received: the queue pair is not ready, or the device is off. -/
  | deaf
  /-- Ahead of the sequence. -/
  | early
  /-- Received before. -/
  | again
  | inOrder
  deriving DecidableEq, Repr

def State.arrival (s : State) (n psn : Nat) : Arrival :=
  let q := s.qp n
  if s.run.st = .off || !(q.st = 2 || q.st = 3) then .deaf
  else if psn = q.expect then .inOrder
  else if psnGap q.expect psn < 2 ^ 23 then .early
  else .again

def State.expectNext (s : State) (n packets : Nat) : State :=
  s.modQp n (fun q => { q with expect := (q.expect + packets) % 2 ^ 24 })

/-- The keys of a request: its RKEY is the context's, and the operation's ALLOW flag is set. -/
def Qp.admits (q : Qp) (rkey bit : Nat) : Bool := rkey = q.byte 32 4 && bitOf (q.byte 41 1) bit

/-- A request received, by sequence: `again` and `go` are what a repeated and a new one do. -/
def State.received (s : State) (n psn : Nat) (again go : State → State) : State :=
  match s.arrival n psn with
  | .deaf => s
  | .early => s.emit (.sequenceNak n (s.qp n).expect)
  | .again => again s
  | .inOrder => go s

/-- Bytes of a stack out of service, or of no range a write or read may reach, are refused as the right asked for. -/
def State.refusedAt (s : State) (m a lacking : Nat) : State := s.deny (some m) a lacking

/-- An RDMA WRITE of a master: true where it is made (R259, R535, R536). -/
def State.rdmaStore (s : State) (m a : Nat) (data : List Byte) : State × Bool :=
  match rangeSpan a data.length with
  | .streams =>
    let off := a - 0x300200000000
    s.writeUser m (off / 64) (off % 64) data
  | _ =>
    match s.checkMem m a data.length rightW with
    | .ok => (s.storeBytes a data, true)
    | .denied addr lacking => (s.refusedAt m addr lacking, false)
    | _ => (s.refusedAt m a (2 ^ rightW), false)

/-- The right that a master lacks to read a context (R536). -/
def State.readLacks (s : State) (m k : Nat) : Nat :=
  2 ^ (if (s.stream k).st ≠ .free ∧ (s.stream k).owner = m then rightR else rightAdmin)

/-- The sequence number before the one expected. -/
def Qp.lastSeen (q : Qp) : Nat := (q.expect + 2 ^ 24 - 1) % 2 ^ 24

/-- An RDMA READ of stream contexts, from an offset into the stream table (R536). -/
def State.rdmaStreams (s : State) (m a off len : Nat) : State × Option (List Byte) :=
  let last := if len = 0 then off / 64 else (off + len - 1) / 64
  match ((List.range (last - off / 64 + 1)).map (fun i => off / 64 + i)).find? (fun k => !s.mayReadStream m k) with
  | some k => (s.deny (some m) a (s.readLacks m k), none)
  | none => (s, some (s.streamBytes off len))

/-- An RDMA READ of a master: what it may read, or the state after the refusal. -/
def State.rdmaLoad (s : State) (m a len : Nat) : State × Option (List Byte) :=
  match rangeSpan a len with
  | .streams => s.rdmaStreams m a (a - 0x300200000000) len
  | .vat _ _ =>
    if has (s.classRights m 3) rightR then (s, some (s.readAt a len)) else (s.deny (some m) a (2 ^ rightR), none)
  | _ =>
    match s.checkMem m a len rightR with
    | .ok => (s, some (s.readAt a len))
    | .denied addr lacking => (s.refusedAt m addr lacking, none)
    | _ => (s.refusedAt m a (2 ^ rightR), none)

/-- RDMA_WRITE_RECEIVED: written at its device address and acknowledged, or NAKed. -/
def State.writeReceived (s : State) (n src psn rkey a : Nat) (data : List Byte) : State :=
  s.received n psn (fun s => s.emit (.ack n (s.qp n).lastSeen))
    (fun s =>
      let q := s.qp n
      if !q.admits rkey 2 then s.emit (.nak n psn true)
      else
        match s.peerMaster (BitVec.ofNat 128 src) with
        | none => (s.denyUnknown a rightW).emit (.nak n psn true)
        | some m =>
          let x := s.rdmaStore m a data
          if x.2 then
            let k := q.packets data.length
            (x.1.expectNext n k).emit (.ack n ((psn + k - 1) % 2 ^ 24))
          else x.1.emit (.nak n psn true))

def execRdmaWriteReceived (dt : Nat) (qp : BitVec 16) (src : BitVec 128) (psn : BitVec 24) (rkey : BitVec 32) (addr : BitVec 64)
    (data : List Byte) (s : State) : Result :=
  .next ((s.elapse dt).writeReceived qp.toNat src.toNat psn.toNat rkey.toNat addr.toNat data)

/-- RDMA_READ_RECEIVED: answered with data, or NAKed. One received again is answered again. -/
def State.readReceived (s : State) (n src psn rkey a len : Nat) : State :=
  let serve (fresh : Bool) (s : State) : State :=
    let q := s.qp n
    if !q.admits rkey 1 then s.emit (.nak n psn true)
    else
      match s.peerMaster (BitVec.ofNat 128 src) with
      | none => (s.denyUnknown a rightR).emit (.nak n psn true)
      | some m =>
        match s.rdmaLoad m a len with
        | (s, some b) => (if fresh then s.expectNext n (q.packets len) else s).emit (.readResponse n psn b)
        | (s, none) => s.emit (.nak n psn true)
  s.received n psn (serve false) (serve true)

def execRdmaReadReceived (dt : Nat) (qp : BitVec 16) (src : BitVec 128) (psn : BitVec 24) (rkey : BitVec 32) (addr : BitVec 64)
    (len : Nat) (s : State) : Result :=
  .next ((s.elapse dt).readReceived qp.toNat src.toNat psn.toNat rkey.toNat addr.toNat len)

/-- A request entry is acted on as its type says (R361). An EXTEND's tokens lie at a device address. -/
def State.actRequest (r : Rq) (s : State) : State :=
  let t := rqType r.entry
  if t = rqLoad then s.loadRq r
  else if t = rqUnload then s.unloadRq r
  else if t = rqHold then s.holdRq r
  else if t = rqRelease then s.releaseRq r
  else if t = rqLaunch then s.launchRq r
  else if t = rqFirmware then s.firmwareRq r
  else if t = rqAttest then s.attestRq r
  else if t = rqQp then s.qpRq r
  else if t = rqOpen then s.openRq r
  else if t = rqExtend then s.extendRq [] r
  else if t = rqResume then s.resumeRq r
  else if t = rqPause then s.pauseRq r
  else s.closeRq r

/-- SEND_RECEIVED: its request entry is acted on for the sender's master; without room for it the answer is an RNR NAK. -/
def State.sendRequest (s : State) (n src psn : Nat) (e : List Byte) : State :=
  s.received n psn (fun s => s.emit (.ack n (s.qp n).lastSeen)) (fun s =>
    if !bitOf ((s.qp n).byte 41 1) 3 then s.emit (.nak n psn true)
    else
      match s.peerMaster (BitVec.ofNat 128 src) with
      | none => (s.denyUnknown 0 rightW).emit (.nak n psn true)
      | some m =>
        if !s.servesRequests then s.emit (.rnrNak n psn)
        else
          let s := (s.expectNext n 1).emit (.ack n psn)
          let r : Rq := { m := m, ring := none, entry := padTo 64 0 e }
          if requestOk (if rqType r.entry < rqOpen then 0 else 1) r.entry then s.actRequest r
          else s.answer r stReserved 0)

def execSendReceived (dt : Nat) (qp : BitVec 16) (src : BitVec 128) (psn : BitVec 24) (entry : List Byte) (s : State) : Result :=
  .next ((s.elapse dt).sendRequest qp.toNat src.toNat psn.toNat entry)

/-- ATOMIC_RECEIVED: answered with NAK Invalid Request. -/
def execAtomicReceived (dt : Nat) (qp : BitVec 16) (psn : BitVec 24) (s : State) : Result :=
  let s := s.elapse dt
  .next (s.received qp.toNat psn.toNat (fun s => s.emit (.nak qp.toNat psn.toNat false))
    (fun s => s.emit (.nak qp.toNat psn.toNat false)))

-- the device's own requests (R209, R249, R321)

/-- A transaction of a MOVE over a queue pair: its core, operation and word. -/
structure Flight where
  core : Nat
  op : Nat
  word : TvWord
  txn : Txn

/-- What is in flight on a queue pair. -/
def State.flights (s : State) (n : Nat) : List Flight :=
  (List.range 16).flatMap (fun c => (s.core c).ops.flatMap (fun o =>
    if opcodeOf o.2.word = opMove && (mKind o.2.word = 1 || mKind o.2.word = 2) && mQp o.2.word = n then
      (o.2.txns.filter (fun t => t.issued)).map (fun t => { core := c, op := o.1, word := o.2.word, txn := t })
    else []))

/-- The first packet of a transaction: a WRITE keeps its last one, a READ its first. -/
def State.flightFirst (s : State) (n : Nat) (f : Flight) : Nat :=
  if mKind f.word = 1 then (f.txn.psn + 2 ^ 24 + 1 - (s.qp n).packets f.txn.len) % 2 ^ 24 else f.txn.psn

/-- The oldest unacknowledged packet: of what is in flight, else the next to send. -/
def State.newOldest (s : State) (n : Nat) : State :=
  let q := s.qp n
  let gap := (s.flights n).foldl (fun g f => min g (psnGap q.oldest (s.flightFirst n f))) (psnGap q.oldest q.sendPsn)
  s.modQp n (fun q => { q with oldest := (q.oldest + gap) % 2 ^ 24 })

/-- Every WRITE whose last packet lies at or before one is acknowledged: it ends, and the count of retries starts anew. -/
def State.acknowledge (s : State) (n psn : Nat) : State :=
  let q := s.qp n
  if psnGap q.oldest q.sendPsn ≤ psnGap q.oldest psn then s
  else
    let over_ := (s.flights n).filter (fun f => mKind f.word = 1 && psnGap q.oldest f.txn.psn ≤ psnGap q.oldest psn)
    let s := over_.foldl (fun s f => (s.dropTxn f.core f.op f.txn).moveEnds f.core f.op) s
    let s := s.newOldest n
    if over_.isEmpty then s else s.modQp n (fun q => { q with retries := 0 })

def execAckReceived (dt : Nat) (qp : BitVec 16) (psn : BitVec 24) (s : State) : Result :=
  let s := s.elapse dt
  .next (if (s.qp qp.toNat).st = 3 then s.acknowledge qp.toNat psn.toNat else s)

/-- RDMA_READ_RESPONSE: data for a READ in flight lands at its destination, as the job's owner. -/
def State.readResponse (s : State) (n psn : Nat) (data : List Byte) : State :=
  if (s.qp n).st != 3 then s
  else
    match (s.flights n).find? (fun f => mKind f.word = 2 && f.txn.psn = psn) with
    | none => s
    | some f =>
      let s := s.dropTxn f.core f.op f.txn
      let x := s.writeAll (s.coreJob f.core) [(f.txn.dst, padTo f.txn.len 0 data)]
      let s := if x.1 = stOk then x.2.moveEnds f.core f.op else x.2.moveFails f.core f.op x.1
      (s.newOldest n).modQp n (fun q => { q with retries := 0 })

def execRdmaReadResponse (dt : Nat) (qp : BitVec 16) (psn : BitVec 24) (data : List Byte) (s : State) : Result :=
  .next ((s.elapse dt).readResponse qp.toNat psn.toNat data)

/-- A resend from the oldest unacknowledged packet, or ERROR where the retries are used up. -/
def State.retry (s : State) (n : Nat) : State :=
  let q := s.qp n
  if q.st != 3 then s
  else if q.byte 3 1 % 8 ≤ q.retries then s.qpError n 0
  else (s.modQp n (fun q => { q with retries := q.retries + 1 })).emit (.resend n q.oldest)

/-- SEQUENCE_NAK: what lies before the packet that the peer expects has arrived; the rest goes again. -/
def execSequenceNak (dt : Nat) (qp : BitVec 16) (psn : BitVec 24) (s : State) : Result :=
  let s := s.elapse dt
  let n := qp.toNat
  let before := (psn.toNat + 2 ^ 24 - 1) % 2 ^ 24
  .next (if (s.qp n).st = 3 then
    (if psn.toNat = (s.qp n).oldest then s else s.acknowledge n before).retry n else s)

/-- RETRANSMIT_TIMEOUT: nothing of what is unacknowledged was acknowledged within TIMEOUT. -/
def execRetransmitTimeout (dt : Nat) (qp : BitVec 16) (s : State) : Result :=
  let s := s.elapse dt
  .next (if (s.qp qp.toNat).oldest = (s.qp qp.toNat).sendPsn then s else s.retry qp.toNat)

/-- FATAL_NAK: the queue pair goes to ERROR. -/
def execFatalNak (dt : Nat) (qp : BitVec 16) (syndrome : BitVec 8) (s : State) : Result :=
  let s := s.elapse dt
  .next (if (s.qp qp.toNat).st = 3 then s.qpError qp.toNat syndrome.toNat else s)

-- congestion control (R322)

/-- CNP_RECEIVED: the current rate is cut by half of alpha, alpha grows, and the rounds start anew. -/
def Qp.onCnp (q : Qp) (least : Nat) : Qp :=
  { q with
    target := q.current
    current := max (q.current * (2 ^ 17 - q.alpha) / 2 ^ 17) least
    alpha := (q.alpha * 255 + 65536) / 256
    rounds := 0
    cnpSeen := true }

def execCnpReceived (dt : Nat) (qp : BitVec 16) (s : State) : Result :=
  let s := s.elapse dt
  let n := qp.toNat
  let s := if s.run.st = .off then s else s.bump 0x2300 0x20 1
  .next (if (s.qp n).st = 3 then s.modQp n (fun q => q.onCnp (s.val 0x2300 0x13)) else s)

/-- RATE_RECOVERY_TIMER: alpha falls and the rate moves to the target, which itself grows after five rounds. -/
def Qp.onTimer (q : Qp) (increase line : Nat) : Qp :=
  let target := if 5 ≤ q.rounds then min (q.target + increase) line else q.target
  { q with alpha := q.alpha * 255 / 256, target := target, current := (q.current + target) / 2, rounds := q.rounds + 1 }

def execRateRecoveryTimer (dt : Nat) (qp : BitVec 16) (s : State) : Result :=
  let s := s.elapse dt
  let n := qp.toNat
  .next (if (s.qp n).st != 3 then s
    else if (s.qp n).cnpSeen then s.modQp n (fun q => { q with cnpSeen := false })
    else s.modQp n (fun q => q.onTimer (s.val 0x2300 0x12) (s.lineRate n)))

end Sys2Proof.Machine
end

