-- ==== Sys2Proof/Machine/Tables.lean ====
section
/-! DEFINITION. The access tables: grants, regions, peer entries and the commissioning lock (R254 to R257, R261, R262). -/

namespace Sys2Proof.Machine

-- which entries they are (R254, R256)

def isPeer (index sub : Nat) : Bool := 0x3010 ≤ index && index < 0x3020 && 1 ≤ sub && sub ≤ 255
def isHbmRegion (index sub : Nat) : Bool := 0x3020 ≤ index && index < 0x3060 && (sub = 1 || sub = 2)
def isStoreRegion (index sub : Nat) : Bool :=
  0x3060 ≤ index && index < 0x3070 && 1 ≤ sub && sub ≤ 96 && (sub - 1) % 6 < 2
def isRegion (index sub : Nat) : Bool := isHbmRegion index sub || isStoreRegion index sub

/-- The sub-indices that hold grants in an object. -/
def grantSubs (index : Nat) : List Nat :=
  if 0x3020 ≤ index ∧ index < 0x3060 then (List.range 8).map (· + 3)
  else if 0x3060 ≤ index ∧ index < 0x3070 then
    (List.range 16).flatMap (fun n => (List.range 4).map (fun i => 3 + 6 * n + i))
  else if index = 0x3070 ∨ index = 0x3071 then (List.range 64).map (· + 1)
  else if index = 0x3072 then (List.range 8).map (· + 1)
  else if index = 0x3073 then (List.range 28).map (· + 1)
  else []
def isGrant (index sub : Nat) : Bool := sub ∈ grantSubs index

-- ADMIN (R262)

/-- The masters that each grant with ADMIN covers, lowest and highest. -/
def State.adminSpans (s : State) : List (Nat × Nat) :=
  (List.range 0x54).flatMap (fun i => (grantSubs (0x3020 + i)).filterMap (fun sub =>
    let v := s.val (0x3020 + i) sub
    if has (v / 0x1000000 % 32) rightAdmin then some (v % 4096, v / 4096 % 4096) else none))

/-- A master holds ADMIN anywhere, by the spans of all grants. -/
def holdsAdmin (spans : List (Nat × Nat)) (m : Nat) : Bool := spans.any (fun r => r.1 ≤ m && m ≤ r.2)

/-- The commissioning lock is set (R262). -/
def State.commissioned (s : State) : Bool := s.flag 0x3120 1

/-- Between two states some master has come to hold ADMIN somewhere, or to hold it nowhere. -/
def State.adminMoves (s t : State) : Bool :=
  let a := s.adminSpans
  let b := t.adminSpans
  (List.range 4095).any (fun m => holdsAdmin a (m + 1) != holdsAdmin b (m + 1))

-- regions (R228, R256)

/-- Regions of one target: on their granule, within the target, none over another. -/
def regionsOk (granule size : Nat) (l : List (Nat × Nat)) : Bool :=
  l.all (fun r => r.1 % granule = 0 && r.2 % granule = 0 && (r.2 = 0 || r.1 + r.2 ≤ size)) &&
  ((List.range l.length).all (fun i => (List.range i).all (fun j =>
    let a := l.getD i (0, 0)
    let b := l.getD j (0, 0)
    overlap a.1 a.2 b.1 b.2 = 0)))

/-- The regions of the target to which an entry belongs obey the rules. -/
def State.regionRule (s : State) (index : Nat) : Bool :=
  if index < 0x3060 then
    regionsOk 0x4000000 hbmSize ((List.range 64).map (fun r => (s.val (0x3020 + r) 1, s.val (0x3020 + r) 2)))
  else
    regionsOk 0x100000 storeSize ((List.range 16).map (fun n => (s.val index (1 + 6 * n), s.val index (2 + 6 * n))))

-- acts, before the rules that look at the tables as a whole

/-- A grant: its reserved bits are ignored (R11, R255). -/
def State.grantPut (index sub v : Nat) (s : State) : Nat × State := store index sub (v % 2 ^ 29) s

/-- A peer entry of 20 bytes: PREFIX is at most 128; reserved bits and bytes are ignored. -/
def State.peerPut (index sub v : Nat) (s : State) : Nat × State :=
  if 128 < v / 2 ^ 128 % 256 then refuse abRange s
  else store index sub (v % 2 ^ 136 + v / 2 ^ 136 % 2 * 2 ^ 136) s

/-- The commissioning lock: TRUE alone may be written; the first time of locking stays. -/
def State.lockAct (v : Nat) (s : State) : Nat × State :=
  if v != 1 then refuse abRange s
  else if s.commissioned then accept s
  else accept ((s.setVal 0x3120 1 1).setVal 0x3120 2 (s.clock.now / sPs))

-- the rules

/-- The master ID of a peer entry (R254). -/
def peerId (index sub : Nat) : Nat := 16 + 255 * (index - 0x3010) + (sub - 1)

/-- The lock forbids what a write has made of a peer entry: its master is added, removed or addressed anew and holds ADMIN. -/
def State.peerLocked (s t : State) (index sub : Nat) : Bool :=
  s.commissioned && peerOf (s.val index sub) != peerOf (t.val index sub) && holdsAdmin s.adminSpans (peerId index sub)

/-- What stands against a write of the access tables that has made `t` of `s`: 0 for nothing; true for a refusal by the lock. -/
def State.tableRule (s t : State) (index sub : Nat) : Nat × Bool :=
  if isPeer index sub then (if s.peerLocked t index sub then (abAccess, true) else (0, false))
  else if isRegion index sub then (if t.regionRule index then (0, false) else (abRange, false))
  else if isGrant index sub then (if s.commissioned && s.adminMoves t then (abAccess, true) else (0, false))
  else (0, false)

/-- A write of the tables: made, or refused with the state as it was; a refusal by the lock is raised with no right lacking. -/
def State.tableWrite (m index sub : Nat) (act : State → Nat × State) (s : State) : Nat × State :=
  let x := act s
  if x.1 != 0 then x
  else
    let f := s.tableRule x.2 index sub
    if f.1 = 0 then x else (f.1, if f.2 then s.deny (some m) (odKey index sub) 0 else s)

/-- GRANT_WRITE: at every target at once (R261). -/
def execGrantWrite (dt : Nat) (road : Road) (index : BitVec 16) (sub : BitVec 8) (value : BitVec 32) (s : State) : Result :=
  let s := s.elapse dt
  let i := index.toNat
  let k := sub.toNat
  .next (if isGrant i k then
    s.writeRow road i k (leBytes 4 value.toNat) (State.tableWrite (viaOf road i k).master i k (State.grantPut i k value.toNat))
    else s)

/-- REGION_WRITE: a Base or Size. -/
def execRegionWrite (dt : Nat) (road : Road) (index : BitVec 16) (sub : BitVec 8) (value : BitVec 64) (s : State) : Result :=
  let s := s.elapse dt
  let i := index.toNat
  let k := sub.toNat
  .next (if isRegion i k then
    s.writeRow road i k (leBytes (if isHbmRegion i k then 8 else 4) value.toNat)
      (State.tableWrite (viaOf road i k).master i k (store i k value.toNat))
    else s)

/-- PEER_ENTRY_WRITE: the 20 bytes of one entry. -/
def execPeerEntryWrite (dt : Nat) (road : Road) (index : BitVec 16) (sub : BitVec 8) (data : List Byte) (s : State) : Result :=
  let s := s.elapse dt
  let i := index.toNat
  let k := sub.toNat
  .next (if isPeer i k then
    s.writeRow road i k data (State.tableWrite (viaOf road i k).master i k (State.peerPut i k (leNat data)))
    else s)

def execCommissioningLock (dt : Nat) (road : Road) (value : BitVec 8) (s : State) : Result :=
  .next ((s.elapse dt).writeRow road 0x3120 1 [value] (State.lockAct value.toNat))

end Sys2Proof.Machine
end

