-- ==== Sys2Proof/Machine/Time.lean ====
section
/-! DEFINITION. Time sources, lock states, steps and slews, the 1PPS input and what the boundary clock sends (R274 to R282, R291,
R302). Offsets are in ps, device minus source. -/

namespace Sys2Proof.Machine

-- sources (R276)

/-- Number of a source as `0x2100:02` gives it: its priority, and its enable in `0x2101`. -/
def srcNo : TimeSrc → Nat
  | .ptp => 1
  | .dc => 2
  | .pps => 3
def TimeState.src (t : TimeState) (k : Nat) : TimeSource := if k = 1 then t.ptp else if k = 2 then t.dc else t.pps
def TimeState.modSrc (t : TimeState) (k : Nat) (f : TimeSource → TimeSource) : TimeState :=
  if k = 1 then { t with ptp := f t.ptp } else if k = 2 then { t with dc := f t.dc } else { t with pps := f t.pps }
def State.source (s : State) (k : Nat) : TimeSource := s.time.src k
def State.modSource (s : State) (k : Nat) (f : TimeSource → TimeSource) : State := { s with time := s.time.modSrc k f }

/-- The qualified source of highest priority, 0 for none; and the present one. -/
def State.bestSource (s : State) : Nat := ((List.range 4).find? (fun k => k != 0 && (s.source k).qualified)).getD 0
def State.bestPresent (s : State) : Nat := ((List.range 4).find? (fun k => k != 0 && (s.source k).present.isSome)).getD 0

-- steps and slews (R275, R279)

/-- Time steps to a source: counted; launches that it places in the past are not late by it, and the other offsets move too. -/
def State.stepTime (s : State) (offset : Int) : State :=
  let was := s.ns
  let s := { s with clock := { s.clock with now := ((s.clock.now : Int) - offset).toNat, slewLeft := 0 } }
  let s := forRange 4 s (fun s k => if k = 0 then s else s.modSource k (fun x => { x with offset := x.offset - offset }))
  let s := { s with sched := { s.sched with launches := s.sched.launches.map (fun (l : Launch) =>
    if was < l.time && l.time ≤ s.ns then { l with excused := true } else l) } }
  s.bump 0x2100 8 1

/-- An offset of the source to be followed is taken out: by a step beyond the Step Threshold where it is permitted, else by a
slew. -/
def State.correct (s : State) (offset : Int) : State :=
  if s.val 0x2101 7 * 1000 < offset.natAbs && (!(s.run.st = .serving || s.run.st = .draining) || s.flag 0x2101 8) then
    s.stepTime offset
  else { s with clock := { s.clock with slewLeft := -offset } }

-- lock states (R278)

/-- The lock state changes: counted and timed. -/
def State.lockTo (s : State) (st : LockSt) : State :=
  ({ s with time := { s.time with lock := st, since := s.up, withinSince := none } } : State).bump 0x2100 6 1

def State.enterHoldover (s : State) : State := if s.time.lock = .locked then (s.lockTo .holdover).raise 0x0111 0 0 else s

/-- How long the followed source has stayed within the Lock Threshold. -/
def State.trackLock (s : State) (offset : Int) : State :=
  let inside := offset.natAbs ≤ s.val 0x2101 5 * 1000
  { s with time := { s.time with withinSince := if inside then some (s.time.withinSince.getD s.up) else none } }

/-- The followed source shows an offset: beyond 1 us it ends LOCKED; it is taken out. -/
def State.followOffset (s : State) (offset : Int) : State :=
  let s := if usPs < offset.natAbs then s.enterHoldover else s
  (s.trackLock offset).correct offset

/-- The device follows a source (R277). -/
def State.follow (s : State) (k : Nat) : State :=
  let s := { s with time := { s.time with followed := k, withinSince := none } }
  s.followOffset (s.source k).offset

/-- A source is no longer followed: the next qualified one is, or none is left. -/
def State.unfollow (s : State) (k : Nat) : State :=
  if s.time.followed != k then s
  else if s.bestSource = 0 then
    ({ s with time := { s.time with followed := 0, withinSince := none } } : State).enterHoldover
  else s.follow s.bestSource

/-- A source is lost. -/
def State.loseSource (s : State) (k : Nat) : State := (s.modSource k (fun _ => {})).unfollow k

-- updates (R276, R279)

/-- An update of a source: what it counts for and against it; the offset of the source followed, or of the one to be followed, is
taken out. -/
def State.updateSource (s : State) (k : Nat) (offset : Int) (cls : Nat) : State :=
  let inside := offset.natAbs ≤ usPs
  let s := s.modSource k (fun x => { x with
    present := some (x.present.getD s.up), lastAt := s.up, offset := offset, clockClass := cls
    inBand := if inside then min 16 (x.inBand + 1) else 0, outBand := if inside then 0 else min 16 (x.outBand + 1) })
  let x := s.source k
  if x.qualified && x.outBand = 16 && s.time.lock != .freeRun then
    (s.modSource k (fun x => { x with qualified := false })).unfollow k
  else if s.time.followed = k then s.followOffset offset
  else if s.time.followed = 0 && s.bestPresent = k then s.correct offset
  else s

/-- SOURCE_UPDATE of an enabled source; PTP also brings the UTC offset (R274). -/
def State.sourceUpdate (s : State) (k : Nat) (offset : Int) (cls : Nat) (utc : Option (BitVec 16)) : State :=
  if !s.flag 0x2101 k then s
  else
    let s := match utc with
      | some u => if k = 1 then s.setVal 0x2100 7 u.toNat else s
      | none => s
    s.updateSource k offset cls

def execSourceUpdate (dt : Nat) (src : TimeSrc) (offset : Int) (clockClass : BitVec 8) (utcOffset : Option (BitVec 16))
    (s : State) : Result :=
  .next ((s.elapse dt).sourceUpdate (srcNo src) offset clockClass.toNat utcOffset)

/-- SOURCE_QUALIFIED: present for 2 s, with 16 updates within 1 us; 1PPS needs the time of day as well (R276, R280). -/
def State.qualify (s : State) (k : Nat) : State :=
  let x := s.source k
  if x.qualified || x.inBand < 16 || (k = 3 && !s.time.dayKnown) || !(x.present.any (fun t => t + 2 * sPs ≤ s.up)) then s
  else
    let s := s.modSource k (fun x => { x with qualified := true, qualifiedAt := s.up })
    if s.time.followed = 0 then s.follow k else s
def execSourceQualified (dt : Nat) (src : TimeSrc) (s : State) : Result := .next ((s.elapse dt).qualify (srcNo src))

/-- SOURCE_LOST: the loss timer of the source has run out; PTP's also runs by Announce, which updates do not show. -/
def State.sourceLost (s : State) (k : Nat) : State :=
  let x := s.source k
  let limit := if k = 2 then 100 * msPs else if k = 3 then 1100 * msPs else 0
  if x.present.isNone || s.up < x.lastAt + limit then s else s.loseSource k
def execSourceLost (dt : Nat) (src : TimeSrc) (s : State) : Result := .next ((s.elapse dt).sourceLost (srcNo src))

/-- WAIT_TO_RESTORE: a source of higher priority has been qualified for that time (R277). -/
def State.restoreSource (s : State) : State :=
  let k := s.bestSource
  let x := s.source k
  if k = 0 || s.time.followed ≤ k && s.time.followed != 0 || s.up < x.qualifiedAt + s.val 0x2101 4 * sPs then s else s.follow k
def execWaitToRestore (dt : Nat) (s : State) : Result := .next (s.elapse dt).restoreSource

/-- TIME_LOCKED: 2 s within the Lock Threshold (R278); PTP and DC make the time of day known (R280). -/
def State.lockTime (s : State) : State :=
  let k := s.time.followed
  if k = 0 || s.time.lock = .locked || !(s.time.withinSince.any (fun t => t + 2 * sPs ≤ s.up)) then s
  else
    let within := s.time.withinSince
    let s := (s.lockTo .locked).clearAlarm 0x0112 0
    let s := { s with time := { s.time with
      withinSince := within, grandmaster := (s.source k).clockClass, dayKnown := s.time.dayKnown || k != 3 } }
    s.raise 0x0110 0 k
def execTimeLocked (dt : Nat) (s : State) : Result := .next (s.elapse dt).lockTime

/-- TIME_FREE_RUN: the Holdover Limit expires; pending cross-device records are refused (R278, R291). -/
def State.freeRunTime (s : State) : State :=
  if s.time.lock = .holdover && s.time.since + s.val 0x2101 6 * sPs ≤ s.up then
    ((s.lockTo .freeRun).raise 0x0112 0 0).refuseCross
  else s
def execTimeFreeRun (dt : Nat) (s : State) : Result := .next (s.elapse dt).freeRunTime

-- 1PPS (R280)

/-- A rising edge, corrected by the Cable Delay: the start of the second that Time Of Day gave, or of the nearest one. An edge more
than 1 us from its time loses the source. -/
def State.ppsEdge (s : State) : State :=
  if !s.flag 0x2101 3 || !s.time.dayKnown then s
  else
    let t : Int := (s.clock.now : Int) - 1000 * s.valInt 0x2105 1 32
    let near := ((t + sPs / 2) / sPs).toNat
    let second := s.time.nextEdge.getD near
    let x := s.source 3
    let wrong := x.present.isSome && usPs < ((s.up : Int) - x.lastAt - sPs).natAbs
    let s := if wrong then s.loseSource 3 else s
    let s := { s with time := { s.time with nextEdge := s.time.nextEdge.map (· + 1) } }
    s.updateSource 3 (t - second * sPs) 0
def execPpsEdge (dt : Nat) (s : State) : Result := .next (s.elapse dt).ppsEdge

/-- TIME_OF_DAY: the TAI second of the next edge. -/
def State.timeOfDayAct (v : Nat) (s : State) : Nat × State :=
  if 2 ^ 48 ≤ v then refuse abRange s
  else accept { s with time := { s.time with dayKnown := true, nextEdge := some v } }
def execTimeOfDay (dt : Nat) (road : Road) (seconds : BitVec 64) (s : State) : Result :=
  .next ((s.elapse dt).writeRow road 0x2105 3 (leBytes 8 seconds.toNat) (State.timeOfDayAct seconds.toNat))

-- entries that act (R302)

/-- A source that is disabled is lost; a new DC Epoch shows as an offset while DC is followed. -/
def State.sourceEnableAct (k v : Nat) (s : State) : Nat × State :=
  let s := s.setVal 0x2101 k v
  accept (if v = 0 && (s.source k).present.isSome then s.loseSource k else s)
def State.dcEpochAct (v : Nat) (s : State) : Nat × State :=
  let d : Int := ((s.val 0x2104 1 : Int) - v) * sPs
  let s := (s.setVal 0x2104 1 v).modSource 2 (fun x => { x with offset := x.offset + d })
  accept (if s.time.followed = 2 && d != 0 then s.followOffset (s.source 2).offset else s)

-- the boundary clock (R282)

/-- The clock class sent: that of the grandmaster while LOCKED to PTP; LOCKED to another source has none, and the spec leaves the class
open (log entry 4). -/
def State.classSent (s : State) : Nat × State :=
  match s.time.lock with
  | .locked => if s.time.followed = 1 then ((s.source 1).clockClass, s) else (Config.freeNat s.free % 256, s.takeFree)
  | .holdover => (if s.up ≤ s.time.since + 14400 * sPs then 135 else 165, s)
  | .freeRun => (248, s)

/-- SYNC_AND_ANNOUNCE_SEND: on the ports in service, as a T-BC. Which of them receives is the PTP engine's matter (R282). -/
def State.announceAll (s : State) : State :=
  if !s.flag 0x2101 1 || !s.flag 0x2102 4 then s
  else
    let c := s.classSent
    forRange 128 c.2 (fun s n => if (s.unit (portRef n)).works then s.emit (.announce n c.1) else s)
def execSyncAndAnnounceSend (dt : Nat) (s : State) : Result := .next (s.elapse dt).announceAll

end Sys2Proof.Machine
end

