-- ==== Sys2Proof/Machine/Steps.lean ====
section
/-! DEFINITION. Steps: how the policy firmware forms them, how records start and what the end of a step does (R237, R238, R247,
R289, R294, R366, R469, R472, R504). -/

namespace Sys2Proof.Machine

-- forming (R247)

/-- The stream of a TOKEN or STREAM_EVENT entry. -/
def entryStream (e : List Byte) : Option Nat := if field e 0 1 = 2 || field e 0 1 = 4 then some (field e 8 4) else none

/-- Completions that wait for room at a host port (R366). -/
def State.waitingAt (s : State) (p : Nat) : Nat := ((s.host p).rings.map (fun r => r.2.waiting.length)).sum

/-- A stream is left out of steps while a completion of it waits, or while its port can hold no more of them (R366). -/
def State.leftOut (s : State) (n : Nat) : Bool :=
  match (s.stream n).ring with
  | none => false
  | some (p, r) => 65536 ≤ s.waitingAt p || (s.ring p r).waiting.any (fun e => entryStream e = some n)

/-- One stream goes before another in a step: by PRIORITY, then in order of admission. -/
def State.stepBefore (s : State) (a b : Nat) : Bool :=
  let x := s.stream a
  let y := s.stream b
  x.priority < y.priority || (x.priority = y.priority && x.arrival < y.arrival)
def State.stepInsert (s : State) (n : Nat) : List Nat → List Nat
  | [] => [n]
  | m :: ms => if s.stepBefore n m then n :: m :: ms else m :: s.stepInsert n ms

/-- A stream is in the batch: ACTIVE or RESTORING. -/
def StreamSt.batch (st : StreamSt) : Bool := st = .active || st = .restoring

/-- Vectors that a stream gives to a step: one in generation, else prompt or forced tokens up to the limit. -/
def State.vectorsOf (s : State) (n : Nat) : Nat :=
  let c := s.stream n
  let k := if c.st = .restoring then c.forced.length else c.prompt.length
  if k = 0 then 1 else min k (s.val 0x4011 2)

/-- The streams of the next step of a job, with the vectors each gives. -/
def State.nextBatch (s : State) (j : Nat) : List (Nat × Nat) :=
  let l := (s.streamsOf j).filter (fun n => n < 65536 && (s.stream n).st.batch && !s.leftOut n)
  ((l.foldl (fun acc n => s.stepInsert n acc) []).take (s.val 0x4011 1)).map (fun n => (n, s.vectorsOf n))

def vectorSum (l : List (Nat × Nat)) : Nat := (l.map Prod.snd).sum

/-- A core has a LIVE bank whose calibration age exceeds the Recalibration Period by 20 s (R469). -/
def State.overdue (s : State) (c : Nat) : Bool :=
  (List.range 34).any (fun e => [(s.eng c e).plane0, (s.eng c e).plane1].any (fun p =>
    p.st = .live && p.calAt + (s.val 0x4003 1 + 20) * sPs < s.up))

/-- The launch time of a step formed now, ns: with an overdue calibration 50 us after the last step's end (R469). -/
def State.formTime (s : State) (j : Nat) : Nat :=
  if s.flag 0x4003 4 && (s.jobCores j).any s.overdue then max s.ns (s.ns - (s.up - (s.job j).lastEnd) / 1000 + 50000) else s.ns

/-- A time in whole ns as LAUNCH_TIME (R274). -/
def launchStamp (ns : Nat) : Nat := leNat (timeBytes (1000 * ns))

/-- The policy firmware's record of a step: every core, no epoch, no limit (DESIGN CHOICE). -/
def State.formed (s : State) (j entry tag cores : Nat) : Record :=
  { time := launchStamp (s.formTime j), tag := tag, kind := 1, job := j, flags := 0, reserved := 0, cores := cores, epoch := 0
    entry := entry, lateLimit := 0, deadline := 0 }

/-- The vectors reach the target, or the gather limit has passed. -/
def State.gathered (s : State) (j : Nat) (b : List (Nat × Nat)) : Bool :=
  s.val 0x4011 3 ≤ vectorSum b || (s.job j).lastEnd + s.val 0x4011 4 * usPs ≤ s.up

/-- STEP_FORM: the running job's next step, when the policy firmware has none of it running, pending or to be reissued. -/
def State.formStep (s : State) (entry tag : Nat) : State :=
  match s.sched.running with
  | none => s
  | some j =>
    let x := s.job j
    let b := s.nextBatch j
    let r := s.formed j entry tag 0
    if !s.mayRunJobs || x.st != .running || x.step.isSome || x.reissue.isSome || b.isEmpty || !s.gathered j b ||
        s.sched.launches.any (fun l => l.job = j && !l.streams.isEmpty) || !s.recordOk r then s
    else (s.launchRecord r .firmware b).2

def execStepForm (dt : Nat) (entry : Nat) (tag : BitVec 32) (s : State) : Result :=
  .next ((s.elapse dt).formStep entry tag.toNat)

/-- STEP_REISSUE: a step that a unit failure abandoned is issued again, for the streams of it that are still in the batch, once
its work has been placed anew (R472 to R475). -/
def State.reissueStep (s : State) (j tag : Nat) : State :=
  match (s.job j).reissue with
  | none => s
  | some r =>
    if (s.job j).step.isSome || !(s.job j).st.resident then s
    else
      let s' := s.replaceUnits j r.worst
      let mask := (r.cores.map (fun i => 2 ^ i)).sum
      let rec' := s'.formed j r.entry tag mask
      let b := r.streams.filter (fun x => (s.stream x.1).job = j && (s.stream x.1).st.batch)
      let x := s'.launchRecord rec' .firmware (if r.streams.isEmpty then [] else b.map (fun x => (x.1, s.vectorsOf x.1)))
      if tag = 0 || x.1 != stOk then s
      else x.2.modJob j (fun y => { y with reissue := none })

def execStepReissue (dt : Nat) (job : Fin 8) (tag : BitVec 32) (s : State) : Result :=
  .next ((s.elapse dt).reissueStep job tag.toNat)

-- starting (R289)

/-- The pending record of a job that starts next: the earliest time, then the earliest arrival. -/
def State.dueRecord (s : State) (j : Nat) : Option Launch :=
  (s.sched.launches.filter (fun l => l.job = j && l.time ≤ s.ns)).foldl (fun (b : Option Launch) l => match b with
    | none => some l
    | some x => if l.time < x.time then some l else some x) none

/-- A record's step starts on its cores at ENTRY, with the data that its pails hold. -/
def State.startRecord (s : State) (j : Nat) (l : Launch) : State :=
  let s := if l.time < s.ns then s.bump 0x2107 (if l.stretched then 5 else 4) 1 else s
  let s := (s.dropLaunch j l.tag).pailCopy j l.tag
  let x := s.job j
  let named := x.coresNamed l.cores
  let r : RunStep := { tag := l.tag, launch := l.time, deadline := l.deadline, entry := l.entry, cores := named
                       streams := l.streams, startAt := s.up }
  let s := s.modJob j (fun x => { x with stepNo := x.stepNo + 1, step := some r })
  let no := (s.job j).stepNo
  let s := l.streams.foldl (fun s n => s.modStream n.1 (fun c => { c with lastStep := no })) s
  (x.coresBound l.cores).foldl (fun s c =>
    s.beginCore c j r (s.stretch c) (named.filter (fun i => (x.cores.getD i {}).bound = some c))) s

/-- STEP_START: the job is RUNNING and its previous step has ended; units are placed, and checks 3 and 4 of R288 and the
lateness are looked at. -/
def State.startStep (s : State) (j : Nat) : State :=
  match s.dueRecord j with
  | none => s
  | some l =>
    if (s.job j).st != .running || (s.job j).step.isSome || !s.mayRunJobs || s.sched.saving = some j then s
    else
      let s := s.replaceUnits j 0
      if l.cross && s.time.lock = .freeRun then (s.bump 0x2107 2 1).failLaunch l stLaunchUnlocked
      else if ((s.job j).coresBound l.cores).any s.mixedOn then (s.bump 0x2107 2 1).failLaunch l stLaunchMixed
      else if s.tooLate l then ((s.bump 0x2107 6 1).raise 0x0115 0 (j + stLate * 256)).failLaunch l stLate
      else s.startRecord j l

def execStepStart (dt : Nat) (job : Fin 8) (s : State) : Result := .next ((s.elapse dt).startStep job)

-- the end (R237)

/-- A core has done its part of the step: END on its last logical core, or everything that started is over. -/
def State.corePartDone (s : State) (j c : Nat) : Bool :=
  let k := s.core c
  k.ops.isEmpty && (match k.step, (s.job j).step with
    | some x, some r => r.stopped != 0 || (x.ended && x.rest.isEmpty)
    | _, _ => true)

/-- What a step did for a stream: it has used its prompt or forced tokens (DEDUCED: not in a step that was abandoned). -/
def State.useTokens (s : State) (n k : Nat) : State :=
  s.modStream n (fun c =>
    if c.st = .restoring then { c with forced := c.forced.drop k } else if c.st = .active then { c with prompt := c.prompt.drop k }
    else c)

/-- The reason for which a stream goes IDLE at the step end, 0 for none: BUDGET used up, a stop token, PAUSE. -/
def idleReason (budget : Nat) (stop : Bool) (after : Nat) : Nat :=
  if after = 2 then 0 else if budget = 0 then 1 else if stop then 2 else if after = 1 then 3 else 0

/-- A sampled token goes to the stream's owner; one with prompt tokens outstanding, with no budget or failed in the step gives
none. The state, and the reason to go IDLE. -/
def State.deliverToken (s : State) (j n : Nat) (failed : Bool) (t : Option (BitVec 32)) : State × Option Nat :=
  let c := s.stream n
  if c.st != .active || c.job != j then (s, none)
  else if !c.prompt.isEmpty || failed then (s, some (idleReason 1 false c.after))
  else if c.budget = 0 then (s, some (idleReason 0 false c.after))
  else
    match t with
    | none => (s, some (idleReason c.budget false c.after))
    | some t =>
      let hit := (s.job j).stopTokens.any (fun k => k = t.toNat)
      let reason := idleReason (c.budget - 1) hit c.after
      let s := s.modStream n (fun c => { c with generated := (c.generated + 1) % 2 ^ 64, budget := c.budget - 1 })
      let entry := (s.stream n).token n t c.position (reason != 0)
      let s := s.modStream n (fun c => { c with adopted := false })
      (s.logged n (.token t) c.owner c.ring entry, some reason)

/-- The streams whose tokens a step may give: those it includes, and those that a record without streams sampled. -/
def RunStep.batch (r : RunStep) (sampled : List (Nat × BitVec 32)) : List Nat :=
  (r.streams.map Prod.fst ++ sampled.map Prod.fst).eraseDups.filter (fun n => n < 65536)

/-- Tokens delivered at the end of a step that was not abandoned: the state, their count, and the streams that go IDLE. -/
def State.deliverTokens (s : State) (j : Nat) (r : RunStep) (sampled : List (Nat × BitVec 32)) :
    State × Nat × List (Nat × Nat) :=
  let s := r.streams.foldl (fun s x => s.useTokens x.1 x.2) s
  (r.batch sampled).foldl (fun (acc : State × Nat × List (Nat × Nat)) n =>
    let x := acc.1.deliverToken j n (r.failed.any (fun f => f.1 = n)) ((sampled.find? (fun t => t.1 = n)).map Prod.snd)
    let gave := x.1.stream n |>.generated
    let n1 := if gave = (acc.1.stream n).generated then acc.2.1 else acc.2.1 + 1
    (x.1, n1, match x.2 with
      | some k => if k = 0 then acc.2.2 else acc.2.2 ++ [(n, k)]
      | none => acc.2.2)) (s, 0, [])

/-- The state changes that waited for the step end: IDLE, CLOSING, and ACTIVE once recomputed (R241). -/
def State.streamChanges (s : State) (j : Nat) (idle : List (Nat × Nat)) : State :=
  let s := idle.foldl (fun s x => if (s.stream x.1).st = .active then s.streamTo x.1 .idle x.2 else s) s
  (s.streamsOf j).foldl (fun s n =>
    let c := s.stream n
    if c.st.batch && c.after = 2 then s.closeNow n
    else if c.st = .active && c.after = 1 then s.streamTo n .idle 3
    else if c.st = .restoring && c.forced.isEmpty && n < 65536 then s.recomputed n
    else s) s

/-- The stagger step D after a step with a pause share, per mille; Stagger Lanes written before are in force from now on
(R504, R506). -/
def State.adjustStagger (s : State) (p : Nat) : State :=
  let d := s.val 0x4005 5
  let d' := if !s.flag 0x4005 1 then 0
    else if s.val 0x4005 4 < p then min (d + 1) (s.val 0x4005 3)
    else if p < s.val 0x4005 4 / 2 then d - 1
    else d
  let s := s.setVal 0x4005 5 d'
  { s with sched := { s.sched with lanes := s.val 0x4005 2 } }

/-- Records of the job that waited for a stretched step are stretched (R294). -/
def State.markStretched (s : State) (j : Nat) : State :=
  if above1 (s.sigmaMax j) then
    { s with sched := { s.sched with launches := s.sched.launches.map (fun l =>
      if l.job = j && l.time ≤ s.ns then { l with stretched := true } else l) } }
  else s

/-- The step leaves its cores and its job; a unit failure has it issued again (R223, R472). -/
def State.clearStep (s : State) (j : Nat) (r : RunStep) : State :=
  let s := (s.stepCores j).foldl (fun s c => s.modCore c (fun k => { k with step := none })) s
  let s := s.modJob j (fun x => { x with
    step := none, lastEnd := s.up, reissue := if r.stopped = 2 then some r else x.reissue })
  { s with sched := { s.sched with
    closedTags := s.sched.closedTags.filter (fun x => x != (j, r.tag)) ++ [(j, r.tag)], steps := s.sched.steps + 1 } }

/-- The worst status that the step completion tells. -/
def RunStep.status (r : RunStep) : Nat := if r.stopped = 2 && r.worst = 0 then stUnitFault else r.worst

/-- STEP_END: `sampled` are the tokens that the program sampled, `pauseShare` the pause share p of R504, per mille. -/
def State.endStep (s : State) (j : Nat) (sampled : List (Nat × BitVec 32)) (pauseShare : Nat) : State :=
  match (s.job j).step with
  | none => s
  | some r =>
    if !((s.job j).st = .running || (s.job j).st = .faulted) || !(s.stepCores j).all (s.corePartDone j) then s
    else
      let s := s.markStretched j
      let x := if r.stopped = 0 then s.deliverTokens j r sampled else (s, 0, [])
      let s := (x.1.clearStep j r).streamChanges j x.2.2
      let s := { s with sched := { s.sched with tokens := s.sched.tokens + x.2.1 } }
      let s := s.postStep j r.status x.2.1 (s.job j).stepNo
      let s := (s.adjustStagger pauseShare).placeLayers j (vectorSum r.streams)
      ((s.checkpointAll.settleTakeover).boundary_ j).advance

def execStepEnd (dt : Nat) (job : Fin 8) (sampled : List (Nat × BitVec 32)) (pauseShare : Nat) (s : State) : Result :=
  .next ((s.elapse dt).endStep job sampled pauseShare)

end Sys2Proof.Machine
end

