-- ==== Sys2Proof/Machine/Twin.lean ====
section
/-! DEFINITION. Twin pairing: formation, heartbeats, probes, the witness and the relay, takeover, cross-checks, handover and
unpairing (R327 to R354). -/

namespace Sys2Proof.Machine

-- frames received (R332)

/-- A control frame keeps the layout of R332; what a field's table gives no meaning breaks it (DEDUCED). -/
def frameValid (f : TwinFrame) : Bool :=
  let t := f.type.toNat
  f.magic.toNat = 0x5457494E && 1 ≤ t && t ≤ 11 && f.twinState.toNat < 9 && f.runState.toNat < 9 &&
  timeValid f.sendTime.toNat && (8 ≤ t || f.pairId.toNat = 0) && (t = 10 || f.holder.toNat = 0) &&
  (t = 6 || t = 7 || f.tail.isEmpty)

/-- It is the partner's by its key prefix. -/
def State.fromPartner (s : State) (f : TwinFrame) : Bool := frameValid f && f.keyPrefix.toNat = s.partnerPrefix

/-- A frame of the partner of one TYPE, discarded and counted where it is none. -/
def State.take (s : State) (type : Nat) (f : TwinFrame) (act : State → State) : State :=
  if !s.fromPartner f then s.bump 0x2201 0x14 1
  else if f.type.toNat != type then s
  else act s

/-- A frame on a twin port in service, once the device belongs to a pair or forms one. -/
def State.onTwinPort (s : State) (i type : Nat) (f : TwinFrame) (act : State → State) : State :=
  if s.twin.st = .solo || !(s.unit (portRef (120 + i))).works then s else s.take type f act

/-- A frame over the other ports from the Partner Fabric Address. -/
def State.onPath (s : State) (src : BitVec 128) (type : Nat) (f : TwinFrame) (act : State → State) : State :=
  if s.twin.st = .solo || s.val 0x2200 3 = 0 || src.toNat != beNat (leBytes 16 (s.val 0x2200 3)) then s else s.take type f act

-- forming (R327, R328)

/-- The Geometry record (R7). -/
def State.geometry (s : State) : List Nat := (List.range 0x17).map (fun i => s.val 0x2001 (i + 1))

/-- HELLO, with certificate and nonce, on every twin port in service. -/
def State.sendHello (s : State) : State :=
  forRange 8 s (fun s i =>
    if (s.unit (portRef (120 + i))).works then
      (s.emit (.hello i (s.frameOf 6 (120 + i)) (Config.certificate ++ s.twin.nonce))).nextSequence
    else s)

/-- Step 2 starts: a fresh nonce goes out, and nothing of the partner is known yet. -/
def State.startHello (s : State) : State :=
  let nonce := padTo 32 0 (Config.nonce s.free)
  let s := { s.takeFree with twin := { s.twin with
    formAt := s.up, nonce := nonce, partnerNonce := [], answered := false, partnerKey := [], usable := [], miscabled := []
    delays := [] } }
  (s.setVal 0x2201 0x12 0).sendHello

/-- Entry into FORMING: the twin ports leave every group (R310, R328). -/
def State.enterForming (s : State) : State :=
  let n := ((List.range 8).filter (fun i => s.inGroups (120 + i))).length
  let s := (s.twinSet .forming).bump 0x2300 0x1B n
  s.startHello

/-- What R327 asks for before Pair Enable; the cabling shows in the HELLOs (DEDUCED). -/
def State.mayPair (s : State) : Bool :=
  s.val 0x2200 2 != 0 && ((s.val 0x2200 4 != 0 && s.val 0x2200 3 != 0) || s.flag 0x2200 6)

/-- The port is cabled to the port of the same index, or is left unused and counted. -/
def State.matchPort (s : State) (i : Nat) (f : TwinFrame) : State :=
  if f.port.toNat = 120 + i then
    (if i ∈ s.twin.usable then s
     else { s with twin := { s.twin with usable := (List.range 8).filter (fun k => k = i || k ∈ s.twin.usable) } })
  else if i ∈ s.twin.miscabled then s
  else ({ s with twin := { s.twin with miscabled := s.twin.miscabled ++ [i] } } : State).bump 0x2201 0x12 1

/-- A HELLO that waits for its answer gets it, once a signature is to be had. -/
def State.answerHello (s : State) : State :=
  if s.twin.st != .forming || s.twin.partnerNonce.isEmpty || s.twin.answered || s.signWait != 0 || leafCount ≤ s.leaf then s
  else
    let head := s.reportHead s.twin.partnerNonce
    let body := head ++ padTo 2820 0 (Config.xmssSign head s.leaf)
    let i := s.twin.helloPort
    let s := (s.signed.emit (.hello i (s.frameOf 7 (120 + i)) body)).nextSequence
    { s with twin := { s.twin with answered := true } }

/-- A HELLO: in DEGRADED it starts a new formation. Its nonce is the last 32 bytes; one nonce is answered once (DEDUCED). -/
def State.hello (s : State) (i : Nat) (f : TwinFrame) : State :=
  if f.tail.length < 32 then s.bump 0x2201 0x14 1
  else if !(s.twin.st = .forming || s.twin.st = .degraded) then s
  else
    let s := if s.twin.st = .degraded then s.enterForming else s
    let s := s.matchPort i f
    let nonce := f.tail.drop (f.tail.length - 32)
    if s.twin.partnerNonce = nonce then s.answerHello
    else
      ({ s with twin := { s.twin with partnerNonce := nonce, helloPort := i, answered := false } } : State).answerHello

def execHello (dt : Nat) (port : Fin 8) (frame : TwinFrame) (s : State) : Result :=
  .next ((s.elapse dt).onTwinPort port 6 frame (fun s => s.hello port frame))

/-- SIGNATURE_INTERVAL_END: a HELLO answer that waited is signed and sent. -/
def execSignatureIntervalEnd (dt : Nat) (s : State) : Result := .next (s.elapse dt).answerHello

/-- The certificate verifies against the vendor key of the booted image: key, product code and serial, then the signature (R269;
DEDUCED order). -/
def State.certificateOk (s : State) (cert : List Byte) : Bool :=
  Config.xmssVerify ((s.security.bootedImage.drop 32).take 68) (cert.take 84) ((cert.drop 84).take 2820)

/-- The conditions of step 3. -/
def State.acceptsPartner (s : State) (report cert : List Byte) (geometry : List Nat) : Bool :=
  let key := cert.take 68
  s.certificateOk cert && report.length = 3108 && Config.xmssVerify key (report.take 288) ((report.drop 288).take 2820) &&
  (report.drop 32).take 32 = s.twin.nonce && leNat (shake256 key) = s.partnerHash && geometry = s.geometry &&
  s.time.lock != .freeRun && field report 20 1 != 0

/-- A HELLO_ANSWER: the partner is accepted, and the port is taken into use. -/
def State.helloAnswer (s : State) (i : Nat) (f : TwinFrame) (cert : List Byte) (geometry : List Nat) : State :=
  if s.twin.st != .forming then s
  else if !s.acceptsPartner f.tail cert geometry then s
  else
    let s := { s with twin := { s.twin with partnerKey := cert.take 68 } }
    (s.setVal 0x2201 2 (leNat (serialOf cert))).matchPort i f

def execHelloAnswer (dt : Nat) (port : Fin 8) (frame : TwinFrame) (certificate : List Byte) (geometry : List Nat) (s : State) :
    Result :=
  .next ((s.elapse dt).onTwinPort port 7 frame (fun s => s.helloAnswer port frame certificate geometry))

/-- FORMATION_TIMEOUT: after 10 s formation starts again from step 2. -/
def execFormationTimeout (dt : Nat) (s : State) : Result :=
  let s := s.elapse dt
  .next (if s.twin.st = .forming && s.twin.formAt + 10 * sPs ≤ s.up then (s.bump 0x2201 0x13 1).startHello else s)

/-- ASYMMETRY_MEASURED: the asymmetries, in 0.1 ns, of the eight ports; the delays found with them are free values (log
entry 4). SYNCING follows (R328, R329). -/
def State.asymmetry (s : State) (a : List Int) : State :=
  let t := s.twin
  if t.st != .forming || t.partnerKey.isEmpty || !t.answered || t.usable.isEmpty then s
  else
    let v := leNat ((List.range 8).flatMap (fun i => leBytes 2 (unsigned 16 (if i ∈ t.usable then a.getD i 0 else 0))))
    let s := t.usable.foldl (fun (s : State) i =>
      ({ s with twin := { s.twin with delays := tset s.twin.delays i (Config.freeNat s.free) } } : State).takeFree)
      (s.setVal 0x2201 4 v)
    s.enterSyncing

def execAsymmetryMeasured (dt : Nat) (asymmetry : List Int) (s : State) : Result :=
  .next ((s.elapse dt).asymmetry asymmetry)

-- self-fencing and regained contact (R337, R338)

/-- Entry into SELF_FENCED: jobs stop at their step ends, and the run state goes to SAFE. -/
def State.selfFence (s : State) : State := (s.twinSet .selfFenced).toSafe 2

/-- SAFE that self-fencing caused ends (R393). -/
def State.leaveFence (s : State) : State :=
  if s.run.st = .safe && s.val 0x2000 6 = 2 then s.startWarming
  else if s.run.st = .safe then s
  else { s with run := { s.run with stopJobs := false } }

/-- A SELF_FENCED device hears of its partner's twin state. -/
def State.regain (s : State) (partner : Nat) : State :=
  if partner = 6 || partner = 7 then
    let s := s.ownStreams.foldl State.handStream s
    let s := { s with twin := { s.twin with held := [] } }
    s.leaveFence.enterSyncing
  else if partner = 8 || partner = 4 || partner = 5 then s.leaveFence.enterSyncing
  else s

-- pairing complete (R331)

/-- SYNCING ends once every stream of both devices has an acknowledged checkpoint; FREE_CONTEXTS tells how many streams the partner
has (DEDUCED). -/
def State.settlePair (s : State) : State :=
  if s.twin.st = .syncing && s.allCheckpointed && (match s.twin.partnerFree with
      | some n => 65536 - n ≤ s.mirrored
      | none => false) then s.twinSet .paired
  else s

/-- A partner that keeps no stream, while its mirrors are held here, has handed them over: the twin is told by FREE_CONTEXTS alone
(DEDUCED), and adopts without a wait (R347). -/
def State.takeHandover (s : State) : State :=
  if s.twin.st = .paired && s.twin.partnerFree = some 65536 && s.mirrored != 0 then s.adoptAll 0 else s

-- heartbeats (R333)

/-- HEARTBEAT_INTERVAL: a HEARTBEAT on every usable twin port; each one sent is counted. -/
def State.sendBeats (s : State) : State :=
  if s.twin.st = .syncing || s.twin.st = .paired || s.twin.st = .suspect || s.twin.st = .linkDown || s.twin.st = .selfFenced then
    let n := (s.twin.usable.filter (fun i => (s.unit (portRef (120 + i))).works)).length
    (s.bump 0x2202 2 n).sendTwin 1
  else s
def execHeartbeatInterval (dt : Nat) (s : State) : Result := .next (s.elapse dt).sendBeats

/-- A time of R274 in ps. -/
def timePs (v : Nat) : Nat := timeNs v * 1000 + v >>> 80 % 65536 * 1000 / 65536

/-- A number that INTEGER32 does not hold the spec leaves open (log entry 4). -/
def fit32 (free : Nat) (x : Int) : Nat := if -2147483648 ≤ x ∧ x < 2147483648 then unsigned 32 x else Config.freeNat free % 2 ^ 32

/-- The Twin Offset by a heartbeat's SEND_TIME, corrected by the delay and half the asymmetry of its port (R283, R329). -/
def State.measureTwin (s : State) (i : Nat) (f : TwinFrame) : State :=
  let a := Machine.signed 16 (s.val 0x2201 4 >>> (16 * i) % 65536)
  let ps : Int := (s.clock.now : Int) - timePs f.sendTime.toNat - tget s.twin.delays i - 50 * a
  let x := roundInt ps 100
  let s := (s.setVal 0x2100 9 (fit32 s.free x)).takeFree
  let beyond := 50 < (Machine.signed 32 (s.val 0x2100 9)).natAbs
  { s with time := { s.time with twinBeyond := if beyond then some (s.time.twinBeyond.getD (s.up, false)) else none } }

/-- A HEARTBEAT on a usable port: it ends the run of misses and may change the twin state (R331, R335, R338). -/
def State.heartbeat (s : State) (i : Nat) (f : TwinFrame) : State :=
  let live := s.twin.st = .syncing || s.twin.st = .paired || s.twin.st = .suspect || s.twin.st = .linkDown || s.twin.st = .selfFenced
  if !live || i ∉ s.twin.usable then s
  else
    let s := (s.measureTwin i f).restartDeadline
    let s := { s with twin := { s.twin with partnerFree := some f.freeContexts.toNat } }
    let s := match s.twin.st with
      | .suspect =>
        let s := s.twinSet s.twin.before
        ({ s with twin := { s.twin with probeAt := none } } : State).sendLog
      | .linkDown => { s with twin := { s.twin with goodSince := some (s.twin.goodSince.getD s.ns) } }
      | .selfFenced => s.regain f.twinState.toNat
      | _ => if f.twinState.toNat = 5 then s.enterLinkDown else s
    let s := if s.twin.st.logs then s.logAcks f.logAcked.toNat else s
    s.settlePair.takeHandover

def execHeartbeat (dt : Nat) (port : Fin 8) (frame : TwinFrame) (s : State) : Result :=
  .next ((s.elapse dt).onTwinPort port 1 frame (fun s => s.heartbeat port frame))

/-- HEARTBEAT_MISS: the deadline's stamp has passed without an arrival. -/
def State.missBeat (s : State) : State :=
  let counts := s.twin.st = .syncing || s.twin.st = .paired || s.twin.st = .suspect || s.twin.st = .linkDown
  if !counts || s.ns ≤ s.twin.deadline then s
  else
    let s := s.bump 0x2201 5 1
    { s with twin := { s.twin with
      misses := s.twin.misses + 1, deadline := s.twin.deadline + 1000 * s.val 0x2200 7, goodSince := none } }
def execHeartbeatMiss (dt : Nat) (s : State) : Result := .next (s.elapse dt).missBeat

/-- TWIN_SUSPECT: Miss Limit misses in a row. -/
def State.suspect (s : State) : State :=
  if (s.twin.st = .syncing || s.twin.st = .paired) && s.val 0x2200 0xF ≤ s.twin.misses then s.enterSuspect else s
def execTwinSuspect (dt : Nat) (s : State) : Result := .next (s.elapse dt).suspect

/-- LINK_DOWN_RECOVERY: heartbeats without a miss for 1 ms. -/
def State.linkBack (s : State) : State :=
  match s.twin.goodSince with
  | some t => if s.twin.st = .linkDown && t + 1000000 ≤ s.ns then s.enterSyncing else s
  | none => s
def execLinkDownRecovery (dt : Nat) (s : State) : Result := .next (s.elapse dt).linkBack

/-- TWIN_TIME_OFFSET: the Twin Offset has lain beyond 5 ns for 1 s; one warning for each time (R283). -/
def State.twinOffset (s : State) : State :=
  match s.time.twinBeyond with
  | some (t, false) =>
    if t + sPs ≤ s.up && s.twin.st != .solo then
      ({ s with time := { s.time with twinBeyond := some (t, true) } } : State).raise 0x0113 0 (s.val 0x2100 9)
    else s
  | _ => s
def execTwinTimeOffset (dt : Nat) (s : State) : Result := .next (s.elapse dt).twinOffset

-- probes and the relay (R334, R335)

/-- PROBE_INTERVAL: probes are repeated in SUSPECT and LINK_DOWN, and by a SELF_FENCED device (R334, R337). -/
def State.probeAgain (s : State) : State :=
  if s.twin.st = .suspect || s.twin.st = .linkDown || s.twin.st = .selfFenced then s.sendProbe.twinQuery else s
def execProbeInterval (dt : Nat) (s : State) : Result := .next (s.elapse dt).probeAgain

/-- PROBE: the partner's probe is answered. -/
def execProbe (dt : Nat) (src : BitVec 128) (frame : TwinFrame) (s : State) : Result :=
  .next ((s.elapse dt).onPath src 2 frame (fun s => s.sendControl (beNat (leBytes 16 (s.val 0x2200 3))) (s.frameOf 3 0xFF)))

/-- A report that confirms the loss: SELF_FENCED, SAFE, SHUTDOWN, OFF or absent (rule 3). -/
def partnerGone (twin run : Nat) : Bool := twin = 8 || run = 7 || run = 8 || run = 0 || run = 0xFF

/-- What a probe reply or a relay write tells; `fresh` where it may show that the partner lives (rules 2 and 3). -/
def State.told_ (s : State) (twin run : Nat) (fresh : Bool) : State :=
  if s.twin.st = .suspect then
    (if partnerGone twin run then s.enterTakeover s.fenceTime else if fresh then s.enterLinkDown else s)
  else if s.twin.st = .linkDown && partnerGone twin run then s.enterTakeover s.fenceTime
  else s

/-- PROBE_REPLY (R335, R338). -/
def State.probeReply (s : State) (f : TwinFrame) : State :=
  if s.twin.st = .selfFenced then s.regain f.twinState.toNat else s.told_ f.twinState.toNat f.runState.toNat true
def execProbeReply (dt : Nat) (src : BitVec 128) (frame : TwinFrame) (s : State) : Result :=
  .next ((s.elapse dt).onPath src 3 frame (fun s => s.probeReply frame))

/-- PARTNER_STATUS: the value is kept; under the relay a write of the EtherCAT master counts as a report, a host's never. -/
def State.partnerStatusAct (relay : Bool) (v : Nat) (s : State) : Nat × State :=
  let s := s.setVal 0x2202 3 v
  if !relay || !s.flag 0x2200 6 then accept s
  else
    let n := v / 65536
    let fresh := s.twin.relayCounter.any (fun c => c != n)
    let s := { s with twin := { s.twin with relayCounter := some n } }
    accept (s.told_ (v / 256 % 256) (v % 256) fresh)
def execPartnerStatus (dt : Nat) (road : Road) (value : BitVec 32) (s : State) : Result :=
  .next ((s.elapse dt).writeRow road 0x2202 3 (leBytes 4 value.toNat) (State.partnerStatusAct (decide (road = .coe)) value.toNat))

/-- CONFIRM_WINDOW: it ends without an outcome (rule 5). -/
def State.confirmEnd (s : State) : State :=
  if s.twin.st = .suspect && s.twin.suspectAt + 1000 * s.val 0x2200 8 ≤ s.ns then s.selfFence else s
def execConfirmWindow (dt : Nat) (s : State) : Result := .next (s.elapse dt).confirmEnd

-- the witness (R336)

/-- WITNESS_CLAIM: in SUSPECT, 500 us after the first PROBE. -/
def State.claim (s : State) : State :=
  match s.twin.probeAt with
  | some t => if s.twin.st = .suspect && s.val 0x2200 4 != 0 && t + 500000 ≤ s.ns then s.sendWitness 8 else s
  | none => s
def execWitnessClaim (dt : Nat) (s : State) : Result := .next (s.elapse dt).claim

/-- WITNESS_RELEASE: sent again until it is answered. -/
def State.releaseAgain (s : State) : State := if s.twin.releasing then s.sendWitness 11 else s
def execWitnessRelease (dt : Nat) (s : State) : Result := .next (s.elapse dt).releaseAgain

/-- A frame of the witness that answers a claim or release still open: which of them; any other is discarded and counted. -/
def State.onWitness (s : State) (src : BitVec 128) (type : Nat) (f : TwinFrame) (act : Bool → State → State) : State :=
  if s.val 0x2200 4 = 0 || src.toNat != beNat (leBytes 16 (s.val 0x2200 4)) then s
  else
    let known := s.twin.asked.find? (fun a => a.1 = f.sequence.toNat)
    match known with
    | some a =>
      if frameValid f && f.keyPrefix.toNat = ownKey && f.pairId.toNat = s.pairId && (f.type.toNat = 9 || f.type.toNat = 10) then
        if f.type.toNat != type then s
        else act a.2 { s with twin := { s.twin with asked := s.twin.asked.filter (fun x => x.1 != a.1) } }
      else s.bump 0x2201 0x14 1
    | none => s.bump 0x2201 0x14 1

/-- WITNESS_GRANT: of a claim it confirms the loss (rule 4); of a release it ends the grant. -/
def State.granted (ofClaim : Bool) (s : State) : State :=
  if ofClaim then
    let s := { s with twin := { s.twin with grant := true } }
    if s.twin.st = .suspect then s.enterTakeover s.fenceTime else s
  else { s with twin := { s.twin with grant := false, releasing := false } }
def execWitnessGrant (dt : Nat) (src : BitVec 128) (frame : TwinFrame) (s : State) : Result :=
  .next ((s.elapse dt).onWitness src 9 frame State.granted)

/-- WITNESS_DENY: counted; in SUSPECT the device fences itself at once (rule 4). -/
def State.denied (_ofClaim : Bool) (s : State) : State :=
  let s := s.bump 0x2201 0x15 1
  if s.twin.st = .suspect then s.selfFence else s
def execWitnessDeny (dt : Nat) (src : BitVec 128) (frame : TwinFrame) (s : State) : Result :=
  .next ((s.elapse dt).onWitness src 10 frame State.denied)

-- takeover (R337, R343, R345)

/-- FENCE_GUARD: tokens of adopted streams are delivered from the time of R337 on. -/
def execFenceGuard (dt : Nat) (s : State) : Result :=
  let s := s.elapse dt
  .next (if s.fenceTime ≤ s.ns then s.releaseFence else s)

/-- GOODBYE of the partner: its streams are adopted without a wait (R331, R347). -/
def State.goodbye (s : State) (i : Nat) : State :=
  if i ∈ s.twin.usable && (s.twin.st = .paired || s.twin.st = .syncing || s.twin.st = .linkDown) then s.enterTakeover 0 else s
def execGoodbye (dt : Nat) (port : Fin 8) (frame : TwinFrame) (s : State) : Result :=
  .next ((s.elapse dt).onTwinPort port 4 frame (fun s => s.goodbye port))

/-- ADOPTION_FROM_BACKLOG. -/
def execAdoptionFromBacklog (dt : Nat) (s : State) : Result := .next (s.elapse dt).adoptBacklog.settleTakeover

-- log and checkpoints (R339 to R341)

/-- TOKEN_LOG_ENTRY of the partner. -/
def execTokenLogEntry (dt : Nat) (entry : LogEntry) (s : State) : Result :=
  let s := s.elapse dt
  .next (if s.twin.st.logs then s.takeLog entry else s)

/-- TOKEN_LOG_ACK of the partner, up to a sequence that was issued. -/
def execTokenLogAck (dt : Nat) (seq : Nat) (s : State) : Result :=
  let s := s.elapse dt
  .next (if s.twin.st.logs && seq ≤ s.twin.logSeq then s.logAcks seq else s)

/-- CHECKPOINT_RECEIVED. -/
def execCheckpointReceived (dt : Nat) (ckpt : Checkpoint) (s : State) : Result :=
  let s := s.elapse dt
  .next (if s.twin.st.logs then (s.takeCheckpoint ckpt).settlePair else s)

/-- CHECKPOINT_ACK: CHECKPOINT_SEQ and CHECKPOINT_POSITION advance, and what waited for it goes on. -/
def State.checkpointAcked (s : State) (n : Nat) : State :=
  match (s.stream n).ckptWait with
  | none => s
  | some p =>
    let s := s.modStream n (fun c => { c with
      ckptSeq := c.ckptSeq + 1, ckptPosition := p, ckptWait := none, ckptAcked := true, bare := false })
    s.settlePair.advance
def execCheckpointAck (dt : Nat) (stream : BitVec 16) (s : State) : Result :=
  let s := s.elapse dt
  .next (if s.twin.st.logs then s.checkpointAcked stream.toNat else s)

-- cross-checks (R342)

/-- The banks of this device that a record is compared with. -/
def State.crossBanks (s : State) (r : CrossCheck) : List (Nat × Nat × Nat) :=
  (List.range 16).flatMap (fun c => (List.range 34).flatMap (fun e => (List.range 2).filterMap (fun p =>
    if ((s.eng c e).plane p).matchesRecord r then some (c, e, p) else none)))

/-- CROSS_CHECK_RECORD: compared with every bank that matches, or kept until one does. -/
def State.crossRecord (s : State) (r : CrossCheck) : State :=
  match s.crossBanks r with
  | [] => { s with twin := { s.twin with records := s.twin.records ++ [(r, s.ns)] } }
  | bs => bs.foldl (fun s b => s.compareSums b.1 b.2.1 b.2.2 r) s
def execCrossCheckRecord (dt : Nat) (record : CrossCheck) (s : State) : Result :=
  let s := s.elapse dt
  .next (if s.twin.st.logs then s.crossRecord record else s)

/-- CROSS_CHECK_TIMEOUT: records that found no bank within 10 s are dropped. -/
def State.dropRecords (s : State) : State :=
  let late (x : CrossCheck × Nat) : Bool := x.2 + 10000000000 < s.ns
  let n := (s.twin.records.filter late).length
  ({ s with twin := { s.twin with records := s.twin.records.filter (fun x => !late x) } } : State).bump 0x2201 0x10 n
def execCrossCheckTimeout (dt : Nat) (s : State) : Result := .next (s.elapse dt).dropRecords

-- handover and unpairing (R347, R349, R354)

/-- The device leaves the pair: UNPAIR while the ports are usable, the grant released, mirrors discarded, and the twin ports
start over for ordinary use. -/
def State.unpairNow (s : State) : State :=
  let s := (s.sendTwin 5).releaseGrant
  let s := s.twin.mirrors.foldl (fun s m => s.dropMirror m.ckpt.stream) s
  let s := (s.releaseLog.twinSet .solo).setVal 0x2200 1 0
  let s := { s with
    twin := { s.twin with
      partnerKey := [], usable := [], miscabled := [], delays := [], partnerNonce := [], answered := false, records := []
      probeAt := none, goodSince := none, misses := 0, partnerFree := none, relayCounter := none, handover := 0 }
    time := { s.time with twinBeyond := none } }
  let s := (s.setVal 0x2100 9 0).setVal 0x2201 2 0
  let s := forRange 8 s (fun s i =>
    if (s.unit (portRef (120 + i))).works then (s.portOut (120 + i) .starting).portStart (120 + i) else s)
  s.advance

/-- UNPAIR, or FALSE in Pair Enable: in every twin state but SOLO and SELF_FENCED. -/
def State.unpairAct (s : State) : Nat × State :=
  if s.twin.st = .solo || s.twin.st = .selfFenced then refuse abState s else accept s.unpairNow
def execUnpair (dt : Nat) (road : Road) (s : State) : Result :=
  .next ((s.elapse dt).writeRow road 0x2202 1 [1] State.unpairAct)

/-- UNPAIR_RECEIVED: a partner that leaves. -/
def execUnpairReceived (dt : Nat) (port : Fin 8) (frame : TwinFrame) (s : State) : Result :=
  .next ((s.elapse dt).onTwinPort port 5 frame (fun s => (State.unpairAct s).2))

/-- HANDOVER: in PAIRED, unless one is under way. -/
def State.handoverAct (s : State) : Nat × State :=
  if s.twin.st = .paired && s.twin.handover = 0 then accept ((s.beginHandover false).onHandover) else refuse abState s
def execHandover (dt : Nat) (road : Road) (s : State) : Result :=
  .next ((s.elapse dt).writeRow road 0x2202 1 [2] State.handoverAct)

/-- Pair Enable (R327, R349). -/
def State.pairEnableAct (v : Nat) (s : State) : Nat × State :=
  if v = 0 then State.unpairAct s
  else if s.twin.st != .solo then accept s
  else if s.mayPair then accept ((s.setVal 0x2200 1 1).enterForming)
  else refuse abState s
def execPairEnable (dt : Nat) (road : Road) (value : BitVec 8) (s : State) : Result :=
  .next ((s.elapse dt).writeRow road 0x2200 1 [value] (State.pairEnableAct value.toNat))

/-- Twin Command by its value. -/
def State.twinCommandAct (v : Nat) (s : State) : Nat × State :=
  if v = 1 then State.unpairAct s else if v = 2 then State.handoverAct s else refuse abRange s

/-- A write of the twin configuration (R327, R354). -/
def State.twinConfigAct (sub v : Nat) (s : State) : Nat × State :=
  if sub = 1 then State.pairEnableAct v s
  else if 2 ≤ sub && sub ≤ 6 && !(s.twin.st = .solo || s.twin.st = .degraded) then refuse abState s
  else store 0x2200 sub v s

end Sys2Proof.Machine
end

