-- ==== Sys2Proof/Machine/Server.lean ====
section
/-! DEFINITION. The dictionary server: what a write of each entry does, the rules over two entries, and the resynchronisation
summary with the pin table (R89, R252, R315, R326, R354, R380 to R398). -/

namespace Sys2Proof.Machine

-- Run Command (R393)

/-- Run Command by its value. -/
def State.runCommandAct (v : Nat) (s : State) : Nat × State :=
  if v = 1 then s.startAct
  else if v = 2 then s.stopAct
  else if v = 3 then s.safeAct
  else if v = 4 then s.clearAct
  else if v = 5 then s.shutdownAct
  else s.coldResetAct

-- policy pins (R395)

/-- Fields of a pin entry. -/
def pinTag (e : Nat) : Nat := e % 16384
def pinJob (e : Nat) : Nat := e / 65536 % 256
def pinPlace (e : Nat) : Nat := e / 2 ^ 24 % 4
def pinK (e : Nat) : Nat := e / 2 ^ 26 % 8

/-- The layer that a pin names, in its job's layer table. -/
def State.pinLayer (s : State) (e : Nat) : Option Layer :=
  (s.job (pinJob e)).layers.find? (fun l => l.tag = pinTag e && !l.extra)

/-- A pin entry by itself: no reserved field, a slot that holds a job, a tag of its layer table. -/
def State.pinOk (s : State) (e : Nat) : Bool :=
  let st := (s.job (pinJob e)).st
  e / 16384 % 4 = 0 && pinJob e < 8 && pinK e ≤ 4 && e / 2 ^ 29 = 0 &&
  !(st = .free || st = .loading || st = .unloading) && (s.pinLayer e).isSome

/-- PIN_TABLE_WRITE: the whole table, or nothing. -/
def State.pinAct (data : List Byte) (s : State) : Nat × State :=
  let l := (List.range (data.length / 4)).map (fun i => field data (4 * i) 4)
  if data.length % 4 != 0 || 4096 < data.length then refuse abLength s
  else if !l.all s.pinOk || !((l.map (fun e => (pinJob e, pinTag e))).Nodup : Bool) then refuse abRange s
  else if l.any (fun e => pinPlace e != 0 && (s.pinLayer e).any (fun y => y.pin != 0)) then refuse abStore s
  else accept { s with pins := l }

def execPinTableWrite (dt : Nat) (road : Road) (data : List Byte) (s : State) : Result :=
  .next ((s.elapse dt).writeRow road 0x2020 1 data (State.pinAct data))

-- resynchronisation (R396, R397)

/-- RESYNCHRONISE: the snapshot time is the arrival + 50 us, rounded up to the whole us; an assembly under way is abandoned. -/
def State.resyncAct (m token : Nat) (s : State) : Nat × State :=
  if token = 0 then refuse abRange s
  else
    let t := ceilDiv (s.clock.now + 50 * usPs) usPs * 1000
    accept { s with summaries := tmod s.summaries (m - 1) (fun x => { x with request := some (token, t), latched := none }) }

def execResynchronise (dt : Nat) (road : Road) (token : BitVec 32) (s : State) : Result :=
  .next ((s.elapse dt).writeRow road 0x2010 1 (leBytes 4 token.toNat)
    (State.resyncAct (viaOf road 0x2010 1).master token.toNat))

/-- Every unit in the order of section 5. -/
def summaryUnits : List Nat :=
  (List.range 16).map coreRef ++ [3, 4, 5, 6].flatMap (fun k => (List.range 16).map (digitalRef k)) ++
  (List.range 16).map coprocRef ++
  (List.range 16).flatMap (fun c => (List.range 34).map (engineRef c)) ++ (List.range 128).map portRef ++
  (List.range 20).map stackRef ++ (List.range 8).map cartRef ++ (List.range 2).map hostRef

/-- Section 1: a job slot. -/
def State.summaryJob (s : State) (j : Nat) : List Byte :=
  let x := s.job j
  let active := (s.streams.filter (fun c => c.1 < 65536 && c.2.st = .active && c.2.job = j)).length
  leBytes 1 x.st.code ++ leBytes 1 x.priority ++ leBytes 2 x.mask ++ leBytes 4 active ++ leBytes 8 x.stepNo

/-- Section 4: a ring. -/
def Ring.summary (r : Ring) : List Byte := if r.enabled then leBytes 2 r.head ++ leBytes 2 r.tail else [0, 0, 0, 0]

/-- Section 8: an entry of the alarm table. -/
def Alarm.summary (a : Alarm) : List Byte :=
  if a.st = 1 then leBytes 4 a.source ++ leBytes 2 a.code ++ leBytes 2 (min a.count 65535) else leBytes 8 0

/-- The record of 10,992 bytes for a token, at its snapshot time. -/
def State.summary (s : State) (token t : Nat) : List Byte :=
  let states : List StreamSt := [.free, .queued, .active, .idle, .restoring, .closing, .failed]
  leBytes 4 0x10000 ++ leBytes 4 10992 ++ leBytes 4 token ++ leBytes 4 0 ++ timeBytes (t * 1000) ++
  leBytes 1 s.run.st.code ++ leBytes 1 s.time.lock.code ++ leBytes 1 s.twin.st.code ++ leBytes 1 s.epoch.st.code ++
  leBytes 2 (s.val 0x2002 1) ++ leBytes 2 s.mixedUnits.length ++ leBytes 1 (s.sched.running.getD 0xFF) ++
  leBytes 1 (s.val 0x3120 1) ++ leBytes 1 s.security.booted ++ [0] ++ leBytes 4 s.streamsInUse ++
  leBytes 4 (s.countStreams .queued) ++ leBytes 2 s.sched.launches.length ++ leBytes 2 s.openAlarms ++ leBytes 12 0 ++
  table 4 [96, 224, 256, 304, 432, 1232, 1776, 2800] ++
  (List.range 8).flatMap s.summaryJob ++
  table 4 (states.map (fun st => if st = .free then 65536 - s.streamsInUse else s.countStreams st)) ++ leBytes 4 0 ++
  table 8 ((List.range 5).map (tget s.events.lastOf)) ++ leBytes 8 0 ++
  (List.range 2).flatMap (fun p => (List.range 16).flatMap (fun r => (s.ring p r).summary)) ++
  table 1 (summaryUnits.map (fun r => UnitSt.code (s.unit r))) ++ leBytes 2 0 ++
  (List.range 16).flatMap (fun c => (List.range 34).map (fun e =>
    let g := s.eng c e
    BitVec.ofNat 8 ((g.plane (g.planeOf 0)).st.code + 16 * (g.plane (g.planeOf 1)).st.code))) ++
  table 4 (padTo 256 0 s.mixedUnits) ++
  (List.range 1024).flatMap (fun i => (tget s.events.alarms i).summary)

/-- SUMMARY_SNAPSHOT: at the snapshot time of a request under way. -/
def State.snapshotSummary (s : State) (k : Nat) : State :=
  let x := tget s.summaries k
  match x.request with
  | some (token, t) =>
    if x.latched.isSome || s.ns < t then s
    else { s with summaries := tmod s.summaries k (fun x => { x with latched := some (s.summary token t) }) }
  | none => s
def execSummarySnapshot (dt : Nat) (master : Fin 3) (s : State) : Result := .next ((s.elapse dt).snapshotSummary master)

/-- SUMMARY_READY: the record replaces the master's summary, with its token. -/
def State.readySummary (s : State) (k : Nat) : State :=
  let x := tget s.summaries k
  match x.request, x.latched with
  | some (token, _), some b => { s with summaries := tset s.summaries k { held := b, ready := token } }
  | _, _ => s
def execSummaryReady (dt : Nat) (master : Fin 3) (s : State) : Result := .next ((s.elapse dt).readySummary master)

-- entries whose value alone counts

/-- What the range of a plain entry says beyond its row. -/
def plainOk (index sub v : Nat) : Bool :=
  let byte (i : Nat) : Nat := v / 2 ^ (8 * i) % 256
  if index = 0x2300 && sub = 6 then (List.range 64).all (fun i => byte i < 8)
  else if index = 0x2300 && sub = 7 then v < 64
  else if index = 0x2300 && sub = 9 then (List.range 6).all (fun i => 1 ≤ byte i && byte i ≤ 127)
  else if index = 0x7004 then v < 2048 || v = 0xFFFF
  else if index = 0x2002 && sub = 3 then timeValid v
  else true

/-- Policy Enable turned on: each layer's counts start anew (R85). -/
def State.policyAct (v : Nat) (s : State) : Nat × State :=
  let on := v = 1 && s.val 0x4008 6 = 0
  let s := s.setVal 0x4008 6 v
  accept (if on then forRange 8 s (fun s j => s.modJob j (fun x => { x with
    layers := x.layers.map (fun (l : Layer) => { l with windows := 0, splits := 0, lowRuns := 0 }) })) else s)

def State.plainAct (index sub v : Nat) (s : State) : Nat × State :=
  if plainOk index sub v then store index sub v s else refuse abRange s

-- writes by chapter

/-- Control, time and twin: 0x2000 to 0x22FF. -/
def State.controlAct (m : Nat) (coe : Bool) (index sub : Nat) (data : List Byte) (s : State) : Nat × State :=
  let v := leNat data
  if index = 0x2000 then s.runCommandAct v
  else if index = 0x2002 && sub = 5 then s.epochCommandAct v
  else if index = 0x2010 then s.resyncAct m v
  else if index = 0x2012 && sub = 1 then accept { s with selects := tset s.selects m v }
  else if index = 0x2012 then s.writeStreamUser m v
  else if index = 0x2020 then s.pinAct data
  else if index = 0x2101 && sub ≤ 3 then s.sourceEnableAct sub v
  else if index = 0x2104 then s.dcEpochAct v
  else if index = 0x2105 && sub = 3 then s.timeOfDayAct v
  else if index = 0x2200 then s.twinConfigAct sub v
  else if index = 0x2202 && sub = 1 then s.twinCommandAct v
  else if index = 0x2202 then s.partnerStatusAct coe v
  else s.plainAct index sub v

/-- Fabric and host ports: 0x2300 to 0x25FF. -/
def State.networkAct (index sub : Nat) (data : List Byte) (s : State) : Nat × State :=
  let v := leNat data
  if index = 0x2300 && sub = 4 then s.routeTableAct data
  else if index = 0x2300 && sub = 5 then s.ecmpGroupsAct data
  else if index = 0x2300 && sub = 0x16 then s.portCommandAct v
  else if 0x2500 ≤ index && sub = 6 then s.apertureAct (index - 0x2500) v
  else s.plainAct index sub v

/-- Access tables and security: 0x3000 to 0x3FFF. -/
def State.securityAct (index sub : Nat) (data : List Byte) (s : State) : Nat × State :=
  let v := leNat data
  if isPeer index sub then s.peerPut index sub v
  else if isGrant index sub then s.grantPut index sub v
  else if index = 0x3100 && sub = 8 then s.trialConfirmAct v
  else if index = 0x3100 && sub = 0xA then s.commitAct v
  else if index = 0x3100 && sub = 0xC then s.microcodeAct v
  else if index = 0x3111 then s.nonceAct data
  else if index = 0x3120 then s.lockAct v
  else s.plainAct index sub v

/-- Loops and converters: 0x6100 to 0x64FF. -/
def State.analogAct (index sub : Nat) (data : List Byte) (s : State) : Nat × State :=
  let v := leNat data
  let c := index % 256
  if isEpochEntry index sub then s.stageAct index sub v
  else if index < 0x6200 then
    if sub = 2 then s.loopCommandAct c v
    else if sub = 4 then s.loopConfigAct c data
    else if sub = 7 then s.coefficientAct c data
    else if sub = 0xC then s.injectionAct c data
    else s.loopValueAct c sub v
  else if index < 0x6300 then
    if sub = 3 then s.channelConfigAct c data
    else if sub = 5 then s.channelWriteAct c data
    else if sub = 6 then s.armCommandAct c v
    else if sub = 8 then s.groupStrobeAct c v
    else s.queueWriteAct c data
  else if index < 0x6400 then (if sub = 6 then s.wheelSelectAct c v else s.wheelAct c v)
  else s.generatorAct c data

/-- What a write of an entry does once its own checks have let it through. The rules over several entries come after it. -/
def State.act (m : Nat) (coe : Bool) (index sub : Nat) (data : List Byte) (s : State) : Nat × State :=
  let v := leNat data
  if index < 0x2300 then s.controlAct m coe index sub data
  else if index < 0x3000 then s.networkAct index sub data
  else if index < 0x4000 then s.securityAct index sub data
  else if index = 0x4000 then s.powerCapAct v
  else if index = 0x4004 then s.repairCommandAct data
  else if index = 0x4008 && sub = 6 then s.policyAct v
  else if index = 0x6002 && sub = 2 then s.reinstateAct v (s.sensor v).selfCheckOk
  else if 0x6100 ≤ index && index < 0x7000 then s.analogAct index sub data
  else if index = 0x7001 then s.acknowledgeAct v
  else s.plainAct index sub v

-- rules over two entries and over the reserved buffer space (R89, R252, R315, R326, R354)

/-- What an entry just written is held to, in the state that the write leaves. -/
def State.pairRule (t : State) (index sub : Nat) : Bool :=
  if index = 0x4008 && (sub = 1 || sub = 2) then t.val 0x4008 2 < t.val 0x4008 1
  else if index = 0x4010 && (sub = 2 || sub = 3) then t.val 0x4010 2 < t.val 0x4010 3
  else if index = 0x2300 && sub = 0xD then t.val 0x2300 0xC < t.val 0x2300 0xD
  else if (index = 0x2300 && (sub = 7 || sub = 0xA)) || (0x2400 ≤ index && index < 0x2480 && (sub = 2 || sub = 4)) then
    t.reserved ≤ reserveLimit
  else if index = 0x2200 && (sub = 7 || sub = 9) then 2 * t.val 0x2200 7 + 20 ≤ t.val 0x2200 9
  else true

/-- What stands against a transfer that has made `t` of `s`, at one of its entries: an abort and the state after the refusal. -/
def State.ruleRefuses (s t : State) (m index sub : Nat) : Option (Nat × State) :=
  let f := s.tableRule t index sub
  if f.1 != 0 then some (f.1, if f.2 then s.deny (some m) (odKey index sub) 0 else s)
  else if t.pairRule index sub then none
  else some (abRange, s)

/-- A write of one entry. -/
def State.writeAct (m : Nat) (coe : Bool) (index sub : Nat) (data : List Byte) (s : State) : Nat × State :=
  let x := s.act m coe index sub data
  if x.1 != 0 then x else (s.ruleRefuses x.2 m index sub).getD x

-- complete access (R382)

/-- Sub-indices of an object from one on. -/
def subsFrom (index start : Nat) : List Nat :=
  ((List.range 256).filter (fun k => start ≤ k && (odRow index k).isSome))

/-- An object has a Highest Sub-index; 0x1000 to 0x100A hold one value. -/
def isRecord (index : Nat) : Bool := 0x1010 ≤ index

/-- The data of a transfer cut at its entries: sub-index 0 takes two bytes, an entry of variable size all that is left. -/
def cutEntries (index : Nat) : List Nat → List Byte → Option (List (Nat × List Byte))
  | [], d => if d.isEmpty then some [] else none
  | k :: ks, d =>
    if d.isEmpty then some []
    else
      let n := if k = 0 && isRecord index then 2 else ((odRow index k).map (fun r => r.bytes)).getD 0
      if n = 0 then some [(k, d)]
      else if d.length < n then none
      else (cutEntries index ks (d.drop n)).map (fun l => (k, d.take n) :: l)

/-- One entry of a transfer, checked against the state before it and applied to what the entries before it have made. -/
def State.completePut (s0 : State) (v : Via) (index : Nat) (acc : Option (Nat × State) × State) (x : Nat × List Byte) :
    Option (Nat × State) × State :=
  if acc.1.isSome then acc
  else if x.1 = 0 && isRecord index then
    (if leNat x.2 = odDefault (odKey index 0) then acc else (some (abRange, s0), acc.2))
  else
    let g := s0.writeGate v index x.1 x.2
    if g.1 != 0 then (some g, acc.2)
    else
      let y := acc.2.act v.master (v == .coe) index x.1 x.2
      if y.1 = 0 then (none, y.2)
      else
        let z := s0.act v.master (v == .coe) index x.1 x.2
        (some (y.1, if z.1 = 0 then s0 else z.2), acc.2)

/-- A complete-access write: all of it, or none with the abort of the first sub-index that fails. -/
def State.completeWrite (v : Via) (index start : Nat) (data : List Byte) (s : State) : Nat × State :=
  if !odIndexExists index then (abIndex, s)
  else if (odRow index start).isNone then (abSub, s)
  else
    match cutEntries index (subsFrom index start) data with
    | none => (abLength, s)
    | some [] => (abLength, s)
    | some l =>
      let r := l.foldl (s.completePut v index) (none, s)
      match r.1 with
      | some f => f
      | none => ((l.filterMap (fun x => s.ruleRefuses r.2 v.master index x.1)).head?).getD (0, r.2)

-- reads (R380)

/-- A read has let an entry go: an rc value is 0, a fetch moves the cursor. -/
def State.clearRead (s : State) (m index sub : Nat) : State :=
  if index = 0x7003 && 1 ≤ sub && sub ≤ 3 then s.advanceCursor m
  else if (odRow index sub).any (fun r => r.acc = 4) then s.setVal index sub 0
  else s

/-- The bytes of an entry as a master reads it now. -/
def State.readBytes (s : State) (m index sub : Nat) : List Byte :=
  if index = 0x7003 && 1 ≤ sub && sub ≤ 3 then s.fetchBytes m else s.entryBytes m index sub

/-- A read of one entry: an abort, the state and the bytes. -/
def State.readEntry (v : Via) (index sub : Nat) (s : State) : Nat × State × List Byte :=
  let g := s.readGate v index sub
  if g.1 != 0 then (g.1, g.2, [])
  else (0, g.2.clearRead v.master index sub, g.2.readBytes v.master index sub)

/-- One entry of a complete-access read. -/
def State.completeGet (s0 : State) (v : Via) (index : Nat) (acc : Option (Nat × State) × List Byte) (k : Nat) :
    Option (Nat × State) × List Byte :=
  if acc.1.isSome then acc
  else
    let g := s0.readGate v index k
    let n := ((odRow index k).map (fun r => r.bytes)).getD 0
    if g.1 = abReadWo then (none, acc.2 ++ List.replicate n 0)
    else if g.1 != 0 then (some g, [])
    else (none, acc.2 ++ s0.readBytes v.master index k ++ (if k = 0 && isRecord index then [0] else []))

/-- A complete-access read: one snapshot from a sub-index on, every rc entry of it cleared. -/
def State.completeRead (v : Via) (index start : Nat) (s : State) : Nat × State × List Byte :=
  if !odIndexExists index then (abIndex, s, [])
  else if (odRow index start).isNone then (abSub, s, [])
  else
    let subs := subsFrom index start
    match subs.foldl (s.completeGet v index) (none, []) with
    | (some f, _) => (f.1, f.2, [])
    | (none, bs) => (0, subs.foldl (fun s k => s.clearRead v.master index k) s, bs)

end Sys2Proof.Machine
end

