-- ==== Sys2Proof/Machine/Window.lean ====
section
/-! DEFINITION. The roads of the dictionary: SDO transfers and SDO Information, the direct map and the access blocks of the host
ports, halves of 64-bit values, the TxPDO and the AL state (R370, R373 to R375, R378 to R382, R386 to R390). -/

namespace Sys2Proof.Machine

-- objects of the slave controller (R374, R378)

/-- The communication objects, and the mapping of the TxPDO: index, sub-index and bits. -/
def commObject (index : Nat) : Bool := index ∈ [0x1A00, 0x1C00, 0x1C13, 0x1C33]
def txpdoMap : List (Nat × Nat × Nat) :=
  [(0x2202, 2, 32), (0x2000, 1, 8), (0x2201, 1, 8), (0x2100, 1, 8), (0x2003, 1, 8), (0x2002, 1, 16), (0x2000, 5, 16),
   (0x4012, 0xC, 32)]

/-- A value of a communication object. The layout of the CoE profile is PRESUMED: sync managers 0 to 3 are mailbox out, mailbox in,
unused and inputs; 0x1C33 holds sync type, cycle time, the types supported and the least cycle time. -/
def State.commValue (s : State) (index sub : Nat) : Option (List Byte) :=
  if index = 0x1A00 then
    (if sub = 0 then some [8] else (txpdoMap[sub - 1]?).map (fun e => leBytes 4 (e.1 * 65536 + e.2.1 * 256 + e.2.2)))
  else if index = 0x1C00 then (if sub = 0 then some [4] else ([1, 2, 0, 4] : List Nat)[sub - 1]?.map (leBytes 1))
  else if index = 0x1C13 then (if sub = 0 then some [1] else if sub = 1 then some (leBytes 2 0x1A00) else none)
  else if sub = 0 then some [5]
  else if sub = 1 then some (leBytes 2 (s.sm3 % 65536))
  else if sub = 2 then some (leBytes 4 (s.sm3 / 65536))
  else if sub = 4 then some (leBytes 2 5)
  else if sub = 5 then some (leBytes 4 125000)
  else none

/-- A write of a communication object: sync type (free run or SYNC0) and cycle time in ns, in AL PREOP; everything else is
read-only. -/
def State.commWrite (index sub : Nat) (data : List Byte) (s : State) : Nat × State :=
  let v := leNat data
  if s.run.st = .boot then (abRunState, s)
  else
    match s.commValue index sub with
    | none => (abSub, s)
    | some old =>
      if index != 0x1C33 || !(sub = 1 || sub = 2) then (abReadOnly, s)
      else if data.length != old.length then (abLength, s)
      else if s.al != 1 then (abState, s)
      else if sub = 1 then (if v = 0 || v = 2 then (0, { s with sm3 := s.sm3 / 65536 * 65536 + v }) else (abRange, s))
      else if 125000 ≤ v && v ≤ 10000000 then (0, { s with sm3 := s.sm3 % 65536 + v * 65536 })
      else (abRange, s)

/-- A read of one: an abort and the bytes. -/
def State.commRead (s : State) (index sub : Nat) : Nat × List Byte :=
  if s.run.st = .boot then (abRunState, [])
  else
    match s.commValue index sub with
    | none => (abSub, [])
    | some b => (0, b)

-- SDO (R373, R381, R382)

/-- A write over CoE, to the slave controller's objects or the dictionary. -/
def State.sdoWrite (s : State) (index sub : Nat) (data : List Byte) : State :=
  if commObject index then
    (if s.hears .coe then
      let x := s.commWrite index sub data
      x.2.reply .coe index sub x.1
    else s)
  else s.writeVia .coe index sub data (State.writeAct 1 true index sub data)

/-- Data bytes that one mailbox of 1,024 bytes carries in a response, and in a segment (PRESUMED: the headers of CoE). -/
def sdoFirst : Nat := 1008
def sdoNext : Nat := 1015

/-- What was read goes out: at once where one mailbox holds it, else the rest waits for segments. -/
def State.sdoSend (s : State) (index sub : Nat) (complete : Bool) (bs : List Byte) : State :=
  let s := s.emit (.sdo index sub (bs.take sdoFirst))
  if bs.length ≤ sdoFirst then s
  else { s with sdo := some { index := index, sub := sub, complete := complete, data := bs.drop sdoFirst, at_ := s.up } }

/-- A read over CoE, of one entry or of an object from a sub-index on. -/
def State.sdoRead (s : State) (index sub : Nat) (complete : Bool) : State :=
  if !s.hears .coe then s
  else if commObject index then
    let x := s.commRead index sub
    if x.1 = 0 then s.sdoSend index sub complete x.2 else s.emit (.sdoAbort x.1)
  else
    let x := if complete then s.completeRead .coe index sub else s.readEntry .coe index sub
    if x.1 = 0 then x.2.1.sdoSend index sub complete x.2.2 else x.2.1.emit (.sdoAbort x.1)

/-- A write whose segments have all arrived. -/
def State.sdoFinish (s : State) (t : Sdo) (data : List Byte) : State :=
  let s := { s with sdo := none }
  if t.complete && !commObject t.index then
    let x := s.completeWrite .coe t.index t.sub data
    x.2.reply .coe t.index t.sub x.1
  else s.sdoWrite t.index t.sub data

/-- A request that opens a segmented transfer, with what it carries of a write. -/
def State.sdoOpen (s : State) (r : SdoStart) (last : Bool) (data : List Byte) : State :=
  if !s.hears .coe then s
  else
    let t : Sdo := { index := r.index.toNat, sub := r.sub.toNat, complete := r.complete, write := true, data := data, at_ := s.up }
    if !r.write then ({ s with sdo := none } : State).sdoRead t.index t.sub t.complete
    else if last then s.sdoFinish t data
    else ({ s with sdo := some t } : State).emit (.sdo t.index t.sub [])

/-- A segment of the transfer in progress: its toggle must alternate. -/
def State.sdoGo (s : State) (t : Sdo) (toggle last : Bool) (data : List Byte) : State :=
  if toggle != t.toggle then ({ s with sdo := none } : State).emit (.sdoAbort abToggle)
  else if t.write then
    (if last then s.sdoFinish t (t.data ++ data)
     else ({ s with sdo := some { t with toggle := !t.toggle, data := t.data ++ data, at_ := s.up } } : State).emit
       (.sdo t.index t.sub []))
  else
    let rest := t.data.drop sdoNext
    ({ s with sdo := if rest.isEmpty then none else some { t with toggle := !t.toggle, data := rest, at_ := s.up } } : State).emit
      (.sdo t.index t.sub (t.data.take sdoNext))

/-- SDO_SEGMENT: the request that opens a transfer where `start` says so, else the next segment of the one in progress. -/
def execSdoSegment (dt : Nat) (start : Option SdoStart) (toggle last : Bool) (data : List Byte) (s : State) : Result :=
  let s := s.elapse dt
  .next (match start with
    | some r => s.sdoOpen r last data
    | none =>
      match s.sdo with
      | some t => if s.hears .coe then s.sdoGo t toggle last data else s
      | none => s)

/-- SDO_SEGMENT_TIMEOUT: idle for more than 1 s. -/
def execSdoSegmentTimeout (dt : Nat) (s : State) : Result :=
  let s := s.elapse dt
  .next (match s.sdo with
    | some t => if t.at_ + sPs < s.up then ({ s with sdo := none } : State).emit (.sdoAbort abIdle) else s
    | none => s)

/-- The indices of the dictionary, for SDO Information. -/
def objectList : List Nat :=
  ((List.range 0x6011).map (· + 0x1000)).filter (fun i => odIndexExists i || commObject i)

/-- SDO_INFORMATION: 0 the object list, 1 an object's description, 2 an entry's. The forms are PRESUMED from CoE; names are left
out (log entry 21). -/
def State.sdoInformation (s : State) (request index sub : Nat) : State :=
  if !s.hears .coe then s
  else if s.run.st = .boot then s.emit (.sdoAbort abRunState)
  else if request = 0 then s.emit (.sdo 0 0 (table 2 objectList))
  else if !(odIndexExists index || commObject index) then s.emit (.sdoAbort abIndex)
  else if request = 1 then
    let top := (subsFrom index 0).getLast?.getD 0
    let ty := ((odRow index (if isRecord index then top else 0)).map (fun r => r.ty)).getD 7
    s.emit (.sdo index 0 (leBytes 2 index ++ leBytes 2 ty ++ leBytes 1 top ++ leBytes 1 (if isRecord index then 9 else 7)))
  else
    match odRow index sub with
    | some r =>
      let may (k : Bool) (w : Nat) : Nat := if k then w else 0
      let access := may (r.acc != 2) 7 + may (r.acc = 1 || r.acc = 2) 0x38
      s.emit (.sdo index sub (leBytes 2 index ++ leBytes 1 sub ++ [0] ++ leBytes 2 r.ty ++ leBytes 2 (8 * r.bytes) ++ leBytes 2 access))
    | none => s.emit (.sdoAbort abSub)

def execSdoInformation (dt : Nat) (request : Fin 3) (index : BitVec 16) (sub : BitVec 8) (s : State) : Result :=
  .next ((s.elapse dt).sdoInformation request index.toNat sub.toNat)

-- process data and the AL state (R373, R378)

/-- TXPDO_SAMPLE: the fields at one instant, from AL SAFEOP on. -/
def execTxpdoSample (dt : Nat) (s : State) : Result :=
  let s := s.elapse dt
  .next (if s.run.st = .off || s.al < 2 then s
    else s.emit (.txpdo (txpdoMap.flatMap (fun e => padTo (e.2.2 / 8) 0 (s.stored 0 e.1 e.2.1)))))

/-- AL_STATE_CHANGE: the AL state alone; in INIT there is no mailbox, so a transfer in progress is gone. -/
def execAlStateChange (dt : Nat) (al : Fin 4) (s : State) : Result :=
  let s := s.elapse dt
  .next (if s.run.st = .off then s else { s with al := al, sdo := if al = 0 then none else s.sdo })

-- access blocks (R389, R390)

/-- Bytes of the DATA buffer. -/
def bufferBytes : Nat := 508 * 1024

/-- Bytes put into DATA from an offset on. -/
def HostPort.putData (h : HostPort) (off : Nat) (bs : List Byte) : HostPort :=
  { h with data := padTo off 0 h.data ++ bs ++ h.data.drop (off + bs.length) }

/-- What a read command returned: LENGTH, DATA and the outcome. -/
def State.blockAnswer (s : State) (p abort : Nat) (bs : List Byte) : State :=
  s.modHost p (fun h =>
    let h := { h with error := abort != 0, abort := abort }
    if abort != 0 then h else { (h.putData 0 bs) with length := bs.length })

/-- A COMMAND. It is served at once, so that BUSY is never seen set (R390). -/
def State.blockCommand (s : State) (p index sub : Nat) (write complete : Bool) (reserved : Nat) : State :=
  let v : Via := .block p
  if reserved != 0 then s.blockAnswer p abSub []
  else if write then
    let h := s.host p
    if bufferBytes < h.length then s.blockAnswer p abLength []
    else
      let data := padTo h.length 0 h.data
      if complete then
        let x := s.completeWrite v index sub data
        x.2.reply v index sub x.1
      else s.writeVia v index sub data (State.writeAct (2 + p) false index sub data)
  else
    let x := if complete then s.completeRead v index sub else s.readEntry v index sub
    x.2.1.blockAnswer p x.1 x.2.2

/-- A host fills DATA and LENGTH and writes COMMAND. -/
def State.blockWrite (s : State) (p index sub : Nat) (complete : Bool) (reserved : Nat) (data : List Byte) : State :=
  if !s.hears (.block p) then s
  else
    let s := (s.dropLow p).modHost p (fun h => { (h.putData 0 (data.take bufferBytes)) with length := data.length })
    s.blockCommand p index sub true complete reserved
def State.blockRead (s : State) (p index sub : Nat) (complete : Bool) (reserved : Nat) : State :=
  if !s.hears (.block p) then s else (s.dropLow p).blockCommand p index sub false complete reserved

def execAccessBlockRead (dt : Nat) (port : Fin 2) (index : BitVec 16) (sub : BitVec 8) (reserved : BitVec 6) (s : State) : Result :=
  .next ((s.elapse dt).blockRead port index.toNat sub.toNat false reserved.toNat)
def execAccessBlockWrite (dt : Nat) (port : Fin 2) (index : BitVec 16) (sub : BitVec 8) (reserved : BitVec 6) (data : List Byte)
    (s : State) : Result :=
  .next ((s.elapse dt).blockWrite port index.toNat sub.toNat false reserved.toNat data)
def execAccessBlockCompleteRead (dt : Nat) (port : Fin 2) (index : BitVec 16) (sub : BitVec 8) (reserved : BitVec 6) (s : State) :
    Result :=
  .next ((s.elapse dt).blockRead port index.toNat sub.toNat true reserved.toNat)
def execAccessBlockCompleteWrite (dt : Nat) (port : Fin 2) (index : BitVec 16) (sub : BitVec 8) (reserved : BitVec 6)
    (data : List Byte) (s : State) : Result :=
  .next ((s.elapse dt).blockWrite port index.toNat sub.toNat true reserved.toNat data)

-- the direct map (R386 to R388)

/-- The entry whose slot holds an offset of the window. -/
def slotEntry (off : Nat) : Option (Nat × Nat) :=
  let at_ (base first : Nat) : Option (Nat × Nat) := some (first + (off - base) / 0x800, off % 0x800 / 8)
  if off < 0x80000 then at_ 0 0x1000
  else if off < 0x380000 then at_ 0x80000 0x2000
  else if off < 0x480000 then at_ 0x380000 0x3000
  else if off < 0x500000 then at_ 0x480000 0x4000
  else if off < 0x800000 then at_ 0x500000 0x5000
  else if off < 0xE80000 then at_ 0x800000 0x5800
  else if off < 0xF00000 then at_ 0xE80000 0x7000
  else none

/-- A slot as a port reads it. `take` says that the read covers the entry itself, which clears an rc entry. -/
def State.slotRead (s : State) (p index sub : Nat) (take : Bool) : State × List Byte :=
  let v : Via := .direct p
  let g := s.readGate v index sub
  if g.1 = abAccess then (g.2, List.replicate 8 0xFF)
  else
    match odRow index sub with
    | none => (s, leBytes 8 0)
    | some r =>
      if !directType r.ty then (s, leBytes 8 (s.readBytes v.master index sub).length)
      else if r.acc = 2 then (s, leBytes 8 0)
      else (if take then s.clearRead v.master index sub else s, padTo 8 0 (s.readBytes v.master index sub))

/-- A write into the direct map. One that is not aligned to its slot has the wrong width (R387). -/
def State.slotWrite (s : State) (p off : Nat) (data : List Byte) : State :=
  match slotEntry off with
  | none => s
  | some (index, sub) =>
    let data := if off % 8 = 0 then data else []
    s.writeVia (.direct p) index sub data (State.writeAct (2 + p) false index sub data)

-- words of BAR0 (R357, R370)

/-- Base of a port's access block in the window. -/
def blockAt (p : Nat) : Nat := 0xF00000 + p * 0x80000

/-- A register of the port's own access block. -/
def HostPort.blockWord (h : HostPort) (o : Nat) : Nat :=
  if o = 4 then h.length
  else if o = 8 then (if h.error then 2 else 0)
  else if o = 0xC then h.abort
  else if o = 0x10 then h.refusalAbort
  else if o = 0x14 then h.refusalEntry
  else if o = 0x18 then h.refusedWrites % 2 ^ 32
  else if o = 0x1C then h.refusedWrites / 2 ^ 32
  else if 0x1000 ≤ o then field h.data (o - 0x1000) 4
  else 0

/-- A 64-bit value lies at an offset: an entry of 8 bytes, REFUSED_WRITES, USER of a context. -/
def wideAt (p base : Nat) : Bool :=
  base = blockAt p + 0x18 || (0x3000000 ≤ base && base < 0x3400000 && base % 64 = 56) ||
  (match slotEntry base with
   | some (i, k) => (odRow i k).any (fun r => r.ty = 0x15 || r.ty = 0x1B)
   | none => false)

/-- Bytes of the stream window: a read lies within one context (R536). -/
def State.streamWindow (s : State) (p o n : Nat) : State × List Byte :=
  let m := 2 + p
  let k := o / 64
  if s.mayReadStream m k then (s, s.streamBytes o n)
  else
    let bit := if (s.stream k).st ≠ .free ∧ (s.stream k).owner = m then rightR else rightAdmin
    (s.deny (some m) (0x300200000000 + o) (2 ^ bit), List.replicate n 0xFF)

/-- The 8 bytes at an aligned offset of BAR0. `take` as for a slot. -/
def State.bar0Read (s : State) (p base : Nat) (take : Bool) : State × List Byte :=
  if base < 0xF00000 then
    (match slotEntry base with
     | some (i, k) => s.slotRead p i k take
     | none => (s, leBytes 8 0))
  else if base < 0x1000000 then
    (if blockAt p ≤ base && base < blockAt p + 0x80000 then
      let h := s.host p
      (s, leBytes 4 (h.blockWord (base - blockAt p)) ++ leBytes 4 (h.blockWord (base - blockAt p + 4)))
    else (s.deny (some (2 + p)) (0x300000000000 + base) (2 ^ rightR), List.replicate 8 0xFF))
  else if 0x3000000 ≤ base && base < 0x3400000 then s.streamWindow p (base - 0x3000000) 8
  else (s, leBytes 4 (s.regRead p base) ++ leBytes 4 (s.regRead p (base + 4)))

/-- A port takes requests at an offset: those of the dictionary and stream windows once the dictionary is served. -/
def State.bar0Up (s : State) (p off : Nat) : Bool :=
  if off < 0x1000000 || (0x3000000 ≤ off && off < 0x3400000) then s.hears (.direct p) else s.busUp p

/-- LOW_HALF_READ: of a 64-bit value the high half of the same snapshot is captured; any other word is read as it stands. -/
def State.lowRead (s : State) (p off : Nat) : State :=
  if off % 8 != 0 || !s.bar0Up p off then s
  else
    let x := s.bar0Read p off true
    let s := if wideAt p off then x.1.modHost p (fun h => { h with readShadow := some (off, field x.2 4 4) }) else x.1
    s.emit (.busRead p (x.2.take 4))

/-- HIGH_HALF_READ: the capture if it is of this value, else a fresh high half, which clears nothing. -/
def State.highRead (s : State) (p off : Nat) : State :=
  if off % 8 != 4 || !s.bar0Up p off then s
  else
    let base := off - 4
    let fresh (s : State) : State :=
      let x := s.bar0Read p base false
      x.1.emit (.busRead p (x.2.drop 4))
    if !wideAt p base then fresh s
    else
      let s' := s.modHost p (fun h => { h with readShadow := none })
      match (s.host p).readShadow with
      | some (b, hi) => if b = base then s'.emit (.busRead p (leBytes 4 hi)) else fresh s'
      | none => fresh s'

def execLowHalfRead (dt : Nat) (port : Fin 2) (offset : BitVec 26) (s : State) : Result :=
  .next ((s.elapse dt).lowRead port offset.toNat)
def execHighHalfRead (dt : Nat) (port : Fin 2) (offset : BitVec 26) (s : State) : Result :=
  .next ((s.elapse dt).highRead port offset.toNat)

/-- A 32-bit write of the port's own access block: COMMAND, LENGTH and DATA take it. -/
def State.blockWordWrite (s : State) (p o v : Nat) : State :=
  if o = 0 then s.blockCommand p (v % 65536) (v / 65536 % 256) (bitOf v 24) (bitOf v 25) (v / 2 ^ 26)
  else if o = 4 then s.modHost p (fun h => { h with length := v })
  else if 0x1000 ≤ o then s.modHost p (fun h => h.putData (o - 0x1000) (leBytes 4 v))
  else s

/-- Bytes written at an offset of BAR0: one word, or a whole 64-bit value. -/
def State.bar0Write (s : State) (p off : Nat) (data : List Byte) : State :=
  if off < 0xF00000 then s.slotWrite p off data
  else if off < 0x1000000 then
    (if blockAt p ≤ off && off < blockAt p + 0x80000 then s.blockWordWrite p (off - blockAt p) (field data 0 4)
    else s.deny (some (2 + p)) (0x300000000000 + off) (2 ^ rightW))
  else if 0x3000000 ≤ off && off < 0x3400000 then
    (s.writeUser (2 + p) ((off - 0x3000000) / 64) ((off - 0x3000000) % 64) data).1
  else s.regWrite p off (field data 0 4)

/-- LOW_HALF_WRITE: of a 64-bit value that can be written in halves, held in the write shadow; any other word is written. -/
def State.lowWrite (s : State) (p off v : Nat) : State :=
  if off % 8 != 0 || !s.bar0Up p off then s
  else
    let s := s.dropLow p
    if wideAt p off && off != blockAt p + 0x18 then s.modHost p (fun h => { h with writeShadow := some (off, v) })
    else s.bar0Write p off (leBytes 4 v)

/-- HIGH_HALF_WRITE: both halves at once, where the low half of the same value is held. -/
def State.highWrite (s : State) (p off v : Nat) : State :=
  if off % 8 != 4 || !s.bar0Up p off then s
  else
    let base := off - 4
    match (s.host p).writeShadow with
    | some (b, lo) =>
      if b = base then (s.modHost p (fun h => { h with writeShadow := none })).bar0Write p base (leBytes 4 lo ++ leBytes 4 v)
      else (s.dropLow p).bar0Write p off (leBytes 4 v)
    | none => s.bar0Write p off (leBytes 4 v)

def execLowHalfWrite (dt : Nat) (port : Fin 2) (offset : BitVec 26) (value : BitVec 32) (s : State) : Result :=
  .next ((s.elapse dt).lowWrite port offset.toNat value.toNat)
def execHighHalfWrite (dt : Nat) (port : Fin 2) (offset : BitVec 26) (value : BitVec 32) (s : State) : Result :=
  .next ((s.elapse dt).highWrite port offset.toNat value.toNat)

-- single entries by either road (R380, R382)

/-- ENTRY_WRITE: over CoE, through a host's slot, or through its access block where the entry has no slot of its own. -/
def State.entryWrite (s : State) (road : Road) (index sub : Nat) (data : List Byte) : State :=
  match road with
  | .coe => s.sdoWrite index sub data
  | .host p =>
    match viaOf road index sub with
    | .block _ => s.blockWrite p index sub false 0 data
    | _ =>
      if s.hears (.direct p) then
        (s.dropLow p).writeVia (.direct p) index sub data (State.writeAct (2 + p) false index sub data)
      else s
def execEntryWrite (dt : Nat) (road : Road) (index : BitVec 16) (sub : BitVec 8) (data : List Byte) (s : State) : Result :=
  .next ((s.elapse dt).entryWrite road index.toNat sub.toNat data)

/-- RC_ENTRY_READ, and a read of any other entry: over CoE, from a host's slot, or through its access block. -/
def State.entryRead (s : State) (road : Road) (index sub : Nat) : State :=
  match road with
  | .coe => s.sdoRead index sub false
  | .host p =>
    match viaOf road index sub with
    | .block _ => s.blockRead p index sub false 0
    | _ =>
      if s.hears (.direct p) then
        let x := s.slotRead p index sub true
        x.1.emit (.busRead p x.2)
      else s
def execRcEntryRead (dt : Nat) (road : Road) (index : BitVec 16) (sub : BitVec 8) (s : State) : Result :=
  .next ((s.elapse dt).entryRead road index.toNat sub.toNat)

/-- EVENT_FETCH: a read of a master's own Event Fetch, which moves its cursor (R489, R493). -/
def execEventFetch (dt : Nat) (road : Road) (sub : BitVec 8) (s : State) : Result :=
  let s := s.elapse dt
  .next (if 1 ≤ sub.toNat && sub.toNat ≤ 3 then s.entryRead road 0x7003 sub.toNat else s)

end Sys2Proof.Machine
end

