-- ==== Sys2Proof/Machine/Dispatch.lean ====
section
/-! DEFINITION. What each command does: one arm per row of the opcode table, each a direct call of its meaning. -/

namespace Sys2Proof.Machine

def exec (i : Instr) (s : State) : Host.Outcome State Fault Refusal :=
  match i with
  | .governorLeverApply dt draw amount => Sys2Proof.Machine.execGovernorLeverApply dt draw amount s
  | .governorLeverRelease dt draw amount => Sys2Proof.Machine.execGovernorLeverRelease dt draw amount s
  | .powerCapUnmet dt draw => Sys2Proof.Machine.execPowerCapUnmet dt draw s
  | .powerCapWrite dt road watts => Sys2Proof.Machine.execPowerCapWrite dt road watts s
  | .alignerVector dt core => Sys2Proof.Machine.execAlignerVector dt core s
  | .windowOpen dt core eng => Sys2Proof.Machine.execWindowOpen dt core eng s
  | .windowDecision dt core eng charges gaps => Sys2Proof.Machine.execWindowDecision dt core eng charges gaps s
  | .vatUpdate dt core eng => Sys2Proof.Machine.execVatUpdate dt core eng s
  | .churnWrite dt core eng => Sys2Proof.Machine.execChurnWrite dt core eng s
  | .engineFaultStop dt core eng => Sys2Proof.Machine.execEngineFaultStop dt core eng s
  | .pulseRefLockLoss dt core => Sys2Proof.Machine.execPulseRefLockLoss dt core s
  | .pulseRefRelock dt core => Sys2Proof.Machine.execPulseRefRelock dt core s
  | .pulseRefUnlock dt core => Sys2Proof.Machine.execPulseRefUnlock dt core s
  | .calibrationWindow dt core eng => Sys2Proof.Machine.execCalibrationWindow dt core eng s
  | .calibrationComplete dt core eng measured => Sys2Proof.Machine.execCalibrationComplete dt core eng measured s
  | .coefficientsTakeEffect dt core eng => Sys2Proof.Machine.execCoefficientsTakeEffect dt core eng s
  | .calStale dt core eng => Sys2Proof.Machine.execCalStale dt core eng s
  | .headroomPolicyEval dt job tag => Sys2Proof.Machine.execHeadroomPolicyEval dt job tag s
  | .bankWrite dt core queue => Sys2Proof.Machine.execBankWrite dt core queue s
  | .bankWriteReset dt core eng => Sys2Proof.Machine.execBankWriteReset dt core eng s
  | .bankResetSurvey dt core eng highest => Sys2Proof.Machine.execBankResetSurvey dt core eng highest s
  | .bankColumnVerify dt core eng levels => Sys2Proof.Machine.execBankColumnVerify dt core eng levels s
  | .bankWriteFault dt core eng => Sys2Proof.Machine.execBankWriteFault dt core eng s
  | .bankSwap dt core queue => Sys2Proof.Machine.execBankSwap dt core queue s
  | .bankSwapApply dt core eng => Sys2Proof.Machine.execBankSwapApply dt core eng s
  | .driftRefreshDue dt core eng plane => Sys2Proof.Machine.execDriftRefreshDue dt core eng plane s
  | .refreshChunkStart dt core eng plane => Sys2Proof.Machine.execRefreshChunkStart dt core eng plane s
  | .refreshChunkEnd dt core eng plane averages finals => Sys2Proof.Machine.execRefreshChunkEnd dt core eng plane averages finals s
  | .instructionDecode dt core => Sys2Proof.Machine.execInstructionDecode dt core s
  | .instructionDispatch dt core op => Sys2Proof.Machine.execInstructionDispatch dt core op s
  | .instructionComplete dt core op => Sys2Proof.Machine.execInstructionComplete dt core op s
  | .nop dt core => Sys2Proof.Machine.execNop dt core s
  | .pathSel dt core => Sys2Proof.Machine.execPathSel dt core s
  | .endStep dt core => Sys2Proof.Machine.execEndStep dt core s
  | .launchAt dt core => Sys2Proof.Machine.execLaunchAt dt core s
  | .launchAtTime dt core => Sys2Proof.Machine.execLaunchAtTime dt core s
  | .signal dt core => Sys2Proof.Machine.execSignal dt core s
  | .wait dt core => Sys2Proof.Machine.execWait dt core s
  | .waitTimeout dt core => Sys2Proof.Machine.execWaitTimeout dt core s
  | .fence dt core => Sys2Proof.Machine.execFence dt core s
  | .pass dt core queue => Sys2Proof.Machine.execPass dt core queue s
  | .spill dt core queue => Sys2Proof.Machine.execSpill dt core queue s
  | .resume dt core queue => Sys2Proof.Machine.execResume dt core queue s
  | .drain dt core => Sys2Proof.Machine.execDrain dt core s
  | .drainRowRead dt core => Sys2Proof.Machine.execDrainRowRead dt core s
  | .drainRowWrite dt core => Sys2Proof.Machine.execDrainRowWrite dt core s
  | .skimVat dt core => Sys2Proof.Machine.execSkimVat dt core s
  | .skimStore dt core => Sys2Proof.Machine.execSkimStore dt core s
  | .skimLists dt core => Sys2Proof.Machine.execSkimLists dt core s
  | .tens dt core => Sys2Proof.Machine.execTens dt core s
  | .convert dt core => Sys2Proof.Machine.execConvert dt core s
  | .add dt core => Sys2Proof.Machine.execAdd dt core s
  | .mul dt core => Sys2Proof.Machine.execMul dt core s
  | .fma dt core => Sys2Proof.Machine.execFma dt core s
  | .scale dt core => Sys2Proof.Machine.execScale dt core s
  | .max dt core => Sys2Proof.Machine.execMax dt core s
  | .relu dt core => Sys2Proof.Machine.execRelu dt core s
  | .silu dt core => Sys2Proof.Machine.execSilu dt core s
  | .gelu dt core => Sys2Proof.Machine.execGelu dt core s
  | .exp dt core => Sys2Proof.Machine.execExp dt core s
  | .recip dt core => Sys2Proof.Machine.execRecip dt core s
  | .rsqrt dt core => Sys2Proof.Machine.execRsqrt dt core s
  | .softmax dt core => Sys2Proof.Machine.execSoftmax dt core s
  | .rmsnorm dt core => Sys2Proof.Machine.execRmsnorm dt core s
  | .layernorm dt core => Sys2Proof.Machine.execLayernorm dt core s
  | .rowmax dt core => Sys2Proof.Machine.execRowmax dt core s
  | .rowsum dt core => Sys2Proof.Machine.execRowsum dt core s
  | .sample dt core => Sys2Proof.Machine.execSample dt core s
  | .moveLocal dt core => Sys2Proof.Machine.execMoveLocal dt core s
  | .moveFabricWrite dt core => Sys2Proof.Machine.execMoveFabricWrite dt core s
  | .moveFabricRead dt core => Sys2Proof.Machine.execMoveFabricRead dt core s
  | .moveToHost dt core => Sys2Proof.Machine.execMoveToHost dt core s
  | .moveFromHost dt core data => Sys2Proof.Machine.execMoveFromHost dt core data s
  | .staggerRelease dt core op => Sys2Proof.Machine.execStaggerRelease dt core op s
  | .kvAppend dt core => Sys2Proof.Machine.execKvAppend dt core s
  | .kvGather dt core => Sys2Proof.Machine.execKvGather dt core s
  | .dmaTransactionIssue dt core op => Sys2Proof.Machine.execDmaTransactionIssue dt core op s
  | .dmaTransactionComplete dt core op doubleBit => Sys2Proof.Machine.execDmaTransactionComplete dt core op doubleBit s
  | .paceMeasure dt core monitors => Sys2Proof.Machine.execPaceMeasure dt core monitors s
  | .voltageStep dt core paceAtNext => Sys2Proof.Machine.execVoltageStep dt core paceAtNext s
  | .taggedDataArrival dt core job tag addr data => Sys2Proof.Machine.execTaggedDataArrival dt core job tag addr data s
  | .orphanLimit dt core => Sys2Proof.Machine.execOrphanLimit dt core s
  | .load dt => Sys2Proof.Machine.execLoad dt s
  | .loadComplete dt slot => Sys2Proof.Machine.execLoadComplete dt slot s
  | .unload dt => Sys2Proof.Machine.execUnload dt s
  | .unloadComplete dt slot => Sys2Proof.Machine.execUnloadComplete dt slot s
  | .hold dt => Sys2Proof.Machine.execHold dt s
  | .release dt => Sys2Proof.Machine.execRelease dt s
  | .firmware dt => Sys2Proof.Machine.execFirmware dt s
  | .attest dt => Sys2Proof.Machine.execAttest dt s
  | .qp dt => Sys2Proof.Machine.execQp dt s
  | .openStream dt => Sys2Proof.Machine.execOpenStream dt s
  | .extend dt hostData => Sys2Proof.Machine.execExtend dt hostData s
  | .resumeStream dt => Sys2Proof.Machine.execResumeStream dt s
  | .pause dt => Sys2Proof.Machine.execPause dt s
  | .close dt => Sys2Proof.Machine.execClose dt s
  | .streamFreed dt stream => Sys2Proof.Machine.execStreamFreed dt stream s
  | .streamUserWrite dt path stream offset data => Sys2Proof.Machine.execStreamUserWrite dt path stream offset data s
  | .busyShareInterval dt shares => Sys2Proof.Machine.execBusyShareInterval dt shares s
  | .stepForm dt entry tag => Sys2Proof.Machine.execStepForm dt entry tag s
  | .stepStart dt job => Sys2Proof.Machine.execStepStart dt job s
  | .stepEnd dt job sampled pauseShare => Sys2Proof.Machine.execStepEnd dt job sampled pauseShare s
  | .jobSaveDone dt => Sys2Proof.Machine.execJobSaveDone dt s
  | .jobRestoreDone dt slot => Sys2Proof.Machine.execJobRestoreDone dt slot s
  | .preemption dt slot => Sys2Proof.Machine.execPreemption dt slot s
  | .stepReissue dt job tag => Sys2Proof.Machine.execStepReissue dt job tag s
  | .launchStep dt path => Sys2Proof.Machine.execLaunchStep dt path s
  | .launchCancel dt path => Sys2Proof.Machine.execLaunchCancel dt path s
  | .launchFrame dt port src dport data => Sys2Proof.Machine.execLaunchFrame dt port src dport data s
  | .launchLate dt job tag => Sys2Proof.Machine.execLaunchLate dt job tag s
  | .stepDeadline dt job => Sys2Proof.Machine.execStepDeadline dt job s
  | .sourceUpdate dt src offset clockClass utcOffset => Sys2Proof.Machine.execSourceUpdate dt src offset clockClass utcOffset s
  | .sourceQualified dt src => Sys2Proof.Machine.execSourceQualified dt src s
  | .sourceLost dt src => Sys2Proof.Machine.execSourceLost dt src s
  | .waitToRestore dt => Sys2Proof.Machine.execWaitToRestore dt s
  | .timeLocked dt => Sys2Proof.Machine.execTimeLocked dt s
  | .timeFreeRun dt => Sys2Proof.Machine.execTimeFreeRun dt s
  | .ppsEdge dt => Sys2Proof.Machine.execPpsEdge dt s
  | .timeOfDay dt road seconds => Sys2Proof.Machine.execTimeOfDay dt road seconds s
  | .twinTimeOffset dt => Sys2Proof.Machine.execTwinTimeOffset dt s
  | .epochStageWrite dt road index sub data => Sys2Proof.Machine.execEpochStageWrite dt road index sub data s
  | .epochOpen dt road => Sys2Proof.Machine.execEpochOpen dt road s
  | .epochCommit dt road => Sys2Proof.Machine.execEpochCommit dt road s
  | .epochAbort dt road => Sys2Proof.Machine.execEpochAbort dt road s
  | .epochRecommit dt road => Sys2Proof.Machine.execEpochRecommit dt road s
  | .epochRevert dt road => Sys2Proof.Machine.execEpochRevert dt road s
  | .epochCommitTime dt => Sys2Proof.Machine.execEpochCommitTime dt s
  | .epochApply dt unit => Sys2Proof.Machine.execEpochApply dt unit s
  | .epochMixed dt => Sys2Proof.Machine.execEpochMixed dt s
  | .portEnable dt road word => Sys2Proof.Machine.execPortEnable dt road word s
  | .portDisable dt road word => Sys2Proof.Machine.execPortDisable dt road word s
  | .portRetrain dt road word => Sys2Proof.Machine.execPortRetrain dt road word s
  | .portRemap dt road word => Sys2Proof.Machine.execPortRemap dt road word s
  | .portRetire dt road word => Sys2Proof.Machine.execPortRetire dt road word s
  | .portUnretire dt road word => Sys2Proof.Machine.execPortUnretire dt road word s
  | .portEgressDrainEnd dt port => Sys2Proof.Machine.execPortEgressDrainEnd dt port s
  | .portLinkUp dt port speed => Sys2Proof.Machine.execPortLinkUp dt port speed s
  | .neighbourSolicit dt port => Sys2Proof.Machine.execNeighbourSolicit dt port s
  | .neighbourAnswer dt port mac => Sys2Proof.Machine.execNeighbourAnswer dt port mac s
  | .portTrainingTimeout dt port => Sys2Proof.Machine.execPortTrainingTimeout dt port s
  | .portFlapHold dt port => Sys2Proof.Machine.execPortFlapHold dt port s
  | .portLos dt port cause => Sys2Proof.Machine.execPortLos dt port cause s
  | .portDegraded dt port ber => Sys2Proof.Machine.execPortDegraded dt port ber s
  | .portLightReturn dt port => Sys2Proof.Machine.execPortLightReturn dt port s
  | .packetReceived dt port pkt => Sys2Proof.Machine.execPacketReceived dt port pkt s
  | .packetEgress dt port draw => Sys2Proof.Machine.execPacketEgress dt port draw s
  | .pfcPauseRefresh dt port cls => Sys2Proof.Machine.execPfcPauseRefresh dt port cls s
  | .pfcPauseReceived dt port cls quanta => Sys2Proof.Machine.execPfcPauseReceived dt port cls quanta s
  | .pfcPauseExpiry dt port cls => Sys2Proof.Machine.execPfcPauseExpiry dt port cls s
  | .pfcStorm dt port cls => Sys2Proof.Machine.execPfcStorm dt port cls s
  | .pfcWatchdogRecover dt port cls => Sys2Proof.Machine.execPfcWatchdogRecover dt port cls s
  | .routeTableWrite dt road data => Sys2Proof.Machine.execRouteTableWrite dt road data s
  | .ecmpGroupsWrite dt road data => Sys2Proof.Machine.execEcmpGroupsWrite dt road data s
  | .rdmaWriteReceived dt qp src psn rkey addr data => Sys2Proof.Machine.execRdmaWriteReceived dt qp src psn rkey addr data s
  | .rdmaReadReceived dt qp src psn rkey addr len => Sys2Proof.Machine.execRdmaReadReceived dt qp src psn rkey addr len s
  | .sendReceived dt qp src psn entry => Sys2Proof.Machine.execSendReceived dt qp src psn entry s
  | .atomicReceived dt qp psn => Sys2Proof.Machine.execAtomicReceived dt qp psn s
  | .rdmaReadResponse dt qp psn data => Sys2Proof.Machine.execRdmaReadResponse dt qp psn data s
  | .ackReceived dt qp psn => Sys2Proof.Machine.execAckReceived dt qp psn s
  | .sequenceNak dt qp psn => Sys2Proof.Machine.execSequenceNak dt qp psn s
  | .fatalNak dt qp syndrome => Sys2Proof.Machine.execFatalNak dt qp syndrome s
  | .retransmitTimeout dt qp => Sys2Proof.Machine.execRetransmitTimeout dt qp s
  | .cnpReceived dt qp => Sys2Proof.Machine.execCnpReceived dt qp s
  | .rateRecoveryTimer dt qp => Sys2Proof.Machine.execRateRecoveryTimer dt qp s
  | .pairEnable dt road value => Sys2Proof.Machine.execPairEnable dt road value s
  | .hello dt port frame => Sys2Proof.Machine.execHello dt port frame s
  | .helloAnswer dt port frame certificate geometry => Sys2Proof.Machine.execHelloAnswer dt port frame certificate geometry s
  | .formationTimeout dt => Sys2Proof.Machine.execFormationTimeout dt s
  | .asymmetryMeasured dt asymmetry => Sys2Proof.Machine.execAsymmetryMeasured dt asymmetry s
  | .heartbeatInterval dt => Sys2Proof.Machine.execHeartbeatInterval dt s
  | .heartbeat dt port frame => Sys2Proof.Machine.execHeartbeat dt port frame s
  | .heartbeatMiss dt => Sys2Proof.Machine.execHeartbeatMiss dt s
  | .twinSuspect dt => Sys2Proof.Machine.execTwinSuspect dt s
  | .probeInterval dt => Sys2Proof.Machine.execProbeInterval dt s
  | .probe dt src frame => Sys2Proof.Machine.execProbe dt src frame s
  | .probeReply dt src frame => Sys2Proof.Machine.execProbeReply dt src frame s
  | .witnessClaim dt => Sys2Proof.Machine.execWitnessClaim dt s
  | .witnessGrant dt src frame => Sys2Proof.Machine.execWitnessGrant dt src frame s
  | .witnessDeny dt src frame => Sys2Proof.Machine.execWitnessDeny dt src frame s
  | .witnessRelease dt => Sys2Proof.Machine.execWitnessRelease dt s
  | .partnerStatus dt road value => Sys2Proof.Machine.execPartnerStatus dt road value s
  | .confirmWindow dt => Sys2Proof.Machine.execConfirmWindow dt s
  | .fenceGuard dt => Sys2Proof.Machine.execFenceGuard dt s
  | .goodbye dt port frame => Sys2Proof.Machine.execGoodbye dt port frame s
  | .unpairReceived dt port frame => Sys2Proof.Machine.execUnpairReceived dt port frame s
  | .linkDownRecovery dt => Sys2Proof.Machine.execLinkDownRecovery dt s
  | .tokenLogEntry dt entry => Sys2Proof.Machine.execTokenLogEntry dt entry s
  | .tokenLogAck dt seq => Sys2Proof.Machine.execTokenLogAck dt seq s
  | .checkpointReceived dt ckpt => Sys2Proof.Machine.execCheckpointReceived dt ckpt s
  | .checkpointAck dt stream => Sys2Proof.Machine.execCheckpointAck dt stream s
  | .crossCheckRecord dt record => Sys2Proof.Machine.execCrossCheckRecord dt record s
  | .crossCheckTimeout dt => Sys2Proof.Machine.execCrossCheckTimeout dt s
  | .adoptionFromBacklog dt => Sys2Proof.Machine.execAdoptionFromBacklog dt s
  | .handover dt road => Sys2Proof.Machine.execHandover dt road s
  | .unpair dt road => Sys2Proof.Machine.execUnpair dt road s
  | .ringEnable dt port ring word => Sys2Proof.Machine.execRingEnable dt port ring word s
  | .ringDisable dt port ring word => Sys2Proof.Machine.execRingDisable dt port ring word s
  | .ringConfigure dt port ring word => Sys2Proof.Machine.execRingConfigure dt port ring word s
  | .requestDoorbell dt port ring entries word => Sys2Proof.Machine.execRequestDoorbell dt port ring entries word s
  | .completionDoorbell dt port ring word => Sys2Proof.Machine.execCompletionDoorbell dt port ring word s
  | .completionPost dt port ring => Sys2Proof.Machine.execCompletionPost dt port ring s
  | .msixMessage dt port vector => Sys2Proof.Machine.execMsixMessage dt port vector s
  | .msixUnmask dt port vector => Sys2Proof.Machine.execMsixUnmask dt port vector s
  | .perst dt port => Sys2Proof.Machine.execPerst dt port s
  | .flr dt port => Sys2Proof.Machine.execFlr dt port s
  | .d3hotToD0 dt port => Sys2Proof.Machine.execD3hotToD0 dt port s
  | .hostLinkDown dt port => Sys2Proof.Machine.execHostLinkDown dt port s
  | .hostLinkUp dt port speed width => Sys2Proof.Machine.execHostLinkUp dt port speed width s
  | .busMasterEnable dt port => Sys2Proof.Machine.execBusMasterEnable dt port s
  | .bar4Read dt port offset len => Sys2Proof.Machine.execBar4Read dt port offset len s
  | .bar4Write dt port offset data => Sys2Proof.Machine.execBar4Write dt port offset data s
  | .bar4Resize dt port log2GiB => Sys2Proof.Machine.execBar4Resize dt port log2GiB s
  | .hbmApertureBaseWrite dt road port base => Sys2Proof.Machine.execHbmApertureBaseWrite dt road port base s
  | .lowHalfRead dt port offset => Sys2Proof.Machine.execLowHalfRead dt port offset s
  | .highHalfRead dt port offset => Sys2Proof.Machine.execHighHalfRead dt port offset s
  | .lowHalfWrite dt port offset value => Sys2Proof.Machine.execLowHalfWrite dt port offset value s
  | .highHalfWrite dt port offset value => Sys2Proof.Machine.execHighHalfWrite dt port offset value s
  | .entryWrite dt road index sub data => Sys2Proof.Machine.execEntryWrite dt road index sub data s
  | .rcEntryRead dt road index sub => Sys2Proof.Machine.execRcEntryRead dt road index sub s
  | .sdoSegment dt start toggle last data => Sys2Proof.Machine.execSdoSegment dt start toggle last data s
  | .sdoSegmentTimeout dt => Sys2Proof.Machine.execSdoSegmentTimeout dt s
  | .sdoInformation dt request index sub => Sys2Proof.Machine.execSdoInformation dt request index sub s
  | .foeWrite dt name image interrupted => Sys2Proof.Machine.execFoeWrite dt name image interrupted s
  | .accessBlockRead dt port index sub reserved => Sys2Proof.Machine.execAccessBlockRead dt port index sub reserved s
  | .accessBlockWrite dt port index sub reserved data => Sys2Proof.Machine.execAccessBlockWrite dt port index sub reserved data s
  | .accessBlockCompleteRead dt port index sub reserved => Sys2Proof.Machine.execAccessBlockCompleteRead dt port index sub reserved s
  | .accessBlockCompleteWrite dt port index sub reserved data => Sys2Proof.Machine.execAccessBlockCompleteWrite dt port index sub reserved data s
  | .emergencyMailboxRead dt => Sys2Proof.Machine.execEmergencyMailboxRead dt s
  | .txpdoSample dt => Sys2Proof.Machine.execTxpdoSample dt s
  | .alStateChange dt al => Sys2Proof.Machine.execAlStateChange dt al s
  | .resynchronise dt road token => Sys2Proof.Machine.execResynchronise dt road token s
  | .summarySnapshot dt master => Sys2Proof.Machine.execSummarySnapshot dt master s
  | .summaryReady dt master => Sys2Proof.Machine.execSummaryReady dt master s
  | .pinTableWrite dt road data => Sys2Proof.Machine.execPinTableWrite dt road data s
  | .start dt road => Sys2Proof.Machine.execStart dt road s
  | .stop dt road => Sys2Proof.Machine.execStop dt road s
  | .safe dt road => Sys2Proof.Machine.execSafe dt road s
  | .clear dt road => Sys2Proof.Machine.execClear dt road s
  | .shutdown dt road => Sys2Proof.Machine.execShutdown dt road s
  | .coldReset dt road => Sys2Proof.Machine.execColdReset dt road s
  | .grantWrite dt road index sub value => Sys2Proof.Machine.execGrantWrite dt road index sub value s
  | .regionWrite dt road index sub value => Sys2Proof.Machine.execRegionWrite dt road index sub value s
  | .peerEntryWrite dt road index sub data => Sys2Proof.Machine.execPeerEntryWrite dt road index sub data s
  | .commissioningLock dt road value => Sys2Proof.Machine.execCommissioningLock dt road value s
  | .firmwareVerified dt => Sys2Proof.Machine.execFirmwareVerified dt s
  | .trialConfirm dt road value => Sys2Proof.Machine.execTrialConfirm dt road value s
  | .trialTimeout dt => Sys2Proof.Machine.execTrialTimeout dt s
  | .commitSecurityVersion dt road value => Sys2Proof.Machine.execCommitSecurityVersion dt road value s
  | .microcodeUpdateCore dt road value => Sys2Proof.Machine.execMicrocodeUpdateCore dt road value s
  | .microcodeUpdateDone dt core passed => Sys2Proof.Machine.execMicrocodeUpdateDone dt core passed s
  | .attestationNonce dt road nonce => Sys2Proof.Machine.execAttestationNonce dt road nonce s
  | .loopFrame dt core supply fast time offsets => Sys2Proof.Machine.execLoopFrame dt core supply fast time offsets s
  | .outputStrobe dt core => Sys2Proof.Machine.execOutputStrobe dt core s
  | .loopOff dt road core word => Sys2Proof.Machine.execLoopOff dt road core word s
  | .loopManual dt road core word => Sys2Proof.Machine.execLoopManual dt road core word s
  | .loopAcquire dt road core word => Sys2Proof.Machine.execLoopAcquire dt road core word s
  | .loopTrack dt road core word => Sys2Proof.Machine.execLoopTrack dt road core word s
  | .loopRestart dt road core word => Sys2Proof.Machine.execLoopRestart dt road core word s
  | .loopLocked dt core slot => Sys2Proof.Machine.execLoopLocked dt core slot s
  | .loopUnlocked dt core slot => Sys2Proof.Machine.execLoopUnlocked dt core slot s
  | .loopAcquireFail dt core slot => Sys2Proof.Machine.execLoopAcquireFail dt core slot s
  | .loopPlausibility dt core slot => Sys2Proof.Machine.execLoopPlausibility dt core slot s
  | .loopDeadline dt core slot => Sys2Proof.Machine.execLoopDeadline dt core slot s
  | .loopConfigWrite dt road core data => Sys2Proof.Machine.execLoopConfigWrite dt road core data s
  | .coefficientWrite dt road core data => Sys2Proof.Machine.execCoefficientWrite dt road core data s
  | .injectStep dt road core data => Sys2Proof.Machine.execInjectStep dt road core data s
  | .injectPrbs dt road core data => Sys2Proof.Machine.execInjectPrbs dt road core data s
  | .injectSine dt road core data => Sys2Proof.Machine.execInjectSine dt road core data s
  | .injectStop dt road core data => Sys2Proof.Machine.execInjectStop dt road core data s
  | .injectionEnd dt core => Sys2Proof.Machine.execInjectionEnd dt core s
  | .converterTick dt core volts references => Sys2Proof.Machine.execConverterTick dt core volts references s
  | .adcReference dt core adc => Sys2Proof.Machine.execAdcReference dt core adc s
  | .slewMove dt core channel => Sys2Proof.Machine.execSlewMove dt core channel s
  | .queueTick dt core group => Sys2Proof.Machine.execQueueTick dt core group s
  | .spanChangeEnd dt core channel => Sys2Proof.Machine.execSpanChangeEnd dt core channel s
  | .dacDriverFault dt core channel cause => Sys2Proof.Machine.execDacDriverFault dt core channel cause s
  | .arm dt road core word => Sys2Proof.Machine.execArm dt road core word s
  | .disarm dt road core word => Sys2Proof.Machine.execDisarm dt road core word s
  | .channelWrite dt road core data => Sys2Proof.Machine.execChannelWrite dt road core data s
  | .groupStrobe dt road core groups => Sys2Proof.Machine.execGroupStrobe dt road core groups s
  | .queueWrite dt road core data => Sys2Proof.Machine.execQueueWrite dt road core data s
  | .channelConfigWrite dt road core data => Sys2Proof.Machine.execChannelConfigWrite dt road core data s
  | .generatorWrite dt road core data => Sys2Proof.Machine.execGeneratorWrite dt road core data s
  | .wheelRun dt road core value => Sys2Proof.Machine.execWheelRun dt road core value s
  | .sensorSample dt readings => Sys2Proof.Machine.execSensorSample dt readings s
  | .hbmReportTimeout dt stack => Sys2Proof.Machine.execHbmReportTimeout dt stack s
  | .sensorDeviationTimeout dt sensor => Sys2Proof.Machine.execSensorDeviationTimeout dt sensor s
  | .throttleEvaluation dt zone => Sys2Proof.Machine.execThrottleEvaluation dt zone s
  | .sensorReinstate dt road sensor selfCheckPassed => Sys2Proof.Machine.execSensorReinstate dt road sensor selfCheckPassed s
  | .coreOrderlyStop dt core => Sys2Proof.Machine.execCoreOrderlyStop dt core s
  | .stackPowerDown dt stack => Sys2Proof.Machine.execStackPowerDown dt stack s
  | .shutdownHandoverLimit dt => Sys2Proof.Machine.execShutdownHandoverLimit dt s
  | .thermalHardTrip dt zone supervisorPowered => Sys2Proof.Machine.execThermalHardTrip dt zone supervisorPowered s
  | .feedRange dt feed millivolts => Sys2Proof.Machine.execFeedRange dt feed millivolts s
  | .feedReturn dt feed millivolts => Sys2Proof.Machine.execFeedReturn dt feed millivolts s
  | .feedLost dt feed millivolts => Sys2Proof.Machine.execFeedLost dt feed millivolts s
  | .bothFeedsLost dt millivoltsA millivoltsB => Sys2Proof.Machine.execBothFeedsLost dt millivoltsA millivoltsB s
  | .feedQualified dt feed => Sys2Proof.Machine.execFeedQualified dt feed s
  | .standbyReached dt failed => Sys2Proof.Machine.execStandbyReached dt failed s
  | .coreWarmingStep dt core => Sys2Proof.Machine.execCoreWarmingStep dt core s
  | .warmingLimit dt => Sys2Proof.Machine.execWarmingLimit dt s
  | .resetLoopAssert dt => Sys2Proof.Machine.execResetLoopAssert dt s
  | .resetLoopRelease dt => Sys2Proof.Machine.execResetLoopRelease dt s
  | .recalibrationDue dt core eng plane => Sys2Proof.Machine.execRecalibrationDue dt core eng plane s
  | .storeScrub dt core singles doubles => Sys2Proof.Machine.execStoreScrub dt core singles doubles s
  | .hbmScrub dt stack singles doubles => Sys2Proof.Machine.execHbmScrub dt stack singles doubles s
  | .telemetrySnapshot dt energy => Sys2Proof.Machine.execTelemetrySnapshot dt energy s
  | .repairFence dt road data => Sys2Proof.Machine.execRepairFence dt road data s
  | .repairTest dt road data => Sys2Proof.Machine.execRepairTest dt road data s
  | .repairRetire dt road data => Sys2Proof.Machine.execRepairRetire dt road data s
  | .repairUnretire dt road data => Sys2Proof.Machine.execRepairUnretire dt road data s
  | .repairTestDone dt unit passed => Sys2Proof.Machine.execRepairTestDone dt unit passed s
  | .cartridgeUnlatch dt cartridge => Sys2Proof.Machine.execCartridgeUnlatch dt cartridge s
  | .laserInterlockCut dt cartridge => Sys2Proof.Machine.execLaserInterlockCut dt cartridge s
  | .cartridgeLatch dt cartridge serial hours => Sys2Proof.Machine.execCartridgeLatch dt cartridge serial hours s
  | .exportDatagram dt => Sys2Proof.Machine.execExportDatagram dt s
  | .stormPeriodEnd dt sink => Sys2Proof.Machine.execStormPeriodEnd dt sink s
  | .eventFetch dt road sub => Sys2Proof.Machine.execEventFetch dt road sub s
  | .cursorWrite dt road sub value => Sys2Proof.Machine.execCursorWrite dt road sub value s
  | .alarmAcknowledge dt road entry => Sys2Proof.Machine.execAlarmAcknowledge dt road entry s
  | .syncAndAnnounceSend dt => Sys2Proof.Machine.execSyncAndAnnounceSend dt s
  | .perstDeassertion dt port => Sys2Proof.Machine.execPerstDeassertion dt port s
  | .localOrRemoteFault dt port => Sys2Proof.Machine.execLocalOrRemoteFault dt port s
  | .cartridgeRemoved dt cartridge => Sys2Proof.Machine.execCartridgeRemoved dt cartridge s
  | .signatureIntervalEnd dt => Sys2Proof.Machine.execSignatureIntervalEnd dt s

end Sys2Proof.Machine
end

