-- ==== Sys2Proof/Safety.lean ====
section
/-! DEFINITION. What it means for the part to be in a state a run can reach, in the terms the claims use. -/

namespace Sys2Proof.Machine

/-- The memory is in its canonical form: addresses rise strictly and no listed byte is 0. -/
abbrev Mem.wf (m : Mem) : Prop := m.Pairwise (fun a b => a.1 < b.1) ∧ ∀ c ∈ m, c.2 ≠ 0

/-- The parts of the state, each after the field of `State` that holds it; the queue of commands is none of them. -/
inductive Part where
  | out | clock | time | run | od | units | mem | stackScrub | cores | engines | jobs | streams | sched | pins | epoch
  | ports | qps | fabric | twin | hosts | round | security | loops | convs | sensors | zones | cartridges | power
  | events | al | sdo | sm3 | summaries | selects | free
  deriving DecidableEq, Repr

/-- Every part, and every part but some. -/
def Part.every : List Part :=
  [.out, .clock, .time, .run, .od, .units, .mem, .stackScrub, .cores, .engines, .jobs, .streams, .sched, .pins, .epoch,
   .ports, .qps, .fabric, .twin, .hosts, .round, .security, .loops, .convs, .sensors, .zones, .cartridges, .power,
   .events, .al, .sdo, .sm3, .summaries, .selects, .free]

def Part.allBut (l : List Part) : List Part := Part.every.filter (fun p => !l.contains p)

/-- Two states agree in a part. -/
def State.Agree (s t : State) : Part → Prop
  | .out => t.out = s.out
  | .clock => t.clock = s.clock
  | .time => t.time = s.time
  | .run => t.run = s.run
  | .od => t.od = s.od
  | .units => t.units = s.units
  | .mem => t.mem = s.mem
  | .stackScrub => t.stackScrub = s.stackScrub
  | .cores => t.cores = s.cores
  | .engines => t.engines = s.engines
  | .jobs => t.jobs = s.jobs
  | .streams => t.streams = s.streams
  | .sched => t.sched = s.sched
  | .pins => t.pins = s.pins
  | .epoch => t.epoch = s.epoch
  | .ports => t.ports = s.ports
  | .qps => t.qps = s.qps
  | .fabric => t.fabric = s.fabric
  | .twin => t.twin = s.twin
  | .hosts => t.hosts = s.hosts
  | .round => t.round = s.round
  | .security => t.security = s.security
  | .loops => t.loops = s.loops
  | .convs => t.convs = s.convs
  | .sensors => t.sensors = s.sensors
  | .zones => t.zones = s.zones
  | .cartridges => t.cartridges = s.cartridges
  | .power => t.power = s.power
  | .events => t.events = s.events
  | .al => t.al = s.al
  | .sdo => t.sdo = s.sdo
  | .sm3 => t.sm3 = s.sm3
  | .summaries => t.summaries = s.summaries
  | .selects => t.selects = s.selects
  | .free => t.free = s.free

/-- What an operation that may change only the parts `l` leaves as it was: the queue, every other part, what has been put out
(more may follow it), the time since power came, and the canonical form of the memory. -/
structure State.Keeps (s : State) (l : List Part) (t : State) : Prop where
  queue : t.pending = s.pending
  out : s.out <+: t.out
  up : t.clock.up = s.clock.up
  mem : Mem.wf s.mem → Mem.wf t.mem
  rest : ∀ p, p ∉ l → s.Agree t p

/-- A write of an entry comes through: the part answers on the road, and every check of it passes. -/
def State.admits (s : State) (road : Road) (index sub : Nat) (data : List Byte) : Prop :=
  s.hears (viaOf road index sub) = true ∧ (s.writeGate (viaOf road index sub) index sub data).1 = 0

end Sys2Proof.Machine

namespace Sys2Proof
open Machine

/-- The parts of the state that a command may change, apart from the time that passes. -/
def Instr.parts : Instr → List Part
  | .governorLeverApply .. => [.od, .cores, .hosts, .power, .events]
  | .governorLeverRelease .. => [.od, .cores, .hosts, .power, .events]
  | .powerCapUnmet .. => [.od, .hosts, .power, .events]
  | .powerCapWrite .. => [.out, .od, .hosts, .power, .events]
  | .alignerVector .. => [.od, .cores, .engines, .hosts, .events]
  | .windowOpen .. => [.od, .engines, .jobs]
  | .windowDecision .. => [.od, .engines, .jobs]
  | .vatUpdate .. => [.od, .mem, .cores, .engines]
  | .churnWrite .. => [.mem, .cores, .engines]
  | .engineFaultStop .. => [.od, .units, .cores, .engines, .jobs, .hosts, .events]
  | .pulseRefLockLoss .. => [.od, .cores, .engines]
  | .pulseRefRelock .. => [.cores]
  | .pulseRefUnlock .. => [.od, .units, .cores, .engines, .jobs, .hosts, .events]
  | .calibrationWindow .. => [.out, .od, .mem, .engines, .hosts]
  | .calibrationComplete .. => [.out, .od, .units, .mem, .cores, .engines, .jobs, .twin, .hosts, .events]
  | .coefficientsTakeEffect .. => [.engines]
  | .calStale .. => [.od, .engines, .hosts, .events]
  | .headroomPolicyEval .. => [.jobs]
  | .bankWrite .. => [.od, .cores, .engines, .hosts, .events]
  | .bankWriteReset .. => [.od, .cores, .engines, .hosts, .events]
  | .bankResetSurvey .. => [.engines]
  | .bankColumnVerify .. => [.od, .cores, .engines, .hosts, .events]
  | .bankWriteFault .. => [.od, .units, .cores, .engines, .jobs, .hosts, .events]
  | .bankSwap .. => [.od, .cores, .hosts, .events]
  | .bankSwapApply .. => [.cores, .engines]
  | .driftRefreshDue .. => [.od, .engines, .hosts, .events]
  | .refreshChunkStart .. => [.engines]
  | .refreshChunkEnd .. => [.od, .engines, .hosts, .events]
  | .instructionDecode .. => [.out, .run, .od, .units, .mem, .cores, .jobs, .streams, .sched, .hosts, .events]
  | .instructionDispatch .. => [.cores]
  | .instructionComplete .. => [.out, .run, .od, .units, .mem, .cores, .engines, .jobs, .streams, .sched, .hosts, .events]
  | .nop .. => [.cores]
  | .pathSel .. => [.out, .run, .od, .units, .mem, .cores, .jobs, .streams, .sched, .hosts, .events]
  | .endStep .. => [.cores]
  | .launchAt .. => [.od, .cores]
  | .launchAtTime .. => [.cores]
  | .signal .. => [.cores]
  | .wait .. => [.cores]
  | .waitTimeout .. => [.cores]
  | .fence .. => [.cores]
  | .pass .. => [.run, .od, .mem, .cores, .engines, .jobs, .hosts, .events]
  | .spill .. => [.od, .mem, .cores, .engines]
  | .resume .. => [.cores, .engines]
  | .drain .. => [.od, .cores, .engines, .hosts, .events]
  | .drainRowRead .. => [.od, .cores, .engines, .hosts, .events, .free]
  | .drainRowWrite .. => [.od, .mem, .cores, .engines, .hosts, .events, .free]
  | .skimVat .. => [.od, .mem, .cores, .engines, .hosts, .events]
  | .skimStore .. => [.od, .mem, .cores, .hosts, .events]
  | .skimLists .. => [.od, .mem, .cores, .hosts, .events]
  | .tens .. => [.od, .mem, .cores, .hosts, .events, .free]
  | .convert .. => [.od, .mem, .cores, .hosts, .events, .free]
  | .add .. => [.od, .mem, .cores, .hosts, .events, .free]
  | .mul .. => [.od, .mem, .cores, .hosts, .events, .free]
  | .fma .. => [.od, .mem, .cores, .hosts, .events, .free]
  | .scale .. => [.od, .mem, .cores, .hosts, .events, .free]
  | .max .. => [.od, .mem, .cores, .hosts, .events, .free]
  | .relu .. => [.od, .mem, .cores, .hosts, .events, .free]
  | .silu .. => [.od, .mem, .cores, .hosts, .events, .free]
  | .gelu .. => [.od, .mem, .cores, .hosts, .events, .free]
  | .exp .. => [.od, .mem, .cores, .hosts, .events, .free]
  | .recip .. => [.od, .mem, .cores, .hosts, .events, .free]
  | .rsqrt .. => [.od, .mem, .cores, .hosts, .events, .free]
  | .softmax .. => [.od, .mem, .cores, .hosts, .events, .free]
  | .rmsnorm .. => [.od, .mem, .cores, .hosts, .events, .free]
  | .layernorm .. => [.od, .mem, .cores, .hosts, .events, .free]
  | .rowmax .. => [.od, .mem, .cores, .hosts, .events, .free]
  | .rowsum .. => [.od, .mem, .cores, .hosts, .events, .free]
  | .sample .. => [.od, .mem, .cores, .hosts, .events, .free]
  | .moveLocal .. => [.od, .cores, .hosts, .events]
  | .moveFabricWrite .. => [.od, .cores, .hosts, .events]
  | .moveFabricRead .. => [.od, .cores, .hosts, .events]
  | .moveToHost .. => [.od, .cores, .hosts, .events]
  | .moveFromHost .. => [.od, .cores, .hosts, .events]
  | .staggerRelease .. => [.cores]
  | .kvAppend .. => [.od, .mem, .cores, .jobs, .streams, .hosts, .events, .free]
  | .kvGather .. => [.od, .mem, .cores, .jobs, .streams, .hosts, .events, .free]
  | .dmaTransactionIssue .. => [.out, .od, .cores, .sched, .qps, .hosts, .events]
  | .dmaTransactionComplete .. => [.out, .run, .od, .units, .mem, .cores, .jobs, .streams, .sched, .epoch, .hosts, .loops,
      .convs, .events, .free]
  | .paceMeasure .. => [.cores]
  | .voltageStep .. => [.od, .cores]
  | .taggedDataArrival .. => [.od, .mem, .cores]
  | .orphanLimit .. => [.od, .cores]
  | .load .. => [.out, .od, .mem, .jobs, .hosts, .round, .events]
  | .loadComplete .. => [.out, .run, .od, .units, .mem, .jobs, .sched, .hosts, .events]
  | .unload .. => [.out, .run, .od, .units, .mem, .cores, .engines, .jobs, .streams, .sched, .twin, .hosts, .round, .events]
  | .unloadComplete .. => [.jobs, .streams, .sched, .pins, .twin]
  | .hold .. => [.out, .run, .od, .units, .mem, .jobs, .sched, .hosts, .round, .events]
  | .release .. => [.out, .run, .od, .units, .mem, .jobs, .sched, .hosts, .round, .events]
  | .firmware .. => [.out, .od, .mem, .hosts, .round, .security, .events, .free]
  | .attest .. => [.out, .od, .mem, .hosts, .round, .security, .events]
  | .qp .. => [.out, .od, .mem, .cores, .sched, .qps, .hosts, .round, .events]
  | .openStream .. => [.out, .od, .mem, .streams, .sched, .twin, .hosts, .round, .events]
  | .extend .. => [.out, .od, .mem, .streams, .sched, .twin, .hosts, .round, .events, .free]
  | .resumeStream .. => [.out, .od, .mem, .streams, .sched, .twin, .hosts, .round, .events]
  | .pause .. => [.out, .od, .mem, .streams, .twin, .hosts, .round, .events]
  | .close .. => [.out, .od, .mem, .jobs, .streams, .twin, .hosts, .round, .events]
  | .streamFreed .. => [.out, .od, .mem, .jobs, .streams, .hosts]
  | .streamUserWrite .. => [.out, .od, .streams, .hosts, .events]
  | .busyShareInterval .. => [.out, .od, .mem, .streams, .sched, .hosts]
  | .stepForm .. => [.od, .cores, .sched, .hosts, .events]
  | .stepStart .. => [.out, .od, .mem, .cores, .engines, .jobs, .streams, .sched, .hosts, .events]
  | .stepEnd .. => Part.allBut [.free]
  | .jobSaveDone .. => Part.allBut [.free]
  | .jobRestoreDone .. => [.out, .run, .od, .units, .mem, .cores, .engines, .jobs, .streams, .sched, .hosts, .events]
  | .preemption .. => [.sched]
  | .stepReissue .. => [.od, .mem, .cores, .engines, .jobs, .sched, .hosts, .events]
  | .launchStep .. => [.out, .od, .mem, .cores, .sched, .hosts, .round, .events]
  | .launchCancel .. => [.out, .od, .mem, .cores, .sched, .hosts, .round, .events]
  | .launchFrame .. => [.od, .cores, .sched, .hosts, .events]
  | .launchLate .. => [.out, .od, .mem, .cores, .jobs, .sched, .hosts, .events]
  | .stepDeadline .. => [.od, .cores, .jobs, .hosts, .events]
  | .sourceUpdate .. => [.clock, .time, .od, .sched, .hosts, .events]
  | .sourceQualified .. => [.clock, .time, .od, .sched, .hosts, .events]
  | .sourceLost .. => [.clock, .time, .od, .sched, .hosts, .events]
  | .waitToRestore .. => [.clock, .time, .od, .sched, .hosts, .events]
  | .timeLocked .. => [.time, .od, .hosts, .events]
  | .timeFreeRun .. => [.out, .time, .od, .mem, .cores, .jobs, .sched, .hosts, .events]
  | .ppsEdge .. => [.clock, .time, .od, .sched, .hosts, .events]
  | .timeOfDay .. => [.out, .time, .od, .hosts, .events]
  | .twinTimeOffset .. => [.time, .od, .hosts, .events]
  | .epochStageWrite .. => [.out, .od, .epoch, .hosts, .events]
  | .epochOpen .. => [.out, .od, .epoch, .hosts, .events]
  | .epochCommit .. => [.out, .od, .epoch, .hosts, .events]
  | .epochAbort .. => [.out, .od, .epoch, .hosts, .events]
  | .epochRecommit .. => [.out, .od, .epoch, .hosts, .events]
  | .epochRevert .. => [.out, .od, .epoch, .hosts, .events]
  | .epochCommitTime .. => [.od, .units, .epoch, .hosts, .loops, .convs, .events]
  | .epochApply .. => [.od, .units, .epoch, .hosts, .loops, .convs, .events]
  | .epochMixed .. => [.od, .units, .cores, .engines, .jobs, .epoch, .hosts, .events]
  | .portEnable .. => [.out, .od, .units, .ports, .hosts, .events]
  | .portDisable .. => [.out, .od, .units, .epoch, .ports, .hosts, .loops, .convs, .events]
  | .portRetrain .. => [.out, .od, .units, .epoch, .ports, .hosts, .loops, .convs, .events]
  | .portRemap .. => [.out, .od, .fabric, .hosts, .events]
  | .portRetire .. => [.out, .od, .units, .epoch, .ports, .hosts, .loops, .convs, .events]
  | .portUnretire .. => [.out, .od, .units, .hosts, .events]
  | .portEgressDrainEnd .. => [.od, .units, .epoch, .ports, .hosts, .loops, .convs, .events]
  | .portLinkUp .. => [.od, .units, .epoch, .ports, .hosts, .loops, .convs, .events]
  | .neighbourSolicit .. => [.out, .ports]
  | .neighbourAnswer .. => [.od, .units, .epoch, .ports, .hosts, .loops, .convs, .events]
  | .portTrainingTimeout .. => [.od, .ports]
  | .portFlapHold .. => [.od, .units, .epoch, .ports, .hosts, .loops, .convs, .events]
  | .portLos .. => [.od, .units, .epoch, .ports, .hosts, .loops, .convs, .events]
  | .portDegraded .. => [.od, .units, .epoch, .ports, .hosts, .loops, .convs, .events]
  | .portLightReturn .. => [.units, .ports]
  | .packetReceived .. => [.out, .od, .mem, .cores, .jobs, .ports, .qps, .hosts, .events]
  | .packetEgress .. => [.out, .od, .ports]
  | .pfcPauseRefresh .. => [.out, .od]
  | .pfcPauseReceived .. => [.od, .ports]
  | .pfcPauseExpiry .. => [.ports]
  | .pfcStorm .. => [.out, .od, .ports, .hosts, .events]
  | .pfcWatchdogRecover .. => [.ports]
  | .routeTableWrite .. => [.out, .od, .fabric, .hosts, .events]
  | .ecmpGroupsWrite .. => [.out, .od, .fabric, .hosts, .events]
  | .rdmaWriteReceived .. => [.out, .od, .mem, .streams, .qps, .hosts, .events]
  | .rdmaReadReceived .. => [.out, .od, .qps, .hosts, .events]
  | .sendReceived .. => [.out, .run, .od, .units, .mem, .cores, .engines, .jobs, .streams, .sched, .qps, .twin, .hosts,
      .security, .events, .free]
  | .atomicReceived .. => [.out]
  | .rdmaReadResponse .. => [.od, .mem, .cores, .sched, .qps, .hosts, .events]
  | .ackReceived .. => [.cores, .sched, .qps]
  | .sequenceNak .. => [.out, .od, .cores, .sched, .qps, .hosts, .events]
  | .fatalNak .. => [.od, .cores, .sched, .qps, .hosts, .events]
  | .retransmitTimeout .. => [.out, .od, .cores, .sched, .qps, .hosts, .events]
  | .cnpReceived .. => [.od, .qps]
  | .rateRecoveryTimer .. => [.qps]
  | .pairEnable .. => Part.allBut []
  | .hello .. => [.out, .od, .twin, .hosts, .security, .events, .free]
  | .helloAnswer .. => [.od, .twin]
  | .formationTimeout .. => [.out, .od, .twin, .free]
  | .asymmetryMeasured .. => [.out, .od, .jobs, .streams, .twin, .hosts, .events, .free]
  | .heartbeatInterval .. => [.out, .od, .twin]
  | .heartbeat .. => [.out, .time, .run, .od, .units, .mem, .cores, .jobs, .streams, .sched, .twin, .hosts, .security,
      .loops, .convs, .cartridges, .events, .free]
  | .heartbeatMiss .. => [.od, .twin]
  | .twinSuspect .. => [.out, .od, .twin, .hosts, .events]
  | .probeInterval .. => [.out, .od, .twin, .hosts, .events]
  | .probe .. => [.out, .od, .twin]
  | .probeReply .. => [.out, .run, .od, .units, .mem, .cores, .jobs, .streams, .sched, .twin, .hosts, .loops, .convs,
      .cartridges, .events]
  | .witnessClaim .. => [.out, .twin]
  | .witnessGrant .. => [.out, .od, .mem, .streams, .sched, .twin, .hosts, .events]
  | .witnessDeny .. => [.run, .od, .sched, .twin, .hosts, .events]
  | .witnessRelease .. => [.out, .twin]
  | .partnerStatus .. => [.out, .od, .mem, .streams, .sched, .twin, .hosts, .events]
  | .confirmWindow .. => [.run, .od, .sched, .twin, .hosts, .events]
  | .fenceGuard .. => [.out, .od, .mem, .streams, .twin, .hosts]
  | .goodbye .. => [.out, .od, .mem, .streams, .sched, .twin, .hosts, .events]
  | .unpairReceived .. => Part.allBut [.free]
  | .linkDownRecovery .. => [.out, .od, .jobs, .streams, .twin, .hosts, .events]
  | .tokenLogEntry .. => [.out, .jobs, .streams, .twin]
  | .tokenLogAck .. => [.out, .od, .mem, .twin, .hosts]
  | .checkpointReceived .. => [.out, .od, .mem, .jobs, .streams, .twin, .hosts, .events, .free]
  | .checkpointAck .. => Part.allBut [.free]
  | .crossCheckRecord .. => [.od, .engines, .twin, .hosts, .events]
  | .crossCheckTimeout .. => [.od, .twin]
  | .adoptionFromBacklog .. => [.out, .od, .mem, .streams, .sched, .twin, .hosts, .events]
  | .handover .. => [.out, .od, .jobs, .streams, .sched, .twin, .hosts, .events]
  | .unpair .. => Part.allBut [.free]
  | .ringEnable .. => [.od, .units, .mem, .epoch, .hosts, .loops, .convs, .events]
  | .ringDisable .. => [.od, .units, .mem, .epoch, .hosts, .loops, .convs, .events]
  | .ringConfigure .. => [.od, .units, .mem, .epoch, .hosts, .loops, .convs, .events]
  | .requestDoorbell .. => [.od, .mem, .hosts, .events]
  | .completionDoorbell .. => [.od, .hosts, .events]
  | .completionPost .. => [.mem, .hosts]
  | .msixMessage .. => [.out, .hosts]
  | .msixUnmask .. => [.od, .hosts]
  | .perst .. => [.od, .units, .cores, .sched, .epoch, .hosts, .loops, .convs, .events]
  | .flr .. => [.od, .units, .cores, .sched, .epoch, .hosts, .loops, .convs, .events]
  | .d3hotToD0 .. => [.od, .units, .cores, .sched, .epoch, .hosts, .loops, .convs, .events]
  | .hostLinkDown .. => [.od, .units, .cores, .sched, .epoch, .ports, .hosts, .loops, .convs, .events]
  | .hostLinkUp .. => [.od, .units, .epoch, .hosts, .loops, .convs, .events]
  | .busMasterEnable .. => [.od, .units, .epoch, .hosts, .loops, .convs, .events]
  | .bar4Read .. => [.out, .od, .hosts, .events]
  | .bar4Write .. => [.od, .mem, .hosts, .events]
  | .bar4Resize .. => [.hosts]
  | .hbmApertureBaseWrite .. => [.out, .od, .hosts, .events]
  | .lowHalfRead .. => [.out, .od, .hosts, .events]
  | .highHalfRead .. => [.out, .od, .hosts, .events]
  | .lowHalfWrite .. => Part.allBut []
  | .highHalfWrite .. => Part.allBut []
  | .entryWrite .. => Part.allBut []
  | .rcEntryRead .. => Part.allBut []
  | .sdoSegment .. => Part.allBut []
  | .sdoSegmentTimeout .. => [.out, .sdo]
  | .sdoInformation .. => [.out]
  | .foeWrite .. => [.out, .od, .hosts, .security, .events]
  | .accessBlockRead .. => Part.allBut []
  | .accessBlockWrite .. => Part.allBut []
  | .accessBlockCompleteRead .. => Part.allBut []
  | .accessBlockCompleteWrite .. => Part.allBut []
  | .emergencyMailboxRead .. => [.out, .events]
  | .txpdoSample .. => [.out]
  | .alStateChange .. => [.al, .sdo]
  | .resynchronise .. => [.out, .od, .hosts, .events, .summaries]
  | .summarySnapshot .. => [.summaries]
  | .summaryReady .. => [.summaries]
  | .pinTableWrite .. => [.out, .od, .pins, .hosts, .events]
  | .start .. => [.out, .run, .od, .units, .cores, .hosts, .loops, .convs, .cartridges, .events]
  | .stop .. => Part.allBut [.free]
  | .safe .. => [.out, .run, .od, .sched, .hosts, .events]
  | .clear .. => [.out, .run, .od, .units, .cores, .hosts, .loops, .convs, .cartridges, .events]
  | .shutdown .. => Part.allBut [.free]
  | .coldReset .. => Part.allBut [.free]
  | .grantWrite .. => [.out, .od, .hosts, .events]
  | .regionWrite .. => [.out, .od, .hosts, .events]
  | .peerEntryWrite .. => [.out, .od, .hosts, .events]
  | .commissioningLock .. => [.out, .od, .hosts, .events]
  | .firmwareVerified .. => [.od, .cores, .security]
  | .trialConfirm .. => [.out, .od, .hosts, .security, .events]
  | .trialTimeout .. => Part.allBut [.out, .free]
  | .commitSecurityVersion .. => [.out, .od, .hosts, .events]
  | .microcodeUpdateCore .. => [.out, .od, .units, .cores, .engines, .jobs, .hosts, .security, .events]
  | .microcodeUpdateDone .. => [.od, .units, .cores, .epoch, .hosts, .security, .loops, .convs, .events]
  | .attestationNonce .. => [.out, .od, .hosts, .security, .events]
  | .loopFrame .. => [.od, .units, .cores, .engines, .jobs, .hosts, .loops, .convs, .events]
  | .outputStrobe .. => [.od, .loops, .convs, .events]
  | .loopOff .. => [.out, .od, .hosts, .loops, .events]
  | .loopManual .. => [.out, .od, .hosts, .loops, .events]
  | .loopAcquire .. => [.out, .od, .hosts, .loops, .events]
  | .loopTrack .. => [.out, .od, .hosts, .loops, .events]
  | .loopRestart .. => [.out, .od, .hosts, .loops, .events]
  | .loopLocked .. => [.od, .cores, .loops]
  | .loopUnlocked .. => [.od, .hosts, .loops, .events]
  | .loopAcquireFail .. => [.od, .units, .cores, .engines, .jobs, .epoch, .ports, .hosts, .loops, .convs, .events]
  | .loopPlausibility .. => [.od, .units, .cores, .engines, .jobs, .epoch, .ports, .hosts, .loops, .convs, .events]
  | .loopDeadline .. => [.od, .units, .cores, .engines, .jobs, .epoch, .ports, .hosts, .loops, .convs, .events]
  | .loopConfigWrite .. => [.out, .od, .hosts, .loops, .events]
  | .coefficientWrite .. => [.out, .od, .hosts, .loops, .events]
  | .injectStep .. => [.out, .od, .hosts, .loops, .events]
  | .injectPrbs .. => [.out, .od, .hosts, .loops, .events]
  | .injectSine .. => [.out, .od, .hosts, .loops, .events]
  | .injectStop .. => [.out, .od, .hosts, .loops, .events]
  | .injectionEnd .. => [.loops]
  | .converterTick .. => [.od, .convs, .events]
  | .adcReference .. => [.od, .units, .cores, .engines, .jobs, .hosts, .loops, .events]
  | .slewMove .. => [.convs]
  | .queueTick .. => [.od, .hosts, .convs, .events]
  | .spanChangeEnd .. => [.convs]
  | .dacDriverFault .. => [.od, .units, .cores, .engines, .jobs, .epoch, .ports, .hosts, .loops, .convs, .events]
  | .arm .. => [.out, .od, .hosts, .convs, .events]
  | .disarm .. => [.out, .od, .hosts, .convs, .events]
  | .channelWrite .. => [.out, .od, .hosts, .convs, .events]
  | .groupStrobe .. => [.out, .od, .hosts, .convs, .events]
  | .queueWrite .. => [.out, .od, .hosts, .convs, .events]
  | .channelConfigWrite .. => [.out, .od, .hosts, .convs, .events]
  | .generatorWrite .. => [.out, .od, .hosts, .convs, .events]
  | .wheelRun .. => [.out, .od, .hosts, .convs, .events]
  | .sensorSample .. => Part.allBut []
  | .hbmReportTimeout .. => Part.allBut [.free]
  | .sensorDeviationTimeout .. => Part.allBut [.free]
  | .throttleEvaluation .. => [.od, .cores, .hosts, .zones, .power, .events]
  | .sensorReinstate .. => [.out, .od, .hosts, .sensors, .events]
  | .coreOrderlyStop .. => [.od, .units, .mem, .cores, .engines, .jobs, .epoch, .ports, .hosts, .loops, .convs, .cartridges,
      .events]
  | .stackPowerDown .. => [.out, .od, .units, .mem, .cores, .engines, .jobs, .streams, .hosts, .events, .free]
  | .shutdownHandoverLimit .. => Part.allBut [.free]
  | .thermalHardTrip .. => Part.allBut [.out, .free]
  | .feedRange .. => [.run, .od, .hosts, .power, .events]
  | .feedReturn .. => [.run, .od, .power]
  | .feedLost .. => [.run, .od, .hosts, .power, .events]
  | .bothFeedsLost .. => Part.allBut [.out, .free]
  | .feedQualified .. => Part.allBut [.out, .free]
  | .standbyReached .. => [.run, .od, .units, .cores, .engines, .jobs, .epoch, .ports, .hosts, .loops, .convs, .cartridges,
      .events]
  | .coreWarmingStep .. => [.run, .od, .units, .cores, .epoch, .hosts, .loops, .convs, .cartridges, .events]
  | .warmingLimit .. => [.run, .od, .units, .cores, .engines, .jobs, .hosts, .loops, .convs, .events]
  | .resetLoopAssert .. => Part.allBut [.out, .free]
  | .resetLoopRelease .. => Part.allBut [.out, .free]
  | .recalibrationDue .. => [.engines]
  | .storeScrub .. => [.out, .run, .od, .units, .mem, .cores, .jobs, .streams, .sched, .epoch, .hosts, .loops, .convs,
      .events, .free]
  | .hbmScrub .. => [.out, .run, .od, .units, .mem, .stackScrub, .jobs, .streams, .sched, .epoch, .hosts, .loops, .convs,
      .events, .free]
  | .telemetrySnapshot .. => [.events]
  | .repairFence .. => [.out, .od, .units, .cores, .engines, .jobs, .epoch, .ports, .hosts, .loops, .convs, .events]
  | .repairTest .. => [.out, .od, .units, .hosts, .events]
  | .repairRetire .. => [.out, .run, .od, .units, .mem, .cores, .engines, .jobs, .streams, .sched, .epoch, .hosts, .loops,
      .convs, .events, .free]
  | .repairUnretire .. => [.out, .od, .units, .hosts, .events]
  | .repairTestDone .. => [.run, .od, .units, .cores, .engines, .epoch, .hosts, .loops, .convs, .zones, .power, .events]
  | .cartridgeUnlatch .. => [.run, .od, .units, .cores, .engines, .jobs, .epoch, .ports, .hosts, .loops, .convs,
      .cartridges, .events]
  | .laserInterlockCut .. => [.od, .convs, .cartridges]
  | .cartridgeLatch .. => [.od, .units, .cores, .engines, .ports, .loops, .convs, .cartridges]
  | .exportDatagram .. => [.out, .od, .ports, .events]
  | .stormPeriodEnd .. => [.od, .hosts, .events]
  | .eventFetch .. => Part.allBut []
  | .cursorWrite .. => [.out, .od, .hosts, .events]
  | .alarmAcknowledge .. => [.out, .od, .hosts, .events]
  | .syncAndAnnounceSend .. => [.out, .free]
  | .perstDeassertion .. => [.od, .units, .epoch, .hosts, .loops, .convs, .events]
  | .localOrRemoteFault .. => [.od, .units, .epoch, .ports, .hosts, .loops, .convs, .events]
  | .cartridgeRemoved .. => [.od, .convs, .cartridges]
  | .signatureIntervalEnd .. => [.out, .od, .twin, .hosts, .security, .events]

end Sys2Proof
end

