-- ==== Sys2Proof/WellFormed.lean ====
section
/-! DEFINITION. Which commands are well formed: an operand that stands for what a unit of the part or its surroundings delivers
has the number of values and the range that the rule of its row gives. What a master sends is well formed whatever it is: the
part itself refuses it (R261, R381). -/

namespace Sys2Proof

/-- The unit exists (R4, R385). -/
def UnitRef.ok (u : UnitRef) : Bool :=
  match u.kind with
  | .core | .drain | .skim | .tensor | .vector | .coproc => u.a == 0 && u.b < 16
  | .engine => u.a < 16 && u.b < 34
  | .dacGroup => u.a < 16 && u.b < 35
  | .adc => u.a < 16 && u.b < 68
  | .port => u.a == 0 && u.b < 128
  | .stack => u.a == 0 && u.b < 20
  | .cartridge => u.a == 0 && u.b < 8
  | .hostPort => u.a == 0 && u.b < 2

/-- One gain and one response for each of 256 columns, and offsets for each of them at every step (R72). -/
def Measured.ok (m : Measured) : Bool :=
  m.gains.length == 256 && m.sums.length == 256 && m.offsets.all (fun l => l.length == 256)

/-- The master ID has 12 bits (R253). -/
def StreamPath.ok : StreamPath → Bool
  | .rdma master => master < 4096
  | _ => true

/-- A launch record is 32 bytes (R287), a master ID has 12 bits (R253). -/
def LaunchPath.ok : LaunchPath → Bool
  | .ring => true
  | .firmware record => record.length == 32
  | .twin record => record.length == 32
  | .send master record => master < 4096 && record.length == 32

/-- Words of a 64-byte line, none of them with both one and two bits wrong (R470). -/
def lineOk (singles doubles : List Nat) : Bool :=
  singles.all (fun w => w < 8 && !(doubles.contains w)) && doubles.all (fun w => w < 8)

/-- The operands have the sizes that the rule of the row gives. -/
def Instr.wf : Instr → Bool
  | .governorLeverApply .. => true
  | .governorLeverRelease .. => true
  | .powerCapUnmet .. => true
  | .powerCapWrite .. => true
  | .alignerVector .. => true
  | .windowOpen .. => true
  | .windowDecision _ _ _ charges gaps => charges.length == 256 && gaps.length == 256
  | .vatUpdate .. => true
  | .churnWrite .. => true
  | .engineFaultStop .. => true
  | .pulseRefLockLoss .. => true
  | .pulseRefRelock .. => true
  | .pulseRefUnlock .. => true
  | .calibrationWindow .. => true
  | .calibrationComplete _ _ _ measured => measured.ok
  | .coefficientsTakeEffect .. => true
  | .calStale .. => true
  | .headroomPolicyEval .. => true
  | .bankWrite .. => true
  | .bankWriteReset .. => true
  | .bankResetSurvey .. => true
  | .bankColumnVerify _ _ _ levels => levels.length == 512
  | .bankWriteFault .. => true
  | .bankSwap .. => true
  | .bankSwapApply .. => true
  | .driftRefreshDue .. => true
  | .refreshChunkStart .. => true
  | .refreshChunkEnd _ _ _ _ averages finals => averages.length == 16 && averages.all (fun l => l.length == 512) && finals.length == 16 &&
      finals.all (fun l => l.length == 512)
  | .instructionDecode .. => true
  | .instructionDispatch .. => true
  | .instructionComplete .. => true
  | .nop .. => true
  | .pathSel .. => true
  | .endStep .. => true
  | .launchAt .. => true
  | .launchAtTime .. => true
  | .signal .. => true
  | .wait .. => true
  | .waitTimeout .. => true
  | .fence .. => true
  | .pass .. => true
  | .spill .. => true
  | .resume .. => true
  | .drain .. => true
  | .drainRowRead .. => true
  | .drainRowWrite .. => true
  | .skimVat .. => true
  | .skimStore .. => true
  | .skimLists .. => true
  | .tens .. => true
  | .convert .. => true
  | .add .. => true
  | .mul .. => true
  | .fma .. => true
  | .scale .. => true
  | .max .. => true
  | .relu .. => true
  | .silu .. => true
  | .gelu .. => true
  | .exp .. => true
  | .recip .. => true
  | .rsqrt .. => true
  | .softmax .. => true
  | .rmsnorm .. => true
  | .layernorm .. => true
  | .rowmax .. => true
  | .rowsum .. => true
  | .sample .. => true
  | .moveLocal .. => true
  | .moveFabricWrite .. => true
  | .moveFabricRead .. => true
  | .moveToHost .. => true
  | .moveFromHost .. => true
  | .staggerRelease .. => true
  | .kvAppend .. => true
  | .kvGather .. => true
  | .dmaTransactionIssue .. => true
  | .dmaTransactionComplete .. => true
  | .paceMeasure _ _ monitors => monitors.length == 16
  | .voltageStep _ _ paceAtNext => paceAtNext.length == 16
  | .taggedDataArrival .. => true
  | .orphanLimit .. => true
  | .load .. => true
  | .loadComplete .. => true
  | .unload .. => true
  | .unloadComplete .. => true
  | .hold .. => true
  | .release .. => true
  | .firmware .. => true
  | .attest .. => true
  | .qp .. => true
  | .openStream .. => true
  | .extend .. => true
  | .resumeStream .. => true
  | .pause .. => true
  | .close .. => true
  | .streamFreed .. => true
  | .streamUserWrite _ path _ _ _ => path.ok
  | .busyShareInterval _ shares => shares.length == 20 && shares.all (fun x => x ≤ 1000)
  | .stepForm .. => true
  | .stepStart .. => true
  | .stepEnd _ _ sampled pauseShare => sampled.all (fun x => x.1 < 65536) && pauseShare ≤ 1000
  | .jobSaveDone .. => true
  | .jobRestoreDone .. => true
  | .preemption .. => true
  | .stepReissue .. => true
  | .launchStep _ path => path.ok
  | .launchCancel _ path => path.ok
  | .launchFrame .. => true
  | .launchLate .. => true
  | .stepDeadline .. => true
  | .sourceUpdate .. => true
  | .sourceQualified .. => true
  | .sourceLost .. => true
  | .waitToRestore .. => true
  | .timeLocked .. => true
  | .timeFreeRun .. => true
  | .ppsEdge .. => true
  | .timeOfDay .. => true
  | .twinTimeOffset .. => true
  | .epochStageWrite .. => true
  | .epochOpen .. => true
  | .epochCommit .. => true
  | .epochAbort .. => true
  | .epochRecommit .. => true
  | .epochRevert .. => true
  | .epochCommitTime .. => true
  | .epochApply _ unit => unit.ok
  | .epochMixed .. => true
  | .portEnable .. => true
  | .portDisable .. => true
  | .portRetrain .. => true
  | .portRemap .. => true
  | .portRetire .. => true
  | .portUnretire .. => true
  | .portEgressDrainEnd .. => true
  | .portLinkUp .. => true
  | .neighbourSolicit .. => true
  | .neighbourAnswer .. => true
  | .portTrainingTimeout .. => true
  | .portFlapHold .. => true
  | .portLos .. => true
  | .portDegraded .. => true
  | .portLightReturn .. => true
  | .packetReceived _ _ pkt => 64 ≤ pkt.bytes
  | .packetEgress .. => true
  | .pfcPauseRefresh .. => true
  | .pfcPauseReceived .. => true
  | .pfcPauseExpiry .. => true
  | .pfcStorm .. => true
  | .pfcWatchdogRecover .. => true
  | .routeTableWrite .. => true
  | .ecmpGroupsWrite .. => true
  | .rdmaWriteReceived .. => true
  | .rdmaReadReceived .. => true
  | .sendReceived _ _ _ _ entry => entry.length == 64
  | .atomicReceived .. => true
  | .rdmaReadResponse .. => true
  | .ackReceived .. => true
  | .sequenceNak .. => true
  | .fatalNak .. => true
  | .retransmitTimeout .. => true
  | .cnpReceived .. => true
  | .rateRecoveryTimer .. => true
  | .pairEnable .. => true
  | .hello .. => true
  | .helloAnswer _ _ _ _ geometry => geometry.length == 23
  | .formationTimeout .. => true
  | .asymmetryMeasured _ asymmetry => asymmetry.length == 8
  | .heartbeatInterval .. => true
  | .heartbeat .. => true
  | .heartbeatMiss .. => true
  | .twinSuspect .. => true
  | .probeInterval .. => true
  | .probe .. => true
  | .probeReply .. => true
  | .witnessClaim .. => true
  | .witnessGrant .. => true
  | .witnessDeny .. => true
  | .witnessRelease .. => true
  | .partnerStatus .. => true
  | .confirmWindow .. => true
  | .fenceGuard .. => true
  | .goodbye .. => true
  | .unpairReceived .. => true
  | .linkDownRecovery .. => true
  | .tokenLogEntry _ entry => entry.stream < 65536
  | .tokenLogAck .. => true
  | .checkpointReceived _ ckpt => ckpt.stream < 65536
  | .checkpointAck .. => true
  | .crossCheckRecord _ record => record.sums.length == 256
  | .crossCheckTimeout .. => true
  | .adoptionFromBacklog .. => true
  | .handover .. => true
  | .unpair .. => true
  | .ringEnable .. => true
  | .ringDisable .. => true
  | .ringConfigure .. => true
  | .requestDoorbell _ _ _ entries _ => entries.all (fun e => e.length == 64)
  | .completionDoorbell .. => true
  | .completionPost .. => true
  | .msixMessage .. => true
  | .msixUnmask .. => true
  | .perst .. => true
  | .flr .. => true
  | .d3hotToD0 .. => true
  | .hostLinkDown .. => true
  | .hostLinkUp .. => true
  | .busMasterEnable .. => true
  | .bar4Read _ _ _ len => 0 < len
  | .bar4Write _ _ _ data => 0 < data.length
  | .bar4Resize .. => true
  | .hbmApertureBaseWrite .. => true
  | .lowHalfRead .. => true
  | .highHalfRead .. => true
  | .lowHalfWrite .. => true
  | .highHalfWrite .. => true
  | .entryWrite .. => true
  | .rcEntryRead .. => true
  | .sdoSegment .. => true
  | .sdoSegmentTimeout .. => true
  | .sdoInformation .. => true
  | .foeWrite .. => true
  | .accessBlockRead .. => true
  | .accessBlockWrite .. => true
  | .accessBlockCompleteRead .. => true
  | .accessBlockCompleteWrite .. => true
  | .emergencyMailboxRead .. => true
  | .txpdoSample .. => true
  | .alStateChange .. => true
  | .resynchronise .. => true
  | .summarySnapshot .. => true
  | .summaryReady .. => true
  | .pinTableWrite .. => true
  | .start .. => true
  | .stop .. => true
  | .safe .. => true
  | .clear .. => true
  | .shutdown .. => true
  | .coldReset .. => true
  | .grantWrite .. => true
  | .regionWrite .. => true
  | .peerEntryWrite .. => true
  | .commissioningLock .. => true
  | .firmwareVerified .. => true
  | .trialConfirm .. => true
  | .trialTimeout .. => true
  | .commitSecurityVersion .. => true
  | .microcodeUpdateCore .. => true
  | .microcodeUpdateDone .. => true
  | .attestationNonce .. => true
  | .loopFrame _ _ _ fast _ _ => fast ≤ 1152
  | .outputStrobe .. => true
  | .loopOff .. => true
  | .loopManual .. => true
  | .loopAcquire .. => true
  | .loopTrack .. => true
  | .loopRestart .. => true
  | .loopLocked .. => true
  | .loopUnlocked .. => true
  | .loopAcquireFail .. => true
  | .loopPlausibility .. => true
  | .loopDeadline .. => true
  | .loopConfigWrite .. => true
  | .coefficientWrite .. => true
  | .injectStep .. => true
  | .injectPrbs .. => true
  | .injectSine .. => true
  | .injectStop .. => true
  | .injectionEnd .. => true
  | .converterTick _ _ volts references => volts.length == 70 && references.length == 68
  | .adcReference .. => true
  | .slewMove .. => true
  | .queueTick .. => true
  | .spanChangeEnd .. => true
  | .dacDriverFault .. => true
  | .arm .. => true
  | .disarm .. => true
  | .channelWrite .. => true
  | .groupStrobe .. => true
  | .queueWrite .. => true
  | .channelConfigWrite .. => true
  | .generatorWrite .. => true
  | .wheelRun .. => true
  | .sensorSample _ readings => readings.length == 238
  | .hbmReportTimeout .. => true
  | .sensorDeviationTimeout .. => true
  | .throttleEvaluation .. => true
  | .sensorReinstate .. => true
  | .coreOrderlyStop .. => true
  | .stackPowerDown .. => true
  | .shutdownHandoverLimit .. => true
  | .thermalHardTrip .. => true
  | .feedRange .. => true
  | .feedReturn .. => true
  | .feedLost .. => true
  | .bothFeedsLost .. => true
  | .feedQualified .. => true
  | .standbyReached _ failed => failed.all UnitRef.ok
  | .coreWarmingStep .. => true
  | .warmingLimit .. => true
  | .resetLoopAssert .. => true
  | .resetLoopRelease .. => true
  | .recalibrationDue .. => true
  | .storeScrub _ _ singles doubles => lineOk singles doubles
  | .hbmScrub _ _ singles doubles => lineOk singles doubles
  | .telemetrySnapshot .. => true
  | .repairFence .. => true
  | .repairTest .. => true
  | .repairRetire .. => true
  | .repairUnretire .. => true
  | .repairTestDone _ unit _ => unit.ok
  | .cartridgeUnlatch .. => true
  | .laserInterlockCut .. => true
  | .cartridgeLatch .. => true
  | .exportDatagram .. => true
  | .stormPeriodEnd .. => true
  | .eventFetch .. => true
  | .cursorWrite .. => true
  | .alarmAcknowledge .. => true
  | .syncAndAnnounceSend .. => true
  | .perstDeassertion .. => true
  | .localOrRemoteFault .. => true
  | .cartridgeRemoved .. => true
  | .signatureIntervalEnd .. => true

/-- The Kelig time in ps that passes before a command acts (log entry 1). -/
def Instr.dt : Instr → Nat
  | .governorLeverApply dt .. => dt
  | .governorLeverRelease dt .. => dt
  | .powerCapUnmet dt .. => dt
  | .powerCapWrite dt .. => dt
  | .alignerVector dt .. => dt
  | .windowOpen dt .. => dt
  | .windowDecision dt .. => dt
  | .vatUpdate dt .. => dt
  | .churnWrite dt .. => dt
  | .engineFaultStop dt .. => dt
  | .pulseRefLockLoss dt .. => dt
  | .pulseRefRelock dt .. => dt
  | .pulseRefUnlock dt .. => dt
  | .calibrationWindow dt .. => dt
  | .calibrationComplete dt .. => dt
  | .coefficientsTakeEffect dt .. => dt
  | .calStale dt .. => dt
  | .headroomPolicyEval dt .. => dt
  | .bankWrite dt .. => dt
  | .bankWriteReset dt .. => dt
  | .bankResetSurvey dt .. => dt
  | .bankColumnVerify dt .. => dt
  | .bankWriteFault dt .. => dt
  | .bankSwap dt .. => dt
  | .bankSwapApply dt .. => dt
  | .driftRefreshDue dt .. => dt
  | .refreshChunkStart dt .. => dt
  | .refreshChunkEnd dt .. => dt
  | .instructionDecode dt .. => dt
  | .instructionDispatch dt .. => dt
  | .instructionComplete dt .. => dt
  | .nop dt .. => dt
  | .pathSel dt .. => dt
  | .endStep dt .. => dt
  | .launchAt dt .. => dt
  | .launchAtTime dt .. => dt
  | .signal dt .. => dt
  | .wait dt .. => dt
  | .waitTimeout dt .. => dt
  | .fence dt .. => dt
  | .pass dt .. => dt
  | .spill dt .. => dt
  | .resume dt .. => dt
  | .drain dt .. => dt
  | .drainRowRead dt .. => dt
  | .drainRowWrite dt .. => dt
  | .skimVat dt .. => dt
  | .skimStore dt .. => dt
  | .skimLists dt .. => dt
  | .tens dt .. => dt
  | .convert dt .. => dt
  | .add dt .. => dt
  | .mul dt .. => dt
  | .fma dt .. => dt
  | .scale dt .. => dt
  | .max dt .. => dt
  | .relu dt .. => dt
  | .silu dt .. => dt
  | .gelu dt .. => dt
  | .exp dt .. => dt
  | .recip dt .. => dt
  | .rsqrt dt .. => dt
  | .softmax dt .. => dt
  | .rmsnorm dt .. => dt
  | .layernorm dt .. => dt
  | .rowmax dt .. => dt
  | .rowsum dt .. => dt
  | .sample dt .. => dt
  | .moveLocal dt .. => dt
  | .moveFabricWrite dt .. => dt
  | .moveFabricRead dt .. => dt
  | .moveToHost dt .. => dt
  | .moveFromHost dt .. => dt
  | .staggerRelease dt .. => dt
  | .kvAppend dt .. => dt
  | .kvGather dt .. => dt
  | .dmaTransactionIssue dt .. => dt
  | .dmaTransactionComplete dt .. => dt
  | .paceMeasure dt .. => dt
  | .voltageStep dt .. => dt
  | .taggedDataArrival dt .. => dt
  | .orphanLimit dt .. => dt
  | .load dt .. => dt
  | .loadComplete dt .. => dt
  | .unload dt .. => dt
  | .unloadComplete dt .. => dt
  | .hold dt .. => dt
  | .release dt .. => dt
  | .firmware dt .. => dt
  | .attest dt .. => dt
  | .qp dt .. => dt
  | .openStream dt .. => dt
  | .extend dt .. => dt
  | .resumeStream dt .. => dt
  | .pause dt .. => dt
  | .close dt .. => dt
  | .streamFreed dt .. => dt
  | .streamUserWrite dt .. => dt
  | .busyShareInterval dt .. => dt
  | .stepForm dt .. => dt
  | .stepStart dt .. => dt
  | .stepEnd dt .. => dt
  | .jobSaveDone dt .. => dt
  | .jobRestoreDone dt .. => dt
  | .preemption dt .. => dt
  | .stepReissue dt .. => dt
  | .launchStep dt .. => dt
  | .launchCancel dt .. => dt
  | .launchFrame dt .. => dt
  | .launchLate dt .. => dt
  | .stepDeadline dt .. => dt
  | .sourceUpdate dt .. => dt
  | .sourceQualified dt .. => dt
  | .sourceLost dt .. => dt
  | .waitToRestore dt .. => dt
  | .timeLocked dt .. => dt
  | .timeFreeRun dt .. => dt
  | .ppsEdge dt .. => dt
  | .timeOfDay dt .. => dt
  | .twinTimeOffset dt .. => dt
  | .epochStageWrite dt .. => dt
  | .epochOpen dt .. => dt
  | .epochCommit dt .. => dt
  | .epochAbort dt .. => dt
  | .epochRecommit dt .. => dt
  | .epochRevert dt .. => dt
  | .epochCommitTime dt .. => dt
  | .epochApply dt .. => dt
  | .epochMixed dt .. => dt
  | .portEnable dt .. => dt
  | .portDisable dt .. => dt
  | .portRetrain dt .. => dt
  | .portRemap dt .. => dt
  | .portRetire dt .. => dt
  | .portUnretire dt .. => dt
  | .portEgressDrainEnd dt .. => dt
  | .portLinkUp dt .. => dt
  | .neighbourSolicit dt .. => dt
  | .neighbourAnswer dt .. => dt
  | .portTrainingTimeout dt .. => dt
  | .portFlapHold dt .. => dt
  | .portLos dt .. => dt
  | .portDegraded dt .. => dt
  | .portLightReturn dt .. => dt
  | .packetReceived dt .. => dt
  | .packetEgress dt .. => dt
  | .pfcPauseRefresh dt .. => dt
  | .pfcPauseReceived dt .. => dt
  | .pfcPauseExpiry dt .. => dt
  | .pfcStorm dt .. => dt
  | .pfcWatchdogRecover dt .. => dt
  | .routeTableWrite dt .. => dt
  | .ecmpGroupsWrite dt .. => dt
  | .rdmaWriteReceived dt .. => dt
  | .rdmaReadReceived dt .. => dt
  | .sendReceived dt .. => dt
  | .atomicReceived dt .. => dt
  | .rdmaReadResponse dt .. => dt
  | .ackReceived dt .. => dt
  | .sequenceNak dt .. => dt
  | .fatalNak dt .. => dt
  | .retransmitTimeout dt .. => dt
  | .cnpReceived dt .. => dt
  | .rateRecoveryTimer dt .. => dt
  | .pairEnable dt .. => dt
  | .hello dt .. => dt
  | .helloAnswer dt .. => dt
  | .formationTimeout dt .. => dt
  | .asymmetryMeasured dt .. => dt
  | .heartbeatInterval dt .. => dt
  | .heartbeat dt .. => dt
  | .heartbeatMiss dt .. => dt
  | .twinSuspect dt .. => dt
  | .probeInterval dt .. => dt
  | .probe dt .. => dt
  | .probeReply dt .. => dt
  | .witnessClaim dt .. => dt
  | .witnessGrant dt .. => dt
  | .witnessDeny dt .. => dt
  | .witnessRelease dt .. => dt
  | .partnerStatus dt .. => dt
  | .confirmWindow dt .. => dt
  | .fenceGuard dt .. => dt
  | .goodbye dt .. => dt
  | .unpairReceived dt .. => dt
  | .linkDownRecovery dt .. => dt
  | .tokenLogEntry dt .. => dt
  | .tokenLogAck dt .. => dt
  | .checkpointReceived dt .. => dt
  | .checkpointAck dt .. => dt
  | .crossCheckRecord dt .. => dt
  | .crossCheckTimeout dt .. => dt
  | .adoptionFromBacklog dt .. => dt
  | .handover dt .. => dt
  | .unpair dt .. => dt
  | .ringEnable dt .. => dt
  | .ringDisable dt .. => dt
  | .ringConfigure dt .. => dt
  | .requestDoorbell dt .. => dt
  | .completionDoorbell dt .. => dt
  | .completionPost dt .. => dt
  | .msixMessage dt .. => dt
  | .msixUnmask dt .. => dt
  | .perst dt .. => dt
  | .flr dt .. => dt
  | .d3hotToD0 dt .. => dt
  | .hostLinkDown dt .. => dt
  | .hostLinkUp dt .. => dt
  | .busMasterEnable dt .. => dt
  | .bar4Read dt .. => dt
  | .bar4Write dt .. => dt
  | .bar4Resize dt .. => dt
  | .hbmApertureBaseWrite dt .. => dt
  | .lowHalfRead dt .. => dt
  | .highHalfRead dt .. => dt
  | .lowHalfWrite dt .. => dt
  | .highHalfWrite dt .. => dt
  | .entryWrite dt .. => dt
  | .rcEntryRead dt .. => dt
  | .sdoSegment dt .. => dt
  | .sdoSegmentTimeout dt .. => dt
  | .sdoInformation dt .. => dt
  | .foeWrite dt .. => dt
  | .accessBlockRead dt .. => dt
  | .accessBlockWrite dt .. => dt
  | .accessBlockCompleteRead dt .. => dt
  | .accessBlockCompleteWrite dt .. => dt
  | .emergencyMailboxRead dt .. => dt
  | .txpdoSample dt .. => dt
  | .alStateChange dt .. => dt
  | .resynchronise dt .. => dt
  | .summarySnapshot dt .. => dt
  | .summaryReady dt .. => dt
  | .pinTableWrite dt .. => dt
  | .start dt .. => dt
  | .stop dt .. => dt
  | .safe dt .. => dt
  | .clear dt .. => dt
  | .shutdown dt .. => dt
  | .coldReset dt .. => dt
  | .grantWrite dt .. => dt
  | .regionWrite dt .. => dt
  | .peerEntryWrite dt .. => dt
  | .commissioningLock dt .. => dt
  | .firmwareVerified dt .. => dt
  | .trialConfirm dt .. => dt
  | .trialTimeout dt .. => dt
  | .commitSecurityVersion dt .. => dt
  | .microcodeUpdateCore dt .. => dt
  | .microcodeUpdateDone dt .. => dt
  | .attestationNonce dt .. => dt
  | .loopFrame dt .. => dt
  | .outputStrobe dt .. => dt
  | .loopOff dt .. => dt
  | .loopManual dt .. => dt
  | .loopAcquire dt .. => dt
  | .loopTrack dt .. => dt
  | .loopRestart dt .. => dt
  | .loopLocked dt .. => dt
  | .loopUnlocked dt .. => dt
  | .loopAcquireFail dt .. => dt
  | .loopPlausibility dt .. => dt
  | .loopDeadline dt .. => dt
  | .loopConfigWrite dt .. => dt
  | .coefficientWrite dt .. => dt
  | .injectStep dt .. => dt
  | .injectPrbs dt .. => dt
  | .injectSine dt .. => dt
  | .injectStop dt .. => dt
  | .injectionEnd dt .. => dt
  | .converterTick dt .. => dt
  | .adcReference dt .. => dt
  | .slewMove dt .. => dt
  | .queueTick dt .. => dt
  | .spanChangeEnd dt .. => dt
  | .dacDriverFault dt .. => dt
  | .arm dt .. => dt
  | .disarm dt .. => dt
  | .channelWrite dt .. => dt
  | .groupStrobe dt .. => dt
  | .queueWrite dt .. => dt
  | .channelConfigWrite dt .. => dt
  | .generatorWrite dt .. => dt
  | .wheelRun dt .. => dt
  | .sensorSample dt .. => dt
  | .hbmReportTimeout dt .. => dt
  | .sensorDeviationTimeout dt .. => dt
  | .throttleEvaluation dt .. => dt
  | .sensorReinstate dt .. => dt
  | .coreOrderlyStop dt .. => dt
  | .stackPowerDown dt .. => dt
  | .shutdownHandoverLimit dt .. => dt
  | .thermalHardTrip dt .. => dt
  | .feedRange dt .. => dt
  | .feedReturn dt .. => dt
  | .feedLost dt .. => dt
  | .bothFeedsLost dt .. => dt
  | .feedQualified dt .. => dt
  | .standbyReached dt .. => dt
  | .coreWarmingStep dt .. => dt
  | .warmingLimit dt .. => dt
  | .resetLoopAssert dt .. => dt
  | .resetLoopRelease dt .. => dt
  | .recalibrationDue dt .. => dt
  | .storeScrub dt .. => dt
  | .hbmScrub dt .. => dt
  | .telemetrySnapshot dt .. => dt
  | .repairFence dt .. => dt
  | .repairTest dt .. => dt
  | .repairRetire dt .. => dt
  | .repairUnretire dt .. => dt
  | .repairTestDone dt .. => dt
  | .cartridgeUnlatch dt .. => dt
  | .laserInterlockCut dt .. => dt
  | .cartridgeLatch dt .. => dt
  | .exportDatagram dt .. => dt
  | .stormPeriodEnd dt .. => dt
  | .eventFetch dt .. => dt
  | .cursorWrite dt .. => dt
  | .alarmAcknowledge dt .. => dt
  | .syncAndAnnounceSend dt .. => dt
  | .perstDeassertion dt .. => dt
  | .localOrRemoteFault dt .. => dt
  | .cartridgeRemoved dt .. => dt
  | .signatureIntervalEnd dt .. => dt

end Sys2Proof
end

