-- ==== Sys2Proof/Certificates/Slice0/Obligations.lean ====
section
/-! DEFINITION. What is claimed of the part, for the provers. In every clause `b` is the state that a command finds: the one it
was sent to, once the time `dt` has passed. -/

open Sys2Proof Sys2Proof.Machine

-- the machine as a whole

/-- One step takes the command at the front of the queue and runs it on the state without it. -/
def Obligations.StepRunsFrontCommand : Prop :=
  ∀ (c : Instr) (rest : List Instr) (s : State), s.pending = c :: rest → step s = exec c { s with pending := rest }

/-- On an empty queue a step lets one tick of the 1.25 GHz time base pass, 0.8 ns, and nothing else happens. That a step on an
empty queue is such a tick is the model's choice (log entry 5). -/
def Obligations.EmptyQueueStepIsOneTick : Prop :=
  ∀ s : State, s.pending = [] → ∃ t, step s = .next t ∧ s.Keeps [.clock] { t with clock := { t.clock with up := s.clock.up } } ∧
    t.clock.up = s.clock.up + 800 ∧ (s.clock.slewLeft = 0 → t.clock.now = s.clock.now + 800)

/-- Every command of the table takes effect: it answers a next state, it leaves the queue alone, it changes no part of the state
but those listed for it, what was put out stays put out, and the memory stays in its canonical form. -/
def Obligations.EveryCommandChangesOnlyItsParts : Prop :=
  ∀ (c : Instr) (s : State), ∃ t, exec c s = .next t ∧ (s.elapse c.dt).Keeps c.parts t ∧ t.clock.up = s.clock.up + c.dt

/-- Every step keeps the memory in its canonical form, from every state in which it is: addresses rise strictly and no listed
byte is 0, so equal memories are equal data. -/
def Obligations.StepKeepsMemoryCanonical : Prop :=
  ∀ s t : State, s.mem.wf → step s = .next t → t.mem.wf

/-- The memory is in its canonical form after reset. -/
def Obligations.ResetMemoryCanonical : Prop := State.reset.mem.wf

/-- What reset leaves (R275, R507): Kelig time is 0 s in FREE-RUN, the run state is BOOT, every byte of the memory reads 0, no
unit is in service, no job slot and no stream context is taken, no twin is paired, no host link is up and no event waits. -/
def Obligations.ResetValues : Prop :=
  State.reset.ns = 0 ∧ State.reset.time.lock = .freeRun ∧ State.reset.run.st = .boot ∧ State.reset.pending = [] ∧
  (∀ a, State.reset.mem.get a = 0) ∧ (∀ r, State.reset.unit r = .offline) ∧ (∀ j, (State.reset.job j).st = .free) ∧
  (∀ n, (State.reset.stream n).st = .free) ∧ State.reset.twin.st = .solo ∧ (∀ p, (State.reset.host p).linkUp = false) ∧
  State.reset.events.wheel.records = [] ∧ State.reset.openAlarms = 0 ∧ State.reset.al = 0 ∧
  State.reset.val 0x4000 1 = 1800

/-- A correction of Kelig time by a slew moves the tick by at most 2 ppm, and time never stands still for it or runs back: over
`d` ps of ticks it moves on by `d`, more or less by at most 2 ppm and the part of a ps already due; what it has moved is taken off
what is left to move; with no correction left it moves on by exactly `d` (R275). -/
def Obligations.SlewMovesTimeByAtMostTwoPpm : Prop :=
  ∀ (c : Clock) (d : Nat), c.slewAcc < 1000000 → 0 < d →
    (c.elapse d).up = c.up + d ∧ (c.elapse d).slewAcc < 1000000 ∧ c.now ≤ (c.elapse d).now ∧
    ((c.elapse d).now : Int) + (c.elapse d).slewLeft = c.now + d + c.slewLeft ∧
    1000000 * (((c.elapse d).now : Int) - c.now - d).natAbs ≤ 2 * d + c.slewAcc ∧
    (c.elapse d).slewLeft.natAbs ≤ c.slewLeft.natAbs ∧ (c.slewLeft = 0 → (c.elapse d).now = c.now + d)

/-- What is stored in the memory is read back byte for byte, and every byte outside the span reads as before (R225). -/
def Obligations.MemoryReadsBackWhatIsStored : Prop :=
  ∀ (m : Mem) (a : Nat) (bs : List Byte), (∀ i (h : i < bs.length), (m.write a bs).get (a + i) = bs[i]) ∧
    (∀ x, (x < a ∨ a + bs.length ≤ x) → (m.write a bs).get x = m.get x) ∧ (m.write a bs).read a bs.length = bs

-- power (R22 to R28)

/-- The governor (R24, R25, R27, R28). A draw at 97 % of the cap or more moves the first lever short of its limit, a draw that has
stayed below for 10 ms moves the last lever in force back, and either way no loop, converter, port, pending launch, job or byte of
memory changes. A draw that has stayed above the cap for 100 ms with every lever at its limit raises POWER_CAP_UNMET, and every
lever stays where it is. A new cap within 900 W to 1,800 W stands; another is refused, and the cap stays. -/
def Obligations.GovernorMovesOneLeverAndKeepsTheCap : Prop :=
  (∀ (s b m : State) (dt draw amount i : Nat), b = s.elapse dt → m = b.measure draw → 97 * m.val 0x4000 1 ≤ 100 * draw →
    (List.range 5).find? (fun i => !m.leverDone (i + 1)) = some i →
    ∃ t, exec (.governorLeverApply dt draw amount) s = .next t ∧ t.power.pace = (m.power.press (i + 1) amount).pace ∧
      t.power.issue = (m.power.press (i + 1) amount).issue ∧ t.power.windows = (m.power.press (i + 1) amount).windows ∧
      t.power.rate = (m.power.press (i + 1) amount).rate ∧ t.power.admitLimit = (m.power.press (i + 1) amount).admitLimit ∧
      t.val 0x4000 2 = min draw 65535 ∧ t.loops = b.loops ∧ t.convs = b.convs ∧ t.ports = b.ports ∧ t.sched = b.sched ∧
      t.jobs = b.jobs ∧ t.mem = b.mem) ∧
  (∀ (s b m : State) (dt draw amount since n : Nat), b = s.elapse dt → m = b.measure draw → m.power.belowSince = some since →
    since + 10 * msPs ≤ b.up → [5, 4, 3, 2, 1].find? m.leverOn = some n →
    ∃ t, exec (.governorLeverRelease dt draw amount) s = .next t ∧ t.power.pace = (m.power.ease n amount).pace ∧
      t.power.issue = (m.power.ease n amount).issue ∧ t.power.windows = (m.power.ease n amount).windows ∧
      t.power.rate = (m.power.ease n amount).rate ∧ t.power.admitLimit = (m.power.ease n amount).admitLimit ∧
      t.val 0x4000 2 = min draw 65535 ∧ t.loops = b.loops ∧ t.convs = b.convs ∧ t.ports = b.ports ∧ t.sched = b.sched ∧
      t.jobs = b.jobs ∧ t.mem = b.mem) ∧
  (∀ (s b m : State) (dt draw since : Nat), b = s.elapse dt → m = b.measure draw → m.power.overSince = some since →
    since + 100 * msPs ≤ b.up → m.power.capUnmet = false →
    ∃ t, exec (.powerCapUnmet dt draw) s = .next t ∧
      t = ({ m with power := { m.power with capUnmet := true } } : State).raise 0x0102 0 (m.val 0x4000 1) ∧
      t.power = { m.power with capUnmet := true } ∧ t.run = b.run ∧ t.jobs = b.jobs) ∧
  (∀ (s b : State) (dt : Nat) (road : Road) (watts : BitVec 16), b = s.elapse dt →
    b.admits road 0x4000 1 (leBytes 2 watts.toNat) →
    ∃ t, exec (.powerCapWrite dt road watts) s = .next t ∧ t.val 0x4000 1 = watts.toNat ∧ t.power.pace = b.power.pace ∧
      t.power.issue = b.power.issue ∧ t.power.windows = b.power.windows ∧ t.power.rate = b.power.rate ∧
      t.power.admitLimit = b.power.admitLimit ∧ t.jobs = b.jobs ∧ t.mem = b.mem) ∧
  (∀ (s b : State) (dt : Nat) (road : Road) (watts : BitVec 16), b = s.elapse dt →
    watts.toNat < 900 ∨ 1800 < watts.toNat →
    ∃ t, exec (.powerCapWrite dt road watts) s = .next t ∧ t.val 0x4000 1 = b.val 0x4000 1 ∧ t.power = b.power)

-- engines: alignment, windows and decisions (R41 to R85)

/-- The aligner, window boundaries and decisions (R49, R57, R62, R69, R77, R79, R72, R73, R85). A vector goes aligned to every engine
of the mask and to no other; with no vector that all its engines have room for, nothing happens. A window opens within the rate's
budget and holds its slot; beyond the budget the slot stays idle. A saturated original window makes room for its halves; a read
without confidence mode and without saturation is accepted. A calibration window takes an idle slot. Coefficients measured take
effect between vectors. The policy evaluates each due layer of its tag. -/
def Obligations.EnginesAlignOpenAndDecideWindows : Prop :=
  (∀ (s b st : State) (dt n : Nat) (core : Fin 16) (o : Op) (row : List Fp), b = s.elapse dt → b.unitWorks (coreRef core) = true →
    b.nextAligned core (b.core core).alignable [] = some (n, o) → b.inputRow core o o.aligned = (stOk, st, row) →
    let a := alignVector row (pCoding o.word = 0) (codeBits (pCoding o.word) (pBits o.word))
    ∃ t, exec (.alignerVector dt core) s = .next t ∧
      (∀ e ∈ o.engines, (t.eng core e).inbuf.getLast? = some { op := n, v := o.aligned, codes := a.1, wexp := a.2.1 }) ∧
      (∀ c e : Nat, e < 34 → (c ≠ core ∨ e ∉ o.engines) → t.eng c e = b.eng c e) ∧ t.mem = b.mem) ∧
  (∀ (s b : State) (dt : Nat) (core : Fin 16), b = s.elapse dt → b.nextAligned core (b.core core).alignable [] = none →
    exec (.alignerVector dt core) s = .next b) ∧
  (∀ (s b c : State) (dt : Nat) (core : Fin 16) (eng : Fin 34) (g g' : Engine) (w : Window) (r : PassRun) (p : TvWord)
    (first : Option Int), b = s.elapse dt → (b.eng core eng).converting = none → (b.eng core eng).slotEnd ≤ b.up →
    c = b.shiftWindow core eng → c.mayOpen core eng = true → g = (c.eng core eng).group (c.windowRate core) →
    c.nextWindow core eng g = .opens w g' r p first →
    ∃ t, exec (.windowOpen dt core eng) s = .next t ∧
      (g.used < g.rate → (t.eng core eng).integrating = some w ∧ (t.eng core eng).used = g'.used + 1 ∧
        b.up + windowPs (pBits p) ≤ (t.eng core eng).slotEnd) ∧
      (g.rate ≤ g.used → t.eng core eng = { (g.pass1 false) with slotEnd := c.up + windowPs (pBits p) }) ∧ t.mem = b.mem) ∧
  (∀ (s b : State) (dt : Nat) (core : Fin 16) (eng : Fin 34) (charges : List Int) (gaps : List Nat) (w : Window) (r : PassRun)
    (o : Op) (v : AVec), b = s.elapse dt → (b.eng core eng).converting = some w →
    (b.eng core eng).passes.find? (fun r => r.op = w.op) = some r → (b.core core).op w.op = some o →
    (b.eng core eng).vectorOf w = some v → w.unused = false →
    let cs := convertAll w (pBits o.word) charges gaps
    ∃ t, exec (.windowDecision dt core eng charges gaps) s = .next t ∧ (t.eng core eng).converting = none ∧
      (cs.any (fun x => x.sat) = true → w.kind = .original → (t.eng core eng).integrating = none ∧
        ∃ rest, (t.eng core eng).todo = splitHalves o.word v w ++ rest) ∧
      (cs.any (fun x => x.sat) = false → pConfMode o.word = 0 →
        t.eng core eng = ({ b.eng core eng with converting := none } : Engine).accept o.word v r.plane
          { w with reads := w.reads ++ [{ codes := cs.map (fun x => x.code), noise := cs.map (fun x => x.noise) }] }) ∧
      (∀ c e : Nat, e < 34 → (c ≠ core ∨ e ≠ eng) → t.eng c e = b.eng c e) ∧ t.mem = b.mem) ∧
  (∀ (s b : State) (dt : Nat) (core : Fin 16) (eng : Fin 34) (g : Engine) (r : CalRun), b = s.elapse dt →
    g = (b.eng core eng).group (b.windowRate core) → b.engineOut core eng = false → (b.core core).pulse = .locked →
    g.stopping = false → g.integrating = none → g.converting = none → b.nextWindow core eng g = .none → g.slotEnd ≤ b.up →
    b.head core eng opBankSwap = none → g.used < g.rate → g.cal = some r → r.done < 4096 → r.cls < 3 →
    ∃ t, exec (.calibrationWindow dt core eng) s = .next t ∧ (t.eng core eng).cal = some { r with done := r.done + 1 } ∧
      (t.eng core eng).used = g.used + 1 ∧ b.up + windowPs r.bits ≤ (t.eng core eng).slotEnd ∧
      (∀ c e : Nat, e < 34 → (c ≠ core ∨ e ≠ eng) → t.eng c e = b.eng c e)) ∧
  (∀ (s b : State) (dt : Nat) (core : Fin 16) (eng : Fin 34), b = s.elapse dt →
    ∃ t, exec (.coefficientsTakeEffect dt core eng) s = .next t ∧
      t.eng core eng = (if (b.eng core eng).todo = [] then { b.eng core eng with
        plane0 := (b.eng core eng).plane0.takeFresh, plane1 := (b.eng core eng).plane1.takeFresh } else b.eng core eng) ∧
      (∀ c e : Nat, e < 34 → (c ≠ core ∨ e ≠ eng) → t.eng c e = b.eng c e)) ∧
  (∀ (s b : State) (dt : Nat) (job : Fin 8) (tag : BitVec 14), b = s.elapse dt → b.flag 0x4008 6 = true →
    (b.job job).layers.any (fun l => l.tag = tag.toNat && l.k.isSome && b.val 0x4008 3 ≤ l.windows) = true →
    ∃ t, exec (.headroomPolicyEval dt job tag) s = .next t ∧
      (t.job job).layers = (b.job job).layers.map (fun l => if l.tag = tag.toNat && l.k.isSome && b.val 0x4008 3 ≤ l.windows then
        evalLayer (b.val 0x4008 1) (b.val 0x4008 2) (b.val 0x4008 4) l else l) ∧ (∀ j : Nat, j ≠ job → t.job j = b.job j))

/-- The vat (R140, R146, R147, R149, R150). The oldest result of an engine updates its vat row by the rounding rules, and a row that
reaches its SPILL interval or the limit of its segment is captured on its way to churn; with 16 rows on their way nothing is
updated. The oldest captured row lands in its churn entry. SPILL captures every row of its range that holds terms, and RESUME
marks the rows of its range as continued in churn. -/
def Obligations.VatUpdatesSpillsAndResumes : Prop :=
  (∀ (s b : State) (dt : Nat) (core : Fin 16) (eng : Fin 34) (r : VecResult) (rest : List VecResult) (o : Op) (u : Row × Nat),
    b = s.elapse dt → (b.eng core eng).results = r :: rest → (b.eng core eng).spills.length < 16 →
    (b.core core).op r.op = some o → spillsFirst o.word (tget (b.eng core eng).vat (passRow o.word r.v)) = false →
    u = updateRow o.word (engineKey (b.seedOf core) core eng) (b.eng core eng).srCtr r.terms
      (tget (b.eng core eng).vat (passRow o.word r.v)) →
    ∃ t, exec (.vatUpdate dt core eng) s = .next t ∧ (t.eng core eng).results = rest ∧
      (t.eng core eng).srCtr = ((b.eng core eng).srCtr + 1) % 2 ^ 64 ∧
      (∀ row : Nat, row ≠ passRow o.word r.v → tget (t.eng core eng).vat row = tget (b.eng core eng).vat row) ∧
      (u.1.addCount < u.1.limit → (spillInterval (pSpill o.word) = 0 ∨ u.1.addCount < spillInterval (pSpill o.word)) →
        tget (t.eng core eng).vat (passRow o.word r.v) = u.1) ∧
      (u.1.limit ≤ u.1.addCount → (tget (t.eng core eng).vat (passRow o.word r.v)).addCount = 0 ∧
        ∃ x, (t.eng core eng).spills.getLast? = some x ∧ x.row = passRow o.word r.v ∧ x.vals = u.1.vals) ∧
      (∀ c e : Nat, e < 34 → (c ≠ core ∨ e ≠ eng) → t.eng c e = b.eng c e) ∧ t.mem = b.mem) ∧
  (∀ (s b : State) (dt : Nat) (core : Fin 16) (eng : Fin 34) (r : VecResult) (rest : List VecResult), b = s.elapse dt →
    (b.eng core eng).results = r :: rest → 16 ≤ (b.eng core eng).spills.length →
    exec (.vatUpdate dt core eng) s = .next (b.bump (engIdx core eng) 0x34 (dt / 1000))) ∧
  (∀ (s b : State) (dt : Nat) (core : Fin 16) (eng : Fin 34) (x : SpillRow) (rest : List SpillRow), b = s.elapse dt →
    (b.eng core eng).spills = x :: rest →
    ∃ t, exec (.churnWrite dt core eng) s = .next t ∧ (t.eng core eng).spills = rest ∧
      t.mem = b.mem.write x.addr (churnEntry b.mem x.addr x.vals (tget (b.eng core eng).vat x.row).churnValid) ∧
      tget (t.eng core eng).vat x.row = { tget (b.eng core eng).vat x.row with churnValid := true } ∧
      (∀ row : Nat, row ≠ x.row → tget (t.eng core eng).vat row = tget (b.eng core eng).vat row) ∧
      (∀ c e : Nat, e < 34 → (c ≠ core ∨ e ≠ eng) → t.eng c e = b.eng c e)) ∧
  (∀ (s b : State) (dt n : Nat) (core : Fin 16) (queue : Fin 66) (o : Op), b = s.elapse dt →
    b.head core queue opSpill = some (n, o) → b.queueFault core queue = stOk →
    b.rowsFree core queue n (pTileBase o.word) (pTileRows o.word) = true →
    ∃ t, exec (.spill dt core queue) s = .next t ∧
      (queue.val < 34 → ((b.vatOf core queue).filter (fun x => pTileBase o.word ≤ x.1 && x.1 < pTileBase o.word + pTileRows o.word &&
          0 < x.2.addCount)).length + (b.eng core queue).spills.length ≤ 16 →
        ∀ row : Nat, pTileBase o.word ≤ row → row < pTileBase o.word + pTileRows o.word →
          (tget (t.vatOf core queue) row).addCount = 0) ∧
      ((b.vatOf core queue).any (fun x => pTileBase o.word ≤ x.1 && x.1 < pTileBase o.word + pTileRows o.word && 0 < x.2.addCount)
          = false →
        (queue.val < 34 → (b.eng core queue).spills = []) →
        t = (b.modCore core (fun k => k.modOp n (fun o => { o with stage := .running }))).part core n queue stOk) ∧
      (queue.val < 34 → t.mem = b.mem)) ∧
  (∀ (s b : State) (dt n : Nat) (core : Fin 16) (queue : Fin 66) (o : Op), b = s.elapse dt →
    b.head core queue opResume = some (n, o) → b.queueFault core queue = stOk →
    b.rowsFree core queue n (pTileBase o.word) (pTileRows o.word) = true →
    ∃ v, exec (.resume dt core queue) s = .next ((b.setVat core queue v).part core n queue stOk) ∧
      ∀ row : Nat, tget v row = if pTileBase o.word ≤ row ∧ row < pTileBase o.word + pTileRows o.word
        then { tget (b.vatOf core queue) row with churnValid := true } else tget (b.vatOf core queue) row)

/-- Engines that fault, and the pulse reference (R36, R39, R64, R75, R100). An engine with a faulted loop is FENCED at its window
boundary, or RETIRED once it has faulted too often. A pulse reference that loses lock acquires again, and each window in the light
goes first in line for its reissue; on its relock issue resumes; once the relock limit has passed the core is FENCED, and its vats
stay as they are. A write-driver fault raises its event and fences the engine. A calibration past its stale limit marks the engine
and raises the event. -/
def Obligations.EngineFaultsAndPulseReference : Prop :=
  (∀ (s b : State) (dt : Nat) (core : Fin 16) (eng : Fin 34), b = s.elapse dt → (b.eng core eng).stopping = true →
    ∃ t, exec (.engineFaultStop dt core eng) s = .next t ∧
      (t.unit (engineRef core eng) = .fenced ∨ t.unit (engineRef core eng) = .retired) ∧
      (t.eng core eng).stopping = false ∧ (t.eng core eng).cal = none ∧ t.mem = b.mem) ∧
  (∀ (s b : State) (dt : Nat) (core : Fin 16), b = s.elapse dt → (b.core core).pulse = .locked →
    ∃ t, exec (.pulseRefLockLoss dt core) s = .next t ∧ (t.core core).pulse = .acquiring ∧
      (t.core core).pulseLost = some (b.ns, b.val (coreIdx core) 0x23) ∧
      (∀ e : Nat, e < 34 → (t.eng core e).integrating = none ∧
        (t.eng core e).todo = (b.eng core e).integrating.toList ++ (b.eng core e).todo ∧ (t.eng core e).vat = (b.eng core e).vat) ∧
      (∀ c : Nat, c ≠ core → t.core c = b.core c) ∧ t.mem = b.mem) ∧
  (∀ (s b : State) (dt : Nat) (core : Fin 16), b = s.elapse dt → (b.core core).pulse = .acquiring →
    exec (.pulseRefRelock dt core) s = .next (b.modCore core (fun k => { k with pulse := .locked, pulseLost := none }))) ∧
  (∀ (s b : State) (dt since limit : Nat) (core : Fin 16), b = s.elapse dt → (b.core core).pulseLost = some (since, limit) →
    since + 1000 * limit ≤ b.ns →
    ∃ t, exec (.pulseRefUnlock dt core) s = .next t ∧
      t = ((b.modCore core (fun k => { k with pulse := .unlocked, pulseLost := none })).raise 0x0201 (coreRef core) 0).fence
        (coreRef core) ∧ (t.unit (coreRef core) = .fenced ∨ t.unit (coreRef core) = .retired) ∧
      (∀ e : Nat, e < 34 → (t.eng core e).vat = (b.eng core e).vat) ∧ t.mem = b.mem) ∧
  (∀ (s b : State) (dt : Nat) (core : Fin 16) (eng : Fin 34) (w : WriteRun), b = s.elapse dt →
    (b.eng core eng).writing = some w → w.phase ≠ .waiting →
    ∃ t, exec (.bankWriteFault dt core eng) s = .next t ∧
      t = (b.raise 0x0205 (engineRef core eng) w.plane).fence (engineRef core eng) ∧
      (t.unit (engineRef core eng) = .fenced ∨ t.unit (engineRef core eng) = .retired) ∧ t.mem = b.mem) ∧
  (∀ (s b : State) (dt age : Nat) (core : Fin 16) (eng : Fin 34), b = s.elapse dt → (b.eng core eng).stale = false →
    (b.eng core eng).calibratedLast ≠ 0 → age = b.up - (b.eng core eng).calibratedLast →
    b.val (coreIdx core) 0x28 * sPs < age →
    ∃ t, exec (.calStale dt core eng) s = .next t ∧ t.eng core eng = { b.eng core eng with stale := true } ∧
      t = (b.modEng core eng (fun g => { g with stale := true })).raise 0x0203 (engineRef core eng) (age / msPs % 2 ^ 32) ∧
      (∀ c e : Nat, e < 34 → (c ≠ core ∨ e ≠ eng) → t.eng c e = b.eng c e))

/-- The end of a calibration (R72, R73, R74, R75). With every offset within its range and every gain within 0.75 to 1.33, the
coefficients of a BITS code wait for the next vector boundary, the bank counts as calibrated there and a VERIFIED bank becomes LIVE.
An offset out of range fails the calibration, raises its alarm and fences the engine. -/
def Obligations.CalibrationMakesAVerifiedBankLive : Prop :=
  (∀ (s b : State) (dt : Nat) (core : Fin 16) (eng : Fin 34) (measured m : Measured) (r : CalRun) (p : Plane), b = s.elapse dt →
    (b.eng core eng).cal = some r → 4096 ≤ r.done → p = (b.eng core eng).plane r.plane → m = p.constGains measured →
    (∀ j : Nat, j < 256 → ∀ l ∈ m.offsets, (l.getD j 0).natAbs ≤ 512) → p.badGains m = [] → b.twin.records = [] →
    ∃ t, exec (.calibrationComplete dt core eng measured) s = .next t ∧ (t.eng core eng).cal = none ∧
      (t.eng core eng).plane r.plane = p.calibratedAt r.bits b.up m ∧ (p.st = .verified → ((t.eng core eng).plane r.plane).st = .live) ∧
      r.bits ∈ ((t.eng core eng).plane r.plane).calibrated ∧ tget ((t.eng core eng).plane r.plane).fresh r.bits = some m ∧
      (t.eng core eng).stale = false ∧ (t.eng core eng).calFailed = false ∧
      (∀ c e : Nat, e < 34 → (c ≠ core ∨ e ≠ eng) → t.eng c e = b.eng c e) ∧ t.mem = b.mem) ∧
  (∀ (s b : State) (dt j : Nat) (core : Fin 16) (eng : Fin 34) (measured m : Measured) (r : CalRun), b = s.elapse dt →
    (b.eng core eng).cal = some r → 4096 ≤ r.done → m = ((b.eng core eng).plane r.plane).constGains measured →
    (List.range 256).find? (fun j => m.offsets.any (fun l => 512 < (l.getD j 0).natAbs)) = some j →
    ∃ t, exec (.calibrationComplete dt core eng measured) s = .next t ∧
      t = ((((b.modEng core eng (fun g => { g with cal := none })).modEng core eng (fun g => { g with calFailed := true })).bump
        (engIdx core eng) 0x1F 1).raise 0x0202 (engineRef core eng) j).fence (engineRef core eng) ∧
      (t.unit (engineRef core eng) = .fenced ∨ t.unit (engineRef core eng) = .retired) ∧ t.mem = b.mem)

-- banks (R90 to R111, R197 to R199)

/-- BANK.WRITE and BANK.SWAP (R104, R110, R197, R198, R259). At the head of an engine queue a write takes the write controller, or
waits while another runs; one with both places taken stays. An unchanged image is skipped where the word allows it. Without PROG for
the core the instruction ends with ACCESS. A swap waits at the head of its queue until every window of the passes before it has
retired; then the planes behind B0 and B1 change places, and their contents stay. -/
def Obligations.BankWriteAndSwap : Prop :=
  (∀ (s b : State) (dt n : Nat) (core : Fin 16) (queue : Fin 66) (o : Op) (g : Engine) (run : WriteRun), b = s.elapse dt →
    b.head core queue opBankWrite = some (n, o) → b.queueFault core queue = stOk → b.mayProgram core = true → queue.val < 34 →
    wSkip o.word = false → g = (if (b.eng core queue).rotates (wBank o.word) (b.val 0x4007 4)
      then { b.eng core queue with b0 := 1 - (b.eng core queue).b0 } else b.eng core queue) →
    run = { op := some n, plane := g.planeOf (wBank o.word), record :=
      { job := b.coreJob core, tag := wTag o.word, image := o.imageFor (((b.core core).slotOf queue).getD 0), calB := wCalB o.word } } →
    ((b.eng core queue).writing.isSome = true → (b.eng core queue).writeWait.isSome = false) →
    ∃ t, exec (.bankWrite dt core queue) s = .next t ∧
      t.eng core queue = (if g.writing.isNone then { g with writing := some run } else { g with writeWait := some run }) ∧
      n ∉ (t.core core).queue queue ∧ (∀ c e : Nat, e < 34 → (c ≠ core ∨ e ≠ queue) → t.eng c e = b.eng c e) ∧ t.mem = b.mem) ∧
  (∀ (s b : State) (dt n a : Nat) (core : Fin 16) (queue : Fin 66) (o : Op), b = s.elapse dt →
    b.head core queue opBankWrite = some (n, o) → b.queueFault core queue = stOk → b.mayProgram core = true → queue.val < 34 →
    wSkip o.word = true → a = o.imageFor (((b.core core).slotOf queue).getD 0) →
    (b.access (b.coreJob core) a imageBytes rightR).1 = stOk →
    ((b.eng core queue).plane ((b.eng core queue).planeOf (wBank o.word))).current (b.coreJob core) (wTag o.word)
      (imageCheck b.mem a) = true →
    exec (.bankWrite dt core queue) s = .next (b.part core n queue stOk)) ∧
  (∀ (s b : State) (dt n : Nat) (core : Fin 16) (queue : Fin 66) (o : Op), b = s.elapse dt → b.queueFault core queue = stOk →
    b.mayProgram core = false →
    (b.head core queue opBankWrite = some (n, o) → exec (.bankWrite dt core queue) s = .next (b.progDenied core queue n)) ∧
    (b.head core queue opBankSwap = some (n, o) → exec (.bankSwap dt core queue) s = .next (b.progDenied core queue n))) ∧
  (∀ (s b : State) (dt n : Nat) (core : Fin 16) (queue : Fin 66) (o : Op), b = s.elapse dt →
    b.head core queue opBankSwap = some (n, o) → b.queueFault core queue = stOk → b.mayProgram core = true → queue.val < 34 →
    exec (.bankSwap dt core queue) s = .next (b.modCore core (fun k => k.modOp n (fun o => { o with stage := .running })))) ∧
  (∀ (s b : State) (dt n : Nat) (core : Fin 16) (eng : Fin 34) (o : Op), b = s.elapse dt →
    b.head core eng opBankSwap = some (n, o) → (b.eng core eng).windowsRetired = true → b.engineOut core eng = false →
    b.mayProgram core = true →
    ∃ t, exec (.bankSwapApply dt core eng) s = .next t ∧ (t.eng core eng).b0 = 1 - (b.eng core eng).b0 ∧
      (t.eng core eng).plane0 = (b.eng core eng).plane0 ∧ (t.eng core eng).plane1 = (b.eng core eng).plane1 ∧
      t = (b.modEng core eng (fun g => { g with b0 := 1 - g.b0 })).part core n eng stOk) ∧
  (∀ (s b : State) (dt n : Nat) (core : Fin 16) (eng : Fin 34) (o : Op), b = s.elapse dt →
    b.head core eng opBankSwap = some (n, o) → (b.eng core eng).windowsRetired = false →
    exec (.bankSwapApply dt core eng) s = .next b)

/-- A bank write (R93 to R98, R100). The reset begins once no window or refresh chunk is in the light of the plane: the plane is
WRITING, its rewrite is counted, and its record, scales, levels and CONST flags are the image's; an image out of form ends the write
with BANK_IMAGE. A reset that leaves a cell above half a level is done once more. A column whose every cell passes is done; one with
a cell that fails is pulsed again, up to 12 times, and what still fails counts as weak. -/
def Obligations.BankWritesProgramTheImage : Prop :=
  (∀ (s b : State) (dt : Nat) (core : Fin 16) (eng : Fin 34) (w : WriteRun), b = s.elapse dt →
    (b.eng core eng).writing = some w → w.phase = .waiting → (b.eng core eng).planeIdle w.plane = true → w.op.isSome = true →
    w.restore = false → (b.access w.record.job w.record.image imageBytes rightR).1 = stOk →
    (b.access w.record.job w.record.image imageBytes rightR).2 = b → (b.eng core eng).cal = none →
    imageOk (imageScales b.mem w.record.image) (imageLevels b.mem w.record.image) = true →
    ∃ t, exec (.bankWriteReset dt core eng) s = .next t ∧ ((t.eng core eng).plane w.plane).st = .writing ∧
      ((t.eng core eng).plane w.plane).rewrites = wrapAdd 8 ((b.eng core eng).plane w.plane).rewrites 1 ∧
      ((t.eng core eng).plane w.plane).record = some { w.record with check := imageCheck b.mem w.record.image } ∧
      ((t.eng core eng).plane w.plane).scales = imageScales b.mem w.record.image ∧
      ((t.eng core eng).plane w.plane).weights = imageLevels b.mem w.record.image ∧
      ((t.eng core eng).plane w.plane).flags = constFlags (imageLevels b.mem w.record.image) ∧
      ((t.eng core eng).plane w.plane).map = ((b.eng core eng).plane w.plane).map ∧
      (∃ r, (t.eng core eng).writing = some r ∧ r.phase = .reset ∧ r.resets = 0 ∧ r.startAt = b.up) ∧
      (∀ c e : Nat, e < 34 → (c ≠ core ∨ e ≠ eng) → t.eng c e = b.eng c e) ∧ t.mem = b.mem) ∧
  (∀ (s b : State) (dt : Nat) (core : Fin 16) (eng : Fin 34) (w : WriteRun), b = s.elapse dt →
    (b.eng core eng).writing = some w → w.phase = .waiting → (b.eng core eng).planeIdle w.plane = true → w.op.isSome = true →
    w.restore = false → (b.access w.record.job w.record.image imageBytes rightR).1 = stOk →
    (b.access w.record.job w.record.image imageBytes rightR).2 = b → (b.eng core eng).cal = none →
    imageOk (imageScales b.mem w.record.image) (imageLevels b.mem w.record.image) = false →
    exec (.bankWriteReset dt core eng) s = .next (b.writeEnds core eng w stBankImage)) ∧
  (∀ (s b : State) (dt highest : Nat) (core : Fin 16) (eng : Fin 34) (w : WriteRun), b = s.elapse dt →
    (b.eng core eng).writing = some w → w.phase = .reset → w.startAt + 200 * usPs * (w.resets + 1) ≤ b.up →
    (500 < highest → w.resets = 0 → exec (.bankResetSurvey dt core eng highest) s =
      .next (b.modEng core eng (fun g => { g with writing := some { w with resets := 1 } }))) ∧
    (highest ≤ 500 ∨ w.resets ≠ 0 → exec (.bankResetSurvey dt core eng highest) s =
      .next (b.modEng core eng (fun g => { g with writing := some { w with resets := w.resets + 1, phase := .columns 0 false 0 } })))) ∧
  (∀ (s b : State) (dt j it : Nat) (neg : Bool) (core : Fin 16) (eng : Fin 34) (levels failing : List Nat) (w : WriteRun),
    b = s.elapse dt → (b.eng core eng).writing = some w → w.phase = .columns j neg it →
    failing = failingRows ((b.eng core eng).plane w.plane) j neg (if it = 0 then List.range 512 else w.failing) levels →
    (failing ≠ [] → it ≠ 12 → exec (.bankColumnVerify dt core eng levels) s = .next (b.modEng core eng (fun g =>
      { g with writing := some { w with failing := failing, phase := .columns j neg (it + 1) } }))) ∧
    (failing ≠ [] → it = 12 → exec (.bankColumnVerify dt core eng levels) s =
      .next (b.columnEnds core eng { w with weakPair := w.weakPair + failing.length })) ∧
    (failing = [] → neg = false → exec (.bankColumnVerify dt core eng levels) s = .next (b.modEng core eng (fun g =>
      { g with writing := some { w with phase := .columns j true 0, failing := [] } }))) ∧
    (failing = [] → neg = true → j = 255 → w.weakPair ≤ w.limit → w.remaps = [] → w.spare = none →
      ∃ t, exec (.bankColumnVerify dt core eng levels) s = .next t ∧ ((t.eng core eng).plane w.plane).st = .verified ∧
        ((t.eng core eng).plane w.plane).calDue = [(w.record.calB, 1, b.up)] ∧
        (∀ c e : Nat, e < 34 → (c ≠ core ∨ e ≠ eng) → t.eng c e = b.eng c e)))

/-- Drift refresh (R103, R107, R108, R109). The oldest LIVE plane of a core past its period starts its refresh while its image still
has the recorded check code; else the event is raised and the plane stays LIVE. A chunk starts once its spacing has passed with no
window in the light of the plane. Each chunk is counted; after the 32nd the plane is LIVE again. -/
def Obligations.DriftRefreshRunsInChunks : Prop :=
  (∀ (s b : State) (dt : Nat) (core : Fin 16) (eng : Fin 34) (plane : Fin 2) (p : Plane) (r : BankRecord), b = s.elapse dt →
    p = (b.eng core eng).plane plane → b.refreshAge p = true →
    (∀ x ∈ b.engines, x.1 / 34 = core → ∀ y ∈ [x.2.plane0, x.2.plane1], b.refreshAge y = true → p.refreshedAt ≤ y.refreshedAt) →
    (b.eng core eng).writesTo plane = false → b.engineOut core eng = false → p.record = some r →
    b.touchesRetired r.image imageBytes = false →
    (imageCheck b.mem r.image = r.check → exec (.driftRefreshDue dt core eng plane) s = .next (b.modEng core eng (fun g =>
      g.modPlane plane (fun p => { p with st := .refreshing, refresh := some { limit := b.val 0x4007 1, threshold := b.val 0x4007 6 } })))) ∧
    (imageCheck b.mem r.image ≠ r.check → exec (.driftRefreshDue dt core eng plane) s = .next (((b.modEng core eng (fun g =>
      g.modPlane plane (fun p => { p with refreshTry := b.up }))).bump (engIdx core eng) 0x2F 1).raise 0x0206 (engineRef core eng)
        ((b.eng core eng).bankOf plane)))) ∧
  (∀ (s b : State) (dt : Nat) (core : Fin 16) (eng : Fin 34) (plane : Fin 2) (r : Refresh), b = s.elapse dt →
    ((b.eng core eng).plane plane).refresh = some r → r.active = false →
    (r.chunk = 0 ∨ r.endedAt + b.val 0x4007 3 * usPs ≤ b.up) → (b.eng core eng).todo = [] → (b.eng core eng).integrating = none →
    (b.eng core eng).writesTo plane = false → b.engineOut core eng = false →
    ∃ t, exec (.refreshChunkStart dt core eng plane) s = .next t ∧
      ((t.eng core eng).plane plane).refresh = some { r with active := true } ∧
      (t.eng core eng).plane (1 - plane) = (b.eng core eng).plane (1 - plane) ∧
      (∀ c e : Nat, e < 34 → (c ≠ core ∨ e ≠ eng) → t.eng c e = b.eng c e)) ∧
  (∀ (s b : State) (dt : Nat) (core : Fin 16) (eng : Fin 34) (plane : Fin 2) (averages finals : List (List Nat)) (r : Refresh)
    (p : Plane) (cells : List (Nat × Nat)), b = s.elapse dt → p = (b.eng core eng).plane plane → p.refresh = some r →
    r.active = true →
    cells = (List.range 8).map (fun i =>
      let x := refreshColumn p r (8 * r.chunk + i) false (averages.getD (2 * i) []) (finals.getD (2 * i) [])
      let y := refreshColumn p r (8 * r.chunk + i) true (averages.getD (2 * i + 1) []) (finals.getD (2 * i + 1) [])
      (x.1 + y.1, x.2 + y.2)) → (∀ x ∈ cells, x.2 ≤ r.limit) →
    ∃ t, exec (.refreshChunkEnd dt core eng plane averages finals) s = .next t ∧
      (r.chunk + 1 < 32 → ((t.eng core eng).plane plane).refresh = some
        { r with
          chunk := r.chunk + 1, active := false, endedAt := b.up, rewrote := r.rewrote || 0 < (cells.map (fun x => x.1)).sum
          weak := r.weak + (cells.map (fun x => x.2)).sum } ∧
        ((t.eng core eng).plane plane).st = p.st) ∧
      (32 ≤ r.chunk + 1 → ((t.eng core eng).plane plane).refresh = none ∧ ((t.eng core eng).plane plane).st = .live ∧
        ((t.eng core eng).plane plane).refreshedAt = b.up) ∧
      (∀ c e : Nat, e < 34 → (c ≠ core ∨ e ≠ eng) → t.eng c e = b.eng c e) ∧ t.mem = b.mem)

-- the core sequencer (R170 to R173, R190, R191, R212 to R223)

/-- Decoding (R170, R190, R191, R217). While a core works and its table has room, the word at the program counter enters the table
under the next number, with the words before it known; the counter moves on by 16 bytes. A word that fails its checks enters too and
completes at once with its status. A full table is waited for, and the wait is counted. -/
def Obligations.SequencerDecodesTheNextWord : Prop :=
  (∀ (s b : State) (dt n : Nat) (core : Fin 16) (x y : CoreStep) (w : TvWord), b = s.elapse dt → (b.core core).step = some y →
    b.unitWorks (coreRef core) = true → y.decodeDone = false → b.quiescing core = false → (b.core core).pathSel = none →
    (b.core core).ops.length < 4096 → x = y.leaveSpan → w = BitVec.ofNat 128 (b.mem.num x.pc 16) → n = (b.core core).nextOp →
    decodeStatus w x.span.isSome = stOk →
    ∃ t, exec (.instructionDecode dt core) s = .next t ∧
      (t.core core).ops = (b.core core).ops ++ [(n, { word := w, addr := x.pc, prev := x.prev })] ∧ (t.core core).nextOp = n + 1 ∧
      (t.core core).step = some { x with pc := x.pc + 16, prev := w, decodeDone := opcodeOf w = opEnd } ∧
      (t.core core).queues = (b.core core).queues ∧ (∀ c : Nat, c ≠ core → t.core c = b.core c) ∧ t.jobs = b.jobs ∧ t.mem = b.mem) ∧
  (∀ (s b m : State) (dt n st : Nat) (core : Fin 16) (x y : CoreStep) (w : TvWord), b = s.elapse dt → (b.core core).step = some y →
    b.unitWorks (coreRef core) = true → y.decodeDone = false → b.quiescing core = false → (b.core core).pathSel = none →
    (b.core core).ops.length < 4096 → x = y.leaveSpan → w = BitVec.ofNat 128 (b.mem.num x.pc 16) → n = (b.core core).nextOp →
    st = decodeStatus w x.span.isSome → st ≠ stOk →
    m = b.modCore core (fun k => { k with nextOp := n + 1, ops := k.ops ++ [(n, { word := w, addr := x.pc, prev := x.prev })]
                                          step := some { x with pc := x.pc + 16, prev := w, decodeDone := false } }) →
    exec (.instructionDecode dt core) s =
      .next (((m.bump (coreIdx core) 8 1).raiseTo (coreIdx core) 7 (m.core core).ops.length).retire core n st)) ∧
  (∀ (s b : State) (dt : Nat) (core : Fin 16) (y : CoreStep), b = s.elapse dt → (b.core core).step = some y →
    b.unitWorks (coreRef core) = true → y.decodeDone = false → b.quiescing core = false → (b.core core).pathSel = none →
    4096 ≤ (b.core core).ops.length →
    exec (.instructionDecode dt core) s = .next (b.bump (coreIdx core) 9 (dt / 1000))) ∧
  (∀ (s b : State) (dt n : Nat) (core : Fin 16) (o : Op) (x y : CoreStep) (p : Place), b = s.elapse dt →
    b.unitWorks (coreRef core) = true → (b.core core).pathSel = some (n, o) → (b.core core).step = some x → x.span = none →
    b.placement core (fld o.word 111 98) = some p →
    y = (if p = .digital then { x with pc := x.pc + 16 * fld o.word 97 82, span := some (x.pc + 16 * fld o.word 97 82 + 16 * fld o.word 81 66, x.pc + 16 * fld o.word 97 82 + 16 * fld o.word 81 66) }
      else { x with span := some (x.pc + 16 * fld o.word 97 82, x.pc + 16 * fld o.word 97 82 + 16 * fld o.word 81 66) }) →
    exec (.pathSel dt core) s = .next ((b.modCore core (fun k => { k with step := some y })).retire core n stOk))

/-- Dispatch (R171, R195, R219, R220). An instruction that no earlier one holds, whose queues have room and whose checks and
dependencies pass enters them; one that fails a check stands completed with its status; one that must wait stays. -/
def Obligations.DispatchEntersTheQueues : Prop :=
  (∀ (s b : State) (dt op : Nat) (core : Fin 16) (o : Op) (qs : List Nat) (before : List Footprint) (f : Footprint), b = s.elapse dt →
    (b.core core).op op = some o → o.stage = .decoded → opcodeOf o.word ≠ opPathSel → opcodeOf o.word ≠ opPass →
    b.unitWorks (coreRef core) = true → b.quiescing core = false → (b.core core).held op = false →
    (b.core core).ops.any (fun x => x.1 < op && x.2.stage = .decoded && (b.core core).sharesQueue x.2.word o.word) = false →
    (b.core core).opQueues o.word = some qs → b.earlier core op (b.core core).ops.reverse = some before →
    before.any (fun f => piecesMeet f.writes (b.entryPieces core o.word)) = false → b.footprint core op o = (stOk, f) →
    piecesMapped (f.reads ++ f.writes) = true →
    before.any (fun e => piecesMeet e.writes (f.reads ++ f.writes) || piecesMeet e.reads f.writes) = false →
    b.piecesRetired (f.reads ++ f.writes) = false → qs.all (fun q => ((b.core core).queue q).length < queueDepth q) = true →
    exec (.instructionDispatch dt core op) s = .next (b.enqueue core op qs f)) ∧
  (∀ (s b : State) (dt op : Nat) (core : Fin 16) (o : Op), b = s.elapse dt → (b.core core).op op = some o → o.stage = .decoded →
    opcodeOf o.word ≠ opPathSel → b.unitWorks (coreRef core) = true → b.quiescing core = false → (b.core core).held op = false →
    (b.core core).ops.any (fun x => x.1 < op && x.2.stage = .decoded && (b.core core).sharesQueue x.2.word o.word) = false →
    (b.core core).opQueues o.word = none →
    exec (.instructionDispatch dt core op) s = .next (b.finish core op stEngineFault)) ∧
  (∀ (s b : State) (dt op : Nat) (core : Fin 16) (o : Op), b = s.elapse dt → (b.core core).op op = some o →
    (b.core core).held op = true → exec (.instructionDispatch dt core op) s = .next b)

/-- The control queue (R191, R212 to R216, R218). NOP completes. END and FENCE complete once every earlier instruction, or every
earlier one in their scope, has. SIGNAL adds to the counters it names. WAIT completes once its counter has reached the value; else
it holds, and its timeout ends it. LAUNCH.AT holds until its time, and completes at once when that has passed, LATE beyond its limit.
An instruction that stands completed gives its status and frees its entry. -/
def Obligations.ControlQueueInstructionsComplete : Prop :=
  (∀ (s b : State) (dt n : Nat) (core : Fin 16) (o : Op), b = s.elapse dt → b.head core qControl opNop = some (n, o) →
    exec (.nop dt core) s = .next (b.finish core n stOk)) ∧
  (∀ (s b : State) (dt n : Nat) (core : Fin 16) (o : Op), b = s.elapse dt → b.head core qControl opEnd = some (n, o) →
    exec (.endStep dt core) s = .next (if (b.core core).ops.any (fun x => x.1 < n) then b else b.finish core n stOk)) ∧
  (∀ (s b : State) (dt n : Nat) (core : Fin 16) (o : Op), b = s.elapse dt → b.head core qControl opFence = some (n, o) →
    exec (.fence dt core) s = .next (if (b.core core).ops.any (fun x => x.1 < n && inScope (fld o.word 111 104) (opcodeOf x.2.word))
      then b else b.finish core n stOk)) ∧
  (∀ (s b : State) (dt n : Nat) (core : Fin 16) (o : Op), b = s.elapse dt → b.head core qControl opSignal = some (n, o) →
    (b.core core).ops.any (fun x => x.1 < n) = false →
    ∃ m : State, exec (.signal dt core) s = .next (m.finish core n stOk) ∧
      (∀ k i : Nat, k < 16 → tget (m.core k).signals i =
        (if (fld o.word 107 107 = 1 ∨ fld o.word 111 108 = k) ∧ i = fld o.word 106 103
         then (tget (b.core k).signals i + fld o.word 102 71) % 2 ^ 32 else tget (b.core k).signals i)) ∧
      (∀ k : Nat, (m.core k).ops = (b.core k).ops ∧ (m.core k).queues = (b.core k).queues)) ∧
  (∀ (s b : State) (dt n : Nat) (core : Fin 16) (o : Op), b = s.elapse dt → b.head core qControl opWait = some (n, o) →
    exec (.wait dt core) s = .next (
      if reached (tget (b.core core).signals (fld o.word 106 103)) (fld o.word 102 71) then b.finish core n stOk
      else if o.holding then b
      else b.modCore core (fun k => k.modOp n (fun x => { x with holding := true, until_ := b.ns + 1000 * fld o.word 69 54 })))) ∧
  (∀ (s b : State) (dt n : Nat) (core : Fin 16) (o : Op), b = s.elapse dt → b.head core qControl opWait = some (n, o) →
    o.holding = true → fld o.word 69 54 ≠ 0 → o.until_ < b.ns →
    reached (tget (b.core core).signals (fld o.word 106 103)) (fld o.word 102 71) = false →
    exec (.waitTimeout dt core) s = .next (b.finish core n stWaitTimeout)) ∧
  (∀ (s b : State) (dt n : Nat) (core : Fin 16) (o : Op), b = s.elapse dt → b.head core qControl opLaunchAt = some (n, o) →
    o.holding = false →
    exec (.launchAt dt core) s = .next (
      if b.ns ≤ b.launchTime core o.word
      then b.modCore core (fun k => k.modOp n (fun x => { x with holding := true, until_ := b.launchTime core o.word }))
      else (b.bump 0x2107 4 1).launchDone core n
        (if fld o.word 63 48 ≠ 0 ∧ 1000 * fld o.word 63 48 < b.ns - b.launchTime core o.word then stLate else stOk))) ∧
  (∀ (s b : State) (dt n : Nat) (core : Fin 16) (o : Op), b = s.elapse dt → b.head core qControl opLaunchAt = some (n, o) →
    o.holding = true → exec (.launchAtTime dt core) s = .next (if o.until_ ≤ b.ns then b.launchDone core n stOk else b)) ∧
  (∀ (s b : State) (dt op st : Nat) (core : Fin 16) (o : Op), b = s.elapse dt → (b.core core).op op = some o →
    o.stage = .complete st →
    exec (.instructionComplete dt core op) s = .next ((b.retire core op st).nextLogical core))

/-- What stands completed, and what a completion leaves (R190, R222). An instruction that finishes has left every queue and stands
completed with its status; one part of it on one queue that ends leaves that queue alone. With status OK its completion frees its
entry, adds one to the signal counter its word names, and changes nothing else but that END ends the core's part of the step. -/
def Obligations.CompletionFreesTheEntryAndSignals : Prop :=
  (∀ (s : State) (c n st : Nat) (o : Op), (s.core c).op n = some o →
    (∃ p, ((s.finish c n st).core c).op n = some p ∧ p.stage = .complete st ∧ p.word = o.word) ∧
    (∀ q ∈ ((s.finish c n st).core c).queues, n ∉ q.2) ∧ (∀ k, k ≠ n → ((s.finish c n st).core c).op k = (s.core c).op k) ∧
    (∀ k, k ≠ c → (s.finish c n st).core k = s.core k) ∧ s.Keeps [.cores] (s.finish c n st)) ∧
  (∀ (s : State) (c n : Nat) (o : Op), (s.core c).op n = some o →
    ((s.retire c n stOk).core c).ops = tdel (s.core c).ops n ∧
    (∀ q ∈ ((s.retire c n stOk).core c).queues, n ∉ q.2) ∧
    (∀ i, tget ((s.retire c n stOk).core c).signals i = if i = sigOf o.word ∧ sigOf o.word ≠ 0
      then (tget (s.core c).signals i + 1) % 2 ^ 32 else tget (s.core c).signals i) ∧
    (∀ k, k ≠ c → (s.retire c n stOk).core k = s.core k) ∧ s.Keeps [.cores] (s.retire c n stOk))

-- passes, drains and skims (R85, R101, R102, R139, R149 to R163, R184, R201, R204, R474)

/-- PASS (R85, R101, R102, R201, R474). At the head of an engine's queue, over a LIVE or REFRESHING plane whose record is the job's
and of the word's tag, with no write to come, the pass leaves the queue and its vectors issue on that engine with the k, the
threshold and the budgets then in force; its k stands in the telemetry. A record of another job or tag ends it with BANK_TAG. Over an
EMPTY plane it stalls. A stand-in slot without a record stalls; one whose record is another's ends with BANK_TAG. -/
def Obligations.PassStartsOnItsPlane : Prop :=
  (∀ (s b : State) (dt n pl : Nat) (core : Fin 16) (queue : Fin 66) (o : Op) (r : BankRecord) (x : State × PassRun), b = s.elapse dt →
    b.head core queue opPass = some (n, o) → b.queueFault core queue = stOk → queue.val < 34 →
    pl = (b.eng core queue).planeOf (pBank o.word) → ((b.eng core queue).plane pl).imageChanged = false →
    ((b.eng core queue).plane pl).record = some r → r.job = b.coreJob core → r.tag = pTag o.word →
    ((b.eng core queue).plane pl).st = .live ∨ ((b.eng core queue).plane pl).st = .refreshing → (b.eng core queue).writesTo pl = false →
    x = b.passTemplate core n o →
    ∃ t, exec (.pass dt core queue) s = .next t ∧
      t.eng core queue = { b.eng core queue with
        passes := (b.eng core queue).passes ++ [{ x.2 with plane := pl }], waitEmpty := none } ∧
      n ∉ (t.core core).queue queue ∧ t.val (engIdx core queue) 0x18 = x.2.k ∧
      (∀ c e : Nat, e < 34 → (c ≠ core ∨ e ≠ queue) → t.eng c e = b.eng c e) ∧ t.mem = b.mem) ∧
  (∀ (s b : State) (dt n pl : Nat) (core : Fin 16) (queue : Fin 66) (o : Op) (r : BankRecord), b = s.elapse dt →
    b.head core queue opPass = some (n, o) → b.queueFault core queue = stOk → queue.val < 34 →
    pl = (b.eng core queue).planeOf (pBank o.word) → ((b.eng core queue).plane pl).imageChanged = false →
    ((b.eng core queue).plane pl).record = some r → (b.eng core queue).waitEmpty = none →
    r.job ≠ b.coreJob core ∨ r.tag ≠ pTag o.word →
    exec (.pass dt core queue) s = .next (b.refusePass core queue n stBankTag)) ∧
  (∀ (s b : State) (dt n pl : Nat) (core : Fin 16) (queue : Fin 66) (o : Op), b = s.elapse dt →
    b.head core queue opPass = some (n, o) → b.queueFault core queue = stOk → queue.val < 34 →
    pl = (b.eng core queue).planeOf (pBank o.word) → ((b.eng core queue).plane pl).imageChanged = false →
    ((b.eng core queue).plane pl).record = none →
    exec (.pass dt core queue) s = .next (b.modEng core queue (fun g => { g with waitEmpty := some n }))) ∧
  (∀ (s b : State) (dt n : Nat) (core : Fin 16) (queue : Fin 66) (o : Op), b = s.elapse dt →
    b.head core queue opPass = some (n, o) → b.queueFault core queue = stOk → 34 ≤ queue.val →
    (tfind (b.core core).standRecords (2 * (queue.val - 34) + pBank o.word) = none → exec (.pass dt core queue) s = .next b) ∧
    (∀ r : BankRecord, tfind (b.core core).standRecords (2 * (queue.val - 34) + pBank o.word) = some r →
      r.job ≠ b.coreJob core ∨ r.tag ≠ pTag o.word →
      exec (.pass dt core queue) s = .next (b.standEnd core queue n stBankTag)))

/-- DRAIN (R133, R139, R152 to R157, R184). At the head of the drain queue it is accepted once no earlier drain or skim holds its
rows: they are LOCKED on every engine of its mask, and reading begins at row 0. It reads its next output row once that row may be
read; the row's vat values are cleared unless they are kept, and the outputs wait to be written. While the row may not be read
nothing is, and the wait is counted. The oldest row read is narrowed by the output format and written; the last one ends the drain. -/
def Obligations.DrainReadsThenWritesItsRows : Prop :=
  (∀ (s b : State) (dt n : Nat) (core : Fin 16) (o : Op), b = s.elapse dt → b.head core qDrain opDrain = some (n, o) →
    (b.core core).drain = none → b.queueFault core qDrain = stOk → dRescale o.word = 0 →
    b.lockedBefore core (b.maskQueues core (maskOf o.word)) (pTileBase o.word) (pTileRows o.word) n = false →
    exec (.drain dt core) s = .next ((b.lockRows core (b.maskQueues core (maskOf o.word))
      (tileRange (pTileBase o.word) (pTileRows o.word)) n).modCore core (fun k =>
        { k.modOp n (fun o => { o with stage := .running }) with drain := some { op := n, nearArray := false } }))) ∧
  (∀ (s b : State) (dt n : Nat) (core : Fin 16) (o : Op), b = s.elapse dt → b.head core qDrain opDrain = some (n, o) →
    (b.core core).drain = none → b.queueFault core qDrain ≠ stOk → b.nearServes core = false →
    exec (.drain dt core) s = .next (b.finish core n (b.queueFault core qDrain))) ∧
  (∀ (s b : State) (dt row : Nat) (core : Fin 16) (d : DrainRun) (o : Op) (qs : List Nat) (y : List (List F32) × Tally), b = s.elapse dt →
    (b.core core).drain = some d → (b.core core).op d.op = some o → d.faulted = false → d.next < (o.desc (dOut o.word)).rows →
    b.maskOut core (maskOf o.word) = false → b.queueFault core qDrain = stOk → qs = b.maskQueues core (maskOf o.word) →
    b.mayReadRow core qs d.op (pTileBase o.word) (pTileRows o.word) d.next (dStream o.word) = true → dBias o.word = 0 →
    dEw o.word = 0 → row = pTileBase o.word + d.next % pTileRows o.word →
    y = b.drainOutputs core o.word qs row [] [] { free := b.free } →
    ∃ t, exec (.drainRowRead dt core) s = .next t ∧
      (∃ z, (t.core core).drain = some z ∧ z.op = d.op ∧ z.next = d.next + 1 ∧
        z.ready = d.ready ++ (List.range y.1.length).map (fun i => (i, d.next, y.1.getD i []))) ∧
      (dKeep o.word = false → ∀ q ∈ qs, q < 34 → ∀ j : Nat, tget (tget (t.eng core q).vat row).vals j = 0) ∧ t.mem = b.mem) ∧
  (∀ (s b : State) (dt : Nat) (core : Fin 16) (d : DrainRun) (o : Op), b = s.elapse dt → (b.core core).drain = some d →
    (b.core core).op d.op = some o → d.faulted = false → d.next < (o.desc (dOut o.word)).rows →
    b.maskOut core (maskOf o.word) = false → b.queueFault core qDrain = stOk →
    b.mayReadRow core (b.maskQueues core (maskOf o.word)) d.op (pTileBase o.word) (pTileRows o.word) d.next (dStream o.word) = false →
    exec (.drainRowRead dt core) s = .next (b.bump (coreIdx core) 0x43 (dt / 1000))) ∧
  (∀ (s b : State) (dt : Nat) (core : Fin 16) (d : DrainRun) (o : Op) (i r : Nat) (vals : List F32) (rest : List (Nat × Nat × List F32))
    (y : List (Nat × List Byte) × Tally) (z : Nat × State), b = s.elapse dt → (b.core core).drain = some d →
    (b.core core).op d.op = some o → d.ready = (i, r, vals) :: rest → rest.all (fun x => x.2.1 ≠ r) = true →
    y = (b.drainWrites o.word (o.desc (dRescale o.word)).base
      (if dReduce o.word then o.desc (dOut o.word) else (o.desc (dOut o.word)).rank i) r vals) { free := b.free } →
    z = (b.countTally core 0x30 0x31 y.2).writeAll (b.coreJob core) (y.1.flatMap (fun x => splitWrite (x.2.length + 1) x)) →
    z.1 = stOk →
    exec (.drainRowWrite dt core) s = .next (
      if rest = [] ∧ d.faulted = true then (z.2.bump (coreIdx core) 0x41 1).drainEnd core d.op o.status (b.maskQueues core (maskOf o.word)) d.nearArray
      else if rest = [] ∧ (o.desc (dOut o.word)).rows ≤ d.next then
        (z.2.bump (coreIdx core) 0x41 1).drainEnd core d.op stOk (b.maskQueues core (maskOf o.word)) d.nearArray
      else (z.2.bump (coreIdx core) 0x41 1).modCore core (fun k => { k with drain := some { d with ready := rest } })))

/-- SKIM (R158 to R163, R204). A skim of the vat takes the head of its queue, locks its rows and lists those that it may read, largest
first; with no list to make it stands with its rows locked. A skim of memory reads its vectors, or merges lists and discards pad
entries, writes each list and completes with the first status that is not OK. A list holds as many candidates as there are, up to its length,
and is padded to it; NaN stands after every number. -/
def Obligations.SkimListsTheLargest : Prop :=
  (∀ (s b : State) (dt n : Nat) (core : Fin 16) (o : Op), b = s.elapse dt → b.head core qSkim opSkim = some (n, o) → kSrc o.word = 0 →
    b.queueFault core qSkim = stOk → (b.core core).skim = none →
    b.lockedBefore core (b.maskQueues core (kMask o.word)) (kBase o.word) (kRows o.word) n = false →
    exec (.skimVat dt core) s = .next (forRange (skimLists o.word o.desc) ((b.lockRows core (b.maskQueues core (kMask o.word))
      (tileRange (kBase o.word) (kRows o.word)) n).modCore core (fun k =>
        { k.modOp n (fun o => { o with stage := .running }) with skim := some (n, 0) })) (fun s _ => s.skimRow core n o))) ∧
  (∀ (s b : State) (dt n : Nat) (core : Fin 16) (o : Op), b = s.elapse dt → b.head core qSkim opSkim = some (n, o) →
    b.queueFault core qSkim = stOk →
    (kSrc o.word = 1 → exec (.skimStore dt core) s = .next (
      let x := (List.range (skimLists o.word o.desc)).foldl (State.skimList core o (fun s l => s.storeCandidates core o l)) (stOk, b)
      x.2.skimEnd core n x.1)) ∧
    (kSrc o.word = 2 → exec (.skimLists dt core) s = .next (
      let x := (List.range (skimLists o.word o.desc)).foldl (State.skimList core o (fun s l => s.mergeCandidates core o l)) (stOk, b)
      x.2.skimEnd core n x.1))) ∧
  (∀ (k : Nat) (l : List Candidate), (listBytes k (topK k l)).length = 8 * k ∧ (topK k l).length = min k l.length ∧ (∀ c ∈ topK k l, c ∈ l)) ∧
  (∀ (a b : Candidate), (ofF32 a.1).isNan = false → (ofF32 b.1).isNan = true → candBefore a b = true ∧ candBefore b a = false)

-- the digital units (R126, R178, R205 to R208)

/-- The vector unit (R126, R207). A VEC at the head of its queue, of the operation a command serves, reads every row of its operands,
computes each row of the result by that operation, narrows it to the format of its destination, writes it, and completes with the
status of the writes; one whose operands may not be read completes with that status and writes nothing. A command of another operation
leaves it where it is. -/
def Obligations.VectorOperationsWriteEachRow : Prop :=
  ∀ (s b : State) (dt n : Nat) (core : Fin 16) (o : Op), b = s.elapse dt → b.head core qVector opVec = some (n, o) →
    b.queueFault core qVector = stOk →
    ∀ x ∈ ([(.convert dt core, 0x01, fun _ _ _ => map1 pure), (.add dt core, 0x02, fun _ _ _ => map2 addC),
      (.mul dt core, 0x03, fun _ _ _ => map2 mulC), (.fma dt core, 0x04, fun _ _ _ => map3 fmaC),
      (.scale dt core, 0x05, fun _ _ _ a _ _ imm => a.mapM (fun x => mulC x imm)), (.max dt core, 0x06, fun _ _ _ => map2 maxC),
      (.relu dt core, 0x08, fun _ _ _ => map1 (fun x => pure (reluN x))), (.silu dt core, 0x09, fun _ _ _ => map1 (fun x => pure (siluN x))),
      (.gelu dt core, 0x0A, fun _ _ _ => map1 (fun x => pure (geluN x))), (.exp dt core, 0x0B, fun _ _ _ => map1 (fun x => pure (expN x))),
      (.recip dt core, 0x0C, fun _ _ _ => map1 (fun x => pure (recipN x))), (.rsqrt dt core, 0x0D, fun _ _ _ => map1 (fun x => pure (rsqrtN x))),
      (.softmax dt core, 0x10, fun s o r a _ _ imm => softmaxRow (s.softmaxLimit o r a.length) a imm),
      (.rmsnorm dt core, 0x11, fun _ _ _ => rmsRow), (.layernorm dt core, 0x12, fun _ _ _ => layerRow),
      (.rowmax dt core, 0x13, fun _ _ _ a _ _ _ => do pure [← rowMax a]), (.rowsum dt core, 0x14, fun _ _ _ a _ _ _ => do pure [← rowSum a])]
      : List (Instr × Nat × (State → Op → Nat → RowFn))),
    (vOp o.word ≠ x.2.1 → exec x.1 s = .next b) ∧
    (vOp o.word = x.2.1 → ∀ (m m' : State) (st : Nat) (lim : List (Nat × Nat)) (r : List (Nat × List Byte) × Tally),
      b.allReadable core ([(o.desc (vA o.word), (o.desc (vA o.word)).rowList)] ++
        (if vopUsesB x.2.1 then [(o.desc (vB o.word), (o.desc (vB o.word)).rowList)] else []) ++
        (if vopUsesC x.2.1 then [(o.desc (vC o.word), (o.desc (vC o.word)).rowList)] else [])) = (stOk, m) →
      lim = (if x.2.1 = 0x10 ∧ vC o.word ≠ 0 then (o.desc (vA o.word)).rowList.map (fun r =>
        ((o.desc (vC o.word)).base + r * (o.desc (vC o.word)).rowStride, 4)) else []) →
      m.accessAll (b.coreJob core) rightR lim = (st, m') →
      (st ≠ stOk → exec x.1 s = .next (m'.finish core n st)) ∧
      (st = stOk → r = (do
          let rows ← (o.desc (vA o.word)).rowList.mapM (fun r => do
            let ra ← m'.vecRow (o.desc (vA o.word)) r
            let rb ← if vopUsesB x.2.1 then m'.vecRow (o.desc (vB o.word)) r else pure []
            let rc ← if vopUsesC x.2.1 then m'.vecRow (o.desc (vC o.word)) r else pure []
            pure (r, ← x.2.2 m' o r ra rb rc (ofF32 (vImm o.word))))
          rowsWrites (o.desc (vDst o.word)) rows) ({ free := m'.free } : Tally) →
        exec x.1 s = .next (((m'.countTally core 0x32 0x33 r.2).writeAll (m'.coreJob core) r.1).2.finish core n
          ((m'.countTally core 0x32 0x33 r.2).writeAll (m'.coreJob core) r.1).1)))

/-- The tensor unit and SAMPLE (R126, R205, R208). A TENS reads its operands, computes every instance of its batch, writes it and
completes with the status of the writes; with operands that may not be read it completes with that status; while a pass on a stand-in
slot stands before it, it waits. A SAMPLE draws a position from each list, pad entries left out, and writes them; it uses one value of
its counter for each list. With IMM 0 the position is that of the first entry, and an empty list gives 2^32 - 1. -/
def Obligations.TensorAndSampleWriteTheirResults : Prop :=
  (∀ (s b m : State) (dt n st : Nat) (core : Fin 16) (o : Op) (a x y : Desc) (r : List (List (Nat × List Byte)) × Tally), b = s.elapse dt →
    b.head core qTensor opTens = some (n, o) → b.queueFault core qTensor = stOk → (b.core core).standWaits n = false →
    a = o.desc (tA o.word) → x = o.desc (tB o.word) → y = o.desc (tC o.word) →
    b.allReadable core ((List.range (tBatch o.word)).flatMap (fun i =>
      [(a.instance_ i, List.range a.rows), (x.instance_ i, List.range x.rows)] ++
      (if tAcc o.word then [(y.instance_ i, List.range y.rows)] else []))) = (st, m) →
    (st ≠ stOk → exec (.tens dt core) s = .next (m.finish core n st)) ∧
    (st = stOk → r = ((List.range (tBatch o.word)).mapM (fun i => do
        let rows ← m.tensInstance o.word (a.instance_ i) (x.instance_ i) (y.instance_ i)
        rowsWrites (y.instance_ i) rows)) ({ free := m.free } : Tally) →
      exec (.tens dt core) s = .next (((m.countTally core 0x34 0x35 r.2).writeAll (m.coreJob core) r.1.flatten).2.finish core n
        ((m.countTally core 0x34 0x35 r.2).writeAll (m.coreJob core) r.1.flatten).1))) ∧
  (∀ (s b : State) (dt n : Nat) (core : Fin 16) (o : Op), b = s.elapse dt → b.head core qTensor opTens = some (n, o) →
    b.queueFault core qTensor = stOk → (b.core core).standWaits n = true → exec (.tens dt core) s = .next b) ∧
  (∀ (s b m : State) (dt n st : Nat) (core : Fin 16) (o : Op) (a d : Desc) (r : List (Nat × List Byte) × Tally), b = s.elapse dt →
    b.head core qVector opVec = some (n, o) → vOp o.word = 0x18 → b.queueFault core qVector = stOk → a = o.desc (vA o.word) →
    d = o.desc (vDst o.word) → b.accessAll (b.coreJob core) rightR (a.rowList.map (fun r => (a.base + r * a.rowStride, 8 * a.cols))) = (st, m) →
    (st ≠ stOk → exec (.sample dt core) s = .next (m.finish core n st)) ∧
    (st = stOk → r = (a.rowList.mapM (fun r => do
        let p ← samplePick (ofF32 (vImm o.word)) (srBits (m.seedOf core ^^^ ((0x2000 + core.val) <<< 32)) (((m.core core).vecCtr + r) % 2 ^ 64) 0)
          ((m.listAt (a.base + r * a.rowStride) a.cols).filter (fun e => !isPad e))
        pure (d.base + r * d.rowStride, leBytes 4 p.toNat))) ({ free := m.free } : Tally) →
      ∃ t k, exec (.sample dt core) s = .next t ∧ k = ((m.modCore core (fun k => { k with vecCtr := (k.vecCtr + a.rows) % 2 ^ 64 })).countTally core 0x32 0x33 r.2).writeAll
        (m.coreJob core) r.1 ∧ t = k.2.finish core n k.1)) ∧
  (∀ (imm : Fp) (bits : Nat) (l : List Candidate) (t : Tally), (l = [] → (samplePick imm bits l t).1 = 0xFFFFFFFF) ∧
    (∀ c rest, l = c :: rest → imm.isZero = true → (samplePick imm bits l t).1 = c.2))

-- the DMA unit (R173, R177, R209 to R211, R223, R243 to R245, R249, R259, R504)

/-- MOVE at the head of the DMA queue (R209, R249, R504). A MOVE of the kind a command serves, whose transport works, leaves the
queue and is divided into its transactions; under launch staggering a fabric MOVE is held until its lane's release. One whose
transport does not work completes with FABRIC or HOST. Each transaction lies within 4 KiB. -/
def Obligations.MovesAreDividedIntoTransactions : Prop :=
  (∀ (s b : State) (dt n release : Nat) (core : Fin 16) (data : List Byte) (o : Op), b = s.elapse dt →
    b.head core qDma opMove = some (n, o) → o.stage = .queued → (b.unit (coreRef core)).out = false →
    ∀ x ∈ [(Instr.moveLocal dt core, [0], []), (.moveFabricWrite dt core, [1], []), (.moveFabricRead dt core, [2], []),
      (.moveToHost dt core, [3, 5], []), (.moveFromHost dt core data, [4, 6], data)],
    (mKind o.word ∉ x.2.1 → exec x.1 s = .next b) ∧
    (mKind o.word ∈ x.2.1 → b.transportFault o.word ≠ stOk → exec x.1 s = .next (b.finish core n (b.transportFault o.word))) ∧
    (mKind o.word ∈ x.2.1 → b.transportFault o.word = stOk → isBlock (o.desc (mSrc o.word)).fp = false →
      release = (((b.core core).step).getD {}).launch + b.staggerNs o.word →
      exec x.1 s = .next (b.modCore core (fun k => (k.unqueue n).modOp n (fun y => { y with
        stage := .running, txns := moveTxns (mKind o.word) (o.desc (mSrc o.word)) (o.desc (mDst o.word)), buffer := x.2.2
        staggered := b.staggerNs o.word ≠ 0 ∧ b.ns < release, until_ := release }))))) ∧
  (∀ (s b : State) (dt op : Nat) (core : Fin 16) (o : Op), b = s.elapse dt → (b.core core).op op = some o → o.staggered = true →
    exec (.staggerRelease dt core op) s = .next (if o.until_ ≤ b.ns
      then b.modCore core (fun k => k.modOp op (fun y => { y with staggered := false })) else b)) ∧
  (∀ (kind : Nat) (a c : Desc) (t : Txn), t ∈ moveTxns kind a c → 0 < t.len ∧ t.len ≤ 4096 ∧ t.issued = false)

/-- Transactions (R173, R177, R223, R249, R259). The first transaction that has not been issued is issued when its pool has an entry
for the core, and waits, counted, while it has none; one that its target refuses ends its MOVE with that status once what is on its way
has completed. The oldest transaction under way completes: its entry is given back and its bytes land; an uncorrectable error in what
it read ends the MOVE with MEMORY. A MOVE within the device stores at its destination what its source held, and nothing else. -/
def Obligations.TransactionsIssueAndComplete : Prop :=
  (∀ (s b : State) (dt op : Nat) (core : Fin 16) (o : Op) (t : Txn), b = s.elapse dt → (b.core core).op op = some o →
    o.txns.find? (fun t => !t.issued) = some t → o.stage = .running → o.staggered = false → b.txnHeld o t = false →
    mKind o.word ≠ 2 →
    (t.pool < 3 → b.poolRoom t.pool core = false → exec (.dmaTransactionIssue dt core op) s = .next (b.bump 0x4013 7 (dt / 1000))) ∧
    (3 ≤ t.pool ∨ b.poolRoom t.pool core = true → exec (.dmaTransactionIssue dt core op) s = .next (
      if (b.issueTxn core op o t).1 = stOk then (b.issueTxn core op o t).2
      else (b.issueTxn core op o t).2.moveFails core op (b.issueTxn core op o t).1))) ∧
  (∀ (s b : State) (dt op : Nat) (core : Fin 16) (o : Op) (t : Txn), b = s.elapse dt → (b.core core).op op = some o →
    o.txns.find? (fun t => t.issued && t.pool != 1) = some t → mKind o.word = 0 →
    (∀ a : Nat, exec (.dmaTransactionComplete dt core op (some a)) s =
      .next (((b.dropTxn core op t).uncorrectable a false).moveFails core op stMemory)) ∧
    (∃ u, exec (.dmaTransactionComplete dt core op none) s = .next u ∧
      u = ((b.dropTxn core op t).storeBytes t.dst ((b.dropTxn core op t).readAt t.src t.len)).moveEnds core op ∧
      u.mem = b.mem.write t.dst ((b.dropTxn core op t).readAt t.src t.len))) ∧
  (∀ (s b : State) (dt op : Nat) (core : Fin 16) (o : Op) (t : Txn), b = s.elapse dt → (b.core core).op op = some o →
    o.txns.find? (fun t => t.issued && t.pool != 1) = some t → (mKind o.word = 3 ∨ mKind o.word = 5) →
    ∃ u, exec (.dmaTransactionComplete dt core op none) s = .next u ∧
      u.out = b.out ++ [.hostWrite (hostOfKind (mKind o.word)) t.dst ((b.dropTxn core op t).readAt t.src t.len)] ∧ u.mem = b.mem)

/-- Key-value instructions (R210, R211, R243 to R245). Their formats and shapes are the job's, else they end with FORMAT_HEADER or
DESC_RANGE; a layer the job has not ends them with KV_RANGE for every stream of the list. Each entry that may not be served is that
stream's failure and has no effect; the status is that of the first that failed. An entry that appends names a stream of the job that
is ACTIVE or RESTORING, 1 to 65,536 tokens and positions not before the stream's; one that gathers names positions the stream has. -/
def Obligations.KeyValueEntriesAreServedInOrder : Prop :=
  (∀ (s b : State) (dt n : Nat) (core : Fin 16) (o : Op) (kd vd : Desc), b = s.elapse dt →
    (b.unit (coreRef core)).out = false → kd = o.desc (kvK o.word) → vd = o.desc (kvV o.word) →
    ∀ x ∈ [(Instr.kvAppend dt core, opKvAppend, false), (.kvGather dt core, opKvGather, true)],
    b.head core qDma x.2.1 = some (n, o) →
    (kd.fp ≠ (b.job (b.coreJob core)).kvFmt ∨ vd.fp ≠ (b.job (b.coreJob core)).kvFmt →
      exec x.1 s = .next (b.finish core n stFormatHeader)) ∧
    (∀ (m : State) (es : List KvEntry) (r : Nat × Nat × State), kd.fp = (b.job (b.coreJob core)).kvFmt →
      vd.fp = (b.job (b.coreJob core)).kvFmt → kd.cols * elemSize kd.fp = (b.job (b.coreJob core)).kBytes →
      vd.cols * elemSize vd.fp = (b.job (b.coreJob core)).vBytes →
      b.accessAll (b.coreJob core) rightR ((List.range (o.desc (kvList o.word)).rows).map (fun i =>
        ((o.desc (kvList o.word)).base + i * (o.desc (kvList o.word)).rowStride, 16))) = (stOk, m) →
      es = (List.range (o.desc (kvList o.word)).rows).map (fun i =>
        m.kvEntry ((o.desc (kvList o.word)).base + i * (o.desc (kvList o.word)).rowStride)) →
      es.all (fun e => e.row + e.tokens ≤ kd.rows && e.row + e.tokens ≤ vd.rows) = true →
      (kvLayer o.word < (b.job (b.coreJob core)).kvLayers → r = es.foldl (fun (acc : Nat × Nat × State) e =>
          if acc.2.1 ≠ stOk then acc
          else
            let y := acc.2.2.kvApply (b.coreJob core) (kvLayer o.word) x.2.2 kd vd e
            (if acc.1 = stOk then y.1 else acc.1, y.2.1,
              if y.1 ≠ stOk then y.2.2.failStream (b.coreJob core) e.stream y.1 else y.2.2)) (stOk, stOk, m) →
        exec x.1 s = .next (r.2.2.finish core n (if r.2.1 ≠ stOk then r.2.1 else r.1))) ∧
      ((b.job (b.coreJob core)).kvLayers ≤ kvLayer o.word → exec x.1 s = .next ((es.foldl (fun s e =>
        s.failStream (b.coreJob core) e.stream stKvRange) m).finish core n stKvRange)))) ∧
  (∀ (s : State) (j : Nat) (e : KvEntry), s.kvRefused j false e = stOk ↔
    e.stream < 65536 ∧ (s.stream e.stream).job = j ∧ ((s.stream e.stream).st = .active ∨ (s.stream e.stream).st = .restoring) ∧
    1 ≤ e.tokens ∧ e.tokens ≤ 65536 ∧ e.position ≤ (s.stream e.stream).position ∧ e.position + e.tokens < 2 ^ 40) ∧
  (∀ (s : State) (j : Nat) (e : KvEntry), s.kvRefused j true e = stOk ↔
    e.stream < 65536 ∧ (s.stream e.stream).job = j ∧ ((s.stream e.stream).st = .active ∨ (s.stream e.stream).st = .restoring) ∧
    1 ≤ e.tokens ∧ e.tokens ≤ 65536 ∧ e.position + e.tokens ≤ (s.stream e.stream).position) ∧
  (∀ (s : State) (j layer : Nat) (gather : Bool) (kd vd : Desc) (e : KvEntry), s.kvRefused j gather e ≠ stOk →
    s.kvApply j layer gather kd vd e = (s.kvRefused j gather e, stOk, s))

-- pace, supply and the pail (R180, R181, R186, R284, R290)

/-- Pace and supply (R180, R181). The monitors of a powered core are read, and its pace is the lowest of them. A step of the voltage
controller moves the supply by 5 mV: up while the pace lies below the target plus 20 per mille, down while the pace 5 mV lower would
still reach it, and never out of 550 mV to 750 mV. -/
def Obligations.PaceAndSupplyStayInTheirRange : Prop :=
  (∀ (s b : State) (dt : Nat) (core : Fin 16) (monitors : List Nat), b = s.elapse dt → (b.core core).supply ≠ 0 →
    ∃ t, exec (.paceMeasure dt core monitors) s = .next t ∧ (t.core core).monitors = monitors.take 16 ∧
      (∀ p ∈ monitors.take 16, (t.core core).pace ≤ p) ∧ (monitors ≠ [] → (t.core core).pace ∈ monitors.take 16) ∧
      (∀ c : Nat, c ≠ core → t.core c = b.core c) ∧ b.Keeps [.cores] t) ∧
  (∀ (s b : State) (dt : Nat) (core : Fin 16) (monitors : List Nat), b = s.elapse dt → (b.core core).supply = 0 →
    exec (.paceMeasure dt core monitors) s = .next b) ∧
  (∀ (s b : State) (dt target below : Nat) (core : Fin 16) (next : List Nat), b = s.elapse dt → (b.core core).supply ≠ 0 →
    target = b.paceTarget core → below = ({ monitors := next.take 16 } : Core).pace →
    ∃ t, exec (.voltageStep dt core next) s = .next t ∧ (t.core core).target = target ∧
      ((b.core core).pace < target + 20 → (t.core core).supply = min 750 ((b.core core).supply + 5)) ∧
      (target + 20 ≤ (b.core core).pace → target + 20 ≤ below → (t.core core).supply = max 550 ((b.core core).supply - 5)) ∧
      (target + 20 ≤ (b.core core).pace → below < target + 20 → (t.core core).supply = (b.core core).supply) ∧
      (550 ≤ (b.core core).supply → (b.core core).supply ≤ 750 → 550 ≤ (t.core core).supply ∧ (t.core core).supply ≤ 750)) ∧
  (∀ (s b : State) (dt : Nat) (core : Fin 16) (next : List Nat), b = s.elapse dt → (b.core core).supply = 0 →
    exec (.voltageStep dt core next) s = .next b)

/-- Tagged data and the pail (R284, R290). Data of the running launch goes to its destination; data of a pending launch whose time has
not come is held in the pail while there is room, and dropped and counted when there is none; data of no known launch is held as an
orphan, and dropped and counted once its launch is closed. Orphans older than the Orphan Limit are discarded and counted. -/
def Obligations.TaggedDataWaitsForItsLaunch : Prop :=
  (∀ (s b : State) (dt : Nat) (core : Fin 16) (job : Fin 8) (tag : BitVec 32) (addr : BitVec 64) (data : List Byte) (item : PailItem),
    b = s.elapse dt → item = { job := job, tag := tag.toNat, addr := addr.toNat, data := data, at_ := b.ns } →
    ((b.job job).step.any (fun r => r.tag = tag.toNat) = true →
      exec (.taggedDataArrival dt core job tag addr data) s = .next (b.landTagged addr.toNat data)) ∧
    ((b.job job).step.any (fun r => r.tag = tag.toNat) = false → ∀ l : Launch, b.pendingLaunch job tag.toNat = some l → b.ns < l.time →
      ((b.core core).pailUsed + data.length ≤ (b.core core).pailSize → exec (.taggedDataArrival dt core job tag addr data) s =
        .next (b.modCore core (fun k => { k with pail := k.pail ++ [item] }))) ∧
      ((b.core core).pailSize < (b.core core).pailUsed + data.length → exec (.taggedDataArrival dt core job tag addr data) s =
        .next (b.bump (coreIdx core) 0x57 1))) ∧
    ((b.job job).step.any (fun r => r.tag = tag.toNat) = false → b.pendingLaunch job tag.toNat = none →
      ((job.val, tag.toNat) ∈ b.sched.closedTags → exec (.taggedDataArrival dt core job tag addr data) s = .next (b.bump 0x2107 7 1)) ∧
      ((job.val, tag.toNat) ∉ b.sched.closedTags → (b.core core).pailUsed + data.length ≤ (b.core core).pailSize →
        exec (.taggedDataArrival dt core job tag addr data) s =
          .next (b.modCore core (fun k => { k with pail := k.pail ++ [{ item with orphan := true }] }))))) ∧
  (∀ (s b : State) (dt : Nat) (core : Fin 16), b = s.elapse dt →
    ∃ t, exec (.orphanLimit dt core) s = .next t ∧
      (∀ i, i ∈ (t.core core).pail ↔ i ∈ (b.core core).pail ∧ (i.orphan = true → b.ns ≤ i.at_ + 1000 * b.val 0x2106 3)) ∧
      (∀ c : Nat, c ≠ core → t.core c = b.core c) ∧ b.Keeps [.od, .cores] t)

-- settings and their limits (R65, R456)

/-- The relock limit of a pulse reference (R65). A write of `0x5000:23` outside 10 to 1000 is refused: over CoE it is answered with
an abort, and on every road the entry keeps its value. A write within the range stands, and the reacquisition under way, if any,
keeps the limit that it took. At the next loss of lock the entry's value is taken as the limit; the core is fenced once the limit
taken has passed since the loss, and not before, whatever the entry has become. -/
def Obligations.PulseReferenceLimitWrites : Prop :=
  (∀ (s b : State) (dt : Nat) (road : Road) (core : Fin 16) (data : List Byte), b = s.elapse dt →
    leNat data < 10 ∨ 1000 < leNat data →
    ∃ t, exec (.entryWrite dt road (BitVec.ofNat 16 (coreIdx core)) 0x23 data) s = .next t ∧
      t.val (coreIdx core) 0x23 = b.val (coreIdx core) 0x23 ∧ (∀ c : Nat, (t.core c).pulseLost = (b.core c).pulseLost) ∧
      (road = .coe → b.hears .coe = true → ∃ a, 0 < a ∧ t.out.getLast? = some (.sdoAbort a))) ∧
  (∀ (s b : State) (dt : Nat) (core : Fin 16) (data : List Byte), b = s.elapse dt → b.admits .coe (coreIdx core) 0x23 data →
    ∃ t, exec (.entryWrite dt .coe (BitVec.ofNat 16 (coreIdx core)) 0x23 data) s = .next t ∧
      t.val (coreIdx core) 0x23 = leNat data ∧ t.cores = b.cores ∧ t.out = b.out ++ [.sdo (coreIdx core) 0x23 []]) ∧
  (∀ (s b : State) (dt : Nat) (core : Fin 16), b = s.elapse dt → (b.core core).pulse = .locked →
    ∃ t, exec (.pulseRefLockLoss dt core) s = .next t ∧ (t.core core).pulse = .acquiring ∧
      (t.core core).pulseLost = some (b.ns, b.val (coreIdx core) 0x23)) ∧
  (∀ (s b : State) (dt at_ limit : Nat) (core : Fin 16), b = s.elapse dt → (b.core core).pulseLost = some (at_, limit) →
    (b.ns < at_ + 1000 * limit → exec (.pulseRefUnlock dt core) s = .next b) ∧
    (at_ + 1000 * limit ≤ b.ns → ∃ t, exec (.pulseRefUnlock dt core) s = .next t ∧
      t = ((b.modCore core (fun k => { k with pulse := .unlocked, pulseLost := none })).raise 0x0201 (coreRef core) 0).fence
        (coreRef core)))

/-- Reinstatement of a sensor (R456). A write that its own checks let through reinstates the sensor where it has passed its
self-check and its last sample lies within -40 to 200 °C, in tenths of a degree; any other, one that
names none of the 238 sensors included, is refused with 0x0800_0022 and changes nothing. -/
def Obligations.SensorReinstatedOnlyWhenItPasses : Prop :=
  ∀ (s b : State) (dt : Nat) (road : Road) (sensor : BitVec 16) (passed : Bool), b = s.elapse dt →
    b.admits road 0x6002 2 (leBytes 2 sensor.toNat) →
    (passed = true → sensor.toNat < 238 → (∀ v : Int, (b.sensor sensor.toNat).samples.head? = some v → -400 ≤ v ∧ v ≤ 2000) →
      exec (.sensorReinstate dt road sensor passed) s = .next ((b.modSensor sensor.toNat (fun x =>
        { x with broken := false, selfCheckOk := true, deviatesSince := none })).reply (viaOf road 0x6002 2) 0x6002 2 0)) ∧
    (∀ v : Int, (b.sensor sensor.toNat).samples.head? = some v → v < -400 ∨ 2000 < v →
      exec (.sensorReinstate dt road sensor passed) s = .next (b.reply (viaOf road 0x6002 2) 0x6002 2 0x08000022)) ∧
    (passed = false ∨ 238 ≤ sensor.toNat → exec (.sensorReinstate dt road sensor passed) s =
      .next (b.reply (viaOf road 0x6002 2) 0x6002 2 0x08000022))

-- jobs (R233 to R236, R248, R259)

/-- Requests on jobs (R233, R235, R259). Each serves the next request of its type that the round finds, and with none it does
nothing more than answer the malformed entries that came first. A LOAD makes its checks in order and answers ACCESS, JOB_FORMAT,
JOB_GEOMETRY, JOB_NO_SLOT or JOB_MEMORY at the first that fails; one that passes them all takes the lowest FREE slot, which
is LOADING with the job of the record, and no other slot changes. UNLOAD, HOLD and RELEASE of a FREE slot or of one in a state that
does not accept them answer JOB_STATE, and without the rights ACCESS. A HELD job that is released is READY, a READY job that is
held is HELD, and an UNLOAD of a RUNNING job waits for the end of its step. -/
def Obligations.JobRequestsAreServed : Prop :=
  (∀ (s b c : State) (dt : Nat), b = s.elapse dt →
    (b.takeRequest rqLoad = (c, none) → exec (.load dt) s = .next c) ∧ (b.takeRequest rqUnload = (c, none) → exec (.unload dt) s = .next c) ∧
    (b.takeRequest rqHold = (c, none) → exec (.hold dt) s = .next c) ∧ (b.takeRequest rqRelease = (c, none) → exec (.release dt) s = .next c)) ∧
  (∀ (s b c : State) (dt p q : Nat) (e : List Byte) (r : Rq) (x : Job), b = s.elapse dt → b.takeRequest rqLoad = (c, some (p, q, e)) →
    r = { m := 2 + p, ring := some (p, q), entry := e } → x = jobOf c.mem (field e 8 8) →
    (∀ a bit : Nat, c.loadDenied r.m x = some (a, bit) → exec (.load dt) s = .next (c.answerDenied r a (2 ^ bit))) ∧
    (c.loadDenied r.m x = none →
      (c.formatOk x = false → exec (.load dt) s = .next (c.answer r 0x40 0)) ∧
      (c.formatOk x = true → c.geometryOk x = false → exec (.load dt) s = .next (c.answer r 0x41 0)) ∧
      (c.formatOk x = true → c.geometryOk x = true → (∀ j : Nat, j < 8 → (c.job j).st ≠ .free) →
        exec (.load dt) s = .next (c.answer r 0x42 0)) ∧
      (c.formatOk x = true → c.geometryOk x = true → ∀ j : Nat, j < 8 → (c.job j).st = .free →
        (∀ i : Nat, i < j → (c.job i).st ≠ .free) →
        (c.memoryOk x = false → exec (.load dt) s = .next (c.answer r 0x43 0)) ∧
        (c.memoryOk x = true → ∃ t, exec (.load dt) s = .next t ∧ (t.job j).st = .loading ∧ (t.job j).owner = 2 + p ∧
          (t.job j).priority = field (c.mem.read x.record 1920) 18 1 % 8 ∧ (t.job j).code = c.jobCode x ∧
          (∀ i : Nat, i ≠ j → t.job i = c.job i) ∧ t.mem = c.mem ∧ t.cores = c.cores ∧ t.out = c.out)))) ∧
  (∀ (s b c : State) (dt p q j : Nat) (e : List Byte) (r : Rq), b = s.elapse dt →
    r = { m := 2 + p, ring := some (p, q), entry := e } → j = field e 8 1 % 8 →
    ∀ k ∈ [(Instr.unload dt, rqUnload), (.hold dt, rqHold), (.release dt, rqRelease)], b.takeRequest k.2 = (c, some (p, q, e)) →
    ((c.job j).st = .free → exec k.1 s = .next (c.answer r 0x44 0)) ∧
    ((c.job j).st ≠ .free → ∀ core : Nat, c.jobDenied r.m j = some core →
      exec k.1 s = .next (c.answerDenied r (odKey 0x3071 (1 + 4 * core)) (2 ^ 4))) ∧
    ((c.job j).st = .loading ∨ (c.job j).st = .unloading → c.jobDenied r.m j = none → exec k.1 s = .next (c.answer r 0x44 0))) ∧
  (∀ (s b c : State) (dt p q j : Nat) (e : List Byte) (r : Rq), b = s.elapse dt →
    r = { m := 2 + p, ring := some (p, q), entry := e } → j = field e 8 1 % 8 → c.jobDenied r.m j = none →
    (b.takeRequest rqUnload = (c, some (p, q, e)) →
      ((c.job j).st = .ready ∨ (c.job j).st = .held ∨ (c.job j).st = .faulted ∨ (c.job j).st = .running →
        ((c.job j).st = .running → (c.job j).step.isSome = true →
          exec (.unload dt) s = .next ((c.modJob j (fun x => { x with after := 2 })).answer r 0 0)) ∧
        ((c.job j).st ≠ .running ∨ (c.job j).step.isSome = false →
          exec (.unload dt) s = .next ((c.unloadNow j).answer r 0 0)))) ∧
    (b.takeRequest rqHold = (c, some (p, q, e)) →
      ((c.job j).st = .ready → exec (.hold dt) s = .next ((c.jobTo j .held).answer r 0 0)) ∧
      ((c.job j).st = .running → exec (.hold dt) s = .next ((c.holdJob j).answer r 0 0)) ∧
      ((c.job j).st = .held ∨ (c.job j).st = .faulted → exec (.hold dt) s = .next (c.answer r 0x44 0))) ∧
    (b.takeRequest rqRelease = (c, some (p, q, e)) →
      ((c.job j).st = .held → exec (.release dt) s =
        .next (((c.modJob j (fun x => { x with waitSince := c.up })).jobTo j .ready).answer r 0 0)) ∧
      ((c.job j).st = .ready ∨ (c.job j).st = .running ∨ (c.job j).st = .faulted →
        exec (.release dt) s = .next (c.answer r 0x44 0))))

/-- A job's slot as its work goes on (R164, R165, R233, R235, R236, R248). A LOADING slot whose code has been copied is READY
and its LOAD completes with the slot's number; an UNLOADING slot with every stream FREE and every bank EMPTY is FREE, its pins and its
launch tags gone. A saved job that was RUNNING is READY, or HELD where a HOLD waited, and a DRAINING or SAFE that waited for it goes on; the chosen job takes the cores, is restored
and RUNNING. A READY job of higher priority that wants the cores and has waited longer than the limit makes the running one switch out.
The busy shares are taken and their mean over the stacks in service stands for admission. -/
def Obligations.JobSlotsLoadRunAndFree : Prop :=
  (∀ (s b : State) (dt : Nat) (slot : Fin 8), b = s.elapse dt →
    ((b.job slot).st ≠ .loading → exec (.loadComplete dt slot) s = .next b) ∧
    ((b.job slot).st = .loading → ∀ m : State,
      m = ((((b.job slot).logicals.foldl (fun s l => s.copyCode slot l) b).grantAll slot).modJob slot (fun y =>
        { y with waitSince := b.up })) →
      exec (.loadComplete dt slot) s =
        .next ((m.jobTo slot .ready).done (b.job slot).owner (b.job slot).ring 1 0 slot (b.job slot).tagOfLoad) ∧
      ((m.jobTo slot .ready).job slot).st = .ready)) ∧
  (∀ (s b : State) (dt : Nat) (slot : Fin 8), b = s.elapse dt →
    ((b.job slot).st ≠ .unloading ∨ b.streamsOf slot ≠ [] ∨ b.banksEmpty slot = false →
      exec (.unloadComplete dt slot) s = .next b) ∧
    ((b.job slot).st = .unloading → b.streamsOf slot = [] → b.banksEmpty slot = true →
      ∃ t, exec (.unloadComplete dt slot) s = .next t ∧ t.job slot = {} ∧ (∀ j : Nat, j ≠ slot → t.job j = b.job j) ∧
        (∀ e ∈ t.pins, e / 65536 % 8 ≠ slot) ∧ (∀ x ∈ t.sched.closedTags, x.1 ≠ slot))) ∧
  (∀ (s b : State) (dt : Nat), b = s.elapse dt → b.sched.saving = none → exec (.jobSaveDone dt) s = .next b.advance) ∧
  (∀ (s b m : State) (dt j : Nat), b = s.elapse dt → b.sched.saving = some j → (b.holders j).all b.coreQuiet = true →
    ((b.job j).st = .faulted → (b.job j).step = none) → m = (b.emptyLost j).saveJob j →
    ∃ n : State, n = (({ m with sched := { m.sched with saving := none, lastOut := some j } } : State).modJob j (fun y =>
        { y with waitSince := m.up, hasSave := true })) ∧
      ((b.job j).st ≠ .running → exec (.jobSaveDone dt) s = .next n.advance) ∧
      ((b.job j).st = .running → (b.job j).after = 1 → (b.job j).step = none →
        exec (.jobSaveDone dt) s = .next ((n.modJob j (fun y => { y with after := 0 })).jobTo j .held).advance) ∧
      ((b.job j).st = .running → (b.job j).after ≠ 1 → exec (.jobSaveDone dt) s = .next (n.jobTo j .ready).advance)) ∧
  (∀ (s b : State) (dt : Nat) (slot : Fin 8), b = s.elapse dt → (b.job slot).st = .ready → b.coresHeld = false →
    b.sched.saving = none → b.mayRunJobs = true → b.sched.restoring = some slot.val ∨ b.chosen = some slot.val →
    b.sched.lastOut = none ∨ b.sched.lastOut = some slot.val →
    ∃ m n : State, m = (b.restoreJob slot).jobTo slot .running ∧ (m.job slot).st = .running ∧
      n = { m with sched := { m.sched with restoring := none } } ∧
      exec (.jobRestoreDone dt slot) s = .next ((n.bump 0x4012 0xB 1).takeQueued slot)) ∧
  (∀ (s b : State) (dt : Nat) (slot : Fin 8), b = s.elapse dt → (b.job slot).st ≠ .ready ∨ b.mayRunJobs = false →
    exec (.jobRestoreDone dt slot) s = .next b ∧ exec (.preemption dt slot) s = .next b) ∧
  (∀ (s b : State) (dt k : Nat) (slot : Fin 8), b = s.elapse dt → b.sched.running = some k → (b.job slot).st = .ready →
    b.mayRunJobs = true → b.wantsCores slot = true → (b.job slot).priority < (b.job k).priority → b.sched.saving = none →
    (b.up ≤ (b.job slot).waitSince + 1000000 * b.val 0x4012 9 → exec (.preemption dt slot) s = .next b) ∧
    ((b.job slot).waitSince + 1000000 * b.val 0x4012 9 < b.up → exec (.preemption dt slot) s =
      .next { b with sched := { b.sched with saving := some k, restoring := some slot.val } })) ∧
  (∀ (s b : State) (dt : Nat) (shares : List Nat), b = s.elapse dt → b.stepRuns = true →
    ∃ t, exec (.busyShareInterval dt shares) s = .next t ∧
      t.sched.busy = (((List.range 20).filter (fun m => b.unit (stackRef m) ≠ .retired)).map (fun m => shares.getD m 0)).sum /
        ((List.range 20).filter (fun m => b.unit (stackRef m) ≠ .retired)).length ∧
      (∀ m : Nat, m < 20 → t.val (0x5900 + m) 7 = shares.getD m 0 % 65536) ∧ t.jobs = b.jobs ∧ t.streams = b.streams)

-- streams (R239 to R242, R259, R339, R536)

/-- Requests on streams (R239, R241, R242, R259, R339, R536). OPEN answers in order: ACCESS without W on the stream table, JOB_STATE
for a slot that streams may not be opened on, NO_CONTEXT with no FREE context, QUEUE_FULL with the queue of the job at its limit; else
the context is taken for its owner and queues. EXTEND, RESUME, PAUSE and CLOSE answer ACCESS without W on one's own stream or ADMIN
on another's, and STREAM_STATE in a state that does not take them. EXTEND of an IDLE stream adds its tokens and budget and
queues it, RESUME queues it. PAUSE of an ACTIVE stream of the running step acts at the step's end, of another at once; CLOSE
likewise. A CLOSING stream outside a running step gives back its frames and is FREE. USER of a context in use takes a value from
its owner with W or another master with ADMIN; a write of other bytes is refused and raised. -/
def Obligations.StreamRequestsAreServed : Prop :=
  (∀ (s b c : State) (dt p q j n : Nat) (e : List Byte) (r : Rq), b = s.elapse dt → b.takeRequest rqOpen = (c, some (p, q, e)) →
    r = { m := 2 + p, ring := some (p, q), entry := e } → j = field e 8 1 % 8 →
    (has (c.streamRights (2 + p)) 1 = false → exec (.openStream dt) s = .next (c.answerDenied r 0x300200000000 2)) ∧
    (has (c.streamRights (2 + p)) 1 = true → c.opensOn j = false → exec (.openStream dt) s = .next (c.answer r 0x44 0)) ∧
    (has (c.streamRights (2 + p)) 1 = true → c.opensOn j = true →
      (c.freeContext = none → exec (.openStream dt) s = .next (c.answer r 0x48 0)) ∧
      (c.freeContext = some n → c.val 0x4010 6 ≤ (c.queuedOf j).length → exec (.openStream dt) s = .next (c.answer r 0x49 0)) ∧
      (c.freeContext = some n → (c.queuedOf j).length < c.val 0x4010 6 → exec (.openStream dt) s =
        .next (((c.modStream n (fun _ => { st := .queued, job := j, priority := field e 9 1 % 8, owner := 2 + p
                                           user := field e 16 8, ring := some (p, q + 8) })).acceptOn r n .opened n).toQueue n)))) ∧
  (∀ (s b c : State) (dt p q n : Nat) (e host : List Byte) (r : Rq), b = s.elapse dt →
    r = { m := 2 + p, ring := some (p, q), entry := e } → n = field e 8 4 % 65536 →
    ∀ k ∈ [(Instr.extend dt host, rqExtend, [StreamSt.idle]), (.resumeStream dt, rqResume, [.idle]),
      (.pause dt, rqPause, [.active, .queued, .idle]), (.close dt, rqClose, [.active, .queued, .idle, .restoring])],
    b.takeRequest k.2.1 = (c, some (p, q, e)) →
    (has (c.streamRights (2 + p)) (c.streamNeeds (2 + p) n) = false →
      exec k.1 s = .next (c.answerDenied r (0x300200000000 + 64 * n) (2 ^ c.streamNeeds (2 + p) n))) ∧
    (has (c.streamRights (2 + p)) (c.streamNeeds (2 + p) n) = true → (c.stream n).st = .free ∨ (c.stream n).st = .closing →
      exec k.1 s = .next (c.answer r 0x22 0)) ∧
    (has (c.streamRights (2 + p)) (c.streamNeeds (2 + p) n) = true → (c.stream n).st = .active → .active ∉ k.2.2 →
      exec k.1 s = .next (c.answer r 0x22 0))) ∧
  (∀ (s b c : State) (dt p q n : Nat) (e host : List Byte) (r : Rq), b = s.elapse dt →
    r = { m := 2 + p, ring := some (p, q), entry := e } → n = field e 8 4 % 65536 →
    has (c.streamRights (2 + p)) (c.streamNeeds (2 + p) n) = true →
    (b.takeRequest rqExtend = (c, some (p, q, e)) → (c.stream n).st = .idle → 0 < field e 12 4 →
      (c.hostWorks p = false → exec (.extend dt host) s = .next (c.answer r 0x14 0)) ∧
      (c.hostWorks p = true → exec (.extend dt host) s = .next
        ((((c.modStream n (fun x => { x with prompt := x.prompt ++ tokensOf (field e 12 4) host
                                             budget := budgetSum c.free x.budget (field e 16 4) })).takeFree.acceptOn r n
          (.extended (tokensOf (field e 12 4) host) (field e 16 4)) 0).toQueue n)))) ∧
    (b.takeRequest rqResume = (c, some (p, q, e)) → (c.stream n).st = .idle →
      exec (.resumeStream dt) s = .next ((c.acceptOn r n .resumed 0).toQueue n)) ∧
    (b.takeRequest rqPause = (c, some (p, q, e)) →
      ((c.stream n).st = .idle → exec (.pause dt) s = .next (c.acceptOn r n .paused 0)) ∧
      ((c.stream n).st = .queued → exec (.pause dt) s = .next ((c.acceptOn r n .paused 0).streamTo n .idle 3)) ∧
      ((c.stream n).st = .active → c.inStep n = true → ((c.acceptOn r n .paused 0).stream n).st = .active →
        (c.acceptOn r n .paused 0).inStep n = true → exec (.pause dt) s = .next
          ((c.acceptOn r n .paused 0).modStream n (fun x => { x with after := if x.after = 2 then 2 else 1 })))) ∧
    (b.takeRequest rqClose = (c, some (p, q, e)) → (c.stream n).st = .queued ∨ (c.stream n).st = .idle →
      ((c.acceptOn r n .closed 0).stream n).st = (c.stream n).st →
      exec (.close dt) s = .next ((c.acceptOn r n .closed 0).closeNow n))) ∧
  (∀ (s b : State) (dt : Nat) (stream : BitVec 16), b = s.elapse dt →
    ((b.stream stream.toNat).st ≠ .closing ∨ b.inStep stream.toNat = true → exec (.streamFreed dt stream) s = .next b) ∧
    ((b.stream stream.toNat).st = .closing → b.inStep stream.toNat = false → exec (.streamFreed dt stream) s =
      .next (((b.freePages stream.toNat).streamTo stream.toNat .free (b.stream stream.toNat).reason).freeStream stream.toNat))) ∧
  (∀ (s b : State) (dt m off : Nat) (stream : BitVec 16) (data : List Byte), b = s.elapse dt →
    ((off ≠ 56 ∨ data.length ≠ 8) → exec (.streamUserWrite dt (.rdma m) stream off data) s =
      .next (b.deny (some m) (0x300200000000 + 64 * stream.toNat + off) 2)) ∧
    (data.length = 8 → b.userLacks m stream.toNat ≠ 0 → exec (.streamUserWrite dt (.rdma m) stream 56 data) s =
      .next (b.deny (some m) (0x300200000000 + 64 * stream.toNat + 56) (b.userLacks m stream.toNat))) ∧
    (data.length = 8 → b.userLacks m stream.toNat = 0 → (b.stream stream.toNat).st ≠ .free →
      ∃ t, exec (.streamUserWrite dt (.rdma m) stream 56 data) s = .next t ∧
        t.stream stream.toNat = { b.stream stream.toNat with user := leNat data } ∧
        (∀ k : Nat, k ≠ stream.toNat → t.stream k = b.stream k) ∧ t.mem = b.mem ∧ t.out = b.out)) ∧
  (∀ (s : State) (m n : Nat), s.userLacks m n = 0 ↔
    (((s.stream n).st ≠ .free ∧ (s.stream n).owner = m) ∧ has (s.streamRights m) 1 = true) ∨
    (¬((s.stream n).st ≠ .free ∧ (s.stream n).owner = m) ∧ has (s.streamRights m) 4 = true))

-- steps and launches (R237, R238, R241, R286 to R294, R472, R504)

/-- Steps (R237, R238, R241, R289, R472, R504). The policy firmware forms a step of the running job when none of it runs, pends or is
to be reissued and enough vectors are gathered. A record whose time has come starts its step where the job is RUNNING and its last
step has ended; it is refused with LAUNCH_UNLOCKED, LAUNCH_MIXED or LATE by the checks made then. A started step holds the record's
tag, entry and streams, and the record pends no longer. A step ends once every core of it has done its part: its tokens are
delivered unless it was stopped, its streams change, its completion is posted, and the stagger step moves by one ns with the pause
share, within 0 and its maximum. A sampled token counts down the stream's BUDGET and ends the stream's turn by BUDGET, then stop
token, then PAUSE. A step abandoned for a unit failure is issued again for the streams still in the batch. -/
def Obligations.StepsFormStartAndEnd : Prop :=
  (∀ (s b : State) (dt entry j : Nat) (tag : BitVec 32) (r : Record), b = s.elapse dt → r = b.formed j entry tag.toNat 0 →
    (b.sched.running = none → exec (.stepForm dt entry tag) s = .next b) ∧
    (b.sched.running = some j → b.mayRunJobs = true → (b.job j).st = .running → (b.job j).step = none →
      (b.job j).reissue = none → b.nextBatch j ≠ [] → b.gathered j (b.nextBatch j) = true →
      (∀ l ∈ b.sched.launches, l.job = j → l.streams = []) → b.recordOk r = true →
      exec (.stepForm dt entry tag) s = .next (b.launchRecord r .firmware (b.nextBatch j)).2) ∧
    (b.sched.running = some j → (b.job j).step.isSome = true ∨ b.nextBatch j = [] →
      exec (.stepForm dt entry tag) s = .next b)) ∧
  (∀ (s b c : State) (dt : Nat) (job : Fin 8) (l : Launch), b = s.elapse dt → c = b.replaceUnits job 0 →
    (b.dueRecord job = none → exec (.stepStart dt job) s = .next b) ∧
    (b.dueRecord job = some l → (b.job job).st ≠ .running ∨ (b.job job).step.isSome = true →
      exec (.stepStart dt job) s = .next b) ∧
    (b.dueRecord job = some l → (b.job job).st = .running → (b.job job).step = none → b.mayRunJobs = true →
      b.sched.saving ≠ some job.val →
      (l.cross = true → c.time.lock = .freeRun →
        exec (.stepStart dt job) s = .next ((c.bump 0x2107 2 1).failLaunch l 0x58)) ∧
      (¬(l.cross = true ∧ c.time.lock = .freeRun) →
        (((c.job job).coresBound l.cores).any c.mixedOn = true →
          exec (.stepStart dt job) s = .next ((c.bump 0x2107 2 1).failLaunch l 0x59)) ∧
        (((c.job job).coresBound l.cores).any c.mixedOn = false →
          (c.tooLate l = true → exec (.stepStart dt job) s =
            .next (((c.bump 0x2107 6 1).raise 0x0115 0 (job + 0x18 * 256)).failLaunch l 0x18)) ∧
          (c.tooLate l = false → ∃ t, exec (.stepStart dt job) s = .next t ∧ t = c.startRecord job l ∧
            (t.job job).stepNo = (c.job job).stepNo + 1 ∧
            (∃ r, (t.job job).step = some r ∧ r.tag = l.tag ∧ r.entry = l.entry ∧ r.streams = l.streams ∧
              r.deadline = l.deadline ∧ r.launch = l.time) ∧
            t.sched.launches = c.sched.launches.filter (fun y => !(y.job = job.val && y.tag = l.tag))))))) ∧
  (∀ (s b : State) (dt pause : Nat) (job : Fin 8) (sampled : List (Nat × BitVec 32)), b = s.elapse dt →
    (b.job job).step = none ∨ (∃ c ∈ b.stepCores job, b.corePartDone job c = false) →
    exec (.stepEnd dt job sampled pause) s = .next b) ∧
  (∀ (s b m d n : State) (dt pause : Nat) (job : Fin 8) (sampled : List (Nat × BitVec 32)) (r : RunStep)
    (x : State × Nat × List (Nat × Nat)), b = s.elapse dt → (b.job job).step = some r →
    (b.job job).st = .running ∨ (b.job job).st = .faulted → (b.stepCores job).all (b.corePartDone job) = true →
    m = b.markStretched job → (r.stopped = 0 → x = m.deliverTokens job r sampled) → (r.stopped ≠ 0 → x = (m, 0, [])) →
    d = (x.1.clearStep job r).streamChanges job x.2.2 →
    n = { d with sched := { d.sched with tokens := d.sched.tokens + x.2.1 } } →
    exec (.stepEnd dt job sampled pause) s = .next (((((n.postStep job r.status x.2.1 (n.job job).stepNo).adjustStagger
      pause).placeLayers job (vectorSum r.streams)).checkpointAll.settleTakeover.boundary_ job).advance)) ∧
  (∀ (s : State) (p : Nat), (s.adjustStagger p).sched.lanes = s.val 0x4005 2 ∧
    (s.flag 0x4005 1 = false → (s.adjustStagger p).val 0x4005 5 = 0) ∧
    (s.flag 0x4005 1 = true →
      (s.val 0x4005 4 < p → (s.adjustStagger p).val 0x4005 5 = min (s.val 0x4005 5 + 1) (s.val 0x4005 3)) ∧
      (p < s.val 0x4005 4 / 2 → (s.adjustStagger p).val 0x4005 5 = s.val 0x4005 5 - 1) ∧
      (s.val 0x4005 4 / 2 ≤ p → p ≤ s.val 0x4005 4 → (s.adjustStagger p).val 0x4005 5 = s.val 0x4005 5))) ∧
  (∀ (s : State) (j n : Nat) (t : BitVec 32), (s.stream n).st = .active → (s.stream n).job = j → (s.stream n).prompt = [] →
    0 < (s.stream n).budget → ∃ u, s.deliverToken j n false (some t) = (u, some (idleReason ((s.stream n).budget - 1)
        ((s.job j).stopTokens.any (fun k => k = t.toNat)) (s.stream n).after)) ∧
      (u.stream n).budget = (s.stream n).budget - 1 ∧ (u.stream n).generated = ((s.stream n).generated + 1) % 2 ^ 64 ∧
      (∀ k : Nat, k ≠ n → (u.stream k).budget = (s.stream k).budget ∧ (u.stream k).st = (s.stream k).st)) ∧
  (∀ (s b c : State) (dt : Nat) (job : Fin 8) (tag : BitVec 32) (r : RunStep) (x : Nat × State), b = s.elapse dt →
    ((b.job job).reissue = none → exec (.stepReissue dt job tag) s = .next b) ∧
    ((b.job job).reissue = some r → (b.job job).step = none → (b.job job).st.resident = true → c = b.replaceUnits job r.worst →
      x = c.launchRecord (c.formed job r.entry tag.toNat (r.cores.map (fun i => 2 ^ i)).sum) .firmware
        (if r.streams.isEmpty then [] else (r.streams.filter (fun y => (b.stream y.1).job = job && (b.stream y.1).st.batch)).map
          (fun y => (y.1, b.vectorsOf y.1))) →
      (tag = 0 ∨ x.1 ≠ 0 → exec (.stepReissue dt job tag) s = .next b) ∧
      (tag ≠ 0 → x.1 = 0 → exec (.stepReissue dt job tag) s = .next (x.2.modJob job (fun y => { y with reissue := none })))))

/-- Launch records (R253, R254, R286 to R294). A record is served by its path: of the firmware, of the twin while the pair stands, by
a SEND or from a ring; LAUNCH_STEP takes the STEP records and LAUNCH_CANCEL the CANCEL records. The checks run in the order of R288, and
the first that fails gives the status and refuses the record. An accepted STEP record pends, an accepted CANCEL takes its record
out. A frame is heard on a port in service at the launch port while launch frames are enabled; one that breaks its layout is counted
and dropped whole; of another each record is checked on its own. A record waiting beyond its LATE_LIMIT is abandoned with LATE, and so
is a step that still runs at its stretched deadline. -/
def Obligations.LaunchRecordsAreChecked : Prop :=
  (∀ (s b : State) (dt m : Nat) (d : List Byte), b = s.elapse dt →
    ∀ k ∈ [(Instr.launchStep dt, false), (.launchCancel dt, true)],
    (field d 16 1 = 2 ↔ k.2 = false) → exec (k.1 (.firmware d)) s = .next b ∧ exec (k.1 (.twin d)) s = .next b ∧
      exec (k.1 (.send m d)) s = .next b) ∧
  (∀ (s b : State) (dt m : Nat) (d : List Byte), b = s.elapse dt →
    ∀ k ∈ [(Instr.launchStep dt, false), (.launchCancel dt, true)], (field d 16 1 = 2 ↔ k.2 = true) →
      exec (k.1 (.firmware d)) s = .next (b.launchRecord (Record.ofBytes d) .firmware []).2 ∧
      (b.hearsTwin = true → exec (k.1 (.twin d)) s = .next (b.launchRecord (Record.ofBytes d) (.frame 4) []).2) ∧
      (b.hearsTwin = false → exec (k.1 (.twin d)) s = .next b) ∧
      exec (k.1 (.send m d)) s = .next ((b.launchRecord (Record.ofBytes d) (.master m) []).2.done m none rqLaunch
        (b.launchRecord (Record.ofBytes d) (.master m) []).1 0 0)) ∧
  (∀ (s b c : State) (dt p q : Nat) (e : List Byte) (r : Rq), b = s.elapse dt → b.takeRequest rqLaunch = (c, some (p, q, e)) →
    r = { m := 2 + p, ring := some (p, q), entry := e } →
    ∀ k ∈ [(Instr.launchStep dt, false), (.launchCancel dt, true)],
    ((field e 24 1 = 2 ↔ k.2 = true) → exec (k.1 .ring) s = .next
      ((c.launchRecord (Record.ofBytes ((e.drop 8).take 32)) (.master (2 + p)) []).2.answer r
        (c.launchRecord (Record.ofBytes ((e.drop 8).take 32)) (.master (2 + p)) []).1 0)) ∧
    ((field e 24 1 = 2 ↔ k.2 = false) → exec (k.1 .ring) s = .next b)) ∧
  (∀ (s : State) (r : Record) (m : Nat) (cs : List Nat),
    cs = (if (s.job r.job).st.resident then (s.job r.job).coresBound r.cores else []) →
    (s.recordOk r = false → s.launchRecord r (.master m) [] = (0x01, s.refuseRecord r)) ∧
    (s.recordOk r = true →
      ((∃ c ∈ cs, has (s.launchRights m c) 3 = false) → (s.launchRecord r (.master m) []).1 = 0x0C) ∧
      ((∀ c ∈ cs, has (s.launchRights m c) 3 = true) →
        (s.recordRest r (r.flags = 1) cs ≠ 0 →
          s.launchRecord r (.master m) [] = (s.recordRest r (r.flags = 1) cs, s.refuseRecord r)) ∧
        (s.recordRest r (r.flags = 1) cs = 0 → r.kind = 2 → s.launchRecord r (.master m) [] = (0, s.acceptCancel r) ∧
          (s.acceptCancel r).sched.launches = s.sched.launches.filter (fun l => !(l.job = r.job && l.tag = r.tag))) ∧
        (s.recordRest r (r.flags = 1) cs = 0 → r.kind = 1 → ∃ t l, s.launchRecord r (.master m) [] = (0, t) ∧
          t.sched.launches = s.sched.launches ++ [l] ∧ l.time = timeNs r.time ∧ l.tag = r.tag ∧ l.job = r.job ∧
          l.entry = r.entry ∧ l.lateLimit = r.lateLimit ∧ l.deadline = r.deadline)))) ∧
  (∀ (s b : State) (dt : Nat) (port : Fin 128) (src : BitVec 128) (dport : BitVec 16) (d : List Byte), b = s.elapse dt →
    ((b.unit (portRef port)).works = false ∨ dport.toNat ≠ b.val 0x2106 1 ∨ b.flag 0x2106 2 = false →
      exec (.launchFrame dt port src dport d) s = .next b) ∧
    ((b.unit (portRef port)).works = true → dport.toNat = b.val 0x2106 1 → b.flag 0x2106 2 = true → b.twinPort port = false →
      (frameOk d = false → exec (.launchFrame dt port src dport d) s = .next (b.bump 0x2107 2 1)) ∧
      (frameOk d = true → ∀ m : Nat, b.peerMaster src = some m → exec (.launchFrame dt port src dport d) s = .next
        (forRange (field d 3 1) b (fun c i => (c.launchRecord (Record.ofBytes ((d.drop (8 + 32 * i)).take 32)) (.frame m) []).2))))) ∧
  (∀ (s b : State) (dt : Nat) (job : Fin 8) (tag : BitVec 32) (l : Launch), b = s.elapse dt →
    (b.pendingLaunch job tag.toNat = none → exec (.launchLate dt job tag) s = .next b) ∧
    (b.pendingLaunch job tag.toNat = some l →
      (l.lateLimit = 0 ∨ b.ns ≤ l.time + 1000 * l.lateLimit ∨ b.lateCounts l = false →
        exec (.launchLate dt job tag) s = .next b) ∧
      (l.lateLimit ≠ 0 → l.time + 1000 * l.lateLimit < b.ns → b.lateCounts l = true → exec (.launchLate dt job tag) s =
        .next (((b.bump 0x2107 6 1).raise 0x0115 0 (job + 0x18 * 256)).failLaunch l 0x18)))) ∧
  (∀ (s b : State) (dt : Nat) (job : Fin 8) (r : RunStep), b = s.elapse dt → (b.job job).step = some r →
    (r.deadline = 0 ∨ r.stopped ≠ 0 ∨
        (b.ns - r.launch) * (b.sigmaMax job).2 < r.deadline * 100000 * (b.sigmaMax job).1 →
      exec (.stepDeadline dt job) s = .next b) ∧
    (r.deadline ≠ 0 → r.stopped = 0 → r.deadline * 100000 * (b.sigmaMax job).1 ≤ (b.ns - r.launch) * (b.sigmaMax job).2 →
      exec (.stepDeadline dt job) s = .next (((b.modJob job (fun x => { x with step := x.step.map (fun y =>
        { y with worst := if y.worst = 0 || worse y.worst 0x18 then 0x18 else y.worst }) })).bump 0x2107 6 1).stopStep
          job 3 0x18 r.failAddr)))

-- time (R274 to R282, R291)

/-- Time sources and lock (R276 to R282, R291). An update of an enabled source counts for it within 1 µs and against it beyond; a source
with 16 updates beyond 1 µs is no longer qualified once time has left FREE-RUN. A source present for 2 s with 16 updates within
1 µs is qualified, and followed if none was. A lost source is present and qualified no more. An offset beyond the Step Threshold
steps time where a step is permitted, any other is slewed. 2 s within the Lock Threshold make LOCKED; the Holdover Limit ends in
FREE-RUN, where no cross-device record pends any longer. Time Of Day names the second of the next 1PPS edge. Announce goes out on every
port in service with class 248 in FREE-RUN, 135 for the first four hours of HOLDOVER and 165 after them. -/
def Obligations.TimeFollowsItsSources : Prop :=
  (∀ (s b : State) (dt k : Nat) (src : TimeSrc) (off : Int) (cls : BitVec 8) (utc : Option (BitVec 16)), b = s.elapse dt →
    k = srcNo src →
    (b.flag 0x2101 k = false → exec (.sourceUpdate dt src off cls utc) s = .next b) ∧
    (b.flag 0x2101 k = true → ∃ t, exec (.sourceUpdate dt src off cls utc) s = .next t ∧
      (t.source k).present = some ((b.source k).present.getD b.up) ∧ (t.source k).lastAt = b.up ∧
      (t.source k).clockClass = cls.toNat ∧
      (off.natAbs ≤ 1000000 → (t.source k).inBand = min 16 ((b.source k).inBand + 1) ∧ (t.source k).outBand = 0) ∧
      (1000000 < off.natAbs → (t.source k).inBand = 0 ∧ (t.source k).outBand = min 16 ((b.source k).outBand + 1)) ∧
      (off.natAbs ≤ 1000000 ∨ (b.source k).outBand < 15 ∨ b.time.lock = .freeRun →
        (t.source k).qualified = (b.source k).qualified) ∧
      (1000000 < off.natAbs → 15 ≤ (b.source k).outBand → b.time.lock ≠ .freeRun → (t.source k).qualified = false))) ∧
  (∀ (s b : State) (dt k : Nat) (src : TimeSrc), b = s.elapse dt → k = srcNo src →
    ((b.source k).qualified = true ∨ (b.source k).inBand < 16 ∨ (b.source k).present = none ∨
        (k = 3 ∧ b.time.dayKnown = false) → exec (.sourceQualified dt src) s = .next b) ∧
    (∀ since : Nat, (b.source k).qualified = false → 16 ≤ (b.source k).inBand → (k = 3 → b.time.dayKnown = true) →
      (b.source k).present = some since →
      (b.up < since + 2000000000000 → exec (.sourceQualified dt src) s = .next b) ∧
      (since + 2000000000000 ≤ b.up → ∃ m : State, m = b.modSource k (fun x => { x with qualified := true, qualifiedAt := b.up }) ∧
        (b.time.followed = 0 → exec (.sourceQualified dt src) s = .next (m.follow k)) ∧
        (b.time.followed ≠ 0 → exec (.sourceQualified dt src) s = .next m)))) ∧
  (∀ (s b : State) (dt k : Nat) (src : TimeSrc), b = s.elapse dt → k = srcNo src →
    ((b.source k).present = none → exec (.sourceLost dt src) s = .next b) ∧
    ((b.source k).present.isSome = true →
      (k = 2 → b.up < (b.source k).lastAt + 100000000000 → exec (.sourceLost dt src) s = .next b) ∧
      (k = 3 → b.up < (b.source k).lastAt + 1100000000000 → exec (.sourceLost dt src) s = .next b) ∧
      ((k = 2 → (b.source k).lastAt + 100000000000 ≤ b.up) → (k = 3 → (b.source k).lastAt + 1100000000000 ≤ b.up) →
        (b.source k).lastAt ≤ b.up →
        ∃ t, exec (.sourceLost dt src) s = .next t ∧ t = (b.modSource k (fun _ => {})).unfollow k ∧
          (t.source k).present = none ∧ (t.source k).qualified = false ∧ t.time.followed ≠ k))) ∧
  (∀ (s b : State) (dt : Nat), b = s.elapse dt →
    (b.bestSource = 0 → exec (.waitToRestore dt) s = .next b) ∧
    (b.bestSource ≠ 0 → b.time.followed = 0 ∨ b.bestSource < b.time.followed →
      (b.up < (b.source b.bestSource).qualifiedAt + b.val 0x2101 4 * 1000000000000 → exec (.waitToRestore dt) s = .next b) ∧
      ((b.source b.bestSource).qualifiedAt + b.val 0x2101 4 * 1000000000000 ≤ b.up → ∃ t, exec (.waitToRestore dt) s = .next t ∧
        t = b.follow b.bestSource ∧ t.time.followed = b.bestSource))) ∧
  (∀ (s : State) (off : Int),
    (s.val 0x2101 7 * 1000 < off.natAbs → ((s.run.st ≠ .serving ∧ s.run.st ≠ .draining) ∨ s.flag 0x2101 8 = true) →
      (s.correct off).clock.now = ((s.clock.now : Int) - off).toNat ∧ (s.correct off).clock.slewLeft = 0 ∧
      (s.correct off).clock.up = s.clock.up) ∧
    (off.natAbs ≤ s.val 0x2101 7 * 1000 ∨ ((s.run.st = .serving ∨ s.run.st = .draining) ∧ s.flag 0x2101 8 = false) →
      s.correct off = { s with clock := { s.clock with slewLeft := -off } })) ∧
  (∀ (s b : State) (dt since : Nat), b = s.elapse dt →
    (b.time.followed = 0 ∨ b.time.lock = .locked ∨ b.time.withinSince = none → exec (.timeLocked dt) s = .next b) ∧
    (b.time.followed ≠ 0 → b.time.lock ≠ .locked → b.time.withinSince = some since →
      (b.up < since + 2000000000000 → exec (.timeLocked dt) s = .next b) ∧
      (since + 2000000000000 ≤ b.up → ∃ t, exec (.timeLocked dt) s = .next t ∧ t.time.lock = .locked ∧ t.time.since = b.up ∧
        t.time.followed = b.time.followed ∧ (b.time.followed ≠ 3 → t.time.dayKnown = true) ∧ t.clock = b.clock))) ∧
  (∀ (s b : State) (dt : Nat), b = s.elapse dt →
    (b.time.lock ≠ .holdover ∨ b.up < b.time.since + b.val 0x2101 6 * 1000000000000 → exec (.timeFreeRun dt) s = .next b) ∧
    (b.time.lock = .holdover → b.time.since + b.val 0x2101 6 * 1000000000000 ≤ b.up → ∃ t, exec (.timeFreeRun dt) s = .next t ∧
      t.time.lock = .freeRun ∧ ∀ l ∈ t.sched.launches, l.cross = false)) ∧
  (∀ (s b : State) (dt : Nat), b = s.elapse dt →
    (b.flag 0x2101 3 = false ∨ b.time.dayKnown = false → exec (.ppsEdge dt) s = .next b) ∧
    (∀ second : Nat, b.flag 0x2101 3 = true → b.time.dayKnown = true → b.time.nextEdge = some second →
      (b.source 3).present = none → exec (.ppsEdge dt) s =
        .next (({ b with time := { b.time with nextEdge := some (second + 1) } } : State).updateSource 3
          ((b.clock.now : Int) - 1000 * b.valInt 0x2105 1 32 - second * 1000000000000) 0))) ∧
  (∀ (s b : State) (dt : Nat) (road : Road) (seconds : BitVec 64), b = s.elapse dt →
    b.admits road 0x2105 3 (leBytes 8 seconds.toNat) →
    (seconds.toNat < 2 ^ 48 → exec (.timeOfDay dt road seconds) s = .next
      (({ b with time := { b.time with dayKnown := true, nextEdge := some seconds.toNat } } : State).reply
        (viaOf road 0x2105 3) 0x2105 3 0)) ∧
    (2 ^ 48 ≤ seconds.toNat → exec (.timeOfDay dt road seconds) s = .next (b.reply (viaOf road 0x2105 3) 0x2105 3 0x06090030))) ∧
  (∀ (s b : State) (dt : Nat), b = s.elapse dt →
    (b.flag 0x2101 1 = false ∨ b.flag 0x2102 4 = false → exec (.syncAndAnnounceSend dt) s = .next b) ∧
    (b.flag 0x2101 1 = true → b.flag 0x2102 4 = true → ∃ t cls, exec (.syncAndAnnounceSend dt) s = .next t ∧
      t.out = b.out ++ ((List.range 128).filter (fun n => (b.unit (portRef n)).works)).map (fun n => .announce n cls) ∧
      (b.time.lock = .freeRun → cls = 248) ∧
      (b.time.lock = .holdover → b.up ≤ b.time.since + 14400 * 1000000000000 → cls = 135) ∧
      (b.time.lock = .holdover → b.time.since + 14400 * 1000000000000 < b.up → cls = 165) ∧
      (b.time.lock = .locked → b.time.followed = 1 → cls = (b.source 1).clockClass)))

-- epochs (R295 to R299)

/-- Epochs (R295 to R299). A write of an EPOCH entry is staged in PENDING, and a later value of the entry takes the place of the
earlier; outside PENDING it is refused. OPEN leads from STABLE to PENDING with nothing staged, ABORT back; COMMIT from PENDING and
RECOMMIT and REVERT from MIXED wait for the Commit Time, which lies 20 µs to 3,600 s ahead; from other states each is
refused. At the Commit Time of a COMMIT the epoch number takes the next value, 1 after 65,535, and each unit that a value acts on is
to apply it. A unit applies its values at its boundary; units that have not when the Commit Window has passed are MIXED, and so is
the epoch. -/
def Obligations.EpochsCommitAtTheirTime : Prop :=
  (∀ (s b : State) (dt : Nat) (road : Road) (index : BitVec 16) (sub : BitVec 8) (d : List Byte) (via : Via) (code : Nat),
    b = s.elapse dt → via = viaOf road index.toNat sub.toNat → code = b.stageCheck index.toNat (leNat d) →
    (isEpochEntry index.toNat sub.toNat = false → exec (.epochStageWrite dt road index sub d) s = .next b) ∧
    (isEpochEntry index.toNat sub.toNat = true → b.admits road index.toNat sub.toNat d →
      (b.epoch.st ≠ .pending → exec (.epochStageWrite dt road index sub d) s =
        .next (b.reply via index.toNat sub.toNat 0x08000022)) ∧
      (b.epoch.st = .pending → code ≠ 0 → exec (.epochStageWrite dt road index sub d) s =
        .next (b.reply via index.toNat sub.toNat code)) ∧
      (b.epoch.st = .pending → code = 0 → ∃ t, exec (.epochStageWrite dt road index sub d) s = .next t ∧
        (∀ v : Nat, (odKey index.toNat sub.toNat, v) ∈ t.epoch.staged ↔ v = leNat d) ∧
        (∀ k v : Nat, k ≠ odKey index.toNat sub.toNat → ((k, v) ∈ t.epoch.staged ↔ (k, v) ∈ b.epoch.staged)) ∧
        t.epoch.st = .pending ∧ t.units = b.units ∧ t.loops = b.loops ∧ t.convs = b.convs))) ∧
  (∀ (s b : State) (dt : Nat) (road : Road) (via : Via), b = s.elapse dt → via = viaOf road 0x2002 5 →
    (b.admits road 0x2002 5 [1] →
      (b.epoch.st = .stable → ∃ t, exec (.epochOpen dt road) s = .next t ∧ t.epoch.st = .pending ∧ t.epoch.staged = []) ∧
      (b.epoch.st ≠ .stable → exec (.epochOpen dt road) s = .next (b.reply via 0x2002 5 0x08000022))) ∧
    (b.admits road 0x2002 5 [2] →
      (b.epoch.st = .pending → b.ns + 20000 ≤ timeNs (b.val 0x2002 3) → timeNs (b.val 0x2002 3) ≤ b.ns + 3600000000000 →
        exec (.epochCommit dt road) s = .next (({ b with epoch := { b.epoch with
          st := .committing, kind := 0, commitAt := timeNs (b.val 0x2002 3), applying := false } } : State).reply via 0x2002 5 0)) ∧
      (b.epoch.st ≠ .pending ∨ timeNs (b.val 0x2002 3) < b.ns + 20000 ∨ b.ns + 3600000000000 < timeNs (b.val 0x2002 3) →
        exec (.epochCommit dt road) s = .next (b.reply via 0x2002 5 0x08000022))) ∧
    (b.admits road 0x2002 5 [3] →
      (b.epoch.st = .pending → ∃ t, exec (.epochAbort dt road) s = .next t ∧ t.epoch.st = .stable ∧ t.epoch.staged = [] ∧
        t.val 0x2002 1 = b.val 0x2002 1) ∧
      (b.epoch.st ≠ .pending → exec (.epochAbort dt road) s = .next (b.reply via 0x2002 5 0x08000022))) ∧
    (b.epoch.st = .mixed → b.ns + 20000 ≤ timeNs (b.val 0x2002 3) → timeNs (b.val 0x2002 3) ≤ b.ns + 3600000000000 →
      (b.admits road 0x2002 5 [4] → exec (.epochRecommit dt road) s = .next (({ b with epoch := { b.epoch with
        st := .committing, kind := 1, commitAt := timeNs (b.val 0x2002 3), applying := false } } : State).reply via 0x2002 5 0)) ∧
      (b.admits road 0x2002 5 [5] → exec (.epochRevert dt road) s = .next (({ b with epoch := { b.epoch with
        st := .committing, kind := 2, commitAt := timeNs (b.val 0x2002 3), applying := false } } : State).reply via 0x2002 5 0))) ∧
    (b.epoch.st ≠ .mixed →
      (b.admits road 0x2002 5 [4] → exec (.epochRecommit dt road) s = .next (b.reply via 0x2002 5 0x08000022)) ∧
      (b.admits road 0x2002 5 [5] → exec (.epochRevert dt road) s = .next (b.reply via 0x2002 5 0x08000022)))) ∧
  (∀ (s b m : State) (dt : Nat), b = s.elapse dt → m = { b with epoch := { b.epoch with applying := true } } →
    (b.epoch.st ≠ .committing ∨ b.epoch.applying = true ∨ b.ns < b.epoch.commitAt → exec (.epochCommitTime dt) s = .next b) ∧
    (b.epoch.st = .committing → b.epoch.applying = false → b.epoch.commitAt ≤ b.ns →
      (b.epoch.kind = 0 → ∃ t, exec (.epochCommitTime dt) s = .next t ∧ t = m.commitEpoch.settleEpoch ∧
        t.val 0x2002 1 = (if 65535 ≤ b.epoch.lastIssued then 1 else b.epoch.lastIssued + 1)) ∧
      (b.epoch.kind = 1 → exec (.epochCommitTime dt) s = .next m.recommitEpoch.settleEpoch) ∧
      (b.epoch.kind = 2 → exec (.epochCommitTime dt) s = .next m.revertEpoch.settleEpoch))) ∧
  (∀ (s b m : State) (dt r : Nat) (u : UnitRef), b = s.elapse dt → r = Machine.UnitRef.code u →
    (b.epoch.applying = false ∨ (tget b.units r).applyDue = false → exec (.epochApply dt u) s = .next b) ∧
    (b.epoch.applying = true → (tget b.units r).applyDue = true →
      m = (((if b.epoch.kind = 2 then b.epoch.before else b.epoch.staged).filter (fun x =>
        if refKind r = 7 then x.1 / 256 = 0x6100 + refB r else x.1 / 256 = 0x6200 + refA r)).foldl (fun s x =>
          s.applyStaged r x.1 x.2) b).modUnit r (fun y => { y with applyDue := false }) →
      exec (.epochApply dt u) s = .next (if (tget m.units r).mixed then m.unmix r else m).settleEpoch)) ∧
  (∀ (s b : State) (dt : Nat), b = s.elapse dt →
    (b.epoch.applying = false ∨ b.applyDueUnits = [] ∨ b.ns ≤ b.epoch.commitAt + 1000 * b.val 0x2002 4 →
      exec (.epochMixed dt) s = .next b) ∧
    (b.epoch.applying = true → b.applyDueUnits ≠ [] → b.epoch.commitAt + 1000 * b.val 0x2002 4 < b.ns →
      ∃ t, exec (.epochMixed dt) s = .next t ∧ t.epoch.st = .mixed ∧ t.epoch.applying = false ∧
        ∀ r ∈ b.applyDueUnits, (tget t.units r).mixed = true ∧ (tget t.units r).applyDue = false))

-- ports (R303 to R312, R315)

/-- Port commands (R305, R306, R307, R312, R315). A word may be taken if its reserved fields are 0, its port exists and has no command in
progress but for DISABLE, and no twin holds the port but for RETRAIN; any other word is refused and changes nothing. ENABLE takes
an OFFLINE port to STARTING. DISABLE, RETRAIN and RETIRE withdraw the port from its groups; with nothing queued it is OFFLINE, in REPAIR
or RETIRED at once, else its queues drain from now. REMAP replaces the membership of P by Q in every group, Q in the places of P,
and no port changes state; it is refused for Q equal to P, OFFLINE, RETIRED or beside P in a group. UNRETIRE makes a RETIRED port
OFFLINE, and is refused where the reserved buffer would pass 192 MiB. No other port changes its state. -/
def Obligations.PortCommandsActOnTheirPort : Prop :=
  (∀ (s : State) (w : Nat), s.pcMay w = true ↔ (w % 256 < 128 ∧ w / 2 ^ 24 = 0 ∧ (pcCmd w = 4 ∨ pcTarget w = 0)) ∧
    ((tget s.units (portRef (w % 256))).command = 0 ∨ pcCmd w = 2) ∧ (w % 256 < 120 ∨ s.twin.st = .solo ∨ pcCmd w = 3)) ∧
  (∀ (s b : State) (dt n : Nat) (road : Road) (w : BitVec 32) (via : Via), b = s.elapse dt → n = w.toNat % 256 →
    via = viaOf road 0x2300 0x16 → b.admits road 0x2300 0x16 (leBytes 4 w.toNat) →
    (pcCmd w.toNat = 1 →
      (b.pcMay w.toNat = true → b.unit (portRef n) = .offline → ∃ t, exec (.portEnable dt road w) s = .next t ∧
        t = (b.portEnable n).reply via 0x2300 0x16 0 ∧ t.unit (portRef n) = .starting ∧ (t.port n).link = false ∧
        (t.port n).resolved = false ∧ ∀ r : Nat, r ≠ portRef n → t.unit r = b.unit r) ∧
      (b.pcMay w.toNat = false ∨ b.unit (portRef n) ≠ .offline →
        exec (.portEnable dt road w) s = .next (b.reply via 0x2300 0x16 0x08000022))) ∧
    (∀ k ∈ [(Instr.portDisable dt road w, 2, UnitSt.offline), (.portRetrain dt road w, 3, .repair),
        (.portRetire dt road w, 5, .retired)], pcCmd w.toNat = k.2.1 →
      (b.pcMay w.toNat = true → b.unit (portRef n) ≠ .retired →
        (k.2.1 = 3 → b.unit (portRef n) = .ready ∨ b.unit (portRef n) = .serving ∨ b.unit (portRef n) = .fenced) →
        ((b.port n).queued = 0 → ∃ t, exec k.1 s = .next t ∧ t.unit (portRef n) = k.2.2 ∧ (t.port n).link = false ∧
          t.inGroups n = false ∧ ∀ r : Nat, r ≠ portRef n → t.unit r = b.unit r) ∧
        ((b.port n).queued ≠ 0 → ∃ t, exec k.1 s = .next t ∧ (t.port n).draining = k.2.1 ∧ (t.port n).drainAt = b.up ∧
          (t.port n).egress = (b.port n).egress ∧ t.inGroups n = false ∧ ∀ r : Nat, t.unit r = b.unit r)) ∧
      (b.pcMay w.toNat = false ∨ b.unit (portRef n) = .retired ∨ (k.2.1 = 3 ∧ b.unit (portRef n) ≠ .ready ∧
          b.unit (portRef n) ≠ .serving ∧ b.unit (portRef n) ≠ .fenced) →
        exec k.1 s = .next (b.reply via 0x2300 0x16 0x08000022))) ∧
    (pcCmd w.toNat = 4 →
      (b.pcMay w.toNat = true → b.mayRemap n (pcTarget w.toNat) = true → ∃ t, exec (.portRemap dt road w) s = .next t ∧
        t.units = b.units ∧ t.ports = b.ports ∧ t.fabric.groupCount = b.fabric.groupCount ∧
        ∀ g : Nat, g < b.fabric.groupCount →
          (bitOf (b.fabric.bitmap g) n = false → t.fabric.bitmap g = b.fabric.bitmap g ∧ t.fabric.members g = b.fabric.members g) ∧
          (bitOf (b.fabric.bitmap g) n = true →
            (∀ k : Nat, bitOf (t.fabric.bitmap g) k =
              (k = pcTarget w.toNat || (k ≠ n && bitOf (b.fabric.bitmap g) k))) ∧
            (b.fabric.members g ≠ [] →
              t.fabric.members g = (b.fabric.members g).map (fun k => if k = n then pcTarget w.toNat else k)))) ∧
      (b.pcMay w.toNat = false ∨ pcTarget w.toNat = n ∨ b.unit (portRef (pcTarget w.toNat)) = .offline ∨
          b.unit (portRef (pcTarget w.toNat)) = .retired ∨ (∃ g : Nat, g < b.fabric.groupCount ∧
            bitOf (b.fabric.bitmap g) n = true ∧ bitOf (b.fabric.bitmap g) (pcTarget w.toNat) = true) →
        exec (.portRemap dt road w) s = .next (b.reply via 0x2300 0x16 0x08000022))) ∧
    (pcCmd w.toNat = 6 →
      (b.pcMay w.toNat = true → b.unit (portRef n) = .retired → b.reservedWith b.val (some n) ≤ 192 * 2 ^ 20 →
        ∃ t, exec (.portUnretire dt road w) s = .next t ∧ t.unit (portRef n) = .offline ∧
          (tget t.units (portRef n)).retiredNv = false ∧ ∀ r : Nat, r ≠ portRef n → t.unit r = b.unit r) ∧
      (b.pcMay w.toNat = true → b.unit (portRef n) = .retired → 192 * 2 ^ 20 < b.reservedWith b.val (some n) →
        exec (.portUnretire dt road w) s = .next (b.reply via 0x2300 0x16 0x06090030)) ∧
      (b.pcMay w.toNat = false ∨ b.unit (portRef n) ≠ .retired →
        exec (.portUnretire dt road w) s = .next (b.reply via 0x2300 0x16 0x08000022))))

/-- Ports as their links come and go (R305, R306, R308, R309, R310). A drain ends with its queues or after 100 µs: what remains is dropped
and counted, and the port takes the state of its command. A port trains in STARTING and REPAIR: a link at an allowed speed and a resolved
neighbour make it READY; until then it solicits its neighbour every 1 ms, takes the MAC address of the first answer, and starts
training again after 500 ms, counted. A READY port that has held its link for Flap Hold is SERVING. LOS below −10.00 dBm or
without FEC alignment, a pre-FEC BER above the threshold, and a local or remote fault make a READY or SERVING port FENCED: it is
in no group, its queues are empty and nothing is paused; LOS Events counts the first. A FENCED port whose light and signal are
back is STARTING. In any other state each of these does nothing. -/
def Obligations.PortsTrainServeAndLose : Prop :=
  (∀ (s b : State) (dt : Nat) (n : Fin 128), b = s.elapse dt →
    ((b.port n).draining = 0 ∨ ((b.port n).queued ≠ 0 ∧ b.up < (b.port n).drainAt + 100000000) →
      exec (.portEgressDrainEnd dt n) s = .next b) ∧
    (∀ k ∈ [(2, UnitSt.offline), (3, .repair), (5, .retired)], (b.port n).draining = k.1 →
      (b.port n).queued = 0 ∨ (b.port n).drainAt + 100000000 ≤ b.up → ∃ t, exec (.portEgressDrainEnd dt n) s = .next t ∧
        t.unit (portRef n) = k.2 ∧ (t.port n).queued = 0 ∧ (t.port n).draining = 0 ∧ (∀ r : Nat, r ≠ portRef n → t.unit r = b.unit r) ∧
        (0 < (b.port n).queued → t.val (portIdx n) 0x12 = wrapAdd 8 (b.val (portIdx n) 0x12) (b.port n).queued))) ∧
  (∀ (s b : State) (dt : Nat) (n : Fin 128) (speed : Fin 2), b = s.elapse dt →
    (b.training n = false ∨ (b.val (portIdx n) 2 ≠ 0 ∧ b.val (portIdx n) 2 ≠ speed + 1) →
      exec (.portLinkUp dt n speed) s = .next b) ∧
    (b.training n = true → b.val (portIdx n) 2 = 0 ∨ b.val (portIdx n) 2 = speed + 1 →
      ∃ t, exec (.portLinkUp dt n speed) s = .next t ∧ (t.port n).link = true ∧ (t.port n).speed = speed + 1 ∧
        t.unit (portRef n) = (if (b.port n).resolved then .ready else b.unit (portRef n)))) ∧
  (∀ (s b : State) (dt : Nat) (n : Fin 128), b = s.elapse dt →
    (b.training n = false ∨ (b.port n).resolved = true ∨ (∃ at_ : Nat, (b.port n).solicitAt = some at_ ∧ b.up < at_ + 1000000000) →
      exec (.neighbourSolicit dt n) s = .next b) ∧
    (b.training n = true → (b.port n).resolved = false →
      (∀ at_ : Nat, (b.port n).solicitAt = some at_ → at_ + 1000000000 ≤ b.up) →
      ∃ t v6, exec (.neighbourSolicit dt n) s = .next t ∧ t.out = b.out ++ [.solicit n v6] ∧
        (v6 = false ↔ b.val 0x2300 2 = 0 ∧ b.val 0x2300 3 ≠ 0) ∧ (t.port n).solicitAt = some b.up)) ∧
  (∀ (s b : State) (dt : Nat) (n : Fin 128) (mac : BitVec 48), b = s.elapse dt →
    (b.training n = false ∨ (b.port n).resolved = true → exec (.neighbourAnswer dt n mac) s = .next b) ∧
    (b.training n = true → (b.port n).resolved = false → ∃ t, exec (.neighbourAnswer dt n mac) s = .next t ∧
      (t.port n).neighbour = mac.toNat ∧ (t.port n).resolved = true ∧
      t.unit (portRef n) = (if (b.port n).link then .ready else b.unit (portRef n)))) ∧
  (∀ (s b : State) (dt : Nat) (n : Fin 128), b = s.elapse dt →
    (b.training n = false ∨ b.up < (b.port n).since + 500000000000 → exec (.portTrainingTimeout dt n) s = .next b) ∧
    (b.training n = true → (b.port n).since + 500000000000 ≤ b.up → ∃ t, exec (.portTrainingTimeout dt n) s = .next t ∧
      t.units = b.units ∧ (t.port n).link = false ∧ (t.port n).resolved = false ∧ (t.port n).since = b.up ∧
      t.val (portIdx n) 0xC = wrapAdd 8 (b.val (portIdx n) 0xC) 1)) ∧
  (∀ (s b : State) (dt : Nat) (n : Fin 128), b = s.elapse dt →
    (b.unit (portRef n) ≠ .ready ∨ b.up < (b.port n).since + b.val 0x2300 0x14 * 1000000000 →
      exec (.portFlapHold dt n) s = .next b) ∧
    (b.unit (portRef n) = .ready → (b.port n).since + b.val 0x2300 0x14 * 1000000000 ≤ b.up →
      ∃ t, exec (.portFlapHold dt n) s = .next t ∧ t.unit (portRef n) = .serving ∧
        (t.inGroups n = true ↔ (b.port n).draining = 0 ∧ b.twinPort n = false))) ∧
  (∀ (s b : State) (dt : Nat) (n : Fin 128) (cause : LosCause) (ber : BitVec 32), b = s.elapse dt →
    ((b.unit (portRef n)).works = false → exec (.portLos dt n cause) s = .next b ∧ exec (.portDegraded dt n ber) s = .next b ∧
      exec (.localOrRemoteFault dt n) s = .next b) ∧
    (∀ d : Int, cause = .rxPower d → -1000 ≤ d → exec (.portLos dt n cause) s = .next b) ∧
    (ber.toNat ≤ 1000 * b.val 0x2300 0x15 → exec (.portDegraded dt n ber) s = .next b) ∧
    ((b.unit (portRef n)).works = true → ∀ c ∈ [Instr.portLos dt n cause, .portDegraded dt n ber, .localOrRemoteFault dt n],
      (c = .portLos dt n cause → ∀ d : Int, cause = .rxPower d → d < -1000) →
      (c = .portDegraded dt n ber → 1000 * b.val 0x2300 0x15 < ber.toNat) →
      ∃ t, exec c s = .next t ∧ t.unit (portRef n) = .fenced ∧ (t.port n).egress = [] ∧ (t.port n).paused = [] ∧
        (t.port n).pausing = [] ∧ t.inGroups n = false ∧ (∀ r : Nat, r ≠ portRef n → t.unit r = b.unit r) ∧
        (c = .portLos dt n cause → t.val (portIdx n) 0xB = wrapAdd 8 (b.val (portIdx n) 0xB) 1))) ∧
  (∀ (s b : State) (dt : Nat) (n : Fin 128), b = s.elapse dt →
    (b.unit (portRef n) = .fenced → b.fabricLight n = true → ∃ t, exec (.portLightReturn dt n) s = .next t ∧
      t.unit (portRef n) = .starting ∧ (t.port n).link = false ∧ (t.port n).since = b.up) ∧
    (b.unit (portRef n) ≠ .fenced ∨ b.fabricLight n = false → exec (.portLightReturn dt n) s = .next b))

-- the switch (R304, R311 to R317)

/-- The switch (R304, R305, R311, R312, R314, R315, R316, R317). A FENCED port discards and counts what it receives; a port out of service hears
nothing; a frame that is bad, oversize or tagged is an error. An IPv4 packet from a port of its groups goes to the endpoint, or onward by
its route with the TTL one less, or is dropped and counted. It is admitted to its class's buffer: a lossless class pauses its peer past
the limit and drops only with its headroom full, a lossy class drops past the limit. Egress serves class 7, then 6, then the others in turn,
and marks ECT packets by the depth of the queue. Pauses refresh while they stand, stop their class for their quanta, end at quanta
0 and expire. A class paused beyond the watchdog loses its queue and its pauses until none has come for a further interval. The
route table and the groups are replaced whole, and a table with a bad entry is refused. -/
def Obligations.SwitchForwardsAndPauses : Prop :=
  (∀ (s b m : State) (dt : Nat) (n : Fin 128) (p : Packet), b = s.elapse dt →
    m = (b.bump (portIdx n) 0xE 1).bump (portIdx n) 0x10 p.bytes →
    (b.unit (portRef n) = .fenced → exec (.packetReceived dt n p) s = .next (b.bump (portIdx n) 0x13 1)) ∧
    (b.unit (portRef n) ≠ .fenced → (b.unit (portRef n)).works = false → exec (.packetReceived dt n p) s = .next b) ∧
    ((b.unit (portRef n)).works = true →
      (p.fcsOk = false ∨ b.val 0x2300 0xA < p.bytes ∨ p.tag = .other →
        exec (.packetReceived dt n p) s = .next (b.bump (portIdx n) 0x13 1)) ∧
      (p.fcsOk = true → p.bytes ≤ b.val 0x2300 0xA → p.tag ≠ .other →
        (p.kind = .pause → ∃ t, exec (.packetReceived dt n p) s = .next t ∧
          (t.port n).plainPauses = (b.port n).plainPauses + 1 ∧ (t.port n).paused = (b.port n).paused ∧ t.out = b.out) ∧
        (p.kind = .ipv4 → b.twinPort n = true ∨ p.multicast = true → exec (.packetReceived dt n p) s = .next m) ∧
        (p.kind = .ipv4 → b.twinPort n = false → p.multicast = false →
          (m.isOwn p.dst.toNat = true ∨ (∃ r, m.route p.dst.toNat = some r ∧ r.local_ = true) →
            exec (.packetReceived dt n p) s = .next (m.deliver_ p)) ∧
          (m.isOwn p.dst.toNat = false → (∀ r, m.route p.dst.toNat = some r → r.local_ = false) →
            (p.ttl.toNat ≤ 1 ∨ m.route p.dst.toNat = none → exec (.packetReceived dt n p) s = .next (m.bump 0x2300 0x1A 1)) ∧
            (1 < p.ttl.toNat → ∀ r, m.route p.dst.toNat = some r → ∀ e : Option Nat,
              e = m.egressOf r (flowSlot p.src.toNat p.dst.toNat p.proto.toNat p.sport.toNat p.dport.toNat) →
              (e = none → exec (.packetReceived dt n p) s = .next (m.bump 0x2300 0x1A 1)) ∧
              (∀ (out : Nat) (u : State) (ok : Bool), e = some out → m.admitBytes n (m.classOf p) p.bytes = (u, ok) →
                exec (.packetReceived dt n p) s = .next (if ok then u.queueFrame out (m.classOf p)
                  { pkt := { p with ttl := p.ttl - 1 }, from_ := some (n.val, m.classOf p) } else u)))))))) ∧
  (∀ (s h : State) (n cls k : Nat), h = s.hold n cls k false →
    (s.lossless cls = true → cls ∉ (s.port n).pausing →
      (h.sharedBy n cls ≤ h.sharedLimit → s.admitBytes n cls k = (h, true)) ∧
      (h.sharedLimit < h.sharedBy n cls → ∃ t, s.admitBytes n cls k = (t, true) ∧ cls ∈ (t.port n).pausing ∧
        t.out = s.out ++ [.pause n cls 0xFFFF])) ∧
    (s.lossless cls = true → cls ∈ (s.port n).pausing →
      (tget (s.port n).headroom cls + k ≤ s.headroomAt n → s.admitBytes n cls k = (s.hold n cls k true, true)) ∧
      (s.headroomAt n < tget (s.port n).headroom cls + k →
        s.admitBytes n cls k = ((s.bump 0x2300 0x1C 1).raise 0x0403 (portRef n) cls, false))) ∧
    (s.lossless cls = false →
      (h.sharedBy n cls ≤ h.sharedLimit → s.admitBytes n cls k = (h, true)) ∧
      (h.sharedLimit < h.sharedBy n cls → s.admitBytes n cls k = (s.bump (portIdx n) 0x12 1, false)))) ∧
  (∀ (s b : State) (dt : Nat) (n : Fin 128) (draw : BitVec 16), b = s.elapse dt →
    ((b.unit (portRef n)).works = false ∨ b.nextClass n = none → exec (.packetEgress dt n draw) s = .next b) ∧
    (∀ (cls turn : Nat) (d : Tbl Nat) (q : Queued) (rest : List Queued), (b.unit (portRef n)).works = true →
      b.nextClass n = some (cls, d, turn) → (b.port n).queueOf cls = q :: rest →
      ∃ t p l, exec (.packetEgress dt n draw) s = .next t ∧ t.out = b.out ++ .frame n p :: l ∧ (t.port n).queueOf cls = rest ∧
        (bitOf (b.val 0x2300 8) cls = true → q.pkt.ecn = 1 ∨ q.pkt.ecn = 2 → draw.toNat < b.markChance (queueBytes (q :: rest)) →
          p = { q.pkt with ecn := 3 }) ∧
        (bitOf (b.val 0x2300 8) cls = false ∨ (q.pkt.ecn ≠ 1 ∧ q.pkt.ecn ≠ 2) ∨
          b.markChance (queueBytes (q :: rest)) ≤ draw.toNat → p = q.pkt))) ∧
  (∀ (s : State) (n depth : Nat),
    (s.mayServe n 7 = true → s.nextClass n = some (7, (s.port n).deficits, (s.port n).turn)) ∧
    (s.mayServe n 7 = false → s.mayServe n 6 = true → s.nextClass n = some (6, (s.port n).deficits, (s.port n).turn)) ∧
    (depth ≤ s.val 0x2300 0xC * 1024 → s.markChance depth = 0) ∧
    (s.val 0x2300 0xC * 1024 < depth → s.val 0x2300 0xD * 1024 ≤ depth → s.markChance depth = 65536) ∧
    (s.val 0x2300 0xC * 1024 < depth → depth < s.val 0x2300 0xD * 1024 → s.markChance depth =
      s.val 0x2300 0xE * (depth - s.val 0x2300 0xC * 1024) * 65536 /
        (1000 * (s.val 0x2300 0xD * 1024 - s.val 0x2300 0xC * 1024)))) ∧
  (∀ (s b : State) (dt : Nat) (n : Fin 128) (cls : Fin 8), b = s.elapse dt →
    ((b.unit (portRef n)).works = true → cls.val ∈ (b.port n).pausing → exec (.pfcPauseRefresh dt n cls) s =
      .next ((b.bump (portIdx n) 0x14 1).emit (.pause n cls 0xFFFF))) ∧
    ((b.unit (portRef n)).works = false ∨ cls.val ∉ (b.port n).pausing → exec (.pfcPauseRefresh dt n cls) s = .next b)) ∧
  (∀ (s b : State) (dt : Nat) (n : Fin 128) (cls : Fin 8) (quanta : BitVec 16), b = s.elapse dt →
    ((b.unit (portRef n)).works = false → exec (.pfcPauseReceived dt n cls quanta) s = .next b) ∧
    ((b.unit (portRef n)).works = true →
      (b.lossless cls = false → exec (.pfcPauseReceived dt n cls quanta) s = .next (b.bump (portIdx n) 0x15 1)) ∧
      (b.lossless cls = true → (∃ x ∈ (b.port n).storm, x.1 = cls.val) → ∃ t, exec (.pfcPauseReceived dt n cls quanta) s = .next t ∧
        (t.port n).paused = (b.port n).paused ∧ ∀ x ∈ (t.port n).storm, x.1 = cls.val → x.2 = b.up) ∧
      (b.lossless cls = true → (∀ x ∈ (b.port n).storm, x.1 ≠ cls.val) →
        ∃ t, exec (.pfcPauseReceived dt n cls quanta) s = .next t ∧
          t.val (portIdx n) 0x15 = wrapAdd 8 (b.val (portIdx n) 0x15) 1 ∧
          (quanta = 0 → ∀ x ∈ (t.port n).paused, x.1 ≠ cls.val) ∧
          (quanta ≠ 0 → t.classPaused n cls = true ∧ ∀ x ∈ (t.port n).paused, x.1 = cls.val →
            x.2.1 = b.up + quanta.toNat * (if (b.port n).speed = 2 then 1280 else 640)) ∧
          ∀ x, x.1 ≠ cls.val → (x ∈ (t.port n).paused ↔ x ∈ (b.port n).paused)))) ∧
  (∀ (s b : State) (dt : Nat) (n : Fin 128) (cls : Fin 8), b = s.elapse dt →
    (∃ t, exec (.pfcPauseExpiry dt n cls) s = .next t ∧ (t.port n).storm = (b.port n).storm ∧
      ∀ x, x ∈ (t.port n).paused ↔ x ∈ (b.port n).paused ∧ ¬(x.1 = cls.val ∧ x.2.1 ≤ b.up)) ∧
    (∃ t, exec (.pfcWatchdogRecover dt n cls) s = .next t ∧ (t.port n).paused = (b.port n).paused ∧
      ∀ x, x ∈ (t.port n).storm ↔ x ∈ (b.port n).storm ∧ ¬(x.1 = cls.val ∧ x.2 + b.val 0x2300 0xF * 1000000000 ≤ b.up))) ∧
  (∀ (s b : State) (dt : Nat) (n : Fin 128) (cls : Fin 8), b = s.elapse dt →
    ((b.port n).paused.find? (fun x => x.1 = cls.val) = none → exec (.pfcStorm dt n cls) s = .next b) ∧
    (∀ x, (b.port n).paused.find? (fun x => x.1 = cls.val) = some x →
      (b.up ≤ x.2.2 + b.val 0x2300 0xF * 1000000000 ∨ x.2.1 < b.up → exec (.pfcStorm dt n cls) s = .next b) ∧
      (x.2.2 + b.val 0x2300 0xF * 1000000000 < b.up → b.up ≤ x.2.1 → ∃ t, exec (.pfcStorm dt n cls) s = .next t ∧
        (t.port n).queueOf cls = [] ∧ (cls.val, b.up) ∈ (t.port n).storm ∧ (∀ y ∈ (t.port n).paused, y.1 ≠ cls.val) ∧
        t.val (portIdx n) 0x17 = wrapAdd 4 (b.val (portIdx n) 0x17) 1))) ∧
  (∀ (s b : State) (dt : Nat) (road : Road) (data : List Byte), b = s.elapse dt →
    (b.admits road 0x2300 4 data → data.length % 32 = 0 → data.length ≤ 131072 →
      ((∀ i : Nat, i < data.length / 32 → routeOk b.fabric.groupCount ((data.drop (32 * i)).take 32) = true) →
        exec (.routeTableWrite dt road data) s =
          .next (({ b with fabric := { b.fabric with routes := data } } : State).reply (viaOf road 0x2300 4) 0x2300 4 0)) ∧
      (∀ i : Nat, i < data.length / 32 → routeOk b.fabric.groupCount ((data.drop (32 * i)).take 32) = false →
        exec (.routeTableWrite dt road data) s = .next (b.reply (viaOf road 0x2300 4) 0x2300 4 0x06090030))) ∧
    (b.admits road 0x2300 5 data → data.length % 16 = 0 → data.length ≤ 4080 →
      ∃ t, exec (.ecmpGroupsWrite dt road data) s = .next t ∧ t.fabric.groups = data ∧ t.fabric.routes = b.fabric.routes ∧
        ∀ g : Nat, t.fabric.members g = (List.range 128).filter (fun n => bitOf (field data (16 * g) 16) n)))

-- the RoCE endpoint (R318 to R322)

/-- Requests on queue pairs (R318, R319, R320, R535). A QP request reads its context as its requester; one with a reserved or unknown
value, or other than RESET for a queue pair in ERROR, completes RESERVED_FIELD; else the whole context is written, and the
sequence numbers, retries and rates start from it. A request received on a queue pair that is not RTR or RTS is not heard; one ahead of the
sequence is answered with a sequence NAK; a WRITE or SEND received before is acknowledged again. One in order with another RKEY
or without its ALLOW flag, from an address without a master, or without the right is answered NAK Remote Access Error; otherwise the
WRITE stores its data and is acknowledged, the READ is answered with data, and the SEND is acted on as a ring request of the
sender's master. An atomic is answered NAK Invalid Request. -/
def Obligations.QueuePairRequestsAreAnswered : Prop :=
  (∀ (s b c : State) (dt : Nat), b = s.elapse dt → b.takeRequest rqQp = (c, none) → exec (.qp dt) s = .next c) ∧
  (∀ (s b c : State) (dt p q n a : Nat) (e d : List Byte) (r : Rq), b = s.elapse dt → b.takeRequest rqQp = (c, some (p, q, e)) →
    r = { m := 2 + p, ring := some (p, q), entry := e } → n = field e 8 2 → a = field e 16 8 → d = c.mem.read a 64 →
    (rangeSpan a 64 ≠ .hbm → exec (.qp dt) s = .next (c.answerDenied r a 1)) ∧
    (∀ x lacking : Nat, rangeSpan a 64 = .hbm → c.checkMem (2 + p) a 64 0 = .denied x lacking →
      exec (.qp dt) s = .next (c.answerDenied r x lacking)) ∧
    (rangeSpan a 64 = .hbm → c.checkMem (2 + p) a 64 0 = .ok →
      ((field d 0 1 ≠ 0 ∧ qpContextOk d = false) ∨ (field d 0 1 = 0 ∧ qpReservedOk d = false) ∨
          ((c.qp n).st = 4 ∧ field d 0 1 ≠ 0) → exec (.qp dt) s = .next (c.answer r 0x01 0)) ∧
      ((field d 0 1 = 0 → qpReservedOk d = true) → (field d 0 1 ≠ 0 → qpContextOk d = true ∧ (c.qp n).st ≠ 4) →
        ∃ t m, exec (.qp dt) s = .next t ∧ t = (m.putQp n d).answer r 0 0 ∧
          (m = c ∨ ((c.qp n).st = 3 ∧ field d 0 1 ≠ 3 ∧
            m = c.failMoves 0x13 (fun w => (mKind w = 1 || mKind w = 2) && mQp w = n))) ∧
          (t.qp n).st = field d 0 1 ∧ (t.qp n).context = leNat d ∧ (t.qp n).sendPsn = field d 24 3 ∧
          (t.qp n).oldest = field d 24 3 ∧ (t.qp n).expect = field d 28 3 ∧ (t.qp n).retries = 0 ∧ (t.qp n).alpha = 65536 ∧
          (t.qp n).current = (t.qp n).target ∧ ∀ k : Nat, k ≠ n → t.qp k = c.qp k))) ∧
  (∀ (s b : State) (dt n len : Nat) (qp : BitVec 16) (src : BitVec 128) (psn : BitVec 24) (rkey : BitVec 32) (addr : BitVec 64)
      (data e : List Byte), b = s.elapse dt → n = qp.toNat →
    ∀ c ∈ [Instr.rdmaWriteReceived dt qp src psn rkey addr data, .rdmaReadReceived dt qp src psn rkey addr len,
      .sendReceived dt qp src psn e, .atomicReceived dt qp psn],
    (b.run.st = .off ∨ ((b.qp n).st ≠ 2 ∧ (b.qp n).st ≠ 3) → exec c s = .next b) ∧
    (b.run.st ≠ .off → (b.qp n).st = 2 ∨ (b.qp n).st = 3 →
      (psn.toNat ≠ (b.qp n).expect → (psn.toNat + 2 ^ 24 - (b.qp n).expect) % 2 ^ 24 < 2 ^ 23 →
        exec c s = .next (b.emit (.sequenceNak n (b.qp n).expect))) ∧
      (psn.toNat ≠ (b.qp n).expect → 2 ^ 23 ≤ (psn.toNat + 2 ^ 24 - (b.qp n).expect) % 2 ^ 24 →
        c = .rdmaWriteReceived dt qp src psn rkey addr data ∨ c = .sendReceived dt qp src psn e →
        exec c s = .next (b.emit (.ack n (b.qp n).lastSeen))))) ∧
  (∀ (s b : State) (dt n : Nat) (qp : BitVec 16) (src : BitVec 128) (psn : BitVec 24) (rkey : BitVec 32) (addr : BitVec 64)
      (data : List Byte), b = s.elapse dt → n = qp.toNat → b.arrival n psn.toNat = .inOrder →
    (rkey.toNat ≠ (b.qp n).byte 32 4 ∨ bitOf ((b.qp n).byte 41 1) 2 = false →
      exec (.rdmaWriteReceived dt qp src psn rkey addr data) s = .next (b.emit (.nak n psn.toNat true))) ∧
    (rkey.toNat = (b.qp n).byte 32 4 → bitOf ((b.qp n).byte 41 1) 2 = true →
      (b.peerMaster src = none → exec (.rdmaWriteReceived dt qp src psn rkey addr data) s =
        .next ((b.denyUnknown addr.toNat 1).emit (.nak n psn.toNat true))) ∧
      (∀ m : Nat, b.peerMaster src = some m → rangeSpan addr.toNat data.length ≠ .streams →
        (b.checkMem m addr.toNat data.length 1 = .ok → ∃ t, exec (.rdmaWriteReceived dt qp src psn rkey addr data) s = .next t ∧
          t.mem = b.mem.write addr.toNat data ∧
          t.out = b.out ++ [.ack n ((psn.toNat + (b.qp n).packets data.length - 1) % 2 ^ 24)] ∧
          (t.qp n).expect = ((b.qp n).expect + (b.qp n).packets data.length) % 2 ^ 24 ∧ t.od = b.od ∧ t.events = b.events) ∧
        (∀ x lacking : Nat, b.checkMem m addr.toNat data.length 1 = .denied x lacking →
          exec (.rdmaWriteReceived dt qp src psn rkey addr data) s =
            .next ((b.deny (some m) x lacking).emit (.nak n psn.toNat true)))))) ∧
  (∀ (s b : State) (dt n len : Nat) (qp : BitVec 16) (src : BitVec 128) (psn : BitVec 24) (rkey : BitVec 32) (addr : BitVec 64),
    b = s.elapse dt → n = qp.toNat → b.arrival n psn.toNat = .inOrder →
    (rkey.toNat ≠ (b.qp n).byte 32 4 ∨ bitOf ((b.qp n).byte 41 1) 1 = false →
      exec (.rdmaReadReceived dt qp src psn rkey addr len) s = .next (b.emit (.nak n psn.toNat true))) ∧
    (rkey.toNat = (b.qp n).byte 32 4 → bitOf ((b.qp n).byte 41 1) 1 = true → ∀ m : Nat, b.peerMaster src = some m →
      rangeSpan addr.toNat len = .hbm → b.checkMem m addr.toNat len 0 = .ok →
      ∃ t, exec (.rdmaReadReceived dt qp src psn rkey addr len) s = .next t ∧
        t.out = b.out ++ [.readResponse n psn.toNat (b.readAt addr.toNat len)] ∧ t.mem = b.mem ∧
        (t.qp n).expect = ((b.qp n).expect + (b.qp n).packets len) % 2 ^ 24)) ∧
  (∀ (s b u : State) (dt n m : Nat) (qp : BitVec 16) (src : BitVec 128) (psn : BitVec 24) (e : List Byte) (r : Rq),
    b = s.elapse dt → n = qp.toNat → b.arrival n psn.toNat = .inOrder → u = (b.expectNext n 1).emit (.ack n psn.toNat) →
    r = { m := m, ring := none, entry := padTo 64 0 e } →
    (bitOf ((b.qp n).byte 41 1) 3 = false → exec (.sendReceived dt qp src psn e) s = .next (b.emit (.nak n psn.toNat true))) ∧
    (bitOf ((b.qp n).byte 41 1) 3 = true → b.peerMaster src = some m →
      (b.servesRequests = false → exec (.sendReceived dt qp src psn e) s = .next (b.emit (.rnrNak n psn.toNat))) ∧
      (b.servesRequests = true →
        (requestOk (if rqType r.entry < rqOpen then 0 else 1) r.entry = true →
          exec (.sendReceived dt qp src psn e) s = .next (u.actRequest r)) ∧
        (requestOk (if rqType r.entry < rqOpen then 0 else 1) r.entry = false →
          exec (.sendReceived dt qp src psn e) s = .next (u.answer r 0x01 0))))) ∧
  (∀ (s b : State) (dt : Nat) (qp : BitVec 16) (psn : BitVec 24), b = s.elapse dt →
    b.arrival qp.toNat psn.toNat = .inOrder ∨ b.arrival qp.toNat psn.toNat = .again →
    exec (.atomicReceived dt qp psn) s = .next (b.emit (.nak qp.toNat psn.toNat false)))

/-- The device's own requests and its rates (R321, R322). An acknowledgement ends every WRITE in flight that it covers, a READ response
lands at its READ's destination. A sequence NAK and a timeout with something unacknowledged resend from the oldest unacknowledged
packet and count one retry, until the retries are used up; then, and at a fatal NAK, the queue pair is in ERROR, counted and
raised, and its transfers in flight end FABRIC_ERROR. A CNP makes the current rate the target, cuts it by half of alpha but not below the
minimum, and grows alpha. A recovery timer without a CNP shrinks alpha, raises the target after five rounds and moves the current
rate halfway to it. Each does nothing on a queue pair that is not RTS, and changes no other queue pair. -/
def Obligations.OwnRequestsRetryAndRatesRecover : Prop :=
  (∀ (s b : State) (dt n : Nat) (qp : BitVec 16) (psn : BitVec 24) (data : List Byte) (syndrome : BitVec 8), b = s.elapse dt →
    n = qp.toNat → (b.qp n).st ≠ 3 →
    ∀ c ∈ [Instr.ackReceived dt qp psn, .rdmaReadResponse dt qp psn data, .sequenceNak dt qp psn, .retransmitTimeout dt qp,
      .fatalNak dt qp syndrome, .rateRecoveryTimer dt qp], exec c s = .next b) ∧
  (∀ (s b : State) (dt n : Nat) (qp : BitVec 16) (psn : BitVec 24) (done : List Flight), b = s.elapse dt → n = qp.toNat →
    (b.qp n).st = 3 → done = (b.flights n).filter (fun f =>
      mKind f.word = 1 && psnGap (b.qp n).oldest f.txn.psn ≤ psnGap (b.qp n).oldest psn.toNat) →
    (psnGap (b.qp n).oldest (b.qp n).sendPsn ≤ psnGap (b.qp n).oldest psn.toNat → exec (.ackReceived dt qp psn) s = .next b) ∧
    (psnGap (b.qp n).oldest psn.toNat < psnGap (b.qp n).oldest (b.qp n).sendPsn →
      ∃ t m : State, exec (.ackReceived dt qp psn) s = .next t ∧
        m = (done.foldl (fun s f => (s.dropTxn f.core f.op f.txn).moveEnds f.core f.op) b) ∧ t.cores = m.cores ∧
        (done ≠ [] → (t.qp n).retries = 0) ∧ (t.qp n).oldest = ((m.newOldest n).qp n).oldest ∧
        (t.qp n).sendPsn = (b.qp n).sendPsn ∧ (∀ k : Nat, k ≠ n → t.qp k = b.qp k) ∧ t.mem = b.mem)) ∧
  (∀ (s b : State) (dt n : Nat) (qp : BitVec 16) (psn : BitVec 24) (data : List Byte), b = s.elapse dt → n = qp.toNat →
    (b.qp n).st = 3 →
    ((b.flights n).find? (fun f => mKind f.word = 2 && f.txn.psn = psn.toNat) = none →
      exec (.rdmaReadResponse dt qp psn data) s = .next b) ∧
    (∀ f : Flight, (b.flights n).find? (fun f => mKind f.word = 2 && f.txn.psn = psn.toNat) = some f →
      ∀ (u v : State) (st : Nat), u = b.dropTxn f.core f.op f.txn →
        u.writeAll (u.coreJob f.core) [(f.txn.dst, padTo f.txn.len 0 data)] = (st, v) →
        ∃ t, exec (.rdmaReadResponse dt qp psn data) s = .next t ∧ t.mem = v.mem ∧ (t.qp n).retries = 0 ∧
          t.cores = (if st = 0 then v.moveEnds f.core f.op else v.moveFails f.core f.op st).cores)) ∧
  (∀ (s b m : State) (dt n : Nat) (qp : BitVec 16) (psn : BitVec 24), b = s.elapse dt → n = qp.toNat → (b.qp n).st = 3 →
    ∀ c ∈ [Instr.sequenceNak dt qp psn, .retransmitTimeout dt qp],
    (c = .retransmitTimeout dt qp → m = b) → (c = .sequenceNak dt qp psn → m = (if psn.toNat = (b.qp n).oldest then b else
      b.acknowledge n ((psn.toNat + 2 ^ 24 - 1) % 2 ^ 24))) →
    (c = .retransmitTimeout dt qp → (b.qp n).oldest = (b.qp n).sendPsn → exec c s = .next b) ∧
    ((c = .retransmitTimeout dt qp → (b.qp n).oldest ≠ (b.qp n).sendPsn) →
      ((m.qp n).retries < (m.qp n).byte 3 1 % 8 → ∃ t, exec c s = .next t ∧ t.out = m.out ++ [.resend n (m.qp n).oldest] ∧
        (t.qp n).retries = (m.qp n).retries + 1 ∧ (t.qp n).st = 3 ∧ t.cores = m.cores) ∧
      ((m.qp n).byte 3 1 % 8 ≤ (m.qp n).retries → exec c s = .next (m.qpError n 0)))) ∧
  (∀ (s b : State) (dt n : Nat) (qp : BitVec 16) (syndrome : BitVec 8), b = s.elapse dt → n = qp.toNat → (b.qp n).st = 3 →
    exec (.fatalNak dt qp syndrome) s = .next (b.qpError n syndrome.toNat)) ∧
  (∀ (s : State) (n syndrome : Nat), ((s.qpError n syndrome).qp n).st = 4 ∧
    (s.qpError n syndrome).val 0x2300 0x1E = wrapAdd 8 (s.val 0x2300 0x1E) 1 ∧ (s.qpError n syndrome).mem = s.mem ∧
    ∀ k : Nat, k ≠ n → (s.qpError n syndrome).qp k = s.qp k) ∧
  (∀ (s b : State) (dt n : Nat) (qp : BitVec 16), b = s.elapse dt → n = qp.toNat → (b.qp n).st = 3 → b.run.st ≠ .off →
    ∃ t, exec (.cnpReceived dt qp) s = .next t ∧ t.val 0x2300 0x20 = wrapAdd 8 (b.val 0x2300 0x20) 1 ∧
      t.qp n = { b.qp n with
        target := (b.qp n).current, alpha := ((b.qp n).alpha * 255 + 65536) / 256, rounds := 0, cnpSeen := true
        current := max ((b.qp n).current * (131072 - (b.qp n).alpha) / 131072) (b.val 0x2300 0x13) } ∧
      ∀ k : Nat, k ≠ n → t.qp k = b.qp k) ∧
  (∀ (s b : State) (dt n g : Nat) (qp : BitVec 16), b = s.elapse dt → n = qp.toNat → (b.qp n).st = 3 →
    g = (if 5 ≤ (b.qp n).rounds then min ((b.qp n).target + b.val 0x2300 0x12) (b.lineRate n) else (b.qp n).target) →
    ((b.qp n).cnpSeen = true → exec (.rateRecoveryTimer dt qp) s = .next (b.modQp n (fun x => { x with cnpSeen := false }))) ∧
    ((b.qp n).cnpSeen = false → ∃ t, exec (.rateRecoveryTimer dt qp) s = .next t ∧
      t.qp n = { b.qp n with
        alpha := (b.qp n).alpha * 255 / 256, target := g, current := ((b.qp n).current + g) / 2, rounds := (b.qp n).rounds + 1 } ∧
      ∀ k : Nat, k ≠ n → t.qp k = b.qp k))

-- twin pairing (R327 to R338)

/-- Forming and contact (R283, R327, R328, R331, R332, R333, R338, R349). Frames on a twin port count only once a pair forms and on a port in
service; one not the partner's is discarded and counted. Pair Enable in SOLO with what R327 asks for enters FORMING, else it is
refused; FALSE leaves the pair. A HELLO in FORMING uses the port of its own index, counts another as mis-cabled, and is answered once
a signature is to be had; an answer whose certificate, report, nonce, key hash and geometry are right makes its sender the
partner. After 10 s formation starts over; with the asymmetries measured SYNCING follows. Heartbeats go out on every usable port;
one received ends the run of misses, brings SUSPECT back to where it was, lets a SELF_FENCED device rejoin and takes PAIRED to
LINK_DOWN where the partner is there. A passed deadline is a miss, the limit of misses SUSPECT; heartbeats without a miss for 1 ms
lead from LINK_DOWN to SYNCING. -/
def Obligations.TwinsFormAndKeepContact : Prop :=
  (∀ (s b : State) (dt : Nat) (i : Fin 8) (f : TwinFrame) (cert : List Byte) (geo : List Nat), b = s.elapse dt →
    ∀ k ∈ [(Instr.hello dt i f, 6), (.heartbeat dt i f, 1), (.goodbye dt i f, 4), (.unpairReceived dt i f, 5),
      (.helloAnswer dt i f cert geo, 7)],
    (b.twin.st = .solo ∨ (b.unit (portRef (120 + i))).works = false → exec k.1 s = .next b) ∧
    (b.twin.st ≠ .solo → (b.unit (portRef (120 + i))).works = true →
      (b.fromPartner f = false → exec k.1 s = .next (b.bump 0x2201 0x14 1)) ∧
      (b.fromPartner f = true → f.type.toNat ≠ k.2 → exec k.1 s = .next b))) ∧
  (∀ (s b : State) (dt : Nat) (road : Road) (value : BitVec 8) (via : Via), b = s.elapse dt → via = viaOf road 0x2200 1 →
    b.admits road 0x2200 1 [value] →
    (value = 0 → b.twin.st = .solo ∨ b.twin.st = .selfFenced →
      exec (.pairEnable dt road value) s = .next (b.reply via 0x2200 1 0x08000022)) ∧
    (value = 0 → b.twin.st ≠ .solo → b.twin.st ≠ .selfFenced →
      exec (.pairEnable dt road value) s = .next (b.unpairNow.reply via 0x2200 1 0)) ∧
    (value ≠ 0 → b.twin.st ≠ .solo → exec (.pairEnable dt road value) s = .next (b.reply via 0x2200 1 0)) ∧
    (value ≠ 0 → b.twin.st = .solo →
      (b.val 0x2200 2 ≠ 0 ∧ ((b.val 0x2200 4 ≠ 0 ∧ b.val 0x2200 3 ≠ 0) ∨ b.flag 0x2200 6 = true) →
        ∃ t, exec (.pairEnable dt road value) s = .next t ∧ t.twin.st = .forming ∧ t.twin.formAt = b.up ∧
          t.twin.partnerKey = [] ∧ t.twin.usable = [] ∧ t.units = b.units) ∧
      (b.val 0x2200 2 = 0 ∨ ((b.val 0x2200 4 = 0 ∨ b.val 0x2200 3 = 0) ∧ b.flag 0x2200 6 = false) →
        exec (.pairEnable dt road value) s = .next (b.reply via 0x2200 1 0x08000022)))) ∧
  (∀ (s b : State) (dt : Nat) (i : Fin 8) (f : TwinFrame), b = s.elapse dt → b.twin.st ≠ .solo →
    (b.unit (portRef (120 + i))).works = true → b.fromPartner f = true → f.type.toNat = 6 →
    (f.tail.length < 32 → exec (.hello dt i f) s = .next (b.bump 0x2201 0x14 1)) ∧
    (32 ≤ f.tail.length →
      (b.twin.st ≠ .forming → b.twin.st ≠ .degraded → exec (.hello dt i f) s = .next b) ∧
      (b.twin.st = .degraded → ∃ t, exec (.hello dt i f) s = .next t ∧ t.twin.st = .forming ∧ t.twin.formAt = b.up) ∧
      (b.twin.st = .forming → b.twin.partnerNonce ≠ f.tail.drop (f.tail.length - 32) → ∃ t, exec (.hello dt i f) s = .next t ∧
        t.twin.st = .forming ∧ t.twin.partnerNonce = f.tail.drop (f.tail.length - 32) ∧
        (f.port.toNat = 120 + i → i.val ∈ t.twin.usable ∧ t.twin.miscabled = b.twin.miscabled) ∧
        (f.port.toNat ≠ 120 + i → i.val ∈ t.twin.miscabled ∧ t.twin.usable = b.twin.usable) ∧
        (b.signWait = 0 → b.leaf < leafCount → ∃ fr body, t.out = b.out ++ [.hello i fr body] ∧ fr.type = 7 ∧
          t.twin.answered = true) ∧
        (b.signWait ≠ 0 ∨ leafCount ≤ b.leaf → t.out = b.out ∧ t.twin.answered = false)))) ∧
  (∀ (s b : State) (dt : Nat) (i : Fin 8) (f : TwinFrame) (cert : List Byte) (geo : List Nat), b = s.elapse dt →
    b.twin.st ≠ .solo → (b.unit (portRef (120 + i))).works = true → b.fromPartner f = true → f.type.toNat = 7 →
    (b.twin.st ≠ .forming ∨ b.acceptsPartner f.tail cert geo = false → exec (.helloAnswer dt i f cert geo) s = .next b) ∧
    (b.twin.st = .forming → b.acceptsPartner f.tail cert geo = true → ∃ t, exec (.helloAnswer dt i f cert geo) s = .next t ∧
      t.twin.st = .forming ∧ t.twin.partnerKey = cert.take 68 ∧ t.val 0x2201 2 = leNat (serialOf cert) ∧
      (f.port.toNat = 120 + i → i.val ∈ t.twin.usable))) ∧
  (∀ (s : State) (report cert : List Byte) (geo : List Nat), s.acceptsPartner report cert geo = true ↔
    s.certificateOk cert = true ∧ report.length = 3108 ∧
    Config.xmssVerify (cert.take 68) (report.take 288) ((report.drop 288).take 2820) = true ∧
    (report.drop 32).take 32 = s.twin.nonce ∧ leNat (shake256 (cert.take 68)) = s.val 0x2200 2 ∧ geo = s.geometry ∧
    s.time.lock ≠ .freeRun ∧ field report 20 1 ≠ 0) ∧
  (∀ (s b : State) (dt : Nat), b = s.elapse dt →
    (b.twin.st ≠ .forming ∨ b.up < b.twin.formAt + 10000000000000 → exec (.formationTimeout dt) s = .next b) ∧
    (b.twin.st = .forming → b.twin.formAt + 10000000000000 ≤ b.up → ∃ t, exec (.formationTimeout dt) s = .next t ∧
      t.twin.st = .forming ∧ t.twin.formAt = b.up ∧ t.twin.usable = [] ∧ t.twin.partnerKey = [] ∧
      t.val 0x2201 0x13 = wrapAdd 8 (b.val 0x2201 0x13) 1)) ∧
  (∀ (s b : State) (dt : Nat) (a : List Int), b = s.elapse dt →
    (b.twin.st ≠ .forming ∨ b.twin.partnerKey = [] ∨ b.twin.answered = false ∨ b.twin.usable = [] →
      exec (.asymmetryMeasured dt a) s = .next b) ∧
    (b.twin.st = .forming → b.twin.partnerKey ≠ [] → b.twin.answered = true → b.twin.usable ≠ [] →
      ∃ t, exec (.asymmetryMeasured dt a) s = .next t ∧ t.twin.st = .syncing ∧ t.twin.misses = 0 ∧
        t.twin.deadline = b.ns + 1000 * b.val 0x2200 7 + 10000 ∧ t.twin.usable = b.twin.usable)) ∧
  (∀ (s b : State) (dt n : Nat), b = s.elapse dt →
    n = (b.twin.usable.filter (fun i => (b.unit (portRef (120 + i))).works)).length →
    (b.twin.st ∈ [.syncing, .paired, .suspect, .linkDown, .selfFenced] →
      ∃ t l, exec (.heartbeatInterval dt) s = .next t ∧ t.out = b.out ++ l ∧ l.length = n ∧
        (∀ o ∈ l, ∃ i fr, o = .twin i fr ∧ fr.type = 1) ∧
        t.twin = { b.twin with sequence := t.twin.sequence }) ∧
    (b.twin.st ∉ [.syncing, .paired, .suspect, .linkDown, .selfFenced] → exec (.heartbeatInterval dt) s = .next b)) ∧
  (∀ (s b : State) (dt : Nat) (i : Fin 8) (f : TwinFrame), b = s.elapse dt → b.twin.st ≠ .solo →
    (b.unit (portRef (120 + i))).works = true → b.fromPartner f = true → f.type.toNat = 1 →
    (i.val ∉ b.twin.usable ∨ b.twin.st ∉ [.syncing, .paired, .suspect, .linkDown, .selfFenced] →
      exec (.heartbeat dt i f) s = .next b) ∧
    (i.val ∈ b.twin.usable → b.twin.st ∈ [.syncing, .paired, .suspect, .linkDown, .selfFenced] →
      ∃ t, exec (.heartbeat dt i f) s = .next t ∧ t.twin.misses = 0 ∧
        (b.twin.st = .suspect → b.twin.before = .paired → t.twin.st = .paired) ∧
        (b.twin.st = .suspect → b.twin.before = .syncing → t.twin.st = .syncing ∨ t.twin.st = .paired) ∧
        (b.twin.st = .linkDown → t.twin.st = .linkDown ∧ t.twin.goodSince = some (b.twin.goodSince.getD b.ns)) ∧
        (b.twin.st = .paired → t.twin.st = (if f.twinState = 5 then .linkDown else .paired)) ∧
        (b.twin.st = .syncing → f.twinState = 5 → t.twin.st = .linkDown) ∧
        (b.twin.st = .syncing → f.twinState ≠ 5 → t.twin.st = .syncing ∨ t.twin.st = .paired) ∧
        (b.twin.st = .selfFenced → t.twin.st =
          (if f.twinState.toNat ∈ [4, 5, 6, 7, 8] then .syncing else .selfFenced)))) ∧
  (∀ (s b : State) (dt : Nat), b = s.elapse dt →
    (b.twin.st ∉ [.syncing, .paired, .suspect, .linkDown] ∨ b.ns ≤ b.twin.deadline → exec (.heartbeatMiss dt) s = .next b) ∧
    (b.twin.st ∈ [.syncing, .paired, .suspect, .linkDown] → b.twin.deadline < b.ns → ∃ t, exec (.heartbeatMiss dt) s = .next t ∧
      t.twin = { b.twin with
        misses := b.twin.misses + 1, deadline := b.twin.deadline + 1000 * b.val 0x2200 7, goodSince := none } ∧
      t.val 0x2201 5 = wrapAdd 8 (b.val 0x2201 5) 1) ∧
    (b.twin.st ∉ [.syncing, .paired] ∨ b.twin.misses < b.val 0x2200 0xF → exec (.twinSuspect dt) s = .next b) ∧
    (b.twin.st ∈ [.syncing, .paired] → b.val 0x2200 0xF ≤ b.twin.misses → ∃ t, exec (.twinSuspect dt) s = .next t ∧
      t.twin.st = .suspect ∧ t.twin.before = b.twin.st ∧ t.twin.suspectAt = b.ns ∧ t.twin.probeAt = some b.ns ∧
      t.twin.asked = []) ∧
    (b.twin.st ≠ .linkDown ∨ b.twin.goodSince = none → exec (.linkDownRecovery dt) s = .next b) ∧
    (∀ g : Nat, b.twin.st = .linkDown → b.twin.goodSince = some g →
      (b.ns < g + 1000000 → exec (.linkDownRecovery dt) s = .next b) ∧
      (g + 1000000 ≤ b.ns → ∃ t, exec (.linkDownRecovery dt) s = .next t ∧ t.twin.st = .syncing ∧ t.twin.misses = 0 ∧
        t.twin.goodSince = none)) ∧
    (b.twin.st = .solo ∨ (∀ g : Nat, b.time.twinBeyond ≠ some (g, false)) → exec (.twinTimeOffset dt) s = .next b) ∧
    (∀ g : Nat, b.twin.st ≠ .solo → b.time.twinBeyond = some (g, false) →
      (b.up < g + 1000000000000 → exec (.twinTimeOffset dt) s = .next b) ∧
      (g + 1000000000000 ≤ b.up → exec (.twinTimeOffset dt) s = .next
        (({ b with time := { b.time with twinBeyond := some (g, true) } } : State).raise 0x0113 0 (b.val 0x2100 9)))))

/-- A loss confirmed or not (R331, R334 to R338, R343). Probes repeat in SUSPECT, LINK_DOWN and SELF_FENCED, and a probe of the partner is
answered over the path. A reply that shows the partner fenced, in SAFE or SHUTDOWN, or off, and the relay's word of it or of its
absence, confirm the loss: TAKING_OVER, or DEGRADED with nothing to restore. A fresh sign of life makes LINK_DOWN. 500 µs after the
first probe the witness is asked; its grant of the claim confirms the loss, its denial, and a confirm window that ends without an
outcome, make the device fence itself. Only an answer to a claim or release still open counts. A grant is released until that is
answered. Held tokens go out from the fence time on. GOODBYE on a usable port takes over at once. -/
def Obligations.TwinsConfirmALoss : Prop :=
  (∀ (s b : State) (dt : Nat), b = s.elapse dt →
    (b.twin.st ∈ [.suspect, .linkDown, .selfFenced] → exec (.probeInterval dt) s = .next b.sendProbe.twinQuery) ∧
    (b.twin.st ∉ [.suspect, .linkDown, .selfFenced] → exec (.probeInterval dt) s = .next b) ∧
    (b.val 0x2200 3 ≠ 0 → ∃ fr, (b.sendProbe).out = b.out ++ [.control (beNat (leBytes 16 (b.val 0x2200 3))) fr] ∧ fr.type = 2)) ∧
  (∀ (s b : State) (dt : Nat) (src : BitVec 128) (f : TwinFrame), b = s.elapse dt →
    ∀ k ∈ [(Instr.probe dt src f, 2), (.probeReply dt src f, 3)],
    (b.twin.st = .solo ∨ b.val 0x2200 3 = 0 ∨ src.toNat ≠ beNat (leBytes 16 (b.val 0x2200 3)) → exec k.1 s = .next b) ∧
    (b.twin.st ≠ .solo → b.val 0x2200 3 ≠ 0 → src.toNat = beNat (leBytes 16 (b.val 0x2200 3)) →
      (b.fromPartner f = false → exec k.1 s = .next (b.bump 0x2201 0x14 1)) ∧
      (b.fromPartner f = true → f.type.toNat ≠ k.2 → exec k.1 s = .next b) ∧
      (b.fromPartner f = true → f.type.toNat = 2 → ∃ t fr, exec (.probe dt src f) s = .next t ∧
        t.out = b.out ++ [.control src.toNat fr] ∧ fr.type = 3 ∧ t.twin = { b.twin with sequence := t.twin.sequence }) ∧
      (b.fromPartner f = true → f.type.toNat = 3 →
        (b.twin.st ≠ .selfFenced → exec (.probeReply dt src f) s = .next (b.told_ f.twinState.toNat f.runState.toNat true)) ∧
        (b.twin.st = .selfFenced → ∃ t, exec (.probeReply dt src f) s = .next t ∧
          t.twin.st = (if f.twinState.toNat ∈ [4, 5, 6, 7, 8] then .syncing else .selfFenced))))) ∧
  (∀ (s : State) (twin run : Nat) (fresh : Bool),
    (s.twin.st = .suspect ∨ s.twin.st = .linkDown → twin = 8 ∨ run ∈ [7, 8, 0, 0xFF] →
      (s.told_ twin run fresh).twin.st ∈ [.takingOver, .degraded] ∧ (s.told_ twin run fresh).twin.takeoverAt = s.ns) ∧
    (s.twin.st = .suspect → twin ≠ 8 → run ∉ [7, 8, 0, 0xFF] →
      (fresh = true → (s.told_ twin run fresh).twin.st = .linkDown ∧ (s.told_ twin run fresh).twin.goodSince = none) ∧
      (fresh = false → s.told_ twin run fresh = s)) ∧
    (s.twin.st = .linkDown → twin ≠ 8 → run ∉ [7, 8, 0, 0xFF] → s.told_ twin run fresh = s) ∧
    (s.twin.st ≠ .suspect → s.twin.st ≠ .linkDown → s.told_ twin run fresh = s)) ∧
  (∀ (s b m : State) (dt v : Nat) (road : Road) (value : BitVec 32), b = s.elapse dt → v = value.toNat →
    b.admits road 0x2202 3 (leBytes 4 v) → m = b.setVal 0x2202 3 v →
    (road ≠ .coe ∨ b.flag 0x2200 6 = false → exec (.partnerStatus dt road value) s =
      .next (m.reply (viaOf road 0x2202 3) 0x2202 3 0)) ∧
    (road = .coe → b.flag 0x2200 6 = true → exec (.partnerStatus dt road value) s =
      .next ((({ m with twin := { m.twin with relayCounter := some (v / 65536) } } : State).told_ (v / 256 % 256) (v % 256)
        (b.twin.relayCounter.any (fun c => c != v / 65536))).reply (viaOf road 0x2202 3) 0x2202 3 0))) ∧
  (∀ (s b : State) (dt : Nat), b = s.elapse dt →
    (b.twin.st ≠ .suspect ∨ b.val 0x2200 4 = 0 ∨ b.twin.probeAt = none → exec (.witnessClaim dt) s = .next b) ∧
    (∀ g : Nat, b.twin.st = .suspect → b.val 0x2200 4 ≠ 0 → b.twin.probeAt = some g →
      (b.ns < g + 500000 → exec (.witnessClaim dt) s = .next b) ∧
      (g + 500000 ≤ b.ns → ∃ t fr, exec (.witnessClaim dt) s = .next t ∧
        t.out = b.out ++ [.control (beNat (leBytes 16 (b.val 0x2200 4))) fr] ∧ fr.type = 8 ∧
        fr.pairId = BitVec.ofNat 64 b.pairId ∧ t.twin.asked = b.twin.asked ++ [(b.twin.sequence, true)])) ∧
    (b.twin.releasing = false → exec (.witnessRelease dt) s = .next b) ∧
    (b.twin.releasing = true → ∃ t fr, exec (.witnessRelease dt) s = .next t ∧
      t.out = b.out ++ [.control (beNat (leBytes 16 (b.val 0x2200 4))) fr] ∧ fr.type = 11 ∧
      t.twin.asked = b.twin.asked ++ [(b.twin.sequence, false)])) ∧
  (∀ (s b : State) (dt : Nat) (src : BitVec 128) (f : TwinFrame), b = s.elapse dt →
    ∀ k ∈ [(Instr.witnessGrant dt src f, 9), (.witnessDeny dt src f, 10)],
    (b.val 0x2200 4 = 0 ∨ src.toNat ≠ beNat (leBytes 16 (b.val 0x2200 4)) → exec k.1 s = .next b) ∧
    (b.val 0x2200 4 ≠ 0 → src.toNat = beNat (leBytes 16 (b.val 0x2200 4)) →
      ((∀ a ∈ b.twin.asked, a.1 ≠ f.sequence.toNat) ∨ frameValid f = false ∨ f.keyPrefix.toNat ≠ ownKey ∨ f.pairId.toNat ≠ b.pairId ∨
          (f.type.toNat ≠ 9 ∧ f.type.toNat ≠ 10) → exec k.1 s = .next (b.bump 0x2201 0x14 1)) ∧
      (∀ c : Bool, b.twin.asked.find? (fun a => a.1 = f.sequence.toNat) = some (f.sequence.toNat, c) → frameValid f = true →
        f.keyPrefix.toNat = ownKey → f.pairId.toNat = b.pairId → f.type.toNat = k.2 →
        (k.2 = 9 → c = true → ∃ t, exec k.1 s = .next t ∧ t.twin.grant = true ∧
          (b.twin.st = .suspect → t.twin.st ∈ [.takingOver, .degraded] ∧ t.twin.takeoverAt = b.ns) ∧
          (b.twin.st ≠ .suspect → t.twin.st = b.twin.st)) ∧
        (k.2 = 9 → c = false → ∃ t, exec k.1 s = .next t ∧ t.twin.grant = false ∧ t.twin.releasing = false ∧
          t.twin.st = b.twin.st) ∧
        (k.2 = 10 → ∃ t, exec k.1 s = .next t ∧ t.val 0x2201 0x15 = wrapAdd 8 (b.val 0x2201 0x15) 1 ∧
          t.twin.st = (if b.twin.st = .suspect then .selfFenced else b.twin.st))))) ∧
  (∀ (s b : State) (dt : Nat), b = s.elapse dt →
    (b.twin.st ≠ .suspect ∨ b.ns < b.twin.suspectAt + 1000 * b.val 0x2200 8 → exec (.confirmWindow dt) s = .next b) ∧
    (b.twin.st = .suspect → b.twin.suspectAt + 1000 * b.val 0x2200 8 ≤ b.ns → ∃ t, exec (.confirmWindow dt) s = .next t ∧
      t.twin.st = .selfFenced ∧ (b.run.st = .serving → t.run.st = .safe)) ∧
    (b.ns < b.twin.suspectAt + 1000 * (b.val 0x2200 8 + b.val 0x2200 9) → exec (.fenceGuard dt) s = .next b) ∧
    (b.twin.suspectAt + 1000 * (b.val 0x2200 8 + b.val 0x2200 9) ≤ b.ns →
      ∃ t, exec (.fenceGuard dt) s = .next t ∧ t.twin.fenceHeld = [] ∧ t = b.releaseFence)) ∧
  (∀ (s b : State) (dt : Nat) (i : Fin 8) (f : TwinFrame), b = s.elapse dt → b.twin.st ≠ .solo →
    (b.unit (portRef (120 + i))).works = true → b.fromPartner f = true → f.type.toNat = 4 →
    (i.val ∉ b.twin.usable ∨ b.twin.st ∉ [.paired, .syncing, .linkDown] → exec (.goodbye dt i f) s = .next b) ∧
    (i.val ∈ b.twin.usable → b.twin.st ∈ [.paired, .syncing, .linkDown] → ∃ t, exec (.goodbye dt i f) s = .next t ∧
      t.twin.st ∈ [.takingOver, .degraded] ∧ t.twin.takeoverAt = b.ns))

/-- Mirrors, the log, handover and the end of a pair (R339 to R343, R345, R347, R349). In SYNCING and PAIRED alone: a log entry of the
partner is kept with its stream's mirror, or ends it, and is acknowledged; an acknowledgement up to a sequence that was issued
delivers what waited for it; a checkpoint that finds its job and frames is stored whole and acknowledged, another is refused,
counted and raised; an acknowledged checkpoint advances CHECKPOINT_SEQ and CHECKPOINT_POSITION; a cross-check record is compared
with every bank it matches, or kept, for 10 s. The backlog is adopted as contexts come free once the device has taken over. HANDOVER is
accepted in PAIRED with none under way. UNPAIR, and the partner's, end the pair in every twin state but SOLO and SELF_FENCED. -/
def Obligations.MirrorsHandoverAndUnpair : Prop :=
  (∀ (s b : State) (dt seq : Nat) (e : LogEntry) (k : Checkpoint) (n : BitVec 16) (r : CrossCheck), b = s.elapse dt →
    b.twin.st ≠ .syncing → b.twin.st ≠ .paired →
    ∀ c ∈ [Instr.tokenLogEntry dt e, .tokenLogAck dt seq, .checkpointReceived dt k, .checkpointAck dt n, .crossCheckRecord dt r],
    exec c s = .next b) ∧
  (∀ (s b : State) (dt : Nat) (e : LogEntry), b = s.elapse dt → b.twin.st = .syncing ∨ b.twin.st = .paired →
    ∃ t, exec (.tokenLogEntry dt e) s = .next t ∧ t.out = b.out ++ [.logAck e.seq] ∧
      t.twin.partnerAcked = max b.twin.partnerAcked e.seq ∧
      (e.item = .closed → ∀ m ∈ t.twin.mirrors, m.ckpt.stream ≠ e.stream) ∧
      (e.item ≠ .closed → (∃ m ∈ t.twin.mirrors, m.ckpt.stream = e.stream) ∧
        ∀ m ∈ t.twin.mirrors, m.ckpt.stream = e.stream → e ∈ m.log)) ∧
  (∀ (s b : State) (dt seq : Nat), b = s.elapse dt → b.twin.st = .syncing ∨ b.twin.st = .paired →
    (b.twin.logSeq < seq → exec (.tokenLogAck dt seq) s = .next b) ∧
    (seq ≤ b.twin.logSeq → ∃ t, exec (.tokenLogAck dt seq) s = .next t ∧ t.twin.logAcked = max b.twin.logAcked seq ∧
      ∀ h, h ∈ t.twin.held ↔ h ∈ b.twin.held ∧ seq < h.log.seq)) ∧
  (∀ (s b : State) (dt : Nat) (k : Checkpoint), b = s.elapse dt → b.twin.st = .syncing ∨ b.twin.st = .paired →
    (b.storeCheckpoint k = none → exec (.checkpointReceived dt k) s = .next
      ((((b.bump 0x2201 0xC 1).raise 0x0505 0 k.stream).emit (.checkpointAck k.stream false)).settlePair)) ∧
    (∀ m : State, b.storeCheckpoint k = some m →
      exec (.checkpointReceived dt k) s = .next (m.emit (.checkpointAck k.stream true)).settlePair ∧
      (∃ x ∈ m.twin.mirrors, x.ckpt.stream = k.stream) ∧
      (∀ x ∈ m.twin.mirrors, x.ckpt.stream = k.stream → x.ckpt = { k with pages := [] } ∧ x.have_ = true) ∧
      ∃ j : Nat, b.jobWithCode k.jobCode.toNat = some j ∧ m.mirrorFrames j * 1000 ≤ m.val 0x2200 0xC * m.jobFrames j) ∧
    (b.jobWithCode k.jobCode.toNat = none → b.storeCheckpoint k = none)) ∧
  (∀ (s b : State) (dt : Nat) (n : BitVec 16), b = s.elapse dt → b.twin.st = .syncing ∨ b.twin.st = .paired →
    ((b.stream n.toNat).ckptWait = none → exec (.checkpointAck dt n) s = .next b) ∧
    (∀ p : Nat, (b.stream n.toNat).ckptWait = some p → exec (.checkpointAck dt n) s = .next
      (b.modStream n.toNat (fun c => { c with ckptSeq := c.ckptSeq + 1, ckptPosition := p, ckptWait := none, ckptAcked := true
                                              bare := false })).settlePair.advance)) ∧
  (∀ (s b : State) (dt : Nat) (r : CrossCheck), b = s.elapse dt → b.twin.st = .syncing ∨ b.twin.st = .paired →
    (b.crossBanks r = [] → exec (.crossCheckRecord dt r) s =
      .next { b with twin := { b.twin with records := b.twin.records ++ [(r, b.ns)] } }) ∧
    (b.crossBanks r ≠ [] → exec (.crossCheckRecord dt r) s =
      .next ((b.crossBanks r).foldl (fun s x => s.compareSums x.1 x.2.1 x.2.2 r) b)) ∧
    ∀ c e p : Nat, (c, e, p) ∈ b.crossBanks r ↔ c < 16 ∧ e < 34 ∧ p < 2 ∧ ((b.eng c e).plane p).matchesRecord r = true) ∧
  (∀ (s b : State) (dt : Nat), b = s.elapse dt →
    (∃ t, exec (.crossCheckTimeout dt) s = .next t ∧
      ∀ x, x ∈ t.twin.records ↔ x ∈ b.twin.records ∧ b.ns ≤ x.2 + 10000000000) ∧
    (b.twin.st ≠ .takingOver → b.twin.st ≠ .degraded → exec (.adoptionFromBacklog dt) s = .next b) ∧
    (b.twin.st = .takingOver ∨ b.twin.st = .degraded → ∃ t, exec (.adoptionFromBacklog dt) s = .next t ∧
      t = (b.adoptAll b.ns).settleTakeover ∧ t.twin.st ∈ [.takingOver, .degraded] ∧
      (b.freeContext = none → t.streams = b.streams))) ∧
  (∀ (s b : State) (dt : Nat) (road : Road) (via : Via), b = s.elapse dt → via = viaOf road 0x2202 1 →
    (b.admits road 0x2202 1 [2] →
      (b.twin.st = .paired → b.twin.handover = 0 →
        exec (.handover dt road) s = .next ((b.beginHandover false).onHandover.reply via 0x2202 1 0)) ∧
      (b.twin.st ≠ .paired ∨ b.twin.handover ≠ 0 → exec (.handover dt road) s = .next (b.reply via 0x2202 1 0x08000022))) ∧
    (b.admits road 0x2202 1 [1] →
      (b.twin.st ≠ .solo → b.twin.st ≠ .selfFenced → exec (.unpair dt road) s = .next (b.unpairNow.reply via 0x2202 1 0)) ∧
      (b.twin.st = .solo ∨ b.twin.st = .selfFenced →
        exec (.unpair dt road) s = .next (b.reply via 0x2202 1 0x08000022)))) ∧
  (∀ (s b : State) (dt : Nat) (i : Fin 8) (f : TwinFrame), b = s.elapse dt → b.twin.st ≠ .solo →
    (b.unit (portRef (120 + i))).works = true → b.fromPartner f = true → f.type.toNat = 5 →
    (b.twin.st = .selfFenced → exec (.unpairReceived dt i f) s = .next b) ∧
    (b.twin.st ≠ .selfFenced → exec (.unpairReceived dt i f) s = .next b.unpairNow))

-- rings and host ports (R355 to R372)

/-- Rings (R360, R362, R363, R365, R366). Only a port that takes requests has its ring registers, doorbells and mask bits written. ENABLE of
a stopped ring of a valid size clears its entries, sets HEAD and TAIL to 0 and starts it, PHASE 1 for a completion ring; ENABLE 0 stops it and
discards what was not consumed. SIZE_LOG2 takes 4 to 12 while the ring is stopped; any other value, and one that differs while it runs,
is ignored and counted. A doorbell of a running ring within SIZE becomes TAIL, or HEAD of a completion ring within its span; any
other is ignored, counted and raised. Completions wait in order and are written once there is space: the entry with its PHASE at
TAIL, then the vector. A message goes out when it is due, its vector unmasked; a masked vector is pending, and signals when it is
unmasked. -/
def Obligations.RingsStartServeAndPost : Prop :=
  (∀ (s b : State) (dt : Nat) (p : Fin 2) (r : Fin 16) (q : Fin 8) (w : BitVec 32) (es : List (List Byte)) (v : BitVec 11),
    b = s.elapse dt → b.busUp p = false →
    ∀ c ∈ [Instr.ringEnable dt p r w, .ringDisable dt p r w, .ringConfigure dt p r w, .requestDoorbell dt p q es w,
      .completionDoorbell dt p q w, .completionPost dt p q, .msixMessage dt p v, .msixUnmask dt p v], exec c s = .next b) ∧
  (∀ (s b : State) (dt n : Nat) (p : Fin 2) (r : Fin 16) (w : BitVec 32), b = s.elapse dt → n = w.toNat % 16 → b.busUp p = true →
    ((b.ring p r).enabled = true ∨ bitOf w.toNat 4 = false → exec (.ringEnable dt p r w) s = .next b) ∧
    ((b.ring p r).enabled = false ∨ bitOf w.toNat 4 = true → exec (.ringDisable dt p r w) s = .next b) ∧
    ((b.ring p r).enabled ≠ bitOf w.toNat 4 → exec (.ringConfigure dt p r w) s = .next b) ∧
    ((b.ring p r).enabled = false → bitOf w.toNat 4 = true → 4 ≤ n → n ≤ 12 → (b.ring p r).sizeLog2 ≤ 12 →
      ∃ t, exec (.ringEnable dt p r w) s = .next t ∧ (t.ring p r).enabled = true ∧ (t.ring p r).sizeLog2 = n ∧
        (t.ring p r).head = 0 ∧ (t.ring p r).tail = 0 ∧ (t.ring p r).phase = decide (8 ≤ r.val) ∧
        (8 ≤ r.val → (t.ring p r).vector = bitsOf w.toNat 15 5 ∧ (t.ring p r).irq = bitOf w.toNat 16) ∧
        (∀ x : Nat, ringAt p r 0 ≤ x → x < ringAt p r (2 ^ n) → t.mem.get x = 0) ∧
        (∀ x : Nat, x < ringAt p r 0 ∨ ringAt p r 4096 ≤ x → t.mem.get x = b.mem.get x) ∧
        (∀ k : Nat, k ≠ r → t.ring p k = b.ring p k)) ∧
    ((b.ring p r).enabled = false → bitOf w.toNat 4 = true → n < 4 ∨ 12 < n → ∃ t, exec (.ringEnable dt p r w) s = .next t ∧
      (t.ring p r).enabled = decide (4 ≤ (b.ring p r).sizeLog2) ∧ (t.ring p r).sizeLog2 = (b.ring p r).sizeLog2 ∧
      t.val (0x2500 + p) 0xB = wrapAdd 8 (b.val (0x2500 + p) 0xB) 1) ∧
    ((b.ring p r).enabled = true → bitOf w.toNat 4 = false → ∃ t, exec (.ringDisable dt p r w) s = .next t ∧
      (t.ring p r).enabled = false ∧ (t.ring p r).head = (b.ring p r).tail ∧ (t.ring p r).tail = (b.ring p r).tail ∧
      (t.ring p r).sizeLog2 = (b.ring p r).sizeLog2 ∧ t.mem = b.mem ∧ ∀ k : Nat, k ≠ r → t.ring p k = b.ring p k) ∧
    ((b.ring p r).enabled = bitOf w.toNat 4 → ∃ t, exec (.ringConfigure dt p r w) s = .next t ∧
      (t.ring p r).enabled = (b.ring p r).enabled ∧ (t.ring p r).head = (b.ring p r).head ∧
      (t.ring p r).sizeLog2 = (if (b.ring p r).enabled = false ∧ 4 ≤ n ∧ n ≤ 12 then n else (b.ring p r).sizeLog2) ∧
      (8 ≤ r.val → (t.ring p r).vector = bitsOf w.toNat 15 5 ∧ (t.ring p r).irq = bitOf w.toNat 16) ∧
      (n < 4 ∨ 12 < n ∨ ((b.ring p r).enabled = true ∧ n ≠ (b.ring p r).sizeLog2) →
        t.val (0x2500 + p) 0xB = wrapAdd 8 (b.val (0x2500 + p) 0xB) 1))) ∧
  (∀ (s b : State) (dt : Nat) (p : Fin 2) (r : Fin 8) (es : List (List Byte)) (w : BitVec 32), b = s.elapse dt → b.busUp p = true →
    ((b.ring p r).enabled = false ∨ 4096 ≤ w.toNat ∨ (b.ring p r).size ≤ w.toNat →
      ∃ t, exec (.requestDoorbell dt p r es w) s = .next t ∧ t.ring p r = b.ring p r ∧
        t.val (0x2500 + p) 0xB = wrapAdd 8 (b.val (0x2500 + p) 0xB) 1) ∧
    ((b.ring p r).enabled = true → w.toNat < 4096 → w.toNat < (b.ring p r).size → 4 ≤ (b.ring p r).sizeLog2 →
      es.length ≤ (b.ring p r).size → ∃ t, exec (.requestDoorbell dt p r es w) s = .next t ∧
        t.ring p r = { b.ring p r with tail := w.toNat } ∧
        (∀ (i : Nat) (e : List Byte), es[i]? = some e →
          t.mem.read (ringAt p r (((b.ring p r).tail + i) % (b.ring p r).size)) 64 = padTo 64 0 e) ∧
        (es = [] → t.mem = b.mem))) ∧
  (∀ (s b : State) (dt k n : Nat) (p : Fin 2) (r : Fin 8) (w : BitVec 32) (g : Ring), b = s.elapse dt → b.busUp p = true →
    k = r + 8 → g = b.ring p k → n = w.toNat →
    (g.enabled = false ∨ 4096 ≤ n ∨ g.size ≤ n ∨ (g.tail + g.size - g.head) % g.size < (n + g.size - g.head) % g.size →
      ∃ t, exec (.completionDoorbell dt p r w) s = .next t ∧ t.ring p k = g ∧
        t.val (0x2500 + p) 0xB = wrapAdd 8 (b.val (0x2500 + p) 0xB) 1) ∧
    (g.enabled = true → n < 4096 → n < g.size → (n + g.size - g.head) % g.size ≤ (g.tail + g.size - g.head) % g.size →
      ∃ t, exec (.completionDoorbell dt p r w) s = .next t ∧ t.ring p k = { g with head := n } ∧ t.mem = b.mem)) ∧
  (∀ (s b : State) (dt k : Nat) (p : Fin 2) (r : Fin 8) (g : Ring), b = s.elapse dt → k = r + 8 → g = b.ring p k →
    (g.waiting = [] ∨ g.room = false → exec (.completionPost dt p r) s = .next b) ∧
    (∀ (e : List Byte) (rest : List (List Byte)), g.waiting = e :: rest → g.room = true → b.busUp p = true →
      ∃ t, exec (.completionPost dt p r) s = .next t ∧ (t.ring p k).waiting = rest ∧
        (t.ring p k).tail = (g.tail + 1) % g.size ∧ (t.ring p k).phase = (if (g.tail + 1) % g.size = 0 then !g.phase else g.phase) ∧
        t.mem = b.mem.write (ringAt p k g.tail) (e.set 3 (if g.phase then 1 else 0)))) ∧
  (∀ (s : State) (p r : Nat) (e : List Byte),
    ((s.ring p r).waiting ≠ [] ∨ (s.ring p r).room = false → s.post p r e =
      s.modRing p r (fun g => { g with waiting := g.waiting ++ [e] })) ∧
    ((s.ring p r).waiting = [] → (s.ring p r).room = true → s.post p r e = s.writeCompletion p r e)) ∧
  (∀ (s b : State) (dt n : Nat) (p : Fin 2) (v : BitVec 11), b = s.elapse dt → n = v.toNat → b.busUp p = true →
    (tfind (b.host p).msixDue n = none → exec (.msixMessage dt p v) s = .next b) ∧
    (∀ g : Nat, tfind (b.host p).msixDue n = some g →
      (b.ns < g → exec (.msixMessage dt p v) s = .next b) ∧
      (g ≤ b.ns → n ∈ (b.host p).unmasked → ∃ t, exec (.msixMessage dt p v) s = .next t ∧
        t.out = b.out ++ [.msix p n (tget (b.host p).msixTable n % 2 ^ 64) (tget (b.host p).msixTable n / 2 ^ 64)] ∧
        tfind (t.host p).msixDue n = none ∧ (t.host p).unmasked = (b.host p).unmasked) ∧
      (g ≤ b.ns → n ∉ (b.host p).unmasked → ∃ t, exec (.msixMessage dt p v) s = .next t ∧ t.out = b.out ∧
        n ∈ (t.host p).msixPending ∧ tfind (t.host p).msixDue n = none)) ∧
    (n ∈ (b.host p).unmasked → exec (.msixUnmask dt p v) s = .next (b.dropLow p)) ∧
    (n ∉ (b.host p).unmasked → ∃ t, exec (.msixUnmask dt p v) s = .next t ∧ n ∈ (t.host p).unmasked ∧
      n ∉ (t.host p).msixPending ∧ (n ∈ (b.host p).msixPending → (tfind (t.host p).msixDue n).isSome = true)))

/-- Host ports (R366, R367, R368, R369). PERST#, FLR and D3hot to D0 put the port back to STARTING: registers, tables and shadows at their reset
values, its rings stopped, its MOVEs ended with HOST_ERROR, and Resets counts it. A lost link does the same, FENCED, counted and raised. With
link and configuration space the port is READY, and SERVING with Bus Master Enable and a running ring. The HBM aperture reads and
writes HBM from its base on as the port's master: what the access tables refuse reads as ones and writes nothing. A size and a base that do
not go together are refused, and the earlier ones stand. -/
def Obligations.HostPortsResetAndAnswer : Prop :=
  (∀ (s b : State) (dt : Nat) (p : Fin 2), b = s.elapse dt →
    ((b.host p).perst = true → exec (.perst dt p) s = .next b) ∧
    ((b.host p).perst = false → exec (.perstDeassertion dt p) s = .next b) ∧
    ((b.host p).perst = true → b.run.st ≠ .off → ∃ t, exec (.perstDeassertion dt p) s = .next t ∧
      (t.host p).perst = false ∧ t.unit (hostRef p) = .starting) ∧
    (b.busUp p = false → exec (.flr dt p) s = .next b ∧ exec (.d3hotToD0 dt p) s = .next b ∧
      exec (.busMasterEnable dt p) s = .next b) ∧
    ((b.host p).linkUp = false ∨ b.run.st = .off → exec (.hostLinkDown dt p) s = .next b) ∧
    (∀ k ∈ [(Instr.perst dt p, UnitSt.starting), (.flr dt p, .starting), (.d3hotToD0 dt p, .starting),
        (.hostLinkDown dt p, .fenced)], b.run.st ≠ .off →
      (k.1 = .perst dt p → (b.host p).perst = false) → (k.1 = .flr dt p ∨ k.1 = .d3hotToD0 dt p → b.busUp p = true) →
      (k.1 = .hostLinkDown dt p → (b.host p).linkUp = true) →
      ∃ t, exec k.1 s = .next t ∧ t.unit (hostRef p) = k.2 ∧
        (∀ r : Nat, (t.ring p r).enabled = false ∧ (t.ring p r).head = 0 ∧ (t.ring p r).tail = 0) ∧
        (t.host p).busMaster = false ∧ (t.host p).configured = false ∧ (t.host p).bar4Log2 = 9 ∧ (t.host p).unmasked = [] ∧
        (t.host p).writeShadow = none ∧ (t.host p).readShadow = none ∧
        (k.1 = .perst dt p ∨ k.1 = .hostLinkDown dt p → (t.host p).linkUp = false) ∧
        (k.1 = .flr dt p ∨ k.1 = .d3hotToD0 dt p → (t.host p).linkUp = (b.host p).linkUp) ∧
        (k.2 = .starting → t.val (0x2500 + p) 0xC = wrapAdd 8 (b.val (0x2500 + p) 0xC) 1) ∧
        (k.2 = .fenced → t.val (0x2500 + p) 0xD = wrapAdd 8 (b.val (0x2500 + p) 0xD) 1) ∧
        t.mem = b.mem ∧ ∀ r : Nat, r ≠ hostRef p → t.unit r = b.unit r)) ∧
  (∀ (s b : State) (dt : Nat) (p : Fin 2) (speed width : Fin 5), b = s.elapse dt →
    ((b.host p).perst = true ∨ b.run.st = .off ∨ b.security.running = false →
      exec (.hostLinkUp dt p speed width) s = .next b) ∧
    ((b.host p).perst = false → b.run.st ≠ .off → b.security.running = true →
      ∃ t, exec (.hostLinkUp dt p speed width) s = .next t ∧ (t.host p).linkUp = true ∧ (t.host p).configured = true ∧
        (t.host p).speed = speed + 1 ∧ (t.host p).width = 2 ^ width.val ∧
        t.unit (hostRef p) = (if (b.unit (hostRef p)).works then b.unit (hostRef p) else .ready)) ∧
    (b.busUp p = true → ∃ t, exec (.busMasterEnable dt p) s = .next t ∧ (t.host p).busMaster = true ∧
      t.unit (hostRef p) = (if (b.host p).anyRing then .serving else .ready))) ∧
  (∀ (s b : State) (dt offset len a : Nat) (p : Fin 2) (data : List Byte), b = s.elapse dt → a = b.val (0x2500 + p) 6 + offset →
    len = data.length →
    (b.busUp p = false ∨ 2 ^ (30 + (b.host p).bar4Log2) < offset + len →
      exec (.bar4Read dt p offset len) s = .next b ∧ exec (.bar4Write dt p offset data) s = .next b) ∧
    (b.busUp p = true → offset + len ≤ 2 ^ (30 + (b.host p).bar4Log2) →
      (rangeSpan a len = .hbm → b.checkMem (2 + p) a len 0 = .ok →
        exec (.bar4Read dt p offset len) s = .next (b.emit (.busRead p (b.mem.read a len)))) ∧
      (rangeSpan a len ≠ .hbm → exec (.bar4Read dt p offset len) s =
        .next ((b.deny (some (2 + p)) a 1).emit (.busRead p (List.replicate len 0xFF)))) ∧
      (∀ x lacking : Nat, rangeSpan a len = .hbm → b.checkMem (2 + p) a len 0 = .denied x lacking →
        exec (.bar4Read dt p offset len) s =
          .next ((b.deny (some (2 + p)) x lacking).emit (.busRead p (List.replicate len 0xFF)))) ∧
      (rangeSpan a len = .hbm → b.checkMem (2 + p) a len 1 = .ok →
        exec (.bar4Write dt p offset data) s = .next { b with mem := b.mem.write a data }) ∧
      (rangeSpan a len ≠ .hbm → exec (.bar4Write dt p offset data) s = .next (b.deny (some (2 + p)) a 2)) ∧
      (∀ x lacking : Nat, rangeSpan a len = .hbm → b.checkMem (2 + p) a len 1 = .denied x lacking →
        exec (.bar4Write dt p offset data) s = .next (b.deny (some (2 + p)) x lacking)))) ∧
  (∀ (s b : State) (dt : Nat) (p : Fin 2) (n : Fin 10), b = s.elapse dt →
    (b.busUp p = true → b.val (0x2500 + p) 6 % 2 ^ (30 + n.val) = 0 → b.val (0x2500 + p) 6 + 2 ^ (30 + n.val) ≤ 2 ^ 39 →
      ∃ t, exec (.bar4Resize dt p n) s = .next t ∧ (t.host p).bar4Log2 = n ∧ t.od = b.od) ∧
    (b.busUp p = false ∨ b.val (0x2500 + p) 6 % 2 ^ (30 + n.val) ≠ 0 ∨ 2 ^ 39 < b.val (0x2500 + p) 6 + 2 ^ (30 + n.val) →
      exec (.bar4Resize dt p n) s = .next b)) ∧
  (∀ (s b : State) (dt k : Nat) (road : Road) (p : Fin 2) (base : BitVec 64) (via : Via), b = s.elapse dt →
    via = viaOf road (0x2500 + p) 6 → k = (b.host p).bar4Log2 → b.admits road (0x2500 + p) 6 (leBytes 8 base.toNat) →
    (base.toNat % 2 ^ (30 + k) = 0 → base.toNat + 2 ^ (30 + k) ≤ 2 ^ 39 → exec (.hbmApertureBaseWrite dt road p base) s =
      .next ((b.setVal (0x2500 + p) 6 base.toNat).reply via (0x2500 + p) 6 0)) ∧
    (base.toNat % 2 ^ (30 + k) ≠ 0 ∨ 2 ^ 39 < base.toNat + 2 ^ (30 + k) → exec (.hbmApertureBaseWrite dt road p base) s =
      .next (b.reply via (0x2500 + p) 6 0x06090030)))

-- the dictionary's roads (R370, R373, R379 to R390)

/-- Reads and writes of entries (R370, R373, R380, R381, R382, R387, R388, R389, R390). A write of an entry over CoE or a host's slot is checked,
refused with its abort code, or acted on; a plain entry then holds the value. A read answers the entry's bytes, and an rc entry
is 0 after it. A segmented transfer goes on with an alternating toggle, aborts with 0x0503_0000 on another and with 0x0504_0000 after
1 s idle. A low-half read of a 64-bit value captures its high half, which the high-half read returns; a low-half write is held until the
matching high half writes both. An access block answers LENGTH and DATA, or ERROR and ABORT. -/
def Obligations.DictionaryRoadsReadAndWrite : Prop :=
  (∀ (s : State) (m : Nat) (coe : Bool) (d : List Byte), ∀ e ∈ [(0x2300, 0x14), (0x2300, 0xE), (0x2500, 8), (0x4003, 6), (0x4010, 6)],
    s.writeAct m coe e.1 e.2 d = (0, s.setVal e.1 e.2 (leNat d))) ∧
  (∀ (s b : State) (dt i k : Nat) (index : BitVec 16) (sub : BitVec 8) (d : List Byte), b = s.elapse dt → i = index.toNat →
    k = sub.toNat → commObject i = false →
    (b.hears .coe = false → exec (.entryWrite dt .coe index sub d) s = .next b ∧ exec (.rcEntryRead dt .coe index sub) s = .next b) ∧
    (b.hears .coe = true →
      ((b.writeGate .coe i k d).1 ≠ 0 → exec (.entryWrite dt .coe index sub d) s =
        .next ((b.writeGate .coe i k d).2.emit (.sdoAbort (b.writeGate .coe i k d).1))) ∧
      ((b.writeGate .coe i k d).1 = 0 → exec (.entryWrite dt .coe index sub d) s =
        .next ((b.writeAct 1 true i k d).2.reply .coe i k (b.writeAct 1 true i k d).1)) ∧
      ((b.readGate .coe i k).1 ≠ 0 → exec (.rcEntryRead dt .coe index sub) s =
        .next ((b.readGate .coe i k).2.emit (.sdoAbort (b.readGate .coe i k).1))) ∧
      ((b.readGate .coe i k).1 = 0 → (b.readBytes 1 i k).length ≤ 1008 → ∃ t, exec (.rcEntryRead dt .coe index sub) s = .next t ∧
        t.out = b.out ++ [.sdo i k (b.readBytes 1 i k)] ∧
        (i ≠ 0x7003 → (odRow i k).any (fun r => r.acc = 4) = true → t.val i k = 0) ∧
        (i ≠ 0x7003 → (odRow i k).any (fun r => r.acc = 4) = false → t.od = b.od)))) ∧
  (∀ (s b : State) (dt i k : Nat) (p : Fin 2) (index : BitVec 16) (sub : BitVec 8) (d : List Byte), b = s.elapse dt →
    i = index.toNat → k = sub.toNat → viaOf (.host p) i k = .direct p →
    (b.hears (.direct p) = false → exec (.entryWrite dt (.host p) index sub d) s = .next b ∧
      exec (.rcEntryRead dt (.host p) index sub) s = .next b) ∧
    (b.hears (.direct p) = true → (b.host p).writeShadow = none →
      ((b.writeGate (.direct p) i k d).1 ≠ 0 → exec (.entryWrite dt (.host p) index sub d) s =
        .next ((b.writeGate (.direct p) i k d).2.refuseDirect p i k (b.writeGate (.direct p) i k d).1)) ∧
      ((b.writeGate (.direct p) i k d).1 = 0 → exec (.entryWrite dt (.host p) index sub d) s =
        .next ((b.writeAct (2 + p) false i k d).2.reply (.direct p) i k (b.writeAct (2 + p) false i k d).1)) ∧
      exec (.rcEntryRead dt (.host p) index sub) s =
        .next ((b.slotRead p i k true).1.emit (.busRead p (b.slotRead p i k true).2)))) ∧
  (∀ (s b : State) (dt : Nat) (toggle last : Bool) (d : List Byte) (x : Sdo), b = s.elapse dt →
    (b.sdo = none → exec (.sdoSegment dt none toggle last d) s = .next b ∧ exec (.sdoSegmentTimeout dt) s = .next b) ∧
    (b.sdo = some x →
      (b.up ≤ x.at_ + 1000000000000 → exec (.sdoSegmentTimeout dt) s = .next b) ∧
      (x.at_ + 1000000000000 < b.up → exec (.sdoSegmentTimeout dt) s =
        .next (({ b with sdo := none } : State).emit (.sdoAbort 0x05040000))) ∧
      (b.hears .coe = false → exec (.sdoSegment dt none toggle last d) s = .next b) ∧
      (b.hears .coe = true → toggle ≠ x.toggle → exec (.sdoSegment dt none toggle last d) s =
        .next (({ b with sdo := none } : State).emit (.sdoAbort 0x05030000))) ∧
      (b.hears .coe = true → toggle = x.toggle →
        (x.write = true → last = true → exec (.sdoSegment dt none toggle last d) s = .next (b.sdoFinish x (x.data ++ d))) ∧
        (x.write = true → last = false → ∃ t, exec (.sdoSegment dt none toggle last d) s = .next t ∧
          t.sdo = some { x with toggle := !x.toggle, data := x.data ++ d, at_ := b.up } ∧ t.od = b.od) ∧
        (x.write = false → ∃ t, exec (.sdoSegment dt none toggle last d) s = .next t ∧
          t.out = b.out ++ [.sdo x.index x.sub (x.data.take 1015)] ∧
          (x.data.length ≤ 1015 → t.sdo = none) ∧
          (1015 < x.data.length →
            t.sdo = some { x with toggle := !x.toggle, data := x.data.drop 1015, at_ := b.up }))))) ∧
  (∀ (s b : State) (dt : Nat) (r : SdoStart) (toggle last : Bool) (d : List Byte), b = s.elapse dt →
    (b.hears .coe = false → exec (.sdoSegment dt (some r) toggle last d) s = .next b) ∧
    (b.hears .coe = true → r.write = false → exec (.sdoSegment dt (some r) toggle last d) s =
      .next (({ b with sdo := none } : State).sdoRead r.index.toNat r.sub.toNat r.complete)) ∧
    (b.hears .coe = true → r.write = true → last = false → ∃ t, exec (.sdoSegment dt (some r) toggle last d) s = .next t ∧
      t.sdo = some { index := r.index.toNat, sub := r.sub.toNat, complete := r.complete, write := true, toggle := false, data := d
                     at_ := b.up } ∧ t.od = b.od)) ∧
  (∀ (s b : State) (dt a : Nat) (p : Fin 2) (off : BitVec 26) (v : BitVec 32), b = s.elapse dt → a = off.toNat →
    (a % 8 ≠ 0 ∨ b.bar0Up p a = false → exec (.lowHalfRead dt p off) s = .next b ∧ exec (.lowHalfWrite dt p off v) s = .next b) ∧
    (a % 8 ≠ 4 ∨ b.bar0Up p a = false → exec (.highHalfRead dt p off) s = .next b ∧
      exec (.highHalfWrite dt p off v) s = .next b) ∧
    (a % 8 = 0 → b.bar0Up p a = true →
      (wideAt p a = false → exec (.lowHalfRead dt p off) s =
        .next ((b.bar0Read p a true).1.emit (.busRead p ((b.bar0Read p a true).2.take 4)))) ∧
      (wideAt p a = true → ∃ t, exec (.lowHalfRead dt p off) s = .next t ∧
        t.out = (b.bar0Read p a true).1.out ++ [.busRead p ((b.bar0Read p a true).2.take 4)] ∧
        (t.host p).readShadow = some (a, field (b.bar0Read p a true).2 4 4)) ∧
      (wideAt p a = true → a ≠ blockAt p + 0x18 → ∃ t, exec (.lowHalfWrite dt p off v) s = .next t ∧
        (t.host p).writeShadow = some (a, v.toNat) ∧ t.mem = b.mem ∧ t.out = b.out ∧ t.streams = b.streams) ∧
      (wideAt p a = false → (b.host p).writeShadow = none → exec (.lowHalfWrite dt p off v) s =
        .next (b.bar0Write p a (leBytes 4 v.toNat)))) ∧
    (a % 8 = 4 → b.bar0Up p a = true →
      (∀ hi : Nat, wideAt p (a - 4) = true → (b.host p).readShadow = some (a - 4, hi) → ∃ t, exec (.highHalfRead dt p off) s = .next t ∧
        t.out = b.out ++ [.busRead p (leBytes 4 hi)] ∧ (t.host p).readShadow = none ∧ t.od = b.od) ∧
      (∀ lo : Nat, (b.host p).writeShadow = some (a - 4, lo) → exec (.highHalfWrite dt p off v) s =
        .next ((b.modHost p (fun h => { h with writeShadow := none })).bar0Write p (a - 4)
          (leBytes 4 lo ++ leBytes 4 v.toNat))) ∧
      ((b.host p).writeShadow = none → exec (.highHalfWrite dt p off v) s =
        .next (b.bar0Write p a (leBytes 4 v.toNat))))) ∧
  (∀ (s b c : State) (dt i k : Nat) (p : Fin 2) (index : BitVec 16) (sub : BitVec 8) (res : BitVec 6) (d : List Byte),
    b = s.elapse dt → i = index.toNat → k = sub.toNat → c = b.dropLow p →
    (b.hears (.block p) = false → ∀ x ∈ [Instr.accessBlockRead dt p index sub res, .accessBlockCompleteRead dt p index sub res,
      .accessBlockWrite dt p index sub res d, .accessBlockCompleteWrite dt p index sub res d], exec x s = .next b) ∧
    (b.hears (.block p) = true → res ≠ 0 → ∀ x ∈ [Instr.accessBlockRead dt p index sub res,
      .accessBlockCompleteRead dt p index sub res, .accessBlockWrite dt p index sub res d,
      .accessBlockCompleteWrite dt p index sub res d],
      ∃ t, exec x s = .next t ∧ (t.host p).error = true ∧ (t.host p).abort = 0x06090011 ∧ t.mem = b.mem) ∧
    (b.hears (.block p) = true → res = 0 →
      (∀ e ∈ [(Instr.accessBlockRead dt p index sub res, c.readEntry (.block p) i k),
          (.accessBlockCompleteRead dt p index sub res, c.completeRead (.block p) i k)],
        (e.2.1 = 0 → ∃ t, exec e.1 s = .next t ∧ (t.host p).error = false ∧ (t.host p).abort = 0 ∧
          (t.host p).length = e.2.2.2.length ∧ (t.host p).data.take e.2.2.2.length = e.2.2.2) ∧
        (e.2.1 ≠ 0 → ∃ t, exec e.1 s = .next t ∧ (t.host p).error = true ∧ (t.host p).abort = e.2.1)) ∧
      (d.length ≤ 520192 → ∀ m : State, m = c.modHost p (fun h => { (h.putData 0 d) with length := d.length }) →
        ((m.writeGate (.block p) i k d).1 ≠ 0 → ∃ t, exec (.accessBlockWrite dt p index sub res d) s = .next t ∧
          (t.host p).error = true ∧ (t.host p).abort = (m.writeGate (.block p) i k d).1) ∧
        ((m.writeGate (.block p) i k d).1 = 0 → exec (.accessBlockWrite dt p index sub res d) s =
          .next ((m.writeAct (2 + p) false i k d).2.reply (.block p) i k (m.writeAct (2 + p) false i k d).1)) ∧
        exec (.accessBlockCompleteWrite dt p index sub res d) s = .next ((m.completeWrite (.block p) i k d).2.reply
          (.block p) i k (m.completeWrite (.block p) i k d).1)) ∧
      (520192 < d.length → ∀ x ∈ [Instr.accessBlockWrite dt p index sub res d, .accessBlockCompleteWrite dt p index sub res d],
        ∃ t, exec x s = .next t ∧ (t.host p).error = true ∧ (t.host p).abort = 0x06070010)))

/-- Process data, summaries, pins and events (R373, R374, R377, R378, R395, R396, R489, R490, R491, R493). From AL SAFEOP on the TxPDO carries its
eight fields. The mailbox sends the oldest Emergency outside BOOT. A resynchronisation request with a token other than 0 is latched
at its snapshot time, 50 µs after its arrival in whole µs, and replaces the summary when ready. The pin table is replaced whole by
entries that are each sound, of different layers and not against a job's own pin. An event fetch returns up to 32 records after the
cursor and moves it; a datagram takes up to 32 records in order; a storm ends with a period without drops, and else leaves a
summary. A CLEARED alarm, or every one, is freed when it is acknowledged; one that is not CLEARED is refused. -/
def Obligations.ProcessDataSummariesAndEvents : Prop :=
  (∀ (s b : State) (dt : Nat) (al : Fin 4) (req : Fin 3) (index : BitVec 16) (sub : BitVec 8), b = s.elapse dt →
    (b.run.st = .off ∨ b.al < 2 → exec (.txpdoSample dt) s = .next b) ∧
    (b.run.st ≠ .off → 2 ≤ b.al → ∃ d, exec (.txpdoSample dt) s = .next (b.emit (.txpdo d)) ∧ d.length = 16 ∧
      (d.drop 4).take 3 = [BitVec.ofNat 8 b.run.st.code, BitVec.ofNat 8 b.twin.st.code, BitVec.ofNat 8 b.time.lock.code]) ∧
    (b.run.st = .off → exec (.alStateChange dt al) s = .next b) ∧
    (b.run.st ≠ .off → exec (.alStateChange dt al) s = .next { b with al := al, sdo := if al = 0 then none else b.sdo }) ∧
    (b.hears .coe = false → exec (.sdoInformation dt req index sub) s = .next b) ∧
    (b.hears .coe = true → b.run.st = .boot → exec (.sdoInformation dt req index sub) s = .next (b.emit (.sdoAbort 0x08000021))) ∧
    (b.hears .coe = true → b.run.st ≠ .boot →
      (req = 0 → exec (.sdoInformation dt req index sub) s = .next (b.emit (.sdo 0 0 (table 2 objectList)))) ∧
      (req ≠ 0 → odIndexExists index.toNat = false → commObject index.toNat = false →
        exec (.sdoInformation dt req index sub) s = .next (b.emit (.sdoAbort 0x06020000))) ∧
      (req ≠ 0 → odIndexExists index.toNat = true → (req = 2 → (odRow index.toNat sub.toNat).isSome = true) →
        ∃ o, exec (.sdoInformation dt req index sub) s = .next (b.emit o)))) ∧
  (∀ (s b : State) (dt : Nat), b = s.elapse dt →
    (b.al = 0 ∨ b.run.st = .off ∨ b.run.st = .boot ∨ b.events.emergency.records = [] → exec (.emergencyMailboxRead dt) s = .next b) ∧
    (∀ (e : Event) (rest : List Event), b.al ≠ 0 → b.run.st ≠ .off → b.run.st ≠ .boot → b.events.emergency.records = e :: rest →
      ∃ t, exec (.emergencyMailboxRead dt) s = .next t ∧ t.out = b.out ++ [.emergency (e.emergency b.errorRegister)] ∧
        t.events.emergency.records = rest ∧ t.events.wheel = b.events.wheel)) ∧
  (∀ (s b : State) (dt k : Nat) (road : Road) (token : BitVec 32), b = s.elapse dt → k = (viaOf road 0x2010 1).master - 1 →
    b.admits road 0x2010 1 (leBytes 4 token.toNat) →
    (token = 0 → exec (.resynchronise dt road token) s = .next (b.reply (viaOf road 0x2010 1) 0x2010 1 0x06090030)) ∧
    (token ≠ 0 → ∃ t at_, exec (.resynchronise dt road token) s = .next t ∧ (tget t.summaries k).request = some (token.toNat, at_) ∧
      (tget t.summaries k).latched = none ∧ (tget t.summaries k).held = (tget b.summaries k).held ∧
      at_ % 1000 = 0 ∧ b.clock.now + 50000000 ≤ 1000 * at_ ∧ 1000 * at_ < b.clock.now + 51000000)) ∧
  (∀ (s b : State) (dt : Nat) (k : Fin 3), b = s.elapse dt →
    ((tget b.summaries k).request = none → exec (.summarySnapshot dt k) s = .next b ∧ exec (.summaryReady dt k) s = .next b) ∧
    ((tget b.summaries k).latched = none → exec (.summaryReady dt k) s = .next b) ∧
    (∀ token at_ : Nat, (tget b.summaries k).request = some (token, at_) →
      ((tget b.summaries k).latched.isSome = true ∨ b.ns < at_ → exec (.summarySnapshot dt k) s = .next b) ∧
      ((tget b.summaries k).latched = none → at_ ≤ b.ns → ∃ t, exec (.summarySnapshot dt k) s = .next t ∧
        (tget t.summaries k).latched = some (b.summary token at_) ∧ (tget t.summaries k).held = (tget b.summaries k).held) ∧
      (∀ d : List Byte, (tget b.summaries k).latched = some d → ∃ t, exec (.summaryReady dt k) s = .next t ∧
        tget t.summaries k = { held := d, ready := token }))) ∧
  (∀ (s b : State) (dt : Nat) (road : Road) (d : List Byte) (l : List Nat) (via : Via), b = s.elapse dt → via = viaOf road 0x2020 1 →
    l = (List.range (d.length / 4)).map (fun i => field d (4 * i) 4) → b.admits road 0x2020 1 d → d.length % 4 = 0 →
    d.length ≤ 4096 →
    ((∃ e ∈ l, b.pinOk e = false) ∨ ¬(l.map (fun e => (pinJob e, pinTag e))).Nodup →
      exec (.pinTableWrite dt road d) s = .next (b.reply via 0x2020 1 0x06090030)) ∧
    ((∀ e ∈ l, b.pinOk e = true) → (l.map (fun e => (pinJob e, pinTag e))).Nodup →
      ((∀ e ∈ l, pinPlace e ≠ 0 → (b.pinLayer e).any (fun y => y.pin != 0) = false) →
        exec (.pinTableWrite dt road d) s = .next (({ b with pins := l } : State).reply via 0x2020 1 0)) ∧
      ((∃ e ∈ l, pinPlace e ≠ 0 ∧ (b.pinLayer e).any (fun y => y.pin != 0) = true) →
        exec (.pinTableWrite dt road d) s = .next (b.reply via 0x2020 1 0x08000020)))) ∧
  (∀ (s b : State) (dt : Nat) (sub : BitVec 8) (e : Event) (rest : List Event) (d : List Byte), b = s.elapse dt → sub.toNat = 1 →
    b.hears .coe = true → (b.readGate .coe 0x7003 1).1 = 0 →
    b.events.wheel.records.filter (fun e => b.val 0x7003 4 < e.seq) = e :: rest →
    d = (e.bytes (b.val 0x7003 4 < b.events.evicted)) ++ (rest.take 31).flatMap (fun x => x.bytes false) →
    ∃ t, exec (.eventFetch dt .coe sub) s = .next t ∧ t.out = b.out ++ [.sdo 0x7003 1 (d.take 1008)] ∧
      t.val 0x7003 4 = (((rest.take 31).getLast?.getD e)).seq ∧ t.events.wheel = b.events.wheel) ∧
  (∀ (s b : State) (dt : Nat) (sub : BitVec 8), b = s.elapse dt → sub.toNat = 0 ∨ 3 < sub.toNat →
    exec (.eventFetch dt .coe sub) s = .next b) ∧
  (∀ (s b : State) (dt : Nat) (road : Road) (sub : BitVec 8) (v : BitVec 64), b = s.elapse dt →
    (sub.toNat < 4 ∨ 6 < sub.toNat → exec (.cursorWrite dt road sub v) s = .next b) ∧
    (4 ≤ sub.toNat → sub.toNat ≤ 6 → b.admits road 0x7003 sub.toNat (leBytes 8 v.toNat) → exec (.cursorWrite dt road sub v) s =
      .next ((b.setVal 0x7003 sub.toNat v.toNat).reply (viaOf road 0x7003 sub.toNat) 0x7003 sub.toNat 0))) ∧
  (∀ (s b : State) (dt : Nat), b = s.elapse dt →
    (b.datagramDue = false → exec (.exportDatagram dt) s = .next b) ∧
    (b.datagramDue = true → ∃ t, exec (.exportDatagram dt) s = .next t ∧
      t.out = b.out ++ [.datagram (datagramBytes b.events.datagrams (b.events.export_.records.take 32))] ∧
      t.events.export_.records = b.events.export_.records.drop 32 ∧ t.events.datagrams = (b.events.datagrams + 1) % 2 ^ 32)) ∧
  (∀ (s b : State) (dt : Nat) (k : Fin 3), b = s.elapse dt →
    ((b.events.sink k).storm = false → exec (.stormPeriodEnd dt k) s = .next b) ∧
    ((b.events.sink k).storm = true → (b.events.sink k).period = [] → ∃ t, exec (.stormPeriodEnd dt k) s = .next t ∧
      (t.events.sink k).storm = false ∧ (t.events.sink k).records = (b.events.sink k).records) ∧
    ((b.events.sink k).storm = true → (b.events.sink k).period ≠ [] → exec (.stormPeriodEnd dt k) s =
      .next (({ b with events := b.events.modSink k (fun x => { x with period := [] }) } : State).emitRecord 0x0803 2 0
        (stormDetail k (b.events.sink k).period) false [k.val]))) ∧
  (∀ (s b : State) (dt : Nat) (road : Road) (entry : BitVec 32) (via : Via), b = s.elapse dt → via = viaOf road 0x7001 2 →
    b.admits road 0x7001 2 (leBytes 4 entry.toNat) →
    (entry = 0xFFFFFFFF → ∃ t, exec (.alarmAcknowledge dt road entry) s = .next t ∧
      ∀ a, a ∈ t.events.alarms ↔ a ∈ b.events.alarms ∧ a.2.st ≠ 2) ∧
    (entry ≠ 0xFFFFFFFF → 1023 < entry.toNat →
      exec (.alarmAcknowledge dt road entry) s = .next (b.reply via 0x7001 2 0x06090030)) ∧
    (entry.toNat ≤ 1023 →
      ((tget b.events.alarms entry.toNat).st = 2 → exec (.alarmAcknowledge dt road entry) s = .next
        (({ b with events := { b.events with alarms := tdel b.events.alarms entry.toNat } } : State).reply via 0x7001 2 0)) ∧
      ((tget b.events.alarms entry.toNat).st ≠ 2 →
        exec (.alarmAcknowledge dt road entry) s = .next (b.reply via 0x7001 2 0x08000022))))

-- run state and feeds (R392 to R394, R461 to R464, R507 to R518)

/-- The run state (R393, R463, R464, R507, R508, R510, R515, R516, R518). START from STANDBY and CLEAR from SAFE, unless SELF_FENCED, enter WARMING,
where each OFFLINE core with a latched cartridge is STARTING; STOP from READY or SERVING enters DRAINING; SAFE from WARMING to DRAINING
enters SAFE with cause 1; SHUTDOWN from a powered state leads to OFF; COLD_RESET from any but OFF leads to BOOT, with no unit in
service, no job, no stream and memory at 0. In any other state each is refused. STANDBY follows BOOT once firmware runs, every unit READY
that is not RETIRED, and ports STARTING. A core goes through its warming steps in order; at the limit no core is STARTING any more. The
reset loop with a feed present leads to OFF, its release to BOOT; with both feeds lost the part is OFF, and a feed normal for 100 ms
boots it. -/
def Obligations.RunStateFollowsCommandsAndFeeds : Prop :=
  (∀ (s b : State) (dt : Nat) (road : Road) (via : Via), b = s.elapse dt → via = viaOf road 0x2000 2 →
    (b.admits road 0x2000 2 [1] →
      (b.run.st ≠ .standby → exec (.start dt road) s = .next (b.reply via 0x2000 2 0x08000022)) ∧
      (b.run.st = .standby → ∃ t, exec (.start dt road) s = .next t ∧ t = b.startWarming.reply via 0x2000 2 0)) ∧
    (b.admits road 0x2000 2 [4] →
      (b.run.st ≠ .safe ∨ b.twin.st = .selfFenced → exec (.clear dt road) s = .next (b.reply via 0x2000 2 0x08000022)) ∧
      (b.run.st = .safe → b.twin.st ≠ .selfFenced → ∃ t, exec (.clear dt road) s = .next t ∧
        t = b.startWarming.reply via 0x2000 2 0)) ∧
    (b.admits road 0x2000 2 [2] →
      (b.run.st ≠ .ready → b.run.st ≠ .serving → exec (.stop dt road) s = .next (b.reply via 0x2000 2 0x08000022)) ∧
      (b.run.st = .ready ∨ b.run.st = .serving → ∃ t, exec (.stop dt road) s = .next t ∧
        t = (b.runTo .draining).stopJobs.advance.reply via 0x2000 2 0 ∧
        (b.stepRuns = true → t.run.st = .draining ∧ t.run.stopJobs = true))) ∧
    (b.admits road 0x2000 2 [3] →
      (b.run.st ∉ [.warming, .ready, .serving, .draining] →
        exec (.safe dt road) s = .next (b.reply via 0x2000 2 0x08000022)) ∧
      (b.run.st ∈ [.warming, .ready, .serving, .draining] → ∃ t, exec (.safe dt road) s = .next t ∧ t.run.st = .safe ∧
        t.run.since = b.up ∧ t.val 0x2000 6 = 1 ∧ t.run.stopJobs = true ∧ t.units = b.units)) ∧
    (b.admits road 0x2000 2 [5] →
      (b.run.st ∈ [.off, .boot, .shutdown] → exec (.shutdown dt road) s = .next (b.reply via 0x2000 2 0x08000022)) ∧
      (b.run.st = .standby → ∃ t, exec (.shutdown dt road) s = .next t ∧ t.run.st = .off ∧ t.clock.up = b.up) ∧
      (b.run.st ∉ [.off, .boot, .shutdown, .standby] → ∃ t, exec (.shutdown dt road) s = .next t ∧
        t.run.st ∈ [.shutdown, .off] ∧ (b.anyRunning = true → t.run.st = .shutdown))) ∧
    (b.admits road 0x2000 2 [6] →
      (b.run.st = .off → exec (.coldReset dt road) s = .next (b.reply via 0x2000 2 0x08000022)) ∧
      (b.run.st ≠ .off → ∃ t, exec (.coldReset dt road) s = .next t ∧ t.run.st = .boot ∧ t.clock.up = b.up ∧ t.clock.now = 0 ∧
        t.val 0x400A 4 = 1 ∧ t.pending = b.pending ∧ (∀ a : Nat, t.mem.get a = 0) ∧ t.jobs = [] ∧ t.streams = [] ∧
        ∀ r : Nat, t.unit r = .offline ∨ t.unit r = .retired))) ∧
  (∀ (s : State), s.startWarming.twin = s.twin ∧
    ∀ c : Nat, c < 16 → s.unit (coreRef c) = .offline → (s.cart (c / 2)).latch = 1 →
      s.startWarming.run.st = .warming ∧ s.startWarming.unit (coreRef c) = .starting) ∧
  (∀ (s b : State) (dt : Nat) (failed : List UnitRef), b = s.elapse dt →
    (b.run.st ≠ .boot ∨ b.security.running = false → exec (.standbyReached dt failed) s = .next b) ∧
    (b.run.st = .boot → b.security.running = true → ∃ t, exec (.standbyReached dt []) s = .next t ∧
      (∀ m : Nat, m < 20 → t.unit (stackRef m) = (if b.unit (stackRef m) = .retired then .retired else .ready)) ∧
      (∀ n : Nat, n < 128 → t.unit (portRef n) = (if b.unit (portRef n) = .retired then .retired else .starting)) ∧
      (b.flag 0x400A 1 = false → t.run.st = .standby ∧ t.run.since = b.up))) ∧
  (∀ (s b : State) (dt : Nat) (c : Fin 16), b = s.elapse dt →
    (b.unit (coreRef c) ≠ .starting ∨ (b.core c).warmStep = 0 → exec (.coreWarmingStep dt c) s = .next b) ∧
    (b.unit (coreRef c) = .starting → (b.core c).warmStep ∉ [0, 6] →
      (b.warmDone c = false → exec (.coreWarmingStep dt c) s = .next b) ∧
      (b.warmDone c = true → ∃ t, exec (.coreWarmingStep dt c) s = .next t ∧
        (t.core c).warmStep = (b.core c).warmStep + 1 ∧ t.unit (coreRef c) = .starting)) ∧
    (b.unit (coreRef c) = .starting → (b.core c).warmStep = 6 → exec (.coreWarmingStep dt c) s = .next (b.warmEnds c))) ∧
  (∀ (s b : State) (dt : Nat), b = s.elapse dt →
    (b.run.st ≠ .warming ∨ b.up < b.run.since + b.run.warmLimit * 1000000000 → exec (.warmingLimit dt) s = .next b) ∧
    (b.run.st = .warming → b.run.since + b.run.warmLimit * 1000000000 ≤ b.up → ∃ t, exec (.warmingLimit dt) s = .next t ∧
      ∀ c : Nat, c < 16 → t.unit (coreRef c) ≠ .starting ∧ ((b.unit (coreRef c)).works = true → t.unit (coreRef c) = b.unit (coreRef c))) ∧
    (b.feedPresent = false → exec (.resetLoopAssert dt) s = .next b) ∧
    (b.feedPresent = true → ∃ t, exec (.resetLoopAssert dt) s = .next t ∧ t.run.st = .off ∧ t.run.loopAsserted = true) ∧
    (b.run.loopAsserted = false → exec (.resetLoopRelease dt) s = .next b) ∧
    (b.run.loopAsserted = true → b.feedPresent = true → ∃ t, exec (.resetLoopRelease dt) s = .next t ∧ t.run.st = .boot ∧
      t.run.loopAsserted = false ∧ t.val 0x400A 4 = 2) ∧
    (b.run.loopAsserted = true → b.feedPresent = false → ∃ t, exec (.resetLoopRelease dt) s = .next t ∧
      t.run.st = b.run.st ∧ t.run.loopAsserted = false)) ∧
  (∀ mv : Int, (-57000 ≤ mv → mv ≤ -40500 → feedState mv = 0) ∧
    (-60000 ≤ mv → mv ≤ -38000 → mv < -57000 ∨ -40500 < mv → feedState mv = 1) ∧ (mv < -60000 ∨ -38000 < mv → feedState mv = 2)) ∧
  (∀ (s b : State) (dt : Nat) (i : Fin 2) (mv mvA mvB : Int), b = s.elapse dt →
    (feedState mv ≠ 1 → exec (.feedRange dt i mv) s = .next b) ∧ (feedState mv ≠ 0 → exec (.feedReturn dt i mv) s = .next b) ∧
    (feedState mv ≠ 2 ∨ b.feed i = 2 ∨ b.feed (1 - i.val) = 2 → exec (.feedLost dt i mv) s = .next b) ∧
    (∀ k ∈ [(Instr.feedRange dt i mv, 1), (.feedReturn dt i mv, 0), (.feedLost dt i mv, 2)], feedState mv = k.2 →
      (k.2 = 2 → b.feed i ≠ 2 ∧ b.feed (1 - i.val) ≠ 2) → ∃ t, exec k.1 s = .next t ∧ t.feed i = k.2 ∧
        t.feed (1 - i.val) = b.feed (1 - i.val) ∧ t.val 0x4001 (1 + i) = unsigned 32 mv ∧ t.run.st = b.run.st ∧
        (k.2 = 2 → t.val 0x4001 6 = wrapAdd 8 (b.val 0x4001 6) 1)) ∧
    (feedState mvA ≠ 2 ∨ feedState mvB ≠ 2 → exec (.bothFeedsLost dt mvA mvB) s = .next b) ∧
    (feedState mvA = 2 → feedState mvB = 2 → ∃ t, exec (.bothFeedsLost dt mvA mvB) s = .next t ∧ t.run.st = .off ∧
      t.power.feedA = 2 ∧ t.power.feedB = 2) ∧
    (∀ g : Option Nat, g = (if i = 0 then b.power.normalA else b.power.normalB) →
      (g = none ∨ b.run.st ≠ .off ∨ b.run.loopAsserted = true ∨ b.run.offWithFeed = true →
        exec (.feedQualified dt i) s = .next b) ∧
      (∀ at_ : Nat, g = some at_ → b.up < at_ + 100000000000 → exec (.feedQualified dt i) s = .next b) ∧
      (∀ at_ : Nat, g = some at_ → at_ + 100000000000 ≤ b.up → b.run.st = .off → b.run.loopAsserted = false →
        b.run.offWithFeed = false → ∃ t, exec (.feedQualified dt i) s = .next t ∧ t.run.st = .boot ∧ t.run.startAt = b.up ∧
          t.val 0x400A 4 = 0)))

-- access tables, firmware and attestation (R254 to R273)

/-- Access tables, firmware and attestation (R254, R256, R261, R262, R264, R265, R266, R268, R270, R271, R376). A grant, region or peer entry takes its
value at once, reserved bits at 0; a region off its granule, outside its target or over another is refused, and once commissioned a
write that makes a master gain or lose ADMIN anywhere; the lock takes TRUE alone and keeps its first time. In BOOT the named slot is
verified first, then the other; a slot that fails is INVALID and counted. A TRIAL slot is confirmed VALID, or times out INVALID and the part
boots again. A complete image that passes is on TRIAL and boots next, any other leaves its slot EMPTY, and the booted slot is not
written. The counter rises to a version that the booted VALID image holds. One core at a time goes to REPAIR for fresh microcode and
comes back READY. A report is signed while leaves are left and the interval has passed, and is held or written with its leaf. -/
def Obligations.TablesFirmwareAndAttestation : Prop :=
  (∀ (s b : State) (dt i k m : Nat) (road : Road) (index : BitVec 16) (sub : BitVec 8) (v : BitVec 32) (w : BitVec 64) (d : List Byte)
      (via : Via), b = s.elapse dt → i = index.toNat → k = sub.toNat → via = viaOf road i k → m = via.master →
    (isGrant i k = false → exec (.grantWrite dt road index sub v) s = .next b) ∧
    (isRegion i k = false → exec (.regionWrite dt road index sub w) s = .next b) ∧
    (isPeer i k = false → exec (.peerEntryWrite dt road index sub d) s = .next b) ∧
    (isGrant i k = true → b.admits road i k (leBytes 4 v.toNat) → ∀ t : State, t = b.setVal i k (v.toNat % 2 ^ 29) →
      (b.flag 0x3120 1 = false ∨ b.adminMoves t = false →
        exec (.grantWrite dt road index sub v) s = .next (t.reply via i k 0) ∧ t.val i k = v.toNat % 2 ^ 29) ∧
      (b.flag 0x3120 1 = true → b.adminMoves t = true →
        exec (.grantWrite dt road index sub v) s = .next ((b.deny (some m) (odKey i k) 0).reply via i k 0x06010000))) ∧
    (isRegion i k = true → b.admits road i k (leBytes (if isHbmRegion i k then 8 else 4) w.toNat) →
      ∀ t : State, t = b.setVal i k w.toNat →
      (t.regionRule i = true → exec (.regionWrite dt road index sub w) s = .next (t.reply via i k 0)) ∧
      (t.regionRule i = false → exec (.regionWrite dt road index sub w) s = .next (b.reply via i k 0x06090030))) ∧
    (isPeer i k = true → b.admits road i k d →
      (128 < leNat d / 2 ^ 128 % 256 → exec (.peerEntryWrite dt road index sub d) s = .next (b.reply via i k 0x06090030)) ∧
      (leNat d / 2 ^ 128 % 256 ≤ 128 → b.flag 0x3120 1 = false → ∃ t, exec (.peerEntryWrite dt road index sub d) s = .next t ∧
        t.val i k = leNat d % 2 ^ 136 + leNat d / 2 ^ 136 % 2 * 2 ^ 136))) ∧
  (∀ (s b : State) (dt : Nat) (road : Road) (value : BitVec 8) (via : Via), b = s.elapse dt → via = viaOf road 0x3120 1 →
    b.admits road 0x3120 1 [value] →
    (value ≠ 1 → exec (.commissioningLock dt road value) s = .next (b.reply via 0x3120 1 0x06090030)) ∧
    (value = 1 → b.flag 0x3120 1 = true → exec (.commissioningLock dt road value) s = .next (b.reply via 0x3120 1 0)) ∧
    (value = 1 → b.flag 0x3120 1 = false → ∃ t, exec (.commissioningLock dt road value) s = .next t ∧ t.flag 0x3120 1 = true ∧
      t.val 0x3120 2 = b.clock.now / 1000000000000)) ∧
  (∀ (s b c : State) (dt k : Nat), b = s.elapse dt → k = b.val 0x3100 7 → c = (b.trySlot k).1 →
    (b.run.st ≠ .boot ∨ b.security.running = true → exec (.firmwareVerified dt) s = .next b) ∧
    (b.run.st = .boot → b.security.running = false →
      ((b.trySlot k).2 = true → ∃ t, exec (.firmwareVerified dt) s = .next t ∧ t.security.running = true ∧ t.security.booted = k ∧
        t.security.bootedImage = b.security.image k) ∧
      ((b.trySlot k).2 = false → (c.trySlot (1 - k)).2 = true → ∃ t, exec (.firmwareVerified dt) s = .next t ∧
        t.security.running = true ∧ t.security.booted = 1 - k) ∧
      ((b.trySlot k).2 = false → (c.trySlot (1 - k)).2 = false → ∃ t, exec (.firmwareVerified dt) s = .next t ∧
        t.security.running = false ∧ t.run.st = .boot))) ∧
  (∀ (s : State) (k : Nat), k < 2 →
    (s.security.slot k = .empty ∨ s.security.slot k = .invalid → s.trySlot k = (s, false)) ∧
    (s.security.slot k ≠ .empty → s.security.slot k ≠ .invalid →
      (s.slotPasses k = true → s.trySlot k = (s, true)) ∧
      (s.slotPasses k = false → (s.trySlot k).2 = false ∧ (s.trySlot k).1.security.slot k = .invalid ∧
        (s.trySlot k).1.val 0x3100 0xB = wrapAdd 4 (s.val 0x3100 0xB) 1))) ∧
  (∀ (s b : State) (dt k : Nat) (road : Road) (value : BitVec 8), b = s.elapse dt → k = b.security.booted →
    (b.admits road 0x3100 8 (leBytes 1 value.toNat) →
      (value = 1 → b.security.running = true → b.security.slot k = .trial →
        ∃ t, exec (.trialConfirm dt road value) s = .next t ∧ t.security.slot k = .valid ∧ t.security.trialAt = none) ∧
      (value = 1 → b.security.running = false ∨ b.security.slot k ≠ .trial →
        exec (.trialConfirm dt road value) s = .next (b.reply (viaOf road 0x3100 8) 0x3100 8 0x08000022))) ∧
    (b.admits road 0x3100 0xA (leBytes 1 value.toNat) →
      (128 < value.toNat → exec (.commitSecurityVersion dt road value) s =
        .next (b.reply (viaOf road 0x3100 0xA) 0x3100 0xA 0x06090030)) ∧
      (value.toNat ≤ 128 → b.security.running = true → b.security.slot k = .valid →
        value.toNat ≤ imageSvn (b.security.image k) → ∃ t, exec (.commitSecurityVersion dt road value) s = .next t ∧
          t.val 0x3100 6 = max (b.val 0x3100 6) value.toNat) ∧
      (value.toNat ≤ 128 → b.security.running = false ∨ b.security.slot k ≠ .valid ∨
          imageSvn (b.security.image k) < value.toNat → exec (.commitSecurityVersion dt road value) s =
        .next (b.reply (viaOf road 0x3100 0xA) 0x3100 0xA 0x08000022))) ∧
    (b.admits road 0x3100 0xC (leBytes 1 value.toNat) →
      (∀ d : Nat, value.toNat < 16 → b.security.updating = none → b.unitWorks (coreRef value.toNat) = true →
        b.freshMicrocode = some d → ∃ t, exec (.microcodeUpdateCore dt road value) s = .next t ∧
          t.security.updating = some (value.toNat, d) ∧ t.unit (coreRef value.toNat) = .repair) ∧
      (value.toNat < 16 → b.security.updating.isSome = true ∨ b.unitWorks (coreRef value.toNat) = false ∨ b.freshMicrocode = none →
        exec (.microcodeUpdateCore dt road value) s =
          .next (b.reply (viaOf road 0x3100 0xC) 0x3100 0xC 0x08000022)))) ∧
  (∀ (s b : State) (dt : Nat) (c : Fin 16) (ok : Bool), b = s.elapse dt →
    ((∀ d : Nat, b.security.updating ≠ some (c.val, d)) → exec (.microcodeUpdateDone dt c ok) s = .next b) ∧
    (∀ d : Nat, b.security.updating = some (c.val, d) → ∃ t, exec (.microcodeUpdateDone dt c ok) s = .next t ∧
      t.security.updating = none ∧ (t.core c).microcode = d ∧
      t.unit (coreRef c) = (if ok = true ∧ b.unit (coreRef c) = .repair then .ready else b.unit (coreRef c))) ∧
    (b.security.trialAt = none ∨ b.security.running = false → exec (.trialTimeout dt) s = .next b) ∧
    (∀ g : Nat, b.security.trialAt = some g → b.security.running = true →
      (b.up < g + b.val 0x3100 9 * 1000000000000 → exec (.trialTimeout dt) s = .next b) ∧
      (g + b.val 0x3100 9 * 1000000000000 ≤ b.up → b.security.booted < 2 → ∃ t, exec (.trialTimeout dt) s = .next t ∧
        t.run.st = .boot ∧ t.security.slot b.security.booted = .invalid ∧ t.security.running = false ∧ t.val 0x400A 4 = 3))) ∧
  (∀ (s b : State) (dt k : Nat) (name img : List Byte) (cut : Bool), b = s.elapse dt →
    (b.al = 0 ∨ b.run.st = .off → exec (.foeWrite dt name img cut) s = .next b) ∧
    (b.al ≠ 0 → b.run.st ≠ .off →
      (foeSlot name = none → exec (.foeWrite dt name img cut) s = .next (b.emit (.foe 0x8001))) ∧
      (foeSlot name = some k → has (b.classRights 1 6) 1 = true →
        (b.isBooted k = true → exec (.foeWrite dt name img cut) s = .next (b.emit (.foe 0x8002))) ∧
        (b.isBooted k = false → cut = true → ∃ t, exec (.foeWrite dt name img cut) s = .next t ∧ t.security.slot k = .empty ∧
          t.out = b.out) ∧
        (b.isBooted k = false → cut = false →
          (imagePasses img (b.val 0x3100 6) = true → ∃ t, exec (.foeWrite dt name img cut) s = .next t ∧
            t.security.slot k = .trial ∧ t.security.image k = img ∧ t.val 0x3100 7 = k ∧ t.out = b.out ++ [.foe 0]) ∧
          (imagePasses img (b.val 0x3100 6) = false → ∃ t, exec (.foeWrite dt name img cut) s = .next t ∧
            t.security.slot k = .empty ∧ t.out = b.out ++ [.foe 0x800B]))))) ∧
  (∀ (s b c : State) (dt p q a n k : Nat) (e : List Byte) (r : Rq), b = s.elapse dt → b.takeRequest rqFirmware = (c, some (p, q, e)) →
    r = { m := 2 + p, ring := some (p, q), entry := e } → a = field e 8 8 → n = field e 16 4 → k = field e 20 1 →
    (has (c.classRights (2 + p) 6) 1 = false → exec (.firmware dt) s = .next (c.answerDenied r (odKey 0x3100 (2 + k)) 2)) ∧
    (has (c.classRights (2 + p) 6) 1 = true →
      (c.isBooted k = true → exec (.firmware dt) s = .next (c.answer r 0x0C 0)) ∧
      (c.isBooted k = false → rangeSpan a n = .hbm → c.checkMem (2 + p) a n 0 = .ok →
        (imagePasses (c.mem.read a n) (c.val 0x3100 6) = true → exec (.firmware dt) s = .next
          (((c.setSlot k .trial (c.mem.read a n)).setVal 0x3100 7 k).answer r 0 0)) ∧
        (imagePasses (c.mem.read a n) (c.val 0x3100 6) = false → ∃ status : Nat, 1 ≤ status ∧ status ≤ 0x5F ∧
          exec (.firmware dt) s = .next (((c.setSlot k .empty []).takeFree).answer r status 0))))) ∧
  (∀ (s b : State) (dt : Nat), b = s.elapse dt →
    (∀ c : State, b.takeRequest rqFirmware = (c, none) → exec (.firmware dt) s = .next c) ∧
    (∀ c : State, b.takeRequest rqAttest = (c, none) → exec (.attest dt) s = .next c)) ∧
  (∀ (s b : State) (dt : Nat) (road : Road) (nonce : List Byte), b = s.elapse dt → b.admits road 0x3111 1 nonce →
    (nonce.length ≠ 32 → exec (.attestationNonce dt road nonce) s =
      .next (b.reply (viaOf road 0x3111 1) 0x3111 1 0x06070010)) ∧
    (nonce.length = 32 → b.leaf < leafCount → b.signWait = 0 → ∃ t, exec (.attestationNonce dt road nonce) s = .next t ∧
      t.security.report = b.reportHead nonce ++ padTo 2820 0 (Config.xmssSign (b.reportHead nonce) b.leaf) ∧
      t.val 0x3111 3 = 0 ∧ t.val 0x3110 3 = b.leaf + 1) ∧
    (nonce.length = 32 → leafCount ≤ b.leaf → ∃ t, exec (.attestationNonce dt road nonce) s = .next t ∧
      t.security.report = b.security.report ∧ t.val 0x3111 3 = 0x50) ∧
    (nonce.length = 32 → b.leaf < leafCount → b.signWait ≠ 0 → ∃ t, exec (.attestationNonce dt road nonce) s = .next t ∧
      t.security.report = b.security.report ∧ t.val 0x3111 3 = 0x51 + 256 * b.signWait)) ∧
  (∀ (s b c : State) (dt p q a : Nat) (e : List Byte) (r : Rq), b = s.elapse dt → b.takeRequest rqAttest = (c, some (p, q, e)) →
    r = { m := 2 + p, ring := some (p, q), entry := e } → a = field e 40 8 →
    (has (c.classRights (2 + p) 6) 0 = false → exec (.attest dt) s = .next (c.answerDenied r (odKey 0x3111 1) 1)) ∧
    (has (c.classRights (2 + p) 6) 0 = true →
      (rangeSpan a 3108 ≠ .hbm → exec (.attest dt) s = .next (c.answerDenied r a 2)) ∧
      (rangeSpan a 3108 = .hbm → c.checkMem (2 + p) a 3108 1 = .ok →
        (leafCount ≤ c.leaf → exec (.attest dt) s = .next ((c.setVal 0x3111 3 0x50).answer r 0x50 0)) ∧
        (c.leaf < leafCount → c.signWait ≠ 0 → exec (.attest dt) s =
          .next ((c.setVal 0x3111 3 (0x51 + 256 * c.signWait)).answer r 0x51 c.signWait)) ∧
        (c.leaf < leafCount → c.signWait = 0 → exec (.attest dt) s =
          .next (((c.signed.setVal 0x3111 3 0).storeBytes a (c.reportHead ((e.drop 8).take 32) ++
            padTo 2820 0 (Config.xmssSign (c.reportHead ((e.drop 8).take 32)) c.leaf))).answer r 0 c.leaf)))))

-- control loops (R399 to R421)

/-- Loop commands, records, coefficients and injections (R402, R404, R408, R413, R414, R415, R418, R419, R421). A command with no slot,
or with a VALUE where none belongs, and a record, bank record or injection that may not stand are refused with 0x06090030; a
co-processor that is out, a state that does not allow the command, and a record that changes more than SETPOINT in ACQUIRE or TRACK with
0x08000022. An accepted command or record waits for the frame start in arrival order; a bank record goes to the bank named, never the
one in use. One injection runs at a time, on a loop in MANUAL or TRACK whose unit is not SERVING, for its SAMPLES. -/
def Obligations.LoopWritesWaitForTheirFrame : Prop :=
  (∀ (s b : State) (dt n : Nat) (road : Road) (c : Fin 16) (w : BitVec 32) (via : Via), b = s.elapse dt → n = w.toNat →
    via = viaOf road (loopIdx c) 2 →
    ∀ k ∈ [(Instr.loopOff dt road c w, 1), (.loopManual dt road c w, 2), (.loopAcquire dt road c w, 3), (.loopTrack dt road c w, 4),
        (.loopRestart dt road c w, 5)],
      (cmdCode n ≠ k.2 → exec k.1 s = .next b) ∧
      (cmdCode n = k.2 → b.admits road (loopIdx c) 2 (leBytes 4 n) →
        (cmdSlots n = [] ∨ (k.2 ≠ 2 ∧ cmdValue n ≠ 0) → exec k.1 s = .next (b.reply via (loopIdx c) 2 0x06090030)) ∧
        (cmdSlots n ≠ [] → k.2 = 2 ∨ cmdValue n = 0 →
          (b.coprocOut c = true ∨ (∃ slot ∈ cmdSlots n, b.cmdBarred c k.2 slot = true) →
            exec k.1 s = .next (b.reply via (loopIdx c) 2 0x08000022)) ∧
          (b.coprocOut c = false → (∀ slot ∈ cmdSlots n, b.cmdBarred c k.2 slot = false) → ∃ t, exec k.1 s = .next t ∧
            (t.loopCore c).waiting =
              (b.loopCore c).waiting ++ (cmdSlots n).map (fun slot => LoopWrite.command slot k.2 (cmdValue n)) ∧
            (t.loopCore c).loops = (b.loopCore c).loops)))) ∧
  (∀ (b : State) (c cmd slot : Nat), (b.loopCore c).waiting = [] → cmd ∈ [1, 2, 3, 4, 5] →
    ((b.loop c slot).st ≠ .off → (b.cmdBarred c cmd slot = false ↔ (cmd, (b.loop c slot).st) ∈
      [(1, LoopSt.manual), (1, .acquire), (1, .track), (1, .fault), (2, .manual), (2, .fault), (3, .manual), (4, .manual),
        (4, .acquire), (5, .fault)])) ∧
    ((b.loop c slot).st = .off → (b.cmdBarred c cmd slot = false ↔ cmd ∈ [2, 3, 4] ∧
      (∀ ch ∈ loopChannels ((b.loop c slot).record slot) slot, ((b.conv c).group (groupOf ch)).queueMode = false) ∧
      (cmd = 3 → b.leadersLocked c slot = true)))) ∧
  (∀ (s b : State) (dt slot r : Nat) (road : Road) (c : Fin 16) (data : List Byte), b = s.elapse dt → slot = field data 0 2 →
    r = field data 4 64 → b.admits road (loopIdx c) 4 data →
    (1145 ≤ slot ∨ field data 2 2 ≠ 0 ∨ loopRecordOk slot r = false →
      exec (.loopConfigWrite dt road c data) s = .next (b.reply (viaOf road (loopIdx c) 4) (loopIdx c) 4 0x06090030)) ∧
    (slot < 1145 → field data 2 2 = 0 → loopRecordOk slot r = true → (b.loopCore c).waiting = [] → ∀ same : Prop,
      same = ((b.loop c slot).st ∈ [.acquire, .track] → withoutSetpoint r = withoutSetpoint ((b.loop c slot).record slot)) →
      (b.coprocOut c = true ∨ ¬same →
        exec (.loopConfigWrite dt road c data) s = .next (b.reply (viaOf road (loopIdx c) 4) (loopIdx c) 4 0x08000022)) ∧
      (b.coprocOut c = false → same → ∃ t, exec (.loopConfigWrite dt road c data) s = .next t ∧
        (t.loopCore c).waiting = [.config slot r] ∧ (t.loopCore c).loops = (b.loopCore c).loops))) ∧
  (∀ slot r : Nat, loopRecordOk slot r = true → r % 256 = loopType slot ∧ lcLockCount r ≠ 0 ∧
    (lcFlag r 2 = true → loopType slot = 1 ∨ loopType slot = 7) ∧ (ofF32 (lcF32 r 12)).lt (ofF32 (lcF32 r 16)) = true ∧
    (ofF32 (lcF32 r 20)).lt (ofF32 (lcF32 r 24)) = true) ∧
  (∀ (s b : State) (dt slot r k : Nat) (road : Road) (c : Fin 16) (data : List Byte), b = s.elapse dt → slot = field data 0 2 →
    k = field data 2 1 → r = field data 4 32 → b.admits road (loopIdx c) 7 data →
    (1145 ≤ slot ∨ 1 < k ∨ field data 3 1 ≠ 0 ∨ coeffOk r = false →
      exec (.coefficientWrite dt road c data) s = .next (b.reply (viaOf road (loopIdx c) 7) (loopIdx c) 7 0x06090030)) ∧
    (slot < 1145 → k ≤ 1 → field data 3 1 = 0 → coeffOk r = true → ∀ taken : Prop,
      taken = ((b.bankB c slot = true ↔ k = 1) ∨ ∃ m, b.mapAhead c = some m ∧ (bitOf m slot = true ↔ k = 1)) →
      (b.coprocOut c = true ∨ taken →
        exec (.coefficientWrite dt road c data) s = .next (b.reply (viaOf road (loopIdx c) 7) (loopIdx c) 7 0x08000022)) ∧
      (b.coprocOut c = false → ¬taken → ∃ t, exec (.coefficientWrite dt road c data) s = .next t ∧
        (t.loop c slot).coeff (decide (k = 1)) = r ∧ (t.loop c slot).coeff (decide (k = 0)) = (b.loop c slot).coeff (decide (k = 0)) ∧
        (∀ other : Nat, other ≠ slot → t.loop c other = b.loop c other)))) ∧
  (∀ (s b : State) (dt : Nat) (road : Road) (c : Fin 16) (data : List Byte) (via : Via), b = s.elapse dt →
    via = viaOf road (loopIdx c) 0x0C →
    (∀ k ∈ [(Instr.injectStep dt road c data, 1), (.injectPrbs dt road c data, 2), (.injectSine dt road c data, 3)],
      (injKind data ≠ k.2 → exec k.1 s = .next b) ∧
      (injKind data = k.2 → b.admits road (loopIdx c) 0x0C data →
        (injFieldsOk data = false → exec k.1 s = .next (b.reply via (loopIdx c) 0x0C 0x06090030)) ∧
        (injFieldsOk data = true → b.coprocOut c = true ∨ b.injectBarred c data = true →
          exec k.1 s = .next (b.reply via (loopIdx c) 0x0C 0x08000022)) ∧
        (injFieldsOk data = true → b.coprocOut c = false → b.injectBarred c data = false → ∃ t i, exec k.1 s = .next t ∧
          (t.loopCore c).injection = some i ∧ i.loop = injLoop data ∧ i.kind = k.2 ∧ i.left = field data 8 4 ∧ i.prbs = 0x7F ∧
          (t.loopCore c).captured = 0 ∧ (t.loopCore c).capture = []))) ∧
    (injKind data ≠ 0 → exec (.injectStop dt road c data) s = .next b) ∧
    (injKind data = 0 → b.admits road (loopIdx c) 0x0C data →
      (field data 14 2 ≠ 0 → exec (.injectStop dt road c data) s = .next (b.reply via (loopIdx c) 0x0C 0x06090030)) ∧
      (field data 14 2 = 0 → b.coprocOut c = true →
        exec (.injectStop dt road c data) s = .next (b.reply via (loopIdx c) 0x0C 0x08000022)) ∧
      (field data 14 2 = 0 → b.coprocOut c = false → ∃ t, exec (.injectStop dt road c data) s = .next t ∧
        (t.loopCore c).injection = none ∧ (t.loopCore c).loops = (b.loopCore c).loops))) ∧
  (∀ (b : State) (c : Nat) (data : List Byte) (st : LoopSt), st = (b.loop c (injLoop data)).st →
    (b.loopCore c).injection ≠ none ∨ st ∉ [.manual, .track] ∨ (field data 3 1 = 1 ∧ st = .manual) ∨
      b.unit (essentialUnit c (injLoop data)) = .serving → b.injectBarred c data = true) ∧
  (∀ (s b : State) (dt : Nat) (c : Fin 16), b = s.elapse dt →
    ((b.loopCore c).injection = none → exec (.injectionEnd dt c) s = .next b) ∧
    (∀ i : Injection, (b.loopCore c).injection = some i →
      (i.left ≠ 0 → exec (.injectionEnd dt c) s = .next b) ∧
      (i.left = 0 → ∃ t, exec (.injectionEnd dt c) s = .next t ∧ (t.loopCore c).injection = none ∧
        (t.loopCore c).loops = (b.loopCore c).loops)))

/-- Loop frames, strobes, lock and faults (R401, R407, R408, R410, R411, R412, R413). A frame starts on a whole 100 us while the co-processor
works; nothing that waited is left. At 90 us the strobe closes it: a due loop that was not computed keeps its output and counts
its miss. A loop in ACQUIRE that has been in band for LOCK_COUNT samples enters TRACK, LOCKED; one in TRACK out of band as long
clears LOCKED and stays in TRACK. The Acquisition Limit, PLAUS_RUN 8 and MISS_RUN 3 each fault the loop; an engine that works stops
at its window boundary, and the channel takes the fault value at the next tick. A sweep below its setpoint, and a state that
computes nothing, leave the integrator alone. -/
def Obligations.LoopFramesLockAndFault : Prop :=
  (∀ (s b : State) (dt fast time : Nat) (c : Fin 16) (supply : BitVec 16) (offsets : List Int), b = s.elapse dt →
    (b.ns % 100000 ≠ 0 ∨ (b.unit (coprocRef c)).works = false → exec (.loopFrame dt c supply fast time offsets) s = .next b) ∧
    (b.ns % 100000 = 0 → (b.unit (coprocRef c)).works = true → ∃ t, exec (.loopFrame dt c supply fast time offsets) s = .next t ∧
      (t.loopCore c).open_ = true ∧ (t.loopCore c).waiting = [])) ∧
  (∀ (s b : State) (dt : Nat) (c : Fin 16), b = s.elapse dt →
    (b.ns % 100000 ≠ 90000 ∨ (b.loopCore c).open_ = false → exec (.outputStrobe dt c) s = .next b) ∧
    (b.ns % 100000 = 90000 → (b.loopCore c).open_ = true → ((b.loopCore c).loops.map Prod.fst).Nodup →
      ∃ t, exec (.outputStrobe dt c) s = .next t ∧ (t.loopCore c).open_ = false ∧
        ∀ slot : Nat, (t.loop c slot).due = false ∧ (t.loop c slot).computed = false ∧ (t.loop c slot).u = (b.loop c slot).u ∧
          (t.loop c slot).st = (b.loop c slot).st ∧
          ((b.loop c slot).due = true → (b.loop c slot).computed = false →
            (t.loop c slot).missed = true ∧ (t.loop c slot).missRun = min 3 ((b.loop c slot).missRun + 1)) ∧
          ((b.loop c slot).due = false ∨ (b.loop c slot).computed = true → (t.loop c slot).missRun = (b.loop c slot).missRun))) ∧
  (∀ (s b : State) (dt : Nat) (c : Fin 16) (slot : Fin 1152) (l : Loop), b = s.elapse dt → l = b.loop c slot →
    ((l.st ≠ .acquire ∧ (l.st ≠ .track ∨ l.locked = true)) ∨ l.inBand < lcLockCount (l.record slot) ∨ l.sweep ≠ none →
      exec (.loopLocked dt c slot) s = .next b) ∧
    (l.st = .acquire ∨ (l.st = .track ∧ l.locked = false) → lcLockCount (l.record slot) ≤ l.inBand → l.sweep = none →
      (∀ u ∈ b.loopUnits c slot, (b.unit u).holds = false) → ∃ t, exec (.loopLocked dt c slot) s = .next t ∧
        (t.loop c slot).st = .track ∧ (t.loop c slot).locked = true) ∧
    (l.st ≠ .track ∨ l.locked = false ∨ l.outBand < lcLockCount (l.record slot) → exec (.loopUnlocked dt c slot) s = .next b) ∧
    (l.st = .track → l.locked = true → lcLockCount (l.record slot) ≤ l.outBand → ∃ t, exec (.loopUnlocked dt c slot) s = .next t ∧
      (t.loop c slot).st = .track ∧ (t.loop c slot).locked = false ∧ (∀ other : Nat, other ≠ slot → t.loop c other = b.loop c other)) ∧
    (∀ k ∈ [(Instr.loopAcquireFail dt c slot, l.st = .acquire ∧ l.acquireAt + 1000000 * l.acquireLimit ≤ b.ns),
        (.loopPlausibility dt c slot, l.st ∈ [.acquire, .track] ∧ 8 ≤ l.plausRun),
        (.loopDeadline dt c slot, l.st ∈ [.manual, .acquire, .track] ∧ 3 ≤ l.missRun)],
      (¬k.2 → exec k.1 s = .next b) ∧
      (k.2 → slot.val < 1122 → (b.unit (essentialUnit c slot)).works = true → ∃ t, exec k.1 s = .next t ∧
        (t.loop c slot).st = .fault ∧ (t.eng c (refB (essentialUnit c slot))).stopping = true ∧
        (∀ ch ∈ loopChannels (l.record slot) slot, (t.channel c ch).faultNext = true) ∧ t.units = b.units))) ∧
  (∀ (l : Loop) (slot : Nat) (x : LoopIn) (v : F32), l.st = .acquire → l.sweep = some v → lcFlag (l.record slot) 0 = false →
    Fp.zero.le (x.y.subR (ofF32 (lcF32 (l.record slot) 8))) = false →
    (l.sample slot x).u = v ∧ (l.sample slot x).iAcc = l.iAcc ∧ (l.sample slot x).sweep ≠ none ∧ (l.sample slot x).inBand = l.inBand) ∧
  (∀ (l : Loop) (slot : Nat) (x : LoopIn), l.st ∉ [.manual, .acquire, .track] → (l.sample slot x).u = l.u ∧
    (l.sample slot x).iAcc = l.iAcc ∧ (l.sample slot x).r = l.r) ∧
  (∀ (l : Loop) (slot : Nat) (st : LoopSt) (now limit : Nat), (l.enter slot st now limit).st = st ∧
    (l.enter slot st now limit).locked = false ∧ (l.enter slot st now limit).u = l.u ∧
    ((l.enter slot st now limit).handOver = true ↔ st = .acquire ∨ st = .track))

-- converters (R422 to R445)

/-- Converters, generators and channels (R422, R426, R427, R429, R430, R431, R432, R434, R436, R440, R442, R443). On a tick each
generator advances by FTW, or takes a write that waits at a frame start; each working converter codes its input, clamped; a channel
with a fault takes 0x8000 and is disarmed. OUTPUT moves toward TARGET by up to SLEW_STEP; a QUEUE group delivers its oldest frame or
counts an underrun; a span change ends after 10 us. Arm, write, strobe, queue, record, generator and wheel commands: their checks in order
and what each leaves for the tick. -/
def Obligations.ChannelsAndConvertersFollowTheTick : Prop :=
  (∀ (s b : State) (dt : Nat) (c : Fin 16) (volts refs : List Int), b = s.elapse dt →
    ((b.core c).supply = 0 ∨ b.ns % 500 ≠ 0 → exec (.converterTick dt c volts refs) s = .next b) ∧
    ((b.core c).supply ≠ 0 → b.ns % 500 = 0 → ∃ t, exec (.converterTick dt c volts refs) s = .next t ∧
      (∀ g : Nat, ∀ x : Generator, x = tget (b.conv c).generators g →
        (b.ns % 100000 ≠ 0 ∨ x.next = none →
          tget (t.conv c).generators g = { x with acc := (x.acc + x.ftw) % 2 ^ 32 }) ∧
        (∀ ftw phase : Nat, ∀ enable : Bool, b.ns % 100000 = 0 → x.next = some (ftw, phase, enable) →
          tget (t.conv c).generators g = { ftw := ftw, phase := phase, enable := enable, acc := phase, next := none })) ∧
      (∀ v : Nat, v < 68 → (b.unit (adcRef c v)).out = false →
        tget (t.conv c).codes (8 * v + b.ns / 500 % 8) = (adcCode (volts.getD v 0)).1) ∧
      (∀ ch : Nat, (b.channel c ch).faultNext = true → (b.channel c ch).configNext = none →
        (t.channel c ch).target = 0x8000 ∧ (t.channel c ch).output = 0x8000 ∧ (t.channel c ch).held = none ∧
        (armable ch = true → (t.channel c ch).armed = false)))) ∧
  (∀ uv : Int, (uv < 0 → (adcCode uv).1 = 0) ∧ (2500000 ≤ uv → (adcCode uv).1 = 65535) ∧
    (0 ≤ uv → uv < 2500000 → ((adcCode uv).1 : Int) * 2500000 ≤ uv * 65536 ∧ uv * 65536 < (((adcCode uv).1 : Int) + 1) * 2500000) ∧
    ((adcCode uv).2.1 = true ↔ uv < 0 ∨ 2500000 ≤ uv)) ∧
  (∀ (s b : State) (dt : Nat) (c : Fin 16) (v : Fin 68), b = s.elapse dt →
    ((tget (b.conv c).adcs v).badRefs < 8 ∨ (b.unit (adcRef c v)).works = false → exec (.adcReference dt c v) s = .next b) ∧
    (8 ≤ (tget (b.conv c).adcs v).badRefs → (b.unit (adcRef c v)).works = true → ∃ t, exec (.adcReference dt c v) s = .next t ∧
      t.unit (adcRef c v) = .fenced ∧ (((b.loopCore c).loops.map Prod.fst).Nodup → ∀ slot : Nat,
        adcRef c v ∈ b.loopUnits c slot → (b.loop c slot).st.runs = true → (t.loop c slot).st = .hold))) ∧
  (∀ (s b : State) (dt : Nat) (c : Fin 16) (ch : Fin 1120) (x : Channel), b = s.elapse dt → x = b.channel c ch →
    (b.ns % 500 ≠ 0 ∨ x.output = x.target ∨ x.spanAt ≠ none ∨ x.wait ≠ 0 → exec (.slewMove dt c ch) s = .next b) ∧
    (b.ns % 500 = 0 → x.output ≠ x.target → x.spanAt = none → x.wait = 0 → ∃ t y, exec (.slewMove dt c ch) s = .next t ∧
      y = t.channel c ch ∧ y.target = x.target ∧ (∀ k : Nat, k = ccStep (x.record ch) →
        (k = 0 → y.output = x.target) ∧ (k ≠ 0 → x.output < x.target → y.output = min x.target (x.output + k)) ∧
        (k ≠ 0 → x.target < x.output → y.output = max x.target (x.output - k))) ∧
      y.wait = (if y.output = x.target then 0 else ccPeriod (x.record ch)) ∧
      ∀ other : Nat, other ≠ ch → t.channel c other = b.channel c other) ∧
    (x.spanAt = none → exec (.spanChangeEnd dt c ch) s = .next b) ∧
    (∀ at_ : Nat, x.spanAt = some at_ →
      (b.up < at_ + 10000000 → exec (.spanChangeEnd dt c ch) s = .next b) ∧
      (at_ + 10000000 ≤ b.up → ∃ t, exec (.spanChangeEnd dt c ch) s = .next t ∧ (t.channel c ch).spanAt = none ∧
        (t.channel c ch).output = x.output ∧ (t.channel c ch).target = x.target)) ∧
    (∀ cause : DriverFault,
      (armable ch = false ∨ b.standsBy c ch = true ∨ x.armed = false → exec (.dacDriverFault dt c ch cause) s = .next b) ∧
      (armable ch = true → b.standsBy c ch = false → x.armed = true → b.channelLoops c ch = [] →
        ∃ t, exec (.dacDriverFault dt c ch cause) s = .next t ∧ (t.channel c ch).driverFault = true ∧
          (t.channel c ch).faultNext = true ∧ t.units = b.units))) ∧
  (∀ (s b : State) (dt : Nat) (c : Fin 16) (g : Fin 35) (x : DacGroup), b = s.elapse dt → x = (b.conv c).group g →
    (b.ns % 500 ≠ 0 ∨ x.queueMode = false ∨ x.ticks < x.period ∨ b.groupOut c g = true → exec (.queueTick dt c g) s = .next b) ∧
    (b.ns % 500 = 0 → x.queueMode = true → x.period ≤ x.ticks → b.groupOut c g = false →
      (x.queue = [] → ∃ t, exec (.queueTick dt c g) s = .next t ∧ (t.conv c).channels = (b.conv c).channels ∧
        (t.conv c).group g = { x with ticks := 0, underrun := true }) ∧
      (∀ f rest, x.queue = f :: rest → ∃ t, exec (.queueTick dt c g) s = .next t ∧
        (t.conv c).group g = { x with ticks := 0, underrun := false, queue := rest } ∧
        ∀ i : Nat, i < 32 → ∀ r : Nat, r = (b.channel c (32 * g + i)).record (32 * g + i) →
          (t.channel c (32 * g + i)).target = max (ccLow r) (min (ccHigh r) (f.getD i 0)) ∧
          (t.channel c (32 * g + i)).output = (b.channel c (32 * g + i)).output))) ∧
  (∀ (s b : State) (dt n : Nat) (road : Road) (c : Fin 16) (w : BitVec 32) (via : Via), b = s.elapse dt → n = w.toNat →
    via = viaOf road (dacIdx c) 6 →
    (bitOf n 12 = false → exec (.arm dt road c w) s = .next b) ∧ (bitOf n 12 = true → exec (.disarm dt road c w) s = .next b) ∧
    (b.admits road (dacIdx c) 6 (leBytes 4 n) → ∀ i : Instr, i = (if bitOf n 12 then .arm dt road c w else .disarm dt road c w) →
      ∀ barred : Prop, barred = (∃ ch ∈ armTargets n, b.groupOut c (groupOf ch) = true ∨ b.standsBy c ch = true ∨
        (bitOf n 12 = true ∧ (b.bayOpen c ch = true ∨ b.channelLoops c ch ≠ []))) →
      (8192 ≤ n ∨ armTargets n = [] ∨ (bitOf n 12 = true ∧ ∃ ch ∈ armTargets n, armable ch = false) →
        exec i s = .next (b.reply via (dacIdx c) 6 0x06090030)) ∧
      (n < 8192 → armTargets n ≠ [] → (bitOf n 12 = true → ∀ ch ∈ armTargets n, armable ch = true) →
        (barred → exec i s = .next (b.reply via (dacIdx c) 6 0x08000022)) ∧
        (¬barred → ∃ t, exec i s = .next t ∧ ∀ ch : Nat, t.channel c ch =
          (if ch ∈ armTargets n then { b.channel c ch with armNext := some (bitOf n 12) } else b.channel c ch))))) ∧
  (∀ (s b : State) (dt ch r : Nat) (road : Road) (c : Fin 16) (data : List Byte), b = s.elapse dt → ch = field data 0 2 →
    r = field data 4 16 →
    (b.admits road (dacIdx c) 5 data → ∀ barred : Prop, barred = (b.groupOut c (groupOf ch) = true ∨ b.standsBy c ch = true ∨
        b.channelLoops c ch ≠ [] ∨ ((b.conv c).group (groupOf ch)).queueMode = true) →
      (1120 ≤ ch → exec (.channelWrite dt road c data) s = .next (b.reply (viaOf road (dacIdx c) 5) (dacIdx c) 5 0x06090030)) ∧
      (ch < 1120 → barred →
        exec (.channelWrite dt road c data) s = .next (b.reply (viaOf road (dacIdx c) 5) (dacIdx c) 5 0x08000022)) ∧
      (ch < 1120 → ¬barred → ∃ t, exec (.channelWrite dt road c data) s = .next t ∧
        t.channel c ch = { b.channel c ch with held := some (field data 2 2) })) ∧
    (b.admits road (dacIdx c) 3 data → ∀ x : Channel, x = b.channel c ch → ∀ span : Prop,
        span = (ccSpan r ≠ ccSpan (x.configNext.getD (x.record ch))) →
      (1120 ≤ ch ∨ field data 2 2 ≠ 0 ∨ channelRecordOk r = false →
        exec (.channelConfigWrite dt road c data) s = .next (b.reply (viaOf road (dacIdx c) 3) (dacIdx c) 3 0x06090030)) ∧
      (ch < 1120 → field data 2 2 = 0 → channelRecordOk r = true →
        (b.groupOut c (groupOf ch) = true ∨ (span ∧ ((armable ch = true ∧ x.armed = true) ∨ x.spanAt ≠ none ∨
          ∃ l ∈ b.channelLoops c ch, l.2 ≠ .manual)) →
          exec (.channelConfigWrite dt road c data) s = .next (b.reply (viaOf road (dacIdx c) 3) (dacIdx c) 3 0x08000022)) ∧
        (b.groupOut c (groupOf ch) = false → ¬span → ∃ t, exec (.channelConfigWrite dt road c data) s = .next t ∧
          t.channel c ch = { x with configNext := some r })))) ∧
  (∀ (s b : State) (dt n : Nat) (road : Road) (c : Fin 16) (w : BitVec 64) (data : List Byte) (value : BitVec 8), b = s.elapse dt →
    n = w.toNat →
    (b.admits road (dacIdx c) 8 (leBytes 8 n) →
      (2 ^ 35 ≤ n → exec (.groupStrobe dt road c w) s = .next (b.reply (viaOf road (dacIdx c) 8) (dacIdx c) 8 0x06090030)) ∧
      (n < 2 ^ 35 → (∃ g, g < 35 ∧ bitOf n g = true ∧ b.groupOut c g = true) →
        exec (.groupStrobe dt road c w) s = .next (b.reply (viaOf road (dacIdx c) 8) (dacIdx c) 8 0x08000022)) ∧
      (n < 2 ^ 35 → (∀ g, g < 35 → bitOf n g = true → b.groupOut c g = false) →
        ∃ t, exec (.groupStrobe dt road c w) s = .next t ∧ ∀ g : Nat, g < 35 → ((t.conv c).group g).strobe =
          (((b.conv c).group g).strobe || (bitOf n g && !((b.conv c).group g).queueMode)))) ∧
    (b.admits road (dacIdx c) 9 data → ∀ g k : Nat, g = field data 0 1 → data.length = 4 + 64 * k → 1 ≤ k → k ≤ 256 →
      field data 1 3 = 0 → g < 35 → b.groupOut c g = false →
      (256 < ((b.conv c).group g).queue.length + k →
        exec (.queueWrite dt road c data) s = .next (b.reply (viaOf road (dacIdx c) 9) (dacIdx c) 9 0x08000020)) ∧
      (((b.conv c).group g).queue.length + k ≤ 256 → ∃ t, exec (.queueWrite dt road c data) s = .next t ∧
        ((t.conv c).group g).queue = ((b.conv c).group g).queue ++ (List.range k).map (frameCodes data))) ∧
    (b.admits road (0x6400 + c) 2 data → ∀ g : Nat, g = field data 0 1 → ∀ ok : Prop, ok = (g < 64 ∧ field data 1 3 = 0 ∧
        field data 4 4 ≤ 0x40000000 ∧ field data 12 1 ≤ 1 ∧ field data 13 7 = 0) →
      (¬ok → exec (.generatorWrite dt road c data) s = .next (b.reply (viaOf road (0x6400 + c) 2) (0x6400 + c) 2 0x06090030)) ∧
      (ok → ∃ t, exec (.generatorWrite dt road c data) s = .next t ∧ tget (t.conv c).generators g =
        { tget (b.conv c).generators g with next := some (field data 4 4, field data 8 4, field data 12 1 = 1) })) ∧
    (b.admits road (adcIdx c) 7 (leBytes 1 value.toNat) →
      (b.convertersOut c = true →
        exec (.wheelRun dt road c value) s = .next (b.reply (viaOf road (adcIdx c) 7) (adcIdx c) 7 0x08000022)) ∧
      (b.convertersOut c = false → ∃ t, exec (.wheelRun dt road c value) s = .next t ∧
        (bitOf value.toNat 0 = true → (t.conv c).wheel = [] ∧ (t.conv c).wheelPos = 0 ∧ (t.conv c).wheelArmed = true) ∧
        (bitOf value.toNat 0 = false → t.conv c = b.conv c))))

-- thermal protection (R449 to R462)

/-- Sensors, zones, throttling, shutdown and hard trips (R450, R452, R454, R455, R457, R458, R459, R460, R461, R462). A sample joins the
last five; one out of range, or a failed self-check, breaks its sensor. A broken sensor puts a cool zone into THROTTLE at level 1 and
leaves a throttled one as it is; the second takes a cartridge out of service. A zone follows its reading up and down; a stack's SHUTDOWN is
immediate when the prediction is below 5 ms. Each interval deepens, relaxes or keeps the level, and level 0 after 20 ms gives WARNING. A core that
stops in order loses its supply at its vector boundary, a stack is fenced once idle, and a hard trip acts at once. -/
def Obligations.ZonesFollowTheirSensors : Prop :=
  (∀ (s b : State) (dt n : Nat) (readings : List SensorRead), b = s.elapse dt → n = min 238 readings.length →
    (b.run.st = .off → exec (.sensorSample dt readings) s = .next b) ∧
    (b.run.st ≠ .off → ∃ t, exec (.sensorSample dt readings) s = .next t ∧
      t = forRange 62 (forRange n (forRange n b (fun s i => s.readSensor i (readings.getD i .missing))) State.deviation)
        State.zoneStep)) ∧
  (∀ (s : State) (i : Nat) (v : Int), -400 ≤ v → v ≤ 2000 →
    ((s.readSensor i (.value v)).sensor i).samples = (v :: (s.sensor i).samples).take 5 ∧
    ((s.readSensor i (.value v)).sensor i).broken = (s.sensor i).broken ∧ (s.readSensor i (.value v)).zones = s.zones ∧
    ∀ other : Nat, other ≠ i → (s.readSensor i (.value v)).sensor other = s.sensor other) ∧
  (∀ (s : State) (i z : Nat), i < 237 → z = zoneOf i → (s.sensor i).broken = false →
    (∀ r ∈ [SensorRead.value (-401), .value 2001, .selfCheckFailed], (s.zone z).st = .throttle →
      (∀ k ∈ zoneSensors z, k ≠ i → (s.sensor k).broken = false) →
      ((s.readSensor i r).sensor i).broken = true ∧ (s.readSensor i r).zone z = s.zone z) ∧
    ((s.zone z).st = .normal ∨ (s.zone z).st = .warning → (∀ k ∈ zoneSensors z, k ≠ i → (s.sensor k).broken = false) →
      ((s.breakSensor i).sensor i).broken = true ∧ ((s.breakSensor i).zone z).st = .throttle ∧
      ((s.breakSensor i).zone z).level = 1 ∧ (s.breakSensor i).units = s.units) ∧
    (53 ≤ z → z < 61 → (s.zone z).st ∈ [.normal, .warning, .throttle] → (∃ k ∈ zoneSensors z, k ≠ i ∧ (s.sensor k).broken = true) →
      ((s.breakSensor i).zone z).st = .outOfService ∧ ((s.breakSensor i).cart (z - 53)).disarmed = true)) ∧
  (∀ (s : State) (z : Nat) (r : Int) (l : Limits), z < 62 → l = limits z → s.zoneReading z = some r →
    ((s.zone z).st = .tripped ∨ (s.zone z).st = .outOfService → ((s.zoneStep z).zone z).st = (s.zone z).st ∧
      (s.zoneStep z).run = s.run ∧ (s.zoneStep z).units = s.units) ∧
    ((∀ h, s.zoneHot z = some h → h < l.shutdown) →
      ((s.zone z).st ∈ [.normal, .warning] → l.throttle ≤ r →
        ((s.zoneStep z).zone z).st = .throttle ∧ ((s.zoneStep z).zone z).level = 1) ∧
      ((s.zone z).st = .normal → r < l.throttle → ((s.zoneStep z).zone z).st = (if l.warning ≤ r then .warning else .normal)) ∧
      ((s.zone z).st = .warning → r < l.throttle → ((s.zoneStep z).zone z).st =
        (if r < l.warning - l.hysteresis ∧ (s.zone z).since + 20000000000 ≤ s.up then .normal else .warning)) ∧
      ((s.zone z).st = .throttle → ((s.zoneStep z).zone z).st = .throttle ∧
        ((s.zoneStep z).zone z).level = (s.zone z).level)) ∧
    (∀ h, s.zoneHot z = some h → l.shutdown ≤ h → (s.zone z).st ∈ [.normal, .warning, .throttle] → 33 ≤ z → z < 53 →
      ∀ past : List (Nat × Int), past = (s.up, h) :: (s.zone z).history.filter (fun e => s.up ≤ e.1 + 5000000000) →
      ((s.zoneStep z).zone z).st = .shutdown ∧ ((s.zoneStep z).zone z).immediate = !orderly z past ∧
      (orderly z past = true → (s.zoneStep z).units = s.units))) ∧
  (∀ (s b : State) (dt : Nat) (m : Fin 20) (i : Fin 238), b = s.elapse dt →
    ((b.sensor (200 + m)).missingSince = none → exec (.hbmReportTimeout dt m) s = .next b) ∧
    (∀ at_ : Nat, (b.sensor (200 + m)).missingSince = some at_ →
      (b.up < at_ + 10000000000 → exec (.hbmReportTimeout dt m) s = .next b) ∧
      (at_ + 10000000000 ≤ b.up → (b.sensor (200 + m)).broken = false → (b.zone (33 + m)).st = .normal →
        ∃ t, exec (.hbmReportTimeout dt m) s = .next t ∧ (t.sensor (200 + m)).broken = true ∧
          (t.zone (33 + m)).st = .throttle ∧ (t.zone (33 + m)).level = 1)) ∧
    ((b.sensor i).deviatesSince = none → exec (.sensorDeviationTimeout dt i) s = .next b) ∧
    (∀ at_ : Nat, (b.sensor i).deviatesSince = some at_ →
      (b.up < at_ + 100000000000 → exec (.sensorDeviationTimeout dt i) s = .next b) ∧
      (at_ + 100000000000 ≤ b.up → ∃ t, exec (.sensorDeviationTimeout dt i) s = .next t ∧ t = b.breakSensor i))) ∧
  (∀ (s b : State) (dt : Nat) (z : Fin 62) (x : Zone) (l : Limits), b = s.elapse dt → x = b.zone z → l = limits z →
    (x.st ≠ .throttle ∨ b.up < x.nextAt → exec (.throttleEvaluation dt z) s = .next b) ∧
    (x.st = .throttle → x.nextAt ≤ b.up → ∀ deeper cool : Prop,
      deeper = (∃ h, b.zoneHot z = some h ∧ l.throttle ≤ h ∧ x.hotPrev - 5 < h) →
      cool = (∃ r, b.zoneReading z = some r ∧ r < l.throttle - l.hysteresis) → 1 ≤ x.level →
      (deeper → ∃ t, exec (.throttleEvaluation dt z) s = .next t ∧ (t.zone z).st = .throttle ∧
        (t.zone z).level = min 6 (x.level + 1)) ∧
      (¬deeper → cool → 2 ≤ x.level ∨ b.up < x.since + 20000000000 → ∃ t, exec (.throttleEvaluation dt z) s = .next t ∧
        (t.zone z).st = .throttle ∧ (t.zone z).level = max 1 (x.level - 1)) ∧
      (¬deeper → cool → x.level = 1 → x.since + 20000000000 ≤ b.up → ∃ t, exec (.throttleEvaluation dt z) s = .next t ∧
        (t.zone z).st = .warning ∧ (t.zone z).level = 0) ∧
      (¬deeper → ¬cool → ∃ t, exec (.throttleEvaluation dt z) s = .next t ∧ (t.zone z).st = .throttle ∧
        (t.zone z).level = x.level))) ∧
  (∀ (s b : State) (dt : Nat) (c : Fin 16) (m : Fin 20), b = s.elapse dt →
    (b.coreStops c = false ∨ (b.core c).supplyCut = true ∨ (b.core c).supply = 0 ∨ b.coreQuiet c = false →
      exec (.coreOrderlyStop dt c) s = .next b) ∧
    (b.coreStops c = true → (b.core c).supplyCut = false → (b.core c).supply ≠ 0 → b.coreQuiet c = true →
      (b.zone (53 + c / 2)).st ≠ .shutdown → ∃ t, exec (.coreOrderlyStop dt c) s = .next t ∧ (t.core c).supply = 0 ∧
        (t.core c).supplyCut = true ∧ (t.unit (coreRef c) = .fenced ∨ t.unit (coreRef c) = .retired) ∧ t.run = b.run) ∧
    (b.stackStops m = false ∨ b.stackIdle m = false ∨ b.unit (stackRef m) = .fenced → exec (.stackPowerDown dt m) s = .next b) ∧
    (b.stackStops m = true → b.stackIdle m = true → b.unit (stackRef m) ≠ .fenced →
      ∃ t, exec (.stackPowerDown dt m) s = .next t ∧ t.unit (stackRef m) = .fenced ∧ t.zones = b.zones)) ∧
  (∀ (s b : State) (dt : Nat), b = s.elapse dt →
    (b.run.handoverAt = none ∨ b.run.st ≠ .shutdown ∨ b.run.downStep ≠ 3 → exec (.shutdownHandoverLimit dt) s = .next b) ∧
    (∀ at_ : Nat, b.run.handoverAt = some at_ → b.run.st = .shutdown → b.run.downStep = 3 →
      (b.up < at_ + b.run.handoverLimit * 1000000000 → exec (.shutdownHandoverLimit dt) s = .next b) ∧
      (at_ + b.run.handoverLimit * 1000000000 ≤ b.up → ∃ t, exec (.shutdownHandoverLimit dt) s = .next t ∧
        t = (b.sendTwin 4).powerOff 1 ∧ t.run.st = .off))) ∧
  (∀ (s b : State) (dt : Nat) (z : Fin 62) (powered : Bool), b = s.elapse dt →
    ((limits z).trip = none ∨ (b.zone z).st = .tripped ∨ b.run.st = .off → exec (.thermalHardTrip dt z powered) s = .next b) ∧
    ((limits z).trip ≠ none → (b.zone z).st ≠ .tripped → b.run.st ≠ .off → ∃ t, exec (.thermalHardTrip dt z powered) s = .next t ∧
      (z.val < 32 → (t.zone z).st = .tripped ∧ (t.core (z.val / 2)).supply = 0 ∧ (t.core (z.val / 2)).supplyCut = true) ∧
      (z.val = 32 → t.run.st = .off) ∧
      (32 < z.val → (t.zone z).st = .tripped ∧ (t.cart (z.val - 53)).disarmed = true)))

-- background work and repair (R468 to R476)

/-- Background work and repair commands (R72, R470, R471, R472, R476, R494). A LIVE bank whose period has passed falls due at every b that was
calibrated. A scrub goes on to the next line, and counts the words with one bit wrong. The
snapshot keeps the differences since the last. FENCE, TEST, RETIRE and UNRETIRE: reserved bytes, units that do not exist and
kinds not accepted are refused with 0x06090030, ports, units under a command and states not allowed with 0x08000022. A test, asked for
or automatic, ends READY on a pass and REPAIR on a fail. -/
def Obligations.BackgroundWorkAndRepairCommands : Prop :=
  (∀ (s b : State) (dt : Nat) (c : Fin 16) (e : Fin 34) (plane : Fin 2) (p : Plane), b = s.elapse dt → p = (b.eng c e).plane plane →
    (p.st ≠ .live ∨ p.calibrated = [] ∨ b.up < p.calAt + b.val 0x4003 1 * 1000000000000 →
      exec (.recalibrationDue dt c e plane) s = .next b) ∧
    (p.st = .live → p.calibrated ≠ [] → p.calAt + b.val 0x4003 1 * 1000000000000 ≤ b.up →
      ∃ t, exec (.recalibrationDue dt c e plane) s = .next t ∧
        (∀ k ∈ p.calibrated, ∃ d ∈ ((t.eng c e).plane plane).calDue, d.1 = k) ∧
        ((t.eng c e).plane plane).st = .live ∧ t.units = b.units)) ∧
  (∀ (s b : State) (dt a : Nat) (c : Fin 16) (singles doubles : List Nat), b = s.elapse dt → a = (b.core c).scrub →
    ((b.core c).supply = 0 → exec (.storeScrub dt c singles doubles) s = .next b) ∧
    ((b.core c).supply ≠ 0 → ∃ t, exec (.storeScrub dt c singles doubles) s = .next t ∧ (t.core c).scrub = (a + 64) % storeSize ∧
      (lineWords doubles = [] → t.mem = b.mem ∧ (lineWords singles ≠ [] →
        t.val (coreIdx c) 0x0A = wrapAdd 8 (b.val (coreIdx c) 0x0A) (lineWords singles).length)))) ∧
  (∀ (s b : State) (dt a : Nat) (m : Fin 20) (singles doubles : List Nat), b = s.elapse dt → a = tget b.stackScrub m →
    ((b.unit (stackRef m)).works = false → exec (.hbmScrub dt m singles doubles) s = .next b) ∧
    ((b.unit (stackRef m)).works = true → ∃ t, exec (.hbmScrub dt m singles doubles) s = .next t ∧
      tget t.stackScrub m = (a + 64) % stackSize ∧ (lineWords doubles = [] → t.mem = b.mem ∧ t.units = b.units ∧
        (lineWords singles ≠ [] → t.val (0x5900 + m) 2 = wrapAdd 8 (b.val (0x5900 + m) 2) (lineWords singles).length)))) ∧
  (∀ (s b : State) (dt energy : Nat), b = s.elapse dt →
    (b.run.st ∈ [.off, .boot] ∨ b.ns < field b.events.statistics 0 8 + 1000000 * b.val 0x4003 5 →
      exec (.telemetrySnapshot dt energy) s = .next b) ∧
    (b.run.st ∉ [.off, .boot] → field b.events.statistics 0 8 + 1000000 * b.val 0x4003 5 ≤ b.ns →
      ∃ t, exec (.telemetrySnapshot dt energy) s = .next t ∧ t.events.statBase = b.counts ∧
        field t.events.statistics 0 8 = b.ns % 2 ^ 64 ∧ field t.events.statistics 24 8 = energy % 2 ^ 64 ∧
        field t.events.statistics 8 8 = (b.counts.getD 0 0 - b.events.statBase.getD 0 0) % 2 ^ 64)) ∧
  (∀ (s b : State) (dt r : Nat) (road : Road) (data : List Byte) (via : Via), b = s.elapse dt → r = rcUnit data →
    via = viaOf road 0x4004 1 →
    (∀ k ∈ [(Instr.repairFence dt road data, 1, UnitSt.works), (.repairTest dt road data, 2, fun u => u = .repair || u = .fenced),
        (.repairRetire dt road data, 3, fun u => u != .retired), (.repairUnretire dt road data, 4, fun u => u = .retired)],
      (rcCmd data ≠ k.2.1 → exec k.1 s = .next b) ∧
      (rcCmd data = k.2.1 → b.admits road 0x4004 1 data →
        (field data 5 3 ≠ 0 ∨ refExists r = false ∨ (refKind r ≠ 0xA ∧ rcKind k.2.1 (refKind r) = false) →
          exec k.1 s = .next (b.reply via 0x4004 1 0x06090030)) ∧
        (field data 5 3 = 0 → refExists r = true → refKind r = 0xA →
          exec k.1 s = .next (b.reply via 0x4004 1 0x08000022)) ∧
        (field data 5 3 = 0 → refExists r = true → refKind r ≠ 0xA → rcKind k.2.1 (refKind r) = true →
          b.busyUnit r = true ∨ k.2.2 (b.unit r) = false → exec k.1 s = .next (b.reply via 0x4004 1 0x08000022)))) ∧
    (b.admits road 0x4004 1 data → field data 5 3 = 0 → refExists r = true → refKind r ≠ 0xA →
      rcKind (rcCmd data) (refKind r) = true → b.busyUnit r = false →
      (rcCmd data = 1 → (b.unit r).works = true → refKind r ≠ 0xC → ∃ t, exec (.repairFence dt road data) s = .next t ∧
        t.unit r = .repair ∧ (refKind r ∈ [3, 4, 5, 6] → ∀ j : Nat, (∃ c ∈ b.jobCores j, r ∈ b.coreUnits c) →
          (b.job j).step ≠ none → ∃ x, (t.job j).step = some x ∧ x.stopped ≠ 0)) ∧
      (rcCmd data = 2 → b.unit r = .repair ∨ b.unit r = .fenced → ∃ t, exec (.repairTest dt road data) s = .next t ∧
        (tget t.units r).command = 2 ∧ t.unit r = b.unit r ∧ t.busyUnit r = true ∧ t.val 0x4004 2 = r) ∧
      (rcCmd data = 3 → b.unit r ≠ .retired → refKind r ≠ 0xB ∨ (b.jobs = [] ∧ b.streams = []) → ∃ t, exec (.repairRetire dt road data) s = .next t ∧
        t.unit r = .retired ∧ (tget t.units r).retiredNv = true) ∧
      (rcCmd data = 4 → b.unit r = .retired →
        (refKind r = 0xB → b.run.st ≠ .standby →
          exec (.repairUnretire dt road data) s = .next (b.reply via 0x4004 1 0x08000022)) ∧
        (refKind r ≠ 0xB ∨ b.run.st = .standby → ∃ t, exec (.repairUnretire dt road data) s = .next t ∧ t.unit r = .repair ∧
          (tget t.units r).retiredNv = false)))) ∧
  (∀ (s b : State) (dt r : Nat) (u : UnitRef) (passed : Bool), b = s.elapse dt → r = UnitRef.code u → ∀ asked : Prop,
    asked = ((tget b.units r).command = 2 ∧ (b.unit r = .repair ∨ b.unit r = .fenced) ∧ refKind r ≠ 0xA) →
    (refExists r = false ∨ (¬asked ∧ b.autoTests r = false) → exec (.repairTestDone dt u passed) s = .next b) ∧
    (refExists r = true → asked ∨ b.autoTests r = true → ∃ t, exec (.repairTestDone dt u passed) s = .next t ∧
      (tget t.units r).command = 0 ∧ (tget t.units r).autoTested = true ∧ t.unit r = (if passed then .ready else .repair)))

/-- Cartridge bays and the waiting HELLO (R270, R333, R477, R478, R481). Opening the latch keeps its time, fences both fed cores and puts the
cartridge's loops on hold; the interlock then disarms the lasers and keeps the worst time to dark. A bay is emptied only once
unlatched. A latched cartridge's serial and hours are read; from WARMING on both cores start again on it, earlier nothing starts. A
HELLO that waited is answered once the signature interval is over, once for a nonce. -/
def Obligations.CartridgesOpenLatchAndLeave : Prop :=
  (∀ (s b : State) (dt : Nat) (l : Fin 8), b = s.elapse dt →
    ((b.cart l).latch ≠ 1 → exec (.cartridgeUnlatch dt l) s = .next b) ∧
    ((b.cart l).latch = 1 → ∃ t, exec (.cartridgeUnlatch dt l) s = .next t ∧ (t.cart l).latch = 2 ∧ (t.cart l).openedAt = b.up ∧
      (b.run.st = .off → t.units = b.units) ∧
      (b.run.st ≠ .off → ∀ c ∈ [2 * l.val, 2 * l.val + 1], b.unit (coreRef c) = .starting ∨ (b.unit (coreRef c)).works = true →
        t.unit (coreRef c) = .fenced ∧ (t.core c).warmStep = 0) ∧
      (b.run.st ≠ .off → (b.unit (cartRef l)).works = true → t.unit (cartRef l) = .fenced ∧
        ∀ k : Nat, k < 17 → (b.loop (b.hostCore l) (1124 + k)).st.runs = true →
          (t.loop (b.hostCore l) (1124 + k)).st = .hold)) ∧
    ((b.cart l).latch = 1 ∨ (b.cart l).disarmed = true → exec (.laserInterlockCut dt l) s = .next b) ∧
    ((b.cart l).latch ≠ 1 → (b.cart l).disarmed = false → ∃ t, exec (.laserInterlockCut dt l) s = .next t ∧
      (t.cart l).disarmed = true ∧ (t.cart l).latch = (b.cart l).latch ∧
      (∀ c ∈ [2 * l.val, 2 * l.val + 1], ∀ k : Nat, k < 16 → (t.channel c (1088 + k)).armed = false ∧
        (t.channel c (1088 + k)).armNext = none) ∧
      (b.run.st ≠ .off → ∀ old new : Nat, old = b.val (0x5800 + l) 9 → new = min 65535 ((b.up - (b.cart l).openedAt) / 1000000) →
        t.val (0x5800 + l) 9 = max old new)) ∧
    ((b.cart l).latch ≠ 2 → exec (.cartridgeRemoved dt l) s = .next b) ∧
    ((b.cart l).latch = 2 → ∃ t, exec (.cartridgeRemoved dt l) s = .next t ∧ (t.cart l).latch = 0 ∧ (t.cart l).serial = 0 ∧
      (t.cart l).hours = 0 ∧ t.units = b.units ∧ ∀ other : Nat, other ≠ l → t.cart other = b.cart other)) ∧
  (∀ (s b : State) (dt : Nat) (l : Fin 8) (serial : BitVec 96) (hours : BitVec 32), b = s.elapse dt →
    ((b.cart l).latch = 1 → exec (.cartridgeLatch dt l serial hours) s = .next b) ∧
    ((b.cart l).latch ≠ 1 → ∃ t, exec (.cartridgeLatch dt l serial hours) s = .next t ∧ (t.cart l).latch = 1 ∧
      (t.cart l).serial = serial.toNat ∧ (t.cart l).hours = hours.toNat ∧
      (b.run.st ∈ [.off, .boot, .standby, .shutdown] → t.units = b.units) ∧
      (b.run.st ∉ [.off, .boot, .standby, .shutdown] → (t.cart l).disarmed = false ∧
        ∀ c ∈ [2 * l.val, 2 * l.val + 1], b.unit (coreRef c) = .offline ∨ b.unit (coreRef c) = .fenced →
          t.unit (coreRef c) = .starting))) ∧
  (∀ (s b : State) (dt : Nat), b = s.elapse dt →
    (b.twin.st ≠ .forming ∨ b.twin.partnerNonce = [] ∨ b.twin.answered = true ∨ b.signWait ≠ 0 ∨ leafCount ≤ b.leaf →
      exec (.signatureIntervalEnd dt) s = .next b) ∧
    (b.twin.st = .forming → b.twin.partnerNonce ≠ [] → b.twin.answered = false → b.signWait = 0 → b.leaf < leafCount →
      ∃ t frame signature, exec (.signatureIntervalEnd dt) s = .next t ∧
        t.out = b.out ++ [.hello b.twin.helloPort frame (b.reportHead b.twin.partnerNonce ++ signature)] ∧
        t.twin.answered = true ∧ t.security.lastSignature = some b.up ∧
        (65536 ≤ leafCount - (b.leaf + 1) → t.val 0x3110 3 = b.leaf + 1)))
end

