-- ==== Sys2Proof/Laws/Tables.lean ====
section
/-! SUPPORT. Laws of the sparse tables and of the memory: a read after a write, every other place left alone, and the canonical
form kept by each operation. -/

namespace Sys2Proof.Machine

variable {α : Type}

-- tables

theorem tput_keys (t : Tbl α) (i : Nat) (a : α) {c : Nat × α} (h : c ∈ tput t i a) : c = (i, a) ∨ c ∈ t := by
  induction t with
  | nil => exact .inl (List.mem_singleton.1 h)
  | cons x t ih =>
    obtain ⟨k, b⟩ := x
    simp only [tput] at h
    split at h
    · exact List.mem_cons.1 h
    · split at h
      · exact (List.mem_cons.1 h).imp id (List.mem_cons_of_mem _)
      · rcases List.mem_cons.1 h with h | h
        · exact .inr (h ▸ List.mem_cons_self)
        · exact (ih h).imp id (List.mem_cons_of_mem _)

theorem tput_rising (t : Tbl α) (i : Nat) (a : α) (h : t.Pairwise (fun x y => x.1 < y.1)) :
    (tput t i a).Pairwise (fun x y => x.1 < y.1) := by
  induction t with
  | nil => exact List.pairwise_singleton _ _
  | cons x t ih =>
    obtain ⟨k, b⟩ := x
    obtain ⟨hk, hp⟩ := List.pairwise_cons.1 h
    simp only [tput]
    split
    · rename_i hi
      refine List.pairwise_cons.2 ⟨fun c hc => ?_, h⟩
      rcases List.mem_cons.1 hc with rfl | hc
      · exact hi
      · exact Nat.lt_trans hi (hk c hc)
    · split
      · subst i
        exact List.pairwise_cons.2 ⟨hk, hp⟩
      · refine List.pairwise_cons.2 ⟨fun c hc => ?_, ih hp⟩
        rcases tput_keys t i a hc with rfl | hc
        · show k < i
          omega
        · exact hk c hc

/-- Setting a value keeps the canonical form. -/
theorem tsetD_wf [DecidableEq α] (d : α) (t : Tbl α) (i : Nat) (a : α)
    (h : t.Pairwise (fun x y => x.1 < y.1) ∧ ∀ c ∈ t, c.2 ≠ d) :
    (tsetD d t i a).Pairwise (fun x y => x.1 < y.1) ∧ ∀ c ∈ tsetD d t i a, c.2 ≠ d := by
  unfold tsetD
  split
  · exact ⟨h.1.filter _, fun c hc => h.2 c (List.mem_filter.1 hc).1⟩
  · refine ⟨tput_rising t i a h.1, fun c hc => ?_⟩
    rcases tput_keys t i a hc with rfl | hc
    · assumption
    · exact h.2 c hc

theorem tgetD_tput (d : α) (t : Tbl α) (i j : Nat) (a : α) : tgetD d (tput t i a) j = if j = i then a else tgetD d t j := by
  induction t with
  | nil => rfl
  | cons x t ih =>
    obtain ⟨k, b⟩ := x
    simp only [tput]
    split
    · rfl
    · split
      · subst i
        simp only [tgetD]
        split <;> rfl
      · simp only [tgetD, ih]
        split
        · subst j
          split
          · subst i; contradiction
          · rfl
        · rfl

theorem tgetD_filter (d : α) (t : Tbl α) (i j : Nat) :
    tgetD d (t.filter (fun x => x.1 ≠ i)) j = if j = i then d else tgetD d t j := by
  induction t with
  | nil => split <;> rfl
  | cons x t ih =>
    obtain ⟨k, b⟩ := x
    by_cases hk : k = i
    · subst k
      simp only [ne_eq, not_true, decide_false, List.filter_cons, Bool.false_eq_true, if_false, tgetD]
      rw [ih]
      split <;> rfl
    · simp only [List.filter_cons, ne_eq, hk, not_false_eq_true, decide_true, if_true, tgetD, ih]
      split
      · subst j
        rw [if_neg hk]
      · rfl

/-- What was set is read back, and every other key reads as before. -/
theorem tgetD_tsetD [DecidableEq α] (d : α) (t : Tbl α) (i j : Nat) (a : α) :
    tgetD d (tsetD d t i a) j = if j = i then a else tgetD d t j := by
  unfold tsetD
  split
  · rename_i h
    rw [tgetD_filter, h]
  · exact tgetD_tput d t i j a

theorem tget_tset [Inhabited α] [DecidableEq α] (t : Tbl α) (i j : Nat) (a : α) :
    tget (tset t i a) j = if j = i then a else tget t j := tgetD_tsetD _ t i j a

theorem tget_tmod [Inhabited α] [DecidableEq α] (t : Tbl α) (i j : Nat) (f : α → α) :
    tget (tmod t i f) j = if j = i then f (tget t i) else tget t j := tgetD_tsetD _ t i j _

/-- The same for a table that is looked up with `tfind`. -/
theorem tfind_tput (t : Tbl α) (i j : Nat) (a : α) : tfind (tput t i a) j = if j = i then some a else tfind t j := by
  induction t with
  | nil =>
    simp only [tput, tfind, eq_comm]
  | cons x t ih =>
    obtain ⟨k, b⟩ := x
    simp only [tput]
    split
    · simp only [tfind, @eq_comm _ i j]
    · split
      · subst i
        simp only [tfind, @eq_comm _ k j]
        split <;> rfl
      · simp only [tfind, ih]
        split
        · subst j
          split
          · subst i; contradiction
          · rfl
        · rfl

theorem tfind_filter (t : Tbl α) (i j : Nat) :
    tfind (t.filter (fun x => x.1 ≠ i)) j = if j = i then none else tfind t j := by
  induction t with
  | nil => split <;> rfl
  | cons x t ih =>
    obtain ⟨k, b⟩ := x
    by_cases hk : k = i
    · subst k
      simp only [ne_eq, not_true, decide_false, List.filter_cons, Bool.false_eq_true, if_false, tfind]
      rw [ih]
      split
      · rfl
      · rename_i hj
        rw [if_neg (Ne.symm hj)]
    · simp only [List.filter_cons, ne_eq, hk, not_false_eq_true, decide_true, if_true, tfind, ih]
      split
      · subst k
        rw [if_neg hk]
      · rfl

-- memory (R225)

/-- Storing one byte keeps the canonical form. -/
theorem Mem.put_wf (m : Mem) (a : Nat) (b : Byte) (h : m.wf) : (m.put a b).wf := tsetD_wf 0 m a b h

/-- Storing bytes keeps the canonical form. -/
theorem Mem.write_wf (m : Mem) (a : Nat) (bs : List Byte) (h : m.wf) : (m.write a bs).wf := by
  induction bs generalizing m a with
  | nil => exact h
  | cons b bs ih => exact ih _ _ (m.put_wf a b h)

/-- Storing listed bytes keeps the canonical form. -/
theorem Mem.putCells_wf (m : Mem) (cs : List Host.Cell) (h : m.wf) : (m.putCells cs).wf := by
  induction cs generalizing m with
  | nil => exact h
  | cons c cs ih => exact ih _ (m.put_wf c.1 c.2 h)

/-- Clearing keeps the canonical form. -/
theorem Mem.clear_wf (m : Mem) (a n : Nat) (h : m.wf) : (m.clear a n).wf :=
  ⟨h.1.filter _, fun c hc => h.2 c (List.mem_filter.1 hc).1⟩

/-- Copying keeps the canonical form. -/
theorem Mem.copy_wf (m : Mem) (src dst n : Nat) (h : m.wf) : (m.copy src dst n).wf := m.write_wf dst _ h

/-- Moving keeps the canonical form. -/
theorem Mem.move_wf (m : Mem) (src dst n : Nat) (h : m.wf) : (m.move src dst n).wf :=
  Mem.putCells_wf _ _ (m.clear_wf dst n h)

/-- A stored byte is read back. -/
theorem Mem.get_put_same (m : Mem) (a : Nat) (b : Byte) : (m.put a b).get a = b :=
  (tgetD_tsetD 0 m a a b).trans (if_pos rfl)

/-- Every other byte reads as before. -/
theorem Mem.get_put_other (m : Mem) (a x : Nat) (b : Byte) (hx : x ≠ a) : (m.put a b).get x = m.get x :=
  (tgetD_tsetD 0 m a x b).trans (if_neg hx)

/-- Bytes outside a stored span read as before. -/
theorem Mem.get_write_other (m : Mem) (a x : Nat) (bs : List Byte) (hx : x < a ∨ a + bs.length ≤ x) :
    (m.write a bs).get x = m.get x := by
  induction bs generalizing m a with
  | nil => rfl
  | cons b bs ih =>
    simp only [List.length_cons] at hx
    rw [Mem.write, ih _ _ (by omega), m.get_put_other a x b (by omega)]

/-- The bytes of a stored span are read back. -/
theorem Mem.get_write_same (m : Mem) (a i : Nat) (bs : List Byte) (hi : i < bs.length) :
    (m.write a bs).get (a + i) = bs[i] := by
  induction bs generalizing m a i with
  | nil => exact absurd hi (Nat.not_lt_zero _)
  | cons b bs ih =>
    cases i with
    | zero =>
      show ((m.put a b).write (a + 1) bs).get a = b
      rw [Mem.get_write_other _ _ _ _ (by omega), m.get_put_same a b]
    | succ i =>
      rw [Mem.write, show a + (i + 1) = a + 1 + i by omega, ih _ _ _ (by simpa using hi)]
      rfl

end Sys2Proof.Machine
end

