-- ==== Sys2Proof/Laws/State.lean ====
section
/-! SUPPORT. Laws of the updates of the state: what each reads back, and every other field as before. -/

namespace Sys2Proof.Machine

-- every other field

@[simp] theorem State.elapse_pending (s : State) (d : Nat) : (s.elapse d).pending = s.pending := rfl
@[simp] theorem State.elapse_out (s : State) (d : Nat) : (s.elapse d).out = s.out := rfl
@[simp] theorem State.elapse_time (s : State) (d : Nat) : (s.elapse d).time = s.time := rfl
@[simp] theorem State.elapse_run (s : State) (d : Nat) : (s.elapse d).run = s.run := rfl
@[simp] theorem State.elapse_od (s : State) (d : Nat) : (s.elapse d).od = s.od := rfl
@[simp] theorem State.elapse_units (s : State) (d : Nat) : (s.elapse d).units = s.units := rfl
@[simp] theorem State.elapse_mem (s : State) (d : Nat) : (s.elapse d).mem = s.mem := rfl
@[simp] theorem State.elapse_stackScrub (s : State) (d : Nat) : (s.elapse d).stackScrub = s.stackScrub := rfl
@[simp] theorem State.elapse_cores (s : State) (d : Nat) : (s.elapse d).cores = s.cores := rfl
@[simp] theorem State.elapse_engines (s : State) (d : Nat) : (s.elapse d).engines = s.engines := rfl
@[simp] theorem State.elapse_jobs (s : State) (d : Nat) : (s.elapse d).jobs = s.jobs := rfl
@[simp] theorem State.elapse_streams (s : State) (d : Nat) : (s.elapse d).streams = s.streams := rfl
@[simp] theorem State.elapse_sched (s : State) (d : Nat) : (s.elapse d).sched = s.sched := rfl
@[simp] theorem State.elapse_pins (s : State) (d : Nat) : (s.elapse d).pins = s.pins := rfl
@[simp] theorem State.elapse_epoch (s : State) (d : Nat) : (s.elapse d).epoch = s.epoch := rfl
@[simp] theorem State.elapse_ports (s : State) (d : Nat) : (s.elapse d).ports = s.ports := rfl
@[simp] theorem State.elapse_qps (s : State) (d : Nat) : (s.elapse d).qps = s.qps := rfl
@[simp] theorem State.elapse_fabric (s : State) (d : Nat) : (s.elapse d).fabric = s.fabric := rfl
@[simp] theorem State.elapse_twin (s : State) (d : Nat) : (s.elapse d).twin = s.twin := rfl
@[simp] theorem State.elapse_hosts (s : State) (d : Nat) : (s.elapse d).hosts = s.hosts := rfl
@[simp] theorem State.elapse_round (s : State) (d : Nat) : (s.elapse d).round = s.round := rfl
@[simp] theorem State.elapse_security (s : State) (d : Nat) : (s.elapse d).security = s.security := rfl
@[simp] theorem State.elapse_loops (s : State) (d : Nat) : (s.elapse d).loops = s.loops := rfl
@[simp] theorem State.elapse_convs (s : State) (d : Nat) : (s.elapse d).convs = s.convs := rfl
@[simp] theorem State.elapse_sensors (s : State) (d : Nat) : (s.elapse d).sensors = s.sensors := rfl
@[simp] theorem State.elapse_zones (s : State) (d : Nat) : (s.elapse d).zones = s.zones := rfl
@[simp] theorem State.elapse_cartridges (s : State) (d : Nat) : (s.elapse d).cartridges = s.cartridges := rfl
@[simp] theorem State.elapse_power (s : State) (d : Nat) : (s.elapse d).power = s.power := rfl
@[simp] theorem State.elapse_events (s : State) (d : Nat) : (s.elapse d).events = s.events := rfl
@[simp] theorem State.elapse_al (s : State) (d : Nat) : (s.elapse d).al = s.al := rfl
@[simp] theorem State.elapse_sdo (s : State) (d : Nat) : (s.elapse d).sdo = s.sdo := rfl
@[simp] theorem State.elapse_sm3 (s : State) (d : Nat) : (s.elapse d).sm3 = s.sm3 := rfl
@[simp] theorem State.elapse_summaries (s : State) (d : Nat) : (s.elapse d).summaries = s.summaries := rfl
@[simp] theorem State.elapse_selects (s : State) (d : Nat) : (s.elapse d).selects = s.selects := rfl
@[simp] theorem State.elapse_free (s : State) (d : Nat) : (s.elapse d).free = s.free := rfl

@[simp] theorem State.takeFree_pending (s : State) : (s.takeFree).pending = s.pending := rfl
@[simp] theorem State.takeFree_out (s : State) : (s.takeFree).out = s.out := rfl
@[simp] theorem State.takeFree_clock (s : State) : (s.takeFree).clock = s.clock := rfl
@[simp] theorem State.takeFree_time (s : State) : (s.takeFree).time = s.time := rfl
@[simp] theorem State.takeFree_run (s : State) : (s.takeFree).run = s.run := rfl
@[simp] theorem State.takeFree_od (s : State) : (s.takeFree).od = s.od := rfl
@[simp] theorem State.takeFree_units (s : State) : (s.takeFree).units = s.units := rfl
@[simp] theorem State.takeFree_mem (s : State) : (s.takeFree).mem = s.mem := rfl
@[simp] theorem State.takeFree_stackScrub (s : State) : (s.takeFree).stackScrub = s.stackScrub := rfl
@[simp] theorem State.takeFree_cores (s : State) : (s.takeFree).cores = s.cores := rfl
@[simp] theorem State.takeFree_engines (s : State) : (s.takeFree).engines = s.engines := rfl
@[simp] theorem State.takeFree_jobs (s : State) : (s.takeFree).jobs = s.jobs := rfl
@[simp] theorem State.takeFree_streams (s : State) : (s.takeFree).streams = s.streams := rfl
@[simp] theorem State.takeFree_sched (s : State) : (s.takeFree).sched = s.sched := rfl
@[simp] theorem State.takeFree_pins (s : State) : (s.takeFree).pins = s.pins := rfl
@[simp] theorem State.takeFree_epoch (s : State) : (s.takeFree).epoch = s.epoch := rfl
@[simp] theorem State.takeFree_ports (s : State) : (s.takeFree).ports = s.ports := rfl
@[simp] theorem State.takeFree_qps (s : State) : (s.takeFree).qps = s.qps := rfl
@[simp] theorem State.takeFree_fabric (s : State) : (s.takeFree).fabric = s.fabric := rfl
@[simp] theorem State.takeFree_twin (s : State) : (s.takeFree).twin = s.twin := rfl
@[simp] theorem State.takeFree_hosts (s : State) : (s.takeFree).hosts = s.hosts := rfl
@[simp] theorem State.takeFree_round (s : State) : (s.takeFree).round = s.round := rfl
@[simp] theorem State.takeFree_security (s : State) : (s.takeFree).security = s.security := rfl
@[simp] theorem State.takeFree_loops (s : State) : (s.takeFree).loops = s.loops := rfl
@[simp] theorem State.takeFree_convs (s : State) : (s.takeFree).convs = s.convs := rfl
@[simp] theorem State.takeFree_sensors (s : State) : (s.takeFree).sensors = s.sensors := rfl
@[simp] theorem State.takeFree_zones (s : State) : (s.takeFree).zones = s.zones := rfl
@[simp] theorem State.takeFree_cartridges (s : State) : (s.takeFree).cartridges = s.cartridges := rfl
@[simp] theorem State.takeFree_power (s : State) : (s.takeFree).power = s.power := rfl
@[simp] theorem State.takeFree_events (s : State) : (s.takeFree).events = s.events := rfl
@[simp] theorem State.takeFree_al (s : State) : (s.takeFree).al = s.al := rfl
@[simp] theorem State.takeFree_sdo (s : State) : (s.takeFree).sdo = s.sdo := rfl
@[simp] theorem State.takeFree_sm3 (s : State) : (s.takeFree).sm3 = s.sm3 := rfl
@[simp] theorem State.takeFree_summaries (s : State) : (s.takeFree).summaries = s.summaries := rfl
@[simp] theorem State.takeFree_selects (s : State) : (s.takeFree).selects = s.selects := rfl

@[simp] theorem State.storeBytes_pending (s : State) (a : Nat) (bs : List Byte) : (s.storeBytes a bs).pending = s.pending := rfl
@[simp] theorem State.storeBytes_out (s : State) (a : Nat) (bs : List Byte) : (s.storeBytes a bs).out = s.out := rfl
@[simp] theorem State.storeBytes_clock (s : State) (a : Nat) (bs : List Byte) : (s.storeBytes a bs).clock = s.clock := rfl
@[simp] theorem State.storeBytes_time (s : State) (a : Nat) (bs : List Byte) : (s.storeBytes a bs).time = s.time := rfl
@[simp] theorem State.storeBytes_run (s : State) (a : Nat) (bs : List Byte) : (s.storeBytes a bs).run = s.run := rfl
@[simp] theorem State.storeBytes_od (s : State) (a : Nat) (bs : List Byte) : (s.storeBytes a bs).od = s.od := rfl
@[simp] theorem State.storeBytes_units (s : State) (a : Nat) (bs : List Byte) : (s.storeBytes a bs).units = s.units := rfl
@[simp] theorem State.storeBytes_stackScrub (s : State) (a : Nat) (bs : List Byte) :
    (s.storeBytes a bs).stackScrub = s.stackScrub := rfl
@[simp] theorem State.storeBytes_cores (s : State) (a : Nat) (bs : List Byte) : (s.storeBytes a bs).cores = s.cores := rfl
@[simp] theorem State.storeBytes_engines (s : State) (a : Nat) (bs : List Byte) : (s.storeBytes a bs).engines = s.engines := rfl
@[simp] theorem State.storeBytes_jobs (s : State) (a : Nat) (bs : List Byte) : (s.storeBytes a bs).jobs = s.jobs := rfl
@[simp] theorem State.storeBytes_streams (s : State) (a : Nat) (bs : List Byte) : (s.storeBytes a bs).streams = s.streams := rfl
@[simp] theorem State.storeBytes_sched (s : State) (a : Nat) (bs : List Byte) : (s.storeBytes a bs).sched = s.sched := rfl
@[simp] theorem State.storeBytes_pins (s : State) (a : Nat) (bs : List Byte) : (s.storeBytes a bs).pins = s.pins := rfl
@[simp] theorem State.storeBytes_epoch (s : State) (a : Nat) (bs : List Byte) : (s.storeBytes a bs).epoch = s.epoch := rfl
@[simp] theorem State.storeBytes_ports (s : State) (a : Nat) (bs : List Byte) : (s.storeBytes a bs).ports = s.ports := rfl
@[simp] theorem State.storeBytes_qps (s : State) (a : Nat) (bs : List Byte) : (s.storeBytes a bs).qps = s.qps := rfl
@[simp] theorem State.storeBytes_fabric (s : State) (a : Nat) (bs : List Byte) : (s.storeBytes a bs).fabric = s.fabric := rfl
@[simp] theorem State.storeBytes_twin (s : State) (a : Nat) (bs : List Byte) : (s.storeBytes a bs).twin = s.twin := rfl
@[simp] theorem State.storeBytes_hosts (s : State) (a : Nat) (bs : List Byte) : (s.storeBytes a bs).hosts = s.hosts := rfl
@[simp] theorem State.storeBytes_round (s : State) (a : Nat) (bs : List Byte) : (s.storeBytes a bs).round = s.round := rfl
@[simp] theorem State.storeBytes_security (s : State) (a : Nat) (bs : List Byte) :
    (s.storeBytes a bs).security = s.security := rfl
@[simp] theorem State.storeBytes_loops (s : State) (a : Nat) (bs : List Byte) : (s.storeBytes a bs).loops = s.loops := rfl
@[simp] theorem State.storeBytes_convs (s : State) (a : Nat) (bs : List Byte) : (s.storeBytes a bs).convs = s.convs := rfl
@[simp] theorem State.storeBytes_sensors (s : State) (a : Nat) (bs : List Byte) : (s.storeBytes a bs).sensors = s.sensors := rfl
@[simp] theorem State.storeBytes_zones (s : State) (a : Nat) (bs : List Byte) : (s.storeBytes a bs).zones = s.zones := rfl
@[simp] theorem State.storeBytes_cartridges (s : State) (a : Nat) (bs : List Byte) :
    (s.storeBytes a bs).cartridges = s.cartridges := rfl
@[simp] theorem State.storeBytes_power (s : State) (a : Nat) (bs : List Byte) : (s.storeBytes a bs).power = s.power := rfl
@[simp] theorem State.storeBytes_events (s : State) (a : Nat) (bs : List Byte) : (s.storeBytes a bs).events = s.events := rfl
@[simp] theorem State.storeBytes_al (s : State) (a : Nat) (bs : List Byte) : (s.storeBytes a bs).al = s.al := rfl
@[simp] theorem State.storeBytes_sdo (s : State) (a : Nat) (bs : List Byte) : (s.storeBytes a bs).sdo = s.sdo := rfl
@[simp] theorem State.storeBytes_sm3 (s : State) (a : Nat) (bs : List Byte) : (s.storeBytes a bs).sm3 = s.sm3 := rfl
@[simp] theorem State.storeBytes_summaries (s : State) (a : Nat) (bs : List Byte) :
    (s.storeBytes a bs).summaries = s.summaries := rfl
@[simp] theorem State.storeBytes_selects (s : State) (a : Nat) (bs : List Byte) : (s.storeBytes a bs).selects = s.selects := rfl
@[simp] theorem State.storeBytes_free (s : State) (a : Nat) (bs : List Byte) : (s.storeBytes a bs).free = s.free := rfl

@[simp] theorem State.emit_pending (s : State) (o : Output) : (s.emit o).pending = s.pending := rfl
@[simp] theorem State.emit_clock (s : State) (o : Output) : (s.emit o).clock = s.clock := rfl
@[simp] theorem State.emit_time (s : State) (o : Output) : (s.emit o).time = s.time := rfl
@[simp] theorem State.emit_run (s : State) (o : Output) : (s.emit o).run = s.run := rfl
@[simp] theorem State.emit_od (s : State) (o : Output) : (s.emit o).od = s.od := rfl
@[simp] theorem State.emit_units (s : State) (o : Output) : (s.emit o).units = s.units := rfl
@[simp] theorem State.emit_mem (s : State) (o : Output) : (s.emit o).mem = s.mem := rfl
@[simp] theorem State.emit_stackScrub (s : State) (o : Output) : (s.emit o).stackScrub = s.stackScrub := rfl
@[simp] theorem State.emit_cores (s : State) (o : Output) : (s.emit o).cores = s.cores := rfl
@[simp] theorem State.emit_engines (s : State) (o : Output) : (s.emit o).engines = s.engines := rfl
@[simp] theorem State.emit_jobs (s : State) (o : Output) : (s.emit o).jobs = s.jobs := rfl
@[simp] theorem State.emit_streams (s : State) (o : Output) : (s.emit o).streams = s.streams := rfl
@[simp] theorem State.emit_sched (s : State) (o : Output) : (s.emit o).sched = s.sched := rfl
@[simp] theorem State.emit_pins (s : State) (o : Output) : (s.emit o).pins = s.pins := rfl
@[simp] theorem State.emit_epoch (s : State) (o : Output) : (s.emit o).epoch = s.epoch := rfl
@[simp] theorem State.emit_ports (s : State) (o : Output) : (s.emit o).ports = s.ports := rfl
@[simp] theorem State.emit_qps (s : State) (o : Output) : (s.emit o).qps = s.qps := rfl
@[simp] theorem State.emit_fabric (s : State) (o : Output) : (s.emit o).fabric = s.fabric := rfl
@[simp] theorem State.emit_twin (s : State) (o : Output) : (s.emit o).twin = s.twin := rfl
@[simp] theorem State.emit_hosts (s : State) (o : Output) : (s.emit o).hosts = s.hosts := rfl
@[simp] theorem State.emit_round (s : State) (o : Output) : (s.emit o).round = s.round := rfl
@[simp] theorem State.emit_security (s : State) (o : Output) : (s.emit o).security = s.security := rfl
@[simp] theorem State.emit_loops (s : State) (o : Output) : (s.emit o).loops = s.loops := rfl
@[simp] theorem State.emit_convs (s : State) (o : Output) : (s.emit o).convs = s.convs := rfl
@[simp] theorem State.emit_sensors (s : State) (o : Output) : (s.emit o).sensors = s.sensors := rfl
@[simp] theorem State.emit_zones (s : State) (o : Output) : (s.emit o).zones = s.zones := rfl
@[simp] theorem State.emit_cartridges (s : State) (o : Output) : (s.emit o).cartridges = s.cartridges := rfl
@[simp] theorem State.emit_power (s : State) (o : Output) : (s.emit o).power = s.power := rfl
@[simp] theorem State.emit_events (s : State) (o : Output) : (s.emit o).events = s.events := rfl
@[simp] theorem State.emit_al (s : State) (o : Output) : (s.emit o).al = s.al := rfl
@[simp] theorem State.emit_sdo (s : State) (o : Output) : (s.emit o).sdo = s.sdo := rfl
@[simp] theorem State.emit_sm3 (s : State) (o : Output) : (s.emit o).sm3 = s.sm3 := rfl
@[simp] theorem State.emit_summaries (s : State) (o : Output) : (s.emit o).summaries = s.summaries := rfl
@[simp] theorem State.emit_selects (s : State) (o : Output) : (s.emit o).selects = s.selects := rfl
@[simp] theorem State.emit_free (s : State) (o : Output) : (s.emit o).free = s.free := rfl

@[simp] theorem State.modUnit_pending (s : State) (r : Nat) (f : UnitState → UnitState) :
    (s.modUnit r f).pending = s.pending := rfl
@[simp] theorem State.modUnit_out (s : State) (r : Nat) (f : UnitState → UnitState) : (s.modUnit r f).out = s.out := rfl
@[simp] theorem State.modUnit_clock (s : State) (r : Nat) (f : UnitState → UnitState) : (s.modUnit r f).clock = s.clock := rfl
@[simp] theorem State.modUnit_time (s : State) (r : Nat) (f : UnitState → UnitState) : (s.modUnit r f).time = s.time := rfl
@[simp] theorem State.modUnit_run (s : State) (r : Nat) (f : UnitState → UnitState) : (s.modUnit r f).run = s.run := rfl
@[simp] theorem State.modUnit_od (s : State) (r : Nat) (f : UnitState → UnitState) : (s.modUnit r f).od = s.od := rfl
@[simp] theorem State.modUnit_mem (s : State) (r : Nat) (f : UnitState → UnitState) : (s.modUnit r f).mem = s.mem := rfl
@[simp] theorem State.modUnit_stackScrub (s : State) (r : Nat) (f : UnitState → UnitState) :
    (s.modUnit r f).stackScrub = s.stackScrub := rfl
@[simp] theorem State.modUnit_cores (s : State) (r : Nat) (f : UnitState → UnitState) : (s.modUnit r f).cores = s.cores := rfl
@[simp] theorem State.modUnit_engines (s : State) (r : Nat) (f : UnitState → UnitState) :
    (s.modUnit r f).engines = s.engines := rfl
@[simp] theorem State.modUnit_jobs (s : State) (r : Nat) (f : UnitState → UnitState) : (s.modUnit r f).jobs = s.jobs := rfl
@[simp] theorem State.modUnit_streams (s : State) (r : Nat) (f : UnitState → UnitState) :
    (s.modUnit r f).streams = s.streams := rfl
@[simp] theorem State.modUnit_sched (s : State) (r : Nat) (f : UnitState → UnitState) : (s.modUnit r f).sched = s.sched := rfl
@[simp] theorem State.modUnit_pins (s : State) (r : Nat) (f : UnitState → UnitState) : (s.modUnit r f).pins = s.pins := rfl
@[simp] theorem State.modUnit_epoch (s : State) (r : Nat) (f : UnitState → UnitState) : (s.modUnit r f).epoch = s.epoch := rfl
@[simp] theorem State.modUnit_ports (s : State) (r : Nat) (f : UnitState → UnitState) : (s.modUnit r f).ports = s.ports := rfl
@[simp] theorem State.modUnit_qps (s : State) (r : Nat) (f : UnitState → UnitState) : (s.modUnit r f).qps = s.qps := rfl
@[simp] theorem State.modUnit_fabric (s : State) (r : Nat) (f : UnitState → UnitState) :
    (s.modUnit r f).fabric = s.fabric := rfl
@[simp] theorem State.modUnit_twin (s : State) (r : Nat) (f : UnitState → UnitState) : (s.modUnit r f).twin = s.twin := rfl
@[simp] theorem State.modUnit_hosts (s : State) (r : Nat) (f : UnitState → UnitState) : (s.modUnit r f).hosts = s.hosts := rfl
@[simp] theorem State.modUnit_round (s : State) (r : Nat) (f : UnitState → UnitState) : (s.modUnit r f).round = s.round := rfl
@[simp] theorem State.modUnit_security (s : State) (r : Nat) (f : UnitState → UnitState) :
    (s.modUnit r f).security = s.security := rfl
@[simp] theorem State.modUnit_loops (s : State) (r : Nat) (f : UnitState → UnitState) : (s.modUnit r f).loops = s.loops := rfl
@[simp] theorem State.modUnit_convs (s : State) (r : Nat) (f : UnitState → UnitState) : (s.modUnit r f).convs = s.convs := rfl
@[simp] theorem State.modUnit_sensors (s : State) (r : Nat) (f : UnitState → UnitState) :
    (s.modUnit r f).sensors = s.sensors := rfl
@[simp] theorem State.modUnit_zones (s : State) (r : Nat) (f : UnitState → UnitState) : (s.modUnit r f).zones = s.zones := rfl
@[simp] theorem State.modUnit_cartridges (s : State) (r : Nat) (f : UnitState → UnitState) :
    (s.modUnit r f).cartridges = s.cartridges := rfl
@[simp] theorem State.modUnit_power (s : State) (r : Nat) (f : UnitState → UnitState) : (s.modUnit r f).power = s.power := rfl
@[simp] theorem State.modUnit_events (s : State) (r : Nat) (f : UnitState → UnitState) :
    (s.modUnit r f).events = s.events := rfl
@[simp] theorem State.modUnit_al (s : State) (r : Nat) (f : UnitState → UnitState) : (s.modUnit r f).al = s.al := rfl
@[simp] theorem State.modUnit_sdo (s : State) (r : Nat) (f : UnitState → UnitState) : (s.modUnit r f).sdo = s.sdo := rfl
@[simp] theorem State.modUnit_sm3 (s : State) (r : Nat) (f : UnitState → UnitState) : (s.modUnit r f).sm3 = s.sm3 := rfl
@[simp] theorem State.modUnit_summaries (s : State) (r : Nat) (f : UnitState → UnitState) :
    (s.modUnit r f).summaries = s.summaries := rfl
@[simp] theorem State.modUnit_selects (s : State) (r : Nat) (f : UnitState → UnitState) :
    (s.modUnit r f).selects = s.selects := rfl
@[simp] theorem State.modUnit_free (s : State) (r : Nat) (f : UnitState → UnitState) : (s.modUnit r f).free = s.free := rfl

@[simp] theorem State.putUnit_pending (s : State) (r : Nat) (st : UnitSt) : (s.putUnit r st).pending = s.pending := rfl
@[simp] theorem State.putUnit_out (s : State) (r : Nat) (st : UnitSt) : (s.putUnit r st).out = s.out := rfl
@[simp] theorem State.putUnit_clock (s : State) (r : Nat) (st : UnitSt) : (s.putUnit r st).clock = s.clock := rfl
@[simp] theorem State.putUnit_time (s : State) (r : Nat) (st : UnitSt) : (s.putUnit r st).time = s.time := rfl
@[simp] theorem State.putUnit_run (s : State) (r : Nat) (st : UnitSt) : (s.putUnit r st).run = s.run := rfl
@[simp] theorem State.putUnit_od (s : State) (r : Nat) (st : UnitSt) : (s.putUnit r st).od = s.od := rfl
@[simp] theorem State.putUnit_mem (s : State) (r : Nat) (st : UnitSt) : (s.putUnit r st).mem = s.mem := rfl
@[simp] theorem State.putUnit_stackScrub (s : State) (r : Nat) (st : UnitSt) : (s.putUnit r st).stackScrub = s.stackScrub := rfl
@[simp] theorem State.putUnit_cores (s : State) (r : Nat) (st : UnitSt) : (s.putUnit r st).cores = s.cores := rfl
@[simp] theorem State.putUnit_engines (s : State) (r : Nat) (st : UnitSt) : (s.putUnit r st).engines = s.engines := rfl
@[simp] theorem State.putUnit_jobs (s : State) (r : Nat) (st : UnitSt) : (s.putUnit r st).jobs = s.jobs := rfl
@[simp] theorem State.putUnit_streams (s : State) (r : Nat) (st : UnitSt) : (s.putUnit r st).streams = s.streams := rfl
@[simp] theorem State.putUnit_sched (s : State) (r : Nat) (st : UnitSt) : (s.putUnit r st).sched = s.sched := rfl
@[simp] theorem State.putUnit_pins (s : State) (r : Nat) (st : UnitSt) : (s.putUnit r st).pins = s.pins := rfl
@[simp] theorem State.putUnit_epoch (s : State) (r : Nat) (st : UnitSt) : (s.putUnit r st).epoch = s.epoch := rfl
@[simp] theorem State.putUnit_ports (s : State) (r : Nat) (st : UnitSt) : (s.putUnit r st).ports = s.ports := rfl
@[simp] theorem State.putUnit_qps (s : State) (r : Nat) (st : UnitSt) : (s.putUnit r st).qps = s.qps := rfl
@[simp] theorem State.putUnit_fabric (s : State) (r : Nat) (st : UnitSt) : (s.putUnit r st).fabric = s.fabric := rfl
@[simp] theorem State.putUnit_twin (s : State) (r : Nat) (st : UnitSt) : (s.putUnit r st).twin = s.twin := rfl
@[simp] theorem State.putUnit_hosts (s : State) (r : Nat) (st : UnitSt) : (s.putUnit r st).hosts = s.hosts := rfl
@[simp] theorem State.putUnit_round (s : State) (r : Nat) (st : UnitSt) : (s.putUnit r st).round = s.round := rfl
@[simp] theorem State.putUnit_security (s : State) (r : Nat) (st : UnitSt) : (s.putUnit r st).security = s.security := rfl
@[simp] theorem State.putUnit_loops (s : State) (r : Nat) (st : UnitSt) : (s.putUnit r st).loops = s.loops := rfl
@[simp] theorem State.putUnit_convs (s : State) (r : Nat) (st : UnitSt) : (s.putUnit r st).convs = s.convs := rfl
@[simp] theorem State.putUnit_sensors (s : State) (r : Nat) (st : UnitSt) : (s.putUnit r st).sensors = s.sensors := rfl
@[simp] theorem State.putUnit_zones (s : State) (r : Nat) (st : UnitSt) : (s.putUnit r st).zones = s.zones := rfl
@[simp] theorem State.putUnit_cartridges (s : State) (r : Nat) (st : UnitSt) : (s.putUnit r st).cartridges = s.cartridges := rfl
@[simp] theorem State.putUnit_power (s : State) (r : Nat) (st : UnitSt) : (s.putUnit r st).power = s.power := rfl
@[simp] theorem State.putUnit_events (s : State) (r : Nat) (st : UnitSt) : (s.putUnit r st).events = s.events := rfl
@[simp] theorem State.putUnit_al (s : State) (r : Nat) (st : UnitSt) : (s.putUnit r st).al = s.al := rfl
@[simp] theorem State.putUnit_sdo (s : State) (r : Nat) (st : UnitSt) : (s.putUnit r st).sdo = s.sdo := rfl
@[simp] theorem State.putUnit_sm3 (s : State) (r : Nat) (st : UnitSt) : (s.putUnit r st).sm3 = s.sm3 := rfl
@[simp] theorem State.putUnit_summaries (s : State) (r : Nat) (st : UnitSt) : (s.putUnit r st).summaries = s.summaries := rfl
@[simp] theorem State.putUnit_selects (s : State) (r : Nat) (st : UnitSt) : (s.putUnit r st).selects = s.selects := rfl
@[simp] theorem State.putUnit_free (s : State) (r : Nat) (st : UnitSt) : (s.putUnit r st).free = s.free := rfl

@[simp] theorem State.modCore_pending (s : State) (c : Nat) (f : Core → Core) : (s.modCore c f).pending = s.pending := rfl
@[simp] theorem State.modCore_out (s : State) (c : Nat) (f : Core → Core) : (s.modCore c f).out = s.out := rfl
@[simp] theorem State.modCore_clock (s : State) (c : Nat) (f : Core → Core) : (s.modCore c f).clock = s.clock := rfl
@[simp] theorem State.modCore_time (s : State) (c : Nat) (f : Core → Core) : (s.modCore c f).time = s.time := rfl
@[simp] theorem State.modCore_run (s : State) (c : Nat) (f : Core → Core) : (s.modCore c f).run = s.run := rfl
@[simp] theorem State.modCore_od (s : State) (c : Nat) (f : Core → Core) : (s.modCore c f).od = s.od := rfl
@[simp] theorem State.modCore_units (s : State) (c : Nat) (f : Core → Core) : (s.modCore c f).units = s.units := rfl
@[simp] theorem State.modCore_mem (s : State) (c : Nat) (f : Core → Core) : (s.modCore c f).mem = s.mem := rfl
@[simp] theorem State.modCore_stackScrub (s : State) (c : Nat) (f : Core → Core) :
    (s.modCore c f).stackScrub = s.stackScrub := rfl
@[simp] theorem State.modCore_engines (s : State) (c : Nat) (f : Core → Core) : (s.modCore c f).engines = s.engines := rfl
@[simp] theorem State.modCore_jobs (s : State) (c : Nat) (f : Core → Core) : (s.modCore c f).jobs = s.jobs := rfl
@[simp] theorem State.modCore_streams (s : State) (c : Nat) (f : Core → Core) : (s.modCore c f).streams = s.streams := rfl
@[simp] theorem State.modCore_sched (s : State) (c : Nat) (f : Core → Core) : (s.modCore c f).sched = s.sched := rfl
@[simp] theorem State.modCore_pins (s : State) (c : Nat) (f : Core → Core) : (s.modCore c f).pins = s.pins := rfl
@[simp] theorem State.modCore_epoch (s : State) (c : Nat) (f : Core → Core) : (s.modCore c f).epoch = s.epoch := rfl
@[simp] theorem State.modCore_ports (s : State) (c : Nat) (f : Core → Core) : (s.modCore c f).ports = s.ports := rfl
@[simp] theorem State.modCore_qps (s : State) (c : Nat) (f : Core → Core) : (s.modCore c f).qps = s.qps := rfl
@[simp] theorem State.modCore_fabric (s : State) (c : Nat) (f : Core → Core) : (s.modCore c f).fabric = s.fabric := rfl
@[simp] theorem State.modCore_twin (s : State) (c : Nat) (f : Core → Core) : (s.modCore c f).twin = s.twin := rfl
@[simp] theorem State.modCore_hosts (s : State) (c : Nat) (f : Core → Core) : (s.modCore c f).hosts = s.hosts := rfl
@[simp] theorem State.modCore_round (s : State) (c : Nat) (f : Core → Core) : (s.modCore c f).round = s.round := rfl
@[simp] theorem State.modCore_security (s : State) (c : Nat) (f : Core → Core) : (s.modCore c f).security = s.security := rfl
@[simp] theorem State.modCore_loops (s : State) (c : Nat) (f : Core → Core) : (s.modCore c f).loops = s.loops := rfl
@[simp] theorem State.modCore_convs (s : State) (c : Nat) (f : Core → Core) : (s.modCore c f).convs = s.convs := rfl
@[simp] theorem State.modCore_sensors (s : State) (c : Nat) (f : Core → Core) : (s.modCore c f).sensors = s.sensors := rfl
@[simp] theorem State.modCore_zones (s : State) (c : Nat) (f : Core → Core) : (s.modCore c f).zones = s.zones := rfl
@[simp] theorem State.modCore_cartridges (s : State) (c : Nat) (f : Core → Core) :
    (s.modCore c f).cartridges = s.cartridges := rfl
@[simp] theorem State.modCore_power (s : State) (c : Nat) (f : Core → Core) : (s.modCore c f).power = s.power := rfl
@[simp] theorem State.modCore_events (s : State) (c : Nat) (f : Core → Core) : (s.modCore c f).events = s.events := rfl
@[simp] theorem State.modCore_al (s : State) (c : Nat) (f : Core → Core) : (s.modCore c f).al = s.al := rfl
@[simp] theorem State.modCore_sdo (s : State) (c : Nat) (f : Core → Core) : (s.modCore c f).sdo = s.sdo := rfl
@[simp] theorem State.modCore_sm3 (s : State) (c : Nat) (f : Core → Core) : (s.modCore c f).sm3 = s.sm3 := rfl
@[simp] theorem State.modCore_summaries (s : State) (c : Nat) (f : Core → Core) : (s.modCore c f).summaries = s.summaries := rfl
@[simp] theorem State.modCore_selects (s : State) (c : Nat) (f : Core → Core) : (s.modCore c f).selects = s.selects := rfl
@[simp] theorem State.modCore_free (s : State) (c : Nat) (f : Core → Core) : (s.modCore c f).free = s.free := rfl

@[simp] theorem State.modEng_pending (s : State) (c e : Nat) (f : Engine → Engine) : (s.modEng c e f).pending = s.pending := rfl
@[simp] theorem State.modEng_out (s : State) (c e : Nat) (f : Engine → Engine) : (s.modEng c e f).out = s.out := rfl
@[simp] theorem State.modEng_clock (s : State) (c e : Nat) (f : Engine → Engine) : (s.modEng c e f).clock = s.clock := rfl
@[simp] theorem State.modEng_time (s : State) (c e : Nat) (f : Engine → Engine) : (s.modEng c e f).time = s.time := rfl
@[simp] theorem State.modEng_run (s : State) (c e : Nat) (f : Engine → Engine) : (s.modEng c e f).run = s.run := rfl
@[simp] theorem State.modEng_od (s : State) (c e : Nat) (f : Engine → Engine) : (s.modEng c e f).od = s.od := rfl
@[simp] theorem State.modEng_units (s : State) (c e : Nat) (f : Engine → Engine) : (s.modEng c e f).units = s.units := rfl
@[simp] theorem State.modEng_mem (s : State) (c e : Nat) (f : Engine → Engine) : (s.modEng c e f).mem = s.mem := rfl
@[simp] theorem State.modEng_stackScrub (s : State) (c e : Nat) (f : Engine → Engine) :
    (s.modEng c e f).stackScrub = s.stackScrub := rfl
@[simp] theorem State.modEng_cores (s : State) (c e : Nat) (f : Engine → Engine) : (s.modEng c e f).cores = s.cores := rfl
@[simp] theorem State.modEng_jobs (s : State) (c e : Nat) (f : Engine → Engine) : (s.modEng c e f).jobs = s.jobs := rfl
@[simp] theorem State.modEng_streams (s : State) (c e : Nat) (f : Engine → Engine) : (s.modEng c e f).streams = s.streams := rfl
@[simp] theorem State.modEng_sched (s : State) (c e : Nat) (f : Engine → Engine) : (s.modEng c e f).sched = s.sched := rfl
@[simp] theorem State.modEng_pins (s : State) (c e : Nat) (f : Engine → Engine) : (s.modEng c e f).pins = s.pins := rfl
@[simp] theorem State.modEng_epoch (s : State) (c e : Nat) (f : Engine → Engine) : (s.modEng c e f).epoch = s.epoch := rfl
@[simp] theorem State.modEng_ports (s : State) (c e : Nat) (f : Engine → Engine) : (s.modEng c e f).ports = s.ports := rfl
@[simp] theorem State.modEng_qps (s : State) (c e : Nat) (f : Engine → Engine) : (s.modEng c e f).qps = s.qps := rfl
@[simp] theorem State.modEng_fabric (s : State) (c e : Nat) (f : Engine → Engine) : (s.modEng c e f).fabric = s.fabric := rfl
@[simp] theorem State.modEng_twin (s : State) (c e : Nat) (f : Engine → Engine) : (s.modEng c e f).twin = s.twin := rfl
@[simp] theorem State.modEng_hosts (s : State) (c e : Nat) (f : Engine → Engine) : (s.modEng c e f).hosts = s.hosts := rfl
@[simp] theorem State.modEng_round (s : State) (c e : Nat) (f : Engine → Engine) : (s.modEng c e f).round = s.round := rfl
@[simp] theorem State.modEng_security (s : State) (c e : Nat) (f : Engine → Engine) :
    (s.modEng c e f).security = s.security := rfl
@[simp] theorem State.modEng_loops (s : State) (c e : Nat) (f : Engine → Engine) : (s.modEng c e f).loops = s.loops := rfl
@[simp] theorem State.modEng_convs (s : State) (c e : Nat) (f : Engine → Engine) : (s.modEng c e f).convs = s.convs := rfl
@[simp] theorem State.modEng_sensors (s : State) (c e : Nat) (f : Engine → Engine) : (s.modEng c e f).sensors = s.sensors := rfl
@[simp] theorem State.modEng_zones (s : State) (c e : Nat) (f : Engine → Engine) : (s.modEng c e f).zones = s.zones := rfl
@[simp] theorem State.modEng_cartridges (s : State) (c e : Nat) (f : Engine → Engine) :
    (s.modEng c e f).cartridges = s.cartridges := rfl
@[simp] theorem State.modEng_power (s : State) (c e : Nat) (f : Engine → Engine) : (s.modEng c e f).power = s.power := rfl
@[simp] theorem State.modEng_events (s : State) (c e : Nat) (f : Engine → Engine) : (s.modEng c e f).events = s.events := rfl
@[simp] theorem State.modEng_al (s : State) (c e : Nat) (f : Engine → Engine) : (s.modEng c e f).al = s.al := rfl
@[simp] theorem State.modEng_sdo (s : State) (c e : Nat) (f : Engine → Engine) : (s.modEng c e f).sdo = s.sdo := rfl
@[simp] theorem State.modEng_sm3 (s : State) (c e : Nat) (f : Engine → Engine) : (s.modEng c e f).sm3 = s.sm3 := rfl
@[simp] theorem State.modEng_summaries (s : State) (c e : Nat) (f : Engine → Engine) :
    (s.modEng c e f).summaries = s.summaries := rfl
@[simp] theorem State.modEng_selects (s : State) (c e : Nat) (f : Engine → Engine) : (s.modEng c e f).selects = s.selects := rfl
@[simp] theorem State.modEng_free (s : State) (c e : Nat) (f : Engine → Engine) : (s.modEng c e f).free = s.free := rfl

@[simp] theorem State.modJob_pending (s : State) (j : Nat) (f : Job → Job) : (s.modJob j f).pending = s.pending := rfl
@[simp] theorem State.modJob_out (s : State) (j : Nat) (f : Job → Job) : (s.modJob j f).out = s.out := rfl
@[simp] theorem State.modJob_clock (s : State) (j : Nat) (f : Job → Job) : (s.modJob j f).clock = s.clock := rfl
@[simp] theorem State.modJob_time (s : State) (j : Nat) (f : Job → Job) : (s.modJob j f).time = s.time := rfl
@[simp] theorem State.modJob_run (s : State) (j : Nat) (f : Job → Job) : (s.modJob j f).run = s.run := rfl
@[simp] theorem State.modJob_od (s : State) (j : Nat) (f : Job → Job) : (s.modJob j f).od = s.od := rfl
@[simp] theorem State.modJob_units (s : State) (j : Nat) (f : Job → Job) : (s.modJob j f).units = s.units := rfl
@[simp] theorem State.modJob_mem (s : State) (j : Nat) (f : Job → Job) : (s.modJob j f).mem = s.mem := rfl
@[simp] theorem State.modJob_stackScrub (s : State) (j : Nat) (f : Job → Job) : (s.modJob j f).stackScrub = s.stackScrub := rfl
@[simp] theorem State.modJob_cores (s : State) (j : Nat) (f : Job → Job) : (s.modJob j f).cores = s.cores := rfl
@[simp] theorem State.modJob_engines (s : State) (j : Nat) (f : Job → Job) : (s.modJob j f).engines = s.engines := rfl
@[simp] theorem State.modJob_streams (s : State) (j : Nat) (f : Job → Job) : (s.modJob j f).streams = s.streams := rfl
@[simp] theorem State.modJob_sched (s : State) (j : Nat) (f : Job → Job) : (s.modJob j f).sched = s.sched := rfl
@[simp] theorem State.modJob_pins (s : State) (j : Nat) (f : Job → Job) : (s.modJob j f).pins = s.pins := rfl
@[simp] theorem State.modJob_epoch (s : State) (j : Nat) (f : Job → Job) : (s.modJob j f).epoch = s.epoch := rfl
@[simp] theorem State.modJob_ports (s : State) (j : Nat) (f : Job → Job) : (s.modJob j f).ports = s.ports := rfl
@[simp] theorem State.modJob_qps (s : State) (j : Nat) (f : Job → Job) : (s.modJob j f).qps = s.qps := rfl
@[simp] theorem State.modJob_fabric (s : State) (j : Nat) (f : Job → Job) : (s.modJob j f).fabric = s.fabric := rfl
@[simp] theorem State.modJob_twin (s : State) (j : Nat) (f : Job → Job) : (s.modJob j f).twin = s.twin := rfl
@[simp] theorem State.modJob_hosts (s : State) (j : Nat) (f : Job → Job) : (s.modJob j f).hosts = s.hosts := rfl
@[simp] theorem State.modJob_round (s : State) (j : Nat) (f : Job → Job) : (s.modJob j f).round = s.round := rfl
@[simp] theorem State.modJob_security (s : State) (j : Nat) (f : Job → Job) : (s.modJob j f).security = s.security := rfl
@[simp] theorem State.modJob_loops (s : State) (j : Nat) (f : Job → Job) : (s.modJob j f).loops = s.loops := rfl
@[simp] theorem State.modJob_convs (s : State) (j : Nat) (f : Job → Job) : (s.modJob j f).convs = s.convs := rfl
@[simp] theorem State.modJob_sensors (s : State) (j : Nat) (f : Job → Job) : (s.modJob j f).sensors = s.sensors := rfl
@[simp] theorem State.modJob_zones (s : State) (j : Nat) (f : Job → Job) : (s.modJob j f).zones = s.zones := rfl
@[simp] theorem State.modJob_cartridges (s : State) (j : Nat) (f : Job → Job) : (s.modJob j f).cartridges = s.cartridges := rfl
@[simp] theorem State.modJob_power (s : State) (j : Nat) (f : Job → Job) : (s.modJob j f).power = s.power := rfl
@[simp] theorem State.modJob_events (s : State) (j : Nat) (f : Job → Job) : (s.modJob j f).events = s.events := rfl
@[simp] theorem State.modJob_al (s : State) (j : Nat) (f : Job → Job) : (s.modJob j f).al = s.al := rfl
@[simp] theorem State.modJob_sdo (s : State) (j : Nat) (f : Job → Job) : (s.modJob j f).sdo = s.sdo := rfl
@[simp] theorem State.modJob_sm3 (s : State) (j : Nat) (f : Job → Job) : (s.modJob j f).sm3 = s.sm3 := rfl
@[simp] theorem State.modJob_summaries (s : State) (j : Nat) (f : Job → Job) : (s.modJob j f).summaries = s.summaries := rfl
@[simp] theorem State.modJob_selects (s : State) (j : Nat) (f : Job → Job) : (s.modJob j f).selects = s.selects := rfl
@[simp] theorem State.modJob_free (s : State) (j : Nat) (f : Job → Job) : (s.modJob j f).free = s.free := rfl

@[simp] theorem State.modStream_pending (s : State) (n : Nat) (f : Stream → Stream) :
    (s.modStream n f).pending = s.pending := rfl
@[simp] theorem State.modStream_out (s : State) (n : Nat) (f : Stream → Stream) : (s.modStream n f).out = s.out := rfl
@[simp] theorem State.modStream_clock (s : State) (n : Nat) (f : Stream → Stream) : (s.modStream n f).clock = s.clock := rfl
@[simp] theorem State.modStream_time (s : State) (n : Nat) (f : Stream → Stream) : (s.modStream n f).time = s.time := rfl
@[simp] theorem State.modStream_run (s : State) (n : Nat) (f : Stream → Stream) : (s.modStream n f).run = s.run := rfl
@[simp] theorem State.modStream_od (s : State) (n : Nat) (f : Stream → Stream) : (s.modStream n f).od = s.od := rfl
@[simp] theorem State.modStream_units (s : State) (n : Nat) (f : Stream → Stream) : (s.modStream n f).units = s.units := rfl
@[simp] theorem State.modStream_mem (s : State) (n : Nat) (f : Stream → Stream) : (s.modStream n f).mem = s.mem := rfl
@[simp] theorem State.modStream_stackScrub (s : State) (n : Nat) (f : Stream → Stream) :
    (s.modStream n f).stackScrub = s.stackScrub := rfl
@[simp] theorem State.modStream_cores (s : State) (n : Nat) (f : Stream → Stream) : (s.modStream n f).cores = s.cores := rfl
@[simp] theorem State.modStream_engines (s : State) (n : Nat) (f : Stream → Stream) :
    (s.modStream n f).engines = s.engines := rfl
@[simp] theorem State.modStream_jobs (s : State) (n : Nat) (f : Stream → Stream) : (s.modStream n f).jobs = s.jobs := rfl
@[simp] theorem State.modStream_sched (s : State) (n : Nat) (f : Stream → Stream) : (s.modStream n f).sched = s.sched := rfl
@[simp] theorem State.modStream_pins (s : State) (n : Nat) (f : Stream → Stream) : (s.modStream n f).pins = s.pins := rfl
@[simp] theorem State.modStream_epoch (s : State) (n : Nat) (f : Stream → Stream) : (s.modStream n f).epoch = s.epoch := rfl
@[simp] theorem State.modStream_ports (s : State) (n : Nat) (f : Stream → Stream) : (s.modStream n f).ports = s.ports := rfl
@[simp] theorem State.modStream_qps (s : State) (n : Nat) (f : Stream → Stream) : (s.modStream n f).qps = s.qps := rfl
@[simp] theorem State.modStream_fabric (s : State) (n : Nat) (f : Stream → Stream) : (s.modStream n f).fabric = s.fabric := rfl
@[simp] theorem State.modStream_twin (s : State) (n : Nat) (f : Stream → Stream) : (s.modStream n f).twin = s.twin := rfl
@[simp] theorem State.modStream_hosts (s : State) (n : Nat) (f : Stream → Stream) : (s.modStream n f).hosts = s.hosts := rfl
@[simp] theorem State.modStream_round (s : State) (n : Nat) (f : Stream → Stream) : (s.modStream n f).round = s.round := rfl
@[simp] theorem State.modStream_security (s : State) (n : Nat) (f : Stream → Stream) :
    (s.modStream n f).security = s.security := rfl
@[simp] theorem State.modStream_loops (s : State) (n : Nat) (f : Stream → Stream) : (s.modStream n f).loops = s.loops := rfl
@[simp] theorem State.modStream_convs (s : State) (n : Nat) (f : Stream → Stream) : (s.modStream n f).convs = s.convs := rfl
@[simp] theorem State.modStream_sensors (s : State) (n : Nat) (f : Stream → Stream) :
    (s.modStream n f).sensors = s.sensors := rfl
@[simp] theorem State.modStream_zones (s : State) (n : Nat) (f : Stream → Stream) : (s.modStream n f).zones = s.zones := rfl
@[simp] theorem State.modStream_cartridges (s : State) (n : Nat) (f : Stream → Stream) :
    (s.modStream n f).cartridges = s.cartridges := rfl
@[simp] theorem State.modStream_power (s : State) (n : Nat) (f : Stream → Stream) : (s.modStream n f).power = s.power := rfl
@[simp] theorem State.modStream_events (s : State) (n : Nat) (f : Stream → Stream) : (s.modStream n f).events = s.events := rfl
@[simp] theorem State.modStream_al (s : State) (n : Nat) (f : Stream → Stream) : (s.modStream n f).al = s.al := rfl
@[simp] theorem State.modStream_sdo (s : State) (n : Nat) (f : Stream → Stream) : (s.modStream n f).sdo = s.sdo := rfl
@[simp] theorem State.modStream_sm3 (s : State) (n : Nat) (f : Stream → Stream) : (s.modStream n f).sm3 = s.sm3 := rfl
@[simp] theorem State.modStream_summaries (s : State) (n : Nat) (f : Stream → Stream) :
    (s.modStream n f).summaries = s.summaries := rfl
@[simp] theorem State.modStream_selects (s : State) (n : Nat) (f : Stream → Stream) :
    (s.modStream n f).selects = s.selects := rfl
@[simp] theorem State.modStream_free (s : State) (n : Nat) (f : Stream → Stream) : (s.modStream n f).free = s.free := rfl

@[simp] theorem State.modPort_pending (s : State) (n : Nat) (f : Port → Port) : (s.modPort n f).pending = s.pending := rfl
@[simp] theorem State.modPort_out (s : State) (n : Nat) (f : Port → Port) : (s.modPort n f).out = s.out := rfl
@[simp] theorem State.modPort_clock (s : State) (n : Nat) (f : Port → Port) : (s.modPort n f).clock = s.clock := rfl
@[simp] theorem State.modPort_time (s : State) (n : Nat) (f : Port → Port) : (s.modPort n f).time = s.time := rfl
@[simp] theorem State.modPort_run (s : State) (n : Nat) (f : Port → Port) : (s.modPort n f).run = s.run := rfl
@[simp] theorem State.modPort_od (s : State) (n : Nat) (f : Port → Port) : (s.modPort n f).od = s.od := rfl
@[simp] theorem State.modPort_units (s : State) (n : Nat) (f : Port → Port) : (s.modPort n f).units = s.units := rfl
@[simp] theorem State.modPort_mem (s : State) (n : Nat) (f : Port → Port) : (s.modPort n f).mem = s.mem := rfl
@[simp] theorem State.modPort_stackScrub (s : State) (n : Nat) (f : Port → Port) :
    (s.modPort n f).stackScrub = s.stackScrub := rfl
@[simp] theorem State.modPort_cores (s : State) (n : Nat) (f : Port → Port) : (s.modPort n f).cores = s.cores := rfl
@[simp] theorem State.modPort_engines (s : State) (n : Nat) (f : Port → Port) : (s.modPort n f).engines = s.engines := rfl
@[simp] theorem State.modPort_jobs (s : State) (n : Nat) (f : Port → Port) : (s.modPort n f).jobs = s.jobs := rfl
@[simp] theorem State.modPort_streams (s : State) (n : Nat) (f : Port → Port) : (s.modPort n f).streams = s.streams := rfl
@[simp] theorem State.modPort_sched (s : State) (n : Nat) (f : Port → Port) : (s.modPort n f).sched = s.sched := rfl
@[simp] theorem State.modPort_pins (s : State) (n : Nat) (f : Port → Port) : (s.modPort n f).pins = s.pins := rfl
@[simp] theorem State.modPort_epoch (s : State) (n : Nat) (f : Port → Port) : (s.modPort n f).epoch = s.epoch := rfl
@[simp] theorem State.modPort_qps (s : State) (n : Nat) (f : Port → Port) : (s.modPort n f).qps = s.qps := rfl
@[simp] theorem State.modPort_fabric (s : State) (n : Nat) (f : Port → Port) : (s.modPort n f).fabric = s.fabric := rfl
@[simp] theorem State.modPort_twin (s : State) (n : Nat) (f : Port → Port) : (s.modPort n f).twin = s.twin := rfl
@[simp] theorem State.modPort_hosts (s : State) (n : Nat) (f : Port → Port) : (s.modPort n f).hosts = s.hosts := rfl
@[simp] theorem State.modPort_round (s : State) (n : Nat) (f : Port → Port) : (s.modPort n f).round = s.round := rfl
@[simp] theorem State.modPort_security (s : State) (n : Nat) (f : Port → Port) : (s.modPort n f).security = s.security := rfl
@[simp] theorem State.modPort_loops (s : State) (n : Nat) (f : Port → Port) : (s.modPort n f).loops = s.loops := rfl
@[simp] theorem State.modPort_convs (s : State) (n : Nat) (f : Port → Port) : (s.modPort n f).convs = s.convs := rfl
@[simp] theorem State.modPort_sensors (s : State) (n : Nat) (f : Port → Port) : (s.modPort n f).sensors = s.sensors := rfl
@[simp] theorem State.modPort_zones (s : State) (n : Nat) (f : Port → Port) : (s.modPort n f).zones = s.zones := rfl
@[simp] theorem State.modPort_cartridges (s : State) (n : Nat) (f : Port → Port) :
    (s.modPort n f).cartridges = s.cartridges := rfl
@[simp] theorem State.modPort_power (s : State) (n : Nat) (f : Port → Port) : (s.modPort n f).power = s.power := rfl
@[simp] theorem State.modPort_events (s : State) (n : Nat) (f : Port → Port) : (s.modPort n f).events = s.events := rfl
@[simp] theorem State.modPort_al (s : State) (n : Nat) (f : Port → Port) : (s.modPort n f).al = s.al := rfl
@[simp] theorem State.modPort_sdo (s : State) (n : Nat) (f : Port → Port) : (s.modPort n f).sdo = s.sdo := rfl
@[simp] theorem State.modPort_sm3 (s : State) (n : Nat) (f : Port → Port) : (s.modPort n f).sm3 = s.sm3 := rfl
@[simp] theorem State.modPort_summaries (s : State) (n : Nat) (f : Port → Port) : (s.modPort n f).summaries = s.summaries := rfl
@[simp] theorem State.modPort_selects (s : State) (n : Nat) (f : Port → Port) : (s.modPort n f).selects = s.selects := rfl
@[simp] theorem State.modPort_free (s : State) (n : Nat) (f : Port → Port) : (s.modPort n f).free = s.free := rfl

@[simp] theorem State.modQp_pending (s : State) (n : Nat) (f : Qp → Qp) : (s.modQp n f).pending = s.pending := rfl
@[simp] theorem State.modQp_out (s : State) (n : Nat) (f : Qp → Qp) : (s.modQp n f).out = s.out := rfl
@[simp] theorem State.modQp_clock (s : State) (n : Nat) (f : Qp → Qp) : (s.modQp n f).clock = s.clock := rfl
@[simp] theorem State.modQp_time (s : State) (n : Nat) (f : Qp → Qp) : (s.modQp n f).time = s.time := rfl
@[simp] theorem State.modQp_run (s : State) (n : Nat) (f : Qp → Qp) : (s.modQp n f).run = s.run := rfl
@[simp] theorem State.modQp_od (s : State) (n : Nat) (f : Qp → Qp) : (s.modQp n f).od = s.od := rfl
@[simp] theorem State.modQp_units (s : State) (n : Nat) (f : Qp → Qp) : (s.modQp n f).units = s.units := rfl
@[simp] theorem State.modQp_mem (s : State) (n : Nat) (f : Qp → Qp) : (s.modQp n f).mem = s.mem := rfl
@[simp] theorem State.modQp_stackScrub (s : State) (n : Nat) (f : Qp → Qp) : (s.modQp n f).stackScrub = s.stackScrub := rfl
@[simp] theorem State.modQp_cores (s : State) (n : Nat) (f : Qp → Qp) : (s.modQp n f).cores = s.cores := rfl
@[simp] theorem State.modQp_engines (s : State) (n : Nat) (f : Qp → Qp) : (s.modQp n f).engines = s.engines := rfl
@[simp] theorem State.modQp_jobs (s : State) (n : Nat) (f : Qp → Qp) : (s.modQp n f).jobs = s.jobs := rfl
@[simp] theorem State.modQp_streams (s : State) (n : Nat) (f : Qp → Qp) : (s.modQp n f).streams = s.streams := rfl
@[simp] theorem State.modQp_sched (s : State) (n : Nat) (f : Qp → Qp) : (s.modQp n f).sched = s.sched := rfl
@[simp] theorem State.modQp_pins (s : State) (n : Nat) (f : Qp → Qp) : (s.modQp n f).pins = s.pins := rfl
@[simp] theorem State.modQp_epoch (s : State) (n : Nat) (f : Qp → Qp) : (s.modQp n f).epoch = s.epoch := rfl
@[simp] theorem State.modQp_ports (s : State) (n : Nat) (f : Qp → Qp) : (s.modQp n f).ports = s.ports := rfl
@[simp] theorem State.modQp_fabric (s : State) (n : Nat) (f : Qp → Qp) : (s.modQp n f).fabric = s.fabric := rfl
@[simp] theorem State.modQp_twin (s : State) (n : Nat) (f : Qp → Qp) : (s.modQp n f).twin = s.twin := rfl
@[simp] theorem State.modQp_hosts (s : State) (n : Nat) (f : Qp → Qp) : (s.modQp n f).hosts = s.hosts := rfl
@[simp] theorem State.modQp_round (s : State) (n : Nat) (f : Qp → Qp) : (s.modQp n f).round = s.round := rfl
@[simp] theorem State.modQp_security (s : State) (n : Nat) (f : Qp → Qp) : (s.modQp n f).security = s.security := rfl
@[simp] theorem State.modQp_loops (s : State) (n : Nat) (f : Qp → Qp) : (s.modQp n f).loops = s.loops := rfl
@[simp] theorem State.modQp_convs (s : State) (n : Nat) (f : Qp → Qp) : (s.modQp n f).convs = s.convs := rfl
@[simp] theorem State.modQp_sensors (s : State) (n : Nat) (f : Qp → Qp) : (s.modQp n f).sensors = s.sensors := rfl
@[simp] theorem State.modQp_zones (s : State) (n : Nat) (f : Qp → Qp) : (s.modQp n f).zones = s.zones := rfl
@[simp] theorem State.modQp_cartridges (s : State) (n : Nat) (f : Qp → Qp) : (s.modQp n f).cartridges = s.cartridges := rfl
@[simp] theorem State.modQp_power (s : State) (n : Nat) (f : Qp → Qp) : (s.modQp n f).power = s.power := rfl
@[simp] theorem State.modQp_events (s : State) (n : Nat) (f : Qp → Qp) : (s.modQp n f).events = s.events := rfl
@[simp] theorem State.modQp_al (s : State) (n : Nat) (f : Qp → Qp) : (s.modQp n f).al = s.al := rfl
@[simp] theorem State.modQp_sdo (s : State) (n : Nat) (f : Qp → Qp) : (s.modQp n f).sdo = s.sdo := rfl
@[simp] theorem State.modQp_sm3 (s : State) (n : Nat) (f : Qp → Qp) : (s.modQp n f).sm3 = s.sm3 := rfl
@[simp] theorem State.modQp_summaries (s : State) (n : Nat) (f : Qp → Qp) : (s.modQp n f).summaries = s.summaries := rfl
@[simp] theorem State.modQp_selects (s : State) (n : Nat) (f : Qp → Qp) : (s.modQp n f).selects = s.selects := rfl
@[simp] theorem State.modQp_free (s : State) (n : Nat) (f : Qp → Qp) : (s.modQp n f).free = s.free := rfl

@[simp] theorem State.modHost_pending (s : State) (p : Nat) (f : HostPort → HostPort) :
    (s.modHost p f).pending = s.pending := rfl
@[simp] theorem State.modHost_out (s : State) (p : Nat) (f : HostPort → HostPort) : (s.modHost p f).out = s.out := rfl
@[simp] theorem State.modHost_clock (s : State) (p : Nat) (f : HostPort → HostPort) : (s.modHost p f).clock = s.clock := rfl
@[simp] theorem State.modHost_time (s : State) (p : Nat) (f : HostPort → HostPort) : (s.modHost p f).time = s.time := rfl
@[simp] theorem State.modHost_run (s : State) (p : Nat) (f : HostPort → HostPort) : (s.modHost p f).run = s.run := rfl
@[simp] theorem State.modHost_od (s : State) (p : Nat) (f : HostPort → HostPort) : (s.modHost p f).od = s.od := rfl
@[simp] theorem State.modHost_units (s : State) (p : Nat) (f : HostPort → HostPort) : (s.modHost p f).units = s.units := rfl
@[simp] theorem State.modHost_mem (s : State) (p : Nat) (f : HostPort → HostPort) : (s.modHost p f).mem = s.mem := rfl
@[simp] theorem State.modHost_stackScrub (s : State) (p : Nat) (f : HostPort → HostPort) :
    (s.modHost p f).stackScrub = s.stackScrub := rfl
@[simp] theorem State.modHost_cores (s : State) (p : Nat) (f : HostPort → HostPort) : (s.modHost p f).cores = s.cores := rfl
@[simp] theorem State.modHost_engines (s : State) (p : Nat) (f : HostPort → HostPort) :
    (s.modHost p f).engines = s.engines := rfl
@[simp] theorem State.modHost_jobs (s : State) (p : Nat) (f : HostPort → HostPort) : (s.modHost p f).jobs = s.jobs := rfl
@[simp] theorem State.modHost_streams (s : State) (p : Nat) (f : HostPort → HostPort) :
    (s.modHost p f).streams = s.streams := rfl
@[simp] theorem State.modHost_sched (s : State) (p : Nat) (f : HostPort → HostPort) : (s.modHost p f).sched = s.sched := rfl
@[simp] theorem State.modHost_pins (s : State) (p : Nat) (f : HostPort → HostPort) : (s.modHost p f).pins = s.pins := rfl
@[simp] theorem State.modHost_epoch (s : State) (p : Nat) (f : HostPort → HostPort) : (s.modHost p f).epoch = s.epoch := rfl
@[simp] theorem State.modHost_ports (s : State) (p : Nat) (f : HostPort → HostPort) : (s.modHost p f).ports = s.ports := rfl
@[simp] theorem State.modHost_qps (s : State) (p : Nat) (f : HostPort → HostPort) : (s.modHost p f).qps = s.qps := rfl
@[simp] theorem State.modHost_fabric (s : State) (p : Nat) (f : HostPort → HostPort) : (s.modHost p f).fabric = s.fabric := rfl
@[simp] theorem State.modHost_twin (s : State) (p : Nat) (f : HostPort → HostPort) : (s.modHost p f).twin = s.twin := rfl
@[simp] theorem State.modHost_round (s : State) (p : Nat) (f : HostPort → HostPort) : (s.modHost p f).round = s.round := rfl
@[simp] theorem State.modHost_security (s : State) (p : Nat) (f : HostPort → HostPort) :
    (s.modHost p f).security = s.security := rfl
@[simp] theorem State.modHost_loops (s : State) (p : Nat) (f : HostPort → HostPort) : (s.modHost p f).loops = s.loops := rfl
@[simp] theorem State.modHost_convs (s : State) (p : Nat) (f : HostPort → HostPort) : (s.modHost p f).convs = s.convs := rfl
@[simp] theorem State.modHost_sensors (s : State) (p : Nat) (f : HostPort → HostPort) :
    (s.modHost p f).sensors = s.sensors := rfl
@[simp] theorem State.modHost_zones (s : State) (p : Nat) (f : HostPort → HostPort) : (s.modHost p f).zones = s.zones := rfl
@[simp] theorem State.modHost_cartridges (s : State) (p : Nat) (f : HostPort → HostPort) :
    (s.modHost p f).cartridges = s.cartridges := rfl
@[simp] theorem State.modHost_power (s : State) (p : Nat) (f : HostPort → HostPort) : (s.modHost p f).power = s.power := rfl
@[simp] theorem State.modHost_events (s : State) (p : Nat) (f : HostPort → HostPort) : (s.modHost p f).events = s.events := rfl
@[simp] theorem State.modHost_al (s : State) (p : Nat) (f : HostPort → HostPort) : (s.modHost p f).al = s.al := rfl
@[simp] theorem State.modHost_sdo (s : State) (p : Nat) (f : HostPort → HostPort) : (s.modHost p f).sdo = s.sdo := rfl
@[simp] theorem State.modHost_sm3 (s : State) (p : Nat) (f : HostPort → HostPort) : (s.modHost p f).sm3 = s.sm3 := rfl
@[simp] theorem State.modHost_summaries (s : State) (p : Nat) (f : HostPort → HostPort) :
    (s.modHost p f).summaries = s.summaries := rfl
@[simp] theorem State.modHost_selects (s : State) (p : Nat) (f : HostPort → HostPort) :
    (s.modHost p f).selects = s.selects := rfl
@[simp] theorem State.modHost_free (s : State) (p : Nat) (f : HostPort → HostPort) : (s.modHost p f).free = s.free := rfl

@[simp] theorem State.modLoops_pending (s : State) (c : Nat) (f : LoopCore → LoopCore) :
    (s.modLoops c f).pending = s.pending := rfl
@[simp] theorem State.modLoops_out (s : State) (c : Nat) (f : LoopCore → LoopCore) : (s.modLoops c f).out = s.out := rfl
@[simp] theorem State.modLoops_clock (s : State) (c : Nat) (f : LoopCore → LoopCore) : (s.modLoops c f).clock = s.clock := rfl
@[simp] theorem State.modLoops_time (s : State) (c : Nat) (f : LoopCore → LoopCore) : (s.modLoops c f).time = s.time := rfl
@[simp] theorem State.modLoops_run (s : State) (c : Nat) (f : LoopCore → LoopCore) : (s.modLoops c f).run = s.run := rfl
@[simp] theorem State.modLoops_od (s : State) (c : Nat) (f : LoopCore → LoopCore) : (s.modLoops c f).od = s.od := rfl
@[simp] theorem State.modLoops_units (s : State) (c : Nat) (f : LoopCore → LoopCore) : (s.modLoops c f).units = s.units := rfl
@[simp] theorem State.modLoops_mem (s : State) (c : Nat) (f : LoopCore → LoopCore) : (s.modLoops c f).mem = s.mem := rfl
@[simp] theorem State.modLoops_stackScrub (s : State) (c : Nat) (f : LoopCore → LoopCore) :
    (s.modLoops c f).stackScrub = s.stackScrub := rfl
@[simp] theorem State.modLoops_cores (s : State) (c : Nat) (f : LoopCore → LoopCore) : (s.modLoops c f).cores = s.cores := rfl
@[simp] theorem State.modLoops_engines (s : State) (c : Nat) (f : LoopCore → LoopCore) :
    (s.modLoops c f).engines = s.engines := rfl
@[simp] theorem State.modLoops_jobs (s : State) (c : Nat) (f : LoopCore → LoopCore) : (s.modLoops c f).jobs = s.jobs := rfl
@[simp] theorem State.modLoops_streams (s : State) (c : Nat) (f : LoopCore → LoopCore) :
    (s.modLoops c f).streams = s.streams := rfl
@[simp] theorem State.modLoops_sched (s : State) (c : Nat) (f : LoopCore → LoopCore) : (s.modLoops c f).sched = s.sched := rfl
@[simp] theorem State.modLoops_pins (s : State) (c : Nat) (f : LoopCore → LoopCore) : (s.modLoops c f).pins = s.pins := rfl
@[simp] theorem State.modLoops_epoch (s : State) (c : Nat) (f : LoopCore → LoopCore) : (s.modLoops c f).epoch = s.epoch := rfl
@[simp] theorem State.modLoops_ports (s : State) (c : Nat) (f : LoopCore → LoopCore) : (s.modLoops c f).ports = s.ports := rfl
@[simp] theorem State.modLoops_qps (s : State) (c : Nat) (f : LoopCore → LoopCore) : (s.modLoops c f).qps = s.qps := rfl
@[simp] theorem State.modLoops_fabric (s : State) (c : Nat) (f : LoopCore → LoopCore) :
    (s.modLoops c f).fabric = s.fabric := rfl
@[simp] theorem State.modLoops_twin (s : State) (c : Nat) (f : LoopCore → LoopCore) : (s.modLoops c f).twin = s.twin := rfl
@[simp] theorem State.modLoops_hosts (s : State) (c : Nat) (f : LoopCore → LoopCore) : (s.modLoops c f).hosts = s.hosts := rfl
@[simp] theorem State.modLoops_round (s : State) (c : Nat) (f : LoopCore → LoopCore) : (s.modLoops c f).round = s.round := rfl
@[simp] theorem State.modLoops_security (s : State) (c : Nat) (f : LoopCore → LoopCore) :
    (s.modLoops c f).security = s.security := rfl
@[simp] theorem State.modLoops_convs (s : State) (c : Nat) (f : LoopCore → LoopCore) : (s.modLoops c f).convs = s.convs := rfl
@[simp] theorem State.modLoops_sensors (s : State) (c : Nat) (f : LoopCore → LoopCore) :
    (s.modLoops c f).sensors = s.sensors := rfl
@[simp] theorem State.modLoops_zones (s : State) (c : Nat) (f : LoopCore → LoopCore) : (s.modLoops c f).zones = s.zones := rfl
@[simp] theorem State.modLoops_cartridges (s : State) (c : Nat) (f : LoopCore → LoopCore) :
    (s.modLoops c f).cartridges = s.cartridges := rfl
@[simp] theorem State.modLoops_power (s : State) (c : Nat) (f : LoopCore → LoopCore) : (s.modLoops c f).power = s.power := rfl
@[simp] theorem State.modLoops_events (s : State) (c : Nat) (f : LoopCore → LoopCore) :
    (s.modLoops c f).events = s.events := rfl
@[simp] theorem State.modLoops_al (s : State) (c : Nat) (f : LoopCore → LoopCore) : (s.modLoops c f).al = s.al := rfl
@[simp] theorem State.modLoops_sdo (s : State) (c : Nat) (f : LoopCore → LoopCore) : (s.modLoops c f).sdo = s.sdo := rfl
@[simp] theorem State.modLoops_sm3 (s : State) (c : Nat) (f : LoopCore → LoopCore) : (s.modLoops c f).sm3 = s.sm3 := rfl
@[simp] theorem State.modLoops_summaries (s : State) (c : Nat) (f : LoopCore → LoopCore) :
    (s.modLoops c f).summaries = s.summaries := rfl
@[simp] theorem State.modLoops_selects (s : State) (c : Nat) (f : LoopCore → LoopCore) :
    (s.modLoops c f).selects = s.selects := rfl
@[simp] theorem State.modLoops_free (s : State) (c : Nat) (f : LoopCore → LoopCore) : (s.modLoops c f).free = s.free := rfl

@[simp] theorem State.modConv_pending (s : State) (c : Nat) (f : Converters → Converters) :
    (s.modConv c f).pending = s.pending := rfl
@[simp] theorem State.modConv_out (s : State) (c : Nat) (f : Converters → Converters) : (s.modConv c f).out = s.out := rfl
@[simp] theorem State.modConv_clock (s : State) (c : Nat) (f : Converters → Converters) : (s.modConv c f).clock = s.clock := rfl
@[simp] theorem State.modConv_time (s : State) (c : Nat) (f : Converters → Converters) : (s.modConv c f).time = s.time := rfl
@[simp] theorem State.modConv_run (s : State) (c : Nat) (f : Converters → Converters) : (s.modConv c f).run = s.run := rfl
@[simp] theorem State.modConv_od (s : State) (c : Nat) (f : Converters → Converters) : (s.modConv c f).od = s.od := rfl
@[simp] theorem State.modConv_units (s : State) (c : Nat) (f : Converters → Converters) : (s.modConv c f).units = s.units := rfl
@[simp] theorem State.modConv_mem (s : State) (c : Nat) (f : Converters → Converters) : (s.modConv c f).mem = s.mem := rfl
@[simp] theorem State.modConv_stackScrub (s : State) (c : Nat) (f : Converters → Converters) :
    (s.modConv c f).stackScrub = s.stackScrub := rfl
@[simp] theorem State.modConv_cores (s : State) (c : Nat) (f : Converters → Converters) : (s.modConv c f).cores = s.cores := rfl
@[simp] theorem State.modConv_engines (s : State) (c : Nat) (f : Converters → Converters) :
    (s.modConv c f).engines = s.engines := rfl
@[simp] theorem State.modConv_jobs (s : State) (c : Nat) (f : Converters → Converters) : (s.modConv c f).jobs = s.jobs := rfl
@[simp] theorem State.modConv_streams (s : State) (c : Nat) (f : Converters → Converters) :
    (s.modConv c f).streams = s.streams := rfl
@[simp] theorem State.modConv_sched (s : State) (c : Nat) (f : Converters → Converters) : (s.modConv c f).sched = s.sched := rfl
@[simp] theorem State.modConv_pins (s : State) (c : Nat) (f : Converters → Converters) : (s.modConv c f).pins = s.pins := rfl
@[simp] theorem State.modConv_epoch (s : State) (c : Nat) (f : Converters → Converters) : (s.modConv c f).epoch = s.epoch := rfl
@[simp] theorem State.modConv_ports (s : State) (c : Nat) (f : Converters → Converters) : (s.modConv c f).ports = s.ports := rfl
@[simp] theorem State.modConv_qps (s : State) (c : Nat) (f : Converters → Converters) : (s.modConv c f).qps = s.qps := rfl
@[simp] theorem State.modConv_fabric (s : State) (c : Nat) (f : Converters → Converters) :
    (s.modConv c f).fabric = s.fabric := rfl
@[simp] theorem State.modConv_twin (s : State) (c : Nat) (f : Converters → Converters) : (s.modConv c f).twin = s.twin := rfl
@[simp] theorem State.modConv_hosts (s : State) (c : Nat) (f : Converters → Converters) : (s.modConv c f).hosts = s.hosts := rfl
@[simp] theorem State.modConv_round (s : State) (c : Nat) (f : Converters → Converters) : (s.modConv c f).round = s.round := rfl
@[simp] theorem State.modConv_security (s : State) (c : Nat) (f : Converters → Converters) :
    (s.modConv c f).security = s.security := rfl
@[simp] theorem State.modConv_loops (s : State) (c : Nat) (f : Converters → Converters) : (s.modConv c f).loops = s.loops := rfl
@[simp] theorem State.modConv_sensors (s : State) (c : Nat) (f : Converters → Converters) :
    (s.modConv c f).sensors = s.sensors := rfl
@[simp] theorem State.modConv_zones (s : State) (c : Nat) (f : Converters → Converters) : (s.modConv c f).zones = s.zones := rfl
@[simp] theorem State.modConv_cartridges (s : State) (c : Nat) (f : Converters → Converters) :
    (s.modConv c f).cartridges = s.cartridges := rfl
@[simp] theorem State.modConv_power (s : State) (c : Nat) (f : Converters → Converters) : (s.modConv c f).power = s.power := rfl
@[simp] theorem State.modConv_events (s : State) (c : Nat) (f : Converters → Converters) :
    (s.modConv c f).events = s.events := rfl
@[simp] theorem State.modConv_al (s : State) (c : Nat) (f : Converters → Converters) : (s.modConv c f).al = s.al := rfl
@[simp] theorem State.modConv_sdo (s : State) (c : Nat) (f : Converters → Converters) : (s.modConv c f).sdo = s.sdo := rfl
@[simp] theorem State.modConv_sm3 (s : State) (c : Nat) (f : Converters → Converters) : (s.modConv c f).sm3 = s.sm3 := rfl
@[simp] theorem State.modConv_summaries (s : State) (c : Nat) (f : Converters → Converters) :
    (s.modConv c f).summaries = s.summaries := rfl
@[simp] theorem State.modConv_selects (s : State) (c : Nat) (f : Converters → Converters) :
    (s.modConv c f).selects = s.selects := rfl
@[simp] theorem State.modConv_free (s : State) (c : Nat) (f : Converters → Converters) : (s.modConv c f).free = s.free := rfl

@[simp] theorem State.modZone_pending (s : State) (z : Nat) (f : Zone → Zone) : (s.modZone z f).pending = s.pending := rfl
@[simp] theorem State.modZone_out (s : State) (z : Nat) (f : Zone → Zone) : (s.modZone z f).out = s.out := rfl
@[simp] theorem State.modZone_clock (s : State) (z : Nat) (f : Zone → Zone) : (s.modZone z f).clock = s.clock := rfl
@[simp] theorem State.modZone_time (s : State) (z : Nat) (f : Zone → Zone) : (s.modZone z f).time = s.time := rfl
@[simp] theorem State.modZone_run (s : State) (z : Nat) (f : Zone → Zone) : (s.modZone z f).run = s.run := rfl
@[simp] theorem State.modZone_od (s : State) (z : Nat) (f : Zone → Zone) : (s.modZone z f).od = s.od := rfl
@[simp] theorem State.modZone_units (s : State) (z : Nat) (f : Zone → Zone) : (s.modZone z f).units = s.units := rfl
@[simp] theorem State.modZone_mem (s : State) (z : Nat) (f : Zone → Zone) : (s.modZone z f).mem = s.mem := rfl
@[simp] theorem State.modZone_stackScrub (s : State) (z : Nat) (f : Zone → Zone) :
    (s.modZone z f).stackScrub = s.stackScrub := rfl
@[simp] theorem State.modZone_cores (s : State) (z : Nat) (f : Zone → Zone) : (s.modZone z f).cores = s.cores := rfl
@[simp] theorem State.modZone_engines (s : State) (z : Nat) (f : Zone → Zone) : (s.modZone z f).engines = s.engines := rfl
@[simp] theorem State.modZone_jobs (s : State) (z : Nat) (f : Zone → Zone) : (s.modZone z f).jobs = s.jobs := rfl
@[simp] theorem State.modZone_streams (s : State) (z : Nat) (f : Zone → Zone) : (s.modZone z f).streams = s.streams := rfl
@[simp] theorem State.modZone_sched (s : State) (z : Nat) (f : Zone → Zone) : (s.modZone z f).sched = s.sched := rfl
@[simp] theorem State.modZone_pins (s : State) (z : Nat) (f : Zone → Zone) : (s.modZone z f).pins = s.pins := rfl
@[simp] theorem State.modZone_epoch (s : State) (z : Nat) (f : Zone → Zone) : (s.modZone z f).epoch = s.epoch := rfl
@[simp] theorem State.modZone_ports (s : State) (z : Nat) (f : Zone → Zone) : (s.modZone z f).ports = s.ports := rfl
@[simp] theorem State.modZone_qps (s : State) (z : Nat) (f : Zone → Zone) : (s.modZone z f).qps = s.qps := rfl
@[simp] theorem State.modZone_fabric (s : State) (z : Nat) (f : Zone → Zone) : (s.modZone z f).fabric = s.fabric := rfl
@[simp] theorem State.modZone_twin (s : State) (z : Nat) (f : Zone → Zone) : (s.modZone z f).twin = s.twin := rfl
@[simp] theorem State.modZone_hosts (s : State) (z : Nat) (f : Zone → Zone) : (s.modZone z f).hosts = s.hosts := rfl
@[simp] theorem State.modZone_round (s : State) (z : Nat) (f : Zone → Zone) : (s.modZone z f).round = s.round := rfl
@[simp] theorem State.modZone_security (s : State) (z : Nat) (f : Zone → Zone) : (s.modZone z f).security = s.security := rfl
@[simp] theorem State.modZone_loops (s : State) (z : Nat) (f : Zone → Zone) : (s.modZone z f).loops = s.loops := rfl
@[simp] theorem State.modZone_convs (s : State) (z : Nat) (f : Zone → Zone) : (s.modZone z f).convs = s.convs := rfl
@[simp] theorem State.modZone_sensors (s : State) (z : Nat) (f : Zone → Zone) : (s.modZone z f).sensors = s.sensors := rfl
@[simp] theorem State.modZone_cartridges (s : State) (z : Nat) (f : Zone → Zone) :
    (s.modZone z f).cartridges = s.cartridges := rfl
@[simp] theorem State.modZone_power (s : State) (z : Nat) (f : Zone → Zone) : (s.modZone z f).power = s.power := rfl
@[simp] theorem State.modZone_events (s : State) (z : Nat) (f : Zone → Zone) : (s.modZone z f).events = s.events := rfl
@[simp] theorem State.modZone_al (s : State) (z : Nat) (f : Zone → Zone) : (s.modZone z f).al = s.al := rfl
@[simp] theorem State.modZone_sdo (s : State) (z : Nat) (f : Zone → Zone) : (s.modZone z f).sdo = s.sdo := rfl
@[simp] theorem State.modZone_sm3 (s : State) (z : Nat) (f : Zone → Zone) : (s.modZone z f).sm3 = s.sm3 := rfl
@[simp] theorem State.modZone_summaries (s : State) (z : Nat) (f : Zone → Zone) : (s.modZone z f).summaries = s.summaries := rfl
@[simp] theorem State.modZone_selects (s : State) (z : Nat) (f : Zone → Zone) : (s.modZone z f).selects = s.selects := rfl
@[simp] theorem State.modZone_free (s : State) (z : Nat) (f : Zone → Zone) : (s.modZone z f).free = s.free := rfl

@[simp] theorem State.modCart_pending (s : State) (l : Nat) (f : Cartridge → Cartridge) :
    (s.modCart l f).pending = s.pending := rfl
@[simp] theorem State.modCart_out (s : State) (l : Nat) (f : Cartridge → Cartridge) : (s.modCart l f).out = s.out := rfl
@[simp] theorem State.modCart_clock (s : State) (l : Nat) (f : Cartridge → Cartridge) : (s.modCart l f).clock = s.clock := rfl
@[simp] theorem State.modCart_time (s : State) (l : Nat) (f : Cartridge → Cartridge) : (s.modCart l f).time = s.time := rfl
@[simp] theorem State.modCart_run (s : State) (l : Nat) (f : Cartridge → Cartridge) : (s.modCart l f).run = s.run := rfl
@[simp] theorem State.modCart_od (s : State) (l : Nat) (f : Cartridge → Cartridge) : (s.modCart l f).od = s.od := rfl
@[simp] theorem State.modCart_units (s : State) (l : Nat) (f : Cartridge → Cartridge) : (s.modCart l f).units = s.units := rfl
@[simp] theorem State.modCart_mem (s : State) (l : Nat) (f : Cartridge → Cartridge) : (s.modCart l f).mem = s.mem := rfl
@[simp] theorem State.modCart_stackScrub (s : State) (l : Nat) (f : Cartridge → Cartridge) :
    (s.modCart l f).stackScrub = s.stackScrub := rfl
@[simp] theorem State.modCart_cores (s : State) (l : Nat) (f : Cartridge → Cartridge) : (s.modCart l f).cores = s.cores := rfl
@[simp] theorem State.modCart_engines (s : State) (l : Nat) (f : Cartridge → Cartridge) :
    (s.modCart l f).engines = s.engines := rfl
@[simp] theorem State.modCart_jobs (s : State) (l : Nat) (f : Cartridge → Cartridge) : (s.modCart l f).jobs = s.jobs := rfl
@[simp] theorem State.modCart_streams (s : State) (l : Nat) (f : Cartridge → Cartridge) :
    (s.modCart l f).streams = s.streams := rfl
@[simp] theorem State.modCart_sched (s : State) (l : Nat) (f : Cartridge → Cartridge) : (s.modCart l f).sched = s.sched := rfl
@[simp] theorem State.modCart_pins (s : State) (l : Nat) (f : Cartridge → Cartridge) : (s.modCart l f).pins = s.pins := rfl
@[simp] theorem State.modCart_epoch (s : State) (l : Nat) (f : Cartridge → Cartridge) : (s.modCart l f).epoch = s.epoch := rfl
@[simp] theorem State.modCart_ports (s : State) (l : Nat) (f : Cartridge → Cartridge) : (s.modCart l f).ports = s.ports := rfl
@[simp] theorem State.modCart_qps (s : State) (l : Nat) (f : Cartridge → Cartridge) : (s.modCart l f).qps = s.qps := rfl
@[simp] theorem State.modCart_fabric (s : State) (l : Nat) (f : Cartridge → Cartridge) :
    (s.modCart l f).fabric = s.fabric := rfl
@[simp] theorem State.modCart_twin (s : State) (l : Nat) (f : Cartridge → Cartridge) : (s.modCart l f).twin = s.twin := rfl
@[simp] theorem State.modCart_hosts (s : State) (l : Nat) (f : Cartridge → Cartridge) : (s.modCart l f).hosts = s.hosts := rfl
@[simp] theorem State.modCart_round (s : State) (l : Nat) (f : Cartridge → Cartridge) : (s.modCart l f).round = s.round := rfl
@[simp] theorem State.modCart_security (s : State) (l : Nat) (f : Cartridge → Cartridge) :
    (s.modCart l f).security = s.security := rfl
@[simp] theorem State.modCart_loops (s : State) (l : Nat) (f : Cartridge → Cartridge) : (s.modCart l f).loops = s.loops := rfl
@[simp] theorem State.modCart_convs (s : State) (l : Nat) (f : Cartridge → Cartridge) : (s.modCart l f).convs = s.convs := rfl
@[simp] theorem State.modCart_sensors (s : State) (l : Nat) (f : Cartridge → Cartridge) :
    (s.modCart l f).sensors = s.sensors := rfl
@[simp] theorem State.modCart_zones (s : State) (l : Nat) (f : Cartridge → Cartridge) : (s.modCart l f).zones = s.zones := rfl
@[simp] theorem State.modCart_power (s : State) (l : Nat) (f : Cartridge → Cartridge) : (s.modCart l f).power = s.power := rfl
@[simp] theorem State.modCart_events (s : State) (l : Nat) (f : Cartridge → Cartridge) :
    (s.modCart l f).events = s.events := rfl
@[simp] theorem State.modCart_al (s : State) (l : Nat) (f : Cartridge → Cartridge) : (s.modCart l f).al = s.al := rfl
@[simp] theorem State.modCart_sdo (s : State) (l : Nat) (f : Cartridge → Cartridge) : (s.modCart l f).sdo = s.sdo := rfl
@[simp] theorem State.modCart_sm3 (s : State) (l : Nat) (f : Cartridge → Cartridge) : (s.modCart l f).sm3 = s.sm3 := rfl
@[simp] theorem State.modCart_summaries (s : State) (l : Nat) (f : Cartridge → Cartridge) :
    (s.modCart l f).summaries = s.summaries := rfl
@[simp] theorem State.modCart_selects (s : State) (l : Nat) (f : Cartridge → Cartridge) :
    (s.modCart l f).selects = s.selects := rfl
@[simp] theorem State.modCart_free (s : State) (l : Nat) (f : Cartridge → Cartridge) : (s.modCart l f).free = s.free := rfl

@[simp] theorem State.setVal_pending (s : State) (i k v : Nat) : (s.setVal i k v).pending = s.pending := rfl
@[simp] theorem State.setVal_out (s : State) (i k v : Nat) : (s.setVal i k v).out = s.out := rfl
@[simp] theorem State.setVal_clock (s : State) (i k v : Nat) : (s.setVal i k v).clock = s.clock := rfl
@[simp] theorem State.setVal_time (s : State) (i k v : Nat) : (s.setVal i k v).time = s.time := rfl
@[simp] theorem State.setVal_run (s : State) (i k v : Nat) : (s.setVal i k v).run = s.run := rfl
@[simp] theorem State.setVal_units (s : State) (i k v : Nat) : (s.setVal i k v).units = s.units := rfl
@[simp] theorem State.setVal_mem (s : State) (i k v : Nat) : (s.setVal i k v).mem = s.mem := rfl
@[simp] theorem State.setVal_stackScrub (s : State) (i k v : Nat) : (s.setVal i k v).stackScrub = s.stackScrub := rfl
@[simp] theorem State.setVal_cores (s : State) (i k v : Nat) : (s.setVal i k v).cores = s.cores := rfl
@[simp] theorem State.setVal_engines (s : State) (i k v : Nat) : (s.setVal i k v).engines = s.engines := rfl
@[simp] theorem State.setVal_jobs (s : State) (i k v : Nat) : (s.setVal i k v).jobs = s.jobs := rfl
@[simp] theorem State.setVal_streams (s : State) (i k v : Nat) : (s.setVal i k v).streams = s.streams := rfl
@[simp] theorem State.setVal_sched (s : State) (i k v : Nat) : (s.setVal i k v).sched = s.sched := rfl
@[simp] theorem State.setVal_pins (s : State) (i k v : Nat) : (s.setVal i k v).pins = s.pins := rfl
@[simp] theorem State.setVal_epoch (s : State) (i k v : Nat) : (s.setVal i k v).epoch = s.epoch := rfl
@[simp] theorem State.setVal_ports (s : State) (i k v : Nat) : (s.setVal i k v).ports = s.ports := rfl
@[simp] theorem State.setVal_qps (s : State) (i k v : Nat) : (s.setVal i k v).qps = s.qps := rfl
@[simp] theorem State.setVal_fabric (s : State) (i k v : Nat) : (s.setVal i k v).fabric = s.fabric := rfl
@[simp] theorem State.setVal_twin (s : State) (i k v : Nat) : (s.setVal i k v).twin = s.twin := rfl
@[simp] theorem State.setVal_hosts (s : State) (i k v : Nat) : (s.setVal i k v).hosts = s.hosts := rfl
@[simp] theorem State.setVal_round (s : State) (i k v : Nat) : (s.setVal i k v).round = s.round := rfl
@[simp] theorem State.setVal_security (s : State) (i k v : Nat) : (s.setVal i k v).security = s.security := rfl
@[simp] theorem State.setVal_loops (s : State) (i k v : Nat) : (s.setVal i k v).loops = s.loops := rfl
@[simp] theorem State.setVal_convs (s : State) (i k v : Nat) : (s.setVal i k v).convs = s.convs := rfl
@[simp] theorem State.setVal_sensors (s : State) (i k v : Nat) : (s.setVal i k v).sensors = s.sensors := rfl
@[simp] theorem State.setVal_zones (s : State) (i k v : Nat) : (s.setVal i k v).zones = s.zones := rfl
@[simp] theorem State.setVal_cartridges (s : State) (i k v : Nat) : (s.setVal i k v).cartridges = s.cartridges := rfl
@[simp] theorem State.setVal_power (s : State) (i k v : Nat) : (s.setVal i k v).power = s.power := rfl
@[simp] theorem State.setVal_events (s : State) (i k v : Nat) : (s.setVal i k v).events = s.events := rfl
@[simp] theorem State.setVal_al (s : State) (i k v : Nat) : (s.setVal i k v).al = s.al := rfl
@[simp] theorem State.setVal_sdo (s : State) (i k v : Nat) : (s.setVal i k v).sdo = s.sdo := rfl
@[simp] theorem State.setVal_sm3 (s : State) (i k v : Nat) : (s.setVal i k v).sm3 = s.sm3 := rfl
@[simp] theorem State.setVal_summaries (s : State) (i k v : Nat) : (s.setVal i k v).summaries = s.summaries := rfl
@[simp] theorem State.setVal_selects (s : State) (i k v : Nat) : (s.setVal i k v).selects = s.selects := rfl
@[simp] theorem State.setVal_free (s : State) (i k v : Nat) : (s.setVal i k v).free = s.free := rfl

-- what is read through the accessors

@[simp] theorem State.elapse_core (s : State) (d : Nat) (x : Nat) : (s.elapse d).core x = s.core x := rfl
@[simp] theorem State.elapse_eng (s : State) (d : Nat) (x y : Nat) : (s.elapse d).eng x y = s.eng x y := rfl
@[simp] theorem State.elapse_job (s : State) (d : Nat) (x : Nat) : (s.elapse d).job x = s.job x := rfl
@[simp] theorem State.elapse_stream (s : State) (d : Nat) (x : Nat) : (s.elapse d).stream x = s.stream x := rfl
@[simp] theorem State.elapse_port (s : State) (d : Nat) (x : Nat) : (s.elapse d).port x = s.port x := rfl
@[simp] theorem State.elapse_qp (s : State) (d : Nat) (x : Nat) : (s.elapse d).qp x = s.qp x := rfl
@[simp] theorem State.elapse_host (s : State) (d : Nat) (x : Nat) : (s.elapse d).host x = s.host x := rfl
@[simp] theorem State.elapse_loopCore (s : State) (d : Nat) (x : Nat) : (s.elapse d).loopCore x = s.loopCore x := rfl
@[simp] theorem State.elapse_conv (s : State) (d : Nat) (x : Nat) : (s.elapse d).conv x = s.conv x := rfl
@[simp] theorem State.elapse_zone (s : State) (d : Nat) (x : Nat) : (s.elapse d).zone x = s.zone x := rfl
@[simp] theorem State.elapse_cart (s : State) (d : Nat) (x : Nat) : (s.elapse d).cart x = s.cart x := rfl
@[simp] theorem State.elapse_unit (s : State) (d : Nat) (x : Nat) : (s.elapse d).unit x = s.unit x := rfl
@[simp] theorem State.elapse_val (s : State) (d : Nat) (x y : Nat) : (s.elapse d).val x y = s.val x y := rfl
@[simp] theorem State.elapse_flag (s : State) (d : Nat) (x y : Nat) : (s.elapse d).flag x y = s.flag x y := rfl

@[simp] theorem State.takeFree_core (s : State) (x : Nat) : (s.takeFree).core x = s.core x := rfl
@[simp] theorem State.takeFree_eng (s : State) (x y : Nat) : (s.takeFree).eng x y = s.eng x y := rfl
@[simp] theorem State.takeFree_job (s : State) (x : Nat) : (s.takeFree).job x = s.job x := rfl
@[simp] theorem State.takeFree_stream (s : State) (x : Nat) : (s.takeFree).stream x = s.stream x := rfl
@[simp] theorem State.takeFree_port (s : State) (x : Nat) : (s.takeFree).port x = s.port x := rfl
@[simp] theorem State.takeFree_qp (s : State) (x : Nat) : (s.takeFree).qp x = s.qp x := rfl
@[simp] theorem State.takeFree_host (s : State) (x : Nat) : (s.takeFree).host x = s.host x := rfl
@[simp] theorem State.takeFree_loopCore (s : State) (x : Nat) : (s.takeFree).loopCore x = s.loopCore x := rfl
@[simp] theorem State.takeFree_conv (s : State) (x : Nat) : (s.takeFree).conv x = s.conv x := rfl
@[simp] theorem State.takeFree_zone (s : State) (x : Nat) : (s.takeFree).zone x = s.zone x := rfl
@[simp] theorem State.takeFree_cart (s : State) (x : Nat) : (s.takeFree).cart x = s.cart x := rfl
@[simp] theorem State.takeFree_unit (s : State) (x : Nat) : (s.takeFree).unit x = s.unit x := rfl
@[simp] theorem State.takeFree_val (s : State) (x y : Nat) : (s.takeFree).val x y = s.val x y := rfl
@[simp] theorem State.takeFree_flag (s : State) (x y : Nat) : (s.takeFree).flag x y = s.flag x y := rfl
@[simp] theorem State.takeFree_ns (s : State) : (s.takeFree).ns = s.ns := rfl
@[simp] theorem State.takeFree_up (s : State) : (s.takeFree).up = s.up := rfl

@[simp] theorem State.storeBytes_core (s : State) (a : Nat) (bs : List Byte) (x : Nat) :
    (s.storeBytes a bs).core x = s.core x := rfl
@[simp] theorem State.storeBytes_eng (s : State) (a : Nat) (bs : List Byte) (x y : Nat) :
    (s.storeBytes a bs).eng x y = s.eng x y := rfl
@[simp] theorem State.storeBytes_job (s : State) (a : Nat) (bs : List Byte) (x : Nat) :
    (s.storeBytes a bs).job x = s.job x := rfl
@[simp] theorem State.storeBytes_stream (s : State) (a : Nat) (bs : List Byte) (x : Nat) :
    (s.storeBytes a bs).stream x = s.stream x := rfl
@[simp] theorem State.storeBytes_port (s : State) (a : Nat) (bs : List Byte) (x : Nat) :
    (s.storeBytes a bs).port x = s.port x := rfl
@[simp] theorem State.storeBytes_qp (s : State) (a : Nat) (bs : List Byte) (x : Nat) : (s.storeBytes a bs).qp x = s.qp x := rfl
@[simp] theorem State.storeBytes_host (s : State) (a : Nat) (bs : List Byte) (x : Nat) :
    (s.storeBytes a bs).host x = s.host x := rfl
@[simp] theorem State.storeBytes_loopCore (s : State) (a : Nat) (bs : List Byte) (x : Nat) :
    (s.storeBytes a bs).loopCore x = s.loopCore x := rfl
@[simp] theorem State.storeBytes_conv (s : State) (a : Nat) (bs : List Byte) (x : Nat) :
    (s.storeBytes a bs).conv x = s.conv x := rfl
@[simp] theorem State.storeBytes_zone (s : State) (a : Nat) (bs : List Byte) (x : Nat) :
    (s.storeBytes a bs).zone x = s.zone x := rfl
@[simp] theorem State.storeBytes_cart (s : State) (a : Nat) (bs : List Byte) (x : Nat) :
    (s.storeBytes a bs).cart x = s.cart x := rfl
@[simp] theorem State.storeBytes_unit (s : State) (a : Nat) (bs : List Byte) (x : Nat) :
    (s.storeBytes a bs).unit x = s.unit x := rfl
@[simp] theorem State.storeBytes_val (s : State) (a : Nat) (bs : List Byte) (x y : Nat) :
    (s.storeBytes a bs).val x y = s.val x y := rfl
@[simp] theorem State.storeBytes_flag (s : State) (a : Nat) (bs : List Byte) (x y : Nat) :
    (s.storeBytes a bs).flag x y = s.flag x y := rfl
@[simp] theorem State.storeBytes_ns (s : State) (a : Nat) (bs : List Byte) : (s.storeBytes a bs).ns = s.ns := rfl
@[simp] theorem State.storeBytes_up (s : State) (a : Nat) (bs : List Byte) : (s.storeBytes a bs).up = s.up := rfl

@[simp] theorem State.emit_core (s : State) (o : Output) (x : Nat) : (s.emit o).core x = s.core x := rfl
@[simp] theorem State.emit_eng (s : State) (o : Output) (x y : Nat) : (s.emit o).eng x y = s.eng x y := rfl
@[simp] theorem State.emit_job (s : State) (o : Output) (x : Nat) : (s.emit o).job x = s.job x := rfl
@[simp] theorem State.emit_stream (s : State) (o : Output) (x : Nat) : (s.emit o).stream x = s.stream x := rfl
@[simp] theorem State.emit_port (s : State) (o : Output) (x : Nat) : (s.emit o).port x = s.port x := rfl
@[simp] theorem State.emit_qp (s : State) (o : Output) (x : Nat) : (s.emit o).qp x = s.qp x := rfl
@[simp] theorem State.emit_host (s : State) (o : Output) (x : Nat) : (s.emit o).host x = s.host x := rfl
@[simp] theorem State.emit_loopCore (s : State) (o : Output) (x : Nat) : (s.emit o).loopCore x = s.loopCore x := rfl
@[simp] theorem State.emit_conv (s : State) (o : Output) (x : Nat) : (s.emit o).conv x = s.conv x := rfl
@[simp] theorem State.emit_zone (s : State) (o : Output) (x : Nat) : (s.emit o).zone x = s.zone x := rfl
@[simp] theorem State.emit_cart (s : State) (o : Output) (x : Nat) : (s.emit o).cart x = s.cart x := rfl
@[simp] theorem State.emit_unit (s : State) (o : Output) (x : Nat) : (s.emit o).unit x = s.unit x := rfl
@[simp] theorem State.emit_val (s : State) (o : Output) (x y : Nat) : (s.emit o).val x y = s.val x y := rfl
@[simp] theorem State.emit_flag (s : State) (o : Output) (x y : Nat) : (s.emit o).flag x y = s.flag x y := rfl
@[simp] theorem State.emit_ns (s : State) (o : Output) : (s.emit o).ns = s.ns := rfl
@[simp] theorem State.emit_up (s : State) (o : Output) : (s.emit o).up = s.up := rfl

@[simp] theorem State.modUnit_core (s : State) (r : Nat) (f : UnitState → UnitState) (x : Nat) :
    (s.modUnit r f).core x = s.core x := rfl
@[simp] theorem State.modUnit_eng (s : State) (r : Nat) (f : UnitState → UnitState) (x y : Nat) :
    (s.modUnit r f).eng x y = s.eng x y := rfl
@[simp] theorem State.modUnit_job (s : State) (r : Nat) (f : UnitState → UnitState) (x : Nat) :
    (s.modUnit r f).job x = s.job x := rfl
@[simp] theorem State.modUnit_stream (s : State) (r : Nat) (f : UnitState → UnitState) (x : Nat) :
    (s.modUnit r f).stream x = s.stream x := rfl
@[simp] theorem State.modUnit_port (s : State) (r : Nat) (f : UnitState → UnitState) (x : Nat) :
    (s.modUnit r f).port x = s.port x := rfl
@[simp] theorem State.modUnit_qp (s : State) (r : Nat) (f : UnitState → UnitState) (x : Nat) :
    (s.modUnit r f).qp x = s.qp x := rfl
@[simp] theorem State.modUnit_host (s : State) (r : Nat) (f : UnitState → UnitState) (x : Nat) :
    (s.modUnit r f).host x = s.host x := rfl
@[simp] theorem State.modUnit_loopCore (s : State) (r : Nat) (f : UnitState → UnitState) (x : Nat) :
    (s.modUnit r f).loopCore x = s.loopCore x := rfl
@[simp] theorem State.modUnit_conv (s : State) (r : Nat) (f : UnitState → UnitState) (x : Nat) :
    (s.modUnit r f).conv x = s.conv x := rfl
@[simp] theorem State.modUnit_zone (s : State) (r : Nat) (f : UnitState → UnitState) (x : Nat) :
    (s.modUnit r f).zone x = s.zone x := rfl
@[simp] theorem State.modUnit_cart (s : State) (r : Nat) (f : UnitState → UnitState) (x : Nat) :
    (s.modUnit r f).cart x = s.cart x := rfl
@[simp] theorem State.modUnit_val (s : State) (r : Nat) (f : UnitState → UnitState) (x y : Nat) :
    (s.modUnit r f).val x y = s.val x y := rfl
@[simp] theorem State.modUnit_flag (s : State) (r : Nat) (f : UnitState → UnitState) (x y : Nat) :
    (s.modUnit r f).flag x y = s.flag x y := rfl
@[simp] theorem State.modUnit_ns (s : State) (r : Nat) (f : UnitState → UnitState) : (s.modUnit r f).ns = s.ns := rfl
@[simp] theorem State.modUnit_up (s : State) (r : Nat) (f : UnitState → UnitState) : (s.modUnit r f).up = s.up := rfl

@[simp] theorem State.putUnit_core (s : State) (r : Nat) (st : UnitSt) (x : Nat) : (s.putUnit r st).core x = s.core x := rfl
@[simp] theorem State.putUnit_eng (s : State) (r : Nat) (st : UnitSt) (x y : Nat) : (s.putUnit r st).eng x y = s.eng x y := rfl
@[simp] theorem State.putUnit_job (s : State) (r : Nat) (st : UnitSt) (x : Nat) : (s.putUnit r st).job x = s.job x := rfl
@[simp] theorem State.putUnit_stream (s : State) (r : Nat) (st : UnitSt) (x : Nat) :
    (s.putUnit r st).stream x = s.stream x := rfl
@[simp] theorem State.putUnit_port (s : State) (r : Nat) (st : UnitSt) (x : Nat) : (s.putUnit r st).port x = s.port x := rfl
@[simp] theorem State.putUnit_qp (s : State) (r : Nat) (st : UnitSt) (x : Nat) : (s.putUnit r st).qp x = s.qp x := rfl
@[simp] theorem State.putUnit_host (s : State) (r : Nat) (st : UnitSt) (x : Nat) : (s.putUnit r st).host x = s.host x := rfl
@[simp] theorem State.putUnit_loopCore (s : State) (r : Nat) (st : UnitSt) (x : Nat) :
    (s.putUnit r st).loopCore x = s.loopCore x := rfl
@[simp] theorem State.putUnit_conv (s : State) (r : Nat) (st : UnitSt) (x : Nat) : (s.putUnit r st).conv x = s.conv x := rfl
@[simp] theorem State.putUnit_zone (s : State) (r : Nat) (st : UnitSt) (x : Nat) : (s.putUnit r st).zone x = s.zone x := rfl
@[simp] theorem State.putUnit_cart (s : State) (r : Nat) (st : UnitSt) (x : Nat) : (s.putUnit r st).cart x = s.cart x := rfl
@[simp] theorem State.putUnit_val (s : State) (r : Nat) (st : UnitSt) (x y : Nat) : (s.putUnit r st).val x y = s.val x y := rfl
@[simp] theorem State.putUnit_flag (s : State) (r : Nat) (st : UnitSt) (x y : Nat) :
    (s.putUnit r st).flag x y = s.flag x y := rfl
@[simp] theorem State.putUnit_ns (s : State) (r : Nat) (st : UnitSt) : (s.putUnit r st).ns = s.ns := rfl
@[simp] theorem State.putUnit_up (s : State) (r : Nat) (st : UnitSt) : (s.putUnit r st).up = s.up := rfl

@[simp] theorem State.modCore_eng (s : State) (c : Nat) (f : Core → Core) (x y : Nat) :
    (s.modCore c f).eng x y = s.eng x y := rfl
@[simp] theorem State.modCore_job (s : State) (c : Nat) (f : Core → Core) (x : Nat) : (s.modCore c f).job x = s.job x := rfl
@[simp] theorem State.modCore_stream (s : State) (c : Nat) (f : Core → Core) (x : Nat) :
    (s.modCore c f).stream x = s.stream x := rfl
@[simp] theorem State.modCore_port (s : State) (c : Nat) (f : Core → Core) (x : Nat) : (s.modCore c f).port x = s.port x := rfl
@[simp] theorem State.modCore_qp (s : State) (c : Nat) (f : Core → Core) (x : Nat) : (s.modCore c f).qp x = s.qp x := rfl
@[simp] theorem State.modCore_host (s : State) (c : Nat) (f : Core → Core) (x : Nat) : (s.modCore c f).host x = s.host x := rfl
@[simp] theorem State.modCore_loopCore (s : State) (c : Nat) (f : Core → Core) (x : Nat) :
    (s.modCore c f).loopCore x = s.loopCore x := rfl
@[simp] theorem State.modCore_conv (s : State) (c : Nat) (f : Core → Core) (x : Nat) : (s.modCore c f).conv x = s.conv x := rfl
@[simp] theorem State.modCore_zone (s : State) (c : Nat) (f : Core → Core) (x : Nat) : (s.modCore c f).zone x = s.zone x := rfl
@[simp] theorem State.modCore_cart (s : State) (c : Nat) (f : Core → Core) (x : Nat) : (s.modCore c f).cart x = s.cart x := rfl
@[simp] theorem State.modCore_unit (s : State) (c : Nat) (f : Core → Core) (x : Nat) : (s.modCore c f).unit x = s.unit x := rfl
@[simp] theorem State.modCore_val (s : State) (c : Nat) (f : Core → Core) (x y : Nat) :
    (s.modCore c f).val x y = s.val x y := rfl
@[simp] theorem State.modCore_flag (s : State) (c : Nat) (f : Core → Core) (x y : Nat) :
    (s.modCore c f).flag x y = s.flag x y := rfl
@[simp] theorem State.modCore_ns (s : State) (c : Nat) (f : Core → Core) : (s.modCore c f).ns = s.ns := rfl
@[simp] theorem State.modCore_up (s : State) (c : Nat) (f : Core → Core) : (s.modCore c f).up = s.up := rfl

@[simp] theorem State.modEng_core (s : State) (c e : Nat) (f : Engine → Engine) (x : Nat) :
    (s.modEng c e f).core x = s.core x := rfl
@[simp] theorem State.modEng_job (s : State) (c e : Nat) (f : Engine → Engine) (x : Nat) :
    (s.modEng c e f).job x = s.job x := rfl
@[simp] theorem State.modEng_stream (s : State) (c e : Nat) (f : Engine → Engine) (x : Nat) :
    (s.modEng c e f).stream x = s.stream x := rfl
@[simp] theorem State.modEng_port (s : State) (c e : Nat) (f : Engine → Engine) (x : Nat) :
    (s.modEng c e f).port x = s.port x := rfl
@[simp] theorem State.modEng_qp (s : State) (c e : Nat) (f : Engine → Engine) (x : Nat) : (s.modEng c e f).qp x = s.qp x := rfl
@[simp] theorem State.modEng_host (s : State) (c e : Nat) (f : Engine → Engine) (x : Nat) :
    (s.modEng c e f).host x = s.host x := rfl
@[simp] theorem State.modEng_loopCore (s : State) (c e : Nat) (f : Engine → Engine) (x : Nat) :
    (s.modEng c e f).loopCore x = s.loopCore x := rfl
@[simp] theorem State.modEng_conv (s : State) (c e : Nat) (f : Engine → Engine) (x : Nat) :
    (s.modEng c e f).conv x = s.conv x := rfl
@[simp] theorem State.modEng_zone (s : State) (c e : Nat) (f : Engine → Engine) (x : Nat) :
    (s.modEng c e f).zone x = s.zone x := rfl
@[simp] theorem State.modEng_cart (s : State) (c e : Nat) (f : Engine → Engine) (x : Nat) :
    (s.modEng c e f).cart x = s.cart x := rfl
@[simp] theorem State.modEng_unit (s : State) (c e : Nat) (f : Engine → Engine) (x : Nat) :
    (s.modEng c e f).unit x = s.unit x := rfl
@[simp] theorem State.modEng_val (s : State) (c e : Nat) (f : Engine → Engine) (x y : Nat) :
    (s.modEng c e f).val x y = s.val x y := rfl
@[simp] theorem State.modEng_flag (s : State) (c e : Nat) (f : Engine → Engine) (x y : Nat) :
    (s.modEng c e f).flag x y = s.flag x y := rfl
@[simp] theorem State.modEng_ns (s : State) (c e : Nat) (f : Engine → Engine) : (s.modEng c e f).ns = s.ns := rfl
@[simp] theorem State.modEng_up (s : State) (c e : Nat) (f : Engine → Engine) : (s.modEng c e f).up = s.up := rfl

@[simp] theorem State.modJob_core (s : State) (j : Nat) (f : Job → Job) (x : Nat) : (s.modJob j f).core x = s.core x := rfl
@[simp] theorem State.modJob_eng (s : State) (j : Nat) (f : Job → Job) (x y : Nat) : (s.modJob j f).eng x y = s.eng x y := rfl
@[simp] theorem State.modJob_stream (s : State) (j : Nat) (f : Job → Job) (x : Nat) :
    (s.modJob j f).stream x = s.stream x := rfl
@[simp] theorem State.modJob_port (s : State) (j : Nat) (f : Job → Job) (x : Nat) : (s.modJob j f).port x = s.port x := rfl
@[simp] theorem State.modJob_qp (s : State) (j : Nat) (f : Job → Job) (x : Nat) : (s.modJob j f).qp x = s.qp x := rfl
@[simp] theorem State.modJob_host (s : State) (j : Nat) (f : Job → Job) (x : Nat) : (s.modJob j f).host x = s.host x := rfl
@[simp] theorem State.modJob_loopCore (s : State) (j : Nat) (f : Job → Job) (x : Nat) :
    (s.modJob j f).loopCore x = s.loopCore x := rfl
@[simp] theorem State.modJob_conv (s : State) (j : Nat) (f : Job → Job) (x : Nat) : (s.modJob j f).conv x = s.conv x := rfl
@[simp] theorem State.modJob_zone (s : State) (j : Nat) (f : Job → Job) (x : Nat) : (s.modJob j f).zone x = s.zone x := rfl
@[simp] theorem State.modJob_cart (s : State) (j : Nat) (f : Job → Job) (x : Nat) : (s.modJob j f).cart x = s.cart x := rfl
@[simp] theorem State.modJob_unit (s : State) (j : Nat) (f : Job → Job) (x : Nat) : (s.modJob j f).unit x = s.unit x := rfl
@[simp] theorem State.modJob_val (s : State) (j : Nat) (f : Job → Job) (x y : Nat) : (s.modJob j f).val x y = s.val x y := rfl
@[simp] theorem State.modJob_flag (s : State) (j : Nat) (f : Job → Job) (x y : Nat) :
    (s.modJob j f).flag x y = s.flag x y := rfl
@[simp] theorem State.modJob_ns (s : State) (j : Nat) (f : Job → Job) : (s.modJob j f).ns = s.ns := rfl
@[simp] theorem State.modJob_up (s : State) (j : Nat) (f : Job → Job) : (s.modJob j f).up = s.up := rfl

@[simp] theorem State.modStream_core (s : State) (n : Nat) (f : Stream → Stream) (x : Nat) :
    (s.modStream n f).core x = s.core x := rfl
@[simp] theorem State.modStream_eng (s : State) (n : Nat) (f : Stream → Stream) (x y : Nat) :
    (s.modStream n f).eng x y = s.eng x y := rfl
@[simp] theorem State.modStream_job (s : State) (n : Nat) (f : Stream → Stream) (x : Nat) :
    (s.modStream n f).job x = s.job x := rfl
@[simp] theorem State.modStream_port (s : State) (n : Nat) (f : Stream → Stream) (x : Nat) :
    (s.modStream n f).port x = s.port x := rfl
@[simp] theorem State.modStream_qp (s : State) (n : Nat) (f : Stream → Stream) (x : Nat) :
    (s.modStream n f).qp x = s.qp x := rfl
@[simp] theorem State.modStream_host (s : State) (n : Nat) (f : Stream → Stream) (x : Nat) :
    (s.modStream n f).host x = s.host x := rfl
@[simp] theorem State.modStream_loopCore (s : State) (n : Nat) (f : Stream → Stream) (x : Nat) :
    (s.modStream n f).loopCore x = s.loopCore x := rfl
@[simp] theorem State.modStream_conv (s : State) (n : Nat) (f : Stream → Stream) (x : Nat) :
    (s.modStream n f).conv x = s.conv x := rfl
@[simp] theorem State.modStream_zone (s : State) (n : Nat) (f : Stream → Stream) (x : Nat) :
    (s.modStream n f).zone x = s.zone x := rfl
@[simp] theorem State.modStream_cart (s : State) (n : Nat) (f : Stream → Stream) (x : Nat) :
    (s.modStream n f).cart x = s.cart x := rfl
@[simp] theorem State.modStream_unit (s : State) (n : Nat) (f : Stream → Stream) (x : Nat) :
    (s.modStream n f).unit x = s.unit x := rfl
@[simp] theorem State.modStream_val (s : State) (n : Nat) (f : Stream → Stream) (x y : Nat) :
    (s.modStream n f).val x y = s.val x y := rfl
@[simp] theorem State.modStream_flag (s : State) (n : Nat) (f : Stream → Stream) (x y : Nat) :
    (s.modStream n f).flag x y = s.flag x y := rfl
@[simp] theorem State.modStream_ns (s : State) (n : Nat) (f : Stream → Stream) : (s.modStream n f).ns = s.ns := rfl
@[simp] theorem State.modStream_up (s : State) (n : Nat) (f : Stream → Stream) : (s.modStream n f).up = s.up := rfl

@[simp] theorem State.modPort_core (s : State) (n : Nat) (f : Port → Port) (x : Nat) : (s.modPort n f).core x = s.core x := rfl
@[simp] theorem State.modPort_eng (s : State) (n : Nat) (f : Port → Port) (x y : Nat) :
    (s.modPort n f).eng x y = s.eng x y := rfl
@[simp] theorem State.modPort_job (s : State) (n : Nat) (f : Port → Port) (x : Nat) : (s.modPort n f).job x = s.job x := rfl
@[simp] theorem State.modPort_stream (s : State) (n : Nat) (f : Port → Port) (x : Nat) :
    (s.modPort n f).stream x = s.stream x := rfl
@[simp] theorem State.modPort_qp (s : State) (n : Nat) (f : Port → Port) (x : Nat) : (s.modPort n f).qp x = s.qp x := rfl
@[simp] theorem State.modPort_host (s : State) (n : Nat) (f : Port → Port) (x : Nat) : (s.modPort n f).host x = s.host x := rfl
@[simp] theorem State.modPort_loopCore (s : State) (n : Nat) (f : Port → Port) (x : Nat) :
    (s.modPort n f).loopCore x = s.loopCore x := rfl
@[simp] theorem State.modPort_conv (s : State) (n : Nat) (f : Port → Port) (x : Nat) : (s.modPort n f).conv x = s.conv x := rfl
@[simp] theorem State.modPort_zone (s : State) (n : Nat) (f : Port → Port) (x : Nat) : (s.modPort n f).zone x = s.zone x := rfl
@[simp] theorem State.modPort_cart (s : State) (n : Nat) (f : Port → Port) (x : Nat) : (s.modPort n f).cart x = s.cart x := rfl
@[simp] theorem State.modPort_unit (s : State) (n : Nat) (f : Port → Port) (x : Nat) : (s.modPort n f).unit x = s.unit x := rfl
@[simp] theorem State.modPort_val (s : State) (n : Nat) (f : Port → Port) (x y : Nat) :
    (s.modPort n f).val x y = s.val x y := rfl
@[simp] theorem State.modPort_flag (s : State) (n : Nat) (f : Port → Port) (x y : Nat) :
    (s.modPort n f).flag x y = s.flag x y := rfl
@[simp] theorem State.modPort_ns (s : State) (n : Nat) (f : Port → Port) : (s.modPort n f).ns = s.ns := rfl
@[simp] theorem State.modPort_up (s : State) (n : Nat) (f : Port → Port) : (s.modPort n f).up = s.up := rfl

@[simp] theorem State.modQp_core (s : State) (n : Nat) (f : Qp → Qp) (x : Nat) : (s.modQp n f).core x = s.core x := rfl
@[simp] theorem State.modQp_eng (s : State) (n : Nat) (f : Qp → Qp) (x y : Nat) : (s.modQp n f).eng x y = s.eng x y := rfl
@[simp] theorem State.modQp_job (s : State) (n : Nat) (f : Qp → Qp) (x : Nat) : (s.modQp n f).job x = s.job x := rfl
@[simp] theorem State.modQp_stream (s : State) (n : Nat) (f : Qp → Qp) (x : Nat) : (s.modQp n f).stream x = s.stream x := rfl
@[simp] theorem State.modQp_port (s : State) (n : Nat) (f : Qp → Qp) (x : Nat) : (s.modQp n f).port x = s.port x := rfl
@[simp] theorem State.modQp_host (s : State) (n : Nat) (f : Qp → Qp) (x : Nat) : (s.modQp n f).host x = s.host x := rfl
@[simp] theorem State.modQp_loopCore (s : State) (n : Nat) (f : Qp → Qp) (x : Nat) :
    (s.modQp n f).loopCore x = s.loopCore x := rfl
@[simp] theorem State.modQp_conv (s : State) (n : Nat) (f : Qp → Qp) (x : Nat) : (s.modQp n f).conv x = s.conv x := rfl
@[simp] theorem State.modQp_zone (s : State) (n : Nat) (f : Qp → Qp) (x : Nat) : (s.modQp n f).zone x = s.zone x := rfl
@[simp] theorem State.modQp_cart (s : State) (n : Nat) (f : Qp → Qp) (x : Nat) : (s.modQp n f).cart x = s.cart x := rfl
@[simp] theorem State.modQp_unit (s : State) (n : Nat) (f : Qp → Qp) (x : Nat) : (s.modQp n f).unit x = s.unit x := rfl
@[simp] theorem State.modQp_val (s : State) (n : Nat) (f : Qp → Qp) (x y : Nat) : (s.modQp n f).val x y = s.val x y := rfl
@[simp] theorem State.modQp_flag (s : State) (n : Nat) (f : Qp → Qp) (x y : Nat) : (s.modQp n f).flag x y = s.flag x y := rfl
@[simp] theorem State.modQp_ns (s : State) (n : Nat) (f : Qp → Qp) : (s.modQp n f).ns = s.ns := rfl
@[simp] theorem State.modQp_up (s : State) (n : Nat) (f : Qp → Qp) : (s.modQp n f).up = s.up := rfl

@[simp] theorem State.modHost_core (s : State) (p : Nat) (f : HostPort → HostPort) (x : Nat) :
    (s.modHost p f).core x = s.core x := rfl
@[simp] theorem State.modHost_eng (s : State) (p : Nat) (f : HostPort → HostPort) (x y : Nat) :
    (s.modHost p f).eng x y = s.eng x y := rfl
@[simp] theorem State.modHost_job (s : State) (p : Nat) (f : HostPort → HostPort) (x : Nat) :
    (s.modHost p f).job x = s.job x := rfl
@[simp] theorem State.modHost_stream (s : State) (p : Nat) (f : HostPort → HostPort) (x : Nat) :
    (s.modHost p f).stream x = s.stream x := rfl
@[simp] theorem State.modHost_port (s : State) (p : Nat) (f : HostPort → HostPort) (x : Nat) :
    (s.modHost p f).port x = s.port x := rfl
@[simp] theorem State.modHost_qp (s : State) (p : Nat) (f : HostPort → HostPort) (x : Nat) :
    (s.modHost p f).qp x = s.qp x := rfl
@[simp] theorem State.modHost_loopCore (s : State) (p : Nat) (f : HostPort → HostPort) (x : Nat) :
    (s.modHost p f).loopCore x = s.loopCore x := rfl
@[simp] theorem State.modHost_conv (s : State) (p : Nat) (f : HostPort → HostPort) (x : Nat) :
    (s.modHost p f).conv x = s.conv x := rfl
@[simp] theorem State.modHost_zone (s : State) (p : Nat) (f : HostPort → HostPort) (x : Nat) :
    (s.modHost p f).zone x = s.zone x := rfl
@[simp] theorem State.modHost_cart (s : State) (p : Nat) (f : HostPort → HostPort) (x : Nat) :
    (s.modHost p f).cart x = s.cart x := rfl
@[simp] theorem State.modHost_unit (s : State) (p : Nat) (f : HostPort → HostPort) (x : Nat) :
    (s.modHost p f).unit x = s.unit x := rfl
@[simp] theorem State.modHost_val (s : State) (p : Nat) (f : HostPort → HostPort) (x y : Nat) :
    (s.modHost p f).val x y = s.val x y := rfl
@[simp] theorem State.modHost_flag (s : State) (p : Nat) (f : HostPort → HostPort) (x y : Nat) :
    (s.modHost p f).flag x y = s.flag x y := rfl
@[simp] theorem State.modHost_ns (s : State) (p : Nat) (f : HostPort → HostPort) : (s.modHost p f).ns = s.ns := rfl
@[simp] theorem State.modHost_up (s : State) (p : Nat) (f : HostPort → HostPort) : (s.modHost p f).up = s.up := rfl

@[simp] theorem State.modLoops_core (s : State) (c : Nat) (f : LoopCore → LoopCore) (x : Nat) :
    (s.modLoops c f).core x = s.core x := rfl
@[simp] theorem State.modLoops_eng (s : State) (c : Nat) (f : LoopCore → LoopCore) (x y : Nat) :
    (s.modLoops c f).eng x y = s.eng x y := rfl
@[simp] theorem State.modLoops_job (s : State) (c : Nat) (f : LoopCore → LoopCore) (x : Nat) :
    (s.modLoops c f).job x = s.job x := rfl
@[simp] theorem State.modLoops_stream (s : State) (c : Nat) (f : LoopCore → LoopCore) (x : Nat) :
    (s.modLoops c f).stream x = s.stream x := rfl
@[simp] theorem State.modLoops_port (s : State) (c : Nat) (f : LoopCore → LoopCore) (x : Nat) :
    (s.modLoops c f).port x = s.port x := rfl
@[simp] theorem State.modLoops_qp (s : State) (c : Nat) (f : LoopCore → LoopCore) (x : Nat) :
    (s.modLoops c f).qp x = s.qp x := rfl
@[simp] theorem State.modLoops_host (s : State) (c : Nat) (f : LoopCore → LoopCore) (x : Nat) :
    (s.modLoops c f).host x = s.host x := rfl
@[simp] theorem State.modLoops_conv (s : State) (c : Nat) (f : LoopCore → LoopCore) (x : Nat) :
    (s.modLoops c f).conv x = s.conv x := rfl
@[simp] theorem State.modLoops_zone (s : State) (c : Nat) (f : LoopCore → LoopCore) (x : Nat) :
    (s.modLoops c f).zone x = s.zone x := rfl
@[simp] theorem State.modLoops_cart (s : State) (c : Nat) (f : LoopCore → LoopCore) (x : Nat) :
    (s.modLoops c f).cart x = s.cart x := rfl
@[simp] theorem State.modLoops_unit (s : State) (c : Nat) (f : LoopCore → LoopCore) (x : Nat) :
    (s.modLoops c f).unit x = s.unit x := rfl
@[simp] theorem State.modLoops_val (s : State) (c : Nat) (f : LoopCore → LoopCore) (x y : Nat) :
    (s.modLoops c f).val x y = s.val x y := rfl
@[simp] theorem State.modLoops_flag (s : State) (c : Nat) (f : LoopCore → LoopCore) (x y : Nat) :
    (s.modLoops c f).flag x y = s.flag x y := rfl
@[simp] theorem State.modLoops_ns (s : State) (c : Nat) (f : LoopCore → LoopCore) : (s.modLoops c f).ns = s.ns := rfl
@[simp] theorem State.modLoops_up (s : State) (c : Nat) (f : LoopCore → LoopCore) : (s.modLoops c f).up = s.up := rfl

@[simp] theorem State.modConv_core (s : State) (c : Nat) (f : Converters → Converters) (x : Nat) :
    (s.modConv c f).core x = s.core x := rfl
@[simp] theorem State.modConv_eng (s : State) (c : Nat) (f : Converters → Converters) (x y : Nat) :
    (s.modConv c f).eng x y = s.eng x y := rfl
@[simp] theorem State.modConv_job (s : State) (c : Nat) (f : Converters → Converters) (x : Nat) :
    (s.modConv c f).job x = s.job x := rfl
@[simp] theorem State.modConv_stream (s : State) (c : Nat) (f : Converters → Converters) (x : Nat) :
    (s.modConv c f).stream x = s.stream x := rfl
@[simp] theorem State.modConv_port (s : State) (c : Nat) (f : Converters → Converters) (x : Nat) :
    (s.modConv c f).port x = s.port x := rfl
@[simp] theorem State.modConv_qp (s : State) (c : Nat) (f : Converters → Converters) (x : Nat) :
    (s.modConv c f).qp x = s.qp x := rfl
@[simp] theorem State.modConv_host (s : State) (c : Nat) (f : Converters → Converters) (x : Nat) :
    (s.modConv c f).host x = s.host x := rfl
@[simp] theorem State.modConv_loopCore (s : State) (c : Nat) (f : Converters → Converters) (x : Nat) :
    (s.modConv c f).loopCore x = s.loopCore x := rfl
@[simp] theorem State.modConv_zone (s : State) (c : Nat) (f : Converters → Converters) (x : Nat) :
    (s.modConv c f).zone x = s.zone x := rfl
@[simp] theorem State.modConv_cart (s : State) (c : Nat) (f : Converters → Converters) (x : Nat) :
    (s.modConv c f).cart x = s.cart x := rfl
@[simp] theorem State.modConv_unit (s : State) (c : Nat) (f : Converters → Converters) (x : Nat) :
    (s.modConv c f).unit x = s.unit x := rfl
@[simp] theorem State.modConv_val (s : State) (c : Nat) (f : Converters → Converters) (x y : Nat) :
    (s.modConv c f).val x y = s.val x y := rfl
@[simp] theorem State.modConv_flag (s : State) (c : Nat) (f : Converters → Converters) (x y : Nat) :
    (s.modConv c f).flag x y = s.flag x y := rfl
@[simp] theorem State.modConv_ns (s : State) (c : Nat) (f : Converters → Converters) : (s.modConv c f).ns = s.ns := rfl
@[simp] theorem State.modConv_up (s : State) (c : Nat) (f : Converters → Converters) : (s.modConv c f).up = s.up := rfl

@[simp] theorem State.modZone_core (s : State) (z : Nat) (f : Zone → Zone) (x : Nat) : (s.modZone z f).core x = s.core x := rfl
@[simp] theorem State.modZone_eng (s : State) (z : Nat) (f : Zone → Zone) (x y : Nat) :
    (s.modZone z f).eng x y = s.eng x y := rfl
@[simp] theorem State.modZone_job (s : State) (z : Nat) (f : Zone → Zone) (x : Nat) : (s.modZone z f).job x = s.job x := rfl
@[simp] theorem State.modZone_stream (s : State) (z : Nat) (f : Zone → Zone) (x : Nat) :
    (s.modZone z f).stream x = s.stream x := rfl
@[simp] theorem State.modZone_port (s : State) (z : Nat) (f : Zone → Zone) (x : Nat) : (s.modZone z f).port x = s.port x := rfl
@[simp] theorem State.modZone_qp (s : State) (z : Nat) (f : Zone → Zone) (x : Nat) : (s.modZone z f).qp x = s.qp x := rfl
@[simp] theorem State.modZone_host (s : State) (z : Nat) (f : Zone → Zone) (x : Nat) : (s.modZone z f).host x = s.host x := rfl
@[simp] theorem State.modZone_loopCore (s : State) (z : Nat) (f : Zone → Zone) (x : Nat) :
    (s.modZone z f).loopCore x = s.loopCore x := rfl
@[simp] theorem State.modZone_conv (s : State) (z : Nat) (f : Zone → Zone) (x : Nat) : (s.modZone z f).conv x = s.conv x := rfl
@[simp] theorem State.modZone_cart (s : State) (z : Nat) (f : Zone → Zone) (x : Nat) : (s.modZone z f).cart x = s.cart x := rfl
@[simp] theorem State.modZone_unit (s : State) (z : Nat) (f : Zone → Zone) (x : Nat) : (s.modZone z f).unit x = s.unit x := rfl
@[simp] theorem State.modZone_val (s : State) (z : Nat) (f : Zone → Zone) (x y : Nat) :
    (s.modZone z f).val x y = s.val x y := rfl
@[simp] theorem State.modZone_flag (s : State) (z : Nat) (f : Zone → Zone) (x y : Nat) :
    (s.modZone z f).flag x y = s.flag x y := rfl
@[simp] theorem State.modZone_ns (s : State) (z : Nat) (f : Zone → Zone) : (s.modZone z f).ns = s.ns := rfl
@[simp] theorem State.modZone_up (s : State) (z : Nat) (f : Zone → Zone) : (s.modZone z f).up = s.up := rfl

@[simp] theorem State.modCart_core (s : State) (l : Nat) (f : Cartridge → Cartridge) (x : Nat) :
    (s.modCart l f).core x = s.core x := rfl
@[simp] theorem State.modCart_eng (s : State) (l : Nat) (f : Cartridge → Cartridge) (x y : Nat) :
    (s.modCart l f).eng x y = s.eng x y := rfl
@[simp] theorem State.modCart_job (s : State) (l : Nat) (f : Cartridge → Cartridge) (x : Nat) :
    (s.modCart l f).job x = s.job x := rfl
@[simp] theorem State.modCart_stream (s : State) (l : Nat) (f : Cartridge → Cartridge) (x : Nat) :
    (s.modCart l f).stream x = s.stream x := rfl
@[simp] theorem State.modCart_port (s : State) (l : Nat) (f : Cartridge → Cartridge) (x : Nat) :
    (s.modCart l f).port x = s.port x := rfl
@[simp] theorem State.modCart_qp (s : State) (l : Nat) (f : Cartridge → Cartridge) (x : Nat) :
    (s.modCart l f).qp x = s.qp x := rfl
@[simp] theorem State.modCart_host (s : State) (l : Nat) (f : Cartridge → Cartridge) (x : Nat) :
    (s.modCart l f).host x = s.host x := rfl
@[simp] theorem State.modCart_loopCore (s : State) (l : Nat) (f : Cartridge → Cartridge) (x : Nat) :
    (s.modCart l f).loopCore x = s.loopCore x := rfl
@[simp] theorem State.modCart_conv (s : State) (l : Nat) (f : Cartridge → Cartridge) (x : Nat) :
    (s.modCart l f).conv x = s.conv x := rfl
@[simp] theorem State.modCart_zone (s : State) (l : Nat) (f : Cartridge → Cartridge) (x : Nat) :
    (s.modCart l f).zone x = s.zone x := rfl
@[simp] theorem State.modCart_unit (s : State) (l : Nat) (f : Cartridge → Cartridge) (x : Nat) :
    (s.modCart l f).unit x = s.unit x := rfl
@[simp] theorem State.modCart_val (s : State) (l : Nat) (f : Cartridge → Cartridge) (x y : Nat) :
    (s.modCart l f).val x y = s.val x y := rfl
@[simp] theorem State.modCart_flag (s : State) (l : Nat) (f : Cartridge → Cartridge) (x y : Nat) :
    (s.modCart l f).flag x y = s.flag x y := rfl
@[simp] theorem State.modCart_ns (s : State) (l : Nat) (f : Cartridge → Cartridge) : (s.modCart l f).ns = s.ns := rfl
@[simp] theorem State.modCart_up (s : State) (l : Nat) (f : Cartridge → Cartridge) : (s.modCart l f).up = s.up := rfl

@[simp] theorem State.setVal_core (s : State) (i k v : Nat) (x : Nat) : (s.setVal i k v).core x = s.core x := rfl
@[simp] theorem State.setVal_eng (s : State) (i k v : Nat) (x y : Nat) : (s.setVal i k v).eng x y = s.eng x y := rfl
@[simp] theorem State.setVal_job (s : State) (i k v : Nat) (x : Nat) : (s.setVal i k v).job x = s.job x := rfl
@[simp] theorem State.setVal_stream (s : State) (i k v : Nat) (x : Nat) : (s.setVal i k v).stream x = s.stream x := rfl
@[simp] theorem State.setVal_port (s : State) (i k v : Nat) (x : Nat) : (s.setVal i k v).port x = s.port x := rfl
@[simp] theorem State.setVal_qp (s : State) (i k v : Nat) (x : Nat) : (s.setVal i k v).qp x = s.qp x := rfl
@[simp] theorem State.setVal_host (s : State) (i k v : Nat) (x : Nat) : (s.setVal i k v).host x = s.host x := rfl
@[simp] theorem State.setVal_loopCore (s : State) (i k v : Nat) (x : Nat) : (s.setVal i k v).loopCore x = s.loopCore x := rfl
@[simp] theorem State.setVal_conv (s : State) (i k v : Nat) (x : Nat) : (s.setVal i k v).conv x = s.conv x := rfl
@[simp] theorem State.setVal_zone (s : State) (i k v : Nat) (x : Nat) : (s.setVal i k v).zone x = s.zone x := rfl
@[simp] theorem State.setVal_cart (s : State) (i k v : Nat) (x : Nat) : (s.setVal i k v).cart x = s.cart x := rfl
@[simp] theorem State.setVal_unit (s : State) (i k v : Nat) (x : Nat) : (s.setVal i k v).unit x = s.unit x := rfl
@[simp] theorem State.setVal_ns (s : State) (i k v : Nat) : (s.setVal i k v).ns = s.ns := rfl
@[simp] theorem State.setVal_up (s : State) (i k v : Nat) : (s.setVal i k v).up = s.up := rfl

-- what was written

@[simp] theorem State.takeFree_free (s : State) : s.takeFree.free = s.free + 1 := rfl
@[simp] theorem State.emit_out (s : State) (o : Output) : (s.emit o).out = s.out ++ [o] := rfl
@[simp] theorem State.storeBytes_mem (s : State) (a : Nat) (bs : List Byte) : (s.storeBytes a bs).mem = s.mem.write a bs := rfl
@[simp] theorem State.elapse_clock (s : State) (d : Nat) : (s.elapse d).clock = s.clock.elapse d := rfl

@[simp] theorem State.modCore_core (s : State) (i j : Nat) (f : Core → Core) :
    (s.modCore i f).core j = if j = i then f (s.core i) else s.core j := tget_tmod _ i j f
@[simp] theorem State.modJob_job (s : State) (i j : Nat) (f : Job → Job) :
    (s.modJob i f).job j = if j = i then f (s.job i) else s.job j := tget_tmod _ i j f
@[simp] theorem State.modStream_stream (s : State) (i j : Nat) (f : Stream → Stream) :
    (s.modStream i f).stream j = if j = i then f (s.stream i) else s.stream j := tget_tmod _ i j f
@[simp] theorem State.modPort_port (s : State) (i j : Nat) (f : Port → Port) :
    (s.modPort i f).port j = if j = i then f (s.port i) else s.port j := tget_tmod _ i j f
@[simp] theorem State.modQp_qp (s : State) (i j : Nat) (f : Qp → Qp) :
    (s.modQp i f).qp j = if j = i then f (s.qp i) else s.qp j := tget_tmod _ i j f
@[simp] theorem State.modHost_host (s : State) (i j : Nat) (f : HostPort → HostPort) :
    (s.modHost i f).host j = if j = i then f (s.host i) else s.host j := tget_tmod _ i j f
@[simp] theorem State.modLoops_loopCore (s : State) (i j : Nat) (f : LoopCore → LoopCore) :
    (s.modLoops i f).loopCore j = if j = i then f (s.loopCore i) else s.loopCore j := tget_tmod _ i j f
@[simp] theorem State.modConv_conv (s : State) (i j : Nat) (f : Converters → Converters) :
    (s.modConv i f).conv j = if j = i then f (s.conv i) else s.conv j := tget_tmod _ i j f
@[simp] theorem State.modZone_zone (s : State) (i j : Nat) (f : Zone → Zone) :
    (s.modZone i f).zone j = if j = i then f (s.zone i) else s.zone j := tget_tmod _ i j f
@[simp] theorem State.modCart_cart (s : State) (i j : Nat) (f : Cartridge → Cartridge) :
    (s.modCart i f).cart j = if j = i then f (s.cart i) else s.cart j := tget_tmod _ i j f

theorem State.modEng_eng (s : State) (c e x y : Nat) (f : Engine → Engine) :
    (s.modEng c e f).eng x y = if 34 * x + y = 34 * c + e then f (s.eng c e) else s.eng x y := tget_tmod _ _ _ f

@[simp] theorem State.modEng_eng_same (s : State) (c e : Nat) (f : Engine → Engine) :
    (s.modEng c e f).eng c e = f (s.eng c e) := by
  rw [State.modEng_eng, if_pos rfl]

/-- Engines are numbered below 34 on each core. -/
theorem State.modEng_eng_other (s : State) (c e x y : Nat) (f : Engine → Engine) (he : e < 34) (hy : y < 34)
    (h : x ≠ c ∨ y ≠ e) : (s.modEng c e f).eng x y = s.eng x y := by
  rw [State.modEng_eng, if_neg (by omega)]

@[simp] theorem State.modUnit_unit (s : State) (r x : Nat) (f : UnitState → UnitState) :
    (s.modUnit r f).unit x = if x = r then (f (tget s.units r)).st else s.unit x := by
  show (tget (tmod s.units r f) x).st = _
  rw [tget_tmod]
  split <;> rfl

@[simp] theorem State.putUnit_unit (s : State) (r x : Nat) (st : UnitSt) :
    (s.putUnit r st).unit x = if x = r then st else s.unit x := State.modUnit_unit s r x _

/-- An entry's value after one is written: of the entry itself what was written. -/
theorem State.setVal_val (s : State) (i k v x y : Nat) :
    (s.setVal i k v).val x y = if odKey x y = odKey i k then v else s.val x y := by
  have h : tfind (tsetD (odDefault (odKey i k)) s.od (odKey i k) v) (odKey x y) =
      if odKey x y = odKey i k then (if v = odDefault (odKey i k) then none else some v) else tfind s.od (odKey x y) := by
    unfold tsetD
    split
    · exact tfind_filter _ _ _
    · exact tfind_tput _ _ _ _
  unfold State.val State.setVal
  simp only [h]
  by_cases hk : odKey x y = odKey i k
  · simp only [hk, if_true]
    by_cases hv : v = odDefault (odKey i k)
    · simp only [hv, if_true]
    · simp only [hv, if_false]
  · simp only [hk, if_false]

@[simp] theorem State.setVal_val_same (s : State) (i k v : Nat) : (s.setVal i k v).val i k = v := by
  rw [State.setVal_val, if_pos rfl]

theorem State.setVal_val_other (s : State) (i k v x y : Nat) (h : odKey x y ≠ odKey i k) :
    (s.setVal i k v).val x y = s.val x y := by
  rw [State.setVal_val, if_neg h]

@[simp] theorem State.setVal_flag (s : State) (i k v x y : Nat) :
    (s.setVal i k v).flag x y = if odKey x y = odKey i k then decide (v = 1) else s.flag x y := by
  show decide ((s.setVal i k v).val x y = 1) = _
  rw [State.setVal_val]
  split <;> rfl

-- time

theorem Clock.elapse_up (c : Clock) (d : Nat) : (c.elapse d).up = c.up + d := by
  unfold Clock.elapse
  simp only
  split
  · rfl
  · split <;> rfl

@[simp] theorem State.elapse_up (s : State) (d : Nat) : (s.elapse d).up = s.up + d := Clock.elapse_up s.clock d

end Sys2Proof.Machine
end

