-- ==== Sys2Proof/Laws/Front.lean ====
section
/-! SUPPORT. Laws of the front of the dictionary server: what telling an outcome leaves alone, and what a write that passes its
checks comes to. -/

namespace Sys2Proof.Machine

/-- Telling an outcome changes what is put out and a host port's access block, nothing else. -/
@[simp] theorem State.reply_pending (s : State) (v : Via) (i k a : Nat) : (s.reply v i k a).pending = s.pending := by
  cases v <;> simp only [State.reply] <;> (try split) <;> rfl
@[simp] theorem State.reply_clock (s : State) (v : Via) (i k a : Nat) : (s.reply v i k a).clock = s.clock := by
  cases v <;> simp only [State.reply] <;> (try split) <;> rfl
@[simp] theorem State.reply_time (s : State) (v : Via) (i k a : Nat) : (s.reply v i k a).time = s.time := by
  cases v <;> simp only [State.reply] <;> (try split) <;> rfl
@[simp] theorem State.reply_run (s : State) (v : Via) (i k a : Nat) : (s.reply v i k a).run = s.run := by
  cases v <;> simp only [State.reply] <;> (try split) <;> rfl
@[simp] theorem State.reply_od (s : State) (v : Via) (i k a : Nat) : (s.reply v i k a).od = s.od := by
  cases v <;> simp only [State.reply] <;> (try split) <;> rfl
@[simp] theorem State.reply_units (s : State) (v : Via) (i k a : Nat) : (s.reply v i k a).units = s.units := by
  cases v <;> simp only [State.reply] <;> (try split) <;> rfl
@[simp] theorem State.reply_mem (s : State) (v : Via) (i k a : Nat) : (s.reply v i k a).mem = s.mem := by
  cases v <;> simp only [State.reply] <;> (try split) <;> rfl
@[simp] theorem State.reply_stackScrub (s : State) (v : Via) (i k a : Nat) : (s.reply v i k a).stackScrub = s.stackScrub := by
  cases v <;> simp only [State.reply] <;> (try split) <;> rfl
@[simp] theorem State.reply_cores (s : State) (v : Via) (i k a : Nat) : (s.reply v i k a).cores = s.cores := by
  cases v <;> simp only [State.reply] <;> (try split) <;> rfl
@[simp] theorem State.reply_engines (s : State) (v : Via) (i k a : Nat) : (s.reply v i k a).engines = s.engines := by
  cases v <;> simp only [State.reply] <;> (try split) <;> rfl
@[simp] theorem State.reply_jobs (s : State) (v : Via) (i k a : Nat) : (s.reply v i k a).jobs = s.jobs := by
  cases v <;> simp only [State.reply] <;> (try split) <;> rfl
@[simp] theorem State.reply_streams (s : State) (v : Via) (i k a : Nat) : (s.reply v i k a).streams = s.streams := by
  cases v <;> simp only [State.reply] <;> (try split) <;> rfl
@[simp] theorem State.reply_sched (s : State) (v : Via) (i k a : Nat) : (s.reply v i k a).sched = s.sched := by
  cases v <;> simp only [State.reply] <;> (try split) <;> rfl
@[simp] theorem State.reply_pins (s : State) (v : Via) (i k a : Nat) : (s.reply v i k a).pins = s.pins := by
  cases v <;> simp only [State.reply] <;> (try split) <;> rfl
@[simp] theorem State.reply_epoch (s : State) (v : Via) (i k a : Nat) : (s.reply v i k a).epoch = s.epoch := by
  cases v <;> simp only [State.reply] <;> (try split) <;> rfl
@[simp] theorem State.reply_ports (s : State) (v : Via) (i k a : Nat) : (s.reply v i k a).ports = s.ports := by
  cases v <;> simp only [State.reply] <;> (try split) <;> rfl
@[simp] theorem State.reply_qps (s : State) (v : Via) (i k a : Nat) : (s.reply v i k a).qps = s.qps := by
  cases v <;> simp only [State.reply] <;> (try split) <;> rfl
@[simp] theorem State.reply_fabric (s : State) (v : Via) (i k a : Nat) : (s.reply v i k a).fabric = s.fabric := by
  cases v <;> simp only [State.reply] <;> (try split) <;> rfl
@[simp] theorem State.reply_twin (s : State) (v : Via) (i k a : Nat) : (s.reply v i k a).twin = s.twin := by
  cases v <;> simp only [State.reply] <;> (try split) <;> rfl
@[simp] theorem State.reply_round (s : State) (v : Via) (i k a : Nat) : (s.reply v i k a).round = s.round := by
  cases v <;> simp only [State.reply] <;> (try split) <;> rfl
@[simp] theorem State.reply_security (s : State) (v : Via) (i k a : Nat) : (s.reply v i k a).security = s.security := by
  cases v <;> simp only [State.reply] <;> (try split) <;> rfl
@[simp] theorem State.reply_loops (s : State) (v : Via) (i k a : Nat) : (s.reply v i k a).loops = s.loops := by
  cases v <;> simp only [State.reply] <;> (try split) <;> rfl
@[simp] theorem State.reply_convs (s : State) (v : Via) (i k a : Nat) : (s.reply v i k a).convs = s.convs := by
  cases v <;> simp only [State.reply] <;> (try split) <;> rfl
@[simp] theorem State.reply_sensors (s : State) (v : Via) (i k a : Nat) : (s.reply v i k a).sensors = s.sensors := by
  cases v <;> simp only [State.reply] <;> (try split) <;> rfl
@[simp] theorem State.reply_zones (s : State) (v : Via) (i k a : Nat) : (s.reply v i k a).zones = s.zones := by
  cases v <;> simp only [State.reply] <;> (try split) <;> rfl
@[simp] theorem State.reply_cartridges (s : State) (v : Via) (i k a : Nat) : (s.reply v i k a).cartridges = s.cartridges := by
  cases v <;> simp only [State.reply] <;> (try split) <;> rfl
@[simp] theorem State.reply_power (s : State) (v : Via) (i k a : Nat) : (s.reply v i k a).power = s.power := by
  cases v <;> simp only [State.reply] <;> (try split) <;> rfl
@[simp] theorem State.reply_events (s : State) (v : Via) (i k a : Nat) : (s.reply v i k a).events = s.events := by
  cases v <;> simp only [State.reply] <;> (try split) <;> rfl
@[simp] theorem State.reply_al (s : State) (v : Via) (i k a : Nat) : (s.reply v i k a).al = s.al := by
  cases v <;> simp only [State.reply] <;> (try split) <;> rfl
@[simp] theorem State.reply_sdo (s : State) (v : Via) (i k a : Nat) : (s.reply v i k a).sdo = s.sdo := by
  cases v <;> simp only [State.reply] <;> (try split) <;> rfl
@[simp] theorem State.reply_sm3 (s : State) (v : Via) (i k a : Nat) : (s.reply v i k a).sm3 = s.sm3 := by
  cases v <;> simp only [State.reply] <;> (try split) <;> rfl
@[simp] theorem State.reply_summaries (s : State) (v : Via) (i k a : Nat) : (s.reply v i k a).summaries = s.summaries := by
  cases v <;> simp only [State.reply] <;> (try split) <;> rfl
@[simp] theorem State.reply_selects (s : State) (v : Via) (i k a : Nat) : (s.reply v i k a).selects = s.selects := by
  cases v <;> simp only [State.reply] <;> (try split) <;> rfl
@[simp] theorem State.reply_free (s : State) (v : Via) (i k a : Nat) : (s.reply v i k a).free = s.free := by
  cases v <;> simp only [State.reply] <;> (try split) <;> rfl
@[simp] theorem State.reply_core (s : State) (v : Via) (i k a : Nat) (x : Nat) :
    (s.reply v i k a).core x = s.core x := by
  cases v <;> simp only [State.reply] <;> (try split) <;> rfl
@[simp] theorem State.reply_eng (s : State) (v : Via) (i k a : Nat) (x y : Nat) :
    (s.reply v i k a).eng x y = s.eng x y := by
  cases v <;> simp only [State.reply] <;> (try split) <;> rfl
@[simp] theorem State.reply_job (s : State) (v : Via) (i k a : Nat) (x : Nat) :
    (s.reply v i k a).job x = s.job x := by
  cases v <;> simp only [State.reply] <;> (try split) <;> rfl
@[simp] theorem State.reply_stream (s : State) (v : Via) (i k a : Nat) (x : Nat) :
    (s.reply v i k a).stream x = s.stream x := by
  cases v <;> simp only [State.reply] <;> (try split) <;> rfl
@[simp] theorem State.reply_port (s : State) (v : Via) (i k a : Nat) (x : Nat) :
    (s.reply v i k a).port x = s.port x := by
  cases v <;> simp only [State.reply] <;> (try split) <;> rfl
@[simp] theorem State.reply_qp (s : State) (v : Via) (i k a : Nat) (x : Nat) :
    (s.reply v i k a).qp x = s.qp x := by
  cases v <;> simp only [State.reply] <;> (try split) <;> rfl
@[simp] theorem State.reply_loopCore (s : State) (v : Via) (i k a : Nat) (x : Nat) :
    (s.reply v i k a).loopCore x = s.loopCore x := by
  cases v <;> simp only [State.reply] <;> (try split) <;> rfl
@[simp] theorem State.reply_conv (s : State) (v : Via) (i k a : Nat) (x : Nat) :
    (s.reply v i k a).conv x = s.conv x := by
  cases v <;> simp only [State.reply] <;> (try split) <;> rfl
@[simp] theorem State.reply_zone (s : State) (v : Via) (i k a : Nat) (x : Nat) :
    (s.reply v i k a).zone x = s.zone x := by
  cases v <;> simp only [State.reply] <;> (try split) <;> rfl
@[simp] theorem State.reply_cart (s : State) (v : Via) (i k a : Nat) (x : Nat) :
    (s.reply v i k a).cart x = s.cart x := by
  cases v <;> simp only [State.reply] <;> (try split) <;> rfl
@[simp] theorem State.reply_unit (s : State) (v : Via) (i k a : Nat) (x : Nat) :
    (s.reply v i k a).unit x = s.unit x := by
  cases v <;> simp only [State.reply] <;> (try split) <;> rfl
@[simp] theorem State.reply_val (s : State) (v : Via) (i k a : Nat) (x y : Nat) :
    (s.reply v i k a).val x y = s.val x y := by
  cases v <;> simp only [State.reply] <;> (try split) <;> rfl
@[simp] theorem State.reply_flag (s : State) (v : Via) (i k a : Nat) (x y : Nat) :
    (s.reply v i k a).flag x y = s.flag x y := by
  cases v <;> simp only [State.reply] <;> (try split) <;> rfl
@[simp] theorem State.reply_ns (s : State) (v : Via) (i k a : Nat) :
    (s.reply v i k a).ns = s.ns := by
  cases v <;> simp only [State.reply] <;> (try split) <;> rfl
@[simp] theorem State.reply_up (s : State) (v : Via) (i k a : Nat) :
    (s.reply v i k a).up = s.up := by
  cases v <;> simp only [State.reply] <;> (try split) <;> rfl

/-- A write that a check refuses leaves a code; one that all let through leaves the state. -/
theorem State.writeGate_pass {s : State} {v : Via} {i k : Nat} {d : List Byte} (h : (s.writeGate v i k d).1 = 0) :
    s.writeGate v i k d = (0, s) := by
  revert h
  unfold State.writeGate
  simp only
  repeat' (first | (split; intro h; cases h; done) | (intro _; rfl) | split)
  all_goals (intro h; first | cases h | rfl)

/-- A write that comes through acts, and its outcome is told. -/
theorem State.writeRow_admitted {s : State} {road : Road} {i k : Nat} {d : List Byte} {act : State → Nat × State}
    (h : s.admits road i k d) : s.writeRow road i k d act = (act s).2.reply (viaOf road i k) i k (act s).1 := by
  obtain ⟨h1, h2⟩ := h
  unfold State.writeRow State.writeVia
  simp only [h1, State.writeGate_pass h2, bne_self_eq_false, Bool.not_true, Bool.false_eq_true, if_false]

/-- The bytes of a number give it back. -/
theorem leNat_leBytes (n v : Nat) (h : v < 256 ^ n) : leNat (leBytes n v) = v := by
  induction n generalizing v with
  | zero => simp only [Nat.pow_zero, Nat.lt_one_iff] at h; subst h; rfl
  | succ n ih =>
    simp only [leBytes, leNat]
    rw [ih (v / 256) (by rw [Nat.div_lt_iff_lt_mul (by omega)]; rw [Nat.pow_succ] at h; exact h)]
    simp only [BitVec.toNat_ofNat]
    omega

/-- A value outside an entry's range is refused by some check. -/
theorem State.writeGate_out {s : State} {v : Via} {i k : Nat} {d : List Byte} {r : OdRow} (hr : odRow i k = some r)
    (h : r.accepts (leNat d) = false) : (s.writeGate v i k d).1 ≠ 0 := by
  unfold State.writeGate
  simp only [hr, h]
  repeat' (first | decide | split)
  all_goals simp_all [abRunState, abIndex, abAccess, abReadOnly, abLength, abRange]

end Sys2Proof.Machine
end

