-- ==== Sys2Proof/Laws/Events.lean ====
section
/-! SUPPORT. Laws of what is raised: the dictionary entries that an event can change are the sinks' drop and storm counters, and an
event record takes the next SEQUENCE. -/

namespace Sys2Proof.Machine

/-- Counting changes no other entry. -/
theorem State.bump_val_other (s : State) (i k n x y : Nat) (h : odKey x y ≠ odKey i k) : (s.bump i k n).val x y = s.val x y := by
  unfold State.bump
  split
  · rfl
  · split
    · exact s.setVal_val_other _ _ _ _ _ h
    · rfl

/-- An entry of another object than the drop counters and the storm state (R490). -/
abbrev quiet (x y : Nat) : Prop := odKey x y / 256 ≠ 0x7002 ∧ odKey x y / 256 ≠ 0x7005

theorem quiet_ne {x y : Nat} (h : quiet x y) (k : Nat) (hk : k < 256) : odKey x y ≠ odKey 0x7002 k ∧ odKey x y ≠ odKey 0x7005 k := by
  unfold quiet odKey at *
  omega

@[simp] theorem State.signalVector_od (s : State) (p v : Nat) : (s.signalVector p v).od = s.od := by
  unfold State.signalVector
  simp only
  repeat' (first | rfl | split)

@[simp] theorem State.signalEvents_od (s : State) (p : Nat) : (s.signalEvents p).od = s.od := by
  unfold State.signalEvents
  simp only
  split
  · rfl
  · exact s.signalVector_od p _

theorem State.val_congr {s t : State} (h : t.od = s.od) (x y : Nat) : t.val x y = s.val x y := by
  unfold State.val
  rw [h]

theorem State.drop_val (s : State) (n : Nat) (e : Event) (x y : Nat) (hn : n ≤ 2) (h : quiet x y) :
    (s.drop n e).val x y = s.val x y := by
  have h1 := (quiet_ne h (1 + 4 * n + (4 - e.severity)) (by omega)).1
  have h2 := (quiet_ne h 1 (by omega)).2
  have h3 := (quiet_ne h 2 (by omega)).2
  unfold State.drop
  extract_lets e0 s1 s2 begins s3
  have q1 : s1.val x y = s.val x y := by
    unfold s1
    split <;> rfl
  have q3 : s3.val x y = s.val x y :=
    (State.val_congr (s := s2) rfl x y).trans ((s1.bump_val_other _ _ _ _ _ h1).trans q1)
  split
  · exact q1
  · split
    · rw [State.setVal_val_other _ _ _ _ _ _ h2, State.bump_val_other _ _ _ _ _ _ h3, q3]
    · exact q3

theorem State.offer_val (s : State) (n : Nat) (e : Event) (x y : Nat) (hn : n ≤ 2) (h : quiet x y) :
    (s.offer n e).val x y = s.val x y := by
  unfold State.offer
  simp only
  split
  · rfl
  · split
    · exact s.drop_val n e x y hn h
    · split
      · rw [State.val_congr (State.signalEvents_od _ _), State.val_congr (State.signalEvents_od _ _)]
        split
        · exact State.drop_val _ n _ x y hn h
        · rfl
      · split
        · exact State.drop_val _ n _ x y hn h
        · rfl

theorem State.emitRecord_val (s : State) (code sev source detail : Nat) (clear : Bool) (l : List Nat) (x y : Nat)
    (hl : ∀ n ∈ l, n ≤ 2) (h : quiet x y) : (s.emitRecord code sev source detail clear l).val x y = s.val x y := by
  unfold State.emitRecord
  simp only
  suffices hs : ∀ (t : State) (e : Event), (l.foldl (fun s k => s.offer k e) t).val x y = t.val x y from hs _ _
  induction l with
  | nil => exact fun _ _ => rfl
  | cons n l ih =>
    intro t e
    rw [List.foldl_cons, ih (fun m hm => hl m (List.mem_cons_of_mem _ hm)), t.offer_val n e x y (hl n List.mem_cons_self) h]

theorem State.admitting_le (s : State) (sev n : Nat) (h : n ∈ s.admitting sev) : n ≤ 2 := by
  have := (List.mem_filter.1 h).1
  simp at this
  omega

/-- An event changes no entry but the drop counters and the storm state. -/
theorem State.raise_val (s : State) (code source detail x y : Nat) (h : quiet x y) :
    (s.raise code source detail).val x y = s.val x y := by
  unfold State.raise
  simp only
  repeat' split
  · exact State.emitRecord_val _ _ _ _ _ _ _ _ _ (State.admitting_le _ _) h
  · rfl
  · exact State.emitRecord_val _ _ _ _ _ _ _ _ _ (State.admitting_le _ _) h

theorem State.clearEntry_val (s : State) (i x y : Nat) (h : quiet x y) : (s.clearEntry i).val x y = s.val x y := by
  unfold State.clearEntry
  simp only
  repeat' split
  · rfl
  · exact (State.emitRecord_val (s.putAlarms _) _ _ _ _ _ _ x y (State.admitting_le _ _) h)
  · exact (State.emitRecord_val (s.putAlarms _) _ _ _ _ _ _ x y (State.admitting_le _ _) h)

theorem State.clearAlarm_val (s : State) (code source x y : Nat) (h : quiet x y) :
    (s.clearAlarm code source).val x y = s.val x y := by
  unfold State.clearAlarm
  generalize s.events.alarms.filter _ = l
  induction l generalizing s with
  | nil => rfl
  | cons a l ih => rw [List.foldl_cons, ih, s.clearEntry_val _ x y h]

theorem State.clearSource_val (s : State) (source x y : Nat) (h : quiet x y) : (s.clearSource source).val x y = s.val x y := by
  unfold State.clearSource
  generalize s.events.alarms.filter _ = l
  induction l generalizing s with
  | nil => rfl
  | cons a l ih => rw [List.foldl_cons, ih, s.clearEntry_val _ x y h]

/-- Refusing a request for want of a right changes no entry but those of `0x3000` and what its event changes (R260). -/
theorem State.deny_val (s : State) (m : Option Nat) (a l x y : Nat) (h : quiet x y) (h3 : odKey x y / 256 ≠ 0x3000) :
    (s.deny m a l).val x y = s.val x y := by
  have hk : ∀ k < 256, odKey x y ≠ odKey 0x3000 k := fun k hk => by unfold odKey at *; omega
  unfold State.deny
  simp only
  rw [State.raise_val _ _ _ _ _ _ h, State.setVal_val_other _ _ _ _ _ _ (hk 3 (by omega)),
    State.setVal_val_other _ _ _ _ _ _ (hk 2 (by omega)), State.bump_val_other _ _ _ _ _ _ (hk 1 (by omega))]

theorem State.writeGate_val (s : State) (v : Via) (i k : Nat) (d : List Byte) (x y : Nat) (h : quiet x y)
    (h3 : odKey x y / 256 ≠ 0x3000) : (s.writeGate v i k d).2.val x y = s.val x y := by
  unfold State.writeGate
  simp only
  repeat' (first | rfl | exact s.deny_val _ _ _ _ _ h h3 | split)

/-- A write that a check refuses changes no entry but the counts of refusals and of events. -/
theorem State.writeRow_refused {s : State} {road : Road} {i k : Nat} {d : List Byte} {act : State → Nat × State} {x y : Nat}
    (hg : (s.writeGate (viaOf road i k) i k d).1 ≠ 0) (h : quiet x y) (h3 : odKey x y / 256 ≠ 0x3000) :
    (s.writeRow road i k d act).val x y = s.val x y := by
  unfold State.writeRow State.writeVia
  simp only [bne_iff_ne, ne_eq, hg, not_false_eq_true, if_true]
  split
  · rfl
  · rw [State.reply_val]
    exact s.writeGate_val _ i k d x y h h3

end Sys2Proof.Machine
end

