-- ==== Sys2Proof/Laws/Keeps.lean ====
section
/-! SUPPORT. The relation `State.Keeps` between the state before and after: how it is put together from the parts of a meaning.
Every operation of Machine/ has its own lemma in the files Laws/Keeps….lean, named after it with `_keeps`. -/

namespace Sys2Proof.Machine

/-- Every part of one list is in the other. -/
abbrev Within (a b : List Part) : Prop := ∀ p ∈ a, p ∈ b

theorem Within.sub {a b l : List Part} (m : Within a l) (h : Within b a) : Within b l := fun p hp => m p (h p hp)

theorem State.Keeps.refl (l : List Part) (s : State) : s.Keeps l s :=
  ⟨rfl, List.prefix_refl _, rfl, id, fun p _ => by cases p <;> rfl⟩

theorem State.Agree.trans {a b c : State} {p : Part} (h : a.Agree b p) (k : b.Agree c p) : a.Agree c p := by
  cases p <;> exact Eq.trans k h

theorem State.Keeps.trans {a b c : State} {l : List Part} (h : a.Keeps l b) (k : b.Keeps l c) : a.Keeps l c :=
  ⟨k.queue.trans h.queue, h.out.trans k.out, k.up.trans h.up, fun w => k.mem (h.mem w), fun p hp => (h.rest p hp).trans (k.rest p hp)⟩

/-- What keeps all but some parts keeps all but more. -/
theorem State.Keeps.mono {s t : State} {a l : List Part} (h : s.Keeps a t) (m : Within a l) : s.Keeps l t :=
  ⟨h.queue, h.out, h.up, h.mem, fun p hp => h.rest p (fun ha => hp (m p ha))⟩

/-- Parts other than the queue, the output and the memory may change, and of the clock all but the up time. -/
theorem State.keeps_mk {bef s : State} {a l : List Part} {clock time run od units stackScrub cores engines jobs streams sched
    pins epoch ports qps fabric twin hosts round security loops convs sensors zones cartridges power events al sdo sm3 summaries
    selects free} (m : Within a l) (h : bef.Keeps l s) (hc : clock.up = s.clock.up)
    (hp : ∀ p, p ∈ a ∨ s.Agree (State.mk s.pending s.out clock time run od units s.mem stackScrub cores engines jobs streams sched
      pins epoch ports qps fabric twin hosts round security loops convs sensors zones cartridges power events al sdo sm3 summaries
      selects free) p) :
    bef.Keeps l (State.mk s.pending s.out clock time run od units s.mem stackScrub cores engines jobs streams sched pins epoch ports
      qps fabric twin hosts round security loops convs sensors zones cartridges power events al sdo sm3 summaries selects free) :=
  ⟨h.queue, h.out, hc.trans h.up, h.mem, fun p hl =>
    (h.rest p hl).trans ((hp p).resolve_left (fun ha => hl (m p ha)))⟩

/-- The same where the memory changes too, and keeps its form. -/
theorem State.keeps_mem {bef s : State} {a l : List Part} {clock time run od units mem stackScrub cores engines jobs streams sched
    pins epoch ports qps fabric twin hosts round security loops convs sensors zones cartridges power events al sdo sm3 summaries
    selects free} (m : Within a l) (h : bef.Keeps l s) (hc : clock.up = s.clock.up)
    (hp : ∀ p, p ∈ a ∨ s.Agree (State.mk s.pending s.out clock time run od units mem stackScrub cores engines jobs streams sched
      pins epoch ports qps fabric twin hosts round security loops convs sensors zones cartridges power events al sdo sm3 summaries
      selects free) p) (hm : Mem.wf s.mem → Mem.wf mem) :
    bef.Keeps l (State.mk s.pending s.out clock time run od units mem stackScrub cores engines jobs streams sched pins epoch ports
      qps fabric twin hosts round security loops convs sensors zones cartridges power events al sdo sm3 summaries selects free) :=
  ⟨h.queue, h.out, hc.trans h.up, fun w => hm (h.mem w), fun p hl =>
    (h.rest p hl).trans ((hp p).resolve_left (fun ha => hl (m p ha)))⟩

/-- A part of a meaning that has kept everything may be forgotten but for that. -/
theorem keeps_cut {bef s t : State} {l : List Part} (h : bef.Keeps l s) (k : bef.Keeps l s → bef.Keeps l t) : bef.Keeps l t := k h

/-- The same for what is known of a function used on the way. -/
theorem keeps_fact {l : List Part} {bef t : State} {P : Prop} (h : P) (k : P → bef.Keeps l t) : bef.Keeps l t := k h

/-- What is put out is added behind what was. -/
theorem State.emit_keeps {l : List Part} {bef s : State} (m : Within [.out] l) (o : Output) (h : bef.Keeps l s) : bef.Keeps l (s.emit o) :=
  ⟨h.queue, h.out.trans (List.prefix_append _ _), h.up, h.mem, fun p hp => by
    refine (h.rest p hp).trans ?_
    cases p
    · exact absurd (m _ (by decide)) hp
    all_goals rfl⟩

theorem keeps_ite {l : List Part} {bef x y : State} {c : Prop} [Decidable c] (hx : bef.Keeps l x) (hy : bef.Keeps l y) :
    bef.Keeps l (if c then x else y) := by split <;> assumption

theorem keeps_ite_fst {l : List Part} {α : Type} {bef : State} {x y : State × α} {c : Prop} [Decidable c] (hx : bef.Keeps l x.1)
    (hy : bef.Keeps l y.1) : bef.Keeps l (if c then x else y).1 := by split <;> assumption

theorem keeps_ite_snd {l : List Part} {α : Type} {bef : State} {x y : α × State} {c : Prop} [Decidable c] (hx : bef.Keeps l x.2)
    (hy : bef.Keeps l y.2) : bef.Keeps l (if c then x else y).2 := by split <;> assumption

theorem keeps_foldl {l : List Part} {α : Type} {bef s : State} {f : State → α → State} {xs : List α} (h : bef.Keeps l s)
    (hf : ∀ s x, bef.Keeps l s → bef.Keeps l (f s x)) : bef.Keeps l (xs.foldl f s) := by
  induction xs generalizing s with
  | nil => exact h
  | cons x xs ih => exact ih (hf s x h)

theorem keeps_foldl_fst {l : List Part} {α β : Type} {bef : State} {s : State × β} {f : State × β → α → State × β} {xs : List α}
    (h : bef.Keeps l s.1) (hf : ∀ s x, bef.Keeps l s.1 → bef.Keeps l (f s x).1) : bef.Keeps l (xs.foldl f s).1 := by
  induction xs generalizing s with
  | nil => exact h
  | cons x xs ih => exact ih (hf s x h)

theorem keeps_foldl_snd {l : List Part} {α β : Type} {bef : State} {s : β × State} {f : β × State → α → β × State} {xs : List α}
    (h : bef.Keeps l s.2) (hf : ∀ s x, bef.Keeps l s.2 → bef.Keeps l (f s x).2) : bef.Keeps l (xs.foldl f s).2 := by
  induction xs generalizing s with
  | nil => exact h
  | cons x xs ih => exact ih (hf s x h)

theorem keeps_foldl_mid {l : List Part} {α β γ : Type} {bef : State} {s : β × State × γ} {f : β × State × γ → α → β × State × γ} {xs : List α}
    (h : bef.Keeps l s.2.1) (hf : ∀ s x, bef.Keeps l s.2.1 → bef.Keeps l (f s x).2.1) : bef.Keeps l (xs.foldl f s).2.1 := by
  induction xs generalizing s with
  | nil => exact h
  | cons x xs ih => exact ih (hf s x h)

theorem keeps_foldl_last {l : List Part} {α β γ : Type} {bef : State} {s : β × γ × State} {f : β × γ × State → α → β × γ × State} {xs : List α}
    (h : bef.Keeps l s.2.2) (hf : ∀ s x, bef.Keeps l s.2.2 → bef.Keeps l (f s x).2.2) : bef.Keeps l (xs.foldl f s).2.2 := by
  induction xs generalizing s with
  | nil => exact h
  | cons x xs ih => exact ih (hf s x h)

theorem keeps_foldl_opt {l : List Part} {α : Type} {bef : State} {f : Option State → α → Option State} {o : Option State} {xs : List α}
    (ho : ∀ r, o = some r → bef.Keeps l r)
    (hf : ∀ o x, (∀ r, o = some r → bef.Keeps l r) → ∀ r, f o x = some r → bef.Keeps l r) : ∀ r, xs.foldl f o = some r → bef.Keeps l r := by
  induction xs generalizing o with
  | nil => exact ho
  | cons x xs ih => exact ih (hf o x ho)

/-- A memory that each of several steps leaves in its form. -/
theorem mem_wf_foldl {α : Type} {m : Mem} {f : Mem → α → Mem} {l : List α} (h : m.wf) (hf : ∀ m x, Mem.wf m → (f m x).wf) :
    (l.foldl f m).wf := by
  induction l generalizing m with
  | nil => exact h
  | cons x l ih => exact ih (hf m x h)

/-- A part of a pair that has kept everything. -/
theorem keeps_of_fst {l : List Part} {α : Type} {bef s : State} {e : State × α} {x : α} (he : e = (s, x)) (h : bef.Keeps l e.1) : bef.Keeps l s := by
  subst he
  exact h

theorem keeps_of_snd {l : List Part} {α : Type} {bef s : State} {e : α × State} {x : α} (he : e = (x, s)) (h : bef.Keeps l e.2) : bef.Keeps l s := by
  subst he
  exact h

theorem keeps_forRange {l : List Part} {bef s : State} {n : Nat} {f : State → Nat → State} (h : bef.Keeps l s)
    (hf : ∀ s i, bef.Keeps l s → bef.Keeps l (f s i)) : bef.Keeps l (forRange n s f) := keeps_foldl h hf

theorem keeps_forRange_fst {l : List Part} {β : Type} {bef : State} {s : State × β} {n : Nat} {f : State × β → Nat → State × β}
    (h : bef.Keeps l s.1) (hf : ∀ s i, bef.Keeps l s.1 → bef.Keeps l (f s i).1) : bef.Keeps l (forRange n s f).1 := keeps_foldl_fst h hf

theorem keeps_forRange_snd {l : List Part} {β : Type} {bef : State} {s : β × State} {n : Nat} {f : β × State → Nat → β × State}
    (h : bef.Keeps l s.2) (hf : ∀ s i, bef.Keeps l s.2 → bef.Keeps l (f s i).2) : bef.Keeps l (forRange n s f).2 := keeps_foldl_snd h hf

end Sys2Proof.Machine
end

