-- ==== Sys2Proof/Laws/Frames.lean ====
section
/-! SUPPORT. What follows for one part of the state, and what is read through its accessors, where it is not among those that an
operation may change. -/

namespace Sys2Proof.Machine

theorem Within.refl (l : List Part) : Within l l := fun _ h => h

variable {s t : State} {l : List Part}

theorem State.Keeps.out_eq (h : s.Keeps l t) (hp : .out ∉ l) : t.out = s.out := h.rest .out hp
theorem State.Keeps.clock_eq (h : s.Keeps l t) (hp : .clock ∉ l) : t.clock = s.clock := h.rest .clock hp
theorem State.Keeps.time_eq (h : s.Keeps l t) (hp : .time ∉ l) : t.time = s.time := h.rest .time hp
theorem State.Keeps.run_eq (h : s.Keeps l t) (hp : .run ∉ l) : t.run = s.run := h.rest .run hp
theorem State.Keeps.od_eq (h : s.Keeps l t) (hp : .od ∉ l) : t.od = s.od := h.rest .od hp
theorem State.Keeps.units_eq (h : s.Keeps l t) (hp : .units ∉ l) : t.units = s.units := h.rest .units hp
theorem State.Keeps.mem_eq (h : s.Keeps l t) (hp : .mem ∉ l) : t.mem = s.mem := h.rest .mem hp
theorem State.Keeps.stackScrub_eq (h : s.Keeps l t) (hp : .stackScrub ∉ l) : t.stackScrub = s.stackScrub := h.rest .stackScrub hp
theorem State.Keeps.cores_eq (h : s.Keeps l t) (hp : .cores ∉ l) : t.cores = s.cores := h.rest .cores hp
theorem State.Keeps.engines_eq (h : s.Keeps l t) (hp : .engines ∉ l) : t.engines = s.engines := h.rest .engines hp
theorem State.Keeps.jobs_eq (h : s.Keeps l t) (hp : .jobs ∉ l) : t.jobs = s.jobs := h.rest .jobs hp
theorem State.Keeps.streams_eq (h : s.Keeps l t) (hp : .streams ∉ l) : t.streams = s.streams := h.rest .streams hp
theorem State.Keeps.sched_eq (h : s.Keeps l t) (hp : .sched ∉ l) : t.sched = s.sched := h.rest .sched hp
theorem State.Keeps.pins_eq (h : s.Keeps l t) (hp : .pins ∉ l) : t.pins = s.pins := h.rest .pins hp
theorem State.Keeps.epoch_eq (h : s.Keeps l t) (hp : .epoch ∉ l) : t.epoch = s.epoch := h.rest .epoch hp
theorem State.Keeps.ports_eq (h : s.Keeps l t) (hp : .ports ∉ l) : t.ports = s.ports := h.rest .ports hp
theorem State.Keeps.qps_eq (h : s.Keeps l t) (hp : .qps ∉ l) : t.qps = s.qps := h.rest .qps hp
theorem State.Keeps.fabric_eq (h : s.Keeps l t) (hp : .fabric ∉ l) : t.fabric = s.fabric := h.rest .fabric hp
theorem State.Keeps.twin_eq (h : s.Keeps l t) (hp : .twin ∉ l) : t.twin = s.twin := h.rest .twin hp
theorem State.Keeps.hosts_eq (h : s.Keeps l t) (hp : .hosts ∉ l) : t.hosts = s.hosts := h.rest .hosts hp
theorem State.Keeps.round_eq (h : s.Keeps l t) (hp : .round ∉ l) : t.round = s.round := h.rest .round hp
theorem State.Keeps.security_eq (h : s.Keeps l t) (hp : .security ∉ l) : t.security = s.security := h.rest .security hp
theorem State.Keeps.loops_eq (h : s.Keeps l t) (hp : .loops ∉ l) : t.loops = s.loops := h.rest .loops hp
theorem State.Keeps.convs_eq (h : s.Keeps l t) (hp : .convs ∉ l) : t.convs = s.convs := h.rest .convs hp
theorem State.Keeps.sensors_eq (h : s.Keeps l t) (hp : .sensors ∉ l) : t.sensors = s.sensors := h.rest .sensors hp
theorem State.Keeps.zones_eq (h : s.Keeps l t) (hp : .zones ∉ l) : t.zones = s.zones := h.rest .zones hp
theorem State.Keeps.cartridges_eq (h : s.Keeps l t) (hp : .cartridges ∉ l) : t.cartridges = s.cartridges := h.rest .cartridges hp
theorem State.Keeps.power_eq (h : s.Keeps l t) (hp : .power ∉ l) : t.power = s.power := h.rest .power hp
theorem State.Keeps.events_eq (h : s.Keeps l t) (hp : .events ∉ l) : t.events = s.events := h.rest .events hp
theorem State.Keeps.al_eq (h : s.Keeps l t) (hp : .al ∉ l) : t.al = s.al := h.rest .al hp
theorem State.Keeps.sdo_eq (h : s.Keeps l t) (hp : .sdo ∉ l) : t.sdo = s.sdo := h.rest .sdo hp
theorem State.Keeps.sm3_eq (h : s.Keeps l t) (hp : .sm3 ∉ l) : t.sm3 = s.sm3 := h.rest .sm3 hp
theorem State.Keeps.summaries_eq (h : s.Keeps l t) (hp : .summaries ∉ l) : t.summaries = s.summaries := h.rest .summaries hp
theorem State.Keeps.selects_eq (h : s.Keeps l t) (hp : .selects ∉ l) : t.selects = s.selects := h.rest .selects hp
theorem State.Keeps.free_eq (h : s.Keeps l t) (hp : .free ∉ l) : t.free = s.free := h.rest .free hp

theorem State.Keeps.core_eq (h : s.Keeps l t) (c : Nat) (hp : .cores ∉ l) : t.core c = s.core c := by
  simp only [State.core, h.cores_eq hp]
theorem State.Keeps.eng_eq (h : s.Keeps l t) (c e : Nat) (hp : .engines ∉ l) : t.eng c e = s.eng c e := by
  simp only [State.eng, h.engines_eq hp]
theorem State.Keeps.job_eq (h : s.Keeps l t) (j : Nat) (hp : .jobs ∉ l) : t.job j = s.job j := by
  simp only [State.job, h.jobs_eq hp]
theorem State.Keeps.stream_eq (h : s.Keeps l t) (n : Nat) (hp : .streams ∉ l) : t.stream n = s.stream n := by
  simp only [State.stream, h.streams_eq hp]
theorem State.Keeps.port_eq (h : s.Keeps l t) (n : Nat) (hp : .ports ∉ l) : t.port n = s.port n := by
  simp only [State.port, h.ports_eq hp]
theorem State.Keeps.qp_eq (h : s.Keeps l t) (n : Nat) (hp : .qps ∉ l) : t.qp n = s.qp n := by
  simp only [State.qp, h.qps_eq hp]
theorem State.Keeps.host_eq (h : s.Keeps l t) (p : Nat) (hp : .hosts ∉ l) : t.host p = s.host p := by
  simp only [State.host, h.hosts_eq hp]
theorem State.Keeps.loopCore_eq (h : s.Keeps l t) (c : Nat) (hp : .loops ∉ l) : t.loopCore c = s.loopCore c := by
  simp only [State.loopCore, h.loops_eq hp]
theorem State.Keeps.conv_eq (h : s.Keeps l t) (c : Nat) (hp : .convs ∉ l) : t.conv c = s.conv c := by
  simp only [State.conv, h.convs_eq hp]
theorem State.Keeps.zone_eq (h : s.Keeps l t) (z : Nat) (hp : .zones ∉ l) : t.zone z = s.zone z := by
  simp only [State.zone, h.zones_eq hp]
theorem State.Keeps.cart_eq (h : s.Keeps l t) (i : Nat) (hp : .cartridges ∉ l) : t.cart i = s.cart i := by
  simp only [State.cart, h.cartridges_eq hp]
theorem State.Keeps.unit_eq (h : s.Keeps l t) (r : Nat) (hp : .units ∉ l) : t.unit r = s.unit r := by
  simp only [State.unit, h.units_eq hp]
theorem State.Keeps.val_eq (h : s.Keeps l t) (i k : Nat) (hp : .od ∉ l) : t.val i k = s.val i k := by
  simp only [State.val, h.od_eq hp]
theorem State.Keeps.flag_eq (h : s.Keeps l t) (i k : Nat) (hp : .od ∉ l) : t.flag i k = s.flag i k := by
  rw [State.flag, State.flag, h.val_eq i k hp]
theorem State.Keeps.ns_eq (h : s.Keeps l t) (hp : .clock ∉ l) : t.ns = s.ns := by
  simp only [State.ns, h.clock_eq hp]
theorem State.Keeps.up_eq (h : s.Keeps l t) : t.up = s.up := h.up

end Sys2Proof.Machine
end

