-- ==== Sys2Proof/Laws/KeepsOps.lean ====
section
/-! SUPPORT. What the operations of Machine/Ops.lean keep. -/

namespace Sys2Proof.Machine

theorem State.takeFree_keeps {pts : List Part} (hw : Within [.free] pts) {bef : State} {s : State} (h : bef.Keeps pts s) :
    bef.Keeps pts (State.takeFree s) := by
  unfold State.takeFree
  repeat' (first
    | with_reducible assumption | ((with_reducible refine Within.sub hw ?_); decide)
    | (fail_if_no_progress extract_lets -underBinder -merge -useContext +onlyGivenNames z
       first
       | (refine keeps_cut (s := z) ?_ ?_; (on_goal 1 => unfold z); on_goal 2 => (intro _; try clear_value z))
       | try clear_value z)
    | with_reducible apply keeps_ite | with_reducible apply keeps_ite_snd | split
    | ((with_reducible refine State.keeps_mk hw (by assumption) rfl ?_)
       intro p; cases p <;> (first | exact .inl (by decide) | exact .inr rfl))
    | (intro _; intros; try beta_reduce))

theorem State.storeBytes_keeps {pts : List Part} (hw : Within [.mem] pts) {bef : State} {s : State} (a : Nat) (bs : List
    Byte) (h : bef.Keeps pts s) : bef.Keeps pts (State.storeBytes s a bs) := by
  unfold State.storeBytes
  repeat' (first
    | with_reducible assumption | ((with_reducible refine Within.sub hw ?_); decide)
    | (fail_if_no_progress extract_lets -underBinder -merge -useContext +onlyGivenNames z
       first
       | (refine keeps_cut (s := z) ?_ ?_; (on_goal 1 => unfold z); on_goal 2 => (intro _; try clear_value z))
       | try clear_value z)
    | with_reducible apply keeps_ite | with_reducible apply keeps_ite_snd | split
    | ((with_reducible refine State.keeps_mk hw (by assumption) rfl ?_)
       intro p; cases p <;> (first | exact .inl (by decide) | exact .inr rfl))
    | ((with_reducible refine State.keeps_mem hw (by assumption) rfl ?_ ?_)
       on_goal 1 => (intro p; cases p <;> (first | exact .inl (by decide) | exact .inr rfl)))
    | with_reducible apply Mem.write_wf | with_reducible apply Mem.copy_wf | with_reducible apply Mem.move_wf
    | with_reducible apply Mem.clear_wf | with_reducible apply Mem.putCells_wf | (intro _; intros; try beta_reduce))

theorem State.modUnit_keeps {pts : List Part} (hw : Within [.units] pts) {bef : State} {s : State} (r : Nat) (f : UnitState →
    UnitState) (h : bef.Keeps pts s) : bef.Keeps pts (State.modUnit s r f) := by
  unfold State.modUnit
  repeat' (first
    | with_reducible assumption | ((with_reducible refine Within.sub hw ?_); decide)
    | (fail_if_no_progress extract_lets -underBinder -merge -useContext +onlyGivenNames z
       first
       | (refine keeps_cut (s := z) ?_ ?_; (on_goal 1 => unfold z); on_goal 2 => (intro _; try clear_value z))
       | try clear_value z)
    | with_reducible apply keeps_ite | with_reducible apply keeps_ite_snd | split
    | ((with_reducible refine State.keeps_mk hw (by assumption) rfl ?_)
       intro p; cases p <;> (first | exact .inl (by decide) | exact .inr rfl))
    | (intro _; intros; try beta_reduce))

theorem State.putUnit_keeps {pts : List Part} (hw : Within [.units] pts) {bef : State} {s : State} (r : Nat) (st : UnitSt) (h
    : bef.Keeps pts s) : bef.Keeps pts (State.putUnit s r st) := by
  unfold State.putUnit
  repeat' (first
    | with_reducible assumption | ((with_reducible refine Within.sub hw ?_); decide)
    | (fail_if_no_progress extract_lets -underBinder -merge -useContext +onlyGivenNames z
       first
       | (refine keeps_cut (s := z) ?_ ?_; (on_goal 1 => unfold z); on_goal 2 => (intro _; try clear_value z))
       | try clear_value z)
    | with_reducible apply State.modUnit_keeps | with_reducible apply keeps_ite | with_reducible apply keeps_ite_snd | split
    | ((with_reducible refine State.keeps_mk hw (by assumption) rfl ?_)
       intro p; cases p <;> (first | exact .inl (by decide) | exact .inr rfl))
    | (intro _; intros; try beta_reduce))

theorem State.modCore_keeps {pts : List Part} (hw : Within [.cores] pts) {bef : State} {s : State} (c : Nat) (f : Core →
    Core) (h : bef.Keeps pts s) : bef.Keeps pts (State.modCore s c f) := by
  unfold State.modCore
  repeat' (first
    | with_reducible assumption | ((with_reducible refine Within.sub hw ?_); decide)
    | (fail_if_no_progress extract_lets -underBinder -merge -useContext +onlyGivenNames z
       first
       | (refine keeps_cut (s := z) ?_ ?_; (on_goal 1 => unfold z); on_goal 2 => (intro _; try clear_value z))
       | try clear_value z)
    | with_reducible apply keeps_ite | with_reducible apply keeps_ite_snd | split
    | ((with_reducible refine State.keeps_mk hw (by assumption) rfl ?_)
       intro p; cases p <;> (first | exact .inl (by decide) | exact .inr rfl))
    | (intro _; intros; try beta_reduce))

theorem State.modEng_keeps {pts : List Part} (hw : Within [.engines] pts) {bef : State} {s : State} (c : Nat) (e : Nat) (f :
    Engine → Engine) (h : bef.Keeps pts s) : bef.Keeps pts (State.modEng s c e f) := by
  unfold State.modEng
  repeat' (first
    | with_reducible assumption | ((with_reducible refine Within.sub hw ?_); decide)
    | (fail_if_no_progress extract_lets -underBinder -merge -useContext +onlyGivenNames z
       first
       | (refine keeps_cut (s := z) ?_ ?_; (on_goal 1 => unfold z); on_goal 2 => (intro _; try clear_value z))
       | try clear_value z)
    | with_reducible apply keeps_ite | with_reducible apply keeps_ite_snd | split
    | ((with_reducible refine State.keeps_mk hw (by assumption) rfl ?_)
       intro p; cases p <;> (first | exact .inl (by decide) | exact .inr rfl))
    | (intro _; intros; try beta_reduce))

theorem State.modJob_keeps {pts : List Part} (hw : Within [.jobs] pts) {bef : State} {s : State} (j : Nat) (f : Job → Job) (h
    : bef.Keeps pts s) : bef.Keeps pts (State.modJob s j f) := by
  unfold State.modJob
  repeat' (first
    | with_reducible assumption | ((with_reducible refine Within.sub hw ?_); decide)
    | (fail_if_no_progress extract_lets -underBinder -merge -useContext +onlyGivenNames z
       first
       | (refine keeps_cut (s := z) ?_ ?_; (on_goal 1 => unfold z); on_goal 2 => (intro _; try clear_value z))
       | try clear_value z)
    | with_reducible apply keeps_ite | with_reducible apply keeps_ite_snd | split
    | ((with_reducible refine State.keeps_mk hw (by assumption) rfl ?_)
       intro p; cases p <;> (first | exact .inl (by decide) | exact .inr rfl))
    | (intro _; intros; try beta_reduce))

theorem State.modStream_keeps {pts : List Part} (hw : Within [.streams] pts) {bef : State} {s : State} (n : Nat) (f : Stream
    → Stream) (h : bef.Keeps pts s) : bef.Keeps pts (State.modStream s n f) := by
  unfold State.modStream
  repeat' (first
    | with_reducible assumption | ((with_reducible refine Within.sub hw ?_); decide)
    | (fail_if_no_progress extract_lets -underBinder -merge -useContext +onlyGivenNames z
       first
       | (refine keeps_cut (s := z) ?_ ?_; (on_goal 1 => unfold z); on_goal 2 => (intro _; try clear_value z))
       | try clear_value z)
    | with_reducible apply keeps_ite | with_reducible apply keeps_ite_snd | split
    | ((with_reducible refine State.keeps_mk hw (by assumption) rfl ?_)
       intro p; cases p <;> (first | exact .inl (by decide) | exact .inr rfl))
    | (intro _; intros; try beta_reduce))

theorem State.modPort_keeps {pts : List Part} (hw : Within [.ports] pts) {bef : State} {s : State} (n : Nat) (f : Port →
    Port) (h : bef.Keeps pts s) : bef.Keeps pts (State.modPort s n f) := by
  unfold State.modPort
  repeat' (first
    | with_reducible assumption | ((with_reducible refine Within.sub hw ?_); decide)
    | (fail_if_no_progress extract_lets -underBinder -merge -useContext +onlyGivenNames z
       first
       | (refine keeps_cut (s := z) ?_ ?_; (on_goal 1 => unfold z); on_goal 2 => (intro _; try clear_value z))
       | try clear_value z)
    | with_reducible apply keeps_ite | with_reducible apply keeps_ite_snd | split
    | ((with_reducible refine State.keeps_mk hw (by assumption) rfl ?_)
       intro p; cases p <;> (first | exact .inl (by decide) | exact .inr rfl))
    | (intro _; intros; try beta_reduce))

theorem State.modQp_keeps {pts : List Part} (hw : Within [.qps] pts) {bef : State} {s : State} (n : Nat) (f : Qp → Qp) (h :
    bef.Keeps pts s) : bef.Keeps pts (State.modQp s n f) := by
  unfold State.modQp
  repeat' (first
    | with_reducible assumption | ((with_reducible refine Within.sub hw ?_); decide)
    | (fail_if_no_progress extract_lets -underBinder -merge -useContext +onlyGivenNames z
       first
       | (refine keeps_cut (s := z) ?_ ?_; (on_goal 1 => unfold z); on_goal 2 => (intro _; try clear_value z))
       | try clear_value z)
    | with_reducible apply keeps_ite | with_reducible apply keeps_ite_snd | split
    | ((with_reducible refine State.keeps_mk hw (by assumption) rfl ?_)
       intro p; cases p <;> (first | exact .inl (by decide) | exact .inr rfl))
    | (intro _; intros; try beta_reduce))

theorem State.modHost_keeps {pts : List Part} (hw : Within [.hosts] pts) {bef : State} {s : State} (p : Nat) (f : HostPort →
    HostPort) (h : bef.Keeps pts s) : bef.Keeps pts (State.modHost s p f) := by
  unfold State.modHost
  repeat' (first
    | with_reducible assumption | ((with_reducible refine Within.sub hw ?_); decide)
    | (fail_if_no_progress extract_lets -underBinder -merge -useContext +onlyGivenNames z
       first
       | (refine keeps_cut (s := z) ?_ ?_; (on_goal 1 => unfold z); on_goal 2 => (intro _; try clear_value z))
       | try clear_value z)
    | with_reducible apply keeps_ite | with_reducible apply keeps_ite_snd | split
    | ((with_reducible refine State.keeps_mk hw (by assumption) rfl ?_)
       intro p; cases p <;> (first | exact .inl (by decide) | exact .inr rfl))
    | (intro _; intros; try beta_reduce))

theorem State.modLoops_keeps {pts : List Part} (hw : Within [.loops] pts) {bef : State} {s : State} (c : Nat) (f : LoopCore →
    LoopCore) (h : bef.Keeps pts s) : bef.Keeps pts (State.modLoops s c f) := by
  unfold State.modLoops
  repeat' (first
    | with_reducible assumption | ((with_reducible refine Within.sub hw ?_); decide)
    | (fail_if_no_progress extract_lets -underBinder -merge -useContext +onlyGivenNames z
       first
       | (refine keeps_cut (s := z) ?_ ?_; (on_goal 1 => unfold z); on_goal 2 => (intro _; try clear_value z))
       | try clear_value z)
    | with_reducible apply keeps_ite | with_reducible apply keeps_ite_snd | split
    | ((with_reducible refine State.keeps_mk hw (by assumption) rfl ?_)
       intro p; cases p <;> (first | exact .inl (by decide) | exact .inr rfl))
    | (intro _; intros; try beta_reduce))

theorem State.modConv_keeps {pts : List Part} (hw : Within [.convs] pts) {bef : State} {s : State} (c : Nat) (f : Converters
    → Converters) (h : bef.Keeps pts s) : bef.Keeps pts (State.modConv s c f) := by
  unfold State.modConv
  repeat' (first
    | with_reducible assumption | ((with_reducible refine Within.sub hw ?_); decide)
    | (fail_if_no_progress extract_lets -underBinder -merge -useContext +onlyGivenNames z
       first
       | (refine keeps_cut (s := z) ?_ ?_; (on_goal 1 => unfold z); on_goal 2 => (intro _; try clear_value z))
       | try clear_value z)
    | with_reducible apply keeps_ite | with_reducible apply keeps_ite_snd | split
    | ((with_reducible refine State.keeps_mk hw (by assumption) rfl ?_)
       intro p; cases p <;> (first | exact .inl (by decide) | exact .inr rfl))
    | (intro _; intros; try beta_reduce))

theorem State.modZone_keeps {pts : List Part} (hw : Within [.zones] pts) {bef : State} {s : State} (z : Nat) (f : Zone →
    Zone) (h : bef.Keeps pts s) : bef.Keeps pts (State.modZone s z f) := by
  unfold State.modZone
  repeat' (first
    | with_reducible assumption | ((with_reducible refine Within.sub hw ?_); decide)
    | (fail_if_no_progress extract_lets -underBinder -merge -useContext +onlyGivenNames z
       first
       | (refine keeps_cut (s := z) ?_ ?_; (on_goal 1 => unfold z); on_goal 2 => (intro _; try clear_value z))
       | try clear_value z)
    | with_reducible apply keeps_ite | with_reducible apply keeps_ite_snd | split
    | ((with_reducible refine State.keeps_mk hw (by assumption) rfl ?_)
       intro p; cases p <;> (first | exact .inl (by decide) | exact .inr rfl))
    | (intro _; intros; try beta_reduce))

theorem State.modCart_keeps {pts : List Part} (hw : Within [.cartridges] pts) {bef : State} {s : State} (l : Nat) (f :
    Cartridge → Cartridge) (h : bef.Keeps pts s) : bef.Keeps pts (State.modCart s l f) := by
  unfold State.modCart
  repeat' (first
    | with_reducible assumption | ((with_reducible refine Within.sub hw ?_); decide)
    | (fail_if_no_progress extract_lets -underBinder -merge -useContext +onlyGivenNames z
       first
       | (refine keeps_cut (s := z) ?_ ?_; (on_goal 1 => unfold z); on_goal 2 => (intro _; try clear_value z))
       | try clear_value z)
    | with_reducible apply keeps_ite | with_reducible apply keeps_ite_snd | split
    | ((with_reducible refine State.keeps_mk hw (by assumption) rfl ?_)
       intro p; cases p <;> (first | exact .inl (by decide) | exact .inr rfl))
    | (intro _; intros; try beta_reduce))

theorem State.setVal_keeps {pts : List Part} (hw : Within [.od] pts) {bef : State} {s : State} (index : Nat) (sub : Nat) (v :
    Nat) (h : bef.Keeps pts s) : bef.Keeps pts (State.setVal s index sub v) := by
  unfold State.setVal
  repeat' (first
    | with_reducible assumption | ((with_reducible refine Within.sub hw ?_); decide)
    | (fail_if_no_progress extract_lets -underBinder -merge -useContext +onlyGivenNames z
       first
       | (refine keeps_cut (s := z) ?_ ?_; (on_goal 1 => unfold z); on_goal 2 => (intro _; try clear_value z))
       | try clear_value z)
    | with_reducible apply keeps_ite | with_reducible apply keeps_ite_snd | split
    | ((with_reducible refine State.keeps_mk hw (by assumption) rfl ?_)
       intro p; cases p <;> (first | exact .inl (by decide) | exact .inr rfl))
    | (intro _; intros; try beta_reduce))

theorem State.bump_keeps {pts : List Part} (hw : Within [.od] pts) {bef : State} {s : State} (index : Nat) (sub : Nat) (n :
    Nat) (h : bef.Keeps pts s) :
    bef.Keeps pts (State.bump s index sub n) := by
  unfold State.bump
  split
  · exact h
  · generalize odRow index sub = r
    cases r with
    | none => exact h
    | some r => exact State.setVal_keeps (hw.sub (by decide)) _ _ _ h

theorem State.raiseTo_keeps {pts : List Part} (hw : Within [.od] pts) {bef : State} {s : State} (index : Nat) (sub : Nat) (v
    : Nat) (h : bef.Keeps pts s) : bef.Keeps pts (State.raiseTo s index sub v) := by
  unfold State.raiseTo
  repeat' (first
    | with_reducible assumption | ((with_reducible refine Within.sub hw ?_); decide)
    | with_reducible apply State.setVal_keeps | with_reducible apply keeps_ite | with_reducible apply keeps_ite_snd | split
    | (intro _; intros; try beta_reduce))

end Sys2Proof.Machine
end

