-- ==== Sys2Proof/Laws/KeepsFlags.lean ====
section
/-! SUPPORT. What the operations of Machine/Flags.lean keep. -/

namespace Sys2Proof.Machine

theorem State.signalVector_keeps {pts : List Part} (hw : Within [.hosts] pts) {bef : State} {s : State} (p : Nat) (v : Nat)
    (h : bef.Keeps pts s) : bef.Keeps pts (State.signalVector s p v) := by
  unfold State.signalVector
  repeat' (first
    | with_reducible assumption | ((with_reducible refine Within.sub hw ?_); decide)
    | (fail_if_no_progress extract_lets -underBinder -merge -useContext +onlyGivenNames z
       first
       | (refine keeps_cut (s := z) ?_ ?_; (on_goal 1 => unfold z); on_goal 2 => (intro _; try clear_value z))
       | try clear_value z)
    | with_reducible apply State.modHost_keeps | with_reducible apply keeps_ite | with_reducible apply keeps_ite_snd | split
    | ((with_reducible refine State.keeps_mk hw (by assumption) rfl ?_)
       intro p; cases p <;> (first | exact .inl (by decide) | exact .inr rfl))
    | (intro _; intros; try beta_reduce))

theorem State.signalEvents_keeps {pts : List Part} (hw : Within [.hosts] pts) {bef : State} {s : State} (p : Nat) (h :
    bef.Keeps pts s) : bef.Keeps pts (State.signalEvents s p) := by
  unfold State.signalEvents
  repeat' (first
    | with_reducible assumption | ((with_reducible refine Within.sub hw ?_); decide)
    | (fail_if_no_progress extract_lets -underBinder -merge -useContext +onlyGivenNames z
       first
       | (refine keeps_cut (s := z) ?_ ?_; (on_goal 1 => unfold z); on_goal 2 => (intro _; try clear_value z))
       | try clear_value z)
    | with_reducible apply State.signalVector_keeps | with_reducible apply keeps_ite | with_reducible apply keeps_ite_snd
    | split | (intro _; intros; try beta_reduce))

theorem State.drop_keeps {pts : List Part} (hw : Within [.od, .events] pts) {bef : State} {s : State} (k : Nat) (e : Event)
    (h : bef.Keeps pts s) : bef.Keeps pts (State.drop s k e) := by
  unfold State.drop
  repeat' (first
    | with_reducible assumption | ((with_reducible refine Within.sub hw ?_); decide)
    | (fail_if_no_progress extract_lets -underBinder -merge -useContext +onlyGivenNames z
       first
       | (refine keeps_cut (s := z) ?_ ?_; (on_goal 1 => unfold z); on_goal 2 => (intro _; try clear_value z))
       | (refine keeps_cut (s := z.2) ?_ ?_; (on_goal 1 => unfold z); on_goal 2 => (intro _; try clear_value z))
       | (refine keeps_cut (s := z.1) ?_ ?_; (on_goal 1 => unfold z); on_goal 2 => (intro _; try clear_value z))
       | (refine keeps_cut (s := z.2.1) ?_ ?_; (on_goal 1 => unfold z); on_goal 2 => (intro _; try clear_value z))
       | try clear_value z)
    | with_reducible apply State.bump_keeps | with_reducible apply State.setVal_keeps | with_reducible apply keeps_ite
    | with_reducible apply keeps_ite_snd | split
    | ((with_reducible refine State.keeps_mk hw (by assumption) rfl ?_)
       intro p; cases p <;> (first | exact .inl (by decide) | exact .inr rfl))
    | with_reducible refine keeps_of_fst (by with_reducible assumption) ?_
    | with_reducible refine keeps_of_snd (by with_reducible assumption) ?_ | (intro _; intros; try beta_reduce))

theorem State.offer_keeps {pts : List Part} (hw : Within [.od, .hosts, .events] pts) {bef : State} {s : State} (k : Nat) (e :
    Event) (h : bef.Keeps pts s) : bef.Keeps pts (State.offer s k e) := by
  unfold State.offer
  repeat' (first
    | with_reducible assumption | ((with_reducible refine Within.sub hw ?_); decide)
    | (fail_if_no_progress extract_lets -underBinder -merge -useContext +onlyGivenNames z
       first
       | (refine keeps_cut (s := z) ?_ ?_; (on_goal 1 => unfold z); on_goal 2 => (intro _; try clear_value z))
       | (refine keeps_cut (s := z.2) ?_ ?_; (on_goal 1 => unfold z); on_goal 2 => (intro _; try clear_value z))
       | (refine keeps_cut (s := z.1) ?_ ?_; (on_goal 1 => unfold z); on_goal 2 => (intro _; try clear_value z))
       | (refine keeps_cut (s := z.2.1) ?_ ?_; (on_goal 1 => unfold z); on_goal 2 => (intro _; try clear_value z))
       | try clear_value z)
    | with_reducible apply State.drop_keeps | with_reducible apply State.signalEvents_keeps | with_reducible apply keeps_ite
    | with_reducible apply keeps_ite_snd | split
    | ((with_reducible refine State.keeps_mk hw (by assumption) rfl ?_)
       intro p; cases p <;> (first | exact .inl (by decide) | exact .inr rfl))
    | (intro _; intros; try beta_reduce))

theorem State.emitRecord_keeps {pts : List Part} (hw : Within [.od, .hosts, .events] pts) {bef : State} {s : State} (code :
    Nat) (sev : Nat) (source : Nat) (detail : Nat) (clear : Bool) (sinks : List Nat) (h : bef.Keeps pts s) : bef.Keeps pts
    (State.emitRecord s code sev source detail clear sinks) := by
  unfold State.emitRecord
  repeat' (first
    | with_reducible assumption | ((with_reducible refine Within.sub hw ?_); decide)
    | (fail_if_no_progress extract_lets -underBinder -merge -useContext +onlyGivenNames z
       first
       | (refine keeps_cut (s := z) ?_ ?_; (on_goal 1 => unfold z); on_goal 2 => (intro _; try clear_value z))
       | try clear_value z)
    | with_reducible apply State.offer_keeps | with_reducible apply keeps_foldl | with_reducible apply keeps_ite
    | with_reducible apply keeps_ite_snd | split
    | ((with_reducible refine State.keeps_mk hw (by assumption) rfl ?_)
       intro p; cases p <;> (first | exact .inl (by decide) | exact .inr rfl))
    | (intro _; intros; try beta_reduce))

theorem State.putAlarms_keeps {pts : List Part} (hw : Within [.events] pts) {bef : State} {s : State} (t : List (Nat ×
    Alarm)) (h : bef.Keeps pts s) : bef.Keeps pts (State.putAlarms s t) := by
  unfold State.putAlarms
  repeat' (first
    | with_reducible assumption | ((with_reducible refine Within.sub hw ?_); decide)
    | (fail_if_no_progress extract_lets -underBinder -merge -useContext +onlyGivenNames z
       first
       | (refine keeps_cut (s := z) ?_ ?_; (on_goal 1 => unfold z); on_goal 2 => (intro _; try clear_value z))
       | try clear_value z)
    | with_reducible apply keeps_ite | with_reducible apply keeps_ite_snd | split
    | ((with_reducible refine State.keeps_mk hw (by assumption) rfl ?_)
       intro p; cases p <;> (first | exact .inl (by decide) | exact .inr rfl))
    | (intro _; intros; try beta_reduce))

theorem State.raise_keeps {pts : List Part} (hw : Within [.od, .hosts, .events] pts) {bef : State} {s : State} (code : Nat)
    (source : Nat) (detail : Nat) (h : bef.Keeps pts s) : bef.Keeps pts (State.raise s code source detail) := by
  unfold State.raise
  repeat' (first
    | with_reducible assumption | ((with_reducible refine Within.sub hw ?_); decide)
    | (fail_if_no_progress extract_lets -underBinder -merge -useContext +onlyGivenNames z
       first
       | (refine keeps_cut (s := z) ?_ ?_; (on_goal 1 => unfold z); on_goal 2 => (intro _; try clear_value z))
       | (refine keeps_cut (s := z.2) ?_ ?_; (on_goal 1 => unfold z); on_goal 2 => (intro _; try clear_value z))
       | (refine keeps_cut (s := z.1) ?_ ?_; (on_goal 1 => unfold z); on_goal 2 => (intro _; try clear_value z))
       | (refine keeps_cut (s := z.2.1) ?_ ?_; (on_goal 1 => unfold z); on_goal 2 => (intro _; try clear_value z))
       | try clear_value z)
    | with_reducible apply State.putAlarms_keeps | with_reducible apply State.emitRecord_keeps
    | with_reducible apply keeps_ite | with_reducible apply keeps_ite_snd | split | (intro _; intros; try beta_reduce))

theorem State.queueAllClear_keeps {pts : List Part} (hw : Within [.events] pts) {bef : State} {s : State} (h : bef.Keeps pts
    s) : bef.Keeps pts (State.queueAllClear s) := by
  unfold State.queueAllClear
  repeat' (first
    | with_reducible assumption | ((with_reducible refine Within.sub hw ?_); decide)
    | (fail_if_no_progress extract_lets -underBinder -merge -useContext +onlyGivenNames z
       first
       | (refine keeps_cut (s := z) ?_ ?_; (on_goal 1 => unfold z); on_goal 2 => (intro _; try clear_value z))
       | try clear_value z)
    | with_reducible apply keeps_ite | with_reducible apply keeps_ite_snd | split
    | ((with_reducible refine State.keeps_mk hw (by assumption) rfl ?_)
       intro p; cases p <;> (first | exact .inl (by decide) | exact .inr rfl))
    | (intro _; intros; try beta_reduce))

theorem State.clearEntry_keeps {pts : List Part} (hw : Within [.od, .hosts, .events] pts) {bef : State} {s : State} (i : Nat)
    (h : bef.Keeps pts s) : bef.Keeps pts (State.clearEntry s i) := by
  unfold State.clearEntry
  repeat' (first
    | with_reducible assumption | ((with_reducible refine Within.sub hw ?_); decide)
    | (fail_if_no_progress extract_lets -underBinder -merge -useContext +onlyGivenNames z
       first
       | (refine keeps_cut (s := z) ?_ ?_; (on_goal 1 => unfold z); on_goal 2 => (intro _; try clear_value z))
       | try clear_value z)
    | with_reducible apply State.queueAllClear_keeps | with_reducible apply State.putAlarms_keeps
    | with_reducible apply State.emitRecord_keeps | with_reducible apply keeps_ite | with_reducible apply keeps_ite_snd
    | split
    | ((with_reducible refine State.keeps_mk hw (by assumption) rfl ?_)
       intro p; cases p <;> (first | exact .inl (by decide) | exact .inr rfl))
    | (intro _; intros; try beta_reduce))

theorem State.clearSource_keeps {pts : List Part} (hw : Within [.od, .hosts, .events] pts) {bef : State} {s : State} (source
    : Nat) (h : bef.Keeps pts s) : bef.Keeps pts (State.clearSource s source) := by
  unfold State.clearSource
  repeat' (first
    | with_reducible assumption | ((with_reducible refine Within.sub hw ?_); decide)
    | with_reducible apply State.clearEntry_keeps | with_reducible apply keeps_foldl | with_reducible apply keeps_foldl_fst
    | with_reducible apply keeps_foldl_snd | with_reducible apply keeps_foldl_mid | with_reducible apply keeps_ite
    | with_reducible apply keeps_ite_snd | split | (intro _; intros; try beta_reduce))

theorem State.clearAlarm_keeps {pts : List Part} (hw : Within [.od, .hosts, .events] pts) {bef : State} {s : State} (code :
    Nat) (source : Nat) (h : bef.Keeps pts s) : bef.Keeps pts (State.clearAlarm s code source) := by
  unfold State.clearAlarm
  repeat' (first
    | with_reducible assumption | ((with_reducible refine Within.sub hw ?_); decide)
    | with_reducible apply State.clearEntry_keeps | with_reducible apply keeps_foldl | with_reducible apply keeps_foldl_fst
    | with_reducible apply keeps_foldl_snd | with_reducible apply keeps_foldl_mid | with_reducible apply keeps_ite
    | with_reducible apply keeps_ite_snd | split | (intro _; intros; try beta_reduce))

theorem State.applyStaged_keeps {pts : List Part} (hw : Within [.od, .loops, .convs] pts) {bef : State} {s : State} (r : Nat)
    (key : Nat) (v : Nat) (h : bef.Keeps pts s) : bef.Keeps pts (State.applyStaged s r key v) := by
  unfold State.applyStaged
  repeat' (first
    | with_reducible assumption | ((with_reducible refine Within.sub hw ?_); decide)
    | (fail_if_no_progress extract_lets -underBinder -merge -useContext +onlyGivenNames z
       first
       | (refine keeps_cut (s := z) ?_ ?_; (on_goal 1 => unfold z); on_goal 2 => (intro _; try clear_value z))
       | (refine keeps_cut (s := z.2) ?_ ?_; (on_goal 1 => unfold z); on_goal 2 => (intro _; try clear_value z))
       | (refine keeps_cut (s := z.1) ?_ ?_; (on_goal 1 => unfold z); on_goal 2 => (intro _; try clear_value z))
       | (refine keeps_cut (s := z.2.1) ?_ ?_; (on_goal 1 => unfold z); on_goal 2 => (intro _; try clear_value z))
       | try clear_value z)
    | with_reducible apply State.setVal_keeps | with_reducible apply State.modConv_keeps
    | with_reducible apply State.modLoops_keeps | with_reducible apply keeps_ite | with_reducible apply keeps_ite_snd
    | split
    | ((with_reducible refine State.keeps_mk hw (by assumption) rfl ?_)
       intro p; cases p <;> (first | exact .inl (by decide) | exact .inr rfl))
    | (intro _; intros; try beta_reduce))

theorem State.takeLater_keeps {pts : List Part} (hw : Within [.od, .epoch, .loops, .convs] pts) {bef : State} {s : State} (r
    : Nat) (h : bef.Keeps pts s) : bef.Keeps pts (State.takeLater s r) := by
  unfold State.takeLater
  repeat' (first
    | with_reducible assumption | ((with_reducible refine Within.sub hw ?_); decide)
    | (fail_if_no_progress extract_lets -underBinder -merge -useContext +onlyGivenNames z
       first
       | (refine keeps_cut (s := z) ?_ ?_; (on_goal 1 => unfold z); on_goal 2 => (intro _; try clear_value z))
       | (refine keeps_cut (s := z.2) ?_ ?_; (on_goal 1 => unfold z); on_goal 2 => (intro _; try clear_value z))
       | (refine keeps_cut (s := z.1) ?_ ?_; (on_goal 1 => unfold z); on_goal 2 => (intro _; try clear_value z))
       | (refine keeps_cut (s := z.2.1) ?_ ?_; (on_goal 1 => unfold z); on_goal 2 => (intro _; try clear_value z))
       | try clear_value z)
    | with_reducible apply State.applyStaged_keeps | with_reducible apply keeps_foldl | with_reducible apply keeps_foldl_fst
    | with_reducible apply keeps_foldl_snd | with_reducible apply keeps_foldl_mid | with_reducible apply keeps_ite
    | with_reducible apply keeps_ite_snd | split
    | ((with_reducible refine State.keeps_mk hw (by assumption) rfl ?_)
       intro p; cases p <;> (first | exact .inl (by decide) | exact .inr rfl))
    | (intro _; intros; try beta_reduce))

theorem State.setUnit_keeps {pts : List Part} (hw : Within [.od, .units, .epoch, .hosts, .loops, .convs, .events] pts) {bef :
    State} {s : State} (r : Nat) (st : UnitSt) (h : bef.Keeps pts s) : bef.Keeps pts (State.setUnit s r st) := by
  unfold State.setUnit
  repeat' (first
    | with_reducible assumption | ((with_reducible refine Within.sub hw ?_); decide)
    | (fail_if_no_progress extract_lets -underBinder -merge -useContext +onlyGivenNames z
       first
       | (refine keeps_cut (s := z) ?_ ?_; (on_goal 1 => unfold z); on_goal 2 => (intro _; try clear_value z))
       | try clear_value z)
    | with_reducible apply State.takeLater_keeps | with_reducible apply State.clearSource_keeps
    | with_reducible apply State.putUnit_keeps | with_reducible apply keeps_ite | with_reducible apply keeps_ite_snd | split
    | (intro _; intros; try beta_reduce))

theorem State.runTo_keeps {pts : List Part} (hw : Within [.run, .od, .hosts, .events] pts) {bef : State} {s : State} (st :
    RunSt) (h : bef.Keeps pts s) : bef.Keeps pts (State.runTo s st) := by
  unfold State.runTo
  repeat' (first
    | with_reducible assumption | ((with_reducible refine Within.sub hw ?_); decide)
    | (fail_if_no_progress extract_lets -underBinder -merge -useContext +onlyGivenNames z
       first
       | (refine keeps_cut (s := z) ?_ ?_; (on_goal 1 => unfold z); on_goal 2 => (intro _; try clear_value z))
       | try clear_value z)
    | with_reducible apply State.raise_keeps | with_reducible apply State.bump_keeps
    | with_reducible apply State.setVal_keeps | with_reducible apply keeps_ite | with_reducible apply keeps_ite_snd | split
    | ((with_reducible refine State.keeps_mk hw (by assumption) rfl ?_)
       intro p; cases p <;> (first | exact .inl (by decide) | exact .inr rfl))
    | (intro _; intros; try beta_reduce))

end Sys2Proof.Machine
end

