-- ==== Sys2Proof/Laws/KeepsAccess.lean ====
section
/-! SUPPORT. What the operations of Machine/Access.lean keep. -/

namespace Sys2Proof.Machine

theorem State.deny_keeps {pts : List Part} (hw : Within [.od, .hosts, .events] pts) {bef : State} {s : State} (m : Option
    Nat) (addr : Nat) (lacking : Nat) (h : bef.Keeps pts s) : bef.Keeps pts (State.deny s m addr lacking) := by
  unfold State.deny
  repeat' (first
    | with_reducible assumption | ((with_reducible refine Within.sub hw ?_); decide)
    | (fail_if_no_progress extract_lets -underBinder -merge -useContext +onlyGivenNames z
       first
       | (refine keeps_cut (s := z) ?_ ?_; (on_goal 1 => unfold z); on_goal 2 => (intro _; try clear_value z))
       | try clear_value z)
    | with_reducible apply State.raise_keeps | with_reducible apply State.bump_keeps
    | with_reducible apply State.setVal_keeps | with_reducible apply keeps_ite | with_reducible apply keeps_ite_snd | split
    | (intro _; intros; try beta_reduce))

theorem State.denyEntry_keeps {pts : List Part} (hw : Within [.od, .hosts, .events] pts) {bef : State} {s : State} (m :
    Option Nat) (index : Nat) (sub : Nat) (bit : Nat) (h : bef.Keeps pts s) : bef.Keeps pts (State.denyEntry s m index sub
    bit) := by
  unfold State.denyEntry
  repeat' (first
    | with_reducible assumption | ((with_reducible refine Within.sub hw ?_); decide) | with_reducible apply State.deny_keeps
    | with_reducible apply keeps_ite | with_reducible apply keeps_ite_snd | split | (intro _; intros; try beta_reduce))

theorem State.denyUnknown_keeps {pts : List Part} (hw : Within [.od, .hosts, .events] pts) {bef : State} {s : State} (addr :
    Nat) (bit : Nat) (h : bef.Keeps pts s) : bef.Keeps pts (State.denyUnknown s addr bit) := by
  unfold State.denyUnknown
  repeat' (first
    | with_reducible assumption | ((with_reducible refine Within.sub hw ?_); decide) | with_reducible apply State.deny_keeps
    | with_reducible apply State.bump_keeps | with_reducible apply keeps_ite | with_reducible apply keeps_ite_snd | split
    | (intro _; intros; try beta_reduce))

end Sys2Proof.Machine
end

