-- ==== Sys2Proof/Laws/KeepsOperands.lean ====
section
/-! SUPPORT. What the operations of Machine/Operands.lean keep. -/

namespace Sys2Proof.Machine

theorem State.accessDenied_keeps {pts : List Part} (hw : Within [.od, .hosts, .events] pts) {bef : State} {s : State} (m :
    Nat) (addr : Nat) (lacking : Nat) (h : bef.Keeps pts s) : bef.Keeps pts (State.accessDenied s m addr lacking).2 := by
  unfold State.accessDenied
  repeat' (first
    | with_reducible assumption | ((with_reducible refine Within.sub hw ?_); decide) | with_reducible apply State.deny_keeps
    | with_reducible apply keeps_ite | with_reducible apply keeps_ite_snd | split | (intro _; intros; try beta_reduce))

theorem State.access_keeps {pts : List Part} (hw : Within [.od, .hosts, .events] pts) {bef : State} {s : State} (j : Nat) (a
    : Nat) (n : Nat) (bit : Nat) (h : bef.Keeps pts s) : bef.Keeps pts (State.access s j a n bit).2 := by
  unfold State.access
  repeat' (first
    | with_reducible assumption | ((with_reducible refine Within.sub hw ?_); decide)
    | (fail_if_no_progress extract_lets -underBinder -merge -useContext +onlyGivenNames z
       first
       | (refine keeps_cut (s := z) ?_ ?_; (on_goal 1 => unfold z); on_goal 2 => (intro _; try clear_value z))
       | try clear_value z)
    | with_reducible apply State.accessDenied_keeps | with_reducible apply keeps_ite | with_reducible apply keeps_ite_snd
    | split
    | ((with_reducible refine State.keeps_mk hw (by assumption) rfl ?_)
       intro p; cases p <;> (first | exact .inl (by decide) | exact .inr rfl))
    | (intro _; intros; try beta_reduce))

theorem State.accessAll_keeps {pts : List Part} (hw : Within [.od, .hosts, .events] pts) {bef : State} {s : State} (j : Nat)
    (bit : Nat) (l : List (Nat × Nat)) (h : bef.Keeps pts s) :
    bef.Keeps pts (State.accessAll s j bit l).2 := by
  induction l generalizing s with
  | nil => exact h
  | cons r t ih =>
    simp only [State.accessAll]
    split
    · exact ih (State.access_keeps (hw.sub (by decide)) _ _ _ _ h)
    · exact State.access_keeps (hw.sub (by decide)) _ _ _ _ h

theorem State.writeAll_keeps {pts : List Part} (hw : Within [.od, .mem, .hosts, .events] pts) {bef : State} {s : State} (j :
    Nat) (l : List (Nat × List Byte)) (h : bef.Keeps pts s) :
    bef.Keeps pts (State.writeAll s j l).2 := by
  induction l generalizing s with
  | nil => exact h
  | cons w t ih =>
    simp only [State.writeAll]
    split
    · exact ih (State.keeps_mem hw (State.access_keeps (hw.sub (by decide)) _ _ _ _ h) rfl (by intro p; cases p <;> first | exact .inl (by decide) | exact .inr rfl) (fun w => Mem.write_wf _ _ _ w))
    · exact State.access_keeps (hw.sub (by decide)) _ _ _ _ h

theorem State.countTally_keeps {pts : List Part} (hw : Within [.od, .free] pts) {bef : State} {s : State} (c : Nat) (satSub :
    Nat) (nanSub : Nat) (t : Tally) (h : bef.Keeps pts s) : bef.Keeps pts (State.countTally s c satSub nanSub t) := by
  unfold State.countTally
  repeat' (first
    | with_reducible assumption | ((with_reducible refine Within.sub hw ?_); decide)
    | (fail_if_no_progress extract_lets -underBinder -merge -useContext +onlyGivenNames z
       first
       | (refine keeps_cut (s := z) ?_ ?_; (on_goal 1 => unfold z); on_goal 2 => (intro _; try clear_value z))
       | try clear_value z)
    | with_reducible apply State.bump_keeps | with_reducible apply keeps_ite | with_reducible apply keeps_ite_snd | split
    | ((with_reducible refine State.keeps_mk hw (by assumption) rfl ?_)
       intro p; cases p <;> (first | exact .inl (by decide) | exact .inr rfl))
    | (intro _; intros; try beta_reduce))

end Sys2Proof.Machine
end

