-- ==== Sys2Proof/Laws/KeepsPasses.lean ====
section
/-! SUPPORT. What the operations of Machine/Passes.lean keep. -/

namespace Sys2Proof.Machine

theorem State.countAlign_keeps {pts : List Part} (hw : Within [.od] pts) {bef : State} {s : State} (c : Nat) (e : Nat) (a :
    AlignCount) (h : bef.Keeps pts s) : bef.Keeps pts (State.countAlign s c e a) := by
  unfold State.countAlign
  repeat' (first
    | with_reducible assumption | ((with_reducible refine Within.sub hw ?_); decide) | with_reducible apply State.bump_keeps
    | with_reducible apply keeps_ite | with_reducible apply keeps_ite_snd | split | (intro _; intros; try beta_reduce))

theorem State.inputRow_keeps {pts : List Part} (hw : Within [.od, .hosts, .events] pts) {bef : State} {s : State} (c : Nat)
    (o : Op) (r : Nat) (h : bef.Keeps pts s) : bef.Keeps pts (State.inputRow s c o r).2.1 := by
  unfold State.inputRow
  repeat' (first
    | with_reducible assumption | ((with_reducible refine Within.sub hw ?_); decide)
    | (fail_if_no_progress extract_lets -underBinder -merge -useContext +onlyGivenNames z
       first
       | (refine keeps_cut (s := z) ?_ ?_; (on_goal 1 => unfold z); on_goal 2 => (intro _; try clear_value z))
       | (refine keeps_cut (s := z.2) ?_ ?_; (on_goal 1 => unfold z); on_goal 2 => (intro _; try clear_value z))
       | (refine keeps_cut (s := z.1) ?_ ?_; (on_goal 1 => unfold z); on_goal 2 => (intro _; try clear_value z))
       | (refine keeps_cut (s := z.2.1) ?_ ?_; (on_goal 1 => unfold z); on_goal 2 => (intro _; try clear_value z))
       | try clear_value z)
    | with_reducible apply State.accessAll_keeps | with_reducible apply State.bump_keeps | with_reducible apply keeps_ite
    | with_reducible apply keeps_ite_snd | split | (intro _; intros; try beta_reduce))

end Sys2Proof.Machine
end

