-- ==== Sys2Proof/Laws/KeepsRings.lean ====
section
/-! SUPPORT. What the operations of Machine/Rings.lean keep. -/

namespace Sys2Proof.Machine

theorem State.modRing_keeps {pts : List Part} (hw : Within [.hosts] pts) {bef : State} {s : State} (p : Nat) (r : Nat) (f :
    Ring → Ring) (h : bef.Keeps pts s) : bef.Keeps pts (State.modRing s p r f) := by
  unfold State.modRing
  repeat' (first
    | with_reducible assumption | ((with_reducible refine Within.sub hw ?_); decide)
    | (fail_if_no_progress extract_lets -underBinder -merge -useContext +onlyGivenNames z
       first
       | (refine keeps_cut (s := z) ?_ ?_; (on_goal 1 => unfold z); on_goal 2 => (intro _; try clear_value z))
       | try clear_value z)
    | with_reducible apply State.modHost_keeps | with_reducible apply keeps_ite | with_reducible apply keeps_ite_snd | split
    | ((with_reducible refine State.keeps_mk hw (by assumption) rfl ?_)
       intro p; cases p <;> (first | exact .inl (by decide) | exact .inr rfl))
    | (intro _; intros; try beta_reduce))

theorem State.writeCompletion_keeps {pts : List Part} (hw : Within [.mem, .hosts] pts) {bef : State} {s : State} (p : Nat) (r
    : Nat) (entry : List Byte) (h : bef.Keeps pts s) : bef.Keeps pts (State.writeCompletion s p r entry) := by
  unfold State.writeCompletion
  repeat' (first
    | with_reducible assumption | ((with_reducible refine Within.sub hw ?_); decide)
    | (fail_if_no_progress extract_lets -underBinder -merge -useContext +onlyGivenNames z
       first
       | (refine keeps_cut (s := z) ?_ ?_; (on_goal 1 => unfold z); on_goal 2 => (intro _; try clear_value z))
       | try clear_value z)
    | with_reducible apply State.modRing_keeps | with_reducible apply State.signalVector_keeps
    | with_reducible apply State.storeBytes_keeps | with_reducible apply keeps_ite | with_reducible apply keeps_ite_snd
    | split
    | ((with_reducible refine State.keeps_mk hw (by assumption) rfl ?_)
       intro p; cases p <;> (first | exact .inl (by decide) | exact .inr rfl))
    | (intro _; intros; try beta_reduce))

theorem State.post_keeps {pts : List Part} (hw : Within [.mem, .hosts] pts) {bef : State} {s : State} (p : Nat) (r : Nat)
    (entry : List Byte) (h : bef.Keeps pts s) : bef.Keeps pts (State.post s p r entry) := by
  unfold State.post
  repeat' (first
    | with_reducible assumption | ((with_reducible refine Within.sub hw ?_); decide)
    | (fail_if_no_progress extract_lets -underBinder -merge -useContext +onlyGivenNames z
       first
       | (refine keeps_cut (s := z) ?_ ?_; (on_goal 1 => unfold z); on_goal 2 => (intro _; try clear_value z))
       | try clear_value z)
    | with_reducible apply State.writeCompletion_keeps | with_reducible apply State.modRing_keeps
    | with_reducible apply keeps_ite | with_reducible apply keeps_ite_snd | split
    | ((with_reducible refine State.keeps_mk hw (by assumption) rfl ?_)
       intro p; cases p <;> (first | exact .inl (by decide) | exact .inr rfl))
    | (intro _; intros; try beta_reduce))

theorem State.sendTo_keeps {pts : List Part} (hw : Within [.out, .od] pts) {bef : State} {s : State} (owner : Nat) (entry :
    List Byte) (h : bef.Keeps pts s) : bef.Keeps pts (State.sendTo s owner entry) := by
  unfold State.sendTo
  repeat' (first
    | with_reducible assumption | ((with_reducible refine Within.sub hw ?_); decide)
    | (fail_if_no_progress extract_lets -underBinder -merge -useContext +onlyGivenNames z
       first
       | (refine keeps_cut (s := z) ?_ ?_; (on_goal 1 => unfold z); on_goal 2 => (intro _; try clear_value z))
       | try clear_value z)
    | with_reducible apply State.bump_keeps | with_reducible apply State.emit_keeps | with_reducible apply keeps_ite
    | with_reducible apply keeps_ite_snd | split
    | ((with_reducible refine State.keeps_mk hw (by assumption) rfl ?_)
       intro p; cases p <;> (first | exact .inl (by decide) | exact .inr rfl))
    | (intro _; intros; try beta_reduce))

theorem State.postTo_keeps {pts : List Part} (hw : Within [.out, .od, .mem, .hosts] pts) {bef : State} {s : State} (owner :
    Nat) (ring : Option (Nat × Nat)) (entry : List Byte) (h : bef.Keeps pts s) : bef.Keeps pts (State.postTo s owner ring
    entry) := by
  unfold State.postTo
  repeat' (first
    | with_reducible assumption | ((with_reducible refine Within.sub hw ?_); decide)
    | (fail_if_no_progress extract_lets -underBinder -merge -useContext +onlyGivenNames z
       first
       | (refine keeps_cut (s := z) ?_ ?_; (on_goal 1 => unfold z); on_goal 2 => (intro _; try clear_value z))
       | try clear_value z)
    | with_reducible apply State.sendTo_keeps | with_reducible apply State.post_keeps | with_reducible apply keeps_ite
    | with_reducible apply keeps_ite_snd | split
    | ((with_reducible refine State.keeps_mk hw (by assumption) rfl ?_)
       intro p; cases p <;> (first | exact .inl (by decide) | exact .inr rfl))
    | (intro _; intros; try beta_reduce))

theorem State.done_keeps {pts : List Part} (hw : Within [.out, .od, .mem, .hosts] pts) {bef : State} {s : State} (owner :
    Nat) (ring : Option (Nat × Nat)) (type : Nat) (status : Nat) (result : Nat) (tag : Nat) (h : bef.Keeps pts s) : bef.Keeps
    pts (State.done s owner ring type status result tag) := by
  unfold State.done
  repeat' (first
    | with_reducible assumption | ((with_reducible refine Within.sub hw ?_); decide)
    | with_reducible apply State.postTo_keeps | with_reducible apply keeps_ite | with_reducible apply keeps_ite_snd | split
    | (intro _; intros; try beta_reduce))

theorem State.doneDenied_keeps {pts : List Part} (hw : Within [.out, .od, .mem, .hosts, .events] pts) {bef : State} {s :
    State} (m : Nat) (ring : Option (Nat × Nat)) (type : Nat) (tag : Nat) (addr : Nat) (lacking : Nat) (h : bef.Keeps pts s)
    : bef.Keeps pts (State.doneDenied s m ring type tag addr lacking) := by
  unfold State.doneDenied
  repeat' (first
    | with_reducible assumption | ((with_reducible refine Within.sub hw ?_); decide) | with_reducible apply State.done_keeps
    | with_reducible apply State.deny_keeps | with_reducible apply keeps_ite | with_reducible apply keeps_ite_snd | split
    | (intro _; intros; try beta_reduce))

theorem State.consume_keeps {pts : List Part} (hw : Within [.od, .hosts, .round] pts) {bef : State} {s : State} (p : Nat) (q
    : Nat) (h : bef.Keeps pts s) : bef.Keeps pts (State.consume s p q) := by
  unfold State.consume
  repeat' (first
    | with_reducible assumption | ((with_reducible refine Within.sub hw ?_); decide)
    | (fail_if_no_progress extract_lets -underBinder -merge -useContext +onlyGivenNames z
       first
       | (refine keeps_cut (s := z) ?_ ?_; (on_goal 1 => unfold z); on_goal 2 => (intro _; try clear_value z))
       | try clear_value z)
    | with_reducible apply State.modRing_keeps | with_reducible apply State.bump_keeps | with_reducible apply keeps_ite
    | with_reducible apply keeps_ite_snd | split
    | ((with_reducible refine State.keeps_mk hw (by assumption) rfl ?_)
       intro p; cases p <;> (first | exact .inl (by decide) | exact .inr rfl))
    | (intro _; intros; try beta_reduce))

theorem State.nextRequest_keeps {pts : List Part} (hw : Within [.out, .od, .mem, .hosts, .round] pts) {bef : State} {s :
    State} (f : Nat) (h : bef.Keeps pts s) :
    bef.Keeps pts (State.nextRequest f s).1 := by
  induction f generalizing s with
  | zero => exact h
  | succ f ih =>
    simp only [State.nextRequest]
    split
    · exact h
    · split
      · exact h
      · exact ih (State.done_keeps (hw.sub (by decide)) _ _ _ _ _ _ (State.consume_keeps (hw.sub (by decide)) _ _ h))

theorem State.takeRequest_keeps {pts : List Part} (hw : Within [.out, .od, .mem, .hosts, .round] pts) {bef : State} {s :
    State} (type : Nat) (h : bef.Keeps pts s) : bef.Keeps pts (State.takeRequest s type).1 := by
  unfold State.takeRequest
  repeat' (first
    | with_reducible assumption | ((with_reducible refine Within.sub hw ?_); decide)
    | (fail_if_no_progress extract_lets -underBinder -merge -useContext +onlyGivenNames z
       first
       | (refine keeps_cut (s := z) ?_ ?_; (on_goal 1 => unfold z); on_goal 2 => (intro _; try clear_value z))
       | (refine keeps_cut (s := z.2) ?_ ?_; (on_goal 1 => unfold z); on_goal 2 => (intro _; try clear_value z))
       | (refine keeps_cut (s := z.1) ?_ ?_; (on_goal 1 => unfold z); on_goal 2 => (intro _; try clear_value z))
       | (refine keeps_cut (s := z.2.1) ?_ ?_; (on_goal 1 => unfold z); on_goal 2 => (intro _; try clear_value z))
       | try clear_value z)
    | with_reducible apply State.nextRequest_keeps | with_reducible apply State.consume_keeps
    | with_reducible apply keeps_ite | with_reducible apply keeps_ite_snd | split
    | ((with_reducible refine State.keeps_mk hw (by assumption) rfl ?_)
       intro p; cases p <;> (first | exact .inl (by decide) | exact .inr rfl))
    | with_reducible refine keeps_of_fst (by with_reducible assumption) ?_
    | with_reducible refine keeps_of_snd (by with_reducible assumption) ?_ | (intro _; intros; try beta_reduce))

theorem State.serve_keeps {pts : List Part} (hw : Within [.out, .od, .mem, .hosts, .round] pts) {bef : State} {s : State}
    (type : Nat) (f : Rq → State → State) (h : bef.Keeps pts s) (hf : ∀ y0 y1, bef.Keeps pts y1 → bef.Keeps pts (f y0 y1)) :
    bef.Keeps pts (State.serve s type f) := by
  unfold State.serve
  repeat' (first
    | with_reducible assumption | with_reducible apply hf | ((with_reducible refine Within.sub hw ?_); decide)
    | (fail_if_no_progress extract_lets -underBinder -merge -useContext +onlyGivenNames z
       first
       | (refine keeps_cut (s := z) ?_ ?_; (on_goal 1 => unfold z); on_goal 2 => (intro _; try clear_value z))
       | (refine keeps_cut (s := z.2) ?_ ?_; (on_goal 1 => unfold z); on_goal 2 => (intro _; try clear_value z))
       | (refine keeps_cut (s := z.1) ?_ ?_; (on_goal 1 => unfold z); on_goal 2 => (intro _; try clear_value z))
       | (refine keeps_cut (s := z.2.1) ?_ ?_; (on_goal 1 => unfold z); on_goal 2 => (intro _; try clear_value z))
       | try clear_value z)
    | with_reducible apply State.takeRequest_keeps | with_reducible apply keeps_ite | with_reducible apply keeps_ite_snd
    | split
    | ((with_reducible refine State.keeps_mk hw (by assumption) rfl ?_)
       intro p; cases p <;> (first | exact .inl (by decide) | exact .inr rfl))
    | with_reducible refine keeps_of_fst (by with_reducible assumption) ?_
    | with_reducible refine keeps_of_snd (by with_reducible assumption) ?_ | (intro _; intros; try beta_reduce))

theorem State.answer_keeps {pts : List Part} (hw : Within [.out, .od, .mem, .hosts] pts) {bef : State} {s : State} (r : Rq)
    (status : Nat) (result : Nat) (h : bef.Keeps pts s) : bef.Keeps pts (State.answer s r status result) := by
  unfold State.answer
  repeat' (first
    | with_reducible assumption | ((with_reducible refine Within.sub hw ?_); decide) | with_reducible apply State.done_keeps
    | with_reducible apply keeps_ite | with_reducible apply keeps_ite_snd | split | (intro _; intros; try beta_reduce))

theorem State.answerDenied_keeps {pts : List Part} (hw : Within [.out, .od, .mem, .hosts, .events] pts) {bef : State} {s :
    State} (r : Rq) (addr : Nat) (lacking : Nat) (h : bef.Keeps pts s) : bef.Keeps pts (State.answerDenied s r addr lacking)
    := by
  unfold State.answerDenied
  repeat' (first
    | with_reducible assumption | ((with_reducible refine Within.sub hw ?_); decide)
    | with_reducible apply State.doneDenied_keeps | with_reducible apply keeps_ite | with_reducible apply keeps_ite_snd
    | split | (intro _; intros; try beta_reduce))

theorem State.deliverBare_keeps {pts : List Part} (hw : Within [.out, .od, .mem, .streams, .hosts] pts) {bef : State} {s :
    State} (n : Nat) (owner : Nat) (ring : Option (Nat × Nat)) (entry : List Byte) (h : bef.Keeps pts s) : bef.Keeps pts
    (State.deliverBare s n owner ring entry) := by
  unfold State.deliverBare
  repeat' (first
    | with_reducible assumption | ((with_reducible refine Within.sub hw ?_); decide)
    | (fail_if_no_progress extract_lets -underBinder -merge -useContext +onlyGivenNames z
       first
       | (refine keeps_cut (s := z) ?_ ?_; (on_goal 1 => unfold z); on_goal 2 => (intro _; try clear_value z))
       | try clear_value z)
    | with_reducible apply State.postTo_keeps | with_reducible apply State.modStream_keeps | with_reducible apply keeps_ite
    | with_reducible apply keeps_ite_snd | split
    | ((with_reducible refine State.keeps_mk hw (by assumption) rfl ?_)
       intro p; cases p <;> (first | exact .inl (by decide) | exact .inr rfl))
    | (intro _; intros; try beta_reduce))

theorem State.logged_keeps {pts : List Part} (hw : Within [.out, .od, .mem, .streams, .twin, .hosts] pts) {bef : State} {s :
    State} (n : Nat) (item : LogItem) (owner : Nat) (ring : Option (Nat × Nat)) (entry : List Byte) (h : bef.Keeps pts s) :
    bef.Keeps pts (State.logged s n item owner ring entry) := by
  unfold State.logged
  repeat' (first
    | with_reducible assumption | ((with_reducible refine Within.sub hw ?_); decide)
    | (fail_if_no_progress extract_lets -underBinder -merge -useContext +onlyGivenNames z
       first
       | (refine keeps_cut (s := z) ?_ ?_; (on_goal 1 => unfold z); on_goal 2 => (intro _; try clear_value z))
       | try clear_value z)
    | with_reducible apply State.deliverBare_keeps | with_reducible apply State.emit_keeps | with_reducible apply keeps_ite
    | with_reducible apply keeps_ite_snd | split
    | ((with_reducible refine State.keeps_mk hw (by assumption) rfl ?_)
       intro p; cases p <;> (first | exact .inl (by decide) | exact .inr rfl))
    | (intro _; intros; try beta_reduce))

theorem State.logClosed_keeps {pts : List Part} (hw : Within [.out, .twin] pts) {bef : State} {s : State} (n : Nat) (h :
    bef.Keeps pts s) : bef.Keeps pts (State.logClosed s n) := by
  unfold State.logClosed
  repeat' (first
    | with_reducible assumption | ((with_reducible refine Within.sub hw ?_); decide)
    | (fail_if_no_progress extract_lets -underBinder -merge -useContext +onlyGivenNames z
       first
       | (refine keeps_cut (s := z) ?_ ?_; (on_goal 1 => unfold z); on_goal 2 => (intro _; try clear_value z))
       | try clear_value z)
    | with_reducible apply State.emit_keeps | with_reducible apply keeps_ite | with_reducible apply keeps_ite_snd | split
    | ((with_reducible refine State.keeps_mk hw (by assumption) rfl ?_)
       intro p; cases p <;> (first | exact .inl (by decide) | exact .inr rfl))
    | (intro _; intros; try beta_reduce))

end Sys2Proof.Machine
end

