-- ==== Sys2Proof/Laws/KeepsPages.lean ====
section
/-! SUPPORT. What the operations of Machine/Pages.lean keep. -/

namespace Sys2Proof.Machine

theorem State.takeFrame_keeps {pts : List Part} (hw : Within [.mem, .jobs, .free] pts) {bef : State} {s : State} (j : Nat) (k
    : FrameKind) {r : Nat × State}
    (hr : State.takeFrame s j k = some r) (h : bef.Keeps pts s) : bef.Keeps pts r.2 := by
  simp only [State.takeFrame] at hr
  split at hr
  · cases hr
  · split at hr
    · cases hr
    · injection hr with hr
      subst hr
      dsimp only
      split
      · exact State.keeps_mem hw (State.modJob_keeps (hw.sub (by decide)) _ _ (State.takeFree_keeps (hw.sub (by decide)) h)) rfl (by intro p; cases p <;> first | exact .inl (by decide) | exact .inr rfl) (fun w => Mem.clear_wf _ _ _ w)
      · exact State.modJob_keeps (hw.sub (by decide)) _ _ (State.takeFree_keeps (hw.sub (by decide)) h)

theorem State.makePage_keeps {pts : List Part} (hw : Within [.mem, .jobs, .free] pts) {bef : State} {s : State} (j : Nat)
    (block : Nat) (slot : Nat) (d : Nat) {r : State}
    (hr : State.makePage s j block slot d = some r) (h : bef.Keeps pts s) : bef.Keeps pts r := by
  induction d generalizing s slot with
  | zero =>
    simp only [State.makePage] at hr
    split at hr
    · injection hr with hr; subst hr; exact h
    · obtain ⟨x, hx, rfl⟩ := Option.map_eq_some_iff.1 hr
      exact State.keeps_mem hw (State.takeFrame_keeps (hw.sub (by decide)) _ _ hx h) rfl (by intro p; cases p <;> first | exact .inl (by decide) | exact .inr rfl) (fun w => Mem.write_wf _ _ _ w)
  | succ d ih =>
    simp only [State.makePage] at hr
    split at hr
    · exact ih _ hr h
    · split at hr
      · cases hr
      · rename_i hx
        exact ih _ hr (State.keeps_mem hw (State.takeFrame_keeps (hw.sub (by decide)) _ _ hx h) rfl (by intro p; cases p <;> first | exact .inl (by decide) | exact .inr rfl) (fun w => Mem.write_wf _ _ _ w))

theorem State.raiseDepth_keeps {pts : List Part} (hw : Within [.mem, .jobs, .streams, .free] pts) {bef : State} {s : State}
    (j : Nat) (n : Nat) {r : State}
    (hr : State.raiseDepth s j n = some r) (h : bef.Keeps pts s) : bef.Keeps pts r := by
  obtain ⟨x, hx, rfl⟩ := Option.map_eq_some_iff.1 hr
  refine State.modStream_keeps (hw.sub (by decide)) _ _ (keeps_foldl_opt ?_ ?_ x hx)
  · rintro r ⟨⟩
    exact h
  · intro o l ho r hr
    dsimp only at hr
    split at hr
    · cases hr
    · rename_i t
      split at hr
      · injection hr with hr; subst hr; exact ho t rfl
      · split at hr
        · cases hr
        · rename_i hx
          injection hr with hr
          subst hr
          exact State.keeps_mem hw (State.takeFrame_keeps (hw.sub (by decide)) _ _ hx (ho t rfl)) rfl (by intro p; cases p <;> first | exact .inl (by decide) | exact .inr rfl)
            (fun w => Mem.write_wf _ _ _ (Mem.write_wf _ _ _ w))

theorem State.deepen_keeps {pts : List Part} (hw : Within [.mem, .jobs, .streams, .free] pts) {bef : State} {s : State} (j :
    Nat) (n : Nat) (top : Nat) (f : Nat) {r : State}
    (hr : State.deepen s j n top f = some r) (h : bef.Keeps pts s) : bef.Keeps pts r := by
  induction f generalizing s with
  | zero => cases hr; exact h
  | succ f ih =>
    simp only [State.deepen] at hr
    split at hr
    · cases hr; exact h
    · split at hr
      · cases hr
      · rename_i hx
        exact ih hr (State.raiseDepth_keeps (hw.sub (by decide)) _ _ hx h)

theorem State.makePages_keeps {pts : List Part} (hw : Within [.mem, .jobs, .streams, .free] pts) {bef : State} {s : State} (j
    : Nat) (n : Nat) (layer : Nat) (p : Nat) (q : Nat) {r : State}
    (hr : State.makePages s j n layer p q = some r) (h : bef.Keeps pts s) : bef.Keeps pts r := by
  simp only [State.makePages] at hr
  split at hr
  · cases hr
  · rename_i t ht
    have h1 : bef.Keeps pts t := by
      split at ht
      · cases ht; exact h
      · obtain ⟨x, hx, rfl⟩ := Option.map_eq_some_iff.1 ht
        exact State.modStream_keeps (hw.sub (by decide)) _ _ (State.takeFrame_keeps (hw.sub (by decide)) _ _ hx h)
    split at hr
    · cases hr
    · rename_i u hu
      have h2 : bef.Keeps pts u := State.deepen_keeps (hw.sub (by decide)) _ _ _ _ hu h1
      refine keeps_foldl_opt ?_ ?_ r hr
      · rintro r ⟨⟩
        exact h2
      · intro o i ho r hr
        split at hr
        · cases hr
        · exact State.makePage_keeps (hw.sub (by decide)) _ _ _ _ hr (ho _ rfl)

theorem State.recountFrames_keeps {pts : List Part} (hw : Within [.streams] pts) {bef : State} {s : State} (n : Nat) (added :
    Nat) (h : bef.Keeps pts s) : bef.Keeps pts (State.recountFrames s n added) := by
  unfold State.recountFrames
  repeat' (first
    | with_reducible assumption | ((with_reducible refine Within.sub hw ?_); decide)
    | (fail_if_no_progress extract_lets -underBinder -merge -useContext +onlyGivenNames z
       first
       | (refine keeps_cut (s := z) ?_ ?_; (on_goal 1 => unfold z); on_goal 2 => (intro _; try clear_value z))
       | try clear_value z)
    | with_reducible apply State.modStream_keeps | with_reducible apply keeps_ite | with_reducible apply keeps_ite_snd
    | split
    | ((with_reducible refine State.keeps_mk hw (by assumption) rfl ?_)
       intro p; cases p <;> (first | exact .inl (by decide) | exact .inr rfl))
    | (intro _; intros; try beta_reduce))

theorem State.streamTo_keeps {pts : List Part} (hw : Within [.out, .od, .mem, .streams, .hosts] pts) {bef : State} {s :
    State} (n : Nat) (st : StreamSt) (reason : Nat) (h : bef.Keeps pts s) : bef.Keeps pts (State.streamTo s n st reason) := by
  unfold State.streamTo
  repeat' (first
    | with_reducible assumption | ((with_reducible refine Within.sub hw ?_); decide)
    | (fail_if_no_progress extract_lets -underBinder -merge -useContext +onlyGivenNames z
       first
       | (refine keeps_cut (s := z) ?_ ?_; (on_goal 1 => unfold z); on_goal 2 => (intro _; try clear_value z))
       | try clear_value z)
    | with_reducible apply State.postTo_keeps | with_reducible apply State.modStream_keeps | with_reducible apply keeps_ite
    | with_reducible apply keeps_ite_snd | split
    | ((with_reducible refine State.keeps_mk hw (by assumption) rfl ?_)
       intro p; cases p <;> (first | exact .inl (by decide) | exact .inr rfl))
    | (intro _; intros; try beta_reduce))

theorem State.freePages_keeps {pts : List Part} (hw : Within [.jobs, .streams] pts) {bef : State} {s : State} (n : Nat) (h :
    bef.Keeps pts s) : bef.Keeps pts (State.freePages s n) := by
  unfold State.freePages
  repeat' (first
    | with_reducible assumption | ((with_reducible refine Within.sub hw ?_); decide)
    | (fail_if_no_progress extract_lets -underBinder -merge -useContext +onlyGivenNames z
       first
       | (refine keeps_cut (s := z) ?_ ?_; (on_goal 1 => unfold z); on_goal 2 => (intro _; try clear_value z))
       | (refine keeps_cut (s := z.2) ?_ ?_; (on_goal 1 => unfold z); on_goal 2 => (intro _; try clear_value z))
       | (refine keeps_cut (s := z.1) ?_ ?_; (on_goal 1 => unfold z); on_goal 2 => (intro _; try clear_value z))
       | (refine keeps_cut (s := z.2.1) ?_ ?_; (on_goal 1 => unfold z); on_goal 2 => (intro _; try clear_value z))
       | try clear_value z)
    | with_reducible apply State.modStream_keeps | with_reducible apply State.modJob_keeps | with_reducible apply keeps_ite
    | with_reducible apply keeps_ite_snd | split
    | ((with_reducible refine State.keeps_mk hw (by assumption) rfl ?_)
       intro p; cases p <;> (first | exact .inl (by decide) | exact .inr rfl))
    | (intro _; intros; try beta_reduce))

theorem State.freeStream_keeps {pts : List Part} (hw : Within [.streams] pts) {bef : State} {s : State} (n : Nat) (h :
    bef.Keeps pts s) : bef.Keeps pts (State.freeStream s n) := by
  unfold State.freeStream
  repeat' (first
    | with_reducible assumption | ((with_reducible refine Within.sub hw ?_); decide)
    | (fail_if_no_progress extract_lets -underBinder -merge -useContext +onlyGivenNames z
       first
       | (refine keeps_cut (s := z) ?_ ?_; (on_goal 1 => unfold z); on_goal 2 => (intro _; try clear_value z))
       | try clear_value z)
    | with_reducible apply keeps_ite | with_reducible apply keeps_ite_snd | split
    | ((with_reducible refine State.keeps_mk hw (by assumption) rfl ?_)
       intro p; cases p <;> (first | exact .inl (by decide) | exact .inr rfl))
    | (intro _; intros; try beta_reduce))

theorem State.closeNow_keeps {pts : List Part} (hw : Within [.out, .od, .mem, .jobs, .streams, .hosts] pts) {bef : State} {s
    : State} (n : Nat) (h : bef.Keeps pts s) : bef.Keeps pts (State.closeNow s n) := by
  unfold State.closeNow
  repeat' (first
    | with_reducible assumption | ((with_reducible refine Within.sub hw ?_); decide)
    | with_reducible apply State.freeStream_keeps | with_reducible apply State.freePages_keeps
    | with_reducible apply State.streamTo_keeps | with_reducible apply keeps_ite | with_reducible apply keeps_ite_snd
    | split | (intro _; intros; try beta_reduce))

end Sys2Proof.Machine
end

