-- ==== Sys2Proof/Laws/KeepsWork.lean ====
section
/-! SUPPORT. What the operations of Machine/Work.lean keep. -/

namespace Sys2Proof.Machine

theorem State.followJobs_keeps {pts : List Part} (hw : Within [.run, .od, .hosts, .events] pts) {bef : State} {s : State} (h
    : bef.Keeps pts s) : bef.Keeps pts (State.followJobs s) := by
  unfold State.followJobs
  repeat' (first
    | with_reducible assumption | ((with_reducible refine Within.sub hw ?_); decide)
    | with_reducible apply State.runTo_keeps | with_reducible apply keeps_ite | with_reducible apply keeps_ite_snd | split
    | (intro _; intros; try beta_reduce))

theorem State.serveUnits_keeps {pts : List Part} (hw : Within [.units] pts) {bef : State} {s : State} (j : Nat) (on : Bool)
    (h : bef.Keeps pts s) : bef.Keeps pts (State.serveUnits s j on) := by
  unfold State.serveUnits
  repeat' (first
    | with_reducible assumption | ((with_reducible refine Within.sub hw ?_); decide)
    | with_reducible apply State.putUnit_keeps | with_reducible apply keeps_foldl | with_reducible apply keeps_ite
    | with_reducible apply keeps_ite_snd | split | (intro _; intros; try beta_reduce))

theorem State.jobTo_keeps {pts : List Part} (hw : Within [.run, .od, .units, .jobs, .sched, .hosts, .events] pts) {bef :
    State} {s : State} (j : Nat) (st : JobSt) (h : bef.Keeps pts s) : bef.Keeps pts (State.jobTo s j st) := by
  unfold State.jobTo
  repeat' (first
    | with_reducible assumption | ((with_reducible refine Within.sub hw ?_); decide)
    | (fail_if_no_progress extract_lets -underBinder -merge -useContext +onlyGivenNames z
       first
       | (refine keeps_cut (s := z) ?_ ?_; (on_goal 1 => unfold z); on_goal 2 => (intro _; try clear_value z))
       | try clear_value z)
    | with_reducible apply State.serveUnits_keeps | with_reducible apply State.followJobs_keeps
    | with_reducible apply State.modJob_keeps | with_reducible apply keeps_ite | with_reducible apply keeps_ite_snd | split
    | ((with_reducible refine State.keeps_mk hw (by assumption) rfl ?_)
       intro p; cases p <;> (first | exact .inl (by decide) | exact .inr rfl))
    | (intro _; intros; try beta_reduce))

theorem State.faultJob_keeps {pts : List Part} (hw : Within [.out, .run, .od, .units, .mem, .jobs, .streams, .sched, .hosts,
    .events] pts) {bef : State} {s : State} (j : Nat) (h : bef.Keeps pts s) : bef.Keeps pts (State.faultJob s j) := by
  unfold State.faultJob
  repeat' (first
    | with_reducible assumption | ((with_reducible refine Within.sub hw ?_); decide)
    | (fail_if_no_progress extract_lets -underBinder -merge -useContext +onlyGivenNames z
       first
       | (refine keeps_cut (s := z) ?_ ?_; (on_goal 1 => unfold z); on_goal 2 => (intro _; try clear_value z))
       | try clear_value z)
    | with_reducible apply State.jobTo_keeps | with_reducible apply State.streamTo_keeps
    | with_reducible apply State.modStream_keeps | with_reducible apply keeps_foldl | with_reducible apply keeps_ite
    | with_reducible apply keeps_ite_snd | split
    | ((with_reducible refine State.keeps_mk hw (by assumption) rfl ?_)
       intro p; cases p <;> (first | exact .inl (by decide) | exact .inr rfl))
    | (intro _; intros; try beta_reduce))

theorem State.finish_keeps {pts : List Part} (hw : Within [.cores] pts) {bef : State} {s : State} (c : Nat) (n : Nat) (status
    : Nat) (h : bef.Keeps pts s) : bef.Keeps pts (State.finish s c n status) := by
  unfold State.finish
  repeat' (first
    | with_reducible assumption | ((with_reducible refine Within.sub hw ?_); decide)
    | with_reducible apply State.modCore_keeps | with_reducible apply keeps_ite | with_reducible apply keeps_ite_snd | split
    | (intro _; intros; try beta_reduce))

theorem State.part_keeps {pts : List Part} (hw : Within [.cores] pts) {bef : State} {s : State} (c : Nat) (n : Nat) (q : Nat)
    (status : Nat) (h : bef.Keeps pts s) : bef.Keeps pts (State.part s c n q status) := by
  unfold State.part
  repeat' (first
    | with_reducible assumption | ((with_reducible refine Within.sub hw ?_); decide)
    | with_reducible apply State.modCore_keeps | with_reducible apply keeps_ite | with_reducible apply keeps_ite_snd | split
    | (intro _; intros; try beta_reduce))

theorem State.stopStep_keeps {pts : List Part} (hw : Within [.od, .cores, .jobs, .hosts, .events] pts) {bef : State} {s :
    State} (j : Nat) (cls : Nat) (status : Nat) (addr : Nat) (h : bef.Keeps pts s) : bef.Keeps pts (State.stopStep s j cls
    status addr) := by
  unfold State.stopStep
  repeat' (first
    | with_reducible assumption | ((with_reducible refine Within.sub hw ?_); decide)
    | (fail_if_no_progress extract_lets -underBinder -merge -useContext +onlyGivenNames z
       first
       | (refine keeps_cut (s := z) ?_ ?_; (on_goal 1 => unfold z); on_goal 2 => (intro _; try clear_value z))
       | (refine keeps_cut (s := z.2) ?_ ?_; (on_goal 1 => unfold z); on_goal 2 => (intro _; try clear_value z))
       | (refine keeps_cut (s := z.1) ?_ ?_; (on_goal 1 => unfold z); on_goal 2 => (intro _; try clear_value z))
       | (refine keeps_cut (s := z.2.1) ?_ ?_; (on_goal 1 => unfold z); on_goal 2 => (intro _; try clear_value z))
       | try clear_value z)
    | with_reducible apply State.raise_keeps | with_reducible apply State.modJob_keeps
    | with_reducible apply State.modCore_keeps | with_reducible apply keeps_foldl | with_reducible apply keeps_ite
    | with_reducible apply keeps_ite_snd | split
    | ((with_reducible refine State.keeps_mk hw (by assumption) rfl ?_)
       intro p; cases p <;> (first | exact .inl (by decide) | exact .inr rfl))
    | with_reducible refine keeps_of_fst (by with_reducible assumption) ?_
    | with_reducible refine keeps_of_snd (by with_reducible assumption) ?_ | (intro _; intros; try beta_reduce))

theorem State.classAct_keeps {pts : List Part} (hw : Within [.out, .run, .od, .units, .mem, .cores, .jobs, .streams, .sched,
    .hosts, .events] pts) {bef : State} {s : State} (j : Nat) (status : Nat) (addr : Nat) (h : bef.Keeps pts s) : bef.Keeps
    pts (State.classAct s j status addr) := by
  unfold State.classAct
  repeat' (first
    | with_reducible assumption | ((with_reducible refine Within.sub hw ?_); decide)
    | (fail_if_no_progress extract_lets -underBinder -merge -useContext +onlyGivenNames z
       first
       | (refine keeps_cut (s := z) ?_ ?_; (on_goal 1 => unfold z); on_goal 2 => (intro _; try clear_value z))
       | (refine keeps_cut (s := z.2) ?_ ?_; (on_goal 1 => unfold z); on_goal 2 => (intro _; try clear_value z))
       | (refine keeps_cut (s := z.1) ?_ ?_; (on_goal 1 => unfold z); on_goal 2 => (intro _; try clear_value z))
       | (refine keeps_cut (s := z.2.1) ?_ ?_; (on_goal 1 => unfold z); on_goal 2 => (intro _; try clear_value z))
       | try clear_value z)
    | with_reducible apply State.stopStep_keeps | with_reducible apply State.faultJob_keeps
    | with_reducible apply State.streamTo_keeps | with_reducible apply keeps_foldl | with_reducible apply keeps_foldl_fst
    | with_reducible apply keeps_foldl_snd | with_reducible apply keeps_foldl_mid | with_reducible apply keeps_ite
    | with_reducible apply keeps_ite_snd | split
    | ((with_reducible refine State.keeps_mk hw (by assumption) rfl ?_)
       intro p; cases p <;> (first | exact .inl (by decide) | exact .inr rfl))
    | (intro _; intros; try beta_reduce))

theorem State.retire_keeps {pts : List Part} (hw : Within [.out, .run, .od, .units, .mem, .cores, .jobs, .streams, .sched,
    .hosts, .events] pts) {bef : State} {s : State} (c : Nat) (n : Nat) (status : Nat) (h : bef.Keeps pts s) : bef.Keeps pts
    (State.retire s c n status) := by
  unfold State.retire
  repeat' (first
    | with_reducible assumption | ((with_reducible refine Within.sub hw ?_); decide)
    | (fail_if_no_progress extract_lets -underBinder -merge -useContext +onlyGivenNames z
       first
       | (refine keeps_cut (s := z) ?_ ?_; (on_goal 1 => unfold z); on_goal 2 => (intro _; try clear_value z))
       | try clear_value z)
    | with_reducible apply State.classAct_keeps | with_reducible apply State.part_keeps
    | with_reducible apply State.bump_keeps | with_reducible apply State.setVal_keeps
    | with_reducible apply State.modJob_keeps | with_reducible apply State.modCore_keeps | with_reducible apply keeps_ite
    | with_reducible apply keeps_ite_snd | split
    | ((with_reducible refine State.keeps_mk hw (by assumption) rfl ?_)
       intro p; cases p <;> (first | exact .inl (by decide) | exact .inr rfl))
    | (intro _; intros; try beta_reduce))

end Sys2Proof.Machine
end

