-- ==== Sys2Proof/Laws/KeepsAligner.lean ====
section
/-! SUPPORT. What the operations of Machine/Aligner.lean keep. -/

namespace Sys2Proof.Machine

theorem State.alignNext_keeps {pts : List Part} (hw : Within [.od, .cores, .engines, .hosts, .events] pts) {bef : State} {s :
    State} (c : Nat) (h : bef.Keeps pts s) : bef.Keeps pts (State.alignNext s c) := by
  unfold State.alignNext
  repeat' (first
    | with_reducible assumption | ((with_reducible refine Within.sub hw ?_); decide)
    | (fail_if_no_progress extract_lets -underBinder -merge -useContext +onlyGivenNames z
       first
       | (refine keeps_cut (s := z) ?_ ?_; (on_goal 1 => unfold z); on_goal 2 => (intro _; try clear_value z))
       | (refine keeps_cut (s := z.2) ?_ ?_; (on_goal 1 => unfold z); on_goal 2 => (intro _; try clear_value z))
       | (refine keeps_cut (s := z.1) ?_ ?_; (on_goal 1 => unfold z); on_goal 2 => (intro _; try clear_value z))
       | (refine keeps_cut (s := z.2.1) ?_ ?_; (on_goal 1 => unfold z); on_goal 2 => (intro _; try clear_value z))
       | try clear_value z)
    | with_reducible apply State.inputRow_keeps | with_reducible apply State.countAlign_keeps
    | with_reducible apply State.finish_keeps | with_reducible apply State.modEng_keeps
    | with_reducible apply State.modCore_keeps | with_reducible apply keeps_foldl | with_reducible apply keeps_foldl_fst
    | with_reducible apply keeps_foldl_snd | with_reducible apply keeps_foldl_mid | with_reducible apply keeps_ite
    | with_reducible apply keeps_ite_snd | split
    | ((with_reducible refine State.keeps_mk hw (by assumption) rfl ?_)
       intro p; cases p <;> (first | exact .inl (by decide) | exact .inr rfl))
    | (intro _; intros; try beta_reduce))

theorem execAlignerVector_keeps (dt : Nat) (core : Fin 16) (s : State) :
    ∃ t, execAlignerVector dt core s = .next t ∧ (s.elapse dt).Keeps [.od, .cores, .engines, .hosts, .events] t := by
  unfold execAlignerVector
  refine ⟨_, rfl, ?_⟩
  have hw : Within [.od, .cores, .engines, .hosts, .events] [.od, .cores, .engines, .hosts, .events] := fun _ h => h
  have h := State.Keeps.refl [.od, .cores, .engines, .hosts, .events] (s.elapse dt)
  generalize s.elapse dt = bef at h ⊢
  repeat' (first
    | with_reducible assumption | ((with_reducible refine Within.sub hw ?_); decide)
    | (fail_if_no_progress extract_lets -underBinder -merge -useContext +onlyGivenNames z
       first
       | (refine keeps_cut (s := z) ?_ ?_; (on_goal 1 => unfold z); on_goal 2 => (intro _; try clear_value z))
       | try clear_value z)
    | with_reducible apply State.alignNext_keeps | with_reducible apply keeps_ite | with_reducible apply keeps_ite_snd
    | split | (intro _; intros; try beta_reduce))

end Sys2Proof.Machine
end

