-- ==== Sys2Proof/Laws/KeepsFront.lean ====
section
/-! SUPPORT. What the operations of Machine/Front.lean keep. -/

namespace Sys2Proof.Machine

theorem State.writeGate_keeps {pts : List Part} (hw : Within [.od, .hosts, .events] pts) {bef : State} {s : State} (v : Via)
    (index : Nat) (sub : Nat) (data : List Byte) (h : bef.Keeps pts s) : bef.Keeps pts (State.writeGate s v index sub data).2
    := by
  unfold State.writeGate
  repeat' (first
    | with_reducible assumption | ((with_reducible refine Within.sub hw ?_); decide)
    | (fail_if_no_progress extract_lets -underBinder -merge -useContext +onlyGivenNames z
       first
       | (refine keeps_cut (s := z) ?_ ?_; (on_goal 1 => unfold z); on_goal 2 => (intro _; try clear_value z))
       | (refine keeps_cut (s := z.2) ?_ ?_; (on_goal 1 => unfold z); on_goal 2 => (intro _; try clear_value z))
       | (refine keeps_cut (s := z.1) ?_ ?_; (on_goal 1 => unfold z); on_goal 2 => (intro _; try clear_value z))
       | (refine keeps_cut (s := z.2.1) ?_ ?_; (on_goal 1 => unfold z); on_goal 2 => (intro _; try clear_value z))
       | try clear_value z)
    | with_reducible apply State.deny_keeps | with_reducible apply keeps_ite | with_reducible apply keeps_ite_snd | split
    | ((with_reducible refine State.keeps_mk hw (by assumption) rfl ?_)
       intro p; cases p <;> (first | exact .inl (by decide) | exact .inr rfl))
    | with_reducible refine keeps_of_fst (by with_reducible assumption) ?_
    | with_reducible refine keeps_of_snd (by with_reducible assumption) ?_ | (intro _; intros; try beta_reduce))

theorem State.readGate_keeps {pts : List Part} (hw : Within [.od, .hosts, .events] pts) {bef : State} {s : State} (v : Via)
    (index : Nat) (sub : Nat) (h : bef.Keeps pts s) : bef.Keeps pts (State.readGate s v index sub).2 := by
  unfold State.readGate
  repeat' (first
    | with_reducible assumption | ((with_reducible refine Within.sub hw ?_); decide)
    | (fail_if_no_progress extract_lets -underBinder -merge -useContext +onlyGivenNames z
       first
       | (refine keeps_cut (s := z) ?_ ?_; (on_goal 1 => unfold z); on_goal 2 => (intro _; try clear_value z))
       | try clear_value z)
    | with_reducible apply State.deny_keeps | with_reducible apply keeps_ite | with_reducible apply keeps_ite_snd | split
    | ((with_reducible refine State.keeps_mk hw (by assumption) rfl ?_)
       intro p; cases p <;> (first | exact .inl (by decide) | exact .inr rfl))
    | (intro _; intros; try beta_reduce))

theorem State.refuseDirect_keeps {pts : List Part} (hw : Within [.hosts] pts) {bef : State} {s : State} (p : Nat) (index :
    Nat) (sub : Nat) (abort : Nat) (h : bef.Keeps pts s) : bef.Keeps pts (State.refuseDirect s p index sub abort) := by
  unfold State.refuseDirect
  repeat' (first
    | with_reducible assumption | ((with_reducible refine Within.sub hw ?_); decide)
    | (fail_if_no_progress extract_lets -underBinder -merge -useContext +onlyGivenNames z
       first
       | (refine keeps_cut (s := z) ?_ ?_; (on_goal 1 => unfold z); on_goal 2 => (intro _; try clear_value z))
       | try clear_value z)
    | with_reducible apply State.modHost_keeps | with_reducible apply keeps_ite | with_reducible apply keeps_ite_snd | split
    | ((with_reducible refine State.keeps_mk hw (by assumption) rfl ?_)
       intro p; cases p <;> (first | exact .inl (by decide) | exact .inr rfl))
    | (intro _; intros; try beta_reduce))

theorem State.reply_keeps {pts : List Part} (hw : Within [.out, .hosts] pts) {bef : State} {s : State} (v : Via) (index :
    Nat) (sub : Nat) (abort : Nat) (h : bef.Keeps pts s) : bef.Keeps pts (State.reply s v index sub abort) := by
  unfold State.reply
  repeat' (first
    | with_reducible assumption | ((with_reducible refine Within.sub hw ?_); decide)
    | (fail_if_no_progress extract_lets -underBinder -merge -useContext +onlyGivenNames z
       first
       | (refine keeps_cut (s := z) ?_ ?_; (on_goal 1 => unfold z); on_goal 2 => (intro _; try clear_value z))
       | try clear_value z)
    | with_reducible apply State.refuseDirect_keeps | with_reducible apply State.modHost_keeps
    | with_reducible apply State.emit_keeps | with_reducible apply keeps_ite | with_reducible apply keeps_ite_snd | split
    | ((with_reducible refine State.keeps_mk hw (by assumption) rfl ?_)
       intro p; cases p <;> (first | exact .inl (by decide) | exact .inr rfl))
    | (intro _; intros; try beta_reduce))

theorem State.writeVia_keeps {pts : List Part} (hw : Within [.out, .od, .hosts, .events] pts) {bef : State} {s : State} (v :
    Via) (index : Nat) (sub : Nat) (data : List Byte) (act : State → Nat × State) (h : bef.Keeps pts s) (hact : ∀ y0,
    bef.Keeps pts y0 → bef.Keeps pts (act y0).2) : bef.Keeps pts (State.writeVia s v index sub data act) := by
  unfold State.writeVia
  repeat' (first
    | with_reducible assumption | with_reducible apply hact | ((with_reducible refine Within.sub hw ?_); decide)
    | (fail_if_no_progress extract_lets -underBinder -merge -useContext +onlyGivenNames z
       first
       | (refine keeps_cut (s := z) ?_ ?_; (on_goal 1 => unfold z); on_goal 2 => (intro _; try clear_value z))
       | (refine keeps_cut (s := z.2) ?_ ?_; (on_goal 1 => unfold z); on_goal 2 => (intro _; try clear_value z))
       | (refine keeps_cut (s := z.1) ?_ ?_; (on_goal 1 => unfold z); on_goal 2 => (intro _; try clear_value z))
       | (refine keeps_cut (s := z.2.1) ?_ ?_; (on_goal 1 => unfold z); on_goal 2 => (intro _; try clear_value z))
       | try clear_value z)
    | with_reducible apply State.reply_keeps | with_reducible apply State.writeGate_keeps | with_reducible apply keeps_ite
    | with_reducible apply keeps_ite_snd | split | (intro _; intros; try beta_reduce))

theorem State.writeRow_keeps {pts : List Part} (hw : Within [.out, .od, .hosts, .events] pts) {bef : State} {s : State} (road
    : Road) (index : Nat) (sub : Nat) (data : List Byte) (act : State → Nat × State) (h : bef.Keeps pts s) (hact : ∀ y0,
    bef.Keeps pts y0 → bef.Keeps pts (act y0).2) : bef.Keeps pts (State.writeRow s road index sub data act) := by
  unfold State.writeRow
  repeat' (first
    | with_reducible assumption | with_reducible apply hact | ((with_reducible refine Within.sub hw ?_); decide)
    | with_reducible apply State.writeVia_keeps | with_reducible apply keeps_ite | with_reducible apply keeps_ite_snd
    | split | (intro _; intros; try beta_reduce))

theorem accept_keeps {pts : List Part} (hw : Within [] pts) {bef : State} {s : State} (h : bef.Keeps pts s) : bef.Keeps pts
    (accept s).2 := by
  unfold accept
  repeat' (first
    | with_reducible assumption | ((with_reducible refine Within.sub hw ?_); decide) | with_reducible apply keeps_ite
    | with_reducible apply keeps_ite_snd | split | (intro _; intros; try beta_reduce))

theorem refuse_keeps {pts : List Part} (hw : Within [] pts) {bef : State} (abort : Nat) {s : State} (h : bef.Keeps pts s) :
    bef.Keeps pts (refuse abort s).2 := by
  unfold refuse
  repeat' (first
    | with_reducible assumption | ((with_reducible refine Within.sub hw ?_); decide) | with_reducible apply keeps_ite
    | with_reducible apply keeps_ite_snd | split | (intro _; intros; try beta_reduce))

theorem store_keeps {pts : List Part} (hw : Within [.od] pts) {bef : State} (index : Nat) (sub : Nat) (v : Nat) {s : State}
    (h : bef.Keeps pts s) : bef.Keeps pts (store index sub v s).2 := by
  unfold store
  repeat' (first
    | with_reducible assumption | ((with_reducible refine Within.sub hw ?_); decide)
    | with_reducible apply State.setVal_keeps | with_reducible apply keeps_ite | with_reducible apply keeps_ite_snd | split
    | (intro _; intros; try beta_reduce))

end Sys2Proof.Machine
end

