-- ==== Sys2Proof/Laws/KeepsAttest.lean ====
section
/-! SUPPORT. What the operations of Machine/Attest.lean keep. -/

namespace Sys2Proof.Machine

theorem State.signed_keeps {pts : List Part} (hw : Within [.od, .hosts, .security, .events] pts) {bef : State} {s : State} (h
    : bef.Keeps pts s) : bef.Keeps pts (State.signed s) := by
  unfold State.signed
  repeat' (first
    | with_reducible assumption | ((with_reducible refine Within.sub hw ?_); decide)
    | (fail_if_no_progress extract_lets -underBinder -merge -useContext +onlyGivenNames z
       first
       | (refine keeps_cut (s := z) ?_ ?_; (on_goal 1 => unfold z); on_goal 2 => (intro _; try clear_value z))
       | try clear_value z)
    | with_reducible apply State.raise_keeps | with_reducible apply State.setVal_keeps | with_reducible apply keeps_ite
    | with_reducible apply keeps_ite_snd | split
    | ((with_reducible refine State.keeps_mk hw (by assumption) rfl ?_)
       intro p; cases p <;> (first | exact .inl (by decide) | exact .inr rfl))
    | (intro _; intros; try beta_reduce))

theorem State.report_keeps {pts : List Part} (hw : Within [.od, .hosts, .security, .events] pts) {bef : State} {s : State}
    (nonce : List Byte) (h : bef.Keeps pts s) : bef.Keeps pts (State.report s nonce).2.1 := by
  unfold State.report
  repeat' (first
    | with_reducible assumption | ((with_reducible refine Within.sub hw ?_); decide)
    | (fail_if_no_progress extract_lets -underBinder -merge -useContext +onlyGivenNames z
       first
       | (refine keeps_cut (s := z) ?_ ?_; (on_goal 1 => unfold z); on_goal 2 => (intro _; try clear_value z))
       | try clear_value z)
    | with_reducible apply State.signed_keeps | with_reducible apply State.setVal_keeps | with_reducible apply keeps_ite
    | with_reducible apply keeps_ite_snd | split | (intro _; intros; try beta_reduce))

theorem State.nonceAct_keeps {pts : List Part} (hw : Within [.od, .hosts, .security, .events] pts) {bef : State} (nonce :
    List Byte) {s : State} (h : bef.Keeps pts s) : bef.Keeps pts (State.nonceAct nonce s).2 := by
  unfold State.nonceAct
  repeat' (first
    | with_reducible assumption | ((with_reducible refine Within.sub hw ?_); decide)
    | (fail_if_no_progress extract_lets -underBinder -merge -useContext +onlyGivenNames z
       first
       | (refine keeps_cut (s := z) ?_ ?_; (on_goal 1 => unfold z); on_goal 2 => (intro _; try clear_value z))
       | (refine keeps_cut (s := z.2) ?_ ?_; (on_goal 1 => unfold z); on_goal 2 => (intro _; try clear_value z))
       | (refine keeps_cut (s := z.1) ?_ ?_; (on_goal 1 => unfold z); on_goal 2 => (intro _; try clear_value z))
       | (refine keeps_cut (s := z.2.1) ?_ ?_; (on_goal 1 => unfold z); on_goal 2 => (intro _; try clear_value z))
       | try clear_value z)
    | with_reducible apply State.report_keeps | with_reducible apply refuse_keeps | with_reducible apply accept_keeps
    | with_reducible apply keeps_ite | with_reducible apply keeps_ite_snd | split
    | ((with_reducible refine State.keeps_mk hw (by assumption) rfl ?_)
       intro p; cases p <;> (first | exact .inl (by decide) | exact .inr rfl))
    | (intro _; intros; try beta_reduce))

theorem execAttestationNonce_keeps (dt : Nat) (road : Road) (nonce : List Byte) (s : State) :
    ∃ t, execAttestationNonce dt road nonce s = .next t ∧ (s.elapse dt).Keeps [.out, .od, .hosts, .security, .events] t := by
  unfold execAttestationNonce
  refine ⟨_, rfl, ?_⟩
  have hw : Within [.out, .od, .hosts, .security, .events] [.out, .od, .hosts, .security, .events] := fun _ h => h
  have h := State.Keeps.refl [.out, .od, .hosts, .security, .events] (s.elapse dt)
  generalize s.elapse dt = bef at h ⊢
  repeat' (first
    | with_reducible assumption | ((with_reducible refine Within.sub hw ?_); decide)
    | with_reducible apply State.nonceAct_keeps | with_reducible apply State.writeRow_keeps | with_reducible apply keeps_ite
    | with_reducible apply keeps_ite_snd | split | (intro _; intros; try beta_reduce))

theorem State.attestRq_keeps {pts : List Part} (hw : Within [.out, .od, .mem, .hosts, .security, .events] pts) {bef : State}
    (r : Rq) {s : State} (h : bef.Keeps pts s) : bef.Keeps pts (State.attestRq r s) := by
  unfold State.attestRq
  repeat' (first
    | with_reducible assumption | ((with_reducible refine Within.sub hw ?_); decide)
    | (fail_if_no_progress extract_lets -underBinder -merge -useContext +onlyGivenNames z
       first
       | (refine keeps_cut (s := z) ?_ ?_; (on_goal 1 => unfold z); on_goal 2 => (intro _; try clear_value z))
       | (refine keeps_cut (s := z.2) ?_ ?_; (on_goal 1 => unfold z); on_goal 2 => (intro _; try clear_value z))
       | (refine keeps_cut (s := z.1) ?_ ?_; (on_goal 1 => unfold z); on_goal 2 => (intro _; try clear_value z))
       | (refine keeps_cut (s := z.2.1) ?_ ?_; (on_goal 1 => unfold z); on_goal 2 => (intro _; try clear_value z))
       | try clear_value z)
    | with_reducible apply State.report_keeps | with_reducible apply State.answerDenied_keeps
    | with_reducible apply State.answer_keeps | with_reducible apply State.drop_keeps
    | with_reducible apply State.storeBytes_keeps | with_reducible apply keeps_ite | with_reducible apply keeps_ite_snd
    | split
    | ((with_reducible refine State.keeps_mk hw (by assumption) rfl ?_)
       intro p; cases p <;> (first | exact .inl (by decide) | exact .inr rfl))
    | (intro _; intros; try beta_reduce))

theorem execAttest_keeps (dt : Nat) (s : State) :
    ∃ t, execAttest dt s = .next t ∧ (s.elapse dt).Keeps [.out, .od, .mem, .hosts, .round, .security, .events] t := by
  unfold execAttest
  refine ⟨_, rfl, ?_⟩
  have hw : Within [.out, .od, .mem, .hosts, .round, .security, .events] [.out, .od, .mem, .hosts, .round, .security,
      .events] := fun _ h => h
  have h := State.Keeps.refl [.out, .od, .mem, .hosts, .round, .security, .events] (s.elapse dt)
  generalize s.elapse dt = bef at h ⊢
  repeat' (first
    | with_reducible assumption | ((with_reducible refine Within.sub hw ?_); decide)
    | with_reducible apply State.attestRq_keeps | with_reducible apply State.serve_keeps | with_reducible apply keeps_ite
    | with_reducible apply keeps_ite_snd | split | (intro _; intros; try beta_reduce))

end Sys2Proof.Machine
end

