-- ==== Sys2Proof/Laws/KeepsUnits.lean ====
section
/-! SUPPORT. What the operations of Machine/Units.lean keep. -/

namespace Sys2Proof.Machine

theorem State.endPasses_keeps {pts : List Part} (hw : Within [.cores, .engines] pts) {bef : State} {s : State} (c : Nat) (e :
    Nat) (status : Nat) (h : bef.Keeps pts s) : bef.Keeps pts (State.endPasses s c e status) := by
  unfold State.endPasses
  repeat' (first
    | with_reducible assumption | ((with_reducible refine Within.sub hw ?_); decide)
    | (fail_if_no_progress extract_lets -underBinder -merge -useContext +onlyGivenNames z
       first
       | (refine keeps_cut (s := z) ?_ ?_; (on_goal 1 => unfold z); on_goal 2 => (intro _; try clear_value z))
       | try clear_value z)
    | with_reducible apply State.part_keeps | with_reducible apply State.modEng_keeps | with_reducible apply keeps_foldl
    | with_reducible apply keeps_ite | with_reducible apply keeps_ite_snd | split | (intro _; intros; try beta_reduce))

theorem State.abandonWrite_keeps {pts : List Part} (hw : Within [.cores, .engines] pts) {bef : State} {s : State} (c : Nat)
    (e : Nat) (h : bef.Keeps pts s) : bef.Keeps pts (State.abandonWrite s c e) := by
  unfold State.abandonWrite
  repeat' (first
    | with_reducible assumption | ((with_reducible refine Within.sub hw ?_); decide)
    | (fail_if_no_progress extract_lets -underBinder -merge -useContext +onlyGivenNames z
       first
       | (refine keeps_cut (s := z) ?_ ?_; (on_goal 1 => unfold z); on_goal 2 => (intro _; try clear_value z))
       | try clear_value z)
    | with_reducible apply State.part_keeps | with_reducible apply State.modEng_keeps | with_reducible apply keeps_ite
    | with_reducible apply keeps_ite_snd | split
    | ((with_reducible refine State.keeps_mk hw (by assumption) rfl ?_)
       intro p; cases p <;> (first | exact .inl (by decide) | exact .inr rfl))
    | (intro _; intros; try beta_reduce))

theorem State.abandonUsers_keeps {pts : List Part} (hw : Within [.od, .cores, .jobs, .hosts, .events] pts) {bef : State} {s :
    State} (r : Nat) (h : bef.Keeps pts s) : bef.Keeps pts (State.abandonUsers s r) := by
  unfold State.abandonUsers
  repeat' (first
    | with_reducible assumption | ((with_reducible refine Within.sub hw ?_); decide)
    | (fail_if_no_progress extract_lets -underBinder -merge -useContext +onlyGivenNames z
       first
       | (refine keeps_cut (s := z) ?_ ?_; (on_goal 1 => unfold z); on_goal 2 => (intro _; try clear_value z))
       | (refine keeps_cut (s := z.2) ?_ ?_; (on_goal 1 => unfold z); on_goal 2 => (intro _; try clear_value z))
       | (refine keeps_cut (s := z.1) ?_ ?_; (on_goal 1 => unfold z); on_goal 2 => (intro _; try clear_value z))
       | (refine keeps_cut (s := z.2.1) ?_ ?_; (on_goal 1 => unfold z); on_goal 2 => (intro _; try clear_value z))
       | try clear_value z)
    | with_reducible apply State.stopStep_keeps | with_reducible apply keeps_foldl | with_reducible apply keeps_foldl_fst
    | with_reducible apply keeps_foldl_snd | with_reducible apply keeps_foldl_mid | with_reducible apply keeps_ite
    | with_reducible apply keeps_ite_snd | split | (intro _; intros; try beta_reduce))

theorem State.countFault_keeps {pts : List Part} (hw : Within [.units] pts) {bef : State} {s : State} (r : Nat) (h :
    bef.Keeps pts s) : bef.Keeps pts (State.countFault s r) := by
  unfold State.countFault
  repeat' (first
    | with_reducible assumption | ((with_reducible refine Within.sub hw ?_); decide)
    | (fail_if_no_progress extract_lets -underBinder -merge -useContext +onlyGivenNames z
       first
       | (refine keeps_cut (s := z) ?_ ?_; (on_goal 1 => unfold z); on_goal 2 => (intro _; try clear_value z))
       | try clear_value z)
    | with_reducible apply State.modUnit_keeps | with_reducible apply keeps_ite | with_reducible apply keeps_ite_snd | split
    | ((with_reducible refine State.keeps_mk hw (by assumption) rfl ?_)
       intro p; cases p <;> (first | exact .inl (by decide) | exact .inr rfl))
    | (intro _; intros; try beta_reduce))

theorem State.leave_keeps {pts : List Part} (hw : Within [.od, .units, .cores, .engines, .jobs, .hosts, .events] pts) {bef :
    State} {s : State} (r : Nat) (st : UnitSt) (h : bef.Keeps pts s) : bef.Keeps pts (State.leave s r st) := by
  unfold State.leave
  repeat' (first
    | with_reducible assumption | ((with_reducible refine Within.sub hw ?_); decide)
    | (fail_if_no_progress extract_lets -underBinder -merge -useContext +onlyGivenNames z
       first
       | (refine keeps_cut (s := z) ?_ ?_; (on_goal 1 => unfold z); on_goal 2 => (intro _; try clear_value z))
       | try clear_value z)
    | with_reducible apply State.abandonUsers_keeps | with_reducible apply State.abandonWrite_keeps
    | with_reducible apply State.endPasses_keeps | with_reducible apply State.modEng_keeps
    | with_reducible apply State.putUnit_keeps | with_reducible apply keeps_forRange | with_reducible apply keeps_ite
    | with_reducible apply keeps_ite_snd | split
    | ((with_reducible refine State.keeps_mk hw (by assumption) rfl ?_)
       intro p; cases p <;> (first | exact .inl (by decide) | exact .inr rfl))
    | (intro _; intros; try beta_reduce))

theorem State.fence_keeps {pts : List Part} (hw : Within [.od, .units, .cores, .engines, .jobs, .hosts, .events] pts) {bef :
    State} {s : State} (r : Nat) (h : bef.Keeps pts s) : bef.Keeps pts (State.fence s r) := by
  unfold State.fence
  repeat' (first
    | with_reducible assumption | ((with_reducible refine Within.sub hw ?_); decide)
    | (fail_if_no_progress extract_lets -underBinder -merge -useContext +onlyGivenNames z
       first
       | (refine keeps_cut (s := z) ?_ ?_; (on_goal 1 => unfold z); on_goal 2 => (intro _; try clear_value z))
       | try clear_value z)
    | with_reducible apply State.leave_keeps | with_reducible apply State.countFault_keeps
    | with_reducible apply State.modUnit_keeps | with_reducible apply keeps_ite | with_reducible apply keeps_ite_snd | split
    | ((with_reducible refine State.keeps_mk hw (by assumption) rfl ?_)
       intro p; cases p <;> (first | exact .inl (by decide) | exact .inr rfl))
    | (intro _; intros; try beta_reduce))

end Sys2Proof.Machine
end

