-- ==== Sys2Proof/Laws/KeepsCalibration.lean ====
section
/-! SUPPORT. What the operations of Machine/Calibration.lean keep. -/

namespace Sys2Proof.Machine

theorem State.sparesGone_keeps {pts : List Part} (hw : Within [.od, .engines, .hosts, .events] pts) {bef : State} {s : State}
    (c : Nat) (e : Nat) (plane : Nat) (j : Nat) (h : bef.Keeps pts s) : bef.Keeps pts (State.sparesGone s c e plane j) := by
  unfold State.sparesGone
  repeat' (first
    | with_reducible assumption | ((with_reducible refine Within.sub hw ?_); decide)
    | (fail_if_no_progress extract_lets -underBinder -merge -useContext +onlyGivenNames z
       first
       | (refine keeps_cut (s := z) ?_ ?_; (on_goal 1 => unfold z); on_goal 2 => (intro _; try clear_value z))
       | try clear_value z)
    | with_reducible apply State.raise_keeps | with_reducible apply State.modEng_keeps | with_reducible apply keeps_ite
    | with_reducible apply keeps_ite_snd | split
    | ((with_reducible refine State.keeps_mk hw (by assumption) rfl ?_)
       intro p; cases p <;> (first | exact .inl (by decide) | exact .inr rfl))
    | (intro _; intros; try beta_reduce))

theorem State.handToRemap_keeps {pts : List Part} (hw : Within [.od, .engines, .hosts, .events] pts) {bef : State} {s :
    State} (c : Nat) (e : Nat) (plane : Nat) (j : Nat) (bit : Nat) (limit : Nat) (h : bef.Keeps pts s) : bef.Keeps pts
    (State.handToRemap s c e plane j bit limit).1 := by
  unfold State.handToRemap
  repeat' (first
    | with_reducible assumption | ((with_reducible refine Within.sub hw ?_); decide)
    | (fail_if_no_progress extract_lets -underBinder -merge -useContext +onlyGivenNames z
       first
       | (refine keeps_cut (s := z) ?_ ?_; (on_goal 1 => unfold z); on_goal 2 => (intro _; try clear_value z))
       | try clear_value z)
    | with_reducible apply State.sparesGone_keeps | with_reducible apply State.modEng_keeps | with_reducible apply keeps_ite
    | with_reducible apply keeps_ite_snd | split
    | ((with_reducible refine State.keeps_mk hw (by assumption) rfl ?_)
       intro p; cases p <;> (first | exact .inl (by decide) | exact .inr rfl))
    | (intro _; intros; try beta_reduce))

theorem State.calWindow_keeps {pts : List Part} (hw : Within [.out, .od, .mem, .engines, .hosts] pts) {bef : State} {s :
    State} (c : Nat) (e : Nat) (h : bef.Keeps pts s) : bef.Keeps pts (State.calWindow s c e) := by
  unfold State.calWindow
  repeat' (first
    | with_reducible assumption | ((with_reducible refine Within.sub hw ?_); decide)
    | (fail_if_no_progress extract_lets -underBinder -merge -useContext +onlyGivenNames z
       first
       | (refine keeps_cut (s := z) ?_ ?_; (on_goal 1 => unfold z); on_goal 2 => (intro _; try clear_value z))
       | (refine keeps_cut (s := z.2) ?_ ?_; (on_goal 1 => unfold z); on_goal 2 => (intro _; try clear_value z))
       | (refine keeps_cut (s := z.1) ?_ ?_; (on_goal 1 => unfold z); on_goal 2 => (intro _; try clear_value z))
       | (refine keeps_cut (s := z.2.1) ?_ ?_; (on_goal 1 => unfold z); on_goal 2 => (intro _; try clear_value z))
       | try clear_value z)
    | with_reducible apply State.done_keeps | with_reducible apply State.bump_keeps
    | with_reducible apply State.modEng_keeps | with_reducible apply keeps_ite | with_reducible apply keeps_ite_snd | split
    | ((with_reducible refine State.keeps_mk hw (by assumption) rfl ?_)
       intro p; cases p <;> (first | exact .inl (by decide) | exact .inr rfl))
    | with_reducible refine keeps_of_fst (by with_reducible assumption) ?_
    | with_reducible refine keeps_of_snd (by with_reducible assumption) ?_ | (intro _; intros; try beta_reduce))

theorem execCalibrationWindow_keeps (dt : Nat) (core : Fin 16) (eng : Fin 34) (s : State) :
    ∃ t, execCalibrationWindow dt core eng s = .next t ∧ (s.elapse dt).Keeps [.out, .od, .mem, .engines, .hosts] t := by
  unfold execCalibrationWindow
  refine ⟨_, rfl, ?_⟩
  have hw : Within [.out, .od, .mem, .engines, .hosts] [.out, .od, .mem, .engines, .hosts] := fun _ h => h
  have h := State.Keeps.refl [.out, .od, .mem, .engines, .hosts] (s.elapse dt)
  generalize s.elapse dt = bef at h ⊢
  repeat' (first
    | with_reducible assumption | ((with_reducible refine Within.sub hw ?_); decide)
    | with_reducible apply State.calWindow_keeps | with_reducible apply keeps_ite | with_reducible apply keeps_ite_snd
    | split | (intro _; intros; try beta_reduce))

theorem execCoefficientsTakeEffect_keeps (dt : Nat) (core : Fin 16) (eng : Fin 34) (s : State) :
    ∃ t, execCoefficientsTakeEffect dt core eng s = .next t ∧ (s.elapse dt).Keeps [.engines] t := by
  unfold execCoefficientsTakeEffect
  refine ⟨_, rfl, ?_⟩
  have hw : Within [.engines] [.engines] := fun _ h => h
  have h := State.Keeps.refl [.engines] (s.elapse dt)
  generalize s.elapse dt = bef at h ⊢
  repeat' (first
    | with_reducible assumption | ((with_reducible refine Within.sub hw ?_); decide)
    | (fail_if_no_progress extract_lets -underBinder -merge -useContext +onlyGivenNames z
       first
       | (refine keeps_cut (s := z) ?_ ?_; (on_goal 1 => unfold z); on_goal 2 => (intro _; try clear_value z))
       | try clear_value z)
    | with_reducible apply State.modEng_keeps | with_reducible apply keeps_ite | with_reducible apply keeps_ite_snd | split
    | ((with_reducible refine State.keeps_mk hw (by assumption) rfl ?_)
       intro p; cases p <;> (first | exact .inl (by decide) | exact .inr rfl))
    | (intro _; intros; try beta_reduce))

theorem State.compareSums_keeps {pts : List Part} (hw : Within [.od, .engines, .hosts, .events] pts) {bef : State} {s :
    State} (c : Nat) (e : Nat) (plane : Nat) (r : CrossCheck) (h : bef.Keeps pts s) : bef.Keeps pts (State.compareSums s c e
    plane r) := by
  unfold State.compareSums
  repeat' (first
    | with_reducible assumption | ((with_reducible refine Within.sub hw ?_); decide)
    | (fail_if_no_progress extract_lets -underBinder -merge -useContext +onlyGivenNames z
       first
       | (refine keeps_cut (s := z) ?_ ?_; (on_goal 1 => unfold z); on_goal 2 => (intro _; try clear_value z))
       | (refine keeps_cut (s := z.2) ?_ ?_; (on_goal 1 => unfold z); on_goal 2 => (intro _; try clear_value z))
       | (refine keeps_cut (s := z.1) ?_ ?_; (on_goal 1 => unfold z); on_goal 2 => (intro _; try clear_value z))
       | (refine keeps_cut (s := z.2.1) ?_ ?_; (on_goal 1 => unfold z); on_goal 2 => (intro _; try clear_value z))
       | try clear_value z)
    | with_reducible apply State.handToRemap_keeps | with_reducible apply State.raise_keeps
    | with_reducible apply State.bump_keeps | with_reducible apply keeps_foldl | with_reducible apply keeps_foldl_fst
    | with_reducible apply keeps_foldl_snd | with_reducible apply keeps_foldl_mid | with_reducible apply keeps_ite
    | with_reducible apply keeps_ite_snd | split | (intro _; intros; try beta_reduce))

theorem State.compareWaiting_keeps {pts : List Part} (hw : Within [.od, .engines, .twin, .hosts, .events] pts) {bef : State}
    {s : State} (c : Nat) (e : Nat) (plane : Nat) (h : bef.Keeps pts s) : bef.Keeps pts (State.compareWaiting s c e plane) := by
  unfold State.compareWaiting
  repeat' (first
    | with_reducible assumption | ((with_reducible refine Within.sub hw ?_); decide)
    | (fail_if_no_progress extract_lets -underBinder -merge -useContext +onlyGivenNames z
       first
       | (refine keeps_cut (s := z) ?_ ?_; (on_goal 1 => unfold z); on_goal 2 => (intro _; try clear_value z))
       | (refine keeps_cut (s := z.2) ?_ ?_; (on_goal 1 => unfold z); on_goal 2 => (intro _; try clear_value z))
       | (refine keeps_cut (s := z.1) ?_ ?_; (on_goal 1 => unfold z); on_goal 2 => (intro _; try clear_value z))
       | (refine keeps_cut (s := z.2.1) ?_ ?_; (on_goal 1 => unfold z); on_goal 2 => (intro _; try clear_value z))
       | try clear_value z)
    | with_reducible apply State.compareSums_keeps | with_reducible apply keeps_foldl | with_reducible apply keeps_foldl_fst
    | with_reducible apply keeps_foldl_snd | with_reducible apply keeps_foldl_mid | with_reducible apply keeps_ite
    | with_reducible apply keeps_ite_snd | split
    | ((with_reducible refine State.keeps_mk hw (by assumption) rfl ?_)
       intro p; cases p <;> (first | exact .inl (by decide) | exact .inr rfl))
    | (intro _; intros; try beta_reduce))

theorem State.sendSums_keeps {pts : List Part} (hw : Within [.out] pts) {bef : State} {s : State} (c : Nat) (e : Nat) (plane
    : Nat) (bits : Nat) (m : Measured) (h : bef.Keeps pts s) : bef.Keeps pts (State.sendSums s c e plane bits m) := by
  unfold State.sendSums
  repeat' (first
    | with_reducible assumption | ((with_reducible refine Within.sub hw ?_); decide)
    | (fail_if_no_progress extract_lets -underBinder -merge -useContext +onlyGivenNames z
       first
       | (refine keeps_cut (s := z) ?_ ?_; (on_goal 1 => unfold z); on_goal 2 => (intro _; try clear_value z))
       | try clear_value z)
    | with_reducible apply State.emit_keeps | with_reducible apply keeps_ite | with_reducible apply keeps_ite_snd | split
    | ((with_reducible refine State.keeps_mk hw (by assumption) rfl ?_)
       intro p; cases p <;> (first | exact .inl (by decide) | exact .inr rfl))
    | (intro _; intros; try beta_reduce))

theorem State.calDone_keeps {pts : List Part} (hw : Within [.out, .od, .units, .mem, .cores, .engines, .jobs, .twin, .hosts,
    .events] pts) {bef : State} {s : State} (c : Nat) (e : Nat) (measured : Measured) (h : bef.Keeps pts s) : bef.Keeps pts
    (State.calDone s c e measured) := by
  unfold State.calDone
  repeat' (first
    | with_reducible assumption | ((with_reducible refine Within.sub hw ?_); decide)
    | (fail_if_no_progress extract_lets -underBinder -merge -useContext +onlyGivenNames z
       first
       | (refine keeps_cut (s := z) ?_ ?_; (on_goal 1 => unfold z); on_goal 2 => (intro _; try clear_value z))
       | (refine keeps_cut (s := z.2) ?_ ?_; (on_goal 1 => unfold z); on_goal 2 => (intro _; try clear_value z))
       | (refine keeps_cut (s := z.1) ?_ ?_; (on_goal 1 => unfold z); on_goal 2 => (intro _; try clear_value z))
       | (refine keeps_cut (s := z.2.1) ?_ ?_; (on_goal 1 => unfold z); on_goal 2 => (intro _; try clear_value z))
       | try clear_value z)
    | with_reducible apply State.sendSums_keeps | with_reducible apply State.compareWaiting_keeps
    | with_reducible apply State.handToRemap_keeps | with_reducible apply State.fence_keeps
    | with_reducible apply State.done_keeps | with_reducible apply State.raise_keeps | with_reducible apply State.bump_keeps
    | with_reducible apply State.modEng_keeps | with_reducible apply keeps_foldl | with_reducible apply keeps_foldl_fst
    | with_reducible apply keeps_foldl_snd | with_reducible apply keeps_foldl_mid | with_reducible apply keeps_ite
    | with_reducible apply keeps_ite_snd | split
    | ((with_reducible refine State.keeps_mk hw (by assumption) rfl ?_)
       intro p; cases p <;> (first | exact .inl (by decide) | exact .inr rfl))
    | (intro _; intros; try beta_reduce))

theorem execCalibrationComplete_keeps (dt : Nat) (core : Fin 16) (eng : Fin 34) (measured : Measured) (s : State) :
    ∃ t, execCalibrationComplete dt core eng measured s = .next t ∧ (s.elapse dt).Keeps [.out, .od, .units, .mem, .cores,
        .engines, .jobs, .twin, .hosts, .events] t := by
  unfold execCalibrationComplete
  refine ⟨_, rfl, ?_⟩
  have hw : Within [.out, .od, .units, .mem, .cores, .engines, .jobs, .twin, .hosts, .events] [.out, .od, .units, .mem,
      .cores, .engines, .jobs, .twin, .hosts, .events] := fun _ h => h
  have h := State.Keeps.refl [.out, .od, .units, .mem, .cores, .engines, .jobs, .twin, .hosts, .events] (s.elapse dt)
  generalize s.elapse dt = bef at h ⊢
  repeat' (first
    | with_reducible assumption | ((with_reducible refine Within.sub hw ?_); decide)
    | with_reducible apply State.calDone_keeps | with_reducible apply keeps_ite | with_reducible apply keeps_ite_snd | split
    | (intro _; intros; try beta_reduce))

theorem execCalStale_keeps (dt : Nat) (core : Fin 16) (eng : Fin 34) (s : State) :
    ∃ t, execCalStale dt core eng s = .next t ∧ (s.elapse dt).Keeps [.od, .engines, .hosts, .events] t := by
  unfold execCalStale
  refine ⟨_, rfl, ?_⟩
  have hw : Within [.od, .engines, .hosts, .events] [.od, .engines, .hosts, .events] := fun _ h => h
  have h := State.Keeps.refl [.od, .engines, .hosts, .events] (s.elapse dt)
  generalize s.elapse dt = bef at h ⊢
  repeat' (first
    | with_reducible assumption | ((with_reducible refine Within.sub hw ?_); decide)
    | (fail_if_no_progress extract_lets -underBinder -merge -useContext +onlyGivenNames z
       first
       | (refine keeps_cut (s := z) ?_ ?_; (on_goal 1 => unfold z); on_goal 2 => (intro _; try clear_value z))
       | try clear_value z)
    | with_reducible apply State.raise_keeps | with_reducible apply State.modEng_keeps | with_reducible apply keeps_ite
    | with_reducible apply keeps_ite_snd | split
    | ((with_reducible refine State.keeps_mk hw (by assumption) rfl ?_)
       intro p; cases p <;> (first | exact .inl (by decide) | exact .inr rfl))
    | (intro _; intros; try beta_reduce))

end Sys2Proof.Machine
end

