-- ==== Sys2Proof/Laws/KeepsBanks.lean ====
section
/-! SUPPORT. What the operations of Machine/Banks.lean keep. -/

namespace Sys2Proof.Machine

theorem State.progDenied_keeps {pts : List Part} (hw : Within [.od, .cores, .hosts, .events] pts) {bef : State} {s : State}
    (c : Nat) (q : Nat) (n : Nat) (h : bef.Keeps pts s) : bef.Keeps pts (State.progDenied s c q n) := by
  unfold State.progDenied
  repeat' (first
    | with_reducible assumption | ((with_reducible refine Within.sub hw ?_); decide) | with_reducible apply State.part_keeps
    | with_reducible apply State.denyEntry_keeps | with_reducible apply keeps_ite | with_reducible apply keeps_ite_snd
    | split | (intro _; intros; try beta_reduce))

theorem State.standWrite_keeps {pts : List Part} (hw : Within [.od, .cores, .hosts, .events] pts) {bef : State} {s : State}
    (c : Nat) (slot : Nat) (n : Nat) (o : Op) (h : bef.Keeps pts s) : bef.Keeps pts (State.standWrite s c slot n o) := by
  unfold State.standWrite
  repeat' (first
    | with_reducible assumption | ((with_reducible refine Within.sub hw ?_); decide)
    | (fail_if_no_progress extract_lets -underBinder -merge -useContext +onlyGivenNames z
       first
       | (refine keeps_cut (s := z) ?_ ?_; (on_goal 1 => unfold z); on_goal 2 => (intro _; try clear_value z))
       | (refine keeps_cut (s := z.2) ?_ ?_; (on_goal 1 => unfold z); on_goal 2 => (intro _; try clear_value z))
       | (refine keeps_cut (s := z.1) ?_ ?_; (on_goal 1 => unfold z); on_goal 2 => (intro _; try clear_value z))
       | (refine keeps_cut (s := z.2.1) ?_ ?_; (on_goal 1 => unfold z); on_goal 2 => (intro _; try clear_value z))
       | try clear_value z)
    | with_reducible apply State.part_keeps | with_reducible apply State.access_keeps
    | with_reducible apply State.modCore_keeps | with_reducible apply keeps_ite | with_reducible apply keeps_ite_snd | split
    | ((with_reducible refine State.keeps_mk hw (by assumption) rfl ?_)
       intro p; cases p <;> (first | exact .inl (by decide) | exact .inr rfl))
    | (intro _; intros; try beta_reduce))

theorem State.engineWrite_keeps {pts : List Part} (hw : Within [.od, .cores, .engines, .hosts, .events] pts) {bef : State} {s
    : State} (c : Nat) (e : Nat) (n : Nat) (o : Op) (h : bef.Keeps pts s) : bef.Keeps pts (State.engineWrite s c e n o) := by
  unfold State.engineWrite
  repeat' (first
    | with_reducible assumption | ((with_reducible refine Within.sub hw ?_); decide)
    | (fail_if_no_progress extract_lets -underBinder -merge -useContext +onlyGivenNames z
       first
       | (refine keeps_cut (s := z) ?_ ?_; (on_goal 1 => unfold z); on_goal 2 => (intro _; try clear_value z))
       | (refine keeps_cut (s := z.2) ?_ ?_; (on_goal 1 => unfold z); on_goal 2 => (intro _; try clear_value z))
       | (refine keeps_cut (s := z.1) ?_ ?_; (on_goal 1 => unfold z); on_goal 2 => (intro _; try clear_value z))
       | (refine keeps_cut (s := z.2.1) ?_ ?_; (on_goal 1 => unfold z); on_goal 2 => (intro _; try clear_value z))
       | try clear_value z)
    | with_reducible apply State.part_keeps | with_reducible apply State.access_keeps
    | with_reducible apply State.modEng_keeps | with_reducible apply State.modCore_keeps | with_reducible apply keeps_ite
    | with_reducible apply keeps_ite_snd | split
    | ((with_reducible refine State.keeps_mk hw (by assumption) rfl ?_)
       intro p; cases p <;> (first | exact .inl (by decide) | exact .inr rfl))
    | (intro _; intros; try beta_reduce))

theorem State.bankWriteOp_keeps {pts : List Part} (hw : Within [.od, .cores, .engines, .hosts, .events] pts) {bef : State} {s
    : State} (c : Nat) (q : Nat) (h : bef.Keeps pts s) : bef.Keeps pts (State.bankWriteOp s c q) := by
  unfold State.bankWriteOp
  repeat' (first
    | with_reducible assumption | ((with_reducible refine Within.sub hw ?_); decide)
    | (fail_if_no_progress extract_lets -underBinder -merge -useContext +onlyGivenNames z
       first
       | (refine keeps_cut (s := z) ?_ ?_; (on_goal 1 => unfold z); on_goal 2 => (intro _; try clear_value z))
       | try clear_value z)
    | with_reducible apply State.engineWrite_keeps | with_reducible apply State.standWrite_keeps
    | with_reducible apply State.progDenied_keeps | with_reducible apply State.part_keeps | with_reducible apply keeps_ite
    | with_reducible apply keeps_ite_snd | split
    | ((with_reducible refine State.keeps_mk hw (by assumption) rfl ?_)
       intro p; cases p <;> (first | exact .inl (by decide) | exact .inr rfl))
    | (intro _; intros; try beta_reduce))

theorem execBankWrite_keeps (dt : Nat) (core : Fin 16) (queue : Fin 66) (s : State) :
    ∃ t, execBankWrite dt core queue s = .next t ∧ (s.elapse dt).Keeps [.od, .cores, .engines, .hosts, .events] t := by
  unfold execBankWrite
  refine ⟨_, rfl, ?_⟩
  have hw : Within [.od, .cores, .engines, .hosts, .events] [.od, .cores, .engines, .hosts, .events] := fun _ h => h
  have h := State.Keeps.refl [.od, .cores, .engines, .hosts, .events] (s.elapse dt)
  generalize s.elapse dt = bef at h ⊢
  repeat' (first
    | with_reducible assumption | ((with_reducible refine Within.sub hw ?_); decide)
    | with_reducible apply State.bankWriteOp_keeps | with_reducible apply keeps_ite | with_reducible apply keeps_ite_snd
    | split | (intro _; intros; try beta_reduce))

theorem State.writeEnds_keeps {pts : List Part} (hw : Within [.cores, .engines] pts) {bef : State} {s : State} (c : Nat) (e :
    Nat) (w : WriteRun) (status : Nat) (h : bef.Keeps pts s) : bef.Keeps pts (State.writeEnds s c e w status) := by
  unfold State.writeEnds
  repeat' (first
    | with_reducible assumption | ((with_reducible refine Within.sub hw ?_); decide)
    | (fail_if_no_progress extract_lets -underBinder -merge -useContext +onlyGivenNames z
       first
       | (refine keeps_cut (s := z) ?_ ?_; (on_goal 1 => unfold z); on_goal 2 => (intro _; try clear_value z))
       | try clear_value z)
    | with_reducible apply State.part_keeps | with_reducible apply State.modEng_keeps | with_reducible apply keeps_ite
    | with_reducible apply keeps_ite_snd | split
    | ((with_reducible refine State.keeps_mk hw (by assumption) rfl ?_)
       intro p; cases p <;> (first | exact .inl (by decide) | exact .inr rfl))
    | (intro _; intros; try beta_reduce))

theorem State.restoreChanged_keeps {pts : List Part} (hw : Within [.od, .cores, .engines, .hosts, .events] pts) {bef : State}
    {s : State} (c : Nat) (e : Nat) (w : WriteRun) (h : bef.Keeps pts s) : bef.Keeps pts (State.restoreChanged s c e w) := by
  unfold State.restoreChanged
  repeat' (first
    | with_reducible assumption | ((with_reducible refine Within.sub hw ?_); decide)
    | (fail_if_no_progress extract_lets -underBinder -merge -useContext +onlyGivenNames z
       first
       | (refine keeps_cut (s := z) ?_ ?_; (on_goal 1 => unfold z); on_goal 2 => (intro _; try clear_value z))
       | try clear_value z)
    | with_reducible apply State.writeEnds_keeps | with_reducible apply State.raise_keeps
    | with_reducible apply State.modEng_keeps | with_reducible apply keeps_ite | with_reducible apply keeps_ite_snd | split
    | ((with_reducible refine State.keeps_mk hw (by assumption) rfl ?_)
       intro p; cases p <;> (first | exact .inl (by decide) | exact .inr rfl))
    | (intro _; intros; try beta_reduce))

theorem State.writeReset_keeps {pts : List Part} (hw : Within [.od, .cores, .engines, .hosts, .events] pts) {bef : State} {s
    : State} (c : Nat) (e : Nat) (h : bef.Keeps pts s) : bef.Keeps pts (State.writeReset s c e) := by
  unfold State.writeReset
  repeat' (first
    | with_reducible assumption | ((with_reducible refine Within.sub hw ?_); decide)
    | (fail_if_no_progress extract_lets -underBinder -merge -useContext +onlyGivenNames z
       first
       | (refine keeps_cut (s := z) ?_ ?_; (on_goal 1 => unfold z); on_goal 2 => (intro _; try clear_value z))
       | (refine keeps_cut (s := z.2) ?_ ?_; (on_goal 1 => unfold z); on_goal 2 => (intro _; try clear_value z))
       | (refine keeps_cut (s := z.1) ?_ ?_; (on_goal 1 => unfold z); on_goal 2 => (intro _; try clear_value z))
       | (refine keeps_cut (s := z.2.1) ?_ ?_; (on_goal 1 => unfold z); on_goal 2 => (intro _; try clear_value z))
       | try clear_value z)
    | with_reducible apply State.restoreChanged_keeps | with_reducible apply State.writeEnds_keeps
    | with_reducible apply State.access_keeps | with_reducible apply State.raise_keeps
    | with_reducible apply State.modEng_keeps | with_reducible apply keeps_ite | with_reducible apply keeps_ite_snd | split
    | ((with_reducible refine State.keeps_mk hw (by assumption) rfl ?_)
       intro p; cases p <;> (first | exact .inl (by decide) | exact .inr rfl))
    | (intro _; intros; try beta_reduce))

theorem execBankWriteReset_keeps (dt : Nat) (core : Fin 16) (eng : Fin 34) (s : State) :
    ∃ t, execBankWriteReset dt core eng s = .next t ∧ (s.elapse dt).Keeps [.od, .cores, .engines, .hosts, .events] t := by
  unfold execBankWriteReset
  refine ⟨_, rfl, ?_⟩
  have hw : Within [.od, .cores, .engines, .hosts, .events] [.od, .cores, .engines, .hosts, .events] := fun _ h => h
  have h := State.Keeps.refl [.od, .cores, .engines, .hosts, .events] (s.elapse dt)
  generalize s.elapse dt = bef at h ⊢
  repeat' (first
    | with_reducible assumption | ((with_reducible refine Within.sub hw ?_); decide)
    | with_reducible apply State.writeReset_keeps | with_reducible apply keeps_ite | with_reducible apply keeps_ite_snd
    | split | (intro _; intros; try beta_reduce))

theorem State.resetSurvey_keeps {pts : List Part} (hw : Within [.engines] pts) {bef : State} {s : State} (c : Nat) (e : Nat)
    (highest : Nat) (h : bef.Keeps pts s) : bef.Keeps pts (State.resetSurvey s c e highest) := by
  unfold State.resetSurvey
  repeat' (first
    | with_reducible assumption | ((with_reducible refine Within.sub hw ?_); decide)
    | (fail_if_no_progress extract_lets -underBinder -merge -useContext +onlyGivenNames z
       first
       | (refine keeps_cut (s := z) ?_ ?_; (on_goal 1 => unfold z); on_goal 2 => (intro _; try clear_value z))
       | try clear_value z)
    | with_reducible apply State.modEng_keeps | with_reducible apply keeps_ite | with_reducible apply keeps_ite_snd | split
    | ((with_reducible refine State.keeps_mk hw (by assumption) rfl ?_)
       intro p; cases p <;> (first | exact .inl (by decide) | exact .inr rfl))
    | (intro _; intros; try beta_reduce))

theorem execBankResetSurvey_keeps (dt : Nat) (core : Fin 16) (eng : Fin 34) (highest : Nat) (s : State) :
    ∃ t, execBankResetSurvey dt core eng highest s = .next t ∧ (s.elapse dt).Keeps [.engines] t := by
  unfold execBankResetSurvey
  refine ⟨_, rfl, ?_⟩
  have hw : Within [.engines] [.engines] := fun _ h => h
  have h := State.Keeps.refl [.engines] (s.elapse dt)
  generalize s.elapse dt = bef at h ⊢
  repeat' (first
    | with_reducible assumption | ((with_reducible refine Within.sub hw ?_); decide)
    | with_reducible apply State.resetSurvey_keeps | with_reducible apply keeps_ite | with_reducible apply keeps_ite_snd
    | split | (intro _; intros; try beta_reduce))

theorem State.writeVerified_keeps {pts : List Part} (hw : Within [.od, .cores, .engines] pts) {bef : State} {s : State} (c :
    Nat) (e : Nat) (w : WriteRun) (h : bef.Keeps pts s) : bef.Keeps pts (State.writeVerified s c e w) := by
  unfold State.writeVerified
  repeat' (first
    | with_reducible assumption | ((with_reducible refine Within.sub hw ?_); decide)
    | (fail_if_no_progress extract_lets -underBinder -merge -useContext +onlyGivenNames z
       first
       | (refine keeps_cut (s := z) ?_ ?_; (on_goal 1 => unfold z); on_goal 2 => (intro _; try clear_value z))
       | try clear_value z)
    | with_reducible apply State.writeEnds_keeps | with_reducible apply State.setVal_keeps
    | with_reducible apply State.modEng_keeps | with_reducible apply keeps_ite | with_reducible apply keeps_ite_snd | split
    | ((with_reducible refine State.keeps_mk hw (by assumption) rfl ?_)
       intro p; cases p <;> (first | exact .inl (by decide) | exact .inr rfl))
    | (intro _; intros; try beta_reduce))

theorem State.pairDone_keeps {pts : List Part} (hw : Within [.od, .engines, .hosts, .events] pts) {bef : State} {s : State}
    (c : Nat) (e : Nat) (w : WriteRun) (j : Nat) (h : bef.Keeps pts s) : bef.Keeps pts (State.pairDone s c e w j).1 := by
  unfold State.pairDone
  repeat' (first
    | with_reducible assumption | ((with_reducible refine Within.sub hw ?_); decide)
    | (fail_if_no_progress extract_lets -underBinder -merge -useContext +onlyGivenNames z
       first
       | (refine keeps_cut (s := z) ?_ ?_; (on_goal 1 => unfold z); on_goal 2 => (intro _; try clear_value z))
       | try clear_value z)
    | with_reducible apply State.sparesGone_keeps | with_reducible apply State.modEng_keeps | with_reducible apply keeps_ite
    | with_reducible apply keeps_ite_snd | split
    | ((with_reducible refine State.keeps_mk hw (by assumption) rfl ?_)
       intro p; cases p <;> (first | exact .inl (by decide) | exact .inr rfl))
    | (intro _; intros; try beta_reduce))

theorem State.columnEnds_keeps {pts : List Part} (hw : Within [.od, .cores, .engines, .hosts, .events] pts) {bef : State} {s
    : State} (c : Nat) (e : Nat) (w : WriteRun) (h : bef.Keeps pts s) : bef.Keeps pts (State.columnEnds s c e w) := by
  unfold State.columnEnds
  repeat' (first
    | with_reducible assumption | ((with_reducible refine Within.sub hw ?_); decide) | with_reducible apply hz
    | (fail_if_no_progress extract_lets -underBinder -merge -useContext +onlyGivenNames z
       first
       | (refine keeps_fact (P := ∀ x0 x1, bef.Keeps pts x0 → bef.Keeps pts (z x0 x1)) ?_ (fun hz => ?_); (on_goal 1 => (unfold z; intros; try beta_reduce)); on_goal 2 => (try clear_value z))
       | (refine keeps_cut (s := z) ?_ ?_; (on_goal 1 => unfold z); on_goal 2 => (intro _; try clear_value z))
       | (refine keeps_cut (s := z.2) ?_ ?_; (on_goal 1 => unfold z); on_goal 2 => (intro _; try clear_value z))
       | (refine keeps_cut (s := z.1) ?_ ?_; (on_goal 1 => unfold z); on_goal 2 => (intro _; try clear_value z))
       | (refine keeps_cut (s := z.2.1) ?_ ?_; (on_goal 1 => unfold z); on_goal 2 => (intro _; try clear_value z))
       | try clear_value z)
    | with_reducible apply State.pairDone_keeps | with_reducible apply State.writeVerified_keeps
    | with_reducible apply State.drop_keeps | with_reducible apply State.modEng_keeps | with_reducible apply keeps_ite
    | with_reducible apply keeps_ite_snd | split
    | ((with_reducible refine State.keeps_mk hw (by assumption) rfl ?_)
       intro p; cases p <;> (first | exact .inl (by decide) | exact .inr rfl))
    | (intro _; intros; try beta_reduce))

theorem State.columnVerify_keeps {pts : List Part} (hw : Within [.od, .cores, .engines, .hosts, .events] pts) {bef : State}
    {s : State} (c : Nat) (e : Nat) (levels : List Nat) (h : bef.Keeps pts s) : bef.Keeps pts (State.columnVerify s c e
    levels) := by
  unfold State.columnVerify
  repeat' (first
    | with_reducible assumption | ((with_reducible refine Within.sub hw ?_); decide)
    | (fail_if_no_progress extract_lets -underBinder -merge -useContext +onlyGivenNames z
       first
       | (refine keeps_cut (s := z) ?_ ?_; (on_goal 1 => unfold z); on_goal 2 => (intro _; try clear_value z))
       | try clear_value z)
    | with_reducible apply State.columnEnds_keeps | with_reducible apply State.modEng_keeps | with_reducible apply keeps_ite
    | with_reducible apply keeps_ite_snd | split
    | ((with_reducible refine State.keeps_mk hw (by assumption) rfl ?_)
       intro p; cases p <;> (first | exact .inl (by decide) | exact .inr rfl))
    | (intro _; intros; try beta_reduce))

theorem execBankColumnVerify_keeps (dt : Nat) (core : Fin 16) (eng : Fin 34) (levels : List Nat) (s : State) :
    ∃ t, execBankColumnVerify dt core eng levels s = .next t ∧ (s.elapse dt).Keeps [.od, .cores, .engines, .hosts, .events] t
        := by
  unfold execBankColumnVerify
  refine ⟨_, rfl, ?_⟩
  have hw : Within [.od, .cores, .engines, .hosts, .events] [.od, .cores, .engines, .hosts, .events] := fun _ h => h
  have h := State.Keeps.refl [.od, .cores, .engines, .hosts, .events] (s.elapse dt)
  generalize s.elapse dt = bef at h ⊢
  repeat' (first
    | with_reducible assumption | ((with_reducible refine Within.sub hw ?_); decide)
    | with_reducible apply State.columnVerify_keeps | with_reducible apply keeps_ite | with_reducible apply keeps_ite_snd
    | split | (intro _; intros; try beta_reduce))

theorem execBankWriteFault_keeps (dt : Nat) (core : Fin 16) (eng : Fin 34) (s : State) :
    ∃ t, execBankWriteFault dt core eng s = .next t ∧ (s.elapse dt).Keeps [.od, .units, .cores, .engines, .jobs, .hosts,
        .events] t := by
  unfold execBankWriteFault
  refine ⟨_, rfl, ?_⟩
  have hw : Within [.od, .units, .cores, .engines, .jobs, .hosts, .events] [.od, .units, .cores, .engines, .jobs, .hosts,
      .events] := fun _ h => h
  have h := State.Keeps.refl [.od, .units, .cores, .engines, .jobs, .hosts, .events] (s.elapse dt)
  generalize s.elapse dt = bef at h ⊢
  repeat' (first
    | with_reducible assumption | ((with_reducible refine Within.sub hw ?_); decide)
    | (fail_if_no_progress extract_lets -underBinder -merge -useContext +onlyGivenNames z
       first
       | (refine keeps_cut (s := z) ?_ ?_; (on_goal 1 => unfold z); on_goal 2 => (intro _; try clear_value z))
       | try clear_value z)
    | with_reducible apply State.fence_keeps | with_reducible apply State.raise_keeps | with_reducible apply keeps_ite
    | with_reducible apply keeps_ite_snd | split
    | ((with_reducible refine State.keeps_mk hw (by assumption) rfl ?_)
       intro p; cases p <;> (first | exact .inl (by decide) | exact .inr rfl))
    | (intro _; intros; try beta_reduce))

theorem State.bankSwapOp_keeps {pts : List Part} (hw : Within [.od, .cores, .hosts, .events] pts) {bef : State} {s : State}
    (c : Nat) (q : Nat) (h : bef.Keeps pts s) : bef.Keeps pts (State.bankSwapOp s c q) := by
  unfold State.bankSwapOp
  repeat' (first
    | with_reducible assumption | ((with_reducible refine Within.sub hw ?_); decide)
    | (fail_if_no_progress extract_lets -underBinder -merge -useContext +onlyGivenNames z
       first
       | (refine keeps_cut (s := z) ?_ ?_; (on_goal 1 => unfold z); on_goal 2 => (intro _; try clear_value z))
       | (refine keeps_cut (s := z.2) ?_ ?_; (on_goal 1 => unfold z); on_goal 2 => (intro _; try clear_value z))
       | (refine keeps_cut (s := z.1) ?_ ?_; (on_goal 1 => unfold z); on_goal 2 => (intro _; try clear_value z))
       | (refine keeps_cut (s := z.2.1) ?_ ?_; (on_goal 1 => unfold z); on_goal 2 => (intro _; try clear_value z))
       | try clear_value z)
    | with_reducible apply State.progDenied_keeps | with_reducible apply State.part_keeps
    | with_reducible apply State.modCore_keeps | with_reducible apply keeps_ite | with_reducible apply keeps_ite_snd | split
    | ((with_reducible refine State.keeps_mk hw (by assumption) rfl ?_)
       intro p; cases p <;> (first | exact .inl (by decide) | exact .inr rfl))
    | (intro _; intros; try beta_reduce))

theorem execBankSwap_keeps (dt : Nat) (core : Fin 16) (queue : Fin 66) (s : State) :
    ∃ t, execBankSwap dt core queue s = .next t ∧ (s.elapse dt).Keeps [.od, .cores, .hosts, .events] t := by
  unfold execBankSwap
  refine ⟨_, rfl, ?_⟩
  have hw : Within [.od, .cores, .hosts, .events] [.od, .cores, .hosts, .events] := fun _ h => h
  have h := State.Keeps.refl [.od, .cores, .hosts, .events] (s.elapse dt)
  generalize s.elapse dt = bef at h ⊢
  repeat' (first
    | with_reducible assumption | ((with_reducible refine Within.sub hw ?_); decide)
    | with_reducible apply State.bankSwapOp_keeps | with_reducible apply keeps_ite | with_reducible apply keeps_ite_snd
    | split | (intro _; intros; try beta_reduce))

theorem execBankSwapApply_keeps (dt : Nat) (core : Fin 16) (eng : Fin 34) (s : State) :
    ∃ t, execBankSwapApply dt core eng s = .next t ∧ (s.elapse dt).Keeps [.cores, .engines] t := by
  unfold execBankSwapApply
  refine ⟨_, rfl, ?_⟩
  have hw : Within [.cores, .engines] [.cores, .engines] := fun _ h => h
  have h := State.Keeps.refl [.cores, .engines] (s.elapse dt)
  generalize s.elapse dt = bef at h ⊢
  repeat' (first
    | with_reducible assumption | ((with_reducible refine Within.sub hw ?_); decide)
    | (fail_if_no_progress extract_lets -underBinder -merge -useContext +onlyGivenNames z
       first
       | (refine keeps_cut (s := z) ?_ ?_; (on_goal 1 => unfold z); on_goal 2 => (intro _; try clear_value z))
       | try clear_value z)
    | with_reducible apply State.part_keeps | with_reducible apply State.modEng_keeps | with_reducible apply keeps_ite
    | with_reducible apply keeps_ite_snd | split
    | ((with_reducible refine State.keeps_mk hw (by assumption) rfl ?_)
       intro p; cases p <;> (first | exact .inl (by decide) | exact .inr rfl))
    | (intro _; intros; try beta_reduce))

theorem State.refreshDue_keeps {pts : List Part} (hw : Within [.od, .engines, .hosts, .events] pts) {bef : State} {s : State}
    (c : Nat) (e : Nat) (plane : Nat) (h : bef.Keeps pts s) : bef.Keeps pts (State.refreshDue s c e plane) := by
  unfold State.refreshDue
  repeat' (first
    | with_reducible assumption | ((with_reducible refine Within.sub hw ?_); decide)
    | (fail_if_no_progress extract_lets -underBinder -merge -useContext +onlyGivenNames z
       first
       | (refine keeps_cut (s := z) ?_ ?_; (on_goal 1 => unfold z); on_goal 2 => (intro _; try clear_value z))
       | (refine keeps_cut (s := z.2) ?_ ?_; (on_goal 1 => unfold z); on_goal 2 => (intro _; try clear_value z))
       | (refine keeps_cut (s := z.1) ?_ ?_; (on_goal 1 => unfold z); on_goal 2 => (intro _; try clear_value z))
       | (refine keeps_cut (s := z.2.1) ?_ ?_; (on_goal 1 => unfold z); on_goal 2 => (intro _; try clear_value z))
       | try clear_value z)
    | with_reducible apply State.raise_keeps | with_reducible apply State.bump_keeps
    | with_reducible apply State.modEng_keeps | with_reducible apply keeps_ite | with_reducible apply keeps_ite_snd | split
    | ((with_reducible refine State.keeps_mk hw (by assumption) rfl ?_)
       intro p; cases p <;> (first | exact .inl (by decide) | exact .inr rfl))
    | (intro _; intros; try beta_reduce))

theorem execDriftRefreshDue_keeps (dt : Nat) (core : Fin 16) (eng : Fin 34) (plane : Fin 2) (s : State) :
    ∃ t, execDriftRefreshDue dt core eng plane s = .next t ∧ (s.elapse dt).Keeps [.od, .engines, .hosts, .events] t := by
  unfold execDriftRefreshDue
  refine ⟨_, rfl, ?_⟩
  have hw : Within [.od, .engines, .hosts, .events] [.od, .engines, .hosts, .events] := fun _ h => h
  have h := State.Keeps.refl [.od, .engines, .hosts, .events] (s.elapse dt)
  generalize s.elapse dt = bef at h ⊢
  repeat' (first
    | with_reducible assumption | ((with_reducible refine Within.sub hw ?_); decide)
    | with_reducible apply State.refreshDue_keeps | with_reducible apply keeps_ite | with_reducible apply keeps_ite_snd
    | split | (intro _; intros; try beta_reduce))

theorem execRefreshChunkStart_keeps (dt : Nat) (core : Fin 16) (eng : Fin 34) (plane : Fin 2) (s : State) :
    ∃ t, execRefreshChunkStart dt core eng plane s = .next t ∧ (s.elapse dt).Keeps [.engines] t := by
  unfold execRefreshChunkStart
  refine ⟨_, rfl, ?_⟩
  have hw : Within [.engines] [.engines] := fun _ h => h
  have h := State.Keeps.refl [.engines] (s.elapse dt)
  generalize s.elapse dt = bef at h ⊢
  repeat' (first
    | with_reducible assumption | ((with_reducible refine Within.sub hw ?_); decide)
    | (fail_if_no_progress extract_lets -underBinder -merge -useContext +onlyGivenNames z
       first
       | (refine keeps_cut (s := z) ?_ ?_; (on_goal 1 => unfold z); on_goal 2 => (intro _; try clear_value z))
       | (refine keeps_cut (s := z.2) ?_ ?_; (on_goal 1 => unfold z); on_goal 2 => (intro _; try clear_value z))
       | (refine keeps_cut (s := z.1) ?_ ?_; (on_goal 1 => unfold z); on_goal 2 => (intro _; try clear_value z))
       | (refine keeps_cut (s := z.2.1) ?_ ?_; (on_goal 1 => unfold z); on_goal 2 => (intro _; try clear_value z))
       | try clear_value z)
    | with_reducible apply State.modEng_keeps | with_reducible apply keeps_ite | with_reducible apply keeps_ite_snd | split
    | ((with_reducible refine State.keeps_mk hw (by assumption) rfl ?_)
       intro p; cases p <;> (first | exact .inl (by decide) | exact .inr rfl))
    | with_reducible refine keeps_of_fst (by with_reducible assumption) ?_
    | with_reducible refine keeps_of_snd (by with_reducible assumption) ?_ | (intro _; intros; try beta_reduce))

theorem State.chunkEnd_keeps {pts : List Part} (hw : Within [.od, .engines, .hosts, .events] pts) {bef : State} {s : State}
    (c : Nat) (e : Nat) (plane : Nat) (averages : List (List Nat)) (finals : List (List Nat)) (h : bef.Keeps pts s) :
    bef.Keeps pts (State.chunkEnd s c e plane averages finals) := by
  unfold State.chunkEnd
  repeat' (first
    | with_reducible assumption | ((with_reducible refine Within.sub hw ?_); decide)
    | (fail_if_no_progress extract_lets -underBinder -merge -useContext +onlyGivenNames z
       first
       | (refine keeps_cut (s := z) ?_ ?_; (on_goal 1 => unfold z); on_goal 2 => (intro _; try clear_value z))
       | (refine keeps_cut (s := z.2) ?_ ?_; (on_goal 1 => unfold z); on_goal 2 => (intro _; try clear_value z))
       | (refine keeps_cut (s := z.1) ?_ ?_; (on_goal 1 => unfold z); on_goal 2 => (intro _; try clear_value z))
       | (refine keeps_cut (s := z.2.1) ?_ ?_; (on_goal 1 => unfold z); on_goal 2 => (intro _; try clear_value z))
       | try clear_value z)
    | with_reducible apply State.handToRemap_keeps | with_reducible apply State.bump_keeps
    | with_reducible apply State.setVal_keeps | with_reducible apply State.modEng_keeps | with_reducible apply keeps_foldl
    | with_reducible apply keeps_foldl_fst | with_reducible apply keeps_foldl_snd | with_reducible apply keeps_foldl_mid
    | with_reducible apply keeps_ite | with_reducible apply keeps_ite_snd | split
    | ((with_reducible refine State.keeps_mk hw (by assumption) rfl ?_)
       intro p; cases p <;> (first | exact .inl (by decide) | exact .inr rfl))
    | (intro _; intros; try beta_reduce))

theorem execRefreshChunkEnd_keeps (dt : Nat) (core : Fin 16) (eng : Fin 34) (plane : Fin 2) (averages : List (List Nat))
    (finals : List (List Nat)) (s : State) :
    ∃ t, execRefreshChunkEnd dt core eng plane averages finals s = .next t ∧ (s.elapse dt).Keeps [.od, .engines, .hosts,
        .events] t := by
  unfold execRefreshChunkEnd
  refine ⟨_, rfl, ?_⟩
  have hw : Within [.od, .engines, .hosts, .events] [.od, .engines, .hosts, .events] := fun _ h => h
  have h := State.Keeps.refl [.od, .engines, .hosts, .events] (s.elapse dt)
  generalize s.elapse dt = bef at h ⊢
  repeat' (first
    | with_reducible assumption | ((with_reducible refine Within.sub hw ?_); decide)
    | with_reducible apply State.chunkEnd_keeps | with_reducible apply keeps_ite | with_reducible apply keeps_ite_snd
    | split | (intro _; intros; try beta_reduce))

end Sys2Proof.Machine
end

