-- ==== Sys2Proof/Laws/KeepsConverters.lean ====
section
/-! SUPPORT. What the operations of Machine/Converters.lean keep. -/

namespace Sys2Proof.Machine

theorem State.modLoop_keeps {pts : List Part} (hw : Within [.loops] pts) {bef : State} {s : State} (c : Nat) (slot : Nat) (f
    : Loop → Loop) (h : bef.Keeps pts s) : bef.Keeps pts (State.modLoop s c slot f) := by
  unfold State.modLoop
  repeat' (first
    | with_reducible assumption | ((with_reducible refine Within.sub hw ?_); decide)
    | with_reducible apply State.modLoops_keeps | with_reducible apply keeps_ite | with_reducible apply keeps_ite_snd
    | split | (intro _; intros; try beta_reduce))

theorem State.modChannel_keeps {pts : List Part} (hw : Within [.convs] pts) {bef : State} {s : State} (c : Nat) (ch : Nat) (f
    : Channel → Channel) (h : bef.Keeps pts s) : bef.Keeps pts (State.modChannel s c ch f) := by
  unfold State.modChannel
  repeat' (first
    | with_reducible assumption | ((with_reducible refine Within.sub hw ?_); decide)
    | with_reducible apply State.modConv_keeps | with_reducible apply keeps_ite | with_reducible apply keeps_ite_snd | split
    | (intro _; intros; try beta_reduce))

theorem State.wheelRecord_keeps {pts : List Part} (hw : Within [.od, .convs, .events] pts) {bef : State} {s : State} (c :
    Nat) (scan : Nat) (input : Nat) (code : Nat) (ovr : Bool) (recovery : Bool) (h : bef.Keeps pts s) : bef.Keeps pts
    (State.wheelRecord s c scan input code ovr recovery) := by
  unfold State.wheelRecord
  repeat' (first
    | with_reducible assumption | ((with_reducible refine Within.sub hw ?_); decide)
    | (fail_if_no_progress extract_lets -underBinder -merge -useContext +onlyGivenNames z
       first
       | (refine keeps_cut (s := z) ?_ ?_; (on_goal 1 => unfold z); on_goal 2 => (intro _; try clear_value z))
       | (refine keeps_cut (s := z.2) ?_ ?_; (on_goal 1 => unfold z); on_goal 2 => (intro _; try clear_value z))
       | (refine keeps_cut (s := z.1) ?_ ?_; (on_goal 1 => unfold z); on_goal 2 => (intro _; try clear_value z))
       | (refine keeps_cut (s := z.2.1) ?_ ?_; (on_goal 1 => unfold z); on_goal 2 => (intro _; try clear_value z))
       | try clear_value z)
    | with_reducible apply State.drop_keeps | with_reducible apply State.setVal_keeps
    | with_reducible apply State.modConv_keeps | with_reducible apply keeps_ite | with_reducible apply keeps_ite_snd | split
    | ((with_reducible refine State.keeps_mk hw (by assumption) rfl ?_)
       intro p; cases p <;> (first | exact .inl (by decide) | exact .inr rfl))
    | with_reducible refine keeps_of_fst (by with_reducible assumption) ?_
    | with_reducible refine keeps_of_snd (by with_reducible assumption) ?_ | (intro _; intros; try beta_reduce))

theorem State.convert_keeps {pts : List Part} (hw : Within [.od, .convs, .events] pts) {bef : State} {s : State} (c : Nat) (v
    : Nat) (slot : Nat) (scan : Nat) (uv : Int) (h : bef.Keeps pts s) : bef.Keeps pts (State.convert s c v slot scan uv) := by
  unfold State.convert
  repeat' (first
    | with_reducible assumption | ((with_reducible refine Within.sub hw ?_); decide)
    | (fail_if_no_progress extract_lets -underBinder -merge -useContext +onlyGivenNames z
       first
       | (refine keeps_cut (s := z) ?_ ?_; (on_goal 1 => unfold z); on_goal 2 => (intro _; try clear_value z))
       | (refine keeps_cut (s := z.2) ?_ ?_; (on_goal 1 => unfold z); on_goal 2 => (intro _; try clear_value z))
       | (refine keeps_cut (s := z.1) ?_ ?_; (on_goal 1 => unfold z); on_goal 2 => (intro _; try clear_value z))
       | (refine keeps_cut (s := z.2.1) ?_ ?_; (on_goal 1 => unfold z); on_goal 2 => (intro _; try clear_value z))
       | try clear_value z)
    | with_reducible apply State.wheelRecord_keeps | with_reducible apply State.bump_keeps
    | with_reducible apply State.setVal_keeps | with_reducible apply State.modConv_keeps | with_reducible apply keeps_ite
    | with_reducible apply keeps_ite_snd | split
    | ((with_reducible refine State.keeps_mk hw (by assumption) rfl ?_)
       intro p; cases p <;> (first | exact .inl (by decide) | exact .inr rfl))
    | (intro _; intros; try beta_reduce))

theorem State.converterTick_keeps {pts : List Part} (hw : Within [.od, .convs, .events] pts) {bef : State} {s : State} (c :
    Nat) (volts : List Int) (references : List Int) (h : bef.Keeps pts s) : bef.Keeps pts (State.converterTick s c volts
    references) := by
  unfold State.converterTick
  repeat' (first
    | with_reducible assumption | ((with_reducible refine Within.sub hw ?_); decide)
    | (fail_if_no_progress extract_lets -underBinder -merge -useContext +onlyGivenNames z
       first
       | (refine keeps_cut (s := z) ?_ ?_; (on_goal 1 => unfold z); on_goal 2 => (intro _; try clear_value z))
       | (refine keeps_cut (s := z.2) ?_ ?_; (on_goal 1 => unfold z); on_goal 2 => (intro _; try clear_value z))
       | (refine keeps_cut (s := z.1) ?_ ?_; (on_goal 1 => unfold z); on_goal 2 => (intro _; try clear_value z))
       | (refine keeps_cut (s := z.2.1) ?_ ?_; (on_goal 1 => unfold z); on_goal 2 => (intro _; try clear_value z))
       | try clear_value z)
    | with_reducible apply State.convert_keeps | with_reducible apply State.bump_keeps
    | with_reducible apply State.modConv_keeps | with_reducible apply keeps_foldl | with_reducible apply keeps_foldl_fst
    | with_reducible apply keeps_foldl_snd | with_reducible apply keeps_foldl_mid | with_reducible apply keeps_forRange
    | with_reducible apply keeps_forRange_fst | with_reducible apply keeps_forRange_snd | with_reducible apply keeps_ite
    | with_reducible apply keeps_ite_snd | split
    | ((with_reducible refine State.keeps_mk hw (by assumption) rfl ?_)
       intro p; cases p <;> (first | exact .inl (by decide) | exact .inr rfl))
    | (intro _; intros; try beta_reduce))

theorem execConverterTick_keeps (dt : Nat) (core : Fin 16) (volts : List Int) (references : List Int) (s : State) :
    ∃ t, execConverterTick dt core volts references s = .next t ∧ (s.elapse dt).Keeps [.od, .convs, .events] t := by
  unfold execConverterTick
  refine ⟨_, rfl, ?_⟩
  have hw : Within [.od, .convs, .events] [.od, .convs, .events] := fun _ h => h
  have h := State.Keeps.refl [.od, .convs, .events] (s.elapse dt)
  generalize s.elapse dt = bef at h ⊢
  repeat' (first
    | with_reducible assumption | ((with_reducible refine Within.sub hw ?_); decide)
    | with_reducible apply State.converterTick_keeps | with_reducible apply keeps_ite | with_reducible apply keeps_ite_snd
    | split | (intro _; intros; try beta_reduce))

theorem State.slewMove_keeps {pts : List Part} (hw : Within [.convs] pts) {bef : State} {s : State} (c : Nat) (ch : Nat) (h :
    bef.Keeps pts s) : bef.Keeps pts (State.slewMove s c ch) := by
  unfold State.slewMove
  repeat' (first
    | with_reducible assumption | ((with_reducible refine Within.sub hw ?_); decide)
    | (fail_if_no_progress extract_lets -underBinder -merge -useContext +onlyGivenNames z
       first
       | (refine keeps_cut (s := z) ?_ ?_; (on_goal 1 => unfold z); on_goal 2 => (intro _; try clear_value z))
       | try clear_value z)
    | with_reducible apply State.modChannel_keeps | with_reducible apply State.modConv_keeps
    | with_reducible apply keeps_ite | with_reducible apply keeps_ite_snd | split | (intro _; intros; try beta_reduce))

theorem execSlewMove_keeps (dt : Nat) (core : Fin 16) (channel : Fin 1120) (s : State) :
    ∃ t, execSlewMove dt core channel s = .next t ∧ (s.elapse dt).Keeps [.convs] t := by
  unfold execSlewMove
  refine ⟨_, rfl, ?_⟩
  have hw : Within [.convs] [.convs] := fun _ h => h
  have h := State.Keeps.refl [.convs] (s.elapse dt)
  generalize s.elapse dt = bef at h ⊢
  repeat' (first
    | with_reducible assumption | ((with_reducible refine Within.sub hw ?_); decide)
    | with_reducible apply State.slewMove_keeps | with_reducible apply keeps_ite | with_reducible apply keeps_ite_snd
    | split | (intro _; intros; try beta_reduce))

theorem State.queueTick_keeps {pts : List Part} (hw : Within [.od, .hosts, .convs, .events] pts) {bef : State} {s : State} (c
    : Nat) (g : Nat) (h : bef.Keeps pts s) : bef.Keeps pts (State.queueTick s c g) := by
  unfold State.queueTick
  repeat' (first
    | with_reducible assumption | ((with_reducible refine Within.sub hw ?_); decide)
    | (fail_if_no_progress extract_lets -underBinder -merge -useContext +onlyGivenNames z
       first
       | (refine keeps_cut (s := z) ?_ ?_; (on_goal 1 => unfold z); on_goal 2 => (intro _; try clear_value z))
       | try clear_value z)
    | with_reducible apply State.modChannel_keeps | with_reducible apply State.raise_keeps
    | with_reducible apply State.bump_keeps | with_reducible apply State.modConv_keeps | with_reducible apply keeps_foldl
    | with_reducible apply keeps_ite | with_reducible apply keeps_ite_snd | split
    | ((with_reducible refine State.keeps_mk hw (by assumption) rfl ?_)
       intro p; cases p <;> (first | exact .inl (by decide) | exact .inr rfl))
    | (intro _; intros; try beta_reduce))

theorem execQueueTick_keeps (dt : Nat) (core : Fin 16) (group : Fin 35) (s : State) :
    ∃ t, execQueueTick dt core group s = .next t ∧ (s.elapse dt).Keeps [.od, .hosts, .convs, .events] t := by
  unfold execQueueTick
  refine ⟨_, rfl, ?_⟩
  have hw : Within [.od, .hosts, .convs, .events] [.od, .hosts, .convs, .events] := fun _ h => h
  have h := State.Keeps.refl [.od, .hosts, .convs, .events] (s.elapse dt)
  generalize s.elapse dt = bef at h ⊢
  repeat' (first
    | with_reducible assumption | ((with_reducible refine Within.sub hw ?_); decide)
    | with_reducible apply State.queueTick_keeps | with_reducible apply keeps_ite | with_reducible apply keeps_ite_snd
    | split | (intro _; intros; try beta_reduce))

theorem State.spanEnd_keeps {pts : List Part} (hw : Within [.convs] pts) {bef : State} {s : State} (c : Nat) (ch : Nat) (h :
    bef.Keeps pts s) : bef.Keeps pts (State.spanEnd s c ch) := by
  unfold State.spanEnd
  repeat' (first
    | with_reducible assumption | ((with_reducible refine Within.sub hw ?_); decide)
    | (fail_if_no_progress extract_lets -underBinder -merge -useContext +onlyGivenNames z
       first
       | (refine keeps_cut (s := z) ?_ ?_; (on_goal 1 => unfold z); on_goal 2 => (intro _; try clear_value z))
       | try clear_value z)
    | with_reducible apply State.modChannel_keeps | with_reducible apply keeps_ite | with_reducible apply keeps_ite_snd
    | split
    | ((with_reducible refine State.keeps_mk hw (by assumption) rfl ?_)
       intro p; cases p <;> (first | exact .inl (by decide) | exact .inr rfl))
    | (intro _; intros; try beta_reduce))

theorem execSpanChangeEnd_keeps (dt : Nat) (core : Fin 16) (channel : Fin 1120) (s : State) :
    ∃ t, execSpanChangeEnd dt core channel s = .next t ∧ (s.elapse dt).Keeps [.convs] t := by
  unfold execSpanChangeEnd
  refine ⟨_, rfl, ?_⟩
  have hw : Within [.convs] [.convs] := fun _ h => h
  have h := State.Keeps.refl [.convs] (s.elapse dt)
  generalize s.elapse dt = bef at h ⊢
  repeat' (first
    | with_reducible assumption | ((with_reducible refine Within.sub hw ?_); decide)
    | with_reducible apply State.spanEnd_keeps | with_reducible apply keeps_ite | with_reducible apply keeps_ite_snd | split
    | (intro _; intros; try beta_reduce))

theorem State.armAct_keeps {pts : List Part} (hw : Within [.convs] pts) {bef : State} (c : Nat) (w : Nat) {s : State} (h :
    bef.Keeps pts s) : bef.Keeps pts (State.armAct c w s).2 := by
  unfold State.armAct
  repeat' (first
    | with_reducible assumption | ((with_reducible refine Within.sub hw ?_); decide)
    | (fail_if_no_progress extract_lets -underBinder -merge -useContext +onlyGivenNames z
       first
       | (refine keeps_cut (s := z) ?_ ?_; (on_goal 1 => unfold z); on_goal 2 => (intro _; try clear_value z))
       | try clear_value z)
    | with_reducible apply State.modChannel_keeps | with_reducible apply refuse_keeps | with_reducible apply accept_keeps
    | with_reducible apply keeps_foldl | with_reducible apply keeps_ite | with_reducible apply keeps_ite_snd | split
    | ((with_reducible refine State.keeps_mk hw (by assumption) rfl ?_)
       intro p; cases p <;> (first | exact .inl (by decide) | exact .inr rfl))
    | (intro _; intros; try beta_reduce))

theorem State.disarmAct_keeps {pts : List Part} (hw : Within [.convs] pts) {bef : State} (c : Nat) (w : Nat) {s : State} (h :
    bef.Keeps pts s) : bef.Keeps pts (State.disarmAct c w s).2 := by
  unfold State.disarmAct
  repeat' (first
    | with_reducible assumption | ((with_reducible refine Within.sub hw ?_); decide)
    | (fail_if_no_progress extract_lets -underBinder -merge -useContext +onlyGivenNames z
       first
       | (refine keeps_cut (s := z) ?_ ?_; (on_goal 1 => unfold z); on_goal 2 => (intro _; try clear_value z))
       | try clear_value z)
    | with_reducible apply State.modChannel_keeps | with_reducible apply refuse_keeps | with_reducible apply accept_keeps
    | with_reducible apply keeps_foldl | with_reducible apply keeps_ite | with_reducible apply keeps_ite_snd | split
    | ((with_reducible refine State.keeps_mk hw (by assumption) rfl ?_)
       intro p; cases p <;> (first | exact .inl (by decide) | exact .inr rfl))
    | (intro _; intros; try beta_reduce))

theorem State.armCommandAct_keeps {pts : List Part} (hw : Within [.convs] pts) {bef : State} (c : Nat) (w : Nat) {s : State}
    (h : bef.Keeps pts s) : bef.Keeps pts (State.armCommandAct c w s).2 := by
  unfold State.armCommandAct
  repeat' (first
    | with_reducible assumption | ((with_reducible refine Within.sub hw ?_); decide)
    | with_reducible apply State.disarmAct_keeps | with_reducible apply State.armAct_keeps | with_reducible apply keeps_ite
    | with_reducible apply keeps_ite_snd | split | (intro _; intros; try beta_reduce))

theorem execArm_keeps (dt : Nat) (road : Road) (core : Fin 16) (word : BitVec 32) (s : State) :
    ∃ t, execArm dt road core word s = .next t ∧ (s.elapse dt).Keeps [.out, .od, .hosts, .convs, .events] t := by
  unfold execArm
  refine ⟨_, rfl, ?_⟩
  have hw : Within [.out, .od, .hosts, .convs, .events] [.out, .od, .hosts, .convs, .events] := fun _ h => h
  have h := State.Keeps.refl [.out, .od, .hosts, .convs, .events] (s.elapse dt)
  generalize s.elapse dt = bef at h ⊢
  repeat' (first
    | with_reducible assumption | ((with_reducible refine Within.sub hw ?_); decide)
    | (fail_if_no_progress extract_lets -underBinder -merge -useContext +onlyGivenNames z
       first
       | (refine keeps_cut (s := z) ?_ ?_; (on_goal 1 => unfold z); on_goal 2 => (intro _; try clear_value z))
       | try clear_value z)
    | with_reducible apply State.armAct_keeps | with_reducible apply State.writeRow_keeps | with_reducible apply keeps_ite
    | with_reducible apply keeps_ite_snd | split | (intro _; intros; try beta_reduce))

theorem execDisarm_keeps (dt : Nat) (road : Road) (core : Fin 16) (word : BitVec 32) (s : State) :
    ∃ t, execDisarm dt road core word s = .next t ∧ (s.elapse dt).Keeps [.out, .od, .hosts, .convs, .events] t := by
  unfold execDisarm
  refine ⟨_, rfl, ?_⟩
  have hw : Within [.out, .od, .hosts, .convs, .events] [.out, .od, .hosts, .convs, .events] := fun _ h => h
  have h := State.Keeps.refl [.out, .od, .hosts, .convs, .events] (s.elapse dt)
  generalize s.elapse dt = bef at h ⊢
  repeat' (first
    | with_reducible assumption | ((with_reducible refine Within.sub hw ?_); decide)
    | (fail_if_no_progress extract_lets -underBinder -merge -useContext +onlyGivenNames z
       first
       | (refine keeps_cut (s := z) ?_ ?_; (on_goal 1 => unfold z); on_goal 2 => (intro _; try clear_value z))
       | try clear_value z)
    | with_reducible apply State.disarmAct_keeps | with_reducible apply State.writeRow_keeps
    | with_reducible apply keeps_ite | with_reducible apply keeps_ite_snd | split | (intro _; intros; try beta_reduce))

theorem State.channelWriteAct_keeps {pts : List Part} (hw : Within [.convs] pts) {bef : State} (c : Nat) (data : List Byte)
    {s : State} (h : bef.Keeps pts s) : bef.Keeps pts (State.channelWriteAct c data s).2 := by
  unfold State.channelWriteAct
  repeat' (first
    | with_reducible assumption | ((with_reducible refine Within.sub hw ?_); decide)
    | (fail_if_no_progress extract_lets -underBinder -merge -useContext +onlyGivenNames z
       first
       | (refine keeps_cut (s := z) ?_ ?_; (on_goal 1 => unfold z); on_goal 2 => (intro _; try clear_value z))
       | try clear_value z)
    | with_reducible apply State.modChannel_keeps | with_reducible apply refuse_keeps | with_reducible apply accept_keeps
    | with_reducible apply keeps_ite | with_reducible apply keeps_ite_snd | split
    | ((with_reducible refine State.keeps_mk hw (by assumption) rfl ?_)
       intro p; cases p <;> (first | exact .inl (by decide) | exact .inr rfl))
    | (intro _; intros; try beta_reduce))

theorem execChannelWrite_keeps (dt : Nat) (road : Road) (core : Fin 16) (data : List Byte) (s : State) :
    ∃ t, execChannelWrite dt road core data s = .next t ∧ (s.elapse dt).Keeps [.out, .od, .hosts, .convs, .events] t := by
  unfold execChannelWrite
  refine ⟨_, rfl, ?_⟩
  have hw : Within [.out, .od, .hosts, .convs, .events] [.out, .od, .hosts, .convs, .events] := fun _ h => h
  have h := State.Keeps.refl [.out, .od, .hosts, .convs, .events] (s.elapse dt)
  generalize s.elapse dt = bef at h ⊢
  repeat' (first
    | with_reducible assumption | ((with_reducible refine Within.sub hw ?_); decide)
    | with_reducible apply State.channelWriteAct_keeps | with_reducible apply State.writeRow_keeps
    | with_reducible apply keeps_ite | with_reducible apply keeps_ite_snd | split | (intro _; intros; try beta_reduce))

theorem State.groupStrobeAct_keeps {pts : List Part} (hw : Within [.convs] pts) {bef : State} (c : Nat) (mask : Nat) {s :
    State} (h : bef.Keeps pts s) : bef.Keeps pts (State.groupStrobeAct c mask s).2 := by
  unfold State.groupStrobeAct
  repeat' (first
    | with_reducible assumption | ((with_reducible refine Within.sub hw ?_); decide)
    | (fail_if_no_progress extract_lets -underBinder -merge -useContext +onlyGivenNames z
       first
       | (refine keeps_cut (s := z) ?_ ?_; (on_goal 1 => unfold z); on_goal 2 => (intro _; try clear_value z))
       | try clear_value z)
    | with_reducible apply refuse_keeps | with_reducible apply accept_keeps | with_reducible apply State.modConv_keeps
    | with_reducible apply keeps_foldl | with_reducible apply keeps_ite | with_reducible apply keeps_ite_snd | split
    | ((with_reducible refine State.keeps_mk hw (by assumption) rfl ?_)
       intro p; cases p <;> (first | exact .inl (by decide) | exact .inr rfl))
    | (intro _; intros; try beta_reduce))

theorem execGroupStrobe_keeps (dt : Nat) (road : Road) (core : Fin 16) (groups : BitVec 64) (s : State) :
    ∃ t, execGroupStrobe dt road core groups s = .next t ∧ (s.elapse dt).Keeps [.out, .od, .hosts, .convs, .events] t := by
  unfold execGroupStrobe
  refine ⟨_, rfl, ?_⟩
  have hw : Within [.out, .od, .hosts, .convs, .events] [.out, .od, .hosts, .convs, .events] := fun _ h => h
  have h := State.Keeps.refl [.out, .od, .hosts, .convs, .events] (s.elapse dt)
  generalize s.elapse dt = bef at h ⊢
  repeat' (first
    | with_reducible assumption | ((with_reducible refine Within.sub hw ?_); decide)
    | with_reducible apply State.groupStrobeAct_keeps | with_reducible apply State.writeRow_keeps
    | with_reducible apply keeps_ite | with_reducible apply keeps_ite_snd | split | (intro _; intros; try beta_reduce))

theorem State.queueWriteAct_keeps {pts : List Part} (hw : Within [.convs] pts) {bef : State} (c : Nat) (data : List Byte) {s
    : State} (h : bef.Keeps pts s) : bef.Keeps pts (State.queueWriteAct c data s).2 := by
  unfold State.queueWriteAct
  repeat' (first
    | with_reducible assumption | ((with_reducible refine Within.sub hw ?_); decide)
    | (fail_if_no_progress extract_lets -underBinder -merge -useContext +onlyGivenNames z
       first
       | (refine keeps_cut (s := z) ?_ ?_; (on_goal 1 => unfold z); on_goal 2 => (intro _; try clear_value z))
       | try clear_value z)
    | with_reducible apply refuse_keeps | with_reducible apply accept_keeps | with_reducible apply State.modConv_keeps
    | with_reducible apply keeps_ite | with_reducible apply keeps_ite_snd | split
    | ((with_reducible refine State.keeps_mk hw (by assumption) rfl ?_)
       intro p; cases p <;> (first | exact .inl (by decide) | exact .inr rfl))
    | (intro _; intros; try beta_reduce))

theorem execQueueWrite_keeps (dt : Nat) (road : Road) (core : Fin 16) (data : List Byte) (s : State) :
    ∃ t, execQueueWrite dt road core data s = .next t ∧ (s.elapse dt).Keeps [.out, .od, .hosts, .convs, .events] t := by
  unfold execQueueWrite
  refine ⟨_, rfl, ?_⟩
  have hw : Within [.out, .od, .hosts, .convs, .events] [.out, .od, .hosts, .convs, .events] := fun _ h => h
  have h := State.Keeps.refl [.out, .od, .hosts, .convs, .events] (s.elapse dt)
  generalize s.elapse dt = bef at h ⊢
  repeat' (first
    | with_reducible assumption | ((with_reducible refine Within.sub hw ?_); decide)
    | with_reducible apply State.queueWriteAct_keeps | with_reducible apply State.writeRow_keeps
    | with_reducible apply keeps_ite | with_reducible apply keeps_ite_snd | split | (intro _; intros; try beta_reduce))

theorem State.channelConfigAct_keeps {pts : List Part} (hw : Within [.od, .convs] pts) {bef : State} (c : Nat) (data : List
    Byte) {s : State} (h : bef.Keeps pts s) : bef.Keeps pts (State.channelConfigAct c data s).2 := by
  unfold State.channelConfigAct
  repeat' (first
    | with_reducible assumption | ((with_reducible refine Within.sub hw ?_); decide)
    | (fail_if_no_progress extract_lets -underBinder -merge -useContext +onlyGivenNames z
       first
       | (refine keeps_cut (s := z) ?_ ?_; (on_goal 1 => unfold z); on_goal 2 => (intro _; try clear_value z))
       | (refine keeps_cut (s := z.2) ?_ ?_; (on_goal 1 => unfold z); on_goal 2 => (intro _; try clear_value z))
       | (refine keeps_cut (s := z.1) ?_ ?_; (on_goal 1 => unfold z); on_goal 2 => (intro _; try clear_value z))
       | (refine keeps_cut (s := z.2.1) ?_ ?_; (on_goal 1 => unfold z); on_goal 2 => (intro _; try clear_value z))
       | try clear_value z)
    | with_reducible apply State.modChannel_keeps | with_reducible apply refuse_keeps | with_reducible apply accept_keeps
    | with_reducible apply State.bump_keeps | with_reducible apply keeps_ite | with_reducible apply keeps_ite_snd | split
    | ((with_reducible refine State.keeps_mk hw (by assumption) rfl ?_)
       intro p; cases p <;> (first | exact .inl (by decide) | exact .inr rfl))
    | with_reducible refine keeps_of_fst (by with_reducible assumption) ?_
    | with_reducible refine keeps_of_snd (by with_reducible assumption) ?_ | (intro _; intros; try beta_reduce))

theorem execChannelConfigWrite_keeps (dt : Nat) (road : Road) (core : Fin 16) (data : List Byte) (s : State) :
    ∃ t, execChannelConfigWrite dt road core data s = .next t ∧ (s.elapse dt).Keeps [.out, .od, .hosts, .convs, .events] t := by
  unfold execChannelConfigWrite
  refine ⟨_, rfl, ?_⟩
  have hw : Within [.out, .od, .hosts, .convs, .events] [.out, .od, .hosts, .convs, .events] := fun _ h => h
  have h := State.Keeps.refl [.out, .od, .hosts, .convs, .events] (s.elapse dt)
  generalize s.elapse dt = bef at h ⊢
  repeat' (first
    | with_reducible assumption | ((with_reducible refine Within.sub hw ?_); decide)
    | with_reducible apply State.channelConfigAct_keeps | with_reducible apply State.writeRow_keeps
    | with_reducible apply keeps_ite | with_reducible apply keeps_ite_snd | split | (intro _; intros; try beta_reduce))

theorem State.generatorAct_keeps {pts : List Part} (hw : Within [.convs] pts) {bef : State} (c : Nat) (data : List Byte) {s :
    State} (h : bef.Keeps pts s) : bef.Keeps pts (State.generatorAct c data s).2 := by
  unfold State.generatorAct
  repeat' (first
    | with_reducible assumption | ((with_reducible refine Within.sub hw ?_); decide)
    | (fail_if_no_progress extract_lets -underBinder -merge -useContext +onlyGivenNames z
       first
       | (refine keeps_cut (s := z) ?_ ?_; (on_goal 1 => unfold z); on_goal 2 => (intro _; try clear_value z))
       | try clear_value z)
    | with_reducible apply refuse_keeps | with_reducible apply accept_keeps | with_reducible apply State.modConv_keeps
    | with_reducible apply keeps_ite | with_reducible apply keeps_ite_snd | split
    | ((with_reducible refine State.keeps_mk hw (by assumption) rfl ?_)
       intro p; cases p <;> (first | exact .inl (by decide) | exact .inr rfl))
    | (intro _; intros; try beta_reduce))

theorem execGeneratorWrite_keeps (dt : Nat) (road : Road) (core : Fin 16) (data : List Byte) (s : State) :
    ∃ t, execGeneratorWrite dt road core data s = .next t ∧ (s.elapse dt).Keeps [.out, .od, .hosts, .convs, .events] t := by
  unfold execGeneratorWrite
  refine ⟨_, rfl, ?_⟩
  have hw : Within [.out, .od, .hosts, .convs, .events] [.out, .od, .hosts, .convs, .events] := fun _ h => h
  have h := State.Keeps.refl [.out, .od, .hosts, .convs, .events] (s.elapse dt)
  generalize s.elapse dt = bef at h ⊢
  repeat' (first
    | with_reducible assumption | ((with_reducible refine Within.sub hw ?_); decide)
    | with_reducible apply State.generatorAct_keeps | with_reducible apply State.writeRow_keeps
    | with_reducible apply keeps_ite | with_reducible apply keeps_ite_snd | split | (intro _; intros; try beta_reduce))

theorem State.wheelAct_keeps {pts : List Part} (hw : Within [.od, .convs] pts) {bef : State} (c : Nat) (v : Nat) {s : State}
    (h : bef.Keeps pts s) : bef.Keeps pts (State.wheelAct c v s).2 := by
  unfold State.wheelAct
  repeat' (first
    | with_reducible assumption | ((with_reducible refine Within.sub hw ?_); decide)
    | (fail_if_no_progress extract_lets -underBinder -merge -useContext +onlyGivenNames z
       first
       | (refine keeps_cut (s := z) ?_ ?_; (on_goal 1 => unfold z); on_goal 2 => (intro _; try clear_value z))
       | try clear_value z)
    | with_reducible apply refuse_keeps | with_reducible apply accept_keeps | with_reducible apply State.setVal_keeps
    | with_reducible apply State.modConv_keeps | with_reducible apply keeps_ite | with_reducible apply keeps_ite_snd | split
    | ((with_reducible refine State.keeps_mk hw (by assumption) rfl ?_)
       intro p; cases p <;> (first | exact .inl (by decide) | exact .inr rfl))
    | (intro _; intros; try beta_reduce))

theorem execWheelRun_keeps (dt : Nat) (road : Road) (core : Fin 16) (value : BitVec 8) (s : State) :
    ∃ t, execWheelRun dt road core value s = .next t ∧ (s.elapse dt).Keeps [.out, .od, .hosts, .convs, .events] t := by
  unfold execWheelRun
  refine ⟨_, rfl, ?_⟩
  have hw : Within [.out, .od, .hosts, .convs, .events] [.out, .od, .hosts, .convs, .events] := fun _ h => h
  have h := State.Keeps.refl [.out, .od, .hosts, .convs, .events] (s.elapse dt)
  generalize s.elapse dt = bef at h ⊢
  repeat' (first
    | with_reducible assumption | ((with_reducible refine Within.sub hw ?_); decide)
    | with_reducible apply State.wheelAct_keeps | with_reducible apply State.writeRow_keeps | with_reducible apply keeps_ite
    | with_reducible apply keeps_ite_snd | split | (intro _; intros; try beta_reduce))

theorem State.wheelSelectAct_keeps {pts : List Part} (hw : Within [.od] pts) {bef : State} (c : Nat) (v : Nat) {s : State} (h
    : bef.Keeps pts s) : bef.Keeps pts (State.wheelSelectAct c v s).2 := by
  unfold State.wheelSelectAct
  repeat' (first
    | with_reducible assumption | ((with_reducible refine Within.sub hw ?_); decide)
    | (fail_if_no_progress extract_lets -underBinder -merge -useContext +onlyGivenNames z
       first
       | (refine keeps_cut (s := z) ?_ ?_; (on_goal 1 => unfold z); on_goal 2 => (intro _; try clear_value z))
       | try clear_value z)
    | with_reducible apply store_keeps | with_reducible apply refuse_keeps | with_reducible apply keeps_ite
    | with_reducible apply keeps_ite_snd | split | (intro _; intros; try beta_reduce))

end Sys2Proof.Machine
end

