-- ==== Sys2Proof/Laws/KeepsPorts.lean ====
section
/-! SUPPORT. What the operations of Machine/Ports.lean keep. -/

namespace Sys2Proof.Machine

theorem State.countReroute_keeps {pts : List Part} (hw : Within [.od] pts) {bef : State} {s : State} (was : Bool) (is : Bool)
    (h : bef.Keeps pts s) : bef.Keeps pts (State.countReroute s was is) := by
  unfold State.countReroute
  repeat' (first
    | with_reducible assumption | ((with_reducible refine Within.sub hw ?_); decide) | with_reducible apply State.bump_keeps
    | with_reducible apply keeps_ite | with_reducible apply keeps_ite_snd | split | (intro _; intros; try beta_reduce))

theorem State.portOut_keeps {pts : List Part} (hw : Within [.od, .units, .epoch, .ports, .hosts, .loops, .convs, .events]
    pts) {bef : State} {s : State} (n : Nat) (st : UnitSt) (h : bef.Keeps pts s) : bef.Keeps pts (State.portOut s n st) := by
  unfold State.portOut
  repeat' (first
    | with_reducible assumption | ((with_reducible refine Within.sub hw ?_); decide)
    | (fail_if_no_progress extract_lets -underBinder -merge -useContext +onlyGivenNames z
       first
       | (refine keeps_cut (s := z) ?_ ?_; (on_goal 1 => unfold z); on_goal 2 => (intro _; try clear_value z))
       | try clear_value z)
    | with_reducible apply State.countReroute_keeps | with_reducible apply State.setUnit_keeps
    | with_reducible apply State.bump_keeps | with_reducible apply State.modPort_keeps
    | with_reducible apply State.modUnit_keeps | with_reducible apply keeps_ite | with_reducible apply keeps_ite_snd | split
    | ((with_reducible refine State.keeps_mk hw (by assumption) rfl ?_)
       intro p; cases p <;> (first | exact .inl (by decide) | exact .inr rfl))
    | (intro _; intros; try beta_reduce))

theorem State.portStart_keeps {pts : List Part} (hw : Within [.units, .ports] pts) {bef : State} {s : State} (n : Nat) (h :
    bef.Keeps pts s) : bef.Keeps pts (State.portStart s n) := by
  unfold State.portStart
  repeat' (first
    | with_reducible assumption | ((with_reducible refine Within.sub hw ?_); decide)
    | (fail_if_no_progress extract_lets -underBinder -merge -useContext +onlyGivenNames z
       first
       | (refine keeps_cut (s := z) ?_ ?_; (on_goal 1 => unfold z); on_goal 2 => (intro _; try clear_value z))
       | try clear_value z)
    | with_reducible apply State.modPort_keeps | with_reducible apply State.putUnit_keeps | with_reducible apply keeps_ite
    | with_reducible apply keeps_ite_snd | split
    | ((with_reducible refine State.keeps_mk hw (by assumption) rfl ?_)
       intro p; cases p <;> (first | exact .inl (by decide) | exact .inr rfl))
    | (intro _; intros; try beta_reduce))

theorem State.portEnable_keeps {pts : List Part} (hw : Within [.units, .ports] pts) {bef : State} {s : State} (n : Nat) (h :
    bef.Keeps pts s) : bef.Keeps pts (State.portEnable s n) := by
  unfold State.portEnable
  repeat' (first
    | with_reducible assumption | ((with_reducible refine Within.sub hw ?_); decide)
    | (fail_if_no_progress extract_lets -underBinder -merge -useContext +onlyGivenNames z
       first
       | (refine keeps_cut (s := z) ?_ ?_; (on_goal 1 => unfold z); on_goal 2 => (intro _; try clear_value z))
       | try clear_value z)
    | with_reducible apply State.portStart_keeps | with_reducible apply State.modUnit_keeps | with_reducible apply keeps_ite
    | with_reducible apply keeps_ite_snd | split
    | ((with_reducible refine State.keeps_mk hw (by assumption) rfl ?_)
       intro p; cases p <;> (first | exact .inl (by decide) | exact .inr rfl))
    | (intro _; intros; try beta_reduce))

theorem State.portDrained_keeps {pts : List Part} (hw : Within [.od, .units, .epoch, .ports, .hosts, .loops, .convs, .events]
    pts) {bef : State} {s : State} (n : Nat) (cmd : Nat) (h : bef.Keeps pts s) : bef.Keeps pts (State.portDrained s n cmd) := by
  unfold State.portDrained
  repeat' (first
    | with_reducible assumption | ((with_reducible refine Within.sub hw ?_); decide)
    | (fail_if_no_progress extract_lets -underBinder -merge -useContext +onlyGivenNames z
       first
       | (refine keeps_cut (s := z) ?_ ?_; (on_goal 1 => unfold z); on_goal 2 => (intro _; try clear_value z))
       | try clear_value z)
    | with_reducible apply State.portOut_keeps | with_reducible apply State.modUnit_keeps | with_reducible apply keeps_ite
    | with_reducible apply keeps_ite_snd | split
    | ((with_reducible refine State.keeps_mk hw (by assumption) rfl ?_)
       intro p; cases p <;> (first | exact .inl (by decide) | exact .inr rfl))
    | (intro _; intros; try beta_reduce))

theorem State.portDrain_keeps {pts : List Part} (hw : Within [.od, .units, .epoch, .ports, .hosts, .loops, .convs, .events]
    pts) {bef : State} {s : State} (n : Nat) (cmd : Nat) (h : bef.Keeps pts s) : bef.Keeps pts (State.portDrain s n cmd) := by
  unfold State.portDrain
  repeat' (first
    | with_reducible assumption | ((with_reducible refine Within.sub hw ?_); decide)
    | (fail_if_no_progress extract_lets -underBinder -merge -useContext +onlyGivenNames z
       first
       | (refine keeps_cut (s := z) ?_ ?_; (on_goal 1 => unfold z); on_goal 2 => (intro _; try clear_value z))
       | try clear_value z)
    | with_reducible apply State.portDrained_keeps | with_reducible apply State.countReroute_keeps
    | with_reducible apply State.modPort_keeps | with_reducible apply State.modUnit_keeps | with_reducible apply keeps_ite
    | with_reducible apply keeps_ite_snd | split
    | ((with_reducible refine State.keeps_mk hw (by assumption) rfl ?_)
       intro p; cases p <;> (first | exact .inl (by decide) | exact .inr rfl))
    | (intro _; intros; try beta_reduce))

theorem State.portEnableAct_keeps {pts : List Part} (hw : Within [.units, .ports] pts) {bef : State} (w : Nat) {s : State} (h
    : bef.Keeps pts s) : bef.Keeps pts (State.portEnableAct w s).2 := by
  unfold State.portEnableAct
  repeat' (first
    | with_reducible assumption | ((with_reducible refine Within.sub hw ?_); decide)
    | with_reducible apply State.portEnable_keeps | with_reducible apply refuse_keeps | with_reducible apply accept_keeps
    | with_reducible apply keeps_ite | with_reducible apply keeps_ite_snd | split | (intro _; intros; try beta_reduce))

theorem State.portDisableAct_keeps {pts : List Part} (hw : Within [.od, .units, .epoch, .ports, .hosts, .loops, .convs,
    .events] pts) {bef : State} (w : Nat) {s : State} (h : bef.Keeps pts s) : bef.Keeps pts (State.portDisableAct w s).2 := by
  unfold State.portDisableAct
  repeat' (first
    | with_reducible assumption | ((with_reducible refine Within.sub hw ?_); decide)
    | with_reducible apply State.portDrain_keeps | with_reducible apply refuse_keeps | with_reducible apply accept_keeps
    | with_reducible apply keeps_ite | with_reducible apply keeps_ite_snd | split | (intro _; intros; try beta_reduce))

theorem State.portRetrainAct_keeps {pts : List Part} (hw : Within [.od, .units, .epoch, .ports, .hosts, .loops, .convs,
    .events] pts) {bef : State} (w : Nat) {s : State} (h : bef.Keeps pts s) : bef.Keeps pts (State.portRetrainAct w s).2 := by
  unfold State.portRetrainAct
  repeat' (first
    | with_reducible assumption | ((with_reducible refine Within.sub hw ?_); decide)
    | (fail_if_no_progress extract_lets -underBinder -merge -useContext +onlyGivenNames z
       first
       | (refine keeps_cut (s := z) ?_ ?_; (on_goal 1 => unfold z); on_goal 2 => (intro _; try clear_value z))
       | try clear_value z)
    | with_reducible apply State.portDrain_keeps | with_reducible apply refuse_keeps | with_reducible apply accept_keeps
    | with_reducible apply keeps_ite | with_reducible apply keeps_ite_snd | split | (intro _; intros; try beta_reduce))

theorem State.portRemapAct_keeps {pts : List Part} (hw : Within [.fabric] pts) {bef : State} (w : Nat) {s : State} (h :
    bef.Keeps pts s) : bef.Keeps pts (State.portRemapAct w s).2 := by
  unfold State.portRemapAct
  repeat' (first
    | with_reducible assumption | ((with_reducible refine Within.sub hw ?_); decide)
    | (fail_if_no_progress extract_lets -underBinder -merge -useContext +onlyGivenNames z
       first
       | (refine keeps_cut (s := z) ?_ ?_; (on_goal 1 => unfold z); on_goal 2 => (intro _; try clear_value z))
       | try clear_value z)
    | with_reducible apply refuse_keeps | with_reducible apply accept_keeps | with_reducible apply keeps_foldl
    | with_reducible apply keeps_ite | with_reducible apply keeps_ite_snd | split
    | ((with_reducible refine State.keeps_mk hw (by assumption) rfl ?_)
       intro p; cases p <;> (first | exact .inl (by decide) | exact .inr rfl))
    | (intro _; intros; try beta_reduce))

theorem State.portRetireAct_keeps {pts : List Part} (hw : Within [.od, .units, .epoch, .ports, .hosts, .loops, .convs,
    .events] pts) {bef : State} (w : Nat) {s : State} (h : bef.Keeps pts s) : bef.Keeps pts (State.portRetireAct w s).2 := by
  unfold State.portRetireAct
  repeat' (first
    | with_reducible assumption | ((with_reducible refine Within.sub hw ?_); decide)
    | with_reducible apply State.portDrain_keeps | with_reducible apply refuse_keeps | with_reducible apply accept_keeps
    | with_reducible apply keeps_ite | with_reducible apply keeps_ite_snd | split | (intro _; intros; try beta_reduce))

theorem State.portUnretireAct_keeps {pts : List Part} (hw : Within [.units] pts) {bef : State} (w : Nat) {s : State} (h :
    bef.Keeps pts s) : bef.Keeps pts (State.portUnretireAct w s).2 := by
  unfold State.portUnretireAct
  repeat' (first
    | with_reducible assumption | ((with_reducible refine Within.sub hw ?_); decide)
    | (fail_if_no_progress extract_lets -underBinder -merge -useContext +onlyGivenNames z
       first
       | (refine keeps_cut (s := z) ?_ ?_; (on_goal 1 => unfold z); on_goal 2 => (intro _; try clear_value z))
       | try clear_value z)
    | with_reducible apply refuse_keeps | with_reducible apply accept_keeps | with_reducible apply State.putUnit_keeps
    | with_reducible apply State.modUnit_keeps | with_reducible apply keeps_ite | with_reducible apply keeps_ite_snd | split
    | ((with_reducible refine State.keeps_mk hw (by assumption) rfl ?_)
       intro p; cases p <;> (first | exact .inl (by decide) | exact .inr rfl))
    | (intro _; intros; try beta_reduce))

theorem State.portCommandAct_keeps {pts : List Part} (hw : Within [.od, .units, .epoch, .ports, .fabric, .hosts, .loops,
    .convs, .events] pts) {bef : State} (w : Nat) {s : State} (h : bef.Keeps pts s) : bef.Keeps pts (State.portCommandAct w
    s).2 := by
  unfold State.portCommandAct
  repeat' (first
    | with_reducible assumption | ((with_reducible refine Within.sub hw ?_); decide)
    | (fail_if_no_progress extract_lets -underBinder -merge -useContext +onlyGivenNames z
       first
       | (refine keeps_cut (s := z) ?_ ?_; (on_goal 1 => unfold z); on_goal 2 => (intro _; try clear_value z))
       | try clear_value z)
    | with_reducible apply State.portUnretireAct_keeps | with_reducible apply State.portRetireAct_keeps
    | with_reducible apply State.portRemapAct_keeps | with_reducible apply State.portRetrainAct_keeps
    | with_reducible apply State.portDisableAct_keeps | with_reducible apply State.portEnableAct_keeps
    | with_reducible apply refuse_keeps | with_reducible apply keeps_ite | with_reducible apply keeps_ite_snd | split
    | ((with_reducible refine State.keeps_mk hw (by assumption) rfl ?_)
       intro p; cases p <;> (first | exact .inl (by decide) | exact .inr rfl))
    | (intro _; intros; try beta_reduce))

theorem State.portRow_keeps {pts : List Part} (hw : Within [.out, .od, .hosts, .events] pts) {bef : State} {s : State} (road
    : Road) (w : Nat) (cmd : Nat) (act : Nat → State → Nat × State) (h : bef.Keeps pts s) (hact : ∀ y0 y1, bef.Keeps pts y1 →
    bef.Keeps pts (act y0 y1).2) : bef.Keeps pts (State.portRow s road w cmd act) := by
  unfold State.portRow
  repeat' (first
    | with_reducible assumption | with_reducible apply hact | ((with_reducible refine Within.sub hw ?_); decide)
    | with_reducible apply State.writeRow_keeps | with_reducible apply keeps_ite | with_reducible apply keeps_ite_snd
    | split | (intro _; intros; try beta_reduce))

theorem execPortEnable_keeps (dt : Nat) (road : Road) (word : BitVec 32) (s : State) :
    ∃ t, execPortEnable dt road word s = .next t ∧ (s.elapse dt).Keeps [.out, .od, .units, .ports, .hosts, .events] t := by
  unfold execPortEnable
  refine ⟨_, rfl, ?_⟩
  have hw : Within [.out, .od, .units, .ports, .hosts, .events] [.out, .od, .units, .ports, .hosts, .events] := fun _ h => h
  have h := State.Keeps.refl [.out, .od, .units, .ports, .hosts, .events] (s.elapse dt)
  generalize s.elapse dt = bef at h ⊢
  repeat' (first
    | with_reducible assumption | ((with_reducible refine Within.sub hw ?_); decide)
    | with_reducible apply State.portRow_keeps | with_reducible apply State.portEnableAct_keeps
    | with_reducible apply keeps_ite | with_reducible apply keeps_ite_snd | split | (intro _; intros; try beta_reduce))

theorem execPortDisable_keeps (dt : Nat) (road : Road) (word : BitVec 32) (s : State) :
    ∃ t, execPortDisable dt road word s = .next t ∧ (s.elapse dt).Keeps [.out, .od, .units, .epoch, .ports, .hosts, .loops,
        .convs, .events] t := by
  unfold execPortDisable
  refine ⟨_, rfl, ?_⟩
  have hw : Within [.out, .od, .units, .epoch, .ports, .hosts, .loops, .convs, .events] [.out, .od, .units, .epoch, .ports,
      .hosts, .loops, .convs, .events] := fun _ h => h
  have h := State.Keeps.refl [.out, .od, .units, .epoch, .ports, .hosts, .loops, .convs, .events] (s.elapse dt)
  generalize s.elapse dt = bef at h ⊢
  repeat' (first
    | with_reducible assumption | ((with_reducible refine Within.sub hw ?_); decide)
    | with_reducible apply State.portRow_keeps | with_reducible apply State.portDisableAct_keeps
    | with_reducible apply keeps_ite | with_reducible apply keeps_ite_snd | split | (intro _; intros; try beta_reduce))

theorem execPortRetrain_keeps (dt : Nat) (road : Road) (word : BitVec 32) (s : State) :
    ∃ t, execPortRetrain dt road word s = .next t ∧ (s.elapse dt).Keeps [.out, .od, .units, .epoch, .ports, .hosts, .loops,
        .convs, .events] t := by
  unfold execPortRetrain
  refine ⟨_, rfl, ?_⟩
  have hw : Within [.out, .od, .units, .epoch, .ports, .hosts, .loops, .convs, .events] [.out, .od, .units, .epoch, .ports,
      .hosts, .loops, .convs, .events] := fun _ h => h
  have h := State.Keeps.refl [.out, .od, .units, .epoch, .ports, .hosts, .loops, .convs, .events] (s.elapse dt)
  generalize s.elapse dt = bef at h ⊢
  repeat' (first
    | with_reducible assumption | ((with_reducible refine Within.sub hw ?_); decide)
    | with_reducible apply State.portRow_keeps | with_reducible apply State.portRetrainAct_keeps
    | with_reducible apply keeps_ite | with_reducible apply keeps_ite_snd | split | (intro _; intros; try beta_reduce))

theorem execPortRemap_keeps (dt : Nat) (road : Road) (word : BitVec 32) (s : State) :
    ∃ t, execPortRemap dt road word s = .next t ∧ (s.elapse dt).Keeps [.out, .od, .fabric, .hosts, .events] t := by
  unfold execPortRemap
  refine ⟨_, rfl, ?_⟩
  have hw : Within [.out, .od, .fabric, .hosts, .events] [.out, .od, .fabric, .hosts, .events] := fun _ h => h
  have h := State.Keeps.refl [.out, .od, .fabric, .hosts, .events] (s.elapse dt)
  generalize s.elapse dt = bef at h ⊢
  repeat' (first
    | with_reducible assumption | ((with_reducible refine Within.sub hw ?_); decide)
    | with_reducible apply State.portRow_keeps | with_reducible apply State.portRemapAct_keeps
    | with_reducible apply keeps_ite | with_reducible apply keeps_ite_snd | split | (intro _; intros; try beta_reduce))

theorem execPortRetire_keeps (dt : Nat) (road : Road) (word : BitVec 32) (s : State) :
    ∃ t, execPortRetire dt road word s = .next t ∧ (s.elapse dt).Keeps [.out, .od, .units, .epoch, .ports, .hosts, .loops,
        .convs, .events] t := by
  unfold execPortRetire
  refine ⟨_, rfl, ?_⟩
  have hw : Within [.out, .od, .units, .epoch, .ports, .hosts, .loops, .convs, .events] [.out, .od, .units, .epoch, .ports,
      .hosts, .loops, .convs, .events] := fun _ h => h
  have h := State.Keeps.refl [.out, .od, .units, .epoch, .ports, .hosts, .loops, .convs, .events] (s.elapse dt)
  generalize s.elapse dt = bef at h ⊢
  repeat' (first
    | with_reducible assumption | ((with_reducible refine Within.sub hw ?_); decide)
    | with_reducible apply State.portRow_keeps | with_reducible apply State.portRetireAct_keeps
    | with_reducible apply keeps_ite | with_reducible apply keeps_ite_snd | split | (intro _; intros; try beta_reduce))

theorem execPortUnretire_keeps (dt : Nat) (road : Road) (word : BitVec 32) (s : State) :
    ∃ t, execPortUnretire dt road word s = .next t ∧ (s.elapse dt).Keeps [.out, .od, .units, .hosts, .events] t := by
  unfold execPortUnretire
  refine ⟨_, rfl, ?_⟩
  have hw : Within [.out, .od, .units, .hosts, .events] [.out, .od, .units, .hosts, .events] := fun _ h => h
  have h := State.Keeps.refl [.out, .od, .units, .hosts, .events] (s.elapse dt)
  generalize s.elapse dt = bef at h ⊢
  repeat' (first
    | with_reducible assumption | ((with_reducible refine Within.sub hw ?_); decide)
    | with_reducible apply State.portRow_keeps | with_reducible apply State.portUnretireAct_keeps
    | with_reducible apply keeps_ite | with_reducible apply keeps_ite_snd | split | (intro _; intros; try beta_reduce))

theorem State.egressDrainEnd_keeps {pts : List Part} (hw : Within [.od, .units, .epoch, .ports, .hosts, .loops, .convs,
    .events] pts) {bef : State} {s : State} (n : Nat) (h : bef.Keeps pts s) : bef.Keeps pts (State.egressDrainEnd s n) := by
  unfold State.egressDrainEnd
  repeat' (first
    | with_reducible assumption | ((with_reducible refine Within.sub hw ?_); decide)
    | (fail_if_no_progress extract_lets -underBinder -merge -useContext +onlyGivenNames z
       first
       | (refine keeps_cut (s := z) ?_ ?_; (on_goal 1 => unfold z); on_goal 2 => (intro _; try clear_value z))
       | (refine keeps_cut (s := z.2) ?_ ?_; (on_goal 1 => unfold z); on_goal 2 => (intro _; try clear_value z))
       | (refine keeps_cut (s := z.1) ?_ ?_; (on_goal 1 => unfold z); on_goal 2 => (intro _; try clear_value z))
       | (refine keeps_cut (s := z.2.1) ?_ ?_; (on_goal 1 => unfold z); on_goal 2 => (intro _; try clear_value z))
       | try clear_value z)
    | with_reducible apply State.portDrained_keeps | with_reducible apply keeps_ite | with_reducible apply keeps_ite_snd
    | split | with_reducible refine keeps_of_fst (by with_reducible assumption) ?_
    | with_reducible refine keeps_of_snd (by with_reducible assumption) ?_ | (intro _; intros; try beta_reduce))

theorem execPortEgressDrainEnd_keeps (dt : Nat) (port : Fin 128) (s : State) :
    ∃ t, execPortEgressDrainEnd dt port s = .next t ∧ (s.elapse dt).Keeps [.od, .units, .epoch, .ports, .hosts, .loops,
        .convs, .events] t := by
  unfold execPortEgressDrainEnd
  refine ⟨_, rfl, ?_⟩
  have hw : Within [.od, .units, .epoch, .ports, .hosts, .loops, .convs, .events] [.od, .units, .epoch, .ports, .hosts,
      .loops, .convs, .events] := fun _ h => h
  have h := State.Keeps.refl [.od, .units, .epoch, .ports, .hosts, .loops, .convs, .events] (s.elapse dt)
  generalize s.elapse dt = bef at h ⊢
  repeat' (first
    | with_reducible assumption | ((with_reducible refine Within.sub hw ?_); decide)
    | with_reducible apply State.egressDrainEnd_keeps | with_reducible apply keeps_ite | with_reducible apply keeps_ite_snd
    | split | (intro _; intros; try beta_reduce))

theorem State.portUp_keeps {pts : List Part} (hw : Within [.od, .units, .epoch, .ports, .hosts, .loops, .convs, .events] pts)
    {bef : State} {s : State} (n : Nat) (h : bef.Keeps pts s) : bef.Keeps pts (State.portUp s n) := by
  unfold State.portUp
  repeat' (first
    | with_reducible assumption | ((with_reducible refine Within.sub hw ?_); decide)
    | (fail_if_no_progress extract_lets -underBinder -merge -useContext +onlyGivenNames z
       first
       | (refine keeps_cut (s := z) ?_ ?_; (on_goal 1 => unfold z); on_goal 2 => (intro _; try clear_value z))
       | try clear_value z)
    | with_reducible apply State.setUnit_keeps | with_reducible apply State.modPort_keeps
    | with_reducible apply State.modUnit_keeps | with_reducible apply keeps_ite | with_reducible apply keeps_ite_snd | split
    | ((with_reducible refine State.keeps_mk hw (by assumption) rfl ?_)
       intro p; cases p <;> (first | exact .inl (by decide) | exact .inr rfl))
    | (intro _; intros; try beta_reduce))

theorem State.linkUp_keeps {pts : List Part} (hw : Within [.od, .units, .epoch, .ports, .hosts, .loops, .convs, .events] pts)
    {bef : State} {s : State} (n : Nat) (speed : Nat) (h : bef.Keeps pts s) : bef.Keeps pts (State.linkUp s n speed) := by
  unfold State.linkUp
  repeat' (first
    | with_reducible assumption | ((with_reducible refine Within.sub hw ?_); decide)
    | (fail_if_no_progress extract_lets -underBinder -merge -useContext +onlyGivenNames z
       first
       | (refine keeps_cut (s := z) ?_ ?_; (on_goal 1 => unfold z); on_goal 2 => (intro _; try clear_value z))
       | (refine keeps_cut (s := z.2) ?_ ?_; (on_goal 1 => unfold z); on_goal 2 => (intro _; try clear_value z))
       | (refine keeps_cut (s := z.1) ?_ ?_; (on_goal 1 => unfold z); on_goal 2 => (intro _; try clear_value z))
       | (refine keeps_cut (s := z.2.1) ?_ ?_; (on_goal 1 => unfold z); on_goal 2 => (intro _; try clear_value z))
       | try clear_value z)
    | with_reducible apply State.portUp_keeps | with_reducible apply State.modPort_keeps | with_reducible apply keeps_ite
    | with_reducible apply keeps_ite_snd | split
    | ((with_reducible refine State.keeps_mk hw (by assumption) rfl ?_)
       intro p; cases p <;> (first | exact .inl (by decide) | exact .inr rfl))
    | with_reducible refine keeps_of_fst (by with_reducible assumption) ?_
    | with_reducible refine keeps_of_snd (by with_reducible assumption) ?_ | (intro _; intros; try beta_reduce))

theorem execPortLinkUp_keeps (dt : Nat) (port : Fin 128) (speed : Fin 2) (s : State) :
    ∃ t, execPortLinkUp dt port speed s = .next t ∧ (s.elapse dt).Keeps [.od, .units, .epoch, .ports, .hosts, .loops, .convs,
        .events] t := by
  unfold execPortLinkUp
  refine ⟨_, rfl, ?_⟩
  have hw : Within [.od, .units, .epoch, .ports, .hosts, .loops, .convs, .events] [.od, .units, .epoch, .ports, .hosts,
      .loops, .convs, .events] := fun _ h => h
  have h := State.Keeps.refl [.od, .units, .epoch, .ports, .hosts, .loops, .convs, .events] (s.elapse dt)
  generalize s.elapse dt = bef at h ⊢
  repeat' (first
    | with_reducible assumption | ((with_reducible refine Within.sub hw ?_); decide)
    | with_reducible apply State.linkUp_keeps | with_reducible apply keeps_ite | with_reducible apply keeps_ite_snd | split
    | (intro _; intros; try beta_reduce))

theorem State.solicit_keeps {pts : List Part} (hw : Within [.out, .ports] pts) {bef : State} {s : State} (n : Nat) (h :
    bef.Keeps pts s) : bef.Keeps pts (State.solicit s n) := by
  unfold State.solicit
  repeat' (first
    | with_reducible assumption | ((with_reducible refine Within.sub hw ?_); decide)
    | (fail_if_no_progress extract_lets -underBinder -merge -useContext +onlyGivenNames z
       first
       | (refine keeps_cut (s := z) ?_ ?_; (on_goal 1 => unfold z); on_goal 2 => (intro _; try clear_value z))
       | try clear_value z)
    | with_reducible apply State.modPort_keeps | with_reducible apply State.emit_keeps | with_reducible apply keeps_ite
    | with_reducible apply keeps_ite_snd | split
    | ((with_reducible refine State.keeps_mk hw (by assumption) rfl ?_)
       intro p; cases p <;> (first | exact .inl (by decide) | exact .inr rfl))
    | (intro _; intros; try beta_reduce))

theorem execNeighbourSolicit_keeps (dt : Nat) (port : Fin 128) (s : State) :
    ∃ t, execNeighbourSolicit dt port s = .next t ∧ (s.elapse dt).Keeps [.out, .ports] t := by
  unfold execNeighbourSolicit
  refine ⟨_, rfl, ?_⟩
  have hw : Within [.out, .ports] [.out, .ports] := fun _ h => h
  have h := State.Keeps.refl [.out, .ports] (s.elapse dt)
  generalize s.elapse dt = bef at h ⊢
  repeat' (first
    | with_reducible assumption | ((with_reducible refine Within.sub hw ?_); decide)
    | with_reducible apply State.solicit_keeps | with_reducible apply keeps_ite | with_reducible apply keeps_ite_snd | split
    | (intro _; intros; try beta_reduce))

theorem State.neighbourIs_keeps {pts : List Part} (hw : Within [.od, .units, .epoch, .ports, .hosts, .loops, .convs, .events]
    pts) {bef : State} {s : State} (n : Nat) (mac : Nat) (h : bef.Keeps pts s) : bef.Keeps pts (State.neighbourIs s n mac) := by
  unfold State.neighbourIs
  repeat' (first
    | with_reducible assumption | ((with_reducible refine Within.sub hw ?_); decide)
    | (fail_if_no_progress extract_lets -underBinder -merge -useContext +onlyGivenNames z
       first
       | (refine keeps_cut (s := z) ?_ ?_; (on_goal 1 => unfold z); on_goal 2 => (intro _; try clear_value z))
       | (refine keeps_cut (s := z.2) ?_ ?_; (on_goal 1 => unfold z); on_goal 2 => (intro _; try clear_value z))
       | (refine keeps_cut (s := z.1) ?_ ?_; (on_goal 1 => unfold z); on_goal 2 => (intro _; try clear_value z))
       | (refine keeps_cut (s := z.2.1) ?_ ?_; (on_goal 1 => unfold z); on_goal 2 => (intro _; try clear_value z))
       | try clear_value z)
    | with_reducible apply State.portUp_keeps | with_reducible apply State.modPort_keeps | with_reducible apply keeps_ite
    | with_reducible apply keeps_ite_snd | split
    | ((with_reducible refine State.keeps_mk hw (by assumption) rfl ?_)
       intro p; cases p <;> (first | exact .inl (by decide) | exact .inr rfl))
    | with_reducible refine keeps_of_fst (by with_reducible assumption) ?_
    | with_reducible refine keeps_of_snd (by with_reducible assumption) ?_ | (intro _; intros; try beta_reduce))

theorem execNeighbourAnswer_keeps (dt : Nat) (port : Fin 128) (mac : BitVec 48) (s : State) :
    ∃ t, execNeighbourAnswer dt port mac s = .next t ∧ (s.elapse dt).Keeps [.od, .units, .epoch, .ports, .hosts, .loops,
        .convs, .events] t := by
  unfold execNeighbourAnswer
  refine ⟨_, rfl, ?_⟩
  have hw : Within [.od, .units, .epoch, .ports, .hosts, .loops, .convs, .events] [.od, .units, .epoch, .ports, .hosts,
      .loops, .convs, .events] := fun _ h => h
  have h := State.Keeps.refl [.od, .units, .epoch, .ports, .hosts, .loops, .convs, .events] (s.elapse dt)
  generalize s.elapse dt = bef at h ⊢
  repeat' (first
    | with_reducible assumption | ((with_reducible refine Within.sub hw ?_); decide)
    | with_reducible apply State.neighbourIs_keeps | with_reducible apply keeps_ite | with_reducible apply keeps_ite_snd
    | split | (intro _; intros; try beta_reduce))

theorem State.trainingTimeout_keeps {pts : List Part} (hw : Within [.od, .ports] pts) {bef : State} {s : State} (n : Nat) (h
    : bef.Keeps pts s) : bef.Keeps pts (State.trainingTimeout s n) := by
  unfold State.trainingTimeout
  repeat' (first
    | with_reducible assumption | ((with_reducible refine Within.sub hw ?_); decide)
    | (fail_if_no_progress extract_lets -underBinder -merge -useContext +onlyGivenNames z
       first
       | (refine keeps_cut (s := z) ?_ ?_; (on_goal 1 => unfold z); on_goal 2 => (intro _; try clear_value z))
       | try clear_value z)
    | with_reducible apply State.bump_keeps | with_reducible apply State.modPort_keeps | with_reducible apply keeps_ite
    | with_reducible apply keeps_ite_snd | split
    | ((with_reducible refine State.keeps_mk hw (by assumption) rfl ?_)
       intro p; cases p <;> (first | exact .inl (by decide) | exact .inr rfl))
    | (intro _; intros; try beta_reduce))

theorem execPortTrainingTimeout_keeps (dt : Nat) (port : Fin 128) (s : State) :
    ∃ t, execPortTrainingTimeout dt port s = .next t ∧ (s.elapse dt).Keeps [.od, .ports] t := by
  unfold execPortTrainingTimeout
  refine ⟨_, rfl, ?_⟩
  have hw : Within [.od, .ports] [.od, .ports] := fun _ h => h
  have h := State.Keeps.refl [.od, .ports] (s.elapse dt)
  generalize s.elapse dt = bef at h ⊢
  repeat' (first
    | with_reducible assumption | ((with_reducible refine Within.sub hw ?_); decide)
    | with_reducible apply State.trainingTimeout_keeps | with_reducible apply keeps_ite | with_reducible apply keeps_ite_snd
    | split | (intro _; intros; try beta_reduce))

theorem State.flapHold_keeps {pts : List Part} (hw : Within [.od, .units, .epoch, .ports, .hosts, .loops, .convs, .events]
    pts) {bef : State} {s : State} (n : Nat) (h : bef.Keeps pts s) : bef.Keeps pts (State.flapHold s n) := by
  unfold State.flapHold
  repeat' (first
    | with_reducible assumption | ((with_reducible refine Within.sub hw ?_); decide)
    | (fail_if_no_progress extract_lets -underBinder -merge -useContext +onlyGivenNames z
       first
       | (refine keeps_cut (s := z) ?_ ?_; (on_goal 1 => unfold z); on_goal 2 => (intro _; try clear_value z))
       | try clear_value z)
    | with_reducible apply State.countReroute_keeps | with_reducible apply State.setUnit_keeps
    | with_reducible apply State.modPort_keeps | with_reducible apply keeps_ite | with_reducible apply keeps_ite_snd | split
    | ((with_reducible refine State.keeps_mk hw (by assumption) rfl ?_)
       intro p; cases p <;> (first | exact .inl (by decide) | exact .inr rfl))
    | (intro _; intros; try beta_reduce))

theorem execPortFlapHold_keeps (dt : Nat) (port : Fin 128) (s : State) :
    ∃ t, execPortFlapHold dt port s = .next t ∧ (s.elapse dt).Keeps [.od, .units, .epoch, .ports, .hosts, .loops, .convs,
        .events] t := by
  unfold execPortFlapHold
  refine ⟨_, rfl, ?_⟩
  have hw : Within [.od, .units, .epoch, .ports, .hosts, .loops, .convs, .events] [.od, .units, .epoch, .ports, .hosts,
      .loops, .convs, .events] := fun _ h => h
  have h := State.Keeps.refl [.od, .units, .epoch, .ports, .hosts, .loops, .convs, .events] (s.elapse dt)
  generalize s.elapse dt = bef at h ⊢
  repeat' (first
    | with_reducible assumption | ((with_reducible refine Within.sub hw ?_); decide)
    | with_reducible apply State.flapHold_keeps | with_reducible apply keeps_ite | with_reducible apply keeps_ite_snd
    | split | (intro _; intros; try beta_reduce))

theorem State.losOn_keeps {pts : List Part} (hw : Within [.od, .units, .epoch, .ports, .hosts, .loops, .convs, .events] pts)
    {bef : State} {s : State} (n : Nat) (h : bef.Keeps pts s) : bef.Keeps pts (State.losOn s n) := by
  unfold State.losOn
  repeat' (first
    | with_reducible assumption | ((with_reducible refine Within.sub hw ?_); decide)
    | with_reducible apply State.portOut_keeps | with_reducible apply State.raise_keeps
    | with_reducible apply State.bump_keeps | with_reducible apply keeps_ite | with_reducible apply keeps_ite_snd | split
    | (intro _; intros; try beta_reduce))

theorem State.portLos_keeps {pts : List Part} (hw : Within [.od, .units, .epoch, .ports, .hosts, .loops, .convs, .events]
    pts) {bef : State} {s : State} (n : Nat) (cause : LosCause) (h : bef.Keeps pts s) : bef.Keeps pts (State.portLos s n
    cause) := by
  unfold State.portLos
  repeat' (first
    | with_reducible assumption | ((with_reducible refine Within.sub hw ?_); decide)
    | (fail_if_no_progress extract_lets -underBinder -merge -useContext +onlyGivenNames z
       first
       | (refine keeps_cut (s := z) ?_ ?_; (on_goal 1 => unfold z); on_goal 2 => (intro _; try clear_value z))
       | try clear_value z)
    | with_reducible apply State.losOn_keeps | with_reducible apply keeps_ite | with_reducible apply keeps_ite_snd | split
    | ((with_reducible refine State.keeps_mk hw (by assumption) rfl ?_)
       intro p; cases p <;> (first | exact .inl (by decide) | exact .inr rfl))
    | (intro _; intros; try beta_reduce))

theorem execPortLos_keeps (dt : Nat) (port : Fin 128) (cause : LosCause) (s : State) :
    ∃ t, execPortLos dt port cause s = .next t ∧ (s.elapse dt).Keeps [.od, .units, .epoch, .ports, .hosts, .loops, .convs,
        .events] t := by
  unfold execPortLos
  refine ⟨_, rfl, ?_⟩
  have hw : Within [.od, .units, .epoch, .ports, .hosts, .loops, .convs, .events] [.od, .units, .epoch, .ports, .hosts,
      .loops, .convs, .events] := fun _ h => h
  have h := State.Keeps.refl [.od, .units, .epoch, .ports, .hosts, .loops, .convs, .events] (s.elapse dt)
  generalize s.elapse dt = bef at h ⊢
  repeat' (first
    | with_reducible assumption | ((with_reducible refine Within.sub hw ?_); decide)
    | with_reducible apply State.portLos_keeps | with_reducible apply keeps_ite | with_reducible apply keeps_ite_snd | split
    | (intro _; intros; try beta_reduce))

theorem State.portDegraded_keeps {pts : List Part} (hw : Within [.od, .units, .epoch, .ports, .hosts, .loops, .convs,
    .events] pts) {bef : State} {s : State} (n : Nat) (ber : Nat) (h : bef.Keeps pts s) : bef.Keeps pts (State.portDegraded s
    n ber) := by
  unfold State.portDegraded
  repeat' (first
    | with_reducible assumption | ((with_reducible refine Within.sub hw ?_); decide)
    | with_reducible apply State.portOut_keeps | with_reducible apply State.raise_keeps
    | with_reducible apply State.setVal_keeps | with_reducible apply keeps_ite | with_reducible apply keeps_ite_snd | split
    | (intro _; intros; try beta_reduce))

theorem execPortDegraded_keeps (dt : Nat) (port : Fin 128) (ber : BitVec 32) (s : State) :
    ∃ t, execPortDegraded dt port ber s = .next t ∧ (s.elapse dt).Keeps [.od, .units, .epoch, .ports, .hosts, .loops, .convs,
        .events] t := by
  unfold execPortDegraded
  refine ⟨_, rfl, ?_⟩
  have hw : Within [.od, .units, .epoch, .ports, .hosts, .loops, .convs, .events] [.od, .units, .epoch, .ports, .hosts,
      .loops, .convs, .events] := fun _ h => h
  have h := State.Keeps.refl [.od, .units, .epoch, .ports, .hosts, .loops, .convs, .events] (s.elapse dt)
  generalize s.elapse dt = bef at h ⊢
  repeat' (first
    | with_reducible assumption | ((with_reducible refine Within.sub hw ?_); decide)
    | with_reducible apply State.portDegraded_keeps | with_reducible apply keeps_ite | with_reducible apply keeps_ite_snd
    | split | (intro _; intros; try beta_reduce))

theorem execLocalOrRemoteFault_keeps (dt : Nat) (port : Fin 128) (s : State) :
    ∃ t, execLocalOrRemoteFault dt port s = .next t ∧ (s.elapse dt).Keeps [.od, .units, .epoch, .ports, .hosts, .loops,
        .convs, .events] t := by
  unfold execLocalOrRemoteFault
  refine ⟨_, rfl, ?_⟩
  have hw : Within [.od, .units, .epoch, .ports, .hosts, .loops, .convs, .events] [.od, .units, .epoch, .ports, .hosts,
      .loops, .convs, .events] := fun _ h => h
  have h := State.Keeps.refl [.od, .units, .epoch, .ports, .hosts, .loops, .convs, .events] (s.elapse dt)
  generalize s.elapse dt = bef at h ⊢
  repeat' (first
    | with_reducible assumption | ((with_reducible refine Within.sub hw ?_); decide)
    | (fail_if_no_progress extract_lets -underBinder -merge -useContext +onlyGivenNames z
       first
       | (refine keeps_cut (s := z) ?_ ?_; (on_goal 1 => unfold z); on_goal 2 => (intro _; try clear_value z))
       | try clear_value z)
    | with_reducible apply State.portOut_keeps | with_reducible apply keeps_ite | with_reducible apply keeps_ite_snd | split
    | (intro _; intros; try beta_reduce))

theorem execPortLightReturn_keeps (dt : Nat) (port : Fin 128) (s : State) :
    ∃ t, execPortLightReturn dt port s = .next t ∧ (s.elapse dt).Keeps [.units, .ports] t := by
  unfold execPortLightReturn
  refine ⟨_, rfl, ?_⟩
  have hw : Within [.units, .ports] [.units, .ports] := fun _ h => h
  have h := State.Keeps.refl [.units, .ports] (s.elapse dt)
  generalize s.elapse dt = bef at h ⊢
  repeat' (first
    | with_reducible assumption | ((with_reducible refine Within.sub hw ?_); decide)
    | (fail_if_no_progress extract_lets -underBinder -merge -useContext +onlyGivenNames z
       first
       | (refine keeps_cut (s := z) ?_ ?_; (on_goal 1 => unfold z); on_goal 2 => (intro _; try clear_value z))
       | try clear_value z)
    | with_reducible apply State.portStart_keeps | with_reducible apply keeps_ite | with_reducible apply keeps_ite_snd
    | split | (intro _; intros; try beta_reduce))

theorem State.withdrawPorts_keeps {pts : List Part} (hw : Within [.od, .units, .epoch, .ports, .hosts, .loops, .convs,
    .events] pts) {bef : State} {s : State} (l : Nat) (h : bef.Keeps pts s) : bef.Keeps pts (State.withdrawPorts s l) := by
  unfold State.withdrawPorts
  repeat' (first
    | with_reducible assumption | ((with_reducible refine Within.sub hw ?_); decide)
    | with_reducible apply State.portOut_keeps | with_reducible apply keeps_foldl | with_reducible apply keeps_ite
    | with_reducible apply keeps_ite_snd | split | (intro _; intros; try beta_reduce))

theorem State.lightLost_keeps {pts : List Part} (hw : Within [.od, .units, .epoch, .ports, .hosts, .loops, .convs, .events]
    pts) {bef : State} {s : State} (l : Nat) (h : bef.Keeps pts s) : bef.Keeps pts (State.lightLost s l) := by
  unfold State.lightLost
  repeat' (first
    | with_reducible assumption | ((with_reducible refine Within.sub hw ?_); decide)
    | (fail_if_no_progress extract_lets -underBinder -merge -useContext +onlyGivenNames z
       first
       | (refine keeps_cut (s := z) ?_ ?_; (on_goal 1 => unfold z); on_goal 2 => (intro _; try clear_value z))
       | try clear_value z)
    | with_reducible apply State.losOn_keeps | with_reducible apply State.modPort_keeps | with_reducible apply keeps_foldl
    | with_reducible apply keeps_ite | with_reducible apply keeps_ite_snd | split
    | ((with_reducible refine State.keeps_mk hw (by assumption) rfl ?_)
       intro p; cases p <;> (first | exact .inl (by decide) | exact .inr rfl))
    | (intro _; intros; try beta_reduce))

end Sys2Proof.Machine
end

