-- ==== Sys2Proof/Laws/KeepsLoops.lean ====
section
/-! SUPPORT. What the operations of Machine/Loops.lean keep. -/

namespace Sys2Proof.Machine

theorem State.endInjection_keeps {pts : List Part} (hw : Within [.loops] pts) {bef : State} {s : State} (c : Nat) (h :
    bef.Keeps pts s) : bef.Keeps pts (State.endInjection s c) := by
  unfold State.endInjection
  repeat' (first
    | with_reducible assumption | ((with_reducible refine Within.sub hw ?_); decide)
    | (fail_if_no_progress extract_lets -underBinder -merge -useContext +onlyGivenNames z
       first
       | (refine keeps_cut (s := z) ?_ ?_; (on_goal 1 => unfold z); on_goal 2 => (intro _; try clear_value z))
       | try clear_value z)
    | with_reducible apply State.modLoops_keeps | with_reducible apply keeps_ite | with_reducible apply keeps_ite_snd
    | split
    | ((with_reducible refine State.keeps_mk hw (by assumption) rfl ?_)
       intro p; cases p <;> (first | exact .inl (by decide) | exact .inr rfl))
    | (intro _; intros; try beta_reduce))

theorem State.endInjectionOf_keeps {pts : List Part} (hw : Within [.loops] pts) {bef : State} {s : State} (c : Nat) (slot :
    Nat) (h : bef.Keeps pts s) : bef.Keeps pts (State.endInjectionOf s c slot) := by
  unfold State.endInjectionOf
  repeat' (first
    | with_reducible assumption | ((with_reducible refine Within.sub hw ?_); decide)
    | with_reducible apply State.endInjection_keeps | with_reducible apply keeps_ite | with_reducible apply keeps_ite_snd
    | split | (intro _; intros; try beta_reduce))

theorem State.loopTo_keeps {pts : List Part} (hw : Within [.od, .loops] pts) {bef : State} {s : State} (c : Nat) (slot : Nat)
    (st : LoopSt) (h : bef.Keeps pts s) : bef.Keeps pts (State.loopTo s c slot st) := by
  unfold State.loopTo
  repeat' (first
    | with_reducible assumption | ((with_reducible refine Within.sub hw ?_); decide)
    | (fail_if_no_progress extract_lets -underBinder -merge -useContext +onlyGivenNames z
       first
       | (refine keeps_cut (s := z) ?_ ?_; (on_goal 1 => unfold z); on_goal 2 => (intro _; try clear_value z))
       | try clear_value z)
    | with_reducible apply State.endInjectionOf_keeps | with_reducible apply State.modLoop_keeps
    | with_reducible apply State.bump_keeps | with_reducible apply State.setVal_keeps | with_reducible apply keeps_ite
    | with_reducible apply keeps_ite_snd | split | (intro _; intros; try beta_reduce))

theorem State.holdLoop_keeps {pts : List Part} (hw : Within [.od, .loops] pts) {bef : State} {s : State} (c : Nat) (slot :
    Nat) (h : bef.Keeps pts s) : bef.Keeps pts (State.holdLoop s c slot) := by
  unfold State.holdLoop
  repeat' (first
    | with_reducible assumption | ((with_reducible refine Within.sub hw ?_); decide)
    | (fail_if_no_progress extract_lets -underBinder -merge -useContext +onlyGivenNames z
       first
       | (refine keeps_cut (s := z) ?_ ?_; (on_goal 1 => unfold z); on_goal 2 => (intro _; try clear_value z))
       | try clear_value z)
    | with_reducible apply State.loopTo_keeps | with_reducible apply keeps_ite | with_reducible apply keeps_ite_snd | split
    | (intro _; intros; try beta_reduce))

theorem State.holdLoops_keeps {pts : List Part} (hw : Within [.od, .loops] pts) {bef : State} {s : State} (c : Nat) (h :
    bef.Keeps pts s) : bef.Keeps pts (State.holdLoops s c) := by
  unfold State.holdLoops
  repeat' (first
    | with_reducible assumption | ((with_reducible refine Within.sub hw ?_); decide)
    | with_reducible apply State.holdLoop_keeps | with_reducible apply keeps_foldl | with_reducible apply keeps_ite
    | with_reducible apply keeps_ite_snd | split | (intro _; intros; try beta_reduce))

theorem State.holdAllLoops_keeps {pts : List Part} (hw : Within [.od, .loops] pts) {bef : State} {s : State} (h : bef.Keeps
    pts s) : bef.Keeps pts (State.holdAllLoops s) := by
  unfold State.holdAllLoops
  repeat' (first
    | with_reducible assumption | ((with_reducible refine Within.sub hw ?_); decide)
    | with_reducible apply State.holdLoops_keeps | with_reducible apply keeps_forRange | with_reducible apply keeps_ite
    | with_reducible apply keeps_ite_snd | split | (intro _; intros; try beta_reduce))

theorem State.groupsFollow_keeps {pts : List Part} (hw : Within [.od, .units, .cores, .engines, .jobs, .hosts, .events] pts)
    {bef : State} {s : State} (c : Nat) (h : bef.Keeps pts s) : bef.Keeps pts (State.groupsFollow s c) := by
  unfold State.groupsFollow
  repeat' (first
    | with_reducible assumption | ((with_reducible refine Within.sub hw ?_); decide)
    | with_reducible apply State.fence_keeps | with_reducible apply keeps_forRange | with_reducible apply keeps_ite
    | with_reducible apply keeps_ite_snd | split | (intro _; intros; try beta_reduce))

theorem State.fenceCart_keeps {pts : List Part} (hw : Within [.od, .units, .cores, .engines, .jobs, .epoch, .ports, .hosts,
    .loops, .convs, .events] pts) {bef : State} {s : State} (l : Nat) (h : bef.Keeps pts s) : bef.Keeps pts (State.fenceCart
    s l) := by
  unfold State.fenceCart
  repeat' (first
    | with_reducible assumption | ((with_reducible refine Within.sub hw ?_); decide)
    | (fail_if_no_progress extract_lets -underBinder -merge -useContext +onlyGivenNames z
       first
       | (refine keeps_cut (s := z) ?_ ?_; (on_goal 1 => unfold z); on_goal 2 => (intro _; try clear_value z))
       | try clear_value z)
    | with_reducible apply State.holdLoops_keeps | with_reducible apply State.lightLost_keeps
    | with_reducible apply State.fence_keeps | with_reducible apply State.abandonUsers_keeps
    | with_reducible apply keeps_ite | with_reducible apply keeps_ite_snd | split | (intro _; intros; try beta_reduce))

theorem State.fenceEssential_keeps {pts : List Part} (hw : Within [.od, .units, .cores, .engines, .jobs, .epoch, .ports,
    .hosts, .loops, .convs, .events] pts) {bef : State} {s : State} (c : Nat) (slot : Nat) (h : bef.Keeps pts s) : bef.Keeps
    pts (State.fenceEssential s c slot) := by
  unfold State.fenceEssential
  repeat' (first
    | with_reducible assumption | ((with_reducible refine Within.sub hw ?_); decide)
    | (fail_if_no_progress extract_lets -underBinder -merge -useContext +onlyGivenNames z
       first
       | (refine keeps_cut (s := z) ?_ ?_; (on_goal 1 => unfold z); on_goal 2 => (intro _; try clear_value z))
       | (refine keeps_cut (s := z.2) ?_ ?_; (on_goal 1 => unfold z); on_goal 2 => (intro _; try clear_value z))
       | (refine keeps_cut (s := z.1) ?_ ?_; (on_goal 1 => unfold z); on_goal 2 => (intro _; try clear_value z))
       | (refine keeps_cut (s := z.2.1) ?_ ?_; (on_goal 1 => unfold z); on_goal 2 => (intro _; try clear_value z))
       | try clear_value z)
    | with_reducible apply State.fenceCart_keeps | with_reducible apply State.holdLoops_keeps
    | with_reducible apply State.fence_keeps | with_reducible apply State.modConv_keeps
    | with_reducible apply State.modEng_keeps | with_reducible apply keeps_ite | with_reducible apply keeps_ite_snd | split
    | ((with_reducible refine State.keeps_mk hw (by assumption) rfl ?_)
       intro p; cases p <;> (first | exact .inl (by decide) | exact .inr rfl))
    | (intro _; intros; try beta_reduce))

theorem State.faultLoop_keeps {pts : List Part} (hw : Within [.od, .units, .cores, .engines, .jobs, .epoch, .ports, .hosts,
    .loops, .convs, .events] pts) {bef : State} {s : State} (c : Nat) (slot : Nat) (h : bef.Keeps pts s) : bef.Keeps pts
    (State.faultLoop s c slot) := by
  unfold State.faultLoop
  repeat' (first
    | with_reducible assumption | ((with_reducible refine Within.sub hw ?_); decide)
    | (fail_if_no_progress extract_lets -underBinder -merge -useContext +onlyGivenNames z
       first
       | (refine keeps_cut (s := z) ?_ ?_; (on_goal 1 => unfold z); on_goal 2 => (intro _; try clear_value z))
       | try clear_value z)
    | with_reducible apply State.fenceEssential_keeps | with_reducible apply State.loopTo_keeps
    | with_reducible apply State.modChannel_keeps | with_reducible apply State.bump_keeps | with_reducible apply keeps_foldl
    | with_reducible apply keeps_ite | with_reducible apply keeps_ite_snd | split
    | ((with_reducible refine State.keeps_mk hw (by assumption) rfl ?_)
       intro p; cases p <;> (first | exact .inl (by decide) | exact .inr rfl))
    | (intro _; intros; try beta_reduce))

theorem State.latch_keeps {pts : List Part} (hw : Within [.od, .convs] pts) {bef : State} {s : State} (c : Nat) (f : Nat) (h
    : bef.Keeps pts s) : bef.Keeps pts (State.latch s c f) := by
  unfold State.latch
  repeat' (first
    | with_reducible assumption | ((with_reducible refine Within.sub hw ?_); decide)
    | (fail_if_no_progress extract_lets -underBinder -merge -useContext +onlyGivenNames z
       first
       | (refine keeps_cut (s := z) ?_ ?_; (on_goal 1 => unfold z); on_goal 2 => (intro _; try clear_value z))
       | (refine keeps_cut (s := z.2) ?_ ?_; (on_goal 1 => unfold z); on_goal 2 => (intro _; try clear_value z))
       | (refine keeps_cut (s := z.1) ?_ ?_; (on_goal 1 => unfold z); on_goal 2 => (intro _; try clear_value z))
       | (refine keeps_cut (s := z.2.1) ?_ ?_; (on_goal 1 => unfold z); on_goal 2 => (intro _; try clear_value z))
       | try clear_value z)
    | with_reducible apply State.bump_keeps | with_reducible apply State.modConv_keeps | with_reducible apply keeps_foldl
    | with_reducible apply keeps_foldl_fst | with_reducible apply keeps_foldl_snd | with_reducible apply keeps_foldl_mid
    | with_reducible apply keeps_ite | with_reducible apply keeps_ite_snd | split
    | ((with_reducible refine State.keeps_mk hw (by assumption) rfl ?_)
       intro p; cases p <;> (first | exact .inl (by decide) | exact .inr rfl))
    | (intro _; intros; try beta_reduce))

theorem State.compute_keeps {pts : List Part} (hw : Within [.loops] pts) {bef : State} {s : State} (c : Nat) (slot : Nat)
    (offsets : List Int) (h : bef.Keeps pts s) : bef.Keeps pts (State.compute s c slot offsets) := by
  unfold State.compute
  repeat' (first
    | with_reducible assumption | ((with_reducible refine Within.sub hw ?_); decide)
    | (fail_if_no_progress extract_lets -underBinder -merge -useContext +onlyGivenNames z
       first
       | (refine keeps_cut (s := z) ?_ ?_; (on_goal 1 => unfold z); on_goal 2 => (intro _; try clear_value z))
       | try clear_value z)
    | with_reducible apply State.modLoop_keeps | with_reducible apply State.modLoops_keeps | with_reducible apply keeps_ite
    | with_reducible apply keeps_ite_snd | split
    | ((with_reducible refine State.keeps_mk hw (by assumption) rfl ?_)
       intro p; cases p <;> (first | exact .inl (by decide) | exact .inr rfl))
    | (intro _; intros; try beta_reduce))

theorem State.selectLines_keeps {pts : List Part} (hw : Within [.loops] pts) {bef : State} {s : State} (c : Nat) (h :
    bef.Keeps pts s) : bef.Keeps pts (State.selectLines s c) := by
  unfold State.selectLines
  repeat' (first
    | with_reducible assumption | ((with_reducible refine Within.sub hw ?_); decide)
    | (fail_if_no_progress extract_lets -underBinder -merge -useContext +onlyGivenNames z
       first
       | (refine keeps_cut (s := z) ?_ ?_; (on_goal 1 => unfold z); on_goal 2 => (intro _; try clear_value z))
       | (refine keeps_cut (s := z.2) ?_ ?_; (on_goal 1 => unfold z); on_goal 2 => (intro _; try clear_value z))
       | (refine keeps_cut (s := z.1) ?_ ?_; (on_goal 1 => unfold z); on_goal 2 => (intro _; try clear_value z))
       | (refine keeps_cut (s := z.2.1) ?_ ?_; (on_goal 1 => unfold z); on_goal 2 => (intro _; try clear_value z))
       | try clear_value z)
    | with_reducible apply State.modLoop_keeps | with_reducible apply keeps_foldl | with_reducible apply keeps_foldl_fst
    | with_reducible apply keeps_foldl_snd | with_reducible apply keeps_foldl_mid | with_reducible apply keeps_ite
    | with_reducible apply keeps_ite_snd | split
    | ((with_reducible refine State.keeps_mk hw (by assumption) rfl ?_)
       intro p; cases p <;> (first | exact .inl (by decide) | exact .inr rfl))
    | (intro _; intros; try beta_reduce))

theorem State.moveLoops_keeps {pts : List Part} (hw : Within [.od, .loops] pts) {bef : State} {s : State} (a : Nat) (b : Nat)
    (h : bef.Keeps pts s) : bef.Keeps pts (State.moveLoops s a b) := by
  unfold State.moveLoops
  repeat' (first
    | with_reducible assumption | ((with_reducible refine Within.sub hw ?_); decide)
    | (fail_if_no_progress extract_lets -underBinder -merge -useContext +onlyGivenNames z
       first
       | (refine keeps_cut (s := z) ?_ ?_; (on_goal 1 => unfold z); on_goal 2 => (intro _; try clear_value z))
       | try clear_value z)
    | with_reducible apply State.endInjection_keeps | with_reducible apply State.modLoop_keeps
    | with_reducible apply State.setVal_keeps | with_reducible apply State.modLoops_keeps | with_reducible apply keeps_foldl
    | with_reducible apply keeps_ite | with_reducible apply keeps_ite_snd | split
    | ((with_reducible refine State.keeps_mk hw (by assumption) rfl ?_)
       intro p; cases p <;> (first | exact .inl (by decide) | exact .inr rfl))
    | (intro _; intros; try beta_reduce))

theorem State.cartMove_keeps {pts : List Part} (hw : Within [.od, .loops, .convs] pts) {bef : State} {s : State} (c : Nat) (h
    : bef.Keeps pts s) : bef.Keeps pts (State.cartMove s c) := by
  unfold State.cartMove
  repeat' (first
    | with_reducible assumption | ((with_reducible refine Within.sub hw ?_); decide)
    | (fail_if_no_progress extract_lets -underBinder -merge -useContext +onlyGivenNames z
       first
       | (refine keeps_cut (s := z) ?_ ?_; (on_goal 1 => unfold z); on_goal 2 => (intro _; try clear_value z))
       | try clear_value z)
    | with_reducible apply State.moveLoops_keeps | with_reducible apply State.modChannel_keeps
    | with_reducible apply State.setVal_keeps | with_reducible apply keeps_foldl | with_reducible apply keeps_ite
    | with_reducible apply keeps_ite_snd | split
    | ((with_reducible refine State.keeps_mk hw (by assumption) rfl ?_)
       intro p; cases p <;> (first | exact .inl (by decide) | exact .inr rfl))
    | (intro _; intros; try beta_reduce))

theorem State.loopApply_keeps {pts : List Part} (hw : Within [.od, .loops] pts) {bef : State} {s : State} (c : Nat) (x0 :
    LoopWrite) (h : bef.Keeps pts s) : bef.Keeps pts (State.loopApply s c x0) := by
  unfold State.loopApply
  repeat' (first
    | with_reducible assumption | ((with_reducible refine Within.sub hw ?_); decide)
    | (fail_if_no_progress extract_lets -underBinder -merge -useContext +onlyGivenNames z
       first
       | (refine keeps_cut (s := z) ?_ ?_; (on_goal 1 => unfold z); on_goal 2 => (intro _; try clear_value z))
       | try clear_value z)
    | with_reducible apply State.loopTo_keeps | with_reducible apply State.modLoop_keeps | with_reducible apply keeps_ite
    | with_reducible apply keeps_ite_snd | split
    | ((with_reducible refine State.keeps_mk hw (by assumption) rfl ?_)
       intro p; cases p <;> (first | exact .inl (by decide) | exact .inr rfl))
    | (intro _; intros; try beta_reduce))

theorem State.loopFrame_keeps {pts : List Part} (hw : Within [.od, .units, .cores, .engines, .jobs, .hosts, .loops, .convs,
    .events] pts) {bef : State} {s : State} (c : Nat) (supply : Nat) (fast : Nat) (time : Nat) (offsets : List Int) (h :
    bef.Keeps pts s) : bef.Keeps pts (State.loopFrame s c supply fast time offsets) := by
  unfold State.loopFrame
  repeat' (first
    | with_reducible assumption | ((with_reducible refine Within.sub hw ?_); decide)
    | (fail_if_no_progress extract_lets -underBinder -merge -useContext +onlyGivenNames z
       first
       | (refine keeps_cut (s := z) ?_ ?_; (on_goal 1 => unfold z); on_goal 2 => (intro _; try clear_value z))
       | (refine keeps_cut (s := z.2) ?_ ?_; (on_goal 1 => unfold z); on_goal 2 => (intro _; try clear_value z))
       | (refine keeps_cut (s := z.1) ?_ ?_; (on_goal 1 => unfold z); on_goal 2 => (intro _; try clear_value z))
       | (refine keeps_cut (s := z.2.1) ?_ ?_; (on_goal 1 => unfold z); on_goal 2 => (intro _; try clear_value z))
       | try clear_value z)
    | with_reducible apply State.loopApply_keeps | with_reducible apply State.cartMove_keeps
    | with_reducible apply State.selectLines_keeps | with_reducible apply State.compute_keeps
    | with_reducible apply State.latch_keeps | with_reducible apply State.groupsFollow_keeps
    | with_reducible apply State.holdLoops_keeps | with_reducible apply State.raiseTo_keeps
    | with_reducible apply State.setVal_keeps | with_reducible apply State.modLoops_keeps | with_reducible apply keeps_foldl
    | with_reducible apply keeps_foldl_fst | with_reducible apply keeps_foldl_snd | with_reducible apply keeps_foldl_mid
    | with_reducible apply keeps_ite | with_reducible apply keeps_ite_snd | split
    | ((with_reducible refine State.keeps_mk hw (by assumption) rfl ?_)
       intro p; cases p <;> (first | exact .inl (by decide) | exact .inr rfl))
    | (intro _; intros; try beta_reduce))

theorem execLoopFrame_keeps (dt : Nat) (core : Fin 16) (supply : BitVec 16) (fast : Nat) (time : Nat) (offsets : List Int) (s
    : State) :
    ∃ t, execLoopFrame dt core supply fast time offsets s = .next t ∧ (s.elapse dt).Keeps [.od, .units, .cores, .engines,
        .jobs, .hosts, .loops, .convs, .events] t := by
  unfold execLoopFrame
  refine ⟨_, rfl, ?_⟩
  have hw : Within [.od, .units, .cores, .engines, .jobs, .hosts, .loops, .convs, .events] [.od, .units, .cores, .engines,
      .jobs, .hosts, .loops, .convs, .events] := fun _ h => h
  have h := State.Keeps.refl [.od, .units, .cores, .engines, .jobs, .hosts, .loops, .convs, .events] (s.elapse dt)
  generalize s.elapse dt = bef at h ⊢
  repeat' (first
    | with_reducible assumption | ((with_reducible refine Within.sub hw ?_); decide)
    | with_reducible apply State.loopFrame_keeps | with_reducible apply keeps_ite | with_reducible apply keeps_ite_snd
    | split | (intro _; intros; try beta_reduce))

theorem State.deliverTo_keeps {pts : List Part} (hw : Within [.convs] pts) {bef : State} {s : State} (c : Nat) (ch : Nat)
    (code : Nat) (h : bef.Keeps pts s) : bef.Keeps pts (State.deliverTo s c ch code) := by
  unfold State.deliverTo
  repeat' (first
    | with_reducible assumption | ((with_reducible refine Within.sub hw ?_); decide)
    | with_reducible apply State.modChannel_keeps | with_reducible apply keeps_ite | with_reducible apply keeps_ite_snd
    | split | with_reducible refine keeps_of_fst (by with_reducible assumption) ?_
    | with_reducible refine keeps_of_snd (by with_reducible assumption) ?_ | (intro _; intros; try beta_reduce))

theorem State.strobeLoop_keeps {pts : List Part} (hw : Within [.loops, .convs] pts) {bef : State} {s : State} (c : Nat) (slot
    : Nat) (h : bef.Keeps pts s) : bef.Keeps pts (State.strobeLoop s c slot) := by
  unfold State.strobeLoop
  repeat' (first
    | with_reducible assumption | ((with_reducible refine Within.sub hw ?_); decide)
    | (fail_if_no_progress extract_lets -underBinder -merge -useContext +onlyGivenNames z
       first
       | (refine keeps_cut (s := z) ?_ ?_; (on_goal 1 => unfold z); on_goal 2 => (intro _; try clear_value z))
       | try clear_value z)
    | with_reducible apply State.deliverTo_keeps | with_reducible apply State.modLoop_keeps | with_reducible apply keeps_ite
    | with_reducible apply keeps_ite_snd | split
    | ((with_reducible refine State.keeps_mk hw (by assumption) rfl ?_)
       intro p; cases p <;> (first | exact .inl (by decide) | exact .inr rfl))
    | (intro _; intros; try beta_reduce))

theorem State.strobeLines_keeps {pts : List Part} (hw : Within [.convs] pts) {bef : State} {s : State} (c : Nat) (h :
    bef.Keeps pts s) : bef.Keeps pts (State.strobeLines s c) := by
  unfold State.strobeLines
  repeat' (first
    | with_reducible assumption | ((with_reducible refine Within.sub hw ?_); decide)
    | with_reducible apply State.deliverTo_keeps | with_reducible apply keeps_foldl | with_reducible apply keeps_foldl_fst
    | with_reducible apply keeps_foldl_snd | with_reducible apply keeps_foldl_mid | with_reducible apply keeps_ite
    | with_reducible apply keeps_ite_snd | split | (intro _; intros; try beta_reduce))

theorem State.strobeHeld_keeps {pts : List Part} (hw : Within [.convs] pts) {bef : State} {s : State} (c : Nat) (h :
    bef.Keeps pts s) : bef.Keeps pts (State.strobeHeld s c) := by
  unfold State.strobeHeld
  repeat' (first
    | with_reducible assumption | ((with_reducible refine Within.sub hw ?_); decide)
    | (fail_if_no_progress extract_lets -underBinder -merge -useContext +onlyGivenNames z
       first
       | (refine keeps_cut (s := z) ?_ ?_; (on_goal 1 => unfold z); on_goal 2 => (intro _; try clear_value z))
       | (refine keeps_cut (s := z.2) ?_ ?_; (on_goal 1 => unfold z); on_goal 2 => (intro _; try clear_value z))
       | (refine keeps_cut (s := z.1) ?_ ?_; (on_goal 1 => unfold z); on_goal 2 => (intro _; try clear_value z))
       | (refine keeps_cut (s := z.2.1) ?_ ?_; (on_goal 1 => unfold z); on_goal 2 => (intro _; try clear_value z))
       | try clear_value z)
    | with_reducible apply State.modConv_keeps | with_reducible apply keeps_ite | with_reducible apply keeps_ite_snd | split
    | ((with_reducible refine State.keeps_mk hw (by assumption) rfl ?_)
       intro p; cases p <;> (first | exact .inl (by decide) | exact .inr rfl))
    | (intro _; intros; try beta_reduce))

theorem State.strobeMiss_keeps {pts : List Part} (hw : Within [.od, .loops] pts) {bef : State} {s : State} (c : Nat) (slot :
    Nat) (h : bef.Keeps pts s) : bef.Keeps pts (State.strobeMiss s c slot) := by
  unfold State.strobeMiss
  repeat' (first
    | with_reducible assumption | ((with_reducible refine Within.sub hw ?_); decide)
    | (fail_if_no_progress extract_lets -underBinder -merge -useContext +onlyGivenNames z
       first
       | (refine keeps_cut (s := z) ?_ ?_; (on_goal 1 => unfold z); on_goal 2 => (intro _; try clear_value z))
       | try clear_value z)
    | with_reducible apply State.modLoop_keeps | with_reducible apply State.bump_keeps | with_reducible apply keeps_ite
    | with_reducible apply keeps_ite_snd | split
    | ((with_reducible refine State.keeps_mk hw (by assumption) rfl ?_)
       intro p; cases p <;> (first | exact .inl (by decide) | exact .inr rfl))
    | (intro _; intros; try beta_reduce))

theorem State.captureSample_keeps {pts : List Part} (hw : Within [.od, .loops, .events] pts) {bef : State} {s : State} (c :
    Nat) (h : bef.Keeps pts s) : bef.Keeps pts (State.captureSample s c) := by
  unfold State.captureSample
  repeat' (first
    | with_reducible assumption | ((with_reducible refine Within.sub hw ?_); decide)
    | (fail_if_no_progress extract_lets -underBinder -merge -useContext +onlyGivenNames z
       first
       | (refine keeps_cut (s := z) ?_ ?_; (on_goal 1 => unfold z); on_goal 2 => (intro _; try clear_value z))
       | (refine keeps_cut (s := z.2) ?_ ?_; (on_goal 1 => unfold z); on_goal 2 => (intro _; try clear_value z))
       | (refine keeps_cut (s := z.1) ?_ ?_; (on_goal 1 => unfold z); on_goal 2 => (intro _; try clear_value z))
       | (refine keeps_cut (s := z.2.1) ?_ ?_; (on_goal 1 => unfold z); on_goal 2 => (intro _; try clear_value z))
       | try clear_value z)
    | with_reducible apply State.drop_keeps | with_reducible apply State.modLoops_keeps | with_reducible apply keeps_ite
    | with_reducible apply keeps_ite_snd | split
    | ((with_reducible refine State.keeps_mk hw (by assumption) rfl ?_)
       intro p; cases p <;> (first | exact .inl (by decide) | exact .inr rfl))
    | with_reducible refine keeps_of_fst (by with_reducible assumption) ?_
    | with_reducible refine keeps_of_snd (by with_reducible assumption) ?_ | (intro _; intros; try beta_reduce))

theorem State.outputStrobe_keeps {pts : List Part} (hw : Within [.od, .loops, .convs, .events] pts) {bef : State} {s : State}
    (c : Nat) (h : bef.Keeps pts s) : bef.Keeps pts (State.outputStrobe s c) := by
  unfold State.outputStrobe
  repeat' (first
    | with_reducible assumption | ((with_reducible refine Within.sub hw ?_); decide)
    | (fail_if_no_progress extract_lets -underBinder -merge -useContext +onlyGivenNames z
       first
       | (refine keeps_cut (s := z) ?_ ?_; (on_goal 1 => unfold z); on_goal 2 => (intro _; try clear_value z))
       | (refine keeps_cut (s := z.2) ?_ ?_; (on_goal 1 => unfold z); on_goal 2 => (intro _; try clear_value z))
       | (refine keeps_cut (s := z.1) ?_ ?_; (on_goal 1 => unfold z); on_goal 2 => (intro _; try clear_value z))
       | (refine keeps_cut (s := z.2.1) ?_ ?_; (on_goal 1 => unfold z); on_goal 2 => (intro _; try clear_value z))
       | try clear_value z)
    | with_reducible apply State.captureSample_keeps | with_reducible apply State.strobeMiss_keeps
    | with_reducible apply State.strobeHeld_keeps | with_reducible apply State.strobeLines_keeps
    | with_reducible apply State.strobeLoop_keeps | with_reducible apply State.modLoops_keeps
    | with_reducible apply keeps_foldl | with_reducible apply keeps_foldl_fst | with_reducible apply keeps_foldl_snd
    | with_reducible apply keeps_foldl_mid | with_reducible apply keeps_ite | with_reducible apply keeps_ite_snd | split
    | ((with_reducible refine State.keeps_mk hw (by assumption) rfl ?_)
       intro p; cases p <;> (first | exact .inl (by decide) | exact .inr rfl))
    | (intro _; intros; try beta_reduce))

theorem execOutputStrobe_keeps (dt : Nat) (core : Fin 16) (s : State) :
    ∃ t, execOutputStrobe dt core s = .next t ∧ (s.elapse dt).Keeps [.od, .loops, .convs, .events] t := by
  unfold execOutputStrobe
  refine ⟨_, rfl, ?_⟩
  have hw : Within [.od, .loops, .convs, .events] [.od, .loops, .convs, .events] := fun _ h => h
  have h := State.Keeps.refl [.od, .loops, .convs, .events] (s.elapse dt)
  generalize s.elapse dt = bef at h ⊢
  repeat' (first
    | with_reducible assumption | ((with_reducible refine Within.sub hw ?_); decide)
    | with_reducible apply State.outputStrobe_keeps | with_reducible apply keeps_ite | with_reducible apply keeps_ite_snd
    | split | (intro _; intros; try beta_reduce))

theorem State.loopTake_keeps {pts : List Part} (hw : Within [.loops] pts) {bef : State} (c : Nat) (w : Nat) {s : State} (h :
    bef.Keeps pts s) : bef.Keeps pts (State.loopTake c w s).2 := by
  unfold State.loopTake
  repeat' (first
    | with_reducible assumption | ((with_reducible refine Within.sub hw ?_); decide)
    | (fail_if_no_progress extract_lets -underBinder -merge -useContext +onlyGivenNames z
       first
       | (refine keeps_cut (s := z) ?_ ?_; (on_goal 1 => unfold z); on_goal 2 => (intro _; try clear_value z))
       | (refine keeps_cut (s := z.2) ?_ ?_; (on_goal 1 => unfold z); on_goal 2 => (intro _; try clear_value z))
       | (refine keeps_cut (s := z.1) ?_ ?_; (on_goal 1 => unfold z); on_goal 2 => (intro _; try clear_value z))
       | (refine keeps_cut (s := z.2.1) ?_ ?_; (on_goal 1 => unfold z); on_goal 2 => (intro _; try clear_value z))
       | try clear_value z)
    | with_reducible apply refuse_keeps | with_reducible apply accept_keeps | with_reducible apply State.modLoops_keeps
    | with_reducible apply keeps_ite | with_reducible apply keeps_ite_snd | split
    | ((with_reducible refine State.keeps_mk hw (by assumption) rfl ?_)
       intro p; cases p <;> (first | exact .inl (by decide) | exact .inr rfl))
    | with_reducible refine keeps_of_fst (by with_reducible assumption) ?_
    | with_reducible refine keeps_of_snd (by with_reducible assumption) ?_ | (intro _; intros; try beta_reduce))

theorem State.loopOffAct_keeps {pts : List Part} (hw : Within [.loops] pts) {bef : State} (c : Nat) (w : Nat) {s : State} (h
    : bef.Keeps pts s) : bef.Keeps pts (State.loopOffAct c w s).2 := by
  unfold State.loopOffAct
  repeat' (first
    | with_reducible assumption | ((with_reducible refine Within.sub hw ?_); decide)
    | with_reducible apply State.loopTake_keeps | with_reducible apply keeps_ite | with_reducible apply keeps_ite_snd
    | split | (intro _; intros; try beta_reduce))

theorem State.loopManualAct_keeps {pts : List Part} (hw : Within [.loops] pts) {bef : State} (c : Nat) (w : Nat) {s : State}
    (h : bef.Keeps pts s) : bef.Keeps pts (State.loopManualAct c w s).2 := by
  unfold State.loopManualAct
  repeat' (first
    | with_reducible assumption | ((with_reducible refine Within.sub hw ?_); decide)
    | with_reducible apply State.loopTake_keeps | with_reducible apply keeps_ite | with_reducible apply keeps_ite_snd
    | split | (intro _; intros; try beta_reduce))

theorem State.loopAcquireAct_keeps {pts : List Part} (hw : Within [.loops] pts) {bef : State} (c : Nat) (w : Nat) {s : State}
    (h : bef.Keeps pts s) : bef.Keeps pts (State.loopAcquireAct c w s).2 := by
  unfold State.loopAcquireAct
  repeat' (first
    | with_reducible assumption | ((with_reducible refine Within.sub hw ?_); decide)
    | with_reducible apply State.loopTake_keeps | with_reducible apply keeps_ite | with_reducible apply keeps_ite_snd
    | split | (intro _; intros; try beta_reduce))

theorem State.loopTrackAct_keeps {pts : List Part} (hw : Within [.loops] pts) {bef : State} (c : Nat) (w : Nat) {s : State}
    (h : bef.Keeps pts s) : bef.Keeps pts (State.loopTrackAct c w s).2 := by
  unfold State.loopTrackAct
  repeat' (first
    | with_reducible assumption | ((with_reducible refine Within.sub hw ?_); decide)
    | with_reducible apply State.loopTake_keeps | with_reducible apply keeps_ite | with_reducible apply keeps_ite_snd
    | split | (intro _; intros; try beta_reduce))

theorem State.loopRestartAct_keeps {pts : List Part} (hw : Within [.loops] pts) {bef : State} (c : Nat) (w : Nat) {s : State}
    (h : bef.Keeps pts s) : bef.Keeps pts (State.loopRestartAct c w s).2 := by
  unfold State.loopRestartAct
  repeat' (first
    | with_reducible assumption | ((with_reducible refine Within.sub hw ?_); decide)
    | with_reducible apply State.loopTake_keeps | with_reducible apply keeps_ite | with_reducible apply keeps_ite_snd
    | split | (intro _; intros; try beta_reduce))

theorem State.loopCommandAct_keeps {pts : List Part} (hw : Within [.loops] pts) {bef : State} (c : Nat) (w : Nat) {s : State}
    (h : bef.Keeps pts s) : bef.Keeps pts (State.loopCommandAct c w s).2 := by
  unfold State.loopCommandAct
  repeat' (first
    | with_reducible assumption | ((with_reducible refine Within.sub hw ?_); decide)
    | (fail_if_no_progress extract_lets -underBinder -merge -useContext +onlyGivenNames z
       first
       | (refine keeps_cut (s := z) ?_ ?_; (on_goal 1 => unfold z); on_goal 2 => (intro _; try clear_value z))
       | try clear_value z)
    | with_reducible apply State.loopRestartAct_keeps | with_reducible apply State.loopTrackAct_keeps
    | with_reducible apply State.loopAcquireAct_keeps | with_reducible apply State.loopManualAct_keeps
    | with_reducible apply State.loopOffAct_keeps | with_reducible apply refuse_keeps | with_reducible apply keeps_ite
    | with_reducible apply keeps_ite_snd | split
    | ((with_reducible refine State.keeps_mk hw (by assumption) rfl ?_)
       intro p; cases p <;> (first | exact .inl (by decide) | exact .inr rfl))
    | (intro _; intros; try beta_reduce))

theorem State.loopRow_keeps {pts : List Part} (hw : Within [.out, .od, .hosts, .events] pts) {bef : State} {s : State} (road
    : Road) (c : Nat) (w : Nat) (cmd : Nat) (act : Nat → Nat → State → Nat × State) (h : bef.Keeps pts s) (hact : ∀ y0 y1 y2,
    bef.Keeps pts y2 → bef.Keeps pts (act y0 y1 y2).2) : bef.Keeps pts (State.loopRow s road c w cmd act) := by
  unfold State.loopRow
  repeat' (first
    | with_reducible assumption | with_reducible apply hact | ((with_reducible refine Within.sub hw ?_); decide)
    | with_reducible apply State.writeRow_keeps | with_reducible apply keeps_ite | with_reducible apply keeps_ite_snd
    | split | (intro _; intros; try beta_reduce))

theorem execLoopOff_keeps (dt : Nat) (road : Road) (core : Fin 16) (word : BitVec 32) (s : State) :
    ∃ t, execLoopOff dt road core word s = .next t ∧ (s.elapse dt).Keeps [.out, .od, .hosts, .loops, .events] t := by
  unfold execLoopOff
  refine ⟨_, rfl, ?_⟩
  have hw : Within [.out, .od, .hosts, .loops, .events] [.out, .od, .hosts, .loops, .events] := fun _ h => h
  have h := State.Keeps.refl [.out, .od, .hosts, .loops, .events] (s.elapse dt)
  generalize s.elapse dt = bef at h ⊢
  repeat' (first
    | with_reducible assumption | ((with_reducible refine Within.sub hw ?_); decide)
    | with_reducible apply State.loopRow_keeps | with_reducible apply State.loopOffAct_keeps
    | with_reducible apply keeps_ite | with_reducible apply keeps_ite_snd | split | (intro _; intros; try beta_reduce))

theorem execLoopManual_keeps (dt : Nat) (road : Road) (core : Fin 16) (word : BitVec 32) (s : State) :
    ∃ t, execLoopManual dt road core word s = .next t ∧ (s.elapse dt).Keeps [.out, .od, .hosts, .loops, .events] t := by
  unfold execLoopManual
  refine ⟨_, rfl, ?_⟩
  have hw : Within [.out, .od, .hosts, .loops, .events] [.out, .od, .hosts, .loops, .events] := fun _ h => h
  have h := State.Keeps.refl [.out, .od, .hosts, .loops, .events] (s.elapse dt)
  generalize s.elapse dt = bef at h ⊢
  repeat' (first
    | with_reducible assumption | ((with_reducible refine Within.sub hw ?_); decide)
    | with_reducible apply State.loopRow_keeps | with_reducible apply State.loopManualAct_keeps
    | with_reducible apply keeps_ite | with_reducible apply keeps_ite_snd | split | (intro _; intros; try beta_reduce))

theorem execLoopAcquire_keeps (dt : Nat) (road : Road) (core : Fin 16) (word : BitVec 32) (s : State) :
    ∃ t, execLoopAcquire dt road core word s = .next t ∧ (s.elapse dt).Keeps [.out, .od, .hosts, .loops, .events] t := by
  unfold execLoopAcquire
  refine ⟨_, rfl, ?_⟩
  have hw : Within [.out, .od, .hosts, .loops, .events] [.out, .od, .hosts, .loops, .events] := fun _ h => h
  have h := State.Keeps.refl [.out, .od, .hosts, .loops, .events] (s.elapse dt)
  generalize s.elapse dt = bef at h ⊢
  repeat' (first
    | with_reducible assumption | ((with_reducible refine Within.sub hw ?_); decide)
    | with_reducible apply State.loopRow_keeps | with_reducible apply State.loopAcquireAct_keeps
    | with_reducible apply keeps_ite | with_reducible apply keeps_ite_snd | split | (intro _; intros; try beta_reduce))

theorem execLoopTrack_keeps (dt : Nat) (road : Road) (core : Fin 16) (word : BitVec 32) (s : State) :
    ∃ t, execLoopTrack dt road core word s = .next t ∧ (s.elapse dt).Keeps [.out, .od, .hosts, .loops, .events] t := by
  unfold execLoopTrack
  refine ⟨_, rfl, ?_⟩
  have hw : Within [.out, .od, .hosts, .loops, .events] [.out, .od, .hosts, .loops, .events] := fun _ h => h
  have h := State.Keeps.refl [.out, .od, .hosts, .loops, .events] (s.elapse dt)
  generalize s.elapse dt = bef at h ⊢
  repeat' (first
    | with_reducible assumption | ((with_reducible refine Within.sub hw ?_); decide)
    | with_reducible apply State.loopRow_keeps | with_reducible apply State.loopTrackAct_keeps
    | with_reducible apply keeps_ite | with_reducible apply keeps_ite_snd | split | (intro _; intros; try beta_reduce))

theorem execLoopRestart_keeps (dt : Nat) (road : Road) (core : Fin 16) (word : BitVec 32) (s : State) :
    ∃ t, execLoopRestart dt road core word s = .next t ∧ (s.elapse dt).Keeps [.out, .od, .hosts, .loops, .events] t := by
  unfold execLoopRestart
  refine ⟨_, rfl, ?_⟩
  have hw : Within [.out, .od, .hosts, .loops, .events] [.out, .od, .hosts, .loops, .events] := fun _ h => h
  have h := State.Keeps.refl [.out, .od, .hosts, .loops, .events] (s.elapse dt)
  generalize s.elapse dt = bef at h ⊢
  repeat' (first
    | with_reducible assumption | ((with_reducible refine Within.sub hw ?_); decide)
    | with_reducible apply State.loopRow_keeps | with_reducible apply State.loopRestartAct_keeps
    | with_reducible apply keeps_ite | with_reducible apply keeps_ite_snd | split | (intro _; intros; try beta_reduce))

theorem State.loopConfigAct_keeps {pts : List Part} (hw : Within [.loops] pts) {bef : State} (c : Nat) (data : List Byte) {s
    : State} (h : bef.Keeps pts s) : bef.Keeps pts (State.loopConfigAct c data s).2 := by
  unfold State.loopConfigAct
  repeat' (first
    | with_reducible assumption | ((with_reducible refine Within.sub hw ?_); decide)
    | (fail_if_no_progress extract_lets -underBinder -merge -useContext +onlyGivenNames z
       first
       | (refine keeps_cut (s := z) ?_ ?_; (on_goal 1 => unfold z); on_goal 2 => (intro _; try clear_value z))
       | (refine keeps_cut (s := z.2) ?_ ?_; (on_goal 1 => unfold z); on_goal 2 => (intro _; try clear_value z))
       | (refine keeps_cut (s := z.1) ?_ ?_; (on_goal 1 => unfold z); on_goal 2 => (intro _; try clear_value z))
       | (refine keeps_cut (s := z.2.1) ?_ ?_; (on_goal 1 => unfold z); on_goal 2 => (intro _; try clear_value z))
       | try clear_value z)
    | with_reducible apply refuse_keeps | with_reducible apply accept_keeps | with_reducible apply State.modLoops_keeps
    | with_reducible apply keeps_ite | with_reducible apply keeps_ite_snd | split
    | ((with_reducible refine State.keeps_mk hw (by assumption) rfl ?_)
       intro p; cases p <;> (first | exact .inl (by decide) | exact .inr rfl))
    | with_reducible refine keeps_of_fst (by with_reducible assumption) ?_
    | with_reducible refine keeps_of_snd (by with_reducible assumption) ?_ | (intro _; intros; try beta_reduce))

theorem execLoopConfigWrite_keeps (dt : Nat) (road : Road) (core : Fin 16) (data : List Byte) (s : State) :
    ∃ t, execLoopConfigWrite dt road core data s = .next t ∧ (s.elapse dt).Keeps [.out, .od, .hosts, .loops, .events] t := by
  unfold execLoopConfigWrite
  refine ⟨_, rfl, ?_⟩
  have hw : Within [.out, .od, .hosts, .loops, .events] [.out, .od, .hosts, .loops, .events] := fun _ h => h
  have h := State.Keeps.refl [.out, .od, .hosts, .loops, .events] (s.elapse dt)
  generalize s.elapse dt = bef at h ⊢
  repeat' (first
    | with_reducible assumption | ((with_reducible refine Within.sub hw ?_); decide)
    | with_reducible apply State.loopConfigAct_keeps | with_reducible apply State.writeRow_keeps
    | with_reducible apply keeps_ite | with_reducible apply keeps_ite_snd | split | (intro _; intros; try beta_reduce))

theorem State.coefficientAct_keeps {pts : List Part} (hw : Within [.loops] pts) {bef : State} (c : Nat) (data : List Byte) {s
    : State} (h : bef.Keeps pts s) : bef.Keeps pts (State.coefficientAct c data s).2 := by
  unfold State.coefficientAct
  repeat' (first
    | with_reducible assumption | ((with_reducible refine Within.sub hw ?_); decide)
    | (fail_if_no_progress extract_lets -underBinder -merge -useContext +onlyGivenNames z
       first
       | (refine keeps_cut (s := z) ?_ ?_; (on_goal 1 => unfold z); on_goal 2 => (intro _; try clear_value z))
       | (refine keeps_cut (s := z.2) ?_ ?_; (on_goal 1 => unfold z); on_goal 2 => (intro _; try clear_value z))
       | (refine keeps_cut (s := z.1) ?_ ?_; (on_goal 1 => unfold z); on_goal 2 => (intro _; try clear_value z))
       | (refine keeps_cut (s := z.2.1) ?_ ?_; (on_goal 1 => unfold z); on_goal 2 => (intro _; try clear_value z))
       | try clear_value z)
    | with_reducible apply State.modLoop_keeps | with_reducible apply refuse_keeps | with_reducible apply accept_keeps
    | with_reducible apply keeps_ite | with_reducible apply keeps_ite_snd | split
    | ((with_reducible refine State.keeps_mk hw (by assumption) rfl ?_)
       intro p; cases p <;> (first | exact .inl (by decide) | exact .inr rfl))
    | with_reducible refine keeps_of_fst (by with_reducible assumption) ?_
    | with_reducible refine keeps_of_snd (by with_reducible assumption) ?_ | (intro _; intros; try beta_reduce))

theorem execCoefficientWrite_keeps (dt : Nat) (road : Road) (core : Fin 16) (data : List Byte) (s : State) :
    ∃ t, execCoefficientWrite dt road core data s = .next t ∧ (s.elapse dt).Keeps [.out, .od, .hosts, .loops, .events] t := by
  unfold execCoefficientWrite
  refine ⟨_, rfl, ?_⟩
  have hw : Within [.out, .od, .hosts, .loops, .events] [.out, .od, .hosts, .loops, .events] := fun _ h => h
  have h := State.Keeps.refl [.out, .od, .hosts, .loops, .events] (s.elapse dt)
  generalize s.elapse dt = bef at h ⊢
  repeat' (first
    | with_reducible assumption | ((with_reducible refine Within.sub hw ?_); decide)
    | with_reducible apply State.coefficientAct_keeps | with_reducible apply State.writeRow_keeps
    | with_reducible apply keeps_ite | with_reducible apply keeps_ite_snd | split | (intro _; intros; try beta_reduce))

theorem State.loopValueAct_keeps {pts : List Part} (hw : Within [.od] pts) {bef : State} (c : Nat) (sub : Nat) (v : Nat) {s :
    State} (h : bef.Keeps pts s) : bef.Keeps pts (State.loopValueAct c sub v s).2 := by
  unfold State.loopValueAct
  repeat' (first
    | with_reducible assumption | ((with_reducible refine Within.sub hw ?_); decide) | with_reducible apply store_keeps
    | with_reducible apply refuse_keeps | with_reducible apply keeps_ite | with_reducible apply keeps_ite_snd | split
    | (intro _; intros; try beta_reduce))

theorem State.injectStart_keeps {pts : List Part} (hw : Within [.loops] pts) {bef : State} (c : Nat) (data : List Byte) {s :
    State} (h : bef.Keeps pts s) : bef.Keeps pts (State.injectStart c data s).2 := by
  unfold State.injectStart
  repeat' (first
    | with_reducible assumption | ((with_reducible refine Within.sub hw ?_); decide)
    | (fail_if_no_progress extract_lets -underBinder -merge -useContext +onlyGivenNames z
       first
       | (refine keeps_cut (s := z) ?_ ?_; (on_goal 1 => unfold z); on_goal 2 => (intro _; try clear_value z))
       | try clear_value z)
    | with_reducible apply refuse_keeps | with_reducible apply accept_keeps | with_reducible apply State.modLoops_keeps
    | with_reducible apply keeps_ite | with_reducible apply keeps_ite_snd | split
    | ((with_reducible refine State.keeps_mk hw (by assumption) rfl ?_)
       intro p; cases p <;> (first | exact .inl (by decide) | exact .inr rfl))
    | (intro _; intros; try beta_reduce))

theorem State.injectStepAct_keeps {pts : List Part} (hw : Within [.loops] pts) {bef : State} (c : Nat) (data : List Byte) {s
    : State} (h : bef.Keeps pts s) : bef.Keeps pts (State.injectStepAct c data s).2 := by
  unfold State.injectStepAct
  repeat' (first
    | with_reducible assumption | ((with_reducible refine Within.sub hw ?_); decide)
    | with_reducible apply State.injectStart_keeps | with_reducible apply keeps_ite | with_reducible apply keeps_ite_snd
    | split | (intro _; intros; try beta_reduce))

theorem State.injectPrbsAct_keeps {pts : List Part} (hw : Within [.loops] pts) {bef : State} (c : Nat) (data : List Byte) {s
    : State} (h : bef.Keeps pts s) : bef.Keeps pts (State.injectPrbsAct c data s).2 := by
  unfold State.injectPrbsAct
  repeat' (first
    | with_reducible assumption | ((with_reducible refine Within.sub hw ?_); decide)
    | with_reducible apply State.injectStart_keeps | with_reducible apply keeps_ite | with_reducible apply keeps_ite_snd
    | split | (intro _; intros; try beta_reduce))

theorem State.injectSineAct_keeps {pts : List Part} (hw : Within [.loops] pts) {bef : State} (c : Nat) (data : List Byte) {s
    : State} (h : bef.Keeps pts s) : bef.Keeps pts (State.injectSineAct c data s).2 := by
  unfold State.injectSineAct
  repeat' (first
    | with_reducible assumption | ((with_reducible refine Within.sub hw ?_); decide)
    | with_reducible apply State.injectStart_keeps | with_reducible apply keeps_ite | with_reducible apply keeps_ite_snd
    | split | (intro _; intros; try beta_reduce))

theorem State.injectStopAct_keeps {pts : List Part} (hw : Within [.loops] pts) {bef : State} (c : Nat) (data : List Byte) {s
    : State} (h : bef.Keeps pts s) : bef.Keeps pts (State.injectStopAct c data s).2 := by
  unfold State.injectStopAct
  repeat' (first
    | with_reducible assumption | ((with_reducible refine Within.sub hw ?_); decide)
    | with_reducible apply State.endInjection_keeps | with_reducible apply refuse_keeps | with_reducible apply accept_keeps
    | with_reducible apply keeps_ite | with_reducible apply keeps_ite_snd | split | (intro _; intros; try beta_reduce))

theorem State.injectionAct_keeps {pts : List Part} (hw : Within [.loops] pts) {bef : State} (c : Nat) (data : List Byte) {s :
    State} (h : bef.Keeps pts s) : bef.Keeps pts (State.injectionAct c data s).2 := by
  unfold State.injectionAct
  repeat' (first
    | with_reducible assumption | ((with_reducible refine Within.sub hw ?_); decide)
    | (fail_if_no_progress extract_lets -underBinder -merge -useContext +onlyGivenNames z
       first
       | (refine keeps_cut (s := z) ?_ ?_; (on_goal 1 => unfold z); on_goal 2 => (intro _; try clear_value z))
       | try clear_value z)
    | with_reducible apply State.injectStopAct_keeps | with_reducible apply State.injectSineAct_keeps
    | with_reducible apply State.injectPrbsAct_keeps | with_reducible apply State.injectStepAct_keeps
    | with_reducible apply refuse_keeps | with_reducible apply keeps_ite | with_reducible apply keeps_ite_snd | split
    | ((with_reducible refine State.keeps_mk hw (by assumption) rfl ?_)
       intro p; cases p <;> (first | exact .inl (by decide) | exact .inr rfl))
    | (intro _; intros; try beta_reduce))

theorem State.injectRow_keeps {pts : List Part} (hw : Within [.out, .od, .hosts, .events] pts) {bef : State} {s : State}
    (road : Road) (c : Nat) (data : List Byte) (kind : Nat) (act : Nat → List Byte → State → Nat × State) (h : bef.Keeps pts
    s) (hact : ∀ y0 y1 y2, bef.Keeps pts y2 → bef.Keeps pts (act y0 y1 y2).2) : bef.Keeps pts (State.injectRow s road c data
    kind act) := by
  unfold State.injectRow
  repeat' (first
    | with_reducible assumption | with_reducible apply hact | ((with_reducible refine Within.sub hw ?_); decide)
    | with_reducible apply State.writeRow_keeps | with_reducible apply keeps_ite | with_reducible apply keeps_ite_snd
    | split | (intro _; intros; try beta_reduce))

theorem execInjectStep_keeps (dt : Nat) (road : Road) (core : Fin 16) (data : List Byte) (s : State) :
    ∃ t, execInjectStep dt road core data s = .next t ∧ (s.elapse dt).Keeps [.out, .od, .hosts, .loops, .events] t := by
  unfold execInjectStep
  refine ⟨_, rfl, ?_⟩
  have hw : Within [.out, .od, .hosts, .loops, .events] [.out, .od, .hosts, .loops, .events] := fun _ h => h
  have h := State.Keeps.refl [.out, .od, .hosts, .loops, .events] (s.elapse dt)
  generalize s.elapse dt = bef at h ⊢
  repeat' (first
    | with_reducible assumption | ((with_reducible refine Within.sub hw ?_); decide)
    | with_reducible apply State.injectRow_keeps | with_reducible apply State.injectStepAct_keeps
    | with_reducible apply keeps_ite | with_reducible apply keeps_ite_snd | split | (intro _; intros; try beta_reduce))

theorem execInjectPrbs_keeps (dt : Nat) (road : Road) (core : Fin 16) (data : List Byte) (s : State) :
    ∃ t, execInjectPrbs dt road core data s = .next t ∧ (s.elapse dt).Keeps [.out, .od, .hosts, .loops, .events] t := by
  unfold execInjectPrbs
  refine ⟨_, rfl, ?_⟩
  have hw : Within [.out, .od, .hosts, .loops, .events] [.out, .od, .hosts, .loops, .events] := fun _ h => h
  have h := State.Keeps.refl [.out, .od, .hosts, .loops, .events] (s.elapse dt)
  generalize s.elapse dt = bef at h ⊢
  repeat' (first
    | with_reducible assumption | ((with_reducible refine Within.sub hw ?_); decide)
    | with_reducible apply State.injectRow_keeps | with_reducible apply State.injectPrbsAct_keeps
    | with_reducible apply keeps_ite | with_reducible apply keeps_ite_snd | split | (intro _; intros; try beta_reduce))

theorem execInjectSine_keeps (dt : Nat) (road : Road) (core : Fin 16) (data : List Byte) (s : State) :
    ∃ t, execInjectSine dt road core data s = .next t ∧ (s.elapse dt).Keeps [.out, .od, .hosts, .loops, .events] t := by
  unfold execInjectSine
  refine ⟨_, rfl, ?_⟩
  have hw : Within [.out, .od, .hosts, .loops, .events] [.out, .od, .hosts, .loops, .events] := fun _ h => h
  have h := State.Keeps.refl [.out, .od, .hosts, .loops, .events] (s.elapse dt)
  generalize s.elapse dt = bef at h ⊢
  repeat' (first
    | with_reducible assumption | ((with_reducible refine Within.sub hw ?_); decide)
    | with_reducible apply State.injectRow_keeps | with_reducible apply State.injectSineAct_keeps
    | with_reducible apply keeps_ite | with_reducible apply keeps_ite_snd | split | (intro _; intros; try beta_reduce))

theorem execInjectStop_keeps (dt : Nat) (road : Road) (core : Fin 16) (data : List Byte) (s : State) :
    ∃ t, execInjectStop dt road core data s = .next t ∧ (s.elapse dt).Keeps [.out, .od, .hosts, .loops, .events] t := by
  unfold execInjectStop
  refine ⟨_, rfl, ?_⟩
  have hw : Within [.out, .od, .hosts, .loops, .events] [.out, .od, .hosts, .loops, .events] := fun _ h => h
  have h := State.Keeps.refl [.out, .od, .hosts, .loops, .events] (s.elapse dt)
  generalize s.elapse dt = bef at h ⊢
  repeat' (first
    | with_reducible assumption | ((with_reducible refine Within.sub hw ?_); decide)
    | with_reducible apply State.injectRow_keeps | with_reducible apply State.injectStopAct_keeps
    | with_reducible apply keeps_ite | with_reducible apply keeps_ite_snd | split | (intro _; intros; try beta_reduce))

theorem execInjectionEnd_keeps (dt : Nat) (core : Fin 16) (s : State) :
    ∃ t, execInjectionEnd dt core s = .next t ∧ (s.elapse dt).Keeps [.loops] t := by
  unfold execInjectionEnd
  refine ⟨_, rfl, ?_⟩
  have hw : Within [.loops] [.loops] := fun _ h => h
  have h := State.Keeps.refl [.loops] (s.elapse dt)
  generalize s.elapse dt = bef at h ⊢
  repeat' (first
    | with_reducible assumption | ((with_reducible refine Within.sub hw ?_); decide)
    | (fail_if_no_progress extract_lets -underBinder -merge -useContext +onlyGivenNames z
       first
       | (refine keeps_cut (s := z) ?_ ?_; (on_goal 1 => unfold z); on_goal 2 => (intro _; try clear_value z))
       | try clear_value z)
    | with_reducible apply State.endInjection_keeps | with_reducible apply keeps_ite | with_reducible apply keeps_ite_snd
    | split | (intro _; intros; try beta_reduce))

theorem State.reportLock_keeps {pts : List Part} (hw : Within [.cores] pts) {bef : State} {s : State} (c : Nat) (slot : Nat)
    (h : bef.Keeps pts s) : bef.Keeps pts (State.reportLock s c slot) := by
  unfold State.reportLock
  repeat' (first
    | with_reducible assumption | ((with_reducible refine Within.sub hw ?_); decide)
    | (fail_if_no_progress extract_lets -underBinder -merge -useContext +onlyGivenNames z
       first
       | (refine keeps_cut (s := z) ?_ ?_; (on_goal 1 => unfold z); on_goal 2 => (intro _; try clear_value z))
       | try clear_value z)
    | with_reducible apply State.modCore_keeps | with_reducible apply keeps_ite | with_reducible apply keeps_ite_snd | split
    | ((with_reducible refine State.keeps_mk hw (by assumption) rfl ?_)
       intro p; cases p <;> (first | exact .inl (by decide) | exact .inr rfl))
    | (intro _; intros; try beta_reduce))

theorem State.loopLocked_keeps {pts : List Part} (hw : Within [.od, .cores, .loops] pts) {bef : State} {s : State} (c : Nat)
    (slot : Nat) (h : bef.Keeps pts s) : bef.Keeps pts (State.loopLocked s c slot) := by
  unfold State.loopLocked
  repeat' (first
    | with_reducible assumption | ((with_reducible refine Within.sub hw ?_); decide)
    | (fail_if_no_progress extract_lets -underBinder -merge -useContext +onlyGivenNames z
       first
       | (refine keeps_cut (s := z) ?_ ?_; (on_goal 1 => unfold z); on_goal 2 => (intro _; try clear_value z))
       | (refine keeps_cut (s := z.2) ?_ ?_; (on_goal 1 => unfold z); on_goal 2 => (intro _; try clear_value z))
       | (refine keeps_cut (s := z.1) ?_ ?_; (on_goal 1 => unfold z); on_goal 2 => (intro _; try clear_value z))
       | (refine keeps_cut (s := z.2.1) ?_ ?_; (on_goal 1 => unfold z); on_goal 2 => (intro _; try clear_value z))
       | try clear_value z)
    | with_reducible apply State.reportLock_keeps | with_reducible apply State.holdLoops_keeps
    | with_reducible apply State.loopTo_keeps | with_reducible apply State.modLoop_keeps
    | with_reducible apply State.setVal_keeps | with_reducible apply keeps_ite | with_reducible apply keeps_ite_snd | split
    | ((with_reducible refine State.keeps_mk hw (by assumption) rfl ?_)
       intro p; cases p <;> (first | exact .inl (by decide) | exact .inr rfl))
    | with_reducible refine keeps_of_fst (by with_reducible assumption) ?_
    | with_reducible refine keeps_of_snd (by with_reducible assumption) ?_ | (intro _; intros; try beta_reduce))

theorem execLoopLocked_keeps (dt : Nat) (core : Fin 16) (slot : Fin 1152) (s : State) :
    ∃ t, execLoopLocked dt core slot s = .next t ∧ (s.elapse dt).Keeps [.od, .cores, .loops] t := by
  unfold execLoopLocked
  refine ⟨_, rfl, ?_⟩
  have hw : Within [.od, .cores, .loops] [.od, .cores, .loops] := fun _ h => h
  have h := State.Keeps.refl [.od, .cores, .loops] (s.elapse dt)
  generalize s.elapse dt = bef at h ⊢
  repeat' (first
    | with_reducible assumption | ((with_reducible refine Within.sub hw ?_); decide)
    | with_reducible apply State.loopLocked_keeps | with_reducible apply keeps_ite | with_reducible apply keeps_ite_snd
    | split | (intro _; intros; try beta_reduce))

theorem State.loopUnlocked_keeps {pts : List Part} (hw : Within [.od, .hosts, .loops, .events] pts) {bef : State} {s : State}
    (c : Nat) (slot : Nat) (h : bef.Keeps pts s) : bef.Keeps pts (State.loopUnlocked s c slot) := by
  unfold State.loopUnlocked
  repeat' (first
    | with_reducible assumption | ((with_reducible refine Within.sub hw ?_); decide)
    | (fail_if_no_progress extract_lets -underBinder -merge -useContext +onlyGivenNames z
       first
       | (refine keeps_cut (s := z) ?_ ?_; (on_goal 1 => unfold z); on_goal 2 => (intro _; try clear_value z))
       | try clear_value z)
    | with_reducible apply State.modLoop_keeps | with_reducible apply State.raise_keeps | with_reducible apply keeps_ite
    | with_reducible apply keeps_ite_snd | split
    | ((with_reducible refine State.keeps_mk hw (by assumption) rfl ?_)
       intro p; cases p <;> (first | exact .inl (by decide) | exact .inr rfl))
    | (intro _; intros; try beta_reduce))

theorem execLoopUnlocked_keeps (dt : Nat) (core : Fin 16) (slot : Fin 1152) (s : State) :
    ∃ t, execLoopUnlocked dt core slot s = .next t ∧ (s.elapse dt).Keeps [.od, .hosts, .loops, .events] t := by
  unfold execLoopUnlocked
  refine ⟨_, rfl, ?_⟩
  have hw : Within [.od, .hosts, .loops, .events] [.od, .hosts, .loops, .events] := fun _ h => h
  have h := State.Keeps.refl [.od, .hosts, .loops, .events] (s.elapse dt)
  generalize s.elapse dt = bef at h ⊢
  repeat' (first
    | with_reducible assumption | ((with_reducible refine Within.sub hw ?_); decide)
    | with_reducible apply State.loopUnlocked_keeps | with_reducible apply keeps_ite | with_reducible apply keeps_ite_snd
    | split | (intro _; intros; try beta_reduce))

theorem State.acquireFail_keeps {pts : List Part} (hw : Within [.od, .units, .cores, .engines, .jobs, .epoch, .ports, .hosts,
    .loops, .convs, .events] pts) {bef : State} {s : State} (c : Nat) (slot : Nat) (h : bef.Keeps pts s) : bef.Keeps pts
    (State.acquireFail s c slot) := by
  unfold State.acquireFail
  repeat' (first
    | with_reducible assumption | ((with_reducible refine Within.sub hw ?_); decide)
    | (fail_if_no_progress extract_lets -underBinder -merge -useContext +onlyGivenNames z
       first
       | (refine keeps_cut (s := z) ?_ ?_; (on_goal 1 => unfold z); on_goal 2 => (intro _; try clear_value z))
       | try clear_value z)
    | with_reducible apply State.faultLoop_keeps | with_reducible apply State.raise_keeps | with_reducible apply keeps_ite
    | with_reducible apply keeps_ite_snd | split | (intro _; intros; try beta_reduce))

theorem execLoopAcquireFail_keeps (dt : Nat) (core : Fin 16) (slot : Fin 1152) (s : State) :
    ∃ t, execLoopAcquireFail dt core slot s = .next t ∧ (s.elapse dt).Keeps [.od, .units, .cores, .engines, .jobs, .epoch,
        .ports, .hosts, .loops, .convs, .events] t := by
  unfold execLoopAcquireFail
  refine ⟨_, rfl, ?_⟩
  have hw : Within [.od, .units, .cores, .engines, .jobs, .epoch, .ports, .hosts, .loops, .convs, .events] [.od, .units,
      .cores, .engines, .jobs, .epoch, .ports, .hosts, .loops, .convs, .events] := fun _ h => h
  have h := State.Keeps.refl [.od, .units, .cores, .engines, .jobs, .epoch, .ports, .hosts, .loops, .convs, .events]
      (s.elapse dt)
  generalize s.elapse dt = bef at h ⊢
  repeat' (first
    | with_reducible assumption | ((with_reducible refine Within.sub hw ?_); decide)
    | with_reducible apply State.acquireFail_keeps | with_reducible apply keeps_ite | with_reducible apply keeps_ite_snd
    | split | (intro _; intros; try beta_reduce))

theorem State.loopPlausible_keeps {pts : List Part} (hw : Within [.od, .units, .cores, .engines, .jobs, .epoch, .ports,
    .hosts, .loops, .convs, .events] pts) {bef : State} {s : State} (c : Nat) (slot : Nat) (h : bef.Keeps pts s) : bef.Keeps
    pts (State.loopPlausible s c slot) := by
  unfold State.loopPlausible
  repeat' (first
    | with_reducible assumption | ((with_reducible refine Within.sub hw ?_); decide)
    | (fail_if_no_progress extract_lets -underBinder -merge -useContext +onlyGivenNames z
       first
       | (refine keeps_cut (s := z) ?_ ?_; (on_goal 1 => unfold z); on_goal 2 => (intro _; try clear_value z))
       | try clear_value z)
    | with_reducible apply State.faultLoop_keeps | with_reducible apply State.raise_keeps
    | with_reducible apply State.bump_keeps | with_reducible apply keeps_ite | with_reducible apply keeps_ite_snd | split
    | (intro _; intros; try beta_reduce))

theorem execLoopPlausibility_keeps (dt : Nat) (core : Fin 16) (slot : Fin 1152) (s : State) :
    ∃ t, execLoopPlausibility dt core slot s = .next t ∧ (s.elapse dt).Keeps [.od, .units, .cores, .engines, .jobs, .epoch,
        .ports, .hosts, .loops, .convs, .events] t := by
  unfold execLoopPlausibility
  refine ⟨_, rfl, ?_⟩
  have hw : Within [.od, .units, .cores, .engines, .jobs, .epoch, .ports, .hosts, .loops, .convs, .events] [.od, .units,
      .cores, .engines, .jobs, .epoch, .ports, .hosts, .loops, .convs, .events] := fun _ h => h
  have h := State.Keeps.refl [.od, .units, .cores, .engines, .jobs, .epoch, .ports, .hosts, .loops, .convs, .events]
      (s.elapse dt)
  generalize s.elapse dt = bef at h ⊢
  repeat' (first
    | with_reducible assumption | ((with_reducible refine Within.sub hw ?_); decide)
    | with_reducible apply State.loopPlausible_keeps | with_reducible apply keeps_ite | with_reducible apply keeps_ite_snd
    | split | (intro _; intros; try beta_reduce))

theorem State.loopDeadline_keeps {pts : List Part} (hw : Within [.od, .units, .cores, .engines, .jobs, .epoch, .ports,
    .hosts, .loops, .convs, .events] pts) {bef : State} {s : State} (c : Nat) (slot : Nat) (h : bef.Keeps pts s) : bef.Keeps
    pts (State.loopDeadline s c slot) := by
  unfold State.loopDeadline
  repeat' (first
    | with_reducible assumption | ((with_reducible refine Within.sub hw ?_); decide)
    | (fail_if_no_progress extract_lets -underBinder -merge -useContext +onlyGivenNames z
       first
       | (refine keeps_cut (s := z) ?_ ?_; (on_goal 1 => unfold z); on_goal 2 => (intro _; try clear_value z))
       | try clear_value z)
    | with_reducible apply State.faultLoop_keeps | with_reducible apply State.raise_keeps | with_reducible apply keeps_ite
    | with_reducible apply keeps_ite_snd | split | (intro _; intros; try beta_reduce))

theorem execLoopDeadline_keeps (dt : Nat) (core : Fin 16) (slot : Fin 1152) (s : State) :
    ∃ t, execLoopDeadline dt core slot s = .next t ∧ (s.elapse dt).Keeps [.od, .units, .cores, .engines, .jobs, .epoch,
        .ports, .hosts, .loops, .convs, .events] t := by
  unfold execLoopDeadline
  refine ⟨_, rfl, ?_⟩
  have hw : Within [.od, .units, .cores, .engines, .jobs, .epoch, .ports, .hosts, .loops, .convs, .events] [.od, .units,
      .cores, .engines, .jobs, .epoch, .ports, .hosts, .loops, .convs, .events] := fun _ h => h
  have h := State.Keeps.refl [.od, .units, .cores, .engines, .jobs, .epoch, .ports, .hosts, .loops, .convs, .events]
      (s.elapse dt)
  generalize s.elapse dt = bef at h ⊢
  repeat' (first
    | with_reducible assumption | ((with_reducible refine Within.sub hw ?_); decide)
    | with_reducible apply State.loopDeadline_keeps | with_reducible apply keeps_ite | with_reducible apply keeps_ite_snd
    | split | (intro _; intros; try beta_reduce))

theorem State.adcFault_keeps {pts : List Part} (hw : Within [.od, .units, .cores, .engines, .jobs, .hosts, .loops, .events]
    pts) {bef : State} {s : State} (c : Nat) (v : Nat) (h : bef.Keeps pts s) : bef.Keeps pts (State.adcFault s c v) := by
  unfold State.adcFault
  repeat' (first
    | with_reducible assumption | ((with_reducible refine Within.sub hw ?_); decide)
    | (fail_if_no_progress extract_lets -underBinder -merge -useContext +onlyGivenNames z
       first
       | (refine keeps_cut (s := z) ?_ ?_; (on_goal 1 => unfold z); on_goal 2 => (intro _; try clear_value z))
       | try clear_value z)
    | with_reducible apply State.holdLoops_keeps | with_reducible apply State.fence_keeps
    | with_reducible apply State.raise_keeps | with_reducible apply keeps_ite | with_reducible apply keeps_ite_snd | split
    | (intro _; intros; try beta_reduce))

theorem execAdcReference_keeps (dt : Nat) (core : Fin 16) (adc : Fin 68) (s : State) :
    ∃ t, execAdcReference dt core adc s = .next t ∧ (s.elapse dt).Keeps [.od, .units, .cores, .engines, .jobs, .hosts,
        .loops, .events] t := by
  unfold execAdcReference
  refine ⟨_, rfl, ?_⟩
  have hw : Within [.od, .units, .cores, .engines, .jobs, .hosts, .loops, .events] [.od, .units, .cores, .engines, .jobs,
      .hosts, .loops, .events] := fun _ h => h
  have h := State.Keeps.refl [.od, .units, .cores, .engines, .jobs, .hosts, .loops, .events] (s.elapse dt)
  generalize s.elapse dt = bef at h ⊢
  repeat' (first
    | with_reducible assumption | ((with_reducible refine Within.sub hw ?_); decide)
    | with_reducible apply State.adcFault_keeps | with_reducible apply keeps_ite | with_reducible apply keeps_ite_snd
    | split | (intro _; intros; try beta_reduce))

theorem State.driverFault_keeps {pts : List Part} (hw : Within [.od, .units, .cores, .engines, .jobs, .epoch, .ports, .hosts,
    .loops, .convs, .events] pts) {bef : State} {s : State} (c : Nat) (ch : Nat) (h : bef.Keeps pts s) : bef.Keeps pts
    (State.driverFault s c ch) := by
  unfold State.driverFault
  repeat' (first
    | with_reducible assumption | ((with_reducible refine Within.sub hw ?_); decide)
    | (fail_if_no_progress extract_lets -underBinder -merge -useContext +onlyGivenNames z
       first
       | (refine keeps_cut (s := z) ?_ ?_; (on_goal 1 => unfold z); on_goal 2 => (intro _; try clear_value z))
       | (refine keeps_cut (s := z.2) ?_ ?_; (on_goal 1 => unfold z); on_goal 2 => (intro _; try clear_value z))
       | (refine keeps_cut (s := z.1) ?_ ?_; (on_goal 1 => unfold z); on_goal 2 => (intro _; try clear_value z))
       | (refine keeps_cut (s := z.2.1) ?_ ?_; (on_goal 1 => unfold z); on_goal 2 => (intro _; try clear_value z))
       | try clear_value z)
    | with_reducible apply State.faultLoop_keeps | with_reducible apply State.modChannel_keeps
    | with_reducible apply State.raise_keeps | with_reducible apply State.bump_keeps | with_reducible apply keeps_foldl
    | with_reducible apply keeps_foldl_fst | with_reducible apply keeps_foldl_snd | with_reducible apply keeps_foldl_mid
    | with_reducible apply keeps_ite | with_reducible apply keeps_ite_snd | split
    | ((with_reducible refine State.keeps_mk hw (by assumption) rfl ?_)
       intro p; cases p <;> (first | exact .inl (by decide) | exact .inr rfl))
    | (intro _; intros; try beta_reduce))

theorem execDacDriverFault_keeps (dt : Nat) (core : Fin 16) (channel : Fin 1120) (_cause : DriverFault) (s : State) :
    ∃ t, execDacDriverFault dt core channel _cause s = .next t ∧ (s.elapse dt).Keeps [.od, .units, .cores, .engines, .jobs,
        .epoch, .ports, .hosts, .loops, .convs, .events] t := by
  unfold execDacDriverFault
  refine ⟨_, rfl, ?_⟩
  have hw : Within [.od, .units, .cores, .engines, .jobs, .epoch, .ports, .hosts, .loops, .convs, .events] [.od, .units,
      .cores, .engines, .jobs, .epoch, .ports, .hosts, .loops, .convs, .events] := fun _ h => h
  have h := State.Keeps.refl [.od, .units, .cores, .engines, .jobs, .epoch, .ports, .hosts, .loops, .convs, .events]
      (s.elapse dt)
  generalize s.elapse dt = bef at h ⊢
  repeat' (first
    | with_reducible assumption | ((with_reducible refine Within.sub hw ?_); decide)
    | with_reducible apply State.driverFault_keeps | with_reducible apply keeps_ite | with_reducible apply keeps_ite_snd
    | split | (intro _; intros; try beta_reduce))

end Sys2Proof.Machine
end

