-- ==== Sys2Proof/Laws/KeepsLevers.lean ====
section
/-! SUPPORT. What the operations of Machine/Levers.lean keep. -/

namespace Sys2Proof.Machine

theorem State.restretch_keeps {pts : List Part} (hw : Within [.cores] pts) {bef : State} {s : State} (c : Nat) (h : bef.Keeps
    pts s) : bef.Keeps pts (State.restretch s c) := by
  unfold State.restretch
  repeat' (first
    | with_reducible assumption | ((with_reducible refine Within.sub hw ?_); decide)
    | (fail_if_no_progress extract_lets -underBinder -merge -useContext +onlyGivenNames z
       first
       | (refine keeps_cut (s := z) ?_ ?_; (on_goal 1 => unfold z); on_goal 2 => (intro _; try clear_value z))
       | try clear_value z)
    | with_reducible apply State.modCore_keeps | with_reducible apply keeps_ite | with_reducible apply keeps_ite_snd | split
    | ((with_reducible refine State.keeps_mk hw (by assumption) rfl ?_)
       intro p; cases p <;> (first | exact .inl (by decide) | exact .inr rfl))
    | (intro _; intros; try beta_reduce))

theorem State.restretchAll_keeps {pts : List Part} (hw : Within [.cores] pts) {bef : State} {s : State} (h : bef.Keeps pts s)
    : bef.Keeps pts (State.restretchAll s) := by
  unfold State.restretchAll
  repeat' (first
    | with_reducible assumption | ((with_reducible refine Within.sub hw ?_); decide)
    | with_reducible apply State.restretch_keeps | with_reducible apply keeps_forRange | with_reducible apply keeps_ite
    | with_reducible apply keeps_ite_snd | split | (intro _; intros; try beta_reduce))

end Sys2Proof.Machine
end

