-- ==== Sys2Proof/Laws/KeepsPace.lean ====
section
/-! SUPPORT. What the operations of Machine/Pace.lean keep. -/

namespace Sys2Proof.Machine

theorem execPaceMeasure_keeps (dt : Nat) (core : Fin 16) (monitors : List Nat) (s : State) :
    ∃ t, execPaceMeasure dt core monitors s = .next t ∧ (s.elapse dt).Keeps [.cores] t := by
  unfold execPaceMeasure
  refine ⟨_, rfl, ?_⟩
  have hw : Within [.cores] [.cores] := fun _ h => h
  have h := State.Keeps.refl [.cores] (s.elapse dt)
  generalize s.elapse dt = bef at h ⊢
  repeat' (first
    | with_reducible assumption | ((with_reducible refine Within.sub hw ?_); decide)
    | (fail_if_no_progress extract_lets -underBinder -merge -useContext +onlyGivenNames z
       first
       | (refine keeps_cut (s := z) ?_ ?_; (on_goal 1 => unfold z); on_goal 2 => (intro _; try clear_value z))
       | try clear_value z)
    | with_reducible apply State.modCore_keeps | with_reducible apply keeps_ite | with_reducible apply keeps_ite_snd | split
    | ((with_reducible refine State.keeps_mk hw (by assumption) rfl ?_)
       intro p; cases p <;> (first | exact .inl (by decide) | exact .inr rfl))
    | (intro _; intros; try beta_reduce))

theorem State.voltageStep_keeps {pts : List Part} (hw : Within [.od, .cores] pts) {bef : State} {s : State} (c : Nat)
    (paceAtNext : List Nat) (h : bef.Keeps pts s) : bef.Keeps pts (State.voltageStep s c paceAtNext) := by
  unfold State.voltageStep
  repeat' (first
    | with_reducible assumption | ((with_reducible refine Within.sub hw ?_); decide)
    | (fail_if_no_progress extract_lets -underBinder -merge -useContext +onlyGivenNames z
       first
       | (refine keeps_cut (s := z) ?_ ?_; (on_goal 1 => unfold z); on_goal 2 => (intro _; try clear_value z))
       | try clear_value z)
    | with_reducible apply State.restretch_keeps | with_reducible apply State.bump_keeps
    | with_reducible apply State.modCore_keeps | with_reducible apply keeps_ite | with_reducible apply keeps_ite_snd | split
    | ((with_reducible refine State.keeps_mk hw (by assumption) rfl ?_)
       intro p; cases p <;> (first | exact .inl (by decide) | exact .inr rfl))
    | (intro _; intros; try beta_reduce))

theorem execVoltageStep_keeps (dt : Nat) (core : Fin 16) (paceAtNext : List Nat) (s : State) :
    ∃ t, execVoltageStep dt core paceAtNext s = .next t ∧ (s.elapse dt).Keeps [.od, .cores] t := by
  unfold execVoltageStep
  refine ⟨_, rfl, ?_⟩
  have hw : Within [.od, .cores] [.od, .cores] := fun _ h => h
  have h := State.Keeps.refl [.od, .cores] (s.elapse dt)
  generalize s.elapse dt = bef at h ⊢
  repeat' (first
    | with_reducible assumption | ((with_reducible refine Within.sub hw ?_); decide)
    | with_reducible apply State.voltageStep_keeps | with_reducible apply keeps_ite | with_reducible apply keeps_ite_snd
    | split | (intro _; intros; try beta_reduce))

theorem State.landTagged_keeps {pts : List Part} (hw : Within [.mem] pts) {bef : State} {s : State} (addr : Nat) (data : List
    Byte) (h : bef.Keeps pts s) : bef.Keeps pts (State.landTagged s addr data) := by
  unfold State.landTagged
  repeat' (first
    | with_reducible assumption | ((with_reducible refine Within.sub hw ?_); decide)
    | (fail_if_no_progress extract_lets -underBinder -merge -useContext +onlyGivenNames z
       first
       | (refine keeps_cut (s := z) ?_ ?_; (on_goal 1 => unfold z); on_goal 2 => (intro _; try clear_value z))
       | try clear_value z)
    | with_reducible apply State.storeBytes_keeps | with_reducible apply keeps_ite | with_reducible apply keeps_ite_snd
    | split
    | ((with_reducible refine State.keeps_mk hw (by assumption) rfl ?_)
       intro p; cases p <;> (first | exact .inl (by decide) | exact .inr rfl))
    | (intro _; intros; try beta_reduce))

theorem State.intoPail_keeps {pts : List Part} (hw : Within [.od, .cores] pts) {bef : State} {s : State} (c : Nat) (i :
    PailItem) (h : bef.Keeps pts s) : bef.Keeps pts (State.intoPail s c i) := by
  unfold State.intoPail
  repeat' (first
    | with_reducible assumption | ((with_reducible refine Within.sub hw ?_); decide)
    | (fail_if_no_progress extract_lets -underBinder -merge -useContext +onlyGivenNames z
       first
       | (refine keeps_cut (s := z) ?_ ?_; (on_goal 1 => unfold z); on_goal 2 => (intro _; try clear_value z))
       | try clear_value z)
    | with_reducible apply State.bump_keeps | with_reducible apply State.modCore_keeps | with_reducible apply keeps_ite
    | with_reducible apply keeps_ite_snd | split
    | ((with_reducible refine State.keeps_mk hw (by assumption) rfl ?_)
       intro p; cases p <;> (first | exact .inl (by decide) | exact .inr rfl))
    | (intro _; intros; try beta_reduce))

theorem State.tagged_keeps {pts : List Part} (hw : Within [.od, .mem, .cores] pts) {bef : State} {s : State} (c : Nat) (j :
    Nat) (tag : Nat) (addr : Nat) (data : List Byte) (h : bef.Keeps pts s) : bef.Keeps pts (State.tagged s c j tag addr data)
    := by
  unfold State.tagged
  repeat' (first
    | with_reducible assumption | ((with_reducible refine Within.sub hw ?_); decide)
    | (fail_if_no_progress extract_lets -underBinder -merge -useContext +onlyGivenNames z
       first
       | (refine keeps_cut (s := z) ?_ ?_; (on_goal 1 => unfold z); on_goal 2 => (intro _; try clear_value z))
       | try clear_value z)
    | with_reducible apply State.intoPail_keeps | with_reducible apply State.landTagged_keeps
    | with_reducible apply State.bump_keeps | with_reducible apply keeps_ite | with_reducible apply keeps_ite_snd | split
    | ((with_reducible refine State.keeps_mk hw (by assumption) rfl ?_)
       intro p; cases p <;> (first | exact .inl (by decide) | exact .inr rfl))
    | (intro _; intros; try beta_reduce))

theorem execTaggedDataArrival_keeps (dt : Nat) (core : Fin 16) (job : Fin 8) (tag : BitVec 32) (addr : BitVec 64) (data :
    List Byte) (s : State) :
    ∃ t, execTaggedDataArrival dt core job tag addr data s = .next t ∧ (s.elapse dt).Keeps [.od, .mem, .cores] t := by
  unfold execTaggedDataArrival
  refine ⟨_, rfl, ?_⟩
  have hw : Within [.od, .mem, .cores] [.od, .mem, .cores] := fun _ h => h
  have h := State.Keeps.refl [.od, .mem, .cores] (s.elapse dt)
  generalize s.elapse dt = bef at h ⊢
  repeat' (first
    | with_reducible assumption | ((with_reducible refine Within.sub hw ?_); decide)
    | with_reducible apply State.tagged_keeps | with_reducible apply keeps_ite | with_reducible apply keeps_ite_snd | split
    | (intro _; intros; try beta_reduce))

theorem State.orphansOut_keeps {pts : List Part} (hw : Within [.od, .cores] pts) {bef : State} {s : State} (c : Nat) (h :
    bef.Keeps pts s) : bef.Keeps pts (State.orphansOut s c) := by
  unfold State.orphansOut
  repeat' (first
    | with_reducible assumption | ((with_reducible refine Within.sub hw ?_); decide)
    | (fail_if_no_progress extract_lets -underBinder -merge -useContext +onlyGivenNames z
       first
       | (refine keeps_cut (s := z) ?_ ?_; (on_goal 1 => unfold z); on_goal 2 => (intro _; try clear_value z))
       | try clear_value z)
    | with_reducible apply State.bump_keeps | with_reducible apply State.modCore_keeps | with_reducible apply keeps_ite
    | with_reducible apply keeps_ite_snd | split
    | ((with_reducible refine State.keeps_mk hw (by assumption) rfl ?_)
       intro p; cases p <;> (first | exact .inl (by decide) | exact .inr rfl))
    | (intro _; intros; try beta_reduce))

theorem execOrphanLimit_keeps (dt : Nat) (core : Fin 16) (s : State) :
    ∃ t, execOrphanLimit dt core s = .next t ∧ (s.elapse dt).Keeps [.od, .cores] t := by
  unfold execOrphanLimit
  refine ⟨_, rfl, ?_⟩
  have hw : Within [.od, .cores] [.od, .cores] := fun _ h => h
  have h := State.Keeps.refl [.od, .cores] (s.elapse dt)
  generalize s.elapse dt = bef at h ⊢
  repeat' (first
    | with_reducible assumption | ((with_reducible refine Within.sub hw ?_); decide)
    | with_reducible apply State.orphansOut_keeps | with_reducible apply keeps_ite | with_reducible apply keeps_ite_snd
    | split | (intro _; intros; try beta_reduce))

theorem State.adoptOrphans_keeps {pts : List Part} (hw : Within [.cores] pts) {bef : State} {s : State} (j : Nat) (tag : Nat)
    (h : bef.Keeps pts s) : bef.Keeps pts (State.adoptOrphans s j tag) := by
  unfold State.adoptOrphans
  repeat' (first
    | with_reducible assumption | ((with_reducible refine Within.sub hw ?_); decide)
    | (fail_if_no_progress extract_lets -underBinder -merge -useContext +onlyGivenNames z
       first
       | (refine keeps_cut (s := z) ?_ ?_; (on_goal 1 => unfold z); on_goal 2 => (intro _; try clear_value z))
       | try clear_value z)
    | with_reducible apply State.modCore_keeps | with_reducible apply keeps_forRange | with_reducible apply keeps_ite
    | with_reducible apply keeps_ite_snd | split
    | ((with_reducible refine State.keeps_mk hw (by assumption) rfl ?_)
       intro p; cases p <;> (first | exact .inl (by decide) | exact .inr rfl))
    | (intro _; intros; try beta_reduce))

theorem State.closeLaunch_keeps {pts : List Part} (hw : Within [.od, .cores, .sched] pts) {bef : State} {s : State} (j : Nat)
    (tag : Nat) (h : bef.Keeps pts s) : bef.Keeps pts (State.closeLaunch s j tag) := by
  unfold State.closeLaunch
  repeat' (first
    | with_reducible assumption | ((with_reducible refine Within.sub hw ?_); decide)
    | (fail_if_no_progress extract_lets -underBinder -merge -useContext +onlyGivenNames z
       first
       | (refine keeps_cut (s := z) ?_ ?_; (on_goal 1 => unfold z); on_goal 2 => (intro _; try clear_value z))
       | try clear_value z)
    | with_reducible apply State.bump_keeps | with_reducible apply State.modCore_keeps | with_reducible apply keeps_forRange
    | with_reducible apply keeps_ite | with_reducible apply keeps_ite_snd | split
    | ((with_reducible refine State.keeps_mk hw (by assumption) rfl ?_)
       intro p; cases p <;> (first | exact .inl (by decide) | exact .inr rfl))
    | (intro _; intros; try beta_reduce))

theorem State.pailCopy_keeps {pts : List Part} (hw : Within [.mem, .cores] pts) {bef : State} {s : State} (j : Nat) (tag :
    Nat) (h : bef.Keeps pts s) : bef.Keeps pts (State.pailCopy s j tag) := by
  unfold State.pailCopy
  repeat' (first
    | with_reducible assumption | ((with_reducible refine Within.sub hw ?_); decide)
    | (fail_if_no_progress extract_lets -underBinder -merge -useContext +onlyGivenNames z
       first
       | (refine keeps_cut (s := z) ?_ ?_; (on_goal 1 => unfold z); on_goal 2 => (intro _; try clear_value z))
       | try clear_value z)
    | with_reducible apply State.landTagged_keeps | with_reducible apply State.modCore_keeps
    | with_reducible apply keeps_foldl | with_reducible apply keeps_forRange | with_reducible apply keeps_ite
    | with_reducible apply keeps_ite_snd | split | (intro _; intros; try beta_reduce))

end Sys2Proof.Machine
end

