-- ==== Sys2Proof/Laws/KeepsLaunches.lean ====
section
/-! SUPPORT. What the operations of Machine/Launches.lean keep. -/

namespace Sys2Proof.Machine

theorem State.refuseRecord_keeps {pts : List Part} (hw : Within [.od, .cores, .sched] pts) {bef : State} {s : State} (r :
    Record) (h : bef.Keeps pts s) : bef.Keeps pts (State.refuseRecord s r) := by
  unfold State.refuseRecord
  repeat' (first
    | with_reducible assumption | ((with_reducible refine Within.sub hw ?_); decide)
    | (fail_if_no_progress extract_lets -underBinder -merge -useContext +onlyGivenNames z
       first
       | (refine keeps_cut (s := z) ?_ ?_; (on_goal 1 => unfold z); on_goal 2 => (intro _; try clear_value z))
       | (refine keeps_cut (s := z.2) ?_ ?_; (on_goal 1 => unfold z); on_goal 2 => (intro _; try clear_value z))
       | (refine keeps_cut (s := z.1) ?_ ?_; (on_goal 1 => unfold z); on_goal 2 => (intro _; try clear_value z))
       | (refine keeps_cut (s := z.2.1) ?_ ?_; (on_goal 1 => unfold z); on_goal 2 => (intro _; try clear_value z))
       | try clear_value z)
    | with_reducible apply State.closeLaunch_keeps | with_reducible apply State.bump_keeps | with_reducible apply keeps_ite
    | with_reducible apply keeps_ite_snd | split | with_reducible refine keeps_of_fst (by with_reducible assumption) ?_
    | with_reducible refine keeps_of_snd (by with_reducible assumption) ?_ | (intro _; intros; try beta_reduce))

theorem State.acceptStep_keeps {pts : List Part} (hw : Within [.od, .cores, .sched] pts) {bef : State} {s : State} (r :
    Record) (cross : Bool) (streams : List (Nat × Nat)) (h : bef.Keeps pts s) : bef.Keeps pts (State.acceptStep s r cross
    streams) := by
  unfold State.acceptStep
  repeat' (first
    | with_reducible assumption | ((with_reducible refine Within.sub hw ?_); decide)
    | (fail_if_no_progress extract_lets -underBinder -merge -useContext +onlyGivenNames z
       first
       | (refine keeps_cut (s := z) ?_ ?_; (on_goal 1 => unfold z); on_goal 2 => (intro _; try clear_value z))
       | try clear_value z)
    | with_reducible apply State.adoptOrphans_keeps | with_reducible apply State.bump_keeps | with_reducible apply keeps_ite
    | with_reducible apply keeps_ite_snd | split
    | ((with_reducible refine State.keeps_mk hw (by assumption) rfl ?_)
       intro p; cases p <;> (first | exact .inl (by decide) | exact .inr rfl))
    | (intro _; intros; try beta_reduce))

theorem State.dropLaunch_keeps {pts : List Part} (hw : Within [.sched] pts) {bef : State} {s : State} (j : Nat) (tag : Nat)
    (h : bef.Keeps pts s) : bef.Keeps pts (State.dropLaunch s j tag) := by
  unfold State.dropLaunch
  repeat' (first
    | with_reducible assumption | ((with_reducible refine Within.sub hw ?_); decide)
    | (fail_if_no_progress extract_lets -underBinder -merge -useContext +onlyGivenNames z
       first
       | (refine keeps_cut (s := z) ?_ ?_; (on_goal 1 => unfold z); on_goal 2 => (intro _; try clear_value z))
       | try clear_value z)
    | with_reducible apply keeps_ite | with_reducible apply keeps_ite_snd | split
    | ((with_reducible refine State.keeps_mk hw (by assumption) rfl ?_)
       intro p; cases p <;> (first | exact .inl (by decide) | exact .inr rfl))
    | (intro _; intros; try beta_reduce))

theorem State.acceptCancel_keeps {pts : List Part} (hw : Within [.od, .cores, .sched] pts) {bef : State} {s : State} (r :
    Record) (h : bef.Keeps pts s) : bef.Keeps pts (State.acceptCancel s r) := by
  unfold State.acceptCancel
  repeat' (first
    | with_reducible assumption | ((with_reducible refine Within.sub hw ?_); decide)
    | with_reducible apply State.dropLaunch_keeps | with_reducible apply State.closeLaunch_keeps
    | with_reducible apply State.bump_keeps | with_reducible apply keeps_ite | with_reducible apply keeps_ite_snd | split
    | (intro _; intros; try beta_reduce))

theorem State.launchRecord_keeps {pts : List Part} (hw : Within [.od, .cores, .sched, .hosts, .events] pts) {bef : State} {s
    : State} (r : Record) (src : LaunchSource) (streams : List (Nat × Nat)) (h : bef.Keeps pts s) : bef.Keeps pts
    (State.launchRecord s r src streams).2 := by
  unfold State.launchRecord
  repeat' (first
    | with_reducible assumption | ((with_reducible refine Within.sub hw ?_); decide)
    | (fail_if_no_progress extract_lets -underBinder -merge -useContext +onlyGivenNames z
       first
       | (refine keeps_cut (s := z) ?_ ?_; (on_goal 1 => unfold z); on_goal 2 => (intro _; try clear_value z))
       | try clear_value z)
    | with_reducible apply State.acceptCancel_keeps | with_reducible apply State.acceptStep_keeps
    | with_reducible apply State.refuseRecord_keeps | with_reducible apply State.denyUnknown_keeps
    | with_reducible apply State.denyEntry_keeps | with_reducible apply keeps_ite | with_reducible apply keeps_ite_snd
    | split
    | ((with_reducible refine State.keeps_mk hw (by assumption) rfl ?_)
       intro p; cases p <;> (first | exact .inl (by decide) | exact .inr rfl))
    | (intro _; intros; try beta_reduce))

theorem State.launchRq_keeps {pts : List Part} (hw : Within [.out, .od, .mem, .cores, .sched, .hosts, .events] pts) {bef :
    State} (r : Rq) {s : State} (h : bef.Keeps pts s) : bef.Keeps pts (State.launchRq r s) := by
  unfold State.launchRq
  repeat' (first
    | with_reducible assumption | ((with_reducible refine Within.sub hw ?_); decide)
    | (fail_if_no_progress extract_lets -underBinder -merge -useContext +onlyGivenNames z
       first
       | (refine keeps_cut (s := z) ?_ ?_; (on_goal 1 => unfold z); on_goal 2 => (intro _; try clear_value z))
       | (refine keeps_cut (s := z.2) ?_ ?_; (on_goal 1 => unfold z); on_goal 2 => (intro _; try clear_value z))
       | (refine keeps_cut (s := z.1) ?_ ?_; (on_goal 1 => unfold z); on_goal 2 => (intro _; try clear_value z))
       | (refine keeps_cut (s := z.2.1) ?_ ?_; (on_goal 1 => unfold z); on_goal 2 => (intro _; try clear_value z))
       | try clear_value z)
    | with_reducible apply State.launchRecord_keeps | with_reducible apply State.answer_keeps
    | with_reducible apply State.drop_keeps | with_reducible apply keeps_ite | with_reducible apply keeps_ite_snd | split
    | (intro _; intros; try beta_reduce))

theorem State.serveLaunch_keeps {pts : List Part} (hw : Within [.out, .od, .mem, .cores, .sched, .hosts, .round, .events]
    pts) {bef : State} {s : State} (cancel : Bool) (h : bef.Keeps pts s) : bef.Keeps pts (State.serveLaunch s cancel) := by
  unfold State.serveLaunch
  repeat' (first
    | with_reducible assumption | ((with_reducible refine Within.sub hw ?_); decide)
    | (fail_if_no_progress extract_lets -underBinder -merge -useContext +onlyGivenNames z
       first
       | (refine keeps_cut (s := z) ?_ ?_; (on_goal 1 => unfold z); on_goal 2 => (intro _; try clear_value z))
       | (refine keeps_cut (s := z.2) ?_ ?_; (on_goal 1 => unfold z); on_goal 2 => (intro _; try clear_value z))
       | (refine keeps_cut (s := z.1) ?_ ?_; (on_goal 1 => unfold z); on_goal 2 => (intro _; try clear_value z))
       | (refine keeps_cut (s := z.2.1) ?_ ?_; (on_goal 1 => unfold z); on_goal 2 => (intro _; try clear_value z))
       | try clear_value z)
    | with_reducible apply State.launchRq_keeps | with_reducible apply State.takeRequest_keeps
    | with_reducible apply keeps_ite | with_reducible apply keeps_ite_snd | split
    | ((with_reducible refine State.keeps_mk hw (by assumption) rfl ?_)
       intro p; cases p <;> (first | exact .inl (by decide) | exact .inr rfl))
    | with_reducible refine keeps_of_fst (by with_reducible assumption) ?_
    | with_reducible refine keeps_of_snd (by with_reducible assumption) ?_ | (intro _; intros; try beta_reduce))

theorem State.arriveRecord_keeps {pts : List Part} (hw : Within [.out, .od, .mem, .cores, .sched, .hosts, .round, .events]
    pts) {bef : State} {s : State} (path : LaunchPath) (cancel : Bool) (h : bef.Keeps pts s) : bef.Keeps pts
    (State.arriveRecord s path cancel) := by
  unfold State.arriveRecord
  repeat' (first
    | with_reducible assumption | ((with_reducible refine Within.sub hw ?_); decide)
    | (fail_if_no_progress extract_lets -underBinder -merge -useContext +onlyGivenNames z
       first
       | (refine keeps_cut (s := z) ?_ ?_; (on_goal 1 => unfold z); on_goal 2 => (intro _; try clear_value z))
       | (refine keeps_cut (s := z.2) ?_ ?_; (on_goal 1 => unfold z); on_goal 2 => (intro _; try clear_value z))
       | (refine keeps_cut (s := z.1) ?_ ?_; (on_goal 1 => unfold z); on_goal 2 => (intro _; try clear_value z))
       | (refine keeps_cut (s := z.2.1) ?_ ?_; (on_goal 1 => unfold z); on_goal 2 => (intro _; try clear_value z))
       | try clear_value z)
    | with_reducible apply State.serveLaunch_keeps | with_reducible apply State.launchRecord_keeps
    | with_reducible apply State.done_keeps | with_reducible apply keeps_ite | with_reducible apply keeps_ite_snd | split
    | ((with_reducible refine State.keeps_mk hw (by assumption) rfl ?_)
       intro p; cases p <;> (first | exact .inl (by decide) | exact .inr rfl))
    | (intro _; intros; try beta_reduce))

theorem execLaunchStep_keeps (dt : Nat) (path : LaunchPath) (s : State) :
    ∃ t, execLaunchStep dt path s = .next t ∧ (s.elapse dt).Keeps [.out, .od, .mem, .cores, .sched, .hosts, .round, .events]
        t := by
  unfold execLaunchStep
  refine ⟨_, rfl, ?_⟩
  have hw : Within [.out, .od, .mem, .cores, .sched, .hosts, .round, .events] [.out, .od, .mem, .cores, .sched, .hosts,
      .round, .events] := fun _ h => h
  have h := State.Keeps.refl [.out, .od, .mem, .cores, .sched, .hosts, .round, .events] (s.elapse dt)
  generalize s.elapse dt = bef at h ⊢
  repeat' (first
    | with_reducible assumption | ((with_reducible refine Within.sub hw ?_); decide)
    | with_reducible apply State.arriveRecord_keeps | with_reducible apply keeps_ite | with_reducible apply keeps_ite_snd
    | split | (intro _; intros; try beta_reduce))

theorem execLaunchCancel_keeps (dt : Nat) (path : LaunchPath) (s : State) :
    ∃ t, execLaunchCancel dt path s = .next t ∧ (s.elapse dt).Keeps [.out, .od, .mem, .cores, .sched, .hosts, .round,
        .events] t := by
  unfold execLaunchCancel
  refine ⟨_, rfl, ?_⟩
  have hw : Within [.out, .od, .mem, .cores, .sched, .hosts, .round, .events] [.out, .od, .mem, .cores, .sched, .hosts,
      .round, .events] := fun _ h => h
  have h := State.Keeps.refl [.out, .od, .mem, .cores, .sched, .hosts, .round, .events] (s.elapse dt)
  generalize s.elapse dt = bef at h ⊢
  repeat' (first
    | with_reducible assumption | ((with_reducible refine Within.sub hw ?_); decide)
    | with_reducible apply State.arriveRecord_keeps | with_reducible apply keeps_ite | with_reducible apply keeps_ite_snd
    | split | (intro _; intros; try beta_reduce))

theorem State.launchFrame_keeps {pts : List Part} (hw : Within [.od, .cores, .sched, .hosts, .events] pts) {bef : State} {s :
    State} (port : Nat) (src : BitVec 128) (dport : Nat) (b : List Byte) (h : bef.Keeps pts s) : bef.Keeps pts
    (State.launchFrame s port src dport b) := by
  unfold State.launchFrame
  repeat' (first
    | with_reducible assumption | ((with_reducible refine Within.sub hw ?_); decide)
    | (fail_if_no_progress extract_lets -underBinder -merge -useContext +onlyGivenNames z
       first
       | (refine keeps_cut (s := z) ?_ ?_; (on_goal 1 => unfold z); on_goal 2 => (intro _; try clear_value z))
       | (refine keeps_cut (s := z.2) ?_ ?_; (on_goal 1 => unfold z); on_goal 2 => (intro _; try clear_value z))
       | (refine keeps_cut (s := z.1) ?_ ?_; (on_goal 1 => unfold z); on_goal 2 => (intro _; try clear_value z))
       | (refine keeps_cut (s := z.2.1) ?_ ?_; (on_goal 1 => unfold z); on_goal 2 => (intro _; try clear_value z))
       | try clear_value z)
    | with_reducible apply State.launchRecord_keeps | with_reducible apply State.drop_keeps
    | with_reducible apply State.bump_keeps | with_reducible apply keeps_forRange | with_reducible apply keeps_forRange_fst
    | with_reducible apply keeps_forRange_snd | with_reducible apply keeps_ite | with_reducible apply keeps_ite_snd | split
    | ((with_reducible refine State.keeps_mk hw (by assumption) rfl ?_)
       intro p; cases p <;> (first | exact .inl (by decide) | exact .inr rfl))
    | with_reducible refine keeps_of_fst (by with_reducible assumption) ?_
    | with_reducible refine keeps_of_snd (by with_reducible assumption) ?_ | (intro _; intros; try beta_reduce))

theorem execLaunchFrame_keeps (dt : Nat) (port : Fin 128) (src : BitVec 128) (dport : BitVec 16) (data : List Byte) (s :
    State) :
    ∃ t, execLaunchFrame dt port src dport data s = .next t ∧ (s.elapse dt).Keeps [.od, .cores, .sched, .hosts, .events] t := by
  unfold execLaunchFrame
  refine ⟨_, rfl, ?_⟩
  have hw : Within [.od, .cores, .sched, .hosts, .events] [.od, .cores, .sched, .hosts, .events] := fun _ h => h
  have h := State.Keeps.refl [.od, .cores, .sched, .hosts, .events] (s.elapse dt)
  generalize s.elapse dt = bef at h ⊢
  repeat' (first
    | with_reducible assumption | ((with_reducible refine Within.sub hw ?_); decide)
    | with_reducible apply State.launchFrame_keeps | with_reducible apply keeps_ite | with_reducible apply keeps_ite_snd
    | split | (intro _; intros; try beta_reduce))

theorem State.postStep_keeps {pts : List Part} (hw : Within [.out, .od, .mem, .hosts] pts) {bef : State} {s : State} (j :
    Nat) (status : Nat) (tokens : Nat) (number : Nat) (h : bef.Keeps pts s) : bef.Keeps pts (State.postStep s j status tokens
    number) := by
  unfold State.postStep
  repeat' (first
    | with_reducible assumption | ((with_reducible refine Within.sub hw ?_); decide)
    | (fail_if_no_progress extract_lets -underBinder -merge -useContext +onlyGivenNames z
       first
       | (refine keeps_cut (s := z) ?_ ?_; (on_goal 1 => unfold z); on_goal 2 => (intro _; try clear_value z))
       | (refine keeps_cut (s := z.2) ?_ ?_; (on_goal 1 => unfold z); on_goal 2 => (intro _; try clear_value z))
       | (refine keeps_cut (s := z.1) ?_ ?_; (on_goal 1 => unfold z); on_goal 2 => (intro _; try clear_value z))
       | (refine keeps_cut (s := z.2.1) ?_ ?_; (on_goal 1 => unfold z); on_goal 2 => (intro _; try clear_value z))
       | try clear_value z)
    | with_reducible apply State.postTo_keeps | with_reducible apply keeps_ite | with_reducible apply keeps_ite_snd | split
    | (intro _; intros; try beta_reduce))

theorem State.failLaunch_keeps {pts : List Part} (hw : Within [.out, .od, .mem, .cores, .jobs, .sched, .hosts] pts) {bef :
    State} {s : State} (l : Launch) (status : Nat) (h : bef.Keeps pts s) : bef.Keeps pts (State.failLaunch s l status) := by
  unfold State.failLaunch
  repeat' (first
    | with_reducible assumption | ((with_reducible refine Within.sub hw ?_); decide)
    | (fail_if_no_progress extract_lets -underBinder -merge -useContext +onlyGivenNames z
       first
       | (refine keeps_cut (s := z) ?_ ?_; (on_goal 1 => unfold z); on_goal 2 => (intro _; try clear_value z))
       | try clear_value z)
    | with_reducible apply State.postStep_keeps | with_reducible apply State.dropLaunch_keeps
    | with_reducible apply State.closeLaunch_keeps | with_reducible apply State.modJob_keeps
    | with_reducible apply keeps_ite | with_reducible apply keeps_ite_snd | split
    | ((with_reducible refine State.keeps_mk hw (by assumption) rfl ?_)
       intro p; cases p <;> (first | exact .inl (by decide) | exact .inr rfl))
    | (intro _; intros; try beta_reduce))

theorem State.launchLate_keeps {pts : List Part} (hw : Within [.out, .od, .mem, .cores, .jobs, .sched, .hosts, .events] pts)
    {bef : State} {s : State} (j : Nat) (tag : Nat) (h : bef.Keeps pts s) : bef.Keeps pts (State.launchLate s j tag) := by
  unfold State.launchLate
  repeat' (first
    | with_reducible assumption | ((with_reducible refine Within.sub hw ?_); decide)
    | (fail_if_no_progress extract_lets -underBinder -merge -useContext +onlyGivenNames z
       first
       | (refine keeps_cut (s := z) ?_ ?_; (on_goal 1 => unfold z); on_goal 2 => (intro _; try clear_value z))
       | try clear_value z)
    | with_reducible apply State.failLaunch_keeps | with_reducible apply State.raise_keeps
    | with_reducible apply State.bump_keeps | with_reducible apply keeps_ite | with_reducible apply keeps_ite_snd | split
    | ((with_reducible refine State.keeps_mk hw (by assumption) rfl ?_)
       intro p; cases p <;> (first | exact .inl (by decide) | exact .inr rfl))
    | (intro _; intros; try beta_reduce))

theorem execLaunchLate_keeps (dt : Nat) (job : Fin 8) (tag : BitVec 32) (s : State) :
    ∃ t, execLaunchLate dt job tag s = .next t ∧ (s.elapse dt).Keeps [.out, .od, .mem, .cores, .jobs, .sched, .hosts,
        .events] t := by
  unfold execLaunchLate
  refine ⟨_, rfl, ?_⟩
  have hw : Within [.out, .od, .mem, .cores, .jobs, .sched, .hosts, .events] [.out, .od, .mem, .cores, .jobs, .sched, .hosts,
      .events] := fun _ h => h
  have h := State.Keeps.refl [.out, .od, .mem, .cores, .jobs, .sched, .hosts, .events] (s.elapse dt)
  generalize s.elapse dt = bef at h ⊢
  repeat' (first
    | with_reducible assumption | ((with_reducible refine Within.sub hw ?_); decide)
    | with_reducible apply State.launchLate_keeps | with_reducible apply keeps_ite | with_reducible apply keeps_ite_snd
    | split | (intro _; intros; try beta_reduce))

theorem State.stepDeadline_keeps {pts : List Part} (hw : Within [.od, .cores, .jobs, .hosts, .events] pts) {bef : State} {s :
    State} (j : Nat) (h : bef.Keeps pts s) : bef.Keeps pts (State.stepDeadline s j) := by
  unfold State.stepDeadline
  repeat' (first
    | with_reducible assumption | ((with_reducible refine Within.sub hw ?_); decide)
    | (fail_if_no_progress extract_lets -underBinder -merge -useContext +onlyGivenNames z
       first
       | (refine keeps_cut (s := z) ?_ ?_; (on_goal 1 => unfold z); on_goal 2 => (intro _; try clear_value z))
       | (refine keeps_cut (s := z.2) ?_ ?_; (on_goal 1 => unfold z); on_goal 2 => (intro _; try clear_value z))
       | (refine keeps_cut (s := z.1) ?_ ?_; (on_goal 1 => unfold z); on_goal 2 => (intro _; try clear_value z))
       | (refine keeps_cut (s := z.2.1) ?_ ?_; (on_goal 1 => unfold z); on_goal 2 => (intro _; try clear_value z))
       | try clear_value z)
    | with_reducible apply State.stopStep_keeps | with_reducible apply State.bump_keeps
    | with_reducible apply State.modJob_keeps | with_reducible apply keeps_ite | with_reducible apply keeps_ite_snd | split
    | ((with_reducible refine State.keeps_mk hw (by assumption) rfl ?_)
       intro p; cases p <;> (first | exact .inl (by decide) | exact .inr rfl))
    | with_reducible refine keeps_of_fst (by with_reducible assumption) ?_
    | with_reducible refine keeps_of_snd (by with_reducible assumption) ?_ | (intro _; intros; try beta_reduce))

theorem execStepDeadline_keeps (dt : Nat) (job : Fin 8) (s : State) :
    ∃ t, execStepDeadline dt job s = .next t ∧ (s.elapse dt).Keeps [.od, .cores, .jobs, .hosts, .events] t := by
  unfold execStepDeadline
  refine ⟨_, rfl, ?_⟩
  have hw : Within [.od, .cores, .jobs, .hosts, .events] [.od, .cores, .jobs, .hosts, .events] := fun _ h => h
  have h := State.Keeps.refl [.od, .cores, .jobs, .hosts, .events] (s.elapse dt)
  generalize s.elapse dt = bef at h ⊢
  repeat' (first
    | with_reducible assumption | ((with_reducible refine Within.sub hw ?_); decide)
    | with_reducible apply State.stepDeadline_keeps | with_reducible apply keeps_ite | with_reducible apply keeps_ite_snd
    | split | (intro _; intros; try beta_reduce))

theorem State.refuseCross_keeps {pts : List Part} (hw : Within [.out, .od, .mem, .cores, .jobs, .sched, .hosts] pts) {bef :
    State} {s : State} (h : bef.Keeps pts s) : bef.Keeps pts (State.refuseCross s) := by
  unfold State.refuseCross
  repeat' (first
    | with_reducible assumption | ((with_reducible refine Within.sub hw ?_); decide)
    | with_reducible apply State.failLaunch_keeps | with_reducible apply State.bump_keeps | with_reducible apply keeps_foldl
    | with_reducible apply keeps_ite | with_reducible apply keeps_ite_snd | split | (intro _; intros; try beta_reduce))

end Sys2Proof.Machine
end

