-- ==== Sys2Proof/Laws/KeepsMirror.lean ====
section
/-! SUPPORT. What the operations of Machine/Mirror.lean keep. -/

namespace Sys2Proof.Machine

theorem State.sendCheckpoint_keeps {pts : List Part} (hw : Within [.out, .od, .streams] pts) {bef : State} {s : State} (n :
    Nat) (h : bef.Keeps pts s) : bef.Keeps pts (State.sendCheckpoint s n) := by
  unfold State.sendCheckpoint
  repeat' (first
    | with_reducible assumption | ((with_reducible refine Within.sub hw ?_); decide)
    | (fail_if_no_progress extract_lets -underBinder -merge -useContext +onlyGivenNames z
       first
       | (refine keeps_cut (s := z) ?_ ?_; (on_goal 1 => unfold z); on_goal 2 => (intro _; try clear_value z))
       | (refine keeps_cut (s := z.2) ?_ ?_; (on_goal 1 => unfold z); on_goal 2 => (intro _; try clear_value z))
       | (refine keeps_cut (s := z.1) ?_ ?_; (on_goal 1 => unfold z); on_goal 2 => (intro _; try clear_value z))
       | (refine keeps_cut (s := z.2.1) ?_ ?_; (on_goal 1 => unfold z); on_goal 2 => (intro _; try clear_value z))
       | try clear_value z)
    | with_reducible apply State.bump_keeps | with_reducible apply State.modStream_keeps
    | with_reducible apply State.emit_keeps | with_reducible apply keeps_ite | with_reducible apply keeps_ite_snd | split
    | ((with_reducible refine State.keeps_mk hw (by assumption) rfl ?_)
       intro p; cases p <;> (first | exact .inl (by decide) | exact .inr rfl))
    | (intro _; intros; try beta_reduce))

theorem State.checkpointAll_keeps {pts : List Part} (hw : Within [.out, .od, .streams] pts) {bef : State} {s : State} (h :
    bef.Keeps pts s) : bef.Keeps pts (State.checkpointAll s) := by
  unfold State.checkpointAll
  repeat' (first
    | with_reducible assumption | ((with_reducible refine Within.sub hw ?_); decide)
    | with_reducible apply State.sendCheckpoint_keeps | with_reducible apply keeps_foldl | with_reducible apply keeps_ite
    | with_reducible apply keeps_ite_snd | split | (intro _; intros; try beta_reduce))

theorem State.checkpointFresh_keeps {pts : List Part} (hw : Within [.out, .od, .streams] pts) {bef : State} {s : State} (h :
    bef.Keeps pts s) : bef.Keeps pts (State.checkpointFresh s) := by
  unfold State.checkpointFresh
  repeat' (first
    | with_reducible assumption | ((with_reducible refine Within.sub hw ?_); decide)
    | (fail_if_no_progress extract_lets -underBinder -merge -useContext +onlyGivenNames z
       first
       | (refine keeps_cut (s := z) ?_ ?_; (on_goal 1 => unfold z); on_goal 2 => (intro _; try clear_value z))
       | try clear_value z)
    | with_reducible apply State.sendCheckpoint_keeps | with_reducible apply State.modStream_keeps
    | with_reducible apply keeps_foldl | with_reducible apply keeps_ite | with_reducible apply keeps_ite_snd | split
    | ((with_reducible refine State.keeps_mk hw (by assumption) rfl ?_)
       intro p; cases p <;> (first | exact .inl (by decide) | exact .inr rfl))
    | (intro _; intros; try beta_reduce))

theorem State.storePage_keeps {pts : List Part} (hw : Within [.mem, .jobs, .streams, .free] pts) {bef : State} {s : State} (j
    : Nat) (key : Nat) (p : CkptPage) {r : State}
    (hr : State.storePage s j key p = some r) (h : bef.Keeps pts s) : bef.Keeps pts r := by
  unfold State.storePage at hr
  split at hr
  · cases hr
  · rename_i hx
    injection hr with hr
    subst hr
    exact State.keeps_mem hw (State.makePages_keeps (hw.sub (by decide)) _ _ _ _ _ hx h) rfl (by intro p; cases p <;> first | exact .inl (by decide) | exact .inr rfl) (fun w => Mem.write_wf _ _ _ w)

theorem State.modMirror_keeps {pts : List Part} (hw : Within [.twin] pts) {bef : State} {s : State} (n : Nat) (f : Mirror →
    Mirror) (h : bef.Keeps pts s) : bef.Keeps pts (State.modMirror s n f) := by
  unfold State.modMirror
  repeat' (first
    | with_reducible assumption | ((with_reducible refine Within.sub hw ?_); decide)
    | (fail_if_no_progress extract_lets -underBinder -merge -useContext +onlyGivenNames z
       first
       | (refine keeps_cut (s := z) ?_ ?_; (on_goal 1 => unfold z); on_goal 2 => (intro _; try clear_value z))
       | try clear_value z)
    | with_reducible apply keeps_ite | with_reducible apply keeps_ite_snd | split
    | ((with_reducible refine State.keeps_mk hw (by assumption) rfl ?_)
       intro p; cases p <;> (first | exact .inl (by decide) | exact .inr rfl))
    | (intro _; intros; try beta_reduce))

theorem State.withMirror_keeps {pts : List Part} (hw : Within [.twin] pts) {bef : State} {s : State} (n : Nat) (h : bef.Keeps
    pts s) : bef.Keeps pts (State.withMirror s n) := by
  unfold State.withMirror
  repeat' (first
    | with_reducible assumption | ((with_reducible refine Within.sub hw ?_); decide)
    | (fail_if_no_progress extract_lets -underBinder -merge -useContext +onlyGivenNames z
       first
       | (refine keeps_cut (s := z) ?_ ?_; (on_goal 1 => unfold z); on_goal 2 => (intro _; try clear_value z))
       | try clear_value z)
    | with_reducible apply keeps_ite | with_reducible apply keeps_ite_snd | split
    | ((with_reducible refine State.keeps_mk hw (by assumption) rfl ?_)
       intro p; cases p <;> (first | exact .inl (by decide) | exact .inr rfl))
    | (intro _; intros; try beta_reduce))

theorem State.dropMirror_keeps {pts : List Part} (hw : Within [.jobs, .streams, .twin] pts) {bef : State} {s : State} (n :
    Nat) (h : bef.Keeps pts s) : bef.Keeps pts (State.dropMirror s n) := by
  unfold State.dropMirror
  repeat' (first
    | with_reducible assumption | ((with_reducible refine Within.sub hw ?_); decide)
    | (fail_if_no_progress extract_lets -underBinder -merge -useContext +onlyGivenNames z
       first
       | (refine keeps_cut (s := z) ?_ ?_; (on_goal 1 => unfold z); on_goal 2 => (intro _; try clear_value z))
       | try clear_value z)
    | with_reducible apply State.freeStream_keeps | with_reducible apply State.freePages_keeps
    | with_reducible apply keeps_ite | with_reducible apply keeps_ite_snd | split
    | ((with_reducible refine State.keeps_mk hw (by assumption) rfl ?_)
       intro p; cases p <;> (first | exact .inl (by decide) | exact .inr rfl))
    | (intro _; intros; try beta_reduce))

theorem State.storeCheckpoint_keeps {pts : List Part} (hw : Within [.mem, .jobs, .streams, .twin, .free] pts) {bef : State}
    {s : State} (k : Checkpoint) {r : State}
    (hr : State.storeCheckpoint s k = some r) (h : bef.Keeps pts s) : bef.Keeps pts r := by
  unfold State.storeCheckpoint at hr
  split at hr
  · cases hr
  · rename_i j _
    simp only at hr
    split at hr
    · cases hr
    · rename_i t ht
      have h1 : bef.Keeps pts t := by
        refine keeps_foldl_opt ?_ ?_ t ht
        · rintro r ⟨⟩
          exact State.modStream_keeps (hw.sub (by decide)) _ _ (State.withMirror_keeps (hw.sub (by decide)) _ h)
        · intro o p ho r hr
          split at hr
          · cases hr
          · exact State.storePage_keeps (hw.sub (by decide)) _ _ _ hr (ho _ rfl)
      split at hr
      · injection hr with hr
        subst hr
        exact State.modMirror_keeps (hw.sub (by decide)) _ _ (State.recountFrames_keeps (hw.sub (by decide)) _ _ h1)
      · cases hr

theorem State.takeCheckpoint_keeps {pts : List Part} (hw : Within [.out, .od, .mem, .jobs, .streams, .twin, .hosts, .events,
    .free] pts) {bef : State} {s : State} (k : Checkpoint) (h : bef.Keeps pts s) : bef.Keeps pts (State.takeCheckpoint s k)
    := by
  unfold State.takeCheckpoint
  repeat' (first
    | with_reducible assumption | ((with_reducible refine Within.sub hw ?_); decide)
    | (fail_if_no_progress extract_lets -underBinder -merge -useContext +onlyGivenNames z
       first
       | (refine keeps_cut (s := z) ?_ ?_; (on_goal 1 => unfold z); on_goal 2 => (intro _; try clear_value z))
       | try clear_value z)
    | with_reducible refine State.storeCheckpoint_keeps (hw.sub (by decide)) _ (by with_reducible assumption) ?_
    | with_reducible apply State.raise_keeps | with_reducible apply State.bump_keeps | with_reducible apply State.emit_keeps
    | with_reducible apply keeps_ite | with_reducible apply keeps_ite_snd | split
    | ((with_reducible refine State.keeps_mk hw (by assumption) rfl ?_)
       intro p; cases p <;> (first | exact .inl (by decide) | exact .inr rfl))
    | (intro _; intros; try beta_reduce))

theorem State.takeLog_keeps {pts : List Part} (hw : Within [.out, .jobs, .streams, .twin] pts) {bef : State} {s : State} (e :
    LogEntry) (h : bef.Keeps pts s) : bef.Keeps pts (State.takeLog s e) := by
  unfold State.takeLog
  repeat' (first
    | with_reducible assumption | ((with_reducible refine Within.sub hw ?_); decide)
    | (fail_if_no_progress extract_lets -underBinder -merge -useContext +onlyGivenNames z
       first
       | (refine keeps_cut (s := z) ?_ ?_; (on_goal 1 => unfold z); on_goal 2 => (intro _; try clear_value z))
       | try clear_value z)
    | with_reducible apply State.dropMirror_keeps | with_reducible apply State.withMirror_keeps
    | with_reducible apply State.modMirror_keeps | with_reducible apply State.emit_keeps | with_reducible apply keeps_ite
    | with_reducible apply keeps_ite_snd | split
    | ((with_reducible refine State.keeps_mk hw (by assumption) rfl ?_)
       intro p; cases p <;> (first | exact .inl (by decide) | exact .inr rfl))
    | (intro _; intros; try beta_reduce))

theorem State.logAcks_keeps {pts : List Part} (hw : Within [.out, .od, .mem, .twin, .hosts] pts) {bef : State} {s : State}
    (seq : Nat) (h : bef.Keeps pts s) : bef.Keeps pts (State.logAcks s seq) := by
  unfold State.logAcks
  repeat' (first
    | with_reducible assumption | ((with_reducible refine Within.sub hw ?_); decide)
    | (fail_if_no_progress extract_lets -underBinder -merge -useContext +onlyGivenNames z
       first
       | (refine keeps_cut (s := z) ?_ ?_; (on_goal 1 => unfold z); on_goal 2 => (intro _; try clear_value z))
       | try clear_value z)
    | with_reducible apply State.postTo_keeps | with_reducible apply keeps_foldl | with_reducible apply keeps_ite
    | with_reducible apply keeps_ite_snd | split
    | ((with_reducible refine State.keeps_mk hw (by assumption) rfl ?_)
       intro p; cases p <;> (first | exact .inl (by decide) | exact .inr rfl))
    | (intro _; intros; try beta_reduce))

theorem State.releaseLog_keeps {pts : List Part} (hw : Within [.out, .od, .mem, .streams, .twin, .hosts] pts) {bef : State}
    {s : State} (h : bef.Keeps pts s) : bef.Keeps pts (State.releaseLog s) := by
  unfold State.releaseLog
  repeat' (first
    | with_reducible assumption | ((with_reducible refine Within.sub hw ?_); decide)
    | (fail_if_no_progress extract_lets -underBinder -merge -useContext +onlyGivenNames z
       first
       | (refine keeps_cut (s := z) ?_ ?_; (on_goal 1 => unfold z); on_goal 2 => (intro _; try clear_value z))
       | try clear_value z)
    | with_reducible apply State.deliverBare_keeps | with_reducible apply keeps_foldl | with_reducible apply keeps_ite
    | with_reducible apply keeps_ite_snd | split
    | ((with_reducible refine State.keeps_mk hw (by assumption) rfl ?_)
       intro p; cases p <;> (first | exact .inl (by decide) | exact .inr rfl))
    | (intro _; intros; try beta_reduce))

theorem State.sendLog_keeps {pts : List Part} (hw : Within [.out, .twin] pts) {bef : State} {s : State} (h : bef.Keeps pts s)
    : bef.Keeps pts (State.sendLog s) := by
  unfold State.sendLog
  repeat' (first
    | with_reducible assumption | ((with_reducible refine Within.sub hw ?_); decide)
    | (fail_if_no_progress extract_lets -underBinder -merge -useContext +onlyGivenNames z
       first
       | (refine keeps_cut (s := z) ?_ ?_; (on_goal 1 => unfold z); on_goal 2 => (intro _; try clear_value z))
       | try clear_value z)
    | with_reducible apply State.emit_keeps | with_reducible apply keeps_foldl | with_reducible apply keeps_ite
    | with_reducible apply keeps_ite_snd | split
    | ((with_reducible refine State.keeps_mk hw (by assumption) rfl ?_)
       intro p; cases p <;> (first | exact .inl (by decide) | exact .inr rfl))
    | (intro _; intros; try beta_reduce))

theorem State.releaseFence_keeps {pts : List Part} (hw : Within [.out, .od, .mem, .streams, .twin, .hosts] pts) {bef : State}
    {s : State} (h : bef.Keeps pts s) : bef.Keeps pts (State.releaseFence s) := by
  unfold State.releaseFence
  repeat' (first
    | with_reducible assumption | ((with_reducible refine Within.sub hw ?_); decide)
    | (fail_if_no_progress extract_lets -underBinder -merge -useContext +onlyGivenNames z
       first
       | (refine keeps_cut (s := z) ?_ ?_; (on_goal 1 => unfold z); on_goal 2 => (intro _; try clear_value z))
       | try clear_value z)
    | with_reducible apply State.deliverBare_keeps | with_reducible apply keeps_foldl | with_reducible apply keeps_ite
    | with_reducible apply keeps_ite_snd | split
    | ((with_reducible refine State.keeps_mk hw (by assumption) rfl ?_)
       intro p; cases p <;> (first | exact .inl (by decide) | exact .inr rfl))
    | (intro _; intros; try beta_reduce))

theorem State.recomputed_keeps {pts : List Part} (hw : Within [.out, .od, .mem, .streams, .hosts] pts) {bef : State} {s :
    State} (n : Nat) (h : bef.Keeps pts s) : bef.Keeps pts (State.recomputed s n) := by
  unfold State.recomputed
  repeat' (first
    | with_reducible assumption | ((with_reducible refine Within.sub hw ?_); decide)
    | (fail_if_no_progress extract_lets -underBinder -merge -useContext +onlyGivenNames z
       first
       | (refine keeps_cut (s := z) ?_ ?_; (on_goal 1 => unfold z); on_goal 2 => (intro _; try clear_value z))
       | try clear_value z)
    | with_reducible apply State.streamTo_keeps | with_reducible apply keeps_ite | with_reducible apply keeps_ite_snd
    | split | (intro _; intros; try beta_reduce))

theorem State.adopt_keeps {pts : List Part} (hw : Within [.out, .od, .mem, .streams, .sched, .twin, .hosts] pts) {bef :
    State} {s : State} (m : Mirror) (n : Nat) (j : Nat) (hold : Nat) (h : bef.Keeps pts s) : bef.Keeps pts (State.adopt s m n
    j hold) := by
  unfold State.adopt
  repeat' (first
    | with_reducible assumption | ((with_reducible refine Within.sub hw ?_); decide)
    | (fail_if_no_progress extract_lets -underBinder -merge -useContext +onlyGivenNames z
       first
       | (refine keeps_cut (s := z) ?_ ?_; (on_goal 1 => unfold z); on_goal 2 => (intro _; try clear_value z))
       | try clear_value z)
    | with_reducible apply State.recomputed_keeps | with_reducible apply State.freeStream_keeps
    | with_reducible apply State.postTo_keeps | with_reducible apply State.modStream_keeps
    | with_reducible apply keeps_foldl | with_reducible apply keeps_ite | with_reducible apply keeps_ite_snd | split
    | ((with_reducible refine State.keeps_mk hw (by assumption) rfl ?_)
       intro p; cases p <;> (first | exact .inl (by decide) | exact .inr rfl))
    | (intro _; intros; try beta_reduce))

theorem State.adoptAll_keeps {pts : List Part} (hw : Within [.out, .od, .mem, .streams, .sched, .twin, .hosts] pts) {bef :
    State} {s : State} (hold : Nat) (h : bef.Keeps pts s) : bef.Keeps pts (State.adoptAll s hold) := by
  unfold State.adoptAll
  repeat' (first
    | with_reducible assumption | ((with_reducible refine Within.sub hw ?_); decide)
    | (fail_if_no_progress extract_lets -underBinder -merge -useContext +onlyGivenNames z
       first
       | (refine keeps_cut (s := z) ?_ ?_; (on_goal 1 => unfold z); on_goal 2 => (intro _; try clear_value z))
       | try clear_value z)
    | with_reducible apply State.adopt_keeps | with_reducible apply State.modMirror_keeps | with_reducible apply keeps_foldl
    | with_reducible apply keeps_ite | with_reducible apply keeps_ite_snd | split
    | ((with_reducible refine State.keeps_mk hw (by assumption) rfl ?_)
       intro p; cases p <;> (first | exact .inl (by decide) | exact .inr rfl))
    | (intro _; intros; try beta_reduce))

theorem State.adoptBacklog_keeps {pts : List Part} (hw : Within [.out, .od, .mem, .streams, .sched, .twin, .hosts] pts) {bef
    : State} {s : State} (h : bef.Keeps pts s) : bef.Keeps pts (State.adoptBacklog s) := by
  unfold State.adoptBacklog
  repeat' (first
    | with_reducible assumption | ((with_reducible refine Within.sub hw ?_); decide)
    | with_reducible apply State.adoptAll_keeps | with_reducible apply keeps_ite | with_reducible apply keeps_ite_snd
    | split | (intro _; intros; try beta_reduce))

end Sys2Proof.Machine
end

