-- ==== Sys2Proof/Laws/KeepsSwitch.lean ====
section
/-! SUPPORT. What the operations of Machine/Switch.lean keep. -/

namespace Sys2Proof.Machine

theorem State.loadSlot_keeps {pts : List Part} (hw : Within [.cores, .engines] pts) {bef : State} {s : State} (c : Nat) (slot
    : Nat) (x : SavedSlot) (h : bef.Keeps pts s) : bef.Keeps pts (State.loadSlot s c slot x) := by
  unfold State.loadSlot
  repeat' (first
    | with_reducible assumption | ((with_reducible refine Within.sub hw ?_); decide)
    | (fail_if_no_progress extract_lets -underBinder -merge -useContext +onlyGivenNames z
       first
       | (refine keeps_cut (s := z) ?_ ?_; (on_goal 1 => unfold z); on_goal 2 => (intro _; try clear_value z))
       | try clear_value z)
    | with_reducible apply State.modEng_keeps | with_reducible apply State.modCore_keeps | with_reducible apply keeps_ite
    | with_reducible apply keeps_ite_snd | split
    | ((with_reducible refine State.keeps_mk hw (by assumption) rfl ?_)
       intro p; cases p <;> (first | exact .inl (by decide) | exact .inr rfl))
    | (intro _; intros; try beta_reduce))

theorem State.clearCore_keeps {pts : List Part} (hw : Within [.cores, .engines] pts) {bef : State} {s : State} (c : Nat) (h :
    bef.Keeps pts s) : bef.Keeps pts (State.clearCore s c) := by
  unfold State.clearCore
  repeat' (first
    | with_reducible assumption | ((with_reducible refine Within.sub hw ?_); decide)
    | (fail_if_no_progress extract_lets -underBinder -merge -useContext +onlyGivenNames z
       first
       | (refine keeps_cut (s := z) ?_ ?_; (on_goal 1 => unfold z); on_goal 2 => (intro _; try clear_value z))
       | try clear_value z)
    | with_reducible apply State.modEng_keeps | with_reducible apply State.modCore_keeps
    | with_reducible apply keeps_forRange | with_reducible apply keeps_ite | with_reducible apply keeps_ite_snd | split
    | ((with_reducible refine State.keeps_mk hw (by assumption) rfl ?_)
       intro p; cases p <;> (first | exact .inl (by decide) | exact .inr rfl))
    | (intro _; intros; try beta_reduce))

theorem State.saveCore_keeps {pts : List Part} (hw : Within [.cores, .engines, .jobs] pts) {bef : State} {s : State} (c :
    Nat) (banks : List SavedBank) (h : bef.Keeps pts s) : bef.Keeps pts (State.saveCore s c banks) := by
  unfold State.saveCore
  repeat' (first
    | with_reducible assumption | ((with_reducible refine Within.sub hw ?_); decide)
    | (fail_if_no_progress extract_lets -underBinder -merge -useContext +onlyGivenNames z
       first
       | (refine keeps_cut (s := z) ?_ ?_; (on_goal 1 => unfold z); on_goal 2 => (intro _; try clear_value z))
       | try clear_value z)
    | with_reducible apply State.clearCore_keeps | with_reducible apply State.modJob_keeps | with_reducible apply keeps_ite
    | with_reducible apply keeps_ite_snd | split
    | ((with_reducible refine State.keeps_mk hw (by assumption) rfl ?_)
       intro p; cases p <;> (first | exact .inl (by decide) | exact .inr rfl))
    | (intro _; intros; try beta_reduce))

theorem State.loadCore_keeps {pts : List Part} (hw : Within [.cores, .engines, .jobs] pts) {bef : State} {s : State} (c :
    Nat) (j : Nat) (l : Nat) (h : bef.Keeps pts s) : bef.Keeps pts (State.loadCore s c j l) := by
  unfold State.loadCore
  repeat' (first
    | with_reducible assumption | ((with_reducible refine Within.sub hw ?_); decide)
    | (fail_if_no_progress extract_lets -underBinder -merge -useContext +onlyGivenNames z
       first
       | (refine keeps_cut (s := z) ?_ ?_; (on_goal 1 => unfold z); on_goal 2 => (intro _; try clear_value z))
       | (refine keeps_cut (s := z.2) ?_ ?_; (on_goal 1 => unfold z); on_goal 2 => (intro _; try clear_value z))
       | (refine keeps_cut (s := z.1) ?_ ?_; (on_goal 1 => unfold z); on_goal 2 => (intro _; try clear_value z))
       | (refine keeps_cut (s := z.2.1) ?_ ?_; (on_goal 1 => unfold z); on_goal 2 => (intro _; try clear_value z))
       | try clear_value z)
    | with_reducible apply State.loadSlot_keeps | with_reducible apply State.modJob_keeps
    | with_reducible apply State.modCore_keeps | with_reducible apply keeps_foldl | with_reducible apply keeps_foldl_fst
    | with_reducible apply keeps_foldl_snd | with_reducible apply keeps_foldl_mid | with_reducible apply keeps_ite
    | with_reducible apply keeps_ite_snd | split
    | ((with_reducible refine State.keeps_mk hw (by assumption) rfl ?_)
       intro p; cases p <;> (first | exact .inl (by decide) | exact .inr rfl))
    | (intro _; intros; try beta_reduce))

theorem State.abandonFor_keeps {pts : List Part} (hw : Within [.engines] pts) {bef : State} {s : State} (c : Nat) (e : Nat)
    (slot : Nat) (w : WriteRun) (h : bef.Keeps pts s) : bef.Keeps pts (State.abandonFor s c e slot w).1 := by
  unfold State.abandonFor
  repeat' (first
    | with_reducible assumption | ((with_reducible refine Within.sub hw ?_); decide)
    | (fail_if_no_progress extract_lets -underBinder -merge -useContext +onlyGivenNames z
       first
       | (refine keeps_cut (s := z) ?_ ?_; (on_goal 1 => unfold z); on_goal 2 => (intro _; try clear_value z))
       | try clear_value z)
    | with_reducible apply State.modEng_keeps | with_reducible apply keeps_ite | with_reducible apply keeps_ite_snd | split
    | ((with_reducible refine State.keeps_mk hw (by assumption) rfl ?_)
       intro p; cases p <;> (first | exact .inl (by decide) | exact .inr rfl))
    | (intro _; intros; try beta_reduce))

theorem State.saveBanks_keeps {pts : List Part} (hw : Within [.engines] pts) {bef : State} {s : State} (c : Nat) (j : Nat)
    (slot : Nat) (h : bef.Keeps pts s) : bef.Keeps pts (State.saveBanks s c j slot).1 := by
  unfold State.saveBanks
  repeat' (first
    | with_reducible assumption | ((with_reducible refine Within.sub hw ?_); decide)
    | (fail_if_no_progress extract_lets -underBinder -merge -useContext +onlyGivenNames z
       first
       | (refine keeps_cut (s := z) ?_ ?_; (on_goal 1 => unfold z); on_goal 2 => (intro _; try clear_value z))
       | (refine keeps_cut (s := z.2) ?_ ?_; (on_goal 1 => unfold z); on_goal 2 => (intro _; try clear_value z))
       | (refine keeps_cut (s := z.1) ?_ ?_; (on_goal 1 => unfold z); on_goal 2 => (intro _; try clear_value z))
       | (refine keeps_cut (s := z.2.1) ?_ ?_; (on_goal 1 => unfold z); on_goal 2 => (intro _; try clear_value z))
       | try clear_value z)
    | with_reducible apply State.abandonFor_keeps | with_reducible apply State.modEng_keeps
    | with_reducible apply keeps_foldl | with_reducible apply keeps_foldl_fst | with_reducible apply keeps_foldl_snd
    | with_reducible apply keeps_foldl_mid | with_reducible apply keeps_ite | with_reducible apply keeps_ite_snd | split
    | ((with_reducible refine State.keeps_mk hw (by assumption) rfl ?_)
       intro p; cases p <;> (first | exact .inl (by decide) | exact .inr rfl))
    | (intro _; intros; try beta_reduce))

theorem State.saveAllBanks_keeps {pts : List Part} (hw : Within [.engines] pts) {bef : State} {s : State} (c : Nat) (j : Nat)
    (h : bef.Keeps pts s) : bef.Keeps pts (State.saveAllBanks s c j).1 := by
  unfold State.saveAllBanks
  repeat' (first
    | with_reducible assumption | ((with_reducible refine Within.sub hw ?_); decide)
    | (fail_if_no_progress extract_lets -underBinder -merge -useContext +onlyGivenNames z
       first
       | (refine keeps_cut (s := z) ?_ ?_; (on_goal 1 => unfold z); on_goal 2 => (intro _; try clear_value z))
       | (refine keeps_cut (s := z.2) ?_ ?_; (on_goal 1 => unfold z); on_goal 2 => (intro _; try clear_value z))
       | (refine keeps_cut (s := z.1) ?_ ?_; (on_goal 1 => unfold z); on_goal 2 => (intro _; try clear_value z))
       | (refine keeps_cut (s := z.2.1) ?_ ?_; (on_goal 1 => unfold z); on_goal 2 => (intro _; try clear_value z))
       | try clear_value z)
    | with_reducible apply State.saveBanks_keeps | with_reducible apply keeps_foldl | with_reducible apply keeps_foldl_fst
    | with_reducible apply keeps_foldl_snd | with_reducible apply keeps_foldl_mid | with_reducible apply keeps_ite
    | with_reducible apply keeps_ite_snd | split | (intro _; intros; try beta_reduce))

theorem State.restoreBank_keeps {pts : List Part} (hw : Within [.od, .cores, .engines, .hosts, .events] pts) {bef : State} {s
    : State} (c : Nat) (x : SavedBank) (h : bef.Keeps pts s) : bef.Keeps pts (State.restoreBank s c x) := by
  unfold State.restoreBank
  repeat' (first
    | with_reducible assumption | ((with_reducible refine Within.sub hw ?_); decide)
    | (fail_if_no_progress extract_lets -underBinder -merge -useContext +onlyGivenNames z
       first
       | (refine keeps_cut (s := z) ?_ ?_; (on_goal 1 => unfold z); on_goal 2 => (intro _; try clear_value z))
       | (refine keeps_cut (s := z.2) ?_ ?_; (on_goal 1 => unfold z); on_goal 2 => (intro _; try clear_value z))
       | (refine keeps_cut (s := z.1) ?_ ?_; (on_goal 1 => unfold z); on_goal 2 => (intro _; try clear_value z))
       | (refine keeps_cut (s := z.2.1) ?_ ?_; (on_goal 1 => unfold z); on_goal 2 => (intro _; try clear_value z))
       | try clear_value z)
    | with_reducible apply State.part_keeps | with_reducible apply State.raise_keeps
    | with_reducible apply State.modEng_keeps | with_reducible apply State.modCore_keeps | with_reducible apply keeps_ite
    | with_reducible apply keeps_ite_snd | split
    | ((with_reducible refine State.keeps_mk hw (by assumption) rfl ?_)
       intro p; cases p <;> (first | exact .inl (by decide) | exact .inr rfl))
    | (intro _; intros; try beta_reduce))

theorem State.mapSlot_keeps {pts : List Part} (hw : Within [.cores, .engines] pts) {bef : State} {s : State} (c : Nat) (slot
    : Nat) (e : Nat) (h : bef.Keeps pts s) : bef.Keeps pts (State.mapSlot s c slot e) := by
  unfold State.mapSlot
  repeat' (first
    | with_reducible assumption | ((with_reducible refine Within.sub hw ?_); decide)
    | (fail_if_no_progress extract_lets -underBinder -merge -useContext +onlyGivenNames z
       first
       | (refine keeps_cut (s := z) ?_ ?_; (on_goal 1 => unfold z); on_goal 2 => (intro _; try clear_value z))
       | (refine keeps_cut (s := z.2) ?_ ?_; (on_goal 1 => unfold z); on_goal 2 => (intro _; try clear_value z))
       | (refine keeps_cut (s := z.1) ?_ ?_; (on_goal 1 => unfold z); on_goal 2 => (intro _; try clear_value z))
       | (refine keeps_cut (s := z.2.1) ?_ ?_; (on_goal 1 => unfold z); on_goal 2 => (intro _; try clear_value z))
       | try clear_value z)
    | with_reducible apply State.modEng_keeps | with_reducible apply State.modCore_keeps | with_reducible apply keeps_ite
    | with_reducible apply keeps_ite_snd | split
    | ((with_reducible refine State.keeps_mk hw (by assumption) rfl ?_)
       intro p; cases p <;> (first | exact .inl (by decide) | exact .inr rfl))
    | (intro _; intros; try beta_reduce))

theorem State.giveBackSlots_keeps {pts : List Part} (hw : Within [.cores, .engines] pts) {bef : State} {s : State} (c : Nat)
    (h : bef.Keeps pts s) : bef.Keeps pts (State.giveBackSlots s c) := by
  unfold State.giveBackSlots
  repeat' (first
    | with_reducible assumption | ((with_reducible refine Within.sub hw ?_); decide)
    | (fail_if_no_progress extract_lets -underBinder -merge -useContext +onlyGivenNames z
       first
       | (refine keeps_cut (s := z) ?_ ?_; (on_goal 1 => unfold z); on_goal 2 => (intro _; try clear_value z))
       | try clear_value z)
    | with_reducible apply State.mapSlot_keeps | with_reducible apply keeps_foldl | with_reducible apply keeps_forRange
    | with_reducible apply keeps_ite | with_reducible apply keeps_ite_snd | split
    | ((with_reducible refine State.keeps_mk hw (by assumption) rfl ?_)
       intro p; cases p <;> (first | exact .inl (by decide) | exact .inr rfl))
    | (intro _; intros; try beta_reduce))

theorem State.saveRegions_keeps {pts : List Part} (hw : Within [.mem, .jobs] pts) {bef : State} {s : State} (out : Nat) (inc
    : Nat) (h : bef.Keeps pts s) : bef.Keeps pts (State.saveRegions s out inc) := by
  unfold State.saveRegions
  repeat' (first
    | with_reducible assumption | ((with_reducible refine Within.sub hw ?_); decide)
    | (fail_if_no_progress extract_lets -underBinder -merge -useContext +onlyGivenNames z
       first
       | (refine keeps_cut (s := z) ?_ ?_; (on_goal 1 => unfold z); on_goal 2 => (intro _; try clear_value z))
       | (refine keeps_cut (s := z.2) ?_ ?_; (on_goal 1 => unfold z); on_goal 2 => (intro _; try clear_value z))
       | (refine keeps_cut (s := z.1) ?_ ?_; (on_goal 1 => unfold z); on_goal 2 => (intro _; try clear_value z))
       | (refine keeps_cut (s := z.2.1) ?_ ?_; (on_goal 1 => unfold z); on_goal 2 => (intro _; try clear_value z))
       | try clear_value z)
    | with_reducible apply State.done_keeps | with_reducible apply State.modJob_keeps | with_reducible apply keeps_foldl
    | with_reducible apply keeps_foldl_fst | with_reducible apply keeps_foldl_snd | with_reducible apply keeps_foldl_mid
    | with_reducible apply keeps_ite | with_reducible apply keeps_ite_snd | split
    | ((with_reducible refine State.keeps_mk hw (by assumption) rfl ?_)
       intro p; cases p <;> (first | exact .inl (by decide) | exact .inr rfl))
    | ((with_reducible refine State.keeps_mem hw (by assumption) rfl ?_ ?_)
       on_goal 1 => (intro p; cases p <;> (first | exact .inl (by decide) | exact .inr rfl)))
    | with_reducible apply Mem.write_wf | with_reducible apply Mem.copy_wf | with_reducible apply Mem.move_wf
    | with_reducible apply Mem.clear_wf | with_reducible apply Mem.putCells_wf | (intro _; intros; try beta_reduce))

theorem State.restoreRegion_keeps {pts : List Part} (hw : Within [.mem, .jobs] pts) {bef : State} {s : State} (j : Nat) (l :
    Nat) (h : bef.Keeps pts s) : bef.Keeps pts (State.restoreRegion s j l) := by
  unfold State.restoreRegion
  repeat' (first
    | with_reducible assumption | ((with_reducible refine Within.sub hw ?_); decide)
    | (fail_if_no_progress extract_lets -underBinder -merge -useContext +onlyGivenNames z
       first
       | (refine keeps_cut (s := z) ?_ ?_; (on_goal 1 => unfold z); on_goal 2 => (intro _; try clear_value z))
       | try clear_value z)
    | with_reducible apply State.modJob_keeps | with_reducible apply keeps_ite | with_reducible apply keeps_ite_snd | split
    | ((with_reducible refine State.keeps_mk hw (by assumption) rfl ?_)
       intro p; cases p <;> (first | exact .inl (by decide) | exact .inr rfl))
    | ((with_reducible refine State.keeps_mem hw (by assumption) rfl ?_ ?_)
       on_goal 1 => (intro p; cases p <;> (first | exact .inl (by decide) | exact .inr rfl)))
    | with_reducible apply Mem.write_wf | with_reducible apply Mem.copy_wf | with_reducible apply Mem.move_wf
    | with_reducible apply Mem.clear_wf | with_reducible apply Mem.putCells_wf | (intro _; intros; try beta_reduce))

theorem State.turnCore_keeps {pts : List Part} (hw : Within [.mem, .cores, .engines, .jobs] pts) {bef : State} {s : State} (c
    : Nat) (j : Nat) (l : Nat) (h : bef.Keeps pts s) : bef.Keeps pts (State.turnCore s c j l) := by
  unfold State.turnCore
  repeat' (first
    | with_reducible assumption | ((with_reducible refine Within.sub hw ?_); decide)
    | (fail_if_no_progress extract_lets -underBinder -merge -useContext +onlyGivenNames z
       first
       | (refine keeps_cut (s := z) ?_ ?_; (on_goal 1 => unfold z); on_goal 2 => (intro _; try clear_value z))
       | try clear_value z)
    | with_reducible apply State.restoreRegion_keeps | with_reducible apply State.loadCore_keeps
    | with_reducible apply State.saveCore_keeps | with_reducible apply State.modJob_keeps | with_reducible apply keeps_ite
    | with_reducible apply keeps_ite_snd | split
    | ((with_reducible refine State.keeps_mk hw (by assumption) rfl ?_)
       intro p; cases p <;> (first | exact .inl (by decide) | exact .inr rfl))
    | ((with_reducible refine State.keeps_mem hw (by assumption) rfl ?_ ?_)
       on_goal 1 => (intro p; cases p <;> (first | exact .inl (by decide) | exact .inr rfl)))
    | with_reducible apply Mem.write_wf | with_reducible apply Mem.copy_wf | with_reducible apply Mem.move_wf
    | with_reducible apply Mem.clear_wf | with_reducible apply Mem.putCells_wf | (intro _; intros; try beta_reduce))

theorem State.beginCore_keeps {pts : List Part} (hw : Within [.mem, .cores, .engines, .jobs] pts) {bef : State} {s : State}
    (c : Nat) (j : Nat) (r : RunStep) (sigma : Nat × Nat) (x0 : List Nat) (h : bef.Keeps pts s) : bef.Keeps pts
    (State.beginCore s c j r sigma x0) := by
  unfold State.beginCore
  repeat' (first
    | with_reducible assumption | ((with_reducible refine Within.sub hw ?_); decide)
    | (fail_if_no_progress extract_lets -underBinder -merge -useContext +onlyGivenNames z
       first
       | (refine keeps_cut (s := z) ?_ ?_; (on_goal 1 => unfold z); on_goal 2 => (intro _; try clear_value z))
       | try clear_value z)
    | with_reducible apply State.turnCore_keeps | with_reducible apply State.modCore_keeps | with_reducible apply keeps_ite
    | with_reducible apply keeps_ite_snd | split
    | ((with_reducible refine State.keeps_mk hw (by assumption) rfl ?_)
       intro p; cases p <;> (first | exact .inl (by decide) | exact .inr rfl))
    | (intro _; intros; try beta_reduce))

theorem State.nextLogical_keeps {pts : List Part} (hw : Within [.mem, .cores, .engines, .jobs] pts) {bef : State} {s : State}
    (c : Nat) (h : bef.Keeps pts s) : bef.Keeps pts (State.nextLogical s c) := by
  unfold State.nextLogical
  repeat' (first
    | with_reducible assumption | ((with_reducible refine Within.sub hw ?_); decide)
    | (fail_if_no_progress extract_lets -underBinder -merge -useContext +onlyGivenNames z
       first
       | (refine keeps_cut (s := z) ?_ ?_; (on_goal 1 => unfold z); on_goal 2 => (intro _; try clear_value z))
       | try clear_value z)
    | with_reducible apply State.beginCore_keeps | with_reducible apply State.modCore_keeps | with_reducible apply keeps_ite
    | with_reducible apply keeps_ite_snd | split
    | ((with_reducible refine State.keeps_mk hw (by assumption) rfl ?_)
       intro p; cases p <;> (first | exact .inl (by decide) | exact .inr rfl))
    | (intro _; intros; try beta_reduce))

theorem State.saveJob_keeps {pts : List Part} (hw : Within [.cores, .engines, .jobs] pts) {bef : State} {s : State} (j : Nat)
    (h : bef.Keeps pts s) : bef.Keeps pts (State.saveJob s j) := by
  unfold State.saveJob
  repeat' (first
    | with_reducible assumption | ((with_reducible refine Within.sub hw ?_); decide)
    | (fail_if_no_progress extract_lets -underBinder -merge -useContext +onlyGivenNames z
       first
       | (refine keeps_cut (s := z) ?_ ?_; (on_goal 1 => unfold z); on_goal 2 => (intro _; try clear_value z))
       | (refine keeps_cut (s := z.2) ?_ ?_; (on_goal 1 => unfold z); on_goal 2 => (intro _; try clear_value z))
       | (refine keeps_cut (s := z.1) ?_ ?_; (on_goal 1 => unfold z); on_goal 2 => (intro _; try clear_value z))
       | (refine keeps_cut (s := z.2.1) ?_ ?_; (on_goal 1 => unfold z); on_goal 2 => (intro _; try clear_value z))
       | try clear_value z)
    | with_reducible apply State.saveAllBanks_keeps | with_reducible apply State.saveCore_keeps
    | with_reducible apply keeps_foldl | with_reducible apply keeps_foldl_fst | with_reducible apply keeps_foldl_snd
    | with_reducible apply keeps_foldl_mid | with_reducible apply keeps_ite | with_reducible apply keeps_ite_snd | split
    | (intro _; intros; try beta_reduce))

theorem State.discardJob_keeps {pts : List Part} (hw : Within [.cores, .engines] pts) {bef : State} {s : State} (j : Nat) (h
    : bef.Keeps pts s) : bef.Keeps pts (State.discardJob s j) := by
  unfold State.discardJob
  repeat' (first
    | with_reducible assumption | ((with_reducible refine Within.sub hw ?_); decide)
    | with_reducible apply State.saveAllBanks_keeps | with_reducible apply State.clearCore_keeps
    | with_reducible apply keeps_foldl | with_reducible apply keeps_foldl_fst | with_reducible apply keeps_foldl_snd
    | with_reducible apply keeps_foldl_mid | with_reducible apply keeps_ite | with_reducible apply keeps_ite_snd | split
    | (intro _; intros; try beta_reduce))

theorem State.restoreJob_keeps {pts : List Part} (hw : Within [.od, .mem, .cores, .engines, .jobs, .hosts, .events] pts) {bef
    : State} {s : State} (j : Nat) (h : bef.Keeps pts s) : bef.Keeps pts (State.restoreJob s j) := by
  unfold State.restoreJob
  repeat' (first
    | with_reducible assumption | ((with_reducible refine Within.sub hw ?_); decide)
    | (fail_if_no_progress extract_lets -underBinder -merge -useContext +onlyGivenNames z
       first
       | (refine keeps_cut (s := z) ?_ ?_; (on_goal 1 => unfold z); on_goal 2 => (intro _; try clear_value z))
       | try clear_value z)
    | with_reducible apply State.restoreRegion_keeps | with_reducible apply State.giveBackSlots_keeps
    | with_reducible apply State.restoreBank_keeps | with_reducible apply State.loadCore_keeps
    | with_reducible apply State.part_keeps | with_reducible apply keeps_foldl | with_reducible apply keeps_ite
    | with_reducible apply keeps_ite_snd | split
    | ((with_reducible refine State.keeps_mk hw (by assumption) rfl ?_)
       intro p; cases p <;> (first | exact .inl (by decide) | exact .inr rfl))
    | (intro _; intros; try beta_reduce))

end Sys2Proof.Machine
end

