-- ==== Sys2Proof/Laws/KeepsPlacement.lean ====
section
/-! SUPPORT. What the operations of Machine/Placement.lean keep. -/

namespace Sys2Proof.Machine

theorem State.modLayerOf_keeps {pts : List Part} (hw : Within [.jobs] pts) {bef : State} {s : State} (j : Nat) (tag : Nat) (f
    : Layer → Layer) (h : bef.Keeps pts s) : bef.Keeps pts (State.modLayerOf s j tag f) := by
  unfold State.modLayerOf
  repeat' (first
    | with_reducible assumption | ((with_reducible refine Within.sub hw ?_); decide)
    | (fail_if_no_progress extract_lets -underBinder -merge -useContext +onlyGivenNames z
       first
       | (refine keeps_cut (s := z) ?_ ?_; (on_goal 1 => unfold z); on_goal 2 => (intro _; try clear_value z))
       | try clear_value z)
    | with_reducible apply State.modJob_keeps | with_reducible apply keeps_ite | with_reducible apply keeps_ite_snd | split
    | ((with_reducible refine State.keeps_mk hw (by assumption) rfl ?_)
       intro p; cases p <;> (first | exact .inl (by decide) | exact .inr rfl))
    | (intro _; intros; try beta_reduce))

theorem State.grant_keeps {pts : List Part} (hw : Within [.jobs] pts) {bef : State} {s : State} (j : Nat) (l : Layer) {r :
    State} (hr : State.grant s j l = some r)
    (h : bef.Keeps pts s) : bef.Keeps pts r := by
  simp only [State.grant] at hr
  split at hr
  · cases hr
  · injection hr with hr
    subst hr
    exact State.modLayerOf_keeps (hw.sub (by decide)) _ _ _ h

theorem State.grantAll_keeps {pts : List Part} (hw : Within [.jobs] pts) {bef : State} {s : State} (j : Nat) (h : bef.Keeps
    pts s) : bef.Keeps pts (State.grantAll s j) := by
  unfold State.grantAll
  repeat' (first
    | with_reducible assumption | ((with_reducible refine Within.sub hw ?_); decide)
    | (fail_if_no_progress extract_lets -underBinder -merge -useContext +onlyGivenNames z
       first
       | (refine keeps_cut (s := z) ?_ ?_; (on_goal 1 => unfold z); on_goal 2 => (intro _; try clear_value z))
       | (refine keeps_cut (s := z.2) ?_ ?_; (on_goal 1 => unfold z); on_goal 2 => (intro _; try clear_value z))
       | (refine keeps_cut (s := z.1) ?_ ?_; (on_goal 1 => unfold z); on_goal 2 => (intro _; try clear_value z))
       | (refine keeps_cut (s := z.2.1) ?_ ?_; (on_goal 1 => unfold z); on_goal 2 => (intro _; try clear_value z))
       | try clear_value z)
    | with_reducible refine State.grant_keeps (hw.sub (by decide)) _ _ (by with_reducible assumption) ?_
    | with_reducible apply State.modJob_keeps | with_reducible apply keeps_foldl | with_reducible apply keeps_foldl_fst
    | with_reducible apply keeps_foldl_snd | with_reducible apply keeps_foldl_mid | with_reducible apply keeps_ite
    | with_reducible apply keeps_ite_snd | split
    | ((with_reducible refine State.keeps_mk hw (by assumption) rfl ?_)
       intro p; cases p <;> (first | exact .inl (by decide) | exact .inr rfl))
    | (intro _; intros; try beta_reduce))

theorem State.placeLayer_keeps {pts : List Part} (hw : Within [.jobs] pts) {bef : State} {s : State} (j : Nat) (vectors :
    Nat) (l : Layer) (h : bef.Keeps pts s) :
    bef.Keeps pts (State.placeLayer s j vectors l) := by
  have hp : ∀ p, bef.Keeps pts (s.modLayerOf j l.tag (fun l => l.to p)) := fun p => State.modLayerOf_keeps (hw.sub (by
      decide)) _ _ _ h
  have hg : bef.Keeps pts ((s.grant j l).getD (s.modLayerOf j l.tag (fun x => x.to l.place))) := by
    cases hr : s.grant j l with
    | none => exact hp _
    | some r => exact State.grant_keeps (hw.sub (by decide)) _ _ hr h
  unfold State.placeLayer
  simp only
  repeat' (first
    | exact h
    | exact hp _
    | exact hg
    | with_reducible apply keeps_ite)

theorem State.placeLayers_keeps {pts : List Part} (hw : Within [.jobs] pts) {bef : State} {s : State} (j : Nat) (vectors :
    Nat) (h : bef.Keeps pts s) : bef.Keeps pts (State.placeLayers s j vectors) := by
  unfold State.placeLayers
  repeat' (first
    | with_reducible assumption | ((with_reducible refine Within.sub hw ?_); decide)
    | with_reducible apply State.placeLayer_keeps | with_reducible apply keeps_foldl | with_reducible apply keeps_ite
    | with_reducible apply keeps_ite_snd | split | (intro _; intros; try beta_reduce))

theorem State.standIn_keeps {pts : List Part} (hw : Within [.cores] pts) {bef : State} {s : State} (c : Nat) (slot : Nat) (h
    : bef.Keeps pts s) : bef.Keeps pts (State.standIn s c slot) := by
  unfold State.standIn
  repeat' (first
    | with_reducible assumption | ((with_reducible refine Within.sub hw ?_); decide)
    | (fail_if_no_progress extract_lets -underBinder -merge -useContext +onlyGivenNames z
       first
       | (refine keeps_cut (s := z) ?_ ?_; (on_goal 1 => unfold z); on_goal 2 => (intro _; try clear_value z))
       | (refine keeps_cut (s := z.2) ?_ ?_; (on_goal 1 => unfold z); on_goal 2 => (intro _; try clear_value z))
       | (refine keeps_cut (s := z.1) ?_ ?_; (on_goal 1 => unfold z); on_goal 2 => (intro _; try clear_value z))
       | (refine keeps_cut (s := z.2.1) ?_ ?_; (on_goal 1 => unfold z); on_goal 2 => (intro _; try clear_value z))
       | try clear_value z)
    | with_reducible apply State.modCore_keeps | with_reducible apply keeps_ite | with_reducible apply keeps_ite_snd | split
    | ((with_reducible refine State.keeps_mk hw (by assumption) rfl ?_)
       intro p; cases p <;> (first | exact .inl (by decide) | exact .inr rfl))
    | (intro _; intros; try beta_reduce))

theorem State.fixSlots_keeps {pts : List Part} (hw : Within [.cores, .engines] pts) {bef : State} {s : State} (c : Nat) (h :
    bef.Keeps pts s) : bef.Keeps pts (State.fixSlots s c).1 := by
  unfold State.fixSlots
  repeat' (first
    | with_reducible assumption | ((with_reducible refine Within.sub hw ?_); decide)
    | (fail_if_no_progress extract_lets -underBinder -merge -useContext +onlyGivenNames z
       first
       | (refine keeps_cut (s := z) ?_ ?_; (on_goal 1 => unfold z); on_goal 2 => (intro _; try clear_value z))
       | (refine keeps_cut (s := z.2) ?_ ?_; (on_goal 1 => unfold z); on_goal 2 => (intro _; try clear_value z))
       | (refine keeps_cut (s := z.1) ?_ ?_; (on_goal 1 => unfold z); on_goal 2 => (intro _; try clear_value z))
       | (refine keeps_cut (s := z.2.1) ?_ ?_; (on_goal 1 => unfold z); on_goal 2 => (intro _; try clear_value z))
       | try clear_value z)
    | with_reducible apply State.standIn_keeps | with_reducible apply State.mapSlot_keeps
    | with_reducible apply State.modEng_keeps | with_reducible apply keeps_foldl | with_reducible apply keeps_foldl_fst
    | with_reducible apply keeps_foldl_snd | with_reducible apply keeps_foldl_mid | with_reducible apply keeps_ite
    | with_reducible apply keeps_ite_snd | split
    | ((with_reducible refine State.keeps_mk hw (by assumption) rfl ?_)
       intro p; cases p <;> (first | exact .inl (by decide) | exact .inr rfl))
    | (intro _; intros; try beta_reduce))

theorem State.copyCode_keeps {pts : List Part} (hw : Within [.mem] pts) {bef : State} {s : State} (j : Nat) (l : Nat) (h :
    bef.Keeps pts s) : bef.Keeps pts (State.copyCode s j l) := by
  unfold State.copyCode
  repeat' (first
    | with_reducible assumption | ((with_reducible refine Within.sub hw ?_); decide)
    | (fail_if_no_progress extract_lets -underBinder -merge -useContext +onlyGivenNames z
       first
       | (refine keeps_cut (s := z) ?_ ?_; (on_goal 1 => unfold z); on_goal 2 => (intro _; try clear_value z))
       | try clear_value z)
    | with_reducible apply keeps_ite | with_reducible apply keeps_ite_snd | split
    | ((with_reducible refine State.keeps_mk hw (by assumption) rfl ?_)
       intro p; cases p <;> (first | exact .inl (by decide) | exact .inr rfl))
    | ((with_reducible refine State.keeps_mem hw (by assumption) rfl ?_ ?_)
       on_goal 1 => (intro p; cases p <;> (first | exact .inl (by decide) | exact .inr rfl)))
    | with_reducible apply Mem.write_wf | with_reducible apply Mem.copy_wf | with_reducible apply Mem.move_wf
    | with_reducible apply Mem.clear_wf | with_reducible apply Mem.putCells_wf | (intro _; intros; try beta_reduce))

theorem State.bind_keeps {pts : List Part} (hw : Within [.mem, .cores, .jobs] pts) {bef : State} {s : State} (j : Nat) (l :
    Nat) (c : Nat) (h : bef.Keeps pts s) : bef.Keeps pts (State.bind s j l c) := by
  unfold State.bind
  repeat' (first
    | with_reducible assumption | ((with_reducible refine Within.sub hw ?_); decide)
    | (fail_if_no_progress extract_lets -underBinder -merge -useContext +onlyGivenNames z
       first
       | (refine keeps_cut (s := z) ?_ ?_; (on_goal 1 => unfold z); on_goal 2 => (intro _; try clear_value z))
       | try clear_value z)
    | with_reducible apply State.copyCode_keeps | with_reducible apply State.modJob_keeps | with_reducible apply keeps_ite
    | with_reducible apply keeps_ite_snd | split
    | ((with_reducible refine State.keeps_mk hw (by assumption) rfl ?_)
       intro p; cases p <;> (first | exact .inl (by decide) | exact .inr rfl))
    | (intro _; intros; try beta_reduce))

theorem State.dropHeld_keeps {pts : List Part} (hw : Within [.cores, .engines] pts) {bef : State} {s : State} (c : Nat) (j :
    Nat) (h : bef.Keeps pts s) : bef.Keeps pts (State.dropHeld s c j) := by
  unfold State.dropHeld
  repeat' (first
    | with_reducible assumption | ((with_reducible refine Within.sub hw ?_); decide)
    | with_reducible apply State.clearCore_keeps | with_reducible apply keeps_ite | with_reducible apply keeps_ite_snd
    | split | (intro _; intros; try beta_reduce))

theorem State.rebind_keeps {pts : List Part} (hw : Within [.mem, .cores, .engines, .jobs] pts) {bef : State} {s : State} (j :
    Nat) (gone : List Nat) (h : bef.Keeps pts s) : bef.Keeps pts (State.rebind s j gone) := by
  unfold State.rebind
  repeat' (first
    | with_reducible assumption | ((with_reducible refine Within.sub hw ?_); decide)
    | (fail_if_no_progress extract_lets -underBinder -merge -useContext +onlyGivenNames z
       first
       | (refine keeps_cut (s := z) ?_ ?_; (on_goal 1 => unfold z); on_goal 2 => (intro _; try clear_value z))
       | try clear_value z)
    | with_reducible apply State.dropHeld_keeps | with_reducible apply State.bind_keeps | with_reducible apply keeps_foldl
    | with_reducible apply keeps_ite | with_reducible apply keeps_ite_snd | split
    | ((with_reducible refine State.keeps_mk hw (by assumption) rfl ?_)
       intro p; cases p <;> (first | exact .inl (by decide) | exact .inr rfl))
    | (intro _; intros; try beta_reduce))

theorem State.undouble_keeps {pts : List Part} (hw : Within [.mem, .cores, .engines, .jobs] pts) {bef : State} {s : State} (j
    : Nat) (h : bef.Keeps pts s) : bef.Keeps pts (State.undouble s j) := by
  unfold State.undouble
  repeat' (first
    | with_reducible assumption | ((with_reducible refine Within.sub hw ?_); decide)
    | (fail_if_no_progress extract_lets -underBinder -merge -useContext +onlyGivenNames z
       first
       | (refine keeps_cut (s := z) ?_ ?_; (on_goal 1 => unfold z); on_goal 2 => (intro _; try clear_value z))
       | try clear_value z)
    | with_reducible apply State.bind_keeps | with_reducible apply State.saveCore_keeps | with_reducible apply keeps_foldl
    | with_reducible apply keeps_ite | with_reducible apply keeps_ite_snd | split
    | ((with_reducible refine State.keeps_mk hw (by assumption) rfl ?_)
       intro p; cases p <;> (first | exact .inl (by decide) | exact .inr rfl))
    | (intro _; intros; try beta_reduce))

theorem State.replaceUnits_keeps {pts : List Part} (hw : Within [.mem, .cores, .engines, .jobs] pts) {bef : State} {s :
    State} (j : Nat) (worst : Nat) (h : bef.Keeps pts s) : bef.Keeps pts (State.replaceUnits s j worst) := by
  unfold State.replaceUnits
  repeat' (first
    | with_reducible assumption | ((with_reducible refine Within.sub hw ?_); decide)
    | (fail_if_no_progress extract_lets -underBinder -merge -useContext +onlyGivenNames z
       first
       | (refine keeps_cut (s := z) ?_ ?_; (on_goal 1 => unfold z); on_goal 2 => (intro _; try clear_value z))
       | (refine keeps_cut (s := z.2) ?_ ?_; (on_goal 1 => unfold z); on_goal 2 => (intro _; try clear_value z))
       | (refine keeps_cut (s := z.1) ?_ ?_; (on_goal 1 => unfold z); on_goal 2 => (intro _; try clear_value z))
       | (refine keeps_cut (s := z.2.1) ?_ ?_; (on_goal 1 => unfold z); on_goal 2 => (intro _; try clear_value z))
       | try clear_value z)
    | with_reducible apply State.undouble_keeps | with_reducible apply State.rebind_keeps
    | with_reducible apply State.fixSlots_keeps | with_reducible apply keeps_foldl | with_reducible apply keeps_foldl_fst
    | with_reducible apply keeps_foldl_snd | with_reducible apply keeps_foldl_mid | with_reducible apply keeps_ite
    | with_reducible apply keeps_ite_snd | split | (intro _; intros; try beta_reduce))

end Sys2Proof.Machine
end

