-- ==== Sys2Proof/Laws/KeepsStacks.lean ====
section
/-! SUPPORT. What the operations of Machine/Stacks.lean keep. -/

namespace Sys2Proof.Machine

theorem State.switchOut_keeps {pts : List Part} (hw : Within [.sched] pts) {bef : State} {s : State} (j : Nat) (h : bef.Keeps
    pts s) : bef.Keeps pts (State.switchOut s j) := by
  unfold State.switchOut
  repeat' (first
    | with_reducible assumption | ((with_reducible refine Within.sub hw ?_); decide)
    | (fail_if_no_progress extract_lets -underBinder -merge -useContext +onlyGivenNames z
       first
       | (refine keeps_cut (s := z) ?_ ?_; (on_goal 1 => unfold z); on_goal 2 => (intro _; try clear_value z))
       | try clear_value z)
    | with_reducible apply keeps_ite | with_reducible apply keeps_ite_snd | split
    | ((with_reducible refine State.keeps_mk hw (by assumption) rfl ?_)
       intro p; cases p <;> (first | exact .inl (by decide) | exact .inr rfl))
    | (intro _; intros; try beta_reduce))

theorem State.holdJob_keeps {pts : List Part} (hw : Within [.run, .od, .units, .jobs, .sched, .hosts, .events] pts) {bef :
    State} {s : State} (j : Nat) (h : bef.Keeps pts s) : bef.Keeps pts (State.holdJob s j) := by
  unfold State.holdJob
  repeat' (first
    | with_reducible assumption | ((with_reducible refine Within.sub hw ?_); decide)
    | (fail_if_no_progress extract_lets -underBinder -merge -useContext +onlyGivenNames z
       first
       | (refine keeps_cut (s := z) ?_ ?_; (on_goal 1 => unfold z); on_goal 2 => (intro _; try clear_value z))
       | try clear_value z)
    | with_reducible apply State.switchOut_keeps | with_reducible apply State.jobTo_keeps
    | with_reducible apply State.modJob_keeps | with_reducible apply keeps_ite | with_reducible apply keeps_ite_snd | split
    | ((with_reducible refine State.keeps_mk hw (by assumption) rfl ?_)
       intro p; cases p <;> (first | exact .inl (by decide) | exact .inr rfl))
    | (intro _; intros; try beta_reduce))

theorem State.replaceFrames_keeps {pts : List Part} (hw : Within [.mem, .jobs, .free] pts) {bef : State} {s : State} (j :
    Nat) (k : FrameKind) (lost : List Nat)
    {r : State × List (Nat × Nat)} (hr : State.replaceFrames s j k lost = some r) (h : bef.Keeps pts s) : bef.Keeps pts r.1
        := by
  unfold State.replaceFrames at hr
  suffices hs : ∀ (o : Option (State × List (Nat × Nat))), (∀ r, o = some r → bef.Keeps pts r.1) → ∀ r,
      lost.foldl (fun acc a => match acc with
        | none => none
        | some (s, ms) => match s.takeFrame j k with
          | none => none
          | some (b, s) => some ({ s with mem := s.mem.copy a b ((s.job j).frameBytes k) }, ms ++ [(a, b)])) o = some r →
        bef.Keeps pts r.1 from hs _ (by rintro r ⟨⟩; exact h) r hr
  clear hr
  induction lost with
  | nil => exact fun o ho r hr => ho r hr
  | cons x l ih =>
    intro o ho
    refine ih _ ?_
    rintro ⟨r, ms⟩ hr
    dsimp only at hr
    split at hr
    · cases hr
    · split at hr
      · cases hr
      · rename_i hx
        injection hr with hr
        injection hr with hr
        subst hr
        exact State.keeps_mem hw (State.takeFrame_keeps (hw.sub (by decide)) _ _ hx (ho _ rfl)) rfl (by intro p; cases p <;> first | exact .inl (by decide) | exact .inr rfl) (fun w => Mem.copy_wf _ _ _ _ w)

theorem State.rebuildFrames_keeps {pts : List Part} (hw : Within [.mem, .jobs, .streams, .free] pts) {bef : State} {s :
    State} (n : Nat) (m : Nat) {r : State}
    (hr : State.rebuildFrames s n m = some r) (h : bef.Keeps pts s) : bef.Keeps pts r := by
  unfold State.rebuildFrames at hr
  simp only at hr
  split at hr
  · cases hr
  · rename_i h1
    split at hr
    · cases hr
    · rename_i h2
      injection hr with hr
      subst hr
      refine State.modStream_keeps (hw.sub (by decide)) _ _ (State.modJob_keeps (hw.sub (by decide)) _ _
        (State.keeps_mem hw (State.replaceFrames_keeps (hw.sub (by decide)) _ _ _ h2 (State.replaceFrames_keeps (hw.sub (by decide)) _ _ _ h1 h)) rfl (by intro p; cases p <;> first | exact .inl (by decide) | exact .inr rfl) ?_))
      intro w
      refine mem_wf_foldl w (fun m a w => mem_wf_foldl w (fun m i w => ?_))
      split
      · exact w
      · exact Mem.write_wf _ _ _ w

theorem State.streamLoses_keeps {pts : List Part} (hw : Within [.out, .od, .mem, .jobs, .streams, .hosts, .free] pts) {bef :
    State} {s : State} (n : Nat) (m : Nat) (h : bef.Keeps pts s) : bef.Keeps pts (State.streamLoses s n m) := by
  unfold State.streamLoses
  repeat' (first
    | with_reducible assumption | ((with_reducible refine Within.sub hw ?_); decide)
    | (fail_if_no_progress extract_lets -underBinder -merge -useContext +onlyGivenNames z
       first
       | (refine keeps_cut (s := z) ?_ ?_; (on_goal 1 => unfold z); on_goal 2 => (intro _; try clear_value z))
       | (refine keeps_cut (s := z.2) ?_ ?_; (on_goal 1 => unfold z); on_goal 2 => (intro _; try clear_value z))
       | (refine keeps_cut (s := z.1) ?_ ?_; (on_goal 1 => unfold z); on_goal 2 => (intro _; try clear_value z))
       | (refine keeps_cut (s := z.2.1) ?_ ?_; (on_goal 1 => unfold z); on_goal 2 => (intro _; try clear_value z))
       | try clear_value z)
    | with_reducible refine State.rebuildFrames_keeps (hw.sub (by decide)) _ _ (by with_reducible assumption) ?_
    | with_reducible apply State.streamTo_keeps | with_reducible apply keeps_ite | with_reducible apply keeps_ite_snd
    | split
    | ((with_reducible refine State.keeps_mk hw (by assumption) rfl ?_)
       intro p; cases p <;> (first | exact .inl (by decide) | exact .inr rfl))
    | (intro _; intros; try beta_reduce))

theorem State.retireStack_keeps {pts : List Part} (hw : Within [.out, .run, .od, .units, .mem, .jobs, .streams, .sched,
    .epoch, .hosts, .loops, .convs, .events, .free] pts) {bef : State} {s : State} (m : Nat) (h : bef.Keeps pts s) :
    bef.Keeps pts (State.retireStack s m) := by
  unfold State.retireStack
  repeat' (first
    | with_reducible assumption | ((with_reducible refine Within.sub hw ?_); decide)
    | (fail_if_no_progress extract_lets -underBinder -merge -useContext +onlyGivenNames z
       first
       | (refine keeps_cut (s := z) ?_ ?_; (on_goal 1 => unfold z); on_goal 2 => (intro _; try clear_value z))
       | try clear_value z)
    | with_reducible apply State.streamLoses_keeps | with_reducible apply State.holdJob_keeps
    | with_reducible apply State.setUnit_keeps | with_reducible apply State.raise_keeps
    | with_reducible apply State.setVal_keeps | with_reducible apply State.modUnit_keeps | with_reducible apply keeps_foldl
    | with_reducible apply keeps_forRange | with_reducible apply keeps_ite | with_reducible apply keeps_ite_snd | split
    | ((with_reducible refine State.keeps_mk hw (by assumption) rfl ?_)
       intro p; cases p <;> (first | exact .inl (by decide) | exact .inr rfl))
    | (intro _; intros; try beta_reduce))

theorem State.uncorrectable_keeps {pts : List Part} (hw : Within [.out, .run, .od, .units, .mem, .jobs, .streams, .sched,
    .epoch, .hosts, .loops, .convs, .events, .free] pts) {bef : State} {s : State} (a : Nat) (scrub : Bool) (h : bef.Keeps
    pts s) : bef.Keeps pts (State.uncorrectable s a scrub) := by
  unfold State.uncorrectable
  repeat' (first
    | with_reducible assumption | ((with_reducible refine Within.sub hw ?_); decide)
    | (fail_if_no_progress extract_lets -underBinder -merge -useContext +onlyGivenNames z
       first
       | (refine keeps_cut (s := z) ?_ ?_; (on_goal 1 => unfold z); on_goal 2 => (intro _; try clear_value z))
       | try clear_value z)
    | with_reducible apply State.retireStack_keeps | with_reducible apply State.countFault_keeps
    | with_reducible apply State.raise_keeps | with_reducible apply State.bump_keeps | with_reducible apply keeps_ite
    | with_reducible apply keeps_ite_snd | split
    | ((with_reducible refine State.keeps_mk hw (by assumption) rfl ?_)
       intro p; cases p <;> (first | exact .inl (by decide) | exact .inr rfl))
    | (intro _; intros; try beta_reduce))

end Sys2Proof.Machine
end

