-- ==== Sys2Proof/Laws/KeepsJobs.lean ====
section
/-! SUPPORT. What the operations of Machine/Jobs.lean keep. -/

namespace Sys2Proof.Machine

theorem State.loadRq_keeps {pts : List Part} (hw : Within [.out, .od, .mem, .jobs, .hosts, .events] pts) {bef : State} (r :
    Rq) {s : State} (h : bef.Keeps pts s) : bef.Keeps pts (State.loadRq r s) := by
  unfold State.loadRq
  repeat' (first
    | with_reducible assumption | ((with_reducible refine Within.sub hw ?_); decide)
    | (fail_if_no_progress extract_lets -underBinder -merge -useContext +onlyGivenNames z
       first
       | (refine keeps_cut (s := z) ?_ ?_; (on_goal 1 => unfold z); on_goal 2 => (intro _; try clear_value z))
       | try clear_value z)
    | with_reducible apply State.answerDenied_keeps | with_reducible apply State.answer_keeps
    | with_reducible apply State.modJob_keeps | with_reducible apply keeps_ite | with_reducible apply keeps_ite_snd | split
    | ((with_reducible refine State.keeps_mk hw (by assumption) rfl ?_)
       intro p; cases p <;> (first | exact .inl (by decide) | exact .inr rfl))
    | (intro _; intros; try beta_reduce))

theorem execLoad_keeps (dt : Nat) (s : State) :
    ∃ t, execLoad dt s = .next t ∧ (s.elapse dt).Keeps [.out, .od, .mem, .jobs, .hosts, .round, .events] t := by
  unfold execLoad
  refine ⟨_, rfl, ?_⟩
  have hw : Within [.out, .od, .mem, .jobs, .hosts, .round, .events] [.out, .od, .mem, .jobs, .hosts, .round, .events] := fun
      _ h => h
  have h := State.Keeps.refl [.out, .od, .mem, .jobs, .hosts, .round, .events] (s.elapse dt)
  generalize s.elapse dt = bef at h ⊢
  repeat' (first
    | with_reducible assumption | ((with_reducible refine Within.sub hw ?_); decide)
    | with_reducible apply State.loadRq_keeps | with_reducible apply State.serve_keeps | with_reducible apply keeps_ite
    | with_reducible apply keeps_ite_snd | split | (intro _; intros; try beta_reduce))

theorem State.loadDone_keeps {pts : List Part} (hw : Within [.out, .run, .od, .units, .mem, .jobs, .sched, .hosts, .events]
    pts) {bef : State} {s : State} (j : Nat) (h : bef.Keeps pts s) : bef.Keeps pts (State.loadDone s j) := by
  unfold State.loadDone
  repeat' (first
    | with_reducible assumption | ((with_reducible refine Within.sub hw ?_); decide)
    | (fail_if_no_progress extract_lets -underBinder -merge -useContext +onlyGivenNames z
       first
       | (refine keeps_cut (s := z) ?_ ?_; (on_goal 1 => unfold z); on_goal 2 => (intro _; try clear_value z))
       | try clear_value z)
    | with_reducible apply State.copyCode_keeps | with_reducible apply State.grantAll_keeps
    | with_reducible apply State.jobTo_keeps | with_reducible apply State.done_keeps
    | with_reducible apply State.modJob_keeps | with_reducible apply keeps_foldl | with_reducible apply keeps_ite
    | with_reducible apply keeps_ite_snd | split
    | ((with_reducible refine State.keeps_mk hw (by assumption) rfl ?_)
       intro p; cases p <;> (first | exact .inl (by decide) | exact .inr rfl))
    | (intro _; intros; try beta_reduce))

theorem execLoadComplete_keeps (dt : Nat) (slot : Fin 8) (s : State) :
    ∃ t, execLoadComplete dt slot s = .next t ∧ (s.elapse dt).Keeps [.out, .run, .od, .units, .mem, .jobs, .sched, .hosts,
        .events] t := by
  unfold execLoadComplete
  refine ⟨_, rfl, ?_⟩
  have hw : Within [.out, .run, .od, .units, .mem, .jobs, .sched, .hosts, .events] [.out, .run, .od, .units, .mem, .jobs,
      .sched, .hosts, .events] := fun _ h => h
  have h := State.Keeps.refl [.out, .run, .od, .units, .mem, .jobs, .sched, .hosts, .events] (s.elapse dt)
  generalize s.elapse dt = bef at h ⊢
  repeat' (first
    | with_reducible assumption | ((with_reducible refine Within.sub hw ?_); decide)
    | with_reducible apply State.loadDone_keeps | with_reducible apply keeps_ite | with_reducible apply keeps_ite_snd
    | split | (intro _; intros; try beta_reduce))

theorem State.emptyBanks_keeps {pts : List Part} (hw : Within [.cores, .engines] pts) {bef : State} {s : State} (j : Nat) (h
    : bef.Keeps pts s) : bef.Keeps pts (State.emptyBanks s j) := by
  unfold State.emptyBanks
  repeat' (first
    | with_reducible assumption | ((with_reducible refine Within.sub hw ?_); decide)
    | (fail_if_no_progress extract_lets -underBinder -merge -useContext +onlyGivenNames z
       first
       | (refine keeps_cut (s := z) ?_ ?_; (on_goal 1 => unfold z); on_goal 2 => (intro _; try clear_value z))
       | (refine keeps_cut (s := z.2) ?_ ?_; (on_goal 1 => unfold z); on_goal 2 => (intro _; try clear_value z))
       | (refine keeps_cut (s := z.1) ?_ ?_; (on_goal 1 => unfold z); on_goal 2 => (intro _; try clear_value z))
       | (refine keeps_cut (s := z.2.1) ?_ ?_; (on_goal 1 => unfold z); on_goal 2 => (intro _; try clear_value z))
       | try clear_value z)
    | with_reducible apply State.modEng_keeps | with_reducible apply State.modCore_keeps
    | with_reducible apply keeps_forRange | with_reducible apply keeps_forRange_fst
    | with_reducible apply keeps_forRange_snd | with_reducible apply keeps_ite | with_reducible apply keeps_ite_snd | split
    | ((with_reducible refine State.keeps_mk hw (by assumption) rfl ?_)
       intro p; cases p <;> (first | exact .inl (by decide) | exact .inr rfl))
    | (intro _; intros; try beta_reduce))

theorem State.unloadNow_keeps {pts : List Part} (hw : Within [.out, .run, .od, .units, .mem, .cores, .engines, .jobs,
    .streams, .sched, .twin, .hosts, .events] pts) {bef : State} {s : State} (j : Nat) (h : bef.Keeps pts s) : bef.Keeps pts
    (State.unloadNow s j) := by
  unfold State.unloadNow
  repeat' (first
    | with_reducible assumption | ((with_reducible refine Within.sub hw ?_); decide)
    | (fail_if_no_progress extract_lets -underBinder -merge -useContext +onlyGivenNames z
       first
       | (refine keeps_cut (s := z) ?_ ?_; (on_goal 1 => unfold z); on_goal 2 => (intro _; try clear_value z))
       | try clear_value z)
    | with_reducible apply State.emptyBanks_keeps | with_reducible apply State.failLaunch_keeps
    | with_reducible apply State.discardJob_keeps | with_reducible apply State.jobTo_keeps
    | with_reducible apply State.closeNow_keeps | with_reducible apply State.logClosed_keeps
    | with_reducible apply State.modJob_keeps | with_reducible apply keeps_foldl | with_reducible apply keeps_ite
    | with_reducible apply keeps_ite_snd | split
    | ((with_reducible refine State.keeps_mk hw (by assumption) rfl ?_)
       intro p; cases p <;> (first | exact .inl (by decide) | exact .inr rfl))
    | (intro _; intros; try beta_reduce))

theorem State.jobRq_keeps {pts : List Part} (hw : Within [.out, .od, .mem, .hosts, .events] pts) {bef : State} (r : Rq) (ok :
    JobSt → Bool) (f : Nat → State → State) {s : State} (h : bef.Keeps pts s) (hf : ∀ y0 y1, bef.Keeps pts y1 → bef.Keeps pts
    (f y0 y1)) : bef.Keeps pts (State.jobRq r ok f s) := by
  unfold State.jobRq
  repeat' (first
    | with_reducible assumption | with_reducible apply hf | ((with_reducible refine Within.sub hw ?_); decide)
    | (fail_if_no_progress extract_lets -underBinder -merge -useContext +onlyGivenNames z
       first
       | (refine keeps_cut (s := z) ?_ ?_; (on_goal 1 => unfold z); on_goal 2 => (intro _; try clear_value z))
       | try clear_value z)
    | with_reducible apply State.answerDenied_keeps | with_reducible apply State.answer_keeps
    | with_reducible apply keeps_ite | with_reducible apply keeps_ite_snd | split
    | ((with_reducible refine State.keeps_mk hw (by assumption) rfl ?_)
       intro p; cases p <;> (first | exact .inl (by decide) | exact .inr rfl))
    | (intro _; intros; try beta_reduce))

theorem State.unloadRq_keeps {pts : List Part} (hw : Within [.out, .run, .od, .units, .mem, .cores, .engines, .jobs,
    .streams, .sched, .twin, .hosts, .events] pts) {bef : State} (r : Rq) {s : State} (h : bef.Keeps pts s) : bef.Keeps pts
    (State.unloadRq r s) := by
  unfold State.unloadRq
  repeat' (first
    | with_reducible assumption | ((with_reducible refine Within.sub hw ?_); decide)
    | (fail_if_no_progress extract_lets -underBinder -merge -useContext +onlyGivenNames z
       first
       | (refine keeps_cut (s := z) ?_ ?_; (on_goal 1 => unfold z); on_goal 2 => (intro _; try clear_value z))
       | try clear_value z)
    | with_reducible apply State.jobRq_keeps | with_reducible apply State.unloadNow_keeps
    | with_reducible apply State.modJob_keeps | with_reducible apply keeps_ite | with_reducible apply keeps_ite_snd | split
    | ((with_reducible refine State.keeps_mk hw (by assumption) rfl ?_)
       intro p; cases p <;> (first | exact .inl (by decide) | exact .inr rfl))
    | (intro _; intros; try beta_reduce))

theorem State.holdRq_keeps {pts : List Part} (hw : Within [.out, .run, .od, .units, .mem, .jobs, .sched, .hosts, .events]
    pts) {bef : State} (r : Rq) {s : State} (h : bef.Keeps pts s) : bef.Keeps pts (State.holdRq r s) := by
  unfold State.holdRq
  repeat' (first
    | with_reducible assumption | ((with_reducible refine Within.sub hw ?_); decide)
    | with_reducible apply State.jobRq_keeps | with_reducible apply State.holdJob_keeps | with_reducible apply keeps_ite
    | with_reducible apply keeps_ite_snd | split | (intro _; intros; try beta_reduce))

theorem State.releaseRq_keeps {pts : List Part} (hw : Within [.out, .run, .od, .units, .mem, .jobs, .sched, .hosts, .events]
    pts) {bef : State} (r : Rq) {s : State} (h : bef.Keeps pts s) : bef.Keeps pts (State.releaseRq r s) := by
  unfold State.releaseRq
  repeat' (first
    | with_reducible assumption | ((with_reducible refine Within.sub hw ?_); decide)
    | (fail_if_no_progress extract_lets -underBinder -merge -useContext +onlyGivenNames z
       first
       | (refine keeps_cut (s := z) ?_ ?_; (on_goal 1 => unfold z); on_goal 2 => (intro _; try clear_value z))
       | try clear_value z)
    | with_reducible apply State.jobRq_keeps | with_reducible apply State.jobTo_keeps
    | with_reducible apply State.modJob_keeps | with_reducible apply keeps_ite | with_reducible apply keeps_ite_snd | split
    | ((with_reducible refine State.keeps_mk hw (by assumption) rfl ?_)
       intro p; cases p <;> (first | exact .inl (by decide) | exact .inr rfl))
    | (intro _; intros; try beta_reduce))

theorem execUnload_keeps (dt : Nat) (s : State) :
    ∃ t, execUnload dt s = .next t ∧ (s.elapse dt).Keeps [.out, .run, .od, .units, .mem, .cores, .engines, .jobs, .streams,
        .sched, .twin, .hosts, .round, .events] t := by
  unfold execUnload
  refine ⟨_, rfl, ?_⟩
  have hw : Within [.out, .run, .od, .units, .mem, .cores, .engines, .jobs, .streams, .sched, .twin, .hosts, .round, .events]
      [.out, .run, .od, .units, .mem, .cores, .engines, .jobs, .streams, .sched, .twin, .hosts, .round, .events] := fun _ h => h
  have h := State.Keeps.refl [.out, .run, .od, .units, .mem, .cores, .engines, .jobs, .streams, .sched, .twin, .hosts,
      .round, .events] (s.elapse dt)
  generalize s.elapse dt = bef at h ⊢
  repeat' (first
    | with_reducible assumption | ((with_reducible refine Within.sub hw ?_); decide)
    | with_reducible apply State.unloadRq_keeps | with_reducible apply State.serve_keeps | with_reducible apply keeps_ite
    | with_reducible apply keeps_ite_snd | split | (intro _; intros; try beta_reduce))

theorem execHold_keeps (dt : Nat) (s : State) :
    ∃ t, execHold dt s = .next t ∧ (s.elapse dt).Keeps [.out, .run, .od, .units, .mem, .jobs, .sched, .hosts, .round,
        .events] t := by
  unfold execHold
  refine ⟨_, rfl, ?_⟩
  have hw : Within [.out, .run, .od, .units, .mem, .jobs, .sched, .hosts, .round, .events] [.out, .run, .od, .units, .mem,
      .jobs, .sched, .hosts, .round, .events] := fun _ h => h
  have h := State.Keeps.refl [.out, .run, .od, .units, .mem, .jobs, .sched, .hosts, .round, .events] (s.elapse dt)
  generalize s.elapse dt = bef at h ⊢
  repeat' (first
    | with_reducible assumption | ((with_reducible refine Within.sub hw ?_); decide)
    | with_reducible apply State.holdRq_keeps | with_reducible apply State.serve_keeps | with_reducible apply keeps_ite
    | with_reducible apply keeps_ite_snd | split | (intro _; intros; try beta_reduce))

theorem execRelease_keeps (dt : Nat) (s : State) :
    ∃ t, execRelease dt s = .next t ∧ (s.elapse dt).Keeps [.out, .run, .od, .units, .mem, .jobs, .sched, .hosts, .round,
        .events] t := by
  unfold execRelease
  refine ⟨_, rfl, ?_⟩
  have hw : Within [.out, .run, .od, .units, .mem, .jobs, .sched, .hosts, .round, .events] [.out, .run, .od, .units, .mem,
      .jobs, .sched, .hosts, .round, .events] := fun _ h => h
  have h := State.Keeps.refl [.out, .run, .od, .units, .mem, .jobs, .sched, .hosts, .round, .events] (s.elapse dt)
  generalize s.elapse dt = bef at h ⊢
  repeat' (first
    | with_reducible assumption | ((with_reducible refine Within.sub hw ?_); decide)
    | with_reducible apply State.releaseRq_keeps | with_reducible apply State.serve_keeps | with_reducible apply keeps_ite
    | with_reducible apply keeps_ite_snd | split | (intro _; intros; try beta_reduce))

theorem State.unloadDone_keeps {pts : List Part} (hw : Within [.jobs, .streams, .sched, .pins, .twin] pts) {bef : State} {s :
    State} (j : Nat) (h : bef.Keeps pts s) : bef.Keeps pts (State.unloadDone s j) := by
  unfold State.unloadDone
  repeat' (first
    | with_reducible assumption | ((with_reducible refine Within.sub hw ?_); decide)
    | (fail_if_no_progress extract_lets -underBinder -merge -useContext +onlyGivenNames z
       first
       | (refine keeps_cut (s := z) ?_ ?_; (on_goal 1 => unfold z); on_goal 2 => (intro _; try clear_value z))
       | (refine keeps_cut (s := z.2) ?_ ?_; (on_goal 1 => unfold z); on_goal 2 => (intro _; try clear_value z))
       | (refine keeps_cut (s := z.1) ?_ ?_; (on_goal 1 => unfold z); on_goal 2 => (intro _; try clear_value z))
       | (refine keeps_cut (s := z.2.1) ?_ ?_; (on_goal 1 => unfold z); on_goal 2 => (intro _; try clear_value z))
       | try clear_value z)
    | with_reducible apply State.dropMirror_keeps | with_reducible apply keeps_foldl | with_reducible apply keeps_foldl_fst
    | with_reducible apply keeps_foldl_snd | with_reducible apply keeps_foldl_mid | with_reducible apply keeps_ite
    | with_reducible apply keeps_ite_snd | split
    | ((with_reducible refine State.keeps_mk hw (by assumption) rfl ?_)
       intro p; cases p <;> (first | exact .inl (by decide) | exact .inr rfl))
    | (intro _; intros; try beta_reduce))

theorem execUnloadComplete_keeps (dt : Nat) (slot : Fin 8) (s : State) :
    ∃ t, execUnloadComplete dt slot s = .next t ∧ (s.elapse dt).Keeps [.jobs, .streams, .sched, .pins, .twin] t := by
  unfold execUnloadComplete
  refine ⟨_, rfl, ?_⟩
  have hw : Within [.jobs, .streams, .sched, .pins, .twin] [.jobs, .streams, .sched, .pins, .twin] := fun _ h => h
  have h := State.Keeps.refl [.jobs, .streams, .sched, .pins, .twin] (s.elapse dt)
  generalize s.elapse dt = bef at h ⊢
  repeat' (first
    | with_reducible assumption | ((with_reducible refine Within.sub hw ?_); decide)
    | with_reducible apply State.unloadDone_keeps | with_reducible apply keeps_ite | with_reducible apply keeps_ite_snd
    | split | (intro _; intros; try beta_reduce))

theorem State.takeQueued_keeps {pts : List Part} (hw : Within [.out, .od, .mem, .streams, .sched, .hosts] pts) {bef : State}
    {s : State} (j : Nat) (h : bef.Keeps pts s) : bef.Keeps pts (State.takeQueued s j) := by
  unfold State.takeQueued
  repeat' (first
    | with_reducible assumption | ((with_reducible refine Within.sub hw ?_); decide)
    | (fail_if_no_progress extract_lets -underBinder -merge -useContext +onlyGivenNames z
       first
       | (refine keeps_cut (s := z) ?_ ?_; (on_goal 1 => unfold z); on_goal 2 => (intro _; try clear_value z))
       | (refine keeps_cut (s := z.2) ?_ ?_; (on_goal 1 => unfold z); on_goal 2 => (intro _; try clear_value z))
       | (refine keeps_cut (s := z.1) ?_ ?_; (on_goal 1 => unfold z); on_goal 2 => (intro _; try clear_value z))
       | (refine keeps_cut (s := z.2.1) ?_ ?_; (on_goal 1 => unfold z); on_goal 2 => (intro _; try clear_value z))
       | try clear_value z)
    | with_reducible apply State.streamTo_keeps | with_reducible apply State.modStream_keeps
    | with_reducible apply keeps_foldl | with_reducible apply keeps_foldl_fst | with_reducible apply keeps_foldl_snd
    | with_reducible apply keeps_foldl_mid | with_reducible apply keeps_ite | with_reducible apply keeps_ite_snd | split
    | ((with_reducible refine State.keeps_mk hw (by assumption) rfl ?_)
       intro p; cases p <;> (first | exact .inl (by decide) | exact .inr rfl))
    | with_reducible refine keeps_of_fst (by with_reducible assumption) ?_
    | with_reducible refine keeps_of_snd (by with_reducible assumption) ?_ | (intro _; intros; try beta_reduce))

theorem State.busyShare_keeps {pts : List Part} (hw : Within [.out, .od, .mem, .streams, .sched, .hosts] pts) {bef : State}
    {s : State} (shares : List Nat) (h : bef.Keeps pts s) : bef.Keeps pts (State.busyShare s shares) := by
  unfold State.busyShare
  repeat' (first
    | with_reducible assumption | ((with_reducible refine Within.sub hw ?_); decide)
    | (fail_if_no_progress extract_lets -underBinder -merge -useContext +onlyGivenNames z
       first
       | (refine keeps_cut (s := z) ?_ ?_; (on_goal 1 => unfold z); on_goal 2 => (intro _; try clear_value z))
       | try clear_value z)
    | with_reducible apply State.takeQueued_keeps | with_reducible apply State.setVal_keeps
    | with_reducible apply keeps_forRange | with_reducible apply keeps_ite | with_reducible apply keeps_ite_snd | split
    | ((with_reducible refine State.keeps_mk hw (by assumption) rfl ?_)
       intro p; cases p <;> (first | exact .inl (by decide) | exact .inr rfl))
    | (intro _; intros; try beta_reduce))

theorem execBusyShareInterval_keeps (dt : Nat) (shares : List Nat) (s : State) :
    ∃ t, execBusyShareInterval dt shares s = .next t ∧ (s.elapse dt).Keeps [.out, .od, .mem, .streams, .sched, .hosts] t := by
  unfold execBusyShareInterval
  refine ⟨_, rfl, ?_⟩
  have hw : Within [.out, .od, .mem, .streams, .sched, .hosts] [.out, .od, .mem, .streams, .sched, .hosts] := fun _ h => h
  have h := State.Keeps.refl [.out, .od, .mem, .streams, .sched, .hosts] (s.elapse dt)
  generalize s.elapse dt = bef at h ⊢
  repeat' (first
    | with_reducible assumption | ((with_reducible refine Within.sub hw ?_); decide)
    | with_reducible apply State.busyShare_keeps | with_reducible apply keeps_ite | with_reducible apply keeps_ite_snd
    | split | (intro _; intros; try beta_reduce))

theorem State.emptyLost_keeps {pts : List Part} (hw : Within [.engines] pts) {bef : State} {s : State} (j : Nat) (h :
    bef.Keeps pts s) : bef.Keeps pts (State.emptyLost s j) := by
  unfold State.emptyLost
  repeat' (first
    | with_reducible assumption | ((with_reducible refine Within.sub hw ?_); decide)
    | (fail_if_no_progress extract_lets -underBinder -merge -useContext +onlyGivenNames z
       first
       | (refine keeps_cut (s := z) ?_ ?_; (on_goal 1 => unfold z); on_goal 2 => (intro _; try clear_value z))
       | (refine keeps_cut (s := z.2) ?_ ?_; (on_goal 1 => unfold z); on_goal 2 => (intro _; try clear_value z))
       | (refine keeps_cut (s := z.1) ?_ ?_; (on_goal 1 => unfold z); on_goal 2 => (intro _; try clear_value z))
       | (refine keeps_cut (s := z.2.1) ?_ ?_; (on_goal 1 => unfold z); on_goal 2 => (intro _; try clear_value z))
       | try clear_value z)
    | with_reducible apply keeps_ite | with_reducible apply keeps_ite_snd | split
    | ((with_reducible refine State.keeps_mk hw (by assumption) rfl ?_)
       intro p; cases p <;> (first | exact .inl (by decide) | exact .inr rfl))
    | (intro _; intros; try beta_reduce))

theorem State.saveDone_keeps {pts : List Part} (hw : Within [.run, .od, .units, .cores, .engines, .jobs, .sched, .hosts,
    .events] pts) {bef : State} {s : State} (h : bef.Keeps pts s) : bef.Keeps pts (State.saveDone s) := by
  unfold State.saveDone
  repeat' (first
    | with_reducible assumption | ((with_reducible refine Within.sub hw ?_); decide)
    | (fail_if_no_progress extract_lets -underBinder -merge -useContext +onlyGivenNames z
       first
       | (refine keeps_cut (s := z) ?_ ?_; (on_goal 1 => unfold z); on_goal 2 => (intro _; try clear_value z))
       | (refine keeps_cut (s := z.2) ?_ ?_; (on_goal 1 => unfold z); on_goal 2 => (intro _; try clear_value z))
       | (refine keeps_cut (s := z.1) ?_ ?_; (on_goal 1 => unfold z); on_goal 2 => (intro _; try clear_value z))
       | (refine keeps_cut (s := z.2.1) ?_ ?_; (on_goal 1 => unfold z); on_goal 2 => (intro _; try clear_value z))
       | try clear_value z)
    | with_reducible apply State.emptyLost_keeps | with_reducible apply State.saveJob_keeps
    | with_reducible apply State.jobTo_keeps | with_reducible apply State.modJob_keeps | with_reducible apply keeps_ite
    | with_reducible apply keeps_ite_snd | split
    | ((with_reducible refine State.keeps_mk hw (by assumption) rfl ?_)
       intro p; cases p <;> (first | exact .inl (by decide) | exact .inr rfl))
    | with_reducible refine keeps_of_fst (by with_reducible assumption) ?_
    | with_reducible refine keeps_of_snd (by with_reducible assumption) ?_ | (intro _; intros; try beta_reduce))

theorem State.restoreDone_keeps {pts : List Part} (hw : Within [.out, .run, .od, .units, .mem, .cores, .engines, .jobs,
    .streams, .sched, .hosts, .events] pts) {bef : State} {s : State} (j : Nat) (h : bef.Keeps pts s) : bef.Keeps pts
    (State.restoreDone s j) := by
  unfold State.restoreDone
  repeat' (first
    | with_reducible assumption | ((with_reducible refine Within.sub hw ?_); decide)
    | (fail_if_no_progress extract_lets -underBinder -merge -useContext +onlyGivenNames z
       first
       | (refine keeps_cut (s := z) ?_ ?_; (on_goal 1 => unfold z); on_goal 2 => (intro _; try clear_value z))
       | try clear_value z)
    | with_reducible apply State.takeQueued_keeps | with_reducible apply State.restoreJob_keeps
    | with_reducible apply State.saveRegions_keeps | with_reducible apply State.jobTo_keeps
    | with_reducible apply State.bump_keeps | with_reducible apply keeps_ite | with_reducible apply keeps_ite_snd | split
    | ((with_reducible refine State.keeps_mk hw (by assumption) rfl ?_)
       intro p; cases p <;> (first | exact .inl (by decide) | exact .inr rfl))
    | (intro _; intros; try beta_reduce))

theorem execJobRestoreDone_keeps (dt : Nat) (slot : Fin 8) (s : State) :
    ∃ t, execJobRestoreDone dt slot s = .next t ∧ (s.elapse dt).Keeps [.out, .run, .od, .units, .mem, .cores, .engines,
        .jobs, .streams, .sched, .hosts, .events] t := by
  unfold execJobRestoreDone
  refine ⟨_, rfl, ?_⟩
  have hw : Within [.out, .run, .od, .units, .mem, .cores, .engines, .jobs, .streams, .sched, .hosts, .events] [.out, .run,
      .od, .units, .mem, .cores, .engines, .jobs, .streams, .sched, .hosts, .events] := fun _ h => h
  have h := State.Keeps.refl [.out, .run, .od, .units, .mem, .cores, .engines, .jobs, .streams, .sched, .hosts, .events]
      (s.elapse dt)
  generalize s.elapse dt = bef at h ⊢
  repeat' (first
    | with_reducible assumption | ((with_reducible refine Within.sub hw ?_); decide)
    | with_reducible apply State.restoreDone_keeps | with_reducible apply keeps_ite | with_reducible apply keeps_ite_snd
    | split | (intro _; intros; try beta_reduce))

theorem State.preempt_keeps {pts : List Part} (hw : Within [.sched] pts) {bef : State} {s : State} (j : Nat) (h : bef.Keeps
    pts s) : bef.Keeps pts (State.preempt s j) := by
  unfold State.preempt
  repeat' (first
    | with_reducible assumption | ((with_reducible refine Within.sub hw ?_); decide)
    | (fail_if_no_progress extract_lets -underBinder -merge -useContext +onlyGivenNames z
       first
       | (refine keeps_cut (s := z) ?_ ?_; (on_goal 1 => unfold z); on_goal 2 => (intro _; try clear_value z))
       | try clear_value z)
    | with_reducible apply keeps_ite | with_reducible apply keeps_ite_snd | split
    | ((with_reducible refine State.keeps_mk hw (by assumption) rfl ?_)
       intro p; cases p <;> (first | exact .inl (by decide) | exact .inr rfl))
    | (intro _; intros; try beta_reduce))

theorem execPreemption_keeps (dt : Nat) (slot : Fin 8) (s : State) :
    ∃ t, execPreemption dt slot s = .next t ∧ (s.elapse dt).Keeps [.sched] t := by
  unfold execPreemption
  refine ⟨_, rfl, ?_⟩
  have hw : Within [.sched] [.sched] := fun _ h => h
  have h := State.Keeps.refl [.sched] (s.elapse dt)
  generalize s.elapse dt = bef at h ⊢
  repeat' (first
    | with_reducible assumption | ((with_reducible refine Within.sub hw ?_); decide)
    | with_reducible apply State.preempt_keeps | with_reducible apply keeps_ite | with_reducible apply keeps_ite_snd | split
    | (intro _; intros; try beta_reduce))

theorem State.boundary__keeps {pts : List Part} (hw : Within [.out, .run, .od, .units, .mem, .cores, .engines, .jobs,
    .streams, .sched, .twin, .hosts, .events] pts) {bef : State} {s : State} (j : Nat) (h : bef.Keeps pts s) : bef.Keeps pts
    (State.boundary_ s j) := by
  unfold State.boundary_
  repeat' (first
    | with_reducible assumption | ((with_reducible refine Within.sub hw ?_); decide)
    | (fail_if_no_progress extract_lets -underBinder -merge -useContext +onlyGivenNames z
       first
       | (refine keeps_cut (s := z) ?_ ?_; (on_goal 1 => unfold z); on_goal 2 => (intro _; try clear_value z))
       | (refine keeps_cut (s := z.2) ?_ ?_; (on_goal 1 => unfold z); on_goal 2 => (intro _; try clear_value z))
       | (refine keeps_cut (s := z.1) ?_ ?_; (on_goal 1 => unfold z); on_goal 2 => (intro _; try clear_value z))
       | (refine keeps_cut (s := z.2.1) ?_ ?_; (on_goal 1 => unfold z); on_goal 2 => (intro _; try clear_value z))
       | try clear_value z)
    | with_reducible apply State.takeQueued_keeps | with_reducible apply State.unloadNow_keeps
    | with_reducible apply State.switchOut_keeps | with_reducible apply keeps_ite | with_reducible apply keeps_ite_snd
    | split
    | ((with_reducible refine State.keeps_mk hw (by assumption) rfl ?_)
       intro p; cases p <;> (first | exact .inl (by decide) | exact .inr rfl))
    | with_reducible refine keeps_of_fst (by with_reducible assumption) ?_
    | with_reducible refine keeps_of_snd (by with_reducible assumption) ?_ | (intro _; intros; try beta_reduce))

end Sys2Proof.Machine
end

