-- ==== Sys2Proof/Laws/KeepsTwinFrames.lean ====
section
/-! SUPPORT. What the operations of Machine/TwinFrames.lean keep. -/

namespace Sys2Proof.Machine

theorem State.nextSequence_keeps {pts : List Part} (hw : Within [.twin] pts) {bef : State} {s : State} (h : bef.Keeps pts s)
    : bef.Keeps pts (State.nextSequence s) := by
  unfold State.nextSequence
  repeat' (first
    | with_reducible assumption | ((with_reducible refine Within.sub hw ?_); decide)
    | (fail_if_no_progress extract_lets -underBinder -merge -useContext +onlyGivenNames z
       first
       | (refine keeps_cut (s := z) ?_ ?_; (on_goal 1 => unfold z); on_goal 2 => (intro _; try clear_value z))
       | try clear_value z)
    | with_reducible apply keeps_ite | with_reducible apply keeps_ite_snd | split
    | ((with_reducible refine State.keeps_mk hw (by assumption) rfl ?_)
       intro p; cases p <;> (first | exact .inl (by decide) | exact .inr rfl))
    | (intro _; intros; try beta_reduce))

theorem State.sendTwin_keeps {pts : List Part} (hw : Within [.out, .twin] pts) {bef : State} {s : State} (type : Nat) (h :
    bef.Keeps pts s) : bef.Keeps pts (State.sendTwin s type) := by
  unfold State.sendTwin
  repeat' (first
    | with_reducible assumption | ((with_reducible refine Within.sub hw ?_); decide)
    | with_reducible apply State.nextSequence_keeps | with_reducible apply State.emit_keeps
    | with_reducible apply keeps_foldl | with_reducible apply keeps_ite | with_reducible apply keeps_ite_snd | split
    | (intro _; intros; try beta_reduce))

theorem State.sendControl_keeps {pts : List Part} (hw : Within [.out, .twin] pts) {bef : State} {s : State} (addr : Nat) (f :
    TwinFrame) (h : bef.Keeps pts s) : bef.Keeps pts (State.sendControl s addr f) := by
  unfold State.sendControl
  repeat' (first
    | with_reducible assumption | ((with_reducible refine Within.sub hw ?_); decide)
    | with_reducible apply State.nextSequence_keeps | with_reducible apply State.emit_keeps | with_reducible apply keeps_ite
    | with_reducible apply keeps_ite_snd | split | (intro _; intros; try beta_reduce))

theorem State.sendWitness_keeps {pts : List Part} (hw : Within [.out, .twin] pts) {bef : State} {s : State} (type : Nat) (h :
    bef.Keeps pts s) : bef.Keeps pts (State.sendWitness s type) := by
  unfold State.sendWitness
  repeat' (first
    | with_reducible assumption | ((with_reducible refine Within.sub hw ?_); decide)
    | (fail_if_no_progress extract_lets -underBinder -merge -useContext +onlyGivenNames z
       first
       | (refine keeps_cut (s := z) ?_ ?_; (on_goal 1 => unfold z); on_goal 2 => (intro _; try clear_value z))
       | try clear_value z)
    | with_reducible apply State.sendControl_keeps | with_reducible apply keeps_ite | with_reducible apply keeps_ite_snd
    | split
    | ((with_reducible refine State.keeps_mk hw (by assumption) rfl ?_)
       intro p; cases p <;> (first | exact .inl (by decide) | exact .inr rfl))
    | (intro _; intros; try beta_reduce))

theorem State.releaseGrant_keeps {pts : List Part} (hw : Within [.out, .jobs, .twin] pts) {bef : State} {s : State} (h :
    bef.Keeps pts s) : bef.Keeps pts (State.releaseGrant s) := by
  unfold State.releaseGrant
  repeat' (first
    | with_reducible assumption | ((with_reducible refine Within.sub hw ?_); decide)
    | (fail_if_no_progress extract_lets -underBinder -merge -useContext +onlyGivenNames z
       first
       | (refine keeps_cut (s := z) ?_ ?_; (on_goal 1 => unfold z); on_goal 2 => (intro _; try clear_value z))
       | try clear_value z)
    | with_reducible apply State.sendWitness_keeps
    | with_reducible refine State.grant_keeps (hw.sub (by decide)) _ _ (by with_reducible assumption) ?_
    | with_reducible apply keeps_ite | with_reducible apply keeps_ite_snd | split
    | ((with_reducible refine State.keeps_mk hw (by assumption) rfl ?_)
       intro p; cases p <;> (first | exact .inl (by decide) | exact .inr rfl))
    | (intro _; intros; try beta_reduce))

theorem State.twinSet_keeps {pts : List Part} (hw : Within [.od, .twin, .hosts, .events] pts) {bef : State} {s : State} (st :
    TwinSt) (h : bef.Keeps pts s) : bef.Keeps pts (State.twinSet s st) := by
  unfold State.twinSet
  repeat' (first
    | with_reducible assumption | ((with_reducible refine Within.sub hw ?_); decide)
    | (fail_if_no_progress extract_lets -underBinder -merge -useContext +onlyGivenNames z
       first
       | (refine keeps_cut (s := z) ?_ ?_; (on_goal 1 => unfold z); on_goal 2 => (intro _; try clear_value z))
       | try clear_value z)
    | with_reducible apply State.clearAlarm_keeps | with_reducible apply State.raise_keeps
    | with_reducible apply State.bump_keeps | with_reducible apply State.setVal_keeps | with_reducible apply keeps_ite
    | with_reducible apply keeps_ite_snd | split
    | ((with_reducible refine State.keeps_mk hw (by assumption) rfl ?_)
       intro p; cases p <;> (first | exact .inl (by decide) | exact .inr rfl))
    | (intro _; intros; try beta_reduce))

theorem State.restartDeadline_keeps {pts : List Part} (hw : Within [.twin] pts) {bef : State} {s : State} (h : bef.Keeps pts
    s) : bef.Keeps pts (State.restartDeadline s) := by
  unfold State.restartDeadline
  repeat' (first
    | with_reducible assumption | ((with_reducible refine Within.sub hw ?_); decide)
    | (fail_if_no_progress extract_lets -underBinder -merge -useContext +onlyGivenNames z
       first
       | (refine keeps_cut (s := z) ?_ ?_; (on_goal 1 => unfold z); on_goal 2 => (intro _; try clear_value z))
       | try clear_value z)
    | with_reducible apply keeps_ite | with_reducible apply keeps_ite_snd | split
    | ((with_reducible refine State.keeps_mk hw (by assumption) rfl ?_)
       intro p; cases p <;> (first | exact .inl (by decide) | exact .inr rfl))
    | (intro _; intros; try beta_reduce))

theorem State.enterSyncing_keeps {pts : List Part} (hw : Within [.out, .od, .jobs, .streams, .twin, .hosts, .events] pts)
    {bef : State} {s : State} (h : bef.Keeps pts s) : bef.Keeps pts (State.enterSyncing s) := by
  unfold State.enterSyncing
  repeat' (first
    | with_reducible assumption | ((with_reducible refine Within.sub hw ?_); decide)
    | (fail_if_no_progress extract_lets -underBinder -merge -useContext +onlyGivenNames z
       first
       | (refine keeps_cut (s := z) ?_ ?_; (on_goal 1 => unfold z); on_goal 2 => (intro _; try clear_value z))
       | try clear_value z)
    | with_reducible apply State.restartDeadline_keeps | with_reducible apply State.twinSet_keeps
    | with_reducible apply State.releaseGrant_keeps | with_reducible apply State.sendLog_keeps
    | with_reducible apply State.checkpointFresh_keeps | with_reducible apply keeps_ite | with_reducible apply keeps_ite_snd
    | split
    | ((with_reducible refine State.keeps_mk hw (by assumption) rfl ?_)
       intro p; cases p <;> (first | exact .inl (by decide) | exact .inr rfl))
    | (intro _; intros; try beta_reduce))

theorem State.settleTakeover_keeps {pts : List Part} (hw : Within [.od, .twin, .hosts, .events] pts) {bef : State} {s :
    State} (h : bef.Keeps pts s) : bef.Keeps pts (State.settleTakeover s) := by
  unfold State.settleTakeover
  repeat' (first
    | with_reducible assumption | ((with_reducible refine Within.sub hw ?_); decide)
    | with_reducible apply State.twinSet_keeps | with_reducible apply keeps_ite | with_reducible apply keeps_ite_snd | split
    | (intro _; intros; try beta_reduce))

theorem State.enterTakeover_keeps {pts : List Part} (hw : Within [.out, .od, .mem, .streams, .sched, .twin, .hosts, .events]
    pts) {bef : State} {s : State} (hold : Nat) (h : bef.Keeps pts s) : bef.Keeps pts (State.enterTakeover s hold) := by
  unfold State.enterTakeover
  repeat' (first
    | with_reducible assumption | ((with_reducible refine Within.sub hw ?_); decide)
    | (fail_if_no_progress extract_lets -underBinder -merge -useContext +onlyGivenNames z
       first
       | (refine keeps_cut (s := z) ?_ ?_; (on_goal 1 => unfold z); on_goal 2 => (intro _; try clear_value z))
       | try clear_value z)
    | with_reducible apply State.settleTakeover_keeps | with_reducible apply State.twinSet_keeps
    | with_reducible apply State.adoptAll_keeps | with_reducible apply State.releaseLog_keeps
    | with_reducible apply State.setVal_keeps | with_reducible apply keeps_ite | with_reducible apply keeps_ite_snd | split
    | ((with_reducible refine State.keeps_mk hw (by assumption) rfl ?_)
       intro p; cases p <;> (first | exact .inl (by decide) | exact .inr rfl))
    | (intro _; intros; try beta_reduce))

theorem State.enterLinkDown_keeps {pts : List Part} (hw : Within [.out, .od, .mem, .streams, .twin, .hosts, .events] pts)
    {bef : State} {s : State} (h : bef.Keeps pts s) : bef.Keeps pts (State.enterLinkDown s) := by
  unfold State.enterLinkDown
  repeat' (first
    | with_reducible assumption | ((with_reducible refine Within.sub hw ?_); decide)
    | (fail_if_no_progress extract_lets -underBinder -merge -useContext +onlyGivenNames z
       first
       | (refine keeps_cut (s := z) ?_ ?_; (on_goal 1 => unfold z); on_goal 2 => (intro _; try clear_value z))
       | try clear_value z)
    | with_reducible apply State.twinSet_keeps | with_reducible apply State.releaseLog_keeps
    | with_reducible apply keeps_ite | with_reducible apply keeps_ite_snd | split
    | ((with_reducible refine State.keeps_mk hw (by assumption) rfl ?_)
       intro p; cases p <;> (first | exact .inl (by decide) | exact .inr rfl))
    | (intro _; intros; try beta_reduce))

theorem State.twinQuery_keeps {pts : List Part} (hw : Within [.od, .hosts, .events] pts) {bef : State} {s : State} (h :
    bef.Keeps pts s) : bef.Keeps pts (State.twinQuery s) := by
  unfold State.twinQuery
  repeat' (first
    | with_reducible assumption | ((with_reducible refine Within.sub hw ?_); decide)
    | with_reducible apply State.emitRecord_keeps | with_reducible apply keeps_ite | with_reducible apply keeps_ite_snd
    | split | (intro _; intros; try beta_reduce))

theorem State.sendProbe_keeps {pts : List Part} (hw : Within [.out, .twin] pts) {bef : State} {s : State} (h : bef.Keeps pts
    s) : bef.Keeps pts (State.sendProbe s) := by
  unfold State.sendProbe
  repeat' (first
    | with_reducible assumption | ((with_reducible refine Within.sub hw ?_); decide)
    | (fail_if_no_progress extract_lets -underBinder -merge -useContext +onlyGivenNames z
       first
       | (refine keeps_cut (s := z) ?_ ?_; (on_goal 1 => unfold z); on_goal 2 => (intro _; try clear_value z))
       | try clear_value z)
    | with_reducible apply State.sendControl_keeps | with_reducible apply keeps_ite | with_reducible apply keeps_ite_snd
    | split | (intro _; intros; try beta_reduce))

theorem State.enterSuspect_keeps {pts : List Part} (hw : Within [.out, .od, .twin, .hosts, .events] pts) {bef : State} {s :
    State} (h : bef.Keeps pts s) : bef.Keeps pts (State.enterSuspect s) := by
  unfold State.enterSuspect
  repeat' (first
    | with_reducible assumption | ((with_reducible refine Within.sub hw ?_); decide)
    | (fail_if_no_progress extract_lets -underBinder -merge -useContext +onlyGivenNames z
       first
       | (refine keeps_cut (s := z) ?_ ?_; (on_goal 1 => unfold z); on_goal 2 => (intro _; try clear_value z))
       | try clear_value z)
    | with_reducible apply State.sendProbe_keeps | with_reducible apply State.twinQuery_keeps
    | with_reducible apply State.twinSet_keeps | with_reducible apply keeps_ite | with_reducible apply keeps_ite_snd | split
    | ((with_reducible refine State.keeps_mk hw (by assumption) rfl ?_)
       intro p; cases p <;> (first | exact .inl (by decide) | exact .inr rfl))
    | (intro _; intros; try beta_reduce))

end Sys2Proof.Machine
end

