-- ==== Sys2Proof/Laws/KeepsRunState.lean ====
section
/-! SUPPORT. What the operations of Machine/RunState.lean keep. -/

namespace Sys2Proof.Machine

theorem State.stopJobs_keeps {pts : List Part} (hw : Within [.run, .sched] pts) {bef : State} {s : State} (h : bef.Keeps pts
    s) : bef.Keeps pts (State.stopJobs s) := by
  unfold State.stopJobs
  repeat' (first
    | with_reducible assumption | ((with_reducible refine Within.sub hw ?_); decide)
    | (fail_if_no_progress extract_lets -underBinder -merge -useContext +onlyGivenNames z
       first
       | (refine keeps_cut (s := z) ?_ ?_; (on_goal 1 => unfold z); on_goal 2 => (intro _; try clear_value z))
       | try clear_value z)
    | with_reducible apply State.switchOut_keeps | with_reducible apply keeps_ite | with_reducible apply keeps_ite_snd
    | split
    | ((with_reducible refine State.keeps_mk hw (by assumption) rfl ?_)
       intro p; cases p <;> (first | exact .inl (by decide) | exact .inr rfl))
    | (intro _; intros; try beta_reduce))

theorem State.settleDrain_keeps {pts : List Part} (hw : Within [.run, .od, .hosts, .events] pts) {bef : State} {s : State} (h
    : bef.Keeps pts s) : bef.Keeps pts (State.settleDrain s) := by
  unfold State.settleDrain
  repeat' (first
    | with_reducible assumption | ((with_reducible refine Within.sub hw ?_); decide)
    | (fail_if_no_progress extract_lets -underBinder -merge -useContext +onlyGivenNames z
       first
       | (refine keeps_cut (s := z) ?_ ?_; (on_goal 1 => unfold z); on_goal 2 => (intro _; try clear_value z))
       | try clear_value z)
    | with_reducible apply State.stopJobs_keeps | with_reducible apply State.runTo_keeps | with_reducible apply keeps_ite
    | with_reducible apply keeps_ite_snd | split
    | ((with_reducible refine State.keeps_mk hw (by assumption) rfl ?_)
       intro p; cases p <;> (first | exact .inl (by decide) | exact .inr rfl))
    | (intro _; intros; try beta_reduce))

theorem State.toSafe_keeps {pts : List Part} (hw : Within [.run, .od, .sched, .hosts, .events] pts) {bef : State} {s : State}
    (cause : Nat) (h : bef.Keeps pts s) : bef.Keeps pts (State.toSafe s cause) := by
  unfold State.toSafe
  repeat' (first
    | with_reducible assumption | ((with_reducible refine Within.sub hw ?_); decide)
    | with_reducible apply State.stopJobs_keeps | with_reducible apply State.runTo_keeps
    | with_reducible apply State.setVal_keeps | with_reducible apply keeps_ite | with_reducible apply keeps_ite_snd | split
    | (intro _; intros; try beta_reduce))

theorem State.cold_keeps {pts : List Part} (hw : Within (Part.allBut [.out, .free]) pts) {bef : State} {s : State} (h :
    bef.Keeps pts s) : bef.Keeps pts (State.cold s) :=
  ⟨h.queue, h.out, h.up, fun _ => ⟨List.Pairwise.nil, fun _ hc => nomatch hc⟩, fun p hp => by
    cases p
    case out => exact h.rest _ hp
    case free => exact h.rest _ hp
    all_goals exact absurd (hw _ (by decide)) hp⟩

theorem State.powerOff_keeps {pts : List Part} (hw : Within (Part.allBut [.out, .free]) pts) {bef : State} {s : State} (how :
    Nat) (h : bef.Keeps pts s) : bef.Keeps pts (State.powerOff s how) := by
  unfold State.powerOff
  repeat' (first
    | with_reducible assumption | ((with_reducible refine Within.sub hw ?_); decide)
    | (fail_if_no_progress extract_lets -underBinder -merge -useContext +onlyGivenNames z
       first
       | (refine keeps_cut (s := z) ?_ ?_; (on_goal 1 => unfold z); on_goal 2 => (intro _; try clear_value z))
       | try clear_value z)
    | with_reducible apply State.cold_keeps | with_reducible apply State.setVal_keeps | with_reducible apply keeps_ite
    | with_reducible apply keeps_ite_snd | split
    | ((with_reducible refine State.keeps_mk hw (by assumption) rfl ?_)
       intro p; cases p <;> (first | exact .inl (by decide) | exact .inr rfl))
    | (intro _; intros; try beta_reduce))

theorem State.boot_keeps {pts : List Part} (hw : Within (Part.allBut [.out, .free]) pts) {bef : State} {s : State} (cause :
    Nat) (h : bef.Keeps pts s) : bef.Keeps pts (State.boot s cause) := by
  unfold State.boot
  repeat' (first
    | with_reducible assumption | ((with_reducible refine Within.sub hw ?_); decide) | with_reducible apply State.cold_keeps
    | with_reducible apply State.setVal_keeps | with_reducible apply keeps_ite | with_reducible apply keeps_ite_snd | split
    | (intro _; intros; try beta_reduce))

theorem State.handStream_keeps {pts : List Part} (hw : Within [.jobs, .streams] pts) {bef : State} {s : State} (n : Nat) (h :
    bef.Keeps pts s) : bef.Keeps pts (State.handStream s n) := by
  unfold State.handStream
  repeat' (first
    | with_reducible assumption | ((with_reducible refine Within.sub hw ?_); decide)
    | with_reducible apply State.freeStream_keeps | with_reducible apply State.freePages_keeps
    | with_reducible apply keeps_ite | with_reducible apply keeps_ite_snd | split | (intro _; intros; try beta_reduce))

theorem State.beginHandover_keeps {pts : List Part} (hw : Within [.sched, .twin] pts) {bef : State} {s : State} (down : Bool)
    (h : bef.Keeps pts s) : bef.Keeps pts (State.beginHandover s down) := by
  unfold State.beginHandover
  repeat' (first
    | with_reducible assumption | ((with_reducible refine Within.sub hw ?_); decide)
    | (fail_if_no_progress extract_lets -underBinder -merge -useContext +onlyGivenNames z
       first
       | (refine keeps_cut (s := z) ?_ ?_; (on_goal 1 => unfold z); on_goal 2 => (intro _; try clear_value z))
       | try clear_value z)
    | with_reducible apply State.switchOut_keeps | with_reducible apply keeps_ite | with_reducible apply keeps_ite_snd
    | split
    | ((with_reducible refine State.keeps_mk hw (by assumption) rfl ?_)
       intro p; cases p <;> (first | exact .inl (by decide) | exact .inr rfl))
    | (intro _; intros; try beta_reduce))

theorem State.onHandover_keeps {pts : List Part} (hw : Within [.out, .od, .jobs, .streams, .twin] pts) {bef : State} {s :
    State} (h : bef.Keeps pts s) : bef.Keeps pts (State.onHandover s) := by
  unfold State.onHandover
  repeat' (first
    | with_reducible assumption | ((with_reducible refine Within.sub hw ?_); decide)
    | (fail_if_no_progress extract_lets -underBinder -merge -useContext +onlyGivenNames z
       first
       | (refine keeps_cut (s := z) ?_ ?_; (on_goal 1 => unfold z); on_goal 2 => (intro _; try clear_value z))
       | try clear_value z)
    | with_reducible apply State.handStream_keeps | with_reducible apply State.sendCheckpoint_keeps
    | with_reducible apply keeps_foldl | with_reducible apply keeps_ite | with_reducible apply keeps_ite_snd | split
    | ((with_reducible refine State.keeps_mk hw (by assumption) rfl ?_)
       intro p; cases p <;> (first | exact .inl (by decide) | exact .inr rfl))
    | (intro _; intros; try beta_reduce))

theorem State.endShutdown_keeps {pts : List Part} (hw : Within (Part.allBut [.free]) pts) {bef : State} {s : State} (h :
    bef.Keeps pts s) : bef.Keeps pts (State.endShutdown s) := by
  unfold State.endShutdown
  repeat' (first
    | with_reducible assumption | ((with_reducible refine Within.sub hw ?_); decide)
    | with_reducible apply State.powerOff_keeps | with_reducible apply State.sendTwin_keeps | with_reducible apply keeps_ite
    | with_reducible apply keeps_ite_snd | split | (intro _; intros; try beta_reduce))

theorem State.onShutdown_keeps {pts : List Part} (hw : Within (Part.allBut [.free]) pts) {bef : State} {s : State} (h :
    bef.Keeps pts s) : bef.Keeps pts (State.onShutdown s) := by
  unfold State.onShutdown
  repeat' (first
    | with_reducible assumption | ((with_reducible refine Within.sub hw ?_); decide)
    | (fail_if_no_progress extract_lets -underBinder -merge -useContext +onlyGivenNames z
       first
       | (refine keeps_cut (s := z) ?_ ?_; (on_goal 1 => unfold z); on_goal 2 => (intro _; try clear_value z))
       | try clear_value z)
    | with_reducible apply State.endShutdown_keeps | with_reducible apply State.onHandover_keeps
    | with_reducible apply State.beginHandover_keeps | with_reducible apply State.powerOff_keeps
    | with_reducible apply keeps_ite | with_reducible apply keeps_ite_snd | split
    | ((with_reducible refine State.keeps_mk hw (by assumption) rfl ?_)
       intro p; cases p <;> (first | exact .inl (by decide) | exact .inr rfl))
    | (intro _; intros; try beta_reduce))

theorem State.advance_keeps {pts : List Part} (hw : Within (Part.allBut [.free]) pts) {bef : State} {s : State} (h :
    bef.Keeps pts s) : bef.Keeps pts (State.advance s) := by
  unfold State.advance
  repeat' (first
    | with_reducible assumption | ((with_reducible refine Within.sub hw ?_); decide)
    | with_reducible apply State.onShutdown_keeps | with_reducible apply State.onHandover_keeps
    | with_reducible apply State.settleDrain_keeps | with_reducible apply keeps_ite | with_reducible apply keeps_ite_snd
    | split | (intro _; intros; try beta_reduce))

theorem State.beginShutdown_keeps {pts : List Part} (hw : Within (Part.allBut [.free]) pts) {bef : State} {s : State} (h :
    bef.Keeps pts s) : bef.Keeps pts (State.beginShutdown s) := by
  unfold State.beginShutdown
  repeat' (first
    | with_reducible assumption | ((with_reducible refine Within.sub hw ?_); decide)
    | (fail_if_no_progress extract_lets -underBinder -merge -useContext +onlyGivenNames z
       first
       | (refine keeps_cut (s := z) ?_ ?_; (on_goal 1 => unfold z); on_goal 2 => (intro _; try clear_value z))
       | try clear_value z)
    | with_reducible apply State.onShutdown_keeps | with_reducible apply State.powerOff_keeps
    | with_reducible apply State.switchOut_keeps | with_reducible apply State.runTo_keeps | with_reducible apply keeps_ite
    | with_reducible apply keeps_ite_snd | split
    | ((with_reducible refine State.keeps_mk hw (by assumption) rfl ?_)
       intro p; cases p <;> (first | exact .inl (by decide) | exact .inr rfl))
    | (intro _; intros; try beta_reduce))

theorem State.moduleShutdown_keeps {pts : List Part} (hw : Within (Part.allBut [.free]) pts) {bef : State} {s : State}
    (orderly : Bool) (h : bef.Keeps pts s) : bef.Keeps pts (State.moduleShutdown s orderly) := by
  unfold State.moduleShutdown
  repeat' (first
    | with_reducible assumption | ((with_reducible refine Within.sub hw ?_); decide)
    | with_reducible apply State.beginShutdown_keeps | with_reducible apply State.powerOff_keeps
    | with_reducible apply keeps_ite | with_reducible apply keeps_ite_snd | split | (intro _; intros; try beta_reduce))

theorem execJobSaveDone_keeps (dt : Nat) (s : State) :
    ∃ t, execJobSaveDone dt s = .next t ∧ (s.elapse dt).Keeps (Part.allBut [.free]) t := by
  unfold execJobSaveDone
  refine ⟨_, rfl, ?_⟩
  have hw : Within (Part.allBut [.free]) (Part.allBut [.free]) := fun _ h => h
  have h := State.Keeps.refl (Part.allBut [.free]) (s.elapse dt)
  generalize s.elapse dt = bef at h ⊢
  repeat' (first
    | with_reducible assumption | ((with_reducible refine Within.sub hw ?_); decide)
    | with_reducible apply State.advance_keeps | with_reducible apply State.saveDone_keeps | with_reducible apply keeps_ite
    | with_reducible apply keeps_ite_snd | split | (intro _; intros; try beta_reduce))

theorem State.handoverLimit_keeps {pts : List Part} (hw : Within (Part.allBut [.free]) pts) {bef : State} {s : State} (h :
    bef.Keeps pts s) : bef.Keeps pts (State.handoverLimit s) := by
  unfold State.handoverLimit
  repeat' (first
    | with_reducible assumption | ((with_reducible refine Within.sub hw ?_); decide)
    | (fail_if_no_progress extract_lets -underBinder -merge -useContext +onlyGivenNames z
       first
       | (refine keeps_cut (s := z) ?_ ?_; (on_goal 1 => unfold z); on_goal 2 => (intro _; try clear_value z))
       | try clear_value z)
    | with_reducible apply State.endShutdown_keeps | with_reducible apply keeps_ite | with_reducible apply keeps_ite_snd
    | split
    | ((with_reducible refine State.keeps_mk hw (by assumption) rfl ?_)
       intro p; cases p <;> (first | exact .inl (by decide) | exact .inr rfl))
    | (intro _; intros; try beta_reduce))

theorem execShutdownHandoverLimit_keeps (dt : Nat) (s : State) :
    ∃ t, execShutdownHandoverLimit dt s = .next t ∧ (s.elapse dt).Keeps (Part.allBut [.free]) t := by
  unfold execShutdownHandoverLimit
  refine ⟨_, rfl, ?_⟩
  have hw : Within (Part.allBut [.free]) (Part.allBut [.free]) := fun _ h => h
  have h := State.Keeps.refl (Part.allBut [.free]) (s.elapse dt)
  generalize s.elapse dt = bef at h ⊢
  repeat' (first
    | with_reducible assumption | ((with_reducible refine Within.sub hw ?_); decide)
    | with_reducible apply State.handoverLimit_keeps | with_reducible apply keeps_ite | with_reducible apply keeps_ite_snd
    | split | (intro _; intros; try beta_reduce))

theorem State.shutdownAct_keeps {pts : List Part} (hw : Within (Part.allBut [.free]) pts) {bef : State} {s : State} (h :
    bef.Keeps pts s) : bef.Keeps pts (State.shutdownAct s).2 := by
  unfold State.shutdownAct
  repeat' (first
    | with_reducible assumption | ((with_reducible refine Within.sub hw ?_); decide)
    | with_reducible apply State.beginShutdown_keeps | with_reducible apply refuse_keeps | with_reducible apply accept_keeps
    | with_reducible apply keeps_ite | with_reducible apply keeps_ite_snd | split | (intro _; intros; try beta_reduce))

theorem execShutdown_keeps (dt : Nat) (road : Road) (s : State) :
    ∃ t, execShutdown dt road s = .next t ∧ (s.elapse dt).Keeps (Part.allBut [.free]) t := by
  unfold execShutdown
  refine ⟨_, rfl, ?_⟩
  have hw : Within (Part.allBut [.free]) (Part.allBut [.free]) := fun _ h => h
  have h := State.Keeps.refl (Part.allBut [.free]) (s.elapse dt)
  generalize s.elapse dt = bef at h ⊢
  repeat' (first
    | with_reducible assumption | ((with_reducible refine Within.sub hw ?_); decide)
    | with_reducible apply State.shutdownAct_keeps | with_reducible apply State.writeRow_keeps
    | with_reducible apply keeps_ite | with_reducible apply keeps_ite_snd | split | (intro _; intros; try beta_reduce))

theorem State.coldResetAct_keeps {pts : List Part} (hw : Within (Part.allBut [.out, .free]) pts) {bef : State} {s : State} (h
    : bef.Keeps pts s) : bef.Keeps pts (State.coldResetAct s).2 := by
  unfold State.coldResetAct
  repeat' (first
    | with_reducible assumption | ((with_reducible refine Within.sub hw ?_); decide) | with_reducible apply State.boot_keeps
    | with_reducible apply refuse_keeps | with_reducible apply accept_keeps | with_reducible apply keeps_ite
    | with_reducible apply keeps_ite_snd | split | (intro _; intros; try beta_reduce))

theorem execColdReset_keeps (dt : Nat) (road : Road) (s : State) :
    ∃ t, execColdReset dt road s = .next t ∧ (s.elapse dt).Keeps (Part.allBut [.free]) t := by
  unfold execColdReset
  refine ⟨_, rfl, ?_⟩
  have hw : Within (Part.allBut [.free]) (Part.allBut [.free]) := fun _ h => h
  have h := State.Keeps.refl (Part.allBut [.free]) (s.elapse dt)
  generalize s.elapse dt = bef at h ⊢
  repeat' (first
    | with_reducible assumption | ((with_reducible refine Within.sub hw ?_); decide)
    | with_reducible apply State.coldResetAct_keeps | with_reducible apply State.writeRow_keeps
    | with_reducible apply keeps_ite | with_reducible apply keeps_ite_snd | split | (intro _; intros; try beta_reduce))

theorem State.loopAssert_keeps {pts : List Part} (hw : Within (Part.allBut [.out, .free]) pts) {bef : State} {s : State} (h :
    bef.Keeps pts s) : bef.Keeps pts (State.loopAssert s) := by
  unfold State.loopAssert
  repeat' (first
    | with_reducible assumption | ((with_reducible refine Within.sub hw ?_); decide)
    | (fail_if_no_progress extract_lets -underBinder -merge -useContext +onlyGivenNames z
       first
       | (refine keeps_cut (s := z) ?_ ?_; (on_goal 1 => unfold z); on_goal 2 => (intro _; try clear_value z))
       | try clear_value z)
    | with_reducible apply State.powerOff_keeps | with_reducible apply keeps_ite | with_reducible apply keeps_ite_snd
    | split
    | ((with_reducible refine State.keeps_mk hw (by assumption) rfl ?_)
       intro p; cases p <;> (first | exact .inl (by decide) | exact .inr rfl))
    | (intro _; intros; try beta_reduce))

theorem execResetLoopAssert_keeps (dt : Nat) (s : State) :
    ∃ t, execResetLoopAssert dt s = .next t ∧ (s.elapse dt).Keeps (Part.allBut [.out, .free]) t := by
  unfold execResetLoopAssert
  refine ⟨_, rfl, ?_⟩
  have hw : Within (Part.allBut [.out, .free]) (Part.allBut [.out, .free]) := fun _ h => h
  have h := State.Keeps.refl (Part.allBut [.out, .free]) (s.elapse dt)
  generalize s.elapse dt = bef at h ⊢
  repeat' (first
    | with_reducible assumption | ((with_reducible refine Within.sub hw ?_); decide)
    | with_reducible apply State.loopAssert_keeps | with_reducible apply keeps_ite | with_reducible apply keeps_ite_snd
    | split | (intro _; intros; try beta_reduce))

theorem State.loopRelease_keeps {pts : List Part} (hw : Within (Part.allBut [.out, .free]) pts) {bef : State} {s : State} (h
    : bef.Keeps pts s) : bef.Keeps pts (State.loopRelease s) := by
  unfold State.loopRelease
  repeat' (first
    | with_reducible assumption | ((with_reducible refine Within.sub hw ?_); decide)
    | (fail_if_no_progress extract_lets -underBinder -merge -useContext +onlyGivenNames z
       first
       | (refine keeps_cut (s := z) ?_ ?_; (on_goal 1 => unfold z); on_goal 2 => (intro _; try clear_value z))
       | try clear_value z)
    | with_reducible apply State.boot_keeps | with_reducible apply keeps_ite | with_reducible apply keeps_ite_snd | split
    | ((with_reducible refine State.keeps_mk hw (by assumption) rfl ?_)
       intro p; cases p <;> (first | exact .inl (by decide) | exact .inr rfl))
    | (intro _; intros; try beta_reduce))

theorem execResetLoopRelease_keeps (dt : Nat) (s : State) :
    ∃ t, execResetLoopRelease dt s = .next t ∧ (s.elapse dt).Keeps (Part.allBut [.out, .free]) t := by
  unfold execResetLoopRelease
  refine ⟨_, rfl, ?_⟩
  have hw : Within (Part.allBut [.out, .free]) (Part.allBut [.out, .free]) := fun _ h => h
  have h := State.Keeps.refl (Part.allBut [.out, .free]) (s.elapse dt)
  generalize s.elapse dt = bef at h ⊢
  repeat' (first
    | with_reducible assumption | ((with_reducible refine Within.sub hw ?_); decide)
    | with_reducible apply State.loopRelease_keeps | with_reducible apply keeps_ite | with_reducible apply keeps_ite_snd
    | split | (intro _; intros; try beta_reduce))

theorem State.setFeed_keeps {pts : List Part} (hw : Within [.run, .od, .power] pts) {bef : State} {s : State} (i : Nat) (st :
    Nat) (mv : Int) (h : bef.Keeps pts s) : bef.Keeps pts (State.setFeed s i st mv) := by
  unfold State.setFeed
  repeat' (first
    | with_reducible assumption | ((with_reducible refine Within.sub hw ?_); decide)
    | (fail_if_no_progress extract_lets -underBinder -merge -useContext +onlyGivenNames z
       first
       | (refine keeps_cut (s := z) ?_ ?_; (on_goal 1 => unfold z); on_goal 2 => (intro _; try clear_value z))
       | try clear_value z)
    | with_reducible apply State.setVal_keeps | with_reducible apply keeps_ite | with_reducible apply keeps_ite_snd | split
    | ((with_reducible refine State.keeps_mk hw (by assumption) rfl ?_)
       intro p; cases p <;> (first | exact .inl (by decide) | exact .inr rfl))
    | (intro _; intros; try beta_reduce))

theorem State.feedRange_keeps {pts : List Part} (hw : Within [.run, .od, .hosts, .power, .events] pts) {bef : State} {s :
    State} (i : Nat) (mv : Int) (h : bef.Keeps pts s) : bef.Keeps pts (State.feedRange s i mv) := by
  unfold State.feedRange
  repeat' (first
    | with_reducible assumption | ((with_reducible refine Within.sub hw ?_); decide)
    | (fail_if_no_progress extract_lets -underBinder -merge -useContext +onlyGivenNames z
       first
       | (refine keeps_cut (s := z) ?_ ?_; (on_goal 1 => unfold z); on_goal 2 => (intro _; try clear_value z))
       | try clear_value z)
    | with_reducible apply State.setFeed_keeps | with_reducible apply State.raise_keeps | with_reducible apply keeps_ite
    | with_reducible apply keeps_ite_snd | split | (intro _; intros; try beta_reduce))

theorem execFeedRange_keeps (dt : Nat) (feed : Fin 2) (millivolts : Int) (s : State) :
    ∃ t, execFeedRange dt feed millivolts s = .next t ∧ (s.elapse dt).Keeps [.run, .od, .hosts, .power, .events] t := by
  unfold execFeedRange
  refine ⟨_, rfl, ?_⟩
  have hw : Within [.run, .od, .hosts, .power, .events] [.run, .od, .hosts, .power, .events] := fun _ h => h
  have h := State.Keeps.refl [.run, .od, .hosts, .power, .events] (s.elapse dt)
  generalize s.elapse dt = bef at h ⊢
  repeat' (first
    | with_reducible assumption | ((with_reducible refine Within.sub hw ?_); decide)
    | with_reducible apply State.feedRange_keeps | with_reducible apply keeps_ite | with_reducible apply keeps_ite_snd
    | split | (intro _; intros; try beta_reduce))

theorem execFeedReturn_keeps (dt : Nat) (feed : Fin 2) (millivolts : Int) (s : State) :
    ∃ t, execFeedReturn dt feed millivolts s = .next t ∧ (s.elapse dt).Keeps [.run, .od, .power] t := by
  unfold execFeedReturn
  refine ⟨_, rfl, ?_⟩
  have hw : Within [.run, .od, .power] [.run, .od, .power] := fun _ h => h
  have h := State.Keeps.refl [.run, .od, .power] (s.elapse dt)
  generalize s.elapse dt = bef at h ⊢
  repeat' (first
    | with_reducible assumption | ((with_reducible refine Within.sub hw ?_); decide)
    | (fail_if_no_progress extract_lets -underBinder -merge -useContext +onlyGivenNames z
       first
       | (refine keeps_cut (s := z) ?_ ?_; (on_goal 1 => unfold z); on_goal 2 => (intro _; try clear_value z))
       | try clear_value z)
    | with_reducible apply State.setFeed_keeps | with_reducible apply keeps_ite | with_reducible apply keeps_ite_snd | split
    | (intro _; intros; try beta_reduce))

theorem State.feedLost_keeps {pts : List Part} (hw : Within [.run, .od, .hosts, .power, .events] pts) {bef : State} {s :
    State} (i : Nat) (mv : Int) (h : bef.Keeps pts s) : bef.Keeps pts (State.feedLost s i mv) := by
  unfold State.feedLost
  repeat' (first
    | with_reducible assumption | ((with_reducible refine Within.sub hw ?_); decide)
    | with_reducible apply State.setFeed_keeps | with_reducible apply State.raise_keeps
    | with_reducible apply State.bump_keeps | with_reducible apply keeps_ite | with_reducible apply keeps_ite_snd | split
    | (intro _; intros; try beta_reduce))

theorem execFeedLost_keeps (dt : Nat) (feed : Fin 2) (millivolts : Int) (s : State) :
    ∃ t, execFeedLost dt feed millivolts s = .next t ∧ (s.elapse dt).Keeps [.run, .od, .hosts, .power, .events] t := by
  unfold execFeedLost
  refine ⟨_, rfl, ?_⟩
  have hw : Within [.run, .od, .hosts, .power, .events] [.run, .od, .hosts, .power, .events] := fun _ h => h
  have h := State.Keeps.refl [.run, .od, .hosts, .power, .events] (s.elapse dt)
  generalize s.elapse dt = bef at h ⊢
  repeat' (first
    | with_reducible assumption | ((with_reducible refine Within.sub hw ?_); decide)
    | with_reducible apply State.feedLost_keeps | with_reducible apply keeps_ite | with_reducible apply keeps_ite_snd
    | split | (intro _; intros; try beta_reduce))

theorem State.feedsLost_keeps {pts : List Part} (hw : Within (Part.allBut [.out, .free]) pts) {bef : State} {s : State} (a :
    Int) (b : Int) (h : bef.Keeps pts s) : bef.Keeps pts (State.feedsLost s a b) := by
  unfold State.feedsLost
  repeat' (first
    | with_reducible assumption | ((with_reducible refine Within.sub hw ?_); decide)
    | (fail_if_no_progress extract_lets -underBinder -merge -useContext +onlyGivenNames z
       first
       | (refine keeps_cut (s := z) ?_ ?_; (on_goal 1 => unfold z); on_goal 2 => (intro _; try clear_value z))
       | try clear_value z)
    | with_reducible apply State.setFeed_keeps | with_reducible apply State.powerOff_keeps
    | with_reducible apply State.bump_keeps | with_reducible apply keeps_ite | with_reducible apply keeps_ite_snd | split
    | (intro _; intros; try beta_reduce))

theorem execBothFeedsLost_keeps (dt : Nat) (millivoltsA : Int) (millivoltsB : Int) (s : State) :
    ∃ t, execBothFeedsLost dt millivoltsA millivoltsB s = .next t ∧ (s.elapse dt).Keeps (Part.allBut [.out, .free]) t := by
  unfold execBothFeedsLost
  refine ⟨_, rfl, ?_⟩
  have hw : Within (Part.allBut [.out, .free]) (Part.allBut [.out, .free]) := fun _ h => h
  have h := State.Keeps.refl (Part.allBut [.out, .free]) (s.elapse dt)
  generalize s.elapse dt = bef at h ⊢
  repeat' (first
    | with_reducible assumption | ((with_reducible refine Within.sub hw ?_); decide)
    | with_reducible apply State.feedsLost_keeps | with_reducible apply keeps_ite | with_reducible apply keeps_ite_snd
    | split | (intro _; intros; try beta_reduce))

theorem State.feedQualified_keeps {pts : List Part} (hw : Within (Part.allBut [.out, .free]) pts) {bef : State} {s : State}
    (i : Nat) (h : bef.Keeps pts s) : bef.Keeps pts (State.feedQualified s i) := by
  unfold State.feedQualified
  repeat' (first
    | with_reducible assumption | ((with_reducible refine Within.sub hw ?_); decide)
    | (fail_if_no_progress extract_lets -underBinder -merge -useContext +onlyGivenNames z
       first
       | (refine keeps_cut (s := z) ?_ ?_; (on_goal 1 => unfold z); on_goal 2 => (intro _; try clear_value z))
       | try clear_value z)
    | with_reducible apply State.boot_keeps | with_reducible apply keeps_ite | with_reducible apply keeps_ite_snd | split
    | ((with_reducible refine State.keeps_mk hw (by assumption) rfl ?_)
       intro p; cases p <;> (first | exact .inl (by decide) | exact .inr rfl))
    | (intro _; intros; try beta_reduce))

theorem execFeedQualified_keeps (dt : Nat) (feed : Fin 2) (s : State) :
    ∃ t, execFeedQualified dt feed s = .next t ∧ (s.elapse dt).Keeps (Part.allBut [.out, .free]) t := by
  unfold execFeedQualified
  refine ⟨_, rfl, ?_⟩
  have hw : Within (Part.allBut [.out, .free]) (Part.allBut [.out, .free]) := fun _ h => h
  have h := State.Keeps.refl (Part.allBut [.out, .free]) (s.elapse dt)
  generalize s.elapse dt = bef at h ⊢
  repeat' (first
    | with_reducible assumption | ((with_reducible refine Within.sub hw ?_); decide)
    | with_reducible apply State.feedQualified_keeps | with_reducible apply keeps_ite | with_reducible apply keeps_ite_snd
    | split | (intro _; intros; try beta_reduce))

end Sys2Proof.Machine
end

