-- ==== Sys2Proof/Laws/KeepsVat.lean ====
section
/-! SUPPORT. What the operations of Machine/Vat.lean keep. -/

namespace Sys2Proof.Machine

theorem State.setVat_keeps {pts : List Part} (hw : Within [.cores, .engines] pts) {bef : State} {s : State} (c : Nat) (q :
    Nat) (v : Tbl Row) (h : bef.Keeps pts s) : bef.Keeps pts (State.setVat s c q v) := by
  unfold State.setVat
  repeat' (first
    | with_reducible assumption | ((with_reducible refine Within.sub hw ?_); decide)
    | (fail_if_no_progress extract_lets -underBinder -merge -useContext +onlyGivenNames z
       first
       | (refine keeps_cut (s := z) ?_ ?_; (on_goal 1 => unfold z); on_goal 2 => (intro _; try clear_value z))
       | (refine keeps_cut (s := z.2) ?_ ?_; (on_goal 1 => unfold z); on_goal 2 => (intro _; try clear_value z))
       | (refine keeps_cut (s := z.1) ?_ ?_; (on_goal 1 => unfold z); on_goal 2 => (intro _; try clear_value z))
       | (refine keeps_cut (s := z.2.1) ?_ ?_; (on_goal 1 => unfold z); on_goal 2 => (intro _; try clear_value z))
       | try clear_value z)
    | with_reducible apply State.modEng_keeps | with_reducible apply State.modCore_keeps | with_reducible apply keeps_ite
    | with_reducible apply keeps_ite_snd | split
    | ((with_reducible refine State.keeps_mk hw (by assumption) rfl ?_)
       intro p; cases p <;> (first | exact .inl (by decide) | exact .inr rfl))
    | (intro _; intros; try beta_reduce))

theorem State.modRow_keeps {pts : List Part} (hw : Within [.cores, .engines] pts) {bef : State} {s : State} (c : Nat) (q :
    Nat) (row : Nat) (f : Row → Row) (h : bef.Keeps pts s) : bef.Keeps pts (State.modRow s c q row f) := by
  unfold State.modRow
  repeat' (first
    | with_reducible assumption | ((with_reducible refine Within.sub hw ?_); decide)
    | with_reducible apply State.setVat_keeps | with_reducible apply keeps_ite | with_reducible apply keeps_ite_snd | split
    | (intro _; intros; try beta_reduce))

theorem State.landSpill_keeps {pts : List Part} (hw : Within [.mem, .cores, .engines] pts) {bef : State} {s : State} (c :
    Nat) (q : Nat) (row : Nat) (addr : Nat) (vals : Tbl F32) (h : bef.Keeps pts s) : bef.Keeps pts (State.landSpill s c q row
    addr vals) := by
  unfold State.landSpill
  repeat' (first
    | with_reducible assumption | ((with_reducible refine Within.sub hw ?_); decide)
    | (fail_if_no_progress extract_lets -underBinder -merge -useContext +onlyGivenNames z
       first
       | (refine keeps_cut (s := z) ?_ ?_; (on_goal 1 => unfold z); on_goal 2 => (intro _; try clear_value z))
       | try clear_value z)
    | with_reducible apply State.modRow_keeps | with_reducible apply State.storeBytes_keeps | with_reducible apply keeps_ite
    | with_reducible apply keeps_ite_snd | split
    | ((with_reducible refine State.keeps_mk hw (by assumption) rfl ?_)
       intro p; cases p <;> (first | exact .inl (by decide) | exact .inr rfl))
    | (intro _; intros; try beta_reduce))

theorem State.spillRow_keeps {pts : List Part} (hw : Within [.od, .mem, .cores, .engines] pts) {bef : State} {s : State} (c :
    Nat) (q : Nat) (row : Nat) (forced : Bool) (h : bef.Keeps pts s) : bef.Keeps pts (State.spillRow s c q row forced) := by
  unfold State.spillRow
  repeat' (first
    | with_reducible assumption | ((with_reducible refine Within.sub hw ?_); decide)
    | (fail_if_no_progress extract_lets -underBinder -merge -useContext +onlyGivenNames z
       first
       | (refine keeps_cut (s := z) ?_ ?_; (on_goal 1 => unfold z); on_goal 2 => (intro _; try clear_value z))
       | try clear_value z)
    | with_reducible apply State.landSpill_keeps | with_reducible apply State.modRow_keeps
    | with_reducible apply State.bump_keeps | with_reducible apply State.modEng_keeps | with_reducible apply keeps_ite
    | with_reducible apply keeps_ite_snd | split
    | ((with_reducible refine State.keeps_mk hw (by assumption) rfl ?_)
       intro p; cases p <;> (first | exact .inl (by decide) | exact .inr rfl))
    | (intro _; intros; try beta_reduce))

theorem State.updateVat_keeps {pts : List Part} (hw : Within [.od, .mem, .cores, .engines] pts) {bef : State} {s : State} (c
    : Nat) (q : Nat) (p : TvWord) (key : Nat) (ctr : Nat) (v : Nat) (terms : List F32) (h : bef.Keeps pts s) : bef.Keeps pts
    (State.updateVat s c q p key ctr v terms).1 := by
  unfold State.updateVat
  repeat' (first
    | with_reducible assumption | ((with_reducible refine Within.sub hw ?_); decide)
    | (fail_if_no_progress extract_lets -underBinder -merge -useContext +onlyGivenNames z
       first
       | (refine keeps_cut (s := z) ?_ ?_; (on_goal 1 => unfold z); on_goal 2 => (intro _; try clear_value z))
       | (refine keeps_cut (s := z.2) ?_ ?_; (on_goal 1 => unfold z); on_goal 2 => (intro _; try clear_value z))
       | (refine keeps_cut (s := z.1) ?_ ?_; (on_goal 1 => unfold z); on_goal 2 => (intro _; try clear_value z))
       | (refine keeps_cut (s := z.2.1) ?_ ?_; (on_goal 1 => unfold z); on_goal 2 => (intro _; try clear_value z))
       | try clear_value z)
    | with_reducible apply State.spillRow_keeps | with_reducible apply State.modRow_keeps
    | with_reducible apply State.modEng_keeps | with_reducible apply keeps_ite | with_reducible apply keeps_ite_snd | split
    | ((with_reducible refine State.keeps_mk hw (by assumption) rfl ?_)
       intro p; cases p <;> (first | exact .inl (by decide) | exact .inr rfl))
    | (intro _; intros; try beta_reduce))

theorem State.passEnd_keeps {pts : List Part} (hw : Within [.cores, .engines] pts) {bef : State} {s : State} (c : Nat) (e :
    Nat) (h : bef.Keeps pts s) : bef.Keeps pts (State.passEnd s c e) := by
  unfold State.passEnd
  repeat' (first
    | with_reducible assumption | ((with_reducible refine Within.sub hw ?_); decide)
    | (fail_if_no_progress extract_lets -underBinder -merge -useContext +onlyGivenNames z
       first
       | (refine keeps_cut (s := z) ?_ ?_; (on_goal 1 => unfold z); on_goal 2 => (intro _; try clear_value z))
       | try clear_value z)
    | with_reducible apply State.part_keeps | with_reducible apply State.modEng_keeps | with_reducible apply keeps_foldl
    | with_reducible apply keeps_ite | with_reducible apply keeps_ite_snd | split
    | ((with_reducible refine State.keeps_mk hw (by assumption) rfl ?_)
       intro p; cases p <;> (first | exact .inl (by decide) | exact .inr rfl))
    | (intro _; intros; try beta_reduce))

theorem State.vatStep_keeps {pts : List Part} (hw : Within [.od, .mem, .cores, .engines] pts) {bef : State} {s : State} (c :
    Nat) (e : Nat) (dt : Nat) (h : bef.Keeps pts s) : bef.Keeps pts (State.vatStep s c e dt) := by
  unfold State.vatStep
  repeat' (first
    | with_reducible assumption | ((with_reducible refine Within.sub hw ?_); decide)
    | (fail_if_no_progress extract_lets -underBinder -merge -useContext +onlyGivenNames z
       first
       | (refine keeps_cut (s := z) ?_ ?_; (on_goal 1 => unfold z); on_goal 2 => (intro _; try clear_value z))
       | (refine keeps_cut (s := z.2) ?_ ?_; (on_goal 1 => unfold z); on_goal 2 => (intro _; try clear_value z))
       | (refine keeps_cut (s := z.1) ?_ ?_; (on_goal 1 => unfold z); on_goal 2 => (intro _; try clear_value z))
       | (refine keeps_cut (s := z.2.1) ?_ ?_; (on_goal 1 => unfold z); on_goal 2 => (intro _; try clear_value z))
       | try clear_value z)
    | with_reducible apply State.passEnd_keeps | with_reducible apply State.updateVat_keeps
    | with_reducible apply State.spillRow_keeps | with_reducible apply State.bump_keeps
    | with_reducible apply State.modEng_keeps | with_reducible apply keeps_ite | with_reducible apply keeps_ite_snd | split
    | ((with_reducible refine State.keeps_mk hw (by assumption) rfl ?_)
       intro p; cases p <;> (first | exact .inl (by decide) | exact .inr rfl))
    | (intro _; intros; try beta_reduce))

theorem execVatUpdate_keeps (dt : Nat) (core : Fin 16) (eng : Fin 34) (s : State) :
    ∃ t, execVatUpdate dt core eng s = .next t ∧ (s.elapse dt).Keeps [.od, .mem, .cores, .engines] t := by
  unfold execVatUpdate
  refine ⟨_, rfl, ?_⟩
  have hw : Within [.od, .mem, .cores, .engines] [.od, .mem, .cores, .engines] := fun _ h => h
  have h := State.Keeps.refl [.od, .mem, .cores, .engines] (s.elapse dt)
  generalize s.elapse dt = bef at h ⊢
  repeat' (first
    | with_reducible assumption | ((with_reducible refine Within.sub hw ?_); decide)
    | with_reducible apply State.vatStep_keeps | with_reducible apply keeps_ite | with_reducible apply keeps_ite_snd | split
    | (intro _; intros; try beta_reduce))

theorem State.churnStep_keeps {pts : List Part} (hw : Within [.mem, .cores, .engines] pts) {bef : State} {s : State} (c :
    Nat) (e : Nat) (h : bef.Keeps pts s) : bef.Keeps pts (State.churnStep s c e) := by
  unfold State.churnStep
  repeat' (first
    | with_reducible assumption | ((with_reducible refine Within.sub hw ?_); decide)
    | (fail_if_no_progress extract_lets -underBinder -merge -useContext +onlyGivenNames z
       first
       | (refine keeps_cut (s := z) ?_ ?_; (on_goal 1 => unfold z); on_goal 2 => (intro _; try clear_value z))
       | try clear_value z)
    | with_reducible apply State.passEnd_keeps | with_reducible apply State.landSpill_keeps
    | with_reducible apply State.modEng_keeps | with_reducible apply keeps_ite | with_reducible apply keeps_ite_snd | split
    | ((with_reducible refine State.keeps_mk hw (by assumption) rfl ?_)
       intro p; cases p <;> (first | exact .inl (by decide) | exact .inr rfl))
    | (intro _; intros; try beta_reduce))

theorem execChurnWrite_keeps (dt : Nat) (core : Fin 16) (eng : Fin 34) (s : State) :
    ∃ t, execChurnWrite dt core eng s = .next t ∧ (s.elapse dt).Keeps [.mem, .cores, .engines] t := by
  unfold execChurnWrite
  refine ⟨_, rfl, ?_⟩
  have hw : Within [.mem, .cores, .engines] [.mem, .cores, .engines] := fun _ h => h
  have h := State.Keeps.refl [.mem, .cores, .engines] (s.elapse dt)
  generalize s.elapse dt = bef at h ⊢
  repeat' (first
    | with_reducible assumption | ((with_reducible refine Within.sub hw ?_); decide)
    | with_reducible apply State.churnStep_keeps | with_reducible apply keeps_ite | with_reducible apply keeps_ite_snd
    | split | (intro _; intros; try beta_reduce))

theorem State.spillOp_keeps {pts : List Part} (hw : Within [.od, .mem, .cores, .engines] pts) {bef : State} {s : State} (c :
    Nat) (q : Nat) (h : bef.Keeps pts s) : bef.Keeps pts (State.spillOp s c q) := by
  unfold State.spillOp
  repeat' (first
    | with_reducible assumption | ((with_reducible refine Within.sub hw ?_); decide)
    | (fail_if_no_progress extract_lets -underBinder -merge -useContext +onlyGivenNames z
       first
       | (refine keeps_cut (s := z) ?_ ?_; (on_goal 1 => unfold z); on_goal 2 => (intro _; try clear_value z))
       | (refine keeps_cut (s := z.2) ?_ ?_; (on_goal 1 => unfold z); on_goal 2 => (intro _; try clear_value z))
       | (refine keeps_cut (s := z.1) ?_ ?_; (on_goal 1 => unfold z); on_goal 2 => (intro _; try clear_value z))
       | (refine keeps_cut (s := z.2.1) ?_ ?_; (on_goal 1 => unfold z); on_goal 2 => (intro _; try clear_value z))
       | try clear_value z)
    | with_reducible apply State.spillRow_keeps | with_reducible apply State.part_keeps
    | with_reducible apply State.modCore_keeps | with_reducible apply keeps_foldl | with_reducible apply keeps_foldl_fst
    | with_reducible apply keeps_foldl_snd | with_reducible apply keeps_foldl_mid | with_reducible apply keeps_ite
    | with_reducible apply keeps_ite_snd | split
    | ((with_reducible refine State.keeps_mk hw (by assumption) rfl ?_)
       intro p; cases p <;> (first | exact .inl (by decide) | exact .inr rfl))
    | (intro _; intros; try beta_reduce))

theorem execSpill_keeps (dt : Nat) (core : Fin 16) (queue : Fin 66) (s : State) :
    ∃ t, execSpill dt core queue s = .next t ∧ (s.elapse dt).Keeps [.od, .mem, .cores, .engines] t := by
  unfold execSpill
  refine ⟨_, rfl, ?_⟩
  have hw : Within [.od, .mem, .cores, .engines] [.od, .mem, .cores, .engines] := fun _ h => h
  have h := State.Keeps.refl [.od, .mem, .cores, .engines] (s.elapse dt)
  generalize s.elapse dt = bef at h ⊢
  repeat' (first
    | with_reducible assumption | ((with_reducible refine Within.sub hw ?_); decide)
    | with_reducible apply State.spillOp_keeps | with_reducible apply keeps_ite | with_reducible apply keeps_ite_snd | split
    | (intro _; intros; try beta_reduce))

theorem State.resumeOp_keeps {pts : List Part} (hw : Within [.cores, .engines] pts) {bef : State} {s : State} (c : Nat) (q :
    Nat) (h : bef.Keeps pts s) : bef.Keeps pts (State.resumeOp s c q) := by
  unfold State.resumeOp
  repeat' (first
    | with_reducible assumption | ((with_reducible refine Within.sub hw ?_); decide)
    | (fail_if_no_progress extract_lets -underBinder -merge -useContext +onlyGivenNames z
       first
       | (refine keeps_cut (s := z) ?_ ?_; (on_goal 1 => unfold z); on_goal 2 => (intro _; try clear_value z))
       | try clear_value z)
    | with_reducible apply State.setVat_keeps | with_reducible apply State.part_keeps | with_reducible apply keeps_foldl
    | with_reducible apply keeps_ite | with_reducible apply keeps_ite_snd | split
    | ((with_reducible refine State.keeps_mk hw (by assumption) rfl ?_)
       intro p; cases p <;> (first | exact .inl (by decide) | exact .inr rfl))
    | (intro _; intros; try beta_reduce))

theorem execResume_keeps (dt : Nat) (core : Fin 16) (queue : Fin 66) (s : State) :
    ∃ t, execResume dt core queue s = .next t ∧ (s.elapse dt).Keeps [.cores, .engines] t := by
  unfold execResume
  refine ⟨_, rfl, ?_⟩
  have hw : Within [.cores, .engines] [.cores, .engines] := fun _ h => h
  have h := State.Keeps.refl [.cores, .engines] (s.elapse dt)
  generalize s.elapse dt = bef at h ⊢
  repeat' (first
    | with_reducible assumption | ((with_reducible refine Within.sub hw ?_); decide)
    | with_reducible apply State.resumeOp_keeps | with_reducible apply keeps_ite | with_reducible apply keeps_ite_snd
    | split | (intro _; intros; try beta_reduce))

end Sys2Proof.Machine
end

