-- ==== Sys2Proof/Laws/KeepsThermal.lean ====
section
/-! SUPPORT. What the operations of Machine/Thermal.lean keep. -/

namespace Sys2Proof.Machine

theorem State.modSensor_keeps {pts : List Part} (hw : Within [.sensors] pts) {bef : State} {s : State} (i : Nat) (f : Sensor
    → Sensor) (h : bef.Keeps pts s) : bef.Keeps pts (State.modSensor s i f) := by
  unfold State.modSensor
  repeat' (first
    | with_reducible assumption | ((with_reducible refine Within.sub hw ?_); decide)
    | (fail_if_no_progress extract_lets -underBinder -merge -useContext +onlyGivenNames z
       first
       | (refine keeps_cut (s := z) ?_ ?_; (on_goal 1 => unfold z); on_goal 2 => (intro _; try clear_value z))
       | try clear_value z)
    | with_reducible apply keeps_ite | with_reducible apply keeps_ite_snd | split
    | ((with_reducible refine State.keeps_mk hw (by assumption) rfl ?_)
       intro p; cases p <;> (first | exact .inl (by decide) | exact .inr rfl))
    | (intro _; intros; try beta_reduce))

theorem State.noteThrottle_keeps {pts : List Part} (hw : Within [.od, .power] pts) {bef : State} {s : State} (h : bef.Keeps
    pts s) : bef.Keeps pts (State.noteThrottle s) := by
  unfold State.noteThrottle
  repeat' (first
    | with_reducible assumption | ((with_reducible refine Within.sub hw ?_); decide)
    | (fail_if_no_progress extract_lets -underBinder -merge -useContext +onlyGivenNames z
       first
       | (refine keeps_cut (s := z) ?_ ?_; (on_goal 1 => unfold z); on_goal 2 => (intro _; try clear_value z))
       | try clear_value z)
    | with_reducible apply State.bump_keeps | with_reducible apply keeps_ite | with_reducible apply keeps_ite_snd | split
    | ((with_reducible refine State.keeps_mk hw (by assumption) rfl ?_)
       intro p; cases p <;> (first | exact .inl (by decide) | exact .inr rfl))
    | (intro _; intros; try beta_reduce))

theorem State.zoneTo_keeps {pts : List Part} (hw : Within [.od, .cores, .hosts, .zones, .power, .events] pts) {bef : State}
    {s : State} (z : Nat) (st : ZoneSt) (h : bef.Keeps pts s) : bef.Keeps pts (State.zoneTo s z st) := by
  unfold State.zoneTo
  repeat' (first
    | with_reducible assumption | ((with_reducible refine Within.sub hw ?_); decide)
    | (fail_if_no_progress extract_lets -underBinder -merge -useContext +onlyGivenNames z
       first
       | (refine keeps_cut (s := z) ?_ ?_; (on_goal 1 => unfold z); on_goal 2 => (intro _; try clear_value z))
       | try clear_value z)
    | with_reducible apply State.noteThrottle_keeps | with_reducible apply State.restretchAll_keeps
    | with_reducible apply State.raise_keeps | with_reducible apply State.bump_keeps
    | with_reducible apply State.modZone_keeps | with_reducible apply keeps_ite | with_reducible apply keeps_ite_snd | split
    | ((with_reducible refine State.keeps_mk hw (by assumption) rfl ?_)
       intro p; cases p <;> (first | exact .inl (by decide) | exact .inr rfl))
    | (intro _; intros; try beta_reduce))

theorem State.lasersOff_keeps {pts : List Part} (hw : Within [.convs, .cartridges] pts) {bef : State} {s : State} (l : Nat)
    (h : bef.Keeps pts s) : bef.Keeps pts (State.lasersOff s l) := by
  unfold State.lasersOff
  repeat' (first
    | with_reducible assumption | ((with_reducible refine Within.sub hw ?_); decide) | with_reducible apply hz
    | (fail_if_no_progress extract_lets -underBinder -merge -useContext +onlyGivenNames z
       first
       | (refine keeps_fact (P := ∀ x0 x1, bef.Keeps pts x0 → bef.Keeps pts (z x0 x1)) ?_ (fun hz => ?_); (on_goal 1 => (unfold z; intros; try beta_reduce)); on_goal 2 => (try clear_value z))
       | (refine keeps_cut (s := z) ?_ ?_; (on_goal 1 => unfold z); on_goal 2 => (intro _; try clear_value z))
       | (refine keeps_cut (s := z.2) ?_ ?_; (on_goal 1 => unfold z); on_goal 2 => (intro _; try clear_value z))
       | (refine keeps_cut (s := z.1) ?_ ?_; (on_goal 1 => unfold z); on_goal 2 => (intro _; try clear_value z))
       | (refine keeps_cut (s := z.2.1) ?_ ?_; (on_goal 1 => unfold z); on_goal 2 => (intro _; try clear_value z))
       | try clear_value z)
    | with_reducible apply State.modCart_keeps | with_reducible apply State.modConv_keeps | with_reducible apply keeps_ite
    | with_reducible apply keeps_ite_snd | split
    | ((with_reducible refine State.keeps_mk hw (by assumption) rfl ?_)
       intro p; cases p <;> (first | exact .inl (by decide) | exact .inr rfl))
    | (intro _; intros; try beta_reduce))

theorem State.cutCore_keeps {pts : List Part} (hw : Within [.od, .units, .cores, .engines, .jobs, .hosts, .loops, .convs,
    .events] pts) {bef : State} {s : State} (c : Nat) (keepVats : Bool) (h : bef.Keeps pts s) : bef.Keeps pts (State.cutCore
    s c keepVats) := by
  unfold State.cutCore
  repeat' (first
    | with_reducible assumption | ((with_reducible refine Within.sub hw ?_); decide)
    | (fail_if_no_progress extract_lets -underBinder -merge -useContext +onlyGivenNames z
       first
       | (refine keeps_cut (s := z) ?_ ?_; (on_goal 1 => unfold z); on_goal 2 => (intro _; try clear_value z))
       | try clear_value z)
    | with_reducible apply State.holdLoops_keeps | with_reducible apply State.fence_keeps
    | with_reducible apply State.modConv_keeps | with_reducible apply State.modEng_keeps
    | with_reducible apply State.modCore_keeps | with_reducible apply keeps_forRange | with_reducible apply keeps_ite
    | with_reducible apply keeps_ite_snd | split
    | ((with_reducible refine State.keeps_mk hw (by assumption) rfl ?_)
       intro p; cases p <;> (first | exact .inl (by decide) | exact .inr rfl))
    | (intro _; intros; try beta_reduce))

theorem State.countCore_keeps {pts : List Part} (hw : Within (Part.allBut [.free]) pts) {bef : State} {s : State} (h :
    bef.Keeps pts s) : bef.Keeps pts (State.countCore s) := by
  unfold State.countCore
  repeat' (first
    | with_reducible assumption | ((with_reducible refine Within.sub hw ?_); decide)
    | (fail_if_no_progress extract_lets -underBinder -merge -useContext +onlyGivenNames z
       first
       | (refine keeps_cut (s := z) ?_ ?_; (on_goal 1 => unfold z); on_goal 2 => (intro _; try clear_value z))
       | try clear_value z)
    | with_reducible apply State.moduleShutdown_keeps | with_reducible apply keeps_ite | with_reducible apply keeps_ite_snd
    | split
    | ((with_reducible refine State.keeps_mk hw (by assumption) rfl ?_)
       intro p; cases p <;> (first | exact .inl (by decide) | exact .inr rfl))
    | (intro _; intros; try beta_reduce))

theorem State.stopCore_keeps {pts : List Part} (hw : Within (Part.allBut [.free]) pts) {bef : State} {s : State} (c : Nat)
    (now : Bool) (h : bef.Keeps pts s) : bef.Keeps pts (State.stopCore s c now) := by
  unfold State.stopCore
  repeat' (first
    | with_reducible assumption | ((with_reducible refine Within.sub hw ?_); decide)
    | (fail_if_no_progress extract_lets -underBinder -merge -useContext +onlyGivenNames z
       first
       | (refine keeps_cut (s := z) ?_ ?_; (on_goal 1 => unfold z); on_goal 2 => (intro _; try clear_value z))
       | try clear_value z)
    | with_reducible apply State.countCore_keeps | with_reducible apply State.cutCore_keeps
    | with_reducible apply State.abandonUsers_keeps | with_reducible apply keeps_ite | with_reducible apply keeps_ite_snd
    | split | (intro _; intros; try beta_reduce))

theorem State.stackOff_keeps {pts : List Part} (hw : Within [.out, .od, .units, .mem, .cores, .engines, .jobs, .streams,
    .hosts, .events, .free] pts) {bef : State} {s : State} (m : Nat) (h : bef.Keeps pts s) : bef.Keeps pts (State.stackOff s
    m) := by
  unfold State.stackOff
  repeat' (first
    | with_reducible assumption | ((with_reducible refine Within.sub hw ?_); decide)
    | (fail_if_no_progress extract_lets -underBinder -merge -useContext +onlyGivenNames z
       first
       | (refine keeps_cut (s := z) ?_ ?_; (on_goal 1 => unfold z); on_goal 2 => (intro _; try clear_value z))
       | try clear_value z)
    | with_reducible apply State.streamLoses_keeps | with_reducible apply State.fence_keeps
    | with_reducible apply keeps_foldl | with_reducible apply keeps_ite | with_reducible apply keeps_ite_snd | split
    | ((with_reducible refine State.keeps_mk hw (by assumption) rfl ?_)
       intro p; cases p <;> (first | exact .inl (by decide) | exact .inr rfl))
    | ((with_reducible refine State.keeps_mem hw (by assumption) rfl ?_ ?_)
       on_goal 1 => (intro p; cases p <;> (first | exact .inl (by decide) | exact .inr rfl)))
    | with_reducible apply Mem.write_wf | with_reducible apply Mem.copy_wf | with_reducible apply Mem.move_wf
    | with_reducible apply Mem.clear_wf | with_reducible apply Mem.putCells_wf | (intro _; intros; try beta_reduce))

theorem State.zoneAct_keeps {pts : List Part} (hw : Within (Part.allBut []) pts) {bef : State} {s : State} (z : Nat) (now :
    Bool) (h : bef.Keeps pts s) : bef.Keeps pts (State.zoneAct s z now) := by
  unfold State.zoneAct
  repeat' (first
    | with_reducible assumption | ((with_reducible refine Within.sub hw ?_); decide)
    | (fail_if_no_progress extract_lets -underBinder -merge -useContext +onlyGivenNames z
       first
       | (refine keeps_cut (s := z) ?_ ?_; (on_goal 1 => unfold z); on_goal 2 => (intro _; try clear_value z))
       | try clear_value z)
    | with_reducible apply State.stackOff_keeps | with_reducible apply State.stopCore_keeps
    | with_reducible apply State.lasersOff_keeps | with_reducible apply State.moduleShutdown_keeps
    | with_reducible apply State.fenceCart_keeps | with_reducible apply State.withdrawPorts_keeps
    | with_reducible apply keeps_ite | with_reducible apply keeps_ite_snd | split | (intro _; intros; try beta_reduce))

theorem State.shutZone_keeps {pts : List Part} (hw : Within (Part.allBut []) pts) {bef : State} {s : State} (z : Nat) (h :
    bef.Keeps pts s) : bef.Keeps pts (State.shutZone s z) := by
  unfold State.shutZone
  repeat' (first
    | with_reducible assumption | ((with_reducible refine Within.sub hw ?_); decide)
    | (fail_if_no_progress extract_lets -underBinder -merge -useContext +onlyGivenNames z
       first
       | (refine keeps_cut (s := z) ?_ ?_; (on_goal 1 => unfold z); on_goal 2 => (intro _; try clear_value z))
       | try clear_value z)
    | with_reducible apply State.zoneAct_keeps | with_reducible apply State.zoneTo_keeps
    | with_reducible apply State.raise_keeps | with_reducible apply State.bump_keeps
    | with_reducible apply State.modZone_keeps | with_reducible apply keeps_ite | with_reducible apply keeps_ite_snd | split
    | ((with_reducible refine State.keeps_mk hw (by assumption) rfl ?_)
       intro p; cases p <;> (first | exact .inl (by decide) | exact .inr rfl))
    | (intro _; intros; try beta_reduce))

theorem State.zoneStep_keeps {pts : List Part} (hw : Within (Part.allBut []) pts) {bef : State} {s : State} (z : Nat) (h :
    bef.Keeps pts s) : bef.Keeps pts (State.zoneStep s z) := by
  unfold State.zoneStep
  repeat' (first
    | with_reducible assumption | ((with_reducible refine Within.sub hw ?_); decide)
    | (fail_if_no_progress extract_lets -underBinder -merge -useContext +onlyGivenNames z
       first
       | (refine keeps_cut (s := z) ?_ ?_; (on_goal 1 => unfold z); on_goal 2 => (intro _; try clear_value z))
       | (refine keeps_cut (s := z.2) ?_ ?_; (on_goal 1 => unfold z); on_goal 2 => (intro _; try clear_value z))
       | (refine keeps_cut (s := z.1) ?_ ?_; (on_goal 1 => unfold z); on_goal 2 => (intro _; try clear_value z))
       | (refine keeps_cut (s := z.2.1) ?_ ?_; (on_goal 1 => unfold z); on_goal 2 => (intro _; try clear_value z))
       | try clear_value z)
    | with_reducible apply State.shutZone_keeps | with_reducible apply State.zoneAct_keeps
    | with_reducible apply State.zoneTo_keeps | with_reducible apply State.modZone_keeps | with_reducible apply keeps_ite
    | with_reducible apply keeps_ite_snd | split
    | ((with_reducible refine State.keeps_mk hw (by assumption) rfl ?_)
       intro p; cases p <;> (first | exact .inl (by decide) | exact .inr rfl))
    | (intro _; intros; try beta_reduce))

theorem State.breakSensor_keeps {pts : List Part} (hw : Within (Part.allBut [.free]) pts) {bef : State} {s : State} (i : Nat)
    (h : bef.Keeps pts s) : bef.Keeps pts (State.breakSensor s i) := by
  unfold State.breakSensor
  repeat' (first
    | with_reducible assumption | ((with_reducible refine Within.sub hw ?_); decide)
    | (fail_if_no_progress extract_lets -underBinder -merge -useContext +onlyGivenNames z
       first
       | (refine keeps_cut (s := z) ?_ ?_; (on_goal 1 => unfold z); on_goal 2 => (intro _; try clear_value z))
       | try clear_value z)
    | with_reducible apply State.stopCore_keeps | with_reducible apply State.lasersOff_keeps
    | with_reducible apply State.zoneTo_keeps | with_reducible apply State.modSensor_keeps
    | with_reducible apply State.moduleShutdown_keeps | with_reducible apply State.fenceCart_keeps
    | with_reducible apply State.raise_keeps | with_reducible apply State.bump_keeps | with_reducible apply keeps_ite
    | with_reducible apply keeps_ite_snd | split
    | ((with_reducible refine State.keeps_mk hw (by assumption) rfl ?_)
       intro p; cases p <;> (first | exact .inl (by decide) | exact .inr rfl))
    | (intro _; intros; try beta_reduce))

theorem State.deviation_keeps {pts : List Part} (hw : Within [.sensors] pts) {bef : State} {s : State} (i : Nat) (h :
    bef.Keeps pts s) : bef.Keeps pts (State.deviation s i) := by
  unfold State.deviation
  repeat' (first
    | with_reducible assumption | ((with_reducible refine Within.sub hw ?_); decide)
    | (fail_if_no_progress extract_lets -underBinder -merge -useContext +onlyGivenNames z
       first
       | (refine keeps_cut (s := z) ?_ ?_; (on_goal 1 => unfold z); on_goal 2 => (intro _; try clear_value z))
       | try clear_value z)
    | with_reducible apply State.modSensor_keeps | with_reducible apply keeps_ite | with_reducible apply keeps_ite_snd
    | split
    | ((with_reducible refine State.keeps_mk hw (by assumption) rfl ?_)
       intro p; cases p <;> (first | exact .inl (by decide) | exact .inr rfl))
    | (intro _; intros; try beta_reduce))

theorem State.readSensor_keeps {pts : List Part} (hw : Within (Part.allBut [.free]) pts) {bef : State} {s : State} (i : Nat)
    (r : SensorRead) (h : bef.Keeps pts s) : bef.Keeps pts (State.readSensor s i r) := by
  unfold State.readSensor
  repeat' (first
    | with_reducible assumption | ((with_reducible refine Within.sub hw ?_); decide)
    | (fail_if_no_progress extract_lets -underBinder -merge -useContext +onlyGivenNames z
       first
       | (refine keeps_cut (s := z) ?_ ?_; (on_goal 1 => unfold z); on_goal 2 => (intro _; try clear_value z))
       | try clear_value z)
    | with_reducible apply State.breakSensor_keeps | with_reducible apply State.modSensor_keeps
    | with_reducible apply keeps_ite | with_reducible apply keeps_ite_snd | split
    | ((with_reducible refine State.keeps_mk hw (by assumption) rfl ?_)
       intro p; cases p <;> (first | exact .inl (by decide) | exact .inr rfl))
    | (intro _; intros; try beta_reduce))

theorem State.sensorSample_keeps {pts : List Part} (hw : Within (Part.allBut []) pts) {bef : State} {s : State} (readings :
    List SensorRead) (h : bef.Keeps pts s) : bef.Keeps pts (State.sensorSample s readings) := by
  unfold State.sensorSample
  repeat' (first
    | with_reducible assumption | ((with_reducible refine Within.sub hw ?_); decide)
    | (fail_if_no_progress extract_lets -underBinder -merge -useContext +onlyGivenNames z
       first
       | (refine keeps_cut (s := z) ?_ ?_; (on_goal 1 => unfold z); on_goal 2 => (intro _; try clear_value z))
       | try clear_value z)
    | with_reducible apply State.readSensor_keeps | with_reducible apply State.deviation_keeps
    | with_reducible apply State.zoneStep_keeps | with_reducible apply keeps_forRange | with_reducible apply keeps_ite
    | with_reducible apply keeps_ite_snd | split | (intro _; intros; try beta_reduce))

theorem execSensorSample_keeps (dt : Nat) (readings : List SensorRead) (s : State) :
    ∃ t, execSensorSample dt readings s = .next t ∧ (s.elapse dt).Keeps (Part.allBut []) t := by
  unfold execSensorSample
  refine ⟨_, rfl, ?_⟩
  have hw : Within (Part.allBut []) (Part.allBut []) := fun _ h => h
  have h := State.Keeps.refl (Part.allBut []) (s.elapse dt)
  generalize s.elapse dt = bef at h ⊢
  repeat' (first
    | with_reducible assumption | ((with_reducible refine Within.sub hw ?_); decide)
    | with_reducible apply State.sensorSample_keeps | with_reducible apply keeps_ite | with_reducible apply keeps_ite_snd
    | split | (intro _; intros; try beta_reduce))

theorem State.reportTimeout_keeps {pts : List Part} (hw : Within (Part.allBut [.free]) pts) {bef : State} {s : State} (m :
    Nat) (h : bef.Keeps pts s) : bef.Keeps pts (State.reportTimeout s m) := by
  unfold State.reportTimeout
  repeat' (first
    | with_reducible assumption | ((with_reducible refine Within.sub hw ?_); decide)
    | (fail_if_no_progress extract_lets -underBinder -merge -useContext +onlyGivenNames z
       first
       | (refine keeps_cut (s := z) ?_ ?_; (on_goal 1 => unfold z); on_goal 2 => (intro _; try clear_value z))
       | try clear_value z)
    | with_reducible apply State.breakSensor_keeps | with_reducible apply keeps_ite | with_reducible apply keeps_ite_snd
    | split
    | ((with_reducible refine State.keeps_mk hw (by assumption) rfl ?_)
       intro p; cases p <;> (first | exact .inl (by decide) | exact .inr rfl))
    | (intro _; intros; try beta_reduce))

theorem execHbmReportTimeout_keeps (dt : Nat) (stack : Fin 20) (s : State) :
    ∃ t, execHbmReportTimeout dt stack s = .next t ∧ (s.elapse dt).Keeps (Part.allBut [.free]) t := by
  unfold execHbmReportTimeout
  refine ⟨_, rfl, ?_⟩
  have hw : Within (Part.allBut [.free]) (Part.allBut [.free]) := fun _ h => h
  have h := State.Keeps.refl (Part.allBut [.free]) (s.elapse dt)
  generalize s.elapse dt = bef at h ⊢
  repeat' (first
    | with_reducible assumption | ((with_reducible refine Within.sub hw ?_); decide)
    | with_reducible apply State.reportTimeout_keeps | with_reducible apply keeps_ite | with_reducible apply keeps_ite_snd
    | split | (intro _; intros; try beta_reduce))

theorem State.deviationTimeout_keeps {pts : List Part} (hw : Within (Part.allBut [.free]) pts) {bef : State} {s : State} (i :
    Nat) (h : bef.Keeps pts s) : bef.Keeps pts (State.deviationTimeout s i) := by
  unfold State.deviationTimeout
  repeat' (first
    | with_reducible assumption | ((with_reducible refine Within.sub hw ?_); decide)
    | (fail_if_no_progress extract_lets -underBinder -merge -useContext +onlyGivenNames z
       first
       | (refine keeps_cut (s := z) ?_ ?_; (on_goal 1 => unfold z); on_goal 2 => (intro _; try clear_value z))
       | try clear_value z)
    | with_reducible apply State.breakSensor_keeps | with_reducible apply keeps_ite | with_reducible apply keeps_ite_snd
    | split
    | ((with_reducible refine State.keeps_mk hw (by assumption) rfl ?_)
       intro p; cases p <;> (first | exact .inl (by decide) | exact .inr rfl))
    | (intro _; intros; try beta_reduce))

theorem execSensorDeviationTimeout_keeps (dt : Nat) (sensor : Fin 238) (s : State) :
    ∃ t, execSensorDeviationTimeout dt sensor s = .next t ∧ (s.elapse dt).Keeps (Part.allBut [.free]) t := by
  unfold execSensorDeviationTimeout
  refine ⟨_, rfl, ?_⟩
  have hw : Within (Part.allBut [.free]) (Part.allBut [.free]) := fun _ h => h
  have h := State.Keeps.refl (Part.allBut [.free]) (s.elapse dt)
  generalize s.elapse dt = bef at h ⊢
  repeat' (first
    | with_reducible assumption | ((with_reducible refine Within.sub hw ?_); decide)
    | with_reducible apply State.deviationTimeout_keeps | with_reducible apply keeps_ite
    | with_reducible apply keeps_ite_snd | split | (intro _; intros; try beta_reduce))

theorem State.throttleStep_keeps {pts : List Part} (hw : Within [.od, .cores, .hosts, .zones, .power, .events] pts) {bef :
    State} {s : State} (z : Nat) (h : bef.Keeps pts s) : bef.Keeps pts (State.throttleStep s z) := by
  unfold State.throttleStep
  repeat' (first
    | with_reducible assumption | ((with_reducible refine Within.sub hw ?_); decide)
    | (fail_if_no_progress extract_lets -underBinder -merge -useContext +onlyGivenNames z
       first
       | (refine keeps_cut (s := z) ?_ ?_; (on_goal 1 => unfold z); on_goal 2 => (intro _; try clear_value z))
       | try clear_value z)
    | with_reducible apply State.zoneTo_keeps | with_reducible apply State.restretchAll_keeps
    | with_reducible apply State.modZone_keeps | with_reducible apply keeps_ite | with_reducible apply keeps_ite_snd | split
    | ((with_reducible refine State.keeps_mk hw (by assumption) rfl ?_)
       intro p; cases p <;> (first | exact .inl (by decide) | exact .inr rfl))
    | (intro _; intros; try beta_reduce))

theorem execThrottleEvaluation_keeps (dt : Nat) (zone : Fin 62) (s : State) :
    ∃ t, execThrottleEvaluation dt zone s = .next t ∧ (s.elapse dt).Keeps [.od, .cores, .hosts, .zones, .power, .events] t := by
  unfold execThrottleEvaluation
  refine ⟨_, rfl, ?_⟩
  have hw : Within [.od, .cores, .hosts, .zones, .power, .events] [.od, .cores, .hosts, .zones, .power, .events] := fun _ h => h
  have h := State.Keeps.refl [.od, .cores, .hosts, .zones, .power, .events] (s.elapse dt)
  generalize s.elapse dt = bef at h ⊢
  repeat' (first
    | with_reducible assumption | ((with_reducible refine Within.sub hw ?_); decide)
    | with_reducible apply State.throttleStep_keeps | with_reducible apply keeps_ite | with_reducible apply keeps_ite_snd
    | split | (intro _; intros; try beta_reduce))

theorem State.reinstateAct_keeps {pts : List Part} (hw : Within [.sensors] pts) {bef : State} (i : Nat) (passed : Bool) {s :
    State} (h : bef.Keeps pts s) : bef.Keeps pts (State.reinstateAct i passed s).2 := by
  unfold State.reinstateAct
  repeat' (first
    | with_reducible assumption | ((with_reducible refine Within.sub hw ?_); decide)
    | (fail_if_no_progress extract_lets -underBinder -merge -useContext +onlyGivenNames z
       first
       | (refine keeps_cut (s := z) ?_ ?_; (on_goal 1 => unfold z); on_goal 2 => (intro _; try clear_value z))
       | try clear_value z)
    | with_reducible apply State.modSensor_keeps | with_reducible apply refuse_keeps | with_reducible apply accept_keeps
    | with_reducible apply keeps_ite | with_reducible apply keeps_ite_snd | split
    | ((with_reducible refine State.keeps_mk hw (by assumption) rfl ?_)
       intro p; cases p <;> (first | exact .inl (by decide) | exact .inr rfl))
    | (intro _; intros; try beta_reduce))

theorem execSensorReinstate_keeps (dt : Nat) (road : Road) (sensor : BitVec 16) (selfCheckPassed : Bool) (s : State) :
    ∃ t, execSensorReinstate dt road sensor selfCheckPassed s = .next t ∧ (s.elapse dt).Keeps [.out, .od, .hosts, .sensors,
        .events] t := by
  unfold execSensorReinstate
  refine ⟨_, rfl, ?_⟩
  have hw : Within [.out, .od, .hosts, .sensors, .events] [.out, .od, .hosts, .sensors, .events] := fun _ h => h
  have h := State.Keeps.refl [.out, .od, .hosts, .sensors, .events] (s.elapse dt)
  generalize s.elapse dt = bef at h ⊢
  repeat' (first
    | with_reducible assumption | ((with_reducible refine Within.sub hw ?_); decide)
    | with_reducible apply State.reinstateAct_keeps | with_reducible apply State.writeRow_keeps
    | with_reducible apply keeps_ite | with_reducible apply keeps_ite_snd | split | (intro _; intros; try beta_reduce))

theorem State.spillCore_keeps {pts : List Part} (hw : Within [.mem, .cores, .engines] pts) {bef : State} {s : State} (c :
    Nat) (h : bef.Keeps pts s) : bef.Keeps pts (State.spillCore s c) := by
  unfold State.spillCore
  repeat' (first
    | with_reducible assumption | ((with_reducible refine Within.sub hw ?_); decide) | with_reducible apply hz
    | (fail_if_no_progress extract_lets -underBinder -merge -useContext +onlyGivenNames z
       first
       | (refine keeps_fact (P := ∀ x0 x1, bef.Keeps pts x1 → bef.Keeps pts (z x0 x1)) ?_ (fun hz => ?_); (on_goal 1 => (unfold z; intros; try beta_reduce)); on_goal 2 => (try clear_value z))
       | (refine keeps_cut (s := z) ?_ ?_; (on_goal 1 => unfold z); on_goal 2 => (intro _; try clear_value z))
       | (refine keeps_cut (s := z.2) ?_ ?_; (on_goal 1 => unfold z); on_goal 2 => (intro _; try clear_value z))
       | (refine keeps_cut (s := z.1) ?_ ?_; (on_goal 1 => unfold z); on_goal 2 => (intro _; try clear_value z))
       | (refine keeps_cut (s := z.2.1) ?_ ?_; (on_goal 1 => unfold z); on_goal 2 => (intro _; try clear_value z))
       | try clear_value z)
    | with_reducible apply State.landSpill_keeps | with_reducible apply State.modRow_keeps
    | with_reducible apply keeps_foldl | with_reducible apply keeps_foldl_fst | with_reducible apply keeps_foldl_snd
    | with_reducible apply keeps_foldl_mid | with_reducible apply keeps_forRange | with_reducible apply keeps_forRange_fst
    | with_reducible apply keeps_forRange_snd | with_reducible apply keeps_ite | with_reducible apply keeps_ite_snd | split
    | (intro _; intros; try beta_reduce))

theorem State.orderlyStop_keeps {pts : List Part} (hw : Within [.od, .units, .mem, .cores, .engines, .jobs, .epoch, .ports,
    .hosts, .loops, .convs, .cartridges, .events] pts) {bef : State} {s : State} (c : Nat) (h : bef.Keeps pts s) : bef.Keeps
    pts (State.orderlyStop s c) := by
  unfold State.orderlyStop
  repeat' (first
    | with_reducible assumption | ((with_reducible refine Within.sub hw ?_); decide)
    | (fail_if_no_progress extract_lets -underBinder -merge -useContext +onlyGivenNames z
       first
       | (refine keeps_cut (s := z) ?_ ?_; (on_goal 1 => unfold z); on_goal 2 => (intro _; try clear_value z))
       | (refine keeps_cut (s := z.2) ?_ ?_; (on_goal 1 => unfold z); on_goal 2 => (intro _; try clear_value z))
       | (refine keeps_cut (s := z.1) ?_ ?_; (on_goal 1 => unfold z); on_goal 2 => (intro _; try clear_value z))
       | (refine keeps_cut (s := z.2.1) ?_ ?_; (on_goal 1 => unfold z); on_goal 2 => (intro _; try clear_value z))
       | try clear_value z)
    | with_reducible apply State.spillCore_keeps | with_reducible apply State.cutCore_keeps
    | with_reducible apply State.lasersOff_keeps | with_reducible apply State.fenceCart_keeps
    | with_reducible apply keeps_ite | with_reducible apply keeps_ite_snd | split
    | with_reducible refine keeps_of_fst (by with_reducible assumption) ?_
    | with_reducible refine keeps_of_snd (by with_reducible assumption) ?_ | (intro _; intros; try beta_reduce))

theorem execCoreOrderlyStop_keeps (dt : Nat) (core : Fin 16) (s : State) :
    ∃ t, execCoreOrderlyStop dt core s = .next t ∧ (s.elapse dt).Keeps [.od, .units, .mem, .cores, .engines, .jobs, .epoch,
        .ports, .hosts, .loops, .convs, .cartridges, .events] t := by
  unfold execCoreOrderlyStop
  refine ⟨_, rfl, ?_⟩
  have hw : Within [.od, .units, .mem, .cores, .engines, .jobs, .epoch, .ports, .hosts, .loops, .convs, .cartridges, .events]
      [.od, .units, .mem, .cores, .engines, .jobs, .epoch, .ports, .hosts, .loops, .convs, .cartridges, .events] := fun _ h => h
  have h := State.Keeps.refl [.od, .units, .mem, .cores, .engines, .jobs, .epoch, .ports, .hosts, .loops, .convs,
      .cartridges, .events] (s.elapse dt)
  generalize s.elapse dt = bef at h ⊢
  repeat' (first
    | with_reducible assumption | ((with_reducible refine Within.sub hw ?_); decide)
    | with_reducible apply State.orderlyStop_keeps | with_reducible apply keeps_ite | with_reducible apply keeps_ite_snd
    | split | (intro _; intros; try beta_reduce))

theorem State.stackPowerDown_keeps {pts : List Part} (hw : Within [.out, .od, .units, .mem, .cores, .engines, .jobs,
    .streams, .hosts, .events, .free] pts) {bef : State} {s : State} (m : Nat) (h : bef.Keeps pts s) : bef.Keeps pts
    (State.stackPowerDown s m) := by
  unfold State.stackPowerDown
  repeat' (first
    | with_reducible assumption | ((with_reducible refine Within.sub hw ?_); decide)
    | with_reducible apply State.stackOff_keeps | with_reducible apply keeps_ite | with_reducible apply keeps_ite_snd
    | split | (intro _; intros; try beta_reduce))

theorem execStackPowerDown_keeps (dt : Nat) (stack : Fin 20) (s : State) :
    ∃ t, execStackPowerDown dt stack s = .next t ∧ (s.elapse dt).Keeps [.out, .od, .units, .mem, .cores, .engines, .jobs,
        .streams, .hosts, .events, .free] t := by
  unfold execStackPowerDown
  refine ⟨_, rfl, ?_⟩
  have hw : Within [.out, .od, .units, .mem, .cores, .engines, .jobs, .streams, .hosts, .events, .free] [.out, .od, .units,
      .mem, .cores, .engines, .jobs, .streams, .hosts, .events, .free] := fun _ h => h
  have h := State.Keeps.refl [.out, .od, .units, .mem, .cores, .engines, .jobs, .streams, .hosts, .events, .free] (s.elapse dt)
  generalize s.elapse dt = bef at h ⊢
  repeat' (first
    | with_reducible assumption | ((with_reducible refine Within.sub hw ?_); decide)
    | with_reducible apply State.stackPowerDown_keeps | with_reducible apply keeps_ite | with_reducible apply keeps_ite_snd
    | split | (intro _; intros; try beta_reduce))

theorem State.hardTrip_keeps {pts : List Part} (hw : Within (Part.allBut [.out, .free]) pts) {bef : State} {s : State} (z :
    Nat) (powered : Bool) (h : bef.Keeps pts s) : bef.Keeps pts (State.hardTrip s z powered) := by
  unfold State.hardTrip
  repeat' (first
    | with_reducible assumption | ((with_reducible refine Within.sub hw ?_); decide)
    | (fail_if_no_progress extract_lets -underBinder -merge -useContext +onlyGivenNames z
       first
       | (refine keeps_cut (s := z) ?_ ?_; (on_goal 1 => unfold z); on_goal 2 => (intro _; try clear_value z))
       | (refine keeps_cut (s := z.2) ?_ ?_; (on_goal 1 => unfold z); on_goal 2 => (intro _; try clear_value z))
       | (refine keeps_cut (s := z.1) ?_ ?_; (on_goal 1 => unfold z); on_goal 2 => (intro _; try clear_value z))
       | (refine keeps_cut (s := z.2.1) ?_ ?_; (on_goal 1 => unfold z); on_goal 2 => (intro _; try clear_value z))
       | try clear_value z)
    | with_reducible apply State.cutCore_keeps | with_reducible apply State.lasersOff_keeps
    | with_reducible apply State.zoneTo_keeps | with_reducible apply State.powerOff_keeps
    | with_reducible apply State.fenceCart_keeps | with_reducible apply State.abandonUsers_keeps
    | with_reducible apply State.raise_keeps | with_reducible apply State.bump_keeps | with_reducible apply keeps_ite
    | with_reducible apply keeps_ite_snd | split | with_reducible refine keeps_of_fst (by with_reducible assumption) ?_
    | with_reducible refine keeps_of_snd (by with_reducible assumption) ?_ | (intro _; intros; try beta_reduce))

theorem execThermalHardTrip_keeps (dt : Nat) (zone : Fin 62) (supervisorPowered : Bool) (s : State) :
    ∃ t, execThermalHardTrip dt zone supervisorPowered s = .next t ∧ (s.elapse dt).Keeps (Part.allBut [.out, .free]) t := by
  unfold execThermalHardTrip
  refine ⟨_, rfl, ?_⟩
  have hw : Within (Part.allBut [.out, .free]) (Part.allBut [.out, .free]) := fun _ h => h
  have h := State.Keeps.refl (Part.allBut [.out, .free]) (s.elapse dt)
  generalize s.elapse dt = bef at h ⊢
  repeat' (first
    | with_reducible assumption | ((with_reducible refine Within.sub hw ?_); decide)
    | with_reducible apply State.hardTrip_keeps | with_reducible apply keeps_ite | with_reducible apply keeps_ite_snd
    | split | (intro _; intros; try beta_reduce))

end Sys2Proof.Machine
end

