-- ==== Sys2Proof/Laws/KeepsBringup.lean ====
section
/-! SUPPORT. What the operations of Machine/Bringup.lean keep. -/

namespace Sys2Proof.Machine

theorem State.acquire_keeps {pts : List Part} (hw : Within [.loops] pts) {bef : State} {s : State} (c : Nat) (slot : Nat) (h
    : bef.Keeps pts s) : bef.Keeps pts (State.acquire s c slot) := by
  unfold State.acquire
  repeat' (first
    | with_reducible assumption | ((with_reducible refine Within.sub hw ?_); decide)
    | (fail_if_no_progress extract_lets -underBinder -merge -useContext +onlyGivenNames z
       first
       | (refine keeps_cut (s := z) ?_ ?_; (on_goal 1 => unfold z); on_goal 2 => (intro _; try clear_value z))
       | (refine keeps_cut (s := z.2) ?_ ?_; (on_goal 1 => unfold z); on_goal 2 => (intro _; try clear_value z))
       | (refine keeps_cut (s := z.1) ?_ ?_; (on_goal 1 => unfold z); on_goal 2 => (intro _; try clear_value z))
       | (refine keeps_cut (s := z.2.1) ?_ ?_; (on_goal 1 => unfold z); on_goal 2 => (intro _; try clear_value z))
       | try clear_value z)
    | with_reducible apply State.modLoops_keeps | with_reducible apply keeps_ite | with_reducible apply keeps_ite_snd
    | split
    | ((with_reducible refine State.keeps_mk hw (by assumption) rfl ?_)
       intro p; cases p <;> (first | exact .inl (by decide) | exact .inr rfl))
    | (intro _; intros; try beta_reduce))

theorem State.acquireEach_keeps {pts : List Part} (hw : Within [.loops] pts) {bef : State} {s : State} (c : Nat) (slots :
    List Nat) (h : bef.Keeps pts s) : bef.Keeps pts (State.acquireEach s c slots) := by
  unfold State.acquireEach
  repeat' (first
    | with_reducible assumption | ((with_reducible refine Within.sub hw ?_); decide)
    | with_reducible apply State.acquire_keeps | with_reducible apply keeps_foldl | with_reducible apply keeps_ite
    | with_reducible apply keeps_ite_snd | split | (intro _; intros; try beta_reduce))

theorem State.armDriver_keeps {pts : List Part} (hw : Within [.convs] pts) {bef : State} {s : State} (c : Nat) (ch : Nat) (h
    : bef.Keeps pts s) : bef.Keeps pts (State.armDriver s c ch) := by
  unfold State.armDriver
  repeat' (first
    | with_reducible assumption | ((with_reducible refine Within.sub hw ?_); decide)
    | (fail_if_no_progress extract_lets -underBinder -merge -useContext +onlyGivenNames z
       first
       | (refine keeps_cut (s := z) ?_ ?_; (on_goal 1 => unfold z); on_goal 2 => (intro _; try clear_value z))
       | try clear_value z)
    | with_reducible apply State.modChannel_keeps | with_reducible apply keeps_ite | with_reducible apply keeps_ite_snd
    | split
    | ((with_reducible refine State.keeps_mk hw (by assumption) rfl ?_)
       intro p; cases p <;> (first | exact .inl (by decide) | exact .inr rfl))
    | (intro _; intros; try beta_reduce))

theorem State.setPilots_keeps {pts : List Part} (hw : Within [.loops, .convs] pts) {bef : State} {s : State} (c : Nat) (h :
    bef.Keeps pts s) : bef.Keeps pts (State.setPilots s c) := by
  unfold State.setPilots
  repeat' (first
    | with_reducible assumption | ((with_reducible refine Within.sub hw ?_); decide)
    | (fail_if_no_progress extract_lets -underBinder -merge -useContext +onlyGivenNames z
       first
       | (refine keeps_cut (s := z) ?_ ?_; (on_goal 1 => unfold z); on_goal 2 => (intro _; try clear_value z))
       | (refine keeps_cut (s := z.2) ?_ ?_; (on_goal 1 => unfold z); on_goal 2 => (intro _; try clear_value z))
       | (refine keeps_cut (s := z.1) ?_ ?_; (on_goal 1 => unfold z); on_goal 2 => (intro _; try clear_value z))
       | (refine keeps_cut (s := z.2.1) ?_ ?_; (on_goal 1 => unfold z); on_goal 2 => (intro _; try clear_value z))
       | try clear_value z)
    | with_reducible apply State.modChannel_keeps | with_reducible apply State.modConv_keeps
    | with_reducible apply State.modLoops_keeps | with_reducible apply keeps_foldl | with_reducible apply keeps_foldl_fst
    | with_reducible apply keeps_foldl_snd | with_reducible apply keeps_foldl_mid | with_reducible apply keeps_ite
    | with_reducible apply keeps_ite_snd | split
    | ((with_reducible refine State.keeps_mk hw (by assumption) rfl ?_)
       intro p; cases p <;> (first | exact .inl (by decide) | exact .inr rfl))
    | (intro _; intros; try beta_reduce))

theorem State.warmAct_keeps {pts : List Part} (hw : Within [.cores, .loops, .convs, .cartridges] pts) {bef : State} {s :
    State} (c : Nat) (step : Nat) (h : bef.Keeps pts s) : bef.Keeps pts (State.warmAct s c step) := by
  unfold State.warmAct
  repeat' (first
    | with_reducible assumption | ((with_reducible refine Within.sub hw ?_); decide)
    | (fail_if_no_progress extract_lets -underBinder -merge -useContext +onlyGivenNames z
       first
       | (refine keeps_cut (s := z) ?_ ?_; (on_goal 1 => unfold z); on_goal 2 => (intro _; try clear_value z))
       | try clear_value z)
    | with_reducible apply State.setPilots_keeps | with_reducible apply State.armDriver_keeps
    | with_reducible apply State.acquireEach_keeps | with_reducible apply State.acquire_keeps
    | with_reducible apply State.modCart_keeps | with_reducible apply State.modCore_keeps | with_reducible apply keeps_foldl
    | with_reducible apply keeps_ite | with_reducible apply keeps_ite_snd | split
    | ((with_reducible refine State.keeps_mk hw (by assumption) rfl ?_)
       intro p; cases p <;> (first | exact .inl (by decide) | exact .inr rfl))
    | (intro _; intros; try beta_reduce))

theorem State.startCore_keeps {pts : List Part} (hw : Within [.units, .cores, .loops, .convs, .cartridges] pts) {bef : State}
    {s : State} (c : Nat) (h : bef.Keeps pts s) : bef.Keeps pts (State.startCore s c) := by
  unfold State.startCore
  repeat' (first
    | with_reducible assumption | ((with_reducible refine Within.sub hw ?_); decide)
    | (fail_if_no_progress extract_lets -underBinder -merge -useContext +onlyGivenNames z
       first
       | (refine keeps_cut (s := z) ?_ ?_; (on_goal 1 => unfold z); on_goal 2 => (intro _; try clear_value z))
       | try clear_value z)
    | with_reducible apply State.warmAct_keeps | with_reducible apply State.putUnit_keeps
    | with_reducible apply keeps_forRange | with_reducible apply keeps_ite | with_reducible apply keeps_ite_snd | split
    | (intro _; intros; try beta_reduce))

theorem State.checkWarm_keeps {pts : List Part} (hw : Within [.run, .od, .hosts, .convs, .events] pts) {bef : State} {s :
    State} (h : bef.Keeps pts s) : bef.Keeps pts (State.checkWarm s) := by
  unfold State.checkWarm
  repeat' (first
    | with_reducible assumption | ((with_reducible refine Within.sub hw ?_); decide)
    | (fail_if_no_progress extract_lets -underBinder -merge -useContext +onlyGivenNames z
       first
       | (refine keeps_cut (s := z) ?_ ?_; (on_goal 1 => unfold z); on_goal 2 => (intro _; try clear_value z))
       | (refine keeps_cut (s := z.2) ?_ ?_; (on_goal 1 => unfold z); on_goal 2 => (intro _; try clear_value z))
       | (refine keeps_cut (s := z.1) ?_ ?_; (on_goal 1 => unfold z); on_goal 2 => (intro _; try clear_value z))
       | (refine keeps_cut (s := z.2.1) ?_ ?_; (on_goal 1 => unfold z); on_goal 2 => (intro _; try clear_value z))
       | try clear_value z)
    | with_reducible apply State.latch_keeps | with_reducible apply State.followJobs_keeps
    | with_reducible apply State.runTo_keeps | with_reducible apply State.setVal_keeps | with_reducible apply keeps_ite
    | with_reducible apply keeps_ite_snd | split | with_reducible refine keeps_of_fst (by with_reducible assumption) ?_
    | with_reducible refine keeps_of_snd (by with_reducible assumption) ?_ | (intro _; intros; try beta_reduce))

theorem State.startWarming_keeps {pts : List Part} (hw : Within [.run, .od, .units, .cores, .hosts, .loops, .convs,
    .cartridges, .events] pts) {bef : State} {s : State} (h : bef.Keeps pts s) : bef.Keeps pts (State.startWarming s) := by
  unfold State.startWarming
  repeat' (first
    | with_reducible assumption | ((with_reducible refine Within.sub hw ?_); decide)
    | (fail_if_no_progress extract_lets -underBinder -merge -useContext +onlyGivenNames z
       first
       | (refine keeps_cut (s := z) ?_ ?_; (on_goal 1 => unfold z); on_goal 2 => (intro _; try clear_value z))
       | try clear_value z)
    | with_reducible apply State.checkWarm_keeps | with_reducible apply State.startCore_keeps
    | with_reducible apply State.stopJobs_keeps | with_reducible apply State.latch_keeps
    | with_reducible apply State.runTo_keeps | with_reducible apply State.setVal_keeps | with_reducible apply keeps_forRange
    | with_reducible apply keeps_ite | with_reducible apply keeps_ite_snd | split
    | ((with_reducible refine State.keeps_mk hw (by assumption) rfl ?_)
       intro p; cases p <;> (first | exact .inl (by decide) | exact .inr rfl))
    | (intro _; intros; try beta_reduce))

theorem State.warmEnds_keeps {pts : List Part} (hw : Within [.run, .od, .units, .cores, .epoch, .hosts, .loops, .convs,
    .events] pts) {bef : State} {s : State} (c : Nat) (h : bef.Keeps pts s) : bef.Keeps pts (State.warmEnds s c) := by
  unfold State.warmEnds
  repeat' (first
    | with_reducible assumption | ((with_reducible refine Within.sub hw ?_); decide)
    | (fail_if_no_progress extract_lets -underBinder -merge -useContext +onlyGivenNames z
       first
       | (refine keeps_cut (s := z) ?_ ?_; (on_goal 1 => unfold z); on_goal 2 => (intro _; try clear_value z))
       | (refine keeps_cut (s := z.2) ?_ ?_; (on_goal 1 => unfold z); on_goal 2 => (intro _; try clear_value z))
       | (refine keeps_cut (s := z.1) ?_ ?_; (on_goal 1 => unfold z); on_goal 2 => (intro _; try clear_value z))
       | (refine keeps_cut (s := z.2.1) ?_ ?_; (on_goal 1 => unfold z); on_goal 2 => (intro _; try clear_value z))
       | try clear_value z)
    | with_reducible apply State.checkWarm_keeps | with_reducible apply State.setUnit_keeps
    | with_reducible apply State.modCore_keeps | with_reducible apply keeps_foldl | with_reducible apply keeps_ite
    | with_reducible apply keeps_ite_snd | split
    | ((with_reducible refine State.keeps_mk hw (by assumption) rfl ?_)
       intro p; cases p <;> (first | exact .inl (by decide) | exact .inr rfl))
    | with_reducible refine keeps_of_fst (by with_reducible assumption) ?_
    | with_reducible refine keeps_of_snd (by with_reducible assumption) ?_ | (intro _; intros; try beta_reduce))

theorem State.warmStep_keeps {pts : List Part} (hw : Within [.run, .od, .units, .cores, .epoch, .hosts, .loops, .convs,
    .cartridges, .events] pts) {bef : State} {s : State} (c : Nat) (h : bef.Keeps pts s) : bef.Keeps pts (State.warmStep s c)
    := by
  unfold State.warmStep
  repeat' (first
    | with_reducible assumption | ((with_reducible refine Within.sub hw ?_); decide)
    | (fail_if_no_progress extract_lets -underBinder -merge -useContext +onlyGivenNames z
       first
       | (refine keeps_cut (s := z) ?_ ?_; (on_goal 1 => unfold z); on_goal 2 => (intro _; try clear_value z))
       | try clear_value z)
    | with_reducible apply State.warmEnds_keeps | with_reducible apply State.warmAct_keeps
    | with_reducible apply State.setUnit_keeps | with_reducible apply keeps_ite | with_reducible apply keeps_ite_snd | split
    | (intro _; intros; try beta_reduce))

theorem execCoreWarmingStep_keeps (dt : Nat) (core : Fin 16) (s : State) :
    ∃ t, execCoreWarmingStep dt core s = .next t ∧ (s.elapse dt).Keeps [.run, .od, .units, .cores, .epoch, .hosts, .loops,
        .convs, .cartridges, .events] t := by
  unfold execCoreWarmingStep
  refine ⟨_, rfl, ?_⟩
  have hw : Within [.run, .od, .units, .cores, .epoch, .hosts, .loops, .convs, .cartridges, .events] [.run, .od, .units,
      .cores, .epoch, .hosts, .loops, .convs, .cartridges, .events] := fun _ h => h
  have h := State.Keeps.refl [.run, .od, .units, .cores, .epoch, .hosts, .loops, .convs, .cartridges, .events] (s.elapse dt)
  generalize s.elapse dt = bef at h ⊢
  repeat' (first
    | with_reducible assumption | ((with_reducible refine Within.sub hw ?_); decide)
    | with_reducible apply State.warmStep_keeps | with_reducible apply keeps_ite | with_reducible apply keeps_ite_snd
    | split | (intro _; intros; try beta_reduce))

theorem State.warmLimit_keeps {pts : List Part} (hw : Within [.run, .od, .units, .cores, .engines, .jobs, .hosts, .loops,
    .convs, .events] pts) {bef : State} {s : State} (h : bef.Keeps pts s) : bef.Keeps pts (State.warmLimit s) := by
  unfold State.warmLimit
  repeat' (first
    | with_reducible assumption | ((with_reducible refine Within.sub hw ?_); decide)
    | (fail_if_no_progress extract_lets -underBinder -merge -useContext +onlyGivenNames z
       first
       | (refine keeps_cut (s := z) ?_ ?_; (on_goal 1 => unfold z); on_goal 2 => (intro _; try clear_value z))
       | (refine keeps_cut (s := z.2) ?_ ?_; (on_goal 1 => unfold z); on_goal 2 => (intro _; try clear_value z))
       | (refine keeps_cut (s := z.1) ?_ ?_; (on_goal 1 => unfold z); on_goal 2 => (intro _; try clear_value z))
       | (refine keeps_cut (s := z.2.1) ?_ ?_; (on_goal 1 => unfold z); on_goal 2 => (intro _; try clear_value z))
       | try clear_value z)
    | with_reducible apply State.warmStep_keeps | with_reducible apply State.checkWarm_keeps
    | with_reducible apply State.latch_keeps | with_reducible apply State.holdLoops_keeps
    | with_reducible apply State.fence_keeps | with_reducible apply State.modCore_keeps
    | with_reducible apply keeps_forRange | with_reducible apply keeps_ite | with_reducible apply keeps_ite_snd | split
    | ((with_reducible refine State.keeps_mk hw (by assumption) rfl ?_)
       intro p; cases p <;> (first | exact .inl (by decide) | exact .inr rfl))
    | with_reducible refine keeps_of_fst (by with_reducible assumption) ?_
    | with_reducible refine keeps_of_snd (by with_reducible assumption) ?_ | (intro _; intros; try beta_reduce))

theorem execWarmingLimit_keeps (dt : Nat) (s : State) :
    ∃ t, execWarmingLimit dt s = .next t ∧ (s.elapse dt).Keeps [.run, .od, .units, .cores, .engines, .jobs, .hosts, .loops,
        .convs, .events] t := by
  unfold execWarmingLimit
  refine ⟨_, rfl, ?_⟩
  have hw : Within [.run, .od, .units, .cores, .engines, .jobs, .hosts, .loops, .convs, .events] [.run, .od, .units, .cores,
      .engines, .jobs, .hosts, .loops, .convs, .events] := fun _ h => h
  have h := State.Keeps.refl [.run, .od, .units, .cores, .engines, .jobs, .hosts, .loops, .convs, .events] (s.elapse dt)
  generalize s.elapse dt = bef at h ⊢
  repeat' (first
    | with_reducible assumption | ((with_reducible refine Within.sub hw ?_); decide)
    | with_reducible apply State.warmLimit_keeps | with_reducible apply keeps_ite | with_reducible apply keeps_ite_snd
    | split | (intro _; intros; try beta_reduce))

theorem State.selfTested_keeps {pts : List Part} (hw : Within [.od, .units, .cores, .engines, .jobs, .epoch, .hosts, .loops,
    .convs, .events] pts) {bef : State} {s : State} (failed : List UnitRef) (r : Nat) (h : bef.Keeps pts s) : bef.Keeps pts
    (State.selfTested s failed r) := by
  unfold State.selfTested
  repeat' (first
    | with_reducible assumption | ((with_reducible refine Within.sub hw ?_); decide)
    | with_reducible apply State.fence_keeps | with_reducible apply State.setUnit_keeps | with_reducible apply keeps_ite
    | with_reducible apply keeps_ite_snd | split | (intro _; intros; try beta_reduce))

theorem State.standby_keeps {pts : List Part} (hw : Within [.run, .od, .units, .cores, .engines, .jobs, .epoch, .ports,
    .hosts, .loops, .convs, .cartridges, .events] pts) {bef : State} {s : State} (failed : List UnitRef) (h : bef.Keeps pts
    s) : bef.Keeps pts (State.standby s failed) := by
  unfold State.standby
  repeat' (first
    | with_reducible assumption | ((with_reducible refine Within.sub hw ?_); decide)
    | (fail_if_no_progress extract_lets -underBinder -merge -useContext +onlyGivenNames z
       first
       | (refine keeps_cut (s := z) ?_ ?_; (on_goal 1 => unfold z); on_goal 2 => (intro _; try clear_value z))
       | try clear_value z)
    | with_reducible apply State.selfTested_keeps | with_reducible apply State.startWarming_keeps
    | with_reducible apply State.boot_keeps | with_reducible apply State.portEnable_keeps
    | with_reducible apply State.fence_keeps | with_reducible apply State.runTo_keeps
    | with_reducible apply State.modCore_keeps | with_reducible apply keeps_foldl | with_reducible apply keeps_forRange
    | with_reducible apply keeps_ite | with_reducible apply keeps_ite_snd | split
    | ((with_reducible refine State.keeps_mk hw (by assumption) rfl ?_)
       intro p; cases p <;> (first | exact .inl (by decide) | exact .inr rfl))
    | (intro _; intros; try beta_reduce))

theorem execStandbyReached_keeps (dt : Nat) (failed : List UnitRef) (s : State) :
    ∃ t, execStandbyReached dt failed s = .next t ∧ (s.elapse dt).Keeps [.run, .od, .units, .cores, .engines, .jobs, .epoch,
        .ports, .hosts, .loops, .convs, .cartridges, .events] t := by
  unfold execStandbyReached
  refine ⟨_, rfl, ?_⟩
  have hw : Within [.run, .od, .units, .cores, .engines, .jobs, .epoch, .ports, .hosts, .loops, .convs, .cartridges, .events]
      [.run, .od, .units, .cores, .engines, .jobs, .epoch, .ports, .hosts, .loops, .convs, .cartridges, .events] := fun _ h => h
  have h := State.Keeps.refl [.run, .od, .units, .cores, .engines, .jobs, .epoch, .ports, .hosts, .loops, .convs,
      .cartridges, .events] (s.elapse dt)
  generalize s.elapse dt = bef at h ⊢
  repeat' (first
    | with_reducible assumption | ((with_reducible refine Within.sub hw ?_); decide)
    | with_reducible apply State.standby_keeps | with_reducible apply keeps_ite | with_reducible apply keeps_ite_snd | split
    | (intro _; intros; try beta_reduce))

theorem State.startAct_keeps {pts : List Part} (hw : Within [.run, .od, .units, .cores, .hosts, .loops, .convs, .cartridges,
    .events] pts) {bef : State} {s : State} (h : bef.Keeps pts s) : bef.Keeps pts (State.startAct s).2 := by
  unfold State.startAct
  repeat' (first
    | with_reducible assumption | ((with_reducible refine Within.sub hw ?_); decide)
    | with_reducible apply State.standby_keeps | with_reducible apply State.startWarming_keeps
    | with_reducible apply refuse_keeps | with_reducible apply accept_keeps | with_reducible apply keeps_ite
    | with_reducible apply keeps_ite_snd | split | (intro _; intros; try beta_reduce))

theorem execStart_keeps (dt : Nat) (road : Road) (s : State) :
    ∃ t, execStart dt road s = .next t ∧ (s.elapse dt).Keeps [.out, .run, .od, .units, .cores, .hosts, .loops, .convs,
        .cartridges, .events] t := by
  unfold execStart
  refine ⟨_, rfl, ?_⟩
  have hw : Within [.out, .run, .od, .units, .cores, .hosts, .loops, .convs, .cartridges, .events] [.out, .run, .od, .units,
      .cores, .hosts, .loops, .convs, .cartridges, .events] := fun _ h => h
  have h := State.Keeps.refl [.out, .run, .od, .units, .cores, .hosts, .loops, .convs, .cartridges, .events] (s.elapse dt)
  generalize s.elapse dt = bef at h ⊢
  repeat' (first
    | with_reducible assumption | ((with_reducible refine Within.sub hw ?_); decide)
    | with_reducible apply State.startAct_keeps | with_reducible apply State.writeRow_keeps | with_reducible apply keeps_ite
    | with_reducible apply keeps_ite_snd | split | (intro _; intros; try beta_reduce))

theorem State.stopAct_keeps {pts : List Part} (hw : Within (Part.allBut [.free]) pts) {bef : State} {s : State} (h :
    bef.Keeps pts s) : bef.Keeps pts (State.stopAct s).2 := by
  unfold State.stopAct
  repeat' (first
    | with_reducible assumption | ((with_reducible refine Within.sub hw ?_); decide)
    | with_reducible apply State.advance_keeps | with_reducible apply State.stopJobs_keeps
    | with_reducible apply refuse_keeps | with_reducible apply accept_keeps | with_reducible apply State.runTo_keeps
    | with_reducible apply keeps_ite | with_reducible apply keeps_ite_snd | split | (intro _; intros; try beta_reduce))

theorem execStop_keeps (dt : Nat) (road : Road) (s : State) :
    ∃ t, execStop dt road s = .next t ∧ (s.elapse dt).Keeps (Part.allBut [.free]) t := by
  unfold execStop
  refine ⟨_, rfl, ?_⟩
  have hw : Within (Part.allBut [.free]) (Part.allBut [.free]) := fun _ h => h
  have h := State.Keeps.refl (Part.allBut [.free]) (s.elapse dt)
  generalize s.elapse dt = bef at h ⊢
  repeat' (first
    | with_reducible assumption | ((with_reducible refine Within.sub hw ?_); decide)
    | with_reducible apply State.stopAct_keeps | with_reducible apply State.writeRow_keeps | with_reducible apply keeps_ite
    | with_reducible apply keeps_ite_snd | split | (intro _; intros; try beta_reduce))

theorem State.safeAct_keeps {pts : List Part} (hw : Within [.run, .od, .sched, .hosts, .events] pts) {bef : State} {s :
    State} (h : bef.Keeps pts s) : bef.Keeps pts (State.safeAct s).2 := by
  unfold State.safeAct
  repeat' (first
    | with_reducible assumption | ((with_reducible refine Within.sub hw ?_); decide)
    | (fail_if_no_progress extract_lets -underBinder -merge -useContext +onlyGivenNames z
       first
       | (refine keeps_cut (s := z) ?_ ?_; (on_goal 1 => unfold z); on_goal 2 => (intro _; try clear_value z))
       | try clear_value z)
    | with_reducible apply State.toSafe_keeps | with_reducible apply refuse_keeps | with_reducible apply accept_keeps
    | with_reducible apply keeps_ite | with_reducible apply keeps_ite_snd | split | (intro _; intros; try beta_reduce))

theorem execSafe_keeps (dt : Nat) (road : Road) (s : State) :
    ∃ t, execSafe dt road s = .next t ∧ (s.elapse dt).Keeps [.out, .run, .od, .sched, .hosts, .events] t := by
  unfold execSafe
  refine ⟨_, rfl, ?_⟩
  have hw : Within [.out, .run, .od, .sched, .hosts, .events] [.out, .run, .od, .sched, .hosts, .events] := fun _ h => h
  have h := State.Keeps.refl [.out, .run, .od, .sched, .hosts, .events] (s.elapse dt)
  generalize s.elapse dt = bef at h ⊢
  repeat' (first
    | with_reducible assumption | ((with_reducible refine Within.sub hw ?_); decide)
    | with_reducible apply State.safeAct_keeps | with_reducible apply State.writeRow_keeps | with_reducible apply keeps_ite
    | with_reducible apply keeps_ite_snd | split | (intro _; intros; try beta_reduce))

theorem State.clearAct_keeps {pts : List Part} (hw : Within [.run, .od, .units, .cores, .hosts, .loops, .convs, .cartridges,
    .events] pts) {bef : State} {s : State} (h : bef.Keeps pts s) : bef.Keeps pts (State.clearAct s).2 := by
  unfold State.clearAct
  repeat' (first
    | with_reducible assumption | ((with_reducible refine Within.sub hw ?_); decide)
    | with_reducible apply State.startWarming_keeps | with_reducible apply refuse_keeps | with_reducible apply accept_keeps
    | with_reducible apply keeps_ite | with_reducible apply keeps_ite_snd | split | (intro _; intros; try beta_reduce))

theorem execClear_keeps (dt : Nat) (road : Road) (s : State) :
    ∃ t, execClear dt road s = .next t ∧ (s.elapse dt).Keeps [.out, .run, .od, .units, .cores, .hosts, .loops, .convs,
        .cartridges, .events] t := by
  unfold execClear
  refine ⟨_, rfl, ?_⟩
  have hw : Within [.out, .run, .od, .units, .cores, .hosts, .loops, .convs, .cartridges, .events] [.out, .run, .od, .units,
      .cores, .hosts, .loops, .convs, .cartridges, .events] := fun _ h => h
  have h := State.Keeps.refl [.out, .run, .od, .units, .cores, .hosts, .loops, .convs, .cartridges, .events] (s.elapse dt)
  generalize s.elapse dt = bef at h ⊢
  repeat' (first
    | with_reducible assumption | ((with_reducible refine Within.sub hw ?_); decide)
    | with_reducible apply State.clearAct_keeps | with_reducible apply State.writeRow_keeps | with_reducible apply keeps_ite
    | with_reducible apply keeps_ite_snd | split | (intro _; intros; try beta_reduce))

theorem State.bringUpCart_keeps {pts : List Part} (hw : Within [.od, .units, .cores, .engines, .ports, .loops, .convs,
    .cartridges] pts) {bef : State} {s : State} (l : Nat) (h : bef.Keeps pts s) : bef.Keeps pts (State.bringUpCart s l) := by
  unfold State.bringUpCart
  repeat' (first
    | with_reducible assumption | ((with_reducible refine Within.sub hw ?_); decide)
    | (fail_if_no_progress extract_lets -underBinder -merge -useContext +onlyGivenNames z
       first
       | (refine keeps_cut (s := z) ?_ ?_; (on_goal 1 => unfold z); on_goal 2 => (intro _; try clear_value z))
       | try clear_value z)
    | with_reducible apply State.startCore_keeps | with_reducible apply State.holdLoops_keeps
    | with_reducible apply State.modChannel_keeps | with_reducible apply State.portStart_keeps
    | with_reducible apply State.modCart_keeps | with_reducible apply State.modPort_keeps
    | with_reducible apply State.modEng_keeps | with_reducible apply State.modCore_keeps
    | with_reducible apply State.putUnit_keeps | with_reducible apply keeps_foldl | with_reducible apply keeps_forRange
    | with_reducible apply keeps_ite | with_reducible apply keeps_ite_snd | split
    | ((with_reducible refine State.keeps_mk hw (by assumption) rfl ?_)
       intro p; cases p <;> (first | exact .inl (by decide) | exact .inr rfl))
    | (intro _; intros; try beta_reduce))

theorem State.latchCart_keeps {pts : List Part} (hw : Within [.od, .units, .cores, .engines, .ports, .loops, .convs,
    .cartridges] pts) {bef : State} {s : State} (l : Nat) (serial : Nat) (hours : Nat) (h : bef.Keeps pts s) : bef.Keeps pts
    (State.latchCart s l serial hours) := by
  unfold State.latchCart
  repeat' (first
    | with_reducible assumption | ((with_reducible refine Within.sub hw ?_); decide)
    | (fail_if_no_progress extract_lets -underBinder -merge -useContext +onlyGivenNames z
       first
       | (refine keeps_cut (s := z) ?_ ?_; (on_goal 1 => unfold z); on_goal 2 => (intro _; try clear_value z))
       | try clear_value z)
    | with_reducible apply State.bringUpCart_keeps | with_reducible apply State.standby_keeps
    | with_reducible apply State.boot_keeps | with_reducible apply State.latch_keeps | with_reducible apply State.bump_keeps
    | with_reducible apply State.modCart_keeps | with_reducible apply State.modPort_keeps | with_reducible apply keeps_foldl
    | with_reducible apply keeps_ite | with_reducible apply keeps_ite_snd | split
    | ((with_reducible refine State.keeps_mk hw (by assumption) rfl ?_)
       intro p; cases p <;> (first | exact .inl (by decide) | exact .inr rfl))
    | (intro _; intros; try beta_reduce))

theorem execCartridgeLatch_keeps (dt : Nat) (cartridge : Fin 8) (serial : BitVec 96) (hours : BitVec 32) (s : State) :
    ∃ t, execCartridgeLatch dt cartridge serial hours s = .next t ∧ (s.elapse dt).Keeps [.od, .units, .cores, .engines,
        .ports, .loops, .convs, .cartridges] t := by
  unfold execCartridgeLatch
  refine ⟨_, rfl, ?_⟩
  have hw : Within [.od, .units, .cores, .engines, .ports, .loops, .convs, .cartridges] [.od, .units, .cores, .engines,
      .ports, .loops, .convs, .cartridges] := fun _ h => h
  have h := State.Keeps.refl [.od, .units, .cores, .engines, .ports, .loops, .convs, .cartridges] (s.elapse dt)
  generalize s.elapse dt = bef at h ⊢
  repeat' (first
    | with_reducible assumption | ((with_reducible refine Within.sub hw ?_); decide)
    | with_reducible apply State.latchCart_keeps | with_reducible apply keeps_ite | with_reducible apply keeps_ite_snd
    | split | (intro _; intros; try beta_reduce))

theorem State.unlatchCart_keeps {pts : List Part} (hw : Within [.run, .od, .units, .cores, .engines, .jobs, .epoch, .ports,
    .hosts, .loops, .convs, .cartridges, .events] pts) {bef : State} {s : State} (l : Nat) (h : bef.Keeps pts s) : bef.Keeps
    pts (State.unlatchCart s l) := by
  unfold State.unlatchCart
  repeat' (first
    | with_reducible assumption | ((with_reducible refine Within.sub hw ?_); decide)
    | (fail_if_no_progress extract_lets -underBinder -merge -useContext +onlyGivenNames z
       first
       | (refine keeps_cut (s := z) ?_ ?_; (on_goal 1 => unfold z); on_goal 2 => (intro _; try clear_value z))
       | try clear_value z)
    | with_reducible apply State.warmStep_keeps | with_reducible apply State.checkWarm_keeps
    | with_reducible apply State.latch_keeps | with_reducible apply State.holdLoops_keeps
    | with_reducible apply State.loopTo_keeps | with_reducible apply State.withdrawPorts_keeps
    | with_reducible apply State.leave_keeps | with_reducible apply State.bump_keeps
    | with_reducible apply State.modCart_keeps | with_reducible apply State.modCore_keeps
    | with_reducible apply State.modUnit_keeps | with_reducible apply keeps_foldl | with_reducible apply keeps_ite
    | with_reducible apply keeps_ite_snd | split
    | ((with_reducible refine State.keeps_mk hw (by assumption) rfl ?_)
       intro p; cases p <;> (first | exact .inl (by decide) | exact .inr rfl))
    | (intro _; intros; try beta_reduce))

theorem execCartridgeUnlatch_keeps (dt : Nat) (cartridge : Fin 8) (s : State) :
    ∃ t, execCartridgeUnlatch dt cartridge s = .next t ∧ (s.elapse dt).Keeps [.run, .od, .units, .cores, .engines, .jobs,
        .epoch, .ports, .hosts, .loops, .convs, .cartridges, .events] t := by
  unfold execCartridgeUnlatch
  refine ⟨_, rfl, ?_⟩
  have hw : Within [.run, .od, .units, .cores, .engines, .jobs, .epoch, .ports, .hosts, .loops, .convs, .cartridges, .events]
      [.run, .od, .units, .cores, .engines, .jobs, .epoch, .ports, .hosts, .loops, .convs, .cartridges, .events] := fun _ h => h
  have h := State.Keeps.refl [.run, .od, .units, .cores, .engines, .jobs, .epoch, .ports, .hosts, .loops, .convs,
      .cartridges, .events] (s.elapse dt)
  generalize s.elapse dt = bef at h ⊢
  repeat' (first
    | with_reducible assumption | ((with_reducible refine Within.sub hw ?_); decide)
    | with_reducible apply State.unlatchCart_keeps | with_reducible apply keeps_ite | with_reducible apply keeps_ite_snd
    | split | (intro _; intros; try beta_reduce))

theorem State.interlockCut_keeps {pts : List Part} (hw : Within [.od, .convs, .cartridges] pts) {bef : State} {s : State} (l
    : Nat) (h : bef.Keeps pts s) : bef.Keeps pts (State.interlockCut s l) := by
  unfold State.interlockCut
  repeat' (first
    | with_reducible assumption | ((with_reducible refine Within.sub hw ?_); decide)
    | (fail_if_no_progress extract_lets -underBinder -merge -useContext +onlyGivenNames z
       first
       | (refine keeps_cut (s := z) ?_ ?_; (on_goal 1 => unfold z); on_goal 2 => (intro _; try clear_value z))
       | try clear_value z)
    | with_reducible apply State.lasersOff_keeps | with_reducible apply State.latch_keeps
    | with_reducible apply State.raiseTo_keeps | with_reducible apply keeps_ite | with_reducible apply keeps_ite_snd | split
    | (intro _; intros; try beta_reduce))

theorem execLaserInterlockCut_keeps (dt : Nat) (cartridge : Fin 8) (s : State) :
    ∃ t, execLaserInterlockCut dt cartridge s = .next t ∧ (s.elapse dt).Keeps [.od, .convs, .cartridges] t := by
  unfold execLaserInterlockCut
  refine ⟨_, rfl, ?_⟩
  have hw : Within [.od, .convs, .cartridges] [.od, .convs, .cartridges] := fun _ h => h
  have h := State.Keeps.refl [.od, .convs, .cartridges] (s.elapse dt)
  generalize s.elapse dt = bef at h ⊢
  repeat' (first
    | with_reducible assumption | ((with_reducible refine Within.sub hw ?_); decide)
    | with_reducible apply State.interlockCut_keeps | with_reducible apply keeps_ite | with_reducible apply keeps_ite_snd
    | split | (intro _; intros; try beta_reduce))

theorem execCartridgeRemoved_keeps (dt : Nat) (cartridge : Fin 8) (s : State) :
    ∃ t, execCartridgeRemoved dt cartridge s = .next t ∧ (s.elapse dt).Keeps [.od, .convs, .cartridges] t := by
  unfold execCartridgeRemoved
  refine ⟨_, rfl, ?_⟩
  have hw : Within [.od, .convs, .cartridges] [.od, .convs, .cartridges] := fun _ h => h
  have h := State.Keeps.refl [.od, .convs, .cartridges] (s.elapse dt)
  generalize s.elapse dt = bef at h ⊢
  repeat' (first
    | with_reducible assumption | ((with_reducible refine Within.sub hw ?_); decide)
    | (fail_if_no_progress extract_lets -underBinder -merge -useContext +onlyGivenNames z
       first
       | (refine keeps_cut (s := z) ?_ ?_; (on_goal 1 => unfold z); on_goal 2 => (intro _; try clear_value z))
       | try clear_value z)
    | with_reducible apply State.latch_keeps | with_reducible apply State.modCart_keeps | with_reducible apply keeps_ite
    | with_reducible apply keeps_ite_snd | split
    | ((with_reducible refine State.keeps_mk hw (by assumption) rfl ?_)
       intro p; cases p <;> (first | exact .inl (by decide) | exact .inr rfl))
    | (intro _; intros; try beta_reduce))

end Sys2Proof.Machine
end

