-- ==== Sys2Proof/Laws/KeepsDigital.lean ====
section
/-! SUPPORT. What the operations of Machine/Digital.lean keep. -/

namespace Sys2Proof.Machine

theorem State.readable_keeps {pts : List Part} (hw : Within [.od, .hosts, .events] pts) {bef : State} {s : State} (c : Nat)
    (d : Desc) (rows : List Nat) (h : bef.Keeps pts s) : bef.Keeps pts (State.readable s c d rows).2 := by
  unfold State.readable
  repeat' (first
    | with_reducible assumption | ((with_reducible refine Within.sub hw ?_); decide)
    | (fail_if_no_progress extract_lets -underBinder -merge -useContext +onlyGivenNames z
       first
       | (refine keeps_cut (s := z) ?_ ?_; (on_goal 1 => unfold z); on_goal 2 => (intro _; try clear_value z))
       | (refine keeps_cut (s := z.2) ?_ ?_; (on_goal 1 => unfold z); on_goal 2 => (intro _; try clear_value z))
       | (refine keeps_cut (s := z.1) ?_ ?_; (on_goal 1 => unfold z); on_goal 2 => (intro _; try clear_value z))
       | (refine keeps_cut (s := z.2.1) ?_ ?_; (on_goal 1 => unfold z); on_goal 2 => (intro _; try clear_value z))
       | try clear_value z)
    | with_reducible apply State.accessAll_keeps | with_reducible apply keeps_ite | with_reducible apply keeps_ite_snd
    | split | (intro _; intros; try beta_reduce))

theorem State.allReadable_keeps {pts : List Part} (hw : Within [.od, .hosts, .events] pts) {bef : State} {s : State} (c :
    Nat) (l : List (Desc × List Nat)) (h : bef.Keeps pts s) :
    bef.Keeps pts (State.allReadable s c l).2 := by
  induction l generalizing s with
  | nil => exact h
  | cons x t ih =>
    simp only [State.allReadable]
    split
    · exact ih (State.readable_keeps (hw.sub (by decide)) _ _ _ h)
    · exact State.readable_keeps (hw.sub (by decide)) _ _ _ h

theorem State.tensHead_keeps {pts : List Part} (hw : Within [.od, .mem, .cores, .hosts, .events, .free] pts) {bef : State} {s
    : State} (c : Nat) (h : bef.Keeps pts s) : bef.Keeps pts (State.tensHead s c) := by
  unfold State.tensHead
  repeat' (first
    | with_reducible assumption | ((with_reducible refine Within.sub hw ?_); decide)
    | (fail_if_no_progress extract_lets -underBinder -merge -useContext +onlyGivenNames z
       first
       | (refine keeps_cut (s := z) ?_ ?_; (on_goal 1 => unfold z); on_goal 2 => (intro _; try clear_value z))
       | (refine keeps_cut (s := z.2) ?_ ?_; (on_goal 1 => unfold z); on_goal 2 => (intro _; try clear_value z))
       | (refine keeps_cut (s := z.1) ?_ ?_; (on_goal 1 => unfold z); on_goal 2 => (intro _; try clear_value z))
       | (refine keeps_cut (s := z.2.1) ?_ ?_; (on_goal 1 => unfold z); on_goal 2 => (intro _; try clear_value z))
       | try clear_value z)
    | with_reducible apply State.allReadable_keeps | with_reducible apply State.finish_keeps
    | with_reducible apply State.countTally_keeps | with_reducible apply State.writeAll_keeps
    | with_reducible apply keeps_ite | with_reducible apply keeps_ite_snd | split
    | ((with_reducible refine State.keeps_mk hw (by assumption) rfl ?_)
       intro p; cases p <;> (first | exact .inl (by decide) | exact .inr rfl))
    | (intro _; intros; try beta_reduce))

theorem execTens_keeps (dt : Nat) (core : Fin 16) (s : State) :
    ∃ t, execTens dt core s = .next t ∧ (s.elapse dt).Keeps [.od, .mem, .cores, .hosts, .events, .free] t := by
  unfold execTens
  refine ⟨_, rfl, ?_⟩
  have hw : Within [.od, .mem, .cores, .hosts, .events, .free] [.od, .mem, .cores, .hosts, .events, .free] := fun _ h => h
  have h := State.Keeps.refl [.od, .mem, .cores, .hosts, .events, .free] (s.elapse dt)
  generalize s.elapse dt = bef at h ⊢
  repeat' (first
    | with_reducible assumption | ((with_reducible refine Within.sub hw ?_); decide)
    | with_reducible apply State.tensHead_keeps | with_reducible apply keeps_ite | with_reducible apply keeps_ite_snd
    | split | (intro _; intros; try beta_reduce))

theorem State.vecHead_keeps {pts : List Part} (hw : Within [.od, .mem, .cores, .hosts, .events, .free] pts) {bef : State} {s
    : State} (c : Nat) (vop : Nat) (f : State → Op → Nat → RowFn) (h : bef.Keeps pts s) : bef.Keeps pts (State.vecHead s c
    vop f) := by
  unfold State.vecHead
  repeat' (first
    | with_reducible assumption | with_reducible apply hf | ((with_reducible refine Within.sub hw ?_); decide)
    | (fail_if_no_progress extract_lets -underBinder -merge -useContext +onlyGivenNames z
       first
       | (refine keeps_cut (s := z) ?_ ?_; (on_goal 1 => unfold z); on_goal 2 => (intro _; try clear_value z))
       | (refine keeps_cut (s := z.2) ?_ ?_; (on_goal 1 => unfold z); on_goal 2 => (intro _; try clear_value z))
       | (refine keeps_cut (s := z.1) ?_ ?_; (on_goal 1 => unfold z); on_goal 2 => (intro _; try clear_value z))
       | (refine keeps_cut (s := z.2.1) ?_ ?_; (on_goal 1 => unfold z); on_goal 2 => (intro _; try clear_value z))
       | try clear_value z)
    | with_reducible apply State.allReadable_keeps | with_reducible apply State.finish_keeps
    | with_reducible apply State.countTally_keeps | with_reducible apply State.writeAll_keeps
    | with_reducible apply State.accessAll_keeps | with_reducible apply keeps_ite | with_reducible apply keeps_ite_snd
    | split
    | ((with_reducible refine State.keeps_mk hw (by assumption) rfl ?_)
       intro p; cases p <;> (first | exact .inl (by decide) | exact .inr rfl))
    | (intro _; intros; try beta_reduce))

theorem execConvert_keeps (dt : Nat) (core : Fin 16) (s : State) :
    ∃ t, execConvert dt core s = .next t ∧ (s.elapse dt).Keeps [.od, .mem, .cores, .hosts, .events, .free] t := by
  unfold execConvert
  refine ⟨_, rfl, ?_⟩
  have hw : Within [.od, .mem, .cores, .hosts, .events, .free] [.od, .mem, .cores, .hosts, .events, .free] := fun _ h => h
  have h := State.Keeps.refl [.od, .mem, .cores, .hosts, .events, .free] (s.elapse dt)
  generalize s.elapse dt = bef at h ⊢
  repeat' (first
    | with_reducible assumption | ((with_reducible refine Within.sub hw ?_); decide)
    | with_reducible apply State.vecHead_keeps | with_reducible apply keeps_ite | with_reducible apply keeps_ite_snd | split
    | (intro _; intros; try beta_reduce))

theorem execAdd_keeps (dt : Nat) (core : Fin 16) (s : State) :
    ∃ t, execAdd dt core s = .next t ∧ (s.elapse dt).Keeps [.od, .mem, .cores, .hosts, .events, .free] t := by
  unfold execAdd
  refine ⟨_, rfl, ?_⟩
  have hw : Within [.od, .mem, .cores, .hosts, .events, .free] [.od, .mem, .cores, .hosts, .events, .free] := fun _ h => h
  have h := State.Keeps.refl [.od, .mem, .cores, .hosts, .events, .free] (s.elapse dt)
  generalize s.elapse dt = bef at h ⊢
  repeat' (first
    | with_reducible assumption | ((with_reducible refine Within.sub hw ?_); decide)
    | with_reducible apply State.vecHead_keeps | with_reducible apply keeps_ite | with_reducible apply keeps_ite_snd | split
    | (intro _; intros; try beta_reduce))

theorem execMul_keeps (dt : Nat) (core : Fin 16) (s : State) :
    ∃ t, execMul dt core s = .next t ∧ (s.elapse dt).Keeps [.od, .mem, .cores, .hosts, .events, .free] t := by
  unfold execMul
  refine ⟨_, rfl, ?_⟩
  have hw : Within [.od, .mem, .cores, .hosts, .events, .free] [.od, .mem, .cores, .hosts, .events, .free] := fun _ h => h
  have h := State.Keeps.refl [.od, .mem, .cores, .hosts, .events, .free] (s.elapse dt)
  generalize s.elapse dt = bef at h ⊢
  repeat' (first
    | with_reducible assumption | ((with_reducible refine Within.sub hw ?_); decide)
    | with_reducible apply State.vecHead_keeps | with_reducible apply keeps_ite | with_reducible apply keeps_ite_snd | split
    | (intro _; intros; try beta_reduce))

theorem execFma_keeps (dt : Nat) (core : Fin 16) (s : State) :
    ∃ t, execFma dt core s = .next t ∧ (s.elapse dt).Keeps [.od, .mem, .cores, .hosts, .events, .free] t := by
  unfold execFma
  refine ⟨_, rfl, ?_⟩
  have hw : Within [.od, .mem, .cores, .hosts, .events, .free] [.od, .mem, .cores, .hosts, .events, .free] := fun _ h => h
  have h := State.Keeps.refl [.od, .mem, .cores, .hosts, .events, .free] (s.elapse dt)
  generalize s.elapse dt = bef at h ⊢
  repeat' (first
    | with_reducible assumption | ((with_reducible refine Within.sub hw ?_); decide)
    | with_reducible apply State.vecHead_keeps | with_reducible apply keeps_ite | with_reducible apply keeps_ite_snd | split
    | (intro _; intros; try beta_reduce))

theorem execScale_keeps (dt : Nat) (core : Fin 16) (s : State) :
    ∃ t, execScale dt core s = .next t ∧ (s.elapse dt).Keeps [.od, .mem, .cores, .hosts, .events, .free] t := by
  unfold execScale
  refine ⟨_, rfl, ?_⟩
  have hw : Within [.od, .mem, .cores, .hosts, .events, .free] [.od, .mem, .cores, .hosts, .events, .free] := fun _ h => h
  have h := State.Keeps.refl [.od, .mem, .cores, .hosts, .events, .free] (s.elapse dt)
  generalize s.elapse dt = bef at h ⊢
  repeat' (first
    | with_reducible assumption | ((with_reducible refine Within.sub hw ?_); decide)
    | with_reducible apply State.vecHead_keeps | with_reducible apply keeps_ite | with_reducible apply keeps_ite_snd | split
    | (intro _; intros; try beta_reduce))

theorem execMax_keeps (dt : Nat) (core : Fin 16) (s : State) :
    ∃ t, execMax dt core s = .next t ∧ (s.elapse dt).Keeps [.od, .mem, .cores, .hosts, .events, .free] t := by
  unfold execMax
  refine ⟨_, rfl, ?_⟩
  have hw : Within [.od, .mem, .cores, .hosts, .events, .free] [.od, .mem, .cores, .hosts, .events, .free] := fun _ h => h
  have h := State.Keeps.refl [.od, .mem, .cores, .hosts, .events, .free] (s.elapse dt)
  generalize s.elapse dt = bef at h ⊢
  repeat' (first
    | with_reducible assumption | ((with_reducible refine Within.sub hw ?_); decide)
    | with_reducible apply State.vecHead_keeps | with_reducible apply keeps_ite | with_reducible apply keeps_ite_snd | split
    | (intro _; intros; try beta_reduce))

theorem execRelu_keeps (dt : Nat) (core : Fin 16) (s : State) :
    ∃ t, execRelu dt core s = .next t ∧ (s.elapse dt).Keeps [.od, .mem, .cores, .hosts, .events, .free] t := by
  unfold execRelu
  refine ⟨_, rfl, ?_⟩
  have hw : Within [.od, .mem, .cores, .hosts, .events, .free] [.od, .mem, .cores, .hosts, .events, .free] := fun _ h => h
  have h := State.Keeps.refl [.od, .mem, .cores, .hosts, .events, .free] (s.elapse dt)
  generalize s.elapse dt = bef at h ⊢
  repeat' (first
    | with_reducible assumption | ((with_reducible refine Within.sub hw ?_); decide)
    | with_reducible apply State.vecHead_keeps | with_reducible apply keeps_ite | with_reducible apply keeps_ite_snd | split
    | (intro _; intros; try beta_reduce))

theorem execSilu_keeps (dt : Nat) (core : Fin 16) (s : State) :
    ∃ t, execSilu dt core s = .next t ∧ (s.elapse dt).Keeps [.od, .mem, .cores, .hosts, .events, .free] t := by
  unfold execSilu
  refine ⟨_, rfl, ?_⟩
  have hw : Within [.od, .mem, .cores, .hosts, .events, .free] [.od, .mem, .cores, .hosts, .events, .free] := fun _ h => h
  have h := State.Keeps.refl [.od, .mem, .cores, .hosts, .events, .free] (s.elapse dt)
  generalize s.elapse dt = bef at h ⊢
  repeat' (first
    | with_reducible assumption | ((with_reducible refine Within.sub hw ?_); decide)
    | with_reducible apply State.vecHead_keeps | with_reducible apply keeps_ite | with_reducible apply keeps_ite_snd | split
    | (intro _; intros; try beta_reduce))

theorem execGelu_keeps (dt : Nat) (core : Fin 16) (s : State) :
    ∃ t, execGelu dt core s = .next t ∧ (s.elapse dt).Keeps [.od, .mem, .cores, .hosts, .events, .free] t := by
  unfold execGelu
  refine ⟨_, rfl, ?_⟩
  have hw : Within [.od, .mem, .cores, .hosts, .events, .free] [.od, .mem, .cores, .hosts, .events, .free] := fun _ h => h
  have h := State.Keeps.refl [.od, .mem, .cores, .hosts, .events, .free] (s.elapse dt)
  generalize s.elapse dt = bef at h ⊢
  repeat' (first
    | with_reducible assumption | ((with_reducible refine Within.sub hw ?_); decide)
    | with_reducible apply State.vecHead_keeps | with_reducible apply keeps_ite | with_reducible apply keeps_ite_snd | split
    | (intro _; intros; try beta_reduce))

theorem execExp_keeps (dt : Nat) (core : Fin 16) (s : State) :
    ∃ t, execExp dt core s = .next t ∧ (s.elapse dt).Keeps [.od, .mem, .cores, .hosts, .events, .free] t := by
  unfold execExp
  refine ⟨_, rfl, ?_⟩
  have hw : Within [.od, .mem, .cores, .hosts, .events, .free] [.od, .mem, .cores, .hosts, .events, .free] := fun _ h => h
  have h := State.Keeps.refl [.od, .mem, .cores, .hosts, .events, .free] (s.elapse dt)
  generalize s.elapse dt = bef at h ⊢
  repeat' (first
    | with_reducible assumption | ((with_reducible refine Within.sub hw ?_); decide)
    | with_reducible apply State.vecHead_keeps | with_reducible apply keeps_ite | with_reducible apply keeps_ite_snd | split
    | (intro _; intros; try beta_reduce))

theorem execRecip_keeps (dt : Nat) (core : Fin 16) (s : State) :
    ∃ t, execRecip dt core s = .next t ∧ (s.elapse dt).Keeps [.od, .mem, .cores, .hosts, .events, .free] t := by
  unfold execRecip
  refine ⟨_, rfl, ?_⟩
  have hw : Within [.od, .mem, .cores, .hosts, .events, .free] [.od, .mem, .cores, .hosts, .events, .free] := fun _ h => h
  have h := State.Keeps.refl [.od, .mem, .cores, .hosts, .events, .free] (s.elapse dt)
  generalize s.elapse dt = bef at h ⊢
  repeat' (first
    | with_reducible assumption | ((with_reducible refine Within.sub hw ?_); decide)
    | with_reducible apply State.vecHead_keeps | with_reducible apply keeps_ite | with_reducible apply keeps_ite_snd | split
    | (intro _; intros; try beta_reduce))

theorem execRsqrt_keeps (dt : Nat) (core : Fin 16) (s : State) :
    ∃ t, execRsqrt dt core s = .next t ∧ (s.elapse dt).Keeps [.od, .mem, .cores, .hosts, .events, .free] t := by
  unfold execRsqrt
  refine ⟨_, rfl, ?_⟩
  have hw : Within [.od, .mem, .cores, .hosts, .events, .free] [.od, .mem, .cores, .hosts, .events, .free] := fun _ h => h
  have h := State.Keeps.refl [.od, .mem, .cores, .hosts, .events, .free] (s.elapse dt)
  generalize s.elapse dt = bef at h ⊢
  repeat' (first
    | with_reducible assumption | ((with_reducible refine Within.sub hw ?_); decide)
    | with_reducible apply State.vecHead_keeps | with_reducible apply keeps_ite | with_reducible apply keeps_ite_snd | split
    | (intro _; intros; try beta_reduce))

theorem execSoftmax_keeps (dt : Nat) (core : Fin 16) (s : State) :
    ∃ t, execSoftmax dt core s = .next t ∧ (s.elapse dt).Keeps [.od, .mem, .cores, .hosts, .events, .free] t := by
  unfold execSoftmax
  refine ⟨_, rfl, ?_⟩
  have hw : Within [.od, .mem, .cores, .hosts, .events, .free] [.od, .mem, .cores, .hosts, .events, .free] := fun _ h => h
  have h := State.Keeps.refl [.od, .mem, .cores, .hosts, .events, .free] (s.elapse dt)
  generalize s.elapse dt = bef at h ⊢
  repeat' (first
    | with_reducible assumption | ((with_reducible refine Within.sub hw ?_); decide)
    | with_reducible apply State.vecHead_keeps | with_reducible apply keeps_ite | with_reducible apply keeps_ite_snd | split
    | (intro _; intros; try beta_reduce))

theorem execRmsnorm_keeps (dt : Nat) (core : Fin 16) (s : State) :
    ∃ t, execRmsnorm dt core s = .next t ∧ (s.elapse dt).Keeps [.od, .mem, .cores, .hosts, .events, .free] t := by
  unfold execRmsnorm
  refine ⟨_, rfl, ?_⟩
  have hw : Within [.od, .mem, .cores, .hosts, .events, .free] [.od, .mem, .cores, .hosts, .events, .free] := fun _ h => h
  have h := State.Keeps.refl [.od, .mem, .cores, .hosts, .events, .free] (s.elapse dt)
  generalize s.elapse dt = bef at h ⊢
  repeat' (first
    | with_reducible assumption | ((with_reducible refine Within.sub hw ?_); decide)
    | with_reducible apply State.vecHead_keeps | with_reducible apply keeps_ite | with_reducible apply keeps_ite_snd | split
    | (intro _; intros; try beta_reduce))

theorem execLayernorm_keeps (dt : Nat) (core : Fin 16) (s : State) :
    ∃ t, execLayernorm dt core s = .next t ∧ (s.elapse dt).Keeps [.od, .mem, .cores, .hosts, .events, .free] t := by
  unfold execLayernorm
  refine ⟨_, rfl, ?_⟩
  have hw : Within [.od, .mem, .cores, .hosts, .events, .free] [.od, .mem, .cores, .hosts, .events, .free] := fun _ h => h
  have h := State.Keeps.refl [.od, .mem, .cores, .hosts, .events, .free] (s.elapse dt)
  generalize s.elapse dt = bef at h ⊢
  repeat' (first
    | with_reducible assumption | ((with_reducible refine Within.sub hw ?_); decide)
    | with_reducible apply State.vecHead_keeps | with_reducible apply keeps_ite | with_reducible apply keeps_ite_snd | split
    | (intro _; intros; try beta_reduce))

theorem execRowmax_keeps (dt : Nat) (core : Fin 16) (s : State) :
    ∃ t, execRowmax dt core s = .next t ∧ (s.elapse dt).Keeps [.od, .mem, .cores, .hosts, .events, .free] t := by
  unfold execRowmax
  refine ⟨_, rfl, ?_⟩
  have hw : Within [.od, .mem, .cores, .hosts, .events, .free] [.od, .mem, .cores, .hosts, .events, .free] := fun _ h => h
  have h := State.Keeps.refl [.od, .mem, .cores, .hosts, .events, .free] (s.elapse dt)
  generalize s.elapse dt = bef at h ⊢
  repeat' (first
    | with_reducible assumption | ((with_reducible refine Within.sub hw ?_); decide)
    | with_reducible apply State.vecHead_keeps | with_reducible apply keeps_ite | with_reducible apply keeps_ite_snd | split
    | (intro _; intros; try beta_reduce))

theorem execRowsum_keeps (dt : Nat) (core : Fin 16) (s : State) :
    ∃ t, execRowsum dt core s = .next t ∧ (s.elapse dt).Keeps [.od, .mem, .cores, .hosts, .events, .free] t := by
  unfold execRowsum
  refine ⟨_, rfl, ?_⟩
  have hw : Within [.od, .mem, .cores, .hosts, .events, .free] [.od, .mem, .cores, .hosts, .events, .free] := fun _ h => h
  have h := State.Keeps.refl [.od, .mem, .cores, .hosts, .events, .free] (s.elapse dt)
  generalize s.elapse dt = bef at h ⊢
  repeat' (first
    | with_reducible assumption | ((with_reducible refine Within.sub hw ?_); decide)
    | with_reducible apply State.vecHead_keeps | with_reducible apply keeps_ite | with_reducible apply keeps_ite_snd | split
    | (intro _; intros; try beta_reduce))

theorem State.sampleHead_keeps {pts : List Part} (hw : Within [.od, .mem, .cores, .hosts, .events, .free] pts) {bef : State}
    {s : State} (c : Nat) (h : bef.Keeps pts s) : bef.Keeps pts (State.sampleHead s c) := by
  unfold State.sampleHead
  repeat' (first
    | with_reducible assumption | ((with_reducible refine Within.sub hw ?_); decide)
    | (fail_if_no_progress extract_lets -underBinder -merge -useContext +onlyGivenNames z
       first
       | (refine keeps_cut (s := z) ?_ ?_; (on_goal 1 => unfold z); on_goal 2 => (intro _; try clear_value z))
       | (refine keeps_cut (s := z.2) ?_ ?_; (on_goal 1 => unfold z); on_goal 2 => (intro _; try clear_value z))
       | (refine keeps_cut (s := z.1) ?_ ?_; (on_goal 1 => unfold z); on_goal 2 => (intro _; try clear_value z))
       | (refine keeps_cut (s := z.2.1) ?_ ?_; (on_goal 1 => unfold z); on_goal 2 => (intro _; try clear_value z))
       | try clear_value z)
    | with_reducible apply State.finish_keeps | with_reducible apply State.countTally_keeps
    | with_reducible apply State.writeAll_keeps | with_reducible apply State.accessAll_keeps
    | with_reducible apply State.modCore_keeps | with_reducible apply keeps_ite | with_reducible apply keeps_ite_snd | split
    | ((with_reducible refine State.keeps_mk hw (by assumption) rfl ?_)
       intro p; cases p <;> (first | exact .inl (by decide) | exact .inr rfl))
    | (intro _; intros; try beta_reduce))

theorem execSample_keeps (dt : Nat) (core : Fin 16) (s : State) :
    ∃ t, execSample dt core s = .next t ∧ (s.elapse dt).Keeps [.od, .mem, .cores, .hosts, .events, .free] t := by
  unfold execSample
  refine ⟨_, rfl, ?_⟩
  have hw : Within [.od, .mem, .cores, .hosts, .events, .free] [.od, .mem, .cores, .hosts, .events, .free] := fun _ h => h
  have h := State.Keeps.refl [.od, .mem, .cores, .hosts, .events, .free] (s.elapse dt)
  generalize s.elapse dt = bef at h ⊢
  repeat' (first
    | with_reducible assumption | ((with_reducible refine Within.sub hw ?_); decide)
    | with_reducible apply State.sampleHead_keeps | with_reducible apply keeps_ite | with_reducible apply keeps_ite_snd
    | split | (intro _; intros; try beta_reduce))

end Sys2Proof.Machine
end

