-- ==== Sys2Proof/Laws/KeepsDma.lean ====
section
/-! SUPPORT. What the operations of Machine/Dma.lean keep. -/

namespace Sys2Proof.Machine

theorem State.modPool_keeps {pts : List Part} (hw : Within [.sched] pts) {bef : State} {s : State} (p : Nat) (c : Nat) (f :
    Nat → Nat) (h : bef.Keeps pts s) : bef.Keeps pts (State.modPool s p c f) := by
  unfold State.modPool
  repeat' (first
    | with_reducible assumption | ((with_reducible refine Within.sub hw ?_); decide)
    | (fail_if_no_progress extract_lets -underBinder -merge -useContext +onlyGivenNames z
       first
       | (refine keeps_cut (s := z) ?_ ?_; (on_goal 1 => unfold z); on_goal 2 => (intro _; try clear_value z))
       | try clear_value z)
    | with_reducible apply keeps_ite | with_reducible apply keeps_ite_snd | split
    | ((with_reducible refine State.keeps_mk hw (by assumption) rfl ?_)
       intro p; cases p <;> (first | exact .inl (by decide) | exact .inr rfl))
    | (intro _; intros; try beta_reduce))

theorem State.takePool_keeps {pts : List Part} (hw : Within [.od, .sched] pts) {bef : State} {s : State} (p : Nat) (c : Nat)
    (h : bef.Keeps pts s) : bef.Keeps pts (State.takePool s p c) := by
  unfold State.takePool
  repeat' (first
    | with_reducible assumption | ((with_reducible refine Within.sub hw ?_); decide)
    | (fail_if_no_progress extract_lets -underBinder -merge -useContext +onlyGivenNames z
       first
       | (refine keeps_cut (s := z) ?_ ?_; (on_goal 1 => unfold z); on_goal 2 => (intro _; try clear_value z))
       | try clear_value z)
    | with_reducible apply State.modPool_keeps | with_reducible apply State.raiseTo_keeps | with_reducible apply keeps_ite
    | with_reducible apply keeps_ite_snd | split | (intro _; intros; try beta_reduce))

theorem State.givePool_keeps {pts : List Part} (hw : Within [.sched] pts) {bef : State} {s : State} (p : Nat) (c : Nat) (h :
    bef.Keeps pts s) : bef.Keeps pts (State.givePool s p c) := by
  unfold State.givePool
  repeat' (first
    | with_reducible assumption | ((with_reducible refine Within.sub hw ?_); decide)
    | with_reducible apply State.modPool_keeps | with_reducible apply keeps_ite | with_reducible apply keeps_ite_snd | split
    | (intro _; intros; try beta_reduce))

theorem State.moveHead_keeps {pts : List Part} (hw : Within [.od, .cores, .hosts, .events] pts) {bef : State} {s : State} (c
    : Nat) (kinds : List Nat) (data : List Byte) (h : bef.Keeps pts s) : bef.Keeps pts (State.moveHead s c kinds data) := by
  unfold State.moveHead
  repeat' (first
    | with_reducible assumption | ((with_reducible refine Within.sub hw ?_); decide)
    | (fail_if_no_progress extract_lets -underBinder -merge -useContext +onlyGivenNames z
       first
       | (refine keeps_cut (s := z) ?_ ?_; (on_goal 1 => unfold z); on_goal 2 => (intro _; try clear_value z))
       | (refine keeps_cut (s := z.2) ?_ ?_; (on_goal 1 => unfold z); on_goal 2 => (intro _; try clear_value z))
       | (refine keeps_cut (s := z.1) ?_ ?_; (on_goal 1 => unfold z); on_goal 2 => (intro _; try clear_value z))
       | (refine keeps_cut (s := z.2.1) ?_ ?_; (on_goal 1 => unfold z); on_goal 2 => (intro _; try clear_value z))
       | try clear_value z)
    | with_reducible apply State.readable_keeps | with_reducible apply State.finish_keeps
    | with_reducible apply State.modCore_keeps | with_reducible apply keeps_ite | with_reducible apply keeps_ite_snd | split
    | ((with_reducible refine State.keeps_mk hw (by assumption) rfl ?_)
       intro p; cases p <;> (first | exact .inl (by decide) | exact .inr rfl))
    | with_reducible refine keeps_of_fst (by with_reducible assumption) ?_
    | with_reducible refine keeps_of_snd (by with_reducible assumption) ?_ | (intro _; intros; try beta_reduce))

theorem execMoveLocal_keeps (dt : Nat) (core : Fin 16) (s : State) :
    ∃ t, execMoveLocal dt core s = .next t ∧ (s.elapse dt).Keeps [.od, .cores, .hosts, .events] t := by
  unfold execMoveLocal
  refine ⟨_, rfl, ?_⟩
  have hw : Within [.od, .cores, .hosts, .events] [.od, .cores, .hosts, .events] := fun _ h => h
  have h := State.Keeps.refl [.od, .cores, .hosts, .events] (s.elapse dt)
  generalize s.elapse dt = bef at h ⊢
  repeat' (first
    | with_reducible assumption | ((with_reducible refine Within.sub hw ?_); decide)
    | with_reducible apply State.moveHead_keeps | with_reducible apply keeps_ite | with_reducible apply keeps_ite_snd
    | split | (intro _; intros; try beta_reduce))

theorem execMoveFabricWrite_keeps (dt : Nat) (core : Fin 16) (s : State) :
    ∃ t, execMoveFabricWrite dt core s = .next t ∧ (s.elapse dt).Keeps [.od, .cores, .hosts, .events] t := by
  unfold execMoveFabricWrite
  refine ⟨_, rfl, ?_⟩
  have hw : Within [.od, .cores, .hosts, .events] [.od, .cores, .hosts, .events] := fun _ h => h
  have h := State.Keeps.refl [.od, .cores, .hosts, .events] (s.elapse dt)
  generalize s.elapse dt = bef at h ⊢
  repeat' (first
    | with_reducible assumption | ((with_reducible refine Within.sub hw ?_); decide)
    | with_reducible apply State.moveHead_keeps | with_reducible apply keeps_ite | with_reducible apply keeps_ite_snd
    | split | (intro _; intros; try beta_reduce))

theorem execMoveFabricRead_keeps (dt : Nat) (core : Fin 16) (s : State) :
    ∃ t, execMoveFabricRead dt core s = .next t ∧ (s.elapse dt).Keeps [.od, .cores, .hosts, .events] t := by
  unfold execMoveFabricRead
  refine ⟨_, rfl, ?_⟩
  have hw : Within [.od, .cores, .hosts, .events] [.od, .cores, .hosts, .events] := fun _ h => h
  have h := State.Keeps.refl [.od, .cores, .hosts, .events] (s.elapse dt)
  generalize s.elapse dt = bef at h ⊢
  repeat' (first
    | with_reducible assumption | ((with_reducible refine Within.sub hw ?_); decide)
    | with_reducible apply State.moveHead_keeps | with_reducible apply keeps_ite | with_reducible apply keeps_ite_snd
    | split | (intro _; intros; try beta_reduce))

theorem execMoveToHost_keeps (dt : Nat) (core : Fin 16) (s : State) :
    ∃ t, execMoveToHost dt core s = .next t ∧ (s.elapse dt).Keeps [.od, .cores, .hosts, .events] t := by
  unfold execMoveToHost
  refine ⟨_, rfl, ?_⟩
  have hw : Within [.od, .cores, .hosts, .events] [.od, .cores, .hosts, .events] := fun _ h => h
  have h := State.Keeps.refl [.od, .cores, .hosts, .events] (s.elapse dt)
  generalize s.elapse dt = bef at h ⊢
  repeat' (first
    | with_reducible assumption | ((with_reducible refine Within.sub hw ?_); decide)
    | with_reducible apply State.moveHead_keeps | with_reducible apply keeps_ite | with_reducible apply keeps_ite_snd
    | split | (intro _; intros; try beta_reduce))

theorem execMoveFromHost_keeps (dt : Nat) (core : Fin 16) (data : List Byte) (s : State) :
    ∃ t, execMoveFromHost dt core data s = .next t ∧ (s.elapse dt).Keeps [.od, .cores, .hosts, .events] t := by
  unfold execMoveFromHost
  refine ⟨_, rfl, ?_⟩
  have hw : Within [.od, .cores, .hosts, .events] [.od, .cores, .hosts, .events] := fun _ h => h
  have h := State.Keeps.refl [.od, .cores, .hosts, .events] (s.elapse dt)
  generalize s.elapse dt = bef at h ⊢
  repeat' (first
    | with_reducible assumption | ((with_reducible refine Within.sub hw ?_); decide)
    | with_reducible apply State.moveHead_keeps | with_reducible apply keeps_ite | with_reducible apply keeps_ite_snd
    | split | (intro _; intros; try beta_reduce))

theorem execStaggerRelease_keeps (dt : Nat) (core : Fin 16) (op : Nat) (s : State) :
    ∃ t, execStaggerRelease dt core op s = .next t ∧ (s.elapse dt).Keeps [.cores] t := by
  unfold execStaggerRelease
  refine ⟨_, rfl, ?_⟩
  have hw : Within [.cores] [.cores] := fun _ h => h
  have h := State.Keeps.refl [.cores] (s.elapse dt)
  generalize s.elapse dt = bef at h ⊢
  repeat' (first
    | with_reducible assumption | ((with_reducible refine Within.sub hw ?_); decide)
    | (fail_if_no_progress extract_lets -underBinder -merge -useContext +onlyGivenNames z
       first
       | (refine keeps_cut (s := z) ?_ ?_; (on_goal 1 => unfold z); on_goal 2 => (intro _; try clear_value z))
       | try clear_value z)
    | with_reducible apply State.modCore_keeps | with_reducible apply keeps_ite | with_reducible apply keeps_ite_snd | split
    | ((with_reducible refine State.keeps_mk hw (by assumption) rfl ?_)
       intro p; cases p <;> (first | exact .inl (by decide) | exact .inr rfl))
    | (intro _; intros; try beta_reduce))

theorem State.moveEnds_keeps {pts : List Part} (hw : Within [.cores] pts) {bef : State} {s : State} (c : Nat) (n : Nat) (h :
    bef.Keeps pts s) : bef.Keeps pts (State.moveEnds s c n) := by
  unfold State.moveEnds
  repeat' (first
    | with_reducible assumption | ((with_reducible refine Within.sub hw ?_); decide)
    | (fail_if_no_progress extract_lets -underBinder -merge -useContext +onlyGivenNames z
       first
       | (refine keeps_cut (s := z) ?_ ?_; (on_goal 1 => unfold z); on_goal 2 => (intro _; try clear_value z))
       | try clear_value z)
    | with_reducible apply State.finish_keeps | with_reducible apply keeps_ite | with_reducible apply keeps_ite_snd | split
    | ((with_reducible refine State.keeps_mk hw (by assumption) rfl ?_)
       intro p; cases p <;> (first | exact .inl (by decide) | exact .inr rfl))
    | (intro _; intros; try beta_reduce))

theorem State.moveFails_keeps {pts : List Part} (hw : Within [.cores] pts) {bef : State} {s : State} (c : Nat) (n : Nat)
    (status : Nat) (h : bef.Keeps pts s) : bef.Keeps pts (State.moveFails s c n status) := by
  unfold State.moveFails
  repeat' (first
    | with_reducible assumption | ((with_reducible refine Within.sub hw ?_); decide)
    | (fail_if_no_progress extract_lets -underBinder -merge -useContext +onlyGivenNames z
       first
       | (refine keeps_cut (s := z) ?_ ?_; (on_goal 1 => unfold z); on_goal 2 => (intro _; try clear_value z))
       | try clear_value z)
    | with_reducible apply State.moveEnds_keeps | with_reducible apply State.modCore_keeps | with_reducible apply keeps_ite
    | with_reducible apply keeps_ite_snd | split
    | ((with_reducible refine State.keeps_mk hw (by assumption) rfl ?_)
       intro p; cases p <;> (first | exact .inl (by decide) | exact .inr rfl))
    | (intro _; intros; try beta_reduce))

theorem State.issueTxn_keeps {pts : List Part} (hw : Within [.out, .od, .cores, .sched, .qps, .hosts, .events] pts) {bef :
    State} {s : State} (c : Nat) (n : Nat) (o : Op) (t : Txn) (h : bef.Keeps pts s) : bef.Keeps pts (State.issueTxn s c n o
    t).2 := by
  unfold State.issueTxn
  repeat' (first
    | with_reducible assumption | ((with_reducible refine Within.sub hw ?_); decide) | with_reducible apply hz
    | (fail_if_no_progress extract_lets -underBinder -merge -useContext +onlyGivenNames z
       first
       | (refine keeps_fact (P := ∀ x0 x1, bef.Keeps pts x0 → bef.Keeps pts (z x0 x1)) ?_ (fun hz => ?_); (on_goal 1 => (unfold z; intros; try beta_reduce)); on_goal 2 => (try clear_value z))
       | (refine keeps_cut (s := z) ?_ ?_; (on_goal 1 => unfold z); on_goal 2 => (intro _; try clear_value z))
       | (refine keeps_cut (s := z.2) ?_ ?_; (on_goal 1 => unfold z); on_goal 2 => (intro _; try clear_value z))
       | (refine keeps_cut (s := z.1) ?_ ?_; (on_goal 1 => unfold z); on_goal 2 => (intro _; try clear_value z))
       | (refine keeps_cut (s := z.2.1) ?_ ?_; (on_goal 1 => unfold z); on_goal 2 => (intro _; try clear_value z))
       | try clear_value z)
    | with_reducible apply State.takePool_keeps | with_reducible apply State.access_keeps
    | with_reducible apply State.modQp_keeps | with_reducible apply State.modCore_keeps
    | with_reducible apply State.emit_keeps | with_reducible apply keeps_ite | with_reducible apply keeps_ite_snd | split
    | ((with_reducible refine State.keeps_mk hw (by assumption) rfl ?_)
       intro p; cases p <;> (first | exact .inl (by decide) | exact .inr rfl))
    | (intro _; intros; try beta_reduce))

theorem State.dmaIssue_keeps {pts : List Part} (hw : Within [.out, .od, .cores, .sched, .qps, .hosts, .events] pts) {bef :
    State} {s : State} (c : Nat) (n : Nat) (dt : Nat) (h : bef.Keeps pts s) : bef.Keeps pts (State.dmaIssue s c n dt) := by
  unfold State.dmaIssue
  repeat' (first
    | with_reducible assumption | ((with_reducible refine Within.sub hw ?_); decide)
    | (fail_if_no_progress extract_lets -underBinder -merge -useContext +onlyGivenNames z
       first
       | (refine keeps_cut (s := z) ?_ ?_; (on_goal 1 => unfold z); on_goal 2 => (intro _; try clear_value z))
       | (refine keeps_cut (s := z.2) ?_ ?_; (on_goal 1 => unfold z); on_goal 2 => (intro _; try clear_value z))
       | (refine keeps_cut (s := z.1) ?_ ?_; (on_goal 1 => unfold z); on_goal 2 => (intro _; try clear_value z))
       | (refine keeps_cut (s := z.2.1) ?_ ?_; (on_goal 1 => unfold z); on_goal 2 => (intro _; try clear_value z))
       | try clear_value z)
    | with_reducible apply State.issueTxn_keeps | with_reducible apply State.moveFails_keeps
    | with_reducible apply State.bump_keeps | with_reducible apply keeps_ite | with_reducible apply keeps_ite_snd | split
    | ((with_reducible refine State.keeps_mk hw (by assumption) rfl ?_)
       intro p; cases p <;> (first | exact .inl (by decide) | exact .inr rfl))
    | (intro _; intros; try beta_reduce))

theorem execDmaTransactionIssue_keeps (dt : Nat) (core : Fin 16) (op : Nat) (s : State) :
    ∃ t, execDmaTransactionIssue dt core op s = .next t ∧ (s.elapse dt).Keeps [.out, .od, .cores, .sched, .qps, .hosts,
        .events] t := by
  unfold execDmaTransactionIssue
  refine ⟨_, rfl, ?_⟩
  have hw : Within [.out, .od, .cores, .sched, .qps, .hosts, .events] [.out, .od, .cores, .sched, .qps, .hosts, .events] :=
      fun _ h => h
  have h := State.Keeps.refl [.out, .od, .cores, .sched, .qps, .hosts, .events] (s.elapse dt)
  generalize s.elapse dt = bef at h ⊢
  repeat' (first
    | with_reducible assumption | ((with_reducible refine Within.sub hw ?_); decide)
    | with_reducible apply State.dmaIssue_keeps | with_reducible apply keeps_ite | with_reducible apply keeps_ite_snd
    | split | (intro _; intros; try beta_reduce))

theorem State.dropTxn_keeps {pts : List Part} (hw : Within [.cores, .sched] pts) {bef : State} {s : State} (c : Nat) (n :
    Nat) (t : Txn) (h : bef.Keeps pts s) : bef.Keeps pts (State.dropTxn s c n t) := by
  unfold State.dropTxn
  repeat' (first
    | with_reducible assumption | ((with_reducible refine Within.sub hw ?_); decide)
    | (fail_if_no_progress extract_lets -underBinder -merge -useContext +onlyGivenNames z
       first
       | (refine keeps_cut (s := z) ?_ ?_; (on_goal 1 => unfold z); on_goal 2 => (intro _; try clear_value z))
       | try clear_value z)
    | with_reducible apply State.givePool_keeps | with_reducible apply State.modCore_keeps | with_reducible apply keeps_ite
    | with_reducible apply keeps_ite_snd | split
    | ((with_reducible refine State.keeps_mk hw (by assumption) rfl ?_)
       intro p; cases p <;> (first | exact .inl (by decide) | exact .inr rfl))
    | (intro _; intros; try beta_reduce))

theorem State.landTxn_keeps {pts : List Part} (hw : Within [.out, .od, .mem, .hosts, .events] pts) {bef : State} {s : State}
    (c : Nat) (o : Op) (t : Txn) (h : bef.Keeps pts s) : bef.Keeps pts (State.landTxn s c o t).2 := by
  unfold State.landTxn
  repeat' (first
    | with_reducible assumption | ((with_reducible refine Within.sub hw ?_); decide)
    | (fail_if_no_progress extract_lets -underBinder -merge -useContext +onlyGivenNames z
       first
       | (refine keeps_cut (s := z) ?_ ?_; (on_goal 1 => unfold z); on_goal 2 => (intro _; try clear_value z))
       | try clear_value z)
    | with_reducible apply State.writeAll_keeps | with_reducible apply State.drop_keeps
    | with_reducible apply State.emit_keeps | with_reducible apply State.storeBytes_keeps | with_reducible apply keeps_ite
    | with_reducible apply keeps_ite_snd | split | (intro _; intros; try beta_reduce))

theorem State.dmaComplete_keeps {pts : List Part} (hw : Within [.out, .run, .od, .units, .mem, .cores, .jobs, .streams,
    .sched, .epoch, .hosts, .loops, .convs, .events, .free] pts) {bef : State} {s : State} (c : Nat) (n : Nat) (doubleBit :
    Option Nat) (h : bef.Keeps pts s) : bef.Keeps pts (State.dmaComplete s c n doubleBit) := by
  unfold State.dmaComplete
  repeat' (first
    | with_reducible assumption | ((with_reducible refine Within.sub hw ?_); decide)
    | (fail_if_no_progress extract_lets -underBinder -merge -useContext +onlyGivenNames z
       first
       | (refine keeps_cut (s := z) ?_ ?_; (on_goal 1 => unfold z); on_goal 2 => (intro _; try clear_value z))
       | (refine keeps_cut (s := z.2) ?_ ?_; (on_goal 1 => unfold z); on_goal 2 => (intro _; try clear_value z))
       | (refine keeps_cut (s := z.1) ?_ ?_; (on_goal 1 => unfold z); on_goal 2 => (intro _; try clear_value z))
       | (refine keeps_cut (s := z.2.1) ?_ ?_; (on_goal 1 => unfold z); on_goal 2 => (intro _; try clear_value z))
       | try clear_value z)
    | with_reducible apply State.landTxn_keeps | with_reducible apply State.dropTxn_keeps
    | with_reducible apply State.moveFails_keeps | with_reducible apply State.moveEnds_keeps
    | with_reducible apply State.uncorrectable_keeps | with_reducible apply keeps_ite | with_reducible apply keeps_ite_snd
    | split
    | ((with_reducible refine State.keeps_mk hw (by assumption) rfl ?_)
       intro p; cases p <;> (first | exact .inl (by decide) | exact .inr rfl))
    | (intro _; intros; try beta_reduce))

theorem execDmaTransactionComplete_keeps (dt : Nat) (core : Fin 16) (op : Nat) (doubleBit : Option Nat) (s : State) :
    ∃ t, execDmaTransactionComplete dt core op doubleBit s = .next t ∧ (s.elapse dt).Keeps [.out, .run, .od, .units, .mem,
        .cores, .jobs, .streams, .sched, .epoch, .hosts, .loops, .convs, .events, .free] t := by
  unfold execDmaTransactionComplete
  refine ⟨_, rfl, ?_⟩
  have hw : Within [.out, .run, .od, .units, .mem, .cores, .jobs, .streams, .sched, .epoch, .hosts, .loops, .convs, .events,
      .free] [.out, .run, .od, .units, .mem, .cores, .jobs, .streams, .sched, .epoch, .hosts, .loops, .convs, .events, .free]
      := fun _ h => h
  have h := State.Keeps.refl [.out, .run, .od, .units, .mem, .cores, .jobs, .streams, .sched, .epoch, .hosts, .loops, .convs,
      .events, .free] (s.elapse dt)
  generalize s.elapse dt = bef at h ⊢
  repeat' (first
    | with_reducible assumption | ((with_reducible refine Within.sub hw ?_); decide)
    | with_reducible apply State.dmaComplete_keeps | with_reducible apply keeps_ite | with_reducible apply keeps_ite_snd
    | split | (intro _; intros; try beta_reduce))

theorem State.failMoves_keeps {pts : List Part} (hw : Within [.cores, .sched] pts) {bef : State} {s : State} (status : Nat)
    (f : TvWord → Bool) (h : bef.Keeps pts s) : bef.Keeps pts (State.failMoves s status f) := by
  unfold State.failMoves
  repeat' (first
    | with_reducible assumption | ((with_reducible refine Within.sub hw ?_); decide)
    | (fail_if_no_progress extract_lets -underBinder -merge -useContext +onlyGivenNames z
       first
       | (refine keeps_cut (s := z) ?_ ?_; (on_goal 1 => unfold z); on_goal 2 => (intro _; try clear_value z))
       | (refine keeps_cut (s := z.2) ?_ ?_; (on_goal 1 => unfold z); on_goal 2 => (intro _; try clear_value z))
       | (refine keeps_cut (s := z.1) ?_ ?_; (on_goal 1 => unfold z); on_goal 2 => (intro _; try clear_value z))
       | (refine keeps_cut (s := z.2.1) ?_ ?_; (on_goal 1 => unfold z); on_goal 2 => (intro _; try clear_value z))
       | try clear_value z)
    | with_reducible apply State.moveFails_keeps | with_reducible apply State.givePool_keeps
    | with_reducible apply State.modCore_keeps | with_reducible apply keeps_foldl | with_reducible apply keeps_foldl_fst
    | with_reducible apply keeps_foldl_snd | with_reducible apply keeps_foldl_mid | with_reducible apply keeps_forRange
    | with_reducible apply keeps_forRange_fst | with_reducible apply keeps_forRange_snd | with_reducible apply keeps_ite
    | with_reducible apply keeps_ite_snd | split
    | ((with_reducible refine State.keeps_mk hw (by assumption) rfl ?_)
       intro p; cases p <;> (first | exact .inl (by decide) | exact .inr rfl))
    | (intro _; intros; try beta_reduce))

theorem State.kvCopy_keeps {pts : List Part} (hw : Within [.od, .mem, .hosts, .events] pts) {bef : State} {s : State} (j :
    Nat) (src : Nat) (dst : Nat) (n : Nat) (h : bef.Keeps pts s) : bef.Keeps pts (State.kvCopy s j src dst n).2 := by
  unfold State.kvCopy
  repeat' (first
    | with_reducible assumption | ((with_reducible refine Within.sub hw ?_); decide)
    | (fail_if_no_progress extract_lets -underBinder -merge -useContext +onlyGivenNames z
       first
       | (refine keeps_cut (s := z) ?_ ?_; (on_goal 1 => unfold z); on_goal 2 => (intro _; try clear_value z))
       | (refine keeps_cut (s := z.2) ?_ ?_; (on_goal 1 => unfold z); on_goal 2 => (intro _; try clear_value z))
       | (refine keeps_cut (s := z.1) ?_ ?_; (on_goal 1 => unfold z); on_goal 2 => (intro _; try clear_value z))
       | (refine keeps_cut (s := z.2.1) ?_ ?_; (on_goal 1 => unfold z); on_goal 2 => (intro _; try clear_value z))
       | try clear_value z)
    | with_reducible apply State.writeAll_keeps | with_reducible apply State.access_keeps | with_reducible apply keeps_ite
    | with_reducible apply keeps_ite_snd | split | (intro _; intros; try beta_reduce))

theorem State.kvTokens_keeps {pts : List Part} (hw : Within [.od, .mem, .hosts, .events] pts) {bef : State} {s : State} (j :
    Nat) (layer : Nat) (gather : Bool) (kd : Desc) (vd : Desc) (e : KvEntry) (h : bef.Keeps pts s) : bef.Keeps pts
    (State.kvTokens s j layer gather kd vd e).2 := by
  unfold State.kvTokens
  repeat' (first
    | with_reducible assumption | ((with_reducible refine Within.sub hw ?_); decide)
    | (fail_if_no_progress extract_lets -underBinder -merge -useContext +onlyGivenNames z
       first
       | (refine keeps_cut (s := z) ?_ ?_; (on_goal 1 => unfold z); on_goal 2 => (intro _; try clear_value z))
       | (refine keeps_cut (s := z.2) ?_ ?_; (on_goal 1 => unfold z); on_goal 2 => (intro _; try clear_value z))
       | (refine keeps_cut (s := z.1) ?_ ?_; (on_goal 1 => unfold z); on_goal 2 => (intro _; try clear_value z))
       | (refine keeps_cut (s := z.2.1) ?_ ?_; (on_goal 1 => unfold z); on_goal 2 => (intro _; try clear_value z))
       | try clear_value z)
    | with_reducible apply State.kvCopy_keeps | with_reducible apply keeps_foldl | with_reducible apply keeps_foldl_fst
    | with_reducible apply keeps_foldl_snd | with_reducible apply keeps_foldl_mid | with_reducible apply keeps_ite
    | with_reducible apply keeps_ite_snd | split | (intro _; intros; try beta_reduce))

theorem State.kvApply_keeps {pts : List Part} (hw : Within [.od, .mem, .jobs, .streams, .hosts, .events, .free] pts) {bef :
    State} {s : State} (j : Nat) (layer : Nat) (gather : Bool) (kd : Desc) (vd : Desc)
    (e : KvEntry) (h : bef.Keeps pts s) : bef.Keeps pts (State.kvApply s j layer gather kd vd e).2.2 := by
  simp only [State.kvApply]
  split
  · exact h
  · split
    · split
      · exact h
      · exact State.kvTokens_keeps (hw.sub (by decide)) _ _ _ _ _ _ h
    · split
      · exact h
      · rename_i hx
        exact State.modStream_keeps (hw.sub (by decide)) _ _ (State.kvTokens_keeps (hw.sub (by decide)) _ _ _ _ _ _
          (State.recountFrames_keeps (hw.sub (by decide)) _ _ (State.makePages_keeps (hw.sub (by decide)) _ _ _ _ _ hx h)))

theorem State.failStream_keeps {pts : List Part} (hw : Within [.jobs] pts) {bef : State} {s : State} (j : Nat) (n : Nat)
    (status : Nat) (h : bef.Keeps pts s) : bef.Keeps pts (State.failStream s j n status) := by
  unfold State.failStream
  repeat' (first
    | with_reducible assumption | ((with_reducible refine Within.sub hw ?_); decide)
    | (fail_if_no_progress extract_lets -underBinder -merge -useContext +onlyGivenNames z
       first
       | (refine keeps_cut (s := z) ?_ ?_; (on_goal 1 => unfold z); on_goal 2 => (intro _; try clear_value z))
       | try clear_value z)
    | with_reducible apply State.modJob_keeps | with_reducible apply keeps_ite | with_reducible apply keeps_ite_snd | split
    | ((with_reducible refine State.keeps_mk hw (by assumption) rfl ?_)
       intro p; cases p <;> (first | exact .inl (by decide) | exact .inr rfl))
    | (intro _; intros; try beta_reduce))

theorem State.kvHead_keeps {pts : List Part} (hw : Within [.od, .mem, .cores, .jobs, .streams, .hosts, .events, .free] pts)
    {bef : State} {s : State} (c : Nat) (opcode : Nat) (gather : Bool) (h : bef.Keeps pts s) :
    bef.Keeps pts (State.kvHead s c opcode gather) := by
  unfold State.kvHead
  split
  · exact h
  · rename_i n o _
    have ha := State.accessAll_keeps (hw.sub (by decide)) (s.coreJob c) rightR
      ((List.range (o.desc (kvList o.word)).rows).map (fun i => ((o.desc (kvList o.word)).base + i * (o.desc (kvList
          o.word)).rowStride, 16))) h
    simp only
    repeat' (first
      | exact h
      | exact ha
      | with_reducible apply State.finish_keeps (hw.sub (by decide))
      | with_reducible apply keeps_ite
      | (refine keeps_foldl ?_ (fun s x h => State.failStream_keeps (hw.sub (by decide)) _ _ _ h))
      | (refine keeps_foldl_last ?_ (fun a x h => ?_)))
    split
    · exact h
    · dsimp only
      split
      · exact State.failStream_keeps (hw.sub (by decide)) _ _ _ (State.kvApply_keeps (hw.sub (by decide)) _ _ _ _ _ _ h)
      · exact State.kvApply_keeps (hw.sub (by decide)) _ _ _ _ _ _ h

theorem execKvAppend_keeps (dt : Nat) (core : Fin 16) (s : State) :
    ∃ t, execKvAppend dt core s = .next t ∧ (s.elapse dt).Keeps [.od, .mem, .cores, .jobs, .streams, .hosts, .events, .free]
        t := by
  unfold execKvAppend
  refine ⟨_, rfl, ?_⟩
  have hw : Within [.od, .mem, .cores, .jobs, .streams, .hosts, .events, .free] [.od, .mem, .cores, .jobs, .streams, .hosts,
      .events, .free] := fun _ h => h
  have h := State.Keeps.refl [.od, .mem, .cores, .jobs, .streams, .hosts, .events, .free] (s.elapse dt)
  generalize s.elapse dt = bef at h ⊢
  repeat' (first
    | with_reducible assumption | ((with_reducible refine Within.sub hw ?_); decide)
    | with_reducible apply State.kvHead_keeps | with_reducible apply keeps_ite | with_reducible apply keeps_ite_snd | split
    | (intro _; intros; try beta_reduce))

theorem execKvGather_keeps (dt : Nat) (core : Fin 16) (s : State) :
    ∃ t, execKvGather dt core s = .next t ∧ (s.elapse dt).Keeps [.od, .mem, .cores, .jobs, .streams, .hosts, .events, .free]
        t := by
  unfold execKvGather
  refine ⟨_, rfl, ?_⟩
  have hw : Within [.od, .mem, .cores, .jobs, .streams, .hosts, .events, .free] [.od, .mem, .cores, .jobs, .streams, .hosts,
      .events, .free] := fun _ h => h
  have h := State.Keeps.refl [.od, .mem, .cores, .jobs, .streams, .hosts, .events, .free] (s.elapse dt)
  generalize s.elapse dt = bef at h ⊢
  repeat' (first
    | with_reducible assumption | ((with_reducible refine Within.sub hw ?_); decide)
    | with_reducible apply State.kvHead_keeps | with_reducible apply keeps_ite | with_reducible apply keeps_ite_snd | split
    | (intro _; intros; try beta_reduce))

end Sys2Proof.Machine
end

