-- ==== Sys2Proof/Laws/KeepsDrain.lean ====
section
/-! SUPPORT. What the operations of Machine/Drain.lean keep. -/

namespace Sys2Proof.Machine

theorem State.lockRows_keeps {pts : List Part} (hw : Within [.cores, .engines] pts) {bef : State} {s : State} (c : Nat) (qs :
    List Nat) (rows : List Nat) (n : Nat) (h : bef.Keeps pts s) : bef.Keeps pts (State.lockRows s c qs rows n) := by
  unfold State.lockRows
  repeat' (first
    | with_reducible assumption | ((with_reducible refine Within.sub hw ?_); decide)
    | (fail_if_no_progress extract_lets -underBinder -merge -useContext +onlyGivenNames z
       first
       | (refine keeps_cut (s := z) ?_ ?_; (on_goal 1 => unfold z); on_goal 2 => (intro _; try clear_value z))
       | try clear_value z)
    | with_reducible apply State.modRow_keeps | with_reducible apply keeps_foldl | with_reducible apply keeps_ite
    | with_reducible apply keeps_ite_snd | split
    | ((with_reducible refine State.keeps_mk hw (by assumption) rfl ?_)
       intro p; cases p <;> (first | exact .inl (by decide) | exact .inr rfl))
    | (intro _; intros; try beta_reduce))

theorem State.unlockRows_keeps {pts : List Part} (hw : Within [.cores, .engines] pts) {bef : State} {s : State} (c : Nat) (qs
    : List Nat) (rows : List Nat) (n : Nat) (h : bef.Keeps pts s) : bef.Keeps pts (State.unlockRows s c qs rows n) := by
  unfold State.unlockRows
  repeat' (first
    | with_reducible assumption | ((with_reducible refine Within.sub hw ?_); decide)
    | (fail_if_no_progress extract_lets -underBinder -merge -useContext +onlyGivenNames z
       first
       | (refine keeps_cut (s := z) ?_ ?_; (on_goal 1 => unfold z); on_goal 2 => (intro _; try clear_value z))
       | try clear_value z)
    | with_reducible apply State.modRow_keeps | with_reducible apply keeps_foldl | with_reducible apply keeps_ite
    | with_reducible apply keeps_ite_snd | split
    | ((with_reducible refine State.keeps_mk hw (by assumption) rfl ?_)
       intro p; cases p <;> (first | exact .inl (by decide) | exact .inr rfl))
    | (intro _; intros; try beta_reduce))

theorem State.unlockAll_keeps {pts : List Part} (hw : Within [.cores, .engines] pts) {bef : State} {s : State} (c : Nat) (qs
    : List Nat) (n : Nat) (h : bef.Keeps pts s) : bef.Keeps pts (State.unlockAll s c qs n) := by
  unfold State.unlockAll
  repeat' (first
    | with_reducible assumption | ((with_reducible refine Within.sub hw ?_); decide)
    | (fail_if_no_progress extract_lets -underBinder -merge -useContext +onlyGivenNames z
       first
       | (refine keeps_cut (s := z) ?_ ?_; (on_goal 1 => unfold z); on_goal 2 => (intro _; try clear_value z))
       | (refine keeps_cut (s := z.2) ?_ ?_; (on_goal 1 => unfold z); on_goal 2 => (intro _; try clear_value z))
       | (refine keeps_cut (s := z.1) ?_ ?_; (on_goal 1 => unfold z); on_goal 2 => (intro _; try clear_value z))
       | (refine keeps_cut (s := z.2.1) ?_ ?_; (on_goal 1 => unfold z); on_goal 2 => (intro _; try clear_value z))
       | try clear_value z)
    | with_reducible apply State.setVat_keeps | with_reducible apply keeps_foldl | with_reducible apply keeps_foldl_fst
    | with_reducible apply keeps_foldl_snd | with_reducible apply keeps_foldl_mid | with_reducible apply keeps_ite
    | with_reducible apply keeps_ite_snd | split
    | ((with_reducible refine State.keeps_mk hw (by assumption) rfl ?_)
       intro p; cases p <;> (first | exact .inl (by decide) | exact .inr rfl))
    | (intro _; intros; try beta_reduce))

theorem State.drainHead_keeps {pts : List Part} (hw : Within [.od, .cores, .engines, .hosts, .events] pts) {bef : State} {s :
    State} (c : Nat) (h : bef.Keeps pts s) : bef.Keeps pts (State.drainHead s c) := by
  unfold State.drainHead
  repeat' (first
    | with_reducible assumption | ((with_reducible refine Within.sub hw ?_); decide)
    | (fail_if_no_progress extract_lets -underBinder -merge -useContext +onlyGivenNames z
       first
       | (refine keeps_cut (s := z) ?_ ?_; (on_goal 1 => unfold z); on_goal 2 => (intro _; try clear_value z))
       | (refine keeps_cut (s := z.2) ?_ ?_; (on_goal 1 => unfold z); on_goal 2 => (intro _; try clear_value z))
       | (refine keeps_cut (s := z.1) ?_ ?_; (on_goal 1 => unfold z); on_goal 2 => (intro _; try clear_value z))
       | (refine keeps_cut (s := z.2.1) ?_ ?_; (on_goal 1 => unfold z); on_goal 2 => (intro _; try clear_value z))
       | try clear_value z)
    | with_reducible apply State.lockRows_keeps | with_reducible apply State.finish_keeps
    | with_reducible apply State.access_keeps | with_reducible apply State.modCore_keeps | with_reducible apply keeps_ite
    | with_reducible apply keeps_ite_snd | split
    | ((with_reducible refine State.keeps_mk hw (by assumption) rfl ?_)
       intro p; cases p <;> (first | exact .inl (by decide) | exact .inr rfl))
    | (intro _; intros; try beta_reduce))

theorem execDrain_keeps (dt : Nat) (core : Fin 16) (s : State) :
    ∃ t, execDrain dt core s = .next t ∧ (s.elapse dt).Keeps [.od, .cores, .engines, .hosts, .events] t := by
  unfold execDrain
  refine ⟨_, rfl, ?_⟩
  have hw : Within [.od, .cores, .engines, .hosts, .events] [.od, .cores, .engines, .hosts, .events] := fun _ h => h
  have h := State.Keeps.refl [.od, .cores, .engines, .hosts, .events] (s.elapse dt)
  generalize s.elapse dt = bef at h ⊢
  repeat' (first
    | with_reducible assumption | ((with_reducible refine Within.sub hw ?_); decide)
    | with_reducible apply State.drainHead_keeps | with_reducible apply keeps_ite | with_reducible apply keeps_ite_snd
    | split | (intro _; intros; try beta_reduce))

theorem State.drainOperand_keeps {pts : List Part} (hw : Within [.od, .hosts, .events] pts) {bef : State} {s : State} (c :
    Nat) (d : Desc) (r : Nat) (t : Tally) (h : bef.Keeps pts s) : bef.Keeps pts (State.drainOperand s c d r t).2.1 := by
  unfold State.drainOperand
  repeat' (first
    | with_reducible assumption | ((with_reducible refine Within.sub hw ?_); decide)
    | (fail_if_no_progress extract_lets -underBinder -merge -useContext +onlyGivenNames z
       first
       | (refine keeps_cut (s := z) ?_ ?_; (on_goal 1 => unfold z); on_goal 2 => (intro _; try clear_value z))
       | (refine keeps_cut (s := z.2) ?_ ?_; (on_goal 1 => unfold z); on_goal 2 => (intro _; try clear_value z))
       | (refine keeps_cut (s := z.1) ?_ ?_; (on_goal 1 => unfold z); on_goal 2 => (intro _; try clear_value z))
       | (refine keeps_cut (s := z.2.1) ?_ ?_; (on_goal 1 => unfold z); on_goal 2 => (intro _; try clear_value z))
       | try clear_value z)
    | with_reducible apply State.accessAll_keeps | with_reducible apply keeps_ite | with_reducible apply keeps_ite_snd
    | split | (intro _; intros; try beta_reduce))

theorem State.drainEnd_keeps {pts : List Part} (hw : Within [.od, .cores, .engines] pts) {bef : State} {s : State} (c : Nat)
    (n : Nat) (status : Nat) (qs : List Nat) (near : Bool) (h : bef.Keeps pts s) : bef.Keeps pts (State.drainEnd s c n status
    qs near) := by
  unfold State.drainEnd
  repeat' (first
    | with_reducible assumption | ((with_reducible refine Within.sub hw ?_); decide)
    | (fail_if_no_progress extract_lets -underBinder -merge -useContext +onlyGivenNames z
       first
       | (refine keeps_cut (s := z) ?_ ?_; (on_goal 1 => unfold z); on_goal 2 => (intro _; try clear_value z))
       | try clear_value z)
    | with_reducible apply State.unlockAll_keeps | with_reducible apply State.finish_keeps
    | with_reducible apply State.bump_keeps | with_reducible apply State.modCore_keeps | with_reducible apply keeps_ite
    | with_reducible apply keeps_ite_snd | split
    | ((with_reducible refine State.keeps_mk hw (by assumption) rfl ?_)
       intro p; cases p <;> (first | exact .inl (by decide) | exact .inr rfl))
    | (intro _; intros; try beta_reduce))

theorem State.drainStops_keeps {pts : List Part} (hw : Within [.od, .cores, .engines] pts) {bef : State} {s : State} (c :
    Nat) (n : Nat) (status : Nat) (qs : List Nat) (d : DrainRun) (h : bef.Keeps pts s) : bef.Keeps pts (State.drainStops s c
    n status qs d) := by
  unfold State.drainStops
  repeat' (first
    | with_reducible assumption | ((with_reducible refine Within.sub hw ?_); decide)
    | (fail_if_no_progress extract_lets -underBinder -merge -useContext +onlyGivenNames z
       first
       | (refine keeps_cut (s := z) ?_ ?_; (on_goal 1 => unfold z); on_goal 2 => (intro _; try clear_value z))
       | try clear_value z)
    | with_reducible apply State.drainEnd_keeps | with_reducible apply State.unlockAll_keeps
    | with_reducible apply State.bump_keeps | with_reducible apply State.modCore_keeps | with_reducible apply keeps_ite
    | with_reducible apply keeps_ite_snd | split
    | ((with_reducible refine State.keeps_mk hw (by assumption) rfl ?_)
       intro p; cases p <;> (first | exact .inl (by decide) | exact .inr rfl))
    | (intro _; intros; try beta_reduce))

theorem State.drainRead_keeps {pts : List Part} (hw : Within [.od, .cores, .engines, .hosts, .events, .free] pts) {bef :
    State} {s : State} (c : Nat) (dt : Nat) (h : bef.Keeps pts s) : bef.Keeps pts (State.drainRead s c dt) := by
  unfold State.drainRead
  repeat' (first
    | with_reducible assumption | ((with_reducible refine Within.sub hw ?_); decide) | with_reducible apply hz
    | (fail_if_no_progress extract_lets -underBinder -merge -useContext +onlyGivenNames z
       first
       | (refine keeps_fact (P := ∀ x0 x1, bef.Keeps pts x0.2.1 → bef.Keeps pts (z x0 x1).2.1) ?_ (fun hz => ?_); (on_goal 1 => (unfold z; intros; try beta_reduce)); on_goal 2 => (try clear_value z))
       | (refine keeps_cut (s := z) ?_ ?_; (on_goal 1 => unfold z); on_goal 2 => (intro _; try clear_value z))
       | (refine keeps_cut (s := z.2) ?_ ?_; (on_goal 1 => unfold z); on_goal 2 => (intro _; try clear_value z))
       | (refine keeps_cut (s := z.1) ?_ ?_; (on_goal 1 => unfold z); on_goal 2 => (intro _; try clear_value z))
       | (refine keeps_cut (s := z.2.1) ?_ ?_; (on_goal 1 => unfold z); on_goal 2 => (intro _; try clear_value z))
       | try clear_value z)
    | with_reducible apply State.drainStops_keeps | with_reducible apply State.drainOperand_keeps
    | with_reducible apply State.modRow_keeps | with_reducible apply State.countTally_keeps
    | with_reducible apply State.bump_keeps | with_reducible apply State.modCore_keeps | with_reducible apply keeps_foldl
    | with_reducible apply keeps_foldl_fst | with_reducible apply keeps_foldl_snd | with_reducible apply keeps_foldl_mid
    | with_reducible apply keeps_ite | with_reducible apply keeps_ite_snd | split
    | ((with_reducible refine State.keeps_mk hw (by assumption) rfl ?_)
       intro p; cases p <;> (first | exact .inl (by decide) | exact .inr rfl))
    | (intro _; intros; try beta_reduce))

theorem execDrainRowRead_keeps (dt : Nat) (core : Fin 16) (s : State) :
    ∃ t, execDrainRowRead dt core s = .next t ∧ (s.elapse dt).Keeps [.od, .cores, .engines, .hosts, .events, .free] t := by
  unfold execDrainRowRead
  refine ⟨_, rfl, ?_⟩
  have hw : Within [.od, .cores, .engines, .hosts, .events, .free] [.od, .cores, .engines, .hosts, .events, .free] := fun _ h
      => h
  have h := State.Keeps.refl [.od, .cores, .engines, .hosts, .events, .free] (s.elapse dt)
  generalize s.elapse dt = bef at h ⊢
  repeat' (first
    | with_reducible assumption | ((with_reducible refine Within.sub hw ?_); decide)
    | with_reducible apply State.drainRead_keeps | with_reducible apply keeps_ite | with_reducible apply keeps_ite_snd
    | split | (intro _; intros; try beta_reduce))

theorem State.drainWrite_keeps {pts : List Part} (hw : Within [.od, .mem, .cores, .engines, .hosts, .events, .free] pts) {bef
    : State} {s : State} (c : Nat) (h : bef.Keeps pts s) : bef.Keeps pts (State.drainWrite s c) := by
  unfold State.drainWrite
  repeat' (first
    | with_reducible assumption | ((with_reducible refine Within.sub hw ?_); decide)
    | (fail_if_no_progress extract_lets -underBinder -merge -useContext +onlyGivenNames z
       first
       | (refine keeps_cut (s := z) ?_ ?_; (on_goal 1 => unfold z); on_goal 2 => (intro _; try clear_value z))
       | (refine keeps_cut (s := z.2) ?_ ?_; (on_goal 1 => unfold z); on_goal 2 => (intro _; try clear_value z))
       | (refine keeps_cut (s := z.1) ?_ ?_; (on_goal 1 => unfold z); on_goal 2 => (intro _; try clear_value z))
       | (refine keeps_cut (s := z.2.1) ?_ ?_; (on_goal 1 => unfold z); on_goal 2 => (intro _; try clear_value z))
       | try clear_value z)
    | with_reducible apply State.drainEnd_keeps | with_reducible apply State.countTally_keeps
    | with_reducible apply State.writeAll_keeps | with_reducible apply State.bump_keeps
    | with_reducible apply State.modCore_keeps | with_reducible apply keeps_ite | with_reducible apply keeps_ite_snd | split
    | ((with_reducible refine State.keeps_mk hw (by assumption) rfl ?_)
       intro p; cases p <;> (first | exact .inl (by decide) | exact .inr rfl))
    | (intro _; intros; try beta_reduce))

theorem execDrainRowWrite_keeps (dt : Nat) (core : Fin 16) (s : State) :
    ∃ t, execDrainRowWrite dt core s = .next t ∧ (s.elapse dt).Keeps [.od, .mem, .cores, .engines, .hosts, .events, .free] t
        := by
  unfold execDrainRowWrite
  refine ⟨_, rfl, ?_⟩
  have hw : Within [.od, .mem, .cores, .engines, .hosts, .events, .free] [.od, .mem, .cores, .engines, .hosts, .events,
      .free] := fun _ h => h
  have h := State.Keeps.refl [.od, .mem, .cores, .engines, .hosts, .events, .free] (s.elapse dt)
  generalize s.elapse dt = bef at h ⊢
  repeat' (first
    | with_reducible assumption | ((with_reducible refine Within.sub hw ?_); decide)
    | with_reducible apply State.drainWrite_keeps | with_reducible apply keeps_ite | with_reducible apply keeps_ite_snd
    | split | (intro _; intros; try beta_reduce))

end Sys2Proof.Machine
end

