-- ==== Sys2Proof/Laws/KeepsEpochs.lean ====
section
/-! SUPPORT. What the operations of Machine/Epochs.lean keep. -/

namespace Sys2Proof.Machine

theorem State.stageAct_keeps {pts : List Part} (hw : Within [.od, .epoch] pts) {bef : State} (index : Nat) (sub : Nat) (v :
    Nat) {s : State} (h : bef.Keeps pts s) : bef.Keeps pts (State.stageAct index sub v s).2 := by
  unfold State.stageAct
  repeat' (first
    | with_reducible assumption | ((with_reducible refine Within.sub hw ?_); decide)
    | (fail_if_no_progress extract_lets -underBinder -merge -useContext +onlyGivenNames z
       first
       | (refine keeps_cut (s := z) ?_ ?_; (on_goal 1 => unfold z); on_goal 2 => (intro _; try clear_value z))
       | (refine keeps_cut (s := z.2) ?_ ?_; (on_goal 1 => unfold z); on_goal 2 => (intro _; try clear_value z))
       | (refine keeps_cut (s := z.1) ?_ ?_; (on_goal 1 => unfold z); on_goal 2 => (intro _; try clear_value z))
       | (refine keeps_cut (s := z.2.1) ?_ ?_; (on_goal 1 => unfold z); on_goal 2 => (intro _; try clear_value z))
       | try clear_value z)
    | with_reducible apply refuse_keeps | with_reducible apply accept_keeps | with_reducible apply State.setVal_keeps
    | with_reducible apply keeps_ite | with_reducible apply keeps_ite_snd | split
    | ((with_reducible refine State.keeps_mk hw (by assumption) rfl ?_)
       intro p; cases p <;> (first | exact .inl (by decide) | exact .inr rfl))
    | (intro _; intros; try beta_reduce))

theorem execEpochStageWrite_keeps (dt : Nat) (road : Road) (index : BitVec 16) (sub : BitVec 8) (data : List Byte) (s : State) :
    ∃ t, execEpochStageWrite dt road index sub data s = .next t ∧ (s.elapse dt).Keeps [.out, .od, .epoch, .hosts, .events] t
        := by
  unfold execEpochStageWrite
  refine ⟨_, rfl, ?_⟩
  have hw : Within [.out, .od, .epoch, .hosts, .events] [.out, .od, .epoch, .hosts, .events] := fun _ h => h
  have h := State.Keeps.refl [.out, .od, .epoch, .hosts, .events] (s.elapse dt)
  generalize s.elapse dt = bef at h ⊢
  repeat' (first
    | with_reducible assumption | ((with_reducible refine Within.sub hw ?_); decide)
    | (fail_if_no_progress extract_lets -underBinder -merge -useContext +onlyGivenNames z
       first
       | (refine keeps_cut (s := z) ?_ ?_; (on_goal 1 => unfold z); on_goal 2 => (intro _; try clear_value z))
       | try clear_value z)
    | with_reducible apply State.stageAct_keeps | with_reducible apply State.writeRow_keeps | with_reducible apply keeps_ite
    | with_reducible apply keeps_ite_snd | split | (intro _; intros; try beta_reduce))

theorem State.epochTo_keeps {pts : List Part} (hw : Within [.epoch] pts) {bef : State} {s : State} (st : EpochSt) (h :
    bef.Keeps pts s) : bef.Keeps pts (State.epochTo s st) := by
  unfold State.epochTo
  repeat' (first
    | with_reducible assumption | ((with_reducible refine Within.sub hw ?_); decide)
    | (fail_if_no_progress extract_lets -underBinder -merge -useContext +onlyGivenNames z
       first
       | (refine keeps_cut (s := z) ?_ ?_; (on_goal 1 => unfold z); on_goal 2 => (intro _; try clear_value z))
       | try clear_value z)
    | with_reducible apply keeps_ite | with_reducible apply keeps_ite_snd | split
    | ((with_reducible refine State.keeps_mk hw (by assumption) rfl ?_)
       intro p; cases p <;> (first | exact .inl (by decide) | exact .inr rfl))
    | (intro _; intros; try beta_reduce))

theorem State.unstage_keeps {pts : List Part} (hw : Within [.od, .epoch] pts) {bef : State} {s : State} (h : bef.Keeps pts s)
    : bef.Keeps pts (State.unstage s) := by
  unfold State.unstage
  repeat' (first
    | with_reducible assumption | ((with_reducible refine Within.sub hw ?_); decide)
    | (fail_if_no_progress extract_lets -underBinder -merge -useContext +onlyGivenNames z
       first
       | (refine keeps_cut (s := z) ?_ ?_; (on_goal 1 => unfold z); on_goal 2 => (intro _; try clear_value z))
       | try clear_value z)
    | with_reducible apply State.setVal_keeps | with_reducible apply keeps_ite | with_reducible apply keeps_ite_snd | split
    | ((with_reducible refine State.keeps_mk hw (by assumption) rfl ?_)
       intro p; cases p <;> (first | exact .inl (by decide) | exact .inr rfl))
    | (intro _; intros; try beta_reduce))

theorem State.commitWith_keeps {pts : List Part} (hw : Within [.epoch] pts) {bef : State} {s : State} (kind : Nat) (h :
    bef.Keeps pts s) : bef.Keeps pts (State.commitWith s kind) := by
  unfold State.commitWith
  repeat' (first
    | with_reducible assumption | ((with_reducible refine Within.sub hw ?_); decide)
    | (fail_if_no_progress extract_lets -underBinder -merge -useContext +onlyGivenNames z
       first
       | (refine keeps_cut (s := z) ?_ ?_; (on_goal 1 => unfold z); on_goal 2 => (intro _; try clear_value z))
       | try clear_value z)
    | with_reducible apply keeps_ite | with_reducible apply keeps_ite_snd | split
    | ((with_reducible refine State.keeps_mk hw (by assumption) rfl ?_)
       intro p; cases p <;> (first | exact .inl (by decide) | exact .inr rfl))
    | (intro _; intros; try beta_reduce))

theorem State.epochOpenAct_keeps {pts : List Part} (hw : Within [.od, .epoch] pts) {bef : State} {s : State} (h : bef.Keeps
    pts s) : bef.Keeps pts (State.epochOpenAct s).2 := by
  unfold State.epochOpenAct
  repeat' (first
    | with_reducible assumption | ((with_reducible refine Within.sub hw ?_); decide)
    | with_reducible apply State.unstage_keeps | with_reducible apply State.epochTo_keeps
    | with_reducible apply refuse_keeps | with_reducible apply accept_keeps | with_reducible apply keeps_ite
    | with_reducible apply keeps_ite_snd | split | (intro _; intros; try beta_reduce))

theorem State.epochCommitAct_keeps {pts : List Part} (hw : Within [.epoch] pts) {bef : State} {s : State} (h : bef.Keeps pts
    s) : bef.Keeps pts (State.epochCommitAct s).2 := by
  unfold State.epochCommitAct
  repeat' (first
    | with_reducible assumption | ((with_reducible refine Within.sub hw ?_); decide)
    | with_reducible apply State.commitWith_keeps | with_reducible apply refuse_keeps | with_reducible apply accept_keeps
    | with_reducible apply keeps_ite | with_reducible apply keeps_ite_snd | split | (intro _; intros; try beta_reduce))

theorem State.epochAbortAct_keeps {pts : List Part} (hw : Within [.od, .epoch] pts) {bef : State} {s : State} (h : bef.Keeps
    pts s) : bef.Keeps pts (State.epochAbortAct s).2 := by
  unfold State.epochAbortAct
  repeat' (first
    | with_reducible assumption | ((with_reducible refine Within.sub hw ?_); decide)
    | with_reducible apply State.unstage_keeps | with_reducible apply State.epochTo_keeps
    | with_reducible apply refuse_keeps | with_reducible apply accept_keeps | with_reducible apply keeps_ite
    | with_reducible apply keeps_ite_snd | split | (intro _; intros; try beta_reduce))

theorem State.epochRecommitAct_keeps {pts : List Part} (hw : Within [.epoch] pts) {bef : State} {s : State} (h : bef.Keeps
    pts s) : bef.Keeps pts (State.epochRecommitAct s).2 := by
  unfold State.epochRecommitAct
  repeat' (first
    | with_reducible assumption | ((with_reducible refine Within.sub hw ?_); decide)
    | with_reducible apply State.commitWith_keeps | with_reducible apply refuse_keeps | with_reducible apply accept_keeps
    | with_reducible apply keeps_ite | with_reducible apply keeps_ite_snd | split | (intro _; intros; try beta_reduce))

theorem State.epochRevertAct_keeps {pts : List Part} (hw : Within [.epoch] pts) {bef : State} {s : State} (h : bef.Keeps pts
    s) : bef.Keeps pts (State.epochRevertAct s).2 := by
  unfold State.epochRevertAct
  repeat' (first
    | with_reducible assumption | ((with_reducible refine Within.sub hw ?_); decide)
    | with_reducible apply State.commitWith_keeps | with_reducible apply refuse_keeps | with_reducible apply accept_keeps
    | with_reducible apply keeps_ite | with_reducible apply keeps_ite_snd | split | (intro _; intros; try beta_reduce))

theorem State.epochCommandAct_keeps {pts : List Part} (hw : Within [.od, .epoch] pts) {bef : State} (v : Nat) {s : State} (h
    : bef.Keeps pts s) : bef.Keeps pts (State.epochCommandAct v s).2 := by
  unfold State.epochCommandAct
  repeat' (first
    | with_reducible assumption | ((with_reducible refine Within.sub hw ?_); decide)
    | with_reducible apply State.epochRevertAct_keeps | with_reducible apply State.epochRecommitAct_keeps
    | with_reducible apply State.epochAbortAct_keeps | with_reducible apply State.epochCommitAct_keeps
    | with_reducible apply State.epochOpenAct_keeps | with_reducible apply refuse_keeps | with_reducible apply keeps_ite
    | with_reducible apply keeps_ite_snd | split | (intro _; intros; try beta_reduce))

theorem execEpochOpen_keeps (dt : Nat) (road : Road) (s : State) :
    ∃ t, execEpochOpen dt road s = .next t ∧ (s.elapse dt).Keeps [.out, .od, .epoch, .hosts, .events] t := by
  unfold execEpochOpen
  refine ⟨_, rfl, ?_⟩
  have hw : Within [.out, .od, .epoch, .hosts, .events] [.out, .od, .epoch, .hosts, .events] := fun _ h => h
  have h := State.Keeps.refl [.out, .od, .epoch, .hosts, .events] (s.elapse dt)
  generalize s.elapse dt = bef at h ⊢
  repeat' (first
    | with_reducible assumption | ((with_reducible refine Within.sub hw ?_); decide)
    | with_reducible apply State.epochOpenAct_keeps | with_reducible apply State.writeRow_keeps
    | with_reducible apply keeps_ite | with_reducible apply keeps_ite_snd | split | (intro _; intros; try beta_reduce))

theorem execEpochCommit_keeps (dt : Nat) (road : Road) (s : State) :
    ∃ t, execEpochCommit dt road s = .next t ∧ (s.elapse dt).Keeps [.out, .od, .epoch, .hosts, .events] t := by
  unfold execEpochCommit
  refine ⟨_, rfl, ?_⟩
  have hw : Within [.out, .od, .epoch, .hosts, .events] [.out, .od, .epoch, .hosts, .events] := fun _ h => h
  have h := State.Keeps.refl [.out, .od, .epoch, .hosts, .events] (s.elapse dt)
  generalize s.elapse dt = bef at h ⊢
  repeat' (first
    | with_reducible assumption | ((with_reducible refine Within.sub hw ?_); decide)
    | with_reducible apply State.epochCommitAct_keeps | with_reducible apply State.writeRow_keeps
    | with_reducible apply keeps_ite | with_reducible apply keeps_ite_snd | split | (intro _; intros; try beta_reduce))

theorem execEpochAbort_keeps (dt : Nat) (road : Road) (s : State) :
    ∃ t, execEpochAbort dt road s = .next t ∧ (s.elapse dt).Keeps [.out, .od, .epoch, .hosts, .events] t := by
  unfold execEpochAbort
  refine ⟨_, rfl, ?_⟩
  have hw : Within [.out, .od, .epoch, .hosts, .events] [.out, .od, .epoch, .hosts, .events] := fun _ h => h
  have h := State.Keeps.refl [.out, .od, .epoch, .hosts, .events] (s.elapse dt)
  generalize s.elapse dt = bef at h ⊢
  repeat' (first
    | with_reducible assumption | ((with_reducible refine Within.sub hw ?_); decide)
    | with_reducible apply State.epochAbortAct_keeps | with_reducible apply State.writeRow_keeps
    | with_reducible apply keeps_ite | with_reducible apply keeps_ite_snd | split | (intro _; intros; try beta_reduce))

theorem execEpochRecommit_keeps (dt : Nat) (road : Road) (s : State) :
    ∃ t, execEpochRecommit dt road s = .next t ∧ (s.elapse dt).Keeps [.out, .od, .epoch, .hosts, .events] t := by
  unfold execEpochRecommit
  refine ⟨_, rfl, ?_⟩
  have hw : Within [.out, .od, .epoch, .hosts, .events] [.out, .od, .epoch, .hosts, .events] := fun _ h => h
  have h := State.Keeps.refl [.out, .od, .epoch, .hosts, .events] (s.elapse dt)
  generalize s.elapse dt = bef at h ⊢
  repeat' (first
    | with_reducible assumption | ((with_reducible refine Within.sub hw ?_); decide)
    | with_reducible apply State.epochRecommitAct_keeps | with_reducible apply State.writeRow_keeps
    | with_reducible apply keeps_ite | with_reducible apply keeps_ite_snd | split | (intro _; intros; try beta_reduce))

theorem execEpochRevert_keeps (dt : Nat) (road : Road) (s : State) :
    ∃ t, execEpochRevert dt road s = .next t ∧ (s.elapse dt).Keeps [.out, .od, .epoch, .hosts, .events] t := by
  unfold execEpochRevert
  refine ⟨_, rfl, ?_⟩
  have hw : Within [.out, .od, .epoch, .hosts, .events] [.out, .od, .epoch, .hosts, .events] := fun _ h => h
  have h := State.Keeps.refl [.out, .od, .epoch, .hosts, .events] (s.elapse dt)
  generalize s.elapse dt = bef at h ⊢
  repeat' (first
    | with_reducible assumption | ((with_reducible refine Within.sub hw ?_); decide)
    | with_reducible apply State.epochRevertAct_keeps | with_reducible apply State.writeRow_keeps
    | with_reducible apply keeps_ite | with_reducible apply keeps_ite_snd | split | (intro _; intros; try beta_reduce))

theorem State.oweValue_keeps {pts : List Part} (hw : Within [.units, .epoch] pts) {bef : State} {s : State} (r : Nat) (key :
    Nat) (v : Nat) (h : bef.Keeps pts s) : bef.Keeps pts (State.oweValue s r key v) := by
  unfold State.oweValue
  repeat' (first
    | with_reducible assumption | ((with_reducible refine Within.sub hw ?_); decide)
    | (fail_if_no_progress extract_lets -underBinder -merge -useContext +onlyGivenNames z
       first
       | (refine keeps_cut (s := z) ?_ ?_; (on_goal 1 => unfold z); on_goal 2 => (intro _; try clear_value z))
       | (refine keeps_cut (s := z.2) ?_ ?_; (on_goal 1 => unfold z); on_goal 2 => (intro _; try clear_value z))
       | (refine keeps_cut (s := z.1) ?_ ?_; (on_goal 1 => unfold z); on_goal 2 => (intro _; try clear_value z))
       | (refine keeps_cut (s := z.2.1) ?_ ?_; (on_goal 1 => unfold z); on_goal 2 => (intro _; try clear_value z))
       | try clear_value z)
    | with_reducible apply State.modUnit_keeps | with_reducible apply keeps_ite | with_reducible apply keeps_ite_snd | split
    | ((with_reducible refine State.keeps_mk hw (by assumption) rfl ?_)
       intro p; cases p <;> (first | exact .inl (by decide) | exact .inr rfl))
    | (intro _; intros; try beta_reduce))

theorem State.settleEpoch_keeps {pts : List Part} (hw : Within [.od, .epoch, .hosts, .events] pts) {bef : State} {s : State}
    (h : bef.Keeps pts s) : bef.Keeps pts (State.settleEpoch s) := by
  unfold State.settleEpoch
  repeat' (first
    | with_reducible assumption | ((with_reducible refine Within.sub hw ?_); decide)
    | (fail_if_no_progress extract_lets -underBinder -merge -useContext +onlyGivenNames z
       first
       | (refine keeps_cut (s := z) ?_ ?_; (on_goal 1 => unfold z); on_goal 2 => (intro _; try clear_value z))
       | try clear_value z)
    | with_reducible apply State.unstage_keeps | with_reducible apply State.epochTo_keeps
    | with_reducible apply State.clearAlarm_keeps | with_reducible apply keeps_ite | with_reducible apply keeps_ite_snd
    | split
    | ((with_reducible refine State.keeps_mk hw (by assumption) rfl ?_)
       intro p; cases p <;> (first | exact .inl (by decide) | exact .inr rfl))
    | (intro _; intros; try beta_reduce))

theorem State.commitEpoch_keeps {pts : List Part} (hw : Within [.od, .units, .epoch] pts) {bef : State} {s : State} (h :
    bef.Keeps pts s) : bef.Keeps pts (State.commitEpoch s) := by
  unfold State.commitEpoch
  repeat' (first
    | with_reducible assumption | ((with_reducible refine Within.sub hw ?_); decide)
    | (fail_if_no_progress extract_lets -underBinder -merge -useContext +onlyGivenNames z
       first
       | (refine keeps_cut (s := z) ?_ ?_; (on_goal 1 => unfold z); on_goal 2 => (intro _; try clear_value z))
       | (refine keeps_cut (s := z.2) ?_ ?_; (on_goal 1 => unfold z); on_goal 2 => (intro _; try clear_value z))
       | (refine keeps_cut (s := z.1) ?_ ?_; (on_goal 1 => unfold z); on_goal 2 => (intro _; try clear_value z))
       | (refine keeps_cut (s := z.2.1) ?_ ?_; (on_goal 1 => unfold z); on_goal 2 => (intro _; try clear_value z))
       | try clear_value z)
    | with_reducible apply State.oweValue_keeps | with_reducible apply State.bump_keeps
    | with_reducible apply State.setVal_keeps | with_reducible apply keeps_foldl | with_reducible apply keeps_foldl_fst
    | with_reducible apply keeps_foldl_snd | with_reducible apply keeps_foldl_mid | with_reducible apply keeps_ite
    | with_reducible apply keeps_ite_snd | split
    | ((with_reducible refine State.keeps_mk hw (by assumption) rfl ?_)
       intro p; cases p <;> (first | exact .inl (by decide) | exact .inr rfl))
    | (intro _; intros; try beta_reduce))

theorem State.recommitEpoch_keeps {pts : List Part} (hw : Within [.units] pts) {bef : State} {s : State} (h : bef.Keeps pts
    s) : bef.Keeps pts (State.recommitEpoch s) := by
  unfold State.recommitEpoch
  repeat' (first
    | with_reducible assumption | ((with_reducible refine Within.sub hw ?_); decide)
    | (fail_if_no_progress extract_lets -underBinder -merge -useContext +onlyGivenNames z
       first
       | (refine keeps_cut (s := z) ?_ ?_; (on_goal 1 => unfold z); on_goal 2 => (intro _; try clear_value z))
       | try clear_value z)
    | with_reducible apply State.modUnit_keeps | with_reducible apply keeps_foldl | with_reducible apply keeps_ite
    | with_reducible apply keeps_ite_snd | split
    | ((with_reducible refine State.keeps_mk hw (by assumption) rfl ?_)
       intro p; cases p <;> (first | exact .inl (by decide) | exact .inr rfl))
    | (intro _; intros; try beta_reduce))

theorem State.unmix_keeps {pts : List Part} (hw : Within [.od, .units, .epoch, .hosts, .loops, .convs, .events] pts) {bef :
    State} {s : State} (r : Nat) (h : bef.Keeps pts s) : bef.Keeps pts (State.unmix s r) := by
  unfold State.unmix
  repeat' (first
    | with_reducible assumption | ((with_reducible refine Within.sub hw ?_); decide)
    | (fail_if_no_progress extract_lets -underBinder -merge -useContext +onlyGivenNames z
       first
       | (refine keeps_cut (s := z) ?_ ?_; (on_goal 1 => unfold z); on_goal 2 => (intro _; try clear_value z))
       | try clear_value z)
    | with_reducible apply State.setUnit_keeps | with_reducible apply State.modUnit_keeps | with_reducible apply keeps_ite
    | with_reducible apply keeps_ite_snd | split
    | ((with_reducible refine State.keeps_mk hw (by assumption) rfl ?_)
       intro p; cases p <;> (first | exact .inl (by decide) | exact .inr rfl))
    | (intro _; intros; try beta_reduce))

theorem State.revertEpoch_keeps {pts : List Part} (hw : Within [.od, .units, .epoch, .hosts, .loops, .convs, .events] pts)
    {bef : State} {s : State} (h : bef.Keeps pts s) : bef.Keeps pts (State.revertEpoch s) := by
  unfold State.revertEpoch
  repeat' (first
    | with_reducible assumption | ((with_reducible refine Within.sub hw ?_); decide)
    | (fail_if_no_progress extract_lets -underBinder -merge -useContext +onlyGivenNames z
       first
       | (refine keeps_cut (s := z) ?_ ?_; (on_goal 1 => unfold z); on_goal 2 => (intro _; try clear_value z))
       | (refine keeps_cut (s := z.2) ?_ ?_; (on_goal 1 => unfold z); on_goal 2 => (intro _; try clear_value z))
       | (refine keeps_cut (s := z.1) ?_ ?_; (on_goal 1 => unfold z); on_goal 2 => (intro _; try clear_value z))
       | (refine keeps_cut (s := z.2.1) ?_ ?_; (on_goal 1 => unfold z); on_goal 2 => (intro _; try clear_value z))
       | try clear_value z)
    | with_reducible apply State.unmix_keeps | with_reducible apply State.oweValue_keeps
    | with_reducible apply State.setVal_keeps | with_reducible apply keeps_foldl | with_reducible apply keeps_foldl_fst
    | with_reducible apply keeps_foldl_snd | with_reducible apply keeps_foldl_mid | with_reducible apply keeps_ite
    | with_reducible apply keeps_ite_snd | split
    | ((with_reducible refine State.keeps_mk hw (by assumption) rfl ?_)
       intro p; cases p <;> (first | exact .inl (by decide) | exact .inr rfl))
    | (intro _; intros; try beta_reduce))

theorem State.commitTime_keeps {pts : List Part} (hw : Within [.od, .units, .epoch, .hosts, .loops, .convs, .events] pts)
    {bef : State} {s : State} (h : bef.Keeps pts s) : bef.Keeps pts (State.commitTime s) := by
  unfold State.commitTime
  repeat' (first
    | with_reducible assumption | ((with_reducible refine Within.sub hw ?_); decide)
    | (fail_if_no_progress extract_lets -underBinder -merge -useContext +onlyGivenNames z
       first
       | (refine keeps_cut (s := z) ?_ ?_; (on_goal 1 => unfold z); on_goal 2 => (intro _; try clear_value z))
       | try clear_value z)
    | with_reducible apply State.revertEpoch_keeps | with_reducible apply State.recommitEpoch_keeps
    | with_reducible apply State.commitEpoch_keeps | with_reducible apply State.settleEpoch_keeps
    | with_reducible apply keeps_ite | with_reducible apply keeps_ite_snd | split
    | ((with_reducible refine State.keeps_mk hw (by assumption) rfl ?_)
       intro p; cases p <;> (first | exact .inl (by decide) | exact .inr rfl))
    | (intro _; intros; try beta_reduce))

theorem execEpochCommitTime_keeps (dt : Nat) (s : State) :
    ∃ t, execEpochCommitTime dt s = .next t ∧ (s.elapse dt).Keeps [.od, .units, .epoch, .hosts, .loops, .convs, .events] t := by
  unfold execEpochCommitTime
  refine ⟨_, rfl, ?_⟩
  have hw : Within [.od, .units, .epoch, .hosts, .loops, .convs, .events] [.od, .units, .epoch, .hosts, .loops, .convs,
      .events] := fun _ h => h
  have h := State.Keeps.refl [.od, .units, .epoch, .hosts, .loops, .convs, .events] (s.elapse dt)
  generalize s.elapse dt = bef at h ⊢
  repeat' (first
    | with_reducible assumption | ((with_reducible refine Within.sub hw ?_); decide)
    | with_reducible apply State.commitTime_keeps | with_reducible apply keeps_ite | with_reducible apply keeps_ite_snd
    | split | (intro _; intros; try beta_reduce))

theorem State.applyEpoch_keeps {pts : List Part} (hw : Within [.od, .units, .epoch, .hosts, .loops, .convs, .events] pts)
    {bef : State} {s : State} (r : Nat) (h : bef.Keeps pts s) : bef.Keeps pts (State.applyEpoch s r) := by
  unfold State.applyEpoch
  repeat' (first
    | with_reducible assumption | ((with_reducible refine Within.sub hw ?_); decide)
    | (fail_if_no_progress extract_lets -underBinder -merge -useContext +onlyGivenNames z
       first
       | (refine keeps_cut (s := z) ?_ ?_; (on_goal 1 => unfold z); on_goal 2 => (intro _; try clear_value z))
       | (refine keeps_cut (s := z.2) ?_ ?_; (on_goal 1 => unfold z); on_goal 2 => (intro _; try clear_value z))
       | (refine keeps_cut (s := z.1) ?_ ?_; (on_goal 1 => unfold z); on_goal 2 => (intro _; try clear_value z))
       | (refine keeps_cut (s := z.2.1) ?_ ?_; (on_goal 1 => unfold z); on_goal 2 => (intro _; try clear_value z))
       | try clear_value z)
    | with_reducible apply State.unmix_keeps | with_reducible apply State.settleEpoch_keeps
    | with_reducible apply State.applyStaged_keeps | with_reducible apply State.modUnit_keeps
    | with_reducible apply keeps_foldl | with_reducible apply keeps_foldl_fst | with_reducible apply keeps_foldl_snd
    | with_reducible apply keeps_foldl_mid | with_reducible apply keeps_ite | with_reducible apply keeps_ite_snd | split
    | ((with_reducible refine State.keeps_mk hw (by assumption) rfl ?_)
       intro p; cases p <;> (first | exact .inl (by decide) | exact .inr rfl))
    | (intro _; intros; try beta_reduce))

theorem execEpochApply_keeps (dt : Nat) (unit : UnitRef) (s : State) :
    ∃ t, execEpochApply dt unit s = .next t ∧ (s.elapse dt).Keeps [.od, .units, .epoch, .hosts, .loops, .convs, .events] t := by
  unfold execEpochApply
  refine ⟨_, rfl, ?_⟩
  have hw : Within [.od, .units, .epoch, .hosts, .loops, .convs, .events] [.od, .units, .epoch, .hosts, .loops, .convs,
      .events] := fun _ h => h
  have h := State.Keeps.refl [.od, .units, .epoch, .hosts, .loops, .convs, .events] (s.elapse dt)
  generalize s.elapse dt = bef at h ⊢
  repeat' (first
    | with_reducible assumption | ((with_reducible refine Within.sub hw ?_); decide)
    | with_reducible apply State.applyEpoch_keeps | with_reducible apply keeps_ite | with_reducible apply keeps_ite_snd
    | split | (intro _; intros; try beta_reduce))

theorem State.mix_keeps {pts : List Part} (hw : Within [.od, .units, .cores, .engines, .jobs, .hosts, .events] pts) {bef :
    State} {s : State} (r : Nat) (h : bef.Keeps pts s) : bef.Keeps pts (State.mix s r) := by
  unfold State.mix
  repeat' (first
    | with_reducible assumption | ((with_reducible refine Within.sub hw ?_); decide)
    | (fail_if_no_progress extract_lets -underBinder -merge -useContext +onlyGivenNames z
       first
       | (refine keeps_cut (s := z) ?_ ?_; (on_goal 1 => unfold z); on_goal 2 => (intro _; try clear_value z))
       | try clear_value z)
    | with_reducible apply State.fence_keeps | with_reducible apply State.modUnit_keeps | with_reducible apply keeps_ite
    | with_reducible apply keeps_ite_snd | split
    | ((with_reducible refine State.keeps_mk hw (by assumption) rfl ?_)
       intro p; cases p <;> (first | exact .inl (by decide) | exact .inr rfl))
    | (intro _; intros; try beta_reduce))

theorem State.mixEpoch_keeps {pts : List Part} (hw : Within [.od, .units, .cores, .engines, .jobs, .epoch, .hosts, .events]
    pts) {bef : State} {s : State} (h : bef.Keeps pts s) : bef.Keeps pts (State.mixEpoch s) := by
  unfold State.mixEpoch
  repeat' (first
    | with_reducible assumption | ((with_reducible refine Within.sub hw ?_); decide)
    | (fail_if_no_progress extract_lets -underBinder -merge -useContext +onlyGivenNames z
       first
       | (refine keeps_cut (s := z) ?_ ?_; (on_goal 1 => unfold z); on_goal 2 => (intro _; try clear_value z))
       | try clear_value z)
    | with_reducible apply State.mix_keeps | with_reducible apply State.epochTo_keeps
    | with_reducible apply State.raise_keeps | with_reducible apply State.bump_keeps | with_reducible apply keeps_foldl
    | with_reducible apply keeps_ite | with_reducible apply keeps_ite_snd | split
    | ((with_reducible refine State.keeps_mk hw (by assumption) rfl ?_)
       intro p; cases p <;> (first | exact .inl (by decide) | exact .inr rfl))
    | (intro _; intros; try beta_reduce))

theorem execEpochMixed_keeps (dt : Nat) (s : State) :
    ∃ t, execEpochMixed dt s = .next t ∧ (s.elapse dt).Keeps [.od, .units, .cores, .engines, .jobs, .epoch, .hosts, .events]
        t := by
  unfold execEpochMixed
  refine ⟨_, rfl, ?_⟩
  have hw : Within [.od, .units, .cores, .engines, .jobs, .epoch, .hosts, .events] [.od, .units, .cores, .engines, .jobs,
      .epoch, .hosts, .events] := fun _ h => h
  have h := State.Keeps.refl [.od, .units, .cores, .engines, .jobs, .epoch, .hosts, .events] (s.elapse dt)
  generalize s.elapse dt = bef at h ⊢
  repeat' (first
    | with_reducible assumption | ((with_reducible refine Within.sub hw ?_); decide)
    | with_reducible apply State.mixEpoch_keeps | with_reducible apply keeps_ite | with_reducible apply keeps_ite_snd
    | split | (intro _; intros; try beta_reduce))

end Sys2Proof.Machine
end

