-- ==== Sys2Proof/Laws/KeepsFirmware.lean ====
section
/-! SUPPORT. What the operations of Machine/Firmware.lean keep. -/

namespace Sys2Proof.Machine

theorem State.setSlot_keeps {pts : List Part} (hw : Within [.security] pts) {bef : State} {s : State} (k : Nat) (st : SlotSt)
    (img : List Byte) (h : bef.Keeps pts s) : bef.Keeps pts (State.setSlot s k st img) := by
  unfold State.setSlot
  repeat' (first
    | with_reducible assumption | ((with_reducible refine Within.sub hw ?_); decide)
    | (fail_if_no_progress extract_lets -underBinder -merge -useContext +onlyGivenNames z
       first
       | (refine keeps_cut (s := z) ?_ ?_; (on_goal 1 => unfold z); on_goal 2 => (intro _; try clear_value z))
       | try clear_value z)
    | with_reducible apply keeps_ite | with_reducible apply keeps_ite_snd | split
    | ((with_reducible refine State.keeps_mk hw (by assumption) rfl ?_)
       intro p; cases p <;> (first | exact .inl (by decide) | exact .inr rfl))
    | (intro _; intros; try beta_reduce))

theorem State.slotTo_keeps {pts : List Part} (hw : Within [.security] pts) {bef : State} {s : State} (k : Nat) (st : SlotSt)
    (h : bef.Keeps pts s) : bef.Keeps pts (State.slotTo s k st) := by
  unfold State.slotTo
  repeat' (first
    | with_reducible assumption | ((with_reducible refine Within.sub hw ?_); decide)
    | with_reducible apply State.setSlot_keeps | with_reducible apply keeps_ite | with_reducible apply keeps_ite_snd | split
    | (intro _; intros; try beta_reduce))

theorem State.trySlot_keeps {pts : List Part} (hw : Within [.od, .security] pts) {bef : State} {s : State} (k : Nat) (h :
    bef.Keeps pts s) : bef.Keeps pts (State.trySlot s k).1 := by
  unfold State.trySlot
  repeat' (first
    | with_reducible assumption | ((with_reducible refine Within.sub hw ?_); decide)
    | (fail_if_no_progress extract_lets -underBinder -merge -useContext +onlyGivenNames z
       first
       | (refine keeps_cut (s := z) ?_ ?_; (on_goal 1 => unfold z); on_goal 2 => (intro _; try clear_value z))
       | try clear_value z)
    | with_reducible apply State.slotTo_keeps | with_reducible apply State.bump_keeps | with_reducible apply keeps_ite
    | with_reducible apply keeps_ite_snd | split | (intro _; intros; try beta_reduce))

theorem State.bootSlot_keeps {pts : List Part} (hw : Within [.cores, .security] pts) {bef : State} {s : State} (k : Nat) (h :
    bef.Keeps pts s) : bef.Keeps pts (State.bootSlot s k) := by
  unfold State.bootSlot
  repeat' (first
    | with_reducible assumption | ((with_reducible refine Within.sub hw ?_); decide)
    | (fail_if_no_progress extract_lets -underBinder -merge -useContext +onlyGivenNames z
       first
       | (refine keeps_cut (s := z) ?_ ?_; (on_goal 1 => unfold z); on_goal 2 => (intro _; try clear_value z))
       | try clear_value z)
    | with_reducible apply State.modCore_keeps | with_reducible apply keeps_forRange | with_reducible apply keeps_ite
    | with_reducible apply keeps_ite_snd | split
    | ((with_reducible refine State.keeps_mk hw (by assumption) rfl ?_)
       intro p; cases p <;> (first | exact .inl (by decide) | exact .inr rfl))
    | (intro _; intros; try beta_reduce))

theorem State.verify_keeps {pts : List Part} (hw : Within [.od, .cores, .security] pts) {bef : State} {s : State} (h :
    bef.Keeps pts s) : bef.Keeps pts (State.verify s) := by
  unfold State.verify
  repeat' (first
    | with_reducible assumption | ((with_reducible refine Within.sub hw ?_); decide)
    | (fail_if_no_progress extract_lets -underBinder -merge -useContext +onlyGivenNames z
       first
       | (refine keeps_cut (s := z) ?_ ?_; (on_goal 1 => unfold z); on_goal 2 => (intro _; try clear_value z))
       | (refine keeps_cut (s := z.2) ?_ ?_; (on_goal 1 => unfold z); on_goal 2 => (intro _; try clear_value z))
       | (refine keeps_cut (s := z.1) ?_ ?_; (on_goal 1 => unfold z); on_goal 2 => (intro _; try clear_value z))
       | (refine keeps_cut (s := z.2.1) ?_ ?_; (on_goal 1 => unfold z); on_goal 2 => (intro _; try clear_value z))
       | try clear_value z)
    | with_reducible apply State.bootSlot_keeps | with_reducible apply State.trySlot_keeps
    | with_reducible apply State.boot_keeps | with_reducible apply keeps_ite | with_reducible apply keeps_ite_snd | split
    | (intro _; intros; try beta_reduce))

theorem execFirmwareVerified_keeps (dt : Nat) (s : State) :
    ∃ t, execFirmwareVerified dt s = .next t ∧ (s.elapse dt).Keeps [.od, .cores, .security] t := by
  unfold execFirmwareVerified
  refine ⟨_, rfl, ?_⟩
  have hw : Within [.od, .cores, .security] [.od, .cores, .security] := fun _ h => h
  have h := State.Keeps.refl [.od, .cores, .security] (s.elapse dt)
  generalize s.elapse dt = bef at h ⊢
  repeat' (first
    | with_reducible assumption | ((with_reducible refine Within.sub hw ?_); decide)
    | with_reducible apply State.verify_keeps | with_reducible apply keeps_ite | with_reducible apply keeps_ite_snd | split
    | (intro _; intros; try beta_reduce))

theorem State.trialConfirmAct_keeps {pts : List Part} (hw : Within [.security] pts) {bef : State} (v : Nat) {s : State} (h :
    bef.Keeps pts s) : bef.Keeps pts (State.trialConfirmAct v s).2 := by
  unfold State.trialConfirmAct
  repeat' (first
    | with_reducible assumption | ((with_reducible refine Within.sub hw ?_); decide)
    | (fail_if_no_progress extract_lets -underBinder -merge -useContext +onlyGivenNames z
       first
       | (refine keeps_cut (s := z) ?_ ?_; (on_goal 1 => unfold z); on_goal 2 => (intro _; try clear_value z))
       | try clear_value z)
    | with_reducible apply State.slotTo_keeps | with_reducible apply refuse_keeps | with_reducible apply accept_keeps
    | with_reducible apply keeps_ite | with_reducible apply keeps_ite_snd | split
    | ((with_reducible refine State.keeps_mk hw (by assumption) rfl ?_)
       intro p; cases p <;> (first | exact .inl (by decide) | exact .inr rfl))
    | (intro _; intros; try beta_reduce))

theorem execTrialConfirm_keeps (dt : Nat) (road : Road) (value : BitVec 8) (s : State) :
    ∃ t, execTrialConfirm dt road value s = .next t ∧ (s.elapse dt).Keeps [.out, .od, .hosts, .security, .events] t := by
  unfold execTrialConfirm
  refine ⟨_, rfl, ?_⟩
  have hw : Within [.out, .od, .hosts, .security, .events] [.out, .od, .hosts, .security, .events] := fun _ h => h
  have h := State.Keeps.refl [.out, .od, .hosts, .security, .events] (s.elapse dt)
  generalize s.elapse dt = bef at h ⊢
  repeat' (first
    | with_reducible assumption | ((with_reducible refine Within.sub hw ?_); decide)
    | with_reducible apply State.trialConfirmAct_keeps | with_reducible apply State.writeRow_keeps
    | with_reducible apply keeps_ite | with_reducible apply keeps_ite_snd | split | (intro _; intros; try beta_reduce))

theorem State.trialTimeout_keeps {pts : List Part} (hw : Within (Part.allBut [.out, .free]) pts) {bef : State} {s : State} (h
    : bef.Keeps pts s) : bef.Keeps pts (State.trialTimeout s) := by
  unfold State.trialTimeout
  repeat' (first
    | with_reducible assumption | ((with_reducible refine Within.sub hw ?_); decide)
    | (fail_if_no_progress extract_lets -underBinder -merge -useContext +onlyGivenNames z
       first
       | (refine keeps_cut (s := z) ?_ ?_; (on_goal 1 => unfold z); on_goal 2 => (intro _; try clear_value z))
       | try clear_value z)
    | with_reducible apply State.slotTo_keeps | with_reducible apply State.boot_keeps | with_reducible apply keeps_ite
    | with_reducible apply keeps_ite_snd | split
    | ((with_reducible refine State.keeps_mk hw (by assumption) rfl ?_)
       intro p; cases p <;> (first | exact .inl (by decide) | exact .inr rfl))
    | (intro _; intros; try beta_reduce))

theorem execTrialTimeout_keeps (dt : Nat) (s : State) :
    ∃ t, execTrialTimeout dt s = .next t ∧ (s.elapse dt).Keeps (Part.allBut [.out, .free]) t := by
  unfold execTrialTimeout
  refine ⟨_, rfl, ?_⟩
  have hw : Within (Part.allBut [.out, .free]) (Part.allBut [.out, .free]) := fun _ h => h
  have h := State.Keeps.refl (Part.allBut [.out, .free]) (s.elapse dt)
  generalize s.elapse dt = bef at h ⊢
  repeat' (first
    | with_reducible assumption | ((with_reducible refine Within.sub hw ?_); decide)
    | with_reducible apply State.trialTimeout_keeps | with_reducible apply keeps_ite | with_reducible apply keeps_ite_snd
    | split | (intro _; intros; try beta_reduce))

theorem State.writeSlot_keeps {pts : List Part} (hw : Within [.od, .security] pts) {bef : State} {s : State} (k : Nat) (img :
    List Byte) (h : bef.Keeps pts s) : bef.Keeps pts (State.writeSlot s k img).1 := by
  unfold State.writeSlot
  repeat' (first
    | with_reducible assumption | ((with_reducible refine Within.sub hw ?_); decide)
    | with_reducible apply State.setSlot_keeps | with_reducible apply State.setVal_keeps | with_reducible apply keeps_ite
    | with_reducible apply keeps_ite_snd | split | (intro _; intros; try beta_reduce))

theorem State.foeWrite_keeps {pts : List Part} (hw : Within [.out, .od, .hosts, .security, .events] pts) {bef : State} {s :
    State} (name : List Byte) (img : List Byte) (interrupted : Bool) (h : bef.Keeps pts s) : bef.Keeps pts (State.foeWrite s
    name img interrupted) := by
  unfold State.foeWrite
  repeat' (first
    | with_reducible assumption | ((with_reducible refine Within.sub hw ?_); decide)
    | (fail_if_no_progress extract_lets -underBinder -merge -useContext +onlyGivenNames z
       first
       | (refine keeps_cut (s := z) ?_ ?_; (on_goal 1 => unfold z); on_goal 2 => (intro _; try clear_value z))
       | (refine keeps_cut (s := z.2) ?_ ?_; (on_goal 1 => unfold z); on_goal 2 => (intro _; try clear_value z))
       | (refine keeps_cut (s := z.1) ?_ ?_; (on_goal 1 => unfold z); on_goal 2 => (intro _; try clear_value z))
       | (refine keeps_cut (s := z.2.1) ?_ ?_; (on_goal 1 => unfold z); on_goal 2 => (intro _; try clear_value z))
       | try clear_value z)
    | with_reducible apply State.writeSlot_keeps | with_reducible apply State.setSlot_keeps
    | with_reducible apply State.denyEntry_keeps | with_reducible apply State.emit_keeps | with_reducible apply keeps_ite
    | with_reducible apply keeps_ite_snd | split
    | ((with_reducible refine State.keeps_mk hw (by assumption) rfl ?_)
       intro p; cases p <;> (first | exact .inl (by decide) | exact .inr rfl))
    | (intro _; intros; try beta_reduce))

theorem execFoeWrite_keeps (dt : Nat) (name : List Byte) (image : List Byte) (interrupted : Bool) (s : State) :
    ∃ t, execFoeWrite dt name image interrupted s = .next t ∧ (s.elapse dt).Keeps [.out, .od, .hosts, .security, .events] t
        := by
  unfold execFoeWrite
  refine ⟨_, rfl, ?_⟩
  have hw : Within [.out, .od, .hosts, .security, .events] [.out, .od, .hosts, .security, .events] := fun _ h => h
  have h := State.Keeps.refl [.out, .od, .hosts, .security, .events] (s.elapse dt)
  generalize s.elapse dt = bef at h ⊢
  repeat' (first
    | with_reducible assumption | ((with_reducible refine Within.sub hw ?_); decide)
    | with_reducible apply State.foeWrite_keeps | with_reducible apply keeps_ite | with_reducible apply keeps_ite_snd
    | split | (intro _; intros; try beta_reduce))

theorem State.firmwareRq_keeps {pts : List Part} (hw : Within [.out, .od, .mem, .hosts, .security, .events, .free] pts) {bef
    : State} (r : Rq) {s : State} (h : bef.Keeps pts s) : bef.Keeps pts (State.firmwareRq r s) := by
  unfold State.firmwareRq
  repeat' (first
    | with_reducible assumption | ((with_reducible refine Within.sub hw ?_); decide)
    | (fail_if_no_progress extract_lets -underBinder -merge -useContext +onlyGivenNames z
       first
       | (refine keeps_cut (s := z) ?_ ?_; (on_goal 1 => unfold z); on_goal 2 => (intro _; try clear_value z))
       | (refine keeps_cut (s := z.2) ?_ ?_; (on_goal 1 => unfold z); on_goal 2 => (intro _; try clear_value z))
       | (refine keeps_cut (s := z.1) ?_ ?_; (on_goal 1 => unfold z); on_goal 2 => (intro _; try clear_value z))
       | (refine keeps_cut (s := z.2.1) ?_ ?_; (on_goal 1 => unfold z); on_goal 2 => (intro _; try clear_value z))
       | try clear_value z)
    | with_reducible apply State.writeSlot_keeps | with_reducible apply State.answerDenied_keeps
    | with_reducible apply State.answer_keeps | with_reducible apply State.takeFree_keeps | with_reducible apply keeps_ite
    | with_reducible apply keeps_ite_snd | split
    | ((with_reducible refine State.keeps_mk hw (by assumption) rfl ?_)
       intro p; cases p <;> (first | exact .inl (by decide) | exact .inr rfl))
    | (intro _; intros; try beta_reduce))

theorem execFirmware_keeps (dt : Nat) (s : State) :
    ∃ t, execFirmware dt s = .next t ∧ (s.elapse dt).Keeps [.out, .od, .mem, .hosts, .round, .security, .events, .free] t := by
  unfold execFirmware
  refine ⟨_, rfl, ?_⟩
  have hw : Within [.out, .od, .mem, .hosts, .round, .security, .events, .free] [.out, .od, .mem, .hosts, .round, .security,
      .events, .free] := fun _ h => h
  have h := State.Keeps.refl [.out, .od, .mem, .hosts, .round, .security, .events, .free] (s.elapse dt)
  generalize s.elapse dt = bef at h ⊢
  repeat' (first
    | with_reducible assumption | ((with_reducible refine Within.sub hw ?_); decide)
    | with_reducible apply State.firmwareRq_keeps | with_reducible apply State.serve_keeps | with_reducible apply keeps_ite
    | with_reducible apply keeps_ite_snd | split | (intro _; intros; try beta_reduce))

theorem State.commitAct_keeps {pts : List Part} (hw : Within [.od] pts) {bef : State} (v : Nat) {s : State} (h : bef.Keeps
    pts s) : bef.Keeps pts (State.commitAct v s).2 := by
  unfold State.commitAct
  repeat' (first
    | with_reducible assumption | ((with_reducible refine Within.sub hw ?_); decide)
    | (fail_if_no_progress extract_lets -underBinder -merge -useContext +onlyGivenNames z
       first
       | (refine keeps_cut (s := z) ?_ ?_; (on_goal 1 => unfold z); on_goal 2 => (intro _; try clear_value z))
       | try clear_value z)
    | with_reducible apply refuse_keeps | with_reducible apply accept_keeps | with_reducible apply State.raiseTo_keeps
    | with_reducible apply keeps_ite | with_reducible apply keeps_ite_snd | split | (intro _; intros; try beta_reduce))

theorem execCommitSecurityVersion_keeps (dt : Nat) (road : Road) (value : BitVec 8) (s : State) :
    ∃ t, execCommitSecurityVersion dt road value s = .next t ∧ (s.elapse dt).Keeps [.out, .od, .hosts, .events] t := by
  unfold execCommitSecurityVersion
  refine ⟨_, rfl, ?_⟩
  have hw : Within [.out, .od, .hosts, .events] [.out, .od, .hosts, .events] := fun _ h => h
  have h := State.Keeps.refl [.out, .od, .hosts, .events] (s.elapse dt)
  generalize s.elapse dt = bef at h ⊢
  repeat' (first
    | with_reducible assumption | ((with_reducible refine Within.sub hw ?_); decide)
    | with_reducible apply State.commitAct_keeps | with_reducible apply State.writeRow_keeps
    | with_reducible apply keeps_ite | with_reducible apply keeps_ite_snd | split | (intro _; intros; try beta_reduce))

theorem State.microcodeAct_keeps {pts : List Part} (hw : Within [.od, .units, .cores, .engines, .jobs, .hosts, .security,
    .events] pts) {bef : State} (c : Nat) {s : State} (h : bef.Keeps pts s) : bef.Keeps pts (State.microcodeAct c s).2 := by
  unfold State.microcodeAct
  repeat' (first
    | with_reducible assumption | ((with_reducible refine Within.sub hw ?_); decide)
    | (fail_if_no_progress extract_lets -underBinder -merge -useContext +onlyGivenNames z
       first
       | (refine keeps_cut (s := z) ?_ ?_; (on_goal 1 => unfold z); on_goal 2 => (intro _; try clear_value z))
       | try clear_value z)
    | with_reducible apply refuse_keeps | with_reducible apply accept_keeps | with_reducible apply State.leave_keeps
    | with_reducible apply keeps_ite | with_reducible apply keeps_ite_snd | split
    | ((with_reducible refine State.keeps_mk hw (by assumption) rfl ?_)
       intro p; cases p <;> (first | exact .inl (by decide) | exact .inr rfl))
    | (intro _; intros; try beta_reduce))

theorem execMicrocodeUpdateCore_keeps (dt : Nat) (road : Road) (value : BitVec 8) (s : State) :
    ∃ t, execMicrocodeUpdateCore dt road value s = .next t ∧ (s.elapse dt).Keeps [.out, .od, .units, .cores, .engines, .jobs,
        .hosts, .security, .events] t := by
  unfold execMicrocodeUpdateCore
  refine ⟨_, rfl, ?_⟩
  have hw : Within [.out, .od, .units, .cores, .engines, .jobs, .hosts, .security, .events] [.out, .od, .units, .cores,
      .engines, .jobs, .hosts, .security, .events] := fun _ h => h
  have h := State.Keeps.refl [.out, .od, .units, .cores, .engines, .jobs, .hosts, .security, .events] (s.elapse dt)
  generalize s.elapse dt = bef at h ⊢
  repeat' (first
    | with_reducible assumption | ((with_reducible refine Within.sub hw ?_); decide)
    | with_reducible apply State.microcodeAct_keeps | with_reducible apply State.writeRow_keeps
    | with_reducible apply keeps_ite | with_reducible apply keeps_ite_snd | split | (intro _; intros; try beta_reduce))

theorem State.microcodeDone_keeps {pts : List Part} (hw : Within [.od, .units, .cores, .epoch, .hosts, .security, .loops,
    .convs, .events] pts) {bef : State} {s : State} (c : Nat) (passed : Bool) (h : bef.Keeps pts s) : bef.Keeps pts
    (State.microcodeDone s c passed) := by
  unfold State.microcodeDone
  repeat' (first
    | with_reducible assumption | ((with_reducible refine Within.sub hw ?_); decide)
    | (fail_if_no_progress extract_lets -underBinder -merge -useContext +onlyGivenNames z
       first
       | (refine keeps_cut (s := z) ?_ ?_; (on_goal 1 => unfold z); on_goal 2 => (intro _; try clear_value z))
       | try clear_value z)
    | with_reducible apply State.setUnit_keeps | with_reducible apply State.modCore_keeps | with_reducible apply keeps_ite
    | with_reducible apply keeps_ite_snd | split
    | ((with_reducible refine State.keeps_mk hw (by assumption) rfl ?_)
       intro p; cases p <;> (first | exact .inl (by decide) | exact .inr rfl))
    | (intro _; intros; try beta_reduce))

theorem execMicrocodeUpdateDone_keeps (dt : Nat) (core : Fin 16) (passed : Bool) (s : State) :
    ∃ t, execMicrocodeUpdateDone dt core passed s = .next t ∧ (s.elapse dt).Keeps [.od, .units, .cores, .epoch, .hosts,
        .security, .loops, .convs, .events] t := by
  unfold execMicrocodeUpdateDone
  refine ⟨_, rfl, ?_⟩
  have hw : Within [.od, .units, .cores, .epoch, .hosts, .security, .loops, .convs, .events] [.od, .units, .cores, .epoch,
      .hosts, .security, .loops, .convs, .events] := fun _ h => h
  have h := State.Keeps.refl [.od, .units, .cores, .epoch, .hosts, .security, .loops, .convs, .events] (s.elapse dt)
  generalize s.elapse dt = bef at h ⊢
  repeat' (first
    | with_reducible assumption | ((with_reducible refine Within.sub hw ?_); decide)
    | with_reducible apply State.microcodeDone_keeps | with_reducible apply keeps_ite | with_reducible apply keeps_ite_snd
    | split | (intro _; intros; try beta_reduce))

end Sys2Proof.Machine
end

