-- ==== Sys2Proof/Laws/KeepsTwin.lean ====
section
/-! SUPPORT. What the operations of Machine/Twin.lean keep. -/

namespace Sys2Proof.Machine

theorem State.take_keeps {pts : List Part} (hw : Within [.od] pts) {bef : State} {s : State} (type : Nat) (f : TwinFrame)
    (act : State → State) (h : bef.Keeps pts s) (hact : ∀ y0, bef.Keeps pts y0 → bef.Keeps pts (act y0)) : bef.Keeps pts
    (State.take s type f act) := by
  unfold State.take
  repeat' (first
    | with_reducible assumption | with_reducible apply hact | ((with_reducible refine Within.sub hw ?_); decide)
    | with_reducible apply State.bump_keeps | with_reducible apply keeps_ite | with_reducible apply keeps_ite_snd | split
    | (intro _; intros; try beta_reduce))

theorem State.onTwinPort_keeps {pts : List Part} (hw : Within [.od] pts) {bef : State} {s : State} (i : Nat) (type : Nat) (f
    : TwinFrame) (act : State → State) (h : bef.Keeps pts s) (hact : ∀ y0, bef.Keeps pts y0 → bef.Keeps pts (act y0)) :
    bef.Keeps pts (State.onTwinPort s i type f act) := by
  unfold State.onTwinPort
  repeat' (first
    | with_reducible assumption | with_reducible apply hact | ((with_reducible refine Within.sub hw ?_); decide)
    | with_reducible apply State.take_keeps | with_reducible apply keeps_ite | with_reducible apply keeps_ite_snd | split
    | (intro _; intros; try beta_reduce))

theorem State.onPath_keeps {pts : List Part} (hw : Within [.od] pts) {bef : State} {s : State} (src : BitVec 128) (type :
    Nat) (f : TwinFrame) (act : State → State) (h : bef.Keeps pts s) (hact : ∀ y0, bef.Keeps pts y0 → bef.Keeps pts (act y0))
    : bef.Keeps pts (State.onPath s src type f act) := by
  unfold State.onPath
  repeat' (first
    | with_reducible assumption | with_reducible apply hact | ((with_reducible refine Within.sub hw ?_); decide)
    | with_reducible apply State.take_keeps | with_reducible apply keeps_ite | with_reducible apply keeps_ite_snd | split
    | (intro _; intros; try beta_reduce))

theorem State.sendHello_keeps {pts : List Part} (hw : Within [.out, .twin] pts) {bef : State} {s : State} (h : bef.Keeps pts
    s) : bef.Keeps pts (State.sendHello s) := by
  unfold State.sendHello
  repeat' (first
    | with_reducible assumption | ((with_reducible refine Within.sub hw ?_); decide)
    | with_reducible apply State.nextSequence_keeps | with_reducible apply State.emit_keeps
    | with_reducible apply keeps_forRange | with_reducible apply keeps_ite | with_reducible apply keeps_ite_snd | split
    | (intro _; intros; try beta_reduce))

theorem State.startHello_keeps {pts : List Part} (hw : Within [.out, .od, .twin, .free] pts) {bef : State} {s : State} (h :
    bef.Keeps pts s) : bef.Keeps pts (State.startHello s) := by
  unfold State.startHello
  repeat' (first
    | with_reducible assumption | ((with_reducible refine Within.sub hw ?_); decide)
    | (fail_if_no_progress extract_lets -underBinder -merge -useContext +onlyGivenNames z
       first
       | (refine keeps_cut (s := z) ?_ ?_; (on_goal 1 => unfold z); on_goal 2 => (intro _; try clear_value z))
       | try clear_value z)
    | with_reducible apply State.sendHello_keeps | with_reducible apply State.setVal_keeps
    | with_reducible apply State.takeFree_keeps | with_reducible apply keeps_ite | with_reducible apply keeps_ite_snd
    | split
    | ((with_reducible refine State.keeps_mk hw (by assumption) rfl ?_)
       intro p; cases p <;> (first | exact .inl (by decide) | exact .inr rfl))
    | (intro _; intros; try beta_reduce))

theorem State.enterForming_keeps {pts : List Part} (hw : Within [.out, .od, .twin, .hosts, .events, .free] pts) {bef : State}
    {s : State} (h : bef.Keeps pts s) : bef.Keeps pts (State.enterForming s) := by
  unfold State.enterForming
  repeat' (first
    | with_reducible assumption | ((with_reducible refine Within.sub hw ?_); decide)
    | (fail_if_no_progress extract_lets -underBinder -merge -useContext +onlyGivenNames z
       first
       | (refine keeps_cut (s := z) ?_ ?_; (on_goal 1 => unfold z); on_goal 2 => (intro _; try clear_value z))
       | try clear_value z)
    | with_reducible apply State.startHello_keeps | with_reducible apply State.twinSet_keeps
    | with_reducible apply State.bump_keeps | with_reducible apply keeps_ite | with_reducible apply keeps_ite_snd | split
    | (intro _; intros; try beta_reduce))

theorem State.matchPort_keeps {pts : List Part} (hw : Within [.od, .twin] pts) {bef : State} {s : State} (i : Nat) (f :
    TwinFrame) (h : bef.Keeps pts s) : bef.Keeps pts (State.matchPort s i f) := by
  unfold State.matchPort
  repeat' (first
    | with_reducible assumption | ((with_reducible refine Within.sub hw ?_); decide)
    | (fail_if_no_progress extract_lets -underBinder -merge -useContext +onlyGivenNames z
       first
       | (refine keeps_cut (s := z) ?_ ?_; (on_goal 1 => unfold z); on_goal 2 => (intro _; try clear_value z))
       | try clear_value z)
    | with_reducible apply State.bump_keeps | with_reducible apply keeps_ite | with_reducible apply keeps_ite_snd | split
    | ((with_reducible refine State.keeps_mk hw (by assumption) rfl ?_)
       intro p; cases p <;> (first | exact .inl (by decide) | exact .inr rfl))
    | (intro _; intros; try beta_reduce))

theorem State.answerHello_keeps {pts : List Part} (hw : Within [.out, .od, .twin, .hosts, .security, .events] pts) {bef :
    State} {s : State} (h : bef.Keeps pts s) : bef.Keeps pts (State.answerHello s) := by
  unfold State.answerHello
  repeat' (first
    | with_reducible assumption | ((with_reducible refine Within.sub hw ?_); decide)
    | (fail_if_no_progress extract_lets -underBinder -merge -useContext +onlyGivenNames z
       first
       | (refine keeps_cut (s := z) ?_ ?_; (on_goal 1 => unfold z); on_goal 2 => (intro _; try clear_value z))
       | try clear_value z)
    | with_reducible apply State.signed_keeps | with_reducible apply State.nextSequence_keeps
    | with_reducible apply State.emit_keeps | with_reducible apply keeps_ite | with_reducible apply keeps_ite_snd | split
    | ((with_reducible refine State.keeps_mk hw (by assumption) rfl ?_)
       intro p; cases p <;> (first | exact .inl (by decide) | exact .inr rfl))
    | (intro _; intros; try beta_reduce))

theorem State.hello_keeps {pts : List Part} (hw : Within [.out, .od, .twin, .hosts, .security, .events, .free] pts) {bef :
    State} {s : State} (i : Nat) (f : TwinFrame) (h : bef.Keeps pts s) : bef.Keeps pts (State.hello s i f) := by
  unfold State.hello
  repeat' (first
    | with_reducible assumption | ((with_reducible refine Within.sub hw ?_); decide)
    | (fail_if_no_progress extract_lets -underBinder -merge -useContext +onlyGivenNames z
       first
       | (refine keeps_cut (s := z) ?_ ?_; (on_goal 1 => unfold z); on_goal 2 => (intro _; try clear_value z))
       | try clear_value z)
    | with_reducible apply State.answerHello_keeps | with_reducible apply State.matchPort_keeps
    | with_reducible apply State.enterForming_keeps | with_reducible apply State.drop_keeps
    | with_reducible apply State.bump_keeps | with_reducible apply keeps_ite | with_reducible apply keeps_ite_snd | split
    | ((with_reducible refine State.keeps_mk hw (by assumption) rfl ?_)
       intro p; cases p <;> (first | exact .inl (by decide) | exact .inr rfl))
    | (intro _; intros; try beta_reduce))

theorem execHello_keeps (dt : Nat) (port : Fin 8) (frame : TwinFrame) (s : State) :
    ∃ t, execHello dt port frame s = .next t ∧ (s.elapse dt).Keeps [.out, .od, .twin, .hosts, .security, .events, .free] t := by
  unfold execHello
  refine ⟨_, rfl, ?_⟩
  have hw : Within [.out, .od, .twin, .hosts, .security, .events, .free] [.out, .od, .twin, .hosts, .security, .events,
      .free] := fun _ h => h
  have h := State.Keeps.refl [.out, .od, .twin, .hosts, .security, .events, .free] (s.elapse dt)
  generalize s.elapse dt = bef at h ⊢
  repeat' (first
    | with_reducible assumption | ((with_reducible refine Within.sub hw ?_); decide)
    | with_reducible apply State.hello_keeps | with_reducible apply State.onTwinPort_keeps | with_reducible apply keeps_ite
    | with_reducible apply keeps_ite_snd | split | (intro _; intros; try beta_reduce))

theorem execSignatureIntervalEnd_keeps (dt : Nat) (s : State) :
    ∃ t, execSignatureIntervalEnd dt s = .next t ∧ (s.elapse dt).Keeps [.out, .od, .twin, .hosts, .security, .events] t := by
  unfold execSignatureIntervalEnd
  refine ⟨_, rfl, ?_⟩
  have hw : Within [.out, .od, .twin, .hosts, .security, .events] [.out, .od, .twin, .hosts, .security, .events] := fun _ h => h
  have h := State.Keeps.refl [.out, .od, .twin, .hosts, .security, .events] (s.elapse dt)
  generalize s.elapse dt = bef at h ⊢
  repeat' (first
    | with_reducible assumption | ((with_reducible refine Within.sub hw ?_); decide)
    | with_reducible apply State.answerHello_keeps | with_reducible apply keeps_ite | with_reducible apply keeps_ite_snd
    | split | (intro _; intros; try beta_reduce))

theorem State.helloAnswer_keeps {pts : List Part} (hw : Within [.od, .twin] pts) {bef : State} {s : State} (i : Nat) (f :
    TwinFrame) (cert : List Byte) (geometry : List Nat) (h : bef.Keeps pts s) : bef.Keeps pts (State.helloAnswer s i f cert
    geometry) := by
  unfold State.helloAnswer
  repeat' (first
    | with_reducible assumption | ((with_reducible refine Within.sub hw ?_); decide)
    | (fail_if_no_progress extract_lets -underBinder -merge -useContext +onlyGivenNames z
       first
       | (refine keeps_cut (s := z) ?_ ?_; (on_goal 1 => unfold z); on_goal 2 => (intro _; try clear_value z))
       | try clear_value z)
    | with_reducible apply State.matchPort_keeps | with_reducible apply State.take_keeps
    | with_reducible apply State.setVal_keeps | with_reducible apply keeps_ite | with_reducible apply keeps_ite_snd | split
    | ((with_reducible refine State.keeps_mk hw (by assumption) rfl ?_)
       intro p; cases p <;> (first | exact .inl (by decide) | exact .inr rfl))
    | (intro _; intros; try beta_reduce))

theorem execHelloAnswer_keeps (dt : Nat) (port : Fin 8) (frame : TwinFrame) (certificate : List Byte) (geometry : List Nat)
    (s : State) :
    ∃ t, execHelloAnswer dt port frame certificate geometry s = .next t ∧ (s.elapse dt).Keeps [.od, .twin] t := by
  unfold execHelloAnswer
  refine ⟨_, rfl, ?_⟩
  have hw : Within [.od, .twin] [.od, .twin] := fun _ h => h
  have h := State.Keeps.refl [.od, .twin] (s.elapse dt)
  generalize s.elapse dt = bef at h ⊢
  repeat' (first
    | with_reducible assumption | ((with_reducible refine Within.sub hw ?_); decide)
    | with_reducible apply State.helloAnswer_keeps | with_reducible apply State.onTwinPort_keeps
    | with_reducible apply keeps_ite | with_reducible apply keeps_ite_snd | split | (intro _; intros; try beta_reduce))

theorem execFormationTimeout_keeps (dt : Nat) (s : State) :
    ∃ t, execFormationTimeout dt s = .next t ∧ (s.elapse dt).Keeps [.out, .od, .twin, .free] t := by
  unfold execFormationTimeout
  refine ⟨_, rfl, ?_⟩
  have hw : Within [.out, .od, .twin, .free] [.out, .od, .twin, .free] := fun _ h => h
  have h := State.Keeps.refl [.out, .od, .twin, .free] (s.elapse dt)
  generalize s.elapse dt = bef at h ⊢
  repeat' (first
    | with_reducible assumption | ((with_reducible refine Within.sub hw ?_); decide)
    | (fail_if_no_progress extract_lets -underBinder -merge -useContext +onlyGivenNames z
       first
       | (refine keeps_cut (s := z) ?_ ?_; (on_goal 1 => unfold z); on_goal 2 => (intro _; try clear_value z))
       | try clear_value z)
    | with_reducible apply State.startHello_keeps | with_reducible apply State.bump_keeps | with_reducible apply keeps_ite
    | with_reducible apply keeps_ite_snd | split | (intro _; intros; try beta_reduce))

theorem State.asymmetry_keeps {pts : List Part} (hw : Within [.out, .od, .jobs, .streams, .twin, .hosts, .events, .free] pts)
    {bef : State} {s : State} (a : List Int) (h : bef.Keeps pts s) : bef.Keeps pts (State.asymmetry s a) := by
  unfold State.asymmetry
  repeat' (first
    | with_reducible assumption | ((with_reducible refine Within.sub hw ?_); decide)
    | (fail_if_no_progress extract_lets -underBinder -merge -useContext +onlyGivenNames z
       first
       | (refine keeps_cut (s := z) ?_ ?_; (on_goal 1 => unfold z); on_goal 2 => (intro _; try clear_value z))
       | try clear_value z)
    | with_reducible apply State.enterSyncing_keeps | with_reducible apply State.setVal_keeps
    | with_reducible apply State.takeFree_keeps | with_reducible apply keeps_foldl | with_reducible apply keeps_ite
    | with_reducible apply keeps_ite_snd | split
    | ((with_reducible refine State.keeps_mk hw (by assumption) rfl ?_)
       intro p; cases p <;> (first | exact .inl (by decide) | exact .inr rfl))
    | (intro _; intros; try beta_reduce))

theorem execAsymmetryMeasured_keeps (dt : Nat) (asymmetry : List Int) (s : State) :
    ∃ t, execAsymmetryMeasured dt asymmetry s = .next t ∧ (s.elapse dt).Keeps [.out, .od, .jobs, .streams, .twin, .hosts,
        .events, .free] t := by
  unfold execAsymmetryMeasured
  refine ⟨_, rfl, ?_⟩
  have hw : Within [.out, .od, .jobs, .streams, .twin, .hosts, .events, .free] [.out, .od, .jobs, .streams, .twin, .hosts,
      .events, .free] := fun _ h => h
  have h := State.Keeps.refl [.out, .od, .jobs, .streams, .twin, .hosts, .events, .free] (s.elapse dt)
  generalize s.elapse dt = bef at h ⊢
  repeat' (first
    | with_reducible assumption | ((with_reducible refine Within.sub hw ?_); decide)
    | with_reducible apply State.asymmetry_keeps | with_reducible apply keeps_ite | with_reducible apply keeps_ite_snd
    | split | (intro _; intros; try beta_reduce))

theorem State.selfFence_keeps {pts : List Part} (hw : Within [.run, .od, .sched, .twin, .hosts, .events] pts) {bef : State}
    {s : State} (h : bef.Keeps pts s) : bef.Keeps pts (State.selfFence s) := by
  unfold State.selfFence
  repeat' (first
    | with_reducible assumption | ((with_reducible refine Within.sub hw ?_); decide)
    | with_reducible apply State.toSafe_keeps | with_reducible apply State.twinSet_keeps | with_reducible apply keeps_ite
    | with_reducible apply keeps_ite_snd | split | (intro _; intros; try beta_reduce))

theorem State.leaveFence_keeps {pts : List Part} (hw : Within [.run, .od, .units, .cores, .hosts, .loops, .convs,
    .cartridges, .events] pts) {bef : State} {s : State} (h : bef.Keeps pts s) : bef.Keeps pts (State.leaveFence s) := by
  unfold State.leaveFence
  repeat' (first
    | with_reducible assumption | ((with_reducible refine Within.sub hw ?_); decide)
    | (fail_if_no_progress extract_lets -underBinder -merge -useContext +onlyGivenNames z
       first
       | (refine keeps_cut (s := z) ?_ ?_; (on_goal 1 => unfold z); on_goal 2 => (intro _; try clear_value z))
       | try clear_value z)
    | with_reducible apply State.startWarming_keeps | with_reducible apply State.stopJobs_keeps
    | with_reducible apply keeps_ite | with_reducible apply keeps_ite_snd | split
    | ((with_reducible refine State.keeps_mk hw (by assumption) rfl ?_)
       intro p; cases p <;> (first | exact .inl (by decide) | exact .inr rfl))
    | (intro _; intros; try beta_reduce))

theorem State.regain_keeps {pts : List Part} (hw : Within [.out, .run, .od, .units, .cores, .jobs, .streams, .twin, .hosts,
    .loops, .convs, .cartridges, .events] pts) {bef : State} {s : State} (partner : Nat) (h : bef.Keeps pts s) : bef.Keeps
    pts (State.regain s partner) := by
  unfold State.regain
  repeat' (first
    | with_reducible assumption | ((with_reducible refine Within.sub hw ?_); decide)
    | (fail_if_no_progress extract_lets -underBinder -merge -useContext +onlyGivenNames z
       first
       | (refine keeps_cut (s := z) ?_ ?_; (on_goal 1 => unfold z); on_goal 2 => (intro _; try clear_value z))
       | try clear_value z)
    | with_reducible apply State.leaveFence_keeps | with_reducible apply State.handStream_keeps
    | with_reducible apply State.enterSyncing_keeps | with_reducible apply keeps_foldl | with_reducible apply keeps_ite
    | with_reducible apply keeps_ite_snd | split
    | ((with_reducible refine State.keeps_mk hw (by assumption) rfl ?_)
       intro p; cases p <;> (first | exact .inl (by decide) | exact .inr rfl))
    | (intro _; intros; try beta_reduce))

theorem State.settlePair_keeps {pts : List Part} (hw : Within [.od, .twin, .hosts, .events] pts) {bef : State} {s : State} (h
    : bef.Keeps pts s) : bef.Keeps pts (State.settlePair s) := by
  unfold State.settlePair
  repeat' (first
    | with_reducible assumption | ((with_reducible refine Within.sub hw ?_); decide)
    | (fail_if_no_progress extract_lets -underBinder -merge -useContext +onlyGivenNames z
       first
       | (refine keeps_cut (s := z) ?_ ?_; (on_goal 1 => unfold z); on_goal 2 => (intro _; try clear_value z))
       | try clear_value z)
    | with_reducible apply State.twinSet_keeps | with_reducible apply keeps_ite | with_reducible apply keeps_ite_snd | split
    | ((with_reducible refine State.keeps_mk hw (by assumption) rfl ?_)
       intro p; cases p <;> (first | exact .inl (by decide) | exact .inr rfl))
    | (intro _; intros; try beta_reduce))

theorem State.takeHandover_keeps {pts : List Part} (hw : Within [.out, .od, .mem, .streams, .sched, .twin, .hosts] pts) {bef
    : State} {s : State} (h : bef.Keeps pts s) : bef.Keeps pts (State.takeHandover s) := by
  unfold State.takeHandover
  repeat' (first
    | with_reducible assumption | ((with_reducible refine Within.sub hw ?_); decide)
    | with_reducible apply State.adoptAll_keeps | with_reducible apply keeps_ite | with_reducible apply keeps_ite_snd
    | split | (intro _; intros; try beta_reduce))

theorem State.sendBeats_keeps {pts : List Part} (hw : Within [.out, .od, .twin] pts) {bef : State} {s : State} (h : bef.Keeps
    pts s) : bef.Keeps pts (State.sendBeats s) := by
  unfold State.sendBeats
  repeat' (first
    | with_reducible assumption | ((with_reducible refine Within.sub hw ?_); decide)
    | (fail_if_no_progress extract_lets -underBinder -merge -useContext +onlyGivenNames z
       first
       | (refine keeps_cut (s := z) ?_ ?_; (on_goal 1 => unfold z); on_goal 2 => (intro _; try clear_value z))
       | try clear_value z)
    | with_reducible apply State.sendTwin_keeps | with_reducible apply State.bump_keeps | with_reducible apply keeps_ite
    | with_reducible apply keeps_ite_snd | split | (intro _; intros; try beta_reduce))

theorem execHeartbeatInterval_keeps (dt : Nat) (s : State) :
    ∃ t, execHeartbeatInterval dt s = .next t ∧ (s.elapse dt).Keeps [.out, .od, .twin] t := by
  unfold execHeartbeatInterval
  refine ⟨_, rfl, ?_⟩
  have hw : Within [.out, .od, .twin] [.out, .od, .twin] := fun _ h => h
  have h := State.Keeps.refl [.out, .od, .twin] (s.elapse dt)
  generalize s.elapse dt = bef at h ⊢
  repeat' (first
    | with_reducible assumption | ((with_reducible refine Within.sub hw ?_); decide)
    | with_reducible apply State.sendBeats_keeps | with_reducible apply keeps_ite | with_reducible apply keeps_ite_snd
    | split | (intro _; intros; try beta_reduce))

theorem State.measureTwin_keeps {pts : List Part} (hw : Within [.time, .od, .hosts, .security, .events, .free] pts) {bef :
    State} {s : State} (i : Nat) (f : TwinFrame) (h : bef.Keeps pts s) : bef.Keeps pts (State.measureTwin s i f) := by
  unfold State.measureTwin
  repeat' (first
    | with_reducible assumption | ((with_reducible refine Within.sub hw ?_); decide)
    | (fail_if_no_progress extract_lets -underBinder -merge -useContext +onlyGivenNames z
       first
       | (refine keeps_cut (s := z) ?_ ?_; (on_goal 1 => unfold z); on_goal 2 => (intro _; try clear_value z))
       | try clear_value z)
    | with_reducible apply State.signed_keeps | with_reducible apply State.setVal_keeps
    | with_reducible apply State.takeFree_keeps | with_reducible apply keeps_ite | with_reducible apply keeps_ite_snd
    | split
    | ((with_reducible refine State.keeps_mk hw (by assumption) rfl ?_)
       intro p; cases p <;> (first | exact .inl (by decide) | exact .inr rfl))
    | (intro _; intros; try beta_reduce))

theorem State.heartbeat_keeps {pts : List Part} (hw : Within [.out, .time, .run, .od, .units, .mem, .cores, .jobs, .streams,
    .sched, .twin, .hosts, .security, .loops, .convs, .cartridges, .events, .free] pts) {bef : State} {s : State} (i : Nat)
    (f : TwinFrame) (h : bef.Keeps pts s) : bef.Keeps pts (State.heartbeat s i f) := by
  unfold State.heartbeat
  repeat' (first
    | with_reducible assumption | ((with_reducible refine Within.sub hw ?_); decide)
    | (fail_if_no_progress extract_lets -underBinder -merge -useContext +onlyGivenNames z
       first
       | (refine keeps_cut (s := z) ?_ ?_; (on_goal 1 => unfold z); on_goal 2 => (intro _; try clear_value z))
       | try clear_value z)
    | with_reducible apply State.measureTwin_keeps | with_reducible apply State.takeHandover_keeps
    | with_reducible apply State.settlePair_keeps | with_reducible apply State.regain_keeps
    | with_reducible apply State.enterLinkDown_keeps | with_reducible apply State.restartDeadline_keeps
    | with_reducible apply State.twinSet_keeps | with_reducible apply State.sendLog_keeps
    | with_reducible apply State.logAcks_keeps | with_reducible apply keeps_ite | with_reducible apply keeps_ite_snd | split
    | ((with_reducible refine State.keeps_mk hw (by assumption) rfl ?_)
       intro p; cases p <;> (first | exact .inl (by decide) | exact .inr rfl))
    | (intro _; intros; try beta_reduce))

theorem execHeartbeat_keeps (dt : Nat) (port : Fin 8) (frame : TwinFrame) (s : State) :
    ∃ t, execHeartbeat dt port frame s = .next t ∧ (s.elapse dt).Keeps [.out, .time, .run, .od, .units, .mem, .cores, .jobs,
        .streams, .sched, .twin, .hosts, .security, .loops, .convs, .cartridges, .events, .free] t := by
  unfold execHeartbeat
  refine ⟨_, rfl, ?_⟩
  have hw : Within [.out, .time, .run, .od, .units, .mem, .cores, .jobs, .streams, .sched, .twin, .hosts, .security, .loops,
      .convs, .cartridges, .events, .free] [.out, .time, .run, .od, .units, .mem, .cores, .jobs, .streams, .sched, .twin,
      .hosts, .security, .loops, .convs, .cartridges, .events, .free] := fun _ h => h
  have h := State.Keeps.refl [.out, .time, .run, .od, .units, .mem, .cores, .jobs, .streams, .sched, .twin, .hosts,
      .security, .loops, .convs, .cartridges, .events, .free] (s.elapse dt)
  generalize s.elapse dt = bef at h ⊢
  repeat' (first
    | with_reducible assumption | ((with_reducible refine Within.sub hw ?_); decide)
    | with_reducible apply State.heartbeat_keeps | with_reducible apply State.onTwinPort_keeps
    | with_reducible apply keeps_ite | with_reducible apply keeps_ite_snd | split | (intro _; intros; try beta_reduce))

theorem State.missBeat_keeps {pts : List Part} (hw : Within [.od, .twin] pts) {bef : State} {s : State} (h : bef.Keeps pts s)
    : bef.Keeps pts (State.missBeat s) := by
  unfold State.missBeat
  repeat' (first
    | with_reducible assumption | ((with_reducible refine Within.sub hw ?_); decide)
    | (fail_if_no_progress extract_lets -underBinder -merge -useContext +onlyGivenNames z
       first
       | (refine keeps_cut (s := z) ?_ ?_; (on_goal 1 => unfold z); on_goal 2 => (intro _; try clear_value z))
       | try clear_value z)
    | with_reducible apply State.bump_keeps | with_reducible apply keeps_ite | with_reducible apply keeps_ite_snd | split
    | ((with_reducible refine State.keeps_mk hw (by assumption) rfl ?_)
       intro p; cases p <;> (first | exact .inl (by decide) | exact .inr rfl))
    | (intro _; intros; try beta_reduce))

theorem execHeartbeatMiss_keeps (dt : Nat) (s : State) :
    ∃ t, execHeartbeatMiss dt s = .next t ∧ (s.elapse dt).Keeps [.od, .twin] t := by
  unfold execHeartbeatMiss
  refine ⟨_, rfl, ?_⟩
  have hw : Within [.od, .twin] [.od, .twin] := fun _ h => h
  have h := State.Keeps.refl [.od, .twin] (s.elapse dt)
  generalize s.elapse dt = bef at h ⊢
  repeat' (first
    | with_reducible assumption | ((with_reducible refine Within.sub hw ?_); decide)
    | with_reducible apply State.missBeat_keeps | with_reducible apply keeps_ite | with_reducible apply keeps_ite_snd
    | split | (intro _; intros; try beta_reduce))

theorem State.suspect_keeps {pts : List Part} (hw : Within [.out, .od, .twin, .hosts, .events] pts) {bef : State} {s : State}
    (h : bef.Keeps pts s) : bef.Keeps pts (State.suspect s) := by
  unfold State.suspect
  repeat' (first
    | with_reducible assumption | ((with_reducible refine Within.sub hw ?_); decide)
    | with_reducible apply State.enterSuspect_keeps | with_reducible apply keeps_ite | with_reducible apply keeps_ite_snd
    | split | (intro _; intros; try beta_reduce))

theorem execTwinSuspect_keeps (dt : Nat) (s : State) :
    ∃ t, execTwinSuspect dt s = .next t ∧ (s.elapse dt).Keeps [.out, .od, .twin, .hosts, .events] t := by
  unfold execTwinSuspect
  refine ⟨_, rfl, ?_⟩
  have hw : Within [.out, .od, .twin, .hosts, .events] [.out, .od, .twin, .hosts, .events] := fun _ h => h
  have h := State.Keeps.refl [.out, .od, .twin, .hosts, .events] (s.elapse dt)
  generalize s.elapse dt = bef at h ⊢
  repeat' (first
    | with_reducible assumption | ((with_reducible refine Within.sub hw ?_); decide)
    | with_reducible apply State.suspect_keeps | with_reducible apply keeps_ite | with_reducible apply keeps_ite_snd | split
    | (intro _; intros; try beta_reduce))

theorem State.linkBack_keeps {pts : List Part} (hw : Within [.out, .od, .jobs, .streams, .twin, .hosts, .events] pts) {bef :
    State} {s : State} (h : bef.Keeps pts s) : bef.Keeps pts (State.linkBack s) := by
  unfold State.linkBack
  repeat' (first
    | with_reducible assumption | ((with_reducible refine Within.sub hw ?_); decide)
    | (fail_if_no_progress extract_lets -underBinder -merge -useContext +onlyGivenNames z
       first
       | (refine keeps_cut (s := z) ?_ ?_; (on_goal 1 => unfold z); on_goal 2 => (intro _; try clear_value z))
       | try clear_value z)
    | with_reducible apply State.enterSyncing_keeps | with_reducible apply keeps_ite | with_reducible apply keeps_ite_snd
    | split
    | ((with_reducible refine State.keeps_mk hw (by assumption) rfl ?_)
       intro p; cases p <;> (first | exact .inl (by decide) | exact .inr rfl))
    | (intro _; intros; try beta_reduce))

theorem execLinkDownRecovery_keeps (dt : Nat) (s : State) :
    ∃ t, execLinkDownRecovery dt s = .next t ∧ (s.elapse dt).Keeps [.out, .od, .jobs, .streams, .twin, .hosts, .events] t := by
  unfold execLinkDownRecovery
  refine ⟨_, rfl, ?_⟩
  have hw : Within [.out, .od, .jobs, .streams, .twin, .hosts, .events] [.out, .od, .jobs, .streams, .twin, .hosts, .events]
      := fun _ h => h
  have h := State.Keeps.refl [.out, .od, .jobs, .streams, .twin, .hosts, .events] (s.elapse dt)
  generalize s.elapse dt = bef at h ⊢
  repeat' (first
    | with_reducible assumption | ((with_reducible refine Within.sub hw ?_); decide)
    | with_reducible apply State.linkBack_keeps | with_reducible apply keeps_ite | with_reducible apply keeps_ite_snd
    | split | (intro _; intros; try beta_reduce))

theorem State.twinOffset_keeps {pts : List Part} (hw : Within [.time, .od, .hosts, .events] pts) {bef : State} {s : State} (h
    : bef.Keeps pts s) : bef.Keeps pts (State.twinOffset s) := by
  unfold State.twinOffset
  repeat' (first
    | with_reducible assumption | ((with_reducible refine Within.sub hw ?_); decide)
    | (fail_if_no_progress extract_lets -underBinder -merge -useContext +onlyGivenNames z
       first
       | (refine keeps_cut (s := z) ?_ ?_; (on_goal 1 => unfold z); on_goal 2 => (intro _; try clear_value z))
       | try clear_value z)
    | with_reducible apply State.raise_keeps | with_reducible apply keeps_ite | with_reducible apply keeps_ite_snd | split
    | ((with_reducible refine State.keeps_mk hw (by assumption) rfl ?_)
       intro p; cases p <;> (first | exact .inl (by decide) | exact .inr rfl))
    | (intro _; intros; try beta_reduce))

theorem execTwinTimeOffset_keeps (dt : Nat) (s : State) :
    ∃ t, execTwinTimeOffset dt s = .next t ∧ (s.elapse dt).Keeps [.time, .od, .hosts, .events] t := by
  unfold execTwinTimeOffset
  refine ⟨_, rfl, ?_⟩
  have hw : Within [.time, .od, .hosts, .events] [.time, .od, .hosts, .events] := fun _ h => h
  have h := State.Keeps.refl [.time, .od, .hosts, .events] (s.elapse dt)
  generalize s.elapse dt = bef at h ⊢
  repeat' (first
    | with_reducible assumption | ((with_reducible refine Within.sub hw ?_); decide)
    | with_reducible apply State.twinOffset_keeps | with_reducible apply keeps_ite | with_reducible apply keeps_ite_snd
    | split | (intro _; intros; try beta_reduce))

theorem State.probeAgain_keeps {pts : List Part} (hw : Within [.out, .od, .twin, .hosts, .events] pts) {bef : State} {s :
    State} (h : bef.Keeps pts s) : bef.Keeps pts (State.probeAgain s) := by
  unfold State.probeAgain
  repeat' (first
    | with_reducible assumption | ((with_reducible refine Within.sub hw ?_); decide)
    | with_reducible apply State.suspect_keeps | with_reducible apply State.sendProbe_keeps
    | with_reducible apply State.twinQuery_keeps | with_reducible apply keeps_ite | with_reducible apply keeps_ite_snd
    | split | (intro _; intros; try beta_reduce))

theorem execProbeInterval_keeps (dt : Nat) (s : State) :
    ∃ t, execProbeInterval dt s = .next t ∧ (s.elapse dt).Keeps [.out, .od, .twin, .hosts, .events] t := by
  unfold execProbeInterval
  refine ⟨_, rfl, ?_⟩
  have hw : Within [.out, .od, .twin, .hosts, .events] [.out, .od, .twin, .hosts, .events] := fun _ h => h
  have h := State.Keeps.refl [.out, .od, .twin, .hosts, .events] (s.elapse dt)
  generalize s.elapse dt = bef at h ⊢
  repeat' (first
    | with_reducible assumption | ((with_reducible refine Within.sub hw ?_); decide)
    | with_reducible apply State.probeAgain_keeps | with_reducible apply keeps_ite | with_reducible apply keeps_ite_snd
    | split | (intro _; intros; try beta_reduce))

theorem execProbe_keeps (dt : Nat) (src : BitVec 128) (frame : TwinFrame) (s : State) :
    ∃ t, execProbe dt src frame s = .next t ∧ (s.elapse dt).Keeps [.out, .od, .twin] t := by
  unfold execProbe
  refine ⟨_, rfl, ?_⟩
  have hw : Within [.out, .od, .twin] [.out, .od, .twin] := fun _ h => h
  have h := State.Keeps.refl [.out, .od, .twin] (s.elapse dt)
  generalize s.elapse dt = bef at h ⊢
  repeat' (first
    | with_reducible assumption | ((with_reducible refine Within.sub hw ?_); decide)
    | with_reducible apply State.onPath_keeps | with_reducible apply State.sendControl_keeps
    | with_reducible apply keeps_ite | with_reducible apply keeps_ite_snd | split | (intro _; intros; try beta_reduce))

theorem State.told__keeps {pts : List Part} (hw : Within [.out, .od, .mem, .streams, .sched, .twin, .hosts, .events] pts)
    {bef : State} {s : State} (twin : Nat) (run : Nat) (fresh : Bool) (h : bef.Keeps pts s) : bef.Keeps pts (State.told_ s
    twin run fresh) := by
  unfold State.told_
  repeat' (first
    | with_reducible assumption | ((with_reducible refine Within.sub hw ?_); decide)
    | with_reducible apply State.suspect_keeps | with_reducible apply State.enterLinkDown_keeps
    | with_reducible apply State.enterTakeover_keeps | with_reducible apply keeps_ite | with_reducible apply keeps_ite_snd
    | split | (intro _; intros; try beta_reduce))

theorem State.probeReply_keeps {pts : List Part} (hw : Within [.out, .run, .od, .units, .mem, .cores, .jobs, .streams,
    .sched, .twin, .hosts, .loops, .convs, .cartridges, .events] pts) {bef : State} {s : State} (f : TwinFrame) (h :
    bef.Keeps pts s) : bef.Keeps pts (State.probeReply s f) := by
  unfold State.probeReply
  repeat' (first
    | with_reducible assumption | ((with_reducible refine Within.sub hw ?_); decide)
    | with_reducible apply State.told__keeps | with_reducible apply State.regain_keeps | with_reducible apply keeps_ite
    | with_reducible apply keeps_ite_snd | split | (intro _; intros; try beta_reduce))

theorem execProbeReply_keeps (dt : Nat) (src : BitVec 128) (frame : TwinFrame) (s : State) :
    ∃ t, execProbeReply dt src frame s = .next t ∧ (s.elapse dt).Keeps [.out, .run, .od, .units, .mem, .cores, .jobs,
        .streams, .sched, .twin, .hosts, .loops, .convs, .cartridges, .events] t := by
  unfold execProbeReply
  refine ⟨_, rfl, ?_⟩
  have hw : Within [.out, .run, .od, .units, .mem, .cores, .jobs, .streams, .sched, .twin, .hosts, .loops, .convs,
      .cartridges, .events] [.out, .run, .od, .units, .mem, .cores, .jobs, .streams, .sched, .twin, .hosts, .loops, .convs,
      .cartridges, .events] := fun _ h => h
  have h := State.Keeps.refl [.out, .run, .od, .units, .mem, .cores, .jobs, .streams, .sched, .twin, .hosts, .loops, .convs,
      .cartridges, .events] (s.elapse dt)
  generalize s.elapse dt = bef at h ⊢
  repeat' (first
    | with_reducible assumption | ((with_reducible refine Within.sub hw ?_); decide)
    | with_reducible apply State.probeReply_keeps | with_reducible apply State.onPath_keeps | with_reducible apply keeps_ite
    | with_reducible apply keeps_ite_snd | split | (intro _; intros; try beta_reduce))

theorem State.partnerStatusAct_keeps {pts : List Part} (hw : Within [.out, .od, .mem, .streams, .sched, .twin, .hosts,
    .events] pts) {bef : State} (relay : Bool) (v : Nat) {s : State} (h : bef.Keeps pts s) : bef.Keeps pts
    (State.partnerStatusAct relay v s).2 := by
  unfold State.partnerStatusAct
  repeat' (first
    | with_reducible assumption | ((with_reducible refine Within.sub hw ?_); decide)
    | (fail_if_no_progress extract_lets -underBinder -merge -useContext +onlyGivenNames z
       first
       | (refine keeps_cut (s := z) ?_ ?_; (on_goal 1 => unfold z); on_goal 2 => (intro _; try clear_value z))
       | try clear_value z)
    | with_reducible apply State.told__keeps | with_reducible apply accept_keeps | with_reducible apply State.setVal_keeps
    | with_reducible apply keeps_ite | with_reducible apply keeps_ite_snd | split
    | ((with_reducible refine State.keeps_mk hw (by assumption) rfl ?_)
       intro p; cases p <;> (first | exact .inl (by decide) | exact .inr rfl))
    | (intro _; intros; try beta_reduce))

theorem execPartnerStatus_keeps (dt : Nat) (road : Road) (value : BitVec 32) (s : State) :
    ∃ t, execPartnerStatus dt road value s = .next t ∧ (s.elapse dt).Keeps [.out, .od, .mem, .streams, .sched, .twin, .hosts,
        .events] t := by
  unfold execPartnerStatus
  refine ⟨_, rfl, ?_⟩
  have hw : Within [.out, .od, .mem, .streams, .sched, .twin, .hosts, .events] [.out, .od, .mem, .streams, .sched, .twin,
      .hosts, .events] := fun _ h => h
  have h := State.Keeps.refl [.out, .od, .mem, .streams, .sched, .twin, .hosts, .events] (s.elapse dt)
  generalize s.elapse dt = bef at h ⊢
  repeat' (first
    | with_reducible assumption | ((with_reducible refine Within.sub hw ?_); decide)
    | with_reducible apply State.partnerStatusAct_keeps | with_reducible apply State.writeRow_keeps
    | with_reducible apply keeps_ite | with_reducible apply keeps_ite_snd | split | (intro _; intros; try beta_reduce))

theorem State.confirmEnd_keeps {pts : List Part} (hw : Within [.run, .od, .sched, .twin, .hosts, .events] pts) {bef : State}
    {s : State} (h : bef.Keeps pts s) : bef.Keeps pts (State.confirmEnd s) := by
  unfold State.confirmEnd
  repeat' (first
    | with_reducible assumption | ((with_reducible refine Within.sub hw ?_); decide)
    | with_reducible apply State.suspect_keeps | with_reducible apply State.selfFence_keeps | with_reducible apply keeps_ite
    | with_reducible apply keeps_ite_snd | split | (intro _; intros; try beta_reduce))

theorem execConfirmWindow_keeps (dt : Nat) (s : State) :
    ∃ t, execConfirmWindow dt s = .next t ∧ (s.elapse dt).Keeps [.run, .od, .sched, .twin, .hosts, .events] t := by
  unfold execConfirmWindow
  refine ⟨_, rfl, ?_⟩
  have hw : Within [.run, .od, .sched, .twin, .hosts, .events] [.run, .od, .sched, .twin, .hosts, .events] := fun _ h => h
  have h := State.Keeps.refl [.run, .od, .sched, .twin, .hosts, .events] (s.elapse dt)
  generalize s.elapse dt = bef at h ⊢
  repeat' (first
    | with_reducible assumption | ((with_reducible refine Within.sub hw ?_); decide)
    | with_reducible apply State.confirmEnd_keeps | with_reducible apply keeps_ite | with_reducible apply keeps_ite_snd
    | split | (intro _; intros; try beta_reduce))

theorem State.claim_keeps {pts : List Part} (hw : Within [.out, .twin] pts) {bef : State} {s : State} (h : bef.Keeps pts s) :
    bef.Keeps pts (State.claim s) := by
  unfold State.claim
  repeat' (first
    | with_reducible assumption | ((with_reducible refine Within.sub hw ?_); decide)
    | (fail_if_no_progress extract_lets -underBinder -merge -useContext +onlyGivenNames z
       first
       | (refine keeps_cut (s := z) ?_ ?_; (on_goal 1 => unfold z); on_goal 2 => (intro _; try clear_value z))
       | try clear_value z)
    | with_reducible apply State.suspect_keeps | with_reducible apply State.sendWitness_keeps
    | with_reducible apply keeps_ite | with_reducible apply keeps_ite_snd | split
    | ((with_reducible refine State.keeps_mk hw (by assumption) rfl ?_)
       intro p; cases p <;> (first | exact .inl (by decide) | exact .inr rfl))
    | (intro _; intros; try beta_reduce))

theorem execWitnessClaim_keeps (dt : Nat) (s : State) :
    ∃ t, execWitnessClaim dt s = .next t ∧ (s.elapse dt).Keeps [.out, .twin] t := by
  unfold execWitnessClaim
  refine ⟨_, rfl, ?_⟩
  have hw : Within [.out, .twin] [.out, .twin] := fun _ h => h
  have h := State.Keeps.refl [.out, .twin] (s.elapse dt)
  generalize s.elapse dt = bef at h ⊢
  repeat' (first
    | with_reducible assumption | ((with_reducible refine Within.sub hw ?_); decide)
    | with_reducible apply State.claim_keeps | with_reducible apply keeps_ite | with_reducible apply keeps_ite_snd | split
    | (intro _; intros; try beta_reduce))

theorem State.releaseAgain_keeps {pts : List Part} (hw : Within [.out, .twin] pts) {bef : State} {s : State} (h : bef.Keeps
    pts s) : bef.Keeps pts (State.releaseAgain s) := by
  unfold State.releaseAgain
  repeat' (first
    | with_reducible assumption | ((with_reducible refine Within.sub hw ?_); decide)
    | with_reducible apply State.sendWitness_keeps | with_reducible apply keeps_ite | with_reducible apply keeps_ite_snd
    | split | (intro _; intros; try beta_reduce))

theorem execWitnessRelease_keeps (dt : Nat) (s : State) :
    ∃ t, execWitnessRelease dt s = .next t ∧ (s.elapse dt).Keeps [.out, .twin] t := by
  unfold execWitnessRelease
  refine ⟨_, rfl, ?_⟩
  have hw : Within [.out, .twin] [.out, .twin] := fun _ h => h
  have h := State.Keeps.refl [.out, .twin] (s.elapse dt)
  generalize s.elapse dt = bef at h ⊢
  repeat' (first
    | with_reducible assumption | ((with_reducible refine Within.sub hw ?_); decide)
    | with_reducible apply State.releaseAgain_keeps | with_reducible apply keeps_ite | with_reducible apply keeps_ite_snd
    | split | (intro _; intros; try beta_reduce))

theorem State.onWitness_keeps {pts : List Part} (hw : Within [.od, .twin] pts) {bef : State} {s : State} (src : BitVec 128)
    (type : Nat) (f : TwinFrame) (act : Bool → State → State) (h : bef.Keeps pts s) (hact : ∀ y0 y1, bef.Keeps pts y1 →
    bef.Keeps pts (act y0 y1)) : bef.Keeps pts (State.onWitness s src type f act) := by
  unfold State.onWitness
  repeat' (first
    | with_reducible assumption | with_reducible apply hact | ((with_reducible refine Within.sub hw ?_); decide)
    | (fail_if_no_progress extract_lets -underBinder -merge -useContext +onlyGivenNames z
       first
       | (refine keeps_cut (s := z) ?_ ?_; (on_goal 1 => unfold z); on_goal 2 => (intro _; try clear_value z))
       | (refine keeps_cut (s := z.2) ?_ ?_; (on_goal 1 => unfold z); on_goal 2 => (intro _; try clear_value z))
       | (refine keeps_cut (s := z.1) ?_ ?_; (on_goal 1 => unfold z); on_goal 2 => (intro _; try clear_value z))
       | (refine keeps_cut (s := z.2.1) ?_ ?_; (on_goal 1 => unfold z); on_goal 2 => (intro _; try clear_value z))
       | try clear_value z)
    | with_reducible apply State.bump_keeps | with_reducible apply keeps_ite | with_reducible apply keeps_ite_snd | split
    | ((with_reducible refine State.keeps_mk hw (by assumption) rfl ?_)
       intro p; cases p <;> (first | exact .inl (by decide) | exact .inr rfl))
    | (intro _; intros; try beta_reduce))

theorem State.granted_keeps {pts : List Part} (hw : Within [.out, .od, .mem, .streams, .sched, .twin, .hosts, .events] pts)
    {bef : State} (ofClaim : Bool) {s : State} (h : bef.Keeps pts s) : bef.Keeps pts (State.granted ofClaim s) := by
  unfold State.granted
  repeat' (first
    | with_reducible assumption | ((with_reducible refine Within.sub hw ?_); decide)
    | (fail_if_no_progress extract_lets -underBinder -merge -useContext +onlyGivenNames z
       first
       | (refine keeps_cut (s := z) ?_ ?_; (on_goal 1 => unfold z); on_goal 2 => (intro _; try clear_value z))
       | try clear_value z)
    | with_reducible apply State.suspect_keeps | with_reducible apply State.enterTakeover_keeps
    | with_reducible refine State.grant_keeps (hw.sub (by decide)) _ _ (by with_reducible assumption) ?_
    | with_reducible apply keeps_ite | with_reducible apply keeps_ite_snd | split
    | ((with_reducible refine State.keeps_mk hw (by assumption) rfl ?_)
       intro p; cases p <;> (first | exact .inl (by decide) | exact .inr rfl))
    | (intro _; intros; try beta_reduce))

theorem execWitnessGrant_keeps (dt : Nat) (src : BitVec 128) (frame : TwinFrame) (s : State) :
    ∃ t, execWitnessGrant dt src frame s = .next t ∧ (s.elapse dt).Keeps [.out, .od, .mem, .streams, .sched, .twin, .hosts,
        .events] t := by
  unfold execWitnessGrant
  refine ⟨_, rfl, ?_⟩
  have hw : Within [.out, .od, .mem, .streams, .sched, .twin, .hosts, .events] [.out, .od, .mem, .streams, .sched, .twin,
      .hosts, .events] := fun _ h => h
  have h := State.Keeps.refl [.out, .od, .mem, .streams, .sched, .twin, .hosts, .events] (s.elapse dt)
  generalize s.elapse dt = bef at h ⊢
  repeat' (first
    | with_reducible assumption | ((with_reducible refine Within.sub hw ?_); decide)
    | with_reducible apply State.granted_keeps | with_reducible apply State.onWitness_keeps | with_reducible apply keeps_ite
    | with_reducible apply keeps_ite_snd | split | (intro _; intros; try beta_reduce))

theorem State.denied_keeps {pts : List Part} (hw : Within [.run, .od, .sched, .twin, .hosts, .events] pts) {bef : State}
    (_ofClaim : Bool) {s : State} (h : bef.Keeps pts s) : bef.Keeps pts (State.denied _ofClaim s) := by
  unfold State.denied
  repeat' (first
    | with_reducible assumption | ((with_reducible refine Within.sub hw ?_); decide)
    | (fail_if_no_progress extract_lets -underBinder -merge -useContext +onlyGivenNames z
       first
       | (refine keeps_cut (s := z) ?_ ?_; (on_goal 1 => unfold z); on_goal 2 => (intro _; try clear_value z))
       | try clear_value z)
    | with_reducible apply State.suspect_keeps | with_reducible apply State.selfFence_keeps
    | with_reducible apply State.bump_keeps | with_reducible apply keeps_ite | with_reducible apply keeps_ite_snd | split
    | (intro _; intros; try beta_reduce))

theorem execWitnessDeny_keeps (dt : Nat) (src : BitVec 128) (frame : TwinFrame) (s : State) :
    ∃ t, execWitnessDeny dt src frame s = .next t ∧ (s.elapse dt).Keeps [.run, .od, .sched, .twin, .hosts, .events] t := by
  unfold execWitnessDeny
  refine ⟨_, rfl, ?_⟩
  have hw : Within [.run, .od, .sched, .twin, .hosts, .events] [.run, .od, .sched, .twin, .hosts, .events] := fun _ h => h
  have h := State.Keeps.refl [.run, .od, .sched, .twin, .hosts, .events] (s.elapse dt)
  generalize s.elapse dt = bef at h ⊢
  repeat' (first
    | with_reducible assumption | ((with_reducible refine Within.sub hw ?_); decide)
    | with_reducible apply State.denied_keeps | with_reducible apply State.onWitness_keeps | with_reducible apply keeps_ite
    | with_reducible apply keeps_ite_snd | split | (intro _; intros; try beta_reduce))

theorem execFenceGuard_keeps (dt : Nat) (s : State) :
    ∃ t, execFenceGuard dt s = .next t ∧ (s.elapse dt).Keeps [.out, .od, .mem, .streams, .twin, .hosts] t := by
  unfold execFenceGuard
  refine ⟨_, rfl, ?_⟩
  have hw : Within [.out, .od, .mem, .streams, .twin, .hosts] [.out, .od, .mem, .streams, .twin, .hosts] := fun _ h => h
  have h := State.Keeps.refl [.out, .od, .mem, .streams, .twin, .hosts] (s.elapse dt)
  generalize s.elapse dt = bef at h ⊢
  repeat' (first
    | with_reducible assumption | ((with_reducible refine Within.sub hw ?_); decide)
    | (fail_if_no_progress extract_lets -underBinder -merge -useContext +onlyGivenNames z
       first
       | (refine keeps_cut (s := z) ?_ ?_; (on_goal 1 => unfold z); on_goal 2 => (intro _; try clear_value z))
       | try clear_value z)
    | with_reducible apply State.releaseFence_keeps | with_reducible apply keeps_ite | with_reducible apply keeps_ite_snd
    | split | (intro _; intros; try beta_reduce))

theorem State.goodbye_keeps {pts : List Part} (hw : Within [.out, .od, .mem, .streams, .sched, .twin, .hosts, .events] pts)
    {bef : State} {s : State} (i : Nat) (h : bef.Keeps pts s) : bef.Keeps pts (State.goodbye s i) := by
  unfold State.goodbye
  repeat' (first
    | with_reducible assumption | ((with_reducible refine Within.sub hw ?_); decide)
    | with_reducible apply State.enterTakeover_keeps | with_reducible apply keeps_ite | with_reducible apply keeps_ite_snd
    | split | (intro _; intros; try beta_reduce))

theorem execGoodbye_keeps (dt : Nat) (port : Fin 8) (frame : TwinFrame) (s : State) :
    ∃ t, execGoodbye dt port frame s = .next t ∧ (s.elapse dt).Keeps [.out, .od, .mem, .streams, .sched, .twin, .hosts,
        .events] t := by
  unfold execGoodbye
  refine ⟨_, rfl, ?_⟩
  have hw : Within [.out, .od, .mem, .streams, .sched, .twin, .hosts, .events] [.out, .od, .mem, .streams, .sched, .twin,
      .hosts, .events] := fun _ h => h
  have h := State.Keeps.refl [.out, .od, .mem, .streams, .sched, .twin, .hosts, .events] (s.elapse dt)
  generalize s.elapse dt = bef at h ⊢
  repeat' (first
    | with_reducible assumption | ((with_reducible refine Within.sub hw ?_); decide)
    | with_reducible apply State.goodbye_keeps | with_reducible apply State.onTwinPort_keeps
    | with_reducible apply keeps_ite | with_reducible apply keeps_ite_snd | split | (intro _; intros; try beta_reduce))

theorem execAdoptionFromBacklog_keeps (dt : Nat) (s : State) :
    ∃ t, execAdoptionFromBacklog dt s = .next t ∧ (s.elapse dt).Keeps [.out, .od, .mem, .streams, .sched, .twin, .hosts,
        .events] t := by
  unfold execAdoptionFromBacklog
  refine ⟨_, rfl, ?_⟩
  have hw : Within [.out, .od, .mem, .streams, .sched, .twin, .hosts, .events] [.out, .od, .mem, .streams, .sched, .twin,
      .hosts, .events] := fun _ h => h
  have h := State.Keeps.refl [.out, .od, .mem, .streams, .sched, .twin, .hosts, .events] (s.elapse dt)
  generalize s.elapse dt = bef at h ⊢
  repeat' (first
    | with_reducible assumption | ((with_reducible refine Within.sub hw ?_); decide)
    | with_reducible apply State.settleTakeover_keeps | with_reducible apply State.adoptBacklog_keeps
    | with_reducible apply keeps_ite | with_reducible apply keeps_ite_snd | split | (intro _; intros; try beta_reduce))

theorem execTokenLogEntry_keeps (dt : Nat) (entry : LogEntry) (s : State) :
    ∃ t, execTokenLogEntry dt entry s = .next t ∧ (s.elapse dt).Keeps [.out, .jobs, .streams, .twin] t := by
  unfold execTokenLogEntry
  refine ⟨_, rfl, ?_⟩
  have hw : Within [.out, .jobs, .streams, .twin] [.out, .jobs, .streams, .twin] := fun _ h => h
  have h := State.Keeps.refl [.out, .jobs, .streams, .twin] (s.elapse dt)
  generalize s.elapse dt = bef at h ⊢
  repeat' (first
    | with_reducible assumption | ((with_reducible refine Within.sub hw ?_); decide)
    | (fail_if_no_progress extract_lets -underBinder -merge -useContext +onlyGivenNames z
       first
       | (refine keeps_cut (s := z) ?_ ?_; (on_goal 1 => unfold z); on_goal 2 => (intro _; try clear_value z))
       | try clear_value z)
    | with_reducible apply State.takeLog_keeps | with_reducible apply keeps_ite | with_reducible apply keeps_ite_snd | split
    | (intro _; intros; try beta_reduce))

theorem execTokenLogAck_keeps (dt : Nat) (seq : Nat) (s : State) :
    ∃ t, execTokenLogAck dt seq s = .next t ∧ (s.elapse dt).Keeps [.out, .od, .mem, .twin, .hosts] t := by
  unfold execTokenLogAck
  refine ⟨_, rfl, ?_⟩
  have hw : Within [.out, .od, .mem, .twin, .hosts] [.out, .od, .mem, .twin, .hosts] := fun _ h => h
  have h := State.Keeps.refl [.out, .od, .mem, .twin, .hosts] (s.elapse dt)
  generalize s.elapse dt = bef at h ⊢
  repeat' (first
    | with_reducible assumption | ((with_reducible refine Within.sub hw ?_); decide)
    | (fail_if_no_progress extract_lets -underBinder -merge -useContext +onlyGivenNames z
       first
       | (refine keeps_cut (s := z) ?_ ?_; (on_goal 1 => unfold z); on_goal 2 => (intro _; try clear_value z))
       | try clear_value z)
    | with_reducible apply State.logAcks_keeps | with_reducible apply keeps_ite | with_reducible apply keeps_ite_snd | split
    | (intro _; intros; try beta_reduce))

theorem execCheckpointReceived_keeps (dt : Nat) (ckpt : Checkpoint) (s : State) :
    ∃ t, execCheckpointReceived dt ckpt s = .next t ∧ (s.elapse dt).Keeps [.out, .od, .mem, .jobs, .streams, .twin, .hosts,
        .events, .free] t := by
  unfold execCheckpointReceived
  refine ⟨_, rfl, ?_⟩
  have hw : Within [.out, .od, .mem, .jobs, .streams, .twin, .hosts, .events, .free] [.out, .od, .mem, .jobs, .streams,
      .twin, .hosts, .events, .free] := fun _ h => h
  have h := State.Keeps.refl [.out, .od, .mem, .jobs, .streams, .twin, .hosts, .events, .free] (s.elapse dt)
  generalize s.elapse dt = bef at h ⊢
  repeat' (first
    | with_reducible assumption | ((with_reducible refine Within.sub hw ?_); decide)
    | (fail_if_no_progress extract_lets -underBinder -merge -useContext +onlyGivenNames z
       first
       | (refine keeps_cut (s := z) ?_ ?_; (on_goal 1 => unfold z); on_goal 2 => (intro _; try clear_value z))
       | try clear_value z)
    | with_reducible apply State.settlePair_keeps | with_reducible apply State.takeCheckpoint_keeps
    | with_reducible apply keeps_ite | with_reducible apply keeps_ite_snd | split | (intro _; intros; try beta_reduce))

theorem State.checkpointAcked_keeps {pts : List Part} (hw : Within (Part.allBut [.free]) pts) {bef : State} {s : State} (n :
    Nat) (h : bef.Keeps pts s) : bef.Keeps pts (State.checkpointAcked s n) := by
  unfold State.checkpointAcked
  repeat' (first
    | with_reducible assumption | ((with_reducible refine Within.sub hw ?_); decide)
    | (fail_if_no_progress extract_lets -underBinder -merge -useContext +onlyGivenNames z
       first
       | (refine keeps_cut (s := z) ?_ ?_; (on_goal 1 => unfold z); on_goal 2 => (intro _; try clear_value z))
       | try clear_value z)
    | with_reducible apply State.settlePair_keeps | with_reducible apply State.advance_keeps
    | with_reducible apply State.modStream_keeps | with_reducible apply keeps_ite | with_reducible apply keeps_ite_snd
    | split
    | ((with_reducible refine State.keeps_mk hw (by assumption) rfl ?_)
       intro p; cases p <;> (first | exact .inl (by decide) | exact .inr rfl))
    | (intro _; intros; try beta_reduce))

theorem execCheckpointAck_keeps (dt : Nat) (stream : BitVec 16) (s : State) :
    ∃ t, execCheckpointAck dt stream s = .next t ∧ (s.elapse dt).Keeps (Part.allBut [.free]) t := by
  unfold execCheckpointAck
  refine ⟨_, rfl, ?_⟩
  have hw : Within (Part.allBut [.free]) (Part.allBut [.free]) := fun _ h => h
  have h := State.Keeps.refl (Part.allBut [.free]) (s.elapse dt)
  generalize s.elapse dt = bef at h ⊢
  repeat' (first
    | with_reducible assumption | ((with_reducible refine Within.sub hw ?_); decide)
    | (fail_if_no_progress extract_lets -underBinder -merge -useContext +onlyGivenNames z
       first
       | (refine keeps_cut (s := z) ?_ ?_; (on_goal 1 => unfold z); on_goal 2 => (intro _; try clear_value z))
       | try clear_value z)
    | with_reducible apply State.checkpointAcked_keeps | with_reducible apply keeps_ite | with_reducible apply keeps_ite_snd
    | split | (intro _; intros; try beta_reduce))

theorem State.crossRecord_keeps {pts : List Part} (hw : Within [.od, .engines, .twin, .hosts, .events] pts) {bef : State} {s
    : State} (r : CrossCheck) (h : bef.Keeps pts s) : bef.Keeps pts (State.crossRecord s r) := by
  unfold State.crossRecord
  repeat' (first
    | with_reducible assumption | ((with_reducible refine Within.sub hw ?_); decide)
    | (fail_if_no_progress extract_lets -underBinder -merge -useContext +onlyGivenNames z
       first
       | (refine keeps_cut (s := z) ?_ ?_; (on_goal 1 => unfold z); on_goal 2 => (intro _; try clear_value z))
       | (refine keeps_cut (s := z.2) ?_ ?_; (on_goal 1 => unfold z); on_goal 2 => (intro _; try clear_value z))
       | (refine keeps_cut (s := z.1) ?_ ?_; (on_goal 1 => unfold z); on_goal 2 => (intro _; try clear_value z))
       | (refine keeps_cut (s := z.2.1) ?_ ?_; (on_goal 1 => unfold z); on_goal 2 => (intro _; try clear_value z))
       | try clear_value z)
    | with_reducible apply State.compareSums_keeps | with_reducible apply keeps_foldl | with_reducible apply keeps_foldl_fst
    | with_reducible apply keeps_foldl_snd | with_reducible apply keeps_foldl_mid | with_reducible apply keeps_ite
    | with_reducible apply keeps_ite_snd | split
    | ((with_reducible refine State.keeps_mk hw (by assumption) rfl ?_)
       intro p; cases p <;> (first | exact .inl (by decide) | exact .inr rfl))
    | (intro _; intros; try beta_reduce))

theorem execCrossCheckRecord_keeps (dt : Nat) (record : CrossCheck) (s : State) :
    ∃ t, execCrossCheckRecord dt record s = .next t ∧ (s.elapse dt).Keeps [.od, .engines, .twin, .hosts, .events] t := by
  unfold execCrossCheckRecord
  refine ⟨_, rfl, ?_⟩
  have hw : Within [.od, .engines, .twin, .hosts, .events] [.od, .engines, .twin, .hosts, .events] := fun _ h => h
  have h := State.Keeps.refl [.od, .engines, .twin, .hosts, .events] (s.elapse dt)
  generalize s.elapse dt = bef at h ⊢
  repeat' (first
    | with_reducible assumption | ((with_reducible refine Within.sub hw ?_); decide)
    | (fail_if_no_progress extract_lets -underBinder -merge -useContext +onlyGivenNames z
       first
       | (refine keeps_cut (s := z) ?_ ?_; (on_goal 1 => unfold z); on_goal 2 => (intro _; try clear_value z))
       | try clear_value z)
    | with_reducible apply State.crossRecord_keeps | with_reducible apply keeps_ite | with_reducible apply keeps_ite_snd
    | split | (intro _; intros; try beta_reduce))

theorem State.dropRecords_keeps {pts : List Part} (hw : Within [.od, .twin] pts) {bef : State} {s : State} (h : bef.Keeps pts
    s) : bef.Keeps pts (State.dropRecords s) := by
  unfold State.dropRecords
  repeat' (first
    | with_reducible assumption | ((with_reducible refine Within.sub hw ?_); decide)
    | (fail_if_no_progress extract_lets -underBinder -merge -useContext +onlyGivenNames z
       first
       | (refine keeps_cut (s := z) ?_ ?_; (on_goal 1 => unfold z); on_goal 2 => (intro _; try clear_value z))
       | (refine keeps_cut (s := z.2) ?_ ?_; (on_goal 1 => unfold z); on_goal 2 => (intro _; try clear_value z))
       | (refine keeps_cut (s := z.1) ?_ ?_; (on_goal 1 => unfold z); on_goal 2 => (intro _; try clear_value z))
       | (refine keeps_cut (s := z.2.1) ?_ ?_; (on_goal 1 => unfold z); on_goal 2 => (intro _; try clear_value z))
       | try clear_value z)
    | with_reducible apply State.bump_keeps | with_reducible apply keeps_ite | with_reducible apply keeps_ite_snd | split
    | ((with_reducible refine State.keeps_mk hw (by assumption) rfl ?_)
       intro p; cases p <;> (first | exact .inl (by decide) | exact .inr rfl))
    | (intro _; intros; try beta_reduce))

theorem execCrossCheckTimeout_keeps (dt : Nat) (s : State) :
    ∃ t, execCrossCheckTimeout dt s = .next t ∧ (s.elapse dt).Keeps [.od, .twin] t := by
  unfold execCrossCheckTimeout
  refine ⟨_, rfl, ?_⟩
  have hw : Within [.od, .twin] [.od, .twin] := fun _ h => h
  have h := State.Keeps.refl [.od, .twin] (s.elapse dt)
  generalize s.elapse dt = bef at h ⊢
  repeat' (first
    | with_reducible assumption | ((with_reducible refine Within.sub hw ?_); decide)
    | with_reducible apply State.dropRecords_keeps | with_reducible apply keeps_ite | with_reducible apply keeps_ite_snd
    | split | (intro _; intros; try beta_reduce))

theorem State.unpairNow_keeps {pts : List Part} (hw : Within (Part.allBut [.free]) pts) {bef : State} {s : State} (h :
    bef.Keeps pts s) : bef.Keeps pts (State.unpairNow s) := by
  unfold State.unpairNow
  repeat' (first
    | with_reducible assumption | ((with_reducible refine Within.sub hw ?_); decide)
    | (fail_if_no_progress extract_lets -underBinder -merge -useContext +onlyGivenNames z
       first
       | (refine keeps_cut (s := z) ?_ ?_; (on_goal 1 => unfold z); on_goal 2 => (intro _; try clear_value z))
       | try clear_value z)
    | with_reducible apply State.advance_keeps | with_reducible apply State.twinSet_keeps
    | with_reducible apply State.releaseGrant_keeps | with_reducible apply State.sendTwin_keeps
    | with_reducible apply State.portStart_keeps | with_reducible apply State.portOut_keeps
    | with_reducible apply State.releaseLog_keeps | with_reducible apply State.dropMirror_keeps
    | with_reducible apply State.setVal_keeps | with_reducible apply keeps_foldl | with_reducible apply keeps_forRange
    | with_reducible apply keeps_ite | with_reducible apply keeps_ite_snd | split
    | ((with_reducible refine State.keeps_mk hw (by assumption) rfl ?_)
       intro p; cases p <;> (first | exact .inl (by decide) | exact .inr rfl))
    | (intro _; intros; try beta_reduce))

theorem State.unpairAct_keeps {pts : List Part} (hw : Within (Part.allBut [.free]) pts) {bef : State} {s : State} (h :
    bef.Keeps pts s) : bef.Keeps pts (State.unpairAct s).2 := by
  unfold State.unpairAct
  repeat' (first
    | with_reducible assumption | ((with_reducible refine Within.sub hw ?_); decide)
    | with_reducible apply State.unpairNow_keeps | with_reducible apply refuse_keeps | with_reducible apply accept_keeps
    | with_reducible apply keeps_ite | with_reducible apply keeps_ite_snd | split | (intro _; intros; try beta_reduce))

theorem execUnpair_keeps (dt : Nat) (road : Road) (s : State) :
    ∃ t, execUnpair dt road s = .next t ∧ (s.elapse dt).Keeps (Part.allBut [.free]) t := by
  unfold execUnpair
  refine ⟨_, rfl, ?_⟩
  have hw : Within (Part.allBut [.free]) (Part.allBut [.free]) := fun _ h => h
  have h := State.Keeps.refl (Part.allBut [.free]) (s.elapse dt)
  generalize s.elapse dt = bef at h ⊢
  repeat' (first
    | with_reducible assumption | ((with_reducible refine Within.sub hw ?_); decide)
    | with_reducible apply State.unpairAct_keeps | with_reducible apply State.writeRow_keeps
    | with_reducible apply keeps_ite | with_reducible apply keeps_ite_snd | split | (intro _; intros; try beta_reduce))

theorem execUnpairReceived_keeps (dt : Nat) (port : Fin 8) (frame : TwinFrame) (s : State) :
    ∃ t, execUnpairReceived dt port frame s = .next t ∧ (s.elapse dt).Keeps (Part.allBut [.free]) t := by
  unfold execUnpairReceived
  refine ⟨_, rfl, ?_⟩
  have hw : Within (Part.allBut [.free]) (Part.allBut [.free]) := fun _ h => h
  have h := State.Keeps.refl (Part.allBut [.free]) (s.elapse dt)
  generalize s.elapse dt = bef at h ⊢
  repeat' (first
    | with_reducible assumption | ((with_reducible refine Within.sub hw ?_); decide)
    | with_reducible apply State.unpairAct_keeps | with_reducible apply State.onTwinPort_keeps
    | with_reducible apply keeps_ite | with_reducible apply keeps_ite_snd | split | (intro _; intros; try beta_reduce))

theorem State.handoverAct_keeps {pts : List Part} (hw : Within [.out, .od, .jobs, .streams, .sched, .twin] pts) {bef : State}
    {s : State} (h : bef.Keeps pts s) : bef.Keeps pts (State.handoverAct s).2 := by
  unfold State.handoverAct
  repeat' (first
    | with_reducible assumption | ((with_reducible refine Within.sub hw ?_); decide)
    | with_reducible apply State.onHandover_keeps | with_reducible apply State.beginHandover_keeps
    | with_reducible apply refuse_keeps | with_reducible apply accept_keeps | with_reducible apply keeps_ite
    | with_reducible apply keeps_ite_snd | split | (intro _; intros; try beta_reduce))

theorem execHandover_keeps (dt : Nat) (road : Road) (s : State) :
    ∃ t, execHandover dt road s = .next t ∧ (s.elapse dt).Keeps [.out, .od, .jobs, .streams, .sched, .twin, .hosts, .events]
        t := by
  unfold execHandover
  refine ⟨_, rfl, ?_⟩
  have hw : Within [.out, .od, .jobs, .streams, .sched, .twin, .hosts, .events] [.out, .od, .jobs, .streams, .sched, .twin,
      .hosts, .events] := fun _ h => h
  have h := State.Keeps.refl [.out, .od, .jobs, .streams, .sched, .twin, .hosts, .events] (s.elapse dt)
  generalize s.elapse dt = bef at h ⊢
  repeat' (first
    | with_reducible assumption | ((with_reducible refine Within.sub hw ?_); decide)
    | with_reducible apply State.handoverAct_keeps | with_reducible apply State.writeRow_keeps
    | with_reducible apply keeps_ite | with_reducible apply keeps_ite_snd | split | (intro _; intros; try beta_reduce))

theorem State.pairEnableAct_keeps {pts : List Part} (hw : Within (Part.allBut []) pts) {bef : State} (v : Nat) {s : State} (h
    : bef.Keeps pts s) : bef.Keeps pts (State.pairEnableAct v s).2 := by
  unfold State.pairEnableAct
  repeat' (first
    | with_reducible assumption | ((with_reducible refine Within.sub hw ?_); decide)
    | with_reducible apply State.unpairAct_keeps | with_reducible apply State.enterForming_keeps
    | with_reducible apply refuse_keeps | with_reducible apply accept_keeps | with_reducible apply State.setVal_keeps
    | with_reducible apply keeps_ite | with_reducible apply keeps_ite_snd | split | (intro _; intros; try beta_reduce))

theorem execPairEnable_keeps (dt : Nat) (road : Road) (value : BitVec 8) (s : State) :
    ∃ t, execPairEnable dt road value s = .next t ∧ (s.elapse dt).Keeps (Part.allBut []) t := by
  unfold execPairEnable
  refine ⟨_, rfl, ?_⟩
  have hw : Within (Part.allBut []) (Part.allBut []) := fun _ h => h
  have h := State.Keeps.refl (Part.allBut []) (s.elapse dt)
  generalize s.elapse dt = bef at h ⊢
  repeat' (first
    | with_reducible assumption | ((with_reducible refine Within.sub hw ?_); decide)
    | with_reducible apply State.pairEnableAct_keeps | with_reducible apply State.writeRow_keeps
    | with_reducible apply keeps_ite | with_reducible apply keeps_ite_snd | split | (intro _; intros; try beta_reduce))

theorem State.twinCommandAct_keeps {pts : List Part} (hw : Within (Part.allBut [.free]) pts) {bef : State} (v : Nat) {s :
    State} (h : bef.Keeps pts s) : bef.Keeps pts (State.twinCommandAct v s).2 := by
  unfold State.twinCommandAct
  repeat' (first
    | with_reducible assumption | ((with_reducible refine Within.sub hw ?_); decide)
    | with_reducible apply State.handoverAct_keeps | with_reducible apply State.unpairAct_keeps
    | with_reducible apply refuse_keeps | with_reducible apply keeps_ite | with_reducible apply keeps_ite_snd | split
    | (intro _; intros; try beta_reduce))

theorem State.twinConfigAct_keeps {pts : List Part} (hw : Within (Part.allBut []) pts) {bef : State} (sub : Nat) (v : Nat) {s
    : State} (h : bef.Keeps pts s) : bef.Keeps pts (State.twinConfigAct sub v s).2 := by
  unfold State.twinConfigAct
  repeat' (first
    | with_reducible assumption | ((with_reducible refine Within.sub hw ?_); decide)
    | with_reducible apply State.pairEnableAct_keeps | with_reducible apply store_keeps | with_reducible apply refuse_keeps
    | with_reducible apply keeps_ite | with_reducible apply keeps_ite_snd | split | (intro _; intros; try beta_reduce))

end Sys2Proof.Machine
end

