-- ==== Sys2Proof/Laws/KeepsForward.lean ====
section
/-! SUPPORT. What the operations of Machine/Forward.lean keep. -/

namespace Sys2Proof.Machine

theorem State.sendPause_keeps {pts : List Part} (hw : Within [.out, .od] pts) {bef : State} {s : State} (n : Nat) (cls : Nat)
    (quanta : Nat) (h : bef.Keeps pts s) : bef.Keeps pts (State.sendPause s n cls quanta) := by
  unfold State.sendPause
  repeat' (first
    | with_reducible assumption | ((with_reducible refine Within.sub hw ?_); decide) | with_reducible apply State.bump_keeps
    | with_reducible apply State.emit_keeps | with_reducible apply keeps_ite | with_reducible apply keeps_ite_snd | split
    | (intro _; intros; try beta_reduce))

theorem State.hold_keeps {pts : List Part} (hw : Within [.od, .ports] pts) {bef : State} {s : State} (n : Nat) (cls : Nat) (b
    : Nat) (head : Bool) (h : bef.Keeps pts s) : bef.Keeps pts (State.hold s n cls b head) := by
  unfold State.hold
  repeat' (first
    | with_reducible assumption | ((with_reducible refine Within.sub hw ?_); decide)
    | (fail_if_no_progress extract_lets -underBinder -merge -useContext +onlyGivenNames z
       first
       | (refine keeps_cut (s := z) ?_ ?_; (on_goal 1 => unfold z); on_goal 2 => (intro _; try clear_value z))
       | (refine keeps_cut (s := z.2) ?_ ?_; (on_goal 1 => unfold z); on_goal 2 => (intro _; try clear_value z))
       | (refine keeps_cut (s := z.1) ?_ ?_; (on_goal 1 => unfold z); on_goal 2 => (intro _; try clear_value z))
       | (refine keeps_cut (s := z.2.1) ?_ ?_; (on_goal 1 => unfold z); on_goal 2 => (intro _; try clear_value z))
       | try clear_value z)
    | with_reducible apply State.raiseTo_keeps | with_reducible apply State.modPort_keeps | with_reducible apply keeps_ite
    | with_reducible apply keeps_ite_snd | split
    | ((with_reducible refine State.keeps_mk hw (by assumption) rfl ?_)
       intro p; cases p <;> (first | exact .inl (by decide) | exact .inr rfl))
    | (intro _; intros; try beta_reduce))

theorem State.admitBytes_keeps {pts : List Part} (hw : Within [.out, .od, .ports, .hosts, .events] pts) {bef : State} {s :
    State} (n : Nat) (cls : Nat) (b : Nat) (h : bef.Keeps pts s) : bef.Keeps pts (State.admitBytes s n cls b).1 := by
  unfold State.admitBytes
  repeat' (first
    | with_reducible assumption | ((with_reducible refine Within.sub hw ?_); decide)
    | (fail_if_no_progress extract_lets -underBinder -merge -useContext +onlyGivenNames z
       first
       | (refine keeps_cut (s := z) ?_ ?_; (on_goal 1 => unfold z); on_goal 2 => (intro _; try clear_value z))
       | try clear_value z)
    | with_reducible apply State.hold_keeps | with_reducible apply State.sendPause_keeps
    | with_reducible apply State.raise_keeps | with_reducible apply State.bump_keeps
    | with_reducible apply State.modPort_keeps | with_reducible apply keeps_ite | with_reducible apply keeps_ite_snd | split
    | ((with_reducible refine State.keeps_mk hw (by assumption) rfl ?_)
       intro p; cases p <;> (first | exact .inl (by decide) | exact .inr rfl))
    | (intro _; intros; try beta_reduce))

theorem State.releaseBytes_keeps {pts : List Part} (hw : Within [.out, .od, .ports] pts) {bef : State} {s : State} (n : Nat)
    (cls : Nat) (b : Nat) (h : bef.Keeps pts s) : bef.Keeps pts (State.releaseBytes s n cls b) := by
  unfold State.releaseBytes
  repeat' (first
    | with_reducible assumption | ((with_reducible refine Within.sub hw ?_); decide)
    | (fail_if_no_progress extract_lets -underBinder -merge -useContext +onlyGivenNames z
       first
       | (refine keeps_cut (s := z) ?_ ?_; (on_goal 1 => unfold z); on_goal 2 => (intro _; try clear_value z))
       | try clear_value z)
    | with_reducible apply State.sendPause_keeps | with_reducible apply State.modPort_keeps | with_reducible apply keeps_ite
    | with_reducible apply keeps_ite_snd | split
    | ((with_reducible refine State.keeps_mk hw (by assumption) rfl ?_)
       intro p; cases p <;> (first | exact .inl (by decide) | exact .inr rfl))
    | (intro _; intros; try beta_reduce))

theorem State.queueFrame_keeps {pts : List Part} (hw : Within [.out, .od, .ports] pts) {bef : State} {s : State} (out : Nat)
    (cls : Nat) (q : Queued) (h : bef.Keeps pts s) : bef.Keeps pts (State.queueFrame s out cls q) := by
  unfold State.queueFrame
  repeat' (first
    | with_reducible assumption | ((with_reducible refine Within.sub hw ?_); decide)
    | (fail_if_no_progress extract_lets -underBinder -merge -useContext +onlyGivenNames z
       first
       | (refine keeps_cut (s := z) ?_ ?_; (on_goal 1 => unfold z); on_goal 2 => (intro _; try clear_value z))
       | (refine keeps_cut (s := z.2) ?_ ?_; (on_goal 1 => unfold z); on_goal 2 => (intro _; try clear_value z))
       | (refine keeps_cut (s := z.1) ?_ ?_; (on_goal 1 => unfold z); on_goal 2 => (intro _; try clear_value z))
       | (refine keeps_cut (s := z.2.1) ?_ ?_; (on_goal 1 => unfold z); on_goal 2 => (intro _; try clear_value z))
       | try clear_value z)
    | with_reducible apply State.releaseBytes_keeps | with_reducible apply State.bump_keeps
    | with_reducible apply State.modPort_keeps | with_reducible apply keeps_ite | with_reducible apply keeps_ite_snd | split
    | ((with_reducible refine State.keeps_mk hw (by assumption) rfl ?_)
       intro p; cases p <;> (first | exact .inl (by decide) | exact .inr rfl))
    | (intro _; intros; try beta_reduce))

theorem State.sendOwn_keeps {pts : List Part} (hw : Within [.out, .od, .ports] pts) {bef : State} {s : State} (p : Packet) (h
    : bef.Keeps pts s) : bef.Keeps pts (State.sendOwn s p) := by
  unfold State.sendOwn
  repeat' (first
    | with_reducible assumption | ((with_reducible refine Within.sub hw ?_); decide)
    | (fail_if_no_progress extract_lets -underBinder -merge -useContext +onlyGivenNames z
       first
       | (refine keeps_cut (s := z) ?_ ?_; (on_goal 1 => unfold z); on_goal 2 => (intro _; try clear_value z))
       | try clear_value z)
    | with_reducible apply State.queueFrame_keeps | with_reducible apply State.bump_keeps | with_reducible apply keeps_ite
    | with_reducible apply keeps_ite_snd | split
    | ((with_reducible refine State.keeps_mk hw (by assumption) rfl ?_)
       intro p; cases p <;> (first | exact .inl (by decide) | exact .inr rfl))
    | (intro _; intros; try beta_reduce))

theorem State.sendCnp_keeps {pts : List Part} (hw : Within [.out, .od, .qps] pts) {bef : State} {s : State} (q : Nat) (h :
    bef.Keeps pts s) : bef.Keeps pts (State.sendCnp s q) := by
  unfold State.sendCnp
  repeat' (first
    | with_reducible assumption | ((with_reducible refine Within.sub hw ?_); decide)
    | (fail_if_no_progress extract_lets -underBinder -merge -useContext +onlyGivenNames z
       first
       | (refine keeps_cut (s := z) ?_ ?_; (on_goal 1 => unfold z); on_goal 2 => (intro _; try clear_value z))
       | try clear_value z)
    | with_reducible apply State.bump_keeps | with_reducible apply State.modQp_keeps | with_reducible apply State.emit_keeps
    | with_reducible apply keeps_ite | with_reducible apply keeps_ite_snd | split
    | ((with_reducible refine State.keeps_mk hw (by assumption) rfl ?_)
       intro p; cases p <;> (first | exact .inl (by decide) | exact .inr rfl))
    | (intro _; intros; try beta_reduce))

theorem State.deliver__keeps {pts : List Part} (hw : Within [.out, .od, .ports, .qps] pts) {bef : State} {s : State} (p :
    Packet) (h : bef.Keeps pts s) : bef.Keeps pts (State.deliver_ s p) := by
  unfold State.deliver_
  repeat' (first
    | with_reducible assumption | ((with_reducible refine Within.sub hw ?_); decide)
    | (fail_if_no_progress extract_lets -underBinder -merge -useContext +onlyGivenNames z
       first
       | (refine keeps_cut (s := z) ?_ ?_; (on_goal 1 => unfold z); on_goal 2 => (intro _; try clear_value z))
       | try clear_value z)
    | with_reducible apply State.sendCnp_keeps | with_reducible apply State.sendOwn_keeps | with_reducible apply keeps_ite
    | with_reducible apply keeps_ite_snd | split
    | ((with_reducible refine State.keeps_mk hw (by assumption) rfl ?_)
       intro p; cases p <;> (first | exact .inl (by decide) | exact .inr rfl))
    | (intro _; intros; try beta_reduce))

theorem State.forward_keeps {pts : List Part} (hw : Within [.out, .od, .mem, .cores, .jobs, .ports, .qps, .hosts, .events]
    pts) {bef : State} {s : State} (n : Nat) (p : Packet) (h : bef.Keeps pts s) : bef.Keeps pts (State.forward s n p) := by
  unfold State.forward
  repeat' (first
    | with_reducible assumption | ((with_reducible refine Within.sub hw ?_); decide)
    | (fail_if_no_progress extract_lets -underBinder -merge -useContext +onlyGivenNames z
       first
       | (refine keeps_cut (s := z) ?_ ?_; (on_goal 1 => unfold z); on_goal 2 => (intro _; try clear_value z))
       | (refine keeps_cut (s := z.2) ?_ ?_; (on_goal 1 => unfold z); on_goal 2 => (intro _; try clear_value z))
       | (refine keeps_cut (s := z.1) ?_ ?_; (on_goal 1 => unfold z); on_goal 2 => (intro _; try clear_value z))
       | (refine keeps_cut (s := z.2.1) ?_ ?_; (on_goal 1 => unfold z); on_goal 2 => (intro _; try clear_value z))
       | try clear_value z)
    | with_reducible apply State.deliver__keeps | with_reducible apply State.queueFrame_keeps
    | with_reducible apply State.admitBytes_keeps | with_reducible apply State.bind_keeps
    | with_reducible apply State.bump_keeps | with_reducible apply keeps_ite | with_reducible apply keeps_ite_snd | split
    | ((with_reducible refine State.keeps_mk hw (by assumption) rfl ?_)
       intro p; cases p <;> (first | exact .inl (by decide) | exact .inr rfl))
    | with_reducible refine keeps_of_fst (by with_reducible assumption) ?_
    | with_reducible refine keeps_of_snd (by with_reducible assumption) ?_ | (intro _; intros; try beta_reduce))

theorem State.packetIn_keeps {pts : List Part} (hw : Within [.out, .od, .mem, .cores, .jobs, .ports, .qps, .hosts, .events]
    pts) {bef : State} {s : State} (n : Nat) (p : Packet) (h : bef.Keeps pts s) : bef.Keeps pts (State.packetIn s n p) := by
  unfold State.packetIn
  repeat' (first
    | with_reducible assumption | ((with_reducible refine Within.sub hw ?_); decide) | with_reducible apply hz
    | (fail_if_no_progress extract_lets -underBinder -merge -useContext +onlyGivenNames z
       first
       | (refine keeps_fact (P := ∀ x0, bef.Keeps pts (z x0)) ?_ (fun hz => ?_); (on_goal 1 => (unfold z; intros; try beta_reduce)); on_goal 2 => (try clear_value z))
       | (refine keeps_cut (s := z) ?_ ?_; (on_goal 1 => unfold z); on_goal 2 => (intro _; try clear_value z))
       | try clear_value z)
    | with_reducible apply State.forward_keeps | with_reducible apply State.queueFrame_keeps
    | with_reducible apply State.answer_keeps | with_reducible apply State.bump_keeps
    | with_reducible apply State.modPort_keeps | with_reducible apply keeps_ite | with_reducible apply keeps_ite_snd | split
    | ((with_reducible refine State.keeps_mk hw (by assumption) rfl ?_)
       intro p; cases p <;> (first | exact .inl (by decide) | exact .inr rfl))
    | (intro _; intros; try beta_reduce))

theorem execPacketReceived_keeps (dt : Nat) (port : Fin 128) (pkt : Packet) (s : State) :
    ∃ t, execPacketReceived dt port pkt s = .next t ∧ (s.elapse dt).Keeps [.out, .od, .mem, .cores, .jobs, .ports, .qps,
        .hosts, .events] t := by
  unfold execPacketReceived
  refine ⟨_, rfl, ?_⟩
  have hw : Within [.out, .od, .mem, .cores, .jobs, .ports, .qps, .hosts, .events] [.out, .od, .mem, .cores, .jobs, .ports,
      .qps, .hosts, .events] := fun _ h => h
  have h := State.Keeps.refl [.out, .od, .mem, .cores, .jobs, .ports, .qps, .hosts, .events] (s.elapse dt)
  generalize s.elapse dt = bef at h ⊢
  repeat' (first
    | with_reducible assumption | ((with_reducible refine Within.sub hw ?_); decide)
    | with_reducible apply State.packetIn_keeps | with_reducible apply keeps_ite | with_reducible apply keeps_ite_snd
    | split | (intro _; intros; try beta_reduce))

theorem State.marked_keeps {pts : List Part} (hw : Within [.od] pts) {bef : State} {s : State} (n : Nat) (cls : Nat) (draw :
    Nat) (depth : Nat) (p : Packet) (h : bef.Keeps pts s) : bef.Keeps pts (State.marked s n cls draw depth p).1 := by
  unfold State.marked
  repeat' (first
    | with_reducible assumption | ((with_reducible refine Within.sub hw ?_); decide)
    | (fail_if_no_progress extract_lets -underBinder -merge -useContext +onlyGivenNames z
       first
       | (refine keeps_cut (s := z) ?_ ?_; (on_goal 1 => unfold z); on_goal 2 => (intro _; try clear_value z))
       | try clear_value z)
    | with_reducible apply State.bump_keeps | with_reducible apply keeps_ite | with_reducible apply keeps_ite_snd | split
    | ((with_reducible refine State.keeps_mk hw (by assumption) rfl ?_)
       intro p; cases p <;> (first | exact .inl (by decide) | exact .inr rfl))
    | (intro _; intros; try beta_reduce))

theorem State.packetOut_keeps {pts : List Part} (hw : Within [.out, .od, .ports] pts) {bef : State} {s : State} (n : Nat)
    (draw : Nat) (h : bef.Keeps pts s) : bef.Keeps pts (State.packetOut s n draw) := by
  unfold State.packetOut
  repeat' (first
    | with_reducible assumption | ((with_reducible refine Within.sub hw ?_); decide)
    | (fail_if_no_progress extract_lets -underBinder -merge -useContext +onlyGivenNames z
       first
       | (refine keeps_cut (s := z) ?_ ?_; (on_goal 1 => unfold z); on_goal 2 => (intro _; try clear_value z))
       | (refine keeps_cut (s := z.2) ?_ ?_; (on_goal 1 => unfold z); on_goal 2 => (intro _; try clear_value z))
       | (refine keeps_cut (s := z.1) ?_ ?_; (on_goal 1 => unfold z); on_goal 2 => (intro _; try clear_value z))
       | (refine keeps_cut (s := z.2.1) ?_ ?_; (on_goal 1 => unfold z); on_goal 2 => (intro _; try clear_value z))
       | try clear_value z)
    | with_reducible apply State.marked_keeps | with_reducible apply State.releaseBytes_keeps
    | with_reducible apply State.bump_keeps | with_reducible apply State.modPort_keeps
    | with_reducible apply State.emit_keeps | with_reducible apply keeps_ite | with_reducible apply keeps_ite_snd | split
    | ((with_reducible refine State.keeps_mk hw (by assumption) rfl ?_)
       intro p; cases p <;> (first | exact .inl (by decide) | exact .inr rfl))
    | (intro _; intros; try beta_reduce))

theorem execPacketEgress_keeps (dt : Nat) (port : Fin 128) (draw : BitVec 16) (s : State) :
    ∃ t, execPacketEgress dt port draw s = .next t ∧ (s.elapse dt).Keeps [.out, .od, .ports] t := by
  unfold execPacketEgress
  refine ⟨_, rfl, ?_⟩
  have hw : Within [.out, .od, .ports] [.out, .od, .ports] := fun _ h => h
  have h := State.Keeps.refl [.out, .od, .ports] (s.elapse dt)
  generalize s.elapse dt = bef at h ⊢
  repeat' (first
    | with_reducible assumption | ((with_reducible refine Within.sub hw ?_); decide)
    | with_reducible apply State.packetOut_keeps | with_reducible apply keeps_ite | with_reducible apply keeps_ite_snd
    | split | (intro _; intros; try beta_reduce))

theorem execPfcPauseRefresh_keeps (dt : Nat) (port : Fin 128) (cls : Fin 8) (s : State) :
    ∃ t, execPfcPauseRefresh dt port cls s = .next t ∧ (s.elapse dt).Keeps [.out, .od] t := by
  unfold execPfcPauseRefresh
  refine ⟨_, rfl, ?_⟩
  have hw : Within [.out, .od] [.out, .od] := fun _ h => h
  have h := State.Keeps.refl [.out, .od] (s.elapse dt)
  generalize s.elapse dt = bef at h ⊢
  repeat' (first
    | with_reducible assumption | ((with_reducible refine Within.sub hw ?_); decide)
    | (fail_if_no_progress extract_lets -underBinder -merge -useContext +onlyGivenNames z
       first
       | (refine keeps_cut (s := z) ?_ ?_; (on_goal 1 => unfold z); on_goal 2 => (intro _; try clear_value z))
       | try clear_value z)
    | with_reducible apply State.sendPause_keeps | with_reducible apply keeps_ite | with_reducible apply keeps_ite_snd
    | split | (intro _; intros; try beta_reduce))

theorem State.pauseIn_keeps {pts : List Part} (hw : Within [.od, .ports] pts) {bef : State} {s : State} (n : Nat) (cls : Nat)
    (quanta : Nat) (h : bef.Keeps pts s) : bef.Keeps pts (State.pauseIn s n cls quanta) := by
  unfold State.pauseIn
  repeat' (first
    | with_reducible assumption | ((with_reducible refine Within.sub hw ?_); decide)
    | (fail_if_no_progress extract_lets -underBinder -merge -useContext +onlyGivenNames z
       first
       | (refine keeps_cut (s := z) ?_ ?_; (on_goal 1 => unfold z); on_goal 2 => (intro _; try clear_value z))
       | (refine keeps_cut (s := z.2) ?_ ?_; (on_goal 1 => unfold z); on_goal 2 => (intro _; try clear_value z))
       | (refine keeps_cut (s := z.1) ?_ ?_; (on_goal 1 => unfold z); on_goal 2 => (intro _; try clear_value z))
       | (refine keeps_cut (s := z.2.1) ?_ ?_; (on_goal 1 => unfold z); on_goal 2 => (intro _; try clear_value z))
       | try clear_value z)
    | with_reducible apply State.bump_keeps | with_reducible apply State.modPort_keeps | with_reducible apply keeps_ite
    | with_reducible apply keeps_ite_snd | split
    | ((with_reducible refine State.keeps_mk hw (by assumption) rfl ?_)
       intro p; cases p <;> (first | exact .inl (by decide) | exact .inr rfl))
    | (intro _; intros; try beta_reduce))

theorem execPfcPauseReceived_keeps (dt : Nat) (port : Fin 128) (cls : Fin 8) (quanta : BitVec 16) (s : State) :
    ∃ t, execPfcPauseReceived dt port cls quanta s = .next t ∧ (s.elapse dt).Keeps [.od, .ports] t := by
  unfold execPfcPauseReceived
  refine ⟨_, rfl, ?_⟩
  have hw : Within [.od, .ports] [.od, .ports] := fun _ h => h
  have h := State.Keeps.refl [.od, .ports] (s.elapse dt)
  generalize s.elapse dt = bef at h ⊢
  repeat' (first
    | with_reducible assumption | ((with_reducible refine Within.sub hw ?_); decide)
    | with_reducible apply State.pauseIn_keeps | with_reducible apply keeps_ite | with_reducible apply keeps_ite_snd | split
    | (intro _; intros; try beta_reduce))

theorem execPfcPauseExpiry_keeps (dt : Nat) (port : Fin 128) (cls : Fin 8) (s : State) :
    ∃ t, execPfcPauseExpiry dt port cls s = .next t ∧ (s.elapse dt).Keeps [.ports] t := by
  unfold execPfcPauseExpiry
  refine ⟨_, rfl, ?_⟩
  have hw : Within [.ports] [.ports] := fun _ h => h
  have h := State.Keeps.refl [.ports] (s.elapse dt)
  generalize s.elapse dt = bef at h ⊢
  repeat' (first
    | with_reducible assumption | ((with_reducible refine Within.sub hw ?_); decide)
    | (fail_if_no_progress extract_lets -underBinder -merge -useContext +onlyGivenNames z
       first
       | (refine keeps_cut (s := z) ?_ ?_; (on_goal 1 => unfold z); on_goal 2 => (intro _; try clear_value z))
       | (refine keeps_cut (s := z.2) ?_ ?_; (on_goal 1 => unfold z); on_goal 2 => (intro _; try clear_value z))
       | (refine keeps_cut (s := z.1) ?_ ?_; (on_goal 1 => unfold z); on_goal 2 => (intro _; try clear_value z))
       | (refine keeps_cut (s := z.2.1) ?_ ?_; (on_goal 1 => unfold z); on_goal 2 => (intro _; try clear_value z))
       | try clear_value z)
    | with_reducible apply State.modPort_keeps | with_reducible apply keeps_ite | with_reducible apply keeps_ite_snd | split
    | ((with_reducible refine State.keeps_mk hw (by assumption) rfl ?_)
       intro p; cases p <;> (first | exact .inl (by decide) | exact .inr rfl))
    | (intro _; intros; try beta_reduce))

theorem State.dropQueue_keeps {pts : List Part} (hw : Within [.out, .od, .ports] pts) {bef : State} {s : State} (n : Nat)
    (cls : Nat) (h : bef.Keeps pts s) : bef.Keeps pts (State.dropQueue s n cls) := by
  unfold State.dropQueue
  repeat' (first
    | with_reducible assumption | ((with_reducible refine Within.sub hw ?_); decide)
    | (fail_if_no_progress extract_lets -underBinder -merge -useContext +onlyGivenNames z
       first
       | (refine keeps_cut (s := z) ?_ ?_; (on_goal 1 => unfold z); on_goal 2 => (intro _; try clear_value z))
       | (refine keeps_cut (s := z.2) ?_ ?_; (on_goal 1 => unfold z); on_goal 2 => (intro _; try clear_value z))
       | (refine keeps_cut (s := z.1) ?_ ?_; (on_goal 1 => unfold z); on_goal 2 => (intro _; try clear_value z))
       | (refine keeps_cut (s := z.2.1) ?_ ?_; (on_goal 1 => unfold z); on_goal 2 => (intro _; try clear_value z))
       | try clear_value z)
    | with_reducible apply State.releaseBytes_keeps | with_reducible apply State.bump_keeps
    | with_reducible apply State.modPort_keeps | with_reducible apply keeps_foldl | with_reducible apply keeps_foldl_fst
    | with_reducible apply keeps_foldl_snd | with_reducible apply keeps_foldl_mid | with_reducible apply keeps_ite
    | with_reducible apply keeps_ite_snd | split
    | ((with_reducible refine State.keeps_mk hw (by assumption) rfl ?_)
       intro p; cases p <;> (first | exact .inl (by decide) | exact .inr rfl))
    | (intro _; intros; try beta_reduce))

theorem State.pfcStorm_keeps {pts : List Part} (hw : Within [.out, .od, .ports, .hosts, .events] pts) {bef : State} {s :
    State} (n : Nat) (cls : Nat) (h : bef.Keeps pts s) : bef.Keeps pts (State.pfcStorm s n cls) := by
  unfold State.pfcStorm
  repeat' (first
    | with_reducible assumption | ((with_reducible refine Within.sub hw ?_); decide)
    | (fail_if_no_progress extract_lets -underBinder -merge -useContext +onlyGivenNames z
       first
       | (refine keeps_cut (s := z) ?_ ?_; (on_goal 1 => unfold z); on_goal 2 => (intro _; try clear_value z))
       | (refine keeps_cut (s := z.2) ?_ ?_; (on_goal 1 => unfold z); on_goal 2 => (intro _; try clear_value z))
       | (refine keeps_cut (s := z.1) ?_ ?_; (on_goal 1 => unfold z); on_goal 2 => (intro _; try clear_value z))
       | (refine keeps_cut (s := z.2.1) ?_ ?_; (on_goal 1 => unfold z); on_goal 2 => (intro _; try clear_value z))
       | try clear_value z)
    | with_reducible apply State.dropQueue_keeps | with_reducible apply State.raise_keeps
    | with_reducible apply State.bump_keeps | with_reducible apply State.modPort_keeps | with_reducible apply keeps_ite
    | with_reducible apply keeps_ite_snd | split
    | ((with_reducible refine State.keeps_mk hw (by assumption) rfl ?_)
       intro p; cases p <;> (first | exact .inl (by decide) | exact .inr rfl))
    | (intro _; intros; try beta_reduce))

theorem execPfcStorm_keeps (dt : Nat) (port : Fin 128) (cls : Fin 8) (s : State) :
    ∃ t, execPfcStorm dt port cls s = .next t ∧ (s.elapse dt).Keeps [.out, .od, .ports, .hosts, .events] t := by
  unfold execPfcStorm
  refine ⟨_, rfl, ?_⟩
  have hw : Within [.out, .od, .ports, .hosts, .events] [.out, .od, .ports, .hosts, .events] := fun _ h => h
  have h := State.Keeps.refl [.out, .od, .ports, .hosts, .events] (s.elapse dt)
  generalize s.elapse dt = bef at h ⊢
  repeat' (first
    | with_reducible assumption | ((with_reducible refine Within.sub hw ?_); decide)
    | with_reducible apply State.pfcStorm_keeps | with_reducible apply keeps_ite | with_reducible apply keeps_ite_snd
    | split | (intro _; intros; try beta_reduce))

theorem execPfcWatchdogRecover_keeps (dt : Nat) (port : Fin 128) (cls : Fin 8) (s : State) :
    ∃ t, execPfcWatchdogRecover dt port cls s = .next t ∧ (s.elapse dt).Keeps [.ports] t := by
  unfold execPfcWatchdogRecover
  refine ⟨_, rfl, ?_⟩
  have hw : Within [.ports] [.ports] := fun _ h => h
  have h := State.Keeps.refl [.ports] (s.elapse dt)
  generalize s.elapse dt = bef at h ⊢
  repeat' (first
    | with_reducible assumption | ((with_reducible refine Within.sub hw ?_); decide)
    | (fail_if_no_progress extract_lets -underBinder -merge -useContext +onlyGivenNames z
       first
       | (refine keeps_cut (s := z) ?_ ?_; (on_goal 1 => unfold z); on_goal 2 => (intro _; try clear_value z))
       | (refine keeps_cut (s := z.2) ?_ ?_; (on_goal 1 => unfold z); on_goal 2 => (intro _; try clear_value z))
       | (refine keeps_cut (s := z.1) ?_ ?_; (on_goal 1 => unfold z); on_goal 2 => (intro _; try clear_value z))
       | (refine keeps_cut (s := z.2.1) ?_ ?_; (on_goal 1 => unfold z); on_goal 2 => (intro _; try clear_value z))
       | try clear_value z)
    | with_reducible apply State.modPort_keeps | with_reducible apply keeps_ite | with_reducible apply keeps_ite_snd | split
    | ((with_reducible refine State.keeps_mk hw (by assumption) rfl ?_)
       intro p; cases p <;> (first | exact .inl (by decide) | exact .inr rfl))
    | (intro _; intros; try beta_reduce))

theorem State.routeTableAct_keeps {pts : List Part} (hw : Within [.od, .fabric, .events] pts) {bef : State} (data : List
    Byte) {s : State} (h : bef.Keeps pts s) : bef.Keeps pts (State.routeTableAct data s).2 := by
  unfold State.routeTableAct
  repeat' (first
    | with_reducible assumption | ((with_reducible refine Within.sub hw ?_); decide)
    | (fail_if_no_progress extract_lets -underBinder -merge -useContext +onlyGivenNames z
       first
       | (refine keeps_cut (s := z) ?_ ?_; (on_goal 1 => unfold z); on_goal 2 => (intro _; try clear_value z))
       | try clear_value z)
    | with_reducible apply State.take_keeps | with_reducible apply refuse_keeps | with_reducible apply accept_keeps
    | with_reducible apply State.drop_keeps | with_reducible apply keeps_ite | with_reducible apply keeps_ite_snd | split
    | ((with_reducible refine State.keeps_mk hw (by assumption) rfl ?_)
       intro p; cases p <;> (first | exact .inl (by decide) | exact .inr rfl))
    | (intro _; intros; try beta_reduce))

theorem execRouteTableWrite_keeps (dt : Nat) (road : Road) (data : List Byte) (s : State) :
    ∃ t, execRouteTableWrite dt road data s = .next t ∧ (s.elapse dt).Keeps [.out, .od, .fabric, .hosts, .events] t := by
  unfold execRouteTableWrite
  refine ⟨_, rfl, ?_⟩
  have hw : Within [.out, .od, .fabric, .hosts, .events] [.out, .od, .fabric, .hosts, .events] := fun _ h => h
  have h := State.Keeps.refl [.out, .od, .fabric, .hosts, .events] (s.elapse dt)
  generalize s.elapse dt = bef at h ⊢
  repeat' (first
    | with_reducible assumption | ((with_reducible refine Within.sub hw ?_); decide)
    | with_reducible apply State.routeTableAct_keeps | with_reducible apply State.writeRow_keeps
    | with_reducible apply keeps_ite | with_reducible apply keeps_ite_snd | split | (intro _; intros; try beta_reduce))

theorem State.ecmpGroupsAct_keeps {pts : List Part} (hw : Within [.fabric] pts) {bef : State} (data : List Byte) {s : State}
    (h : bef.Keeps pts s) : bef.Keeps pts (State.ecmpGroupsAct data s).2 := by
  unfold State.ecmpGroupsAct
  repeat' (first
    | with_reducible assumption | ((with_reducible refine Within.sub hw ?_); decide)
    | (fail_if_no_progress extract_lets -underBinder -merge -useContext +onlyGivenNames z
       first
       | (refine keeps_cut (s := z) ?_ ?_; (on_goal 1 => unfold z); on_goal 2 => (intro _; try clear_value z))
       | try clear_value z)
    | with_reducible apply refuse_keeps | with_reducible apply accept_keeps | with_reducible apply keeps_ite
    | with_reducible apply keeps_ite_snd | split
    | ((with_reducible refine State.keeps_mk hw (by assumption) rfl ?_)
       intro p; cases p <;> (first | exact .inl (by decide) | exact .inr rfl))
    | (intro _; intros; try beta_reduce))

theorem execEcmpGroupsWrite_keeps (dt : Nat) (road : Road) (data : List Byte) (s : State) :
    ∃ t, execEcmpGroupsWrite dt road data s = .next t ∧ (s.elapse dt).Keeps [.out, .od, .fabric, .hosts, .events] t := by
  unfold execEcmpGroupsWrite
  refine ⟨_, rfl, ?_⟩
  have hw : Within [.out, .od, .fabric, .hosts, .events] [.out, .od, .fabric, .hosts, .events] := fun _ h => h
  have h := State.Keeps.refl [.out, .od, .fabric, .hosts, .events] (s.elapse dt)
  generalize s.elapse dt = bef at h ⊢
  repeat' (first
    | with_reducible assumption | ((with_reducible refine Within.sub hw ?_); decide)
    | with_reducible apply State.ecmpGroupsAct_keeps | with_reducible apply State.writeRow_keeps
    | with_reducible apply keeps_ite | with_reducible apply keeps_ite_snd | split | (intro _; intros; try beta_reduce))

end Sys2Proof.Machine
end

