-- ==== Sys2Proof/Laws/KeepsHosts.lean ====
section
/-! SUPPORT. What the operations of Machine/Hosts.lean keep. -/

namespace Sys2Proof.Machine

theorem State.hostServing_keeps {pts : List Part} (hw : Within [.od, .units, .epoch, .hosts, .loops, .convs, .events] pts)
    {bef : State} {s : State} (p : Nat) (h : bef.Keeps pts s) : bef.Keeps pts (State.hostServing s p) := by
  unfold State.hostServing
  repeat' (first
    | with_reducible assumption | ((with_reducible refine Within.sub hw ?_); decide)
    | (fail_if_no_progress extract_lets -underBinder -merge -useContext +onlyGivenNames z
       first
       | (refine keeps_cut (s := z) ?_ ?_; (on_goal 1 => unfold z); on_goal 2 => (intro _; try clear_value z))
       | try clear_value z)
    | with_reducible apply State.setUnit_keeps | with_reducible apply keeps_ite | with_reducible apply keeps_ite_snd | split
    | (intro _; intros; try beta_reduce))

theorem State.dropLow_keeps {pts : List Part} (hw : Within [.od, .hosts] pts) {bef : State} {s : State} (p : Nat) (h :
    bef.Keeps pts s) : bef.Keeps pts (State.dropLow s p) := by
  unfold State.dropLow
  repeat' (first
    | with_reducible assumption | ((with_reducible refine Within.sub hw ?_); decide)
    | (fail_if_no_progress extract_lets -underBinder -merge -useContext +onlyGivenNames z
       first
       | (refine keeps_cut (s := z) ?_ ?_; (on_goal 1 => unfold z); on_goal 2 => (intro _; try clear_value z))
       | try clear_value z)
    | with_reducible apply State.bump_keeps | with_reducible apply State.modHost_keeps | with_reducible apply keeps_ite
    | with_reducible apply keeps_ite_snd | split
    | ((with_reducible refine State.keeps_mk hw (by assumption) rfl ?_)
       intro p; cases p <;> (first | exact .inl (by decide) | exact .inr rfl))
    | (intro _; intros; try beta_reduce))

theorem State.clearRing_keeps {pts : List Part} (hw : Within [.mem] pts) {bef : State} {s : State} (p : Nat) (r : Nat) (h :
    bef.Keeps pts s) : bef.Keeps pts (State.clearRing s p r) := by
  unfold State.clearRing
  repeat' (first
    | with_reducible assumption | ((with_reducible refine Within.sub hw ?_); decide)
    | (fail_if_no_progress extract_lets -underBinder -merge -useContext +onlyGivenNames z
       first
       | (refine keeps_cut (s := z) ?_ ?_; (on_goal 1 => unfold z); on_goal 2 => (intro _; try clear_value z))
       | try clear_value z)
    | with_reducible apply keeps_ite | with_reducible apply keeps_ite_snd | split
    | ((with_reducible refine State.keeps_mk hw (by assumption) rfl ?_)
       intro p; cases p <;> (first | exact .inl (by decide) | exact .inr rfl))
    | ((with_reducible refine State.keeps_mem hw (by assumption) rfl ?_ ?_)
       on_goal 1 => (intro p; cases p <;> (first | exact .inl (by decide) | exact .inr rfl)))
    | with_reducible apply Mem.write_wf | with_reducible apply Mem.copy_wf | with_reducible apply Mem.move_wf
    | with_reducible apply Mem.clear_wf | with_reducible apply Mem.putCells_wf | (intro _; intros; try beta_reduce))

theorem State.putSize_keeps {pts : List Part} (hw : Within [.od, .mem, .hosts] pts) {bef : State} {s : State} (p : Nat) (r :
    Nat) (v : Nat) (h : bef.Keeps pts s) : bef.Keeps pts (State.putSize s p r v) := by
  unfold State.putSize
  repeat' (first
    | with_reducible assumption | ((with_reducible refine Within.sub hw ?_); decide)
    | (fail_if_no_progress extract_lets -underBinder -merge -useContext +onlyGivenNames z
       first
       | (refine keeps_cut (s := z) ?_ ?_; (on_goal 1 => unfold z); on_goal 2 => (intro _; try clear_value z))
       | (refine keeps_cut (s := z.2) ?_ ?_; (on_goal 1 => unfold z); on_goal 2 => (intro _; try clear_value z))
       | (refine keeps_cut (s := z.1) ?_ ?_; (on_goal 1 => unfold z); on_goal 2 => (intro _; try clear_value z))
       | (refine keeps_cut (s := z.2.1) ?_ ?_; (on_goal 1 => unfold z); on_goal 2 => (intro _; try clear_value z))
       | try clear_value z)
    | with_reducible apply State.clearRing_keeps | with_reducible apply State.modRing_keeps
    | with_reducible apply State.bump_keeps | with_reducible apply keeps_ite | with_reducible apply keeps_ite_snd | split
    | ((with_reducible refine State.keeps_mk hw (by assumption) rfl ?_)
       intro p; cases p <;> (first | exact .inl (by decide) | exact .inr rfl))
    | with_reducible refine keeps_of_fst (by with_reducible assumption) ?_
    | with_reducible refine keeps_of_snd (by with_reducible assumption) ?_ | (intro _; intros; try beta_reduce))

theorem State.putIrq_keeps {pts : List Part} (hw : Within [.hosts] pts) {bef : State} {s : State} (p : Nat) (r : Nat) (v :
    Nat) (h : bef.Keeps pts s) : bef.Keeps pts (State.putIrq s p r v) := by
  unfold State.putIrq
  repeat' (first
    | with_reducible assumption | ((with_reducible refine Within.sub hw ?_); decide)
    | (fail_if_no_progress extract_lets -underBinder -merge -useContext +onlyGivenNames z
       first
       | (refine keeps_cut (s := z) ?_ ?_; (on_goal 1 => unfold z); on_goal 2 => (intro _; try clear_value z))
       | try clear_value z)
    | with_reducible apply State.modRing_keeps | with_reducible apply keeps_ite | with_reducible apply keeps_ite_snd | split
    | ((with_reducible refine State.keeps_mk hw (by assumption) rfl ?_)
       intro p; cases p <;> (first | exact .inl (by decide) | exact .inr rfl))
    | (intro _; intros; try beta_reduce))

theorem State.startRing_keeps {pts : List Part} (hw : Within [.od, .units, .mem, .epoch, .hosts, .loops, .convs, .events]
    pts) {bef : State} {s : State} (p : Nat) (r : Nat) (h : bef.Keeps pts s) : bef.Keeps pts (State.startRing s p r) := by
  unfold State.startRing
  repeat' (first
    | with_reducible assumption | ((with_reducible refine Within.sub hw ?_); decide)
    | (fail_if_no_progress extract_lets -underBinder -merge -useContext +onlyGivenNames z
       first
       | (refine keeps_cut (s := z) ?_ ?_; (on_goal 1 => unfold z); on_goal 2 => (intro _; try clear_value z))
       | try clear_value z)
    | with_reducible apply State.clearRing_keeps | with_reducible apply State.hostServing_keeps
    | with_reducible apply State.modRing_keeps | with_reducible apply keeps_ite | with_reducible apply keeps_ite_snd | split
    | ((with_reducible refine State.keeps_mk hw (by assumption) rfl ?_)
       intro p; cases p <;> (first | exact .inl (by decide) | exact .inr rfl))
    | (intro _; intros; try beta_reduce))

theorem State.stopRing_keeps {pts : List Part} (hw : Within [.od, .units, .epoch, .hosts, .loops, .convs, .events] pts) {bef
    : State} {s : State} (p : Nat) (r : Nat) (h : bef.Keeps pts s) : bef.Keeps pts (State.stopRing s p r) := by
  unfold State.stopRing
  repeat' (first
    | with_reducible assumption | ((with_reducible refine Within.sub hw ?_); decide)
    | (fail_if_no_progress extract_lets -underBinder -merge -useContext +onlyGivenNames z
       first
       | (refine keeps_cut (s := z) ?_ ?_; (on_goal 1 => unfold z); on_goal 2 => (intro _; try clear_value z))
       | try clear_value z)
    | with_reducible apply State.hostServing_keeps | with_reducible apply State.modRing_keeps
    | with_reducible apply keeps_ite | with_reducible apply keeps_ite_snd | split
    | ((with_reducible refine State.keeps_mk hw (by assumption) rfl ?_)
       intro p; cases p <;> (first | exact .inl (by decide) | exact .inr rfl))
    | (intro _; intros; try beta_reduce))

theorem State.ringControl_keeps {pts : List Part} (hw : Within [.od, .units, .mem, .epoch, .hosts, .loops, .convs, .events]
    pts) {bef : State} {s : State} (p : Nat) (r : Nat) (v : Nat) (h : bef.Keeps pts s) : bef.Keeps pts (State.ringControl s p
    r v) := by
  unfold State.ringControl
  repeat' (first
    | with_reducible assumption | ((with_reducible refine Within.sub hw ?_); decide)
    | (fail_if_no_progress extract_lets -underBinder -merge -useContext +onlyGivenNames z
       first
       | (refine keeps_cut (s := z) ?_ ?_; (on_goal 1 => unfold z); on_goal 2 => (intro _; try clear_value z))
       | try clear_value z)
    | with_reducible apply State.stopRing_keeps | with_reducible apply State.startRing_keeps
    | with_reducible apply State.putIrq_keeps | with_reducible apply State.putSize_keeps | with_reducible apply keeps_ite
    | with_reducible apply keeps_ite_snd | split | (intro _; intros; try beta_reduce))

theorem State.ringWrite_keeps {pts : List Part} (hw : Within [.od, .units, .mem, .epoch, .hosts, .loops, .convs, .events]
    pts) {bef : State} {s : State} (p : Nat) (r : Nat) (v : Nat) (on : Bool → Bool → Bool) (h : bef.Keeps pts s) : bef.Keeps
    pts (State.ringWrite s p r v on) := by
  unfold State.ringWrite
  repeat' (first
    | with_reducible assumption | ((with_reducible refine Within.sub hw ?_); decide)
    | with_reducible apply State.ringControl_keeps | with_reducible apply State.dropLow_keeps
    | with_reducible apply keeps_ite | with_reducible apply keeps_ite_snd | split | (intro _; intros; try beta_reduce))

theorem execRingEnable_keeps (dt : Nat) (port : Fin 2) (ring : Fin 16) (word : BitVec 32) (s : State) :
    ∃ t, execRingEnable dt port ring word s = .next t ∧ (s.elapse dt).Keeps [.od, .units, .mem, .epoch, .hosts, .loops,
        .convs, .events] t := by
  unfold execRingEnable
  refine ⟨_, rfl, ?_⟩
  have hw : Within [.od, .units, .mem, .epoch, .hosts, .loops, .convs, .events] [.od, .units, .mem, .epoch, .hosts, .loops,
      .convs, .events] := fun _ h => h
  have h := State.Keeps.refl [.od, .units, .mem, .epoch, .hosts, .loops, .convs, .events] (s.elapse dt)
  generalize s.elapse dt = bef at h ⊢
  repeat' (first
    | with_reducible assumption | ((with_reducible refine Within.sub hw ?_); decide)
    | with_reducible apply State.ringWrite_keeps | with_reducible apply keeps_ite | with_reducible apply keeps_ite_snd
    | split | (intro _; intros; try beta_reduce))

theorem execRingDisable_keeps (dt : Nat) (port : Fin 2) (ring : Fin 16) (word : BitVec 32) (s : State) :
    ∃ t, execRingDisable dt port ring word s = .next t ∧ (s.elapse dt).Keeps [.od, .units, .mem, .epoch, .hosts, .loops,
        .convs, .events] t := by
  unfold execRingDisable
  refine ⟨_, rfl, ?_⟩
  have hw : Within [.od, .units, .mem, .epoch, .hosts, .loops, .convs, .events] [.od, .units, .mem, .epoch, .hosts, .loops,
      .convs, .events] := fun _ h => h
  have h := State.Keeps.refl [.od, .units, .mem, .epoch, .hosts, .loops, .convs, .events] (s.elapse dt)
  generalize s.elapse dt = bef at h ⊢
  repeat' (first
    | with_reducible assumption | ((with_reducible refine Within.sub hw ?_); decide)
    | with_reducible apply State.ringWrite_keeps | with_reducible apply keeps_ite | with_reducible apply keeps_ite_snd
    | split | (intro _; intros; try beta_reduce))

theorem execRingConfigure_keeps (dt : Nat) (port : Fin 2) (ring : Fin 16) (word : BitVec 32) (s : State) :
    ∃ t, execRingConfigure dt port ring word s = .next t ∧ (s.elapse dt).Keeps [.od, .units, .mem, .epoch, .hosts, .loops,
        .convs, .events] t := by
  unfold execRingConfigure
  refine ⟨_, rfl, ?_⟩
  have hw : Within [.od, .units, .mem, .epoch, .hosts, .loops, .convs, .events] [.od, .units, .mem, .epoch, .hosts, .loops,
      .convs, .events] := fun _ h => h
  have h := State.Keeps.refl [.od, .units, .mem, .epoch, .hosts, .loops, .convs, .events] (s.elapse dt)
  generalize s.elapse dt = bef at h ⊢
  repeat' (first
    | with_reducible assumption | ((with_reducible refine Within.sub hw ?_); decide)
    | with_reducible apply State.ringWrite_keeps | with_reducible apply keeps_ite | with_reducible apply keeps_ite_snd
    | split | (intro _; intros; try beta_reduce))

theorem State.badDoorbell_keeps {pts : List Part} (hw : Within [.od, .hosts, .events] pts) {bef : State} {s : State} (p :
    Nat) (r : Nat) (v : Nat) (h : bef.Keeps pts s) : bef.Keeps pts (State.badDoorbell s p r v) := by
  unfold State.badDoorbell
  repeat' (first
    | with_reducible assumption | ((with_reducible refine Within.sub hw ?_); decide)
    | with_reducible apply State.raise_keeps | with_reducible apply State.bump_keeps | with_reducible apply keeps_ite
    | with_reducible apply keeps_ite_snd | split | (intro _; intros; try beta_reduce))

theorem State.doorbell_keeps {pts : List Part} (hw : Within [.od, .hosts, .events] pts) {bef : State} {s : State} (p : Nat)
    (r : Nat) (v : Nat) (h : bef.Keeps pts s) : bef.Keeps pts (State.doorbell s p r v) := by
  unfold State.doorbell
  repeat' (first
    | with_reducible assumption | ((with_reducible refine Within.sub hw ?_); decide)
    | (fail_if_no_progress extract_lets -underBinder -merge -useContext +onlyGivenNames z
       first
       | (refine keeps_cut (s := z) ?_ ?_; (on_goal 1 => unfold z); on_goal 2 => (intro _; try clear_value z))
       | try clear_value z)
    | with_reducible apply State.badDoorbell_keeps | with_reducible apply State.modRing_keeps
    | with_reducible apply keeps_ite | with_reducible apply keeps_ite_snd | split
    | ((with_reducible refine State.keeps_mk hw (by assumption) rfl ?_)
       intro p; cases p <;> (first | exact .inl (by decide) | exact .inr rfl))
    | (intro _; intros; try beta_reduce))

theorem State.putEntries_keeps {pts : List Part} (hw : Within [.mem] pts) {bef : State} {s : State} (p : Nat) (r : Nat) (es :
    List (List Byte)) (h : bef.Keeps pts s) : bef.Keeps pts (State.putEntries s p r es) := by
  unfold State.putEntries
  repeat' (first
    | with_reducible assumption | ((with_reducible refine Within.sub hw ?_); decide)
    | (fail_if_no_progress extract_lets -underBinder -merge -useContext +onlyGivenNames z
       first
       | (refine keeps_cut (s := z) ?_ ?_; (on_goal 1 => unfold z); on_goal 2 => (intro _; try clear_value z))
       | (refine keeps_cut (s := z.2) ?_ ?_; (on_goal 1 => unfold z); on_goal 2 => (intro _; try clear_value z))
       | (refine keeps_cut (s := z.1) ?_ ?_; (on_goal 1 => unfold z); on_goal 2 => (intro _; try clear_value z))
       | (refine keeps_cut (s := z.2.1) ?_ ?_; (on_goal 1 => unfold z); on_goal 2 => (intro _; try clear_value z))
       | try clear_value z)
    | with_reducible apply State.storeBytes_keeps | with_reducible apply keeps_foldl | with_reducible apply keeps_foldl_fst
    | with_reducible apply keeps_foldl_snd | with_reducible apply keeps_foldl_mid | with_reducible apply keeps_ite
    | with_reducible apply keeps_ite_snd | split | (intro _; intros; try beta_reduce))

theorem execRequestDoorbell_keeps (dt : Nat) (port : Fin 2) (ring : Fin 8) (entries : List (List Byte)) (word : BitVec 32) (s
    : State) :
    ∃ t, execRequestDoorbell dt port ring entries word s = .next t ∧ (s.elapse dt).Keeps [.od, .mem, .hosts, .events] t := by
  unfold execRequestDoorbell
  refine ⟨_, rfl, ?_⟩
  have hw : Within [.od, .mem, .hosts, .events] [.od, .mem, .hosts, .events] := fun _ h => h
  have h := State.Keeps.refl [.od, .mem, .hosts, .events] (s.elapse dt)
  generalize s.elapse dt = bef at h ⊢
  repeat' (first
    | with_reducible assumption | ((with_reducible refine Within.sub hw ?_); decide)
    | (fail_if_no_progress extract_lets -underBinder -merge -useContext +onlyGivenNames z
       first
       | (refine keeps_cut (s := z) ?_ ?_; (on_goal 1 => unfold z); on_goal 2 => (intro _; try clear_value z))
       | try clear_value z)
    | with_reducible apply State.putEntries_keeps | with_reducible apply State.doorbell_keeps
    | with_reducible apply State.dropLow_keeps | with_reducible apply keeps_ite | with_reducible apply keeps_ite_snd | split
    | (intro _; intros; try beta_reduce))

theorem execCompletionDoorbell_keeps (dt : Nat) (port : Fin 2) (ring : Fin 8) (word : BitVec 32) (s : State) :
    ∃ t, execCompletionDoorbell dt port ring word s = .next t ∧ (s.elapse dt).Keeps [.od, .hosts, .events] t := by
  unfold execCompletionDoorbell
  refine ⟨_, rfl, ?_⟩
  have hw : Within [.od, .hosts, .events] [.od, .hosts, .events] := fun _ h => h
  have h := State.Keeps.refl [.od, .hosts, .events] (s.elapse dt)
  generalize s.elapse dt = bef at h ⊢
  repeat' (first
    | with_reducible assumption | ((with_reducible refine Within.sub hw ?_); decide)
    | (fail_if_no_progress extract_lets -underBinder -merge -useContext +onlyGivenNames z
       first
       | (refine keeps_cut (s := z) ?_ ?_; (on_goal 1 => unfold z); on_goal 2 => (intro _; try clear_value z))
       | try clear_value z)
    | with_reducible apply State.doorbell_keeps | with_reducible apply State.dropLow_keeps | with_reducible apply keeps_ite
    | with_reducible apply keeps_ite_snd | split | (intro _; intros; try beta_reduce))

theorem State.postWaiting_keeps {pts : List Part} (hw : Within [.mem, .hosts] pts) {bef : State} {s : State} (p : Nat) (r :
    Nat) (h : bef.Keeps pts s) : bef.Keeps pts (State.postWaiting s p r) := by
  unfold State.postWaiting
  repeat' (first
    | with_reducible assumption | ((with_reducible refine Within.sub hw ?_); decide)
    | (fail_if_no_progress extract_lets -underBinder -merge -useContext +onlyGivenNames z
       first
       | (refine keeps_cut (s := z) ?_ ?_; (on_goal 1 => unfold z); on_goal 2 => (intro _; try clear_value z))
       | try clear_value z)
    | with_reducible apply State.writeCompletion_keeps | with_reducible apply State.modRing_keeps
    | with_reducible apply keeps_ite | with_reducible apply keeps_ite_snd | split
    | ((with_reducible refine State.keeps_mk hw (by assumption) rfl ?_)
       intro p; cases p <;> (first | exact .inl (by decide) | exact .inr rfl))
    | (intro _; intros; try beta_reduce))

theorem execCompletionPost_keeps (dt : Nat) (port : Fin 2) (ring : Fin 8) (s : State) :
    ∃ t, execCompletionPost dt port ring s = .next t ∧ (s.elapse dt).Keeps [.mem, .hosts] t := by
  unfold execCompletionPost
  refine ⟨_, rfl, ?_⟩
  have hw : Within [.mem, .hosts] [.mem, .hosts] := fun _ h => h
  have h := State.Keeps.refl [.mem, .hosts] (s.elapse dt)
  generalize s.elapse dt = bef at h ⊢
  repeat' (first
    | with_reducible assumption | ((with_reducible refine Within.sub hw ?_); decide)
    | with_reducible apply State.postWaiting_keeps | with_reducible apply keeps_ite | with_reducible apply keeps_ite_snd
    | split | (intro _; intros; try beta_reduce))

theorem State.sendMsix_keeps {pts : List Part} (hw : Within [.out, .hosts] pts) {bef : State} {s : State} (p : Nat) (v : Nat)
    (h : bef.Keeps pts s) : bef.Keeps pts (State.sendMsix s p v) := by
  unfold State.sendMsix
  repeat' (first
    | with_reducible assumption | ((with_reducible refine Within.sub hw ?_); decide)
    | (fail_if_no_progress extract_lets -underBinder -merge -useContext +onlyGivenNames z
       first
       | (refine keeps_cut (s := z) ?_ ?_; (on_goal 1 => unfold z); on_goal 2 => (intro _; try clear_value z))
       | (refine keeps_cut (s := z.2) ?_ ?_; (on_goal 1 => unfold z); on_goal 2 => (intro _; try clear_value z))
       | (refine keeps_cut (s := z.1) ?_ ?_; (on_goal 1 => unfold z); on_goal 2 => (intro _; try clear_value z))
       | (refine keeps_cut (s := z.2.1) ?_ ?_; (on_goal 1 => unfold z); on_goal 2 => (intro _; try clear_value z))
       | try clear_value z)
    | with_reducible apply State.modHost_keeps | with_reducible apply State.emit_keeps | with_reducible apply keeps_ite
    | with_reducible apply keeps_ite_snd | split
    | ((with_reducible refine State.keeps_mk hw (by assumption) rfl ?_)
       intro p; cases p <;> (first | exact .inl (by decide) | exact .inr rfl))
    | (intro _; intros; try beta_reduce))

theorem State.msixMessage_keeps {pts : List Part} (hw : Within [.out, .hosts] pts) {bef : State} {s : State} (p : Nat) (v :
    Nat) (h : bef.Keeps pts s) : bef.Keeps pts (State.msixMessage s p v) := by
  unfold State.msixMessage
  repeat' (first
    | with_reducible assumption | ((with_reducible refine Within.sub hw ?_); decide)
    | (fail_if_no_progress extract_lets -underBinder -merge -useContext +onlyGivenNames z
       first
       | (refine keeps_cut (s := z) ?_ ?_; (on_goal 1 => unfold z); on_goal 2 => (intro _; try clear_value z))
       | (refine keeps_cut (s := z.2) ?_ ?_; (on_goal 1 => unfold z); on_goal 2 => (intro _; try clear_value z))
       | (refine keeps_cut (s := z.1) ?_ ?_; (on_goal 1 => unfold z); on_goal 2 => (intro _; try clear_value z))
       | (refine keeps_cut (s := z.2.1) ?_ ?_; (on_goal 1 => unfold z); on_goal 2 => (intro _; try clear_value z))
       | try clear_value z)
    | with_reducible apply State.sendMsix_keeps | with_reducible apply State.modHost_keeps | with_reducible apply keeps_ite
    | with_reducible apply keeps_ite_snd | split
    | ((with_reducible refine State.keeps_mk hw (by assumption) rfl ?_)
       intro p; cases p <;> (first | exact .inl (by decide) | exact .inr rfl))
    | (intro _; intros; try beta_reduce))

theorem execMsixMessage_keeps (dt : Nat) (port : Fin 2) (vector : BitVec 11) (s : State) :
    ∃ t, execMsixMessage dt port vector s = .next t ∧ (s.elapse dt).Keeps [.out, .hosts] t := by
  unfold execMsixMessage
  refine ⟨_, rfl, ?_⟩
  have hw : Within [.out, .hosts] [.out, .hosts] := fun _ h => h
  have h := State.Keeps.refl [.out, .hosts] (s.elapse dt)
  generalize s.elapse dt = bef at h ⊢
  repeat' (first
    | with_reducible assumption | ((with_reducible refine Within.sub hw ?_); decide)
    | with_reducible apply State.msixMessage_keeps | with_reducible apply keeps_ite | with_reducible apply keeps_ite_snd
    | split | (intro _; intros; try beta_reduce))

theorem State.maskVector_keeps {pts : List Part} (hw : Within [.hosts] pts) {bef : State} {s : State} (p : Nat) (v : Nat)
    (masked : Bool) (h : bef.Keeps pts s) : bef.Keeps pts (State.maskVector s p v masked) := by
  unfold State.maskVector
  repeat' (first
    | with_reducible assumption | ((with_reducible refine Within.sub hw ?_); decide)
    | (fail_if_no_progress extract_lets -underBinder -merge -useContext +onlyGivenNames z
       first
       | (refine keeps_cut (s := z) ?_ ?_; (on_goal 1 => unfold z); on_goal 2 => (intro _; try clear_value z))
       | try clear_value z)
    | with_reducible apply State.signalVector_keeps | with_reducible apply State.modHost_keeps
    | with_reducible apply keeps_ite | with_reducible apply keeps_ite_snd | split
    | ((with_reducible refine State.keeps_mk hw (by assumption) rfl ?_)
       intro p; cases p <;> (first | exact .inl (by decide) | exact .inr rfl))
    | (intro _; intros; try beta_reduce))

theorem execMsixUnmask_keeps (dt : Nat) (port : Fin 2) (vector : BitVec 11) (s : State) :
    ∃ t, execMsixUnmask dt port vector s = .next t ∧ (s.elapse dt).Keeps [.od, .hosts] t := by
  unfold execMsixUnmask
  refine ⟨_, rfl, ?_⟩
  have hw : Within [.od, .hosts] [.od, .hosts] := fun _ h => h
  have h := State.Keeps.refl [.od, .hosts] (s.elapse dt)
  generalize s.elapse dt = bef at h ⊢
  repeat' (first
    | with_reducible assumption | ((with_reducible refine Within.sub hw ?_); decide)
    | (fail_if_no_progress extract_lets -underBinder -merge -useContext +onlyGivenNames z
       first
       | (refine keeps_cut (s := z) ?_ ?_; (on_goal 1 => unfold z); on_goal 2 => (intro _; try clear_value z))
       | try clear_value z)
    | with_reducible apply State.maskVector_keeps | with_reducible apply State.dropLow_keeps
    | with_reducible apply keeps_ite | with_reducible apply keeps_ite_snd | split | (intro _; intros; try beta_reduce))

theorem State.msixWrite_keeps {pts : List Part} (hw : Within [.hosts] pts) {bef : State} {s : State} (p : Nat) (off : Nat) (v
    : Nat) (h : bef.Keeps pts s) : bef.Keeps pts (State.msixWrite s p off v) := by
  unfold State.msixWrite
  repeat' (first
    | with_reducible assumption | ((with_reducible refine Within.sub hw ?_); decide)
    | (fail_if_no_progress extract_lets -underBinder -merge -useContext +onlyGivenNames z
       first
       | (refine keeps_cut (s := z) ?_ ?_; (on_goal 1 => unfold z); on_goal 2 => (intro _; try clear_value z))
       | try clear_value z)
    | with_reducible apply State.maskVector_keeps | with_reducible apply State.modHost_keeps
    | with_reducible apply keeps_ite | with_reducible apply keeps_ite_snd | split
    | ((with_reducible refine State.keeps_mk hw (by assumption) rfl ?_)
       intro p; cases p <;> (first | exact .inl (by decide) | exact .inr rfl))
    | (intro _; intros; try beta_reduce))

theorem State.regWrite_keeps {pts : List Part} (hw : Within [.od, .units, .mem, .epoch, .hosts, .loops, .convs, .events] pts)
    {bef : State} {s : State} (p : Nat) (off : Nat) (v : Nat) (h : bef.Keeps pts s) : bef.Keeps pts (State.regWrite s p off
    v) := by
  unfold State.regWrite
  repeat' (first
    | with_reducible assumption | ((with_reducible refine Within.sub hw ?_); decide)
    | with_reducible apply State.msixWrite_keeps | with_reducible apply State.doorbell_keeps
    | with_reducible apply State.ringControl_keeps | with_reducible apply keeps_ite | with_reducible apply keeps_ite_snd
    | split | (intro _; intros; try beta_reduce))

theorem State.hostClear_keeps {pts : List Part} (hw : Within [.od, .cores, .sched, .hosts] pts) {bef : State} {s : State} (p
    : Nat) (h : bef.Keeps pts s) : bef.Keeps pts (State.hostClear s p) := by
  unfold State.hostClear
  repeat' (first
    | with_reducible assumption | ((with_reducible refine Within.sub hw ?_); decide)
    | (fail_if_no_progress extract_lets -underBinder -merge -useContext +onlyGivenNames z
       first
       | (refine keeps_cut (s := z) ?_ ?_; (on_goal 1 => unfold z); on_goal 2 => (intro _; try clear_value z))
       | try clear_value z)
    | with_reducible apply State.dropLow_keeps | with_reducible apply State.failMoves_keeps
    | with_reducible apply State.modHost_keeps | with_reducible apply keeps_ite | with_reducible apply keeps_ite_snd | split
    | (intro _; intros; try beta_reduce))

theorem State.hostReset_keeps {pts : List Part} (hw : Within [.od, .units, .cores, .sched, .epoch, .hosts, .loops, .convs,
    .events] pts) {bef : State} {s : State} (p : Nat) (h : bef.Keeps pts s) : bef.Keeps pts (State.hostReset s p) := by
  unfold State.hostReset
  repeat' (first
    | with_reducible assumption | ((with_reducible refine Within.sub hw ?_); decide)
    | with_reducible apply State.hostClear_keeps | with_reducible apply State.setUnit_keeps
    | with_reducible apply State.bump_keeps | with_reducible apply keeps_ite | with_reducible apply keeps_ite_snd | split
    | (intro _; intros; try beta_reduce))

theorem execPerst_keeps (dt : Nat) (port : Fin 2) (s : State) :
    ∃ t, execPerst dt port s = .next t ∧ (s.elapse dt).Keeps [.od, .units, .cores, .sched, .epoch, .hosts, .loops, .convs,
        .events] t := by
  unfold execPerst
  refine ⟨_, rfl, ?_⟩
  have hw : Within [.od, .units, .cores, .sched, .epoch, .hosts, .loops, .convs, .events] [.od, .units, .cores, .sched,
      .epoch, .hosts, .loops, .convs, .events] := fun _ h => h
  have h := State.Keeps.refl [.od, .units, .cores, .sched, .epoch, .hosts, .loops, .convs, .events] (s.elapse dt)
  generalize s.elapse dt = bef at h ⊢
  repeat' (first
    | with_reducible assumption | ((with_reducible refine Within.sub hw ?_); decide)
    | (fail_if_no_progress extract_lets -underBinder -merge -useContext +onlyGivenNames z
       first
       | (refine keeps_cut (s := z) ?_ ?_; (on_goal 1 => unfold z); on_goal 2 => (intro _; try clear_value z))
       | try clear_value z)
    | with_reducible apply State.hostReset_keeps | with_reducible apply State.linkUp_keeps
    | with_reducible apply State.modHost_keeps | with_reducible apply keeps_ite | with_reducible apply keeps_ite_snd | split
    | ((with_reducible refine State.keeps_mk hw (by assumption) rfl ?_)
       intro p; cases p <;> (first | exact .inl (by decide) | exact .inr rfl))
    | (intro _; intros; try beta_reduce))

theorem execPerstDeassertion_keeps (dt : Nat) (port : Fin 2) (s : State) :
    ∃ t, execPerstDeassertion dt port s = .next t ∧ (s.elapse dt).Keeps [.od, .units, .epoch, .hosts, .loops, .convs,
        .events] t := by
  unfold execPerstDeassertion
  refine ⟨_, rfl, ?_⟩
  have hw : Within [.od, .units, .epoch, .hosts, .loops, .convs, .events] [.od, .units, .epoch, .hosts, .loops, .convs,
      .events] := fun _ h => h
  have h := State.Keeps.refl [.od, .units, .epoch, .hosts, .loops, .convs, .events] (s.elapse dt)
  generalize s.elapse dt = bef at h ⊢
  repeat' (first
    | with_reducible assumption | ((with_reducible refine Within.sub hw ?_); decide)
    | (fail_if_no_progress extract_lets -underBinder -merge -useContext +onlyGivenNames z
       first
       | (refine keeps_cut (s := z) ?_ ?_; (on_goal 1 => unfold z); on_goal 2 => (intro _; try clear_value z))
       | try clear_value z)
    | with_reducible apply State.setUnit_keeps | with_reducible apply State.modHost_keeps | with_reducible apply keeps_ite
    | with_reducible apply keeps_ite_snd | split
    | ((with_reducible refine State.keeps_mk hw (by assumption) rfl ?_)
       intro p; cases p <;> (first | exact .inl (by decide) | exact .inr rfl))
    | (intro _; intros; try beta_reduce))

theorem execFlr_keeps (dt : Nat) (port : Fin 2) (s : State) :
    ∃ t, execFlr dt port s = .next t ∧ (s.elapse dt).Keeps [.od, .units, .cores, .sched, .epoch, .hosts, .loops, .convs,
        .events] t := by
  unfold execFlr
  refine ⟨_, rfl, ?_⟩
  have hw : Within [.od, .units, .cores, .sched, .epoch, .hosts, .loops, .convs, .events] [.od, .units, .cores, .sched,
      .epoch, .hosts, .loops, .convs, .events] := fun _ h => h
  have h := State.Keeps.refl [.od, .units, .cores, .sched, .epoch, .hosts, .loops, .convs, .events] (s.elapse dt)
  generalize s.elapse dt = bef at h ⊢
  repeat' (first
    | with_reducible assumption | ((with_reducible refine Within.sub hw ?_); decide)
    | (fail_if_no_progress extract_lets -underBinder -merge -useContext +onlyGivenNames z
       first
       | (refine keeps_cut (s := z) ?_ ?_; (on_goal 1 => unfold z); on_goal 2 => (intro _; try clear_value z))
       | try clear_value z)
    | with_reducible apply State.hostReset_keeps | with_reducible apply keeps_ite | with_reducible apply keeps_ite_snd
    | split | (intro _; intros; try beta_reduce))

theorem execD3hotToD0_keeps (dt : Nat) (port : Fin 2) (s : State) :
    ∃ t, execD3hotToD0 dt port s = .next t ∧ (s.elapse dt).Keeps [.od, .units, .cores, .sched, .epoch, .hosts, .loops,
        .convs, .events] t := by
  unfold execD3hotToD0
  refine ⟨_, rfl, ?_⟩
  have hw : Within [.od, .units, .cores, .sched, .epoch, .hosts, .loops, .convs, .events] [.od, .units, .cores, .sched,
      .epoch, .hosts, .loops, .convs, .events] := fun _ h => h
  have h := State.Keeps.refl [.od, .units, .cores, .sched, .epoch, .hosts, .loops, .convs, .events] (s.elapse dt)
  generalize s.elapse dt = bef at h ⊢
  repeat' (first
    | with_reducible assumption | ((with_reducible refine Within.sub hw ?_); decide)
    | (fail_if_no_progress extract_lets -underBinder -merge -useContext +onlyGivenNames z
       first
       | (refine keeps_cut (s := z) ?_ ?_; (on_goal 1 => unfold z); on_goal 2 => (intro _; try clear_value z))
       | try clear_value z)
    | with_reducible apply State.hostReset_keeps | with_reducible apply keeps_ite | with_reducible apply keeps_ite_snd
    | split | (intro _; intros; try beta_reduce))

theorem execHostLinkDown_keeps (dt : Nat) (port : Fin 2) (s : State) :
    ∃ t, execHostLinkDown dt port s = .next t ∧ (s.elapse dt).Keeps [.od, .units, .cores, .sched, .epoch, .ports, .hosts,
        .loops, .convs, .events] t := by
  unfold execHostLinkDown
  refine ⟨_, rfl, ?_⟩
  have hw : Within [.od, .units, .cores, .sched, .epoch, .ports, .hosts, .loops, .convs, .events] [.od, .units, .cores,
      .sched, .epoch, .ports, .hosts, .loops, .convs, .events] := fun _ h => h
  have h := State.Keeps.refl [.od, .units, .cores, .sched, .epoch, .ports, .hosts, .loops, .convs, .events] (s.elapse dt)
  generalize s.elapse dt = bef at h ⊢
  repeat' (first
    | with_reducible assumption | ((with_reducible refine Within.sub hw ?_); decide)
    | (fail_if_no_progress extract_lets -underBinder -merge -useContext +onlyGivenNames z
       first
       | (refine keeps_cut (s := z) ?_ ?_; (on_goal 1 => unfold z); on_goal 2 => (intro _; try clear_value z))
       | try clear_value z)
    | with_reducible apply State.hostClear_keeps | with_reducible apply State.linkUp_keeps
    | with_reducible apply State.setUnit_keeps | with_reducible apply State.raise_keeps
    | with_reducible apply State.bump_keeps | with_reducible apply State.modHost_keeps | with_reducible apply keeps_ite
    | with_reducible apply keeps_ite_snd | split
    | ((with_reducible refine State.keeps_mk hw (by assumption) rfl ?_)
       intro p; cases p <;> (first | exact .inl (by decide) | exact .inr rfl))
    | (intro _; intros; try beta_reduce))

theorem execHostLinkUp_keeps (dt : Nat) (port : Fin 2) (speed : Fin 5) (width : Fin 5) (s : State) :
    ∃ t, execHostLinkUp dt port speed width s = .next t ∧ (s.elapse dt).Keeps [.od, .units, .epoch, .hosts, .loops, .convs,
        .events] t := by
  unfold execHostLinkUp
  refine ⟨_, rfl, ?_⟩
  have hw : Within [.od, .units, .epoch, .hosts, .loops, .convs, .events] [.od, .units, .epoch, .hosts, .loops, .convs,
      .events] := fun _ h => h
  have h := State.Keeps.refl [.od, .units, .epoch, .hosts, .loops, .convs, .events] (s.elapse dt)
  generalize s.elapse dt = bef at h ⊢
  repeat' (first
    | with_reducible assumption | ((with_reducible refine Within.sub hw ?_); decide)
    | (fail_if_no_progress extract_lets -underBinder -merge -useContext +onlyGivenNames z
       first
       | (refine keeps_cut (s := z) ?_ ?_; (on_goal 1 => unfold z); on_goal 2 => (intro _; try clear_value z))
       | try clear_value z)
    | with_reducible apply State.linkUp_keeps | with_reducible apply State.setUnit_keeps
    | with_reducible apply State.modHost_keeps | with_reducible apply keeps_ite | with_reducible apply keeps_ite_snd | split
    | ((with_reducible refine State.keeps_mk hw (by assumption) rfl ?_)
       intro p; cases p <;> (first | exact .inl (by decide) | exact .inr rfl))
    | (intro _; intros; try beta_reduce))

theorem execBusMasterEnable_keeps (dt : Nat) (port : Fin 2) (s : State) :
    ∃ t, execBusMasterEnable dt port s = .next t ∧ (s.elapse dt).Keeps [.od, .units, .epoch, .hosts, .loops, .convs, .events]
        t := by
  unfold execBusMasterEnable
  refine ⟨_, rfl, ?_⟩
  have hw : Within [.od, .units, .epoch, .hosts, .loops, .convs, .events] [.od, .units, .epoch, .hosts, .loops, .convs,
      .events] := fun _ h => h
  have h := State.Keeps.refl [.od, .units, .epoch, .hosts, .loops, .convs, .events] (s.elapse dt)
  generalize s.elapse dt = bef at h ⊢
  repeat' (first
    | with_reducible assumption | ((with_reducible refine Within.sub hw ?_); decide)
    | (fail_if_no_progress extract_lets -underBinder -merge -useContext +onlyGivenNames z
       first
       | (refine keeps_cut (s := z) ?_ ?_; (on_goal 1 => unfold z); on_goal 2 => (intro _; try clear_value z))
       | try clear_value z)
    | with_reducible apply State.hostServing_keeps | with_reducible apply State.modHost_keeps
    | with_reducible apply keeps_ite | with_reducible apply keeps_ite_snd | split
    | ((with_reducible refine State.keeps_mk hw (by assumption) rfl ?_)
       intro p; cases p <;> (first | exact .inl (by decide) | exact .inr rfl))
    | (intro _; intros; try beta_reduce))

theorem State.apertureRefused_keeps {pts : List Part} (hw : Within [.od, .hosts, .events] pts) {bef : State} {s : State} (p :
    Nat) (a : Nat) (n : Nat) (bit : Nat) {r : State} (hr : State.apertureRefused s p a n bit = some r) (h : bef.Keeps pts s)
    : bef.Keeps pts r := by
  unfold State.apertureRefused at hr
  repeat' (first | (cases hr; done) | (injection hr with hr; subst hr) | split at hr)
  repeat' (first
    | with_reducible assumption | ((with_reducible refine Within.sub hw ?_); decide)
    | (fail_if_no_progress extract_lets -underBinder -merge -useContext +onlyGivenNames z
       first
       | (refine keeps_cut (s := z) ?_ ?_; (on_goal 1 => unfold z); on_goal 2 => (intro _; try clear_value z))
       | try clear_value z)
    | with_reducible apply State.denied_keeps | with_reducible apply State.deny_keeps | with_reducible apply keeps_ite
    | with_reducible apply keeps_ite_snd | split
    | ((with_reducible refine State.keeps_mk hw (by assumption) rfl ?_)
       intro p; cases p <;> (first | exact .inl (by decide) | exact .inr rfl))
    | (intro _; intros; try beta_reduce))

theorem execBar4Read_keeps (dt : Nat) (port : Fin 2) (offset : Nat) (len : Nat) (s : State) :
    ∃ t, execBar4Read dt port offset len s = .next t ∧ (s.elapse dt).Keeps [.out, .od, .hosts, .events] t := by
  unfold execBar4Read
  refine ⟨_, rfl, ?_⟩
  have hw : Within [.out, .od, .hosts, .events] [.out, .od, .hosts, .events] := fun _ h => h
  have h := State.Keeps.refl [.out, .od, .hosts, .events] (s.elapse dt)
  generalize s.elapse dt = bef at h ⊢
  repeat' (first
    | with_reducible assumption | ((with_reducible refine Within.sub hw ?_); decide)
    | (fail_if_no_progress extract_lets -underBinder -merge -useContext +onlyGivenNames z
       first
       | (refine keeps_cut (s := z) ?_ ?_; (on_goal 1 => unfold z); on_goal 2 => (intro _; try clear_value z))
       | (refine keeps_cut (s := z.2) ?_ ?_; (on_goal 1 => unfold z); on_goal 2 => (intro _; try clear_value z))
       | (refine keeps_cut (s := z.1) ?_ ?_; (on_goal 1 => unfold z); on_goal 2 => (intro _; try clear_value z))
       | (refine keeps_cut (s := z.2.1) ?_ ?_; (on_goal 1 => unfold z); on_goal 2 => (intro _; try clear_value z))
       | try clear_value z)
    | with_reducible refine State.apertureRefused_keeps (hw.sub (by decide)) _ _ _ _ (by with_reducible assumption) ?_
    | with_reducible apply State.emit_keeps | with_reducible apply keeps_ite | with_reducible apply keeps_ite_snd | split
    | ((with_reducible refine State.keeps_mk hw (by assumption) rfl ?_)
       intro p; cases p <;> (first | exact .inl (by decide) | exact .inr rfl))
    | with_reducible refine keeps_of_fst (by with_reducible assumption) ?_
    | with_reducible refine keeps_of_snd (by with_reducible assumption) ?_ | (intro _; intros; try beta_reduce))

theorem execBar4Write_keeps (dt : Nat) (port : Fin 2) (offset : Nat) (data : List Byte) (s : State) :
    ∃ t, execBar4Write dt port offset data s = .next t ∧ (s.elapse dt).Keeps [.od, .mem, .hosts, .events] t := by
  unfold execBar4Write
  refine ⟨_, rfl, ?_⟩
  have hw : Within [.od, .mem, .hosts, .events] [.od, .mem, .hosts, .events] := fun _ h => h
  have h := State.Keeps.refl [.od, .mem, .hosts, .events] (s.elapse dt)
  generalize s.elapse dt = bef at h ⊢
  repeat' (first
    | with_reducible assumption | ((with_reducible refine Within.sub hw ?_); decide)
    | (fail_if_no_progress extract_lets -underBinder -merge -useContext +onlyGivenNames z
       first
       | (refine keeps_cut (s := z) ?_ ?_; (on_goal 1 => unfold z); on_goal 2 => (intro _; try clear_value z))
       | (refine keeps_cut (s := z.2) ?_ ?_; (on_goal 1 => unfold z); on_goal 2 => (intro _; try clear_value z))
       | (refine keeps_cut (s := z.1) ?_ ?_; (on_goal 1 => unfold z); on_goal 2 => (intro _; try clear_value z))
       | (refine keeps_cut (s := z.2.1) ?_ ?_; (on_goal 1 => unfold z); on_goal 2 => (intro _; try clear_value z))
       | try clear_value z)
    | with_reducible refine State.apertureRefused_keeps (hw.sub (by decide)) _ _ _ _ (by with_reducible assumption) ?_
    | with_reducible apply State.storeBytes_keeps | with_reducible apply keeps_ite | with_reducible apply keeps_ite_snd
    | split
    | ((with_reducible refine State.keeps_mk hw (by assumption) rfl ?_)
       intro p; cases p <;> (first | exact .inl (by decide) | exact .inr rfl))
    | with_reducible refine keeps_of_fst (by with_reducible assumption) ?_
    | with_reducible refine keeps_of_snd (by with_reducible assumption) ?_ | (intro _; intros; try beta_reduce))

theorem execBar4Resize_keeps (dt : Nat) (port : Fin 2) (log2GiB : Fin 10) (s : State) :
    ∃ t, execBar4Resize dt port log2GiB s = .next t ∧ (s.elapse dt).Keeps [.hosts] t := by
  unfold execBar4Resize
  refine ⟨_, rfl, ?_⟩
  have hw : Within [.hosts] [.hosts] := fun _ h => h
  have h := State.Keeps.refl [.hosts] (s.elapse dt)
  generalize s.elapse dt = bef at h ⊢
  repeat' (first
    | with_reducible assumption | ((with_reducible refine Within.sub hw ?_); decide)
    | (fail_if_no_progress extract_lets -underBinder -merge -useContext +onlyGivenNames z
       first
       | (refine keeps_cut (s := z) ?_ ?_; (on_goal 1 => unfold z); on_goal 2 => (intro _; try clear_value z))
       | try clear_value z)
    | with_reducible apply State.modHost_keeps | with_reducible apply keeps_ite | with_reducible apply keeps_ite_snd | split
    | ((with_reducible refine State.keeps_mk hw (by assumption) rfl ?_)
       intro p; cases p <;> (first | exact .inl (by decide) | exact .inr rfl))
    | (intro _; intros; try beta_reduce))

theorem State.apertureAct_keeps {pts : List Part} (hw : Within [.od] pts) {bef : State} (p : Nat) (base : Nat) {s : State} (h
    : bef.Keeps pts s) : bef.Keeps pts (State.apertureAct p base s).2 := by
  unfold State.apertureAct
  repeat' (first
    | with_reducible assumption | ((with_reducible refine Within.sub hw ?_); decide) | with_reducible apply store_keeps
    | with_reducible apply refuse_keeps | with_reducible apply keeps_ite | with_reducible apply keeps_ite_snd | split
    | (intro _; intros; try beta_reduce))

theorem execHbmApertureBaseWrite_keeps (dt : Nat) (road : Road) (port : Fin 2) (base : BitVec 64) (s : State) :
    ∃ t, execHbmApertureBaseWrite dt road port base s = .next t ∧ (s.elapse dt).Keeps [.out, .od, .hosts, .events] t := by
  unfold execHbmApertureBaseWrite
  refine ⟨_, rfl, ?_⟩
  have hw : Within [.out, .od, .hosts, .events] [.out, .od, .hosts, .events] := fun _ h => h
  have h := State.Keeps.refl [.out, .od, .hosts, .events] (s.elapse dt)
  generalize s.elapse dt = bef at h ⊢
  repeat' (first
    | with_reducible assumption | ((with_reducible refine Within.sub hw ?_); decide)
    | with_reducible apply State.apertureAct_keeps | with_reducible apply State.writeRow_keeps
    | with_reducible apply keeps_ite | with_reducible apply keeps_ite_snd | split | (intro _; intros; try beta_reduce))

end Sys2Proof.Machine
end

