-- ==== Sys2Proof/Laws/KeepsPassOps.lean ====
section
/-! SUPPORT. What the operations of Machine/PassOps.lean keep. -/

namespace Sys2Proof.Machine

theorem State.passK_keeps {pts : List Part} (hw : Within [.jobs] pts) {bef : State} {s : State} (c : Nat) (p : TvWord) (h :
    bef.Keeps pts s) : bef.Keeps pts (State.passK s c p).1 := by
  unfold State.passK
  repeat' (first
    | with_reducible assumption | ((with_reducible refine Within.sub hw ?_); decide)
    | (fail_if_no_progress extract_lets -underBinder -merge -useContext +onlyGivenNames z
       first
       | (refine keeps_cut (s := z) ?_ ?_; (on_goal 1 => unfold z); on_goal 2 => (intro _; try clear_value z))
       | try clear_value z)
    | with_reducible apply State.modJob_keeps | with_reducible apply keeps_ite | with_reducible apply keeps_ite_snd | split
    | ((with_reducible refine State.keeps_mk hw (by assumption) rfl ?_)
       intro p; cases p <;> (first | exact .inl (by decide) | exact .inr rfl))
    | (intro _; intros; try beta_reduce))

theorem State.passTemplate_keeps {pts : List Part} (hw : Within [.run, .cores, .jobs] pts) {bef : State} {s : State} (c :
    Nat) (n : Nat) (o : Op) (h : bef.Keeps pts s) : bef.Keeps pts (State.passTemplate s c n o).1 := by
  unfold State.passTemplate
  repeat' (first
    | with_reducible assumption | ((with_reducible refine Within.sub hw ?_); decide)
    | (fail_if_no_progress extract_lets -underBinder -merge -useContext +onlyGivenNames z
       first
       | (refine keeps_cut (s := z) ?_ ?_; (on_goal 1 => unfold z); on_goal 2 => (intro _; try clear_value z))
       | (refine keeps_cut (s := z.2) ?_ ?_; (on_goal 1 => unfold z); on_goal 2 => (intro _; try clear_value z))
       | (refine keeps_cut (s := z.1) ?_ ?_; (on_goal 1 => unfold z); on_goal 2 => (intro _; try clear_value z))
       | (refine keeps_cut (s := z.2.1) ?_ ?_; (on_goal 1 => unfold z); on_goal 2 => (intro _; try clear_value z))
       | try clear_value z)
    | with_reducible apply State.passK_keeps | with_reducible apply State.modCore_keeps | with_reducible apply keeps_ite
    | with_reducible apply keeps_ite_snd | split
    | ((with_reducible refine State.keeps_mk hw (by assumption) rfl ?_)
       intro p; cases p <;> (first | exact .inl (by decide) | exact .inr rfl))
    | (intro _; intros; try beta_reduce))

theorem State.refusePass_keeps {pts : List Part} (hw : Within [.cores, .engines] pts) {bef : State} {s : State} (c : Nat) (e
    : Nat) (n : Nat) (status : Nat) (h : bef.Keeps pts s) : bef.Keeps pts (State.refusePass s c e n status) := by
  unfold State.refusePass
  repeat' (first
    | with_reducible assumption | ((with_reducible refine Within.sub hw ?_); decide)
    | (fail_if_no_progress extract_lets -underBinder -merge -useContext +onlyGivenNames z
       first
       | (refine keeps_cut (s := z) ?_ ?_; (on_goal 1 => unfold z); on_goal 2 => (intro _; try clear_value z))
       | try clear_value z)
    | with_reducible apply State.part_keeps | with_reducible apply State.modEng_keeps | with_reducible apply keeps_ite
    | with_reducible apply keeps_ite_snd | split
    | ((with_reducible refine State.keeps_mk hw (by assumption) rfl ?_)
       intro p; cases p <;> (first | exact .inl (by decide) | exact .inr rfl))
    | (intro _; intros; try beta_reduce))

theorem State.startPass_keeps {pts : List Part} (hw : Within [.run, .od, .cores, .engines, .jobs] pts) {bef : State} {s :
    State} (c : Nat) (e : Nat) (n : Nat) (plane : Nat) (o : Op) (h : bef.Keeps pts s) : bef.Keeps pts (State.startPass s c e
    n plane o) := by
  unfold State.startPass
  repeat' (first
    | with_reducible assumption | ((with_reducible refine Within.sub hw ?_); decide)
    | (fail_if_no_progress extract_lets -underBinder -merge -useContext +onlyGivenNames z
       first
       | (refine keeps_cut (s := z) ?_ ?_; (on_goal 1 => unfold z); on_goal 2 => (intro _; try clear_value z))
       | (refine keeps_cut (s := z.2) ?_ ?_; (on_goal 1 => unfold z); on_goal 2 => (intro _; try clear_value z))
       | (refine keeps_cut (s := z.1) ?_ ?_; (on_goal 1 => unfold z); on_goal 2 => (intro _; try clear_value z))
       | (refine keeps_cut (s := z.2.1) ?_ ?_; (on_goal 1 => unfold z); on_goal 2 => (intro _; try clear_value z))
       | try clear_value z)
    | with_reducible apply State.passTemplate_keeps | with_reducible apply State.setVal_keeps
    | with_reducible apply State.modEng_keeps | with_reducible apply State.modCore_keeps | with_reducible apply keeps_ite
    | with_reducible apply keeps_ite_snd | split
    | ((with_reducible refine State.keeps_mk hw (by assumption) rfl ?_)
       intro p; cases p <;> (first | exact .inl (by decide) | exact .inr rfl))
    | (intro _; intros; try beta_reduce))

theorem State.enginePass_keeps {pts : List Part} (hw : Within [.run, .od, .cores, .engines, .jobs] pts) {bef : State} {s :
    State} (c : Nat) (e : Nat) (n : Nat) (o : Op) (h : bef.Keeps pts s) : bef.Keeps pts (State.enginePass s c e n o) := by
  unfold State.enginePass
  repeat' (first
    | with_reducible assumption | ((with_reducible refine Within.sub hw ?_); decide)
    | (fail_if_no_progress extract_lets -underBinder -merge -useContext +onlyGivenNames z
       first
       | (refine keeps_cut (s := z) ?_ ?_; (on_goal 1 => unfold z); on_goal 2 => (intro _; try clear_value z))
       | try clear_value z)
    | with_reducible apply State.startPass_keeps | with_reducible apply State.refusePass_keeps
    | with_reducible apply State.modEng_keeps | with_reducible apply keeps_ite | with_reducible apply keeps_ite_snd | split
    | ((with_reducible refine State.keeps_mk hw (by assumption) rfl ?_)
       intro p; cases p <;> (first | exact .inl (by decide) | exact .inr rfl))
    | (intro _; intros; try beta_reduce))

theorem State.standImage_keeps {pts : List Part} (hw : Within [.od, .hosts, .events] pts) {bef : State} {s : State} (c : Nat)
    (r : BankRecord) (h : bef.Keeps pts s) : bef.Keeps pts (State.standImage s c r).2.1 := by
  unfold State.standImage
  repeat' (first
    | with_reducible assumption | ((with_reducible refine Within.sub hw ?_); decide)
    | (fail_if_no_progress extract_lets -underBinder -merge -useContext +onlyGivenNames z
       first
       | (refine keeps_cut (s := z) ?_ ?_; (on_goal 1 => unfold z); on_goal 2 => (intro _; try clear_value z))
       | (refine keeps_cut (s := z.2) ?_ ?_; (on_goal 1 => unfold z); on_goal 2 => (intro _; try clear_value z))
       | (refine keeps_cut (s := z.1) ?_ ?_; (on_goal 1 => unfold z); on_goal 2 => (intro _; try clear_value z))
       | (refine keeps_cut (s := z.2.1) ?_ ?_; (on_goal 1 => unfold z); on_goal 2 => (intro _; try clear_value z))
       | try clear_value z)
    | with_reducible apply State.access_keeps | with_reducible apply keeps_ite | with_reducible apply keeps_ite_snd | split
    | (intro _; intros; try beta_reduce))

theorem State.standVector_keeps {pts : List Part} (hw : Within [.od, .mem, .cores, .engines, .hosts, .events] pts) {bef :
    State} {s : State} (c : Nat) (q : Nat) (n : Nat) (o : Op) (img : List F16 × List Byte) (h : bef.Keeps pts s) : bef.Keeps
    pts (State.standVector s c q n o img).1 := by
  unfold State.standVector
  repeat' (first
    | with_reducible assumption | ((with_reducible refine Within.sub hw ?_); decide)
    | (fail_if_no_progress extract_lets -underBinder -merge -useContext +onlyGivenNames z
       first
       | (refine keeps_cut (s := z) ?_ ?_; (on_goal 1 => unfold z); on_goal 2 => (intro _; try clear_value z))
       | (refine keeps_cut (s := z.2) ?_ ?_; (on_goal 1 => unfold z); on_goal 2 => (intro _; try clear_value z))
       | (refine keeps_cut (s := z.1) ?_ ?_; (on_goal 1 => unfold z); on_goal 2 => (intro _; try clear_value z))
       | (refine keeps_cut (s := z.2.1) ?_ ?_; (on_goal 1 => unfold z); on_goal 2 => (intro _; try clear_value z))
       | try clear_value z)
    | with_reducible apply State.updateVat_keeps | with_reducible apply State.spillRow_keeps
    | with_reducible apply State.inputRow_keeps | with_reducible apply State.modCore_keeps | with_reducible apply keeps_ite
    | with_reducible apply keeps_ite_snd | split
    | ((with_reducible refine State.keeps_mk hw (by assumption) rfl ?_)
       intro p; cases p <;> (first | exact .inl (by decide) | exact .inr rfl))
    | (intro _; intros; try beta_reduce))

theorem State.standEnd_keeps {pts : List Part} (hw : Within [.cores] pts) {bef : State} {s : State} (c : Nat) (q : Nat) (n :
    Nat) (status : Nat) (h : bef.Keeps pts s) : bef.Keeps pts (State.standEnd s c q n status) := by
  unfold State.standEnd
  repeat' (first
    | with_reducible assumption | ((with_reducible refine Within.sub hw ?_); decide)
    | (fail_if_no_progress extract_lets -underBinder -merge -useContext +onlyGivenNames z
       first
       | (refine keeps_cut (s := z) ?_ ?_; (on_goal 1 => unfold z); on_goal 2 => (intro _; try clear_value z))
       | try clear_value z)
    | with_reducible apply State.part_keeps | with_reducible apply State.modCore_keeps | with_reducible apply keeps_ite
    | with_reducible apply keeps_ite_snd | split
    | ((with_reducible refine State.keeps_mk hw (by assumption) rfl ?_)
       intro p; cases p <;> (first | exact .inl (by decide) | exact .inr rfl))
    | (intro _; intros; try beta_reduce))

theorem State.standPass_keeps {pts : List Part} (hw : Within [.od, .mem, .cores, .engines, .hosts, .events] pts) {bef :
    State} {s : State} (c : Nat) (q : Nat) (n : Nat) (o : Op) (h : bef.Keeps pts s) : bef.Keeps pts (State.standPass s c q n
    o) := by
  unfold State.standPass
  repeat' (first
    | with_reducible assumption | ((with_reducible refine Within.sub hw ?_); decide)
    | (fail_if_no_progress extract_lets -underBinder -merge -useContext +onlyGivenNames z
       first
       | (refine keeps_cut (s := z) ?_ ?_; (on_goal 1 => unfold z); on_goal 2 => (intro _; try clear_value z))
       | (refine keeps_cut (s := z.2) ?_ ?_; (on_goal 1 => unfold z); on_goal 2 => (intro _; try clear_value z))
       | (refine keeps_cut (s := z.1) ?_ ?_; (on_goal 1 => unfold z); on_goal 2 => (intro _; try clear_value z))
       | (refine keeps_cut (s := z.2.1) ?_ ?_; (on_goal 1 => unfold z); on_goal 2 => (intro _; try clear_value z))
       | try clear_value z)
    | with_reducible apply State.standEnd_keeps | with_reducible apply State.standVector_keeps
    | with_reducible apply State.standImage_keeps | with_reducible apply State.modCore_keeps
    | with_reducible apply keeps_forRange | with_reducible apply keeps_forRange_fst
    | with_reducible apply keeps_forRange_snd | with_reducible apply keeps_ite | with_reducible apply keeps_ite_snd | split
    | ((with_reducible refine State.keeps_mk hw (by assumption) rfl ?_)
       intro p; cases p <;> (first | exact .inl (by decide) | exact .inr rfl))
    | (intro _; intros; try beta_reduce))

theorem State.passOp_keeps {pts : List Part} (hw : Within [.run, .od, .mem, .cores, .engines, .jobs, .hosts, .events] pts)
    {bef : State} {s : State} (c : Nat) (q : Nat) (h : bef.Keeps pts s) : bef.Keeps pts (State.passOp s c q) := by
  unfold State.passOp
  repeat' (first
    | with_reducible assumption | ((with_reducible refine Within.sub hw ?_); decide)
    | (fail_if_no_progress extract_lets -underBinder -merge -useContext +onlyGivenNames z
       first
       | (refine keeps_cut (s := z) ?_ ?_; (on_goal 1 => unfold z); on_goal 2 => (intro _; try clear_value z))
       | try clear_value z)
    | with_reducible apply State.standPass_keeps | with_reducible apply State.standEnd_keeps
    | with_reducible apply State.enginePass_keeps | with_reducible apply State.refusePass_keeps
    | with_reducible apply keeps_ite | with_reducible apply keeps_ite_snd | split
    | ((with_reducible refine State.keeps_mk hw (by assumption) rfl ?_)
       intro p; cases p <;> (first | exact .inl (by decide) | exact .inr rfl))
    | (intro _; intros; try beta_reduce))

theorem execPass_keeps (dt : Nat) (core : Fin 16) (queue : Fin 66) (s : State) :
    ∃ t, execPass dt core queue s = .next t ∧ (s.elapse dt).Keeps [.run, .od, .mem, .cores, .engines, .jobs, .hosts, .events]
        t := by
  unfold execPass
  refine ⟨_, rfl, ?_⟩
  have hw : Within [.run, .od, .mem, .cores, .engines, .jobs, .hosts, .events] [.run, .od, .mem, .cores, .engines, .jobs,
      .hosts, .events] := fun _ h => h
  have h := State.Keeps.refl [.run, .od, .mem, .cores, .engines, .jobs, .hosts, .events] (s.elapse dt)
  generalize s.elapse dt = bef at h ⊢
  repeat' (first
    | with_reducible assumption | ((with_reducible refine Within.sub hw ?_); decide)
    | with_reducible apply State.passOp_keeps | with_reducible apply keeps_ite | with_reducible apply keeps_ite_snd | split
    | (intro _; intros; try beta_reduce))

end Sys2Proof.Machine
end

