-- ==== Sys2Proof/Laws/KeepsPower.lean ====
section
/-! SUPPORT. What the operations of Machine/Power.lean keep. -/

namespace Sys2Proof.Machine

theorem State.noteLevers_keeps {pts : List Part} (hw : Within [.od, .hosts, .power, .events] pts) {bef : State} {s : State}
    (h : bef.Keeps pts s) : bef.Keeps pts (State.noteLevers s) := by
  unfold State.noteLevers
  repeat' (first
    | with_reducible assumption | ((with_reducible refine Within.sub hw ?_); decide)
    | (fail_if_no_progress extract_lets -underBinder -merge -useContext +onlyGivenNames z
       first
       | (refine keeps_cut (s := z) ?_ ?_; (on_goal 1 => unfold z); on_goal 2 => (intro _; try clear_value z))
       | try clear_value z)
    | with_reducible apply State.done_keeps | with_reducible apply State.clearAlarm_keeps
    | with_reducible apply State.bump_keeps | with_reducible apply keeps_ite | with_reducible apply keeps_ite_snd | split
    | ((with_reducible refine State.keeps_mk hw (by assumption) rfl ?_)
       intro p; cases p <;> (first | exact .inl (by decide) | exact .inr rfl))
    | (intro _; intros; try beta_reduce))

theorem State.measure_keeps {pts : List Part} (hw : Within [.od, .hosts, .power, .events] pts) {bef : State} {s : State}
    (draw : Nat) (h : bef.Keeps pts s) : bef.Keeps pts (State.measure s draw) := by
  unfold State.measure
  repeat' (first
    | with_reducible assumption | ((with_reducible refine Within.sub hw ?_); decide)
    | with_reducible apply State.noteLevers_keeps | with_reducible apply State.raiseTo_keeps
    | with_reducible apply State.setVal_keeps | with_reducible apply keeps_ite | with_reducible apply keeps_ite_snd | split
    | (intro _; intros; try beta_reduce))

theorem State.leverApply_keeps {pts : List Part} (hw : Within [.od, .cores, .hosts, .power, .events] pts) {bef : State} {s :
    State} (draw : Nat) (amount : Nat) (h : bef.Keeps pts s) : bef.Keeps pts (State.leverApply s draw amount) := by
  unfold State.leverApply
  repeat' (first
    | with_reducible assumption | ((with_reducible refine Within.sub hw ?_); decide)
    | (fail_if_no_progress extract_lets -underBinder -merge -useContext +onlyGivenNames z
       first
       | (refine keeps_cut (s := z) ?_ ?_; (on_goal 1 => unfold z); on_goal 2 => (intro _; try clear_value z))
       | try clear_value z)
    | with_reducible apply State.measure_keeps | with_reducible apply State.noteLevers_keeps
    | with_reducible apply State.restretchAll_keeps | with_reducible apply keeps_ite | with_reducible apply keeps_ite_snd
    | split
    | ((with_reducible refine State.keeps_mk hw (by assumption) rfl ?_)
       intro p; cases p <;> (first | exact .inl (by decide) | exact .inr rfl))
    | (intro _; intros; try beta_reduce))

theorem execGovernorLeverApply_keeps (dt : Nat) (draw : Nat) (amount : Nat) (s : State) :
    ∃ t, execGovernorLeverApply dt draw amount s = .next t ∧ (s.elapse dt).Keeps [.od, .cores, .hosts, .power, .events] t := by
  unfold execGovernorLeverApply
  refine ⟨_, rfl, ?_⟩
  have hw : Within [.od, .cores, .hosts, .power, .events] [.od, .cores, .hosts, .power, .events] := fun _ h => h
  have h := State.Keeps.refl [.od, .cores, .hosts, .power, .events] (s.elapse dt)
  generalize s.elapse dt = bef at h ⊢
  repeat' (first
    | with_reducible assumption | ((with_reducible refine Within.sub hw ?_); decide)
    | with_reducible apply State.leverApply_keeps | with_reducible apply keeps_ite | with_reducible apply keeps_ite_snd
    | split | (intro _; intros; try beta_reduce))

theorem State.leverRelease_keeps {pts : List Part} (hw : Within [.od, .cores, .hosts, .power, .events] pts) {bef : State} {s
    : State} (draw : Nat) (amount : Nat) (h : bef.Keeps pts s) : bef.Keeps pts (State.leverRelease s draw amount) := by
  unfold State.leverRelease
  repeat' (first
    | with_reducible assumption | ((with_reducible refine Within.sub hw ?_); decide)
    | (fail_if_no_progress extract_lets -underBinder -merge -useContext +onlyGivenNames z
       first
       | (refine keeps_cut (s := z) ?_ ?_; (on_goal 1 => unfold z); on_goal 2 => (intro _; try clear_value z))
       | try clear_value z)
    | with_reducible apply State.measure_keeps | with_reducible apply State.noteLevers_keeps
    | with_reducible apply State.restretchAll_keeps | with_reducible apply keeps_ite | with_reducible apply keeps_ite_snd
    | split
    | ((with_reducible refine State.keeps_mk hw (by assumption) rfl ?_)
       intro p; cases p <;> (first | exact .inl (by decide) | exact .inr rfl))
    | (intro _; intros; try beta_reduce))

theorem execGovernorLeverRelease_keeps (dt : Nat) (draw : Nat) (amount : Nat) (s : State) :
    ∃ t, execGovernorLeverRelease dt draw amount s = .next t ∧ (s.elapse dt).Keeps [.od, .cores, .hosts, .power, .events] t
        := by
  unfold execGovernorLeverRelease
  refine ⟨_, rfl, ?_⟩
  have hw : Within [.od, .cores, .hosts, .power, .events] [.od, .cores, .hosts, .power, .events] := fun _ h => h
  have h := State.Keeps.refl [.od, .cores, .hosts, .power, .events] (s.elapse dt)
  generalize s.elapse dt = bef at h ⊢
  repeat' (first
    | with_reducible assumption | ((with_reducible refine Within.sub hw ?_); decide)
    | with_reducible apply State.leverRelease_keeps | with_reducible apply keeps_ite | with_reducible apply keeps_ite_snd
    | split | (intro _; intros; try beta_reduce))

theorem State.capUnmet_keeps {pts : List Part} (hw : Within [.od, .hosts, .power, .events] pts) {bef : State} {s : State}
    (draw : Nat) (h : bef.Keeps pts s) : bef.Keeps pts (State.capUnmet s draw) := by
  unfold State.capUnmet
  repeat' (first
    | with_reducible assumption | ((with_reducible refine Within.sub hw ?_); decide)
    | (fail_if_no_progress extract_lets -underBinder -merge -useContext +onlyGivenNames z
       first
       | (refine keeps_cut (s := z) ?_ ?_; (on_goal 1 => unfold z); on_goal 2 => (intro _; try clear_value z))
       | try clear_value z)
    | with_reducible apply State.measure_keeps | with_reducible apply State.raise_keeps | with_reducible apply keeps_ite
    | with_reducible apply keeps_ite_snd | split
    | ((with_reducible refine State.keeps_mk hw (by assumption) rfl ?_)
       intro p; cases p <;> (first | exact .inl (by decide) | exact .inr rfl))
    | (intro _; intros; try beta_reduce))

theorem execPowerCapUnmet_keeps (dt : Nat) (draw : Nat) (s : State) :
    ∃ t, execPowerCapUnmet dt draw s = .next t ∧ (s.elapse dt).Keeps [.od, .hosts, .power, .events] t := by
  unfold execPowerCapUnmet
  refine ⟨_, rfl, ?_⟩
  have hw : Within [.od, .hosts, .power, .events] [.od, .hosts, .power, .events] := fun _ h => h
  have h := State.Keeps.refl [.od, .hosts, .power, .events] (s.elapse dt)
  generalize s.elapse dt = bef at h ⊢
  repeat' (first
    | with_reducible assumption | ((with_reducible refine Within.sub hw ?_); decide)
    | with_reducible apply State.capUnmet_keeps | with_reducible apply keeps_ite | with_reducible apply keeps_ite_snd
    | split | (intro _; intros; try beta_reduce))

theorem State.powerCapAct_keeps {pts : List Part} (hw : Within [.od, .hosts, .power, .events] pts) {bef : State} (v : Nat) {s
    : State} (h : bef.Keeps pts s) : bef.Keeps pts (State.powerCapAct v s).2 := by
  unfold State.powerCapAct
  repeat' (first
    | with_reducible assumption | ((with_reducible refine Within.sub hw ?_); decide)
    | with_reducible apply State.noteLevers_keeps | with_reducible apply accept_keeps
    | with_reducible apply State.setVal_keeps | with_reducible apply keeps_ite | with_reducible apply keeps_ite_snd | split
    | (intro _; intros; try beta_reduce))

theorem execPowerCapWrite_keeps (dt : Nat) (road : Road) (watts : BitVec 16) (s : State) :
    ∃ t, execPowerCapWrite dt road watts s = .next t ∧ (s.elapse dt).Keeps [.out, .od, .hosts, .power, .events] t := by
  unfold execPowerCapWrite
  refine ⟨_, rfl, ?_⟩
  have hw : Within [.out, .od, .hosts, .power, .events] [.out, .od, .hosts, .power, .events] := fun _ h => h
  have h := State.Keeps.refl [.out, .od, .hosts, .power, .events] (s.elapse dt)
  generalize s.elapse dt = bef at h ⊢
  repeat' (first
    | with_reducible assumption | ((with_reducible refine Within.sub hw ?_); decide)
    | with_reducible apply State.powerCapAct_keeps | with_reducible apply State.writeRow_keeps
    | with_reducible apply keeps_ite | with_reducible apply keeps_ite_snd | split | (intro _; intros; try beta_reduce))

end Sys2Proof.Machine
end

