-- ==== Sys2Proof/Laws/KeepsPulseRef.lean ====
section
/-! SUPPORT. What the operations of Machine/PulseRef.lean keep. -/

namespace Sys2Proof.Machine

theorem execEngineFaultStop_keeps (dt : Nat) (core : Fin 16) (eng : Fin 34) (s : State) :
    ∃ t, execEngineFaultStop dt core eng s = .next t ∧ (s.elapse dt).Keeps [.od, .units, .cores, .engines, .jobs, .hosts,
        .events] t := by
  unfold execEngineFaultStop
  refine ⟨_, rfl, ?_⟩
  have hw : Within [.od, .units, .cores, .engines, .jobs, .hosts, .events] [.od, .units, .cores, .engines, .jobs, .hosts,
      .events] := fun _ h => h
  have h := State.Keeps.refl [.od, .units, .cores, .engines, .jobs, .hosts, .events] (s.elapse dt)
  generalize s.elapse dt = bef at h ⊢
  repeat' (first
    | with_reducible assumption | ((with_reducible refine Within.sub hw ?_); decide)
    | (fail_if_no_progress extract_lets -underBinder -merge -useContext +onlyGivenNames z
       first
       | (refine keeps_cut (s := z) ?_ ?_; (on_goal 1 => unfold z); on_goal 2 => (intro _; try clear_value z))
       | try clear_value z)
    | with_reducible apply State.fence_keeps | with_reducible apply State.bump_keeps | with_reducible apply keeps_ite
    | with_reducible apply keeps_ite_snd | split | (intro _; intros; try beta_reduce))

theorem State.discardWindow_keeps {pts : List Part} (hw : Within [.od, .engines] pts) {bef : State} {s : State} (c : Nat) (e
    : Nat) (h : bef.Keeps pts s) : bef.Keeps pts (State.discardWindow s c e) := by
  unfold State.discardWindow
  repeat' (first
    | with_reducible assumption | ((with_reducible refine Within.sub hw ?_); decide)
    | (fail_if_no_progress extract_lets -underBinder -merge -useContext +onlyGivenNames z
       first
       | (refine keeps_cut (s := z) ?_ ?_; (on_goal 1 => unfold z); on_goal 2 => (intro _; try clear_value z))
       | try clear_value z)
    | with_reducible apply State.bump_keeps | with_reducible apply State.modEng_keeps | with_reducible apply keeps_ite
    | with_reducible apply keeps_ite_snd | split
    | ((with_reducible refine State.keeps_mk hw (by assumption) rfl ?_)
       intro p; cases p <;> (first | exact .inl (by decide) | exact .inr rfl))
    | (intro _; intros; try beta_reduce))

theorem execPulseRefLockLoss_keeps (dt : Nat) (core : Fin 16) (s : State) :
    ∃ t, execPulseRefLockLoss dt core s = .next t ∧ (s.elapse dt).Keeps [.od, .cores, .engines] t := by
  unfold execPulseRefLockLoss
  refine ⟨_, rfl, ?_⟩
  have hw : Within [.od, .cores, .engines] [.od, .cores, .engines] := fun _ h => h
  have h := State.Keeps.refl [.od, .cores, .engines] (s.elapse dt)
  generalize s.elapse dt = bef at h ⊢
  repeat' (first
    | with_reducible assumption | ((with_reducible refine Within.sub hw ?_); decide)
    | (fail_if_no_progress extract_lets -underBinder -merge -useContext +onlyGivenNames z
       first
       | (refine keeps_cut (s := z) ?_ ?_; (on_goal 1 => unfold z); on_goal 2 => (intro _; try clear_value z))
       | try clear_value z)
    | with_reducible apply State.discardWindow_keeps | with_reducible apply State.bump_keeps
    | with_reducible apply State.modCore_keeps | with_reducible apply keeps_forRange | with_reducible apply keeps_ite
    | with_reducible apply keeps_ite_snd | split
    | ((with_reducible refine State.keeps_mk hw (by assumption) rfl ?_)
       intro p; cases p <;> (first | exact .inl (by decide) | exact .inr rfl))
    | (intro _; intros; try beta_reduce))

theorem execPulseRefRelock_keeps (dt : Nat) (core : Fin 16) (s : State) :
    ∃ t, execPulseRefRelock dt core s = .next t ∧ (s.elapse dt).Keeps [.cores] t := by
  unfold execPulseRefRelock
  refine ⟨_, rfl, ?_⟩
  have hw : Within [.cores] [.cores] := fun _ h => h
  have h := State.Keeps.refl [.cores] (s.elapse dt)
  generalize s.elapse dt = bef at h ⊢
  repeat' (first
    | with_reducible assumption | ((with_reducible refine Within.sub hw ?_); decide)
    | (fail_if_no_progress extract_lets -underBinder -merge -useContext +onlyGivenNames z
       first
       | (refine keeps_cut (s := z) ?_ ?_; (on_goal 1 => unfold z); on_goal 2 => (intro _; try clear_value z))
       | try clear_value z)
    | with_reducible apply State.modCore_keeps | with_reducible apply keeps_ite | with_reducible apply keeps_ite_snd | split
    | ((with_reducible refine State.keeps_mk hw (by assumption) rfl ?_)
       intro p; cases p <;> (first | exact .inl (by decide) | exact .inr rfl))
    | (intro _; intros; try beta_reduce))

theorem execPulseRefUnlock_keeps (dt : Nat) (core : Fin 16) (s : State) :
    ∃ t, execPulseRefUnlock dt core s = .next t ∧ (s.elapse dt).Keeps [.od, .units, .cores, .engines, .jobs, .hosts, .events]
        t := by
  unfold execPulseRefUnlock
  refine ⟨_, rfl, ?_⟩
  have hw : Within [.od, .units, .cores, .engines, .jobs, .hosts, .events] [.od, .units, .cores, .engines, .jobs, .hosts,
      .events] := fun _ h => h
  have h := State.Keeps.refl [.od, .units, .cores, .engines, .jobs, .hosts, .events] (s.elapse dt)
  generalize s.elapse dt = bef at h ⊢
  repeat' (first
    | with_reducible assumption | ((with_reducible refine Within.sub hw ?_); decide)
    | (fail_if_no_progress extract_lets -underBinder -merge -useContext +onlyGivenNames z
       first
       | (refine keeps_cut (s := z) ?_ ?_; (on_goal 1 => unfold z); on_goal 2 => (intro _; try clear_value z))
       | try clear_value z)
    | with_reducible apply State.fence_keeps | with_reducible apply State.raise_keeps
    | with_reducible apply State.modCore_keeps | with_reducible apply keeps_ite | with_reducible apply keeps_ite_snd | split
    | ((with_reducible refine State.keeps_mk hw (by assumption) rfl ?_)
       intro p; cases p <;> (first | exact .inl (by decide) | exact .inr rfl))
    | (intro _; intros; try beta_reduce))

end Sys2Proof.Machine
end

