-- ==== Sys2Proof/Laws/KeepsReadout.lean ====
section
/-! SUPPORT. What the operations of Machine/Readout.lean keep. -/

namespace Sys2Proof.Machine

theorem State.countPolicy_keeps {pts : List Part} (hw : Within [.jobs] pts) {bef : State} {s : State} (c : Nat) (p : TvWord)
    (r : PassRun) (w : Window) (split : Bool) (h : bef.Keeps pts s) : bef.Keeps pts (State.countPolicy s c p r w split) := by
  unfold State.countPolicy
  repeat' (first
    | with_reducible assumption | ((with_reducible refine Within.sub hw ?_); decide)
    | (fail_if_no_progress extract_lets -underBinder -merge -useContext +onlyGivenNames z
       first
       | (refine keeps_cut (s := z) ?_ ?_; (on_goal 1 => unfold z); on_goal 2 => (intro _; try clear_value z))
       | try clear_value z)
    | with_reducible apply State.modJob_keeps | with_reducible apply keeps_ite | with_reducible apply keeps_ite_snd | split
    | ((with_reducible refine State.keeps_mk hw (by assumption) rfl ?_)
       intro p; cases p <;> (first | exact .inl (by decide) | exact .inr rfl))
    | (intro _; intros; try beta_reduce))

theorem State.acceptWindow_keeps {pts : List Part} (hw : Within [.engines] pts) {bef : State} {s : State} (c : Nat) (e : Nat)
    (p : TvWord) (v : AVec) (r : PassRun) (w : Window) (h : bef.Keeps pts s) : bef.Keeps pts (State.acceptWindow s c e p v r
    w) := by
  unfold State.acceptWindow
  repeat' (first
    | with_reducible assumption | ((with_reducible refine Within.sub hw ?_); decide)
    | with_reducible apply State.modEng_keeps | with_reducible apply keeps_ite | with_reducible apply keeps_ite_snd | split
    | (intro _; intros; try beta_reduce))

theorem State.decideRead_keeps {pts : List Part} (hw : Within [.od, .engines, .jobs] pts) {bef : State} {s : State} (c : Nat)
    (e : Nat) (w : Window) (p : TvWord) (v : AVec) (r : PassRun) (cs : List Conversion) (h : bef.Keeps pts s) : bef.Keeps pts
    (State.decideRead s c e w p v r cs) := by
  unfold State.decideRead
  repeat' (first
    | with_reducible assumption | ((with_reducible refine Within.sub hw ?_); decide)
    | (fail_if_no_progress extract_lets -underBinder -merge -useContext +onlyGivenNames z
       first
       | (refine keeps_cut (s := z) ?_ ?_; (on_goal 1 => unfold z); on_goal 2 => (intro _; try clear_value z))
       | (refine keeps_cut (s := z.2) ?_ ?_; (on_goal 1 => unfold z); on_goal 2 => (intro _; try clear_value z))
       | (refine keeps_cut (s := z.1) ?_ ?_; (on_goal 1 => unfold z); on_goal 2 => (intro _; try clear_value z))
       | (refine keeps_cut (s := z.2.1) ?_ ?_; (on_goal 1 => unfold z); on_goal 2 => (intro _; try clear_value z))
       | try clear_value z)
    | with_reducible apply State.acceptWindow_keeps | with_reducible apply State.countPolicy_keeps
    | with_reducible apply State.raiseTo_keeps | with_reducible apply State.bump_keeps
    | with_reducible apply State.modEng_keeps | with_reducible apply keeps_foldl | with_reducible apply keeps_foldl_fst
    | with_reducible apply keeps_foldl_snd | with_reducible apply keeps_foldl_mid | with_reducible apply keeps_ite
    | with_reducible apply keeps_ite_snd | split
    | ((with_reducible refine State.keeps_mk hw (by assumption) rfl ?_)
       intro p; cases p <;> (first | exact .inl (by decide) | exact .inr rfl))
    | (intro _; intros; try beta_reduce))

theorem execWindowDecision_keeps (dt : Nat) (core : Fin 16) (eng : Fin 34) (charges : List Int) (gaps : List Nat) (s : State) :
    ∃ t, execWindowDecision dt core eng charges gaps s = .next t ∧ (s.elapse dt).Keeps [.od, .engines, .jobs] t := by
  unfold execWindowDecision
  refine ⟨_, rfl, ?_⟩
  have hw : Within [.od, .engines, .jobs] [.od, .engines, .jobs] := fun _ h => h
  have h := State.Keeps.refl [.od, .engines, .jobs] (s.elapse dt)
  generalize s.elapse dt = bef at h ⊢
  repeat' (first
    | with_reducible assumption | ((with_reducible refine Within.sub hw ?_); decide)
    | (fail_if_no_progress extract_lets -underBinder -merge -useContext +onlyGivenNames z
       first
       | (refine keeps_cut (s := z) ?_ ?_; (on_goal 1 => unfold z); on_goal 2 => (intro _; try clear_value z))
       | try clear_value z)
    | with_reducible apply State.decideRead_keeps | with_reducible apply State.modEng_keeps | with_reducible apply keeps_ite
    | with_reducible apply keeps_ite_snd | split
    | ((with_reducible refine State.keeps_mk hw (by assumption) rfl ?_)
       intro p; cases p <;> (first | exact .inl (by decide) | exact .inr rfl))
    | (intro _; intros; try beta_reduce))

theorem execHeadroomPolicyEval_keeps (dt : Nat) (job : Fin 8) (tag : BitVec 14) (s : State) :
    ∃ t, execHeadroomPolicyEval dt job tag s = .next t ∧ (s.elapse dt).Keeps [.jobs] t := by
  unfold execHeadroomPolicyEval
  refine ⟨_, rfl, ?_⟩
  have hw : Within [.jobs] [.jobs] := fun _ h => h
  have h := State.Keeps.refl [.jobs] (s.elapse dt)
  generalize s.elapse dt = bef at h ⊢
  repeat' (first
    | with_reducible assumption | ((with_reducible refine Within.sub hw ?_); decide)
    | (fail_if_no_progress extract_lets -underBinder -merge -useContext +onlyGivenNames z
       first
       | (refine keeps_cut (s := z) ?_ ?_; (on_goal 1 => unfold z); on_goal 2 => (intro _; try clear_value z))
       | try clear_value z)
    | with_reducible apply State.modJob_keeps | with_reducible apply keeps_ite | with_reducible apply keeps_ite_snd | split
    | ((with_reducible refine State.keeps_mk hw (by assumption) rfl ?_)
       intro p; cases p <;> (first | exact .inl (by decide) | exact .inr rfl))
    | (intro _; intros; try beta_reduce))

end Sys2Proof.Machine
end

