-- ==== Sys2Proof/Laws/KeepsRepair.lean ====
section
/-! SUPPORT. What the operations of Machine/Repair.lean keep. -/

namespace Sys2Proof.Machine

theorem State.recalibrate_keeps {pts : List Part} (hw : Within [.engines] pts) {bef : State} {s : State} (c : Nat) (e : Nat)
    (plane : Nat) (h : bef.Keeps pts s) : bef.Keeps pts (State.recalibrate s c e plane) := by
  unfold State.recalibrate
  repeat' (first
    | with_reducible assumption | ((with_reducible refine Within.sub hw ?_); decide)
    | (fail_if_no_progress extract_lets -underBinder -merge -useContext +onlyGivenNames z
       first
       | (refine keeps_cut (s := z) ?_ ?_; (on_goal 1 => unfold z); on_goal 2 => (intro _; try clear_value z))
       | try clear_value z)
    | with_reducible apply State.modEng_keeps | with_reducible apply keeps_foldl | with_reducible apply keeps_ite
    | with_reducible apply keeps_ite_snd | split | (intro _; intros; try beta_reduce))

theorem execRecalibrationDue_keeps (dt : Nat) (core : Fin 16) (eng : Fin 34) (plane : Fin 2) (s : State) :
    ∃ t, execRecalibrationDue dt core eng plane s = .next t ∧ (s.elapse dt).Keeps [.engines] t := by
  unfold execRecalibrationDue
  refine ⟨_, rfl, ?_⟩
  have hw : Within [.engines] [.engines] := fun _ h => h
  have h := State.Keeps.refl [.engines] (s.elapse dt)
  generalize s.elapse dt = bef at h ⊢
  repeat' (first
    | with_reducible assumption | ((with_reducible refine Within.sub hw ?_); decide)
    | with_reducible apply State.recalibrate_keeps | with_reducible apply keeps_ite | with_reducible apply keeps_ite_snd
    | split | (intro _; intros; try beta_reduce))

theorem State.scrubStore_keeps {pts : List Part} (hw : Within [.out, .run, .od, .units, .mem, .cores, .jobs, .streams,
    .sched, .epoch, .hosts, .loops, .convs, .events, .free] pts) {bef : State} {s : State} (c : Nat) (singles : List Nat)
    (doubles : List Nat) (h : bef.Keeps pts s) : bef.Keeps pts (State.scrubStore s c singles doubles) := by
  unfold State.scrubStore
  repeat' (first
    | with_reducible assumption | ((with_reducible refine Within.sub hw ?_); decide)
    | (fail_if_no_progress extract_lets -underBinder -merge -useContext +onlyGivenNames z
       first
       | (refine keeps_cut (s := z) ?_ ?_; (on_goal 1 => unfold z); on_goal 2 => (intro _; try clear_value z))
       | try clear_value z)
    | with_reducible apply State.uncorrectable_keeps | with_reducible apply State.bump_keeps
    | with_reducible apply State.modCore_keeps | with_reducible apply keeps_foldl | with_reducible apply keeps_ite
    | with_reducible apply keeps_ite_snd | split
    | ((with_reducible refine State.keeps_mk hw (by assumption) rfl ?_)
       intro p; cases p <;> (first | exact .inl (by decide) | exact .inr rfl))
    | (intro _; intros; try beta_reduce))

theorem execStoreScrub_keeps (dt : Nat) (core : Fin 16) (singles : List Nat) (doubles : List Nat) (s : State) :
    ∃ t, execStoreScrub dt core singles doubles s = .next t ∧ (s.elapse dt).Keeps [.out, .run, .od, .units, .mem, .cores,
        .jobs, .streams, .sched, .epoch, .hosts, .loops, .convs, .events, .free] t := by
  unfold execStoreScrub
  refine ⟨_, rfl, ?_⟩
  have hw : Within [.out, .run, .od, .units, .mem, .cores, .jobs, .streams, .sched, .epoch, .hosts, .loops, .convs, .events,
      .free] [.out, .run, .od, .units, .mem, .cores, .jobs, .streams, .sched, .epoch, .hosts, .loops, .convs, .events, .free]
      := fun _ h => h
  have h := State.Keeps.refl [.out, .run, .od, .units, .mem, .cores, .jobs, .streams, .sched, .epoch, .hosts, .loops, .convs,
      .events, .free] (s.elapse dt)
  generalize s.elapse dt = bef at h ⊢
  repeat' (first
    | with_reducible assumption | ((with_reducible refine Within.sub hw ?_); decide)
    | with_reducible apply State.scrubStore_keeps | with_reducible apply keeps_ite | with_reducible apply keeps_ite_snd
    | split | (intro _; intros; try beta_reduce))

theorem State.scrubStack_keeps {pts : List Part} (hw : Within [.out, .run, .od, .units, .mem, .stackScrub, .jobs, .streams,
    .sched, .epoch, .hosts, .loops, .convs, .events, .free] pts) {bef : State} {s : State} (m : Nat) (singles : List Nat)
    (doubles : List Nat) (h : bef.Keeps pts s) : bef.Keeps pts (State.scrubStack s m singles doubles) := by
  unfold State.scrubStack
  repeat' (first
    | with_reducible assumption | ((with_reducible refine Within.sub hw ?_); decide)
    | (fail_if_no_progress extract_lets -underBinder -merge -useContext +onlyGivenNames z
       first
       | (refine keeps_cut (s := z) ?_ ?_; (on_goal 1 => unfold z); on_goal 2 => (intro _; try clear_value z))
       | try clear_value z)
    | with_reducible apply State.uncorrectable_keeps | with_reducible apply State.bump_keeps
    | with_reducible apply keeps_foldl | with_reducible apply keeps_ite | with_reducible apply keeps_ite_snd | split
    | ((with_reducible refine State.keeps_mk hw (by assumption) rfl ?_)
       intro p; cases p <;> (first | exact .inl (by decide) | exact .inr rfl))
    | (intro _; intros; try beta_reduce))

theorem execHbmScrub_keeps (dt : Nat) (stack : Fin 20) (singles : List Nat) (doubles : List Nat) (s : State) :
    ∃ t, execHbmScrub dt stack singles doubles s = .next t ∧ (s.elapse dt).Keeps [.out, .run, .od, .units, .mem, .stackScrub,
        .jobs, .streams, .sched, .epoch, .hosts, .loops, .convs, .events, .free] t := by
  unfold execHbmScrub
  refine ⟨_, rfl, ?_⟩
  have hw : Within [.out, .run, .od, .units, .mem, .stackScrub, .jobs, .streams, .sched, .epoch, .hosts, .loops, .convs,
      .events, .free] [.out, .run, .od, .units, .mem, .stackScrub, .jobs, .streams, .sched, .epoch, .hosts, .loops, .convs,
      .events, .free] := fun _ h => h
  have h := State.Keeps.refl [.out, .run, .od, .units, .mem, .stackScrub, .jobs, .streams, .sched, .epoch, .hosts, .loops,
      .convs, .events, .free] (s.elapse dt)
  generalize s.elapse dt = bef at h ⊢
  repeat' (first
    | with_reducible assumption | ((with_reducible refine Within.sub hw ?_); decide)
    | with_reducible apply State.scrubStack_keeps | with_reducible apply keeps_ite | with_reducible apply keeps_ite_snd
    | split | (intro _; intros; try beta_reduce))

theorem State.snapshot_keeps {pts : List Part} (hw : Within [.events] pts) {bef : State} {s : State} (energy : Nat) (h :
    bef.Keeps pts s) : bef.Keeps pts (State.snapshot s energy) := by
  unfold State.snapshot
  repeat' (first
    | with_reducible assumption | ((with_reducible refine Within.sub hw ?_); decide)
    | (fail_if_no_progress extract_lets -underBinder -merge -useContext +onlyGivenNames z
       first
       | (refine keeps_cut (s := z) ?_ ?_; (on_goal 1 => unfold z); on_goal 2 => (intro _; try clear_value z))
       | try clear_value z)
    | with_reducible apply State.boot_keeps | with_reducible apply keeps_ite | with_reducible apply keeps_ite_snd | split
    | ((with_reducible refine State.keeps_mk hw (by assumption) rfl ?_)
       intro p; cases p <;> (first | exact .inl (by decide) | exact .inr rfl))
    | (intro _; intros; try beta_reduce))

theorem execTelemetrySnapshot_keeps (dt : Nat) (energy : Nat) (s : State) :
    ∃ t, execTelemetrySnapshot dt energy s = .next t ∧ (s.elapse dt).Keeps [.events] t := by
  unfold execTelemetrySnapshot
  refine ⟨_, rfl, ?_⟩
  have hw : Within [.events] [.events] := fun _ h => h
  have h := State.Keeps.refl [.events] (s.elapse dt)
  generalize s.elapse dt = bef at h ⊢
  repeat' (first
    | with_reducible assumption | ((with_reducible refine Within.sub hw ?_); decide)
    | with_reducible apply State.snapshot_keeps | with_reducible apply keeps_ite | with_reducible apply keeps_ite_snd
    | split | (intro _; intros; try beta_reduce))

theorem State.repairFenceAct_keeps {pts : List Part} (hw : Within [.od, .units, .cores, .engines, .jobs, .epoch, .ports,
    .hosts, .loops, .convs, .events] pts) {bef : State} (data : List Byte) {s : State} (h : bef.Keeps pts s) : bef.Keeps pts
    (State.repairFenceAct data s).2 := by
  unfold State.repairFenceAct
  repeat' (first
    | with_reducible assumption | ((with_reducible refine Within.sub hw ?_); decide)
    | (fail_if_no_progress extract_lets -underBinder -merge -useContext +onlyGivenNames z
       first
       | (refine keeps_cut (s := z) ?_ ?_; (on_goal 1 => unfold z); on_goal 2 => (intro _; try clear_value z))
       | try clear_value z)
    | with_reducible apply State.holdAllLoops_keeps | with_reducible apply State.lightLost_keeps
    | with_reducible apply refuse_keeps | with_reducible apply accept_keeps | with_reducible apply State.leave_keeps
    | with_reducible apply State.abandonUsers_keeps | with_reducible apply keeps_ite | with_reducible apply keeps_ite_snd
    | split | (intro _; intros; try beta_reduce))

theorem State.repairTestAct_keeps {pts : List Part} (hw : Within [.od, .units] pts) {bef : State} (data : List Byte) {s :
    State} (h : bef.Keeps pts s) : bef.Keeps pts (State.repairTestAct data s).2 := by
  unfold State.repairTestAct
  repeat' (first
    | with_reducible assumption | ((with_reducible refine Within.sub hw ?_); decide)
    | (fail_if_no_progress extract_lets -underBinder -merge -useContext +onlyGivenNames z
       first
       | (refine keeps_cut (s := z) ?_ ?_; (on_goal 1 => unfold z); on_goal 2 => (intro _; try clear_value z))
       | try clear_value z)
    | with_reducible apply refuse_keeps | with_reducible apply accept_keeps | with_reducible apply State.setVal_keeps
    | with_reducible apply State.modUnit_keeps | with_reducible apply keeps_ite | with_reducible apply keeps_ite_snd | split
    | ((with_reducible refine State.keeps_mk hw (by assumption) rfl ?_)
       intro p; cases p <;> (first | exact .inl (by decide) | exact .inr rfl))
    | (intro _; intros; try beta_reduce))

theorem State.repairRetireAct_keeps {pts : List Part} (hw : Within [.out, .run, .od, .units, .mem, .cores, .engines, .jobs,
    .streams, .sched, .epoch, .hosts, .loops, .convs, .events, .free] pts) {bef : State} (data : List Byte) {s : State} (h :
    bef.Keeps pts s) : bef.Keeps pts (State.repairRetireAct data s).2 := by
  unfold State.repairRetireAct
  repeat' (first
    | with_reducible assumption | ((with_reducible refine Within.sub hw ?_); decide)
    | (fail_if_no_progress extract_lets -underBinder -merge -useContext +onlyGivenNames z
       first
       | (refine keeps_cut (s := z) ?_ ?_; (on_goal 1 => unfold z); on_goal 2 => (intro _; try clear_value z))
       | try clear_value z)
    | with_reducible apply State.checkWarm_keeps | with_reducible apply State.holdAllLoops_keeps
    | with_reducible apply refuse_keeps | with_reducible apply accept_keeps | with_reducible apply State.retireStack_keeps
    | with_reducible apply State.leave_keeps | with_reducible apply State.modUnit_keeps | with_reducible apply keeps_ite
    | with_reducible apply keeps_ite_snd | split
    | ((with_reducible refine State.keeps_mk hw (by assumption) rfl ?_)
       intro p; cases p <;> (first | exact .inl (by decide) | exact .inr rfl))
    | (intro _; intros; try beta_reduce))

theorem State.repairUnretireAct_keeps {pts : List Part} (hw : Within [.units] pts) {bef : State} (data : List Byte) {s :
    State} (h : bef.Keeps pts s) : bef.Keeps pts (State.repairUnretireAct data s).2 := by
  unfold State.repairUnretireAct
  repeat' (first
    | with_reducible assumption | ((with_reducible refine Within.sub hw ?_); decide)
    | (fail_if_no_progress extract_lets -underBinder -merge -useContext +onlyGivenNames z
       first
       | (refine keeps_cut (s := z) ?_ ?_; (on_goal 1 => unfold z); on_goal 2 => (intro _; try clear_value z))
       | try clear_value z)
    | with_reducible apply State.standby_keeps | with_reducible apply refuse_keeps | with_reducible apply accept_keeps
    | with_reducible apply State.putUnit_keeps | with_reducible apply State.modUnit_keeps | with_reducible apply keeps_ite
    | with_reducible apply keeps_ite_snd | split
    | ((with_reducible refine State.keeps_mk hw (by assumption) rfl ?_)
       intro p; cases p <;> (first | exact .inl (by decide) | exact .inr rfl))
    | (intro _; intros; try beta_reduce))

theorem State.repairCommandAct_keeps {pts : List Part} (hw : Within [.out, .run, .od, .units, .mem, .cores, .engines, .jobs,
    .streams, .sched, .epoch, .ports, .hosts, .loops, .convs, .events, .free] pts) {bef : State} (data : List Byte) {s :
    State} (h : bef.Keeps pts s) : bef.Keeps pts (State.repairCommandAct data s).2 := by
  unfold State.repairCommandAct
  repeat' (first
    | with_reducible assumption | ((with_reducible refine Within.sub hw ?_); decide)
    | (fail_if_no_progress extract_lets -underBinder -merge -useContext +onlyGivenNames z
       first
       | (refine keeps_cut (s := z) ?_ ?_; (on_goal 1 => unfold z); on_goal 2 => (intro _; try clear_value z))
       | try clear_value z)
    | with_reducible apply State.repairUnretireAct_keeps | with_reducible apply State.repairRetireAct_keeps
    | with_reducible apply State.repairTestAct_keeps | with_reducible apply State.repairFenceAct_keeps
    | with_reducible apply refuse_keeps | with_reducible apply keeps_ite | with_reducible apply keeps_ite_snd | split
    | ((with_reducible refine State.keeps_mk hw (by assumption) rfl ?_)
       intro p; cases p <;> (first | exact .inl (by decide) | exact .inr rfl))
    | (intro _; intros; try beta_reduce))

theorem State.repairRow_keeps {pts : List Part} (hw : Within [.out, .od, .hosts, .events] pts) {bef : State} {s : State}
    (road : Road) (data : List Byte) (cmd : Nat) (act : List Byte → State → Nat × State) (h : bef.Keeps pts s) (hact : ∀ y0
    y1, bef.Keeps pts y1 → bef.Keeps pts (act y0 y1).2) : bef.Keeps pts (State.repairRow s road data cmd act) := by
  unfold State.repairRow
  repeat' (first
    | with_reducible assumption | with_reducible apply hact | ((with_reducible refine Within.sub hw ?_); decide)
    | with_reducible apply State.writeRow_keeps | with_reducible apply keeps_ite | with_reducible apply keeps_ite_snd
    | split | (intro _; intros; try beta_reduce))

theorem execRepairFence_keeps (dt : Nat) (road : Road) (data : List Byte) (s : State) :
    ∃ t, execRepairFence dt road data s = .next t ∧ (s.elapse dt).Keeps [.out, .od, .units, .cores, .engines, .jobs, .epoch,
        .ports, .hosts, .loops, .convs, .events] t := by
  unfold execRepairFence
  refine ⟨_, rfl, ?_⟩
  have hw : Within [.out, .od, .units, .cores, .engines, .jobs, .epoch, .ports, .hosts, .loops, .convs, .events] [.out, .od,
      .units, .cores, .engines, .jobs, .epoch, .ports, .hosts, .loops, .convs, .events] := fun _ h => h
  have h := State.Keeps.refl [.out, .od, .units, .cores, .engines, .jobs, .epoch, .ports, .hosts, .loops, .convs, .events]
      (s.elapse dt)
  generalize s.elapse dt = bef at h ⊢
  repeat' (first
    | with_reducible assumption | ((with_reducible refine Within.sub hw ?_); decide)
    | with_reducible apply State.repairRow_keeps | with_reducible apply State.repairFenceAct_keeps
    | with_reducible apply keeps_ite | with_reducible apply keeps_ite_snd | split | (intro _; intros; try beta_reduce))

theorem execRepairTest_keeps (dt : Nat) (road : Road) (data : List Byte) (s : State) :
    ∃ t, execRepairTest dt road data s = .next t ∧ (s.elapse dt).Keeps [.out, .od, .units, .hosts, .events] t := by
  unfold execRepairTest
  refine ⟨_, rfl, ?_⟩
  have hw : Within [.out, .od, .units, .hosts, .events] [.out, .od, .units, .hosts, .events] := fun _ h => h
  have h := State.Keeps.refl [.out, .od, .units, .hosts, .events] (s.elapse dt)
  generalize s.elapse dt = bef at h ⊢
  repeat' (first
    | with_reducible assumption | ((with_reducible refine Within.sub hw ?_); decide)
    | with_reducible apply State.repairRow_keeps | with_reducible apply State.repairTestAct_keeps
    | with_reducible apply keeps_ite | with_reducible apply keeps_ite_snd | split | (intro _; intros; try beta_reduce))

theorem execRepairRetire_keeps (dt : Nat) (road : Road) (data : List Byte) (s : State) :
    ∃ t, execRepairRetire dt road data s = .next t ∧ (s.elapse dt).Keeps [.out, .run, .od, .units, .mem, .cores, .engines,
        .jobs, .streams, .sched, .epoch, .hosts, .loops, .convs, .events, .free] t := by
  unfold execRepairRetire
  refine ⟨_, rfl, ?_⟩
  have hw : Within [.out, .run, .od, .units, .mem, .cores, .engines, .jobs, .streams, .sched, .epoch, .hosts, .loops, .convs,
      .events, .free] [.out, .run, .od, .units, .mem, .cores, .engines, .jobs, .streams, .sched, .epoch, .hosts, .loops,
      .convs, .events, .free] := fun _ h => h
  have h := State.Keeps.refl [.out, .run, .od, .units, .mem, .cores, .engines, .jobs, .streams, .sched, .epoch, .hosts,
      .loops, .convs, .events, .free] (s.elapse dt)
  generalize s.elapse dt = bef at h ⊢
  repeat' (first
    | with_reducible assumption | ((with_reducible refine Within.sub hw ?_); decide)
    | with_reducible apply State.repairRow_keeps | with_reducible apply State.repairRetireAct_keeps
    | with_reducible apply keeps_ite | with_reducible apply keeps_ite_snd | split | (intro _; intros; try beta_reduce))

theorem execRepairUnretire_keeps (dt : Nat) (road : Road) (data : List Byte) (s : State) :
    ∃ t, execRepairUnretire dt road data s = .next t ∧ (s.elapse dt).Keeps [.out, .od, .units, .hosts, .events] t := by
  unfold execRepairUnretire
  refine ⟨_, rfl, ?_⟩
  have hw : Within [.out, .od, .units, .hosts, .events] [.out, .od, .units, .hosts, .events] := fun _ h => h
  have h := State.Keeps.refl [.out, .od, .units, .hosts, .events] (s.elapse dt)
  generalize s.elapse dt = bef at h ⊢
  repeat' (first
    | with_reducible assumption | ((with_reducible refine Within.sub hw ?_); decide)
    | with_reducible apply State.repairRow_keeps | with_reducible apply State.repairUnretireAct_keeps
    | with_reducible apply keeps_ite | with_reducible apply keeps_ite_snd | split | (intro _; intros; try beta_reduce))

theorem State.zonesBack_keeps {pts : List Part} (hw : Within [.od, .cores, .hosts, .zones, .power, .events] pts) {bef :
    State} {s : State} (r : Nat) (h : bef.Keeps pts s) : bef.Keeps pts (State.zonesBack s r) := by
  unfold State.zonesBack
  repeat' (first
    | with_reducible assumption | ((with_reducible refine Within.sub hw ?_); decide)
    | (fail_if_no_progress extract_lets -underBinder -merge -useContext +onlyGivenNames z
       first
       | (refine keeps_cut (s := z) ?_ ?_; (on_goal 1 => unfold z); on_goal 2 => (intro _; try clear_value z))
       | try clear_value z)
    | with_reducible apply State.zoneTo_keeps | with_reducible apply keeps_forRange | with_reducible apply keeps_ite
    | with_reducible apply keeps_ite_snd | split | (intro _; intros; try beta_reduce))

theorem State.repaired_keeps {pts : List Part} (hw : Within [.cores, .engines] pts) {bef : State} {s : State} (r : Nat) (h :
    bef.Keeps pts s) : bef.Keeps pts (State.repaired s r) := by
  unfold State.repaired
  repeat' (first
    | with_reducible assumption | ((with_reducible refine Within.sub hw ?_); decide) | with_reducible apply hz
    | (fail_if_no_progress extract_lets -underBinder -merge -useContext +onlyGivenNames z
       first
       | (refine keeps_fact (P := ∀ x0 x1 x2, bef.Keeps pts x0 → bef.Keeps pts (z x0 x1 x2)) ?_ (fun hz => ?_); (on_goal 1 => (unfold z; intros; try beta_reduce)); on_goal 2 => (try clear_value z))
       | (refine keeps_cut (s := z) ?_ ?_; (on_goal 1 => unfold z); on_goal 2 => (intro _; try clear_value z))
       | try clear_value z)
    | with_reducible apply State.warmStep_keeps | with_reducible apply State.modEng_keeps
    | with_reducible apply State.modCore_keeps | with_reducible apply keeps_foldl | with_reducible apply keeps_forRange
    | with_reducible apply keeps_ite | with_reducible apply keeps_ite_snd | split
    | ((with_reducible refine State.keeps_mk hw (by assumption) rfl ?_)
       intro p; cases p <;> (first | exact .inl (by decide) | exact .inr rfl))
    | (intro _; intros; try beta_reduce))

theorem State.testDone_keeps {pts : List Part} (hw : Within [.run, .od, .units, .cores, .engines, .epoch, .hosts, .loops,
    .convs, .zones, .power, .events] pts) {bef : State} {s : State} (r : Nat) (passed : Bool) (h : bef.Keeps pts s) :
    bef.Keeps pts (State.testDone s r passed) := by
  unfold State.testDone
  repeat' (first
    | with_reducible assumption | ((with_reducible refine Within.sub hw ?_); decide)
    | (fail_if_no_progress extract_lets -underBinder -merge -useContext +onlyGivenNames z
       first
       | (refine keeps_cut (s := z) ?_ ?_; (on_goal 1 => unfold z); on_goal 2 => (intro _; try clear_value z))
       | (refine keeps_cut (s := z.2) ?_ ?_; (on_goal 1 => unfold z); on_goal 2 => (intro _; try clear_value z))
       | (refine keeps_cut (s := z.1) ?_ ?_; (on_goal 1 => unfold z); on_goal 2 => (intro _; try clear_value z))
       | (refine keeps_cut (s := z.2.1) ?_ ?_; (on_goal 1 => unfold z); on_goal 2 => (intro _; try clear_value z))
       | try clear_value z)
    | with_reducible apply State.repaired_keeps | with_reducible apply State.zonesBack_keeps
    | with_reducible apply State.checkWarm_keeps | with_reducible apply State.holdAllLoops_keeps
    | with_reducible apply State.setUnit_keeps | with_reducible apply State.raise_keeps
    | with_reducible apply State.bump_keeps | with_reducible apply State.setVal_keeps
    | with_reducible apply State.putUnit_keeps | with_reducible apply State.modUnit_keeps | with_reducible apply keeps_ite
    | with_reducible apply keeps_ite_snd | split
    | ((with_reducible refine State.keeps_mk hw (by assumption) rfl ?_)
       intro p; cases p <;> (first | exact .inl (by decide) | exact .inr rfl))
    | (intro _; intros; try beta_reduce))

theorem execRepairTestDone_keeps (dt : Nat) (unit : UnitRef) (passed : Bool) (s : State) :
    ∃ t, execRepairTestDone dt unit passed s = .next t ∧ (s.elapse dt).Keeps [.run, .od, .units, .cores, .engines, .epoch,
        .hosts, .loops, .convs, .zones, .power, .events] t := by
  unfold execRepairTestDone
  refine ⟨_, rfl, ?_⟩
  have hw : Within [.run, .od, .units, .cores, .engines, .epoch, .hosts, .loops, .convs, .zones, .power, .events] [.run, .od,
      .units, .cores, .engines, .epoch, .hosts, .loops, .convs, .zones, .power, .events] := fun _ h => h
  have h := State.Keeps.refl [.run, .od, .units, .cores, .engines, .epoch, .hosts, .loops, .convs, .zones, .power, .events]
      (s.elapse dt)
  generalize s.elapse dt = bef at h ⊢
  repeat' (first
    | with_reducible assumption | ((with_reducible refine Within.sub hw ?_); decide)
    | with_reducible apply State.testDone_keeps | with_reducible apply keeps_ite | with_reducible apply keeps_ite_snd
    | split | (intro _; intros; try beta_reduce))

end Sys2Proof.Machine
end

