-- ==== Sys2Proof/Laws/KeepsReports.lean ====
section
/-! SUPPORT. What the operations of Machine/Reports.lean keep. -/

namespace Sys2Proof.Machine

theorem State.sendDatagram_keeps {pts : List Part} (hw : Within [.out, .od, .ports, .events] pts) {bef : State} {s : State}
    (h : bef.Keeps pts s) : bef.Keeps pts (State.sendDatagram s) := by
  unfold State.sendDatagram
  repeat' (first
    | with_reducible assumption | ((with_reducible refine Within.sub hw ?_); decide)
    | (fail_if_no_progress extract_lets -underBinder -merge -useContext +onlyGivenNames z
       first
       | (refine keeps_cut (s := z) ?_ ?_; (on_goal 1 => unfold z); on_goal 2 => (intro _; try clear_value z))
       | try clear_value z)
    | with_reducible apply State.sendOwn_keeps | with_reducible apply State.take_keeps
    | with_reducible apply State.drop_keeps | with_reducible apply State.emit_keeps | with_reducible apply keeps_ite
    | with_reducible apply keeps_ite_snd | split
    | ((with_reducible refine State.keeps_mk hw (by assumption) rfl ?_)
       intro p; cases p <;> (first | exact .inl (by decide) | exact .inr rfl))
    | (intro _; intros; try beta_reduce))

theorem execExportDatagram_keeps (dt : Nat) (s : State) :
    ∃ t, execExportDatagram dt s = .next t ∧ (s.elapse dt).Keeps [.out, .od, .ports, .events] t := by
  unfold execExportDatagram
  refine ⟨_, rfl, ?_⟩
  have hw : Within [.out, .od, .ports, .events] [.out, .od, .ports, .events] := fun _ h => h
  have h := State.Keeps.refl [.out, .od, .ports, .events] (s.elapse dt)
  generalize s.elapse dt = bef at h ⊢
  repeat' (first
    | with_reducible assumption | ((with_reducible refine Within.sub hw ?_); decide)
    | with_reducible apply State.sendDatagram_keeps | with_reducible apply keeps_ite | with_reducible apply keeps_ite_snd
    | split | (intro _; intros; try beta_reduce))

theorem State.stormPeriod_keeps {pts : List Part} (hw : Within [.od, .hosts, .events] pts) {bef : State} {s : State} (k :
    Nat) (h : bef.Keeps pts s) : bef.Keeps pts (State.stormPeriod s k) := by
  unfold State.stormPeriod
  repeat' (first
    | with_reducible assumption | ((with_reducible refine Within.sub hw ?_); decide)
    | (fail_if_no_progress extract_lets -underBinder -merge -useContext +onlyGivenNames z
       first
       | (refine keeps_cut (s := z) ?_ ?_; (on_goal 1 => unfold z); on_goal 2 => (intro _; try clear_value z))
       | try clear_value z)
    | with_reducible apply State.emitRecord_keeps | with_reducible apply keeps_ite | with_reducible apply keeps_ite_snd
    | split
    | ((with_reducible refine State.keeps_mk hw (by assumption) rfl ?_)
       intro p; cases p <;> (first | exact .inl (by decide) | exact .inr rfl))
    | (intro _; intros; try beta_reduce))

theorem execStormPeriodEnd_keeps (dt : Nat) (sink : Fin 3) (s : State) :
    ∃ t, execStormPeriodEnd dt sink s = .next t ∧ (s.elapse dt).Keeps [.od, .hosts, .events] t := by
  unfold execStormPeriodEnd
  refine ⟨_, rfl, ?_⟩
  have hw : Within [.od, .hosts, .events] [.od, .hosts, .events] := fun _ h => h
  have h := State.Keeps.refl [.od, .hosts, .events] (s.elapse dt)
  generalize s.elapse dt = bef at h ⊢
  repeat' (first
    | with_reducible assumption | ((with_reducible refine Within.sub hw ?_); decide)
    | with_reducible apply State.stormPeriod_keeps | with_reducible apply keeps_ite | with_reducible apply keeps_ite_snd
    | split | (intro _; intros; try beta_reduce))

theorem State.advanceCursor_keeps {pts : List Part} (hw : Within [.od] pts) {bef : State} {s : State} (m : Nat) (h :
    bef.Keeps pts s) : bef.Keeps pts (State.advanceCursor s m) := by
  unfold State.advanceCursor
  repeat' (first
    | with_reducible assumption | ((with_reducible refine Within.sub hw ?_); decide)
    | (fail_if_no_progress extract_lets -underBinder -merge -useContext +onlyGivenNames z
       first
       | (refine keeps_cut (s := z) ?_ ?_; (on_goal 1 => unfold z); on_goal 2 => (intro _; try clear_value z))
       | try clear_value z)
    | with_reducible apply State.setVal_keeps | with_reducible apply keeps_ite | with_reducible apply keeps_ite_snd | split
    | ((with_reducible refine State.keeps_mk hw (by assumption) rfl ?_)
       intro p; cases p <;> (first | exact .inl (by decide) | exact .inr rfl))
    | (intro _; intros; try beta_reduce))

theorem execCursorWrite_keeps (dt : Nat) (road : Road) (sub : BitVec 8) (value : BitVec 64) (s : State) :
    ∃ t, execCursorWrite dt road sub value s = .next t ∧ (s.elapse dt).Keeps [.out, .od, .hosts, .events] t := by
  unfold execCursorWrite
  refine ⟨_, rfl, ?_⟩
  have hw : Within [.out, .od, .hosts, .events] [.out, .od, .hosts, .events] := fun _ h => h
  have h := State.Keeps.refl [.out, .od, .hosts, .events] (s.elapse dt)
  generalize s.elapse dt = bef at h ⊢
  repeat' (first
    | with_reducible assumption | ((with_reducible refine Within.sub hw ?_); decide)
    | (fail_if_no_progress extract_lets -underBinder -merge -useContext +onlyGivenNames z
       first
       | (refine keeps_cut (s := z) ?_ ?_; (on_goal 1 => unfold z); on_goal 2 => (intro _; try clear_value z))
       | try clear_value z)
    | with_reducible apply store_keeps | with_reducible apply State.writeRow_keeps | with_reducible apply keeps_ite
    | with_reducible apply keeps_ite_snd | split | (intro _; intros; try beta_reduce))

theorem State.mailboxRead_keeps {pts : List Part} (hw : Within [.out, .events] pts) {bef : State} {s : State} (h : bef.Keeps
    pts s) : bef.Keeps pts (State.mailboxRead s) := by
  unfold State.mailboxRead
  repeat' (first
    | with_reducible assumption | ((with_reducible refine Within.sub hw ?_); decide)
    | (fail_if_no_progress extract_lets -underBinder -merge -useContext +onlyGivenNames z
       first
       | (refine keeps_cut (s := z) ?_ ?_; (on_goal 1 => unfold z); on_goal 2 => (intro _; try clear_value z))
       | try clear_value z)
    | with_reducible apply State.boot_keeps | with_reducible apply State.emit_keeps | with_reducible apply keeps_ite
    | with_reducible apply keeps_ite_snd | split
    | ((with_reducible refine State.keeps_mk hw (by assumption) rfl ?_)
       intro p; cases p <;> (first | exact .inl (by decide) | exact .inr rfl))
    | (intro _; intros; try beta_reduce))

theorem execEmergencyMailboxRead_keeps (dt : Nat) (s : State) :
    ∃ t, execEmergencyMailboxRead dt s = .next t ∧ (s.elapse dt).Keeps [.out, .events] t := by
  unfold execEmergencyMailboxRead
  refine ⟨_, rfl, ?_⟩
  have hw : Within [.out, .events] [.out, .events] := fun _ h => h
  have h := State.Keeps.refl [.out, .events] (s.elapse dt)
  generalize s.elapse dt = bef at h ⊢
  repeat' (first
    | with_reducible assumption | ((with_reducible refine Within.sub hw ?_); decide)
    | with_reducible apply State.mailboxRead_keeps | with_reducible apply keeps_ite | with_reducible apply keeps_ite_snd
    | split | (intro _; intros; try beta_reduce))

theorem State.acknowledgeAct_keeps {pts : List Part} (hw : Within [.events] pts) {bef : State} (v : Nat) {s : State} (h :
    bef.Keeps pts s) : bef.Keeps pts (State.acknowledgeAct v s).2 := by
  unfold State.acknowledgeAct
  repeat' (first
    | with_reducible assumption | ((with_reducible refine Within.sub hw ?_); decide)
    | (fail_if_no_progress extract_lets -underBinder -merge -useContext +onlyGivenNames z
       first
       | (refine keeps_cut (s := z) ?_ ?_; (on_goal 1 => unfold z); on_goal 2 => (intro _; try clear_value z))
       | (refine keeps_cut (s := z.2) ?_ ?_; (on_goal 1 => unfold z); on_goal 2 => (intro _; try clear_value z))
       | (refine keeps_cut (s := z.1) ?_ ?_; (on_goal 1 => unfold z); on_goal 2 => (intro _; try clear_value z))
       | (refine keeps_cut (s := z.2.1) ?_ ?_; (on_goal 1 => unfold z); on_goal 2 => (intro _; try clear_value z))
       | try clear_value z)
    | with_reducible apply refuse_keeps | with_reducible apply accept_keeps | with_reducible apply keeps_ite
    | with_reducible apply keeps_ite_snd | split
    | ((with_reducible refine State.keeps_mk hw (by assumption) rfl ?_)
       intro p; cases p <;> (first | exact .inl (by decide) | exact .inr rfl))
    | (intro _; intros; try beta_reduce))

theorem execAlarmAcknowledge_keeps (dt : Nat) (road : Road) (entry : BitVec 32) (s : State) :
    ∃ t, execAlarmAcknowledge dt road entry s = .next t ∧ (s.elapse dt).Keeps [.out, .od, .hosts, .events] t := by
  unfold execAlarmAcknowledge
  refine ⟨_, rfl, ?_⟩
  have hw : Within [.out, .od, .hosts, .events] [.out, .od, .hosts, .events] := fun _ h => h
  have h := State.Keeps.refl [.out, .od, .hosts, .events] (s.elapse dt)
  generalize s.elapse dt = bef at h ⊢
  repeat' (first
    | with_reducible assumption | ((with_reducible refine Within.sub hw ?_); decide)
    | with_reducible apply State.acknowledgeAct_keeps | with_reducible apply State.writeRow_keeps
    | with_reducible apply keeps_ite | with_reducible apply keeps_ite_snd | split | (intro _; intros; try beta_reduce))

end Sys2Proof.Machine
end

