-- ==== Sys2Proof/Laws/KeepsStreams.lean ====
section
/-! SUPPORT. What the operations of Machine/Streams.lean keep. -/

namespace Sys2Proof.Machine

theorem State.arrive_keeps {pts : List Part} (hw : Within [.sched] pts) {bef : State} {s : State} (h : bef.Keeps pts s) :
    bef.Keeps pts (State.arrive s) := by
  unfold State.arrive
  repeat' (first
    | with_reducible assumption | ((with_reducible refine Within.sub hw ?_); decide)
    | (fail_if_no_progress extract_lets -underBinder -merge -useContext +onlyGivenNames z
       first
       | (refine keeps_cut (s := z) ?_ ?_; (on_goal 1 => unfold z); on_goal 2 => (intro _; try clear_value z))
       | try clear_value z)
    | with_reducible apply keeps_ite | with_reducible apply keeps_ite_snd | split
    | ((with_reducible refine State.keeps_mk hw (by assumption) rfl ?_)
       intro p; cases p <;> (first | exact .inl (by decide) | exact .inr rfl))
    | (intro _; intros; try beta_reduce))

theorem State.toQueue_keeps {pts : List Part} (hw : Within [.out, .od, .mem, .streams, .sched, .hosts] pts) {bef : State} {s
    : State} (n : Nat) (h : bef.Keeps pts s) : bef.Keeps pts (State.toQueue s n) := by
  unfold State.toQueue
  repeat' (first
    | with_reducible assumption | ((with_reducible refine Within.sub hw ?_); decide)
    | (fail_if_no_progress extract_lets -underBinder -merge -useContext +onlyGivenNames z
       first
       | (refine keeps_cut (s := z) ?_ ?_; (on_goal 1 => unfold z); on_goal 2 => (intro _; try clear_value z))
       | try clear_value z)
    | with_reducible apply State.arrive_keeps | with_reducible apply State.streamTo_keeps
    | with_reducible apply State.modStream_keeps | with_reducible apply keeps_ite | with_reducible apply keeps_ite_snd
    | split
    | ((with_reducible refine State.keeps_mk hw (by assumption) rfl ?_)
       intro p; cases p <;> (first | exact .inl (by decide) | exact .inr rfl))
    | (intro _; intros; try beta_reduce))

theorem State.acceptOn_keeps {pts : List Part} (hw : Within [.out, .od, .mem, .streams, .twin, .hosts] pts) {bef : State} {s
    : State} (r : Rq) (n : Nat) (item : LogItem) (result : Nat) (h : bef.Keeps pts s) : bef.Keeps pts (State.acceptOn s r n
    item result) := by
  unfold State.acceptOn
  repeat' (first
    | with_reducible assumption | ((with_reducible refine Within.sub hw ?_); decide)
    | with_reducible apply State.logged_keeps | with_reducible apply keeps_ite | with_reducible apply keeps_ite_snd | split
    | (intro _; intros; try beta_reduce))

theorem State.openRq_keeps {pts : List Part} (hw : Within [.out, .od, .mem, .streams, .sched, .twin, .hosts, .events] pts)
    {bef : State} (r : Rq) {s : State} (h : bef.Keeps pts s) : bef.Keeps pts (State.openRq r s) := by
  unfold State.openRq
  repeat' (first
    | with_reducible assumption | ((with_reducible refine Within.sub hw ?_); decide)
    | (fail_if_no_progress extract_lets -underBinder -merge -useContext +onlyGivenNames z
       first
       | (refine keeps_cut (s := z) ?_ ?_; (on_goal 1 => unfold z); on_goal 2 => (intro _; try clear_value z))
       | (refine keeps_cut (s := z.2) ?_ ?_; (on_goal 1 => unfold z); on_goal 2 => (intro _; try clear_value z))
       | (refine keeps_cut (s := z.1) ?_ ?_; (on_goal 1 => unfold z); on_goal 2 => (intro _; try clear_value z))
       | (refine keeps_cut (s := z.2.1) ?_ ?_; (on_goal 1 => unfold z); on_goal 2 => (intro _; try clear_value z))
       | try clear_value z)
    | with_reducible apply State.acceptOn_keeps | with_reducible apply State.toQueue_keeps
    | with_reducible apply State.answerDenied_keeps | with_reducible apply State.answer_keeps
    | with_reducible apply State.modStream_keeps | with_reducible apply keeps_ite | with_reducible apply keeps_ite_snd
    | split
    | ((with_reducible refine State.keeps_mk hw (by assumption) rfl ?_)
       intro p; cases p <;> (first | exact .inl (by decide) | exact .inr rfl))
    | (intro _; intros; try beta_reduce))

theorem execOpenStream_keeps (dt : Nat) (s : State) :
    ∃ t, execOpenStream dt s = .next t ∧ (s.elapse dt).Keeps [.out, .od, .mem, .streams, .sched, .twin, .hosts, .round,
        .events] t := by
  unfold execOpenStream
  refine ⟨_, rfl, ?_⟩
  have hw : Within [.out, .od, .mem, .streams, .sched, .twin, .hosts, .round, .events] [.out, .od, .mem, .streams, .sched,
      .twin, .hosts, .round, .events] := fun _ h => h
  have h := State.Keeps.refl [.out, .od, .mem, .streams, .sched, .twin, .hosts, .round, .events] (s.elapse dt)
  generalize s.elapse dt = bef at h ⊢
  repeat' (first
    | with_reducible assumption | ((with_reducible refine Within.sub hw ?_); decide)
    | with_reducible apply State.openRq_keeps | with_reducible apply State.serve_keeps | with_reducible apply keeps_ite
    | with_reducible apply keeps_ite_snd | split | (intro _; intros; try beta_reduce))

theorem State.streamRq_keeps {pts : List Part} (hw : Within [.out, .od, .mem, .hosts, .events] pts) {bef : State} (r : Rq)
    (ok : StreamSt → Bool) (f : Nat → State → State) {s : State} (h : bef.Keeps pts s) (hf : ∀ y0 y1, bef.Keeps pts y1 →
    bef.Keeps pts (f y0 y1)) : bef.Keeps pts (State.streamRq r ok f s) := by
  unfold State.streamRq
  repeat' (first
    | with_reducible assumption | with_reducible apply hf | ((with_reducible refine Within.sub hw ?_); decide)
    | (fail_if_no_progress extract_lets -underBinder -merge -useContext +onlyGivenNames z
       first
       | (refine keeps_cut (s := z) ?_ ?_; (on_goal 1 => unfold z); on_goal 2 => (intro _; try clear_value z))
       | try clear_value z)
    | with_reducible apply State.answerDenied_keeps | with_reducible apply State.answer_keeps
    | with_reducible apply keeps_ite | with_reducible apply keeps_ite_snd | split | (intro _; intros; try beta_reduce))

theorem State.tokenBuffer_keeps {pts : List Part} (hw : Within [.od, .hosts, .events] pts) {bef : State} {s : State} (r : Rq)
    (hostData : List Byte) (h : bef.Keeps pts s) : bef.Keeps pts (State.tokenBuffer s r hostData).2.1 := by
  unfold State.tokenBuffer
  repeat' (first
    | with_reducible assumption | ((with_reducible refine Within.sub hw ?_); decide)
    | (fail_if_no_progress extract_lets -underBinder -merge -useContext +onlyGivenNames z
       first
       | (refine keeps_cut (s := z) ?_ ?_; (on_goal 1 => unfold z); on_goal 2 => (intro _; try clear_value z))
       | try clear_value z)
    | with_reducible apply State.deny_keeps | with_reducible apply keeps_ite | with_reducible apply keeps_ite_snd | split
    | ((with_reducible refine State.keeps_mk hw (by assumption) rfl ?_)
       intro p; cases p <;> (first | exact .inl (by decide) | exact .inr rfl))
    | (intro _; intros; try beta_reduce))

theorem State.extendRq_keeps {pts : List Part} (hw : Within [.out, .od, .mem, .streams, .sched, .twin, .hosts, .events,
    .free] pts) {bef : State} (hostData : List Byte) (r : Rq) {s : State} (h : bef.Keeps pts s) : bef.Keeps pts
    (State.extendRq hostData r s) := by
  unfold State.extendRq
  repeat' (first
    | with_reducible assumption | ((with_reducible refine Within.sub hw ?_); decide)
    | (fail_if_no_progress extract_lets -underBinder -merge -useContext +onlyGivenNames z
       first
       | (refine keeps_cut (s := z) ?_ ?_; (on_goal 1 => unfold z); on_goal 2 => (intro _; try clear_value z))
       | (refine keeps_cut (s := z.2) ?_ ?_; (on_goal 1 => unfold z); on_goal 2 => (intro _; try clear_value z))
       | (refine keeps_cut (s := z.1) ?_ ?_; (on_goal 1 => unfold z); on_goal 2 => (intro _; try clear_value z))
       | (refine keeps_cut (s := z.2.1) ?_ ?_; (on_goal 1 => unfold z); on_goal 2 => (intro _; try clear_value z))
       | try clear_value z)
    | with_reducible apply State.tokenBuffer_keeps | with_reducible apply State.streamRq_keeps
    | with_reducible apply State.acceptOn_keeps | with_reducible apply State.toQueue_keeps
    | with_reducible apply State.answer_keeps | with_reducible apply State.modStream_keeps
    | with_reducible apply State.takeFree_keeps | with_reducible apply keeps_ite | with_reducible apply keeps_ite_snd
    | split
    | ((with_reducible refine State.keeps_mk hw (by assumption) rfl ?_)
       intro p; cases p <;> (first | exact .inl (by decide) | exact .inr rfl))
    | (intro _; intros; try beta_reduce))

theorem execExtend_keeps (dt : Nat) (hostData : List Byte) (s : State) :
    ∃ t, execExtend dt hostData s = .next t ∧ (s.elapse dt).Keeps [.out, .od, .mem, .streams, .sched, .twin, .hosts, .round,
        .events, .free] t := by
  unfold execExtend
  refine ⟨_, rfl, ?_⟩
  have hw : Within [.out, .od, .mem, .streams, .sched, .twin, .hosts, .round, .events, .free] [.out, .od, .mem, .streams,
      .sched, .twin, .hosts, .round, .events, .free] := fun _ h => h
  have h := State.Keeps.refl [.out, .od, .mem, .streams, .sched, .twin, .hosts, .round, .events, .free] (s.elapse dt)
  generalize s.elapse dt = bef at h ⊢
  repeat' (first
    | with_reducible assumption | ((with_reducible refine Within.sub hw ?_); decide)
    | with_reducible apply State.extendRq_keeps | with_reducible apply State.serve_keeps | with_reducible apply keeps_ite
    | with_reducible apply keeps_ite_snd | split | (intro _; intros; try beta_reduce))

theorem State.resumeRq_keeps {pts : List Part} (hw : Within [.out, .od, .mem, .streams, .sched, .twin, .hosts, .events] pts)
    {bef : State} (r : Rq) {s : State} (h : bef.Keeps pts s) : bef.Keeps pts (State.resumeRq r s) := by
  unfold State.resumeRq
  repeat' (first
    | with_reducible assumption | ((with_reducible refine Within.sub hw ?_); decide)
    | with_reducible apply State.streamRq_keeps | with_reducible apply State.acceptOn_keeps
    | with_reducible apply State.toQueue_keeps | with_reducible apply keeps_ite | with_reducible apply keeps_ite_snd | split
    | (intro _; intros; try beta_reduce))

theorem execResumeStream_keeps (dt : Nat) (s : State) :
    ∃ t, execResumeStream dt s = .next t ∧ (s.elapse dt).Keeps [.out, .od, .mem, .streams, .sched, .twin, .hosts, .round,
        .events] t := by
  unfold execResumeStream
  refine ⟨_, rfl, ?_⟩
  have hw : Within [.out, .od, .mem, .streams, .sched, .twin, .hosts, .round, .events] [.out, .od, .mem, .streams, .sched,
      .twin, .hosts, .round, .events] := fun _ h => h
  have h := State.Keeps.refl [.out, .od, .mem, .streams, .sched, .twin, .hosts, .round, .events] (s.elapse dt)
  generalize s.elapse dt = bef at h ⊢
  repeat' (first
    | with_reducible assumption | ((with_reducible refine Within.sub hw ?_); decide)
    | with_reducible apply State.resumeRq_keeps | with_reducible apply State.serve_keeps | with_reducible apply keeps_ite
    | with_reducible apply keeps_ite_snd | split | (intro _; intros; try beta_reduce))

theorem State.pauseRq_keeps {pts : List Part} (hw : Within [.out, .od, .mem, .streams, .twin, .hosts, .events] pts) {bef :
    State} (r : Rq) {s : State} (h : bef.Keeps pts s) : bef.Keeps pts (State.pauseRq r s) := by
  unfold State.pauseRq
  repeat' (first
    | with_reducible assumption | ((with_reducible refine Within.sub hw ?_); decide)
    | (fail_if_no_progress extract_lets -underBinder -merge -useContext +onlyGivenNames z
       first
       | (refine keeps_cut (s := z) ?_ ?_; (on_goal 1 => unfold z); on_goal 2 => (intro _; try clear_value z))
       | try clear_value z)
    | with_reducible apply State.streamRq_keeps | with_reducible apply State.acceptOn_keeps
    | with_reducible apply State.streamTo_keeps | with_reducible apply State.modStream_keeps
    | with_reducible apply keeps_ite | with_reducible apply keeps_ite_snd | split
    | ((with_reducible refine State.keeps_mk hw (by assumption) rfl ?_)
       intro p; cases p <;> (first | exact .inl (by decide) | exact .inr rfl))
    | (intro _; intros; try beta_reduce))

theorem execPause_keeps (dt : Nat) (s : State) :
    ∃ t, execPause dt s = .next t ∧ (s.elapse dt).Keeps [.out, .od, .mem, .streams, .twin, .hosts, .round, .events] t := by
  unfold execPause
  refine ⟨_, rfl, ?_⟩
  have hw : Within [.out, .od, .mem, .streams, .twin, .hosts, .round, .events] [.out, .od, .mem, .streams, .twin, .hosts,
      .round, .events] := fun _ h => h
  have h := State.Keeps.refl [.out, .od, .mem, .streams, .twin, .hosts, .round, .events] (s.elapse dt)
  generalize s.elapse dt = bef at h ⊢
  repeat' (first
    | with_reducible assumption | ((with_reducible refine Within.sub hw ?_); decide)
    | with_reducible apply State.pauseRq_keeps | with_reducible apply State.serve_keeps | with_reducible apply keeps_ite
    | with_reducible apply keeps_ite_snd | split | (intro _; intros; try beta_reduce))

theorem State.closeRq_keeps {pts : List Part} (hw : Within [.out, .od, .mem, .jobs, .streams, .twin, .hosts, .events] pts)
    {bef : State} (r : Rq) {s : State} (h : bef.Keeps pts s) : bef.Keeps pts (State.closeRq r s) := by
  unfold State.closeRq
  repeat' (first
    | with_reducible assumption | ((with_reducible refine Within.sub hw ?_); decide)
    | (fail_if_no_progress extract_lets -underBinder -merge -useContext +onlyGivenNames z
       first
       | (refine keeps_cut (s := z) ?_ ?_; (on_goal 1 => unfold z); on_goal 2 => (intro _; try clear_value z))
       | (refine keeps_cut (s := z.2) ?_ ?_; (on_goal 1 => unfold z); on_goal 2 => (intro _; try clear_value z))
       | (refine keeps_cut (s := z.1) ?_ ?_; (on_goal 1 => unfold z); on_goal 2 => (intro _; try clear_value z))
       | (refine keeps_cut (s := z.2.1) ?_ ?_; (on_goal 1 => unfold z); on_goal 2 => (intro _; try clear_value z))
       | try clear_value z)
    | with_reducible apply State.streamRq_keeps | with_reducible apply State.acceptOn_keeps
    | with_reducible apply State.closeNow_keeps | with_reducible apply State.modStream_keeps
    | with_reducible apply keeps_ite | with_reducible apply keeps_ite_snd | split
    | ((with_reducible refine State.keeps_mk hw (by assumption) rfl ?_)
       intro p; cases p <;> (first | exact .inl (by decide) | exact .inr rfl))
    | with_reducible refine keeps_of_fst (by with_reducible assumption) ?_
    | with_reducible refine keeps_of_snd (by with_reducible assumption) ?_ | (intro _; intros; try beta_reduce))

theorem execClose_keeps (dt : Nat) (s : State) :
    ∃ t, execClose dt s = .next t ∧ (s.elapse dt).Keeps [.out, .od, .mem, .jobs, .streams, .twin, .hosts, .round, .events] t
        := by
  unfold execClose
  refine ⟨_, rfl, ?_⟩
  have hw : Within [.out, .od, .mem, .jobs, .streams, .twin, .hosts, .round, .events] [.out, .od, .mem, .jobs, .streams,
      .twin, .hosts, .round, .events] := fun _ h => h
  have h := State.Keeps.refl [.out, .od, .mem, .jobs, .streams, .twin, .hosts, .round, .events] (s.elapse dt)
  generalize s.elapse dt = bef at h ⊢
  repeat' (first
    | with_reducible assumption | ((with_reducible refine Within.sub hw ?_); decide)
    | with_reducible apply State.closeRq_keeps | with_reducible apply State.serve_keeps | with_reducible apply keeps_ite
    | with_reducible apply keeps_ite_snd | split | (intro _; intros; try beta_reduce))

theorem State.streamFreed_keeps {pts : List Part} (hw : Within [.out, .od, .mem, .jobs, .streams, .hosts] pts) {bef : State}
    {s : State} (n : Nat) (h : bef.Keeps pts s) : bef.Keeps pts (State.streamFreed s n) := by
  unfold State.streamFreed
  repeat' (first
    | with_reducible assumption | ((with_reducible refine Within.sub hw ?_); decide)
    | with_reducible apply State.freeStream_keeps | with_reducible apply State.freePages_keeps
    | with_reducible apply State.streamTo_keeps | with_reducible apply keeps_ite | with_reducible apply keeps_ite_snd
    | split | (intro _; intros; try beta_reduce))

theorem execStreamFreed_keeps (dt : Nat) (stream : BitVec 16) (s : State) :
    ∃ t, execStreamFreed dt stream s = .next t ∧ (s.elapse dt).Keeps [.out, .od, .mem, .jobs, .streams, .hosts] t := by
  unfold execStreamFreed
  refine ⟨_, rfl, ?_⟩
  have hw : Within [.out, .od, .mem, .jobs, .streams, .hosts] [.out, .od, .mem, .jobs, .streams, .hosts] := fun _ h => h
  have h := State.Keeps.refl [.out, .od, .mem, .jobs, .streams, .hosts] (s.elapse dt)
  generalize s.elapse dt = bef at h ⊢
  repeat' (first
    | with_reducible assumption | ((with_reducible refine Within.sub hw ?_); decide)
    | with_reducible apply State.streamFreed_keeps | with_reducible apply keeps_ite | with_reducible apply keeps_ite_snd
    | split | (intro _; intros; try beta_reduce))

theorem State.putUser_keeps {pts : List Part} (hw : Within [.streams] pts) {bef : State} {s : State} (n : Nat) (v : Nat) (h :
    bef.Keeps pts s) : bef.Keeps pts (State.putUser s n v) := by
  unfold State.putUser
  repeat' (first
    | with_reducible assumption | ((with_reducible refine Within.sub hw ?_); decide)
    | (fail_if_no_progress extract_lets -underBinder -merge -useContext +onlyGivenNames z
       first
       | (refine keeps_cut (s := z) ?_ ?_; (on_goal 1 => unfold z); on_goal 2 => (intro _; try clear_value z))
       | try clear_value z)
    | with_reducible apply State.modStream_keeps | with_reducible apply keeps_ite | with_reducible apply keeps_ite_snd
    | split
    | ((with_reducible refine State.keeps_mk hw (by assumption) rfl ?_)
       intro p; cases p <;> (first | exact .inl (by decide) | exact .inr rfl))
    | (intro _; intros; try beta_reduce))

theorem State.writeUser_keeps {pts : List Part} (hw : Within [.od, .streams, .hosts, .events] pts) {bef : State} {s : State}
    (m : Nat) (n : Nat) (offset : Nat) (data : List Byte) (h : bef.Keeps pts s) : bef.Keeps pts (State.writeUser s m n offset
    data).1 := by
  unfold State.writeUser
  repeat' (first
    | with_reducible assumption | ((with_reducible refine Within.sub hw ?_); decide)
    | (fail_if_no_progress extract_lets -underBinder -merge -useContext +onlyGivenNames z
       first
       | (refine keeps_cut (s := z) ?_ ?_; (on_goal 1 => unfold z); on_goal 2 => (intro _; try clear_value z))
       | try clear_value z)
    | with_reducible apply State.putUser_keeps | with_reducible apply State.deny_keeps | with_reducible apply keeps_ite
    | with_reducible apply keeps_ite_snd | split | (intro _; intros; try beta_reduce))

theorem State.writeStreamUser_keeps {pts : List Part} (hw : Within [.od, .streams, .hosts, .events] pts) {bef : State} (m :
    Nat) (v : Nat) {s : State} (h : bef.Keeps pts s) : bef.Keeps pts (State.writeStreamUser m v s).2 := by
  unfold State.writeStreamUser
  repeat' (first
    | with_reducible assumption | ((with_reducible refine Within.sub hw ?_); decide)
    | (fail_if_no_progress extract_lets -underBinder -merge -useContext +onlyGivenNames z
       first
       | (refine keeps_cut (s := z) ?_ ?_; (on_goal 1 => unfold z); on_goal 2 => (intro _; try clear_value z))
       | try clear_value z)
    | with_reducible apply State.putUser_keeps | with_reducible apply State.deny_keeps | with_reducible apply keeps_ite
    | with_reducible apply keeps_ite_snd | split | (intro _; intros; try beta_reduce))

theorem State.streamUserWrite_keeps {pts : List Part} (hw : Within [.out, .od, .streams, .hosts, .events] pts) {bef : State}
    {s : State} (path : StreamPath) (n : Nat) (offset : Nat) (data : List Byte) (h : bef.Keeps pts s) : bef.Keeps pts
    (State.streamUserWrite s path n offset data) := by
  unfold State.streamUserWrite
  repeat' (first
    | with_reducible assumption | ((with_reducible refine Within.sub hw ?_); decide)
    | (fail_if_no_progress extract_lets -underBinder -merge -useContext +onlyGivenNames z
       first
       | (refine keeps_cut (s := z) ?_ ?_; (on_goal 1 => unfold z); on_goal 2 => (intro _; try clear_value z))
       | (refine keeps_cut (s := z.2) ?_ ?_; (on_goal 1 => unfold z); on_goal 2 => (intro _; try clear_value z))
       | (refine keeps_cut (s := z.1) ?_ ?_; (on_goal 1 => unfold z); on_goal 2 => (intro _; try clear_value z))
       | (refine keeps_cut (s := z.2.1) ?_ ?_; (on_goal 1 => unfold z); on_goal 2 => (intro _; try clear_value z))
       | try clear_value z)
    | with_reducible apply State.writeStreamUser_keeps | with_reducible apply State.writeUser_keeps
    | with_reducible apply State.writeRow_keeps | with_reducible apply keeps_ite | with_reducible apply keeps_ite_snd
    | split
    | ((with_reducible refine State.keeps_mk hw (by assumption) rfl ?_)
       intro p; cases p <;> (first | exact .inl (by decide) | exact .inr rfl))
    | (intro _; intros; try beta_reduce))

theorem execStreamUserWrite_keeps (dt : Nat) (path : StreamPath) (stream : BitVec 16) (offset : Nat) (data : List Byte) (s :
    State) :
    ∃ t, execStreamUserWrite dt path stream offset data s = .next t ∧ (s.elapse dt).Keeps [.out, .od, .streams, .hosts,
        .events] t := by
  unfold execStreamUserWrite
  refine ⟨_, rfl, ?_⟩
  have hw : Within [.out, .od, .streams, .hosts, .events] [.out, .od, .streams, .hosts, .events] := fun _ h => h
  have h := State.Keeps.refl [.out, .od, .streams, .hosts, .events] (s.elapse dt)
  generalize s.elapse dt = bef at h ⊢
  repeat' (first
    | with_reducible assumption | ((with_reducible refine Within.sub hw ?_); decide)
    | with_reducible apply State.streamUserWrite_keeps | with_reducible apply keeps_ite | with_reducible apply keeps_ite_snd
    | split | (intro _; intros; try beta_reduce))

end Sys2Proof.Machine
end

