-- ==== Sys2Proof/Laws/KeepsRoce.lean ====
section
/-! SUPPORT. What the operations of Machine/Roce.lean keep. -/

namespace Sys2Proof.Machine

theorem State.putQp_keeps {pts : List Part} (hw : Within [.qps] pts) {bef : State} {s : State} (n : Nat) (b : List Byte) (h :
    bef.Keeps pts s) : bef.Keeps pts (State.putQp s n b) := by
  unfold State.putQp
  repeat' (first
    | with_reducible assumption | ((with_reducible refine Within.sub hw ?_); decide)
    | (fail_if_no_progress extract_lets -underBinder -merge -useContext +onlyGivenNames z
       first
       | (refine keeps_cut (s := z) ?_ ?_; (on_goal 1 => unfold z); on_goal 2 => (intro _; try clear_value z))
       | try clear_value z)
    | with_reducible apply State.modQp_keeps | with_reducible apply keeps_ite | with_reducible apply keeps_ite_snd | split
    | ((with_reducible refine State.keeps_mk hw (by assumption) rfl ?_)
       intro p; cases p <;> (first | exact .inl (by decide) | exact .inr rfl))
    | (intro _; intros; try beta_reduce))

theorem State.qpRq_keeps {pts : List Part} (hw : Within [.out, .od, .mem, .cores, .sched, .qps, .hosts, .events] pts) {bef :
    State} (r : Rq) {s : State} (h : bef.Keeps pts s) : bef.Keeps pts (State.qpRq r s) := by
  unfold State.qpRq
  repeat' (first
    | with_reducible assumption | ((with_reducible refine Within.sub hw ?_); decide)
    | (fail_if_no_progress extract_lets -underBinder -merge -useContext +onlyGivenNames z
       first
       | (refine keeps_cut (s := z) ?_ ?_; (on_goal 1 => unfold z); on_goal 2 => (intro _; try clear_value z))
       | try clear_value z)
    | with_reducible apply State.putQp_keeps | with_reducible apply State.denied_keeps
    | with_reducible apply State.failMoves_keeps | with_reducible apply State.answerDenied_keeps
    | with_reducible apply State.answer_keeps | with_reducible apply keeps_ite | with_reducible apply keeps_ite_snd | split
    | ((with_reducible refine State.keeps_mk hw (by assumption) rfl ?_)
       intro p; cases p <;> (first | exact .inl (by decide) | exact .inr rfl))
    | (intro _; intros; try beta_reduce))

theorem execQp_keeps (dt : Nat) (s : State) :
    ∃ t, execQp dt s = .next t ∧ (s.elapse dt).Keeps [.out, .od, .mem, .cores, .sched, .qps, .hosts, .round, .events] t := by
  unfold execQp
  refine ⟨_, rfl, ?_⟩
  have hw : Within [.out, .od, .mem, .cores, .sched, .qps, .hosts, .round, .events] [.out, .od, .mem, .cores, .sched, .qps,
      .hosts, .round, .events] := fun _ h => h
  have h := State.Keeps.refl [.out, .od, .mem, .cores, .sched, .qps, .hosts, .round, .events] (s.elapse dt)
  generalize s.elapse dt = bef at h ⊢
  repeat' (first
    | with_reducible assumption | ((with_reducible refine Within.sub hw ?_); decide) | with_reducible apply State.qpRq_keeps
    | with_reducible apply State.serve_keeps | with_reducible apply keeps_ite | with_reducible apply keeps_ite_snd | split
    | (intro _; intros; try beta_reduce))

theorem State.qpError_keeps {pts : List Part} (hw : Within [.od, .cores, .sched, .qps, .hosts, .events] pts) {bef : State} {s
    : State} (n : Nat) (syndrome : Nat) (h : bef.Keeps pts s) : bef.Keeps pts (State.qpError s n syndrome) := by
  unfold State.qpError
  repeat' (first
    | with_reducible assumption | ((with_reducible refine Within.sub hw ?_); decide)
    | (fail_if_no_progress extract_lets -underBinder -merge -useContext +onlyGivenNames z
       first
       | (refine keeps_cut (s := z) ?_ ?_; (on_goal 1 => unfold z); on_goal 2 => (intro _; try clear_value z))
       | try clear_value z)
    | with_reducible apply State.failMoves_keeps | with_reducible apply State.raise_keeps
    | with_reducible apply State.bump_keeps | with_reducible apply State.modQp_keeps | with_reducible apply keeps_ite
    | with_reducible apply keeps_ite_snd | split
    | ((with_reducible refine State.keeps_mk hw (by assumption) rfl ?_)
       intro p; cases p <;> (first | exact .inl (by decide) | exact .inr rfl))
    | (intro _; intros; try beta_reduce))

theorem State.expectNext_keeps {pts : List Part} (hw : Within [.qps] pts) {bef : State} {s : State} (n : Nat) (packets : Nat)
    (h : bef.Keeps pts s) : bef.Keeps pts (State.expectNext s n packets) := by
  unfold State.expectNext
  repeat' (first
    | with_reducible assumption | ((with_reducible refine Within.sub hw ?_); decide)
    | (fail_if_no_progress extract_lets -underBinder -merge -useContext +onlyGivenNames z
       first
       | (refine keeps_cut (s := z) ?_ ?_; (on_goal 1 => unfold z); on_goal 2 => (intro _; try clear_value z))
       | try clear_value z)
    | with_reducible apply State.modQp_keeps | with_reducible apply keeps_ite | with_reducible apply keeps_ite_snd | split
    | ((with_reducible refine State.keeps_mk hw (by assumption) rfl ?_)
       intro p; cases p <;> (first | exact .inl (by decide) | exact .inr rfl))
    | (intro _; intros; try beta_reduce))

theorem State.received_keeps {pts : List Part} (hw : Within [.out] pts) {bef : State} {s : State} (n : Nat) (psn : Nat)
    (again : State → State) (go : State → State) (h : bef.Keeps pts s) (hagain : ∀ y0, bef.Keeps pts y0 → bef.Keeps pts
    (again y0)) (hgo : ∀ y0, bef.Keeps pts y0 → bef.Keeps pts (go y0)) : bef.Keeps pts (State.received s n psn again go) := by
  unfold State.received
  repeat' (first
    | with_reducible assumption | with_reducible apply hgo | with_reducible apply hagain
    | ((with_reducible refine Within.sub hw ?_); decide)
    | (fail_if_no_progress extract_lets -underBinder -merge -useContext +onlyGivenNames z
       first
       | (refine keeps_cut (s := z) ?_ ?_; (on_goal 1 => unfold z); on_goal 2 => (intro _; try clear_value z))
       | try clear_value z)
    | with_reducible apply State.emit_keeps | with_reducible apply keeps_ite | with_reducible apply keeps_ite_snd | split
    | ((with_reducible refine State.keeps_mk hw (by assumption) rfl ?_)
       intro p; cases p <;> (first | exact .inl (by decide) | exact .inr rfl))
    | (intro _; intros; try beta_reduce))

theorem State.refusedAt_keeps {pts : List Part} (hw : Within [.od, .hosts, .events] pts) {bef : State} {s : State} (m : Nat)
    (a : Nat) (lacking : Nat) (h : bef.Keeps pts s) : bef.Keeps pts (State.refusedAt s m a lacking) := by
  unfold State.refusedAt
  repeat' (first
    | with_reducible assumption | ((with_reducible refine Within.sub hw ?_); decide) | with_reducible apply State.deny_keeps
    | with_reducible apply keeps_ite | with_reducible apply keeps_ite_snd | split | (intro _; intros; try beta_reduce))

theorem State.rdmaStore_keeps {pts : List Part} (hw : Within [.od, .mem, .streams, .hosts, .events] pts) {bef : State} {s :
    State} (m : Nat) (a : Nat) (data : List Byte) (h : bef.Keeps pts s) : bef.Keeps pts (State.rdmaStore s m a data).1 := by
  unfold State.rdmaStore
  repeat' (first
    | with_reducible assumption | ((with_reducible refine Within.sub hw ?_); decide)
    | (fail_if_no_progress extract_lets -underBinder -merge -useContext +onlyGivenNames z
       first
       | (refine keeps_cut (s := z) ?_ ?_; (on_goal 1 => unfold z); on_goal 2 => (intro _; try clear_value z))
       | try clear_value z)
    | with_reducible apply State.refusedAt_keeps | with_reducible apply State.denied_keeps
    | with_reducible apply State.writeUser_keeps | with_reducible apply State.storeBytes_keeps
    | with_reducible apply keeps_ite | with_reducible apply keeps_ite_snd | split
    | ((with_reducible refine State.keeps_mk hw (by assumption) rfl ?_)
       intro p; cases p <;> (first | exact .inl (by decide) | exact .inr rfl))
    | (intro _; intros; try beta_reduce))

theorem State.rdmaStreams_keeps {pts : List Part} (hw : Within [.od, .hosts, .events] pts) {bef : State} {s : State} (m :
    Nat) (a : Nat) (off : Nat) (len : Nat) (h : bef.Keeps pts s) : bef.Keeps pts (State.rdmaStreams s m a off len).1 := by
  unfold State.rdmaStreams
  repeat' (first
    | with_reducible assumption | ((with_reducible refine Within.sub hw ?_); decide)
    | (fail_if_no_progress extract_lets -underBinder -merge -useContext +onlyGivenNames z
       first
       | (refine keeps_cut (s := z) ?_ ?_; (on_goal 1 => unfold z); on_goal 2 => (intro _; try clear_value z))
       | try clear_value z)
    | with_reducible apply State.deny_keeps | with_reducible apply keeps_ite | with_reducible apply keeps_ite_snd | split
    | ((with_reducible refine State.keeps_mk hw (by assumption) rfl ?_)
       intro p; cases p <;> (first | exact .inl (by decide) | exact .inr rfl))
    | (intro _; intros; try beta_reduce))

theorem State.rdmaLoad_keeps {pts : List Part} (hw : Within [.od, .hosts, .events] pts) {bef : State} {s : State} (m : Nat)
    (a : Nat) (len : Nat) (h : bef.Keeps pts s) : bef.Keeps pts (State.rdmaLoad s m a len).1 := by
  unfold State.rdmaLoad
  repeat' (first
    | with_reducible assumption | ((with_reducible refine Within.sub hw ?_); decide)
    | (fail_if_no_progress extract_lets -underBinder -merge -useContext +onlyGivenNames z
       first
       | (refine keeps_cut (s := z) ?_ ?_; (on_goal 1 => unfold z); on_goal 2 => (intro _; try clear_value z))
       | try clear_value z)
    | with_reducible apply State.rdmaStreams_keeps | with_reducible apply State.refusedAt_keeps
    | with_reducible apply State.denied_keeps | with_reducible apply State.deny_keeps | with_reducible apply keeps_ite
    | with_reducible apply keeps_ite_snd | split
    | ((with_reducible refine State.keeps_mk hw (by assumption) rfl ?_)
       intro p; cases p <;> (first | exact .inl (by decide) | exact .inr rfl))
    | (intro _; intros; try beta_reduce))

theorem State.writeReceived_keeps {pts : List Part} (hw : Within [.out, .od, .mem, .streams, .qps, .hosts, .events] pts) {bef
    : State} {s : State} (n : Nat) (src : Nat) (psn : Nat) (rkey : Nat) (a : Nat) (data : List Byte) (h : bef.Keeps pts s) :
    bef.Keeps pts (State.writeReceived s n src psn rkey a data) := by
  unfold State.writeReceived
  repeat' (first
    | with_reducible assumption | ((with_reducible refine Within.sub hw ?_); decide)
    | (fail_if_no_progress extract_lets -underBinder -merge -useContext +onlyGivenNames z
       first
       | (refine keeps_cut (s := z) ?_ ?_; (on_goal 1 => unfold z); on_goal 2 => (intro _; try clear_value z))
       | (refine keeps_cut (s := z.2) ?_ ?_; (on_goal 1 => unfold z); on_goal 2 => (intro _; try clear_value z))
       | (refine keeps_cut (s := z.1) ?_ ?_; (on_goal 1 => unfold z); on_goal 2 => (intro _; try clear_value z))
       | (refine keeps_cut (s := z.2.1) ?_ ?_; (on_goal 1 => unfold z); on_goal 2 => (intro _; try clear_value z))
       | try clear_value z)
    | with_reducible apply State.rdmaStore_keeps | with_reducible apply State.received_keeps
    | with_reducible apply State.expectNext_keeps | with_reducible apply State.denyUnknown_keeps
    | with_reducible apply State.emit_keeps | with_reducible apply keeps_ite | with_reducible apply keeps_ite_snd | split
    | ((with_reducible refine State.keeps_mk hw (by assumption) rfl ?_)
       intro p; cases p <;> (first | exact .inl (by decide) | exact .inr rfl))
    | (intro _; intros; try beta_reduce))

theorem execRdmaWriteReceived_keeps (dt : Nat) (qp : BitVec 16) (src : BitVec 128) (psn : BitVec 24) (rkey : BitVec 32) (addr
    : BitVec 64) (data : List Byte) (s : State) :
    ∃ t, execRdmaWriteReceived dt qp src psn rkey addr data s = .next t ∧ (s.elapse dt).Keeps [.out, .od, .mem, .streams,
        .qps, .hosts, .events] t := by
  unfold execRdmaWriteReceived
  refine ⟨_, rfl, ?_⟩
  have hw : Within [.out, .od, .mem, .streams, .qps, .hosts, .events] [.out, .od, .mem, .streams, .qps, .hosts, .events] :=
      fun _ h => h
  have h := State.Keeps.refl [.out, .od, .mem, .streams, .qps, .hosts, .events] (s.elapse dt)
  generalize s.elapse dt = bef at h ⊢
  repeat' (first
    | with_reducible assumption | ((with_reducible refine Within.sub hw ?_); decide)
    | with_reducible apply State.writeReceived_keeps | with_reducible apply keeps_ite | with_reducible apply keeps_ite_snd
    | split | (intro _; intros; try beta_reduce))

theorem State.readReceived_keeps {pts : List Part} (hw : Within [.out, .od, .qps, .hosts, .events] pts) {bef : State} {s :
    State} (n : Nat) (src : Nat) (psn : Nat) (rkey : Nat) (a : Nat) (len : Nat) (h : bef.Keeps pts s) : bef.Keeps pts
    (State.readReceived s n src psn rkey a len) := by
  unfold State.readReceived
  repeat' (first
    | with_reducible assumption | ((with_reducible refine Within.sub hw ?_); decide) | with_reducible apply hz
    | (fail_if_no_progress extract_lets -underBinder -merge -useContext +onlyGivenNames z
       first
       | (refine keeps_fact (P := ∀ x0 x1, bef.Keeps pts x1 → bef.Keeps pts (z x0 x1)) ?_ (fun hz => ?_); (on_goal 1 => (unfold z; intros; try beta_reduce)); on_goal 2 => (try clear_value z))
       | (refine keeps_cut (s := z) ?_ ?_; (on_goal 1 => unfold z); on_goal 2 => (intro _; try clear_value z))
       | (refine keeps_cut (s := z.2) ?_ ?_; (on_goal 1 => unfold z); on_goal 2 => (intro _; try clear_value z))
       | (refine keeps_cut (s := z.1) ?_ ?_; (on_goal 1 => unfold z); on_goal 2 => (intro _; try clear_value z))
       | (refine keeps_cut (s := z.2.1) ?_ ?_; (on_goal 1 => unfold z); on_goal 2 => (intro _; try clear_value z))
       | try clear_value z)
    | with_reducible apply State.rdmaLoad_keeps | with_reducible apply State.received_keeps
    | with_reducible apply State.expectNext_keeps | with_reducible apply State.serve_keeps
    | with_reducible apply State.denyUnknown_keeps | with_reducible apply State.emit_keeps | with_reducible apply keeps_ite
    | with_reducible apply keeps_ite_snd | split
    | ((with_reducible refine State.keeps_mk hw (by assumption) rfl ?_)
       intro p; cases p <;> (first | exact .inl (by decide) | exact .inr rfl))
    | with_reducible refine keeps_of_fst (by with_reducible assumption) ?_
    | with_reducible refine keeps_of_snd (by with_reducible assumption) ?_ | (intro _; intros; try beta_reduce))

theorem execRdmaReadReceived_keeps (dt : Nat) (qp : BitVec 16) (src : BitVec 128) (psn : BitVec 24) (rkey : BitVec 32) (addr
    : BitVec 64) (len : Nat) (s : State) :
    ∃ t, execRdmaReadReceived dt qp src psn rkey addr len s = .next t ∧ (s.elapse dt).Keeps [.out, .od, .qps, .hosts,
        .events] t := by
  unfold execRdmaReadReceived
  refine ⟨_, rfl, ?_⟩
  have hw : Within [.out, .od, .qps, .hosts, .events] [.out, .od, .qps, .hosts, .events] := fun _ h => h
  have h := State.Keeps.refl [.out, .od, .qps, .hosts, .events] (s.elapse dt)
  generalize s.elapse dt = bef at h ⊢
  repeat' (first
    | with_reducible assumption | ((with_reducible refine Within.sub hw ?_); decide)
    | with_reducible apply State.readReceived_keeps | with_reducible apply keeps_ite | with_reducible apply keeps_ite_snd
    | split | (intro _; intros; try beta_reduce))

theorem State.actRequest_keeps {pts : List Part} (hw : Within [.out, .run, .od, .units, .mem, .cores, .engines, .jobs,
    .streams, .sched, .qps, .twin, .hosts, .security, .events, .free] pts) {bef : State} (r : Rq) {s : State} (h : bef.Keeps
    pts s) : bef.Keeps pts (State.actRequest r s) := by
  unfold State.actRequest
  simp only
  repeat' (first
    | with_reducible apply keeps_ite
    | with_reducible apply State.loadRq_keeps (hw.sub (by decide)) | with_reducible apply State.unloadRq_keeps (hw.sub (by
        decide))
    | with_reducible apply State.holdRq_keeps (hw.sub (by decide)) | with_reducible apply State.releaseRq_keeps (hw.sub (by
        decide))
    | with_reducible apply State.launchRq_keeps (hw.sub (by decide)) | with_reducible apply State.firmwareRq_keeps (hw.sub
        (by decide))
    | with_reducible apply State.attestRq_keeps (hw.sub (by decide)) | with_reducible apply State.qpRq_keeps (hw.sub (by
        decide))
    | with_reducible apply State.openRq_keeps (hw.sub (by decide)) | with_reducible apply State.extendRq_keeps (hw.sub (by
        decide))
    | with_reducible apply State.resumeRq_keeps (hw.sub (by decide)) | with_reducible apply State.pauseRq_keeps (hw.sub (by
        decide))
    | with_reducible apply State.closeRq_keeps (hw.sub (by decide))
    | exact h)

theorem State.sendRequest_keeps {pts : List Part} (hw : Within [.out, .run, .od, .units, .mem, .cores, .engines, .jobs,
    .streams, .sched, .qps, .twin, .hosts, .security, .events, .free] pts) {bef : State} {s : State} (n : Nat) (src : Nat)
    (psn : Nat) (e : List Byte) (h : bef.Keeps pts s) : bef.Keeps pts (State.sendRequest s n src psn e) := by
  unfold State.sendRequest
  repeat' (first
    | with_reducible assumption | ((with_reducible refine Within.sub hw ?_); decide)
    | (fail_if_no_progress extract_lets -underBinder -merge -useContext +onlyGivenNames z
       first
       | (refine keeps_cut (s := z) ?_ ?_; (on_goal 1 => unfold z); on_goal 2 => (intro _; try clear_value z))
       | try clear_value z)
    | with_reducible apply State.actRequest_keeps | with_reducible apply State.received_keeps
    | with_reducible apply State.expectNext_keeps | with_reducible apply State.answer_keeps
    | with_reducible apply State.denyUnknown_keeps | with_reducible apply State.emit_keeps | with_reducible apply keeps_ite
    | with_reducible apply keeps_ite_snd | split
    | ((with_reducible refine State.keeps_mk hw (by assumption) rfl ?_)
       intro p; cases p <;> (first | exact .inl (by decide) | exact .inr rfl))
    | (intro _; intros; try beta_reduce))

theorem execSendReceived_keeps (dt : Nat) (qp : BitVec 16) (src : BitVec 128) (psn : BitVec 24) (entry : List Byte) (s :
    State) :
    ∃ t, execSendReceived dt qp src psn entry s = .next t ∧ (s.elapse dt).Keeps [.out, .run, .od, .units, .mem, .cores,
        .engines, .jobs, .streams, .sched, .qps, .twin, .hosts, .security, .events, .free] t := by
  unfold execSendReceived
  refine ⟨_, rfl, ?_⟩
  have hw : Within [.out, .run, .od, .units, .mem, .cores, .engines, .jobs, .streams, .sched, .qps, .twin, .hosts, .security,
      .events, .free] [.out, .run, .od, .units, .mem, .cores, .engines, .jobs, .streams, .sched, .qps, .twin, .hosts,
      .security, .events, .free] := fun _ h => h
  have h := State.Keeps.refl [.out, .run, .od, .units, .mem, .cores, .engines, .jobs, .streams, .sched, .qps, .twin, .hosts,
      .security, .events, .free] (s.elapse dt)
  generalize s.elapse dt = bef at h ⊢
  repeat' (first
    | with_reducible assumption | ((with_reducible refine Within.sub hw ?_); decide)
    | with_reducible apply State.sendRequest_keeps | with_reducible apply keeps_ite | with_reducible apply keeps_ite_snd
    | split | (intro _; intros; try beta_reduce))

theorem execAtomicReceived_keeps (dt : Nat) (qp : BitVec 16) (psn : BitVec 24) (s : State) :
    ∃ t, execAtomicReceived dt qp psn s = .next t ∧ (s.elapse dt).Keeps [.out] t := by
  unfold execAtomicReceived
  refine ⟨_, rfl, ?_⟩
  have hw : Within [.out] [.out] := fun _ h => h
  have h := State.Keeps.refl [.out] (s.elapse dt)
  generalize s.elapse dt = bef at h ⊢
  repeat' (first
    | with_reducible assumption | ((with_reducible refine Within.sub hw ?_); decide)
    | (fail_if_no_progress extract_lets -underBinder -merge -useContext +onlyGivenNames z
       first
       | (refine keeps_cut (s := z) ?_ ?_; (on_goal 1 => unfold z); on_goal 2 => (intro _; try clear_value z))
       | try clear_value z)
    | with_reducible apply State.received_keeps | with_reducible apply State.emit_keeps | with_reducible apply keeps_ite
    | with_reducible apply keeps_ite_snd | split | (intro _; intros; try beta_reduce))

theorem State.newOldest_keeps {pts : List Part} (hw : Within [.qps] pts) {bef : State} {s : State} (n : Nat) (h : bef.Keeps
    pts s) : bef.Keeps pts (State.newOldest s n) := by
  unfold State.newOldest
  repeat' (first
    | with_reducible assumption | ((with_reducible refine Within.sub hw ?_); decide)
    | (fail_if_no_progress extract_lets -underBinder -merge -useContext +onlyGivenNames z
       first
       | (refine keeps_cut (s := z) ?_ ?_; (on_goal 1 => unfold z); on_goal 2 => (intro _; try clear_value z))
       | try clear_value z)
    | with_reducible apply State.modQp_keeps | with_reducible apply keeps_foldl | with_reducible apply keeps_ite
    | with_reducible apply keeps_ite_snd | split
    | ((with_reducible refine State.keeps_mk hw (by assumption) rfl ?_)
       intro p; cases p <;> (first | exact .inl (by decide) | exact .inr rfl))
    | (intro _; intros; try beta_reduce))

theorem State.acknowledge_keeps {pts : List Part} (hw : Within [.cores, .sched, .qps] pts) {bef : State} {s : State} (n :
    Nat) (psn : Nat) (h : bef.Keeps pts s) : bef.Keeps pts (State.acknowledge s n psn) := by
  unfold State.acknowledge
  repeat' (first
    | with_reducible assumption | ((with_reducible refine Within.sub hw ?_); decide)
    | (fail_if_no_progress extract_lets -underBinder -merge -useContext +onlyGivenNames z
       first
       | (refine keeps_cut (s := z) ?_ ?_; (on_goal 1 => unfold z); on_goal 2 => (intro _; try clear_value z))
       | try clear_value z)
    | with_reducible apply State.newOldest_keeps | with_reducible apply State.dropTxn_keeps
    | with_reducible apply State.moveEnds_keeps | with_reducible apply State.modQp_keeps | with_reducible apply keeps_foldl
    | with_reducible apply keeps_ite | with_reducible apply keeps_ite_snd | split
    | ((with_reducible refine State.keeps_mk hw (by assumption) rfl ?_)
       intro p; cases p <;> (first | exact .inl (by decide) | exact .inr rfl))
    | (intro _; intros; try beta_reduce))

theorem execAckReceived_keeps (dt : Nat) (qp : BitVec 16) (psn : BitVec 24) (s : State) :
    ∃ t, execAckReceived dt qp psn s = .next t ∧ (s.elapse dt).Keeps [.cores, .sched, .qps] t := by
  unfold execAckReceived
  refine ⟨_, rfl, ?_⟩
  have hw : Within [.cores, .sched, .qps] [.cores, .sched, .qps] := fun _ h => h
  have h := State.Keeps.refl [.cores, .sched, .qps] (s.elapse dt)
  generalize s.elapse dt = bef at h ⊢
  repeat' (first
    | with_reducible assumption | ((with_reducible refine Within.sub hw ?_); decide)
    | (fail_if_no_progress extract_lets -underBinder -merge -useContext +onlyGivenNames z
       first
       | (refine keeps_cut (s := z) ?_ ?_; (on_goal 1 => unfold z); on_goal 2 => (intro _; try clear_value z))
       | try clear_value z)
    | with_reducible apply State.acknowledge_keeps | with_reducible apply keeps_ite | with_reducible apply keeps_ite_snd
    | split | (intro _; intros; try beta_reduce))

theorem State.readResponse_keeps {pts : List Part} (hw : Within [.od, .mem, .cores, .sched, .qps, .hosts, .events] pts) {bef
    : State} {s : State} (n : Nat) (psn : Nat) (data : List Byte) (h : bef.Keeps pts s) : bef.Keeps pts (State.readResponse s
    n psn data) := by
  unfold State.readResponse
  repeat' (first
    | with_reducible assumption | ((with_reducible refine Within.sub hw ?_); decide)
    | (fail_if_no_progress extract_lets -underBinder -merge -useContext +onlyGivenNames z
       first
       | (refine keeps_cut (s := z) ?_ ?_; (on_goal 1 => unfold z); on_goal 2 => (intro _; try clear_value z))
       | (refine keeps_cut (s := z.2) ?_ ?_; (on_goal 1 => unfold z); on_goal 2 => (intro _; try clear_value z))
       | (refine keeps_cut (s := z.1) ?_ ?_; (on_goal 1 => unfold z); on_goal 2 => (intro _; try clear_value z))
       | (refine keeps_cut (s := z.2.1) ?_ ?_; (on_goal 1 => unfold z); on_goal 2 => (intro _; try clear_value z))
       | try clear_value z)
    | with_reducible apply State.newOldest_keeps | with_reducible apply State.dropTxn_keeps
    | with_reducible apply State.moveFails_keeps | with_reducible apply State.moveEnds_keeps
    | with_reducible apply State.writeAll_keeps | with_reducible apply State.modQp_keeps | with_reducible apply keeps_ite
    | with_reducible apply keeps_ite_snd | split
    | ((with_reducible refine State.keeps_mk hw (by assumption) rfl ?_)
       intro p; cases p <;> (first | exact .inl (by decide) | exact .inr rfl))
    | (intro _; intros; try beta_reduce))

theorem execRdmaReadResponse_keeps (dt : Nat) (qp : BitVec 16) (psn : BitVec 24) (data : List Byte) (s : State) :
    ∃ t, execRdmaReadResponse dt qp psn data s = .next t ∧ (s.elapse dt).Keeps [.od, .mem, .cores, .sched, .qps, .hosts,
        .events] t := by
  unfold execRdmaReadResponse
  refine ⟨_, rfl, ?_⟩
  have hw : Within [.od, .mem, .cores, .sched, .qps, .hosts, .events] [.od, .mem, .cores, .sched, .qps, .hosts, .events] :=
      fun _ h => h
  have h := State.Keeps.refl [.od, .mem, .cores, .sched, .qps, .hosts, .events] (s.elapse dt)
  generalize s.elapse dt = bef at h ⊢
  repeat' (first
    | with_reducible assumption | ((with_reducible refine Within.sub hw ?_); decide)
    | with_reducible apply State.readResponse_keeps | with_reducible apply keeps_ite | with_reducible apply keeps_ite_snd
    | split | (intro _; intros; try beta_reduce))

theorem State.retry_keeps {pts : List Part} (hw : Within [.out, .od, .cores, .sched, .qps, .hosts, .events] pts) {bef :
    State} {s : State} (n : Nat) (h : bef.Keeps pts s) : bef.Keeps pts (State.retry s n) := by
  unfold State.retry
  repeat' (first
    | with_reducible assumption | ((with_reducible refine Within.sub hw ?_); decide)
    | (fail_if_no_progress extract_lets -underBinder -merge -useContext +onlyGivenNames z
       first
       | (refine keeps_cut (s := z) ?_ ?_; (on_goal 1 => unfold z); on_goal 2 => (intro _; try clear_value z))
       | try clear_value z)
    | with_reducible apply State.qpError_keeps | with_reducible apply State.modQp_keeps
    | with_reducible apply State.emit_keeps | with_reducible apply keeps_ite | with_reducible apply keeps_ite_snd | split
    | ((with_reducible refine State.keeps_mk hw (by assumption) rfl ?_)
       intro p; cases p <;> (first | exact .inl (by decide) | exact .inr rfl))
    | (intro _; intros; try beta_reduce))

theorem execSequenceNak_keeps (dt : Nat) (qp : BitVec 16) (psn : BitVec 24) (s : State) :
    ∃ t, execSequenceNak dt qp psn s = .next t ∧ (s.elapse dt).Keeps [.out, .od, .cores, .sched, .qps, .hosts, .events] t := by
  unfold execSequenceNak
  refine ⟨_, rfl, ?_⟩
  have hw : Within [.out, .od, .cores, .sched, .qps, .hosts, .events] [.out, .od, .cores, .sched, .qps, .hosts, .events] :=
      fun _ h => h
  have h := State.Keeps.refl [.out, .od, .cores, .sched, .qps, .hosts, .events] (s.elapse dt)
  generalize s.elapse dt = bef at h ⊢
  repeat' (first
    | with_reducible assumption | ((with_reducible refine Within.sub hw ?_); decide)
    | (fail_if_no_progress extract_lets -underBinder -merge -useContext +onlyGivenNames z
       first
       | (refine keeps_cut (s := z) ?_ ?_; (on_goal 1 => unfold z); on_goal 2 => (intro _; try clear_value z))
       | try clear_value z)
    | with_reducible apply State.retry_keeps | with_reducible apply State.acknowledge_keeps | with_reducible apply keeps_ite
    | with_reducible apply keeps_ite_snd | split | (intro _; intros; try beta_reduce))

theorem execRetransmitTimeout_keeps (dt : Nat) (qp : BitVec 16) (s : State) :
    ∃ t, execRetransmitTimeout dt qp s = .next t ∧ (s.elapse dt).Keeps [.out, .od, .cores, .sched, .qps, .hosts, .events] t
        := by
  unfold execRetransmitTimeout
  refine ⟨_, rfl, ?_⟩
  have hw : Within [.out, .od, .cores, .sched, .qps, .hosts, .events] [.out, .od, .cores, .sched, .qps, .hosts, .events] :=
      fun _ h => h
  have h := State.Keeps.refl [.out, .od, .cores, .sched, .qps, .hosts, .events] (s.elapse dt)
  generalize s.elapse dt = bef at h ⊢
  repeat' (first
    | with_reducible assumption | ((with_reducible refine Within.sub hw ?_); decide)
    | (fail_if_no_progress extract_lets -underBinder -merge -useContext +onlyGivenNames z
       first
       | (refine keeps_cut (s := z) ?_ ?_; (on_goal 1 => unfold z); on_goal 2 => (intro _; try clear_value z))
       | try clear_value z)
    | with_reducible apply State.retry_keeps | with_reducible apply keeps_ite | with_reducible apply keeps_ite_snd | split
    | (intro _; intros; try beta_reduce))

theorem execFatalNak_keeps (dt : Nat) (qp : BitVec 16) (syndrome : BitVec 8) (s : State) :
    ∃ t, execFatalNak dt qp syndrome s = .next t ∧ (s.elapse dt).Keeps [.od, .cores, .sched, .qps, .hosts, .events] t := by
  unfold execFatalNak
  refine ⟨_, rfl, ?_⟩
  have hw : Within [.od, .cores, .sched, .qps, .hosts, .events] [.od, .cores, .sched, .qps, .hosts, .events] := fun _ h => h
  have h := State.Keeps.refl [.od, .cores, .sched, .qps, .hosts, .events] (s.elapse dt)
  generalize s.elapse dt = bef at h ⊢
  repeat' (first
    | with_reducible assumption | ((with_reducible refine Within.sub hw ?_); decide)
    | (fail_if_no_progress extract_lets -underBinder -merge -useContext +onlyGivenNames z
       first
       | (refine keeps_cut (s := z) ?_ ?_; (on_goal 1 => unfold z); on_goal 2 => (intro _; try clear_value z))
       | try clear_value z)
    | with_reducible apply State.qpError_keeps | with_reducible apply keeps_ite | with_reducible apply keeps_ite_snd | split
    | (intro _; intros; try beta_reduce))

theorem execCnpReceived_keeps (dt : Nat) (qp : BitVec 16) (s : State) :
    ∃ t, execCnpReceived dt qp s = .next t ∧ (s.elapse dt).Keeps [.od, .qps] t := by
  unfold execCnpReceived
  refine ⟨_, rfl, ?_⟩
  have hw : Within [.od, .qps] [.od, .qps] := fun _ h => h
  have h := State.Keeps.refl [.od, .qps] (s.elapse dt)
  generalize s.elapse dt = bef at h ⊢
  repeat' (first
    | with_reducible assumption | ((with_reducible refine Within.sub hw ?_); decide)
    | (fail_if_no_progress extract_lets -underBinder -merge -useContext +onlyGivenNames z
       first
       | (refine keeps_cut (s := z) ?_ ?_; (on_goal 1 => unfold z); on_goal 2 => (intro _; try clear_value z))
       | try clear_value z)
    | with_reducible apply State.bump_keeps | with_reducible apply State.modQp_keeps | with_reducible apply keeps_ite
    | with_reducible apply keeps_ite_snd | split | (intro _; intros; try beta_reduce))

theorem execRateRecoveryTimer_keeps (dt : Nat) (qp : BitVec 16) (s : State) :
    ∃ t, execRateRecoveryTimer dt qp s = .next t ∧ (s.elapse dt).Keeps [.qps] t := by
  unfold execRateRecoveryTimer
  refine ⟨_, rfl, ?_⟩
  have hw : Within [.qps] [.qps] := fun _ h => h
  have h := State.Keeps.refl [.qps] (s.elapse dt)
  generalize s.elapse dt = bef at h ⊢
  repeat' (first
    | with_reducible assumption | ((with_reducible refine Within.sub hw ?_); decide)
    | (fail_if_no_progress extract_lets -underBinder -merge -useContext +onlyGivenNames z
       first
       | (refine keeps_cut (s := z) ?_ ?_; (on_goal 1 => unfold z); on_goal 2 => (intro _; try clear_value z))
       | try clear_value z)
    | with_reducible apply State.modQp_keeps | with_reducible apply keeps_ite | with_reducible apply keeps_ite_snd | split
    | ((with_reducible refine State.keeps_mk hw (by assumption) rfl ?_)
       intro p; cases p <;> (first | exact .inl (by decide) | exact .inr rfl))
    | (intro _; intros; try beta_reduce))

end Sys2Proof.Machine
end

