-- ==== Sys2Proof/Laws/KeepsSequencer.lean ====
section
/-! SUPPORT. What the operations of Machine/Sequencer.lean keep. -/

namespace Sys2Proof.Machine

theorem State.decodeWord_keeps {pts : List Part} (hw : Within [.out, .run, .od, .units, .mem, .cores, .jobs, .streams,
    .sched, .hosts, .events] pts) {bef : State} {s : State} (c : Nat) (x : CoreStep) (h : bef.Keeps pts s) : bef.Keeps pts
    (State.decodeWord s c x) := by
  unfold State.decodeWord
  repeat' (first
    | with_reducible assumption | ((with_reducible refine Within.sub hw ?_); decide)
    | (fail_if_no_progress extract_lets -underBinder -merge -useContext +onlyGivenNames z
       first
       | (refine keeps_cut (s := z) ?_ ?_; (on_goal 1 => unfold z); on_goal 2 => (intro _; try clear_value z))
       | try clear_value z)
    | with_reducible apply State.retire_keeps | with_reducible apply State.raiseTo_keeps
    | with_reducible apply State.bump_keeps | with_reducible apply State.modCore_keeps | with_reducible apply keeps_ite
    | with_reducible apply keeps_ite_snd | split
    | ((with_reducible refine State.keeps_mk hw (by assumption) rfl ?_)
       intro p; cases p <;> (first | exact .inl (by decide) | exact .inr rfl))
    | (intro _; intros; try beta_reduce))

theorem State.decodeNext_keeps {pts : List Part} (hw : Within [.out, .run, .od, .units, .mem, .cores, .jobs, .streams,
    .sched, .hosts, .events] pts) {bef : State} {s : State} (c : Nat) (dt : Nat) (h : bef.Keeps pts s) : bef.Keeps pts
    (State.decodeNext s c dt) := by
  unfold State.decodeNext
  repeat' (first
    | with_reducible assumption | ((with_reducible refine Within.sub hw ?_); decide)
    | (fail_if_no_progress extract_lets -underBinder -merge -useContext +onlyGivenNames z
       first
       | (refine keeps_cut (s := z) ?_ ?_; (on_goal 1 => unfold z); on_goal 2 => (intro _; try clear_value z))
       | (refine keeps_cut (s := z.2) ?_ ?_; (on_goal 1 => unfold z); on_goal 2 => (intro _; try clear_value z))
       | (refine keeps_cut (s := z.1) ?_ ?_; (on_goal 1 => unfold z); on_goal 2 => (intro _; try clear_value z))
       | (refine keeps_cut (s := z.2.1) ?_ ?_; (on_goal 1 => unfold z); on_goal 2 => (intro _; try clear_value z))
       | try clear_value z)
    | with_reducible apply State.decodeWord_keeps | with_reducible apply State.bump_keeps | with_reducible apply keeps_ite
    | with_reducible apply keeps_ite_snd | split
    | ((with_reducible refine State.keeps_mk hw (by assumption) rfl ?_)
       intro p; cases p <;> (first | exact .inl (by decide) | exact .inr rfl))
    | with_reducible refine keeps_of_fst (by with_reducible assumption) ?_
    | with_reducible refine keeps_of_snd (by with_reducible assumption) ?_ | (intro _; intros; try beta_reduce))

theorem execInstructionDecode_keeps (dt : Nat) (core : Fin 16) (s : State) :
    ∃ t, execInstructionDecode dt core s = .next t ∧ (s.elapse dt).Keeps [.out, .run, .od, .units, .mem, .cores, .jobs,
        .streams, .sched, .hosts, .events] t := by
  unfold execInstructionDecode
  refine ⟨_, rfl, ?_⟩
  have hw : Within [.out, .run, .od, .units, .mem, .cores, .jobs, .streams, .sched, .hosts, .events] [.out, .run, .od,
      .units, .mem, .cores, .jobs, .streams, .sched, .hosts, .events] := fun _ h => h
  have h := State.Keeps.refl [.out, .run, .od, .units, .mem, .cores, .jobs, .streams, .sched, .hosts, .events] (s.elapse dt)
  generalize s.elapse dt = bef at h ⊢
  repeat' (first
    | with_reducible assumption | ((with_reducible refine Within.sub hw ?_); decide)
    | with_reducible apply State.decodeNext_keeps | with_reducible apply keeps_ite | with_reducible apply keeps_ite_snd
    | split | (intro _; intros; try beta_reduce))

theorem State.pathSelect_keeps {pts : List Part} (hw : Within [.out, .run, .od, .units, .mem, .cores, .jobs, .streams,
    .sched, .hosts, .events] pts) {bef : State} {s : State} (c : Nat) (h : bef.Keeps pts s) : bef.Keeps pts (State.pathSelect
    s c) := by
  unfold State.pathSelect
  repeat' (first
    | with_reducible assumption | ((with_reducible refine Within.sub hw ?_); decide)
    | (fail_if_no_progress extract_lets -underBinder -merge -useContext +onlyGivenNames z
       first
       | (refine keeps_cut (s := z) ?_ ?_; (on_goal 1 => unfold z); on_goal 2 => (intro _; try clear_value z))
       | try clear_value z)
    | with_reducible apply State.retire_keeps | with_reducible apply State.modCore_keeps | with_reducible apply keeps_ite
    | with_reducible apply keeps_ite_snd | split
    | ((with_reducible refine State.keeps_mk hw (by assumption) rfl ?_)
       intro p; cases p <;> (first | exact .inl (by decide) | exact .inr rfl))
    | (intro _; intros; try beta_reduce))

theorem execPathSel_keeps (dt : Nat) (core : Fin 16) (s : State) :
    ∃ t, execPathSel dt core s = .next t ∧ (s.elapse dt).Keeps [.out, .run, .od, .units, .mem, .cores, .jobs, .streams,
        .sched, .hosts, .events] t := by
  unfold execPathSel
  refine ⟨_, rfl, ?_⟩
  have hw : Within [.out, .run, .od, .units, .mem, .cores, .jobs, .streams, .sched, .hosts, .events] [.out, .run, .od,
      .units, .mem, .cores, .jobs, .streams, .sched, .hosts, .events] := fun _ h => h
  have h := State.Keeps.refl [.out, .run, .od, .units, .mem, .cores, .jobs, .streams, .sched, .hosts, .events] (s.elapse dt)
  generalize s.elapse dt = bef at h ⊢
  repeat' (first
    | with_reducible assumption | ((with_reducible refine Within.sub hw ?_); decide)
    | (fail_if_no_progress extract_lets -underBinder -merge -useContext +onlyGivenNames z
       first
       | (refine keeps_cut (s := z) ?_ ?_; (on_goal 1 => unfold z); on_goal 2 => (intro _; try clear_value z))
       | try clear_value z)
    | with_reducible apply State.pathSelect_keeps | with_reducible apply keeps_ite | with_reducible apply keeps_ite_snd
    | split | (intro _; intros; try beta_reduce))

theorem State.enqueue_keeps {pts : List Part} (hw : Within [.cores] pts) {bef : State} {s : State} (c : Nat) (n : Nat) (qs :
    List Nat) (f : Footprint) (h : bef.Keeps pts s) : bef.Keeps pts (State.enqueue s c n qs f) := by
  unfold State.enqueue
  repeat' (first
    | with_reducible assumption | ((with_reducible refine Within.sub hw ?_); decide)
    | (fail_if_no_progress extract_lets -underBinder -merge -useContext +onlyGivenNames z
       first
       | (refine keeps_cut (s := z) ?_ ?_; (on_goal 1 => unfold z); on_goal 2 => (intro _; try clear_value z))
       | try clear_value z)
    | with_reducible apply State.modCore_keeps | with_reducible apply keeps_foldl | with_reducible apply keeps_ite
    | with_reducible apply keeps_ite_snd | split
    | ((with_reducible refine State.keeps_mk hw (by assumption) rfl ?_)
       intro p; cases p <;> (first | exact .inl (by decide) | exact .inr rfl))
    | (intro _; intros; try beta_reduce))

theorem State.dispatch_keeps {pts : List Part} (hw : Within [.cores] pts) {bef : State} {s : State} (c : Nat) (n : Nat) (h :
    bef.Keeps pts s) : bef.Keeps pts (State.dispatch s c n) := by
  unfold State.dispatch
  repeat' (first
    | with_reducible assumption | ((with_reducible refine Within.sub hw ?_); decide)
    | (fail_if_no_progress extract_lets -underBinder -merge -useContext +onlyGivenNames z
       first
       | (refine keeps_cut (s := z) ?_ ?_; (on_goal 1 => unfold z); on_goal 2 => (intro _; try clear_value z))
       | (refine keeps_cut (s := z.2) ?_ ?_; (on_goal 1 => unfold z); on_goal 2 => (intro _; try clear_value z))
       | (refine keeps_cut (s := z.1) ?_ ?_; (on_goal 1 => unfold z); on_goal 2 => (intro _; try clear_value z))
       | (refine keeps_cut (s := z.2.1) ?_ ?_; (on_goal 1 => unfold z); on_goal 2 => (intro _; try clear_value z))
       | try clear_value z)
    | with_reducible apply State.enqueue_keeps | with_reducible apply State.finish_keeps | with_reducible apply keeps_ite
    | with_reducible apply keeps_ite_snd | split
    | ((with_reducible refine State.keeps_mk hw (by assumption) rfl ?_)
       intro p; cases p <;> (first | exact .inl (by decide) | exact .inr rfl))
    | (intro _; intros; try beta_reduce))

theorem execInstructionDispatch_keeps (dt : Nat) (core : Fin 16) (op : Nat) (s : State) :
    ∃ t, execInstructionDispatch dt core op s = .next t ∧ (s.elapse dt).Keeps [.cores] t := by
  unfold execInstructionDispatch
  refine ⟨_, rfl, ?_⟩
  have hw : Within [.cores] [.cores] := fun _ h => h
  have h := State.Keeps.refl [.cores] (s.elapse dt)
  generalize s.elapse dt = bef at h ⊢
  repeat' (first
    | with_reducible assumption | ((with_reducible refine Within.sub hw ?_); decide)
    | with_reducible apply State.dispatch_keeps | with_reducible apply keeps_ite | with_reducible apply keeps_ite_snd
    | split | (intro _; intros; try beta_reduce))

theorem execInstructionComplete_keeps (dt : Nat) (core : Fin 16) (op : Nat) (s : State) :
    ∃ t, execInstructionComplete dt core op s = .next t ∧ (s.elapse dt).Keeps [.out, .run, .od, .units, .mem, .cores,
        .engines, .jobs, .streams, .sched, .hosts, .events] t := by
  unfold execInstructionComplete
  refine ⟨_, rfl, ?_⟩
  have hw : Within [.out, .run, .od, .units, .mem, .cores, .engines, .jobs, .streams, .sched, .hosts, .events] [.out, .run,
      .od, .units, .mem, .cores, .engines, .jobs, .streams, .sched, .hosts, .events] := fun _ h => h
  have h := State.Keeps.refl [.out, .run, .od, .units, .mem, .cores, .engines, .jobs, .streams, .sched, .hosts, .events]
      (s.elapse dt)
  generalize s.elapse dt = bef at h ⊢
  repeat' (first
    | with_reducible assumption | ((with_reducible refine Within.sub hw ?_); decide)
    | (fail_if_no_progress extract_lets -underBinder -merge -useContext +onlyGivenNames z
       first
       | (refine keeps_cut (s := z) ?_ ?_; (on_goal 1 => unfold z); on_goal 2 => (intro _; try clear_value z))
       | try clear_value z)
    | with_reducible apply State.nextLogical_keeps | with_reducible apply State.retire_keeps
    | with_reducible apply keeps_ite | with_reducible apply keeps_ite_snd | split
    | ((with_reducible refine State.keeps_mk hw (by assumption) rfl ?_)
       intro p; cases p <;> (first | exact .inl (by decide) | exact .inr rfl))
    | (intro _; intros; try beta_reduce))

theorem execNop_keeps (dt : Nat) (core : Fin 16) (s : State) :
    ∃ t, execNop dt core s = .next t ∧ (s.elapse dt).Keeps [.cores] t := by
  unfold execNop
  refine ⟨_, rfl, ?_⟩
  have hw : Within [.cores] [.cores] := fun _ h => h
  have h := State.Keeps.refl [.cores] (s.elapse dt)
  generalize s.elapse dt = bef at h ⊢
  repeat' (first
    | with_reducible assumption | ((with_reducible refine Within.sub hw ?_); decide)
    | (fail_if_no_progress extract_lets -underBinder -merge -useContext +onlyGivenNames z
       first
       | (refine keeps_cut (s := z) ?_ ?_; (on_goal 1 => unfold z); on_goal 2 => (intro _; try clear_value z))
       | try clear_value z)
    | with_reducible apply State.finish_keeps | with_reducible apply keeps_ite | with_reducible apply keeps_ite_snd | split
    | ((with_reducible refine State.keeps_mk hw (by assumption) rfl ?_)
       intro p; cases p <;> (first | exact .inl (by decide) | exact .inr rfl))
    | (intro _; intros; try beta_reduce))

theorem execEndStep_keeps (dt : Nat) (core : Fin 16) (s : State) :
    ∃ t, execEndStep dt core s = .next t ∧ (s.elapse dt).Keeps [.cores] t := by
  unfold execEndStep
  refine ⟨_, rfl, ?_⟩
  have hw : Within [.cores] [.cores] := fun _ h => h
  have h := State.Keeps.refl [.cores] (s.elapse dt)
  generalize s.elapse dt = bef at h ⊢
  repeat' (first
    | with_reducible assumption | ((with_reducible refine Within.sub hw ?_); decide)
    | (fail_if_no_progress extract_lets -underBinder -merge -useContext +onlyGivenNames z
       first
       | (refine keeps_cut (s := z) ?_ ?_; (on_goal 1 => unfold z); on_goal 2 => (intro _; try clear_value z))
       | try clear_value z)
    | with_reducible apply State.finish_keeps | with_reducible apply keeps_ite | with_reducible apply keeps_ite_snd | split
    | ((with_reducible refine State.keeps_mk hw (by assumption) rfl ?_)
       intro p; cases p <;> (first | exact .inl (by decide) | exact .inr rfl))
    | (intro _; intros; try beta_reduce))

theorem State.launchDone_keeps {pts : List Part} (hw : Within [.cores] pts) {bef : State} {s : State} (c : Nat) (n : Nat)
    (status : Nat) (h : bef.Keeps pts s) : bef.Keeps pts (State.launchDone s c n status) := by
  unfold State.launchDone
  repeat' (first
    | with_reducible assumption | ((with_reducible refine Within.sub hw ?_); decide)
    | (fail_if_no_progress extract_lets -underBinder -merge -useContext +onlyGivenNames z
       first
       | (refine keeps_cut (s := z) ?_ ?_; (on_goal 1 => unfold z); on_goal 2 => (intro _; try clear_value z))
       | try clear_value z)
    | with_reducible apply State.finish_keeps | with_reducible apply State.modCore_keeps | with_reducible apply keeps_ite
    | with_reducible apply keeps_ite_snd | split
    | ((with_reducible refine State.keeps_mk hw (by assumption) rfl ?_)
       intro p; cases p <;> (first | exact .inl (by decide) | exact .inr rfl))
    | (intro _; intros; try beta_reduce))

theorem State.launchAtHead_keeps {pts : List Part} (hw : Within [.od, .cores] pts) {bef : State} {s : State} (c : Nat) (h :
    bef.Keeps pts s) : bef.Keeps pts (State.launchAtHead s c) := by
  unfold State.launchAtHead
  repeat' (first
    | with_reducible assumption | ((with_reducible refine Within.sub hw ?_); decide)
    | (fail_if_no_progress extract_lets -underBinder -merge -useContext +onlyGivenNames z
       first
       | (refine keeps_cut (s := z) ?_ ?_; (on_goal 1 => unfold z); on_goal 2 => (intro _; try clear_value z))
       | try clear_value z)
    | with_reducible apply State.launchDone_keeps | with_reducible apply State.bump_keeps
    | with_reducible apply State.modCore_keeps | with_reducible apply keeps_ite | with_reducible apply keeps_ite_snd | split
    | ((with_reducible refine State.keeps_mk hw (by assumption) rfl ?_)
       intro p; cases p <;> (first | exact .inl (by decide) | exact .inr rfl))
    | (intro _; intros; try beta_reduce))

theorem execLaunchAt_keeps (dt : Nat) (core : Fin 16) (s : State) :
    ∃ t, execLaunchAt dt core s = .next t ∧ (s.elapse dt).Keeps [.od, .cores] t := by
  unfold execLaunchAt
  refine ⟨_, rfl, ?_⟩
  have hw : Within [.od, .cores] [.od, .cores] := fun _ h => h
  have h := State.Keeps.refl [.od, .cores] (s.elapse dt)
  generalize s.elapse dt = bef at h ⊢
  repeat' (first
    | with_reducible assumption | ((with_reducible refine Within.sub hw ?_); decide)
    | with_reducible apply State.launchAtHead_keeps | with_reducible apply keeps_ite | with_reducible apply keeps_ite_snd
    | split | (intro _; intros; try beta_reduce))

theorem execLaunchAtTime_keeps (dt : Nat) (core : Fin 16) (s : State) :
    ∃ t, execLaunchAtTime dt core s = .next t ∧ (s.elapse dt).Keeps [.cores] t := by
  unfold execLaunchAtTime
  refine ⟨_, rfl, ?_⟩
  have hw : Within [.cores] [.cores] := fun _ h => h
  have h := State.Keeps.refl [.cores] (s.elapse dt)
  generalize s.elapse dt = bef at h ⊢
  repeat' (first
    | with_reducible assumption | ((with_reducible refine Within.sub hw ?_); decide)
    | (fail_if_no_progress extract_lets -underBinder -merge -useContext +onlyGivenNames z
       first
       | (refine keeps_cut (s := z) ?_ ?_; (on_goal 1 => unfold z); on_goal 2 => (intro _; try clear_value z))
       | try clear_value z)
    | with_reducible apply State.launchDone_keeps | with_reducible apply keeps_ite | with_reducible apply keeps_ite_snd
    | split
    | ((with_reducible refine State.keeps_mk hw (by assumption) rfl ?_)
       intro p; cases p <;> (first | exact .inl (by decide) | exact .inr rfl))
    | (intro _; intros; try beta_reduce))

theorem State.signalHead_keeps {pts : List Part} (hw : Within [.cores] pts) {bef : State} {s : State} (c : Nat) (h :
    bef.Keeps pts s) : bef.Keeps pts (State.signalHead s c) := by
  unfold State.signalHead
  repeat' (first
    | with_reducible assumption | ((with_reducible refine Within.sub hw ?_); decide) | with_reducible apply hz
    | (fail_if_no_progress extract_lets -underBinder -merge -useContext +onlyGivenNames z
       first
       | (refine keeps_fact (P := ∀ x0 x1, bef.Keeps pts x0 → bef.Keeps pts (z x0 x1)) ?_ (fun hz => ?_); (on_goal 1 => (unfold z; intros; try beta_reduce)); on_goal 2 => (try clear_value z))
       | (refine keeps_cut (s := z) ?_ ?_; (on_goal 1 => unfold z); on_goal 2 => (intro _; try clear_value z))
       | try clear_value z)
    | with_reducible apply State.finish_keeps | with_reducible apply State.modCore_keeps
    | with_reducible apply keeps_forRange | with_reducible apply keeps_ite | with_reducible apply keeps_ite_snd | split
    | ((with_reducible refine State.keeps_mk hw (by assumption) rfl ?_)
       intro p; cases p <;> (first | exact .inl (by decide) | exact .inr rfl))
    | (intro _; intros; try beta_reduce))

theorem execSignal_keeps (dt : Nat) (core : Fin 16) (s : State) :
    ∃ t, execSignal dt core s = .next t ∧ (s.elapse dt).Keeps [.cores] t := by
  unfold execSignal
  refine ⟨_, rfl, ?_⟩
  have hw : Within [.cores] [.cores] := fun _ h => h
  have h := State.Keeps.refl [.cores] (s.elapse dt)
  generalize s.elapse dt = bef at h ⊢
  repeat' (first
    | with_reducible assumption | ((with_reducible refine Within.sub hw ?_); decide)
    | with_reducible apply State.signalHead_keeps | with_reducible apply keeps_ite | with_reducible apply keeps_ite_snd
    | split | (intro _; intros; try beta_reduce))

theorem State.waitHead_keeps {pts : List Part} (hw : Within [.cores] pts) {bef : State} {s : State} (c : Nat) (h : bef.Keeps
    pts s) : bef.Keeps pts (State.waitHead s c) := by
  unfold State.waitHead
  repeat' (first
    | with_reducible assumption | ((with_reducible refine Within.sub hw ?_); decide)
    | (fail_if_no_progress extract_lets -underBinder -merge -useContext +onlyGivenNames z
       first
       | (refine keeps_cut (s := z) ?_ ?_; (on_goal 1 => unfold z); on_goal 2 => (intro _; try clear_value z))
       | try clear_value z)
    | with_reducible apply State.finish_keeps | with_reducible apply State.modCore_keeps | with_reducible apply keeps_ite
    | with_reducible apply keeps_ite_snd | split
    | ((with_reducible refine State.keeps_mk hw (by assumption) rfl ?_)
       intro p; cases p <;> (first | exact .inl (by decide) | exact .inr rfl))
    | (intro _; intros; try beta_reduce))

theorem execWait_keeps (dt : Nat) (core : Fin 16) (s : State) :
    ∃ t, execWait dt core s = .next t ∧ (s.elapse dt).Keeps [.cores] t := by
  unfold execWait
  refine ⟨_, rfl, ?_⟩
  have hw : Within [.cores] [.cores] := fun _ h => h
  have h := State.Keeps.refl [.cores] (s.elapse dt)
  generalize s.elapse dt = bef at h ⊢
  repeat' (first
    | with_reducible assumption | ((with_reducible refine Within.sub hw ?_); decide)
    | with_reducible apply State.waitHead_keeps | with_reducible apply keeps_ite | with_reducible apply keeps_ite_snd
    | split | (intro _; intros; try beta_reduce))

theorem execWaitTimeout_keeps (dt : Nat) (core : Fin 16) (s : State) :
    ∃ t, execWaitTimeout dt core s = .next t ∧ (s.elapse dt).Keeps [.cores] t := by
  unfold execWaitTimeout
  refine ⟨_, rfl, ?_⟩
  have hw : Within [.cores] [.cores] := fun _ h => h
  have h := State.Keeps.refl [.cores] (s.elapse dt)
  generalize s.elapse dt = bef at h ⊢
  repeat' (first
    | with_reducible assumption | ((with_reducible refine Within.sub hw ?_); decide)
    | (fail_if_no_progress extract_lets -underBinder -merge -useContext +onlyGivenNames z
       first
       | (refine keeps_cut (s := z) ?_ ?_; (on_goal 1 => unfold z); on_goal 2 => (intro _; try clear_value z))
       | try clear_value z)
    | with_reducible apply State.finish_keeps | with_reducible apply keeps_ite | with_reducible apply keeps_ite_snd | split
    | ((with_reducible refine State.keeps_mk hw (by assumption) rfl ?_)
       intro p; cases p <;> (first | exact .inl (by decide) | exact .inr rfl))
    | (intro _; intros; try beta_reduce))

theorem execFence_keeps (dt : Nat) (core : Fin 16) (s : State) :
    ∃ t, execFence dt core s = .next t ∧ (s.elapse dt).Keeps [.cores] t := by
  unfold execFence
  refine ⟨_, rfl, ?_⟩
  have hw : Within [.cores] [.cores] := fun _ h => h
  have h := State.Keeps.refl [.cores] (s.elapse dt)
  generalize s.elapse dt = bef at h ⊢
  repeat' (first
    | with_reducible assumption | ((with_reducible refine Within.sub hw ?_); decide)
    | (fail_if_no_progress extract_lets -underBinder -merge -useContext +onlyGivenNames z
       first
       | (refine keeps_cut (s := z) ?_ ?_; (on_goal 1 => unfold z); on_goal 2 => (intro _; try clear_value z))
       | try clear_value z)
    | with_reducible apply State.finish_keeps | with_reducible apply keeps_ite | with_reducible apply keeps_ite_snd | split
    | ((with_reducible refine State.keeps_mk hw (by assumption) rfl ?_)
       intro p; cases p <;> (first | exact .inl (by decide) | exact .inr rfl))
    | (intro _; intros; try beta_reduce))

end Sys2Proof.Machine
end

