-- ==== Sys2Proof/Laws/KeepsTables.lean ====
section
/-! SUPPORT. What the operations of Machine/Tables.lean keep. -/

namespace Sys2Proof.Machine

theorem State.grantPut_keeps {pts : List Part} (hw : Within [.od] pts) {bef : State} (index : Nat) (sub : Nat) (v : Nat) {s :
    State} (h : bef.Keeps pts s) : bef.Keeps pts (State.grantPut index sub v s).2 := by
  unfold State.grantPut
  repeat' (first
    | with_reducible assumption | ((with_reducible refine Within.sub hw ?_); decide) | with_reducible apply store_keeps
    | with_reducible apply keeps_ite | with_reducible apply keeps_ite_snd | split | (intro _; intros; try beta_reduce))

theorem State.peerPut_keeps {pts : List Part} (hw : Within [.od] pts) {bef : State} (index : Nat) (sub : Nat) (v : Nat) {s :
    State} (h : bef.Keeps pts s) : bef.Keeps pts (State.peerPut index sub v s).2 := by
  unfold State.peerPut
  repeat' (first
    | with_reducible assumption | ((with_reducible refine Within.sub hw ?_); decide) | with_reducible apply store_keeps
    | with_reducible apply refuse_keeps | with_reducible apply keeps_ite | with_reducible apply keeps_ite_snd | split
    | (intro _; intros; try beta_reduce))

theorem State.lockAct_keeps {pts : List Part} (hw : Within [.od] pts) {bef : State} (v : Nat) {s : State} (h : bef.Keeps pts
    s) : bef.Keeps pts (State.lockAct v s).2 := by
  unfold State.lockAct
  repeat' (first
    | with_reducible assumption | ((with_reducible refine Within.sub hw ?_); decide) | with_reducible apply refuse_keeps
    | with_reducible apply accept_keeps | with_reducible apply State.setVal_keeps | with_reducible apply keeps_ite
    | with_reducible apply keeps_ite_snd | split | (intro _; intros; try beta_reduce))

theorem State.tableWrite_keeps {pts : List Part} (hw : Within [.od, .hosts, .events] pts) {bef : State} (m : Nat) (index :
    Nat) (sub : Nat) (act : State → Nat × State) {s : State} (h : bef.Keeps pts s) (hact : ∀ y0, bef.Keeps pts y0 → bef.Keeps
    pts (act y0).2) : bef.Keeps pts (State.tableWrite m index sub act s).2 := by
  unfold State.tableWrite
  repeat' (first
    | with_reducible assumption | with_reducible apply hact | ((with_reducible refine Within.sub hw ?_); decide)
    | (fail_if_no_progress extract_lets -underBinder -merge -useContext +onlyGivenNames z
       first
       | (refine keeps_cut (s := z) ?_ ?_; (on_goal 1 => unfold z); on_goal 2 => (intro _; try clear_value z))
       | (refine keeps_cut (s := z.2) ?_ ?_; (on_goal 1 => unfold z); on_goal 2 => (intro _; try clear_value z))
       | (refine keeps_cut (s := z.1) ?_ ?_; (on_goal 1 => unfold z); on_goal 2 => (intro _; try clear_value z))
       | (refine keeps_cut (s := z.2.1) ?_ ?_; (on_goal 1 => unfold z); on_goal 2 => (intro _; try clear_value z))
       | try clear_value z)
    | with_reducible apply State.deny_keeps | with_reducible apply keeps_ite | with_reducible apply keeps_ite_snd | split
    | (intro _; intros; try beta_reduce))

theorem execGrantWrite_keeps (dt : Nat) (road : Road) (index : BitVec 16) (sub : BitVec 8) (value : BitVec 32) (s : State) :
    ∃ t, execGrantWrite dt road index sub value s = .next t ∧ (s.elapse dt).Keeps [.out, .od, .hosts, .events] t := by
  unfold execGrantWrite
  refine ⟨_, rfl, ?_⟩
  have hw : Within [.out, .od, .hosts, .events] [.out, .od, .hosts, .events] := fun _ h => h
  have h := State.Keeps.refl [.out, .od, .hosts, .events] (s.elapse dt)
  generalize s.elapse dt = bef at h ⊢
  repeat' (first
    | with_reducible assumption | ((with_reducible refine Within.sub hw ?_); decide)
    | (fail_if_no_progress extract_lets -underBinder -merge -useContext +onlyGivenNames z
       first
       | (refine keeps_cut (s := z) ?_ ?_; (on_goal 1 => unfold z); on_goal 2 => (intro _; try clear_value z))
       | try clear_value z)
    | with_reducible apply State.tableWrite_keeps | with_reducible apply State.grantPut_keeps
    | with_reducible apply State.writeRow_keeps | with_reducible apply keeps_ite | with_reducible apply keeps_ite_snd
    | split | (intro _; intros; try beta_reduce))

theorem execRegionWrite_keeps (dt : Nat) (road : Road) (index : BitVec 16) (sub : BitVec 8) (value : BitVec 64) (s : State) :
    ∃ t, execRegionWrite dt road index sub value s = .next t ∧ (s.elapse dt).Keeps [.out, .od, .hosts, .events] t := by
  unfold execRegionWrite
  refine ⟨_, rfl, ?_⟩
  have hw : Within [.out, .od, .hosts, .events] [.out, .od, .hosts, .events] := fun _ h => h
  have h := State.Keeps.refl [.out, .od, .hosts, .events] (s.elapse dt)
  generalize s.elapse dt = bef at h ⊢
  repeat' (first
    | with_reducible assumption | ((with_reducible refine Within.sub hw ?_); decide)
    | (fail_if_no_progress extract_lets -underBinder -merge -useContext +onlyGivenNames z
       first
       | (refine keeps_cut (s := z) ?_ ?_; (on_goal 1 => unfold z); on_goal 2 => (intro _; try clear_value z))
       | try clear_value z)
    | with_reducible apply State.tableWrite_keeps | with_reducible apply store_keeps
    | with_reducible apply State.writeRow_keeps | with_reducible apply keeps_ite | with_reducible apply keeps_ite_snd
    | split | (intro _; intros; try beta_reduce))

theorem execPeerEntryWrite_keeps (dt : Nat) (road : Road) (index : BitVec 16) (sub : BitVec 8) (data : List Byte) (s : State) :
    ∃ t, execPeerEntryWrite dt road index sub data s = .next t ∧ (s.elapse dt).Keeps [.out, .od, .hosts, .events] t := by
  unfold execPeerEntryWrite
  refine ⟨_, rfl, ?_⟩
  have hw : Within [.out, .od, .hosts, .events] [.out, .od, .hosts, .events] := fun _ h => h
  have h := State.Keeps.refl [.out, .od, .hosts, .events] (s.elapse dt)
  generalize s.elapse dt = bef at h ⊢
  repeat' (first
    | with_reducible assumption | ((with_reducible refine Within.sub hw ?_); decide)
    | (fail_if_no_progress extract_lets -underBinder -merge -useContext +onlyGivenNames z
       first
       | (refine keeps_cut (s := z) ?_ ?_; (on_goal 1 => unfold z); on_goal 2 => (intro _; try clear_value z))
       | try clear_value z)
    | with_reducible apply State.tableWrite_keeps | with_reducible apply State.peerPut_keeps
    | with_reducible apply State.writeRow_keeps | with_reducible apply keeps_ite | with_reducible apply keeps_ite_snd
    | split | (intro _; intros; try beta_reduce))

theorem execCommissioningLock_keeps (dt : Nat) (road : Road) (value : BitVec 8) (s : State) :
    ∃ t, execCommissioningLock dt road value s = .next t ∧ (s.elapse dt).Keeps [.out, .od, .hosts, .events] t := by
  unfold execCommissioningLock
  refine ⟨_, rfl, ?_⟩
  have hw : Within [.out, .od, .hosts, .events] [.out, .od, .hosts, .events] := fun _ h => h
  have h := State.Keeps.refl [.out, .od, .hosts, .events] (s.elapse dt)
  generalize s.elapse dt = bef at h ⊢
  repeat' (first
    | with_reducible assumption | ((with_reducible refine Within.sub hw ?_); decide)
    | with_reducible apply State.lockAct_keeps | with_reducible apply State.writeRow_keeps | with_reducible apply keeps_ite
    | with_reducible apply keeps_ite_snd | split | (intro _; intros; try beta_reduce))

end Sys2Proof.Machine
end

