-- ==== Sys2Proof/Laws/KeepsTime.lean ====
section
/-! SUPPORT. What the operations of Machine/Time.lean keep. -/

namespace Sys2Proof.Machine

theorem State.modSource_keeps {pts : List Part} (hw : Within [.time] pts) {bef : State} {s : State} (k : Nat) (f : TimeSource
    → TimeSource) (h : bef.Keeps pts s) : bef.Keeps pts (State.modSource s k f) := by
  unfold State.modSource
  repeat' (first
    | with_reducible assumption | ((with_reducible refine Within.sub hw ?_); decide)
    | (fail_if_no_progress extract_lets -underBinder -merge -useContext +onlyGivenNames z
       first
       | (refine keeps_cut (s := z) ?_ ?_; (on_goal 1 => unfold z); on_goal 2 => (intro _; try clear_value z))
       | try clear_value z)
    | with_reducible apply keeps_ite | with_reducible apply keeps_ite_snd | split
    | ((with_reducible refine State.keeps_mk hw (by assumption) rfl ?_)
       intro p; cases p <;> (first | exact .inl (by decide) | exact .inr rfl))
    | (intro _; intros; try beta_reduce))

theorem State.stepTime_keeps {pts : List Part} (hw : Within [.clock, .time, .od, .sched] pts) {bef : State} {s : State}
    (offset : Int) (h : bef.Keeps pts s) :
    bef.Keeps pts (State.stepTime s offset) := by
  unfold State.stepTime
  exact State.bump_keeps (hw.sub (by decide)) _ _ _ (State.keeps_mk hw (keeps_forRange (State.keeps_mk hw h rfl (by intro p; cases p <;> first | exact .inl (by decide) | exact .inr rfl))
    (fun s k h => keeps_ite h (State.modSource_keeps (hw.sub (by decide)) _ _ h))) rfl (by intro p; cases p <;> first | exact .inl (by decide) | exact .inr rfl))

theorem State.correct_keeps {pts : List Part} (hw : Within [.clock, .time, .od, .sched] pts) {bef : State} {s : State}
    (offset : Int) (h : bef.Keeps pts s) :
    bef.Keeps pts (State.correct s offset) := by
  unfold State.correct
  split
  · exact State.stepTime_keeps (hw.sub (by decide)) _ h
  · exact State.keeps_mk hw h rfl (by intro p; cases p <;> first | exact .inl (by decide) | exact .inr rfl)

theorem State.lockTo_keeps {pts : List Part} (hw : Within [.time, .od] pts) {bef : State} {s : State} (st : LockSt) (h :
    bef.Keeps pts s) : bef.Keeps pts (State.lockTo s st) := by
  unfold State.lockTo
  repeat' (first
    | with_reducible assumption | ((with_reducible refine Within.sub hw ?_); decide)
    | (fail_if_no_progress extract_lets -underBinder -merge -useContext +onlyGivenNames z
       first
       | (refine keeps_cut (s := z) ?_ ?_; (on_goal 1 => unfold z); on_goal 2 => (intro _; try clear_value z))
       | try clear_value z)
    | with_reducible apply State.bump_keeps | with_reducible apply keeps_ite | with_reducible apply keeps_ite_snd | split
    | ((with_reducible refine State.keeps_mk hw (by assumption) rfl ?_)
       intro p; cases p <;> (first | exact .inl (by decide) | exact .inr rfl))
    | (intro _; intros; try beta_reduce))

theorem State.enterHoldover_keeps {pts : List Part} (hw : Within [.time, .od, .hosts, .events] pts) {bef : State} {s : State}
    (h : bef.Keeps pts s) : bef.Keeps pts (State.enterHoldover s) := by
  unfold State.enterHoldover
  repeat' (first
    | with_reducible assumption | ((with_reducible refine Within.sub hw ?_); decide)
    | with_reducible apply State.lockTo_keeps | with_reducible apply State.raise_keeps | with_reducible apply keeps_ite
    | with_reducible apply keeps_ite_snd | split | (intro _; intros; try beta_reduce))

theorem State.trackLock_keeps {pts : List Part} (hw : Within [.time] pts) {bef : State} {s : State} (offset : Int) (h :
    bef.Keeps pts s) : bef.Keeps pts (State.trackLock s offset) := by
  unfold State.trackLock
  repeat' (first
    | with_reducible assumption | ((with_reducible refine Within.sub hw ?_); decide)
    | (fail_if_no_progress extract_lets -underBinder -merge -useContext +onlyGivenNames z
       first
       | (refine keeps_cut (s := z) ?_ ?_; (on_goal 1 => unfold z); on_goal 2 => (intro _; try clear_value z))
       | try clear_value z)
    | with_reducible apply keeps_ite | with_reducible apply keeps_ite_snd | split
    | ((with_reducible refine State.keeps_mk hw (by assumption) rfl ?_)
       intro p; cases p <;> (first | exact .inl (by decide) | exact .inr rfl))
    | (intro _; intros; try beta_reduce))

theorem State.followOffset_keeps {pts : List Part} (hw : Within [.clock, .time, .od, .sched, .hosts, .events] pts) {bef :
    State} {s : State} (offset : Int) (h : bef.Keeps pts s) : bef.Keeps pts (State.followOffset s offset) := by
  unfold State.followOffset
  repeat' (first
    | with_reducible assumption | ((with_reducible refine Within.sub hw ?_); decide)
    | (fail_if_no_progress extract_lets -underBinder -merge -useContext +onlyGivenNames z
       first
       | (refine keeps_cut (s := z) ?_ ?_; (on_goal 1 => unfold z); on_goal 2 => (intro _; try clear_value z))
       | try clear_value z)
    | with_reducible apply State.trackLock_keeps | with_reducible apply State.enterHoldover_keeps
    | with_reducible apply State.correct_keeps | with_reducible apply keeps_ite | with_reducible apply keeps_ite_snd | split
    | (intro _; intros; try beta_reduce))

theorem State.follow_keeps {pts : List Part} (hw : Within [.clock, .time, .od, .sched, .hosts, .events] pts) {bef : State} {s
    : State} (k : Nat) (h : bef.Keeps pts s) : bef.Keeps pts (State.follow s k) := by
  unfold State.follow
  repeat' (first
    | with_reducible assumption | ((with_reducible refine Within.sub hw ?_); decide)
    | (fail_if_no_progress extract_lets -underBinder -merge -useContext +onlyGivenNames z
       first
       | (refine keeps_cut (s := z) ?_ ?_; (on_goal 1 => unfold z); on_goal 2 => (intro _; try clear_value z))
       | try clear_value z)
    | with_reducible apply State.followOffset_keeps | with_reducible apply keeps_ite | with_reducible apply keeps_ite_snd
    | split
    | ((with_reducible refine State.keeps_mk hw (by assumption) rfl ?_)
       intro p; cases p <;> (first | exact .inl (by decide) | exact .inr rfl))
    | (intro _; intros; try beta_reduce))

theorem State.unfollow_keeps {pts : List Part} (hw : Within [.clock, .time, .od, .sched, .hosts, .events] pts) {bef : State}
    {s : State} (k : Nat) (h : bef.Keeps pts s) : bef.Keeps pts (State.unfollow s k) := by
  unfold State.unfollow
  repeat' (first
    | with_reducible assumption | ((with_reducible refine Within.sub hw ?_); decide)
    | (fail_if_no_progress extract_lets -underBinder -merge -useContext +onlyGivenNames z
       first
       | (refine keeps_cut (s := z) ?_ ?_; (on_goal 1 => unfold z); on_goal 2 => (intro _; try clear_value z))
       | try clear_value z)
    | with_reducible apply State.follow_keeps | with_reducible apply State.enterHoldover_keeps
    | with_reducible apply keeps_ite | with_reducible apply keeps_ite_snd | split
    | ((with_reducible refine State.keeps_mk hw (by assumption) rfl ?_)
       intro p; cases p <;> (first | exact .inl (by decide) | exact .inr rfl))
    | (intro _; intros; try beta_reduce))

theorem State.loseSource_keeps {pts : List Part} (hw : Within [.clock, .time, .od, .sched, .hosts, .events] pts) {bef :
    State} {s : State} (k : Nat) (h : bef.Keeps pts s) : bef.Keeps pts (State.loseSource s k) := by
  unfold State.loseSource
  repeat' (first
    | with_reducible assumption | ((with_reducible refine Within.sub hw ?_); decide)
    | with_reducible apply State.unfollow_keeps | with_reducible apply State.modSource_keeps
    | with_reducible apply keeps_ite | with_reducible apply keeps_ite_snd | split | (intro _; intros; try beta_reduce))

theorem State.updateSource_keeps {pts : List Part} (hw : Within [.clock, .time, .od, .sched, .hosts, .events] pts) {bef :
    State} {s : State} (k : Nat) (offset : Int) (cls : Nat) (h : bef.Keeps pts s) : bef.Keeps pts (State.updateSource s k
    offset cls) := by
  unfold State.updateSource
  repeat' (first
    | with_reducible assumption | ((with_reducible refine Within.sub hw ?_); decide)
    | (fail_if_no_progress extract_lets -underBinder -merge -useContext +onlyGivenNames z
       first
       | (refine keeps_cut (s := z) ?_ ?_; (on_goal 1 => unfold z); on_goal 2 => (intro _; try clear_value z))
       | try clear_value z)
    | with_reducible apply State.unfollow_keeps | with_reducible apply State.followOffset_keeps
    | with_reducible apply State.correct_keeps | with_reducible apply State.modSource_keeps | with_reducible apply keeps_ite
    | with_reducible apply keeps_ite_snd | split
    | ((with_reducible refine State.keeps_mk hw (by assumption) rfl ?_)
       intro p; cases p <;> (first | exact .inl (by decide) | exact .inr rfl))
    | (intro _; intros; try beta_reduce))

theorem State.sourceUpdate_keeps {pts : List Part} (hw : Within [.clock, .time, .od, .sched, .hosts, .events] pts) {bef :
    State} {s : State} (k : Nat) (offset : Int) (cls : Nat) (utc : Option (BitVec 16)) (h : bef.Keeps pts s) : bef.Keeps pts
    (State.sourceUpdate s k offset cls utc) := by
  unfold State.sourceUpdate
  repeat' (first
    | with_reducible assumption | ((with_reducible refine Within.sub hw ?_); decide)
    | (fail_if_no_progress extract_lets -underBinder -merge -useContext +onlyGivenNames z
       first
       | (refine keeps_cut (s := z) ?_ ?_; (on_goal 1 => unfold z); on_goal 2 => (intro _; try clear_value z))
       | try clear_value z)
    | with_reducible apply State.updateSource_keeps | with_reducible apply State.setVal_keeps
    | with_reducible apply keeps_ite | with_reducible apply keeps_ite_snd | split
    | ((with_reducible refine State.keeps_mk hw (by assumption) rfl ?_)
       intro p; cases p <;> (first | exact .inl (by decide) | exact .inr rfl))
    | (intro _; intros; try beta_reduce))

theorem execSourceUpdate_keeps (dt : Nat) (src : TimeSrc) (offset : Int) (clockClass : BitVec 8) (utcOffset : Option (BitVec
    16)) (s : State) :
    ∃ t, execSourceUpdate dt src offset clockClass utcOffset s = .next t ∧ (s.elapse dt).Keeps [.clock, .time, .od, .sched,
        .hosts, .events] t := by
  unfold execSourceUpdate
  refine ⟨_, rfl, ?_⟩
  have hw : Within [.clock, .time, .od, .sched, .hosts, .events] [.clock, .time, .od, .sched, .hosts, .events] := fun _ h => h
  have h := State.Keeps.refl [.clock, .time, .od, .sched, .hosts, .events] (s.elapse dt)
  generalize s.elapse dt = bef at h ⊢
  repeat' (first
    | with_reducible assumption | ((with_reducible refine Within.sub hw ?_); decide)
    | with_reducible apply State.sourceUpdate_keeps | with_reducible apply keeps_ite | with_reducible apply keeps_ite_snd
    | split | (intro _; intros; try beta_reduce))

theorem State.qualify_keeps {pts : List Part} (hw : Within [.clock, .time, .od, .sched, .hosts, .events] pts) {bef : State}
    {s : State} (k : Nat) (h : bef.Keeps pts s) : bef.Keeps pts (State.qualify s k) := by
  unfold State.qualify
  repeat' (first
    | with_reducible assumption | ((with_reducible refine Within.sub hw ?_); decide)
    | (fail_if_no_progress extract_lets -underBinder -merge -useContext +onlyGivenNames z
       first
       | (refine keeps_cut (s := z) ?_ ?_; (on_goal 1 => unfold z); on_goal 2 => (intro _; try clear_value z))
       | (refine keeps_cut (s := z.2) ?_ ?_; (on_goal 1 => unfold z); on_goal 2 => (intro _; try clear_value z))
       | (refine keeps_cut (s := z.1) ?_ ?_; (on_goal 1 => unfold z); on_goal 2 => (intro _; try clear_value z))
       | (refine keeps_cut (s := z.2.1) ?_ ?_; (on_goal 1 => unfold z); on_goal 2 => (intro _; try clear_value z))
       | try clear_value z)
    | with_reducible apply State.follow_keeps | with_reducible apply State.modSource_keeps | with_reducible apply keeps_ite
    | with_reducible apply keeps_ite_snd | split
    | ((with_reducible refine State.keeps_mk hw (by assumption) rfl ?_)
       intro p; cases p <;> (first | exact .inl (by decide) | exact .inr rfl))
    | with_reducible refine keeps_of_fst (by with_reducible assumption) ?_
    | with_reducible refine keeps_of_snd (by with_reducible assumption) ?_ | (intro _; intros; try beta_reduce))

theorem execSourceQualified_keeps (dt : Nat) (src : TimeSrc) (s : State) :
    ∃ t, execSourceQualified dt src s = .next t ∧ (s.elapse dt).Keeps [.clock, .time, .od, .sched, .hosts, .events] t := by
  unfold execSourceQualified
  refine ⟨_, rfl, ?_⟩
  have hw : Within [.clock, .time, .od, .sched, .hosts, .events] [.clock, .time, .od, .sched, .hosts, .events] := fun _ h => h
  have h := State.Keeps.refl [.clock, .time, .od, .sched, .hosts, .events] (s.elapse dt)
  generalize s.elapse dt = bef at h ⊢
  repeat' (first
    | with_reducible assumption | ((with_reducible refine Within.sub hw ?_); decide)
    | with_reducible apply State.qualify_keeps | with_reducible apply keeps_ite | with_reducible apply keeps_ite_snd | split
    | (intro _; intros; try beta_reduce))

theorem State.sourceLost_keeps {pts : List Part} (hw : Within [.clock, .time, .od, .sched, .hosts, .events] pts) {bef :
    State} {s : State} (k : Nat) (h : bef.Keeps pts s) : bef.Keeps pts (State.sourceLost s k) := by
  unfold State.sourceLost
  repeat' (first
    | with_reducible assumption | ((with_reducible refine Within.sub hw ?_); decide)
    | (fail_if_no_progress extract_lets -underBinder -merge -useContext +onlyGivenNames z
       first
       | (refine keeps_cut (s := z) ?_ ?_; (on_goal 1 => unfold z); on_goal 2 => (intro _; try clear_value z))
       | try clear_value z)
    | with_reducible apply State.loseSource_keeps | with_reducible apply keeps_ite | with_reducible apply keeps_ite_snd
    | split | (intro _; intros; try beta_reduce))

theorem execSourceLost_keeps (dt : Nat) (src : TimeSrc) (s : State) :
    ∃ t, execSourceLost dt src s = .next t ∧ (s.elapse dt).Keeps [.clock, .time, .od, .sched, .hosts, .events] t := by
  unfold execSourceLost
  refine ⟨_, rfl, ?_⟩
  have hw : Within [.clock, .time, .od, .sched, .hosts, .events] [.clock, .time, .od, .sched, .hosts, .events] := fun _ h => h
  have h := State.Keeps.refl [.clock, .time, .od, .sched, .hosts, .events] (s.elapse dt)
  generalize s.elapse dt = bef at h ⊢
  repeat' (first
    | with_reducible assumption | ((with_reducible refine Within.sub hw ?_); decide)
    | with_reducible apply State.sourceLost_keeps | with_reducible apply keeps_ite | with_reducible apply keeps_ite_snd
    | split | (intro _; intros; try beta_reduce))

theorem State.restoreSource_keeps {pts : List Part} (hw : Within [.clock, .time, .od, .sched, .hosts, .events] pts) {bef :
    State} {s : State} (h : bef.Keeps pts s) : bef.Keeps pts (State.restoreSource s) := by
  unfold State.restoreSource
  repeat' (first
    | with_reducible assumption | ((with_reducible refine Within.sub hw ?_); decide)
    | (fail_if_no_progress extract_lets -underBinder -merge -useContext +onlyGivenNames z
       first
       | (refine keeps_cut (s := z) ?_ ?_; (on_goal 1 => unfold z); on_goal 2 => (intro _; try clear_value z))
       | try clear_value z)
    | with_reducible apply State.follow_keeps | with_reducible apply keeps_ite | with_reducible apply keeps_ite_snd | split
    | (intro _; intros; try beta_reduce))

theorem execWaitToRestore_keeps (dt : Nat) (s : State) :
    ∃ t, execWaitToRestore dt s = .next t ∧ (s.elapse dt).Keeps [.clock, .time, .od, .sched, .hosts, .events] t := by
  unfold execWaitToRestore
  refine ⟨_, rfl, ?_⟩
  have hw : Within [.clock, .time, .od, .sched, .hosts, .events] [.clock, .time, .od, .sched, .hosts, .events] := fun _ h => h
  have h := State.Keeps.refl [.clock, .time, .od, .sched, .hosts, .events] (s.elapse dt)
  generalize s.elapse dt = bef at h ⊢
  repeat' (first
    | with_reducible assumption | ((with_reducible refine Within.sub hw ?_); decide)
    | with_reducible apply State.restoreSource_keeps | with_reducible apply keeps_ite | with_reducible apply keeps_ite_snd
    | split | (intro _; intros; try beta_reduce))

theorem State.lockTime_keeps {pts : List Part} (hw : Within [.time, .od, .hosts, .events] pts) {bef : State} {s : State} (h :
    bef.Keeps pts s) : bef.Keeps pts (State.lockTime s) := by
  unfold State.lockTime
  repeat' (first
    | with_reducible assumption | ((with_reducible refine Within.sub hw ?_); decide)
    | (fail_if_no_progress extract_lets -underBinder -merge -useContext +onlyGivenNames z
       first
       | (refine keeps_cut (s := z) ?_ ?_; (on_goal 1 => unfold z); on_goal 2 => (intro _; try clear_value z))
       | try clear_value z)
    | with_reducible apply State.lockTo_keeps | with_reducible apply State.clearAlarm_keeps
    | with_reducible apply State.raise_keeps | with_reducible apply keeps_ite | with_reducible apply keeps_ite_snd | split
    | ((with_reducible refine State.keeps_mk hw (by assumption) rfl ?_)
       intro p; cases p <;> (first | exact .inl (by decide) | exact .inr rfl))
    | (intro _; intros; try beta_reduce))

theorem execTimeLocked_keeps (dt : Nat) (s : State) :
    ∃ t, execTimeLocked dt s = .next t ∧ (s.elapse dt).Keeps [.time, .od, .hosts, .events] t := by
  unfold execTimeLocked
  refine ⟨_, rfl, ?_⟩
  have hw : Within [.time, .od, .hosts, .events] [.time, .od, .hosts, .events] := fun _ h => h
  have h := State.Keeps.refl [.time, .od, .hosts, .events] (s.elapse dt)
  generalize s.elapse dt = bef at h ⊢
  repeat' (first
    | with_reducible assumption | ((with_reducible refine Within.sub hw ?_); decide)
    | with_reducible apply State.lockTime_keeps | with_reducible apply keeps_ite | with_reducible apply keeps_ite_snd
    | split | (intro _; intros; try beta_reduce))

theorem State.freeRunTime_keeps {pts : List Part} (hw : Within [.out, .time, .od, .mem, .cores, .jobs, .sched, .hosts,
    .events] pts) {bef : State} {s : State} (h : bef.Keeps pts s) : bef.Keeps pts (State.freeRunTime s) := by
  unfold State.freeRunTime
  repeat' (first
    | with_reducible assumption | ((with_reducible refine Within.sub hw ?_); decide)
    | with_reducible apply State.lockTo_keeps | with_reducible apply State.refuseCross_keeps
    | with_reducible apply State.raise_keeps | with_reducible apply keeps_ite | with_reducible apply keeps_ite_snd | split
    | (intro _; intros; try beta_reduce))

theorem execTimeFreeRun_keeps (dt : Nat) (s : State) :
    ∃ t, execTimeFreeRun dt s = .next t ∧ (s.elapse dt).Keeps [.out, .time, .od, .mem, .cores, .jobs, .sched, .hosts,
        .events] t := by
  unfold execTimeFreeRun
  refine ⟨_, rfl, ?_⟩
  have hw : Within [.out, .time, .od, .mem, .cores, .jobs, .sched, .hosts, .events] [.out, .time, .od, .mem, .cores, .jobs,
      .sched, .hosts, .events] := fun _ h => h
  have h := State.Keeps.refl [.out, .time, .od, .mem, .cores, .jobs, .sched, .hosts, .events] (s.elapse dt)
  generalize s.elapse dt = bef at h ⊢
  repeat' (first
    | with_reducible assumption | ((with_reducible refine Within.sub hw ?_); decide)
    | with_reducible apply State.freeRunTime_keeps | with_reducible apply keeps_ite | with_reducible apply keeps_ite_snd
    | split | (intro _; intros; try beta_reduce))

theorem State.ppsEdge_keeps {pts : List Part} (hw : Within [.clock, .time, .od, .sched, .hosts, .events] pts) {bef : State}
    {s : State} (h : bef.Keeps pts s) : bef.Keeps pts (State.ppsEdge s) := by
  unfold State.ppsEdge
  repeat' (first
    | with_reducible assumption | ((with_reducible refine Within.sub hw ?_); decide)
    | (fail_if_no_progress extract_lets -underBinder -merge -useContext +onlyGivenNames z
       first
       | (refine keeps_cut (s := z) ?_ ?_; (on_goal 1 => unfold z); on_goal 2 => (intro _; try clear_value z))
       | try clear_value z)
    | with_reducible apply State.updateSource_keeps | with_reducible apply State.loseSource_keeps
    | with_reducible apply keeps_ite | with_reducible apply keeps_ite_snd | split
    | ((with_reducible refine State.keeps_mk hw (by assumption) rfl ?_)
       intro p; cases p <;> (first | exact .inl (by decide) | exact .inr rfl))
    | (intro _; intros; try beta_reduce))

theorem execPpsEdge_keeps (dt : Nat) (s : State) :
    ∃ t, execPpsEdge dt s = .next t ∧ (s.elapse dt).Keeps [.clock, .time, .od, .sched, .hosts, .events] t := by
  unfold execPpsEdge
  refine ⟨_, rfl, ?_⟩
  have hw : Within [.clock, .time, .od, .sched, .hosts, .events] [.clock, .time, .od, .sched, .hosts, .events] := fun _ h => h
  have h := State.Keeps.refl [.clock, .time, .od, .sched, .hosts, .events] (s.elapse dt)
  generalize s.elapse dt = bef at h ⊢
  repeat' (first
    | with_reducible assumption | ((with_reducible refine Within.sub hw ?_); decide)
    | with_reducible apply State.ppsEdge_keeps | with_reducible apply keeps_ite | with_reducible apply keeps_ite_snd | split
    | (intro _; intros; try beta_reduce))

theorem State.timeOfDayAct_keeps {pts : List Part} (hw : Within [.time] pts) {bef : State} (v : Nat) {s : State} (h :
    bef.Keeps pts s) : bef.Keeps pts (State.timeOfDayAct v s).2 := by
  unfold State.timeOfDayAct
  repeat' (first
    | with_reducible assumption | ((with_reducible refine Within.sub hw ?_); decide)
    | (fail_if_no_progress extract_lets -underBinder -merge -useContext +onlyGivenNames z
       first
       | (refine keeps_cut (s := z) ?_ ?_; (on_goal 1 => unfold z); on_goal 2 => (intro _; try clear_value z))
       | try clear_value z)
    | with_reducible apply refuse_keeps | with_reducible apply accept_keeps | with_reducible apply keeps_ite
    | with_reducible apply keeps_ite_snd | split
    | ((with_reducible refine State.keeps_mk hw (by assumption) rfl ?_)
       intro p; cases p <;> (first | exact .inl (by decide) | exact .inr rfl))
    | (intro _; intros; try beta_reduce))

theorem execTimeOfDay_keeps (dt : Nat) (road : Road) (seconds : BitVec 64) (s : State) :
    ∃ t, execTimeOfDay dt road seconds s = .next t ∧ (s.elapse dt).Keeps [.out, .time, .od, .hosts, .events] t := by
  unfold execTimeOfDay
  refine ⟨_, rfl, ?_⟩
  have hw : Within [.out, .time, .od, .hosts, .events] [.out, .time, .od, .hosts, .events] := fun _ h => h
  have h := State.Keeps.refl [.out, .time, .od, .hosts, .events] (s.elapse dt)
  generalize s.elapse dt = bef at h ⊢
  repeat' (first
    | with_reducible assumption | ((with_reducible refine Within.sub hw ?_); decide)
    | with_reducible apply State.timeOfDayAct_keeps | with_reducible apply State.writeRow_keeps
    | with_reducible apply keeps_ite | with_reducible apply keeps_ite_snd | split | (intro _; intros; try beta_reduce))

theorem State.sourceEnableAct_keeps {pts : List Part} (hw : Within [.clock, .time, .od, .sched, .hosts, .events] pts) {bef :
    State} (k : Nat) (v : Nat) {s : State} (h : bef.Keeps pts s) : bef.Keeps pts (State.sourceEnableAct k v s).2 := by
  unfold State.sourceEnableAct
  repeat' (first
    | with_reducible assumption | ((with_reducible refine Within.sub hw ?_); decide)
    | (fail_if_no_progress extract_lets -underBinder -merge -useContext +onlyGivenNames z
       first
       | (refine keeps_cut (s := z) ?_ ?_; (on_goal 1 => unfold z); on_goal 2 => (intro _; try clear_value z))
       | try clear_value z)
    | with_reducible apply State.loseSource_keeps | with_reducible apply accept_keeps
    | with_reducible apply State.setVal_keeps | with_reducible apply keeps_ite | with_reducible apply keeps_ite_snd | split
    | (intro _; intros; try beta_reduce))

theorem State.dcEpochAct_keeps {pts : List Part} (hw : Within [.clock, .time, .od, .sched, .hosts, .events] pts) {bef :
    State} (v : Nat) {s : State} (h : bef.Keeps pts s) : bef.Keeps pts (State.dcEpochAct v s).2 := by
  unfold State.dcEpochAct
  repeat' (first
    | with_reducible assumption | ((with_reducible refine Within.sub hw ?_); decide)
    | (fail_if_no_progress extract_lets -underBinder -merge -useContext +onlyGivenNames z
       first
       | (refine keeps_cut (s := z) ?_ ?_; (on_goal 1 => unfold z); on_goal 2 => (intro _; try clear_value z))
       | try clear_value z)
    | with_reducible apply State.followOffset_keeps | with_reducible apply State.modSource_keeps
    | with_reducible apply accept_keeps | with_reducible apply State.setVal_keeps | with_reducible apply keeps_ite
    | with_reducible apply keeps_ite_snd | split
    | ((with_reducible refine State.keeps_mk hw (by assumption) rfl ?_)
       intro p; cases p <;> (first | exact .inl (by decide) | exact .inr rfl))
    | (intro _; intros; try beta_reduce))

theorem State.classSent_keeps {pts : List Part} (hw : Within [.free] pts) {bef : State} {s : State} (h : bef.Keeps pts s) :
    bef.Keeps pts (State.classSent s).2 := by
  unfold State.classSent
  repeat' (first
    | with_reducible assumption | ((with_reducible refine Within.sub hw ?_); decide)
    | (fail_if_no_progress extract_lets -underBinder -merge -useContext +onlyGivenNames z
       first
       | (refine keeps_cut (s := z) ?_ ?_; (on_goal 1 => unfold z); on_goal 2 => (intro _; try clear_value z))
       | try clear_value z)
    | with_reducible apply State.takeFree_keeps | with_reducible apply keeps_ite | with_reducible apply keeps_ite_snd
    | split
    | ((with_reducible refine State.keeps_mk hw (by assumption) rfl ?_)
       intro p; cases p <;> (first | exact .inl (by decide) | exact .inr rfl))
    | (intro _; intros; try beta_reduce))

theorem State.announceAll_keeps {pts : List Part} (hw : Within [.out, .free] pts) {bef : State} {s : State} (h : bef.Keeps
    pts s) : bef.Keeps pts (State.announceAll s) := by
  unfold State.announceAll
  repeat' (first
    | with_reducible assumption | ((with_reducible refine Within.sub hw ?_); decide)
    | (fail_if_no_progress extract_lets -underBinder -merge -useContext +onlyGivenNames z
       first
       | (refine keeps_cut (s := z) ?_ ?_; (on_goal 1 => unfold z); on_goal 2 => (intro _; try clear_value z))
       | (refine keeps_cut (s := z.2) ?_ ?_; (on_goal 1 => unfold z); on_goal 2 => (intro _; try clear_value z))
       | (refine keeps_cut (s := z.1) ?_ ?_; (on_goal 1 => unfold z); on_goal 2 => (intro _; try clear_value z))
       | (refine keeps_cut (s := z.2.1) ?_ ?_; (on_goal 1 => unfold z); on_goal 2 => (intro _; try clear_value z))
       | try clear_value z)
    | with_reducible apply State.classSent_keeps | with_reducible apply State.emit_keeps
    | with_reducible apply keeps_forRange | with_reducible apply keeps_forRange_fst
    | with_reducible apply keeps_forRange_snd | with_reducible apply keeps_ite | with_reducible apply keeps_ite_snd | split
    | (intro _; intros; try beta_reduce))

theorem execSyncAndAnnounceSend_keeps (dt : Nat) (s : State) :
    ∃ t, execSyncAndAnnounceSend dt s = .next t ∧ (s.elapse dt).Keeps [.out, .free] t := by
  unfold execSyncAndAnnounceSend
  refine ⟨_, rfl, ?_⟩
  have hw : Within [.out, .free] [.out, .free] := fun _ h => h
  have h := State.Keeps.refl [.out, .free] (s.elapse dt)
  generalize s.elapse dt = bef at h ⊢
  repeat' (first
    | with_reducible assumption | ((with_reducible refine Within.sub hw ?_); decide)
    | with_reducible apply State.announceAll_keeps | with_reducible apply keeps_ite | with_reducible apply keeps_ite_snd
    | split | (intro _; intros; try beta_reduce))

end Sys2Proof.Machine
end

