-- ==== Sys2Proof/Laws/KeepsServer.lean ====
section
/-! SUPPORT. What the operations of Machine/Server.lean keep. -/

namespace Sys2Proof.Machine

theorem State.runCommandAct_keeps {pts : List Part} (hw : Within (Part.allBut [.free]) pts) {bef : State} (v : Nat) {s :
    State} (h : bef.Keeps pts s) : bef.Keeps pts (State.runCommandAct v s).2 := by
  unfold State.runCommandAct
  repeat' (first
    | with_reducible assumption | ((with_reducible refine Within.sub hw ?_); decide)
    | with_reducible apply State.clearAct_keeps | with_reducible apply State.safeAct_keeps
    | with_reducible apply State.stopAct_keeps | with_reducible apply State.startAct_keeps
    | with_reducible apply State.coldResetAct_keeps | with_reducible apply State.shutdownAct_keeps
    | with_reducible apply keeps_ite | with_reducible apply keeps_ite_snd | split | (intro _; intros; try beta_reduce))

theorem State.pinAct_keeps {pts : List Part} (hw : Within [.pins] pts) {bef : State} (data : List Byte) {s : State} (h :
    bef.Keeps pts s) : bef.Keeps pts (State.pinAct data s).2 := by
  unfold State.pinAct
  repeat' (first
    | with_reducible assumption | ((with_reducible refine Within.sub hw ?_); decide)
    | (fail_if_no_progress extract_lets -underBinder -merge -useContext +onlyGivenNames z
       first
       | (refine keeps_cut (s := z) ?_ ?_; (on_goal 1 => unfold z); on_goal 2 => (intro _; try clear_value z))
       | try clear_value z)
    | with_reducible apply refuse_keeps | with_reducible apply accept_keeps | with_reducible apply keeps_ite
    | with_reducible apply keeps_ite_snd | split
    | ((with_reducible refine State.keeps_mk hw (by assumption) rfl ?_)
       intro p; cases p <;> (first | exact .inl (by decide) | exact .inr rfl))
    | (intro _; intros; try beta_reduce))

theorem execPinTableWrite_keeps (dt : Nat) (road : Road) (data : List Byte) (s : State) :
    ∃ t, execPinTableWrite dt road data s = .next t ∧ (s.elapse dt).Keeps [.out, .od, .pins, .hosts, .events] t := by
  unfold execPinTableWrite
  refine ⟨_, rfl, ?_⟩
  have hw : Within [.out, .od, .pins, .hosts, .events] [.out, .od, .pins, .hosts, .events] := fun _ h => h
  have h := State.Keeps.refl [.out, .od, .pins, .hosts, .events] (s.elapse dt)
  generalize s.elapse dt = bef at h ⊢
  repeat' (first
    | with_reducible assumption | ((with_reducible refine Within.sub hw ?_); decide)
    | with_reducible apply State.pinAct_keeps | with_reducible apply State.writeRow_keeps | with_reducible apply keeps_ite
    | with_reducible apply keeps_ite_snd | split | (intro _; intros; try beta_reduce))

theorem State.resyncAct_keeps {pts : List Part} (hw : Within [.summaries] pts) {bef : State} (m : Nat) (token : Nat) {s :
    State} (h : bef.Keeps pts s) : bef.Keeps pts (State.resyncAct m token s).2 := by
  unfold State.resyncAct
  repeat' (first
    | with_reducible assumption | ((with_reducible refine Within.sub hw ?_); decide)
    | (fail_if_no_progress extract_lets -underBinder -merge -useContext +onlyGivenNames z
       first
       | (refine keeps_cut (s := z) ?_ ?_; (on_goal 1 => unfold z); on_goal 2 => (intro _; try clear_value z))
       | try clear_value z)
    | with_reducible apply refuse_keeps | with_reducible apply accept_keeps | with_reducible apply keeps_ite
    | with_reducible apply keeps_ite_snd | split
    | ((with_reducible refine State.keeps_mk hw (by assumption) rfl ?_)
       intro p; cases p <;> (first | exact .inl (by decide) | exact .inr rfl))
    | (intro _; intros; try beta_reduce))

theorem execResynchronise_keeps (dt : Nat) (road : Road) (token : BitVec 32) (s : State) :
    ∃ t, execResynchronise dt road token s = .next t ∧ (s.elapse dt).Keeps [.out, .od, .hosts, .events, .summaries] t := by
  unfold execResynchronise
  refine ⟨_, rfl, ?_⟩
  have hw : Within [.out, .od, .hosts, .events, .summaries] [.out, .od, .hosts, .events, .summaries] := fun _ h => h
  have h := State.Keeps.refl [.out, .od, .hosts, .events, .summaries] (s.elapse dt)
  generalize s.elapse dt = bef at h ⊢
  repeat' (first
    | with_reducible assumption | ((with_reducible refine Within.sub hw ?_); decide)
    | with_reducible apply State.resyncAct_keeps | with_reducible apply State.writeRow_keeps
    | with_reducible apply keeps_ite | with_reducible apply keeps_ite_snd | split | (intro _; intros; try beta_reduce))

theorem State.snapshotSummary_keeps {pts : List Part} (hw : Within [.summaries] pts) {bef : State} {s : State} (k : Nat) (h :
    bef.Keeps pts s) : bef.Keeps pts (State.snapshotSummary s k) := by
  unfold State.snapshotSummary
  repeat' (first
    | with_reducible assumption | ((with_reducible refine Within.sub hw ?_); decide)
    | (fail_if_no_progress extract_lets -underBinder -merge -useContext +onlyGivenNames z
       first
       | (refine keeps_cut (s := z) ?_ ?_; (on_goal 1 => unfold z); on_goal 2 => (intro _; try clear_value z))
       | try clear_value z)
    | with_reducible apply keeps_ite | with_reducible apply keeps_ite_snd | split
    | ((with_reducible refine State.keeps_mk hw (by assumption) rfl ?_)
       intro p; cases p <;> (first | exact .inl (by decide) | exact .inr rfl))
    | (intro _; intros; try beta_reduce))

theorem execSummarySnapshot_keeps (dt : Nat) (master : Fin 3) (s : State) :
    ∃ t, execSummarySnapshot dt master s = .next t ∧ (s.elapse dt).Keeps [.summaries] t := by
  unfold execSummarySnapshot
  refine ⟨_, rfl, ?_⟩
  have hw : Within [.summaries] [.summaries] := fun _ h => h
  have h := State.Keeps.refl [.summaries] (s.elapse dt)
  generalize s.elapse dt = bef at h ⊢
  repeat' (first
    | with_reducible assumption | ((with_reducible refine Within.sub hw ?_); decide)
    | with_reducible apply State.snapshotSummary_keeps | with_reducible apply keeps_ite | with_reducible apply keeps_ite_snd
    | split | (intro _; intros; try beta_reduce))

theorem State.readySummary_keeps {pts : List Part} (hw : Within [.summaries] pts) {bef : State} {s : State} (k : Nat) (h :
    bef.Keeps pts s) : bef.Keeps pts (State.readySummary s k) := by
  unfold State.readySummary
  repeat' (first
    | with_reducible assumption | ((with_reducible refine Within.sub hw ?_); decide)
    | (fail_if_no_progress extract_lets -underBinder -merge -useContext +onlyGivenNames z
       first
       | (refine keeps_cut (s := z) ?_ ?_; (on_goal 1 => unfold z); on_goal 2 => (intro _; try clear_value z))
       | try clear_value z)
    | with_reducible apply keeps_ite | with_reducible apply keeps_ite_snd | split
    | ((with_reducible refine State.keeps_mk hw (by assumption) rfl ?_)
       intro p; cases p <;> (first | exact .inl (by decide) | exact .inr rfl))
    | (intro _; intros; try beta_reduce))

theorem execSummaryReady_keeps (dt : Nat) (master : Fin 3) (s : State) :
    ∃ t, execSummaryReady dt master s = .next t ∧ (s.elapse dt).Keeps [.summaries] t := by
  unfold execSummaryReady
  refine ⟨_, rfl, ?_⟩
  have hw : Within [.summaries] [.summaries] := fun _ h => h
  have h := State.Keeps.refl [.summaries] (s.elapse dt)
  generalize s.elapse dt = bef at h ⊢
  repeat' (first
    | with_reducible assumption | ((with_reducible refine Within.sub hw ?_); decide)
    | with_reducible apply State.readySummary_keeps | with_reducible apply keeps_ite | with_reducible apply keeps_ite_snd
    | split | (intro _; intros; try beta_reduce))

theorem State.policyAct_keeps {pts : List Part} (hw : Within [.od, .jobs] pts) {bef : State} (v : Nat) {s : State} (h :
    bef.Keeps pts s) : bef.Keeps pts (State.policyAct v s).2 := by
  unfold State.policyAct
  repeat' (first
    | with_reducible assumption | ((with_reducible refine Within.sub hw ?_); decide)
    | (fail_if_no_progress extract_lets -underBinder -merge -useContext +onlyGivenNames z
       first
       | (refine keeps_cut (s := z) ?_ ?_; (on_goal 1 => unfold z); on_goal 2 => (intro _; try clear_value z))
       | try clear_value z)
    | with_reducible apply accept_keeps | with_reducible apply State.setVal_keeps | with_reducible apply State.modJob_keeps
    | with_reducible apply keeps_forRange | with_reducible apply keeps_ite | with_reducible apply keeps_ite_snd | split
    | ((with_reducible refine State.keeps_mk hw (by assumption) rfl ?_)
       intro p; cases p <;> (first | exact .inl (by decide) | exact .inr rfl))
    | (intro _; intros; try beta_reduce))

theorem State.plainAct_keeps {pts : List Part} (hw : Within [.od] pts) {bef : State} (index : Nat) (sub : Nat) (v : Nat) {s :
    State} (h : bef.Keeps pts s) : bef.Keeps pts (State.plainAct index sub v s).2 := by
  unfold State.plainAct
  repeat' (first
    | with_reducible assumption | ((with_reducible refine Within.sub hw ?_); decide) | with_reducible apply store_keeps
    | with_reducible apply refuse_keeps | with_reducible apply keeps_ite | with_reducible apply keeps_ite_snd | split
    | (intro _; intros; try beta_reduce))

theorem State.controlAct_keeps {pts : List Part} (hw : Within (Part.allBut []) pts) {bef : State} (m : Nat) (coe : Bool)
    (index : Nat) (sub : Nat) (data : List Byte) {s : State} (h : bef.Keeps pts s) : bef.Keeps pts (State.controlAct m coe
    index sub data s).2 := by
  unfold State.controlAct
  repeat' (first
    | with_reducible assumption | ((with_reducible refine Within.sub hw ?_); decide)
    | (fail_if_no_progress extract_lets -underBinder -merge -useContext +onlyGivenNames z
       first
       | (refine keeps_cut (s := z) ?_ ?_; (on_goal 1 => unfold z); on_goal 2 => (intro _; try clear_value z))
       | try clear_value z)
    | with_reducible apply State.plainAct_keeps | with_reducible apply State.resyncAct_keeps
    | with_reducible apply State.pinAct_keeps | with_reducible apply State.runCommandAct_keeps
    | with_reducible apply State.dcEpochAct_keeps | with_reducible apply State.sourceEnableAct_keeps
    | with_reducible apply State.timeOfDayAct_keeps | with_reducible apply State.epochCommandAct_keeps
    | with_reducible apply State.twinConfigAct_keeps | with_reducible apply State.twinCommandAct_keeps
    | with_reducible apply State.partnerStatusAct_keeps | with_reducible apply State.writeStreamUser_keeps
    | with_reducible apply accept_keeps | with_reducible apply keeps_ite | with_reducible apply keeps_ite_snd | split
    | ((with_reducible refine State.keeps_mk hw (by assumption) rfl ?_)
       intro p; cases p <;> (first | exact .inl (by decide) | exact .inr rfl))
    | (intro _; intros; try beta_reduce))

theorem State.networkAct_keeps {pts : List Part} (hw : Within [.od, .units, .epoch, .ports, .fabric, .hosts, .loops, .convs,
    .events] pts) {bef : State} (index : Nat) (sub : Nat) (data : List Byte) {s : State} (h : bef.Keeps pts s) : bef.Keeps
    pts (State.networkAct index sub data s).2 := by
  unfold State.networkAct
  repeat' (first
    | with_reducible assumption | ((with_reducible refine Within.sub hw ?_); decide)
    | (fail_if_no_progress extract_lets -underBinder -merge -useContext +onlyGivenNames z
       first
       | (refine keeps_cut (s := z) ?_ ?_; (on_goal 1 => unfold z); on_goal 2 => (intro _; try clear_value z))
       | try clear_value z)
    | with_reducible apply State.plainAct_keeps | with_reducible apply State.apertureAct_keeps
    | with_reducible apply State.ecmpGroupsAct_keeps | with_reducible apply State.routeTableAct_keeps
    | with_reducible apply State.portCommandAct_keeps | with_reducible apply keeps_ite | with_reducible apply keeps_ite_snd
    | split | (intro _; intros; try beta_reduce))

theorem State.securityAct_keeps {pts : List Part} (hw : Within [.od, .units, .cores, .engines, .jobs, .hosts, .security,
    .events] pts) {bef : State} (index : Nat) (sub : Nat) (data : List Byte) {s : State} (h : bef.Keeps pts s) : bef.Keeps
    pts (State.securityAct index sub data s).2 := by
  unfold State.securityAct
  repeat' (first
    | with_reducible assumption | ((with_reducible refine Within.sub hw ?_); decide)
    | (fail_if_no_progress extract_lets -underBinder -merge -useContext +onlyGivenNames z
       first
       | (refine keeps_cut (s := z) ?_ ?_; (on_goal 1 => unfold z); on_goal 2 => (intro _; try clear_value z))
       | try clear_value z)
    | with_reducible apply State.plainAct_keeps | with_reducible apply State.lockAct_keeps
    | with_reducible apply State.peerPut_keeps | with_reducible apply State.grantPut_keeps
    | with_reducible apply State.nonceAct_keeps | with_reducible apply State.microcodeAct_keeps
    | with_reducible apply State.commitAct_keeps | with_reducible apply State.trialConfirmAct_keeps
    | with_reducible apply keeps_ite | with_reducible apply keeps_ite_snd | split | (intro _; intros; try beta_reduce))

theorem State.analogAct_keeps {pts : List Part} (hw : Within [.od, .epoch, .loops, .convs] pts) {bef : State} (index : Nat)
    (sub : Nat) (data : List Byte) {s : State} (h : bef.Keeps pts s) : bef.Keeps pts (State.analogAct index sub data s).2 := by
  unfold State.analogAct
  repeat' (first
    | with_reducible assumption | ((with_reducible refine Within.sub hw ?_); decide)
    | (fail_if_no_progress extract_lets -underBinder -merge -useContext +onlyGivenNames z
       first
       | (refine keeps_cut (s := z) ?_ ?_; (on_goal 1 => unfold z); on_goal 2 => (intro _; try clear_value z))
       | try clear_value z)
    | with_reducible apply State.stageAct_keeps | with_reducible apply State.injectionAct_keeps
    | with_reducible apply State.loopValueAct_keeps | with_reducible apply State.coefficientAct_keeps
    | with_reducible apply State.loopConfigAct_keeps | with_reducible apply State.loopCommandAct_keeps
    | with_reducible apply State.wheelSelectAct_keeps | with_reducible apply State.wheelAct_keeps
    | with_reducible apply State.generatorAct_keeps | with_reducible apply State.channelConfigAct_keeps
    | with_reducible apply State.queueWriteAct_keeps | with_reducible apply State.groupStrobeAct_keeps
    | with_reducible apply State.channelWriteAct_keeps | with_reducible apply State.armCommandAct_keeps
    | with_reducible apply keeps_ite | with_reducible apply keeps_ite_snd | split | (intro _; intros; try beta_reduce))

theorem State.act_keeps {pts : List Part} (hw : Within (Part.allBut []) pts) {bef : State} (m : Nat) (coe : Bool) (index :
    Nat) (sub : Nat) (data : List Byte) {s : State} (h : bef.Keeps pts s) : bef.Keeps pts (State.act m coe index sub data
    s).2 := by
  unfold State.act
  repeat' (first
    | with_reducible assumption | ((with_reducible refine Within.sub hw ?_); decide)
    | (fail_if_no_progress extract_lets -underBinder -merge -useContext +onlyGivenNames z
       first
       | (refine keeps_cut (s := z) ?_ ?_; (on_goal 1 => unfold z); on_goal 2 => (intro _; try clear_value z))
       | try clear_value z)
    | with_reducible apply State.analogAct_keeps | with_reducible apply State.securityAct_keeps
    | with_reducible apply State.networkAct_keeps | with_reducible apply State.controlAct_keeps
    | with_reducible apply State.plainAct_keeps | with_reducible apply State.policyAct_keeps
    | with_reducible apply State.acknowledgeAct_keeps | with_reducible apply State.repairCommandAct_keeps
    | with_reducible apply State.reinstateAct_keeps | with_reducible apply State.powerCapAct_keeps
    | with_reducible apply keeps_ite | with_reducible apply keeps_ite_snd | split | (intro _; intros; try beta_reduce))

theorem State.ruleRefuses_keeps {pts : List Part} (hw : Within [.od, .hosts, .events] pts) {bef : State} {s : State} (t :
    State) (m : Nat) (index : Nat) (sub : Nat) {r : Nat × State}
    (hr : State.ruleRefuses s t m index sub = some r) (h : bef.Keeps pts s) : bef.Keeps pts r.2 := by
  unfold State.ruleRefuses at hr
  simp only at hr
  split at hr
  · injection hr with hr
    subst hr
    exact keeps_ite (State.deny_keeps (hw.sub (by decide)) _ _ _ h) h
  · split at hr
    · cases hr
    · injection hr with hr
      subst hr
      exact h

theorem State.writeAct_keeps {pts : List Part} (hw : Within (Part.allBut []) pts) {bef : State} (m : Nat) (coe : Bool) (index
    : Nat) (sub : Nat) (data : List Byte) {s : State}
    (h : bef.Keeps pts s) : bef.Keeps pts (State.writeAct m coe index sub data s).2 := by
  simp only [State.writeAct]
  split
  · exact State.act_keeps (hw.sub (by decide)) _ _ _ _ _ h
  · cases hr : s.ruleRefuses (s.act m coe index sub data).2 m index sub with
    | none => exact State.act_keeps (hw.sub (by decide)) _ _ _ _ _ h
    | some r => exact State.ruleRefuses_keeps (hw.sub (by decide)) _ _ _ _ hr h

theorem State.completePut_keeps {pts : List Part} (hw : Within (Part.allBut []) pts) {bef s0 : State} (v : Via) (index : Nat)
    (acc : Option (Nat × State) × State)
    (x : Nat × List Byte) (h : bef.Keeps pts s0) (ha : (∀ f, acc.1 = some f → bef.Keeps pts f.2) ∧ bef.Keeps pts acc.2) :
    (∀ f, (State.completePut s0 v index acc x).1 = some f → bef.Keeps pts f.2) ∧
      bef.Keeps pts (State.completePut s0 v index acc x).2 := by
  unfold State.completePut
  split
  · exact ha
  · split
    · split
      · exact ha
      · exact ⟨by rintro f ⟨⟩; exact h, ha.2⟩
    · simp only
      split
      · exact ⟨by rintro f ⟨⟩; exact State.writeGate_keeps (hw.sub (by decide)) _ _ _ _ h, ha.2⟩
      · split
        · exact ⟨by rintro f ⟨⟩, State.act_keeps (hw.sub (by decide)) _ _ _ _ _ ha.2⟩
        · exact ⟨by rintro f ⟨⟩; exact keeps_ite h (State.act_keeps (hw.sub (by decide)) _ _ _ _ _ h), ha.2⟩

theorem State.completeWrite_keeps {pts : List Part} (hw : Within (Part.allBut []) pts) {bef : State} (v : Via) (index : Nat)
    (start : Nat) (data : List Byte) {s : State}
    (h : bef.Keeps pts s) : bef.Keeps pts (State.completeWrite v index start data s).2 := by
  unfold State.completeWrite
  split
  · exact h
  · split
    · exact h
    · split
      · exact h
      · exact h
      · rename_i l _ _
        have hf : ∀ (l : List (Nat × List Byte)) (acc : Option (Nat × State) × State),
            ((∀ f, acc.1 = some f → bef.Keeps pts f.2) ∧ bef.Keeps pts acc.2) →
            (∀ f, (l.foldl (s.completePut v index) acc).1 = some f → bef.Keeps pts f.2) ∧
              bef.Keeps pts (l.foldl (s.completePut v index) acc).2 := by
          intro l
          induction l with
          | nil => exact fun acc ha => ha
          | cons x l ih => exact fun acc ha => ih _ (State.completePut_keeps (hw.sub (by decide)) v index acc x h ha)
        have hr := hf l (none, s) ⟨by rintro f ⟨⟩, h⟩
        simp only
        split
        · rename_i f hx
          exact hr.1 f hx
        · cases hx : (l.filterMap (fun x => s.ruleRefuses (l.foldl (s.completePut v index) (none, s)).2 v.master index
            x.1)).head? with
          | none => exact hr.2
          | some r =>
            obtain ⟨x, _, hx⟩ := List.mem_filterMap.1 (List.mem_of_head? hx)
            exact State.ruleRefuses_keeps (hw.sub (by decide)) _ _ _ _ hx h

theorem State.clearRead_keeps {pts : List Part} (hw : Within [.od] pts) {bef : State} {s : State} (m : Nat) (index : Nat)
    (sub : Nat) (h : bef.Keeps pts s) : bef.Keeps pts (State.clearRead s m index sub) := by
  unfold State.clearRead
  repeat' (first
    | with_reducible assumption | ((with_reducible refine Within.sub hw ?_); decide)
    | with_reducible apply State.advanceCursor_keeps | with_reducible apply State.setVal_keeps
    | with_reducible apply keeps_ite | with_reducible apply keeps_ite_snd | split | (intro _; intros; try beta_reduce))

theorem State.readEntry_keeps {pts : List Part} (hw : Within [.od, .hosts, .events] pts) {bef : State} (v : Via) (index :
    Nat) (sub : Nat) {s : State} (h : bef.Keeps pts s) : bef.Keeps pts (State.readEntry v index sub s).2.1 := by
  unfold State.readEntry
  repeat' (first
    | with_reducible assumption | ((with_reducible refine Within.sub hw ?_); decide)
    | (fail_if_no_progress extract_lets -underBinder -merge -useContext +onlyGivenNames z
       first
       | (refine keeps_cut (s := z) ?_ ?_; (on_goal 1 => unfold z); on_goal 2 => (intro _; try clear_value z))
       | (refine keeps_cut (s := z.2) ?_ ?_; (on_goal 1 => unfold z); on_goal 2 => (intro _; try clear_value z))
       | (refine keeps_cut (s := z.1) ?_ ?_; (on_goal 1 => unfold z); on_goal 2 => (intro _; try clear_value z))
       | (refine keeps_cut (s := z.2.1) ?_ ?_; (on_goal 1 => unfold z); on_goal 2 => (intro _; try clear_value z))
       | try clear_value z)
    | with_reducible apply State.clearRead_keeps | with_reducible apply State.readGate_keeps
    | with_reducible apply keeps_ite | with_reducible apply keeps_ite_snd | split | (intro _; intros; try beta_reduce))

theorem State.completeGet_keeps {pts : List Part} (hw : Within [.od, .hosts, .events] pts) {bef s0 : State} (v : Via) (index
    : Nat) (acc : Option (Nat × State) × List Byte) (k : Nat)
    (h : bef.Keeps pts s0) (ha : ∀ f, acc.1 = some f → bef.Keeps pts f.2) :
    ∀ f, (State.completeGet s0 v index acc k).1 = some f → bef.Keeps pts f.2 := by
  unfold State.completeGet
  split
  · exact ha
  · simp only
    split
    · rintro f ⟨⟩
    · split
      · rintro f ⟨⟩
        exact State.readGate_keeps (hw.sub (by decide)) _ _ _ h
      · rintro f ⟨⟩

theorem State.completeRead_keeps {pts : List Part} (hw : Within [.od, .hosts, .events] pts) {bef : State} (v : Via) (index :
    Nat) (start : Nat) {s : State} (h : bef.Keeps pts s) :
    bef.Keeps pts (State.completeRead v index start s).2.1 := by
  unfold State.completeRead
  split
  · exact h
  · split
    · exact h
    · have hf : ∀ (l : List Nat) (acc : Option (Nat × State) × List Byte), (∀ f, acc.1 = some f → bef.Keeps pts f.2) →
          ∀ f, (l.foldl (s.completeGet v index) acc).1 = some f → bef.Keeps pts f.2 := by
        intro l
        induction l with
        | nil => exact fun acc ha => ha
        | cons x l ih => exact fun acc ha => ih _ (State.completeGet_keeps (hw.sub (by decide)) v index acc x h ha)
      simp only
      split
      · rename_i f _ hx
        exact hf _ (none, []) (by rintro f ⟨⟩) f (by rw [hx])
      · exact keeps_foldl h (fun s k h => State.clearRead_keeps (hw.sub (by decide)) _ _ _ h)

end Sys2Proof.Machine
end

