-- ==== Sys2Proof/Laws/KeepsSkim.lean ====
section
/-! SUPPORT. What the operations of Machine/Skim.lean keep. -/

namespace Sys2Proof.Machine

theorem State.putList_keeps {pts : List Part} (hw : Within [.od, .mem, .hosts, .events] pts) {bef : State} {s : State} (c :
    Nat) (o : Op) (l : Nat) (cs : List Candidate) (h : bef.Keeps pts s) : bef.Keeps pts (State.putList s c o l cs).2 := by
  unfold State.putList
  repeat' (first
    | with_reducible assumption | ((with_reducible refine Within.sub hw ?_); decide)
    | (fail_if_no_progress extract_lets -underBinder -merge -useContext +onlyGivenNames z
       first
       | (refine keeps_cut (s := z) ?_ ?_; (on_goal 1 => unfold z); on_goal 2 => (intro _; try clear_value z))
       | try clear_value z)
    | with_reducible apply State.writeAll_keeps | with_reducible apply keeps_ite | with_reducible apply keeps_ite_snd
    | split | (intro _; intros; try beta_reduce))

theorem State.skimEnd_keeps {pts : List Part} (hw : Within [.od, .cores] pts) {bef : State} {s : State} (c : Nat) (n : Nat)
    (status : Nat) (h : bef.Keeps pts s) : bef.Keeps pts (State.skimEnd s c n status) := by
  unfold State.skimEnd
  repeat' (first
    | with_reducible assumption | ((with_reducible refine Within.sub hw ?_); decide)
    | (fail_if_no_progress extract_lets -underBinder -merge -useContext +onlyGivenNames z
       first
       | (refine keeps_cut (s := z) ?_ ?_; (on_goal 1 => unfold z); on_goal 2 => (intro _; try clear_value z))
       | try clear_value z)
    | with_reducible apply State.finish_keeps | with_reducible apply State.bump_keeps
    | with_reducible apply State.modCore_keeps | with_reducible apply keeps_ite | with_reducible apply keeps_ite_snd | split
    | ((with_reducible refine State.keeps_mk hw (by assumption) rfl ?_)
       intro p; cases p <;> (first | exact .inl (by decide) | exact .inr rfl))
    | (intro _; intros; try beta_reduce))

theorem State.skimRow_keeps {pts : List Part} (hw : Within [.od, .mem, .cores, .engines, .hosts, .events] pts) {bef : State}
    {s : State} (c : Nat) (n : Nat) (o : Op) (h : bef.Keeps pts s) : bef.Keeps pts (State.skimRow s c n o) := by
  unfold State.skimRow
  repeat' (first
    | with_reducible assumption | ((with_reducible refine Within.sub hw ?_); decide)
    | (fail_if_no_progress extract_lets -underBinder -merge -useContext +onlyGivenNames z
       first
       | (refine keeps_cut (s := z) ?_ ?_; (on_goal 1 => unfold z); on_goal 2 => (intro _; try clear_value z))
       | (refine keeps_cut (s := z.2) ?_ ?_; (on_goal 1 => unfold z); on_goal 2 => (intro _; try clear_value z))
       | (refine keeps_cut (s := z.1) ?_ ?_; (on_goal 1 => unfold z); on_goal 2 => (intro _; try clear_value z))
       | (refine keeps_cut (s := z.2.1) ?_ ?_; (on_goal 1 => unfold z); on_goal 2 => (intro _; try clear_value z))
       | try clear_value z)
    | with_reducible apply State.skimEnd_keeps | with_reducible apply State.putList_keeps
    | with_reducible apply State.unlockAll_keeps | with_reducible apply State.unlockRows_keeps
    | with_reducible apply State.bump_keeps | with_reducible apply State.modCore_keeps | with_reducible apply keeps_ite
    | with_reducible apply keeps_ite_snd | split
    | ((with_reducible refine State.keeps_mk hw (by assumption) rfl ?_)
       intro p; cases p <;> (first | exact .inl (by decide) | exact .inr rfl))
    | (intro _; intros; try beta_reduce))

theorem State.skimVatHead_keeps {pts : List Part} (hw : Within [.od, .mem, .cores, .engines, .hosts, .events] pts) {bef :
    State} {s : State} (c : Nat) (h : bef.Keeps pts s) : bef.Keeps pts (State.skimVatHead s c) := by
  unfold State.skimVatHead
  repeat' (first
    | with_reducible assumption | ((with_reducible refine Within.sub hw ?_); decide)
    | (fail_if_no_progress extract_lets -underBinder -merge -useContext +onlyGivenNames z
       first
       | (refine keeps_cut (s := z) ?_ ?_; (on_goal 1 => unfold z); on_goal 2 => (intro _; try clear_value z))
       | try clear_value z)
    | with_reducible apply State.skimRow_keeps | with_reducible apply State.skimEnd_keeps
    | with_reducible apply State.unlockAll_keeps | with_reducible apply State.lockRows_keeps
    | with_reducible apply State.modCore_keeps | with_reducible apply keeps_forRange | with_reducible apply keeps_ite
    | with_reducible apply keeps_ite_snd | split
    | ((with_reducible refine State.keeps_mk hw (by assumption) rfl ?_)
       intro p; cases p <;> (first | exact .inl (by decide) | exact .inr rfl))
    | (intro _; intros; try beta_reduce))

theorem execSkimVat_keeps (dt : Nat) (core : Fin 16) (s : State) :
    ∃ t, execSkimVat dt core s = .next t ∧ (s.elapse dt).Keeps [.od, .mem, .cores, .engines, .hosts, .events] t := by
  unfold execSkimVat
  refine ⟨_, rfl, ?_⟩
  have hw : Within [.od, .mem, .cores, .engines, .hosts, .events] [.od, .mem, .cores, .engines, .hosts, .events] := fun _ h => h
  have h := State.Keeps.refl [.od, .mem, .cores, .engines, .hosts, .events] (s.elapse dt)
  generalize s.elapse dt = bef at h ⊢
  repeat' (first
    | with_reducible assumption | ((with_reducible refine Within.sub hw ?_); decide)
    | with_reducible apply State.skimVatHead_keeps | with_reducible apply keeps_ite | with_reducible apply keeps_ite_snd
    | split | (intro _; intros; try beta_reduce))

theorem State.storeCandidates_keeps {pts : List Part} (hw : Within [.od, .hosts, .events] pts) {bef : State} {s : State} (c :
    Nat) (o : Op) (v : Nat) (h : bef.Keeps pts s) : bef.Keeps pts (State.storeCandidates s c o v).2.1 := by
  unfold State.storeCandidates
  repeat' (first
    | with_reducible assumption | ((with_reducible refine Within.sub hw ?_); decide)
    | (fail_if_no_progress extract_lets -underBinder -merge -useContext +onlyGivenNames z
       first
       | (refine keeps_cut (s := z) ?_ ?_; (on_goal 1 => unfold z); on_goal 2 => (intro _; try clear_value z))
       | (refine keeps_cut (s := z.2) ?_ ?_; (on_goal 1 => unfold z); on_goal 2 => (intro _; try clear_value z))
       | (refine keeps_cut (s := z.1) ?_ ?_; (on_goal 1 => unfold z); on_goal 2 => (intro _; try clear_value z))
       | (refine keeps_cut (s := z.2.1) ?_ ?_; (on_goal 1 => unfold z); on_goal 2 => (intro _; try clear_value z))
       | try clear_value z)
    | with_reducible apply State.accessAll_keeps | with_reducible apply State.bump_keeps | with_reducible apply keeps_ite
    | with_reducible apply keeps_ite_snd | split | (intro _; intros; try beta_reduce))

theorem State.mergeCandidates_keeps {pts : List Part} (hw : Within [.od, .hosts, .events] pts) {bef : State} {s : State} (c :
    Nat) (o : Op) (g : Nat) (h : bef.Keeps pts s) : bef.Keeps pts (State.mergeCandidates s c o g).2.1 := by
  unfold State.mergeCandidates
  repeat' (first
    | with_reducible assumption | ((with_reducible refine Within.sub hw ?_); decide)
    | (fail_if_no_progress extract_lets -underBinder -merge -useContext +onlyGivenNames z
       first
       | (refine keeps_cut (s := z) ?_ ?_; (on_goal 1 => unfold z); on_goal 2 => (intro _; try clear_value z))
       | (refine keeps_cut (s := z.2) ?_ ?_; (on_goal 1 => unfold z); on_goal 2 => (intro _; try clear_value z))
       | (refine keeps_cut (s := z.1) ?_ ?_; (on_goal 1 => unfold z); on_goal 2 => (intro _; try clear_value z))
       | (refine keeps_cut (s := z.2.1) ?_ ?_; (on_goal 1 => unfold z); on_goal 2 => (intro _; try clear_value z))
       | try clear_value z)
    | with_reducible apply State.accessAll_keeps | with_reducible apply keeps_ite | with_reducible apply keeps_ite_snd
    | split | (intro _; intros; try beta_reduce))

theorem State.skimList_keeps {pts : List Part} (hw : Within [.od, .mem, .hosts, .events] pts) {bef : State} (c : Nat) (o :
    Op) (f : State → Nat → Nat × State × List Candidate)
    (acc : Nat × State) (l : Nat) (hf : ∀ s l, bef.Keeps pts s → bef.Keeps pts (f s l).2.1) (h : bef.Keeps pts acc.2) :
    bef.Keeps pts (State.skimList c o f acc l).2 := by
  unfold State.skimList
  split
  · exact h
  · simp only
    split
    · exact hf _ _ h
    · exact State.putList_keeps (hw.sub (by decide)) _ _ _ _ (State.bump_keeps (hw.sub (by decide)) _ _ _ (hf _ _ h))

theorem State.skimMemory_keeps {pts : List Part} (hw : Within [.od, .mem, .cores, .hosts, .events] pts) {bef : State} {s :
    State} (c : Nat) (src : Nat) (f : Op → State → Nat → Nat × State × List Candidate) (h : bef.Keeps pts s) (hf : ∀ y0 y1
    y2, bef.Keeps pts y1 → bef.Keeps pts (f y0 y1 y2).2.1) : bef.Keeps pts (State.skimMemory s c src f) := by
  unfold State.skimMemory
  repeat' (first
    | with_reducible assumption | with_reducible apply hf | ((with_reducible refine Within.sub hw ?_); decide)
    | (fail_if_no_progress extract_lets -underBinder -merge -useContext +onlyGivenNames z
       first
       | (refine keeps_cut (s := z) ?_ ?_; (on_goal 1 => unfold z); on_goal 2 => (intro _; try clear_value z))
       | (refine keeps_cut (s := z.2) ?_ ?_; (on_goal 1 => unfold z); on_goal 2 => (intro _; try clear_value z))
       | (refine keeps_cut (s := z.1) ?_ ?_; (on_goal 1 => unfold z); on_goal 2 => (intro _; try clear_value z))
       | (refine keeps_cut (s := z.2.1) ?_ ?_; (on_goal 1 => unfold z); on_goal 2 => (intro _; try clear_value z))
       | try clear_value z)
    | with_reducible apply State.skimList_keeps | with_reducible apply State.skimEnd_keeps
    | with_reducible apply keeps_foldl | with_reducible apply keeps_foldl_fst | with_reducible apply keeps_foldl_snd
    | with_reducible apply keeps_foldl_mid | with_reducible apply keeps_ite | with_reducible apply keeps_ite_snd | split
    | ((with_reducible refine State.keeps_mk hw (by assumption) rfl ?_)
       intro p; cases p <;> (first | exact .inl (by decide) | exact .inr rfl))
    | (intro _; intros; try beta_reduce))

theorem execSkimStore_keeps (dt : Nat) (core : Fin 16) (s : State) :
    ∃ t, execSkimStore dt core s = .next t ∧ (s.elapse dt).Keeps [.od, .mem, .cores, .hosts, .events] t := by
  unfold execSkimStore
  refine ⟨_, rfl, ?_⟩
  have hw : Within [.od, .mem, .cores, .hosts, .events] [.od, .mem, .cores, .hosts, .events] := fun _ h => h
  have h := State.Keeps.refl [.od, .mem, .cores, .hosts, .events] (s.elapse dt)
  generalize s.elapse dt = bef at h ⊢
  repeat' (first
    | with_reducible assumption | ((with_reducible refine Within.sub hw ?_); decide)
    | with_reducible apply State.skimMemory_keeps | with_reducible apply State.storeCandidates_keeps
    | with_reducible apply keeps_ite | with_reducible apply keeps_ite_snd | split | (intro _; intros; try beta_reduce))

theorem execSkimLists_keeps (dt : Nat) (core : Fin 16) (s : State) :
    ∃ t, execSkimLists dt core s = .next t ∧ (s.elapse dt).Keeps [.od, .mem, .cores, .hosts, .events] t := by
  unfold execSkimLists
  refine ⟨_, rfl, ?_⟩
  have hw : Within [.od, .mem, .cores, .hosts, .events] [.od, .mem, .cores, .hosts, .events] := fun _ h => h
  have h := State.Keeps.refl [.od, .mem, .cores, .hosts, .events] (s.elapse dt)
  generalize s.elapse dt = bef at h ⊢
  repeat' (first
    | with_reducible assumption | ((with_reducible refine Within.sub hw ?_); decide)
    | with_reducible apply State.skimMemory_keeps | with_reducible apply State.mergeCandidates_keeps
    | with_reducible apply keeps_ite | with_reducible apply keeps_ite_snd | split | (intro _; intros; try beta_reduce))

end Sys2Proof.Machine
end

