-- ==== Sys2Proof/Laws/KeepsSteps.lean ====
section
/-! SUPPORT. What the operations of Machine/Steps.lean keep. -/

namespace Sys2Proof.Machine

theorem State.formStep_keeps {pts : List Part} (hw : Within [.od, .cores, .sched, .hosts, .events] pts) {bef : State} {s :
    State} (entry : Nat) (tag : Nat) (h : bef.Keeps pts s) : bef.Keeps pts (State.formStep s entry tag) := by
  unfold State.formStep
  repeat' (first
    | with_reducible assumption | ((with_reducible refine Within.sub hw ?_); decide)
    | (fail_if_no_progress extract_lets -underBinder -merge -useContext +onlyGivenNames z
       first
       | (refine keeps_cut (s := z) ?_ ?_; (on_goal 1 => unfold z); on_goal 2 => (intro _; try clear_value z))
       | (refine keeps_cut (s := z.2) ?_ ?_; (on_goal 1 => unfold z); on_goal 2 => (intro _; try clear_value z))
       | (refine keeps_cut (s := z.1) ?_ ?_; (on_goal 1 => unfold z); on_goal 2 => (intro _; try clear_value z))
       | (refine keeps_cut (s := z.2.1) ?_ ?_; (on_goal 1 => unfold z); on_goal 2 => (intro _; try clear_value z))
       | try clear_value z)
    | with_reducible apply State.launchRecord_keeps | with_reducible apply keeps_ite | with_reducible apply keeps_ite_snd
    | split
    | ((with_reducible refine State.keeps_mk hw (by assumption) rfl ?_)
       intro p; cases p <;> (first | exact .inl (by decide) | exact .inr rfl))
    | (intro _; intros; try beta_reduce))

theorem execStepForm_keeps (dt : Nat) (entry : Nat) (tag : BitVec 32) (s : State) :
    ∃ t, execStepForm dt entry tag s = .next t ∧ (s.elapse dt).Keeps [.od, .cores, .sched, .hosts, .events] t := by
  unfold execStepForm
  refine ⟨_, rfl, ?_⟩
  have hw : Within [.od, .cores, .sched, .hosts, .events] [.od, .cores, .sched, .hosts, .events] := fun _ h => h
  have h := State.Keeps.refl [.od, .cores, .sched, .hosts, .events] (s.elapse dt)
  generalize s.elapse dt = bef at h ⊢
  repeat' (first
    | with_reducible assumption | ((with_reducible refine Within.sub hw ?_); decide)
    | with_reducible apply State.formStep_keeps | with_reducible apply keeps_ite | with_reducible apply keeps_ite_snd
    | split | (intro _; intros; try beta_reduce))

theorem State.reissueStep_keeps {pts : List Part} (hw : Within [.od, .mem, .cores, .engines, .jobs, .sched, .hosts, .events]
    pts) {bef : State} {s : State} (j : Nat) (tag : Nat) (h : bef.Keeps pts s) : bef.Keeps pts (State.reissueStep s j tag) := by
  unfold State.reissueStep
  repeat' (first
    | with_reducible assumption | ((with_reducible refine Within.sub hw ?_); decide)
    | (fail_if_no_progress extract_lets -underBinder -merge -useContext +onlyGivenNames z
       first
       | (refine keeps_cut (s := z) ?_ ?_; (on_goal 1 => unfold z); on_goal 2 => (intro _; try clear_value z))
       | (refine keeps_cut (s := z.2) ?_ ?_; (on_goal 1 => unfold z); on_goal 2 => (intro _; try clear_value z))
       | (refine keeps_cut (s := z.1) ?_ ?_; (on_goal 1 => unfold z); on_goal 2 => (intro _; try clear_value z))
       | (refine keeps_cut (s := z.2.1) ?_ ?_; (on_goal 1 => unfold z); on_goal 2 => (intro _; try clear_value z))
       | try clear_value z)
    | with_reducible apply State.launchRecord_keeps | with_reducible apply State.replaceUnits_keeps
    | with_reducible apply State.modJob_keeps | with_reducible apply keeps_ite | with_reducible apply keeps_ite_snd | split
    | ((with_reducible refine State.keeps_mk hw (by assumption) rfl ?_)
       intro p; cases p <;> (first | exact .inl (by decide) | exact .inr rfl))
    | (intro _; intros; try beta_reduce))

theorem execStepReissue_keeps (dt : Nat) (job : Fin 8) (tag : BitVec 32) (s : State) :
    ∃ t, execStepReissue dt job tag s = .next t ∧ (s.elapse dt).Keeps [.od, .mem, .cores, .engines, .jobs, .sched, .hosts,
        .events] t := by
  unfold execStepReissue
  refine ⟨_, rfl, ?_⟩
  have hw : Within [.od, .mem, .cores, .engines, .jobs, .sched, .hosts, .events] [.od, .mem, .cores, .engines, .jobs, .sched,
      .hosts, .events] := fun _ h => h
  have h := State.Keeps.refl [.od, .mem, .cores, .engines, .jobs, .sched, .hosts, .events] (s.elapse dt)
  generalize s.elapse dt = bef at h ⊢
  repeat' (first
    | with_reducible assumption | ((with_reducible refine Within.sub hw ?_); decide)
    | with_reducible apply State.reissueStep_keeps | with_reducible apply keeps_ite | with_reducible apply keeps_ite_snd
    | split | (intro _; intros; try beta_reduce))

theorem State.startRecord_keeps {pts : List Part} (hw : Within [.od, .mem, .cores, .engines, .jobs, .streams, .sched] pts)
    {bef : State} {s : State} (j : Nat) (l : Launch) (h : bef.Keeps pts s) : bef.Keeps pts (State.startRecord s j l) := by
  unfold State.startRecord
  repeat' (first
    | with_reducible assumption | ((with_reducible refine Within.sub hw ?_); decide)
    | (fail_if_no_progress extract_lets -underBinder -merge -useContext +onlyGivenNames z
       first
       | (refine keeps_cut (s := z) ?_ ?_; (on_goal 1 => unfold z); on_goal 2 => (intro _; try clear_value z))
       | (refine keeps_cut (s := z.2) ?_ ?_; (on_goal 1 => unfold z); on_goal 2 => (intro _; try clear_value z))
       | (refine keeps_cut (s := z.1) ?_ ?_; (on_goal 1 => unfold z); on_goal 2 => (intro _; try clear_value z))
       | (refine keeps_cut (s := z.2.1) ?_ ?_; (on_goal 1 => unfold z); on_goal 2 => (intro _; try clear_value z))
       | try clear_value z)
    | with_reducible apply State.dropLaunch_keeps | with_reducible apply State.pailCopy_keeps
    | with_reducible apply State.beginCore_keeps | with_reducible apply State.bump_keeps
    | with_reducible apply State.modStream_keeps | with_reducible apply State.modJob_keeps
    | with_reducible apply keeps_foldl | with_reducible apply keeps_foldl_fst | with_reducible apply keeps_foldl_snd
    | with_reducible apply keeps_foldl_mid | with_reducible apply keeps_ite | with_reducible apply keeps_ite_snd | split
    | ((with_reducible refine State.keeps_mk hw (by assumption) rfl ?_)
       intro p; cases p <;> (first | exact .inl (by decide) | exact .inr rfl))
    | (intro _; intros; try beta_reduce))

theorem State.startStep_keeps {pts : List Part} (hw : Within [.out, .od, .mem, .cores, .engines, .jobs, .streams, .sched,
    .hosts, .events] pts) {bef : State} {s : State} (j : Nat) (h : bef.Keeps pts s) : bef.Keeps pts (State.startStep s j) := by
  unfold State.startStep
  repeat' (first
    | with_reducible assumption | ((with_reducible refine Within.sub hw ?_); decide)
    | (fail_if_no_progress extract_lets -underBinder -merge -useContext +onlyGivenNames z
       first
       | (refine keeps_cut (s := z) ?_ ?_; (on_goal 1 => unfold z); on_goal 2 => (intro _; try clear_value z))
       | (refine keeps_cut (s := z.2) ?_ ?_; (on_goal 1 => unfold z); on_goal 2 => (intro _; try clear_value z))
       | (refine keeps_cut (s := z.1) ?_ ?_; (on_goal 1 => unfold z); on_goal 2 => (intro _; try clear_value z))
       | (refine keeps_cut (s := z.2.1) ?_ ?_; (on_goal 1 => unfold z); on_goal 2 => (intro _; try clear_value z))
       | try clear_value z)
    | with_reducible apply State.startRecord_keeps | with_reducible apply State.failLaunch_keeps
    | with_reducible apply State.replaceUnits_keeps | with_reducible apply State.raise_keeps
    | with_reducible apply State.bump_keeps | with_reducible apply keeps_ite | with_reducible apply keeps_ite_snd | split
    | ((with_reducible refine State.keeps_mk hw (by assumption) rfl ?_)
       intro p; cases p <;> (first | exact .inl (by decide) | exact .inr rfl))
    | with_reducible refine keeps_of_fst (by with_reducible assumption) ?_
    | with_reducible refine keeps_of_snd (by with_reducible assumption) ?_ | (intro _; intros; try beta_reduce))

theorem execStepStart_keeps (dt : Nat) (job : Fin 8) (s : State) :
    ∃ t, execStepStart dt job s = .next t ∧ (s.elapse dt).Keeps [.out, .od, .mem, .cores, .engines, .jobs, .streams, .sched,
        .hosts, .events] t := by
  unfold execStepStart
  refine ⟨_, rfl, ?_⟩
  have hw : Within [.out, .od, .mem, .cores, .engines, .jobs, .streams, .sched, .hosts, .events] [.out, .od, .mem, .cores,
      .engines, .jobs, .streams, .sched, .hosts, .events] := fun _ h => h
  have h := State.Keeps.refl [.out, .od, .mem, .cores, .engines, .jobs, .streams, .sched, .hosts, .events] (s.elapse dt)
  generalize s.elapse dt = bef at h ⊢
  repeat' (first
    | with_reducible assumption | ((with_reducible refine Within.sub hw ?_); decide)
    | with_reducible apply State.startStep_keeps | with_reducible apply keeps_ite | with_reducible apply keeps_ite_snd
    | split | (intro _; intros; try beta_reduce))

theorem State.useTokens_keeps {pts : List Part} (hw : Within [.od, .streams, .events] pts) {bef : State} {s : State} (n :
    Nat) (k : Nat) (h : bef.Keeps pts s) : bef.Keeps pts (State.useTokens s n k) := by
  unfold State.useTokens
  repeat' (first
    | with_reducible assumption | ((with_reducible refine Within.sub hw ?_); decide)
    | (fail_if_no_progress extract_lets -underBinder -merge -useContext +onlyGivenNames z
       first
       | (refine keeps_cut (s := z) ?_ ?_; (on_goal 1 => unfold z); on_goal 2 => (intro _; try clear_value z))
       | try clear_value z)
    | with_reducible apply State.drop_keeps | with_reducible apply State.modStream_keeps | with_reducible apply keeps_ite
    | with_reducible apply keeps_ite_snd | split
    | ((with_reducible refine State.keeps_mk hw (by assumption) rfl ?_)
       intro p; cases p <;> (first | exact .inl (by decide) | exact .inr rfl))
    | (intro _; intros; try beta_reduce))

theorem State.deliverToken_keeps {pts : List Part} (hw : Within [.out, .od, .mem, .streams, .twin, .hosts] pts) {bef : State}
    {s : State} (j : Nat) (n : Nat) (failed : Bool) (t : Option (BitVec 32)) (h : bef.Keeps pts s) : bef.Keeps pts
    (State.deliverToken s j n failed t).1 := by
  unfold State.deliverToken
  repeat' (first
    | with_reducible assumption | ((with_reducible refine Within.sub hw ?_); decide)
    | (fail_if_no_progress extract_lets -underBinder -merge -useContext +onlyGivenNames z
       first
       | (refine keeps_cut (s := z) ?_ ?_; (on_goal 1 => unfold z); on_goal 2 => (intro _; try clear_value z))
       | try clear_value z)
    | with_reducible apply State.logged_keeps | with_reducible apply State.modStream_keeps | with_reducible apply keeps_ite
    | with_reducible apply keeps_ite_snd | split
    | ((with_reducible refine State.keeps_mk hw (by assumption) rfl ?_)
       intro p; cases p <;> (first | exact .inl (by decide) | exact .inr rfl))
    | (intro _; intros; try beta_reduce))

theorem State.deliverTokens_keeps {pts : List Part} (hw : Within [.out, .od, .mem, .streams, .twin, .hosts, .events] pts)
    {bef : State} {s : State} (j : Nat) (r : RunStep) (sampled : List (Nat × BitVec 32)) (h : bef.Keeps pts s) : bef.Keeps
    pts (State.deliverTokens s j r sampled).1 := by
  unfold State.deliverTokens
  repeat' (first
    | with_reducible assumption | ((with_reducible refine Within.sub hw ?_); decide)
    | (fail_if_no_progress extract_lets -underBinder -merge -useContext +onlyGivenNames z
       first
       | (refine keeps_cut (s := z) ?_ ?_; (on_goal 1 => unfold z); on_goal 2 => (intro _; try clear_value z))
       | (refine keeps_cut (s := z.2) ?_ ?_; (on_goal 1 => unfold z); on_goal 2 => (intro _; try clear_value z))
       | (refine keeps_cut (s := z.1) ?_ ?_; (on_goal 1 => unfold z); on_goal 2 => (intro _; try clear_value z))
       | (refine keeps_cut (s := z.2.1) ?_ ?_; (on_goal 1 => unfold z); on_goal 2 => (intro _; try clear_value z))
       | try clear_value z)
    | with_reducible apply State.deliverToken_keeps | with_reducible apply State.useTokens_keeps
    | with_reducible apply keeps_foldl | with_reducible apply keeps_foldl_fst | with_reducible apply keeps_foldl_snd
    | with_reducible apply keeps_foldl_mid | with_reducible apply keeps_ite | with_reducible apply keeps_ite_snd | split
    | ((with_reducible refine State.keeps_mk hw (by assumption) rfl ?_)
       intro p; cases p <;> (first | exact .inl (by decide) | exact .inr rfl))
    | (intro _; intros; try beta_reduce))

theorem State.streamChanges_keeps {pts : List Part} (hw : Within [.out, .od, .mem, .jobs, .streams, .hosts] pts) {bef :
    State} {s : State} (j : Nat) (idle : List (Nat × Nat)) (h : bef.Keeps pts s) : bef.Keeps pts (State.streamChanges s j
    idle) := by
  unfold State.streamChanges
  repeat' (first
    | with_reducible assumption | ((with_reducible refine Within.sub hw ?_); decide)
    | (fail_if_no_progress extract_lets -underBinder -merge -useContext +onlyGivenNames z
       first
       | (refine keeps_cut (s := z) ?_ ?_; (on_goal 1 => unfold z); on_goal 2 => (intro _; try clear_value z))
       | (refine keeps_cut (s := z.2) ?_ ?_; (on_goal 1 => unfold z); on_goal 2 => (intro _; try clear_value z))
       | (refine keeps_cut (s := z.1) ?_ ?_; (on_goal 1 => unfold z); on_goal 2 => (intro _; try clear_value z))
       | (refine keeps_cut (s := z.2.1) ?_ ?_; (on_goal 1 => unfold z); on_goal 2 => (intro _; try clear_value z))
       | try clear_value z)
    | with_reducible apply State.recomputed_keeps | with_reducible apply State.closeNow_keeps
    | with_reducible apply State.streamTo_keeps | with_reducible apply keeps_foldl | with_reducible apply keeps_foldl_fst
    | with_reducible apply keeps_foldl_snd | with_reducible apply keeps_foldl_mid | with_reducible apply keeps_ite
    | with_reducible apply keeps_ite_snd | split | (intro _; intros; try beta_reduce))

theorem State.adjustStagger_keeps {pts : List Part} (hw : Within [.od, .sched] pts) {bef : State} {s : State} (p : Nat) (h :
    bef.Keeps pts s) : bef.Keeps pts (State.adjustStagger s p) := by
  unfold State.adjustStagger
  repeat' (first
    | with_reducible assumption | ((with_reducible refine Within.sub hw ?_); decide)
    | (fail_if_no_progress extract_lets -underBinder -merge -useContext +onlyGivenNames z
       first
       | (refine keeps_cut (s := z) ?_ ?_; (on_goal 1 => unfold z); on_goal 2 => (intro _; try clear_value z))
       | try clear_value z)
    | with_reducible apply State.setVal_keeps | with_reducible apply keeps_ite | with_reducible apply keeps_ite_snd | split
    | ((with_reducible refine State.keeps_mk hw (by assumption) rfl ?_)
       intro p; cases p <;> (first | exact .inl (by decide) | exact .inr rfl))
    | (intro _; intros; try beta_reduce))

theorem State.markStretched_keeps {pts : List Part} (hw : Within [.sched] pts) {bef : State} {s : State} (j : Nat) (h :
    bef.Keeps pts s) : bef.Keeps pts (State.markStretched s j) := by
  unfold State.markStretched
  repeat' (first
    | with_reducible assumption | ((with_reducible refine Within.sub hw ?_); decide)
    | (fail_if_no_progress extract_lets -underBinder -merge -useContext +onlyGivenNames z
       first
       | (refine keeps_cut (s := z) ?_ ?_; (on_goal 1 => unfold z); on_goal 2 => (intro _; try clear_value z))
       | try clear_value z)
    | with_reducible apply keeps_ite | with_reducible apply keeps_ite_snd | split
    | ((with_reducible refine State.keeps_mk hw (by assumption) rfl ?_)
       intro p; cases p <;> (first | exact .inl (by decide) | exact .inr rfl))
    | (intro _; intros; try beta_reduce))

theorem State.clearStep_keeps {pts : List Part} (hw : Within [.cores, .jobs, .sched] pts) {bef : State} {s : State} (j : Nat)
    (r : RunStep) (h : bef.Keeps pts s) : bef.Keeps pts (State.clearStep s j r) := by
  unfold State.clearStep
  repeat' (first
    | with_reducible assumption | ((with_reducible refine Within.sub hw ?_); decide)
    | (fail_if_no_progress extract_lets -underBinder -merge -useContext +onlyGivenNames z
       first
       | (refine keeps_cut (s := z) ?_ ?_; (on_goal 1 => unfold z); on_goal 2 => (intro _; try clear_value z))
       | try clear_value z)
    | with_reducible apply State.modJob_keeps | with_reducible apply State.modCore_keeps | with_reducible apply keeps_foldl
    | with_reducible apply keeps_ite | with_reducible apply keeps_ite_snd | split
    | ((with_reducible refine State.keeps_mk hw (by assumption) rfl ?_)
       intro p; cases p <;> (first | exact .inl (by decide) | exact .inr rfl))
    | (intro _; intros; try beta_reduce))

theorem State.endStep_keeps {pts : List Part} (hw : Within (Part.allBut [.free]) pts) {bef : State} {s : State} (j : Nat)
    (sampled : List (Nat × BitVec 32)) (pauseShare : Nat) (h : bef.Keeps pts s) : bef.Keeps pts (State.endStep s j sampled
    pauseShare) := by
  unfold State.endStep
  repeat' (first
    | with_reducible assumption | ((with_reducible refine Within.sub hw ?_); decide)
    | (fail_if_no_progress extract_lets -underBinder -merge -useContext +onlyGivenNames z
       first
       | (refine keeps_cut (s := z) ?_ ?_; (on_goal 1 => unfold z); on_goal 2 => (intro _; try clear_value z))
       | (refine keeps_cut (s := z.2) ?_ ?_; (on_goal 1 => unfold z); on_goal 2 => (intro _; try clear_value z))
       | (refine keeps_cut (s := z.1) ?_ ?_; (on_goal 1 => unfold z); on_goal 2 => (intro _; try clear_value z))
       | (refine keeps_cut (s := z.2.1) ?_ ?_; (on_goal 1 => unfold z); on_goal 2 => (intro _; try clear_value z))
       | try clear_value z)
    | with_reducible apply State.clearStep_keeps | with_reducible apply State.markStretched_keeps
    | with_reducible apply State.adjustStagger_keeps | with_reducible apply State.streamChanges_keeps
    | with_reducible apply State.deliverTokens_keeps | with_reducible apply State.advance_keeps
    | with_reducible apply State.settleTakeover_keeps | with_reducible apply State.boundary__keeps
    | with_reducible apply State.postStep_keeps | with_reducible apply State.placeLayers_keeps
    | with_reducible apply State.checkpointAll_keeps | with_reducible apply keeps_ite | with_reducible apply keeps_ite_snd
    | split
    | ((with_reducible refine State.keeps_mk hw (by assumption) rfl ?_)
       intro p; cases p <;> (first | exact .inl (by decide) | exact .inr rfl))
    | with_reducible refine keeps_of_fst (by with_reducible assumption) ?_
    | with_reducible refine keeps_of_snd (by with_reducible assumption) ?_ | (intro _; intros; try beta_reduce))

theorem execStepEnd_keeps (dt : Nat) (job : Fin 8) (sampled : List (Nat × BitVec 32)) (pauseShare : Nat) (s : State) :
    ∃ t, execStepEnd dt job sampled pauseShare s = .next t ∧ (s.elapse dt).Keeps (Part.allBut [.free]) t := by
  unfold execStepEnd
  refine ⟨_, rfl, ?_⟩
  have hw : Within (Part.allBut [.free]) (Part.allBut [.free]) := fun _ h => h
  have h := State.Keeps.refl (Part.allBut [.free]) (s.elapse dt)
  generalize s.elapse dt = bef at h ⊢
  repeat' (first
    | with_reducible assumption | ((with_reducible refine Within.sub hw ?_); decide)
    | with_reducible apply State.endStep_keeps | with_reducible apply keeps_ite | with_reducible apply keeps_ite_snd | split
    | (intro _; intros; try beta_reduce))

end Sys2Proof.Machine
end

