-- ==== Sys2Proof/Laws/KeepsWindow.lean ====
section
/-! SUPPORT. What the operations of Machine/Window.lean keep. -/

namespace Sys2Proof.Machine

theorem State.commWrite_keeps {pts : List Part} (hw : Within [.sm3] pts) {bef : State} (index : Nat) (sub : Nat) (data : List
    Byte) {s : State} (h : bef.Keeps pts s) : bef.Keeps pts (State.commWrite index sub data s).2 := by
  unfold State.commWrite
  repeat' (first
    | with_reducible assumption | ((with_reducible refine Within.sub hw ?_); decide)
    | (fail_if_no_progress extract_lets -underBinder -merge -useContext +onlyGivenNames z
       first
       | (refine keeps_cut (s := z) ?_ ?_; (on_goal 1 => unfold z); on_goal 2 => (intro _; try clear_value z))
       | try clear_value z)
    | with_reducible apply State.boot_keeps | with_reducible apply keeps_ite | with_reducible apply keeps_ite_snd | split
    | ((with_reducible refine State.keeps_mk hw (by assumption) rfl ?_)
       intro p; cases p <;> (first | exact .inl (by decide) | exact .inr rfl))
    | (intro _; intros; try beta_reduce))

theorem State.sdoWrite_keeps {pts : List Part} (hw : Within (Part.allBut []) pts) {bef : State} {s : State} (index : Nat)
    (sub : Nat) (data : List Byte) (h : bef.Keeps pts s) : bef.Keeps pts (State.sdoWrite s index sub data) := by
  unfold State.sdoWrite
  repeat' (first
    | with_reducible assumption | ((with_reducible refine Within.sub hw ?_); decide)
    | (fail_if_no_progress extract_lets -underBinder -merge -useContext +onlyGivenNames z
       first
       | (refine keeps_cut (s := z) ?_ ?_; (on_goal 1 => unfold z); on_goal 2 => (intro _; try clear_value z))
       | (refine keeps_cut (s := z.2) ?_ ?_; (on_goal 1 => unfold z); on_goal 2 => (intro _; try clear_value z))
       | (refine keeps_cut (s := z.1) ?_ ?_; (on_goal 1 => unfold z); on_goal 2 => (intro _; try clear_value z))
       | (refine keeps_cut (s := z.2.1) ?_ ?_; (on_goal 1 => unfold z); on_goal 2 => (intro _; try clear_value z))
       | try clear_value z)
    | with_reducible apply State.commWrite_keeps | with_reducible apply State.writeAct_keeps
    | with_reducible apply State.writeVia_keeps | with_reducible apply State.reply_keeps | with_reducible apply keeps_ite
    | with_reducible apply keeps_ite_snd | split | (intro _; intros; try beta_reduce))

theorem State.sdoSend_keeps {pts : List Part} (hw : Within [.out, .od, .events, .sdo] pts) {bef : State} {s : State} (index :
    Nat) (sub : Nat) (complete : Bool) (bs : List Byte) (h : bef.Keeps pts s) : bef.Keeps pts (State.sdoSend s index sub
    complete bs) := by
  unfold State.sdoSend
  repeat' (first
    | with_reducible assumption | ((with_reducible refine Within.sub hw ?_); decide)
    | (fail_if_no_progress extract_lets -underBinder -merge -useContext +onlyGivenNames z
       first
       | (refine keeps_cut (s := z) ?_ ?_; (on_goal 1 => unfold z); on_goal 2 => (intro _; try clear_value z))
       | try clear_value z)
    | with_reducible apply State.take_keeps | with_reducible apply State.drop_keeps | with_reducible apply State.emit_keeps
    | with_reducible apply keeps_ite | with_reducible apply keeps_ite_snd | split
    | ((with_reducible refine State.keeps_mk hw (by assumption) rfl ?_)
       intro p; cases p <;> (first | exact .inl (by decide) | exact .inr rfl))
    | (intro _; intros; try beta_reduce))

theorem State.sdoRead_keeps {pts : List Part} (hw : Within [.out, .od, .hosts, .events, .sdo] pts) {bef : State} {s : State}
    (index : Nat) (sub : Nat) (complete : Bool) (h : bef.Keeps pts s) : bef.Keeps pts (State.sdoRead s index sub complete) := by
  unfold State.sdoRead
  repeat' (first
    | with_reducible assumption | ((with_reducible refine Within.sub hw ?_); decide)
    | (fail_if_no_progress extract_lets -underBinder -merge -useContext +onlyGivenNames z
       first
       | (refine keeps_cut (s := z) ?_ ?_; (on_goal 1 => unfold z); on_goal 2 => (intro _; try clear_value z))
       | (refine keeps_cut (s := z.2) ?_ ?_; (on_goal 1 => unfold z); on_goal 2 => (intro _; try clear_value z))
       | (refine keeps_cut (s := z.1) ?_ ?_; (on_goal 1 => unfold z); on_goal 2 => (intro _; try clear_value z))
       | (refine keeps_cut (s := z.2.1) ?_ ?_; (on_goal 1 => unfold z); on_goal 2 => (intro _; try clear_value z))
       | try clear_value z)
    | with_reducible apply State.sdoSend_keeps | with_reducible apply State.completeRead_keeps
    | with_reducible apply State.readEntry_keeps | with_reducible apply State.emit_keeps | with_reducible apply keeps_ite
    | with_reducible apply keeps_ite_snd | split | (intro _; intros; try beta_reduce))

theorem State.sdoFinish_keeps {pts : List Part} (hw : Within (Part.allBut []) pts) {bef : State} {s : State} (t : Sdo) (data
    : List Byte) (h : bef.Keeps pts s) : bef.Keeps pts (State.sdoFinish s t data) := by
  unfold State.sdoFinish
  repeat' (first
    | with_reducible assumption | ((with_reducible refine Within.sub hw ?_); decide)
    | (fail_if_no_progress extract_lets -underBinder -merge -useContext +onlyGivenNames z
       first
       | (refine keeps_cut (s := z) ?_ ?_; (on_goal 1 => unfold z); on_goal 2 => (intro _; try clear_value z))
       | (refine keeps_cut (s := z.2) ?_ ?_; (on_goal 1 => unfold z); on_goal 2 => (intro _; try clear_value z))
       | (refine keeps_cut (s := z.1) ?_ ?_; (on_goal 1 => unfold z); on_goal 2 => (intro _; try clear_value z))
       | (refine keeps_cut (s := z.2.1) ?_ ?_; (on_goal 1 => unfold z); on_goal 2 => (intro _; try clear_value z))
       | try clear_value z)
    | with_reducible apply State.sdoWrite_keeps | with_reducible apply State.completeWrite_keeps
    | with_reducible apply State.reply_keeps | with_reducible apply keeps_ite | with_reducible apply keeps_ite_snd | split
    | ((with_reducible refine State.keeps_mk hw (by assumption) rfl ?_)
       intro p; cases p <;> (first | exact .inl (by decide) | exact .inr rfl))
    | (intro _; intros; try beta_reduce))

theorem State.sdoOpen_keeps {pts : List Part} (hw : Within (Part.allBut []) pts) {bef : State} {s : State} (r : SdoStart)
    (last : Bool) (data : List Byte) (h : bef.Keeps pts s) : bef.Keeps pts (State.sdoOpen s r last data) := by
  unfold State.sdoOpen
  repeat' (first
    | with_reducible assumption | ((with_reducible refine Within.sub hw ?_); decide)
    | (fail_if_no_progress extract_lets -underBinder -merge -useContext +onlyGivenNames z
       first
       | (refine keeps_cut (s := z) ?_ ?_; (on_goal 1 => unfold z); on_goal 2 => (intro _; try clear_value z))
       | try clear_value z)
    | with_reducible apply State.sdoFinish_keeps | with_reducible apply State.sdoRead_keeps
    | with_reducible apply State.emit_keeps | with_reducible apply keeps_ite | with_reducible apply keeps_ite_snd | split
    | ((with_reducible refine State.keeps_mk hw (by assumption) rfl ?_)
       intro p; cases p <;> (first | exact .inl (by decide) | exact .inr rfl))
    | (intro _; intros; try beta_reduce))

theorem State.sdoGo_keeps {pts : List Part} (hw : Within (Part.allBut []) pts) {bef : State} {s : State} (t : Sdo) (toggle :
    Bool) (last : Bool) (data : List Byte) (h : bef.Keeps pts s) : bef.Keeps pts (State.sdoGo s t toggle last data) := by
  unfold State.sdoGo
  repeat' (first
    | with_reducible assumption | ((with_reducible refine Within.sub hw ?_); decide)
    | (fail_if_no_progress extract_lets -underBinder -merge -useContext +onlyGivenNames z
       first
       | (refine keeps_cut (s := z) ?_ ?_; (on_goal 1 => unfold z); on_goal 2 => (intro _; try clear_value z))
       | try clear_value z)
    | with_reducible apply State.sdoFinish_keeps | with_reducible apply State.take_keeps
    | with_reducible apply State.drop_keeps | with_reducible apply State.emit_keeps | with_reducible apply keeps_ite
    | with_reducible apply keeps_ite_snd | split
    | ((with_reducible refine State.keeps_mk hw (by assumption) rfl ?_)
       intro p; cases p <;> (first | exact .inl (by decide) | exact .inr rfl))
    | (intro _; intros; try beta_reduce))

theorem execSdoSegment_keeps (dt : Nat) (start : Option SdoStart) (toggle : Bool) (last : Bool) (data : List Byte) (s : State) :
    ∃ t, execSdoSegment dt start toggle last data s = .next t ∧ (s.elapse dt).Keeps (Part.allBut []) t := by
  unfold execSdoSegment
  refine ⟨_, rfl, ?_⟩
  have hw : Within (Part.allBut []) (Part.allBut []) := fun _ h => h
  have h := State.Keeps.refl (Part.allBut []) (s.elapse dt)
  generalize s.elapse dt = bef at h ⊢
  repeat' (first
    | with_reducible assumption | ((with_reducible refine Within.sub hw ?_); decide)
    | (fail_if_no_progress extract_lets -underBinder -merge -useContext +onlyGivenNames z
       first
       | (refine keeps_cut (s := z) ?_ ?_; (on_goal 1 => unfold z); on_goal 2 => (intro _; try clear_value z))
       | try clear_value z)
    | with_reducible apply State.sdoGo_keeps | with_reducible apply State.sdoOpen_keeps | with_reducible apply keeps_ite
    | with_reducible apply keeps_ite_snd | split
    | ((with_reducible refine State.keeps_mk hw (by assumption) rfl ?_)
       intro p; cases p <;> (first | exact .inl (by decide) | exact .inr rfl))
    | (intro _; intros; try beta_reduce))

theorem execSdoSegmentTimeout_keeps (dt : Nat) (s : State) :
    ∃ t, execSdoSegmentTimeout dt s = .next t ∧ (s.elapse dt).Keeps [.out, .sdo] t := by
  unfold execSdoSegmentTimeout
  refine ⟨_, rfl, ?_⟩
  have hw : Within [.out, .sdo] [.out, .sdo] := fun _ h => h
  have h := State.Keeps.refl [.out, .sdo] (s.elapse dt)
  generalize s.elapse dt = bef at h ⊢
  repeat' (first
    | with_reducible assumption | ((with_reducible refine Within.sub hw ?_); decide)
    | (fail_if_no_progress extract_lets -underBinder -merge -useContext +onlyGivenNames z
       first
       | (refine keeps_cut (s := z) ?_ ?_; (on_goal 1 => unfold z); on_goal 2 => (intro _; try clear_value z))
       | try clear_value z)
    | with_reducible apply State.emit_keeps | with_reducible apply keeps_ite | with_reducible apply keeps_ite_snd | split
    | ((with_reducible refine State.keeps_mk hw (by assumption) rfl ?_)
       intro p; cases p <;> (first | exact .inl (by decide) | exact .inr rfl))
    | (intro _; intros; try beta_reduce))

theorem State.sdoInformation_keeps {pts : List Part} (hw : Within [.out] pts) {bef : State} {s : State} (request : Nat)
    (index : Nat) (sub : Nat) (h : bef.Keeps pts s) : bef.Keeps pts (State.sdoInformation s request index sub) := by
  unfold State.sdoInformation
  repeat' (first
    | with_reducible assumption | ((with_reducible refine Within.sub hw ?_); decide)
    | (fail_if_no_progress extract_lets -underBinder -merge -useContext +onlyGivenNames z
       first
       | (refine keeps_cut (s := z) ?_ ?_; (on_goal 1 => unfold z); on_goal 2 => (intro _; try clear_value z))
       | try clear_value z)
    | with_reducible apply State.boot_keeps | with_reducible apply State.access_keeps
    | with_reducible apply State.emit_keeps | with_reducible apply keeps_ite | with_reducible apply keeps_ite_snd | split
    | ((with_reducible refine State.keeps_mk hw (by assumption) rfl ?_)
       intro p; cases p <;> (first | exact .inl (by decide) | exact .inr rfl))
    | (intro _; intros; try beta_reduce))

theorem execSdoInformation_keeps (dt : Nat) (request : Fin 3) (index : BitVec 16) (sub : BitVec 8) (s : State) :
    ∃ t, execSdoInformation dt request index sub s = .next t ∧ (s.elapse dt).Keeps [.out] t := by
  unfold execSdoInformation
  refine ⟨_, rfl, ?_⟩
  have hw : Within [.out] [.out] := fun _ h => h
  have h := State.Keeps.refl [.out] (s.elapse dt)
  generalize s.elapse dt = bef at h ⊢
  repeat' (first
    | with_reducible assumption | ((with_reducible refine Within.sub hw ?_); decide)
    | with_reducible apply State.sdoInformation_keeps | with_reducible apply keeps_ite | with_reducible apply keeps_ite_snd
    | split | (intro _; intros; try beta_reduce))

theorem execTxpdoSample_keeps (dt : Nat) (s : State) :
    ∃ t, execTxpdoSample dt s = .next t ∧ (s.elapse dt).Keeps [.out] t := by
  unfold execTxpdoSample
  refine ⟨_, rfl, ?_⟩
  have hw : Within [.out] [.out] := fun _ h => h
  have h := State.Keeps.refl [.out] (s.elapse dt)
  generalize s.elapse dt = bef at h ⊢
  repeat' (first
    | with_reducible assumption | ((with_reducible refine Within.sub hw ?_); decide)
    | (fail_if_no_progress extract_lets -underBinder -merge -useContext +onlyGivenNames z
       first
       | (refine keeps_cut (s := z) ?_ ?_; (on_goal 1 => unfold z); on_goal 2 => (intro _; try clear_value z))
       | (refine keeps_cut (s := z.2) ?_ ?_; (on_goal 1 => unfold z); on_goal 2 => (intro _; try clear_value z))
       | (refine keeps_cut (s := z.1) ?_ ?_; (on_goal 1 => unfold z); on_goal 2 => (intro _; try clear_value z))
       | (refine keeps_cut (s := z.2.1) ?_ ?_; (on_goal 1 => unfold z); on_goal 2 => (intro _; try clear_value z))
       | try clear_value z)
    | with_reducible apply State.emit_keeps | with_reducible apply keeps_ite | with_reducible apply keeps_ite_snd | split
    | (intro _; intros; try beta_reduce))

theorem execAlStateChange_keeps (dt : Nat) (al : Fin 4) (s : State) :
    ∃ t, execAlStateChange dt al s = .next t ∧ (s.elapse dt).Keeps [.al, .sdo] t := by
  unfold execAlStateChange
  refine ⟨_, rfl, ?_⟩
  have hw : Within [.al, .sdo] [.al, .sdo] := fun _ h => h
  have h := State.Keeps.refl [.al, .sdo] (s.elapse dt)
  generalize s.elapse dt = bef at h ⊢
  repeat' (first
    | with_reducible assumption | ((with_reducible refine Within.sub hw ?_); decide)
    | (fail_if_no_progress extract_lets -underBinder -merge -useContext +onlyGivenNames z
       first
       | (refine keeps_cut (s := z) ?_ ?_; (on_goal 1 => unfold z); on_goal 2 => (intro _; try clear_value z))
       | try clear_value z)
    | with_reducible apply keeps_ite | with_reducible apply keeps_ite_snd | split
    | ((with_reducible refine State.keeps_mk hw (by assumption) rfl ?_)
       intro p; cases p <;> (first | exact .inl (by decide) | exact .inr rfl))
    | (intro _; intros; try beta_reduce))

theorem State.blockAnswer_keeps {pts : List Part} (hw : Within [.hosts] pts) {bef : State} {s : State} (p : Nat) (abort :
    Nat) (bs : List Byte) (h : bef.Keeps pts s) : bef.Keeps pts (State.blockAnswer s p abort bs) := by
  unfold State.blockAnswer
  repeat' (first
    | with_reducible assumption | ((with_reducible refine Within.sub hw ?_); decide)
    | (fail_if_no_progress extract_lets -underBinder -merge -useContext +onlyGivenNames z
       first
       | (refine keeps_cut (s := z) ?_ ?_; (on_goal 1 => unfold z); on_goal 2 => (intro _; try clear_value z))
       | try clear_value z)
    | with_reducible apply State.modHost_keeps | with_reducible apply keeps_ite | with_reducible apply keeps_ite_snd | split
    | ((with_reducible refine State.keeps_mk hw (by assumption) rfl ?_)
       intro p; cases p <;> (first | exact .inl (by decide) | exact .inr rfl))
    | (intro _; intros; try beta_reduce))

theorem State.blockCommand_keeps {pts : List Part} (hw : Within (Part.allBut []) pts) {bef : State} {s : State} (p : Nat)
    (index : Nat) (sub : Nat) (write : Bool) (complete : Bool) (reserved : Nat) (h : bef.Keeps pts s) : bef.Keeps pts
    (State.blockCommand s p index sub write complete reserved) := by
  unfold State.blockCommand
  repeat' (first
    | with_reducible assumption | ((with_reducible refine Within.sub hw ?_); decide)
    | (fail_if_no_progress extract_lets -underBinder -merge -useContext +onlyGivenNames z
       first
       | (refine keeps_cut (s := z) ?_ ?_; (on_goal 1 => unfold z); on_goal 2 => (intro _; try clear_value z))
       | (refine keeps_cut (s := z.2) ?_ ?_; (on_goal 1 => unfold z); on_goal 2 => (intro _; try clear_value z))
       | (refine keeps_cut (s := z.1) ?_ ?_; (on_goal 1 => unfold z); on_goal 2 => (intro _; try clear_value z))
       | (refine keeps_cut (s := z.2.1) ?_ ?_; (on_goal 1 => unfold z); on_goal 2 => (intro _; try clear_value z))
       | try clear_value z)
    | with_reducible apply State.blockAnswer_keeps | with_reducible apply State.completeRead_keeps
    | with_reducible apply State.readEntry_keeps | with_reducible apply State.completeWrite_keeps
    | with_reducible apply State.writeAct_keeps | with_reducible apply State.writeVia_keeps
    | with_reducible apply State.reply_keeps | with_reducible apply keeps_ite | with_reducible apply keeps_ite_snd | split
    | (intro _; intros; try beta_reduce))

theorem State.blockWrite_keeps {pts : List Part} (hw : Within (Part.allBut []) pts) {bef : State} {s : State} (p : Nat)
    (index : Nat) (sub : Nat) (complete : Bool) (reserved : Nat) (data : List Byte) (h : bef.Keeps pts s) : bef.Keeps pts
    (State.blockWrite s p index sub complete reserved data) := by
  unfold State.blockWrite
  repeat' (first
    | with_reducible assumption | ((with_reducible refine Within.sub hw ?_); decide)
    | (fail_if_no_progress extract_lets -underBinder -merge -useContext +onlyGivenNames z
       first
       | (refine keeps_cut (s := z) ?_ ?_; (on_goal 1 => unfold z); on_goal 2 => (intro _; try clear_value z))
       | try clear_value z)
    | with_reducible apply State.blockCommand_keeps | with_reducible apply State.dropLow_keeps
    | with_reducible apply State.take_keeps | with_reducible apply State.modHost_keeps | with_reducible apply keeps_ite
    | with_reducible apply keeps_ite_snd | split
    | ((with_reducible refine State.keeps_mk hw (by assumption) rfl ?_)
       intro p; cases p <;> (first | exact .inl (by decide) | exact .inr rfl))
    | (intro _; intros; try beta_reduce))

theorem State.blockRead_keeps {pts : List Part} (hw : Within (Part.allBut []) pts) {bef : State} {s : State} (p : Nat) (index
    : Nat) (sub : Nat) (complete : Bool) (reserved : Nat) (h : bef.Keeps pts s) : bef.Keeps pts (State.blockRead s p index
    sub complete reserved) := by
  unfold State.blockRead
  repeat' (first
    | with_reducible assumption | ((with_reducible refine Within.sub hw ?_); decide)
    | with_reducible apply State.blockCommand_keeps | with_reducible apply State.dropLow_keeps
    | with_reducible apply keeps_ite | with_reducible apply keeps_ite_snd | split | (intro _; intros; try beta_reduce))

theorem execAccessBlockRead_keeps (dt : Nat) (port : Fin 2) (index : BitVec 16) (sub : BitVec 8) (reserved : BitVec 6) (s :
    State) :
    ∃ t, execAccessBlockRead dt port index sub reserved s = .next t ∧ (s.elapse dt).Keeps (Part.allBut []) t := by
  unfold execAccessBlockRead
  refine ⟨_, rfl, ?_⟩
  have hw : Within (Part.allBut []) (Part.allBut []) := fun _ h => h
  have h := State.Keeps.refl (Part.allBut []) (s.elapse dt)
  generalize s.elapse dt = bef at h ⊢
  repeat' (first
    | with_reducible assumption | ((with_reducible refine Within.sub hw ?_); decide)
    | with_reducible apply State.blockRead_keeps | with_reducible apply keeps_ite | with_reducible apply keeps_ite_snd
    | split | (intro _; intros; try beta_reduce))

theorem execAccessBlockWrite_keeps (dt : Nat) (port : Fin 2) (index : BitVec 16) (sub : BitVec 8) (reserved : BitVec 6) (data
    : List Byte) (s : State) :
    ∃ t, execAccessBlockWrite dt port index sub reserved data s = .next t ∧ (s.elapse dt).Keeps (Part.allBut []) t := by
  unfold execAccessBlockWrite
  refine ⟨_, rfl, ?_⟩
  have hw : Within (Part.allBut []) (Part.allBut []) := fun _ h => h
  have h := State.Keeps.refl (Part.allBut []) (s.elapse dt)
  generalize s.elapse dt = bef at h ⊢
  repeat' (first
    | with_reducible assumption | ((with_reducible refine Within.sub hw ?_); decide)
    | with_reducible apply State.blockWrite_keeps | with_reducible apply keeps_ite | with_reducible apply keeps_ite_snd
    | split | (intro _; intros; try beta_reduce))

theorem execAccessBlockCompleteRead_keeps (dt : Nat) (port : Fin 2) (index : BitVec 16) (sub : BitVec 8) (reserved : BitVec
    6) (s : State) :
    ∃ t, execAccessBlockCompleteRead dt port index sub reserved s = .next t ∧ (s.elapse dt).Keeps (Part.allBut []) t := by
  unfold execAccessBlockCompleteRead
  refine ⟨_, rfl, ?_⟩
  have hw : Within (Part.allBut []) (Part.allBut []) := fun _ h => h
  have h := State.Keeps.refl (Part.allBut []) (s.elapse dt)
  generalize s.elapse dt = bef at h ⊢
  repeat' (first
    | with_reducible assumption | ((with_reducible refine Within.sub hw ?_); decide)
    | with_reducible apply State.blockRead_keeps | with_reducible apply keeps_ite | with_reducible apply keeps_ite_snd
    | split | (intro _; intros; try beta_reduce))

theorem execAccessBlockCompleteWrite_keeps (dt : Nat) (port : Fin 2) (index : BitVec 16) (sub : BitVec 8) (reserved : BitVec
    6) (data : List Byte) (s : State) :
    ∃ t, execAccessBlockCompleteWrite dt port index sub reserved data s = .next t ∧ (s.elapse dt).Keeps (Part.allBut []) t := by
  unfold execAccessBlockCompleteWrite
  refine ⟨_, rfl, ?_⟩
  have hw : Within (Part.allBut []) (Part.allBut []) := fun _ h => h
  have h := State.Keeps.refl (Part.allBut []) (s.elapse dt)
  generalize s.elapse dt = bef at h ⊢
  repeat' (first
    | with_reducible assumption | ((with_reducible refine Within.sub hw ?_); decide)
    | with_reducible apply State.blockWrite_keeps | with_reducible apply keeps_ite | with_reducible apply keeps_ite_snd
    | split | (intro _; intros; try beta_reduce))

theorem State.slotRead_keeps {pts : List Part} (hw : Within [.od, .hosts, .events] pts) {bef : State} {s : State} (p : Nat)
    (index : Nat) (sub : Nat) (take : Bool) (h : bef.Keeps pts s) : bef.Keeps pts (State.slotRead s p index sub take).1 := by
  unfold State.slotRead
  repeat' (first
    | with_reducible assumption | ((with_reducible refine Within.sub hw ?_); decide)
    | (fail_if_no_progress extract_lets -underBinder -merge -useContext +onlyGivenNames z
       first
       | (refine keeps_cut (s := z) ?_ ?_; (on_goal 1 => unfold z); on_goal 2 => (intro _; try clear_value z))
       | (refine keeps_cut (s := z.2) ?_ ?_; (on_goal 1 => unfold z); on_goal 2 => (intro _; try clear_value z))
       | (refine keeps_cut (s := z.1) ?_ ?_; (on_goal 1 => unfold z); on_goal 2 => (intro _; try clear_value z))
       | (refine keeps_cut (s := z.2.1) ?_ ?_; (on_goal 1 => unfold z); on_goal 2 => (intro _; try clear_value z))
       | try clear_value z)
    | with_reducible apply State.clearRead_keeps | with_reducible apply State.take_keeps
    | with_reducible apply State.readGate_keeps | with_reducible apply keeps_ite | with_reducible apply keeps_ite_snd
    | split
    | ((with_reducible refine State.keeps_mk hw (by assumption) rfl ?_)
       intro p; cases p <;> (first | exact .inl (by decide) | exact .inr rfl))
    | (intro _; intros; try beta_reduce))

theorem State.slotWrite_keeps {pts : List Part} (hw : Within (Part.allBut []) pts) {bef : State} {s : State} (p : Nat) (off :
    Nat) (data : List Byte) (h : bef.Keeps pts s) : bef.Keeps pts (State.slotWrite s p off data) := by
  unfold State.slotWrite
  repeat' (first
    | with_reducible assumption | ((with_reducible refine Within.sub hw ?_); decide)
    | (fail_if_no_progress extract_lets -underBinder -merge -useContext +onlyGivenNames z
       first
       | (refine keeps_cut (s := z) ?_ ?_; (on_goal 1 => unfold z); on_goal 2 => (intro _; try clear_value z))
       | try clear_value z)
    | with_reducible apply State.writeAct_keeps | with_reducible apply State.writeVia_keeps | with_reducible apply keeps_ite
    | with_reducible apply keeps_ite_snd | split
    | ((with_reducible refine State.keeps_mk hw (by assumption) rfl ?_)
       intro p; cases p <;> (first | exact .inl (by decide) | exact .inr rfl))
    | (intro _; intros; try beta_reduce))

theorem State.streamWindow_keeps {pts : List Part} (hw : Within [.od, .hosts, .events] pts) {bef : State} {s : State} (p :
    Nat) (o : Nat) (n : Nat) (h : bef.Keeps pts s) : bef.Keeps pts (State.streamWindow s p o n).1 := by
  unfold State.streamWindow
  repeat' (first
    | with_reducible assumption | ((with_reducible refine Within.sub hw ?_); decide)
    | (fail_if_no_progress extract_lets -underBinder -merge -useContext +onlyGivenNames z
       first
       | (refine keeps_cut (s := z) ?_ ?_; (on_goal 1 => unfold z); on_goal 2 => (intro _; try clear_value z))
       | try clear_value z)
    | with_reducible apply State.deny_keeps | with_reducible apply keeps_ite | with_reducible apply keeps_ite_snd | split
    | (intro _; intros; try beta_reduce))

theorem State.bar0Read_keeps {pts : List Part} (hw : Within [.od, .hosts, .events] pts) {bef : State} {s : State} (p : Nat)
    (base : Nat) (take : Bool) (h : bef.Keeps pts s) : bef.Keeps pts (State.bar0Read s p base take).1 := by
  unfold State.bar0Read
  repeat' (first
    | with_reducible assumption | ((with_reducible refine Within.sub hw ?_); decide)
    | (fail_if_no_progress extract_lets -underBinder -merge -useContext +onlyGivenNames z
       first
       | (refine keeps_cut (s := z) ?_ ?_; (on_goal 1 => unfold z); on_goal 2 => (intro _; try clear_value z))
       | try clear_value z)
    | with_reducible apply State.streamWindow_keeps | with_reducible apply State.slotRead_keeps
    | with_reducible apply State.take_keeps | with_reducible apply State.deny_keeps | with_reducible apply keeps_ite
    | with_reducible apply keeps_ite_snd | split
    | ((with_reducible refine State.keeps_mk hw (by assumption) rfl ?_)
       intro p; cases p <;> (first | exact .inl (by decide) | exact .inr rfl))
    | (intro _; intros; try beta_reduce))

theorem State.lowRead_keeps {pts : List Part} (hw : Within [.out, .od, .hosts, .events] pts) {bef : State} {s : State} (p :
    Nat) (off : Nat) (h : bef.Keeps pts s) : bef.Keeps pts (State.lowRead s p off) := by
  unfold State.lowRead
  repeat' (first
    | with_reducible assumption | ((with_reducible refine Within.sub hw ?_); decide)
    | (fail_if_no_progress extract_lets -underBinder -merge -useContext +onlyGivenNames z
       first
       | (refine keeps_cut (s := z) ?_ ?_; (on_goal 1 => unfold z); on_goal 2 => (intro _; try clear_value z))
       | (refine keeps_cut (s := z.2) ?_ ?_; (on_goal 1 => unfold z); on_goal 2 => (intro _; try clear_value z))
       | (refine keeps_cut (s := z.1) ?_ ?_; (on_goal 1 => unfold z); on_goal 2 => (intro _; try clear_value z))
       | (refine keeps_cut (s := z.2.1) ?_ ?_; (on_goal 1 => unfold z); on_goal 2 => (intro _; try clear_value z))
       | try clear_value z)
    | with_reducible apply State.bar0Read_keeps | with_reducible apply State.take_keeps
    | with_reducible apply State.modHost_keeps | with_reducible apply State.emit_keeps | with_reducible apply keeps_ite
    | with_reducible apply keeps_ite_snd | split
    | ((with_reducible refine State.keeps_mk hw (by assumption) rfl ?_)
       intro p; cases p <;> (first | exact .inl (by decide) | exact .inr rfl))
    | (intro _; intros; try beta_reduce))

theorem State.highRead_keeps {pts : List Part} (hw : Within [.out, .od, .hosts, .events] pts) {bef : State} {s : State} (p :
    Nat) (off : Nat) (h : bef.Keeps pts s) : bef.Keeps pts (State.highRead s p off) := by
  unfold State.highRead
  repeat' (first
    | with_reducible assumption | ((with_reducible refine Within.sub hw ?_); decide) | with_reducible apply hz
    | (fail_if_no_progress extract_lets -underBinder -merge -useContext +onlyGivenNames z
       first
       | (refine keeps_fact (P := ∀ x0, bef.Keeps pts x0 → bef.Keeps pts (z x0)) ?_ (fun hz => ?_); (on_goal 1 => (unfold z; intros; try beta_reduce)); on_goal 2 => (try clear_value z))
       | (refine keeps_cut (s := z) ?_ ?_; (on_goal 1 => unfold z); on_goal 2 => (intro _; try clear_value z))
       | (refine keeps_cut (s := z.2) ?_ ?_; (on_goal 1 => unfold z); on_goal 2 => (intro _; try clear_value z))
       | (refine keeps_cut (s := z.1) ?_ ?_; (on_goal 1 => unfold z); on_goal 2 => (intro _; try clear_value z))
       | (refine keeps_cut (s := z.2.1) ?_ ?_; (on_goal 1 => unfold z); on_goal 2 => (intro _; try clear_value z))
       | try clear_value z)
    | with_reducible apply State.bar0Read_keeps | with_reducible apply State.drop_keeps
    | with_reducible apply State.modHost_keeps | with_reducible apply State.emit_keeps | with_reducible apply keeps_ite
    | with_reducible apply keeps_ite_snd | split
    | ((with_reducible refine State.keeps_mk hw (by assumption) rfl ?_)
       intro p; cases p <;> (first | exact .inl (by decide) | exact .inr rfl))
    | (intro _; intros; try beta_reduce))

theorem execLowHalfRead_keeps (dt : Nat) (port : Fin 2) (offset : BitVec 26) (s : State) :
    ∃ t, execLowHalfRead dt port offset s = .next t ∧ (s.elapse dt).Keeps [.out, .od, .hosts, .events] t := by
  unfold execLowHalfRead
  refine ⟨_, rfl, ?_⟩
  have hw : Within [.out, .od, .hosts, .events] [.out, .od, .hosts, .events] := fun _ h => h
  have h := State.Keeps.refl [.out, .od, .hosts, .events] (s.elapse dt)
  generalize s.elapse dt = bef at h ⊢
  repeat' (first
    | with_reducible assumption | ((with_reducible refine Within.sub hw ?_); decide)
    | with_reducible apply State.lowRead_keeps | with_reducible apply keeps_ite | with_reducible apply keeps_ite_snd | split
    | (intro _; intros; try beta_reduce))

theorem execHighHalfRead_keeps (dt : Nat) (port : Fin 2) (offset : BitVec 26) (s : State) :
    ∃ t, execHighHalfRead dt port offset s = .next t ∧ (s.elapse dt).Keeps [.out, .od, .hosts, .events] t := by
  unfold execHighHalfRead
  refine ⟨_, rfl, ?_⟩
  have hw : Within [.out, .od, .hosts, .events] [.out, .od, .hosts, .events] := fun _ h => h
  have h := State.Keeps.refl [.out, .od, .hosts, .events] (s.elapse dt)
  generalize s.elapse dt = bef at h ⊢
  repeat' (first
    | with_reducible assumption | ((with_reducible refine Within.sub hw ?_); decide)
    | with_reducible apply State.highRead_keeps | with_reducible apply keeps_ite | with_reducible apply keeps_ite_snd
    | split | (intro _; intros; try beta_reduce))

theorem State.blockWordWrite_keeps {pts : List Part} (hw : Within (Part.allBut []) pts) {bef : State} {s : State} (p : Nat)
    (o : Nat) (v : Nat) (h : bef.Keeps pts s) : bef.Keeps pts (State.blockWordWrite s p o v) := by
  unfold State.blockWordWrite
  repeat' (first
    | with_reducible assumption | ((with_reducible refine Within.sub hw ?_); decide)
    | (fail_if_no_progress extract_lets -underBinder -merge -useContext +onlyGivenNames z
       first
       | (refine keeps_cut (s := z) ?_ ?_; (on_goal 1 => unfold z); on_goal 2 => (intro _; try clear_value z))
       | try clear_value z)
    | with_reducible apply State.blockCommand_keeps | with_reducible apply State.modHost_keeps
    | with_reducible apply keeps_ite | with_reducible apply keeps_ite_snd | split
    | ((with_reducible refine State.keeps_mk hw (by assumption) rfl ?_)
       intro p; cases p <;> (first | exact .inl (by decide) | exact .inr rfl))
    | (intro _; intros; try beta_reduce))

theorem State.bar0Write_keeps {pts : List Part} (hw : Within (Part.allBut []) pts) {bef : State} {s : State} (p : Nat) (off :
    Nat) (data : List Byte) (h : bef.Keeps pts s) : bef.Keeps pts (State.bar0Write s p off data) := by
  unfold State.bar0Write
  repeat' (first
    | with_reducible assumption | ((with_reducible refine Within.sub hw ?_); decide)
    | with_reducible apply State.blockWordWrite_keeps | with_reducible apply State.slotWrite_keeps
    | with_reducible apply State.regWrite_keeps | with_reducible apply State.writeUser_keeps
    | with_reducible apply State.deny_keeps | with_reducible apply keeps_ite | with_reducible apply keeps_ite_snd | split
    | (intro _; intros; try beta_reduce))

theorem State.lowWrite_keeps {pts : List Part} (hw : Within (Part.allBut []) pts) {bef : State} {s : State} (p : Nat) (off :
    Nat) (v : Nat) (h : bef.Keeps pts s) : bef.Keeps pts (State.lowWrite s p off v) := by
  unfold State.lowWrite
  repeat' (first
    | with_reducible assumption | ((with_reducible refine Within.sub hw ?_); decide)
    | (fail_if_no_progress extract_lets -underBinder -merge -useContext +onlyGivenNames z
       first
       | (refine keeps_cut (s := z) ?_ ?_; (on_goal 1 => unfold z); on_goal 2 => (intro _; try clear_value z))
       | try clear_value z)
    | with_reducible apply State.bar0Write_keeps | with_reducible apply State.dropLow_keeps
    | with_reducible apply State.modHost_keeps | with_reducible apply keeps_ite | with_reducible apply keeps_ite_snd | split
    | ((with_reducible refine State.keeps_mk hw (by assumption) rfl ?_)
       intro p; cases p <;> (first | exact .inl (by decide) | exact .inr rfl))
    | (intro _; intros; try beta_reduce))

theorem State.highWrite_keeps {pts : List Part} (hw : Within (Part.allBut []) pts) {bef : State} {s : State} (p : Nat) (off :
    Nat) (v : Nat) (h : bef.Keeps pts s) : bef.Keeps pts (State.highWrite s p off v) := by
  unfold State.highWrite
  repeat' (first
    | with_reducible assumption | ((with_reducible refine Within.sub hw ?_); decide)
    | (fail_if_no_progress extract_lets -underBinder -merge -useContext +onlyGivenNames z
       first
       | (refine keeps_cut (s := z) ?_ ?_; (on_goal 1 => unfold z); on_goal 2 => (intro _; try clear_value z))
       | try clear_value z)
    | with_reducible apply State.bar0Write_keeps | with_reducible apply State.dropLow_keeps
    | with_reducible apply State.modHost_keeps | with_reducible apply keeps_ite | with_reducible apply keeps_ite_snd | split
    | ((with_reducible refine State.keeps_mk hw (by assumption) rfl ?_)
       intro p; cases p <;> (first | exact .inl (by decide) | exact .inr rfl))
    | (intro _; intros; try beta_reduce))

theorem execLowHalfWrite_keeps (dt : Nat) (port : Fin 2) (offset : BitVec 26) (value : BitVec 32) (s : State) :
    ∃ t, execLowHalfWrite dt port offset value s = .next t ∧ (s.elapse dt).Keeps (Part.allBut []) t := by
  unfold execLowHalfWrite
  refine ⟨_, rfl, ?_⟩
  have hw : Within (Part.allBut []) (Part.allBut []) := fun _ h => h
  have h := State.Keeps.refl (Part.allBut []) (s.elapse dt)
  generalize s.elapse dt = bef at h ⊢
  repeat' (first
    | with_reducible assumption | ((with_reducible refine Within.sub hw ?_); decide)
    | with_reducible apply State.lowWrite_keeps | with_reducible apply keeps_ite | with_reducible apply keeps_ite_snd
    | split | (intro _; intros; try beta_reduce))

theorem execHighHalfWrite_keeps (dt : Nat) (port : Fin 2) (offset : BitVec 26) (value : BitVec 32) (s : State) :
    ∃ t, execHighHalfWrite dt port offset value s = .next t ∧ (s.elapse dt).Keeps (Part.allBut []) t := by
  unfold execHighHalfWrite
  refine ⟨_, rfl, ?_⟩
  have hw : Within (Part.allBut []) (Part.allBut []) := fun _ h => h
  have h := State.Keeps.refl (Part.allBut []) (s.elapse dt)
  generalize s.elapse dt = bef at h ⊢
  repeat' (first
    | with_reducible assumption | ((with_reducible refine Within.sub hw ?_); decide)
    | with_reducible apply State.highWrite_keeps | with_reducible apply keeps_ite | with_reducible apply keeps_ite_snd
    | split | (intro _; intros; try beta_reduce))

theorem State.entryWrite_keeps {pts : List Part} (hw : Within (Part.allBut []) pts) {bef : State} {s : State} (road : Road)
    (index : Nat) (sub : Nat) (data : List Byte) (h : bef.Keeps pts s) : bef.Keeps pts (State.entryWrite s road index sub
    data) := by
  unfold State.entryWrite
  repeat' (first
    | with_reducible assumption | ((with_reducible refine Within.sub hw ?_); decide)
    | (fail_if_no_progress extract_lets -underBinder -merge -useContext +onlyGivenNames z
       first
       | (refine keeps_cut (s := z) ?_ ?_; (on_goal 1 => unfold z); on_goal 2 => (intro _; try clear_value z))
       | try clear_value z)
    | with_reducible apply State.blockWrite_keeps | with_reducible apply State.sdoWrite_keeps
    | with_reducible apply State.writeAct_keeps | with_reducible apply State.dropLow_keeps
    | with_reducible apply State.writeVia_keeps | with_reducible apply keeps_ite | with_reducible apply keeps_ite_snd
    | split
    | ((with_reducible refine State.keeps_mk hw (by assumption) rfl ?_)
       intro p; cases p <;> (first | exact .inl (by decide) | exact .inr rfl))
    | (intro _; intros; try beta_reduce))

theorem execEntryWrite_keeps (dt : Nat) (road : Road) (index : BitVec 16) (sub : BitVec 8) (data : List Byte) (s : State) :
    ∃ t, execEntryWrite dt road index sub data s = .next t ∧ (s.elapse dt).Keeps (Part.allBut []) t := by
  unfold execEntryWrite
  refine ⟨_, rfl, ?_⟩
  have hw : Within (Part.allBut []) (Part.allBut []) := fun _ h => h
  have h := State.Keeps.refl (Part.allBut []) (s.elapse dt)
  generalize s.elapse dt = bef at h ⊢
  repeat' (first
    | with_reducible assumption | ((with_reducible refine Within.sub hw ?_); decide)
    | with_reducible apply State.entryWrite_keeps | with_reducible apply keeps_ite | with_reducible apply keeps_ite_snd
    | split | (intro _; intros; try beta_reduce))

theorem State.entryRead_keeps {pts : List Part} (hw : Within (Part.allBut []) pts) {bef : State} {s : State} (road : Road)
    (index : Nat) (sub : Nat) (h : bef.Keeps pts s) : bef.Keeps pts (State.entryRead s road index sub) := by
  unfold State.entryRead
  repeat' (first
    | with_reducible assumption | ((with_reducible refine Within.sub hw ?_); decide)
    | (fail_if_no_progress extract_lets -underBinder -merge -useContext +onlyGivenNames z
       first
       | (refine keeps_cut (s := z) ?_ ?_; (on_goal 1 => unfold z); on_goal 2 => (intro _; try clear_value z))
       | (refine keeps_cut (s := z.2) ?_ ?_; (on_goal 1 => unfold z); on_goal 2 => (intro _; try clear_value z))
       | (refine keeps_cut (s := z.1) ?_ ?_; (on_goal 1 => unfold z); on_goal 2 => (intro _; try clear_value z))
       | (refine keeps_cut (s := z.2.1) ?_ ?_; (on_goal 1 => unfold z); on_goal 2 => (intro _; try clear_value z))
       | try clear_value z)
    | with_reducible apply State.slotRead_keeps | with_reducible apply State.blockRead_keeps
    | with_reducible apply State.sdoRead_keeps | with_reducible apply State.emit_keeps | with_reducible apply keeps_ite
    | with_reducible apply keeps_ite_snd | split
    | ((with_reducible refine State.keeps_mk hw (by assumption) rfl ?_)
       intro p; cases p <;> (first | exact .inl (by decide) | exact .inr rfl))
    | (intro _; intros; try beta_reduce))

theorem execRcEntryRead_keeps (dt : Nat) (road : Road) (index : BitVec 16) (sub : BitVec 8) (s : State) :
    ∃ t, execRcEntryRead dt road index sub s = .next t ∧ (s.elapse dt).Keeps (Part.allBut []) t := by
  unfold execRcEntryRead
  refine ⟨_, rfl, ?_⟩
  have hw : Within (Part.allBut []) (Part.allBut []) := fun _ h => h
  have h := State.Keeps.refl (Part.allBut []) (s.elapse dt)
  generalize s.elapse dt = bef at h ⊢
  repeat' (first
    | with_reducible assumption | ((with_reducible refine Within.sub hw ?_); decide)
    | with_reducible apply State.entryRead_keeps | with_reducible apply keeps_ite | with_reducible apply keeps_ite_snd
    | split | (intro _; intros; try beta_reduce))

theorem execEventFetch_keeps (dt : Nat) (road : Road) (sub : BitVec 8) (s : State) :
    ∃ t, execEventFetch dt road sub s = .next t ∧ (s.elapse dt).Keeps (Part.allBut []) t := by
  unfold execEventFetch
  refine ⟨_, rfl, ?_⟩
  have hw : Within (Part.allBut []) (Part.allBut []) := fun _ h => h
  have h := State.Keeps.refl (Part.allBut []) (s.elapse dt)
  generalize s.elapse dt = bef at h ⊢
  repeat' (first
    | with_reducible assumption | ((with_reducible refine Within.sub hw ?_); decide)
    | (fail_if_no_progress extract_lets -underBinder -merge -useContext +onlyGivenNames z
       first
       | (refine keeps_cut (s := z) ?_ ?_; (on_goal 1 => unfold z); on_goal 2 => (intro _; try clear_value z))
       | try clear_value z)
    | with_reducible apply State.entryRead_keeps | with_reducible apply keeps_ite | with_reducible apply keeps_ite_snd
    | split | (intro _; intros; try beta_reduce))

end Sys2Proof.Machine
end

