-- ==== Sys2Proof/Laws/KeepsWindows.lean ====
section
/-! SUPPORT. What the operations of Machine/Windows.lean keep. -/

namespace Sys2Proof.Machine

theorem State.shiftWindow_keeps {pts : List Part} (hw : Within [.engines, .jobs] pts) {bef : State} {s : State} (c : Nat) (e
    : Nat) (h : bef.Keeps pts s) : bef.Keeps pts (State.shiftWindow s c e) := by
  unfold State.shiftWindow
  repeat' (first
    | with_reducible assumption | ((with_reducible refine Within.sub hw ?_); decide)
    | (fail_if_no_progress extract_lets -underBinder -merge -useContext +onlyGivenNames z
       first
       | (refine keeps_cut (s := z) ?_ ?_; (on_goal 1 => unfold z); on_goal 2 => (intro _; try clear_value z))
       | try clear_value z)
    | with_reducible apply State.acceptWindow_keeps | with_reducible apply State.countPolicy_keeps
    | with_reducible apply State.modEng_keeps | with_reducible apply keeps_ite | with_reducible apply keeps_ite_snd | split
    | ((with_reducible refine State.keeps_mk hw (by assumption) rfl ?_)
       intro p; cases p <;> (first | exact .inl (by decide) | exact .inr rfl))
    | (intro _; intros; try beta_reduce))

theorem State.boundary_keeps {pts : List Part} (hw : Within [.od, .engines, .jobs] pts) {bef : State} {s : State} (c : Nat)
    (e : Nat) (h : bef.Keeps pts s) : bef.Keeps pts (State.boundary s c e) := by
  unfold State.boundary
  repeat' (first
    | with_reducible assumption | ((with_reducible refine Within.sub hw ?_); decide)
    | (fail_if_no_progress extract_lets -underBinder -merge -useContext +onlyGivenNames z
       first
       | (refine keeps_cut (s := z) ?_ ?_; (on_goal 1 => unfold z); on_goal 2 => (intro _; try clear_value z))
       | try clear_value z)
    | with_reducible apply State.shiftWindow_keeps | with_reducible apply State.bump_keeps
    | with_reducible apply State.setVal_keeps | with_reducible apply State.modEng_keeps | with_reducible apply keeps_ite
    | with_reducible apply keeps_ite_snd | split
    | ((with_reducible refine State.keeps_mk hw (by assumption) rfl ?_)
       intro p; cases p <;> (first | exact .inl (by decide) | exact .inr rfl))
    | (intro _; intros; try beta_reduce))

theorem execWindowOpen_keeps (dt : Nat) (core : Fin 16) (eng : Fin 34) (s : State) :
    ∃ t, execWindowOpen dt core eng s = .next t ∧ (s.elapse dt).Keeps [.od, .engines, .jobs] t := by
  unfold execWindowOpen
  refine ⟨_, rfl, ?_⟩
  have hw : Within [.od, .engines, .jobs] [.od, .engines, .jobs] := fun _ h => h
  have h := State.Keeps.refl [.od, .engines, .jobs] (s.elapse dt)
  generalize s.elapse dt = bef at h ⊢
  repeat' (first
    | with_reducible assumption | ((with_reducible refine Within.sub hw ?_); decide)
    | (fail_if_no_progress extract_lets -underBinder -merge -useContext +onlyGivenNames z
       first
       | (refine keeps_cut (s := z) ?_ ?_; (on_goal 1 => unfold z); on_goal 2 => (intro _; try clear_value z))
       | try clear_value z)
    | with_reducible apply State.boundary_keeps | with_reducible apply keeps_ite | with_reducible apply keeps_ite_snd
    | split | (intro _; intros; try beta_reduce))

end Sys2Proof.Machine
end

