-- ==== Sys2Proof/Laws/Raise.lean ====
section
/-! SUPPORT. Counting, noting a peak, raising an event and clearing an alarm leave every other part of the state as it was. -/

namespace Sys2Proof.Machine

@[simp] theorem State.bump_out (s : State) (i k n : Nat) : (s.bump i k n).out = s.out :=
  (State.bump_keeps (Within.refl _) _ _ _ (.refl _ s)).out_eq (by decide)
@[simp] theorem State.bump_clock (s : State) (i k n : Nat) : (s.bump i k n).clock = s.clock :=
  (State.bump_keeps (Within.refl _) _ _ _ (.refl _ s)).clock_eq (by decide)
@[simp] theorem State.bump_time (s : State) (i k n : Nat) : (s.bump i k n).time = s.time :=
  (State.bump_keeps (Within.refl _) _ _ _ (.refl _ s)).time_eq (by decide)
@[simp] theorem State.bump_run (s : State) (i k n : Nat) : (s.bump i k n).run = s.run :=
  (State.bump_keeps (Within.refl _) _ _ _ (.refl _ s)).run_eq (by decide)
@[simp] theorem State.bump_units (s : State) (i k n : Nat) : (s.bump i k n).units = s.units :=
  (State.bump_keeps (Within.refl _) _ _ _ (.refl _ s)).units_eq (by decide)
@[simp] theorem State.bump_mem (s : State) (i k n : Nat) : (s.bump i k n).mem = s.mem :=
  (State.bump_keeps (Within.refl _) _ _ _ (.refl _ s)).mem_eq (by decide)
@[simp] theorem State.bump_stackScrub (s : State) (i k n : Nat) : (s.bump i k n).stackScrub = s.stackScrub :=
  (State.bump_keeps (Within.refl _) _ _ _ (.refl _ s)).stackScrub_eq (by decide)
@[simp] theorem State.bump_cores (s : State) (i k n : Nat) : (s.bump i k n).cores = s.cores :=
  (State.bump_keeps (Within.refl _) _ _ _ (.refl _ s)).cores_eq (by decide)
@[simp] theorem State.bump_engines (s : State) (i k n : Nat) : (s.bump i k n).engines = s.engines :=
  (State.bump_keeps (Within.refl _) _ _ _ (.refl _ s)).engines_eq (by decide)
@[simp] theorem State.bump_jobs (s : State) (i k n : Nat) : (s.bump i k n).jobs = s.jobs :=
  (State.bump_keeps (Within.refl _) _ _ _ (.refl _ s)).jobs_eq (by decide)
@[simp] theorem State.bump_streams (s : State) (i k n : Nat) : (s.bump i k n).streams = s.streams :=
  (State.bump_keeps (Within.refl _) _ _ _ (.refl _ s)).streams_eq (by decide)
@[simp] theorem State.bump_sched (s : State) (i k n : Nat) : (s.bump i k n).sched = s.sched :=
  (State.bump_keeps (Within.refl _) _ _ _ (.refl _ s)).sched_eq (by decide)
@[simp] theorem State.bump_pins (s : State) (i k n : Nat) : (s.bump i k n).pins = s.pins :=
  (State.bump_keeps (Within.refl _) _ _ _ (.refl _ s)).pins_eq (by decide)
@[simp] theorem State.bump_epoch (s : State) (i k n : Nat) : (s.bump i k n).epoch = s.epoch :=
  (State.bump_keeps (Within.refl _) _ _ _ (.refl _ s)).epoch_eq (by decide)
@[simp] theorem State.bump_ports (s : State) (i k n : Nat) : (s.bump i k n).ports = s.ports :=
  (State.bump_keeps (Within.refl _) _ _ _ (.refl _ s)).ports_eq (by decide)
@[simp] theorem State.bump_qps (s : State) (i k n : Nat) : (s.bump i k n).qps = s.qps :=
  (State.bump_keeps (Within.refl _) _ _ _ (.refl _ s)).qps_eq (by decide)
@[simp] theorem State.bump_fabric (s : State) (i k n : Nat) : (s.bump i k n).fabric = s.fabric :=
  (State.bump_keeps (Within.refl _) _ _ _ (.refl _ s)).fabric_eq (by decide)
@[simp] theorem State.bump_twin (s : State) (i k n : Nat) : (s.bump i k n).twin = s.twin :=
  (State.bump_keeps (Within.refl _) _ _ _ (.refl _ s)).twin_eq (by decide)
@[simp] theorem State.bump_hosts (s : State) (i k n : Nat) : (s.bump i k n).hosts = s.hosts :=
  (State.bump_keeps (Within.refl _) _ _ _ (.refl _ s)).hosts_eq (by decide)
@[simp] theorem State.bump_round (s : State) (i k n : Nat) : (s.bump i k n).round = s.round :=
  (State.bump_keeps (Within.refl _) _ _ _ (.refl _ s)).round_eq (by decide)
@[simp] theorem State.bump_security (s : State) (i k n : Nat) : (s.bump i k n).security = s.security :=
  (State.bump_keeps (Within.refl _) _ _ _ (.refl _ s)).security_eq (by decide)
@[simp] theorem State.bump_loops (s : State) (i k n : Nat) : (s.bump i k n).loops = s.loops :=
  (State.bump_keeps (Within.refl _) _ _ _ (.refl _ s)).loops_eq (by decide)
@[simp] theorem State.bump_convs (s : State) (i k n : Nat) : (s.bump i k n).convs = s.convs :=
  (State.bump_keeps (Within.refl _) _ _ _ (.refl _ s)).convs_eq (by decide)
@[simp] theorem State.bump_sensors (s : State) (i k n : Nat) : (s.bump i k n).sensors = s.sensors :=
  (State.bump_keeps (Within.refl _) _ _ _ (.refl _ s)).sensors_eq (by decide)
@[simp] theorem State.bump_zones (s : State) (i k n : Nat) : (s.bump i k n).zones = s.zones :=
  (State.bump_keeps (Within.refl _) _ _ _ (.refl _ s)).zones_eq (by decide)
@[simp] theorem State.bump_cartridges (s : State) (i k n : Nat) : (s.bump i k n).cartridges = s.cartridges :=
  (State.bump_keeps (Within.refl _) _ _ _ (.refl _ s)).cartridges_eq (by decide)
@[simp] theorem State.bump_power (s : State) (i k n : Nat) : (s.bump i k n).power = s.power :=
  (State.bump_keeps (Within.refl _) _ _ _ (.refl _ s)).power_eq (by decide)
@[simp] theorem State.bump_events (s : State) (i k n : Nat) : (s.bump i k n).events = s.events :=
  (State.bump_keeps (Within.refl _) _ _ _ (.refl _ s)).events_eq (by decide)
@[simp] theorem State.bump_al (s : State) (i k n : Nat) : (s.bump i k n).al = s.al :=
  (State.bump_keeps (Within.refl _) _ _ _ (.refl _ s)).al_eq (by decide)
@[simp] theorem State.bump_sdo (s : State) (i k n : Nat) : (s.bump i k n).sdo = s.sdo :=
  (State.bump_keeps (Within.refl _) _ _ _ (.refl _ s)).sdo_eq (by decide)
@[simp] theorem State.bump_sm3 (s : State) (i k n : Nat) : (s.bump i k n).sm3 = s.sm3 :=
  (State.bump_keeps (Within.refl _) _ _ _ (.refl _ s)).sm3_eq (by decide)
@[simp] theorem State.bump_summaries (s : State) (i k n : Nat) : (s.bump i k n).summaries = s.summaries :=
  (State.bump_keeps (Within.refl _) _ _ _ (.refl _ s)).summaries_eq (by decide)
@[simp] theorem State.bump_selects (s : State) (i k n : Nat) : (s.bump i k n).selects = s.selects :=
  (State.bump_keeps (Within.refl _) _ _ _ (.refl _ s)).selects_eq (by decide)
@[simp] theorem State.bump_free (s : State) (i k n : Nat) : (s.bump i k n).free = s.free :=
  (State.bump_keeps (Within.refl _) _ _ _ (.refl _ s)).free_eq (by decide)
@[simp] theorem State.bump_pending (s : State) (i k n : Nat) : (s.bump i k n).pending = s.pending :=
  (State.bump_keeps (Within.refl _) _ _ _ (.refl _ s)).queue
@[simp] theorem State.bump_core (s : State) (i k n : Nat) (x : Nat) : (s.bump i k n).core x = s.core x :=
  (State.bump_keeps (Within.refl _) _ _ _ (.refl _ s)).core_eq x (by decide)
@[simp] theorem State.bump_eng (s : State) (i k n : Nat) (x y : Nat) : (s.bump i k n).eng x y = s.eng x y :=
  (State.bump_keeps (Within.refl _) _ _ _ (.refl _ s)).eng_eq x y (by decide)
@[simp] theorem State.bump_job (s : State) (i k n : Nat) (x : Nat) : (s.bump i k n).job x = s.job x :=
  (State.bump_keeps (Within.refl _) _ _ _ (.refl _ s)).job_eq x (by decide)
@[simp] theorem State.bump_stream (s : State) (i k n : Nat) (x : Nat) : (s.bump i k n).stream x = s.stream x :=
  (State.bump_keeps (Within.refl _) _ _ _ (.refl _ s)).stream_eq x (by decide)
@[simp] theorem State.bump_port (s : State) (i k n : Nat) (x : Nat) : (s.bump i k n).port x = s.port x :=
  (State.bump_keeps (Within.refl _) _ _ _ (.refl _ s)).port_eq x (by decide)
@[simp] theorem State.bump_qp (s : State) (i k n : Nat) (x : Nat) : (s.bump i k n).qp x = s.qp x :=
  (State.bump_keeps (Within.refl _) _ _ _ (.refl _ s)).qp_eq x (by decide)
@[simp] theorem State.bump_host (s : State) (i k n : Nat) (x : Nat) : (s.bump i k n).host x = s.host x :=
  (State.bump_keeps (Within.refl _) _ _ _ (.refl _ s)).host_eq x (by decide)
@[simp] theorem State.bump_loopCore (s : State) (i k n : Nat) (x : Nat) : (s.bump i k n).loopCore x = s.loopCore x :=
  (State.bump_keeps (Within.refl _) _ _ _ (.refl _ s)).loopCore_eq x (by decide)
@[simp] theorem State.bump_conv (s : State) (i k n : Nat) (x : Nat) : (s.bump i k n).conv x = s.conv x :=
  (State.bump_keeps (Within.refl _) _ _ _ (.refl _ s)).conv_eq x (by decide)
@[simp] theorem State.bump_zone (s : State) (i k n : Nat) (x : Nat) : (s.bump i k n).zone x = s.zone x :=
  (State.bump_keeps (Within.refl _) _ _ _ (.refl _ s)).zone_eq x (by decide)
@[simp] theorem State.bump_cart (s : State) (i k n : Nat) (x : Nat) : (s.bump i k n).cart x = s.cart x :=
  (State.bump_keeps (Within.refl _) _ _ _ (.refl _ s)).cart_eq x (by decide)
@[simp] theorem State.bump_unit (s : State) (i k n : Nat) (x : Nat) : (s.bump i k n).unit x = s.unit x :=
  (State.bump_keeps (Within.refl _) _ _ _ (.refl _ s)).unit_eq x (by decide)
@[simp] theorem State.bump_up (s : State) (i k n : Nat) : (s.bump i k n).up = s.up :=
  (State.bump_keeps (Within.refl _) _ _ _ (.refl _ s)).up
@[simp] theorem State.bump_ns (s : State) (i k n : Nat) : (s.bump i k n).ns = s.ns :=
  (State.bump_keeps (Within.refl _) _ _ _ (.refl _ s)).ns_eq (by decide)

@[simp] theorem State.raiseTo_out (s : State) (i k v : Nat) : (s.raiseTo i k v).out = s.out :=
  (State.raiseTo_keeps (Within.refl _) _ _ _ (.refl _ s)).out_eq (by decide)
@[simp] theorem State.raiseTo_clock (s : State) (i k v : Nat) : (s.raiseTo i k v).clock = s.clock :=
  (State.raiseTo_keeps (Within.refl _) _ _ _ (.refl _ s)).clock_eq (by decide)
@[simp] theorem State.raiseTo_time (s : State) (i k v : Nat) : (s.raiseTo i k v).time = s.time :=
  (State.raiseTo_keeps (Within.refl _) _ _ _ (.refl _ s)).time_eq (by decide)
@[simp] theorem State.raiseTo_run (s : State) (i k v : Nat) : (s.raiseTo i k v).run = s.run :=
  (State.raiseTo_keeps (Within.refl _) _ _ _ (.refl _ s)).run_eq (by decide)
@[simp] theorem State.raiseTo_units (s : State) (i k v : Nat) : (s.raiseTo i k v).units = s.units :=
  (State.raiseTo_keeps (Within.refl _) _ _ _ (.refl _ s)).units_eq (by decide)
@[simp] theorem State.raiseTo_mem (s : State) (i k v : Nat) : (s.raiseTo i k v).mem = s.mem :=
  (State.raiseTo_keeps (Within.refl _) _ _ _ (.refl _ s)).mem_eq (by decide)
@[simp] theorem State.raiseTo_stackScrub (s : State) (i k v : Nat) : (s.raiseTo i k v).stackScrub = s.stackScrub :=
  (State.raiseTo_keeps (Within.refl _) _ _ _ (.refl _ s)).stackScrub_eq (by decide)
@[simp] theorem State.raiseTo_cores (s : State) (i k v : Nat) : (s.raiseTo i k v).cores = s.cores :=
  (State.raiseTo_keeps (Within.refl _) _ _ _ (.refl _ s)).cores_eq (by decide)
@[simp] theorem State.raiseTo_engines (s : State) (i k v : Nat) : (s.raiseTo i k v).engines = s.engines :=
  (State.raiseTo_keeps (Within.refl _) _ _ _ (.refl _ s)).engines_eq (by decide)
@[simp] theorem State.raiseTo_jobs (s : State) (i k v : Nat) : (s.raiseTo i k v).jobs = s.jobs :=
  (State.raiseTo_keeps (Within.refl _) _ _ _ (.refl _ s)).jobs_eq (by decide)
@[simp] theorem State.raiseTo_streams (s : State) (i k v : Nat) : (s.raiseTo i k v).streams = s.streams :=
  (State.raiseTo_keeps (Within.refl _) _ _ _ (.refl _ s)).streams_eq (by decide)
@[simp] theorem State.raiseTo_sched (s : State) (i k v : Nat) : (s.raiseTo i k v).sched = s.sched :=
  (State.raiseTo_keeps (Within.refl _) _ _ _ (.refl _ s)).sched_eq (by decide)
@[simp] theorem State.raiseTo_pins (s : State) (i k v : Nat) : (s.raiseTo i k v).pins = s.pins :=
  (State.raiseTo_keeps (Within.refl _) _ _ _ (.refl _ s)).pins_eq (by decide)
@[simp] theorem State.raiseTo_epoch (s : State) (i k v : Nat) : (s.raiseTo i k v).epoch = s.epoch :=
  (State.raiseTo_keeps (Within.refl _) _ _ _ (.refl _ s)).epoch_eq (by decide)
@[simp] theorem State.raiseTo_ports (s : State) (i k v : Nat) : (s.raiseTo i k v).ports = s.ports :=
  (State.raiseTo_keeps (Within.refl _) _ _ _ (.refl _ s)).ports_eq (by decide)
@[simp] theorem State.raiseTo_qps (s : State) (i k v : Nat) : (s.raiseTo i k v).qps = s.qps :=
  (State.raiseTo_keeps (Within.refl _) _ _ _ (.refl _ s)).qps_eq (by decide)
@[simp] theorem State.raiseTo_fabric (s : State) (i k v : Nat) : (s.raiseTo i k v).fabric = s.fabric :=
  (State.raiseTo_keeps (Within.refl _) _ _ _ (.refl _ s)).fabric_eq (by decide)
@[simp] theorem State.raiseTo_twin (s : State) (i k v : Nat) : (s.raiseTo i k v).twin = s.twin :=
  (State.raiseTo_keeps (Within.refl _) _ _ _ (.refl _ s)).twin_eq (by decide)
@[simp] theorem State.raiseTo_hosts (s : State) (i k v : Nat) : (s.raiseTo i k v).hosts = s.hosts :=
  (State.raiseTo_keeps (Within.refl _) _ _ _ (.refl _ s)).hosts_eq (by decide)
@[simp] theorem State.raiseTo_round (s : State) (i k v : Nat) : (s.raiseTo i k v).round = s.round :=
  (State.raiseTo_keeps (Within.refl _) _ _ _ (.refl _ s)).round_eq (by decide)
@[simp] theorem State.raiseTo_security (s : State) (i k v : Nat) : (s.raiseTo i k v).security = s.security :=
  (State.raiseTo_keeps (Within.refl _) _ _ _ (.refl _ s)).security_eq (by decide)
@[simp] theorem State.raiseTo_loops (s : State) (i k v : Nat) : (s.raiseTo i k v).loops = s.loops :=
  (State.raiseTo_keeps (Within.refl _) _ _ _ (.refl _ s)).loops_eq (by decide)
@[simp] theorem State.raiseTo_convs (s : State) (i k v : Nat) : (s.raiseTo i k v).convs = s.convs :=
  (State.raiseTo_keeps (Within.refl _) _ _ _ (.refl _ s)).convs_eq (by decide)
@[simp] theorem State.raiseTo_sensors (s : State) (i k v : Nat) : (s.raiseTo i k v).sensors = s.sensors :=
  (State.raiseTo_keeps (Within.refl _) _ _ _ (.refl _ s)).sensors_eq (by decide)
@[simp] theorem State.raiseTo_zones (s : State) (i k v : Nat) : (s.raiseTo i k v).zones = s.zones :=
  (State.raiseTo_keeps (Within.refl _) _ _ _ (.refl _ s)).zones_eq (by decide)
@[simp] theorem State.raiseTo_cartridges (s : State) (i k v : Nat) : (s.raiseTo i k v).cartridges = s.cartridges :=
  (State.raiseTo_keeps (Within.refl _) _ _ _ (.refl _ s)).cartridges_eq (by decide)
@[simp] theorem State.raiseTo_power (s : State) (i k v : Nat) : (s.raiseTo i k v).power = s.power :=
  (State.raiseTo_keeps (Within.refl _) _ _ _ (.refl _ s)).power_eq (by decide)
@[simp] theorem State.raiseTo_events (s : State) (i k v : Nat) : (s.raiseTo i k v).events = s.events :=
  (State.raiseTo_keeps (Within.refl _) _ _ _ (.refl _ s)).events_eq (by decide)
@[simp] theorem State.raiseTo_al (s : State) (i k v : Nat) : (s.raiseTo i k v).al = s.al :=
  (State.raiseTo_keeps (Within.refl _) _ _ _ (.refl _ s)).al_eq (by decide)
@[simp] theorem State.raiseTo_sdo (s : State) (i k v : Nat) : (s.raiseTo i k v).sdo = s.sdo :=
  (State.raiseTo_keeps (Within.refl _) _ _ _ (.refl _ s)).sdo_eq (by decide)
@[simp] theorem State.raiseTo_sm3 (s : State) (i k v : Nat) : (s.raiseTo i k v).sm3 = s.sm3 :=
  (State.raiseTo_keeps (Within.refl _) _ _ _ (.refl _ s)).sm3_eq (by decide)
@[simp] theorem State.raiseTo_summaries (s : State) (i k v : Nat) : (s.raiseTo i k v).summaries = s.summaries :=
  (State.raiseTo_keeps (Within.refl _) _ _ _ (.refl _ s)).summaries_eq (by decide)
@[simp] theorem State.raiseTo_selects (s : State) (i k v : Nat) : (s.raiseTo i k v).selects = s.selects :=
  (State.raiseTo_keeps (Within.refl _) _ _ _ (.refl _ s)).selects_eq (by decide)
@[simp] theorem State.raiseTo_free (s : State) (i k v : Nat) : (s.raiseTo i k v).free = s.free :=
  (State.raiseTo_keeps (Within.refl _) _ _ _ (.refl _ s)).free_eq (by decide)
@[simp] theorem State.raiseTo_pending (s : State) (i k v : Nat) : (s.raiseTo i k v).pending = s.pending :=
  (State.raiseTo_keeps (Within.refl _) _ _ _ (.refl _ s)).queue
@[simp] theorem State.raiseTo_core (s : State) (i k v : Nat) (x : Nat) : (s.raiseTo i k v).core x = s.core x :=
  (State.raiseTo_keeps (Within.refl _) _ _ _ (.refl _ s)).core_eq x (by decide)
@[simp] theorem State.raiseTo_eng (s : State) (i k v : Nat) (x y : Nat) : (s.raiseTo i k v).eng x y = s.eng x y :=
  (State.raiseTo_keeps (Within.refl _) _ _ _ (.refl _ s)).eng_eq x y (by decide)
@[simp] theorem State.raiseTo_job (s : State) (i k v : Nat) (x : Nat) : (s.raiseTo i k v).job x = s.job x :=
  (State.raiseTo_keeps (Within.refl _) _ _ _ (.refl _ s)).job_eq x (by decide)
@[simp] theorem State.raiseTo_stream (s : State) (i k v : Nat) (x : Nat) : (s.raiseTo i k v).stream x = s.stream x :=
  (State.raiseTo_keeps (Within.refl _) _ _ _ (.refl _ s)).stream_eq x (by decide)
@[simp] theorem State.raiseTo_port (s : State) (i k v : Nat) (x : Nat) : (s.raiseTo i k v).port x = s.port x :=
  (State.raiseTo_keeps (Within.refl _) _ _ _ (.refl _ s)).port_eq x (by decide)
@[simp] theorem State.raiseTo_qp (s : State) (i k v : Nat) (x : Nat) : (s.raiseTo i k v).qp x = s.qp x :=
  (State.raiseTo_keeps (Within.refl _) _ _ _ (.refl _ s)).qp_eq x (by decide)
@[simp] theorem State.raiseTo_host (s : State) (i k v : Nat) (x : Nat) : (s.raiseTo i k v).host x = s.host x :=
  (State.raiseTo_keeps (Within.refl _) _ _ _ (.refl _ s)).host_eq x (by decide)
@[simp] theorem State.raiseTo_loopCore (s : State) (i k v : Nat) (x : Nat) : (s.raiseTo i k v).loopCore x = s.loopCore x :=
  (State.raiseTo_keeps (Within.refl _) _ _ _ (.refl _ s)).loopCore_eq x (by decide)
@[simp] theorem State.raiseTo_conv (s : State) (i k v : Nat) (x : Nat) : (s.raiseTo i k v).conv x = s.conv x :=
  (State.raiseTo_keeps (Within.refl _) _ _ _ (.refl _ s)).conv_eq x (by decide)
@[simp] theorem State.raiseTo_zone (s : State) (i k v : Nat) (x : Nat) : (s.raiseTo i k v).zone x = s.zone x :=
  (State.raiseTo_keeps (Within.refl _) _ _ _ (.refl _ s)).zone_eq x (by decide)
@[simp] theorem State.raiseTo_cart (s : State) (i k v : Nat) (x : Nat) : (s.raiseTo i k v).cart x = s.cart x :=
  (State.raiseTo_keeps (Within.refl _) _ _ _ (.refl _ s)).cart_eq x (by decide)
@[simp] theorem State.raiseTo_unit (s : State) (i k v : Nat) (x : Nat) : (s.raiseTo i k v).unit x = s.unit x :=
  (State.raiseTo_keeps (Within.refl _) _ _ _ (.refl _ s)).unit_eq x (by decide)
@[simp] theorem State.raiseTo_up (s : State) (i k v : Nat) : (s.raiseTo i k v).up = s.up :=
  (State.raiseTo_keeps (Within.refl _) _ _ _ (.refl _ s)).up
@[simp] theorem State.raiseTo_ns (s : State) (i k v : Nat) : (s.raiseTo i k v).ns = s.ns :=
  (State.raiseTo_keeps (Within.refl _) _ _ _ (.refl _ s)).ns_eq (by decide)

@[simp] theorem State.raise_out (s : State) (code source detail : Nat) : (s.raise code source detail).out = s.out :=
  (State.raise_keeps (Within.refl _) _ _ _ (.refl _ s)).out_eq (by decide)
@[simp] theorem State.raise_clock (s : State) (code source detail : Nat) : (s.raise code source detail).clock = s.clock :=
  (State.raise_keeps (Within.refl _) _ _ _ (.refl _ s)).clock_eq (by decide)
@[simp] theorem State.raise_time (s : State) (code source detail : Nat) : (s.raise code source detail).time = s.time :=
  (State.raise_keeps (Within.refl _) _ _ _ (.refl _ s)).time_eq (by decide)
@[simp] theorem State.raise_run (s : State) (code source detail : Nat) : (s.raise code source detail).run = s.run :=
  (State.raise_keeps (Within.refl _) _ _ _ (.refl _ s)).run_eq (by decide)
@[simp] theorem State.raise_units (s : State) (code source detail : Nat) : (s.raise code source detail).units = s.units :=
  (State.raise_keeps (Within.refl _) _ _ _ (.refl _ s)).units_eq (by decide)
@[simp] theorem State.raise_mem (s : State) (code source detail : Nat) : (s.raise code source detail).mem = s.mem :=
  (State.raise_keeps (Within.refl _) _ _ _ (.refl _ s)).mem_eq (by decide)
@[simp] theorem State.raise_stackScrub (s : State) (code source detail : Nat) : (s.raise code source detail).stackScrub = s.stackScrub :=
  (State.raise_keeps (Within.refl _) _ _ _ (.refl _ s)).stackScrub_eq (by decide)
@[simp] theorem State.raise_cores (s : State) (code source detail : Nat) : (s.raise code source detail).cores = s.cores :=
  (State.raise_keeps (Within.refl _) _ _ _ (.refl _ s)).cores_eq (by decide)
@[simp] theorem State.raise_engines (s : State) (code source detail : Nat) : (s.raise code source detail).engines = s.engines :=
  (State.raise_keeps (Within.refl _) _ _ _ (.refl _ s)).engines_eq (by decide)
@[simp] theorem State.raise_jobs (s : State) (code source detail : Nat) : (s.raise code source detail).jobs = s.jobs :=
  (State.raise_keeps (Within.refl _) _ _ _ (.refl _ s)).jobs_eq (by decide)
@[simp] theorem State.raise_streams (s : State) (code source detail : Nat) : (s.raise code source detail).streams = s.streams :=
  (State.raise_keeps (Within.refl _) _ _ _ (.refl _ s)).streams_eq (by decide)
@[simp] theorem State.raise_sched (s : State) (code source detail : Nat) : (s.raise code source detail).sched = s.sched :=
  (State.raise_keeps (Within.refl _) _ _ _ (.refl _ s)).sched_eq (by decide)
@[simp] theorem State.raise_pins (s : State) (code source detail : Nat) : (s.raise code source detail).pins = s.pins :=
  (State.raise_keeps (Within.refl _) _ _ _ (.refl _ s)).pins_eq (by decide)
@[simp] theorem State.raise_epoch (s : State) (code source detail : Nat) : (s.raise code source detail).epoch = s.epoch :=
  (State.raise_keeps (Within.refl _) _ _ _ (.refl _ s)).epoch_eq (by decide)
@[simp] theorem State.raise_ports (s : State) (code source detail : Nat) : (s.raise code source detail).ports = s.ports :=
  (State.raise_keeps (Within.refl _) _ _ _ (.refl _ s)).ports_eq (by decide)
@[simp] theorem State.raise_qps (s : State) (code source detail : Nat) : (s.raise code source detail).qps = s.qps :=
  (State.raise_keeps (Within.refl _) _ _ _ (.refl _ s)).qps_eq (by decide)
@[simp] theorem State.raise_fabric (s : State) (code source detail : Nat) : (s.raise code source detail).fabric = s.fabric :=
  (State.raise_keeps (Within.refl _) _ _ _ (.refl _ s)).fabric_eq (by decide)
@[simp] theorem State.raise_twin (s : State) (code source detail : Nat) : (s.raise code source detail).twin = s.twin :=
  (State.raise_keeps (Within.refl _) _ _ _ (.refl _ s)).twin_eq (by decide)
@[simp] theorem State.raise_round (s : State) (code source detail : Nat) : (s.raise code source detail).round = s.round :=
  (State.raise_keeps (Within.refl _) _ _ _ (.refl _ s)).round_eq (by decide)
@[simp] theorem State.raise_security (s : State) (code source detail : Nat) : (s.raise code source detail).security = s.security :=
  (State.raise_keeps (Within.refl _) _ _ _ (.refl _ s)).security_eq (by decide)
@[simp] theorem State.raise_loops (s : State) (code source detail : Nat) : (s.raise code source detail).loops = s.loops :=
  (State.raise_keeps (Within.refl _) _ _ _ (.refl _ s)).loops_eq (by decide)
@[simp] theorem State.raise_convs (s : State) (code source detail : Nat) : (s.raise code source detail).convs = s.convs :=
  (State.raise_keeps (Within.refl _) _ _ _ (.refl _ s)).convs_eq (by decide)
@[simp] theorem State.raise_sensors (s : State) (code source detail : Nat) : (s.raise code source detail).sensors = s.sensors :=
  (State.raise_keeps (Within.refl _) _ _ _ (.refl _ s)).sensors_eq (by decide)
@[simp] theorem State.raise_zones (s : State) (code source detail : Nat) : (s.raise code source detail).zones = s.zones :=
  (State.raise_keeps (Within.refl _) _ _ _ (.refl _ s)).zones_eq (by decide)
@[simp] theorem State.raise_cartridges (s : State) (code source detail : Nat) : (s.raise code source detail).cartridges = s.cartridges :=
  (State.raise_keeps (Within.refl _) _ _ _ (.refl _ s)).cartridges_eq (by decide)
@[simp] theorem State.raise_power (s : State) (code source detail : Nat) : (s.raise code source detail).power = s.power :=
  (State.raise_keeps (Within.refl _) _ _ _ (.refl _ s)).power_eq (by decide)
@[simp] theorem State.raise_al (s : State) (code source detail : Nat) : (s.raise code source detail).al = s.al :=
  (State.raise_keeps (Within.refl _) _ _ _ (.refl _ s)).al_eq (by decide)
@[simp] theorem State.raise_sdo (s : State) (code source detail : Nat) : (s.raise code source detail).sdo = s.sdo :=
  (State.raise_keeps (Within.refl _) _ _ _ (.refl _ s)).sdo_eq (by decide)
@[simp] theorem State.raise_sm3 (s : State) (code source detail : Nat) : (s.raise code source detail).sm3 = s.sm3 :=
  (State.raise_keeps (Within.refl _) _ _ _ (.refl _ s)).sm3_eq (by decide)
@[simp] theorem State.raise_summaries (s : State) (code source detail : Nat) : (s.raise code source detail).summaries = s.summaries :=
  (State.raise_keeps (Within.refl _) _ _ _ (.refl _ s)).summaries_eq (by decide)
@[simp] theorem State.raise_selects (s : State) (code source detail : Nat) : (s.raise code source detail).selects = s.selects :=
  (State.raise_keeps (Within.refl _) _ _ _ (.refl _ s)).selects_eq (by decide)
@[simp] theorem State.raise_free (s : State) (code source detail : Nat) : (s.raise code source detail).free = s.free :=
  (State.raise_keeps (Within.refl _) _ _ _ (.refl _ s)).free_eq (by decide)
@[simp] theorem State.raise_pending (s : State) (code source detail : Nat) : (s.raise code source detail).pending = s.pending :=
  (State.raise_keeps (Within.refl _) _ _ _ (.refl _ s)).queue
@[simp] theorem State.raise_core (s : State) (code source detail : Nat) (x : Nat) : (s.raise code source detail).core x = s.core x :=
  (State.raise_keeps (Within.refl _) _ _ _ (.refl _ s)).core_eq x (by decide)
@[simp] theorem State.raise_eng (s : State) (code source detail : Nat) (x y : Nat) : (s.raise code source detail).eng x y = s.eng x y :=
  (State.raise_keeps (Within.refl _) _ _ _ (.refl _ s)).eng_eq x y (by decide)
@[simp] theorem State.raise_job (s : State) (code source detail : Nat) (x : Nat) : (s.raise code source detail).job x = s.job x :=
  (State.raise_keeps (Within.refl _) _ _ _ (.refl _ s)).job_eq x (by decide)
@[simp] theorem State.raise_stream (s : State) (code source detail : Nat) (x : Nat) : (s.raise code source detail).stream x = s.stream x :=
  (State.raise_keeps (Within.refl _) _ _ _ (.refl _ s)).stream_eq x (by decide)
@[simp] theorem State.raise_port (s : State) (code source detail : Nat) (x : Nat) : (s.raise code source detail).port x = s.port x :=
  (State.raise_keeps (Within.refl _) _ _ _ (.refl _ s)).port_eq x (by decide)
@[simp] theorem State.raise_qp (s : State) (code source detail : Nat) (x : Nat) : (s.raise code source detail).qp x = s.qp x :=
  (State.raise_keeps (Within.refl _) _ _ _ (.refl _ s)).qp_eq x (by decide)
@[simp] theorem State.raise_loopCore (s : State) (code source detail : Nat) (x : Nat) : (s.raise code source detail).loopCore x = s.loopCore x :=
  (State.raise_keeps (Within.refl _) _ _ _ (.refl _ s)).loopCore_eq x (by decide)
@[simp] theorem State.raise_conv (s : State) (code source detail : Nat) (x : Nat) : (s.raise code source detail).conv x = s.conv x :=
  (State.raise_keeps (Within.refl _) _ _ _ (.refl _ s)).conv_eq x (by decide)
@[simp] theorem State.raise_zone (s : State) (code source detail : Nat) (x : Nat) : (s.raise code source detail).zone x = s.zone x :=
  (State.raise_keeps (Within.refl _) _ _ _ (.refl _ s)).zone_eq x (by decide)
@[simp] theorem State.raise_cart (s : State) (code source detail : Nat) (x : Nat) : (s.raise code source detail).cart x = s.cart x :=
  (State.raise_keeps (Within.refl _) _ _ _ (.refl _ s)).cart_eq x (by decide)
@[simp] theorem State.raise_unit (s : State) (code source detail : Nat) (x : Nat) : (s.raise code source detail).unit x = s.unit x :=
  (State.raise_keeps (Within.refl _) _ _ _ (.refl _ s)).unit_eq x (by decide)
@[simp] theorem State.raise_up (s : State) (code source detail : Nat) : (s.raise code source detail).up = s.up :=
  (State.raise_keeps (Within.refl _) _ _ _ (.refl _ s)).up
@[simp] theorem State.raise_ns (s : State) (code source detail : Nat) : (s.raise code source detail).ns = s.ns :=
  (State.raise_keeps (Within.refl _) _ _ _ (.refl _ s)).ns_eq (by decide)

@[simp] theorem State.clearAlarm_out (s : State) (code source : Nat) : (s.clearAlarm code source).out = s.out :=
  (State.clearAlarm_keeps (Within.refl _) _ _ (.refl _ s)).out_eq (by decide)
@[simp] theorem State.clearAlarm_clock (s : State) (code source : Nat) : (s.clearAlarm code source).clock = s.clock :=
  (State.clearAlarm_keeps (Within.refl _) _ _ (.refl _ s)).clock_eq (by decide)
@[simp] theorem State.clearAlarm_time (s : State) (code source : Nat) : (s.clearAlarm code source).time = s.time :=
  (State.clearAlarm_keeps (Within.refl _) _ _ (.refl _ s)).time_eq (by decide)
@[simp] theorem State.clearAlarm_run (s : State) (code source : Nat) : (s.clearAlarm code source).run = s.run :=
  (State.clearAlarm_keeps (Within.refl _) _ _ (.refl _ s)).run_eq (by decide)
@[simp] theorem State.clearAlarm_units (s : State) (code source : Nat) : (s.clearAlarm code source).units = s.units :=
  (State.clearAlarm_keeps (Within.refl _) _ _ (.refl _ s)).units_eq (by decide)
@[simp] theorem State.clearAlarm_mem (s : State) (code source : Nat) : (s.clearAlarm code source).mem = s.mem :=
  (State.clearAlarm_keeps (Within.refl _) _ _ (.refl _ s)).mem_eq (by decide)
@[simp] theorem State.clearAlarm_stackScrub (s : State) (code source : Nat) : (s.clearAlarm code source).stackScrub = s.stackScrub :=
  (State.clearAlarm_keeps (Within.refl _) _ _ (.refl _ s)).stackScrub_eq (by decide)
@[simp] theorem State.clearAlarm_cores (s : State) (code source : Nat) : (s.clearAlarm code source).cores = s.cores :=
  (State.clearAlarm_keeps (Within.refl _) _ _ (.refl _ s)).cores_eq (by decide)
@[simp] theorem State.clearAlarm_engines (s : State) (code source : Nat) : (s.clearAlarm code source).engines = s.engines :=
  (State.clearAlarm_keeps (Within.refl _) _ _ (.refl _ s)).engines_eq (by decide)
@[simp] theorem State.clearAlarm_jobs (s : State) (code source : Nat) : (s.clearAlarm code source).jobs = s.jobs :=
  (State.clearAlarm_keeps (Within.refl _) _ _ (.refl _ s)).jobs_eq (by decide)
@[simp] theorem State.clearAlarm_streams (s : State) (code source : Nat) : (s.clearAlarm code source).streams = s.streams :=
  (State.clearAlarm_keeps (Within.refl _) _ _ (.refl _ s)).streams_eq (by decide)
@[simp] theorem State.clearAlarm_sched (s : State) (code source : Nat) : (s.clearAlarm code source).sched = s.sched :=
  (State.clearAlarm_keeps (Within.refl _) _ _ (.refl _ s)).sched_eq (by decide)
@[simp] theorem State.clearAlarm_pins (s : State) (code source : Nat) : (s.clearAlarm code source).pins = s.pins :=
  (State.clearAlarm_keeps (Within.refl _) _ _ (.refl _ s)).pins_eq (by decide)
@[simp] theorem State.clearAlarm_epoch (s : State) (code source : Nat) : (s.clearAlarm code source).epoch = s.epoch :=
  (State.clearAlarm_keeps (Within.refl _) _ _ (.refl _ s)).epoch_eq (by decide)
@[simp] theorem State.clearAlarm_ports (s : State) (code source : Nat) : (s.clearAlarm code source).ports = s.ports :=
  (State.clearAlarm_keeps (Within.refl _) _ _ (.refl _ s)).ports_eq (by decide)
@[simp] theorem State.clearAlarm_qps (s : State) (code source : Nat) : (s.clearAlarm code source).qps = s.qps :=
  (State.clearAlarm_keeps (Within.refl _) _ _ (.refl _ s)).qps_eq (by decide)
@[simp] theorem State.clearAlarm_fabric (s : State) (code source : Nat) : (s.clearAlarm code source).fabric = s.fabric :=
  (State.clearAlarm_keeps (Within.refl _) _ _ (.refl _ s)).fabric_eq (by decide)
@[simp] theorem State.clearAlarm_twin (s : State) (code source : Nat) : (s.clearAlarm code source).twin = s.twin :=
  (State.clearAlarm_keeps (Within.refl _) _ _ (.refl _ s)).twin_eq (by decide)
@[simp] theorem State.clearAlarm_round (s : State) (code source : Nat) : (s.clearAlarm code source).round = s.round :=
  (State.clearAlarm_keeps (Within.refl _) _ _ (.refl _ s)).round_eq (by decide)
@[simp] theorem State.clearAlarm_security (s : State) (code source : Nat) : (s.clearAlarm code source).security = s.security :=
  (State.clearAlarm_keeps (Within.refl _) _ _ (.refl _ s)).security_eq (by decide)
@[simp] theorem State.clearAlarm_loops (s : State) (code source : Nat) : (s.clearAlarm code source).loops = s.loops :=
  (State.clearAlarm_keeps (Within.refl _) _ _ (.refl _ s)).loops_eq (by decide)
@[simp] theorem State.clearAlarm_convs (s : State) (code source : Nat) : (s.clearAlarm code source).convs = s.convs :=
  (State.clearAlarm_keeps (Within.refl _) _ _ (.refl _ s)).convs_eq (by decide)
@[simp] theorem State.clearAlarm_sensors (s : State) (code source : Nat) : (s.clearAlarm code source).sensors = s.sensors :=
  (State.clearAlarm_keeps (Within.refl _) _ _ (.refl _ s)).sensors_eq (by decide)
@[simp] theorem State.clearAlarm_zones (s : State) (code source : Nat) : (s.clearAlarm code source).zones = s.zones :=
  (State.clearAlarm_keeps (Within.refl _) _ _ (.refl _ s)).zones_eq (by decide)
@[simp] theorem State.clearAlarm_cartridges (s : State) (code source : Nat) : (s.clearAlarm code source).cartridges = s.cartridges :=
  (State.clearAlarm_keeps (Within.refl _) _ _ (.refl _ s)).cartridges_eq (by decide)
@[simp] theorem State.clearAlarm_power (s : State) (code source : Nat) : (s.clearAlarm code source).power = s.power :=
  (State.clearAlarm_keeps (Within.refl _) _ _ (.refl _ s)).power_eq (by decide)
@[simp] theorem State.clearAlarm_al (s : State) (code source : Nat) : (s.clearAlarm code source).al = s.al :=
  (State.clearAlarm_keeps (Within.refl _) _ _ (.refl _ s)).al_eq (by decide)
@[simp] theorem State.clearAlarm_sdo (s : State) (code source : Nat) : (s.clearAlarm code source).sdo = s.sdo :=
  (State.clearAlarm_keeps (Within.refl _) _ _ (.refl _ s)).sdo_eq (by decide)
@[simp] theorem State.clearAlarm_sm3 (s : State) (code source : Nat) : (s.clearAlarm code source).sm3 = s.sm3 :=
  (State.clearAlarm_keeps (Within.refl _) _ _ (.refl _ s)).sm3_eq (by decide)
@[simp] theorem State.clearAlarm_summaries (s : State) (code source : Nat) : (s.clearAlarm code source).summaries = s.summaries :=
  (State.clearAlarm_keeps (Within.refl _) _ _ (.refl _ s)).summaries_eq (by decide)
@[simp] theorem State.clearAlarm_selects (s : State) (code source : Nat) : (s.clearAlarm code source).selects = s.selects :=
  (State.clearAlarm_keeps (Within.refl _) _ _ (.refl _ s)).selects_eq (by decide)
@[simp] theorem State.clearAlarm_free (s : State) (code source : Nat) : (s.clearAlarm code source).free = s.free :=
  (State.clearAlarm_keeps (Within.refl _) _ _ (.refl _ s)).free_eq (by decide)
@[simp] theorem State.clearAlarm_pending (s : State) (code source : Nat) : (s.clearAlarm code source).pending = s.pending :=
  (State.clearAlarm_keeps (Within.refl _) _ _ (.refl _ s)).queue
@[simp] theorem State.clearAlarm_core (s : State) (code source : Nat) (x : Nat) : (s.clearAlarm code source).core x = s.core x :=
  (State.clearAlarm_keeps (Within.refl _) _ _ (.refl _ s)).core_eq x (by decide)
@[simp] theorem State.clearAlarm_eng (s : State) (code source : Nat) (x y : Nat) : (s.clearAlarm code source).eng x y = s.eng x y :=
  (State.clearAlarm_keeps (Within.refl _) _ _ (.refl _ s)).eng_eq x y (by decide)
@[simp] theorem State.clearAlarm_job (s : State) (code source : Nat) (x : Nat) : (s.clearAlarm code source).job x = s.job x :=
  (State.clearAlarm_keeps (Within.refl _) _ _ (.refl _ s)).job_eq x (by decide)
@[simp] theorem State.clearAlarm_stream (s : State) (code source : Nat) (x : Nat) : (s.clearAlarm code source).stream x = s.stream x :=
  (State.clearAlarm_keeps (Within.refl _) _ _ (.refl _ s)).stream_eq x (by decide)
@[simp] theorem State.clearAlarm_port (s : State) (code source : Nat) (x : Nat) : (s.clearAlarm code source).port x = s.port x :=
  (State.clearAlarm_keeps (Within.refl _) _ _ (.refl _ s)).port_eq x (by decide)
@[simp] theorem State.clearAlarm_qp (s : State) (code source : Nat) (x : Nat) : (s.clearAlarm code source).qp x = s.qp x :=
  (State.clearAlarm_keeps (Within.refl _) _ _ (.refl _ s)).qp_eq x (by decide)
@[simp] theorem State.clearAlarm_loopCore (s : State) (code source : Nat) (x : Nat) : (s.clearAlarm code source).loopCore x = s.loopCore x :=
  (State.clearAlarm_keeps (Within.refl _) _ _ (.refl _ s)).loopCore_eq x (by decide)
@[simp] theorem State.clearAlarm_conv (s : State) (code source : Nat) (x : Nat) : (s.clearAlarm code source).conv x = s.conv x :=
  (State.clearAlarm_keeps (Within.refl _) _ _ (.refl _ s)).conv_eq x (by decide)
@[simp] theorem State.clearAlarm_zone (s : State) (code source : Nat) (x : Nat) : (s.clearAlarm code source).zone x = s.zone x :=
  (State.clearAlarm_keeps (Within.refl _) _ _ (.refl _ s)).zone_eq x (by decide)
@[simp] theorem State.clearAlarm_cart (s : State) (code source : Nat) (x : Nat) : (s.clearAlarm code source).cart x = s.cart x :=
  (State.clearAlarm_keeps (Within.refl _) _ _ (.refl _ s)).cart_eq x (by decide)
@[simp] theorem State.clearAlarm_unit (s : State) (code source : Nat) (x : Nat) : (s.clearAlarm code source).unit x = s.unit x :=
  (State.clearAlarm_keeps (Within.refl _) _ _ (.refl _ s)).unit_eq x (by decide)
@[simp] theorem State.clearAlarm_up (s : State) (code source : Nat) : (s.clearAlarm code source).up = s.up :=
  (State.clearAlarm_keeps (Within.refl _) _ _ (.refl _ s)).up
@[simp] theorem State.clearAlarm_ns (s : State) (code source : Nat) : (s.clearAlarm code source).ns = s.ns :=
  (State.clearAlarm_keeps (Within.refl _) _ _ (.refl _ s)).ns_eq (by decide)

end Sys2Proof.Machine
end

