-- ==== Sys2Proof/Laws/Levers.lean ====
section
/-! SUPPORT. The governor and what it notes of its levers leave the other entries and lever settings as they were. -/

namespace Sys2Proof.Machine

theorem State.noteLevers_val (s : State) (x y : Nat) (h : quiet x y) (hk : odKey x y ≠ odKey 0x4000 5) : s.noteLevers.val x y = s.val x y := by
  unfold State.noteLevers
  extract_lets p done high s1 s2
  have q1 : s1.val x y = s.val x y := by
    unfold s1
    split
    · split
      · rfl
      · exact s.bump_val_other _ _ _ _ _ hk
    · rfl
  have q2 : s2.val x y = s.val x y := by
    unfold s2
    split
    · exact (s1.clearAlarm_val _ _ _ _ h).trans q1
    · exact q1
  exact q2

theorem State.noteLevers_power (s : State) : s.noteLevers.power.pace = s.power.pace ∧ s.noteLevers.power.issue = s.power.issue ∧
    s.noteLevers.power.windows = s.power.windows ∧ s.noteLevers.power.rate = s.power.rate ∧
    s.noteLevers.power.admitLimit = s.power.admitLimit := by
  unfold State.noteLevers
  extract_lets p done high s1 s2
  have q1 : s1.power = s.power := by
    unfold s1
    split
    · split
      · rfl
      · exact (State.bump_keeps (pts := [.od]) (fun _ h => h) _ _ _ (State.Keeps.refl _ s)).rest .power (by decide)
    · rfl
  have q2 : s2.power = s.power := by
    unfold s2
    split
    · exact ((State.clearAlarm_keeps (pts := [.od, .hosts, .events]) (fun _ h => h) _ _ (State.Keeps.refl _ s1)).power_eq (by decide)).trans q1
    · exact q1
  rw [← q2]
  exact ⟨rfl, rfl, rfl, rfl, rfl⟩

theorem State.measure_val (s : State) (d x y : Nat) (h : quiet x y) (hk : odKey x y ≠ odKey 0x4000 5) (h2 : odKey x y ≠ odKey 0x4000 2)
    (h3 : odKey x y ≠ odKey 0x4000 3) : (s.measure d).val x y = s.val x y := by
  unfold State.measure State.raiseTo
  rw [State.noteLevers_val _ _ _ h hk]
  split
  · rw [State.setVal_val_other _ _ _ _ _ _ h3, State.setVal_val_other _ _ _ _ _ _ h2]
  · rw [State.setVal_val_other _ _ _ _ _ _ h2]

theorem State.measure_draw (s : State) (d : Nat) : (s.measure d).val 0x4000 2 = min d 65535 := by
  unfold State.measure State.raiseTo
  rw [State.noteLevers_val _ _ _ (by decide) (by decide)]
  split
  · rw [State.setVal_val_other _ _ _ _ _ _ (by decide), State.setVal_val_same]
  · rw [State.setVal_val_same]

theorem State.restretchAll_val (s : State) (x y : Nat) : s.restretchAll.val x y = s.val x y :=
  State.val_congr ((State.restretchAll_keeps (pts := [.cores]) (fun _ h => h) (State.Keeps.refl _ s)).rest .od (by decide)) x y

theorem State.restretchAll_power (s : State) : s.restretchAll.power = s.power :=
  (State.restretchAll_keeps (pts := [.cores]) (fun _ h => h) (State.Keeps.refl _ s)).rest .power (by decide)

end Sys2Proof.Machine
end

