-- ==== Sys2Proof/Laws/Engines.lean ====
section
/-! SUPPORT. What the operations on engines, vats and banks do to an engine, and to which engine alone. -/

namespace Sys2Proof.Machine

theorem bump_fold_eng (s : State) (c e : Nat) (a : AlignCount) (x y : Nat) : (s.countAlign c e a).eng x y = s.eng x y := by
  unfold State.countAlign; simp

theorem deliver (c : Nat) (a : AlignCount) (v : AVec) (l : List Nat) (hl : ∀ e ∈ l, e < 34) (s : State) :
    let t := l.foldl (fun s e => (s.countAlign c e a).modEng c e (fun g => { g with inbuf := g.inbuf ++ [v] })) s
    (∀ e, e < 34 → (e ∈ l ∨ (s.eng c e).inbuf.getLast? = some v) → (t.eng c e).inbuf.getLast? = some v) ∧
    (∀ x e, e < 34 → (x ≠ c ∨ e ∉ l) → t.eng x e = s.eng x e) := by
  induction l generalizing s with
  | nil => simp
  | cons e0 l ih =>
    have h0 := hl e0 List.mem_cons_self
    obtain ⟨i1, i2⟩ := ih (fun e he => hl e (List.mem_cons_of_mem _ he)) ((s.countAlign c e0 a).modEng c e0 (fun g => { g with inbuf := g.inbuf ++ [v] }))
    refine ⟨?_, ?_⟩
    · intro e he h
      refine i1 e he ?_
      by_cases hx : e = e0
      · subst hx; right; rw [State.modEng_eng_same]; simp
      · rcases h with h | h
        · left; exact (List.mem_cons.1 h).resolve_left hx
        · right; rw [State.modEng_eng_other _ _ _ _ _ _ h0 he (.inr hx), bump_fold_eng]; exact h
    · intro x e he h
      show (List.foldl _ ((s.countAlign c e0 a).modEng c e0 _) l).eng x e = _
      rw [i2 x e he (h.imp id (fun h m => h (List.mem_cons_of_mem _ m)))]
      rw [State.modEng_eng_other _ _ _ _ _ _ h0 he (h.imp id (fun h hx => h (hx ▸ List.mem_cons_self))), bump_fold_eng]

theorem State.countPolicy_eng (s : State) (c : Nat) (p : TvWord) (r : PassRun) (w : Window) (b : Bool) (x y : Nat) :
    (s.countPolicy c p r w b).eng x y = s.eng x y := (State.countPolicy_keeps (Within.refl _) _ _ _ _ _ (.refl _ s)).eng_eq _ _ (by decide)

theorem Engine.accept_converting (g : Engine) (p : TvWord) (v : AVec) (plane : Nat) (w : Window) : (g.accept p v plane w).converting = g.converting := by
  unfold Engine.accept
  extract_lets est g1
  have : g1.converting = g.converting := by unfold g1; split <;> rfl
  split
  · exact this
  · exact this

theorem State.acceptWindow_eng (s : State) (c e : Nat) (p : TvWord) (v : AVec) (r : PassRun) (w : Window) :
    (s.acceptWindow c e p v r w).eng c e = (s.eng c e).accept p v r.plane w := by simp [State.acceptWindow]
theorem State.acceptWindow_other (s : State) (c e x y : Nat) (p : TvWord) (v : AVec) (r : PassRun) (w : Window) (he : e < 34) (hy : y < 34)
    (h : x ≠ c ∨ y ≠ e) : (s.acceptWindow c e p v r w).eng x y = s.eng x y := by rw [State.acceptWindow, State.modEng_eng_other _ _ _ _ _ _ he hy h]

theorem State.decideRead_spec (s : State) (c e : Nat) (w : Window) (p : TvWord) (v : AVec) (r : PassRun) (cs : List Conversion)
    (he : e < 34) (hu : w.unused = false) :
    ((s.decideRead c e w p v r cs).eng c e).converting = none ∧
    (cs.any (fun x => x.sat) = true → w.kind = .original → ((s.decideRead c e w p v r cs).eng c e).integrating = none ∧
      ∃ rest, ((s.decideRead c e w p v r cs).eng c e).todo = splitHalves p v w ++ rest) ∧
    (cs.any (fun x => x.sat) = false → pConfMode p = 0 →
      (s.decideRead c e w p v r cs).eng c e = ({ s.eng c e with converting := none } : Engine).accept p v r.plane
        { w with reads := w.reads ++ [{ codes := cs.map (fun x => x.code), noise := cs.map (fun x => x.noise) }] }) ∧
    (∀ x y, y < 34 → (x ≠ c ∨ y ≠ e) → (s.decideRead c e w p v r cs).eng x y = s.eng x y) := by
  unfold State.decideRead
  extract_lets idx flags isConst s1 s2 s3 s4 counted s5 original ins s6 x s7 w' m g fails now x'
  have h4 : s4.eng c e = { s.eng c e with converting := none } := by
    simp only [s4, State.modEng_eng_same]
    simp [s3, s2, s1]
  have h4o : ∀ x y, y < 34 → (x ≠ c ∨ y ≠ e) → s4.eng x y = s.eng x y := by
    intro x y hy h
    rw [show s4.eng x y = s3.eng x y from State.modEng_eng_other _ _ _ _ _ _ he hy h]
    simp [s3, s2, s1]
  have h5 : ∀ x y, s5.eng x y = s4.eng x y := fun x y => by simp [s5, State.countPolicy_eng]
  have h6 : ∀ x y, s6.eng x y = s4.eng x y := fun x y => by unfold s6; split <;> simp [h5]
  have h7 : ∀ x y, s7.eng x y = s4.eng x y := fun x y => by simp [s7, State.countPolicy_eng]
  have hw : w' = { w with reads := w.reads ++ [{ codes := cs.map (fun x => x.code), noise := cs.map (fun x => x.noise) }] } := rfl
  have hx : x.1.converting = (s6.eng c e).converting ∧ x.1.integrating = none ∧ ∃ rest, x.1.todo = ins ++ rest := by
    simp only [x, Engine.insertWindows, List.append_assoc]
    exact ⟨trivial, trivial, _, rfl⟩
  have hx' : x'.1.converting = (s7.eng c e).converting := by simp [x', Engine.insertWindows]
  have hg : g = s7.eng c e := rfl
  have hins : original → ins = splitHalves p v w := fun h => by simp [ins, h]
  have hor : w.kind = .original → original := fun h => by simp [original, h]
  dsimp only at h4
  clear_value s4 s5 s6 s7 w' x x' g ins original fails m now counted
  simp only [hu, Bool.false_eq_true, if_false]
  split
  · refine ⟨?_, ?_, ?_, ?_⟩
    · simp [hx.1, h6, h4]
    · intro _ hk
      obtain ⟨_, hi, rest, hr⟩ := hx
      refine ⟨by simpa using hi, rest, ?_⟩
      simp only [State.bump_eng, State.modEng_eng_same, hr]
      rw [hins (hor hk)]
    · simp_all
    · intro x y hy h
      simp only [State.bump_eng]
      rw [State.modEng_eng_other _ _ _ _ _ _ he hy h, h6, h4o x y hy h]
  · rename_i hs
    refine ⟨?_, ?_, ?_, ?_⟩
    · repeat' split
      all_goals simp [State.acceptWindow_eng, Engine.accept_converting, h7, h4, hx']
      all_goals (show x'.1.converting = none; simp [hx', h7, h4])
    · intro h; exact absurd h hs
    · intro _ hm
      rw [hm, if_neg (by decide), if_neg (by decide), State.acceptWindow_eng, h7, h4, hw, ← hu]
    · intro x y hy h
      repeat' split
      all_goals simp [State.acceptWindow_other _ _ _ _ _ _ _ _ _ he hy h, State.modEng_eng_other _ _ _ _ _ _ he hy h, h7, h4o x y hy h]

theorem State.part_eng (s : State) (c n q st x y : Nat) : (s.part c n q st).eng x y = s.eng x y := rfl

theorem State.endFold_eng (l : List PassRun) (c e : Nat) (he : e < 34) (f : State → PassRun → State)
    (hf : f = fun s r => (s.modEng c e (fun g => { g with passes := g.passes.filter (fun x => x.op != r.op) })).part c r.op e stOk) :
    ∀ s : State, (∃ ps, (l.foldl f s).eng c e = { s.eng c e with passes := ps }) ∧
    (∀ x y, y < 34 → (x ≠ c ∨ y ≠ e) → (l.foldl f s).eng x y = s.eng x y) := by
  induction l with
  | nil => exact fun s => ⟨⟨_, rfl⟩, fun _ _ _ _ => rfl⟩
  | cons r l ih =>
    intro s
    obtain ⟨⟨ps, h1⟩, h2⟩ := ih (f s r)
    refine ⟨⟨ps, ?_⟩, fun x y hy h => ?_⟩
    · rw [List.foldl_cons, h1]; simp [hf, State.part_eng]
    · rw [List.foldl_cons, h2 x y hy h, hf]; simp only []; rw [State.part_eng, State.modEng_eng_other _ _ _ _ _ _ he hy h]

/-- The end of passes changes only which passes an engine still runs. -/
theorem State.passEnd_eng (s : State) (c e : Nat) (he : e < 34) : ∃ ps, (s.passEnd c e).eng c e = { s.eng c e with passes := ps } :=
  (State.endFold_eng _ c e he _ rfl s).1
theorem State.passEnd_eng_other (s : State) (c e x y : Nat) (he : e < 34) (hy : y < 34) (h : x ≠ c ∨ y ≠ e) :
    (s.passEnd c e).eng x y = s.eng x y := (State.endFold_eng _ c e he _ rfl s).2 x y hy h

theorem State.modRow_eng (s : State) (c q row : Nat) (f : Row → Row) (hq : q < 34) :
    (s.modRow c q row f).eng c q = { s.eng c q with vat := tmod (s.eng c q).vat row f } := by
  simp [State.modRow, State.setVat, State.vatOf, hq]
theorem State.modRow_eng_other (s : State) (c q row : Nat) (f : Row → Row) (x y : Nat) (hq : q < 34) (hy : y < 34) (h : x ≠ c ∨ y ≠ q) :
    (s.modRow c q row f).eng x y = s.eng x y := by
  simp only [State.modRow, State.setVat, hq, if_true]; exact State.modEng_eng_other _ _ _ _ _ _ hq hy h
theorem State.modRow_mem (s : State) (c q row : Nat) (f : Row → Row) : (s.modRow c q row f).mem = s.mem := by
  simp only [State.modRow, State.setVat]; split <;> rfl

theorem State.spillRow_eng (s : State) (c q row : Nat) (fo : Bool) (hq : q < 34) :
    (s.spillRow c q row fo).eng c q = { s.eng c q with
      vat := tmod (s.eng c q).vat row (fun r => r.captured fo)
      spills := (s.eng c q).spills ++ [{ row := row, vals := (tget (s.eng c q).vat row).vals, addr := s.churnAt c q row }] } := by
  simp only [State.spillRow, hq, if_true, State.bump_eng, State.modEng_eng_same, State.modRow_eng _ _ _ _ _ hq]
  simp [State.vatOf, hq]
theorem State.spillRow_eng_other (s : State) (c q row : Nat) (fo : Bool) (x y : Nat) (hq : q < 34) (hy : y < 34) (h : x ≠ c ∨ y ≠ q) :
    (s.spillRow c q row fo).eng x y = s.eng x y := by
  simp only [State.spillRow, hq, if_true, State.bump_eng]
  rw [State.modEng_eng_other _ _ _ _ _ _ hq hy h, State.modRow_eng_other _ _ _ _ _ _ _ hq hy h]
theorem State.spillRow_mem (s : State) (c q row : Nat) (fo : Bool) (hq : q < 34) : (s.spillRow c q row fo).mem = s.mem := by
  simp only [State.spillRow, hq, if_true, State.bump_mem, State.modEng_mem, State.modRow_mem]

/-- What an update leaves in the engine: the row, or its capture on its way to churn. -/
theorem State.updateVat_eng (s : State) (c q : Nat) (p : TvWord) (key ctr v : Nat) (terms : List F32) (hq : q < 34) :
    let u := updateRow p key ctr terms (tget (s.eng c q).vat (passRow p v))
    let t := (s.updateVat c q p key ctr v terms).1
    (t.eng c q).results = (s.eng c q).results ∧ (t.eng c q).srCtr = (s.eng c q).srCtr ∧ (t.eng c q).passes = (s.eng c q).passes ∧
    (∀ row, row ≠ passRow p v → tget (t.eng c q).vat row = tget (s.eng c q).vat row) ∧
    (u.1.addCount < u.1.limit → (spillInterval (pSpill p) = 0 ∨ u.1.addCount < spillInterval (pSpill p)) →
      tget (t.eng c q).vat (passRow p v) = u.1) ∧
    (u.1.limit ≤ u.1.addCount → (tget (t.eng c q).vat (passRow p v)).addCount = 0 ∧
      ∃ x, (t.eng c q).spills.getLast? = some x ∧ x.row = passRow p v ∧ x.vals = u.1.vals) ∧
    (∀ x y, y < 34 → (x ≠ c ∨ y ≠ q) → t.eng x y = s.eng x y) ∧ t.mem = s.mem := by
  intro u t
  have ht : t = (s.updateVat c q p key ctr v terms).1 := rfl
  unfold State.updateVat at ht
  extract_lets row u' s1 s2 n limit s3 at ht
  have hu : u' = u := by simp [u', u, State.vatOf, hq, row]
  have hl : limit = u.1.limit := by simp [limit, hu]
  have h1 : ∃ sp, s1.eng c q = { s.eng c q with spills := sp } := by
    unfold s1; split
    · exact ⟨_, rfl⟩
    · exact ⟨(s.eng c q).spills.filter (fun x => x.row != row), by simp [hq]⟩
  have h1o : ∀ x y, y < 34 → (x ≠ c ∨ y ≠ q) → s1.eng x y = s.eng x y := by
    intro x y hy h; unfold s1; split
    · rfl
    · exact State.modEng_eng_other _ _ _ _ _ _ hq hy h
  have h1m : s1.mem = s.mem := by unfold s1; split <;> simp
  obtain ⟨sp, h1⟩ := h1
  have h2 : s2.eng c q = { s.eng c q with spills := sp, vat := tmod (s.eng c q).vat row (fun _ => u.1) } := by
    simp only [s2, State.modRow_eng _ _ _ _ _ hq, h1, hu]
  have h2o : ∀ x y, y < 34 → (x ≠ c ∨ y ≠ q) → s2.eng x y = s.eng x y := fun x y hy h => by
    simp only [s2, State.modRow_eng_other _ _ _ _ _ _ _ hq hy h, h1o x y hy h]
  have h2m : s2.mem = s.mem := by simp only [s2, State.modRow_mem, h1m]
  have e3 : ∀ fo, (s2.spillRow c q row fo).eng c q = { s.eng c q with
      vat := tmod (tmod (s.eng c q).vat row (fun _ => u.1)) row (fun r => r.captured fo)
      spills := sp ++ [{ row := row, vals := u.1.vals, addr := s2.churnAt c q row }] } := by
    intro fo; rw [State.spillRow_eng _ _ _ _ _ hq, h2]; simp [tget_tmod]
  have o3 : ∀ fo x y, y < 34 → (x ≠ c ∨ y ≠ q) → (s2.spillRow c q row fo).eng x y = s.eng x y := fun fo x y hy h => by
    rw [State.spillRow_eng_other _ _ _ _ _ _ _ hq hy h, h2o x y hy h]
  have m3 : ∀ fo, (s2.spillRow c q row fo).mem = s.mem := fun fo => by rw [State.spillRow_mem _ _ _ _ _ hq, h2m]
  have hn : n = spillInterval (pSpill p) := rfl
  have hrow : row = passRow p v := rfl
  rw [ht]
  dsimp only
  clear ht
  rw [show s3 = if n != 0 && n ≤ limit && n ≤ u'.1.addCount then s2.spillRow c q row false
    else if limit ≤ u'.1.addCount then s2.spillRow c q row true else s2 from rfl]
  rw [hu, hl, hn, ← hrow]
  clear_value u s2 row
  clear s3
  split
  · rename_i hc
    simp only [Bool.and_eq_true, bne_iff_ne, ne_eq, decide_eq_true_eq] at hc
    rw [e3]
    refine ⟨rfl, rfl, rfl, ?_, ?_, ?_, o3 _, m3 _⟩
    · intro r hr; simp [tget_tmod, hr]
    · intro h1 h2; omega
    · intro _; simp [tget_tmod, Row.captured]
  · split
    · rw [e3]
      refine ⟨rfl, rfl, rfl, ?_, ?_, ?_, o3 _, m3 _⟩
      · intro r hr; simp [tget_tmod, hr]
      · intro h1 h2; omega
      · intro _; simp [tget_tmod, Row.captured]
    · rw [h2]
      refine ⟨rfl, rfl, rfl, ?_, ?_, ?_, h2o, h2m⟩
      · intro r hr; simp [tget_tmod, hr]
      · intro _ _; simp [tget_tmod]
      · intro h; omega

/-- Rows captured one after the other. -/
theorem State.spillFold (c q : Nat) (fo : Bool) (hq : q < 34) (l : List Nat) : ∀ s : State,
    (∀ row, (row ∈ l ∨ (tget (s.eng c q).vat row).addCount = 0) →
      (tget ((l.foldl (fun s row => s.spillRow c q row fo) s).eng c q).vat row).addCount = 0) ∧
    (l.foldl (fun s row => s.spillRow c q row fo) s).mem = s.mem ∧
    (l ≠ [] → ∃ x ∈ ((l.foldl (fun s row => s.spillRow c q row fo) s).eng c q).spills, x.row ∈ l) ∧
    (∀ x ∈ (s.eng c q).spills, x ∈ ((l.foldl (fun s row => s.spillRow c q row fo) s).eng c q).spills) := by
  induction l with
  | nil => intro s; simp
  | cons a l ih =>
    intro s
    obtain ⟨h1, h2, h3, h4⟩ := ih (s.spillRow c q a fo)
    rw [List.foldl_cons]
    refine ⟨fun row h => h1 row ?_, by rw [h2, State.spillRow_mem _ _ _ _ _ hq], fun _ => ?_, fun x hx => h4 x ?_⟩
    · rw [State.spillRow_eng _ _ _ _ _ hq]
      by_cases hr : row = a
      · right; simp [tget_tmod, hr, Row.captured]
      · rcases h with h | h
        · left; simpa [hr] using h
        · right; simp [tget_tmod, hr, h]
    · refine ⟨_, h4 { row := a, vals := (tget (s.eng c q).vat a).vals, addr := s.churnAt c q a } ?_, by simp⟩
      rw [State.spillRow_eng _ _ _ _ _ hq]; simp
    · rw [State.spillRow_eng _ _ _ _ _ hq]; simp [hx]

theorem tgetD_absent {α : Type} (d : α) (t : Tbl α) (i : Nat) (h : ∀ x ∈ t, x.1 ≠ i) : tgetD d t i = d := by
  induction t with
  | nil => rfl
  | cons x t ih =>
    obtain ⟨k, a⟩ := x
    have := h (k, a) (by simp)
    simp only [tgetD]; rw [if_neg (fun e => this e.symm)]
    exact ih (fun x hx => h x (by simp [hx]))
theorem tgetD_mem {α : Type} (d : α) (t : Tbl α) (i : Nat) : tgetD d t i = d ∨ (i, tgetD d t i) ∈ t := by
  induction t with
  | nil => left; rfl
  | cons x t ih =>
    obtain ⟨k, a⟩ := x
    simp only [tgetD]
    split
    · right; subst_vars; simp
    · rcases ih with h | h
      · left; exact h
      · right; simp [h]
theorem tget_fold_mod {α : Type} [Inhabited α] [DecidableEq α] (f : α → α) (hf : ∀ a, f (f a) = f a) (l : List Nat) : ∀ t : Tbl α, ∀ i,
    tget (l.foldl (fun t i => tmod t i f) t) i = if i ∈ l then f (tget t i) else tget t i := by
  induction l with
  | nil => intro t i; simp
  | cons a l ih =>
    intro t i
    rw [List.foldl_cons, ih, tget_tmod]
    by_cases h : i = a <;> by_cases h' : i ∈ l <;> simp [h, h', hf]

-- what stays of an engine while work on it ends
/-- The contents of an engine that no end of work touches. -/
def Engine.Holds (g h : Engine) : Prop := h.vat = g.vat ∧ h.srCtr = g.srCtr ∧ h.b0 = g.b0 ∧ h.spills = g.spills ∧ h.results = g.results

theorem State.part_fold_eng (l : List Nat) (c e st x y : Nat) : ∀ s : State,
    (l.foldl (fun s n => s.part c n e st) s).eng x y = s.eng x y := by
  induction l with
  | nil => intro s; rfl
  | cons a l ih => intro s; rw [List.foldl_cons, ih, State.part_eng]

theorem State.endPasses_eng (s : State) (c e st : Nat) : (s.endPasses c e st).eng c e = (s.eng c e).clearIssue := by
  simp [State.endPasses, State.part_fold_eng]
theorem State.endPasses_eng_other (s : State) (c e st x y : Nat) (he : e < 34) (hy : y < 34) (h : x ≠ c ∨ y ≠ e) :
    (s.endPasses c e st).eng x y = s.eng x y := by
  simp [State.endPasses, State.part_fold_eng, State.modEng_eng_other _ _ _ _ _ _ he hy h]
theorem State.abandonWrite_eng_other (s : State) (c e x y : Nat) (he : e < 34) (hy : y < 34) (h : x ≠ c ∨ y ≠ e) :
    (s.abandonWrite c e).eng x y = s.eng x y := by
  unfold State.abandonWrite
  extract_lets g s1 s2
  have h1 : s1.eng x y = s.eng x y := State.modEng_eng_other _ _ _ _ _ _ he hy h
  have h2 : s2.eng x y = s.eng x y := by
    unfold s2; split
    · exact h1
    · rename_i w _
      have : (if (decide (w.phase = WritePhase.waiting) || w.spare.isSome) = true then s1 else s1.modEng c e (fun g => g.modPlane w.plane Plane.emptied)).eng x y = s.eng x y := by
        split
        · exact h1
        · rw [State.modEng_eng_other _ _ _ _ _ _ he hy h, h1]
      simp only []
      split
      · rw [State.part_eng]; exact this
      · exact this
  split
  · split
    · rw [State.part_eng]; exact h2
    · exact h2
  · exact h2
theorem State.abandonWrite_vat (s : State) (c e : Nat) : ((s.abandonWrite c e).eng c e).vat = (s.eng c e).vat := by
  unfold State.abandonWrite
  extract_lets g s1 s2
  have h1 : (s1.eng c e).vat = (s.eng c e).vat := by simp [s1]
  have h2 : (s2.eng c e).vat = (s.eng c e).vat := by
    unfold s2; split
    · exact h1
    · rename_i w _
      have : ((if (decide (w.phase = WritePhase.waiting) || w.spare.isSome) = true then s1 else s1.modEng c e (fun g => g.modPlane w.plane Plane.emptied)).eng c e).vat = (s.eng c e).vat := by
        split
        · exact h1
        · rw [State.modEng_eng_same]; unfold Engine.modPlane; split <;> exact h1
      simp only []
      split
      · rw [State.part_eng]; exact this
      · exact this
  split
  · split
    · rw [State.part_eng]; exact h2
    · exact h2
  · exact h2

theorem State.modUnit_unit_same (s : State) (r : Nat) (f : UnitState → UnitState) : (s.modUnit r f).unit r = (f (tget s.units r)).st := by
  simp [State.modUnit, State.unit, tget_tmod]
theorem State.putUnit_unit_same (s : State) (r : Nat) (st : UnitSt) : (s.putUnit r st).unit r = st := by
  simp [State.putUnit, State.modUnit_unit_same]

/-- The units of a core leave: each of its engines ends its passes and its writes and keeps its vat. -/
theorem State.leaveCore_vat (c e : Nat) (he : e < 34) (f : State → Nat → State) (hf : f = fun s e => ((s.endPasses c e stEngineFault).abandonWrite c e).modEng c e (fun g => { g with cal := none })) (n : Nat) (hn : n ≤ 34) : ∀ s : State,
    ((forRange n s f).eng c e).vat = (s.eng c e).vat := by
  induction n with
  | zero => intro s; rfl
  | succ n ih =>
    intro s
    have := ih (by omega) s
    unfold forRange at *
    rw [List.range_succ, List.foldl_append, List.foldl_cons, List.foldl_nil]
    rw [← this]
    generalize (List.range n).foldl f s = t
    rw [hf]; simp only []
    by_cases h : e = n
    · subst h; rw [State.modEng_eng_same]; simp only []; rw [State.abandonWrite_vat, State.endPasses_eng]; rfl
    · rw [State.modEng_eng_other _ _ _ _ _ _ (by omega) he (.inr h), State.abandonWrite_eng_other _ _ _ _ _ (by omega) he (.inr h), State.endPasses_eng_other _ _ _ _ _ _ (by omega) he (.inr h)]

theorem State.endsEngine_units (s : State) (c e st : Nat) : ((s.endPasses c e st).abandonWrite c e).units = s.units :=
  (State.abandonWrite_keeps (by decide : Within _ [.cores, .engines]) c e
    (State.endPasses_keeps (by decide) c e st (.refl _ s))).units_eq (by decide)

theorem State.leave_unit (s : State) (r : Nat) (st : UnitSt) : (s.leave r st).unit r = st := by
  unfold State.leave
  extract_lets s1 s2
  have h2 : s2.unit r = st := State.putUnit_unit_same _ _ _
  split
  · simp only [State.unit, State.modEng_units, State.endsEngine_units]; exact h2
  · split
    · have : ∀ l : List Nat, ∀ s : State, (l.foldl (fun s e => ((s.endPasses (refB r) e stEngineFault).abandonWrite (refB r) e).modEng (refB r) e
        (fun g => { g with cal := none })) s).units = s.units := by
        intro l
        induction l with
        | nil => intro s; rfl
        | cons a l ih => intro s; rw [List.foldl_cons, ih, State.modEng_units, State.endsEngine_units]
      have h3 : ∀ (n : Nat) (s : State), (forRange n s (fun s e => ((s.endPasses (refB r) e stEngineFault).abandonWrite (refB r) e).modEng (refB r) e
        (fun g => { g with cal := none }))).units = s.units := fun n s => this _ s
      rw [State.unit, h3]; exact h2
    · exact h2

/-- A unit that faults is FENCED, or RETIRED. -/
theorem State.fence_unit (s : State) (r : Nat) : (s.fence r).unit r = .fenced ∨ (s.fence r).unit r = .retired := by
  unfold State.fence
  extract_lets s1
  split
  · right; exact State.leave_unit _ _ _
  · left; exact State.leave_unit _ _ _

theorem engineRef_kind (c : Fin 16) (e : Fin 34) : refKind (engineRef c e) = 2 ∧ refA (engineRef c e) = c ∧ refB (engineRef c e) = e := by
  have := c.isLt; have := e.isLt
  simp only [refKind, refA, refB, engineRef]
  refine ⟨?_, ?_, ?_⟩ <;> omega
theorem coreRef_kind (c : Fin 16) : refKind (coreRef c) = 1 ∧ refB (coreRef c) = c := by
  have := c.isLt
  simp only [refKind, refB, coreRef]
  refine ⟨?_, ?_⟩ <;> omega

theorem State.fence_engine (s : State) (c : Fin 16) (e : Fin 34) :
    ((s.fence (engineRef c e)).eng c e).stopping = false ∧ ((s.fence (engineRef c e)).eng c e).cal = none := by
  obtain ⟨h1, h2, h3⟩ := engineRef_kind c e
  unfold State.fence State.leave
  simp only [h1, h2, h3, if_true]
  split <;> simp [State.modEng_eng_same]

theorem State.fence_core_vat (s : State) (c : Fin 16) (e : Nat) (he : e < 34) :
    ((s.fence (coreRef c)).eng c e).vat = (s.eng c e).vat := by
  obtain ⟨h1, h2⟩ := coreRef_kind c
  unfold State.fence State.leave
  simp only [h1, h2, (by decide : ¬ (1 = 2)), if_false, if_true]
  have hu : ∀ (s : State) r, (s.abandonUsers r).eng c e = s.eng c e := fun s r =>
    (State.abandonUsers_keeps (Within.refl _) r (.refl _ s)).eng_eq _ _ (by decide)
  split <;> rw [State.leaveCore_vat _ _ he _ rfl _ (Nat.le_refl _)] <;>
    simp only [State.putUnit, State.modUnit, State.eng, State.countFault] at * <;> rw [hu]
theorem State.discardFold (c : Nat) (n : Nat) (hn : n ≤ 34) : ∀ s : State, 
    (∀ e, e < 34 → (e < n → ((forRange n s (fun s e => s.discardWindow c e)).eng c e).integrating = none ∧
      ((forRange n s (fun s e => s.discardWindow c e)).eng c e).todo = (s.eng c e).integrating.toList ++ (s.eng c e).todo ∧
      ((forRange n s (fun s e => s.discardWindow c e)).eng c e).vat = (s.eng c e).vat) ∧
      (n ≤ e → (forRange n s (fun s e => s.discardWindow c e)).eng c e = s.eng c e)) := by
  induction n with
  | zero => intro s e he; exact ⟨fun h => absurd h (by omega), fun _ => rfl⟩
  | succ n ih =>
    intro s e he
    have := ih (by omega) s e he
    unfold forRange at *
    rw [List.range_succ, List.foldl_append, List.foldl_cons, List.foldl_nil]
    generalize (List.range n).foldl (fun s e => s.discardWindow c e) s = t at *
    by_cases h : e = n
    · subst h
      have ht := this.2 (Nat.le_refl _)
      unfold State.discardWindow
      split
      · rename_i hw
        rw [ht] at hw ⊢
        simp [hw]
      · rename_i w hw
        rw [ht] at hw
        simp [hw, ht]
    · have ho : (t.discardWindow c n).eng c e = t.eng c e := by
        unfold State.discardWindow
        split
        · rfl
        · rw [State.bump_eng]; exact State.modEng_eng_other _ _ _ _ _ _ (by omega) he (.inr h)
      rw [ho]
      exact ⟨fun h' => this.1 (by omega), fun h' => this.2 (by omega)⟩

theorem State.compareWaiting_none (s : State) (c e pl : Nat) (h : s.twin.records = []) : s.compareWaiting c e pl = s := by
  unfold State.compareWaiting
  simp only [h, List.filter_nil, List.foldl_nil]
  rw [← h]
theorem Plane.due_keeps (p : Plane) (a b c : Nat) : (p.due a b c).st = p.st ∧ (p.due a b c).calibrated = p.calibrated ∧ (p.due a b c).fresh = p.fresh := by
  unfold Plane.due; split <;> exact ⟨rfl, rfl, rfl⟩
theorem Plane.dueFold_keeps (cls now : Nat) (l : List Nat) : ∀ p : Plane, (l.foldl (fun p b => p.due b cls now) p).st = p.st ∧
    (l.foldl (fun p b => p.due b cls now) p).calibrated = p.calibrated ∧ (l.foldl (fun p b => p.due b cls now) p).fresh = p.fresh := by
  induction l with
  | nil => exact fun p => ⟨rfl, rfl, rfl⟩
  | cons a l ih =>
    intro p
    obtain ⟨h1, h2, h3⟩ := ih (p.due a cls now)
    obtain ⟨k1, k2, k3⟩ := p.due_keeps a cls now
    exact ⟨h1.trans k1, h2.trans k2, h3.trans k3⟩
theorem Plane.calibratedAt_live (p : Plane) (bits now : Nat) (m : Measured) (h : p.st = .verified) : (p.calibratedAt bits now m).st = .live := by
  unfold Plane.calibratedAt
  extract_lets p'
  have : p'.st = .verified := h
  rw [if_pos this, (Plane.dueFold_keeps _ _ _ _).1]
theorem Plane.calibratedAt_has (p : Plane) (bits now : Nat) (m : Measured) : bits ∈ (p.calibratedAt bits now m).calibrated ∧
    tget (p.calibratedAt bits now m).fresh bits = some m := by
  unfold Plane.calibratedAt
  extract_lets p'
  have h1 : bits ∈ p'.calibrated := by simp only [p']; split <;> simp_all
  have h2 : tget p'.fresh bits = some m := by simp [p', tget_tset]
  split
  · obtain ⟨_, k2, k3⟩ := Plane.dueFold_keeps 2 now ([2, 1, 0].filter (fun b => b ∉ p'.calibrated)) { p' with st := .live, refreshedAt := now }
    rw [k2, k3]; exact ⟨h1, h2⟩
  · exact ⟨h1, h2⟩
theorem State.calTail (X : State) (cls c e pl bits : Nat) (m : Measured) (h : X.twin.records = []) (x y : Nat) :
    ((if cls ≤ 2 then X.sendSums c e pl bits m else X).compareWaiting c e pl).eng x y = X.eng x y ∧
    ((if cls ≤ 2 then X.sendSums c e pl bits m else X).compareWaiting c e pl).mem = X.mem := by
  have hk := State.sendSums_keeps (Within.refl _) c e pl bits m (.refl _ X)
  split
  · rw [State.compareWaiting_none _ _ _ _ (by rw [hk.twin_eq (by decide)]; exact h)]
    exact ⟨hk.eng_eq _ _ (by decide), hk.mem_eq (by decide)⟩
  · rw [State.compareWaiting_none _ _ _ _ h]; exact ⟨rfl, rfl⟩

theorem Engine.modPlane_same (g : Engine) (i : Nat) (f : Plane → Plane) : (g.modPlane i f).plane i = f (g.plane i) := by
  unfold Engine.modPlane Engine.plane; split <;> rfl
theorem Engine.modPlane_other (g : Engine) (i j : Nat) (f : Plane → Plane) (h : i = 0 ↔ j ≠ 0) : (g.modPlane i f).plane j = g.plane j := by
  unfold Engine.modPlane Engine.plane
  by_cases hi : i = 0
  · simp [hi, h.1 hi]
  · have : j = 0 := by by_contra hj; exact hi (h.2 hj)
    simp [hi, this]
theorem Engine.modPlane_rest (g : Engine) (i : Nat) (f : Plane → Plane) : (g.modPlane i f).writing = g.writing ∧ (g.modPlane i f).b0 = g.b0 ∧
    (g.modPlane i f).vat = g.vat := by
  unfold Engine.modPlane; split <;> exact ⟨rfl, rfl, rfl⟩
theorem Engine.nextWrite_plane (g : Engine) (i : Nat) : g.nextWrite.plane i = g.plane i := by
  have : g.nextWrite.plane0 = g.plane0 ∧ g.nextWrite.plane1 = g.plane1 := by
    unfold Engine.nextWrite; split
    · exact ⟨rfl, rfl⟩
    · split <;> exact ⟨rfl, rfl⟩
  unfold Engine.plane; rw [this.1, this.2]
theorem State.writeEnds_plane (s : State) (c e : Nat) (w : WriteRun) (st i : Nat) : ((s.writeEnds c e w st).eng c e).plane i = (s.eng c e).plane i := by
  unfold State.writeEnds
  extract_lets s1
  have : (s1.eng c e).plane i = (s.eng c e).plane i := by simp only [s1, State.modEng_eng_same, Engine.nextWrite_plane]
  split
  · rw [State.part_eng]; exact this
  · exact this
theorem State.writeEnds_other (s : State) (c e : Nat) (w : WriteRun) (st x y : Nat) (he : e < 34) (hy : y < 34) (h : x ≠ c ∨ y ≠ e) :
    (s.writeEnds c e w st).eng x y = s.eng x y := by
  unfold State.writeEnds
  extract_lets s1
  have : s1.eng x y = s.eng x y := State.modEng_eng_other _ _ _ _ _ _ he hy h
  split
  · rw [State.part_eng]; exact this
  · exact this

end Sys2Proof.Machine
end

