-- ==== Sys2Proof/Tests/Slice0.lean ====
section
/-! SUPPORT. Tests: ill-formed commands that the checks refuse, what the part does from reset on one command, and for each statement
states and operands that meet its hypotheses. Expected values are worked out from the rules of the spec. -/

namespace Sys2Proof.Tests
open Sys2Proof Sys2Proof.Machine

-- one ill-formed command for each check of WellFormed

theorem test_wf_window_decision : (Instr.windowDecision 0 0 0 (List.replicate 255 0) (List.replicate 256 0)).wf = false := by simp only [Instr.wf, List.length_replicate]; rfl
theorem test_wf_window_decision_gaps : (Instr.windowDecision 0 0 0 (List.replicate 256 0) []).wf = false := by simp only [Instr.wf, List.length_replicate]; rfl
theorem test_wf_calibration : (Instr.calibrationComplete 0 0 0 { offsets := [], gains := [], sums := [] }).wf = false := by decide
theorem test_wf_column_levels : (Instr.bankColumnVerify 0 0 0 []).wf = false := by decide
theorem test_wf_refresh_chunk : (Instr.refreshChunkEnd 0 0 0 0 [] []).wf = false := by decide
theorem test_wf_pace : (Instr.paceMeasure 0 0 []).wf = false := by decide
theorem test_wf_voltage : (Instr.voltageStep 0 0 (List.replicate 17 0)).wf = false := by decide
theorem test_wf_stream_path : (Instr.streamUserWrite 0 (.rdma 4096) 0 0 []).wf = false := by decide
theorem test_wf_busy_shares : (Instr.busyShareInterval 0 (List.replicate 20 1001)).wf = false := by decide
theorem test_wf_busy_shares_count : (Instr.busyShareInterval 0 (List.replicate 19 0)).wf = false := by decide
theorem test_wf_step_end : (Instr.stepEnd 0 0 [(65536, 0)] 0).wf = false := by decide
theorem test_wf_step_end_share : (Instr.stepEnd 0 0 [] 1001).wf = false := by decide
theorem test_wf_launch_record : (Instr.launchStep 0 (.firmware [])).wf = false := by decide
theorem test_wf_launch_twin : (Instr.launchStep 0 (.twin [])).wf = false := by decide
theorem test_wf_launch_master : (Instr.launchCancel 0 (.send 4096 (List.replicate 32 0))).wf = false := by decide
theorem test_wf_unit_core : (UnitRef.mk .core 0 16).ok = false := by decide
theorem test_wf_unit_engine : (Instr.epochApply 0 (UnitRef.mk .engine 0 34)).wf = false := by decide
theorem test_wf_unit_group : (UnitRef.mk .dacGroup 0 35).ok = false := by decide
theorem test_wf_unit_adc : (UnitRef.mk .adc 16 0).ok = false := by decide
theorem test_wf_unit_port : (UnitRef.mk .port 0 128).ok = false := by decide
theorem test_wf_unit_stack : (UnitRef.mk .stack 0 20).ok = false := by decide
theorem test_wf_unit_cartridge : (UnitRef.mk .cartridge 1 0).ok = false := by decide
theorem test_wf_unit_host : (UnitRef.mk .hostPort 0 2).ok = false := by decide
theorem test_wf_send : (Instr.sendReceived 0 0 0 0 []).wf = false := by decide
theorem test_wf_asymmetry : (Instr.asymmetryMeasured 0 []).wf = false := by decide
theorem test_wf_doorbell : (Instr.requestDoorbell 0 0 0 [[]] 0).wf = false := by decide
theorem test_wf_bar4_read : (Instr.bar4Read 0 0 0 0).wf = false := by decide
theorem test_wf_bar4_write : (Instr.bar4Write 0 0 0 []).wf = false := by decide
theorem test_wf_loop_frame : (Instr.loopFrame 0 0 0 1153 0 []).wf = false := by decide
theorem test_wf_converter : (Instr.converterTick 0 0 [] []).wf = false := by decide
theorem test_wf_sensors : (Instr.sensorSample 0 []).wf = false := by decide
theorem test_wf_standby : (Instr.standbyReached 0 [UnitRef.mk .core 0 16]).wf = false := by decide
theorem test_wf_store_scrub : (Instr.storeScrub 0 0 [8] []).wf = false := by decide
theorem test_wf_hbm_scrub : (Instr.hbmScrub 0 0 [3] [3]).wf = false := by decide
theorem test_wf_test_done : (Instr.repairTestDone 0 (UnitRef.mk .stack 0 20) true).wf = false := by decide
theorem test_wf_packet : (Instr.packetReceived 0 0 { bytes := 63 }).wf = false := by decide
theorem test_wf_token_log : (Instr.tokenLogEntry 0 { stream := 65536 }).wf = false := by decide
theorem test_wf_checkpoint : (Instr.checkpointReceived 0 { stream := 65536 }).wf = false := by decide
theorem test_wf_cross_check : (Instr.crossCheckRecord 0 { sums := [] }).wf = false := by decide
theorem test_wf_hello_answer : (Instr.helloAnswer 0 0 {} [] []).wf = false := by decide
theorem test_wf_accepts : (Instr.paceMeasure 0 0 (List.replicate 16 1000)).wf = true := by decide

-- from reset

/-- An empty queue: 0.8 ns pass. -/
theorem test_idle_tick : (match step State.reset with
    | .next t => t.clock.now
    | _ => 0) = 800 := by decide
/-- A write over the mailbox in AL INIT goes unheard (R373). -/
theorem test_unheard_in_init : (match exec (.powerCapWrite 0 .coe 900) State.reset with
    | .next t => t.val 0x4000 1
    | _ => 0) = 1800 := by decide
/-- A monitor of a core without supply is not read (R180). -/
theorem test_no_supply_no_pace : (match exec (.paceMeasure 0 0 (List.replicate 16 1000)) State.reset with
    | .next t => t.cores
    | _ => [(0, {})]) = [] := by decide

-- states that meet the hypotheses of the statements: the part in STANDBY with the mailbox in use, and master 1 with every right

/-- The mailbox is served and master 1 holds every right on every entry class (R255, R258). -/
def served : State :=
  let s : State := { State.reset with al := 2, run := { State.reset.run with st := .standby } }
  (List.range 7).foldl (fun s k => s.setVal 0x3073 (1 + 4 * k) 0x1F001001) s

theorem witness_admits_cap : served.admits .coe 0x4000 1 (leBytes 2 900) := ⟨by decide, by decide⟩
theorem witness_admits_relock : served.admits .coe (coreIdx 15) 0x23 (leBytes 2 1000) := ⟨by decide, by decide⟩
theorem witness_relock_out : leNat (leBytes 2 1001) < 10 ∨ 1000 < leNat (leBytes 2 1001) := by decide
theorem witness_relock_lost : (((served.modCore 3 (fun k => { k with pulseLost := some (0, 10) })).elapse 0).core 3).pulseLost = some (0, 10) := by
  decide
theorem witness_pulse_locked : ((served.modCore 3 (fun k => { k with pulse := .locked })).core 3).pulse = .locked := by decide
theorem witness_admits_reinstate : served.admits .coe 0x6002 2 (leBytes 2 (237 : BitVec 16).toNat) := ⟨by decide, by decide⟩
theorem witness_sample : ((served.modSensor 237 (fun x => { x with samples := [2001] })).sensor 237).samples.head? = some 2001 := by decide


end Sys2Proof.Tests
end

section
/-! The governor (R24, R25, R27, R28): which branch each of its commands takes, what a moved lever leaves as it was, and the
statement O9. -/

namespace Sys2Proof.Machine

-- levers that move

/-- The levers take the settings `p`: the cores stretch their steps to them, and where they stand is noted. GOVERNOR_LEVER_APPLY and
GOVERNOR_LEVER_RELEASE both end so (`State.leverApply_moves`, `State.leverRelease_moves`). -/
def State.putLevers (s : State) (p : Power) : State := (({ s with power := p } : State).restretchAll).noteLevers

theorem State.putLevers_power (s : State) (p : Power) : (s.putLevers p).power.pace = p.pace ∧ (s.putLevers p).power.issue = p.issue ∧
    (s.putLevers p).power.windows = p.windows ∧ (s.putLevers p).power.rate = p.rate ∧
    (s.putLevers p).power.admitLimit = p.admitLimit := by
  have h := State.noteLevers_power ({ s with power := p } : State).restretchAll
  rwa [State.restretchAll_power] at h

theorem State.putLevers_val (s : State) (p : Power) (x y : Nat) (h : quiet x y) (hk : odKey x y ≠ odKey 0x4000 5) :
    (s.putLevers p).val x y = s.val x y := by
  unfold State.putLevers
  rw [State.noteLevers_val _ _ _ h hk, State.restretchAll_val]
  rfl

theorem State.putLevers_keeps {pts : List Part} (hw : Within [.od, .cores, .hosts, .power, .events] pts) {bef s : State} (p : Power)
    (h : bef.Keeps pts s) : bef.Keeps pts (s.putLevers p) := by
  refine State.noteLevers_keeps (hw.sub (by decide)) (State.restretchAll_keeps (hw.sub (by decide)) ?_)
  refine State.keeps_mk (a := [.power]) (hw.sub (by decide)) h rfl (fun q => ?_)
  cases q
  case power => exact .inl (by decide)
  all_goals exact .inr rfl

/-- Once a draw is measured and the levers are put to `p`, they stand there and the draw reads in its entry; loops, converters,
ports, pending launches, jobs and the memory are left alone (R24, R25). -/
theorem State.putLevers_measure (b : State) (draw : Nat) (p : Power) :
    let t := (b.measure draw).putLevers p
    t.power.pace = p.pace ∧ t.power.issue = p.issue ∧ t.power.windows = p.windows ∧ t.power.rate = p.rate ∧
      t.power.admitLimit = p.admitLimit ∧ t.val 0x4000 2 = min draw 65535 ∧ t.loops = b.loops ∧ t.convs = b.convs ∧
      t.ports = b.ports ∧ t.sched = b.sched ∧ t.jobs = b.jobs ∧ t.mem = b.mem := by
  intro t
  obtain ⟨hpace, hissue, hwindows, hrate, hadmit⟩ := (b.measure draw).putLevers_power p
  have hdraw : t.val 0x4000 2 = min draw 65535 :=
    ((b.measure draw).putLevers_val p _ _ (by decide) (by decide)).trans (b.measure_draw draw)
  have hk : b.Keeps [.od, .cores, .hosts, .power, .events] t :=
    State.putLevers_keeps (Within.refl _) p (State.measure_keeps (by decide) draw (.refl _ b))
  exact ⟨hpace, hissue, hwindows, hrate, hadmit, hdraw, hk.loops_eq (by decide), hk.convs_eq (by decide), hk.ports_eq (by decide),
    hk.sched_eq (by decide), hk.jobs_eq (by decide), hk.mem_eq (by decide)⟩

-- which branch the governor takes

theorem State.measure_up (s : State) (draw : Nat) : (s.measure draw).up = s.up :=
  (State.measure_keeps (Within.refl _) draw (.refl _ s)).up

theorem State.leverApply_moves {s : State} {draw i : Nat} (amount : Nat) (hdraw : 97 * (s.measure draw).val 0x4000 1 ≤ 100 * draw)
    (hfirst : (List.range 5).find? (fun i => !(s.measure draw).leverDone (i + 1)) = some i) :
    s.leverApply draw amount = (s.measure draw).putLevers ((s.measure draw).power.press (i + 1) amount) := by
  unfold State.leverApply
  simp only [if_neg (Nat.not_lt.2 hdraw), hfirst, State.putLevers]

theorem State.leverRelease_moves {s : State} {draw since n : Nat} (amount : Nat)
    (hbelow : (s.measure draw).power.belowSince = some since) (hlong : since + 10 * msPs ≤ s.up)
    (hlast : [5, 4, 3, 2, 1].find? (s.measure draw).leverOn = some n) :
    s.leverRelease draw amount = (s.measure draw).putLevers ((s.measure draw).power.ease n amount) := by
  unfold State.leverRelease
  simp only [hbelow, State.measure_up, if_neg (Nat.not_lt.2 hlong), hlast, State.putLevers]

theorem State.capUnmet_raises {s : State} {draw since : Nat} (hover : (s.measure draw).power.overSince = some since)
    (hlong : since + 100 * msPs ≤ s.up) (hfresh : (s.measure draw).power.capUnmet = false) :
    s.capUnmet draw = ({ s.measure draw with power := { (s.measure draw).power with capUnmet := true } } : State).raise 0x0102 0
      ((s.measure draw).val 0x4000 1) := by
  have hdue : ¬((decide (s.up < since + 100 * msPs) || (s.measure draw).power.capUnmet) = true) := by
    simp [hfresh, hlong]
  unfold State.capUnmet
  simp only [hover, State.measure_up, if_neg hdue]

-- the cap

/-- The entry of the cap is an unsigned number of 2 bytes from 900 to 1,800 (R28, R465). -/
theorem odRow_powerCap : odRow 0x4000 1 = some ⟨1, 6, 2, 1, 1800, 900, 1800, 0⟩ := rfl

/-- A write of a cap outside 900 W to 1,800 W is refused by some check (R28). -/
theorem State.writeGate_cap_out (s : State) (v : Via) (watts : BitVec 16) (h : watts.toNat < 900 ∨ 1800 < watts.toNat) :
    (s.writeGate v 0x4000 1 (leBytes 2 watts.toNat)).1 ≠ 0 := by
  refine State.writeGate_out odRow_powerCap ?_
  have hout : 900 ≤ watts.toNat → 1800 < watts.toNat := fun hlow => h.resolve_left (Nat.not_lt.2 hlow)
  rw [leNat_leBytes 2 _ watts.isLt]
  simpa [OdRow.accepts, directType, OdRow.isSigned] using hout

/-- A write that a check refuses does not touch feeds and governor. -/
theorem State.writeRow_refused_power {s : State} {road : Road} {i k : Nat} {d : List Byte} {act : State → Nat × State}
    (hg : (s.writeGate (viaOf road i k) i k d).1 ≠ 0) : (s.writeRow road i k d act).power = s.power := by
  have hgate := (State.writeGate_keeps (Within.refl _) (viaOf road i k) i k d (.refl _ s)).power_eq (by decide)
  unfold State.writeRow State.writeVia
  simp only [bne_iff_ne, ne_eq, hg, not_false_eq_true, if_true]
  split
  · rfl
  · rw [State.reply_power, hgate]

/-- A write of the cap that comes through sets the entry, and the governor notes where its levers stand. -/
theorem State.powerCapWrite_admitted {b : State} {road : Road} {watts : BitVec 16}
    (h : b.admits road 0x4000 1 (leBytes 2 watts.toNat)) :
    b.writeRow road 0x4000 1 (leBytes 2 watts.toNat) (State.powerCapAct watts.toNat) =
      (b.setVal 0x4000 1 watts.toNat).noteLevers.reply (viaOf road 0x4000 1) 0x4000 1 0 :=
  State.writeRow_admitted h

-- the statement, and states that meet the hypotheses of its clauses on the levers; `Tests.served` meets those on the cap

/-- Settles O9, one clause for each branch of the governor's commands and one for each outcome of a write of the cap. That a lever is
applied from 97 % of the cap on is the model's reading of "approaches the cap" in R24. -/
theorem governorMovesOneLeverAndKeepsTheCap : Obligations.GovernorMovesOneLeverAndKeepsTheCap := by
  refine ⟨?apply, ?release, ?unmet, ?admitted, ?refused⟩
  case apply =>
    rintro s _ _ dt draw amount i rfl rfl hdraw hfirst
    refine ⟨(s.elapse dt).leverApply draw amount, rfl, ?_⟩
    rw [State.leverApply_moves amount hdraw hfirst]
    exact State.putLevers_measure _ _ _
  case release =>
    rintro s _ _ dt draw amount since n rfl rfl hbelow hlong hlast
    refine ⟨(s.elapse dt).leverRelease draw amount, rfl, ?_⟩
    rw [State.leverRelease_moves amount hbelow hlong hlast]
    exact State.putLevers_measure _ _ _
  case unmet =>
    rintro s _ _ dt draw since rfl rfl hover hlong hfresh
    have ht := State.capUnmet_raises hover hlong hfresh
    have hk := State.capUnmet_keeps (Within.refl _) draw (.refl _ (s.elapse dt))
    refine ⟨(s.elapse dt).capUnmet draw, rfl, ht, ?_, hk.run_eq (by decide), hk.jobs_eq (by decide)⟩
    rw [ht, State.raise_power]
  case admitted =>
    rintro s _ dt road watts rfl hadmits
    refine ⟨_, rfl, ?_⟩
    rw [State.powerCapWrite_admitted hadmits, State.reply_val, State.reply_power, State.reply_jobs, State.reply_mem]
    obtain ⟨hpace, hissue, hwindows, hrate, hadmit⟩ := ((s.elapse dt).setVal 0x4000 1 watts.toNat).noteLevers_power
    have hcap : ((s.elapse dt).setVal 0x4000 1 watts.toNat).noteLevers.val 0x4000 1 = watts.toNat := by
      rw [State.noteLevers_val _ _ _ (by decide) (by decide), State.setVal_val_same]
    have hk := State.noteLevers_keeps (Within.refl _) (.refl _ ((s.elapse dt).setVal 0x4000 1 watts.toNat))
    exact ⟨hcap, hpace, hissue, hwindows, hrate, hadmit, hk.jobs_eq (by decide), hk.mem_eq (by decide)⟩
  case refused =>
    rintro s _ dt road watts rfl hout
    have hg := (s.elapse dt).writeGate_cap_out (viaOf road 0x4000 1) watts hout
    exact ⟨_, rfl, State.writeRow_refused hg (by decide) (by decide), State.writeRow_refused_power hg⟩

/-- The part with half of digital issue granted and 10 ms of up time. -/
def issueHalved : State :=
  { State.reset with clock := { State.reset.clock with up := 10 * msPs }, power := { issue := 12, belowSince := some 0 } }

/-- The part with every lever at its limit, for 100 ms of up time above the cap of 1,800 W. -/
def allPressed : State :=
  { State.reset with clock := { State.reset.clock with up := 100 * msPs },
                     power := { pace := 0, issue := 12, windows := 2, rate := 12, admitLimit := some 0, overSince := some 0 } }

/-- A draw of 97 % of the cap presses the first lever short of its limit: half of digital issue, as no core has a supply. -/
theorem witness_leverApply : ∃ t, exec (.governorLeverApply 0 1746 4) State.reset = .next t ∧ t.power.issue = 20 := by
  obtain ⟨happly, -⟩ := governorMovesOneLeverAndKeepsTheCap
  obtain ⟨t, ht, -, hissue, -⟩ := happly State.reset _ _ 0 1746 4 1 rfl rfl (by decide) (by decide)
  exact ⟨t, ht, hissue⟩

theorem witness_leverRelease : ∃ t, exec (.governorLeverRelease 0 900 4) issueHalved = .next t ∧ t.power.issue = 16 := by
  obtain ⟨-, hrelease, -⟩ := governorMovesOneLeverAndKeepsTheCap
  obtain ⟨t, ht, -, hissue, -⟩ := hrelease issueHalved _ _ 0 900 4 0 2 rfl rfl (by decide) (by decide) (by decide)
  exact ⟨t, ht, hissue⟩

theorem witness_capUnmet : ∃ t, exec (.powerCapUnmet 0 1801) allPressed = .next t ∧ t.power.capUnmet = true ∧ t.power.issue = 12 := by
  obtain ⟨-, -, hunmet, -⟩ := governorMovesOneLeverAndKeepsTheCap
  obtain ⟨t, ht, -, hpower, -⟩ := hunmet allPressed _ _ 0 1801 0 rfl rfl (by decide) (by decide) (by decide)
  exact ⟨t, ht, by rw [hpower], by rw [hpower]; decide⟩

end Sys2Proof.Machine
end

section
/-! The pulse reference (R39, R64, R65): what its commands leave, what a write of its relock limit comes to, and the statement
O31. -/

namespace Sys2Proof.Machine

-- the commands of the pulse reference

/-- What losing lock leaves: the reference acquires again against the limit in force, the windows in the light of the 34 engines
wait for their reissue, and the loss is counted (R39). PULSE_REF_LOCK_LOSS ends so (`exec_pulseRefLockLoss`). -/
def State.loseLock (s : State) (c : Nat) : State :=
  (forRange 34 (s.modCore c (fun k => { k with pulse := .acquiring, pulseLost := some (s.ns, s.val (coreIdx c) 0x23) }))
    (fun s e => s.discardWindow c e)).bump (coreIdx c) 0x21 1

theorem exec_pulseRefLockLoss {s : State} {dt : Nat} {core : Fin 16} (hlocked : ((s.elapse dt).core core).pulse = .locked) :
    exec (.pulseRefLockLoss dt core) s = .next ((s.elapse dt).loseLock core) := by
  show execPulseRefLockLoss dt core s = _
  unfold execPulseRefLockLoss
  simp only [hlocked, bne_self_eq_false, Bool.false_eq_true, if_false, State.loseLock]

/-- Discarding windows touches engines and their counters alone. -/
theorem State.loseLock_keeps (s : State) (c : Nat) :
    (s.modCore c (fun k => { k with pulse := .acquiring, pulseLost := some (s.ns, s.val (coreIdx c) 0x23) })).Keeps
      [.od, .engines] (s.loseLock c) :=
  State.bump_keeps (by decide) _ _ _
    (keeps_forRange (.refl _ _) (fun _ e h => State.discardWindow_keeps (Within.refl _) c e h))

theorem State.loseLock_core (s : State) (c x : Nat) : (s.loseLock c).core x =
    if x = c then { s.core c with pulse := .acquiring, pulseLost := some (s.ns, s.val (coreIdx c) 0x23) } else s.core x := by
  rw [(s.loseLock_keeps c).core_eq x (by decide), State.modCore_core]

theorem State.loseLock_mem (s : State) (c : Nat) : (s.loseLock c).mem = s.mem := (s.loseLock_keeps c).mem_eq (by decide)

/-- The window in the light goes first in line, and the vat stays as it is (R39). -/
theorem State.loseLock_eng (s : State) (c e : Nat) (he : e < 34) : ((s.loseLock c).eng c e).integrating = none ∧
    ((s.loseLock c).eng c e).todo = (s.eng c e).integrating.toList ++ (s.eng c e).todo ∧
    ((s.loseLock c).eng c e).vat = (s.eng c e).vat := by
  unfold State.loseLock
  rw [State.bump_eng]
  exact (State.discardFold c 34 (Nat.le_refl _) _ e he).1 he

theorem exec_pulseRefRelock {s : State} {dt : Nat} {core : Fin 16} (hacquires : ((s.elapse dt).core core).pulse = .acquiring) :
    exec (.pulseRefRelock dt core) s =
      .next ((s.elapse dt).modCore core (fun k => { k with pulse := .locked, pulseLost := none })) := by
  show execPulseRefRelock dt core s = _
  unfold execPulseRefRelock
  simp only [hacquires, if_true]

/-- What a reference leaves whose relock limit has passed: UNLOCKED, its event, and its core FENCED (R39).
`exec_pulseRefUnlock_due` ties it to PULSE_REF_UNLOCK. -/
def State.failRelock (s : State) (c : Nat) : State :=
  ((s.modCore c (fun k => { k with pulse := .unlocked, pulseLost := none })).raise 0x0201 (coreRef c) 0).fence (coreRef c)

theorem exec_pulseRefUnlock {s : State} {dt since limit : Nat} {core : Fin 16}
    (hlost : ((s.elapse dt).core core).pulseLost = some (since, limit)) : exec (.pulseRefUnlock dt core) s =
      .next (if since + 1000 * limit ≤ (s.elapse dt).ns then (s.elapse dt).failRelock core else s.elapse dt) := by
  show execPulseRefUnlock dt core s = _
  unfold execPulseRefUnlock
  simp only [hlost, State.failRelock]

theorem exec_pulseRefUnlock_early {s : State} {dt since limit : Nat} {core : Fin 16}
    (hlost : ((s.elapse dt).core core).pulseLost = some (since, limit)) (hearly : (s.elapse dt).ns < since + 1000 * limit) :
    exec (.pulseRefUnlock dt core) s = .next (s.elapse dt) := by
  rw [exec_pulseRefUnlock hlost, if_neg (Nat.not_le.2 hearly)]

theorem exec_pulseRefUnlock_due {s : State} {dt since limit : Nat} {core : Fin 16}
    (hlost : ((s.elapse dt).core core).pulseLost = some (since, limit)) (hdue : since + 1000 * limit ≤ (s.elapse dt).ns) :
    exec (.pulseRefUnlock dt core) s = .next ((s.elapse dt).failRelock core) := by
  rw [exec_pulseRefUnlock hlost, if_pos hdue]

-- refused writes, by any way

/-- A write that a check refuses is told so where the part hears it, and not heard otherwise. -/
theorem State.writeVia_refused {s : State} {v : Via} {i k : Nat} {d : List Byte} (act : State → Nat × State)
    (hg : (s.writeGate v i k d).1 ≠ 0) : s.writeVia v i k d act =
      if s.hears v = true then (s.writeGate v i k d).2.reply v i k (s.writeGate v i k d).1 else s := by
  unfold State.writeVia
  cases s.hears v <;> simp [hg]

theorem State.writeVia_refused_val {s : State} {v : Via} {i k x y : Nat} {d : List Byte} (act : State → Nat × State)
    (hg : (s.writeGate v i k d).1 ≠ 0) (h : quiet x y) (h3 : odKey x y / 256 ≠ 0x3000) :
    (s.writeVia v i k d act).val x y = s.val x y := by
  rw [State.writeVia_refused act hg]
  split
  · rw [State.reply_val, State.writeGate_val _ _ _ _ _ _ _ h h3]
  · rfl

theorem State.writeVia_refused_cores {s : State} {v : Via} {i k : Nat} {d : List Byte} (act : State → Nat × State)
    (hg : (s.writeGate v i k d).1 ≠ 0) : (s.writeVia v i k d act).cores = s.cores := by
  rw [State.writeVia_refused act hg]
  split
  · rw [State.reply_cores, (State.writeGate_keeps (Within.refl _) v i k d (.refl _ s)).cores_eq (by decide)]
  · rfl

-- the relock limit

/-- The entry of the relock limit is an unsigned number of 2 bytes from 10 to 1,000 (R64). -/
theorem odRow_relockLimit (c : Fin 16) : odRow (coreIdx c) 0x23 = some ⟨0x23, 6, 2, 1, 0x64, 10, 1000, 0⟩ := by
  revert c; decide

theorem relockLimit_index (c : Fin 16) : (BitVec.ofNat 16 (coreIdx c)).toNat = coreIdx c := by
  have := c.isLt
  simp only [BitVec.toNat_ofNat, coreIdx]
  omega

/-- A write of a relock limit outside 10 to 1,000 is refused by some check (R65). -/
theorem State.writeGate_relockLimit_out (s : State) (v : Via) (c : Fin 16) {data : List Byte}
    (h : leNat data < 10 ∨ 1000 < leNat data) : (s.writeGate v (coreIdx c) 0x23 data).1 ≠ 0 := by
  refine State.writeGate_out (odRow_relockLimit c) ?_
  have hout : 10 ≤ leNat data → 1000 < leNat data := fun hlow => h.resolve_left (Nat.not_lt.2 hlow)
  simpa [OdRow.accepts, directType, OdRow.isSigned] using hout

theorem viaOf_relockLimit (p : Fin 2) (c : Fin 16) : viaOf (.host p) (coreIdx c) 0x23 = .direct p := by
  simp [viaOf, odRow_relockLimit, directType]

theorem commObject_relockLimit (c : Fin 16) : commObject (coreIdx c) = false := by
  revert c; decide

theorem State.entryWrite_relockLimit_coe (s : State) (c : Fin 16) (data : List Byte) : s.entryWrite .coe (coreIdx c) 0x23 data =
    s.writeVia .coe (coreIdx c) 0x23 data (State.writeAct 1 true (coreIdx c) 0x23 data) := by
  simp [State.entryWrite, State.sdoWrite, commObject_relockLimit]

theorem State.entryWrite_relockLimit_host (s : State) (p : Fin 2) (c : Fin 16) (data : List Byte) :
    s.entryWrite (.host p) (coreIdx c) 0x23 data = if s.hears (.direct p) then
      (s.dropLow p).writeVia (.direct p) (coreIdx c) 0x23 data (State.writeAct (2 + p) false (coreIdx c) 0x23 data) else s := by
  simp only [State.entryWrite, viaOf_relockLimit]

theorem exec_entryWrite_relockLimit (dt : Nat) (road : Road) (c : Fin 16) (data : List Byte) (s : State) :
    exec (.entryWrite dt road (BitVec.ofNat 16 (coreIdx c)) 0x23 data) s =
      .next ((s.elapse dt).entryWrite road (coreIdx c) 0x23 data) := by
  show execEntryWrite dt road (BitVec.ofNat 16 (coreIdx c)) 0x23 data s = _
  unfold execEntryWrite
  rw [relockLimit_index]
  rfl

theorem quiet_relockLimit (c : Fin 16) : quiet (coreIdx c) 0x23 ∧ odKey (coreIdx c) 0x23 / 256 ≠ 0x3000 := by
  revert c; decide

/-- A low half held in a port's write shadow is dropped at the price of one count of the port. -/
theorem State.dropLow_relockLimit (s : State) (p : Fin 2) (c : Fin 16) :
    (s.dropLow p).val (coreIdx c) 0x23 = s.val (coreIdx c) 0x23 := by
  unfold State.dropLow
  split
  · rfl
  · rw [State.bump_val_other _ _ _ _ _ _ (by have := c.isLt; have := p.isLt; simp only [odKey, coreIdx]; omega), State.modHost_val]

/-- On every road a refused limit leaves the entry and the cores, with the reacquisitions under way, as they were (R65). -/
theorem State.entryWrite_relockLimit_refused (s : State) (road : Road) (c : Fin 16) {data : List Byte}
    (h : leNat data < 10 ∨ 1000 < leNat data) :
    (s.entryWrite road (coreIdx c) 0x23 data).val (coreIdx c) 0x23 = s.val (coreIdx c) 0x23 ∧
      (s.entryWrite road (coreIdx c) 0x23 data).cores = s.cores := by
  obtain ⟨hq, h3⟩ := quiet_relockLimit c
  cases road with
  | coe =>
    have hg := s.writeGate_relockLimit_out .coe c h
    rw [State.entryWrite_relockLimit_coe]
    exact ⟨State.writeVia_refused_val _ hg hq h3, State.writeVia_refused_cores _ hg⟩
  | host p =>
    rw [State.entryWrite_relockLimit_host]
    split
    · have hg := (s.dropLow p).writeGate_relockLimit_out (.direct p) c h
      have hcores := (State.dropLow_keeps (Within.refl _) p (.refl _ s)).cores_eq (by decide)
      exact ⟨(State.writeVia_refused_val _ hg hq h3).trans (s.dropLow_relockLimit p c),
        (State.writeVia_refused_cores _ hg).trans hcores⟩
    · exact ⟨rfl, rfl⟩

/-- Over CoE the refusal is an abort, where the mailbox is heard (R65, R381). -/
theorem State.entryWrite_relockLimit_abort (s : State) (c : Fin 16) {data : List Byte} (h : leNat data < 10 ∨ 1000 < leNat data)
    (hhears : s.hears .coe = true) :
    ∃ a, 0 < a ∧ (s.entryWrite .coe (coreIdx c) 0x23 data).out.getLast? = some (.sdoAbort a) := by
  have hg := s.writeGate_relockLimit_out .coe c h
  refine ⟨_, Nat.pos_of_ne_zero hg, ?_⟩
  rw [State.entryWrite_relockLimit_coe, State.writeVia_refused _ hg, if_pos hhears]
  simp [State.reply, hg]

/-- An entry of the units, in objects `0x5000` to `0x5FFF`, takes a value with no act of its own. -/
theorem State.act_unitEntry (s : State) (m : Nat) (coe : Bool) {index : Nat} (sub : Nat) (data : List Byte) (hlow : 0x5000 ≤ index)
    (hhigh : index < 0x6000) : s.act m coe index sub data = (0, s.setVal index sub (leNat data)) := by
  have hunder : ∀ n, n ≤ 0x5000 → ¬ index < n := fun n hn => by omega
  have hne : ∀ n, n < 0x5000 ∨ 0x6000 ≤ n → index ≠ n := fun n hn => by omega
  have hanalog : ¬ 0x6100 ≤ index := by omega
  have hplain : plainOk index sub (leNat data) = true := by simp [plainOk, hne]
  simp [State.act, State.plainAct, hunder, hne, hanalog, hplain, store]

/-- The relock limit is no entry of the access tables (R254, R256, R257). -/
theorem relockLimit_noTable (c : Fin 16) : isPeer (coreIdx c) 0x23 = false ∧ isRegion (coreIdx c) 0x23 = false ∧
    isGrant (coreIdx c) 0x23 = false := by
  revert c; decide

/-- No rule over several entries holds a relock limit back. -/
theorem State.ruleRefuses_relockLimit (s t : State) (m : Nat) (c : Fin 16) : s.ruleRefuses t m (coreIdx c) 0x23 = none := by
  obtain ⟨hpeer, hregion, hgrant⟩ := relockLimit_noTable c
  have htable : s.tableRule t (coreIdx c) 0x23 = (0, false) := by simp [State.tableRule, hpeer, hregion, hgrant]
  have hpair : t.pairRule (coreIdx c) 0x23 = true := by simp [State.pairRule, coreIdx]
  simp [State.ruleRefuses, htable, hpair]

theorem State.writeAct_relockLimit (s : State) (m : Nat) (coe : Bool) (c : Fin 16) (data : List Byte) :
    State.writeAct m coe (coreIdx c) 0x23 data s = (0, s.setVal (coreIdx c) 0x23 (leNat data)) := by
  have hact := s.act_unitEntry m coe (index := coreIdx c) 0x23 data (by simp [coreIdx]) (by have := c.isLt; simp only [coreIdx]; omega)
  simp [State.writeAct, hact, State.ruleRefuses_relockLimit]

/-- A limit that every check lets through stands, and the answer says so (R65). -/
theorem State.entryWrite_relockLimit_admitted {s : State} {c : Fin 16} {data : List Byte} (h : s.admits .coe (coreIdx c) 0x23 data) :
    s.entryWrite .coe (coreIdx c) 0x23 data = (s.setVal (coreIdx c) 0x23 (leNat data)).emit (.sdo (coreIdx c) 0x23 []) := by
  rw [State.entryWrite_relockLimit_coe, show s.writeVia .coe (coreIdx c) 0x23 data _ = _ from State.writeRow_admitted h,
    State.writeAct_relockLimit]
  rfl

-- the statement

/-- Settles O31. A refused write is one of the entry's range (`State.writeGate_relockLimit_out`); an admitted one changes the entry
alone, and the limit taken at the loss of lock is what PULSE_REF_UNLOCK waits for. -/
theorem pulseReferenceLimitWrites : Obligations.PulseReferenceLimitWrites := by
  refine ⟨?refused, ?admitted, ?lost, ?limit⟩
  case refused =>
    rintro s _ dt road core data rfl hout
    obtain ⟨hval, hcores⟩ := (s.elapse dt).entryWrite_relockLimit_refused road core hout
    refine ⟨_, exec_entryWrite_relockLimit dt road core data s, hval, fun c => by simp only [State.core, hcores], ?_⟩
    rintro rfl hhears
    exact (s.elapse dt).entryWrite_relockLimit_abort core hout hhears
  case admitted =>
    rintro s _ dt core data rfl hadmits
    refine ⟨_, exec_entryWrite_relockLimit dt .coe core data s, ?_⟩
    rw [State.entryWrite_relockLimit_admitted hadmits]
    exact ⟨State.setVal_val_same _ _ _ _, rfl, rfl⟩
  case lost =>
    rintro s _ dt core rfl hlocked
    refine ⟨_, exec_pulseRefLockLoss hlocked, ?_⟩
    rw [State.loseLock_core, if_pos rfl]
    exact ⟨rfl, rfl⟩
  case limit =>
    rintro s _ dt since limit core rfl hlost
    exact ⟨exec_pulseRefUnlock_early hlost, fun hdue => ⟨_, exec_pulseRefUnlock_due hlost hdue, rfl⟩⟩

-- states that meet the hypotheses of its clauses

/-- `Tests.served` with the pulse reference of core 3 lost at time 0 against a limit of 10 µs, at a Kelig time in ps. -/
def relockLost (now : Nat) : State :=
  { Tests.served.modCore 3 (fun k => { k with pulse := .acquiring, pulseLost := some (0, 10) }) with
    clock := { State.reset.clock with now := now, up := now } }

/-- One above the range is refused: the entry keeps 100 µs, and the mailbox answers with an abort. -/
theorem witness_relockLimit_refused : ∃ t, exec (.entryWrite 0 .coe (BitVec.ofNat 16 (coreIdx (15 : Fin 16))) 0x23 (leBytes 2 1001))
    Tests.served = .next t ∧ t.val (coreIdx 15) 0x23 = 100 ∧ ∃ a, 0 < a ∧ t.out.getLast? = some (.sdoAbort a) := by
  obtain ⟨hrefused, -⟩ := pulseReferenceLimitWrites
  obtain ⟨t, ht, hval, -, habort⟩ := hrefused Tests.served _ 0 .coe 15 (leBytes 2 1001) rfl (by decide)
  exact ⟨t, ht, hval.trans (by decide), habort rfl (by decide)⟩

/-- The highest limit of the range stands. -/
theorem witness_relockLimit_admitted : ∃ t, exec (.entryWrite 0 .coe (BitVec.ofNat 16 (coreIdx (15 : Fin 16))) 0x23 (leBytes 2 1000))
    Tests.served = .next t ∧ t.val (coreIdx 15) 0x23 = 1000 := by
  obtain ⟨-, hadmitted, -⟩ := pulseReferenceLimitWrites
  obtain ⟨t, ht, hval, -⟩ := hadmitted Tests.served _ 0 15 (leBytes 2 1000) rfl ⟨by decide, by decide⟩
  exact ⟨t, ht, hval.trans (by decide)⟩

/-- A picosecond before the limit taken, the reference still acquires. -/
theorem witness_pulseRefUnlock_early : ∃ t, exec (.pulseRefUnlock 0 3) (relockLost (10 * usPs - 1)) = .next t ∧
    (t.core 3).pulse = .acquiring := by
  obtain ⟨-, -, -, hlimit⟩ := pulseReferenceLimitWrites
  obtain ⟨hearly, -⟩ := hlimit (relockLost (10 * usPs - 1)) _ 0 0 10 3 rfl (by decide)
  exact ⟨_, hearly (by decide), by decide⟩

end Sys2Proof.Machine
end

section
/-! Engine faults and stale calibrations (R36, R75, R100), and the statement O12 on them and on the pulse reference. -/

namespace Sys2Proof.Machine

theorem State.fence_mem (s : State) (r : Nat) : (s.fence r).mem = s.mem :=
  (State.fence_keeps (Within.refl _) r (.refl _ s)).mem_eq (by decide)

theorem exec_engineFaultStop {s : State} {dt : Nat} {core : Fin 16} {eng : Fin 34}
    (hstopping : ((s.elapse dt).eng core eng).stopping = true) : exec (.engineFaultStop dt core eng) s =
      .next (((s.elapse dt).bump (engIdx core eng) 0x0C (if ((s.elapse dt).eng core eng).integrating.isSome then 1 else 0)).fence
        (engineRef core eng)) := by
  show execEngineFaultStop dt core eng s = _
  unfold execEngineFaultStop
  simp only [hstopping, Bool.not_true, Bool.false_eq_true, if_false]

theorem State.failRelock_mem (s : State) (c : Nat) : (s.failRelock c).mem = s.mem := by
  rw [State.failRelock, State.fence_mem, State.raise_mem, State.modCore_mem]

/-- A core whose pulse reference stays unlocked keeps its vats (R39). -/
theorem State.failRelock_vat (s : State) (c : Fin 16) (e : Nat) (he : e < 34) :
    ((s.failRelock c).eng c e).vat = (s.eng c e).vat := by
  rw [State.failRelock, State.fence_core_vat _ c e he, State.raise_eng, State.modCore_eng]

theorem exec_bankWriteFault {s : State} {dt : Nat} {core : Fin 16} {eng : Fin 34} {w : WriteRun}
    (hwriting : ((s.elapse dt).eng core eng).writing = some w) (hruns : w.phase ≠ .waiting) : exec (.bankWriteFault dt core eng) s =
      .next (((s.elapse dt).raise 0x0205 (engineRef core eng) w.plane).fence (engineRef core eng)) := by
  show execBankWriteFault dt core eng s = _
  unfold execBankWriteFault
  simp only [hwriting, hruns, if_false]

/-- What a calibration past its stale limit leaves: the engine marked, and the event (R75). -/
def State.markStale (s : State) (c e age : Nat) : State :=
  (s.modEng c e (fun g => { g with stale := true })).raise 0x0203 (engineRef c e) (age / msPs % 2 ^ 32)

theorem exec_calStale {s : State} {dt : Nat} {core : Fin 16} {eng : Fin 34} (hfresh : ((s.elapse dt).eng core eng).stale = false)
    (hcal : ((s.elapse dt).eng core eng).calibratedLast ≠ 0) (hpast : (s.elapse dt).val (coreIdx core) 0x28 * sPs <
      (s.elapse dt).up - ((s.elapse dt).eng core eng).calibratedLast) : exec (.calStale dt core eng) s =
      .next ((s.elapse dt).markStale core eng ((s.elapse dt).up - ((s.elapse dt).eng core eng).calibratedLast)) := by
  show execCalStale dt core eng s = _
  unfold execCalStale
  simp only [hfresh, hcal, decide_false, Bool.or_self, Bool.false_or, decide_eq_true_eq, if_neg (Nat.not_le.2 hpast), State.markStale]

theorem State.markStale_eng (s : State) (c e age : Nat) : (s.markStale c e age).eng c e = { s.eng c e with stale := true } := by
  rw [State.markStale, State.raise_eng, State.modEng_eng_same]

theorem State.markStale_eng_other (s : State) {c e x y : Nat} (age : Nat) (he : e < 34) (hy : y < 34) (h : x ≠ c ∨ y ≠ e) :
    (s.markStale c e age).eng x y = s.eng x y := by
  rw [State.markStale, State.raise_eng, State.modEng_eng_other _ _ _ _ _ _ he hy h]

/-- Settles O12, one clause for each command. That a unit given up is FENCED or RETIRED is `State.fence_unit`; the clauses on the
pulse reference are those of `State.loseLock` and `State.failRelock`. -/
theorem engineFaultsAndPulseReference : Obligations.EngineFaultsAndPulseReference := by
  refine ⟨?stop, ?loss, ?relock, ?unlock, ?write, ?stale⟩
  case stop =>
    rintro s _ dt core eng rfl hstopping
    obtain ⟨hstopped, hcal⟩ := State.fence_engine ((s.elapse dt).bump (engIdx core eng) 0x0C
      (if ((s.elapse dt).eng core eng).integrating.isSome then 1 else 0)) core eng
    refine ⟨_, exec_engineFaultStop hstopping, State.fence_unit _ _, hstopped, hcal, ?_⟩
    rw [State.fence_mem, State.bump_mem]
  case loss =>
    rintro s _ dt core rfl hlocked
    have hcore := (s.elapse dt).loseLock_core core
    refine ⟨_, exec_pulseRefLockLoss hlocked, ?_, ?_, (s.elapse dt).loseLock_eng core, fun c hc => ?_, (s.elapse dt).loseLock_mem core⟩
    · rw [hcore, if_pos rfl]
    · rw [hcore, if_pos rfl]
    · rw [hcore, if_neg hc]
  case relock =>
    rintro s _ dt core rfl hacquires
    exact exec_pulseRefRelock hacquires
  case unlock =>
    rintro s _ dt since limit core rfl hlost hdue
    exact ⟨_, exec_pulseRefUnlock_due hlost hdue, rfl, State.fence_unit _ _, (s.elapse dt).failRelock_vat core,
      (s.elapse dt).failRelock_mem core⟩
  case write =>
    rintro s _ dt core eng w rfl hwriting hruns
    refine ⟨_, exec_bankWriteFault hwriting hruns, rfl, State.fence_unit _ _, ?_⟩
    rw [State.fence_mem, State.raise_mem]
  case stale =>
    rintro s _ dt age core eng rfl hfresh hcal rfl hpast
    exact ⟨_, exec_calStale hfresh hcal hpast, State.markStale_eng _ _ _ _, rfl,
      fun c e he h => State.markStale_eng_other _ _ eng.isLt he h⟩

-- states that meet the hypotheses of its clauses; `relockLost` meets those on the relock

/-- Core 0 with its pulse reference LOCKED. Its engine 0 has a loop fault and a window in the light, one more to open, a column of a
bank write under way, and a calibration of 1 ps of up time; 180 s, its stale limit, and 1 ps have passed since. -/
def engineFaulty : State :=
  { State.reset with
    clock := { State.reset.clock with up := 180 * sPs + 2 }
    cores := [(0, { pulse := .locked })]
    engines := [(0, { stopping := true, integrating := some { v := 1 }, todo := [{ v := 2 }], plane0 := { calAt := 1 },
                      writing := some { phase := .reset } })] }

theorem witness_engineFaultStop : ∃ t, exec (.engineFaultStop 0 0 0) engineFaulty = .next t ∧ (t.eng 0 0).stopping = false := by
  obtain ⟨hstop, -⟩ := engineFaultsAndPulseReference
  obtain ⟨t, ht, -, hstopped, -⟩ := hstop engineFaulty _ 0 0 0 rfl (by decide)
  exact ⟨t, ht, hstopped⟩

/-- The window in the light goes first in line. -/
theorem witness_pulseRefLockLoss : ∃ t, exec (.pulseRefLockLoss 0 0) engineFaulty = .next t ∧ (t.core 0).pulseLost = some (0, 100) ∧
    (t.eng 0 0).todo = [{ v := 1 }, { v := 2 }] := by
  obtain ⟨-, hloss, -⟩ := engineFaultsAndPulseReference
  obtain ⟨t, ht, -, hlost, hengines, -⟩ := hloss engineFaulty _ 0 0 rfl (by decide)
  obtain ⟨-, htodo, -⟩ := hengines 0 (by decide)
  exact ⟨t, ht, hlost.trans (by decide), htodo.trans (by decide)⟩

theorem witness_pulseRefRelock : ∃ t, exec (.pulseRefRelock 0 3) (relockLost (10 * usPs)) = .next t ∧ (t.core 3).pulse = .locked := by
  obtain ⟨-, -, hrelock, -⟩ := engineFaultsAndPulseReference
  exact ⟨_, hrelock (relockLost (10 * usPs)) _ 0 3 rfl (by decide), by decide⟩

theorem witness_pulseRefUnlock : ∃ t, exec (.pulseRefUnlock 0 3) (relockLost (10 * usPs)) = .next t ∧
    (t.unit (coreRef (3 : Fin 16)) = .fenced ∨ t.unit (coreRef (3 : Fin 16)) = .retired) := by
  obtain ⟨-, -, -, hunlock, -⟩ := engineFaultsAndPulseReference
  obtain ⟨t, ht, -, hunit, -⟩ := hunlock (relockLost (10 * usPs)) _ 0 0 10 3 rfl (by decide) (by decide)
  exact ⟨t, ht, hunit⟩

theorem witness_bankWriteFault : ∃ t, exec (.bankWriteFault 0 0 0) engineFaulty = .next t ∧
    (t.unit (engineRef (0 : Fin 16) (0 : Fin 34)) = .fenced ∨ t.unit (engineRef (0 : Fin 16) (0 : Fin 34)) = .retired) := by
  obtain ⟨-, -, -, -, hwrite, -⟩ := engineFaultsAndPulseReference
  obtain ⟨t, ht, -, hunit, -⟩ := hwrite engineFaulty _ 0 0 0 { phase := .reset } rfl (by decide) (by decide)
  exact ⟨t, ht, hunit⟩

theorem witness_calStale : ∃ t, exec (.calStale 0 0 0) engineFaulty = .next t ∧ (t.eng 0 0).stale = true := by
  obtain ⟨-, -, -, -, -, hstale⟩ := engineFaultsAndPulseReference
  obtain ⟨t, ht, heng, -⟩ := hstale engineFaulty _ 0 (180 * sPs + 1) 0 0 rfl (by decide) (by decide) (by decide) (by decide)
  exact ⟨t, ht, congrArg Engine.stale heng⟩

end Sys2Proof.Machine
end

section
/-! The aligner, window boundaries, decisions, calibration windows and the headroom policy (R49, R57, R62, R69, R72, R73, R77, R79,
R85), and the statement O10. -/

namespace Sys2Proof.Machine

-- the aligner

theorem Op.engines_lt {o : Op} {e : Nat} (h : e ∈ o.engines) : e < 34 := by
  simpa using (List.mem_filter.1 h).2

theorem exec_alignerVector (dt : Nat) (core : Fin 16) (s : State) : exec (.alignerVector dt core) s =
    .next (if (s.elapse dt).unitWorks (coreRef core) = true then (s.elapse dt).alignNext core else s.elapse dt) := rfl

theorem State.alignNext_idle {s : State} {c : Nat} (h : s.nextAligned c (s.core c).alignable [] = none) : s.alignNext c = s := by
  unfold State.alignNext
  simp only [h]

/-- The vector served is the last to wait on every engine of its mask, and no other engine notices (R49). -/
theorem State.alignNext_delivers {s st : State} {c n : Nat} {o : Op} {row : List Fp}
    (hnext : s.nextAligned c (s.core c).alignable [] = some (n, o)) (hrow : s.inputRow c o o.aligned = (stOk, st, row)) :
    let a := alignVector row (pCoding o.word = 0) (codeBits (pCoding o.word) (pBits o.word))
    (∀ e ∈ o.engines, ((s.alignNext c).eng c e).inbuf.getLast? = some { op := n, v := o.aligned, codes := a.1, wexp := a.2.1 }) ∧
      (∀ x e : Nat, e < 34 → (x ≠ c ∨ e ∉ o.engines) → (s.alignNext c).eng x e = s.eng x e) := by
  intro a
  have hread : ∀ x e, st.eng x e = s.eng x e := fun x e => by
    have h := (State.inputRow_keeps (Within.refl _) c o o.aligned (.refl _ s)).eng_eq x e (by decide)
    rwa [hrow] at h
  obtain ⟨hmask, hrest⟩ := deliver c a.2.2 { op := n, v := o.aligned, codes := a.1, wexp := a.2.1 } o.engines
    (fun _ h => Op.engines_lt h) st
  unfold State.alignNext
  simp only [hnext, hrow, bne_self_eq_false, Bool.false_eq_true, if_false, State.modCore_eng]
  exact ⟨fun e he => hmask e (Op.engines_lt he) (.inl he), fun x e he h => (hrest x e he h).trans (hread x e)⟩

theorem State.alignNext_mem (s : State) (c : Nat) : (s.alignNext c).mem = s.mem :=
  (State.alignNext_keeps (Within.refl _) c (.refl _ s)).mem_eq (by decide)

-- window boundaries

theorem exec_windowOpen {s : State} {dt : Nat} {core : Fin 16} {eng : Fin 34}
    (hdecided : ((s.elapse dt).eng core eng).converting = none) (hended : ((s.elapse dt).eng core eng).slotEnd ≤ (s.elapse dt).up) :
    exec (.windowOpen dt core eng) s = .next ((s.elapse dt).boundary core eng) := by
  show execWindowOpen dt core eng s = _
  unfold execWindowOpen
  simp only [hdecided, Option.isSome_none, Bool.false_or, decide_eq_true_eq, if_neg (Nat.not_lt.2 hended)]

theorem State.boundary_mem (s : State) (c e : Nat) : (s.boundary c e).mem = s.mem :=
  (State.boundary_keeps (Within.refl _) c e (.refl _ s)).mem_eq (by decide)

theorem State.shiftWindow_up (s : State) (c e : Nat) : (s.shiftWindow c e).up = s.up :=
  (State.shiftWindow_keeps (Within.refl _) c e (.refl _ s)).up_eq

section
variable {s : State} {c e : Nat} {w : Window} {g' : Engine} {r : PassRun} {p : TvWord} {first : Option Int}

/-- Within the rate's budget the window opens and holds its slot (R57, R62). -/
theorem State.boundary_opens (hopen : (s.shiftWindow c e).mayOpen c e = true)
    (hnext : (s.shiftWindow c e).nextWindow c e (((s.shiftWindow c e).eng c e).group ((s.shiftWindow c e).windowRate c)) =
      .opens w g' r p first)
    (hbudget : (((s.shiftWindow c e).eng c e).group ((s.shiftWindow c e).windowRate c)).used <
      (((s.shiftWindow c e).eng c e).group ((s.shiftWindow c e).windowRate c)).rate) :
    ((s.boundary c e).eng c e).integrating = some w ∧ ((s.boundary c e).eng c e).used = g'.used + 1 ∧
      s.up + windowPs (pBits p) ≤ ((s.boundary c e).eng c e).slotEnd := by
  unfold State.boundary
  simp only [hopen, hnext, if_neg (Nat.not_le.2 hbudget), Bool.not_true, Bool.false_eq_true, if_false]
  cases first <;> simp [Engine.pass1, State.shiftWindow_up]

/-- Beyond the budget the slot stays idle (R62). -/
theorem State.boundary_idles (hopen : (s.shiftWindow c e).mayOpen c e = true)
    (hnext : (s.shiftWindow c e).nextWindow c e (((s.shiftWindow c e).eng c e).group ((s.shiftWindow c e).windowRate c)) =
      .opens w g' r p first)
    (hspent : (((s.shiftWindow c e).eng c e).group ((s.shiftWindow c e).windowRate c)).rate ≤
      (((s.shiftWindow c e).eng c e).group ((s.shiftWindow c e).windowRate c)).used) :
    (s.boundary c e).eng c e = { ((((s.shiftWindow c e).eng c e).group ((s.shiftWindow c e).windowRate c)).pass1 false) with
      slotEnd := (s.shiftWindow c e).up + windowPs (pBits p) } := by
  unfold State.boundary
  simp only [hopen, hnext, if_pos hspent, Bool.not_true, Bool.false_eq_true, if_false, State.modEng_eng_same]

end

-- decisions

theorem exec_windowDecision {s : State} {dt : Nat} {core : Fin 16} {eng : Fin 34} {charges : List Int} {gaps : List Nat}
    {w : Window} {r : PassRun} {o : Op} {v : AVec} (hconv : ((s.elapse dt).eng core eng).converting = some w)
    (hpass : ((s.elapse dt).eng core eng).passes.find? (fun r => r.op = w.op) = some r)
    (hop : ((s.elapse dt).core core).op w.op = some o) (hvec : ((s.elapse dt).eng core eng).vectorOf w = some v) :
    exec (.windowDecision dt core eng charges gaps) s =
      .next ((s.elapse dt).decideRead core eng w o.word v r (convertAll w (pBits o.word) charges gaps)) := by
  show execWindowDecision dt core eng charges gaps s = _
  unfold execWindowDecision
  simp only [hconv, hpass, hop, hvec]

theorem State.decideRead_mem (s : State) (c e : Nat) (w : Window) (p : TvWord) (v : AVec) (r : PassRun) (cs : List Conversion) :
    (s.decideRead c e w p v r cs).mem = s.mem :=
  (State.decideRead_keeps (Within.refl _) c e w p v r cs (.refl _ s)).mem_eq (by decide)

-- calibration windows

/-- The slot of an engine `g`, as its group of slots stands, is one that a calibration window may take: the engine may open windows,
no pass window is ready or under way, and no BANK.SWAP waits (R62, R72, R104). -/
structure State.CalSlot (s : State) (c e : Nat) (g : Engine) : Prop where
  inService : s.engineOut c e = false
  locked : (s.core c).pulse = .locked
  noFault : g.stopping = false
  dark : g.integrating = none
  decided : g.converting = none
  notReady : s.nextWindow c e g = .none
  ended : g.slotEnd ≤ s.up
  noSwap : s.head c e opBankSwap = none
  budget : g.used < g.rate

/-- A calibration window that is no patrol takes such a slot (R72). -/
theorem State.calWindow_takes {s : State} {c e : Nat} {g : Engine} {r : CalRun} (hg : g = (s.eng c e).group (s.windowRate c))
    (hslot : s.CalSlot c e g) (hcal : g.cal = some r) (hmore : r.done < 4096) (hcls : r.cls < 3) :
    ((s.calWindow c e).eng c e).cal = some { r with done := r.done + 1 } ∧ ((s.calWindow c e).eng c e).used = g.used + 1 ∧
      s.up + windowPs r.bits ≤ ((s.calWindow c e).eng c e).slotEnd ∧
      (∀ x y : Nat, e < 34 → y < 34 → (x ≠ c ∨ y ≠ e) → (s.calWindow c e).eng x y = s.eng x y) := by
  have hpatrol : ¬ (decide (3 ≤ r.cls) && g.patrolSpent s.up r.bits) = true := by simp [Nat.not_le.2 hcls]
  unfold State.calWindow
  simp only [← hg, hslot.inService, hslot.locked, hslot.noFault, hslot.dark, hslot.decided, hslot.notReady, hslot.noSwap,
    Nat.not_lt.2 hslot.ended, Nat.not_le.2 hslot.budget, hcal, if_neg (Nat.not_le.2 hmore), if_neg hpatrol, bne_self_eq_false,
    Option.isSome_none, decide_false, Bool.or_self, Bool.false_eq_true, if_false, State.bump_eng, State.modEng_eng_same]
  refine ⟨trivial, rfl, ?_, fun x y he hy h => State.modEng_eng_other _ _ _ _ _ _ he hy h⟩
  omega

-- coefficients

theorem exec_coefficientsTakeEffect (dt : Nat) (core : Fin 16) (eng : Fin 34) (s : State) :
    exec (.coefficientsTakeEffect dt core eng) s = .next (if ((s.elapse dt).eng core eng).todo = [] then
      (s.elapse dt).modEng core eng (fun g => { g with plane0 := g.plane0.takeFresh, plane1 := g.plane1.takeFresh })
      else s.elapse dt) := by
  show execCoefficientsTakeEffect dt core eng s = _
  unfold execCoefficientsTakeEffect
  simp only [List.isEmpty_iff]

-- the headroom policy

/-- The layers of a tag whose count of windows is reached are evaluated, each by itself (R85). -/
theorem exec_headroomPolicyEval {s : State} {dt : Nat} {job : Fin 8} {tag : BitVec 14} (hon : (s.elapse dt).flag 0x4008 6 = true)
    (hdue : ((s.elapse dt).job job).layers.any
      (fun l => l.tag = tag.toNat && l.k.isSome && (s.elapse dt).val 0x4008 3 ≤ l.windows) = true) :
    exec (.headroomPolicyEval dt job tag) s = .next ((s.elapse dt).modJob job (fun j => { j with
      layers := j.layers.map (fun l => if l.tag = tag.toNat && l.k.isSome && (s.elapse dt).val 0x4008 3 ≤ l.windows then
        evalLayer ((s.elapse dt).val 0x4008 1) ((s.elapse dt).val 0x4008 2) ((s.elapse dt).val 0x4008 4) l else l) })) := by
  show execHeadroomPolicyEval dt job tag s = _
  unfold execHeadroomPolicyEval
  simp only [hon, hdue, Bool.and_self, if_true]

-- the statement

/-- Settles O10, one clause for each command but the aligner, which has one with a vector to serve and one without. -/
theorem enginesAlignOpenAndDecideWindows : Obligations.EnginesAlignOpenAndDecideWindows := by
  refine ⟨?align, ?idle, ?opens, ?decide, ?calibrate, ?coefficients, ?policy⟩
  case align =>
    rintro s _ st dt n core o row rfl hworks hnext hrow
    obtain ⟨hmask, hrest⟩ := State.alignNext_delivers hnext hrow
    refine ⟨(s.elapse dt).alignNext core, ?_, hmask, hrest, State.alignNext_mem _ _⟩
    rw [exec_alignerVector, if_pos hworks]
  case idle =>
    rintro s _ dt core rfl hnone
    rw [exec_alignerVector, State.alignNext_idle hnone, ite_self]
  case opens =>
    rintro s _ _ dt core eng _ g' w r p first rfl hdecided hended rfl hopen rfl hnext
    exact ⟨_, exec_windowOpen hdecided hended, State.boundary_opens hopen hnext, State.boundary_idles hopen hnext,
      State.boundary_mem _ _ _⟩
  case decide =>
    rintro s _ dt core eng charges gaps w r o v rfl hconv hpass hop hvec hused
    obtain ⟨hdecided, hsplit, haccept, hrest⟩ := (s.elapse dt).decideRead_spec core eng w o.word v r
      (convertAll w (pBits o.word) charges gaps) eng.isLt hused
    exact ⟨_, exec_windowDecision hconv hpass hop hvec, hdecided, hsplit, haccept, hrest, State.decideRead_mem _ _ _ _ _ _ _ _⟩
  case calibrate =>
    rintro s _ dt core eng g r rfl hg hin hlocked hstopping hdark hdecided hnone hended hswap hbudget hcal hmore hcls
    obtain ⟨htaken, hused, hslot, hrest⟩ := State.calWindow_takes hg
      ⟨hin, hlocked, hstopping, hdark, hdecided, hnone, hended, hswap, hbudget⟩ hcal hmore hcls
    exact ⟨_, rfl, htaken, hused, hslot, fun c e => hrest c e eng.isLt⟩
  case coefficients =>
    rintro s _ dt core eng rfl
    refine ⟨_, exec_coefficientsTakeEffect dt core eng s, ?_, fun c e he h => ?_⟩
    · split
      · exact State.modEng_eng_same _ _ _ _
      · rfl
    · split
      · exact State.modEng_eng_other _ _ _ _ _ _ eng.isLt he h
      · rfl
  case policy =>
    rintro s _ dt job tag rfl hon hdue
    refine ⟨_, exec_headroomPolicyEval hon hdue, ?_, fun j hj => ?_⟩
    · rw [State.modJob_job, if_pos rfl]
    · rw [State.modJob_job, if_neg hj]

-- states that meet the hypotheses of its clauses

/-- Operation 5 of core 0: a PASS with unsigned 4-bit codes of 64 rows on engine 0, whose input is one row of two FP32 elements in the
core store. -/
def passOp : Op :=
  { word := 0x12000000000000000000000000200000, stage := .queued, left := [0],
    descs := [(0, { base := storeBase 0, rows := 1, cols := 2 })] }

/-- The original window of all 64 rows of its vector 0, at a headroom k of 2. -/
def passWindow : Window := { op := 5, hi := 64, active := 64, k := 2 }

/-- Core 0 and its engine 0 in service and LOCKED, with `passOp` in the core's table and engine 0 in the state `g`. -/
def passReady (g : Engine) : State :=
  { State.reset with
    units := [(coreRef 0, { st := .ready }), (engineRef 0 0, { st := .ready })]
    cores := [(0, { pulse := .locked, ops := [(5, passOp)] })]
    engines := [(0, g)] }

/-- Engine 0 with `passWindow` next in line on a LIVE plane. -/
def windowWaits : Engine :=
  { passes := [{ op := 5, total := 1, next := 1 }], vec := some { op := 5 }, todo := [passWindow],
    plane0 := { st := .live, calibrated := [0] } }

/-- The vector goes to engine 0, and engine 1 of the core does not notice. -/
theorem witness_alignerVector : ∃ t, exec (.alignerVector 0 0) (passReady {}) = .next t ∧
    ((t.eng 0 0).inbuf.getLast?).map AVec.op = some 5 ∧ t.eng 0 1 = (passReady {}).eng 0 1 := by
  obtain ⟨halign, -⟩ := enginesAlignOpenAndDecideWindows
  obtain ⟨t, ht, hmask, hrest, -⟩ := halign (passReady {}) _ _ 0 5 0 passOp _ rfl (by decide) (by decide) rfl
  exact ⟨t, ht, congrArg (Option.map AVec.op) (hmask 0 (by decide)), hrest 0 1 (by decide) (.inr (by decide))⟩

theorem witness_windowOpen : ∃ t, exec (.windowOpen 0 0 0) (passReady windowWaits) = .next t ∧
    (t.eng 0 0).integrating = some passWindow := by
  obtain ⟨-, -, hopens, -⟩ := enginesAlignOpenAndDecideWindows
  obtain ⟨t, ht, hwithin, -⟩ := hopens (passReady windowWaits) _ _ 0 0 0 _ { windowWaits with todo := [] } passWindow
    { op := 5, total := 1, next := 1 } passOp.word none rfl (by decide) (by decide) rfl (by decide) rfl rfl
  exact ⟨t, ht, (hwithin (by decide)).1⟩

/-- A saturated read of the window makes room for its two halves. -/
theorem witness_windowDecision : ∃ t, exec (.windowDecision 0 0 0 [2 ^ 40] [])
    (passReady { windowWaits with todo := [], converting := some passWindow }) = .next t ∧
      ∃ rest, (t.eng 0 0).todo = splitHalves passOp.word { op := 5 } passWindow ++ rest := by
  obtain ⟨-, -, -, hdecide, -⟩ := enginesAlignOpenAndDecideWindows
  obtain ⟨t, ht, -, hsplit, -⟩ := hdecide (passReady { windowWaits with todo := [], converting := some passWindow }) _ 0 0 0 [2 ^ 40] []
    passWindow { op := 5, total := 1, next := 1 } passOp { op := 5 } rfl (by decide) (by decide) (by decide) (by decide) (by decide)
  exact ⟨t, ht, (hsplit (by decide) rfl).2⟩

theorem witness_calibrationWindow : ∃ t, exec (.calibrationWindow 0 0 0) (passReady { cal := some { done := 4095 } }) = .next t ∧
    (t.eng 0 0).cal = some { done := 4096 } := by
  obtain ⟨-, -, -, -, hcalibrate, -⟩ := enginesAlignOpenAndDecideWindows
  obtain ⟨t, ht, hcal, -⟩ := hcalibrate (passReady { cal := some { done := 4095 } }) _ 0 0 0 _ { done := 4095 } rfl rfl (by decide)
    (by decide) (by decide) (by decide) (by decide) rfl (by decide) (by decide) (by decide) (by decide) (by decide) (by decide)
  exact ⟨t, ht, hcal⟩

/-- Job 2 with a layer of tag 7 that has counted 2^20 windows, none of them split. -/
def policyDue : State :=
  { State.reset with jobs := [(2, { layers := [{ tag := 7, k := some 2, windows := 2 ^ 20 }] })] }

theorem witness_headroomPolicyEval : ∃ t, exec (.headroomPolicyEval 0 2 7) policyDue = .next t ∧
    (t.job 2).layers.map (fun l => l.windows) = [0] := by
  obtain ⟨-, -, -, -, -, -, hpolicy⟩ := enginesAlignOpenAndDecideWindows
  obtain ⟨t, ht, hlayers, -⟩ := hpolicy policyDue _ 0 2 7 rfl (by decide) (by decide)
  exact ⟨t, ht, (congrArg (List.map fun l => l.windows) hlayers).trans (by decide)⟩

end Sys2Proof.Machine
end

section
/-! The end of a calibration (R72 to R75) and the statement O13. -/

namespace Sys2Proof.Machine

-- how the offsets and gains measured stand to their limits

/-- No column's offset lies beyond the range of the offset registers (R75). -/
theorem Measured.find_far_none {m : Measured} (hnear : ∀ j : Nat, j < 256 → ∀ l ∈ m.offsets, (l.getD j 0).natAbs ≤ 512) :
    (List.range 256).find? (fun j => m.offsets.any (fun l => 512 < (l.getD j 0).natAbs)) = none := by
  simpa only [List.find?_eq_none, List.mem_range, List.any_eq_true, decide_eq_true_eq, not_exists, not_and, Nat.not_lt] using hnear

-- what a calibration leaves

/-- An engine whose calibration of a plane has succeeded at one b, with every gain within its limits (R73, R75).
`State.calDone_succeeds` ties it to CALIBRATION_COMPLETE. -/
def Engine.calibrated (g : Engine) (plane bits now : Nat) (m : Measured) : Engine :=
  let g := g.modPlane plane (fun p => p.calibratedAt bits now m)
  { g with stale := false, calFailed := false
           exchange := g.exchange && (g.plane0.calDue ++ g.plane1.calDue).any (fun d => d.2.1 = 2) }

theorem Engine.calibrated_plane (g : Engine) (plane bits now : Nat) (m : Measured) :
    (g.calibrated plane bits now m).plane plane = (g.plane plane).calibratedAt bits now m :=
  g.modPlane_same plane _

theorem Engine.modPlane_cal (g : Engine) (i : Nat) (f : Plane → Plane) : (g.modPlane i f).cal = g.cal := by
  unfold Engine.modPlane
  split <;> rfl

/-- What the end of a calibration within the limits comes to, before its responses go to the twin: no column joins the count of
failures. -/
def State.endCal (s : State) (c e : Nat) (r : CalRun) (m : Measured) : State :=
  ((s.modEng c e (fun g => { g with cal := none })).bump (engIdx c e) 0x1F 0).modEng c e
    (fun g => g.calibrated r.plane r.bits s.up m)

theorem State.endCal_eng (s : State) (c e : Nat) (r : CalRun) (m : Measured) :
    (s.endCal c e r m).eng c e = ({ s.eng c e with cal := none } : Engine).calibrated r.plane r.bits s.up m := by
  simp only [State.endCal, State.modEng_eng_same, State.bump_eng]

theorem State.endCal_eng_other (s : State) (c e x y : Nat) (r : CalRun) (m : Measured) (he : e < 34) (hy : y < 34)
    (h : x ≠ c ∨ y ≠ e) : (s.endCal c e r m).eng x y = s.eng x y := by
  rw [State.endCal, State.modEng_eng_other _ _ _ _ _ _ he hy h, State.bump_eng, State.modEng_eng_other _ _ _ _ _ _ he hy h]

theorem State.endCal_twin (s : State) (c e : Nat) (r : CalRun) (m : Measured) : (s.endCal c e r m).twin = s.twin := by
  simp only [State.endCal, State.modEng_twin, State.bump_twin]

theorem State.endCal_mem (s : State) (c e : Nat) (r : CalRun) (m : Measured) : (s.endCal c e r m).mem = s.mem := by
  simp only [State.endCal, State.modEng_mem, State.bump_mem]

-- which branch the command takes

section
variable {s : State} {c e : Nat} {measured m : Measured} {r : CalRun}

/-- With offsets and gains within their limits the calibration counts, and its responses meet the twin's (R73, R75). -/
theorem State.calDone_succeeds (hcal : (s.eng c e).cal = some r) (hdone : 4096 ≤ r.done)
    (hm : m = ((s.eng c e).plane r.plane).constGains measured)
    (hnear : (List.range 256).find? (fun j => m.offsets.any (fun l => 512 < (l.getD j 0).natAbs)) = none)
    (hgains : ((s.eng c e).plane r.plane).badGains m = []) :
    s.calDone c e measured = (if r.cls ≤ 2 then (s.endCal c e r m).sendSums c e r.plane r.bits m
      else s.endCal c e r m).compareWaiting c e r.plane := by
  subst hm
  unfold State.calDone
  simp only [hcal, if_neg (Nat.not_lt.2 hdone), hnear, hgains, List.foldl_nil, List.length_nil, List.isEmpty_nil, Bool.not_true,
    Bool.false_eq_true, if_false]
  rfl

/-- The first column whose offset is out of range fails the calibration (R75). -/
theorem State.calDone_fails {j : Nat} (hcal : (s.eng c e).cal = some r) (hdone : 4096 ≤ r.done)
    (hm : m = ((s.eng c e).plane r.plane).constGains measured)
    (hfar : (List.range 256).find? (fun j => m.offsets.any (fun l => 512 < (l.getD j 0).natAbs)) = some j) :
    s.calDone c e measured =
      ((((s.modEng c e (fun g => { g with cal := none })).modEng c e (fun g => { g with calFailed := true })).bump
        (engIdx c e) 0x1F 1).raise 0x0202 (engineRef c e) j).fence (engineRef c e) := by
  subst hm
  unfold State.calDone
  simp only [hcal, if_neg (Nat.not_lt.2 hdone), hfar]

end

-- the statement

/-- Settles O13, one clause for a calibration within its limits and one for an offset out of range. -/
theorem calibrationMakesAVerifiedBankLive : Obligations.CalibrationMakesAVerifiedBankLive := by
  refine ⟨?succeeds, ?fails⟩
  case succeeds =>
    rintro s _ dt core eng measured m r _ rfl hcal hdone rfl hm hnear hgains hrecords
    have hrun := State.calDone_succeeds hcal hdone hm (Measured.find_far_none hnear) hgains
    have htwin : ((s.elapse dt).endCal core eng r m).twin.records = [] := by rw [State.endCal_twin, hrecords]
    obtain ⟨hlisted, hfresh⟩ :=
      (((s.elapse dt).eng core eng).plane r.plane).calibratedAt_has r.bits (s.elapse dt).up m
    have htail := State.calTail _ r.cls core eng r.plane r.bits m htwin
    rw [← hrun] at htail
    have heng : ∀ x y, ((s.elapse dt).calDone core eng measured).eng x y = ((s.elapse dt).endCal core eng r m).eng x y :=
      fun x y => (htail x y).1
    have hmem : ((s.elapse dt).calDone core eng measured).mem = (s.elapse dt).mem :=
      (htail 0 0).2.trans (State.endCal_mem _ _ _ _ _)
    have hplane : (((s.elapse dt).calDone core eng measured).eng core eng).plane r.plane =
        (((s.elapse dt).eng core eng).plane r.plane).calibratedAt r.bits (s.elapse dt).up m := by
      rw [heng, State.endCal_eng, Engine.calibrated_plane]
      rfl
    refine ⟨(s.elapse dt).calDone core eng measured, rfl, ?_, hplane, ?_, ?_, ?_, ?_, ?_, ?_, hmem⟩
    · rw [heng, State.endCal_eng]
      exact Engine.modPlane_cal _ _ _
    · rw [hplane]
      exact Plane.calibratedAt_live _ _ _ _
    · rwa [hplane]
    · rwa [hplane]
    · rw [heng, State.endCal_eng]
      rfl
    · rw [heng, State.endCal_eng]
      rfl
    · exact fun x y hy h => (heng x y).trans (State.endCal_eng_other _ _ _ _ _ _ _ eng.isLt hy h)
  case fails =>
    rintro s _ dt j core eng measured m r rfl hcal hdone hm hfar
    have hrun := State.calDone_fails hcal hdone hm hfar
    refine ⟨(s.elapse dt).calDone core eng measured, rfl, hrun, ?_, ?_⟩
    · rw [hrun]
      exact State.fence_unit _ _
    · rw [hrun, State.fence_mem, State.raise_mem, State.bump_mem, State.modEng_mem, State.modEng_mem]

-- states that meet the hypotheses of its clauses

/-- The last window of a VERIFIED plane's calibration at BITS code 0 is done. -/
def windowsDone : Engine := { cal := some { done := 4096 }, plane0 := { st := .verified } }

/-- Gains of 1.0, and at one step the offset `x` of every column. -/
def offsetBy (x : Int) : Measured :=
  { gains := List.replicate 256 65536, offsets := [List.replicate 256 x], sums := List.replicate 256 0 }

theorem offsetBy_near {x : Int} (hx : x.natAbs ≤ 512) (p : Plane) (j : Nat) (hj : j < 256) :
    ∀ l ∈ (p.constGains (offsetBy x)).offsets, (l.getD j 0).natAbs ≤ 512 := by
  simpa [-List.reduceReplicate, Plane.constGains, offsetBy, List.getD_replicate, hj] using hx

theorem offsetBy_badGains (x : Int) (p : Plane) : p.badGains (p.constGains (offsetBy x)) = [] := by
  refine List.filter_eq_nil_iff.2 fun j hj => ?_
  have hgain : (p.constGains (offsetBy x)).gains.getD j 65536 = 65536 := by
    simp [-List.reduceReplicate, Plane.constGains, offsetBy, List.mem_range.1 hj]
  simp only [hgain]
  simp

/-- Offsets at the end of their range still count. -/
theorem witness_calibrationSucceeds : ∃ t, exec (.calibrationComplete 0 0 0 (offsetBy 512)) (passReady windowsDone) = .next t ∧
    ((t.eng 0 0).plane 0).st = .live := by
  obtain ⟨hsucceeds, -⟩ := calibrationMakesAVerifiedBankLive
  obtain ⟨t, ht, -, -, hlive, -⟩ := hsucceeds (passReady windowsDone) _ 0 0 0 (offsetBy 512) _ { done := 4096 } _ rfl rfl (by decide)
    rfl rfl (offsetBy_near (by decide) _) (offsetBy_badGains _ _) rfl
  exact ⟨t, ht, hlive rfl⟩

theorem witness_calibrationFails : ∃ t, exec (.calibrationComplete 0 0 0 (offsetBy (-513))) (passReady windowsDone) = .next t ∧
    (t.unit (engineRef 0 0) = .fenced ∨ t.unit (engineRef 0 0) = .retired) := by
  obtain ⟨-, hfails⟩ := calibrationMakesAVerifiedBankLive
  obtain ⟨t, ht, -, hout, -⟩ := hfails (passReady windowsDone) _ 0 0 0 0 (offsetBy (-513)) _ { done := 4096 } rfl rfl (by decide) rfl
    (by decide)
  exact ⟨t, ht, hout⟩

end Sys2Proof.Machine
end

section
/-! PASS at the head of an engine's queue and on a stand-in slot (R85, R101, R102, R201, R474), and the statement O21. -/

namespace Sys2Proof.Machine

-- queues and operations

@[simp] theorem Core.setQueue_queue (k : Core) (q x : Nat) (l : List Nat) :
    (k.setQueue q l).queue x = if x = q then l else k.queue x := tget_tset _ _ _ _
@[simp] theorem Core.modOp_queue (k : Core) (n q : Nat) (f : Op → Op) : (k.modOp n f).queue q = k.queue q := rfl

-- a pass that starts

theorem State.passTemplate_eng (s : State) (c n : Nat) (o : Op) (x y : Nat) : (s.passTemplate c n o).1.eng x y = s.eng x y :=
  (State.passTemplate_keeps (Within.refl _) c n o (.refl _ s)).eng_eq x y (by decide)

theorem State.startPass_eng (s : State) (c e n plane : Nat) (o : Op) : (s.startPass c e n plane o).eng c e =
    { s.eng c e with
      passes := (s.eng c e).passes ++ [{ (s.passTemplate c n o).2 with plane := plane }], waitEmpty := none } := by
  simp only [State.startPass, State.modCore_eng, State.modEng_eng_same, State.setVal_eng, State.passTemplate_eng]

theorem State.startPass_eng_other (s : State) (c e n plane : Nat) (o : Op) (x y : Nat) (he : e < 34) (hy : y < 34)
    (h : x ≠ c ∨ y ≠ e) : (s.startPass c e n plane o).eng x y = s.eng x y := by
  simp only [State.startPass, State.modCore_eng, State.modEng_eng_other _ _ _ _ _ _ he hy h, State.setVal_eng,
    State.passTemplate_eng]

theorem State.startPass_leaves_queue (s : State) (c e n plane : Nat) (o : Op) :
    n ∉ ((s.startPass c e n plane o).core c).queue e := by
  simp [State.startPass]

theorem State.startPass_k (s : State) (c e n plane : Nat) (o : Op) :
    (s.startPass c e n plane o).val (engIdx c e) 0x18 = (s.passTemplate c n o).2.k :=
  State.setVal_val_same _ _ _ _

theorem State.startPass_mem (s : State) (c e n plane : Nat) (o : Op) : (s.startPass c e n plane o).mem = s.mem :=
  (State.startPass_keeps (Within.refl _) c e n plane o (.refl _ s)).mem_eq (by decide)

-- which branch a PASS takes

theorem exec_pass {s : State} {dt n : Nat} {core : Fin 16} {queue : Fin 66} {o : Op}
    (hhead : (s.elapse dt).head core queue opPass = some (n, o)) (hserved : (s.elapse dt).queueFault core queue = stOk) :
    exec (.pass dt core queue) s = .next (if queue.val < 34 then (s.elapse dt).enginePass core queue n o
      else (s.elapse dt).standPass core queue n o) := by
  show execPass dt core queue s = _
  unfold execPass State.passOp
  simp only [hhead, hserved, bne_self_eq_false, Bool.false_eq_true, if_false]

section
variable {s : State} {c e n pl : Nat} {o : Op} {r : BankRecord}

/-- Over a LIVE or REFRESHING plane with its record, and with no write to come, the pass starts (R101, R102, R201). -/
theorem State.enginePass_starts (hpl : pl = (s.eng c e).planeOf (pBank o.word))
    (himage : ((s.eng c e).plane pl).imageChanged = false) (hrecord : ((s.eng c e).plane pl).record = some r)
    (hjob : r.job = s.coreJob c) (htag : r.tag = pTag o.word)
    (husable : ((s.eng c e).plane pl).st = .live ∨ ((s.eng c e).plane pl).st = .refreshing)
    (hwrite : (s.eng c e).writesTo pl = false) : s.enginePass c e n o = s.startPass c e n pl o := by
  subst hpl
  have husable' : (decide (((s.eng c e).plane ((s.eng c e).planeOf (pBank o.word))).st = .live) ||
      decide (((s.eng c e).plane ((s.eng c e).planeOf (pBank o.word))).st = .refreshing)) = true := by simpa using husable
  unfold State.enginePass
  simp only [himage, hrecord, hjob, htag, husable', hwrite, bne_self_eq_false, Bool.not_true, Bool.and_false, Bool.or_self,
    Bool.false_eq_true, if_false]

/-- A record of another job or tag ends the pass with BANK_TAG (R102). -/
theorem State.enginePass_refuses (hpl : pl = (s.eng c e).planeOf (pBank o.word))
    (himage : ((s.eng c e).plane pl).imageChanged = false) (hrecord : ((s.eng c e).plane pl).record = some r)
    (hfirst : (s.eng c e).waitEmpty = none) (hother : r.job ≠ s.coreJob c ∨ r.tag ≠ pTag o.word) :
    s.enginePass c e n o = s.refusePass c e n stBankTag := by
  subst hpl
  have hother' : (r.job != s.coreJob c || r.tag != pTag o.word) = true := by simpa using hother
  unfold State.enginePass
  simp only [himage, hrecord, hfirst, hother', reduceCtorEq, decide_false, Bool.false_and, Bool.false_eq_true, if_false, if_true]

/-- Over an EMPTY plane the pass stalls, and the engine notes which (R102). -/
theorem State.enginePass_stalls (hpl : pl = (s.eng c e).planeOf (pBank o.word))
    (himage : ((s.eng c e).plane pl).imageChanged = false) (hrecord : ((s.eng c e).plane pl).record = none) :
    s.enginePass c e n o = s.modEng c e (fun g => { g with waitEmpty := some n }) := by
  subst hpl
  unfold State.enginePass
  simp only [himage, hrecord, Bool.false_eq_true, if_false]

/-- On a slot without a record the pass stalls (R474). -/
theorem State.standPass_stalls (hrecord : tfind (s.core c).standRecords (2 * (e - 34) + pBank o.word) = none) :
    s.standPass c e n o = s := by
  unfold State.standPass
  simp only [hrecord]

/-- A slot's record of another job or tag ends the pass with BANK_TAG (R102, R474). -/
theorem State.standPass_refuses (hrecord : tfind (s.core c).standRecords (2 * (e - 34) + pBank o.word) = some r)
    (hother : r.job ≠ s.coreJob c ∨ r.tag ≠ pTag o.word) : s.standPass c e n o = s.standEnd c e n stBankTag := by
  have hother' : (r.job != s.coreJob c || r.tag != pTag o.word) = true := by simpa using hother
  unfold State.standPass
  simp only [hrecord, hother', if_true]

end

-- the statement

/-- Settles O21: a pass on an engine starts, ends with BANK_TAG or stalls over an EMPTY plane, and one clause is on stand-in slots. -/
theorem passStartsOnItsPlane : Obligations.PassStartsOnItsPlane := by
  refine ⟨?starts, ?refuses, ?stalls, ?standIn⟩
  case starts =>
    rintro s _ dt n pl core queue o r _ rfl hhead hserved hengine hpl himage hrecord hjob htag husable hwrite rfl
    refine ⟨(s.elapse dt).startPass core queue n pl o, ?_, State.startPass_eng _ _ _ _ _ _,
      State.startPass_leaves_queue _ _ _ _ _ _, State.startPass_k _ _ _ _ _ _,
      fun x y hy h => State.startPass_eng_other _ _ _ _ _ _ _ _ hengine hy h, State.startPass_mem _ _ _ _ _ _⟩
    rw [exec_pass hhead hserved, if_pos hengine, State.enginePass_starts hpl himage hrecord hjob htag husable hwrite]
  case refuses =>
    rintro s _ dt n pl core queue o r rfl hhead hserved hengine hpl himage hrecord hfirst hother
    rw [exec_pass hhead hserved, if_pos hengine, State.enginePass_refuses hpl himage hrecord hfirst hother]
  case stalls =>
    rintro s _ dt n pl core queue o rfl hhead hserved hengine hpl himage hrecord
    rw [exec_pass hhead hserved, if_pos hengine, State.enginePass_stalls hpl himage hrecord]
  case standIn =>
    rintro s _ dt n core queue o rfl hhead hserved hslot
    rw [exec_pass hhead hserved, if_neg (Nat.not_lt.2 hslot)]
    exact ⟨fun hrecord => by rw [State.standPass_stalls hrecord],
      fun r hrecord hother => by rw [State.standPass_refuses hrecord hother]⟩

-- states that meet the hypotheses of its clauses

/-- `passOp` of tag 0, of no job's step, at the head of queue `q` of core 0, its engine 0 with the plane `p` behind bank 0, its
tensor unit in service and its stand-in slot 0 with the record `stand`, if any. -/
def passAtHead (q : Nat) (p : Plane) (stand : Option BankRecord) : State :=
  ((passReady { plane0 := p }).putUnit (digitalRef 5 0) .ready).modCore 0 (fun k =>
    { k.setQueue q [5] with standRecords := stand.toList.map (fun r => (0, r)) })

theorem witness_passStarts : ∃ t, exec (.pass 0 0 0) (passAtHead 0 { st := .live, record := some {} } none) = .next t ∧
    5 ∉ (t.core 0).queue 0 := by
  obtain ⟨hstarts, -⟩ := passStartsOnItsPlane
  obtain ⟨t, ht, -, hleft, -⟩ := hstarts (passAtHead 0 { st := .live, record := some {} } none) _ 0 5 0 0 0 passOp {} _ rfl (by decide)
    (by decide) (by decide) (by decide) (by decide) (by decide) (by decide) (by decide) (.inl (by decide)) (by decide) rfl
  exact ⟨t, ht, hleft⟩

theorem witness_passRefused : exec (.pass 0 0 0) (passAtHead 0 { st := .live, record := some { tag := 1 } } none) =
    .next (((passAtHead 0 { st := .live, record := some { tag := 1 } } none).elapse 0).refusePass 0 0 5 stBankTag) := by
  obtain ⟨-, hrefuses, -⟩ := passStartsOnItsPlane
  exact hrefuses _ _ 0 5 0 0 0 passOp { tag := 1 } rfl (by decide) (by decide) (by decide) (by decide) (by decide) (by decide)
    (by decide) (.inr (by decide))

theorem witness_passStalls : exec (.pass 0 0 0) (passAtHead 0 {} none) =
    .next (((passAtHead 0 {} none).elapse 0).modEng 0 0 (fun g => { g with waitEmpty := some 5 })) := by
  obtain ⟨-, -, hstalls, -⟩ := passStartsOnItsPlane
  exact hstalls _ _ 0 5 0 0 0 passOp rfl (by decide) (by decide) (by decide) (by decide) (by decide) (by decide)

theorem witness_standPassStalls : exec (.pass 0 0 34) (passAtHead 34 {} none) = .next ((passAtHead 34 {} none).elapse 0) := by
  obtain ⟨-, -, -, hstandIn⟩ := passStartsOnItsPlane
  exact (hstandIn _ _ 0 5 0 34 passOp rfl (by decide) (by decide) (by decide)).1 (by decide)

theorem witness_standPassRefused : exec (.pass 0 0 34) (passAtHead 34 {} (some { job := 1 })) =
    .next (((passAtHead 34 {} (some { job := 1 })).elapse 0).standEnd 0 34 5 stBankTag) := by
  obtain ⟨-, -, -, hstandIn⟩ := passStartsOnItsPlane
  exact (hstandIn _ _ 0 5 0 34 passOp rfl (by decide) (by decide) (by decide)).2 { job := 1 } (by decide) (.inl (by decide))

end Sys2Proof.Machine
end

section
/-! Bank writes: the reset, its survey and the columns (R93 to R98, R100, R103), and the statement O15. -/

namespace Sys2Proof.Machine

-- the reset

/-- The write `w` once its reset begins: the check code of its image and the Weak Cell Limit in force go with it (R93, R114). -/
def State.resetRun (s : State) (w : WriteRun) : WriteRun :=
  { w with phase := .reset, resets := 0, startAt := s.up, limit := s.val 0x4007 1
           record := { w.record with check := imageCheck s.mem w.record.image } }

/-- A plane whose reset begins for the record `r` of a write, with its image as it stands in the memory (R93, R98, R101). -/
def Plane.resetFor (p : Plane) (r : BankRecord) (m : Mem) : Plane :=
  { p.emptied with st := .writing, rewrites := wrapAdd 8 p.rewrites 1, record := some { r with check := imageCheck m r.image }
                   scales := imageScales m r.image, weights := imageLevels m r.image, flags := constFlags (imageLevels m r.image) }

theorem Plane.resetFor_flags (p : Plane) (r : BankRecord) (m : Mem) :
    (p.resetFor r m).flags = constFlags (imageLevels m r.image) := by rw [Plane.resetFor]

/-- What a beginning reset leaves, the wear alarm of the plane included (R94, R111). `State.writeReset_checked` ties it to
BANK_WRITE_RESET. -/
def State.resetBegins (s : State) (c e : Nat) (w : WriteRun) : State :=
  let begun := s.modEng c e (fun g =>
    { g.modPlane w.plane (fun p => p.resetFor w.record s.mem) with writing := some (s.resetRun w) })
  let before := ((s.eng c e).plane w.plane).rewrites
  let mark := begun.val 0x4007 5 * (ratedRewrites / 100)
  if before ≤ mark && mark < before + 1 then begun.raise 0x0207 (engineRef c e) w.plane else begun

/-- The plane of a write may be reset: its light is free, no calibration runs, and its image, which comes with an instruction, can be
read (R93, R103). -/
structure State.ResetReady (s : State) (c e : Nat) (w : WriteRun) : Prop where
  held : (s.eng c e).writing = some w
  waiting : w.phase = .waiting
  idle : (s.eng c e).planeIdle w.plane = true
  instruction : w.op.isSome = true
  fresh : w.restore = false
  readable : (s.access w.record.job w.record.image imageBytes rightR).1 = stOk
  unmoved : (s.access w.record.job w.record.image imageBytes rightR).2 = s
  calm : (s.eng c e).cal = none

section
variable {s : State} {c e : Nat} {w : WriteRun}

/-- The form of the image decides whether the reset begins or the write ends (R93). -/
theorem State.writeReset_checked (h : s.ResetReady c e w) : s.writeReset c e =
    if imageOk (imageScales s.mem w.record.image) (imageLevels s.mem w.record.image) = false then
      s.writeEnds c e w stBankImage
    else s.resetBegins c e w := by
  have hop : w.op.isNone = false := Option.isNone_eq_false_iff.2 h.instruction
  unfold State.writeReset State.resetBegins State.resetRun Plane.resetFor
  simp only [h.held, h.waiting, h.idle, h.calm, h.instruction, h.readable, h.unmoved, h.fresh, hop, Option.any_none, bne_self_eq_false,
    Bool.not_true, Bool.or_self, Bool.false_and, Bool.false_eq_true, if_false, if_true, Bool.not_eq_true']

theorem State.resetBegins_eng (x y : Nat) : (s.resetBegins c e w).eng x y = (s.modEng c e (fun g =>
    { g.modPlane w.plane (fun p => p.resetFor w.record s.mem) with writing := some (s.resetRun w) })).eng x y := by
  unfold State.resetBegins
  simp only
  split
  · exact State.raise_eng _ _ _ _ _ _
  · rfl

theorem State.resetBegins_plane : ((s.resetBegins c e w).eng c e).plane w.plane =
    ((s.eng c e).plane w.plane).resetFor w.record s.mem := by
  rw [State.resetBegins_eng, State.modEng_eng_same]
  exact Engine.modPlane_same _ _ _

theorem State.resetBegins_writing : ((s.resetBegins c e w).eng c e).writing = some (s.resetRun w) := by
  rw [State.resetBegins_eng, State.modEng_eng_same]

theorem State.resetBegins_eng_other {x y : Nat} (he : e < 34) (hy : y < 34) (h : x ≠ c ∨ y ≠ e) :
    (s.resetBegins c e w).eng x y = s.eng x y := by
  rw [State.resetBegins_eng, State.modEng_eng_other _ _ _ _ _ _ he hy h]

theorem State.resetBegins_mem : (s.resetBegins c e w).mem = s.mem := by
  unfold State.resetBegins
  simp only
  split
  · rw [State.raise_mem, State.modEng_mem]
  · exact State.modEng_mem _ _ _ _

-- the survey

/-- Once its 200 µs have passed, a first reset that leaves a cell too high is done again, and else the columns follow (R94). -/
theorem State.resetSurvey_due (highest : Nat) (hheld : (s.eng c e).writing = some w) (hphase : w.phase = .reset)
    (hdue : w.startAt + 200 * usPs * (w.resets + 1) ≤ s.up) : s.resetSurvey c e highest =
      s.modEng c e (fun g => { g with writing := some (if 500 < highest ∧ w.resets = 0 then { w with resets := 1 }
        else { w with resets := w.resets + 1, phase := .columns 0 false 0 }) }) := by
  unfold State.resetSurvey
  simp only [hheld, hphase, bne_self_eq_false, Bool.false_or, decide_eq_true_eq, if_neg (Nat.not_lt.2 hdue), Bool.and_eq_true]

-- the columns

/-- What a verify result of a column comes to (R95). -/
theorem State.columnVerify_columns {j it : Nat} {neg : Bool} {levels failing : List Nat} (hheld : (s.eng c e).writing = some w)
    (hphase : w.phase = .columns j neg it) (hfailing : failing = failingRows ((s.eng c e).plane w.plane) j neg
      (if it = 0 then List.range 512 else w.failing) levels) :
    s.columnVerify c e levels = if failing = [] then s.columnEnds c e w
      else if it = 12 then s.columnEnds c e { w with weakPair := w.weakPair + failing.length }
      else s.modEng c e (fun g => { g with writing := some { w with failing := failing, phase := .columns j neg (it + 1) } }) := by
  unfold State.columnVerify
  simp only [hheld, hphase, ← hfailing, List.isEmpty_iff]

/-- The negative cells of a pair follow the positive ones (R94). -/
theorem State.columnEnds_positive {j it : Nat} (hphase : w.phase = .columns j false it) : s.columnEnds c e w =
    s.modEng c e (fun g => { g with writing := some { w with phase := .columns j true 0, failing := [] } }) := by
  unfold State.columnEnds
  simp only [hphase]

theorem State.pairDone_within (j : Nat) (hlimit : w.weakPair ≤ w.limit) :
    s.pairDone c e w j = (s, { w with weak := w.weak + w.weakPair, weakPair := 0 }) := by
  unfold State.pairDone
  rw [if_pos hlimit]

/-- The last pair of an image without remaps ends the write (R96, R98). -/
theorem State.columnEnds_last {it : Nat} (hphase : w.phase = .columns 255 true it) (hlimit : w.weakPair ≤ w.limit)
    (hremaps : w.remaps = []) :
    s.columnEnds c e w = s.writeVerified c e { w with weak := w.weak + w.weakPair, weakPair := 0 } := by
  unfold State.columnEnds
  simp only [hphase, State.pairDone_within 255 hlimit, hremaps, List.isEmpty_nil, Nat.lt_irrefl, if_false, if_true]

/-- A whole write that has ended leaves its plane VERIFIED, with the calibration at CAL_B due (R72, R100). -/
theorem State.writeVerified_plane (hspare : w.spare = none) : ((s.writeVerified c e w).eng c e).plane w.plane =
    { (s.eng c e).plane w.plane with st := .verified, calDue := [(w.record.calB, 1, s.up)], refreshedAt := s.up } := by
  unfold State.writeVerified
  simp only [hspare]
  rw [State.writeEnds_plane, State.setVal_eng, State.setVal_eng, State.modEng_eng_same, Engine.modPlane_same]

theorem State.writeVerified_eng_other {x y : Nat} (hspare : w.spare = none) (he : e < 34) (hy : y < 34) (h : x ≠ c ∨ y ≠ e) :
    (s.writeVerified c e w).eng x y = s.eng x y := by
  unfold State.writeVerified
  simp only [hspare]
  rw [State.writeEnds_other _ _ _ _ _ _ _ he hy h, State.setVal_eng, State.setVal_eng, State.modEng_eng_other _ _ _ _ _ _ he hy h]

end

-- the statement

/-- Settles O15, one clause for each outcome of the image's check, one for the survey and one for a column's verify result. -/
theorem bankWritesProgramTheImage : Obligations.BankWritesProgramTheImage := by
  refine ⟨?begins, ?outOfForm, ?survey, ?columns⟩
  case begins =>
    rintro s _ dt core eng w rfl hheld hwaiting hidle hop hfresh hread hsame hcal hok
    have hready : (s.elapse dt).ResetReady core eng w := ⟨hheld, hwaiting, hidle, hop, hfresh, hread, hsame, hcal⟩
    have hrun := State.writeReset_checked hready
    rw [if_neg (ne_false_of_eq_true hok)] at hrun
    refine ⟨_, congrArg Host.Outcome.next hrun, ?_⟩
    rw [State.resetBegins_plane]
    exact ⟨rfl, rfl, rfl, rfl, rfl, Plane.resetFor_flags _ _ _, rfl, ⟨_, State.resetBegins_writing, rfl, rfl, rfl⟩,
      fun c e he h => State.resetBegins_eng_other eng.isLt he h, State.resetBegins_mem⟩
  case outOfForm =>
    rintro s _ dt core eng w rfl hheld hwaiting hidle hop hfresh hread hsame hcal hbad
    have hready : (s.elapse dt).ResetReady core eng w := ⟨hheld, hwaiting, hidle, hop, hfresh, hread, hsame, hcal⟩
    have hrun := State.writeReset_checked hready
    rw [if_pos hbad] at hrun
    exact congrArg Host.Outcome.next hrun
  case survey =>
    rintro s _ dt highest core eng w rfl hheld hphase hdue
    have hrun := State.resetSurvey_due highest hheld hphase hdue
    refine ⟨fun hhigh hfirst => ?again, fun hdone => ?pass⟩
    case again =>
      rw [if_pos ⟨hhigh, hfirst⟩] at hrun
      exact congrArg Host.Outcome.next hrun
    case pass =>
      rw [if_neg (by omega)] at hrun
      exact congrArg Host.Outcome.next hrun
  case columns =>
    rintro s _ dt j it neg core eng levels failing w rfl hheld hphase hfailing
    have hrun := State.columnVerify_columns hheld hphase hfailing
    refine ⟨fun hsome hmore => ?pulse, fun hsome hspent => ?weak, fun hnone hneg => ?positive,
      fun hnone hneg hlast hlimit hremaps hspare => ?last⟩
    case pulse =>
      rw [if_neg hsome, if_neg hmore] at hrun
      exact congrArg Host.Outcome.next hrun
    case weak =>
      rw [if_neg hsome, if_pos hspent] at hrun
      exact congrArg Host.Outcome.next hrun
    case positive =>
      subst hneg
      rw [if_pos hnone, State.columnEnds_positive hphase] at hrun
      exact congrArg Host.Outcome.next hrun
    case last =>
      subst hneg hlast
      rw [if_pos hnone, State.columnEnds_last hphase hlimit hremaps] at hrun
      have hplane := State.writeVerified_plane (s := s.elapse dt) (c := core) (e := eng)
        (w := { w with weak := w.weak + w.weakPair, weakPair := 0 }) hspare
      exact ⟨_, congrArg Host.Outcome.next hrun, congrArg Plane.st hplane, congrArg Plane.calDue hplane,
        fun c e he h => State.writeVerified_eng_other hspare eng.isLt he h⟩

-- states that meet the hypotheses of its clauses

/-- An empty memory reads as zeros. -/
theorem Mem.read_nil (a n : Nat) : Mem.read [] a n = List.replicate n 0 := by
  induction n generalizing a with
  | zero => rfl
  | succ n ih => rw [Mem.read, ih, List.replicate_succ]; rfl

/-- An image of zeros keeps the form of R93. -/
theorem imageOk_nil (a : Nat) : imageOk (imageScales [] a) (imageLevels [] a) = true := by
  have hscales : (imageScales [] a).all (fun x => x.toNat / 1024 % 32 != 31) = true := by
    rw [imageScales, List.all_eq_true]
    intro x hx
    obtain ⟨j, -, rfl⟩ := List.mem_map.1 hx
    rw [Mem.num, Mem.read_nil]
    decide
  have hlevels : (imageLevels [] a).all (fun b => (signed 8 b.toNat).natAbs ≤ 63) = true := by
    rw [imageLevels, Mem.read_nil, List.all_eq_true]
    intro b hb
    rw [List.eq_of_mem_replicate hb]
    decide
  rw [imageOk, hscales, hlevels]
  rfl

/-- `passReady` with the write `w` in the controller of engine 0 and the bytes `m` in the memory. -/
def writeReady (w : WriteRun) (m : Mem) : State := { passReady { writing := some w } with mem := m }

/-- The write of operation 5, whose image is at address 0, may begin its reset. -/
theorem writeReady_resetReady (m : Mem) : ((writeReady { op := some 5 } m).elapse 0).ResetReady 0 0 { op := some 5 } :=
  ⟨rfl, rfl, rfl, rfl, rfl, rfl, rfl, rfl⟩

theorem witness_resetBegins : ∃ t, exec (.bankWriteReset 0 0 0) (writeReady { op := some 5 } []) = .next t ∧
    ((t.eng 0 0).plane 0).st = .writing ∧ ((t.eng 0 0).plane 0).rewrites = 1 := by
  obtain ⟨hbegins, -⟩ := bankWritesProgramTheImage
  obtain ⟨hheld, hwaiting, hidle, hop, hfresh, hread, hsame, hcal⟩ := writeReady_resetReady []
  obtain ⟨t, ht, hst, hcount, -⟩ := hbegins (writeReady { op := some 5 } []) _ 0 0 0 { op := some 5 } rfl hheld hwaiting hidle hop
    hfresh hread hsame hcal (imageOk_nil 0)
  exact ⟨t, ht, hst, hcount⟩

/-- The first column scale is an infinity. -/
theorem witness_imageOutOfForm : exec (.bankWriteReset 0 0 0) (writeReady { op := some 5 } [(1, 0x7C)]) =
    .next (((writeReady { op := some 5 } [(1, 0x7C)]).elapse 0).writeEnds 0 0 { op := some 5 } stBankImage) := by
  obtain ⟨-, houtOfForm, -⟩ := bankWritesProgramTheImage
  obtain ⟨hheld, hwaiting, hidle, hop, hfresh, hread, hsame, hcal⟩ := writeReady_resetReady [(1, 0x7C)]
  exact houtOfForm _ _ 0 0 0 { op := some 5 } rfl hheld hwaiting hidle hop hfresh hread hsame hcal (by decide)

/-- A cell just above half a level, 200 µs after the reset began, asks for the second one. -/
theorem witness_resetAgain : ∃ t, exec (.bankResetSurvey (200 * usPs) 0 0 501) (writeReady { phase := .reset } []) = .next t ∧
    (t.eng 0 0).writing = some { phase := .reset, resets := 1 } := by
  obtain ⟨-, -, hsurvey, -⟩ := bankWritesProgramTheImage
  obtain ⟨hagain, -⟩ := hsurvey (writeReady { phase := .reset } []) _ (200 * usPs) 501 0 0 { phase := .reset } rfl rfl rfl (by decide)
  exact ⟨_, hagain (by decide) rfl, by decide⟩

/-- Column 0, of which row 7 has not passed before verify `it`. -/
def rowFails (it : Nat) : WriteRun := { phase := .columns 0 false it, failing := [7] }

/-- A cell 0.301 levels off its target is pulsed a twelfth time. -/
theorem witness_columnPulsed : ∃ t, exec (.bankColumnVerify 0 0 0 (List.replicate 512 301)) (writeReady (rowFails 11) []) = .next t ∧
    (t.eng 0 0).writing = some (rowFails 12) := by
  obtain ⟨-, -, -, hcolumns⟩ := bankWritesProgramTheImage
  obtain ⟨hpulse, -⟩ := hcolumns (writeReady (rowFails 11) []) _ 0 0 11 false 0 0 (List.replicate 512 301) _ (rowFails 11) rfl rfl rfl rfl
  exact ⟨_, hpulse (by decide) (by decide), by decide⟩

/-- A cell that fails after its twelfth pulse counts as weak. -/
theorem witness_columnWeak : ∃ t, exec (.bankColumnVerify 0 0 0 (List.replicate 512 301)) (writeReady (rowFails 12) []) = .next t ∧
    (t.eng 0 0).writing = some { phase := .columns 0 true 0, weakPair := 1 } := by
  obtain ⟨-, -, -, hcolumns⟩ := bankWritesProgramTheImage
  obtain ⟨-, hweak, -⟩ := hcolumns (writeReady (rowFails 12) []) _ 0 0 12 false 0 0 (List.replicate 512 301) _ (rowFails 12) rfl rfl rfl
    rfl
  exact ⟨_, hweak (by decide) rfl, by decide⟩

/-- Cells of an empty plane that read 0.3 levels pass. -/
theorem failingRows_edge (j : Nat) : failingRows {} j true (List.range 512) (List.replicate 512 300) = [] := by
  refine List.filter_eq_nil_iff.2 fun i hi => ?_
  have hlevel : (List.replicate 512 300).getD i 0 = 300 := by simp [-List.reduceReplicate, List.mem_range.1 hi]
  have htarget : cellTarget (({} : Plane).weight j i) true = 0 := by simp [Plane.weight, cellTarget, signed]
  rw [hlevel, htarget]
  decide

/-- The last column passes, and the write has ended. -/
theorem witness_lastColumn : ∃ t, exec (.bankColumnVerify 0 0 0 (List.replicate 512 300))
    (writeReady { phase := .columns 255 true 0 } []) = .next t ∧ ((t.eng 0 0).plane 0).st = .verified := by
  obtain ⟨-, -, -, hcolumns⟩ := bankWritesProgramTheImage
  obtain ⟨-, -, -, hlast⟩ := hcolumns (writeReady { phase := .columns 255 true 0 } []) _ 0 255 0 true 0 0 (List.replicate 512 300) []
    { phase := .columns 255 true 0 } rfl rfl rfl (by rw [if_pos rfl]; exact (failingRows_edge 255).symm)
  obtain ⟨t, ht, hst, -⟩ := hlast rfl rfl rfl (by decide) rfl rfl
  exact ⟨t, ht, hst⟩

end Sys2Proof.Machine
end

section
/-! Drift refresh in chunks of columns (R103, R107 to R109), and the statement O16. -/

namespace Sys2Proof.Machine

-- what falls due

/-- Owing recalibrations changes what is due alone (R72). -/
theorem Plane.dueFold_eq (cls now : Nat) (l : List Nat) (p : Plane) :
    ∃ d, l.foldl (fun p b => p.due b cls now) p = { p with calDue := d } := by
  induction l generalizing p with
  | nil => exact ⟨_, rfl⟩
  | cons b l ih =>
    have hone : ∃ d, p.due b cls now = { p with calDue := d } := by
      unfold Plane.due
      split
      · exact ⟨_, rfl⟩
      · exact ⟨_, rfl⟩
    obtain ⟨d, hd⟩ := hone
    obtain ⟨d', hd'⟩ := ih { p with calDue := d }
    exact ⟨d', by rw [List.foldl_cons, hd, hd']⟩

section
variable {s : State} {c e plane : Nat} {p : Plane} {r : BankRecord} {x : Refresh}

-- a refresh that falls due

/-- No due plane of a core is older than one whose age none of them exceeds (R107). -/
theorem State.any_older_eq_false (holdest : ∀ x ∈ s.engines, x.1 / 34 = c → ∀ y ∈ [x.2.plane0, x.2.plane1], s.refreshAge y = true →
    p.refreshedAt ≤ y.refreshedAt) : s.engines.any (fun x => x.1 / 34 = c &&
      [x.2.plane0, x.2.plane1].any (fun y => s.refreshAge y && y.refreshedAt < p.refreshedAt)) = false := by
  rw [List.any_eq_false]
  intro x hx holder
  obtain ⟨hcore, hplane⟩ := (Bool.and_eq_true _ _).mp holder
  obtain ⟨y, hy, hage⟩ := List.any_eq_true.1 hplane
  obtain ⟨hdue, hyounger⟩ := (Bool.and_eq_true _ _).mp hage
  exact Nat.not_lt.2 (holdest x hx (of_decide_eq_true hcore) y hy hdue) (of_decide_eq_true hyounger)

/-- The oldest due plane of a core, on an engine in service, with its image still mapped and no write to come (R107, R109). -/
structure State.RefreshReady (s : State) (c e plane : Nat) (p : Plane) (r : BankRecord) : Prop where
  there : p = (s.eng c e).plane plane
  due : s.refreshAge p = true
  oldest : ∀ x ∈ s.engines, x.1 / 34 = c → ∀ y ∈ [x.2.plane0, x.2.plane1], s.refreshAge y = true → p.refreshedAt ≤ y.refreshedAt
  unwritten : (s.eng c e).writesTo plane = false
  inService : s.engineOut c e = false
  held : p.record = some r
  mapped : s.touchesRetired r.image imageBytes = false

/-- The check code of its image decides whether such a plane starts its refresh or the event is raised (R109). -/
theorem State.refreshDue_checked (h : s.RefreshReady c e plane p r) : s.refreshDue c e plane =
    if imageCheck s.mem r.image = r.check then s.modEng c e (fun g => g.modPlane plane (fun p =>
      { p with st := .refreshing, refresh := some { limit := s.val 0x4007 1, threshold := s.val 0x4007 6 } }))
    else ((s.modEng c e (fun g => g.modPlane plane (fun p => { p with refreshTry := s.up }))).bump (engIdx c e) 0x2F 1).raise 0x0206
      (engineRef c e) ((s.eng c e).bankOf plane) := by
  unfold State.refreshDue
  simp only [← h.there, h.due, State.any_older_eq_false h.oldest, h.unwritten, h.inService, h.held, h.mapped, Bool.not_true, Bool.or_self,
    Bool.false_or, bne_iff_ne, ne_eq, ite_not, Bool.false_eq_true, if_false]

-- a chunk that starts

/-- A chunk whose spacing has passed, on an engine without windows to open, becomes active (R103, R107). -/
theorem exec_refreshChunkStart {s : State} {dt : Nat} {core : Fin 16} {eng : Fin 34} {plane : Fin 2}
    (hrefresh : (((s.elapse dt).eng core eng).plane plane).refresh = some x) (hidle : x.active = false)
    (hspaced : x.chunk = 0 ∨ x.endedAt + (s.elapse dt).val 0x4007 3 * usPs ≤ (s.elapse dt).up)
    (htodo : ((s.elapse dt).eng core eng).todo = []) (hdark : ((s.elapse dt).eng core eng).integrating = none)
    (hunwritten : ((s.elapse dt).eng core eng).writesTo plane = false) (hin : (s.elapse dt).engineOut core eng = false) :
    exec (.refreshChunkStart dt core eng plane) s = .next ((s.elapse dt).modEng core eng (fun g => g.modPlane plane (fun p =>
      { p with refresh := p.refresh.map (fun r => { r with active := true }) }))) := by
  have hlate : (decide (0 < x.chunk) && decide ((s.elapse dt).up < x.endedAt + (s.elapse dt).val 0x4007 3 * usPs)) = false := by
    rw [Bool.and_eq_false_iff, decide_eq_false_iff_not, decide_eq_false_iff_not]
    omega
  show execRefreshChunkStart dt core eng plane s = _
  unfold execRefreshChunkStart
  simp only [hrefresh, hidle, hlate, htodo, hdark, hunwritten, hin, List.isEmpty_nil, Bool.not_true, Option.any_none, Bool.or_self,
    Bool.false_eq_true, if_false]

-- a chunk that ends

/-- The 8 logical columns of a chunk, each with its cells rewritten and those still weak (R107, R108). -/
def chunkColumns (p : Plane) (r : Refresh) (averages finals : List (List Nat)) : List (Nat × Nat × Nat) :=
  (List.range 8).map (fun i => (8 * r.chunk + i,
    (refreshColumn p r (8 * r.chunk + i) false (averages.getD (2 * i) []) (finals.getD (2 * i) [])).1 +
      (refreshColumn p r (8 * r.chunk + i) true (averages.getD (2 * i + 1) []) (finals.getD (2 * i + 1) [])).1,
    (refreshColumn p r (8 * r.chunk + i) false (averages.getD (2 * i) []) (finals.getD (2 * i) [])).2 +
      (refreshColumn p r (8 * r.chunk + i) true (averages.getD (2 * i + 1) []) (finals.getD (2 * i + 1) [])).2))

/-- A refresh once its active chunk has ended at `now` with `cells`, none of whose columns has more weak cells than the limit. -/
def Refresh.chunkDone (r : Refresh) (now : Nat) (cells : List (Nat × Nat)) : Refresh :=
  { r with
    chunk := r.chunk + 1, active := false, endedAt := now, rewrote := r.rewrote || 0 < (cells.map (fun x => x.1)).sum
    weak := r.weak + (cells.map (fun x => x.2)).sum }

/-- What a chunk that has ended leaves: `next` as its plane's refresh, and the cells rewritten counted (R107, R108).
`State.chunkEnd_counts` ties it to REFRESH_CHUNK_END. -/
def State.countChunk (s : State) (c e plane rewritten : Nat) (next : Refresh) : State :=
  (s.bump (engIdx c e) 0x2C rewritten).modEng c e (fun g => g.modPlane plane (fun p => { p with refresh := some next }))

/-- The plane of a refresh that is over: it is LIVE again, and if a cell was rewritten its calibrations fall due (R107, R108). -/
def Plane.refreshed (p : Plane) (rewrote : Bool) (now : Nat) : Plane :=
  let p := { p with st := .live, refresh := none, refreshedAt := now }
  if rewrote then p.calibrated.foldl (fun p b => p.due b 3 now) p else p

theorem Plane.refreshed_live (p : Plane) (rewrote : Bool) (now : Nat) : (p.refreshed rewrote now).refresh = none ∧
    (p.refreshed rewrote now).st = .live ∧ (p.refreshed rewrote now).refreshedAt = now := by
  unfold Plane.refreshed
  extract_lets q
  obtain ⟨d, hd⟩ := q.dueFold_eq 3 now q.calibrated
  cases rewrote
  · exact ⟨rfl, rfl, rfl⟩
  · rw [if_pos rfl, hd]
    exact ⟨rfl, rfl, rfl⟩

theorem State.countChunk_plane (s : State) (c e plane rewritten : Nat) (next : Refresh) :
    ((s.countChunk c e plane rewritten next).eng c e).plane plane =
      { (s.eng c e).plane plane with refresh := some next } := by
  rw [State.countChunk, State.modEng_eng_same, Engine.modPlane_same, State.bump_eng]

theorem State.countChunk_eng_other (s : State) {c e x y : Nat} (plane rewritten : Nat) (next : Refresh) (he : e < 34) (hy : y < 34)
    (h : x ≠ c ∨ y ≠ e) : (s.countChunk c e plane rewritten next).eng x y = s.eng x y := by
  rw [State.countChunk, State.modEng_eng_other _ _ _ _ _ _ he hy h, State.bump_eng]

/-- The plane whose last chunk `next` counts goes back to service, and the refresh and its weak cells are noted (R98, R108). -/
def State.endRefresh (s : State) (c e plane : Nat) (next : Refresh) : State :=
  ((s.modEng c e (fun g => g.modPlane plane (fun p => p.refreshed next.rewrote s.up))).bump (engIdx c e) 0x2B 1).setVal (engIdx c e)
    (0x27 + plane) next.weak

theorem State.endRefresh_plane (s : State) (c e plane : Nat) (next : Refresh) : ((s.endRefresh c e plane next).eng c e).plane plane =
    ((s.eng c e).plane plane).refreshed next.rewrote s.up := by
  rw [State.endRefresh, State.setVal_eng, State.bump_eng, State.modEng_eng_same, Engine.modPlane_same]

theorem State.endRefresh_eng_other (s : State) {c e x y : Nat} (plane : Nat) (next : Refresh) (he : e < 34) (hy : y < 34)
    (h : x ≠ c ∨ y ≠ e) : (s.endRefresh c e plane next).eng x y = s.eng x y := by
  rw [State.endRefresh, State.setVal_eng, State.bump_eng, State.modEng_eng_other _ _ _ _ _ _ he hy h]

theorem State.countChunk_up (s : State) (c e plane rewritten : Nat) (next : Refresh) :
    (s.countChunk c e plane rewritten next).up = s.up := by
  rw [State.countChunk, State.modEng_up, State.bump_up]

/-- Without a column of too many weak cells a chunk is counted, and the last one ends the refresh. -/
theorem State.chunkEnd_counts {averages finals : List (List Nat)} {cells : List (Nat × Nat)} {next : Refresh}
    (hp : p = (s.eng c e).plane plane) (hrefresh : p.refresh = some x) (hactive : x.active = true)
    (hcells : cells = (chunkColumns p x averages finals).map Prod.snd) (hlimit : ∀ y ∈ cells, y.2 ≤ x.limit)
    (hnext : next = x.chunkDone s.up cells) :
    s.chunkEnd c e plane averages finals =
      if x.chunk + 1 < 32 then s.countChunk c e plane (cells.map (fun y => y.1)).sum next
      else (s.countChunk c e plane (cells.map (fun y => y.1)).sum next).endRefresh c e plane next := by
  have hweak : ∀ y ∈ chunkColumns p x averages finals, y.2.2 ≤ x.limit := fun y hy =>
    hlimit y.2 (hcells ▸ List.mem_map_of_mem hy)
  have hnone : (chunkColumns p x averages finals).filter (fun y => x.limit < y.2.2) = [] :=
    List.filter_eq_nil_iff.2 fun y hy => by simpa using hweak y hy
  have hall : (chunkColumns p x averages finals).filter (fun y => y.2.2 ≤ x.limit) = chunkColumns p x averages finals :=
    List.filter_eq_self.2 fun y hy => by simpa using hweak y hy
  have hrewritten : ((chunkColumns p x averages finals).map Prod.snd).map (fun y => y.1) =
      (chunkColumns p x averages finals).map (fun y => y.2.1) := List.map_map
  have hkept : ((chunkColumns p x averages finals).map Prod.snd).map (fun y => y.2) =
      (chunkColumns p x averages finals).map (fun y => y.2.2) := List.map_map
  subst hnext
  unfold State.chunkEnd State.endRefresh State.countChunk Refresh.chunkDone Plane.refreshed
  rw [hcells, hrewritten, hkept]
  unfold chunkColumns at *
  simp only [← hp, hrefresh, hactive, Bool.not_true, Bool.false_eq_true, if_false, hnone, hall, List.foldl_nil, State.bump_up,
    State.modEng_up]

theorem State.chunkEnd_mem (s : State) (c e plane : Nat) (averages finals : List (List Nat)) :
    (s.chunkEnd c e plane averages finals).mem = s.mem :=
  (State.chunkEnd_keeps (Within.refl _) c e plane averages finals (.refl _ s)).mem_eq (by decide)

end

-- the statement

/-- Settles O16: the oldest due plane with an image that still checks and with one that does not, a chunk that starts, and one that
ends, the last of a refresh or not. -/
theorem driftRefreshRunsInChunks : Obligations.DriftRefreshRunsInChunks := by
  refine ⟨?due, ?starts, ?ends⟩
  case due =>
    rintro s _ dt core eng plane p r rfl hp hdue holdest hwrites hin hrecord hmapped
    have hrun := State.refreshDue_checked (c := core) (e := eng) ⟨hp, hdue, holdest, hwrites, hin, hrecord, hmapped⟩
    refine ⟨fun hsame => ?same, fun hchanged => ?changed⟩
    case same =>
      rw [if_pos hsame] at hrun
      exact congrArg Host.Outcome.next hrun
    case changed =>
      rw [if_neg hchanged] at hrun
      exact congrArg Host.Outcome.next hrun
  case starts =>
    rintro s _ dt core eng plane r rfl hrefresh hidle hspaced htodo hdark hwrites hin
    refine ⟨_, exec_refreshChunkStart hrefresh hidle hspaced htodo hdark hwrites hin, ?_, ?_, fun c e he h => ?_⟩
    · rw [State.modEng_eng_same, Engine.modPlane_same, hrefresh]
      rfl
    · rw [State.modEng_eng_same, Engine.modPlane_other _ _ _ _ (by omega)]
    · exact State.modEng_eng_other _ _ _ _ _ _ eng.isLt he h
  case ends =>
    rintro s _ dt core eng plane averages finals r p cells rfl hp hrefresh hactive hcells hlimit
    have hcolumns : cells = (chunkColumns p r averages finals).map Prod.snd := by
      rw [chunkColumns, List.map_map]
      exact hcells
    have hrun := State.chunkEnd_counts hp hrefresh hactive hcolumns hlimit rfl
    refine ⟨(s.elapse dt).chunkEnd core eng plane averages finals, rfl, fun hmore => ?more, fun hlast => ?last, fun c e he h => ?others,
      State.chunkEnd_mem _ _ _ _ _ _⟩
    case more =>
      rw [hrun, if_pos hmore, State.countChunk_plane, hp]
      exact ⟨rfl, rfl⟩
    case last =>
      rw [hrun, if_neg (Nat.not_lt.2 hlast), State.endRefresh_plane, State.countChunk_up]
      exact Plane.refreshed_live _ _ _
    case others =>
      rw [hrun]
      split
      · exact State.countChunk_eng_other _ _ _ _ eng.isLt he h
      · rw [State.endRefresh_eng_other _ _ _ eng.isLt he h, State.countChunk_eng_other _ _ _ _ eng.isLt he h]

-- states that meet the hypotheses of its clauses

/-- `passReady` at the refresh period of up time, with `p` behind bank 0 of engine 0. -/
def refreshReady (p : Plane) : State :=
  { passReady { plane0 := p } with clock := { State.reset.clock with up := State.reset.val 0x4007 2 * sPs } }

/-- A LIVE plane of that age, whose record has the check code `check` of the image at address 0. -/
def livePlane (check : Nat) : Plane := { st := .live, record := some { check := check } }

theorem livePlane_ready (check : Nat) :
    ((refreshReady (livePlane check)).elapse 0).RefreshReady 0 0 0 (livePlane check) { check := check } :=
  have hdue : ((refreshReady {}).elapse 0).refreshAge { st := .live } = true := by decide
  have hmapped : ((refreshReady {}).elapse 0).touchesRetired 0 imageBytes = false := by decide
  ⟨rfl, hdue, fun _ _ _ _ _ _ => Nat.zero_le _, rfl, rfl, rfl, hmapped⟩

/-- The plane's image stands in the empty memory. -/
theorem witness_refreshStarts : ∃ t, exec (.driftRefreshDue 0 0 0 0) (refreshReady (livePlane (imageCheck [] 0))) = .next t ∧
    ((t.eng 0 0).plane 0).st = .refreshing := by
  obtain ⟨hdue, -⟩ := driftRefreshRunsInChunks
  generalize hcheck : imageCheck [] 0 = check
  obtain ⟨hp, hage, holdest, hwrites, hin, hrecord, hmapped⟩ := livePlane_ready check
  exact ⟨_, (hdue (refreshReady (livePlane check)) _ 0 0 0 0 (livePlane check) { check := check } rfl hp hage holdest hwrites hin
    hrecord hmapped).1 hcheck, by simp [Engine.modPlane_same]⟩

/-- A check code other than `x`. -/
def otherCheck (x : Nat) : Nat := if x = 0 then 1 else 0

theorem otherCheck_ne (x : Nat) : x ≠ otherCheck x := by
  unfold otherCheck
  split <;> omega

/-- It has changed since the plane was written. -/
theorem witness_refreshRefused : ∃ t, exec (.driftRefreshDue 0 0 0 0) (refreshReady (livePlane (otherCheck (imageCheck [] 0)))) =
    .next t ∧ ((t.eng 0 0).plane 0).st = .live := by
  obtain ⟨hdue, -⟩ := driftRefreshRunsInChunks
  have hchanged : imageCheck [] 0 ≠ otherCheck (imageCheck [] 0) := otherCheck_ne _
  generalize otherCheck (imageCheck [] 0) = check at hchanged ⊢
  obtain ⟨hp, hage, holdest, hwrites, hin, hrecord, hmapped⟩ := livePlane_ready check
  refine ⟨_, (hdue (refreshReady (livePlane check)) _ 0 0 0 0 (livePlane check) { check := check } rfl hp hage holdest hwrites hin
    hrecord hmapped).2 hchanged, ?_⟩
  have hlive : (((refreshReady (livePlane check)).eng 0 0).plane 0).st = .live := rfl
  simp [Engine.modPlane_same, hlive]

/-- Chunk 31 starts once the spacing after the one before has passed. -/
theorem witness_chunkStarts : ∃ t, exec (.refreshChunkStart 0 0 0 0) (refreshReady { refresh := some { chunk := 31 } }) = .next t ∧
    ((t.eng 0 0).plane 0).refresh = some { chunk := 31, active := true } := by
  obtain ⟨-, hstarts, -⟩ := driftRefreshRunsInChunks
  obtain ⟨t, ht, hactive, -⟩ := hstarts (refreshReady { refresh := some { chunk := 31 } }) _ 0 0 0 0 { chunk := 31 } rfl rfl rfl
    (.inr (by decide)) rfl rfl rfl rfl
  exact ⟨t, ht, hactive⟩

/-- Chunk `n` of the plane of bank 0 is active. -/
def chunkActive (n : Nat) : State := refreshReady { st := .refreshing, refresh := some { chunk := n, active := true } }

/-- Each of the 16 physical columns reads level 0. -/
def blankColumns : List (List Nat) := List.replicate 16 (List.replicate 512 0)

theorem blankColumns_getD (k i : Nat) : (blankColumns.getD k []).getD i 0 = 0 := by
  unfold blankColumns
  by_cases hk : k < 16
  · by_cases hi : i < 512 <;> simp [-List.reduceReplicate, hk, hi]
  · simp [-List.reduceReplicate, hk]

/-- Cells of a plane without contents that read level 0 need no pulse. -/
theorem refreshColumn_blank {p : Plane} (hempty : p.weights = []) (r : Refresh) (j : Nat) (negative : Bool) (k l : Nat) :
    refreshColumn p r j negative (blankColumns.getD k []) (blankColumns.getD l []) = (0, 0) := by
  have hoff : ∀ k i, (((blankColumns.getD k []).getD i 0 : Int) - 1000 * (cellTarget (p.weight j i) negative : Nat)).natAbs = 0 :=
    fun k i => by
      rw [blankColumns_getD]
      cases negative <;> simp [Plane.weight, cellTarget, signed, hempty]
  simp only [refreshColumn, hoff, Nat.not_lt_zero, decide_false, List.filter_false, List.length_nil]

theorem blankChunk_within {p : Plane} (hempty : p.weights = []) (r : Refresh) :
    ∀ y ∈ (chunkColumns p r blankColumns blankColumns).map Prod.snd, y.2 ≤ r.limit := by
  simp [-List.getD_eq_getElem?_getD, chunkColumns, refreshColumn_blank hempty]

theorem witness_chunkCounted : ∃ t, exec (.refreshChunkEnd 0 0 0 0 blankColumns blankColumns) (chunkActive 30) = .next t ∧
    ((t.eng 0 0).plane 0).refresh.map Refresh.chunk = some 31 ∧ ((t.eng 0 0).plane 0).st = .refreshing := by
  obtain ⟨-, -, hends⟩ := driftRefreshRunsInChunks
  obtain ⟨t, ht, hmore, -⟩ := hends (chunkActive 30) _ 0 0 0 0 blankColumns blankColumns { chunk := 30, active := true } _ _ rfl rfl rfl
    rfl List.map_map (blankChunk_within rfl _)
  obtain ⟨hrefresh, hst⟩ := hmore (by decide)
  exact ⟨t, ht, congrArg (Option.map Refresh.chunk) hrefresh, hst⟩

theorem witness_refreshEnds : ∃ t, exec (.refreshChunkEnd 0 0 0 0 blankColumns blankColumns) (chunkActive 31) = .next t ∧
    ((t.eng 0 0).plane 0).refresh = none ∧ ((t.eng 0 0).plane 0).st = .live := by
  obtain ⟨-, -, hends⟩ := driftRefreshRunsInChunks
  obtain ⟨t, ht, -, hlast, -⟩ := hends (chunkActive 31) _ 0 0 0 0 blankColumns blankColumns { chunk := 31, active := true } _ _ rfl rfl
    rfl rfl List.map_map (blankChunk_within rfl _)
  obtain ⟨hrefresh, hst, -⟩ := hlast (by decide)
  exact ⟨t, ht, hrefresh, hst⟩

end Sys2Proof.Machine
end

section
/-! DRAIN: acceptance, row reads and row writes (R133, R139, R152 to R157, R184), and the statement O22. -/

namespace Sys2Proof.Machine

-- rows of vats

/-- A row of a stand-in slot's vat lies in no engine. -/
theorem State.modRow_eng_standIn (s : State) {c q : Nat} (row : Nat) (f : Row → Row) (x y : Nat) (hq : ¬ q < 34) :
    (s.modRow c q row f).eng x y = s.eng x y := by
  rw [State.modRow, State.setVat, if_neg hq, State.modCore_eng]

/-- The queues `qs` change their row `row` by `f`. -/
def State.modRows (s : State) (c row : Nat) (f : Row → Row) (qs : List Nat) : State := qs.foldl (fun s q => s.modRow c q row f) s

/-- A condition that `f` brings about holds of the row on every engine among the queues, and a row that met it before still does. -/
theorem State.modRows_row {P : Row → Prop} {f : Row → Row} (hf : ∀ r, P (f r)) {c q row : Nat} (hq : q < 34) (qs : List Nat)
    (s : State) (h : q ∈ qs ∨ P (tget (s.eng c q).vat row)) : P (tget ((s.modRows c row f qs).eng c q).vat row) := by
  induction qs generalizing s with
  | nil => exact h.resolve_left List.not_mem_nil
  | cons a qs ih =>
    refine ih (s.modRow c a row f) ?_
    by_cases ha : a = q
    · right
      rw [ha, State.modRow_eng _ _ _ _ _ hq]
      simpa only [tget_tmod, if_pos] using hf _
    · refine h.imp (fun hmem => (List.mem_cons.1 hmem).resolve_left (Ne.symm ha)) (fun hrow => ?_)
      by_cases hengine : a < 34
      · rwa [State.modRow_eng_other _ _ _ _ _ _ _ hengine hq (.inr (Ne.symm ha))]
      · rwa [State.modRow_eng_standIn _ _ _ _ _ hengine]

section
variable {s : State} {c n : Nat} {o : Op} {d : DrainRun}

-- which branch a DRAIN at the head of its queue takes

/-- Without a rescale table, and with no row held by an earlier drain or skim, the drain unit accepts the drain (R152, R154). -/
theorem State.drainHead_accepts (hhead : s.head c qDrain opDrain = some (n, o)) (hidle : (s.core c).drain = none)
    (hserved : s.queueFault c qDrain = stOk) (htable : dRescale o.word = 0)
    (hfree : s.lockedBefore c (s.maskQueues c (maskOf o.word)) (pTileBase o.word) (pTileRows o.word) n = false) :
    s.drainHead c = (s.lockRows c (s.maskQueues c (maskOf o.word)) (tileRange (pTileBase o.word) (pTileRows o.word)) n).modCore c
      (fun k => { k.modOp n (fun o => { o with stage := .running }) with drain := some { op := n, nearArray := false } }) := by
  unfold State.drainHead
  simp only [hhead, hidle, hserved, htable, hfree, bne_self_eq_false, Bool.false_and, Bool.false_eq_true, if_true, if_false]

/-- With its unit out of service and no near-array block to stand in, the drain ends with that status (R157, R184). -/
theorem State.drainHead_refused (hhead : s.head c qDrain opDrain = some (n, o)) (hidle : (s.core c).drain = none)
    (hout : s.queueFault c qDrain ≠ stOk) (halone : s.nearServes c = false) :
    s.drainHead c = s.finish c n (s.queueFault c qDrain) := by
  unfold State.drainHead
  simp only [hhead, hidle, bne_iff_ne.2 hout, halone, Bool.false_and, Bool.not_false, Bool.and_self, if_true]

-- reading a row

/-- The state once drain `d`, operation `o`, has read row `row` of the queues `qs` to the outputs `y`: the row is drained, and the
outputs wait to be written (R153, R154). `State.drainRead_takes` ties it to DRAIN_ROW_READ. -/
def State.takeDrainRow (s : State) (c row : Nat) (d : DrainRun) (o : Op) (qs : List Nat) (y : List (List F32) × Tally) : State :=
  let counted := (s.countTally c 0x30 0x31 y.2).bump (coreIdx c) 0x42 (qs.filter (fun q => (tget (s.vatOf c q) row).churnValid)).length
  (counted.modRows c row (drainedRow (!dKeep o.word || dStream o.word)
    (!dStream o.word || (o.desc (dOut o.word)).rows ≤ d.next + pTileRows o.word)) qs).modCore c (fun k => { k with
      drainCtr := (k.drainCtr + if dReduce o.word then qs.length - 1 else 0) % 2 ^ 64
      drain := some { d with
        next := d.next + 1
        ready := d.ready ++ (List.range y.1.length).map (fun i => (i, d.next, y.1.getD i [])) } })

/-- A drain whose units are in service and whose next output row is one to read (R152, R157). -/
structure State.DrainReads (s : State) (c : Nat) (d : DrainRun) (o : Op) : Prop where
  running : (s.core c).drain = some d
  held : (s.core c).op d.op = some o
  sound : d.faulted = false
  more : d.next < (o.desc (dOut o.word)).rows
  engines : s.maskOut c (maskOf o.word) = false
  served : s.queueFault c qDrain = stOk

theorem State.DrainReads.unfinished (h : s.DrainReads c d o) :
    (d.faulted || decide ((o.desc (dOut o.word)).rows ≤ d.next)) = false := by
  rw [h.sound, decide_eq_false (Nat.not_le.2 h.more), Bool.or_self]

/-- The row may be read: without a bias and an elementwise operand it is read. -/
theorem State.drainRead_takes (dt : Nat) (h : s.DrainReads c d o)
    (hmay : s.mayReadRow c (s.maskQueues c (maskOf o.word)) d.op (pTileBase o.word) (pTileRows o.word) d.next (dStream o.word) = true)
    (hbias : dBias o.word = 0) (hew : dEw o.word = 0) : s.drainRead c dt =
      s.takeDrainRow c (pTileBase o.word + d.next % pTileRows o.word) d o (s.maskQueues c (maskOf o.word)) (s.drainOutputs c o.word
        (s.maskQueues c (maskOf o.word)) (pTileBase o.word + d.next % pTileRows o.word) [] [] { free := s.free }) := by
  have hunfinished := h.unfinished
  obtain ⟨hrunning, hheld, -, -, hengines, hserved⟩ := h
  unfold State.drainRead
  simp only [hrunning, hheld, hunfinished, hengines, hserved, hmay, hbias, hew, bne_self_eq_false, Bool.and_false, Bool.not_true,
    Bool.false_eq_true, if_true, if_false]
  rfl

/-- While the row may not be read the wait alone is counted (R154). -/
theorem State.drainRead_waits (dt : Nat) (h : s.DrainReads c d o)
    (hmay : s.mayReadRow c (s.maskQueues c (maskOf o.word)) d.op (pTileBase o.word) (pTileRows o.word) d.next (dStream o.word) = false) :
    s.drainRead c dt = s.bump (coreIdx c) 0x43 (dt / 1000) := by
  have hunfinished := h.unfinished
  obtain ⟨hrunning, hheld, -, -, hengines, hserved⟩ := h
  unfold State.drainRead
  simp only [hrunning, hheld, hunfinished, hengines, hserved, hmay, bne_self_eq_false, Bool.and_false, Bool.not_false,
    Bool.false_eq_true, if_true, if_false]

theorem State.drainRead_mem (s : State) (c dt : Nat) : (s.drainRead c dt).mem = s.mem :=
  (State.drainRead_keeps (Within.refl _) c dt (.refl _ s)).mem_eq (by decide)

theorem State.takeDrainRow_drain (s : State) (c row : Nat) (d : DrainRun) (o : Op) (qs : List Nat) (y : List (List F32) × Tally) :
    ((s.takeDrainRow c row d o qs y).core c).drain = some { d with
      next := d.next + 1
      ready := d.ready ++ (List.range y.1.length).map (fun i => (i, d.next, y.1.getD i [])) } := by
  rw [State.takeDrainRow, State.modCore_core, if_pos rfl]

theorem drainedRow_clears (unlock : Bool) (r : Row) : (drainedRow true unlock r).vals = [] := rfl

/-- A row that is not kept reads +0.0 on every engine once it has been read (R153). -/
theorem State.takeDrainRow_clears {row q : Nat} {qs : List Nat} (y : List (List F32) × Tally) (hkeep : dKeep o.word = false)
    (hmem : q ∈ qs) (hq : q < 34) (j : Nat) : tget (tget ((s.takeDrainRow c row d o qs y).eng c q).vat row).vals j = 0 := by
  have hclear : ∀ unlock r, (drainedRow (!dKeep o.word || dStream o.word) unlock r).vals = [] := by
    rw [hkeep]
    exact drainedRow_clears
  rw [State.takeDrainRow, State.modCore_eng, State.modRows_row (P := fun r => r.vals = []) (hclear _) hq _ _ (.inl hmem)]
  rfl

-- writing a row

/-- A computation of one part is that part's. -/
theorem Calc.mapM_singleton {α β : Type} (f : α → Calc β) (a : α) (t : Tally) : [a].mapM f t = ([(f a t).1], (f a t).2) := rfl

/-- The oldest row of which one part waits is written with status OK, and the drain ends or goes on (R155, R157). -/
theorem State.drainWrite_writes {i r : Nat} {vals : List F32} {rest : List (Nat × Nat × List F32)}
    {y : List (Nat × List Byte) × Tally} {z : Nat × State} (hrunning : (s.core c).drain = some d) (hheld : (s.core c).op d.op = some o)
    (hready : d.ready = (i, r, vals) :: rest) (hlater : rest.all (fun x => x.2.1 ≠ r) = true)
    (hy : y = (s.drainWrites o.word (o.desc (dRescale o.word)).base
      (if dReduce o.word then o.desc (dOut o.word) else (o.desc (dOut o.word)).rank i) r vals) { free := s.free })
    (hz : z = (s.countTally c 0x30 0x31 y.2).writeAll (s.coreJob c) (y.1.flatMap (fun x => splitWrite (x.2.length + 1) x)))
    (hok : z.1 = stOk) : s.drainWrite c =
      if rest = [] ∧ d.faulted = true then
        (z.2.bump (coreIdx c) 0x41 1).drainEnd c d.op o.status (s.maskQueues c (maskOf o.word)) d.nearArray
      else if rest = [] ∧ (o.desc (dOut o.word)).rows ≤ d.next then
        (z.2.bump (coreIdx c) 0x41 1).drainEnd c d.op stOk (s.maskQueues c (maskOf o.word)) d.nearArray
      else (z.2.bump (coreIdx c) 0x41 1).modCore c (fun k => { k with drain := some { d with ready := rest } }) := by
  have hothers : ∀ x ∈ rest, x.2.1 ≠ r := by simpa using hlater
  have hmine : ((i, r, vals) :: rest).filter (fun x => x.2.1 = r) = [(i, r, vals)] := by simpa using hothers
  have hrest : ((i, r, vals) :: rest).filter (fun x => x.2.1 != r) = rest := by simpa using hothers
  unfold State.drainWrite
  simp only [hrunning, hheld, hready, hmine, hrest, Calc.mapM_singleton, List.flatten_singleton, ← hy, ← hz, hok, bne_self_eq_false,
    Bool.false_eq_true, if_false, Bool.and_eq_true, List.isEmpty_iff, decide_eq_true_eq]

end

-- a drain that ends

theorem State.drainEnd_idle (s : State) (c n status : Nat) (qs : List Nat) (near : Bool) :
    ((s.drainEnd c n status qs near).core c).drain = none := by
  unfold State.drainEnd State.finish
  extract_lets ended counted
  have hended : (ended.core c).drain = none := congrArg Core.drain ((State.modCore_core _ _ _ _).trans (if_pos rfl))
  have hcounted : counted.core c = ended.core c := by
    unfold counted
    split
    · rw [State.bump_core, State.bump_core]
    · rfl
  rw [State.modCore_core, if_pos rfl, hcounted]
  exact hended

-- the statement

/-- Settles O22, one clause for each branch of the drain's three commands. -/
theorem drainReadsThenWritesItsRows : Obligations.DrainReadsThenWritesItsRows := by
  refine ⟨?accepts, ?refused, ?reads, ?waits, ?writes⟩
  case accepts =>
    rintro s _ dt n core o rfl hhead hidle hserved htable hfree
    exact congrArg Host.Outcome.next (State.drainHead_accepts hhead hidle hserved htable hfree)
  case refused =>
    rintro s _ dt n core o rfl hhead hidle hout halone
    exact congrArg Host.Outcome.next (State.drainHead_refused hhead hidle hout halone)
  case reads =>
    rintro s _ dt _ core d o _ y rfl hrunning hheld hsound hmore hengines hserved rfl hmay hbias hew rfl hy
    have hrun := State.drainRead_takes dt ⟨hrunning, hheld, hsound, hmore, hengines, hserved⟩ hmay hbias hew
    rw [← hy] at hrun
    refine ⟨(s.elapse dt).drainRead core dt, rfl, ?_, fun hkeep q hmem hq j => ?_, State.drainRead_mem _ _ _⟩
    · rw [hrun]
      exact ⟨_, State.takeDrainRow_drain _ _ _ _ _ _ _, rfl, rfl, rfl⟩
    · rw [hrun]
      exact State.takeDrainRow_clears y hkeep hmem hq j
  case waits =>
    rintro s _ dt core d o rfl hrunning hheld hsound hmore hengines hserved hmay
    exact congrArg Host.Outcome.next (State.drainRead_waits dt ⟨hrunning, hheld, hsound, hmore, hengines, hserved⟩ hmay)
  case writes =>
    rintro s _ dt core d o i r vals rest y z rfl hrunning hheld hready hlater hy hz hok
    exact congrArg Host.Outcome.next (State.drainWrite_writes hrunning hheld hready hlater hy hz hok)

-- states that meet the hypotheses of its clauses

/-- Operation 7 of core 0: a DRAIN of the rows 0 to 63 of slot 0 to one row of 256 FP32 elements in the core store. -/
def drainOp : Op :=
  { word := 0x18000000000100400010000000000000, stage := .queued,
    descs := [(1, { base := storeBase 0, rows := 1, cols := 256, rowStride := 1024 })] }

/-- `passReady`, its core with `drainOp` at the head of the drain queue, the drain unit in state `u` and the run `d`. -/
def drainReady (u : UnitSt) (g : Engine) (d : Option DrainRun) : State :=
  ((passReady g).putUnit (digitalRef 3 0) u).modCore 0 (fun k =>
    { k.setQueue qDrain [7] with ops := k.ops ++ [(7, drainOp)], drain := d })

/-- Engine 0 with `updated` of the one vector of `passOp` in its vat. -/
def passUpdates (updated : Nat) : Engine :=
  { passes := [{ op := 5, total := 1, next := 1, updated := updated }], vat := [(0, { vals := [(0, 1)] })] }

/-- An earlier operation holds the first row beyond the drain's own. -/
theorem witness_drainAccepted : ∃ t, exec (.drain 0 0) (drainReady .ready { vat := [(64, { locked := some 6 })] } none) = .next t ∧
    (t.core 0).drain = some { op := 7 } := by
  obtain ⟨haccepts, -⟩ := drainReadsThenWritesItsRows
  exact ⟨_, haccepts _ _ 0 7 0 drainOp rfl (by decide) rfl (by decide) (by decide) (by decide),
    congrArg Core.drain ((State.modCore_core _ _ _ _).trans (if_pos rfl))⟩

theorem witness_drainRefused : exec (.drain 0 0) (drainReady .offline {} none) =
    .next (((drainReady .offline {} none).elapse 0).finish 0 7 stUnitFault) := by
  obtain ⟨-, hrefused, -⟩ := drainReadsThenWritesItsRows
  exact hrefused _ _ 0 7 0 drainOp rfl (by decide) rfl (by decide) (by decide)

/-- The only vector of the earlier pass is in the vat. -/
theorem witness_drainRowRead : ∃ t, exec (.drainRowRead 0 0) (drainReady .ready (passUpdates 1) (some { op := 7 })) = .next t ∧
    (t.core 0).drain.map DrainRun.next = some 1 ∧ tget (tget (t.eng 0 0).vat 0).vals 0 = 0 := by
  obtain ⟨-, -, hreads, -⟩ := drainReadsThenWritesItsRows
  obtain ⟨t, ht, ⟨d, hd, -, hnext, -⟩, hcleared, -⟩ := hreads (drainReady .ready (passUpdates 1) (some { op := 7 })) _ 0 0 0
    { op := 7 } drainOp [0] _ rfl rfl rfl rfl (by decide) (by decide) (by decide) (by decide) (by decide) (by decide) (by decide)
    (by decide) rfl
  exact ⟨t, ht, (congrArg (Option.map DrainRun.next) hd).trans (congrArg some hnext), hcleared (by decide) 0 (by decide) (by decide) 0⟩

/-- It is not there yet. -/
theorem witness_drainRowWaits : exec (.drainRowRead 5000 0) (drainReady .ready (passUpdates 0) (some { op := 7 })) =
    .next (((drainReady .ready (passUpdates 0) (some { op := 7 })).elapse 5000).bump (coreIdx 0) 0x43 5) := by
  obtain ⟨-, -, -, hwaits, -⟩ := drainReadsThenWritesItsRows
  exact hwaits (drainReady .ready (passUpdates 0) (some { op := 7 })) _ 5000 0 { op := 7 } drainOp rfl rfl rfl rfl (by decide)
    (by decide) (by decide) (by decide)

/-- The drain has read its one row. -/
def rowRead : DrainRun := { op := 7, next := 1, ready := [(0, 0, List.replicate 256 0)] }

theorem witness_drainRowWritten : ∃ t, exec (.drainRowWrite 0 0) (drainReady .ready {} (some rowRead)) = .next t ∧
    (t.core 0).drain = none := by
  obtain ⟨-, -, -, -, hwrites⟩ := drainReadsThenWritesItsRows
  have hrun := hwrites (drainReady .ready {} (some rowRead)) _ 0 0 rowRead drainOp 0 0 (List.replicate 256 0) [] _ _ rfl rfl rfl rfl rfl
    rfl rfl (by decide +kernel)
  rw [if_neg (by decide), if_pos (by decide)] at hrun
  exact ⟨_, hrun, State.drainEnd_idle _ _ _ _ _ _⟩

end Sys2Proof.Machine
end

section
/-! The vector unit (R126, R134, R206, R207), and the statement O24. -/

namespace Sys2Proof.Machine

-- what the digital units leave

/-- A digital unit has computed the writes `r` of operation `n`: its counts are taken, the writes are made, and the operation stands
completed with their status (R126, R134). -/
def State.writeBack (s : State) (c n satSub nanSub : Nat) (r : List (Nat × List Byte) × Tally) : State :=
  let v := (s.countTally c satSub nanSub r.2).writeAll (s.coreJob c) r.1
  v.2.finish c n v.1

-- the vector unit

/-- The operands that a VEC of a VOP reads, each with its rows (R207). -/
def Op.vecReads (o : Op) (vop : Nat) : List (Desc × List Nat) :=
  [(o.desc (vA o.word), (o.desc (vA o.word)).rowList)] ++
    (if vopUsesB vop then [(o.desc (vB o.word), (o.desc (vB o.word)).rowList)] else []) ++
    (if vopUsesC vop then [(o.desc (vC o.word), (o.desc (vC o.word)).rowList)] else [])

/-- The limits that a SOFTMAX with an operand C reads, one of 4 bytes for each row (R207). -/
def Op.vecLimits (o : Op) (vop : Nat) : List (Nat × Nat) :=
  if vop = 0x10 ∧ vC o.word ≠ 0 then (o.desc (vA o.word)).rowList.map (fun r =>
    ((o.desc (vC o.word)).base + r * (o.desc (vC o.word)).rowStride, 4)) else []

/-- The writes of a VEC whose VOP computes `f` (R207). -/
def State.vecWrites (s : State) (o : Op) (vop : Nat) (f : State → Op → Nat → RowFn) : Calc (List (Nat × List Byte)) := do
  let rows ← (o.desc (vA o.word)).rowList.mapM (fun r => do
    let ra ← s.vecRow (o.desc (vA o.word)) r
    let rb ← if vopUsesB vop then s.vecRow (o.desc (vB o.word)) r else pure []
    let rc ← if vopUsesC vop then s.vecRow (o.desc (vC o.word)) r else pure []
    pure (r, ← f s o r ra rb rc (ofF32 (vImm o.word))))
  rowsWrites (o.desc (vDst o.word)) rows

section
variable {s m m' : State} {c n vop st : Nat} {o : Op} {f : State → Op → Nat → RowFn}

/-- A command of another VOP leaves the VEC where it is (log entry 2). -/
theorem State.vecHead_other (hhead : s.head c qVector opVec = some (n, o)) (hvop : vOp o.word ≠ vop) : s.vecHead c vop f = s := by
  unfold State.vecHead
  simp only [hhead, bne_iff_ne.2 hvop, if_true]

/-- A VEC of the VOP whose operands may be read goes on to its limits: it ends with their status if they may not be read, and else
writes its rows (R207). -/
theorem State.vecHead_served (hhead : s.head c qVector opVec = some (n, o)) (hvop : vOp o.word = vop)
    (hserved : s.queueFault c qVector = stOk) (hread : s.allReadable c (o.vecReads vop) = (stOk, m))
    (hlimits : m.accessAll (s.coreJob c) rightR (o.vecLimits vop) = (st, m')) :
    s.vecHead c vop f =
      if st = stOk then m'.writeBack c n 0x32 0x33 (m'.vecWrites o vop f { free := m'.free }) else m'.finish c n st := by
  unfold Op.vecReads at hread
  simp only [Op.vecLimits, ne_eq] at hlimits
  unfold State.vecHead
  simp only [hhead, hvop, hserved, hread, Bool.and_eq_true, decide_eq_true_eq, bne_iff_ne, ne_eq, hlimits, not_true_eq_false, if_false,
    ite_not]
  rfl

end

/-- The 17 commands of the vector unit, each with its VOP and what it computes for a row (R207). -/
def vecCommands (dt : Nat) (core : Fin 16) : List (Instr × Nat × (State → Op → Nat → RowFn)) :=
  [(.convert dt core, 0x01, fun _ _ _ => map1 pure), (.add dt core, 0x02, fun _ _ _ => map2 addC),
    (.mul dt core, 0x03, fun _ _ _ => map2 mulC), (.fma dt core, 0x04, fun _ _ _ => map3 fmaC),
    (.scale dt core, 0x05, fun _ _ _ a _ _ imm => a.mapM (fun x => mulC x imm)), (.max dt core, 0x06, fun _ _ _ => map2 maxC),
    (.relu dt core, 0x08, fun _ _ _ => map1 (fun x => pure (reluN x))), (.silu dt core, 0x09, fun _ _ _ => map1 (fun x => pure (siluN x))),
    (.gelu dt core, 0x0A, fun _ _ _ => map1 (fun x => pure (geluN x))), (.exp dt core, 0x0B, fun _ _ _ => map1 (fun x => pure (expN x))),
    (.recip dt core, 0x0C, fun _ _ _ => map1 (fun x => pure (recipN x))),
    (.rsqrt dt core, 0x0D, fun _ _ _ => map1 (fun x => pure (rsqrtN x))),
    (.softmax dt core, 0x10, fun s o r a _ _ imm => softmaxRow (s.softmaxLimit o r a.length) a imm),
    (.rmsnorm dt core, 0x11, fun _ _ _ => rmsRow), (.layernorm dt core, 0x12, fun _ _ _ => layerRow),
    (.rowmax dt core, 0x13, fun _ _ _ a _ _ _ => do pure [← rowMax a]),
    (.rowsum dt core, 0x14, fun _ _ _ a _ _ _ => do pure [← rowSum a])]

theorem exec_vecCommands (dt : Nat) (core : Fin 16) (s : State) :
    ∀ x ∈ vecCommands dt core, exec x.1 s = .next ((s.elapse dt).vecHead core x.2.1 x.2.2) := by
  simp only [vecCommands, List.forall_mem_cons, List.not_mem_nil, false_imp_iff, implies_true, and_true]
  exact ⟨rfl, rfl, rfl, rfl, rfl, rfl, rfl, rfl, rfl, rfl, rfl, rfl, rfl, rfl, rfl, rfl, rfl⟩

-- the statement

/-- Settles O24. That a command of another VOP changes nothing is log entry 2. -/
theorem vectorOperationsWriteEachRow : Obligations.VectorOperationsWriteEachRow := by
  rintro s _ dt n core o rfl hhead hserved x hx
  have hx : x ∈ vecCommands dt core := hx
  rw [exec_vecCommands dt core s x hx]
  refine ⟨fun hother => ?other, fun hvop m m' st _ r hread hlim hlimits => ?served⟩
  case other => rw [State.vecHead_other hhead hother]
  case served =>
    subst hlim
    rw [State.vecHead_served hhead hvop hserved hread hlimits]
    refine ⟨fun hst => ?refused, fun hst hr => ?writes⟩
    case refused => rw [if_neg hst]
    case writes =>
      rw [if_pos hst, hr]
      rfl

-- states that meet the hypotheses of its clauses

/-- Operation 9 of core 0: the word `w` on the row A of two FP32 elements at `a`, the row B of two behind 1.0 and 2.0 in the core store
and a C whose one element reaches beyond the store, with its result in the store. -/
def rowsOp (w : TvWord) (a : Nat) : Op :=
  { word := w, stage := .queued,
    descs := [(1, { base := storeBase 0 + 64, rows := 1, cols := 2 }), (2, { base := a, rows := 1, cols := 2 }),
      (3, { base := storeBase 0 + 8, rows := 1, cols := 2 }), (4, { base := storeBase 0 + storeSize - 3, rows := 1, cols := 1 })] }

/-- Core 0 and its tensor and vector units in service, operation 9 at the head of queue `q`, the operations `ops` in its table, and
1.0, 2.0, 3.0 and 4.0 at the start of its store. -/
def digitalReady (q : Nat) (ops : List (Nat × Op)) : State :=
  { State.reset with
    units := [(coreRef 0, { st := .ready }), (digitalRef 5 0, { st := .ready }), (digitalRef 6 0, { st := .ready })]
    cores := [(0, { ops := ops, queues := [(q, [9])] })]
    mem := Mem.write [] (storeBase 0) [0, 0, 0x80, 0x3F, 0, 0, 0, 0x40, 0, 0, 0x40, 0x40, 0, 0, 0x80, 0x40] }

/-- An ADD of A and B. -/
def addReady : State := digitalReady qVector [(9, rowsOp 0x2100020040200C000000000000000000 (storeBase 0))]

/-- 1.0 + 3.0 and 2.0 + 4.0. -/
theorem witness_addWrites : ∃ t, exec (.add 0 0) addReady = .next t ∧ t.mem.num (storeBase 0 + 64) 4 = 0x40800000 ∧
    t.mem.num (storeBase 0 + 68) 4 = 0x40C00000 := by
  obtain ⟨-, hserved⟩ := vectorOperationsWriteEachRow addReady _ 0 9 0 (rowsOp 0x2100020040200C000000000000000000 (storeBase 0)) rfl
    (by decide) (by decide) (.add 0 0, 0x02, fun _ _ _ => map2 addC) (.tail _ (.head _))
  obtain ⟨-, hwrites⟩ := hserved (by decide) (addReady.elapse 0) (addReady.elapse 0) stOk [] _ (by rfl) (by decide) rfl
  exact ⟨_, hwrites rfl rfl, by decide +kernel, by decide +kernel⟩

theorem witness_addIsNoMul : exec (.mul 0 0) addReady = .next (addReady.elapse 0) :=
  (vectorOperationsWriteEachRow addReady _ 0 9 0 (rowsOp 0x2100020040200C000000000000000000 (storeBase 0)) rfl
    (by decide) (by decide) (.mul 0 0, 0x03, fun _ _ _ => map2 mulC) (.tail _ (.tail _ (.head _)))).1 (by decide)

/-- A SOFTMAX with IMM 1.0 of A below the limit C. -/
def softmaxReady : State := digitalReady qVector [(9, rowsOp 0x21001000402000043F80000000000000 (storeBase 0))]

theorem witness_softmaxRefused : exec (.softmax 0 0) softmaxReady = .next ((softmaxReady.elapse 0).finish 0 9 stDescRange) := by
  obtain ⟨-, hserved⟩ := vectorOperationsWriteEachRow softmaxReady _ 0 9 0 (rowsOp 0x21001000402000043F80000000000000 (storeBase 0)) rfl
    (by decide) (by decide) (.softmax 0 0, 0x10, fun s o r a _ _ imm => softmaxRow (s.softmaxLimit o r a.length) a imm) (by simp)
  exact (hserved (by decide) (softmaxReady.elapse 0) (softmaxReady.elapse 0) stDescRange _ ([], {}) (by rfl) rfl (by rfl)).1 (by decide)

end Sys2Proof.Machine
end

section
/-! The tensor unit and SAMPLE (R126, R205, R208, R474), and the statement O25. -/

namespace Sys2Proof.Machine

-- the tensor unit

/-- The operands that a TENS reads: A, B and with ACC C, for each index of its batch (R205). -/
def Op.tensReads (o : Op) : List (Desc × List Nat) :=
  (List.range (tBatch o.word)).flatMap (fun i =>
    [((o.desc (tA o.word)).instance_ i, List.range (o.desc (tA o.word)).rows),
      ((o.desc (tB o.word)).instance_ i, List.range (o.desc (tB o.word)).rows)] ++
    (if tAcc o.word then [((o.desc (tC o.word)).instance_ i, List.range (o.desc (tC o.word)).rows)] else []))

/-- The writes of a TENS, a list for each index of its batch (R205). -/
def State.tensWrites (s : State) (o : Op) : Calc (List (List (Nat × List Byte))) :=
  (List.range (tBatch o.word)).mapM (fun i => do
    let rows ← s.tensInstance o.word ((o.desc (tA o.word)).instance_ i) ((o.desc (tB o.word)).instance_ i)
      ((o.desc (tC o.word)).instance_ i)
    rowsWrites ((o.desc (tC o.word)).instance_ i) rows)

section
variable {s m : State} {c n st : Nat} {o : Op}

theorem exec_tens (dt : Nat) (core : Fin 16) (s : State) : exec (.tens dt core) s = .next ((s.elapse dt).tensHead core) := rfl

/-- A TENS that no pass on a stand-in slot holds up ends with the status of its operands if they may not be read, and else writes
what each index of its batch gives (R205, R474). -/
theorem State.tensHead_served (hhead : s.head c qTensor opTens = some (n, o)) (hserved : s.queueFault c qTensor = stOk)
    (hfirst : (s.core c).standWaits n = false) (hread : s.allReadable c o.tensReads = (st, m)) : s.tensHead c =
      if st = stOk then
        m.writeBack c n 0x34 0x35 ((m.tensWrites o { free := m.free }).1.flatten, (m.tensWrites o { free := m.free }).2)
      else m.finish c n st := by
  unfold Op.tensReads at hread
  unfold State.tensHead
  simp only [hhead, hserved, hfirst, hread, bne_iff_ne, ne_eq, not_true_eq_false, if_false, ite_not, Bool.false_eq_true]
  rfl

/-- While a pass on a stand-in slot stands before it, a TENS waits (R474). -/
theorem State.tensHead_waits (hhead : s.head c qTensor opTens = some (n, o)) (hserved : s.queueFault c qTensor = stOk)
    (hbehind : (s.core c).standWaits n = true) : s.tensHead c = s := by
  unfold State.tensHead
  simp only [hhead, hserved, hbehind, bne_self_eq_false, Bool.false_eq_true, if_true, if_false]

-- SAMPLE

/-- The bytes of the lists that a SAMPLE reads (R208). -/
def Op.sampleReads (o : Op) : List (Nat × Nat) :=
  (o.desc (vA o.word)).rowList.map (fun r =>
    ((o.desc (vA o.word)).base + r * (o.desc (vA o.word)).rowStride, 8 * (o.desc (vA o.word)).cols))

/-- The writes of a SAMPLE on core `c`: the position drawn from each list, its pad entries left out (R208). -/
def State.sampleWrites (s : State) (c : Nat) (o : Op) : Calc (List (Nat × List Byte)) :=
  (o.desc (vA o.word)).rowList.mapM (fun r => do
    let p ← samplePick (ofF32 (vImm o.word)) (srBits (s.seedOf c ^^^ ((0x2000 + c) <<< 32)) (((s.core c).vecCtr + r) % 2 ^ 64) 0)
      ((s.listAt ((o.desc (vA o.word)).base + r * (o.desc (vA o.word)).rowStride) (o.desc (vA o.word)).cols).filter (fun e => !isPad e))
    pure ((o.desc (vDst o.word)).base + r * (o.desc (vDst o.word)).rowStride, leBytes 4 p.toNat))

/-- `lists` values of a core's vector-unit counter are used up (R208). -/
def State.useVecCtr (s : State) (c lists : Nat) : State := s.modCore c (fun k => { k with vecCtr := (k.vecCtr + lists) % 2 ^ 64 })

theorem State.useVecCtr_coreJob (s : State) (c lists : Nat) : (s.useVecCtr c lists).coreJob c = s.coreJob c := by
  unfold State.coreJob
  rw [State.useVecCtr, State.modCore_core, if_pos rfl]

theorem exec_sample (dt : Nat) (core : Fin 16) (s : State) : exec (.sample dt core) s = .next ((s.elapse dt).sampleHead core) := rfl

/-- A SAMPLE ends with the status of its lists if they may not be read, and else uses one value of its counter for each list and
writes the positions (R208). -/
theorem State.sampleHead_served (hhead : s.head c qVector opVec = some (n, o)) (hvop : vOp o.word = 0x18)
    (hserved : s.queueFault c qVector = stOk) (hread : s.accessAll (s.coreJob c) rightR o.sampleReads = (st, m)) : s.sampleHead c =
      if st = stOk then
        (m.useVecCtr c (o.desc (vA o.word)).rows).writeBack c n 0x32 0x33 (m.sampleWrites c o { free := m.free })
      else m.finish c n st := by
  unfold Op.sampleReads at hread
  unfold State.sampleHead
  simp only [hhead, hvop, hserved, hread, bne_iff_ne, ne_eq, not_true_eq_false, if_false, ite_not]
  rfl

end

/-- An empty list has no position (R208). -/
theorem samplePick_nil (imm : Fp) (bits : Nat) (t : Tally) : (samplePick imm bits [] t).1 = 0xFFFFFFFF := rfl

/-- With IMM 0 the first entry's position is drawn (R208). -/
theorem samplePick_zero {imm : Fp} (hzero : imm.isZero = true) (bits : Nat) (first : Candidate) (rest : List Candidate) (t : Tally) :
    (samplePick imm bits (first :: rest) t).1 = first.2 := by
  unfold samplePick
  simp only [hzero, if_true]
  rfl

-- the statement

/-- Settles O25, one clause for each branch of TENS, one for SAMPLE and one for the position it draws. -/
theorem tensorAndSampleWriteTheirResults : Obligations.TensorAndSampleWriteTheirResults := by
  refine ⟨?tens, ?waits, ?sample, ?position⟩
  case tens =>
    rintro s _ m dt n st core o _ _ _ r rfl hhead hserved hfirst rfl rfl rfl hread
    rw [exec_tens, State.tensHead_served hhead hserved hfirst hread]
    refine ⟨fun hst => ?refused, fun hst hr => ?writes⟩
    case refused => rw [if_neg hst]
    case writes =>
      rw [if_pos hst, hr]
      rfl
  case waits =>
    rintro s _ dt n core o rfl hhead hserved hbehind
    rw [exec_tens, State.tensHead_waits hhead hserved hbehind]
  case sample =>
    rintro s _ m dt n st core o _ _ r rfl hhead hvop hserved rfl rfl hread
    rw [exec_sample, State.sampleHead_served hhead hvop hserved hread]
    refine ⟨fun hst => ?refused, fun hst hr => ?writes⟩
    case refused => rw [if_neg hst]
    case writes =>
      rw [if_pos hst, State.writeBack, State.useVecCtr_coreJob, hr]
      exact ⟨_, _, rfl, rfl, rfl⟩
  case position =>
    rintro imm bits l t
    refine ⟨fun hempty => ?empty, fun first rest hlist hzero => ?zero⟩
    case empty =>
      rw [hempty]
      exact samplePick_nil imm bits t
    case zero =>
      rw [hlist]
      exact samplePick_zero hzero bits first rest t

-- states that meet the hypotheses of its clauses

/-- A TENS with ALPHA 1.0 of A, at `a`, and B transposed. -/
def tensOp (a : Nat) : Op := rowsOp 0x2000008030060013F800000000000000 a

/-- 1.0 * 3.0 + 2.0 * 4.0. -/
theorem witness_tensWrites : ∃ t, exec (.tens 0 0) (digitalReady qTensor [(9, tensOp (storeBase 0))]) = .next t ∧
    t.mem.num (storeBase 0 + 64) 4 = 0x41300000 := by
  obtain ⟨hserved, -⟩ := tensorAndSampleWriteTheirResults
  obtain ⟨-, hwrites⟩ := hserved (digitalReady qTensor [(9, tensOp (storeBase 0))]) _ _ 0 9 stOk 0 (tensOp (storeBase 0)) _ _ _ _ rfl
    (by decide) (by decide) (by decide) rfl rfl rfl (by rfl)
  exact ⟨_, hwrites rfl rfl, by decide +kernel⟩

/-- The last byte of A lies beyond the store. -/
theorem witness_tensRefused : exec (.tens 0 0) (digitalReady qTensor [(9, tensOp (storeBase 0 + storeSize - 7))]) = .next
    (((digitalReady qTensor [(9, tensOp (storeBase 0 + storeSize - 7))]).elapse 0).finish 0 9 stDescRange) := by
  obtain ⟨hserved, -⟩ := tensorAndSampleWriteTheirResults
  exact (hserved (digitalReady qTensor [(9, tensOp (storeBase 0 + storeSize - 7))]) _ _ 0 9 stDescRange 0
    (tensOp (storeBase 0 + storeSize - 7)) _ _ _ ([], {}) rfl (by decide) (by decide) (by decide) rfl rfl rfl (by rfl)).1 (by decide)

/-- Operation 9 stands behind `passOp` on the first stand-in slot. -/
def tensBehind : State := digitalReady qTensor [(5, { passOp with left := [34] }), (9, tensOp (storeBase 0))]

theorem witness_tensWaits : exec (.tens 0 0) tensBehind = .next (tensBehind.elapse 0) := by
  obtain ⟨-, hwaits, -⟩ := tensorAndSampleWriteTheirResults
  exact hwaits tensBehind _ 0 9 0 (tensOp (storeBase 0)) rfl (by decide) (by decide) (by decide)

/-- A SAMPLE with IMM 0 of the list of two entries at `a`. -/
def sampleOp (a : Nat) : Op := rowsOp 0x21001800402000000000000000000000 a

/-- The first entry's position is drawn, and one value of the counter used. -/
theorem witness_sampleWrites : ∃ t, exec (.sample 0 0) (digitalReady qVector [(9, sampleOp (storeBase 0))]) = .next t ∧
    t.mem.num (storeBase 0 + 64) 4 = 0x40000000 ∧ (t.core 0).vecCtr = 1 := by
  obtain ⟨-, -, hserved, -⟩ := tensorAndSampleWriteTheirResults
  obtain ⟨-, hwrites⟩ := hserved (digitalReady qVector [(9, sampleOp (storeBase 0))]) _ _ 0 9 stOk 0 (sampleOp (storeBase 0)) _ _ _ rfl
    (by decide) (by decide) (by decide) rfl rfl (by rfl)
  obtain ⟨t, k, ht, rfl, rfl⟩ := hwrites rfl rfl
  exact ⟨_, ht, by decide +kernel, by decide +kernel⟩

theorem witness_sampleRefused : exec (.sample 0 0) (digitalReady qVector [(9, sampleOp (storeBase 0 + storeSize - 15))]) = .next
    (((digitalReady qVector [(9, sampleOp (storeBase 0 + storeSize - 15))]).elapse 0).finish 0 9 stDescRange) := by
  obtain ⟨-, -, hserved, -⟩ := tensorAndSampleWriteTheirResults
  exact (hserved (digitalReady qVector [(9, sampleOp (storeBase 0 + storeSize - 15))]) _ _ 0 9 stDescRange 0
    (sampleOp (storeBase 0 + storeSize - 15)) _ _ ([], {}) rfl (by decide) (by decide) (by decide) rfl rfl (by rfl)).1 (by decide)

theorem witness_samplePosition : (samplePick (ofF32 0) 0 [(0x3F800000, 7), (0x40000000, 3)] {}).1 = 7 := by
  obtain ⟨-, -, -, hposition⟩ := tensorAndSampleWriteTheirResults
  obtain ⟨-, hzero⟩ := hposition (ofF32 0) 0 [(0x3F800000, 7), (0x40000000, 3)] {}
  exact hzero (0x3F800000, 7) [(0x40000000, 3)] rfl (by decide)

end Sys2Proof.Machine
end

section
/-! PROOFS. The job slots (R233, R235, R341): what an UNLOAD_COMPLETE does to the jobs through the mirrors that it discards. -/

namespace Sys2Proof.Machine

-- the page tree of a context (R244) and the frames that come free with it (R245)

/-- The layer directory is one of the nodes of its context. -/
theorem State.root_mem_framesOf {s : State} {n : Nat} (h : (s.stream n).root ≠ 0) : (s.stream n).root ∈ (s.framesOf n).1 := by
  unfold State.framesOf
  simp only [if_neg h]
  exact List.foldlRecOn _ _ (motive := fun acc : List Nat × List Nat => (s.stream n).root ∈ acc.1) (List.mem_singleton_self _)
    (fun _ hmem _ _ => List.mem_append_left _ hmem)

/-- The frames of a context go back to the job that the context names, and to no other. -/
theorem State.freePages_job (s : State) (n j : Nat) :
    (s.freePages n).job j =
      if j = (s.stream n).job then { s.job j with
        pages := (s.job j).pages.filter (fun x => x ∉ (s.framesOf n).2)
        nodes := (s.job j).nodes.filter (fun x => x ∉ (s.framesOf n).1) }
      else s.job j := by
  simp only [State.freePages, State.modStream_job, State.modJob_job]
  split
  · subst j; rfl
  · rfl

theorem State.dropMirror_job (s : State) (n j : Nat) : (s.dropMirror n).job j = (s.freePages (mirrorKey n)).job j := rfl

/-- Discarding a mirror frees its layer directory in the job that the mirror's context names. -/
theorem State.root_not_mem_dropMirror_nodes {s : State} {n : Nat} (h : (s.stream (mirrorKey n)).root ≠ 0) :
    (s.stream (mirrorKey n)).root ∉ ((s.dropMirror n).job (s.stream (mirrorKey n)).job).nodes := by
  rw [State.dropMirror_job, State.freePages_job, if_pos rfl]
  exact fun hmem => of_decide_eq_true (List.mem_filter.1 hmem).2 (State.root_mem_framesOf h)

-- UNLOAD_COMPLETE (R235)

/-- The mirrors that hold frames of a job. -/
def State.mirrorsOf (s : State) (j : Nat) : List Mirror := s.twin.mirrors.filter (fun m => m.have_ && m.job = j)

/-- The other slots of an emptied job stand as the discarded mirrors leave them. -/
theorem State.unloadDone_job_other {s : State} {slot j : Nat} (hst : (s.job slot).st = .unloading) (hstreams : s.streamsOf slot = [])
    (hbanks : s.banksEmpty slot = true) (hj : j ≠ slot) :
    (s.unloadDone slot).job j = ((s.mirrorsOf slot).foldl (fun s m => s.dropMirror m.ckpt.stream) s).job j := by
  unfold State.unloadDone
  simp only [hst, hstreams, hbanks, bne_self_eq_false, List.isEmpty_nil, Bool.not_true, Bool.or_self, Bool.false_eq_true, if_false]
  show tget (tset _ slot ({} : Job)) j = _
  rw [tget_tset, if_neg hj]
  rfl

-- the statement

/-- Slot 0 is UNLOADING, without streams and banks, and a mirror names it. The mirror's context names slot 1, whose node at 4096 is
the mirror's layer directory. -/
def mirrorOfAnotherSlot : State :=
  { State.reset with
    jobs := [(0, { st := .unloading }), (1, { st := .ready, nodes := [4096] })]
    streams := [(mirrorKey 0, { job := 1, root := 4096 })]
    twin := { mirrors := [{ have_ := true, job := 0 }] } }

/-- The mirror is discarded with slot 0, and slot 1 loses its node. -/
theorem mirrorOfAnotherSlot_loses_node :
    4096 ∈ (mirrorOfAnotherSlot.job 1).nodes ∧ 4096 ∉ ((mirrorOfAnotherSlot.unloadDone 0).job 1).nodes := by
  refine ⟨by decide, ?_⟩
  rw [State.unloadDone_job_other (by decide) (by decide) (by decide) (by decide)]
  exact State.root_not_mem_dropMirror_nodes (s := mirrorOfAnotherSlot) (n := 0) (by decide)

/-- Refutes O34 at its clause on UNLOAD_COMPLETE, which has every other slot unchanged. The model discards a
slot's mirrors with it (`State.unloadDone`), and their frames go back to the slots that the mirrors' contexts name. A checkpoint makes
these the same slot (`State.storeCheckpoint`, R341), but the clause speaks of every state and does not ask for it. -/
theorem not_jobSlotsLoadRunAndFree : ¬ Obligations.JobSlotsLoadRunAndFree := by
  rintro ⟨-, hunload, -⟩
  obtain ⟨-, hfree⟩ := hunload mirrorOfAnotherSlot _ 0 0 rfl
  obtain ⟨t, ht, -, hothers, -⟩ := hfree (by decide) (by decide) (by decide)
  have hfinal : mirrorOfAnotherSlot.unloadDone 0 = t := Host.Outcome.next.inj ht
  obtain ⟨hbefore, hafter⟩ := mirrorOfAnotherSlot_loses_node
  rw [hfinal, hothers 1 (by decide)] at hafter
  exact hafter hbefore

end Sys2Proof.Machine
end

section
/-! Pace monitors and the voltage controller (R180, R181), and the statement O29. -/

namespace Sys2Proof.Machine

-- the pace

/-- Once a monitor has been read, the pace is the lowest reading (R180). -/
theorem Core.min?_monitors {k : Core} (hread : k.monitors ≠ []) : k.monitors.min? = some k.pace := by
  unfold Core.pace
  split
  case h_1 hnone => exact absurd hnone hread
  case h_2 hsome => rw [hsome, List.min?_cons']

theorem Core.pace_mem {k : Core} (hread : k.monitors ≠ []) : k.pace ∈ k.monitors :=
  List.min?_mem (Core.min?_monitors hread)

theorem Core.pace_le {k : Core} {reading : Nat} (hmem : reading ∈ k.monitors) : k.pace ≤ reading :=
  (List.min?_eq_some_iff.1 (Core.min?_monitors (List.ne_nil_of_mem hmem))).2 reading hmem

-- PACE_MEASURE

/-- The 16 monitors of a core are read (R180). -/
def State.readMonitors (s : State) (c : Nat) (monitors : List Nat) : State :=
  s.modCore c (fun k => { k with monitors := monitors.take 16 })

theorem exec_paceMeasure (dt : Nat) (core : Fin 16) (monitors : List Nat) (s : State) :
    exec (.paceMeasure dt core monitors) s = .next (
      if ((s.elapse dt).core core).supply = 0 then s.elapse dt else (s.elapse dt).readMonitors core monitors) := rfl

theorem State.readMonitors_monitors (s : State) (c : Nat) (monitors : List Nat) :
    ((s.readMonitors c monitors).core c).monitors = monitors.take 16 := by
  rw [State.readMonitors, State.modCore_core, if_pos rfl]

theorem State.readMonitors_core_other (s : State) {c x : Nat} (monitors : List Nat) (hx : x ≠ c) :
    (s.readMonitors c monitors).core x = s.core x := by
  rw [State.readMonitors, State.modCore_core, if_neg hx]

theorem State.readMonitors_keeps (s : State) (c : Nat) (monitors : List Nat) : s.Keeps [.cores] (s.readMonitors c monitors) :=
  State.modCore_keeps (Within.refl _) c _ (.refl _ s)

-- VOLTAGE_STEP

section
variable {supply pace below target : Nat}

theorem nextSupply_up (hslow : pace < target + 20) : nextSupply supply pace below target = min 750 (supply + 5) := if_pos hslow

theorem nextSupply_down (hfast : target + 20 ≤ pace) (hspare : target + 20 ≤ below) :
    nextSupply supply pace below target = max 550 (supply - 5) := by
  rw [nextSupply, if_neg (Nat.not_lt.2 hfast), if_pos hspare]

theorem nextSupply_holds (hfast : target + 20 ≤ pace) (hneeded : below < target + 20) :
    nextSupply supply pace below target = supply := by
  rw [nextSupply, if_neg (Nat.not_lt.2 hfast), if_neg (Nat.not_le.2 hneeded)]

/-- The controller keeps a supply within 0.55 V to 0.75 V there (R181). -/
theorem nextSupply_range (hlow : 550 ≤ supply) (hhigh : supply ≤ 750) :
    550 ≤ nextSupply supply pace below target ∧ nextSupply supply pace below target ≤ 750 := by
  unfold nextSupply
  split
  case isTrue => omega
  case isFalse => split <;> omega

end

section
variable {s : State} {c : Nat} (next : List Nat)

theorem State.restretch_target (s : State) (c : Nat) : ((s.restretch c).core c).target = (s.core c).target := by
  simp only [State.restretch, State.modCore_core, if_true]

theorem State.restretch_supply (s : State) (c : Nat) : ((s.restretch c).core c).supply = (s.core c).supply := by
  simp only [State.restretch, State.modCore_core, if_true]

/-- The controller of a powered core takes the effective target and steps the supply; whether a shortfall is counted on the way does
not show in the core (R181). -/
theorem State.voltageStep_core (hpowered : (s.core c).supply ≠ 0) :
    ((s.voltageStep c next).core c).target = s.paceTarget c ∧
      ((s.voltageStep c next).core c).supply =
        nextSupply (s.core c).supply (s.core c).pace ({ monitors := next.take 16 } : Core).pace (s.paceTarget c) := by
  unfold State.voltageStep
  simp only [if_neg hpowered, State.restretch_target, State.restretch_supply, State.modCore_core, if_true, true_and]
  split
  · rw [State.bump_core]
  · rfl

theorem State.voltageStep_unpowered (hoff : (s.core c).supply = 0) : s.voltageStep c next = s := if_pos hoff

theorem exec_voltageStep (dt : Nat) (core : Fin 16) (s : State) :
    exec (.voltageStep dt core next) s = .next ((s.elapse dt).voltageStep core next) := rfl

end

-- the statement

/-- Settles O29, one clause for a powered and one for an unpowered core of each command. That a command for an unpowered core changes
nothing is log entry 2, and that the readings at the lower voltage are an operand is log entry 18. -/
theorem paceAndSupplyStayInTheirRange : Obligations.PaceAndSupplyStayInTheirRange := by
  refine ⟨?measured, ?unmeasured, ?stepped, ?unstepped⟩
  case measured =>
    rintro s _ dt core monitors rfl hpowered
    have hmonitors := (s.elapse dt).readMonitors_monitors core monitors
    refine ⟨(s.elapse dt).readMonitors core monitors, ?_, hmonitors, fun p hp => ?lowest, fun hread => ?read,
      fun c hc => State.readMonitors_core_other _ _ hc, State.readMonitors_keeps _ _ _⟩
    · rw [exec_paceMeasure, if_neg hpowered]
    case lowest => exact Core.pace_le (hmonitors ▸ hp)
    case read =>
      have hsome : monitors.take 16 ≠ [] := by simpa using hread
      rw [← hmonitors] at hsome ⊢
      exact Core.pace_mem hsome
  case unmeasured =>
    rintro s _ dt core monitors rfl hoff
    rw [exec_paceMeasure, if_pos hoff]
  case stepped =>
    rintro s _ dt _ _ core next rfl hpowered rfl rfl
    obtain ⟨htarget, hsupply⟩ := State.voltageStep_core next hpowered
    refine ⟨_, exec_voltageStep next dt core s, htarget, ?_⟩
    rw [hsupply]
    exact ⟨nextSupply_up, nextSupply_down, nextSupply_holds, nextSupply_range⟩
  case unstepped =>
    rintro s _ dt core next rfl hoff
    rw [exec_voltageStep, State.voltageStep_unpowered next hoff]

-- states that meet the hypotheses of its clauses

/-- Core 0 at a supply of `supply` mV, its 16 monitors reading `pace`. -/
def supplied (supply pace : Nat) : State := { State.reset with cores := [(0, { supply := supply, monitors := List.replicate 16 pace })] }

/-- The last monitor is the slowest. -/
theorem witness_paceMeasured : ∃ t, exec (.paceMeasure 0 0 (List.replicate 15 1000 ++ [990])) (supplied 650 0) = .next t ∧
    (t.core 0).pace = 990 := by
  obtain ⟨hmeasured, -⟩ := paceAndSupplyStayInTheirRange
  obtain ⟨t, ht, hmonitors, -⟩ := hmeasured (supplied 650 0) _ 0 0 (List.replicate 15 1000 ++ [990]) rfl (by decide)
  refine ⟨t, ht, ?_⟩
  rw [Core.pace, show (t.core 0).monitors = _ from hmonitors]
  rfl

theorem witness_paceUnmeasured : exec (.paceMeasure 0 0 (List.replicate 16 990)) (supplied 0 0) = .next ((supplied 0 0).elapse 0) := by
  obtain ⟨-, hunmeasured, -⟩ := paceAndSupplyStayInTheirRange
  exact hunmeasured (supplied 0 0) _ 0 0 (List.replicate 16 990) rfl (by decide)

/-- A pace of 1019 misses the target of 1000 by its margin, and the supply stops at 0.75 V. -/
theorem witness_supplyUp : ∃ t, exec (.voltageStep 0 0 (List.replicate 16 1000)) (supplied 748 1019) = .next t ∧
    (t.core 0).supply = 750 := by
  obtain ⟨-, -, hstepped, -⟩ := paceAndSupplyStayInTheirRange
  obtain ⟨t, ht, -, hup, -⟩ := hstepped (supplied 748 1019) _ 0 _ _ 0 (List.replicate 16 1000) rfl (by decide) rfl rfl
  exact ⟨t, ht, hup (by decide)⟩

theorem witness_supplyDown : ∃ t, exec (.voltageStep 0 0 (List.replicate 16 1020)) (supplied 552 1025) = .next t ∧
    (t.core 0).supply = 550 := by
  obtain ⟨-, -, hstepped, -⟩ := paceAndSupplyStayInTheirRange
  obtain ⟨t, ht, -, -, hdown, -⟩ := hstepped (supplied 552 1025) _ 0 _ _ 0 (List.replicate 16 1020) rfl (by decide) rfl rfl
  exact ⟨t, ht, hdown (by decide) (by decide)⟩

theorem witness_supplyHolds : ∃ t, exec (.voltageStep 0 0 (List.replicate 16 1019)) (supplied 650 1020) = .next t ∧
    (t.core 0).supply = 650 := by
  obtain ⟨-, -, hstepped, -⟩ := paceAndSupplyStayInTheirRange
  obtain ⟨t, ht, -, -, -, hholds, -⟩ := hstepped (supplied 650 1020) _ 0 _ _ 0 (List.replicate 16 1019) rfl (by decide) rfl rfl
  exact ⟨t, ht, hholds (by decide) (by decide)⟩

theorem witness_supplyOff : exec (.voltageStep 0 0 (List.replicate 16 1019)) (supplied 0 0) = .next ((supplied 0 0).elapse 0) := by
  obtain ⟨-, -, -, hunstepped⟩ := paceAndSupplyStayInTheirRange
  exact hunstepped (supplied 0 0) _ 0 0 (List.replicate 16 1019) rfl (by decide)

end Sys2Proof.Machine
end

section
/-! Decoding and PATH.SEL (R170, R190, R191, R217), and the statement O17. -/

namespace Sys2Proof.Machine

section
variable {s : State} {c : Nat} {x y : CoreStep} {w : TvWord}

-- a word enters the table

/-- The word `w`, which the sequencer has read at `x`, enters the table of core `c` under the core's next number, and the counter moves
on behind it (R170, R190). -/
def State.enterWord (s : State) (c : Nat) (x : CoreStep) (w : TvWord) (ends : Bool) : State :=
  s.modCore c (fun k => { k with
    nextOp := (s.core c).nextOp + 1
    ops := k.ops ++ [((s.core c).nextOp, { word := w, addr := x.pc, prev := x.prev })]
    step := some { x with pc := x.pc + 16, prev := w, decodeDone := ends } })

theorem State.enterWord_core (s : State) (c : Nat) (x : CoreStep) (w : TvWord) (ends : Bool) :
    (s.enterWord c x w ends).core c = { s.core c with
      nextOp := (s.core c).nextOp + 1
      ops := (s.core c).ops ++ [((s.core c).nextOp, { word := w, addr := x.pc, prev := x.prev })]
      step := some { x with pc := x.pc + 16, prev := w, decodeDone := ends } } := by
  rw [State.enterWord, State.modCore_core, if_pos rfl]

theorem State.enterWord_core_other (s : State) {c i : Nat} (x : CoreStep) (w : TvWord) (ends : Bool) (hi : i ≠ c) :
    (s.enterWord c x w ends).core i = s.core i := by
  rw [State.enterWord, State.modCore_core, if_neg hi]

/-- A decoded word and the peak of the table are counted (R170). -/
def State.countWord (s : State) (c : Nat) : State :=
  (s.bump (coreIdx c) 8 1).raiseTo (coreIdx c) 7 (s.core c).ops.length

theorem State.countWord_keeps (s : State) (c : Nat) : s.Keeps [.od] (s.countWord c) :=
  State.raiseTo_keeps (Within.refl _) _ _ _ (State.bump_keeps (Within.refl _) _ _ _ (.refl _ s))

theorem State.decodeWord_sound (hx : x = y.leaveSpan) (hw : w = BitVec.ofNat 128 (s.mem.num x.pc 16))
    (hst : decodeStatus w x.span.isSome = stOk) :
    s.decodeWord c y = (s.enterWord c x w (opcodeOf w = opEnd)).countWord c := by
  subst hx hw
  unfold State.decodeWord
  simp only [hst, if_true, decide_true, Bool.true_and]
  rfl

/-- A word that fails its checks completes where it enters (R170, R191). -/
theorem State.decodeWord_failing (hx : x = y.leaveSpan) (hw : w = BitVec.ofNat 128 (s.mem.num x.pc 16))
    (hst : decodeStatus w x.span.isSome ≠ stOk) :
    s.decodeWord c y = ((s.enterWord c x w false).countWord c).retire c (s.core c).nextOp (decodeStatus w x.span.isSome) := by
  subst hx hw
  unfold State.decodeWord
  simp only [if_neg hst, decide_eq_false hst, Bool.false_and]
  rfl

-- which branch the sequencer takes

/-- Core `c` works on a step at `y`, of which it has words to decode and no PATH.SEL to execute first (R170, R217). -/
structure State.Decodes (s : State) (c : Nat) (y : CoreStep) : Prop where
  step : (s.core c).step = some y
  works : s.unitWorks (coreRef c) = true
  more : y.decodeDone = false
  goesOn : s.quiescing c = false
  selected : (s.core c).pathSel = none

theorem State.decodeNext_room (dt : Nat) (h : s.Decodes c y) (hroom : (s.core c).ops.length < 4096) :
    s.decodeNext c dt = s.decodeWord c y := by
  obtain ⟨hstep, hworks, hmore, hgoes, hselected⟩ := h
  unfold State.decodeNext
  simp only [hstep, hworks, hmore, hgoes, hselected, if_neg (Nat.not_le.2 hroom), Bool.not_true, Option.isSome_none, Bool.or_self,
    Bool.false_eq_true, if_false]

/-- A full table is waited for (R170). -/
theorem State.decodeNext_waits (dt : Nat) (h : s.Decodes c y) (hfull : 4096 ≤ (s.core c).ops.length) :
    s.decodeNext c dt = s.bump (coreIdx c) 9 (dt / 1000) := by
  obtain ⟨hstep, hworks, hmore, hgoes, hselected⟩ := h
  unfold State.decodeNext
  simp only [hstep, hworks, hmore, hgoes, hselected, if_pos hfull, Bool.not_true, Option.isSome_none, Bool.or_self,
    Bool.false_eq_true, if_false]

theorem exec_instructionDecode (dt : Nat) (core : Fin 16) (s : State) :
    exec (.instructionDecode dt core) s = .next ((s.elapse dt).decodeNext core dt) := rfl

-- PATH.SEL

/-- Where the sequencer goes on after a PATH.SEL whose layer has the place `p`: with a digital layer it
skips the ENGINE_LEN words, with any other it executes them and skips the DIGITAL_LEN words behind them (R217). -/
def CoreStep.select (x : CoreStep) (w : TvWord) (p : Place) : CoreStep :=
  if p = .digital then
    { x with
      pc := x.pc + 16 * fld w 97 82
      span := some (x.pc + 16 * fld w 97 82 + 16 * fld w 81 66, x.pc + 16 * fld w 97 82 + 16 * fld w 81 66) }
  else { x with span := some (x.pc + 16 * fld w 97 82, x.pc + 16 * fld w 97 82 + 16 * fld w 81 66) }

theorem State.pathSelect_places {n : Nat} {o : Op} {p : Place} (hsel : (s.core c).pathSel = some (n, o))
    (hstep : (s.core c).step = some x) (hspan : x.span = none) (hplace : s.placement c (fld o.word 111 98) = some p) :
    s.pathSelect c = (s.modCore c (fun k => { k with step := some (x.select o.word p) })).retire c n stOk := by
  unfold State.pathSelect
  simp only [hsel, hstep, hspan, hplace, Option.isSome_none, Bool.false_eq_true, if_false]
  rfl

theorem exec_pathSel {dt : Nat} {core : Fin 16} (hworks : (s.elapse dt).unitWorks (coreRef core) = true) :
    exec (.pathSel dt core) s = .next ((s.elapse dt).pathSelect core) :=
  congrArg Host.Outcome.next (if_pos hworks)

end

-- the statement

/-- Settles O17: a sound word, a failing word, a full table, and a PATH.SEL whose layer is placed. -/
theorem sequencerDecodesTheNextWord : Obligations.SequencerDecodesTheNextWord := by
  refine ⟨?sound, ?failing, ?full, ?selects⟩
  case sound =>
    rintro s _ dt _ core x y w rfl hstep hworks hmore hgoes hselected hroom hx hw rfl hst
    have hcounted := ((s.elapse dt).enterWord core x w (opcodeOf w = opEnd)).countWord_keeps core
    refine ⟨((s.elapse dt).enterWord core x w (opcodeOf w = opEnd)).countWord core, ?_, ?_⟩
    · rw [exec_instructionDecode, State.decodeNext_room dt ⟨hstep, hworks, hmore, hgoes, hselected⟩ hroom,
        State.decodeWord_sound hx hw hst]
    · rw [hcounted.core_eq core (by decide), State.enterWord_core]
      exact ⟨rfl, rfl, rfl, rfl,
        fun i hi => (hcounted.core_eq i (by decide)).trans (State.enterWord_core_other _ x w _ hi),
        hcounted.jobs_eq (by decide), hcounted.mem_eq (by decide)⟩
  case failing =>
    rintro s _ _ dt _ _ core x y w rfl hstep hworks hmore hgoes hselected hroom hx hw rfl rfl hst rfl
    rw [exec_instructionDecode, State.decodeNext_room dt ⟨hstep, hworks, hmore, hgoes, hselected⟩ hroom,
      State.decodeWord_failing hx hw hst]
    rfl
  case full =>
    rintro s _ dt core y rfl hstep hworks hmore hgoes hselected hfull
    rw [exec_instructionDecode, State.decodeNext_waits dt ⟨hstep, hworks, hmore, hgoes, hselected⟩ hfull]
  case selects =>
    rintro s _ dt n core o x _ p rfl hworks hsel hstep hspan hplace rfl
    rw [exec_pathSel hworks, State.pathSelect_places hsel hstep hspan hplace]
    rfl

-- states that meet the hypotheses of its clauses

/-- Core 0 in service with a step at the start of its store, where the word's byte of the opcode is `code`, the operations `ops` in its
table, and a layer of tag 0 of job 0 on the digital units. -/
def decodeReady (code : Byte) (ops : List (Nat × Op)) : State :=
  { State.reset with
    units := [(coreRef 0, { st := .ready })]
    cores := [(0, { step := some { pc := storeBase 0 }, ops := ops })]
    jobs := [(0, { layers := [{ tag := 0, place := .digital }] })]
    mem := Mem.put [] (storeBase 0 + 15) code }

/-- A NOP. -/
theorem witness_decodes : ∃ t, exec (.instructionDecode 0 0) (decodeReady 0x01 []) = .next t ∧ (t.core 0).nextOp = 2 := by
  obtain ⟨hsound, -⟩ := sequencerDecodesTheNextWord
  obtain ⟨t, ht, -, hnext, -⟩ := hsound (decodeReady 0x01 []) _ 0 1 0 { pc := storeBase 0 } { pc := storeBase 0 } _ rfl rfl (by decide)
    rfl (by decide) rfl (by decide) rfl rfl rfl (by decide)
  exact ⟨t, ht, hnext⟩

/-- No instruction has the opcode 0. -/
theorem witness_decodeFails : ∃ t, exec (.instructionDecode 0 0) (decodeReady 0 []) = .next t ∧ (t.core 0).ops = [] ∧
    t.val (coreIdx 0) 0x0E = stIllegalOpcode := by
  obtain ⟨-, hfailing, -⟩ := sequencerDecodesTheNextWord
  exact ⟨_, hfailing (decodeReady 0 []) _ _ 0 1 stIllegalOpcode 0 { pc := storeBase 0 } { pc := storeBase 0 } _ rfl rfl (by decide)
    rfl (by decide) rfl (by decide) rfl rfl rfl (by decide) (by decide) rfl, by decide, by decide⟩

/-- 4,096 entries for the word 0. -/
def fullTable : List (Nat × Op) := List.replicate 4096 (1, {})

theorem Core.pathSel_fullTable {k : Core} (hops : k.ops = fullTable) : k.pathSel = none := by
  rw [Core.pathSel, hops]
  refine List.find?_eq_none.2 fun _ hmem => ?_
  rw [List.eq_of_mem_replicate hmem]
  decide

theorem witness_decodeWaits : exec (.instructionDecode 5000 0) (decodeReady 0 fullTable) =
    .next (((decodeReady 0 fullTable).elapse 5000).bump (coreIdx 0) 9 5) := by
  obtain ⟨-, -, hfull, -⟩ := sequencerDecodesTheNextWord
  have hlength : 4096 ≤ fullTable.length := by simp only [fullTable, List.length_replicate, Nat.le_refl]
  exact hfull (decodeReady 0 fullTable) _ 5000 0 { pc := storeBase 0 } rfl rfl rfl rfl rfl (Core.pathSel_fullTable rfl) hlength

/-- A PATH.SEL on tag 0 with an ENGINE_LEN of 2 and a DIGITAL_LEN of 3. -/
def pathSelOp : Op := { word := 0x040000000008000C0000000000000000 }

/-- The two words are skipped, and the next three are the span. -/
theorem witness_pathSel : ∃ t, exec (.pathSel 0 0) (decodeReady 0 [(1, pathSelOp)]) = .next t ∧
    (t.core 0).step = some { pc := storeBase 0 + 32, span := some (storeBase 0 + 80, storeBase 0 + 80) } := by
  obtain ⟨-, -, -, hselects⟩ := sequencerDecodesTheNextWord
  exact ⟨_, hselects (decodeReady 0 [(1, pathSelOp)]) _ 0 1 0 pathSelOp { pc := storeBase 0 } _ .digital rfl (by decide) (by decide)
    rfl rfl (by decide) rfl, by decide⟩

end Sys2Proof.Machine
end

section
/-! Transactions of a MOVE (R173, R177, R223, R249, R259), and the statement O27. -/

namespace Sys2Proof.Machine

-- a transaction that is issued

/-- Transaction `t` of operation `n` on core `c` is the next to be issued, and neither launch staggering nor a stack that shuts down
holds it (R249, R460, R504). -/
structure State.NextTxn (s : State) (c n : Nat) (o : Op) (t : Txn) : Prop where
  found : (s.core c).op n = some o
  first : o.txns.find? (fun t => !t.issued) = some t
  running : o.stage = .running
  released : o.staggered = false
  free : s.txnHeld o t = false

section
variable {s : State} {c n : Nat} {o : Op} {t : Txn}

/-- Without an entry in its pool the transaction waits, and the wait is counted (R173). -/
theorem State.dmaIssue_waits (dt : Nat) (h : s.NextTxn c n o t) (hpool : t.pool < 3) (hfull : s.poolRoom t.pool c = false) :
    s.dmaIssue c n dt = s.bump 0x4013 7 (dt / 1000) := by
  obtain ⟨hop, hfirst, hrunning, hreleased, hfree⟩ := h
  unfold State.dmaIssue
  simp only [hop, hfirst, hrunning, hreleased, hfree, hpool, hfull, bne_self_eq_false, decide_true, Bool.not_false, Bool.or_self,
    Bool.and_self, Bool.false_eq_true, if_true, if_false]

/-- With an entry, or in need of none, a transaction other than a fabric READ goes to its target, which takes it or ends the MOVE
(R173, R223). -/
theorem State.dmaIssue_goes (dt : Nat) (h : s.NextTxn c n o t) (hkind : mKind o.word ≠ 2)
    (hroom : 3 ≤ t.pool ∨ s.poolRoom t.pool c = true) : s.dmaIssue c n dt =
      if (s.issueTxn c n o t).1 = stOk then (s.issueTxn c n o t).2
      else (s.issueTxn c n o t).2.moveFails c n (s.issueTxn c n o t).1 := by
  obtain ⟨hop, hfirst, hrunning, hreleased, hfree⟩ := h
  have hentry : (decide (t.pool < 3) && !s.poolRoom t.pool c) = false := by
    rcases hroom with hnone | hroom
    · rw [decide_eq_false (Nat.not_lt.2 hnone), Bool.false_and]
    · rw [hroom, Bool.not_true, Bool.and_false]
  unfold State.dmaIssue
  simp only [hop, hfirst, hrunning, hreleased, hfree, hentry, hkind, bne_self_eq_false, decide_false, Bool.or_self, Bool.false_and,
    Bool.false_eq_true, if_false]

theorem exec_dmaTransactionIssue (dt : Nat) (core : Fin 16) (n : Nat) (s : State) :
    exec (.dmaTransactionIssue dt core n) s = .next ((s.elapse dt).dmaIssue core n dt) := rfl

-- a transaction that completes

/-- An uncorrectable error in what a MOVE from the device reads ends it with MEMORY (R177). -/
theorem State.dmaComplete_uncorrectable (hop : (s.core c).op n = some o)
    (holdest : o.txns.find? (fun t => t.issued && t.pool != 1) = some t)
    (hreads : mKind o.word = 0 ∨ mKind o.word = 3 ∨ mKind o.word = 5) (a : Nat) :
    s.dmaComplete c n (some a) = ((s.dropTxn c n t).uncorrectable a false).moveFails c n stMemory := by
  have hreads' : (decide (mKind o.word = 0) || decide (mKind o.word = 3) || decide (mKind o.word = 5)) = true := by
    simpa [or_assoc] using hreads
  unfold State.dmaComplete
  simp only [hop, holdest, hreads', if_true]

/-- Without an error the transaction gives its entry back and lands, and the MOVE ends if it was the last (R173). -/
theorem State.dmaComplete_lands {st : Nat} {m : State} (hop : (s.core c).op n = some o)
    (holdest : o.txns.find? (fun t => t.issued && t.pool != 1) = some t) (hland : (s.dropTxn c n t).landTxn c o t = (st, m)) :
    s.dmaComplete c n none = if st = stOk then m.moveEnds c n else m.moveFails c n st := by
  unfold State.dmaComplete
  simp only [hop, holdest, ite_self, hland]

theorem State.landTxn_local (hkind : mKind o.word = 0) (c : Nat) (t : Txn) :
    s.landTxn c o t = (stOk, s.storeBytes t.dst (s.readAt t.src t.len)) := by
  rw [State.landTxn, if_pos hkind]

theorem State.landTxn_toHost (hkind : mKind o.word = 3 ∨ mKind o.word = 5) (c : Nat) (t : Txn) :
    s.landTxn c o t = (stOk, s.emit (.hostWrite (hostOfKind (mKind o.word)) t.dst (s.readAt t.src t.len))) := by
  have hdevice : mKind o.word ≠ 0 := by omega
  have hhost : (decide (mKind o.word = 3) || decide (mKind o.word = 5)) = true := by simpa using hkind
  unfold State.landTxn
  simp only [if_neg hdevice, hhost, if_true]

theorem exec_dmaTransactionComplete (dt : Nat) (core : Fin 16) (n : Nat) (doubleBit : Option Nat) (s : State) :
    exec (.dmaTransactionComplete dt core n doubleBit) s = .next ((s.elapse dt).dmaComplete core n doubleBit) := rfl

end

theorem State.dropTxn_only (s : State) (c n : Nat) (t : Txn) : s.Keeps [.cores, .sched] (s.dropTxn c n t) :=
  State.dropTxn_keeps (Within.refl _) c n t (.refl _ s)

theorem State.moveEnds_only (s : State) (c n : Nat) : s.Keeps [.cores] (s.moveEnds c n) :=
  State.moveEnds_keeps (Within.refl _) c n (.refl _ s)

-- the statement

/-- Settles O27: one clause on transactions that are issued, one on those within the device and one on those that write to a host. -/
theorem transactionsIssueAndComplete : Obligations.TransactionsIssueAndComplete := by
  refine ⟨?issue, ?within, ?toHost⟩
  case issue =>
    rintro s _ dt n core o t rfl hop hfirst hrunning hreleased hfree hkind
    have hnext : (s.elapse dt).NextTxn core n o t := ⟨hop, hfirst, hrunning, hreleased, hfree⟩
    rw [exec_dmaTransactionIssue]
    exact ⟨fun hpool hfull => by rw [State.dmaIssue_waits dt hnext hpool hfull],
      fun hroom => by rw [State.dmaIssue_goes dt hnext hkind hroom]⟩
  case within =>
    rintro s _ dt n core o t rfl hop holdest hkind
    refine ⟨fun a => ?error, _, exec_dmaTransactionComplete dt core n none s, ?stores⟩
    case error => rw [exec_dmaTransactionComplete, State.dmaComplete_uncorrectable hop holdest (.inl hkind) a]
    case stores =>
      rw [State.dmaComplete_lands hop holdest (State.landTxn_local hkind core t), if_pos rfl]
      refine ⟨rfl, ?_⟩
      rw [(State.moveEnds_only _ _ _).mem_eq (by decide), State.storeBytes_mem, (State.dropTxn_only _ _ _ _).mem_eq (by decide)]
  case toHost =>
    rintro s _ dt n core o t rfl hop holdest hkind
    refine ⟨_, exec_dmaTransactionComplete dt core n none s, ?_⟩
    rw [State.dmaComplete_lands hop holdest (State.landTxn_toHost hkind core t), if_pos rfl]
    have hdropped := (s.elapse dt).dropTxn_only core n t
    rw [(State.moveEnds_only _ _ _).out_eq (by decide), (State.moveEnds_only _ _ _).mem_eq (by decide), State.emit_out, State.emit_mem,
      hdropped.out_eq (by decide), hdropped.mem_eq (by decide)]
    exact ⟨rfl, rfl⟩

-- states that meet the hypotheses of its clauses

/-- A MOVE of kind `kind` under way, whose one transaction is `t`. -/
def moveOp (kind : Nat) (t : Txn) : Op :=
  { word := 0x28000000000000000000000000000000 ||| (BitVec.ofNat 128 kind <<< 88), stage := .running, txns := [t] }

/-- Operation 9 of core 0 is `o`, core 0 holds `held` entries of the HBM pool, and 1 stands at address 0. -/
def moveReady (o : Op) (held : Nat) : State :=
  { State.reset with
    cores := [(0, { ops := [(9, o)] })]
    sched := { State.reset.sched with pools := tput [] 0 held }
    mem := Mem.put [] 0 1 }

/-- A transaction of 4 bytes from address 0 of HBM to `dst`. -/
def hbmTxn (dst : Nat) (issued : Bool) : Txn := { pool := 0, src := 0, dst := dst, len := 4, issued := issued }

/-- The core has used up its own share and what is shared. -/
theorem witness_txnWaits : exec (.dmaTransactionIssue 5000 0 9) (moveReady (moveOp 0 (hbmTxn 64 false)) 8704) =
    .next (((moveReady (moveOp 0 (hbmTxn 64 false)) 8704).elapse 5000).bump 0x4013 7 5) := by
  obtain ⟨hissue, -⟩ := transactionsIssueAndComplete
  obtain ⟨hwaits, -⟩ := hissue (moveReady (moveOp 0 (hbmTxn 64 false)) 8704) _ 5000 9 0 _ _ rfl rfl rfl rfl rfl (by decide) (by decide)
  exact hwaits (by decide) (by decide)

/-- One entry of the shared part is left. -/
theorem witness_txnIssued : ∃ t, exec (.dmaTransactionIssue 0 0 9) (moveReady (moveOp 0 (hbmTxn 64 false)) 8703) = .next t ∧
    ((t.core 0).op 9).map Op.txns = some [hbmTxn 64 true] ∧ t.poolUsed 0 0 = 8704 := by
  obtain ⟨hissue, -⟩ := transactionsIssueAndComplete
  obtain ⟨-, hgoes⟩ := hissue (moveReady (moveOp 0 (hbmTxn 64 false)) 8703) _ 0 9 0 _ _ rfl rfl rfl rfl rfl (by decide) (by decide)
  exact ⟨_, hgoes (.inr (by decide)), by decide, by decide⟩

/-- The last byte of the destination lies beyond the store, and nothing is on its way. -/
theorem witness_txnRefused : ∃ t,
    exec (.dmaTransactionIssue 0 0 9) (moveReady (moveOp 0 (hbmTxn (storeBase 0 + storeSize - 3) false)) 0) = .next t ∧
    ((t.core 0).op 9).map Op.stage = some (.complete stDescRange) := by
  obtain ⟨hissue, -⟩ := transactionsIssueAndComplete
  obtain ⟨-, hgoes⟩ := hissue (moveReady (moveOp 0 (hbmTxn (storeBase 0 + storeSize - 3) false)) 0) _ 0 9 0 _ _ rfl rfl rfl rfl rfl
    (by decide) (by decide)
  exact ⟨_, hgoes (.inr (by decide)), by decide⟩

theorem witness_txnUncorrectable : ∃ t,
    exec (.dmaTransactionComplete 0 0 9 (some 0)) (moveReady (moveOp 0 (hbmTxn 64 true)) 1) = .next t ∧
    ((t.core 0).op 9).map Op.stage = some (.complete stMemory) := by
  obtain ⟨-, hwithin, -⟩ := transactionsIssueAndComplete
  obtain ⟨herror, -⟩ := hwithin (moveReady (moveOp 0 (hbmTxn 64 true)) 1) _ 0 9 0 _ _ rfl rfl rfl (by decide)
  exact ⟨_, herror 0, by decide⟩

theorem witness_txnStores : ∃ t, exec (.dmaTransactionComplete 0 0 9 none) (moveReady (moveOp 0 (hbmTxn 64 true)) 1) = .next t ∧
    t.mem.num 64 4 = 1 := by
  obtain ⟨-, hwithin, -⟩ := transactionsIssueAndComplete
  obtain ⟨-, t, ht, -, hmem⟩ := hwithin (moveReady (moveOp 0 (hbmTxn 64 true)) 1) _ 0 9 0 _ _ rfl rfl rfl (by decide)
  exact ⟨t, ht, by rw [hmem]; decide⟩

/-- A transaction of 4 bytes from address 0 of HBM to address 16 of host 1. -/
def hostTxn : Txn := { pool := 2, src := 0, dst := 16, len := 4, issued := true }

theorem witness_txnToHost : ∃ t, exec (.dmaTransactionComplete 0 0 9 none) (moveReady (moveOp 5 hostTxn) 0) = .next t ∧
    t.out = [.hostWrite 1 16 [1, 0, 0, 0]] := by
  obtain ⟨-, -, htoHost⟩ := transactionsIssueAndComplete
  obtain ⟨t, ht, hout, -⟩ := htoHost (moveReady (moveOp 5 hostTxn) 0) _ 0 9 0 _ _ rfl rfl rfl (.inr (by decide))
  exact ⟨t, ht, by rw [hout]; decide⟩

end Sys2Proof.Machine
end

section
/-! What stands completed and what a completion leaves (R171, R190, R218, R222), and the statement O20. -/

namespace Sys2Proof.Machine

-- operations and queues

/-- Only the value of the key that was changed reads differently. -/
theorem tfind_mapAt {α : Type} (t : Tbl α) (i j : Nat) (f : α → α) :
    tfind (t.map (fun x => if x.1 = i then (x.1, f x.2) else x)) j = if j = i then (tfind t i).map f else tfind t j := by
  induction t with
  | nil => simp [tfind]
  | cons x t ih =>
    obtain ⟨k, a⟩ := x
    by_cases hk : k = i
    · subst hk
      by_cases hj : j = k
      · simp [tfind, hj]
      · simp [tfind, hj, Ne.symm hj, ih]
    · by_cases hj : j = i
      · subst hj
        simp [tfind, hk, ih]
      · simp [tfind, hk, hj, ih]

theorem Core.modOp_op (k : Core) (n i : Nat) (f : Op → Op) :
    (k.modOp n f).op i = if i = n then (k.op n).map f else k.op i := tfind_mapAt _ _ _ _

theorem Core.unqueue_op (k : Core) (n i : Nat) : (k.unqueue n).op i = k.op i := rfl

theorem Core.unqueue_leaves_queues (k : Core) (n : Nat) : ∀ q ∈ (k.unqueue n).queues, n ∉ q.2 := by
  intro q hq hn
  obtain ⟨p, -, rfl⟩ := List.mem_map.1 (List.mem_filter.1 hq).1
  simp at hn

-- an instruction that finishes

/-- What `Core.finish` leaves of an operation: it stands completed with the status (R171, R222). -/
def Op.finished (o : Op) (st : Nat) : Op := { o with stage := .complete st, left := [], readDone := true }

theorem Core.finish_op (k : Core) (n st i : Nat) :
    (k.finish n st).op i = if i = n then (k.op n).map (fun o => o.finished st) else k.op i := Core.modOp_op _ _ _ _

theorem Core.finish_leaves_queues (k : Core) (n st : Nat) : ∀ q ∈ (k.finish n st).queues, n ∉ q.2 :=
  k.unqueue_leaves_queues n

theorem State.finish_core (s : State) (c n st : Nat) : (s.finish c n st).core c = (s.core c).finish n st := by
  rw [State.finish, State.modCore_core, if_pos rfl]

theorem State.finish_core_other (s : State) {c i : Nat} (n st : Nat) (hi : i ≠ c) : (s.finish c n st).core i = s.core i := by
  rw [State.finish, State.modCore_core, if_neg hi]

theorem State.finish_only (s : State) (c n st : Nat) : s.Keeps [.cores] (s.finish c n st) :=
  State.finish_keeps (Within.refl _) c n st (.refl _ s)

-- a completion with status OK

/-- The entry of operation `n`, whose word is `w`, is freed after its completion with status OK: its signal counter takes one more,
and END ends the core's part of the step (R190, R218, R222). `State.retire_ok` ties this to the completion. -/
def Core.retireOk (k : Core) (n : Nat) (w : TvWord) : Core :=
  { k.unqueue n with
    ops := tdel k.ops n
    signals := if sigOf w = 0 then k.signals else tmod k.signals (sigOf w) (fun v => (v + 1) % 2 ^ 32)
    step := if opcodeOf w = opEnd then k.step.map (fun x => { x with ended := true }) else k.step }

theorem State.retire_ok {s : State} {c n : Nat} {o : Op} (hop : (s.core c).op n = some o) :
    s.retire c n stOk = s.modCore c (fun k => k.retireOk n o.word) := by
  have hnone : decide (stOk = stCancelled) = false := by decide
  unfold State.retire
  simp only [hop, hnone, decide_true, Bool.or_false, Bool.and_true, if_true, decide_eq_true_eq]
  rfl

theorem Core.retireOk_signals (k : Core) (n : Nat) (w : TvWord) (i : Nat) : tget (k.retireOk n w).signals i =
    if i = sigOf w ∧ sigOf w ≠ 0 then (tget k.signals i + 1) % 2 ^ 32 else tget k.signals i := by
  show tget (if sigOf w = 0 then k.signals else _) i = _
  by_cases hsig : sigOf w = 0
  · rw [if_pos hsig, if_neg (fun h => h.2 hsig)]
  · rw [if_neg hsig, tget_tmod]
    by_cases hi : i = sigOf w
    · rw [if_pos hi, if_pos ⟨hi, hsig⟩, hi]
    · rw [if_neg hi, if_neg (fun h => hi h.1)]

theorem Core.retireOk_leaves_queues (k : Core) (n : Nat) (w : TvWord) : ∀ q ∈ (k.retireOk n w).queues, n ∉ q.2 :=
  k.unqueue_leaves_queues n

-- the statement

/-- Settles O20: what `State.finish` leaves, and what `State.retire` leaves with status OK. -/
theorem completionFreesTheEntryAndSignals : Obligations.CompletionFreesTheEntryAndSignals := by
  refine ⟨?finish, ?retire⟩
  case finish =>
    intro s c n st o hop
    rw [State.finish_core]
    refine ⟨⟨o.finished st, ?_, rfl, rfl⟩, Core.finish_leaves_queues _ _ _, fun i hi => ?_,
      fun i hi => State.finish_core_other s n st hi, State.finish_only s c n st⟩
    · rw [Core.finish_op, if_pos rfl, hop, Option.map_some]
    · rw [Core.finish_op, if_neg hi]
  case retire =>
    intro s c n o hop
    rw [State.retire_ok hop, State.modCore_core, if_pos rfl]
    exact ⟨rfl, Core.retireOk_leaves_queues _ _ _, Core.retireOk_signals _ _ _,
      fun i hi => by rw [State.modCore_core, if_neg hi], State.modCore_keeps (Within.refl _) c _ (.refl _ s)⟩

-- states that meet the hypotheses of its clauses

/-- A NOP with SIG 2. -/
def nopOp : Op := { word := 0x01200000000000000000000000000000, stage := .queued, left := [71] }

/-- Core 0 in service with operation 9, `o`, at the head of queue `q` and the operations `ops` before it in its table; its signal
counters 2 and 3 hold 2^32 - 1 and 5. -/
def opAtHead (q : Nat) (ops : List (Nat × Op)) (o : Op) : State :=
  { State.reset with
    units := [(coreRef 0, { st := .ready })]
    cores := [(0, { ops := ops ++ [(9, o)], queues := [(q, [9])], step := some {}, signals := [(2, 0xFFFFFFFF), (3, 5)] })] }

theorem witness_finishes : ∃ p, (((opAtHead qControl [] nopOp).finish 0 9 stLate).core 0).op 9 = some p ∧
    p.stage = .complete stLate := by
  obtain ⟨hfinish, -⟩ := completionFreesTheEntryAndSignals
  obtain ⟨⟨p, hp, hstage, -⟩, -⟩ := hfinish (opAtHead qControl [] nopOp) 0 9 stLate nopOp (by decide)
  exact ⟨p, hp, hstage⟩

/-- The counter wraps. -/
theorem witness_retires : (((opAtHead qControl [] nopOp).retire 0 9 stOk).core 0).ops = [] ∧
    tget (((opAtHead qControl [] nopOp).retire 0 9 stOk).core 0).signals 2 = 0 := by
  obtain ⟨-, hretire⟩ := completionFreesTheEntryAndSignals
  obtain ⟨hops, -, hsignals, -⟩ := hretire (opAtHead qControl [] nopOp) 0 9 nopOp (by decide)
  exact ⟨hops.trans (by decide), (hsignals 2).trans (by decide)⟩

end Sys2Proof.Machine
end

section
/-! The control queue and INSTRUCTION_COMPLETE (R190, R191, R212 to R216, R218, R222), and the statement O19. -/

namespace Sys2Proof.Machine

-- SIGNAL

/-- A core whose signal counter takes what the SIGNAL `w` adds (R212, R213). -/
def Core.addSignal (k : Core) (w : TvWord) : Core :=
  { k with signals := tmod k.signals (fld w 106 103) (fun v => (v + fld w 102 71) % 2 ^ 32) }

/-- The SIGNAL `w` names the core `k`: alone, or with all 16 (R213). -/
def signalNames (w : TvWord) (k : Nat) : Prop := if fld w 107 107 = 1 then k < 16 else k = fld w 111 108

/-- The SIGNAL `w` adds to the counters it names. -/
def State.addSignals (s : State) (w : TvWord) : State :=
  if fld w 107 107 = 1 then forRange 16 s (fun s k => s.modCore k (fun x => x.addSignal w))
  else s.modCore (fld w 111 108) (fun x => x.addSignal w)

/-- A change of each core below `n` in turn reaches those, and no other. -/
theorem State.forRange_modCore_core (s : State) (n k : Nat) (f : Core → Core) :
    (forRange n s (fun s i => s.modCore i f)).core k = if k < n then f (s.core k) else s.core k := by
  induction n with
  | zero => rfl
  | succ n ih =>
    have hlast : forRange (n + 1) s (fun s i => s.modCore i f) = (forRange n s (fun s i => s.modCore i f)).modCore n f := by
      simp only [forRange, List.range_succ, List.foldl_append, List.foldl_cons, List.foldl_nil]
    rw [hlast, State.modCore_core]
    by_cases hk : k = n
    · subst hk
      rw [if_pos rfl, ih, if_neg (Nat.lt_irrefl k), if_pos (Nat.lt_succ_self k)]
    · rw [if_neg hk, ih]
      exact if_congr (by omega) rfl rfl

theorem State.addSignals_core_named {w : TvWord} {k : Nat} (s : State) (hk : signalNames w k) :
    (s.addSignals w).core k = (s.core k).addSignal w := by
  unfold State.addSignals
  unfold signalNames at hk
  split at hk
  · rw [if_pos ‹_›, State.forRange_modCore_core, if_pos hk]
  · rw [if_neg ‹_›, State.modCore_core, if_pos hk, hk]

theorem State.addSignals_core_other {w : TvWord} {k : Nat} (s : State) (hk : ¬ signalNames w k) :
    (s.addSignals w).core k = s.core k := by
  unfold State.addSignals
  unfold signalNames at hk
  split at hk
  · rw [if_pos ‹_›, State.forRange_modCore_core, if_neg hk]
  · rw [if_neg ‹_›, State.modCore_core, if_neg hk]

theorem Core.addSignal_signals (x : Core) (w : TvWord) (i : Nat) : tget (x.addSignal w).signals i =
    if i = fld w 106 103 then (tget x.signals i + fld w 102 71) % 2 ^ 32 else tget x.signals i := by
  rw [Core.addSignal, tget_tmod]
  split
  · rename_i hi
    rw [hi]
  · rfl

theorem signalNames_iff {w : TvWord} {k : Nat} (hk : k < 16) : signalNames w k ↔ fld w 107 107 = 1 ∨ fld w 111 108 = k := by
  unfold signalNames
  split
  · exact ⟨fun _ => .inl ‹_›, fun _ => hk⟩
  · exact ⟨fun h => .inr h.symm, fun h => (h.resolve_left ‹_›).symm⟩

/-- What the SIGNAL adds up to in each counter of a core (R213). -/
theorem State.addSignals_signals (s : State) (w : TvWord) {k : Nat} (hk : k < 16) (i : Nat) :
    tget ((s.addSignals w).core k).signals i =
      if (fld w 107 107 = 1 ∨ fld w 111 108 = k) ∧ i = fld w 106 103 then (tget (s.core k).signals i + fld w 102 71) % 2 ^ 32
      else tget (s.core k).signals i := by
  by_cases hnamed : signalNames w k
  · rw [State.addSignals_core_named s hnamed, Core.addSignal_signals]
    simp only [(signalNames_iff hk).1 hnamed, true_and]
  · rw [State.addSignals_core_other s hnamed, if_neg (fun h => hnamed ((signalNames_iff hk).2 h.1))]

theorem State.addSignals_ops (s : State) (w : TvWord) (k : Nat) :
    ((s.addSignals w).core k).ops = (s.core k).ops ∧ ((s.addSignals w).core k).queues = (s.core k).queues := by
  by_cases hnamed : signalNames w k
  · rw [State.addSignals_core_named s hnamed]
    exact ⟨rfl, rfl⟩
  · rw [State.addSignals_core_other s hnamed]
    exact ⟨rfl, rfl⟩

-- what each command of the control queue does

theorem Core.allBefore_eq (k : Core) (n : Nat) (f : Nat → Bool) :
    k.allBefore n f = !k.ops.any (fun x => x.1 < n && f (opcodeOf x.2.word)) := rfl

section
variable {s : State} {dt n : Nat} {core : Fin 16} {o : Op}

theorem exec_nop (hhead : (s.elapse dt).head core qControl opNop = some (n, o)) :
    exec (.nop dt core) s = .next ((s.elapse dt).finish core n stOk) := by
  show execNop dt core s = _
  unfold execNop
  simp only [hhead]

/-- END waits for every earlier instruction of its core (R218). -/
theorem exec_endStep (hhead : (s.elapse dt).head core qControl opEnd = some (n, o)) :
    exec (.endStep dt core) s = .next (if ((s.elapse dt).core core).ops.any (fun x => x.1 < n) then s.elapse dt
      else (s.elapse dt).finish core n stOk) := by
  show execEndStep dt core s = _
  unfold execEndStep
  simp only [hhead, Core.allBefore_eq, Bool.and_true, Bool.not_eq_true', ← Bool.not_eq_true, ite_not]

/-- FENCE waits for every earlier instruction in its scope (R215). -/
theorem exec_fence (hhead : (s.elapse dt).head core qControl opFence = some (n, o)) :
    exec (.fence dt core) s = .next (if ((s.elapse dt).core core).ops.any
        (fun x => x.1 < n && inScope (fld o.word 111 104) (opcodeOf x.2.word)) then s.elapse dt
      else (s.elapse dt).finish core n stOk) := by
  show execFence dt core s = _
  unfold execFence
  simp only [hhead, Core.allBefore_eq, Bool.not_eq_true', ← Bool.not_eq_true, ite_not]

/-- Once every earlier instruction of its core has completed, SIGNAL adds and completes (R213). -/
theorem exec_signal (hhead : (s.elapse dt).head core qControl opSignal = some (n, o))
    (hfirst : ((s.elapse dt).core core).ops.any (fun x => x.1 < n) = false) :
    exec (.signal dt core) s = .next (((s.elapse dt).addSignals o.word).finish core n stOk) := by
  show Host.Outcome.next ((s.elapse dt).signalHead core) = _
  unfold State.signalHead
  simp only [hhead, Core.allBefore_eq, Bool.and_true, hfirst, Bool.not_false, Bool.not_true, Bool.false_eq_true, if_false]
  rfl

/-- WAIT completes with its counter there; the first time that it finds it short, its timeout starts (R214). -/
theorem exec_wait (hhead : (s.elapse dt).head core qControl opWait = some (n, o)) : exec (.wait dt core) s = .next (
    if reached (tget ((s.elapse dt).core core).signals (fld o.word 106 103)) (fld o.word 102 71) then (s.elapse dt).finish core n stOk
    else if o.holding then s.elapse dt
    else (s.elapse dt).modCore core (fun k => k.modOp n (fun x =>
      { x with holding := true, until_ := (s.elapse dt).ns + 1000 * fld o.word 69 54 }))) := by
  show Host.Outcome.next ((s.elapse dt).waitHead core) = _
  unfold State.waitHead
  simp only [hhead, Bool.not_eq_true', ← Bool.not_eq_true, ite_not]

/-- The timeout of a WAIT whose counter is still short ends it (R214). -/
theorem exec_waitTimeout (hhead : (s.elapse dt).head core qControl opWait = some (n, o)) (hholds : o.holding = true)
    (hlimited : fld o.word 69 54 ≠ 0) (hover : o.until_ < (s.elapse dt).ns)
    (hshort : reached (tget ((s.elapse dt).core core).signals (fld o.word 106 103)) (fld o.word 102 71) = false) :
    exec (.waitTimeout dt core) s = .next ((s.elapse dt).finish core n stWaitTimeout) := by
  show execWaitTimeout dt core s = _
  unfold execWaitTimeout
  simp only [hhead, hholds, bne_iff_ne.2 hlimited, hover, hshort, decide_true, Bool.not_false, Bool.and_self, if_true]

/-- LAUNCH.AT holds until its time; with the time past it is counted and completes, LATE beyond its limit (R216). -/
theorem exec_launchAt (hhead : (s.elapse dt).head core qControl opLaunchAt = some (n, o)) (hfresh : o.holding = false) :
    exec (.launchAt dt core) s = .next (
      if (s.elapse dt).ns ≤ (s.elapse dt).launchTime core o.word then
        (s.elapse dt).modCore core (fun k => k.modOp n (fun x =>
          { x with holding := true, until_ := (s.elapse dt).launchTime core o.word }))
      else ((s.elapse dt).bump 0x2107 4 1).launchDone core n
        (if fld o.word 63 48 ≠ 0 ∧ 1000 * fld o.word 63 48 < (s.elapse dt).ns - (s.elapse dt).launchTime core o.word
         then stLate else stOk)) := by
  show Host.Outcome.next ((s.elapse dt).launchAtHead core) = _
  unfold State.launchAtHead
  have hlimit : 1000 * fld o.word 63 48 ≠ 0 ↔ fld o.word 63 48 ≠ 0 := by omega
  simp only [hhead, hfresh, Bool.false_eq_true, if_false, Bool.and_eq_true, bne_iff_ne, hlimit, decide_eq_true_eq]

/-- A LAUNCH.AT that holds completes at its time (R216). -/
theorem exec_launchAtTime (hhead : (s.elapse dt).head core qControl opLaunchAt = some (n, o)) (hholds : o.holding = true) :
    exec (.launchAtTime dt core) s = .next (if o.until_ ≤ (s.elapse dt).ns then (s.elapse dt).launchDone core n stOk
      else s.elapse dt) := by
  show execLaunchAtTime dt core s = _
  unfold execLaunchAtTime
  simp only [hhead, hholds, Bool.true_and, decide_eq_true_eq]

/-- An instruction that stands completed gives its status (R222). -/
theorem exec_instructionComplete {st : Nat} (hop : ((s.elapse dt).core core).op n = some o) (hdone : o.stage = .complete st) :
    exec (.instructionComplete dt core n) s = .next (((s.elapse dt).retire core n st).nextLogical core) := by
  show execInstructionComplete dt core n s = _
  unfold execInstructionComplete
  simp only [hop, hdone]

end

-- the statement

/-- Settles O19, one clause for each command. -/
theorem controlQueueInstructionsComplete : Obligations.ControlQueueInstructionsComplete := by
  refine ⟨?nop, ?endStep, ?fence, ?signal, ?wait, ?waitTimeout, ?launchAt, ?launchAtTime, ?complete⟩
  case nop =>
    rintro s _ dt n core o rfl hhead
    exact exec_nop hhead
  case endStep =>
    rintro s _ dt n core o rfl hhead
    exact exec_endStep hhead
  case fence =>
    rintro s _ dt n core o rfl hhead
    exact exec_fence hhead
  case signal =>
    rintro s _ dt n core o rfl hhead hfirst
    exact ⟨(s.elapse dt).addSignals o.word, exec_signal hhead hfirst, fun k i hk => State.addSignals_signals _ _ hk i,
      State.addSignals_ops _ _⟩
  case wait =>
    rintro s _ dt n core o rfl hhead
    exact exec_wait hhead
  case waitTimeout =>
    rintro s _ dt n core o rfl hhead hholds hlimited hover hshort
    exact exec_waitTimeout hhead hholds hlimited hover hshort
  case launchAt =>
    rintro s _ dt n core o rfl hhead hfresh
    exact exec_launchAt hhead hfresh
  case launchAtTime =>
    rintro s _ dt n core o rfl hhead hholds
    exact exec_launchAtTime hhead hholds
  case complete =>
    rintro s _ dt n st core o rfl hop hdone
    exact exec_instructionComplete hop hdone

-- states that meet the hypotheses of its clauses

/-- The operation of the word `w`, in the control queue. -/
def controlOp (w : TvWord) : Op := { word := w, stage := .queued, left := [71] }

/-- Operation 9 of core 0 is that of the word `w`, at the head of the control queue with none before it. -/
def controlHead (w : TvWord) : State := opAtHead qControl [] (controlOp w)

/-- The same with `nopOp` before it. -/
def controlBehind (w : TvWord) : State := opAtHead qControl [(8, nopOp)] (controlOp w)

theorem witness_nop : exec (.nop 0 0) (opAtHead qControl [] nopOp) = .next (((opAtHead qControl [] nopOp).elapse 0).finish 0 9 stOk) := by
  obtain ⟨hnop, -⟩ := controlQueueInstructionsComplete
  exact hnop (opAtHead qControl [] nopOp) _ 0 9 0 nopOp rfl (by decide)

/-- An END. -/
def endWord : TvWord := 0x05000000000000000000000000000000

theorem witness_endWaits : exec (.endStep 0 0) (controlBehind endWord) = .next ((controlBehind endWord).elapse 0) := by
  obtain ⟨-, hend, -⟩ := controlQueueInstructionsComplete
  exact (hend (controlBehind endWord) _ 0 9 0 (controlOp endWord) rfl (by decide)).trans (congrArg _ (if_pos (by decide)))

theorem witness_endCompletes : exec (.endStep 0 0) (controlHead endWord) =
    .next (((controlHead endWord).elapse 0).finish 0 9 stOk) := by
  obtain ⟨-, hend, -⟩ := controlQueueInstructionsComplete
  exact (hend (controlHead endWord) _ 0 9 0 (controlOp endWord) rfl (by decide)).trans (congrArg _ (if_neg (by decide)))

/-- A FENCE whose scope is VEC alone. -/
def fenceWord : TvWord := 0x0B001000000000000000000000000000

/-- The NOP before the FENCE is not in its scope. -/
theorem witness_fence : exec (.fence 0 0) (controlBehind fenceWord) =
    .next (((controlBehind fenceWord).elapse 0).finish 0 9 stOk) := by
  obtain ⟨-, -, hfence, -⟩ := controlQueueInstructionsComplete
  exact (hfence (controlBehind fenceWord) _ 0 9 0 (controlOp fenceWord) rfl (by decide)).trans (congrArg _ (if_neg (by decide)))

/-- A SIGNAL of 3 to counter 2 of every core. -/
def signalWord : TvWord := 0x09000900000001800000000000000000

/-- The counter of core 0 wraps from 2^32 - 1 to 2, and that of core 15 takes 3. -/
theorem witness_signal : ∃ m : State, exec (.signal 0 0) (controlHead signalWord) = .next (m.finish 0 9 stOk) ∧
    tget (m.core 0).signals 2 = 2 ∧ tget (m.core 15).signals 2 = 3 := by
  obtain ⟨-, -, -, hsignal, -⟩ := controlQueueInstructionsComplete
  obtain ⟨m, hm, hadds, -⟩ := hsignal (controlHead signalWord) _ 0 9 0 (controlOp signalWord) rfl (by decide) (by decide)
  exact ⟨m, hm, (hadds 0 2 (by decide)).trans (by decide), (hadds 15 2 (by decide)).trans (by decide)⟩

/-- WAITs for 5 and for 6 in counter 3, each with a timeout of 2 us. -/
def waitWord5 : TvWord := 0x0A000180000002800080000000000000
def waitWord6 : TvWord := 0x0A000180000003000080000000000000

theorem witness_waitCompletes : exec (.wait 0 0) (controlHead waitWord5) =
    .next (((controlHead waitWord5).elapse 0).finish 0 9 stOk) := by
  obtain ⟨-, -, -, -, hwait, -⟩ := controlQueueInstructionsComplete
  exact (hwait (controlHead waitWord5) _ 0 9 0 (controlOp waitWord5) rfl (by decide)).trans (congrArg _ (if_pos (by decide)))

theorem witness_waitHolds : ∃ t, exec (.wait 0 0) (controlHead waitWord6) = .next t ∧
    ((t.core 0).op 9).map (fun o => (o.holding, o.until_)) = some (true, 2000) := by
  obtain ⟨-, -, -, -, hwait, -⟩ := controlQueueInstructionsComplete
  exact ⟨_, hwait (controlHead waitWord6) _ 0 9 0 (controlOp waitWord6) rfl (by decide), by decide⟩

/-- The WAIT for 6, which holds until 2000 ns. -/
def waitHolds : Op := { controlOp waitWord6 with holding := true, until_ := 2000 }

theorem witness_waitTimeout : exec (.waitTimeout 2001000 0) (opAtHead qControl [] waitHolds) =
    .next (((opAtHead qControl [] waitHolds).elapse 2001000).finish 0 9 stWaitTimeout) := by
  obtain ⟨-, -, -, -, -, htimeout, -⟩ := controlQueueInstructionsComplete
  exact htimeout (opAtHead qControl [] waitHolds) _ 2001000 9 0 waitHolds rfl (by decide) rfl (by decide) (by decide) (by decide)

/-- A LAUNCH.AT 2 us behind the launch, with a limit of 1 us. -/
def launchWord : TvWord := 0x08000000000007D00001000000000000

/-- At its time, it holds. -/
theorem witness_launchHolds : ∃ t, exec (.launchAt 2000000 0) (controlHead launchWord) = .next t ∧
    ((t.core 0).op 9).map (fun o => (o.holding, o.until_)) = some (true, 2000) := by
  obtain ⟨-, -, -, -, -, -, hlaunch, -⟩ := controlQueueInstructionsComplete
  exact ⟨_, hlaunch (controlHead launchWord) _ 2000000 9 0 (controlOp launchWord) rfl (by decide) rfl, by decide⟩

/-- It has come within its limit, or 1 ns beyond it. -/
theorem witness_launchLate : ∀ x ∈ [(3000000, stOk), (3001000, stLate)], ∃ t,
    exec (.launchAt x.1 0) (controlHead launchWord) = .next t ∧ ((t.core 0).op 9).map Op.stage = some (.complete x.2) := by
  obtain ⟨-, -, -, -, -, -, hlaunch, -⟩ := controlQueueInstructionsComplete
  simp only [List.forall_mem_cons, List.not_mem_nil, false_imp_iff, implies_true, and_true]
  exact ⟨⟨_, hlaunch (controlHead launchWord) _ 3000000 9 0 (controlOp launchWord) rfl (by decide) rfl, by decide⟩,
    _, hlaunch (controlHead launchWord) _ 3001000 9 0 (controlOp launchWord) rfl (by decide) rfl, by decide⟩

/-- The LAUNCH.AT that holds until 2000 ns. -/
def launchHolds : Op := { controlOp launchWord with holding := true, until_ := 2000 }

theorem witness_launchAtTime : exec (.launchAtTime 2000000 0) (opAtHead qControl [] launchHolds) =
    .next (((opAtHead qControl [] launchHolds).elapse 2000000).launchDone 0 9 stOk) := by
  obtain ⟨-, -, -, -, -, -, -, htime, -⟩ := controlQueueInstructionsComplete
  exact (htime (opAtHead qControl [] launchHolds) _ 2000000 9 0 launchHolds rfl (by decide) rfl).trans
    (congrArg _ (if_pos (by decide)))

/-- The NOP with SIG 2 has completed. -/
theorem witness_completes : ∃ t, exec (.instructionComplete 0 0 9) (opAtHead qControl [] (nopOp.finished stOk)) = .next t ∧
    (t.core 0).ops = [] := by
  obtain ⟨-, -, -, -, -, -, -, -, hcomplete⟩ := controlQueueInstructionsComplete
  exact ⟨_, hcomplete (opAtHead qControl [] (nopOp.finished stOk)) _ 0 9 stOk 0 (nopOp.finished stOk) rfl (by decide) rfl, by decide⟩

end Sys2Proof.Machine
end

section
/-! A MOVE at the head of the DMA queue and its transactions (R209, R227, R249, R504), and the statement O26. -/

namespace Sys2Proof.Machine

-- the transactions of a MOVE

/-- The transaction moves something, lies within 4 KiB and has not been issued (R249). -/
structure Txn.Fresh (t : Txn) : Prop where
  pos : 0 < t.len
  le : t.len ≤ 4096
  waits : t.issued = false

theorem stackRoom_pos (inside : Bool) (a : Nat) : 0 < stackRoom inside a := by
  unfold stackRoom
  split
  · exact Nat.sub_pos_of_lt (Nat.mod_lt a (by decide))
  · decide

theorem cutRun_fresh (pool : Nat) (srcIn dstIn : Bool) (fuel off : Nat) (r : Nat × Nat × Nat) :
    ∀ t ∈ cutRun pool srcIn dstIn fuel off r, t.Fresh := by
  induction fuel generalizing off r with
  | zero => exact fun t ht => absurd ht List.not_mem_nil
  | succ fuel ih =>
    obtain ⟨a, b, n⟩ := r
    intro t ht
    unfold cutRun at ht
    split at ht
    · exact absurd ht List.not_mem_nil
    · rename_i hn
      rcases List.mem_cons.1 ht with rfl | ht
      · have hsrc := stackRoom_pos srcIn a
        have hdst := stackRoom_pos dstIn b
        exact ⟨by simp only; omega, by simp only; omega, rfl⟩
      · exact ih _ _ t ht

theorem moveTxns_fresh (kind : Nat) (a b : Desc) : ∀ t ∈ moveTxns kind a b, t.Fresh := by
  unfold moveTxns
  refine List.foldlRecOn (motive := fun acc : Nat × List Txn => ∀ t ∈ acc.2, t.Fresh) _ _
    (fun t ht => absurd ht List.not_mem_nil) (fun acc hacc r _ t ht => ?_)
  exact (List.mem_append.1 ht).elim (hacc t) (cutRun_fresh _ _ _ _ _ r t)

-- a MOVE at the head of the DMA queue

/-- The MOVE `o` of operation `n` on core `c` leaves the queue, divided into its transactions and with `data` if that came from a host;
under launch staggering a fabric MOVE is held until its release (R249, R504). -/
def State.divideMove (s : State) (c n : Nat) (o : Op) (data : List Byte) : State :=
  let release := (((s.core c).step).getD {}).launch + s.staggerNs o.word
  s.modCore c (fun k => (k.unqueue n).modOp n (fun y => { y with
    stage := .running, txns := moveTxns (mKind o.word) (o.desc (mSrc o.word)) (o.desc (mDst o.word)), buffer := data
    staggered := s.staggerNs o.word ≠ 0 ∧ s.ns < release, until_ := release }))

section
variable {s : State} {c n : Nat} {o : Op} {kinds : List Nat}

/-- A command of another KIND leaves the MOVE where it is (log entry 2). -/
theorem State.moveHead_other (data : List Byte) (hhead : s.head c qDma opMove = some (n, o)) (hkind : mKind o.word ∉ kinds) :
    s.moveHead c kinds data = s := by
  unfold State.moveHead
  simp only [hhead, hkind, not_false_eq_true, decide_true, Bool.true_or, if_true]

/-- A MOVE whose transport does not work completes with FABRIC or HOST (R209). -/
theorem State.moveHead_fails (data : List Byte) (hhead : s.head c qDma opMove = some (n, o)) (hqueued : o.stage = .queued)
    (hcore : (s.unit (coreRef c)).out = false) (hkind : mKind o.word ∈ kinds) (hfault : s.transportFault o.word ≠ stOk) :
    s.moveHead c kinds data = s.finish c n (s.transportFault o.word) := by
  unfold State.moveHead
  simp only [hhead, hqueued, hcore, hkind, hfault, not_true_eq_false, decide_false, bne_self_eq_false, Bool.or_self, Bool.false_and,
    Bool.false_eq_true, if_false, bne_iff_ne, ne_eq, not_false_eq_true, if_true]

/-- A MOVE of no block codes, which has no headers to check, is divided (R249). -/
theorem State.moveHead_divides (data : List Byte) (hhead : s.head c qDma opMove = some (n, o)) (hqueued : o.stage = .queued)
    (hcore : (s.unit (coreRef c)).out = false) (hkind : mKind o.word ∈ kinds) (hworks : s.transportFault o.word = stOk)
    (hplain : isBlock (o.desc (mSrc o.word)).fp = false) : s.moveHead c kinds data = s.divideMove c n o data := by
  unfold State.moveHead
  simp only [hhead, hqueued, hcore, hkind, hworks, hplain, not_true_eq_false, decide_false, bne_self_eq_false, Bool.or_self,
    Bool.and_false, Bool.false_eq_true, if_false]
  simp only [State.divideMove, ne_eq, Bool.decide_and, decide_not, bne, beq_eq_decide]

end

/-- The five commands of MOVE, each with the kinds it serves and the data it brings (R209). -/
def moveCommands (dt : Nat) (core : Fin 16) (data : List Byte) : List (Instr × List Nat × List Byte) :=
  [(.moveLocal dt core, [0], []), (.moveFabricWrite dt core, [1], []), (.moveFabricRead dt core, [2], []),
    (.moveToHost dt core, [3, 5], []), (.moveFromHost dt core data, [4, 6], data)]

theorem exec_moveCommands (dt : Nat) (core : Fin 16) (data : List Byte) (s : State) :
    ∀ x ∈ moveCommands dt core data, exec x.1 s = .next ((s.elapse dt).moveHead core x.2.1 x.2.2) := by
  simp only [moveCommands, List.forall_mem_cons, List.not_mem_nil, false_imp_iff, implies_true, and_true]
  exact ⟨rfl, rfl, rfl, rfl, rfl⟩

-- launch staggering

/-- A held MOVE is released once Kelig time has reached its release (R504). -/
theorem exec_staggerRelease {s : State} {dt n : Nat} {core : Fin 16} {o : Op} (hop : ((s.elapse dt).core core).op n = some o)
    (hheld : o.staggered = true) : exec (.staggerRelease dt core n) s = .next (if o.until_ ≤ (s.elapse dt).ns
      then (s.elapse dt).modCore core (fun k => k.modOp n (fun y => { y with staggered := false })) else s.elapse dt) := by
  show execStaggerRelease dt core n s = _
  unfold execStaggerRelease
  simp only [hop, hheld, Bool.true_and, decide_eq_true_eq]

-- the statement

/-- Settles O26: a MOVE at the head, its release, and its transactions. That a command of another KIND changes nothing is log
entry 2. -/
theorem movesAreDividedIntoTransactions : Obligations.MovesAreDividedIntoTransactions := by
  refine ⟨?head, ?release, ?transactions⟩
  case head =>
    rintro s _ dt n release core data o rfl hhead hqueued hcore x hx
    rw [exec_moveCommands dt core data s x hx]
    refine ⟨fun hkind => ?other, fun hkind hfault => ?fails, fun hkind hworks hplain hrelease => ?divides⟩
    case other => rw [State.moveHead_other _ hhead hkind]
    case fails => rw [State.moveHead_fails _ hhead hqueued hcore hkind hfault]
    case divides =>
      rw [State.moveHead_divides _ hhead hqueued hcore hkind hworks hplain, hrelease]
      rfl
  case release =>
    rintro s _ dt n core o rfl hop hheld
    exact exec_staggerRelease hop hheld
  case transactions =>
    intro kind a c t ht
    obtain ⟨hpos, hle, hwaits⟩ := moveTxns_fresh kind a c t ht
    exact ⟨hpos, hle, hwaits⟩

-- states that meet the hypotheses of its clauses

/-- A MOVE of kind `kind` on queue pair 1, in the DMA queue, of one row of 4,100 bytes. -/
def queuedMove (kind : Nat) : Op :=
  { word := 0x28000000100001000000000000000000 ||| (BitVec.ofNat 128 kind <<< 88), stage := .queued,
    descs := [(0, { base := 0, rows := 1, cols := 1025 }), (1, { base := storeBase 0, rows := 1, cols := 1025 })] }

theorem witness_moveDivides : ∃ t, exec (.moveLocal 0 0) (opAtHead qDma [] (queuedMove 0)) = .next t ∧
    ((t.core 0).op 9).map (fun o => o.txns.map Txn.len) = some [4096, 4] := by
  obtain ⟨hhead, -⟩ := movesAreDividedIntoTransactions
  obtain ⟨-, -, hdivides⟩ := hhead (opAtHead qDma [] (queuedMove 0)) _ 0 9 _ 0 [] (queuedMove 0) rfl (by decide) rfl (by decide)
    (.moveLocal 0 0, [0], []) (.head _)
  exact ⟨_, hdivides (by decide) (by decide) (by decide) rfl, by decide⟩

theorem witness_moveIsNotLocal : exec (.moveLocal 0 0) (opAtHead qDma [] (queuedMove 1)) =
    .next ((opAtHead qDma [] (queuedMove 1)).elapse 0) := by
  obtain ⟨hhead, -⟩ := movesAreDividedIntoTransactions
  obtain ⟨hother, -⟩ := hhead (opAtHead qDma [] (queuedMove 1)) _ 0 9 0 0 [] (queuedMove 1) rfl (by decide) rfl (by decide)
    (.moveLocal 0 0, [0], []) (.head _)
  exact hother (by decide)

/-- Queue pair 1 is in RESET. -/
theorem witness_moveFails : exec (.moveFabricWrite 0 0) (opAtHead qDma [] (queuedMove 1)) =
    .next (((opAtHead qDma [] (queuedMove 1)).elapse 0).finish 0 9 stFabric) := by
  obtain ⟨hhead, -⟩ := movesAreDividedIntoTransactions
  obtain ⟨-, hfails, -⟩ := hhead (opAtHead qDma [] (queuedMove 1)) _ 0 9 0 0 [] (queuedMove 1) rfl (by decide) rfl (by decide)
    (.moveFabricWrite 0 0, [1], []) (.tail _ (.head _))
  exact hfails (by decide) (by decide)

/-- Queue pair 1 is in RTS, and lanes stand 2 us apart. -/
def staggeredMove : State := { (opAtHead qDma [] (queuedMove 1)).setVal 0x4005 5 2 with qps := [(1, { st := 3 })] }

theorem witness_moveStaggers : ∃ t, exec (.moveFabricWrite 0 0) staggeredMove = .next t ∧
    ((t.core 0).op 9).map (fun o => (o.staggered, o.until_)) = some (true, 2000) := by
  obtain ⟨hhead, -⟩ := movesAreDividedIntoTransactions
  obtain ⟨-, -, hdivides⟩ := hhead staggeredMove _ 0 9 _ 0 [] (queuedMove 1) rfl (by decide) rfl (by decide)
    (.moveFabricWrite 0 0, [1], []) (.tail _ (.head _))
  exact ⟨_, hdivides (by decide) (by decide) (by decide) rfl, by decide⟩

/-- The release, at 2000 ns, has come. -/
theorem witness_staggerReleases : ∃ t,
    exec (.staggerRelease 2000000 0 9) (opAtHead qDma [] { queuedMove 1 with staggered := true, until_ := 2000 }) = .next t ∧
    ((t.core 0).op 9).map Op.staggered = some false := by
  obtain ⟨-, hrelease, -⟩ := movesAreDividedIntoTransactions
  exact ⟨_, hrelease (opAtHead qDma [] { queuedMove 1 with staggered := true, until_ := 2000 }) _ 2000000 9 0
    { queuedMove 1 with staggered := true, until_ := 2000 } rfl (by decide) rfl, by decide⟩

end Sys2Proof.Machine
end

section
/-! The memory (R225): every command and every step leaves it in its canonical form, a span reads back as it was stored, and the
statements O4, O5 and O8. -/

namespace Sys2Proof.Machine

-- every command

/-- Every command answers a next state and keeps all but its listed parts: the lemmas of its family, as `exec` dispatches. -/
theorem exec_keeps (c : Instr) (s : State) : ∃ t, exec c s = .next t ∧ (s.elapse c.dt).Keeps c.parts t :=
  match c with
  | .governorLeverApply dt draw amount => execGovernorLeverApply_keeps dt draw amount s
  | .governorLeverRelease dt draw amount => execGovernorLeverRelease_keeps dt draw amount s
  | .powerCapUnmet dt draw => execPowerCapUnmet_keeps dt draw s
  | .powerCapWrite dt road watts => execPowerCapWrite_keeps dt road watts s
  | .alignerVector dt core => execAlignerVector_keeps dt core s
  | .windowOpen dt core eng => execWindowOpen_keeps dt core eng s
  | .windowDecision dt core eng charges gaps => execWindowDecision_keeps dt core eng charges gaps s
  | .vatUpdate dt core eng => execVatUpdate_keeps dt core eng s
  | .churnWrite dt core eng => execChurnWrite_keeps dt core eng s
  | .engineFaultStop dt core eng => execEngineFaultStop_keeps dt core eng s
  | .pulseRefLockLoss dt core => execPulseRefLockLoss_keeps dt core s
  | .pulseRefRelock dt core => execPulseRefRelock_keeps dt core s
  | .pulseRefUnlock dt core => execPulseRefUnlock_keeps dt core s
  | .calibrationWindow dt core eng => execCalibrationWindow_keeps dt core eng s
  | .calibrationComplete dt core eng measured => execCalibrationComplete_keeps dt core eng measured s
  | .coefficientsTakeEffect dt core eng => execCoefficientsTakeEffect_keeps dt core eng s
  | .calStale dt core eng => execCalStale_keeps dt core eng s
  | .headroomPolicyEval dt job tag => execHeadroomPolicyEval_keeps dt job tag s
  | .bankWrite dt core queue => execBankWrite_keeps dt core queue s
  | .bankWriteReset dt core eng => execBankWriteReset_keeps dt core eng s
  | .bankResetSurvey dt core eng highest => execBankResetSurvey_keeps dt core eng highest s
  | .bankColumnVerify dt core eng levels => execBankColumnVerify_keeps dt core eng levels s
  | .bankWriteFault dt core eng => execBankWriteFault_keeps dt core eng s
  | .bankSwap dt core queue => execBankSwap_keeps dt core queue s
  | .bankSwapApply dt core eng => execBankSwapApply_keeps dt core eng s
  | .driftRefreshDue dt core eng plane => execDriftRefreshDue_keeps dt core eng plane s
  | .refreshChunkStart dt core eng plane => execRefreshChunkStart_keeps dt core eng plane s
  | .refreshChunkEnd dt core eng plane averages finals => execRefreshChunkEnd_keeps dt core eng plane averages finals s
  | .instructionDecode dt core => execInstructionDecode_keeps dt core s
  | .instructionDispatch dt core op => execInstructionDispatch_keeps dt core op s
  | .instructionComplete dt core op => execInstructionComplete_keeps dt core op s
  | .nop dt core => execNop_keeps dt core s
  | .pathSel dt core => execPathSel_keeps dt core s
  | .endStep dt core => execEndStep_keeps dt core s
  | .launchAt dt core => execLaunchAt_keeps dt core s
  | .launchAtTime dt core => execLaunchAtTime_keeps dt core s
  | .signal dt core => execSignal_keeps dt core s
  | .wait dt core => execWait_keeps dt core s
  | .waitTimeout dt core => execWaitTimeout_keeps dt core s
  | .fence dt core => execFence_keeps dt core s
  | .pass dt core queue => execPass_keeps dt core queue s
  | .spill dt core queue => execSpill_keeps dt core queue s
  | .resume dt core queue => execResume_keeps dt core queue s
  | .drain dt core => execDrain_keeps dt core s
  | .drainRowRead dt core => execDrainRowRead_keeps dt core s
  | .drainRowWrite dt core => execDrainRowWrite_keeps dt core s
  | .skimVat dt core => execSkimVat_keeps dt core s
  | .skimStore dt core => execSkimStore_keeps dt core s
  | .skimLists dt core => execSkimLists_keeps dt core s
  | .tens dt core => execTens_keeps dt core s
  | .convert dt core => execConvert_keeps dt core s
  | .add dt core => execAdd_keeps dt core s
  | .mul dt core => execMul_keeps dt core s
  | .fma dt core => execFma_keeps dt core s
  | .scale dt core => execScale_keeps dt core s
  | .max dt core => execMax_keeps dt core s
  | .relu dt core => execRelu_keeps dt core s
  | .silu dt core => execSilu_keeps dt core s
  | .gelu dt core => execGelu_keeps dt core s
  | .exp dt core => execExp_keeps dt core s
  | .recip dt core => execRecip_keeps dt core s
  | .rsqrt dt core => execRsqrt_keeps dt core s
  | .softmax dt core => execSoftmax_keeps dt core s
  | .rmsnorm dt core => execRmsnorm_keeps dt core s
  | .layernorm dt core => execLayernorm_keeps dt core s
  | .rowmax dt core => execRowmax_keeps dt core s
  | .rowsum dt core => execRowsum_keeps dt core s
  | .sample dt core => execSample_keeps dt core s
  | .moveLocal dt core => execMoveLocal_keeps dt core s
  | .moveFabricWrite dt core => execMoveFabricWrite_keeps dt core s
  | .moveFabricRead dt core => execMoveFabricRead_keeps dt core s
  | .moveToHost dt core => execMoveToHost_keeps dt core s
  | .moveFromHost dt core data => execMoveFromHost_keeps dt core data s
  | .staggerRelease dt core op => execStaggerRelease_keeps dt core op s
  | .kvAppend dt core => execKvAppend_keeps dt core s
  | .kvGather dt core => execKvGather_keeps dt core s
  | .dmaTransactionIssue dt core op => execDmaTransactionIssue_keeps dt core op s
  | .dmaTransactionComplete dt core op doubleBit => execDmaTransactionComplete_keeps dt core op doubleBit s
  | .paceMeasure dt core monitors => execPaceMeasure_keeps dt core monitors s
  | .voltageStep dt core paceAtNext => execVoltageStep_keeps dt core paceAtNext s
  | .taggedDataArrival dt core job tag addr data => execTaggedDataArrival_keeps dt core job tag addr data s
  | .orphanLimit dt core => execOrphanLimit_keeps dt core s
  | .load dt => execLoad_keeps dt s
  | .loadComplete dt slot => execLoadComplete_keeps dt slot s
  | .unload dt => execUnload_keeps dt s
  | .unloadComplete dt slot => execUnloadComplete_keeps dt slot s
  | .hold dt => execHold_keeps dt s
  | .release dt => execRelease_keeps dt s
  | .firmware dt => execFirmware_keeps dt s
  | .attest dt => execAttest_keeps dt s
  | .qp dt => execQp_keeps dt s
  | .openStream dt => execOpenStream_keeps dt s
  | .extend dt hostData => execExtend_keeps dt hostData s
  | .resumeStream dt => execResumeStream_keeps dt s
  | .pause dt => execPause_keeps dt s
  | .close dt => execClose_keeps dt s
  | .streamFreed dt stream => execStreamFreed_keeps dt stream s
  | .streamUserWrite dt path stream offset data => execStreamUserWrite_keeps dt path stream offset data s
  | .busyShareInterval dt shares => execBusyShareInterval_keeps dt shares s
  | .stepForm dt entry tag => execStepForm_keeps dt entry tag s
  | .stepStart dt job => execStepStart_keeps dt job s
  | .stepEnd dt job sampled pauseShare => execStepEnd_keeps dt job sampled pauseShare s
  | .jobSaveDone dt => execJobSaveDone_keeps dt s
  | .jobRestoreDone dt slot => execJobRestoreDone_keeps dt slot s
  | .preemption dt slot => execPreemption_keeps dt slot s
  | .stepReissue dt job tag => execStepReissue_keeps dt job tag s
  | .launchStep dt path => execLaunchStep_keeps dt path s
  | .launchCancel dt path => execLaunchCancel_keeps dt path s
  | .launchFrame dt port src dport data => execLaunchFrame_keeps dt port src dport data s
  | .launchLate dt job tag => execLaunchLate_keeps dt job tag s
  | .stepDeadline dt job => execStepDeadline_keeps dt job s
  | .sourceUpdate dt src offset clockClass utcOffset => execSourceUpdate_keeps dt src offset clockClass utcOffset s
  | .sourceQualified dt src => execSourceQualified_keeps dt src s
  | .sourceLost dt src => execSourceLost_keeps dt src s
  | .waitToRestore dt => execWaitToRestore_keeps dt s
  | .timeLocked dt => execTimeLocked_keeps dt s
  | .timeFreeRun dt => execTimeFreeRun_keeps dt s
  | .ppsEdge dt => execPpsEdge_keeps dt s
  | .timeOfDay dt road seconds => execTimeOfDay_keeps dt road seconds s
  | .twinTimeOffset dt => execTwinTimeOffset_keeps dt s
  | .epochStageWrite dt road index sub data => execEpochStageWrite_keeps dt road index sub data s
  | .epochOpen dt road => execEpochOpen_keeps dt road s
  | .epochCommit dt road => execEpochCommit_keeps dt road s
  | .epochAbort dt road => execEpochAbort_keeps dt road s
  | .epochRecommit dt road => execEpochRecommit_keeps dt road s
  | .epochRevert dt road => execEpochRevert_keeps dt road s
  | .epochCommitTime dt => execEpochCommitTime_keeps dt s
  | .epochApply dt unit => execEpochApply_keeps dt unit s
  | .epochMixed dt => execEpochMixed_keeps dt s
  | .portEnable dt road word => execPortEnable_keeps dt road word s
  | .portDisable dt road word => execPortDisable_keeps dt road word s
  | .portRetrain dt road word => execPortRetrain_keeps dt road word s
  | .portRemap dt road word => execPortRemap_keeps dt road word s
  | .portRetire dt road word => execPortRetire_keeps dt road word s
  | .portUnretire dt road word => execPortUnretire_keeps dt road word s
  | .portEgressDrainEnd dt port => execPortEgressDrainEnd_keeps dt port s
  | .portLinkUp dt port speed => execPortLinkUp_keeps dt port speed s
  | .neighbourSolicit dt port => execNeighbourSolicit_keeps dt port s
  | .neighbourAnswer dt port mac => execNeighbourAnswer_keeps dt port mac s
  | .portTrainingTimeout dt port => execPortTrainingTimeout_keeps dt port s
  | .portFlapHold dt port => execPortFlapHold_keeps dt port s
  | .portLos dt port cause => execPortLos_keeps dt port cause s
  | .portDegraded dt port ber => execPortDegraded_keeps dt port ber s
  | .portLightReturn dt port => execPortLightReturn_keeps dt port s
  | .packetReceived dt port pkt => execPacketReceived_keeps dt port pkt s
  | .packetEgress dt port draw => execPacketEgress_keeps dt port draw s
  | .pfcPauseRefresh dt port cls => execPfcPauseRefresh_keeps dt port cls s
  | .pfcPauseReceived dt port cls quanta => execPfcPauseReceived_keeps dt port cls quanta s
  | .pfcPauseExpiry dt port cls => execPfcPauseExpiry_keeps dt port cls s
  | .pfcStorm dt port cls => execPfcStorm_keeps dt port cls s
  | .pfcWatchdogRecover dt port cls => execPfcWatchdogRecover_keeps dt port cls s
  | .routeTableWrite dt road data => execRouteTableWrite_keeps dt road data s
  | .ecmpGroupsWrite dt road data => execEcmpGroupsWrite_keeps dt road data s
  | .rdmaWriteReceived dt qp src psn rkey addr data => execRdmaWriteReceived_keeps dt qp src psn rkey addr data s
  | .rdmaReadReceived dt qp src psn rkey addr len => execRdmaReadReceived_keeps dt qp src psn rkey addr len s
  | .sendReceived dt qp src psn entry => execSendReceived_keeps dt qp src psn entry s
  | .atomicReceived dt qp psn => execAtomicReceived_keeps dt qp psn s
  | .rdmaReadResponse dt qp psn data => execRdmaReadResponse_keeps dt qp psn data s
  | .ackReceived dt qp psn => execAckReceived_keeps dt qp psn s
  | .sequenceNak dt qp psn => execSequenceNak_keeps dt qp psn s
  | .fatalNak dt qp syndrome => execFatalNak_keeps dt qp syndrome s
  | .retransmitTimeout dt qp => execRetransmitTimeout_keeps dt qp s
  | .cnpReceived dt qp => execCnpReceived_keeps dt qp s
  | .rateRecoveryTimer dt qp => execRateRecoveryTimer_keeps dt qp s
  | .pairEnable dt road value => execPairEnable_keeps dt road value s
  | .hello dt port frame => execHello_keeps dt port frame s
  | .helloAnswer dt port frame certificate geometry => execHelloAnswer_keeps dt port frame certificate geometry s
  | .formationTimeout dt => execFormationTimeout_keeps dt s
  | .asymmetryMeasured dt asymmetry => execAsymmetryMeasured_keeps dt asymmetry s
  | .heartbeatInterval dt => execHeartbeatInterval_keeps dt s
  | .heartbeat dt port frame => execHeartbeat_keeps dt port frame s
  | .heartbeatMiss dt => execHeartbeatMiss_keeps dt s
  | .twinSuspect dt => execTwinSuspect_keeps dt s
  | .probeInterval dt => execProbeInterval_keeps dt s
  | .probe dt src frame => execProbe_keeps dt src frame s
  | .probeReply dt src frame => execProbeReply_keeps dt src frame s
  | .witnessClaim dt => execWitnessClaim_keeps dt s
  | .witnessGrant dt src frame => execWitnessGrant_keeps dt src frame s
  | .witnessDeny dt src frame => execWitnessDeny_keeps dt src frame s
  | .witnessRelease dt => execWitnessRelease_keeps dt s
  | .partnerStatus dt road value => execPartnerStatus_keeps dt road value s
  | .confirmWindow dt => execConfirmWindow_keeps dt s
  | .fenceGuard dt => execFenceGuard_keeps dt s
  | .goodbye dt port frame => execGoodbye_keeps dt port frame s
  | .unpairReceived dt port frame => execUnpairReceived_keeps dt port frame s
  | .linkDownRecovery dt => execLinkDownRecovery_keeps dt s
  | .tokenLogEntry dt entry => execTokenLogEntry_keeps dt entry s
  | .tokenLogAck dt seq => execTokenLogAck_keeps dt seq s
  | .checkpointReceived dt ckpt => execCheckpointReceived_keeps dt ckpt s
  | .checkpointAck dt stream => execCheckpointAck_keeps dt stream s
  | .crossCheckRecord dt record => execCrossCheckRecord_keeps dt record s
  | .crossCheckTimeout dt => execCrossCheckTimeout_keeps dt s
  | .adoptionFromBacklog dt => execAdoptionFromBacklog_keeps dt s
  | .handover dt road => execHandover_keeps dt road s
  | .unpair dt road => execUnpair_keeps dt road s
  | .ringEnable dt port ring word => execRingEnable_keeps dt port ring word s
  | .ringDisable dt port ring word => execRingDisable_keeps dt port ring word s
  | .ringConfigure dt port ring word => execRingConfigure_keeps dt port ring word s
  | .requestDoorbell dt port ring entries word => execRequestDoorbell_keeps dt port ring entries word s
  | .completionDoorbell dt port ring word => execCompletionDoorbell_keeps dt port ring word s
  | .completionPost dt port ring => execCompletionPost_keeps dt port ring s
  | .msixMessage dt port vector => execMsixMessage_keeps dt port vector s
  | .msixUnmask dt port vector => execMsixUnmask_keeps dt port vector s
  | .perst dt port => execPerst_keeps dt port s
  | .flr dt port => execFlr_keeps dt port s
  | .d3hotToD0 dt port => execD3hotToD0_keeps dt port s
  | .hostLinkDown dt port => execHostLinkDown_keeps dt port s
  | .hostLinkUp dt port speed width => execHostLinkUp_keeps dt port speed width s
  | .busMasterEnable dt port => execBusMasterEnable_keeps dt port s
  | .bar4Read dt port offset len => execBar4Read_keeps dt port offset len s
  | .bar4Write dt port offset data => execBar4Write_keeps dt port offset data s
  | .bar4Resize dt port log2GiB => execBar4Resize_keeps dt port log2GiB s
  | .hbmApertureBaseWrite dt road port base => execHbmApertureBaseWrite_keeps dt road port base s
  | .lowHalfRead dt port offset => execLowHalfRead_keeps dt port offset s
  | .highHalfRead dt port offset => execHighHalfRead_keeps dt port offset s
  | .lowHalfWrite dt port offset value => execLowHalfWrite_keeps dt port offset value s
  | .highHalfWrite dt port offset value => execHighHalfWrite_keeps dt port offset value s
  | .entryWrite dt road index sub data => execEntryWrite_keeps dt road index sub data s
  | .rcEntryRead dt road index sub => execRcEntryRead_keeps dt road index sub s
  | .sdoSegment dt start toggle last data => execSdoSegment_keeps dt start toggle last data s
  | .sdoSegmentTimeout dt => execSdoSegmentTimeout_keeps dt s
  | .sdoInformation dt request index sub => execSdoInformation_keeps dt request index sub s
  | .foeWrite dt name image interrupted => execFoeWrite_keeps dt name image interrupted s
  | .accessBlockRead dt port index sub reserved => execAccessBlockRead_keeps dt port index sub reserved s
  | .accessBlockWrite dt port index sub reserved data => execAccessBlockWrite_keeps dt port index sub reserved data s
  | .accessBlockCompleteRead dt port index sub reserved => execAccessBlockCompleteRead_keeps dt port index sub reserved s
  | .accessBlockCompleteWrite dt port index sub reserved data =>
    execAccessBlockCompleteWrite_keeps dt port index sub reserved data s
  | .emergencyMailboxRead dt => execEmergencyMailboxRead_keeps dt s
  | .txpdoSample dt => execTxpdoSample_keeps dt s
  | .alStateChange dt al => execAlStateChange_keeps dt al s
  | .resynchronise dt road token => execResynchronise_keeps dt road token s
  | .summarySnapshot dt master => execSummarySnapshot_keeps dt master s
  | .summaryReady dt master => execSummaryReady_keeps dt master s
  | .pinTableWrite dt road data => execPinTableWrite_keeps dt road data s
  | .start dt road => execStart_keeps dt road s
  | .stop dt road => execStop_keeps dt road s
  | .safe dt road => execSafe_keeps dt road s
  | .clear dt road => execClear_keeps dt road s
  | .shutdown dt road => execShutdown_keeps dt road s
  | .coldReset dt road => execColdReset_keeps dt road s
  | .grantWrite dt road index sub value => execGrantWrite_keeps dt road index sub value s
  | .regionWrite dt road index sub value => execRegionWrite_keeps dt road index sub value s
  | .peerEntryWrite dt road index sub data => execPeerEntryWrite_keeps dt road index sub data s
  | .commissioningLock dt road value => execCommissioningLock_keeps dt road value s
  | .firmwareVerified dt => execFirmwareVerified_keeps dt s
  | .trialConfirm dt road value => execTrialConfirm_keeps dt road value s
  | .trialTimeout dt => execTrialTimeout_keeps dt s
  | .commitSecurityVersion dt road value => execCommitSecurityVersion_keeps dt road value s
  | .microcodeUpdateCore dt road value => execMicrocodeUpdateCore_keeps dt road value s
  | .microcodeUpdateDone dt core passed => execMicrocodeUpdateDone_keeps dt core passed s
  | .attestationNonce dt road nonce => execAttestationNonce_keeps dt road nonce s
  | .loopFrame dt core supply fast time offsets => execLoopFrame_keeps dt core supply fast time offsets s
  | .outputStrobe dt core => execOutputStrobe_keeps dt core s
  | .loopOff dt road core word => execLoopOff_keeps dt road core word s
  | .loopManual dt road core word => execLoopManual_keeps dt road core word s
  | .loopAcquire dt road core word => execLoopAcquire_keeps dt road core word s
  | .loopTrack dt road core word => execLoopTrack_keeps dt road core word s
  | .loopRestart dt road core word => execLoopRestart_keeps dt road core word s
  | .loopLocked dt core slot => execLoopLocked_keeps dt core slot s
  | .loopUnlocked dt core slot => execLoopUnlocked_keeps dt core slot s
  | .loopAcquireFail dt core slot => execLoopAcquireFail_keeps dt core slot s
  | .loopPlausibility dt core slot => execLoopPlausibility_keeps dt core slot s
  | .loopDeadline dt core slot => execLoopDeadline_keeps dt core slot s
  | .loopConfigWrite dt road core data => execLoopConfigWrite_keeps dt road core data s
  | .coefficientWrite dt road core data => execCoefficientWrite_keeps dt road core data s
  | .injectStep dt road core data => execInjectStep_keeps dt road core data s
  | .injectPrbs dt road core data => execInjectPrbs_keeps dt road core data s
  | .injectSine dt road core data => execInjectSine_keeps dt road core data s
  | .injectStop dt road core data => execInjectStop_keeps dt road core data s
  | .injectionEnd dt core => execInjectionEnd_keeps dt core s
  | .converterTick dt core volts references => execConverterTick_keeps dt core volts references s
  | .adcReference dt core adc => execAdcReference_keeps dt core adc s
  | .slewMove dt core channel => execSlewMove_keeps dt core channel s
  | .queueTick dt core group => execQueueTick_keeps dt core group s
  | .spanChangeEnd dt core channel => execSpanChangeEnd_keeps dt core channel s
  | .dacDriverFault dt core channel cause => execDacDriverFault_keeps dt core channel cause s
  | .arm dt road core word => execArm_keeps dt road core word s
  | .disarm dt road core word => execDisarm_keeps dt road core word s
  | .channelWrite dt road core data => execChannelWrite_keeps dt road core data s
  | .groupStrobe dt road core groups => execGroupStrobe_keeps dt road core groups s
  | .queueWrite dt road core data => execQueueWrite_keeps dt road core data s
  | .channelConfigWrite dt road core data => execChannelConfigWrite_keeps dt road core data s
  | .generatorWrite dt road core data => execGeneratorWrite_keeps dt road core data s
  | .wheelRun dt road core value => execWheelRun_keeps dt road core value s
  | .sensorSample dt readings => execSensorSample_keeps dt readings s
  | .hbmReportTimeout dt stack => execHbmReportTimeout_keeps dt stack s
  | .sensorDeviationTimeout dt sensor => execSensorDeviationTimeout_keeps dt sensor s
  | .throttleEvaluation dt zone => execThrottleEvaluation_keeps dt zone s
  | .sensorReinstate dt road sensor selfCheckPassed => execSensorReinstate_keeps dt road sensor selfCheckPassed s
  | .coreOrderlyStop dt core => execCoreOrderlyStop_keeps dt core s
  | .stackPowerDown dt stack => execStackPowerDown_keeps dt stack s
  | .shutdownHandoverLimit dt => execShutdownHandoverLimit_keeps dt s
  | .thermalHardTrip dt zone supervisorPowered => execThermalHardTrip_keeps dt zone supervisorPowered s
  | .feedRange dt feed millivolts => execFeedRange_keeps dt feed millivolts s
  | .feedReturn dt feed millivolts => execFeedReturn_keeps dt feed millivolts s
  | .feedLost dt feed millivolts => execFeedLost_keeps dt feed millivolts s
  | .bothFeedsLost dt millivoltsA millivoltsB => execBothFeedsLost_keeps dt millivoltsA millivoltsB s
  | .feedQualified dt feed => execFeedQualified_keeps dt feed s
  | .standbyReached dt failed => execStandbyReached_keeps dt failed s
  | .coreWarmingStep dt core => execCoreWarmingStep_keeps dt core s
  | .warmingLimit dt => execWarmingLimit_keeps dt s
  | .resetLoopAssert dt => execResetLoopAssert_keeps dt s
  | .resetLoopRelease dt => execResetLoopRelease_keeps dt s
  | .recalibrationDue dt core eng plane => execRecalibrationDue_keeps dt core eng plane s
  | .storeScrub dt core singles doubles => execStoreScrub_keeps dt core singles doubles s
  | .hbmScrub dt stack singles doubles => execHbmScrub_keeps dt stack singles doubles s
  | .telemetrySnapshot dt energy => execTelemetrySnapshot_keeps dt energy s
  | .repairFence dt road data => execRepairFence_keeps dt road data s
  | .repairTest dt road data => execRepairTest_keeps dt road data s
  | .repairRetire dt road data => execRepairRetire_keeps dt road data s
  | .repairUnretire dt road data => execRepairUnretire_keeps dt road data s
  | .repairTestDone dt unit passed => execRepairTestDone_keeps dt unit passed s
  | .cartridgeUnlatch dt cartridge => execCartridgeUnlatch_keeps dt cartridge s
  | .laserInterlockCut dt cartridge => execLaserInterlockCut_keeps dt cartridge s
  | .cartridgeLatch dt cartridge serial hours => execCartridgeLatch_keeps dt cartridge serial hours s
  | .exportDatagram dt => execExportDatagram_keeps dt s
  | .stormPeriodEnd dt sink => execStormPeriodEnd_keeps dt sink s
  | .eventFetch dt road sub => execEventFetch_keeps dt road sub s
  | .cursorWrite dt road sub value => execCursorWrite_keeps dt road sub value s
  | .alarmAcknowledge dt road entry => execAlarmAcknowledge_keeps dt road entry s
  | .syncAndAnnounceSend dt => execSyncAndAnnounceSend_keeps dt s
  | .perstDeassertion dt port => execPerstDeassertion_keeps dt port s
  | .localOrRemoteFault dt port => execLocalOrRemoteFault_keeps dt port s
  | .cartridgeRemoved dt cartridge => execCartridgeRemoved_keeps dt cartridge s
  | .signatureIntervalEnd dt => execSignatureIntervalEnd_keeps dt s

theorem exec_mem_wf {c : Instr} {s t : State} (he : exec c s = .next t) (hwf : s.mem.wf) : t.mem.wf := by
  obtain ⟨u, hu, hkeeps⟩ := exec_keeps c s
  obtain rfl : t = u := Host.Outcome.next.inj (he.symm.trans hu)
  exact hkeeps.mem hwf

/-- Settles O4, by the two things that a step can do: a tick, which leaves the memory alone, or the front command. -/
theorem stepKeepsMemoryCanonical : Obligations.StepKeepsMemoryCanonical := by
  intro s t hwf hstep
  unfold step at hstep
  split at hstep
  case h_1 => exact Host.Outcome.next.inj hstep ▸ hwf
  case h_2 => exact exec_mem_wf hstep hwf

/-- Settles O5: no byte is listed after reset (R507). -/
theorem resetMemoryCanonical : Obligations.ResetMemoryCanonical :=
  ⟨List.Pairwise.nil, fun _ hc => absurd hc List.not_mem_nil⟩

-- what is stored

/-- A read of a span gives `bs` where each byte of it does. -/
theorem Mem.read_eq_of_get {m : Mem} {a : Nat} {bs : List Byte} (h : ∀ i (hi : i < bs.length), m.get (a + i) = bs[i]) :
    m.read a bs.length = bs := by
  induction bs generalizing a with
  | nil => rfl
  | cons b bs ih =>
    have hhead : m.get a = b := h 0 (Nat.succ_pos _)
    have htail : m.read (a + 1) bs.length = bs := ih fun i hi => by
      rw [Nat.add_right_comm]
      exact h (i + 1) (Nat.succ_lt_succ hi)
    rw [List.length_cons, Mem.read, hhead, htail]

/-- Settles O8 with the memory's laws on one byte of the span and one outside it. -/
theorem memoryReadsBackWhatIsStored : Obligations.MemoryReadsBackWhatIsStored := fun m a bs =>
  ⟨fun i hi => m.get_write_same a i bs hi, fun x hx => m.get_write_other a x bs hx,
    Mem.read_eq_of_get fun i hi => m.get_write_same a i bs hi⟩

-- steps that meet the hypotheses

/-- Tagged data of the running launch of job 0 waits to be stored over a listed byte. -/
def landingOverByte : State :=
  { pending := [.taggedDataArrival 0 0 0 5 64 [0, 9]], mem := [(64, 7)], jobs := [(0, { step := some { tag := 5 } })] }

theorem witness_stepKeepsMemory : ∃ t, step landingOverByte = .next t ∧ t.mem = [(65, 9)] ∧ t.mem.wf := by
  have hstored : step landingOverByte = .next { landingOverByte with pending := [], mem := [(65, 9)] } := rfl
  exact ⟨_, hstored, rfl, stepKeepsMemoryCanonical landingOverByte _ (by decide) hstored⟩

theorem witness_readBack : Mem.read (Mem.write [(64, 7), (66, 3)] 63 [1, 0, 5]) 63 3 = [1, 0, 5] := by
  obtain ⟨-, -, hread⟩ := memoryReadsBackWhatIsStored [(64, 7), (66, 3)] 63 [1, 0, 5]
  exact hread

end Sys2Proof.Machine
end

section
/-! Requests on jobs (R233, R235, R259): how LOAD, UNLOAD, HOLD and RELEASE are served, and the statement O33. -/

namespace Sys2Proof.Machine

-- the next request of the round

section
variable {s c : State} {type p q : Nat} {e : List Byte} {f : Rq → State → State}

/-- A well-formed entry of the type at the head of the next ring of the round is taken. -/
theorem State.takeRequest_next (hring : s.nextRing = some (p, q))
    (hgood : requestOk q (s.headEntry p q) = true) (htype : rqType (s.headEntry p q) = type) :
    s.takeRequest type = (s.consume p q, some (p, q, s.headEntry p q)) := by
  have hnext : ∀ fuel, s.nextRequest (fuel + 1) = (s, some (p, q, s.headEntry p q)) := fun fuel => by
    simp only [State.nextRequest, hring, hgood, if_true]
  rw [State.takeRequest, roundFuel, hnext 65535]
  exact if_pos htype

theorem State.serve_none (htake : s.takeRequest type = (c, none)) : s.serve type f = c := by rw [State.serve, htake]

theorem State.serve_some (htake : s.takeRequest type = (c, some (p, q, e))) :
    s.serve type f = f { m := 2 + p, ring := some (p, q), entry := e } c := by rw [State.serve, htake]

end

-- LOAD

/-- The slot's content once the job `x` of a LOAD request is taken up; `State.loadRq_loads` ties it to the request. -/
def State.loadedJob (s : State) (r : Rq) (x : Job) : Job :=
  { x.boundTo (s.bindable r.m) with st := .loading, owner := r.m, ring := r.ring, tagOfLoad := rqTag r.entry, code := s.jobCode x }

/-- The job of a LOAD request passes the checks of the rights, the format and the geometry, the first three of R233. -/
structure State.LoadChecked (s : State) (r : Rq) (x : Job) : Prop where
  job : x = jobOf s.mem (rqField r.entry 0 8)
  rights : s.loadDenied r.m x = none
  format : s.formatOk x = true
  geometry : s.geometryOk x = true

section
variable {s : State} {r : Rq} {x : Job} {j : Nat}

theorem State.loadRq_denied {a bit : Nat} (hx : x = jobOf s.mem (rqField r.entry 0 8))
    (hdenied : s.loadDenied r.m x = some (a, bit)) : s.loadRq r = s.answerDenied r a (2 ^ bit) := by
  simp only [State.loadRq, ← hx, hdenied]

theorem State.loadRq_format (hx : x = jobOf s.mem (rqField r.entry 0 8)) (hrights : s.loadDenied r.m x = none)
    (hformat : s.formatOk x = false) : s.loadRq r = s.answer r stJobFormat 0 := by
  simp [State.loadRq, ← hx, hrights, hformat]

theorem State.loadRq_geometry (hx : x = jobOf s.mem (rqField r.entry 0 8)) (hrights : s.loadDenied r.m x = none)
    (hformat : s.formatOk x = true) (hgeometry : s.geometryOk x = false) : s.loadRq r = s.answer r stJobGeometry 0 := by
  simp [State.loadRq, ← hx, hrights, hformat, hgeometry]

/-- The slot that a LOAD takes is the lowest FREE one. -/
theorem State.find_lowestFree (hj : j < 8) (hfree : (s.job j).st = .free) (hlower : ∀ i < j, (s.job i).st ≠ .free) :
    (List.range 8).find? (fun j => (s.job j).st = .free) = some j :=
  List.find?_range_eq_some.2 ⟨decide_eq_true hfree, List.mem_range.2 hj, fun i hi => by simp [hlower i hi]⟩

theorem State.loadRq_noSlot (h : s.LoadChecked r x) (hnone : ∀ j < 8, (s.job j).st ≠ .free) :
    s.loadRq r = s.answer r stJobNoSlot 0 := by
  have hslot : (List.range 8).find? (fun j => (s.job j).st = .free) = none :=
    List.find?_range_eq_none.2 fun j hj => by simp [hnone j hj]
  simp only [State.loadRq, ← h.job, h.rights, h.format, h.geometry, hslot, Bool.not_true, Bool.false_eq_true, if_false]

theorem State.loadRq_memory (h : s.LoadChecked r x) (hslot : (List.range 8).find? (fun j => (s.job j).st = .free) = some j)
    (hmemory : s.memoryOk x = false) : s.loadRq r = s.answer r stJobMemory 0 := by
  simp only [State.loadRq, ← h.job, h.rights, h.format, h.geometry, hslot, hmemory, Bool.not_true, Bool.not_false,
    Bool.false_eq_true, if_false, if_true]

theorem State.loadRq_loads (h : s.LoadChecked r x) (hslot : (List.range 8).find? (fun j => (s.job j).st = .free) = some j)
    (hmemory : s.memoryOk x = true) : s.loadRq r = s.modJob j (fun _ => s.loadedJob r x) := by
  simp only [State.loadRq, ← h.job, h.rights, h.format, h.geometry, hslot, hmemory, Bool.not_true, Bool.false_eq_true, if_false,
    State.loadedJob]

theorem jobOf_priority (m : Mem) (a : Nat) : (jobOf m a).priority = field (m.read (jobOf m a).record 1920) 18 1 % 8 := rfl

end

theorem exec_load (dt : Nat) (s : State) : exec (.load dt) s = .next ((s.elapse dt).serve rqLoad State.loadRq) := rfl

-- UNLOAD, HOLD and RELEASE

section
variable {s : State} {r : Rq} {ok : JobSt → Bool} {f : Nat → State → State} {j : Nat}

theorem State.jobRq_free (hj : j = rqField r.entry 0 1 % 8) (hst : (s.job j).st = .free) :
    s.jobRq r ok f = s.answer r stJobState 0 := by
  subst hj
  rw [State.jobRq, if_pos hst]

theorem State.jobRq_denied {c : Nat} (hj : j = rqField r.entry 0 1 % 8) (hst : (s.job j).st ≠ .free)
    (hdenied : s.jobDenied r.m j = some c) : s.jobRq r ok f = s.answerDenied r (odKey 0x3071 (1 + 4 * c)) (2 ^ rightAdmin) := by
  subst hj
  simp only [State.jobRq, if_neg hst, hdenied]

theorem State.jobRq_allowed (hj : j = rqField r.entry 0 1 % 8) (hst : (s.job j).st ≠ .free) (hrights : s.jobDenied r.m j = none) :
    s.jobRq r ok f = if ok (s.job j).st then (f j s).answer r stOk 0 else s.answer r stJobState 0 := by
  subst hj
  simp only [State.jobRq, if_neg hst, hrights]

theorem State.holdJob_ready (hst : (s.job j).st = .ready) : s.holdJob j = s.jobTo j .held := by rw [State.holdJob, hst]

end

theorem exec_unload (dt : Nat) (s : State) : exec (.unload dt) s = .next ((s.elapse dt).serve rqUnload State.unloadRq) := rfl
theorem exec_hold (dt : Nat) (s : State) : exec (.hold dt) s = .next ((s.elapse dt).serve rqHold State.holdRq) := rfl
theorem exec_release (dt : Nat) (s : State) : exec (.release dt) s = .next ((s.elapse dt).serve rqRelease State.releaseRq) := rfl

/-- The three commands serve requests that name a slot, and none of them is accepted while the slot is LOADING or UNLOADING. -/
theorem exec_jobCommand (dt : Nat) (s : State) :
    ∀ k ∈ [(Instr.unload dt, rqUnload), (.hold dt, rqHold), (.release dt, rqRelease)],
      ∃ (ok : JobSt → Bool) (f : Nat → State → State), ok .loading = false ∧ ok .unloading = false ∧
        exec k.1 s = .next ((s.elapse dt).serve k.2 (fun r => State.jobRq r ok f)) := by
  simp only [List.forall_mem_cons]
  exact ⟨⟨_, _, rfl, rfl, exec_unload dt s⟩, ⟨_, _, rfl, rfl, exec_hold dt s⟩, ⟨_, _, rfl, rfl, exec_release dt s⟩,
    List.forall_mem_nil _⟩

-- the statement

/-- Settles O33: no request, the checks of a LOAD in their order, what the three other requests share, and what each of them does.
That nothing more happens without a request is log entries 2 and 8. -/
theorem jobRequestsAreServed : Obligations.JobRequestsAreServed := by
  refine ⟨?_, ?_, ?_, ?_⟩
  case refine_1 =>
    rintro s b c dt rfl
    refine ⟨fun htake => ?_, fun htake => ?_, fun htake => ?_, fun htake => ?_⟩
    · rw [exec_load, State.serve_none htake]
    · rw [exec_unload, State.serve_none htake]
    · rw [exec_hold, State.serve_none htake]
    · rw [exec_release, State.serve_none htake]
  case refine_2 =>
    intro s b c dt p q e r x hb htake hr hx
    have hserve : exec (.load dt) s = .next (c.loadRq r) := by rw [exec_load, ← hb, State.serve_some htake, ← hr]
    have hjob : x = jobOf c.mem (rqField r.entry 0 8) := by rw [hx, hr]; rfl
    rw [hserve]
    refine ⟨fun a bit hdenied => ?_, fun hrights => ⟨fun hformat => ?_, fun hformat hgeometry => ?_,
      fun hformat hgeometry hnone => ?_, fun hformat hgeometry j hj hfree hlower => ⟨fun hmemory => ?_, fun hmemory => ?_⟩⟩⟩
    · rw [State.loadRq_denied hjob hdenied]
    · rw [State.loadRq_format hjob hrights hformat]; rfl
    · rw [State.loadRq_geometry hjob hrights hformat hgeometry]; rfl
    · rw [State.loadRq_noSlot ⟨hjob, hrights, hformat, hgeometry⟩ hnone]; rfl
    · rw [State.loadRq_memory ⟨hjob, hrights, hformat, hgeometry⟩ (State.find_lowestFree hj hfree hlower) hmemory]; rfl
    · have hslot : (c.modJob j (fun _ => c.loadedJob r x)).job j = c.loadedJob r x := by rw [State.modJob_job, if_pos rfl]
      have hloads : c.loadRq r = c.modJob j (fun _ => c.loadedJob r x) :=
        State.loadRq_loads ⟨hjob, hrights, hformat, hgeometry⟩ (State.find_lowestFree hj hfree hlower) hmemory
      refine ⟨_, congrArg _ hloads, by rw [hslot]; rfl, by rw [hslot, hr]; rfl, ?_, by rw [hslot]; rfl,
        fun i hi => by rw [State.modJob_job, if_neg hi], rfl, rfl, rfl⟩
      rw [hslot, hjob]
      exact jobOf_priority c.mem _
  case refine_3 =>
    intro s b c dt p q j e r hb hr hj k hk htake
    obtain ⟨ok, f, hloading, hunloading, hexec⟩ := exec_jobCommand dt s k hk
    have hserve : exec k.1 s = .next (c.jobRq r ok f) := by rw [hexec, ← hb, State.serve_some htake, ← hr]
    have hslot : j = rqField r.entry 0 1 % 8 := by rw [hj, hr]; rfl
    rw [hserve]
    refine ⟨fun hst => ?_, fun hst core hdenied => ?_, fun hst hrights => ?_⟩
    · rw [State.jobRq_free hslot hst]; rfl
    · rw [State.jobRq_denied hslot hst hdenied]; rfl
    · rcases hst with hst | hst
      · rw [State.jobRq_allowed hslot (by simp [hst]) hrights, hst, hloading]; rfl
      · rw [State.jobRq_allowed hslot (by simp [hst]) hrights, hst, hunloading]; rfl
  case refine_4 =>
    intro s b c dt p q j e r hb hr hj hrights
    have hslot : j = rqField r.entry 0 1 % 8 := by rw [hj, hr]; rfl
    refine ⟨fun htake hst => ?_, fun htake => ?_, fun htake => ?_⟩
    · have hserve : exec (.unload dt) s = .next (c.unloadRq r) := by rw [exec_unload, ← hb, State.serve_some htake, ← hr]
      have hused : (c.job j).st ≠ .free := by rcases hst with h | h | h | h <;> simp [h]
      rw [hserve, State.unloadRq, State.jobRq_allowed hslot hused hrights, if_pos (by simpa [or_assoc] using hst)]
      refine ⟨fun hrunning hstep => ?_, fun hidle => ?_⟩
      · simp only [hrunning, hstep, decide_true, Bool.and_self, if_true]; rfl
      · have hnow : ¬((decide ((c.job j).st = .running) && (c.job j).step.isSome) = true) := by
          rcases hidle with h | h <;> simp [h]
        rw [if_neg hnow]; rfl
    · have hserve : exec (.hold dt) s = .next (c.holdRq r) := by rw [exec_hold, ← hb, State.serve_some htake, ← hr]
      rw [hserve, State.holdRq]
      refine ⟨fun hst => ?_, fun hst => ?_, fun hst => ?_⟩
      · rw [State.jobRq_allowed hslot (by simp [hst]) hrights, hst, State.holdJob_ready hst]; rfl
      · rw [State.jobRq_allowed hslot (by simp [hst]) hrights, hst]; rfl
      · rcases hst with hst | hst <;> (rw [State.jobRq_allowed hslot (by simp [hst]) hrights, hst]; rfl)
    · have hserve : exec (.release dt) s = .next (c.releaseRq r) := by rw [exec_release, ← hb, State.serve_some htake, ← hr]
      rw [hserve, State.releaseRq]
      refine ⟨fun hst => ?_, fun hst => ?_⟩
      · rw [State.jobRq_allowed hslot (by simp [hst]) hrights, hst]; rfl
      · rcases hst with hst | hst | hst <;> (rw [State.jobRq_allowed hslot (by simp [hst]) hrights, hst]; rfl)

-- states that meet the hypotheses of its clauses

/-- A request with TAG 9 and the field waits alone on ring 0 of port A, whose completion ring is empty, and slot 0 is `x`. -/
def requestWaits (type : Byte) (field : Nat) (m : Mem) (x : Job) : State :=
  { State.reset with run := { State.reset.run with st := .ready }, jobs := tset [] 0 x
                     mem := m.write (ringAt 0 0 0) ([type, 0, 0, 0, 9, 0, 0, 0] ++ leBytes 8 field)
                     hosts := [(0, { rings := [(0, { enabled := true, sizeLog2 := 4, tail := 1 }),
                                               (8, { enabled := true, sizeLog2 := 4 })] })] }

/-- The status of the completion that stands first in the completion ring. -/
def State.answered (s : State) : Byte := s.mem.get (ringAt 0 8 0 + 1)

theorem witness_noRequest : exec (.load 0) State.reset = .next (State.reset.elapse 0) := by
  obtain ⟨hnone, -⟩ := jobRequestsAreServed
  exact (hnone State.reset _ _ 0 rfl).1 rfl

theorem witness_loadDenied : ∃ t, exec (.load 0) (requestWaits 1 0x100000 [] {}) = .next t ∧ t.answered = 0x0C := by
  obtain ⟨-, hload, -⟩ := jobRequestsAreServed
  obtain ⟨hdenied, -⟩ := hload (requestWaits 1 0x100000 [] {}) _ _ 0 _ _ _ _ _ rfl
    (State.takeRequest_next (p := 0) (q := 0) (by decide +kernel) (by decide +kernel) (by decide +kernel)) rfl rfl
  exact ⟨_, hdenied 0x100000 rightR (by decide +kernel), by decide +kernel⟩

theorem witness_unloadOfFreeSlot : ∃ t, exec (.unload 0) (requestWaits 2 0 [] {}) = .next t ∧ t.answered = 0x44 := by
  obtain ⟨-, -, hslot, -⟩ := jobRequestsAreServed
  obtain ⟨hfree, -⟩ := hslot (requestWaits 2 0 [] {}) _ _ 0 _ _ _ _ _ rfl rfl rfl (.unload 0, rqUnload) (by simp)
    (State.takeRequest_next (p := 0) (q := 0) (by decide +kernel) (by decide +kernel) (by decide +kernel))
  exact ⟨_, hfree (by decide +kernel), by decide +kernel⟩


/-- The record of a job on one core, without code, layers or key-value areas (R230, R231). -/
def smallRecord : Mem :=
  Mem.write (Mem.write [] 0x100000 (leBytes 4 0x10000 ++ leBytes 4 1920 ++ leBytes 8 0 ++ [1, 0, 0, 1] ++ leBytes 4 0 ++
    leBytes 4 2 ++ leBytes 4 2 ++ leBytes 8 0x1000000)) (0x100000 + 896 + 20)
    (leBytes 4 0x100000 ++ leBytes 12 0 ++ leBytes 4 0x10100000)

/-- The master of port A holds every right on HBM, on the store of core 0 and on its launches (R255, R256). -/
def State.allowPortA (s : State) : State :=
  [(0x3020, 2, hbmSize), (0x3020, 3, 0x1F002002), (0x3060, 2, storeSize), (0x3060, 3, 0x1F002002), (0x3071, 1, 0x1F002002)].foldl
    (fun s x => s.setVal x.1 x.2.1 x.2.2) s

def loadWaits : State := (requestWaits 1 0x100000 smallRecord {}).allowPortA

theorem witness_jobLoads : ∃ t, exec (.load 0) loadWaits = .next t ∧ (t.job 0).st = .loading ∧ t.out = [] := by
  obtain ⟨-, hload, -⟩ := jobRequestsAreServed
  obtain ⟨-, hrights⟩ := hload loadWaits _ _ 0 _ _ _ _ _ rfl
    (State.takeRequest_next (p := 0) (q := 0) (by decide +kernel) (by decide +kernel) (by decide +kernel)) rfl rfl
  obtain ⟨-, -, -, hslot⟩ := hrights (by decide +kernel)
  obtain ⟨-, hloads⟩ := hslot (by decide +kernel) (by decide +kernel) 0 (by decide) (by decide +kernel) (by decide)
  obtain ⟨t, ht, hst, -, -, -, -, -, -, hout⟩ := hloads (by decide +kernel)
  exact ⟨t, ht, hst, hout.trans (by decide +kernel)⟩

/-- Requests of the master of port A on its own job in slot 0: UNLOAD while a step of it runs, HOLD and RELEASE. -/
def unloadWaits : State := requestWaits 2 0 [] { st := .running, owner := 2, step := some {} }
def holdWaits : State := requestWaits 3 0 [] { st := .ready, owner := 2 }
def releaseWaits : State := requestWaits 4 0 [] { st := .held, owner := 2 }

theorem witness_unloadWaits : ∃ t, exec (.unload 0) unloadWaits = .next t ∧ (t.job 0).st = .running ∧ (t.job 0).after = 2 ∧
    t.answered = 0 := by
  obtain ⟨-, -, -, hserved⟩ := jobRequestsAreServed
  obtain ⟨hunload, -⟩ := hserved unloadWaits _ ((unloadWaits.elapse 0).consume 0 0) 0 0 0 0 ((unloadWaits.elapse 0).headEntry 0 0) _
    rfl rfl
    (by decide +kernel) (by decide +kernel)
  obtain ⟨hserve, -⟩ := hunload (State.takeRequest_next (by decide +kernel) (by decide +kernel) (by decide +kernel))
    (by decide +kernel)
  exact ⟨_, hserve (by decide +kernel) (by decide +kernel), by decide +kernel⟩

theorem witness_hold : ∃ t, exec (.hold 0) holdWaits = .next t ∧ (t.job 0).st = .held ∧ t.answered = 0 := by
  obtain ⟨-, -, -, hserved⟩ := jobRequestsAreServed
  obtain ⟨-, hhold, -⟩ := hserved holdWaits _ ((holdWaits.elapse 0).consume 0 0) 0 0 0 0 ((holdWaits.elapse 0).headEntry 0 0) _
    rfl rfl
    (by decide +kernel) (by decide +kernel)
  obtain ⟨hserve, -⟩ := hhold (State.takeRequest_next (by decide +kernel) (by decide +kernel) (by decide +kernel))
  exact ⟨_, hserve (by decide +kernel), by decide +kernel⟩

theorem witness_release : ∃ t, exec (.release 0) releaseWaits = .next t ∧ (t.job 0).st = .ready ∧ t.answered = 0 := by
  obtain ⟨-, -, -, hserved⟩ := jobRequestsAreServed
  obtain ⟨-, -, hrelease⟩ := hserved releaseWaits _ ((releaseWaits.elapse 0).consume 0 0) 0 0 0 0
    ((releaseWaits.elapse 0).headEntry 0 0) _ rfl rfl
    (by decide +kernel) (by decide +kernel)
  obtain ⟨hserve, -⟩ := hrelease (State.takeRequest_next (by decide +kernel) (by decide +kernel) (by decide +kernel))
  exact ⟨_, hserve (by decide +kernel), by decide +kernel⟩

end Sys2Proof.Machine
end

section
/-! Steps of jobs (R237, R238, R241, R289, R472, R504): what forms one, what starting it leaves of its job and its record, what its
end does to the stagger step and to a sampled token, and the statement O36. -/

namespace Sys2Proof.Machine

-- forming and reissuing a step

section
variable {s c : State} {j entry tag : Nat}

theorem exec_stepForm (dt entry : Nat) (tag : BitVec 32) (s : State) :
    exec (.stepForm dt entry tag) s = .next ((s.elapse dt).formStep entry tag.toNat) := rfl

theorem State.formStep_idle (hrun : s.sched.running = none) : s.formStep entry tag = s := by rw [State.formStep, hrun]

theorem State.formStep_waits (hrun : s.sched.running = some j) (hwait : (s.job j).step.isSome = true ∨ s.nextBatch j = []) :
    s.formStep entry tag = s := by
  rcases hwait with h | h <;> simp [State.formStep, hrun, h]

/-- The policy firmware may form a step of the job (R247). -/
structure State.MayForm (s : State) (j : Nat) (r : Record) : Prop where
  runs : s.sched.running = some j
  allowed : s.mayRunJobs = true
  running : (s.job j).st = .running
  ended : (s.job j).step = none
  fresh : (s.job j).reissue = none
  streams : s.nextBatch j ≠ []
  enough : s.gathered j (s.nextBatch j) = true
  unformed : ∀ l ∈ s.sched.launches, l.job = j → l.streams = []
  sound : s.recordOk r = true

theorem State.formStep_forms (h : s.MayForm j (s.formed j entry tag 0)) :
    s.formStep entry tag = (s.launchRecord (s.formed j entry tag 0) .firmware (s.nextBatch j)).2 := by
  have hpends : s.sched.launches.any (fun l => l.job = j && !l.streams.isEmpty) = false := by
    simpa using h.unformed
  simp [State.formStep, h.runs, h.allowed, h.running, h.ended, h.fresh, h.streams, h.enough, h.sound, hpends]

theorem exec_stepReissue (dt : Nat) (job : Fin 8) (tag : BitVec 32) (s : State) :
    exec (.stepReissue dt job tag) s = .next ((s.elapse dt).reissueStep job tag.toNat) := rfl

theorem State.reissueStep_none (hnone : (s.job j).reissue = none) : s.reissueStep j tag = s := by rw [State.reissueStep, hnone]

/-- The streams of a reissued step, with the vectors each gives: those of it still in the batch. -/
def State.reissueBatch (s : State) (j : Nat) (r : RunStep) : List (Nat × Nat) :=
  if r.streams.isEmpty then []
  else (r.streams.filter (fun y => (s.stream y.1).job = j && (s.stream y.1).st.batch)).map (fun y => (y.1, s.vectorsOf y.1))

theorem State.reissueStep_issues {r : RunStep} {x : Nat × State} (hr : (s.job j).reissue = some r) (hended : (s.job j).step = none)
    (hresident : (s.job j).st.resident = true) (hc : c = s.replaceUnits j r.worst)
    (hx : x = c.launchRecord (c.formed j r.entry tag (r.cores.map (fun i => 2 ^ i)).sum) .firmware (s.reissueBatch j r)) :
    s.reissueStep j tag = if tag = 0 ∨ x.1 ≠ 0 then s else x.2.modJob j (fun y => { y with reissue := none }) := by
  subst hx hc
  simp [State.reissueStep, hr, hended, hresident, State.reissueBatch, stOk]

end

-- the step that a job runs, across changes of what it has saved

/-- Every job has the step that it runs and the number of it as before. -/
def State.StepsKept (s t : State) : Prop := ∀ j, (t.job j).step = (s.job j).step ∧ (t.job j).stepNo = (s.job j).stepNo

section
variable {s t u : State}

theorem State.StepsKept.trans (h : s.StepsKept t) (k : t.StepsKept u) : s.StepsKept u := fun j =>
  ⟨(k j).1.trans (h j).1, (k j).2.trans (h j).2⟩

theorem State.StepsKept.of_keeps {l : List Part} (h : s.Keeps l t) (hp : .jobs ∉ l) : s.StepsKept t := fun j => by
  rw [h.job_eq j hp]
  exact ⟨rfl, rfl⟩

theorem State.StepsKept.refl (s : State) : s.StepsKept s := fun _ => ⟨rfl, rfl⟩

theorem State.StepsKept.foldl {α : Type} {f : State → α → State} (hf : ∀ (s : State) x, s.StepsKept (f s x)) (l : List α)
    (s : State) : s.StepsKept (l.foldl f s) := by
  induction l generalizing s with
  | nil => exact .refl s
  | cons x l ih => exact (hf s x).trans (ih (f s x))

/-- What a job has saved is no part of its step. -/
theorem State.modJob_saved_stepsKept (s : State) (i : Nat) (f : List SavedCore → List SavedCore) :
    s.StepsKept (s.modJob i (fun y => { y with saved := f y.saved })) := fun j => by
  rw [State.modJob_job]
  split
  · subst j; exact ⟨rfl, rfl⟩
  · exact ⟨rfl, rfl⟩

theorem State.modCore_stepsKept (s : State) (c : Nat) (f : Core → Core) : s.StepsKept (s.modCore c f) := fun _ => ⟨rfl, rfl⟩

theorem State.saveCore_stepsKept (s : State) (c : Nat) (banks : List SavedBank) : s.StepsKept (s.saveCore c banks) := by
  unfold State.saveCore
  extract_lets k
  split
  · exact .refl s
  · exact (s.modJob_saved_stepsKept _ (fun z => z.filter _ ++ [_])).trans
      (.of_keeps (State.clearCore_keeps (Within.refl _) c (.refl _ _)) (by decide))

theorem State.loadCore_stepsKept (s : State) (c j l : Nat) : s.StepsKept (s.loadCore c j l) := by
  unfold State.loadCore
  extract_lets m
  split
  case h_1 => exact s.modCore_stepsKept c _
  case h_2 n now _ x _ =>
    extract_lets move k v
    have hslots : k.StepsKept v := State.StepsKept.foldl (fun s (y : Nat × SavedSlot) =>
      .of_keeps (State.loadSlot_keeps (Within.refl _) c y.1 y.2 (.refl _ s)) (by decide)) _ k
    have htaken : s.StepsKept v := ((s.modCore_stepsKept c _).trans (m.modJob_saved_stepsKept j (fun z => z.filter _))).trans
      ((n.modCore_stepsKept c _).trans hslots)
    split
    · exact htaken.trans (v.modCore_stepsKept c _)
    · exact htaken

theorem State.moveRegion_stepsKept (s : State) (j a b n : Nat) (f : List SavedCore → List SavedCore) :
    s.StepsKept (({ s with mem := s.mem.move a b n } : State).modJob j (fun y => { y with saved := f y.saved })) :=
  State.modJob_saved_stepsKept { s with mem := s.mem.move a b n } j f

theorem State.restoreRegion_stepsKept (s : State) (j l : Nat) : s.StepsKept (s.restoreRegion j l) := by
  unfold State.restoreRegion
  extract_lets x
  split
  · split
    · exact s.moveRegion_stepsKept j _ _ _ (fun z => z.map _)
    · exact .refl s
  · exact .refl s

theorem State.turnCore_stepsKept (s : State) (c j l : Nat) : s.StepsKept (s.turnCore c j l) := by
  have hloads : ∀ s : State, s.StepsKept ((s.restoreRegion j l).loadCore c j l) := fun s =>
    (s.restoreRegion_stepsKept j l).trans (State.loadCore_stepsKept _ c j l)
  unfold State.turnCore
  split
  · exact hloads s
  · split
    · exact .refl s
    · extract_lets m x n
      have hregion : m.StepsKept n := by
        unfold n
        split
        · split
          · exact m.moveRegion_stepsKept j _ _ _ (fun z => z.map _)
          · exact .refl m
        · exact .refl m
      exact ((s.saveCore_stepsKept c []).trans hregion).trans (hloads n)

theorem State.beginCore_stepsKept (s : State) (c j : Nat) (r : RunStep) (sigma : Nat × Nat) (named : List Nat) :
    s.StepsKept (s.beginCore c j r sigma named) := by
  cases named with
  | nil => exact .refl s
  | cons l rest => exact (s.turnCore_stepsKept c j l).trans (State.modCore_stepsKept _ c _)

end

-- starting a step

/-- A record leaves the list as its step starts late or in time, and what the pails hold of its data is copied (R289, R290). -/
def State.takeLaunch (s : State) (j : Nat) (l : Launch) : State :=
  ((if l.time < s.ns then s.bump 0x2107 (if l.stretched then 5 else 4) 1 else s).dropLaunch j l.tag).pailCopy j l.tag

/-- The step of the record `l` as it begins (R237). -/
def State.stepOf (s : State) (j : Nat) (l : Launch) : RunStep :=
  { tag := l.tag, launch := l.time, deadline := l.deadline, entry := l.entry, cores := (s.job j).coresNamed l.cores
    streams := l.streams, startAt := s.up }

/-- The job runs the step, and its streams note the number of it. -/
def State.numberStep (s : State) (j : Nat) (l : Launch) : State :=
  let t := s.modJob j (fun x => { x with stepNo := x.stepNo + 1, step := some (s.stepOf j l) })
  l.streams.foldl (fun u n => u.modStream n.1 (fun c => { c with lastStep := (t.job j).stepNo })) t

/-- The cores of the step begin their parts of it. -/
def State.beginCores (s : State) (x : Job) (j : Nat) (l : Launch) (r : RunStep) : State :=
  (x.coresBound l.cores).foldl (fun s c =>
    s.beginCore c j r (s.stretch c) ((x.coresNamed l.cores).filter (fun i => (x.cores.getD i {}).bound = some c))) s

theorem State.startRecord_eq (s : State) (j : Nat) (l : Launch) :
    s.startRecord j l = ((s.takeLaunch j l).numberStep j l).beginCores ((s.takeLaunch j l).job j) j l
      ((s.takeLaunch j l).stepOf j l) := rfl

section
variable (s : State) (j : Nat) (l : Launch)

theorem State.takeLaunch_job (i : Nat) : (s.takeLaunch j l).job i = s.job i := by
  rw [State.takeLaunch, (State.pailCopy_keeps (Within.refl _) j l.tag (.refl _ _)).job_eq i (by decide), State.dropLaunch]
  show State.job (if _ then _ else _) i = _
  split
  · exact s.bump_job ..
  · rfl

theorem State.takeLaunch_launches :
    (s.takeLaunch j l).sched.launches = s.sched.launches.filter (fun y => !(y.job = j && y.tag = l.tag)) := by
  rw [State.takeLaunch, (State.pailCopy_keeps (Within.refl _) j l.tag (.refl _ _)).sched_eq (by decide), State.dropLaunch]
  split
  · rw [State.bump_sched]
  · rfl

theorem State.numberStep_keeps : s.Keeps [.jobs, .streams] (s.numberStep j l) :=
  keeps_foldl (State.modJob_keeps (by decide) j _ (.refl _ s)) fun _ n h => State.modStream_keeps (by decide) n.1 _ h

theorem State.numberStep_job : (s.numberStep j l).job j =
    { s.job j with stepNo := (s.job j).stepNo + 1, step := some (s.stepOf j l) } := by
  have hstreams : ∀ (t : State) (f : Stream → Stream), t.Keeps [.streams] (l.streams.foldl (fun u n => u.modStream n.1 f) t) :=
    fun t f => keeps_foldl (.refl _ t) fun _ n h => State.modStream_keeps (Within.refl _) n.1 f h
  rw [State.numberStep, (hstreams _ _).job_eq j (by decide), State.modJob_job, if_pos rfl]

theorem State.beginCores_stepsKept (x : Job) (r : RunStep) : s.StepsKept (s.beginCores x j l r) :=
  .foldl (fun s c => s.beginCore_stepsKept c j r _ _) _ s

theorem State.beginCores_keeps (x : Job) (r : RunStep) : s.Keeps [.mem, .cores, .engines, .jobs] (s.beginCores x j l r) :=
  keeps_foldl (.refl _ s) fun _ c h => State.beginCore_keeps (Within.refl _) c j r _ _ h

theorem State.startRecord_step : ((s.startRecord j l).job j).step = some ((s.takeLaunch j l).stepOf j l) ∧
    ((s.startRecord j l).job j).stepNo = (s.job j).stepNo + 1 := by
  obtain ⟨hstep, hno⟩ := ((s.takeLaunch j l).numberStep j l).beginCores_stepsKept j l ((s.takeLaunch j l).job j)
    ((s.takeLaunch j l).stepOf j l) j
  rw [State.startRecord_eq, hstep, hno, State.numberStep_job, State.takeLaunch_job]
  exact ⟨rfl, rfl⟩

theorem State.startRecord_launches :
    (s.startRecord j l).sched.launches = s.sched.launches.filter (fun y => !(y.job = j && y.tag = l.tag)) := by
  rw [State.startRecord_eq, (State.beginCores_keeps _ j l _ _).sched_eq (by decide),
    (State.numberStep_keeps _ j l).sched_eq (by decide), State.takeLaunch_launches]

end

/-- What becomes of a due record once the units stand: the checks 3 and 4 of R288 and the lateness, else its step starts. -/
def State.startDue (s : State) (j : Nat) (l : Launch) : State :=
  if l.cross && s.time.lock = .freeRun then (s.bump 0x2107 2 1).failLaunch l stLaunchUnlocked
  else if ((s.job j).coresBound l.cores).any s.mixedOn then (s.bump 0x2107 2 1).failLaunch l stLaunchMixed
  else if s.tooLate l then ((s.bump 0x2107 6 1).raise 0x0115 0 (j + stLate * 256)).failLaunch l stLate
  else s.startRecord j l

section
variable {s : State} {j : Nat} {l : Launch}

theorem exec_stepStart (dt : Nat) (job : Fin 8) (s : State) :
    exec (.stepStart dt job) s = .next ((s.elapse dt).startStep job) := rfl

theorem State.startStep_none (hnone : s.dueRecord j = none) : s.startStep j = s := by rw [State.startStep, hnone]

theorem State.startStep_waits (hdue : s.dueRecord j = some l) (hwait : (s.job j).st ≠ .running ∨ (s.job j).step.isSome = true) :
    s.startStep j = s := by
  rcases hwait with h | h <;> simp [State.startStep, hdue, h]

theorem State.startStep_due (hdue : s.dueRecord j = some l) (hst : (s.job j).st = .running) (hended : (s.job j).step = none)
    (hallowed : s.mayRunJobs = true) (hsaving : s.sched.saving ≠ some j) : s.startStep j = (s.replaceUnits j 0).startDue j l := by
  simp [State.startStep, hdue, hst, hended, hallowed, hsaving, State.startDue]

theorem State.startDue_unlocked (hcross : l.cross = true ∧ s.time.lock = .freeRun) :
    s.startDue j l = (s.bump 0x2107 2 1).failLaunch l stLaunchUnlocked := by
  rw [State.startDue, if_pos (by simpa using hcross)]

theorem State.startDue_mixed (hcross : ¬(l.cross = true ∧ s.time.lock = .freeRun))
    (hmixed : ((s.job j).coresBound l.cores).any s.mixedOn = true) :
    s.startDue j l = (s.bump 0x2107 2 1).failLaunch l stLaunchMixed := by
  rw [State.startDue, if_neg (by simpa using hcross), if_pos hmixed]

theorem State.startDue_whole (hcross : ¬(l.cross = true ∧ s.time.lock = .freeRun))
    (hwhole : ((s.job j).coresBound l.cores).any s.mixedOn = false) : s.startDue j l =
    if s.tooLate l then ((s.bump 0x2107 6 1).raise 0x0115 0 (j + stLate * 256)).failLaunch l stLate else s.startRecord j l := by
  rw [State.startDue, if_neg (by simpa using hcross), if_neg (by simp [hwhole])]

end

-- the end of a step

section
variable {s m d n : State} {j : Nat} {sampled : List (Nat × BitVec 32)} {pause : Nat} {r : RunStep}
  {x : State × Nat × List (Nat × Nat)}

theorem exec_stepEnd (dt : Nat) (job : Fin 8) (sampled : List (Nat × BitVec 32)) (pause : Nat) (s : State) :
    exec (.stepEnd dt job sampled pause) s = .next ((s.elapse dt).endStep job sampled pause) := rfl

theorem State.endStep_none (hnone : (s.job j).step = none) : s.endStep j sampled pause = s := by rw [State.endStep, hnone]

theorem State.endStep_waits (hbusy : ∃ c ∈ s.stepCores j, s.corePartDone j c = false) : s.endStep j sampled pause = s := by
  have hparts : (s.stepCores j).all (s.corePartDone j) = false := List.all_eq_false.2 (by simpa using hbusy)
  unfold State.endStep
  split
  · rfl
  · simp [hparts]

theorem State.endStep_ends (hr : (s.job j).step = some r) (hst : (s.job j).st = .running ∨ (s.job j).st = .faulted)
    (hparts : (s.stepCores j).all (s.corePartDone j) = true) (hm : m = s.markStretched j)
    (hx : x = if r.stopped = 0 then m.deliverTokens j r sampled else (m, 0, []))
    (hd : d = (x.1.clearStep j r).streamChanges j x.2.2)
    (hn : n = { d with sched := { d.sched with tokens := d.sched.tokens + x.2.1 } }) :
    s.endStep j sampled pause = ((((n.postStep j r.status x.2.1 (n.job j).stepNo).adjustStagger pause).placeLayers j
      (vectorSum r.streams)).checkpointAll.settleTakeover.boundary_ j).advance := by
  have hgo : ¬(!((s.job j).st = .running || (s.job j).st = .faulted) || !(s.stepCores j).all (s.corePartDone j)) = true := by
    rcases hst with h | h <;> simp [hparts, h]
  subst hn hd hx hm
  rw [State.endStep, hr]
  exact if_neg hgo

end

-- the stagger step (R504)

theorem State.adjustStagger_lanes (s : State) (p : Nat) : (s.adjustStagger p).sched.lanes = s.val 0x4005 2 :=
  State.setVal_val_other s 0x4005 5 _ 0x4005 2 (by decide)

theorem State.adjustStagger_step (s : State) (p : Nat) : (s.adjustStagger p).val 0x4005 5 =
    if !s.flag 0x4005 1 then 0
    else if s.val 0x4005 4 < p then min (s.val 0x4005 5 + 1) (s.val 0x4005 3)
    else if p < s.val 0x4005 4 / 2 then s.val 0x4005 5 - 1
    else s.val 0x4005 5 := State.setVal_val_same s 0x4005 5 _

-- a sampled token (R241)

/-- A completion that waits on the log, or is delivered, leaves of a stream all but whether it counts as unprotected (R339). -/
theorem State.logged_stream (s : State) (n : Nat) (item : LogItem) (owner : Nat) (ring : Option (Nat × Nat)) (e : List Byte)
    (k : Nat) : ∃ bare, (s.logged n item owner ring e).stream k = { s.stream k with bare := bare } := by
  have hbare : ∃ bare, (s.deliverBare n owner ring e).stream k = { s.stream k with bare := bare } := by
    rw [State.deliverBare, (State.postTo_keeps (Within.refl _) owner ring e (.refl _ _)).stream_eq k (by decide),
      State.modStream_stream]
    by_cases hk : k = n
    · subst k
      rw [if_pos rfl]
      by_cases hfree : (s.stream n).st = .free
      · exact ⟨_, if_pos hfree⟩
      · exact ⟨true, if_neg hfree⟩
    · exact ⟨_, if_neg hk⟩
  have hbranch : ∀ (c : Prop) [Decidable c] {x y : State}, (∃ bare, x.stream k = { s.stream k with bare := bare }) →
      (∃ bare, y.stream k = { s.stream k with bare := bare }) →
      ∃ bare, (if c then x else y).stream k = { s.stream k with bare := bare } := fun c _ _ _ hx hy => by
    split
    · exact hx
    · exact hy
  exact hbranch _ (hbranch _ ⟨_, rfl⟩ ⟨_, rfl⟩) (hbranch _ ⟨_, rfl⟩ hbare)

/-- A token counts down the BUDGET of its stream, and what the stream took over with an adoption is over. -/
def State.countToken (s : State) (n : Nat) : State :=
  (s.modStream n (fun c => { c with generated := (c.generated + 1) % 2 ^ 64, budget := c.budget - 1 })).modStream n
    (fun c => { c with adopted := false })

theorem State.countToken_stream (s : State) (n k : Nat) : (s.countToken n).stream k =
    if k = n then
      { s.stream n with generated := ((s.stream n).generated + 1) % 2 ^ 64, budget := (s.stream n).budget - 1, adopted := false }
    else s.stream k := by
  simp only [State.countToken, State.modStream_stream]
  split <;> rfl

theorem State.deliverToken_samples {s : State} {j n : Nat} (t : BitVec 32) (hst : (s.stream n).st = .active)
    (hjob : (s.stream n).job = j) (hprompt : (s.stream n).prompt = []) (hbudget : 0 < (s.stream n).budget) :
    ∃ owner ring e, s.deliverToken j n false (some t) = ((s.countToken n).logged n (.token t) owner ring e,
      some (idleReason ((s.stream n).budget - 1) ((s.job j).stopTokens.any (fun k => k = t.toNat)) (s.stream n).after)) := by
  unfold State.deliverToken
  simp only [hst, hjob, hprompt, Nat.ne_of_gt hbudget, bne_self_eq_false, List.isEmpty_nil, Bool.not_true, Bool.or_self,
    Bool.false_eq_true, if_false]
  exact ⟨_, _, _, rfl⟩

-- the statement

/-- Settles O36, one clause for each of the commands and one for the end's effect on the stagger step and on a sampled token. The
firmware's own record, BUDGET before a stop token before PAUSE, and the lanes in force are log entries 34 to 36. -/
theorem stepsFormStartAndEnd : Obligations.StepsFormStartAndEnd := by
  refine ⟨?_, ?_, ?_, ?_, ?_, ?_, ?_⟩
  case refine_1 =>
    rintro s b dt entry j tag r hb rfl
    rw [exec_stepForm, ← hb]
    refine ⟨fun hidle => ?_, fun hruns hallowed hst hended hfresh hstreams henough hunformed hsound => ?_, fun hruns hwait => ?_⟩
    · rw [State.formStep_idle hidle]
    · rw [State.formStep_forms ⟨hruns, hallowed, hst, hended, hfresh, hstreams, henough, hunformed, hsound⟩]
    · rw [State.formStep_waits hruns hwait]
  case refine_2 =>
    rintro s b c dt job l hb rfl
    rw [exec_stepStart, ← hb]
    refine ⟨fun hnone => ?_, fun hdue hwait => ?_, fun hdue hst hended hallowed hsaving => ?_⟩
    · rw [State.startStep_none hnone]
    · rw [State.startStep_waits hdue hwait]
    · rw [State.startStep_due hdue hst hended hallowed hsaving]
      refine ⟨fun hcross hfree => ?_, fun hlocked => ⟨fun hmixed => ?_, fun hwhole => ⟨fun hlate => ?_, fun hintime => ?_⟩⟩⟩
      · rw [State.startDue_unlocked ⟨hcross, hfree⟩]; rfl
      · rw [State.startDue_mixed hlocked hmixed]; rfl
      · rw [State.startDue_whole hlocked hwhole, if_pos hlate]; rfl
      · obtain ⟨hstep, hno⟩ := (b.replaceUnits job 0).startRecord_step job l
        rw [State.startDue_whole hlocked hwhole, if_neg (by simp [hintime])]
        exact ⟨_, rfl, rfl, hno, ⟨_, hstep, rfl, rfl, rfl, rfl, rfl⟩, State.startRecord_launches _ job l⟩
  case refine_3 =>
    intro s b dt pause job sampled hb hwait
    rw [exec_stepEnd, ← hb]
    rcases hwait with hnone | hbusy
    · rw [State.endStep_none hnone]
    · rw [State.endStep_waits hbusy]
  case refine_4 =>
    intro s b m d n dt pause job sampled r x hb hr hst hparts hm hgoes hstopped hd hn
    have hx : x = if r.stopped = 0 then m.deliverTokens job r sampled else (m, 0, []) := by
      split
      · exact hgoes ‹_›
      · exact hstopped ‹_›
    rw [exec_stepEnd, ← hb, State.endStep_ends hr hst hparts hm hx hd hn]
  case refine_5 =>
    intro s p
    rw [State.adjustStagger_step]
    refine ⟨s.adjustStagger_lanes p, fun hoff => by simp [hoff], fun hon => ?_⟩
    simp only [hon, Bool.not_true, Bool.false_eq_true, if_false]
    refine ⟨fun hover => if_pos hover, fun hunder => ?_, fun hlow hhigh => ?_⟩
    · rw [if_neg (by omega), if_pos hunder]
    · rw [if_neg (by omega), if_neg (by omega)]
  case refine_6 =>
    intro s j n t hst hjob hprompt hbudget
    obtain ⟨owner, ring, e, hdeliver⟩ := State.deliverToken_samples t hst hjob hprompt hbudget
    have hstream : ∀ k, ∃ bare, ((s.countToken n).logged n (.token t) owner ring e).stream k =
        { (s.countToken n).stream k with bare := bare } := State.logged_stream _ n _ owner ring e
    obtain ⟨bare, hsame⟩ := hstream n
    rw [State.countToken_stream, if_pos rfl] at hsame
    refine ⟨_, hdeliver, by rw [hsame], by rw [hsame], fun k hk => ?_⟩
    obtain ⟨bare, hother⟩ := hstream k
    rw [State.countToken_stream, if_neg hk] at hother
    rw [hother]
    exact ⟨rfl, rfl⟩
  case refine_7 =>
    intro s b c dt job tag r x hb
    rw [exec_stepReissue, ← hb]
    refine ⟨fun hnone => ?_, fun hr hended hresident hc hx => ?_⟩
    · rw [State.reissueStep_none hnone]
    · have htag : tag.toNat = 0 ↔ tag = 0 := by rw [← BitVec.toNat_inj]; rfl
      rw [State.reissueStep_issues hr hended hresident hc hx]
      exact ⟨fun hrefused => by rw [if_pos (hrefused.imp htag.2 id)],
        fun hnamed hok => by rw [if_neg (not_or.2 ⟨mt htag.1 hnamed, not_not.2 hok⟩)]⟩

-- states that meet the hypotheses of its clauses

/-- The device is READY and job 0 runs, with an ACTIVE stream and the pending records `l`. -/
def stepReady (x : Job) (l : List Launch) : State :=
  { State.reset with run := { State.reset.run with st := .ready }, jobs := [(0, { x with st := .running })]
                     sched := { running := some 0, launches := l }, streams := [(3, { st := .active, budget := 2 })] }

/-- 200 us after the last step's end one vector is enough (R247). -/
theorem witness_stepFormed : ∃ t, exec (.stepForm (200 * usPs) 7 5) (stepReady {} []) = .next t ∧
    t.sched.launches.map (fun l => (l.tag, l.entry, l.streams)) = [(5, 7, [(3, 1)])] := by
  obtain ⟨hform, -⟩ := stepsFormStartAndEnd
  obtain ⟨-, hforms, -⟩ := hform (stepReady {} []) _ (200 * usPs) 7 0 5 _ rfl rfl
  exact ⟨_, hforms rfl (by decide) rfl rfl rfl (by decide +kernel) (by decide +kernel) (by decide) (by decide +kernel),
    by decide +kernel⟩

/-- A record for 2 ns after power came, with a limit of 1 us. -/
def dueLaunch (cross : Bool) : Launch := { time := 2, tag := 5, entry := 7, lateLimit := 1, cross := cross, streams := [(3, 1)] }

theorem witness_stepStarts : ∃ t, exec (.stepStart (1002 * 1000) 0) (stepReady {} [dueLaunch false]) = .next t ∧
    (t.job 0).stepNo = 1 ∧ t.sched.launches = [] := by
  obtain ⟨-, hstart, -⟩ := stepsFormStartAndEnd
  obtain ⟨-, -, hdue⟩ := hstart (stepReady {} [dueLaunch false]) _ _ (1002 * 1000) 0 (dueLaunch false) rfl rfl
  obtain ⟨-, hlocked⟩ := hdue (by decide +kernel) rfl rfl (by decide) (by decide)
  obtain ⟨-, hwhole⟩ := hlocked (by decide)
  obtain ⟨-, hintime⟩ := hwhole (by decide +kernel)
  obtain ⟨t, ht, -, hno, -, hlaunches⟩ := hintime (by decide +kernel)
  exact ⟨t, ht, hno.trans (by decide +kernel), hlaunches.trans (by decide +kernel)⟩

theorem witness_stepLate : ∃ t, exec (.stepStart (1003 * 1000) 0) (stepReady {} [dueLaunch false]) = .next t ∧
    t.val 0x2107 6 = 1 ∧ (t.job 0).step = none := by
  obtain ⟨-, hstart, -⟩ := stepsFormStartAndEnd
  obtain ⟨-, -, hdue⟩ := hstart (stepReady {} [dueLaunch false]) _ _ (1003 * 1000) 0 (dueLaunch false) rfl rfl
  obtain ⟨-, hlocked⟩ := hdue (by decide +kernel) rfl rfl (by decide) (by decide)
  obtain ⟨-, hwhole⟩ := hlocked (by decide)
  obtain ⟨hlate, -⟩ := hwhole (by decide +kernel)
  exact ⟨_, hlate (by decide +kernel), by decide +kernel⟩

theorem witness_stepUnlocked : ∃ t, exec (.stepStart (1002 * 1000) 0) (stepReady {} [dueLaunch true]) = .next t ∧
    t.val 0x2107 2 = 1 ∧ (t.job 0).step = none := by
  obtain ⟨-, hstart, -⟩ := stepsFormStartAndEnd
  obtain ⟨-, -, hdue⟩ := hstart (stepReady {} [dueLaunch true]) _ _ (1002 * 1000) 0 (dueLaunch true) rfl rfl
  obtain ⟨hunlocked, -⟩ := hdue (by decide +kernel) rfl rfl (by decide) (by decide)
  exact ⟨_, hunlocked rfl (by decide +kernel), by decide +kernel⟩

/-- The step of a job that no core is bound to, with its stream. -/
def streamStep : RunStep := { tag := 5, streams := [(3, 1)] }

theorem witness_stepEnds : ∃ t, exec (.stepEnd 0 0 [(3, 77)] 51) (stepReady { step := some streamStep } []) = .next t ∧
    (t.job 0).step = none ∧ t.sched.tokens = 1 ∧ (t.stream 3).budget = 1 ∧ t.val 0x4005 5 = 1 := by
  obtain ⟨-, -, -, hend, -⟩ := stepsFormStartAndEnd
  exact ⟨_, hend (stepReady { step := some streamStep } []) _ _ _ _ 0 51 0 [(3, 77)] streamStep _ rfl rfl (.inl rfl)
    (by decide +kernel) rfl (fun _ => rfl) (fun hstopped => absurd rfl hstopped) rfl rfl, by decide +kernel⟩

theorem witness_tokenCounted : ∃ u, (stepReady {} []).deliverToken 0 3 false (some 77) = (u, some 0) ∧ (u.stream 3).budget = 1 := by
  obtain ⟨-, -, -, -, -, htoken, -⟩ := stepsFormStartAndEnd
  obtain ⟨u, hu, hbudget, -⟩ := htoken (stepReady {} []) 0 3 77 (by decide) (by decide) (by decide) (by decide)
  exact ⟨u, hu.trans (congrArg (fun k => (u, some k)) (by decide)), hbudget.trans (by decide)⟩

theorem witness_stepReissued : ∃ t, exec (.stepReissue 0 0 6) (stepReady { reissue := some streamStep } []) = .next t ∧
    (t.job 0).reissue = none ∧ t.sched.launches.map (fun l => (l.tag, l.streams)) = [(6, [(3, 1)])] := by
  obtain ⟨-, -, -, -, -, -, hreissue⟩ := stepsFormStartAndEnd
  obtain ⟨-, hissues⟩ := hreissue (stepReady { reissue := some streamStep } []) _ _ 0 0 6 streamStep _ rfl
  obtain ⟨-, hissued⟩ := hissues rfl rfl (by decide) rfl rfl
  exact ⟨_, hissued (by decide) (by decide +kernel), by decide +kernel⟩

end Sys2Proof.Machine
end

section
/-! Launch records (R253, R286 to R294): what each path serves, the checks of a record in their order, frames, lateness and
deadlines, and the statement O37. -/

namespace Sys2Proof.Machine

-- a record by each path (R253, R286)

section
variable {s c : State} {cancel : Bool} {d e : List Byte} {p q : Nat}

/-- LAUNCH_STEP and LAUNCH_CANCEL differ in the KIND they take alone. -/
theorem exec_launchKinds (dt : Nat) (path : LaunchPath) (s : State) :
    ∀ k ∈ [(Instr.launchStep dt, false), (.launchCancel dt, true)],
      exec (k.1 path) s = .next ((s.elapse dt).arriveRecord path k.2) := by
  simp only [List.forall_mem_cons]
  exact ⟨rfl, rfl, List.forall_mem_nil _⟩

theorem kind_ne_iff (n : Nat) (cancel : Bool) : ¬ (n = 2 ↔ cancel = true) ↔ (n = 2 ↔ cancel = false) := by
  cases cancel <;> simp

theorem State.arriveRecord_otherKind (hkind : field d 16 1 = 2 ↔ cancel = false) (m : Nat) :
    s.arriveRecord (.firmware d) cancel = s ∧ s.arriveRecord (.twin d) cancel = s ∧
      s.arriveRecord (.send m d) cancel = s := by
  have hmine := (kind_ne_iff (field d 16 1) cancel).2 hkind
  simp [State.arriveRecord, hmine]

theorem State.arriveRecord_firmware (hkind : field d 16 1 = 2 ↔ cancel = true) :
    s.arriveRecord (.firmware d) cancel = (s.launchRecord (Record.ofBytes d) .firmware []).2 := by
  simp [State.arriveRecord, hkind]

theorem State.arriveRecord_twin (hkind : field d 16 1 = 2 ↔ cancel = true) : s.arriveRecord (.twin d) cancel =
    if s.hearsTwin = true then (s.launchRecord (Record.ofBytes d) (.frame 4) []).2 else s := by
  simp [State.arriveRecord, hkind]

theorem State.arriveRecord_send (hkind : field d 16 1 = 2 ↔ cancel = true) (m : Nat) : s.arriveRecord (.send m d) cancel =
    (s.launchRecord (Record.ofBytes d) (.master m) []).2.done m none rqLaunch
      (s.launchRecord (Record.ofBytes d) (.master m) []).1 0 0 := by
  simp [State.arriveRecord, hkind]

theorem State.arriveRecord_ring (htake : s.takeRequest rqLaunch = (c, some (p, q, e))) (cancel : Bool) :
    s.arriveRecord .ring cancel = if field e 24 1 = 2 ↔ cancel = true then
      State.launchRq { m := 2 + p, ring := some (p, q), entry := e } c else s := by
  show s.serveLaunch cancel = _
  simp [State.serveLaunch, htake]

end

-- the checks of a record (R288)

section
variable {s : State} {r : Record} {m : Nat} {cs : List Nat}

theorem State.launchRecord_malformed (hbad : s.recordOk r = false) :
    s.launchRecord r (.master m) [] = (stReserved, s.refuseRecord r) := by
  simp [State.launchRecord, hbad]

theorem State.launchLacks_master (hrights : ∀ c ∈ cs, has (s.launchRights m c) rightLaunch = true) :
    s.launchLacks (.master m) cs = [] :=
  List.filter_eq_nil_iff.2 fun c hc => by simp [hrights c hc]

theorem State.launchRecord_denied (hok : s.recordOk r = true)
    (hcs : cs = if (s.job r.job).st.resident then (s.job r.job).coresBound r.cores else [])
    (hlacks : ∃ c ∈ cs, has (s.launchRights m c) rightLaunch = false) : (s.launchRecord r (.master m) []).1 = stAccess := by
  obtain ⟨c, hc, hno⟩ := hlacks
  have hmem : c ∈ s.launchLacks (.master m) cs := List.mem_filter.2 ⟨hc, by simp [hno]⟩
  obtain ⟨x, xs, hcons⟩ := List.exists_cons_of_ne_nil (List.ne_nil_of_mem hmem)
  simp [State.launchRecord, hok, ← hcs, hcons]

/-- A record that passes the first two checks takes the status of the others. -/
theorem State.launchRecord_granted (hok : s.recordOk r = true)
    (hcs : cs = if (s.job r.job).st.resident then (s.job r.job).coresBound r.cores else [])
    (hrights : ∀ c ∈ cs, has (s.launchRights m c) rightLaunch = true) : s.launchRecord r (.master m) [] =
      if s.recordRest r (r.flags = 1) cs ≠ 0 then (s.recordRest r (r.flags = 1) cs, s.refuseRecord r)
      else if r.kind = 2 then (0, s.acceptCancel r) else (0, s.acceptStep r (r.flags = 1) []) := by
  simp [State.launchRecord, hok, ← hcs, s.launchLacks_master hrights, Record.cross, stOk]

end

-- what acceptance leaves of the pending records

/-- A launch's data leaves the 16 pails and is counted there (R289, R291). -/
def State.emptyPails (s : State) (j tag : Nat) : State :=
  forRange 16 s (fun s c =>
    (s.bump (coreIdx c) 0x58 ((s.core c).pailOf j tag).length).modCore c (fun k => k.pailWithout j tag))

theorem State.emptyPails_sched (s : State) (j tag : Nat) : (s.emptyPails j tag).sched = s.sched :=
  (keeps_forRange (.refl [.od, .cores] s) fun _ _ h =>
    State.modCore_keeps (by decide) _ _ (State.bump_keeps (by decide) _ _ _ h)).sched_eq (by decide)

theorem State.closeLaunch_launches (s : State) (j tag : Nat) : (s.closeLaunch j tag).sched.launches = s.sched.launches := by
  unfold State.closeLaunch
  extract_lets emptied
  have h : emptied.sched.launches = s.sched.launches := congrArg Sched.launches (s.emptyPails_sched j tag)
  clear_value emptied
  split <;> exact h

theorem State.acceptCancel_launches (s : State) (r : Record) : (s.acceptCancel r).sched.launches =
    s.sched.launches.filter (fun l => !(l.job = r.job && l.tag = r.tag)) := by
  rw [State.acceptCancel, State.bump_sched, State.closeLaunch_launches]
  rfl

/-- The record that pends once a STEP record is accepted (R287, R289). -/
def Record.launch (r : Record) (cross : Bool) (streams : List (Nat × Nat)) : Launch :=
  { time := timeNs r.time, tag := r.tag, job := r.job, cross := cross, cores := r.cores, epoch := r.epoch
    entry := r.entry, lateLimit := r.lateLimit, deadline := r.deadline, streams := streams }

theorem State.acceptStep_launches (s : State) (r : Record) (cross : Bool) (streams : List (Nat × Nat)) :
    (s.acceptStep r cross streams).sched.launches = s.sched.launches ++ [r.launch cross streams] := by
  rw [State.acceptStep, State.bump_sched, (State.adoptOrphans_keeps (Within.refl _) r.job r.tag (.refl _ _)).sched_eq (by decide)]
  rfl

-- frames (R292)

section
variable {s : State} {port m dport : Nat} {src : BitVec 128} {d : List Byte}

theorem exec_launchFrame (dt : Nat) (port : Fin 128) (src : BitVec 128) (dport : BitVec 16) (d : List Byte) (s : State) :
    exec (.launchFrame dt port src dport d) s = .next ((s.elapse dt).launchFrame port src dport.toNat d) := rfl

theorem State.launchFrame_unheard
    (h : (s.unit (portRef port)).works = false ∨ dport ≠ s.val 0x2106 1 ∨ s.flag 0x2106 2 = false) :
    s.launchFrame port src dport d = s := by
  rcases h with h | h | h <;> simp [State.launchFrame, h]

theorem State.launchFrame_heard (hworks : (s.unit (portRef port)).works = true) (hport : dport = s.val 0x2106 1)
    (hon : s.flag 0x2106 2 = true) (htwin : s.twinPort port = false) (hpeer : frameOk d = true → s.peerMaster src = some m) :
    s.launchFrame port src dport d = if frameOk d = false then s.bump 0x2107 2 1 else
      forRange (field d 3 1) s
        (fun c i => (c.launchRecord (Record.ofBytes ((d.drop (8 + 32 * i)).take 32)) (.frame m) []).2) := by
  cases hok : frameOk d with
  | false => simp [State.launchFrame, hworks, hport, hon, htwin, hok]
  | true => simp [State.launchFrame, hworks, hport, hon, htwin, hok, hpeer hok]

end

-- lateness and deadlines (R289, R294)

section
variable {s : State} {j tag : Nat} {l : Launch} {r : RunStep}

theorem exec_launchLate (dt : Nat) (job : Fin 8) (tag : BitVec 32) (s : State) :
    exec (.launchLate dt job tag) s = .next ((s.elapse dt).launchLate job tag.toNat) := rfl

theorem State.launchLate_none (hnone : s.pendingLaunch j tag = none) : s.launchLate j tag = s := by rw [State.launchLate, hnone]

theorem State.launchLate_pending (hl : s.pendingLaunch j tag = some l) : s.launchLate j tag =
    if s.tooLate l = true then ((s.bump 0x2107 6 1).raise 0x0115 0 (j + stLate * 256)).failLaunch l stLate else s := by
  rw [State.launchLate, hl]

theorem State.tooLate_iff : s.tooLate l = true ↔
    l.lateLimit ≠ 0 ∧ l.time + 1000 * l.lateLimit < s.ns ∧ s.lateCounts l = true := by
  simp [State.tooLate, and_assoc]

theorem exec_stepDeadline (dt : Nat) (job : Fin 8) (s : State) :
    exec (.stepDeadline dt job) s = .next ((s.elapse dt).stepDeadline job) := rfl

/-- A step beyond its deadline has LATE among what went wrong with it. -/
def State.markLate (s : State) (j : Nat) : State :=
  s.modJob j (fun x => { x with step := x.step.map (fun y =>
    { y with worst := if y.worst = 0 || worse y.worst stLate then stLate else y.worst }) })

theorem State.stepDeadline_runs (hr : (s.job j).step = some r) : s.stepDeadline j =
    if r.deadline = 0 ∨ r.stopped ≠ 0 ∨ (s.ns - r.launch) * (s.sigmaMax j).2 < r.deadline * 100000 * (s.sigmaMax j).1 then s
    else ((s.markLate j).bump 0x2107 6 1).stopStep j 3 stLate r.failAddr := by
  simp [State.stepDeadline, hr, State.markLate, or_assoc]

end

-- the statement

/-- Settles O37: the paths of a record in its first three clauses, then its checks, frames, lateness and deadlines. That a SEND is
answered with TAG 0 is log entry 53, and that a record of the other KIND is left where it is is log entry 2. -/
theorem launchRecordsAreChecked : Obligations.LaunchRecordsAreChecked := by
  refine ⟨?otherKind, ?paths, ?ring, ?checks, ?frames, ?late, ?deadline⟩
  case otherKind =>
    intro s b dt m d hb k hk hkind
    obtain ⟨hfirmware, htwin, hsend⟩ := State.arriveRecord_otherKind (s := b) hkind m
    rw [exec_launchKinds dt _ s k hk, exec_launchKinds dt _ s k hk, exec_launchKinds dt _ s k hk, ← hb, hfirmware, htwin, hsend]
    exact ⟨rfl, rfl, rfl⟩
  case paths =>
    intro s b dt m d hb k hk hkind
    rw [exec_launchKinds dt _ s k hk, exec_launchKinds dt _ s k hk, exec_launchKinds dt _ s k hk, ← hb,
      State.arriveRecord_firmware hkind, State.arriveRecord_twin hkind, State.arriveRecord_send hkind]
    exact ⟨rfl, fun hhears => by rw [if_pos hhears], fun hdeaf => by rw [hdeaf]; rfl, rfl⟩
  case ring =>
    rintro s b c dt p q e r hb htake rfl k hk
    rw [exec_launchKinds dt _ s k hk, ← hb, State.arriveRecord_ring htake]
    exact ⟨fun hkind => by rw [if_pos hkind]; rfl, fun hkind => by rw [if_neg ((kind_ne_iff _ _).2 hkind)]⟩
  case checks =>
    intro s r m cs hcs
    refine ⟨State.launchRecord_malformed, fun hok => ⟨State.launchRecord_denied hok hcs, fun hrights => ?_⟩⟩
    rw [State.launchRecord_granted hok hcs hrights]
    refine ⟨fun hrest => if_pos hrest, fun hrest hcancel => ⟨?_, s.acceptCancel_launches r⟩, fun hrest hstep => ?_⟩
    · rw [if_neg (not_not.2 hrest), if_pos hcancel]
    · rw [if_neg (not_not.2 hrest), if_neg (by omega)]
      exact ⟨_, _, rfl, s.acceptStep_launches r _ [], rfl, rfl, rfl, rfl, rfl, rfl⟩
  case frames =>
    intro s b dt port src dport d hb
    rw [exec_launchFrame, ← hb]
    refine ⟨fun hunheard => by rw [State.launchFrame_unheard hunheard], fun hworks hport hon htwin => ⟨fun hbad => ?_,
      fun hok m hpeer => ?_⟩⟩
    · rw [State.launchFrame_heard (m := 0) hworks hport hon htwin (fun hok => by simp [hbad] at hok), if_pos hbad]
    · rw [State.launchFrame_heard hworks hport hon htwin (fun _ => hpeer), if_neg (by simp [hok])]
  case late =>
    intro s b dt job tag l hb
    rw [exec_launchLate, ← hb]
    refine ⟨fun hnone => by rw [State.launchLate_none hnone], fun hl => ?_⟩
    rw [State.launchLate_pending hl]
    refine ⟨fun hintime => ?_, fun hlimit hlate hcounts => ?_⟩
    · rw [if_neg]
      rw [State.tooLate_iff]
      rintro ⟨hlimit, hlate, hcounts⟩
      rcases hintime with h | h | h
      · exact hlimit h
      · omega
      · simp [hcounts] at h
    · rw [if_pos (State.tooLate_iff.2 ⟨hlimit, hlate, hcounts⟩)]
      rfl
  case deadline =>
    intro s b dt job r hb hr
    rw [exec_stepDeadline, ← hb, State.stepDeadline_runs hr]
    refine ⟨fun hkept => by rw [if_pos hkept], fun hdeadline hruns hover => ?_⟩
    rw [if_neg (not_or.2 ⟨hdeadline, not_or.2 ⟨not_not.2 hruns, Nat.not_lt.2 hover⟩⟩)]
    rfl

-- states that meet the hypotheses of its clauses

/-- A record of job 0 with TAG 5, of KIND STEP (1) or CANCEL (2). -/
def tagFive (kind : Byte) : List Byte := leBytes 12 0 ++ leBytes 4 5 ++ [kind] ++ List.replicate 15 0

/-- A record of the other KIND is left, and one of its own is served. -/
theorem witness_recordByFirmware :
    exec (.launchStep 0 (.firmware (tagFive 2))) (stepReady {} []) = .next ((stepReady {} []).elapse 0) ∧
    ∃ t, exec (.launchStep 0 (.firmware (tagFive 1))) (stepReady {} []) = .next t ∧
      t.sched.launches.map (fun l => l.tag) = [5] := by
  obtain ⟨hother, hpaths, -⟩ := launchRecordsAreChecked
  obtain ⟨hleft, -⟩ := hother (stepReady {} []) _ 0 0 (tagFive 2) rfl (.launchStep 0, false) (.head _) (by decide)
  obtain ⟨hserved, -⟩ := hpaths (stepReady {} []) _ 0 0 (tagFive 1) rfl (.launchStep 0, false) (.head _) (by decide)
  exact ⟨hleft, _, hserved, by decide⟩

/-- The same device as one of a pair, with time LOCKED. -/
def pairedStepReady : State := { stepReady {} [dueLaunch false] with twin := { st := .paired }, time := { lock := .locked } }

/-- The twin of a pair cancels a record; a twin that stands alone does not. -/
theorem witness_recordByTwin : (∃ t, exec (.launchCancel 0 (.twin (tagFive 2)))
      pairedStepReady = .next t ∧ t.sched.launches = []) ∧
    ∃ t, exec (.launchCancel 0 (.twin (tagFive 2))) (stepReady {} [dueLaunch false]) = .next t ∧
      t.sched.launches = [dueLaunch false] := by
  obtain ⟨-, hpaths, -⟩ := launchRecordsAreChecked
  obtain ⟨-, hpaired, -⟩ := hpaths pairedStepReady _ 0 0 (tagFive 2) rfl
    (.launchCancel 0, true) (.tail _ (.head _)) (by decide)
  obtain ⟨-, -, halone, -⟩ := hpaths (stepReady {} [dueLaunch false]) _ 0 0 (tagFive 2) rfl (.launchCancel 0, true)
    (.tail _ (.head _)) (by decide)
  exact ⟨⟨_, hpaired rfl, by decide +kernel⟩, _, halone rfl, rfl⟩

/-- TAG 0 is refused; TAG 5 pends, or is taken out. -/
theorem witness_recordChecked :
    ((stepReady {} []).launchRecord { Record.ofBytes (tagFive 1) with tag := 0 } (.master 1) []).1 = 0x01 ∧
    ((stepReady {} []).launchRecord (Record.ofBytes (tagFive 1)) (.master 1) []).1 = 0 ∧
    ((stepReady {} [dueLaunch false]).launchRecord (Record.ofBytes (tagFive 2)) (.master 1) []).1 = 0 := by
  obtain ⟨-, -, -, hchecks, -⟩ := launchRecordsAreChecked
  obtain ⟨hbad, -⟩ := hchecks (stepReady {} []) { Record.ofBytes (tagFive 1) with tag := 0 } 1 _ rfl
  obtain ⟨-, hok⟩ := hchecks (stepReady {} []) (Record.ofBytes (tagFive 1)) 1 _ rfl
  obtain ⟨-, hrights⟩ := hok (by decide)
  obtain ⟨-, -, hstep⟩ := hrights (by decide)
  obtain ⟨t, -, ht, -⟩ := hstep (by decide) (by decide)
  obtain ⟨-, hok'⟩ := hchecks (stepReady {} [dueLaunch false]) (Record.ofBytes (tagFive 2)) 1 _ rfl
  obtain ⟨-, hrights'⟩ := hok' (by decide)
  obtain ⟨-, hcancel, -⟩ := hrights' (by decide)
  obtain ⟨ht', -⟩ := hcancel (by decide) (by decide)
  exact ⟨by rw [hbad (by decide)], by rw [ht], by rw [ht']⟩

/-- P3 is READY and launch frames are enabled at the launch port. -/
def launchPortOn : State := ((State.reset.modUnit (portRef 3) (fun u => { u with st := .ready })).setVal 0x2106 2 1)

theorem witness_frameBroken : ∃ t,
    exec (.launchFrame 0 3 0 (BitVec.ofNat 16 (launchPortOn.val 0x2106 1)) []) launchPortOn = .next t ∧ t.val 0x2107 2 = 1 := by
  obtain ⟨-, -, -, -, hframes, -⟩ := launchRecordsAreChecked
  obtain ⟨-, hheard⟩ := hframes launchPortOn _ 0 3 0 (BitVec.ofNat 16 (launchPortOn.val 0x2106 1)) [] rfl
  obtain ⟨hbroken, -⟩ := hheard (by decide) (by decide) (by decide) (by decide)
  exact ⟨_, hbroken (by decide), by decide⟩

/-- 1 us after its time a record still waits; a nanosecond later it is abandoned. -/
theorem witness_recordLate : (∃ t, exec (.launchLate (1002 * 1000) 0 5) (stepReady {} [dueLaunch false]) = .next t ∧
      t.sched.launches = [dueLaunch false]) ∧
    ∃ t, exec (.launchLate (1003 * 1000) 0 5) (stepReady {} [dueLaunch false]) = .next t ∧ t.sched.launches = [] := by
  obtain ⟨-, -, -, -, -, hlate, -⟩ := launchRecordsAreChecked
  obtain ⟨-, hwaits⟩ := hlate (stepReady {} [dueLaunch false]) _ (1002 * 1000) 0 5 (dueLaunch false) rfl
  obtain ⟨hintime, -⟩ := hwaits (by decide)
  obtain ⟨-, hpends⟩ := hlate (stepReady {} [dueLaunch false]) _ (1003 * 1000) 0 5 (dueLaunch false) rfl
  obtain ⟨-, hover⟩ := hpends (by decide)
  exact ⟨⟨_, hintime (.inr (.inl (by decide))), rfl⟩,
    _, hover (by decide) (by decide) (by decide +kernel), by decide +kernel⟩

/-- Job 0 runs a step with a DEADLINE of 1, which is 100 us from the launch. -/
def deadlineStep : State := stepReady { step := some { streamStep with deadline := 1 } } []

theorem witness_stepDeadline :
    (∃ t, exec (.stepDeadline (99 * usPs) 0) deadlineStep = .next t ∧ t.val 0x2107 6 = 0) ∧
    ∃ t, exec (.stepDeadline (100 * usPs) 0) deadlineStep = .next t ∧ t.val 0x2107 6 = 1 := by
  obtain ⟨-, -, -, -, -, -, hdeadline⟩ := launchRecordsAreChecked
  obtain ⟨hruns, -⟩ := hdeadline deadlineStep _ (99 * usPs) 0
    { streamStep with deadline := 1 } rfl rfl
  obtain ⟨-, hover⟩ := hdeadline deadlineStep _ (100 * usPs) 0
    { streamStep with deadline := 1 } rfl rfl
  exact ⟨⟨_, hruns (.inr (.inr (by decide))), by decide⟩,
    _, hover (by decide) rfl (by decide), by decide⟩

end Sys2Proof.Machine
end

section
/-! Cartridge bays (R333, R477, R478, R481) and the HELLO that waits (R270, R328): what a unit that leaves service changes, what
opening and latching a bay come to, and the statement O59. -/

namespace Sys2Proof.Machine

-- folds and tables

/-- What no step of a fold changes is read after it as before. -/
theorem foldl_reads {α β γ : Type} (read : β → γ) {f : β → α → β} (hf : ∀ s x, read (f s x) = read s) (xs : List α)
    (s : β) : read (xs.foldl f s) = read s := by
  induction xs generalizing s with
  | nil => rfl
  | cons x xs ih => exact (ih _).trans (hf s x)

theorem tget_map_if {α : Type} [Inhabited α] (p : Nat → Bool) {f : α → α} (hf : f default = default) (t : Tbl α)
    (i : Nat) : tget (t.map (fun x => if p x.1 then (x.1, f x.2) else x)) i = if p i then f (tget t i) else tget t i := by
  induction t with
  | nil => exact (by split <;> simp [tget, tgetD, hf])
  | cons x t ih =>
    obtain ⟨k, a⟩ := x
    by_cases hk : i = k
    · subst i
      cases hp : p k <;> simp [tget, tgetD, hp]
    · cases hp : p k <;> simpa [tget, tgetD, hp, hk] using ih

-- references of cores, cartridges and ports

theorem bayCore_lt (l : Fin 8) {c : Nat} (hc : c ∈ [2 * l.val, 2 * l.val + 1]) : c < 16 := by
  have hl := l.isLt
  simp only [List.mem_cons, List.not_mem_nil, or_false] at hc
  omega

theorem coreRef_ne_portRef {c : Nat} (hc : c < 16) (n : Nat) : coreRef c ≠ portRef n := by
  simp only [coreRef, portRef]; omega

theorem coreRef_ne_cartRef {c : Nat} (hc : c < 16) (l : Nat) : coreRef c ≠ cartRef l := by
  simp only [coreRef, cartRef]; omega

theorem coreRef_ne_engineRef {c : Nat} (hc : c < 16) (d e : Nat) : coreRef c ≠ engineRef d e := by
  simp only [coreRef, engineRef]; omega

theorem coreRef_inj {c d : Nat} : coreRef c = coreRef d ↔ c = d := by simp only [coreRef]; omega

theorem cartRef_ne_coreRef {c : Nat} (hc : c < 16) (l : Nat) : cartRef l ≠ coreRef c := (coreRef_ne_cartRef hc l).symm

theorem cartRef_ne_portRef (l : Fin 8) {n : Nat} (hn : n < 128) : cartRef l ≠ portRef n := by
  simp only [cartRef, portRef]; omega

theorem cartPorts_lt (l : Fin 8) {n : Nat} (hn : n ∈ cartPorts l) : n < 128 := by
  obtain ⟨i, hi, rfl⟩ := List.mem_map.1 hn
  have := l.isLt
  have := List.mem_range.1 hi
  omega

-- a unit that leaves service (R472)

theorem State.leave_units (s : State) (r : Nat) (st : UnitSt) :
    (s.leave r st).units = tmod s.units r (fun u => { u with st := st }) := by
  have husers : (s.abandonUsers r).units = s.units := (State.abandonUsers_keeps (Within.refl _) r (.refl _ s)).units_eq (by decide)
  have hput : ((s.abandonUsers r).putUnit r st).units = tmod s.units r (fun u => { u with st := st }) := by
    rw [State.putUnit, State.modUnit, husers]
  have hengine : ∀ (t : State) (c e : Nat) (f : Engine → Engine),
      (((t.endPasses c e stEngineFault).abandonWrite c e).modEng c e f).units = t.units := fun t c e f => by
    rw [State.modEng_units, State.endsEngine_units]
  unfold State.leave
  split
  · rw [← hput]; exact hengine _ _ _ _
  · split
    · rw [← hput]; exact foldl_reads State.units (fun t e => hengine t _ e _) _ _
    · exact hput

theorem Core.part_warmStep (k : Core) (n q status : Nat) : (k.part n q status).warmStep = k.warmStep := by
  unfold Core.part
  extract_lets rest k'
  split
  · rfl
  · dsimp only
    split <;> rfl

theorem State.part_warmStep (s : State) (c n q status x : Nat) :
    ((s.part c n q status).core x).warmStep = (s.core x).warmStep := by
  rw [State.part, State.modCore_core]
  split
  · subst x; exact Core.part_warmStep _ n q status
  · rfl

theorem State.stopStep_warmStep (s : State) (j cls status addr x : Nat) :
    ((s.stopStep j cls status addr).core x).warmStep = (s.core x).warmStep := by
  have hcancel : ∀ (t : State) (c : Nat), ((t.modCore c Core.cancelUnstarted).core x).warmStep = (t.core x).warmStep := by
    intro t c
    rw [State.modCore_core]
    split
    · subst x; rfl
    · rfl
  unfold State.stopStep
  extract_lets was s1 s2
  have h2 : (s2.core x) = s.core x := by
    unfold s2
    split
    · exact State.raise_core _ _ _ _ _
    · rfl
  rw [foldl_reads (fun t : State => (t.core x).warmStep) hcancel, h2]

theorem State.endPasses_warmStep (s : State) (c e status x : Nat) :
    ((s.endPasses c e status).core x).warmStep = (s.core x).warmStep :=
  foldl_reads (fun t : State => (t.core x).warmStep) (fun t n => t.part_warmStep c n e status x) _ _

theorem State.abandonWrite_warmStep (s : State) (c e x : Nat) :
    ((s.abandonWrite c e).core x).warmStep = (s.core x).warmStep := by
  have hpart : ∀ (t : State) (o : Option Nat), ((match o with
      | some n => t.part c n e stEngineFault
      | none => t).core x).warmStep = (t.core x).warmStep := fun t o => by
    cases o
    · rfl
    · exact t.part_warmStep c _ e _ x
  unfold State.abandonWrite
  extract_lets g s1 s2
  have h2 : (s2.core x).warmStep = (s.core x).warmStep := by
    unfold s2
    split
    · rfl
    · extract_lets s3
      have h3 : (s3.core x).warmStep = (s.core x).warmStep := by
        unfold s3
        split <;> rfl
      exact (hpart s3 _).trans h3
  split
  · exact (hpart s2 _).trans h2
  · exact h2

theorem State.leave_warmStep (s : State) (r : Nat) (st : UnitSt) (x : Nat) :
    ((s.leave r st).core x).warmStep = (s.core x).warmStep := by
  have husers : ((s.abandonUsers r).core x).warmStep = (s.core x).warmStep :=
    foldl_reads (fun t : State => (t.core x).warmStep) (fun t j => t.stopStep_warmStep j 2 0 0 x) _ _
  have hengine : ∀ (t : State) (c e : Nat) (f : Engine → Engine),
      ((((t.endPasses c e stEngineFault).abandonWrite c e).modEng c e f).core x).warmStep = (t.core x).warmStep := fun t c e f =>
    (State.abandonWrite_warmStep _ c e x).trans (State.endPasses_warmStep _ c e _ x)
  unfold State.leave
  rw [← husers]
  split
  · exact hengine _ _ _ _
  · split
    · exact foldl_reads (fun t : State => (t.core x).warmStep) (fun t e => hengine t _ e _) _ _
    · rfl

/-- A unit leaves for a reason that no automatic test would find (R477). -/
def State.takeOut (s : State) (r : Nat) : State := (s.leave r .fenced).modUnit r (fun u => { u with autoTested := true })

theorem State.takeOut_unit (s : State) (r x : Nat) : (s.takeOut r).unit x = if x = r then .fenced else s.unit x := by
  rw [State.takeOut, State.modUnit_unit]
  have hunits : ∀ y, tget (s.leave r .fenced).units y =
      if y = r then { tget s.units r with st := .fenced } else tget s.units y := fun y => by rw [State.leave_units, tget_tmod]
  split
  · rw [hunits, if_pos rfl]
  · rename_i hx
    rw [State.unit, hunits, if_neg hx]
    rfl

theorem State.takeOut_keeps {pts : List Part} (hw : Within [.od, .units, .cores, .engines, .jobs, .hosts, .events] pts)
    {bef s : State} (r : Nat) (h : bef.Keeps pts s) : bef.Keeps pts (s.takeOut r) :=
  State.modUnit_keeps (hw.sub (by decide)) _ _ (State.leave_keeps hw _ _ h)

theorem State.takeOut_warmStep (s : State) (r x : Nat) : ((s.takeOut r).core x).warmStep = (s.core x).warmStep :=
  s.leave_warmStep r .fenced x

-- the parts of opening a bay (R477)

/-- The bay of a cartridge is open. -/
def State.openBay (s : State) (l : Nat) : State := s.modCart l (fun k => { k with latch := 2, openedAt := s.up })

/-- The ports of a cartridge are withdrawnParts, and it leaves service. -/
def State.withdrawCart (s : State) (l : Nat) : State :=
  let s := (s.bump (0x5800 + l) 8 1).withdrawPorts l
  if s.unit (cartRef l) = .starting || (s.unit (cartRef l)).works then s.takeOut (cartRef l) else s

/-- A core leaves service with its cartridge. -/
def State.withdrawCore (s : State) (c : Nat) : State :=
  if s.unit (coreRef c) = .starting || (s.unit (coreRef c)).works then
    (s.modCore c (fun k => { k with warmStep := 0 })).takeOut (coreRef c)
  else s

/-- A loop that runs goes to HOLD. -/
def State.pauseLoop (s : State) (c slot : Nat) : State := if (s.loop c slot).st.runs then s.loopTo c slot .hold else s

/-- The loops of a cartridge, on their host core. -/
def State.pauseCart (s : State) (h : Nat) : State := (List.range 17).foldl (fun s k => s.pauseLoop h (1124 + k)) s

/-- The loops of both cores follow their units, and WARMING ends where nothing is left to wait for. -/
def State.settleBay (s : State) (l : Nat) : State := ((s.holdLoops (2 * l)).holdLoops (2 * l + 1)).checkWarm

theorem exec_cartridgeUnlatch (dt : Nat) (l : Fin 8) (s : State) :
    exec (.cartridgeUnlatch dt l) s = .next ((s.elapse dt).unlatchCart l) := rfl

theorem State.unlatchCart_closed {s : State} {l : Nat} (h : (s.cart l).latch ≠ 1) : s.unlatchCart l = s := by
  simp [State.unlatchCart, h]

theorem State.unlatchCart_off {s : State} {l : Nat} (h : (s.cart l).latch = 1) (hoff : s.run.st = .off) :
    s.unlatchCart l = s.openBay l := by
  simp [State.unlatchCart, h, hoff, State.openBay]

theorem State.unlatchCart_opens {s : State} {l : Nat} (h : (s.cart l).latch = 1) (hon : s.run.st ≠ .off) {t : State}
    (ht : t = (((s.openBay l).withdrawCart l).withdrawCore (2 * l)).withdrawCore (2 * l + 1)) :
    s.unlatchCart l = (t.pauseCart (t.hostCore l)).settleBay l := by
  have hlatched : ¬ ((s.cart l).latch != 1) = true := by simp [h]
  unfold State.unlatchCart
  rw [if_neg hlatched]
  extract_lets opened ports cart withdrawn out host
  rw [if_neg (show ¬ opened.run.st = .off from hon)]
  have hwithdrawn : withdrawn = (s.openBay l).withdrawCart l := rfl
  clear_value withdrawn
  have hout : out = (withdrawn.withdrawCore (2 * l)).withdrawCore (2 * l + 1) := rfl
  rw [hwithdrawn, ← ht] at hout
  clear_value out
  rw [← hout]
  rfl

-- what each part leaves

/-- A port that is fenced changes its unit alone. -/
theorem State.portOut_fenced_units (s : State) (n r : Nat) (hr : r ≠ portRef n) : (s.portOut n .fenced).unit r = s.unit r := by
  unfold State.portOut State.countReroute
  rw [State.bump_unit]
  show (State.putUnit _ _ _).unit r = _
  rw [State.putUnit_unit, if_neg hr, State.modUnit_unit, if_neg hr]
  exact State.bump_unit _ _ _ _ _

theorem State.portOut_fenced_keeps {pts : List Part} (hw : Within [.od, .units, .ports] pts) {bef s : State} (n : Nat)
    (h : bef.Keeps pts s) : bef.Keeps pts (s.portOut n .fenced) := by
  unfold State.portOut State.countReroute
  exact State.bump_keeps (hw.sub (by decide)) _ _ _ (State.putUnit_keeps (hw.sub (by decide)) _ _
    (State.modUnit_keeps (hw.sub (by decide)) _ _ (State.modPort_keeps (hw.sub (by decide)) _ _
      (State.bump_keeps (hw.sub (by decide)) _ _ _ h))))

theorem State.withdrawPorts_unit (s : State) (l r : Nat) (hr : ∀ n ∈ cartPorts l, r ≠ portRef n) :
    (s.withdrawPorts l).unit r = s.unit r := by
  unfold State.withdrawPorts
  generalize cartPorts l = ports at hr
  induction ports generalizing s with
  | nil => rfl
  | cons n ports ih =>
    rw [List.foldl_cons, ih _ (fun m hm => hr m (List.mem_cons_of_mem _ hm))]
    split
    · exact s.portOut_fenced_units n r (hr n List.mem_cons_self)
    · rfl

theorem State.withdrawPorts_fenced_keeps {pts : List Part} (hw : Within [.od, .units, .ports] pts) {bef s : State} (l : Nat)
    (h : bef.Keeps pts s) : bef.Keeps pts (s.withdrawPorts l) :=
  keeps_foldl h (fun _ n h => keeps_ite (State.portOut_fenced_keeps hw n h) h)

/-- What withdrawing a cartridge and its cores may change. -/
abbrev withdrawnParts : List Part := [.od, .units, .ports, .cores, .engines, .jobs, .hosts, .events]

theorem State.withdrawCart_keeps {bef s : State} (l : Nat) (h : bef.Keeps withdrawnParts s) :
    bef.Keeps withdrawnParts (s.withdrawCart l) := by
  have hports := State.withdrawPorts_fenced_keeps (by decide : Within _ withdrawnParts) l
    (State.bump_keeps (by decide) (0x5800 + l) 8 1 h)
  unfold State.withdrawCart
  exact keeps_ite (State.takeOut_keeps (by decide) _ hports) hports

theorem State.withdrawCore_keeps {bef s : State} (c : Nat) (h : bef.Keeps withdrawnParts s) :
    bef.Keeps withdrawnParts (s.withdrawCore c) :=
  keeps_ite (State.takeOut_keeps (by decide) _ (State.modCore_keeps (by decide) _ _ h)) h

theorem State.withdrawCart_unit_core (s : State) (l : Fin 8) {c : Nat} (hc : c < 16) :
    (s.withdrawCart l).unit (coreRef c) = s.unit (coreRef c) := by
  have hports : ((s.bump (0x5800 + l) 8 1).withdrawPorts l).unit (coreRef c) = s.unit (coreRef c) := by
    rw [State.withdrawPorts_unit _ _ _ (fun n _ => coreRef_ne_portRef hc n), State.bump_unit]
  unfold State.withdrawCart
  extract_lets t
  split
  · rw [State.takeOut_unit, if_neg (coreRef_ne_cartRef hc l)]; exact hports
  · exact hports

theorem State.withdrawCart_unit_cart {s : State} {l : Fin 8} (hworks : (s.unit (cartRef l)).works = true) :
    (s.withdrawCart l).unit (cartRef l) = .fenced := by
  have hports : ((s.bump (0x5800 + l) 8 1).withdrawPorts l).unit (cartRef l) = s.unit (cartRef l) := by
    rw [State.withdrawPorts_unit _ _ _ (fun n hn => cartRef_ne_portRef l (cartPorts_lt l hn)), State.bump_unit]
  unfold State.withdrawCart
  extract_lets t
  rw [if_pos (by simp [t, hports, hworks]), State.takeOut_unit, if_pos rfl]

theorem State.withdrawCore_unit_other (s : State) {c r : Nat} (hr : r ≠ coreRef c) : (s.withdrawCore c).unit r = s.unit r := by
  unfold State.withdrawCore
  split
  · rw [State.takeOut_unit, if_neg hr]; rfl
  · rfl

theorem State.withdrawCore_fenced {s : State} {c : Nat}
    (huse : s.unit (coreRef c) = .starting ∨ (s.unit (coreRef c)).works = true) :
    (s.withdrawCore c).unit (coreRef c) = .fenced ∧ ((s.withdrawCore c).core c).warmStep = 0 := by
  rw [State.withdrawCore, if_pos (by simpa using huse), State.takeOut_unit, if_pos rfl, State.takeOut_warmStep, State.modCore_core,
    if_pos rfl]
  exact ⟨rfl, rfl⟩

theorem State.withdrawCore_warmStep (s : State) {c x : Nat} (hx : x ≠ c) :
    ((s.withdrawCore c).core x).warmStep = (s.core x).warmStep := by
  unfold State.withdrawCore
  split
  · rw [State.takeOut_warmStep, State.modCore_core, if_neg hx]
  · rfl

/-- Both cores of a cartridge leave service with it. -/
theorem State.withdrawCores_fenced {s : State} {l c : Nat} (hc : c ∈ [2 * l, 2 * l + 1])
    (huse : s.unit (coreRef c) = .starting ∨ (s.unit (coreRef c)).works = true) :
    ((s.withdrawCore (2 * l)).withdrawCore (2 * l + 1)).unit (coreRef c) = .fenced ∧
      (((s.withdrawCore (2 * l)).withdrawCore (2 * l + 1)).core c).warmStep = 0 := by
  have hne : ∀ {x y : Nat}, x ≠ y → coreRef x ≠ coreRef y := fun h => mt coreRef_inj.1 h
  rcases List.mem_cons.1 hc with rfl | hc
  · rw [State.withdrawCore_unit_other _ (hne (by omega)), State.withdrawCore_warmStep _ (by omega)]
    exact State.withdrawCore_fenced huse
  · obtain rfl := List.mem_singleton.1 hc
    exact State.withdrawCore_fenced (by rwa [State.withdrawCore_unit_other _ (hne (by omega))])

-- loops that hold (R408, R413)

theorem State.modLoop_loop (s : State) (c slot x y : Nat) (f : Loop → Loop) :
    (s.modLoop c slot f).loop x y = if x = c ∧ y = slot then f (s.loop c slot) else s.loop x y := by
  rw [State.loop, State.modLoop, State.modLoops_loopCore]
  by_cases hx : x = c
  · subst x
    rw [if_pos rfl, LoopCore.loop, LoopCore.modLoop, tget_tmod]
    by_cases hy : y = slot
    · rw [if_pos hy, if_pos ⟨rfl, hy⟩]; rfl
    · rw [if_neg hy, if_neg (fun h => hy h.2)]; rfl
  · rw [if_neg hx, if_neg (fun h => hx h.1)]; rfl

theorem State.endInjectionOf_loop (s : State) (c slot x y : Nat) : (s.endInjectionOf c slot).loop x y = s.loop x y := by
  unfold State.endInjectionOf
  split
  · rw [State.loop, State.endInjection, State.modLoops_loopCore]
    split
    · subst x; rfl
    · rfl
  · rfl

theorem State.loopTo_st (s : State) (c slot : Nat) (st : LoopSt) (x y : Nat) :
    ((s.loopTo c slot st).loop x y).st = if x = c ∧ y = slot then st else (s.loop x y).st := by
  unfold State.loopTo
  extract_lets old s1 s2 s3
  have h1 : (s1.loop x y).st = if x = c ∧ y = slot then st else (s.loop x y).st := by
    rw [State.modLoop_loop]
    split <;> rfl
  have h2 : s2.loop x y = s1.loop x y := by
    unfold s2
    split
    · exact s1.endInjectionOf_loop c slot x y
    · rfl
  have h3 : s3.loop x y = s2.loop x y := by
    unfold s3
    split
    · rw [State.loop, State.bump_loopCore]; rfl
    · rfl
  rw [← h1, ← h2, ← h3]
  repeat' split
  all_goals rfl

theorem State.pauseLoop_st (s : State) (c slot x y : Nat) : ((s.pauseLoop c slot).loop x y).st =
    if (x = c ∧ y = slot) ∧ (s.loop x y).st.runs = true then .hold else (s.loop x y).st := by
  unfold State.pauseLoop
  by_cases hxy : x = c ∧ y = slot
  · obtain ⟨rfl, rfl⟩ := hxy
    cases hruns : (s.loop x y).st.runs <;> simp [State.loopTo_st]
  · split
    · rw [State.loopTo_st, if_neg hxy, if_neg (fun h => hxy h.1)]
    · rw [if_neg (fun h => hxy h.1)]

/-- Of the loops named, each that ran or held already holds. -/
theorem State.pauseLoops_hold {h k : Nat} (ks : List Nat) (s : State) (hst : (s.loop h (1124 + k)).st = .hold ∨
    (k ∈ ks ∧ (s.loop h (1124 + k)).st.runs = true)) :
    ((ks.foldl (fun s k => s.pauseLoop h (1124 + k)) s).loop h (1124 + k)).st = .hold := by
  induction ks generalizing s with
  | nil => exact hst.resolve_right (by simp)
  | cons a ks ih =>
    refine ih _ ?_
    rw [State.pauseLoop_st]
    rcases hst with hhold | ⟨hk, hruns⟩
    · exact .inl (by simp [hhold, LoopSt.runs])
    · by_cases ha : k = a
      · exact .inl (if_pos ⟨⟨rfl, by rw [ha]⟩, hruns⟩)
      · refine .inr ⟨(List.mem_cons.1 hk).resolve_left ha, ?_⟩
        rw [if_neg (by omega)]
        exact hruns

theorem State.holdLoop_hold {s : State} {c x : Nat} (d y : Nat) (hst : (s.loop c x).st = .hold)
    (hunit : s.unit (essentialUnit c x) = .fenced) : ((s.holdLoop d y).loop c x).st = .hold := by
  by_cases hxy : c = d ∧ x = y
  · rw [← hxy.1, ← hxy.2]
    simp [State.holdLoop, hst, hunit, LoopSt.runs, State.loopUnits, UnitSt.allows, UnitSt.works]
  · have hto : ∀ st, ((s.loopTo d y st).loop c x).st = .hold := fun st => by rw [State.loopTo_st, if_neg hxy, hst]
    unfold State.holdLoop
    extract_lets st us
    repeat' split
    · exact hto .hold
    · exact hto .off
    · exact hto .acquire
    · exact hst
    · exact hst

/-- A loop whose essential unit is FENCED stays on hold while the loops follow their units. -/
theorem State.holdLoops_hold {s : State} {c x : Nat} (d : Nat) (hst : (s.loop c x).st = .hold)
    (hunit : s.unit (essentialUnit c x) = .fenced) : ((s.holdLoops d).loop c x).st = .hold := by
  unfold State.holdLoops
  generalize (s.loopCore d).loops.map Prod.fst = slots
  induction slots generalizing s with
  | nil => exact hst
  | cons y slots ih =>
    refine ih (State.holdLoop_hold d y hst hunit) ?_
    rw [(State.holdLoop_keeps (Within.refl _) d y (.refl _ s)).unit_eq _ (by decide), hunit]

theorem essentialUnit_cartSlot {c k : Nat} (hk : k < 17) : essentialUnit c (1124 + k) = cartRef (c / 2) := by
  interval_cases k <;> rfl

theorem State.hostCore_half (s : State) (l : Nat) : s.hostCore l / 2 = l := by
  unfold State.hostCore
  split <;> omega

/-- What the loops of a bay and WARMING change once its units have left. -/
theorem State.settleBay_keeps {bef s : State} (l : Nat) (h : bef.Keeps [.run, .od, .hosts, .loops, .convs, .events] s) :
    bef.Keeps [.run, .od, .hosts, .loops, .convs, .events] (s.settleBay l) :=
  State.checkWarm_keeps (by decide) (State.holdLoops_keeps (by decide) _ (State.holdLoops_keeps (by decide) _ h))

theorem State.pauseCart_keeps {bef s : State} (h : Nat) (hk : bef.Keeps [.run, .od, .hosts, .loops, .convs, .events] s) :
    bef.Keeps [.run, .od, .hosts, .loops, .convs, .events] (s.pauseCart h) :=
  keeps_foldl hk (fun _ _ h => keeps_ite (State.loopTo_keeps (by decide) _ _ _ h) h)

/-- A cartridge's loops that ran, on their host core, hold once it is FENCED. -/
theorem State.settleBay_hold {s : State} {l k : Nat} (hunit : s.unit (cartRef l) = .fenced) (hk : k < 17)
    (hruns : (s.loop (s.hostCore l) (1124 + k)).st.runs = true) :
    (((s.pauseCart (s.hostCore l)).settleBay l).loop (s.hostCore l) (1124 + k)).st = .hold := by
  have hess : essentialUnit (s.hostCore l) (1124 + k) = cartRef l := by rw [essentialUnit_cartSlot hk, s.hostCore_half]
  have hpaused := State.pauseLoops_hold (List.range 17) s (.inr ⟨List.mem_range.2 hk, hruns⟩)
  have hu : (s.pauseCart (s.hostCore l)).unit (cartRef l) = .fenced := by
    rw [(State.pauseCart_keeps _ (.refl _ s)).unit_eq _ (by decide), hunit]
  have heven := State.holdLoops_hold (2 * l) hpaused (by rw [hess]; exact hu)
  have hodd := State.holdLoops_hold (2 * l + 1) heven (by
    rw [hess, (State.holdLoops_keeps (Within.refl _) (2 * l) (.refl _ _)).unit_eq _ (by decide)]; exact hu)
  rw [State.settleBay, State.loop, (State.checkWarm_keeps (Within.refl _) (.refl _ _)).loopCore_eq _ (by decide)]
  exact hodd

-- opening a bay

theorem State.openBay_cart (s : State) (l : Nat) :
    ((s.openBay l).cart l).latch = 2 ∧ ((s.openBay l).cart l).openedAt = s.up := by
  rw [State.openBay, State.modCart_cart, if_pos rfl]
  exact ⟨rfl, rfl⟩

/-- The units of an opened bay have left. -/
def State.withdrawBay (s : State) (l : Nat) : State :=
  (((s.openBay l).withdrawCart l).withdrawCore (2 * l)).withdrawCore (2 * l + 1)

theorem State.withdrawBay_keeps (s : State) (l : Nat) : (s.openBay l).Keeps withdrawnParts (s.withdrawBay l) :=
  State.withdrawCore_keeps _ (State.withdrawCore_keeps _ (State.withdrawCart_keeps l (.refl _ _)))

section
variable {s : State} {l : Fin 8} (hlatch : (s.cart l).latch = 1) (hon : s.run.st ≠ .off)
include hlatch hon

theorem State.unlatchCart_keeps_withdrawn :
    (s.withdrawBay l).Keeps [.run, .od, .hosts, .loops, .convs, .events] (s.unlatchCart l) := by
  rw [State.unlatchCart_opens hlatch hon (t := s.withdrawBay l) rfl]
  exact State.settleBay_keeps l (State.pauseCart_keeps _ (.refl _ _))

theorem State.unlatchCart_cart : ((s.unlatchCart l).cart l).latch = 2 ∧ ((s.unlatchCart l).cart l).openedAt = s.up := by
  rw [(State.unlatchCart_keeps_withdrawn hlatch hon).cart_eq _ (by decide), (s.withdrawBay_keeps l).cart_eq _ (by decide)]
  exact s.openBay_cart l

theorem State.unlatchCart_core {c : Nat} (hc : c ∈ [2 * l.val, 2 * l.val + 1])
    (huse : s.unit (coreRef c) = .starting ∨ (s.unit (coreRef c)).works = true) :
    (s.unlatchCart l).unit (coreRef c) = .fenced ∧ ((s.unlatchCart l).core c).warmStep = 0 := by
  have hk := State.unlatchCart_keeps_withdrawn hlatch hon
  have hopen : ((s.openBay l).withdrawCart l).unit (coreRef c) = s.unit (coreRef c) :=
    State.withdrawCart_unit_core _ l (bayCore_lt l hc)
  rw [hk.unit_eq _ (by decide), hk.core_eq _ (by decide)]
  exact State.withdrawCores_fenced hc (by rwa [hopen])

theorem State.unlatchCart_loops (hworks : (s.unit (cartRef l)).works = true) : (s.unlatchCart l).unit (cartRef l) = .fenced ∧
    ∀ k : Nat, k < 17 → (s.loop (s.hostCore l) (1124 + k)).st.runs = true →
      ((s.unlatchCart l).loop (s.hostCore l) (1124 + k)).st = .hold := by
  have hl := l.isLt
  have hfenced : (s.withdrawBay l).unit (cartRef l) = .fenced := by
    rw [State.withdrawBay, State.withdrawCore_unit_other _ (cartRef_ne_coreRef (by omega) _),
      State.withdrawCore_unit_other _ (cartRef_ne_coreRef (by omega) _)]
    exact State.withdrawCart_unit_cart hworks
  have hloops : (s.withdrawBay l).loops = s.loops := (s.withdrawBay_keeps l).loops_eq (by decide)
  have hloop : ∀ c x, (s.withdrawBay l).loop c x = s.loop c x := fun c x => by
    simp only [State.loop, State.loopCore, hloops]
  have hhost : (s.withdrawBay l).hostCore l = s.hostCore l := by
    simp only [State.hostCore, State.loopCore, hloops]
    rfl
  refine ⟨((State.unlatchCart_keeps_withdrawn hlatch hon).unit_eq _ (by decide)).trans hfenced, fun k hk hruns => ?_⟩
  rw [State.unlatchCart_opens hlatch hon (t := s.withdrawBay l) rfl, ← hhost]
  exact State.settleBay_hold hfenced hk (by rwa [hhost, hloop])

end

-- the interlock, and a bay that is emptied (R481)

theorem exec_laserInterlockCut (dt : Nat) (l : Fin 8) (s : State) :
    exec (.laserInterlockCut dt l) s = .next ((s.elapse dt).interlockCut l) := rfl

theorem State.interlockCut_none {s : State} {l : Nat} (h : (s.cart l).latch = 1 ∨ (s.cart l).disarmed = true) :
    s.interlockCut l = s := by
  rcases h with h | h <;> simp [State.interlockCut, h]

theorem State.interlockCut_cuts {s : State} {l : Nat} (hopen : (s.cart l).latch ≠ 1) (harmed : (s.cart l).disarmed = false) :
    s.interlockCut l = if s.run.st = .off then s.lasersOff l else
      (s.lasersOff l).raiseTo (0x5800 + l) 9 (min 65535 ((s.up - (s.cart l).openedAt) / usPs)) := by
  simp [State.interlockCut, hopen, harmed, State.lasersOff]

/-- A driver that the interlock has disarmed. -/
def Channel.disarmed (x : Channel) : Channel := { x with armed := false, armNext := none }

/-- The drivers of a core's lasers are disarmed. -/
def State.disarmCore (s : State) (c : Nat) : State := s.modConv c (fun k => { k with channels := k.channels.map (fun x =>
  if laserChannel x.1 then (x.1, x.2.disarmed) else x) })

theorem State.disarmCore_channel (s : State) (c x : Nat) {ch : Nat} (hch : laserChannel ch = true) :
    (s.disarmCore c).channel x ch = if x = c then (s.channel x ch).disarmed else s.channel x ch := by
  rw [State.channel, State.disarmCore, State.modConv_conv]
  split
  · subst x
    exact (tget_map_if laserChannel (f := Channel.disarmed) rfl _ ch).trans (if_pos hch)
  · rfl

theorem State.lasersOff_eq (s : State) (l : Nat) : s.lasersOff l =
    ((s.disarmCore (2 * l)).disarmCore (2 * l + 1)).modCart l (fun k => { k with disarmed := true }) := rfl

theorem State.lasersOff_channel (s : State) {l c ch : Nat} (hc : c ∈ [2 * l, 2 * l + 1]) (hch : laserChannel ch = true) :
    ((s.lasersOff l).channel c ch).armed = false ∧ ((s.lasersOff l).channel c ch).armNext = none := by
  have h : (s.lasersOff l).channel c ch = (s.channel c ch).disarmed := by
    show ((s.disarmCore (2 * l)).disarmCore (2 * l + 1)).channel c ch = _
    rw [State.disarmCore_channel _ _ _ hch, State.disarmCore_channel _ _ _ hch]
    rcases List.mem_cons.1 hc with rfl | hc
    · rw [if_neg (by omega), if_pos rfl]
    · rw [if_pos (List.mem_singleton.1 hc), if_neg (by simp only [List.mem_singleton.1 hc]; omega)]
  rw [h]
  exact ⟨rfl, rfl⟩

theorem State.lasersOff_cart (s : State) (l : Nat) : (s.lasersOff l).cart l = { s.cart l with disarmed := true } := by
  rw [State.lasersOff_eq, State.modCart_cart, if_pos rfl]
  rfl

theorem State.lasersOff_val (s : State) (l x y : Nat) : (s.lasersOff l).val x y = s.val x y :=
  (State.lasersOff_keeps (Within.refl _) l (.refl _ s)).val_eq x y (by decide)

theorem laserChannel_cart {k : Nat} (hk : k < 16) : laserChannel (1088 + k) = true := by
  simp only [laserChannel, Bool.and_eq_true, decide_eq_true_eq]; omega

theorem State.raiseTo_val_max (s : State) (i k v : Nat) : (s.raiseTo i k v).val i k = max (s.val i k) v := by
  unfold State.raiseTo
  split
  · rw [State.setVal_val_same]; omega
  · omega

theorem exec_cartridgeRemoved (dt : Nat) (l : Fin 8) (s : State) : exec (.cartridgeRemoved dt l) s =
    .next (if ((s.elapse dt).cart l).latch = 2 then
      (s.elapse dt).modCart l (fun k => { k with latch := 0, serial := 0, hours := 0 }) else s.elapse dt) := rfl

-- latching a cartridge (R478)

theorem exec_cartridgeLatch (dt : Nat) (l : Fin 8) (serial : BitVec 96) (hours : BitVec 32) (s : State) :
    exec (.cartridgeLatch dt l serial hours) s = .next ((s.elapse dt).latchCart l serial.toNat hours.toNat) := rfl

/-- The serial and the hours of a cartridge are read as it latches. -/
def State.readCart (s : State) (l serial hours : Nat) : State :=
  s.modCart l (fun k => { k with latch := 1, serial := serial, hours := hours })

theorem State.readCart_cart (s : State) (l serial hours : Nat) : (s.readCart l serial hours).cart l =
    { s.cart l with latch := 1, serial := serial, hours := hours } := by rw [State.readCart, State.modCart_cart, if_pos rfl]

/-- The run states in which nothing starts on a cartridge. -/
def RunSt.early (st : RunSt) : Prop := st ∈ [RunSt.off, .boot, .standby, .shutdown]

section
variable {s : State} {l serial hours : Nat}

theorem State.latchCart_latched (h : (s.cart l).latch = 1) : s.latchCart l serial hours = s := by simp [State.latchCart, h]

/-- Before WARMING only the light of its ports comes with a cartridge. -/
theorem State.latchCart_early (h : (s.cart l).latch ≠ 1) (hearly : s.run.st.early) :
    (s.readCart l serial hours).Keeps [.od, .ports] (s.latchCart l serial hours) := by
  unfold State.latchCart
  rw [if_neg h]
  extract_lets t t'
  by_cases hoff : t.run.st = .off
  · rw [if_pos hoff]
    exact .refl _ _
  · have hrest : t'.run.st = .boot ∨ t'.run.st = .standby ∨ t'.run.st = .shutdown := by
      have ht : t.run.st = s.run.st := rfl
      rw [show t'.run = t.run from State.bump_run _ _ _ _, ht]
      simpa [RunSt.early, ← ht, hoff] using hearly
    rw [if_neg hoff, if_pos (by simpa [or_assoc] using hrest)]
    exact keeps_foldl (State.bump_keeps (by decide) _ _ _ (.refl _ _)) (fun _ _ h => State.modPort_keeps (by decide) _ _ h)

theorem State.latchCart_brings (h : (s.cart l).latch ≠ 1) (hlate : ¬ s.run.st.early) :
    s.latchCart l serial hours = ((s.readCart l serial hours).bump (0x5800 + l) 7 1).bringUpCart l := by
  have hrun : ((s.readCart l serial hours).bump (0x5800 + l) 7 1).run = s.run := State.bump_run _ _ _ _
  simp only [RunSt.early, List.mem_cons, List.not_mem_nil, or_false, not_or] at hlate
  obtain ⟨hoff, hboot, hstandby, hshutdown⟩ := hlate
  unfold State.latchCart
  rw [if_neg h]
  extract_lets t t'
  have ht' : t' = (s.readCart l serial hours).bump (0x5800 + l) 7 1 := rfl
  rw [if_neg (show ¬ t.run.st = .off from hoff), ht', hrun, if_neg (by simp [hboot, hstandby, hshutdown])]

end

-- what is brought up on it

/-- A port of a cartridge that is brought up. -/
def State.lightPort (s : State) (n : Nat) : State :=
  if s.unit (portRef n) = .offline then s
  else if s.unit (portRef n) = .fenced then s.portStart n
  else s.modPort n (fun p => { p with light := s.fabricLight n })

/-- A loop that holds goes on by itself, its driver armed. -/
def State.rearm (s : State) (h k : Nat) : State :=
  if (s.loop h (1124 + k)).st = .hold then s.modChannel h (1088 + k) (fun x => { x with armNext := some true }) else s

/-- A cartridge is brought up before its cores are. -/
def State.lightCart (s : State) (l : Nat) : State :=
  let s := if s.unit (cartRef l) = .retired then s else s.putUnit (cartRef l) .starting
  let h := s.hostCore l
  let s := (List.range 16).foldl (fun s k => s.rearm h k) s
  (cartPorts l).foldl State.lightPort (s.modCart l (fun k => { k with disarmed := false }))

/-- A core that its cartridge brings up. -/
def State.bringUpCore (s : State) (c : Nat) : State :=
  if s.unit (coreRef c) = .offline || s.unit (coreRef c) = .fenced then
    let t := forRange 34 s (fun t e => t.modEng c e (fun g => g.exchanged t.up))
    ((t.modCore c (fun k => { k with lit := [] })).startCore c).holdLoops c
  else s

theorem State.bringUpCart_eq (s : State) (l : Nat) :
    s.bringUpCart l = ((s.lightCart l).bringUpCore (2 * l)).bringUpCore (2 * l + 1) := by
  unfold State.bringUpCart
  extract_lets started h armed shone ports
  have hports : ports = s.lightCart l := rfl
  clear_value ports
  rw [hports]
  simp only [List.foldl_cons, List.foldl_nil, State.bringUpCore]

theorem State.lightPort_keeps {pts : List Part} (hw : Within [.units, .ports] pts) {bef s : State} (n : Nat)
    (h : bef.Keeps pts s) : bef.Keeps pts (s.lightPort n) := by
  unfold State.lightPort
  repeat' split
  · exact h
  · exact State.portStart_keeps hw n h
  · exact State.modPort_keeps (hw.sub (by decide)) n _ h

theorem State.lightPort_unit_core (s : State) (n : Nat) {c : Nat} (hc : c < 16) :
    (s.lightPort n).unit (coreRef c) = s.unit (coreRef c) := by
  unfold State.lightPort
  repeat' split
  · rfl
  · rw [State.portStart, State.putUnit_unit, if_neg (coreRef_ne_portRef hc n)]; rfl
  · rfl

theorem State.rearm_keeps {bef s : State} {pts : List Part} (hw : Within [.convs] pts) (h k : Nat) (hk : bef.Keeps pts s) :
    bef.Keeps pts (s.rearm h k) :=
  keeps_ite (State.modChannel_keeps hw _ _ _ hk) hk

/-- The lasers of a cartridge that is brought up may be armed again. -/
theorem State.lightCart_cart (s : State) (l : Nat) : (s.lightCart l).cart l = { s.cart l with disarmed := false } := by
  unfold State.lightCart
  extract_lets started h armed
  have hstarted : s.Keeps [.units, .convs] started := keeps_ite (.refl _ s) (State.putUnit_keeps (by decide) _ _ (.refl _ s))
  have harmed : s.Keeps [.units, .convs] armed := keeps_foldl hstarted (fun _ k h => State.rearm_keeps (by decide) _ k h)
  rw [(keeps_foldl (.refl [.units, .ports] _) (fun _ n h => State.lightPort_keeps (Within.refl _) n h)).cart_eq l (by decide),
    State.modCart_cart, if_pos rfl, harmed.cart_eq l (by decide)]

theorem State.lightCart_unit_core (s : State) (l : Nat) {c : Nat} (hc : c < 16) :
    (s.lightCart l).unit (coreRef c) = s.unit (coreRef c) := by
  unfold State.lightCart
  extract_lets started h armed
  have hstarted : started.unit (coreRef c) = s.unit (coreRef c) := by
    unfold started
    split
    · rfl
    · rw [State.putUnit_unit, if_neg (coreRef_ne_cartRef hc l)]
  have harmed : started.Keeps [.convs] armed := keeps_foldl (.refl _ _) (fun _ k h => State.rearm_keeps (by decide) _ k h)
  rw [foldl_reads (fun t : State => t.unit (coreRef c)) (fun t n => t.lightPort_unit_core n hc)]
  rw [State.modCart_unit, harmed.unit_eq _ (by decide), hstarted]

/-- The first step of WARMING on a core leaves the cartridges alone. -/
theorem State.warmAct_first_keeps {pts : List Part} (hw : Within [.cores, .loops, .convs] pts) {bef s : State} (c : Nat)
    (h : bef.Keeps pts s) : bef.Keeps pts (s.warmAct c 1) := by
  unfold State.warmAct
  extract_lets host begun
  have hbegun : bef.Keeps pts begun := State.modCore_keeps (hw.sub (by decide)) _ _ h
  clear_value begun
  rw [if_pos (show 1 = 1 from rfl)]
  have harm := keeps_foldl (xs := List.range 4) hbegun (fun _ z h => State.armDriver_keeps (hw.sub (by decide)) c (1104 + z) h)
  exact State.setPilots_keeps (hw.sub (by decide)) c (State.modCore_keeps (hw.sub (by decide)) _ _
    (State.acquire_keeps (hw.sub (by decide)) _ _ (State.acquireEach_keeps (hw.sub (by decide)) _ _ harm)))

/-- A core and its engines that start. -/
def State.startUnits (s : State) (c : Nat) : State :=
  let s := forRange 34 s (fun s e =>
    let u := s.unit (engineRef c e)
    if u = .offline || u.works then s.putUnit (engineRef c e) .starting else s)
  let s := s.putUnit (coreRef c) .starting
  if s.unit (cartRef (c / 2)) = .offline then s.putUnit (cartRef (c / 2)) .starting else s

theorem State.startCore_eq (s : State) (c : Nat) : s.startCore c = (s.startUnits c).warmAct c 1 := by
  simp only [State.startCore, State.startUnits]

theorem State.startUnits_keeps {pts : List Part} (hw : Within [.units] pts) {bef s : State} (c : Nat) (h : bef.Keeps pts s) :
    bef.Keeps pts (s.startUnits c) := by
  unfold State.startUnits
  extract_lets engines core
  have hengines : bef.Keeps pts engines := keeps_forRange h (fun _ _ h => by
    dsimp only
    split
    · exact State.putUnit_keeps hw _ _ h
    · exact h)
  have hcore : bef.Keeps pts core := State.putUnit_keeps hw (coreRef c) .starting hengines
  clear_value core
  split
  · exact State.putUnit_keeps hw _ _ hcore
  · exact hcore

theorem State.startUnits_unit_core (s : State) {c x : Nat} (hx : x < 16) :
    (s.startUnits c).unit (coreRef x) = if x = c then .starting else s.unit (coreRef x) := by
  unfold State.startUnits
  extract_lets engines core
  have hengines : engines.unit (coreRef x) = s.unit (coreRef x) := by
    unfold engines forRange
    refine foldl_reads (fun t : State => t.unit (coreRef x)) (fun t e => ?_) (List.range 34) s
    dsimp only
    split
    · rw [State.putUnit_unit, if_neg (coreRef_ne_engineRef hx c e)]
    · rfl
  have hcore : core.unit (coreRef x) = if x = c then .starting else s.unit (coreRef x) := by
    unfold core
    rw [State.putUnit_unit, hengines]
    exact if_congr coreRef_inj rfl rfl
  rw [← hcore]
  split
  · rw [State.putUnit_unit, if_neg (coreRef_ne_cartRef hx _)]
  · rfl

/-- What bringing up a core may change. -/
theorem State.bringUpCore_keeps {bef s : State} (c : Nat) (h : bef.Keeps [.od, .units, .cores, .engines, .loops, .convs] s) :
    bef.Keeps [.od, .units, .cores, .engines, .loops, .convs] (s.bringUpCore c) := by
  unfold State.bringUpCore
  extract_lets t
  have ht : bef.Keeps [.od, .units, .cores, .engines, .loops, .convs] t :=
    keeps_forRange h (fun _ _ h => State.modEng_keeps (by decide) _ _ _ h)
  split
  · rw [State.startCore_eq]
    exact State.holdLoops_keeps (by decide) c (State.warmAct_first_keeps (by decide) c (State.startUnits_keeps (by decide) c
      (State.modCore_keeps (by decide) _ _ ht)))
  · exact h

theorem State.bringUpCore_unit_core (s : State) {c x : Nat} (hx : x < 16) : (s.bringUpCore c).unit (coreRef x) =
    if x = c ∧ (s.unit (coreRef c) = .offline ∨ s.unit (coreRef c) = .fenced) then .starting else s.unit (coreRef x) := by
  unfold State.bringUpCore
  extract_lets t
  have ht : s.Keeps [.engines] t := keeps_forRange (.refl _ s) (fun _ _ h => State.modEng_keeps (Within.refl _) _ _ _ h)
  clear_value t
  by_cases hout : s.unit (coreRef c) = .offline ∨ s.unit (coreRef c) = .fenced
  · rw [if_pos (by simpa using hout), (State.holdLoops_keeps (Within.refl _) c (.refl _ _)).unit_eq _ (by decide),
      State.startCore_eq, (State.warmAct_first_keeps (Within.refl _) c (.refl _ _)).unit_eq _ (by decide),
      State.startUnits_unit_core _ hx, State.modCore_unit, ht.unit_eq _ (by decide)]
    exact if_congr (by simp [hout]) rfl rfl
  · rw [if_neg (by simpa using hout), if_neg (fun h => hout h.2)]

theorem State.bringUpCart_cart (s : State) (l : Nat) : (s.bringUpCart l).cart l = { s.cart l with disarmed := false } := by
  rw [State.bringUpCart_eq, (State.bringUpCore_keeps _ (State.bringUpCore_keeps _ (.refl _ _))).cart_eq l (by decide),
    State.lightCart_cart]

theorem State.bringUpCart_core (s : State) (l : Fin 8) {c : Nat} (hc : c ∈ [2 * l.val, 2 * l.val + 1])
    (hout : s.unit (coreRef c) = .offline ∨ s.unit (coreRef c) = .fenced) :
    (s.bringUpCart l).unit (coreRef c) = .starting := by
  have hlt := bayCore_lt l hc
  rw [State.bringUpCart_eq, State.bringUpCore_unit_core _ hlt, State.bringUpCore_unit_core _ hlt,
    State.lightCart_unit_core _ _ hlt]
  rcases List.mem_cons.1 hc with rfl | hc
  · rw [if_neg (by omega), if_pos]
    exact ⟨rfl, by rwa [State.lightCart_unit_core _ _ hlt]⟩
  · obtain rfl := List.mem_singleton.1 hc
    rw [if_pos]
    refine ⟨rfl, ?_⟩
    rwa [State.bringUpCore_unit_core _ hlt, if_neg (by omega), State.lightCart_unit_core _ _ hlt]

-- the HELLO that waits (R270, R328)

theorem exec_signatureIntervalEnd (dt : Nat) (s : State) :
    exec (.signatureIntervalEnd dt) s = .next (s.elapse dt).answerHello := rfl

theorem State.answerHello_waits {s : State} (h : s.twin.st ≠ .forming ∨ s.twin.partnerNonce = [] ∨ s.twin.answered = true ∨
    s.signWait ≠ 0 ∨ leafCount ≤ s.leaf) : s.answerHello = s := by
  rcases h with h | h | h | h | h <;> simp [State.answerHello, h]

/-- The answer to a HELLO: report and signature go to its port, and the nonce counts as answered. -/
def State.sendAnswer (s : State) : State :=
  let t := s.signed.emit (.hello s.twin.helloPort (s.frameOf 7 (120 + s.twin.helloPort)) (s.reportHead s.twin.partnerNonce ++
    padTo 2820 0 (Config.xmssSign (s.reportHead s.twin.partnerNonce) s.leaf)))
  { t.nextSequence with twin := { t.nextSequence.twin with answered := true } }

theorem State.answerHello_answers {s : State} (hforming : s.twin.st = .forming) (hnonce : s.twin.partnerNonce ≠ [])
    (hfresh : s.twin.answered = false) (hwait : s.signWait = 0) (hleaf : s.leaf < leafCount) : s.answerHello = s.sendAnswer := by
  have hgo : ¬ (s.twin.st != .forming || s.twin.partnerNonce.isEmpty || s.twin.answered || s.signWait != 0 ||
      leafCount ≤ s.leaf) = true := by
    simp [hforming, hnonce, hfresh, hwait, hleaf]
  unfold State.answerHello
  rw [if_neg hgo]
  rfl

/-- A signature uses up its leaf, starts the interval, and puts nothing out (R270). -/
theorem State.signed_effect (s : State) : s.signed.val 0x3110 3 = s.leaf + 1 ∧ s.signed.security.lastSignature = some s.up ∧
    s.signed.out = s.out := by
  unfold State.signed
  extract_lets left counted timedSecurity timed
  have hval : (timed : State).val 0x3110 3 = s.leaf + 1 := by
    show (s.setVal 0x3110 3 (s.leaf + 1)).val 0x3110 3 = _
    exact State.setVal_val_same s 0x3110 3 _
  split
  · rw [State.raise_val _ _ _ _ _ _ (by decide), State.raise_security, State.raise_out]
    exact ⟨hval, rfl, rfl⟩
  · exact ⟨hval, rfl, rfl⟩

-- the statement

/-- Settles O59: opening a bay, the interlock and an emptied bay, then latching, then the HELLO. That a bay is emptied only once
unlatched, and that a command without its condition changes nothing, is log entry 2; one answer for a nonce is log entry 37. -/
theorem cartridgesOpenLatchAndLeave : Obligations.CartridgesOpenLatchAndLeave := by
  refine ⟨?bay, ?latch, ?hello⟩
  case bay =>
    rintro s b dt l hb
    rw [exec_cartridgeUnlatch, exec_laserInterlockCut, exec_cartridgeRemoved, ← hb]
    refine ⟨fun hshut => ?_, fun hlatched => ?_, fun hnone => ?_, fun hopen harmed => ?_, fun hnot => ?_, fun hopen => ?_⟩
    · rw [State.unlatchCart_closed hshut]
    · by_cases hoff : b.run.st = .off
      · obtain ⟨hlatch, hat⟩ := b.openBay_cart l
        rw [State.unlatchCart_off hlatched hoff]
        exact ⟨_, rfl, hlatch, hat, fun _ => rfl, fun hon => absurd hoff hon, fun hon => absurd hoff hon⟩
      · obtain ⟨hlatch, hat⟩ := State.unlatchCart_cart hlatched hoff
        exact ⟨_, rfl, hlatch, hat, fun h => absurd h hoff, fun _ c hc => State.unlatchCart_core hlatched hoff hc,
          fun _ => State.unlatchCart_loops hlatched hoff⟩
    · rw [State.interlockCut_none hnone]
    · rw [State.interlockCut_cuts hopen harmed]
      have hchannel := fun c hc k hk => b.lasersOff_channel (l := l) (c := c) hc (laserChannel_cart (k := k) hk)
      by_cases hoff : b.run.st = .off
      · rw [if_pos hoff]
        refine ⟨_, rfl, ?_, ?_, hchannel, fun hon => absurd hoff hon⟩
        · rw [State.lasersOff_cart]
        · rw [State.lasersOff_cart]
      · rw [if_neg hoff]
        refine ⟨_, rfl, ?_, ?_, fun c hc k hk => ?_, fun _ old new hold hnew => ?_⟩
        · rw [State.raiseTo_cart, State.lasersOff_cart]
        · rw [State.raiseTo_cart, State.lasersOff_cart]
        · simp only [State.channel, State.raiseTo_conv]
          exact hchannel c hc k hk
        · rw [State.raiseTo_val_max, State.lasersOff_val, hold, hnew]
          rfl
    · rw [if_neg hnot]
    · rw [if_pos hopen]
      refine ⟨_, rfl, ?_, ?_, ?_, rfl, fun other hother => ?_⟩
      · rw [State.modCart_cart, if_pos rfl]
      · rw [State.modCart_cart, if_pos rfl]
      · rw [State.modCart_cart, if_pos rfl]
      · rw [State.modCart_cart, if_neg hother]
  case latch =>
    rintro s b dt l serial hours hb
    rw [exec_cartridgeLatch, ← hb]
    refine ⟨fun hlatched => by rw [State.latchCart_latched hlatched], fun hopen => ?_⟩
    by_cases hearly : b.run.st.early
    · have hk := State.latchCart_early (serial := serial.toNat) (hours := hours.toNat) hopen hearly
      refine ⟨_, rfl, ?_, ?_, ?_, fun _ => hk.units_eq (by decide), fun hlate => absurd hearly hlate⟩ <;>
        rw [hk.cart_eq _ (by decide), State.readCart_cart]
    · rw [State.latchCart_brings hopen hearly]
      refine ⟨_, rfl, ?_, ?_, ?_, fun h => absurd h hearly, fun _ => ⟨?_, fun c hc hout => ?_⟩⟩
      rotate_right
      · exact State.bringUpCart_core _ l hc (by rwa [State.bump_unit])
      all_goals rw [State.bringUpCart_cart, State.bump_cart, State.readCart_cart]
  case hello =>
    rintro s b dt hb
    rw [exec_signatureIntervalEnd, ← hb]
    refine ⟨fun hwaits => by rw [State.answerHello_waits hwaits], fun hforming hnonce hfresh hwait hleaf => ?_⟩
    obtain ⟨hcount, hlast, hout⟩ := b.signed_effect
    rw [State.answerHello_answers hforming hnonce hfresh hwait hleaf]
    exact ⟨_, _, _, rfl, congrArg (· ++ _) hout, rfl, hlast, fun _ => hcount⟩

-- states that meet the hypotheses of its clauses

/-- The device is READY, with cartridge 0 as given. -/
def bayState (k : Cartridge) : State :=
  { State.reset with run := { State.reset.run with st := .ready }, cartridges := [(0, k)]
                     clock := { State.reset.clock with up := 150 * usPs } }

/-- Cartridge 0 and core 0 are READY on a latched cartridge, and its first loop tracks. -/
def bayReady : State :=
  (((bayState { latch := 1 }).putUnit (cartRef 0) .ready).putUnit (coreRef 0) .ready).modLoop 0 1124
    (fun x => { x with st := .track })

theorem witness_cartridgeUnlatched : ∃ t, exec (.cartridgeUnlatch 0 0) bayReady = .next t ∧ (t.cart 0).latch = 2 ∧
    t.unit (coreRef 0) = .fenced ∧ t.unit (cartRef 0) = .fenced ∧ (t.loop 0 1124).st = .hold := by
  obtain ⟨hbay, -⟩ := cartridgesOpenLatchAndLeave
  obtain ⟨-, hopens, -⟩ := hbay bayReady _ 0 0 rfl
  obtain ⟨t, ht, hlatch, -, -, hcores, hcart⟩ := hopens (by decide)
  obtain ⟨hcore, -⟩ := hcores (by decide) 0 (by decide) (.inr (by decide))
  obtain ⟨hfenced, hloops⟩ := hcart (by decide) (by decide)
  exact ⟨t, ht, hlatch, hcore, hfenced, hloops 0 (by decide) (by decide)⟩

/-- 150 us after its bay was opened, a driver of cartridge 0 is still armed. -/
def bayLit : State := (bayState { latch := 2, disarmed := false }).modChannel 0 1088 (fun x => { x with armed := true })

theorem witness_interlockCut : ∃ t, exec (.laserInterlockCut 0 0) bayLit = .next t ∧ (t.channel 0 1088).armed = false ∧
    t.val 0x5800 9 = 150 := by
  obtain ⟨hbay, -⟩ := cartridgesOpenLatchAndLeave
  obtain ⟨-, -, -, hcuts, -⟩ := hbay bayLit _ 0 0 rfl
  obtain ⟨t, ht, -, -, hdark, hworst⟩ := hcuts (by decide) rfl
  obtain ⟨hoff, -⟩ := hdark 0 (by decide) 0 (by decide)
  exact ⟨t, ht, hoff, (hworst (by decide) _ _ rfl rfl).trans (by decide)⟩

theorem witness_cartridgeRemoved : ∃ t, exec (.cartridgeRemoved 0 0) bayLit = .next t ∧ (t.cart 0).latch = 0 := by
  obtain ⟨hbay, -⟩ := cartridgesOpenLatchAndLeave
  obtain ⟨-, -, -, -, -, hremoved⟩ := hbay bayLit _ 0 0 rfl
  obtain ⟨t, ht, hlatch, -⟩ := hremoved rfl
  exact ⟨t, ht, hlatch⟩

/-- In READY both cores start on a cartridge that is latched; in BOOT none does. -/
theorem witness_cartridgeLatched : (∃ t, exec (.cartridgeLatch 0 0 7 9) (bayState {}) = .next t ∧ (t.cart 0).serial = 7 ∧
      t.unit (coreRef 0) = .starting ∧ t.unit (coreRef 1) = .starting) ∧
    ∃ t, exec (.cartridgeLatch 0 0 7 9) State.reset = .next t ∧ (t.cart 0).hours = 9 ∧ t.units = [] := by
  obtain ⟨-, hlatch, -⟩ := cartridgesOpenLatchAndLeave
  obtain ⟨-, hready⟩ := hlatch (bayState {}) _ 0 0 7 9 rfl
  obtain ⟨t, ht, -, hserial, -, -, hstarts⟩ := hready (by decide)
  obtain ⟨-, hcores⟩ := hstarts (by decide)
  obtain ⟨-, hboot⟩ := hlatch State.reset _ 0 0 7 9 rfl
  obtain ⟨t', ht', -, -, hhours, hearly, -⟩ := hboot (by decide)
  exact ⟨⟨t, ht, hserial, hcores 0 (by decide) (.inl rfl), hcores 1 (by decide) (.inl rfl)⟩,
    t', ht', hhours, hearly (by decide)⟩

/-- A HELLO waits on twin port 2. -/
def helloWaits : State := { State.reset with twin := { st := .forming, partnerNonce := [1], helloPort := 2 } }

theorem witness_helloAnswered : ∃ t, exec (.signatureIntervalEnd 0) helloWaits = .next t ∧ t.twin.answered = true ∧
    t.val 0x3110 3 = 1 := by
  obtain ⟨-, -, hhello⟩ := cartridgesOpenLatchAndLeave
  obtain ⟨-, hanswers⟩ := hhello helloWaits _ 0 rfl
  obtain ⟨t, _, _, ht, -, hanswered, -, hleaf⟩ := hanswers rfl (by decide) rfl rfl (by decide)
  exact ⟨t, ht, hanswered, hleaf (by decide)⟩

end Sys2Proof.Machine
end

section
/-! Access tables (R254 to R262), firmware slots (R264 to R268, R376) and attestation (R270, R271): what a write of a table comes
to, how a slot boots, is written and is confirmed, what a report uses up, and the statement O53. -/

namespace Sys2Proof.Machine

-- grants, regions and peer entries (R254, R256, R262)

/-- No entry of a grant is one of a peer or of a region. -/
theorem isGrant_alone {i k : Nat} (h : isGrant i k = true) : isPeer i k = false ∧ isRegion i k = false := by
  have hmem : k ∈ grantSubs i := of_decide_eq_true h
  clear h
  unfold grantSubs at hmem
  simp only [isPeer, isRegion, isHbmRegion, isStoreRegion, Bool.or_eq_false_iff, Bool.and_eq_false_iff, decide_eq_false_iff_not]
  split at hmem
  · obtain ⟨n, -, rfl⟩ := List.mem_map.1 hmem
    omega
  · split at hmem
    · obtain ⟨n, -, hn⟩ := List.mem_flatMap.1 hmem
      obtain ⟨j, hj, rfl⟩ := List.mem_map.1 hn
      have := List.mem_range.1 hj
      omega
    · have hhigh : 0x3070 ≤ i := by
        by_contra hlow
        rw [if_neg (by omega), if_neg (by omega), if_neg (by omega)] at hmem
        exact List.not_mem_nil hmem
      omega

theorem isRegion_notPeer {i k : Nat} (h : isRegion i k = true) : isPeer i k = false := by
  simp only [isRegion, isHbmRegion, isStoreRegion, isPeer, Bool.or_eq_true, Bool.and_eq_true, decide_eq_true_eq,
    Bool.and_eq_false_iff, decide_eq_false_iff_not] at *
  omega

section
variable {s : State} {i k m v : Nat}

/-- A value that the act takes is made where no rule over the tables stands against it. -/
theorem State.tableWrite_made {act : State → Nat × State} {t : State} (hact : act s = (0, t)) : State.tableWrite m i k act s =
    if (s.tableRule t i k).1 = 0 then (0, t)
    else ((s.tableRule t i k).1, if (s.tableRule t i k).2 = true then s.deny (some m) (odKey i k) 0 else s) := by
  simp [State.tableWrite, hact]

theorem State.tableWrite_refused {act : State → Nat × State} {a : Nat} {t : State} (hact : act s = (a, t)) (ha : a ≠ 0) :
    State.tableWrite m i k act s = (a, t) := by
  simp [State.tableWrite, hact, ha]

theorem State.tableWrite_grant (h : isGrant i k = true) : State.tableWrite m i k (State.grantPut i k v) s =
    if s.flag 0x3120 1 = true ∧ s.adminMoves (s.setVal i k (v % 2 ^ 29)) = true then (abAccess, s.deny (some m) (odKey i k) 0)
    else (0, s.setVal i k (v % 2 ^ 29)) := by
  obtain ⟨hpeer, hregion⟩ := isGrant_alone h
  have hrule : ∀ t : State, s.tableRule t i k = if s.flag 0x3120 1 = true ∧ s.adminMoves t = true then (abAccess, true)
      else (0, false) := fun t => by simp [State.tableRule, hpeer, hregion, h, State.commissioned]
  rw [State.tableWrite_made (act := State.grantPut i k v) rfl, hrule]
  split <;> rfl

theorem State.tableWrite_region (h : isRegion i k = true) : State.tableWrite m i k (store i k v) s =
    if (s.setVal i k v).regionRule i = true then (0, s.setVal i k v) else (abRange, s) := by
  have hrule : ∀ t : State, s.tableRule t i k = if t.regionRule i = true then (0, false) else (abRange, false) := fun t => by
    simp [State.tableRule, isRegion_notPeer h, h]
  rw [State.tableWrite_made (act := store i k v) rfl, hrule]
  split <;> rfl

/-- What a peer entry of 20 bytes keeps: ADDRESS, PREFIX and VALID. -/
def peerValue (v : Nat) : Nat := v % 2 ^ 136 + v / 2 ^ 136 % 2 * 2 ^ 136

theorem State.tableWrite_peerLong (hlong : 128 < v / 2 ^ 128 % 256) :
    State.tableWrite m i k (State.peerPut i k v) s = (abRange, s) :=
  State.tableWrite_refused (if_pos hlong) (by decide)

theorem State.tableWrite_peer (h : isPeer i k = true) (hprefix : v / 2 ^ 128 % 256 ≤ 128) (hfree : s.flag 0x3120 1 = false) :
    State.tableWrite m i k (State.peerPut i k v) s = (0, s.setVal i k (peerValue v)) := by
  have hact : State.peerPut i k v s = (0, s.setVal i k (peerValue v)) := if_neg (Nat.not_lt.2 hprefix)
  have hrule : s.tableRule (s.setVal i k (peerValue v)) i k = (0, false) := by
    simp [State.tableRule, h, State.peerLocked, State.commissioned, hfree]
  rw [State.tableWrite_made hact, hrule, if_pos rfl]

theorem State.lockAct_other (h : v ≠ 1) : State.lockAct v s = (abRange, s) := by simp [State.lockAct, h, refuse]

theorem State.lockAct_again (h : s.flag 0x3120 1 = true) : State.lockAct 1 s = (0, s) := by
  simp [State.lockAct, State.commissioned, h, accept]

theorem State.lockAct_first (h : s.flag 0x3120 1 = false) :
    State.lockAct 1 s = (0, (s.setVal 0x3120 1 1).setVal 0x3120 2 (s.clock.now / sPs)) := by
  simp [State.lockAct, State.commissioned, h, accept]

end

theorem exec_grantWrite (dt : Nat) (road : Road) (i : BitVec 16) (k : BitVec 8) (v : BitVec 32) (s : State) :
    exec (.grantWrite dt road i k v) s = .next (if isGrant i.toNat k.toNat then
      (s.elapse dt).writeRow road i.toNat k.toNat (leBytes 4 v.toNat)
        (State.tableWrite (viaOf road i.toNat k.toNat).master i.toNat k.toNat (State.grantPut i.toNat k.toNat v.toNat))
      else s.elapse dt) := rfl

theorem exec_regionWrite (dt : Nat) (road : Road) (i : BitVec 16) (k : BitVec 8) (w : BitVec 64) (s : State) :
    exec (.regionWrite dt road i k w) s = .next (if isRegion i.toNat k.toNat then
      (s.elapse dt).writeRow road i.toNat k.toNat (leBytes (if isHbmRegion i.toNat k.toNat then 8 else 4) w.toNat)
        (State.tableWrite (viaOf road i.toNat k.toNat).master i.toNat k.toNat (store i.toNat k.toNat w.toNat))
      else s.elapse dt) := rfl

theorem exec_peerEntryWrite (dt : Nat) (road : Road) (i : BitVec 16) (k : BitVec 8) (d : List Byte) (s : State) :
    exec (.peerEntryWrite dt road i k d) s = .next (if isPeer i.toNat k.toNat then
      (s.elapse dt).writeRow road i.toNat k.toNat d
        (State.tableWrite (viaOf road i.toNat k.toNat).master i.toNat k.toNat (State.peerPut i.toNat k.toNat (leNat d)))
      else s.elapse dt) := rfl

/-- The BOOLEAN that a command entry takes. -/
theorem toNat_true : (1 : BitVec 8).toNat = 1 := rfl

theorem exec_commissioningLock (dt : Nat) (road : Road) (v : BitVec 8) (s : State) : exec (.commissioningLock dt road v) s =
    .next ((s.elapse dt).writeRow road 0x3120 1 [v] (State.lockAct v.toNat)) := rfl

-- slots (R264, R265)

theorem State.setSlot_slot (s : State) (k : Nat) (st : SlotSt) (img : List Byte) :
    (s.setSlot k st img).security.slot k = st ∧ (s.setSlot k st img).security.image k = img := by
  unfold State.setSlot Security.slot Security.image
  split <;> exact ⟨rfl, rfl⟩

theorem State.setSlot_running (s : State) (k : Nat) (st : SlotSt) (img : List Byte) :
    (s.setSlot k st img).security.running = s.security.running := by
  unfold State.setSlot
  split <;> rfl

section
variable {s : State} {k : Nat}

theorem State.trySlot_none (h : s.security.slot k = .empty ∨ s.security.slot k = .invalid) : s.trySlot k = (s, false) := by
  rcases h with h | h <;> simp [State.trySlot, h]

theorem State.trySlot_tried (hempty : s.security.slot k ≠ .empty) (hinvalid : s.security.slot k ≠ .invalid) : s.trySlot k =
    if s.slotPasses k = true then (s, true) else ((s.slotTo k .invalid).bump 0x3100 0xB 1, false) := by
  simp [State.trySlot, hempty, hinvalid]

/-- A slot that fails is counted (R264). -/
theorem State.bump_failures (s : State) : (s.bump 0x3100 0xB 1).val 0x3100 0xB = wrapAdd 4 (s.val 0x3100 0xB) 1 := by
  have hrow : (odRow 0x3100 0xB).map OdRow.bytes = some 4 := by decide
  obtain ⟨row, hsome, hbytes⟩ := Option.map_eq_some_iff.1 hrow
  simp [State.bump, hsome, hbytes]

theorem State.trySlot_passes (h : (s.trySlot k).2 = true) : (s.trySlot k).1 = s := by
  by_cases hnone : s.security.slot k = .empty ∨ s.security.slot k = .invalid
  · rw [State.trySlot_none hnone]
  · obtain ⟨hempty, hinvalid⟩ := not_or.1 hnone
    rw [State.trySlot_tried hempty hinvalid] at h ⊢
    split at h
    · rw [if_pos ‹_›]
    · cases h

/-- A slot that does not boot starts nothing, and the part stays in BOOT. -/
theorem State.trySlot_idle (s : State) (k : Nat) : (s.trySlot k).1.security.running = s.security.running ∧
    (s.trySlot k).1.run = s.run := by
  unfold State.trySlot
  extract_lets st
  repeat' split
  · exact ⟨rfl, rfl⟩
  · exact ⟨rfl, rfl⟩
  · rw [State.bump_security, State.bump_run]
    exact ⟨s.setSlot_running k _ _, rfl⟩

theorem State.bootSlot_security (s : State) (k : Nat) : (s.bootSlot k).security.running = true ∧
    (s.bootSlot k).security.booted = k ∧ (s.bootSlot k).security.bootedImage = s.security.image k := by
  unfold State.bootSlot
  extract_lets img security t
  have hk := keeps_forRange (n := 16) (.refl [.cores] t)
    (fun _ c h => State.modCore_keeps (Within.refl _) c (fun x => { x with microcode := imageMicrocode img }) h)
  rw [hk.security_eq (by decide)]
  exact ⟨rfl, rfl, rfl⟩

theorem State.verify_idle (h : s.run.st ≠ .boot ∨ s.security.running = true) : s.verify = s := by
  rcases h with h | h <;> simp [State.verify, h]

theorem State.verify_boots (hboot : s.run.st = .boot) (hidle : s.security.running = false) (hk : k = s.val 0x3100 7) : s.verify =
    if (s.trySlot k).2 = true then (s.trySlot k).1.bootSlot k
    else if ((s.trySlot k).1.trySlot (1 - k)).2 = true then ((s.trySlot k).1.trySlot (1 - k)).1.bootSlot (1 - k)
    else ((s.trySlot k).1.trySlot (1 - k)).1 := by
  simp [State.verify, hboot, hidle, hk]

end

theorem exec_firmwareVerified (dt : Nat) (s : State) : exec (.firmwareVerified dt) s = .next (s.elapse dt).verify := rfl

-- a trial, the counter and microcode (R265, R266, R268)

section
variable {s : State} {v c : Nat}

theorem exec_trialConfirm (dt : Nat) (road : Road) (v : BitVec 8) (s : State) : exec (.trialConfirm dt road v) s =
    .next ((s.elapse dt).writeRow road 0x3100 8 (leBytes 1 v.toNat) (State.trialConfirmAct v.toNat)) := rfl

theorem exec_commitSecurityVersion (dt : Nat) (road : Road) (v : BitVec 8) (s : State) :
    exec (.commitSecurityVersion dt road v) s =
      .next ((s.elapse dt).writeRow road 0x3100 0xA (leBytes 1 v.toNat) (State.commitAct v.toNat)) := rfl

theorem exec_microcodeUpdateCore (dt : Nat) (road : Road) (v : BitVec 8) (s : State) :
    exec (.microcodeUpdateCore dt road v) s =
      .next ((s.elapse dt).writeRow road 0x3100 0xC (leBytes 1 v.toNat) (State.microcodeAct v.toNat)) := rfl

/-- A slot on trial is VALID for good. -/
def State.confirmSlot (s : State) (k : Nat) : State :=
  { s.slotTo k .valid with security := { (s.slotTo k .valid).security with trialAt := none } }

theorem State.trialConfirmAct_confirms (hruns : s.security.running = true) (htrial : s.security.slot s.security.booted = .trial) :
    State.trialConfirmAct 1 s = (0, s.confirmSlot s.security.booted) := by
  simp [State.trialConfirmAct, hruns, htrial, accept, State.confirmSlot]

theorem State.trialConfirmAct_refused (h : s.security.running = false ∨ s.security.slot s.security.booted ≠ .trial) :
    State.trialConfirmAct 1 s = (abState, s) := by
  rcases h with h | h <;> simp [State.trialConfirmAct, h, refuse]

theorem State.confirmSlot_slot (s : State) (k : Nat) : (s.confirmSlot k).security.slot k = .valid :=
  (s.setSlot_slot k .valid _).1

theorem State.commitAct_large (h : 128 < v) : State.commitAct v s = (abRange, s) := by simp [State.commitAct, h, refuse]

theorem State.commitAct_raises (hv : v ≤ 128) (hruns : s.security.running = true)
    (hvalid : s.security.slot s.security.booted = .valid) (himage : v ≤ imageSvn (s.security.image s.security.booted)) :
    State.commitAct v s = (0, s.raiseTo 0x3100 6 v) := by
  simp [State.commitAct, Nat.not_lt.2 hv, hruns, hvalid, Nat.not_lt.2 himage, accept]

theorem State.commitAct_refused (hv : v ≤ 128)
    (h : s.security.running = false ∨ s.security.slot s.security.booted ≠ .valid ∨
      imageSvn (s.security.image s.security.booted) < v) : State.commitAct v s = (abState, s) := by
  rcases h with h | h | h <;> simp [State.commitAct, Nat.not_lt.2 hv, h, refuse]

/-- A core is in REPAIR for the microcode `d`. -/
def State.updateCore (s : State) (c d : Nat) : State :=
  { s.leave (coreRef c) .repair with security := { (s.leave (coreRef c) .repair).security with updating := some (c, d) } }

theorem State.microcodeAct_updates {d : Nat} (hc : c < 16) (hnone : s.security.updating = none)
    (hworks : s.unitWorks (coreRef c) = true) (hfresh : s.freshMicrocode = some d) :
    State.microcodeAct c s = (0, s.updateCore c d) := by
  simp [State.microcodeAct, Nat.not_le.2 hc, hnone, hworks, hfresh, accept, State.updateCore]

theorem State.microcodeAct_refused (hc : c < 16) (h : s.security.updating.isSome = true ∨ s.unitWorks (coreRef c) = false ∨
    s.freshMicrocode = none) : State.microcodeAct c s = (abState, s) := by
  unfold State.microcodeAct
  rw [if_neg (by omega)]
  rcases h with h | h | h
  · rw [if_pos (by simp [h])]; rfl
  · rw [if_pos (by simp [h])]; rfl
  · rw [h]
    split <;> rfl

theorem State.updateCore_unit (s : State) (c d : Nat) : (s.updateCore c d).unit (coreRef c) = .repair :=
  s.leave_unit (coreRef c) .repair

end

theorem exec_microcodeUpdateDone (dt : Nat) (c : Fin 16) (ok : Bool) (s : State) :
    exec (.microcodeUpdateDone dt c ok) s = .next ((s.elapse dt).microcodeDone c ok) := rfl

theorem exec_trialTimeout (dt : Nat) (s : State) : exec (.trialTimeout dt) s = .next (s.elapse dt).trialTimeout := rfl

theorem State.setUnit_unit (s : State) (r x : Nat) (st : UnitSt) : (s.setUnit r st).unit x = if x = r then st else s.unit x := by
  unfold State.setUnit
  extract_lets t
  have ht : t.unit x = if x = r then st else s.unit x := State.putUnit_unit s r x st
  split
  · rw [← ht]
    exact (State.takeLater_keeps (by decide : Within _ [.od, .hosts, .epoch, .loops, .convs, .events]) r
      (State.clearSource_keeps (by decide) r (.refl _ t))).unit_eq x (by decide)
  · exact ht

/-- A core has its microcode. -/
def State.loadMicrocode (s : State) (c d : Nat) : State :=
  ({ s with security := { s.security with updating := none } } : State).modCore c (fun x => { x with microcode := d })

theorem State.microcodeDone_other {s : State} {c : Nat} (ok : Bool) (h : ∀ d : Nat, s.security.updating ≠ some (c, d)) :
    s.microcodeDone c ok = s := by
  unfold State.microcodeDone
  split
  · rename_i u d hu
    have hne : u ≠ c := fun huc => h d (by rw [hu, huc])
    rw [if_pos (by simpa using hne)]
  · rfl

theorem State.microcodeDone_loads {s : State} {c d : Nat} (ok : Bool) (h : s.security.updating = some (c, d)) :
    s.microcodeDone c ok = if ok = true ∧ s.unit (coreRef c) = .repair then (s.loadMicrocode c d).setUnit (coreRef c) .ready
      else s.loadMicrocode c d := by
  have hunit : (s.loadMicrocode c d).unit (coreRef c) = s.unit (coreRef c) := rfl
  have hself : ¬ (c != c) = true := by simp
  simp only [State.microcodeDone, h]
  rw [if_neg hself, ← hunit]
  exact if_congr ((Bool.and_eq_true _ _).to_iff.trans (and_congr_right' decide_eq_true_iff)) rfl rfl

theorem State.microcodeDone_effect {s : State} {c d : Nat} (ok : Bool) (h : s.security.updating = some (c, d)) :
    (s.microcodeDone c ok).security.updating = none ∧ ((s.microcodeDone c ok).core c).microcode = d ∧
      (s.microcodeDone c ok).unit (coreRef c) =
        if ok = true ∧ s.unit (coreRef c) = .repair then .ready else s.unit (coreRef c) := by
  have hmicrocode : ((s.loadMicrocode c d).core c).microcode = d := by
    rw [State.loadMicrocode, State.modCore_core, if_pos rfl]
  rw [State.microcodeDone_loads ok h]
  split
  · have hk := State.setUnit_keeps (Within.refl _) (coreRef c) .ready (.refl _ (s.loadMicrocode c d))
    rw [hk.security_eq (by decide), hk.core_eq c (by decide), State.setUnit_unit, if_pos rfl]
    exact ⟨rfl, hmicrocode, rfl⟩
  · exact ⟨rfl, hmicrocode, rfl⟩

theorem State.trialTimeout_none {s : State} (h : s.security.trialAt = none ∨ s.security.running = false) :
    s.trialTimeout = s := by
  rcases h with h | h
  · simp [State.trialTimeout, h]
  · unfold State.trialTimeout
    split
    · rw [if_pos (by simp [h])]
    · rfl

theorem State.trialTimeout_runs {s : State} {g : Nat} (h : s.security.trialAt = some g) (hruns : s.security.running = true) :
    s.trialTimeout = if s.up < g + s.val 0x3100 9 * sPs then s else (s.slotTo s.security.booted .invalid).boot 3 := by
  simp [State.trialTimeout, h, hruns]

theorem State.boot_security (s : State) (cause k : Nat) : (s.boot cause).security.slot k = s.security.slot k ∧
    (s.boot cause).security.running = false ∧ (s.boot cause).run.st = .boot := ⟨rfl, rfl, rfl⟩

-- a slot that is written (R265, R376)

section
variable {s c : State} {k p q a n : Nat} {name img : List Byte} {e : List Byte}

theorem exec_foeWrite (dt : Nat) (name img : List Byte) (cut : Bool) (s : State) :
    exec (.foeWrite dt name img cut) s = .next ((s.elapse dt).foeWrite name img cut) := rfl

theorem State.writeSlot_passes (h : imagePasses img (s.val 0x3100 6) = true) :
    s.writeSlot k img = ((s.setSlot k .trial img).setVal 0x3100 7 k, true) := if_pos h

theorem State.writeSlot_fails (h : imagePasses img (s.val 0x3100 6) = false) :
    s.writeSlot k img = (s.setSlot k .empty [], false) := if_neg (by simp [h])

theorem State.foeWrite_deaf (cut : Bool) (h : s.al = 0 ∨ s.run.st = .off) : s.foeWrite name img cut = s := by
  rcases h with h | h <;> simp [State.foeWrite, h]

theorem State.foeWrite_noSlot (cut : Bool) (hal : s.al ≠ 0) (hon : s.run.st ≠ .off) (hname : foeSlot name = none) :
    s.foeWrite name img cut = s.emit (.foe 0x8001) := by
  simp [State.foeWrite, hal, hon, hname]

theorem State.foeWrite_slot (cut : Bool) (hal : s.al ≠ 0) (hon : s.run.st ≠ .off) (hname : foeSlot name = some k)
    (hright : has (s.classRights 1 6) 1 = true) : s.foeWrite name img cut =
      if s.isBooted k = true then s.emit (.foe 0x8002) else if cut = true then s.setSlot k .empty []
      else (s.writeSlot k img).1.emit (.foe (if (s.writeSlot k img).2 = true then 0 else 0x800B)) := by
  simp [State.foeWrite, hal, hon, hname, show has (s.classRights 1 6) rightW = true from hright]

/-- The request at the head of a ring. -/
def ringRq (p q : Nat) (e : List Byte) : Rq := { m := 2 + p, ring := some (p, q), entry := e }

theorem exec_firmware (dt : Nat) (s : State) :
    exec (.firmware dt) s = .next ((s.elapse dt).serve rqFirmware State.firmwareRq) := rfl

theorem exec_firmware_taken {s b : State} {dt : Nat} (hb : b = s.elapse dt)
    (htake : b.takeRequest rqFirmware = (c, some (p, q, e))) :
    exec (.firmware dt) s = .next (State.firmwareRq (ringRq p q e) c) := by
  rw [exec_firmware, ← hb, State.serve_some htake, ringRq]

theorem State.firmwareRq_denied (r : Rq) (h : has (s.classRights r.m 6) 1 = false) : State.firmwareRq r s =
    s.answerDenied r (odKey 0x3100 (2 + rqField r.entry 12 1)) 2 := by
  simp [State.firmwareRq, show has (s.classRights r.m 6) rightW = false from h]
  rfl

theorem State.firmwareRq_booted (r : Rq) (h : has (s.classRights r.m 6) 1 = true)
    (hbooted : s.isBooted (rqField r.entry 12 1) = true) : State.firmwareRq r s = s.answer r 0x0C 0 := by
  simp [State.firmwareRq, show has (s.classRights r.m 6) rightW = true from h, hbooted]
  rfl

theorem State.firmwareRq_writes (r : Rq) (h : has (s.classRights r.m 6) 1 = true)
    (hother : s.isBooted (rqField r.entry 12 1) = false) (hspan : rangeSpan (rqField r.entry 0 8) (rqField r.entry 8 4) = .hbm)
    (hmem : s.checkMem r.m (rqField r.entry 0 8) (rqField r.entry 8 4) 0 = .ok) {w : State × Bool}
    (hw : w = s.writeSlot (rqField r.entry 12 1) (s.mem.read (rqField r.entry 0 8) (rqField r.entry 8 4))) :
    State.firmwareRq r s = if w.2 = true then w.1.answer r 0 0 else w.1.takeFree.answer r s.freeStatus 0 := by
  simp [State.firmwareRq, show has (s.classRights r.m 6) rightW = true from h, hother, hspan,
    show s.checkMem r.m (rqField r.entry 0 8) (rqField r.entry 8 4) rightR = .ok from hmem, hw]

theorem State.freeStatus_bounds (s : State) : 1 ≤ s.freeStatus ∧ s.freeStatus ≤ 0x5F := by
  unfold State.freeStatus
  omega

end

-- reports (R270, R271)

section
variable {s c : State} {nonce : List Byte} {p q : Nat} {e : List Byte}

theorem exec_attestationNonce (dt : Nat) (road : Road) (nonce : List Byte) (s : State) :
    exec (.attestationNonce dt road nonce) s = .next ((s.elapse dt).writeRow road 0x3111 1 nonce (State.nonceAct nonce)) := rfl

/-- The bytes of a report: its head, and the signature with the next leaf. -/
def State.signedReport (s : State) (nonce : List Byte) : List Byte :=
  s.reportHead nonce ++ padTo 2820 0 (Config.xmssSign (s.reportHead nonce) s.leaf)

theorem State.report_used (hleaf : leafCount ≤ s.leaf) : s.report nonce = (0x50, s.setVal 0x3111 3 0x50, []) := if_pos hleaf

theorem State.report_waits (hleaf : s.leaf < leafCount) (hwait : s.signWait ≠ 0) :
    s.report nonce = (0x51, s.setVal 0x3111 3 (0x51 + 256 * s.signWait), []) := by
  rw [State.report, if_neg (Nat.not_le.2 hleaf), if_pos (by simpa using hwait)]

theorem State.report_signs (hleaf : s.leaf < leafCount) (hwait : s.signWait = 0) :
    s.report nonce = (0, s.signed.setVal 0x3111 3 0, s.signedReport nonce) := by
  rw [State.report, if_neg (Nat.not_le.2 hleaf), if_neg (by simp [hwait])]
  rfl

theorem State.nonceAct_length (h : nonce.length ≠ 32) : State.nonceAct nonce s = (abLength, s) := by
  simp [State.nonceAct, h, refuse]

/-- A report that is not signed leaves the one held. -/
theorem State.nonceAct_none {code : Nat} {t : State} (h : nonce.length = 32) (hreport : s.report nonce = (code, t, []))
    (hcode : code ≠ 0) : State.nonceAct nonce s = (0, t) := by
  simp [State.nonceAct, h, hreport, hcode, accept]

/-- A report is held. -/
def State.holdReport (s : State) (report : List Byte) : State := { s with security := { s.security with report := report } }

theorem State.holdReport_val (s : State) (report : List Byte) (x y : Nat) : (s.holdReport report).val x y = s.val x y := rfl

theorem State.nonceAct_signed (h : nonce.length = 32) (hleaf : s.leaf < leafCount) (hwait : s.signWait = 0) :
    State.nonceAct nonce s = (0, (s.signed.setVal 0x3111 3 0).holdReport (s.signedReport nonce)) := by
  simp [State.nonceAct, h, State.report_signs hleaf hwait, accept, State.holdReport]

theorem exec_attest (dt : Nat) (s : State) :
    exec (.attest dt) s = .next ((s.elapse dt).serve rqAttest State.attestRq) := rfl

theorem exec_attest_taken {s b : State} {dt : Nat} (hb : b = s.elapse dt)
    (htake : b.takeRequest rqAttest = (c, some (p, q, e))) :
    exec (.attest dt) s = .next (State.attestRq (ringRq p q e) c) := by
  rw [exec_attest, ← hb, State.serve_some htake, ringRq]

theorem State.attestRq_denied (r : Rq) (h : has (s.classRights r.m 6) 0 = false) :
    State.attestRq r s = s.answerDenied r (odKey 0x3111 1) 1 := by
  simp [State.attestRq, show has (s.classRights r.m 6) rightR = false from h]
  rfl

theorem State.attestRq_span (r : Rq) (h : has (s.classRights r.m 6) 0 = true)
    (hspan : rangeSpan (rqField r.entry 32 8) 3108 ≠ .hbm) :
    State.attestRq r s = s.answerDenied r (rqField r.entry 32 8) 2 := by
  simp [State.attestRq, show has (s.classRights r.m 6) rightR = true from h, hspan]
  rfl

theorem State.attestRq_reports (r : Rq) (h : has (s.classRights r.m 6) 0 = true)
    (hspan : rangeSpan (rqField r.entry 32 8) 3108 = .hbm) (hmem : s.checkMem r.m (rqField r.entry 32 8) 3108 1 = .ok)
    {x : Nat × State × List Byte} (hx : s.report ((r.entry.drop 8).take 32) = x) : State.attestRq r s =
      if x.1 = 0 then (x.2.1.storeBytes (rqField r.entry 32 8) x.2.2).answer r 0 s.leaf
      else x.2.1.answer r x.1 (if x.1 = 0x51 then s.signWait else 0) := by
  simp [State.attestRq, show has (s.classRights r.m 6) rightR = true from h, hspan,
    show s.checkMem r.m (rqField r.entry 32 8) 3108 rightW = .ok from hmem, hx]

end

-- the statement

/-- Settles O53: the access tables and their lock, then the slots as they boot, are confirmed, time out and are written, then
reports. That a row named by another command's entry does nothing is log entry 2; the codes of FoE are log entry 27, the reserved
bits of grants and the codes of regions and prefixes log entry 48. -/
theorem tablesFirmwareAndAttestation : Obligations.TablesFirmwareAndAttestation := by
  refine ⟨?tables, ?lock, ?verified, ?slots, ?entries, ?later, ?foe, ?firmware, ?idle, ?nonce, ?attest⟩
  case tables =>
    rintro s b dt i k m road index sub v w d via hb rfl rfl rfl rfl
    rw [exec_grantWrite, exec_regionWrite, exec_peerEntryWrite, ← hb]
    refine ⟨fun h => by rw [if_neg (by simp [h])], fun h => by rw [if_neg (by simp [h])], fun h => by rw [if_neg (by simp [h])],
      fun hgrant hadmits t ht => ?_, fun hregion hadmits t ht => ?_, fun hpeer hadmits => ?_⟩
    · rw [if_pos hgrant, State.writeRow_admitted hadmits, State.tableWrite_grant hgrant, ← ht]
      refine ⟨fun hfree => ?_, fun hset hmoves => by rw [if_pos ⟨hset, hmoves⟩]; rfl⟩
      rw [if_neg (fun h => by rcases hfree with hf | hf <;> simp [hf] at h)]
      exact ⟨rfl, by rw [ht, State.setVal_val_same]⟩
    · rw [if_pos hregion, State.writeRow_admitted hadmits, State.tableWrite_region hregion, ← ht]
      exact ⟨fun hrule => by rw [if_pos hrule], fun hrule => by rw [if_neg (by simp [hrule])]; rfl⟩
    · rw [if_pos hpeer, State.writeRow_admitted hadmits]
      refine ⟨fun hlong => by rw [State.tableWrite_peerLong hlong]; rfl, fun hprefix hfree => ⟨_, rfl, ?_⟩⟩
      rw [State.tableWrite_peer hpeer hprefix hfree, State.reply_val, State.setVal_val_same]
      rfl
  case lock =>
    rintro s b dt road value via hb rfl hadmits
    rw [exec_commissioningLock, ← hb, State.writeRow_admitted hadmits]
    refine ⟨fun hother => ?_, fun htrue hset => ?_, fun htrue hfree => ⟨_, rfl, ?_⟩⟩
    · rw [State.lockAct_other (fun h => hother (BitVec.eq_of_toNat_eq h))]; rfl
    · rw [htrue, toNat_true, State.lockAct_again hset]
    · rw [htrue, toNat_true, State.lockAct_first hfree, State.reply_flag, State.reply_val]
      refine ⟨?_, State.setVal_val_same _ _ _ _⟩
      rw [State.setVal_flag, if_neg (by decide), State.setVal_flag, if_pos rfl]
      rfl
  case verified =>
    rintro s b c dt k hb hk hc
    rw [exec_firmwareVerified, ← hb]
    refine ⟨fun h => by rw [State.verify_idle h], fun hboot hstopped => ?_⟩
    rw [State.verify_boots hboot hstopped hk, ← hc]
    refine ⟨fun hfirst => ⟨_, rfl, ?_⟩, fun hfirst hsecond => ⟨_, rfl, ?_⟩, fun hfirst hsecond => ⟨_, rfl, ?_⟩⟩
    · rw [if_pos hfirst, hc, State.trySlot_passes hfirst]
      exact b.bootSlot_security k
    · rw [if_neg (by simp [hfirst]), if_pos hsecond]
      obtain ⟨hruns, hbooted, -⟩ := ((c.trySlot (1 - k)).1).bootSlot_security (1 - k)
      exact ⟨hruns, hbooted⟩
    · rw [if_neg (by simp [hfirst]), if_neg (by simp [hsecond])]
      obtain ⟨hruns, hrun⟩ := b.trySlot_idle k
      obtain ⟨hruns', hrun'⟩ := c.trySlot_idle (1 - k)
      rw [hruns', hrun', hc, hruns, hrun]
      exact ⟨hstopped, hboot⟩
  case slots =>
    intro s k hk
    refine ⟨State.trySlot_none, fun hempty hinvalid => ?_⟩
    rw [State.trySlot_tried hempty hinvalid]
    refine ⟨fun hpasses => if_pos hpasses, fun hfails => ?_⟩
    obtain ⟨hslot, -⟩ := s.setSlot_slot k .invalid (s.security.image k)
    rw [if_neg (by simp [hfails])]
    refine ⟨rfl, ?_, State.bump_failures _⟩
    rw [State.bump_security]
    exact hslot
  case entries =>
    rintro s b dt k road value hb rfl
    rw [exec_trialConfirm, exec_commitSecurityVersion, exec_microcodeUpdateCore, ← hb]
    refine ⟨fun hadmits => ?_, fun hadmits => ?_, fun hadmits => ?_⟩
    · rw [State.writeRow_admitted hadmits]
      refine ⟨fun htrue hruns htrial => ⟨_, rfl, ?_⟩, fun htrue hno => ?_⟩
      · rw [htrue, toNat_true, State.trialConfirmAct_confirms hruns htrial, State.reply_security]
        exact ⟨b.confirmSlot_slot _, rfl⟩
      · rw [htrue, toNat_true, State.trialConfirmAct_refused hno]; rfl
    · rw [State.writeRow_admitted hadmits]
      refine ⟨fun hlarge => ?_, fun hsmall hruns hvalid himage => ⟨_, rfl, ?_⟩, fun hsmall hno => ?_⟩
      · rw [State.commitAct_large hlarge]; rfl
      · rw [State.commitAct_raises hsmall hruns hvalid himage, State.reply_val, State.raiseTo_val_max]
      · rw [State.commitAct_refused hsmall hno]; rfl
    · rw [State.writeRow_admitted hadmits]
      refine ⟨fun d hcore hnone hworks hfresh => ⟨_, rfl, ?_⟩, fun hcore hno => ?_⟩
      · rw [State.microcodeAct_updates hcore hnone hworks hfresh, State.reply_security, State.reply_unit]
        exact ⟨rfl, b.updateCore_unit _ d⟩
      · rw [State.microcodeAct_refused hcore hno]; rfl
  case later =>
    rintro s b dt c ok hb
    rw [exec_microcodeUpdateDone, exec_trialTimeout, ← hb]
    refine ⟨fun hother => by rw [State.microcodeDone_other ok hother],
      fun d hupdating => ⟨_, rfl, State.microcodeDone_effect ok hupdating⟩,
      fun hnone => by rw [State.trialTimeout_none hnone], fun g hat hruns => ?_⟩
    rw [State.trialTimeout_runs hat hruns]
    refine ⟨fun hearly => by rw [if_pos (show b.up < g + b.val 0x3100 9 * sPs from hearly)],
      fun hdue hslot => ⟨_, rfl, ?_⟩⟩
    obtain ⟨hkept, hstopped, hboot⟩ := (b.slotTo b.security.booted .invalid).boot_security 3 b.security.booted
    rw [if_neg (Nat.not_lt.2 (show g + b.val 0x3100 9 * sPs ≤ b.up from hdue)), hkept]
    exact ⟨hboot, (b.setSlot_slot _ .invalid _).1, hstopped, State.setVal_val_same _ _ _ _⟩
  case foe =>
    rintro s b dt k name img cut hb
    rw [exec_foeWrite, ← hb]
    refine ⟨fun hdeaf => by rw [State.foeWrite_deaf cut hdeaf], fun hal hon => ⟨fun hname => ?_, fun hname hright => ?_⟩⟩
    · rw [State.foeWrite_noSlot cut hal hon hname]
    · rw [State.foeWrite_slot cut hal hon hname hright]
      refine ⟨fun hbooted => by rw [if_pos hbooted], fun hother hcut => ⟨_, rfl, ?_⟩, fun hother hwhole => ?_⟩
      · rw [if_neg (by simp [hother]), if_pos hcut]
        exact ⟨(b.setSlot_slot k .empty []).1, rfl⟩
      · rw [if_neg (by simp [hother]), if_neg (by simp [hwhole])]
        refine ⟨fun hpass => ⟨_, rfl, ?_⟩, fun hfail => ⟨_, rfl, ?_⟩⟩
        · obtain ⟨hslot, himage⟩ := b.setSlot_slot k .trial img
          rw [State.writeSlot_passes hpass]
          exact ⟨hslot, himage, State.setVal_val_same _ _ _ _, rfl⟩
        · rw [State.writeSlot_fails hfail]
          exact ⟨(b.setSlot_slot k .empty []).1, rfl⟩
  case firmware =>
    rintro s b c dt p q a n k e r hb htake hr rfl rfl rfl
    rw [exec_firmware_taken hb htake, hr]
    refine ⟨fun hdenied => ?_, fun hright => ⟨fun hbooted => ?_, fun hother hspan hmem => ⟨fun hpass => ?_,
      fun hfail => ?_⟩⟩⟩
    · rw [State.firmwareRq_denied (ringRq p q e) hdenied]; rfl
    · rw [State.firmwareRq_booted (ringRq p q e) hright hbooted]; rfl
    · rw [State.firmwareRq_writes (ringRq p q e) hright hother hspan hmem (State.writeSlot_passes hpass).symm, if_pos rfl]; rfl
    · rw [State.firmwareRq_writes (ringRq p q e) hright hother hspan hmem (State.writeSlot_fails hfail).symm, if_neg (by simp)]
      exact ⟨_, c.freeStatus_bounds.1, c.freeStatus_bounds.2, rfl⟩
  case idle =>
    intro s b dt hb
    rw [exec_firmware, exec_attest, ← hb]
    exact ⟨fun c hnone => by rw [State.serve_none hnone], fun c hnone => by rw [State.serve_none hnone]⟩
  case nonce =>
    rintro s b dt road nonce hb hadmits
    rw [exec_attestationNonce, ← hb, State.writeRow_admitted hadmits]
    refine ⟨fun hlength => ?_, fun hlength hleaf hwait => ⟨_, rfl, ?_⟩, fun hlength hused => ⟨_, rfl, ?_⟩,
      fun hlength hleaf hwait => ⟨_, rfl, ?_⟩⟩
    · rw [State.nonceAct_length hlength]; rfl
    · obtain ⟨hcount, -⟩ := b.signed_effect
      rw [State.nonceAct_signed hlength hleaf hwait, State.reply_security, State.reply_val, State.reply_val]
      dsimp only
      rw [State.holdReport_val, State.holdReport_val, State.setVal_val_same, State.setVal_val_other _ _ _ _ _ _ (by decide)]
      exact ⟨rfl, rfl, hcount⟩
    · rw [State.nonceAct_none hlength (State.report_used hused) (by decide), State.reply_security, State.reply_val]
      exact ⟨rfl, State.setVal_val_same _ _ _ _⟩
    · rw [State.nonceAct_none hlength (State.report_waits hleaf hwait) (by decide), State.reply_security, State.reply_val]
      exact ⟨rfl, State.setVal_val_same _ _ _ _⟩
  case attest =>
    rintro s b c dt p q a e r hb htake hr rfl
    rw [exec_attest_taken hb htake, hr]
    refine ⟨fun hdenied => ?_, fun hright => ⟨fun hspan => ?_, fun hspan hmem => ⟨fun hused => ?_, fun hleaf hwait => ?_,
      fun hleaf hwait => ?_⟩⟩⟩
    · rw [State.attestRq_denied (ringRq p q e) hdenied]; rfl
    · rw [State.attestRq_span (ringRq p q e) hright hspan]; rfl
    · rw [State.attestRq_reports (ringRq p q e) hright hspan hmem (State.report_used hused),
        if_neg (show 0x50 ≠ 0 by decide)]
      rfl
    · rw [State.attestRq_reports (ringRq p q e) hright hspan hmem (State.report_waits hleaf hwait),
        if_neg (show 0x51 ≠ 0 by decide)]
      rfl
    · rw [State.attestRq_reports (ringRq p q e) hright hspan hmem (State.report_signs hleaf hwait), if_pos rfl]; rfl

-- states that meet the hypotheses of its clauses; `Tests.served` is one where master 1 may write every entry

open Tests (served)

/-- The reserved bits of a grant are 0. -/
theorem witness_grantWritten :
    ∃ t, exec (.grantWrite 0 .coe 0x3070 1 0xFF001001) served = .next t ∧ t.val 0x3070 1 = 0x1F001001 := by
  obtain ⟨htables, -⟩ := tablesFirmwareAndAttestation
  obtain ⟨-, -, -, hgrant, -⟩ := htables served _ 0 _ _ _ .coe 0x3070 1 0xFF001001 0 [] _ rfl rfl rfl rfl rfl
  obtain ⟨hfree, -⟩ := hgrant (by decide) ⟨by decide, by decide⟩ _ rfl
  obtain ⟨ht, hval⟩ := hfree (.inl (by decide))
  exact ⟨_, ht, hval.trans (by decide)⟩

/-- A region of 64 MiB is taken, and one off its granule refused. -/
theorem witness_regions :
    (∃ t, exec (.regionWrite 0 .coe 0x3020 2 0x4000000) served = .next t ∧ t.val 0x3020 2 = 0x4000000) ∧
    ∃ t, exec (.regionWrite 0 .coe 0x3020 2 0x4000001) served = .next t ∧ t.out = [.sdoAbort 0x06090030] := by
  obtain ⟨htables, -⟩ := tablesFirmwareAndAttestation
  obtain ⟨-, -, -, -, hregion, -⟩ := htables served _ 0 _ _ _ .coe 0x3020 2 0 0x4000000 [] _ rfl rfl rfl rfl rfl
  obtain ⟨htaken, -⟩ := hregion (by decide) ⟨by decide, by decide⟩ _ rfl
  obtain ⟨-, -, -, -, hregion', -⟩ := htables served _ 0 _ _ _ .coe 0x3020 2 0 0x4000001 [] _ rfl rfl rfl rfl rfl
  obtain ⟨-, hrefused⟩ := hregion' (by decide) ⟨by decide, by decide⟩ _ rfl
  exact ⟨⟨_, htaken (by decide), by decide⟩, _, hrefused (by decide), by decide⟩

/-- A peer entry with ADDRESS 7, and a PREFIX. -/
def peerEntry (pre : Byte) : List Byte := leBytes 16 7 ++ [pre, 1, 0, 0]

theorem witness_peers : (∃ t, exec (.peerEntryWrite 0 .coe 0x3010 1 (peerEntry 128)) served = .next t ∧
      t.val 0x3010 1 = 7 + 128 * 2 ^ 128 + 2 ^ 136) ∧
    ∃ t, exec (.peerEntryWrite 0 .coe 0x3010 1 (peerEntry 129)) served = .next t ∧ t.out = [.sdoAbort 0x06090030] := by
  obtain ⟨htables, -⟩ := tablesFirmwareAndAttestation
  obtain ⟨-, -, -, -, -, hpeer⟩ := htables served _ 0 _ _ _ .coe 0x3010 1 0 0 (peerEntry 128) _ rfl rfl rfl rfl rfl
  obtain ⟨-, htaken⟩ := hpeer (by decide) ⟨by decide, by decide⟩
  obtain ⟨t, ht, hval⟩ := htaken (by decide) (by decide)
  obtain ⟨-, -, -, -, -, hpeer'⟩ := htables served _ 0 _ _ _ .coe 0x3010 1 0 0 (peerEntry 129) _ rfl rfl rfl rfl rfl
  obtain ⟨hlong, -⟩ := hpeer' (by decide) ⟨by decide, by decide⟩
  exact ⟨⟨t, ht, hval.trans (by decide)⟩, _, hlong (by decide), by decide⟩

theorem witness_locked : (∃ t, exec (.commissioningLock 0 .coe 1) served = .next t ∧ t.flag 0x3120 1 = true) ∧
    ∃ t, exec (.commissioningLock 0 .coe 0) served = .next t ∧ t.out = [.sdoAbort 0x06090030] := by
  obtain ⟨-, hlock, -⟩ := tablesFirmwareAndAttestation
  obtain ⟨-, -, hfirst⟩ := hlock served _ 0 .coe 1 _ rfl rfl ⟨by decide, by decide⟩
  obtain ⟨t, ht, hflag, -⟩ := hfirst rfl (by decide)
  obtain ⟨hother, -⟩ := hlock served _ 0 .coe 0 _ rfl rfl ⟨by decide, by decide⟩
  exact ⟨⟨t, ht, hflag⟩, _, hother (by decide), by decide⟩

/-- Slot A boots from the reset state. Where its image is one byte it fails, and slot B boots. -/
theorem witness_verified :
    (∃ t, exec (.firmwareVerified 0) State.reset = .next t ∧ t.security.running = true ∧ t.security.booted = 0) ∧
    ∃ t, exec (.firmwareVerified 0) { State.reset with security := { imageA := [1], slotB := .valid } } = .next t ∧
      t.security.booted = 1 := by
  obtain ⟨-, -, hverified, -⟩ := tablesFirmwareAndAttestation
  obtain ⟨-, hboot⟩ := hverified State.reset _ _ 0 _ rfl rfl rfl
  obtain ⟨hfirst, -⟩ := hboot rfl rfl
  obtain ⟨t, ht, hruns, hbooted, -⟩ := hfirst (by decide)
  obtain ⟨-, hboot'⟩ := hverified { State.reset with security := { imageA := [1], slotB := .valid } } _ _ 0 _ rfl rfl rfl
  obtain ⟨-, hsecond, -⟩ := hboot' rfl rfl
  obtain ⟨t', ht', -, hbooted'⟩ := hsecond (by decide) (by decide)
  exact ⟨⟨t, ht, hruns, hbooted.trans (by decide)⟩, t', ht', hbooted'.trans (by decide)⟩

theorem witness_slotFails :
    (({ State.reset with security := { imageA := [1] } } : State).trySlot 0).1.security.slot 0 = .invalid := by
  obtain ⟨-, -, -, hslots, -⟩ := tablesFirmwareAndAttestation
  obtain ⟨-, htried⟩ := hslots { State.reset with security := { imageA := [1] } } 0 (by decide)
  obtain ⟨-, hfails⟩ := htried (by decide) (by decide)
  obtain ⟨-, hslot, -⟩ := hfails (by decide)
  exact hslot

/-- An image with one component: core microcode that may be loaded in service, with DIGEST 7. -/
def microcodeImage : List Byte :=
  leBytes 16 0 ++ leBytes 4 1 ++ List.replicate 2900 0 ++ leBytes 4 2 ++ leBytes 4 1 ++ leBytes 8 0 ++ leBytes 32 7

/-- The device runs from slot A, in the state `st`, and core 2 is READY. -/
def slotRuns (st : SlotSt) : State :=
  { served.putUnit (coreRef 2) .ready with
    security := { slotA := st, imageA := microcodeImage, running := true, trialAt := some 0 } }

theorem witness_trialConfirmed :
    ∃ t, exec (.trialConfirm 0 .coe 1) (slotRuns .trial) = .next t ∧ t.security.slot 0 = .valid := by
  obtain ⟨-, -, -, -, hentries, -⟩ := tablesFirmwareAndAttestation
  obtain ⟨htrial, -⟩ := hentries (slotRuns .trial) _ 0 _ .coe 1 rfl rfl
  obtain ⟨hconfirms, -⟩ := htrial ⟨by decide, by decide⟩
  obtain ⟨t, ht, hslot, -⟩ := hconfirms rfl rfl rfl
  exact ⟨t, ht, hslot⟩

/-- The counter rises to 0, which the image holds, and not to 1. -/
theorem witness_versionCommitted :
    (∃ t, exec (.commitSecurityVersion 0 .coe 0) (slotRuns .valid) = .next t ∧ t.val 0x3100 6 = 0) ∧
    ∃ t, exec (.commitSecurityVersion 0 .coe 1) (slotRuns .valid) = .next t ∧ t.out = [.sdoAbort 0x08000022] := by
  obtain ⟨-, -, -, -, hentries, -⟩ := tablesFirmwareAndAttestation
  obtain ⟨-, hcommit, -⟩ := hentries (slotRuns .valid) _ 0 _ .coe 0 rfl rfl
  obtain ⟨-, hrises, -⟩ := hcommit ⟨by decide, by decide⟩
  obtain ⟨t, ht, hval⟩ := hrises (by decide) rfl rfl (by decide)
  obtain ⟨-, hcommit', -⟩ := hentries (slotRuns .valid) _ 0 _ .coe 1 rfl rfl
  obtain ⟨-, -, hrefused⟩ := hcommit' ⟨by decide, by decide⟩
  exact ⟨⟨t, ht, hval.trans (by decide)⟩, _, hrefused (by decide) (.inr (.inr (by decide))), by decide⟩

theorem witness_microcodeUpdate : ∃ t, exec (.microcodeUpdateCore 0 .coe 2) (slotRuns .valid) = .next t ∧
    t.unit (coreRef 2) = .repair := by
  obtain ⟨-, -, -, -, hentries, -⟩ := tablesFirmwareAndAttestation
  obtain ⟨-, -, hupdate⟩ := hentries (slotRuns .valid) _ 0 _ .coe 2 rfl rfl
  obtain ⟨hrepairs, -⟩ := hupdate ⟨by decide, by decide⟩
  obtain ⟨t, ht, -, hunit⟩ := hrepairs 7 (by decide) rfl (by decide) (by decide +kernel)
  exact ⟨t, ht, hunit⟩

/-- Core 2 is in REPAIR for the microcode 7. -/
def updateRuns : State :=
  { State.reset.putUnit (coreRef 2) .repair with security := { updating := some (2, 7), running := true, trialAt := some 0 } }

theorem witness_microcodeDone : ∃ t, exec (.microcodeUpdateDone 0 2 true) updateRuns = .next t ∧ (t.core 2).microcode = 7 ∧
    t.unit (coreRef 2) = .ready := by
  obtain ⟨-, -, -, -, -, hlater, -⟩ := tablesFirmwareAndAttestation
  obtain ⟨-, hdone, -⟩ := hlater updateRuns _ 0 2 true rfl
  obtain ⟨t, ht, -, hmicrocode, hunit⟩ := hdone 7 rfl
  exact ⟨t, ht, hmicrocode, hunit.trans (by decide)⟩

theorem witness_trialTimedOut :
    ∃ t, exec (.trialTimeout (updateRuns.val 0x3100 9 * sPs)) updateRuns = .next t ∧ t.run.st = .boot ∧
    t.security.slot 0 = .invalid := by
  obtain ⟨-, -, -, -, -, hlater, -⟩ := tablesFirmwareAndAttestation
  obtain ⟨-, -, -, htimeout⟩ := hlater updateRuns _ (updateRuns.val 0x3100 9 * sPs) 0 true rfl
  obtain ⟨-, hdue⟩ := htimeout 0 rfl rfl
  obtain ⟨t, ht, hboot, hslot, -⟩ := hdue (by decide) (by decide)
  exact ⟨t, ht, hboot, hslot⟩

/-- The file name of slot B. -/
def nameB : List Byte := [0x50, 0x4C, 0x56, 0x2D, 0x42]

/-- An image that does not pass leaves slot B EMPTY; no slot has the empty name. -/
theorem witness_foe : (∃ t, exec (.foeWrite 0 nameB [1] false) served = .next t ∧ t.out = [.foe 0x800B]) ∧
    ∃ t, exec (.foeWrite 0 [] [1] false) served = .next t ∧ t.out = [.foe 0x8001] := by
  obtain ⟨-, -, -, -, -, -, hfoe, -⟩ := tablesFirmwareAndAttestation
  obtain ⟨-, hheard⟩ := hfoe served _ 0 1 nameB [1] false rfl
  obtain ⟨-, hslot⟩ := hheard (by decide) (by decide)
  obtain ⟨-, -, hwhole⟩ := hslot (by decide) (by decide)
  obtain ⟨-, hfails⟩ := hwhole (by decide) rfl
  obtain ⟨t, ht, -, hout⟩ := hfails (by decide)
  obtain ⟨-, hheard'⟩ := hfoe served _ 0 1 [] [1] false rfl
  obtain ⟨hnone, -⟩ := hheard' (by decide) (by decide)
  exact ⟨⟨t, ht, hout⟩, _, hnone (by decide), rfl⟩

/-- The first nonce is answered at once and uses up the first leaf. -/
theorem witness_nonce : ∃ t, exec (.attestationNonce 0 .coe (List.replicate 32 5)) served = .next t ∧ t.val 0x3111 3 = 0 ∧
    t.val 0x3110 3 = 1 := by
  obtain ⟨-, -, -, -, -, -, -, -, -, hnonce, -⟩ := tablesFirmwareAndAttestation
  obtain ⟨-, hsigns, -⟩ := hnonce served _ 0 .coe (List.replicate 32 5) rfl ⟨by decide, by decide⟩
  obtain ⟨t, ht, -, hcode, hleaf⟩ := hsigns rfl (by decide) (by decide)
  exact ⟨t, ht, hcode, hleaf.trans (by decide)⟩

/-- A request of port A for the firmware or for a report waits; its master holds every right, and the last
report was signed at 0. -/
def securityWaits (type : Byte) : State :=
  { ((requestWaits type 0x100000 [] {}).allowPortA.setVal 0x3073 25 0x1F002002) with
    security := { lastSignature := some 0, imageA := [1] } }

/-- An image of no bytes does not pass: slot A is EMPTY. -/
theorem witness_firmwareWritten : ∃ t, exec (.firmware 0) (securityWaits 6) = .next t ∧ t.security.slot 0 = .empty := by
  obtain ⟨-, -, -, -, -, -, -, hfirmware, -⟩ := tablesFirmwareAndAttestation
  obtain ⟨-, hright⟩ := hfirmware (securityWaits 6) _ _ 0 0 0 _ _ _ _ _ rfl
    (State.takeRequest_next (by decide) (by decide) (by decide)) rfl rfl rfl rfl
  obtain ⟨-, hwrites⟩ := hright (by decide)
  obtain ⟨-, hfails⟩ := hwrites (by decide) (by decide) (by decide)
  obtain ⟨status, -, -, ht⟩ := hfails (by decide)
  refine ⟨_, ht, ?_⟩
  rw [(State.answer_keeps (Within.refl _) _ _ _ (.refl _ _)).security_eq (by decide)]
  decide

/-- A request for a report within the interval is answered with the wait. -/
theorem witness_reportWaits : ∃ t, exec (.attest 0) (securityWaits 7) = .next t ∧ t.answered = 0x51 := by
  obtain ⟨-, -, -, -, -, -, -, -, -, -, hattest⟩ := tablesFirmwareAndAttestation
  obtain ⟨-, hright⟩ := hattest (securityWaits 7) _ _ 0 0 0 _ _ _ rfl
    (State.takeRequest_next (by decide) (by decide) (by decide)) rfl rfl
  obtain ⟨-, hreports⟩ := hright (by decide)
  obtain ⟨-, hwaits, -⟩ := hreports (by decide) (by decide)
  exact ⟨_, hwaits (by decide) (by decide), by decide⟩

end Sys2Proof.Machine
end

section
/-! Kelig time over a tick and a slew (R275), the step on an empty queue (log entry 5) and what reset leaves (R275, R507): the
statements O7, O2 and O6. -/

namespace Sys2Proof.Machine

-- the slew

/-- What a slew moves time by over `d` ps: at most 2 ppm of them, with the part of a ps already due, and at most what is left
(R275). -/
def Clock.slewPart (c : Clock) (d : Nat) : Nat := min ((c.slewAcc + 2 * d) / 1000000) c.slewLeft.natAbs

section
variable {c : Clock} {d : Nat}

theorem Clock.elapse_unslewed (h : c.slewLeft = 0) : c.elapse d = { c with now := c.now + d, up := c.up + d, slewAcc := 0 } := by
  simp [Clock.elapse, h]

theorem Clock.elapse_forward (h : 0 < c.slewLeft) : c.elapse d = { c with
    now := c.now + d + c.slewPart d, up := c.up + d, slewLeft := c.slewLeft - c.slewPart d
    slewAcc := (c.slewAcc + 2 * d) % 1000000 } := by
  simp [Clock.elapse, Clock.slewPart, h, h.ne']

theorem Clock.elapse_back (h : c.slewLeft < 0) : c.elapse d = { c with
    now := c.now + d - c.slewPart d, up := c.up + d, slewLeft := c.slewLeft + c.slewPart d
    slewAcc := (c.slewAcc + 2 * d) % 1000000 } := by
  simp [Clock.elapse, Clock.slewPart, h.ne, h.le]

theorem Clock.slewPart_le_left (c : Clock) (d : Nat) : c.slewPart d ≤ c.slewLeft.natAbs := Nat.min_le_right _ _

theorem Clock.slewPart_le_ppm (c : Clock) (d : Nat) : 1000000 * c.slewPart d ≤ 2 * d + c.slewAcc := by
  have h : c.slewPart d ≤ (c.slewAcc + 2 * d) / 1000000 := Nat.min_le_left _ _
  omega

end

/-- Settles O7: without a correction left, with one that takes time on, and with one that holds it back. -/
theorem slewMovesTimeByAtMostTwoPpm : Obligations.SlewMovesTimeByAtMostTwoPpm := by
  intro c d hacc hd
  have hleft := c.slewPart_le_left d
  have hppm := c.slewPart_le_ppm d
  rcases lt_trichotomy c.slewLeft 0 with h | h | h
  · rw [Clock.elapse_back h]
    generalize c.slewPart d = part at *
    refine ⟨rfl, Nat.mod_lt _ (by decide), ?_, ?_, ?_, ?_, fun h0 => absurd h0 h.ne⟩ <;> dsimp only <;> omega
  · rw [Clock.elapse_unslewed h]
    refine ⟨rfl, Nat.zero_lt_succ _, ?_, ?_, ?_, le_refl _, fun _ => rfl⟩ <;> dsimp only <;> omega
  · rw [Clock.elapse_forward h]
    generalize c.slewPart d = part at *
    refine ⟨rfl, Nat.mod_lt _ (by decide), ?_, ?_, ?_, ?_, fun h0 => absurd h0 h.ne'⟩ <;> dsimp only <;> omega

/-- Half a second into a slew of 2 us the clock has gained a whole 1 us, 2 ppm, and half of it is left to move. -/
def slewing : Clock := { now := 5, slewLeft := 2000000 }

theorem witness_slewed : ((slewing.elapse 500000000000).now : Int) + (slewing.elapse 500000000000).slewLeft = 500002000005 ∧
    (slewing.elapse 500000000000).slewLeft = 1000000 := by
  obtain ⟨-, -, -, hsum, -⟩ := slewMovesTimeByAtMostTwoPpm slewing 500000000000 (by decide) (by decide)
  exact ⟨hsum, by decide⟩

-- the empty queue

theorem step_tick {s : State} (h : s.pending = []) : step s = .next (s.elapse 800) := by rw [step, h]

/-- Settles O2. That a step on an empty queue is one tick of 0.8 ns is the model's choice (log entry 5). -/
theorem emptyQueueStepIsOneTick : Obligations.EmptyQueueStepIsOneTick := by
  intro s h
  refine ⟨_, step_tick h, ⟨rfl, List.prefix_refl _, rfl, id, fun p hp => ?_⟩, s.clock.elapse_up 800,
    fun hslew => congrArg Clock.now (Clock.elapse_unslewed hslew)⟩
  cases p
  case clock => exact absurd (List.mem_singleton.2 rfl) hp
  all_goals rfl

theorem witness_tick : ∃ t, step State.reset = .next t ∧ t.clock.now = 800 := by
  obtain ⟨t, ht, -, -, hnow⟩ := emptyQueueStepIsOneTick State.reset rfl
  exact ⟨t, ht, hnow rfl⟩

-- reset

/-- Settles O6: the tables of the memory, the units, the jobs, the streams and the hosts are empty, so that every entry reads as
its default. -/
theorem resetValues : Obligations.ResetValues :=
  ⟨rfl, rfl, rfl, rfl, fun _ => rfl, fun _ => rfl, fun _ => rfl, fun _ => rfl, rfl, fun _ => rfl, rfl, rfl, rfl, rfl⟩

end Sys2Proof.Machine
end

section
/-! Time sources (R276, R277, R280), steps and slews (R279), lock states (R278, R291) and what the boundary clock sends (R282): what
following, losing and correcting leave of the sources, and the statement O38. -/

namespace Sys2Proof.Machine

-- what is read of one source after a change

theorem sPs_eq : sPs = 1000000000000 := rfl
theorem two_sPs : 2 * sPs = 2000000000000 := rfl

/-- Two seconds have passed since a time that is known. -/
theorem twoSeconds_passed {since : Option Nat} {t up : Nat} (h : since = some t) (hup : t + 2000000000000 ≤ up) :
    since.any (fun t => t + 2 * sPs ≤ up) = true := by
  rw [← two_sPs] at hup
  rw [h, Option.any_some, decide_eq_true hup]

theorem twoSeconds_notYet {since : Option Nat} {t up : Nat} (h : since = some t) (hup : up < t + 2000000000000) :
    since.any (fun t => t + 2 * sPs ≤ up) = false := by
  rw [← two_sPs] at hup
  rw [h, Option.any_some, decide_eq_false hup.not_ge]

theorem srcNo_ne_zero (src : TimeSrc) : srcNo src ≠ 0 := by cases src <;> decide

theorem State.modSource_source (s : State) (k : Nat) (f : TimeSource → TimeSource) :
    (s.modSource k f).source k = f (s.source k) := by
  simp only [State.modSource, State.source, TimeState.modSrc, TimeState.src]
  split <;> first | rfl | (split <;> rfl)

theorem State.modSource_followed (s : State) (k : Nat) (f : TimeSource → TimeSource) :
    (s.modSource k f).time.followed = s.time.followed := by
  simp only [State.modSource, TimeState.modSrc]
  split <;> first | rfl | (split <;> rfl)

theorem State.modSource_lock (s : State) (k : Nat) (f : TimeSource → TimeSource) : (s.modSource k f).time.lock = s.time.lock := by
  simp only [State.modSource, TimeState.modSrc]
  split <;> first | rfl | (split <;> rfl)

/-- The source is the same but for its last offset: time has stepped (R279). -/
def TimeSource.Moved (x y : TimeSource) : Prop := y = { x with offset := y.offset }

/-- The same source is followed, and every source is the same but for its offset. -/
def TimeState.Moved (a b : TimeState) : Prop := b.followed = a.followed ∧ ∀ k, (a.src k).Moved (b.src k)

theorem TimeState.Moved.refl (a : TimeState) : a.Moved a := ⟨rfl, fun _ => rfl⟩

theorem TimeState.Moved.trans {a b c : TimeState} (h : a.Moved b) (k : b.Moved c) : a.Moved c :=
  ⟨k.1.trans h.1, fun n => by
    have hn := k.2 n
    rw [h.2 n] at hn
    exact hn⟩

/-- Moving the offset of one source. -/
theorem State.modSource_moved (s : State) (j : Nat) (g : TimeSource → Int) :
    s.time.Moved (s.modSource j (fun x => { x with offset := g x })).time := by
  refine ⟨s.modSource_followed j _, fun k => ?_⟩
  simp only [State.modSource, TimeState.modSrc, TimeState.src, TimeSource.Moved]
  repeat' split
  all_goals rfl

-- steps (R279)

theorem State.stepTime_moved (s : State) (off : Int) : s.time.Moved (s.stepTime off).time := by
  have hfold : ∀ (xs : List Nat) (t : State), t.time.Moved (xs.foldl (fun s k => if k = 0 then s else
      s.modSource k (fun x => { x with offset := x.offset - off })) t).time := by
    intro xs
    induction xs with
    | nil => exact fun t => .refl _
    | cons k xs ih =>
      intro t
      refine TimeState.Moved.trans ?_ (ih _)
      dsimp only
      split
      · exact .refl _
      · exact t.modSource_moved k _
  unfold State.stepTime
  rw [State.bump_time]
  exact hfold _ _

theorem State.stepTime_clock (s : State) (off : Int) :
    (s.stepTime off).clock = { s.clock with now := ((s.clock.now : Int) - off).toNat, slewLeft := 0 } := by
  unfold State.stepTime
  rw [State.bump_clock]
  exact (keeps_forRange (.refl [.time] _) fun _ _ h =>
    keeps_ite h (State.modSource_keeps (Within.refl _) _ _ h)).clock_eq (by decide)

/-- An offset is stepped beyond the Step Threshold where a step is permitted. -/
def State.mayStep (s : State) (off : Int) : Prop :=
  s.val 0x2101 7 * 1000 < off.natAbs ∧ ((s.run.st ≠ .serving ∧ s.run.st ≠ .draining) ∨ s.flag 0x2101 8 = true)

theorem State.correct_steps {s : State} {off : Int} (h : s.mayStep off) : s.correct off = s.stepTime off := by
  obtain ⟨hfar, hpermitted⟩ := h
  refine if_pos ?_
  rcases hpermitted with ⟨hserving, hdraining⟩ | hflag
  · simp [hfar, hserving, hdraining]
  · simp [hfar, hflag]

theorem State.correct_slews {s : State} {off : Int} (h : off.natAbs ≤ s.val 0x2101 7 * 1000 ∨
    ((s.run.st = .serving ∨ s.run.st = .draining) ∧ s.flag 0x2101 8 = false)) :
    s.correct off = { s with clock := { s.clock with slewLeft := -off } } := by
  refine if_neg ?_
  rcases h with hnear | ⟨hserves | hserves, hflag⟩
  · simp [hnear.not_gt]
  · simp [hserves, hflag]
  · simp [hserves, hflag]

theorem State.correct_moved (s : State) (off : Int) : s.time.Moved (s.correct off).time := by
  unfold State.correct
  split
  · exact s.stepTime_moved off
  · exact .refl _

-- lock states (R278)

theorem State.lockTo_time (s : State) (st : LockSt) :
    (s.lockTo st).time = { s.time with lock := st, since := s.up, withinSince := none } := State.bump_time _ _ _ _

theorem State.enterHoldover_moved (s : State) : s.time.Moved s.enterHoldover.time := by
  unfold State.enterHoldover
  split
  · rw [State.raise_time, State.lockTo_time]
    exact ⟨rfl, fun _ => rfl⟩
  · exact .refl _

-- following (R277)

theorem State.followOffset_moved (s : State) (off : Int) : s.time.Moved (s.followOffset off).time := by
  unfold State.followOffset
  extract_lets held
  have hheld : s.time.Moved held.time := by
    unfold held
    split
    · exact s.enterHoldover_moved
    · exact .refl _
  exact (hheld.trans ⟨rfl, fun _ => rfl⟩).trans ((held.trackLock off).correct_moved off)

theorem State.follow_followed (s : State) (k : Nat) : (s.follow k).time.followed = k :=
  (State.followOffset_moved { s with time := { s.time with followed := k, withinSince := none } } _).1

theorem State.follow_source (s : State) (j k : Nat) : (s.source k).Moved ((s.follow j).source k) :=
  (State.followOffset_moved { s with time := { s.time with followed := j, withinSince := none } } _).2 k

theorem State.unfollow_source (s : State) (j k : Nat) : (s.source k).Moved ((s.unfollow j).source k) := by
  unfold State.unfollow
  split
  · exact (TimeState.Moved.refl _).2 k
  · split
    · exact (State.enterHoldover_moved { s with time := { s.time with followed := 0, withinSince := none } }).2 k
    · exact s.follow_source _ k

theorem State.bestSource_qualified {s : State} (h : s.bestSource ≠ 0) : (s.source s.bestSource).qualified = true := by
  unfold State.bestSource at h ⊢
  cases hfind : (List.range 4).find? (fun k => k != 0 && (s.source k).qualified) with
  | none => simp [hfind] at h
  | some k =>
    have hk := List.find?_some hfind
    simp only [Bool.and_eq_true] at hk
    simpa using hk.2

/-- A source that is not qualified is not followed once it is let go. -/
theorem State.unfollow_followed {s : State} {k : Nat} (hk : k ≠ 0) (h : (s.source k).qualified = false) :
    (s.unfollow k).time.followed ≠ k := by
  unfold State.unfollow
  split
  next hother => simpa using hother
  next =>
    split
    · rw [(State.enterHoldover_moved { s with time := { s.time with followed := 0, withinSince := none } }).1]
      exact hk.symm
    · rename_i hbest
      rw [s.follow_followed]
      intro heq
      have hq := State.bestSource_qualified hbest
      rw [heq, h] at hq
      cases hq

-- updates (R276)

theorem exec_sourceUpdate (dt : Nat) (src : TimeSrc) (off : Int) (cls : BitVec 8) (utc : Option (BitVec 16)) (s : State) :
    exec (.sourceUpdate dt src off cls utc) s = .next ((s.elapse dt).sourceUpdate (srcNo src) off cls.toNat utc) := rfl

theorem State.sourceUpdate_disabled {s : State} {k : Nat} (off : Int) (cls : Nat) (utc : Option (BitVec 16))
    (h : s.flag 0x2101 k = false) : s.sourceUpdate k off cls utc = s := by simp [State.sourceUpdate, h]

/-- An update counts for the source within 1 us and against it beyond. -/
def TimeSource.counted (x : TimeSource) (now : Nat) (off : Int) (cls : Nat) : TimeSource :=
  { x with
    present := some (x.present.getD now), lastAt := now, offset := off, clockClass := cls
    inBand := if off.natAbs ≤ usPs then min 16 (x.inBand + 1) else 0
    outBand := if off.natAbs ≤ usPs then 0 else min 16 (x.outBand + 1) }

theorem TimeSource.counted_full (x : TimeSource) (now : Nat) (off : Int) (cls : Nat) :
    (x.counted now off cls).outBand = 16 ↔ 1000000 < off.natAbs ∧ 15 ≤ x.outBand := by
  have hus : usPs = 1000000 := rfl
  by_cases h : off.natAbs ≤ usPs
  · simp only [TimeSource.counted, if_pos h]
    omega
  · simp only [TimeSource.counted, if_neg h]
    omega

/-- A source, qualified or not. -/
def TimeSource.withQualified (x : TimeSource) (q : Bool) : TimeSource := { x with qualified := q }

/-- What an update leaves of its source: as counted, and qualified unless it was the sixteenth beyond 1 us outside FREE-RUN. -/
theorem State.updateSource_source (s : State) (k : Nat) (off : Int) (cls : Nat) :
    (((s.source k).counted s.up off cls).withQualified ((s.source k).qualified &&
      !(decide (((s.source k).counted s.up off cls).outBand = 16) && s.time.lock != .freeRun))).Moved
      ((s.updateSource k off cls).source k) := by
  have hcounted := s.modSource_source k (fun x => x.counted s.up off cls)
  have hlock := s.modSource_lock k (fun x => x.counted s.up off cls)
  generalize hc : s.modSource k (fun x => x.counted s.up off cls) = c at hcounted hlock
  have heq : s.updateSource k off cls =
      if (c.source k).qualified && decide ((c.source k).outBand = 16) && c.time.lock != .freeRun then
        (c.modSource k (TimeSource.withQualified · false)).unfollow k
      else if c.time.followed = k then c.followOffset off
      else if c.time.followed = 0 && c.bestPresent = k then c.correct off
      else c := by rw [← hc]; rfl
  rw [heq, ← hcounted, ← hlock]
  have hq : (c.source k).qualified = (s.source k).qualified := by rw [hcounted]; rfl
  rw [← hq]
  split
  · rename_i hlost
    have hnone : ((c.source k).qualified && !(decide ((c.source k).outBand = 16) && c.time.lock != .freeRun)) = false := by
      simp only [Bool.and_eq_true] at hlost
      simp [hlost.1.2, hlost.2]
    rw [hnone, ← c.modSource_source k (TimeSource.withQualified · false)]
    exact State.unfollow_source _ k k
  · rename_i hkept
    have hsame : ((c.source k).qualified && !(decide ((c.source k).outBand = 16) && c.time.lock != .freeRun)) =
        (c.source k).qualified := by
      revert hkept
      cases (c.source k).qualified <;> cases decide ((c.source k).outBand = 16) <;> cases c.time.lock != .freeRun <;> simp
    rw [hsame]
    split
    · exact (c.followOffset_moved off).2 k
    · split
      · exact (c.correct_moved off).2 k
      · exact (TimeState.Moved.refl c.time).2 k

/-- The UTC offset that PTP brings is kept (R274). -/
def State.keepUtc (s : State) (k : Nat) (utc : Option (BitVec 16)) : State :=
  match utc with
  | some u => if k = 1 then s.setVal 0x2100 7 u.toNat else s
  | none => s

theorem State.keepUtc_kept (s : State) (k : Nat) (utc : Option (BitVec 16)) :
    (s.keepUtc k utc).time = s.time ∧ (s.keepUtc k utc).clock = s.clock := by
  cases utc with
  | none => exact ⟨rfl, rfl⟩
  | some u =>
    dsimp only [State.keepUtc]
    split <;> exact ⟨rfl, rfl⟩

theorem State.sourceUpdate_enabled {s : State} {k : Nat} (off : Int) (cls : Nat) (utc : Option (BitVec 16))
    (h : s.flag 0x2101 k = true) : s.sourceUpdate k off cls utc = (s.keepUtc k utc).updateSource k off cls :=
  if_neg (by simp [h])

-- qualification and loss (R276, R277)

theorem exec_sourceQualified (dt : Nat) (src : TimeSrc) (s : State) :
    exec (.sourceQualified dt src) s = .next ((s.elapse dt).qualify (srcNo src)) := rfl

section
variable {s : State} {k : Nat}

theorem State.qualify_not (h : (s.source k).qualified = true ∨ (s.source k).inBand < 16 ∨ (s.source k).present = none ∨
    (k = 3 ∧ s.time.dayKnown = false)) : s.qualify k = s := by
  refine if_pos ?_
  rcases h with h | h | h | ⟨hk, h⟩
  · simp [h]
  · simp [h]
  · simp [h]
  · simp [hk, h]

theorem State.qualify_early {since : Nat} (hpresent : (s.source k).present = some since)
    (hearly : s.up < since + 2000000000000) : s.qualify k = s :=
  if_pos (by simp [twoSeconds_notYet hpresent hearly])

/-- The source is qualified from now on. -/
def State.markQualified (s : State) (k : Nat) : State := s.modSource k (fun x => { x with qualified := true, qualifiedAt := s.up })

theorem State.qualify_due {since : Nat} (hnot : (s.source k).qualified = false) (hband : 16 ≤ (s.source k).inBand)
    (hday : k = 3 → s.time.dayKnown = true) (hpresent : (s.source k).present = some since)
    (hdue : since + 2000000000000 ≤ s.up) :
    s.qualify k = if s.time.followed = 0 then (s.markQualified k).follow k else s.markQualified k := by
  rw [← s.modSource_followed k (fun x => { x with qualified := true, qualifiedAt := s.up })]
  refine if_neg ?_
  have hknown : ¬ (k = 3 ∧ s.time.dayKnown = false) := fun ⟨hk, hno⟩ => by simp [hday hk] at hno
  simp [hnot, twoSeconds_passed hpresent hdue, hband, hknown]

theorem exec_sourceLost (dt : Nat) (src : TimeSrc) (s : State) :
    exec (.sourceLost dt src) s = .next ((s.elapse dt).sourceLost (srcNo src)) := rfl

theorem State.sourceLost_absent (h : (s.source k).present = none) : s.sourceLost k = s := if_pos (by simp [h])

/-- How long a source may be silent: DC 100 ms, 1PPS 1.1 s (R276). -/
def lossLimit (k : Nat) : Nat := if k = 2 then 100 * msPs else if k = 3 then 1100 * msPs else 0

theorem State.sourceLost_early (h : s.up < (s.source k).lastAt + lossLimit k) : s.sourceLost k = s :=
  if_pos (by simp only [Bool.or_eq_true, decide_eq_true_eq]; exact .inr h)

theorem State.sourceLost_due (hpresent : (s.source k).present.isSome = true) (h : (s.source k).lastAt + lossLimit k ≤ s.up) :
    s.sourceLost k = (s.modSource k (fun _ => {})).unfollow k := by
  refine if_neg ?_
  simp only [Bool.or_eq_true, decide_eq_true_eq, not_or]
  exact ⟨by simp [Option.isSome_iff_ne_none.1 hpresent], Nat.not_lt.2 h⟩

end

/-- A source that is lost is absent, not qualified and not followed. -/
theorem State.lost_source (s : State) {k : Nat} (hk : k ≠ 0) :
    (((s.modSource k (fun _ => {})).unfollow k).source k).present = none ∧
    (((s.modSource k (fun _ => {})).unfollow k).source k).qualified = false ∧
    ((s.modSource k (fun _ => {})).unfollow k).time.followed ≠ k := by
  have hnew := s.modSource_source k (fun _ => {})
  have hmoved := (s.modSource k (fun _ => {})).unfollow_source k k
  rw [hnew] at hmoved
  exact ⟨by rw [hmoved], by rw [hmoved], State.unfollow_followed hk (by rw [hnew])⟩

theorem exec_waitToRestore (dt : Nat) (s : State) : exec (.waitToRestore dt) s = .next (s.elapse dt).restoreSource := rfl

section
variable {s : State}

theorem State.restoreSource_none (h : s.bestSource = 0) : s.restoreSource = s := if_pos (by simp [h])

theorem State.restoreSource_waits (h : s.up < (s.source s.bestSource).qualifiedAt + s.val 0x2101 4 * 1000000000000) :
    s.restoreSource = s :=
  if_pos (by simp only [Bool.or_eq_true, decide_eq_true_eq]; exact .inr h)

theorem State.restoreSource_due (hbest : s.bestSource ≠ 0) (hlower : s.time.followed = 0 ∨ s.bestSource < s.time.followed)
    (h : (s.source s.bestSource).qualifiedAt + s.val 0x2101 4 * 1000000000000 ≤ s.up) :
    s.restoreSource = s.follow s.bestSource := by
  refine if_neg ?_
  rw [← sPs_eq] at h
  simp only [Bool.or_eq_true, Bool.and_eq_true, decide_eq_true_eq, bne_iff_ne, not_or, not_and]
  exact ⟨⟨hbest, by omega⟩, h.not_gt⟩

end

-- lock (R278, R280, R291)

theorem exec_timeLocked (dt : Nat) (s : State) : exec (.timeLocked dt) s = .next (s.elapse dt).lockTime := rfl

section
variable {s : State} {since : Nat}

theorem State.lockTime_not (h : s.time.followed = 0 ∨ s.time.lock = .locked ∨ s.time.withinSince = none) : s.lockTime = s := by
  refine if_pos ?_
  rcases h with h | h | h <;> simp [h]

theorem State.lockTime_early (hwithin : s.time.withinSince = some since) (h : s.up < since + 2000000000000) : s.lockTime = s :=
  if_pos (by simp [twoSeconds_notYet hwithin h])

/-- LOCKED is entered (R278). -/
def State.enterLocked (s : State) : State := (s.lockTo .locked).clearAlarm 0x0112 0

theorem State.enterLocked_time (s : State) :
    s.enterLocked.time = { s.time with lock := .locked, since := s.up, withinSince := none } := by
  rw [State.enterLocked, State.clearAlarm_time, State.lockTo_time]

theorem State.enterLocked_clock (s : State) : s.enterLocked.clock = s.clock := by
  rw [State.enterLocked, State.clearAlarm_clock]
  exact State.bump_clock _ _ _ _

theorem State.lockTime_due (hfollowed : s.time.followed ≠ 0) (hlock : s.time.lock ≠ .locked)
    (hwithin : s.time.withinSince = some since) (h : since + 2000000000000 ≤ s.up) :
    s.lockTime = ({ s.enterLocked with time := { s.enterLocked.time with
      withinSince := s.time.withinSince, grandmaster := (s.enterLocked.source s.time.followed).clockClass
      dayKnown := s.enterLocked.time.dayKnown || s.time.followed != 3 } } : State).raise 0x0110 0 s.time.followed :=
  if_neg (by simp [hfollowed, hlock, twoSeconds_passed hwithin h])

theorem exec_timeFreeRun (dt : Nat) (s : State) : exec (.timeFreeRun dt) s = .next (s.elapse dt).freeRunTime := rfl

theorem State.freeRunTime_not (h : s.time.lock ≠ .holdover ∨ s.up < s.time.since + s.val 0x2101 6 * 1000000000000) :
    s.freeRunTime = s := by
  refine if_neg ?_
  rw [← sPs_eq] at h
  simp only [Bool.and_eq_true, decide_eq_true_eq]
  rintro ⟨hlock, hdue⟩
  exact h.elim (· hlock) hdue.not_gt

theorem State.freeRunTime_due (hlock : s.time.lock = .holdover) (h : s.time.since + s.val 0x2101 6 * 1000000000000 ≤ s.up) :
    s.freeRunTime = ((s.lockTo .freeRun).raise 0x0112 0 0).refuseCross := by
  rw [← sPs_eq] at h
  exact if_pos (by simp [hlock, h])

end

theorem State.failLaunch_launches (s : State) (l : Launch) (status : Nat) : (s.failLaunch l status).sched.launches =
    s.sched.launches.filter (fun x => !(x.job = l.job && x.tag = l.tag)) := by
  unfold State.failLaunch
  extract_lets closed counted
  have hpost := (State.postStep_keeps (Within.refl _) l.job status 0 (counted.job l.job).stepNo (.refl _ counted)).sched_eq (by decide)
  rw [hpost]
  simp only [counted, State.modJob_sched, closed, State.closeLaunch_launches]
  rfl

theorem State.refuseCross_time (s : State) : s.refuseCross.time = s.time :=
  (State.refuseCross_keeps (Within.refl _) (.refl _ s)).time_eq (by decide)

/-- Every pending cross-device record goes, and none comes (R291). -/
theorem State.refuseCross_launches (s : State) : ∀ l ∈ s.refuseCross.sched.launches, l.cross = false := by
  have hfold : ∀ (xs : List Launch) (t : State), (∀ l ∈ t.sched.launches, l.cross = true → l ∈ xs) →
      ∀ l ∈ (xs.foldl (fun s l => (s.bump 0x2107 2 1).failLaunch l stLaunchUnlocked) t).sched.launches, l.cross = false := by
    intro xs
    induction xs with
    | nil =>
      intro t hall l hl
      by_contra hcross
      exact absurd (hall l hl (by simpa using hcross)) (List.not_mem_nil)
    | cons x xs ih =>
      intro t hall
      rw [List.foldl_cons]
      refine ih ((t.bump 0x2107 2 1).failLaunch x stLaunchUnlocked) fun l hl hcross => ?_
      rw [State.failLaunch_launches, State.bump_sched] at hl
      obtain ⟨hl, hkept⟩ := List.mem_filter.1 hl
      rcases List.mem_cons.1 (hall l hl hcross) with rfl | hmem
      · simp at hkept
      · exact hmem
  exact hfold _ s fun l hl hcross => List.mem_filter.2 ⟨hl, by simpa using hcross⟩

-- 1PPS and the time of day (R280)

theorem exec_ppsEdge (dt : Nat) (s : State) : exec (.ppsEdge dt) s = .next (s.elapse dt).ppsEdge := rfl

theorem State.ppsEdge_unused {s : State} (h : s.flag 0x2101 3 = false ∨ s.time.dayKnown = false) : s.ppsEdge = s := by
  refine if_pos ?_
  rcases h with h | h <;> simp [h]

theorem State.ppsEdge_first {s : State} {second : Nat} (hflag : s.flag 0x2101 3 = true) (hday : s.time.dayKnown = true)
    (hnext : s.time.nextEdge = some second) (habsent : (s.source 3).present = none) :
    s.ppsEdge = ({ s with time := { s.time with nextEdge := some (second + 1) } } : State).updateSource 3
      ((s.clock.now : Int) - 1000 * s.valInt 0x2105 1 32 - second * 1000000000000) 0 := by
  unfold State.ppsEdge
  rw [if_neg (by simp [hflag, hday])]
  simp only [habsent, hnext, Option.isSome_none, Bool.false_and, Bool.false_eq_true, if_false, Option.getD_some,
    Option.map_some, sPs_eq, Nat.cast_ofNat]

theorem exec_timeOfDay (dt : Nat) (road : Road) (seconds : BitVec 64) (s : State) : exec (.timeOfDay dt road seconds) s =
    .next ((s.elapse dt).writeRow road 0x2105 3 (leBytes 8 seconds.toNat) (State.timeOfDayAct seconds.toNat)) := rfl

-- the boundary clock (R282)

theorem exec_syncAndAnnounceSend (dt : Nat) (s : State) : exec (.syncAndAnnounceSend dt) s = .next (s.elapse dt).announceAll := rfl

theorem State.announceAll_off {s : State} (h : s.flag 0x2101 1 = false ∨ s.flag 0x2102 4 = false) : s.announceAll = s := by
  rcases h with h | h <;> simp [State.announceAll, h]

/-- The messages of a list of ports: one on each that is in service. -/
theorem State.announceFold_out (cls : Nat) (xs : List Nat) (s : State) :
    (xs.foldl (fun s n => if (s.unit (portRef n)).works then s.emit (.announce n cls) else s) s).out =
      s.out ++ (xs.filter (fun n => (s.unit (portRef n)).works)).map (fun n => .announce n cls) := by
  induction xs generalizing s with
  | nil => simp
  | cons n xs ih =>
    rw [List.foldl_cons, ih]
    by_cases h : (s.unit (portRef n)).works = true
    · simp [h, State.emit_out]
    · simp [h]

theorem State.classSent_kept (s : State) : s.classSent.2.out = s.out ∧ s.classSent.2.units = s.units := by
  unfold State.classSent
  split
  · split <;> exact ⟨rfl, rfl⟩
  · exact ⟨rfl, rfl⟩
  · exact ⟨rfl, rfl⟩

theorem State.announceAll_out {s : State} (hptp : s.flag 0x2101 1 = true) (hboundary : s.flag 0x2102 4 = true) :
    s.announceAll.out = s.out ++
      ((List.range 128).filter (fun n => (s.unit (portRef n)).works)).map (fun n => .announce n s.classSent.1) := by
  obtain ⟨hout, hunits⟩ := s.classSent_kept
  unfold State.announceAll
  rw [if_neg (by simp [hptp, hboundary])]
  refine (s.classSent.2.announceFold_out _ _).trans ?_
  simp only [hout, State.unit, hunits]

theorem State.classSent_freeRun {s : State} (h : s.time.lock = .freeRun) : s.classSent.1 = 248 := by simp [State.classSent, h]

theorem State.classSent_holdover {s : State} (h : s.time.lock = .holdover) :
    s.classSent.1 = if s.up ≤ s.time.since + 14400 * sPs then 135 else 165 := by simp [State.classSent, h]

theorem State.classSent_ptp {s : State} (h : s.time.lock = .locked) (hptp : s.time.followed = 1) :
    s.classSent.1 = (s.source 1).clockClass := by simp [State.classSent, h, hptp]

-- the statement

/-- Settles O38, clause by clause: updates, qualification, loss, the return to a better source, correction, lock, free run, the 1PPS
edge, the time of day, and what is announced. Announce on every port in service and what a lost source leaves are log entry 42; that
a command without its condition changes nothing is log entry 2. -/
theorem timeFollowsItsSources : Obligations.TimeFollowsItsSources := by
  refine ⟨?update, ?qualified, ?lost, ?restore, ?correct, ?locked, ?freeRun, ?edge, ?day, ?announce⟩
  case update =>
    rintro s b dt k src off cls utc hb hk
    rw [exec_sourceUpdate, ← hb, ← hk]
    refine ⟨fun hoff => by rw [State.sourceUpdate_disabled _ _ _ hoff], fun hon => ?_⟩
    obtain ⟨htime, hclock⟩ := b.keepUtc_kept k utc
    have hsource := (b.keepUtc k utc).updateSource_source k off cls.toNat
    have hfull := (b.source k).counted_full b.up off cls.toNat
    rw [show (b.keepUtc k utc).source k = b.source k from congrArg (TimeState.src · k) htime,
      show (b.keepUtc k utc).up = b.up from congrArg Clock.up hclock, htime] at hsource
    rw [State.sourceUpdate_enabled _ _ _ hon]
    refine ⟨_, rfl, ?_⟩
    rw [hsource]
    refine ⟨rfl, rfl, rfl, fun hnear => ⟨if_pos hnear, if_pos hnear⟩, fun hfar => ⟨if_neg hfar.not_ge, if_neg hfar.not_ge⟩,
      fun hkept => ?_, fun hfar hrun hlock => ?_⟩
    · have hnot : (decide (((b.source k).counted b.up off cls.toNat).outBand = 16) && b.time.lock != .freeRun) = false := by
        rcases hkept with h | h | h
        · simp [hfull, h.not_gt]
        · simp [hfull, h]
        · simp [h]
      simp [TimeSource.withQualified, hnot]
    · simp [TimeSource.withQualified, hfull.2 ⟨hfar, hrun⟩, hlock]
  case qualified =>
    rintro s b dt k src hb hk
    rw [exec_sourceQualified, ← hb, ← hk]
    refine ⟨fun hnot => by rw [State.qualify_not hnot], fun since hnot hband hday hpresent => ⟨fun hearly => ?_, fun hdue => ?_⟩⟩
    · rw [State.qualify_early hpresent hearly]
    · refine ⟨_, rfl, fun hnone => ?_, fun hother => ?_⟩
      · rw [State.qualify_due hnot hband hday hpresent hdue, if_pos hnone]
        rfl
      · rw [State.qualify_due hnot hband hday hpresent hdue, if_neg hother]
        rfl
  case lost =>
    rintro s b dt k src hb hk
    rw [exec_sourceLost, ← hb, ← hk]
    refine ⟨fun habsent => by rw [State.sourceLost_absent habsent], fun hpresent => ⟨fun hdc hearly => ?_, fun hpps hearly => ?_,
      fun hdc hpps hlast => ?_⟩⟩
    · rw [State.sourceLost_early (by rw [hdc] at hearly ⊢; exact hearly)]
    · rw [State.sourceLost_early (by rw [hpps] at hearly ⊢; exact hearly)]
    · have hlimit : (b.source k).lastAt + lossLimit k ≤ b.up := by
        unfold lossLimit
        split
        · rename_i h; exact hdc h
        · split
          · rename_i h; exact hpps h
          · exact hlast
      rw [State.sourceLost_due hpresent hlimit]
      exact ⟨_, rfl, rfl, b.lost_source (hk ▸ srcNo_ne_zero src)⟩
  case restore =>
    rintro s b dt hb
    rw [exec_waitToRestore, ← hb]
    refine ⟨fun hnone => by rw [State.restoreSource_none hnone], fun hbest hlower => ⟨fun hwaits => ?_, fun hdue => ?_⟩⟩
    · rw [State.restoreSource_waits hwaits]
    · rw [State.restoreSource_due hbest hlower hdue]
      exact ⟨_, rfl, rfl, b.follow_followed _⟩
  case correct =>
    rintro s off
    refine ⟨fun hfar hpermitted => ?_, State.correct_slews⟩
    rw [State.correct_steps ⟨hfar, hpermitted⟩, State.stepTime_clock]
    exact ⟨rfl, rfl, rfl⟩
  case locked =>
    rintro s b dt since hb
    rw [exec_timeLocked, ← hb]
    refine ⟨fun hnot => by rw [State.lockTime_not hnot], fun hfollowed hlock hwithin => ⟨fun hearly => ?_, fun hdue => ?_⟩⟩
    · rw [State.lockTime_early hwithin hearly]
    · rw [State.lockTime_due hfollowed hlock hwithin hdue]
      refine ⟨_, rfl, ?_⟩
      rw [State.raise_time, State.raise_clock]
      dsimp only
      rw [b.enterLocked_time, b.enterLocked_clock]
      exact ⟨rfl, rfl, rfl, fun hother => by simp [hother], rfl⟩
  case freeRun =>
    rintro s b dt hb
    rw [exec_timeFreeRun, ← hb]
    refine ⟨fun hnot => by rw [State.freeRunTime_not hnot], fun hlock hdue => ?_⟩
    rw [State.freeRunTime_due hlock hdue]
    refine ⟨_, rfl, ?_, State.refuseCross_launches _⟩
    rw [State.refuseCross_time, State.raise_time, State.lockTo_time]
  case edge =>
    rintro s b dt hb
    rw [exec_ppsEdge, ← hb]
    refine ⟨fun hunused => by rw [State.ppsEdge_unused hunused], fun second hflag hday hnext habsent => ?_⟩
    rw [State.ppsEdge_first hflag hday hnext habsent]
  case day =>
    rintro s b dt road seconds hb hadmits
    rw [exec_timeOfDay, ← hb, State.writeRow_admitted hadmits, State.timeOfDayAct]
    refine ⟨fun hfits => ?_, fun hlarge => ?_⟩
    · rw [if_neg hfits.not_ge]
      rfl
    · rw [if_pos hlarge]
      rfl
  case announce =>
    rintro s b dt hb
    rw [exec_syncAndAnnounceSend, ← hb]
    refine ⟨fun hoff => by rw [State.announceAll_off hoff], fun hptp hboundary =>
      ⟨_, _, rfl, State.announceAll_out hptp hboundary, State.classSent_freeRun, fun hlock hrecent => ?_, fun hlock hlong => ?_,
        State.classSent_ptp⟩⟩
    · rw [State.classSent_holdover hlock, sPs_eq, if_pos hrecent]
    · rw [State.classSent_holdover hlock, sPs_eq, if_neg hlong.not_ge]

end Sys2Proof.Machine
end

section
/-! Epochs (R295 to R299): what is staged, what each command comes to, what the commit time leaves, and which units are MIXED: the
statement O39. -/

namespace Sys2Proof.Machine

-- staging (R295)

theorem exec_epochStageWrite (dt : Nat) (road : Road) (i : BitVec 16) (k : BitVec 8) (d : List Byte) (s : State) :
    exec (.epochStageWrite dt road i k d) s = .next (if isEpochEntry i.toNat k.toNat then
      (s.elapse dt).writeRow road i.toNat k.toNat d (State.stageAct i.toNat k.toNat (leNat d)) else s.elapse dt) := rfl

section
variable {s : State} {i k v : Nat}

/-- A value is staged in place of an earlier one of the entry, and the staged values are counted. -/
def State.stage (s : State) (key v : Nat) : State :=
  let l := s.epoch.staged.filter (fun x => x.1 != key) ++ [(key, v)]
  ({ s with epoch := { s.epoch with staged := l } } : State).setVal 0x2002 2 l.length

theorem State.stageAct_closed (h : s.epoch.st ≠ .pending) : State.stageAct i k v s = (abState, s) := by
  simp [State.stageAct, h, refuse]

theorem State.stageAct_refused (hopen : s.epoch.st = .pending) (h : s.stageCheck i v ≠ 0) :
    State.stageAct i k v s = (s.stageCheck i v, s) := by
  simp [State.stageAct, hopen, h, refuse]

theorem State.stageAct_stages (hopen : s.epoch.st = .pending) (h : s.stageCheck i v = 0) :
    State.stageAct i k v s = (0, s.stage (odKey i k) v) := by
  simp [State.stageAct, hopen, h, accept, State.stage]

theorem State.stage_epoch (s : State) (key v : Nat) :
    (s.stage key v).epoch = { s.epoch with staged := s.epoch.staged.filter (fun x => x.1 != key) ++ [(key, v)] } := rfl

theorem State.mem_stage_same (s : State) (key v w : Nat) : (key, w) ∈ (s.stage key v).epoch.staged ↔ w = v := by
  simp [State.stage_epoch]

theorem State.mem_stage_other (s : State) {key x : Nat} (v w : Nat) (h : x ≠ key) :
    (x, w) ∈ (s.stage key v).epoch.staged ↔ (x, w) ∈ s.epoch.staged := by
  simp [State.stage_epoch, h]

end

-- commands (R296, R299)

theorem exec_epochOpen (dt : Nat) (road : Road) (s : State) :
    exec (.epochOpen dt road) s = .next ((s.elapse dt).writeRow road 0x2002 5 [1] State.epochOpenAct) := rfl
theorem exec_epochCommit (dt : Nat) (road : Road) (s : State) :
    exec (.epochCommit dt road) s = .next ((s.elapse dt).writeRow road 0x2002 5 [2] State.epochCommitAct) := rfl
theorem exec_epochAbort (dt : Nat) (road : Road) (s : State) :
    exec (.epochAbort dt road) s = .next ((s.elapse dt).writeRow road 0x2002 5 [3] State.epochAbortAct) := rfl
theorem exec_epochRecommit (dt : Nat) (road : Road) (s : State) :
    exec (.epochRecommit dt road) s = .next ((s.elapse dt).writeRow road 0x2002 5 [4] State.epochRecommitAct) := rfl
theorem exec_epochRevert (dt : Nat) (road : Road) (s : State) :
    exec (.epochRevert dt road) s = .next ((s.elapse dt).writeRow road 0x2002 5 [5] State.epochRevertAct) := rfl

section
variable {s : State}

theorem State.commitTimeOk_iff : s.commitTimeOk = true ↔
    s.ns + 20000 ≤ timeNs (s.val 0x2002 3) ∧ timeNs (s.val 0x2002 3) ≤ s.ns + 3600000000000 := by
  simp [State.commitTimeOk]

theorem State.epochOpenAct_opens (h : s.epoch.st = .stable) : State.epochOpenAct s = (0, s.unstage.epochTo .pending) := if_pos h
theorem State.epochOpenAct_refused (h : s.epoch.st ≠ .stable) : State.epochOpenAct s = (abState, s) := if_neg h
theorem State.epochAbortAct_aborts (h : s.epoch.st = .pending) : State.epochAbortAct s = (0, s.unstage.epochTo .stable) := if_pos h
theorem State.epochAbortAct_refused (h : s.epoch.st ≠ .pending) : State.epochAbortAct s = (abState, s) := if_neg h

theorem State.epochCommitAct_commits (h : s.epoch.st = .pending) (hearliest : s.ns + 20000 ≤ timeNs (s.val 0x2002 3))
    (hlatest : timeNs (s.val 0x2002 3) ≤ s.ns + 3600000000000) : State.epochCommitAct s = (0, s.commitWith 0) :=
  if_pos (by simp [h, State.commitTimeOk_iff.2 ⟨hearliest, hlatest⟩])

theorem State.epochCommitAct_refused (h : s.epoch.st ≠ .pending ∨ timeNs (s.val 0x2002 3) < s.ns + 20000 ∨
    s.ns + 3600000000000 < timeNs (s.val 0x2002 3)) : State.epochCommitAct s = (abState, s) := by
  refine if_neg ?_
  simp only [Bool.and_eq_true, decide_eq_true_eq, State.commitTimeOk_iff]
  rintro ⟨hpending, hearliest, hlatest⟩
  rcases h with h | h | h
  · exact h hpending
  · omega
  · omega

theorem State.epochRecommitAct_commits (h : s.epoch.st = .mixed) (hearliest : s.ns + 20000 ≤ timeNs (s.val 0x2002 3))
    (hlatest : timeNs (s.val 0x2002 3) ≤ s.ns + 3600000000000) : State.epochRecommitAct s = (0, s.commitWith 1) :=
  if_pos (by simp [h, State.commitTimeOk_iff.2 ⟨hearliest, hlatest⟩])
theorem State.epochRevertAct_commits (h : s.epoch.st = .mixed) (hearliest : s.ns + 20000 ≤ timeNs (s.val 0x2002 3))
    (hlatest : timeNs (s.val 0x2002 3) ≤ s.ns + 3600000000000) : State.epochRevertAct s = (0, s.commitWith 2) :=
  if_pos (by simp [h, State.commitTimeOk_iff.2 ⟨hearliest, hlatest⟩])
theorem State.epochRecommitAct_refused (h : s.epoch.st ≠ .mixed) : State.epochRecommitAct s = (abState, s) := if_neg (by simp [h])
theorem State.epochRevertAct_refused (h : s.epoch.st ≠ .mixed) : State.epochRevertAct s = (abState, s) := if_neg (by simp [h])

end

theorem State.unstage_number (s : State) : s.unstage.val 0x2002 1 = s.val 0x2002 1 :=
  State.setVal_val_other _ _ _ _ _ _ (by decide)

-- the commit time (R297)

theorem exec_epochCommitTime (dt : Nat) (s : State) : exec (.epochCommitTime dt) s = .next (s.elapse dt).commitTime := rfl

section
variable {s : State}

theorem State.commitTime_not (h : s.epoch.st ≠ .committing ∨ s.epoch.applying = true ∨ s.ns < s.epoch.commitAt) :
    s.commitTime = s := by
  refine if_pos ?_
  rcases h with h | h | h <;> simp [h]

/-- The values of the epoch are being applied. -/
def State.beginApply (s : State) : State := { s with epoch := { s.epoch with applying := true } }

theorem State.commitTime_due (hcommits : s.epoch.st = .committing) (hfirst : s.epoch.applying = false)
    (hdue : s.epoch.commitAt ≤ s.ns) : s.commitTime =
      (if s.epoch.kind = 0 then s.beginApply.commitEpoch else if s.epoch.kind = 1 then s.beginApply.recommitEpoch
        else s.beginApply.revertEpoch).settleEpoch :=
  if_neg (by simp [hcommits, hfirst, hdue])

end

theorem State.settleEpoch_number (s : State) : s.settleEpoch.val 0x2002 1 = s.val 0x2002 1 := by
  unfold State.settleEpoch
  split
  · rfl
  · extract_lets done
    split
    · rw [State.clearAlarm_val _ _ _ _ _ (by decide)]
      exact State.unstage_number _
    · rfl

theorem State.oweValue_number (s : State) (r key v : Nat) : (s.oweValue r key v).val 0x2002 1 = s.val 0x2002 1 :=
  (State.oweValue_keeps (Within.refl _) r key v (.refl _ s)).val_eq _ _ (by decide)

/-- A COMMIT puts the number after the last one issued in force (R297). -/
theorem State.commitEpoch_number (s : State) : s.commitEpoch.val 0x2002 1 = nextEpoch s.epoch.lastIssued := by
  refine (foldl_reads (fun s : State => s.val 0x2002 1) (fun s (x : Nat × Nat) => foldl_reads (fun s : State => s.val 0x2002 1)
    (fun s r => s.oweValue_number r x.1 x.2) (s.affected x.1 x.2) s) s.epoch.staged _).trans ?_
  dsimp only
  rw [State.bump_val_other _ _ _ _ _ _ (by decide), State.setVal_val_same]

-- apply boundaries (R297, R298)

theorem exec_epochApply (dt : Nat) (u : UnitRef) (s : State) :
    exec (.epochApply dt u) s = .next ((s.elapse dt).applyEpoch (Machine.UnitRef.code u)) := rfl

section
variable {s : State} {r : Nat}

theorem State.applyEpoch_not (h : s.epoch.applying = false ∨ (tget s.units r).applyDue = false) : s.applyEpoch r = s := by
  refine if_pos ?_
  rcases h with h | h <;> simp [h]

/-- The values that act on a unit take effect on it, and it owes them no longer. -/
def State.takeEpoch (s : State) (r : Nat) : State :=
  (((if s.epoch.kind = 2 then s.epoch.before else s.epoch.staged).filter (fun x =>
    if refKind r = 7 then x.1 / 256 = 0x6100 + refB r else x.1 / 256 = 0x6200 + refA r)).foldl (fun s x =>
      s.applyStaged r x.1 x.2) s).modUnit r (fun y => { y with applyDue := false })

theorem State.applyEpoch_due (happlying : s.epoch.applying = true) (hdue : (tget s.units r).applyDue = true) :
    s.applyEpoch r =
      (if (tget (s.takeEpoch r).units r).mixed then (s.takeEpoch r).unmix r else s.takeEpoch r).settleEpoch :=
  if_neg (by simp [happlying, hdue])

end

-- MIXED units (R298)

theorem tget_tmod_reads {α β : Type} [Inhabited α] [DecidableEq α] (read : α → β) (t : Tbl α) (i j : Nat) {f : α → α}
    (hf : ∀ a, read (f a) = read a) : read (tget (tmod t i f) j) = read (tget t j) := by
  rw [tget_tmod]
  split
  · subst j
    exact hf _
  · rfl

/-- Whether a unit is MIXED, and whether it still has values to apply. -/
def UnitState.epochMarks (u : UnitState) : Bool × Bool := (u.mixed, u.applyDue)

/-- A fault touches neither. -/
theorem State.fence_epochMarks (s : State) (r x : Nat) :
    (tget (s.fence r).units x).epochMarks = (tget s.units x).epochMarks := by
  have hmod : ∀ (t : State) (f : UnitState → UnitState), (∀ u, (f u).epochMarks = u.epochMarks) →
      (tget (t.modUnit r f).units x).epochMarks = (tget t.units x).epochMarks := fun t f hf =>
    tget_tmod_reads UnitState.epochMarks t.units r x hf
  have hleave : ∀ (t : State) (st : UnitSt), (tget (t.leave r st).units x).epochMarks = (tget t.units x).epochMarks := by
    intro t st
    rw [State.leave_units]
    exact tget_tmod_reads UnitState.epochMarks t.units r x fun _ => rfl
  unfold State.fence
  extract_lets counted
  have hcounted : (tget counted.units x).epochMarks = (tget s.units x).epochMarks :=
    (hmod (s.countFault r) (fun u => { u with autoTested := false, command := 0 }) fun _ => rfl).trans
      (hmod s (fun u => { u with faults := u.faults.filter (fun t => s.up < t + dayPs) ++ [s.up] }) fun _ => rfl)
  split
  · exact (hleave _ _).trans ((hmod counted (fun u => { u with retiredNv := true }) fun _ => rfl).trans hcounted)
  · exact (hleave _ _).trans hcounted

theorem State.mix_epochMarks (s : State) (r x : Nat) :
    (tget (s.mix r).units x).epochMarks = if x = r then (true, false) else (tget s.units x).epochMarks := by
  unfold State.mix
  extract_lets out
  have hout : (tget out.units x).epochMarks = (tget s.units x).epochMarks := by
    unfold out
    split
    · rfl
    · exact s.fence_epochMarks r x
  rw [State.modUnit, tget_tmod]
  split
  · rfl
  · exact hout

theorem State.mixAll_epochMarks (xs : List Nat) (s : State) (r : Nat)
    (h : r ∈ xs ∨ (tget s.units r).epochMarks = (true, false)) :
    (tget (xs.foldl State.mix s).units r).epochMarks = (true, false) := by
  induction xs generalizing s with
  | nil => exact h.resolve_left List.not_mem_nil
  | cons x xs ih =>
    refine ih _ ?_
    rw [State.mix_epochMarks]
    by_cases hx : r = x
    · exact .inr (if_pos hx)
    · rw [if_neg hx]
      exact h.imp_left fun hmem => (List.mem_cons.1 hmem).resolve_left hx

theorem exec_epochMixed (dt : Nat) (s : State) : exec (.epochMixed dt) s = .next (s.elapse dt).mixEpoch := rfl

section
variable {s : State}

theorem State.mixEpoch_not (h : s.epoch.applying = false ∨ s.applyDueUnits = [] ∨
    s.ns ≤ s.epoch.commitAt + 1000 * s.val 0x2002 4) : s.mixEpoch = s := by
  refine if_pos ?_
  rcases h with h | h | h <;> simp [h]

theorem State.mixEpoch_due (happlying : s.epoch.applying = true) (hdue : s.applyDueUnits ≠ [])
    (hpassed : s.epoch.commitAt + 1000 * s.val 0x2002 4 < s.ns) :
    s.mixEpoch.epoch.st = .mixed ∧ s.mixEpoch.epoch.applying = false ∧
    s.mixEpoch.units = (s.applyDueUnits.foldl State.mix s).units := by
  have hgo : ¬ (!s.epoch.applying || s.applyDueUnits.isEmpty || s.ns ≤ s.epoch.commitAt + 1000 * s.val 0x2002 4) = true := by
    simp [happlying, hdue, hpassed]
  unfold State.mixEpoch
  extract_lets due counted mixed
  rw [if_neg hgo, State.raise_epoch, State.raise_units]
  exact ⟨rfl, rfl, State.bump_units _ _ _ _⟩

end

-- the statement

/-- Settles O39: staging, the commands, the commit time, the apply boundary and the end of the Commit Window. Which units are
touched, and the bounds of the Commit Time with both ends included, are log entry 41; that a command without its condition changes
nothing is log entry 2. -/
theorem epochsCommitAtTheirTime : Obligations.EpochsCommitAtTheirTime := by
  refine ⟨?stage, ?command, ?time, ?apply, ?mixed⟩
  case stage =>
    rintro s b dt road i k d via code hb hvia hcode
    rw [exec_epochStageWrite, ← hb, hvia, hcode]
    refine ⟨fun hother => by rw [hother]; rfl, fun hentry hadmits => ?_⟩
    rw [hentry, if_pos rfl, State.writeRow_admitted hadmits]
    refine ⟨fun hclosed => ?_, fun hopen hbad => ?_, fun hopen hgood => ?_⟩
    · rw [State.stageAct_closed hclosed]
      rfl
    · rw [State.stageAct_refused hopen hbad]
    · rw [State.stageAct_stages hopen hgood]
      refine ⟨_, rfl, fun v => ?_, fun x v hx => ?_, ?_, ?_, ?_, ?_⟩
      · rw [State.reply_epoch, State.mem_stage_same]
      · rw [State.reply_epoch, State.mem_stage_other _ _ _ hx]
      · rw [State.reply_epoch]
        exact hopen
      · rw [State.reply_units]
        rfl
      · rw [State.reply_loops]
        rfl
      · rw [State.reply_convs]
        rfl
  case command =>
    rintro s b dt road via hb hvia
    rw [exec_epochOpen, exec_epochCommit, exec_epochAbort, exec_epochRecommit, exec_epochRevert, ← hb, hvia]
    refine ⟨fun hadmits => ?_, fun hadmits => ?_, fun hadmits => ?_, fun hmixed hearliest hlatest => ⟨fun hadmits => ?_,
      fun hadmits => ?_⟩, fun hother => ⟨fun hadmits => ?_, fun hadmits => ?_⟩⟩ <;> rw [State.writeRow_admitted hadmits]
    · refine ⟨fun hstable => ?_, fun hother => ?_⟩
      · rw [State.epochOpenAct_opens hstable]
        refine ⟨_, rfl, ?_, ?_⟩ <;> rw [State.reply_epoch] <;> rfl
      · rw [State.epochOpenAct_refused hother]
        rfl
    · refine ⟨fun hpending hearliest hlatest => ?_, fun hrefused => ?_⟩
      · rw [State.epochCommitAct_commits hpending hearliest hlatest]
        rfl
      · rw [State.epochCommitAct_refused hrefused]
        rfl
    · refine ⟨fun hpending => ?_, fun hother => ?_⟩
      · rw [State.epochAbortAct_aborts hpending]
        refine ⟨_, rfl, ?_, ?_, (State.reply_val _ _ _ _ _ _ _).trans b.unstage_number⟩ <;> rw [State.reply_epoch] <;> rfl
      · rw [State.epochAbortAct_refused hother]
        rfl
    · rw [State.epochRecommitAct_commits hmixed hearliest hlatest]
      rfl
    · rw [State.epochRevertAct_commits hmixed hearliest hlatest]
      rfl
    · rw [State.epochRecommitAct_refused hother]
      rfl
    · rw [State.epochRevertAct_refused hother]
      rfl
  case time =>
    rintro s b m dt hb hm
    obtain rfl : m = b.beginApply := hm
    rw [exec_epochCommitTime, ← hb]
    refine ⟨fun hnot => by rw [State.commitTime_not hnot], fun hcommits hfirst hdue => ?_⟩
    rw [State.commitTime_due hcommits hfirst hdue]
    refine ⟨fun hcommit => ?_, fun hrecommit => ?_, fun hrevert => ?_⟩
    · rw [if_pos hcommit]
      exact ⟨_, rfl, rfl, (State.settleEpoch_number _).trans (State.commitEpoch_number _)⟩
    · rw [if_neg (by simp [hrecommit]), if_pos hrecommit]
    · rw [if_neg (by simp [hrevert]), if_neg (by simp [hrevert])]
  case apply =>
    rintro s b m dt r u hb hr
    rw [exec_epochApply, ← hb, ← hr]
    refine ⟨fun hnot => by rw [State.applyEpoch_not hnot], fun happlying hdue hm => ?_⟩
    obtain rfl : m = b.takeEpoch r := hm
    rw [State.applyEpoch_due happlying hdue]
  case mixed =>
    rintro s b dt hb
    rw [exec_epochMixed, ← hb]
    refine ⟨fun hnot => by rw [State.mixEpoch_not hnot], fun happlying hdue hpassed => ?_⟩
    obtain ⟨hst, hdone, hunits⟩ := State.mixEpoch_due happlying hdue hpassed
    refine ⟨_, rfl, hst, hdone, fun r hr => ?_⟩
    rw [hunits]
    exact Prod.mk.inj (State.mixAll_epochMarks _ b r (.inl hr))

end Sys2Proof.Machine
end

section
/-! What the operations of the twins leave of the twin's own part of the state: frames sent, the log, mirrors and the witness's
grant touch neither the twin state nor what formation and contact keep (R330 to R345). -/

namespace Sys2Proof.Machine

-- frames sent (R332)

/-- A twin but for the SEQUENCE of its next frame. -/
def Twin.unsent (x : Twin) : Twin := { x with sequence := 0 }

theorem Twin.eq_of_unsent {x y : Twin} (h : x.unsent = y.unsent) : x = { y with sequence := x.sequence } := by
  cases x
  cases y
  simp only [Twin.unsent, Twin.mk.injEq] at h ⊢
  simp_all

theorem State.sendTwin_unsent (s : State) (type : Nat) : (s.sendTwin type).twin.unsent = s.twin.unsent := by
  unfold State.sendTwin
  split
  · rfl
  · refine foldl_reads (fun s : State => s.twin.unsent) (fun t i => ?_) s.twin.usable s
    split <;> rfl

theorem State.sendProbe_unsent (s : State) : s.sendProbe.twin.unsent = s.twin.unsent := by
  unfold State.sendProbe
  extract_lets a
  split <;> rfl

theorem State.sendHello_unsent (s : State) : s.sendHello.twin.unsent = s.twin.unsent := by
  unfold State.sendHello forRange
  refine foldl_reads (fun s : State => s.twin.unsent) (fun t i => ?_) (List.range 8) s
  split <;> rfl

/-- One control frame of the type goes out on each usable port that is in service. -/
theorem State.sendTwin_out {s : State} (type : Nat) (hsends : s.twin.st ≠ .takingOver) :
    ∃ l, (s.sendTwin type).out = s.out ++ l ∧
      l.length = (s.twin.usable.filter (fun i => (s.unit (portRef (120 + i))).works)).length ∧
      ∀ o ∈ l, ∃ i fr, o = .twin i fr ∧ fr.type = BitVec.ofNat 8 type := by
  rw [State.sendTwin, if_neg hsends]
  generalize s.twin.usable = ports
  clear hsends
  induction ports generalizing s with
  | nil => exact ⟨[], (List.append_nil _).symm, rfl, fun o ho => absurd ho List.not_mem_nil⟩
  | cons i ports ih =>
    rw [List.foldl_cons]
    by_cases h : (s.unit (portRef (120 + i))).works = true
    · obtain ⟨l, hout, hlength, htype⟩ := ih (s := (s.emit (.twin i (s.frameOf type (120 + i)))).nextSequence)
      rw [if_pos h]
      refine ⟨.twin i (s.frameOf type (120 + i)) :: l, by rw [hout]; simp [State.nextSequence, State.emit], ?_, ?_⟩
      · rw [List.filter_cons, if_pos h]
        exact congrArg (· + 1) hlength
      · intro o ho
        rcases List.mem_cons.1 ho with rfl | ho
        · exact ⟨i, _, rfl, rfl⟩
        · exact htype o ho
    · rw [if_neg h, List.filter_cons, if_neg h]
      exact ih

-- a change of the twin state (R331)

theorem State.twinSet_twin (s : State) (st : TwinSt) : (s.twinSet st).twin = { s.twin with st := st } := by
  unfold State.twinSet
  extract_lets old before entered coded ended told counted
  have hcounted : counted.twin = { s.twin with st := st } := by
    have hended : ended.twin = { s.twin with st := st } := by
      unfold ended
      split
      · rfl
      · rw [State.clearAlarm_twin]; rfl
    have htold : told.twin = { s.twin with st := st } := by rw [State.raise_twin, hended]
    unfold counted
    split
    · rw [State.bump_twin, htold]
    · split
      · rw [State.bump_twin, htold]
      · split
        · rw [State.bump_twin, htold]
        · exact htold
  split
  next hsame => rw [← hsame]
  next =>
    split
    · exact hcounted
    · rw [State.raise_twin, hcounted]

theorem State.twinSet_keeps_rest (s : State) (st : TwinSt) : s.Keeps [.od, .twin, .hosts, .events] (s.twinSet st) :=
  State.twinSet_keeps (Within.refl _) st (.refl _ s)

/-- Only the entries of object 0x2201 tell it. -/
theorem State.twinSet_val (s : State) (st : TwinSt) (x y : Nat) (h : quiet x y) (hk : odKey x y / 256 ≠ 0x2201) :
    (s.twinSet st).val x y = s.val x y := by
  have hne : ∀ k, k < 256 → odKey x y ≠ odKey 0x2201 k := fun k hk' heq => hk (by rw [heq, odKey]; omega)
  unfold State.twinSet
  extract_lets old before entered coded ended told counted
  have hended : ended.val x y = s.val x y := by
    have hcoded : coded.val x y = s.val x y := State.setVal_val_other _ _ _ _ _ _ (hne 1 (by decide))
    unfold ended
    split
    · exact hcoded
    · rw [State.clearAlarm_val _ _ _ _ _ h, hcoded]
  have htold : told.val x y = s.val x y := by rw [State.raise_val _ _ _ _ _ _ h, hended]
  have hcounted : counted.val x y = s.val x y := by
    unfold counted
    split
    · rw [State.bump_val_other _ _ _ _ _ _ (hne 6 (by decide)), htold]
    · split
      · rw [State.bump_val_other _ _ _ _ _ _ (hne 7 (by decide)), htold]
      · split
        · rw [State.bump_val_other _ _ _ _ _ _ (hne 8 (by decide)), htold]
        · exact htold
  split
  · rfl
  · split
    · exact hcounted
    · rw [State.raise_val _ _ _ _ _ _ h, hcounted]

-- the log, the mirrors and the grant

/-- A twin but for its log, its mirrors, the frames it sends and the release of its grant. -/
def Twin.contact (x : Twin) : Twin :=
  { x with sequence := 0, asked := [], releasing := false, logAcked := 0, held := [], mirrors := [] }

theorem Twin.reads_of_contact {x y : Twin} (h : x.contact = y.contact) : x.st = y.st ∧ x.misses = y.misses ∧
    x.goodSince = y.goodSince ∧ x.partnerFree = y.partnerFree ∧ x.deadline = y.deadline ∧ x.usable = y.usable := by
  simp only [Twin.contact, Twin.mk.injEq] at h
  simp only [h, and_self]

theorem State.sendLog_contact (s : State) : s.sendLog.twin.contact = s.twin.contact := by
  unfold State.sendLog
  extract_lets sent
  have hsent : sent.twin = s.twin := by
    refine foldl_reads State.twin (fun t h => ?_) s.twin.held s
    split <;> rfl
  rw [← hsent]
  rfl

theorem State.releaseGrant_contact (s : State) : s.releaseGrant.twin.contact = s.twin.contact := by
  unfold State.releaseGrant
  split <;> rfl

theorem State.releaseLog_contact (s : State) : s.releaseLog.twin.contact = s.twin.contact :=
  foldl_reads (fun s : State => s.twin.contact) (fun t h =>
    congrArg Twin.contact ((State.deliverBare_keeps (Within.refl _) _ _ _ _ (.refl _ t)).twin_eq (by decide))) _ _

theorem State.logAcks_contact (s : State) (seq : Nat) : (s.logAcks seq).twin.contact = s.twin.contact :=
  foldl_reads (fun s : State => s.twin.contact) (fun t h =>
    congrArg Twin.contact ((State.postTo_keeps (Within.refl _) _ _ _ (.refl _ t)).twin_eq (by decide))) _ _

theorem State.adopt_contact (s : State) (m : Mirror) (n j hold : Nat) : (s.adopt m n j hold).twin.contact = s.twin.contact := by
  unfold State.adopt
  extract_lets k tree r owner old taken freed pending counted made posted noted
  have hposted : posted.twin = taken.twin := (State.postTo_keeps (Within.refl _) _ _ _ (.refl _ made)).twin_eq (by decide)
  have htaken : posted.twin.contact = s.twin.contact := by rw [hposted]; rfl
  split
  · rw [(State.recomputed_keeps (Within.refl _) n (.refl _ noted)).twin_eq (by decide)]
    exact htaken
  · exact htaken

theorem State.adoptAll_contact (s : State) (hold : Nat) : (s.adoptAll hold).twin.contact = s.twin.contact := by
  unfold State.adoptAll
  refine foldl_reads (fun s : State => s.twin.contact) (fun s m => ?_) _ s
  split
  · exact s.adopt_contact _ _ _ _
  · rfl

theorem State.takeHandover_contact (s : State) : s.takeHandover.twin.contact = s.twin.contact := by
  unfold State.takeHandover
  split
  · exact s.adoptAll_contact 0
  · rfl

theorem State.enterLinkDown_contact (s : State) :
    s.enterLinkDown.twin.contact = ({ s.twin with st := .linkDown, goodSince := none } : Twin).contact := by
  have h : (s.twinSet .linkDown).releaseLog.twin.contact = ({ s.twin with st := .linkDown } : Twin).contact := by
    rw [State.releaseLog_contact, State.twinSet_twin]
  exact congrArg (fun x : Twin => { x with goodSince := none }) h

/-- SYNCING is entered: the deadline starts afresh, and nothing is known yet of the partner's streams (R331). -/
def State.beginSyncing (s : State) : State :=
  let t := (s.twinSet .syncing).restartDeadline
  { t with twin := { t.twin with probeAt := none, goodSince := none, partnerFree := none } }

theorem State.beginSyncing_twin (s : State) : s.beginSyncing.twin = { s.twin with
    st := .syncing, misses := 0, lastBeat := s.ns, deadline := s.ns + 1000 * s.val 0x2200 7 + 10000
    probeAt := none, goodSince := none, partnerFree := none } := by
  have hns := (s.twinSet_keeps_rest .syncing).ns_eq (by decide)
  have hval := s.twinSet_val .syncing 0x2200 7 (by decide) (by decide)
  simp only [State.beginSyncing, State.restartDeadline, s.twinSet_twin, hns, hval]

theorem State.enterSyncing_contact (s : State) : s.enterSyncing.twin.contact = s.beginSyncing.twin.contact := by
  have h : s.enterSyncing = s.beginSyncing.sendLog.checkpointFresh.releaseGrant := rfl
  rw [h, State.releaseGrant_contact,
    (State.checkpointFresh_keeps (Within.refl _) (.refl _ s.beginSyncing.sendLog)).twin_eq (by decide), State.sendLog_contact]

/-- What contact keeps on entry into SYNCING. -/
theorem State.enterSyncing_effect (s : State) : s.enterSyncing.twin.st = .syncing ∧ s.enterSyncing.twin.misses = 0 ∧
    s.enterSyncing.twin.partnerFree = none ∧ s.enterSyncing.twin.goodSince = none ∧
    s.enterSyncing.twin.deadline = s.ns + 1000 * s.val 0x2200 7 + 10000 ∧ s.enterSyncing.twin.usable = s.twin.usable := by
  obtain ⟨hst, hmisses, hgood, hfree, hdeadline, husable⟩ := Twin.reads_of_contact s.enterSyncing_contact
  rw [s.beginSyncing_twin] at hst hmisses hgood hfree hdeadline husable
  exact ⟨hst, hmisses, hfree, hgood, hdeadline, husable⟩

theorem State.enterSuspect_unsent (s : State) : s.enterSuspect.twin.unsent = { s.twin with
    st := .suspect, before := s.twin.st, suspectAt := s.ns, probeAt := some s.ns, asked := [] }.unsent := by
  unfold State.enterSuspect
  extract_lets old noted
  rw [(State.twinQuery_keeps (Within.refl _) (.refl _ (noted.twinSet .suspect).sendProbe)).twin_eq (by decide),
    State.sendProbe_unsent, State.twinSet_twin]

/-- SYNCING ends only where the partner has told of its streams. -/
theorem State.settlePair_twin (s : State) : s.settlePair.twin = s.twin ∨
    (s.twin.st = .syncing ∧ s.twin.partnerFree ≠ none ∧ s.settlePair.twin = { s.twin with st := .paired }) := by
  unfold State.settlePair
  cases hfree : s.twin.partnerFree with
  | none => exact .inl (by simp)
  | some n =>
    dsimp only
    split
    next h =>
      simp only [Bool.and_eq_true, decide_eq_true_eq] at h
      exact .inr ⟨h.1.1, by simp, s.twinSet_twin .paired⟩
    next => exact .inl rfl

end Sys2Proof.Machine
end

section
/-! Twins that form a pair (R327, R328, R349) and keep contact (R283, R331 to R333, R338): frames on twin ports, formation step by
step, heartbeats and misses, and the statement O45. -/

namespace Sys2Proof.Machine

-- frames on a twin port (R332)

section
variable {s : State} {i type : Nat} {f : TwinFrame} {act : State → State}

theorem State.onTwinPort_absent (h : s.twin.st = .solo ∨ (s.unit (portRef (120 + i))).works = false) :
    s.onTwinPort i type f act = s := by
  refine if_pos ?_
  rcases h with h | h <;> simp [h]

theorem State.onTwinPort_hears (hst : s.twin.st ≠ .solo) (hport : (s.unit (portRef (120 + i))).works = true) :
    s.onTwinPort i type f act = s.take type f act := if_neg (by simp [hst, hport])

theorem State.take_foreign (h : s.fromPartner f = false) : s.take type f act = s.bump 0x2201 0x14 1 := if_pos (by simp [h])

theorem State.take_otherType (h : s.fromPartner f = true) (htype : f.type.toNat ≠ type) : s.take type f act = s := by
  simp [State.take, h, htype]

theorem State.take_acts (h : s.fromPartner f = true) (htype : f.type.toNat = type) : s.take type f act = act s := by
  simp [State.take, h, htype]

end

theorem exec_hello (dt : Nat) (i : Fin 8) (f : TwinFrame) (s : State) :
    exec (.hello dt i f) s = .next ((s.elapse dt).onTwinPort i 6 f (fun s => s.hello i f)) := rfl
theorem exec_helloAnswer (dt : Nat) (i : Fin 8) (f : TwinFrame) (cert : List Byte) (geo : List Nat) (s : State) :
    exec (.helloAnswer dt i f cert geo) s = .next ((s.elapse dt).onTwinPort i 7 f (fun s => s.helloAnswer i f cert geo)) := rfl
theorem exec_heartbeat (dt : Nat) (i : Fin 8) (f : TwinFrame) (s : State) :
    exec (.heartbeat dt i f) s = .next ((s.elapse dt).onTwinPort i 1 f (fun s => s.heartbeat i f)) := rfl
theorem exec_goodbye (dt : Nat) (i : Fin 8) (f : TwinFrame) (s : State) :
    exec (.goodbye dt i f) s = .next ((s.elapse dt).onTwinPort i 4 f (fun s => s.goodbye i)) := rfl
theorem exec_unpairReceived (dt : Nat) (i : Fin 8) (f : TwinFrame) (s : State) :
    exec (.unpairReceived dt i f) s = .next ((s.elapse dt).onTwinPort i 5 f (fun s => (State.unpairAct s).2)) := rfl

/-- Each of the five commands of a frame on a twin port waits for a frame of its own type. -/
theorem exec_onTwinPort (dt : Nat) (i : Fin 8) (f : TwinFrame) (cert : List Byte) (geo : List Nat) (s : State) :
    ∀ k ∈ [(Instr.hello dt i f, 6), (.heartbeat dt i f, 1), (.goodbye dt i f, 4), (.unpairReceived dt i f, 5),
      (.helloAnswer dt i f cert geo, 7)], ∃ act, exec k.1 s = .next ((s.elapse dt).onTwinPort i k.2 f act) := by
  simp only [List.forall_mem_cons]
  exact ⟨⟨_, exec_hello dt i f s⟩, ⟨_, exec_heartbeat dt i f s⟩, ⟨_, exec_goodbye dt i f s⟩, ⟨_, exec_unpairReceived dt i f s⟩,
    ⟨_, exec_helloAnswer dt i f cert geo s⟩, fun k hk => absurd hk List.not_mem_nil⟩

-- formation starts (R327, R328)

theorem State.startHello_unsent (s : State) : s.startHello.twin.unsent = { s.twin with
    formAt := s.up, nonce := padTo 32 0 (Config.nonce s.free), partnerNonce := [], answered := false, partnerKey := []
    usable := [], miscabled := [], delays := [] }.unsent := State.sendHello_unsent _

theorem State.enterForming_unsent (s : State) : s.enterForming.twin.unsent = { s.twin with
    st := .forming, formAt := s.up, nonce := padTo 32 0 (Config.nonce s.free), partnerNonce := [], answered := false
    partnerKey := [], usable := [], miscabled := [], delays := [] }.unsent := by
  have hk := s.twinSet_keeps_rest .forming
  unfold State.enterForming
  extract_lets n left
  have htwin : left.twin = { s.twin with st := .forming } := by
    unfold left
    rw [State.bump_twin, State.twinSet_twin]
  have hup : left.up = s.up := by
    unfold left
    rw [State.bump_up]
    exact hk.up_eq
  have hfree : left.free = s.free := by
    unfold left
    rw [State.bump_free]
    exact hk.free_eq (by decide)
  rw [State.startHello_unsent, htwin, hup, hfree]

section
variable {s : State}

theorem State.mayPair_iff : s.mayPair = true ↔
    s.val 0x2200 2 ≠ 0 ∧ ((s.val 0x2200 4 ≠ 0 ∧ s.val 0x2200 3 ≠ 0) ∨ s.flag 0x2200 6 = true) := by
  simp [State.mayPair]

theorem exec_pairEnable (dt : Nat) (road : Road) (value : BitVec 8) (s : State) : exec (.pairEnable dt road value) s =
    .next ((s.elapse dt).writeRow road 0x2200 1 [value] (State.pairEnableAct value.toNat)) := rfl

theorem State.pairEnableAct_keepsOff (h : s.twin.st = .solo ∨ s.twin.st = .selfFenced) :
    State.pairEnableAct 0 s = (abState, s) := by
  simp [State.pairEnableAct, State.unpairAct, h, refuse]

theorem State.pairEnableAct_leaves (hsolo : s.twin.st ≠ .solo) (hfenced : s.twin.st ≠ .selfFenced) :
    State.pairEnableAct 0 s = (0, s.unpairNow) := by
  simp [State.pairEnableAct, State.unpairAct, hsolo, hfenced, accept]

variable {v : Nat}

theorem State.pairEnableAct_again (hv : v ≠ 0) (h : s.twin.st ≠ .solo) : State.pairEnableAct v s = (0, s) := by
  simp [State.pairEnableAct, hv, h, accept]

theorem State.pairEnableAct_forms (hv : v ≠ 0) (hsolo : s.twin.st = .solo) (h : s.mayPair = true) :
    State.pairEnableAct v s = (0, (s.setVal 0x2200 1 1).enterForming) := by
  simp [State.pairEnableAct, hv, hsolo, h, accept]

theorem State.pairEnableAct_lacks (hv : v ≠ 0) (hsolo : s.twin.st = .solo) (h : s.mayPair = false) :
    State.pairEnableAct v s = (abState, s) := by
  simp [State.pairEnableAct, hv, hsolo, h, refuse]

end

-- cabling (R328)

section
variable {s : State} {i : Nat} {f : TwinFrame}

theorem State.matchPort_twin (s : State) (i : Nat) (f : TwinFrame) : (s.matchPort i f).twin = { s.twin with
    usable := (s.matchPort i f).twin.usable, miscabled := (s.matchPort i f).twin.miscabled } := by
  unfold State.matchPort
  split
  · split <;> rfl
  · split
    · rfl
    · rw [State.bump_twin]

theorem State.matchPort_own (hi : i < 8) (h : f.port.toNat = 120 + i) :
    i ∈ (s.matchPort i f).twin.usable ∧ (s.matchPort i f).twin.miscabled = s.twin.miscabled := by
  rw [State.matchPort, if_pos h]
  split
  next hin => exact ⟨hin, rfl⟩
  next => exact ⟨List.mem_filter.2 ⟨List.mem_range.2 hi, by simp⟩, rfl⟩

theorem State.matchPort_other (h : f.port.toNat ≠ 120 + i) :
    i ∈ (s.matchPort i f).twin.miscabled ∧ (s.matchPort i f).twin.usable = s.twin.usable := by
  rw [State.matchPort, if_neg h]
  split
  next hin => exact ⟨hin, rfl⟩
  next =>
    rw [State.bump_twin]
    exact ⟨List.mem_append_right _ (List.mem_singleton.2 rfl), rfl⟩

theorem State.matchPort_keeps_rest (s : State) (i : Nat) (f : TwinFrame) : s.Keeps [.od, .twin] (s.matchPort i f) :=
  State.matchPort_keeps (Within.refl _) i f (.refl _ s)

/-- Only Mis-cabled Ports counts. -/
theorem State.matchPort_val (s : State) (i : Nat) (f : TwinFrame) (x y : Nat) (h : odKey x y ≠ odKey 0x2201 0x12) :
    (s.matchPort i f).val x y = s.val x y := by
  unfold State.matchPort
  split
  · split <;> rfl
  · split
    · rfl
    · exact State.bump_val_other _ _ _ _ _ _ h

theorem State.matchPort_signs (s : State) (i : Nat) (f : TwinFrame) :
    (s.matchPort i f).signWait = s.signWait ∧ (s.matchPort i f).leaf = s.leaf := by
  have hk := s.matchPort_keeps_rest i f
  refine ⟨?_, s.matchPort_val i f _ _ (by decide)⟩
  simp only [State.signWait, hk.security_eq (by decide), hk.up_eq, s.matchPort_val i f 0x3110 4 (by decide)]

end

-- a HELLO (R328)

theorem State.sendAnswer_twin (s : State) :
    s.sendAnswer.twin = { s.twin with sequence := s.sendAnswer.twin.sequence, answered := true } := by
  have h := (State.signed_keeps (Within.refl _) (.refl _ s)).twin_eq (by decide)
  simp only [State.sendAnswer, State.nextSequence, State.emit_twin, h]

theorem State.answerHello_twin (s : State) : s.answerHello.twin = { s.twin with
    sequence := s.answerHello.twin.sequence, answered := s.answerHello.twin.answered } := by
  by_cases h : s.twin.st ≠ .forming ∨ s.twin.partnerNonce = [] ∨ s.twin.answered = true ∨ s.signWait ≠ 0 ∨ leafCount ≤ s.leaf
  · rw [State.answerHello_waits h]
  · simp only [not_or, not_not, Bool.not_eq_true, not_le] at h
    obtain ⟨hforming, hnonce, hfresh, hwait, hleaf⟩ := h
    rw [State.answerHello_answers hforming hnonce hfresh hwait hleaf]
    have hsent := s.sendAnswer_twin
    have hanswered := congrArg Twin.answered hsent
    dsimp only at hanswered
    rw [hanswered]
    exact hsent

/-- The nonce of a HELLO (R328). -/
def helloNonce (f : TwinFrame) : List Byte := f.tail.drop (f.tail.length - 32)

/-- A new HELLO waits for its answer. -/
def State.noteHello (s : State) (i : Nat) (nonce : List Byte) : State :=
  { s with twin := { s.twin with partnerNonce := nonce, helloPort := i, answered := false } }

section
variable {s : State} {i : Nat} {f : TwinFrame}

theorem State.hello_short (h : f.tail.length < 32) : s.hello i f = s.bump 0x2201 0x14 1 := if_pos h

theorem State.hello_elsewhere (h : 32 ≤ f.tail.length) (hforming : s.twin.st ≠ .forming) (hdegraded : s.twin.st ≠ .degraded) :
    s.hello i f = s := by
  simp [State.hello, h.not_gt, hforming, hdegraded]

theorem State.hello_forms (h : 32 ≤ f.tail.length) (hforming : s.twin.st = .forming) (hnew : s.twin.partnerNonce ≠ helloNonce f) :
    s.hello i f = ((s.matchPort i f).noteHello i (helloNonce f)).answerHello := by
  have hnonce : (s.matchPort i f).twin.partnerNonce ≠ helloNonce f := by rwa [s.matchPort_twin]
  simp only [State.hello, h.not_gt, hforming, if_false, decide_true, Bool.true_or, Bool.not_true, Bool.false_eq_true,
    reduceCtorEq]
  exact if_neg hnonce

/-- Formation starts over from DEGRADED with the HELLO of the partner. -/
theorem State.hello_degraded (h : 32 ≤ f.tail.length) (hdegraded : s.twin.st = .degraded) :
    (s.hello i f).twin.st = .forming ∧ (s.hello i f).twin.formAt = s.up := by
  have hentered := Twin.eq_of_unsent s.enterForming_unsent
  have hmatched := s.enterForming.matchPort_twin i f
  have heq : s.hello i f = if (s.enterForming.matchPort i f).twin.partnerNonce = helloNonce f then
      (s.enterForming.matchPort i f).answerHello
      else ((s.enterForming.matchPort i f).noteHello i (helloNonce f)).answerHello := by
    simp only [State.hello, h.not_gt, hdegraded, if_false, decide_true, Bool.or_true, Bool.not_true, Bool.false_eq_true, if_true]
    rfl
  rw [heq]
  split <;> rw [State.answerHello_twin]
  · rw [hmatched, hentered]
    exact ⟨rfl, rfl⟩
  · simp only [State.noteHello]
    rw [hmatched, hentered]
    exact ⟨rfl, rfl⟩

end

/-- A HELLO with a new nonce, as it is left waiting. -/
theorem State.noteHello_twin (s : State) (i : Nat) (f : TwinFrame) : ((s.matchPort i f).noteHello i (helloNonce f)).twin =
    { s.twin with usable := (s.matchPort i f).twin.usable, miscabled := (s.matchPort i f).twin.miscabled
                  partnerNonce := helloNonce f, helloPort := i, answered := false } := by
  simp only [State.noteHello]
  rw [s.matchPort_twin]

theorem helloNonce_ne_nil {f : TwinFrame} (h : 32 ≤ f.tail.length) : helloNonce f ≠ [] := by
  refine List.ne_nil_of_length_pos ?_
  rw [helloNonce, List.length_drop]
  omega

-- an answer (R328)

section
variable {s : State} {i : Nat} {f : TwinFrame} {cert : List Byte} {geo : List Nat}

theorem State.helloAnswer_not (h : s.twin.st ≠ .forming ∨ s.acceptsPartner f.tail cert geo = false) :
    s.helloAnswer i f cert geo = s := by
  rcases h with h | h <;> simp [State.helloAnswer, h]

/-- The sender of the answer becomes the partner. -/
def State.acceptPartner (s : State) (cert : List Byte) : State :=
  ({ s with twin := { s.twin with partnerKey := cert.take 68 } } : State).setVal 0x2201 2 (leNat (serialOf cert))

theorem State.helloAnswer_accepts (hforming : s.twin.st = .forming) (h : s.acceptsPartner f.tail cert geo = true) :
    s.helloAnswer i f cert geo = (s.acceptPartner cert).matchPort i f := by
  simp [State.helloAnswer, hforming, h, State.acceptPartner]

end

-- the formation timeout and the asymmetries (R328, R329)

theorem exec_formationTimeout (dt : Nat) (s : State) : exec (.formationTimeout dt) s = .next (
    if (s.elapse dt).twin.st = .forming && (s.elapse dt).twin.formAt + 10 * sPs ≤ (s.elapse dt).up then
      ((s.elapse dt).bump 0x2201 0x13 1).startHello else s.elapse dt) := rfl

theorem State.bump_formationTimeouts (s : State) :
    (s.bump 0x2201 0x13 1).val 0x2201 0x13 = wrapAdd 8 (s.val 0x2201 0x13) 1 := by
  have hrow : (odRow 0x2201 0x13).map OdRow.bytes = some 8 := by decide
  obtain ⟨row, hsome, hbytes⟩ := Option.map_eq_some_iff.1 hrow
  simp [State.bump, hsome, hbytes]

theorem State.startHello_val (s : State) (x y : Nat) (h : odKey x y ≠ odKey 0x2201 0x12) :
    s.startHello.val x y = s.val x y := by
  unfold State.startHello
  extract_lets nonce begun
  rw [(State.sendHello_keeps (Within.refl _) (.refl _ _)).val_eq _ _ (by decide), State.setVal_val_other _ _ _ _ _ _ h]
  rfl

theorem exec_asymmetryMeasured (dt : Nat) (a : List Int) (s : State) :
    exec (.asymmetryMeasured dt a) s = .next ((s.elapse dt).asymmetry a) := rfl

section
variable {s : State} (a : List Int)

theorem State.asymmetry_not (h : s.twin.st ≠ .forming ∨ s.twin.partnerKey = [] ∨ s.twin.answered = false ∨ s.twin.usable = []) :
    s.asymmetry a = s := by
  refine if_pos ?_
  rcases h with h | h | h | h <;> simp [h]

/-- The delays found with the asymmetries are kept for the usable ports (R329). -/
def State.measureDelays (s : State) (ports : List Nat) : State := ports.foldl (fun s i =>
  ({ s with twin := { s.twin with delays := tset s.twin.delays i (Config.freeNat s.free) } } : State).takeFree) s

theorem State.measureDelays_kept (s : State) (ports : List Nat) : (s.measureDelays ports).twin.usable = s.twin.usable ∧
    (s.measureDelays ports).clock = s.clock ∧ (s.measureDelays ports).od = s.od := by
  have h := foldl_reads (fun s : State => (s.twin.usable, s.clock, s.od)) (f := fun s i =>
    ({ s with twin := { s.twin with delays := tset s.twin.delays i (Config.freeNat s.free) } } : State).takeFree)
    (fun s i => rfl) ports s
  exact ⟨congrArg Prod.fst h, congrArg (·.2.1) h, congrArg (·.2.2) h⟩

theorem State.asymmetry_syncs (hforming : s.twin.st = .forming) (hkey : s.twin.partnerKey ≠ []) (hanswered : s.twin.answered = true)
    (husable : s.twin.usable ≠ []) :
    ∃ v, s.asymmetry a = ((s.setVal 0x2201 4 v).measureDelays s.twin.usable).enterSyncing :=
  ⟨_, if_neg (by simp [hforming, hkey, hanswered, husable])⟩

end

-- heartbeats (R333)

theorem exec_heartbeatInterval (dt : Nat) (s : State) : exec (.heartbeatInterval dt) s = .next (s.elapse dt).sendBeats := rfl

/-- The twin states in which heartbeats go out and count. -/
theorem TwinSt.beats_iff (x : TwinSt) : (x = .syncing || x = .paired || x = .suspect || x = .linkDown || x = .selfFenced) = true ↔
    x ∈ [TwinSt.syncing, .paired, .suspect, .linkDown, .selfFenced] := by
  cases x <;> decide

section
variable {s : State}

theorem State.sendBeats_not (h : s.twin.st ∉ [TwinSt.syncing, .paired, .suspect, .linkDown, .selfFenced]) : s.sendBeats = s :=
  if_neg fun hlive => h (s.twin.st.beats_iff.1 hlive)

theorem State.sendBeats_sends (h : s.twin.st ∈ [TwinSt.syncing, .paired, .suspect, .linkDown, .selfFenced]) : s.sendBeats =
    (s.bump 0x2202 2 (s.twin.usable.filter (fun i => (s.unit (portRef (120 + i))).works)).length).sendTwin 1 :=
  if_pos (s.twin.st.beats_iff.2 h)

end

/-- A heartbeat ends the run of misses, and tells how many streams the partner has. -/
def State.arriveBeat (s : State) (i : Nat) (f : TwinFrame) : State :=
  let t := (s.measureTwin i f).restartDeadline
  { t with twin := { t.twin with partnerFree := some f.freeContexts.toNat } }

/-- What each twin state makes of it (R331, R335, R338). -/
def State.answerBeatIn (s : State) (f : TwinFrame) : TwinSt → State
  | .suspect =>
    let t := s.twinSet s.twin.before
    ({ t with twin := { t.twin with probeAt := none } } : State).sendLog
  | .linkDown => { s with twin := { s.twin with goodSince := some (s.twin.goodSince.getD s.ns) } }
  | .selfFenced => s.regain f.twinState.toNat
  | _ => if f.twinState.toNat = 5 then s.enterLinkDown else s

def State.answerBeat (s : State) (f : TwinFrame) : State := s.answerBeatIn f s.twin.st

/-- Then its acknowledgements of the log count, and pairing may be complete. -/
def State.concludeBeat (s : State) (f : TwinFrame) : State :=
  ((if s.twin.st.logs then s.logAcks f.logAcked.toNat else s).settlePair).takeHandover

section
variable {s : State} {i : Nat} {f : TwinFrame}

theorem State.heartbeat_not (h : i ∉ s.twin.usable ∨ s.twin.st ∉ [TwinSt.syncing, .paired, .suspect, .linkDown, .selfFenced]) :
    s.heartbeat i f = s := by
  refine if_pos ?_
  rw [← s.twin.st.beats_iff] at h
  rcases h with h | h
  · simp [h]
  · simp only [Bool.not_eq_true] at h
    simp only [h, Bool.not_false, Bool.true_or]

theorem State.heartbeat_counts (husable : i ∈ s.twin.usable)
    (h : s.twin.st ∈ [TwinSt.syncing, .paired, .suspect, .linkDown, .selfFenced]) :
    s.heartbeat i f = ((s.arriveBeat i f).answerBeat f).concludeBeat f := by
  refine (if_neg ?_).trans rfl
  rw [← s.twin.st.beats_iff] at h
  simp only [h, husable, not_true_eq_false, decide_false, Bool.not_true, Bool.or_self, Bool.false_eq_true, not_false_eq_true]

theorem State.arriveBeat_ns (s : State) (i : Nat) (f : TwinFrame) : (s.arriveBeat i f).ns = s.ns := by
  have hk := State.measureTwin_keeps (Within.refl _) i f (.refl _ s)
  have hclock : (s.arriveBeat i f).clock = s.clock := by
    simp only [State.arriveBeat, State.restartDeadline, hk.clock_eq (by decide)]
  rw [State.ns, State.ns, hclock]

theorem State.arriveBeat_twin (s : State) (i : Nat) (f : TwinFrame) : (s.arriveBeat i f).twin = { s.twin with
    misses := 0, lastBeat := s.ns, deadline := (s.arriveBeat i f).twin.deadline, partnerFree := some f.freeContexts.toNat } := by
  have hk := State.measureTwin_keeps (Within.refl _) i f (.refl _ s)
  simp only [State.arriveBeat, State.restartDeadline, hk.twin_eq (by decide), hk.ns_eq (by decide)]

/-- The end of a heartbeat leaves the twin state and the contact, unless pairing is complete. -/
theorem State.concludeBeat_contact (s : State) (f : TwinFrame) : (s.concludeBeat f).twin.contact = s.twin.contact ∨
    (s.twin.st = .syncing ∧ s.twin.partnerFree ≠ none ∧
      (s.concludeBeat f).twin.contact = ({ s.twin with st := .paired } : Twin).contact) := by
  unfold State.concludeBeat
  rw [State.takeHandover_contact]
  have hacked : (if s.twin.st.logs then s.logAcks f.logAcked.toNat else s).twin.contact = s.twin.contact := by
    split
    · exact s.logAcks_contact _
    · rfl
  generalize (if s.twin.st.logs then s.logAcks f.logAcked.toNat else s) = acked at hacked
  obtain ⟨hst, -, -, hfree, -⟩ := Twin.reads_of_contact hacked
  rcases acked.settlePair_twin with h | ⟨hsyncing, htold, h⟩
  · exact .inl (by rw [h, hacked])
  · refine .inr ⟨hst ▸ hsyncing, hfree ▸ htold, ?_⟩
    rw [h]
    exact congrArg (fun x : Twin => { x with st := .paired }) hacked

theorem State.concludeBeat_misses (s : State) (f : TwinFrame) : (s.concludeBeat f).twin.misses = s.twin.misses := by
  rcases s.concludeBeat_contact f with h | ⟨-, -, h⟩ <;> exact (Twin.reads_of_contact h).2.1

theorem State.concludeBeat_kept (h : s.twin.st ≠ .syncing ∨ s.twin.partnerFree = none) :
    (s.concludeBeat f).twin.st = s.twin.st ∧ (s.concludeBeat f).twin.goodSince = s.twin.goodSince := by
  rcases s.concludeBeat_contact f with hc | ⟨hsyncing, htold, -⟩
  · obtain ⟨hst, -, hgood, -⟩ := Twin.reads_of_contact hc
    exact ⟨hst, hgood⟩
  · exact absurd hsyncing (h.resolve_right htold)

theorem State.concludeBeat_syncing (h : s.twin.st = .syncing) :
    (s.concludeBeat f).twin.st = .syncing ∨ (s.concludeBeat f).twin.st = .paired := by
  rcases s.concludeBeat_contact f with hc | ⟨-, -, hc⟩
  · exact .inl ((Twin.reads_of_contact hc).1.trans h)
  · exact .inr (Twin.reads_of_contact hc).1

/-- In SUSPECT the state before it returns. -/
theorem State.answerBeat_suspect (h : s.twin.st = .suspect) :
    (s.answerBeat f).twin.st = s.twin.before ∧ (s.answerBeat f).twin.misses = s.twin.misses := by
  have heq : s.answerBeat f = s.answerBeatIn f .suspect := congrArg (s.answerBeatIn f) h
  have hc : (s.answerBeat f).twin.contact = ({ s.twin with st := s.twin.before, probeAt := none } : Twin).contact := by
    rw [heq]
    refine (State.sendLog_contact _).trans ?_
    dsimp only
    rw [State.twinSet_twin]
  obtain ⟨hst, hmisses, -⟩ := Twin.reads_of_contact hc
  exact ⟨hst, hmisses⟩

theorem State.answerBeat_linkDown (h : s.twin.st = .linkDown) : s.answerBeat f =
    { s with twin := { s.twin with goodSince := some (s.twin.goodSince.getD s.ns) } } := congrArg (s.answerBeatIn f) h

theorem State.answerBeat_selfFenced (h : s.twin.st = .selfFenced) : s.answerBeat f = s.regain f.twinState.toNat :=
  congrArg (s.answerBeatIn f) h

/-- In every other state a partner in LINK_DOWN takes the device there too. -/
theorem State.answerBeat_other (hsuspect : s.twin.st ≠ .suspect) (hdown : s.twin.st ≠ .linkDown)
    (hfenced : s.twin.st ≠ .selfFenced) : s.answerBeat f = if f.twinState.toNat = 5 then s.enterLinkDown else s := by
  unfold State.answerBeat
  generalize s.twin.st = st at *
  cases st
  case suspect => exact absurd rfl hsuspect
  case linkDown => exact absurd rfl hdown
  case selfFenced => exact absurd rfl hfenced
  all_goals rfl

end

theorem State.enterLinkDown_effect (s : State) :
    s.enterLinkDown.twin.st = .linkDown ∧ s.enterLinkDown.twin.misses = s.twin.misses := by
  obtain ⟨hst, hmisses, -⟩ := Twin.reads_of_contact s.enterLinkDown_contact
  exact ⟨hst, hmisses⟩

/-- A SELF_FENCED device rejoins a partner that is in a state from LINK_DOWN on (R338). -/
theorem State.regain_rejoins (s : State) {partner : Nat} (h : partner ∈ [4, 5, 6, 7, 8]) :
    ∃ m : State, s.regain partner = m.enterSyncing := by
  simp only [List.mem_cons, List.not_mem_nil, or_false] at h
  rcases h with rfl | rfl | rfl | rfl | rfl <;> exact ⟨_, rfl⟩

theorem State.regain_waits (s : State) {partner : Nat} (h : partner ∉ [4, 5, 6, 7, 8]) : s.regain partner = s := by
  simp only [List.mem_cons, List.not_mem_nil, or_false, not_or] at h
  simp [State.regain, h]

theorem State.answerBeat_misses {s : State} (f : TwinFrame) (h : s.twin.misses = 0) : (s.answerBeat f).twin.misses = 0 := by
  by_cases hsuspect : s.twin.st = .suspect
  · exact (State.answerBeat_suspect hsuspect).2.trans h
  by_cases hdown : s.twin.st = .linkDown
  · rw [State.answerBeat_linkDown hdown]
    exact h
  by_cases hfenced : s.twin.st = .selfFenced
  · rw [State.answerBeat_selfFenced hfenced]
    by_cases hpartner : f.twinState.toNat ∈ [4, 5, 6, 7, 8]
    · obtain ⟨m, hm⟩ := s.regain_rejoins hpartner
      rw [hm]
      exact m.enterSyncing_effect.2.1
    · rwa [s.regain_waits hpartner]
  rw [State.answerBeat_other hsuspect hdown hfenced]
  split
  · exact s.enterLinkDown_effect.2.trans h
  · exact h

-- what a heartbeat comes to in each twin state

section
variable {s : State} {f : TwinFrame}

/-- A heartbeat that has arrived, answered to its end. -/
def State.finishBeat (s : State) (f : TwinFrame) : State := (s.answerBeat f).concludeBeat f

theorem State.finishBeat_suspect (h : s.twin.st = .suspect) :
    (s.twin.before = .paired → (s.finishBeat f).twin.st = .paired) ∧
    (s.twin.before = .syncing → (s.finishBeat f).twin.st = .syncing ∨ (s.finishBeat f).twin.st = .paired) := by
  obtain ⟨hst, -⟩ := State.answerBeat_suspect (f := f) h
  refine ⟨fun hpaired => ?_, fun hsyncing => State.concludeBeat_syncing (hst.trans hsyncing)⟩
  rw [hpaired] at hst
  exact (State.concludeBeat_kept (.inl (by rw [hst]; decide))).1.trans hst

theorem State.finishBeat_linkDown (h : s.twin.st = .linkDown) : (s.finishBeat f).twin.st = .linkDown ∧
    (s.finishBeat f).twin.goodSince = some (s.twin.goodSince.getD s.ns) := by
  unfold State.finishBeat
  rw [State.answerBeat_linkDown h]
  obtain ⟨hst, hgood⟩ := State.concludeBeat_kept (f := f)
    (s := { s with twin := { s.twin with goodSince := some (s.twin.goodSince.getD s.ns) } }) (.inl (by rw [h]; decide))
  exact ⟨hst.trans h, hgood⟩

theorem State.finishBeat_goesDown (h : s.twin.st = .paired ∨ s.twin.st = .syncing) (hpeer : f.twinState.toNat = 5) :
    (s.finishBeat f).twin.st = .linkDown := by
  have hanswer : s.answerBeat f = s.enterLinkDown := by
    rw [State.answerBeat_other, if_pos hpeer] <;> rcases h with h | h <;> rw [h] <;> decide
  obtain ⟨hst, -⟩ := s.enterLinkDown_effect
  rw [State.finishBeat, hanswer]
  exact (State.concludeBeat_kept (.inl (by rw [hst]; decide))).1.trans hst

theorem State.finishBeat_stays (h : s.twin.st = .paired ∨ s.twin.st = .syncing) (hpeer : f.twinState.toNat ≠ 5) :
    s.finishBeat f = s.concludeBeat f := by
  rw [State.finishBeat, State.answerBeat_other, if_neg hpeer] <;> rcases h with h | h <;> rw [h] <;> decide

theorem State.finishBeat_selfFenced (h : s.twin.st = .selfFenced) : (s.finishBeat f).twin.st =
    if f.twinState.toNat ∈ [4, 5, 6, 7, 8] then .syncing else .selfFenced := by
  rw [State.finishBeat, State.answerBeat_selfFenced h]
  split
  next hpartner =>
    obtain ⟨m, hm⟩ := s.regain_rejoins hpartner
    obtain ⟨hst, -, hfree, -⟩ := m.enterSyncing_effect
    rw [hm]
    exact (State.concludeBeat_kept (.inr hfree)).1.trans hst
  next hpartner =>
    rw [s.regain_waits hpartner]
    exact (State.concludeBeat_kept (.inl (by rw [h]; decide))).1.trans h

end

-- misses, SUSPECT and the way back (R331, R333)

theorem exec_heartbeatMiss (dt : Nat) (s : State) : exec (.heartbeatMiss dt) s = .next (s.elapse dt).missBeat := rfl

/-- The twin states in which a passed deadline is a miss. -/
theorem TwinSt.misses_iff (x : TwinSt) : (x = .syncing || x = .paired || x = .suspect || x = .linkDown) = true ↔
    x ∈ [TwinSt.syncing, .paired, .suspect, .linkDown] := by
  cases x <;> decide

theorem State.bump_misses (s : State) : (s.bump 0x2201 5 1).val 0x2201 5 = wrapAdd 8 (s.val 0x2201 5) 1 := by
  have hrow : (odRow 0x2201 5).map OdRow.bytes = some 8 := by decide
  obtain ⟨row, hsome, hbytes⟩ := Option.map_eq_some_iff.1 hrow
  simp [State.bump, hsome, hbytes]

section
variable {s : State}

theorem State.missBeat_not (h : s.twin.st ∉ [TwinSt.syncing, .paired, .suspect, .linkDown] ∨ s.ns ≤ s.twin.deadline) :
    s.missBeat = s := by
  refine if_pos ?_
  rw [← s.twin.st.misses_iff] at h
  rcases h with h | h
  · simp only [Bool.not_eq_true] at h
    simp only [h, Bool.not_false, Bool.true_or]
  · simp [h]

/-- A passed deadline counts as a miss, and the next one runs. -/
def State.countMiss (s : State) : State :=
  let t := s.bump 0x2201 5 1
  { t with twin := { t.twin with
    misses := t.twin.misses + 1, deadline := t.twin.deadline + 1000 * t.val 0x2200 7, goodSince := none } }

theorem State.missBeat_counts (h : s.twin.st ∈ [TwinSt.syncing, .paired, .suspect, .linkDown]) (hpassed : s.twin.deadline < s.ns) :
    s.missBeat = s.countMiss := by
  rw [← s.twin.st.misses_iff] at h
  exact if_neg (by simp only [h, hpassed.not_ge]; decide)

theorem State.countMiss_twin (s : State) : s.countMiss.twin = { s.twin with
    misses := s.twin.misses + 1, deadline := s.twin.deadline + 1000 * s.val 0x2200 7, goodSince := none } := by
  unfold State.countMiss
  dsimp only
  rw [State.bump_twin, State.bump_val_other _ _ _ _ _ _ (by decide)]

theorem exec_twinSuspect (dt : Nat) (s : State) : exec (.twinSuspect dt) s = .next (s.elapse dt).suspect := rfl

theorem State.suspect_not (h : s.twin.st ∉ [TwinSt.syncing, .paired] ∨ s.twin.misses < s.val 0x2200 0xF) : s.suspect = s := by
  refine if_neg ?_
  rcases h with h | h
  · simp only [List.mem_cons, List.not_mem_nil, or_false, not_or] at h
    simp [h]
  · simp [h]

theorem State.suspect_suspects (h : s.twin.st ∈ [TwinSt.syncing, .paired]) (hlimit : s.val 0x2200 0xF ≤ s.twin.misses) :
    s.suspect = s.enterSuspect := by
  refine if_pos ?_
  simp only [List.mem_cons, List.not_mem_nil, or_false] at h
  simp [h, hlimit]

theorem exec_linkDownRecovery (dt : Nat) (s : State) : exec (.linkDownRecovery dt) s = .next (s.elapse dt).linkBack := rfl

theorem State.linkBack_not (h : s.twin.st ≠ .linkDown ∨ s.twin.goodSince = none) : s.linkBack = s := by
  unfold State.linkBack
  split
  next t hsince =>
    refine if_neg ?_
    simp [h.resolve_right (by simp [hsince])]
  next => rfl

theorem State.linkBack_early {g : Nat} (hsince : s.twin.goodSince = some g) (h : s.ns < g + 1000000) : s.linkBack = s := by
  simp [State.linkBack, hsince, h.not_ge]

theorem State.linkBack_due {g : Nat} (hst : s.twin.st = .linkDown) (hsince : s.twin.goodSince = some g)
    (h : g + 1000000 ≤ s.ns) : s.linkBack = s.enterSyncing := by
  simp [State.linkBack, hsince, hst, h]

-- the offset of the twins (R283)

theorem exec_twinTimeOffset (dt : Nat) (s : State) : exec (.twinTimeOffset dt) s = .next (s.elapse dt).twinOffset := rfl

theorem State.twinOffset_not (h : s.twin.st = .solo ∨ ∀ g : Nat, s.time.twinBeyond ≠ some (g, false)) : s.twinOffset = s := by
  unfold State.twinOffset
  split
  next t hbeyond =>
    refine if_neg ?_
    simp [h.resolve_right (fun hnone => hnone t hbeyond)]
  next => rfl

theorem State.twinOffset_early {g : Nat} (hbeyond : s.time.twinBeyond = some (g, false)) (h : s.up < g + 1000000000000) :
    s.twinOffset = s := by
  simp [State.twinOffset, hbeyond, sPs, h.not_ge]

theorem State.twinOffset_due {g : Nat} (hst : s.twin.st ≠ .solo) (hbeyond : s.time.twinBeyond = some (g, false))
    (h : g + 1000000000000 ≤ s.up) : s.twinOffset =
      ({ s with time := { s.time with twinBeyond := some (g, true) } } : State).raise 0x0113 0 (s.val 0x2100 9) := by
  simp [State.twinOffset, hbeyond, sPs, h, hst]

end

-- the statement

/-- Settles O45, clause by clause: frames on a twin port, Pair Enable, HELLO and its answer, the conditions of acceptance, the
formation timeout, the asymmetries, heartbeats sent and received, and misses. Which frames are valid and that a nonce is answered once
are log entry 37, the code of Pair Enable is log entry 38, the moments of SYNCING and PAIRED are log entry 39. -/
theorem twinsFormAndKeepContact : Obligations.TwinsFormAndKeepContact := by
  refine ⟨?frame, ?enable, ?hello, ?answer, ?accepts, ?timeout, ?asymmetry, ?interval, ?beat, ?miss⟩
  case frame =>
    rintro s b dt i f cert geo hb k hk
    obtain ⟨act, hexec⟩ := exec_onTwinPort dt i f cert geo s k hk
    rw [hexec, ← hb]
    refine ⟨fun habsent => by rw [State.onTwinPort_absent habsent], fun hst hport => ?_⟩
    rw [State.onTwinPort_hears hst hport]
    exact ⟨fun hforeign => by rw [State.take_foreign hforeign], fun hours htype => by rw [State.take_otherType hours htype]⟩
  case enable =>
    rintro s b dt road value via hb hvia hadmits
    have hvalue : value ≠ 0 → value.toNat ≠ 0 := fun h h0 => h (BitVec.eq_of_toNat_eq h0)
    rw [exec_pairEnable, ← hb, State.writeRow_admitted hadmits, hvia]
    refine ⟨fun h hoff => ?_, fun h hsolo hfenced => ?_, fun h hpaired => ?_, fun h hsolo => ⟨fun hready => ?_, fun hlacks => ?_⟩⟩
    · rw [h, show (0 : BitVec 8).toNat = 0 from rfl, State.pairEnableAct_keepsOff hoff]
      rfl
    · rw [h, show (0 : BitVec 8).toNat = 0 from rfl, State.pairEnableAct_leaves hsolo hfenced]
    · rw [State.pairEnableAct_again (hvalue h) hpaired]
    · rw [State.pairEnableAct_forms (hvalue h) hsolo (State.mayPair_iff.2 hready)]
      refine ⟨_, rfl, ?_⟩
      rw [State.reply_twin, State.reply_units, Twin.eq_of_unsent (State.enterForming_unsent _),
        (State.enterForming_keeps (Within.refl _) (.refl _ _)).units_eq (by decide)]
      exact ⟨rfl, rfl, rfl, rfl, rfl⟩
    · have hno : b.mayPair = false := by
        rw [← Bool.not_eq_true, State.mayPair_iff]
        rintro ⟨hkey, hwitness⟩
        rcases hlacks with hnone | ⟨hnone, hrelay⟩
        · exact hkey hnone
        · rcases hwitness with ⟨haddress, hpartner⟩ | hflag
          · exact hnone.elim haddress hpartner
          · rw [hrelay] at hflag
            cases hflag
      rw [State.pairEnableAct_lacks (hvalue h) hsolo hno]
      rfl
  case hello =>
    rintro s b dt i f hb hst hport hours htype
    rw [exec_hello, ← hb, State.onTwinPort_hears hst hport, State.take_acts hours htype]
    refine ⟨fun hshort => by rw [State.hello_short hshort], fun hlong => ⟨fun hforming hdegraded => ?_, fun hdegraded => ?_,
      fun hforming hnew => ?_⟩⟩
    · rw [State.hello_elsewhere hlong hforming hdegraded]
    · exact ⟨_, rfl, State.hello_degraded hlong hdegraded⟩
    · rw [State.hello_forms hlong hforming hnew]
      have hnoted := b.noteHello_twin i f
      obtain ⟨hwait, hleaf⟩ := b.matchPort_signs i f
      have hout := (b.matchPort_keeps_rest i f).out_eq (by decide)
      refine ⟨_, rfl, ?_⟩
      rw [State.answerHello_twin]
      dsimp only
      rw [hnoted]
      refine ⟨hforming, rfl, fun hown => State.matchPort_own i.isLt hown, fun hother => State.matchPort_other hother,
        fun hfree hleft => ?_, fun hbusy => ?_⟩
      · have hanswers := State.answerHello_answers (s := (b.matchPort i f).noteHello i (helloNonce f)) (by rw [hnoted]; exact hforming)
          (by rw [hnoted]; exact helloNonce_ne_nil hlong) (by rw [hnoted]) (hwait.trans hfree) (hleaf ▸ hleft)
        obtain ⟨-, -, hsigned⟩ := ((b.matchPort i f).noteHello i (helloNonce f)).signed_effect
        rw [hanswers]
        exact ⟨_, _, congrArg (· ++ _) (hsigned.trans hout), rfl, rfl⟩
      · have hwaits := State.answerHello_waits (s := (b.matchPort i f).noteHello i (helloNonce f))
          (.inr (.inr (.inr (hbusy.imp (hwait ▸ ·) (hleaf ▸ ·)))))
        rw [hwaits, hnoted]
        exact ⟨hout, rfl⟩
  case answer =>
    rintro s b dt i f cert geo hb hst hport hours htype
    rw [exec_helloAnswer, ← hb, State.onTwinPort_hears hst hport, State.take_acts hours htype]
    refine ⟨fun hnot => by rw [State.helloAnswer_not hnot], fun hforming haccepts => ?_⟩
    rw [State.helloAnswer_accepts hforming haccepts]
    refine ⟨_, rfl, ?_, ?_, ?_, fun hown => (State.matchPort_own i.isLt hown).1⟩
    · rw [State.matchPort_twin]
      exact hforming
    · rw [State.matchPort_twin]
      rfl
    · rw [State.matchPort_val _ _ _ _ _ (by decide)]
      exact State.setVal_val_same _ _ _ _
  case accepts =>
    intro s report cert geo
    rw [show s.val 0x2200 2 = s.partnerHash from rfl]
    simp only [State.acceptsPartner, Bool.and_eq_true, decide_eq_true_eq, bne_iff_ne, and_assoc]
  case timeout =>
    rintro s b dt hb
    rw [exec_formationTimeout, ← hb]
    rw [show (10000000000000 : Nat) = 10 * sPs from rfl]
    refine ⟨fun hnot => ?_, fun hforming hdue => ?_⟩
    · rw [if_neg]
      simp only [Bool.and_eq_true, decide_eq_true_eq]
      exact fun ⟨hforming, hdue⟩ => hnot.elim (· hforming) hdue.not_gt
    · rw [if_pos (by simp [hforming, hdue])]
      have htwin := Twin.eq_of_unsent (b.bump 0x2201 0x13 1).startHello_unsent
      rw [State.bump_twin, State.bump_up] at htwin
      refine ⟨_, rfl, ?_, ?_, ?_, ?_, (State.startHello_val _ _ _ (by decide)).trans b.bump_formationTimeouts⟩ <;> rw [htwin]
      exact hforming
  case asymmetry =>
    rintro s b dt a hb
    rw [exec_asymmetryMeasured, ← hb]
    refine ⟨fun hnot => by rw [State.asymmetry_not a hnot], fun hforming hkey hanswered husable => ?_⟩
    obtain ⟨v, hsyncs⟩ := State.asymmetry_syncs a hforming hkey hanswered husable
    obtain ⟨hkept, hclock, hod⟩ := (b.setVal 0x2201 4 v).measureDelays_kept b.twin.usable
    obtain ⟨hst, hmisses, -, -, hdeadline, hports⟩ :=
      ((b.setVal 0x2201 4 v).measureDelays b.twin.usable).enterSyncing_effect
    rw [State.val_congr hod, State.setVal_val_other _ _ _ _ _ _ (by decide), State.ns, hclock] at hdeadline
    rw [hsyncs]
    exact ⟨_, rfl, hst, hmisses, hdeadline, hports.trans hkept⟩
  case interval =>
    rintro s b dt n hb hn
    rw [exec_heartbeatInterval, ← hb]
    refine ⟨fun hlive => ?_, fun hnot => by rw [State.sendBeats_not hnot]⟩
    have hsends : (b.bump 0x2202 2 n).twin.st ≠ .takingOver := by
      rw [State.bump_twin]
      rintro htaking
      rw [htaking] at hlive
      exact absurd hlive (by decide)
    obtain ⟨l, hout, hlength, hbeats⟩ := State.sendTwin_out 1 hsends
    rw [State.sendBeats_sends hlive, ← hn]
    refine ⟨_, l, rfl, by rw [hout, State.bump_out], ?_, hbeats, ?_⟩
    · rw [hlength, hn]
      simp only [State.bump_twin, State.bump_unit]
    · have hunsent := Twin.eq_of_unsent ((b.bump 0x2202 2 n).sendTwin_unsent 1)
      rwa [State.bump_twin] at hunsent
  case beat =>
    rintro s b dt i f hb hst hport hours htype
    rw [exec_heartbeat, ← hb, State.onTwinPort_hears hst hport, State.take_acts hours htype]
    refine ⟨fun hnot => by rw [State.heartbeat_not hnot], fun husable hlive => ?_⟩
    rw [State.heartbeat_counts husable hlive]
    have harrived := b.arriveBeat_twin i f
    have hns := b.arriveBeat_ns i f
    generalize b.arriveBeat i f = m at harrived hns
    obtain ⟨hstate, hbefore, hgood, hmisses⟩ : m.twin.st = b.twin.st ∧ m.twin.before = b.twin.before ∧
        m.twin.goodSince = b.twin.goodSince ∧ m.twin.misses = 0 := by
      rw [harrived]
      exact ⟨rfl, rfl, rfl, rfl⟩
    have hpeer : f.twinState.toNat = 5 ↔ f.twinState = 5 := BitVec.toNat_inj (y := 5)
    refine ⟨_, rfl, (State.concludeBeat_misses _ f).trans (State.answerBeat_misses f hmisses), fun hsuspect hpaired => ?_,
      fun hsuspect hsyncing => ?_, fun hdown => ?_, fun hpaired => ?_, fun hsyncing hpartner => ?_,
      fun hsyncing hpartner => ?_, fun hfenced => ?_⟩
    · exact (State.finishBeat_suspect (hstate.trans hsuspect)).1 (hbefore.trans hpaired)
    · exact (State.finishBeat_suspect (hstate.trans hsuspect)).2 (hbefore.trans hsyncing)
    · rw [← hgood, ← hns]
      exact State.finishBeat_linkDown (hstate.trans hdown)
    · have hst' := hstate.trans hpaired
      split
      next h => exact State.finishBeat_goesDown (.inl hst') (hpeer.2 h)
      next h =>
        rw [← State.finishBeat, State.finishBeat_stays (.inl hst') (mt hpeer.1 h)]
        exact (State.concludeBeat_kept (.inl (by rw [hst']; decide))).1.trans hst'
    · exact State.finishBeat_goesDown (.inr (hstate.trans hsyncing)) (hpeer.2 hpartner)
    · rw [← State.finishBeat, State.finishBeat_stays (.inr (hstate.trans hsyncing)) (mt hpeer.1 hpartner)]
      exact State.concludeBeat_syncing (hstate.trans hsyncing)
    · exact State.finishBeat_selfFenced (hstate.trans hfenced)
  case miss =>
    rintro s b dt hb
    rw [exec_heartbeatMiss, exec_twinSuspect, exec_linkDownRecovery, exec_twinTimeOffset, ← hb]
    refine ⟨fun hnot => by rw [State.missBeat_not hnot], fun hcounts hpassed =>
        ⟨_, congrArg _ (State.missBeat_counts hcounts hpassed), b.countMiss_twin, b.bump_misses⟩,
      fun hnot => by rw [State.suspect_not hnot], fun hcounts hlimit => ?_, fun hnot => by rw [State.linkBack_not hnot],
      fun g hdown hgood => ⟨fun hearly => by rw [State.linkBack_early hgood hearly], fun hdue => ?_⟩,
      fun hnot => by rw [State.twinOffset_not hnot], fun g hpairs hbeyond => ⟨fun hearly => ?_, fun hdue => ?_⟩⟩
    · rw [State.suspect_suspects hcounts hlimit]
      refine ⟨_, rfl, ?_⟩
      rw [Twin.eq_of_unsent b.enterSuspect_unsent]
      exact ⟨rfl, rfl, rfl, rfl, rfl⟩
    · obtain ⟨hsyncing, hmisses, -, hgone, -⟩ := b.enterSyncing_effect
      rw [State.linkBack_due hdown hgood hdue]
      exact ⟨_, rfl, hsyncing, hmisses, hgone⟩
    · rw [State.twinOffset_early hbeyond hearly]
    · rw [State.twinOffset_due hpairs hbeyond hdue]

end Sys2Proof.Machine
end

section
/-! States that meet the hypotheses of the clauses of O38, O39 and O45. `Tests.served` is one where master 1 may write every
entry. -/

namespace Sys2Proof.Machine

open Tests (served)

/-- 1PPS has been present since 10 s with 16 updates within 1 µs, and the time of day is known. The clock stands at `up` ps. -/
def edgesArrive (up : Nat) : State := { State.reset with
  clock := { now := up, up := up }
  time := { dayKnown := true, pps := { present := some 10000000000000, lastAt := 11500000000000, inBand := 16 } } }

/-- A source qualifies, and is followed, once it has been present for 2 s, not before. -/
theorem witness_sourceQualified :
    exec (.sourceQualified 0 .pps) (edgesArrive 11999999999999) = .next ((edgesArrive 11999999999999).elapse 0) ∧
      ∃ t, exec (.sourceQualified 0 .pps) (edgesArrive 12000000000000) = .next t ∧ t.time.followed = 3 := by
  obtain ⟨-, hqualifies, -⟩ := timeFollowsItsSources
  obtain ⟨-, hshort⟩ := hqualifies (edgesArrive 11999999999999) _ 0 _ .pps rfl rfl
  obtain ⟨hearly, -⟩ := hshort _ (by decide) (by decide) (fun _ => rfl) rfl
  obtain ⟨-, hlong⟩ := hqualifies (edgesArrive 12000000000000) _ 0 _ .pps rfl rfl
  obtain ⟨-, hdue⟩ := hlong _ (by decide) (by decide) (fun _ => rfl) rfl
  obtain ⟨m, rfl, hfollows, -⟩ := hdue (by decide)
  exact ⟨hearly (by decide), _, hfollows (by decide), by decide⟩

/-- 1PPS is lost 1.1 s after its last edge. -/
theorem witness_sourceLost : ∃ t, exec (.sourceLost 0 .pps) (edgesArrive 12600000000000) = .next t ∧
    (t.source 3).present = none := by
  obtain ⟨-, -, hlost, -⟩ := timeFollowsItsSources
  obtain ⟨-, hpresent⟩ := hlost (edgesArrive 12600000000000) _ 0 _ .pps rfl rfl
  obtain ⟨-, -, hdue⟩ := hpresent (by decide)
  obtain ⟨t, ht, -, hgone, -⟩ := hdue (by decide) (fun _ => by decide) (by decide)
  exact ⟨t, ht, hgone⟩

/-- An offset within the Step Threshold is slewed. -/
theorem witness_slews : ((edgesArrive 12000000000000).correct 7).clock.slewLeft = -7 := by
  obtain ⟨-, -, -, -, hcorrects, -⟩ := timeFollowsItsSources
  obtain ⟨-, hslews⟩ := hcorrects (edgesArrive 12000000000000) 7
  rw [hslews (.inl (by decide))]

/-- The offset of the followed 1PPS has stayed within the Lock Threshold since 10 s. -/
def edgesFollowed (lock : LockSt) : State := { State.reset with
  clock := { now := 12000000000000, up := 12000000000000 }
  time := { lock := lock, followed := 3, withinSince := some 10000000000000, since := 5 } }

theorem witness_timeLocked : ∃ t, exec (.timeLocked 0) (edgesFollowed .freeRun) = .next t ∧ t.time.lock = .locked := by
  obtain ⟨-, -, -, -, -, hlocks, -⟩ := timeFollowsItsSources
  obtain ⟨-, hwithin⟩ := hlocks (edgesFollowed .freeRun) _ 0 10000000000000 rfl
  obtain ⟨-, hdue⟩ := hwithin (by decide) (by decide) rfl
  obtain ⟨t, ht, hlocked, -⟩ := hdue (by decide)
  exact ⟨t, ht, hlocked⟩

/-- 48 bits of seconds are taken, one more is refused. -/
theorem witness_timeOfDay : (∃ t, exec (.timeOfDay 0 .coe 5) served = .next t ∧ t.time.nextEdge = some 5) ∧
    exec (.timeOfDay 0 .coe (2 ^ 48)) served = .next ((served.elapse 0).reply (viaOf .coe 0x2105 3) 0x2105 3 0x06090030) := by
  obtain ⟨-, -, -, -, -, -, -, -, hday, -⟩ := timeFollowsItsSources
  obtain ⟨hfits, -⟩ := hday served _ 0 .coe 5 rfl ⟨by decide, by decide⟩
  obtain ⟨-, hlarge⟩ := hday served _ 0 .coe (2 ^ 48) rfl ⟨by decide, by decide⟩
  exact ⟨⟨_, hfits (by decide), by decide⟩, hlarge (by decide)⟩

/-- The part with its epochs in state `x`, the Commit Time 20 µs and 1 ns ahead. -/
def epochIn (x : EpochSt) : State := { served.setVal 0x2002 3 20001 with epoch := { st := x } }

/-- A Group Mode Table with group 0 in mode 1 is staged in PENDING, and refused in STABLE. -/
theorem witness_staged :
    (∃ t, exec (.epochStageWrite 0 .coe 0x6200 7 (leBytes 140 0x10001)) (epochIn .pending) = .next t ∧
      (odKey 0x6200 7, 0x10001) ∈ t.epoch.staged) ∧
    exec (.epochStageWrite 0 .coe 0x6200 7 (leBytes 140 0x10001)) (epochIn .stable) =
      .next (((epochIn .stable).elapse 0).reply (viaOf .coe 0x6200 7) 0x6200 7 0x08000022) := by
  obtain ⟨hstages, -⟩ := epochsCommitAtTheirTime
  obtain ⟨-, hentry⟩ := hstages (epochIn .pending) _ 0 .coe 0x6200 7 (leBytes 140 0x10001) _ _ rfl rfl rfl
  obtain ⟨-, -, hpending⟩ := hentry (by decide) ⟨by decide, by decide +kernel⟩
  obtain ⟨t, ht, hstaged, -⟩ := hpending rfl (by decide +kernel)
  obtain ⟨-, hentry'⟩ := hstages (epochIn .stable) _ 0 .coe 0x6200 7 (leBytes 140 0x10001) _ _ rfl rfl rfl
  obtain ⟨hrefused, -⟩ := hentry' (by decide) ⟨by decide, by decide +kernel⟩
  exact ⟨⟨t, ht, (hstaged 0x10001).2 (by decide +kernel)⟩, hrefused (by decide)⟩

theorem witness_epochOpened : ∃ t, exec (.epochOpen 0 .coe) (epochIn .stable) = .next t ∧ t.epoch.st = .pending := by
  obtain ⟨-, hcommands, -⟩ := epochsCommitAtTheirTime
  obtain ⟨hopen, -⟩ := hcommands (epochIn .stable) _ 0 .coe _ rfl rfl
  obtain ⟨hstable, -⟩ := hopen ⟨by decide, by decide⟩
  obtain ⟨t, ht, hpending, -⟩ := hstable rfl
  exact ⟨t, ht, hpending⟩

/-- The Commit Time of a COMMIT has come; `issued` is the epoch number last issued. -/
def commitWaits (issued : Nat) : State := { State.reset with
  clock := { now := 20000000 }, epoch := { st := .committing, commitAt := 20000, lastIssued := issued } }

/-- The number after 1 is 2, and 1 follows 65,535. -/
theorem witness_committed : (∃ t, exec (.epochCommitTime 0) (commitWaits 1) = .next t ∧ t.val 0x2002 1 = 2) ∧
    ∃ t, exec (.epochCommitTime 0) (commitWaits 65535) = .next t ∧ t.val 0x2002 1 = 1 := by
  obtain ⟨-, -, htime, -⟩ := epochsCommitAtTheirTime
  obtain ⟨-, hdue⟩ := htime (commitWaits 1) _ _ 0 rfl rfl
  obtain ⟨hcommit, -⟩ := hdue rfl rfl (by decide)
  obtain ⟨t, ht, -, hnumber⟩ := hcommit rfl
  obtain ⟨-, hdue'⟩ := htime (commitWaits 65535) _ _ 0 rfl rfl
  obtain ⟨hcommit', -⟩ := hdue' rfl rfl (by decide)
  obtain ⟨t', ht', -, hnumber'⟩ := hcommit' rfl
  exact ⟨⟨t, ht, hnumber⟩, t', ht', hnumber'⟩

/-- One twin, its state `x`, hears its partner on port 3; the deadline of the next heartbeat was at 5 ns, the time is 6 ns. -/
def twinned (x : TwinSt) : State := { State.reset with
  clock := { now := 6000 }
  units := tmod State.reset.units (portRef 123) (fun y => { y with st := .serving })
  twin := { st := x, before := .paired, usable := [3], deadline := 5, misses := 2 } }

/-- A heartbeat ends SUSPECT; one that shows the partner in LINK_DOWN takes PAIRED there. -/
theorem witness_heartbeat : (∃ t, exec (.heartbeat 0 3 {}) (twinned .suspect) = .next t ∧ t.twin.st = .paired ∧ t.twin.misses = 0) ∧
    ∃ t, exec (.heartbeat 0 3 { twinState := 5 }) (twinned .paired) = .next t ∧ t.twin.st = .linkDown := by
  obtain ⟨-, -, -, -, -, -, -, -, hbeat, -⟩ := twinsFormAndKeepContact
  obtain ⟨-, hcounts⟩ := hbeat (twinned .suspect) _ 0 3 {} rfl (by decide) (by decide) (by decide) rfl
  obtain ⟨t, ht, hmisses, hback, -⟩ := hcounts (by decide) (by decide)
  obtain ⟨-, hcounts'⟩ := hbeat (twinned .paired) _ 0 3 { twinState := 5 } rfl (by decide) (by decide) (by decide) rfl
  obtain ⟨t', ht', -, -, -, -, hdown, -⟩ := hcounts' (by decide) (by decide)
  exact ⟨⟨t, ht, hback rfl rfl, hmisses⟩, t', ht', hdown rfl⟩

theorem witness_heartbeatMissed : ∃ t, exec (.heartbeatMiss 0) (twinned .syncing) = .next t ∧ t.twin.misses = 3 := by
  obtain ⟨-, -, -, -, -, -, -, -, -, hmiss⟩ := twinsFormAndKeepContact
  obtain ⟨-, hcounts, -⟩ := hmiss (twinned .syncing) _ 0 rfl
  obtain ⟨t, ht, htwin, -⟩ := hcounts (by decide) (by decide)
  exact ⟨t, ht, congrArg Twin.misses htwin⟩

/-- Pair Enable takes SOLO to FORMING once the partner's key hash and address and the witness's address are set. -/
theorem witness_pairEnabled : ∃ t, exec (.pairEnable 0 .coe 1)
    (((served.setVal 0x2200 2 1).setVal 0x2200 3 1).setVal 0x2200 4 1) = .next t ∧ t.twin.st = .forming := by
  obtain ⟨-, hpair, -⟩ := twinsFormAndKeepContact
  obtain ⟨-, -, -, hsolo⟩ := hpair (((served.setVal 0x2200 2 1).setVal 0x2200 3 1).setVal 0x2200 4 1) _ 0 .coe 1 _ rfl rfl
    ⟨by decide, by decide⟩
  obtain ⟨hforms, -⟩ := hsolo (by decide) rfl
  obtain ⟨t, ht, hforming, -⟩ := hforms (by decide)
  exact ⟨t, ht, hforming⟩

/-- An attempt at formation starts over after 10 s, not before. -/
theorem witness_formationTimeout : exec (.formationTimeout 0) { helloWaits with clock := { up := 9999999999999 } } =
      .next (State.elapse { helloWaits with clock := { up := 9999999999999 } } 0) ∧
    ∃ t, exec (.formationTimeout 0) { helloWaits with clock := { up := 10000000000000 } } = .next t ∧
      t.twin.formAt = 10000000000000 := by
  obtain ⟨-, -, -, -, -, htimeout, -⟩ := twinsFormAndKeepContact
  obtain ⟨hearly, -⟩ := htimeout { helloWaits with clock := { up := 9999999999999 } } _ 0 rfl
  obtain ⟨-, hdue⟩ := htimeout { helloWaits with clock := { up := 10000000000000 } } _ 0 rfl
  obtain ⟨t, ht, -, hat, -⟩ := hdue rfl (by decide)
  exact ⟨hearly (.inr (by decide)), t, ht, hat⟩

end Sys2Proof.Machine
end

section
/-! The machine as a whole (95_what_each_step_holds.md): the statements O1 and O3. -/

namespace Sys2Proof.Machine

/-- A step on a queue with a command in front runs that command on the state whose queue is the rest. -/
theorem step_front {c : Instr} {rest : List Instr} {s : State} (h : s.pending = c :: rest) :
    step s = exec c { s with pending := rest } := by
  unfold step
  rw [h]

/-- Settles O1, by the branch of `step` that finds the queue not empty. -/
theorem stepRunsFrontCommand : Obligations.StepRunsFrontCommand := fun _ _ _ h => step_front h

/-- Settles O3 with what each command keeps (`exec_keeps`); the time since power came is among it. -/
theorem everyCommandChangesOnlyItsParts : Obligations.EveryCommandChangesOnlyItsParts := by
  intro c s
  obtain ⟨t, hexec, hkeeps⟩ := exec_keeps c s
  exact ⟨t, hexec, hkeeps, hkeeps.up.trans (s.clock.elapse_up c.dt)⟩

end Sys2Proof.Machine
end

section
/-! Reinstatement of a sensor (R456): the statement O32. -/

namespace Sys2Proof.Machine

theorem exec_sensorReinstate (dt : Nat) (road : Road) (sensor : BitVec 16) (passed : Bool) (s : State) :
    exec (.sensorReinstate dt road sensor passed) s =
      .next ((s.elapse dt).writeRow road 0x6002 2 (leBytes 2 sensor.toNat) (State.reinstateAct sensor.toNat passed)) := rfl

section
variable {s : State} {i : Nat} {passed : Bool}

theorem State.reinstateAct_accepts (hi : i < 238) (hpassed : passed = true)
    (hrange : ∀ v : Int, (s.sensor i).samples.head? = some v → -400 ≤ v ∧ v ≤ 2000) :
    State.reinstateAct i passed s =
      (0, s.modSensor i (fun x => { x with broken := false, selfCheckOk := true, deviatesSince := none })) := by
  have hlast : (s.sensor i).samples.head?.all (fun v => decide (-400 ≤ v) && decide (v ≤ 2000)) = true := by
    cases hv : (s.sensor i).samples.head? with
    | none => rfl
    | some v => simpa using hrange v hv
  simp [State.reinstateAct, Nat.not_le.2 hi, hpassed, hlast, accept]

theorem State.reinstateAct_outOfRange {v : Int} (hv : (s.sensor i).samples.head? = some v) (hout : v < -400 ∨ 2000 < v) :
    State.reinstateAct i passed s = (0x08000022, s) := by
  have hlast : (decide (-400 ≤ v) && decide (v ≤ 2000)) = false := by
    rw [Bool.and_eq_false_iff, decide_eq_false_iff_not, decide_eq_false_iff_not]
    omega
  simp [State.reinstateAct, hv, hlast, refuse, abState]

theorem State.reinstateAct_fails (h : passed = false ∨ 238 ≤ i) : State.reinstateAct i passed s = (0x08000022, s) := by
  rcases h with h | h <;> simp [State.reinstateAct, h, refuse, abState]

end

/-- Settles O32: an admitted write comes to what `reinstateAct` answers, which accepts in one case only. -/
theorem sensorReinstatedOnlyWhenItPasses : Obligations.SensorReinstatedOnlyWhenItPasses := by
  rintro s b dt road sensor passed hb hadmits
  rw [exec_sensorReinstate, ← hb, State.writeRow_admitted hadmits]
  refine ⟨fun hpassed hsensor hrange => ?_, fun v hv hout => ?_, fun hfails => ?_⟩
  · rw [State.reinstateAct_accepts hsensor hpassed hrange]
  · rw [State.reinstateAct_outOfRange hv hout]
  · rw [State.reinstateAct_fails hfails]

/-- Sensor 237 is reinstated on a last sample of 200 °C, and refused on one a tenth above. -/
theorem witness_reinstated :
    (∃ t, exec (.sensorReinstate 0 .coe 237 true) (Tests.served.modSensor 237 (fun x => { x with broken := true, samples := [2000] })) =
      .next t ∧ (t.sensor 237).broken = false) ∧
    ∃ t, exec (.sensorReinstate 0 .coe 237 true) (Tests.served.modSensor 237 (fun x => { x with broken := true, samples := [2001] })) =
      .next t ∧ (t.sensor 237).broken = true := by
  obtain ⟨hpasses, -, -⟩ := sensorReinstatedOnlyWhenItPasses
    (Tests.served.modSensor 237 (fun x => { x with broken := true, samples := [2000] })) _ 0 .coe 237 true rfl ⟨by decide, by decide⟩
  obtain ⟨-, hout, -⟩ := sensorReinstatedOnlyWhenItPasses
    (Tests.served.modSensor 237 (fun x => { x with broken := true, samples := [2001] })) _ 0 .coe 237 true rfl ⟨by decide, by decide⟩
  exact ⟨⟨_, hpasses rfl (by decide) (fun v hv => by cases hv; decide), by decide⟩, _, hout 2001 rfl (.inr (by decide)), by decide⟩

end Sys2Proof.Machine
end

section
/-! Counters, and a fabric port that enters a state: what the statements O41 and O42 need of them. -/

namespace Sys2Proof.Machine

/-- A counter of `n` bytes moves on and wraps at its width (R63). -/
theorem State.bump_counts {i k n : Nat} (hrow : (odRow i k).map OdRow.bytes = some n) (s : State) {d : Nat} (hd : d ≠ 0) :
    (s.bump i k d).val i k = wrapAdd n (s.val i k) d := by
  obtain ⟨row, hsome, rfl⟩ := Option.map_eq_some_iff.1 hrow
  simp [State.bump, hd, hsome]

theorem odKey_inj {i k x y : Nat} (hk : k < 256) (hy : y < 256) : odKey x y = odKey i k ↔ x = i ∧ y = k := by
  unfold odKey
  omega

/-- The counters of a port that this development reads have 8 bytes, but the one of storms, which has 4 (R325). -/
theorem odRow_portCounters (n : Fin 128) : ∀ k ∈ [0xB, 0xC, 0xE, 0x10, 0x12, 0x13, 0x14, 0x15],
    (odRow (portIdx n) k).map OdRow.bytes = some 8 := by
  revert n
  decide +kernel

/-- A state in which a unit does not work is entered without clearing alarms or taking committed values. -/
theorem State.setUnit_idle {st : UnitSt} (h : st.works = false) (s : State) (r : Nat) : s.setUnit r st = s.putUnit r st :=
  if_neg (by simp [h])

theorem State.setUnit_port (s : State) (r : Nat) (st : UnitSt) (n : Nat) : (s.setUnit r st).port n = s.port n :=
  (State.setUnit_keeps (Within.refl _) r st (.refl _ s)).port_eq n (by decide)

theorem State.countReroute_unit (s : State) (was is : Bool) (r : Nat) : (s.countReroute was is).unit r = s.unit r :=
  s.bump_unit _ _ _ r

theorem State.countReroute_port (s : State) (was is : Bool) (n : Nat) : (s.countReroute was is).port n = s.port n :=
  s.bump_port _ _ _ n

theorem State.countReroute_val {x y : Nat} (h : odKey x y ≠ odKey 0x2300 0x1B) (s : State) (was is : Bool) :
    (s.countReroute was is).val x y = s.val x y := s.bump_val_other _ _ _ _ _ h

-- a port leaves service (R305, R310)

section
variable (s : State) (n : Nat) (st : UnitSt)

theorem State.portOut_unit (r : Nat) : (s.portOut n st).unit r = if r = portRef n then st else s.unit r := by
  unfold State.portOut
  rw [State.countReroute_unit, State.setUnit_unit]
  split
  · rfl
  next hr => rw [State.modUnit_unit, if_neg hr, State.modPort_unit, State.bump_unit]

/-- The light that a port in the state sees. -/
def State.lightIn (s : State) (n : Nat) (st : UnitSt) : Bool := if st = .offline || st = .retired then false else s.fabricLight n

theorem State.portOut_port : (s.portOut n st).port n = (s.port n).cleared s.up (s.lightIn n st) := by
  unfold State.portOut
  rw [State.countReroute_port, State.setUnit_port, State.modUnit_port, State.modPort_port, if_pos rfl, State.bump_port]
  rfl

/-- A port that does not serve is in no group. -/
theorem State.inGroups_notServing {s : State} {n : Nat} (h : s.unit (portRef n) ≠ .serving) : s.inGroups n = false := by
  simp [State.inGroups, h]

variable {s n st}

/-- What is still queued is dropped and counted. -/
theorem State.portOut_drops (n : Fin 128) (hst : st.works = false) (hqueued : (s.port n).queued ≠ 0) :
    (s.portOut n st).val (portIdx n) 0x12 = wrapAdd 8 (s.val (portIdx n) 0x12) (s.port n).queued := by
  have hrow := odRow_portCounters n 0x12 (by decide)
  unfold State.portOut
  rw [State.countReroute_val (by simp [odKey, portIdx]; omega), State.setUnit_idle hst, State.putUnit_val, State.modUnit_val,
    State.modPort_val, State.bump_counts hrow s hqueued]

theorem State.portOut_val {x y : Nat} (hst : st.works = false) (hdrops : odKey x y ≠ odKey (portIdx n) 0x12)
    (hroutes : odKey x y ≠ odKey 0x2300 0x1B) : (s.portOut n st).val x y = s.val x y := by
  unfold State.portOut
  rw [State.countReroute_val hroutes, State.setUnit_idle hst, State.putUnit_val, State.modUnit_val, State.modPort_val,
    State.bump_val_other _ _ _ _ _ _ hdrops]

end

end Sys2Proof.Machine
end

section
/-! Fabric ports that drain, train, serve and lose their light (R305, R306, R308 to R310): the statement O41. -/

namespace Sys2Proof.Machine

section
variable {s : State} {n : Nat}

-- a drain ends (R306, R310)

theorem exec_portEgressDrainEnd (dt : Nat) (n : Fin 128) (s : State) :
    exec (.portEgressDrainEnd dt n) s = .next ((s.elapse dt).egressDrainEnd n) := rfl

theorem State.egressDrainEnd_waits
    (h : (s.port n).draining = 0 ∨ ((s.port n).queued ≠ 0 ∧ s.up < (s.port n).drainAt + 100 * usPs)) : s.egressDrainEnd n = s := by
  rcases h with h | h <;> simp [State.egressDrainEnd, h]

theorem State.egressDrainEnd_ends (hdrains : (s.port n).draining ≠ 0)
    (h : (s.port n).queued = 0 ∨ (s.port n).drainAt + 100 * usPs ≤ s.up) :
    s.egressDrainEnd n = s.portDrained n (s.port n).draining := by
  rcases h with h | h <;> simp [State.egressDrainEnd, hdrains, h]

/-- The states that the commands DISABLE, RETRAIN and RETIRE drain for. -/
def drainStates : List (Nat × UnitSt) := [(2, .offline), (3, .repair), (5, .retired)]

/-- A drain leaves the port as one that is out in the state of its command. -/
theorem State.portDrained_out {cmd : Nat} {st : UnitSt} (h : (cmd, st) ∈ drainStates) :
    (∀ r, (s.portDrained n cmd).unit r = (s.portOut n st).unit r) ∧ (s.portDrained n cmd).port n = (s.portOut n st).port n ∧
      (∀ x y, (s.portDrained n cmd).val x y = (s.portOut n st).val x y) := by
  have hmark : ∀ (u : State) (f : UnitState → UnitState), (∀ x, (f x).st = x.st) → ∀ r, (u.modUnit (portRef n) f).unit r = u.unit r := by
    intro u f hf r
    rw [State.modUnit_unit]
    split
    next hr => rw [hf, hr]; rfl
    next => rfl
  simp only [drainStates, List.mem_cons, Prod.mk.injEq, List.not_mem_nil, or_false] at h
  rcases h with ⟨rfl, rfl⟩ | ⟨rfl, rfl⟩ | ⟨rfl, rfl⟩
  · exact ⟨fun _ => rfl, rfl, fun _ _ => rfl⟩
  · exact ⟨hmark (s.portOut n .repair) (fun u => { u with command := 3 }) (fun _ => rfl), rfl, fun _ _ => rfl⟩
  · exact ⟨hmark (s.portOut n .retired) (fun u => { u with retiredNv := true }) (fun _ => rfl), rfl, fun _ _ => rfl⟩

theorem Port.cleared_queued (p : Port) (now : Nat) (light : Bool) : (p.cleared now light).queued = 0 := rfl

-- training (R305, R308)

theorem exec_portLinkUp (dt : Nat) (n : Fin 128) (speed : Fin 2) (s : State) :
    exec (.portLinkUp dt n speed) s = .next ((s.elapse dt).linkUp n speed) := rfl
theorem exec_neighbourSolicit (dt : Nat) (n : Fin 128) (s : State) :
    exec (.neighbourSolicit dt n) s = .next ((s.elapse dt).solicit n) := rfl
theorem exec_neighbourAnswer (dt : Nat) (n : Fin 128) (mac : BitVec 48) (s : State) :
    exec (.neighbourAnswer dt n mac) s = .next ((s.elapse dt).neighbourIs n mac.toNat) := rfl
theorem exec_portTrainingTimeout (dt : Nat) (n : Fin 128) (s : State) :
    exec (.portTrainingTimeout dt n) s = .next ((s.elapse dt).trainingTimeout n) := rfl

/-- A training port is READY once it has link and neighbour; of the port itself only the time of that is noted. -/
theorem State.portUp_effect (htrains : s.training n = true) :
    (s.portUp n).unit (portRef n) = (if (s.port n).link && (s.port n).resolved then .ready else s.unit (portRef n)) ∧
      ∃ at_, (s.portUp n).port n = { s.port n with since := at_ } := by
  unfold State.portUp
  by_cases h : ((s.port n).link && (s.port n).resolved) = true
  · dsimp only
    rw [if_pos (by simpa [htrains] using h), if_pos h]
    refine ⟨by rw [State.setUnit_unit, if_pos rfl], s.up, ?_⟩
    rw [State.setUnit_port, State.modUnit_port, State.modPort_port, if_pos rfl]
  · rw [if_neg h]
    dsimp only
    rw [if_neg (by simpa [htrains] using h)]
    exact ⟨rfl, (s.port n).since, rfl⟩

/-- Training goes by the unit's state alone. -/
theorem State.modPort_training (s : State) (n m : Nat) (f : Port → Port) : (s.modPort m f).training n = s.training n := rfl

theorem State.linkUp_not {speed : Nat}
    (h : s.training n = false ∨ (s.val (portIdx n) 2 ≠ 0 ∧ s.val (portIdx n) 2 ≠ speed + 1)) : s.linkUp n speed = s := by
  rcases h with h | h <;> simp [State.linkUp, h]

theorem State.linkUp_links {speed : Nat} (htrains : s.training n = true)
    (hspeed : s.val (portIdx n) 2 = 0 ∨ s.val (portIdx n) 2 = speed + 1) :
    s.linkUp n speed = (s.modPort n (fun p => { p with link := true, speed := speed + 1 })).portUp n := by
  rcases hspeed with h | h <;> simp [State.linkUp, htrains, h]

theorem State.neighbourIs_not {mac : Nat} (h : s.training n = false ∨ (s.port n).resolved = true) : s.neighbourIs n mac = s := by
  rcases h with h | h <;> simp [State.neighbourIs, h]

theorem State.neighbourIs_resolves (mac : Nat) (htrains : s.training n = true) (hopen : (s.port n).resolved = false) :
    s.neighbourIs n mac = (s.modPort n (fun p => { p with resolved := true, neighbour := mac })).portUp n := by
  simp [State.neighbourIs, htrains, hopen]

/-- A solicitation is due 1 ms after the last. -/
theorem State.solicit_waits (h : s.training n = false ∨ (s.port n).resolved = true ∨
    ∃ at_ : Nat, (s.port n).solicitAt = some at_ ∧ s.up < at_ + msPs) : s.solicit n = s := by
  rcases h with h | h | ⟨at_, hat, h⟩
  · simp [State.solicit, h]
  · simp [State.solicit, h]
  · simp [State.solicit, hat, Nat.not_le.2 h]

theorem State.solicit_sends (htrains : s.training n = true) (hopen : (s.port n).resolved = false)
    (hdue : ∀ at_ : Nat, (s.port n).solicitAt = some at_ → at_ + msPs ≤ s.up) :
    s.solicit n = (s.modPort n (fun p => { p with solicitAt := some s.up })).emit
      (.solicit n (!(s.val 0x2300 2 = 0 && s.val 0x2300 3 != 0))) := by
  cases hat : (s.port n).solicitAt with
  | none => simp [State.solicit, htrains, hopen, hat]
  | some at_ => simp [State.solicit, htrains, hopen, hat, hdue at_ hat]

theorem State.trainingTimeout_not (h : s.training n = false ∨ s.up < (s.port n).since + 500 * msPs) : s.trainingTimeout n = s := by
  rcases h with h | h <;> simp [State.trainingTimeout, h]

theorem State.trainingTimeout_due (htrains : s.training n = true) (hdue : (s.port n).since + 500 * msPs ≤ s.up) :
    s.trainingTimeout n = (s.bump (portIdx n) 0xC 1).modPort n (fun p => { p with
      link := false, resolved := false, solicitAt := none, since := s.up }) := by
  simp [State.trainingTimeout, htrains, Nat.not_lt.2 hdue]

-- service (R305)

theorem exec_portFlapHold (dt : Nat) (n : Fin 128) (s : State) :
    exec (.portFlapHold dt n) s = .next ((s.elapse dt).flapHold n) := rfl

theorem State.flapHold_not (h : s.unit (portRef n) ≠ .ready ∨ s.up < (s.port n).since + s.val 0x2300 0x14 * msPs) :
    s.flapHold n = s := by
  rcases h with h | h <;> simp [State.flapHold, h]

/-- A port that begins to serve, before its groups are counted. -/
def State.portServes (s : State) (n : Nat) : State := (s.modPort n (fun p => { p with since := s.up })).setUnit (portRef n) .serving

theorem State.flapHold_serves (hready : s.unit (portRef n) = .ready)
    (hheld : (s.port n).since + s.val 0x2300 0x14 * msPs ≤ s.up) :
    s.flapHold n = (s.portServes n).countReroute false ((s.portServes n).inGroups n) := by
  simp [State.flapHold, hready, Nat.not_lt.2 hheld, State.portServes]

theorem State.portServes_twin (s : State) (n : Nat) : (s.portServes n).twin = s.twin :=
  (State.setUnit_keeps (Within.refl _) _ _ (.refl _ (s.modPort n _))).twin_eq (by decide)

theorem State.countReroute_twinPort (s : State) (was is : Bool) (n : Nat) : (s.countReroute was is).twinPort n = s.twinPort n :=
  congrArg (fun x : Twin => decide (120 ≤ n) && x.st != .solo) (s.bump_twin _ _ _)

-- loss (R309)

theorem exec_portLos (dt : Nat) (n : Fin 128) (cause : LosCause) (s : State) :
    exec (.portLos dt n cause) s = .next ((s.elapse dt).portLos n cause) := rfl
theorem exec_portDegraded (dt : Nat) (n : Fin 128) (ber : BitVec 32) (s : State) :
    exec (.portDegraded dt n ber) s = .next ((s.elapse dt).portDegraded n ber.toNat) := rfl
theorem exec_localOrRemoteFault (dt : Nat) (n : Fin 128) (s : State) :
    exec (.localOrRemoteFault dt n) s =
      .next (if (s.elapse dt).portWorks n then (s.elapse dt).portOut n .fenced else s.elapse dt) := rfl
theorem exec_portLightReturn (dt : Nat) (n : Fin 128) (s : State) :
    exec (.portLightReturn dt n) s = .next (if (s.elapse dt).unit (portRef n) = .fenced && (s.elapse dt).fabricLight n then
      (s.elapse dt).portStart n else s.elapse dt) := rfl

theorem State.portWorks_eq (s : State) (n : Nat) : s.portWorks n = (s.unit (portRef n)).works := rfl

theorem State.losOn_idle (h : (s.unit (portRef n)).works = false) : s.losOn n = s := by
  simp [State.losOn, State.portWorks_eq, h]

theorem State.losOn_lost (h : (s.unit (portRef n)).works = true) :
    s.losOn n = ((s.bump (portIdx n) 0xB 1).raise 0x0401 (portRef n) 0).portOut n .fenced := by
  simp [State.losOn, State.portWorks_eq, h]

theorem State.portLos_idle (cause : LosCause) (h : (s.unit (portRef n)).works = false) : s.portLos n cause = s := by
  cases cause with
  | rxPower d => exact (ite_congr rfl (fun _ => State.losOn_idle h) (fun _ => rfl)).trans (ite_self s)
  | fecAlignment => exact State.losOn_idle h

theorem State.portLos_faint {cause : LosCause} (h : ∀ d : Int, cause = .rxPower d → d < -1000) : s.portLos n cause = s.losOn n := by
  cases cause with
  | rxPower d => exact if_pos (h d rfl)
  | fecAlignment => rfl

theorem State.portDegraded_idle (ber : Nat) (h : (s.unit (portRef n)).works = false) : s.portDegraded n ber = s := by
  simp [State.portDegraded, State.portWorks_eq, h]

theorem State.portDegraded_within {ber : Nat} (h : ber ≤ 1000 * s.val 0x2300 0x15) : s.portDegraded n ber = s := by
  simp [State.portDegraded, h]

theorem State.portDegraded_out {ber : Nat} (hworks : (s.unit (portRef n)).works = true) (h : 1000 * s.val 0x2300 0x15 < ber) :
    s.portDegraded n ber = ((s.setVal (portIdx n) 8 ber).raise 0x0402 (portRef n) ber).portOut n .fenced := by
  simp [State.portDegraded, State.portWorks_eq, hworks, Nat.not_le.2 h]

/-- What a port that is fenced shows. -/
theorem State.portOut_fenced (s : State) (n : Nat) : (s.portOut n .fenced).unit (portRef n) = .fenced ∧
    ((s.portOut n .fenced).port n).egress = [] ∧ ((s.portOut n .fenced).port n).paused = [] ∧
    ((s.portOut n .fenced).port n).pausing = [] ∧ (s.portOut n .fenced).inGroups n = false := by
  have hunit : (s.portOut n .fenced).unit (portRef n) = .fenced := by rw [State.portOut_unit, if_pos rfl]
  rw [State.portOut_port]
  exact ⟨hunit, rfl, rfl, rfl, State.inGroups_notServing (by rw [hunit]; decide)⟩

/-- Each of the three losses counts or raises what it does, and fences the port. -/
theorem exec_portLosses {dt : Nat} {n : Fin 128} {cause : LosCause} {ber : BitVec 32} {s b : State} (hb : b = s.elapse dt)
    (hworks : (b.unit (portRef n)).works = true) {c : Instr}
    (hc : c ∈ [Instr.portLos dt n cause, .portDegraded dt n ber, .localOrRemoteFault dt n])
    (hlos : c = .portLos dt n cause → ∀ d : Int, cause = .rxPower d → d < -1000)
    (hber : c = .portDegraded dt n ber → 1000 * b.val 0x2300 0x15 < ber.toNat) :
    ∃ m : State, exec c s = .next (m.portOut n .fenced) ∧ m.units = b.units ∧
      (c = .portLos dt n cause → m.val (portIdx n) 0xB = wrapAdd 8 (b.val (portIdx n) 0xB) 1) := by
  simp only [List.mem_cons, List.not_mem_nil, or_false] at hc
  rcases hc with rfl | rfl | rfl
  · refine ⟨(b.bump (portIdx n) 0xB 1).raise 0x0401 (portRef n) 0, ?_, ?_, fun _ => ?_⟩
    · rw [exec_portLos, ← hb, State.portLos_faint (hlos rfl), State.losOn_lost hworks]
    · rw [State.raise_units, State.bump_units]
    · rw [State.raise_val _ _ _ _ _ _ (by unfold quiet odKey portIdx; omega),
        State.bump_counts (odRow_portCounters n 0xB (by decide)) b one_ne_zero]
  · refine ⟨(b.setVal (portIdx n) 8 ber.toNat).raise 0x0402 (portRef n) ber.toNat, ?_, ?_, nofun⟩
    · rw [exec_portDegraded, ← hb, State.portDegraded_out hworks (hber rfl)]
    · rw [State.raise_units, State.setVal_units]
  · refine ⟨b, ?_, rfl, nofun⟩
    rw [exec_localOrRemoteFault, ← hb, if_pos (by rw [State.portWorks_eq, hworks])]

theorem State.portStart_effect (s : State) (n : Nat) : (s.portStart n).unit (portRef n) = .starting ∧
    ((s.portStart n).port n).link = false ∧ ((s.portStart n).port n).since = s.up := by
  unfold State.portStart
  rw [State.putUnit_unit, if_pos rfl, State.putUnit_port, State.modPort_port, if_pos rfl]
  exact ⟨rfl, rfl, rfl⟩

end

/-- Settles O41, one case for each of its clauses. That a command whose event cannot occur leaves the state is the model's choice
(log entry 2). -/
theorem portsTrainServeAndLose : Obligations.PortsTrainServeAndLose := by
  refine ⟨?drain, ?link, ?solicit, ?answer, ?timeout, ?hold, ?loss, ?light⟩
  case drain =>
    rintro s b dt n hb
    rw [exec_portEgressDrainEnd, ← hb]
    refine ⟨fun hwaits => by rw [State.egressDrainEnd_waits hwaits], fun ⟨cmd, st⟩ hk hcmd hends => ?_⟩
    have hst : cmd ≠ 0 ∧ st.works = false :=
      (by decide : ∀ k ∈ drainStates, k.1 ≠ 0 ∧ k.2.works = false) (cmd, st) hk
    obtain ⟨hunit, hport, hval⟩ := State.portDrained_out (s := b) (n := n) hk
    rw [State.egressDrainEnd_ends (by rw [hcmd]; exact hst.1) hends, hcmd]
    refine ⟨_, rfl, ?_, ?_, ?_, fun r hr => ?_, fun hqueued => ?_⟩
    · rw [hunit, State.portOut_unit, if_pos rfl]
    · rw [hport, State.portOut_port]; rfl
    · rw [hport, State.portOut_port]; rfl
    · rw [hunit, State.portOut_unit, if_neg hr]
    · rw [hval, State.portOut_drops n hst.2 hqueued.ne']
  case link =>
    rintro s b dt n speed hb
    rw [exec_portLinkUp, ← hb]
    refine ⟨fun hnot => by rw [State.linkUp_not hnot], fun htrains hspeed => ?_⟩
    rw [State.linkUp_links htrains hspeed]
    obtain ⟨hunit, at_, hport⟩ :=
      State.portUp_effect (s := b.modPort n (fun p => { p with link := true, speed := speed + 1 })) htrains
    rw [State.modPort_port, if_pos rfl] at hunit hport
    exact ⟨_, rfl, by rw [hport], by rw [hport], hunit⟩
  case solicit =>
    rintro s b dt n hb
    rw [exec_neighbourSolicit, ← hb]
    refine ⟨fun hnot => by rw [State.solicit_waits hnot], fun htrains hopen hdue => ?_⟩
    rw [State.solicit_sends htrains hopen hdue]
    refine ⟨_, _, rfl, rfl, by simp, ?_⟩
    rw [State.emit_port, State.modPort_port, if_pos rfl]
  case answer =>
    rintro s b dt n mac hb
    rw [exec_neighbourAnswer, ← hb]
    refine ⟨fun hnot => by rw [State.neighbourIs_not hnot], fun htrains hopen => ?_⟩
    rw [State.neighbourIs_resolves mac.toNat htrains hopen]
    obtain ⟨hunit, at_, hport⟩ :=
      State.portUp_effect (s := b.modPort n (fun p => { p with resolved := true, neighbour := mac.toNat })) htrains
    rw [State.modPort_port, if_pos rfl, Bool.and_true] at hunit
    rw [State.modPort_port, if_pos rfl] at hport
    exact ⟨_, rfl, by rw [hport], by rw [hport], hunit⟩
  case timeout =>
    rintro s b dt n hb
    rw [exec_portTrainingTimeout, ← hb]
    refine ⟨fun hnot => by rw [State.trainingTimeout_not hnot], fun htrains hdue => ?_⟩
    rw [State.trainingTimeout_due htrains hdue]
    refine ⟨_, rfl, by rw [State.modPort_units, State.bump_units], ?_, ?_, ?_,
      State.bump_counts (odRow_portCounters n 0xC (by decide)) b one_ne_zero⟩ <;>
      rw [State.modPort_port, if_pos rfl]
  case hold =>
    rintro s b dt n hb
    rw [exec_portFlapHold, ← hb]
    refine ⟨fun hnot => by rw [State.flapHold_not hnot], fun hready hheld => ?_⟩
    have hunit : (b.portServes n).unit (portRef n) = .serving := by rw [State.portServes, State.setUnit_unit, if_pos rfl]
    have hport : ((b.portServes n).port n).draining = (b.port n).draining := by
      rw [State.portServes, State.setUnit_port, State.modPort_port, if_pos rfl]
    have htwin : (b.portServes n).twinPort n = b.twinPort n := by
      rw [State.twinPort, State.portServes_twin]; rfl
    rw [State.flapHold_serves hready hheld]
    refine ⟨_, rfl, by rw [State.countReroute_unit, hunit], ?_⟩
    simp [State.inGroups, State.countReroute_unit, State.countReroute_port, State.countReroute_twinPort, hunit, hport, htwin]
  case loss =>
    rintro s b dt n cause ber hb
    refine ⟨fun hidle => ?_, fun d hcause hfaint => ?_, fun hber => ?_, fun hworks c hc hlos hber => ?_⟩
    · rw [exec_portLos, exec_portDegraded, exec_localOrRemoteFault, ← hb, State.portLos_idle cause hidle,
        State.portDegraded_idle _ hidle, if_neg (by simp [State.portWorks_eq, hidle])]
      exact ⟨rfl, rfl, rfl⟩
    · rw [exec_portLos, ← hb, hcause]
      exact congrArg _ (if_neg (by omega))
    · rw [exec_portDegraded, ← hb, State.portDegraded_within hber]
    · obtain ⟨m, hexec, hunits, hcounts⟩ := exec_portLosses hb hworks hc hlos hber
      obtain ⟨hunit, hegress, hpaused, hpausing, hgroups⟩ := m.portOut_fenced n
      refine ⟨_, hexec, hunit, hegress, hpaused, hpausing, hgroups, fun r hr => ?_, fun hc => ?_⟩
      · rw [State.portOut_unit, if_neg hr, State.unit, hunits]; rfl
      · rw [← hcounts hc]
        exact State.portOut_val rfl (by simp [odKey]) (by simp [odKey, portIdx]; omega)
  case light =>
    rintro s b dt n hb
    rw [exec_portLightReturn, ← hb]
    refine ⟨fun hfenced hlight => ?_, fun hnot => ?_⟩
    · rw [if_pos (by simp [hfenced, hlight])]
      exact ⟨_, rfl, b.portStart_effect n⟩
    · rw [if_neg]
      rcases hnot with h | h <;> simp [h]

end Sys2Proof.Machine
end

section
/-! States that meet the hypotheses of O41. -/

namespace Sys2Proof.Machine

/-- Port 3 in state `st`, held as `p` says, 500 ms after power came. -/
def portIn (st : UnitSt) (p : Port) : State := { State.reset with
  clock := { now := 500000000000, up := 500000000000 }
  units := tmod State.reset.units (portRef 3) (fun x => { x with st := st })
  ports := tset State.reset.ports 3 p }

/-- A drain for DISABLE ends 100 µs after it began, and the frame still queued is counted as dropped. -/
theorem witness_drainEnds : ∃ t, exec (.portEgressDrainEnd 0 3)
      (portIn .serving { draining := 2, drainAt := 499900000000, egress := [(5, [default])] }) = .next t ∧
    t.unit (portRef 3) = .offline ∧ t.val (portIdx 3) 0x12 = 1 := by
  obtain ⟨hdrain, -⟩ := portsTrainServeAndLose
  obtain ⟨-, hends⟩ := hdrain (portIn .serving { draining := 2, drainAt := 499900000000, egress := [(5, [default])] }) _ 0 3 rfl
  obtain ⟨t, ht, hunit, -, -, -, hdrops⟩ := hends (2, .offline) (by decide) (by decide) (.inr (by decide))
  exact ⟨t, ht, hunit, (hdrops (by decide)).trans (by decide +kernel)⟩

/-- A training port with a neighbour is READY once it has link; one without starts again after 500 ms. -/
theorem witness_trains :
    (∃ t, exec (.portLinkUp 0 3 1) (portIn .starting { resolved := true }) = .next t ∧ t.unit (portRef 3) = .ready) ∧
    ∃ t, exec (.portTrainingTimeout 0 3) (portIn .starting { link := true }) = .next t ∧ (t.port 3).link = false := by
  obtain ⟨-, hlink, -, -, htimeout, -⟩ := portsTrainServeAndLose
  obtain ⟨-, hlinks⟩ := hlink (portIn .starting { resolved := true }) _ 0 3 1 rfl
  obtain ⟨t, ht, -, -, hready⟩ := hlinks (by decide) (.inl (by decide +kernel))
  obtain ⟨-, hends⟩ := htimeout (portIn .starting { link := true }) _ 0 3 rfl
  obtain ⟨u, hu, -, hdown, -⟩ := hends (by decide) (by decide)
  exact ⟨⟨t, ht, hready.trans (by decide)⟩, u, hu, hdown⟩

/-- A SERVING port is fenced at -10.01 dBm, and goes on at -10.00 dBm. -/
theorem witness_los : (∃ t, exec (.portLos 0 3 (.rxPower (-1001))) (portIn .serving {}) = .next t ∧ t.unit (portRef 3) = .fenced) ∧
    exec (.portLos 0 3 (.rxPower (-1000))) (portIn .serving {}) = .next ((portIn .serving {}).elapse 0) := by
  obtain ⟨-, -, -, -, -, -, hloss, -⟩ := portsTrainServeAndLose
  obtain ⟨-, -, -, hlost⟩ := hloss (portIn .serving {}) _ 0 3 (.rxPower (-1001)) 0 rfl
  obtain ⟨t, ht, hfenced, -⟩ := hlost (by decide) _ List.mem_cons_self (fun _ d hd => by cases hd; decide) nofun
  obtain ⟨-, hfaint, -⟩ := hloss (portIn .serving {}) _ 0 3 (.rxPower (-1000)) 0 rfl
  exact ⟨⟨t, ht, hfenced⟩, hfaint (-1000) rfl (by decide)⟩

end Sys2Proof.Machine
end

section
/-! The switch (R304, R305, R311, R312, R314 to R317): the statement O42. -/

namespace Sys2Proof.Machine

-- reception (R304, R311 to R313)

theorem exec_packetReceived (dt : Nat) (n : Fin 128) (p : Packet) (s : State) :
    exec (.packetReceived dt n p) s = .next ((s.elapse dt).packetIn n p) := rfl

/-- A frame that a port takes in is counted with its bytes (R325). -/
def State.countFrame (s : State) (n : Nat) (p : Packet) : State := (s.bump (portIdx n) 0xE 1).bump (portIdx n) 0x10 p.bytes

/-- A frame with a bad check sequence, oversize or tagged. -/
def State.badFrame (s : State) (p : Packet) : Prop := p.fcsOk = false ∨ s.val 0x2300 0xA < p.bytes ∨ p.tag = .other

section
variable {s : State} {n : Nat} {p : Packet}

theorem State.packetIn_fenced (h : s.unit (portRef n) = .fenced) : s.packetIn n p = s.bump (portIdx n) 0x13 1 := if_pos h

theorem State.packetIn_out (hfenced : s.unit (portRef n) ≠ .fenced) (h : (s.unit (portRef n)).works = false) :
    s.packetIn n p = s := by
  unfold State.packetIn
  rw [if_neg hfenced, if_pos (by simp [State.portWorks_eq, h])]

theorem UnitSt.works_ne_fenced {u : UnitSt} (h : u.works = true) : u ≠ .fenced := by
  rintro rfl
  exact absurd h (by decide)

theorem State.packetIn_bad (hworks : (s.unit (portRef n)).works = true) (hbad : s.badFrame p) :
    s.packetIn n p = s.bump (portIdx n) 0x13 1 := by
  unfold State.packetIn
  rw [if_neg (UnitSt.works_ne_fenced hworks), if_neg (by simp [State.portWorks_eq, hworks]), if_pos]
  rcases hbad with h | h | h <;> simp [h]

/-- What a good frame does goes by its kind; these two kinds are the ones O42 speaks of. -/
theorem State.packetIn_good (hworks : (s.unit (portRef n)).works = true) (hgood : ¬s.badFrame p) :
    (p.kind = .pause → s.packetIn n p = (s.countFrame n p).modPort n (fun x => { x with plainPauses := x.plainPauses + 1 })) ∧
    (p.kind = .ipv4 → s.packetIn n p = if (s.countFrame n p).twinPort n || p.multicast then s.countFrame n p
      else (s.countFrame n p).forward n p) := by
  have hpasses : ¬(!p.fcsOk || decide (s.val 0x2300 0xA < p.bytes) || decide (p.tag = .other)) = true := by
    simpa [State.badFrame, and_assoc] using hgood
  unfold State.packetIn
  rw [if_neg (UnitSt.works_ne_fenced hworks), if_neg (by simp [State.portWorks_eq, hworks]), if_neg hpasses]
  exact ⟨fun hkind => by rw [hkind]; rfl, fun hkind => by rw [hkind]; rfl⟩

theorem State.forward_home
    (h : s.isOwn p.dst.toNat = true ∨ ∃ r, s.route p.dst.toNat = some r ∧ r.local_ = true) : s.forward n p = s.deliver_ p := by
  refine if_pos ?_
  rcases h with h | ⟨r, hroute, h⟩
  · simp [h]
  · simp [hroute, h]

/-- Where a packet goes that has an egress port, and what becomes of one that has none. -/
def State.onward (s : State) (n : Nat) (p : Packet) : Option Nat → State
  | none => s.bump 0x2300 0x1A 1
  | some out =>
    if (s.admitBytes n (s.classOf p) p.bytes).2 then
      (s.admitBytes n (s.classOf p) p.bytes).1.queueFrame out (s.classOf p)
        { pkt := { p with ttl := p.ttl - 1 }, from_ := some (n, s.classOf p) }
    else (s.admitBytes n (s.classOf p) p.bytes).1

/-- The slot of a packet's flow (R312). -/
def flowOf (p : Packet) : Nat := flowSlot p.src.toNat p.dst.toNat p.proto.toNat p.sport.toNat p.dport.toNat

/-- A packet that is not for the endpoint is dropped at the end of its life, and else goes by its route. -/
theorem State.forward_onward (hown : s.isOwn p.dst.toNat = false)
    (haway : ∀ r, s.route p.dst.toNat = some r → r.local_ = false) :
    s.forward n p = if p.ttl.toNat ≤ 1 then s.bump 0x2300 0x1A 1
      else s.onward n p ((s.route p.dst.toNat).bind (fun r => s.egressOf r (flowOf p))) := by
  have hnot : ∀ t : State, (if (s.isOwn p.dst.toNat || (match s.route p.dst.toNat with
      | some r => r.local_
      | none => false)) = true then s.deliver_ p else t) = t := by
    intro t
    refine if_neg ?_
    cases hroute : s.route p.dst.toNat with
    | none => simp [hown]
    | some r => simp [hown, haway r hroute]
  refine (hnot _).trans (if_congr Iff.rfl rfl ?_)
  show _ = s.onward n p ((s.route p.dst.toNat).bind (fun r => s.egressOf r (flowOf p)))
  unfold State.onward flowOf
  cases (s.route p.dst.toNat).bind _ <;> rfl

theorem State.forward_expired (hown : s.isOwn p.dst.toNat = false)
    (haway : ∀ r, s.route p.dst.toNat = some r → r.local_ = false) (h : p.ttl.toNat ≤ 1 ∨ s.route p.dst.toNat = none) :
    s.forward n p = s.bump 0x2300 0x1A 1 := by
  rw [State.forward_onward hown haway]
  rcases h with h | h
  · rw [if_pos h]
  · rw [h, Option.bind_none]
    exact ite_self _

theorem State.forward_routed {r : Route} (hown : s.isOwn p.dst.toNat = false)
    (haway : ∀ r, s.route p.dst.toNat = some r → r.local_ = false) (hlives : 1 < p.ttl.toNat)
    (hroute : s.route p.dst.toNat = some r) : s.forward n p = s.onward n p (s.egressOf r (flowOf p)) := by
  rw [State.forward_onward hown haway, if_neg (Nat.not_le.2 hlives), hroute, Option.bind_some]

end

-- the buffer (R315, R316)

theorem State.sendPause_out (s : State) (n cls quanta : Nat) : (s.sendPause n cls quanta).out = s.out ++ [.pause n cls quanta] := by
  unfold State.sendPause
  rw [State.emit_out, State.bump_out]

theorem State.sendPause_port (s : State) (n cls quanta m : Nat) : (s.sendPause n cls quanta).port m = s.port m := by
  unfold State.sendPause
  rw [State.emit_port, State.bump_port]

theorem State.hold_out (s : State) (n cls k : Nat) (head : Bool) : (s.hold n cls k head).out = s.out := by
  unfold State.hold
  rw [State.raiseTo_out, State.modPort_out]

section
variable {s : State} {n cls k : Nat}

theorem State.admitBytes_lossless (hlossless : s.lossless cls = true) (hopen : cls ∉ (s.port n).pausing) :
    s.admitBytes n cls k = if (s.hold n cls k false).sharedLimit < (s.hold n cls k false).sharedBy n cls then
      (((s.hold n cls k false).modPort n (fun p => { p with pausing := p.pausing ++ [cls] })).sendPause n cls 0xFFFF, true)
      else (s.hold n cls k false, true) := by
  unfold State.admitBytes
  rw [if_pos hlossless, if_neg hopen]

theorem State.admitBytes_headroom (hlossless : s.lossless cls = true) (hpauses : cls ∈ (s.port n).pausing) :
    s.admitBytes n cls k = if tget (s.port n).headroom cls + k ≤ s.headroomAt n then (s.hold n cls k true, true)
      else ((s.bump 0x2300 0x1C 1).raise 0x0403 (portRef n) cls, false) := by
  unfold State.admitBytes
  rw [if_pos hlossless, if_pos hpauses]

theorem State.admitBytes_lossy (hlossy : s.lossless cls = false) :
    s.admitBytes n cls k = if (s.hold n cls k false).sharedLimit < (s.hold n cls k false).sharedBy n cls then
      (s.bump (portIdx n) 0x12 1, false) else (s.hold n cls k false, true) := by
  unfold State.admitBytes
  rw [if_neg (by simp [hlossy])]

end

-- queues

theorem tfind_append_last {α : Type} {t : Tbl α} {i : Nat} {a : α} (h : tfind t i = none) : tfind (t ++ [(i, a)]) i = some a := by
  induction t with
  | nil => simp [tfind]
  | cons x t ih =>
    simp only [List.cons_append, tfind] at h ⊢
    split at h
    · exact absurd h (by simp)
    next hx => rw [if_neg hx, ih h]

theorem Port.queueOf_setQueue (p : Port) (cls : Nat) (q : List Queued) : (p.setQueue cls q).queueOf cls = q := by
  have hnone : tfind (p.egress.filter (fun x => x.1 != cls)) cls = none := by
    rw [List.filter_congr (q := fun x => decide (x.1 ≠ cls)) fun x _ => Bool.eq_iff_iff.2 (by simp), tfind_filter, if_pos rfl]
  unfold Port.queueOf Port.setQueue
  cases q with
  | nil => simp [hnone]
  | cons x q => simp [tfind_append_last hnone]

/-- Bytes given back leave every egress queue, pause received and storm as it was. -/
theorem State.releaseBytes_port (s : State) (n cls k m : Nat) : ∃ ingress headroom pausing,
    (s.releaseBytes n cls k).port m = { s.port m with ingress := ingress, headroom := headroom, pausing := pausing } := by
  unfold State.releaseBytes
  extract_lets freed
  have hfreed : ∃ ingress headroom, freed.port m = { s.port m with ingress := ingress, headroom := headroom } := by
    unfold freed
    rw [State.modPort_port]
    split
    next h => exact h ▸ ⟨_, _, rfl⟩
    next => exact ⟨_, _, rfl⟩
  obtain ⟨ingress, headroom, hport⟩ := hfreed
  split
  · rw [State.sendPause_port, State.modPort_port]
    split
    next h => rw [← h, hport]; exact ⟨_, _, _, rfl⟩
    next => rw [hport]; exact ⟨_, _, _, rfl⟩
  · rw [hport]
    exact ⟨_, _, _, rfl⟩

theorem State.releaseBytes_out (s : State) (n cls k : Nat) : ∃ l, (s.releaseBytes n cls k).out = s.out ++ l := by
  unfold State.releaseBytes
  extract_lets freed
  split
  · exact ⟨[.pause n cls 0], State.sendPause_out _ _ _ _⟩
  · exact ⟨[], (List.append_nil _).symm⟩

theorem State.releaseBytes_val {x y : Nat} (h : y < 256) (hy : y ≠ 0x14) (s : State) (n cls k : Nat) :
    (s.releaseBytes n cls k).val x y = s.val x y := by
  unfold State.releaseBytes
  extract_lets freed
  split
  · exact State.bump_val_other _ _ _ _ _ _ (fun heq => hy ((odKey_inj (by decide) h).1 heq).2)
  · rfl

-- egress (R314, R317)

theorem exec_packetEgress (dt : Nat) (n : Fin 128) (draw : BitVec 16) (s : State) :
    exec (.packetEgress dt n draw) s = .next ((s.elapse dt).packetOut n draw.toNat) := rfl

/-- The packet that leaves a queue of a depth. -/
def State.leaving (s : State) (cls draw depth : Nat) (p : Packet) : Packet :=
  if bitOf (s.val 0x2300 8) cls && (p.ecn.toNat = 1 || p.ecn.toNat = 2) && draw < s.markChance depth then { p with ecn := 3 } else p

section
variable {s : State} {n draw : Nat}

theorem State.packetOut_idle (h : (s.unit (portRef n)).works = false ∨ s.nextClass n = none) : s.packetOut n draw = s := by
  unfold State.packetOut
  rcases h with h | h
  · rw [if_pos (by simp [State.portWorks_eq, h])]
  · rw [h]
    exact ite_self s

theorem State.marked_leaving (s : State) (n cls draw depth : Nat) (p : Packet) :
    (s.marked n cls draw depth p).2 = s.leaving cls draw depth p ∧ (s.marked n cls draw depth p).1.out = s.out ∧
      (s.marked n cls draw depth p).1.ports = s.ports := by
  unfold State.marked State.leaving
  split
  · exact ⟨rfl, s.bump_out _ _ _, s.bump_ports _ _ _⟩
  · exact ⟨rfl, rfl, rfl⟩

/-- The oldest frame of the class served goes out, and what it held of a buffer comes free. -/
theorem State.packetOut_serves {cls turn : Nat} {d : Tbl Nat} {q : Queued} {rest : List Queued}
    (hworks : (s.unit (portRef n)).works = true) (hnext : s.nextClass n = some (cls, d, turn))
    (hqueue : (s.port n).queueOf cls = q :: rest) :
    ∃ l, (s.packetOut n draw).out = s.out ++ .frame n (s.leaving cls draw (queueBytes (q :: rest)) q.pkt) :: l ∧
      ((s.packetOut n draw).port n).queueOf cls = rest := by
  unfold State.packetOut
  rw [if_neg (by simp [State.portWorks_eq, hworks]), hnext]
  dsimp only
  rw [hqueue]
  dsimp only
  generalize hm : s.modPort n (fun p => { p.setQueue cls rest with deficits := d, turn := turn }) = m
  obtain ⟨hpacket, hout, hports⟩ := m.marked_leaving n cls draw (queueBytes (q :: rest)) q.pkt
  generalize m.marked n cls draw (queueBytes (q :: rest)) q.pkt = x at hpacket hout hports
  have hleaving : m.leaving cls draw (queueBytes (q :: rest)) q.pkt = s.leaving cls draw (queueBytes (q :: rest)) q.pkt := by
    rw [← hm]; rfl
  generalize hsent : ((x.1.emit (.frame n x.2)).bump (portIdx n) 0xF 1).bump (portIdx n) 0x11 q.pkt.bytes = sent
  have hsentOut : sent.out = s.out ++ [.frame n (s.leaving cls draw (queueBytes (q :: rest)) q.pkt)] := by
    rw [← hsent, State.bump_out, State.bump_out, State.emit_out, hout, hpacket, hleaving, ← hm, State.modPort_out]
  have hsentQueue : (sent.port n).queueOf cls = rest := by
    have hport : sent.port n = m.port n := by
      rw [← hsent, State.bump_port, State.bump_port, State.emit_port, State.port, hports]; rfl
    rw [hport, ← hm, State.modPort_port, if_pos rfl]
    exact Port.queueOf_setQueue _ _ _
  cases q.from_ with
  | none => exact ⟨[], hsentOut, hsentQueue⟩
  | some f =>
    obtain ⟨l, hl⟩ := sent.releaseBytes_out f.1 f.2 q.pkt.bytes
    obtain ⟨ingress, headroom, pausing, hport⟩ := sent.releaseBytes_port f.1 f.2 q.pkt.bytes n
    refine ⟨l, ?_, ?_⟩
    · show (sent.releaseBytes f.1 f.2 q.pkt.bytes).out = _
      rw [hl, hsentOut, List.append_assoc, List.singleton_append]
    · show ((sent.releaseBytes f.1 f.2 q.pkt.bytes).port n).queueOf cls = rest
      rw [hport]
      exact hsentQueue

end

theorem ecn_toNat (e : BitVec 2) : (e.toNat = 1 ↔ e = 1) ∧ (e.toNat = 2 ↔ e = 2) := by
  revert e
  decide

theorem State.leaving_marked {s : State} {cls draw depth : Nat} {p : Packet} (hmarks : bitOf (s.val 0x2300 8) cls = true)
    (hecn : p.ecn = 1 ∨ p.ecn = 2) (hdraw : draw < s.markChance depth) : s.leaving cls draw depth p = { p with ecn := 3 } := by
  rw [← (ecn_toNat p.ecn).1, ← (ecn_toNat p.ecn).2] at hecn
  refine if_pos ?_
  simp [hmarks, hecn, hdraw]

theorem State.leaving_plain {s : State} {cls draw depth : Nat} {p : Packet} (h : bitOf (s.val 0x2300 8) cls = false ∨
    (p.ecn ≠ 1 ∧ p.ecn ≠ 2) ∨ s.markChance depth ≤ draw) : s.leaving cls draw depth p = p := by
  rw [Ne, Ne, ← (ecn_toNat p.ecn).1, ← (ecn_toNat p.ecn).2] at h
  refine if_neg ?_
  rcases h with h | ⟨h1, h2⟩ | h
  · simp [h]
  · simp [h1, h2]
  · simp [Nat.not_lt.2 h]

theorem State.nextClass_highest {s : State} {n : Nat} (h : s.mayServe n 7 = true) :
    s.nextClass n = some (7, (s.port n).deficits, (s.port n).turn) := if_pos h

theorem State.nextClass_second {s : State} {n : Nat} (hnot : s.mayServe n 7 = false) (h : s.mayServe n 6 = true) :
    s.nextClass n = some (6, (s.port n).deficits, (s.port n).turn) := by
  unfold State.nextClass
  rw [if_neg (by simp [hnot]), if_pos h]

/-- No mark up to the lower threshold, every packet from the upper on, and a share between them (R317). -/
theorem State.markChance_ramp (s : State) (depth : Nat) :
    (depth ≤ s.val 0x2300 0xC * 1024 → s.markChance depth = 0) ∧
    (s.val 0x2300 0xC * 1024 < depth → s.val 0x2300 0xD * 1024 ≤ depth → s.markChance depth = 65536) ∧
    (s.val 0x2300 0xC * 1024 < depth → depth < s.val 0x2300 0xD * 1024 → s.markChance depth =
      s.val 0x2300 0xE * (depth - s.val 0x2300 0xC * 1024) * 65536 /
        (1000 * (s.val 0x2300 0xD * 1024 - s.val 0x2300 0xC * 1024))) := by
  unfold State.markChance
  refine ⟨fun hlow => if_pos hlow, fun hlow hhigh => ?_, fun hlow hhigh => ?_⟩
  · rw [if_neg (Nat.not_le.2 hlow), if_pos hhigh]
  · rw [if_neg (Nat.not_le.2 hlow), if_neg (Nat.not_le.2 hhigh)]

-- pauses and the watchdog (R316)

theorem exec_pfcPauseRefresh (dt : Nat) (n : Fin 128) (cls : Fin 8) (s : State) : exec (.pfcPauseRefresh dt n cls) s =
    .next (if (s.elapse dt).portWorks n && cls.val ∈ ((s.elapse dt).port n).pausing then (s.elapse dt).sendPause n cls 0xFFFF
      else s.elapse dt) := rfl
theorem exec_pfcPauseReceived (dt : Nat) (n : Fin 128) (cls : Fin 8) (quanta : BitVec 16) (s : State) :
    exec (.pfcPauseReceived dt n cls quanta) s = .next ((s.elapse dt).pauseIn n cls quanta.toNat) := rfl
theorem exec_pfcPauseExpiry (dt : Nat) (n : Fin 128) (cls : Fin 8) (s : State) : exec (.pfcPauseExpiry dt n cls) s =
    .next ((s.elapse dt).modPort n (fun p => { p with
      paused := p.paused.filter (fun x => !(x.1 = cls.val && x.2.1 ≤ (s.elapse dt).up)) })) := rfl
theorem exec_pfcWatchdogRecover (dt : Nat) (n : Fin 128) (cls : Fin 8) (s : State) : exec (.pfcWatchdogRecover dt n cls) s =
    .next ((s.elapse dt).modPort n (fun p => { p with
      storm := p.storm.filter (fun x => !(x.1 = cls.val && x.2 + (s.elapse dt).watchdogPs ≤ (s.elapse dt).up)) })) := rfl
theorem exec_pfcStorm (dt : Nat) (n : Fin 128) (cls : Fin 8) (s : State) :
    exec (.pfcStorm dt n cls) s = .next ((s.elapse dt).pfcStorm n cls) := rfl

section
variable {s : State} {n cls quanta : Nat}

theorem State.pauseIn_out (h : (s.unit (portRef n)).works = false) : s.pauseIn n cls quanta = s :=
  if_pos (by simp [State.portWorks_eq, h])

/-- Since when a class has been paused without a break. -/
def State.pausedSince (s : State) (n cls : Nat) : Nat :=
  match (s.port n).paused.find? (fun x => x.1 = cls && s.up ≤ x.2.1) with
  | some x => x.2.2
  | none => s.up

theorem State.bump_lossless (s : State) (n cls : Nat) : (s.bump (portIdx n) 0x15 1).lossless cls = s.lossless cls := by
  unfold State.lossless
  rw [State.bump_val_other _ _ _ _ _ _ (by unfold odKey; omega)]

theorem State.pauseIn_counts (hworks : (s.unit (portRef n)).works = true) (hlossless : s.lossless cls = true) :
    s.pauseIn n cls quanta = if (s.port n).storm.any (fun x => x.1 = cls) then
      (s.bump (portIdx n) 0x15 1).modPort n (fun p => { p with
        storm := p.storm.map (fun x => if x.1 = cls then (cls, (s.bump (portIdx n) 0x15 1).up) else x) })
      else (s.bump (portIdx n) 0x15 1).modPort n (fun p => { p with
        paused := if quanta = 0 then (s.port n).paused.filter (fun x => x.1 != cls)
          else (s.port n).paused.filter (fun x => x.1 != cls) ++ [(cls, s.up + quantaPs quanta p.speed, s.pausedSince n cls)] }) := by
  unfold State.pauseIn
  rw [if_neg (by simp [State.portWorks_eq, hworks])]
  dsimp only
  rw [if_neg (by simp [State.bump_lossless, hlossless]), State.bump_port, State.bump_up]
  rfl

theorem State.pauseIn_lossy (hworks : (s.unit (portRef n)).works = true) (h : s.lossless cls = false) :
    s.pauseIn n cls quanta = s.bump (portIdx n) 0x15 1 := by
  unfold State.pauseIn
  rw [if_neg (by simp [State.portWorks_eq, hworks])]
  dsimp only
  rw [if_pos (by simp [State.bump_lossless, h])]

/-- The watchdog's classes note only that a pause came (R316). -/
theorem State.pauseIn_storm (hworks : (s.unit (portRef n)).works = true) (hlossless : s.lossless cls = true)
    (h : ∃ x ∈ (s.port n).storm, x.1 = cls) :
    ((s.pauseIn n cls quanta).port n).paused = (s.port n).paused ∧
      ∀ x ∈ ((s.pauseIn n cls quanta).port n).storm, x.1 = cls → x.2 = s.up := by
  rw [State.pauseIn_counts hworks hlossless, if_pos (List.any_eq_true.2 (by simpa using h)), State.modPort_port, if_pos rfl,
    State.bump_port]
  refine ⟨rfl, fun x hx hcls => ?_⟩
  obtain ⟨y, -, rfl⟩ := List.mem_map.1 hx
  split at hcls
  next h => rw [if_pos h, State.bump_up]
  next h => exact absurd hcls h

theorem quantaPs_pos {quanta : Nat} (speed : Nat) (h : quanta ≠ 0) : 0 < quantaPs quanta speed := by
  unfold quantaPs
  split <;> omega

/-- A pause counts, and takes the place of the earlier one of its class; quanta 0 ends it. -/
theorem State.pauseIn_pauses (n : Fin 128) (hworks : (s.unit (portRef n)).works = true) (hlossless : s.lossless cls = true)
    (h : ∀ x ∈ (s.port n).storm, x.1 ≠ cls) :
    (s.pauseIn n cls quanta).val (portIdx n) 0x15 = wrapAdd 8 (s.val (portIdx n) 0x15) 1 ∧ (s.pauseIn n cls quanta).up = s.up ∧
      ∃ since, ((s.pauseIn n cls quanta).port n).paused = (s.port n).paused.filter (fun x => x.1 != cls) ++
        (if quanta = 0 then [] else [(cls, s.up + quantaPs quanta (s.port n).speed, since)]) := by
  have hcalm : ¬((s.port n).storm.any (fun x => x.1 = cls)) = true := fun hany => by
    obtain ⟨x, hx, hcls⟩ := List.any_eq_true.1 hany
    exact h x hx (of_decide_eq_true hcls)
  rw [State.pauseIn_counts hworks hlossless, if_neg hcalm]
  refine ⟨?_, ?_, s.pausedSince n cls, ?_⟩
  · rw [State.modPort_val, State.bump_counts (odRow_portCounters n 0x15 (by decide)) s one_ne_zero]
  · rw [State.modPort_up, State.bump_up]
  · rw [State.modPort_port, if_pos rfl, State.bump_port]
    dsimp only
    split
    · rw [List.append_nil]
    · rfl

/-- What a frame held of a port's buffer comes free. -/
def State.freeFrame (s : State) (x : Queued) : State :=
  match x.from_ with
  | some f => s.releaseBytes f.1 f.2 x.pkt.bytes
  | none => s

theorem State.dropQueue_frees (s : State) (n cls : Nat) : s.dropQueue n cls = ((s.port n).queueOf cls).foldl State.freeFrame
    ((s.modPort n (fun p => p.setQueue cls [])).bump (portIdx n) 0x12 ((s.port n).queueOf cls).length) := rfl

theorem State.freeFrame_port (s : State) (x : Queued) (n : Nat) : ∃ ingress headroom pausing,
    (s.freeFrame x).port n = { s.port n with ingress := ingress, headroom := headroom, pausing := pausing } := by
  unfold State.freeFrame
  split
  · exact s.releaseBytes_port _ _ _ n
  · exact ⟨_, _, _, rfl⟩

theorem State.freeFrame_val {x y : Nat} (h : y < 256) (hy : y ≠ 0x14) (s : State) (q : Queued) :
    (s.freeFrame q).val x y = s.val x y := by
  unfold State.freeFrame
  split
  · exact State.releaseBytes_val h hy s _ _ _
  · rfl

/-- A queue is dropped: it is empty, and the pauses and storms of its port stand. -/
theorem State.dropQueue_port (s : State) (n cls : Nat) : ((s.dropQueue n cls).port n).queueOf cls = [] ∧
    ((s.dropQueue n cls).port n).paused = (s.port n).paused ∧ ((s.dropQueue n cls).port n).storm = (s.port n).storm := by
  have hreads : ∀ {α : Type} (read : Port → α),
      (∀ p ingress headroom pausing, read { p with ingress := ingress, headroom := headroom, pausing := pausing } = read p) →
      read ((s.dropQueue n cls).port n) = read ((s.port n).setQueue cls []) := by
    intro α read hread
    rw [State.dropQueue_frees, foldl_reads (fun t : State => read (t.port n)) (fun t x => ?_), State.bump_port,
      State.modPort_port, if_pos rfl]
    obtain ⟨ingress, headroom, pausing, hport⟩ := t.freeFrame_port x n
    rw [hport, hread]
  exact ⟨(hreads (fun p => p.queueOf cls) (fun _ _ _ _ => rfl)).trans (Port.queueOf_setQueue _ _ _),
    hreads Port.paused (fun _ _ _ _ => rfl), hreads Port.storm (fun _ _ _ _ => rfl)⟩

theorem State.dropQueue_val {x y : Nat} (h : y < 256) (hy : y ≠ 0x14 ∧ y ≠ 0x12) (s : State) (n cls : Nat) :
    (s.dropQueue n cls).val x y = s.val x y := by
  rw [State.dropQueue_frees, foldl_reads (fun t : State => t.val x y) (fun t q => t.freeFrame_val h hy.1 q),
    State.bump_val_other _ _ _ _ _ _ (fun heq => hy.2 ((odKey_inj (by decide) h).1 heq).2), State.modPort_val]

theorem State.pfcStorm_none (h : (s.port n).paused.find? (fun x => x.1 = cls) = none) : s.pfcStorm n cls = s := by
  simp [State.pfcStorm, h]

variable {x : Nat × Nat × Nat}

theorem State.pfcStorm_within (hpaused : (s.port n).paused.find? (fun x => x.1 = cls) = some x)
    (h : s.up ≤ x.2.2 + s.watchdogPs ∨ x.2.1 < s.up) : s.pfcStorm n cls = s := by
  rcases h with h | h <;> simp [State.pfcStorm, hpaused, h]

theorem State.pfcStorm_due (hpaused : (s.port n).paused.find? (fun x => x.1 = cls) = some x)
    (hlong : x.2.2 + s.watchdogPs < s.up) (hstill : s.up ≤ x.2.1) :
    ∃ m at_, m = ((s.bump (portIdx n) 0x17 1).raise 0x0404 (portRef n) cls).dropQueue n cls ∧ at_ = s.up ∧
      s.pfcStorm n cls = m.modPort n (fun p => { p with
        paused := p.paused.filter (fun y => y.1 != cls), storm := p.storm ++ [(cls, at_)] }) := by
  have hup : (((s.bump (portIdx n) 0x17 1).raise 0x0404 (portRef n) cls).dropQueue n cls).up = s.up := by
    rw [State.up, (State.dropQueue_keeps (Within.refl _) n cls (.refl _ _)).up]
    exact (State.raise_up _ _ _ _).trans (State.bump_up _ _ _ _)
  refine ⟨_, _, rfl, hup, ?_⟩
  simp [State.pfcStorm, hpaused, Nat.not_le.2 hlong, Nat.not_lt.2 hstill]

end

-- tables (R311, R324)

theorem exec_routeTableWrite (dt : Nat) (road : Road) (data : List Byte) (s : State) : exec (.routeTableWrite dt road data) s =
    .next ((s.elapse dt).writeRow road 0x2300 4 data (State.routeTableAct data)) := rfl
theorem exec_ecmpGroupsWrite (dt : Nat) (road : Road) (data : List Byte) (s : State) : exec (.ecmpGroupsWrite dt road data) s =
    .next ((s.elapse dt).writeRow road 0x2300 5 data (State.ecmpGroupsAct data)) := rfl

section
variable {s : State} {data : List Byte}

/-- Entry `i` of a route table is one that may stand. -/
def State.routeStands (s : State) (data : List Byte) (i : Nat) : Bool :=
  routeOk s.fabric.groupCount ((data.drop (32 * i)).take 32)

theorem State.routeTableAct_replaces (hwhole : data.length % 32 = 0) (hfits : data.length ≤ 131072)
    (h : ∀ i : Nat, i < data.length / 32 → s.routeStands data i = true) :
    State.routeTableAct data s = (0, { s with fabric := { s.fabric with routes := data } }) := by
  unfold State.routeTableAct
  rw [if_neg (by simp [hwhole, hfits])]
  exact if_pos (List.all_eq_true.2 fun i hi => h i (List.mem_range.1 hi))

theorem State.routeTableAct_refused {i : Nat} (hwhole : data.length % 32 = 0) (hfits : data.length ≤ 131072)
    (hi : i < data.length / 32) (h : s.routeStands data i = false) : State.routeTableAct data s = (0x06090030, s) := by
  have hbad : ¬((List.range (data.length / 32)).all (s.routeStands data)) = true := fun hall => by
    rw [List.all_eq_true.1 hall i (List.mem_range.2 hi)] at h
    exact absurd h (by decide)
  unfold State.routeTableAct
  rw [if_neg (by simp [hwhole, hfits])]
  exact if_neg hbad

theorem State.ecmpGroupsAct_replaces (hwhole : data.length % 16 = 0) (hfits : data.length ≤ 4080) :
    State.ecmpGroupsAct data s = (0, { s with fabric := { s.fabric with groups := data, order := [] } }) := by
  unfold State.ecmpGroupsAct
  rw [if_neg (by simp [hwhole, hfits])]
  rfl

end

theorem odRow_portStorms (n : Fin 128) : (odRow (portIdx n) 0x17).map OdRow.bytes = some 4 := by
  revert n
  decide +kernel

/-- Settles O42, one case for each of its clauses. That frames with errors are not among the received ones and lossy frames drop at
ingress is the model's reading (log entry 43), as is the group of a route (log entry 44). -/
theorem switchForwardsAndPauses : Obligations.SwitchForwardsAndPauses := by
  refine ⟨?receive, ?enters, ?egress, ?classes, ?refresh, ?pause, ?expiry, ?storm, ?tables⟩
  case receive =>
    rintro s b m dt n p hb hm
    obtain rfl : m = b.countFrame n p := hm
    rw [exec_packetReceived, ← hb]
    refine ⟨fun h => by rw [State.packetIn_fenced h], fun hf h => by rw [State.packetIn_out hf h], fun hworks =>
      ⟨fun hbad => by rw [State.packetIn_bad hworks hbad], fun hfcs hsize htag => ?_⟩⟩
    have hgood : ¬b.badFrame p := by
      rintro (h | h | h)
      · simp [hfcs] at h
      · omega
      · exact htag h
    obtain ⟨hpause, hip⟩ := State.packetIn_good hworks hgood
    have htwin : (b.countFrame n p).twinPort n = b.twinPort n := by
      unfold State.twinPort State.countFrame
      rw [State.bump_twin, State.bump_twin]
    refine ⟨fun hkind => ?_, fun hkind hstays => ?_, fun hkind hport hsingle => ?_⟩
    · rw [hpause hkind]
      refine ⟨_, rfl, ?_, ?_, ?_⟩
      · rw [State.modPort_port, if_pos rfl, State.countFrame, State.bump_port, State.bump_port]
      · rw [State.modPort_port, if_pos rfl, State.countFrame, State.bump_port, State.bump_port]
      · rw [State.modPort_out, State.countFrame, State.bump_out, State.bump_out]
    · rw [hip hkind, htwin, if_pos (by simpa using hstays)]
    · rw [hip hkind, htwin, if_neg (by simp [hport, hsingle])]
      refine ⟨fun hhome => by rw [State.forward_home hhome], fun hown haway =>
        ⟨fun hends => by rw [State.forward_expired hown haway hends], fun hlives r hroute e he => ?_⟩⟩
      rw [State.forward_routed hown haway hlives hroute, show (b.countFrame n p).egressOf r (flowOf p) = e from he.symm]
      refine ⟨fun hnone => by rw [hnone]; rfl, fun out u ok hsome hadmits => ?_⟩
      rw [hsome, State.onward, hadmits]
  case enters =>
    rintro s h n cls k rfl
    refine ⟨fun hlossless hopen => ?_, fun hlossless hpauses => ?_, fun hlossy => ?_⟩
    · rw [State.admitBytes_lossless hlossless hopen]
      refine ⟨fun hwithin => if_neg (Nat.not_lt.2 hwithin), fun hbeyond => ⟨_, if_pos hbeyond, ?_, ?_⟩⟩
      · rw [State.sendPause_port, State.modPort_port, if_pos rfl]
        exact List.mem_append_right _ List.mem_cons_self
      · rw [State.sendPause_out, State.modPort_out, State.hold_out]
    · rw [State.admitBytes_headroom hlossless hpauses]
      exact ⟨fun hroom => if_pos hroom, fun hfull => if_neg (Nat.not_le.2 hfull)⟩
    · rw [State.admitBytes_lossy hlossy]
      exact ⟨fun hwithin => if_neg (Nat.not_lt.2 hwithin), fun hbeyond => if_pos hbeyond⟩
  case egress =>
    rintro s b dt n draw hb
    rw [exec_packetEgress, ← hb]
    refine ⟨fun hidle => by rw [State.packetOut_idle hidle], fun cls turn d q rest hworks hnext hqueue => ?_⟩
    obtain ⟨l, hout, hrest⟩ := State.packetOut_serves (draw := draw.toNat) hworks hnext hqueue
    exact ⟨_, _, l, rfl, hout, hrest, State.leaving_marked, State.leaving_plain⟩
  case classes =>
    intro s n depth
    obtain ⟨hlow, hhigh, hramp⟩ := s.markChance_ramp depth
    exact ⟨State.nextClass_highest, State.nextClass_second, hlow, hhigh, hramp⟩
  case refresh =>
    rintro s b dt n cls hb
    rw [exec_pfcPauseRefresh, ← hb, State.portWorks_eq]
    refine ⟨fun hworks hpauses => by rw [if_pos (by simp [hworks, hpauses])]; rfl, fun hnot => ?_⟩
    rw [if_neg]
    rcases hnot with h | h <;> simp [h]
  case pause =>
    rintro s b dt n cls quanta hb
    rw [exec_pfcPauseReceived, ← hb]
    refine ⟨fun hidle => by rw [State.pauseIn_out hidle], fun hworks => ⟨fun hlossy => by rw [State.pauseIn_lossy hworks hlossy],
      fun hlossless hstorm => ?_, fun hlossless hcalm => ?_⟩⟩
    · obtain ⟨hpaused, hnotes⟩ := State.pauseIn_storm (quanta := quanta.toNat) hworks hlossless hstorm
      exact ⟨_, rfl, hpaused, hnotes⟩
    · obtain ⟨hcounts, hup, since, hpaused⟩ := State.pauseIn_pauses (quanta := quanta.toNat) n hworks hlossless hcalm
      have hzero : quanta = 0 ↔ quanta.toNat = 0 := BitVec.toNat_inj.symm
      refine ⟨_, rfl, hcounts, fun hends x hx => ?_, fun hruns => ⟨?_, fun x hx hcls => ?_⟩, fun x hx => ?_⟩
      · rw [hpaused, if_pos (hzero.1 hends), List.append_nil] at hx
        simpa using (List.mem_filter.1 hx).2
      · have hlater := quantaPs_pos (b.port n).speed (mt hzero.2 hruns)
        rw [State.classPaused, hpaused, if_neg (mt hzero.2 hruns), hup]
        simp [hlater]
      · rw [hpaused, if_neg (mt hzero.2 hruns)] at hx
        rcases List.mem_append.1 hx with hx | hx
        · exact absurd hcls (by simpa using (List.mem_filter.1 hx).2)
        · rw [List.mem_singleton.1 hx]
          rfl
      · rw [hpaused]
        split <;> simp [hx, Prod.ext_iff]
  case expiry =>
    rintro s b dt n cls hb
    rw [exec_pfcPauseExpiry, exec_pfcWatchdogRecover, ← hb]
    refine ⟨⟨_, rfl, ?_, fun x => ?_⟩, ⟨_, rfl, ?_, fun x => ?_⟩⟩ <;> rw [State.modPort_port, if_pos rfl]
    · simp [List.mem_filter, imp_iff_not_or]
    · rw [List.mem_filter, show b.val 0x2300 0xF * 1000000000 = b.watchdogPs from rfl]
      simp [imp_iff_not_or]
  case storm =>
    rintro s b dt n cls hb
    rw [exec_pfcStorm, ← hb]
    refine ⟨fun hnone => by rw [State.pfcStorm_none hnone], fun x hx => ⟨fun hwithin => by rw [State.pfcStorm_within hx hwithin],
      fun hlong hstill => ?_⟩⟩
    obtain ⟨m, at_, hm, hat, hstorm⟩ := State.pfcStorm_due hx hlong hstill
    obtain ⟨hqueue, -, -⟩ := ((b.bump (portIdx n) 0x17 1).raise 0x0404 (portRef n) cls).dropQueue_port n cls
    rw [hstorm]
    refine ⟨_, rfl, ?_, ?_, fun y hy => ?_, ?_⟩
    · rw [State.modPort_port, if_pos rfl, hm]
      exact hqueue
    · rw [State.modPort_port, if_pos rfl, hat]
      exact List.mem_append_right _ List.mem_cons_self
    · rw [State.modPort_port, if_pos rfl] at hy
      simpa using (List.mem_filter.1 hy).2
    · rw [State.modPort_val, hm, State.dropQueue_val (by decide) (by decide),
        State.raise_val _ _ _ _ _ _ (by unfold quiet odKey portIdx; omega), State.bump_counts (odRow_portStorms n) b one_ne_zero]
  case tables =>
    rintro s b dt road data hb
    rw [exec_routeTableWrite, exec_ecmpGroupsWrite, ← hb]
    refine ⟨fun hadmits hwhole hfits => ?_, fun hadmits hwhole hfits => ?_⟩
    · rw [State.writeRow_admitted hadmits]
      exact ⟨fun hall => by rw [State.routeTableAct_replaces hwhole hfits hall],
        fun i hi hbad => by rw [State.routeTableAct_refused hwhole hfits hi hbad]⟩
    · rw [State.writeRow_admitted hadmits, State.ecmpGroupsAct_replaces hwhole hfits]
      refine ⟨_, rfl, by rw [State.reply_fabric], by rw [State.reply_fabric], fun g => ?_⟩
      rw [State.reply_fabric]
      rfl

end Sys2Proof.Machine
end

section
/-! States that meet the hypotheses of O42. -/

namespace Sys2Proof.Machine

/-- A class paused from 0 s on and beyond 500 ms is a storm: its queue is gone and counted. -/
theorem witness_pfcStorm : ∃ t, exec (.pfcStorm 0 3 5)
      (portIn .serving { paused := [(5, 600000000000, 0)], egress := [(5, [default])] }) = .next t ∧
    (t.port 3).queueOf 5 = [] ∧ t.val (portIdx 3) 0x17 = 1 := by
  obtain ⟨-, -, -, -, -, -, -, hstorm, -⟩ := switchForwardsAndPauses
  obtain ⟨-, hpaused⟩ := hstorm (portIn .serving { paused := [(5, 600000000000, 0)], egress := [(5, [default])] }) _ 0 3 5 rfl
  obtain ⟨-, hdue⟩ := hpaused (5, 600000000000, 0) (by decide)
  obtain ⟨t, ht, hqueue, -, -, hcounts⟩ := hdue (by decide +kernel) (by decide)
  exact ⟨t, ht, hqueue, hcounts.trans (by decide +kernel)⟩

/-- A frame of class 7 leaves a SERVING port before any other. -/
theorem witness_packetLeaves : ∃ t p l, exec (.packetEgress 0 3 0) (portIn .serving { egress := [(7, [default])] }) = .next t ∧
    t.out = [.frame 3 p] ++ l ∧ (t.port 3).queueOf 7 = [] := by
  obtain ⟨-, -, hegress, hclasses, -⟩ := switchForwardsAndPauses
  obtain ⟨hhighest, -⟩ := hclasses (portIn .serving { egress := [(7, [default])] }) 3 0
  obtain ⟨-, hserves⟩ := hegress (portIn .serving { egress := [(7, [default])] }) _ 0 3 0 rfl
  obtain ⟨t, p, l, ht, hout, hrest, -⟩ := hserves 7 _ _ default [] (by decide) (hhighest (by decide)) (by decide)
  exact ⟨t, p, l, ht, hout, hrest⟩

/-- An IPv4 packet with one hop left goes no further. -/
theorem witness_packetExpires : ∃ m : State,
    exec (.packetReceived 0 3 { kind := .ipv4, ttl := 1, dst := 1 }) (portIn .serving {}) = .next (m.bump 0x2300 0x1A 1) := by
  obtain ⟨hreceive, -⟩ := switchForwardsAndPauses
  obtain ⟨-, -, hworks⟩ := hreceive (portIn .serving {}) _ _ 0 3 { kind := .ipv4, ttl := 1, dst := 1 } rfl rfl
  obtain ⟨-, hgood⟩ := hworks (by decide)
  obtain ⟨-, -, hroutes⟩ := hgood rfl (by decide +kernel) nofun
  obtain ⟨-, hdrops⟩ := hroutes rfl (by decide) rfl
  obtain ⟨hexpires, -⟩ := hdrops (by decide +kernel) nofun
  exact ⟨_, hexpires (.inl (by decide))⟩

end Sys2Proof.Machine
end

section
/-! Requests on queue pairs (R318 to R320, R535): the statement O43. -/

namespace Sys2Proof.Machine

-- contexts written (R319)

theorem exec_qp (dt : Nat) (s : State) : exec (.qp dt) s = .next ((s.elapse dt).serve rqQp State.qpRq) := rfl

/-- The context that a QP request names: its queue pair and where it lies. -/
def qpOf (e : List Byte) : Nat := rqField e 0 2
def qpAt (e : List Byte) : Nat := rqField e 8 8

/-- A context that is not written: a reserved or unknown value, or other than RESET for a queue pair in ERROR. -/
def State.qpRefuses (s : State) (n : Nat) (d : List Byte) : Prop :=
  (field d 0 1 ≠ 0 ∧ qpContextOk d = false) ∨ (field d 0 1 = 0 ∧ qpReservedOk d = false) ∨ ((s.qp n).st = 4 ∧ field d 0 1 ≠ 0)

/-- The MOVEs of a queue pair that leaves RTS have ended. -/
def State.leaveRts (s : State) (n st : Nat) : State :=
  if (s.qp n).st = 3 && st != 3 then s.failMoves stFabric (fun w => (mKind w = 1 || mKind w = 2) && mQp w = n) else s

section
variable {s : State} {r : Rq}

theorem State.qpRq_outside (h : rangeSpan (qpAt r.entry) 64 ≠ .hbm) : s.qpRq r = s.answerDenied r (qpAt r.entry) 1 :=
  if_pos (by simpa [qpAt] using h)

theorem State.qpRq_denied {x lacking : Nat} (h : rangeSpan (qpAt r.entry) 64 = .hbm)
    (hdenied : s.checkMem r.m (qpAt r.entry) 64 0 = .denied x lacking) : s.qpRq r = s.answerDenied r x lacking := by
  rw [qpAt] at h hdenied
  unfold State.qpRq
  dsimp only
  rw [if_neg (by simp [h]), show rightR = 0 from rfl, hdenied]

/-- A context that may be read is held to its values, and written whole. -/
theorem State.qpRq_read (h : rangeSpan (qpAt r.entry) 64 = .hbm) (hok : s.checkMem r.m (qpAt r.entry) 64 0 = .ok)
    {d : List Byte} (hd : d = s.mem.read (qpAt r.entry) 64) :
    s.qpRq r = if !(if field d 0 1 = 0 then qpReservedOk d else qpContextOk d) then s.answer r stReserved 0
      else if (s.qp (qpOf r.entry)).st = 4 && field d 0 1 != 0 then s.answer r stReserved 0
      else ((s.leaveRts (qpOf r.entry) (field d 0 1)).putQp (qpOf r.entry) d).answer r stOk 0 := by
  subst hd
  rw [qpAt] at h hok
  unfold State.qpRq
  dsimp only
  rw [if_neg (by simp [h]), show rightR = 0 from rfl, hok]
  rfl

theorem State.qpRq_refused (h : rangeSpan (qpAt r.entry) 64 = .hbm) (hok : s.checkMem r.m (qpAt r.entry) 64 0 = .ok)
    (hrefuses : s.qpRefuses (qpOf r.entry) (s.mem.read (qpAt r.entry) 64)) : s.qpRq r = s.answer r 0x01 0 := by
  rw [State.qpRq_read h hok rfl]
  rcases hrefuses with ⟨hst, hbad⟩ | ⟨hst, hbad⟩ | ⟨herror, hst⟩
  · exact if_pos (by simp [hst, hbad])
  · exact if_pos (by simp [hst, hbad])
  · rw [if_pos (show ((s.qp (qpOf r.entry)).st = 4 && _) = true by simp [herror, hst])]
    exact ite_self _

theorem State.qpRq_writes (h : rangeSpan (qpAt r.entry) 64 = .hbm) (hok : s.checkMem r.m (qpAt r.entry) 64 0 = .ok)
    {d : List Byte} (hd : d = s.mem.read (qpAt r.entry) 64) (hreset : field d 0 1 = 0 → qpReservedOk d = true)
    (hother : field d 0 1 ≠ 0 → qpContextOk d = true ∧ (s.qp (qpOf r.entry)).st ≠ 4) :
    s.qpRq r = ((s.leaveRts (qpOf r.entry) (field d 0 1)).putQp (qpOf r.entry) d).answer r 0 0 := by
  rw [State.qpRq_read h hok hd]
  by_cases hst : field d 0 1 = 0
  · rw [if_neg (by simp [hst, hreset hst]), if_neg (by simp [hst])]
    rfl
  · rw [if_neg (by simp [hst, (hother hst).1]), if_neg (by simp [(hother hst).2])]
    rfl

end

theorem State.leaveRts_cases (s : State) (n st : Nat) : s.leaveRts n st = s ∨ ((s.qp n).st = 3 ∧ st ≠ 3 ∧
    s.leaveRts n st = s.failMoves 0x13 (fun w => (mKind w = 1 || mKind w = 2) && mQp w = n)) := by
  unfold State.leaveRts
  split
  next h =>
    simp only [Bool.and_eq_true, decide_eq_true_eq, bne_iff_ne] at h
    exact .inr ⟨h.1, h.2, rfl⟩
  next => exact .inl rfl

theorem State.failMoves_qp (s : State) (status : Nat) (f : TvWord → Bool) (k : Nat) : (s.failMoves status f).qp k = s.qp k :=
  (State.failMoves_keeps (Within.refl _) status f (.refl _ s)).qp_eq k (by decide)

theorem State.leaveRts_qp (s : State) (n st k : Nat) : (s.leaveRts n st).qp k = s.qp k := by
  rcases s.leaveRts_cases n st with h | ⟨-, -, h⟩ <;> rw [h]
  exact s.failMoves_qp _ _ k

theorem State.answer_qp (s : State) (r : Rq) (status result k : Nat) : (s.answer r status result).qp k = s.qp k :=
  (State.answer_keeps (Within.refl _) r status result (.refl _ s)).qp_eq k (by decide)

/-- A context as written: everything of the queue pair starts from it, at one rate. -/
theorem State.putQp_qp (s : State) (n : Nat) (d : List Byte) : ∃ line, (s.putQp n d).qp n = {
    context := leNat d, st := field d 0 1, sendPsn := field d 24 3, oldest := field d 24 3, expect := field d 28 3
    alpha := 65536, current := line, target := line } := by
  unfold State.putQp
  dsimp only
  rw [State.modQp_qp, if_pos rfl, State.modQp_qp, if_pos rfl]
  exact ⟨_, rfl⟩

theorem State.putQp_qp_other (s : State) {n k : Nat} (d : List Byte) (hk : k ≠ n) : (s.putQp n d).qp k = s.qp k := by
  unfold State.putQp
  dsimp only
  rw [State.modQp_qp, if_neg hk, State.modQp_qp, if_neg hk]

-- requests received (R318, R320)

theorem exec_rdmaWriteReceived (dt : Nat) (qp : BitVec 16) (src : BitVec 128) (psn : BitVec 24) (rkey : BitVec 32)
    (addr : BitVec 64) (data : List Byte) (s : State) : exec (.rdmaWriteReceived dt qp src psn rkey addr data) s =
      .next ((s.elapse dt).writeReceived qp.toNat src.toNat psn.toNat rkey.toNat addr.toNat data) := rfl
theorem exec_rdmaReadReceived (dt : Nat) (qp : BitVec 16) (src : BitVec 128) (psn : BitVec 24) (rkey : BitVec 32)
    (addr : BitVec 64) (len : Nat) (s : State) : exec (.rdmaReadReceived dt qp src psn rkey addr len) s =
      .next ((s.elapse dt).readReceived qp.toNat src.toNat psn.toNat rkey.toNat addr.toNat len) := rfl
theorem exec_sendReceived (dt : Nat) (qp : BitVec 16) (src : BitVec 128) (psn : BitVec 24) (e : List Byte) (s : State) :
    exec (.sendReceived dt qp src psn e) s = .next ((s.elapse dt).sendRequest qp.toNat src.toNat psn.toNat e) := rfl
theorem exec_atomicReceived (dt : Nat) (qp : BitVec 16) (psn : BitVec 24) (s : State) : exec (.atomicReceived dt qp psn) s =
    .next ((s.elapse dt).received qp.toNat psn.toNat (fun s => s.emit (.nak qp.toNat psn.toNat false))
      (fun s => s.emit (.nak qp.toNat psn.toNat false))) := rfl

section
variable {s : State} {n psn : Nat} {again go : State → State}

theorem State.arrival_deaf (h : s.run.st = .off ∨ ((s.qp n).st ≠ 2 ∧ (s.qp n).st ≠ 3)) : s.arrival n psn = .deaf := by
  refine if_pos ?_
  rcases h with h | h <;> simp [h]

/-- The place of a request that is heard goes by its sequence number alone. -/
theorem State.arrival_heard (hon : s.run.st ≠ .off) (hready : (s.qp n).st = 2 ∨ (s.qp n).st = 3) :
    s.arrival n psn = if psn = (s.qp n).expect then .inOrder
      else if psnGap (s.qp n).expect psn < 2 ^ 23 then .early else .again := by
  refine if_neg ?_
  rcases hready with h | h <;> simp [hon, h]

theorem State.received_deaf (h : s.arrival n psn = .deaf) : s.received n psn again go = s := by simp [State.received, h]
theorem State.received_early (h : s.arrival n psn = .early) :
    s.received n psn again go = s.emit (.sequenceNak n (s.qp n).expect) := by simp [State.received, h]
theorem State.received_again (h : s.arrival n psn = .again) : s.received n psn again go = again s := by simp [State.received, h]
theorem State.received_inOrder (h : s.arrival n psn = .inOrder) : s.received n psn again go = go s := by simp [State.received, h]

end

/-- A READ in sequence is answered with data or NAKed; only a new one moves the sequence on (R320). -/
def State.answerRead (n src psn rkey a len : Nat) (fresh : Bool) (s : State) : State :=
  if !(s.qp n).admits rkey 1 then s.emit (.nak n psn true)
  else
    match s.peerMaster (BitVec.ofNat 128 src) with
    | none => (s.denyUnknown a rightR).emit (.nak n psn true)
    | some m =>
      match s.rdmaLoad m a len with
      | (t, some b) => (if fresh then t.expectNext n ((s.qp n).packets len) else t).emit (.readResponse n psn b)
      | (t, none) => t.emit (.nak n psn true)

theorem State.readReceived_eq (s : State) (n src psn rkey a len : Nat) : s.readReceived n src psn rkey a len =
    s.received n psn (State.answerRead n src psn rkey a len false) (State.answerRead n src psn rkey a len true) := rfl

theorem State.expectNext_expect (s : State) (n k : Nat) :
    ((s.expectNext n k).qp n).expect = ((s.qp n).expect + k) % 2 ^ 24 := by
  unfold State.expectNext
  rw [State.modQp_qp, if_pos rfl]

/-- Every request received is looked at by its sequence; a WRITE and a SEND received before are acknowledged again. -/
theorem exec_received (dt len : Nat) (qp : BitVec 16) (src : BitVec 128) (psn : BitVec 24) (rkey : BitVec 32)
    (addr : BitVec 64) (data e : List Byte) (s : State) :
    ∀ c ∈ [Instr.rdmaWriteReceived dt qp src psn rkey addr data, .rdmaReadReceived dt qp src psn rkey addr len,
      .sendReceived dt qp src psn e, .atomicReceived dt qp psn], ∃ again go,
      exec c s = .next ((s.elapse dt).received qp.toNat psn.toNat again go) ∧
      (c = .rdmaWriteReceived dt qp src psn rkey addr data ∨ c = .sendReceived dt qp src psn e →
        again = fun s => s.emit (.ack qp.toNat (s.qp qp.toNat).lastSeen)) := by
  simp only [List.forall_mem_cons]
  refine ⟨⟨_, _, exec_rdmaWriteReceived dt qp src psn rkey addr data s, fun _ => rfl⟩,
    ⟨_, _, (exec_rdmaReadReceived dt qp src psn rkey addr len s).trans (congrArg _ (State.readReceived_eq _ _ _ _ _ _ _)),
      fun h => ?_⟩,
    ⟨_, _, exec_sendReceived dt qp src psn e s, fun _ => rfl⟩, ⟨_, _, exec_atomicReceived dt qp psn s, fun h => ?_⟩,
    fun c hc => absurd hc List.not_mem_nil⟩
  · exact absurd h (by simp)
  · exact absurd h (by simp)

theorem Qp.admits_iff (q : Qp) (rkey bit : Nat) : q.admits rkey bit = true ↔ rkey = q.byte 32 4 ∧ bitOf (q.byte 41 1) bit = true := by
  simp [Qp.admits]

/-- The other RKEY, or without its ALLOW flag. -/
theorem Qp.admits_not {q : Qp} {rkey bit : Nat} (h : rkey ≠ q.byte 32 4 ∨ bitOf (q.byte 41 1) bit = false) :
    q.admits rkey bit = false := by
  rcases h with h | h <;> simp [Qp.admits, h]

section
variable {s : State} {n m psn rkey a len : Nat} {src : BitVec 128} {data : List Byte} (horder : s.arrival n psn = .inOrder)
include horder

theorem State.writeReceived_keys (h : (s.qp n).admits rkey 2 = false) :
    s.writeReceived n src.toNat psn rkey a data = s.emit (.nak n psn true) :=
  (State.received_inOrder horder).trans (if_pos (by simp [h]))

/-- With its keys, a WRITE is made as the master of the sender's address. -/
theorem State.writeReceived_granted (h : (s.qp n).admits rkey 2 = true) :
    (s.peerMaster src = none → s.writeReceived n src.toNat psn rkey a data = (s.denyUnknown a rightW).emit (.nak n psn true)) ∧
    (s.peerMaster src = some m → s.writeReceived n src.toNat psn rkey a data =
      if (s.rdmaStore m a data).2 then ((s.rdmaStore m a data).1.expectNext n ((s.qp n).packets data.length)).emit
        (.ack n ((psn + (s.qp n).packets data.length - 1) % 2 ^ 24))
      else (s.rdmaStore m a data).1.emit (.nak n psn true)) := by
  have hkeys : ¬(!(s.qp n).admits rkey 2) = true := by simp [h]
  have hgo : s.writeReceived n src.toNat psn rkey a data = _ := (State.received_inOrder horder).trans (if_neg hkeys)
  rw [hgo, BitVec.ofNat_toNat, BitVec.setWidth_eq]
  refine ⟨fun hnone => ?_, fun hsome => ?_⟩
  · rw [hnone]
  · rw [hsome]

theorem State.readReceived_keys (h : (s.qp n).admits rkey 1 = false) :
    s.readReceived n src.toNat psn rkey a len = s.emit (.nak n psn true) := by
  rw [State.readReceived_eq, State.received_inOrder horder]
  exact if_pos (by simp [h])

theorem State.readReceived_reads {b : List Byte} (h : (s.qp n).admits rkey 1 = true) (hmaster : s.peerMaster src = some m)
    (hload : s.rdmaLoad m a len = (s, some b)) :
    s.readReceived n src.toNat psn rkey a len = (s.expectNext n ((s.qp n).packets len)).emit (.readResponse n psn b) := by
  rw [State.readReceived_eq, State.received_inOrder horder]
  unfold State.answerRead
  rw [if_neg (by simp [h]), BitVec.ofNat_toNat, BitVec.setWidth_eq, hmaster]
  dsimp only
  rw [hload]
  rfl

end

section
variable {s : State} {m a : Nat} {data : List Byte}

theorem State.rdmaStore_check (h : rangeSpan a data.length ≠ .streams) :
    (s.checkMem m a data.length 1 = .ok → s.rdmaStore m a data = (s.storeBytes a data, true)) ∧
    (∀ x lacking, s.checkMem m a data.length 1 = .denied x lacking → s.rdmaStore m a data = (s.deny (some m) x lacking, false)) := by
  have hcheck : s.rdmaStore m a data = (match s.checkMem m a data.length rightW with
    | .ok => (s.storeBytes a data, true)
    | .denied addr lacking => (s.refusedAt m addr lacking, false)
    | _ => (s.refusedAt m a (2 ^ rightW), false)) := by
    unfold State.rdmaStore
    split
    next hspan => exact absurd hspan h
    next => rfl
  rw [hcheck, show rightW = 1 from rfl]
  exact ⟨fun hok => by rw [hok], fun x lacking hdenied => by rw [hdenied]; rfl⟩

theorem State.rdmaLoad_ok {len : Nat} (h : rangeSpan a len = .hbm) (hok : s.checkMem m a len 0 = .ok) :
    s.rdmaLoad m a len = (s, some (s.readAt a len)) := by
  unfold State.rdmaLoad
  rw [h]
  dsimp only
  rw [show rightR = 0 from rfl, hok]

end

-- SEND (R320)

section
variable {s : State} {n m psn : Nat} {src : BitVec 128} {e : List Byte} (horder : s.arrival n psn = .inOrder)
include horder

theorem State.sendRequest_keys (h : bitOf ((s.qp n).byte 41 1) 3 = false) :
    s.sendRequest n src.toNat psn e = s.emit (.nak n psn true) :=
  (State.received_inOrder horder).trans (if_pos (by simp [h]))

/-- A SEND with its flag and its master is acted on where requests are served. -/
theorem State.sendRequest_granted (h : bitOf ((s.qp n).byte 41 1) 3 = true) (hmaster : s.peerMaster src = some m)
    {u : State} (hu : u = (s.expectNext n 1).emit (.ack n psn)) {r : Rq} (hr : r = { m := m, ring := none, entry := padTo 64 0 e }) :
    s.sendRequest n src.toNat psn e = if !s.servesRequests then s.emit (.rnrNak n psn)
      else if requestOk (if rqType r.entry < rqOpen then 0 else 1) r.entry then u.actRequest r else u.answer r stReserved 0 := by
  subst hu hr
  have hflag : ¬(!bitOf ((s.qp n).byte 41 1) 3) = true := by simp [h]
  have hgo : s.sendRequest n src.toNat psn e = _ := (State.received_inOrder horder).trans (if_neg hflag)
  rw [hgo, BitVec.ofNat_toNat, BitVec.setWidth_eq, hmaster]

end

/-- Settles O43, one case for each of its clauses. That a WRITE or SEND received before is acknowledged again, and a wrong RKEY
answered without a denial, is the model's reading (log entry 45). -/
theorem queuePairRequestsAreAnswered : Obligations.QueuePairRequestsAreAnswered := by
  refine ⟨?none, ?context, ?sequence, ?write, ?read, ?send, ?atomic⟩
  case none =>
    rintro s b c dt hb htake
    rw [exec_qp, ← hb, State.serve_none htake]
  case context =>
    rintro s b c dt p q n a e d r hb htake hr hn ha hd
    have hentry : r.entry = e := by rw [hr]
    have hmaster : r.m = 2 + p := by rw [hr]
    obtain rfl : a = qpAt r.entry := by rw [ha, hentry]; rfl
    obtain rfl : n = qpOf r.entry := by rw [hn, hentry]; rfl
    rw [exec_qp, ← hb, State.serve_some htake, ← hr, ← hmaster]
    refine ⟨fun hout => by rw [State.qpRq_outside hout], fun x lacking hspan hdenied => by rw [State.qpRq_denied hspan hdenied],
      fun hspan hok => ⟨fun hrefuses => ?_, fun hreset hother => ?_⟩⟩
    · rw [State.qpRq_refused hspan hok (hd ▸ hrefuses)]
    · obtain ⟨line, hqp⟩ := (c.leaveRts (qpOf r.entry) (field d 0 1)).putQp_qp (qpOf r.entry) d
      refine ⟨_, _, congrArg _ (State.qpRq_writes hspan hok hd hreset hother), rfl, c.leaveRts_cases _ _, ?_⟩
      rw [State.answer_qp, hqp]
      refine ⟨rfl, rfl, rfl, rfl, rfl, rfl, rfl, rfl, fun k hk => ?_⟩
      rw [State.answer_qp, State.putQp_qp_other _ _ hk, State.leaveRts_qp]
  case sequence =>
    rintro s b dt n len qp src psn rkey addr data e hb rfl c hc
    obtain ⟨again, go, hexec, hagain⟩ := exec_received dt len qp src psn rkey addr data e s c hc
    rw [hexec, ← hb]
    refine ⟨fun hdeaf => by rw [State.received_deaf (State.arrival_deaf hdeaf)], fun hon hready =>
      ⟨fun hne hahead => ?_, fun hne hbehind hwrites => ?_⟩⟩
    · have harrival : b.arrival qp.toNat psn.toNat = .early := by
        rw [State.arrival_heard hon hready, if_neg hne]
        exact if_pos hahead
      rw [State.received_early harrival]
    · have harrival : b.arrival qp.toNat psn.toNat = .again := by
        rw [State.arrival_heard hon hready, if_neg hne]
        exact if_neg (Nat.not_lt.2 hbehind)
      rw [State.received_again harrival, hagain hwrites]
  case write =>
    rintro s b dt n qp src psn rkey addr data hb rfl horder
    rw [exec_rdmaWriteReceived, ← hb]
    refine ⟨fun hkeys => by rw [State.writeReceived_keys horder (Qp.admits_not hkeys)], fun hkey hallowed => ?_⟩
    have hadmits := ((b.qp qp.toNat).admits_iff rkey.toNat 2).2 ⟨hkey, hallowed⟩
    refine ⟨fun hnone => by rw [(State.writeReceived_granted (m := 0) horder hadmits).1 hnone]; rfl, fun m hmaster hspan => ?_⟩
    rw [(State.writeReceived_granted horder hadmits).2 hmaster]
    obtain ⟨hstores, hdenies⟩ := State.rdmaStore_check (s := b) (m := m) hspan
    refine ⟨fun hok => ?_, fun x lacking hdenied => ?_⟩
    · rw [hstores hok]
      exact ⟨_, rfl, rfl, rfl, (b.storeBytes addr.toNat data).expectNext_expect _ _, rfl, rfl⟩
    · rw [hdenies x lacking hdenied]
      rfl
  case read =>
    rintro s b dt n len qp src psn rkey addr hb rfl horder
    rw [exec_rdmaReadReceived, ← hb]
    refine ⟨fun hkeys => by rw [State.readReceived_keys horder (Qp.admits_not hkeys)], fun hkey hallowed m hmaster hspan hok => ?_⟩
    have hadmits := ((b.qp qp.toNat).admits_iff rkey.toNat 1).2 ⟨hkey, hallowed⟩
    rw [State.readReceived_reads horder hadmits hmaster (State.rdmaLoad_ok hspan hok)]
    exact ⟨_, rfl, rfl, rfl, b.expectNext_expect _ _⟩
  case send =>
    rintro s b u dt n m qp src psn e r hb rfl horder hu hr
    rw [exec_sendReceived, ← hb]
    refine ⟨fun hkeys => by rw [State.sendRequest_keys horder hkeys], fun hallowed hmaster => ?_⟩
    rw [State.sendRequest_granted horder hallowed hmaster hu hr]
    refine ⟨fun hfull => ?_, fun hserves => ?_⟩
    · have hroom : (!b.servesRequests) = true := by simp [hfull]
      rw [if_pos hroom]
    · have hroom : ¬(!b.servesRequests) = true := by simp [hserves]
      rw [if_neg hroom]
      exact ⟨fun hgood => by rw [if_pos hgood], fun hbad => congrArg _ (if_neg (ne_true_of_eq_false hbad))⟩
  case atomic =>
    rintro s b dt qp psn hb h
    rw [exec_atomicReceived, ← hb]
    rcases h with h | h
    · rw [State.received_inOrder h]
    · rw [State.received_again h]

end Sys2Proof.Machine
end

section
/-! The device's own requests and its rates (R321, R322): the statement O44. -/

namespace Sys2Proof.Machine

theorem exec_ackReceived (dt : Nat) (qp : BitVec 16) (psn : BitVec 24) (s : State) : exec (.ackReceived dt qp psn) s =
    .next (if ((s.elapse dt).qp qp.toNat).st = 3 then (s.elapse dt).acknowledge qp.toNat psn.toNat else s.elapse dt) := rfl
theorem exec_rdmaReadResponse (dt : Nat) (qp : BitVec 16) (psn : BitVec 24) (data : List Byte) (s : State) :
    exec (.rdmaReadResponse dt qp psn data) s = .next ((s.elapse dt).readResponse qp.toNat psn.toNat data) := rfl
theorem exec_fatalNak (dt : Nat) (qp : BitVec 16) (syndrome : BitVec 8) (s : State) : exec (.fatalNak dt qp syndrome) s =
    .next (if ((s.elapse dt).qp qp.toNat).st = 3 then (s.elapse dt).qpError qp.toNat syndrome.toNat else s.elapse dt) := rfl

/-- What a sequence NAK shows as arrived: all before the packet that the peer expects. -/
def State.nakAcks (s : State) (n psn : Nat) : State :=
  if psn = (s.qp n).oldest then s else s.acknowledge n ((psn + 2 ^ 24 - 1) % 2 ^ 24)

theorem exec_sequenceNak (dt : Nat) (qp : BitVec 16) (psn : BitVec 24) (s : State) : exec (.sequenceNak dt qp psn) s =
    .next (if ((s.elapse dt).qp qp.toNat).st = 3 then ((s.elapse dt).nakAcks qp.toNat psn.toNat).retry qp.toNat
      else s.elapse dt) := rfl
theorem exec_retransmitTimeout (dt : Nat) (qp : BitVec 16) (s : State) : exec (.retransmitTimeout dt qp) s =
    .next (if ((s.elapse dt).qp qp.toNat).oldest = ((s.elapse dt).qp qp.toNat).sendPsn then s.elapse dt
      else (s.elapse dt).retry qp.toNat) := rfl

section
variable {s : State} {n : Nat}

theorem State.retry_notRts (h : (s.qp n).st ≠ 3) : s.retry n = s := if_pos (by simp [h])

theorem State.retry_resends (hst : (s.qp n).st = 3) (h : (s.qp n).retries < (s.qp n).byte 3 1 % 8) :
    s.retry n = (s.modQp n (fun q => { q with retries := q.retries + 1 })).emit (.resend n (s.qp n).oldest) := by
  unfold State.retry
  dsimp only
  rw [if_neg (by simp [hst]), if_neg (Nat.not_le.2 h)]

theorem State.retry_exhausted (hst : (s.qp n).st = 3) (h : (s.qp n).byte 3 1 % 8 ≤ (s.qp n).retries) :
    s.retry n = s.qpError n 0 := by
  unfold State.retry
  dsimp only
  rw [if_neg (by simp [hst]), if_pos h]

end

-- acknowledgements (R321)

/-- A WRITE in flight that is acknowledged ends. -/
def State.endFlight (s : State) (f : Flight) : State := (s.dropTxn f.core f.op f.txn).moveEnds f.core f.op

theorem State.endFlights_keeps (s : State) (l : List Flight) : s.Keeps [.cores, .sched] (l.foldl State.endFlight s) :=
  keeps_foldl (.refl _ s) (fun _ f h => State.moveEnds_keeps (by decide) f.core f.op (State.dropTxn_keeps (by decide) f.core f.op f.txn h))

section
variable (s : State) (n : Nat)

/-- Of its queue pair alone the oldest packet moves. -/
theorem State.newOldest_st : ((s.newOldest n).qp n).st = (s.qp n).st := by
  unfold State.newOldest
  dsimp only
  rw [State.modQp_qp, if_pos rfl]

theorem State.newOldest_sendPsn : ((s.newOldest n).qp n).sendPsn = (s.qp n).sendPsn := by
  unfold State.newOldest
  dsimp only
  rw [State.modQp_qp, if_pos rfl]

theorem State.newOldest_qp_other {k : Nat} (hk : k ≠ n) : (s.newOldest n).qp k = s.qp k := by
  unfold State.newOldest
  dsimp only
  rw [State.modQp_qp, if_neg hk]

/-- The WRITEs in flight that an acknowledgement covers. -/
def State.covered (psn : Nat) : List Flight := (s.flights n).filter (fun f =>
  mKind f.word = 1 && psnGap (s.qp n).oldest f.txn.psn ≤ psnGap (s.qp n).oldest psn)

variable {s n} {psn : Nat}

theorem State.acknowledge_beyond (h : psnGap (s.qp n).oldest (s.qp n).sendPsn ≤ psnGap (s.qp n).oldest psn) :
    s.acknowledge n psn = s := if_pos h

theorem State.acknowledge_covers (h : psnGap (s.qp n).oldest psn < psnGap (s.qp n).oldest (s.qp n).sendPsn) {done : List Flight}
    (hdone : done = s.covered n psn) {m : State} (hm : m = done.foldl State.endFlight s) :
    s.acknowledge n psn = if done.isEmpty then m.newOldest n else (m.newOldest n).modQp n (fun q => { q with retries := 0 }) := by
  subst hm hdone
  exact if_neg (Nat.not_le.2 h)

/-- What an acknowledgement leaves of the cores, its queue pair and the others. -/
theorem State.acknowledge_effect (h : psnGap (s.qp n).oldest psn < psnGap (s.qp n).oldest (s.qp n).sendPsn)
    {done : List Flight} (hdone : done = s.covered n psn) {m : State} (hm : m = done.foldl State.endFlight s) :
    (s.acknowledge n psn).cores = m.cores ∧ (done ≠ [] → ((s.acknowledge n psn).qp n).retries = 0) ∧
      ((s.acknowledge n psn).qp n).oldest = ((m.newOldest n).qp n).oldest ∧
      ((s.acknowledge n psn).qp n).sendPsn = (s.qp n).sendPsn ∧ (∀ k : Nat, k ≠ n → (s.acknowledge n psn).qp k = s.qp k) := by
  have hqp : ∀ k, m.qp k = s.qp k := fun k => hm ▸ (s.endFlights_keeps done).qp_eq k (by decide)
  have hcores : (m.newOldest n).cores = m.cores := (State.newOldest_keeps (Within.refl _) n (.refl _ m)).cores_eq (by decide)
  have hsend : ((m.newOldest n).qp n).sendPsn = (s.qp n).sendPsn := (m.newOldest_sendPsn n).trans (congrArg Qp.sendPsn (hqp n))
  rw [State.acknowledge_covers h hdone hm]
  cases done with
  | nil =>
    refine ⟨hcores, fun hne => absurd rfl hne, rfl, hsend, fun k hk => ?_⟩
    · exact (m.newOldest_qp_other n hk).trans (hqp k)
  | cons f done =>
    rw [List.isEmpty_cons, if_neg (by decide)]
    refine ⟨hcores, fun _ => ?_, ?_, ?_, fun k hk => ?_⟩
    · rw [State.modQp_qp, if_pos rfl]
    · rw [State.modQp_qp, if_pos rfl]
    · rw [State.modQp_qp, if_pos rfl]
      exact hsend
    · rw [State.modQp_qp, if_neg hk]
      exact (m.newOldest_qp_other n hk).trans (hqp k)

theorem State.modQp_st {f : Qp → Qp} (hf : ∀ q, (f q).st = q.st) (s : State) (n k : Nat) :
    ((s.modQp n f).qp k).st = (s.qp k).st := by
  rw [State.modQp_qp]
  split
  next h => rw [hf, h]
  next => rfl

/-- No queue pair leaves its state at an acknowledgement. -/
theorem State.acknowledge_st (s : State) (n psn : Nat) : ((s.acknowledge n psn).qp n).st = (s.qp n).st := by
  by_cases h : psnGap (s.qp n).oldest (s.qp n).sendPsn ≤ psnGap (s.qp n).oldest psn
  · rw [State.acknowledge_beyond h]
  · have hqp := (s.endFlights_keeps (s.covered n psn)).qp_eq n (by decide)
    rw [State.acknowledge_covers (Nat.not_le.1 h) rfl rfl]
    generalize (s.covered n psn).foldl State.endFlight s = m at hqp
    have hst : ((m.newOldest n).qp n).st = (s.qp n).st := (m.newOldest_st n).trans (congrArg Qp.st hqp)
    split
    · exact hst
    · exact (State.modQp_st (f := fun q => { q with retries := 0 }) (fun _ => rfl) _ _ _).trans hst

theorem State.nakAcks_st (s : State) (n psn : Nat) : ((s.nakAcks n psn).qp n).st = (s.qp n).st := by
  unfold State.nakAcks
  split
  · rfl
  · exact s.acknowledge_st n _

end

-- READ responses (R321)

/-- The READ in flight that a response with a sequence number is for. -/
def State.readInFlight (s : State) (n psn : Nat) : Option Flight :=
  (s.flights n).find? (fun f => mKind f.word = 2 && f.txn.psn = psn)

section
variable {s : State} {n psn : Nat} {data : List Byte}

theorem State.readResponse_not (h : (s.qp n).st ≠ 3 ∨ s.readInFlight n psn = none) : s.readResponse n psn data = s := by
  unfold State.readResponse
  rcases h with h | h
  · rw [if_pos (by simp [h])]
  · rw [State.readInFlight] at h
    rw [h]
    exact ite_self s

theorem State.readResponse_lands {f : Flight} {u v : State} {st : Nat} (hst : (s.qp n).st = 3)
    (hf : s.readInFlight n psn = some f) (hu : u = s.dropTxn f.core f.op f.txn)
    (hwrites : u.writeAll (u.coreJob f.core) [(f.txn.dst, padTo f.txn.len 0 data)] = (st, v)) :
    s.readResponse n psn data = ((if st = 0 then v.moveEnds f.core f.op else v.moveFails f.core f.op st).newOldest n).modQp n
      (fun q => { q with retries := 0 }) := by
  subst hu
  rw [State.readInFlight] at hf
  unfold State.readResponse
  rw [if_neg (by simp [hst]), hf]
  dsimp only
  rw [hwrites]
  rfl

end

-- a queue pair in ERROR (R321)

theorem State.qpError_effect (s : State) (n syndrome : Nat) : ((s.qpError n syndrome).qp n).st = 4 ∧
    (s.qpError n syndrome).val 0x2300 0x1E = wrapAdd 8 (s.val 0x2300 0x1E) 1 ∧ (s.qpError n syndrome).mem = s.mem ∧
    ∀ k : Nat, k ≠ n → (s.qpError n syndrome).qp k = s.qp k := by
  unfold State.qpError
  extract_lets ended counted
  have hcounted : ∀ k, counted.qp k = ended.qp k := fun k => by
    unfold counted
    rw [State.raise_qp, State.bump_qp]
  rw [State.failMoves_qp, hcounted, State.modQp_qp, if_pos rfl]
  have hkeeps := State.failMoves_keeps (Within.refl _) stFabric (fun w => (mKind w = 1 || mKind w = 2) && mQp w = n) (.refl _ counted)
  refine ⟨rfl, ?_, ?_, fun k hk => ?_⟩
  · rw [hkeeps.val_eq _ _ (by decide)]
    unfold counted
    rw [State.raise_val _ _ _ _ _ _ (by decide), State.bump_counts (n := 8) (by decide) _ one_ne_zero]
    rfl
  · rw [hkeeps.mem_eq (by decide)]
    unfold counted
    rw [State.raise_mem, State.bump_mem]
    rfl
  · rw [State.failMoves_qp, hcounted, State.modQp_qp, if_neg hk]

-- congestion (R322)

theorem exec_cnpReceived {dt : Nat} {qp : BitVec 16} {s b : State} (hb : b = s.elapse dt) (hon : b.run.st ≠ .off)
    (hst : (b.qp qp.toNat).st = 3) : exec (.cnpReceived dt qp) s =
      .next ((b.bump 0x2300 0x20 1).modQp qp.toNat (fun q => q.onCnp (b.val 0x2300 0x13))) := by
  subst hb
  have hcounted : (if (s.elapse dt).run.st = .off then s.elapse dt else (s.elapse dt).bump 0x2300 0x20 1) =
      (s.elapse dt).bump 0x2300 0x20 1 := if_neg hon
  show execCnpReceived dt qp s = _
  unfold execCnpReceived
  dsimp only
  rw [hcounted, State.bump_qp, if_pos hst, State.bump_val_other _ _ _ _ _ _ (by decide)]

theorem exec_rateRecoveryTimer (dt : Nat) (qp : BitVec 16) (s : State) : exec (.rateRecoveryTimer dt qp) s =
    .next (if ((s.elapse dt).qp qp.toNat).st != 3 then s.elapse dt
      else if ((s.elapse dt).qp qp.toNat).cnpSeen then (s.elapse dt).modQp qp.toNat (fun q => { q with cnpSeen := false })
      else (s.elapse dt).modQp qp.toNat
        (fun q => q.onTimer ((s.elapse dt).val 0x2300 0x12) ((s.elapse dt).lineRate qp.toNat))) := rfl

/-- Each of the own requests' commands leaves a queue pair alone that is not RTS. -/
theorem exec_ownRequests_notRts {dt : Nat} {qp : BitVec 16} {s b : State} (hb : b = s.elapse dt)
    (h : (b.qp qp.toNat).st ≠ 3) (psn : BitVec 24) (data : List Byte) (syndrome : BitVec 8) :
    ∀ c ∈ [Instr.ackReceived dt qp psn, .rdmaReadResponse dt qp psn data, .sequenceNak dt qp psn, .retransmitTimeout dt qp,
      .fatalNak dt qp syndrome, .rateRecoveryTimer dt qp], exec c s = .next b := by
  simp only [List.forall_mem_cons]
  refine ⟨?_, ?_, ?_, ?_, ?_, ?_, fun c hc => absurd hc List.not_mem_nil⟩
  · rw [exec_ackReceived, ← hb, if_neg h]
  · rw [exec_rdmaReadResponse, ← hb, State.readResponse_not (.inl h)]
  · rw [exec_sequenceNak, ← hb, if_neg h]
  · rw [exec_retransmitTimeout, ← hb, State.retry_notRts h, ite_self]
  · rw [exec_fatalNak, ← hb, if_neg h]
  · rw [exec_rateRecoveryTimer, ← hb, if_pos (by simp [h])]

/-- A sequence NAK and a timeout with something unacknowledged lead to one retry, from what the NAK has shown as arrived. -/
theorem exec_retries {dt : Nat} {qp : BitVec 16} {psn : BitVec 24} {s b m : State} (hb : b = s.elapse dt)
    (hst : (b.qp qp.toNat).st = 3) {c : Instr} (hc : c ∈ [Instr.sequenceNak dt qp psn, .retransmitTimeout dt qp])
    (htimeout : c = .retransmitTimeout dt qp → m = b) (hnak : c = .sequenceNak dt qp psn → m = b.nakAcks qp.toNat psn.toNat)
    (hopen : c = .retransmitTimeout dt qp → (b.qp qp.toNat).oldest ≠ (b.qp qp.toNat).sendPsn) :
    exec c s = .next (m.retry qp.toNat) ∧ (m.qp qp.toNat).st = 3 := by
  rcases List.mem_cons.1 hc with rfl | hc
  · rw [exec_sequenceNak, ← hb, if_pos hst, hnak rfl]
    exact ⟨rfl, (b.nakAcks_st _ _).trans hst⟩
  · obtain rfl := List.mem_singleton.1 hc
    rw [exec_retransmitTimeout, ← hb, if_neg (hopen rfl), htimeout rfl]
    exact ⟨rfl, hst⟩

/-- Settles O44, one case for each of its clauses. That a sequence NAK acknowledges what precedes its packet, and retries start anew
when something completes, is the model's reading (log entry 45). -/
theorem ownRequestsRetryAndRatesRecover : Obligations.OwnRequestsRetryAndRatesRecover := by
  refine ⟨?notRts, ?ack, ?response, ?retry, ?fatal, ?error, ?cnp, ?timer⟩
  case notRts =>
    rintro s b dt n qp psn data syndrome hb rfl h
    exact exec_ownRequests_notRts hb h psn data syndrome
  case ack =>
    rintro s b dt n qp psn done hb rfl hst hdone
    rw [exec_ackReceived, ← hb, if_pos hst]
    refine ⟨fun hbeyond => by rw [State.acknowledge_beyond hbeyond], fun hcovers => ⟨_, _, rfl, rfl, ?_⟩⟩
    obtain ⟨hcores, hretries, holdest, hsend, hothers⟩ := State.acknowledge_effect hcovers hdone rfl
    exact ⟨hcores, hretries, holdest, hsend, hothers,
      (State.acknowledge_keeps (Within.refl _) _ _ (.refl _ b)).mem_eq (by decide)⟩
  case response =>
    rintro s b dt n qp psn data hb rfl hst
    rw [exec_rdmaReadResponse, ← hb]
    refine ⟨fun hnone => by rw [State.readResponse_not (.inr hnone)], fun f hf u v st hu hwrites => ?_⟩
    rw [State.readResponse_lands hst hf hu hwrites]
    generalize hended : (if st = 0 then v.moveEnds f.core f.op else v.moveFails f.core f.op st) = w
    have hmem : w.mem = v.mem := by
      rw [← hended]
      split
      · exact (State.moveEnds_keeps (Within.refl _) _ _ (.refl _ v)).mem_eq (by decide)
      · exact (State.moveFails_keeps (Within.refl _) _ _ _ (.refl _ v)).mem_eq (by decide)
    have hkeeps := State.newOldest_keeps (Within.refl _) qp.toNat (.refl _ w)
    refine ⟨_, rfl, (hkeeps.mem_eq (by decide)).trans hmem, ?_, hkeeps.cores_eq (by decide)⟩
    rw [State.modQp_qp, if_pos rfl]
  case retry =>
    rintro s b m dt n qp psn hb rfl hst c hc htimeout hnak
    refine ⟨fun hc' hdone => ?_, fun hopen => ?_⟩
    · rw [hc', exec_retransmitTimeout, ← hb, if_pos hdone]
    · obtain ⟨hexec, hrts⟩ := exec_retries hb hst hc htimeout hnak hopen
      rw [hexec]
      refine ⟨fun hleft => ?_, fun hused => by rw [State.retry_exhausted hrts hused]⟩
      rw [State.retry_resends hrts hleft]
      refine ⟨_, rfl, rfl, ?_, ?_, rfl⟩
      · rw [State.emit_qp, State.modQp_qp, if_pos rfl]
      · rw [State.emit_qp, State.modQp_qp, if_pos rfl]
        exact hrts
  case fatal =>
    rintro s b dt n qp syndrome hb rfl hst
    rw [exec_fatalNak, ← hb, if_pos hst]
  case error => exact State.qpError_effect
  case cnp =>
    rintro s b dt n qp hb rfl hst hon
    refine ⟨_, exec_cnpReceived hb hon hst, ?_, ?_, fun k hk => ?_⟩
    · exact State.bump_counts (n := 8) (by decide) b one_ne_zero
    · rw [State.modQp_qp, if_pos rfl, State.bump_qp]
      rfl
    · rw [State.modQp_qp, if_neg hk, State.bump_qp]
  case timer =>
    rintro s b dt n g qp hb rfl hst hg
    rw [exec_rateRecoveryTimer, ← hb, if_neg (by simp [hst])]
    refine ⟨fun hseen => by rw [if_pos hseen], fun hquiet => ?_⟩
    rw [if_neg (ne_true_of_eq_false hquiet)]
    refine ⟨_, rfl, ?_, fun k hk => by rw [State.modQp_qp, if_neg hk]⟩
    rw [State.modQp_qp, if_pos rfl, hg]
    rfl

end Sys2Proof.Machine
end

section
/-! States that meet the hypotheses of O43 and O44. -/

namespace Sys2Proof.Machine

/-- Queue pair 5 as given, in SERVING. -/
def State.qpIn (q : Qp) : State := ({ run := { st := .serving } } : State).modQp 5 (fun _ => q)

/-- A WRITE with another key than the queue pair's is denied. -/
theorem witness_writeWithoutKey : exec (.rdmaWriteReceived 0 5 0 0 1 0 [7]) (State.qpIn { st := 3 }) =
    .next (((State.qpIn { st := 3 }).elapse 0).emit (.nak 5 0 true)) := by
  obtain ⟨-, -, -, hwrite, -⟩ := queuePairRequestsAreAnswered
  obtain ⟨hkeys, -⟩ := hwrite (State.qpIn { st := 3 }) _ 0 5 5 0 0 1 0 [7] rfl rfl (by decide +kernel)
  exact hkeys (.inl (by decide +kernel))

/-- A packet ahead of the sequence is answered with a sequence NAK. -/
theorem witness_aheadOfSequence : exec (.sendReceived 0 5 0 9 []) (State.qpIn { st := 2, expect := 8 }) =
    .next (((State.qpIn { st := 2, expect := 8 }).elapse 0).emit (.sequenceNak 5 8)) := by
  obtain ⟨-, -, hheard, -⟩ := queuePairRequestsAreAnswered
  obtain ⟨-, hready⟩ := hheard (State.qpIn { st := 2, expect := 8 }) _ 0 5 0 5 0 9 0 0 [] [] rfl rfl
    (.sendReceived 0 5 0 9 []) (by decide)
  obtain ⟨hahead, -⟩ := hready (by decide) (by decide +kernel)
  exact hahead (by decide +kernel) (by decide +kernel)

/-- A timeout with a packet unacknowledged and a retry left resends it. -/
theorem witness_timeoutResends : ∃ t, exec (.retransmitTimeout 0 5)
    (State.qpIn { st := 3, context := 256 ^ 3, sendPsn := 4, oldest := 3 }) = .next t ∧
    t.out = [.resend 5 3] ∧ (t.qp 5).retries = 1 := by
  obtain ⟨-, -, -, hretry, -⟩ := ownRequestsRetryAndRatesRecover
  obtain ⟨-, hopen⟩ := hretry (State.qpIn { st := 3, context := 256 ^ 3, sendPsn := 4, oldest := 3 }) _ _ 0 5 5 0 rfl rfl
    (by decide +kernel) (.retransmitTimeout 0 5) (by decide) (fun _ => rfl) nofun
  obtain ⟨hleft, -⟩ := hopen (fun _ => by decide +kernel)
  obtain ⟨t, ht, hout, hretries, -⟩ := hleft (by decide +kernel)
  exact ⟨t, ht, hout, hretries⟩

/-- A CNP halves the rate where alpha is 1. -/
theorem witness_cnpHalvesRate : ∃ t, exec (.cnpReceived 0 5) (State.qpIn { st := 3, current := 4000, alpha := 65536 }) = .next t ∧
    (t.qp 5).current = 2000 ∧ (t.qp 5).target = 4000 := by
  obtain ⟨-, -, -, -, -, -, hcnp, -⟩ := ownRequestsRetryAndRatesRecover
  obtain ⟨t, ht, -, hqp, -⟩ := hcnp (State.qpIn { st := 3, current := 4000, alpha := 65536 }) _ 0 5 5 rfl rfl
    (by decide +kernel) (by decide)
  exact ⟨t, ht, by rw [hqp]; decide +kernel, by rw [hqp]; decide +kernel⟩

end Sys2Proof.Machine
end

section
/-! The loss of the partner, confirmed or not (R331, R334 to R338, R343): probes, the relay, the witness, the confirm window and the
fence time, and the statement O46. -/

namespace Sys2Proof.Machine

-- entry into TAKING_OVER and SELF_FENCED (R337, R343)

theorem State.settleTakeover_twin (s : State) : s.settleTakeover.twin = s.twin ∨
    (s.twin.st = .takingOver ∧ s.settleTakeover.twin = { s.twin with st := .degraded }) := by
  unfold State.settleTakeover
  split
  next h =>
    simp only [Bool.and_eq_true, decide_eq_true_eq] at h
    exact .inr ⟨h.1, s.twinSet_twin .degraded⟩
  next => exact .inl rfl

/-- The device takes over: at once DEGRADED where nothing is to be restored. -/
theorem State.enterTakeover_effect (s : State) (hold : Nat) :
    (s.enterTakeover hold).twin.st ∈ [TwinSt.takingOver, .degraded] ∧ (s.enterTakeover hold).twin.takeoverAt = s.ns ∧
      (s.enterTakeover hold).twin.grant = s.twin.grant := by
  unfold State.enterTakeover
  extract_lets entered twin noted timed
  have hns : entered.ns = s.ns := ((State.releaseLog_keeps (Within.refl _) (.refl _ _)).ns_eq (by decide)).trans
    ((s.twinSet_keeps_rest .takingOver).ns_eq (by decide))
  have hentered : entered.twin.contact = ({ s.twin with st := .takingOver } : Twin).contact := by
    unfold entered
    rw [State.releaseLog_contact, State.twinSet_twin]
  have hadopted : (timed.adoptAll hold).twin.contact = ({ s.twin with st := .takingOver, takeoverAt := s.ns } : Twin).contact := by
    rw [State.adoptAll_contact]
    unfold timed noted
    rw [hns]
    exact congrArg (fun x : Twin => { x with takeoverAt := s.ns }) hentered
  have hst : (timed.adoptAll hold).twin.st = .takingOver := congrArg Twin.st hadopted
  have hat := congrArg Twin.takeoverAt hadopted
  have hgrant := congrArg Twin.grant hadopted
  rcases (timed.adoptAll hold).settleTakeover_twin with h | ⟨-, h⟩
  · rw [h]
    exact ⟨List.mem_cons.2 (.inl hst), hat, hgrant⟩
  · rw [h]
    exact ⟨List.mem_cons_of_mem _ List.mem_cons_self, hat, hgrant⟩

/-- A change of the twin state touches, of object 0x2201, the state and three counters of its changes. -/
theorem State.twinSet_val_rest (s : State) (st : TwinSt) (x y : Nat) (h : quiet x y)
    (hk : ∀ k ∈ [1, 6, 7, 8], odKey x y ≠ odKey 0x2201 k) : (s.twinSet st).val x y = s.val x y := by
  simp only [List.forall_mem_cons, List.not_mem_nil, false_implies, implies_true, and_true] at hk
  obtain ⟨hstate, hdown, htaking, hfenced⟩ := hk
  unfold State.twinSet
  dsimp only
  split
  · rfl
  · simp only [apply_ite (fun t : State => t.val x y), State.raise_val _ _ _ _ _ _ h, State.bump_val_other _ _ _ _ _ _ hdown,
      State.bump_val_other _ _ _ _ _ _ htaking, State.bump_val_other _ _ _ _ _ _ hfenced, State.clearAlarm_val _ _ _ _ _ h,
      State.setVal_val_other _ _ _ _ _ _ hstate, ite_self]
    rfl

theorem State.selfFence_twin (s : State) : s.selfFence.twin = { s.twin with st := .selfFenced } :=
  ((State.toSafe_keeps (Within.refl _) 2 (.refl _ (s.twinSet .selfFenced))).twin_eq (by decide)).trans (s.twinSet_twin _)

theorem State.runTo_st (s : State) (st : RunSt) : (s.runTo st).run.st = st := by
  unfold State.runTo
  split
  next h => exact h
  next =>
    dsimp only
    rw [State.raise_run, State.bump_run]
    rfl

theorem State.runTo_val (s : State) (st : RunSt) (x y : Nat) (h : quiet x y) (hk : ∀ k ∈ [1, 3], odKey x y ≠ odKey 0x2000 k) :
    (s.runTo st).val x y = s.val x y := by
  simp only [List.forall_mem_cons, List.not_mem_nil, false_implies, implies_true, and_true] at hk
  unfold State.runTo
  split
  · rfl
  · dsimp only
    rw [State.raise_val _ _ _ _ _ _ h, State.bump_val_other _ _ _ _ _ _ hk.2, State.setVal_val_other _ _ _ _ _ _ hk.1]
    rfl

theorem State.switchOut_run (s : State) (j : Nat) : (s.switchOut j).run = s.run :=
  (State.switchOut_keeps (Within.refl _) j (.refl _ s)).run_eq (by decide)

theorem State.stopJobs_st (s : State) : s.stopJobs.run.st = s.run.st := by
  unfold State.stopJobs
  dsimp only
  split
  · split
    · rw [State.switchOut_run]
    · rfl
  · rfl

/-- SAFE is entered from WARMING to DRAINING (R393). -/
theorem State.toSafe_enters {s : State} (cause : Nat) (h : s.run.st ∈ [RunSt.warming, .ready, .serving, .draining]) :
    s.toSafe cause = ((s.runTo .safe).setVal 0x2000 6 cause).stopJobs := by
  refine if_pos ?_
  simp only [List.mem_cons, List.not_mem_nil, or_false] at h
  simpa [or_assoc] using h

theorem State.toSafe_stays {s : State} (cause : Nat) (h : s.run.st ∉ [RunSt.warming, .ready, .serving, .draining]) :
    s.toSafe cause = s := by
  refine if_neg ?_
  simp only [List.mem_cons, List.not_mem_nil, or_false] at h
  simpa [or_assoc] using h

theorem State.toSafe_val (s : State) (cause x y : Nat) (h : quiet x y) (hk : ∀ k ∈ [1, 3, 6], odKey x y ≠ odKey 0x2000 k) :
    (s.toSafe cause).val x y = s.val x y := by
  by_cases hst : s.run.st ∈ [RunSt.warming, .ready, .serving, .draining]
  · rw [State.toSafe_enters cause hst, (State.stopJobs_keeps (Within.refl _) (.refl _ _)).val_eq _ _ (by decide),
      State.setVal_val_other _ _ _ _ _ _ (hk 6 (by decide))]
    exact s.runTo_val _ _ _ h (fun k hk' => hk k (by revert hk'; simp; omega))
  · rw [State.toSafe_stays cause hst]

theorem State.selfFence_serving {s : State} (h : s.run.st = .serving) : s.selfFence.run.st = .safe := by
  have hrun := (s.twinSet_keeps_rest .selfFenced).run_eq (by decide)
  rw [State.selfFence, State.toSafe_enters 2 (by rw [hrun, h]; decide), State.stopJobs_st]
  exact State.runTo_st _ _

theorem State.selfFence_denials (s : State) : s.selfFence.val 0x2201 0x15 = s.val 0x2201 0x15 := by
  rw [State.selfFence, State.toSafe_val _ _ _ _ (by decide) (by decide), State.twinSet_val_rest _ _ _ _ (by decide) (by decide)]

-- probes and the relay (R334, R335)

theorem exec_probeInterval (dt : Nat) (s : State) : exec (.probeInterval dt) s = .next (s.elapse dt).probeAgain := rfl

/-- The answer to a probe of the partner. -/
def State.answerProbe (s : State) : State := s.sendControl (beNat (leBytes 16 (s.val 0x2200 3))) (s.frameOf 3 0xFF)

theorem exec_probe (dt : Nat) (src : BitVec 128) (f : TwinFrame) (s : State) :
    exec (.probe dt src f) s = .next ((s.elapse dt).onPath src 2 f State.answerProbe) := rfl
theorem exec_probeReply (dt : Nat) (src : BitVec 128) (f : TwinFrame) (s : State) :
    exec (.probeReply dt src f) s = .next ((s.elapse dt).onPath src 3 f (fun s => s.probeReply f)) := rfl

/-- Either command of a frame over the path waits for a frame of its own type. -/
theorem exec_onPath (dt : Nat) (src : BitVec 128) (f : TwinFrame) (s : State) :
    ∀ k ∈ [(Instr.probe dt src f, 2), (.probeReply dt src f, 3)],
      ∃ act, exec k.1 s = .next ((s.elapse dt).onPath src k.2 f act) := by
  simp only [List.forall_mem_cons]
  exact ⟨⟨_, exec_probe dt src f s⟩, ⟨_, exec_probeReply dt src f s⟩, fun k hk => absurd hk List.not_mem_nil⟩

/-- The twin states in which probes repeat. -/
theorem TwinSt.probes_iff (x : TwinSt) : (x = .suspect || x = .linkDown || x = .selfFenced) = true ↔
    x ∈ [TwinSt.suspect, .linkDown, .selfFenced] := by
  cases x <;> decide

section
variable {s : State} {src : BitVec 128} {type : Nat} {f : TwinFrame} {act : State → State}

theorem State.probeAgain_probes (h : s.twin.st ∈ [TwinSt.suspect, .linkDown, .selfFenced]) :
    s.probeAgain = s.sendProbe.twinQuery := if_pos (s.twin.st.probes_iff.2 h)

theorem State.probeAgain_not (h : s.twin.st ∉ [TwinSt.suspect, .linkDown, .selfFenced]) : s.probeAgain = s :=
  if_neg (fun hin => h (s.twin.st.probes_iff.1 hin))

theorem State.sendProbe_out (h : s.val 0x2200 3 ≠ 0) : ∃ fr, s.sendProbe.out =
    s.out ++ [.control (beNat (leBytes 16 (s.val 0x2200 3))) fr] ∧ fr.type = 2 := by
  unfold State.sendProbe
  dsimp only
  rw [if_neg h]
  exact ⟨_, rfl, rfl⟩

theorem State.onPath_absent
    (h : s.twin.st = .solo ∨ s.val 0x2200 3 = 0 ∨ src.toNat ≠ beNat (leBytes 16 (s.val 0x2200 3))) :
    s.onPath src type f act = s := by
  refine if_pos ?_
  rcases h with h | h | h <;> simp [h]

theorem State.onPath_hears (hst : s.twin.st ≠ .solo) (haddress : s.val 0x2200 3 ≠ 0)
    (hsrc : src.toNat = beNat (leBytes 16 (s.val 0x2200 3))) : s.onPath src type f act = s.take type f act :=
  if_neg (by simp [hst, haddress, hsrc])

variable {twin run : Nat} {fresh : Bool}

theorem partnerGone_iff : partnerGone twin run = true ↔ twin = 8 ∨ run ∈ [7, 8, 0, 0xFF] := by
  simp [partnerGone, or_assoc]

theorem State.told_gone (hst : s.twin.st = .suspect ∨ s.twin.st = .linkDown) (h : twin = 8 ∨ run ∈ [7, 8, 0, 0xFF]) :
    s.told_ twin run fresh = s.enterTakeover s.fenceTime := by
  have hgone := partnerGone_iff.2 h
  unfold State.told_
  rcases hst with hst | hst <;> simp [hst, hgone]

theorem State.told_suspect (hst : s.twin.st = .suspect) (htwin : twin ≠ 8) (hrun : run ∉ [7, 8, 0, 0xFF]) :
    s.told_ twin run fresh = if fresh then s.enterLinkDown else s := by
  have hthere : ¬ partnerGone twin run = true := fun h => (partnerGone_iff.1 h).elim htwin hrun
  unfold State.told_
  rw [if_pos hst, if_neg hthere]

theorem State.told_linkDown (hst : s.twin.st = .linkDown) (htwin : twin ≠ 8) (hrun : run ∉ [7, 8, 0, 0xFF]) :
    s.told_ twin run fresh = s := by
  have hthere : ¬ partnerGone twin run = true := fun h => (partnerGone_iff.1 h).elim htwin hrun
  unfold State.told_
  rw [if_neg (by simp [hst]), if_neg (by simp [hthere])]

theorem State.told_elsewhere (hsuspect : s.twin.st ≠ .suspect) (hdown : s.twin.st ≠ .linkDown) :
    s.told_ twin run fresh = s := by
  unfold State.told_
  rw [if_neg hsuspect, if_neg (by simp [hdown])]

theorem State.enterLinkDown_goodSince (s : State) : s.enterLinkDown.twin.goodSince = none :=
  (Twin.reads_of_contact s.enterLinkDown_contact).2.2.1

end

theorem exec_partnerStatus (dt : Nat) (road : Road) (value : BitVec 32) (s : State) : exec (.partnerStatus dt road value) s =
    .next ((s.elapse dt).writeRow road 0x2202 3 (leBytes 4 value.toNat)
      (State.partnerStatusAct (decide (road = .coe)) value.toNat)) := rfl

section
variable {s : State} {relay : Bool} {v : Nat}

theorem State.partnerStatusAct_kept (h : relay = false ∨ s.flag 0x2200 6 = false) :
    State.partnerStatusAct relay v s = (0, s.setVal 0x2202 3 v) := by
  refine if_pos ?_
  have hflag : (s.setVal 0x2202 3 v).flag 0x2200 6 = s.flag 0x2200 6 := by
    rw [State.setVal_flag, if_neg (by decide)]
  rcases h with h | h
  · simp [h]
  · simp [hflag, h]

theorem State.partnerStatusAct_reports (hrelay : relay = true) (hflag : s.flag 0x2200 6 = true) :
    State.partnerStatusAct relay v s = (0, (({ s.setVal 0x2202 3 v with
      twin := { s.twin with relayCounter := some (v / 65536) } } : State).told_ (v / 256 % 256) (v % 256)
        (s.twin.relayCounter.any (fun c => c != v / 65536)))) := by
  refine if_neg ?_
  have hkept : (s.setVal 0x2202 3 v).flag 0x2200 6 = s.flag 0x2200 6 := by
    rw [State.setVal_flag, if_neg (by decide)]
  simp [hrelay, hkept, hflag]

end

-- the witness (R336)

theorem exec_witnessClaim (dt : Nat) (s : State) : exec (.witnessClaim dt) s = .next (s.elapse dt).claim := rfl
theorem exec_witnessRelease (dt : Nat) (s : State) : exec (.witnessRelease dt) s = .next (s.elapse dt).releaseAgain := rfl
theorem exec_witnessGrant (dt : Nat) (src : BitVec 128) (f : TwinFrame) (s : State) : exec (.witnessGrant dt src f) s =
    .next ((s.elapse dt).onWitness src 9 f State.granted) := rfl
theorem exec_witnessDeny (dt : Nat) (src : BitVec 128) (f : TwinFrame) (s : State) : exec (.witnessDeny dt src f) s =
    .next ((s.elapse dt).onWitness src 10 f State.denied) := rfl

/-- Either command of a frame of the witness waits for one of its own type. -/
theorem exec_onWitness (dt : Nat) (src : BitVec 128) (f : TwinFrame) (s : State) :
    ∀ k ∈ [(Instr.witnessGrant dt src f, 9), (.witnessDeny dt src f, 10)], ∃ act : Bool → State → State,
      exec k.1 s = .next ((s.elapse dt).onWitness src k.2 f act) ∧
      (k.2 = 9 → act = State.granted) ∧ (k.2 = 10 → act = State.denied) := by
  simp only [List.forall_mem_cons]
  exact ⟨⟨_, exec_witnessGrant dt src f s, fun _ => rfl, nofun⟩, ⟨_, exec_witnessDeny dt src f s, nofun, fun _ => rfl⟩,
    fun k hk => absurd hk List.not_mem_nil⟩

section
variable {s : State}

theorem State.claim_not (h : s.twin.st ≠ .suspect ∨ s.val 0x2200 4 = 0 ∨ s.twin.probeAt = none) : s.claim = s := by
  unfold State.claim
  cases hprobe : s.twin.probeAt with
  | none => rfl
  | some g =>
    refine if_neg ?_
    rcases h with h | h | h
    · simp [h]
    · simp [h]
    · simp [h] at hprobe

theorem State.claim_early {g : Nat} (hprobe : s.twin.probeAt = some g) (h : s.ns < g + 500000) : s.claim = s := by
  simp [State.claim, hprobe, h.not_ge]

theorem State.claim_due {g : Nat} (hst : s.twin.st = .suspect) (hwitness : s.val 0x2200 4 ≠ 0) (hprobe : s.twin.probeAt = some g)
    (h : g + 500000 ≤ s.ns) : s.claim = s.sendWitness 8 := by
  simp [State.claim, hprobe, hst, hwitness, h]

variable {src : BitVec 128} {type : Nat} {f : TwinFrame} {act : Bool → State → State}

/-- The address is not the witness's. -/
theorem State.onWitness_absent (h : s.val 0x2200 4 = 0 ∨ src.toNat ≠ beNat (leBytes 16 (s.val 0x2200 4))) :
    s.onWitness src type f act = s := by
  refine if_pos ?_
  rcases h with h | h <;> simp [h]

theorem State.onWitness_discards (hwitness : s.val 0x2200 4 ≠ 0) (hsrc : src.toNat = beNat (leBytes 16 (s.val 0x2200 4)))
    (h : (∀ a ∈ s.twin.asked, a.1 ≠ f.sequence.toNat) ∨ frameValid f = false ∨ f.keyPrefix.toNat ≠ ownKey ∨
      f.pairId.toNat ≠ s.pairId ∨ (f.type.toNat ≠ 9 ∧ f.type.toNat ≠ 10)) :
    s.onWitness src type f act = s.bump 0x2201 0x14 1 := by
  unfold State.onWitness
  rw [if_neg (by simp [hwitness, hsrc])]
  dsimp only
  cases hasked : s.twin.asked.find? (fun a => a.1 = f.sequence.toNat) with
  | none => rfl
  | some a =>
    refine if_neg ?_
    rcases h with h | h | h | h | h
    · exact absurd (by simpa using List.find?_some hasked) (h a (List.mem_of_find?_eq_some hasked))
    all_goals simp [h]

/-- The frame answers a claim or release still open, which is open no longer. -/
def State.noteAnswer (s : State) (sequence : Nat) : State :=
  { s with twin := { s.twin with asked := s.twin.asked.filter (fun x => x.1 != sequence) } }

theorem State.onWitness_answers (hwitness : s.val 0x2200 4 ≠ 0) (hsrc : src.toNat = beNat (leBytes 16 (s.val 0x2200 4))) {c : Bool}
    (hasked : s.twin.asked.find? (fun a => a.1 = f.sequence.toNat) = some (f.sequence.toNat, c)) (hvalid : frameValid f = true)
    (hkey : f.keyPrefix.toNat = ownKey) (hpair : f.pairId.toNat = s.pairId) (htype : f.type.toNat = type)
    (hanswer : type = 9 ∨ type = 10) : s.onWitness src type f act = act c (s.noteAnswer f.sequence.toNat) := by
  unfold State.onWitness
  rw [if_neg (by simp [hwitness, hsrc])]
  dsimp only
  rw [hasked]
  dsimp only
  rw [if_pos (by simp [hvalid, hkey, hpair, htype, hanswer]), if_neg (by simp [htype])]
  rfl

/-- A grant of a claim confirms the loss in SUSPECT. -/
theorem State.granted_claim : (s.granted true).twin.grant = true ∧
    (s.twin.st = .suspect → (s.granted true).twin.st ∈ [TwinSt.takingOver, .degraded] ∧
      (s.granted true).twin.takeoverAt = s.ns) ∧
    (s.twin.st ≠ .suspect → (s.granted true).twin.st = s.twin.st) := by
  unfold State.granted
  rw [if_pos rfl]
  dsimp only
  by_cases h : s.twin.st = .suspect
  · obtain ⟨hst, hat, hgrant⟩ := State.enterTakeover_effect { s with twin := { s.twin with grant := true } }
      (State.fenceTime { s with twin := { s.twin with grant := true } })
    rw [if_pos h]
    exact ⟨hgrant, fun _ => ⟨hst, hat⟩, fun hne => absurd h hne⟩
  · rw [if_neg h]
    exact ⟨rfl, fun hsuspect => absurd hsuspect h, fun _ => rfl⟩

theorem State.denied_effect (c : Bool) : (s.denied c).val 0x2201 0x15 = wrapAdd 8 (s.val 0x2201 0x15) 1 ∧
    (s.denied c).twin.st = if s.twin.st = .suspect then .selfFenced else s.twin.st := by
  have hcounts := State.bump_counts (i := 0x2201) (k := 0x15) (n := 8) (by decide) s one_ne_zero
  unfold State.denied
  dsimp only
  rw [State.bump_twin]
  by_cases h : s.twin.st = .suspect
  · rw [if_pos h, if_pos h, State.selfFence_twin, State.selfFence_denials]
    exact ⟨hcounts, rfl⟩
  · rw [if_neg h, if_neg h, State.bump_twin]
    exact ⟨hcounts, rfl⟩

-- the confirm window and the fence time (R335, R337)

theorem exec_confirmWindow (dt : Nat) (s : State) : exec (.confirmWindow dt) s = .next (s.elapse dt).confirmEnd := rfl
theorem exec_fenceGuard (dt : Nat) (s : State) : exec (.fenceGuard dt) s =
    .next (if (s.elapse dt).fenceTime ≤ (s.elapse dt).ns then (s.elapse dt).releaseFence else s.elapse dt) := rfl

theorem State.confirmEnd_not (h : s.twin.st ≠ .suspect ∨ s.ns < s.twin.suspectAt + 1000 * s.val 0x2200 8) : s.confirmEnd = s := by
  refine if_neg ?_
  rcases h with h | h
  · simp [h]
  · simp [h]

theorem State.confirmEnd_due (hst : s.twin.st = .suspect) (h : s.twin.suspectAt + 1000 * s.val 0x2200 8 ≤ s.ns) :
    s.confirmEnd = s.selfFence := if_pos (by simp [hst, h])

theorem State.releaseFence_held (s : State) : s.releaseFence.twin.fenceHeld = [] :=
  foldl_reads (fun s : State => s.twin.fenceHeld) (fun t h =>
    congrArg Twin.fenceHeld ((State.deliverBare_keeps (Within.refl _) _ _ _ _ (.refl _ t)).twin_eq (by decide))) _ _

-- GOODBYE (R331, R347)

variable {i : Nat}

theorem State.goodbye_not (h : i ∉ s.twin.usable ∨ s.twin.st ∉ [TwinSt.paired, .syncing, .linkDown]) : s.goodbye i = s := by
  refine if_neg ?_
  rcases h with h | h
  · simp [h]
  · simp only [List.mem_cons, List.not_mem_nil, or_false] at h
    simp only [Bool.and_eq_true, Bool.or_eq_true, decide_eq_true_eq, or_assoc]
    exact fun hboth => h hboth.2

theorem State.goodbye_takesOver (husable : i ∈ s.twin.usable) (h : s.twin.st ∈ [TwinSt.paired, .syncing, .linkDown]) :
    s.goodbye i = s.enterTakeover 0 := by
  refine if_pos ?_
  simp only [List.mem_cons, List.not_mem_nil, or_false] at h
  simpa [husable, or_assoc] using h

end

/-- Settles O46, one case for each of its clauses. Run state 0xFF for a partner that is absent, the relay of the EtherCAT master alone and
the grant that is kept are log entry 40, that a takeover ends in DEGRADED is log entry 23. -/
theorem twinsConfirmALoss : Obligations.TwinsConfirmALoss := by
  refine ⟨?probes, ?path, ?told, ?relay, ?asks, ?answers, ?window, ?goodbye⟩
  case probes =>
    rintro s b dt hb
    rw [exec_probeInterval, ← hb]
    exact ⟨fun hin => by rw [State.probeAgain_probes hin], fun hout => by rw [State.probeAgain_not hout], State.sendProbe_out⟩
  case path =>
    rintro s b dt src f hb k hk
    obtain ⟨act, hexec⟩ := exec_onPath dt src f s k hk
    rw [hexec, exec_probe, exec_probeReply, ← hb]
    refine ⟨fun habsent => by rw [State.onPath_absent habsent], fun hst haddress hsrc => ?_⟩
    simp only [State.onPath_hears hst haddress hsrc]
    refine ⟨fun hforeign => by rw [State.take_foreign hforeign], fun hours htype => by rw [State.take_otherType hours htype],
      fun hours htype => ?_, fun hours htype => ?_⟩
    · rw [State.take_acts hours htype, hsrc]
      exact ⟨_, _, rfl, rfl, rfl, rfl⟩
    · rw [State.take_acts hours htype, State.probeReply]
      refine ⟨fun hfree => by rw [if_neg hfree], fun hfenced => ⟨_, rfl, ?_⟩⟩
      rw [if_pos hfenced]
      split
      next hpartner =>
        obtain ⟨m, hm⟩ := b.regain_rejoins hpartner
        rw [hm]
        exact m.enterSyncing_effect.1
      next hpartner => rw [b.regain_waits hpartner, hfenced]
  case told =>
    rintro s twin run fresh
    refine ⟨fun hst hgone => ?_, fun hst htwin hrun => ?_, fun hst htwin hrun => State.told_linkDown hst htwin hrun,
      fun hsuspect hdown => State.told_elsewhere hsuspect hdown⟩
    · rw [State.told_gone hst hgone]
      obtain ⟨hstate, hat, -⟩ := s.enterTakeover_effect s.fenceTime
      exact ⟨hstate, hat⟩
    · rw [State.told_suspect hst htwin hrun]
      refine ⟨fun hfresh => ?_, fun hstale => if_neg (ne_true_of_eq_false hstale)⟩
      rw [if_pos hfresh]
      exact ⟨s.enterLinkDown_effect.1, s.enterLinkDown_goodSince⟩
  case relay =>
    rintro s b m dt v road value hb rfl hadmits rfl
    rw [exec_partnerStatus, ← hb, State.writeRow_admitted hadmits]
    refine ⟨fun hnone => ?_, fun hcoe hflag => ?_⟩
    · rw [State.partnerStatusAct_kept (hnone.imp (fun h => decide_eq_false h) id)]
    · rw [State.partnerStatusAct_reports (decide_eq_true hcoe) hflag]
      rfl
  case asks =>
    rintro s b dt hb
    rw [exec_witnessClaim, exec_witnessRelease, ← hb]
    refine ⟨fun hnot => by rw [State.claim_not hnot], fun g hst hwitness hprobe => ⟨fun hearly => by
      rw [State.claim_early hprobe hearly], fun hdue => ?_⟩, fun hnone => by rw [State.releaseAgain, if_neg (ne_true_of_eq_false hnone)],
      fun hreleases => ?_⟩
    · rw [State.claim_due hst hwitness hprobe hdue]
      exact ⟨_, _, rfl, rfl, rfl, rfl, rfl⟩
    · rw [State.releaseAgain, if_pos hreleases]
      exact ⟨_, _, rfl, rfl, rfl, rfl⟩
  case answers =>
    rintro s b dt src f hb k hk
    obtain ⟨act, hexec, hgrants, hdenies⟩ := exec_onWitness dt src f s k hk
    rw [hexec, ← hb]
    refine ⟨fun habsent => by rw [State.onWitness_absent habsent], fun hwitness hsrc => ⟨fun hother => by
      rw [State.onWitness_discards hwitness hsrc hother], fun c hasked hvalid hkey hpair htype => ?_⟩⟩
    refine ⟨fun h9 hc => ?_, fun h9 hc => ?_, fun h10 => ?_⟩
    · rw [State.onWitness_answers hwitness hsrc hasked hvalid hkey hpair htype (.inl h9), hgrants h9, hc]
      exact ⟨_, rfl, (b.noteAnswer f.sequence.toNat).granted_claim⟩
    · rw [State.onWitness_answers hwitness hsrc hasked hvalid hkey hpair htype (.inl h9), hgrants h9, hc]
      exact ⟨_, rfl, rfl, rfl, rfl⟩
    · rw [State.onWitness_answers hwitness hsrc hasked hvalid hkey hpair htype (.inr h10), hdenies h10]
      exact ⟨_, rfl, (b.noteAnswer f.sequence.toNat).denied_effect c⟩
  case window =>
    rintro s b dt hb
    rw [exec_confirmWindow, exec_fenceGuard, ← hb]
    refine ⟨fun hnot => by rw [State.confirmEnd_not hnot], fun hst hdue => ?_, fun hearly => ?_, fun hdue => ?_⟩
    · rw [State.confirmEnd_due hst hdue]
      exact ⟨_, rfl, congrArg Twin.st b.selfFence_twin, State.selfFence_serving⟩
    · rw [if_neg (show ¬ b.fenceTime ≤ b.ns from Nat.not_le.2 hearly)]
    · rw [if_pos (show b.fenceTime ≤ b.ns from hdue)]
      exact ⟨_, rfl, b.releaseFence_held, rfl⟩
  case goodbye =>
    rintro s b dt i f hb hst hport hours htype
    rw [exec_goodbye, ← hb, State.onTwinPort_hears hst hport, State.take_acts hours htype]
    refine ⟨fun hnot => by rw [State.goodbye_not hnot], fun husable hstate => ?_⟩
    obtain ⟨htaken, hat, -⟩ := b.enterTakeover_effect 0
    rw [State.goodbye_takesOver husable hstate]
    exact ⟨_, rfl, htaken, hat⟩

end Sys2Proof.Machine
end

section
/-! Mirrors, the token log, checkpoints, cross-checks, handover and the end of a pair (R339 to R343, R345, R347, R349): the statement
O47. -/

namespace Sys2Proof.Machine

theorem exec_tokenLogEntry (dt : Nat) (e : LogEntry) (s : State) : exec (.tokenLogEntry dt e) s =
    .next (if (s.elapse dt).twin.st.logs then (s.elapse dt).takeLog e else s.elapse dt) := rfl
theorem exec_tokenLogAck (dt seq : Nat) (s : State) : exec (.tokenLogAck dt seq) s =
    .next (if (s.elapse dt).twin.st.logs && seq ≤ (s.elapse dt).twin.logSeq then (s.elapse dt).logAcks seq else s.elapse dt) := rfl
theorem exec_checkpointReceived (dt : Nat) (k : Checkpoint) (s : State) : exec (.checkpointReceived dt k) s =
    .next (if (s.elapse dt).twin.st.logs then ((s.elapse dt).takeCheckpoint k).settlePair else s.elapse dt) := rfl
theorem exec_checkpointAck (dt : Nat) (n : BitVec 16) (s : State) : exec (.checkpointAck dt n) s =
    .next (if (s.elapse dt).twin.st.logs then (s.elapse dt).checkpointAcked n.toNat else s.elapse dt) := rfl
theorem exec_crossCheckRecord (dt : Nat) (r : CrossCheck) (s : State) : exec (.crossCheckRecord dt r) s =
    .next (if (s.elapse dt).twin.st.logs then (s.elapse dt).crossRecord r else s.elapse dt) := rfl
theorem exec_crossCheckTimeout (dt : Nat) (s : State) : exec (.crossCheckTimeout dt) s = .next (s.elapse dt).dropRecords := rfl
theorem exec_adoptionFromBacklog (dt : Nat) (s : State) :
    exec (.adoptionFromBacklog dt) s = .next (s.elapse dt).adoptBacklog.settleTakeover := rfl
theorem exec_handover (dt : Nat) (road : Road) (s : State) : exec (.handover dt road) s =
    .next ((s.elapse dt).writeRow road 0x2202 1 [2] State.handoverAct) := rfl
theorem exec_unpair (dt : Nat) (road : Road) (s : State) : exec (.unpair dt road) s =
    .next ((s.elapse dt).writeRow road 0x2202 1 [1] State.unpairAct) := rfl

theorem TwinSt.logs_iff (x : TwinSt) : x.logs = true ↔ x = .syncing ∨ x = .paired := by cases x <;> decide

-- mirrors (R341)

theorem State.dropMirror_twin (s : State) (n : Nat) :
    (s.dropMirror n).twin = { s.twin with mirrors := s.twin.mirrors.filter (fun m => m.ckpt.stream != n) } := by
  have h : ((s.freePages (mirrorKey n)).freeStream (mirrorKey n)).twin = s.twin :=
    ((State.freeStream_keeps (Within.refl _) _ (.refl _ _)).twin_eq (by decide)).trans
      ((State.freePages_keeps (Within.refl _) _ (.refl _ s)).twin_eq (by decide))
  unfold State.dropMirror
  dsimp only
  rw [h]

theorem State.withMirror_mem (s : State) (n : Nat) : ∃ m ∈ (s.withMirror n).twin.mirrors, m.ckpt.stream = n := by
  unfold State.withMirror
  split
  next h =>
    obtain ⟨m, hm, hn⟩ := List.any_eq_true.1 h
    exact ⟨m, hm, of_decide_eq_true hn⟩
  next => exact ⟨_, List.mem_append_right _ (List.mem_singleton_self _), rfl⟩

theorem State.withMirror_twin (s : State) (n : Nat) :
    (s.withMirror n).twin = { s.twin with mirrors := (s.withMirror n).twin.mirrors } := by
  unfold State.withMirror
  split <;> rfl

/-- After a change of the mirrors of a stream there is still one, and each has been changed. -/
theorem State.modMirror_mem {s : State} {n : Nat} {f : Mirror → Mirror} (hf : ∀ m, m.ckpt.stream = n → (f m).ckpt.stream = n)
    (h : ∃ m ∈ s.twin.mirrors, m.ckpt.stream = n) : (∃ m ∈ (s.modMirror n f).twin.mirrors, m.ckpt.stream = n) ∧
      ∀ m ∈ (s.modMirror n f).twin.mirrors, m.ckpt.stream = n → ∃ x, m = f x := by
  have hmap : (s.modMirror n f).twin.mirrors = s.twin.mirrors.map (fun m => if m.ckpt.stream = n then f m else m) := rfl
  rw [hmap]
  refine ⟨?_, fun m hm hn => ?_⟩
  · obtain ⟨m, hm, hn⟩ := h
    exact ⟨f m, List.mem_map.2 ⟨m, hm, if_pos hn⟩, hf m hn⟩
  · obtain ⟨x, -, rfl⟩ := List.mem_map.1 hm
    by_cases hx : x.ckpt.stream = n
    · exact ⟨x, if_pos hx⟩
    · rw [if_neg hx] at hn
      exact absurd hn hx

-- the log (R339)

section
variable {s : State} {e : LogEntry}

theorem State.takeLog_closed (h : e.item = .closed) : s.takeLog e =
    ({ s.dropMirror e.stream with twin := { (s.dropMirror e.stream).twin with
      partnerAcked := max (s.dropMirror e.stream).twin.partnerAcked e.seq } } : State).emit (.logAck e.seq) := by
  unfold State.takeLog
  rw [h]

/-- The entry is kept with the mirror of its stream. -/
def State.keepLog (s : State) (e : LogEntry) : State :=
  (s.withMirror e.stream).modMirror e.stream (fun m => { m with log := m.log ++ [e] })

theorem State.takeLog_kept (h : e.item ≠ .closed) : s.takeLog e =
    ({ s.keepLog e with twin := { (s.keepLog e).twin with
      partnerAcked := max (s.keepLog e).twin.partnerAcked e.seq } } : State).emit (.logAck e.seq) := by
  unfold State.takeLog
  generalize e.item = item at h
  cases item
  case closed => exact absurd rfl h
  all_goals rfl

theorem State.keepLog_mirrors (s : State) (e : LogEntry) : (∃ m ∈ (s.keepLog e).twin.mirrors, m.ckpt.stream = e.stream) ∧
    ∀ m ∈ (s.keepLog e).twin.mirrors, m.ckpt.stream = e.stream → e ∈ m.log := by
  obtain ⟨hsome, hchanged⟩ := State.modMirror_mem (f := fun m => { m with log := m.log ++ [e] }) (fun _ h => h)
    (s.withMirror_mem e.stream)
  refine ⟨hsome, fun m hm hn => ?_⟩
  obtain ⟨x, rfl⟩ := hchanged m hm hn
  exact List.mem_append_right _ (List.mem_singleton_self e)

theorem State.keepLog_partnerAcked (s : State) (e : LogEntry) : (s.keepLog e).twin.partnerAcked = s.twin.partnerAcked := by
  have h : (s.keepLog e).twin.partnerAcked = (s.withMirror e.stream).twin.partnerAcked := rfl
  rw [h, State.withMirror_twin]

theorem State.keepLog_out (s : State) (e : LogEntry) : (s.keepLog e).out = s.out :=
  ((State.modMirror_keeps (Within.refl _) _ _ (.refl _ _)).out_eq (by decide)).trans
    ((State.withMirror_keeps (Within.refl _) _ (.refl _ s)).out_eq (by decide))

/-- What waited for an acknowledged entry waits no longer. -/
theorem State.logAcks_effect (s : State) (seq : Nat) : (s.logAcks seq).twin.logAcked = max s.twin.logAcked seq ∧
    (s.logAcks seq).twin.held = s.twin.held.filter (fun h => seq < h.log.seq) := by
  have h : (s.logAcks seq).twin = { s.twin with
      logAcked := max s.twin.logAcked seq, held := s.twin.held.filter (fun h => seq < h.log.seq) } :=
    foldl_reads State.twin (fun t h => (State.postTo_keeps (Within.refl _) _ _ _ (.refl _ t)).twin_eq (by decide)) _ _
  rw [h]
  exact ⟨rfl, rfl⟩

end

-- the frames of a job (R243, R341): taking some changes no area and no size

/-- A job but for the frames taken of it. -/
def Job.form (j : Job) : Job := { j with pages := [], nodes := [] }

/-- Every job has kept its form. -/
def State.SameForms (s t : State) : Prop := ∀ i, (t.job i).form = (s.job i).form

theorem State.SameForms.trans {s t u : State} (hst : s.SameForms t) (htu : t.SameForms u) : s.SameForms u :=
  fun i => (htu i).trans (hst i)

theorem State.sameForms_of_jobs {s t : State} (h : t.jobs = s.jobs) : s.SameForms t := fun i => by
  rw [State.job, State.job, h]

theorem State.SameForms.withMem {s t : State} (h : s.SameForms t) (m : Mem) : s.SameForms { t with mem := m } := h

theorem State.SameForms.withStreams {s t : State} (h : s.SameForms t) (x : Tbl Stream) : s.SameForms { t with streams := x } := h

theorem State.modJob_sameForms {f : Job → Job} (hf : ∀ x, (f x).form = x.form) (s : State) (j : Nat) : s.SameForms (s.modJob j f) := by
  intro i
  rw [State.modJob_job]
  split
  next h => rw [hf, h]
  next => rfl

theorem State.takeFrame_sameForms {s : State} {j : Nat} {k : FrameKind} {r : Nat × State} (h : s.takeFrame j k = some r) :
    s.SameForms r.2 := by
  simp only [State.takeFrame] at h
  split at h
  · cases h
  · split at h
    · cases h
    · obtain rfl := Option.some.inj h
      dsimp only
      have hfree : s.SameForms s.takeFree := State.sameForms_of_jobs rfl
      split
      · refine .withMem (hfree.trans (State.modJob_sameForms (fun x => ?_) s.takeFree j)) _
        cases k <;> rfl
      · refine hfree.trans (State.modJob_sameForms (fun x => ?_) s.takeFree j)
        cases k <;> rfl

theorem State.makePage_sameForms {j block d : Nat} : ∀ {s r : State} {slot : Nat}, s.makePage j block slot d = some r →
    s.SameForms r := by
  induction d with
  | zero =>
    intro s r slot h
    simp only [State.makePage] at h
    split at h
    · obtain rfl := Option.some.inj h
      exact fun i => rfl
    · obtain ⟨x, hx, rfl⟩ := Option.map_eq_some_iff.1 h
      exact (State.takeFrame_sameForms hx).withMem _
  | succ d ih =>
    intro s r slot h
    simp only [State.makePage] at h
    split at h
    · exact ih h
    · split at h
      · cases h
      next x hx =>
        have htaken := State.takeFrame_sameForms hx
        exact (htaken.withMem _).trans (ih h)

/-- What holds of each state that a fold over partial steps reaches. -/
theorem foldl_option_of {α : Type} {P : State → Prop} {f : Option State → α → Option State} {xs : List α} {o : Option State}
    {r : State} (h : xs.foldl f o = some r) (hstart : ∀ t, o = some t → P t)
    (hstep : ∀ o x, (∀ t, o = some t → P t) → ∀ t, f o x = some t → P t) : P r :=
  List.foldlRecOn xs f (motive := fun o : Option State => ∀ t, o = some t → P t) hstart (fun o ho x _ => hstep o x ho) r h

theorem State.raiseDepth_sameForms {s r : State} {j n : Nat} (h : s.raiseDepth j n = some r) : s.SameForms r := by
  obtain ⟨x, hx, rfl⟩ := Option.map_eq_some_iff.1 h
  suffices h : s.SameForms x from h.trans (State.sameForms_of_jobs rfl)
  refine foldl_option_of hx ?_ ?_
  · rintro t ⟨⟩
    exact fun i => rfl
  · rintro o l ho t ht
    dsimp only at ht
    split at ht
    · cases ht
    next u =>
      have hu := ho u rfl
      split at ht
      · obtain rfl := Option.some.inj ht
        exact hu
      · split at ht
        · cases ht
        next y hy =>
          obtain rfl := Option.some.inj ht
          exact .withMem (hu.trans (State.takeFrame_sameForms hy)) _

theorem State.deepen_sameForms {j n top f : Nat} : ∀ {s r : State}, s.deepen j n top f = some r → s.SameForms r := by
  induction f with
  | zero =>
    intro s r h
    obtain rfl := Option.some.inj h
    exact fun i => rfl
  | succ f ih =>
    intro s r h
    simp only [State.deepen] at h
    split at h
    · obtain rfl := Option.some.inj h
      exact fun i => rfl
    · split at h
      · cases h
      next x hx => exact (State.raiseDepth_sameForms hx).trans (ih h)

theorem State.makePages_sameForms {s r : State} {j n layer a b : Nat} (h : s.makePages j n layer a b = some r) :
    s.SameForms r := by
  simp only [State.makePages] at h
  split at h
  · cases h
  next t ht =>
    have hrooted : s.SameForms t := by
      split at ht
      · obtain rfl := Option.some.inj ht
        exact fun i => rfl
      · obtain ⟨x, hx, rfl⟩ := Option.map_eq_some_iff.1 ht
        exact State.takeFrame_sameForms hx
    split at h
    · cases h
    next u hu =>
      refine foldl_option_of (P := s.SameForms) h ?_ ?_
      · rintro v ⟨⟩
        exact hrooted.trans (State.deepen_sameForms hu)
      · rintro o i ho v hv
        split at hv
        · cases hv
        next w => exact (ho w rfl).trans (State.makePage_sameForms hv)

theorem State.storePage_sameForms {s r : State} {j key : Nat} {p : CkptPage} (h : s.storePage j key p = some r) :
    s.SameForms r := by
  unfold State.storePage at h
  split at h
  · cases h
  next t ht =>
    obtain rfl := Option.some.inj h
    exact .withMem (State.makePages_sameForms ht) _

/-- All frames of a job follow from its form and the units. -/
theorem State.jobFrames_congr {s t : State} (hforms : s.SameForms t) (hunits : t.units = s.units) (j : Nat) :
    t.jobFrames j = s.jobFrames j := by
  have harea : ∀ k m, t.areaFrames j k m = s.areaFrames j k m := by
    intro k m
    have hunit : t.unit (stackRef m) = s.unit (stackRef m) := by rw [State.unit, State.unit, hunits]
    have hbytes : (t.job j).frameBytes k = (s.job j).frameBytes k := by
      have h := congrArg (fun x : Job => x.frameBytes k) (hforms j)
      cases k <;> exact h
    have hspan : (t.job j).area k m = (s.job j).area k m := by
      have h := congrArg (fun x : Job => x.area k m) (hforms j)
      cases k <;> exact h
    simp only [State.areaFrames, hunit, hbytes, hspan]
  have hall : ∀ k, t.allFrames j k = s.allFrames j k := fun k => congrArg List.sum (List.map_congr_left (fun m _ => harea k m))
  rw [State.jobFrames, State.jobFrames, hall, hall]

-- checkpoints (R340, R341)

theorem State.storeCheckpoint_noJob {s : State} {k : Checkpoint} (h : s.jobWithCode k.jobCode.toNat = none) :
    s.storeCheckpoint k = none := by
  unfold State.storeCheckpoint
  rw [h]

/-- A checkpoint that is stored stands whole with its stream's mirror, within the share of the job's frames. -/
theorem State.storeCheckpoint_effect {s m : State} {k : Checkpoint} (h : s.storeCheckpoint k = some m) :
    (∃ x ∈ m.twin.mirrors, x.ckpt.stream = k.stream) ∧
    (∀ x ∈ m.twin.mirrors, x.ckpt.stream = k.stream → x.ckpt = { k with pages := [] } ∧ x.have_ = true) ∧
    ∃ j : Nat, s.jobWithCode k.jobCode.toNat = some j ∧ m.mirrorFrames j * 1000 ≤ m.val 0x2200 0xC * m.jobFrames j := by
  have hod := (State.storeCheckpoint_keeps (Within.refl _) k h (.refl _ s)).val_eq 0x2200 0xC (by decide)
  have hunits := (State.storeCheckpoint_keeps (Within.refl _) k h (.refl _ s)).units_eq (by decide)
  unfold State.storeCheckpoint at h
  split at h
  · cases h
  next j hj =>
    dsimp only at h
    split at h
    · cases h
    next t ht =>
      have hstored : t.twin = (s.withMirror k.stream).twin ∧ s.SameForms t :=
        foldl_option_of (P := fun u => u.twin = (s.withMirror k.stream).twin ∧ s.SameForms u) ht ?start ?step
      · obtain ⟨htwin, hforms⟩ := hstored
        obtain ⟨hwithin, hm⟩ := Option.ite_none_right_eq_some.1 h
        obtain rfl := Option.some.inj hm
        obtain ⟨hsome, hchanged⟩ := State.modMirror_mem (s := t.recountFrames _ _) (n := k.stream)
          (f := fun x => { x with ckpt := { k with pages := [] }, have_ := true, job := j
                                  log := x.log.filter (fun e => k.position < e.position) })
          (fun _ _ => rfl) (by
            have hrecounted : ∀ n d, (t.recountFrames n d).twin = t.twin := fun n d =>
              (State.recountFrames_keeps (Within.refl _) n d (.refl _ t)).twin_eq (by decide)
            rw [hrecounted, htwin]
            exact s.withMirror_mem k.stream)
        refine ⟨hsome, fun x hx hn => ?_, j, hj, ?_⟩
        · obtain ⟨y, rfl⟩ := hchanged x hx hn
          exact ⟨rfl, rfl⟩
        · have hjob : (s.withMirror k.stream).jobFrames j = s.jobFrames j :=
            State.jobFrames_congr (State.sameForms_of_jobs ((State.withMirror_keeps (Within.refl _) _ (.refl _ s)).jobs_eq (by decide)))
              ((State.withMirror_keeps (Within.refl _) _ (.refl _ s)).units_eq (by decide)) j
          have hval := (State.withMirror_keeps (Within.refl _) k.stream (.refl _ s)).val_eq 0x2200 0xC (by decide)
          rw [hval, hjob] at hwithin
          rw [hod]
          rwa [State.jobFrames_congr (s := s) (by exact hforms) hunits j]
      case start =>
        rintro u ⟨⟩
        exact ⟨rfl, State.sameForms_of_jobs ((State.withMirror_keeps (Within.refl _) _ (.refl _ s)).jobs_eq (by decide))⟩
      case step =>
        rintro o p ho u hu
        split at hu
        · cases hu
        next v =>
          obtain ⟨htwin, hforms⟩ := ho v rfl
          exact ⟨((State.storePage_keeps (Within.refl _) j _ p hu (.refl _ v)).twin_eq (by decide)).trans htwin,
            hforms.trans (State.storePage_sameForms hu)⟩

theorem State.checkpointAcked_none {s : State} {n : Nat} (h : (s.stream n).ckptWait = none) : s.checkpointAcked n = s := by
  unfold State.checkpointAcked
  rw [h]

theorem State.checkpointAcked_some {s : State} {n p : Nat} (h : (s.stream n).ckptWait = some p) : s.checkpointAcked n =
    (s.modStream n (fun c => { c with ckptSeq := c.ckptSeq + 1, ckptPosition := p, ckptWait := none, ckptAcked := true
                                      bare := false })).settlePair.advance := by
  unfold State.checkpointAcked
  rw [h]

-- cross-checks (R342)

theorem State.mem_crossBanks (s : State) (r : CrossCheck) (c e p : Nat) :
    (c, e, p) ∈ s.crossBanks r ↔ c < 16 ∧ e < 34 ∧ p < 2 ∧ ((s.eng c e).plane p).matchesRecord r = true := by
  simp only [State.crossBanks, List.mem_flatMap, List.mem_range, List.mem_filterMap, Option.ite_none_right_eq_some,
    Option.some.injEq, Prod.mk.injEq]
  constructor
  · rintro ⟨c', hc, e', he, p', hp, hmatches, rfl, rfl, rfl⟩
    exact ⟨hc, he, hp, hmatches⟩
  · rintro ⟨hc, he, hp, hmatches⟩
    exact ⟨c, hc, e, he, p, hp, hmatches, rfl, rfl, rfl⟩

theorem State.crossRecord_kept {s : State} {r : CrossCheck} (h : s.crossBanks r = []) :
    s.crossRecord r = { s with twin := { s.twin with records := s.twin.records ++ [(r, s.ns)] } } := by
  unfold State.crossRecord
  rw [h]

theorem State.crossRecord_compares {s : State} {r : CrossCheck} (h : s.crossBanks r ≠ []) :
    s.crossRecord r = (s.crossBanks r).foldl (fun s x => s.compareSums x.1 x.2.1 x.2.2 r) s := by
  unfold State.crossRecord
  split
  next hnone => exact absurd hnone h
  next => rfl

theorem State.dropRecords_records (s : State) :
    s.dropRecords.twin.records = s.twin.records.filter (fun x => !decide (x.2 + 10000000000 < s.ns)) := by
  unfold State.dropRecords
  dsimp only
  rw [State.bump_twin]

-- adoption (R343, R345)

theorem State.freeContext_congr {s t : State} (h : t.streams = s.streams) : t.freeContext = s.freeContext := by
  unfold State.freeContext
  rw [h]

/-- Without a free context nothing is adopted. -/
theorem State.adoptAll_full {s : State} (h : s.freeContext = none) (hold : Nat) : (s.adoptAll hold).streams = s.streams := by
  unfold State.adoptAll
  refine List.foldlRecOn _ _ (motive := fun t : State => t.streams = s.streams) rfl (fun t ht m _ => ?_)
  rw [State.freeContext_congr ht, h]
  exact ht

theorem State.adoptBacklog_not {s : State} (htaking : s.twin.st ≠ .takingOver) (hdegraded : s.twin.st ≠ .degraded) :
    s.adoptBacklog.settleTakeover = s := by
  have h : s.adoptBacklog = s := if_neg (by simp [htaking, hdegraded])
  rw [h]
  exact if_neg (by simp [htaking])

theorem State.adoptBacklog_adopts {s : State} (h : s.twin.st = .takingOver ∨ s.twin.st = .degraded) :
    s.adoptBacklog = s.adoptAll s.ns := if_pos (by simpa using h)

theorem State.settleTakeover_streams (s : State) : s.settleTakeover.streams = s.streams :=
  (State.settleTakeover_keeps (Within.refl _) (.refl _ s)).streams_eq (by decide)

/-- A device that has taken over stays so. -/
theorem State.settleTakeover_st {s : State} (h : s.twin.st = .takingOver ∨ s.twin.st = .degraded) :
    s.settleTakeover.twin.st ∈ [TwinSt.takingOver, .degraded] := by
  rcases s.settleTakeover_twin with heq | ⟨-, heq⟩
  · rw [heq]
    simpa using h
  · rw [heq]
    exact List.mem_cons_of_mem _ List.mem_cons_self

-- handover and the end of a pair (R347, R349)

section
variable {s : State}

theorem State.handoverAct_begins (hst : s.twin.st = .paired) (hnone : s.twin.handover = 0) :
    State.handoverAct s = (0, (s.beginHandover false).onHandover) := if_pos (by simp [hst, hnone])

theorem State.handoverAct_refused (h : s.twin.st ≠ .paired ∨ s.twin.handover ≠ 0) : State.handoverAct s = (abState, s) := by
  refine if_neg ?_
  rcases h with h | h <;> simp [h]

theorem State.unpairAct_leaves (hsolo : s.twin.st ≠ .solo) (hfenced : s.twin.st ≠ .selfFenced) :
    State.unpairAct s = (0, s.unpairNow) := if_neg (by simp [hsolo, hfenced])

theorem State.unpairAct_refused (h : s.twin.st = .solo ∨ s.twin.st = .selfFenced) : State.unpairAct s = (abState, s) :=
  if_pos (by simpa using h)

end

/-- Settles O47, one case for each of its clauses. That UNPAIR received does what UNPAIR does, and when a handover is over, are log entry
39; what a mirror keeps is log entry 60. -/
theorem mirrorsHandoverAndUnpair : Obligations.MirrorsHandoverAndUnpair := by
  refine ⟨?silent, ?log, ?logAck, ?checkpoint, ?ack, ?cross, ?adoption, ?commands, ?received⟩
  case silent =>
    rintro s b dt seq e k n r hb hsyncing hpaired
    have hlogs : ¬ b.twin.st.logs = true := fun h => (b.twin.st.logs_iff.1 h).elim hsyncing hpaired
    simp only [List.forall_mem_cons]
    rw [exec_tokenLogEntry, exec_tokenLogAck, exec_checkpointReceived, exec_checkpointAck, exec_crossCheckRecord, ← hb]
    simp only [hlogs, Bool.false_eq_true, Bool.false_and, if_false, List.not_mem_nil, false_implies, implies_true, and_self]
  case log =>
    rintro s b dt e hb hlogs
    rw [exec_tokenLogEntry, ← hb, if_pos (b.twin.st.logs_iff.2 hlogs)]
    refine ⟨_, rfl, ?_⟩
    by_cases hclosed : e.item = .closed
    · have hacked := congrArg Twin.partnerAcked (b.dropMirror_twin e.stream)
      have hout := (State.dropMirror_keeps (Within.refl _) e.stream (.refl _ b)).out_eq (by decide)
      rw [State.takeLog_closed hclosed]
      refine ⟨congrArg (· ++ _) hout, ?_, fun _ m hm => ?_, fun hopen => absurd hclosed hopen⟩
      · exact congrArg (max · e.seq) hacked
      · have hkept : m ∈ (b.dropMirror e.stream).twin.mirrors := hm
        rw [State.dropMirror_twin] at hkept
        simpa using (List.mem_filter.1 hkept).2
    · rw [State.takeLog_kept hclosed]
      refine ⟨congrArg (· ++ _) (b.keepLog_out e), congrArg (max · e.seq) (b.keepLog_partnerAcked e),
        fun h => absurd h hclosed, fun _ => b.keepLog_mirrors e⟩
  case logAck =>
    rintro s b dt seq hb hlogs
    have hl := b.twin.st.logs_iff.2 hlogs
    rw [exec_tokenLogAck, ← hb]
    refine ⟨fun hunsent => by rw [if_neg (by simp [hl, hunsent])], fun hsent => ?_⟩
    rw [if_pos (by simp [hl, hsent])]
    obtain ⟨hacked, hheld⟩ := b.logAcks_effect seq
    refine ⟨_, rfl, hacked, fun h => ?_⟩
    rw [hheld, List.mem_filter, decide_eq_true_eq]
  case checkpoint =>
    rintro s b dt k hb hlogs
    rw [exec_checkpointReceived, ← hb, if_pos (b.twin.st.logs_iff.2 hlogs)]
    refine ⟨fun hnone => ?_, fun m hm => ⟨?_, State.storeCheckpoint_effect hm⟩, fun hnone => State.storeCheckpoint_noJob hnone⟩
    · rw [State.takeCheckpoint, hnone]
    · rw [State.takeCheckpoint, hm]
  case ack =>
    rintro s b dt n hb hlogs
    rw [exec_checkpointAck, ← hb, if_pos (b.twin.st.logs_iff.2 hlogs)]
    exact ⟨fun hnone => by rw [State.checkpointAcked_none hnone], fun p hp => by rw [State.checkpointAcked_some hp]⟩
  case cross =>
    rintro s b dt r hb hlogs
    rw [exec_crossCheckRecord, ← hb, if_pos (b.twin.st.logs_iff.2 hlogs)]
    exact ⟨fun hnone => by rw [State.crossRecord_kept hnone], fun hsome => by rw [State.crossRecord_compares hsome],
      b.mem_crossBanks r⟩
  case adoption =>
    rintro s b dt hb
    rw [exec_crossCheckTimeout, exec_adoptionFromBacklog, ← hb]
    refine ⟨⟨_, rfl, fun x => ?_⟩, fun htaking hdegraded => by rw [State.adoptBacklog_not htaking hdegraded], fun hover =>
      ⟨_, rfl, ?_, ?_, fun hfull => ?_⟩⟩
    · rw [State.dropRecords_records, List.mem_filter, Bool.not_eq_true', decide_eq_false_iff_not, not_lt]
    · rw [State.adoptBacklog_adopts hover]
    · refine State.settleTakeover_st ?_
      rwa [State.adoptBacklog_adopts hover, (Twin.reads_of_contact (b.adoptAll_contact b.ns)).1]
    · rw [State.settleTakeover_streams, State.adoptBacklog_adopts hover, State.adoptAll_full hfull]
  case commands =>
    rintro s b dt road via hb hvia
    rw [exec_handover, exec_unpair, ← hb, hvia]
    refine ⟨fun hadmits => ?_, fun hadmits => ?_⟩ <;> rw [State.writeRow_admitted hadmits]
    · exact ⟨fun hst hnone => by rw [State.handoverAct_begins hst hnone], fun hnot => by rw [State.handoverAct_refused hnot]; rfl⟩
    · exact ⟨fun hsolo hfenced => by rw [State.unpairAct_leaves hsolo hfenced], fun hnot => by
        rw [State.unpairAct_refused hnot]; rfl⟩
  case received =>
    rintro s b dt i f hb hst hport hours htype
    rw [exec_unpairReceived, ← hb, State.onTwinPort_hears hst hport, State.take_acts hours htype]
    exact ⟨fun hfenced => by rw [State.unpairAct_refused (.inr hfenced)], fun hfenced => by rw [State.unpairAct_leaves hst hfenced]⟩

end Sys2Proof.Machine
end

section
/-! States that meet the hypotheses of O46 and O47. -/

namespace Sys2Proof.Machine

open Tests (served)

/-- A twin in SUSPECT since 0 ns, its confirm window 5 µs. -/
def suspects (up : Nat) : State := { (State.reset.setVal 0x2200 8 5) with
  clock := { now := up }, run := { st := .serving }, twin := { st := .suspect } }

/-- The confirm window that ends without an outcome fences the device, at its end and not before. -/
theorem witness_confirmWindow : exec (.confirmWindow 0) (suspects 4999000) = .next ((suspects 4999000).elapse 0) ∧
    ∃ t, exec (.confirmWindow 0) (suspects 5000000) = .next t ∧ t.twin.st = .selfFenced ∧ t.run.st = .safe := by
  obtain ⟨-, -, -, -, -, -, hwindow, -⟩ := twinsConfirmALoss
  obtain ⟨hopen, -⟩ := hwindow (suspects 4999000) _ 0 rfl
  obtain ⟨-, hends, -⟩ := hwindow (suspects 5000000) _ 0 rfl
  obtain ⟨t, ht, hfenced, hsafe⟩ := hends rfl (by decide +kernel)
  exact ⟨hopen (.inr (by decide +kernel)), t, ht, hfenced, hsafe rfl⟩

/-- GOODBYE on a usable port takes over at once. -/
theorem witness_goodbye : ∃ t, exec (.goodbye 0 3 { type := 4 }) (twinned .paired) = .next t ∧
    t.twin.st ∈ [TwinSt.takingOver, .degraded] ∧ t.twin.takeoverAt = 6 := by
  obtain ⟨-, -, -, -, -, -, -, hgoodbye⟩ := twinsConfirmALoss
  obtain ⟨-, htakes⟩ := hgoodbye (twinned .paired) _ 0 3 { type := 4 } rfl (by decide) (by decide) (by decide) rfl
  obtain ⟨t, ht, hst, hat⟩ := htakes (by decide) (by decide)
  exact ⟨t, ht, hst, hat.trans (by decide)⟩

/-- A reply of a partner in SHUTDOWN confirms the loss. -/
theorem witness_partnerGone : ((twinned .suspect).told_ 3 8 true).twin.st ∈ [TwinSt.takingOver, .degraded] := by
  obtain ⟨-, -, htold, -⟩ := twinsConfirmALoss
  obtain ⟨hgone, -⟩ := htold (twinned .suspect) 3 8 true
  exact (hgone (.inl rfl) (.inr (by decide))).1

/-- An entry of the partner's log is kept and acknowledged in SYNCING, and not heard in SUSPECT. -/
theorem witness_logEntry : (∃ t, exec (.tokenLogEntry 0 { seq := 4, stream := 9 }) (twinned .syncing) = .next t ∧
      t.out = [.logAck 4] ∧ ∃ m ∈ t.twin.mirrors, m.ckpt.stream = 9) ∧
    exec (.tokenLogEntry 0 { seq := 4, stream := 9 }) (twinned .suspect) = .next ((twinned .suspect).elapse 0) := by
  obtain ⟨hsilent, hlog, -⟩ := mirrorsHandoverAndUnpair
  obtain ⟨t, ht, hout, -, -, hkept⟩ := hlog (twinned .syncing) _ 0 { seq := 4, stream := 9 } rfl (.inl rfl)
  exact ⟨⟨t, ht, hout, (hkept nofun).1⟩, hsilent (twinned .suspect) _ 0 0 { seq := 4, stream := 9 } {} 0 {} rfl nofun nofun
    (.tokenLogEntry 0 { seq := 4, stream := 9 }) (List.mem_cons_self)⟩

/-- A checkpoint of a job that is not here is refused. -/
theorem witness_checkpointRefused : exec (.checkpointReceived 0 { stream := 9, jobCode := 5 }) (twinned .paired) =
    .next ((((((twinned .paired).elapse 0).bump 0x2201 0xC 1).raise 0x0505 0 9).emit (.checkpointAck 9 false)).settlePair) := by
  obtain ⟨-, -, -, hcheckpoint, -⟩ := mirrorsHandoverAndUnpair
  obtain ⟨hrefused, -, hnoJob⟩ := hcheckpoint (twinned .paired) _ 0 { stream := 9, jobCode := 5 } rfl (.inr rfl)
  exact hrefused (hnoJob (by decide))

/-- HANDOVER and UNPAIR of a device without a pair are refused. -/
theorem witness_twinCommandsRefused :
    exec (.handover 0 .coe) served = .next ((served.elapse 0).reply (viaOf .coe 0x2202 1) 0x2202 1 0x08000022) ∧
    exec (.unpair 0 .coe) served = .next ((served.elapse 0).reply (viaOf .coe 0x2202 1) 0x2202 1 0x08000022) := by
  obtain ⟨-, -, -, -, -, -, -, hcommands, -⟩ := mirrorsHandoverAndUnpair
  obtain ⟨hhandover, hunpair⟩ := hcommands served _ 0 .coe _ rfl rfl
  obtain ⟨-, hsolo⟩ := hhandover ⟨by decide, by decide⟩
  obtain ⟨-, hsolo'⟩ := hunpair ⟨by decide, by decide⟩
  exact ⟨hsolo (.inl (by decide)), hsolo' (.inl (by decide))⟩

end Sys2Proof.Machine
end

section
/-! Rings (R360, R362): the statement O48 does not hold of every state. -/

namespace Sys2Proof.Machine

/-- Host port A is READY with Bus Master Enable, ring 0 stopped with 16 entries; the value 77 waits for the port's next start, meant for
Doorbells Ignored, `0x2500:0B`. A commit leaves values for co-processors and DAC groups only (R297), so that no run of the part leads here;
the statement asks for every state. -/
def valueStagedForHost : State := { State.reset with
  run := { st := .serving }
  units := tmod State.reset.units (hostRef 0) (fun u => { u with st := .ready })
  hosts := tset State.reset.hosts 0
    { linkUp := true, configured := true, busMaster := true, perst := false, rings := [(0, { sizeLog2 := 4 })] }
  epoch := { later := [(hostRef 0, [(odKey 0x2500 0xB, 77)])] } }

/-- ENABLE with SIZE_LOG2 0 starts the ring, the port becomes SERVING, and takes the value that waited: 77 stands where the ignored size
has been counted. -/
theorem exec_ringEnable_valueStagedForHost : ∃ t, exec (.ringEnable 0 0 0 16) valueStagedForHost = .next t ∧
    (t.ring 0 0).enabled = true ∧ t.val 0x2500 0xB = 77 :=
  ⟨_, rfl, by decide +kernel, by decide +kernel⟩

/-- Refutes O48: an ignored SIZE_LOG2 is not counted by 1 where the write also makes the port SERVING and a value for that counter waits for
its start, as in `valueStagedForHost`. -/
theorem not_ringsStartServeAndPost : ¬ Obligations.RingsStartServeAndPost := by
  rintro ⟨-, hcontrol, -⟩
  obtain ⟨-, -, -, -, hunsized, -⟩ := hcontrol valueStagedForHost _ 0 _ 0 0 16 rfl rfl (by decide +kernel)
  obtain ⟨t, ht, -, -, hcounts⟩ := hunsized (by decide +kernel) (by decide) (.inl (by decide))
  obtain ⟨u, hu, -, hval⟩ := exec_ringEnable_valueStagedForHost
  obtain rfl : u = t := Host.Outcome.next.inj (hu.symm.trans ht)
  have hone : wrapAdd 8 ((valueStagedForHost.elapse 0).val 0x2500 0xB) 1 = 1 := by decide +kernel
  exact absurd (hval.symm.trans (hcounts.trans hone)) (by decide)

end Sys2Proof.Machine
end

section
/-! Host ports (R355 to R369): what events leave of them, resets, readiness and the HBM aperture, and the statement O49. -/

namespace Sys2Proof.Machine

-- events touch of a host port its messages alone (R365, R489)

/-- A host port but for its messages that are due and its vectors that are pending. -/
def HostPort.still (h : HostPort) : HostPort := { h with msixPending := [], msixDue := [] }

/-- Every host port has been left but for its messages. -/
def State.SameHosts (s t : State) : Prop := ∀ q, (t.host q).still = (s.host q).still

theorem State.SameHosts.trans {s t u : State} (hst : s.SameHosts t) (htu : t.SameHosts u) : s.SameHosts u :=
  fun q => (htu q).trans (hst q)

theorem State.sameHosts_of_hosts {s t : State} (h : t.hosts = s.hosts) : s.SameHosts t := fun q => by
  rw [State.host, State.host, h]

theorem State.signalVector_sameHosts (s : State) (p v : Nat) : s.SameHosts (s.signalVector p v) := by
  have hmod : ∀ f : HostPort → HostPort, (∀ h, (f h).still = h.still) → s.SameHosts (s.modHost p f) := fun f hf q => by
    rw [State.modHost_host]
    split
    next h => rw [hf, h]
    next => rfl
  unfold State.signalVector
  extract_lets h at_
  split
  · split
    · exact fun q => rfl
    · exact hmod _ (fun h => rfl)
  · split
    · exact fun q => rfl
    · exact hmod _ (fun h => rfl)

theorem State.signalEvents_sameHosts (s : State) (p : Nat) : s.SameHosts (s.signalEvents p) := by
  unfold State.signalEvents
  extract_lets v
  split
  · exact fun q => rfl
  · exact s.signalVector_sameHosts p v

theorem State.drop_sameHosts (s : State) (k : Nat) (e : Event) : s.SameHosts (s.drop k e) :=
  State.sameHosts_of_hosts ((State.drop_keeps (Within.refl _) k e (.refl _ s)).hosts_eq (by decide))

theorem State.offer_sameHosts (s : State) (k : Nat) (e : Event) : s.SameHosts (s.offer k e) := by
  unfold State.offer
  extract_lets l all full worst r kept dropped
  split
  · exact fun q => rfl
  · split
    · exact s.drop_sameHosts k e
    · have hdropped : s.SameHosts dropped := by
        unfold dropped
        split
        · exact (State.sameHosts_of_hosts (t := kept) rfl).trans (kept.drop_sameHosts k _)
        · exact State.sameHosts_of_hosts rfl
      split
      · exact hdropped.trans ((dropped.signalEvents_sameHosts 0).trans (State.signalEvents_sameHosts _ 1))
      · exact hdropped

theorem State.emitRecord_sameHosts (s : State) (code sev source detail : Nat) (clear : Bool) (sinks : List Nat) :
    s.SameHosts (s.emitRecord code sev source detail clear sinks) := by
  unfold State.emitRecord
  extract_lets e noted
  exact List.foldlRecOn _ _ (motive := s.SameHosts) (State.sameHosts_of_hosts rfl) (fun t ht k _ => ht.trans (t.offer_sameHosts k e))

theorem State.raise_sameHosts (s : State) (code source detail : Nat) : s.SameHosts (s.raise code source detail) := by
  unfold State.raise
  extract_lets sev r noted
  split
  · split
    · exact (State.sameHosts_of_hosts (t := noted) rfl).trans (noted.emitRecord_sameHosts _ _ _ _ _ _)
    · exact State.sameHosts_of_hosts rfl
  · exact s.emitRecord_sameHosts _ _ _ _ _ _

theorem State.clearEntry_sameHosts (s : State) (i : Nat) : s.SameHosts (s.clearEntry i) := by
  unfold State.clearEntry
  extract_lets a noted told
  have htold : s.SameHosts told := (State.sameHosts_of_hosts (t := noted) rfl).trans (noted.emitRecord_sameHosts _ _ _ _ _ _)
  split
  · exact fun q => rfl
  · split
    · exact htold.trans (State.sameHosts_of_hosts rfl)
    · exact htold

theorem State.clearSource_sameHosts (s : State) (source : Nat) : s.SameHosts (s.clearSource source) :=
  List.foldlRecOn _ _ (motive := s.SameHosts) (State.sameHosts_of_hosts rfl) (fun t ht a _ => ht.trans (t.clearEntry_sameHosts a.1))

theorem State.setUnit_sameHosts (s : State) (r : Nat) (st : UnitSt) : s.SameHosts (s.setUnit r st) := by
  unfold State.setUnit
  extract_lets put
  have hput : s.SameHosts put := State.sameHosts_of_hosts rfl
  split
  · exact (hput.trans (put.clearSource_sameHosts r)).trans
      (State.sameHosts_of_hosts ((State.takeLater_keeps (Within.refl _) r (.refl _ _)).hosts_eq (by decide)))
  · exact hput

-- READY and SERVING (R368)

theorem State.hostServing_sameHosts (s : State) (p : Nat) : s.SameHosts (s.hostServing p) := by
  unfold State.hostServing
  extract_lets want
  split
  · exact s.setUnit_sameHosts _ _
  · exact fun q => rfl

/-- What Bus Master Enable and the rings make of a port that takes requests. -/
theorem State.hostServing_unit {s : State} {p : Nat} (h : (s.unit (hostRef p)).works = true) : (s.hostServing p).unit (hostRef p) =
    if (s.host p).busMaster = true ∧ (s.host p).anyRing = true then .serving else .ready := by
  unfold State.hostServing
  simp only [Bool.and_eq_true]
  generalize (if (s.host p).busMaster = true ∧ (s.host p).anyRing = true then UnitSt.serving else .ready) = want
  split
  · rw [State.setUnit_unit, if_pos rfl]
  next hsame =>
    simp only [h, true_and, bne_iff_ne, ne_eq, not_not] at hsame
    exact hsame

-- resets (R367, R368)

theorem exec_perst (dt : Nat) (p : Fin 2) (s : State) : exec (.perst dt p) s =
    .next (if ((s.elapse dt).host p).perst then s.elapse dt
      else if (s.elapse dt).run.st = .off then (s.elapse dt).modHost p (fun h => { h with perst := true, linkUp := false, speed := 0, width := 0 })
      else ((s.elapse dt).modHost p (fun h => { h with perst := true, linkUp := false, speed := 0, width := 0 })).hostReset p) := rfl
theorem exec_perstDeassertion (dt : Nat) (p : Fin 2) (s : State) : exec (.perstDeassertion dt p) s =
    .next (if !((s.elapse dt).host p).perst then s.elapse dt
      else if (s.elapse dt).run.st = .off then (s.elapse dt).modHost p (fun h => { h with perst := false })
      else ((s.elapse dt).modHost p (fun h => { h with perst := false })).setUnit (hostRef p) .starting) := rfl
theorem exec_flr (dt : Nat) (p : Fin 2) (s : State) : exec (.flr dt p) s =
    .next (if (s.elapse dt).busUp p then (s.elapse dt).hostReset p else s.elapse dt) := rfl
theorem exec_d3hotToD0 (dt : Nat) (p : Fin 2) (s : State) : exec (.d3hotToD0 dt p) s =
    .next (if (s.elapse dt).busUp p then (s.elapse dt).hostReset p else s.elapse dt) := rfl

/-- A port that has lost its link is FENCED, counted and raised. -/
def State.hostLost (s : State) (p : Nat) : State :=
  (((((s.hostClear p).modHost p (fun h => { h with linkUp := false, speed := 0, width := 0 })).setUnit (hostRef p) .fenced).bump
    (0x2500 + p) 0xD 1).raise 0x0407 (hostRef p) 0)

theorem exec_hostLinkDown (dt : Nat) (p : Fin 2) (s : State) : exec (.hostLinkDown dt p) s =
    .next (if !((s.elapse dt).host p).linkUp || (s.elapse dt).run.st = .off then s.elapse dt else (s.elapse dt).hostLost p) := rfl
theorem exec_busMasterEnable (dt : Nat) (p : Fin 2) (s : State) : exec (.busMasterEnable dt p) s =
    .next (if (s.elapse dt).busUp p then ((s.elapse dt).modHost p (fun h => { h with busMaster := true })).hostServing p
      else s.elapse dt) := rfl

/-- The rings have stopped, and registers, tables and shadows are as after reset. -/
def HostPort.Cleared (h : HostPort) : Prop :=
  (∀ r : Nat, (h.ring r).enabled = false ∧ (h.ring r).head = 0 ∧ (h.ring r).tail = 0) ∧ h.busMaster = false ∧
    h.configured = false ∧ h.bar4Log2 = 9 ∧ h.unmasked = [] ∧ h.writeShadow = none ∧ h.readShadow = none

theorem HostPort.afterReset_cleared (h : HostPort) : h.afterReset.Cleared := by
  refine ⟨fun r => ?_, rfl, rfl, rfl, rfl, rfl, rfl⟩
  rcases tgetD_mem default h.afterReset.rings r with hring | hring
  · rw [HostPort.ring, tget, hring]
    exact ⟨rfl, rfl, rfl⟩
  · obtain ⟨x, -, hx⟩ := List.mem_map.1 (List.mem_filter.1 hring).1
    have hstopped : h.afterReset.ring r = { waiting := x.2.waiting } := (Prod.mk.inj hx).2.symm
    rw [hstopped]
    exact ⟨rfl, rfl, rfl⟩

/-- Messages count for nothing here. -/
theorem HostPort.Cleared.of_still {x y : HostPort} (h : y.Cleared) (hsame : x.still = y.still) : x.Cleared := by
  have hstill : x.still.Cleared := hsame ▸ (show y.still.Cleared from h)
  exact hstill

section
variable (s : State) (p : Nat)

theorem State.dropLow_host : (s.dropLow p).host p = { s.host p with writeShadow := none } := by
  unfold State.dropLow
  split
  next h =>
    rw [← Option.isNone_iff_eq_none.1 h]
  next => rw [State.bump_host, State.modHost_host, if_pos rfl]

/-- Of the entries only Discarded Writes counts. -/
theorem State.dropLow_val (x y : Nat) (h : odKey x y ≠ odKey (0x2500 + p) 0xE) : (s.dropLow p).val x y = s.val x y := by
  unfold State.dropLow
  split
  · rfl
  · rw [State.bump_val_other _ _ _ _ _ _ h]
    rfl

theorem State.hostClear_host : (s.hostClear p).host p = (s.host p).afterReset := by
  unfold State.hostClear
  extract_lets cleared
  rw [(State.failMoves_keeps (Within.refl _) _ _ (.refl _ cleared)).host_eq p (by decide)]
  unfold cleared
  rw [State.modHost_host, if_pos rfl, State.dropLow_host]
  rfl

theorem State.hostClear_keeps_rest : s.Keeps [.od, .hosts, .cores, .sched] (s.hostClear p) := by
  unfold State.hostClear
  exact State.failMoves_keeps (by decide) _ _ (State.modHost_keeps (by decide) _ _ (State.dropLow_keeps (by decide) p (.refl _ s)))

theorem State.hostClear_val (x y : Nat) (h : odKey x y ≠ odKey (0x2500 + p) 0xE) : (s.hostClear p).val x y = s.val x y := by
  unfold State.hostClear
  extract_lets cleared
  rw [(State.failMoves_keeps (Within.refl _) _ _ (.refl _ cleared)).val_eq x y (by decide)]
  exact s.dropLow_val p x y h

theorem State.hostReset_eq : s.hostReset p = ((s.hostClear p).bump (0x2500 + p) 0xC 1).putUnit (hostRef p) .starting :=
  State.setUnit_idle rfl _ _

theorem State.hostReset_host : (s.hostReset p).host p = (s.host p).afterReset := by
  rw [State.hostReset_eq, State.putUnit_host, State.bump_host, State.hostClear_host]

end

theorem odRow_hostResets (p : Fin 2) : (odRow (0x2500 + p) 0xC).map OdRow.bytes = some 8 := by
  revert p
  decide +kernel

theorem odRow_hostLosses (p : Fin 2) : (odRow (0x2500 + p) 0xD).map OdRow.bytes = some 8 := by
  revert p
  decide +kernel

/-- What a reset of the function leaves. -/
theorem State.hostReset_effect (s : State) (p : Fin 2) : (s.hostReset p).unit (hostRef p) = .starting ∧
    ((s.hostReset p).host p).Cleared ∧ ((s.hostReset p).host p).linkUp = (s.host p).linkUp ∧
    (s.hostReset p).val (0x2500 + p) 0xC = wrapAdd 8 (s.val (0x2500 + p) 0xC) 1 ∧ (s.hostReset p).mem = s.mem ∧
    ∀ r : Nat, r ≠ hostRef p → (s.hostReset p).unit r = s.unit r := by
  have hkeeps := s.hostClear_keeps_rest p
  rw [State.hostReset_host, State.hostReset_eq]
  refine ⟨?_, (s.host p).afterReset_cleared, rfl, ?_, ?_, fun r hr => ?_⟩
  · rw [State.putUnit_unit, if_pos rfl]
  · rw [State.putUnit_val, State.bump_counts (odRow_hostResets p) _ one_ne_zero, State.hostClear_val _ _ _ _ (by simp [odKey])]
  · rw [State.putUnit_mem, State.bump_mem, hkeeps.mem_eq (by decide)]
  · rw [State.putUnit_unit, if_neg hr, State.bump_unit, hkeeps.unit_eq r (by decide)]

/-- What a lost link leaves. -/
theorem State.hostLost_effect (s : State) (p : Fin 2) : (s.hostLost p).unit (hostRef p) = .fenced ∧
    ((s.hostLost p).host p).Cleared ∧ ((s.hostLost p).host p).linkUp = false ∧
    (s.hostLost p).val (0x2500 + p) 0xD = wrapAdd 8 (s.val (0x2500 + p) 0xD) 1 ∧ (s.hostLost p).mem = s.mem ∧
    ∀ r : Nat, r ≠ hostRef p → (s.hostLost p).unit r = s.unit r := by
  have hkeeps := s.hostClear_keeps_rest p
  unfold State.hostLost
  rw [State.setUnit_idle rfl]
  have hsame := State.raise_sameHosts ((((s.hostClear p).modHost p (fun h => { h with linkUp := false, speed := 0, width := 0 })).putUnit
    (hostRef p) .fenced).bump (0x2500 + p) 0xD 1) 0x0407 (hostRef p) 0 p
  rw [State.bump_host, State.putUnit_host, State.modHost_host, if_pos rfl, State.hostClear_host] at hsame
  refine ⟨?_, ?_, congrArg HostPort.linkUp hsame, ?_, ?_, fun r hr => ?_⟩
  · rw [State.raise_unit, State.bump_unit, State.putUnit_unit, if_pos rfl]
  · exact HostPort.Cleared.of_still (y := { (s.host p).afterReset with linkUp := false, speed := 0, width := 0 })
      (s.host p).afterReset_cleared hsame
  · rw [State.raise_val _ _ _ _ _ _ (by unfold quiet odKey; omega), State.bump_counts (odRow_hostLosses p) _ one_ne_zero,
      State.putUnit_val, State.modHost_val, State.hostClear_val _ _ _ _ (by simp [odKey])]
  · rw [State.raise_mem, State.bump_mem, State.putUnit_mem, State.modHost_mem, hkeeps.mem_eq (by decide)]
  · rw [State.raise_unit, State.bump_unit, State.putUnit_unit, if_neg hr, State.modHost_unit, hkeeps.unit_eq r (by decide)]

/-- Link and configuration space are there: a port that takes no requests becomes READY. -/
def State.hostUp (s : State) (p speed width : Nat) : State :=
  let t := s.modHost p (fun h => { h with linkUp := true, configured := true, speed := speed, width := width })
  if (t.unit (hostRef p)).works then t else t.setUnit (hostRef p) .ready

theorem exec_hostLinkUp (dt : Nat) (p : Fin 2) (speed width : Fin 5) (s : State) : exec (.hostLinkUp dt p speed width) s =
    .next (if ((s.elapse dt).host p).perst || (s.elapse dt).run.st = .off || !(s.elapse dt).security.running then s.elapse dt
      else (s.elapse dt).hostUp p (speed.val + 1) (2 ^ width.val)) := rfl

theorem State.hostUp_effect (s : State) (p speed width : Nat) : ((s.hostUp p speed width).host p).linkUp = true ∧
    ((s.hostUp p speed width).host p).configured = true ∧ ((s.hostUp p speed width).host p).speed = speed ∧
    ((s.hostUp p speed width).host p).width = width ∧ (s.hostUp p speed width).unit (hostRef p) =
      if (s.unit (hostRef p)).works then s.unit (hostRef p) else .ready := by
  unfold State.hostUp
  extract_lets t
  have ht : t.host p = { s.host p with linkUp := true, configured := true, speed := speed, width := width } := by
    unfold t
    rw [State.modHost_host, if_pos rfl]
  have hunit : t.unit (hostRef p) = s.unit (hostRef p) := rfl
  rw [hunit]
  split
  · rw [ht]
    exact ⟨rfl, rfl, rfl, rfl, hunit⟩
  · have hsame := t.setUnit_sameHosts (hostRef p) .ready p
    rw [ht] at hsame
    exact ⟨congrArg HostPort.linkUp hsame, congrArg HostPort.configured hsame, congrArg HostPort.speed hsame,
      congrArg HostPort.width hsame, by rw [State.setUnit_unit, if_pos rfl]⟩

/-- Bus Master Enable leads to SERVING where a ring runs. -/
theorem State.busMaster_effect {s : State} {p : Nat} (h : s.busUp p = true) {t : State}
    (ht : t = (s.modHost p (fun h => { h with busMaster := true })).hostServing p) :
    (t.host p).busMaster = true ∧ t.unit (hostRef p) = if (s.host p).anyRing then .serving else .ready := by
  have hworks : (s.unit (hostRef p)).works = true := by
    simp only [State.busUp, Bool.and_eq_true] at h
    exact h.2
  have hsame := State.hostServing_sameHosts (s.modHost p (fun h => { h with busMaster := true })) p p
  have hunit := State.hostServing_unit (s := s.modHost p (fun h => { h with busMaster := true })) (p := p) hworks
  rw [State.modHost_host, if_pos rfl] at hsame hunit
  rw [ht, hunit]
  refine ⟨congrArg HostPort.busMaster hsame, ?_⟩
  exact if_congr (and_iff_right rfl) rfl rfl

-- the HBM aperture (R369)

section
variable {s : State} {p a n bit : Nat}

theorem State.apertureRefused_none (hspan : rangeSpan a n = .hbm) (hok : s.checkMem (2 + p) a n bit = .ok) :
    s.apertureRefused p a n bit = none := by
  simp [State.apertureRefused, hspan, hok]

theorem State.apertureRefused_outside (hspan : rangeSpan a n ≠ .hbm) :
    s.apertureRefused p a n bit = some (s.deny (some (2 + p)) a (2 ^ bit)) := by
  simp [State.apertureRefused, hspan]

theorem State.apertureRefused_denied {x lacking : Nat} (hspan : rangeSpan a n = .hbm)
    (hdenied : s.checkMem (2 + p) a n bit = .denied x lacking) :
    s.apertureRefused p a n bit = some (s.deny (some (2 + p)) x lacking) := by
  simp [State.apertureRefused, hspan, hdenied]

/-- A read through the aperture, and a write. -/
def State.apertureRead (s : State) (p a n : Nat) : State :=
  match s.apertureRefused p a n rightR with
  | some t => t.emit (.busRead p (List.replicate n 0xFF))
  | none => s.emit (.busRead p (s.mem.read a n))

def State.apertureWrite (s : State) (p a : Nat) (data : List Byte) : State :=
  (s.apertureRefused p a data.length rightW).getD (s.storeBytes a data)

theorem State.apertureRead_refused {t : State} (h : s.apertureRefused p a n rightR = some t) :
    s.apertureRead p a n = t.emit (.busRead p (List.replicate n 0xFF)) := by
  rw [State.apertureRead, h]

theorem State.apertureRead_reads (h : s.apertureRefused p a n rightR = none) :
    s.apertureRead p a n = s.emit (.busRead p (s.mem.read a n)) := by
  rw [State.apertureRead, h]

end

/-- The offset lies within the aperture, and the port takes requests. -/
def State.apertureMisses (s : State) (p offset n : Nat) : Bool := !s.busUp p || (s.host p).aperture < offset + n

theorem State.apertureMisses_iff (s : State) (p offset n : Nat) : s.apertureMisses p offset n = true ↔
    s.busUp p = false ∨ 2 ^ (30 + (s.host p).bar4Log2) < offset + n := by
  simp only [State.apertureMisses, Bool.or_eq_true, Bool.not_eq_true', decide_eq_true_eq]
  rfl

theorem exec_bar4Read (dt offset n : Nat) (p : Fin 2) (s : State) : exec (.bar4Read dt p offset n) s =
    .next (if (s.elapse dt).apertureMisses p offset n then s.elapse dt
      else (s.elapse dt).apertureRead p ((s.elapse dt).val (0x2500 + p) 6 + offset) n) := rfl

theorem exec_bar4Write (dt offset : Nat) (p : Fin 2) (data : List Byte) (s : State) : exec (.bar4Write dt p offset data) s =
    .next (if (s.elapse dt).apertureMisses p offset data.length then s.elapse dt
      else (s.elapse dt).apertureWrite p ((s.elapse dt).val (0x2500 + p) 6 + offset) data) := by
  show execBar4Write dt p offset data s = _
  unfold execBar4Write State.apertureWrite
  dsimp only
  refine congrArg _ (if_congr Iff.rfl rfl ?_)
  split
  next t h => rw [h]; rfl
  next h => rw [h]; rfl

theorem apertureOk_iff (base log2 : Nat) :
    apertureOk base log2 = true ↔ base % 2 ^ (30 + log2) = 0 ∧ base + 2 ^ (30 + log2) ≤ 2 ^ 39 := by
  simp [apertureOk]

theorem exec_bar4Resize (dt : Nat) (p : Fin 2) (n : Fin 10) (s : State) : exec (.bar4Resize dt p n) s =
    .next (if (s.elapse dt).busUp p && apertureOk ((s.elapse dt).val (0x2500 + p) 6) n then
      (s.elapse dt).modHost p (fun h => { h with bar4Log2 := n }) else s.elapse dt) := rfl

theorem exec_hbmApertureBaseWrite (dt : Nat) (road : Road) (p : Fin 2) (base : BitVec 64) (s : State) :
    exec (.hbmApertureBaseWrite dt road p base) s = .next ((s.elapse dt).writeRow road (0x2500 + p) 6 (leBytes 8 base.toNat)
      (State.apertureAct p base.toNat)) := rfl

-- the statement

/-- Each of the four resets of a port leaves it cleared. -/
theorem exec_hostResets {dt : Nat} {p : Fin 2} {s b : State} (hb : b = s.elapse dt) (hon : b.run.st ≠ .off) :
    ∀ k ∈ [(Instr.perst dt p, UnitSt.starting), (.flr dt p, .starting), (.d3hotToD0 dt p, .starting), (.hostLinkDown dt p, .fenced)],
      (k.1 = .perst dt p → (b.host p).perst = false) → (k.1 = .flr dt p ∨ k.1 = .d3hotToD0 dt p → b.busUp p = true) →
      (k.1 = .hostLinkDown dt p → (b.host p).linkUp = true) →
      ∃ t, exec k.1 s = .next t ∧ t.unit (hostRef p) = k.2 ∧ (t.host p).Cleared ∧
        (k.1 = .perst dt p ∨ k.1 = .hostLinkDown dt p → (t.host p).linkUp = false) ∧
        (k.1 = .flr dt p ∨ k.1 = .d3hotToD0 dt p → (t.host p).linkUp = (b.host p).linkUp) ∧
        (k.2 = .starting → t.val (0x2500 + p) 0xC = wrapAdd 8 (b.val (0x2500 + p) 0xC) 1) ∧
        (k.2 = .fenced → t.val (0x2500 + p) 0xD = wrapAdd 8 (b.val (0x2500 + p) 0xD) 1) ∧
        t.mem = b.mem ∧ ∀ r : Nat, r ≠ hostRef p → t.unit r = b.unit r := by
  simp only [List.forall_mem_cons]
  refine ⟨fun hperst _ _ => ?_, fun _ hbus _ => ?_, fun _ hbus _ => ?_, fun _ _ hlink => ?_, fun k hk => absurd hk List.not_mem_nil⟩
  · obtain ⟨hunit, hcleared, hlinkUp, hresets, hmem, hothers⟩ := State.hostReset_effect
      (b.modHost p (fun h => { h with perst := true, linkUp := false, speed := 0, width := 0 })) p
    rw [exec_perst, ← hb, if_neg (ne_true_of_eq_false (hperst trivial)), if_neg hon]
    rw [State.modHost_host, if_pos rfl] at hlinkUp
    exact ⟨_, rfl, hunit, hcleared, fun _ => hlinkUp, nofun, fun _ => hresets, nofun, hmem, hothers⟩
  · obtain ⟨hunit, hcleared, hlinkUp, hresets, hmem, hothers⟩ := b.hostReset_effect p
    rw [exec_flr, ← hb, if_pos (hbus (.inl trivial))]
    exact ⟨_, rfl, hunit, hcleared, nofun, fun _ => hlinkUp, fun _ => hresets, nofun, hmem, hothers⟩
  · obtain ⟨hunit, hcleared, hlinkUp, hresets, hmem, hothers⟩ := b.hostReset_effect p
    rw [exec_d3hotToD0, ← hb, if_pos (hbus (.inr trivial))]
    exact ⟨_, rfl, hunit, hcleared, nofun, fun _ => hlinkUp, fun _ => hresets, nofun, hmem, hothers⟩
  · obtain ⟨hunit, hcleared, hlinkUp, hlosses, hmem, hothers⟩ := b.hostLost_effect p
    rw [exec_hostLinkDown, ← hb, if_neg (by simp [hlink, hon])]
    exact ⟨_, rfl, hunit, hcleared, fun _ => hlinkUp, nofun, nofun, fun _ => hlosses, hmem, hothers⟩

/-- Settles O49, one case for each of its clauses. That a port starts with the release of PERST#, and keeps the base of its aperture over a
resize, is log entry 47. -/
theorem hostPortsResetAndAnswer : Obligations.HostPortsResetAndAnswer := by
  refine ⟨?resets, ?ready, ?aperture, ?resize, ?base⟩
  case resets =>
    rintro s b dt p hb
    refine ⟨fun hperst => ?_, fun hperst => ?_, fun hperst hon => ?_, fun hbus => ⟨?_, ?_, ?_⟩, fun hlost => ?_, fun k hk hon hperst hbus
      hlink => ?_⟩
    · rw [exec_perst, ← hb, if_pos hperst]
    · rw [exec_perstDeassertion, ← hb, if_pos (by simp [hperst])]
    · rw [exec_perstDeassertion, ← hb, if_neg (by simp [hperst]), if_neg hon, State.setUnit_idle rfl]
      refine ⟨_, rfl, ?_, ?_⟩
      · rw [State.putUnit_host, State.modHost_host, if_pos rfl]
      · rw [State.putUnit_unit, if_pos rfl]
    · rw [exec_flr, ← hb, if_neg (ne_true_of_eq_false hbus)]
    · rw [exec_d3hotToD0, ← hb, if_neg (ne_true_of_eq_false hbus)]
    · rw [exec_busMasterEnable, ← hb, if_neg (ne_true_of_eq_false hbus)]
    · rw [exec_hostLinkDown, ← hb, if_pos]
      rcases hlost with h | h <;> simp [h]
    · obtain ⟨t, ht, hunit, ⟨hrings, hmaster, hconfigured, hsize, hmasked, hwrite, hread⟩, hrest⟩ :=
        exec_hostResets hb hon k hk hperst hbus hlink
      exact ⟨t, ht, hunit, hrings, hmaster, hconfigured, hsize, hmasked, hwrite, hread, hrest⟩
  case ready =>
    rintro s b dt p speed width hb
    rw [exec_hostLinkUp, exec_busMasterEnable, ← hb]
    refine ⟨fun hnot => ?_, fun hperst hon hruns => ?_, fun hbus => ?_⟩
    · rw [if_pos]
      rcases hnot with h | h | h <;> simp [h]
    · rw [if_neg (by simp [hperst, hon, hruns])]
      exact ⟨_, rfl, b.hostUp_effect _ _ _⟩
    · rw [if_pos hbus]
      exact ⟨_, rfl, State.busMaster_effect hbus rfl⟩
  case aperture =>
    rintro s b dt offset n a p data hb rfl rfl
    rw [exec_bar4Read, exec_bar4Write, ← hb]
    have hmisses := b.apertureMisses_iff p offset data.length
    refine ⟨fun hnot => ?_, fun hbus hwithin => ?_⟩
    · rw [if_pos (hmisses.2 hnot), if_pos (hmisses.2 hnot)]
      exact ⟨rfl, rfl⟩
    · have hhits : ¬ b.apertureMisses p offset data.length = true := fun h => (hmisses.1 h).elim
        (fun h => by rw [h] at hbus; cases hbus) (fun h => absurd hwithin (Nat.not_le.2 h))
      simp only [if_neg hhits]
      refine ⟨fun hspan hok => ?_, fun hspan => ?_, fun x lacking hspan hdenied => ?_, fun hspan hok => ?_, fun hspan => ?_,
        fun x lacking hspan hdenied => ?_⟩
      · rw [State.apertureRead_reads (State.apertureRefused_none hspan hok)]
      · rw [State.apertureRead_refused (State.apertureRefused_outside hspan)]
        rfl
      · rw [State.apertureRead_refused (State.apertureRefused_denied hspan hdenied)]
      · rw [State.apertureWrite, State.apertureRefused_none hspan (bit := rightW) hok]
        rfl
      · rw [State.apertureWrite, State.apertureRefused_outside hspan]
        rfl
      · rw [State.apertureWrite, State.apertureRefused_denied hspan (bit := rightW) hdenied]
        rfl
  case resize =>
    rintro s b dt p n hb
    rw [exec_bar4Resize, ← hb]
    refine ⟨fun hbus haligned hfits => ?_, fun hnot => ?_⟩
    · rw [if_pos (by rw [hbus, (apertureOk_iff _ _).2 ⟨haligned, hfits⟩]; rfl)]
      exact ⟨_, rfl, by rw [State.modHost_host, if_pos rfl], rfl⟩
    · rw [if_neg]
      simp only [Bool.and_eq_true, apertureOk_iff]
      rintro ⟨hbus, haligned, hfits⟩
      rcases hnot with h | h | h
      · rw [h] at hbus
        cases hbus
      · exact h haligned
      · exact h.not_ge hfits
  case base =>
    rintro s b dt k road p base via hb hvia rfl hadmits
    rw [exec_hbmApertureBaseWrite, ← hb, State.writeRow_admitted hadmits, hvia, State.apertureAct]
    refine ⟨fun haligned hfits => by rw [if_pos ((apertureOk_iff _ _).2 ⟨haligned, hfits⟩)]; rfl, fun hnot => ?_⟩
    rw [if_neg]
    · rfl
    · rw [apertureOk_iff]
      exact fun h => hnot.elim (· h.1) (fun hlarge => hlarge.not_ge h.2)

end Sys2Proof.Machine
end

section
/-! States that meet the hypotheses of O49. -/

namespace Sys2Proof.Machine

open Tests (served)

/-- Host port A with link and configuration space, READY. -/
def hostThere : State := { State.reset with
  run := { st := .serving }
  units := tmod State.reset.units (hostRef 0) (fun u => { u with st := .ready })
  hosts := tset State.reset.hosts 0 { linkUp := true, configured := true, perst := false, rings := [(2, { sizeLog2 := 4, enabled := true })] } }

/-- PERST# and a lost link stop the rings; the first counts as a reset, the second as a loss. -/
theorem witness_hostResets : (∃ t, exec (.perst 0 0) hostThere = .next t ∧ t.unit (hostRef 0) = .starting ∧
      (t.ring 0 2).enabled = false ∧ t.val 0x2500 0xC = 1) ∧
    ∃ t, exec (.hostLinkDown 0 0) hostThere = .next t ∧ t.unit (hostRef 0) = .fenced ∧ t.val 0x2500 0xD = 1 := by
  obtain ⟨hresets, -⟩ := hostPortsResetAndAnswer
  obtain ⟨-, -, -, -, -, hclears⟩ := hresets hostThere _ 0 0 rfl
  obtain ⟨t, ht, hunit, hrings, -, -, -, -, -, -, -, -, hcounts, -⟩ :=
    hclears (.perst 0 0, .starting) (by decide) (by decide) (fun _ => by decide) (by decide) nofun
  obtain ⟨u, hu, hfenced, -, -, -, -, -, -, -, -, -, -, hlosses, -⟩ :=
    hclears (.hostLinkDown 0 0, .fenced) (by decide) (by decide) nofun (by decide) (fun _ => by decide)
  exact ⟨⟨t, ht, hunit, (hrings 2).1, (hcounts rfl).trans (by decide +kernel)⟩, u, hu, hfenced,
    (hlosses rfl).trans (by decide +kernel)⟩

/-- A port with a running ring is SERVING once it has Bus Master Enable. -/
theorem witness_busMaster : ∃ t, exec (.busMasterEnable 0 0) hostThere = .next t ∧ t.unit (hostRef 0) = .serving := by
  obtain ⟨-, hready, -⟩ := hostPortsResetAndAnswer
  obtain ⟨-, -, hmaster⟩ := hready hostThere _ 0 0 0 0 rfl
  obtain ⟨t, ht, -, hunit⟩ := hmaster (by decide)
  exact ⟨t, ht, hunit.trans (by decide)⟩

/-- An aperture of 1 GiB may start at 1 GiB, and not at 1 MiB. -/
theorem witness_apertureBase : ∃ s : State, (s.host 0).bar4Log2 = 0 ∧
    exec (.hbmApertureBaseWrite 0 .coe 0 0x40000000) s =
      .next (((s.elapse 0).setVal 0x2500 6 0x40000000).reply (viaOf .coe 0x2500 6) 0x2500 6 0) ∧
    exec (.hbmApertureBaseWrite 0 .coe 0 0x100000) s = .next ((s.elapse 0).reply (viaOf .coe 0x2500 6) 0x2500 6 0x06090030) := by
  obtain ⟨-, -, -, -, hbase⟩ := hostPortsResetAndAnswer
  obtain ⟨hfits, -⟩ := hbase (served.modHost 0 (fun h => { h with bar4Log2 := 0 })) _ 0 _ .coe 0 0x40000000 _ rfl rfl rfl
    ⟨by decide, by decide +kernel⟩
  obtain ⟨-, hunaligned⟩ := hbase (served.modHost 0 (fun h => { h with bar4Log2 := 0 })) _ 0 _ .coe 0 0x100000 _ rfl rfl rfl
    ⟨by decide, by decide +kernel⟩
  exact ⟨_, by decide, hfits (by decide) (by decide), hunaligned (.inl (by decide))⟩

end Sys2Proof.Machine
end

section
/-! The roads of the dictionary (R370, R373, R380 to R382, R387 to R390): the statement O50. -/

namespace Sys2Proof.Machine

-- entries whose value alone counts

theorem State.writeAct_plain {s : State} {m index sub v : Nat} {coe : Bool} {d : List Byte}
    (hact : s.act m coe index sub d = (0, s.setVal index sub v)) (htables : isPeer index sub = false ∧ isRegion index sub = false ∧
      isGrant index sub = false) (hpairs : ∀ t : State, t.pairRule index sub = true) :
    s.writeAct m coe index sub d = (0, s.setVal index sub v) := by
  obtain ⟨hpeer, hregion, hgrant⟩ := htables
  have hrule : ∀ t, s.tableRule t index sub = (0, false) := fun t => by simp [State.tableRule, hpeer, hregion, hgrant]
  simp [State.writeAct, hact, State.ruleRefuses, hrule, hpairs]

-- checks of a read (R380)

theorem State.readGate_pass {s : State} {v : Via} {i k : Nat} (h : (s.readGate v i k).1 = 0) : s.readGate v i k = (0, s) := by
  revert h
  unfold State.readGate
  simp only
  repeat' (first | (split; intro h; cases h; done) | (intro _; rfl) | split)
  all_goals exact fun h => by cases h

theorem State.readEntry_refused {s : State} {v : Via} {i k : Nat} (h : (s.readGate v i k).1 ≠ 0) :
    s.readEntry v i k = ((s.readGate v i k).1, (s.readGate v i k).2, []) := if_pos (by simpa using h)

theorem State.readEntry_passes {s : State} {v : Via} {i k : Nat} (h : (s.readGate v i k).1 = 0) :
    s.readEntry v i k = (0, s.clearRead v.master i k, s.readBytes v.master i k) := by
  simp [State.readEntry, State.readGate_pass h]

/-- A read leaves an rc entry 0, and of any other the dictionary as it was. -/
theorem State.clearRead_effect {s : State} {m i k : Nat} (hi : i ≠ 0x7003) :
    ((odRow i k).any (fun r => r.acc = 4) = true → (s.clearRead m i k).val i k = 0) ∧
    ((odRow i k).any (fun r => r.acc = 4) = false → (s.clearRead m i k).od = s.od) := by
  unfold State.clearRead
  rw [if_neg (by simp [hi])]
  refine ⟨fun h => ?_, fun h => ?_⟩
  · rw [if_pos h, State.setVal_val_same]
  · rw [if_neg (ne_true_of_eq_false h)]

-- writes of an entry (R381, R388)

section
variable {s : State} {v : Via} {i k : Nat} {d : List Byte} {act : State → Nat × State}

theorem State.writeVia_deaf (h : s.hears v = false) : s.writeVia v i k d act = s := if_pos (by simp [h])

theorem State.writeVia_gated (h : s.hears v = true) (hgate : (s.writeGate v i k d).1 ≠ 0) :
    s.writeVia v i k d act = (s.writeGate v i k d).2.reply v i k (s.writeGate v i k d).1 := by
  simp [State.writeVia, h, hgate]

theorem State.writeVia_acts (h : s.hears v = true) (hgate : (s.writeGate v i k d).1 = 0) :
    s.writeVia v i k d act = (act s).2.reply v i k (act s).1 := by
  simp [State.writeVia, h, State.writeGate_pass hgate]

theorem State.reply_coe_refused {abort : Nat} (h : abort ≠ 0) (t : State) : t.reply .coe i k abort = t.emit (.sdoAbort abort) :=
  congrArg t.emit (if_neg h)

theorem State.reply_direct_refused {p abort : Nat} (h : abort ≠ 0) (t : State) :
    t.reply (.direct p) i k abort = t.refuseDirect p i k abort := if_neg h

end

-- single entries by either road

theorem exec_entryWrite (dt : Nat) (road : Road) (index : BitVec 16) (sub : BitVec 8) (d : List Byte) (s : State) :
    exec (.entryWrite dt road index sub d) s = .next ((s.elapse dt).entryWrite road index.toNat sub.toNat d) := rfl
theorem exec_rcEntryRead (dt : Nat) (road : Road) (index : BitVec 16) (sub : BitVec 8) (s : State) :
    exec (.rcEntryRead dt road index sub) s = .next ((s.elapse dt).entryRead road index.toNat sub.toNat) := rfl

section
variable {s : State} {i k : Nat} {d : List Byte}

theorem State.entryWrite_coe (hcomm : commObject i = false) :
    s.entryWrite .coe i k d = s.writeVia .coe i k d (State.writeAct 1 true i k d) := if_neg (by simp [hcomm])

theorem State.entryRead_coe_deaf (h : s.hears .coe = false) : s.entryRead .coe i k = s := if_pos (by simp [h])

/-- A read over CoE is answered, or aborts. -/
def sdoAnswer (i k : Nat) (complete : Bool) (x : Nat × State × List Byte) : State :=
  if x.1 = 0 then x.2.1.sdoSend i k complete x.2.2 else x.2.1.emit (.sdoAbort x.1)

theorem State.entryRead_coe (hcomm : commObject i = false) (h : s.hears .coe = true) :
    s.entryRead .coe i k = sdoAnswer i k false (s.readEntry .coe i k) :=
  (if_neg (by simp [h])).trans (if_neg (by simp [hcomm]))

theorem State.sdoSend_out (s : State) (i k : Nat) (complete : Bool) {bs : List Byte} (h : bs.length ≤ 1008) :
    s.sdoSend i k complete bs = s.emit (.sdo i k bs) := by
  unfold State.sdoSend
  dsimp only
  rw [if_pos (show bs.length ≤ sdoFirst from h), List.take_of_length_le (show bs.length ≤ sdoFirst from h)]

variable {p : Fin 2}

theorem State.entryWrite_direct (hvia : viaOf (.host p) i k = .direct p) : s.entryWrite (.host p) i k d =
    if s.hears (.direct p) then (s.dropLow p).writeVia (.direct p) i k d (State.writeAct (2 + p) false i k d) else s := by
  simp only [State.entryWrite, hvia]

theorem State.entryRead_direct (hvia : viaOf (.host p) i k = .direct p) : s.entryRead (.host p) i k =
    if s.hears (.direct p) then (s.slotRead p i k true).1.emit (.busRead p (s.slotRead p i k true).2) else s := by
  simp only [State.entryRead, hvia]

theorem State.dropLow_none {p : Nat} (h : (s.host p).writeShadow = none) : s.dropLow p = s := if_pos (by simp [h])

end

-- segmented transfers (R373, R381)

/-- A segment that opens no transfer: it goes to the one in progress, if there is one. -/
def State.sdoSegmentGo (s : State) (toggle last : Bool) (d : List Byte) : State :=
  match s.sdo with
  | some t => if s.hears .coe then s.sdoGo t toggle last d else s
  | none => s

/-- A transfer that has been idle for more than 1 s aborts. -/
def State.sdoIdle (s : State) : State :=
  match s.sdo with
  | some t => if t.at_ + sPs < s.up then ({ s with sdo := none } : State).emit (.sdoAbort abIdle) else s
  | none => s

theorem exec_sdoSegment_go (dt : Nat) (toggle last : Bool) (d : List Byte) (s : State) :
    exec (.sdoSegment dt none toggle last d) s = .next ((s.elapse dt).sdoSegmentGo toggle last d) := rfl
theorem exec_sdoSegment_open (dt : Nat) (r : SdoStart) (toggle last : Bool) (d : List Byte) (s : State) :
    exec (.sdoSegment dt (some r) toggle last d) s = .next ((s.elapse dt).sdoOpen r last d) := rfl
theorem exec_sdoSegmentTimeout (dt : Nat) (s : State) : exec (.sdoSegmentTimeout dt) s = .next (s.elapse dt).sdoIdle := rfl

section
variable {s : State} {x : Sdo} {toggle last : Bool} {d : List Byte}

theorem State.sdoSegmentGo_none (h : s.sdo = none) : s.sdoSegmentGo toggle last d = s := by
  rw [State.sdoSegmentGo, h]

theorem State.sdoSegmentGo_deaf (h : s.hears .coe = false) : s.sdoSegmentGo toggle last d = s := by
  unfold State.sdoSegmentGo
  split
  · exact if_neg (by simp [h])
  · rfl

theorem State.sdoSegmentGo_some (hx : s.sdo = some x) (h : s.hears .coe = true) :
    s.sdoSegmentGo toggle last d = s.sdoGo x toggle last d := by
  rw [State.sdoSegmentGo, hx]
  exact if_pos h

theorem State.sdoIdle_none (h : s.sdo = none) : s.sdoIdle = s := by
  rw [State.sdoIdle, h]

theorem State.sdoIdle_some (hx : s.sdo = some x) :
    s.sdoIdle = if x.at_ + sPs < s.up then ({ s with sdo := none } : State).emit (.sdoAbort abIdle) else s := by
  rw [State.sdoIdle, hx]

theorem State.sdoGo_toggle (h : toggle ≠ x.toggle) :
    s.sdoGo x toggle last d = ({ s with sdo := none } : State).emit (.sdoAbort abToggle) := if_pos (by simpa using h)

theorem State.sdoGo_write (h : toggle = x.toggle) (hwrite : x.write = true) : s.sdoGo x toggle last d =
    if last then s.sdoFinish x (x.data ++ d)
    else ({ s with sdo := some { x with toggle := !x.toggle, data := x.data ++ d, at_ := s.up } } : State).emit (.sdo x.index x.sub []) :=
  (if_neg (by simp [h])).trans (if_pos hwrite)

theorem State.sdoGo_read (h : toggle = x.toggle) (hread : x.write = false) : s.sdoGo x toggle last d =
    ({ s with sdo := if (x.data.drop sdoNext).isEmpty then none
        else some { x with toggle := !x.toggle, data := x.data.drop sdoNext, at_ := s.up } } : State).emit
      (.sdo x.index x.sub (x.data.take sdoNext)) :=
  (if_neg (by simp [h])).trans (if_neg (by simp [hread]))

end

-- halves of 64-bit values (R370)

theorem exec_lowHalfRead (dt : Nat) (p : Fin 2) (off : BitVec 26) (s : State) :
    exec (.lowHalfRead dt p off) s = .next ((s.elapse dt).lowRead p off.toNat) := rfl
theorem exec_highHalfRead (dt : Nat) (p : Fin 2) (off : BitVec 26) (s : State) :
    exec (.highHalfRead dt p off) s = .next ((s.elapse dt).highRead p off.toNat) := rfl
theorem exec_lowHalfWrite (dt : Nat) (p : Fin 2) (off : BitVec 26) (v : BitVec 32) (s : State) :
    exec (.lowHalfWrite dt p off v) s = .next ((s.elapse dt).lowWrite p off.toNat v.toNat) := rfl
theorem exec_highHalfWrite (dt : Nat) (p : Fin 2) (off : BitVec 26) (v : BitVec 32) (s : State) :
    exec (.highHalfWrite dt p off v) s = .next ((s.elapse dt).highWrite p off.toNat v.toNat) := rfl

section
variable {s : State} {p a v : Nat}

theorem State.lowRead_not (h : a % 8 ≠ 0 ∨ s.bar0Up p a = false) : s.lowRead p a = s := if_pos (by simpa using h)

theorem State.lowWrite_not (h : a % 8 ≠ 0 ∨ s.bar0Up p a = false) : s.lowWrite p a v = s := if_pos (by simpa using h)

theorem State.highRead_not (h : a % 8 ≠ 4 ∨ s.bar0Up p a = false) : s.highRead p a = s := if_pos (by simpa using h)

theorem State.highWrite_not (h : a % 8 ≠ 4 ∨ s.bar0Up p a = false) : s.highWrite p a v = s := if_pos (by simpa using h)

theorem State.lowRead_reads (h8 : a % 8 = 0) (hup : s.bar0Up p a = true) : s.lowRead p a =
    (if wideAt p a then (s.bar0Read p a true).1.modHost p (fun h => { h with readShadow := some (a, field (s.bar0Read p a true).2 4 4) })
      else (s.bar0Read p a true).1).emit (.busRead p ((s.bar0Read p a true).2.take 4)) := if_neg (by simp [h8, hup])

theorem State.lowWrite_writes (h8 : a % 8 = 0) (hup : s.bar0Up p a = true) : s.lowWrite p a v =
    if wideAt p a && a != blockAt p + 0x18 then (s.dropLow p).modHost p (fun h => { h with writeShadow := some (a, v) })
    else (s.dropLow p).bar0Write p a (leBytes 4 v) := if_neg (by simp [h8, hup])

theorem State.highRead_captured {hi : Nat} (h8 : a % 8 = 4) (hup : s.bar0Up p a = true) (hwide : wideAt p (a - 4) = true)
    (hshadow : (s.host p).readShadow = some (a - 4, hi)) :
    s.highRead p a = (s.modHost p (fun h => { h with readShadow := none })).emit (.busRead p (leBytes 4 hi)) := by
  unfold State.highRead
  rw [if_neg (by simp [h8, hup])]
  dsimp only
  rw [if_neg (by simp [hwide]), hshadow]
  exact if_pos rfl

theorem State.highWrite_held {lo : Nat} (h8 : a % 8 = 4) (hup : s.bar0Up p a = true)
    (hshadow : (s.host p).writeShadow = some (a - 4, lo)) : s.highWrite p a v =
      (s.modHost p (fun h => { h with writeShadow := none })).bar0Write p (a - 4) (leBytes 4 lo ++ leBytes 4 v) := by
  unfold State.highWrite
  rw [if_neg (by simp [h8, hup])]
  dsimp only
  rw [hshadow]
  exact if_pos rfl

theorem State.highWrite_alone (h8 : a % 8 = 4) (hup : s.bar0Up p a = true) (hshadow : (s.host p).writeShadow = none) :
    s.highWrite p a v = s.bar0Write p a (leBytes 4 v) := by
  unfold State.highWrite
  rw [if_neg (by simp [h8, hup])]
  dsimp only
  rw [hshadow]

end

-- access blocks (R389, R390)

theorem exec_accessBlockRead (dt : Nat) (p : Fin 2) (index : BitVec 16) (sub : BitVec 8) (res : BitVec 6) (s : State) :
    exec (.accessBlockRead dt p index sub res) s =
      .next ((s.elapse dt).blockRead p index.toNat sub.toNat false res.toNat) := rfl
theorem exec_accessBlockCompleteRead (dt : Nat) (p : Fin 2) (index : BitVec 16) (sub : BitVec 8) (res : BitVec 6) (s : State) :
    exec (.accessBlockCompleteRead dt p index sub res) s =
      .next ((s.elapse dt).blockRead p index.toNat sub.toNat true res.toNat) := rfl
theorem exec_accessBlockWrite (dt : Nat) (p : Fin 2) (index : BitVec 16) (sub : BitVec 8) (res : BitVec 6) (d : List Byte) (s : State) :
    exec (.accessBlockWrite dt p index sub res d) s =
      .next ((s.elapse dt).blockWrite p index.toNat sub.toNat false res.toNat d) := rfl
theorem exec_accessBlockCompleteWrite (dt : Nat) (p : Fin 2) (index : BitVec 16) (sub : BitVec 8) (res : BitVec 6) (d : List Byte)
    (s : State) : exec (.accessBlockCompleteWrite dt p index sub res d) s =
      .next ((s.elapse dt).blockWrite p index.toNat sub.toNat true res.toNat d) := rfl

/-- DATA after bytes have been put at its start. -/
theorem HostPort.putData_zero (h : HostPort) (bs : List Byte) : (h.putData 0 bs).data = bs ++ h.data.drop bs.length := by
  simp [HostPort.putData, padTo]

theorem padTo_append_left (a b : List Byte) : padTo a.length 0 (a ++ b) = a := by
  simp [padTo]

/-- What an access block answers: LENGTH and DATA, or ERROR and ABORT. -/
theorem State.blockAnswer_host (s : State) (p abort : Nat) (bs : List Byte) :
    (abort = 0 → ((s.blockAnswer p abort bs).host p).error = false ∧ ((s.blockAnswer p abort bs).host p).abort = 0 ∧
      ((s.blockAnswer p abort bs).host p).length = bs.length ∧
      ((s.blockAnswer p abort bs).host p).data.take bs.length = bs) ∧
    (abort ≠ 0 → ((s.blockAnswer p abort bs).host p).error = true ∧ ((s.blockAnswer p abort bs).host p).abort = abort) := by
  unfold State.blockAnswer
  rw [State.modHost_host, if_pos rfl]
  refine ⟨fun h => ?_, fun h => ?_⟩
  · subst h
    refine ⟨rfl, rfl, rfl, ?_⟩
    show List.take bs.length (HostPort.putData _ 0 bs).data = bs
    rw [HostPort.putData_zero, List.take_left]
  · have hne : (abort != 0) = true := by simpa using h
    dsimp only
    rw [if_pos hne]
    exact ⟨hne, rfl⟩

section
variable {s : State} {p i k res : Nat} {d : List Byte} {complete : Bool}

theorem State.blockRead_deaf (h : s.hears (.block p) = false) : s.blockRead p i k complete res = s := if_pos (by simp [h])

theorem State.blockWrite_deaf (h : s.hears (.block p) = false) : s.blockWrite p i k complete res d = s := if_pos (by simp [h])

theorem State.blockRead_heard (h : s.hears (.block p) = true) :
    s.blockRead p i k complete res = (s.dropLow p).blockCommand p i k false complete res := if_neg (by simp [h])

/-- A host has filled DATA and LENGTH. -/
def State.blockFill (s : State) (p : Nat) (d : List Byte) : State :=
  (s.dropLow p).modHost p (fun h => { (h.putData 0 (d.take bufferBytes)) with length := d.length })

theorem State.blockWrite_heard (h : s.hears (.block p) = true) :
    s.blockWrite p i k complete res d = (s.blockFill p d).blockCommand p i k true complete res := if_neg (by simp [h])

theorem State.blockCommand_reserved {write : Bool} (h : res ≠ 0) :
    s.blockCommand p i k write complete res = s.blockAnswer p abSub [] := if_pos (by simpa using h)

/-- What a read command reads. -/
def State.blockReads (s : State) (p i k : Nat) (complete : Bool) : Nat × State × List Byte :=
  if complete then s.completeRead (.block p) i k else s.readEntry (.block p) i k

theorem State.blockCommand_read : s.blockCommand p i k false complete 0 =
    (s.blockReads p i k complete).2.1.blockAnswer p (s.blockReads p i k complete).1 (s.blockReads p i k complete).2.2 := rfl

theorem State.blockCommand_long (h : bufferBytes < (s.host p).length) :
    s.blockCommand p i k true complete 0 = s.blockAnswer p abLength [] := by
  simp [State.blockCommand, h]

theorem State.blockCommand_write (h : (s.host p).length ≤ bufferBytes) (hdata : padTo (s.host p).length 0 (s.host p).data = d) :
    s.blockCommand p i k true complete 0 = if complete then
        (s.completeWrite (.block p) i k d).2.reply (.block p) i k (s.completeWrite (.block p) i k d).1
      else s.writeVia (.block p) i k d (State.writeAct (2 + p) false i k d) := by
  subst hdata
  simp [State.blockCommand, h.not_gt]

/-- Filling DATA leaves what the port answers by. -/
theorem State.blockFill_hears (s : State) (p : Nat) (d : List Byte) :
    (s.blockFill p d).hears (.block p) = s.hears (.block p) := by
  have hkeeps := State.modHost_keeps (by decide : Within [.hosts] [Part.od, .hosts]) p
    (fun h => { (h.putData 0 (d.take bufferBytes)) with length := d.length }) (State.dropLow_keeps (Within.refl _) p (.refl _ s))
  have hrun : (s.blockFill p d).run = s.run := hkeeps.run_eq (by decide)
  have hunit : (s.blockFill p d).unit (hostRef p) = s.unit (hostRef p) := hkeeps.unit_eq _ (by decide)
  have hhost : (s.blockFill p d).host p =
      { (({ s.host p with writeShadow := none } : HostPort).putData 0 (d.take bufferBytes)) with length := d.length } := by
    rw [State.blockFill, State.modHost_host, if_pos rfl, State.dropLow_host]
  simp only [State.hears, State.busUp, hrun, hunit, hhost]
  rfl

theorem State.blockFill_host (s : State) (p : Nat) {d : List Byte} (h : d.length ≤ bufferBytes) :
    ((s.blockFill p d).host p).length = d.length ∧
      padTo ((s.blockFill p d).host p).length 0 ((s.blockFill p d).host p).data = d := by
  have hhost : (s.blockFill p d).host p =
      { (({ s.host p with writeShadow := none } : HostPort).putData 0 (d.take bufferBytes)) with length := d.length } := by
    rw [State.blockFill, State.modHost_host, if_pos rfl, State.dropLow_host]
  rw [hhost]
  refine ⟨rfl, ?_⟩
  show padTo d.length 0 (HostPort.putData _ 0 (d.take bufferBytes)).data = d
  rw [HostPort.putData_zero, List.take_of_length_le h, padTo_append_left]

end

end Sys2Proof.Machine
end

section
/-! Settling O50. -/

namespace Sys2Proof.Machine

/-- Entries without an action of their own are only stored. -/
theorem State.writeAct_stored (s : State) (m : Nat) (coe : Bool) (d : List Byte) {i k : Nat}
    (h : (i, k) ∈ [(0x2300, 0x14), (0x2300, 0xE), (0x2500, 8), (0x4003, 6), (0x4010, 6)]) :
    s.writeAct m coe i k d = (0, s.setVal i k (leNat d)) := by
  have hall : ∀ e ∈ [(0x2300, 0x14), (0x2300, 0xE), (0x2500, 8), (0x4003, 6), (0x4010, 6)],
      isPeer e.1 e.2 = false ∧ isRegion e.1 e.2 = false ∧ isGrant e.1 e.2 = false := by decide
  refine State.writeAct_plain ?_ (hall _ h) ?_ <;>
  · simp only [List.mem_cons, Prod.mk.injEq, List.not_mem_nil, or_false] at h
    obtain ⟨rfl, rfl⟩ | ⟨rfl, rfl⟩ | ⟨rfl, rfl⟩ | ⟨rfl, rfl⟩ | ⟨rfl, rfl⟩ := h <;> intros <;> rfl

section
variable {s : State} {r : SdoStart} {last : Bool} {d : List Byte}

theorem State.sdoOpen_deaf (h : s.hears .coe = false) : s.sdoOpen r last d = s := if_pos (by simp [h])

theorem State.sdoOpen_read (h : s.hears .coe = true) (hread : r.write = false) : s.sdoOpen r last d =
    ({ s with sdo := none } : State).sdoRead r.index.toNat r.sub.toNat r.complete :=
  (if_neg (by simp [h])).trans (if_pos (by simp [hread]))

theorem State.sdoOpen_starts (h : s.hears .coe = true) (hwrite : r.write = true) : s.sdoOpen r false d =
    ({ s with sdo := some { index := r.index.toNat, sub := r.sub.toNat, complete := r.complete, write := true, toggle := false
                            data := d, at_ := s.up } } : State).emit (.sdo r.index.toNat r.sub.toNat []) :=
  (if_neg (by simp [h])).trans ((if_neg (by simp [hwrite])).trans (if_neg (by decide)))

end

/-- What a refused access block leaves: ERROR, the code, and the memory. -/
def State.BlockRefused (s t : State) (p abort : Nat) : Prop := (t.host p).error = true ∧ (t.host p).abort = abort ∧ t.mem = s.mem

theorem State.blockAnswer_refuses {s t : State} (p : Nat) {abort : Nat} (h : abort ≠ 0) (hmem : t.mem = s.mem) :
    s.BlockRefused (t.blockAnswer p abort []) p abort :=
  ⟨((t.blockAnswer_host p abort []).2 h).1, ((t.blockAnswer_host p abort []).2 h).2,
    ((State.blockAnswer_keeps (Within.refl _) p abort [] (.refl _ t)).mem_eq (by decide)).trans hmem⟩

theorem State.dropLow_mem (s : State) (p : Nat) : (s.dropLow p).mem = s.mem :=
  (State.dropLow_keeps (Within.refl _) p (.refl _ s)).mem_eq (by decide)

/-- Reserved bits of the command refuse each of the four commands of an access block. -/
theorem State.block_reserved {s : State} {p : Nat} (hears : s.hears (.block p) = true) (i k res : Nat) (complete : Bool) (d : List Byte)
    (h : res ≠ 0) : s.BlockRefused (s.blockRead p i k complete res) p 0x06090011 ∧
      s.BlockRefused (s.blockWrite p i k complete res d) p 0x06090011 := by
  rw [State.blockRead_heard hears, State.blockWrite_heard hears, State.blockCommand_reserved h, State.blockCommand_reserved h]
  exact ⟨State.blockAnswer_refuses p (by decide) (s.dropLow_mem p), State.blockAnswer_refuses p (by decide) (s.dropLow_mem p)⟩

/-- A write that has no room in DATA. -/
theorem State.blockWrite_long {s : State} {p : Nat} (hears : s.hears (.block p) = true) (i k : Nat) (complete : Bool) {d : List Byte}
    (h : bufferBytes < d.length) : s.BlockRefused (s.blockWrite p i k complete 0 d) p 0x06070010 := by
  have hlength : ((s.blockFill p d).host p).length = d.length := by rw [State.blockFill, State.modHost_host, if_pos rfl]
  rw [State.blockWrite_heard hears, State.blockCommand_long (by rw [hlength]; exact h)]
  exact State.blockAnswer_refuses p (by decide) (s.dropLow_mem p)

/-- A block's reply to a write that its gate refuses. -/
theorem State.writeVia_block_refused {s : State} {p i k : Nat} {d : List Byte} {act : State → Nat × State}
    (hears : s.hears (.block p) = true) (h : (s.writeGate (.block p) i k d).1 ≠ 0) :
    ((s.writeVia (.block p) i k d act).host p).error = true ∧
      ((s.writeVia (.block p) i k d act).host p).abort = (s.writeGate (.block p) i k d).1 := by
  rw [State.writeVia_gated hears h]
  simp [State.reply, State.modHost_host, h]

/-- Settles O50: an access is refused by its gate with the gate's code, or acts, over CoE, at a slot and through a block alike; segments,
halves of 64-bit values and blocks keep what they hold in the transfer, the shadows and DATA. The mailbox's sizes are the model's choice
(log entry 50), slot reads and BUSY are log entry 51, and the order of the checks that give the abort code is log entry 15. -/
theorem dictionaryRoadsReadAndWrite : Obligations.DictionaryRoadsReadAndWrite := by
  refine ⟨fun s m coe d e h => s.writeAct_stored m coe d h, ?coe, ?direct, ?segments, ?opening, ?halves, ?blocks⟩
  case coe =>
    rintro s b dt i k index sub d hb hi hk hcomm
    simp only [exec_entryWrite, exec_rcEntryRead, ← hb, ← hi, ← hk, State.entryWrite_coe hcomm]
    refine ⟨fun hdeaf => ⟨by rw [State.writeVia_deaf hdeaf], by rw [State.entryRead_coe_deaf hdeaf]⟩, fun hears => ?_⟩
    rw [State.entryRead_coe hcomm hears]
    refine ⟨fun hgate => ?_, fun hgate => ?_, fun hgate => ?_, fun hgate hshort => ?_⟩
    · rw [State.writeVia_gated hears hgate, State.reply_coe_refused hgate]
    · rw [State.writeVia_acts hears hgate]
    · rw [State.readEntry_refused hgate, sdoAnswer, if_neg hgate]
    · refine ⟨_, rfl, ?_⟩
      have heffect := fun hcell => b.clearRead_effect (m := 1) (k := k) (i := i) hcell
      have hout : (b.clearRead 1 i k).out = b.out :=
        (State.clearRead_keeps (Within.refl _) 1 i k (.refl _ b)).out_eq (by decide)
      rw [State.readEntry_passes hgate, sdoAnswer, if_pos rfl]
      dsimp only [Via.master]
      rw [State.sdoSend_out _ i k false hshort]
      refine ⟨?_, fun hcell => (heffect hcell).1, fun hcell => (heffect hcell).2⟩
      rw [State.emit_out]
      exact congrArg (· ++ _) hout
  case direct =>
    rintro s b dt i k p index sub d hb hi hk hvia
    simp only [exec_entryWrite, exec_rcEntryRead, ← hb, ← hi, ← hk, State.entryWrite_direct hvia, State.entryRead_direct hvia]
    refine ⟨fun hdeaf => by simp [hdeaf], fun hears hshadow => ?_⟩
    rw [if_pos hears, if_pos hears, State.dropLow_none hshadow]
    refine ⟨fun hgate => ?_, fun hgate => ?_, rfl⟩
    · rw [State.writeVia_gated hears hgate, State.reply_direct_refused hgate]
    · rw [State.writeVia_acts hears hgate]
  case segments =>
    rintro s b dt toggle last d x hb
    simp only [exec_sdoSegment_go, exec_sdoSegmentTimeout, ← hb]
    refine ⟨fun h => by rw [State.sdoSegmentGo_none h, State.sdoIdle_none h]; exact ⟨rfl, rfl⟩, fun hx => ?_⟩
    refine ⟨fun h => ?_, fun h => ?_, fun h => by rw [State.sdoSegmentGo_deaf h], fun hears h => ?_, fun hears h => ?_⟩
    · rw [State.sdoIdle_some hx, if_neg (show ¬ x.at_ + sPs < b.up from h.not_gt)]
    · rw [State.sdoIdle_some hx, if_pos (show x.at_ + sPs < b.up from h)]
      rfl
    · rw [State.sdoSegmentGo_some hx hears, State.sdoGo_toggle h]
      rfl
    rw [State.sdoSegmentGo_some hx hears]
    refine ⟨fun hwrite hlast => ?_, fun hwrite hlast => ⟨_, rfl, ?_⟩, fun hread => ⟨_, rfl, ?_⟩⟩
    · rw [State.sdoGo_write h hwrite, if_pos hlast]
    · rw [State.sdoGo_write h hwrite, if_neg (by simp [hlast])]
      exact ⟨rfl, rfl⟩
    · rw [State.sdoGo_read h hread]
      refine ⟨rfl, fun hrest => ?_, fun hrest => ?_⟩
      · exact if_pos (by simpa [sdoNext] using hrest)
      · exact if_neg (by simpa [sdoNext] using hrest)
  case opening =>
    rintro s b dt r toggle last d hb
    rw [exec_sdoSegment_open, ← hb]
    refine ⟨fun h => by rw [State.sdoOpen_deaf h], fun h hread => by rw [State.sdoOpen_read h hread], fun h hwrite hlast => ?_⟩
    subst hlast
    rw [State.sdoOpen_starts h hwrite]
    exact ⟨_, rfl, rfl, rfl⟩
  case halves =>
    rintro s b dt a p off v hb ha
    simp only [exec_lowHalfRead, exec_lowHalfWrite, exec_highHalfRead, exec_highHalfWrite, ← hb, ← ha]
    refine ⟨fun h => by rw [State.lowRead_not h, State.lowWrite_not h]; exact ⟨rfl, rfl⟩,
      fun h => by rw [State.highRead_not h, State.highWrite_not h]; exact ⟨rfl, rfl⟩, fun h8 hup => ?_, fun h8 hup => ?_⟩
    · rw [State.lowRead_reads h8 hup, State.lowWrite_writes h8 hup]
      refine ⟨fun hwide => by simp [hwide], fun hwide => ⟨_, rfl, ?_⟩, fun hwide hblock => ⟨_, rfl, ?_⟩, fun hwide hshadow => ?_⟩
      · rw [if_pos hwide]
        exact ⟨rfl, by rw [State.emit_host, State.modHost_host, if_pos rfl]⟩
      · have hkeeps := State.dropLow_keeps (Within.refl _) p (.refl _ b)
        rw [if_pos (by simp [hwide, hblock])]
        exact ⟨by rw [State.modHost_host, if_pos rfl], hkeeps.mem_eq (by decide), hkeeps.out_eq (by decide),
          hkeeps.streams_eq (by decide)⟩
      · rw [if_neg (by simp [hwide]), State.dropLow_none hshadow]
    · refine ⟨fun hi hwide hshadow => ⟨_, rfl, ?_⟩, fun lo hshadow => by rw [State.highWrite_held h8 hup hshadow],
        fun hshadow => by rw [State.highWrite_alone h8 hup hshadow]⟩
      rw [State.highRead_captured h8 hup hwide hshadow]
      exact ⟨rfl, by rw [State.emit_host, State.modHost_host, if_pos rfl], rfl⟩
  case blocks =>
    rintro s b c dt i k p index sub res d hb hi hk rfl
    refine ⟨fun h x hx => ?_, fun hears hres x hx => ?_, fun hears hres => ?_⟩
    · simp only [List.mem_cons, List.not_mem_nil, or_false] at hx
      rcases hx with rfl | rfl | rfl | rfl
      · rw [exec_accessBlockRead, ← hb, State.blockRead_deaf h]
      · rw [exec_accessBlockCompleteRead, ← hb, State.blockRead_deaf h]
      · rw [exec_accessBlockWrite, ← hb, State.blockWrite_deaf h]
      · rw [exec_accessBlockCompleteWrite, ← hb, State.blockWrite_deaf h]
    · have hne : res.toNat ≠ 0 := fun h0 => hres (BitVec.eq_of_toNat_eq h0)
      have hrefused := fun complete => State.block_reserved hears i k res.toNat complete d hne
      rw [hb, hi, hk] at hrefused
      simp only [List.mem_cons, List.not_mem_nil, or_false] at hx
      rw [hb]
      rcases hx with rfl | rfl | rfl | rfl
      · exact ⟨_, rfl, (hrefused false).1⟩
      · exact ⟨_, rfl, (hrefused true).1⟩
      · exact ⟨_, rfl, (hrefused false).2⟩
      · exact ⟨_, rfl, (hrefused true).2⟩
    subst hres
    have hzero : (0 : BitVec 6).toNat = 0 := rfl
    have hread : ∀ complete, b.blockRead p i k complete 0 =
        ((b.dropLow p).blockReads p i k complete).2.1.blockAnswer p ((b.dropLow p).blockReads p i k complete).1
          ((b.dropLow p).blockReads p i k complete).2.2 := fun complete => by
      rw [State.blockRead_heard hears, State.blockCommand_read]
    refine ⟨?reads, fun hfits m hm => ?writes, fun hlong x hx => ?long⟩
    case reads =>
      intro e he
      simp only [List.mem_cons, List.not_mem_nil, or_false] at he
      rcases he with rfl | rfl
      · rw [exec_accessBlockRead, ← hb, ← hi, ← hk, hzero, hread]
        exact ⟨fun h0 => ⟨_, rfl, (State.blockAnswer_host _ p _ _).1 h0⟩, fun h0 => ⟨_, rfl, (State.blockAnswer_host _ p _ _).2 h0⟩⟩
      · rw [exec_accessBlockCompleteRead, ← hb, ← hi, ← hk, hzero, hread]
        exact ⟨fun h0 => ⟨_, rfl, (State.blockAnswer_host _ p _ _).1 h0⟩, fun h0 => ⟨_, rfl, (State.blockAnswer_host _ p _ _).2 h0⟩⟩
    case writes =>
      have hfill : b.blockFill p d = m := by
        rw [hm, State.blockFill, List.take_of_length_le (show d.length ≤ bufferBytes from hfits)]
      obtain ⟨hlength, hdata⟩ := b.blockFill_host p (show d.length ≤ bufferBytes from hfits)
      have hmears : m.hears (.block p) = true := by rw [← hfill, State.blockFill_hears, hears]
      have hwrite : ∀ complete, b.blockWrite p i k complete 0 d = if complete then
          (m.completeWrite (.block p) i k d).2.reply (.block p) i k (m.completeWrite (.block p) i k d).1
          else m.writeVia (.block p) i k d (State.writeAct (2 + p) false i k d) := fun complete => by
        rw [State.blockWrite_heard hears, State.blockCommand_write (hlength.trans_le hfits) hdata, hfill]
      rw [exec_accessBlockWrite, exec_accessBlockCompleteWrite, ← hb, ← hi, ← hk, hzero, hwrite, hwrite]
      refine ⟨fun hgate => ⟨_, rfl, State.writeVia_block_refused hmears hgate⟩, fun hgate => ?_, rfl⟩
      rw [if_neg (by decide), State.writeVia_acts hmears hgate]
    case long =>
      have hrefused := fun complete => State.blockWrite_long hears i k complete (show bufferBytes < d.length from hlong)
      simp only [List.mem_cons, List.not_mem_nil, or_false] at hx
      rcases hx with rfl | rfl
      · rw [exec_accessBlockWrite, ← hb, ← hi, ← hk, hzero]
        exact ⟨_, rfl, (hrefused false).1, (hrefused false).2.1⟩
      · rw [exec_accessBlockCompleteWrite, ← hb, ← hi, ← hk, hzero]
        exact ⟨_, rfl, (hrefused true).1, (hrefused true).2.1⟩

end Sys2Proof.Machine
end

section
/-! States that meet the hypotheses of O50. -/

namespace Sys2Proof.Machine

open Tests (served)

/-- A plain entry written over CoE holds the value, and the mailbox acknowledges it. -/
theorem witness_entryWrite : exec (.entryWrite 0 .coe 0x4003#16 6#8 (leBytes 1 7)) served =
    .next (((served.elapse 0).setVal 0x4003 6 7).emit (.sdo 0x4003 6 [])) := by
  obtain ⟨hplain, hcoe, -⟩ := dictionaryRoadsReadAndWrite
  obtain ⟨-, hheard⟩ := hcoe served _ 0 0x4003 6 0x4003#16 6#8 (leBytes 1 7) rfl rfl rfl (by decide)
  obtain ⟨-, hacts, -⟩ := hheard (by decide)
  rw [hacts (by decide +kernel), hplain _ 1 true (leBytes 1 7) (0x4003, 6) (by decide)]
  rfl

/-- A served part with a write transfer in progress. -/
def writingSegments : State := { served with sdo := some { index := 0x2020, sub := 1, write := true, data := [1], at_ := 0 } }

/-- A segment with the other toggle aborts the transfer, one with its toggle is kept with what came before. -/
theorem witness_segments : exec (.sdoSegment 0 none true false [2]) writingSegments =
      .next (({ writingSegments.elapse 0 with sdo := none } : State).emit (.sdoAbort 0x05030000)) ∧
    ∃ t, exec (.sdoSegment 0 none false false [2]) writingSegments = .next t ∧ t.sdo.map (fun x => x.data) = some [1, 2] := by
  obtain ⟨-, -, -, hsegments, -⟩ := dictionaryRoadsReadAndWrite
  obtain ⟨-, hsome⟩ := hsegments writingSegments _ 0 true false [2] _ rfl
  obtain ⟨-, -, -, habort, -⟩ := hsome rfl
  obtain ⟨-, hsome'⟩ := hsegments writingSegments _ 0 false false [2] _ rfl
  obtain ⟨-, -, -, -, hgoes⟩ := hsome' rfl
  obtain ⟨-, hkeeps, -⟩ := hgoes (by decide) rfl
  obtain ⟨t, ht, hsdo, -⟩ := hkeeps rfl rfl
  exact ⟨habort (by decide) (by decide), t, ht, by rw [hsdo]; rfl⟩

/-- A served part whose host port A has a link and configuration space. -/
def hostServed : State := { served with
  units := tmod served.units (hostRef 0) (fun u => { u with st := .ready })
  hosts := tset served.hosts 0 { linkUp := true, configured := true, perst := false } }

/-- A block's command with reserved bits, and one with more data than fits, are refused with the code of each. -/
theorem witness_blockRefused : (∃ t, exec (.accessBlockRead 0 0 0x1000#16 0#8 1#6) hostServed = .next t ∧
      (t.host 0).error = true ∧ (t.host 0).abort = 0x06090011) ∧
    ∃ t, exec (.accessBlockWrite 0 0 0x1000#16 0#8 0#6 (List.replicate 520193 0)) hostServed = .next t ∧
      (t.host 0).error = true ∧ (t.host 0).abort = 0x06070010 := by
  obtain ⟨-, -, -, -, -, -, hblocks⟩ := dictionaryRoadsReadAndWrite
  obtain ⟨-, hreserved, -⟩ := hblocks hostServed _ _ 0 _ _ 0 0x1000#16 0#8 1#6 [] rfl rfl rfl rfl
  obtain ⟨-, -, hclear⟩ := hblocks hostServed _ _ 0 _ _ 0 0x1000#16 0#8 0#6 (List.replicate 520193 0) rfl rfl rfl rfl
  obtain ⟨t, ht, herror, habort, -⟩ := hreserved (by decide) (by decide) _ (List.mem_cons_self ..)
  obtain ⟨-, -, hlong⟩ := hclear (by decide) rfl
  obtain ⟨u, hu⟩ := hlong (by rw [List.length_replicate]; omega) _ (List.mem_cons_self ..)
  exact ⟨⟨t, ht, herror, habort⟩, u, hu⟩

end Sys2Proof.Machine
end

section
/-! Process data, summaries, pins, events and alarms (R373 to R378, R395, R396, R489 to R493): the statement O51. -/

namespace Sys2Proof.Machine

theorem exec_txpdoSample (dt : Nat) (s : State) : exec (.txpdoSample dt) s = .next
    (if (s.elapse dt).run.st = .off || (s.elapse dt).al < 2 then s.elapse dt
      else (s.elapse dt).emit (.txpdo (txpdoMap.flatMap (fun e => padTo (e.2.2 / 8) 0 ((s.elapse dt).stored 0 e.1 e.2.1))))) := rfl
theorem exec_alStateChange (dt : Nat) (al : Fin 4) (s : State) : exec (.alStateChange dt al) s = .next
    (if (s.elapse dt).run.st = .off then s.elapse dt
      else { s.elapse dt with al := al, sdo := if al = 0 then none else (s.elapse dt).sdo }) := rfl
theorem exec_sdoInformation (dt : Nat) (req : Fin 3) (index : BitVec 16) (sub : BitVec 8) (s : State) :
    exec (.sdoInformation dt req index sub) s = .next ((s.elapse dt).sdoInformation req index.toNat sub.toNat) := rfl
theorem exec_emergencyMailboxRead (dt : Nat) (s : State) : exec (.emergencyMailboxRead dt) s = .next (s.elapse dt).mailboxRead := rfl
theorem exec_resynchronise (dt : Nat) (road : Road) (token : BitVec 32) (s : State) : exec (.resynchronise dt road token) s =
    .next ((s.elapse dt).writeRow road 0x2010 1 (leBytes 4 token.toNat)
      (State.resyncAct (viaOf road 0x2010 1).master token.toNat)) := rfl
theorem exec_summarySnapshot (dt : Nat) (k : Fin 3) (s : State) :
    exec (.summarySnapshot dt k) s = .next ((s.elapse dt).snapshotSummary k) := rfl
theorem exec_summaryReady (dt : Nat) (k : Fin 3) (s : State) :
    exec (.summaryReady dt k) s = .next ((s.elapse dt).readySummary k) := rfl
theorem exec_pinTableWrite (dt : Nat) (road : Road) (d : List Byte) (s : State) :
    exec (.pinTableWrite dt road d) s = .next ((s.elapse dt).writeRow road 0x2020 1 d (State.pinAct d)) := rfl
theorem exec_eventFetch (dt : Nat) (road : Road) (sub : BitVec 8) (s : State) : exec (.eventFetch dt road sub) s = .next
    (if 1 ≤ sub.toNat && sub.toNat ≤ 3 then (s.elapse dt).entryRead road 0x7003 sub.toNat else s.elapse dt) := rfl
theorem exec_cursorWrite (dt : Nat) (road : Road) (sub : BitVec 8) (v : BitVec 64) (s : State) :
    exec (.cursorWrite dt road sub v) s = .next (if 4 ≤ sub.toNat && sub.toNat ≤ 6 then
      (s.elapse dt).writeRow road 0x7003 sub.toNat (leBytes 8 v.toNat) (store 0x7003 sub.toNat v.toNat) else s.elapse dt) := rfl
theorem exec_exportDatagram (dt : Nat) (s : State) : exec (.exportDatagram dt) s = .next (s.elapse dt).sendDatagram := rfl
theorem exec_stormPeriodEnd (dt : Nat) (k : Fin 3) (s : State) :
    exec (.stormPeriodEnd dt k) s = .next ((s.elapse dt).stormPeriod k) := rfl
theorem exec_alarmAcknowledge (dt : Nat) (road : Road) (entry : BitVec 32) (s : State) : exec (.alarmAcknowledge dt road entry) s =
    .next ((s.elapse dt).writeRow road 0x7001 2 (leBytes 4 entry.toNat) (State.acknowledgeAct entry.toNat)) := rfl

-- the TxPDO (R373, R378)

theorem padTo_length {α : Type} (n : Nat) (d : α) (l : List α) : (padTo n d l).length = n := by
  simp [padTo]
  omega

/-- A TxPDO: its length, and the run, twin and lock states behind the first entry. -/
theorem State.txpdo_fields (s : State) :
    (txpdoMap.flatMap (fun e => padTo (e.2.2 / 8) 0 (s.stored 0 e.1 e.2.1))).length = 16 ∧
    ((txpdoMap.flatMap (fun e => padTo (e.2.2 / 8) 0 (s.stored 0 e.1 e.2.1))).drop 4).take 3 =
      [BitVec.ofNat 8 s.run.st.code, BitVec.ofNat 8 s.twin.st.code, BitVec.ofNat 8 s.time.lock.code] := by
  have hrun : s.stored 0 0x2000 1 = [BitVec.ofNat 8 s.run.st.code] := rfl
  have htwin : s.stored 0 0x2201 1 = [BitVec.ofNat 8 s.twin.st.code] := rfl
  have hlock : s.stored 0 0x2100 1 = [BitVec.ofNat 8 s.time.lock.code] := rfl
  constructor
  · simp only [List.length_flatMap, padTo_length]
    rfl
  · simp only [txpdoMap, List.flatMap_cons, hrun, htwin, hlock]
    rw [List.drop_left' (padTo_length _ _ _)]
    rfl

-- SDO Information (R378)

section
variable {s : State} {req index sub : Nat}

theorem State.sdoInformation_deaf (h : s.hears .coe = false) : s.sdoInformation req index sub = s := if_pos (by simp [h])

theorem State.sdoInformation_boot (h : s.hears .coe = true) (hboot : s.run.st = .boot) :
    s.sdoInformation req index sub = s.emit (.sdoAbort abRunState) := (if_neg (by simp [h])).trans (if_pos hboot)

theorem State.sdoInformation_list (h : s.hears .coe = true) (hboot : s.run.st ≠ .boot) :
    s.sdoInformation 0 index sub = s.emit (.sdo 0 0 (table 2 objectList)) :=
  (if_neg (by simp [h])).trans ((if_neg hboot).trans (if_pos rfl))

theorem State.sdoInformation_noObject (h : s.hears .coe = true) (hboot : s.run.st ≠ .boot) (hreq : req ≠ 0)
    (hexists : odIndexExists index = false) (hcomm : commObject index = false) :
    s.sdoInformation req index sub = s.emit (.sdoAbort abIndex) :=
  (if_neg (by simp [h])).trans ((if_neg hboot).trans ((if_neg hreq).trans (if_pos (by simp [hexists, hcomm]))))

theorem State.sdoInformation_answers (h : s.hears .coe = true) (hboot : s.run.st ≠ .boot) (hreq : req ≠ 0)
    (hexists : odIndexExists index = true) : ∃ o, s.sdoInformation req index sub = s.emit o := by
  unfold State.sdoInformation
  rw [if_neg (by simp [h]), if_neg hboot, if_neg hreq, if_neg (by simp [hexists])]
  split
  · exact ⟨_, rfl⟩
  split <;> exact ⟨_, rfl⟩

end

-- the mailbox (R377)

theorem State.mailboxRead_nothing {s : State} (h : s.al = 0 ∨ s.run.st = .off ∨ s.run.st = .boot ∨ s.events.emergency.records = []) :
    s.mailboxRead = s := by
  unfold State.mailboxRead
  split
  · rfl
  next hsends =>
    simp only [Bool.or_eq_true, decide_eq_true_eq, not_or] at hsends
    obtain ⟨⟨hal, hoff⟩, hboot⟩ := hsends
    rw [((h.resolve_left hal).resolve_left hoff).resolve_left hboot]

theorem State.mailboxRead_sends {s : State} {e : Event} {rest : List Event} (hal : s.al ≠ 0) (hoff : s.run.st ≠ .off)
    (hboot : s.run.st ≠ .boot) (h : s.events.emergency.records = e :: rest) : s.mailboxRead =
      ({ s with events := s.events.modSink 1 (fun sk => { sk with records := rest }) } : State).emit
        (.emergency (e.emergency s.errorRegister)) := by
  unfold State.mailboxRead
  rw [if_neg (by simp [hal, hoff, hboot]), h]

-- summaries (R396)

section
variable {s : State} {k token at_ : Nat}

theorem State.snapshotSummary_none (h : (tget s.summaries k).request = none) : s.snapshotSummary k = s := by
  simp [State.snapshotSummary, h]

theorem State.snapshotSummary_some (h : (tget s.summaries k).request = some (token, at_)) : s.snapshotSummary k =
    if (tget s.summaries k).latched.isSome || s.ns < at_ then s
    else { s with summaries := tmod s.summaries k (fun x => { x with latched := some (s.summary token at_) }) } := by
  unfold State.snapshotSummary
  dsimp only
  rw [h]

theorem State.readySummary_none (h : (tget s.summaries k).request = none ∨ (tget s.summaries k).latched = none) :
    s.readySummary k = s := by
  unfold State.readySummary
  dsimp only
  split
  next hrequest hlatched => rw [hrequest, hlatched] at h; simp at h
  next => rfl

theorem State.readySummary_some {d : List Byte} (h : (tget s.summaries k).request = some (token, at_))
    (hlatched : (tget s.summaries k).latched = some d) :
    s.readySummary k = { s with summaries := tset s.summaries k { held := d, ready := token } } := by
  unfold State.readySummary
  dsimp only
  rw [h, hlatched]

/-- What a request leaves of its master's summary. -/
theorem State.resyncAct_request (m : Nat) (h : token ≠ 0) : ∃ at_, (State.resyncAct m token s).1 = 0 ∧
    tget (State.resyncAct m token s).2.summaries (m - 1) =
      { tget s.summaries (m - 1) with request := some (token, at_), latched := none } ∧
    at_ % 1000 = 0 ∧ s.clock.now + 50000000 ≤ 1000 * at_ ∧ 1000 * at_ < s.clock.now + 51000000 := by
  refine ⟨ceilDiv (s.clock.now + 50 * usPs) usPs * 1000, ?_⟩
  rw [State.resyncAct, if_neg h]
  refine ⟨rfl, ?_, ?_⟩
  · dsimp only [accept]
    rw [tget_tmod, if_pos rfl]
  · simp only [ceilDiv, usPs]
    omega

end

-- the pin table (R395)

section
variable {s : State} {d : List Byte}

/-- The entries of a pin table. -/
def pinEntries (d : List Byte) : List Nat := (List.range (d.length / 4)).map (fun i => field d (4 * i) 4)

theorem State.pinAct_entries (h4 : d.length % 4 = 0) (hlength : d.length ≤ 4096) : State.pinAct d s =
    if !(pinEntries d).all s.pinOk || !(((pinEntries d).map (fun e => (pinJob e, pinTag e))).Nodup : Bool) then refuse abRange s
    else if (pinEntries d).any (fun e => pinPlace e != 0 && (s.pinLayer e).any (fun y => y.pin != 0)) then refuse abStore s
    else accept { s with pins := pinEntries d } := if_neg (by simp [h4, hlength])

end

-- events (R489, R490, R493)

/-- A response leaves the mailbox: the first part at once. -/
theorem State.sdoSend_effect (s : State) (i k : Nat) (complete : Bool) (bs : List Byte) :
    (s.sdoSend i k complete bs).out = s.out ++ [.sdo i k (bs.take 1008)] ∧ (s.sdoSend i k complete bs).od = s.od ∧
    (s.sdoSend i k complete bs).events = s.events := by
  unfold State.sdoSend
  dsimp only
  split <;> exact ⟨rfl, rfl, rfl⟩

section
variable {s : State} {m : Nat} {e : Event} {rest : List Event}

theorem State.fetched_cons (h : s.events.wheel.records.filter (fun x => s.cursor m < x.seq) = e :: rest) :
    s.fetched m = e :: rest.take 31 := by
  rw [State.fetched, h]
  rfl

theorem State.fetchBytes_cons (h : s.fetched m = e :: rest) :
    s.fetchBytes m = e.bytes (s.cursor m < s.events.evicted) ++ rest.flatMap (fun x => x.bytes false) := by
  rw [State.fetchBytes, h]

theorem State.advanceCursor_cons (h : s.fetched m = e :: rest) :
    s.advanceCursor m = s.setVal 0x7003 (m + 3) (rest.getLast?.getD e).seq := by
  rw [State.advanceCursor, h, List.getLast?_cons]

end

/-- The device's own packet answers nothing by itself and leaves the events. -/
theorem State.sendOwn_out (s : State) (p : Packet) : (s.sendOwn p).out = s.out := by
  have hqueue : ∀ out cls, (s.queueFrame out cls { pkt := p }).out = s.out := fun out cls => by
    unfold State.queueFrame
    split
    · exact State.bump_out ..
    · rfl
  unfold State.sendOwn
  split
  · exact State.bump_out ..
  split
  · exact State.bump_out ..
  · exact hqueue ..

theorem State.sendOwn_events (s : State) (p : Packet) : (s.sendOwn p).events = s.events :=
  (State.sendOwn_keeps (Within.refl _) p (.refl _ s)).events_eq (by decide)

theorem State.sendDatagram_due {s : State} (h : s.datagramDue = true) :
    s.sendDatagram.out = s.out ++ [.datagram (datagramBytes s.events.datagrams (s.events.export_.records.take 32))] ∧
    s.sendDatagram.events.export_.records = s.events.export_.records.drop 32 ∧
    s.sendDatagram.events.datagrams = (s.events.datagrams + 1) % 2 ^ 32 := by
  rw [State.sendDatagram, if_neg (by simp [h])]
  dsimp only
  rw [State.sendOwn_out, State.sendOwn_events]
  exact ⟨rfl, rfl, rfl⟩

theorem Events.modSink_sink (e : Events) (k : Fin 3) (f : Sink → Sink) : (e.modSink k f).sink k = f (e.sink k) := by
  match k with
  | 0 | 1 | 2 => rfl

-- alarms (R491)

theorem State.acknowledgeAct_one {s : State} {v : Nat} (h : v ≤ 1023) : State.acknowledgeAct v s =
    if (tget s.events.alarms v).st = 2 then accept { s with events := { s.events with alarms := tdel s.events.alarms v } }
    else refuse abState s := (if_neg (by omega)).trans (if_neg (by omega))

end Sys2Proof.Machine
end

section
/-! Settling O51. -/

namespace Sys2Proof.Machine

/-- Settles O51: each road of process data, summaries, pins and events does what its condition says, and else nothing. The mailbox's size
and the AL transitions are the model's choice (log entry 50), the forms of SDO Information are log entry 21, and the headers of datagrams
and the periods of a storm are log entry 52. -/
theorem processDataSummariesAndEvents : Obligations.ProcessDataSummariesAndEvents := by
  refine ⟨?process, ?mailbox, ?resync, ?summaries, ?pins, ?fetch, ?noFetch, ?cursor, ?datagram, ?storm, ?alarm⟩
  case process =>
    rintro s b dt al req index sub hb
    simp only [exec_txpdoSample, exec_alStateChange, exec_sdoInformation, ← hb]
    refine ⟨fun h => by rw [if_pos (by simpa using h)], fun hoff hal => ⟨_, by rw [if_neg (by simp [hoff]; omega)], b.txpdo_fields⟩,
      fun h => by rw [if_pos h], fun h => by rw [if_neg h], fun h => by rw [State.sdoInformation_deaf h],
      fun h hboot => by rw [State.sdoInformation_boot h hboot]; rfl, fun h hboot => ⟨?_, ?_, ?_⟩⟩
    · rintro rfl
      exact congrArg Host.Outcome.next (State.sdoInformation_list h hboot)
    · intro hreq hexists hcomm
      rw [State.sdoInformation_noObject h hboot (fun h0 => hreq (Fin.ext h0)) hexists hcomm]
      rfl
    · intro hreq hexists _
      obtain ⟨o, ho⟩ := State.sdoInformation_answers (sub := sub.toNat) h hboot (fun h0 => hreq (Fin.ext h0)) hexists
      exact ⟨o, congrArg Host.Outcome.next ho⟩
  case mailbox =>
    rintro s b dt hb
    rw [exec_emergencyMailboxRead, ← hb]
    refine ⟨fun h => by rw [State.mailboxRead_nothing h], fun e rest hal hoff hboot h => ⟨_, rfl, ?_⟩⟩
    rw [State.mailboxRead_sends hal hoff hboot h]
    exact ⟨rfl, rfl, rfl⟩
  case resync =>
    rintro s b dt k road token hb rfl hgate
    rw [exec_resynchronise, ← hb, State.writeRow_admitted hgate]
    refine ⟨fun h => by subst h; rfl, fun h => ?_⟩
    obtain ⟨at_, -, heffect, htime⟩ := State.resyncAct_request (s := b) (viaOf road 0x2010 1).master
      (token := token.toNat) (fun h0 => h (BitVec.eq_of_toNat_eq h0))
    refine ⟨_, at_, rfl, ?_⟩
    rw [State.reply_summaries, heffect]
    exact ⟨rfl, rfl, rfl, htime⟩
  case summaries =>
    rintro s b dt k hb
    rw [exec_summarySnapshot, exec_summaryReady, ← hb]
    refine ⟨fun h => by rw [State.snapshotSummary_none h, State.readySummary_none (.inl h)]; exact ⟨rfl, rfl⟩,
      fun h => by rw [State.readySummary_none (.inr h)], fun token at_ hrequest => ?_⟩
    rw [State.snapshotSummary_some hrequest]
    refine ⟨fun h => by rw [if_pos (by simpa using h)], fun hlatched htime => ⟨_, rfl, ?_⟩, fun d hlatched => ⟨_, rfl, ?_⟩⟩
    · rw [if_neg (by simp [hlatched, htime])]
      dsimp only
      rw [tget_tmod, if_pos rfl]
      exact ⟨rfl, rfl⟩
    · rw [State.readySummary_some hrequest hlatched]
      dsimp only
      rw [tget_tset, if_pos rfl]
  case pins =>
    rintro s b dt road d l via hb rfl hl hgate h4 hlength
    have hentries : pinEntries d = l := hl.symm
    rw [exec_pinTableWrite, ← hb, State.writeRow_admitted hgate, State.pinAct_entries h4 hlength, hentries]
    refine ⟨fun h => ?_, fun hok hnodup => ⟨fun h => ?_, fun h => ?_⟩⟩
    · rw [if_pos (by simpa using h)]
      rfl
    · rw [if_neg (by simpa using ⟨hok, hnodup⟩), if_neg (by simpa using h)]
      rfl
    · rw [if_neg (by simpa using ⟨hok, hnodup⟩), if_pos (by simpa using h)]
      rfl
  case fetch =>
    rintro s b dt sub e rest d hb hsub hears hgate hrecords rfl
    have hfetched : b.fetched 1 = e :: rest.take 31 := State.fetched_cons hrecords
    rw [exec_eventFetch, ← hb, hsub, if_pos (by decide), State.entryRead_coe (by decide) hears, State.readEntry_passes hgate, sdoAnswer,
      if_pos rfl]
    dsimp only [Via.master]
    have hcursor : b.clearRead 1 0x7003 1 = b.setVal 0x7003 4 ((rest.take 31).getLast?.getD e).seq := State.advanceCursor_cons hfetched
    have hbytes : b.readBytes 1 0x7003 1 =
        e.bytes (b.val 0x7003 4 < b.events.evicted) ++ (rest.take 31).flatMap (fun x => x.bytes false) := State.fetchBytes_cons hfetched
    rw [hcursor, hbytes]
    obtain ⟨hout, hod, hevents⟩ := State.sdoSend_effect (b.setVal 0x7003 4 ((rest.take 31).getLast?.getD e).seq) 0x7003 1 false
      (e.bytes (b.val 0x7003 4 < b.events.evicted) ++ (rest.take 31).flatMap (fun x => x.bytes false))
    refine ⟨_, rfl, hout, ?_, by rw [hevents]; rfl⟩
    rw [State.val, hod]
    exact State.setVal_val_same ..
  case noFetch =>
    rintro s b dt sub hb hsub
    rw [exec_eventFetch, ← hb, if_neg (by simp only [Bool.and_eq_true, decide_eq_true_eq]; omega)]
  case cursor =>
    rintro s b dt road sub v hb
    rw [exec_cursorWrite, ← hb]
    refine ⟨fun h => ?_, fun h4 h6 hgate => ?_⟩
    · rw [if_neg (by simp only [Bool.and_eq_true, decide_eq_true_eq]; omega)]
    · rw [if_pos (by simp [h4, h6]), State.writeRow_admitted hgate]
      rfl
  case datagram =>
    rintro s b dt hb
    rw [exec_exportDatagram, ← hb]
    exact ⟨fun h => congrArg Host.Outcome.next (if_pos (by simp [h])), fun h => ⟨_, rfl, State.sendDatagram_due h⟩⟩
  case storm =>
    rintro s b dt k hb
    rw [exec_stormPeriodEnd, ← hb, State.stormPeriod]
    refine ⟨fun h => by simp [h], fun h hperiod => ⟨_, rfl, ?_⟩, fun h hperiod => ?_⟩
    · rw [if_neg (by simp [h]), if_pos (by simp [hperiod])]
      dsimp only
      rw [Events.modSink_sink]
      exact ⟨rfl, rfl⟩
    · rw [if_neg (by simp [h]), if_neg (by simpa using hperiod)]
  case alarm =>
    rintro s b dt road entry via hb rfl hgate
    rw [exec_alarmAcknowledge, ← hb, State.writeRow_admitted hgate]
    refine ⟨?every, fun hne hlarge => ?unknown, fun hentry => ?one⟩
    case every =>
      rintro rfl
      refine ⟨_, rfl, fun a => ?_⟩
      rw [State.reply_events]
      show a ∈ b.events.alarms.filter (fun a => a.2.st != 2) ↔ _
      simp
    case unknown =>
      have h0 : entry.toNat ≠ 0xFFFFFFFF := fun h0 => hne (BitVec.eq_of_toNat_eq h0)
      rw [State.acknowledgeAct, if_neg h0, if_pos hlarge]
      rfl
    case one =>
      rw [State.acknowledgeAct_one hentry]
      refine ⟨fun h => by rw [if_pos h]; rfl, fun h => by rw [if_neg h]; rfl⟩

end Sys2Proof.Machine
end

section
/-! States that meet the hypotheses of O51. -/

namespace Sys2Proof.Machine

open Tests (served)

/-- A served part with a record in every sink, a CLEARED alarm and an OPEN one, and a storm at the wheel. -/
def eventful : State := { served with events := { served.events with
  wheel := { records := [{ seq := 1 }], storm := true }, emergency := { records := [{ seq := 1 }] }
  alarms := [(4, { st := 2 }), (5, { st := 1 })] } }

/-- A TxPDO goes out from AL SAFEOP on. -/
theorem witness_txpdo : ∃ d, exec (.txpdoSample 0) eventful = .next ((eventful.elapse 0).emit (.txpdo d)) ∧ d.length = 16 := by
  obtain ⟨hprocess, -⟩ := processDataSummariesAndEvents
  obtain ⟨-, hsends, -⟩ := hprocess eventful _ 0 0 0 0 0 rfl
  obtain ⟨d, hd, hlength, -⟩ := hsends (by decide) (by decide)
  exact ⟨d, hd, hlength⟩

/-- The oldest Emergency leaves the mailbox, and a period without drops ends the storm. -/
theorem witness_emergencyAndStorm : (∃ t, exec (.emergencyMailboxRead 0) eventful = .next t ∧ t.events.emergency.records = []) ∧
    ∃ t, exec (.stormPeriodEnd 0 0) eventful = .next t ∧ (t.events.sink 0).storm = false := by
  obtain ⟨-, hmailbox, -, -, -, -, -, -, -, hstorm, -⟩ := processDataSummariesAndEvents
  obtain ⟨-, hsends⟩ := hmailbox eventful _ 0 rfl
  obtain ⟨t, ht, -, hrest, -⟩ := hsends { seq := 1 } [] (by decide) (by decide) (by decide) rfl
  obtain ⟨-, hends, -⟩ := hstorm eventful _ 0 0 rfl
  obtain ⟨u, hu, hover, -⟩ := hends rfl rfl
  exact ⟨⟨t, ht, hrest⟩, u, hu, hover⟩

/-- A token of 0 is refused, and any other stands as the request. -/
theorem witness_resynchronise : exec (.resynchronise 0 .coe 0) eventful =
      .next ((eventful.elapse 0).reply (viaOf .coe 0x2010 1) 0x2010 1 0x06090030) ∧
    ∃ t at_, exec (.resynchronise 0 .coe 7) eventful = .next t ∧ (tget t.summaries 0).request = some (7, at_) := by
  obtain ⟨-, -, hresync, -⟩ := processDataSummariesAndEvents
  obtain ⟨hrefused, -⟩ := hresync eventful _ 0 _ .coe 0 rfl rfl ⟨by decide, by decide +kernel⟩
  obtain ⟨-, hstands⟩ := hresync eventful _ 0 _ .coe 7 rfl rfl ⟨by decide, by decide +kernel⟩
  obtain ⟨t, at_, ht, hrequest, -⟩ := hstands (by decide)
  exact ⟨hrefused rfl, t, at_, ht, hrequest⟩

/-- An alarm that is not CLEARED stands, and one that is CLEARED is freed. -/
theorem witness_acknowledge : exec (.alarmAcknowledge 0 .coe 5) eventful =
      .next ((eventful.elapse 0).reply (viaOf .coe 0x7001 2) 0x7001 2 0x08000022) ∧
    exec (.alarmAcknowledge 0 .coe 4) eventful = .next (({ eventful.elapse 0 with events :=
      { (eventful.elapse 0).events with alarms := tdel (eventful.elapse 0).events.alarms 4 } } : State).reply
        (viaOf .coe 0x7001 2) 0x7001 2 0) := by
  obtain ⟨-, -, -, -, -, -, -, -, -, -, halarm⟩ := processDataSummariesAndEvents
  obtain ⟨-, -, hopen⟩ := halarm eventful _ 0 .coe 5 _ rfl rfl ⟨by decide, by decide +kernel⟩
  obtain ⟨-, -, hcleared⟩ := halarm eventful _ 0 .coe 4 _ rfl rfl ⟨by decide, by decide +kernel⟩
  obtain ⟨-, hstands⟩ := hopen (by decide)
  obtain ⟨hfreed, -⟩ := hcleared (by decide)
  exact ⟨hstands (by decide), hfreed (by decide)⟩

end Sys2Proof.Machine
end

section
/-! The run state (R507 to R509): the statement O52 does not hold of every state. -/

namespace Sys2Proof.Machine

/-- In BOOT with firmware, Auto Start is off, and the value 1 waits for the start of stack 0, meant for Auto Start, `0x400A:01`. A commit
leaves values for co-processors and DAC groups only (R297), so that no run of the part leads here; the statement asks for every state. -/
def autoStartStaged : State := { State.reset with
  security := { State.reset.security with running := true }
  epoch := { State.reset.epoch with later := [(stackRef 0, [(odKey 0x400A 1, 1)])] } }

/-- Auto Start is set and has not yet acted, and nothing waits for a unit's start. -/
def State.WillAutoStart (s : State) : Prop := s.val 0x400A 1 = 1 ∧ s.epoch.later = [] ∧ s.run.autoDone = false

/-- What leaves the dictionary, the epoch and the run state as they were leaves Auto Start to act. -/
theorem State.WillAutoStart.of_keeps {s t : State} {pts : List Part} (h : s.WillAutoStart) (hkeeps : s.Keeps pts t)
    (hod : .od ∉ pts) (hepoch : .epoch ∉ pts) (hrun : .run ∉ pts) : t.WillAutoStart := by
  obtain ⟨hval, hlater, hdone⟩ := h
  exact ⟨(hkeeps.val_eq _ _ hod).trans hval, (congrArg Epoch.later (hkeeps.epoch_eq hepoch)).trans hlater,
    (congrArg RunInfo.autoDone (hkeeps.run_eq hrun)).trans hdone⟩

theorem State.WillAutoStart.setUnit {s : State} (h : s.WillAutoStart) (r : Nat) : (s.setUnit r .ready).WillAutoStart := by
  obtain ⟨hval, hlater, hdone⟩ := h.of_keeps (State.putUnit_keeps (Within.refl _) r .ready (.refl _ s)) (by decide) (by decide) (by decide)
  have hcleared := State.clearSource_keeps (Within.refl _) r (.refl _ (s.putUnit r .ready))
  have hlater' : ((s.putUnit r .ready).clearSource r).epoch.later = [] := by rw [hcleared.epoch_eq (by decide), hlater]
  have hunit : s.setUnit r .ready = (s.putUnit r .ready).clearSource r := by
    show ((s.putUnit r .ready).clearSource r).takeLater r = _
    rw [State.takeLater, hlater']
    rfl
  rw [hunit]
  exact ⟨(State.clearSource_val _ _ _ _ (by decide)).trans hval, hlater', by rw [hcleared.run_eq (by decide), hdone]⟩

theorem State.WillAutoStart.selfTested {s : State} (h : s.WillAutoStart) (r : Nat) : (s.selfTested [] r).WillAutoStart := by
  unfold State.selfTested
  split
  · exact h
  · exact h.setUnit r

/-- A fold over what leaves Auto Start to act does so. -/
theorem willAutoStart_foldl {α : Type} (l : List α) {f : State → α → State}
    (hf : ∀ t a, State.WillAutoStart t → State.WillAutoStart (f t a)) {s : State} (h : s.WillAutoStart) :
    State.WillAutoStart (l.foldl f s) :=
  List.foldlRecOn (motive := State.WillAutoStart) l f h (fun t ht a _ => hf t a ht)

/-- READY or SERVING follows the jobs. -/
theorem State.followJobs_run {s : State} (h : s.run.st = .ready) : s.followJobs.run.st ∈ [.ready, .serving] := by
  unfold State.followJobs
  split
  · rw [State.runTo_st]
    decide
  split
  · rw [State.runTo_st]
    decide
  · rw [h]
    decide

theorem State.checkWarm_run {s : State} (h : s.run.st = .warming) : s.checkWarm.run.st ∈ [.warming, .ready, .serving] := by
  unfold State.checkWarm
  dsimp only
  split
  · exact List.mem_cons_of_mem _ (State.followJobs_run (State.runTo_st _ .ready))
  · rw [h]
    decide

theorem State.runTo_autoDone (s : State) (st : RunSt) : (s.runTo st).run.autoDone = s.run.autoDone := by
  unfold State.runTo
  split
  · rfl
  · dsimp only
    rw [State.raise_run, State.bump_run]
    rfl

/-- A core that WARMING finds OFFLINE with a latched cartridge starts. -/
def State.startLatched (s : State) (c : Nat) : State :=
  if s.unit (coreRef c) = .offline && (s.cart (c / 2)).latch = 1 then s.startCore c else s

/-- The run state of WARMING with its limit. -/
def State.enterWarming (s : State) : State :=
  ({ s.runTo .warming with run := { (s.runTo .warming).run with
    warmLimit := (s.runTo .warming).val 0x400A 2, stopJobs := false } } : State).setVal 0x2000 6 0

theorem State.startWarming_eq (s : State) : s.startWarming = (forRange 16 s.enterWarming State.startLatched).checkWarm := rfl

theorem State.startLatched_keeps (s : State) (c : Nat) : s.Keeps [.units, .cores, .loops, .convs, .cartridges] (s.startLatched c) := by
  unfold State.startLatched
  split
  · exact State.startCore_keeps (Within.refl _) c (.refl _ s)
  · exact .refl _ s

theorem State.startLatched_run (s : State) (c : Nat) : (s.startLatched c).run = s.run :=
  (s.startLatched_keeps c).run_eq (by decide)

/-- WARMING ends only in what follows it. -/
theorem State.startWarming_run (s : State) : s.startWarming.run.st ∈ [.warming, .ready, .serving] := by
  rw [State.startWarming_eq]
  refine State.checkWarm_run ?_
  have hrun : (forRange 16 s.enterWarming State.startLatched).run = s.enterWarming.run :=
    List.foldlRecOn (motive := fun t : State => t.run = s.enterWarming.run) (List.range 16) State.startLatched rfl
      (fun t ht c _ => (t.startLatched_run c).trans ht)
  rw [hrun]
  exact s.runTo_st .warming

-- what STANDBY_REACHED does (R507 to R509)

/-- The digital units and supplies of a core come up. -/
def State.coreTested (failed : List UnitRef) (s : State) (c : Nat) : State :=
  let s := [3, 4, 5, 6].foldl (fun s k => s.selfTested failed (digitalRef k c)) s
  let s := s.selfTested failed (coprocRef c)
  let s := forRange 35 s (fun s g => s.selfTested failed (dacRef c g))
  let s := forRange 68 s (fun s v => s.selfTested failed (adcRef c v))
  let s := if failed.any (fun u => UnitRef.code u = coreRef c) && s.unit (coreRef c) != .retired then s.fence (coreRef c) else s
  s.modCore c (fun k => { k with supply := 650, pailMiB := s.val 0x4002 3 })

/-- A port that is not RETIRED is enabled. -/
def State.portEnabled (s : State) (n : Nat) : State := if s.unit (portRef n) = .retired then s else s.portEnable n

/-- Stacks, cores and ports come up, and the run state is STANDBY. -/
def State.suppliesUp (s : State) (failed : List UnitRef) : State :=
  let s := forRange 20 s (fun s m => s.selfTested failed (stackRef m))
  let s := forRange 16 s (State.coreTested failed)
  let s := forRange 128 s State.portEnabled
  s.runTo .standby

/-- Auto Start, in STANDBY. -/
def State.autoStart (s : State) : State :=
  if s.flag 0x400A 1 && !s.run.autoDone then ({ s with run := { s.run with autoDone := true } } : State).startWarming
  else { s with run := { s.run with autoDone := true } }

theorem State.standby_eq (s : State) (failed : List UnitRef) : s.standby failed =
    if s.run.st != .boot || !s.security.running then s
    else
      let s := forRange 20 s (fun s m => s.selfTested failed (stackRef m))
      let s := forRange 16 s (State.coreTested failed)
      let s := forRange 128 s State.portEnabled
      let s := s.runTo .standby
      s.autoStart := by
  unfold State.standby State.portEnabled State.coreTested
  rfl

theorem State.standby_suppliesUp {s : State} (hboot : s.run.st = .boot) (hrunning : s.security.running = true)
    (failed : List UnitRef) : s.standby failed = (s.suppliesUp failed).autoStart :=
  (s.standby_eq failed).trans (if_neg (by simp [hboot, hrunning]))

theorem State.WillAutoStart.coreTested {s : State} (h : s.WillAutoStart) (c : Nat) : (s.coreTested [] c).WillAutoStart := by
  have hdigital := willAutoStart_foldl [3, 4, 5, 6] (fun t k ht => ht.selfTested (digitalRef k c)) h
  have hcoproc := hdigital.selfTested (coprocRef c)
  have hdacs := willAutoStart_foldl (List.range 35) (fun t g ht => ht.selfTested (dacRef c g)) hcoproc
  have hadcs := willAutoStart_foldl (List.range 68) (fun t v ht => ht.selfTested (adcRef c v)) hdacs
  exact hadcs.of_keeps (State.modCore_keeps (Within.refl _) c _ (.refl _ _)) (by decide) (by decide) (by decide)

theorem State.WillAutoStart.portEnabled {s : State} (h : s.WillAutoStart) (n : Nat) : (s.portEnabled n).WillAutoStart := by
  unfold State.portEnabled
  split
  · exact h
  · exact h.of_keeps (State.portEnable_keeps (Within.refl _) n (.refl _ s)) (by decide) (by decide) (by decide)

theorem State.WillAutoStart.runTo {s : State} (h : s.WillAutoStart) (st : RunSt) : (s.runTo st).WillAutoStart := by
  obtain ⟨hval, hlater, hdone⟩ := h
  have hepoch := (State.runTo_keeps (Within.refl _) st (.refl _ s)).epoch_eq (by decide)
  exact ⟨(State.runTo_val _ _ _ _ (by decide) (by decide)).trans hval, (congrArg Epoch.later hepoch).trans hlater,
    (State.runTo_autoDone _ _).trans hdone⟩

theorem forRange_succ_first {α : Type} (n : Nat) (a : α) (f : α → Nat → α) :
    forRange (n + 1) a f = (List.range n).foldl (fun b i => f b (i + 1)) (f a 0) := by
  simp [forRange, List.range_succ_eq_map, List.foldl_map]

/-- Auto Start stays to act when stack 0 has come up so. -/
theorem State.suppliesUp_willAutoStart {s : State} (h : (s.selfTested [] (stackRef 0)).WillAutoStart) :
    (s.suppliesUp []).WillAutoStart := by
  unfold State.suppliesUp
  rw [forRange_succ_first 19]
  have hstacks := willAutoStart_foldl (List.range 19) (fun t m ht => ht.selfTested (stackRef (m + 1))) h
  have hcores := willAutoStart_foldl (List.range 16) (fun t c ht => ht.coreTested c) hstacks
  exact (willAutoStart_foldl (List.range 128) (fun t n ht => ht.portEnabled n) hcores).runTo .standby

/-- With Auto Start to act, the part does not stay in STANDBY. -/
theorem State.WillAutoStart.autoStart {s : State} (h : s.WillAutoStart) : s.autoStart.run.st ≠ .standby := by
  obtain ⟨hval, -, hdone⟩ := h
  rw [State.autoStart, if_pos (by simp [State.flag, hval, hdone])]
  have hother : ∀ st ∈ [RunSt.warming, .ready, .serving], st ≠ .standby := by decide
  exact hother _ (State.startWarming_run _)

/-- Refutes O52: with Auto Start off, STANDBY_REACHED does not leave the part in STANDBY where a value for Auto Start waits for a unit's
start, as in `autoStartStaged`: stack 0 takes it, and WARMING follows. -/
theorem not_runStateFollowsCommandsAndFeeds : ¬ Obligations.RunStateFollowsCommandsAndFeeds := by
  rintro ⟨-, -, hstandby, -⟩
  obtain ⟨-, hreached⟩ := hstandby autoStartStaged _ 0 [] rfl
  obtain ⟨t, ht, -, -, hstays⟩ := hreached rfl rfl
  obtain rfl : (autoStartStaged.elapse 0).standby [] = t := Host.Outcome.next.inj ht
  obtain ⟨hst, -⟩ := hstays (by decide +kernel)
  have hfirst : ((autoStartStaged.elapse 0).selfTested [] (stackRef 0)).WillAutoStart :=
    ⟨by decide +kernel, by decide +kernel, by decide +kernel⟩
  rw [State.standby_suppliesUp rfl rfl] at hst
  exact (State.suppliesUp_willAutoStart hfirst).autoStart hst

end Sys2Proof.Machine
end

section
/-! Loop commands, records, coefficients and injections (R402, R404, R408, R413 to R415, R418, R419, R421): the statement O54. -/

namespace Sys2Proof.Machine

-- commands (R408, R418)

theorem exec_loopOff (dt : Nat) (road : Road) (c : Fin 16) (w : BitVec 32) (s : State) :
    exec (.loopOff dt road c w) s = .next ((s.elapse dt).loopRow road c w.toNat 1 State.loopTake) := rfl
theorem exec_loopManual (dt : Nat) (road : Road) (c : Fin 16) (w : BitVec 32) (s : State) :
    exec (.loopManual dt road c w) s = .next ((s.elapse dt).loopRow road c w.toNat 2 State.loopTake) := rfl
theorem exec_loopAcquire (dt : Nat) (road : Road) (c : Fin 16) (w : BitVec 32) (s : State) :
    exec (.loopAcquire dt road c w) s = .next ((s.elapse dt).loopRow road c w.toNat 3 State.loopTake) := rfl
theorem exec_loopTrack (dt : Nat) (road : Road) (c : Fin 16) (w : BitVec 32) (s : State) :
    exec (.loopTrack dt road c w) s = .next ((s.elapse dt).loopRow road c w.toNat 4 State.loopTake) := rfl
theorem exec_loopRestart (dt : Nat) (road : Road) (c : Fin 16) (w : BitVec 32) (s : State) :
    exec (.loopRestart dt road c w) s = .next ((s.elapse dt).loopRow road c w.toNat 5 State.loopTake) := rfl

section
variable {s : State} {road : Road} {c n cmd : Nat}

theorem State.loopRow_other {act : Nat → Nat → State → Nat × State} (h : cmdCode n ≠ cmd) : s.loopRow road c n cmd act = s := if_neg h

theorem State.loopRow_own {act : Nat → Nat → State → Nat × State} (h : cmdCode n = cmd)
    (hgate : s.admits road (loopIdx c) 2 (leBytes 4 n)) : s.loopRow road c n cmd act =
      (act c n s).2.reply (viaOf road (loopIdx c) 2) (loopIdx c) 2 (act c n s).1 := by
  rw [State.loopRow, if_pos h, State.writeRow_admitted hgate]

theorem State.loopTake_malformed (h : cmdSlots n = [] ∨ (cmdCode n ≠ 2 ∧ cmdValue n ≠ 0)) :
    State.loopTake c n s = refuse abRange s := if_pos (by simpa using h)

theorem State.loopTake_formed (hslots : cmdSlots n ≠ []) (hvalue : cmdCode n = 2 ∨ cmdValue n = 0) : State.loopTake c n s =
    if s.coprocOut c || (cmdSlots n).any (s.cmdBarred c (cmdCode n)) then refuse abState s
    else accept (s.modLoops c (fun k => { k with
      waiting := k.waiting ++ (cmdSlots n).map (fun slot => .command slot (cmdCode n) (cmdValue n)) })) := by
  refine if_neg ?_
  simp only [Bool.or_eq_true, Bool.and_eq_true, bne_iff_ne, List.isEmpty_iff, not_or, not_and]
  exact ⟨hslots, fun hcode => not_not_intro (hvalue.resolve_left hcode)⟩

/-- What one Loop Command does, of whatever kind. -/
theorem State.loopRow_take (road : Road) (s : State) (c n cmd : Nat) :
    (cmdCode n ≠ cmd → s.loopRow road c n cmd State.loopTake = s) ∧
    (cmdCode n = cmd → s.admits road (loopIdx c) 2 (leBytes 4 n) →
      (cmdSlots n = [] ∨ (cmd ≠ 2 ∧ cmdValue n ≠ 0) → s.loopRow road c n cmd State.loopTake =
        s.reply (viaOf road (loopIdx c) 2) (loopIdx c) 2 0x06090030) ∧
      (cmdSlots n ≠ [] → cmd = 2 ∨ cmdValue n = 0 →
        (s.coprocOut c = true ∨ (∃ slot ∈ cmdSlots n, s.cmdBarred c cmd slot = true) →
          s.loopRow road c n cmd State.loopTake = s.reply (viaOf road (loopIdx c) 2) (loopIdx c) 2 0x08000022) ∧
        (s.coprocOut c = false → (∀ slot ∈ cmdSlots n, s.cmdBarred c cmd slot = false) →
          ((s.loopRow road c n cmd State.loopTake).loopCore c).waiting =
            (s.loopCore c).waiting ++ (cmdSlots n).map (fun slot => LoopWrite.command slot cmd (cmdValue n)) ∧
          ((s.loopRow road c n cmd State.loopTake).loopCore c).loops = (s.loopCore c).loops))) := by
  refine ⟨fun h => State.loopRow_other h, ?_⟩
  rintro rfl hgate
  rw [State.loopRow_own rfl hgate]
  refine ⟨fun h => by rw [State.loopTake_malformed h]; rfl, fun hslots hvalue => ?_⟩
  rw [State.loopTake_formed hslots hvalue]
  refine ⟨fun h => by rw [if_pos (by simpa using h)]; rfl, fun hcoproc hbarred => ?_⟩
  rw [if_neg (by simpa [hcoproc] using hbarred), State.reply_loopCore]
  dsimp only [accept]
  rw [State.modLoops_loopCore, if_pos rfl]
  exact ⟨rfl, rfl⟩

end

/-- With nothing that waits, a loop is ahead where it stands. -/
theorem State.loopAhead_now {s : State} {c : Nat} (h : (s.loopCore c).waiting = []) (slot : Nat) :
    s.loopAhead c slot = ((s.loop c slot).st, (s.loop c slot).record slot) := by
  simp [State.loopAhead, h]

/-- Which commands take a loop out of each state (R408). -/
theorem LoopSt.next_isSome {cmd : Nat} (hcmd : cmd ∈ [1, 2, 3, 4, 5]) (st : LoopSt) (hst : st ≠ .off) :
    (st.next cmd).isSome = true ↔ (cmd, st) ∈
      [(1, LoopSt.manual), (1, .acquire), (1, .track), (1, .fault), (2, .manual), (2, .fault), (3, .manual), (4, .manual),
        (4, .acquire), (5, .fault)] := by
  cases st with
  | off => exact absurd rfl hst
  | manual | acquire | track | hold | fault =>
    revert cmd
    decide

theorem State.cmdBarred_running {s : State} {c cmd slot : Nat} (h : (s.loopCore c).waiting = []) (hoff : (s.loop c slot).st ≠ .off) :
    s.cmdBarred c cmd slot = false ↔ ((s.loop c slot).st.next cmd).isSome = true := by
  unfold State.cmdBarred
  simp only [State.loopAhead_now h, hoff, decide_false, Bool.false_and, Bool.or_false]
  cases (s.loop c slot).st.next cmd <;> simp

theorem State.cmdBarred_off {s : State} {c cmd slot : Nat} (h : (s.loopCore c).waiting = []) (hcmd : cmd ∈ [1, 2, 3, 4, 5])
    (hoff : (s.loop c slot).st = .off) : s.cmdBarred c cmd slot = false ↔ cmd ∈ [2, 3, 4] ∧
      (∀ ch ∈ loopChannels ((s.loop c slot).record slot) slot, ((s.conv c).group (groupOf ch)).queueMode = false) ∧
      (cmd = 3 → s.leadersLocked c slot = true) := by
  unfold State.cmdBarred
  simp only [State.loopAhead_now h, hoff, decide_true, Bool.true_and]
  simp only [List.mem_cons, List.not_mem_nil, or_false] at hcmd
  rcases hcmd with rfl | rfl | rfl | rfl | rfl <;> simp [LoopSt.next, LoopSt.runs]

-- records and coefficients (R404, R414, R419)

theorem exec_loopConfigWrite (dt : Nat) (road : Road) (c : Fin 16) (data : List Byte) (s : State) :
    exec (.loopConfigWrite dt road c data) s =
      .next ((s.elapse dt).writeRow road (loopIdx c) 4 data (State.loopConfigAct c data)) := rfl
theorem exec_coefficientWrite (dt : Nat) (road : Road) (c : Fin 16) (data : List Byte) (s : State) :
    exec (.coefficientWrite dt road c data) s =
      .next ((s.elapse dt).writeRow road (loopIdx c) 7 data (State.coefficientAct c data)) := rfl

section
variable {s : State} {c slot r k : Nat} {data : List Byte}

theorem State.loopConfigAct_malformed (hslot : slot = field data 0 2) (hr : r = field data 4 64)
    (h : 1145 ≤ slot ∨ field data 2 2 ≠ 0 ∨ loopRecordOk slot r = false) : State.loopConfigAct c data s = refuse abRange s := by
  subst hslot hr
  exact if_pos (by simpa [or_assoc] using h)

theorem State.loopConfigAct_formed (hslot : slot = field data 0 2) (hr : r = field data 4 64) (h : slot < 1145)
    (hreserved : field data 2 2 = 0) (hok : loopRecordOk slot r = true) : State.loopConfigAct c data s =
      if s.coprocOut c || (((s.loopAhead c slot).1 = .acquire || (s.loopAhead c slot).1 = .track) &&
        withoutSetpoint r != withoutSetpoint (s.loopAhead c slot).2) then refuse abState s
      else accept (s.modLoops c (fun k => { k with waiting := k.waiting ++ [.config slot r] })) := by
  subst hslot hr
  exact if_neg (by simp [hreserved, hok]; omega)

/-- What a record that may stand says of its loop. -/
theorem loopRecordOk_fields (h : loopRecordOk slot r = true) : r % 256 = loopType slot ∧ lcLockCount r ≠ 0 ∧
    (lcFlag r 2 = true → loopType slot = 1 ∨ loopType slot = 7) ∧ (ofF32 (lcF32 r 12)).lt (ofF32 (lcF32 r 16)) = true ∧
    (ofF32 (lcF32 r 20)).lt (ofF32 (lcF32 r 24)) = true := by
  simp only [loopRecordOk, Bool.and_eq_true, Bool.or_eq_true, Bool.not_eq_true', decide_eq_true_eq, bne_iff_ne] at h
  obtain ⟨⟨⟨⟨⟨⟨⟨⟨⟨⟨⟨⟨⟨htype, -⟩, -⟩, hflag⟩, -⟩, -⟩, hout⟩, hsweep⟩, -⟩, -⟩, -⟩, hcount⟩, -⟩, -⟩ := h
  exact ⟨htype, hcount, fun hset => by simpa [hset] using hflag, hout, hsweep⟩

theorem State.coefficientAct_malformed (hslot : slot = field data 0 2) (hk : k = field data 2 1) (hr : r = field data 4 32)
    (h : 1145 ≤ slot ∨ 1 < k ∨ field data 3 1 ≠ 0 ∨ coeffOk r = false) : State.coefficientAct c data s = refuse abRange s := by
  subst hslot hk hr
  exact if_pos (by simpa [or_assoc] using h)

theorem State.coefficientAct_formed (hslot : slot = field data 0 2) (hk : k = field data 2 1) (hr : r = field data 4 32)
    (h : slot < 1145) (hbank : k ≤ 1) (hreserved : field data 3 1 = 0) (hok : coeffOk r = true) : State.coefficientAct c data s =
      if s.coprocOut c || s.bankB c slot = (k = 1) || (s.mapAhead c).any (fun m => bitOf m slot = (k = 1)) then refuse abState s
      else accept (s.modLoop c slot (fun l => if k = 1 then { l with bankB := r } else { l with bankA := r })) := by
  subst hslot hk hr
  exact if_neg (by simp [hreserved, hok]; omega)

/-- A bank record goes to the bank named, and the other stays. -/
theorem Loop.coeff_written (l : Loop) (r : Nat) (h : k ≤ 1) :
    (if k = 1 then { l with bankB := r } else { l with bankA := r }).coeff (decide (k = 1)) = r ∧
    (if k = 1 then { l with bankB := r } else { l with bankA := r }).coeff (decide (k = 0)) = l.coeff (decide (k = 0)) := by
  obtain rfl | rfl : k = 0 ∨ k = 1 := by omega
  · exact ⟨rfl, rfl⟩
  · exact ⟨rfl, rfl⟩

end

-- injections (R415)

theorem exec_injectStep (dt : Nat) (road : Road) (c : Fin 16) (data : List Byte) (s : State) :
    exec (.injectStep dt road c data) s = .next ((s.elapse dt).injectRow road c data 1 State.injectStart) := rfl
theorem exec_injectPrbs (dt : Nat) (road : Road) (c : Fin 16) (data : List Byte) (s : State) :
    exec (.injectPrbs dt road c data) s = .next ((s.elapse dt).injectRow road c data 2 State.injectStart) := rfl
theorem exec_injectSine (dt : Nat) (road : Road) (c : Fin 16) (data : List Byte) (s : State) :
    exec (.injectSine dt road c data) s = .next ((s.elapse dt).injectRow road c data 3 State.injectStart) := rfl
theorem exec_injectStop (dt : Nat) (road : Road) (c : Fin 16) (data : List Byte) (s : State) :
    exec (.injectStop dt road c data) s = .next ((s.elapse dt).injectRow road c data 0 State.injectStopAct) := rfl
theorem exec_injectionEnd (dt : Nat) (c : Fin 16) (s : State) : exec (.injectionEnd dt c) s = .next
    (if ((s.elapse dt).loopCore c).injection.any (fun i => i.left = 0) then (s.elapse dt).endInjection c else s.elapse dt) := rfl

section
variable {s : State} {road : Road} {c kind : Nat} {data : List Byte}

theorem State.injectRow_other {act : Nat → List Byte → State → Nat × State} (h : injKind data ≠ kind) :
    s.injectRow road c data kind act = s := if_neg h

theorem State.injectRow_own {act : Nat → List Byte → State → Nat × State} (h : injKind data = kind)
    (hgate : s.admits road (loopIdx c) 0x0C data) : s.injectRow road c data kind act =
      (act c data s).2.reply (viaOf road (loopIdx c) 0x0C) (loopIdx c) 0x0C (act c data s).1 := by
  rw [State.injectRow, if_pos h, State.writeRow_admitted hgate]

/-- The injection that a write starts. -/
def injectionOf (data : List Byte) : Injection where
  loop := injLoop data
  kind := injKind data
  atSetpoint := field data 3 1 = 1
  amplitude := BitVec.ofNat 32 (field data 4 4)
  left := field data 8 4
  gen := field data 12 1
  stopWhenFull := field data 13 1 = 1

theorem State.injectStart_formed (h : injFieldsOk data = true) : State.injectStart c data s =
    if s.coprocOut c || s.injectBarred c data then refuse abState s
    else accept (s.modLoops c (fun k => { k with captured := 0, capture := [], injection := some (injectionOf data) })) :=
  if_neg (by simp [h])

/-- What one write of Injection Control that starts a signal does. -/
theorem State.injectRow_start (road : Road) (s : State) (c : Nat) (data : List Byte) (kind : Nat) :
    (injKind data ≠ kind → s.injectRow road c data kind State.injectStart = s) ∧
    (injKind data = kind → s.admits road (loopIdx c) 0x0C data →
      (injFieldsOk data = false → s.injectRow road c data kind State.injectStart =
        s.reply (viaOf road (loopIdx c) 0x0C) (loopIdx c) 0x0C 0x06090030) ∧
      (injFieldsOk data = true → s.coprocOut c = true ∨ s.injectBarred c data = true →
        s.injectRow road c data kind State.injectStart = s.reply (viaOf road (loopIdx c) 0x0C) (loopIdx c) 0x0C 0x08000022) ∧
      (injFieldsOk data = true → s.coprocOut c = false → s.injectBarred c data = false →
        ((s.injectRow road c data kind State.injectStart).loopCore c).injection = some (injectionOf data) ∧
        ((s.injectRow road c data kind State.injectStart).loopCore c).captured = 0 ∧
        ((s.injectRow road c data kind State.injectStart).loopCore c).capture = [])) := by
  refine ⟨fun h => State.injectRow_other h, fun h hgate => ?_⟩
  rw [State.injectRow_own h hgate]
  refine ⟨fun hok => ?_, fun hok hbarred => ?_, fun hok hcoproc hbarred => ?_⟩
  · rw [State.injectStart, if_pos (by simp [hok])]
    rfl
  · rw [State.injectStart_formed hok, if_pos (by simpa using hbarred)]
    rfl
  · rw [State.injectStart_formed hok, if_neg (by simp [hcoproc, hbarred]), State.reply_loopCore]
    dsimp only [accept]
    rw [State.modLoops_loopCore, if_pos rfl]
    exact ⟨rfl, rfl, rfl⟩

theorem State.endInjection_loopCore (s : State) (c : Nat) :
    (s.endInjection c).loopCore c = { s.loopCore c with injection := none } := by
  rw [State.endInjection, State.modLoops_loopCore, if_pos rfl]

end

end Sys2Proof.Machine
end

section
/-! Settling O54. -/

namespace Sys2Proof.Machine

/-- Settles O54: every write is refused for its form, then for the co-processor and the state, and else waits for the frame start or takes
its place. That writes wait for the frame start is the model's choice (log entry 55), and that a command of another row does nothing is
log entry 2. -/
theorem loopWritesWaitForTheirFrame : Obligations.LoopWritesWaitForTheirFrame := by
  refine ⟨?commands, ?barred, ?records, fun slot r h => loopRecordOk_fields h, ?coefficients, ?injections, ?noInjection, ?injectionEnd⟩
  case commands =>
    rintro s b dt n road c w via rfl rfl rfl k hk
    have hexec : exec k.1 s = .next ((s.elapse dt).loopRow road c w.toNat k.2 State.loopTake) := by
      simp only [List.mem_cons, List.not_mem_nil, or_false] at hk
      rcases hk with rfl | rfl | rfl | rfl | rfl
      · exact exec_loopOff ..
      · exact exec_loopManual ..
      · exact exec_loopAcquire ..
      · exact exec_loopTrack ..
      · exact exec_loopRestart ..
    obtain ⟨hother, hown⟩ := State.loopRow_take road (s.elapse dt) c w.toNat k.2
    rw [hexec]
    refine ⟨fun h => by rw [hother h], fun h hgate => ?_⟩
    obtain ⟨hmalformed, hformed⟩ := hown h hgate
    refine ⟨fun hform => by rw [hmalformed hform], fun hslots hvalue => ?_⟩
    obtain ⟨hrefused, htaken⟩ := hformed hslots hvalue
    exact ⟨fun hbarred => by rw [hrefused hbarred], fun hcoproc hbarred => ⟨_, rfl, htaken hcoproc hbarred⟩⟩
  case barred =>
    intro b c cmd slot hwaiting hcmd
    exact ⟨fun h => (State.cmdBarred_running hwaiting h).trans (LoopSt.next_isSome hcmd _ h), State.cmdBarred_off hwaiting hcmd⟩
  case records =>
    rintro s b dt slot r road c data hb hslot hr hgate
    rw [exec_loopConfigWrite, ← hb, State.writeRow_admitted hgate]
    refine ⟨fun h => by rw [State.loopConfigAct_malformed hslot hr h]; rfl, fun h hreserved hok hwaiting same hsame => ?_⟩
    rw [State.loopConfigAct_formed hslot hr h hreserved hok, State.loopAhead_now hwaiting]
    simp only [List.mem_cons, List.not_mem_nil, or_false] at hsame
    refine ⟨fun hrefused => ?_, fun hcoproc hstays => ⟨_, rfl, ?_⟩⟩
    · rw [if_pos (by simpa [hsame] using hrefused)]
      rfl
    · rw [if_neg (by rw [hsame] at hstays; simpa [hcoproc] using hstays), State.reply_loopCore]
      dsimp only [accept]
      rw [State.modLoops_loopCore, if_pos rfl, hwaiting]
      exact ⟨rfl, rfl⟩
  case coefficients =>
    rintro s b dt slot r k road c data hb hslot hk hr hgate
    rw [exec_coefficientWrite, ← hb, State.writeRow_admitted hgate]
    refine ⟨fun h => by rw [State.coefficientAct_malformed hslot hk hr h]; rfl, fun h hbank hreserved hok taken htaken => ?_⟩
    rw [State.coefficientAct_formed hslot hk hr h hbank hreserved hok]
    have hcond : (b.coprocOut c || decide ((b.bankB c slot = true) = (k = 1)) ||
        (b.mapAhead c).any (fun m => decide ((bitOf m slot = true) = (k = 1)))) = true ↔ b.coprocOut c = true ∨ taken := by
      simp only [Bool.or_eq_true, decide_eq_true_eq, Option.any_eq_true, eq_iff_iff, htaken, or_assoc]
    refine ⟨fun hrefused => ?_, fun hcoproc hfree => ⟨_, rfl, ?_⟩⟩
    · rw [if_pos (hcond.2 hrefused)]
      rfl
    · rw [if_neg (fun hrefused => (hcond.1 hrefused).elim (by simp [hcoproc]) hfree)]
      have hloop : ∀ x, (((b.modLoop c slot (fun l => if k = 1 then { l with bankB := r } else { l with bankA := r })).reply
          (viaOf road (loopIdx c) 7) (loopIdx c) 7 0).loop c x) = if x = slot then
            (if k = 1 then { b.loop c slot with bankB := r } else { b.loop c slot with bankA := r }) else b.loop c x := fun x => by
        rw [State.loop, State.reply_loopCore]
        exact (b.modLoop_loop c slot c x _).trans (by simp)
      dsimp only [accept]
      rw [hloop, if_pos rfl]
      obtain ⟨hwritten, hkept⟩ := (b.loop c slot).coeff_written r hbank
      exact ⟨hwritten, hkept, fun other hother => by rw [hloop, if_neg hother]⟩
  case injections =>
    rintro s b dt road c data via rfl rfl
    refine ⟨fun k hk => ?starts, fun h => ?_, fun h hgate => ?_⟩
    case starts =>
      have hexec : exec k.1 s = .next ((s.elapse dt).injectRow road c data k.2 State.injectStart) := by
        simp only [List.mem_cons, List.not_mem_nil, or_false] at hk
        rcases hk with rfl | rfl | rfl
        · exact exec_injectStep ..
        · exact exec_injectPrbs ..
        · exact exec_injectSine ..
      obtain ⟨hother, hown⟩ := State.injectRow_start road (s.elapse dt) c data k.2
      rw [hexec]
      refine ⟨fun h => by rw [hother h], fun h hgate => ?_⟩
      obtain ⟨hmalformed, hrefused, hstarts⟩ := hown h hgate
      refine ⟨fun hok => by rw [hmalformed hok], fun hok hbarred => by rw [hrefused hok hbarred], fun hok hcoproc hbarred => ?_⟩
      obtain ⟨hinjection, hcaptured, hcapture⟩ := hstarts hok hcoproc hbarred
      exact ⟨_, injectionOf data, rfl, hinjection, rfl, h, rfl, rfl, hcaptured, hcapture⟩
    · rw [exec_injectStop, State.injectRow_other h]
    · rw [exec_injectStop, State.injectRow_own h hgate, State.injectStopAct]
      refine ⟨fun hfield => by rw [if_pos (by simpa using hfield)]; rfl, fun hfield hcoproc => ?_, fun hfield hcoproc => ⟨_, rfl, ?_⟩⟩
      · rw [if_neg (by simpa using hfield), if_pos hcoproc]
        rfl
      · rw [if_neg (by simpa using hfield), if_neg (by simp [hcoproc]), State.reply_loopCore]
        dsimp only [accept]
        rw [State.endInjection_loopCore]
        exact ⟨rfl, rfl⟩
  case noInjection =>
    rintro b c data st rfl h
    simp only [State.injectBarred, Bool.or_eq_true, decide_eq_true_eq, Bool.and_eq_true, Bool.not_eq_true', ← Option.ne_none_iff_isSome,
      Bool.or_eq_false_iff, decide_eq_false_iff_not]
    simp only [List.mem_cons, List.not_mem_nil, or_false, not_or] at h
    tauto
  case injectionEnd =>
    rintro s b dt c hb
    rw [exec_injectionEnd, ← hb]
    refine ⟨fun h => by simp [h], fun i hi => ⟨fun hleft => by simp [hi, hleft], fun hleft => ⟨_, rfl, ?_⟩⟩⟩
    rw [if_pos (by simp [hi, hleft]), State.endInjection_loopCore]
    exact ⟨rfl, rfl⟩

end Sys2Proof.Machine
end

section
/-! States that meet the hypotheses of O54. -/

namespace Sys2Proof.Machine

open Tests (served)

/-- A served part whose co-processor 0 works, with loop 0 in MANUAL. -/
def loopsServed : State := { served with
  units := tmod served.units (coprocRef 0) (fun u => { u with st := .ready })
  loops := tset served.loops 0 { loops := [(0, { st := .manual })] } }

/-- OFF of the loop in MANUAL waits for the frame start; RESTART is refused in that state, and a command of no slot for its form. -/
theorem witness_loopCommands : (∃ t, exec (.loopOff 0 .coe 0 0x1000) loopsServed = .next t ∧
      (t.loopCore 0).waiting = [.command 0 1 0]) ∧
    exec (.loopRestart 0 .coe 0 0x5000) loopsServed =
      .next ((loopsServed.elapse 0).reply (viaOf .coe (loopIdx 0) 2) (loopIdx 0) 2 0x08000022) ∧
    exec (.loopOff 0 .coe 0 0x17FF) loopsServed =
      .next ((loopsServed.elapse 0).reply (viaOf .coe (loopIdx 0) 2) (loopIdx 0) 2 0x06090030) := by
  obtain ⟨hcommands, -⟩ := loopWritesWaitForTheirFrame
  obtain ⟨-, hoff⟩ := hcommands loopsServed _ 0 0x1000 .coe 0 0x1000 _ rfl rfl rfl (.loopOff 0 .coe 0 0x1000, 1) (by decide)
  obtain ⟨-, hrestart⟩ := hcommands loopsServed _ 0 0x5000 .coe 0 0x5000 _ rfl rfl rfl (.loopRestart 0 .coe 0 0x5000, 5) (by decide)
  obtain ⟨-, hslotless⟩ := hcommands loopsServed _ 0 0x17FF .coe 0 0x17FF _ rfl rfl rfl (.loopOff 0 .coe 0 0x17FF, 1) (by decide)
  obtain ⟨-, htaken⟩ := hoff (by decide) ⟨by decide, by decide +kernel⟩
  obtain ⟨-, hbarred⟩ := hrestart (by decide) ⟨by decide, by decide +kernel⟩
  obtain ⟨hmalformed, -⟩ := hslotless (by decide) ⟨by decide, by decide +kernel⟩
  obtain ⟨-, hwaits⟩ := htaken (by decide) (by decide)
  obtain ⟨hrefused, -⟩ := hbarred (by decide) (by decide)
  obtain ⟨t, ht, hwaiting, -⟩ := hwaits (by decide) (by decide)
  exact ⟨⟨t, ht, hwaiting⟩, hrefused (.inr ⟨0, by decide, by decide⟩), hmalformed (.inl (by decide))⟩

/-- An injection whose samples have all gone. -/
def injectionOver : State := { State.reset with loops := [(0, { injection := some {} })] }

/-- It ends. -/
theorem witness_injectionEnd : ∃ t, exec (.injectionEnd 0 0) injectionOver = .next t ∧ (t.loopCore 0).injection = none := by
  obtain ⟨-, -, -, -, -, -, -, hend⟩ := loopWritesWaitForTheirFrame
  obtain ⟨-, hsome⟩ := hend injectionOver _ 0 0 rfl
  obtain ⟨-, hends⟩ := hsome {} rfl
  obtain ⟨t, ht, hnone, -⟩ := hends rfl
  exact ⟨t, ht, hnone⟩

end Sys2Proof.Machine
end

section
/-! Converters, generators and channels at the tick (R422, R426 to R434, R436, R440, R442): what the statement O56 needs of them. -/

namespace Sys2Proof.Machine

-- a table whose entries all change

/-- A table that is mapped by key and value, read where an absent entry maps to itself, or where the entry is not the one of absence. -/
theorem tget_map_key {α : Type} [Inhabited α] (F : Nat → α → α) (t : Tbl α) (i : Nat)
    (h : F i default = default ∨ tget t i ≠ default) : tget (t.map (fun x => (x.1, F x.1 x.2))) i = F i (tget t i) := by
  induction t with
  | nil =>
    rcases h with h | h
    · exact h.symm
    · exact absurd rfl h
  | cons x t ih =>
    obtain ⟨k, a⟩ := x
    by_cases hk : i = k
    · subst hk
      simp [tget, tgetD]
    · have hrest : tget ((k, a) :: t) i = tget t i := by simp [tget, tgetD, hk]
      rw [hrest] at h ⊢
      rw [← ih h]
      simp [tget, tgetD, hk]

-- a conversion (R440, R441, R443)

/-- A conversion that takes part in sources changes nothing else of the converters. -/
theorem Converters.demodulate_eq (keys : List (Nat × Nat)) (input code : Nat) (k : Converters) :
    ∃ d, k.demodulate keys input code = { k with demods := d } := by
  unfold Converters.demodulate
  induction keys generalizing k with
  | nil => exact ⟨k.demods, rfl⟩
  | cons x keys ih =>
    rw [List.foldl_cons]
    split
    · obtain ⟨d, hd⟩ := ih { k with demods := tmod k.demods x.1 _ }
      exact ⟨d, hd⟩
    · exact ih k

/-- The wheel takes a record and changes nothing else of the converters. -/
theorem State.wheelRecord_conv (s : State) (c scan input code : Nat) (ovr recovery : Bool) :
    ∃ w n, (s.wheelRecord c scan input code ovr recovery).conv c = { s.conv c with wheel := w, wheelPos := n } := by
  unfold State.wheelRecord
  extract_lets ctl bs w s1
  have hs1 : s1.conv c = { s.conv c with wheel := w.drop (w.length - 8192), wheelPos := (s.conv c).wheelPos + 1 } := by
    unfold s1
    rw [State.modConv_conv, if_pos rfl]
  split
  · exact ⟨_, _, rfl⟩
  · exact ⟨_, _, by split <;> exact hs1⟩

/-- One conversion: its code stands, and channels, groups and generators are as before. -/
theorem State.convert_conv (s : State) (c v slot scan : Nat) (uv : Int) : ∃ d a w n, (s.convert c v slot scan uv).conv c =
    { s.conv c with codes := tset (s.conv c).codes (8 * v + slot) (adcCode uv).1, adcs := a, demods := d, wheel := w, wheelPos := n } := by
  unfold State.convert
  extract_lets input r left recovery s1 s2 s3
  have hs1 : ∃ d a, s1.conv c = { s.conv c with codes := tset (s.conv c).codes input r.1, adcs := a, demods := d } := by
    unfold s1
    rw [State.modConv_conv, if_pos rfl]
    dsimp only
    split
    · exact ⟨_, _, rfl⟩
    · obtain ⟨d, hd⟩ := Converters.demodulate_eq (s.loopCore c).sources input r.1
        { s.conv c with codes := tset (s.conv c).codes input r.1
                        adcs := tmod (s.conv c).adcs v (fun a => { a with recovery := if r.2.2 then 3 else left - 1 }) }
      exact ⟨d, _, hd⟩
  have hs3 : s3.conv c = s1.conv c := by
    unfold s3 s2
    split <;> split <;> simp only [State.bump_conv, State.setVal_conv]
  obtain ⟨d, a, hda⟩ := hs1
  obtain ⟨w, n, hwn⟩ := s3.wheelRecord_conv c scan input r.1 r.2.1 recovery
  exact ⟨d, a, w, n, by rw [hwn, hs3, hda]⟩

/-- One converter's turn at a tick; one out of service has none. -/
def State.convertInService (c slot scan : Nat) (volts : List Int) (s : State) (v : Nat) : State :=
  if v < 68 && (s.unit (adcRef c v)).out then s else s.convert c v slot scan (volts.getD v 0)

section
variable {c slot scan : Nat} {volts : List Int}

theorem State.convertInService_unit (s : State) (v r : Nat) : (s.convertInService c slot scan volts v).unit r = s.unit r := by
  unfold State.convertInService
  split
  · rfl
  · exact (State.convert_keeps (Within.refl _) c v slot scan _ (.refl _ s)).unit_eq r (by decide)

theorem State.convertInService_channels (s : State) (v : Nat) :
    ((s.convertInService c slot scan volts v).conv c).channels = (s.conv c).channels := by
  unfold State.convertInService
  split
  · rfl
  · obtain ⟨d, a, w, n, h⟩ := s.convert_conv c v slot scan (volts.getD v 0)
    rw [h]

theorem State.convertInService_generators (s : State) (v : Nat) :
    ((s.convertInService c slot scan volts v).conv c).generators = (s.conv c).generators := by
  unfold State.convertInService
  split
  · rfl
  · obtain ⟨d, a, w, n, h⟩ := s.convert_conv c v slot scan (volts.getD v 0)
    rw [h]

/-- The code of a converter in service is that of its own turn. -/
theorem State.convertInService_code (s : State) {u v : Nat} (hout : (s.unit (adcRef c v)).out = false) :
    tget ((s.convertInService c slot scan volts u).conv c).codes (8 * v + slot) =
      if u = v then (adcCode (volts.getD v 0)).1 else tget (s.conv c).codes (8 * v + slot) := by
  unfold State.convertInService
  by_cases huv : u = v
  · subst huv
    rw [if_neg (by simp [hout]), if_pos rfl]
    obtain ⟨d, a, w, n, h⟩ := s.convert_conv c u slot scan (volts.getD u 0)
    rw [h, tget_tset, if_pos rfl]
  · rw [if_neg huv]
    split
    · rfl
    · obtain ⟨d, a, w, n, h⟩ := s.convert_conv c u slot scan (volts.getD u 0)
      rw [h, tget_tset, if_neg (by omega)]

/-- After the turns of a list of converters, each of them that is in service has its code. -/
theorem State.converts_code {v : Nat} (vs : List Nat) (s : State) (hout : (s.unit (adcRef c v)).out = false)
    (h : v ∈ vs ∨ tget (s.conv c).codes (8 * v + slot) = (adcCode (volts.getD v 0)).1) :
    tget ((vs.foldl (State.convertInService c slot scan volts) s).conv c).codes (8 * v + slot) = (adcCode (volts.getD v 0)).1 := by
  induction vs generalizing s with
  | nil => exact h.resolve_left (by simp)
  | cons u vs ih =>
    refine ih _ (by rw [State.convertInService_unit, hout]) ?_
    rw [State.convertInService_code s hout]
    by_cases huv : u = v
    · exact .inr (if_pos huv)
    · rw [if_neg huv]
      exact h.imp_left (fun hv => (List.mem_cons.1 hv).resolve_left (Ne.symm huv))

end

-- the tick (R422, R434)

theorem Generator.tick_default (frameStart : Bool) : (default : Generator).tick frameStart = default := by
  cases frameStart <;> rfl

theorem Generator.tick_moves {g : Generator} {frameStart : Bool} (h : frameStart = false ∨ g.next = none) :
    g.tick frameStart = { g with acc := (g.acc + g.ftw) % 2 ^ 32 } := by
  have hnone : (if frameStart then g.next else none) = none := by
    rcases h with rfl | h
    · rfl
    · rw [h, ite_self]
  rw [Generator.tick, hnone]

theorem Generator.tick_takes {g : Generator} {ftw phase : Nat} {enable : Bool} (h : g.next = some (ftw, phase, enable)) :
    g.tick true = { ftw := ftw, phase := phase, enable := enable, acc := phase, next := none } := by
  rw [Generator.tick, if_pos rfl, h]

/-- A channel whose fault waits takes the fault value at the tick, and holds nothing. -/
theorem Channel.tick_faulted {x : Channel} (ch : Nat) (strobe fenced : Bool) (now : Nat) (hfault : x.faultNext = true)
    (hconfig : x.configNext = none) : x.tick ch strobe fenced now = { x.faulted ch with wait := 0 } := by
  unfold Channel.tick
  rw [hfault]
  simp [Channel.faulted, hconfig]

/-- The converters of a core at a tick, before the conversions: generators, channels and groups have moved. -/
def State.ticked (s : State) (c : Nat) : Converters :=
  let k := s.conv c
  { k with
    generators := k.generators.map (fun (g : Nat × Generator) => (g.1, g.2.tick (s.ns % 100000 = 0)))
    wheelArmed := if s.ns / 500 % 8 = 0 then false else k.wheelArmed
    channels := k.channels.map (fun (x : Nat × Channel) => (x.1, x.2.tick x.1 ((k.group (groupOf x.1)).strobe) (decide (s.unit (dacRef c (groupOf x.1)) = UnitSt.fenced)) s.up))
    groups := k.groups.map (fun (g : Nat × DacGroup) => (g.1, { g.2 with
      strobe := false, ticks := if g.2.queueMode then g.2.ticks + 1 else 0 })) }

/-- What the channels of a core put out. -/
def Converters.coded (k : Converters) : Converters :=
  { k with channels := k.channels.map (fun (x : Nat × Channel) =>
      (x.1, { x.2 with code := (x.2.codeNow x.1 k.generators).1, clipped := (x.2.codeNow x.1 k.generators).2 })) }

/-- The channels that clip. -/
def Converters.clips (k : Converters) : Nat := (k.channels.filter (fun x => (x.2.codeNow x.1 k.generators).2)).length

/-- The conversions of a tick. -/
def State.converted (s : State) (c : Nat) (volts : List Int) : State :=
  forRange 70 ((s.modConv c (fun _ => (s.ticked c).coded)).bump (dacIdx c) 0xD (s.ticked c).clips)
    (State.convertInService c (s.ns / 500 % 8) (s.ns / 4000 % 2 ^ 32) volts)

/-- The reference conversions of a scan. -/
def Converters.referenced (refs : List Int) (k : Converters) : Converters :=
  { k with adcs := (List.range 68).foldl (fun t v => tmod t v (fun a => a.reference (refs.getD v 0))) k.adcs }

theorem State.converterTick_eq {s : State} {c : Nat} (hsupply : (s.core c).supply ≠ 0) (htick : s.ns % 500 = 0) (volts refs : List Int) :
    s.converterTick c volts refs = if s.ns / 500 % 8 = 7 then
      (s.converted c volts).modConv c (Converters.referenced refs) else s.converted c volts := by
  unfold State.converterTick
  rw [if_neg (by simp [hsupply, htick])]
  rfl

end Sys2Proof.Machine
end

section
/-! What the converter tick, faults, slewing and the queues leave (R429, R431, R432, R436, R442). -/

namespace Sys2Proof.Machine

-- the tick

section
variable {s : State} {c : Nat} {volts refs : List Int}

theorem State.converted_channels : ((s.converted c volts).conv c).channels = (s.ticked c).coded.channels := by
  rw [State.converted, forRange, foldl_reads (fun t : State => (t.conv c).channels) State.convertInService_channels, State.bump_conv,
    State.modConv_conv, if_pos rfl]

theorem State.converted_generators : ((s.converted c volts).conv c).generators = (s.ticked c).generators := by
  rw [State.converted, forRange, foldl_reads (fun t : State => (t.conv c).generators) State.convertInService_generators, State.bump_conv,
    State.modConv_conv, if_pos rfl]
  rfl

theorem State.converted_code {v : Nat} (hv : v < 68) (hout : (s.unit (adcRef c v)).out = false) :
    tget ((s.converted c volts).conv c).codes (8 * v + s.ns / 500 % 8) = (adcCode (volts.getD v 0)).1 := by
  rw [State.converted, forRange]
  refine State.converts_code (slot := s.ns / 500 % 8) (List.range 70) _ ?_ (.inl (List.mem_range.2 (by omega)))
  rw [State.bump_unit, State.modConv_unit, hout]

theorem Converters.referenced_rest (k : Converters) : (k.referenced refs).channels = k.channels ∧
    (k.referenced refs).generators = k.generators ∧ (k.referenced refs).codes = k.codes := by
  simp only [Converters.referenced, and_self]

/-- The tick leaves the channels, generators and codes of its conversions. -/
theorem State.converterTick_conv (hsupply : (s.core c).supply ≠ 0) (htick : s.ns % 500 = 0) :
    ((s.converterTick c volts refs).conv c).channels = (s.ticked c).coded.channels ∧
    ((s.converterTick c volts refs).conv c).generators = (s.ticked c).generators ∧
    ((s.converterTick c volts refs).conv c).codes = ((s.converted c volts).conv c).codes := by
  rw [State.converterTick_eq hsupply htick]
  split
  · obtain ⟨hchannels, hgenerators, hcodes⟩ := Converters.referenced_rest (refs := refs) ((s.converted c volts).conv c)
    rw [State.modConv_conv, if_pos rfl, hchannels, hgenerators, hcodes]
    exact ⟨State.converted_channels, State.converted_generators, rfl⟩
  · exact ⟨State.converted_channels, State.converted_generators, rfl⟩

/-- A generator after the tick. -/
theorem State.ticked_generator (g : Nat) :
    tget (s.ticked c).generators g = (tget (s.conv c).generators g).tick (s.ns % 100000 = 0) :=
  tget_map_key (fun _ (x : Generator) => x.tick (s.ns % 100000 = 0)) (s.conv c).generators g (.inl (Generator.tick_default _))

/-- A channel whose fault waits puts out the fault value. -/
theorem State.ticked_faulted {ch : Nat} (hfault : (s.channel c ch).faultNext = true) (hconfig : (s.channel c ch).configNext = none) :
    ∃ code clipped, tget (s.ticked c).coded.channels ch =
      { (s.channel c ch).faulted ch with wait := 0, code := code, clipped := clipped } := by
  have hpresent : tget (s.conv c).channels ch ≠ default := fun h => by
    rw [State.channel, Converters.channel, h] at hfault
    cases hfault
  have hticked : tget (s.ticked c).channels ch = { (s.channel c ch).faulted ch with wait := 0 } :=
    (tget_map_key (fun ch (x : Channel) => x.tick ch (((s.conv c).group (groupOf ch)).strobe)
      (decide (s.unit (dacRef c (groupOf ch)) = UnitSt.fenced)) s.up) _ ch (.inr hpresent)).trans
      (Channel.tick_faulted ch _ _ _ hfault hconfig)
  refine ⟨_, _, (tget_map_key (fun ch (x : Channel) => { x with
    code := (x.codeNow ch (s.ticked c).generators).1, clipped := (x.codeNow ch (s.ticked c).generators).2 }) _ ch (.inr ?_)).trans
      (by rw [hticked])⟩
  rw [hticked]
  intro h
  exact absurd (congrArg Channel.faultValue h) (by simp [Channel.faulted]; decide)

end

-- codes (R440)

theorem adcCode_low {uv : Int} (h : uv < 0) : (adcCode uv).1 = 0 := by
  have hneg : uv * 65536 / 2500000 < 0 := by omega
  exact if_pos hneg

theorem adcCode_high {uv : Int} (h : 2500000 ≤ uv) : (adcCode uv).1 = 65535 := by
  have hhigh : 65535 < uv * 65536 / 2500000 := by omega
  have hnot : ¬ uv * 65536 / 2500000 < 0 := by omega
  exact (if_neg hnot).trans (if_pos hhigh)

theorem adcCode_inside {uv : Int} (h0 : 0 ≤ uv) (h : uv < 2500000) : ((adcCode uv).1 : Int) * 2500000 ≤ uv * 65536 ∧
    uv * 65536 < (((adcCode uv).1 : Int) + 1) * 2500000 := by
  have hnot : ¬ uv * 65536 / 2500000 < 0 := by omega
  have hlow : ¬ 65535 < uv * 65536 / 2500000 := by omega
  have hcode : (adcCode uv).1 = (uv * 65536 / 2500000).toNat := (if_neg hnot).trans (if_neg hlow)
  rw [hcode]
  omega

-- a converter whose reference fails (R442)

theorem State.adcFault_quiet {s : State} {c v : Nat} (h : (tget (s.conv c).adcs v).badRefs < 8 ∨ (s.unit (adcRef c v)).works = false) :
    s.adcFault c v = s := if_pos (by simpa using h)

theorem State.adcFault_fences {s : State} {c v : Nat} (hbad : 8 ≤ (tget (s.conv c).adcs v).badRefs)
    (hworks : (s.unit (adcRef c v)).works = true) :
    s.adcFault c v = ((s.raise 0x0607 (adcRef c v) 0).fence (adcRef c v)).holdLoops c := if_neg (by simp [hworks]; omega)

theorem adcRef_kind (c : Fin 16) (v : Fin 68) : refKind (adcRef c v) = 9 := by
  have := c.isLt
  have := v.isLt
  simp only [refKind, adcRef]
  omega

/-- A unit that is neither a core nor an engine is FENCED by a fault, never RETIRED. -/
theorem State.fence_fenced (s : State) {r : Nat} (h1 : refKind r ≠ 1) (h2 : refKind r ≠ 2) : (s.fence r).unit r = .fenced := by
  unfold State.fence
  dsimp only
  rw [if_neg (by simp [h1, h2])]
  exact State.leave_unit _ _ _

/-- A loop that takes a state leaves every other loop as it is. -/
theorem State.loopTo_loop_other (s : State) {c x y : Nat} (h : x ≠ y) (st : LoopSt) : (s.loopTo c x st).loop c y = s.loop c y := by
  unfold State.loopTo
  extract_lets old s1 s2 s3
  have h1 : s1.loop c y = s.loop c y := by rw [State.modLoop_loop, if_neg (fun hy => h hy.2.symm)]
  have h2 : s2.loop c y = s1.loop c y := by
    unfold s2
    split
    · exact s1.endInjectionOf_loop c x c y
    · rfl
  have h3 : s3.loop c y = s2.loop c y := by
    unfold s3
    split
    · rw [State.loop, State.bump_loopCore]
      rfl
    · rfl
  rw [← h1, ← h2, ← h3]
  repeat' split
  all_goals rfl

/-- One loop follows its units; every other stays as it is. -/
theorem State.holdLoop_loop_other (s : State) {c x y : Nat} (h : x ≠ y) : (s.holdLoop c x).loop c y = s.loop c y := by
  unfold State.holdLoop
  extract_lets st us
  repeat' split
  · exact s.loopTo_loop_other h .hold
  · exact s.loopTo_loop_other h .off
  · exact s.loopTo_loop_other h .acquire
  · rfl
  · rfl

theorem State.holdLoop_fenced {s : State} {c x r : Nat} (hr : r ∈ s.loopUnits c x) (hfenced : s.unit r = .fenced)
    (hruns : (s.loop c x).st.runs = true) : ((s.holdLoop c x).loop c x).st = .hold := by
  have hany : (s.loopUnits c x).any (fun u => (s.unit u).holds) = true :=
    List.any_eq_true.2 ⟨r, hr, by rw [hfenced]; rfl⟩
  unfold State.holdLoop
  dsimp only
  rw [if_pos (by rw [hruns, hany]; rfl), State.loopTo_st, if_pos ⟨rfl, rfl⟩]

theorem State.loopUnits_congr {s t : State} {c x : Nat} (h : t.loop c x = s.loop c x) : t.loopUnits c x = s.loopUnits c x := by
  rw [State.loopUnits, State.loopUnits, h]

/-- Of loops that each follow once, one that runs and needs a FENCED unit holds. -/
theorem State.holdEach_fenced {c x r : Nat} (xs : List Nat) (hxs : xs.Nodup) (s : State) (hfenced : s.unit r = .fenced)
    (h : (x ∈ xs ∧ r ∈ s.loopUnits c x ∧ (s.loop c x).st.runs = true) ∨ (x ∉ xs ∧ (s.loop c x).st = .hold)) :
    ((xs.foldl (fun s y => s.holdLoop c y) s).loop c x).st = .hold := by
  induction xs generalizing s with
  | nil => exact (h.resolve_left (by simp)).2
  | cons y ys ih =>
    obtain ⟨hy, hys⟩ := List.nodup_cons.1 hxs
    have hunit : (s.holdLoop c y).unit r = .fenced := by
      rw [(State.holdLoop_keeps (Within.refl _) c y (.refl _ s)).unit_eq r (by decide), hfenced]
    refine ih hys _ hunit ?_
    by_cases hxy : y = x
    · subst hxy
      refine .inr ⟨hy, ?_⟩
      obtain ⟨-, hunits, hruns⟩ := h.resolve_right (fun hnot => hnot.1 (List.mem_cons_self ..))
      exact State.holdLoop_fenced hunits hfenced hruns
    · have hsame := s.holdLoop_loop_other (c := c) hxy
      rw [hsame, State.loopUnits_congr hsame]
      exact h.imp (fun hin => ⟨(List.mem_cons.1 hin.1).resolve_left (Ne.symm hxy), hin.2⟩)
        (fun hout => ⟨fun hin => hout.1 (List.mem_cons_of_mem _ hin), hout.2⟩)

theorem tget_mem_keys {α : Type} [Inhabited α] {t : Tbl α} {i : Nat} (h : tget t i ≠ default) : i ∈ t.map Prod.fst :=
  List.mem_map_of_mem (f := Prod.fst) ((tgetD_mem default t i).resolve_left h)

/-- A loop that runs and needs a FENCED unit holds once the loops of its core follow. -/
theorem State.holdLoops_fenced {s : State} {c x r : Nat} (hkeys : ((s.loopCore c).loops.map Prod.fst).Nodup) (hr : r ∈ s.loopUnits c x)
    (hfenced : s.unit r = .fenced) (hruns : (s.loop c x).st.runs = true) : ((s.holdLoops c).loop c x).st = .hold := by
  refine State.holdEach_fenced _ hkeys s hfenced (.inl ⟨tget_mem_keys (fun hdefault => ?_), hr, hruns⟩)
  rw [State.loop, LoopCore.loop, hdefault] at hruns
  cases hruns

end Sys2Proof.Machine
end

section
/-! Slewing, spans, driver faults, queues, and the writes of channels, groups, generators and wheels (R427, R430 to R432, R434, R436,
R443 to R445). -/

namespace Sys2Proof.Machine

theorem exec_converterTick (dt : Nat) (c : Fin 16) (volts refs : List Int) (s : State) :
    exec (.converterTick dt c volts refs) s = .next ((s.elapse dt).converterTick c volts refs) := rfl
theorem exec_adcReference (dt : Nat) (c : Fin 16) (v : Fin 68) (s : State) :
    exec (.adcReference dt c v) s = .next ((s.elapse dt).adcFault c v) := rfl
theorem exec_slewMove (dt : Nat) (c : Fin 16) (ch : Fin 1120) (s : State) :
    exec (.slewMove dt c ch) s = .next ((s.elapse dt).slewMove c ch) := rfl
theorem exec_spanChangeEnd (dt : Nat) (c : Fin 16) (ch : Fin 1120) (s : State) :
    exec (.spanChangeEnd dt c ch) s = .next ((s.elapse dt).spanEnd c ch) := rfl
theorem exec_dacDriverFault (dt : Nat) (c : Fin 16) (ch : Fin 1120) (cause : DriverFault) (s : State) :
    exec (.dacDriverFault dt c ch cause) s = .next ((s.elapse dt).driverFault c ch) := rfl
theorem exec_queueTick (dt : Nat) (c : Fin 16) (g : Fin 35) (s : State) :
    exec (.queueTick dt c g) s = .next ((s.elapse dt).queueTick c g) := rfl
theorem exec_arm (dt : Nat) (road : Road) (c : Fin 16) (w : BitVec 32) (s : State) : exec (.arm dt road c w) s = .next
    (if bitOf w.toNat 12 then (s.elapse dt).writeRow road (dacIdx c) 6 (leBytes 4 w.toNat) (State.armAct c w.toNat)
      else s.elapse dt) := rfl
theorem exec_disarm (dt : Nat) (road : Road) (c : Fin 16) (w : BitVec 32) (s : State) : exec (.disarm dt road c w) s = .next
    (if bitOf w.toNat 12 then s.elapse dt
      else (s.elapse dt).writeRow road (dacIdx c) 6 (leBytes 4 w.toNat) (State.disarmAct c w.toNat)) := rfl
theorem exec_channelWrite (dt : Nat) (road : Road) (c : Fin 16) (data : List Byte) (s : State) : exec (.channelWrite dt road c data) s =
    .next ((s.elapse dt).writeRow road (dacIdx c) 5 data (State.channelWriteAct c data)) := rfl
theorem exec_channelConfigWrite (dt : Nat) (road : Road) (c : Fin 16) (data : List Byte) (s : State) :
    exec (.channelConfigWrite dt road c data) s =
      .next ((s.elapse dt).writeRow road (dacIdx c) 3 data (State.channelConfigAct c data)) := rfl
theorem exec_groupStrobe (dt : Nat) (road : Road) (c : Fin 16) (w : BitVec 64) (s : State) : exec (.groupStrobe dt road c w) s =
    .next ((s.elapse dt).writeRow road (dacIdx c) 8 (leBytes 8 w.toNat) (State.groupStrobeAct c w.toNat)) := rfl
theorem exec_queueWrite (dt : Nat) (road : Road) (c : Fin 16) (data : List Byte) (s : State) : exec (.queueWrite dt road c data) s =
    .next ((s.elapse dt).writeRow road (dacIdx c) 9 data (State.queueWriteAct c data)) := rfl
theorem exec_generatorWrite (dt : Nat) (road : Road) (c : Fin 16) (data : List Byte) (s : State) :
    exec (.generatorWrite dt road c data) s =
      .next ((s.elapse dt).writeRow road (0x6400 + c) 2 data (State.generatorAct c data)) := rfl
theorem exec_wheelRun (dt : Nat) (road : Road) (c : Fin 16) (value : BitVec 8) (s : State) : exec (.wheelRun dt road c value) s =
    .next ((s.elapse dt).writeRow road (adcIdx c) 7 (leBytes 1 value.toNat) (State.wheelAct c value.toNat)) := rfl

-- what a change of one channel leaves of the others

theorem State.modChannel_channel (s : State) (c ch : Nat) (f : Channel → Channel) (other : Nat) :
    (s.modChannel c ch f).channel c other = if other = ch then f (s.channel c ch) else s.channel c other := by
  rw [State.channel, State.modChannel, State.modConv_conv, if_pos rfl]
  exact tget_tmod ..

/-- A change that is done again changes no more, made of each channel of a list. -/
theorem State.modChannels_channel {f : Channel → Channel} (hf : ∀ x, f (f x) = f x) (c : Nat) (chs : List Nat) (s : State) (ch : Nat) :
    (chs.foldl (fun s y => s.modChannel c y f) s).channel c ch = if ch ∈ chs then f (s.channel c ch) else s.channel c ch := by
  induction chs generalizing s with
  | nil => rfl
  | cons y chs ih =>
    rw [List.foldl_cons, ih, State.modChannel_channel]
    by_cases hy : ch = y
    · subst hy
      simp [hf]
    · simp [hy]

-- slewing and spans (R432, R436)

section
variable {s : State} {c ch : Nat}

theorem State.slewMove_not (h : s.ns % 500 ≠ 0 ∨ (s.channel c ch).output = (s.channel c ch).target ∨
    (s.channel c ch).spanAt ≠ none ∨ (s.channel c ch).wait ≠ 0) : s.slewMove c ch = s := by
  refine if_pos ?_
  simpa [or_assoc, Option.isSome_iff_ne_none] using h

theorem State.slewMove_moves (htick : s.ns % 500 = 0) (hgap : (s.channel c ch).output ≠ (s.channel c ch).target)
    (hspan : (s.channel c ch).spanAt = none) (hwait : (s.channel c ch).wait = 0) :
    s.slewMove c ch = s.modChannel c ch (fun x => x.move ch (s.conv c).generators) := by
  have hmoves : s.slewMove c ch = s.modConv c (fun k => k.modChannel ch (fun x => x.move ch k.generators)) :=
    if_neg (by simp [htick, hgap, hspan, hwait])
  rw [hmoves, State.modChannel, State.modConv, State.modConv, tmod, tmod]
  rfl

end

/-- A move of OUTPUT toward TARGET by up to SLEW_STEP. -/
theorem Channel.move_effect (x : Channel) (ch : Nat) (gens : Tbl Generator) : (x.move ch gens).target = x.target ∧
    (ccStep (x.record ch) = 0 → (x.move ch gens).output = x.target) ∧
    (ccStep (x.record ch) ≠ 0 → x.output < x.target →
      (x.move ch gens).output = min x.target (x.output + ccStep (x.record ch))) ∧
    (ccStep (x.record ch) ≠ 0 → x.target < x.output →
      (x.move ch gens).output = max x.target (x.output - ccStep (x.record ch))) ∧
    (x.move ch gens).wait = if (x.move ch gens).output = x.target then 0 else ccPeriod (x.record ch) := by
  refine ⟨rfl, fun h => ?_, fun h hup => ?_, fun h hdown => ?_, rfl⟩
  all_goals dsimp only [Channel.move]
  · rw [if_pos h]
    split <;> omega
  · rw [if_neg h, if_pos hup, if_pos hup]
    omega
  · rw [if_neg h, if_neg hdown.not_gt, if_neg hdown.not_gt]
    omega

section
variable {s : State} {c ch : Nat}

theorem State.spanEnd_none (h : (s.channel c ch).spanAt = none) : s.spanEnd c ch = s := by rw [State.spanEnd, h]

theorem State.spanEnd_some {at_ : Nat} (h : (s.channel c ch).spanAt = some at_) : s.spanEnd c ch =
    if s.up < at_ + 10 * usPs then s else s.modChannel c ch (fun x => { x with spanAt := none, wait := 0 }) := by
  rw [State.spanEnd, h]

-- a driver's fault (R429)

theorem State.driverFault_not (h : armable ch = false ∨ s.standsBy c ch = true ∨ (s.channel c ch).armed = false) :
    s.driverFault c ch = s := by
  refine if_pos ?_
  simpa [or_assoc] using h

theorem State.driverFault_alone (harmable : armable ch = true) (hstands : s.standsBy c ch = false)
    (harmed : (s.channel c ch).armed = true) (hloops : s.channelLoops c ch = []) : s.driverFault c ch =
      ((s.modChannel c ch (fun x => { x with driverFault := true, faultNext := true })).bump (dacIdx c) 0x0C 1).raise
        0x0605 (dacRef c (groupOf ch)) ch := by
  unfold State.driverFault
  rw [if_neg (by simp [harmable, hstands, harmed]), hloops]
  rfl

end

-- queues (R431)

theorem Converters.modChannel_channel (k : Converters) (ch other : Nat) (f : Channel → Channel) :
    (k.modChannel ch f).channel other = if other = ch then f (k.channel ch) else k.channel other := tget_tmod ..

theorem Converters.modGroup_group (k : Converters) (g other : Nat) (f : DacGroup → DacGroup) :
    (k.modGroup g f).group other = if other = g then f (k.group g) else k.group other := tget_tmod ..

/-- A frame's codes go to the 32 channels of a group. -/
def Converters.deliverFrame (k : Converters) (g : Nat) (f : List Nat) (places : List Nat) : Converters :=
  places.foldl (fun k i => k.modChannel (32 * g + i) (fun y => y.deliver (32 * g + i) (f.getD i 0))) k

theorem Channel.deliver_deliver (x : Channel) (ch code : Nat) : (x.deliver ch code).deliver ch code = x.deliver ch code := rfl

theorem Converters.deliverFrame_channel (g : Nat) (f : List Nat) (i : Nat) (places : List Nat) (k : Converters) :
    (k.deliverFrame g f places).channel (32 * g + i) =
      if i ∈ places then (k.channel (32 * g + i)).deliver (32 * g + i) (f.getD i 0) else k.channel (32 * g + i) := by
  induction places generalizing k with
  | nil => rfl
  | cons j places ih =>
    refine (ih _).trans ?_
    rw [Converters.modChannel_channel]
    by_cases hij : i = j
    · subst hij
      simp [Channel.deliver_deliver]
    · simp [hij]

theorem Converters.deliverFrame_groups (g : Nat) (f : List Nat) (places : List Nat) (k : Converters) :
    (k.deliverFrame g f places).groups = k.groups := by
  induction places generalizing k with
  | nil => rfl
  | cons i places ih => exact ih _

section
variable {s : State} {c g : Nat}

theorem State.queueTick_not (h : s.ns % 500 ≠ 0 ∨ ((s.conv c).group g).queueMode = false ∨
    ((s.conv c).group g).ticks < ((s.conv c).group g).period ∨ s.groupOut c g = true) : s.queueTick c g = s := by
  refine if_pos ?_
  simpa [or_assoc] using h

section
variable (htick : s.ns % 500 = 0) (hmode : ((s.conv c).group g).queueMode = true)
  (hperiod : ((s.conv c).group g).period ≤ ((s.conv c).group g).ticks) (hin : s.groupOut c g = false)
include htick hmode hperiod hin

theorem State.queueTick_underrun (hqueue : ((s.conv c).group g).queue = []) : (s.queueTick c g).conv c =
    (s.conv c).modGroup g (fun x => { x with ticks := 0, underrun := true }) := by
  unfold State.queueTick
  dsimp only
  rw [if_neg (by simp [htick, hmode, hin, hperiod.not_gt]), hqueue]
  dsimp only
  split
  · rw [State.modConv_conv, if_pos rfl, State.bump_conv]
  · rw [State.raise_conv, State.modConv_conv, if_pos rfl, State.bump_conv]

theorem State.queueTick_delivers {f : List Nat} {rest : List (List Nat)} (hqueue : ((s.conv c).group g).queue = f :: rest) :
    (s.queueTick c g).conv c = ((s.conv c).modGroup g (fun x => { x with ticks := 0, underrun := false, queue := rest })).deliverFrame
      g f (List.range 32) := by
  unfold State.queueTick
  dsimp only
  rw [if_neg (by simp [htick, hmode, hin, hperiod.not_gt]), hqueue]
  dsimp only
  rw [State.modConv_conv, if_pos rfl]
  rfl

end

end

end Sys2Proof.Machine
end

section
/-! The writes of channels, groups, generators and wheels (R427, R430, R431, R434, R436, R443 to R445). -/

namespace Sys2Proof.Machine

-- arming (R427)

section
variable {s : State} {c n : Nat}

/-- What bars a channel from the one Arm Command or the other. -/
def State.armBarred (s : State) (c : Nat) (arms : Bool) (ch : Nat) : Prop :=
  s.groupOut c (groupOf ch) = true ∨ s.standsBy c ch = true ∨
    (arms = true ∧ (s.bayOpen c ch = true ∨ s.channelLoops c ch ≠ []))

theorem State.armAct_malformed (h : 8192 ≤ n ∨ armTargets n = [] ∨ ∃ ch ∈ armTargets n, armable ch = false) :
    State.armAct c n s = refuse abRange s := by
  refine if_pos ?_
  simp only [Bool.or_eq_true, bne_iff_ne, List.isEmpty_iff, List.any_eq_true, Bool.not_eq_true', or_assoc]
  exact h.imp_left (fun h => by omega)

theorem State.armAct_formed (h : n < 8192) (htargets : armTargets n ≠ []) (harmable : ∀ ch ∈ armTargets n, armable ch = true) :
    ((∃ ch ∈ armTargets n, s.armBarred c true ch) → State.armAct c n s = refuse abState s) ∧
    ((¬ ∃ ch ∈ armTargets n, s.armBarred c true ch) → State.armAct c n s =
      accept ((armTargets n).foldl (fun s ch => s.modChannel c ch (fun x => { x with armNext := some true })) s)) := by
  have hformed : ¬ ((n / 8192 != 0 || (armTargets n).isEmpty || (armTargets n).any (fun ch => !armable ch)) = true) := by
    simp only [Bool.or_eq_true, bne_iff_ne, List.isEmpty_iff, List.any_eq_true, Bool.not_eq_true', not_or, not_exists, not_and]
    exact ⟨⟨by omega, htargets⟩, fun ch hch hnot => by simp [harmable ch hch] at hnot⟩
  have hbarred : (armTargets n).any (fun ch => s.groupOut c (groupOf ch) || s.standsBy c ch || s.bayOpen c ch ||
      !(s.channelLoops c ch).isEmpty) = true ↔ ∃ ch ∈ armTargets n, s.armBarred c true ch := by
    simp [State.armBarred, or_assoc]
  exact ⟨fun h => (if_neg hformed).trans (if_pos (hbarred.2 h)), fun h => (if_neg hformed).trans (if_neg (mt hbarred.1 h))⟩

theorem State.disarmAct_malformed (h : 8192 ≤ n ∨ armTargets n = []) : State.disarmAct c n s = refuse abRange s := by
  refine if_pos ?_
  simp only [Bool.or_eq_true, bne_iff_ne, List.isEmpty_iff]
  exact h.imp_left (fun h => by omega)

theorem State.disarmAct_formed (h : n < 8192) (htargets : armTargets n ≠ []) :
    ((∃ ch ∈ armTargets n, s.armBarred c false ch) → State.disarmAct c n s = refuse abState s) ∧
    ((¬ ∃ ch ∈ armTargets n, s.armBarred c false ch) → State.disarmAct c n s =
      accept ((armTargets n).foldl (fun s ch => s.modChannel c ch (fun x => { x with armNext := some false })) s)) := by
  have hformed : ¬ ((n / 8192 != 0 || (armTargets n).isEmpty) = true) := by
    simp only [Bool.or_eq_true, bne_iff_ne, List.isEmpty_iff, not_or]
    exact ⟨by omega, htargets⟩
  have hbarred : (armTargets n).any (fun ch => s.groupOut c (groupOf ch) || s.standsBy c ch) = true ↔
      ∃ ch ∈ armTargets n, s.armBarred c false ch := by
    simp [State.armBarred]
  exact ⟨fun h => (if_neg hformed).trans (if_pos (hbarred.2 h)), fun h => (if_neg hformed).trans (if_neg (mt hbarred.1 h))⟩

/-- The Arm Command of a word, of either kind: its checks in order, and what it leaves for the tick. -/
theorem State.armCommandAct_effect (s : State) (c n : Nat) :
    (8192 ≤ n ∨ armTargets n = [] ∨ (bitOf n 12 = true ∧ ∃ ch ∈ armTargets n, armable ch = false) →
      State.armCommandAct c n s = refuse abRange s) ∧
    (n < 8192 → armTargets n ≠ [] → (bitOf n 12 = true → ∀ ch ∈ armTargets n, armable ch = true) →
      ((∃ ch ∈ armTargets n, s.armBarred c (bitOf n 12) ch) → State.armCommandAct c n s = refuse abState s) ∧
      ((¬ ∃ ch ∈ armTargets n, s.armBarred c (bitOf n 12) ch) → State.armCommandAct c n s =
        accept ((armTargets n).foldl (fun s ch => s.modChannel c ch (fun x => { x with armNext := some (bitOf n 12) })) s))) := by
  unfold State.armCommandAct
  cases hbit : bitOf n 12
  · exact ⟨fun h => State.disarmAct_malformed (h.imp_right (fun h => h.resolve_right (by simp))),
      fun h htargets _ => State.disarmAct_formed h htargets⟩
  · exact ⟨fun h => State.armAct_malformed (h.imp_right (Or.imp_right (fun h => h.2))),
      fun h htargets harmable => State.armAct_formed h htargets (harmable rfl)⟩

end

-- channel writes and records (R430, R436, R445)

section
variable {s : State} {c ch r : Nat} {data : List Byte}

theorem State.channelWriteAct_unknown (hch : ch = field data 0 2) (h : 1120 ≤ ch) :
    State.channelWriteAct c data s = refuse abRange s := by
  subst hch
  exact if_pos h

theorem State.channelWriteAct_known (hch : ch = field data 0 2) (h : ch < 1120) : State.channelWriteAct c data s =
    if s.groupOut c (groupOf ch) || s.standsBy c ch || !(s.channelLoops c ch).isEmpty || ((s.conv c).group (groupOf ch)).queueMode
    then refuse abState s else accept (s.modChannel c ch (fun x => { x with held := some (field data 2 2) })) := by
  subst hch
  exact if_neg (by omega)

theorem State.channelConfigAct_malformed (hch : ch = field data 0 2) (hr : r = field data 4 16)
    (h : 1120 ≤ ch ∨ field data 2 2 ≠ 0 ∨ channelRecordOk r = false) : State.channelConfigAct c data s = refuse abRange s := by
  subst hch hr
  exact if_pos (by simpa [or_assoc] using h)

/-- A record changes the span that the channel is to have. -/
def State.spanChanges (s : State) (c ch r : Nat) : Bool :=
  ccSpan r != ccSpan ((s.channel c ch).configNext.getD ((s.channel c ch).record ch))

theorem State.channelConfigAct_formed (hch : ch = field data 0 2) (hr : r = field data 4 16) (h : ch < 1120)
    (hreserved : field data 2 2 = 0) (hok : channelRecordOk r = true) : State.channelConfigAct c data s =
      if s.groupOut c (groupOf ch) then refuse abState s
      else if s.spanChanges c ch r && ((armable ch && (s.channel c ch).armed) || (s.channel c ch).spanAt.isSome ||
        ((s.channel c ch).configNext.isSome &&
          ccSpan ((s.channel c ch).configNext.getD 0) != ccSpan ((s.channel c ch).record ch)) ||
        (s.channelLoops c ch).any (fun l => l.2 != .manual)) then refuse abState s
      else accept ((s.modChannel c ch (fun x => { x with configNext := some r })).bump (dacIdx c) 0xE
        (if s.spanChanges c ch r then 1 else 0)) := by
  subst hch hr
  exact if_neg (by simp [hreserved, hok]; omega)

/-- A channel record that a group's state or a span in use bars. -/
theorem State.channelConfigAct_barred (hch : ch = field data 0 2) (hr : r = field data 4 16) (h : ch < 1120)
    (hreserved : field data 2 2 = 0) (hok : channelRecordOk r = true) (hbarred : s.groupOut c (groupOf ch) = true ∨
      (s.spanChanges c ch r = true ∧ ((armable ch = true ∧ (s.channel c ch).armed = true) ∨ (s.channel c ch).spanAt ≠ none ∨
        ∃ l ∈ s.channelLoops c ch, l.2 ≠ .manual))) : State.channelConfigAct c data s = refuse abState s := by
  rw [State.channelConfigAct_formed hch hr h hreserved hok]
  rcases hbarred with hout | ⟨hspan, hinUse⟩
  · rw [if_pos hout]
  · have hany : ((armable ch && (s.channel c ch).armed) || (s.channel c ch).spanAt.isSome ||
        ((s.channel c ch).configNext.isSome &&
          ccSpan ((s.channel c ch).configNext.getD 0) != ccSpan ((s.channel c ch).record ch)) ||
        (s.channelLoops c ch).any (fun l => l.2 != .manual)) = true := by
      simp only [Bool.or_eq_true, Bool.and_eq_true, Option.isSome_iff_ne_none, List.any_eq_true, bne_iff_ne]
      rcases hinUse with harmed | hchanging | hloop
      · exact .inl (.inl (.inl harmed))
      · exact .inl (.inl (.inr hchanging))
      · exact .inr hloop
    rw [hspan, hany]
    exact ite_self _

end

-- groups (R430, R431)

section
variable {s : State} {c n : Nat}

/-- A strobe of one group, unless it takes its targets from a queue. -/
def DacGroup.strobed (x : DacGroup) : DacGroup := if x.queueMode then x else { x with strobe := true }

theorem State.strobeGroups_group (gs : List Nat) (s : State) (g : Nat) :
    (((gs.foldl (fun s g => s.modConv c (fun k => k.modGroup g DacGroup.strobed)) s).conv c).group g).queueMode =
      ((s.conv c).group g).queueMode ∧
    (((gs.foldl (fun s g => s.modConv c (fun k => k.modGroup g DacGroup.strobed)) s).conv c).group g).strobe =
      (((s.conv c).group g).strobe || (decide (g ∈ gs) && !((s.conv c).group g).queueMode)) := by
  induction gs generalizing s with
  | nil => simp
  | cons y gs ih =>
    obtain ⟨hmode, hstrobe⟩ := ih (s.modConv c (fun k => k.modGroup y DacGroup.strobed))
    have hgroup : (((s.modConv c (fun k => k.modGroup y DacGroup.strobed)).conv c).group g) =
        if g = y then ((s.conv c).group y).strobed else (s.conv c).group g := by
      rw [State.modConv_conv, if_pos rfl, Converters.modGroup_group]
    rw [List.foldl_cons, hmode, hstrobe, hgroup]
    by_cases hg : g = y
    · subst hg
      cases hqueue : ((s.conv c).group g).queueMode <;> simp [DacGroup.strobed, hqueue]
    · simp [hg]

theorem State.groupStrobeAct_malformed (h : 2 ^ 35 ≤ n) : State.groupStrobeAct c n s = refuse abRange s := by
  refine if_pos ?_
  simp only [bne_iff_ne]
  omega

theorem State.groupStrobeAct_formed (h : n < 2 ^ 35) : State.groupStrobeAct c n s =
    if ((List.range 35).filter (fun g => bitOf n g)).any (s.groupOut c) then refuse abState s
    else accept (((List.range 35).filter (fun g => bitOf n g)).foldl
      (fun s g => s.modConv c (fun k => k.modGroup g DacGroup.strobed)) s) := by
  refine if_neg ?_
  simp only [bne_iff_ne]
  omega

theorem State.queueWriteAct_frames {data : List Byte} {g k : Nat} (hg : g = field data 0 1) (hlength : data.length = 4 + 64 * k)
    (h1 : 1 ≤ k) (h256 : k ≤ 256) (hreserved : field data 1 3 = 0) (h35 : g < 35) (hin : s.groupOut c g = false) :
    State.queueWriteAct c data s = if 256 < ((s.conv c).group g).queue.length + k then refuse abStore s
      else accept (s.modConv c (fun x => x.modGroup g (fun y => { y with queue := y.queue ++ (List.range k).map (frameCodes data) }))) := by
  have hk : (data.length - 4) / 64 = k := by omega
  subst hg
  unfold State.queueWriteAct
  dsimp only
  rw [hk, if_neg (by simp; omega), if_neg (by simp [hreserved]; omega), if_neg (by simp [hin])]

end

-- generators and wheels (R434, R443)

section
variable {s : State} {c : Nat} {data : List Byte}

/-- The fields of a Generator Write that may stand. -/
def generatorOk (data : List Byte) : Prop := field data 0 1 < 64 ∧ field data 1 3 = 0 ∧ field data 4 4 ≤ 0x40000000 ∧
  field data 12 1 ≤ 1 ∧ field data 13 7 = 0

theorem generatorOk_iff : (64 ≤ field data 0 1 || field data 1 3 != 0 || 0x40000000 < field data 4 4 || 1 < field data 12 1 ||
    field data 13 7 != 0) = true ↔ ¬ generatorOk data := by
  simp only [Bool.or_eq_true, decide_eq_true_eq, bne_iff_ne, generatorOk]
  omega

theorem State.generatorAct_malformed (h : ¬ generatorOk data) : State.generatorAct c data s = refuse abRange s :=
  if_pos (generatorOk_iff.2 h)

theorem State.generatorAct_formed (h : generatorOk data) : State.generatorAct c data s =
    accept (s.modConv c (fun k => { k with generators := tmod k.generators (field data 0 1) (fun x => { x with
      next := some (field data 4 4, field data 8 4, field data 12 1 = 1) }) })) :=
  if_neg (fun hnot => generatorOk_iff.1 hnot h)

theorem State.wheelAct_barred {v : Nat} (h : s.convertersOut c = true) : State.wheelAct c v s = refuse abState s := if_pos h

theorem State.wheelAct_conv {v : Nat} (h : s.convertersOut c = false) :
    (bitOf v 0 = true → ((State.wheelAct c v s).2.conv c) = { s.conv c with wheel := [], wheelPos := 0, wheelArmed := true }) ∧
    (bitOf v 0 = false → ((State.wheelAct c v s).2.conv c) = s.conv c) := by
  unfold State.wheelAct
  rw [if_neg (by simp [h])]
  refine ⟨fun hrun => ?_, fun hrun => ?_⟩
  · rw [if_pos hrun]
    dsimp only [accept]
    rw [State.setVal_conv, State.setVal_conv, State.modConv_conv, if_pos rfl]
  · rw [if_neg (by simp [hrun])]
    exact State.setVal_conv ..

end

end Sys2Proof.Machine
end

section
/-! Settling O56. -/

namespace Sys2Proof.Machine

/-- Settles O56: the tick moves generators, channels and codes; moves, queues and spans follow it, and each write is checked in order and
leaves what the tick takes. That a command off its tick, or with the ARM bit of the other row, does nothing is log entry 2; what a
channel holds that has not been configured is log entry 3. -/
theorem channelsAndConvertersFollowTheTick : Obligations.ChannelsAndConvertersFollowTheTick := by
  refine ⟨?tick, ?code, ?reference, ?channels, ?queues, ?arming, ?channelWrites, ?groupWrites⟩
  case tick =>
    rintro s b dt c volts refs hb
    rw [exec_converterTick, ← hb]
    refine ⟨fun h => congrArg Host.Outcome.next (if_pos (by simpa using h)), fun hsupply htick => ⟨_, rfl, ?_⟩⟩
    obtain ⟨hchannels, hgenerators, hcodes⟩ := State.converterTick_conv (volts := volts) (refs := refs) hsupply htick
    refine ⟨fun g x hx => ?_, fun v hv hout => ?_, fun ch hfault hconfig => ?_⟩
    · rw [hgenerators, State.ticked_generator, ← hx]
      refine ⟨fun h => Generator.tick_moves (by simpa using h), fun ftw phase enable hstart hnext => ?_⟩
      rw [hstart]
      exact Generator.tick_takes hnext
    · rw [hcodes]
      exact State.converted_code hv hout
    · obtain ⟨code, clipped, hfaulted⟩ := State.ticked_faulted hfault hconfig
      have hchannel : (b.converterTick c volts refs).channel c ch =
          { (b.channel c ch).faulted ch with wait := 0, code := code, clipped := clipped } := by
        rw [State.channel, Converters.channel, hchannels, hfaulted]
      rw [hchannel]
      exact ⟨rfl, rfl, rfl, fun h => if_pos h⟩
  case code =>
    intro uv
    refine ⟨adcCode_low, adcCode_high, adcCode_inside, ?_⟩
    show (decide (uv < 0) || decide (2500000 ≤ uv)) = true ↔ _
    simp
  case reference =>
    rintro s b dt c v hb
    rw [exec_adcReference, ← hb]
    refine ⟨fun h => by rw [State.adcFault_quiet h], fun hbad hworks => ⟨_, rfl, ?_⟩⟩
    have hkind := adcRef_kind c v
    have hfenced : ((b.raise 0x0607 (adcRef c v) 0).fence (adcRef c v)).unit (adcRef c v) = .fenced :=
      State.fence_fenced _ (by omega) (by omega)
    rw [State.adcFault_fences hbad hworks]
    refine ⟨?_, fun hkeys slot hunits hruns => ?_⟩
    · rw [(State.holdLoops_keeps (Within.refl _) c (.refl _ _)).unit_eq _ (by decide), hfenced]
    · have hloops : ((b.raise 0x0607 (adcRef c v) 0).fence (adcRef c v)).loopCore c = b.loopCore c := by
        rw [(State.fence_keeps (Within.refl _) _ (.refl _ _)).loopCore_eq _ (by decide), State.raise_loopCore]
      have hloop : ((b.raise 0x0607 (adcRef c v) 0).fence (adcRef c v)).loop c slot = b.loop c slot := by
        rw [State.loop, hloops, State.loop]
      exact State.holdLoops_fenced (by rw [hloops]; exact hkeys) (by rw [State.loopUnits_congr hloop]; exact hunits) hfenced
        (by rw [hloop]; exact hruns)
  case channels =>
    rintro s b dt c ch x hb rfl
    rw [exec_slewMove, exec_spanChangeEnd, ← hb]
    refine ⟨fun h => by rw [State.slewMove_not h], fun htick hgap hspan hwait => ⟨_, _, rfl, rfl, ?_⟩,
      fun h => by rw [State.spanEnd_none h], fun at_ h => ⟨fun hearly => ?_, fun hlate => ⟨_, rfl, ?_⟩⟩, fun cause => ?_⟩
    · obtain ⟨htarget, hall, hup, hdown, hwaits⟩ := Channel.move_effect (b.channel c ch) ch (b.conv c).generators
      rw [State.slewMove_moves htick hgap hspan hwait, State.modChannel_channel, if_pos rfl]
      refine ⟨htarget, fun k hk => hk ▸ ⟨hall, hup, hdown⟩, hwaits, fun other hother => ?_⟩
      rw [State.modChannel_channel, if_neg hother]
    · rw [State.spanEnd_some h, if_pos (show b.up < at_ + 10 * usPs from hearly)]
    · rw [State.spanEnd_some h, if_neg (show ¬ b.up < at_ + 10 * usPs from hlate.not_gt), State.modChannel_channel, if_pos rfl]
      exact ⟨rfl, rfl, rfl⟩
    · rw [exec_dacDriverFault, ← hb]
      refine ⟨fun h => by rw [State.driverFault_not h], fun harmable hstands harmed hloops => ⟨_, rfl, ?_⟩⟩
      rw [State.driverFault_alone harmable hstands harmed hloops]
      have hchannel : (((b.modChannel c ch (fun x => { x with driverFault := true, faultNext := true })).bump (dacIdx c) 0x0C 1).raise
          0x0605 (dacRef c (groupOf ch)) ch).channel c ch = { b.channel c ch with driverFault := true, faultNext := true } := by
        rw [State.channel, State.raise_conv, State.bump_conv]
        exact (State.modChannel_channel b c ch _ ch).trans (if_pos rfl)
      rw [hchannel]
      refine ⟨rfl, rfl, ?_⟩
      rw [State.raise_units, State.bump_units]
      exact (State.modChannel_keeps (Within.refl _) c ch _ (.refl _ b)).units_eq (by decide)
  case queues =>
    rintro s b dt c g x hb rfl
    rw [exec_queueTick, ← hb]
    refine ⟨fun h => by rw [State.queueTick_not h], fun htick hmode hperiod hin => ⟨fun hqueue => ⟨_, rfl, ?_⟩,
      fun f rest hqueue => ⟨_, rfl, ?_⟩⟩⟩
    · rw [State.queueTick_underrun htick hmode hperiod hin hqueue]
      refine ⟨rfl, ?_⟩
      rw [Converters.modGroup_group, if_pos rfl]
    · have hconv := State.queueTick_delivers htick hmode hperiod hin hqueue
      refine ⟨?_, ?_⟩
      · rw [hconv, Converters.group, Converters.deliverFrame_groups]
        exact (Converters.modGroup_group (b.conv c) g g _).trans (if_pos rfl)
      · rintro i hi r rfl
        have hchannel : (b.queueTick c g).channel c (32 * g + i) =
            (b.channel c (32 * g + i)).deliver (32 * g + i) (f.getD i 0) := by
          rw [State.channel, hconv, Converters.deliverFrame_channel, if_pos (List.mem_range.2 hi)]
          rfl
        rw [hchannel]
        exact ⟨rfl, rfl⟩
  case arming =>
    rintro s b dt n road c w via hb hn rfl
    rw [exec_arm, exec_disarm, ← hb, ← hn]
    refine ⟨fun h => by rw [if_neg (by simp [h])], fun h => by rw [if_pos h], fun hgate i hi barred hbarred => ?_⟩
    have hexec : exec i s = .next (b.writeRow road (dacIdx c) 6 (leBytes 4 n) (State.armCommandAct c n)) := by
      unfold State.armCommandAct
      rw [hi]
      cases hbit : bitOf n 12
      · rw [if_neg (by decide), exec_disarm, ← hb, ← hn, hbit]
        rfl
      · rw [if_pos rfl, exec_arm, ← hb, ← hn, hbit]
        rfl
    obtain ⟨hmalformed, hformed⟩ := b.armCommandAct_effect c n
    rw [hexec, State.writeRow_admitted hgate]
    refine ⟨fun h => by rw [hmalformed h]; rfl, fun h htargets harmable => ?_⟩
    obtain ⟨hrefused, harms⟩ := hformed h htargets harmable
    refine ⟨fun hbars => by rw [hrefused (hbarred.mp hbars)]; rfl, fun hfree => ⟨_, rfl, fun ch => ?_⟩⟩
    rw [harms (fun hbars => hfree (hbarred.mpr hbars)), State.channel, State.reply_conv]
    exact State.modChannels_channel (f := fun x => { x with armNext := some (bitOf n 12) }) (fun _ => rfl) c _ b ch
  case channelWrites =>
    rintro s b dt ch r road c data hb hch hr
    rw [exec_channelWrite, exec_channelConfigWrite, ← hb]
    refine ⟨fun hgate barred hbarred => ?write, fun hgate x hx span hspan => ?config⟩
    case write =>
      rw [State.writeRow_admitted hgate]
      have hcond : (b.groupOut c (groupOf ch) || b.standsBy c ch || !(b.channelLoops c ch).isEmpty ||
          ((b.conv c).group (groupOf ch)).queueMode) = true ↔ barred := by
        simp [hbarred, or_assoc]
      refine ⟨fun h => by rw [State.channelWriteAct_unknown hch h]; rfl, fun h hbars => ?_, fun h hfree => ⟨_, rfl, ?_⟩⟩
      · rw [State.channelWriteAct_known hch h, if_pos (hcond.2 hbars)]
        rfl
      · rw [State.channelWriteAct_known hch h, if_neg (mt hcond.1 hfree), State.channel, State.reply_conv]
        exact (State.modChannel_channel b c ch _ ch).trans (if_pos rfl)
    case config =>
      subst hx
      have hchanges : b.spanChanges c ch r = true ↔ span := by simp [State.spanChanges, hspan]
      rw [State.writeRow_admitted hgate]
      refine ⟨fun h => by rw [State.channelConfigAct_malformed hch hr h]; rfl, fun h hreserved hok => ⟨fun hbars => ?_, fun hin hsame =>
        ⟨_, rfl, ?_⟩⟩⟩
      · rw [State.channelConfigAct_barred hch hr h hreserved hok (hbars.imp_right (fun h => ⟨hchanges.2 h.1, h.2⟩))]
        rfl
      · have hno : b.spanChanges c ch r = false := by simpa using mt hchanges.1 hsame
        rw [State.channelConfigAct_formed hch hr h hreserved hok, if_neg (by simp [hin]), if_neg (by simp [hno]), State.channel,
          State.reply_conv]
        exact (congrArg (Converters.channel · ch) (State.bump_conv ..)).trans
          ((State.modChannel_channel b c ch _ ch).trans (if_pos rfl))
  case groupWrites =>
    rintro s b dt n road c w data value hb hn
    rw [exec_groupStrobe, exec_queueWrite, exec_generatorWrite, exec_wheelRun, ← hb, ← hn]
    refine ⟨fun hgate => ?strobe, fun hgate g k hg hlength h1 h256 hreserved h35 hin => ?queue, fun hgate g hg ok hok => ?generator,
      fun hgate => ?wheel⟩
    case strobe =>
      rw [State.writeRow_admitted hgate]
      refine ⟨fun h => by rw [State.groupStrobeAct_malformed h]; rfl, fun h hout => ?_, fun h hin => ⟨_, rfl, fun g hg => ?_⟩⟩
      · rw [State.groupStrobeAct_formed h, if_pos]
        · rfl
        · simpa [and_assoc] using hout
      · rw [State.groupStrobeAct_formed h, if_neg, State.reply_conv]
        · refine (State.strobeGroups_group _ b g).2.trans ?_
          simp [hg]
        · simpa using hin
    case queue =>
      rw [State.writeRow_admitted hgate, State.queueWriteAct_frames hg hlength h1 h256 hreserved h35 hin]
      refine ⟨fun h => by rw [if_pos h]; rfl, fun h => ⟨_, rfl, ?_⟩⟩
      rw [if_neg h.not_gt, State.reply_conv]
      dsimp only [accept]
      rw [State.modConv_conv, if_pos rfl, Converters.modGroup_group, if_pos rfl]
    case generator =>
      have hok' : ok ↔ generatorOk data := by rw [hok, hg]; rfl
      rw [State.writeRow_admitted hgate]
      refine ⟨fun h => by rw [State.generatorAct_malformed (mt hok'.2 h)]; rfl, fun h => ⟨_, rfl, ?_⟩⟩
      rw [State.generatorAct_formed (hok'.1 h), State.reply_conv]
      dsimp only [accept]
      rw [State.modConv_conv, if_pos rfl, hg]
      dsimp only
      rw [tget_tmod, if_pos rfl]
    case wheel =>
      rw [State.writeRow_admitted hgate]
      refine ⟨fun h => by rw [State.wheelAct_barred h]; rfl, fun h => ⟨_, rfl, ?_⟩⟩
      obtain ⟨hruns, hstays⟩ := State.wheelAct_conv (s := b) (c := c) (v := value.toNat) h
      rw [State.reply_conv]
      refine ⟨fun hrun => ?_, hstays⟩
      rw [hruns hrun]
      exact ⟨rfl, rfl, rfl⟩

end Sys2Proof.Machine
end

section
/-! States that meet the hypotheses of O56. -/

namespace Sys2Proof.Machine

open Tests (served)

/-- A served part with core 0 supplied and its DAC groups READY; channel 0 is armed with a fault that waits, channel 1 moves in steps of
16 codes, and group 2 takes its targets from a queue of one frame. -/
def convertersServed : State := { served with
  units := (List.range 35).foldl (fun t g => tmod t (dacRef 0 g) (fun u => { u with st := .ready })) served.units
  cores := tmod served.cores 0 (fun k => { k with supply := 650 })
  convs := tset served.convs 0 {
    channels := [(0, { faultNext := true, armed := true }), (1, { target := 0x8040, config := some (channelDefault 1 + 16 * 2 ^ 32) })]
    groups := [(2, { queueMode := true, queue := [[5]] })]
    generators := [(0, { ftw := 7 })] } }

/-- At a tick the generator advances and the fault value goes out. -/
theorem witness_converterTick : ∃ t, exec (.converterTick 0 0 [] []) convertersServed = .next t ∧
    (tget (t.conv 0).generators 0).acc = 7 ∧ (t.channel 0 0).output = 0x8000 ∧ (t.channel 0 0).armed = false := by
  obtain ⟨htick, -⟩ := channelsAndConvertersFollowTheTick
  obtain ⟨-, hticks⟩ := htick convertersServed _ 0 0 [] [] rfl
  obtain ⟨t, ht, hgenerators, -, hfaults⟩ := hticks (by decide) (by decide)
  obtain ⟨hmoves, -⟩ := hgenerators 0 _ rfl
  obtain ⟨-, hout, -, harmed⟩ := hfaults 0 (by decide) (by decide)
  exact ⟨t, ht, (congrArg Generator.acc (hmoves (.inr (by decide)))).trans (by decide), hout, harmed (by decide)⟩

/-- OUTPUT moves by SLEW_STEP, and the queue delivers its frame. -/
theorem witness_slewAndQueue : (∃ t, exec (.slewMove 0 0 1) convertersServed = .next t ∧ (t.channel 0 1).output = 0x8010) ∧
    ∃ t, exec (.queueTick 0 0 2) convertersServed = .next t ∧ (t.channel 0 64).target = 5 := by
  obtain ⟨-, -, -, hchannels, hqueues, -⟩ := channelsAndConvertersFollowTheTick
  obtain ⟨-, hmoves, -⟩ := hchannels convertersServed _ 0 0 1 _ rfl rfl
  obtain ⟨t, y, ht, hy, -, hsteps, -⟩ := hmoves (by decide) (by decide) (by decide) (by decide)
  obtain ⟨-, hup, -⟩ := hsteps 16 (by decide)
  obtain ⟨-, hdue⟩ := hqueues convertersServed _ 0 0 2 _ rfl rfl
  obtain ⟨-, hdelivers⟩ := hdue (by decide) (by decide) (by decide) (by decide +kernel)
  obtain ⟨u, hu, -, hcodes⟩ := hdelivers [5] [] (by decide)
  obtain ⟨htarget, -⟩ := hcodes 0 (by decide) _ rfl
  exact ⟨⟨t, ht, ((congrArg Channel.output hy).symm.trans (hup (by decide) (by decide))).trans (by decide)⟩, u, hu,
    htarget.trans (by decide)⟩

/-- A word of no channel is refused, and ARM of a channel with a driver waits for the tick. -/
theorem witness_arm : exec (.arm 0 .coe 0 0x17FF) convertersServed =
      .next ((convertersServed.elapse 0).reply (viaOf .coe (dacIdx 0) 6) (dacIdx 0) 6 0x06090030) ∧
    ∃ t, exec (.arm 0 .coe 0 0x1001) convertersServed = .next t ∧ (t.channel 0 1).armNext = some true := by
  obtain ⟨-, -, -, -, -, harming, -⟩ := channelsAndConvertersFollowTheTick
  obtain ⟨-, -, hnone⟩ := harming convertersServed _ 0 0x17FF .coe 0 0x17FF _ rfl rfl rfl
  obtain ⟨-, -, hone⟩ := harming convertersServed _ 0 0x1001 .coe 0 0x1001 _ rfl rfl rfl
  obtain ⟨hmalformed, -⟩ := hnone ⟨by decide, by decide +kernel⟩ (.arm 0 .coe 0 0x17FF) rfl _ rfl
  obtain ⟨-, hformed⟩ := hone ⟨by decide, by decide +kernel⟩ (.arm 0 .coe 0 0x1001) rfl _ rfl
  obtain ⟨-, harms⟩ := hformed (by decide) (by decide) (fun _ => by decide)
  obtain ⟨t, ht, hchannels⟩ := harms (by decide +kernel)
  exact ⟨hmalformed (.inr (.inl (by decide))), t, ht, (congrArg Channel.armNext (hchannels 1)).trans (by decide)⟩

end Sys2Proof.Machine
end
